-- ==== Sys2Proof/Word.lean ====
section
/-! DEFINITION. The word types of the block: bytes of device and host memory, 64-bit register values. -/

namespace Sys2Proof

/-- A byte of device memory, host memory, a descriptor or an object. -/
abbrev Byte := BitVec 8

/-- A register value, held at 64 bits (a 32-bit register uses bits [31:0], R726). -/
abbrev W64 := BitVec 64

end Sys2Proof
end

