-- ==== Sys2Proof/Syntax.lean ====
section
/-! DEFINITION. The commands of the block: one constructor per row of spec/opcode_table.json. No row gives bits, so a
command has no word; its operands are what the row's agent supplies. `sq idx` name a descriptor in flight, `n` a
cluster, `s` a slice, `v` the value a host write puts into the row's register, `t` the DTIME of a timed happening. -/

namespace Sys2Proof

/-- What the comparators of one local channel read on one beat (R264, R266, R285). `code` holds CMPH and CMPL at S0 in bits 0
and 1 and at S1 in bits 2 and 3; under WINDOW, the two window codes. `both` marks both comparators at 1 at one instant of a
window (R267). -/
structure Sample where
  ch : Nat
  beat : Nat
  code : Nat
  both : Bool := false
  deriving DecidableEq, Repr

/-- What a calibration measures on one local channel (R247, R250, R251), 0.5 ps units: whether a transition was found; `path` is the worst
nonlinearity before correction (FINE), the CMPH path (CMP), the driver-to-comparator loop (DRV), the round trip (TDR); `second` is the worst
nonlinearity after correction (FINE), the CMPL path (CMP), the DEN path (DRV); the spread, and RISE_TRIM. -/
structure CalMeas where
  ch : Nat
  found : Bool := true
  path : Nat
  second : Nat := 0
  spread : Nat := 0
  rise : Int := 0
  deriving DecidableEq, Repr

/-- A packet or express message as a link receives it (R563, R565): its TYPE, its sequence number, its fields in the order
of its layout, its data bytes, and whether its CRC holds. -/
structure PlPacket where
  typ : Nat
  seq : Nat
  fields : List Nat := []
  data : List Byte := []
  crcOk : Bool := true
  deriving DecidableEq, Repr

/-- What boot finds outside the chip and in its silicon (R702, R524, R525): results the device measures or receives. -/
structure BootInput where
  t : Nat := 0
  /-- the time-base PLL locks within 10 ms; LREF, the PCIe reference and the crystal are there (R65) -/
  tref : Bool := true
  lref : Bool := true
  pcieRef : Bool := true
  xtal : Bool := true
  /-- a flash answers; its SFDP allows quad I/O at 1.8 V -/
  flash : Bool := true
  sfdp : Bool := true
  /-- physical cores that fail their self-test -/
  badCores : List Nat := []
  /-- trained rate of each channel: 0 untrained, else a rate code of MC_m_STAT.RATE -/
  rates : List Nat := []
  /-- capacity code of MC_m_STAT.CAP, and banks with a PPR row left, of each channel -/
  caps : List Nat := []
  ppr : List (List Nat) := []
  /-- process readings (R669) -/
  procs : List Nat := []
  /-- FUSE_CRC holds (R697) -/
  fuseOk : Bool := true
  /-- the images that the flash returns from slots A and B (R702) -/
  slotA : List Byte := []
  slotB : List Byte := []
  deriving DecidableEq, Repr

/-- A host read (R17, R484): the byte offset in BAR0, or 2^21 plus the byte offset in BAR2, and the size of the access in bytes. -/
structure ReadAccess where
  off : Nat
  size : Nat := 4
  deriving DecidableEq, Repr

/-- What the host configures in PCIe configuration space (R481, R483, R506, R511): bus mastering, MSI-X and its function mask, ASPM L1,
the payload and read request sizes as powers of two times 128 bytes, and the bases of the two BARs. -/
structure PcieCfg where
  busMaster : Bool := false
  msixEn : Bool := false
  msixMask : Bool := false
  l1En : Bool := false
  payload : Nat := 0
  readReq : Nat := 2
  bar0 : Nat := 0
  bar2 : Nat := 0
  deriving DecidableEq, Repr

/-- A write of RST_BLOCK, and whether a fault-driven reset of the same unit takes effect in the same cycle (R34). -/
structure ResetAccess where
  v : W64
  fault : Bool := false
  deriving DecidableEq, Repr

/-- A request that arrives at a channel arbiter (R532, R538): the requester, its first device address and its bytes, whether it writes, the
task of a context read, whether its row is open when it is decided, and when it arrived. -/
structure ArbReq where
  id : Nat
  addr : Nat := 0
  size : Nat := 32
  write : Bool := false
  tid : Nat := 0
  openRow : Bool := false
  since : Nat := 0
  deriving DecidableEq, Repr

/-- A read as the DRAM answers it (R529, R543, R544): the granule's address, the requester, the bits of each of its eight 72-bit words that
are wrong, and the address whose data came back where the address was mis-decoded; for a pattern fetch the logical slice, the first vector that needs the data, and whether it was read
into the branch buffer for the target's path (R136), for a context read the task, for a list fetch the frames before the granule, for a host DMA read its descriptor. -/
structure ReadRet where
  addr : Nat
  req : Nat
  flips : List Nat := []
  from' : Option Nat := none
  sl : Nat := 0
  vec : Nat := 0
  target : Bool := false
  tid : Nat := 0
  frames : Nat := 0
  sq : Nat := 0
  idx : Nat := 0
  t : Nat := 0
  deriving DecidableEq, Repr

/-- The commands (opcode_table.json). -/
inductive Instr where
  /-- NOP (R492). | NOP descriptor completes with OK; with FENCE it shows that earlier descriptors of its ring are done. -/
  | nop (sq : Nat) (idx : Nat)
  /-- DECLARE_SITE (R72). | DECLARE_SITE descriptor tests absent units and then the checks of R71, and maps the site to a slice, declares it blocked, or refuses it. -/
  | declareSite (sq : Nat) (idx : Nat)
  /-- UNDECLARE_SITE (R90). | UNDECLARE_SITE descriptor aborts a queued burst of a non-group site, or waits for a running burst, and then removes the site. -/
  | undeclareSite (sq : Nat) (idx : Nat)
  /-- DEFERRED_DECLARATION (R80). | A waiting DECLARE_SITE or UNDECLARE_SITE that changes lockstep membership takes effect when the group's burst completes. -/
  | deferredDeclaration (sq : Nat) (idx : Nat)
  /-- DEFERRED_UNDECLARATION (R90). | A waiting UNDECLARE_SITE takes effect when the site's running burst completes: it ends tasks, operations and regions and frees channels, chains and the slice. -/
  | deferredUndeclaration (sq : Nat) (idx : Nat)
  /-- LOAD_PATTERN (R119). | LOAD_PATTERN descriptor checks its fields, reads the header and index, asks placement for room and starts reading the object. -/
  | loadPattern (sq : Nat) (idx : Nat) (src : Option (List Byte))
  /-- OBJECT_LOAD_COMPLETE (R119). | The last bytes of an object arrive and are stored, the digest and deep checks are finished, and the load completes. -/
  | objectLoadComplete (sq : Nat) (idx : Nat) (ue : Option Nat)
  /-- UNLOAD_PATTERN (R122). | UNLOAD_PATTERN descriptor aborts the object's queued bursts and waits for its running bursts. -/
  | unloadPattern (sq : Nat) (idx : Nat)
  /-- DEFERRED_UNLOAD (R122). | A waiting unload frees the object and its ID once its last running burst completes. -/
  | deferredUnload (sq : Nat) (idx : Nat)
  /-- APG_FALLBACK (R330). | APG_FALLBACK descriptor sets or removes the fallback link of an APG object. -/
  | apgFallback (sq : Nat) (idx : Nat)
  /-- BIND_APG (R315). | BIND_APG descriptor checks its fields and the setup block and binds or unbinds an APG unit for a site or group. -/
  | bindApg (sq : Nat) (idx : Nat) (src : Option (List Byte))
  /-- DEFERRED_BIND_APG (R316). | A BIND_APG that waited for a queued or running burst takes effect when that burst completes. -/
  | deferredBindApg (sq : Nat) (idx : Nat)
  /-- LOAD_TSET (R227). | LOAD_TSET descriptor reads and checks a timing set and derives the multiplex modes it allows. -/
  | loadTset (sq : Nat) (idx : Nat) (src : Option (List Byte))
  /-- DEFERRED_TSET_LOAD (R212). | A timing-set load that would shorten an admitted burst's period waits, and takes effect once those bursts have ended. -/
  | deferredTsetLoad (sq : Nat) (idx : Nat)
  /-- UNLOAD_TSET (R230). | UNLOAD_TSET descriptor checks that the set is loaded and waits while admitted bursts may select it. -/
  | unloadTset (sq : Nat) (idx : Nat)
  /-- DEFERRED_TSET_UNLOAD (R230). | A waiting UNLOAD_TSET removes the set once no admitted burst of the cluster can select it. -/
  | deferredTsetUnload (sq : Nat) (idx : Nat)
  /-- CALIBRATE (R249). | CALIBRATE descriptor checks its fields and queues behind other calibrations of the cluster. -/
  | calibrate (sq : Nat) (idx : Nat)
  /-- CALIBRATION_START (R250). | A queued CALIBRATE reaches its turn, sends PE_SETUP and begins measuring the named channels. -/
  | calibrationStart (sq : Nat) (idx : Nat)
  /-- CALIBRATION_COMPLETE (R250). | Measurement ends, PE_RESTORE is sent, the result buffer and, with APPLY, the deskew registers are written, and CALIBRATE completes. -/
  | calibrationComplete (sq : Nat) (idx : Nat) (meas : List CalMeas)
  /-- RUN_BURST (R490). | RUN_BURST descriptor submits a burst at the ring's priority, subject to the refusal checks and to admission. -/
  | runBurst (sq : Nat) (idx : Nat)
  /-- ABORT_OP (R491). | ABORT_OP descriptor ends the site's queued or running operations of the named kinds. -/
  | abortOp (sq : Nat) (idx : Nat)
  /-- READ_PLACEMENT (R208). | READ_PLACEMENT descriptor writes a snapshot of the placement table, or a translated address, to host memory. -/
  | readPlacement (sq : Nat) (idx : Nat)
  /-- DEFINE_REGION (R274). | DEFINE_REGION descriptor checks its fields and places, and for a BITMAP region zeroes, a capture region. -/
  | defineRegion (sq : Nat) (idx : Nat)
  /-- DEFERRED_REGION_DEFINE (R274). | A DEFINE_REGION that waited for the site's running burst takes effect when that burst completes. -/
  | deferredRegionDefine (sq : Nat) (idx : Nat)
  /-- FREE_REGION (R275). | FREE_REGION descriptor checks the region and waits while a burst of its site runs. -/
  | freeRegion (sq : Nat) (idx : Nat)
  /-- DEFERRED_REGION_FREE (R275). | A waiting FREE_REGION frees the region and its ID once the site's burst has ended. -/
  | deferredRegionFree (sq : Nat) (idx : Nat)
  /-- CLEAR_REGION (R275). | CLEAR_REGION descriptor checks the region and waits while a burst of its site runs. -/
  | clearRegion (sq : Nat) (idx : Nat)
  /-- DEFERRED_REGION_CLEAR (R275). | A waiting CLEAR_REGION zeroes the region and resets its header once the site's burst has ended. -/
  | deferredRegionClear (sq : Nat) (idx : Nat)
  /-- READ_REGION (R275). | READ_REGION descriptor copies bytes of a region to host memory, also while bursts run. -/
  | readRegion (sq : Nat) (idx : Nat)
  /-- READ_SITE_RESULT (R272). | READ_SITE_RESULT descriptor writes the site's result header and per-channel counts to host memory. -/
  | readSiteResult (sq : Nat) (idx : Nat)
  /-- ACQUIRE (R352). | ACQUIRE descriptor checks its fields and sets up an acquisition of the named filter chains into the site's SAMPLE region. -/
  | acquire (sq : Nat) (idx : Nat)
  /-- MEASURE_INTERVAL (R381). | MEASURE_INTERVAL descriptor checks its fields and hands a measurement to an idle interval meter. -/
  | measureInterval (sq : Nat) (idx : Nat)
  /-- LOAD_FLOW (R402). | LOAD_FLOW descriptor loads and checks a flow program object. -/
  | loadFlow (sq : Nat) (idx : Nat) (src : Option (List Byte))
  /-- UNLOAD_FLOW (R404). | UNLOAD_FLOW descriptor unloads a flow program that no task runs or holds on its call stack. -/
  | unloadFlow (sq : Nat) (idx : Nat)
  /-- LOAD_PE_LIST (R402). | LOAD_PE_LIST descriptor loads and checks a PE frame list. -/
  | loadPeList (sq : Nat) (idx : Nat) (src : Option (List Byte))
  /-- UNLOAD_PE_LIST (R404). | UNLOAD_PE_LIST descriptor waits until no port holds the list queued or running. -/
  | unloadPeList (sq : Nat) (idx : Nat)
  /-- DEFERRED_PE_LIST_UNLOAD (R404). | A waiting UNLOAD_PE_LIST unloads the list once no port holds it. -/
  | deferredPeListUnload (sq : Nat) (idx : Nat)
  /-- START_FLOW (R406). | START_FLOW descriptor creates a task, makes it READY and returns its TASK_ID. -/
  | startFlow (sq : Nat) (idx : Nat)
  /-- ABORT_TASK (R468). | ABORT_TASK descriptor ends a task with ABORTED, at once or at its next step boundary. -/
  | abortTask (sq : Nat) (idx : Nat)
  /-- SIGNAL_TASK (R468). | SIGNAL_TASK descriptor sets user flags in a task. -/
  | signalTask (sq : Nat) (idx : Nat)
  /-- READ_TASK (R468). | READ_TASK descriptor writes a task's table entry and context, as at one step boundary, to host memory. -/
  | readTask (sq : Nat) (idx : Nat)
  /-- LOCK (R466). | LOCK descriptor requests a lock for its ring; a free lock is granted at once, a held one queues the request. -/
  | lockDesc (sq : Nat) (idx : Nat)
  /-- LOCK_TIMEOUT (R466). | The timeout of a ring's queued lock request expires; the request leaves the queue and completes with TIMEOUT. -/
  | lockTimeout (sq : Nat) (idx : Nat) (t : Nat)
  /-- UNLOCK (R467). | UNLOCK descriptor releases a lock the ring owns and grants it to the head of its queue. -/
  | unlockDesc (sq : Nat) (idx : Nat)
  /-- LANE_REVIVE (R578). | LANE_REVIVE descriptor retrains retired lanes of a link and lets them rejoin. -/
  | laneRevive (sq : Nat) (idx : Nat)
  /-- RING_ALIGN (R588). | RING_ALIGN descriptor on position 0 starts the two alignment passes of the ring. -/
  | ringAlign (sq : Nat) (idx : Nat)
  /-- PAIR_JOIN (R605). | PAIR_JOIN descriptor makes the pairing checks, claims the role if needed and starts the snapshot. -/
  | pairJoin (sq : Nat) (idx : Nat)
  /-- PAIR_LEAVE (R607). | PAIR_LEAVE descriptor stops mirroring and returns both chips to UNPAIRED. -/
  | pairLeave (sq : Nat) (idx : Nat)
  /-- PAIR_SWITCH (R622). | PAIR_SWITCH descriptor stops bursts, flushes items, releases the role and hands it to the standby. -/
  | pairSwitch (sq : Nat) (idx : Nat)
  /-- LULL_ENTER (R662). | LULL_ENTER descriptor checks the refusal conditions and runs the Lull entry sequence. -/
  | lullEnter (sq : Nat) (idx : Nat)
  /-- READ_LIFE (R686). | READ_LIFE descriptor copies the lifetime image or the raw log region to host memory. -/
  | readLife (sq : Nat) (idx : Nat)
  /-- LIFE_FLUSH (R686). | LIFE_FLUSH descriptor writes a lifetime snapshot and completes once it is in flash. -/
  | lifeFlush (sq : Nat) (idx : Nat)
  /-- PATCH_APPLY (R714). | PATCH_APPLY descriptor verifies a patch image in host memory and replaces the running microcode patch. -/
  | patchApply (sq : Nat) (idx : Nat) (src : Option (List Byte))
  /-- FENCE_RELEASE (R505). | A descriptor with FENCE starts once every earlier descriptor of its ring has completed. -/
  | fenceRelease (sq : Nat) (idx : Nat)
  /-- DESCRIPTOR_FETCH (R503). | The device fetches entries from a submission ring that meets the fetch conditions, reserves their completion entries and accepts them in ring order. -/
  | descriptorFetch (k : Nat) (entries : List (List Byte)) (ok : Bool)
  /-- EVENT_POST (R499). | A queued event is written to its event ring once that ring has room, or waits. -/
  | eventPost (k : Nat)
  /-- IRQ_TIMER_EXPIRY (R507). | TIME_US passes since the oldest unreported entry of a ring and its MSI-X message is sent. -/
  | irqTimerExpiry (k : Nat) (t : Nat)
  /-- REGISTER_WRITE (R19). | A host write to a register that has no row of its own sets its RW, W1C and W1S fields under the access types. -/
  | registerWrite (off : Nat) (size : Nat) (v : W64)
  /-- SPLIT_READ_LATCH (R12). | A 32-bit read of the low half of a 64-bit register latches the high half for the following read. -/
  | splitReadLatch (a : ReadAccess)
  /-- CAL_SET (R57). | A write of CAL_SET loads CALSEC.SEC, clears SUB, sets VALID and captures CAL_EPOCH_DTIME. -/
  | calSet (v : W64)
  /-- SEQ_CTL_ABORT (R170). | A write of CL_n_SEQ_CTL.ABORT sends a stop request with ABORTED to the bursts of the named slices. -/
  | seqCtlAbort (n : Nat) (v : W64)
  /-- SITE_MASK_WRITE (R79). | A write of CL_n_SITE_MASK masks or unmasks lockstep members from a vector boundary not defined in advance. -/
  | siteMaskWrite (n : Nat) (v : W64)
  /-- DRIFT_ENABLE (R241). | CL_n_DRIFT_CTL.EN goes from 0 to 1 and the drift tracker acquires. -/
  | driftEnable (n : Nat) (v : W64)
  /-- DRIFT_DISABLE (R242). | A write of EN = 0 freezes the drift trims at their current values. -/
  | driftDisable (n : Nat) (v : W64)
  /-- RESET_TRIM (R242). | A write of RESET_TRIM sets both trims to their calibration values, and the tracker reacquires if EN is 1. -/
  | resetTrim (n : Nat) (v : W64)
  /-- DESKEW_WRITE (R246). | A write of CL_n_DSK_c or CL_n_DSK2_c takes effect at once or at the owning slice's next vector boundary. -/
  | deskewWrite (n : Nat) (c : Nat) (second : Bool) (v : W64)
  /-- ALIGN (R342). | A write of CL_n_ADC_CFG.ALIGN starts the lane-phase search of the ADC port. -/
  | adcAlign (n : Nat) (v : W64)
  /-- ADC_ALIGNMENT_COMPLETE (R342). | The phase search ends, and the port sets ALIGNED or ALIGN_FAIL: bit i of m0 and of m1 says that at sampling
  step i every one of the 1,024 frames of lane 0 and of lane 1 equalled ALIGN_PAT; the search ends at t. -/
  | adcAlignmentComplete (n : Nat) (m0 : Nat) (m1 : Nat) (t : Nat)
  /-- PRESET (R346). | A write of FCHAIN_kk_CTL.PRESET loads LEN_M1 and DEC_LOG2 and restarts the chain's window. -/
  | chainPreset (k : Nat) (v : W64)
  /-- FCHAIN_ENABLE (R344). | FCHAIN_kk_CTL.EN rises; the DC estimate is set from the first sample and the window restarts. -/
  | fchainEnable (k : Nat) (v : W64)
  /-- ARM (R366). | A write of CL_n_TRG_CTL_u.ARM arms a trigger unit from the DTIME of the write. -/
  | trigArm (n : Nat) (u : Nat) (v : W64)
  /-- IMETER_ABORT (R394). | A write of CL_n_IMTR_i_CTL.ABORT ends the running measurement with ABORTED, unless its stop came first. -/
  | imeterAbort (n : Nat) (u : Nat) (v : W64)
  /-- PADDOCK_WARDEN_WRITE (R477). | A write of PADDOCK_WARDEN names the warden task and sets VALID if the task exists. -/
  | paddockWardenWrite (v : W64)
  /-- RING_ENABLE (R486). | A write of RING_k_CFG with EN set enables a ring, resetting its pointers, counts and phase. -/
  | ringEnable (k : Nat) (v : W64)
  /-- RING_DISABLE (R508). | A write of EN = 0 stops a ring; for a completion ring it waits until no reservation remains. -/
  | ringDisable (k : Nat) (v : W64)
  /-- RING_RESET (R509). | A write of RING_k_CTL.RESET ends the ring's work, withdraws waiting descriptors, releases its locks and disables the ring. -/
  | ringReset (k : Nat) (v : W64)
  /-- SUBMISSION_DOORBELL (R500). | A doorbell write to a submission ring sets its new TAIL. -/
  | submissionDoorbell (k : Nat) (v : W64)
  /-- HEAD_DOORBELL (R500). | A doorbell write to a completion or event ring sets its new HEAD and frees consumed entries. -/
  | headDoorbell (k : Nat) (v : W64)
  /-- HOST_ISLAND_RESET (R511). | An FLR, hot reset or PCIe link loss resets the host island and every ring, keeping kept events. -/
  | hostIslandReset (kind : Nat)
  /-- ARB_PRIO_WRITE (R537). | A write of MC_m_ARB_PRIO or MC_m_ARB_LIMIT changes base, ceiling and limit from the next decision. -/
  | arbPrioWrite (m : Nat) (limit : Bool) (v : W64)
  /-- CEIL_PCT_WRITE (R216). | A write of ADM_CTL.CEIL_PCT changes LIMIT_m for the next admission decision. -/
  | ceilPctWrite (v : W64)
  /-- RUN (R547). | A write of MC_m_PPR_CTL.RUN starts repair of the pending rows in MODE 1. -/
  | pprRun (m : Nat) (v : W64)
  /-- LINK_ENABLE (R569). | PL_n_CTL.EN rises and every present lane of the link begins training attempts. -/
  | linkEnable (n : Nat) (v : W64)
  /-- RING_CFG_WRITE (R597). | A write of RING_CFG that changes POS or N is refused or takes effect, bringing links 0, 1 and 3 down and up again. -/
  | ringCfgWrite (v : W64)
  /-- CLAIM (R601). | A write of PAIR_CTL.CLAIM = 1 drives PAIR_ACTIVE_N low and begins a claim of the active role. -/
  | claim (v : W64)
  /-- CLAIM_WAIT_EXPIRY (R601). | A first-ring chip's 2 µs wait for PARTNER_ACTIVE_N to rise expires and the claim is withdrawn. -/
  | claimWaitExpiry (t : Nat)
  /-- CLAIM_GUARD_EXPIRY (R601). | PARTNER_ACTIVE_N stays high for the 5 µs guard and the chip may raise PE_OWN. -/
  | claimGuardExpiry (t : Nat)
  /-- CLAIM_RELEASE (R602). | A write of CLAIM = 0 on an unpaired chip lowers PE_OWN and releases PAIR_ACTIVE_N. -/
  | claimRelease (v : W64)
  /-- FAULT_STATUS_CLEAR (R630). | A write of 1 to a FLT_STAT bit clears the status, invalidates the record and releases the source's F hold. -/
  | faultStatusClear (v : W64)
  /-- FAULT_INJECTION (R637). | A write of FLT_INJ_CTL with GO and ADDR_MODE 0 creates one injected occurrence of a source. -/
  | faultInjection (v : W64)
  /-- ADDRESS_INJECTION (R638). | A write of FLT_INJ_CTL with GO and ADDR_MODE 1 arms an injected memory error on one granule. -/
  | addressInjection (v : W64)
  /-- CANCEL (R638). | A write of FLT_INJ_CTL.CANCEL cancels a pending address injection. -/
  | injCancel (v : W64)
  /-- ENGAGE (R641). | A write of BALLAST_CTL.ENGAGE engages Ballast, reported as source BALLAST_HOST. -/
  | ballastEngageWrite (v : W64)
  /-- DOMAIN_ON (R658). | A write of PWR_DOM_CTL turns on a domain and its prerequisites, restoring class P and A state. -/
  | domainOn (j : Nat) (v : W64)
  /-- DOMAIN_OFF (R659). | A write of PWR_DOM_CTL turns a domain off, unless refused, ending its work as a host BLOCK reset. -/
  | domainOff (j : Nat) (v : W64)
  /-- WAKE (R664). | A write of LULL_CTL.WAKE wakes the chip from Lull. -/
  | lullWake (v : W64)
  /-- LULL_WAKE_AT_EXPIRY (R664). | DTIME reaches LULL_WAKE_AT and the chip wakes. -/
  | lullWakeAtExpiry (t : Nat)
  /-- CHIP_RESET (R716). | A write of RST_CTL with GO and key 0xC5, or a fault reaction C, makes outputs inert, parks memory in self-refresh and reboots. -/
  | chipReset (v : W64)
  /-- BLOCK_RESET (R717). | A write of RST_BLOCK with GO resets one island or one flow core and ends its work under R34. -/
  | blockReset (a : ResetAccess)
  /-- BLOCK_RESET_RETURN (R717). | The reset island returns to service and RST_STAT.BUSY clears. -/
  | blockResetReturn (t : Nat)
  /-- COLD_RESET (R715). | VAON rises or is lost, or rail 13 collapses, and everything except the flash log is cleared. -/
  | coldReset (cause : Nat)
  /-- PIN_RESET (R715). | RESET_N is held low for 1 µs or PWRGOOD falls; outputs become inert and class P state is cleared. -/
  | pinReset (cause : Nat)
  /-- BOOT (R702). | Release of a COLD, PIN or CHIP reset starts boot, which runs its phases through to DONE or a fatal code. -/
  | boot (inp : BootInput)
  /-- RESET_LOOP_CLEAR (R720). | 10 s pass after DONE with no fault-driven CHIP reset, and RST_STAT.C_LOOP clears. -/
  | resetLoopClear (t : Nat)
  /-- SMBUS_BLOCK_READ (R676). | An SMBus Block Read returns the status block that the command byte selects. -/
  | smbusBlockRead (cmd : Nat)
  /-- TREF_LOSS (R56). | TREF is lost: outputs go inert, running operations end with HW_FAULT, DTIME falls back to the crystal. -/
  | trefLoss (t : Nat)
  /-- TREF_HOLD_END (R56). | TREF_OK has read 1 for 1 ms and the TREF hold of admission ends. -/
  | trefHoldEnd (t : Nat)
  /-- PLL_RELOCK (R52). | The time-base PLL locks again and DTIME returns to the time clock without a step. -/
  | pllRelock (t : Nat)
  /-- LREF_LOSS (R575). | LREF is lost and every Paldel link goes down with no retirement. -/
  | lrefLoss (t : Nat)
  /-- LREF_RETURN (R575). | LREF_OK has read 1 for 1 ms and the enabled links are brought up again. -/
  | lrefReturn (t : Nat)
  /-- XTAL_LOSS (R59). | No crystal cycle arrives for 100 µs, and CALSEC falls back to counting from DTIME. -/
  | xtalLoss (t : Nat)
  /-- XTAL_RETURN (R59). | The crystal returns and CALSEC counts on from the value it has reached. -/
  | xtalReturn (t : Nat)
  /-- CALSEC_ADVANCE (R58). | CALSEC advances by one second and CAL_EPOCH_DTIME captures DTIME. -/
  | calsecAdvance (t : Nat)
  /-- REPLICA_CHECK (R53). | Every 2^20 ns each DTIME replica is compared with the master and reloaded if it has slipped. -/
  | replicaCheck (island : Nat) (replica : Nat) (t : Nat)
  /-- SYNC_OUT_PULSE (R738). | SYNC_OUT pulses at each DTIME that is a multiple of 1,048,576 ns. -/
  | syncOutPulse (t : Nat)
  /-- ADM_WAIT_EXPIRY (R193). | A QUEUE_LIMITED burst is not admitted within ADM_WAIT and is denied with WAIT_EXPIRED. -/
  | admWaitExpiry (isGroup : Bool) (id : Nat) (t : Nat)
  /-- AGE_LIMIT_EXPIRY (R195). | A queued burst waits longer than AGE_LIMIT and from then blocks every burst behind it in the scan. -/
  | ageLimitExpiry (isGroup : Bool) (id : Nat) (t : Nat)
  /-- XHOLD_EXPIRY (R196). | An admitted part of a multi-slice burst waits XHOLD without the last part and returns to the queue. -/
  | xholdExpiry (isGroup : Bool) (id : Nat) (t : Nat)
  /-- BURST_START (R163). | With dictionaries loaded and the expansion queue full, vector 0, or the restart vector c, starts at the chosen DTIME. -/
  | burstStart (isGroup : Bool) (id : Nat) (t : Nat)
  /-- VEC (R141). | Reel instruction VEC emits consecutive lines once each. -/
  | vec (n : Nat) (s : Nat)
  /-- RPT (R141). | Reel instruction RPT emits the next line as repeated vectors. -/
  | rpt (n : Nat) (s : Nat)
  /-- LOOP (R142). | Reel instruction LOOP opens a loop frame and emits its lines. -/
  | reelLoop (n : Nat) (s : Nat)
  /-- ENDL (R142). | Reel instruction ENDL emits its lines and rewinds to the LOOP or closes the frame. -/
  | endl (n : Nat) (s : Nat)
  /-- MLOOP (R157). | Reel instruction MLOOP opens a match frame and decodes its body into the match buffer. -/
  | mloop (n : Nat) (s : Nat)
  /-- MEND (R159). | Reel instruction MEND evaluates an earlier iteration and repeats, ends or times out the match loop. -/
  | mend (n : Nat) (s : Nat)
  /-- JMP (R144). | Reel instruction JMP emits its lines and continues at the target word and block. -/
  | jmp (n : Nat) (s : Nat)
  /-- CALL (R144). | Reel instruction CALL pushes a call frame and continues at the target. -/
  | call (n : Nat) (s : Nat)
  /-- RET (R144). | Reel instruction RET pops the call frame and continues at the saved word. -/
  | ret (n : Nat) (s : Nat)
  /-- BRF (R153). | Reel instruction BRF emits its lines, prefetches the target path and holds issue at the steered vector. -/
  | brf (n : Nat) (s : Nat)
  /-- BRP (R153). | Reel instruction BRP emits its lines, prefetches the target path and holds issue at the steered vector. -/
  | brp (n : Nat) (s : Nat)
  /-- BRANCH_DECISION (R153). | The fails up to s − H are known, and the held BRF or BRP is taken or not taken. -/
  | branchDecision (n : Nat) (s : Nat)
  /-- SET_MUX (R146). | Reel instruction SET_MUX sets the multiplex and emits eight pad vectors and its lines. -/
  | setMux (n : Nat) (s : Nat)
  /-- APGV (R324). | Reel instruction APGV emits its lines and applies the APG operation on each of its vectors. -/
  | apgv (n : Nat) (s : Nat)
  /-- END (R166). | Reel instruction END emits its lines, ends the burst and sets the end state of the channels. -/
  | reelEnd (n : Nat) (s : Nat)
  /-- CHECKPOINT_COMMIT (R162). | The results of every vector before c are final; the checkpoint commits and its counter snapshot is recorded. -/
  | checkpointCommit (n : Nat) (s : Nat)
  /-- VECTOR_START (R223). | A vector starts at the Bridles: edges are placed, strobes are taken and the queued vector is consumed. -/
  | vectorStart (n : Nat) (s : Nat) (samples : List Sample)
  /-- STOP_REQUEST (R165). | A stop request reaches a slice, which applies vectors starting within 50 ns and discards the rest. -/
  | stopRequest (n : Nat) (s : Nat) (status : Nat) (t : Nat)
  /-- BURST_COMPLETE (R167). | After the slice has written its records and final header, the burst completes, sets its end registers and raises burst-done. -/
  | burstComplete (isGroup : Bool) (id : Nat)
  /-- RETRY_GAP_EXPIRY (R422). | RETRY_GAP after a failed attempt passes and the device issues the operation again. -/
  | retryGapExpiry (tid : Nat) (t : Nat)
  /-- DRIFT_MEASUREMENT (R240). | At each INTERVAL the tracker measures the reference loop and moves the trims by at most 0.5 ps. -/
  | driftMeasurement (n : Nat) (gain : Int) (offset : Int) (t : Nat)
  /-- DRIFT_ACQUIRE_UPDATE (R241). | During acquisition the tracker updates the trims every 1 µs and sets LOCKED once they agree. -/
  | driftAcquireUpdate (n : Nat) (gain : Int) (offset : Int) (t : Nat)
  /-- REGION_HEADER_WRITE (R282). | Every 100 µs while a burst writes to a region its header is written. -/
  | regionHeaderWrite (id : Nat) (ue : Bool) (t : Nat)
  /-- CAPTURE_RECORD_WRITE (R295). | The capture writer takes a record from the capture buffer and writes it to its region slot. -/
  | captureRecordWrite (n : Nat) (ue : Bool)
  /-- BITMAP_WRITEBACK (R299). | An evicted or final combiner line is written back as a read-modify-write OR. -/
  | bitmapWriteback (n : Nat) (i : Nat) (ue : Bool)
  /-- ADC_SAMPLE (R343). | A 16-bit sample arrives on a stream and passes through the DC block, moving average, detector and reduction. -/
  | adcSample (k : Nat) (code : Nat) (t : Nat)
  /-- SAMPLE_BLOCK_WRITE (R359). | The engine writes a buffered sample block to its region slot. -/
  | sampleBlockWrite (e : Nat) (ue : Bool)
  /-- MM_WINDOW_END (R348). | POWERUP_US or RECOVER_US ends and plain reduction returns at the next interval boundary. -/
  | mmWindowEnd (k : Nat) (t : Nat)
  /-- FCLK_LOSS (R342). | No FCLK edge arrives for four frame periods; LOSS is set, LOCK and ALIGNED clear and ADC_PORT is reported. -/
  | fclkLoss (n : Nat) (t : Nat)
  /-- FCLK_RETURN (R342). | FCLK returns and the port PLL locks again, unaligned. -/
  | fclkReturn (n : Nat) (t : Nat)
  /-- ACQUISITION_START (R353). | START is reached and an acquisition begins at the first interval that starts at or after it. -/
  | acquisitionStart (site : Nat) (t : Nat)
  /-- ACQUISITION_STOP (R353). | DURATION after its start, an acquisition stops, writes its blocks and header, completes and raises acquire-done. -/
  | acquisitionStop (site : Nat) (t : Nat)
  /-- TRIG_IN_EDGE (R362). | An edge on TRIG_IN is timed, deskewed and sent as a pin event to the trigger units. -/
  | trigInEdge (j : Nat) (rising : Bool) (t : Nat)
  /-- TRIGGER_EVENT_ARRIVAL (R364). | An event of an enabled source arrives at an armed unit and opens a firing or joins it. -/
  | triggerEventArrival (n : Nat) (u : Nat) (src : Nat) (stamp : Nat) (arrive : Nat)
  /-- TRIGGER_DECISION (R364). | At a1 + CWIN + W the unit fixes t0, the mask and the primary source and takes its actions. -/
  | triggerDecision (n : Nat) (u : Nat) (t : Nat)
  /-- TRIGGER_REARM (R366). | A REPEAT unit re-arms at t0 plus the larger of CWIN and HOLDOFF. -/
  | triggerRearm (n : Nat) (u : Nat) (t : Nat)
  /-- TRIG_OUT_PULSE_END (R365). | The 100 ns TRIG_OUT pulse of a firing ends. -/
  | trigOutPulseEnd (j : Nat) (t : Nat)
  /-- METER_ARM (R382). | DTIME reaches ARM_AT and the interval meter arms. -/
  | meterArm (n : Nat) (i : Nat) (t : Nat)
  /-- METER_EDGE (R383). | An edge of the meter's start or stop source is timed, and may become the start or the stop that completes the measurement. -/
  | meterEdge (n : Nat) (i : Nat) (stop : Bool) (coarse : Nat) (phase : Nat)
  /-- METER_TIMEOUT (R384). | The timeout instant passes without a stop and the measurement ends with TIMEOUT. -/
  | meterTimeout (n : Nat) (i : Nat) (t : Nat)
  /-- METER_OVERFLOW (R385). | The 40-bit coarse counter would pass its maximum and the measurement ends with TIMEOUT and OVF. -/
  | meterOverflow (n : Nat) (i : Nat) (t : Nat)
  /-- RUN_BURST_STEP (R416). | Flow step RUN_BURST submits a burst for the task's site or group. -/
  | runBurstStep (tid : Nat)
  /-- MEASURE_INTERVAL_STEP (R418). | Flow step MEASURE_INTERVAL issues an interval measurement. -/
  | measureIntervalStep (tid : Nat)
  /-- ACQUIRE_STEP (R419). | Flow step ACQUIRE issues an acquisition starting START_US after the issue. -/
  | acquireStep (tid : Nat)
  /-- SET_PE (R424). | Flow step SET_PE queues a PE frame list on the ports of the named clusters. -/
  | setPe (tid : Nat)
  /-- POWER_DUT (R429). | Flow step POWER_DUT runs a DUT power on or off sequence. -/
  | powerDut (tid : Nat)
  /-- POWER_DUT_SETTLE_END (R429). | SETTLE_US of a POWER_DUT sequence passes; A_MAX and A_END are recorded or the off list is sent. -/
  | powerDutSettleEnd (tid : Nat) (t : Nat)
  /-- PE_LIST_START (R426). | A PE port finishes one list and starts sending the next queued list. -/
  | peListStart (n : Nat)
  /-- PE_LIST_DONE (R425). | A PE port finishes sending a list and its operation completes. -/
  | peListDone (n : Nat) (readback : List Nat)
  /-- ABORT_OP_STEP (R421). | Flow step ABORT_OP ends the task's outstanding operations of the named slots. -/
  | abortOpStep (tid : Nat)
  /-- WAIT_EVENT (R430). | Flow step WAIT_EVENT waits for the task's flags to meet its mask, or completes at once. -/
  | waitEvent (tid : Nat)
  /-- CLEAR_FLAGS (R431). | Flow step CLEAR_FLAGS clears named flags of the task. -/
  | clearFlags (tid : Nat)
  /-- DELAY (R431). | Flow step DELAY clears TICK and waits for a relative or absolute time. -/
  | flowDelay (tid : Nat)
  /-- BRANCH_ON (R432). | Flow step BRANCH_ON compares a field with a value and branches. -/
  | branchOn (tid : Nat)
  /-- JUMP (R432). | Flow step JUMP transfers control to its target. -/
  | flowJump (tid : Nat)
  /-- ALU (R433). | Flow step ALU computes into a variable. -/
  | flowAlu (tid : Nat)
  /-- RETRY (R434). | Flow step RETRY branches back while a counter is below COUNT and RES.STATUS matches. -/
  | flowRetry (tid : Nat)
  /-- CALL_FLOW (R435). | Flow step CALL_FLOW pushes the return point and continues in another flow. -/
  | callFlow (tid : Nat)
  /-- RETURN (R435). | Flow step RETURN pops the call stack. -/
  | flowReturn (tid : Nat)
  /-- FLOW_END (R436). | Flow step END ends the task with the chosen status, ending operations and releasing locks. -/
  | flowEnd (tid : Nat)
  /-- SIGNAL (R438). | Flow step SIGNAL sets flags in a task, posts a host event, or sends a remote message. -/
  | flowSignal (tid : Nat)
  /-- LOCK_STEP (R439). | Flow step LOCK requests a lock and waits for the grant or the timeout. -/
  | lockStep (tid : Nat)
  /-- UNLOCK_STEP (R439). | Flow step UNLOCK releases a lock and grants it to the next waiter. -/
  | unlockStep (tid : Nat)
  /-- LOG (R440). | Flow step LOG writes a 64-byte record to the task's log buffer. -/
  | logStep (tid : Nat)
  /-- SET_MASK (R441). | Flow step SET_MASK applies a mask to the group's field in CL_n_SITE_MASK. -/
  | setMask (tid : Nat)
  /-- ARM_TRIGGER (R442). | Flow step ARM_TRIGGER arms a trigger unit of the site. -/
  | armTrigger (tid : Nat)
  /-- SET_PRIO (R437). | Flow step SET_PRIO changes the task's priority at the next step boundary. -/
  | setPrio (tid : Nat)
  /-- YIELD (R437). | Flow step YIELD returns the task to READY with a new stamp. -/
  | yield (tid : Nat)
  /-- NOP_STEP (R437). | Flow step NOP has no effect. -/
  | nopStep (tid : Nat)
  /-- CONTEXT_FETCH_DONE (R461). | A task context arrives in a slot buffer and a waiting core may take the task. -/
  | contextFetchDone (slot : Nat)
  /-- QUANTUM_EXPIRY (R463). | A task commits QUANTUM steps while a peer is READY and returns to READY with a new stamp. -/
  | quantumExpiry (tid : Nat)
  /-- TASK_TIMER_EXPIRY (R457). | A task timer expires and ends a DELAY or times out a WAIT_EVENT or LOCK step. -/
  | taskTimerExpiry (tid : Nat) (t : Nat)
  /-- FLOW_CORE_FAILURE (R469). | A physical flow core fails; its tasks return to READY, a spare takes over or the slot is retired. -/
  | flowCoreFailure (core : Nat)
  /-- ARBITER_DECISION (R535). | A channel arbiter grants the next transfer to a forced requester, the real-time queue or the highest effective priority. -/
  | arbiterDecision (m : Nat) (reqs : List ArbReq) (t : Nat)
  /-- READ_DATA_RETURN (R544). | Read data returns to a requester, corrected or with an uncorrectable-error response and a log entry. -/
  | readDataReturn (m : Nat) (r : ReadRet)
  /-- REFRESH_OWED_TICK (R539). | The owed refresh count rises every 488 ÷ M ns. -/
  | refreshOwedTick (m : Nat)
  /-- MR4_POLL (R527). | Every 1 ms the controller reads MR4 and sets the refresh rate, HOT and BLOCKED. -/
  | mr4Poll (m : Nat) (rate : Nat) (t : Nat)
  /-- WCK2DQ_OSCILLATOR (R527). | Every OSC_US the controller runs the WCK2DQ oscillator. -/
  | wck2dqOscillator (m : Nat)
  /-- SCRUB_READ (R546). | The maintenance requester reads the next granule of the scrub pass. -/
  | scrubRead (m : Nat)
  /-- PPR_AUTO_START (R547). | In MODE 2, after 100 ms without bursts on the channel, pending repairs start. -/
  | pprAutoStart (m : Nat) (t : Nat)
  /-- PPR_COMPLETE (R548). | A repair finishes, the row is written back, the lifetime log records it and the channel returns to service. -/
  | pprComplete (m : Nat) (t : Nat)
  /-- TRAIN (R568). | A TRAIN block is received, counted toward a training burst and the role check. -/
  | trainBlock (n : Nat) (k : Nat) (v : W64) (t : Nat)
  /-- TRAINING_ATTEMPT_TIMEOUT (R568). | A 300 µs training attempt ends without success and the next setting is tried or the lane is retired. -/
  | trainingAttemptTimeout (n : Nat) (k : Nat) (t : Nat)
  /-- LINK_RETRY (R569). | Every 10 ms a DOWN link with EN set tries to train again. -/
  | linkRetry (n : Nat) (t : Nat)
  /-- LANE_LOSS (R574). | A lane loses CDR lock or meets 16 block errors in 1,024 block times and leaves use. -/
  | laneLoss (n : Nat) (k : Nat) (errs : Bool) (t : Nat)
  /-- LINK_LOSS (R575). | All active lanes are lost within 1 µs; the link goes DOWN, its replay buffer is discarded and it is brought up again. -/
  | linkLoss (n : Nat) (t : Nat)
  /-- LANE_RETRAIN (R577). | Background retraining of a lost lane ends; it rejoins or is retired. -/
  | laneRetrain (n : Nat) (k : Nat) (ok : Bool) (t : Nat)
  /-- WIDTH (R576). | A WIDTH block is received and the ends agree on the new active lanes. -/
  | widthBlock (n : Nat) (v : W64) (t : Nat)
  /-- WIDTH_RESEND (R576). | 4 µs pass without agreement and WIDTH is sent again, or the link is lost. -/
  | widthResend (n : Nat) (t : Nat)
  /-- WIDTH_SWITCH (R576). | 128 block times after agreement both ends switch lanes, send a training burst and replay. -/
  | widthSwitch (n : Nat) (t : Nat)
  /-- PKT (R564). | A packet is received whole, checked for CRC and sequence, and accepted or answered with NAK. -/
  | pktReceive (n : Nat) (p : PlPacket) (t : Nat)
  /-- TETHER_PACKET (R609). | The standby receives a Tether packet and queues its mirrored items for application. -/
  | tetherPacket (p : PlPacket) (t : Nat)
  /-- MSG (R438). | A remote SIGNAL message reaches its destination chip and sets the target task's flags. -/
  | msgPacket (n : Nat) (p : PlPacket) (t : Nat)
  /-- MSG_ACK (R438). | A remote SIGNAL acknowledgement arrives and the waiting SIGNAL step completes. -/
  | msgAck (n : Nat) (p : PlPacket) (t : Nat)
  /-- RING_PACKET (R588). | A ring management packet carries an alignment pass, and each chip adds its offset or steps DTIME forward. -/
  | ringPacket (n : Nat) (p : PlPacket) (t : Nat)
  /-- FOLLOW (R621). | A RING packet FOLLOW makes each PROTECTED standby of the ring switch with its partner. -/
  | follow (n : Nat) (p : PlPacket) (t : Nat)
  /-- ACK (R564). | An ACK block frees packets and express messages from the replay buffers. -/
  | ackBlock (n : Nat) (v : W64) (t : Nat)
  /-- ACK_SEND (R564). | 256 block times pass while unacknowledged packets are held and an ACK is sent. -/
  | ackSend (n : Nat) (t : Nat)
  /-- NAK (R564). | A NAK block makes the transmitter resend from the named sequence number. -/
  | nakBlock (n : Nat) (v : W64) (t : Nat)
  /-- EI (R572). | An EI block is received and the partner also enters electrical idle. -/
  | eiBlock (n : Nat) (v : W64) (t : Nat)
  /-- ELECTRICAL_IDLE_ENTRY (R572). | EI_US of idle traffic pass and the link sends EI and enters electrical idle. -/
  | electricalIdleEntry (n : Nat) (t : Nat)
  /-- ELECTRICAL_IDLE_EXIT (R572). | Traffic becomes due on an idle link, and a training burst then the traffic are sent. -/
  | electricalIdleExit (n : Nat) (t : Nat)
  /-- TRACKING_HOLD (R571). | 1,024 consecutive IDLE blocks hold the lane's CDR and offset tracking. -/
  | trackingHold (n : Nat) (k : Nat) (t : Nat)
  /-- ALIGN_MARKER (R562). | ALIGN blocks are received on the active lanes and the lanes are deskewed. -/
  | alignMarker (n : Nat) (marks : List (Option Nat)) (t : Nat)
  /-- ALIGN_MARKER_SEND (R562). | Every 16,384 block times an ALIGN block is sent on every active lane. -/
  | alignMarkerSend (n : Nat) (t : Nat)
  /-- SYNC_READY (R584). | The leading chip receives a part's SYNC READY and, once it holds all, broadcasts START. -/
  | syncReady (n : Nat) (p : PlPacket) (t : Nat)
  /-- SYNC_START (R584). | A chip receives SYNC START and starts its slices at the start time, or broadcasts NOGO if it is too late. -/
  | syncStart (n : Nat) (p : PlPacket) (t : Nat)
  /-- SYNC_STOP (R585). | A chip receives SYNC STOP and stops its parts with that status. -/
  | syncStop (n : Nat) (p : PlPacket) (t : Nat)
  /-- SYNC_NOGO (R584). | A chip receives SYNC NOGO and every part completes with LINK_DOWN. -/
  | syncNogo (n : Nat) (p : PlPacket) (t : Nat)
  /-- FAIL (R583). | A FAIL message adds another part's fail window to the union; a late one ends the burst with LINK_DOWN. -/
  | failMsg (n : Nat) (p : PlPacket) (t : Nat)
  /-- TRIG (R580). | A cross-chip TRIG message is delivered to the trigger units and forwarded. -/
  | trigMsg (n : Nat) (p : PlPacket) (t : Nat)
  /-- TIME (R586). | A TIME message is received and θ against the upstream chip is computed. -/
  | timeMsg (n : Nat) (p : PlPacket) (t : Nat)
  /-- TIME_SEND (R586). | Every 1,048,576 ns a TIME message is sent on each link with a partner. -/
  | timeSend (t : Nat)
  /-- PARTNER_ACTIVE_RISE (R614). | PARTNER_ACTIVE_N rises at a standby and the 20 µs confirmation starts. -/
  | partnerActiveRise (t : Nat)
  /-- TAKEOVER (R616). | PARTNER_ACTIVE_N has stayed high for 20 µs and the standby drains its queue, claims and turns mirrored state into live state. -/
  | takeover (t : Nat)
  /-- FAULT_LATCH (R630). | The collector latches a reported fault, captures its record, counts it and applies its reactions. -/
  | faultLatch (src : Nat) (island : Nat) (unit : Nat) (detail : Nat) (addr : Nat)
  /-- COLLECTOR_SELF_CHECK (R640). | Every 1 µs the collector compares its registers with their shadows and reports source 0 on a mismatch. -/
  | collectorSelfCheck (t : Nat)
  /-- SLICE_FAILURE (R86). | A physical slice fails; the spare takes its logical number or the logical slice is retired. -/
  | sliceFailure (n : Nat) (p : Nat)
  /-- CHANNEL_FAILURE (R89). | A channel fails and is retired, blocking the sites that need it. -/
  | channelFailure (n : Nat) (c : Nat)
  /-- CAPTURE_ENGINE_FAILURE (R687). | A cluster's compare and capture engine fails and every logical slice of the cluster is retired. -/
  | captureEngineFailure (n : Nat)
  /-- FILTER_CHAIN_FAILURE (R89). | A filter chain fails and is retired, blocking the sites that need it. -/
  | filterChainFailure (k : Nat)
  /-- IMETER_FAILURE (R390). | An interval meter fails; its measurement ends with HW_FAULT and the meter is retired. -/
  | imeterFailure (n : Nat) (i : Nat)
  /-- APG_FAILURE (R335). | An APG unit fails; its burst ends with HW_FAULT and the unit is retired. -/
  | apgFailure (k : Nat)
  /-- MEMORY_CHANNEL_FAILURE (R550). | A memory channel's controller or arbiter fails; the channel is retired and its objects and regions are marked LOST. -/
  | memoryChannelFailure (m : Nat)
  /-- TETHER_FAILURE (R687). | Tether fails and is retired, ending the pair as PAIR_LEAVE does. -/
  | tetherFailure
  /-- RAIL_BELOW_WARNING (R672). | A rail stays below WARN_LO for GLITCH_NS; SUPPLY_WARN onsets, VWARN is posted and the supply pause begins. -/
  | railBelowWarning (r : Nat) (first : Nat) (t : Nat)
  /-- RAIL_ABOVE_WARNING (R672). | A rail stays at or above WARN_LO for GLITCH_NS and VRECOVER is posted. -/
  | railAboveWarning (r : Nat) (first : Nat) (lowest : Nat) (t : Nat)
  /-- RAIL_ABOVE_HIGH (R671). | A rail stays above WARN_HI for GLITCH_NS and raises the warning events without a pause. -/
  | railAboveHigh (r : Nat) (level : Nat) (t : Nat)
  /-- SUPPLY_PAUSE_END (R672). | Every rail has stayed above warning for HOLD_US and the supply pause ends. -/
  | supplyPauseEnd (t : Nat)
  /-- SUPPLY_RESET (R674). | A rail stays below RESET_LO for 1 µs and the chip takes a PIN or COLD reset. -/
  | supplyReset (r : Nat) (lowest : Nat) (t : Nat)
  /-- TEMP_SAMPLE (R675). | Every 20 µs the temperature sensors are read and the warning and critical thresholds are tested. -/
  | tempSample (temps : List Int) (t : Nat)
  /-- PROCESS_SAMPLE (R669). | Every 1 s the process monitors are read. -/
  | processSample (freqs : List Nat) (t : Nat)
  /-- LIFETIME_SECOND (R678). | Each second the lifetime counters and the temperature histogram advance. -/
  | lifetimeSecond (t : Nat)
  /-- SNAPSHOT (R681). | Every SNAP_MIN minutes a lifetime snapshot of 111 records is written. -/
  | snapshot (t : Nat)
  /-- LOG_RECORD_WRITE (R682). | The lifetime writer programs the next queued record, opening and erasing a sector if needed. -/
  | logRecordWrite (eraseFails : Nat) (progFails : Nat)
  /-- PCIE_LINK_UP (R481). | The PCIe link finishes training after reset or after a link loss, and HOST_STAT.LINK_UP, SPEED and WIDTH take their values. -/
  | pcieLinkUp (gen : Nat) (width : Nat) (cfg : PcieCfg)
  /-- PWRGOOD_RISE (R746). | PWRGOOD rises while RESET_N is still low, and TRIG_OUT, SYNC_OUT, PE_OWN and ALERT_N are driven low. -/
  | pwrgoodRise (t : Nat)
  /-- PARTNER_ACTIVE_FALL (R614). | PARTNER_ACTIVE_N falls, which interrupts a standby's 20 µs takeover confirmation or a claimant's 5 µs guard. -/
  | partnerActiveFall (t : Nat)
  /-- BLOCK_ERROR (R561). | A received block with a header error, an unknown type or a failed CRC is discarded and counted as a block error of its lane. -/
  | blockError (n : Nat) (k : Nat) (t : Nat)
  /-- MIRRORED_ITEM_APPLY (R609). | The standby takes the next item from its 4 MiB receive queue and applies it to its shadow state, freeing queue room. -/
  | mirroredItemApply (t : Nat)
  /-- SPARE_CORE_READY (R469). | A spare flow core that has taken over a slot comes into service, at most 50 µs after the failure, and the slot can run tasks again. -/
  | spareCoreReady (slot : Nat)
  /-- BACKGROUND_ZQ_CALIBRATION (R527). | The interval that the standard sets for background ZQ calibration elapses, and the controller issues a ZQ command at a decision with no real-time request waiting. -/
  | backgroundZqCalibration (m : Nat)
  /-- TAP_INSTRUCTION (R739). | A JTAG TAP instruction is shifted in; EXTEST, EXTEST_PULSE and EXTEST_TRAIN drive pins only while RESET_N is low, and otherwise act as BYPASS. -/
  | tapInstruction (code : Nat)
  deriving DecidableEq, Repr

end Sys2Proof
end

