-- ==== Sys2Proof/WellFormed.lean ====
section
/-! DEFINITION. Which commands are well formed: every number in an operand names a unit that the largest variant has, and every
field lies in the width the spec gives it. -/

namespace Sys2Proof

/-- A submission ring (R485). -/
def submissionOk (k : Nat) : Bool := k < 32

/-- A ring (R485). -/
def ringOk (k : Nat) : Bool := k < 64

/-- A cluster (R14). -/
def clusterOk (n : Nat) : Bool := n < 12

/-- A Paldel link (R32). -/
def linkOk (n : Nat) : Bool := n < 4

/-- A lane of a link (R556). -/
def laneOk (k : Nat) : Bool := k < 4

/-- The well-formed commands. -/
def Instr.wf : Instr → Bool
  | .nop sq idx => submissionOk sq && idx < 2 ^ 16
  | .declareSite sq idx => submissionOk sq && idx < 2 ^ 16
  | .undeclareSite sq idx => submissionOk sq && idx < 2 ^ 16
  | .deferredDeclaration sq idx => submissionOk sq && idx < 2 ^ 16
  | .deferredUndeclaration sq idx => submissionOk sq && idx < 2 ^ 16
  | .loadPattern sq idx _ => submissionOk sq && idx < 2 ^ 16
  | .objectLoadComplete sq idx _ => submissionOk sq && idx < 2 ^ 16
  | .unloadPattern sq idx => submissionOk sq && idx < 2 ^ 16
  | .deferredUnload sq idx => submissionOk sq && idx < 2 ^ 16
  | .apgFallback sq idx => submissionOk sq && idx < 2 ^ 16
  | .bindApg sq idx _ => submissionOk sq && idx < 2 ^ 16
  | .deferredBindApg sq idx => submissionOk sq && idx < 2 ^ 16
  | .loadTset sq idx _ => submissionOk sq && idx < 2 ^ 16
  | .deferredTsetLoad sq idx => submissionOk sq && idx < 2 ^ 16
  | .unloadTset sq idx => submissionOk sq && idx < 2 ^ 16
  | .deferredTsetUnload sq idx => submissionOk sq && idx < 2 ^ 16
  | .calibrate sq idx => submissionOk sq && idx < 2 ^ 16
  | .calibrationStart sq idx => submissionOk sq && idx < 2 ^ 16
  | .calibrationComplete sq idx _ => submissionOk sq && idx < 2 ^ 16
  | .runBurst sq idx => submissionOk sq && idx < 2 ^ 16
  | .abortOp sq idx => submissionOk sq && idx < 2 ^ 16
  | .readPlacement sq idx => submissionOk sq && idx < 2 ^ 16
  | .defineRegion sq idx => submissionOk sq && idx < 2 ^ 16
  | .deferredRegionDefine sq idx => submissionOk sq && idx < 2 ^ 16
  | .freeRegion sq idx => submissionOk sq && idx < 2 ^ 16
  | .deferredRegionFree sq idx => submissionOk sq && idx < 2 ^ 16
  | .clearRegion sq idx => submissionOk sq && idx < 2 ^ 16
  | .deferredRegionClear sq idx => submissionOk sq && idx < 2 ^ 16
  | .readRegion sq idx => submissionOk sq && idx < 2 ^ 16
  | .readSiteResult sq idx => submissionOk sq && idx < 2 ^ 16
  | .acquire sq idx => submissionOk sq && idx < 2 ^ 16
  | .measureInterval sq idx => submissionOk sq && idx < 2 ^ 16
  | .loadFlow sq idx _ => submissionOk sq && idx < 2 ^ 16
  | .unloadFlow sq idx => submissionOk sq && idx < 2 ^ 16
  | .loadPeList sq idx _ => submissionOk sq && idx < 2 ^ 16
  | .unloadPeList sq idx => submissionOk sq && idx < 2 ^ 16
  | .deferredPeListUnload sq idx => submissionOk sq && idx < 2 ^ 16
  | .startFlow sq idx => submissionOk sq && idx < 2 ^ 16
  | .abortTask sq idx => submissionOk sq && idx < 2 ^ 16
  | .signalTask sq idx => submissionOk sq && idx < 2 ^ 16
  | .readTask sq idx => submissionOk sq && idx < 2 ^ 16
  | .lockDesc sq idx => submissionOk sq && idx < 2 ^ 16
  | .lockTimeout sq idx _ => submissionOk sq && idx < 2 ^ 16
  | .unlockDesc sq idx => submissionOk sq && idx < 2 ^ 16
  | .laneRevive sq idx => submissionOk sq && idx < 2 ^ 16
  | .ringAlign sq idx => submissionOk sq && idx < 2 ^ 16
  | .pairJoin sq idx => submissionOk sq && idx < 2 ^ 16
  | .pairLeave sq idx => submissionOk sq && idx < 2 ^ 16
  | .pairSwitch sq idx => submissionOk sq && idx < 2 ^ 16
  | .lullEnter sq idx => submissionOk sq && idx < 2 ^ 16
  | .readLife sq idx => submissionOk sq && idx < 2 ^ 16
  | .lifeFlush sq idx => submissionOk sq && idx < 2 ^ 16
  | .patchApply sq idx _ => submissionOk sq && idx < 2 ^ 16
  | .fenceRelease sq idx => submissionOk sq && idx < 2 ^ 16
  | .descriptorFetch k _ _ => submissionOk k
  | .eventPost k => 48 ≤ k && ringOk k
  | .irqTimerExpiry k _ => ringOk k
  | .registerWrite off size _ => off < 2 ^ 21 + 2 ^ 16 && (size = 4 || size = 8)
  | .splitReadLatch a => a.off < 2 ^ 21 + 2 ^ 16
  | .calSet _ => true
  | .seqCtlAbort n _ => clusterOk n
  | .siteMaskWrite n _ => clusterOk n
  | .driftEnable n _ => clusterOk n
  | .driftDisable n _ => clusterOk n
  | .resetTrim n _ => clusterOk n
  | .deskewWrite n c _ _ => clusterOk n && c < 16
  | .adcAlign n _ => clusterOk n
  | .adcAlignmentComplete n m0 m1 _ => clusterOk n && m0 < 2 ^ 32 && m1 < 2 ^ 32
  | .chainPreset k _ => k < 24
  | .fchainEnable k _ => k < 24
  | .trigArm n u _ => clusterOk n && u < 8
  | .imeterAbort n u _ => clusterOk n && u < 4
  | .paddockWardenWrite _ => true
  | .ringEnable k _ => ringOk k
  | .ringDisable k _ => ringOk k
  | .ringReset k _ => ringOk k
  | .submissionDoorbell k _ => submissionOk k
  | .headDoorbell k _ => 32 ≤ k && ringOk k
  | .hostIslandReset kind => kind < 3
  | .arbPrioWrite m _ _ => m < 8
  | .ceilPctWrite _ => true
  | .pprRun m _ => m < 8
  | .linkEnable n _ => linkOk n
  | .ringCfgWrite _ => true
  | .claim _ => true
  | .claimWaitExpiry _ => true
  | .claimGuardExpiry _ => true
  | .claimRelease _ => true
  | .faultStatusClear _ => true
  | .faultInjection _ => true
  | .addressInjection _ => true
  | .injCancel _ => true
  | .ballastEngageWrite _ => true
  | .domainOn j _ => j < 2
  | .domainOff j _ => j < 2
  | .lullWake _ => true
  | .lullWakeAtExpiry _ => true
  | .chipReset _ => true
  | .blockReset _ => true
  | .blockResetReturn _ => true
  | .coldReset cause => 1 ≤ cause && cause < 7
  | .pinReset cause => 1 ≤ cause && cause < 7
  | .boot _ => true
  | .resetLoopClear _ => true
  | .smbusBlockRead cmd => cmd < 256
  | .trefLoss _ => true
  | .trefHoldEnd _ => true
  | .pllRelock _ => true
  | .lrefLoss _ => true
  | .lrefReturn _ => true
  | .xtalLoss _ => true
  | .xtalReturn _ => true
  | .calsecAdvance _ => true
  | .replicaCheck island _ _ => island < 30
  | .syncOutPulse _ => true
  | .admWaitExpiry _ id _ => id < 2 ^ 16
  | .ageLimitExpiry _ id _ => id < 2 ^ 16
  | .xholdExpiry _ id _ => id < 2 ^ 16
  | .burstStart _ id _ => id < 2 ^ 16
  | .vec n sl => clusterOk n && sl < 4
  | .rpt n sl => clusterOk n && sl < 4
  | .reelLoop n sl => clusterOk n && sl < 4
  | .endl n sl => clusterOk n && sl < 4
  | .mloop n sl => clusterOk n && sl < 4
  | .mend n sl => clusterOk n && sl < 4
  | .jmp n sl => clusterOk n && sl < 4
  | .call n sl => clusterOk n && sl < 4
  | .ret n sl => clusterOk n && sl < 4
  | .brf n sl => clusterOk n && sl < 4
  | .brp n sl => clusterOk n && sl < 4
  | .branchDecision n sl => clusterOk n && sl < 4
  | .setMux n sl => clusterOk n && sl < 4
  | .apgv n sl => clusterOk n && sl < 4
  | .reelEnd n sl => clusterOk n && sl < 4
  | .checkpointCommit n sl => clusterOk n && sl < 4
  | .vectorStart n sl _ => clusterOk n && sl < 4
  | .stopRequest n sl status _ => clusterOk n && sl < 4 && status < 256
  | .burstComplete _ id => id < 2 ^ 16
  | .retryGapExpiry tid _ => tid < 4096
  | .driftMeasurement n _ _ _ => clusterOk n
  | .driftAcquireUpdate n _ _ _ => clusterOk n
  | .regionHeaderWrite id _ _ => id < 2 ^ 32
  | .captureRecordWrite n _ => clusterOk n
  | .bitmapWriteback n i _ => clusterOk n && i < 64
  | .adcSample k code _ => k < 24 && code < 2 ^ 16
  | .sampleBlockWrite e _ => e < 2
  | .mmWindowEnd k _ => k < 24
  | .fclkLoss n _ => clusterOk n
  | .fclkReturn n _ => clusterOk n
  | .acquisitionStart site _ => site < 2 ^ 16
  | .acquisitionStop site _ => site < 2 ^ 16
  | .trigInEdge j _ _ => j < 4
  | .triggerEventArrival n u src _ _ => clusterOk n && u < 8 && src < 64
  | .triggerDecision n u _ => clusterOk n && u < 8
  | .triggerRearm n u _ => clusterOk n && u < 8
  | .trigOutPulseEnd j _ => j < 4
  | .meterArm n i _ => clusterOk n && i < 4
  | .meterEdge n i _ _ phase => clusterOk n && i < 4 && phase < 64
  | .meterTimeout n i _ => clusterOk n && i < 4
  | .meterOverflow n i _ => clusterOk n && i < 4
  | .runBurstStep tid => tid < 4096
  | .measureIntervalStep tid => tid < 4096
  | .acquireStep tid => tid < 4096
  | .setPe tid => tid < 4096
  | .powerDut tid => tid < 4096
  | .powerDutSettleEnd tid _ => tid < 4096
  | .peListStart n => clusterOk n
  | .peListDone n _ => clusterOk n
  | .abortOpStep tid => tid < 4096
  | .waitEvent tid => tid < 4096
  | .clearFlags tid => tid < 4096
  | .flowDelay tid => tid < 4096
  | .branchOn tid => tid < 4096
  | .flowJump tid => tid < 4096
  | .flowAlu tid => tid < 4096
  | .flowRetry tid => tid < 4096
  | .callFlow tid => tid < 4096
  | .flowReturn tid => tid < 4096
  | .flowEnd tid => tid < 4096
  | .flowSignal tid => tid < 4096
  | .lockStep tid => tid < 4096
  | .unlockStep tid => tid < 4096
  | .logStep tid => tid < 4096
  | .setMask tid => tid < 4096
  | .armTrigger tid => tid < 4096
  | .setPrio tid => tid < 4096
  | .yield tid => tid < 4096
  | .nopStep tid => tid < 4096
  | .contextFetchDone slot => slot < 16
  | .quantumExpiry tid => tid < 4096
  | .taskTimerExpiry tid _ => tid < 4096
  | .flowCoreFailure core => core < 18
  | .arbiterDecision m reqs _ => m < 8 && reqs.all (fun r => r.addr / 2 ^ 36 = m && r.addr % 32 = 0 && r.size % 32 = 0 && r.size ≠ 0 &&
      (r.id < 12 || (0x10 ≤ r.id && r.id < 0x1C) || (0x20 ≤ r.id && r.id < 0x32) || r.id = 0x38 || r.id = 0x40 || r.id = 0x41 ||
        (0x50 ≤ r.id && r.id < 0x5C) || r.id = 0x60 || r.id = 0x61 || r.id = 0x68 || r.id = 0x70 || (0x78 ≤ r.id && r.id < 0x84)))
  | .readDataReturn m r => m < 8 && r.addr % 64 = 0 && r.flips.length ≤ 8 && r.flips.all (fun x => x < 2 ^ 72)
  | .refreshOwedTick m => m < 8
  | .mr4Poll m rate _ => m < 8 && rate < 32
  | .wck2dqOscillator m => m < 8
  | .scrubRead m => m < 8
  | .pprAutoStart m _ => m < 8
  | .pprComplete m _ => m < 8
  | .trainBlock n k _ _ => linkOk n && laneOk k
  | .trainingAttemptTimeout n k _ => linkOk n && laneOk k
  | .linkRetry n _ => linkOk n
  | .laneLoss n k _ _ => linkOk n && laneOk k
  | .linkLoss n _ => linkOk n
  | .laneRetrain n k _ _ => linkOk n && laneOk k
  | .widthBlock n _ _ => linkOk n
  | .widthResend n _ => linkOk n
  | .widthSwitch n _ => linkOk n
  | .pktReceive n _ _ => linkOk n
  | .tetherPacket _ _ => true
  | .msgPacket n _ _ => linkOk n
  | .msgAck n _ _ => linkOk n
  | .ringPacket n _ _ => linkOk n
  | .follow n _ _ => linkOk n
  | .ackBlock n _ _ => linkOk n
  | .ackSend n _ => linkOk n
  | .nakBlock n _ _ => linkOk n
  | .eiBlock n _ _ => linkOk n
  | .electricalIdleEntry n _ => linkOk n
  | .electricalIdleExit n _ => linkOk n
  | .trackingHold n k _ => linkOk n && laneOk k
  | .alignMarker n marks _ => linkOk n && marks.length ≤ 4 && marks.all (fun m => m.all (· < 2 ^ 16))
  | .alignMarkerSend n _ => linkOk n
  | .syncReady n _ _ => linkOk n
  | .syncStart n _ _ => linkOk n
  | .syncStop n _ _ => linkOk n
  | .syncNogo n _ _ => linkOk n
  | .failMsg n _ _ => linkOk n
  | .trigMsg n _ _ => linkOk n
  | .timeMsg n _ _ => linkOk n
  | .timeSend _ => true
  | .partnerActiveRise _ => true
  | .takeover _ => true
  | .faultLatch src island unit detail addr => src < 32 && island < 30 && unit < 256 && detail < 256 && addr < 2 ^ 40
  | .collectorSelfCheck _ => true
  | .sliceFailure n p => clusterOk n && p < 5
  | .channelFailure n c => clusterOk n && c < 16
  | .captureEngineFailure n => clusterOk n
  | .filterChainFailure k => k < 24
  | .imeterFailure n i => clusterOk n && i < 4
  | .apgFailure k => k < 4
  | .memoryChannelFailure m => m < 8
  | .tetherFailure => true
  | .railBelowWarning r _ _ => r < 14
  | .railAboveWarning r _ _ _ => r < 14
  | .railAboveHigh r _ _ => r < 14
  | .supplyPauseEnd _ => true
  | .supplyReset r _ _ => r < 14
  | .tempSample _ _ => true
  | .processSample _ _ => true
  | .lifetimeSecond _ => true
  | .snapshot _ => true
  | .logRecordWrite _ _ => true
  | .pcieLinkUp gen width c => 1 ≤ gen && gen < 5 && (width = 1 || width = 2 || width = 4) && c.payload ≤ 2 && c.readReq ≤ 5 &&
    c.bar0 % 2 ^ 21 = 0 && c.bar0 < 2 ^ 64 && c.bar2 % 2 ^ 16 = 0 && c.bar2 < 2 ^ 64
  | .pwrgoodRise _ => true
  | .partnerActiveFall _ => true
  | .blockError n k _ => linkOk n && laneOk k
  | .mirroredItemApply _ => true
  | .spareCoreReady slot => slot < 16
  | .backgroundZqCalibration m => m < 8
  | .tapInstruction _ => true

end Sys2Proof
end

