-- ==== Sys2Proof/Config.lean ====
section
/-! DEFINITION. What the spec leaves open: free values, without bodies, so that no proof can see what they are. A free value is
drawn with the counter `freeCtr` of the state, or depends on the operands it is a function of. -/

namespace Sys2Proof.Config

/-- A free value: the n-th value drawn from `freeCtr` (log entry 3). -/
opaque freeValue : Nat → Nat

/-- Crystal cycles in 10^18 ns of DTIME while the time clock advances it; within the accuracies of R41 of 32,768 × 10^9 (log entry 3). -/
opaque crystalRate : Nat

/-- Whether an ECDSA P-384 signature verifies (R701 item 5): the scheme is named, its curve arithmetic is not given. Public key,
signed message, signature. -/
opaque verifies : List Byte → List Byte → List Byte → Bool

/-- What AES-256-GCM gives under the part's IMAGE_KEY (R701 item 6): additional authenticated data, initialisation vector,
ciphertext, tag; none where the tag differs. -/
opaque decrypts : List Byte → List Byte → List Byte → List Byte → Option (List Byte)

/-- Sovisyn's assigned PCIe vendor ID (R481): the spec gives no number. -/
opaque vendorId : Nat

/-- How a device address is folded into the check bytes of its granule, and the check byte of a word under such a fold (R529): the spec
names a (72, 64) code with the address folded in, and gives no matrix. -/
opaque addressFold : Nat → Nat
opaque checkByte : Nat → Nat → Nat

/-- The check byte that a granule with an uncorrectable error keeps for one of its words (R544): granule, word. -/
opaque badCheckByte : Nat → Nat → Nat

/-- What the code makes of a word with three or more wrong bits (R529 says only what one and two give): 0 no error, 1 corrected,
2 uncorrectable, of the remainder by 3. -/
opaque manyBits : Nat → Nat

/-- The syndrome of a word by its wrong bits and the two address folds that meet (R545). -/
opaque syndrome : Nat → Nat → Nat → Nat

/-- The active lane, counted from the lowest, on which the next traffic block goes when the n-th output is sent (R562): the slots of a block
time that IDLE blocks have filled are not followed. -/
opaque startLane : Nat → Nat

end Sys2Proof.Config
end

