-- ==== Sys2Proof/Machine/Bits.lean ====
section
/-! DEFINITION. Bit fields, byte order (R13), sign extension, saturating counters (R16), and CRC-16 (R392):
the helpers every family uses. -/

namespace Sys2Proof.Machine

/-! Status codes (R27). -/
abbrev St.ok : Nat := 0x00
abbrev St.truncated : Nat := 0x01
abbrev St.reduced : Nat := 0x02
abbrev St.vdip : Nat := 0x03
abbrev St.resumed : Nat := 0x04
abbrev St.denied : Nat := 0x10
abbrev St.bad : Nat := 0x11
abbrev St.noObject : Nat := 0x12
abbrev St.absent : Nat := 0x13
abbrev St.badPattern : Nat := 0x14
abbrev St.blocked : Nat := 0x15
abbrev St.timeout : Nat := 0x20
abbrev St.aborted : Nat := 0x21
abbrev St.memUe : Nat := 0x30
abbrev St.hwFault : Nat := 0x31
abbrev St.linkDown : Nat := 0x32
abbrev St.safe : Nat := 0x3F

/-- Bits [lo+w-1:lo] of a number. -/
def bitsOf (v lo w : Nat) : Nat := (v >>> lo) % 2 ^ w

/-- Bit i of a number. -/
def bitOf (v i : Nat) : Bool := v.testBit i

/-- A number with bits [lo+w-1:lo] replaced. -/
def setBits (v lo w x : Nat) : Nat := v - (bitsOf v lo w) * 2 ^ lo + (x % 2 ^ w) * 2 ^ lo

/-- A number with bit i made b. -/
def setBit (v i : Nat) (b : Bool) : Nat := setBits v i 1 (if b then 1 else 0)

/-- 1 for true, 0 for false. -/
def b2n (b : Bool) : Nat := if b then 1 else 0

/-- Field [lo+w-1:lo] of a register value. -/
def fget (v : W64) (lo w : Nat) : Nat := bitsOf v.toNat lo w

/-- A register value with field [lo+w-1:lo] replaced. -/
def fset (v : W64) (lo w x : Nat) : W64 := BitVec.ofNat 64 (setBits v.toNat lo w x)

/-- A counter that saturates at 2^w - 1 (R16). -/
def satAdd (w v n : Nat) : Nat := if v + n < 2 ^ w then v + n else 2 ^ w - 1

/-- A value clipped to w bits by saturation (R16). -/
def sat (w v : Nat) : Nat := if v < 2 ^ w then v else 2 ^ w - 1

/-- The two's-complement value of the low w bits of v. -/
def toSigned (w v : Nat) : Int := if v % 2 ^ w < 2 ^ (w - 1) then (v % 2 ^ w : Nat) else ((v % 2 ^ w : Nat) : Int) - 2 ^ w

/-- The low w bits of an integer, as two's complement. -/
def ofSigned (w : Nat) (i : Int) : Nat := (i % (2 ^ w : Nat)).toNat

/-- An integer clipped to [lo, hi]. -/
def clampInt (lo hi i : Int) : Int := if i < lo then lo else if hi < i then hi else i

/-- Little-endian value of a byte list (R13). -/
def leNat : List Byte → Nat
  | [] => 0
  | b :: bs => b.toNat + 256 * leNat bs

/-- n bytes, little-endian, of a value (R13). -/
def leBytes : Nat → Nat → List Byte
  | 0, _ => []
  | n + 1, v => BitVec.ofNat 8 v :: leBytes n (v / 256)

/-- The bytes at an offset of a block. -/
def slice (l : List Byte) (off len : Nat) : List Byte := (l.drop off).take len

/-- The little-endian field of `len` bytes at `off`. -/
def fld (l : List Byte) (off len : Nat) : Nat := leNat (slice l off len)

/-- Whether every byte of [off, off+len) is 0: a reserved range. -/
def zeroes (l : List Byte) (off len : Nat) : Bool := (slice l off len).all (· == 0)

/-- A block of n zero bytes. -/
def zeros (n : Nat) : List Byte := List.replicate n 0

/-- A block with the bytes at `off` replaced by `bs`; its length is kept. -/
def patch (l : List Byte) (off : Nat) (bs : List Byte) : List Byte :=
  (l.take off ++ bs ++ l.drop (off + bs.length)).take l.length

/-- A block with the `len`-byte little-endian field at `off` set. -/
def setFld (l : List Byte) (off len v : Nat) : List Byte := patch l off (leBytes len v)

/-- A block brought to n bytes: cut, or filled with zero bytes. -/
def padTo (l : List Byte) (n : Nat) : List Byte := (l ++ zeros (n - l.length)).take n

/-- The number of set bits among the first n of v. -/
def popCount : Nat → Nat → Nat
  | 0, _ => 0
  | n + 1, v => v % 2 + popCount n (v / 2)

/-- The positions of the set bits of v below n, rising. -/
def bitList (n v : Nat) : List Nat := (List.range n).filter (fun i => v.testBit i)

/-- The value whose set bits are the listed positions. -/
def maskOf (l : List Nat) : Nat := l.foldl (fun a i => a ||| 2 ^ i) 0

/-- The smallest multiple of m that is at least v. -/
def roundUp (v m : Nat) : Nat := (v + m - 1) / m * m

/-- v ÷ m, rounded up. -/
def ceilDiv (v m : Nat) : Nat := (v + m - 1) / m

/-- One bit step of CRC-16 with polynomial 0x1021 (R392). -/
def crc16Bit (c : Nat) : Nat := if c ≥ 0x8000 then ((c * 2) ^^^ 0x1021) % 0x10000 else c * 2

/-- One byte of CRC-16 (R392). -/
def crc16Byte (c : Nat) (b : Byte) : Nat :=
  let c0 := c ^^^ (b.toNat * 256)
  crc16Bit (crc16Bit (crc16Bit (crc16Bit (crc16Bit (crc16Bit (crc16Bit (crc16Bit c0)))))))

/-- CRC-16 of a byte list (R392). -/
def crc16 (l : List Byte) : Nat := l.foldl crc16Byte 0xFFFF

end Sys2Proof.Machine
end

