-- ==== Sys2Proof/Machine/RegTable.lean ====
section
/-! DEFINITION. Every register of BAR0 (R725): its place, width, island and domain (21_register_summary.md), and its fields
with access type (R19), retention class (R22) and reset value, from the chapter that owns it. `F` names every field. -/

namespace Sys2Proof.Machine

/-- Access types (R19). -/
inductive Acc where
  | rw | ro | wo | w1c | w1s | rc | live
  deriving DecidableEq, Repr

/-- Retention classes (R22). -/
inductive Cls where
  | a | p | c | l | v
  deriving DecidableEq, Repr

/-- The registers of BAR0; `ringkCfg` and `ringkStat` are RING_k_CFG and RING_k_STAT, `ringCfg` and `ringStat` the Paldel
registers RING_CFG and RING_STAT. -/
inductive Reg where
  | capsFixed | capsLive | rstCtl | rstBlock | rstStat | pwrDomCtl | pwrDomStat | pwrEvt
  | lullCtl | lullStat | lullWakeAt | wsTemp | wsRail | wsProc | wsCtl | wsTempThr
  | wsVstat | wsTstat | wsRailThr | fltCtl | fltStat | fltLive | fltTrap | ballastCtl
  | ballastStat | ballastT | fltReact | fltCnt | fltInjCtl | fltInjAddr | fltInjStat | islFlt
  | islFltT | fltRec | ringBase | ringkCfg | ringPtr | ringkStat | ringIrq | ringCtl
  | ringCount | hostStat | hostCtl | hostErr | hostEvtDropped | paddockCtl | paddockStat | paddockLevel
  | paddockWarden | paddockSlotmap | lock | fcSlotStat | fcSteps | mcStat | mcArbPrio | mcArbLimit
  | mcArbStat | mcRefStat | mcEccCtl | mcEccStat | mcMaintCtl | mcPprCtl | mcPprStat | mcLog2
  | mcLog | admCtl | admStat | admCh | ringCfg | ringStat | plCtl | plStat
  | plLane | plEqp | plEqa | plLinkcnt | plTime | plAsym | pairCtl | pairStat
  | tetherStat | tetherMirrorT | tetherUnprot | bootStatus | bootInfo | bootBuild | bootMinver | ucPatch
  | ucRomid | bootKeys | dtime | dtimeStat | calsec | calSet | calEpochDtime | clkStat
  | lifeCtl | lifeStat | lifePoh | ucMatch | feCapCtl | feMmCtl | feCapStat | fchainCtl
  | fchainThr | fchainStat | fchainOut | apgBind | apgXy | apgRef | apgDc | apgEvt
  | clSliceMap | clSiteMask | clSeqCtl | clSeqHzn | clSeqStat | clSeqEnd | clSeqCkpt | clSeqMatch
  | clAdm | clDriftCtl | clDriftStat | clTsetLoaded | clTsetX2 | clTsetX4 | clTimLat | clTimEvt
  | clCapCtl | clCapStat | clCmpFail | clCmpFirst | clCmpLast | clCmpEvt | clCmpChcnt | clTrgSrc
  | clTrgCtl | clTrgStat | clTrgTime | clTrgMask | clTrgVec | clAdcCfg | clAdcStat | clTriginCfg
  | clTriginDsk | clImtrCtl | clImtrStat | clImtrRes | clImtrTstart | clImtrTstop | clImtrCount | clPeCfg
  | clPeStat | clDsk | clDsk2 | clImcal | clImcalInfo
  deriving DecidableEq, Repr

/-- A field: lowest bit, width, access, class, reset value, how often it repeats and at which step, and the values a write
may set it to where the spec limits them (another value leaves the field unchanged). A reset value of a fuse, board or
computed field is 0 here; `resetWord` and the read of a register supply it. -/
structure Fld where
  lo : Nat
  w : Nat
  acc : Acc
  cls : Cls
  reset : Nat := 0
  n : Nat := 1
  step : Nat := 0
  ok : Option (Nat × Nat) := none
  deriving DecidableEq, Repr

/-- A register row: first offset, strides and counts of its indices, whether it is 64 bits wide, its island (base and
multiplier of the first index), its power domain in the same form, and its fields. -/
structure Row where
  reg : Reg
  base : Nat
  dims : List (Nat × Nat)
  wide : Bool
  isl : Nat × Nat
  dom : Option (Nat × Nat)
  flds : List Fld
  deriving DecidableEq, Repr

/-- Where a field lies: the register's offset and strides, the field's lowest bit, width and step. -/
structure RF where
  reg : Reg
  base : Nat
  st : List Nat
  lo : Nat
  w : Nat
  step : Nat := 0
  deriving DecidableEq, Repr

/-- The k-th repetition of a field. -/
def RF.at (f : RF) (k : Nat) : RF := { f with lo := f.lo + k * f.step }

/-- base + Σ stride × index. -/
def strideOff : List Nat → List Nat → Nat
  | s :: ss, i :: is => s * i + strideOff ss is
  | _, _ => 0

/-- The BAR0 offset of the register instance with these indices. -/
def RF.off (f : RF) (idx : List Nat) : Nat := f.base + strideOff f.st idx

/-- CAPS_FIXED (R5). -/
def rowCapsFixed : Row :=
  { reg := .capsFixed, base := 0x10, dims := [], wide := true, isl := (29, 0), dom := none, flds := [
    { lo := 0, w := 4, acc := .ro, cls := .a },
    { lo := 4, w := 4, acc := .ro, cls := .a },
    { lo := 8, w := 4, acc := .ro, cls := .a },
    { lo := 12, w := 3, acc := .ro, cls := .a },
    { lo := 16, w := 6, acc := .ro, cls := .a },
    { lo := 22, w := 5, acc := .ro, cls := .a },
    { lo := 27, w := 1, acc := .ro, cls := .a },
    { lo := 28, w := 1, acc := .ro, cls := .a },
    { lo := 32, w := 4, acc := .ro, cls := .a },
    { lo := 36, w := 5, acc := .ro, cls := .a },
    { lo := 41, w := 2, acc := .ro, cls := .a },
    { lo := 44, w := 4, acc := .ro, cls := .a }] }

/-- CAPS_LIVE (R6). -/
def rowCapsLive : Row :=
  { reg := .capsLive, base := 0x18, dims := [], wide := true, isl := (29, 0), dom := none, flds := [
    { lo := 0, w := 12, acc := .ro, cls := .p },
    { lo := 12, w := 6, acc := .ro, cls := .p },
    { lo := 18, w := 5, acc := .ro, cls := .p },
    { lo := 23, w := 2, acc := .ro, cls := .p },
    { lo := 25, w := 4, acc := .ro, cls := .p },
    { lo := 32, w := 4, acc := .ro, cls := .p },
    { lo := 36, w := 8, acc := .ro, cls := .p },
    { lo := 44, w := 1, acc := .ro, cls := .p },
    { lo := 45, w := 6, acc := .ro, cls := .p },
    { lo := 51, w := 5, acc := .ro, cls := .p },
    { lo := 56, w := 1, acc := .ro, cls := .p }] }

/-- RST_CTL (R724). -/
def rowRstCtl : Row :=
  { reg := .rstCtl, base := 0x1000, dims := [], wide := false, isl := (29, 0), dom := none, flds := [
    { lo := 0, w := 1, acc := .wo, cls := .v },
    { lo := 8, w := 8, acc := .wo, cls := .v }] }

/-- RST_BLOCK (R724). -/
def rowRstBlock : Row :=
  { reg := .rstBlock, base := 0x1008, dims := [], wide := false, isl := (29, 0), dom := none, flds := [
    { lo := 0, w := 5, acc := .rw, cls := .c },
    { lo := 5, w := 1, acc := .rw, cls := .c },
    { lo := 6, w := 5, acc := .rw, cls := .c },
    { lo := 31, w := 1, acc := .wo, cls := .v }] }

/-- RST_STAT (R724). -/
def rowRstStat : Row :=
  { reg := .rstStat, base := 0x1010, dims := [], wide := true, isl := (29, 0), dom := none, flds := [
    { lo := 0, w := 1, acc := .live, cls := .v },
    { lo := 1, w := 1, acc := .w1c, cls := .c },
    { lo := 2, w := 3, acc := .ro, cls := .p },
    { lo := 16, w := 16, acc := .ro, cls := .p },
    { lo := 32, w := 16, acc := .ro, cls := .a },
    { lo := 48, w := 16, acc := .ro, cls := .c }] }

/-- PWR_DOM_CTL (R689). -/
def rowPwrDomCtl : Row :=
  { reg := .pwrDomCtl, base := 0x1100, dims := [(8, 2)], wide := true, isl := (29, 0), dom := none, flds := [
    { lo := 0, w := 64, acc := .rw, cls := .c }] }

/-- PWR_DOM_STAT (R689). -/
def rowPwrDomStat : Row :=
  { reg := .pwrDomStat, base := 0x1110, dims := [(8, 2)], wide := true, isl := (29, 0), dom := none, flds := [
    { lo := 0, w := 64, acc := .live, cls := .v }] }

/-- PWR_EVT (R690). -/
def rowPwrEvt : Row :=
  { reg := .pwrEvt, base := 0x1120, dims := [], wide := false, isl := (29, 0), dom := none, flds := [
    { lo := 0, w := 1, acc := .w1c, cls := .c },
    { lo := 1, w := 1, acc := .w1c, cls := .c },
    { lo := 2, w := 1, acc := .w1c, cls := .c },
    { lo := 8, w := 7, acc := .ro, cls := .c }] }

/-- LULL_CTL (R691). -/
def rowLullCtl : Row :=
  { reg := .lullCtl, base := 0x1200, dims := [], wide := false, isl := (29, 0), dom := none, flds := [
    { lo := 0, w := 1, acc := .wo, cls := .v },
    { lo := 1, w := 4, acc := .rw, cls := .c },
    { lo := 5, w := 4, acc := .rw, cls := .c },
    { lo := 9, w := 1, acc := .rw, cls := .c }] }

/-- LULL_STAT (R691). -/
def rowLullStat : Row :=
  { reg := .lullStat, base := 0x1208, dims := [], wide := true, isl := (29, 0), dom := none, flds := [
    { lo := 0, w := 2, acc := .live, cls := .v },
    { lo := 2, w := 3, acc := .ro, cls := .c },
    { lo := 8, w := 4, acc := .ro, cls := .c },
    { lo := 12, w := 1, acc := .w1c, cls := .c },
    { lo := 32, w := 32, acc := .ro, cls := .c }] }

/-- LULL_WAKE_AT (R691). -/
def rowLullWakeAt : Row :=
  { reg := .lullWakeAt, base := 0x1210, dims := [], wide := true, isl := (29, 0), dom := none, flds := [
    { lo := 0, w := 64, acc := .rw, cls := .c }] }

/-- WS_TEMP (R692). -/
def rowWsTemp : Row :=
  { reg := .wsTemp, base := 0x2000, dims := [(8, 7)], wide := true, isl := (29, 0), dom := none, flds := [
    { lo := 0, w := 16, acc := .live, cls := .v, n := 4, step := 16 }] }

/-- WS_RAIL (R692). -/
def rowWsRail : Row :=
  { reg := .wsRail, base := 0x2040, dims := [(8, 4)], wide := true, isl := (29, 0), dom := none, flds := [
    { lo := 0, w := 16, acc := .live, cls := .v, n := 4, step := 16 }] }

/-- WS_PROC (R692). -/
def rowWsProc : Row :=
  { reg := .wsProc, base := 0x2060, dims := [(8, 3)], wide := true, isl := (29, 0), dom := none, flds := [
    { lo := 0, w := 16, acc := .live, cls := .v, n := 4, step := 16 }] }

/-- WS_CTL (R693). -/
def rowWsCtl : Row :=
  { reg := .wsCtl, base := 0x2080, dims := [], wide := false, isl := (29, 0), dom := none, flds := [
    { lo := 0, w := 16, acc := .rw, cls := .c, reset := 50 },
    { lo := 16, w := 10, acc := .rw, cls := .c, reset := 100, ok := some (0, 1000) }] }

/-- WS_TEMP_THR (R693). -/
def rowWsTempThr : Row :=
  { reg := .wsTempThr, base := 0x2088, dims := [], wide := false, isl := (29, 0), dom := none, flds := [
    { lo := 0, w := 16, acc := .rw, cls := .p, reset := 2320 },
    { lo := 16, w := 16, acc := .rw, cls := .p, reset := 2480 }] }

/-- WS_VSTAT (R694). -/
def rowWsVstat : Row :=
  { reg := .wsVstat, base := 0x2090, dims := [], wide := true, isl := (29, 0), dom := none, flds := [
    { lo := 0, w := 14, acc := .w1c, cls := .c },
    { lo := 16, w := 14, acc := .live, cls := .v },
    { lo := 30, w := 1, acc := .live, cls := .v },
    { lo := 32, w := 32, acc := .ro, cls := .c }] }

/-- WS_TSTAT (R694). -/
def rowWsTstat : Row :=
  { reg := .wsTstat, base := 0x2098, dims := [], wide := true, isl := (29, 0), dom := none, flds := [
    { lo := 0, w := 26, acc := .w1c, cls := .c },
    { lo := 32, w := 5, acc := .live, cls := .v },
    { lo := 48, w := 16, acc := .live, cls := .v }] }

/-- WS_RAIL_THR (R695). -/
def rowWsRailThr : Row :=
  { reg := .wsRailThr, base := 0x2100, dims := [(8, 14)], wide := true, isl := (29, 0), dom := none, flds := [
    { lo := 0, w := 16, acc := .rw, cls := .p },
    { lo := 16, w := 16, acc := .rw, cls := .p },
    { lo := 32, w := 16, acc := .rw, cls := .p }] }

/-- FLT_CTL (R648). -/
def rowFltCtl : Row :=
  { reg := .fltCtl, base := 0x3000, dims := [], wide := false, isl := (29, 0), dom := none, flds := [
    { lo := 0, w := 1, acc := .rw, cls := .c }] }

/-- FLT_STAT (R648). -/
def rowFltStat : Row :=
  { reg := .fltStat, base := 0x3008, dims := [], wide := true, isl := (29, 0), dom := none, flds := [
    { lo := 0, w := 64, acc := .w1c, cls := .p }] }

/-- FLT_LIVE (R648). -/
def rowFltLive : Row :=
  { reg := .fltLive, base := 0x3010, dims := [], wide := true, isl := (29, 0), dom := none, flds := [
    { lo := 0, w := 64, acc := .live, cls := .v }] }

/-- FLT_TRAP (R648). -/
def rowFltTrap : Row :=
  { reg := .fltTrap, base := 0x3018, dims := [], wide := true, isl := (29, 0), dom := none, flds := [
    { lo := 0, w := 64, acc := .w1c, cls := .p }] }

/-- BALLAST_CTL (R652). -/
def rowBallastCtl : Row :=
  { reg := .ballastCtl, base := 0x3040, dims := [], wide := false, isl := (29, 0), dom := none, flds := [
    { lo := 0, w := 1, acc := .wo, cls := .v },
    { lo := 1, w := 1, acc := .rw, cls := .p }] }

/-- BALLAST_STAT (R652). -/
def rowBallastStat : Row :=
  { reg := .ballastStat, base := 0x3048, dims := [], wide := true, isl := (29, 0), dom := none, flds := [
    { lo := 0, w := 1, acc := .live, cls := .v },
    { lo := 1, w := 1, acc := .live, cls := .v },
    { lo := 2, w := 1, acc := .ro, cls := .p },
    { lo := 8, w := 6, acc := .ro, cls := .p },
    { lo := 16, w := 12, acc := .ro, cls := .p },
    { lo := 32, w := 32, acc := .ro, cls := .p }] }

/-- BALLAST_T (R652). -/
def rowBallastT : Row :=
  { reg := .ballastT, base := 0x3050, dims := [], wide := true, isl := (29, 0), dom := none, flds := [
    { lo := 0, w := 64, acc := .ro, cls := .p }] }

/-- FLT_REACT (R649). -/
def rowFltReact : Row :=
  { reg := .fltReact, base := 0x3100, dims := [(8, 8)], wide := true, isl := (29, 0), dom := none, flds := [
    { lo := 0, w := 6, acc := .rw, cls := .p, n := 8, step := 8 }] }

/-- FLT_CNT (R650). -/
def rowFltCnt : Row :=
  { reg := .fltCnt, base := 0x3200, dims := [(4, 64)], wide := false, isl := (29, 0), dom := none, flds := [
    { lo := 0, w := 32, acc := .ro, cls := .p }] }

/-- FLT_INJ_CTL (R651). -/
def rowFltInjCtl : Row :=
  { reg := .fltInjCtl, base := 0x3400, dims := [], wide := true, isl := (29, 0), dom := none, flds := [
    { lo := 0, w := 6, acc := .rw, cls := .c },
    { lo := 6, w := 1, acc := .wo, cls := .v },
    { lo := 7, w := 1, acc := .wo, cls := .v },
    { lo := 8, w := 5, acc := .rw, cls := .c },
    { lo := 16, w := 8, acc := .rw, cls := .c },
    { lo := 24, w := 6, acc := .rw, cls := .c },
    { lo := 32, w := 1, acc := .rw, cls := .c }] }

/-- FLT_INJ_ADDR (R651). -/
def rowFltInjAddr : Row :=
  { reg := .fltInjAddr, base := 0x3408, dims := [], wide := true, isl := (29, 0), dom := none, flds := [
    { lo := 0, w := 40, acc := .rw, cls := .c }] }

/-- FLT_INJ_STAT (R651). -/
def rowFltInjStat : Row :=
  { reg := .fltInjStat, base := 0x3410, dims := [], wide := true, isl := (29, 0), dom := none, flds := [
    { lo := 0, w := 1, acc := .live, cls := .v },
    { lo := 1, w := 1, acc := .w1c, cls := .c },
    { lo := 32, w := 32, acc := .ro, cls := .c }] }

/-- ISL_FLT (R654). -/
def rowIslFlt : Row :=
  { reg := .islFlt, base := 0x3600, dims := [(16, 30)], wide := true, isl := (29, 0), dom := none, flds := [
    { lo := 0, w := 1, acc := .w1c, cls := .p },
    { lo := 1, w := 1, acc := .live, cls := .v },
    { lo := 2, w := 6, acc := .ro, cls := .p },
    { lo := 8, w := 8, acc := .ro, cls := .p },
    { lo := 16, w := 8, acc := .ro, cls := .p },
    { lo := 32, w := 32, acc := .ro, cls := .p }] }

/-- ISL_FLT_T (R654). -/
def rowIslFltT : Row :=
  { reg := .islFltT, base := 0x3608, dims := [(16, 30)], wide := true, isl := (29, 0), dom := none, flds := [
    { lo := 0, w := 64, acc := .ro, cls := .p }] }

/-- FLT_REC (R653). -/
def rowFltRec : Row :=
  { reg := .fltRec, base := 0x3800, dims := [(32, 64), (8, 4)], wide := true, isl := (29, 0), dom := none, flds := [
    { lo := 0, w := 64, acc := .ro, cls := .p }] }

/-- RING_BASE (R513). -/
def rowRingBase : Row :=
  { reg := .ringBase, base := 0x4000, dims := [(64, 64)], wide := true, isl := (25, 0), dom := some (88, 0), flds := [
    { lo := 12, w := 52, acc := .rw, cls := .l }] }

/-- RING_k_CFG (R514). -/
def rowRingkCfg : Row :=
  { reg := .ringkCfg, base := 0x4008, dims := [(64, 64)], wide := true, isl := (25, 0), dom := some (88, 0), flds := [
    { lo := 0, w := 1, acc := .rw, cls := .l },
    { lo := 1, w := 5, acc := .rw, cls := .l, reset := 4, ok := some (4, 16) },
    { lo := 8, w := 3, acc := .rw, cls := .l },
    { lo := 16, w := 4, acc := .rw, cls := .l },
    { lo := 24, w := 6, acc := .rw, cls := .l, ok := some (1, 63) },
    { lo := 30, w := 1, acc := .rw, cls := .l },
    { lo := 32, w := 32, acc := .rw, cls := .l }] }

/-- RING_PTR (R515). -/
def rowRingPtr : Row :=
  { reg := .ringPtr, base := 0x4010, dims := [(64, 64)], wide := true, isl := (25, 0), dom := some (88, 0), flds := [
    { lo := 0, w := 16, acc := .live, cls := .l },
    { lo := 16, w := 16, acc := .live, cls := .l },
    { lo := 32, w := 1, acc := .live, cls := .l }] }

/-- RING_k_STAT (R516). -/
def rowRingkStat : Row :=
  { reg := .ringkStat, base := 0x4018, dims := [(64, 64)], wide := true, isl := (25, 0), dom := some (88, 0), flds := [
    { lo := 0, w := 1, acc := .live, cls := .v, reset := 1 },
    { lo := 1, w := 1, acc := .ro, cls := .l },
    { lo := 4, w := 4, acc := .ro, cls := .l },
    { lo := 32, w := 17, acc := .live, cls := .v }] }

/-- RING_IRQ (R517). -/
def rowRingIrq : Row :=
  { reg := .ringIrq, base := 0x4020, dims := [(64, 64)], wide := false, isl := (25, 0), dom := some (88, 0), flds := [
    { lo := 0, w := 16, acc := .rw, cls := .l, reset := 1 },
    { lo := 16, w := 16, acc := .rw, cls := .l }] }

/-- RING_CTL (R517). -/
def rowRingCtl : Row :=
  { reg := .ringCtl, base := 0x4028, dims := [(64, 64)], wide := false, isl := (25, 0), dom := some (88, 0), flds := [
    { lo := 0, w := 1, acc := .wo, cls := .v }] }

/-- RING_COUNT (R517). -/
def rowRingCount : Row :=
  { reg := .ringCount, base := 0x4030, dims := [(64, 64)], wide := true, isl := (25, 0), dom := some (88, 0), flds := [
    { lo := 0, w := 64, acc := .ro, cls := .l }] }

/-- HOST_STAT (R518). -/
def rowHostStat : Row :=
  { reg := .hostStat, base := 0x5000, dims := [], wide := true, isl := (25, 0), dom := some (88, 0), flds := [
    { lo := 0, w := 1, acc := .live, cls := .v },
    { lo := 1, w := 1, acc := .live, cls := .v },
    { lo := 2, w := 3, acc := .live, cls := .v },
    { lo := 5, w := 3, acc := .live, cls := .v },
    { lo := 8, w := 1, acc := .live, cls := .v },
    { lo := 32, w := 17, acc := .live, cls := .v },
    { lo := 49, w := 11, acc := .live, cls := .v }] }

/-- HOST_CTL (R519). -/
def rowHostCtl : Row :=
  { reg := .hostCtl, base := 0x5008, dims := [], wide := false, isl := (25, 0), dom := some (88, 0), flds := [
    { lo := 0, w := 17, acc := .rw, cls := .l, reset := 0x10000, ok := some (1, 65536) },
    { lo := 17, w := 1, acc := .rw, cls := .l },
    { lo := 24, w := 8, acc := .rw, cls := .l, reset := 100 }] }

/-- HOST_ERR (R520). -/
def rowHostErr : Row :=
  { reg := .hostErr, base := 0x5010, dims := [], wide := true, isl := (25, 0), dom := some (88, 0), flds := [
    { lo := 0, w := 1, acc := .w1c, cls := .l },
    { lo := 1, w := 1, acc := .w1c, cls := .l },
    { lo := 2, w := 1, acc := .w1c, cls := .l },
    { lo := 3, w := 1, acc := .w1c, cls := .l },
    { lo := 4, w := 1, acc := .w1c, cls := .l },
    { lo := 5, w := 1, acc := .w1c, cls := .l },
    { lo := 32, w := 6, acc := .ro, cls := .l }] }

/-- HOST_EVT_DROPPED (R521). -/
def rowHostEvtDropped : Row :=
  { reg := .hostEvtDropped, base := 0x5018, dims := [], wide := true, isl := (25, 0), dom := some (88, 0), flds := [
    { lo := 0, w := 32, acc := .ro, cls := .c }] }

/-- PADDOCK_CTL (R474). -/
def rowPaddockCtl : Row :=
  { reg := .paddockCtl, base := 0x8000, dims := [], wide := false, isl := (12, 0), dom := none, flds := [
    { lo := 0, w := 8, acc := .rw, cls := .c, reset := 64 }] }

/-- PADDOCK_STAT (R475). -/
def rowPaddockStat : Row :=
  { reg := .paddockStat, base := 0x8008, dims := [], wide := true, isl := (12, 0), dom := none, flds := [
    { lo := 0, w := 13, acc := .live, cls := .l },
    { lo := 13, w := 13, acc := .live, cls := .l },
    { lo := 26, w := 5, acc := .live, cls := .l },
    { lo := 32, w := 13, acc := .live, cls := .l },
    { lo := 45, w := 1, acc := .w1c, cls := .c }] }

/-- PADDOCK_LEVEL (R476). -/
def rowPaddockLevel : Row :=
  { reg := .paddockLevel, base := 0x8010, dims := [], wide := true, isl := (12, 0), dom := none, flds := [
    { lo := 0, w := 8, acc := .live, cls := .l, n := 8, step := 8 }] }

/-- PADDOCK_WARDEN (R477). -/
def rowPaddockWarden : Row :=
  { reg := .paddockWarden, base := 0x8018, dims := [], wide := false, isl := (12, 0), dom := none, flds := [
    { lo := 0, w := 12, acc := .rw, cls := .l },
    { lo := 16, w := 1, acc := .ro, cls := .l },
    { lo := 20, w := 4, acc := .live, cls := .p }] }

/-- PADDOCK_SLOTMAP (R478). -/
def rowPaddockSlotmap : Row :=
  { reg := .paddockSlotmap, base := 0x8020, dims := [(8, 2)], wide := true, isl := (12, 0), dom := none, flds := [
    { lo := 0, w := 5, acc := .live, cls := .p, n := 8, step := 8 },
    { lo := 5, w := 1, acc := .live, cls := .p, n := 8, step := 8 }] }

/-- LOCK (R479). -/
def rowLock : Row :=
  { reg := .lock, base := 0x8100, dims := [(8, 32)], wide := true, isl := (12, 0), dom := none, flds := [
    { lo := 0, w := 12, acc := .live, cls := .l },
    { lo := 12, w := 6, acc := .live, cls := .l },
    { lo := 18, w := 1, acc := .live, cls := .l },
    { lo := 19, w := 1, acc := .live, cls := .l },
    { lo := 20, w := 1, acc := .live, cls := .l },
    { lo := 32, w := 13, acc := .live, cls := .l }] }

/-- FC_SLOT_STAT (R480). -/
def rowFcSlotStat : Row :=
  { reg := .fcSlotStat, base := 0x8400, dims := [(16, 18)], wide := true, isl := (12, 0), dom := none, flds := [
    { lo := 0, w := 4, acc := .live, cls := .p },
    { lo := 4, w := 1, acc := .live, cls := .p },
    { lo := 5, w := 1, acc := .ro, cls := .a },
    { lo := 6, w := 1, acc := .live, cls := .p },
    { lo := 8, w := 12, acc := .live, cls := .l },
    { lo := 20, w := 1, acc := .live, cls := .l },
    { lo := 32, w := 12, acc := .live, cls := .l },
    { lo := 44, w := 1, acc := .live, cls := .l }] }

/-- FC_STEPS (R480). -/
def rowFcSteps : Row :=
  { reg := .fcSteps, base := 0x8408, dims := [(16, 18)], wide := true, isl := (12, 0), dom := none, flds := [
    { lo := 0, w := 64, acc := .ro, cls := .c }] }

/-- MC_STAT (R551). -/
def rowMcStat : Row :=
  { reg := .mcStat, base := 0x9000, dims := [(1024, 8)], wide := true, isl := (13, 1), dom := some (76, 1), flds := [
    { lo := 0, w := 1, acc := .live, cls := .p },
    { lo := 1, w := 2, acc := .ro, cls := .p },
    { lo := 3, w := 2, acc := .ro, cls := .p },
    { lo := 5, w := 1, acc := .live, cls := .v },
    { lo := 6, w := 2, acc := .live, cls := .v },
    { lo := 8, w := 1, acc := .w1c, cls := .c },
    { lo := 9, w := 1, acc := .live, cls := .v }] }

/-- MC_ARB_PRIO (R552). -/
def rowMcArbPrio : Row :=
  { reg := .mcArbPrio, base := 0x9008, dims := [(1024, 8)], wide := true, isl := (13, 1), dom := some (76, 1), flds := [
    { lo := 0, w := 4, acc := .rw, cls := .c, n := 8, step := 8 },
    { lo := 4, w := 4, acc := .rw, cls := .c, n := 8, step := 8 }] }

/-- MC_ARB_LIMIT (R552). -/
def rowMcArbLimit : Row :=
  { reg := .mcArbLimit, base := 0x9010, dims := [(1024, 8)], wide := true, isl := (13, 1), dom := some (76, 1), flds := [
    { lo := 0, w := 8, acc := .rw, cls := .c, n := 8, step := 8 }] }

/-- MC_ARB_STAT (R553). -/
def rowMcArbStat : Row :=
  { reg := .mcArbStat, base := 0x9018, dims := [(1024, 8)], wide := true, isl := (13, 1), dom := some (76, 1), flds := [
    { lo := 0, w := 16, acc := .ro, cls := .c },
    { lo := 32, w := 32, acc := .ro, cls := .c }] }

/-- MC_REF_STAT (R553). -/
def rowMcRefStat : Row :=
  { reg := .mcRefStat, base := 0x9020, dims := [(1024, 8)], wide := true, isl := (13, 1), dom := some (76, 1), flds := [
    { lo := 0, w := 5, acc := .live, cls := .v },
    { lo := 5, w := 4, acc := .live, cls := .v },
    { lo := 32, w := 32, acc := .ro, cls := .c }] }

/-- MC_ECC_CTL (R554). -/
def rowMcEccCtl : Row :=
  { reg := .mcEccCtl, base := 0x9028, dims := [(1024, 8)], wide := false, isl := (13, 1), dom := some (76, 1), flds := [
    { lo := 0, w := 1, acc := .rw, cls := .c },
    { lo := 8, w := 8, acc := .rw, cls := .c, reset := 4 },
    { lo := 16, w := 1, acc := .rw, cls := .c, reset := 1 },
    { lo := 24, w := 8, acc := .rw, cls := .c, reset := 24 }] }

/-- MC_ECC_STAT (R554). -/
def rowMcEccStat : Row :=
  { reg := .mcEccStat, base := 0x9030, dims := [(1024, 8)], wide := true, isl := (13, 1), dom := some (76, 1), flds := [
    { lo := 0, w := 32, acc := .ro, cls := .c },
    { lo := 32, w := 16, acc := .ro, cls := .c },
    { lo := 48, w := 8, acc := .ro, cls := .c }] }

/-- MC_MAINT_CTL (R554). -/
def rowMcMaintCtl : Row :=
  { reg := .mcMaintCtl, base := 0x9038, dims := [(1024, 8)], wide := false, isl := (13, 1), dom := some (76, 1), flds := [
    { lo := 0, w := 16, acc := .rw, cls := .c, reset := 1000 }] }

/-- MC_PPR_CTL (R555). -/
def rowMcPprCtl : Row :=
  { reg := .mcPprCtl, base := 0x9040, dims := [(1024, 8)], wide := false, isl := (13, 1), dom := some (76, 1), flds := [
    { lo := 0, w := 2, acc := .rw, cls := .p, reset := 1, ok := some (0, 2) },
    { lo := 2, w := 1, acc := .wo, cls := .v }] }

/-- MC_PPR_STAT (R555). -/
def rowMcPprStat : Row :=
  { reg := .mcPprStat, base := 0x9048, dims := [(1024, 8)], wide := true, isl := (13, 1), dom := some (76, 1), flds := [
    { lo := 0, w := 5, acc := .ro, cls := .p },
    { lo := 5, w := 5, acc := .ro, cls := .p },
    { lo := 10, w := 5, acc := .live, cls := .c },
    { lo := 16, w := 7, acc := .ro, cls := .p }] }

/-- MC_LOG_2 (R554). -/
def rowMcLog2 : Row :=
  { reg := .mcLog2, base := 0x9110, dims := [(1024, 8), (32, 16)], wide := true, isl := (13, 1), dom := some (76, 1), flds := [
    { lo := 0, w := 56, acc := .ro, cls := .c },
    { lo := 56, w := 1, acc := .w1c, cls := .c },
    { lo := 57, w := 7, acc := .ro, cls := .c }] }

/-- MC_LOG (R554). -/
def rowMcLog : Row :=
  { reg := .mcLog, base := 0x9100, dims := [(1024, 8), (32, 16), (8, 4)], wide := true, isl := (13, 1), dom := some (76, 1), flds := [
    { lo := 0, w := 64, acc := .ro, cls := .c }] }

/-- ADM_CTL (R217). -/
def rowAdmCtl : Row :=
  { reg := .admCtl, base := 0xb000, dims := [], wide := false, isl := (29, 0), dom := none, flds := [
    { lo := 0, w := 7, acc := .rw, cls := .c, reset := 50, ok := some (50, 60) },
    { lo := 8, w := 16, acc := .rw, cls := .c, reset := 200 },
    { lo := 24, w := 8, acc := .rw, cls := .c, reset := 50 }] }

/-- ADM_STAT (R218). -/
def rowAdmStat : Row :=
  { reg := .admStat, base := 0xb008, dims := [], wide := true, isl := (29, 0), dom := none, flds := [
    { lo := 0, w := 13, acc := .live, cls := .v },
    { lo := 13, w := 6, acc := .live, cls := .v },
    { lo := 19, w := 1, acc := .live, cls := .v },
    { lo := 20, w := 1, acc := .live, cls := .v },
    { lo := 32, w := 32, acc := .ro, cls := .c }] }

/-- ADM_CH (R219). -/
def rowAdmCh : Row :=
  { reg := .admCh, base := 0xb040, dims := [(8, 8)], wide := true, isl := (29, 0), dom := none, flds := [
    { lo := 0, w := 16, acc := .live, cls := .v },
    { lo := 16, w := 16, acc := .live, cls := .v },
    { lo := 32, w := 16, acc := .live, cls := .c },
    { lo := 48, w := 1, acc := .live, cls := .v }] }

/-- RING_CFG (R596). -/
def rowRingCfg : Row :=
  { reg := .ringCfg, base := 0xc300, dims := [], wide := false, isl := (29, 0), dom := none, flds := [
    { lo := 0, w := 5, acc := .rw, cls := .p },
    { lo := 5, w := 6, acc := .rw, cls := .p, reset := 1 },
    { lo := 11, w := 1, acc := .rw, cls := .p, reset := 1 },
    { lo := 16, w := 16, acc := .rw, cls := .c, reset := 2000, ok := some (1700, 65535) }] }

/-- RING_STAT (R598). -/
def rowRingStat : Row :=
  { reg := .ringStat, base := 0xc308, dims := [], wide := true, isl := (29, 0), dom := none, flds := [
    { lo := 0, w := 1, acc := .live, cls := .c },
    { lo := 1, w := 1, acc := .w1c, cls := .c },
    { lo := 2, w := 1, acc := .w1c, cls := .c },
    { lo := 3, w := 1, acc := .w1c, cls := .c },
    { lo := 32, w := 13, acc := .live, cls := .c }] }

/-- PL_CTL (R591). -/
def rowPlCtl : Row :=
  { reg := .plCtl, base := 0xc000, dims := [(1024, 4)], wide := false, isl := (21, 1), dom := some (84, 1), flds := [
    { lo := 0, w := 1, acc := .rw, cls := .c },
    { lo := 1, w := 1, acc := .rw, cls := .c },
    { lo := 8, w := 8, acc := .rw, cls := .c, reset := 50 }] }

/-- PL_STAT (R592). -/
def rowPlStat : Row :=
  { reg := .plStat, base := 0xc008, dims := [(1024, 4)], wide := true, isl := (21, 1), dom := some (84, 1), flds := [
    { lo := 0, w := 3, acc := .live, cls := .v },
    { lo := 3, w := 3, acc := .live, cls := .v },
    { lo := 6, w := 4, acc := .live, cls := .v },
    { lo := 10, w := 4, acc := .live, cls := .v },
    { lo := 14, w := 4, acc := .ro, cls := .p },
    { lo := 18, w := 1, acc := .live, cls := .v },
    { lo := 19, w := 5, acc := .ro, cls := .c },
    { lo := 24, w := 2, acc := .ro, cls := .c },
    { lo := 32, w := 32, acc := .ro, cls := .c }] }

/-- PL_LANE (R593). -/
def rowPlLane : Row :=
  { reg := .plLane, base := 0xc010, dims := [(1024, 4), (8, 4)], wide := true, isl := (21, 1), dom := some (84, 1), flds := [
    { lo := 0, w := 1, acc := .live, cls := .v },
    { lo := 1, w := 1, acc := .live, cls := .c },
    { lo := 2, w := 3, acc := .ro, cls := .c },
    { lo := 8, w := 24, acc := .ro, cls := .c },
    { lo := 32, w := 16, acc := .ro, cls := .c }] }

/-- PL_EQP (R594). -/
def rowPlEqp : Row :=
  { reg := .plEqp, base := 0xc030, dims := [(1024, 4), (8, 4)], wide := true, isl := (21, 1), dom := some (84, 1), flds := [
    { lo := 0, w := 8, acc := .ro, cls := .p },
    { lo := 8, w := 8, acc := .ro, cls := .p },
    { lo := 16, w := 8, acc := .ro, cls := .p },
    { lo := 24, w := 8, acc := .ro, cls := .p },
    { lo := 32, w := 8, acc := .ro, cls := .p },
    { lo := 40, w := 8, acc := .ro, cls := .p }] }

/-- PL_EQA (R594). -/
def rowPlEqa : Row :=
  { reg := .plEqa, base := 0xc050, dims := [(1024, 4), (8, 4)], wide := true, isl := (21, 1), dom := some (84, 1), flds := [
    { lo := 0, w := 8, acc := .ro, cls := .p },
    { lo := 8, w := 8, acc := .ro, cls := .p },
    { lo := 16, w := 8, acc := .ro, cls := .p },
    { lo := 24, w := 8, acc := .ro, cls := .p },
    { lo := 32, w := 8, acc := .ro, cls := .p },
    { lo := 40, w := 8, acc := .ro, cls := .p }] }

/-- PL_LINKCNT (R595). -/
def rowPlLinkcnt : Row :=
  { reg := .plLinkcnt, base := 0xc070, dims := [(1024, 4)], wide := true, isl := (21, 1), dom := some (84, 1), flds := [
    { lo := 0, w := 32, acc := .ro, cls := .c },
    { lo := 32, w := 32, acc := .ro, cls := .c }] }

/-- PL_TIME (R595). -/
def rowPlTime : Row :=
  { reg := .plTime, base := 0xc078, dims := [(1024, 4)], wide := true, isl := (21, 1), dom := some (84, 1), flds := [
    { lo := 0, w := 32, acc := .live, cls := .v },
    { lo := 32, w := 16, acc := .live, cls := .v },
    { lo := 48, w := 1, acc := .live, cls := .v }] }

/-- PL_ASYM (R595). -/
def rowPlAsym : Row :=
  { reg := .plAsym, base := 0xc080, dims := [(1024, 4)], wide := true, isl := (21, 1), dom := some (84, 1), flds := [
    { lo := 0, w := 32, acc := .ro, cls := .p }] }

/-- PAIR_CTL (R625). -/
def rowPairCtl : Row :=
  { reg := .pairCtl, base := 0xd000, dims := [], wide := false, isl := (29, 0), dom := none, flds := [
    { lo := 0, w := 1, acc := .rw, cls := .v },
    { lo := 1, w := 1, acc := .rw, cls := .p, reset := 1 },
    { lo := 8, w := 8, acc := .rw, cls := .c, reset := 80, ok := some (0, 80) }] }

/-- PAIR_STAT (R626). -/
def rowPairStat : Row :=
  { reg := .pairStat, base := 0xd008, dims := [], wide := true, isl := (29, 0), dom := none, flds := [
    { lo := 0, w := 2, acc := .live, cls := .v },
    { lo := 2, w := 3, acc := .live, cls := .v },
    { lo := 5, w := 1, acc := .ro, cls := .p },
    { lo := 6, w := 1, acc := .ro, cls := .p },
    { lo := 7, w := 1, acc := .live, cls := .v },
    { lo := 8, w := 1, acc := .live, cls := .v },
    { lo := 9, w := 1, acc := .live, cls := .v },
    { lo := 10, w := 1, acc := .w1c, cls := .c },
    { lo := 16, w := 4, acc := .ro, cls := .c },
    { lo := 32, w := 16, acc := .ro, cls := .p }] }

/-- TETHER_STAT (R627). -/
def rowTetherStat : Row :=
  { reg := .tetherStat, base := 0xd010, dims := [], wide := true, isl := (28, 0), dom := some (95, 0), flds := [
    { lo := 0, w := 13, acc := .live, cls := .v },
    { lo := 16, w := 1, acc := .w1c, cls := .c },
    { lo := 17, w := 1, acc := .w1c, cls := .c },
    { lo := 32, w := 32, acc := .live, cls := .v }] }

/-- TETHER_MIRROR_T (R627). -/
def rowTetherMirrorT : Row :=
  { reg := .tetherMirrorT, base := 0xd018, dims := [], wide := true, isl := (28, 0), dom := some (95, 0), flds := [
    { lo := 0, w := 64, acc := .live, cls := .v }] }

/-- TETHER_UNPROT (R627). -/
def rowTetherUnprot : Row :=
  { reg := .tetherUnprot, base := 0xd020, dims := [], wide := true, isl := (28, 0), dom := some (95, 0), flds := [
    { lo := 0, w := 32, acc := .ro, cls := .c },
    { lo := 32, w := 32, acc := .ro, cls := .c }] }

/-- BOOT_STATUS (R721). -/
def rowBootStatus : Row :=
  { reg := .bootStatus, base := 0xe000, dims := [], wide := false, isl := (29, 0), dom := none, flds := [
    { lo := 0, w := 8, acc := .ro, cls := .v },
    { lo := 8, w := 8, acc := .ro, cls := .v },
    { lo := 16, w := 4, acc := .ro, cls := .v },
    { lo := 20, w := 3, acc := .ro, cls := .v },
    { lo := 23, w := 1, acc := .ro, cls := .v },
    { lo := 24, w := 1, acc := .ro, cls := .v },
    { lo := 25, w := 1, acc := .ro, cls := .v },
    { lo := 26, w := 1, acc := .ro, cls := .v }] }

/-- BOOT_INFO (R722). -/
def rowBootInfo : Row :=
  { reg := .bootInfo, base := 0xe008, dims := [], wide := true, isl := (29, 0), dom := none, flds := [
    { lo := 0, w := 32, acc := .ro, cls := .v },
    { lo := 32, w := 2, acc := .ro, cls := .v },
    { lo := 34, w := 4, acc := .ro, cls := .a }] }

/-- BOOT_BUILD (R722). -/
def rowBootBuild : Row :=
  { reg := .bootBuild, base := 0xe010, dims := [], wide := true, isl := (29, 0), dom := none, flds := [
    { lo := 0, w := 64, acc := .ro, cls := .v }] }

/-- BOOT_MINVER (R722). -/
def rowBootMinver : Row :=
  { reg := .bootMinver, base := 0xe018, dims := [], wide := false, isl := (29, 0), dom := none, flds := [
    { lo := 0, w := 32, acc := .ro, cls := .a }] }

/-- UC_PATCH (R723). -/
def rowUcPatch : Row :=
  { reg := .ucPatch, base := 0xe020, dims := [], wide := true, isl := (29, 0), dom := none, flds := [
    { lo := 0, w := 32, acc := .ro, cls := .c },
    { lo := 32, w := 10, acc := .ro, cls := .c },
    { lo := 42, w := 6, acc := .ro, cls := .c },
    { lo := 48, w := 16, acc := .ro, cls := .a }] }

/-- UC_ROMID (R723). -/
def rowUcRomid : Row :=
  { reg := .ucRomid, base := 0xe028, dims := [], wide := true, isl := (29, 0), dom := none, flds := [
    { lo := 0, w := 64, acc := .ro, cls := .a }] }

/-- BOOT_KEYS (R722). -/
def rowBootKeys : Row :=
  { reg := .bootKeys, base := 0xe040, dims := [(8, 24)], wide := true, isl := (29, 0), dom := none, flds := [
    { lo := 0, w := 64, acc := .ro, cls := .a }] }

/-- DTIME (R60). -/
def rowDtime : Row :=
  { reg := .dtime, base := 0xe100, dims := [], wide := true, isl := (29, 0), dom := none, flds := [
    { lo := 0, w := 64, acc := .live, cls := .a }] }

/-- DTIME_STAT (R61). -/
def rowDtimeStat : Row :=
  { reg := .dtimeStat, base := 0xe108, dims := [], wide := true, isl := (29, 0), dom := none, flds := [
    { lo := 0, w := 1, acc := .live, cls := .a, reset := 1 },
    { lo := 1, w := 1, acc := .w1c, cls := .a, reset := 1 },
    { lo := 2, w := 1, acc := .w1c, cls := .a },
    { lo := 3, w := 1, acc := .w1c, cls := .a },
    { lo := 8, w := 5, acc := .ro, cls := .a },
    { lo := 32, w := 32, acc := .ro, cls := .a }] }

/-- CALSEC (R62). -/
def rowCalsec : Row :=
  { reg := .calsec, base := 0xe110, dims := [], wide := true, isl := (29, 0), dom := none, flds := [
    { lo := 0, w := 48, acc := .live, cls := .a },
    { lo := 48, w := 15, acc := .live, cls := .a },
    { lo := 63, w := 1, acc := .ro, cls := .a }] }

/-- CAL_SET (R63). -/
def rowCalSet : Row :=
  { reg := .calSet, base := 0xe118, dims := [], wide := true, isl := (29, 0), dom := none, flds := [
    { lo := 0, w := 48, acc := .wo, cls := .v }] }

/-- CAL_EPOCH_DTIME (R64). -/
def rowCalEpochDtime : Row :=
  { reg := .calEpochDtime, base := 0xe120, dims := [], wide := true, isl := (29, 0), dom := none, flds := [
    { lo := 0, w := 64, acc := .ro, cls := .a }] }

/-- CLK_STAT (R65). -/
def rowClkStat : Row :=
  { reg := .clkStat, base := 0xe128, dims := [], wide := false, isl := (29, 0), dom := none, flds := [
    { lo := 0, w := 1, acc := .live, cls := .v },
    { lo := 1, w := 1, acc := .live, cls := .v },
    { lo := 2, w := 1, acc := .live, cls := .v },
    { lo := 3, w := 1, acc := .live, cls := .v },
    { lo := 8, w := 1, acc := .w1c, cls := .p },
    { lo := 9, w := 1, acc := .w1c, cls := .p },
    { lo := 10, w := 1, acc := .w1c, cls := .p },
    { lo := 16, w := 16, acc := .ro, cls := .p }] }

/-- LIFE_CTL (R696). -/
def rowLifeCtl : Row :=
  { reg := .lifeCtl, base := 0xe200, dims := [], wide := false, isl := (29, 0), dom := none, flds := [
    { lo := 0, w := 8, acc := .rw, cls := .p, reset := 60, ok := some (1, 255) },
    { lo := 8, w := 1, acc := .rw, cls := .p }] }

/-- LIFE_STAT (R696). -/
def rowLifeStat : Row :=
  { reg := .lifeStat, base := 0xe208, dims := [], wide := true, isl := (29, 0), dom := none, flds := [
    { lo := 0, w := 2, acc := .live, cls := .v },
    { lo := 2, w := 11, acc := .ro, cls := .v },
    { lo := 13, w := 7, acc := .live, cls := .v },
    { lo := 20, w := 12, acc := .ro, cls := .a },
    { lo := 32, w := 32, acc := .ro, cls := .v }] }

/-- LIFE_POH (R696). -/
def rowLifePoh : Row :=
  { reg := .lifePoh, base := 0xe210, dims := [], wide := true, isl := (29, 0), dom := none, flds := [
    { lo := 0, w := 48, acc := .live, cls := .a }] }

/-- UC_MATCH (R723). -/
def rowUcMatch : Row :=
  { reg := .ucMatch, base := 0xe400, dims := [(4, 32)], wide := false, isl := (29, 0), dom := none, flds := [
    { lo := 0, w := 14, acc := .ro, cls := .c },
    { lo := 16, w := 9, acc := .ro, cls := .c },
    { lo := 31, w := 1, acc := .ro, cls := .c }] }

/-- FE_CAP_CTL (R374). -/
def rowFeCapCtl : Row :=
  { reg := .feCapCtl, base := 0x100000, dims := [(32768, 2)], wide := false, isl := (26, 0), dom := some (93, 1), flds := [
    { lo := 0, w := 16, acc := .rw, cls := .c, reset := 480, ok := some (96, 2000) }] }

/-- FE_MM_CTL (R374). -/
def rowFeMmCtl : Row :=
  { reg := .feMmCtl, base := 0x100008, dims := [(32768, 2)], wide := false, isl := (26, 0), dom := some (93, 1), flds := [
    { lo := 0, w := 16, acc := .rw, cls := .c, reset := 1000 },
    { lo := 16, w := 16, acc := .rw, cls := .c, reset := 1000 }] }

/-- FE_CAP_STAT (R374). -/
def rowFeCapStat : Row :=
  { reg := .feCapStat, base := 0x100010, dims := [(32768, 2)], wide := true, isl := (26, 0), dom := some (93, 1), flds := [
    { lo := 0, w := 5, acc := .live, cls := .v },
    { lo := 5, w := 9, acc := .live, cls := .v },
    { lo := 32, w := 32, acc := .ro, cls := .c }] }

/-- FCHAIN_CTL (R375). -/
def rowFchainCtl : Row :=
  { reg := .fchainCtl, base := 0x101000, dims := [(32768, 2), (256, 12)], wide := true, isl := (26, 0), dom := some (93, 1), flds := [
    { lo := 0, w := 1, acc := .rw, cls := .c },
    { lo := 1, w := 2, acc := .rw, cls := .c, ok := some (0, 2) },
    { lo := 3, w := 1, acc := .rw, cls := .c },
    { lo := 4, w := 5, acc := .rw, cls := .c, reset := 16, ok := some (4, 24) },
    { lo := 9, w := 1, acc := .rw, cls := .c },
    { lo := 10, w := 1, acc := .rw, cls := .c },
    { lo := 11, w := 1, acc := .rw, cls := .c },
    { lo := 12, w := 3, acc := .wo, cls := .v },
    { lo := 16, w := 12, acc := .rw, cls := .c },
    { lo := 28, w := 2, acc := .rw, cls := .c },
    { lo := 30, w := 5, acc := .rw, cls := .c, ok := some (0, 20) },
    { lo := 35, w := 5, acc := .rw, cls := .c, reset := 8, ok := some (1, 20) },
    { lo := 40, w := 16, acc := .rw, cls := .c }] }

/-- FCHAIN_THR (R376). -/
def rowFchainThr : Row :=
  { reg := .fchainThr, base := 0x101008, dims := [(32768, 2), (256, 12)], wide := true, isl := (26, 0), dom := some (93, 1), flds := [
    { lo := 0, w := 24, acc := .rw, cls := .c, reset := 0x7fffff },
    { lo := 32, w := 24, acc := .rw, cls := .c, reset := 0x800000 }] }

/-- FCHAIN_STAT (R376). -/
def rowFchainStat : Row :=
  { reg := .fchainStat, base := 0x101010, dims := [(32768, 2), (256, 12)], wide := true, isl := (26, 0), dom := some (93, 1), flds := [
    { lo := 0, w := 1, acc := .live, cls := .v },
    { lo := 1, w := 1, acc := .live, cls := .v },
    { lo := 2, w := 4, acc := .live, cls := .v },
    { lo := 6, w := 1, acc := .w1c, cls := .c },
    { lo := 7, w := 1, acc := .w1c, cls := .c },
    { lo := 8, w := 5, acc := .live, cls := .v },
    { lo := 13, w := 1, acc := .live, cls := .v },
    { lo := 32, w := 32, acc := .ro, cls := .c }] }

/-- FCHAIN_OUT (R376). -/
def rowFchainOut : Row :=
  { reg := .fchainOut, base := 0x101018, dims := [(32768, 2), (256, 12)], wide := true, isl := (26, 0), dom := some (93, 1), flds := [
    { lo := 0, w := 24, acc := .live, cls := .v },
    { lo := 32, w := 24, acc := .live, cls := .v }] }

/-- APG_BIND (R336). -/
def rowApgBind : Row :=
  { reg := .apgBind, base := 0x110000, dims := [(16384, 4)], wide := true, isl := (27, 0), dom := some (89, 1), flds := [
    { lo := 0, w := 16, acc := .ro, cls := .c },
    { lo := 16, w := 1, acc := .ro, cls := .c },
    { lo := 17, w := 1, acc := .ro, cls := .c },
    { lo := 18, w := 1, acc := .live, cls := .v },
    { lo := 32, w := 32, acc := .ro, cls := .c }] }

/-- APG_XY (R337). -/
def rowApgXy : Row :=
  { reg := .apgXy, base := 0x110008, dims := [(16384, 4)], wide := true, isl := (27, 0), dom := some (89, 1), flds := [
    { lo := 0, w := 24, acc := .live, cls := .v },
    { lo := 32, w := 24, acc := .live, cls := .v }] }

/-- APG_REF (R337). -/
def rowApgRef : Row :=
  { reg := .apgRef, base := 0x110010, dims := [(16384, 4)], wide := true, isl := (27, 0), dom := some (89, 1), flds := [
    { lo := 0, w := 24, acc := .live, cls := .v },
    { lo := 32, w := 24, acc := .live, cls := .v }] }

/-- APG_DC (R338). -/
def rowApgDc : Row :=
  { reg := .apgDc, base := 0x110018, dims := [(16384, 4)], wide := true, isl := (27, 0), dom := some (89, 1), flds := [
    { lo := 0, w := 32, acc := .live, cls := .v },
    { lo := 32, w := 8, acc := .live, cls := .v }] }

/-- APG_EVT (R339). -/
def rowApgEvt : Row :=
  { reg := .apgEvt, base := 0x110020, dims := [(16384, 4)], wide := false, isl := (27, 0), dom := some (89, 1), flds := [
    { lo := 0, w := 1, acc := .w1c, cls := .c },
    { lo := 1, w := 1, acc := .w1c, cls := .c },
    { lo := 2, w := 1, acc := .w1c, cls := .c },
    { lo := 3, w := 1, acc := .w1c, cls := .c }] }

/-- CL_SLICE_MAP (R91). -/
def rowClSliceMap : Row :=
  { reg := .clSliceMap, base := 0x10100, dims := [(65536, 12)], wide := true, isl := (0, 1), dom := some (0, 5), flds := [
    { lo := 0, w := 4, acc := .live, cls := .c, n := 4, step := 16 },
    { lo := 4, w := 3, acc := .live, cls := .p, n := 4, step := 16 },
    { lo := 7, w := 1, acc := .live, cls := .p, n := 4, step := 16 },
    { lo := 8, w := 1, acc := .live, cls := .c, n := 4, step := 16 },
    { lo := 9, w := 1, acc := .live, cls := .c, n := 4, step := 16 },
    { lo := 10, w := 1, acc := .live, cls := .c, n := 4, step := 16 },
    { lo := 11, w := 1, acc := .live, cls := .v, n := 4, step := 16 }] }

/-- CL_SITE_MASK (R92). -/
def rowClSiteMask : Row :=
  { reg := .clSiteMask, base := 0x10108, dims := [(65536, 12)], wide := true, isl := (0, 1), dom := some (0, 5), flds := [
    { lo := 0, w := 16, acc := .rw, cls := .c, n := 4, step := 16 }] }

/-- CL_SEQ_CTL (R170). -/
def rowClSeqCtl : Row :=
  { reg := .clSeqCtl, base := 0x10200, dims := [(65536, 12)], wide := false, isl := (0, 1), dom := some (0, 5), flds := [
    { lo := 0, w := 4, acc := .wo, cls := .v }] }

/-- CL_SEQ_HZN (R171). -/
def rowClSeqHzn : Row :=
  { reg := .clSeqHzn, base := 0x10208, dims := [(65536, 12)], wide := true, isl := (0, 1), dom := some (0, 5), flds := [
    { lo := 0, w := 16, acc := .ro, cls := .c, n := 4, step := 16 }] }

/-- CL_SEQ_STAT (R172). -/
def rowClSeqStat : Row :=
  { reg := .clSeqStat, base := 0x10210, dims := [(65536, 12), (8, 4)], wide := true, isl := (0, 1), dom := some (0, 5), flds := [
    { lo := 0, w := 48, acc := .live, cls := .v },
    { lo := 48, w := 3, acc := .live, cls := .v },
    { lo := 51, w := 4, acc := .live, cls := .v },
    { lo := 55, w := 5, acc := .live, cls := .v },
    { lo := 60, w := 1, acc := .live, cls := .v },
    { lo := 61, w := 1, acc := .live, cls := .v }] }

/-- CL_SEQ_END (R173). -/
def rowClSeqEnd : Row :=
  { reg := .clSeqEnd, base := 0x10230, dims := [(65536, 12), (8, 4)], wide := true, isl := (0, 1), dom := some (0, 5), flds := [
    { lo := 0, w := 48, acc := .ro, cls := .c },
    { lo := 48, w := 8, acc := .ro, cls := .c },
    { lo := 56, w := 8, acc := .ro, cls := .c }] }

/-- CL_SEQ_CKPT (R174). -/
def rowClSeqCkpt : Row :=
  { reg := .clSeqCkpt, base := 0x10250, dims := [(65536, 12), (8, 4)], wide := true, isl := (0, 1), dom := some (0, 5), flds := [
    { lo := 0, w := 48, acc := .ro, cls := .c },
    { lo := 48, w := 10, acc := .ro, cls := .c },
    { lo := 63, w := 1, acc := .ro, cls := .c }] }

/-- CL_SEQ_MATCH (R175). -/
def rowClSeqMatch : Row :=
  { reg := .clSeqMatch, base := 0x10270, dims := [(65536, 12), (8, 4)], wide := true, isl := (0, 1), dom := some (0, 5), flds := [
    { lo := 0, w := 32, acc := .ro, cls := .c },
    { lo := 32, w := 24, acc := .ro, cls := .c },
    { lo := 63, w := 1, acc := .ro, cls := .c }] }

/-- CL_ADM (R220). -/
def rowClAdm : Row :=
  { reg := .clAdm, base := 0x10300, dims := [(65536, 12)], wide := true, isl := (0, 1), dom := some (0, 5), flds := [
    { lo := 0, w := 15, acc := .live, cls := .v },
    { lo := 16, w := 16, acc := .live, cls := .v },
    { lo := 32, w := 22, acc := .live, cls := .l, reset := 0x1f8000 }] }

/-- CL_DRIFT_CTL (R257). -/
def rowClDriftCtl : Row :=
  { reg := .clDriftCtl, base := 0x10400, dims := [(65536, 12)], wide := false, isl := (0, 1), dom := some (1, 5), flds := [
    { lo := 0, w := 1, acc := .rw, cls := .c },
    { lo := 1, w := 1, acc := .wo, cls := .v },
    { lo := 8, w := 8, acc := .rw, cls := .c, reset := 10, ok := some (1, 255) }] }

/-- CL_DRIFT_STAT (R258). -/
def rowClDriftStat : Row :=
  { reg := .clDriftStat, base := 0x10408, dims := [(65536, 12)], wide := true, isl := (0, 1), dom := some (1, 5), flds := [
    { lo := 0, w := 16, acc := .live, cls := .l },
    { lo := 16, w := 16, acc := .live, cls := .l },
    { lo := 32, w := 1, acc := .live, cls := .v },
    { lo := 33, w := 1, acc := .live, cls := .v },
    { lo := 34, w := 1, acc := .w1c, cls := .c }] }

/-- CL_TSET_LOADED (R259). -/
def rowClTsetLoaded : Row :=
  { reg := .clTsetLoaded, base := 0x10410, dims := [(65536, 12)], wide := true, isl := (0, 1), dom := some (1, 5), flds := [
    { lo := 0, w := 64, acc := .ro, cls := .c }] }

/-- CL_TSET_X2 (R259). -/
def rowClTsetX2 : Row :=
  { reg := .clTsetX2, base := 0x10418, dims := [(65536, 12)], wide := true, isl := (0, 1), dom := some (1, 5), flds := [
    { lo := 0, w := 64, acc := .ro, cls := .c }] }

/-- CL_TSET_X4 (R259). -/
def rowClTsetX4 : Row :=
  { reg := .clTsetX4, base := 0x10420, dims := [(65536, 12)], wide := true, isl := (0, 1), dom := some (1, 5), flds := [
    { lo := 0, w := 64, acc := .ro, cls := .c }] }

/-- CL_TIM_LAT (R260). -/
def rowClTimLat : Row :=
  { reg := .clTimLat, base := 0x10428, dims := [(65536, 12)], wide := false, isl := (0, 1), dom := some (1, 5), flds := [
    { lo := 0, w := 16, acc := .rw, cls := .p, reset := 0x5dc0 },
    { lo := 16, w := 16, acc := .rw, cls := .p, reset := 0x5dc0 }] }

/-- CL_TIM_EVT (R261). -/
def rowClTimEvt : Row :=
  { reg := .clTimEvt, base := 0x10430, dims := [(65536, 12)], wide := false, isl := (0, 1), dom := some (1, 5), flds := [
    { lo := 0, w := 1, acc := .w1c, cls := .c },
    { lo := 16, w := 16, acc := .ro, cls := .c }] }

/-- CL_CAP_CTL (R307). -/
def rowClCapCtl : Row :=
  { reg := .clCapCtl, base := 0x10500, dims := [(65536, 12)], wide := false, isl := (0, 1), dom := some (3, 5), flds := [
    { lo := 0, w := 8, acc := .rw, cls := .c, reset := 125, ok := some (64, 255) },
    { lo := 8, w := 4, acc := .rw, cls := .c, reset := 12, ok := some (12, 15) }] }

/-- CL_CAP_STAT (R308). -/
def rowClCapStat : Row :=
  { reg := .clCapStat, base := 0x10508, dims := [(65536, 12)], wide := true, isl := (0, 1), dom := some (3, 5), flds := [
    { lo := 0, w := 4, acc := .live, cls := .v },
    { lo := 8, w := 11, acc := .live, cls := .v },
    { lo := 32, w := 32, acc := .ro, cls := .c }] }

/-- CL_CMP_FAIL (R309). -/
def rowClCmpFail : Row :=
  { reg := .clCmpFail, base := 0x10520, dims := [(65536, 12), (8, 4)], wide := true, isl := (0, 1), dom := some (3, 5), flds := [
    { lo := 0, w := 48, acc := .live, cls := .c }] }

/-- CL_CMP_FIRST (R310). -/
def rowClCmpFirst : Row :=
  { reg := .clCmpFirst, base := 0x10540, dims := [(65536, 12), (8, 4)], wide := true, isl := (0, 1), dom := some (3, 5), flds := [
    { lo := 0, w := 48, acc := .ro, cls := .c },
    { lo := 63, w := 1, acc := .ro, cls := .c }] }

/-- CL_CMP_LAST (R310). -/
def rowClCmpLast : Row :=
  { reg := .clCmpLast, base := 0x10560, dims := [(65536, 12), (8, 4)], wide := true, isl := (0, 1), dom := some (3, 5), flds := [
    { lo := 0, w := 48, acc := .ro, cls := .c },
    { lo := 63, w := 1, acc := .ro, cls := .c }] }

/-- CL_CMP_EVT (R311). -/
def rowClCmpEvt : Row :=
  { reg := .clCmpEvt, base := 0x10580, dims := [(65536, 12)], wide := false, isl := (0, 1), dom := some (3, 5), flds := [
    { lo := 0, w := 1, acc := .w1c, cls := .c },
    { lo := 16, w := 16, acc := .ro, cls := .c }] }

/-- CL_CMP_CHCNT (R312). -/
def rowClCmpChcnt : Row :=
  { reg := .clCmpChcnt, base := 0x10600, dims := [(65536, 12), (4, 16)], wide := false, isl := (0, 1), dom := some (3, 5), flds := [
    { lo := 0, w := 32, acc := .live, cls := .c }] }

/-- CL_TRG_SRC (R369). -/
def rowClTrgSrc : Row :=
  { reg := .clTrgSrc, base := 0x10700, dims := [(65536, 12), (64, 8)], wide := true, isl := (0, 1), dom := some (3, 5), flds := [
    { lo := 0, w := 64, acc := .rw, cls := .c }] }

/-- CL_TRG_CTL (R370). -/
def rowClTrgCtl : Row :=
  { reg := .clTrgCtl, base := 0x10708, dims := [(65536, 12), (64, 8)], wide := true, isl := (0, 1), dom := some (3, 5), flds := [
    { lo := 0, w := 2, acc := .rw, cls := .c, ok := some (0, 2) },
    { lo := 2, w := 1, acc := .wo, cls := .v },
    { lo := 3, w := 1, acc := .rw, cls := .c },
    { lo := 4, w := 3, acc := .rw, cls := .c },
    { lo := 7, w := 1, acc := .rw, cls := .c },
    { lo := 8, w := 3, acc := .rw, cls := .c },
    { lo := 11, w := 1, acc := .rw, cls := .c },
    { lo := 12, w := 4, acc := .rw, cls := .c },
    { lo := 16, w := 2, acc := .rw, cls := .c },
    { lo := 18, w := 1, acc := .rw, cls := .c },
    { lo := 24, w := 8, acc := .rw, cls := .c, reset := 4 },
    { lo := 32, w := 16, acc := .rw, cls := .c },
    { lo := 48, w := 16, acc := .rw, cls := .c }] }

/-- CL_TRG_STAT (R371). -/
def rowClTrgStat : Row :=
  { reg := .clTrgStat, base := 0x10710, dims := [(65536, 12), (64, 8)], wide := true, isl := (0, 1), dom := some (3, 5), flds := [
    { lo := 0, w := 1, acc := .live, cls := .v },
    { lo := 1, w := 1, acc := .live, cls := .v },
    { lo := 2, w := 1, acc := .w1c, cls := .c },
    { lo := 8, w := 6, acc := .ro, cls := .c },
    { lo := 16, w := 11, acc := .ro, cls := .c },
    { lo := 32, w := 32, acc := .ro, cls := .c }] }

/-- CL_TRG_TIME (R371). -/
def rowClTrgTime : Row :=
  { reg := .clTrgTime, base := 0x10718, dims := [(65536, 12), (64, 8)], wide := true, isl := (0, 1), dom := some (3, 5), flds := [
    { lo := 0, w := 64, acc := .ro, cls := .c }] }

/-- CL_TRG_MASK (R371). -/
def rowClTrgMask : Row :=
  { reg := .clTrgMask, base := 0x10720, dims := [(65536, 12), (64, 8)], wide := true, isl := (0, 1), dom := some (3, 5), flds := [
    { lo := 0, w := 64, acc := .ro, cls := .c }] }

/-- CL_TRG_VEC (R371). -/
def rowClTrgVec : Row :=
  { reg := .clTrgVec, base := 0x10728, dims := [(65536, 12), (64, 8)], wide := true, isl := (0, 1), dom := some (3, 5), flds := [
    { lo := 0, w := 48, acc := .ro, cls := .c }] }

/-- CL_ADC_CFG (R372). -/
def rowClAdcCfg : Row :=
  { reg := .clAdcCfg, base := 0x10900, dims := [(65536, 12)], wide := true, isl := (0, 1), dom := some (4, 5), flds := [
    { lo := 0, w := 1, acc := .rw, cls := .c },
    { lo := 1, w := 1, acc := .rw, cls := .c },
    { lo := 2, w := 1, acc := .wo, cls := .v },
    { lo := 8, w := 16, acc := .rw, cls := .p },
    { lo := 32, w := 16, acc := .rw, cls := .c, reset := 0xa5c3 }] }

/-- CL_ADC_STAT (R372). -/
def rowClAdcStat : Row :=
  { reg := .clAdcStat, base := 0x10908, dims := [(65536, 12)], wide := true, isl := (0, 1), dom := some (4, 5), flds := [
    { lo := 0, w := 1, acc := .live, cls := .v },
    { lo := 1, w := 1, acc := .live, cls := .v },
    { lo := 2, w := 1, acc := .w1c, cls := .c },
    { lo := 3, w := 1, acc := .w1c, cls := .c },
    { lo := 4, w := 1, acc := .w1c, cls := .c },
    { lo := 5, w := 1, acc := .w1c, cls := .c },
    { lo := 8, w := 5, acc := .ro, cls := .c },
    { lo := 16, w := 5, acc := .ro, cls := .c },
    { lo := 32, w := 32, acc := .live, cls := .v }] }

/-- CL_TRIGIN_CFG (R373). -/
def rowClTriginCfg : Row :=
  { reg := .clTriginCfg, base := 0x10910, dims := [(65536, 12)], wide := false, isl := (0, 1), dom := some (4, 5), flds := [
    { lo := 0, w := 4, acc := .rw, cls := .c },
    { lo := 4, w := 4, acc := .rw, cls := .c }] }

/-- CL_TRIGIN_DSK (R373). -/
def rowClTriginDsk : Row :=
  { reg := .clTriginDsk, base := 0x10918, dims := [(65536, 12)], wide := true, isl := (0, 1), dom := some (4, 5), flds := [
    { lo := 0, w := 16, acc := .rw, cls := .p, n := 4, step := 16 }] }

/-- CL_IMTR_CTL (R395). -/
def rowClImtrCtl : Row :=
  { reg := .clImtrCtl, base := 0x10a00, dims := [(65536, 12), (64, 4)], wide := false, isl := (0, 1), dom := some (1, 5), flds := [
    { lo := 0, w := 1, acc := .wo, cls := .v }] }

/-- CL_IMTR_STAT (R396). -/
def rowClImtrStat : Row :=
  { reg := .clImtrStat, base := 0x10a08, dims := [(65536, 12), (64, 4)], wide := true, isl := (0, 1), dom := some (1, 5), flds := [
    { lo := 0, w := 2, acc := .live, cls := .v },
    { lo := 2, w := 1, acc := .w1c, cls := .c },
    { lo := 3, w := 1, acc := .ro, cls := .p },
    { lo := 16, w := 16, acc := .ro, cls := .c },
    { lo := 32, w := 8, acc := .ro, cls := .c },
    { lo := 40, w := 8, acc := .ro, cls := .c },
    { lo := 48, w := 16, acc := .live, cls := .c }] }

/-- CL_IMTR_RES (R397). -/
def rowClImtrRes : Row :=
  { reg := .clImtrRes, base := 0x10a10, dims := [(65536, 12), (64, 4)], wide := true, isl := (0, 1), dom := some (1, 5), flds := [
    { lo := 0, w := 64, acc := .ro, cls := .c }] }

/-- CL_IMTR_TSTART (R397). -/
def rowClImtrTstart : Row :=
  { reg := .clImtrTstart, base := 0x10a18, dims := [(65536, 12), (64, 4)], wide := true, isl := (0, 1), dom := some (1, 5), flds := [
    { lo := 0, w := 64, acc := .ro, cls := .c }] }

/-- CL_IMTR_TSTOP (R397). -/
def rowClImtrTstop : Row :=
  { reg := .clImtrTstop, base := 0x10a20, dims := [(65536, 12), (64, 4)], wide := true, isl := (0, 1), dom := some (1, 5), flds := [
    { lo := 0, w := 64, acc := .ro, cls := .c }] }

/-- CL_IMTR_COUNT (R398). -/
def rowClImtrCount : Row :=
  { reg := .clImtrCount, base := 0x10a28, dims := [(65536, 12), (64, 4)], wide := true, isl := (0, 1), dom := some (1, 5), flds := [
    { lo := 0, w := 32, acc := .ro, cls := .c },
    { lo := 32, w := 32, acc := .ro, cls := .c }] }

/-- CL_PE_CFG (R448). -/
def rowClPeCfg : Row :=
  { reg := .clPeCfg, base := 0x10b00, dims := [(65536, 12)], wide := false, isl := (0, 1), dom := some (4, 5), flds := [
    { lo := 0, w := 1, acc := .rw, cls := .c },
    { lo := 8, w := 8, acc := .rw, cls := .p, reset := 50, ok := some (5, 255) }] }

/-- CL_PE_STAT (R449). -/
def rowClPeStat : Row :=
  { reg := .clPeStat, base := 0x10b08, dims := [(65536, 12)], wide := true, isl := (0, 1), dom := some (4, 5), flds := [
    { lo := 0, w := 1, acc := .live, cls := .v },
    { lo := 1, w := 1, acc := .live, cls := .v },
    { lo := 16, w := 5, acc := .live, cls := .v },
    { lo := 32, w := 32, acc := .ro, cls := .c }] }

/-- CL_DSK (R262). -/
def rowClDsk : Row :=
  { reg := .clDsk, base := 0x11000, dims := [(65536, 12), (16, 16)], wide := true, isl := (0, 1), dom := some (1, 5), flds := [
    { lo := 0, w := 15, acc := .rw, cls := .p },
    { lo := 16, w := 15, acc := .rw, cls := .p },
    { lo := 32, w := 15, acc := .rw, cls := .p },
    { lo := 48, w := 15, acc := .rw, cls := .p }] }

/-- CL_DSK2 (R263). -/
def rowClDsk2 : Row :=
  { reg := .clDsk2, base := 0x11008, dims := [(65536, 12), (16, 16)], wide := true, isl := (0, 1), dom := some (1, 5), flds := [
    { lo := 0, w := 8, acc := .rw, cls := .p },
    { lo := 16, w := 4, acc := .ro, cls := .p },
    { lo := 32, w := 16, acc := .ro, cls := .p }] }

/-- CL_IMCAL (R399). -/
def rowClImcal : Row :=
  { reg := .clImcal, base := 0x12000, dims := [(65536, 12), (512, 4), (8, 32)], wide := true, isl := (0, 1), dom := some (1, 5), flds := [
    { lo := 0, w := 12, acc := .ro, cls := .a, n := 4, step := 16 }] }

/-- CL_IMCAL_INFO (R399). -/
def rowClImcalInfo : Row :=
  { reg := .clImcalInfo, base := 0x12100, dims := [(65536, 12), (512, 4)], wide := true, isl := (0, 1), dom := some (1, 5), flds := [
    { lo := 0, w := 16, acc := .ro, cls := .a },
    { lo := 16, w := 8, acc := .ro, cls := .a },
    { lo := 32, w := 16, acc := .ro, cls := .a }] }

/-- Part 0 of the register map. -/
def regRows0 : List Row :=
  [rowCapsFixed, rowCapsLive, rowRstCtl, rowRstBlock, rowRstStat, rowPwrDomCtl, rowPwrDomStat, rowPwrEvt, rowLullCtl, rowLullStat, rowLullWakeAt, rowWsTemp, rowWsRail, rowWsProc, rowWsCtl, rowWsTempThr, rowWsVstat, rowWsTstat, rowWsRailThr, rowFltCtl, rowFltStat, rowFltLive, rowFltTrap, rowBallastCtl]

/-- Part 1 of the register map. -/
def regRows1 : List Row :=
  [rowBallastStat, rowBallastT, rowFltReact, rowFltCnt, rowFltInjCtl, rowFltInjAddr, rowFltInjStat, rowIslFlt, rowIslFltT, rowFltRec, rowRingBase, rowRingkCfg, rowRingPtr, rowRingkStat, rowRingIrq, rowRingCtl, rowRingCount, rowHostStat, rowHostCtl, rowHostErr, rowHostEvtDropped, rowPaddockCtl, rowPaddockStat, rowPaddockLevel]

/-- Part 2 of the register map. -/
def regRows2 : List Row :=
  [rowPaddockWarden, rowPaddockSlotmap, rowLock, rowFcSlotStat, rowFcSteps, rowMcStat, rowMcArbPrio, rowMcArbLimit, rowMcArbStat, rowMcRefStat, rowMcEccCtl, rowMcEccStat, rowMcMaintCtl, rowMcPprCtl, rowMcPprStat, rowMcLog2, rowMcLog, rowAdmCtl, rowAdmStat, rowAdmCh, rowRingCfg, rowRingStat, rowPlCtl, rowPlStat]

/-- Part 3 of the register map. -/
def regRows3 : List Row :=
  [rowPlLane, rowPlEqp, rowPlEqa, rowPlLinkcnt, rowPlTime, rowPlAsym, rowPairCtl, rowPairStat, rowTetherStat, rowTetherMirrorT, rowTetherUnprot, rowBootStatus, rowBootInfo, rowBootBuild, rowBootMinver, rowUcPatch, rowUcRomid, rowBootKeys, rowDtime, rowDtimeStat, rowCalsec, rowCalSet, rowCalEpochDtime, rowClkStat]

/-- Part 4 of the register map. -/
def regRows4 : List Row :=
  [rowLifeCtl, rowLifeStat, rowLifePoh, rowUcMatch, rowFeCapCtl, rowFeMmCtl, rowFeCapStat, rowFchainCtl, rowFchainThr, rowFchainStat, rowFchainOut, rowApgBind, rowApgXy, rowApgRef, rowApgDc, rowApgEvt, rowClSliceMap, rowClSiteMask, rowClSeqCtl, rowClSeqHzn, rowClSeqStat, rowClSeqEnd, rowClSeqCkpt, rowClSeqMatch]

/-- Part 5 of the register map. -/
def regRows5 : List Row :=
  [rowClAdm, rowClDriftCtl, rowClDriftStat, rowClTsetLoaded, rowClTsetX2, rowClTsetX4, rowClTimLat, rowClTimEvt, rowClCapCtl, rowClCapStat, rowClCmpFail, rowClCmpFirst, rowClCmpLast, rowClCmpEvt, rowClCmpChcnt, rowClTrgSrc, rowClTrgCtl, rowClTrgStat, rowClTrgTime, rowClTrgMask, rowClTrgVec, rowClAdcCfg, rowClAdcStat, rowClTriginCfg]

/-- Part 6 of the register map. -/
def regRows6 : List Row :=
  [rowClTriginDsk, rowClImtrCtl, rowClImtrStat, rowClImtrRes, rowClImtrTstart, rowClImtrTstop, rowClImtrCount, rowClPeCfg, rowClPeStat, rowClDsk, rowClDsk2, rowClImcal, rowClImcalInfo]

/-- The register map (R725). -/
def regRows : List Row := regRows0 ++ regRows1 ++ regRows2 ++ regRows3 ++ regRows4 ++ regRows5 ++ regRows6

/-! The fields by name: REGISTER_FIELD. -/

namespace F

def CAPS_FIXED_VARIANT : RF := ⟨.capsFixed, 0x10, [], 0, 4, 0⟩
def CAPS_FIXED_SILICON_REV : RF := ⟨.capsFixed, 0x10, [], 4, 4, 0⟩
def CAPS_FIXED_NCLUSTER : RF := ⟨.capsFixed, 0x10, [], 8, 4, 0⟩
def CAPS_FIXED_NAPG : RF := ⟨.capsFixed, 0x10, [], 12, 3, 0⟩
def CAPS_FIXED_NIMETER : RF := ⟨.capsFixed, 0x10, [], 16, 6, 0⟩
def CAPS_FIXED_NFCHAIN : RF := ⟨.capsFixed, 0x10, [], 22, 5, 0⟩
def CAPS_FIXED_TETHER : RF := ⟨.capsFixed, 0x10, [], 27, 1, 0⟩
def CAPS_FIXED_FCOLL : RF := ⟨.capsFixed, 0x10, [], 28, 1, 0⟩
def CAPS_FIXED_NMEMCH : RF := ⟨.capsFixed, 0x10, [], 32, 4, 0⟩
def CAPS_FIXED_NFCORE : RF := ⟨.capsFixed, 0x10, [], 36, 5, 0⟩
def CAPS_FIXED_NFSPARE : RF := ⟨.capsFixed, 0x10, [], 41, 2, 0⟩
def CAPS_FIXED_LINKMAP : RF := ⟨.capsFixed, 0x10, [], 44, 4, 0⟩
def CAPS_LIVE_CL_LIVE : RF := ⟨.capsLive, 0x18, [], 0, 12, 0⟩
def CAPS_LIVE_LIVE_SLICES : RF := ⟨.capsLive, 0x18, [], 12, 6, 0⟩
def CAPS_LIVE_LIVE_FCORES : RF := ⟨.capsLive, 0x18, [], 18, 5, 0⟩
def CAPS_LIVE_FSPARE_LEFT : RF := ⟨.capsLive, 0x18, [], 23, 2, 0⟩
def CAPS_LIVE_APG_LIVE : RF := ⟨.capsLive, 0x18, [], 25, 4, 0⟩
def CAPS_LIVE_LINK_LIVE : RF := ⟨.capsLive, 0x18, [], 32, 4, 0⟩
def CAPS_LIVE_MC_LIVE : RF := ⟨.capsLive, 0x18, [], 36, 8, 0⟩
def CAPS_LIVE_TETHER_LIVE : RF := ⟨.capsLive, 0x18, [], 44, 1, 0⟩
def CAPS_LIVE_LIVE_IMETERS : RF := ⟨.capsLive, 0x18, [], 45, 6, 0⟩
def CAPS_LIVE_LIVE_FCHAINS : RF := ⟨.capsLive, 0x18, [], 51, 5, 0⟩
def CAPS_LIVE_DEGRADED : RF := ⟨.capsLive, 0x18, [], 56, 1, 0⟩
def RST_CTL_GO : RF := ⟨.rstCtl, 0x1000, [], 0, 1, 0⟩
def RST_CTL_KEY : RF := ⟨.rstCtl, 0x1000, [], 8, 8, 0⟩
def RST_BLOCK_ISLAND : RF := ⟨.rstBlock, 0x1008, [], 0, 5, 0⟩
def RST_BLOCK_CORE : RF := ⟨.rstBlock, 0x1008, [], 5, 1, 0⟩
def RST_BLOCK_CORE_NUM : RF := ⟨.rstBlock, 0x1008, [], 6, 5, 0⟩
def RST_BLOCK_GO : RF := ⟨.rstBlock, 0x1008, [], 31, 1, 0⟩
def RST_STAT_BUSY : RF := ⟨.rstStat, 0x1010, [], 0, 1, 0⟩
def RST_STAT_REJECT : RF := ⟨.rstStat, 0x1010, [], 1, 1, 0⟩
def RST_STAT_C_LOOP : RF := ⟨.rstStat, 0x1010, [], 2, 3, 0⟩
def RST_STAT_CHIP_COUNT : RF := ⟨.rstStat, 0x1010, [], 16, 16, 0⟩
def RST_STAT_PIN_COUNT : RF := ⟨.rstStat, 0x1010, [], 32, 16, 0⟩
def RST_STAT_BLOCK_COUNT : RF := ⟨.rstStat, 0x1010, [], 48, 16, 0⟩
def PWR_DOM_CTL_ON : RF := ⟨.pwrDomCtl, 0x1100, [8], 0, 64, 0⟩
def PWR_DOM_STAT_IS_ON : RF := ⟨.pwrDomStat, 0x1110, [8], 0, 64, 0⟩
def PWR_EVT_BUSY : RF := ⟨.pwrEvt, 0x1120, [], 0, 1, 0⟩
def PWR_EVT_ORDER : RF := ⟨.pwrEvt, 0x1120, [], 1, 1, 0⟩
def PWR_EVT_FIXED : RF := ⟨.pwrEvt, 0x1120, [], 2, 1, 0⟩
def PWR_EVT_LAST : RF := ⟨.pwrEvt, 0x1120, [], 8, 7, 0⟩
def LULL_CTL_WAKE : RF := ⟨.lullCtl, 0x1200, [], 0, 1, 0⟩
def LULL_CTL_WAKE_TRIG : RF := ⟨.lullCtl, 0x1200, [], 1, 4, 0⟩
def LULL_CTL_WAKE_LINK : RF := ⟨.lullCtl, 0x1200, [], 5, 4, 0⟩
def LULL_CTL_WAKE_TIMER : RF := ⟨.lullCtl, 0x1200, [], 9, 1, 0⟩
def LULL_STAT_STATE : RF := ⟨.lullStat, 0x1208, [], 0, 2, 0⟩
def LULL_STAT_REFUSE : RF := ⟨.lullStat, 0x1208, [], 2, 3, 0⟩
def LULL_STAT_WAKE_SRC : RF := ⟨.lullStat, 0x1208, [], 8, 4, 0⟩
def LULL_STAT_ACC : RF := ⟨.lullStat, 0x1208, [], 12, 1, 0⟩
def LULL_STAT_ENTRIES : RF := ⟨.lullStat, 0x1208, [], 32, 32, 0⟩
def LULL_WAKE_AT_DTIME : RF := ⟨.lullWakeAt, 0x1210, [], 0, 64, 0⟩
def WS_TEMP_TEMP : RF := ⟨.wsTemp, 0x2000, [8], 0, 16, 16⟩
def WS_RAIL_MV : RF := ⟨.wsRail, 0x2040, [8], 0, 16, 16⟩
def WS_PROC_FREQ : RF := ⟨.wsProc, 0x2060, [8], 0, 16, 16⟩
def WS_CTL_HOLD_US : RF := ⟨.wsCtl, 0x2080, [], 0, 16, 0⟩
def WS_CTL_GLITCH_NS : RF := ⟨.wsCtl, 0x2080, [], 16, 10, 0⟩
def WS_TEMP_THR_WARN : RF := ⟨.wsTempThr, 0x2088, [], 0, 16, 0⟩
def WS_TEMP_THR_CRIT : RF := ⟨.wsTempThr, 0x2088, [], 16, 16, 0⟩
def WS_VSTAT_VWARN : RF := ⟨.wsVstat, 0x2090, [], 0, 14, 0⟩
def WS_VSTAT_BELOW : RF := ⟨.wsVstat, 0x2090, [], 16, 14, 0⟩
def WS_VSTAT_PAUSE : RF := ⟨.wsVstat, 0x2090, [], 30, 1, 0⟩
def WS_VSTAT_DIPS : RF := ⟨.wsVstat, 0x2090, [], 32, 32, 0⟩
def WS_TSTAT_TWARN : RF := ⟨.wsTstat, 0x2098, [], 0, 26, 0⟩
def WS_TSTAT_HOT_IDX : RF := ⟨.wsTstat, 0x2098, [], 32, 5, 0⟩
def WS_TSTAT_HOT_TEMP : RF := ⟨.wsTstat, 0x2098, [], 48, 16, 0⟩
def WS_RAIL_THR_WARN_LO : RF := ⟨.wsRailThr, 0x2100, [8], 0, 16, 0⟩
def WS_RAIL_THR_RESET_LO : RF := ⟨.wsRailThr, 0x2100, [8], 16, 16, 0⟩
def WS_RAIL_THR_WARN_HI : RF := ⟨.wsRailThr, 0x2100, [8], 32, 16, 0⟩
def FLT_CTL_FLTN_FORCE : RF := ⟨.fltCtl, 0x3000, [], 0, 1, 0⟩
def FLT_STAT_STAT : RF := ⟨.fltStat, 0x3008, [], 0, 64, 0⟩
def FLT_LIVE_LIVE : RF := ⟨.fltLive, 0x3010, [], 0, 64, 0⟩
def FLT_TRAP_TRAP : RF := ⟨.fltTrap, 0x3018, [], 0, 64, 0⟩
def BALLAST_CTL_ENGAGE : RF := ⟨.ballastCtl, 0x3040, [], 0, 1, 0⟩
def BALLAST_CTL_PWR_FIRST : RF := ⟨.ballastCtl, 0x3040, [], 1, 1, 0⟩
def BALLAST_STAT_ENGAGED : RF := ⟨.ballastStat, 0x3048, [], 0, 1, 0⟩
def BALLAST_STAT_DONE : RF := ⟨.ballastStat, 0x3048, [], 1, 1, 0⟩
def BALLAST_STAT_INJ : RF := ⟨.ballastStat, 0x3048, [], 2, 1, 0⟩
def BALLAST_STAT_CAUSE : RF := ⟨.ballastStat, 0x3048, [], 8, 6, 0⟩
def BALLAST_STAT_FRAMES_SENT : RF := ⟨.ballastStat, 0x3048, [], 16, 12, 0⟩
def BALLAST_STAT_ENGAGES : RF := ⟨.ballastStat, 0x3048, [], 32, 32, 0⟩
def BALLAST_T_DTIME : RF := ⟨.ballastT, 0x3050, [], 0, 64, 0⟩
def FLT_REACT_REACT : RF := ⟨.fltReact, 0x3100, [8], 0, 6, 8⟩
def FLT_CNT_COUNT : RF := ⟨.fltCnt, 0x3200, [4], 0, 32, 0⟩
def FLT_INJ_CTL_SRC : RF := ⟨.fltInjCtl, 0x3400, [], 0, 6, 0⟩
def FLT_INJ_CTL_CANCEL : RF := ⟨.fltInjCtl, 0x3400, [], 6, 1, 0⟩
def FLT_INJ_CTL_GO : RF := ⟨.fltInjCtl, 0x3400, [], 7, 1, 0⟩
def FLT_INJ_CTL_ISLAND : RF := ⟨.fltInjCtl, 0x3400, [], 8, 5, 0⟩
def FLT_INJ_CTL_UNIT : RF := ⟨.fltInjCtl, 0x3400, [], 16, 8, 0⟩
def FLT_INJ_CTL_RMASK : RF := ⟨.fltInjCtl, 0x3400, [], 24, 6, 0⟩
def FLT_INJ_CTL_ADDR_MODE : RF := ⟨.fltInjCtl, 0x3400, [], 32, 1, 0⟩
def FLT_INJ_ADDR_ADDR : RF := ⟨.fltInjAddr, 0x3408, [], 0, 40, 0⟩
def FLT_INJ_STAT_PENDING : RF := ⟨.fltInjStat, 0x3410, [], 0, 1, 0⟩
def FLT_INJ_STAT_REJECT : RF := ⟨.fltInjStat, 0x3410, [], 1, 1, 0⟩
def FLT_INJ_STAT_COUNT : RF := ⟨.fltInjStat, 0x3410, [], 32, 32, 0⟩
def ISL_FLT_EVT : RF := ⟨.islFlt, 0x3600, [16], 0, 1, 0⟩
def ISL_FLT_LIVE : RF := ⟨.islFlt, 0x3600, [16], 1, 1, 0⟩
def ISL_FLT_SRC : RF := ⟨.islFlt, 0x3600, [16], 2, 6, 0⟩
def ISL_FLT_UNIT : RF := ⟨.islFlt, 0x3600, [16], 8, 8, 0⟩
def ISL_FLT_DETAIL : RF := ⟨.islFlt, 0x3600, [16], 16, 8, 0⟩
def ISL_FLT_COUNT : RF := ⟨.islFlt, 0x3600, [16], 32, 32, 0⟩
def ISL_FLT_T_DTIME : RF := ⟨.islFltT, 0x3608, [16], 0, 64, 0⟩
def FLT_REC_REC : RF := ⟨.fltRec, 0x3800, [32, 8], 0, 64, 0⟩
def RING_BASE_ADDR : RF := ⟨.ringBase, 0x4000, [64], 12, 52, 0⟩
def RINGK_CFG_EN : RF := ⟨.ringkCfg, 0x4008, [64], 0, 1, 0⟩
def RINGK_CFG_SIZE_LOG2 : RF := ⟨.ringkCfg, 0x4008, [64], 1, 5, 0⟩
def RINGK_CFG_PRIO : RF := ⟨.ringkCfg, 0x4008, [64], 8, 3, 0⟩
def RINGK_CFG_CQ : RF := ⟨.ringkCfg, 0x4008, [64], 16, 4, 0⟩
def RINGK_CFG_VEC : RF := ⟨.ringkCfg, 0x4008, [64], 24, 6, 0⟩
def RINGK_CFG_IRQ_EN : RF := ⟨.ringkCfg, 0x4008, [64], 30, 1, 0⟩
def RINGK_CFG_EVT_MASK : RF := ⟨.ringkCfg, 0x4008, [64], 32, 32, 0⟩
def RING_PTR_HEAD : RF := ⟨.ringPtr, 0x4010, [64], 0, 16, 0⟩
def RING_PTR_TAIL : RF := ⟨.ringPtr, 0x4010, [64], 16, 16, 0⟩
def RING_PTR_PHASE : RF := ⟨.ringPtr, 0x4010, [64], 32, 1, 0⟩
def RINGK_STAT_IDLE : RF := ⟨.ringkStat, 0x4018, [64], 0, 1, 0⟩
def RINGK_STAT_ERR : RF := ⟨.ringkStat, 0x4018, [64], 1, 1, 0⟩
def RINGK_STAT_CAUSE : RF := ⟨.ringkStat, 0x4018, [64], 4, 4, 0⟩
def RINGK_STAT_INFLIGHT : RF := ⟨.ringkStat, 0x4018, [64], 32, 17, 0⟩
def RING_IRQ_COUNT_TH : RF := ⟨.ringIrq, 0x4020, [64], 0, 16, 0⟩
def RING_IRQ_TIME_US : RF := ⟨.ringIrq, 0x4020, [64], 16, 16, 0⟩
def RING_CTL_RESET : RF := ⟨.ringCtl, 0x4028, [64], 0, 1, 0⟩
def RING_COUNT_ENTRIES : RF := ⟨.ringCount, 0x4030, [64], 0, 64, 0⟩
def HOST_STAT_READY : RF := ⟨.hostStat, 0x5000, [], 0, 1, 0⟩
def HOST_STAT_LINK_UP : RF := ⟨.hostStat, 0x5000, [], 1, 1, 0⟩
def HOST_STAT_SPEED : RF := ⟨.hostStat, 0x5000, [], 2, 3, 0⟩
def HOST_STAT_WIDTH : RF := ⟨.hostStat, 0x5000, [], 5, 3, 0⟩
def HOST_STAT_L1 : RF := ⟨.hostStat, 0x5000, [], 8, 1, 0⟩
def HOST_STAT_INFLIGHT : RF := ⟨.hostStat, 0x5000, [], 32, 17, 0⟩
def HOST_STAT_EVQ_LEVEL : RF := ⟨.hostStat, 0x5000, [], 49, 11, 0⟩
def HOST_CTL_INFLIGHT_MAX : RF := ⟨.hostCtl, 0x5008, [], 0, 17, 0⟩
def HOST_CTL_ERR_IRQ : RF := ⟨.hostCtl, 0x5008, [], 17, 1, 0⟩
def HOST_CTL_AGE_US : RF := ⟨.hostCtl, 0x5008, [], 24, 8, 0⟩
def HOST_ERR_RING : RF := ⟨.hostErr, 0x5010, [], 0, 1, 0⟩
def HOST_ERR_DB_IGNORED : RF := ⟨.hostErr, 0x5010, [], 1, 1, 0⟩
def HOST_ERR_DMA_RD : RF := ⟨.hostErr, 0x5010, [], 2, 1, 0⟩
def HOST_ERR_DMA_WR : RF := ⟨.hostErr, 0x5010, [], 3, 1, 0⟩
def HOST_ERR_CFG_BAD : RF := ⟨.hostErr, 0x5010, [], 4, 1, 0⟩
def HOST_ERR_EVT_DROP : RF := ⟨.hostErr, 0x5010, [], 5, 1, 0⟩
def HOST_ERR_LAST_RING : RF := ⟨.hostErr, 0x5010, [], 32, 6, 0⟩
def HOST_EVT_DROPPED_COUNT : RF := ⟨.hostEvtDropped, 0x5018, [], 0, 32, 0⟩
def PADDOCK_CTL_QUANTUM : RF := ⟨.paddockCtl, 0x8000, [], 0, 8, 0⟩
def PADDOCK_STAT_TASKS : RF := ⟨.paddockStat, 0x8008, [], 0, 13, 0⟩
def PADDOCK_STAT_READY : RF := ⟨.paddockStat, 0x8008, [], 13, 13, 0⟩
def PADDOCK_STAT_RUNNING : RF := ⟨.paddockStat, 0x8008, [], 26, 5, 0⟩
def PADDOCK_STAT_READY7 : RF := ⟨.paddockStat, 0x8008, [], 32, 13, 0⟩
def PADDOCK_STAT_OVER7 : RF := ⟨.paddockStat, 0x8008, [], 45, 1, 0⟩
def PADDOCK_LEVEL_READY_P : RF := ⟨.paddockLevel, 0x8010, [], 0, 8, 8⟩
def PADDOCK_WARDEN_TASK_ID : RF := ⟨.paddockWarden, 0x8018, [], 0, 12, 0⟩
def PADDOCK_WARDEN_VALID : RF := ⟨.paddockWarden, 0x8018, [], 16, 1, 0⟩
def PADDOCK_WARDEN_SLOT : RF := ⟨.paddockWarden, 0x8018, [], 20, 4, 0⟩
def PADDOCK_SLOTMAP_PHYS : RF := ⟨.paddockSlotmap, 0x8020, [8], 0, 5, 8⟩
def PADDOCK_SLOTMAP_RETIRED : RF := ⟨.paddockSlotmap, 0x8020, [8], 5, 1, 8⟩
def LOCK_OWNER_TASK : RF := ⟨.lock, 0x8100, [8], 0, 12, 0⟩
def LOCK_OWNER_RING : RF := ⟨.lock, 0x8100, [8], 12, 6, 0⟩
def LOCK_HELD : RF := ⟨.lock, 0x8100, [8], 18, 1, 0⟩
def LOCK_HOST : RF := ⟨.lock, 0x8100, [8], 19, 1, 0⟩
def LOCK_ABANDONED : RF := ⟨.lock, 0x8100, [8], 20, 1, 0⟩
def LOCK_WAITERS : RF := ⟨.lock, 0x8100, [8], 32, 13, 0⟩
def FC_SLOT_STAT_SLOT : RF := ⟨.fcSlotStat, 0x8400, [16], 0, 4, 0⟩
def FC_SLOT_STAT_ACTIVE : RF := ⟨.fcSlotStat, 0x8400, [16], 4, 1, 0⟩
def FC_SLOT_STAT_SPARE : RF := ⟨.fcSlotStat, 0x8400, [16], 5, 1, 0⟩
def FC_SLOT_STAT_FAILED : RF := ⟨.fcSlotStat, 0x8400, [16], 6, 1, 0⟩
def FC_SLOT_STAT_RUN_TASK : RF := ⟨.fcSlotStat, 0x8400, [16], 8, 12, 0⟩
def FC_SLOT_STAT_RUNNING : RF := ⟨.fcSlotStat, 0x8400, [16], 20, 1, 0⟩
def FC_SLOT_STAT_SLOT_TASK : RF := ⟨.fcSlotStat, 0x8400, [16], 32, 12, 0⟩
def FC_SLOT_STAT_SLOTTED : RF := ⟨.fcSlotStat, 0x8400, [16], 44, 1, 0⟩
def FC_STEPS_STEPS : RF := ⟨.fcSteps, 0x8408, [16], 0, 64, 0⟩
def MC_STAT_TRAINED : RF := ⟨.mcStat, 0x9000, [1024], 0, 1, 0⟩
def MC_STAT_RATE : RF := ⟨.mcStat, 0x9000, [1024], 1, 2, 0⟩
def MC_STAT_CAP : RF := ⟨.mcStat, 0x9000, [1024], 3, 2, 0⟩
def MC_STAT_SELFREF : RF := ⟨.mcStat, 0x9000, [1024], 5, 1, 0⟩
def MC_STAT_MULT : RF := ⟨.mcStat, 0x9000, [1024], 6, 2, 0⟩
def MC_STAT_HOT : RF := ⟨.mcStat, 0x9000, [1024], 8, 1, 0⟩
def MC_STAT_REPAIR : RF := ⟨.mcStat, 0x9000, [1024], 9, 1, 0⟩
def MC_ARB_PRIO_BASE : RF := ⟨.mcArbPrio, 0x9008, [1024], 0, 4, 8⟩
def MC_ARB_PRIO_CEIL : RF := ⟨.mcArbPrio, 0x9008, [1024], 4, 4, 8⟩
def MC_ARB_LIMIT_LIMIT : RF := ⟨.mcArbLimit, 0x9010, [1024], 0, 8, 8⟩
def MC_ARB_STAT_RT_WAIT_MAX : RF := ⟨.mcArbStat, 0x9018, [1024], 0, 16, 0⟩
def MC_ARB_STAT_FORCED : RF := ⟨.mcArbStat, 0x9018, [1024], 32, 32, 0⟩
def MC_REF_STAT_OWED : RF := ⟨.mcRefStat, 0x9020, [1024], 0, 5, 0⟩
def MC_REF_STAT_NEXT_BANK : RF := ⟨.mcRefStat, 0x9020, [1024], 5, 4, 0⟩
def MC_REF_STAT_FORCED_REF : RF := ⟨.mcRefStat, 0x9020, [1024], 32, 32, 0⟩
def MC_ECC_CTL_LOG_CE : RF := ⟨.mcEccCtl, 0x9028, [1024], 0, 1, 0⟩
def MC_ECC_CTL_CE_THRESH : RF := ⟨.mcEccCtl, 0x9028, [1024], 8, 8, 0⟩
def MC_ECC_CTL_SCRUB_EN : RF := ⟨.mcEccCtl, 0x9028, [1024], 16, 1, 0⟩
def MC_ECC_CTL_SCRUB_H : RF := ⟨.mcEccCtl, 0x9028, [1024], 24, 8, 0⟩
def MC_ECC_STAT_CE : RF := ⟨.mcEccStat, 0x9030, [1024], 0, 32, 0⟩
def MC_ECC_STAT_UE : RF := ⟨.mcEccStat, 0x9030, [1024], 32, 16, 0⟩
def MC_ECC_STAT_LOG_LOST : RF := ⟨.mcEccStat, 0x9030, [1024], 48, 8, 0⟩
def MC_MAINT_CTL_OSC_US : RF := ⟨.mcMaintCtl, 0x9038, [1024], 0, 16, 0⟩
def MC_PPR_CTL_MODE : RF := ⟨.mcPprCtl, 0x9040, [1024], 0, 2, 0⟩
def MC_PPR_CTL_RUN : RF := ⟨.mcPprCtl, 0x9040, [1024], 2, 1, 0⟩
def MC_PPR_STAT_AVAIL : RF := ⟨.mcPprStat, 0x9048, [1024], 0, 5, 0⟩
def MC_PPR_STAT_USED : RF := ⟨.mcPprStat, 0x9048, [1024], 5, 5, 0⟩
def MC_PPR_STAT_PENDING : RF := ⟨.mcPprStat, 0x9048, [1024], 10, 5, 0⟩
def MC_PPR_STAT_FENCED : RF := ⟨.mcPprStat, 0x9048, [1024], 16, 7, 0⟩
def MC_LOG_2_ENTRY : RF := ⟨.mcLog2, 0x9110, [1024, 32], 0, 56, 0⟩
def MC_LOG_2_VALID : RF := ⟨.mcLog2, 0x9110, [1024, 32], 56, 1, 0⟩
def MC_LOG_2_LFLAGS : RF := ⟨.mcLog2, 0x9110, [1024, 32], 57, 7, 0⟩
def MC_LOG_ENTRY : RF := ⟨.mcLog, 0x9100, [1024, 32, 8], 0, 64, 0⟩
def ADM_CTL_CEIL_PCT : RF := ⟨.admCtl, 0xb000, [], 0, 7, 0⟩
def ADM_CTL_AGE_LIMIT : RF := ⟨.admCtl, 0xb000, [], 8, 16, 0⟩
def ADM_CTL_XHOLD : RF := ⟨.admCtl, 0xb000, [], 24, 8, 0⟩
def ADM_STAT_QUEUED : RF := ⟨.admStat, 0xb008, [], 0, 13, 0⟩
def ADM_STAT_ADMITTED : RF := ⟨.admStat, 0xb008, [], 13, 6, 0⟩
def ADM_STAT_PAUSE_SUPPLY : RF := ⟨.admStat, 0xb008, [], 19, 1, 0⟩
def ADM_STAT_PAUSE_TREF : RF := ⟨.admStat, 0xb008, [], 20, 1, 0⟩
def ADM_STAT_DENIED : RF := ⟨.admStat, 0xb008, [], 32, 32, 0⟩
def ADM_CH_ADMITTED_MBPS : RF := ⟨.admCh, 0xb040, [8], 0, 16, 0⟩
def ADM_CH_LIMIT_MBPS : RF := ⟨.admCh, 0xb040, [8], 16, 16, 0⟩
def ADM_CH_PLACED_MBPS : RF := ⟨.admCh, 0xb040, [8], 32, 16, 0⟩
def ADM_CH_BLOCKED : RF := ⟨.admCh, 0xb040, [8], 48, 1, 0⟩
def RING_CFG_POS : RF := ⟨.ringCfg, 0xc300, [], 0, 5, 0⟩
def RING_CFG_N : RF := ⟨.ringCfg, 0xc300, [], 5, 6, 0⟩
def RING_CFG_AUTO_ALIGN : RF := ⟨.ringCfg, 0xc300, [], 11, 1, 0⟩
def RING_CFG_START_LEAD : RF := ⟨.ringCfg, 0xc300, [], 16, 16, 0⟩
def RING_STAT_ALIGNED : RF := ⟨.ringStat, 0xc308, [], 0, 1, 0⟩
def RING_STAT_ALIGN_LOST : RF := ⟨.ringStat, 0xc308, [], 1, 1, 0⟩
def RING_STAT_FAIL_LATE : RF := ⟨.ringStat, 0xc308, [], 2, 1, 0⟩
def RING_STAT_CFG_REJECT : RF := ⟨.ringStat, 0xc308, [], 3, 1, 0⟩
def RING_STAT_XOFF : RF := ⟨.ringStat, 0xc308, [], 32, 13, 0⟩
def PL_CTL_EN : RF := ⟨.plCtl, 0xc000, [1024], 0, 1, 0⟩
def PL_CTL_FORCE_ALT : RF := ⟨.plCtl, 0xc000, [1024], 1, 1, 0⟩
def PL_CTL_EI_US : RF := ⟨.plCtl, 0xc000, [1024], 8, 8, 0⟩
def PL_STAT_STATE : RF := ⟨.plStat, 0xc008, [1024], 0, 3, 0⟩
def PL_STAT_WIDTH : RF := ⟨.plStat, 0xc008, [1024], 3, 3, 0⟩
def PL_STAT_ACTIVE : RF := ⟨.plStat, 0xc008, [1024], 6, 4, 0⟩
def PL_STAT_GOOD : RF := ⟨.plStat, 0xc008, [1024], 10, 4, 0⟩
def PL_STAT_RETIRED : RF := ⟨.plStat, 0xc008, [1024], 14, 4, 0⟩
def PL_STAT_HOLD : RF := ⟨.plStat, 0xc008, [1024], 18, 1, 0⟩
def PL_STAT_PARTNER_POS : RF := ⟨.plStat, 0xc008, [1024], 19, 5, 0⟩
def PL_STAT_PARTNER_LINK : RF := ⟨.plStat, 0xc008, [1024], 24, 2, 0⟩
def PL_STAT_RECOVERIES : RF := ⟨.plStat, 0xc008, [1024], 32, 32, 0⟩
def PL_LANE_LOCKED : RF := ⟨.plLane, 0xc010, [1024, 8], 0, 1, 0⟩
def PL_LANE_SETTING : RF := ⟨.plLane, 0xc010, [1024, 8], 1, 1, 0⟩
def PL_LANE_ATTEMPTS : RF := ⟨.plLane, 0xc010, [1024, 8], 2, 3, 0⟩
def PL_LANE_BLK_ERR : RF := ⟨.plLane, 0xc010, [1024, 8], 8, 24, 0⟩
def PL_LANE_LOSSES : RF := ⟨.plLane, 0xc010, [1024, 8], 32, 16, 0⟩
def PL_EQP_TX_AMP : RF := ⟨.plEqp, 0xc030, [1024, 8], 0, 8, 0⟩
def PL_EQP_TX_PRE : RF := ⟨.plEqp, 0xc030, [1024, 8], 8, 8, 0⟩
def PL_EQP_TX_POST : RF := ⟨.plEqp, 0xc030, [1024, 8], 16, 8, 0⟩
def PL_EQP_RX_CTLE : RF := ⟨.plEqp, 0xc030, [1024, 8], 24, 8, 0⟩
def PL_EQP_RX_VGA : RF := ⟨.plEqp, 0xc030, [1024, 8], 32, 8, 0⟩
def PL_EQP_RX_DFE1 : RF := ⟨.plEqp, 0xc030, [1024, 8], 40, 8, 0⟩
def PL_EQA_TX_AMP : RF := ⟨.plEqa, 0xc050, [1024, 8], 0, 8, 0⟩
def PL_EQA_TX_PRE : RF := ⟨.plEqa, 0xc050, [1024, 8], 8, 8, 0⟩
def PL_EQA_TX_POST : RF := ⟨.plEqa, 0xc050, [1024, 8], 16, 8, 0⟩
def PL_EQA_RX_CTLE : RF := ⟨.plEqa, 0xc050, [1024, 8], 24, 8, 0⟩
def PL_EQA_RX_VGA : RF := ⟨.plEqa, 0xc050, [1024, 8], 32, 8, 0⟩
def PL_EQA_RX_DFE1 : RF := ⟨.plEqa, 0xc050, [1024, 8], 40, 8, 0⟩
def PL_LINKCNT_NAKS : RF := ⟨.plLinkcnt, 0xc070, [1024], 0, 32, 0⟩
def PL_LINKCNT_REPLAYED : RF := ⟨.plLinkcnt, 0xc070, [1024], 32, 32, 0⟩
def PL_TIME_THETA : RF := ⟨.plTime, 0xc078, [1024], 0, 32, 0⟩
def PL_TIME_DELAY : RF := ⟨.plTime, 0xc078, [1024], 32, 16, 0⟩
def PL_TIME_VALID : RF := ⟨.plTime, 0xc078, [1024], 48, 1, 0⟩
def PL_ASYM_ASYM : RF := ⟨.plAsym, 0xc080, [1024], 0, 32, 0⟩
def PAIR_CTL_CLAIM : RF := ⟨.pairCtl, 0xd000, [], 0, 1, 0⟩
def PAIR_CTL_FOLLOW : RF := ⟨.pairCtl, 0xd000, [], 1, 1, 0⟩
def PAIR_CTL_CAP_BUDGET : RF := ⟨.pairCtl, 0xd000, [], 8, 8, 0⟩
def PAIR_STAT_ROLE : RF := ⟨.pairStat, 0xd008, [], 0, 2, 0⟩
def PAIR_STAT_STATE : RF := ⟨.pairStat, 0xd008, [], 2, 3, 0⟩
def PAIR_STAT_RING : RF := ⟨.pairStat, 0xd008, [], 5, 1, 0⟩
def PAIR_STAT_MIRRORED : RF := ⟨.pairStat, 0xd008, [], 6, 1, 0⟩
def PAIR_STAT_PE_OWN : RF := ⟨.pairStat, 0xd008, [], 7, 1, 0⟩
def PAIR_STAT_PAIR_ACTIVE : RF := ⟨.pairStat, 0xd008, [], 8, 1, 0⟩
def PAIR_STAT_PARTNER_ACTIVE : RF := ⟨.pairStat, 0xd008, [], 9, 1, 0⟩
def PAIR_STAT_CLAIM_LOST : RF := ⟨.pairStat, 0xd008, [], 10, 1, 0⟩
def PAIR_STAT_JOIN_CHECK : RF := ⟨.pairStat, 0xd008, [], 16, 4, 0⟩
def PAIR_STAT_TAKEOVERS : RF := ⟨.pairStat, 0xd008, [], 32, 16, 0⟩
def TETHER_STAT_QUEUE_KIB : RF := ⟨.tetherStat, 0xd010, [], 0, 13, 0⟩
def TETHER_STAT_MISMATCH : RF := ⟨.tetherStat, 0xd010, [], 16, 1, 0⟩
def TETHER_STAT_UNPROT : RF := ⟨.tetherStat, 0xd010, [], 17, 1, 0⟩
def TETHER_STAT_CAP_MBPS : RF := ⟨.tetherStat, 0xd010, [], 32, 32, 0⟩
def TETHER_MIRROR_T_DTIME : RF := ⟨.tetherMirrorT, 0xd018, [], 0, 64, 0⟩
def TETHER_UNPROT_RECORDS : RF := ⟨.tetherUnprot, 0xd020, [], 0, 32, 0⟩
def TETHER_UNPROT_BLOCKS : RF := ⟨.tetherUnprot, 0xd020, [], 32, 32, 0⟩
def BOOT_STATUS_CODE : RF := ⟨.bootStatus, 0xe000, [], 0, 8, 0⟩
def BOOT_STATUS_DETAIL : RF := ⟨.bootStatus, 0xe000, [], 8, 8, 0⟩
def BOOT_STATUS_PHASE : RF := ⟨.bootStatus, 0xe000, [], 16, 4, 0⟩
def BOOT_STATUS_CAUSE : RF := ⟨.bootStatus, 0xe000, [], 20, 3, 0⟩
def BOOT_STATUS_SLOT : RF := ⟨.bootStatus, 0xe000, [], 23, 1, 0⟩
def BOOT_STATUS_DONE : RF := ⟨.bootStatus, 0xe000, [], 24, 1, 0⟩
def BOOT_STATUS_FAILED : RF := ⟨.bootStatus, 0xe000, [], 25, 1, 0⟩
def BOOT_STATUS_WARN : RF := ⟨.bootStatus, 0xe000, [], 26, 1, 0⟩
def BOOT_INFO_SEC_VER : RF := ⟨.bootInfo, 0xe008, [], 0, 32, 0⟩
def BOOT_INFO_KEY_SLOT : RF := ⟨.bootInfo, 0xe008, [], 32, 2, 0⟩
def BOOT_INFO_REVOKED : RF := ⟨.bootInfo, 0xe008, [], 34, 4, 0⟩
def BOOT_BUILD_BUILD_TAG : RF := ⟨.bootBuild, 0xe010, [], 0, 64, 0⟩
def BOOT_MINVER_SEC_VER_MIN : RF := ⟨.bootMinver, 0xe018, [], 0, 32, 0⟩
def UC_PATCH_LEVEL : RF := ⟨.ucPatch, 0xe020, [], 0, 32, 0⟩
def UC_PATCH_NWORDS : RF := ⟨.ucPatch, 0xe020, [], 32, 10, 0⟩
def UC_PATCH_NMATCH : RF := ⟨.ucPatch, 0xe020, [], 42, 6, 0⟩
def UC_PATCH_ROM_ID : RF := ⟨.ucPatch, 0xe020, [], 48, 16, 0⟩
def UC_ROMID_ROM_ID : RF := ⟨.ucRomid, 0xe028, [], 0, 64, 0⟩
def BOOT_KEYS_HASH : RF := ⟨.bootKeys, 0xe040, [8], 0, 64, 0⟩
def DTIME_COUNT : RF := ⟨.dtime, 0xe100, [], 0, 64, 0⟩
def DTIME_STAT_SRC : RF := ⟨.dtimeStat, 0xe108, [], 0, 1, 0⟩
def DTIME_STAT_COARSE : RF := ⟨.dtimeStat, 0xe108, [], 1, 1, 0⟩
def DTIME_STAT_STEPPED : RF := ⟨.dtimeStat, 0xe108, [], 2, 1, 0⟩
def DTIME_STAT_SLIP : RF := ⟨.dtimeStat, 0xe108, [], 3, 1, 0⟩
def DTIME_STAT_SLIP_ISLAND : RF := ⟨.dtimeStat, 0xe108, [], 8, 5, 0⟩
def DTIME_STAT_LAST_STEP_NS : RF := ⟨.dtimeStat, 0xe108, [], 32, 32, 0⟩
def CALSEC_SEC : RF := ⟨.calsec, 0xe110, [], 0, 48, 0⟩
def CALSEC_SUB : RF := ⟨.calsec, 0xe110, [], 48, 15, 0⟩
def CALSEC_VALID : RF := ⟨.calsec, 0xe110, [], 63, 1, 0⟩
def CAL_SET_SEC : RF := ⟨.calSet, 0xe118, [], 0, 48, 0⟩
def CAL_EPOCH_DTIME_DTIME : RF := ⟨.calEpochDtime, 0xe120, [], 0, 64, 0⟩
def CLK_STAT_TREF_OK : RF := ⟨.clkStat, 0xe128, [], 0, 1, 0⟩
def CLK_STAT_LREF_OK : RF := ⟨.clkStat, 0xe128, [], 1, 1, 0⟩
def CLK_STAT_PCIEREF_OK : RF := ⟨.clkStat, 0xe128, [], 2, 1, 0⟩
def CLK_STAT_XTAL_OK : RF := ⟨.clkStat, 0xe128, [], 3, 1, 0⟩
def CLK_STAT_TREF_LOST : RF := ⟨.clkStat, 0xe128, [], 8, 1, 0⟩
def CLK_STAT_LREF_LOST : RF := ⟨.clkStat, 0xe128, [], 9, 1, 0⟩
def CLK_STAT_XTAL_LOST : RF := ⟨.clkStat, 0xe128, [], 10, 1, 0⟩
def CLK_STAT_TREF_LOSS_COUNT : RF := ⟨.clkStat, 0xe128, [], 16, 16, 0⟩
def LIFE_CTL_SNAP_MIN : RF := ⟨.lifeCtl, 0xe200, [], 0, 8, 0⟩
def LIFE_CTL_RELOAD_RETIRED : RF := ⟨.lifeCtl, 0xe200, [], 8, 1, 0⟩
def LIFE_STAT_STATE : RF := ⟨.lifeStat, 0xe208, [], 0, 2, 0⟩
def LIFE_STAT_GOOD : RF := ⟨.lifeStat, 0xe208, [], 2, 11, 0⟩
def LIFE_STAT_QUEUED : RF := ⟨.lifeStat, 0xe208, [], 13, 7, 0⟩
def LIFE_STAT_DROPPED : RF := ⟨.lifeStat, 0xe208, [], 20, 12, 0⟩
def LIFE_STAT_SEQ : RF := ⟨.lifeStat, 0xe208, [], 32, 32, 0⟩
def LIFE_POH_POWER_ON_S : RF := ⟨.lifePoh, 0xe210, [], 0, 48, 0⟩
def UC_MATCH_ROM_ADDR : RF := ⟨.ucMatch, 0xe400, [4], 0, 14, 0⟩
def UC_MATCH_PRAM_ADDR : RF := ⟨.ucMatch, 0xe400, [4], 16, 9, 0⟩
def UC_MATCH_EN : RF := ⟨.ucMatch, 0xe400, [4], 31, 1, 0⟩
def FE_CAP_CTL_BUDGET : RF := ⟨.feCapCtl, 0x100000, [32768], 0, 16, 0⟩
def FE_MM_CTL_POWERUP_US : RF := ⟨.feMmCtl, 0x100008, [32768], 0, 16, 0⟩
def FE_MM_CTL_RECOVER_US : RF := ⟨.feMmCtl, 0x100008, [32768], 16, 16, 0⟩
def FE_CAP_STAT_ACTIVE : RF := ⟨.feCapStat, 0x100010, [32768], 0, 5, 0⟩
def FE_CAP_STAT_BUF_LEVEL : RF := ⟨.feCapStat, 0x100010, [32768], 5, 9, 0⟩
def FE_CAP_STAT_DROPPED : RF := ⟨.feCapStat, 0x100010, [32768], 32, 32, 0⟩
def FCHAIN_CTL_EN : RF := ⟨.fchainCtl, 0x101000, [32768, 256], 0, 1, 0⟩
def FCHAIN_CTL_DCMODE : RF := ⟨.fchainCtl, 0x101000, [32768, 256], 1, 2, 0⟩
def FCHAIN_CTL_FREEZE_BURST : RF := ⟨.fchainCtl, 0x101000, [32768, 256], 3, 1, 0⟩
def FCHAIN_CTL_DCK : RF := ⟨.fchainCtl, 0x101000, [32768, 256], 4, 5, 0⟩
def FCHAIN_CTL_SELFTEST : RF := ⟨.fchainCtl, 0x101000, [32768, 256], 9, 1, 0⟩
def FCHAIN_CTL_FORCE_MM : RF := ⟨.fchainCtl, 0x101000, [32768, 256], 10, 1, 0⟩
def FCHAIN_CTL_TRIP_EN : RF := ⟨.fchainCtl, 0x101000, [32768, 256], 11, 1, 0⟩
def FCHAIN_CTL_PRESET : RF := ⟨.fchainCtl, 0x101000, [32768, 256], 12, 3, 0⟩
def FCHAIN_CTL_LEN_M1 : RF := ⟨.fchainCtl, 0x101000, [32768, 256], 16, 12, 0⟩
def FCHAIN_CTL_DET : RF := ⟨.fchainCtl, 0x101000, [32768, 256], 28, 2, 0⟩
def FCHAIN_CTL_DEC_LOG2 : RF := ⟨.fchainCtl, 0x101000, [32768, 256], 30, 5, 0⟩
def FCHAIN_CTL_ENV_K : RF := ⟨.fchainCtl, 0x101000, [32768, 256], 35, 5, 0⟩
def FCHAIN_CTL_HYST : RF := ⟨.fchainCtl, 0x101000, [32768, 256], 40, 16, 0⟩
def FCHAIN_THR_HI : RF := ⟨.fchainThr, 0x101008, [32768, 256], 0, 24, 0⟩
def FCHAIN_THR_LO : RF := ⟨.fchainThr, 0x101008, [32768, 256], 32, 24, 0⟩
def FCHAIN_STAT_FILL : RF := ⟨.fchainStat, 0x101010, [32768, 256], 0, 1, 0⟩
def FCHAIN_STAT_MM : RF := ⟨.fchainStat, 0x101010, [32768, 256], 1, 1, 0⟩
def FCHAIN_STAT_MM_CAUSE : RF := ⟨.fchainStat, 0x101010, [32768, 256], 2, 4, 0⟩
def FCHAIN_STAT_TRIP : RF := ⟨.fchainStat, 0x101010, [32768, 256], 6, 1, 0⟩
def FCHAIN_STAT_SAT : RF := ⟨.fchainStat, 0x101010, [32768, 256], 7, 1, 0⟩
def FCHAIN_STAT_DE : RF := ⟨.fchainStat, 0x101010, [32768, 256], 8, 5, 0⟩
def FCHAIN_STAT_ACQ : RF := ⟨.fchainStat, 0x101010, [32768, 256], 13, 1, 0⟩
def FCHAIN_STAT_TRIPS : RF := ⟨.fchainStat, 0x101010, [32768, 256], 32, 32, 0⟩
def FCHAIN_OUT_A : RF := ⟨.fchainOut, 0x101018, [32768, 256], 0, 24, 0⟩
def FCHAIN_OUT_DCEST : RF := ⟨.fchainOut, 0x101018, [32768, 256], 32, 24, 0⟩
def APG_BIND_ID : RF := ⟨.apgBind, 0x110000, [16384], 0, 16, 0⟩
def APG_BIND_GROUP : RF := ⟨.apgBind, 0x110000, [16384], 16, 1, 0⟩
def APG_BIND_BOUND : RF := ⟨.apgBind, 0x110000, [16384], 17, 1, 0⟩
def APG_BIND_BUSY : RF := ⟨.apgBind, 0x110000, [16384], 18, 1, 0⟩
def APG_BIND_BURSTS : RF := ⟨.apgBind, 0x110000, [16384], 32, 32, 0⟩
def APG_XY_X : RF := ⟨.apgXy, 0x110008, [16384], 0, 24, 0⟩
def APG_XY_Y : RF := ⟨.apgXy, 0x110008, [16384], 32, 24, 0⟩
def APG_REF_XR : RF := ⟨.apgRef, 0x110010, [16384], 0, 24, 0⟩
def APG_REF_YR : RF := ⟨.apgRef, 0x110010, [16384], 32, 24, 0⟩
def APG_DC_D : RF := ⟨.apgDc, 0x110018, [16384], 0, 32, 0⟩
def APG_DC_CTRL : RF := ⟨.apgDc, 0x110018, [16384], 32, 8, 0⟩
def APG_EVT_UNMAPPED : RF := ⟨.apgEvt, 0x110020, [16384], 0, 1, 0⟩
def APG_EVT_NOFLAG : RF := ⟨.apgEvt, 0x110020, [16384], 1, 1, 0⟩
def APG_EVT_BM_RANGE : RF := ⟨.apgEvt, 0x110020, [16384], 2, 1, 0⟩
def APG_EVT_BM_NODATA : RF := ⟨.apgEvt, 0x110020, [16384], 3, 1, 0⟩
def CL_SLICE_MAP_GRP : RF := ⟨.clSliceMap, 0x10100, [65536], 0, 4, 16⟩
def CL_SLICE_MAP_PHYS : RF := ⟨.clSliceMap, 0x10100, [65536], 4, 3, 16⟩
def CL_SLICE_MAP_RETIRED : RF := ⟨.clSliceMap, 0x10100, [65536], 7, 1, 16⟩
def CL_SLICE_MAP_USED : RF := ⟨.clSliceMap, 0x10100, [65536], 8, 1, 16⟩
def CL_SLICE_MAP_LOCKSTEP : RF := ⟨.clSliceMap, 0x10100, [65536], 9, 1, 16⟩
def CL_SLICE_MAP_MULTI : RF := ⟨.clSliceMap, 0x10100, [65536], 10, 1, 16⟩
def CL_SLICE_MAP_BURST : RF := ⟨.clSliceMap, 0x10100, [65536], 11, 1, 16⟩
def CL_SITE_MASK_MASK : RF := ⟨.clSiteMask, 0x10108, [65536], 0, 16, 16⟩
def CL_SEQ_CTL_ABORT : RF := ⟨.clSeqCtl, 0x10200, [65536], 0, 4, 0⟩
def CL_SEQ_HZN_HZN : RF := ⟨.clSeqHzn, 0x10208, [65536], 0, 16, 16⟩
def CL_SEQ_STAT_VEC : RF := ⟨.clSeqStat, 0x10210, [65536, 8], 0, 48, 0⟩
def CL_SEQ_STAT_STATE : RF := ⟨.clSeqStat, 0x10210, [65536, 8], 48, 3, 0⟩
def CL_SEQ_STAT_LDEPTH : RF := ⟨.clSeqStat, 0x10210, [65536, 8], 51, 4, 0⟩
def CL_SEQ_STAT_CDEPTH : RF := ⟨.clSeqStat, 0x10210, [65536, 8], 55, 5, 0⟩
def CL_SEQ_STAT_MATCH : RF := ⟨.clSeqStat, 0x10210, [65536, 8], 60, 1, 0⟩
def CL_SEQ_STAT_BRWAIT : RF := ⟨.clSeqStat, 0x10210, [65536, 8], 61, 1, 0⟩
def CL_SEQ_END_END_VEC : RF := ⟨.clSeqEnd, 0x10230, [65536, 8], 0, 48, 0⟩
def CL_SEQ_END_STATUS : RF := ⟨.clSeqEnd, 0x10230, [65536, 8], 48, 8, 0⟩
def CL_SEQ_END_PCHECK : RF := ⟨.clSeqEnd, 0x10230, [65536, 8], 56, 8, 0⟩
def CL_SEQ_CKPT_VEC : RF := ⟨.clSeqCkpt, 0x10250, [65536, 8], 0, 48, 0⟩
def CL_SEQ_CKPT_RP_ID : RF := ⟨.clSeqCkpt, 0x10250, [65536, 8], 48, 10, 0⟩
def CL_SEQ_CKPT_VALID : RF := ⟨.clSeqCkpt, 0x10250, [65536, 8], 63, 1, 0⟩
def CL_SEQ_MATCH_ITER : RF := ⟨.clSeqMatch, 0x10270, [65536, 8], 0, 32, 0⟩
def CL_SEQ_MATCH_WORD : RF := ⟨.clSeqMatch, 0x10270, [65536, 8], 32, 24, 0⟩
def CL_SEQ_MATCH_TIMEOUT : RF := ⟨.clSeqMatch, 0x10270, [65536, 8], 63, 1, 0⟩
def CL_ADM_FIFO_RSV : RF := ⟨.clAdm, 0x10300, [65536], 0, 15, 0⟩
def CL_ADM_DEMAND_MBPS : RF := ⟨.clAdm, 0x10300, [65536], 16, 16, 0⟩
def CL_ADM_CACHE_FREE : RF := ⟨.clAdm, 0x10300, [65536], 32, 22, 0⟩
def CL_DRIFT_CTL_EN : RF := ⟨.clDriftCtl, 0x10400, [65536], 0, 1, 0⟩
def CL_DRIFT_CTL_RESET_TRIM : RF := ⟨.clDriftCtl, 0x10400, [65536], 1, 1, 0⟩
def CL_DRIFT_CTL_INTERVAL : RF := ⟨.clDriftCtl, 0x10400, [65536], 8, 8, 0⟩
def CL_DRIFT_STAT_GAIN_PPM : RF := ⟨.clDriftStat, 0x10408, [65536], 0, 16, 0⟩
def CL_DRIFT_STAT_OFFSET : RF := ⟨.clDriftStat, 0x10408, [65536], 16, 16, 0⟩
def CL_DRIFT_STAT_ACQ : RF := ⟨.clDriftStat, 0x10408, [65536], 32, 1, 0⟩
def CL_DRIFT_STAT_LOCKED : RF := ⟨.clDriftStat, 0x10408, [65536], 33, 1, 0⟩
def CL_DRIFT_STAT_RANGE : RF := ⟨.clDriftStat, 0x10408, [65536], 34, 1, 0⟩
def CL_TSET_LOADED_LOADED : RF := ⟨.clTsetLoaded, 0x10410, [65536], 0, 64, 0⟩
def CL_TSET_X2_X2 : RF := ⟨.clTsetX2, 0x10418, [65536], 0, 64, 0⟩
def CL_TSET_X4_X4 : RF := ⟨.clTsetX4, 0x10420, [65536], 0, 64, 0⟩
def CL_TIM_LAT_DRV_LAT : RF := ⟨.clTimLat, 0x10428, [65536], 0, 16, 0⟩
def CL_TIM_LAT_CMP_LAT : RF := ⟨.clTimLat, 0x10428, [65536], 16, 16, 0⟩
def CL_TIM_EVT_CLOSE : RF := ⟨.clTimEvt, 0x10430, [65536], 0, 1, 0⟩
def CL_TIM_EVT_CLOSE_CH : RF := ⟨.clTimEvt, 0x10430, [65536], 16, 16, 0⟩
def CL_CAP_CTL_BUDGET : RF := ⟨.clCapCtl, 0x10500, [65536], 0, 8, 0⟩
def CL_CAP_CTL_SUM_SHIFT : RF := ⟨.clCapCtl, 0x10500, [65536], 8, 4, 0⟩
def CL_CAP_STAT_SUMMARY : RF := ⟨.clCapStat, 0x10508, [65536], 0, 4, 0⟩
def CL_CAP_STAT_BUF_LEVEL : RF := ⟨.clCapStat, 0x10508, [65536], 8, 11, 0⟩
def CL_CAP_STAT_DROPPED : RF := ⟨.clCapStat, 0x10508, [65536], 32, 32, 0⟩
def CL_CMP_FAIL_FAIL_VECS : RF := ⟨.clCmpFail, 0x10520, [65536, 8], 0, 48, 0⟩
def CL_CMP_FIRST_VEC : RF := ⟨.clCmpFirst, 0x10540, [65536, 8], 0, 48, 0⟩
def CL_CMP_FIRST_VALID : RF := ⟨.clCmpFirst, 0x10540, [65536, 8], 63, 1, 0⟩
def CL_CMP_LAST_VEC : RF := ⟨.clCmpLast, 0x10560, [65536, 8], 0, 48, 0⟩
def CL_CMP_LAST_VALID : RF := ⟨.clCmpLast, 0x10560, [65536, 8], 63, 1, 0⟩
def CL_CMP_EVT_BOTH : RF := ⟨.clCmpEvt, 0x10580, [65536], 0, 1, 0⟩
def CL_CMP_EVT_BOTH_CH : RF := ⟨.clCmpEvt, 0x10580, [65536], 16, 16, 0⟩
def CL_CMP_CHCNT_COUNT : RF := ⟨.clCmpChcnt, 0x10600, [65536, 4], 0, 32, 0⟩
def CL_TRG_SRC_SRC : RF := ⟨.clTrgSrc, 0x10700, [65536, 64], 0, 64, 0⟩
def CL_TRG_CTL_MODE : RF := ⟨.clTrgCtl, 0x10708, [65536, 64], 0, 2, 0⟩
def CL_TRG_CTL_ARM : RF := ⟨.clTrgCtl, 0x10708, [65536, 64], 2, 1, 0⟩
def CL_TRG_CTL_PUBLISH : RF := ⟨.clTrgCtl, 0x10708, [65536, 64], 3, 1, 0⟩
def CL_TRG_CTL_CTLINE : RF := ⟨.clTrgCtl, 0x10708, [65536, 64], 4, 3, 0⟩
def CL_TRG_CTL_XPUB : RF := ⟨.clTrgCtl, 0x10708, [65536, 64], 7, 1, 0⟩
def CL_TRG_CTL_XTLINE : RF := ⟨.clTrgCtl, 0x10708, [65536, 64], 8, 3, 0⟩
def CL_TRG_CTL_EVENT : RF := ⟨.clTrgCtl, 0x10708, [65536, 64], 11, 1, 0⟩
def CL_TRG_CTL_OUTMASK : RF := ⟨.clTrgCtl, 0x10708, [65536, 64], 12, 4, 0⟩
def CL_TRG_CTL_REF_SLICE : RF := ⟨.clTrgCtl, 0x10708, [65536, 64], 16, 2, 0⟩
def CL_TRG_CTL_ARM_BURST : RF := ⟨.clTrgCtl, 0x10708, [65536, 64], 18, 1, 0⟩
def CL_TRG_CTL_CWIN : RF := ⟨.clTrgCtl, 0x10708, [65536, 64], 24, 8, 0⟩
def CL_TRG_CTL_SETTLE : RF := ⟨.clTrgCtl, 0x10708, [65536, 64], 32, 16, 0⟩
def CL_TRG_CTL_HOLDOFF : RF := ⟨.clTrgCtl, 0x10708, [65536, 64], 48, 16, 0⟩
def CL_TRG_STAT_ARMED : RF := ⟨.clTrgStat, 0x10710, [65536, 64], 0, 1, 0⟩
def CL_TRG_STAT_OPEN : RF := ⟨.clTrgStat, 0x10710, [65536, 64], 1, 1, 0⟩
def CL_TRG_STAT_LATE : RF := ⟨.clTrgStat, 0x10710, [65536, 64], 2, 1, 0⟩
def CL_TRG_STAT_PRIMARY : RF := ⟨.clTrgStat, 0x10710, [65536, 64], 8, 6, 0⟩
def CL_TRG_STAT_FRAC : RF := ⟨.clTrgStat, 0x10710, [65536, 64], 16, 11, 0⟩
def CL_TRG_STAT_SEQ : RF := ⟨.clTrgStat, 0x10710, [65536, 64], 32, 32, 0⟩
def CL_TRG_TIME_T0 : RF := ⟨.clTrgTime, 0x10718, [65536, 64], 0, 64, 0⟩
def CL_TRG_MASK_MASK : RF := ⟨.clTrgMask, 0x10720, [65536, 64], 0, 64, 0⟩
def CL_TRG_VEC_VEC : RF := ⟨.clTrgVec, 0x10728, [65536, 64], 0, 48, 0⟩
def CL_ADC_CFG_EN : RF := ⟨.clAdcCfg, 0x10900, [65536], 0, 1, 0⟩
def CL_ADC_CFG_FMT : RF := ⟨.clAdcCfg, 0x10900, [65536], 1, 1, 0⟩
def CL_ADC_CFG_ALIGN : RF := ⟨.clAdcCfg, 0x10900, [65536], 2, 1, 0⟩
def CL_ADC_CFG_LAT : RF := ⟨.clAdcCfg, 0x10900, [65536], 8, 16, 0⟩
def CL_ADC_CFG_ALIGN_PAT : RF := ⟨.clAdcCfg, 0x10900, [65536], 32, 16, 0⟩
def CL_ADC_STAT_LOCK : RF := ⟨.clAdcStat, 0x10908, [65536], 0, 1, 0⟩
def CL_ADC_STAT_ALIGNED : RF := ⟨.clAdcStat, 0x10908, [65536], 1, 1, 0⟩
def CL_ADC_STAT_LOSS : RF := ⟨.clAdcStat, 0x10908, [65536], 2, 1, 0⟩
def CL_ADC_STAT_ALIGN_FAIL : RF := ⟨.clAdcStat, 0x10908, [65536], 3, 1, 0⟩
def CL_ADC_STAT_SAT0 : RF := ⟨.clAdcStat, 0x10908, [65536], 4, 1, 0⟩
def CL_ADC_STAT_SAT1 : RF := ⟨.clAdcStat, 0x10908, [65536], 5, 1, 0⟩
def CL_ADC_STAT_DLY0 : RF := ⟨.clAdcStat, 0x10908, [65536], 8, 5, 0⟩
def CL_ADC_STAT_DLY1 : RF := ⟨.clAdcStat, 0x10908, [65536], 16, 5, 0⟩
def CL_ADC_STAT_PERIOD_PS : RF := ⟨.clAdcStat, 0x10908, [65536], 32, 32, 0⟩
def CL_TRIGIN_CFG_EN : RF := ⟨.clTriginCfg, 0x10910, [65536], 0, 4, 0⟩
def CL_TRIGIN_CFG_FALL : RF := ⟨.clTriginCfg, 0x10910, [65536], 4, 4, 0⟩
def CL_TRIGIN_DSK_DSK : RF := ⟨.clTriginDsk, 0x10918, [65536], 0, 16, 16⟩
def CL_IMTR_CTL_ABORT : RF := ⟨.clImtrCtl, 0x10a00, [65536, 64], 0, 1, 0⟩
def CL_IMTR_STAT_STATE : RF := ⟨.clImtrStat, 0x10a08, [65536, 64], 0, 2, 0⟩
def CL_IMTR_STAT_MERGED : RF := ⟨.clImtrStat, 0x10a08, [65536, 64], 2, 1, 0⟩
def CL_IMTR_STAT_INVALID : RF := ⟨.clImtrStat, 0x10a08, [65536, 64], 3, 1, 0⟩
def CL_IMTR_STAT_SITE_ID : RF := ⟨.clImtrStat, 0x10a08, [65536, 64], 16, 16, 0⟩
def CL_IMTR_STAT_START_FRAC : RF := ⟨.clImtrStat, 0x10a08, [65536, 64], 32, 8, 0⟩
def CL_IMTR_STAT_STOP_FRAC : RF := ⟨.clImtrStat, 0x10a08, [65536, 64], 40, 8, 0⟩
def CL_IMTR_STAT_STOPS : RF := ⟨.clImtrStat, 0x10a08, [65536, 64], 48, 16, 0⟩
def CL_IMTR_RES_RESULT : RF := ⟨.clImtrRes, 0x10a10, [65536, 64], 0, 64, 0⟩
def CL_IMTR_TSTART_START_T : RF := ⟨.clImtrTstart, 0x10a18, [65536, 64], 0, 64, 0⟩
def CL_IMTR_TSTOP_STOP_T : RF := ⟨.clImtrTstop, 0x10a20, [65536, 64], 0, 64, 0⟩
def CL_IMTR_COUNT_DONE : RF := ⟨.clImtrCount, 0x10a28, [65536, 64], 0, 32, 0⟩
def CL_IMTR_COUNT_TIMEOUTS : RF := ⟨.clImtrCount, 0x10a28, [65536, 64], 32, 32, 0⟩
def CL_PE_CFG_EN : RF := ⟨.clPeCfg, 0x10b00, [65536], 0, 1, 0⟩
def CL_PE_CFG_DIV : RF := ⟨.clPeCfg, 0x10b00, [65536], 8, 8, 0⟩
def CL_PE_STAT_BUSY : RF := ⟨.clPeStat, 0x10b08, [65536], 0, 1, 0⟩
def CL_PE_STAT_DUTPWR : RF := ⟨.clPeStat, 0x10b08, [65536], 1, 1, 0⟩
def CL_PE_STAT_QUEUED : RF := ⟨.clPeStat, 0x10b08, [65536], 16, 5, 0⟩
def CL_PE_STAT_RELAY_FRAMES : RF := ⟨.clPeStat, 0x10b08, [65536], 32, 32, 0⟩
def CL_DSK_DSKD : RF := ⟨.clDsk, 0x11000, [65536, 16], 0, 15, 0⟩
def CL_DSK_DSKE : RF := ⟨.clDsk, 0x11000, [65536, 16], 16, 15, 0⟩
def CL_DSK_DSKH : RF := ⟨.clDsk, 0x11000, [65536, 16], 32, 15, 0⟩
def CL_DSK_DSKL : RF := ⟨.clDsk, 0x11000, [65536, 16], 48, 15, 0⟩
def CL_DSK2_RISE_TRIM : RF := ⟨.clDsk2, 0x11008, [65536, 16], 0, 8, 0⟩
def CL_DSK2_CAL_DONE : RF := ⟨.clDsk2, 0x11008, [65536, 16], 16, 4, 0⟩
def CL_DSK2_TRACE_PS : RF := ⟨.clDsk2, 0x11008, [65536, 16], 32, 16, 0⟩
def CL_IMCAL_POS : RF := ⟨.clImcal, 0x12000, [65536, 512, 8], 0, 12, 16⟩
def CL_IMCAL_INFO_OFFSET : RF := ⟨.clImcalInfo, 0x12100, [65536, 512], 0, 16, 0⟩
def CL_IMCAL_INFO_CAL_TEMP : RF := ⟨.clImcalInfo, 0x12100, [65536, 512], 16, 8, 0⟩
def CL_IMCAL_INFO_CRC : RF := ⟨.clImcalInfo, 0x12100, [65536, 512], 32, 16, 0⟩

end F

/-- The indices of an offset in a row's index space, outermost first; the offset is relative to the row's base. -/
def findIdx : List (Nat × Nat) → Nat → Option (List Nat)
  | [], r => if r = 0 then some [] else none
  | (st, n) :: ds, r =>
    let i := min (r / st) (n - 1)
    match findIdx ds (r - st * i) with
    | some is => some (i :: is)
    | none => none

/-- Whether an offset lies in a row, and with which indices. -/
def Row.hit (r : Row) (off : Nat) : Option (List Nat) :=
  if off < r.base then none else findIdx r.dims (off - r.base)

/-- The register at an offset, with its indices; none for a reserved offset (R725). -/
def findReg (off : Nat) : Option (Row × List Nat) :=
  regRows.findSome? (fun r => (r.hit off).map (fun is => (r, is)))

/-- The repetitions of a field, as one field each. -/
def Fld.spread (f : Fld) : List Fld := (List.range f.n).map (fun k => { f with lo := f.lo + k * f.step, n := 1 })

/-- Default rail thresholds in mV: low warning, reset, high warning (R670). -/
def railMv : List (Nat × Nat × Nat) :=
  [(720, 690, 788), (720, 690, 788), (720, 690, 788), (720, 690, 788), (864, 828, 945), (864, 828, 945),
   (1152, 1104, 1260), (1152, 1104, 1260), (480, 460, 525), (1008, 966, 1103), (816, 782, 893), (1152, 1104, 1260),
   (1728, 1656, 1890), (864, 828, 945)]

/-- Default reactions of sources 0 to 31 (R628), as bits I, N, B, C, F, S (R633). -/
def reactDefault : List Nat :=
  [0x31, 0x11, 1, 1, 1, 1, 1, 0x33, 1, 1, 1, 1, 1, 1, 1, 1, 1, 3, 1, 0, 1, 1, 1, 1, 1, 1, 1, 3, 0, 3, 1, 1]

/-- The reset value of a whole register from its row's fields, or from the table that the owning rule gives: the rail
thresholds (R695), the reactions (R649), the ring vectors (R506), the arbiter defaults (R552), PWR_DOM_CTL (R689). -/
def resetWord (r : Row) (is : List Nat) : Nat :=
  match r.reg, is with
  | .wsRailThr, [k] =>
    let m := railMv.getD k (0, 0, 0)
    m.1 * 4 + m.2.1 * 4 * 2 ^ 16 + m.2.2 * 4 * 2 ^ 32
  | .fltReact, [j] => leNat ((List.range 8).map (fun b => BitVec.ofNat 8 (reactDefault.getD (8 * j + b) 0)))
  | .ringkCfg, [k] => 4 * 2 + (if k < 32 then 0 else k - 30) * 2 ^ 24
  | .mcArbPrio, _ => 0x80D5C4C3A2E8E6C4
  | .mcArbLimit, _ => 0x4008101020080810
  | .pwrDomCtl, [1] => 2 ^ 24
  | _, _ => (r.flds.flatMap Fld.spread).foldl (fun v f => setBits v f.lo f.w f.reset) 0

/-- The reset value of the register at an offset; 0 where none lies. -/
def regReset (off : Nat) : W64 :=
  match findReg off with
  | some (r, is) => BitVec.ofNat 64 (resetWord r is)
  | none => 0

end Sys2Proof.Machine
end

