-- ==== Sys2Proof/Machine/State.lean ====
section
/-! DEFINITION. The state of the block: every piece of state the spec names (INVENTORY.md, State), as plain data, the faults
and refusals of the host's interface, and the state right after reset. Registers live in `regs`, keyed by BAR0 offset; an
offset not listed holds its reset value. What a register reports from another part of the machine (a LIVE field) has its
home in that part. -/

namespace Sys2Proof.Machine

/-- Why a step stops. The spec gives the block no condition under which it stops: every failing operation ends with a
status, an event, a sticky bit or a fault source (R27, R628), which is a next state. -/
inductive Fault where
  /-- raised by nothing: no rule of the spec stops the block; safe -/
  | halted
  deriving DecidableEq, Repr

/-- Why a command is refused. -/
inductive Refusal where
  /-- a command without a meaning yet, by its mnemonic; raised by a dispatch arm only; safe -/
  | notModelled (mnemonic : String)
  deriving DecidableEq, Repr

/-! ### Identities shared by the families -/

/-- What a burst, a task or a binding belongs to: a site, or a lockstep group (R76, R407). -/
inductive Ent where
  | site (id : Nat)
  | group (id : Nat)
  deriving DecidableEq, Repr

/-- Who waits for an operation: a descriptor in flight, a task, or nobody. -/
inductive Owner where
  | desc (sq idx : Nat)
  | task (tid : Nat)
  | nobody
  deriving DecidableEq, Repr

/-! ### Host interface (14_host_rings.md) -/

/-- One of the 64 rings (R485). The fields of RING_k_CFG, RING_k_BASE and RING_k_IRQ lie in the register file. -/
structure Ring where
  head : Nat := 0
  tail : Nat := 0
  phase : Nat := 0
  /-- entries written since the ring's last message (R507) -/
  since : Nat := 0
  /-- DTIME at which the oldest such entry was written (R507) -/
  oldest : Option Nat := none
  /-- DTIME at which its message is due by TIME_US, as the register stood at the last entry (R507) -/
  due : Option Nat := none
  /-- DTIME from which a submission ring has met R503 (R504) -/
  metSince : Option Nat := none
  /-- a completion ring whose disable waits for its reservations (R508) -/
  closing : Bool := false
  deriving DecidableEq, Repr

/-- A descriptor in flight (R503). -/
structure Desc where
  sq : Nat
  idx : Nat
  /-- the completion ring (32 to 47) in which it holds a reservation -/
  cq : Nat
  bytes : List Byte
  /-- its FENCE has been released (R505) -/
  released : Bool := false
  /-- it has begun and waits for its completion -/
  started : Bool := false
  /-- a load whose object ID an earlier accepted load holds (R129) -/
  loses : Bool := false
  deriving DecidableEq, Repr

/-- An event entry without its phase (R496). -/
structure Event where
  typ : Nat
  b2 : Nat := 0
  b3 : Nat := 0
  aux : Nat := 0
  p0 : Nat := 0
  p1 : Nat := 0
  p2 : Nat := 0
  deriving DecidableEq, Repr

/-- An entry of the MSI-X table (R484): message address, message data and the mask bit of its vector control. At reset it is masked, as the
PCIe standard has it (log entry 41). -/
structure MsixEntry where
  addr : Nat := 0
  data : Nat := 0
  masked : Bool := true
  deriving DecidableEq, Repr

/-- The host interface: rings, descriptors in flight, the device event queue, the PCIe link and MSI-X (R481-R507). -/
structure HostIf where
  rings : List Ring := List.replicate 64 {}
  inflight : List Desc := []
  /-- the 1,024-entry device event queue, oldest first (R499) -/
  evq : List Event := []
  /-- kept events that wait at their source (R498, R499) -/
  evWait : List Event := []
  /-- events discarded since the previous OVERFLOW event (R497) -/
  ovf : Nat := 0
  /-- the submission ring served last (R504) -/
  lastServed : Nat := 31
  linkUp : Bool := false
  speed : Nat := 0
  width : Nat := 0
  l1 : Bool := false
  /-- what the host has configured in PCIe configuration space (R481): bus mastering (R488, R510), MSI-X enabled and its function mask
  (R506, R511), ASPM L1 (R483), payload and read request sizes, BAR0 and BAR2 -/
  pci : PcieCfg := {}
  /-- the MSI-X table (R484) -/
  msix : List MsixEntry := List.replicate 64 {}
  /-- the MSI-X pending-bit array (R484) -/
  pba : Nat := 0
  deriving DecidableEq, Repr

/-! ### Sites and slices (03_sites_and_slices.md), the Reel (05_reel_sequencer.md) -/

/-- A declared site or lockstep member (R69, R75). -/
structure Site where
  id : Nat
  group : Option Nat := none
  xchip : Bool := false
  dutpwr : Bool := false
  maskFirst : Bool := false
  span : Nat := 1
  pinBase : Nat := 0
  npins : Nat := 0
  leader : Nat := 0
  /-- 192-bit channel mask -/
  chmask : Nat := 0
  /-- 24-bit filter-chain mask -/
  chain : Nat := 0
  /-- blocked under R72, R87 or R89; for a member, the member alone (R89) -/
  blocked : Bool := false
  /-- BURST_TAG of its next burst across chips (R582) -/
  tag : Nat := 0
  /-- global numbers 4n + s of its slices, one per occupied cluster, rising (R68); empty for a member -/
  slices : List Nat := []
  deriving DecidableEq, Repr

/-- A lockstep group (R75). -/
structure Group where
  id : Nat
  cluster : Nat
  blocked : Bool := false
  /-- its slice, as a list of at most one global number -/
  slices : List Nat := []
  deriving DecidableEq, Repr

/-- The registers of an APG unit (R319). -/
structure ApgRegs where
  x : Nat := 0
  y : Nat := 0
  xr : Nat := 0
  yr : Nat := 0
  d : Nat := 0
  ctrl : Nat := 0
  deriving DecidableEq, Repr

/-- A run of vectors of a word (R133): `count` vectors of consecutive lines, or of one repeated line,
or pad vectors (R146). MARK and CLRF act on the vector that is still `first` (R161, R152). -/
structure Run where
  line : Nat := 0
  count : Nat
  /-- consecutive lines, or the one line repeated (R141) -/
  step : Bool := true
  pad : Bool := false
  word : Nat := 0
  tset : Nat := 0
  mux : Nat := 1
  mark : Nat := 0
  clrf : Bool := false
  /-- the APG registers before the run's next vector, and ARG of an APGV (R147, R324) -/
  apg : ApgRegs := {}
  arg : Option Nat := none
  /-- the vectors lie in a match body (R158) -/
  body : Bool := false
  /-- its lines are decoded from tokens, and not replayed from the match buffer (R157) -/
  dec : Bool := true
  /-- the word before it transferred control, so that its first vector is placed in a later cycle (R134) -/
  fresh : Bool := false
  /-- resume point reached at the first vector, with the steered vector before it (R105, R302) -/
  rp : Option (Nat × Option Nat) := none
  deriving DecidableEq, Repr

/-- What the issuer of a slice has done in its current 500 MHz cycle (R134): the cycle, counted from the burst's first vector, words
executed, vectors placed, tokens decoded in each carried stream, and whether a word has transferred control. -/
structure Issuer where
  cyc : Nat := 0
  words : Nat := 0
  vecs : Nat := 0
  toks : List Nat := []
  xfer : Bool := false
  deriving DecidableEq, Repr

/-- A loop or match frame (R142, R157). -/
structure Frame where
  isMatch : Bool
  /-- remaining count of a loop; T of a match loop -/
  count : Nat
  word : Nat
  line : Nat
  depth : Nat
  toact : Bool := false
  /-- vector number of the MLOOP's first vector -/
  start : Nat := 0
  body : List Run := []
  /-- iterations whose MEND has repeated -/
  iter : Nat := 0
  /-- the MEND of iteration 0 has emitted its lines, so the body is complete -/
  full : Bool := false
  deriving DecidableEq, Repr

/-- A held branch (R153). -/
structure Held where
  isF : Bool
  steer : Nat
  word : Nat
  block : Nat
  deriving DecidableEq, Repr

/-- What the fetcher of a slice holds while a branch is undecided (R136): ranges of offsets in the object, each from and up to. -/
structure BranchBuf where
  /-- the branch buffer: the first 4 KiB of instruction words from the target word -/
  words : Nat × Nat
  /-- the branch buffer: the first 4 KiB of each carried stream from SOFF of the target block, by stream -/
  streams : List (Nat × Nat × Nat)
  /-- the BRF or BRP words at which the fetcher waits for the decision, on the fall-through path and on the target's -/
  waits : Option Nat × Option Nat := (none, none)
  /-- vectors that need data lost to an uncorrectable error, if the branch is not taken, and if it is -/
  fall : List Nat := []
  into : List Nat := []
  deriving DecidableEq, Repr

/-- Compare counters of a site or member (R268): vectors, first, last, per local channel. -/
structure Counts where
  failVecs : Nat := 0
  first : Option Nat := none
  last : Option Nat := none
  ch : List Nat := []
  /-- XFAIL_VECS, XFIRST, XLAST of a multi-slice site (R270) -/
  xFail : Nat := 0
  xFirst : Option Nat := none
  xLast : Option Nat := none
  deriving DecidableEq, Repr

/-- What a checkpoint records beside its vector number (R106, R302). -/
structure Snap where
  accStart : Nat := 0
  minFail : Option Nat := none
  steer : Option Nat := none
  mask : Nat := 0
  /-- first vector at which a member's mask applied, by site -/
  maskVecs : List (Nat × Nat) := []
  counts : List (Nat × Counts) := []
  sliceFail : Nat := 0
  sliceFirst : Option Nat := none
  sliceLast : Option Nat := none
  /-- of the summary interval that holds the vector: FAIL records due before it, and time before it, 0.5 ps units (R294) -/
  due : Nat := 0
  span : Nat := 0
  /-- the slice counters of every part on the chip, by cluster: count, first, last -/
  parts : List (Nat × Nat × Option Nat × Option Nat) := []
  deriving DecidableEq, Repr

/-- A marked or committed checkpoint (R105, R162). -/
structure Ckpt where
  rp : Nat
  vec : Nat
  snap : Snap := {}
  deriving DecidableEq, Repr

/-- Why and where a burst ends on a slice: the first vector not applied, status, check report (R127, R164). -/
structure EndAt where
  vec : Nat
  status : Nat
  pcheck : Nat := 0
  pstream : Nat := 0xFF
  /-- admission reason of a burst that starts nothing (R191) -/
  reason : Nat := 0
  deriving DecidableEq, Repr

/-- An open summary range of one site (R286, R293). -/
structure SumRange where
  site : Nat
  fails : Nat := 0
  first : Nat := 0
  last : Nat := 0
  chfail : Nat := 0
  deriving DecidableEq, Repr

/-- Capture metering of one slice (R291-R294). -/
structure CapSlice where
  /-- SUM_SHIFT in force for the burst (R307) -/
  shift : Nat := 12
  /-- credit in bytes × 24,000,000, so that shares of k = 1 to 4 slices per 0.5 ps are whole -/
  credit : Int := 0
  creditT : Nat := 0
  summary : Bool := false
  /-- the buffer has reached 896 records while the slice was in detail mode (R295) -/
  crowded : Bool := false
  /-- entered under R295 -/
  byBuffer : Bool := false
  /-- first vector of the open covered range -/
  rangeStart : Nat := 0
  ranges : List SumRange := []
  /-- R of R294 so far in the interval -/
  due : Nat := 0
  /-- start time of the interval, 0.5 ps units -/
  intT : Nat := 0
  deriving DecidableEq, Repr

/-- What the vector started last has changed, as it stood before: a vector in progress that TREF loss or Ballast cuts off is not applied
(R164). -/
structure Undo where
  /-- by site: counters, and the first vector at which its mask applied -/
  results : List (Nat × Counts × Option Nat) := []
  /-- by site: records lost, bitmap updates dropped, RAW records not written: as they stood, and once the vector has started what it added -/
  siteCnt : List (Nat × Nat × Nat × Nat) := []
  /-- by region, likewise: records lost, updates dropped, updates taken -/
  regCnt : List (Nat × Nat × Nat × Nat) := []
  /-- likewise: records the burst has lost, DROPPED of the cluster -/
  lost : Nat := 0
  dropped : Nat := 0
  /-- this slice's reduced ranges -/
  reds : List (Nat × Nat × Nat × Nat) := []
  /-- bitmap bits that the vector set first: region, bit -/
  bits : List (Nat × Nat) := []
  mask : Nat := 0
  fails : Nat := 0
  first : Option Nat := none
  last : Option Nat := none
  cap : CapSlice := {}
  win : Nat := 0
  mwin : Nat := 0
  deriving DecidableEq, Repr

/-- The sequencer state of a logical slice (R133-R166, R172). -/
structure Seq where
  /-- 0 idle, 1 filling, 2 running, 3 stopping, 4 holding end state (R172) -/
  state : Nat := 0
  /-- next instruction word -/
  pc : Nat := 0
  /-- line cursor (R140) -/
  line : Nat := 0
  /-- number of the next vector to be formed -/
  issue : Nat := 0
  /-- number of the next vector to start at the Bridles -/
  next : Nat := 0
  /-- the vector started last, of this burst or an earlier one (R172) -/
  started : Nat := 0
  /-- the vectors of executed words that have not started -/
  queue : List Run := []
  /-- those of them in the expansion queue, at most 32: the time at which each has been placed there, 0.5 ps units (R133-R135) -/
  avail : List Nat := []
  iss : Issuer := {}
  /-- time at which cycle 0 of `iss` begins -/
  grid : Nat := 0
  /-- the instruction window: the last 1,024 words executed, latest first, each with its index (R183) -/
  window : List (Nat × Nat) := []
  frames : List Frame := []
  calls : List (Nat × Nat) := []
  mux : Nat := 1
  /-- no further word is executed: END has been executed -/
  ended : Bool := false
  endst : Nat := 0
  /-- an instruction check found by the issuer, with its vector (R168, R169) -/
  fault : Option (Nat × Nat) := none
  /-- an ALIGN fault waiting for the first vector emitted after it (R168) -/
  alignNext : Bool := false
  held : Option Held := none
  /-- the branch buffer, while the branch is undecided (R136) -/
  brbuf : Option BranchBuf := none
  /-- block whose leftover bytes have been found (R128) -/
  leftover : Option Nat := none
  /-- bit positions of the object's scan streams (R115) -/
  scan : List Nat := []
  marked : List Nat := []
  pendCk : Option Ckpt := none
  ckpt : Option Ckpt := none
  /-- the checkpoint committed before that one -/
  ckptOld : Option Ckpt := none
  /-- the channels hold the end state of an earlier burst (R166) -/
  hold : Bool := false
  /-- where the branch-fail accumulator starts: at the Bridles, and as the issuer sees it (R152) -/
  accStart : Nat := 0
  clr : Nat := 0
  steer : Option Nat := none
  /-- vectors before which the burst ends for a known cause, with its status: a match timeout, data lost to an uncorrectable
  error (R160, R164) -/
  cuts : List (Nat × Nat) := []
  /-- first vector after a match loop that ended matched, whose start is the stamp of the match source (R361) -/
  matchAt : Option Nat := none
  /-- the fail a match timeout charges: vector, and the sites or members whose channels on this slice failed (R269) -/
  charge : Option (Nat × List Nat) := none
  /-- timing set of the vector started last, and its SAMPLES by site -/
  lastSet : Nat := 0
  samples : List (Nat × Nat) := []
  undo : Option Undo := none
  /-- start time of the vector started last, 0.5 ps units -/
  last : Nat := 0
  /-- runs of vectors of one period, latest first: first vector, its start, period, in 0.5 ps units -/
  segs : List (Nat × Nat × Nat) := []
  /-- APG registers as the issuer has stepped them (R324) -/
  apg : ApgRegs := {}
  /-- own fails in the current 16-vector window: compare, match body (R583) -/
  win : Nat := 0
  mwin : Nat := 0
  /-- vector ranges that branch and match decisions have used (R583) -/
  decided : List (Nat × Nat) := []
  /-- start time of the next vector, and end of the last, in 0.5 ps units of DTIME -/
  time : Nat := 0
  /-- DTIME of vector 0, or of the restart's vector c (R163) -/
  startStamp : Nat := 0
  /-- first vector of this attempt: 0, or c of a restart -/
  base : Nat := 0
  hzn : Nat := 64
  /-- where and why the burst has ended on this slice -/
  endAt : Option EndAt := none
  /-- a requested stop: first vector not applied is the first starting after this time, with status (R165) -/
  stop : Option (Nat × Nat) := none
  deriving DecidableEq, Repr

/-- A logical slice, global number 4n + s (R14, R91). -/
structure Slice where
  phys : Option Nat
  retired : Bool := false
  /-- the site or group it serves (R67) -/
  ent : Option Ent := none
  /-- owned channel groups (R66) -/
  grp : Nat := 0
  /-- CL_n_SITE_MASK bits set under R89, which a host write cannot clear (R92) -/
  sticky : Nat := 0
  seq : Seq := {}
  /-- the vectors of the bursts that have ended here, latest first: the end of the last, and runs of vectors as `Seq.segs` has them
  (R280, R356, R367) -/
  past : List (Nat × List (Nat × Nat × Nat)) := []
  deriving DecidableEq, Repr

/-! ### Objects, placement and admission (04_pattern_objects.md, 06_admission_and_placement.md) -/

/-- The kinds of object the host loads (R117, R400, R401). -/
inductive ObjKind where
  | pattern
  | flow
  | peList
  deriving DecidableEq, Repr

/-- A loaded object, as placement holds it (R199, R201, R209). Its bytes lie in device memory (R200). -/
structure Obj where
  id : Nat
  kind : ObjKind
  size : Nat
  /-- BASE, a channel offset -/
  base : Nat
  /-- stripe set, rising; one channel for the other kinds -/
  chans : List Nat
  q : Nat := 0
  keep : Bool := false
  prefer : Bool := false
  /-- the object holds a BRF or BRP (R185) -/
  branch : Bool := false
  /-- FLAGS.APG of the header -/
  apg : Bool := false
  lost : Bool := false
  /-- an accepted unload waits for running bursts (R122, R130) -/
  unloading : Bool := false
  /-- computed digest (R116) -/
  digest : List Byte := []
  /-- fallback link of R330 -/
  fallback : Option Nat := none
  deriving DecidableEq, Repr

/-- A load in progress: its descriptor, the bytes read from host memory, and the place found (R119). -/
structure Load where
  sq : Nat
  idx : Nat
  obj : Obj
  deep : Bool
  src : List Byte
  deriving DecidableEq, Repr

/-- One part of a burst: its slice and what admission reserves for it (R182, R185, R189). -/
structure Part where
  slice : Nat
  /-- demand D of the cluster, MB/s -/
  d : Nat := 0
  /-- D per memory channel ÷ W, rounded up; 0 when all bytes come from a whole-object copy -/
  dch : Nat := 0
  share : Nat := 0
  /-- PF of its cluster at admission, 0.5 ps units (R185, R212) -/
  pf : Nat := 1000
  deriving DecidableEq, Repr

/-- A burst that is queued for admission, admitted or running (R188-R196). -/
structure Burst where
  ent : Ent
  owner : Owner
  /-- the object that runs, after R331 -/
  obj : Nat
  /-- the object the step or descriptor named -/
  named : Nat
  mode : Nat
  /-- DTIME at which a QUEUE_LIMITED wait ends (R193) -/
  deadline : Option Nat := none
  prio : Nat
  /-- order of arrival (R195) -/
  arrival : Nat
  submitted : Nat
  /-- it has waited in the queue (R192) -/
  waited : Bool := false
  admitted : Bool := false
  admittedAt : Nat := 0
  running : Bool := false
  parts : List Part := []
  /-- the checkpoint a restart begins at (R106) -/
  restart : Option Ckpt := none
  /-- qualifier mask collected so far (R28) -/
  qual : Nat := 0
  /-- APG unit used, if any (R331) -/
  apgUnit : Option Nat := none
  redFirst : Option Nat := none
  redLast : Option Nat := none
  /-- the reduced ranges that make up RED_FIRST and RED_LAST: slice, site, first, last (R296) -/
  reds : List (Nat × Nat × Nat × Nat) := []
  /-- capture records written and lost in this burst (R411) -/
  records : Nat := 0
  lost : Nat := 0
  /-- statuses of parts that have ended, with the vector each ended at -/
  ends : List (Nat × EndAt) := []
  /-- the supply dip or measurement window of R673: a dip has intersected the run -/
  startStamp : Nat := 0
  /-- cross-chip: BURST_TAG, parts ready, START received, fail window (R582-R585) -/
  tag : Nat := 0
  ready : List Nat := []
  startAt : Option Nat := none
  /-- how it ends without starting, once that is known: a refusal, a denial or a stop on some chip (R83) -/
  fin : Option EndAt := none
  /-- another chip's part is blocked: the site becomes blocked here once the burst is over (R87) -/
  block : Bool := false
  /-- windows of 16 vectors with the vectors on which the site-fail condition held: on all parts, on this chip's (R152, R583) -/
  wins : List (Nat × Nat) := []
  own : List (Nat × Nat) := []
  /-- fails in match bodies: site, slice and vector; site and slice 0xFFFF for another chip's part (R158) -/
  mfail : List (Nat × Nat × Nat) := []
  /-- vectors on which the site-fail condition held, with the earliest failing strobe so far, 0.5 ps (R361) -/
  strobes : List (Nat × Nat) := []
  deriving DecidableEq, Repr

/-- One holding of a cluster's vector cache (R181, R202). -/
structure CacheEnt where
  cluster : Nat
  /-- 0 dictionaries, 1 pinned loop bodies, 2 whole-object copy -/
  kind : Nat
  obj : Nat
  bytes : Nat
  /-- the admitted burst that holds it; none: retained -/
  holder : Option Ent
  lastUse : Nat
  deriving DecidableEq, Repr

/-! ### Compare and capture (08_compare_and_fail_capture.md) -/

/-- The per-site result of R272, beside the counters. -/
structure SiteRes where
  site : Nat
  counts : Counts := {}
  status : Nat := 0
  qual : Nat := 0
  obj : Nat := 0
  records : Nat := 0
  maskVec : Option Nat := none
  redFirst : Option Nat := none
  redLast : Option Nat := none
  lost : Nat := 0
  postCount : Nat := 0
  bmDropped : Nat := 0
  rawDropped : Nat := 0
  exec : Nat := 0
  restored : Bool := false
  deriving DecidableEq, Repr

/-- A capture region (R273) with the header fields of R277 that the device keeps. -/
structure Region where
  id : Nat
  site : Nat
  /-- 1 FAIL, 2 BITMAP, 3 SAMPLE -/
  kind : Nat
  append : Bool := false
  size : Nat
  chan : Nat
  base : Nat
  pre : Nat := 0
  post : Nat := 0
  trigSel : Nat := 0xFF
  lost : Bool := false
  state : Nat := 0
  next : Nat := 0
  ringHead : Nat := 0
  ringCount : Nat := 0
  postCount : Nat := 0
  trigVec : Nat := 0
  postVec : Nat := 0
  trigDtime : Nat := 0
  overwritten : Nat := 0
  lostCount : Nat := 0
  /-- records of the pre-trigger phase so far (R279) -/
  preCount : Nat := 0
  /-- linear phase entered (R280) -/
  linear : Bool := false
  /-- a firing on its way from another cluster reaches the region at this time, 0.5 ps (R360) -/
  fireAt : Option Nat := none
  /-- when the firing that ended the pre-trigger phase reached the region, 0.5 ps: blocks stamped before it stay in the ring (R355) -/
  toldAt : Option Nat := none
  /-- the final stamp and the record of a firing decided before it reaches the region -/
  pend : Option (Nat × List Byte) := none
  /-- told of a firing whose final stamp is still to come (R365) -/
  awaits : Bool := false
  /-- the final stamp of the region's trigger, 0.5 ps, and its trigger record (R354, R356) -/
  stamp : Option Nat := none
  trigRec : List Byte := []
  /-- a BITMAP region: geometry in force, the unit that set it, and the counts of R334 -/
  bmX : Nat := 0
  bmY : Nat := 0
  bmIo : Nat := 0
  bmUnit : Nat := 0
  updates : Nat := 0
  dropped : Nat := 0
  objId : Nat := 0
  endT : Nat := 0
  deriving DecidableEq, Repr

/-- A record in a cluster's capture buffer on its way to its region (R295). -/
structure CapRec where
  /-- global number of the slice, and the vector it was made at -/
  slice : Nat
  vec : Nat := 0
  site : Nat
  region : Nat
  /-- placed after the trigger (R280, R281) -/
  linear : Bool
  bytes : List Byte
  deriving DecidableEq, Repr

/-- A line of the bitmap combiner: region, line index, 512-bit OR mask (R299). -/
structure BmLine where
  region : Nat
  line : Nat
  mask : Nat
  deriving DecidableEq, Repr

/-- The compare and capture engine of a cluster. -/
structure Capture where
  /-- oldest first, at most 1,024 (R295) -/
  buf : List CapRec := []
  /-- how many records the buffer held when its first reached the head (R530) -/
  headLen : Nat := 0
  /-- at most 64 lines (R299) -/
  combiner : List BmLine := []
  /-- at most 256 waiting updates: region, bit (R300) -/
  bmQueue : List (Nat × Nat) := []
  deriving DecidableEq, Repr

/-! ### Bridle timing (07_bridle_timing.md) -/

/-- A loaded timing set: its 576 bytes (R224); the modes of R228 are derived from them. -/
structure Tset where
  num : Nat
  bytes : List Byte
  deriving DecidableEq, Repr

/-- The outputs of one local channel, with the times of its last transitions in 0.5 ps units, at the balls (R231, R232, R235, R244). -/
structure Chan where
  drv : Bool := false
  den : Bool := false
  /-- previous-drive state: 0 low, 1 high, 2 off (R231) -/
  prev : Nat := 2
  lastDrv : Option Int := none
  lastDen : Option Int := none
  lastStrobe : Option Nat := none
  /-- DRV_LAT in force on its edges: the target of the last calibration that applied results (R246); class P -/
  lat : Nat := 24000
  /-- the CMPH and CMPL paths of the last CMP calibration with result OK, which DRV takes off the loop (R247), 0.5 ps units -/
  pathH : Nat := 0
  pathL : Nat := 0
  /-- the fine-delay linearisation tables that FINE calibration has built (R246): which ones, none before the first; class P -/
  lin : Option Nat := none
  /-- retired (R89) -/
  retired : Bool := false
  deriving DecidableEq, Repr

/-- Drift tracker of a cluster: trims, calibration trims, acquisition (R240-R243). -/
structure Drift where
  gain : Int := 0
  offset : Int := 0
  calGain : Int := 0
  calOffset : Int := 0
  /-- the Windsock readings at the end of the last calibration (R250): its two sensors, and the 14 rails -/
  calTemp : List Int := []
  calRails : List Nat := []
  acq : Bool := false
  acqStart : Nat := 0
  locked : Bool := false
  last : Nat := 0
  deriving DecidableEq, Repr

/-- A CALIBRATE accepted for a cluster, in order (R249, R250). -/
structure Calib where
  sq : Nat
  idx : Nat
  cluster : Nat
  kind : Nat
  chmask : Nat
  apply : Bool
  setup : Nat
  restore : Nat
  dst : Nat
  /-- 0 waits its turn, 1 PE_SETUP, 2 measuring, 3 PE_RESTORE -/
  phase : Nat := 0
  meas : List CalMeas := []
  st : Nat := 0
  deriving DecidableEq, Repr

/-- A descriptor that waits before it takes effect (R80, R90, R122, R212, R230, R274, R275, R316, R404, R508). -/
inductive WaitKind where
  | declare
  | undeclare
  | unload (id : Nat)
  | tsetLoad (cluster num : Nat) (bytes : List Byte)
  | tsetUnload (cluster num : Nat)
  | regionDefine
  | regionFree (id : Nat)
  | regionClear (id : Nat)
  | bindApg (setup : List Byte)
  | peUnload (id : Nat)
  | lock (k : Nat)
  deriving DecidableEq, Repr

/-- A waiting descriptor, with the site or group its wait depends on. -/
structure Waiting where
  sq : Nat
  idx : Nat
  kind : WaitKind
  ent : Option Ent := none
  deriving DecidableEq, Repr

/-! ### Clocks, board and outputs (00, 02, 20, 22) -/

/-- What the chip sends out of itself, in order: the model's own record. -/
inductive Out where
  /-- bytes written to host memory -/
  | hostWrite (addr : Nat) (bytes : List Byte)
  /-- what a host read returned: offset in BAR0, or 2^21 plus the offset in BAR2, and value -/
  | readData (off : Nat) (v : W64)
  /-- an MSI-X message: its vector, and the address and data of its table entry -/
  | msix (vec addr data : Nat)
  /-- a block, express message or packet on a Paldel link, and the lanes that carry it: for traffic the lane of each of its blocks in order
  (R562), for a link-local block every lane on which it goes; a training burst has the bodies of its 64 TRAIN blocks as its fields -/
  | link (n : Nat) (p : PlPacket) (lanes : List Nat)
  /-- the answer of the SMBus target (R676) -/
  | smbus (bytes : List Byte)
  /-- a frame sent on a PE control port (R401, R425): cluster, data, bits, the idle time after it in ns, and whether PECS_N stays low through it -/
  | peFrame (cluster : Nat) (data nbits gap : Nat) (hold : Bool)
  /-- a SYNC_OUT pulse, a TRIG_OUT pulse start (R365, R738) -/
  | pulse (pin : Nat) (t : Nat)
  deriving DecidableEq, Repr

/-- Clock inputs and the calendar (R41-R59). -/
structure Clk where
  tref : Bool := false
  /-- the time-base PLL is locked -/
  pll : Bool := false
  lref : Bool := false
  pcieRef : Bool := false
  /-- the crystal runs; it advances DTIME from the release of COLD on (R51, R52) -/
  xtal : Bool := true
  /-- admission's TREF hold (R56) -/
  trefHold : Bool := false
  trefSince : Nat := 0
  lrefSince : Nat := 0
  /-- the links wait until LREF_OK has read 1 for 1 ms (R575) -/
  lrefHold : Bool := false
  calSec : Nat := 0
  /-- crystal cycles of the second counted up to DTIME `subAt` (R62) -/
  calSub : Nat := 0
  subAt : Nat := 0
  /-- DTIME of the last advance or load of CALSEC, or of the crystal's loss (R58, R59) -/
  calAt : Nat := 0
  /-- DTIME at which DTIME_STAT.COARSE was last cleared, or the crystal began to advance DTIME (R52, R61) -/
  coarseFrom : Nat := 0
  /-- deviation of each island's DTIME replica from the master (R53) -/
  replicas : List Int := List.replicate 30 0
  /-- start of the interval in which neither clock counts (R59) -/
  darkSince : Option Nat := none
  deriving DecidableEq, Repr

/-! ### Tasks, flow-core slots, locks, PE ports (12_flow_steps.md, 13_paddock_scheduler.md) -/

/-- An operation slot of a task (R408, R415): its result, and the outstanding operation, if any. -/
structure OpSlot where
  /-- 128 bytes (R409) -/
  res : List Byte := []
  busy : Bool := false
  /-- the 32 bytes of the step that issued it, with its index and flow -/
  step : List Byte := []
  stepIdx : Nat := 0
  flow : Nat := 0
  attempts : Nat := 0
  /-- DTIME at which the next attempt is issued (R422) -/
  retryAt : Option Nat := none
  /-- start checkpoint of the next attempt (R423) -/
  restart : Option Ckpt := none
  /-- result of the last attempt that ended while a retry is pending (R421) -/
  last : List Byte := []
  /-- an attempt of this burst has started vector 0 (R420) -/
  v0 : Bool := false
  deriving DecidableEq, Repr

/-- A task: its table entry (R452) and its context (R453). -/
structure Task where
  /-- R454: 1 READY, 2 SLOTTED, 3 RUNNING, 4 WAITING, 5 ENDING -/
  state : Nat := 1
  prio : Nat := 0
  siteId : Nat := 0xFFFF
  groupId : Nat := 0xFFFF
  flow : Nat
  step : Nat
  home : Nat := 0
  slot : Nat := 0xFF
  flags : Nat := 0
  wmask : Nat := 0
  wall : Bool := false
  /-- R452: 0 none, 1 WAIT_EVENT, 2 operation, 3 LOCK, 4 DELAY -/
  wkind : Nat := 0
  locks : Nat := 0
  readySeq : Nat := 0
  /-- 0: no timer runs -/
  wakeT : Nat := 0
  lost : Nat := 0
  steps : Nat := 0
  vars : List Nat := List.replicate 16 0
  res : List Byte := List.replicate 128 0
  ops : List OpSlot := List.replicate 4 {}
  /-- 8 bytes as a number -/
  lastErr : Nat := 0
  ctr : List Nat := [0, 0, 0, 0]
  logSeq : Nat := 0
  logAddr : Nat := 0
  logLen : Nat := 0
  stack : List (Nat × Nat) := []
  created : Nat := 0
  /-- the step at `step` has made its first commit, or has begun its wait (R444, R457) -/
  begun : Bool := false
  /-- the wait ended by its timer -/
  timedOut : Bool := false
  /-- FLAGS at the wake (R411) -/
  wakeFlags : Nat := 0
  /-- the lock granted to it had been abandoned (R466) -/
  lockAb : Bool := false
  /-- status of the remote acknowledgement of a SIGNAL (R438) -/
  ack : Option Nat := none
  /-- steps committed on the core since it took the task (R463) -/
  quantum : Nat := 0
  /-- END is due at the next step boundary with this status and qualifier (R468) -/
  abortAt : Option (Nat × Nat) := none
  /-- final status and qualifier mask, and EXIT_CODE, of a task that is ENDING (R436) -/
  fin : Option (Nat × Nat) := none
  exit : Nat := 0
  /-- the last step run: index and flow (R497) -/
  lastStep : Nat × Nat := (0, 0)
  /-- its TASK_END is in the device event queue -/
  posted : Bool := false
  /-- an ABORT_TASK that completes with the end: ring and index (R468) -/
  aborter : List (Nat × Nat) := []
  deriving DecidableEq, Repr

/-- A flow-core slot (R450). -/
structure FSlot where
  phys : Option Nat
  retired : Bool := false
  run : Option Nat := none
  buf : Option Nat := none
  /-- the buffered task's context has arrived (R461) -/
  fetched : Bool := false
  /-- a spare has taken over and is not in service yet (R469) -/
  settling : Bool := false
  /-- the core holds at a boundary for the buffered task's context (R462) -/
  hold : Bool := false
  deriving DecidableEq, Repr

/-- A request in a lock's queue (R466). -/
structure LockReq where
  prio : Nat
  who : Owner
  /-- DTIME at which a ring's request times out -/
  deadline : Option Nat := none
  deriving DecidableEq, Repr

/-- A lock (R466, R467). -/
structure Lock where
  owner : Option Owner := none
  abandoned : Bool := false
  queue : List LockReq := []
  deriving DecidableEq, Repr

/-- What a list on a PE port belongs to. -/
inductive PeUser where
  /-- SET_PE of a task -/
  | setPe (tid : Nat)
  /-- POWER_DUT of a task -/
  | power (tid : Nat)
  /-- PE_SETUP (false) or PE_RESTORE (true) of a CALIBRATE -/
  | calib (sq idx : Nat) (restore : Bool)
  /-- abandoned by its owner, and sent no further -/
  | orphan
  deriving DecidableEq, Repr

/-- A list queued on a PE port (R426). -/
structure PeItem where
  list : Nat
  user : PeUser
  /-- frames that are sent, where the list is cut short: by ABORT_OP or by an uncorrectable error (R421, R544) -/
  upto : Option Nat := none
  /-- the status of a list cut short -/
  st : Nat := 0
  deriving DecidableEq, Repr

/-- The PE control port of a cluster and the DUTPWR_EN output (R426, R429, R350). -/
structure PePort where
  queue : List PeItem := []
  /-- the list at the head of the queue is being sent, from this DTIME -/
  busy : Bool := false
  start : Nat := 0
  dutpwr : Bool := false
  /-- PECS_N is low between frames: the last one had HOLD_CS (R401, R425) -/
  cs : Bool := false
  deriving DecidableEq, Repr

/-- A POWER_DUT sequence (R429). -/
structure PowerSeq where
  tid : Nat
  on : Bool
  /-- CHECK_CHAIN, and the site's CHAIN_MASK -/
  chain : Nat
  mask : Nat := 0
  list : Nat
  settle : Nat
  clusters : List Nat
  /-- 0 list first, 1 settle, 2 list last -/
  phase : Nat
  /-- ports that have not sent the list yet -/
  left : List Nat
  enTime : Nat := 0
  settleEnd : Nat := 0
  aMax : Option Int := none
  tripped : Bool := false
  aEnd : Int := 0
  /-- the status with which it ends after the action in progress -/
  st : Nat := 0
  deriving DecidableEq, Repr

/-- An issue that found a PE queue full and waits for room (R426): the rest of the ports to queue on. -/
structure PeWait where
  cluster : Nat
  item : PeItem
  deriving DecidableEq, Repr

/-- The result of a SET_PE in progress: its ports, and frames and readbacks of the lowest port. -/
structure PeOp where
  tid : Nat
  left : List Nat
  lowest : Nat
  /-- the list it sends -/
  list : Nat := 0xFFFFFFFF
  frames : Nat := 0
  reads : List Nat := []
  st : Nat := 0
  deriving DecidableEq, Repr

/-- Paddock (R450-R473). -/
structure Paddock where
  tasks : List (Nat × Task) := []
  slots : List FSlot := []
  /-- physical cores that have failed -/
  failed : List Nat := []
  /-- the next READY_SEQ (R460) -/
  seq : Nat := 0
  locks : List Lock := List.replicate 32 {}
  peOps : List PeOp := []
  powers : List PowerSeq := []
  peWaits : List PeWait := []
  deriving DecidableEq, Repr

/-! ### Fuses, board table, faults, lifetime log -/

/-- A fused interpolator table of a meter (R392, R393, R399). -/
structure ImCal where
  posStart : List Nat := []
  posStop : List Nat := []
  offset : Nat := 0
  temp : Nat := 0
  crc : Nat := 0
  deriving DecidableEq, Repr

/-- What the fuses hold (R5, R399, R699, R700, R722). A fuse the spec gives no value holds 0. -/
structure Fuse where
  variant : Nat := 1
  rev : Nat := 1
  /-- KEY_HASH_0 to KEY_HASH_3, 48 bytes each -/
  keys : List (List Byte) := []
  revoke : Nat := 0
  minver : Nat := 0
  romId : Nat := 0
  imcal : List (Nat × ImCal) := []
  deriving DecidableEq, Repr

/-- A fault reported to the collector (R628, R631). -/
structure Report where
  src : Nat
  island : Nat
  unit : Nat
  detail : Nat
  t : Nat
  addr : Nat := 0
  req : Nat := 0xFF
  access : Nat := 0
  idkind : Nat := 0
  id : Nat := 0xFFFFFFFF
  off : Nat := 0
  /-- an address injection (R638) -/
  inj : Bool := false
  deriving DecidableEq, Repr

/-- A lifetime record in the queue (R680, R682). -/
structure LogRec where
  typ : Nat
  part : Nat := 0
  snap : Nat := 0
  dtime : Nat
  sec : Nat
  data : List Byte
  deriving DecidableEq, Repr

/-- The fault collector beside its registers (R630, R636). -/
structure Collector where
  /-- sources with an F hold -/
  holds : Nat := 0
  /-- conditions that hold: source, island, unit (R628) -/
  live : List (Nat × Nat × Nat) := []
  /-- faults on their way to the collector; empty between commands -/
  reports : List Report := []
  /-- an armed address injection: granule address, corrected (R638) -/
  armed : Option (Nat × Bool) := none
  /-- 0 Ballast is not engaged, 1 its sequence runs, 2 it is done (R643) -/
  ballast : Nat := 0
  deriving DecidableEq, Repr

/-- Power domains and BLOCK resets (R655-R659, R717). -/
structure Power where
  /-- bit d: domain d is on -/
  dom : Nat := 0x10000000000000000000000
  /-- islands under BLOCK reset, with the core for island 12 -/
  blk : List (Nat × Option Nat) := []
  /-- a BLOCK reset that the host asked for is among them (R724) -/
  blkHost : Bool := false
  /-- 0 awake, 1 entering, 2 in Lull, 3 waking (R691) -/
  lull : Nat := 0
  /-- a supply pause is in force (R194, R672) -/
  pause : Bool := false
  /-- bit r: rail r is below its warning threshold (R694) -/
  below : Nat := 0
  /-- the dips in progress: rail, DTIME of the first reading below warning (R671) -/
  dips : List (Nat × Nat) := []
  /-- DTIME since which every rail has been above it -/
  aboveSince : Nat := 0
  deriving DecidableEq, Repr

/-! ### Resets, boot and the board (20_boot_microcode_resets.md, 22_package_and_electrical.md) -/

/-- Where the chip stands between a reset and the end of its boot, and what the resets left for it (R702, R715-R720). -/
structure Rst where
  /-- a COLD, PIN or CHIP reset has happened and boot has not run since -/
  due : Bool := true
  /-- BOOT_STATUS.CAUSE of that reset (R721) -/
  cause : Nat := 1
  /-- memory is in self-refresh and its trained values are kept (R526) -/
  kept : Bool := false
  /-- the lifetime counters have not come from the log since the COLD reset that cleared them (R678, R685) -/
  reload : Bool := true
  /-- DTIME of DONE (R720) -/
  doneAt : Nat := 0
  /-- a supply reset whose HEALTH event waits for the boot: rail, lowest reading (R674) -/
  brownout : Option (Nat × Nat) := none
  /-- PWRGOOD is high; RESET_N is low (R746) -/
  pwrgood : Bool := false
  resetLow : Bool := true
  /-- the TAP's instruction (R739): 0 none of those that drive pins -/
  tap : Nat := 0
  /-- the patch RAM: words in force (R712) -/
  patch : List Nat := []
  deriving DecidableEq, Repr

/-- What the board table holds and no register does (R703), class P. -/
structure Board where
  identity : List Byte := []
  /-- crystal load, 0.25 pF units -/
  load : Nat := 0
  /-- MEMORY: 8 bytes per channel -/
  memory : List (List Byte) := []
  /-- safe lists: cluster and frames of R401 -/
  safe : List (Nat × List (List Byte)) := []
  /-- CAL_PATH: 192 delays, 0.5 ps units -/
  calPath : List Nat := []
  deriving DecidableEq, Repr

/-! ### Memory channels (15_device_memory.md) -/

/-- A memory channel beside its registers. -/
structure Mc where
  selfref : Bool := false
  /-- refresh multiplier M: 1, 2 or 4 (R539) -/
  mult : Nat := 1
  /-- MR4 calls for more than twice the base rate, or has not yet been below it for 10 ms (R527) -/
  hot : Bool := false
  /-- while hot: DTIME of the first poll since which MR4 has called for no more than twice the base rate -/
  cool : Option Nat := none
  owed : Int := 0
  nextBank : Nat := 0
  /-- a repair runs (R548) -/
  repair : Option (Nat × Nat) := none
  /-- fenced rows: bank, row (R549) -/
  fences : List (Nat × Nat) := []
  /-- repair candidates that wait (R547) -/
  pending : List (Nat × Nat) := []
  /-- banks with a PPR row left (R547) -/
  ppr : List Nat := []
  /-- the repairs that the lifetime log records agree with the rows the DRAM has left (R524) -/
  pprAgrees : Bool := true
  /-- corrected errors per row, at most 32 rows (R543) -/
  ceRows : List ((Nat × Nat) × Nat) := []
  /-- wait counters N of the requesters, by ID (R534) -/
  waits : List (Nat × Nat) := []
  /-- requesters at their limit, earliest first (R535) -/
  atLimit : List Nat := []
  prevForced : Bool := false
  /-- the requests that wait, in arrival order: the real-time queue and the write queue among them (R532, R541) -/
  queue : List ArbReq := []
  /-- DTIME at which the oldest real-time request reached the head of its queue (R532) -/
  rtAt : Nat := 0
  /-- the requester granted last -/
  grant : Option Nat := none
  /-- log entries in use, oldest first (R545) -/
  logOrder : List Nat := []
  /-- next granule of the scrub pass, in 64-byte units (R546) -/
  scrub : Nat := 0
  /-- DTIME since which no burst has needed the channel (R547) -/
  idleSince : Nat := 0
  /-- the oscillator and background ZQ commands it has run (R527) -/
  osc : Nat := 0
  zq : Nat := 0
  deriving DecidableEq, Repr

/-! ### Paldel links (16_paldel_links.md) and the mirror pair (17_mirror_pair.md) -/

/-- A lane of a link (R568, R569, R574). -/
structure Lane where
  /-- trained and locked -/
  locked : Bool := false
  /-- 0 primary, 1 alternate -/
  setting : Nat := 0
  /-- a training attempt runs -/
  training : Bool := false
  attemptAt : Nat := 0
  /-- consecutive whole training bursts received in this attempt -/
  bursts : Nat := 0
  /-- next INDEX expected of a TRAIN block -/
  idx : Nat := 0
  /-- DTIME of recent block errors, newest first -/
  errs : List Nat := []
  /-- R571: tracking held, and DTIME since which only IDLE and ALIGN have been received on the lane -/
  hold : Bool := false
  heardAt : Nat := 0
  /-- lost under R574 and retraining in the background (R577) -/
  lost : Bool := false
  /-- the LANE_REVIVE that retrains it (R578) -/
  revive : Option (Nat × Nat) := none
  deriving DecidableEq, Repr

/-- A width change in progress (R576). -/
structure WidthX where
  /-- lanes this end receives well -/
  mine : Nat
  token : Nat
  sends : Nat := 1
  sentAt : Nat
  /-- lanes agreed, with the DTIME of the agreement -/
  agreed : Option (Nat × Nat) := none
  deriving DecidableEq, Repr

/-- A link (R556-R577). -/
structure Link where
  /-- R592: 0 disabled, 1 training, 2 up, 3 electrical idle, 4 down, 5 role error -/
  state : Nat := 0
  lanes : List Lane := List.replicate 4 {}
  active : Nat := 0
  /-- next SEQ and ESEQ to send -/
  txSeq : Nat := 0
  txEseq : Nat := 0
  /-- SEQ and ESEQ expected -/
  rxSeq : Nat := 0
  rxEseq : Nat := 0
  replay : List PlPacket := []
  express : List PlPacket := []
  /-- traffic that waits for room in its replay buffer -/
  waitq : List PlPacket := []
  /-- received packets not acknowledged yet, since this DTIME -/
  unacked : Option Nat := none
  /-- a NAK has been sent for the gap at rxSeq; one for the gap at rxEseq (R564) -/
  naked : Bool := false
  nakedE : Bool := false
  width : Option WidthX := none
  /-- WIDTH tokens used -/
  token : Nat := 0
  /-- a rejoin that waits for a lane loss to be handled (R577) -/
  rejoin : Nat := 0
  /-- DTIME of recent losses of active lanes, with the lane -/
  losses : List (Nat × Nat) := []
  /-- DTIME since which only IDLE and ALIGN have been carried -/
  idleSince : Nat := 0
  /-- DTIME at which it went DOWN, or was last tried (R569) -/
  downAt : Nat := 0
  /-- ALIGN marker count sent, and DTIME of the last one (R562) -/
  marker : Nat := 0
  markerAt : Nat := 0
  /-- TIME (R586), 0.5 ps units: own last two sends, latest first; partner's last send and its receipt here -/
  sentT : List Nat := []
  recvT : Option (Nat × Nat) := none
  theta : Int := 0
  delay : Nat := 0
  timeAt : Option Nat := none
  deriving DecidableEq, Repr

/-- Ring alignment and the time scale (R586-R588). -/
structure RingT where
  aligned : Bool := false
  xoff : Int := 0
  /-- RING_ALIGN descriptors that wait for the passes -/
  descs : List (Nat × Nat) := []
  /-- the alignment is due but a multi-slice burst holds it -/
  due : Bool := false
  /-- passes run at position 0: 0 none, 1, 2 -/
  pass : Nat := 0
  /-- own cumulative offset of the first pass, and that received from upstream -/
  cum : Int := 0
  cumUp : Int := 0
  /-- a RING packet that waits for a multi-slice burst to end: pass, cumulative offset, lead -/
  held : Option (Nat × Int × Int) := none
  deriving DecidableEq, Repr

/-- A mirrored item (R609): its kind, its numbers and its bytes, in the model's own form. Kinds: 1 task, 2 lock, 3
checkpoint, 4 site result, 5 admission, 6 mapping and marks, 7 capture bytes, 8 express message, 9 DUTPWR_EN, 10 bounds of the
snapshot (0 its beginning, 1 its end), 11 join, 12 leave (0) or a join whose claim has failed (6), 13 switch (0 asked for, 1 handed
over, 2 done), 14 queue (0 full, 1 with room), 15 digest (none: unloaded), 16 an item left unprotected, or the end of its burst or
acquisition. -/
structure MItem where
  kind : Nat
  key : List Nat := []
  data : List Byte := []
  deriving DecidableEq, Repr

/-- What the standby keeps of a burst (R609). -/
structure ShadowBurst where
  ent : Ent
  tid : Nat
  obj : Nat
  mode : Nat := 0
  prio : Nat := 0
  /-- its last two mirrored checkpoints on each slice, latest first: slice and checkpoint -/
  ckpts : List (Nat × Ckpt) := []
  tag : Nat := 0
  /-- what the standby reserves for it on its own chip -/
  parts : List Part := []
  deriving DecidableEq, Repr

/-- The items that a site's burst or acquisition has left unprotected (R610): how many, and their range of vectors, or of DTIME for
the sample blocks of an acquisition. -/
structure Unprot where
  site : Nat
  acq : Bool
  items : Nat := 0
  first : Nat := 2 ^ 64 - 1
  last : Nat := 0
  deriving DecidableEq, Repr

/-- The mirror pair (R599-R622). -/
structure Pair where
  /-- R626: 0 none, 1 active, 2 standby, 3 solo -/
  role : Nat := 0
  /-- R606 -/
  state : Nat := 0
  peOwn : Bool := false
  /-- this chip drives PAIR_ACTIVE_N low -/
  drive : Bool := false
  /-- PARTNER_ACTIVE_N is low -/
  partner : Bool := false
  /-- a claim: 0 none, 1 waits for the partner's line to rise, 2 holds the guard, from this DTIME -/
  claim : Nat := 0
  claimAt : Nat := 0
  /-- what the claim is for: a host write (0), a takeover (1), a switch (2), a join (3) or a follower's switch (4) -/
  claimFor : Nat := 0
  /-- PARTNER_ACTIVE_N has been high since (R614) -/
  highSince : Option Nat := none
  /-- the pair has been PROTECTED since it was formed -/
  was : Bool := false
  /-- DTIME at which the standby saw PARTNER_ACTIVE_N rise -/
  roseAt : Nat := 0
  joins : List (Nat × Nat) := []
  switches : List (Nat × Nat) := []
  /-- what the partner said in its join: the fields R605 compares -/
  partnerJoin : Option (List Nat) := none
  /-- the standby's receive queue (R612) -/
  queue : List MItem := []
  /-- an item of which further packets are to come (R563) -/
  partial' : Option MItem := none
  /-- capture credit in bytes × 1,000, and its DTIME (R610) -/
  credit : Nat := 65536000
  creditT : Nat := 0
  /-- what the bursts and acquisitions in progress have left unprotected (R610) -/
  unprot : List Unprot := []
  /-- on the standby: site and vector of each capture record its partner left unprotected (R618) -/
  missing : List (Nat × Nat) := []
  /-- SEQ and production time of items sent and not acknowledged (R627) -/
  sent : List (Nat × Nat) := []
  mirrorT : Nat := 0
  /-- SEQ of the end of the snapshot in progress (R605) -/
  snapSeq : Option Nat := none
  /-- digests announced by the partner (R611) -/
  digests : List (Nat × List Byte) := []
  /-- objects not protected (R611) -/
  unprotObjs : List Nat := []
  /-- the standby's shadow: task entries and contexts, locks, bursts, DUTPWR_EN levels -/
  tasks : List (Nat × MItem) := []
  locks : List (Nat × List Nat) := []
  bursts : List ShadowBurst := []
  dutpwr : List (Nat × Nat) := []
  /-- the shadow mapping: site or group, blocked (2: no longer declared), slices; and objects marked LOST -/
  maps : List (Ent × Nat × List Nat) := []
  lostObjs : List Nat := []
  /-- the shadow site results, and express messages received by the partner -/
  results : List (Nat × List Byte) := []
  expressed : List (List Nat) := []
  /-- a follower switches with its partner (R621) -/
  following : Bool := false
  deriving DecidableEq, Repr

/-! ### APG units (09), ADC ports, filter chains, acquisitions, trigger units (10), interval meters (11) -/

/-- An APG unit: what it is bound to, its 1,024-byte setup block, its registers (R313-R319). -/
structure Apg where
  ent : Option Ent := none
  setup : List Byte := []
  regs : ApgRegs := {}
  retired : Bool := false
  deriving DecidableEq, Repr

/-- An ADC input port beside its registers (R340-R342). -/
structure Port where
  lock : Bool := false
  aligned : Bool := false
  aligning : Bool := false
  /-- measured frame period, ps -/
  period : Nat := 0
  /-- the latest FCLK edge, 250 ps units -/
  last : Option Nat := none
  deriving DecidableEq, Repr

/-- The open block of a chain's acquisition (R356). -/
structure Block where
  /-- stamp of the first interval, 250 ps units -/
  t : Nat := 0
  vec : Nat := 0xFFFFFFFFFFFF
  de : Nat := 0
  mm : Bool := false
  det : Nat := 0
  frozen : Bool := false
  reduced : Bool := false
  entries : List Nat := []
  deriving DecidableEq, Repr

/-- A filter chain beside its registers (R343-R350, R356-R358). Times are in 250 ps units. -/
structure FChain where
  /-- DC estimate, 24 fraction bits; none until the first sample after EN rises -/
  m : Option Int := none
  /-- a burst of its site runs: with FREEZE_BURST the DC estimate is held (R343) -/
  frozen : Bool := false
  /-- y of the last L samples, newest first -/
  win : List Int := []
  a : Int := 0
  /-- samples for which FILL still reads 1 -/
  fill : Nat := 0
  env : Nat := 0
  hiQuiet : Bool := false
  loQuiet : Bool := false
  /-- the interval in progress: samples, stamp, sum of squares, extremes, flags -/
  n : Nat := 0
  t0 : Nat := 0
  sq : Nat := 0
  lo : Int := 0
  hi : Int := 0
  sat : Bool := false
  fl : Bool := false
  hiX : Bool := false
  loX : Bool := false
  /-- a sample of the interval was taken with the DC block frozen -/
  fz : Bool := false
  /-- effective decimation exponent in force, and the one from the next interval -/
  de : Nat := 0
  deNext : Nat := 0
  /-- minimum-maximum reduction in force in this interval -/
  mm : Bool := false
  /-- ends of the power-up and recovery windows, DTIME ns -/
  powUntil : Option Nat := none
  recUntil : Option Nat := none
  /-- a trip whose recovery waits for DUTPWR_EN to rise -/
  tripped : Bool := false
  /-- phase of the test signal, 0 to 509 -/
  test : Nat := 0
  /-- the site whose acquisition runs on the chain -/
  acq : Option Nat := none
  /-- credit in bytes × 110,880,000, so that shares of k = 1 to 12 chains per 250 ps are whole, and its time -/
  credit : Int := 0
  creditT : Nat := 0
  blk : Option Block := none
  seq : Nat := 0
  gap : Bool := false
  deriving DecidableEq, Repr

/-- An acquisition (R351-R354). -/
structure Acq where
  site : Nat
  region : Nat
  chains : Nat
  withBurst : Bool
  duration : Nat
  start : Nat
  owner : Owner
  /-- DTIME of its set-up -/
  setAt : Nat := 0
  running : Bool := false
  startAt : Nat := 0
  /-- it stops once its blocks are written: status and DTIME -/
  stopAt : Option (Nat × Nat) := none
  blocks : Nat := 0
  maxDe : Nat := 0
  redFirst : Option Nat := none
  redLast : Option Nat := none
  qual : Nat := 0
  deriving DecidableEq, Repr

/-- A sample block in an engine's buffer (R359): region, site, chain, placed after the trigger, bytes. -/
structure SBlk where
  region : Nat
  site : Nat
  chain : Nat
  linear : Bool
  /-- its intervals, 0.5 ps: from, and up to -/
  t0 : Nat := 0
  t1 : Nat := 0
  bytes : List Byte
  deriving DecidableEq, Repr

/-- A trigger unit beside its registers (R360-R366). Times are in 0.5 ps units. -/
structure Trig where
  armed : Bool := false
  armedAt : Nat := 0
  /-- arrival of the event that opened a firing -/
  openAt : Option Nat := none
  /-- the arming that it opened under: stamps before it are no candidates (R364, R366) -/
  openArmed : Nat := 0
  /-- candidates: source and stamp -/
  cands : List (Nat × Nat) := []
  /-- t0 of the last firing, once there is one -/
  t0 : Option Nat := none
  /-- the last record (R367), once there is one -/
  fired : Option (List Byte) := none
  deriving DecidableEq, Repr

/-- An edge a meter has accepted: its time in sixteenths of an LSB of DTIME, whether it was sampled, and for a sampled edge
its tick and phase (R387). -/
structure MEdge where
  time : Nat
  sampled : Bool
  tick : Nat
  phase : Nat
  deriving DecidableEq, Repr

/-- An interval meter beside its registers (R377-R390). -/
structure Meter where
  /-- R396: 0 idle, 1 waits for T_arm, 2 for the start, 3 for the stop -/
  state : Nat := 0
  /-- bytes 16 to 39 of the descriptor (R380) -/
  cfg : List Byte := []
  owner : Owner := .nobody
  /-- DTIME of its set-up -/
  setAt : Nat := 0
  arm : Nat := 0
  first : Option MEdge := none
  stopE : Option MEdge := none
  /-- stop edges that came before the start of an unsigned measurement, oldest first -/
  early : List MEdge := []
  stops : Nat := 0
  /-- time of the last edge of each input, sixteenths -/
  lastStart : Option Nat := none
  lastStop : Option Nat := none
  /-- a supply dip has overlapped the measurement (R673) -/
  dip : Bool := false
  deriving DecidableEq, Repr

/-! ### The lifetime log (19_power_health_lifetime.md) -/

/-- A sector of the log in the flash: its header and the records programmed in it (R679). -/
structure Sector where
  seq : Nat
  erases : Nat
  recs : List (List Byte) := []
  deriving DecidableEq, Repr

/-- The lifetime counters (R678) and the log in the flash (R679-R685). -/
structure Life where
  powerOn : Nat := 0
  lull : Nat := 0
  unaccounted : Nat := 0
  boots : Nat := 0
  supplyResets : Nat := 0
  hist : List Nat := List.replicate 24 0
  /-- DRV transitions per channel -/
  chTrans : List Nat := List.replicate 192 0
  /-- RELAY frames per cluster -/
  relay : List Nat := List.replicate 12 0
  faults : List Nat := List.replicate 32 0
  /-- spare slices used per cluster, spare flow cores used, PPR rows used per channel -/
  spareSlices : List Nat := List.replicate 12 0
  spareCores : Nat := 0
  ppr : List Nat := List.replicate 8 0
  /-- the log in the flash: sector number and sector; a sector not listed is erased and has no header -/
  sectors : List (Nat × Sector) := []
  bad : List Nat := []
  /-- the current sector, once one is open -/
  cur : Option Nat := none
  /-- SEQ of the last record; number of the last snapshot, and the sectors that hold the latest complete one -/
  seq : Nat := 0
  snapId : Nat := 0
  snapIn : List Nat := []
  /-- sectors that hold the parts of the snapshot being written -/
  snapNew : List Nat := []
  /-- LOG_BASE and LOG_SECTORS of the running image (R679) -/
  base : Nat := 0
  size : Nat := 0
  /-- R696: 0 not started, 1 running, 2 failed -/
  state : Nat := 0
  /-- DTIME of the last second and of the last snapshot -/
  secAt : Nat := 0
  snapAt : Nat := 0
  /-- LIFE_FLUSH descriptors that wait, each with the number of its snapshot -/
  flushes : List (Nat × Nat × Nat) := []
  deriving DecidableEq, Repr

/-! ### The machine -/

/-- One cluster: what its five domains hold beside slices (R30). -/
structure Cluster where
  tsets : List (Nat × Tset) := []
  chans : List Chan := List.replicate 16 {}
  drift : Drift := {}
  cap : Capture := {}
  capS : List CapSlice := List.replicate 4 {}
  /-- physical slices 0 to 4 that have failed (R86) -/
  physBad : List Nat := []
  deriving DecidableEq, Repr

/-- The state of the block. -/
structure State where
  /-- the master count of DTIME, ns (R51) -/
  dtime : Nat
  /-- sixty-fourths of a ns while the crystal advances DTIME (R52) -/
  dfrac : Nat
  clk : Clk
  /-- the register file: BAR0 offset and value, rising offsets (R19) -/
  regs : List (Nat × W64)
  /-- a held low half: offset and value (R18) -/
  held : Option (Nat × W64)
  /-- the latched high halves of split reads: offset and value (R12) -/
  latch : List (Nat × W64)
  host : HostIf
  /-- device memory by 40-bit device address (R198), rising, no zero byte listed -/
  mem : List Host.Cell
  /-- granules that read as uncorrectable until a write covers them whole (R544), by device address -/
  bad : List Nat
  objs : List (Nat × Obj)
  loads : List Load
  sites : List (Nat × Site)
  groups : List (Nat × Group)
  /-- the 48 logical slices -/
  slices : List Slice
  bursts : List Burst
  arrivals : Nat
  /-- placement generation (R208) -/
  gen : Nat
  cache : List CacheEnt
  results : List (Nat × SiteRes)
  regions : List (Nat × Region)
  clusters : List Cluster
  calibs : List Calib
  waiting : List Waiting
  paddock : Paddock
  pe : List PePort
  fuse : Fuse
  collector : Collector
  logQ : List LogRec
  life : Life
  /-- filter chains and interval meters that have been retired (R89, R390), by global number -/
  chainsBad : List Nat
  metersBad : List Nat
  power : Power
  rst : Rst
  board : Board
  mcs : List Mc
  /-- the Paddock context area: base, bytes per channel and channels (R452, R533) -/
  ctxArea : Option (Nat × Nat × List Nat)

  links : List Link
  ringT : RingT
  pair : Pair

  apgs : List Apg
  ports : List Port
  chains : List FChain
  acqs : List Acq
  /-- the block buffers of the two filter engines (R359) -/
  sbufs : List (List SBlk)
  /-- trigger units by number (R360) -/
  trigs : List Trig
  /-- interval meters by global number -/
  meters : List Meter
  /-- events on their way to trigger units: trigger number, source bit, stamp in 0.5 ps (R363) -/
  trigEv : List (Nat × Nat × Nat)
  /-- ends of the TRIG_OUT pulses, DTIME ns (R365) -/
  trigOut : List (Option Nat)
  /-- what the chip has sent, oldest first: the model's own record -/
  out : List Out
  /-- how many free values have been drawn: the model's own counter -/
  freeCtr : Nat
  /-- the commands that wait, first in first out -/
  pending : List Instr
  deriving DecidableEq, Repr

/-- The machine right after the release of a COLD reset, before PWRGOOD and boot: every register at its reset value
(`regs` lists none), every memory undefined, nothing declared, loaded or running. -/
def State.reset : State :=
  { dtime := 0, dfrac := 0, clk := {}, regs := [], held := none, latch := [], host := {}, mem := [], bad := [],
    objs := [], loads := [], sites := [], groups := [],
    slices := (List.range 48).map (fun i => { phys := some (i % 4) }),
    bursts := [], arrivals := 0, gen := 0, cache := [], results := [], regions := [],
    clusters := List.replicate 12 {}, calibs := [], waiting := [],
    paddock := { slots := (List.range 16).map (fun i => { phys := some i }) }, pe := List.replicate 12 {},
    fuse := {}, collector := {}, logQ := [], life := {}, chainsBad := [], metersBad := [], power := {}, rst := {}, board := {},
    mcs := List.replicate 8 {}, ctxArea := none,

    links := List.replicate 4 {}, ringT := {}, pair := {},

    apgs := List.replicate 4 {}, ports := List.replicate 12 {}, chains := List.replicate 24 {}, acqs := [],
    sbufs := [[], []], trigs := List.replicate 96 {}, meters := List.replicate 48 {}, trigEv := [], trigOut := List.replicate 4 none,
    out := [], freeCtr := 0, pending := [] }

end Sys2Proof.Machine
end

