-- ==== Sys2Proof/Machine/Ops.lean ====
section
/-! DEFINITION. The shared operations: keyed lists, device memory, the register file, what a variant holds, and what the
chip sends out of itself: host writes, messages, events (R496-R507), completions (R493-R495), fault reports, lifetime
records. -/

namespace Sys2Proof.Machine

/-! ### Keyed lists: rising keys, no repeats -/

/-- The value under a key. -/
def kGet {α : Type} (l : List (Nat × α)) (k : Nat) : Option α := (l.find? (fun p => p.1 == k)).map (·.2)

/-- A list with a key set; keys stay rising. -/
def kSet {α : Type} : List (Nat × α) → Nat → α → List (Nat × α)
  | [], k, v => [(k, v)]
  | p :: r, k, v => if k < p.1 then (k, v) :: p :: r else if k = p.1 then (k, v) :: r else p :: kSet r k v

/-- A list without a key. -/
def kDel {α : Type} (l : List (Nat × α)) (k : Nat) : List (Nat × α) := l.filter (fun p => p.1 != k)

/-- A list with the value under a key changed. -/
def kUpd {α : Type} (l : List (Nat × α)) (k : Nat) (f : α → α) : List (Nat × α) :=
  l.map (fun p => if p.1 = k then (k, f p.2) else p)

/-- Whether a key is listed. -/
def kHas {α : Type} (l : List (Nat × α)) (k : Nat) : Bool := l.any (fun p => p.1 == k)

/-! ### Device memory (R198), a canonical list of nonzero bytes -/

/-- The byte at a device address; a byte nothing has written reads 0 (log entry 1). -/
def Memory.get (m : List Host.Cell) (a : Nat) : Byte := (kGet m a).getD 0

/-- Memory with one byte written. -/
def Memory.set (m : List Host.Cell) (a : Nat) (b : Byte) : List Host.Cell := if b = 0 then kDel m a else kSet m a b

/-- n bytes from an address. -/
def Memory.read (m : List Host.Cell) : Nat → Nat → List Byte
  | _, 0 => []
  | a, n + 1 => Memory.get m a :: Memory.read m (a + 1) n

/-- Memory with bytes written from an address. -/
def Memory.write (m : List Host.Cell) : Nat → List Byte → List Host.Cell
  | _, [] => m
  | a, b :: bs => Memory.write (Memory.set m a b) (a + 1) bs

/-- Memory with n bytes from an address zeroed. -/
def Memory.clear (m : List Host.Cell) (a n : Nat) : List Host.Cell := m.filter (fun c => c.1 < a || a + n ≤ c.1)

/-- Rising addresses, no zero byte listed. -/
def Memory.wf : List Host.Cell → Bool
  | [] => true
  | [c] => c.2 != 0
  | c :: d :: r => c.2 != 0 && c.1 < d.1 && Memory.wf (d :: r)

/-- The device address of a channel offset (R198). -/
def devAddr (ch off : Nat) : Nat := ch * 2 ^ 36 + off

/-- n bytes at a channel offset. -/
def State.memRead (s : State) (ch off n : Nat) : List Byte := Memory.read s.mem (devAddr ch off) n

/-- Bad granules left after a write of n bytes from an address: one covered whole has new check bytes (R530, R544). -/
def badAfter (l : List Nat) (a n : Nat) : List Nat := l.filter (fun g => !(a ≤ g && g + 64 ≤ a + n))

/-- Bytes written at a channel offset. -/
def State.memWrite (s : State) (ch off : Nat) (bs : List Byte) : State :=
  { s with mem := Memory.write s.mem (devAddr ch off) bs, bad := badAfter s.bad (devAddr ch off) bs.length }

/-- A range at a channel offset zeroed. -/
def State.memClear (s : State) (ch off n : Nat) : State :=
  { s with mem := Memory.clear s.mem (devAddr ch off) n, bad := badAfter s.bad (devAddr ch off) n }

/-! ### The register file -/

/-- The stored value of the register at an offset. -/
def State.reg (s : State) (off : Nat) : W64 := (kGet s.regs off).getD (regReset off)

/-- The state with a register stored. -/
def State.setReg (s : State) (off : Nat) (v : W64) : State := { s with regs := kSet s.regs off v }

/-- A stored field. -/
def State.rf (s : State) (f : RF) (idx : List Nat := []) : Nat := fget (s.reg (f.off idx)) f.lo f.w

/-- Whether a stored one-bit field is 1. -/
def State.rb (s : State) (f : RF) (idx : List Nat := []) : Bool := s.rf f idx == 1

/-- The state with a field stored. -/
def State.setRf (s : State) (f : RF) (idx : List Nat) (v : Nat) : State :=
  s.setReg (f.off idx) (fset (s.reg (f.off idx)) f.lo f.w v)

/-- The state with bits of a field set. -/
def State.orRf (s : State) (f : RF) (idx : List Nat) (m : Nat) : State := s.setRf f idx (s.rf f idx ||| m)

/-- The state with n added to a saturating counter field (R16). -/
def State.incRf (s : State) (f : RF) (idx : List Nat) (n : Nat := 1) : State :=
  s.setRf f idx (satAdd f.w (s.rf f idx) n)

/-! ### What a variant holds (R1, R2) -/

def State.d128 (s : State) : Bool := s.fuse.variant == 3
def State.d192x (s : State) : Bool := s.fuse.variant != 2 && s.fuse.variant != 3
/-- Clusters present. -/
def State.nCl (s : State) : Nat := if s.d128 then 8 else 12
/-- Memory channels present. -/
def State.nMc (s : State) : Nat := if s.d128 then 4 else 8
/-- Flow-core slots. -/
def State.nSlot (s : State) : Nat := if s.d128 then 8 else 16
/-- Physical flow cores. -/
def State.nCore (s : State) : Nat := if s.d128 then 9 else 18
/-- Filter chains present. -/
def State.nChain (s : State) : Nat := if s.d128 then 16 else 24
/-- APG units present. -/
def State.nApg (s : State) : Nat := if s.d192x then 4 else 0
/-- Interval meters per cluster. -/
def State.nMeter (s : State) : Nat := if s.d128 then 0 else 4
/-- Paldel link n is present. -/
def State.hasLink (s : State) (n : Nat) : Bool := (if s.d128 then 3 else if s.d192x then 15 else 11).testBit n
/-- The fault collector is present. -/
def State.hasColl (s : State) : Bool := !s.d128

/-- Memory channel m is usable (R6, R9). -/
def State.mcLive (s : State) (m : Nat) : Bool := m < s.nMc && (s.rf F.CAPS_LIVE_MC_LIVE).testBit m

/-- The usable memory channels, rising. -/
def State.liveChans (s : State) : List Nat := (List.range 8).filter s.mcLive

/-- The variant has no units in an island: its registers behave as R3 states (R1, R2, R729). -/
def State.islandAbsent (s : State) (k : Nat) : Bool :=
  if k < 12 then k ≥ s.nCl
  else if k < 13 then false
  else if k < 21 then k - 13 ≥ s.nMc
  else if k < 25 then !s.hasLink (k - 21)
  else if k < 27 then false
  else if k < 29 then !s.d192x
  else k ≠ 29

/-- Domain d is on (R658). -/
def State.domOn (s : State) (d : Nat) : Bool := s.power.dom.testBit d

/-- An island's units act: it is not under BLOCK reset, and the chip is awake (R717, R663). -/
def State.islUp (s : State) (i : Nat) : Bool := !s.power.blk.contains (i, none) && s.power.lull = 0

/-- A time of this chip's DTIME, 0.5 ps units, on its time scale, which vector starts and deskewed stamps follow (R587). -/
def State.scaled (s : State) (t : Nat) : Nat := ((t : Int) + s.ringT.xoff).toNat

/-- One placement change (R208). -/
def State.placementChanged (s : State) : State := { s with gen := s.gen + 1 }

/-! ### Slices and clusters -/

/-- Logical slice with global number g (R14). -/
def State.sl (s : State) (g : Nat) : Slice := s.slices.getD g { phys := none }

/-- The state with a logical slice changed. -/
def State.upSl (s : State) (g : Nat) (f : Slice → Slice) : State := { s with slices := s.slices.modify g f }

/-- The state with a slice's sequencer changed. -/
def State.upSeq (s : State) (g : Nat) (f : Seq → Seq) : State := s.upSl g (fun x => { x with seq := f x.seq })

/-- Cluster n. -/
def State.cl (s : State) (n : Nat) : Cluster := s.clusters.getD n {}

/-- Cluster n is an absent island (R31): the variant lacks it, or each of its slices, channels and meters has been retired. The units that
no rule retires, its ports, do not keep it present (log entry 29). -/
def State.clAbsent (s : State) (n : Nat) : Bool :=
  n ≥ s.nCl || ((List.range 4).all (fun i => (s.sl (4 * n + i)).retired) &&
    (List.range 16).all (fun c => ((s.cl n).chans.getD c {}).retired) && (List.range s.nMeter).all (fun i => s.metersBad.contains (4 * n + i)))

/-- Cluster n as a unit of CAPS_LIVE.CL_LIVE: the variant lacks it, or it has no slice left (R6, R9, R360; DEDUCED, log entry 29). -/
def State.clGone (s : State) (n : Nat) : Bool := n ≥ s.nCl || (List.range 4).all (fun i => (s.sl (4 * n + i)).retired)

/-- No APG unit is present: the variant has none, or each has been retired (R9, R274). -/
def State.apgAbsent (s : State) : Bool := (List.range s.nApg).all (fun k => (s.apgs.getD k {}).retired)

/-- Boot has completed: HOST_STAT.READY (R486, R702). -/
def State.bootDone (s : State) : Bool := s.rb F.BOOT_STATUS_DONE

/-- Every unit of domain d is absent: the variant lacks it, or it has been retired (R9, R656). -/
def State.domAbsent (s : State) (d : Nat) : Bool :=
  if d < 60 then s.clAbsent (d / 5)
  else if d < 76 then s.nSlot ≤ d - 60 || (s.paddock.slots.getD (d - 60) { phys := none }).retired
  else if d < 84 then s.nMc ≤ d - 76 || (s.bootDone && !s.mcLive (d - 76))
  else if d < 88 then !s.hasLink (d - 84)
  else if d < 89 then false
  else if d < 93 then s.nApg ≤ d - 89 || (s.apgs.getD (d - 89) {}).retired
  else if d < 95 then s.nChain ≤ 12 * (d - 93) || (List.range 12).all (fun i => s.chainsBad.contains (12 * (d - 93) + i))
  else !s.d192x || (s.bootDone && !s.rb F.CAPS_LIVE_TETHER_LIVE)

/-- The state with a cluster changed. -/
def State.upCl (s : State) (n : Nat) (f : Cluster → Cluster) : State := { s with clusters := s.clusters.modify n f }

/-! ### Time -/

/-- DTIME advances: the time-base PLL is locked, or the crystal runs (R52, R59). -/
def State.counts (s : State) : Bool := s.clk.pll || s.clk.xtal

/-- The state once DTIME has reached t; DTIME never decreases (R51), and stands while neither clock counts (R59). -/
def State.at (s : State) (t : Nat) : State := { s with dtime := if s.counts then max s.dtime t else s.dtime }

/-! ### Free values -/

/-- The state after one free value has been drawn. -/
def State.draw (s : State) : State := { s with freeCtr := s.freeCtr + 1 }

/-! ### Sensors -/

/-- Temperature reading of sensor k, 1/16 °C. -/
def State.temp (s : State) (k : Nat) : Int := toSigned 16 (s.rf (F.WS_TEMP_TEMP.at (k % 4)) [k / 4])

/-- The reading of rail r now: no command supplies it, so it is free (R669, log entry 3); there are 14 rails. -/
def State.railNow (s : State) (r : Nat) : Nat := if r < 14 then Config.freeValue (s.freeCtr + r) % 2 ^ 16 else 0

/-! ### Out of the chip -/

/-- The state after the chip has sent something. -/
def State.emit (s : State) (o : Out) : State := { s with out := s.out ++ [o] }

/-- MSI-X is enabled and neither the function mask nor the vector's mask bit is set (R506, R511). -/
def State.msiOpen (s : State) (v : Nat) : Bool :=
  s.host.pci.msixEn && !s.host.pci.msixMask && !(s.host.msix.getD v {}).masked

/-- Send an MSI-X message, or hold it pending while MSI-X is disabled or the vector is masked (R506, R511). -/
def State.msi (s : State) (v : Nat) : State :=
  if s.msiOpen v then s.emit (.msix v (s.host.msix.getD v {}).addr (s.host.msix.getD v {}).data)
  else { s with host := { s.host with pba := s.host.pba ||| 2 ^ v } }

/-- Pending messages whose vector is no longer masked are sent, in vector order. -/
def State.msiFlush (s : State) : State :=
  let vs := (bitList 64 s.host.pba).filter s.msiOpen
  vs.foldl (fun s v => s.msi v) { s with host := { s.host with pba := s.host.pba - (vs.map (2 ^ ·)).sum } }

/-- A host access: a link in L1 returns to L0 (R483). -/
def State.hostAccess (s : State) : State := { s with host := { s.host with l1 := false } }

/-- Device ID of the endpoint (R481). -/
def State.pciDevice (s : State) : Nat := if s.d192x then 0xD192 else if s.d128 then 0xD128 else 0xD193

/-- Class code of the endpoint (R481). -/
def pciClass : Nat := 0x118000

/-- Set a bit of HOST_ERR (0 RING to 5 EVT_DROP); a bit that becomes set sends vector 1 under ERR_IRQ (R506, R520). -/
def State.hostErr (s : State) (bit : Nat) (ring : Option Nat := none) : State :=
  let old := s.reg (F.HOST_ERR_RING.off [])
  let s1 := s.setReg (F.HOST_ERR_RING.off []) (fset old bit 1 1)
  let s2 := match ring with
    | some k => s1.setRf F.HOST_ERR_LAST_RING [] k
    | none => s1
  if fget old bit 1 = 0 && s.rb F.HOST_CTL_ERR_IRQ then s2.msi 1 else s2

/-- A write of a host buffer (R488): issued only while bus mastering is enabled; whether it was. -/
def State.hostWrite (s : State) (sq addr : Nat) (bs : List Byte) : State × Bool :=
  if s.host.pci.busMaster then (s.emit (.hostWrite addr bs), true) else (s.hostErr 3 (some sq), false)

/-! ### Rings -/

/-- Ring k. -/
def State.ring (s : State) (k : Nat) : Ring := s.host.rings.getD k {}

/-- The state with a ring changed. -/
def State.upRing (s : State) (k : Nat) (f : Ring → Ring) : State :=
  { s with host := { s.host with rings := s.host.rings.modify k f } }

/-- RING_k_CFG.EN. -/
def State.ringOn (s : State) (k : Nat) : Bool := s.rb F.RINGK_CFG_EN [k]

/-- Entries of ring k. -/
def State.ringSize (s : State) (k : Nat) : Nat := 2 ^ s.rf F.RINGK_CFG_SIZE_LOG2 [k]

/-- RING_k_STAT.ERR. -/
def State.ringErr (s : State) (k : Nat) : Bool := s.rb F.RINGK_STAT_ERR [k]

/-- Free entries of a ring the device writes: size - 1 less those the host has not consumed (R485). -/
def State.ringFree (s : State) (k : Nat) : Nat :=
  let n := s.ringSize k
  n - 1 - ((s.ring k).tail + n - (s.ring k).head) % n

/-- The event ring that takes type t (R498). -/
def State.evRoute (s : State) (t : Nat) : Option Nat :=
  ((List.range 16).map (· + 48)).find? (fun k => s.ringOn k && (s.rf F.RINGK_CFG_EVT_MASK [k]).testBit t)

/-- Whether events of a type are kept (R497). -/
def evKept (t : Nat) : Bool := t ≠ 2 && t ≠ 3 && t ≠ 4

/-- An event enters the device event queue, waits at its source, or is discarded (R498, R499). -/
def State.queueEvent (s : State) (e : Event) : State :=
  if evKept e.typ then
    if s.host.evq.length < 1024 && (s.evRoute e.typ).isSome then
      { s with host := { s.host with evq := s.host.evq ++ [e] } }
    else { s with host := { s.host with evWait := s.host.evWait ++ [e] } }
  else if s.host.evq.length < 768 && (s.evRoute e.typ).isSome then
    { s with host := { s.host with evq := s.host.evq ++ [e] } }
  else
    let s1 := (s.incRf F.HOST_EVT_DROPPED_COUNT []).hostErr 5
    { s1 with host := { s1.host with ovf := satAdd 32 s1.host.ovf 1 } }

/-- Kept events that wait enter the queue as room and a ring allow, in order; others stay. -/
def refillLoop (s : State) : List Event → State
  | [] => s
  | e :: r =>
    if s.host.evq.length < 1024 && (s.evRoute e.typ).isSome then
      refillLoop { s with host := { s.host with evq := s.host.evq ++ [e] } } r
    else refillLoop { s with host := { s.host with evWait := s.host.evWait ++ [e] } } r

/-- The queue after room or a ring has come free; discarded events are reported by an OVERFLOW event (R497). -/
def State.refill (s : State) : State :=
  let w := s.host.evWait
  let s1 := refillLoop { s with host := { s.host with evWait := [] } } w
  if s1.host.ovf > 0 then
    let n := s1.host.ovf
    { s1 with host := { s1.host with ovf := 0 } }.queueEvent { typ := 0x0C, aux := n, p2 := s1.dtime }
  else s1

/-- Put ring k in ERROR (R510). -/
def State.ringError (s : State) (k cause : Nat) : State :=
  (((s.setRf F.RINGK_STAT_ERR [k] 1).setRf F.RINGK_STAT_CAUSE [k] cause).hostErr 0 (some k)).queueEvent
    { typ := 0x0B, b2 := k, b3 := cause, p2 := s.dtime }

/-- Send ring k's message and reset its count and timer (R507). -/
def State.ringMsg (s : State) (k : Nat) : State :=
  (s.upRing k (fun r => { r with since := 0, oldest := none, due := none })).msi (s.rf F.RINGK_CFG_VEC [k])

/-- Write a 32-byte entry at TAIL of a completion or event ring (R502) and moderate its message (R507). -/
def State.ringWrite (s : State) (k : Nat) (bs : List Byte) (phaseAt : Nat) (irq : Bool) : State :=
  let r := s.ring k
  let n := s.ringSize k
  let bs1 := patch bs phaseAt [BitVec.ofNat 8 ((bs.getD phaseAt 0).toNat ||| r.phase)]
  let s1 := s.emit (.hostWrite (s.rf F.RING_BASE_ADDR [k] * 4096 + 32 * r.tail) bs1)
  let last := r.tail + 1 = n
  let old := r.oldest.getD s.dtime
  let us := s.rf F.RING_IRQ_TIME_US [k]
  let s2 := (s1.upRing k (fun r => { r with
    tail := if last then 0 else r.tail + 1, phase := if last then 1 - r.phase else r.phase,
    since := r.since + 1, oldest := some old, due := if us = 0 then none else some (old + 1000 * us) })).incRf F.RING_COUNT_ENTRIES [k]
  if s2.rb F.RINGK_CFG_IRQ_EN [k] && (irq || (s2.ring k).since ≥ max 1 (s2.rf F.RING_IRQ_COUNT_TH [k])) then s2.ringMsg k
  else s2

/-- The 32 bytes of an event, PHASE 0 (R496). -/
def Event.bytes (e : Event) : List Byte :=
  leBytes 1 e.typ ++ leBytes 1 0 ++ leBytes 1 e.b2 ++ leBytes 1 e.b3 ++ leBytes 4 e.aux ++ leBytes 8 e.p0 ++ leBytes 8 e.p1 ++
    leBytes 8 e.p2

/-! ### Descriptors in flight and completions -/

/-- What an operation ends with: the fields of a completion (R494, R495) and of a step result (R409). -/
structure Result where
  status : Nat
  qual : Nat := 0
  /-- REASON of a completion: DCHECK, admission reason, PCHECK, TCHECK, FCHECK -/
  reason : Nat := 0
  aux : Nat := 0
  val0 : Nat := 0
  val1 : Nat := 0
  /-- REASON of a step result: admission reason, FCHECK -/
  rreason : Nat := 0
  pcheck : Nat := 0
  obj : Nat := 0xFFFFFFFF
  stream : Nat := 0
  pcWhere : Nat := 0
  /-- bytes 32 to 127 of a step result (R411) -/
  body : List Byte := []
  deriving DecidableEq, Repr

/-- The 128 bytes of a step result (R409). -/
def Result.bytes (r : Result) (op stepIdx attempt dtime : Nat) : List Byte :=
  padTo (leBytes 1 r.status ++ leBytes 1 r.qual ++ leBytes 1 op ++ leBytes 1 r.rreason ++ leBytes 2 stepIdx ++
    leBytes 1 attempt ++ leBytes 1 r.pcheck ++ leBytes 4 r.obj ++ leBytes 1 r.stream ++ zeros 3 ++ leBytes 8 r.pcWhere ++
    leBytes 8 dtime ++ r.body) 128

/-- The descriptor in flight at a place of a ring. -/
def State.desc (s : State) (sq idx : Nat) : Option Desc := s.host.inflight.find? (fun d => d.sq == sq && d.idx == idx)

/-- OPCODE of a descriptor (R487). -/
def Desc.op (d : Desc) : Nat := fld d.bytes 0 1

/-- A LOAD_PATTERN, LOAD_FLOW or LOAD_PE_LIST. -/
def Desc.isLoad (d : Desc) : Bool := d.op = 0x08 || d.op = 0x30 || d.op = 0x32

/-- An UNLOAD_PATTERN, UNLOAD_FLOW or UNLOAD_PE_LIST. -/
def Desc.isUnload (d : Desc) : Bool := d.op = 0x09 || d.op = 0x31 || d.op = 0x33

/-- The kind of object that an unload frees. -/
def Desc.frees (d : Desc) : Option ObjKind :=
  if d.op = 0x09 then some .pattern else if d.op = 0x31 then some .flow else if d.op = 0x33 then some .peList else none

/-- The descriptor is an unload of the object of a kind with this ID (R130). -/
def Desc.unloads (d : Desc) (id : Nat) (k : ObjKind) : Bool := d.frees == some k && fld d.bytes 16 4 = id

/-- An accepted load, not begun yet, holds an object ID (R117, R129). -/
def Desc.claims (d : Desc) (id : Nat) : Bool := d.isLoad && !d.started && !d.loses && fld d.bytes 16 4 = id

/-- The state with a descriptor in flight changed. -/
def State.upDesc (s : State) (sq idx : Nat) (f : Desc → Desc) : State :=
  { s with host := { s.host with
      inflight := s.host.inflight.map (fun d => if d.sq = sq && d.idx = idx then f d else d) } }

/-- The state with a descriptor taken out of flight. -/
def State.dropDesc (s : State) (sq idx : Nat) : State :=
  { s with host := { s.host with inflight := s.host.inflight.filter (fun d => !(d.sq == sq && d.idx == idx)) } }

/-- Reservations held in completion ring k (R503, R516). -/
def State.reserved (s : State) (k : Nat) : Nat := (s.host.inflight.filter (fun d => d.cq == k)).length

/-- A completion ring whose disable waits takes EN = 0 once nothing is reserved in it (R508). -/
def State.closeRing (s : State) (k : Nat) : State :=
  if (s.ring k).closing && s.reserved k = 0 then
    (s.setRf F.RINGK_CFG_EN [k] 0).upRing k (fun r => { r with closing := false })
  else s

/-- The 32 bytes of a completion, PHASE 0 (R494). -/
def complBytes (d : Desc) (r : Result) (written : Bool) (sqHead : Nat) : List Byte :=
  slice d.bytes 4 4 ++ leBytes 1 d.op ++ leBytes 1 r.status ++ leBytes 1 r.qual ++ leBytes 1 r.reason ++ leBytes 1 d.sq ++
    leBytes 1 (if written then 2 else 0) ++ leBytes 2 sqHead ++ leBytes 2 d.idx ++ leBytes 1 r.aux ++ leBytes 1 0 ++
    leBytes 8 r.val0 ++ leBytes 8 r.val1

/-- The completion ring of a submission ring. -/
def State.cqOf (s : State) (k : Nat) : Nat := 32 + s.rf F.RINGK_CFG_CQ [k]

/-- Submission ring k meets R503. -/
def State.meets (s : State) (k : Nat) : Bool :=
  let q := s.cqOf k
  s.ringOn k && !s.ringErr k && (s.ring k).head ≠ (s.ring k).tail && s.host.inflight.length < s.rf F.HOST_CTL_INFLIGHT_MAX &&
    s.ringOn q && !(s.ring q).closing && s.reserved q < s.ringFree q

/-- From when each submission ring has met R503 (R504). -/
def State.noteMet (s : State) : State :=
  (List.range 32).foldl (fun s k => s.upRing k (fun r => { r with
    metSince := if s.meets k then some (r.metSince.getD s.dtime) else none })) s

/-- Complete a descriptor in flight: the result block (R493), then the completion entry (R494), then its message (R507). A
completion ring that has been reset takes nothing; one in ERROR is not written (R510). With one descriptor fewer in flight a submission
ring may begin to meet R503. -/
def State.complete (s : State) (sq idx : Nat) (r : Result) : State :=
  match s.desc sq idx with
  | none => s
  | some d =>
    let addr := fld d.bytes 8 8
    let (s1, written) :=
      if addr = 0 || r.reason = 0xE1 || r.reason = 0xE2 || r.reason = 0xE3 then (s, false)
      else s.hostWrite sq addr (r.bytes d.op 0xFFFF 1 s.dtime)
    let s2 := s1.dropDesc sq idx
    let s3 :=
      if !s2.ringOn d.cq || s2.ringErr d.cq then s2
      else if !s2.host.pci.busMaster then s2.ringError d.cq 3
      else s2.ringWrite d.cq (complBytes d r written (s2.ring sq).head) 9 ((fld d.bytes 1 1).testBit 1)
    (s3.closeRing d.cq).noteMet

/-- A descriptor completes with a status alone. -/
def State.finish (s : State) (sq idx status : Nat) : State := s.complete sq idx { status := status }

/-- Whether a descriptor may begin: it has not begun, and its FENCE holds nothing back (R505). -/
def State.mayBegin (_ : State) (d : Desc) : Bool :=
  !d.started && (!(fld d.bytes 1 1).testBit 0 || d.released)

/-- Carry out the descriptor at a place of a ring, if it is in flight there with this opcode and may begin. -/
def State.withDesc (s : State) (sq idx op : Nat) (f : Desc → State) : State :=
  match s.desc sq idx with
  | some d => if d.op = op && s.mayBegin d then f d else s
  | none => s

/-- The state once a descriptor has begun an operation that ends later. -/
def State.begin (s : State) (sq idx : Nat) : State := s.upDesc sq idx (fun d => { d with started := true })

/-- The bytes read from a host buffer that a body names: none where the read failed (R488). -/
def State.hostRead (s : State) (src : Option (List Byte)) : Option (List Byte) := if s.host.pci.busMaster then src else none

/-- A descriptor whose host read failed (R488). -/
def State.readFailed (s : State) (sq idx : Nat) : State :=
  (s.hostErr 2 (some sq)).complete sq idx { status := 0x31, reason := 0xE4 }

/-- A descriptor whose host write could not be issued (R488); HOST_ERR is already set. -/
def State.writeFailed (s : State) (sq idx : Nat) : State := s.complete sq idx { status := 0x31, reason := 0xE5 }

/-! ### Faults, lifetime records, health events -/

/-- Report a fault to the collector (R629). -/
def State.report (s : State) (src island unit detail : Nat) : State :=
  { s with collector := { s.collector with
      reports := s.collector.reports ++ [{ src := src, island := island, unit := unit, detail := detail, t := s.dtime }] } }

/-- Report a fault that a memory access met. -/
def State.reportAt (s : State) (r : Report) : State :=
  { s with collector := { s.collector with reports := s.collector.reports ++ [r] } }

/-- A condition source begins to hold (R628). -/
def State.condOn (s : State) (src island unit : Nat) : State :=
  if s.collector.live.contains (src, island, unit) then s
  else { s with collector := { s.collector with live := s.collector.live ++ [(src, island, unit)] } }

/-- A condition source no longer holds. -/
def State.condOff (s : State) (src island unit : Nat) : State :=
  { s with collector := { s.collector with live := s.collector.live.filter (· != (src, island, unit)) } }

/-- A condition begins: its onset is reported once (R628). -/
def State.onset (s : State) (src island unit detail : Nat) : State :=
  if s.collector.live.contains (src, island, unit) then s else (s.condOn src island unit).report src island unit detail

/-- Post a HEALTH event (R677). -/
def State.health (s : State) (sub b3 aux : Nat) (p0 p1 : Nat := 0) : State :=
  s.queueEvent { typ := 8, b2 := sub, b3 := b3, aux := aux, p0 := p0, p1 := p1, p2 := s.dtime }

/-- Records of the 64-record queue: those of a snapshot do not count (R681, R682). -/
def State.logQueued (s : State) : Nat := (s.logQ.filter (fun r => r.typ != 1)).length

/-- Queue a lifetime record; at a full queue it is dropped and counted (R682). -/
def State.log (s : State) (typ : Nat) (data : List Byte) : State :=
  if s.logQueued < 64 then
    { s with logQ := s.logQ ++ [{ typ := typ, dtime := s.dtime, sec := s.clk.calSec, data := padTo data 38 }] }
  else
    let s1 := s.incRf F.LIFE_STAT_DROPPED []
    s1.health 9 0 (s1.rf F.LIFE_STAT_DROPPED)

/-- Steps 1, 4 and 5 of a retirement (R688), once CAPS_LIVE has been changed: DEGRADED, the DEGRADED event, the RETIRE
record. `kind` is the unit kind of R497. -/
def State.degrade (s : State) (kind island unit : Nat) : State :=
  let s1 := s.setRf F.CAPS_LIVE_DEGRADED [] 1
  let caps := (s1.reg (F.CAPS_LIVE_CL_LIVE.off [])).toNat
  (s1.queueEvent { typ := 6, b2 := island, b3 := unit, aux := kind, p0 := caps, p2 := s.dtime }).log 3
    (leBytes 1 kind ++ leBytes 1 island ++ leBytes 1 unit ++ leBytes 8 caps)

/-- A spare has been used: the SPARE record (R688). -/
def State.spared (s : State) (kind island unit spare : Nat) : State :=
  s.log 4 (leBytes 1 kind ++ leBytes 1 island ++ leBytes 1 unit ++ leBytes 1 spare)

end Sys2Proof.Machine
end

