-- ==== Sys2Proof/Machine/RegOps.lean ====
section
/-! DEFINITION. Writes of registers by the rules of their fields (R19, R21), and the clearing of retention classes (R22). -/

namespace Sys2Proof.Machine

/-- A write of x to a field that holds `old` (R19): RW takes x where the spec allows it, W1C clears and W1S sets the bits of x. -/
def Fld.write (f : Fld) (old x : Nat) : Nat :=
  match f.acc with
  | .rw => match f.ok with
    | some (lo, hi) => if lo ≤ x && x ≤ hi then x else old
    | none => x
  | .w1c => old - (old &&& x)
  | .w1s => old ||| x
  | _ => old

/-- A write of a whole register value. -/
def Row.write (r : Row) (old v : Nat) : Nat :=
  (r.flds.flatMap Fld.spread).foldl (fun a f => setBits a f.lo f.w (f.write (bitsOf old f.lo f.w) (bitsOf v f.lo f.w))) old

/-- The state after a write of the register at an offset by the rules of its fields. -/
def State.writeFields (s : State) (off : Nat) (v : W64) : State :=
  match findReg off with
  | some (r, _) => s.setReg off (BitVec.ofNat 64 (r.write (s.reg off).toNat v.toNat))
  | none => s

/-- A register value with the fields of the classes `p` names back at their reset values. -/
def Row.clear (r : Row) (is : List Nat) (p : Cls → Bool) (old : Nat) : Nat :=
  let z := resetWord r is
  (r.flds.flatMap Fld.spread).foldl (fun a f => if p f.cls then setBits a f.lo f.w (bitsOf z f.lo f.w) else a) old

/-- The register file with fields of classes `p` cleared, in the registers that `q` selects (R22). -/
def State.clearRegs (s : State) (p : Cls → Bool) (q : Row → List Nat → Bool) : State :=
  { s with regs := s.regs.map (fun k => match findReg k.1 with
    | some (r, is) => if q r is then (k.1, BitVec.ofNat 64 (r.clear is p k.2.toNat)) else k
    | none => k) }

/-! ### Host accesses to registers (R3, R50, R666, R706, R707, R727-R730) -/

/-- The register belongs to a unit that the variant does not have (R3, R730). -/
def State.regAbsent (s : State) (r : Row) (is : List Nat) : Bool :=
  let i := is.headD 0
  s.islandAbsent (r.isl.1 + r.isl.2 * i) ||
  match r.reg with
  | .clImtrCtl | .clImtrStat | .clImtrRes | .clImtrTstart | .clImtrTstop | .clImtrCount | .clImcal | .clImcalInfo => s.d128
  | .pairCtl | .pairStat => !s.d192x
  | .fchainCtl | .fchainThr | .fchainStat | .fchainOut => 12 * i + is.getD 1 0 ≥ s.nChain
  | .fcSlotStat | .fcSteps => i ≥ s.nCore
  | .paddockSlotmap => i = 1 && s.d128
  | .fltCtl | .fltStat | .fltLive | .fltTrap | .fltReact | .fltCnt | .fltInjCtl | .fltInjAddr | .fltInjStat | .fltRec | .ballastT =>
    !s.hasColl
  | .islFlt | .islFltT => s.islandAbsent i
  | _ => false

/-- The register's island is out of reset and its power domain is on (R727); those of island 12 answer while a slot domain is on. -/
def State.regPowered (s : State) (r : Row) (is : List Nat) : Bool :=
  let i := is.headD 0
  let k := r.isl.1 + r.isl.2 * i
  !s.power.blk.contains (k, none) && (r.dom.all (fun d => s.domOn (d.1 + d.2 * i))) &&
    (k ≠ 12 || (List.range 16).any (fun j => s.domOn (60 + j)))

/-- The register answers in the minimal state and until boot is done (R706, R707): reads of the identity block, the fault
collector, Windsock and 0xE000 to 0xEFFF, and RST_CTL and RST_STAT; writes of RST_CTL alone. -/
def bootAnswers (r : Reg) (off : Nat) (write : Bool) : Bool :=
  if write then r == .rstCtl
  else off < 0x1000 || (0x2000 ≤ off && off < 0x4000) || (0xE000 ≤ off && off < 0xF000) || r == .rstCtl || r == .rstStat

/-- The register lies outside the islands that run through Lull (R666). -/
def Row.sleeps (r : Row) : Bool := r.isl.1 ≠ 25 && r.isl.1 ≠ 29

/-- The register answers a host access. -/
def State.answers (s : State) (r : Row) (is : List Nat) (off : Nat) (write : Bool) : Bool :=
  !s.regAbsent r is && s.regPowered r is && (s.bootDone || bootAnswers r.reg off write) && !(s.power.lull ≠ 0 && r.sleeps)

/-- A write of a whole register: what it does where the register answers, else it is discarded, and in Lull noted in ACC (R666).
A held low half ends with it (R18), and so does L1 (R483). -/
def State.busWrite (s : State) (off : Nat) (f : State → State) : State :=
  let s1 := { s with held := none }.hostAccess
  match findReg off with
  | none => s1
  | some (r, is) =>
    if s.answers r is off true then f s1
    else if s.power.lull ≠ 0 && r.sleeps && !s.regAbsent r is then s1.setRf F.LULL_STAT_ACC [] 1
    else s1

end Sys2Proof.Machine
end

