-- ==== Sys2Proof/Machine/Sha.lean ====
section
/-! DEFINITION. SHA-384, the digest that R116, R600 and R701 name. Its constants are computed from what they are, fractional parts of
square and cube roots of primes. -/

namespace Sys2Proof.Machine

/-! ### Constants -/

/-- The first 80 primes. -/
def shaPrimes : List Nat :=
  [2, 3, 5, 7, 11, 13, 17, 19, 23, 29, 31, 37, 41, 43, 47, 53, 59, 61, 67, 71] ++
  [73, 79, 83, 89, 97, 101, 103, 107, 109, 113, 127, 131, 137, 139, 149, 151, 157, 163, 167, 173] ++
  [179, 181, 191, 193, 197, 199, 211, 223, 227, 229, 233, 239, 241, 251, 257, 263, 269, 271, 277, 281] ++
  [283, 293, 307, 311, 313, 317, 331, 337, 347, 349, 353, 359, 367, 373, 379, 383, 389, 397, 401, 409]

/-- The greatest number, of no more than n bits above those of x, whose k-th power is at most m. -/
def rootBelow (k m : Nat) : Nat → Nat → Nat
  | 0, x => x
  | n + 1, x => rootBelow k m n (if (x + 2 ^ n) ^ k ≤ m then x + 2 ^ n else x)

/-- The first 64 bits of the fractional part of the k-th root of p. -/
def rootFraction (k p : Nat) : W64 := BitVec.ofNat 64 (rootBelow k (p * 2 ^ (64 * k)) 69 0)

/-- The hash value before the first block: square roots of primes 9 to 16. -/
def shaStart : List W64 := ((shaPrimes.drop 8).take 8).map (rootFraction 2)

/-- The constants of the 80 rounds: cube roots. -/
def shaConstants : List W64 := shaPrimes.map (rootFraction 3)

/-! ### One block -/

/-- Three rotations of a word, combined. -/
def turns (x : W64) (i j k : Nat) : W64 := x.rotateRight i ^^^ x.rotateRight j ^^^ x.rotateRight k

/-- Two rotations and a shift of a word, combined. -/
def slides (x : W64) (i j k : Nat) : W64 := x.rotateRight i ^^^ x.rotateRight j ^^^ (x >>> k)

/-- One round on the eight working words; `kw` is the sum of its constant and its message word. -/
def shaRound (kw : W64) : List W64 → List W64
  | [a, b, c, d, e, f, g, h] =>
    let t := kw + h + turns e 14 18 41 + (g ^^^ (e &&& (f ^^^ g)))
    [t + turns a 28 34 39 + ((a &&& b) ||| (c &&& (a ||| b))), a, b, c, d + t, e, f, g]
  | r => r

/-- The rounds for a list of constants; the window holds the next 16 message words, the oldest first. -/
def shaRounds : List W64 → List W64 → List W64 → List W64
  | [], _, r => r
  | k :: ks, win, r =>
    let next := win.getD 0 0 + slides (win.getD 1 0) 1 8 7 + win.getD 9 0 + slides (win.getD 14 0) 19 61 6
    shaRounds ks (win.tail ++ [next]) (shaRound (k + win.headD 0) r)

/-- A number from bytes, the most significant first. -/
def beNat (l : List Byte) : Nat := l.foldl (fun n b => 256 * n + b.toNat) 0

/-- The 64-bit words of 128 bytes, each with its most significant byte first. -/
def shaWords (block : List Byte) : List W64 :=
  (List.range 16).map (fun i => BitVec.ofNat 64 (beNat ((block.drop (8 * i)).take 8)))

/-! ### The digest -/

/-- The hash value after n further blocks of a message. -/
def shaBlocks : Nat → List Byte → List W64 → List W64
  | 0, _, hs => hs
  | n + 1, m, hs => shaBlocks n (m.drop 128) (List.zipWith (· + ·) hs (shaRounds shaConstants (shaWords (m.take 128)) hs))

/-- The SHA-384 digest of a byte list, 48 bytes in output order. -/
def sha384 (l : List Byte) : List Byte :=
  let gap := (239 - l.length % 128) % 128
  let m := l ++ 0x80 :: (zeros gap ++ (leBytes 16 (8 * l.length)).reverse)
  ((shaBlocks (m.length / 128) m shaStart).take 6).flatMap (fun w => (leBytes 8 w.toNat).reverse)

end Sys2Proof.Machine
end

