-- ==== Sys2Proof/Machine/Pattern.lean ====
section
/-! DEFINITION. The pattern object (04_pattern_objects.md): header, sections, directories, the token decoder of R111
and R112, and the load and deep checks of R124. An object is read through a byte reader, so the same definitions serve
the bytes of a load and the bytes in device memory. -/

namespace Sys2Proof.Machine

/-- A reader of an object's bytes: the value of the byte at an object offset. -/
abbrev Rd := Nat → Nat

/-- The reader of a byte list. -/
def rdList (l : List Byte) : Rd := fun i => (l.getD i 0).toNat

/-- Little-endian value of n bytes at an offset. -/
def Rd.le (rd : Rd) : Nat → Nat → Nat
  | 0, _ => 0
  | n + 1, off => rd off + 256 * Rd.le rd n (off + 1)

/-- Whether the n bytes at an offset all equal v. -/
def Rd.allEq (rd : Rd) (v : Nat) : Nat → Nat → Bool
  | 0, _ => true
  | n + 1, off => rd off == v && Rd.allEq rd v n (off + 1)

/-- Offset of the first byte of [off, off+n) that differs from v. -/
def Rd.firstNe (rd : Rd) (v : Nat) : Nat → Nat → Option Nat
  | 0, _ => none
  | n + 1, off => if rd off == v then Rd.firstNe rd v n (off + 1) else some off

/-- The header fields the device uses (R99). -/
structure Hdr where
  flags : Nat
  objSize : Nat
  nPins : Nat
  nStream : Nat
  nScan : Nat
  nRes : Nat
  nLines : Nat
  nBlocks : Nat
  nvs : Nat
  nInstr : Nat
  nLoops : Nat
  tsetMax : Nat
  muxMask : Nat
  /-- OFF and SIZE of INDEX, LOOP, RESUME, INSTR, DICT, STREAM, SCAN, DIGEST (R96) -/
  sec : List (Nat × Nat)
  deriving DecidableEq, Repr

/-- The header of an object (R99). -/
def hdrOf (rd : Rd) : Hdr :=
  { flags := rd.le 4 12, objSize := rd.le 8 16, nPins := rd.le 2 24, nStream := rd.le 2 26, nScan := rd.le 2 28,
    nRes := rd.le 2 30, nLines := rd.le 4 32, nBlocks := rd.le 4 36, nvs := rd.le 8 40, nInstr := rd.le 4 48,
    nLoops := rd.le 2 52, tsetMax := rd 54, muxMask := rd 55,
    sec := (List.range 8).map (fun i => (rd.le 8 (64 + 16 * i), rd.le 8 (72 + 16 * i))) }

def Hdr.off (h : Hdr) (i : Nat) : Nat := (h.sec.getD i (0, 0)).1
def Hdr.size (h : Hdr) (i : Nat) : Nat := (h.sec.getD i (0, 0)).2
def Hdr.resumable (h : Hdr) : Bool := h.flags.testBit 0
def Hdr.apg (h : Hdr) : Bool := h.flags.testBit 1
def Hdr.staticLen (h : Hdr) : Bool := h.flags.testBit 3
def Hdr.match? (h : Hdr) : Bool := h.flags.testBit 4
/-- Size of a block-index entry (R100). -/
def Hdr.entrySize (h : Hdr) : Nat := 32 + 8 * ((h.nStream + 1) / 2)
/-- Size of a resume-point entry (R104). -/
def Hdr.rpSize (h : Hdr) : Nat := 160 + 8 * h.nScan

/-- A block-index entry (R101). -/
structure BlkEnt where
  lines : Nat
  mux : Nat
  bflags : Nat
  avg : Nat
  peak : Nat
  peakNc : Nat
  dataBytes : Nat
  deriving DecidableEq, Repr

/-- The index entry of block k (R101). -/
def blkEnt (rd : Rd) (h : Hdr) (k : Nat) : BlkEnt :=
  let o := h.off 0 + k * h.entrySize
  { lines := rd.le 4 o, mux := rd (o + 4), bflags := rd (o + 5), avg := rd.le 4 (o + 8), peak := rd.le 4 (o + 12),
    peakNc := rd.le 4 (o + 16), dataBytes := rd.le 4 (o + 20) }

/-- OFF and SIZE of stream j within the STREAM section (R110). -/
def streamDir (rd : Rd) (h : Hdr) (j : Nat) : Nat × Nat :=
  (rd.le 8 (h.off 5 + 16 * j), rd.le 8 (h.off 5 + 16 * j + 8))

/-- SOFF of block k in stream j, and the stream's SIZE for k = NBLOCKS (R101). -/
def soff (rd : Rd) (h : Hdr) (k j : Nat) : Nat :=
  if k < h.nBlocks then rd.le 4 (h.off 0 + k * h.entrySize + 32 + 4 * j) else (streamDir rd h j).2

/-- OFF and SIZE of the dictionary of stream j (R108). -/
def dictDir (rd : Rd) (h : Hdr) (j : Nat) : Nat × Nat :=
  (rd.le 4 (h.off 4 + 8 * j), rd.le 4 (h.off 4 + 8 * j + 4))

/-- The phrase of entry e in the dictionary of stream j, or none (R109). -/
def phrase (rd : Rd) (h : Hdr) (j e : Nat) : Option (List Nat) :=
  let d := dictDir rd h j
  let o := h.off 4 + d.1
  let nent := rd.le 2 o
  if d.2 = 0 ∨ nent ≤ e then none
  else
    let w := rd.le 4 (o + 8 + 4 * e)
    let pool := o + 8 + 4 * nent
    some ((List.range (bitsOf w 20 4 + 1)).map (fun i => rd.le 2 (pool + 2 * (bitsOf w 0 20 + i))))

/-- Fields of a scan-table entry (R114): pin, kind, offset, bits. -/
structure ScanEnt where
  pin : Nat
  kind : Nat
  off : Nat
  nbits : Nat
  deriving DecidableEq, Repr

/-- Scan-table entry i (R114). -/
def scanEnt (rd : Rd) (h : Hdr) (i : Nat) : ScanEnt :=
  let o := h.off 6 + 32 * i
  { pin := rd.le 2 o, kind := rd (o + 2), off := rd.le 8 (o + 8), nbits := rd.le 8 (o + 16) }

/-- The number of the scan stream of a pin and kind (0 source, 1 expect), if the object has one (R113). -/
def scanIdx (rd : Rd) (h : Hdr) (pin kind : Nat) : Option Nat :=
  (List.range h.nScan).find? (fun i => (scanEnt rd h i).pin == pin && (scanEnt rd h i).kind == kind)

/-- Bit b of scan stream i (R115). -/
def scanBit (rd : Rd) (h : Hdr) (i b : Nat) : Nat :=
  bitsOf (rd (h.off 6 + (scanEnt rd h i).off + b / 8)) (b % 8) 1

/-- A resume-point entry (R104). -/
structure RpEnt where
  id : Nat
  instr : Nat
  block : Nat
  tset : Nat
  mux : Nat
  vec : Nat
  apgOff : Nat
  deriving DecidableEq, Repr

/-- Resume-point entry i (R104). -/
def rpEnt (rd : Rd) (h : Hdr) (i : Nat) : RpEnt :=
  let o := h.off 2 + i * h.rpSize
  { id := rd.le 4 o, instr := rd.le 4 (o + 4), block := rd.le 4 (o + 8), tset := rd (o + 12), mux := rd (o + 13),
    vec := rd.le 8 (o + 16), apgOff := rd.le 4 (o + 24) }

/-- Previous drive of pin p in resume-point entry i (R104). -/
def rpDrive (rd : Rd) (h : Hdr) (i p : Nat) : Nat :=
  bitsOf (rd (h.off 2 + i * h.rpSize + 32 + p / 4)) (2 * (p % 4)) 2

/-- Position of scan stream k in resume-point entry i (R104). -/
def rpScan (rd : Rd) (h : Hdr) (i k : Nat) : Nat := rd.le 8 (h.off 2 + i * h.rpSize + 160 + 8 * k)

/-- FIRST_LINE, LAST_LINE, ITER and BYTES of loop-table entry i (R103). -/
def loopEnt (rd : Rd) (h : Hdr) (i : Nat) : Nat × Nat × Nat × Nat :=
  let o := h.off 1 + 16 * i
  (rd.le 4 o, rd.le 4 (o + 4), rd.le 4 (o + 8), rd.le 4 (o + 12))

/-- Instruction word i (R107). -/
def instrWord (rd : Rd) (h : Hdr) (i : Nat) : Nat := rd.le 8 (h.off 3 + 8 * i)

/-! ### Tokens -/

/-- A decoded group word: its value, the object offset of its token, and whether it is the token's first word. -/
structure GW where
  val : Nat
  tok : Nat
  head : Bool
  deriving DecidableEq, Repr

/-- What a block of a stream decodes to: its words in order, and the first structural fault with its object offset (R112).
The fault of leftover bytes comes with all words present. -/
structure Dec where
  words : List GW
  fault : Option (Nat × Nat)
  deriving DecidableEq, Repr

/-- The words of a token that lies at offset `pos`, from their values. -/
def tokenWords (pos : Nat) : List Nat → List GW
  | [] => []
  | v :: vs => { val := v, tok := pos, head := true } :: vs.map (fun x => { val := x, tok := pos, head := false })

/-- Length in bytes of the token that begins with byte b (second byte c), or none for a reserved first byte (R111). -/
def tokenLen (b c : Nat) : Option Nat :=
  if b < 0xC0 then some 1 else if b < 0xE0 then some 2 else if b = 0xE0 then some 3
  else if b = 0xE1 then some (2 + 2 * (c + 1)) else if b = 0xE2 then some 4 else if b = 0xE3 then some 3 else none

/-- The words a token at `pos` emits, after the last emitted word `last`, or the check code it fails (R111, R112). -/
def tokenEmit (rd : Rd) (ph : Nat → Option (List Nat)) (pos : Nat) (last : Option Nat) : Except Nat (List Nat) :=
  let b := rd pos
  let c := rd (pos + 1)
  let again (n : Nat) : Except Nat (List Nat) := match last with
    | none => .error 0x22
    | some w => .ok (List.replicate n w)
  let dict (e : Nat) : Except Nat (List Nat) := match ph e with
    | none => .error 0x21
    | some l => .ok l
  if b < 0x80 then dict b
  else if b < 0xC0 then again (b - 0x80 + 1)
  else if b < 0xD0 then dict ((b - 0xC0) * 256 + c)
  else if b < 0xE0 then again ((b - 0xD0) * 256 + c + 65)
  else if b = 0xE0 then .ok [rd.le 2 (pos + 1)]
  else if b = 0xE1 then .ok ((List.range (c + 1)).map (fun i => rd.le 2 (pos + 2 + 2 * i)))
  else if b = 0xE2 then .ok (List.replicate (c + 1) (rd.le 2 (pos + 2)))
  else if b = 0xE3 then again (rd.le 2 (pos + 1) + 1)
  else .error 0x20

/-- Decodes tokens from `pos` to `stop` until `need` words are out (R112). Fuel bounds the tokens. Nothing after a block's first faulty
token is decoded or checked (DESIGN CHOICE, log entry 37). -/
def decodeToks (rd : Rd) (ph : Nat → Option (List Nat)) (stop : Nat) : Nat → Nat → Nat → Option Nat → List GW → Dec
  | 0, _, _, _, acc => { words := acc.reverse, fault := none }
  | fuel + 1, pos, need, last, acc =>
    if need = 0 then
      { words := acc.reverse, fault := if pos < stop then some (0x23, pos) else none }
    else if stop ≤ pos then { words := acc.reverse, fault := some (0x23, stop) }
    else
      match tokenLen (rd pos) (rd (pos + 1)) with
      | none => { words := acc.reverse, fault := some (0x20, pos) }
      | some len =>
        match tokenEmit rd ph pos last with
        | .error e => { words := acc.reverse, fault := some (e, pos) }
        | .ok ws =>
          if stop < pos + len ∨ need < ws.length then { words := acc.reverse, fault := some (0x23, pos) }
          else decodeToks rd ph stop fuel (pos + len) (need - ws.length) (ws.getLast?.or last)
                 ((tokenWords pos ws).reverse ++ acc)

/-- Block k of stream j, decoded (R112). -/
def decodeBlock (rd : Rd) (h : Hdr) (k j : Nat) : Dec :=
  let e := blkEnt rd h k
  let base := h.off 5 + (streamDir rd h j).1
  let a := base + soff rd h k j
  let b := base + soff rd h (k + 1) j
  decodeToks rd (phrase rd h j) b (b - a + 1) a (e.lines * e.mux) none []

/-- The group word of a line and beat in stream j, or the check it fails (R128). -/
def lineWord (rd : Rd) (h : Hdr) (j line beat : Nat) : Except Nat GW :=
  let k := line / 4096
  let d := decodeBlock rd h k j
  match d.words[(line % 4096) * (blkEnt rd h k).mux + beat]? with
  | some w => .ok w
  | none => .error (match d.fault with | some f => f.1 | none => 0x23)

/-- Whether a line begins on a token boundary in stream j (R143, R144, R157); a block's first line always does. -/
def atBoundary (rd : Rd) (h : Hdr) (j line : Nat) : Bool :=
  if line % 4096 = 0 ∨ h.nLines ≤ line then true
  else match lineWord rd h j line 0 with
    | .ok w => w.head
    | .error _ => true

/-- Whether block k leaves bytes over in stream j after its last word (R128). -/
def hasLeftover (rd : Rd) (h : Hdr) (k j : Nat) : Bool :=
  let d := decodeBlock rd h k j
  d.fault.isSome && d.words.length == (blkEnt rd h k).lines * (blkEnt rd h k).mux

/-! ### Load checks (R124) -/

/-- A failed check: code, object offset of the failing field, stream or 0xFF (R127). -/
structure Fail where
  code : Nat
  off : Nat
  stream : Nat := 0xFF
  deriving DecidableEq, Repr

/-- The failures of one code from a list of (offset, condition that must hold). -/
def need (code : Nat) (l : List (Nat × Bool)) : List Fail :=
  l.filterMap (fun p => if p.2 then none else some { code := code, off := p.1 })

/-- The failure the report names: lowest code, then lowest offset (R125). -/
def worstFail : List Fail → Option Fail
  | [] => none
  | f :: fs => match worstFail fs with
    | none => some f
    | some g => if g.code < f.code ∨ (g.code = f.code ∧ g.off < f.off) then some g else some f

/-- The range of an index list. -/
def upto (n : Nat) (f : Nat → List Fail) : List Fail := ((List.range n).map f).flatten

/-- Checks 0x01 to 0x04 and 0x06, and the header part of 0x05 (R99, R98). The failing field of check FLAGS is FLAGS itself, also where it
disagrees with NVEC_STATIC (DEDUCED, log entry 37). -/
def checkHeader (rd : Rd) (h : Hdr) (srcLen : Nat) : List Fail :=
  need 0x01 [(0, rd.le 4 0 == 0x54415044)] ++
  need 0x02 [(4, rd.le 2 4 == 1)] ++
  need 0x03 [(8, rd.le 4 8 == 256), (12, h.flags / 32 == 0), (40, h.nvs / 2 ^ 48 == 0), (55, h.muxMask / 8 == 0),
             (56, rd.le 8 56 / 2 ^ 24 == 0)] ++
  -- the first byte that is not 0 stands for the field (DESIGN CHOICE, log entry 32)
  (match rd.firstNe 0 48 208 with | some o => [{ code := 0x03, off := o }] | none => []) ++
  need 0x04 [(16, h.objSize == srcLen && h.objSize % 64 == 0 && 576 ≤ h.objSize && h.objSize ≤ 0x400000000 &&
                   h.off 7 + 64 == h.objSize)] ++
  need 0x05 [(24, 1 ≤ h.nPins && h.nPins ≤ 512), (26, h.nStream == (h.nPins + 3) / 4), (28, h.nScan ≤ 64),
             (30, h.nRes ≤ 1024), (32, 1 ≤ h.nLines), (36, h.nBlocks == (h.nLines + 4095) / 4096),
             (48, 1 ≤ h.nInstr && h.nInstr ≤ 16777216), (52, h.nLoops ≤ 256), (54, h.tsetMax ≤ 63)] ++
  need 0x06 [(12, (h.resumable == (h.nRes != 0)) && (h.flags.testBit 2 == (h.nScan != 0)) &&
                  !(h.match? && h.staticLen) && (h.staticLen == (h.nvs != 0)))]

/-- The MUX_MASK part of COUNTS: the set of MUX values in the index (R99). -/
def checkMuxMask (rd : Rd) (h : Hdr) : List Fail :=
  let has (m : Nat) : Bool := (List.range h.nBlocks).any (fun k => (blkEnt rd h k).mux == m)
  need 0x05 [(55, h.muxMask % 8 == b2n (has 1) + 2 * b2n (has 2) + 4 * b2n (has 4))]

/-- The end of the last present dictionary, within the DICT section (R100). -/
def dictEnd (rd : Rd) (h : Hdr) : Nat :=
  match (((List.range h.nStream).map (dictDir rd h)).filter (fun d => d.2 != 0)).getLast? with
  | some d => d.1 + d.2
  | none => 8 * h.nStream

/-- Required SIZE of each section; none where R124 tests it elsewhere (R100). -/
def sectionSize (rd : Rd) (h : Hdr) (i : Nat) : Option Nat :=
  match i with
  | 0 => some (h.nBlocks * h.entrySize)
  | 1 => some (16 * h.nLoops)
  | 2 => some (h.nRes * h.rpSize + if h.apg then 64 * h.nRes else 0)
  | 3 => none
  | 4 => some (dictEnd rd h)
  | 5 => let d := streamDir rd h (h.nStream - 1)
         some (d.1 + d.2)
  | 6 => let e := scanEnt rd h (h.nScan - 1)
         some (e.off + (e.nbits + 7) / 8)
  | _ => some 64

/-- Whether section i must be present (R96). -/
def sectionPresent (h : Hdr) (i : Nat) : Bool :=
  match i with
  | 1 => h.nLoops != 0
  | 2 => h.nRes != 0
  | 6 => h.nScan != 0
  | _ => true

/-- OFF checks of the sections in order; `at` is the end of what lies before (R96). -/
def checkSections (rd : Rd) (h : Hdr) : List Nat → Nat → List Fail
  | [], _ => []
  | i :: is, at_ =>
    let o := 64 + 16 * i
    if sectionPresent h i then
      let lim := if i = 7 then h.objSize else h.objSize - 64
      need 0x07 [(o, h.off i == roundUp at_ 64),
                 (o + 8, (match sectionSize rd h i with | some n => h.size i == n | none => true) &&
                         h.off i + h.size i ≤ lim)] ++
      checkSections rd h is (h.off i + h.size i)
    else need 0x07 [(o, h.off i == 0), (o + 8, h.size i == 0)] ++ checkSections rd h is at_

/-- The STREAM directory part of SECTION (R110, R124). -/
def checkStreamDir (rd : Rd) (h : Hdr) : List Nat → Nat → List Fail
  | [], _ => []
  | j :: js, at_ =>
    let d := streamDir rd h j
    let o := h.off 5 + 16 * j
    need 0x07 [(o, d.1 == roundUp at_ 64), (o + 8, d.2 != 0 && d.2 ≤ 0xFFFFFFFF && d.1 + d.2 ≤ h.size 5)] ++
    checkStreamDir rd h js (d.1 + d.2)

/-- Whether a line lies in a loop-table body. -/
def inHot (rd : Rd) (h : Hdr) (a b : Nat) : Bool :=
  (List.range h.nLoops).any (fun i => let e := loopEnt rd h i; e.1 ≤ b && a ≤ e.2.1)

/-- INDEX checks of block k (R101). -/
def checkIndex (rd : Rd) (h : Hdr) (k : Nat) : List Fail :=
  let o := h.off 0 + k * h.entrySize
  let e := blkEnt rd h k
  let js := List.range h.nStream
  let last := h.nLines - 4096 * (h.nBlocks - 1)
  need 0x08 (([(o, e.lines == (if k + 1 < h.nBlocks then 4096 else last)),
    (o + 4, e.mux == 1 || e.mux == 2 || e.mux == 4),
    (o + 5, e.bflags / 8 == 0 && (e.bflags.testBit 0 == (List.range h.nRes).any (fun i => (rpEnt rd h i).block == k)) &&
            (e.bflags.testBit 2 == inHot rd h (4096 * k) (4096 * k + e.lines - 1))),
    (o + 6, rd.le 2 (o + 6) == 0),
    (o + 20, e.dataBytes == (js.map (fun j => soff rd h (k + 1) j - soff rd h k j)).sum),
    (o + 24, rd.le 8 (o + 24) == 0)] : List (Nat × Bool)) ++
    js.map (fun j => ((o + 32 + 4 * j, (k != 0 || soff rd h 0 j == 0) && soff rd h k j ≤ (streamDir rd h j).2 &&
      (k == 0 || soff rd h (k - 1) j ≤ soff rd h k j)) : Nat × Bool)) ++
    (if h.nStream % 2 = 1 then [(o + 32 + 4 * h.nStream, rd.le 4 (o + 32 + 4 * h.nStream) == 0)] else []))

/-- LOOP checks of entry i (R103, apart from BYTES). -/
def checkLoop (rd : Rd) (h : Hdr) (i : Nat) : List Fail :=
  let o := h.off 1 + 16 * i
  let e := loopEnt rd h i
  need 0x09 [(o, (i == 0 || (loopEnt rd h (i - 1)).2.1 < e.1) &&
                 (List.range h.nStream).all (fun j => atBoundary rd h j e.1)),
             (o + 4, e.1 ≤ e.2.1 && e.2.1 < h.nLines && (List.range h.nStream).all (fun j => atBoundary rd h j (e.2.1 + 1))),
             (o + 8, 2 ≤ e.2.2.1)]

/-- RESUME checks of entry i (R104). -/
def checkResume (rd : Rd) (h : Hdr) (i : Nat) : List Fail :=
  let o := h.off 2 + i * h.rpSize
  let e := rpEnt rd h i
  need 0x0A (([(o, e.id == i),
    (o + 4, e.instr < h.nInstr && (i == 0 || (rpEnt rd h (i - 1)).instr < e.instr)),
    (o + 8, e.block < h.nBlocks),
    (o + 12, e.tset ≤ h.tsetMax && e.tset == bitsOf (instrWord rd h e.instr) 53 6),
    (o + 13, e.mux == (blkEnt rd h e.block).mux),
    (o + 14, rd.le 2 (o + 14) == 0),
    (o + 16, e.vec / 2 ^ 48 == 0),
    (o + 24, e.apgOff == if h.apg then h.nRes * h.rpSize + 64 * i else 0),
    (o + 28, rd.le 4 (o + 28) == 0)] : List (Nat × Bool)) ++
    (List.range 512).map (fun p => ((o + 32, if p < h.nPins then rpDrive rd h i p != 3 else rpDrive rd h i p == 2) : Nat × Bool)) ++
    (List.range h.nScan).map (fun k => ((o + 160 + 8 * k, decide (rpScan rd h i k ≤ (scanEnt rd h k).nbits)) : Nat × Bool)))

/-- DICT checks (R108, R109); `at` is the end of what lies before. -/
def checkDicts (rd : Rd) (h : Hdr) : List Nat → Nat → List Fail
  | [], _ => []
  | j :: js, at_ =>
    let d := dictDir rd h j
    let o := h.off 4 + 8 * j
    if d.2 = 0 then need 0x0C [(o, d.1 == 0)] ++ checkDicts rd h js at_
    else
      let b := h.off 4 + d.1
      let nent := rd.le 2 b
      let pool := rd.le 4 (b + 4)
      need 0x0C ([(o, d.1 == roundUp at_ 64), (o + 4, d.2 == 8 + 4 * nent + 2 * pool && d.1 + d.2 ≤ h.size 4),
        (b, 1 ≤ nent && nent ≤ 4096), (b + 2, rd.le 2 (b + 2) == 0), (b + 4, 1 ≤ pool && pool ≤ 16384)] ++
        (List.range (min nent 4096)).map (fun e =>
          let w := rd.le 4 (b + 8 + 4 * e)
          ((b + 8 + 4 * e, w / 2 ^ 24 == 0 && bitsOf w 0 20 + bitsOf w 20 4 + 1 ≤ pool) : Nat × Bool))) ++
      checkDicts rd h js (d.1 + d.2)

/-- SCAN checks (R114); `at` is the end of what lies before. -/
def checkScans (rd : Rd) (h : Hdr) : List Nat → Nat → List Fail
  | [], _ => []
  | i :: is, at_ =>
    let e := scanEnt rd h i
    let o := h.off 6 + 32 * i
    need 0x0D [(o, e.pin < h.nPins && (List.range i).all (fun k => (scanEnt rd h k).pin != e.pin || (scanEnt rd h k).kind != e.kind)),
      (o + 2, e.kind ≤ 1), (o + 3, rd.allEq 0 5 (o + 3)), (o + 8, e.off == roundUp at_ 64),
      (o + 16, 1 ≤ e.nbits && e.nbits ≤ 2 ^ 40 && (e.kind != 1 || e.nbits % 2 == 0)), (o + 24, rd.le 8 (o + 24) == 0)] ++
    checkScans rd h is (e.off + (e.nbits + 7) / 8)

/-- The first byte in [a, b) that differs from v, as a PADDING failure (R97). -/
def padFail (rd : Rd) (v a b : Nat) : List Fail :=
  match rd.firstNe v (b - a) a with
  | some o => [{ code := 0x0E, off := o }]
  | none => []

/-- PADDING checks (R97): after the header, between sections, inside DICT, STREAM and SCAN. -/
def checkPadding (rd : Rd) (h : Hdr) : List Fail :=
  let ends := 256 :: ((List.range 7).filter (sectionPresent h)).map (fun i => h.off i + h.size i)
  let base5 := h.off 5
  let base6 := h.off 6
  let lastStream := h.off 5 + h.size 5
  (ends.map (fun e => padFail rd (if e == lastStream then 0xFF else 0) e (roundUp e 64))).flatten ++
  padFail rd 0 (h.off 4 + 8 * h.nStream) (min (roundUp (h.off 4 + 8 * h.nStream) 64) (h.off 4 + h.size 4)) ++
  upto h.nStream (fun j => let d := dictDir rd h j
    if d.2 = 0 then [] else padFail rd 0 (h.off 4 + d.1 + d.2) (min (roundUp (h.off 4 + d.1 + d.2) 64) (h.off 4 + h.size 4))) ++
  padFail rd 0 (base5 + 16 * h.nStream) (roundUp (base5 + 16 * h.nStream) 64) ++
  upto h.nStream (fun j => let d := streamDir rd h j
    padFail rd 0xFF (base5 + d.1 + d.2) (roundUp (base5 + d.1 + d.2) 64)) ++
  (if h.nScan = 0 then [] else padFail rd 0 (base6 + 32 * h.nScan) (roundUp (base6 + 32 * h.nScan) 64)) ++
  upto h.nScan (fun i =>
    let e := scanEnt rd h i
    let n := (e.nbits + 7) / 8
    (if e.nbits % 8 = 0 ∨ rd (base6 + e.off + n - 1) / 2 ^ (e.nbits % 8) = 0 then []
     else [{ code := 0x0E, off := base6 + e.off + n - 1 }]) ++
    padFail rd 0 (base6 + e.off + n) (roundUp (base6 + e.off + n) 64))

/-- DIGEST (R116): the last 64 bytes against the computed digest. -/
def checkDigest (rd : Rd) (h : Hdr) (dig : List Byte) : List Fail :=
  let o := h.off 7
  (if (List.range 48).all (fun i => rd (o + i) == (dig.getD i 0).toNat) && rd.allEq 0 16 (o + 48) then []
   else [{ code := 0x0F, off := o }])

/-- Whether all the header-only checks 0x01 to 0x07 pass, after which placement is asked for room (R119, R125). -/
def earlyFails (rd : Rd) (h : Hdr) (srcLen : Nat) : List Fail :=
  checkHeader rd h srcLen ++
  (if (worstFail (checkHeader rd h srcLen)).any (fun f => f.code < 6) then []
   else checkSections rd h (List.range 8) 256 ++ checkStreamDir rd h (List.range h.nStream) (16 * h.nStream) ++
        checkMuxMask rd h)

/-- The load checks after placement: 0x08 to 0x0F (R124). -/
def lateFails (rd : Rd) (h : Hdr) (dig : List Byte) : List Fail :=
  upto h.nBlocks (checkIndex rd h) ++ upto h.nLoops (checkLoop rd h) ++ upto h.nRes (checkResume rd h) ++
  need 0x0B [(64 + 16 * 3 + 8, h.size 3 == 8 * h.nInstr)] ++
  checkDicts rd h (List.range h.nStream) (8 * h.nStream) ++ checkScans rd h (List.range h.nScan) (32 * h.nScan) ++
  checkPadding rd h ++ checkDigest rd h dig

/-- The pin-state code of pin p in the group word of its stream (R94). -/
def nibble (w p : Nat) : Nat := bitsOf w (4 * (p % 4)) 4

/-- PIN_STATE and SCAN_MISSING of a decoded word of stream j (R113), over the pins `own` of the object. -/
def wordFails (rd : Rd) (h : Hdr) (j : Nat) (own : Nat → Bool) (w : GW) : List Fail :=
  ((List.range 4).map (fun i =>
    let p := 4 * j + i
    let c := nibble w.val p
    if h.nPins ≤ p ∨ own p = false then []
    else if c = 0xF then [{ code := 0x24, off := w.tok, stream := j }]
    else if c = 0xD ∧ (scanIdx rd h p 0).isNone then [{ code := 0x25, off := w.tok, stream := j }]
    else if c = 0xE ∧ (scanIdx rd h p 1).isNone then [{ code := 0x25, off := w.tok, stream := j }] else [])).flatten

/-- Deep checks of one block of one stream, in the order in which its tokens show them (R124). -/
def deepBlock (rd : Rd) (h : Hdr) (j k : Nat) : List Fail :=
  let d := decodeBlock rd h k j
  (d.words.map (wordFails rd h j (fun _ => true))).flatten ++
  (match d.fault with | some f => [{ code := f.1, off := f.2, stream := j }] | none => [])

/-- Bytes of the tokens of lines a to b in stream j, both within one block or across blocks (R103). -/
def tokenBytes (rd : Rd) (h : Hdr) (a b j : Nat) : Nat :=
  let pos (line : Nat) : Nat :=
    let k := line / 4096
    let base := h.off 5 + (streamDir rd h j).1
    if h.nLines ≤ line then base + soff rd h h.nBlocks j
    else if line % 4096 = 0 then base + soff rd h k j
    else match lineWord rd h j line 0 with
      | .ok w => w.tok
      | .error _ => 0
  pos (b + 1) - pos a

/-- The deep checks of every block of every stream, in the order of the read-back (R119). -/
def blockFails (rd : Rd) (h : Hdr) : List Fail := upto h.nStream (fun j => upto h.nBlocks (deepBlock rd h j))

/-- The deep checks at load: every block of every stream, and LOOP_BYTES (R124). -/
def deepFails (rd : Rd) (h : Hdr) : List Fail :=
  blockFails rd h ++
  upto h.nLoops (fun i =>
    let e := loopEnt rd h i
    need 0x26 [(h.off 1 + 16 * i + 12, e.2.2.2 == ((List.range h.nStream).map (tokenBytes rd h e.1 e.2.1)).sum)])

/-! ### What placement and admission take from the index (R184, R185, R199) -/

/-- v × 1,953.125 ÷ d, rounded up to a whole number. -/
def bpkv (v d : Nat) : Nat := ceilDiv (v * 1953125) (d * 1000)

/-- Largest PEAK_NC_BPKV over all blocks. -/
def maxPeakNc (rd : Rd) (h : Hdr) : Nat := ((List.range h.nBlocks).map (fun k => (blkEnt rd h k).peakNc)).foldl max 0

/-- Largest PEAK_BPKV over all blocks. -/
def maxPeak (rd : Rd) (h : Hdr) : Nat := ((List.range h.nBlocks).map (fun k => (blkEnt rd h k).peak)).foldl max 0

/-- Q of R199, in MB/s. -/
def objQ (rd : Rd) (h : Hdr) : Nat := bpkv (maxPeakNc rd h) 1000

/-- Whether some instruction word is a BRF or BRP (R185). -/
def hasBranch (rd : Rd) (h : Hdr) : Bool :=
  (List.range h.nInstr).any (fun i => let op := bitsOf (instrWord rd h i) 59 5; op == 0x0A || op == 0x0B)

/-- The pin groups, and so the streams, of the pins a chip carries (R95). -/
def carriedStreams (base m : Nat) : List Nat :=
  if m = 0 then [] else (List.range ((base + m - 1) / 4 - base / 4 + 1)).map (fun i => base / 4 + i)

/-- Bytes of the dictionaries of the carried streams, each rounded up to 64 (R189). -/
def dictBytes (rd : Rd) (h : Hdr) (js : List Nat) : Nat := (js.map (fun j => roundUp (dictDir rd h j).2 64)).sum

/-- Sum of BYTES over the loop table (R202). -/
def loopBytes (rd : Rd) (h : Hdr) : Nat := ((List.range h.nLoops).map (fun i => (loopEnt rd h i).2.2.2)).sum

end Sys2Proof.Machine
end

