-- ==== Sys2Proof/Machine/FlowFmt.lean ====
section
/-! DEFINITION. Flow programs and PE frame lists as objects (12_flow_steps.md, R400-R403): their layout and the load checks.
A step is its 32 bytes, a frame its 8 bytes. -/

namespace Sys2Proof.Machine

/-- A failed flow check: FCHECK and FC_INDEX (R402). -/
structure FFail where
  code : Nat
  idx : Nat
  deriving DecidableEq, Repr

/-- NSTEPS or NFRAMES (R400, R401). -/
def fpCount (b : List Byte) : Nat := fld b 6 2

/-- The size of an object with n entries of w bytes (R400, R401). -/
def fpSize (n w : Nat) : Nat := roundUp (64 + n * w) 64

/-- Entry i, of w bytes. -/
def fpEntry (b : List Byte) (w i : Nat) : List Byte := slice b (64 + w * i) w

/-- Opcode of a step (R410). -/
def stOp (st : List Byte) : Nat := fld st 0 1
/-- SFLAGS.WAIT of a step. -/
def stWait (st : List Byte) : Bool := (fld st 1 1).testBit 0
/-- SFLAGS.IDEM of a step. -/
def stIdem (st : List Byte) : Bool := (fld st 1 1).testBit 1
/-- RETRY_MAX of a step. -/
def stRetryMax (st : List Byte) : Nat := fld st 2 1 % 16
/-- RETRY_MODE of a step. -/
def stRetryMode (st : List Byte) : Nat := fld st 2 1 / 16 % 4
/-- RETRY_ON of a step. -/
def stRetryOn (st : List Byte) : Nat := fld st 3 1
/-- ON_ERR of a step. -/
def stOnErr (st : List Byte) : Nat := fld st 4 2
/-- RETRY_GAP of a step, in µs. -/
def stRetryGap (st : List Byte) : Nat := fld st 6 2

/-- Whether a step is an operation step (R410). -/
def isOpStep (op : Nat) : Bool := 1 ≤ op && op ≤ 5

/-- The operation slot of an opcode: 0 BURST, 1 MEAS, 2 ACQ, 3 PE (R412). -/
def opSlot (op : Nat) : Nat := if op ≤ 3 then op - 1 else 3

/-- Reserved ranges of a step's operands: offset, length (R416 to R442). -/
def stReserved (op : Nat) : List (Nat × Nat) :=
  match op with
  | 0x01 => [(13, 3), (20, 12)]
  | 0x03 => [(11, 1), (19, 1)]
  | 0x04 => [(9, 3), (16, 16)]
  | 0x05 => [(10, 2), (20, 12)]
  | 0x06 => [(9, 23)]
  | 0x07 => [(18, 2), (24, 8)]
  | 0x08 => [(16, 16)]
  | 0x09 => [(9, 7), (24, 8)]
  | 0x0A => [(15, 1), (24, 8)]
  | 0x0B => [(10, 22)]
  | 0x0C => [(24, 8)]
  | 0x0D => [(11, 1), (14, 18)]
  | 0x0E => [(14, 18)]
  | 0x10 => [(9, 3), (16, 16)]
  | 0x11 => [(24, 8)]
  | 0x12 => [(9, 3), (16, 16)]
  | 0x13 => [(9, 23)]
  | 0x14 => [(14, 18)]
  | 0x15 => [(9, 1), (12, 20)]
  | 0x16 => [(9, 23)]
  | 0x17 => [(9, 23)]
  | 0x0F | 0x18 | 0x19 => [(8, 24)]
  | _ => []

/-- Reserved bits of a step: its header's, and those of its flag operands. -/
def stBits (st : List Byte) : Bool :=
  fld st 1 1 < 4 && fld st 2 1 < 64 && fld st 3 1 < 32 &&
  (match stOp st with
    | 0x02 => fld st 12 1 < 4 && fld st 16 8 < 2 ^ 36
    | 0x03 => fld st 10 1 < 2
    | 0x06 => fld st 8 1 < 16
    | 0x07 => fld st 17 1 < 2
    | 0x0A => fld st 11 1 < 32
    | 0x0C => fld st 14 1 < 2
    | 0x0D => fld st 10 1 < 32
    | 0x11 => fld st 10 1 < 2
    | 0x14 => fld st 10 1 < 2
    | _ => true)

/-- A field named by SRC, OFF, WIDTH and MEMBER keeps within its source (R432). -/
def srcOk (src off width mem : Nat) : Bool :=
  src ≤ 7 && (width = 1 || width = 2 || width = 4 || width = 6 || width = 8) &&
  (if src = 5 then off ≤ 15 && width = 8 else if src = 7 then off + width ≤ 8 else off + width ≤ 128) &&
  (if src = 6 then mem ≤ 15 else mem = 0)

/-- A source selector with a meaning (R377). -/
def selOk (x : Nat) : Bool := x < 0x44 || (0x50 ≤ x && x < 0x58)

/-- The operand ranges of a step (R403, OPERAND). -/
def stOperands (st : List Byte) : Bool :=
  let b := fun i => fld st i 1
  (isOpStep (stOp st) || (!stWait st && fld st 2 2 = 0 && stRetryGap st = 0)) &&
  (if stOp st = 1 then stRetryMode st ≠ 3 else stRetryMode st = 0) &&
  (match stOp st with
    | 0x01 => b 12 ≤ 2
    | 0x02 => b 10 ≤ 11 && b 11 ≤ 3 && selOk (b 13) && selOk (b 14)
    | 0x05 => b 8 ≤ 1 && (b 9 < 24 || b 9 = 0xFF) && fld st 16 4 ≤ 10000000
    | 0x07 => fld st 8 8 ≠ 0 && b 16 ≤ 1
    | 0x09 => b 8 ≤ 1
    | 0x0A => srcOk (b 8) (b 9) (b 10) (b 14)
    | 0x0C => b 8 ≤ 13 && b 9 ≤ 15 && b 10 ≤ 15 &&
        (if b 8 = 11 then srcOk (b 11) (b 12) (b 13) (b 15) else zeroes st 11 5) &&
        (8 ≤ b 8 && b 8 ≤ 10 || b 10 = 0) && (b 8 ≤ 7 || zeroes st 16 8)
    | 0x0D => b 8 ≤ 3 && 1 ≤ b 9
    | 0x10 => b 8 ≤ 2
    | 0x11 => !((b 10).testBit 0) || b 11 < 32
    | 0x12 | 0x13 => b 8 ≤ 31
    | 0x14 => b 8 ≤ 7 && (if b 8 = 5 then b 9 ≤ 12 else b 9 ≤ 96) && (if b 8 = 6 then b 11 ≤ 15 else b 11 = 0)
    | 0x15 => b 8 ≤ 2
    | 0x17 => b 8 ≤ 7
    | _ => true)

/-- The step index operands of a step are below NSTEPS, or 0xFFFF for ON_ERR (R403, TARGET). -/
def stTargets (st : List Byte) (n : Nat) : Bool :=
  (stOnErr st = 0xFFFF || stOnErr st < n) &&
  (match stOp st with
    | 0x0A => fld st 12 2 < n
    | 0x0B => fld st 8 2 < n
    | 0x0D => fld st 12 2 < n
    | _ => true)

/-- The codes a step fails. -/
def stepFails (st : List Byte) (n i : Nat) : List FFail :=
  ([(0x07, 1 ≤ stOp st && stOp st ≤ 0x19), (0x08, (stReserved (stOp st)).all (fun r => zeroes st r.1 r.2) && stBits st),
    (0x09, stTargets st n), (0x0A, stOperands st)] : List (Nat × Bool)).filterMap
      (fun p => if p.2 then none else some { code := p.1, idx := i })

/-- The codes a frame fails (R401). -/
def frameFails (fr : List Byte) (i : Nat) : List FFail :=
  ([(0x08, fld fr 5 1 < 8 && fld fr 0 4 < 2 ^ fld fr 4 1), (0x0A, 8 ≤ fld fr 4 1 && fld fr 4 1 ≤ 32)] : List (Nat × Bool)).filterMap
      (fun p => if p.2 then none else some { code := p.1, idx := i })

/-- The failure reported: the lowest code, then the lowest index (R402). -/
def worstFFail : List FFail → Option FFail
  | [] => none
  | f :: fs => match worstFFail fs with
    | none => some f
    | some g => if g.code < f.code ∨ (g.code = f.code ∧ g.idx < f.idx) then some g else some f

/-- Header failures found before placement: MAGIC, VERSION, SIZE, ENTRY (R403). -/
def fpHeaderFails (b : List Byte) (flow : Bool) (srcLen : Nat) : List FFail :=
  let n := fpCount b
  ([(0x01, fld b 0 4 = (if flow then 0x574C4644 else 0x4C455044)), (0x02, fld b 4 2 = 1),
    (0x03, 1 ≤ n && n ≤ (if flow then 65534 else 4096) && srcLen = fpSize n (if flow then 32 else 8)),
    (0x04, !flow || fld b 8 2 < n)] : List (Nat × Bool)).filterMap (fun p => if p.2 then none else some { code := p.1, idx := 0xFFFF })

/-- The other load failures: DIGEST to OPERAND (R403); `dig` is the computed digest. -/
def fpBodyFails (b : List Byte) (flow : Bool) (dig : List Byte) : List FFail :=
  let n := fpCount b
  let w := if flow then 32 else 8
  (([(0x05, slice b 16 48 == dig),
     (0x06, (if flow then zeroes b 10 6 else zeroes b 8 8) && zeroes b (64 + n * w) (fpSize n w - (64 + n * w)))] :
      List (Nat × Bool)).filterMap (fun p => if p.2 then none else some { code := p.1, idx := 0xFFFF })) ++
  ((List.range n).map (fun i => if flow then stepFails (fpEntry b 32 i) n i else frameFails (fpEntry b 8 i) i)).flatten

end Sys2Proof.Machine
end

