-- ==== Sys2Proof/Machine/LinkOps.lean ====
section
/-! DEFINITION. What the other parts of the chip ask of the Paldel links and of Tether: sending a packet or an express message
(R563-R565), the LINK event (R590), and mirroring an item (R609, R610). -/

namespace Sys2Proof.Machine

/-- Link n. -/
def State.lk (s : State) (n : Nat) : Link := s.links.getD n {}

/-- The state with a link changed. -/
def State.upLk (s : State) (n : Nat) (f : Link → Link) : State := { s with links := s.links.modify n f }

/-- The state with a lane changed. -/
def State.upLane (s : State) (n k : Nat) (f : Lane → Lane) : State :=
  s.upLk n (fun l => { l with lanes := l.lanes.modify k f })

/-- Lane k of link n. -/
def State.lane (s : State) (n k : Nat) : Lane := (s.lk n).lanes.getD k {}

/-- PL_n_STAT.RETIRED. -/
def State.lanesRetired (s : State) (n : Nat) : Nat := s.rf F.PL_STAT_RETIRED [n]

/-- The good lanes of link n: trained, not lost, not retired (R592). -/
def State.goodLanes (s : State) (n : Nat) : Nat :=
  maskOf ((List.range 4).filter (fun k =>
    (s.lane n k).locked && !(s.lane n k).lost && !(s.lanesRetired n).testBit k))

/-- The width for a number of good lanes (R574). -/
def widthOf (c : Nat) : Nat := if c ≥ 4 then 4 else if c ≥ 2 then 2 else c

/-- The lowest-numbered lanes of a mask that a link uses (R574). -/
def activeOf (m : Nat) : Nat := maskOf ((bitList 4 m).take (widthOf (bitList 4 m).length))

/-- Width of link n. -/
def State.linkWidth (s : State) (n : Nat) : Nat := (bitList 4 (s.lk n).active).length

/-- Link n carries traffic: it is up, or leaves electrical idle when traffic is due (R572). -/
def State.linkUp (s : State) (n : Nat) : Bool := (s.lk n).state = 2 || (s.lk n).state = 3

/-- A LINK event (R590); `lane` is the lane concerned. -/
def State.linkEvent (s : State) (n sub : Nat) (lane : Nat := 0) : State :=
  let l := s.lk n
  s.queueEvent { typ := 9, b2 := n, b3 := sub
                 aux := l.active + s.goodLanes n * 2 ^ 4 + s.lanesRetired n * 2 ^ 8 + s.linkWidth n * 2 ^ 12 + lane * 2 ^ 15
                 p0 := s.rf F.PL_STAT_PARTNER_POS [n] + s.rf F.PL_STAT_PARTNER_LINK [n] * 2 ^ 5
                 p2 := s.dtime }

/-- A cross-chip site is declared, or a trigger unit has XPUB: links 0, 1 and 3 stay out of electrical idle (R573). -/
def State.linksHeld (s : State) : Bool :=
  s.sites.any (fun p => p.2.xchip) || (List.range 96).any (fun k => s.rb F.CL_TRG_CTL_XPUB [k / 8, k % 8])

/-- This chip's ring position (R596). -/
def State.pos (s : State) : Nat := s.rf F.RING_CFG_POS

/-- Ring length (R596). -/
def State.ringLen (s : State) : Nat := s.rf F.RING_CFG_N

/-- A link-local control block, sent on every active lane: type, payload bits above [7:0]. -/
def State.block (s : State) (n typ payload : Nat) : State :=
  s.emit (.link n { typ := typ, seq := 0, fields := [payload] } (bitList 4 (s.lk n).active))

/-- Payload bits [63:8] of a control block whose bits [47:8] are given: those bits, and the CRC (R561). -/
def crcBody (typ body : Nat) : Nat :=
  let b := body % 2 ^ 40
  b + crc16 (leBytes 6 (typ + b * 2 ^ 8)) * 2 ^ 40

/-- Payload bits [63:8] of TRAIN block i of a burst on lane k of link n (R561). -/
def State.trainBody (s : State) (n k i : Nat) : Nat :=
  crcBody 0x2D (s.pos % 2 ^ 5 + n * 2 ^ 5 + k * 2 ^ 7 + (s.lane n k).setting * 2 ^ 9 + i * 2 ^ 10 + 0x5AC3E1 * 2 ^ 16)

/-- A training burst goes out on lane k: 64 TRAIN blocks (R568). -/
def State.burstOn (s : State) (n k : Nat) : State :=
  s.emit (.link n { typ := 0x2D, seq := 0, fields := (List.range 64).map (s.trainBody n k) } [k])

/-- A training burst on every active lane (R572, R576). -/
def State.bursts4 (s : State) (n : Nat) : State := (bitList 4 (s.lk n).active).foldl (fun s k => s.burstOn n k) s

/-- Data blocks of a packet (R563): eight bytes each, and one for each number of the model's own form (log entry 43). -/
def pktBlocks (p : PlPacket) : Nat := max 1 (p.fields.length - 2 + ceilDiv p.data.length 8)

/-- Bytes a packet takes in the replay buffer (R563, R564). -/
def pktBytes (p : PlPacket) : Nat := 8 + 8 * pktBlocks p

/-- The lanes of k traffic blocks in order: active lanes, ascending, on and on (R562). -/
def State.stripe (s : State) (n k : Nat) : List Nat :=
  let act := bitList 4 (s.lk n).active
  (List.range k).map (fun i => act.getD ((Config.startLane s.out.length + i) % act.length) 0)

/-- A packet or message is a packet and no express message. -/
def isPkt (p : PlPacket) : Bool := p.typ = 0x33

/-- A link is used: its idle timer starts again, and it leaves electrical idle with one training burst (R572). -/
def State.linkUsed (s : State) (n : Nat) : State :=
  let s1 := if (s.lk n).state = 3 then (s.upLk n (fun l => { l with state := 2 })).bursts4 n else s
  s1.upLk n (fun l => { l with idleSince := s1.dtime })

/-- Links 0, 1 and 3 leave electrical idle once they are to stay out of it (R573). -/
def State.keepAwake (s : State) : State :=
  if s.linksHeld && s.power.lull = 0 then [0, 1, 3].foldl (fun s n => if (s.lk n).state = 3 then s.linkUsed n else s) s else s

/-- A packet or message goes out, striped over the active lanes (R562): a packet's header and data, or a message's two blocks. -/
def State.traffic (s : State) (n : Nat) (p : PlPacket) : State :=
  s.emit (.link n p (s.stripe n (if isPkt p then 1 + pktBlocks p else 2)))

/-- Put a packet or message on the link with its sequence number and keep it for replay (R564, R565). -/
def State.transmit (s : State) (n : Nat) (p : PlPacket) : State :=
  let l := s.lk n
  if isPkt p then
    let q := { p with seq := l.txSeq }
    ((s.linkUsed n).traffic n q).upLk n (fun l => { l with
      txSeq := (l.txSeq + 1) % 2 ^ 16, replay := l.replay ++ [q] })
  else
    let q := { p with seq := l.txEseq }
    ((s.linkUsed n).traffic n q).upLk n (fun l => { l with
      txEseq := (l.txEseq + 1) % 2 ^ 8, express := l.express ++ [q] })

/-- There is room in the replay buffer that traffic of this kind uses (R564, R565). -/
def Link.room (l : Link) (p : PlPacket) : Bool :=
  if isPkt p then (l.replay.map pktBytes).sum + pktBytes p ≤ 65536 else l.express.length < 128

/-- Send traffic on a link that is up; it waits while its replay buffer is full. On a link that is not up nothing is sent. -/
def State.send (s : State) (n : Nat) (p : PlPacket) : State :=
  let l := s.lk n
  if !s.linkUp n then s
  else if l.room p && !(l.waitq.any (fun q => isPkt q == isPkt p)) then s.transmit n p
  else s.upLk n (fun l => { l with waitq := l.waitq ++ [p] })

/-- Waiting traffic goes out in order as room allows; express messages go ahead (R565). -/
def drainWait : List PlPacket → State → Nat → State
  | [], s, _ => s
  | p :: r, s, n =>
    if (s.lk n).room p && !((s.lk n).waitq.any (fun q => isPkt q == isPkt p)) then drainWait r (s.transmit n p) n
    else drainWait r (s.upLk n (fun l => { l with waitq := l.waitq ++ [p] })) n

/-- Traffic that waited for room is sent. -/
def State.drain (s : State) (n : Nat) : State :=
  let w := (s.lk n).waitq
  drainWait (w.filter (fun p => !isPkt p) ++ w.filter isPkt) (s.upLk n (fun l => { l with waitq := [] })) n

/-- An express message of the ring created here (R565, R582). -/
def State.expressOf (s : State) (typ sub a b : Nat) : PlPacket :=
  { typ := typ, seq := 0, fields := [s.pos, sub, a % 2 ^ 40, b % 2 ^ 40] }

/-- Broadcast an express message round the ring (R579). -/
def State.broadcast (s : State) (typ sub a b : Nat) : State := s.send 0 (s.expressOf typ sub a b)

/-! ### Tether -/

/-- This chip is the active chip of a pair that is SYNCING or PROTECTED. -/
def State.mirroring (s : State) : Bool := s.pair.role = 1 && (s.pair.state = 2 || s.pair.state = 3)

/-- A list in pieces of n. -/
def chunks {α : Type} (n : Nat) (l : List α) : List (List α) := (List.range (ceilDiv l.length n)).map (fun i => (l.drop (n * i)).take n)

/-- An item as the contents of its packets: each of at most 64 data blocks, two of them for its kind and what follows (R563). -/
def MItem.parts (i : MItem) : List (List Nat × List Byte) :=
  let ks := if i.key.isEmpty then [[]] else chunks 62 i.key
  let last := ks.getLast?.getD []
  let room := 8 * (62 - last.length)
  ks.dropLast.map (fun k => (k, [])) ++ [(last, i.data.take room)] ++ (chunks 496 (i.data.drop room)).map (fun d => ([], d))

/-- The packets of an item: position, class, how many packets of it follow, its kind, numbers and bytes. -/
def MItem.packets (i : MItem) (pos : Nat) : List PlPacket :=
  i.parts.zipIdx.map (fun x => { typ := 0x33, seq := 0, fields := [pos, 1, i.parts.length - 1 - x.2, i.kind] ++ x.1.1, data := x.1.2 })

/-- Send an item to the partner (R609). -/
def State.tether (s : State) (i : MItem) : State :=
  let ps := i.packets s.pos
  let q := ((s.lk 2).txSeq + ((s.lk 2).waitq.filter isPkt).length + ps.length - 1) % 2 ^ 16
  let s1 := ps.foldl (fun s p => s.send 2 p) s
  { s1 with pair := { s1.pair with sent := s1.pair.sent ++ [(q, s.dtime)] } }

/-- Mirror an item that is never dropped (R609). -/
def State.mirror (s : State) (i : MItem) : State := if s.mirroring then s.tether i else s

/-- The capture mirror limit in force, MB/s (R610). -/
def State.capMbps (s : State) : Nat := min (100 * s.rf F.PAIR_CTL_CAP_BUDGET) (3125 * s.linkWidth 2 - 3000)

/-- The capture credit brought to now, in bytes × 1,000 (R610). -/
def State.tetherCredit (s : State) : Nat := min 65536000 (s.pair.credit + s.capMbps * (s.dtime - s.pair.creditT))

/-- A capture item of a region as R610 keeps it: a record with its vector, a block with its DTIME range, or one that has neither (a header, a
bitmap line: log entry 44). -/
inductive CapItem where
  | record (vec : Nat)
  | block (t0 t1 : Nat)
  | other
  deriving DecidableEq, Repr

/-- Its range. -/
def CapItem.range : CapItem → Nat × Nat
  | .record v => (v, v)
  | .block a b => (a, b)
  | .other => (2 ^ 64 - 1, 0)

/-- Count an item left unprotected (R610, R613), and keep its range for the burst or the acquisition of its site. -/
def State.unprotect (s : State) (r : Region) (i : CapItem) : State :=
  let rec' := match i with
    | .record _ => true
    | _ => false
  let s1 := (s.incRf (if rec' then F.TETHER_UNPROT_RECORDS else F.TETHER_UNPROT_BLOCKS) []).setRf F.TETHER_STAT_UNPROT [] 1
  let a : Bool := r.kind = 3
  let old := (s1.pair.unprot.find? (fun u => u.site = r.site && u.acq == a)).getD { site := r.site, acq := a }
  let l := s1.pair.unprot.filter (fun u => !(u.site = r.site && u.acq == a))
  { s1 with pair := { s1.pair with unprot := l ++ [{ old with
      items := old.items + 1, first := min old.first i.range.1, last := max old.last i.range.2 }] } }.mirror
    { kind := 16, key := [r.site, b2n a, b2n rec', i.range.1] }

/-- Mirror capture bytes of a region, or leave them unprotected for want of credit (R610). -/
def State.mirrorCap (s : State) (r : Region) (i : CapItem) (off : Nat) (bs : List Byte) : State :=
  if !s.mirroring then s
  else
    let c := s.tetherCredit
    let s1 := { s with pair := { s.pair with creditT := s.dtime, credit := c } }
    if 1000 * bs.length ≤ c then
      { s1 with pair := { s1.pair with credit := c - 1000 * bs.length } }.tether
        { kind := 7, key := [r.id, off], data := bs }
    else s1.unprotect r i

/-- A MIRROR event (R624). -/
def State.mirrorEvent (s : State) (sub : Nat) (aux p0 p1 : Nat := 0) : State :=
  s.queueEvent { typ := 0x0A, b2 := sub, b3 := s.pair.state, aux := aux, p0 := p0, p1 := p1, p2 := s.dtime }

/-- A digest mismatch, or an object of the active chip only (R611): said once of an object. -/
def State.digestMismatch (s : State) (id : Nat) : State :=
  if s.pair.unprotObjs.contains id then s
  else { s.setRf F.TETHER_STAT_MISMATCH [] 1 with pair := { s.pair with unprotObjs := s.pair.unprotObjs ++ [id] } }.mirrorEvent 8 0 id

/-- An object is loaded here, with a digest (R611): one that the partner has announced with the same digest is protected, one with another
digest is not, and one that only the active chip of a PROTECTED pair holds is not either. -/
def State.digestCheck (s : State) (id : Nat) (dig : List Byte) : State :=
  match kGet s.pair.digests id with
  | some d =>
    if d = dig then { s with pair := { s.pair with unprotObjs := s.pair.unprotObjs.filter (· ≠ id) } } else s.digestMismatch id
  | none => if s.pair.role = 1 && s.pair.state = 3 then s.digestMismatch id else s

/-- A load has completed with OK on a chip of a pair: its digest goes to the partner and is compared (R611). -/
def State.pairLoaded (s : State) (id : Nat) (dig : List Byte) : State :=
  if s.pair.state = 2 || s.pair.state = 3 then (s.tether { kind := 15, key := [id], data := dig }).digestCheck id dig else s

/-- An object is unloaded on a chip of a pair: the partner holds it alone, if at all (R611). -/
def State.pairUnloaded (s : State) (id : Nat) : State :=
  let s1 := { s with pair := { s.pair with unprotObjs := s.pair.unprotObjs.filter (· ≠ id) } }
  if s.pair.state = 2 || s.pair.state = 3 then s1.tether { kind := 15, key := [id] } else s1

/-- At the end of a burst or acquisition of a site that had unprotected items: the event UNPROTECTED (R610, R624). -/
def State.unprotEnd (s : State) (site : Nat) (acq : Bool) : State :=
  match s.pair.unprot.find? (fun u => u.site = site && u.acq == acq) with
  | none => s
  | some u =>
    ({ s with pair := { s.pair with unprot := s.pair.unprot.filter (· ≠ u) } }.mirror { kind := 16, key := [site, b2n acq] }).mirrorEvent
      9 0 (site + u.items % 2 ^ 32 * 2 ^ 16) (if acq then 2 ^ 64 - 1 else u.first)

end Sys2Proof.Machine
end

