-- ==== Sys2Proof/Machine/TaskOps.lean ====
section
/-! DEFINITION. Paddock's operations (13_paddock_scheduler.md): event flags and waits, ready lists and dispatch, locks, and
the end of an operation that a task or a descriptor issued (R414, R422). -/

namespace Sys2Proof.Machine

/-- The task with an ID in use. -/
def State.task (s : State) (tid : Nat) : Option Task := kGet s.paddock.tasks tid

/-- The state with a task changed. -/
def State.upTask (s : State) (tid : Nat) (f : Task → Task) : State :=
  { s with paddock := { s.paddock with tasks := kUpd s.paddock.tasks tid f } }

/-- Flow-core slot i. -/
def State.fslot (s : State) (i : Nat) : FSlot := s.paddock.slots.getD i { phys := none }

/-- The slot of the variant that physical core c backs (R450, R469). -/
def State.slotOf (s : State) (c : Nat) : Option Nat := (List.range s.nSlot).find? (fun i => (s.fslot i).phys = some c)

/-- The state with a flow-core slot changed. -/
def State.upFslot (s : State) (i : Nat) (f : FSlot → FSlot) : State :=
  { s with paddock := { s.paddock with slots := s.paddock.slots.modify i f } }

/-- Lock k. -/
def State.lock (s : State) (k : Nat) : Lock := s.paddock.locks.getD k {}

/-- The state with a lock changed. -/
def State.upLock (s : State) (k : Nat) (f : Lock → Lock) : State :=
  { s with paddock := { s.paddock with locks := s.paddock.locks.modify k f } }

/-! ### The task table in bytes (R452, R453) -/

/-- The table entry of a task (R452). -/
def taskEntry (tid : Nat) (t : Task) : List Byte :=
  leBytes 2 tid ++ leBytes 1 t.state ++ leBytes 1 t.prio ++ leBytes 2 t.siteId ++ leBytes 2 t.groupId ++ leBytes 4 t.flow ++
    leBytes 2 t.step ++ leBytes 1 t.home ++ leBytes 1 t.slot ++ leBytes 8 t.flags ++ leBytes 8 t.wmask ++
    leBytes 1 (b2n t.wall + 2 * t.wkind) ++ leBytes 1 t.stack.length ++ zeros 2 ++ leBytes 4 t.locks ++ leBytes 8 t.readySeq ++
    leBytes 8 t.wakeT ++ leBytes 4 t.lost ++ leBytes 4 t.steps

/-- The context of a task (R453). -/
def taskContext (t : Task) : List Byte :=
  padTo (padTo (t.vars.flatMap (leBytes 8)) 128 ++ padTo t.res 128 ++ (List.range 4).flatMap (fun k => padTo ((t.ops.getD k {}).res) 128) ++
    leBytes 8 t.lastErr ++ padTo (t.ctr.flatMap (leBytes 1)) 4 ++ leBytes 4 t.logSeq ++ leBytes 8 t.logAddr ++ leBytes 4 t.logLen ++
    zeros 4 ++ padTo (t.stack.flatMap (fun p => leBytes 4 p.1 ++ leBytes 2 p.2 ++ zeros 2)) 64 ++ leBytes 8 t.created) 1024

/-- What a mirrored task carries beside its bytes: the half of its step, and for each slot whether it is busy, the step that issued it,
its flow, its attempts, and whether vector 0 has started. -/
def Task.mirrorKey (t : Task) : List Nat :=
  [b2n t.begun] ++ (List.range 4).flatMap (fun k =>
    let o := t.ops.getD k {}
    [b2n o.busy, o.stepIdx, o.flow, o.attempts, b2n o.v0])

/-- Mirror a task's entry and context (R609); a task that has ended is sent without them. -/
def State.mirrorTask (s : State) (tid : Nat) : State := match s.task tid with
  | some t =>
    if t.state = 5 then s.mirror { kind := 1, key := [tid] }
    else s.mirror { kind := 1, key := tid :: t.mirrorKey, data := taskEntry tid t ++ taskContext t }
  | none => s.mirror { kind := 1, key := [tid] }

/-- Ballast is engaged (R641). -/
def State.ballastOn (s : State) : Bool := s.collector.ballast != 0

/-- The slot that holds the warden role (R470). -/
def State.wardenSlot (s : State) : Nat :=
  ((List.range s.nSlot).find? (fun i => !(s.fslot i).retired)).getD 0

/-- A task is the warden task (R470). -/
def State.isWarden (s : State) (tid : Nat) : Bool :=
  s.rb F.PADDOCK_WARDEN_VALID && s.rf F.PADDOCK_WARDEN_TASK_ID == tid

/-- The priority at which a task is scheduled: 7 for the warden (R470). -/
def State.effPrio (s : State) (tid : Nat) : Nat :=
  if s.isWarden tid then 7 else match s.task tid with
    | some t => t.prio
    | none => 0

/-- A slot dispatches: it is backed, in service, powered and out of reset, and Paddock runs (R450, R643, R663). -/
def State.slotUp (s : State) (i : Nat) : Bool :=
  let f := s.fslot i
  i < s.nSlot && f.phys.isSome && !f.retired && !f.settling && s.domOn (60 + i) && s.power.lull = 0 && !s.ballastOn &&
    !s.power.blk.contains (12, none) && !s.power.blk.contains (12, f.phys)

/-- Paddock places tasks: no memory repair runs, since every context has a part on every live channel (R533, R548). -/
def State.places (s : State) : Bool := s.mcs.all (fun c => c.repair.isNone)

/-- Class-7 tasks in play (R465). -/
def State.ready7 (s : State) : Nat :=
  (s.paddock.tasks.filter (fun p => s.isWarden p.1 || (p.2.prio = 7 && 1 ≤ p.2.state && p.2.state ≤ 3))).length

/-- OVER7 sets when READY7 exceeds LIVE_FCORES (R465). -/
def State.check7 (s : State) : State :=
  if s.ready7 > s.rf F.CAPS_LIVE_LIVE_FCORES then s.setRf F.PADDOCK_STAT_OVER7 [] 1 else s

/-- Whether Paddock may place a task in a slot (R470). -/
def State.slotFor (s : State) (tid i : Nat) : Bool :=
  if s.isWarden tid then i = s.wardenSlot
  else !(s.rb F.PADDOCK_WARDEN_VALID && s.effPrio tid = 7 && i = s.wardenSlot)

/-- Put a READY task into a slot's buffer (R461); its context fetch starts. -/
def State.buffer (s : State) (tid i : Nat) : State :=
  (s.upFslot i (fun f => { f with buf := some tid, fetched := false })).upTask tid (fun t => { t with state := 2, slot := i })

/-- The priority of an optional task plus 1; 0 for none. -/
def State.prioOf (s : State) (o : Option Nat) : Nat := match o with
  | some t => s.effPrio t + 1
  | none => 0

/-- The best of a list by a key of numbers, compared in order; the first of equals. -/
def bestBy {α : Type} (key : α → List Nat) : List α → Option α
  | [] => none
  | a :: r => match bestBy key r with
    | none => some a
    | some b => if key b < key a then some b else some a

/-- Place a task that has become READY (R461); a task it displaces becomes READY and is placed in turn. -/
def placeTask : Nat → State → Nat → State
  | 0, s, _ => s
  | fuel + 1, s, tid =>
    let home := match s.task tid with
      | some t => t.home
      | none => 0
    let ok := (List.range 16).filter (fun i => s.slotUp i && s.places && s.slotFor tid i)
    match bestBy (fun i => [if i = home then 0 else 1, i])
        (ok.filter (fun i => (s.fslot i).run = none && (s.fslot i).buf = none)) with
    | some i => s.buffer tid i
    | none =>
      match bestBy (fun i => [s.prioOf (s.fslot i).run, if i = home then 0 else 1, s.prioOf (s.fslot i).buf, i])
          (ok.filter (fun i => s.prioOf (s.fslot i).buf < s.effPrio tid + 1)) with
      | none => s
      | some i =>
        match (s.fslot i).buf with
        | none => s.buffer tid i
        | some v =>
          placeTask fuel ((s.upTask v (fun t => { t with state := 1, slot := 0xFF })).buffer tid i) v

/-- A task becomes READY with a new READY_SEQ (R460) and is placed. -/
def State.ready (s : State) (tid : Nat) : State :=
  let n := s.paddock.seq
  let s1 := { s with paddock := { s.paddock with seq := (n + 1) % 2 ^ 64 } }
  placeTask 9 (s1.upTask tid (fun t => { t with state := 1, readySeq := n, slot := 0xFF })).check7 tid

/-- The best ready task that a slot may take (R460, R470). -/
def State.bestReady (s : State) (i : Nat) : Option Nat :=
  (bestBy (fun p => [8 - s.effPrio p.1, p.2.readySeq])
    (s.paddock.tasks.filter (fun p => p.2.state = 1 && s.slotFor p.1 i))).map (·.1)

/-- Refill an empty buffer (R461). -/
def State.refillSlot (s : State) (i : Nat) : State :=
  if s.slotUp i && s.places && (s.fslot i).buf = none then
    match s.bestReady i with
    | some t => s.buffer t i
    | none => s
  else s

/-- Paddock looks at every slot again (R461). -/
def State.dispatch (s : State) : State := (List.range 16).foldl (fun s i => s.refillSlot i) s

/-- An idle core takes its buffered task once the context has arrived (R461, R462), and not while a repair holds it (R548). -/
def State.coreTake (s : State) (i : Nat) : State :=
  let f := s.fslot i
  match f.run, f.buf with
  | none, some t =>
    if f.fetched && s.slotUp i && s.places then
      ((s.upFslot i (fun f => { f with run := some t, buf := none, fetched := false, hold := false })).upTask t
        (fun t => { t with state := 3, slot := i, quantum := 0 })).refillSlot i
    else s
  | _, _ => s

/-- The core of slot i lets its task go; the task keeps the state given. -/
def State.coreFree (s : State) (i : Nat) : State :=
  ((s.upFslot i (fun f => { f with run := none, hold := false })).coreTake i).refillSlot i

/-- A task that has returned to READY, and that no buffer has taken meanwhile, is placed (R461). -/
def State.replace (s : State) (tid : Nat) : State :=
  if (s.task tid).any (fun t => t.state = 1) then placeTask 9 s tid else s

/-- A step boundary of the running task of slot i: a buffered task of higher priority swaps in (R462). -/
def State.boundary (s : State) (i : Nat) : State :=
  let f := s.fslot i
  if s.prioOf f.buf > s.prioOf f.run then
    if f.fetched then
      match f.run with
      | some t => ((s.upTask t (fun t => { t with state := 1, slot := 0xFF })).coreFree i).replace t
      | none => s.coreTake i
    else s.upFslot i (fun f => { f with hold := true })
  else s

/-- Whether a task's wait condition holds (R457). -/
def Task.waitHolds (t : Task) : Bool :=
  if t.wall then t.flags &&& t.wmask = t.wmask else t.flags &&& t.wmask ≠ 0

/-- A waiting task becomes READY (R455, R459): its flags at the wake are noted, its timer stops. -/
def State.wake (s : State) (tid : Nat) (timedOut : Bool) : State :=
  (s.upTask tid (fun t => { t with
    wakeFlags := t.flags, wmask := 0, wall := false, wkind := 0, wakeT := 0, timedOut := timedOut })).ready tid

/-- Set flags of a task; a set for a task that does not exist or is ENDING is discarded (R456, R458). -/
def State.setFlags (s : State) (tid m : Nat) : State :=
  match s.task tid with
  | none => s
  | some t =>
    if t.state = 5 then s
    else
      let t1 := { t with flags := t.flags ||| m }
      let s1 := s.upTask tid (fun _ => t1)
      if t.state = 4 && t1.waitHolds then s1.wake tid false else s1

/-- Clear flags of a task. -/
def State.clearFlagsOf (s : State) (tid m : Nat) : State :=
  s.upTask tid (fun t => { t with flags := t.flags - (t.flags &&& m) })

/-! ### Locks -/

/-- The place of a request in a lock's queue: descending priority, arrival within one (R466). -/
def lockInsert : List LockReq → LockReq → List LockReq
  | [], r => [r]
  | q :: qs, r => if q.prio < r.prio then r :: q :: qs else q :: lockInsert qs r

/-- An owner as two numbers: 0 none, 1 a task, 2 a ring. -/
def ownerKey : Owner → List Nat
  | .task t => [1, t]
  | .desc sq _ => [2, sq]
  | .nobody => [0, 0]

/-- Mirror a lock at its grant or release: owner, ABANDONED and queue (R609). -/
def State.mirrorLock (s : State) (k : Nat) : State :=
  let l := s.lock k
  s.mirror { kind := 2, key := [k] ++ ownerKey (l.owner.getD .nobody) ++ [b2n l.abandoned] ++
    l.queue.flatMap (fun r => ownerKey r.who ++ [r.prio]) }

/-- Grant lock k to an owner (R466, R467). -/
def State.lockGrant (s : State) (k : Nat) (o : Owner) : State :=
  let ab := (s.lock k).abandoned
  let s1 := (s.upLock k (fun l => { l with owner := some o, abandoned := false })).mirrorLock k
  match o with
  | .task tid =>
    (s1.upTask tid (fun t => { t with locks := t.locks ||| 2 ^ k, lockAb := ab })).setFlags tid 0x10
  | .desc sq idx =>
    let body := leBytes 1 k ++ leBytes 1 (b2n ab)
    s1.complete sq idx { status := if ab then 5 else 0, qual := if ab then 32 else 0, val0 := k, body := body }
  | .nobody => s1

/-- Whether an owner holds a lock: a task by ID, a ring by number (R466). -/
def ownerIs (o : Option Owner) (w : Owner) : Bool := match o, w with
  | some (.task a), .task b => a == b
  | some (.desc a _), .desc b _ => a == b
  | _, _ => false

/-- Release lock k, normally or abandoned, and grant it to the head of its queue (R466, R467). -/
def State.lockRelease (s : State) (k : Nat) (abandon : Bool) : State :=
  let l := s.lock k
  let s0 := match l.owner with
    | some (.task tid) => s.upTask tid (fun t => { t with locks := t.locks - (t.locks &&& 2 ^ k) })
    | _ => s
  let s1 := s0.upLock k (fun l => { l with owner := none, abandoned := abandon, queue := l.queue.drop 1 })
  match l.queue with
  | [] => s1.mirrorLock k
  | r :: _ => s1.lockGrant k r.who

/-- Request lock k (R466). -/
def State.lockRequest (s : State) (k : Nat) (r : LockReq) : State :=
  if (s.lock k).owner = none then s.lockGrant k r.who
  else s.upLock k (fun l => { l with queue := lockInsert l.queue r })

/-- Release every lock an owner holds, with ABANDONED set (R467). -/
def State.abandonLocks (s : State) (o : Owner) : State :=
  (List.range 32).foldl (fun s k => if ownerIs (s.lock k).owner o then s.lockRelease k true else s) s

/-- Take requests out of every lock queue. -/
def State.unqueueLocks (s : State) (p : Owner → Bool) : State :=
  { s with paddock := { s.paddock with
      locks := s.paddock.locks.map (fun l => { l with queue := l.queue.filter (fun r => !p r.who) }) } }

/-! ### Operations that tasks and descriptors issue -/

/-- The bit of RETRY_ON for a status (R410); none for a status that is never retried (R422). -/
def retryBit (st : Nat) : Option Nat :=
  if st = 0x31 then some 0 else if st = 0x30 then some 1 else if st = 0x20 then some 2 else if st = 0x32 then some 3
  else if st = 0x10 then some 4 else none

/-- LAST_ERR after a status of 0x10 or above (R408). -/
def lastErrOf (st op stepIdx flow : Nat) : Nat := st + op * 2 ^ 8 + stepIdx * 2 ^ 16 + flow * 2 ^ 32

/-- Write an operation slot and raise its done flag (R414): flags 0 to 3 for BURST, MEAS, ACQ, PE (R456). -/
def State.writeSlot (s : State) (tid k : Nat) (bs : List Byte) : State :=
  (s.upTask tid (fun t => { t with ops := t.ops.modify k (fun o =>
    { o with res := bs, busy := false, retryAt := none, restart := none, last := [], v0 := false }) })).setFlags tid (2 ^ k)

/-- An ending task with no operation outstanding: its locks are released with ABANDONED and its TASK_END is queued (R436, R497). -/
def State.settleTask (s : State) (tid : Nat) : State :=
  match s.task tid with
  | none => s
  | some t =>
    if t.state = 5 && !t.posted && t.ops.all (fun o => !o.busy) then
      let (st, q) := t.fin.getD (0, 0)
      ((s.abandonLocks (.task tid)).upTask tid (fun t => { t with posted := true })).queueEvent
        { typ := 1, b2 := st, b3 := q, aux := t.exit, p0 := tid + t.lastStep.1 * 2 ^ 16 + t.lastStep.2 * 2 ^ 32, p1 := t.lastErr
          p2 := s.dtime }
    else s

/-- An attempt of a task's operation ends (R422): it is retried after RETRY_GAP, or its slot is written. `ck` is the last
committed checkpoint of that attempt and `resumable` its object's flag (R423). A part of a burst across chips follows the leading chip, whose
decision no message carries: it is free where this part could be retried (R417; log entry 40). -/
def State.taskOpEnd (s : State) (tid k : Nat) (r : Result) (ck : Option Ckpt) (resumable : Bool) : State :=
  match s.task tid with
  | none => s
  | some t =>
    let o := t.ops.getD k {}
    let op := fld o.step 0 1
    let bs := r.bytes op o.stepIdx o.attempts s.dtime
    let s1 := if r.status ≥ 0x10 then
        s.upTask tid (fun t => { t with lastErr := lastErrOf r.status op o.stepIdx o.flow }) else s
    let rmax := fld o.step 2 1 % 16
    let mode := fld o.step 2 1 / 16 % 4
    let last := ck.or o.restart
    let follows := k = 0 && t.groupId = 0xFFFF && (kGet s.sites t.siteId).any (fun x => x.xchip && x.leader ≠ s.pos)
    let named : Bool := (retryBit r.status).any (fun b => (fld o.step 3 1).testBit b)
    let wants : Bool := if follows then (named || r.status < 0x10) && fld o.step 3 1 ≠ 0 && Config.freeValue s.freeCtr % 2 = 1 else named
    let again := wants && o.attempts < rmax + 1 && !(mode = 2 && (last.isNone || !resumable))
    let s2 := if follows then s1.draw else s1
    if again && t.state ≠ 5 then
      s2.upTask tid (fun t => { t with ops := t.ops.modify k (fun o => { o with
        retryAt := some (s.dtime + 1000 * fld o.step 6 2), last := bs
        restart := if mode = 0 || !resumable then none else if mode = 2 then last else ck }) })
    else (s2.writeSlot tid k bs).settleTask tid

/-- An operation ends for whoever issued it. -/
def State.opEnd (s : State) (o : Owner) (k : Nat) (r : Result) (ck : Option Ckpt := none) (resumable : Bool := false) : State :=
  match o with
  | .desc sq idx => s.complete sq idx r
  | .task tid => s.taskOpEnd tid k r ck resumable
  | .nobody => s

end Sys2Proof.Machine
end

