-- ==== Sys2Proof/Machine/Sites.lean ====
section
/-! DEFINITION. Sites, lockstep groups and the mapping to slices (03_sites_and_slices.md): the checks of a declaration, its
effect, and the move or block of what a retired slice served. -/

namespace Sys2Proof.Machine

/-! ### What a site is -/

/-- The declared site with an ID. -/
def State.site (s : State) (id : Nat) : Option Site := kGet s.sites id

/-- The state with a site changed. -/
def State.upSite (s : State) (id : Nat) (f : Site → Site) : State := { s with sites := kUpd s.sites id f }

/-- The lockstep group with an ID. -/
def State.grp (s : State) (id : Nat) : Option Group := kGet s.groups id

/-- The site's local channels in cluster n, 16 bits (R14). -/
def Site.local (x : Site) (n : Nat) : Nat := bitsOf x.chmask (16 * n) 16

/-- The clusters a site occupies, rising. -/
def Site.clusters (x : Site) : List Nat := (List.range 12).filter (fun n => x.local n ≠ 0)

/-- The site's global channels, rising; the j-th carries pin PIN_BASE + j (R70). -/
def Site.chans (x : Site) : List Nat := bitList 192 x.chmask

/-- The channel groups that hold a channel of a 16-bit local mask (R66). -/
def grpMask (m : Nat) : Nat := maskOf ((List.range 4).filter (fun g => bitsOf m (4 * g) 4 ≠ 0))

/-- The declared members of a group by index: ascending lowest channel (R75). -/
def State.members (s : State) (g : Nat) : List Site :=
  ((s.sites.map (·.2)).filter (fun x => x.group == some g)).mergeSort
    (fun a b => (a.chans.headD 192) ≤ (b.chans.headD 192))

/-- The member index of a site in its group. -/
def State.memberIdx (s : State) (g id : Nat) : Option Nat := (s.members g).findIdx? (fun x => x.id == id)

/-- What a site's bursts run on: itself, or its group (R76). -/
def Site.ent (x : Site) : Ent := match x.group with
  | some g => .group g
  | none => .site x.id

/-- The slices of a site or group. -/
def State.entSlices (s : State) : Ent → List Nat
  | .site id => match s.site id with
    | some x => x.slices
    | none => []
  | .group g => match s.grp g with
    | some x => x.slices
    | none => []

/-- A site or group is declared. -/
def State.declared (s : State) : Ent → Bool
  | .site id => (s.site id).isSome
  | .group g => (s.grp g).isSome

/-- A site or group is blocked (R87, R89). -/
def State.blocked (s : State) : Ent → Bool
  | .site id => match s.site id with
    | some x => x.blocked || (match x.group with
      | some g => (s.grp g).any (fun y => y.blocked)
      | none => false)
    | none => false
  | .group g => (s.grp g).any (fun y => y.blocked)

/-- The sites of a site or group: itself, or its members. -/
def State.entSites (s : State) : Ent → List Site
  | .site id => (s.site id).toList
  | .group g => s.members g

/-- A burst of a site or group is queued for admission, admitted or running. -/
def State.busy (s : State) (e : Ent) : Bool := s.bursts.any (fun b => b.ent == e)

/-- The burst of a site or group. -/
def State.burst (s : State) (e : Ent) : Option Burst := s.bursts.find? (fun b => b.ent == e)

/-- The state with the burst of a site or group changed. -/
def State.upBurst (s : State) (e : Ent) (f : Burst → Burst) : State :=
  { s with bursts := s.bursts.map (fun b => if b.ent = e then f b else b) }

/-- A logical slice is live: backed and not retired (R86). -/
def Slice.live (x : Slice) : Bool := x.phys.isSome && !x.retired

/-- The lowest-numbered live, unused slice of cluster n (R68). -/
def State.freeSlice (s : State) (n : Nat) : Option Nat :=
  ((List.range 4).map (fun i => 4 * n + i)).find? (fun g => (s.sl g).live && (s.sl g).ent == none)

/-- A multi-slice site: several clusters, or several chips (R67). -/
def Site.multi (x : Site) : Bool := x.xchip || x.clusters.length > 1

/-! ### Declaration -/

/-- The site a DECLARE_SITE body describes (R69). -/
def declBody (b : List Byte) : Site :=
  let fl := fld b 20 1
  { id := fld b 16 2, group := if fld b 18 2 = 0xFFFF then none else some (fld b 18 2)
    xchip := fl.testBit 0, dutpwr := fl.testBit 1, maskFirst := fl.testBit 2, span := fld b 21 1, pinBase := fld b 22 2
    chmask := fld b 24 24, npins := fld b 48 2, leader := fld b 50 1, chain := fld b 51 3 }

/-- It names an absent or retired channel or filter chain (R72). -/
def State.declAbsent (s : State) (x : Site) : Bool :=
  x.chans.any (fun k => k / 16 ≥ s.nCl || (((s.cl (k / 16)).chans.getD (k % 16) {}).retired)) ||
  (bitList 24 x.chain).any (fun k => k ≥ s.nChain || s.chainsBad.contains k)

/-- A declared site holds its channel groups while blocked, unless it is of group `g` (R71, R87). -/
def State.holds (s : State) (y : Site) (g : Option Nat) : Bool := match y.group with
  | some h => (s.grp h).any (fun z => z.blocked) && g != some h
  | none => y.blocked

/-- The channel groups of cluster n held by blocked sites or groups, other than group `g` (R71, R87). -/
def State.heldGroups (s : State) (n : Nat) (g : Option Nat) : Nat :=
  (s.sites.map (·.2)).foldl (fun a y => if s.holds y g then a ||| grpMask (y.local n) else a) 0

/-- The channel groups of cluster n owned by slices that do not serve group `g` (R71). -/
def State.ownedGroups (s : State) (n : Nat) (g : Option Nat) : Nat :=
  (List.range 4).foldl (fun a i =>
    let z := s.sl (4 * n + i)
    if g.isSome && z.ent == g.map Ent.group then a else a ||| z.grp) 0

/-- The site or group owns DUTPWR_EN of cluster n, apart from site `x` and its own group (R71, R74). -/
def State.dutpwrTaken (s : State) (x : Site) (n : Nat) : Bool :=
  (s.sites.map (·.2)).any (fun y => y.dutpwr && y.local n ≠ 0 && !(x.group.isSome && y.group == x.group))

/-- The ring length (R596). -/
def State.ringN (s : State) : Nat := s.rf F.RING_CFG_N

/-- The lockstep conditions for a declaration (R75). -/
def State.lockstepOk (s : State) (x : Site) : Bool := match x.group with
  | none => true
  | some g =>
    let ms := s.members g
    x.clusters.length ≤ 1 && !x.xchip && x.span = 1 && x.pinBase = 0 && x.chans.length = x.npins && ms.length < 16 &&
      ms.all (fun y => y.npins = x.npins && y.clusters == x.clusters)

/-- The checks of R71 hold, and the domains of R660 are on. -/
def State.declOk (s : State) (b : List Byte) : Bool :=
  let x := declBody b
  x.id ≠ 0xFFFF && (s.site x.id).isNone && x.chmask ≠ 0 && 0 < x.npins && x.npins ≤ 512 &&
  x.pinBase + x.chans.length ≤ x.npins && 0 < x.span && x.span ≤ 32 && (x.xchip == decide (2 ≤ x.span)) &&
  x.span ≤ s.ringN && !(x.leader ≠ 0 && x.span = 1) && x.leader < s.ringN &&
  (s.sites.map (·.2)).all (fun y => y.chmask &&& x.chmask = 0) &&
  x.clusters.all (fun n => grpMask (x.local n) &&& (s.ownedGroups n x.group ||| s.heldGroups n x.group) = 0) &&
  (bitList 24 x.chain).all (fun k => x.clusters.contains (k / 2)) &&
  (s.sites.map (·.2)).all (fun y => y.chain &&& x.chain = 0) &&
  !(x.dutpwr && x.clusters.any (s.dutpwrTaken x)) &&
  x.clusters.all (fun n => s.domOn (5 * n) && s.domOn (5 * n + 1) && s.domOn (5 * n + 2)) &&
  fld b 20 1 < 8 && zeroes b 54 10 && s.lockstepOk x

/-- How each occupied cluster can be mapped (R72): a slice, none, or blocked. -/
def State.mapCluster (s : State) (n : Nat) : Nat :=
  if (s.freeSlice n).isSome then 0 else if (List.range 4).any (fun i => (s.sl (4 * n + i)).retired) then 2 else 1

/-- The field of CL_n_SITE_MASK of slice g: the stored bits. -/
def State.siteMask (s : State) (g : Nat) : Nat := s.rf (F.CL_SITE_MASK_MASK.at (g % 4)) [g / 4]

/-- The state with the CL_n_SITE_MASK field of slice g set. -/
def State.setSiteMask (s : State) (g v : Nat) : State := s.setRf (F.CL_SITE_MASK_MASK.at (g % 4)) [g / 4] v

/-- The mask bits of a group that R89 holds: its blocked members, by index. -/
def State.stickyMask (s : State) (g : Nat) : Nat :=
  maskOf ((List.range 16).filter (fun i => ((s.members g)[i]?).any (fun x => x.blocked)))

/-- After a membership change: CL_n_SITE_MASK reads 0 but for members blocked under R89 (R80). -/
def State.remask (s : State) (g : Nat) : State :=
  (s.entSlices (.group g)).foldl (fun s k =>
    let m := s.stickyMask g
    (s.setSiteMask k m).upSl k (fun z => { z with sticky := m })) s

/-- A slice takes up an entity with its channel groups (R68). -/
def State.giveSlice (s : State) (g : Nat) (e : Ent) (grp : Nat) : State :=
  (s.upSl g (fun z => { z with ent := some e, grp := z.grp ||| grp }))

/-- A site or group as two numbers: 0 for a site, 1 for a group. -/
def entKey : Ent → List Nat
  | .site id => [0, id]
  | .group g => [1, g]

/-- Mirror the mapping of a site or group (R609). -/
def State.mirrorMap (s : State) (e : Ent) : State :=
  s.mirror { kind := 6, key := entKey e ++ [b2n (s.blocked e)] ++ s.entSlices e }

/-- The state with the slices of a site or group listed. -/
def State.setEntSlices (s : State) (e : Ent) (l : List Nat) : State := match e with
  | .site id => (s.upSite id (fun x => { x with slices := l })).mirrorMap e
  | .group g => { s with groups := kUpd s.groups g (fun x => { x with slices := l }) }.mirrorMap e

/-- The effect of a declaration that has passed R71 (R68, R72, R75): the next state and the status. The CL_n_SITE_MASK field of a slice that
takes a site outside any group reads 0 from then on (DESIGN CHOICE, log entry 36). -/
def State.declare (s : State) (x : Site) : State × Nat :=
  match x.group with
  | some g =>
    let n := x.clusters.headD 0
    match s.grp g with
    | some y =>
      let s1 := { s with sites := kSet s.sites x.id x }
      if y.blocked then (s1, 0x15)
      else
        let s2 := y.slices.foldl (fun s k => s.giveSlice k (.group g) (grpMask (x.local n))) s1
        (s2.remask g, 0)
    | none =>
      match s.mapCluster n with
      | 1 => (s, 0x11)
      | k =>
        let s1 := { s with
          sites := kSet s.sites x.id x, groups := kSet s.groups g { id := g, cluster := n, blocked := k = 2 } }
        match s.freeSlice n with
        | some f => (((s1.giveSlice f (.group g) (grpMask (x.local n))).setEntSlices (.group g) [f]).remask g, 0)
        | none => (s1, 0x15)
  | none =>
    let rows := x.clusters.map s.mapCluster
    if rows.contains 1 then (s, 0x11)
    else if rows.contains 2 then ({ s with sites := kSet s.sites x.id { x with blocked := true } }, 0x15)
    else
      let fs := x.clusters.filterMap (fun n => (s.freeSlice n).map (fun f => (n, f)))
      let s1 := { s with sites := kSet s.sites x.id { x with slices := fs.map (·.2) } }
      (fs.foldl (fun s p => (s.giveSlice p.2 (.site x.id) (grpMask (x.local p.1))).setSiteMask p.2 0) s1, 0)

/-! ### Waiting declarations (R73, R80, R90) -/

/-- The site and group that a DECLARE_SITE or UNDECLARE_SITE in flight names. -/
def State.declNames (s : State) (d : Desc) : Nat × Option Nat :=
  let id := fld d.bytes 16 2
  if d.op = 1 then (id, (declBody d.bytes).group) else (id, (s.site id).bind (fun x => x.group))

/-- A declaration or undeclaration waits. -/
def Waiting.isDecl (w : Waiting) : Bool := w.kind == .declare || w.kind == .undeclare

/-- An earlier waiting declaration names the same site or the same group (R73). -/
def State.declHeld (s : State) (d : Desc) : Bool :=
  let (id, g) := s.declNames d
  (s.waiting.takeWhile (fun w => !(w.sq == d.sq && w.idx == d.idx))).any (fun w => w.isDecl &&
    match s.desc w.sq w.idx with
    | some e => let (id', g') := s.declNames e
                id' = id || (g.isSome && g == g')
    | none => false)

/-- It is a declaration's or undeclaration's turn: every one accepted earlier has begun (R73). -/
def State.declFirst (s : State) (d : Desc) : Bool :=
  (s.host.inflight.takeWhile (fun e => !(e.sq == d.sq && e.idx == d.idx))).all (fun e => !(e.op = 1 || e.op = 2) || e.started)

/-- A descriptor waits before it takes effect. -/
def State.wait (s : State) (w : Waiting) : State :=
  { s.begin w.sq w.idx with waiting := s.waiting ++ [w] }

/-- The waiting entry of a descriptor. -/
def State.waitOf (s : State) (sq idx : Nat) : Option Waiting := s.waiting.find? (fun w => w.sq == sq && w.idx == idx)

/-- A descriptor no longer waits. -/
def State.unwait (s : State) (sq idx : Nat) : State :=
  { s with waiting := s.waiting.filter (fun w => !(w.sq == sq && w.idx == idx)) }

/-- The status of a DECLARE_SITE by the tests of R72 and R71, in that order; 0 where both pass. -/
def State.declRefusal (s : State) (d : Desc) : Nat :=
  if s.declAbsent (declBody d.bytes) then 0x13 else if s.declOk d.bytes then 0 else 0x11

/-- DECLARE_SITE on its turn: refused, deferred while its group has a burst (R80), or carried out. -/
def State.declTurn (s : State) (d : Desc) : State :=
  let r := s.declRefusal d
  let x := declBody d.bytes
  if r ≠ 0 then (s.unwait d.sq d.idx).finish d.sq d.idx r
  else if x.group.isSome && s.busy x.ent then
    if (s.waitOf d.sq d.idx).isSome then s else s.wait { sq := d.sq, idx := d.idx, kind := .declare, ent := some x.ent }
  else
    let (s1, st) := (s.unwait d.sq d.idx).declare x
    (if s1.declared (.site x.id) then (s1.mirrorMap x.ent).placementChanged.keepAwake else s1).finish d.sq d.idx st

/-! ### Retirement of slices, channels and chains (R86-R89) -/

/-- Local channels of a mask go inert: DEN off, DRV held. -/
def State.inertChans (s : State) (n mask : Nat) : State :=
  s.upCl n (fun c => { c with chans := c.chans.zipIdx.map (fun p =>
    if mask.testBit p.2 then { p.1 with den := false } else p.1) })

/-- A slice is freed: it serves nothing and owns no groups. -/
def State.freeSl (s : State) (g : Nat) : State :=
  s.upSl g (fun z => { z with ent := none, grp := 0, sticky := 0, seq := { started := z.seq.started } })

/-- A site or group becomes blocked: it keeps its channels, loses its slices, and its channels go inert (R87). -/
def State.blockHere (s : State) (e : Ent) : State :=
  let s1 := (s.entSlices e).foldl (fun s g => s.freeSl g) s
  let s2 := (s.entSites e).foldl (fun s x => x.clusters.foldl (fun s n => s.inertChans n (x.local n)) s) s1
  let s3 := match e with
    | .site id => s2.upSite id (fun x => { x with blocked := true })
    | .group g => { s2 with groups := kUpd s2.groups g (fun x => { x with blocked := true }) }
  (s3.setEntSlices e []).placementChanged

/-- A site or group becomes blocked; a site that spans chips is blocked on every one of them, which learn of it by SYNC NOGO (R87; log entry
33). -/
def State.blockEnt (s : State) (e : Ent) : State :=
  let s1 := s.blockHere e
  match e with
  | .site id => match (s.site id).filter (fun x => x.xchip && !x.blocked) with
    | some x => s1.broadcast 0x66 3 s.dtime (id + St.blocked * 2 ^ 16 + x.tag * 2 ^ 32)
    | none => s1
  | .group _ => s1

/-- What a retired slice served moves to the lowest live, unused slice of its cluster, or becomes blocked; it waits while a
burst is queued or running (R87). -/
def State.moveSlice (s : State) (g : Nat) : State :=
  match (s.sl g).ent with
  | none => s
  | some e =>
    if !(s.sl g).retired || s.busy e then s
    else match s.freeSlice (g / 4) with
      | none => s.blockEnt e
      | some f =>
        let z := s.sl g
        let m := s.siteMask g
        let s1 := ((s.giveSlice f e z.grp).setSiteMask f m).upSl f (fun y => { y with sticky := z.sticky })
        let l := (s.entSlices e).map (fun k => if k = g then f else k)
        ((s1.freeSl g).setEntSlices e (l.mergeSort (· ≤ ·))).placementChanged

/-- Sites and groups that a retirement has to move or block once their bursts have ended (R87, R89). -/
def State.settleSlices (s : State) (e : Ent) : State :=
  let s1 := (s.entSlices e).foldl (fun s g => s.moveSlice g) s
  match e with
  | .group _ => s1
  | .site id => match s1.site id with
    | some x => if !s1.busy e && !x.blocked && s1.declAbsent x then s1.blockEnt e else s1
    | none => s1

/-- CAPS_LIVE after a change of live slices (R6): LIVE_SLICES and CL_LIVE. -/
def State.capsSlices (s : State) : State :=
  let live := (List.range (4 * s.nCl)).filter (fun g => (s.sl g).live)
  (s.setRf F.CAPS_LIVE_LIVE_SLICES [] live.length).setRf F.CAPS_LIVE_CL_LIVE []
    (maskOf ((List.range s.nCl).filter (fun n => live.any (fun g => g / 4 = n))))

/-- Retire a logical slice (R86, R688). -/
def State.retireSlice (s : State) (g : Nat) : State :=
  if (s.sl g).retired then s
  else (((s.upSl g (fun z => { z with retired := true, phys := none })).capsSlices.moveSlice g).degrade 1 (g / 4) (g % 4))

/-- The mask of a member applies from vector v of its group's running burst on; the first such vector is kept (R79). -/
def State.maskFrom (s : State) (id v : Nat) : State :=
  let r := (kGet s.results id).getD { site := id }
  { s with results := kSet s.results id { r with maskVec := r.maskVec.or (some v) } }

/-- The mask bit of a blocked member sets and stays set (R89); in a running burst it applies from the next vector on (R79). -/
def State.stickMember (s : State) (g id : Nat) : State :=
  match s.memberIdx g id with
  | none => s
  | some i =>
    let s1 := (s.entSlices (.group g)).foldl (fun s k =>
      (s.setSiteMask k (s.siteMask k ||| 2 ^ i)).upSl k (fun z => { z with sticky := z.sticky ||| 2 ^ i })) s
    if (s.burst (.group g)).any (fun b => b.running) then
      match s.entSlices (.group g) with
      | k :: _ => if (s.siteMask k).testBit i then s1 else s1.maskFrom id (s.sl k).seq.next
      | [] => s1
    else s1

end Sys2Proof.Machine
end

