-- ==== Sys2Proof/Machine/Placement.lean ====
section
/-! DEFINITION. Objects in device memory, free ranges, the translation of a device address, and the placement table
(06_admission_and_placement.md, R198-R210). -/

namespace Sys2Proof.Machine

/-! ### Channels -/

/-- Memory channel m beside its registers. -/
def State.mc (s : State) (m : Nat) : Mc := s.mcs.getD m {}

/-- The state with a memory channel changed. -/
def State.upMc (s : State) (m : Nat) (f : Mc → Mc) : State := { s with mcs := s.mcs.modify m f }

/-- Bytes of channel m's data space: 7/8 of its capacity (R528). -/
def State.chanSize (s : State) (m : Nat) : Nat := 2 ^ (30 + s.rf F.MC_STAT_CAP [m]) / 8 * 7

/-- RAW_m in MB/s from the trained rate (R187). -/
def State.rawRate (s : State) (m : Nat) : Nat := match s.rf F.MC_STAT_RATE [m] with
  | 1 => 8532
  | 2 => 11000
  | 3 => 12800
  | _ => 0

/-- LIMIT_m; 0 until the channel is trained (R187, R219). -/
def State.limit (s : State) (m : Nat) : Nat := s.rf F.ADM_CTL_CEIL_PCT * s.rawRate m / 100

/-- ADM_CH_m.BLOCKED: absent, retired, untrained, refresh above twice the base rate, or under repair (R219, R527, R548). -/
def State.chanBlocked (s : State) (m : Nat) : Bool :=
  !s.mcLive m || s.rf F.MC_STAT_RATE [m] = 0 || (s.mc m).hot || (s.mc m).repair.isSome

/-! ### Objects -/

/-- The loaded object with an ID: its load has completed, and no accepted unload of it is in flight (R117, R130). -/
def State.obj (s : State) (id : Nat) : Option Obj :=
  (kGet s.objs id).filter (fun o => !o.unloading && !s.host.inflight.any (fun d => d.unloads id o.kind))

/-- The object with the ID that an accepted unload names, as the unload finds it: no unload of it that was accepted earlier is in flight
(R122, R130, R404). -/
def State.objFor (s : State) (d : Desc) : Option Obj :=
  let id := fld d.bytes 16 4
  (kGet s.objs id).filter (fun o => !o.unloading &&
    !(s.host.inflight.takeWhile (fun e => !(e.sq = d.sq && e.idx = d.idx))).any (fun e => e.unloads id o.kind))

/-- The state with an object changed. -/
def State.upObj (s : State) (id : Nat) (f : Obj → Obj) : State := { s with objs := kUpd s.objs id f }

/-- An ID is an object's, a region's, or that of a load in progress (R117, R274). -/
def State.idHeld (s : State) (id : Nat) : Bool := kHas s.objs id || kHas s.regions id || s.loads.any (fun l => l.obj.id == id)

/-- An ID is in use: held, or accepted for a load that has not begun (R117). -/
def State.idUsed (s : State) (id : Nat) : Bool := s.idHeld id || s.host.inflight.any (fun d => d.claims id)

/-- Where byte x of an object lies: channel and channel offset (R200, R201). -/
def Obj.at (o : Obj) (x : Nat) : Nat × Nat :=
  let w := max 1 o.chans.length
  let u := x / 256
  (o.chans.getD (u % w) 0, o.base + 256 * (u / w) + x % 256)

/-- Channel offsets an object takes on each channel of its set. -/
def Obj.span (o : Obj) : Nat :=
  match o.kind with
  | .pattern => 256 * ceilDiv (ceilDiv o.size 256) (max 1 o.chans.length)
  | _ => o.size

/-- The object has bytes on channel m: a pattern its units k, k + w, ... of the k-th channel of its set (R200), another kind all of them. -/
def Obj.onChan (o : Obj) (m : Nat) : Bool := match o.kind with
  | .pattern => (o.chans.idxOf? m).any (fun k => 256 * k < o.size)
  | _ => o.chans.contains m

/-- Where byte x lies for the kinds that are placed whole (R201). -/
def Obj.place (o : Obj) (x : Nat) : Nat × Nat := match o.kind with
  | .pattern => o.at x
  | _ => (o.chans.headD 0, o.base + x)

/-- The reader of an object's bytes in device memory. -/
def State.rd (s : State) (o : Obj) : Rd := fun x =>
  let p := o.place x
  (Memory.get s.mem (devAddr p.1 p.2)).toNat

/-- n bytes of an object. -/
def State.objBytes (s : State) (o : Obj) (x n : Nat) : List Byte :=
  (List.range n).map (fun i => BitVec.ofNat 8 (s.rd o (x + i)))

/-- The state with bytes of an object stored, 256 at a time (R200). -/
def State.objStore (s : State) (o : Obj) (bs : List Byte) : State :=
  (List.range (ceilDiv bs.length 256)).foldl (fun s u =>
    let p := o.place (256 * u)
    s.memWrite p.1 p.2 (slice bs (256 * u) 256)) s

/-- An object's share of each channel of its set (R199). -/
def Obj.share (o : Obj) : Nat := ceilDiv o.q (max 1 o.chans.length)

/-- The objects that hold room: loaded, and loading. -/
def State.allObjs (s : State) : List Obj := s.objs.map (·.2) ++ s.loads.map (·.obj)

/-- The placed load of channel m (R199). -/
def State.placed (s : State) (m : Nat) : Nat :=
  ((s.allObjs.filter (fun o => o.kind == .pattern && o.chans.contains m)).map Obj.share).sum

/-- Byte ranges of channel m that are taken: objects, capture regions, the context area, and the pages of fenced rows
(R199, R201, R452, R549). -/
def State.taken (s : State) (m : Nat) : List (Nat × Nat) :=
  ((s.allObjs.filter (fun o => o.chans.contains m)).map (fun o => (o.base, o.span))) ++
  ((s.regions.filter (fun r => r.2.chan == m)).map (fun r => (r.2.base, r.2.size))) ++
  (match s.ctxArea with
    | some (b, n, cs) => if cs.contains m then [(b, n)] else []
    | none => []) ++
  (s.mc m).fences.map (fun f => ((16 * f.2 + f.1) * 1792, 1792))

/-- A range is free on channel m. -/
def State.rangeFree (s : State) (m base n : Nat) : Bool :=
  base + n ≤ s.chanSize m && (s.taken m).all (fun r => base + n ≤ r.1 || r.1 + r.2 ≤ base)

/-- The lowest multiple of 4 KiB at which n bytes are free on every listed channel (R199, R201). -/
def State.findBase (s : State) (ms : List Nat) (n : Nat) : Option Nat :=
  let cands := (0 :: (ms.flatMap (fun m => (s.taken m).map (fun r => roundUp (r.1 + r.2) 4096)))).mergeSort (· ≤ ·)
  cands.find? (fun b => ms.all (fun m => s.rangeFree m b n))

/-- The W live channels with the least placed load, lower numbers first, rising (R199). -/
def State.stripeSet (s : State) (w : Nat) : List Nat :=
  (((s.liveChans.mergeSort (fun a b => s.placed a < s.placed b || (s.placed a = s.placed b && a ≤ b)))).take w).mergeSort
    (· ≤ ·)

/-- W for a demand Q: the smallest with Q ÷ W ≤ 1,600, at most the live channels (R199). -/
def State.stripeW (s : State) (q : Nat) : Nat := min (max 1 (ceilDiv q 1600)) s.liveChans.length

/-- Room for a pattern object of a size and Q: stripe set and BASE, widening W as needed (R199). -/
def placeFrom (s : State) (size : Nat) : Nat → Nat → Option (List Nat × Nat)
  | 0, _ => none
  | fuel + 1, w =>
    if w > s.liveChans.length || w = 0 then none
    else
      let set := s.stripeSet w
      match s.findBase set (256 * ceilDiv (ceilDiv size 256) w) with
      | some b => some (set, b)
      | none => placeFrom s size fuel (w + 1)

/-- Room for a pattern object (R199). -/
def State.placePattern (s : State) (size q : Nat) : Option (List Nat × Nat) := placeFrom s size 8 (s.stripeW q)

/-- Object and parts of each admitted burst: those of this chip, and those a standby reserves for its partner (R609). -/
def State.heldParts (s : State) : List (Nat × List Part) :=
  (s.bursts.filter (fun b => b.admitted)).map (fun b => (b.obj, b.parts)) ++ s.pair.bursts.map (fun b => (b.obj, b.parts))

/-- The admitted real-time load of channel m (R189, R219). -/
def State.admittedOn (s : State) (m : Nat) : Nat :=
  (s.heldParts.map (fun b =>
    match kGet s.objs b.1 with
    | some o => if o.chans.contains m then (b.2.map (fun p => p.dch)).sum else 0
    | none => 0)).sum

/-- Capture-region bytes of channel m (R201). -/
def State.regionBytes (s : State) (m : Nat) : Nat := ((s.regions.filter (fun r => r.2.chan == m)).map (fun r => r.2.size)).sum

/-- Room for a region or an object placed whole: channel and offset (R201). -/
def State.placeWhole (s : State) (n : Nat) : Option (Nat × Nat) :=
  let cs := s.liveChans.filterMap (fun m => (s.findBase [m] n).map (fun b => (m, b)))
  bestBy (fun p => [s.admittedOn p.1, s.regionBytes p.1, p.1]) cs

/-! ### The context area (R452, R533) -/

/-- The four units of the i-th KiB of a context area at channel offset b over w channels lie so that no channel's share crosses a DRAM page
(R528, R533). -/
def ctxFits (b w i : Nat) : Bool :=
  (List.range 4).all (fun x => (List.range 4).all (fun y =>
    (4 * i + x) % w ≠ (4 * i + y) % w || (b / 256 + (4 * i + x) / w) / 7 = (b / 256 + (4 * i + y) / w) / 7))

/-- The KiB that hold a context, of the 7 w after which the pages repeat; the others are skipped (R533). -/
def ctxSlots (b w : Nat) : List Nat := (List.range (7 * w)).filter (ctxFits b w)

/-- Bytes of the context area on each of w channels, for 4,096 contexts: 4 MiB in all, and what is skipped (R452, R533). -/
def ctxBytes (w : Nat) : Nat :=
  let n := (ctxSlots 0 w).length
  if n = 7 * w then 256 * ceilDiv 16384 w else ceilDiv 4096 n * 7168

/-- The context that holds the i-th KiB of the area, by its TASK_ID: contexts lie in the order of TASK_ID (DESIGN CHOICE, log entry 35). -/
def ctxAt (b w i : Nat) : Option Nat :=
  ((ctxSlots b w).idxOf? (i % (7 * w))).map (fun k => i / (7 * w) * (ctxSlots b w).length + k)

/-! ### Translation (R210) -/

/-- The object offset of a channel offset, if the object has a byte there (the inverse of R200). -/
def Obj.find (o : Obj) (m off : Nat) : Option Nat :=
  if off < o.base || o.base + o.span ≤ off then none
  else match o.kind with
    | .pattern =>
      match o.chans.idxOf? m with
      | none => none
      | some k =>
        let w := max 1 o.chans.length
        let x := ((off - o.base) / 256 * w + k) * 256 + (off - o.base) % 256
        if x < o.size then some x else none
    | _ => if o.chans.contains m then some (off - o.base) else none

/-- What a device address belongs to (R209, R210, R545): IDKIND, ID, offset. 1 object, 2 capture region, 4 task context. -/
def State.translate (s : State) (a : Nat) : Nat × Nat × Nat :=
  let m := a / 2 ^ 36
  let off := a % 2 ^ 36
  match (s.objs.map (·.2)).findSome? (fun o => (o.find m off).map (fun x => (o.id, x))) with
  | some (id, x) => (1, id, x)
  | none =>
    match (s.regions.map (·.2)).find? (fun r => r.chan = m && r.base ≤ off && off < r.base + r.size) with
    | some r => (2, r.id, off - r.base)
    | none =>
      match s.ctxArea with
      | some (b, n, cs) =>
        match cs.idxOf? m with
        | some k =>
          let x := ((off - b) / 256 * cs.length + k) * 256 + (off - b) % 256
          match (if b ≤ off && off < b + n then ctxAt b cs.length (x / 1024) else none) with
          | some tid => (4, tid, x % 1024)
          | none => (0, 0xFFFFFFFF, 0)
        | none => (0, 0xFFFFFFFF, 0)
      | none => (0, 0xFFFFFFFF, 0)

/-! ### The placement table (R207-R209) -/

/-- One 32-byte entry from pieces at offsets. -/
def entry (kind : Nat) (fs : List (Nat × Nat × Nat)) : List Byte :=
  fs.foldl (fun l f => setFld l f.1 f.2.1 f.2.2) (setFld (zeros 32) 0 1 kind)

/-- An object entry. -/
def objEntry (o : Obj) : List Byte :=
  entry 1 [(1, 1, b2n o.keep + 2 * b2n o.prefer + 4 * b2n o.branch + 8 * b2n o.lost + 16 * b2n (o.kind == .pattern)),
    (2, 1, o.chans.length), (3, 1, maskOf o.chans), (4, 4, o.id), (8, 8, o.size), (16, 8, o.base), (24, 4, o.q)]

/-- The ADM_STATE of a burst (R209). -/
def Burst.admState (b : Burst) : Nat := if b.running then 3 else if b.admitted then 2 else 1

/-- The entries of a site: one per part on this chip; while it has no slice one, with both slice fields 0xFF (DESIGN CHOICE, log entry 38). -/
def State.siteEntries (s : State) (x : Site) : List (List Byte) :=
  let e := x.ent
  let b := s.burst e
  let gs : List (Option Nat) := match s.entSlices e with
    | [] => [none]
    | l => l.map some
  gs.map (fun g =>
    let n := match g with
      | some k => k / 4
      | none => x.clusters.headD 0
    let p := (b.bind (fun b => b.parts.find? (fun p => some p.slice == g))).getD { slice := 0 }
    entry 2 [(1, 1, b2n (s.blocked (.site x.id)) + 2 * b2n x.group.isSome + 4 * b2n x.multi + 8 * b2n x.xchip), (2, 2, x.id),
      (4, 2, x.group.getD 0xFFFF), (6, 1, n), (7, 1, match g with
        | some k => k % 4
        | none => 0xFF),
      (8, 1, match g with
        | some k => (s.sl k).phys.getD 7
        | none => 0xFF),
      (9, 1, match x.group with
        | some h => (s.memberIdx h x.id).getD 0xFF
        | none => 0xFF),
      (12, 4, match b with
        | some b => b.obj
        | none => 0xFFFFFFFF),
      (16, 1, match b with
        | some b => b.admState
        | none => 0), (20, 4, p.d), (24, 2, p.share)])

/-- A region entry. -/
def regionEntry (r : Region) : List Byte :=
  entry 3 [(1, 1, b2n r.lost), (2, 2, r.site), (4, 4, r.id), (8, 8, devAddr r.chan r.base), (16, 8, r.size)]

/-- A cache entry. -/
def cacheEntry (c : CacheEnt) : List Byte :=
  entry 4 [(1, 1, c.kind), (2, 1, c.cluster), (3, 1, if c.holder.isSome then 1 else 2), (4, 4, c.obj), (8, 4, c.bytes), (16, 8, c.lastUse)]

/-- The mirrored mapping becomes this chip's mapping (R609, R719). -/
def State.mapShadow (s : State) : State :=
  let l := s.pair.maps.filter (fun m => m.2.1 ≠ 2 && s.declared m.1)
  let s1 := { s with slices := s.slices.map (fun x => if x.ent.any (fun e => l.any (fun m => m.1 == e)) then
    { x with ent := none, grp := 0 } else x) }
  l.foldl (fun s m =>
    let masks (g : Nat) : Nat := (s.entSites m.1).foldl (fun a x => a ||| grpMask (x.local (g / 4))) 0
    let s2 := m.2.2.foldl (fun s g => s.giveSlice g m.1 (masks g)) s
    match m.1 with
    | .site id => s2.upSite id (fun x => { x with slices := m.2.2, blocked := m.2.1 = 1 })
    | .group g => { s2 with groups := kUpd s2.groups g (fun x => { x with slices := m.2.2, blocked := m.2.1 = 1 }) }.remask g) s1

/-- The mirrored LOST marks become this chip's marks (R609). -/
def State.lostShadow (s : State) : State := s.pair.lostObjs.foldl (fun s id =>
  { (s.upObj id (fun o => { o with lost := true })) with regions := kUpd s.regions id (fun r => { r with lost := true }) }) s

/-- What a standby's READ_PLACEMENT shows (R608, R609): the mirrored mapping, marks, bursts and tasks, over this chip's own addresses. -/
def State.placementView (s : State) : State :=
  if s.pair.role ≠ 2 then s
  else
    let s1 := s.mapShadow.lostShadow
    let bs := s.pair.bursts.map (fun b => ({ ent := b.ent, owner := .nobody, obj := b.obj, named := b.obj, mode := b.mode, prio := b.prio
                                             arrival := 0, submitted := 0, admitted := true, parts := b.parts } : Burst))
    let ts := s.pair.tasks.map (fun t => (t.1, ({ siteId := fld t.2.data 4 2, home := fld t.2.data 14 1, flow := 0, step := 0 } : Task)))
    { s1 with bursts := bs, paddock := { s1.paddock with tasks := ts } }

/-- The entries of a snapshot, within a kind in ascending order of the first ID field (R208), then of the next ones. A translation entry of
RESULT 0 shows ID 0xFFFFFFFF and offset 0, one of RESULT 3 ID 0 and offset 0 (R209 gives neither; DESIGN CHOICE, log entry 32). Bits of
XADDR above bit 39 are not looked at (DESIGN CHOICE, log entry 38). -/
def State.placementEntries (s0 : State) (sel xaddr : Nat) : List (List Byte) :=
  let s := s0.placementView
  (if sel.testBit 0 then s.objs.map (fun p => objEntry p.2) else []) ++
  (if sel.testBit 1 then s.sites.flatMap (fun p => s.siteEntries p.2) else []) ++
  (if sel.testBit 2 then ((s.regions.map (·.2)).mergeSort (fun a b => a.site < b.site || (a.site = b.site && a.id ≤ b.id))).map
    regionEntry else []) ++
  (if sel.testBit 3 then (s.cache.mergeSort (fun a b => a.obj < b.obj || (a.obj = b.obj && (a.kind < b.kind || (a.kind = b.kind && a.cluster ≤ b.cluster))))).map
    cacheEntry else []) ++
  (if sel.testBit 4 then s.paddock.tasks.map (fun p =>
    entry 5 [(2, 2, p.1), (4, 2, p.2.siteId), (6, 1, p.2.home)]) else []) ++
  (if sel.testBit 5 then
    let (k, id, x) := s.translate (xaddr % 2 ^ 40)
    [entry 6 [(1, 1, if k = 4 then 3 else k), (4, 4, if k = 4 then 0 else id), (8, 8, xaddr), (16, 8, if k = 4 then 0 else x)]]
   else [])

/-- The header of a snapshot (R208). -/
def State.placementHeader (s : State) (total written : Nat) : List Byte :=
  padTo (leBytes 4 0x434C5044 ++ leBytes 2 1 ++ leBytes 2 32 ++ leBytes 4 total ++ leBytes 4 written ++ leBytes 8 s.dtime ++
    leBytes 8 s.gen ++ leBytes 1 (s.rf F.CAPS_LIVE_MC_LIVE) ++ leBytes 1 (s.rf F.ADM_CTL_CEIL_PCT)) 64

/-- READ_PLACEMENT descriptor (R207, R208). -/
def doReadPlacement (sq idx : Nat) (s : State) : State :=
  s.withDesc sq idx 0x1A (fun d =>
    let b := d.bytes
    if fld b 16 1 ≥ 64 || !zeroes b 17 7 || fld b 24 8 % 64 ≠ 0 || fld b 32 4 % 64 ≠ 0 || fld b 32 4 < 64 ||
        !zeroes b 36 4 || !zeroes b 48 16 then s.finish sq idx 0x11
    else
      let es := s.placementEntries (fld b 16 1) (fld b 40 8)
      let w := min es.length ((fld b 32 4 - 64) / 32)
      let (s1, ok) := s.hostWrite sq (fld b 24 8) (s.placementHeader es.length w ++ (es.take w).flatten)
      if ok then s1.complete sq idx { status := 0, val0 := es.length + w * 2 ^ 32, val1 := s.gen }
      else s1.writeFailed sq idx)

/-- READ_PLACEMENT (R208). -/
def execReadPlacement (sq idx : Nat) (s : State) : Host.Outcome State Fault Refusal := .next (doReadPlacement sq idx s)

end Sys2Proof.Machine
end

