-- ==== Sys2Proof/Machine/Objects.lean ====
section
/-! DEFINITION. Loading objects: LOAD_PATTERN, LOAD_FLOW, LOAD_PE_LIST, and the completion of a load (R117-R121, R125, R127,
R129, R199-R201, R400-R403, R611); the fallback link of an APG object (R330). -/

namespace Sys2Proof.Machine

/-- The body checks of a load descriptor (R119): its ID held by no object, region or earlier load, address and length, reserved fields. -/
def State.loadBodyOk (s : State) (d : Desc) (addr len : Nat) (rsv : Bool) : Bool :=
  let id := fld d.bytes 16 4
  id ≠ 0xFFFFFFFF && !d.loses && !s.idHeld id && addr % 64 = 0 && len ≠ 0 && len % 64 = 0 && rsv

/-- What the acceptance of a load does to the ID it names (R117, R129): the first accepted load holds a free ID. An accepted unload stands
against every name of its object by being in flight (State.obj, R130). -/
def State.acceptId (s : State) (d : Desc) : State :=
  let id := fld d.bytes 16 4
  if d.isLoad &&
      (s.loads.any (fun l => l.obj.id = id) || s.host.inflight.any (fun e => !(e.sq = d.sq && e.idx = d.idx) && e.claims id)) then
    s.upDesc d.sq d.idx (fun d => { d with loses := true })
  else s

/-- A load that a check or placement has ended: nothing of the object remains and its ID is free (R121). -/
def State.dropLoad (s : State) (sq idx : Nat) : State :=
  { s with loads := s.loads.filter (fun l => !(l.sq == sq && l.idx == idx)) }

/-- The completion of a pattern load that failed a check (R121, R127). -/
def loadFailed (f : Fail) : Result :=
  { status := St.badPattern, reason := f.code, aux := f.stream, val0 := f.off, pcheck := f.code, stream := f.stream,
    pcWhere := f.off }

/-- A load that found no room (R121, R127, R201). -/
def loadNoSpace (pattern : Bool) : Result :=
  if pattern then { status := St.denied, reason := 0x0A, aux := 0xFF, rreason := 0x0A, pcheck := 0x80, stream := 0xFF }
  else { status := St.denied, reason := 0x0A, rreason := 0x0A }

/-- The completion of a flow or list load that failed a check (R402). -/
def flowFailed (f : FFail) : Result := { status := St.bad, reason := f.code, rreason := f.code, val0 := f.idx }

/-- LOAD_PATTERN (R119): checks, header checks, room. -/
def doLoadPattern (sq idx : Nat) (src : Option (List Byte)) (s : State) : State :=
  s.withDesc sq idx 0x08 (fun d =>
    let b := d.bytes
    let id := fld b 16 4
    let fl := fld b 20 1
    let len := fld b 32 8
    if !s.loadBodyOk d (fld b 24 8) len (fl < 8 && zeroes b 21 3 && zeroes b 40 24) then s.finish sq idx St.bad
    else match s.hostRead (src.filter (fun l => l.length = len)) with
      | none => s.readFailed sq idx
      | some bs =>
        let rd := rdList bs
        let h := hdrOf rd
        match worstFail (earlyFails rd h len) with
        | some f => s.complete sq idx (loadFailed f)
        | none =>
          let q := objQ rd h
          match s.placePattern len q with
          | none => s.complete sq idx (loadNoSpace true)
          | some (set, base) =>
            let o : Obj := { id := id, kind := .pattern, size := len, base := base, chans := set, q := q
                             keep := fl.testBit 1, prefer := fl.testBit 2, branch := hasBranch rd h, apg := h.apg }
            { s.begin sq idx with loads := s.loads ++ [{ sq := sq, idx := idx, obj := o, deep := fl.testBit 0, src := bs }] })

/-- LOAD_FLOW and LOAD_PE_LIST (R402): as a pattern load, with the checks of R403. -/
def loadOther (op : Nat) (kind : ObjKind) (sq idx : Nat) (src : Option (List Byte)) (s : State) : State :=
  s.withDesc sq idx op (fun d =>
    let b := d.bytes
    let id := fld b 16 4
    let len := fld b 32 4
    if !s.loadBodyOk d (fld b 24 8) len (zeroes b 20 4 && zeroes b 36 28) then s.finish sq idx St.bad
    else match s.hostRead (src.filter (fun l => l.length = len)) with
      | none => s.readFailed sq idx
      | some bs =>
        match worstFFail (fpHeaderFails bs (kind == .flow) len) with
        | some f => s.complete sq idx (flowFailed f)
        | none =>
          match s.placeWhole len with
          | none => s.complete sq idx (loadNoSpace false)
          | some (m, base) =>
            let o : Obj := { id := id, kind := kind, size := len, base := base, chans := [m] }
            { s.begin sq idx with loads := s.loads ++ [{ sq := sq, idx := idx, obj := o, deep := false, src := bs }] })

/-- LOAD_FLOW (R402). -/
def doLoadFlow (sq idx : Nat) (src : Option (List Byte)) (s : State) : State := loadOther 0x30 .flow sq idx src s

/-- LOAD_PE_LIST (R402). -/
def doLoadPeList (sq idx : Nat) (src : Option (List Byte)) (s : State) : State := loadOther 0x32 .peList sq idx src s

/-- The digest the device computes of an object (R116, R400). -/
def Load.dig (l : Load) : List Byte := match l.obj.kind with
  | .pattern => sha384 (l.src.take (l.src.length - 64))
  | _ => sha384 (l.src.drop 64)

/-- What a load that has arrived completes with: its failure, if any (R121, R125, R402); `ue` is the object offset at which the deep
read-back, which runs through the streams in order, meets an uncorrectable error. -/
def Load.outcome (l : Load) (ue : Option Nat) : Option Result :=
  match l.obj.kind with
  | .pattern =>
    let rd := rdList l.src
    let h := hdrOf rd
    match worstFail (lateFails rd h l.dig) with
    | some f => some (loadFailed f)
    | none =>
      match (if l.deep then ue else none) with
      | some x => some (match (blockFails rd h).find? (fun f => f.off < x) with
        | none => { status := St.memUe }
        | some f => { loadFailed f with status := St.memUe })
      | none => (worstFail (if l.deep then deepFails rd h else [])).map loadFailed
  | .flow => (worstFFail (fpBodyFails l.src true l.dig)).map flowFailed
  | .peList => (worstFFail (fpBodyFails l.src false l.dig)).map flowFailed

/-- The header of a loaded pattern object. -/
def State.hdr (s : State) (o : Obj) : Hdr := hdrOf (s.rd o)

/-- APG_FALLBACK (R330). -/
def doApgFallback (sq idx : Nat) (s : State) : State :=
  s.withDesc sq idx 0x0A (fun d =>
    let b := d.bytes
    let id := fld b 16 4
    let fb := fld b 20 4
    let none' := fb = 0xFFFFFFFF
    match s.obj id, (if none' then s.obj id else s.obj fb) with
    | some o, some f =>
      if o.lost || f.lost then s.finish sq idx St.hwFault
      else if o.kind != .pattern || f.kind != .pattern || !o.apg || (!none' && f.apg) ||
          (s.hdr o).nPins ≠ (s.hdr f).nPins || !zeroes b 24 40 then s.finish sq idx St.bad
      else (s.upObj id (fun o => { o with fallback := if none' then none else some fb })).finish sq idx St.ok
    | _, _ => s.finish sq idx St.noObject)

/-- Every fallback link that names an object ends when it is unloaded or marked LOST (R330). -/
def State.dropLinks (s : State) (id : Nat) : State :=
  { s with objs := s.objs.map (fun p => (p.1, { p.2 with fallback := if p.2.fallback = some id then none else p.2.fallback })) }

/-- The retained cache copies of an object are freed (R203). -/
def State.freeCopies (s : State) (id : Nat) : State := { s with cache := s.cache.filter (fun c => c.obj ≠ id || c.holder.isSome) }

/-- Free an object: its room, its ID, its retained cache copies, the links that name it (R122, R203, R330, R404). -/
def State.freeObj (s : State) (id : Nat) : State :=
  ((({ s with objs := kDel s.objs id }.freeCopies id).dropLinks id).placementChanged).pairUnloaded id

/-- LOAD_PATTERN. -/
def execLoadPattern (sq idx : Nat) (src : Option (List Byte)) (s : State) : Host.Outcome State Fault Refusal :=
  .next (doLoadPattern sq idx src s)

/-- LOAD_FLOW. -/
def execLoadFlow (sq idx : Nat) (src : Option (List Byte)) (s : State) : Host.Outcome State Fault Refusal :=
  .next (doLoadFlow sq idx src s)

/-- LOAD_PE_LIST. -/
def execLoadPeList (sq idx : Nat) (src : Option (List Byte)) (s : State) : Host.Outcome State Fault Refusal :=
  .next (doLoadPeList sq idx src s)


/-- APG_FALLBACK. -/
def execApgFallback (sq idx : Nat) (s : State) : Host.Outcome State Fault Refusal := .next (doApgFallback sq idx s)

end Sys2Proof.Machine
end

