-- ==== Sys2Proof/Machine/Operands.lean ====
section
/-! DEFINITION. The operand forms of the Reel: the fields of an instruction word (R137, R138), its zero rules (R139), and the
operation an APGV word carries, with the setup block and the output word of an APG unit (R317-R327). -/

namespace Sys2Proof.Machine

/-! ### Instruction words -/

/-- OP (R137). -/
def wOp (w : Nat) : Nat := bitsOf w 59 5
/-- TSET. -/
def wTset (w : Nat) : Nat := bitsOf w 53 6
/-- MARK. -/
def wMark (w : Nat) : Nat := bitsOf w 49 4
/-- CLRF. -/
def wClrf (w : Nat) : Bool := bitOf w 48
/-- N. -/
def wN (w : Nat) : Nat := bitsOf w 44 4
/-- ARG. -/
def wArg (w : Nat) : Nat := bitsOf w 0 44
/-- Target word of JMP, CALL, BRF, BRP. -/
def wTarget (w : Nat) : Nat := bitsOf w 0 24
/-- Target block of JMP, CALL, BRF, BRP. -/
def wBlock (w : Nat) : Nat := bitsOf w 24 20
/-- Count of LOOP, timeout of MLOOP, repeats of RPT: ARG[31:0] + 1. -/
def wCount (w : Nat) : Nat := bitsOf w 0 32 + 1

/-- The opcodes of R138. -/
def reelOp (op : Nat) : Bool := 1 ≤ op && op ≤ 0x0E

/-- JMP, CALL, BRF, BRP: the words with a target. -/
def hasTarget (op : Nat) : Bool := op = 7 || op = 8 || op = 0x0A || op = 0x0B

/-- Lines a word takes from the cursor (R138). -/
def wLines (w : Nat) : Nat := if wOp w = 1 then bitsOf w 0 16 + 1 else if wOp w = 2 then 1 else wN w + 1

/-- Vectors a word emits (R138). -/
def wVecs (w : Nat) : Nat := if wOp w = 2 then wCount w else if wOp w = 0x0C then 8 + wLines w else wLines w

/-- The zero rules of R138, and for an APGV word those of R320. -/
def wZeros (w : Nat) : Bool :=
  let a := wArg w
  match wOp w with
  | 1 => wN w = 0 && a < 2 ^ 16
  | 2 => wN w = 0 && a < 2 ^ 32
  | 3 => a < 2 ^ 32
  | 4 | 6 | 9 => a = 0
  | 5 => a < 2 ^ 33
  | 0x0C => a < 8
  | 0x0D => a < 2 ^ 20 && bitsOf a 0 4 ≤ 0xA && bitsOf a 4 4 ≤ 0xA && bitsOf a 8 4 ≤ 8
  | 0x0E => a < 2
  | _ => true

/-! ### The setup block of an APG unit (R317) -/

def suXmax (b : List Byte) : Nat := fld b 8 4
def suYmax (b : List Byte) : Nat := fld b 12 4
def suDb (b : List Byte) : Nat := fld b 44 4
def suDmask (b : List Byte) : Nat := fld b 48 4
def suXcarry (b : List Byte) : Bool := (fld b 52 4).testBit 0
def suBmX (b : List Byte) : Nat := fld b 56 1
def suBmY (b : List Byte) : Nat := fld b 57 1
def suBmIo (b : List Byte) : Nat := fld b 58 1
/-- PINMAP entry of pin p. -/
def suPin (b : List Byte) (p : Nat) : Nat := fld b (512 + p) 1

/-- A source of one bit, as the maps name it (R325, R326). -/
def mapSel (e : Nat) : Bool := e < 24 || (32 ≤ e && e < 56) || e = 63

/-- The checks of R318. -/
def setupOk (b : List Byte) : Bool :=
  fld b 0 4 = 0x47504144 && fld b 4 2 = 1 && zeroes b 6 2 && zeroes b 59 5 && zeroes b 118 10 && zeroes b 384 128 &&
  suXmax b ≤ 0xFFFFFF && suYmax b ≤ 0xFFFFFF &&
  fld b 16 4 ≤ suXmax b && fld b 24 4 ≤ suXmax b && fld b 32 4 ≤ suXmax b &&
  fld b 20 4 ≤ suYmax b && fld b 28 4 ≤ suYmax b && fld b 36 4 ≤ suYmax b &&
  suDmask b ≠ 0 && suDmask b &&& (suDmask b + 1) = 0 && fld b 52 4 < 2 &&
  (List.range 64).all (fun k => fld b (128 + 4 * k) 4 &&& suDmask b = fld b (128 + 4 * k) 4) &&
  (List.range 48).all (fun i => let e := fld b (64 + i) 1
                                !e.testBit 6 && mapSel (e % 64)) &&
  (List.range 6).all (fun k => mapSel (fld b (112 + k) 1)) &&
  (List.range 512).all (fun p => let e := suPin b p
                                 e = 0x7F || e % 128 ≤ (if e ≥ 128 then 86 else 87)) &&
  suBmX b ≤ 24 && suBmY b ≤ 24 && suBmIo b ≤ 5 && suBmX b + suBmY b + suBmIo b ≤ 35

/-- The registers at vector 0 of a burst (R319). -/
def setupRegs (b : List Byte) : ApgRegs :=
  { x := fld b 16 4, y := fld b 20 4, xr := fld b 24 4, yr := fld b 28 4, d := fld b 40 4 &&& suDmask b }

/-- The registers of an APG state record, for a unit with a given DMASK (R319, R329). -/
def recordRegs (b : List Byte) (dmask : Nat) : ApgRegs :=
  { x := fld b 0 3, y := fld b 4 3, xr := fld b 8 3, yr := fld b 12 3, d := fld b 16 4 &&& dmask, ctrl := fld b 20 1 }

/-! ### APG operations -/

/-- One axis operation (R321): the new address and reference, and the step it carries to Y under XCARRY (R322). -/
def axisOp (code mx st zero a r : Nat) : Nat × Nat × Int :=
  let m := mx + 1
  match code with
  | 0x1 => ((a + 1) % m, r, if mx < a + 1 then 1 else 0)
  | 0x2 => ((a + m - 1) % m, r, if a = 0 then -1 else 0)
  | 0x3 => ((a + st) % m, r, if mx < a + st then 1 else 0)
  | 0x4 => ((a + m - st) % m, r, if a < st then -1 else 0)
  | 0x5 => (zero, r, 0)
  | 0x6 => (r, r, 0)
  | 0x7 => (a, a, 0)
  | 0x8 => (mx - a, r, 0)
  | 0x9 => (r, a, 0)
  | 0xA => ((r + 1) % m, (r + 1) % m, 0)
  | _ => (a, r, 0)

/-- The operation on D (R323), with the addresses after the vector's other operations. -/
def dataOp (code mask db d x y : Nat) : Nat :=
  let w := popCount 32 mask
  let r := match code with
    | 0x1 => d ^^^ mask
    | 0x2 => db
    | 0x3 => db ^^^ mask
    | 0x4 => d * 2 ||| d / 2 ^ (w - 1)
    | 0x5 => d / 2 ||| d % 2 * 2 ^ (w - 1)
    | 0x6 => if x % 2 = y % 2 then db else db ^^^ mask
    | 0x7 => d + 1
    | 0x8 => x
    | _ => d
  r &&& mask

/-- One APG operation (R320-R324); the step of XCARRY follows YOP (R322). -/
def apgOp (b : List Byte) (arg : Nat) (r : ApgRegs) : ApgRegs :=
  let (x, xr, c) := axisOp (bitsOf arg 0 4) (suXmax b) (fld b 32 4) (fld b 16 4) r.x r.xr
  let (y, yr, _) := axisOp (bitsOf arg 4 4) (suYmax b) (fld b 36 4) (fld b 20 4) r.y r.yr
  let y1 := if suXcarry b && c ≠ 0 then (((y : Int) + c) % ((suYmax b : Int) + 1)).toNat else y
  { x := x, y := y1, xr := xr, yr := yr, d := dataOp (bitsOf arg 8 4) (suDmask b) (suDb b) r.d x y1, ctrl := bitsOf arg 12 8 }

/-- n operations in a row. -/
def apgOps (b : List Byte) (arg : Nat) : Nat → ApgRegs → ApgRegs
  | 0, r => r
  | n + 1, r => apgOps b arg n (apgOp b arg r)

/-- The bit a map entry selects from two words: 0 to 23 the first, 32 to 55 the second, 63 constant 0 (R325, R326). -/
def mapBit (e a c : Nat) : Bool := if e < 24 then a.testBit e else if e < 56 then c.testBit (e - 32) else false

/-- Physical X or Y through the map at an offset of the setup block (R325). -/
def physAddr (b : List Byte) (map : Nat) (r : ApgRegs) : Nat :=
  maskOf ((List.range 24).filter (fun i =>
    let e := fld b (map + i) 1
    mapBit (e % 64) r.x r.y != e.testBit 7))

/-- The output word (R325, R326): Xp, Yp, Dout and CTRL, 88 bits. -/
def apgWord (b : List Byte) (r : ApgRegs) : Nat :=
  let xp := physAddr b 64 r
  let yp := physAddr b 88 r
  let t := maskOf ((List.range 6).filter (fun k => mapBit (fld b (112 + k) 1) xp yp))
  let dout := (r.d ^^^ fld b (128 + 4 * t) 4) &&& suDmask b
  xp + yp * 2 ^ 24 + dout * 2 ^ 48 + r.ctrl * 2 ^ 80

/-- The output bit that a beat of pin p uses, or none (R327). -/
def apgPin (b : List Byte) (p beat mux : Nat) : Option Nat :=
  let e := suPin b p
  if e % 128 = 0x7F then none else some (e % 128 + if e ≥ 128 && mux = 2 && beat = 1 then 1 else 0)

end Sys2Proof.Machine
end

