-- ==== Sys2Proof/Machine/Timing.lean ====
section
/-! DEFINITION. Timing sets and formats (07_bridle_timing.md): the checks of R227, the modes of R228, and the DRV and DEN
transitions a vector makes (R231-R237). Times are in units of 0.5 ps. -/

namespace Sys2Proof.Machine

/-- PERIOD of a 576-byte timing set (R224). -/
def tsPeriod (b : List Byte) : Nat := fld b 8 4
/-- FORMAT of the entry of local channel c. -/
def tsFormat (b : List Byte) (c : Nat) : Nat := fld b (64 + 32 * c) 1
/-- STROBE mode of the entry of local channel c. -/
def tsStrobe (b : List Byte) (c : Nat) : Nat := fld b (65 + 32 * c) 1
/-- Drive edge i of the entry of local channel c. -/
def tsD (b : List Byte) (c i : Nat) : Nat := fld b (68 + 32 * c + 4 * i) 4
/-- Strobe edge i of the entry of local channel c. -/
def tsS (b : List Byte) (c i : Nat) : Nat := fld b (84 + 32 * c + 4 * i) 4

/-- Whether a rising list of offsets, repeated every `p`, keeps every interval at least m (R235). -/
def gapsOk (m p : Nat) : List Nat → Bool
  | [] => true
  | e :: es =>
    let l := e :: es
    (l.zip es).all (fun q => m ≤ q.2 - q.1 && q.1 ≤ q.2) && m ≤ p - l.getLastD 0 + e

/-- Offsets in rising order. -/
def sortUp (l : List Nat) : List Nat := l.mergeSort (fun a b => a ≤ b)

/-- DRV edges that a format uses under a multiplex (R233, R236, R237). -/
def drvEdges (b : List Byte) (c mux : Nat) : List Nat :=
  let f := tsFormat b c
  let d := tsD b c
  if mux = 1 then (if f = 0 then [d 0] else if f = 4 then [d 0, d 1, d 2] else [d 0, d 1])
  else if mux = 2 then (if f = 0 then [d 0, d 2] else [d 0, d 1, d 2, d 3])
  else [d 0, d 1, d 2, d 3]

/-- DEN edges of a channel under a multiplex (R233, R236, R237). -/
def denEdges (b : List Byte) (c mux : Nat) : List Nat :=
  if mux = 1 then [tsD b c 0] else if mux = 2 then [tsD b c 0, tsD b c 2] else [0]

/-- Strobe times of a channel under a multiplex (R234, R236, R237). -/
def strobes (b : List Byte) (c mux : Nat) : List Nat :=
  if mux = 1 then (if tsStrobe b c = 0 then [tsS b c 0] else [tsS b c 0, tsS b c 1])
  else if mux = 2 then [tsS b c 0, tsS b c 1]
  else (List.range 4).map (fun i => tsS b c 0 + i * (tsPeriod b / 4))

/-- The order rules of R233 and R234 under ×1. -/
def orderOk (b : List Byte) (c : Nat) : Bool :=
  let f := tsFormat b c
  let d := tsD b c
  (if f = 2 ∨ f = 3 then d 0 < d 1 else if f = 4 then d 0 < d 1 && d 1 < d 2 else true) &&
  (if tsStrobe b c = 0 then true else tsS b c 0 < tsS b c 1)

/-- The spacing rules of R235 for one channel under a multiplex. -/
def spacingOk (b : List Byte) (c mux : Nat) : Bool :=
  let p := tsPeriod b
  gapsOk 200 p (sortUp (drvEdges b c mux)) && gapsOk 500 p (denEdges b c mux) && gapsOk 250 p (sortUp (strobes b c mux))

/-- Whether an entry meets the ×2 rules of R236, spacing included. -/
def x2Ok (b : List Byte) (c : Nat) : Bool :=
  let h := tsPeriod b / 2
  let f := tsFormat b c
  let d := tsD b c
  (f == 0 || f == 2 || f == 3) && tsStrobe b c == 0 && d 0 < h && h ≤ d 2 && tsS b c 0 < h && h ≤ tsS b c 1 &&
  (f == 0 || (d 0 < d 1 && d 1 < h && d 2 < d 3)) && spacingOk b c 2

/-- Whether an entry meets the ×4 rules of R237, spacing included. -/
def x4Ok (b : List Byte) (c : Nat) : Bool :=
  let q := tsPeriod b / 4
  tsFormat b c == 0 && tsStrobe b c == 0 &&
  (List.range 4).all (fun i => i * q ≤ tsD b c i && tsD b c i < (i + 1) * q) && tsS b c 0 < q && spacingOk b c 4

/-- Whether a loaded set allows a multiplex (R228). -/
def tsAllows (b : List Byte) (mux : Nat) : Bool :=
  if mux = 1 then true
  else if mux = 2 then tsPeriod b % 2 == 0 && (List.range 16).all (x2Ok b)
  else tsPeriod b % 4 == 0 && (List.range 16).all (x4Ok b)

/-- The first of the 16 entries for which a test fails. -/
def firstChan (p : Nat → Bool) : Option Nat := (List.range 16).find? (fun c => !p c)

/-- The check of R227 a timing set fails: TCHECK and TC_CHAN. -/
def tsCheck (b : List Byte) : Option (Nat × Nat) :=
  let per (code : Nat) (p : Nat → Bool) (rest : Option (Nat × Nat)) : Option (Nat × Nat) :=
    match firstChan p with
    | some c => some (code, c)
    | none => rest
  if fld b 0 4 ≠ 0x54535444 then some (0x01, 0xFF)
  else if fld b 4 2 ≠ 1 then some (0x02, 0xFF)
  else if tsPeriod b < 1000 then some (0x03, 0xFF)
  else
    per 0x04 (fun c => tsFormat b c ≤ 4) <|
    per 0x05 (fun c => tsStrobe b c ≤ 2) <|
    per 0x06 (fun c => (List.range 4).all (fun i => tsD b c i < tsPeriod b) && tsS b c 0 < tsPeriod b &&
                       tsS b c 1 < tsPeriod b) <|
    per 0x07 (orderOk b) <|
    per 0x08 (fun c => spacingOk b c 1) <|
    -- a header fault of RESERVED carries TC_CHAN 0xFF; entries come before it in channel order
    per 0x09 (fun c => zeroes b (66 + 32 * c) 2 && zeroes b (92 + 32 * c) 4) <|
    if zeroes b 6 2 && zeroes b 12 52 then none else some (0x09, 0xFF)

/-- What one beat does to the driver of a channel (R231). -/
inductive Drive where
  /-- drives a data value -/
  | data (d : Bool)
  /-- a K or T beat that finds the previous drive off -/
  | still
  /-- compare class, X or N: driver off -/
  | off
  deriving DecidableEq, Repr

/-- DRV events of a data value under a format whose edges are e0, e1, e2 (R233). -/
def fmtEvents (f e0 e1 e2 : Nat) (d : Bool) : List (Nat × Bool) :=
  match f with
  | 0 => [(e0, d)]
  | 1 => if d then [(e1, true)] else [(e0, false)]
  | 2 => if d then [(e0, true), (e1, false)] else [(e0, false)]
  | 3 => if d then [(e0, true)] else [(e0, false), (e1, true)]
  | _ => [(e0, !d), (e1, d), (e2, !d)]

/-- DRV events of a vector, as offsets from its start (R233, R236, R237). -/
def drvEvents (b : List Byte) (c mux : Nat) (ds : List Drive) : List (Nat × Bool) :=
  let d := tsD b c
  let beat (i : Nat) : List (Nat × Bool) :=
    match ds.getD i .off with
    | .data v =>
      if mux = 1 then fmtEvents (tsFormat b c) (d 0) (d 1) (d 2) v
      else if mux = 2 then fmtEvents (tsFormat b c) (d (2 * i)) (d (2 * i + 1)) 0 v
      else [(d i, v)]
    | _ => []
  ((List.range mux).map beat).flatten

/-- DEN events of a vector, as offsets from its start (R231, R236, R237). -/
def denEvents (b : List Byte) (c mux : Nat) (ds : List Drive) : List (Nat × Bool) :=
  if mux = 4 then [(0, ds.any (fun x => match x with | .data _ => true | _ => false))]
  else ((List.range mux).map (fun i =>
    match ds.getD i .off with
    | .data _ => [(tsD b c (2 * i), true)]
    | .still => []
    | .off => [(tsD b c (2 * i), false)])).flatten

/-- What becomes of a DRV event of a vector, DEN being `den0` before its DEN events (R232): while DEN is off DRV holds its level, so the
event waits for DEN to turn on within the vector, and is not made where DEN stays off (DEDUCED, log entry 31). -/
def gateDrv (den0 : Bool) (dens : List (Nat × Bool)) (e : Nat × Bool) : Option (Nat × Bool) :=
  if (((dens.filter (fun d => d.1 ≤ e.1)).getLast?).map (·.2)).getD den0 then some e
  else ((dens.filter (fun d => e.1 < d.1 && d.2)).head?).map (fun d => (d.1, e.2))

/-- Applies the events of one signal, at times from t0, to its level: the new level, the number of transitions, the time of
the last one, and whether two came closer than m (R232, R235). `rise` moves rising transitions (R244). -/
def playEvents (m : Nat) (t0 rise : Int) : Bool → Option Int → List (Nat × Bool) → Bool × Nat × Option Int × Bool
  | lvl, last, [] => (lvl, 0, last, false)
  | lvl, last, (o, v) :: es =>
    if v = lvl then playEvents m t0 rise lvl last es
    else
      let t : Int := t0 + o + (if v then rise else 0)
      let close := match last with | some u => decide (t < u + m) | none => false
      let r := playEvents m t0 rise v (some t) es
      (r.1, r.2.1 + 1, r.2.2.1, close || r.2.2.2)

end Sys2Proof.Machine
end

