-- ==== Sys2Proof/Machine/Admission.lean ====
section
/-! DEFINITION. Admission (06_admission_and_placement.md, R181-R196): what a burst asks for, the cache plan, the refusal checks
and the admission test, the queue scan, and the reservations. How a burst ends is in EndBurst. -/

namespace Sys2Proof.Machine

/-! ### What a part carries -/

/-- The base and number of the pattern pins that a site or group carries in cluster n (R70, R75). -/
def State.entPins (s : State) (e : Ent) (n : Nat) : Nat × Nat := match e with
  | .site id => match s.site id with
    | some x => (x.pinBase + (x.chans.filter (fun k => k / 16 < n)).length, (x.chans.filter (fun k => k / 16 = n)).length)
    | none => (0, 0)
  | .group g => (0, ((s.members g).headD { id := 0 }).npins)

/-- The group streams that a site or group carries in cluster n (R95). -/
def State.entStreams (s : State) (e : Ent) (n : Nat) : List Nat :=
  let p := s.entPins e n
  carriedStreams p.1 p.2

/-- NPINS_TOTAL of a site or group (R126). -/
def State.entNpins (s : State) (e : Ent) : Nat := match s.entSites e with
  | x :: _ => x.npins
  | [] => 0

/-- The site that spans chips, if the burst's entity is one. -/
def State.entX (s : State) (e : Ent) : Option Site := match e with
  | .site id => (s.site id).filter (fun x => x.xchip)
  | .group _ => none

/-- A multi-slice site's burst (R67). -/
def State.multi (s : State) : Ent → Bool
  | .site id => (s.site id).any Site.multi
  | .group _ => false

/-- This chip holds the leading slice of a site or group (R81). -/
def State.leads (s : State) (e : Ent) : Bool := match s.entX e with
  | some x => x.leader = s.pos
  | none => true

/-! ### The vector cache (R181, R202, R203) -/

/-- Bytes of the cache outside the instruction windows (R181). -/
def cacheCap : Nat := 2064384

/-- Bytes in use in cluster n. -/
def cacheUsed (c : List CacheEnt) (n : Nat) : Nat := ((c.filter (fun x => x.cluster = n)).map CacheEnt.bytes).sum

/-- Bytes that admitted bursts hold in cluster n. -/
def cacheHeld (c : List CacheEnt) (n : Nat) : Nat :=
  ((c.filter (fun x => x.cluster = n && x.holder.isSome)).map CacheEnt.bytes).sum

/-- Evict retained copies of cluster n, least recently used first, until `need` bytes are free (R203). -/
def evict : Nat → List CacheEnt → Nat → Nat → List CacheEnt
  | 0, c, _, _ => c
  | fuel + 1, c, n, need =>
    if cacheUsed c n + need ≤ cacheCap then c
    else match bestBy (fun x => [x.lastUse, x.obj, x.kind]) (c.filter (fun x => x.cluster = n && x.holder.isNone)) with
      | none => c
      | some v => evict fuel (c.filter (fun x => x != v)) n need

/-- The cache after room has been made in cluster n, or none where eviction cannot make it (R203). -/
def makeRoom (c : List CacheEnt) (n need : Nat) : Option (List CacheEnt) :=
  if cacheHeld c n + need ≤ cacheCap then some (evict (c.length + 1) c n need) else none

/-- Take one retained copy of an object in cluster n for a burst (R202): of several the first in the list (DESIGN CHOICE, log entry 38). -/
def takeCopy (c : List CacheEnt) (n kind obj : Nat) (e : Ent) (now : Nat) : Option (List CacheEnt) :=
  (c.findIdx? (fun x => x.cluster = n && x.kind = kind && x.obj = obj && x.holder.isNone)).map (fun i =>
    c.modify i (fun x => { x with holder := some e, lastUse := now }))

/-- Bytes of a whole-object copy: instruction words, carried streams, scan streams of carried pins (R202). -/
def wholeBytes (rd : Rd) (h : Hdr) (js : List Nat) (base m : Nat) : Nat :=
  8 * h.nInstr + (js.map (fun j => (streamDir rd h j).2)).sum +
  ((List.range h.nScan).map (fun i => let e := scanEnt rd h i
    if base ≤ e.pin && e.pin < base + m then ceilDiv e.nbits 8 else 0)).sum

/-- What the cache does for a part (R202): the new contents, whether the dictionaries fit, whether a whole copy is held, and
whether the part uses PEAK_BPKV: every body is pinned, or there is none (R184). -/
structure CachePlan where
  cache : List CacheEnt
  ok : Bool
  whole : Bool
  resident : Bool
  deriving DecidableEq, Repr

/-- The cache plan of a part of a burst in cluster n. -/
def State.planCache (s : State) (c : List CacheEnt) (o : Obj) (e : Ent) (n : Nat) : CachePlan :=
  let rd := s.rd o
  let h := hdrOf rd
  let js := s.entStreams e n
  let p := s.entPins e n
  let dict := dictBytes rd h js
  let mine (kind bytes : Nat) : CacheEnt :=
    { cluster := n, kind := kind, obj := o.id, bytes := bytes, holder := some e, lastUse := s.dtime }
  match makeRoom c n dict with
  | none => { cache := c, ok := false, whole := false, resident := h.nLoops = 0 }
  | some c1 =>
    let c2 := if dict = 0 then c1 else c1 ++ [mine 0 dict]
    match takeCopy c2 n 2 o.id e s.dtime with
    | some c3 => { cache := c3, ok := true, whole := true, resident := h.nLoops = 0 }
    | none =>
      let wb := wholeBytes rd h js p.1 p.2
      match (if o.prefer then makeRoom c2 n wb else none) with
      | some c3 => { cache := c3 ++ [mine 2 wb], ok := true, whole := true, resident := h.nLoops = 0 }
      | none =>
        if h.nLoops = 0 then { cache := c2, ok := true, whole := false, resident := true }
        else match takeCopy c2 n 1 o.id e s.dtime with
          | some c3 => { cache := c3, ok := true, whole := false, resident := true }
          | none => match makeRoom c2 n (loopBytes rd h) with
            | some c3 => { cache := c3 ++ [mine 1 (loopBytes rd h)], ok := true, whole := false, resident := true }
            | none => { cache := c2, ok := true, whole := false, resident := false }

/-! ### Demand (R184, R185) -/

/-- PF of cluster n for an object (R185), and so P_min of R154: 500 ps where no set is loaded, which R185 says of PF only (DESIGN CHOICE, log
entry 32). -/
def State.pf (s : State) (n tmax : Nat) : Nat :=
  match ((s.cl n).tsets.filter (fun p => p.1 ≤ tmax)).map (fun p => tsPeriod p.2.bytes) with
  | [] => 1000
  | a :: l => l.foldl min a

/-- The share of the FIFO for a demand (R182). -/
def fifoShare (d : Nat) : Nat := roundUp (max 4096 (ceilDiv (d * 384) 100)) 256

/-- A part of a burst with the cache after it, and whether its dictionaries fit. -/
structure PartPlan where
  part : Part
  dict : Bool
  deriving DecidableEq, Repr

/-- One part's plan, given the cache contents. -/
def State.planPart (s : State) (c : List CacheEnt) (o : Obj) (e : Ent) (g : Nat) : PartPlan × List CacheEnt :=
  let n := g / 4
  let rd := s.rd o
  let h := hdrOf rd
  let k := s.planCache c o e n
  let pk := if k.resident then maxPeak rd h else maxPeakNc rd h
  let d := bpkv ((if o.branch then 2 else 1) * pk) (s.pf n h.tsetMax)
  ({ part := { slice := g, d := d, pf := s.pf n h.tsetMax, dch := if k.whole then 0 else ceilDiv d (max 1 o.chans.length)
               share := if k.whole then 0 else fifoShare d }, dict := k.ok }, k.cache)

/-- The plans of all parts on this chip, with the cache after them. -/
def State.planParts (s : State) (c : List CacheEnt) (o : Obj) (e : Ent) : List PartPlan × List CacheEnt :=
  (s.entSlices e).foldl (fun a g =>
    let (p, c') := s.planPart a.2 o e g
    (a.1 ++ [p], c')) ([], c)

/-! ### The admission test (R189-R194) -/

/-- A supply pause is in force (R194); its bits are in WS_VSTAT's home, `supplyPause`. -/
def State.pauseSupply (s : State) : Bool := s.power.pause

/-- FIFO bytes reserved in cluster n (R220). -/
def State.fifoRsv (s : State) (n : Nat) : Nat :=
  (s.heldParts.map (fun b => ((b.2.filter (fun p => p.slice / 4 = n)).map Part.share).sum)).sum

/-- Demand of the admitted bursts of cluster n that fetch from device memory (R220). -/
def State.demandOf (s : State) (n : Nat) : Nat :=
  (s.heldParts.map (fun b => ((b.2.filter (fun p => p.slice / 4 = n && p.share ≠ 0)).map Part.d).sum)).sum

/-- The conditions of R189 that a plan fails, as admission reasons, lowest first. A BLOCKED channel fails a burst only with a demand above 0
(R219; DESIGN CHOICE, log entry 38). -/
def State.fitFails (s : State) (o : Obj) (ps : List PartPlan) : List Nat :=
  let add := (ps.map (fun p => p.part.dch)).sum
  (if o.chans.any (fun m => (s.chanBlocked m && add ≠ 0) || s.admittedOn m + add > s.limit m) then [1] else []) ++
  (if ps.any (fun p => s.fifoRsv (p.part.slice / 4) + p.part.share > 16384) then [2] else []) ++
  (if ps.all (fun p => p.dict) then [] else [3]) ++
  (if s.pauseSupply then [5] else []) ++ (if s.clk.trefHold then [6] else [])

/-- A burst that cannot fit even on an otherwise idle chip (R190). -/
def State.neverFits (s : State) (o : Obj) (e : Ent) : Bool :=
  let (ps, _) := s.planParts [] o e
  let add := (ps.map (fun p => p.part.dch)).sum
  o.chans.any (fun m => add > s.limit m) || ps.any (fun p => p.part.share > 16384 || !p.dict)

/-- The burst has waited beyond AGE_LIMIT (R195). -/
def State.aged (s : State) (b : Burst) : Bool :=
  let l := s.rf F.ADM_CTL_AGE_LIMIT
  l ≠ 0 && s.dtime > b.submitted + l * 10000

/-- The order of the scan (R195). -/
def scanBefore (a b : Burst) : Bool := a.prio > b.prio || (a.prio = b.prio && a.arrival ≤ b.arrival)

/-- Bursts in the admission queue, in scan order; one that is known to start nothing has left it. -/
def State.queued (s : State) : List Burst := (s.bursts.filter (fun b => !b.admitted && b.fin.isNone)).mergeSort scanBefore

/-! ### Admission (R192) -/

/-- The fail horizon H (R154); a chip that does not lead a cross-chip burst takes H from SYNC START. -/
def State.horizon (s : State) (e : Ent) (h : Hdr) : Nat := match s.entX e with
  | some x => max 128 (80 + ceilDiv 3240000 (s.pf (x.clusters.headD 0) h.tsetMax))
  | none => if (s.entSlices e).length > 1 then 128 else 64

/-- The sequencer of a slice as a burst begins to fill it: at vector 0 with block 0's multiplex (R751), or at a restart's
checkpoint (R106, R163, R304). `setup` is the setup block of the burst's APG unit (R319). At a restart only its own entry counts as marked
already (R105; DESIGN CHOICE, log entry 32). -/
def startSeq (rd : Rd) (h : Hdr) (r : Option Ckpt) (hzn : Nat) (setup : Option (List Byte)) : Seq :=
  match r with
  | none => { state := 1, mux := (blkEnt rd h 0).mux, scan := List.replicate h.nScan 0, hzn := hzn
              apg := match setup with
                | some b => setupRegs b
                | none => {} }
  | some c =>
    let e := rpEnt rd h c.rp
    { state := 1, pc := e.instr, line := 4096 * e.block, issue := c.vec, next := c.vec, base := c.vec, mux := e.mux, hzn := hzn
      scan := (List.range h.nScan).map (rpScan rd h c.rp)
      marked := [c.rp], ckpt := some c, accStart := c.snap.accStart, clr := c.snap.accStart, steer := c.snap.steer
      apg := if h.apg then recordRegs ((List.range 64).map (fun i => BitVec.ofNat 8 (rd (h.off 2 + e.apgOff + i))))
        (setup.elim 0 suDmask) else {} }

/-- Refresh pull-in on a channel of the stripe set (R197, R540): until OWED is -8, with more than 8 refreshes where OWED is above 0 (DESIGN
CHOICE, log entry 38). -/
def State.pullIn (s : State) (m : Nat) : State := s.upMc m (fun c => { c with
  nextBank := (c.nextBank + (c.owed + 8).toNat) % 16, owed := min c.owed (-8) })

/-- Mirror a burst's admission or release (R609). -/
def State.mirrorBurst (s : State) (b : Burst) (gone : Bool) : State :=
  s.mirror { kind := 5, key := entKey b.ent ++ [match b.owner with
    | .task t => t + 1
    | _ => 0, b.obj, b.mode, b.prio, if gone then 0 else 1, b.tag] }

/-- Admit a burst: reservations, the admission-granted flag, refresh pull-in, and filling (R192). -/
def State.admitBurst (s : State) (b : Burst) : State :=
  match kGet s.objs b.obj with
  | none => s
  | some o =>
    let (ps, c) := s.planParts s.cache o b.ent
    let b1 := { b with admitted := true, admittedAt := s.dtime, parts := ps.map (fun p => p.part) }
    let s1 := { s.upBurst b.ent (fun _ => b1) with cache := c }
    let s2 := o.chans.foldl (fun s m => s.pullIn m) s1
    let rd := s.rd o
    let q := startSeq rd (hdrOf rd) b.restart (s.horizon b.ent (hdrOf rd)) (b.apgUnit.map (fun k => (s.apgs.getD k {}).setup))
    let s3 := (s.entSlices b.ent).foldl (fun s g => s.upSeq g (fun old => { q with
      hold := old.hold || old.state = 4, started := old.started })) s2
    let s4 := s3.mirrorBurst b1 false
    match b.owner with
    | .task t => if b.waited then s4.setFlags t 0x20 else s4
    | _ => s4

/-- Scan the queue: admit every burst that fits; an aged burst that does not blocks those behind it (R195). -/
def scanLoop : List Burst → State → State
  | [], s => s
  | b :: r, s =>
    match kGet s.objs b.obj with
    | none => scanLoop r s
    | some o =>
      if o.unloading then scanLoop r s
      else if s.fitFails o (s.planParts s.cache o b.ent).1 = [] then scanLoop r (s.admitBurst b)
      else if s.aged b then s else scanLoop r s

/-- An admission scan (R195). -/
def State.scan (s : State) : State := scanLoop s.queued s

/-! ### Refusals at submission (R188, R331) -/

/-- The usable APG unit of a site or group (R331). -/
def State.apgUnit (s : State) (e : Ent) : Option Nat :=
  (List.range 4).find? (fun k => (s.rf F.CAPS_LIVE_APG_LIVE).testBit k && (s.apgs.getD k {}).ent == some e)

/-- A submission: who asks, and the fields of the descriptor or step. `form` says that its own layout holds. `others` is what only the other
chips of a cross-chip site hold (R81, R331): bit 0 their declarations agree with this one and the pin ranges fit together, bit 1 each has a
usable APG unit, bit 2 each has the object's fallback loaded, bit 3 their steps agree with this one in OBJECT_ID, ADM_MODE, RETRY, RETRY_ON and
RETRY_GAP (R417). -/
structure Submit where
  form : Bool
  ent : Ent
  owner : Owner
  obj : Nat
  mode : Nat
  wait : Nat
  prio : Nat
  restart : Option Ckpt := none
  others : Nat := 15
  deriving DecidableEq, Repr

/-- A RUN_BURST step submits. -/
def Submit.isStep (q : Submit) : Bool := match q.owner with
  | .task _ => true
  | _ => false

/-- The declarations of a multi-slice site fit together (R81): on one chip the pin range is the whole; across chips the leading chip checks
what the others hold, and for a step also that their operands agree (R417; log entry 33). -/
def State.declsAgree (s : State) (q : Submit) : Bool := match q.ent with
  | .site id => (s.site id).all (fun x => !x.multi || (if x.xchip then !s.leads q.ent || (q.others.testBit 0 && (q.others.testBit 3 || !q.isStep))
      else x.pinBase = 0 && x.chans.length = x.npins))
  | .group _ => true

/-- The object that a burst of object `o` runs (R331): itself where every part has a usable unit, its fallback where some part has none and
every chip has the fallback, else nothing. -/
def State.resolveApg (s : State) (q : Submit) (o : Obj) : Option Obj :=
  if !o.apg || ((s.apgUnit q.ent).isSome && q.others.testBit 1) then some o
  else if q.others.testBit 2 then o.fallback.bind s.obj else none

/-- The burst a submission makes once the refusal checks have passed, or the result of the first that fails (R188, R331). PC_WHERE of a
RESUME_ID failure at a restart (R126) is 0 (DESIGN CHOICE, log entry 32). -/
def State.submitCheck (s : State) (q : Submit) : Except Result Burst :=
  let no (st : Nat) : Except Result Burst := .error { status := st, obj := q.obj }
  if !q.form || !s.declared q.ent || q.mode > 2 || (match q.ent with
      | .site id => (s.site id).any (fun x => x.group.isSome)
      | .group _ => false) || !s.declsAgree q then no St.bad
  else if s.blocked q.ent then no St.blocked
  else match s.obj q.obj with
    | none => if kHas s.regions q.obj then .error { status := St.bad, rreason := 0x28, obj := q.obj } else no St.noObject
    | some o =>
      if o.kind != .pattern then .error { status := St.bad, rreason := 0x28, obj := q.obj }
      else
        match s.resolveApg q o with
        | none => no St.absent
        | some o1 =>
          let rd := s.rd o1
          let h := hdrOf rd
          let bad (code : Nat) : Except Result Burst :=
            .error { status := St.badPattern, reason := code, aux := 0xFF, pcheck := code, stream := 0xFF, obj := o1.id }
          if o1.lost then .error { status := St.hwFault, obj := o1.id }
          else if (s.entSites q.ent).any (fun x => x.clusters.any (fun n =>
              !(s.domOn (5 * n) && s.domOn (5 * n + 1) && s.domOn (5 * n + 2) && s.domOn (5 * n + 3)))) then
            .error { status := St.bad, obj := o1.id }
          else if h.nPins ≠ s.entNpins q.ent then bad 0x30
          else if q.restart.any (fun c => !h.resumable || h.nRes ≤ c.rp) then bad 0x35
          else if s.busy q.ent then .error { status := St.bad, obj := o1.id }
          else .ok { ent := q.ent, owner := q.owner, obj := o1.id, named := q.obj, mode := q.mode
                     deadline := if q.mode = 2 then some (s.dtime + 1000 * q.wait) else none
                     prio := q.prio, arrival := s.arrivals, submitted := s.dtime, restart := q.restart
                     apgUnit := if o1.apg then s.apgUnit q.ent else none
                     tag := match s.entX q.ent with
                       | some x => x.tag
                       | none => 0 }

/-- A denial (R191), counted in ADM_STAT.DENIED. -/
def denial (b : Burst) (reason : Nat) : Result :=
  { status := St.denied, reason := reason, rreason := reason, obj := b.obj }

/-- Submit a burst: the next state, and the result with which the submission is refused or denied at once (R188-R193). -/
def State.submit (s : State) (q : Submit) : State × Option Result :=
  match s.submitCheck q with
  | .error r => (s, some r)
  | .ok b =>
    let deny (s : State) (reason : Nat) : State × Option Result := (s.incRf F.ADM_STAT_DENIED [], some (denial b reason))
    match kGet s.objs b.obj with
    | none => (s, none)
    | some o =>
      if s.neverFits o b.ent then deny s 4
      else
        let s1 := { s with bursts := s.bursts ++ [b], arrivals := s.arrivals + 1 }
        let s2 := s1.scan
        if (s2.burst b.ent).any (fun x => x.admitted) then (s2, none)
        else
          let drop := { s2 with bursts := s2.bursts.filter (fun x => !(x.ent == b.ent)) }
          if q.mode = 0 || (q.mode = 2 && q.wait = 0) then
            deny drop ((s2.fitFails o (s2.planParts s2.cache o b.ent).1).headD 0x0B)
          else if s2.queued.length > 4096 then deny drop 7
          else (s2.upBurst b.ent (fun x => { x with waited := true }), none)

/-- The cache once a burst of an object has let go of it: its space is retained under KEEP_RESIDENT or freed (R204). -/
def State.cacheAfter (s : State) (e : Ent) (obj : Nat) : List CacheEnt :=
  let keep := match kGet s.objs obj with
    | some o => o.keep && !o.lost && !o.unloading
    | none => false
  s.cache.filterMap (fun x =>
    if x.holder = some e then
      if keep && x.kind ≠ 0 then some { x with holder := none, lastUse := s.dtime } else none
    else some x)

/-- Release what a burst held, and take it out of admission: its cache space is retained under KEEP_RESIDENT or freed
(R192, R204). -/
def State.release (s : State) (b : Burst) : State :=
  let s0 := { s with bursts := s.bursts.filter (fun x => !(x.ent == b.ent)), cache := s.cacheAfter b.ent b.obj }
  let s1 := (((kGet s0.objs b.obj).map Obj.chans).getD []).foldl (fun s m => s.upMc m (fun c => { c with idleSince := s.dtime })) s0
  if b.admitted then s1.mirrorBurst b true else s1

end Sys2Proof.Machine
end

