-- ==== Sys2Proof/Machine/Align.lean ====
section
/-! DEFINITION. The time scale of a chip in a ring (R584-R589, R604): forward steps of DTIME, the moves of XOFF, and the two passes that
align a ring. The time scale is DTIME plus XOFF. TIME messages carry the sender's time scale, and a chip's own stamps are its DTIME, so
that θ is what XOFF has to cancel. -/

namespace Sys2Proof.Machine

/-- The link on which the upstream chip of R586 lies: link 1, but at position 0 of the second ring link 2 (R604); the reference has none. -/
def State.upstream (s : State) : Option Nat :=
  if s.ringLen ≤ 1 then none
  else if s.pos ≠ 0 then some 1
  else if s.rb F.PAIR_STAT_MIRRORED && s.rf F.PAIR_STAT_RING = 1 then some 2 else none

/-- PL_n_TIME.VALID: θ of link n comes from an exchange in the last 2 ms (R595). -/
def State.timeValid (s : State) (n : Nat) : Bool := (s.lk n).timeAt.any (fun t => s.dtime ≤ t + 2000000)

/-- This chip's time scale in 0.5 ps units (R587). -/
def State.scaleT (s : State) : Int := 2000 * (s.dtime : Int) + s.ringT.xoff

/-- The starts of vectors to come, moved by d in 0.5 ps units of DTIME on every slice that runs. -/
def State.shiftStarts (s : State) (d : Int) : State :=
  { s with slices := s.slices.map (fun x => if x.seq.state = 2 || x.seq.state = 3 then
      { x with seq := { x.seq with time := ((x.seq.time : Int) + d).toNat } } else x) }

/-- What was stamped before a step of DTIME by k ns, as the new count has it: vectors started, and events on their way to trigger units. -/
def State.shiftPast (s : State) (k : Nat) : State :=
  let d := 2000 * k
  let seg (l : List (Nat × Nat × Nat)) : List (Nat × Nat × Nat) := l.map (fun r => (r.1, r.2.1 + d, r.2.2))
  { s with
    slices := s.slices.map (fun x => { x with
      past := x.past.map (fun p => (p.1 + d, seg p.2))
      seq := { x.seq with segs := seg x.seq.segs, last := x.seq.last + d } })
    trigEv := s.trigEv.map (fun k => (k.1, k.2.1, k.2.2 + d))
    trigs := s.trigs.map (fun u => { u with armedAt := u.armedAt + d, openAt := u.openAt.map (· + d), openArmed := u.openArmed + d, cands := u.cands.map (fun c => (c.1, c.2 + d)), t0 := u.t0.map (· + d) })
    regions := s.regions.map (fun p => (p.1, { p.2 with fireAt := p.2.fireAt.map (· + d), toldAt := p.2.toldAt.map (· + d), stamp := p.2.stamp.map (· + d), pend := p.2.pend.map (fun q => (q.1 + d, q.2)) })) }

/-- DTIME steps forward by k ns (R55): no edge of a running burst moves, and what was measured against the old count moves with it, as do the crystal
cycles counted up to it (R62). -/
def State.stepDtime (s : State) (k : Nat) : State :=
  if k = 0 then s
  else
    let s1 := ((({ s with dtime := s.dtime + k, clk := { s.clk with subAt := s.clk.subAt + k } }.setRf F.DTIME_STAT_STEPPED [] 1).setRf F.DTIME_STAT_LAST_STEP_NS [] (sat 32 k)).shiftStarts
      (2000 * k)).shiftPast k
    (List.range 4).foldl (fun s n => s.upLk n (fun l => { l with
      theta := l.theta + 2000 * k, sentT := l.sentT.map (· + 2000 * k), recvT := l.recvT.map (fun p => (p.1, p.2 + 2000 * k)) })) s1

/-- XOFF_STEP (R587): XOFF moves toward −θ by at most 0.5 ps; at +1 ns DTIME steps forward; below −2 ns the alignment is lost. -/
def State.xoffStep (s : State) : State :=
  match s.upstream with
  | none => s
  | some n =>
    if !s.ringT.aligned || !s.timeValid n then s
    else
      let d := clampInt (-1) 1 (-(s.lk n).theta - s.ringT.xoff)
      let x := s.ringT.xoff + d
      if x < -4000 then
        ({ s with ringT := { s.ringT with aligned := false } }.setRf F.RING_STAT_ALIGN_LOST [] 1).linkEvent n 7
      else
        let s1 := s.shiftStarts (-d)
        if 2000 ≤ x then { s1 with ringT := { s1.ringT with xoff := x - 2000 } }.stepDtime 1
        else { s1 with ringT := { s1.ringT with xoff := x } }

/-! ### Alignment of a ring (R588) -/

/-- A multi-slice burst is admitted or running here. -/
def State.multiBusy (s : State) : Bool := s.bursts.any (fun b => b.admitted && (s.entSites b.ent).any Site.multi)

/-- Both ring links are up. -/
def State.ringUp (s : State) : Bool := s.linkUp 0 && s.linkUp 1

/-- θ of the time scale against upstream, or 0 at the reference. -/
def State.thetaUp (s : State) : Int := match s.upstream with
  | some n => (s.lk n).theta + s.ringT.xoff
  | none => 0

/-- θ is known, or not needed. -/
def State.thetaKnown (s : State) : Bool := match s.upstream with
  | some n => s.timeValid n
  | none => true

/-- Send a pass on to the next position: its kind, the cumulative offset and the largest lead (in pass 2 the lead in ns). -/
def State.passOn (s : State) (kind : Nat) (cum lead : Int) : State :=
  s.send 0 { typ := 0x33, seq := 0, fields := [(s.pos + 1) % s.ringLen, 4, kind, ofSigned 64 cum, ofSigned 64 lead] }

/-- The step of DTIME by which a chip with cumulative offset c follows a lead of l ns, in whole ns. -/
def alignStep (l c : Int) : Nat := ((2000 * l - c) / 2000).toNat

/-- This chip steps and is aligned; exchanges that straddle the step are given up. -/
def State.alignTo (s : State) (l : Int) : State :=
  let k := alignStep l s.ringT.cum
  let up : Nat := if s.pos = 0 then 0 else alignStep l s.ringT.cumUp
  let s1 := s.stepDtime k
  let s2 := (List.range 4).foldl (fun s n => s.upLk n (fun x => { x with sentT := [], recvT := none })) s1
  let s3 : State := match s2.upstream with
    | some n => s2.upLk n (fun x => { x with theta := x.theta - 2000 * up })
    | none => s2
  { s3 with ringT := { s3.ringT with aligned := true } }

/-- A pass reaches this chip; it waits while a multi-slice burst is admitted or running, and the first while θ is not known. -/
def State.alignPass (s : State) (kind : Nat) (cum lead : Int) : State :=
  if s.multiBusy || (kind = 1 && s.pos ≠ 0 && !s.thetaKnown) then { s with ringT := { s.ringT with held := some (kind, cum, lead) } }
  else if s.pos = 0 then
    if kind = 1 && s.ringT.pass = 1 then
      let l := (lead + 1999) / 2000
      let s1 := s.alignTo l
      { s1 with ringT := { s1.ringT with pass := 2 } }.passOn 2 0 l
    else if kind = 2 && s.ringT.pass = 2 then
      s.ringT.descs.foldl (fun s d => s.finish d.1 d.2 St.ok) { s with ringT := { s.ringT with pass := 0, descs := [] } }
    else s
  else if kind = 1 then
    let c := cum + s.thetaUp
    { s with ringT := { s.ringT with cum := c, cumUp := cum } }.passOn 1 c (max lead c)
  else (s.alignTo lead).passOn 2 0 lead

/-- Position 0 starts the passes, once nothing holds them. -/
def State.alignStart (s : State) : State :=
  if s.pos ≠ 0 || s.ringLen ≤ 1 || !s.ringUp || s.ringT.pass ≠ 0 then s
  else if s.multiBusy || !s.thetaKnown then { s with ringT := { s.ringT with due := true } }
  else
    let c := s.thetaUp
    { s with ringT := { s.ringT with due := false, pass := 1, cum := c, cumUp := 0 } }.passOn 1 c (max 0 c)

/-- What held the alignment may have ended. -/
def State.alignResume (s : State) : State :=
  match s.ringT.held with
  | some (k, c, l) => { s with ringT := { s.ringT with held := none } }.alignPass k c l
  | none => if s.ringT.due then s.alignStart else s

/-- A ring link has gone: the passes are given up, and RING_ALIGN descriptors complete with LINK_DOWN. -/
def State.alignAbort (s : State) : State :=
  s.ringT.descs.foldl (fun s d => s.finish d.1 d.2 St.linkDown)
    { s with ringT := { s.ringT with pass := 0, held := none, due := false, descs := [] } }

/-- Work across chips can go on here: both ring links are up, and the time scale is aligned (R37, R587). -/
def State.crossOk (s : State) : Bool := s.ringUp && s.ringT.aligned

end Sys2Proof.Machine
end

