-- ==== Sys2Proof/Machine/Reel.lean ====
section
/-! DEFINITION. The issuer of a slice (05_reel_sequencer.md, R133-R162): one definition per instruction word, the checks of R168
that it finds, branch decisions and checkpoint commits. What a vector does once it starts is in Bridle. -/

namespace Sys2Proof.Machine

/-! ### Windows of fails (R152, R583) -/

/-- Windows with vector v marked. -/
def winAdd (w : List (Nat × Nat)) (v : Nat) : List (Nat × Nat) :=
  let a := v / 16 * 16
  kSet w a ((kGet w a).getD 0 ||| 2 ^ (v % 16))

/-- Windows with vector v not marked. -/
def winDel (w : List (Nat × Nat)) (v : Nat) : List (Nat × Nat) :=
  w.map (fun p => if p.1 = v / 16 * 16 && p.2.testBit (v % 16) then (p.1, p.2 - 2 ^ (v % 16)) else p)

/-- Vector v is marked. -/
def winGet (w : List (Nat × Nat)) (v : Nat) : Bool := ((kGet w (v / 16 * 16)).getD 0).testBit (v % 16)

/-- The marked vectors, rising. -/
def winList (w : List (Nat × Nat)) : List Nat := w.flatMap (fun p => (bitList 16 p.2).map (p.1 + ·))

/-- A marked vector lies in [lo, hi]. -/
def winHas (w : List (Nat × Nat)) (lo hi : Nat) : Bool := (winList w).any (fun v => lo ≤ v && v ≤ hi)

/-! ### The burst on a slice -/

/-- What the Reel reads while a burst is on a slice: the burst, its object, and the streams the slice carries. -/
structure Cx where
  b : Burst
  o : Obj
  rd : Rd
  h : Hdr
  js : List Nat
  /-- the setup block of the burst's APG unit -/
  setup : List Byte

/-- Logical slice s of cluster n, by global number; 48 names none. -/
def gOf (n sl : Nat) : Nat := if sl < 4 && n < 12 then 4 * n + sl else 48

/-- The admitted burst on slice g. -/
def State.cx (s : State) (g : Nat) : Option Cx :=
  match (s.sl g).ent.bind s.burst with
  | none => none
  | some b =>
    match (if b.admitted then kGet s.objs b.obj else none) with
    | none => none
    | some o =>
      let rd := s.rd o
      some { b := b, o := o, rd := rd, h := hdrOf rd, js := s.entStreams b.ent (g / 4)
             setup := match b.apgUnit with
               | some k => (s.apgs.getD k {}).setup
               | none => [] }

/-- A line begins on a token boundary in every carried stream (R143). -/
def Cx.boundary (c : Cx) (line : Nat) : Bool := c.js.all (fun j => atBoundary c.rd c.h j line)

/-- Vectors in the expansion queue (R133). -/
def Seq.level (q : Seq) : Nat := q.avail.length

/-- Instruction word i: from the slice's instruction window where it holds it, else from the object (R183). -/
def Cx.wordAt (c : Cx) (q : Seq) (i : Nat) : Nat := ((q.window.find? (fun p => p.1 = i)).map (·.2)).getD (instrWord c.rd c.h i)

/-- The word at the program index. -/
def Cx.word (c : Cx) (q : Seq) : Nat := c.wordAt q q.pc

/-! ### The issuer's cycles (R134, R135) -/

/-- The issuer has come to cycle k: one it was not in yet begins with nothing used. A word that has transferred control goes on in it, where
its vectors did not fit before, and ends the cycle of its last vector. -/
def Issuer.goto (i : Issuer) (k : Nat) : Issuer := if i.cyc < k then { cyc := k, xfer := i.xfer } else i

/-- The issuer executes a word: two in a cycle, and none after one that transfers control. -/
def Issuer.word (i : Issuer) : Issuer :=
  let j := if 2 ≤ i.words || i.xfer then i.goto (i.cyc + 1) else i
  { j with words := j.words + 1, xfer := false }

/-- The issuer places a vector, no earlier than in cycle k, whose line begins these numbers of tokens in the carried streams: four vectors
and four tokens of a stream in a cycle. Four vectors of at most four beats need no more than 16 group words of a stream. -/
def Issuer.place (i : Issuer) (k : Nat) (ts : List Nat) : Issuer :=
  let a := i.goto k
  let full : Bool := 4 ≤ a.vecs || (ts.zipIdx.any (fun t => t.1 ≠ 0 && 4 < a.toks.getD t.2 0 + t.1))
  let b := if full then a.goto (a.cyc + 1) else a
  { b with vecs := b.vecs + 1, toks := if ts.isEmpty then b.toks else ts.zipIdx.map (fun t => t.1 + b.toks.getD t.2 0) }

/-- Vector k of a list of runs: its run, and its place in it. -/
def nthRun : List Run → Nat → Option (Run × Nat)
  | [], _ => none
  | r :: rs, k => if k < r.count then some (r, k) else nthRun rs (k - r.count)

/-- The tokens that begin in the line of vector k of a run, by carried stream; RPT decodes its line once (R141). -/
def Cx.tokens (c : Cx) (r : Run) (k : Nat) : List Nat :=
  if r.pad || !r.dec || (!r.step && k ≠ 0) then []
  else c.js.map (fun j => ((List.range r.mux).filter (fun b => match lineWord c.rd c.h j (if r.step then r.line + k else r.line) b with
    | .ok w => w.head
    | .error _ => false)).length)

/-- Start time of a vector that has started, 0.5 ps. -/
def Seq.startOf (q : Seq) (v : Nat) : Nat := match q.segs.find? (fun k => k.1 ≤ v) with
  | some (v0, t0, p) => t0 + (v - v0) * p
  | none => q.grid

/-- The first cycle in which vector v finds room in the 32-deep queue: that in which vector v - 32 leaves it. -/
def Seq.roomAt (q : Seq) (v : Nat) : Nat := if v < q.base + 32 then 0 else (q.startOf (v - 32) - q.grid) / 4000

/-- Vectors of executed words enter the expansion queue while it has room, at most n of them (R134). Before the burst's first vector
the time does not matter (R135). -/
def Cx.fill (c : Cx) : Nat → Seq → Seq
  | 0, q => q
  | n + 1, q =>
    if 32 ≤ q.avail.length then q
    else match nthRun q.queue q.avail.length with
      | none => q
      | some (r, k) =>
        if q.state = 1 then c.fill n { q with avail := q.avail ++ [0] }
        else
          let i := (if r.fresh && k = 0 then q.iss.goto (q.iss.cyc + 1) else q.iss).place (q.roomAt (q.next + q.avail.length)) (c.tokens r k)
          c.fill n { q with iss := i, avail := q.avail ++ [q.grid + 4000 * (i.cyc + 1)] }

/-- A vector that no word executed so far forms cannot be in the queue at its start (R135). -/
def Seq.late (q : Seq) : Bool := q.time < q.grid + 4000 * (((q.iss.word).place (q.roomAt q.issue) []).cyc + 1)

/-- The next vector starts later than 50 ns after a stop request's arrival: it is the stop vector (R165). -/
def Seq.stopDue (q : Seq) : Bool := q.stop.any (fun p => p.1 + 100000 < q.time)

/-- The highest status among a cause and those that have reached the slice for vector v or before it: a stop still on its way, data lost, a
timeout (R164). -/
def Seq.causes (q : Seq) (v status : Nat) : Nat :=
  ((q.cuts.filter (fun k => k.1 ≤ v)).map (·.2)).foldl max (max status (q.stop.elim 0 (·.2)))

/-- The issuer takes the word at the program index: it enters the instruction window, and counts in the cycle (R134, R183). -/
def Cx.take (c : Cx) (q : Seq) : Seq := { q with
  window := ((q.pc, c.word q) :: q.window.filter (fun p => p.1 ≠ q.pc)).take 1024, iss := if q.state = 1 then q.iss else q.iss.word }

/-- The issuer may execute a word: it fills or runs, or still feeds the vectors before a requested stop (R165), nothing holds it, and the
queue has room (R133, R134). -/
def Seq.mayIssue (q : Seq) : Bool :=
  (q.state = 1 || q.state = 2 || q.state = 3) && !q.ended && q.fault.isNone && q.held.isNone && q.endAt.isNone && q.level < 32

/-- The innermost frame is a match frame whose body is still being decoded (R157). -/
def Seq.inBody (q : Seq) : Bool := match q.frames with
  | f :: _ => f.isMatch && !f.full
  | [] => false

/-- The frame that a LOOP word repeats: an ENDL has rewound to it (R142). -/
def Seq.rewound (q : Seq) : Bool := match q.frames with
  | f :: _ => !f.isMatch && f.word = q.pc && f.depth = q.calls.length
  | [] => false

/-- Vectors of a body. -/
def Frame.b (f : Frame) : Nat := (f.body.map Run.count).sum

/-! ### Checks at execution (R139, R168) -/

/-- The resume point, not yet marked in the burst, that the word at pc is (R105). -/
def Cx.reached (c : Cx) (q : Seq) : Option Nat :=
  (List.range c.h.nRes).find? (fun i => (rpEnt c.rd c.h i).instr = q.pc && !q.marked.contains i)

/-- What the issuer can compare of a resume point: depths, line, TSET, multiplex and vector number (R105, R162). -/
def Cx.resumeOk (c : Cx) (q : Seq) (i : Nat) : Bool :=
  let e := rpEnt c.rd c.h i
  q.frames.isEmpty && q.calls.isEmpty && q.line = 4096 * e.block && wTset (c.word q) = e.tset &&
  q.mux = e.mux && (e.vec = 0xFFFFFFFFFFFF || e.vec = q.issue)

/-- The codes of R168 and R124 that the word at pc fails, found at its first vector. -/
def Cx.wordCodes (c : Cx) (q : Seq) : List Nat :=
  let w := c.word q
  let op := wOp w
  let pick (l : List (Nat × Bool)) : List Nat := (l.filter (fun p => p.2)).map (·.1)
  if c.h.nInstr ≤ q.pc then pick [(0x47, q.alignNext), (0x51, true)]
  else
    let rp := match c.reached q with
      | some i => !c.resumeOk q i
      | none => false
    pick [
      (0x34, rp), (0x40, !reelOp op), (0x47, q.alignNext || (op = 3 && !c.boundary q.line)),
      (0x4F, q.inBody && (op ≠ 1 && op ≠ 2 && op ≠ 6 || 256 < q.issue + wVecs w - (q.frames.headD { isMatch := true, count := 0, word := 0, line := 0, depth := 0 }).start))] ++
    (if !reelOp op then [] else pick [
      (0x41, !wZeros w),
      (0x42, hasTarget op && (c.h.nInstr ≤ wTarget w || c.h.nBlocks ≤ wBlock w)),
      (0x43, (op = 3 && !q.rewound || op = 5) && 8 ≤ q.frames.length),
      (0x44, op = 4 && !(match q.frames with
        | f :: _ => !f.isMatch && f.depth = q.calls.length
        | [] => false) || op = 6 && !(match q.frames with
        | f :: _ => f.isMatch
        | [] => false)),
      (0x45, op = 8 && 16 ≤ q.calls.length),
      (0x46, op = 9 && q.calls.isEmpty),
      (0x48, c.h.tsetMax < wTset w),
      (0x4B, op = 0x0C && !(wArg w % 8 = 1 || wArg w % 8 = 2 || wArg w % 8 = 4)),
      (0x4D, c.h.nLines < q.line + wLines w),
      (0x4E, op = 5 && !c.h.match?),
      (0x50, (op = 0x0A || op = 0x0B) && q.steer.any (fun p => q.issue + wVecs w < p + 256)),
      (0x54, 2 ^ 48 < q.issue + wVecs w), (0x55, op = 0x0D && !c.h.apg)])

/-! ### Emission (R141, R146, R147, R161) -/

/-- Form the vectors of runs, and keep them for the replays of a match frame whose body is being decoded; there they need no decoding and
pass no resume point again (R105, R157). -/
def Seq.push (q : Seq) (rs : List Run) : Seq :=
  let body := q.inBody
  let rs := rs.map (fun r => { r with body := body })
  { q with
    queue := q.queue ++ rs, issue := q.issue + (rs.map Run.count).sum
    frames := if body then q.frames.modify 0 (fun f => { f with body := f.body ++ rs.map (fun r => { r with dec := false, rp := none }) }) else q.frames }

/-- The runs of a word's vectors. -/
def Cx.runs (c : Cx) (q : Seq) (w : Nat) (rp : Option (Nat × Option Nat)) : List Run :=
  let op := wOp w
  let base : Run := { line := q.line, count := wLines w, word := q.pc, tset := wTset w, mux := q.mux, mark := wMark w
                      clrf := wClrf w, apg := q.apg, rp := rp, arg := if op = 0x0D && !c.setup.isEmpty then some (wArg w) else none }
  if op = 2 then [{ base with count := wCount w, step := false }]
  else if op = 0x0C then [{ base with count := 8, pad := true }, { base with mark := 0, clrf := false, rp := none }]
  else [base]

/-- Emit a word's vectors: the line cursor, the CLRF the issuer sees, the resume point and the APG registers move on. -/
def Cx.emit (c : Cx) (q : Seq) : Seq :=
  let w := c.word q
  let q0 := if wOp w = 0x0C then { q with mux := wArg w % 8 } else q
  let rp := c.reached q
  let q1 := q0.push (c.runs q0 w (rp.map (fun i => (i, q.steer))))
  { q1 with
    line := q.line + wLines w, alignNext := false, clr := if wClrf w then q.issue else q.clr
    marked := match rp with
      | some i => q.marked ++ [i]
      | none => q.marked
    apg := if wOp w = 0x0D && !c.setup.isEmpty then apgOps c.setup (wArg w) (wLines w) q.apg else q.apg }

/-- The issuer stops on a check: the fault, and the word's first vector, which does not start, so that a lower code at that vector is
reported and a resume point reached there is compared (R105, R169). A word whose first vector has no line, SET_MUX or one past the last
line, has its timing set checked alone. -/
def Cx.stopOn (c : Cx) (q : Seq) (code : Nat) : Seq :=
  let w := c.word q
  let q1 := { q with fault := some (q.issue, code) }
  if c.h.nInstr ≤ q.pc then q1
  else { q1 with queue := q.queue ++ [{ line := q.line, count := 1, word := q.pc, tset := wTset w
                                        mux := if wOp w = 0x0C && (wArg w % 8 = 1 || wArg w % 8 = 2 || wArg w % 8 = 4) then wArg w % 8 else q.mux
                                        apg := q.apg, pad := wOp w = 0x0C || c.h.nLines ≤ q.line
                                        rp := ((c.reached q).filter (c.resumeOk q)).map (fun i => (i, q.steer)) }] }

/-- The lowest of a list of codes. -/
def lowest (l : List Nat) : Option Nat := l.min?

/-- Execute the word at pc if its opcode is `op`; a word that no command names, past the last word or with a reserved opcode,
is found by whichever command comes (log entry 21). -/
def reelWord (n sl op : Nat) (act : Cx → Seq → Seq) (s : State) : State :=
  let g := gOf n sl
  match s.cx g with
  | none => s
  | some c =>
    let q := (s.sl g).seq
    let w := c.word q
    if !q.mayIssue || (q.pc < c.h.nInstr && reelOp (wOp w) && wOp w ≠ op) then s
    else match lowest (c.wordCodes q) with
      | some k => s.upSeq g (fun _ => c.fill 32 (c.stopOn (c.take q) k))
      | none => s.upSeq g (fun _ => c.fill 32 (act c (c.take q)))

/-- Continue at the next word. -/
def Seq.nextWord (q : Seq) : Seq := { q with pc := q.pc + 1 }

/-- The word has transferred control: the issuer's cycle is over (R134). -/
def Seq.xfer (q : Seq) : Seq := { q with iss := { q.iss with xfer := q.state ≠ 1 } }

/-- Continue at a target word and the first line of a target block (R140). -/
def Seq.goto (q : Seq) (word block : Nat) : Seq := { q.xfer with pc := word, line := 4096 * block }

/-- Discard the loop frames opened at the current call depth (R145). -/
def Seq.dropLoops (q : Seq) : Seq := { q with frames := q.frames.filter (fun f => f.isMatch || f.depth ≠ q.calls.length) }

/-! ### The words -/

/-- VEC (R141). -/
def doVec (n sl : Nat) (s : State) : State := reelWord n sl 1 (fun c q => (c.emit q).nextWord) s

/-- RPT (R141). -/
def doRpt (n sl : Nat) (s : State) : State := reelWord n sl 2 (fun c q => (c.emit q).nextWord) s

/-- LOOP (R142). -/
def doReelLoop (n sl : Nat) (s : State) : State :=
  reelWord n sl 3 (fun c q =>
    let w := c.word q
    let q1 := if q.rewound then q else
      { q with frames := { isMatch := false, count := wCount w, word := q.pc, line := q.line, depth := q.calls.length } :: q.frames }
    (c.emit q1).nextWord) s

/-- ENDL (R142, R143). -/
def doEndl (n sl : Nat) (s : State) : State :=
  reelWord n sl 4 (fun c q =>
    let q1 := c.emit q
    match q1.frames with
    | [] => q1
    | f :: r =>
      if 1 < f.count then
        { q1.xfer with frames := { f with count := f.count - 1 } :: r, pc := f.word, line := f.line, alignNext := !c.boundary q1.line }
      else { q1 with frames := r }.nextWord) s

/-- MLOOP (R157). -/
def doMloop (n sl : Nat) (s : State) : State :=
  reelWord n sl 5 (fun c q =>
    let w := c.word q
    let f : Frame := { isMatch := true, count := wCount w, word := q.pc, line := q.line, depth := q.calls.length
                       toact := (wArg w).testBit 32, start := q.issue }
    (c.emit { q with frames := f :: q.frames }).nextWord) s

/-- D of R159: iterations between an iteration and its evaluation. -/
def matchD (h b : Nat) : Nat := ceilDiv (h - 1) (max 1 b)

/-- Replay the body of the innermost frame (R157); the next MEND follows another iteration. The repeating MEND ends its cycle, so the body
begins in a later one (R134). -/
def Seq.replay (q : Seq) : Seq := match q.frames with
  | [] => q
  | f :: r => { q with
      queue := q.queue ++ f.body.modify 0 (fun b => { b with fresh := true }), issue := q.issue + f.b, frames := { f with full := true, iter := f.iter + 1 } :: r }

/-- The loop has ended: execution continues after its MEND, whose next line must begin a token (R157). -/
def Cx.leaveLoop (c : Cx) (q : Seq) : Seq := { q with frames := q.frames.drop 1, alignNext := !c.boundary q.line }.nextWord

/-- CL_n_SEQ_MATCH_s (R175). -/
def State.setMatch (s : State) (g iter word : Nat) (timeout : Bool) : State :=
  ((s.setRf F.CL_SEQ_MATCH_ITER [g / 4, g % 4] iter).setRf F.CL_SEQ_MATCH_WORD [g / 4, g % 4] word).setRf
    F.CL_SEQ_MATCH_TIMEOUT [g / 4, g % 4] (b2n timeout)

/-- After the MEND of iteration j, iteration j - D is evaluated (R158-R160). -/
def State.evalMatch (s : State) (g : Nat) (c : Cx) (q : Seq) (f : Frame) : State :=
  let d := matchD q.hzn f.b
  if f.iter < d then s.upSeq g (fun q => c.fill 32 q.replay)
  else
    let i := f.iter - d
    let lo := f.start + i * f.b
    let hi := lo + f.b - 1
    if !(s.entSlices c.b.ent).all (fun k => hi < (s.sl k).seq.next) then s
    else
      let bad := c.b.mfail.filter (fun p => lo ≤ p.2.2 && p.2.2 ≤ hi)
      let q1 := { q with decided := q.decided ++ [(lo, hi)] }
      if bad.isEmpty then
        (s.setMatch g i f.word false).upSeq g (fun _ => { c.leaveLoop q1 with matchAt := some q.issue })
      else if i + 1 < f.count then s.upSeq g (fun _ => c.fill 32 q1.replay)
      else
        let s1 := s.setMatch g (f.count - 1) f.word true
        if f.toact then
          s1.upSeq g (fun _ => { c.leaveLoop q1 with charge := some (q.issue - 1, ((bad.filter (fun p => p.2.1 = g)).map (·.1)).dedup) })
        else s1.upSeq g (fun _ => { q1 with ended := true, cuts := q1.cuts ++ [(q.issue, 0x20)] })

/-- MEND (R159): its lines on iteration 0, then the evaluation; one command per iteration. -/
def doMend (n sl : Nat) (s : State) : State :=
  let g := gOf n sl
  match s.cx g with
  | none => s
  | some c =>
    let q := (s.sl g).seq
    match q.frames with
    | f :: _ =>
      if f.isMatch && f.full then (if q.mayIssue then s.evalMatch g c q f else s)
      else reelWord n sl 6 (fun c q => (c.emit q).replay) s
    | [] => reelWord n sl 6 (fun c q => (c.emit q).replay) s

/-- JMP (R144). -/
def doJmp (n sl : Nat) (s : State) : State :=
  reelWord n sl 7 (fun c q =>
    let w := c.word q
    (c.emit q).dropLoops.goto (wTarget w) (wBlock w)) s

/-- CALL (R144). -/
def doCall (n sl : Nat) (s : State) : State :=
  reelWord n sl 8 (fun c q =>
    let w := c.word q
    let q1 := c.emit q
    { q1 with calls := (q.pc + 1, q1.line) :: q1.calls, alignNext := !c.boundary q1.line }.goto (wTarget w) (wBlock w)) s

/-- RET (R144). -/
def doRet (n sl : Nat) (s : State) : State :=
  reelWord n sl 9 (fun c q =>
    let q1 := (c.emit q).dropLoops
    match q1.calls with
    | [] => q1
    | (w, l) :: r => { q1.xfer with calls := r, pc := w, line := l }) s

/-- The first BRF or BRP word on the decided path from word i, at which the fetcher stops while the branch before it is undecided (R136):
through jumps, calls `cs` and returns, and once back through each loop of `fs`, word and count, that rewinds. A path that meets END or
the end of the words, or none within `n` words, has none. -/
def Cx.fetchWait (c : Cx) : Nat → Nat → List Nat → List (Nat × Nat) → Option Nat
  | 0, _, _, _ => none
  | n + 1, i, cs, fs =>
    if c.h.nInstr ≤ i then none
    else
      let w := instrWord c.rd c.h i
      match wOp w with
      | 0x0A | 0x0B => some i
      | 0x0E => none
      | 3 => c.fetchWait n (i + 1) cs (if fs.head?.any (fun f => f.1 = i) then fs else (i, wCount w) :: fs)
      | 4 => match fs with
        | (j, k) :: r => if 1 < k then c.fetchWait n j cs ((j, 1) :: r) else c.fetchWait n (i + 1) cs r
        | [] => none
      | 7 => c.fetchWait n (wTarget w) cs fs
      | 8 => c.fetchWait n (wTarget w) ((i + 1) :: cs) fs
      | 9 => match cs with
        | j :: r => c.fetchWait n j r fs
        | [] => none
      | _ => c.fetchWait n (i + 1) cs fs

/-- What the fetcher reads at a branch to a word and a block from word `next` on the fall-through path (R136): 4 KiB of words and of each
carried stream at the target. It walks on over at most 1,024 words of either path, as many as the instruction window holds (R183). -/
def Cx.branchBuf (c : Cx) (q : Seq) (next word block : Nat) : BranchBuf :=
  let fs := (q.frames.filter (fun f => !f.isMatch)).map (fun f => (f.word, f.count))
  let cs := q.calls.map (·.1)
  let at_ (j : Nat) : Nat := c.h.off 5 + (streamDir c.rd c.h j).1
  { words := (c.h.off 3 + 8 * word, c.h.off 3 + 8 * min c.h.nInstr (word + 512))
    streams := c.js.map (fun j => (j, at_ j + soff c.rd c.h block j, at_ j + min (soff c.rd c.h c.h.nBlocks j) (soff c.rd c.h block j + 4096)))
    waits := (c.fetchWait 1024 next cs fs, c.fetchWait 1024 word cs fs) }

/-- The branch buffer holds the byte at an offset of the object. -/
def BranchBuf.holds (b : BranchBuf) (x : Nat) : Bool :=
  (b.words.1 ≤ x && x < b.words.2) || b.streams.any (fun r => r.2.1 ≤ x && x < r.2.2)

/-- A branch word: its lines, then issue is held at the steered vector (R153, R155), and the fetcher reads down both paths (R136). -/
def Cx.branch (c : Cx) (q : Seq) (isF : Bool) : Seq :=
  let w := c.word q
  let q1 := (c.emit q).nextWord
  { q1 with held := some { isF := isF, steer := q1.issue, word := wTarget w, block := wBlock w }, steer := some q1.issue
            brbuf := some (c.branchBuf q1 q1.pc (wTarget w) (wBlock w)) }

/-- The branch is decided: the bytes fetched for the other path are dropped, and what an uncorrectable error took from the chosen one ends
the burst at the vector that needs it (R136, R544). -/
def Seq.choosePath (q : Seq) (taken : Bool) : Seq :=
  let lost := q.brbuf.elim [] (fun b => if taken then b.into else b.fall)
  { q with held := none, brbuf := none, cuts := q.cuts ++ lost.map (fun v => (v, St.memUe)) }

/-- BRF (R153). -/
def doBrf (n sl : Nat) (s : State) : State := reelWord n sl 0x0A (fun c q => c.branch q true) s

/-- BRP (R153). -/
def doBrp (n sl : Nat) (s : State) : State := reelWord n sl 0x0B (fun c q => c.branch q false) s

/-- BRANCH_DECISION (R152, R153, R85): fails from the accumulator's start through s - H decide. -/
def doBranchDecision (n sl : Nat) (s : State) : State :=
  let g := gOf n sl
  match s.cx g, (s.sl g).seq.held with
  | some c, some hd =>
    let q := (s.sl g).seq
    if q.endAt.isSome || !(s.entSlices c.b.ent).all (fun k => hd.steer < (s.sl k).seq.next + q.hzn) then s
    else
      let any := q.hzn ≤ hd.steer && winHas c.b.wins q.clr (hd.steer - q.hzn)
      let q1 := { q.choosePath (any = hd.isF) with
        decided := if q.hzn ≤ hd.steer then q.decided ++ [(q.clr, hd.steer - q.hzn)] else q.decided }
      s.upSeq g (fun _ => if any = hd.isF then q1.dropLoops.goto hd.word hd.block else q1)
  | _, _ => s

/-- SET_MUX (R146). -/
def doSetMux (n sl : Nat) (s : State) : State := reelWord n sl 0x0C (fun c q => (c.emit q).nextWord) s

/-- APGV (R147, R324). -/
def doApgv (n sl : Nat) (s : State) : State := reelWord n sl 0x0D (fun c q => (c.emit q).nextWord) s

/-- END (R166); with STATIC_LEN, a burst that is too short (R168). -/
def doReelEnd (n sl : Nat) (s : State) : State :=
  reelWord n sl 0x0E (fun c q =>
    let q1 := c.emit q
    let q2 := { q1 with ended := true, endst := wArg (c.word q) % 2 }
    if c.h.staticLen && q2.issue < c.h.nvs then { q2 with fault := some (q2.issue, 0x53) } else q2) s

/-! ### Checkpoints (R162, R302) -/

/-- A counter set of a multi-slice site as it stood before vector c: what the burst started with at vector lo, and its fails from
there to c. -/
def Counts.upto (now : Counts) (base : Counts) (own all : List (Nat × Nat)) (lo c : Nat) (leads : Bool) : Counts :=
  let o := (winList own).filter (fun v => lo ≤ v && v < c)
  let a := (winList all).filter (fun v => lo ≤ v && v < c)
  { now with
    failVecs := sat 48 (base.failVecs + o.length), first := base.first.or o.head?, last := o.getLast?.or base.last
    xFail := if leads then sat 48 (base.xFail + a.length) else 0
    xFirst := if leads then base.xFirst.or a.head? else none, xLast := if leads then a.getLast?.or base.xLast else none }

/-- Per-channel counts of a site: those of the channels of cluster n from `a`, the others from `b`. -/
def chMix (x : Site) (n : Nat) (a b : List Nat) : List Nat :=
  x.chans.zipIdx.map (fun k => if k.1 / 16 = n then a.getD k.2 0 else b.getD k.2 0)

/-- CL_n_SEQ_CKPT_s (R174). -/
def State.setCkptReg (s : State) (g : Nat) (k : Option Ckpt) : State :=
  match k with
  | some c => ((s.setRf F.CL_SEQ_CKPT_VEC [g / 4, g % 4] c.vec).setRf F.CL_SEQ_CKPT_RP_ID [g / 4, g % 4] c.rp).setRf
      F.CL_SEQ_CKPT_VALID [g / 4, g % 4] 1
  | none => ((s.setRf F.CL_SEQ_CKPT_VEC [g / 4, g % 4] 0).setRf F.CL_SEQ_CKPT_RP_ID [g / 4, g % 4] 0).setRf
      F.CL_SEQ_CKPT_VALID [g / 4, g % 4] 0

/-- A checkpoint of slice g as Tether carries it (R609): entity, resume point, vector and the counts of its sites. -/
def ckptItem (e : Ent) (g : Nat) (k : Ckpt) : MItem :=
  { kind := 3, key := entKey e ++ [g, k.rp, k.vec, k.snap.accStart, k.snap.minFail.getD (2 ^ 48), k.snap.steer.getD (2 ^ 48), k.snap.mask,
                                   k.snap.sliceFail, k.snap.sliceFirst.getD (2 ^ 48), k.snap.sliceLast.getD (2 ^ 48), k.snap.due, k.snap.span] ++
      k.snap.counts.flatMap (fun p => [p.1, (kGet k.snap.maskVecs p.1).getD (2 ^ 48), p.2.failVecs, p.2.first.getD (2 ^ 48),
        p.2.last.getD (2 ^ 48), p.2.xFail, p.2.xFirst.getD (2 ^ 48), p.2.xLast.getD (2 ^ 48), p.2.ch.length] ++ p.2.ch) }

/-- The pending checkpoint of a slice commits: its counter snapshot is recorded, the register shows it, Tether mirrors it. -/
def State.commitCkpt (s : State) (g : Nat) (c : Cx) : State :=
  match (s.sl g).seq.pendCk with
  | none => s
  | some k =>
    let multi := (s.entSites c.b.ent).any Site.multi
    let k1 := if multi then
        { k with snap := { k.snap with counts := k.snap.counts.map (fun p =>
            let base := (c.b.restart.bind (fun r => kGet r.snap.counts p.1)).getD {}
            (p.1, p.2.upto base c.b.own c.b.wins (c.b.restart.elim 0 Ckpt.vec) k.vec (s.leads c.b.ent))) } }
      else k
    let now := (s.burst c.b.ent).elim c.b.wins Burst.wins
    let k2 := { k1 with snap := { k1.snap with minFail := (winList now).find? (fun v => k.snap.accStart ≤ v && v < k.vec) } }
    ((s.upSeq g (fun q => { q with pendCk := none, ckpt := some k2, ckptOld := q.ckpt })).setCkptReg g (some k2)).mirror (ckptItem c.b.ent g k2)

/-- CHECKPOINT_COMMIT (R162): the results of every vector before c are final. -/
def doCheckpointCommit (n sl : Nat) (s : State) : State :=
  let g := gOf n sl
  match s.cx g, (s.sl g).seq.pendCk with
  | some c, some k =>
    if (s.entSlices c.b.ent).all (fun i => k.vec ≤ (s.sl i).seq.next) then s.commitCkpt g c else s
  | _, _ => s

/-! ### Commands -/

/-- VEC. -/
def execVec (n sl : Nat) (s : State) : Host.Outcome State Fault Refusal := .next (doVec n sl s)
/-- RPT. -/
def execRpt (n sl : Nat) (s : State) : Host.Outcome State Fault Refusal := .next (doRpt n sl s)
/-- LOOP. -/
def execReelLoop (n sl : Nat) (s : State) : Host.Outcome State Fault Refusal := .next (doReelLoop n sl s)
/-- ENDL. -/
def execEndl (n sl : Nat) (s : State) : Host.Outcome State Fault Refusal := .next (doEndl n sl s)
/-- MLOOP. -/
def execMloop (n sl : Nat) (s : State) : Host.Outcome State Fault Refusal := .next (doMloop n sl s)
/-- MEND. -/
def execMend (n sl : Nat) (s : State) : Host.Outcome State Fault Refusal := .next (doMend n sl s)
/-- JMP. -/
def execJmp (n sl : Nat) (s : State) : Host.Outcome State Fault Refusal := .next (doJmp n sl s)
/-- CALL. -/
def execCall (n sl : Nat) (s : State) : Host.Outcome State Fault Refusal := .next (doCall n sl s)
/-- RET. -/
def execRet (n sl : Nat) (s : State) : Host.Outcome State Fault Refusal := .next (doRet n sl s)
/-- BRF. -/
def execBrf (n sl : Nat) (s : State) : Host.Outcome State Fault Refusal := .next (doBrf n sl s)
/-- BRP. -/
def execBrp (n sl : Nat) (s : State) : Host.Outcome State Fault Refusal := .next (doBrp n sl s)
/-- BRANCH_DECISION. -/
def execBranchDecision (n sl : Nat) (s : State) : Host.Outcome State Fault Refusal := .next (doBranchDecision n sl s)
/-- SET_MUX. -/
def execSetMux (n sl : Nat) (s : State) : Host.Outcome State Fault Refusal := .next (doSetMux n sl s)
/-- APGV. -/
def execApgv (n sl : Nat) (s : State) : Host.Outcome State Fault Refusal := .next (doApgv n sl s)
/-- END. -/
def execReelEnd (n sl : Nat) (s : State) : Host.Outcome State Fault Refusal := .next (doReelEnd n sl s)
/-- CHECKPOINT_COMMIT. -/
def execCheckpointCommit (n sl : Nat) (s : State) : Host.Outcome State Fault Refusal := .next (doCheckpointCommit n sl s)

end Sys2Proof.Machine
end

