-- ==== Sys2Proof/Machine/MemLog.lean ====
section
/-! DEFINITION. Errors of device memory (15_device_memory.md, R543-R550): the error log, repair candidates and fences, the
retirement of a memory channel (R206, R550), and the end of a load, whose read-back may meet one (R121). -/

namespace Sys2Proof.Machine

/-- Bank and row of a device address (R528). -/
def bankRow (a : Nat) : Nat × Nat :=
  let p := a % 2 ^ 36 / 1792
  (p % 16, p / 16)

/-- Word w of log entry j of channel m (R554). -/
def State.logWord (s : State) (m j w : Nat) : W64 := s.reg (F.MC_LOG_ENTRY.off [m, j, w])

/-- The state with a log word stored. -/
def State.setLogWord (s : State) (m j w v : Nat) : State := s.setReg (F.MC_LOG_ENTRY.off [m, j, w]) (BitVec.ofNat 64 v)

/-- Log entry j of channel m is in use. -/
def State.logValid (s : State) (m j : Nat) : Bool := fget (s.logWord m j 2) 56 1 = 1

/-- Every object with a unit on channel m is marked LOST, one still loading too, and its fallback links end (R206, R330). -/
def State.loseObjects (s : State) (m : Nat) : State :=
  let lost := (s.loads.map (·.obj)).filter (fun o => o.onChan m)
  let s1 := { s with loads := s.loads.map (fun l => if l.obj.onChan m then { l with obj := { l.obj with lost := true } } else l) }
  let s2 := lost.foldl (fun s o => s.mirror { kind := 6, key := [2, o.id] }) s1
  ((s.objs.filter (fun p => p.2.onChan m)).map (·.1)).foldl
    (fun s id => (((s.upObj id (fun o => { o with lost := true, fallback := none })).dropLinks id).freeCopies id).mirror
      { kind := 6, key := [2, id] }) s2

/-- The slices on which an admitted burst fetches from memory channel m: it has data there, and no whole copy of the object (R202, R206). -/
def State.fetchers (s : State) (m : Nat) : List Nat :=
  (s.bursts.filter (fun b => b.admitted && (kGet s.objs b.obj).any (fun o => o.onChan m))).flatMap (fun b =>
    (b.parts.filter (fun p => p.share ≠ 0)).map Part.slice)

/-- The burst on a slice ends after k more vectors with a status (R164). -/
def State.cutSlice (s : State) (g k status : Nat) : State :=
  s.upSeq g (fun q => { q with cuts := q.cuts ++ [(q.next + k, status)] })

/-- Retire memory channel m (R550, R206, R688). -/
def State.retireChannel (s : State) (m : Nat) : State :=
  if !s.mcLive m then s
  else
    let s1 := s.setRf F.CAPS_LIVE_MC_LIVE [] (s.rf F.CAPS_LIVE_MC_LIVE - 2 ^ m)
    let s2 := (s.fetchers m).foldl (fun s g => s.cutSlice g 0 St.hwFault) (s1.loseObjects m)
    let s3 := { s2 with regions := s2.regions.map (fun (r : Nat × Region) =>
      (r.1, if r.2.chan = m then { r.2 with lost := true } else r.2)) }
    let s3 := ((s2.regions.filter (fun r => r.2.chan = m)).map (·.1)).foldl (fun s id => s.mirror { kind := 6, key := [2, id] }) s3
    (({ s3 with mcs := s3.mcs.modify m (fun c => { c with repair := none, pending := [], queue := [] }) }).placementChanged).degrade 7 (13 + m) 0

/-- A row becomes a repair candidate (R547, R549); one that waits, is under repair or is fenced stays what it is. -/
def State.candidate (s : State) (m : Nat) (br : Nat × Nat) : State :=
  let c := s.mc m
  if c.pending.contains br || c.fences.contains br || c.repair = some br then s
  else if c.ppr.contains br.1 then s.upMc m (fun c => { c with pending := c.pending ++ [br] })
  else if c.fences.length < 64 then
    (s.upMc m (fun c => { c with fences := c.fences ++ [br] })).log 6 (leBytes 1 m ++ leBytes 1 br.1 ++ leBytes 4 br.2)
  else (s.report 21 (13 + m) 0 4).retireChannel m

/-- A corrected error counts against its row in the 32-row table (R543). -/
def State.countRow (s : State) (m : Nat) (br : Nat × Nat) : State :=
  let t := (s.mc m).ceRows
  let t1 :=
    if t.any (fun r => r.1 = br) then t.map (fun r => if r.1 = br then (r.1, r.2 + 1) else r)
    else if t.length < 32 then t ++ [(br, 1)]
    else match bestBy (fun r : (Nat × Nat) × Nat => [r.2]) t with
      | some v => t.erase v ++ [(br, 1)]
      | none => t
  let s1 := s.upMc m (fun c => { c with ceRows := t1 })
  if t1.any (fun r => r.1 = br && s.rf F.MC_ECC_CTL_CE_THRESH [m] ≤ r.2) then s1.candidate m br else s1

/-- Where a new detection goes: a free entry, else the oldest corrected one (R545). -/
def State.logPlace (s : State) (m : Nat) : Option Nat :=
  match (List.range 16).find? (fun j => !s.logValid m j) with
  | some j => some j
  | none => (s.mc m).logOrder.find? (fun j => fget (s.logWord m j 1) 52 4 = 1)

/-- What a detection is: requester, access, word, syndrome, whether uncorrectable, found by scrub, injected (R545). -/
structure Detect where
  addr : Nat
  req : Nat
  access : Nat
  word : Nat := 0
  syndrome : Nat := 0
  ue : Bool
  scrub : Bool := false
  inj : Bool := false
  deriving DecidableEq, Repr

/-- Log a detection (R545). -/
def State.logDetect (s : State) (d : Detect) : State :=
  let m := d.addr / 2 ^ 36
  let a := d.addr / 64 * 64
  match (List.range 16).find? (fun j => s.logValid m j && fget (s.logWord m j 1) 0 40 = a) with
  | some j =>
    let w := (s.logWord m j 1).toNat
    s.setLogWord m j 1 (setBits w 56 8 (satAdd 8 (bitsOf w 56 8) 1))
  | none =>
    match s.logPlace m with
    | none => s.incRf F.MC_ECC_STAT_LOG_LOST [m]
    | some j =>
      let (k, id, x) := s.translate a
      let s1 := s.setLogWord m j 0 s.dtime
      let s2 := s1.setLogWord m j 1 (a + d.req * 2 ^ 40 + d.access * 2 ^ 48 + (if d.ue then 2 else 1) * 2 ^ 52)
      let s3 := s2.setLogWord m j 2 (id + k * 2 ^ 32 + d.word * 2 ^ 40 + d.syndrome * 2 ^ 48 + 2 ^ 56 + b2n d.inj * 2 ^ 57 +
        b2n d.scrub * 2 ^ 58)
      (s3.setLogWord m j 3 x).upMc m (fun c => { c with logOrder := c.logOrder.filter (· ≠ j) ++ [j] })

/-- A memory error is detected (R543, R544): counted, logged, its row noted, and reported as MEM_UE or MEM_CE. -/
def State.memError (s : State) (d : Detect) : State :=
  let m := d.addr / 2 ^ 36
  let br := bankRow d.addr
  let (k, id, x) := s.translate (d.addr / 64 * 64)
  let r : Report := { src := if d.ue then 18 else 19, island := 13 + m, unit := br.1, detail := d.word, t := s.dtime
                      addr := d.addr / 64 * 64, req := d.req
                      access := match d.access with
                        | 0 => 1
                        | 1 => 3
                        | 2 => 4
                        | _ => 5
                      idkind := k, id := id, off := x, inj := d.inj }
  if d.ue then
    let g := d.addr / 64 * 64
    let s0 := if d.inj || s.bad.contains g then s else { s with bad := g :: s.bad }
    (((s0.logDetect d).incRf F.MC_ECC_STAT_UE [m]).candidate m br).reportAt r
  else
    let s1 := (s.incRf F.MC_ECC_STAT_CE [m])
    let s2 := if s.rb F.MC_ECC_CTL_LOG_CE [m] then s1.logDetect d else s1
    (s2.countRow m br).reportAt r

/-- A memory error whose word and syndrome no command gives: they are free (R545, log entry 42). -/
def State.detected (s : State) (d : Detect) : State :=
  s.draw.draw.memError { d with word := Config.freeValue s.freeCtr % 8, syndrome := Config.freeValue (s.freeCtr + 1) % 256 }

/-- An armed address injection meets the granule at an address (R638): whether it is corrected, and the state with it used. -/
def State.useInjection (s : State) (a : Nat) : Option (Bool × State) := match s.collector.armed with
  | some (g, corrected) =>
    if g = a / 64 * 64 then
      some (corrected, { s.incRf F.FLT_INJ_STAT_COUNT [] with collector := { s.collector with armed := none } })
    else none
  | none => none

/-- A read of n bytes by a requester that is not split into granules here: the errors it meets, and the granules that return no data
(R544, R638). -/
def State.readErrors (s : State) (a n req : Nat) : State × List Nat :=
  let hit (g : Nat) : Bool := a / 64 * 64 ≤ g && g < a + n
  let bads := s.bad.filter hit
  let s1 := bads.foldl (fun s g => s.detected { addr := g, req := req, access := 0, ue := true }) s
  match s1.collector.armed with
  | some (g, corrected) =>
    if hit g && !bads.contains g then
      match s1.useInjection g with
      | some (_, s2) => (s2.detected { addr := g, req := req, access := 0, ue := !corrected, inj := true }, if corrected then bads else g :: bads)
      | none => (s1, bads)
    else (s1, bads)
  | none => (s1, bads)

/-- A write that covers part of a granule, and met an uncorrectable error on its merge read (R530, R544). -/
def State.mergeError (s : State) (addr req : Nat) : State := s.detected { addr := addr, req := req, access := 1, ue := true }

/-- The read of a granule that a merge or a read-modify-write makes fails: a new error (`ue`), one that the granule has kept, or an
injected one (R544, R638). -/
def State.mergeFails (s : State) (addr : Nat) (ue : Bool) : Bool :=
  ue || s.bad.contains (addr / 64 * 64) || s.collector.armed.any (fun x => x.1 = addr / 64 * 64 && !x.2)

/-- That read, with what it detects (R530, R543, R544, R638). -/
def State.mergeRead (s : State) (addr req access : Nat) (ue : Bool) : State :=
  if ue || s.bad.contains (addr / 64 * 64) then s.detected { addr := addr, req := req, access := access, ue := true }
  else match s.useInjection addr with
    | some (c, s1) => s1.detected { addr := addr, req := req, access := access, ue := !c, inj := true }
    | none => s

/-- Channel m is out of service for a repair: every request of another than the repair waits (R548). -/
def State.waits (s : State) (m : Nat) : Bool := (s.mc m).repair.isSome

/-! ### The end of a load -/

/-- The load is a deep one whose arrival passed its checks: the device reads it back (R119). -/
def Load.readsBack (l : Load) : Bool :=
  l.obj.kind == .pattern && l.deep && (worstFail (lateFails (rdList l.src) (hdrOf (rdList l.src)) l.dig)).isNone

/-- The read-back of a load meets an uncorrectable error at byte x of the object (R544). -/
def State.readBackError (s : State) (o : Obj) (x : Nat) : State :=
  s.detected { addr := devAddr (o.place x).1 (o.place x).2, req := 0x41, access := 0, ue := true }

/-- OBJECT_LOAD_COMPLETE (R119, R121, R611). The uncorrectable error of a deep read-back is counted and logged (R544, R545); a load waits for
a channel under repair (R548). -/
def doObjectLoadComplete (sq idx : Nat) (ue : Option Nat) (s : State) : State :=
  match s.loads.find? (fun l => l.sq == sq && l.idx == idx) with
  | none => s
  | some l =>
    if l.obj.chans.any s.waits then s else
    let s0 := match ue with
      | some x => if l.readsBack then s.readBackError l.obj x else s
      | none => s
    let s1 := s0.dropLoad sq idx
    match l.outcome ue with
    | some r => s1.complete sq idx r
    | none =>
      let o := { l.obj with digest := l.dig }
      let s2 := { s1.objStore o l.src with objs := kSet s1.objs o.id o }.placementChanged.pairLoaded o.id o.digest
      s2.complete sq idx { status := St.ok, val1 := if o.kind == .pattern then leNat (o.digest.take 8) else 0 }

/-- OBJECT_LOAD_COMPLETE. -/
def execObjectLoadComplete (sq idx : Nat) (ue : Option Nat) (s : State) : Host.Outcome State Fault Refusal :=
  .next (doObjectLoadComplete sq idx ue s)

end Sys2Proof.Machine
end

