-- ==== Sys2Proof/Machine/Regions.lean ====
section
/-! DEFINITION. Capture regions and per-site results (08_compare_and_fail_capture.md, R271-R282, R295-R301; R334, R355): the
region descriptors, how a region fills, the writers that drain the capture buffer and the combiner, and READ_SITE_RESULT. -/

namespace Sys2Proof.Machine

/-! ### Regions and their headers -/

/-- The capture region with an ID. -/
def State.region (s : State) (id : Nat) : Option Region := kGet s.regions id

/-- The state with a region changed. -/
def State.upRegion (s : State) (id : Nat) (f : Region → Region) : State := { s with regions := kUpd s.regions id f }

/-- The region of a site and kind on this chip (R274). -/
def State.regionOf (s : State) (site kind : Nat) : Option Region :=
  (s.regions.map (·.2)).find? (fun r => r.site = site && r.kind = kind)

/-- Bytes of a record: 32, or 64 for a sample block (R276, R355). -/
def Region.recSize (r : Region) : Nat := if r.kind = 3 then 64 else 32

/-- Capacity in slots (R276, R355). -/
def Region.cap (r : Region) : Nat := (r.size - 64) / r.recSize

/-- The 64-byte header (R277, R334, R355). -/
def Region.header (r : Region) : List Byte :=
  if r.kind = 2 then
    padTo (leBytes 4 0x504D4244 ++ leBytes 2 1 ++ leBytes 1 2 ++ leBytes 1 0 ++ leBytes 1 r.bmX ++ leBytes 1 r.bmY ++ leBytes 1 r.bmIo ++
      leBytes 1 r.bmUnit ++ zeros 4 ++ leBytes 8 r.updates ++ leBytes 4 r.dropped ++ leBytes 4 r.lostCount ++ leBytes 4 r.objId ++
      zeros 4 ++ leBytes 8 r.endT) 64
  else
    leBytes 4 0x50414344 ++ leBytes 2 1 ++ leBytes 1 r.kind ++ leBytes 1 r.state ++ leBytes 4 r.cap ++ leBytes 4 r.pre ++
      leBytes 4 r.next ++ leBytes 4 r.ringHead ++ leBytes 4 r.ringCount ++ leBytes 4 r.postCount ++ leBytes 8 r.trigVec ++
      leBytes 8 (if r.kind = 3 then 0xFFFFFFFFFFFF else r.postVec) ++ leBytes 8 r.trigDtime ++ leBytes 4 r.overwritten ++ leBytes 4 r.lostCount

/-- A granule that is written whole has new check bytes (R530, R544). -/
def State.setGranule (s : State) (a : Nat) : State := { s with bad := s.bad.filter (· ≠ a / 64 * 64) }

/-- The cluster of a region (R360): the lowest one of its site. -/
def State.regionCl (s : State) (r : Region) : Nat := ((s.site r.site).getD { id := r.site }).clusters.headD 0

/-- The requester that writes a region's header (R531): the capture writer or the combiner of its cluster, or the filter engine of its
acquisition. -/
def State.headerReq (s : State) (r : Region) : Nat :=
  let x := (s.site r.site).getD { id := r.site }
  let n := s.regionCl r
  match r.kind with
  | 1 => 0x10 + n
  | 2 => 0x50 + n
  | _ =>
    let m := match s.acqs.find? (fun a => a.region = r.id) with
      | some a => a.chains
      | none => x.chain
    0x60 + (bitList 24 m).headD 0 / 12

/-- Write a region's header, and mirror it (R282, R609). It updates the header in its granule (log entry 42): one whose granule is found uncorrectable marks the region LOST (R297, R544). -/
def State.writeHeader (s : State) (id : Nat) (ue : Bool := false) : State := match s.region id with
  | none => s
  | some r =>
    let a := devAddr r.chan r.base
    let s1 := s.mergeRead a (s.headerReq r) 1 ue
    if r.lost then s
    else if s.mergeFails a ue then
      ((s1.upRegion id (fun r => { r with lost := true })).mirror { kind := 6, key := [2, id] }).placementChanged
    else (s1.memWrite r.chan r.base r.header).mirrorCap r .other 0 r.header

/-- The final header of a burst or acquisition; after Ballast nothing further is written (R306). -/
def State.endHeader (s : State) (id : Nat) : State := if s.ballastOn then s else s.writeHeader id

/-- A region as DEFINE_REGION or CLEAR_REGION leaves it: STATE 0, every count 0 (R277, R334). -/
def Region.blank (r : Region) : Region :=
  { id := r.id, site := r.site, kind := r.kind, append := r.append, size := r.size, chan := r.chan, base := r.base, pre := r.pre
    post := r.post, trigSel := r.trigSel, lost := r.lost, next := r.pre }

/-- A region restarts (R278, R355): without APPEND, STATE, NEXT, the ring and every count are reset; the region enters its
first phase. A BITMAP region resets its counts alone (R334). -/
def Region.restart (r : Region) : Region :=
  if r.kind = 2 then { r with updates := 0, dropped := 0, lostCount := 0 } else
  let r1 := if r.append then r else r.blank
  let none' := 0xFFFFFFFFFFFF
  let r2 := { r1 with
    preCount := 0, trigDtime := 0, postVec := 0, fireAt := none, toldAt := none, pend := none, awaits := false, stamp := none, trigRec := [] }
  if r.trigSel = 0xFF then { r2 with state := 2, linear := true, trigVec := if r.kind = 3 then none' else 0 }
  else { r2 with state := 1, linear := false, trigVec := 0 }

/-- A record takes a slot (R279-R281): none where it is not written; `ok` is whether its write succeeds (R297). The last
component is whether the region found no slot. -/
def Region.place (r : Region) (linear ok : Bool) : Option Nat × Region × Bool :=
  if r.state = 0 || r.state = 3 || r.state = 4 then (none, r, r.state = 4)
  else if !linear then
    if r.pre = 0 then (none, r, false)
    else
      -- slots 0 to ringCount - 1 hold kept records, also those that APPEND keeps from earlier bursts
      let slot := r.preCount % r.pre
      let kept := slot < r.ringCount
      (some slot, { r with
        preCount := r.preCount + 1, ringCount := if kept then r.ringCount else r.ringCount + 1
        ringHead := if kept && slot = r.ringHead then (slot + 1) % r.ringCount else r.ringHead
        overwritten := if kept then satAdd 32 r.overwritten 1 else r.overwritten }, false)
  else if r.post ≠ 0 && r.post ≤ r.postCount then (none, { r with state := 3 }, false)
  else if r.next = r.cap then (none, { r with state := 4 }, true)
  else
    let pc := if ok then r.postCount + 1 else r.postCount
    (some r.next, { r with
      next := r.next + 1, postCount := pc, state := if r.post ≠ 0 && r.post ≤ pc then 3 else r.state }, false)

/-- The result of a site, created if it has none. -/
def State.resOf (s : State) (site : Nat) : SiteRes := (kGet s.results site).getD { site := site }

/-- The state with a site's result changed. -/
def State.upRes (s : State) (site : Nat) (f : SiteRes → SiteRes) : State :=
  { s with results := kSet s.results site (f (s.resOf site)) }

/-- Set a qualifier of the burst of a site or group (R28). -/
def State.qualify (s : State) (e : Ent) (bit : Nat) : State := s.upBurst e (fun b => { b with qual := b.qual ||| 2 ^ bit })

/-- The reduced range of a slice and site takes vector v. -/
def addRed (l : List (Nat × Nat × Nat × Nat)) (g v site : Nat) : List (Nat × Nat × Nat × Nat) :=
  if l.any (fun r => r.1 = g && r.2.1 = site) then
    l.map (fun r => if r.1 = g && r.2.1 = site then (g, site, min v r.2.2.1, max v r.2.2.2) else r)
  else l ++ [(g, site, v, v)]

/-- A vector on slice g is affected by reduction (R296): qualifier REDUCED, and the range of the burst and of the sites. -/
def State.reduce (s : State) (g : Nat) (e : Ent) (sites : List Nat) (v : Nat) : State :=
  let s1 := s.upBurst e (fun b => { b with
    qual := b.qual ||| 4, redFirst := some (min v (b.redFirst.getD v)), redLast := some (max v (b.redLast.getD v))
    reds := sites.foldl (fun l i => addRed l g v i) b.reds })
  sites.foldl (fun s i => s.upRes i (fun r => { r with
    redFirst := some (min v (r.redFirst.getD v)), redLast := some (max v (r.redLast.getD v)) })) s1

/-- The site or group whose bursts a site's records belong to. -/
def State.entOf (s : State) (site : Nat) : Ent := match s.site site with
  | some x => x.ent
  | none => .site site

/-- The capture buffer with the records for which `p` fails taken out; where the first one goes, the next reaches the head now (R530). -/
def Capture.keepRecs (c : Capture) (p : CapRec → Bool) : Capture :=
  let l := c.buf.filter p
  { c with buf := l, headLen := if (c.buf.take 1).all p then ((c.buf.take c.headLen).filter p).length else l.length }

/-- A running burst of a site, or of its group. -/
def State.siteRuns (s : State) (site : Nat) : Bool := (s.burst (s.entOf site)).any (fun b => b.running)

/-- Count one record lost: in the region header, the site result, and the burst (R295, R297). -/
def State.loseRecord (s : State) (site region : Nat) : State :=
  ((s.upRegion region (fun r => { r with lostCount := satAdd 32 r.lostCount 1 })).upRes site (fun r =>
    { r with lost := satAdd 32 r.lost 1 })).upBurst (s.entOf site) (fun b => { b with lost := satAdd 32 b.lost 1 })

/-! ### The capture writer (R295, R297) -/

/-- Write a record to its region. One that is written alone is a merge, whose read may meet an uncorrectable error, `ue` a new one: the
record is lost (R297, R530). One of two joined covers its granule with the other. -/
def State.writeRecord (s : State) (n : Nat) (rec : CapRec) (joined ue : Bool) : State :=
  match s.region rec.region with
  | none => s
  | some r =>
    if r.lost then s.loseRecord rec.site rec.region
    else
      let k0 := (r.place rec.linear true).1.getD 0
      let a := devAddr r.chan (r.base + 64 + 32 * k0)
      let fails := !joined && s.mergeFails a ue
      let (slot, r1, full) := r.place rec.linear (!fails)
      let s1 := s.upRegion rec.region (fun _ => r1)
      let e := s.entOf rec.site
      match slot with
      | none =>
        let s2 := if full then s1.qualify e 1 else s1
        if r1.state ≠ r.state then s2.writeHeader rec.region else s2
      | some k =>
        let off := 64 + 32 * k
        let s1 := if joined then s1 else s1.mergeRead a (0x10 + n) 1 ue
        if fails then s1.loseRecord rec.site rec.region
        else
          let s2 := (s1.memWrite r.chan (r.base + off) rec.bytes).mirrorCap r (.record (fld rec.bytes 4 6)) off rec.bytes
          let s3 := (s2.upRes rec.site (fun x => { x with
            records := satAdd 32 x.records 1, postCount := r1.postCount })).upBurst e (fun b => { b with records := satAdd 32 b.records 1 })
          if r1.state ≠ r.state then s3.writeHeader rec.region else s3

/-- The record that the writer joins with the first one (R530): the next of its region, in the buffer when the first reached the head, that
takes the other half of its granule. -/
def State.joins (s : State) (c : Capture) (rec : CapRec) : Option CapRec :=
  match s.region rec.region, ((c.buf.take c.headLen).drop 1).find? (fun x => x.region = rec.region) with
  | some r, some x =>
    let p := r.place rec.linear true
    let q := p.2.1.place x.linear true
    if r.lost then none else match p.1, q.1 with
      | some j, some k => if j % 2 = 0 && k = j + 1 then some x else none
      | _, _ => none
  | _, _ => none

/-- CAPTURE_RECORD_WRITE (R295, R530): the writer takes the oldest record, with the one that it joins, once the cluster's trigger units have
received every local event on its way (R363); it waits for a channel under repair (R548). -/
def doCaptureRecordWrite (n : Nat) (ue : Bool) (s : State) : State :=
  let c := (s.cl n).cap
  match c.buf with
  | [] => s
  | rec :: rest =>
    let units := (List.range 8).map (8 * n + ·)
    if s.trigEv.any (fun e => e.1 / 8 = n && e.2.1 < 40) ||
        units.any (fun k => (s.trigs.getD k {}).openAt.isSome && s.rf F.CL_TRG_SRC_SRC [k / 8, k % 8] < 2 ^ 40) ||
        (s.region rec.region).any (fun r => s.waits r.chan) then s
    else
      let take (l : List CapRec) : State := s.upCl n (fun k => { k with cap := { k.cap with buf := l, headLen := l.length } })
      match s.joins c rec with
      | none => (take rest).writeRecord n rec false ue
      | some x =>
        let a := match s.region rec.region with
          | some r => devAddr r.chan (r.base + 64 + 32 * (r.place rec.linear true).1.getD 0)
          | none => 0
        (((take (rest.erase x)).setGranule a).writeRecord n rec true ue).writeRecord n x true ue

/-- REGION_HEADER_WRITE (R282): while a burst or an acquisition writes to the region. With `ue` it is a header write of any occasion that
meets an uncorrectable error, which marks the region LOST (R297, R544). It waits for a channel under repair (R548). -/
def doRegionHeaderWrite (id : Nat) (ue : Bool) (t : Nat) (s : State) : State :=
  match s.region id with
  | none => s
  | some r =>
    let active := if r.kind = 3 then s.acqs.any (fun a => a.region = id && a.running) else s.siteRuns r.site
    if r.lost || s.waits r.chan then s
    else if active || ue then (s.at t).writeHeader id ue else s

/-! ### The bitmap combiner (R298-R301, R332, R333) -/

/-- One update of bit `bit` of a region's bit array: merged, taken, queued or dropped; whether it was dropped. -/
def Capture.update (c : Capture) (region bit : Nat) : Capture × Bool :=
  let line := bit / 512
  if c.combiner.any (fun l => l.region = region && l.line = line) then
    ({ c with combiner := c.combiner.map (fun l =>
        if l.region = region && l.line = line then { l with mask := l.mask ||| 2 ^ (bit % 512) } else l) }, false)
  else if c.combiner.length < 64 then
    ({ c with combiner := c.combiner ++ [{ region := region, line := line, mask := 2 ^ (bit % 512) }] }, false)
  else if c.bmQueue.length < 256 then ({ c with bmQueue := c.bmQueue ++ [(region, bit)] }, false)
  else (c, true)

/-- An update of bit `bit` of a region is merged or waiting already. -/
def Capture.holds (c : Capture) (region bit : Nat) : Bool :=
  c.combiner.any (fun l => l.region = region && l.line = bit / 512 && l.mask.testBit (bit % 512)) || c.bmQueue.contains (region, bit)

/-- The update of bit `bit` of a region is taken back: out of the waiting ones, else out of its line, and with its last bit the line. -/
def Capture.unset (c : Capture) (region bit : Nat) : Capture :=
  if c.bmQueue.contains (region, bit) then { c with bmQueue := c.bmQueue.erase (region, bit) }
  else
    let lines := c.combiner.map (fun l =>
      if l.region = region && l.line = bit / 512 && l.mask.testBit (bit % 512) then { l with mask := l.mask - 2 ^ (bit % 512) } else l)
    { c with combiner := lines.filter (fun l => l.mask ≠ 0) }

/-- Waiting updates enter the combiner in order while it can take them. -/
def drainQueue : List (Nat × Nat) → Capture → Capture
  | [], c => c
  | u :: r, c =>
    if c.combiner.length < 64 || c.combiner.any (fun l => l.region = u.1 && l.line = u.2 / 512) then
      drainQueue r (c.update u.1 u.2).1
    else { c with bmQueue := u :: r }

/-- The 64 bytes of a 512-bit mask. -/
def maskBytes (m : Nat) : List Byte := leBytes 64 m

/-- BITMAP_WRITEBACK (R299, R301): line i of the combiner is written back as a read-modify-write OR, or as all ones where its
read meets an uncorrectable error. -/
def doBitmapWriteback (n i : Nat) (ue : Bool) (s : State) : State :=
  match (s.cl n).cap.combiner[i]? with
  | none => s
  | some l =>
    let s0 := s.upCl n (fun c => { c with
      cap := drainQueue c.cap.bmQueue { c.cap with combiner := c.cap.combiner.eraseIdx i, bmQueue := [] } })
    match s.region l.region with
    | none => s0
    | some r =>
      if r.lost then s0
      else if s.waits r.chan then s
      else
        let off := 64 + 64 * l.line
        let a := devAddr r.chan (r.base + off)
        let fails := s.mergeFails a ue
        let old := leNat (s.memRead r.chan (r.base + off) 64)
        let bs := if fails then List.replicate 64 0xFF else maskBytes (old ||| l.mask)
        -- the read meets the error; the line write that follows covers the granule whole (R544)
        let s1 := (if fails then
            (s0.upRegion r.id (fun r => { r with lostCount := satAdd 32 r.lostCount 1 })).upRes r.site (fun x =>
              { x with lost := satAdd 32 x.lost 1 })
          else s0).mergeRead a (0x50 + n) 2 ue
        (s1.memWrite r.chan (r.base + off) bs).mirrorCap r .other off bs

/-! ### Region descriptors (R273-R275) -/

/-- The region a DEFINE_REGION body describes (R273). -/
def regionBody (b : List Byte) : Region :=
  { id := fld b 16 4, site := fld b 20 2, kind := fld b 22 1, append := (fld b 23 1).testBit 0, size := fld b 24 8, chan := 0
    base := 0, pre := fld b 32 4, post := fld b 36 4, trigSel := fld b 40 1, next := fld b 32 4 }

/-- The status of a DEFINE_REGION by its checks (R274, R360); 0 where all pass. -/
def State.regionRefusal (s : State) (b : List Byte) : Nat :=
  let r := regionBody b
  if r.id = 0xFFFFFFFF || s.idUsed r.id || (s.site r.site).isNone || (s.regionOf r.site r.kind).isSome ||
      r.kind = 0 || r.kind > 3 || fld b 23 1 > 1 || r.size % 4096 ≠ 0 || r.size < 4096 || r.size > 0x100000000 || !zeroes b 41 23 ||
      (r.trigSel ≥ 96 && r.trigSel ≠ 0xFF) || r.pre ≥ r.cap || (r.pre ≠ 0 && r.trigSel = 0xFF) ||
      (r.kind = 2 && (r.pre ≠ 0 || r.post ≠ 0 || r.trigSel ≠ 0xFF || r.append)) then St.bad
  else if (r.kind = 2 && s.apgAbsent) || (r.trigSel ≠ 0xFF && s.clGone (r.trigSel / 8)) then St.absent
  else if s.blocked (s.entOf r.site) || (s.site r.site).any (fun x => x.blocked) then St.blocked
  else 0

/-- DEFINE_REGION once no burst of the site runs (R274). -/
def State.defineRegion (s : State) (d : Desc) : State :=
  let st := s.regionRefusal d.bytes
  if st ≠ 0 then s.finish d.sq d.idx st
  else
    let r0 := regionBody d.bytes
    match s.placeWhole r0.size with
    | none => s.complete d.sq d.idx { status := St.denied, reason := 0x0A, rreason := 0x0A }
    | some (m, base) =>
      let r := { r0 with chan := m, base := base }
      let s1 := { s with regions := kSet s.regions r.id r }
      let s2 := (if r.kind = 2 then s1.memClear m base r.size else s1).setGranule (devAddr m base)
      ((s2.writeHeader r.id).placementChanged).complete d.sq d.idx { status := 0, val0 := if r.kind = 2 then 0 else r.cap }

/-- DEFINE_REGION (R274). -/
def doDefineRegion (sq idx : Nat) (s : State) : State :=
  s.withDesc sq idx 0x20 (fun d =>
    let st := s.regionRefusal d.bytes
    if st ≠ 0 then s.finish sq idx st
    else if s.siteRuns (regionBody d.bytes).site then
      s.wait { sq := sq, idx := idx, kind := .regionDefine, ent := some (s.entOf (regionBody d.bytes).site) }
    else s.defineRegion d)

/-- A descriptor that waits for a burst takes effect: the waiting entry is of the kind, and its burst has ended. -/
def State.waited (s : State) (sq idx : Nat) (p : WaitKind → Bool) (f : State → Desc → State) : State :=
  match s.waitOf sq idx, s.desc sq idx with
  | some w, some d =>
    if p w.kind && !(w.ent.bind s.burst).any (fun b => b.running) then f (s.unwait sq idx) d else s
  | _, _ => s

/-- DEFERRED_REGION_DEFINE (R274). -/
def doDeferredRegionDefine (sq idx : Nat) (s : State) : State :=
  s.waited sq idx (fun k => k == .regionDefine) (fun s d => s.defineRegion d)

/-- The status of a descriptor that names a region by its checks (R275); 0 where all pass. -/
def State.regionNamed (s : State) (id : Nat) (form : Bool) : Nat :=
  match s.region id with
  | none => if (s.obj id).isSome then St.bad else St.noObject
  | some r => if !form then St.bad else if r.lost then St.hwFault else 0

/-- Free a region and its ID. -/
def State.freeRegion (s : State) (id : Nat) : State := { s with regions := kDel s.regions id }.placementChanged

/-- Zero a region and reset its header (R275, R277). -/
def State.clearRegion (s : State) (id : Nat) : State := match s.region id with
  | none => s
  | some r => ((s.memClear r.chan r.base r.size).upRegion id Region.blank).writeHeader id

/-- FREE_REGION and CLEAR_REGION: the checks, then the wait for a running burst of the region's site (R275). -/
def regionDesc (op : Nat) (kind : Nat → WaitKind) (act : State → Nat → State) (sq idx : Nat) (s : State) : State :=
  s.withDesc sq idx op (fun d =>
    let id := fld d.bytes 16 4
    let st := s.regionNamed id (zeroes d.bytes 20 44)
    if st ≠ 0 then s.finish sq idx st
    else match s.region id with
      | none => s
      | some r =>
        if s.siteRuns r.site then s.wait { sq := sq, idx := idx, kind := kind id, ent := some (s.entOf r.site) }
        else (act s id).finish sq idx St.ok)

/-- FREE_REGION (R275). -/
def doFreeRegion (sq idx : Nat) (s : State) : State := regionDesc 0x21 .regionFree State.freeRegion sq idx s

/-- CLEAR_REGION (R275). -/
def doClearRegion (sq idx : Nat) (s : State) : State := regionDesc 0x22 .regionClear State.clearRegion sq idx s

/-- A waiting FREE_REGION or CLEAR_REGION takes effect; a region freed meanwhile is not in use (R275). -/
def regionWaited (op : Nat) (act : State → Nat → State) (sq idx : Nat) (s : State) : State :=
  s.waited sq idx (fun k => match k with
    | .regionFree _ => op = 0x21
    | .regionClear _ => op = 0x22
    | _ => false) (fun s d =>
      let id := fld d.bytes 16 4
      let st := s.regionNamed id true
      if st ≠ 0 then s.finish sq idx st else (act s id).finish sq idx St.ok)

/-- DEFERRED_REGION_FREE (R275). -/
def doDeferredRegionFree (sq idx : Nat) (s : State) : State := regionWaited 0x21 State.freeRegion sq idx s

/-- DEFERRED_REGION_CLEAR (R275). -/
def doDeferredRegionClear (sq idx : Nat) (s : State) : State := regionWaited 0x22 State.clearRegion sq idx s

/-- READ_REGION (R275, R282); it waits for a channel under repair (R548). -/
def doReadRegion (sq idx : Nat) (s : State) : State :=
  s.withDesc sq idx 0x23 (fun d =>
    let b := d.bytes
    let off := fld b 24 8
    let len := fld b 32 4
    let dst := fld b 40 8
    let size := match s.region (fld b 16 4) with
      | some r => r.size
      | none => 0
    let st := s.regionNamed (fld b 16 4) (off % 64 = 0 && len % 64 = 0 && dst % 64 = 0 && off + len ≤ size && zeroes b 20 4 &&
      zeroes b 36 4 && zeroes b 48 16)
    if st ≠ 0 then s.finish sq idx st
    else match s.region (fld b 16 4) with
      | none => s
      | some r =>
        let a := devAddr r.chan (r.base + off)
        if s.waits r.chan then s else
        let (s0, bad) := s.readErrors a len 0x41
        let bs := (s.memRead r.chan (r.base + off) len).zipIdx.map (fun b => if bad.contains ((a + b.2) / 64 * 64) then 0xFF else b.1)
        let (s1, ok) := s0.hostWrite sq dst bs
        if !ok then s1.writeFailed sq idx else if bad.isEmpty then s1.finish sq idx St.ok else s1.finish sq idx St.memUe)

/-! ### Per-site results (R271, R272) -/

/-- A vector number, or none as 48 ones (R272). -/
def vecOr (o : Option Nat) : Nat := o.getD 0xFFFFFFFFFFFF

/-- A lockstep member is masked now. -/
def State.masked (s : State) (x : Site) : Bool := match x.group with
  | none => false
  | some g => match s.memberIdx g x.id, s.entSlices (.group g) with
    | some i, k :: _ => (s.siteMask k).testBit i
    | _, _ => false

/-- The result of a site: its header and its per-channel counts (R272). -/
def State.siteResult (s : State) (x : Site) : List Byte :=
  let r := s.resOf x.id
  let c := r.counts
  let blocked := s.blocked (.site x.id)
  let lead := x.multi && (!x.xchip || x.leader = s.pos)
  let member := (x.group.bind (fun g => s.memberIdx g x.id)).getD 0xFF
  padTo (leBytes 2 x.id ++ leBytes 1 member ++
    leBytes 1 (b2n blocked + 2 * b2n (s.masked x) + 4 * b2n lead + 8 * b2n r.restored) ++
    leBytes 1 (if x.group.isSome && x.blocked then St.blocked else r.status) ++ leBytes 1 r.qual ++ leBytes 2 x.chans.length ++
    leBytes 4 r.obj ++ leBytes 4 r.records ++ leBytes 8 c.failVecs ++ leBytes 8 (vecOr c.first) ++ leBytes 8 (vecOr c.last) ++
    leBytes 8 (vecOr r.maskVec) ++ leBytes 8 (vecOr r.redFirst) ++ leBytes 8 (vecOr r.redLast) ++
    (if lead then leBytes 8 c.xFail ++ leBytes 8 (vecOr c.xFirst) ++ leBytes 8 (vecOr c.xLast) else zeros 24) ++
    leBytes 4 r.lost ++ leBytes 4 r.postCount ++ leBytes 4 r.bmDropped ++ leBytes 4 r.rawDropped ++ leBytes 8 r.exec) 128 ++
  (List.range x.chans.length).flatMap (fun i => leBytes 4 (c.ch.getD i 0))

/-- READ_SITE_RESULT (R271, R272). -/
def doReadSiteResult (sq idx : Nat) (s : State) : State :=
  s.withDesc sq idx 0x24 (fun d =>
    let b := d.bytes
    let len := fld b 32 4
    match s.site (fld b 16 2) with
    | none => s.finish sq idx St.bad
    | some x =>
      if fld b 24 8 % 64 ≠ 0 || len % 64 ≠ 0 || len < 128 || !zeroes b 18 6 || !zeroes b 36 28 then s.finish sq idx St.bad
      else
        let n := min x.chans.length ((len - 128) / 4)
        let bytes := if s.pair.role = 2 then (kGet s.pair.results x.id).getD (s.siteResult x) else s.siteResult x
        let (s1, ok) := s.hostWrite sq (fld b 24 8) (bytes.take (128 + 4 * n))
        if ok then s1.complete sq idx { status := if s.blocked (.site x.id) then St.blocked else St.ok
                                        val0 := fld bytes 16 8, val1 := n }
        else s1.writeFailed sq idx)

/-! ### Commands -/

/-- DEFINE_REGION. -/
def execDefineRegion (sq idx : Nat) (s : State) : Host.Outcome State Fault Refusal := .next (doDefineRegion sq idx s)
/-- DEFERRED_REGION_DEFINE. -/
def execDeferredRegionDefine (sq idx : Nat) (s : State) : Host.Outcome State Fault Refusal :=
  .next (doDeferredRegionDefine sq idx s)
/-- FREE_REGION. -/
def execFreeRegion (sq idx : Nat) (s : State) : Host.Outcome State Fault Refusal := .next (doFreeRegion sq idx s)
/-- DEFERRED_REGION_FREE. -/
def execDeferredRegionFree (sq idx : Nat) (s : State) : Host.Outcome State Fault Refusal := .next (doDeferredRegionFree sq idx s)
/-- CLEAR_REGION. -/
def execClearRegion (sq idx : Nat) (s : State) : Host.Outcome State Fault Refusal := .next (doClearRegion sq idx s)
/-- DEFERRED_REGION_CLEAR. -/
def execDeferredRegionClear (sq idx : Nat) (s : State) : Host.Outcome State Fault Refusal :=
  .next (doDeferredRegionClear sq idx s)
/-- READ_REGION. -/
def execReadRegion (sq idx : Nat) (s : State) : Host.Outcome State Fault Refusal := .next (doReadRegion sq idx s)
/-- READ_SITE_RESULT. -/
def execReadSiteResult (sq idx : Nat) (s : State) : Host.Outcome State Fault Refusal := .next (doReadSiteResult sq idx s)
/-- CAPTURE_RECORD_WRITE. -/
def execCaptureRecordWrite (n : Nat) (ue : Bool) (s : State) : Host.Outcome State Fault Refusal :=
  .next (doCaptureRecordWrite n ue s)
/-- REGION_HEADER_WRITE. -/
def execRegionHeaderWrite (id : Nat) (ue : Bool) (t : Nat) (s : State) : Host.Outcome State Fault Refusal :=
  .next (doRegionHeaderWrite id ue t s)
/-- BITMAP_WRITEBACK. -/
def execBitmapWriteback (n i : Nat) (ue : Bool) (s : State) : Host.Outcome State Fault Refusal :=
  .next (doBitmapWriteback n i ue s)

end Sys2Proof.Machine
end

