-- ==== Sys2Proof/Machine/Flags.lean ====
section
/-! DEFINITION. The flag computations: what a compare makes of its samples (R265-R267), the site-fail condition (R77), the
counters (R268-R270), the sticky event flags of timing, compare and APG, and the events that go to trigger units (R361). -/

namespace Sys2Proof.Machine

/-! ### Sticky flags -/

/-- Set a sticky flag bit and its channel's bit: TIM_EVT and CMP_EVT (R261, R311). -/
def State.stick (s : State) (flag chan : RF) (n c : Nat) : State := (s.setRf flag [n] 1).orRf chan [n] (2 ^ c)

/-- Set a bit of APG_k_EVT (R339): 0 UNMAPPED, 1 NOFLAG, 2 BM_RANGE, 3 BM_NODATA. -/
def State.apgEvt (s : State) (k bit : Nat) : State :=
  let off := F.APG_EVT_UNMAPPED.off [k]
  s.setReg off (fset (s.reg off) bit 1 1)

/-- An event of source `bit` of cluster n leaves for the units that watch it (R361, R363). -/
def State.raise (s : State) (n bit stamp : Nat) : State :=
  let us := (List.range 8).filter (fun u => (s.rf F.CL_TRG_SRC_SRC [n, u]).testBit bit)
  { s with trigEv := s.trigEv ++ us.map (fun u => (8 * n + u, bit, stamp)) }

/-! ### One beat -/

/-- What a beat asks of its samples (R265). -/
inductive Want where
  /-- takes no samples -/
  | skip
  /-- C: samples go to a raw record -/
  | raw
  /-- passes when every sample reads (CMPH, CMPL) so -/
  | read (h l : Bool)
  deriving DecidableEq, Repr

/-- What a pin state asks (R265); `bit` is the APG bit of B, `pair` the expect pair of F. -/
def wantOf (code : Nat) (bit : Option Bool) (pair : Nat) : Want :=
  match code with
  | 0x2 => .read false true
  | 0x3 => .read true false
  | 0x5 | 0x6 => .read false false
  | 0x9 => .raw
  | 0xC => match bit with
    | some b => .read b (!b)
    | none => .skip
  | 0xE => if pair = 0 then .read false true else if pair = 1 then .read true false else .skip
  | _ => .skip

/-- The samples fail a beat under a strobe mode: 0 EDGE, 1 DUAL, 2 WINDOW (R266, R267). -/
def beatFails (mode : Nat) (w : Want) (code : Nat) (both : Bool) : Bool :=
  match w with
  | .read h l =>
    let x := b2n h + 2 * b2n l
    if mode = 0 then code % 4 ≠ x
    else if mode = 1 then code % 4 ≠ x || code / 4 % 4 ≠ x
    else both || code % 4 ≠ b2n h || code / 4 % 4 ≠ b2n l
  | _ => false

/-- A sample reads (1, 1) (R267). -/
def beatBoth (mode code : Nat) (both : Bool) : Bool :=
  if mode = 0 then code % 4 = 3 else if mode = 1 then code % 4 = 3 || code / 4 % 4 = 3 else both

/-- The SAMPLES nibble of a channel (R285), from the beats that took samples: want, code. -/
def nibbleOf (mux mode : Nat) (l : List (Want × Nat × Bool)) : Nat :=
  let at_ (i : Nat) : Nat := match l[i]? with
    | some (.skip, _, _) => 0
    | some (_, c, _) => c
    | none => 0
  if mux = 1 then (if mode = 0 then at_ 0 % 4 else at_ 0 % 16)
  else if mux = 2 then at_ 0 % 4 + 4 * (at_ 1 % 4)
  else maskOf ((List.range 4).filter (fun i => (l[i]?).any (fun x => beatFails 0 x.1 x.2.1 x.2.2)))

/-! ### One site on one vector -/

/-- What a vector did to a site or member. -/
structure Verdict where
  site : Nat
  member : Nat := 0xFF
  masked : Bool := false
  /-- the site failed; with `flags` 1 by a match timeout (R269) -/
  fail : Bool := false
  flags : Nat := 0
  chfail : Nat := 0
  beats : Nat := 0
  samples : Nat := 0
  cmask : Nat := 0
  rawSamples : Nat := 0
  deriving DecidableEq, Repr

/-- The verdict of a site that a match timeout charges with a fail: no channel of it failed (R269). -/
def Verdict.timedOut (d : Verdict) (samples : Nat) : Verdict :=
  { d with fail := true, flags := 1, chfail := 0, beats := 0, samples := samples }

/-- The site-fail condition of a slice: some unmasked member failed (R77, R78). -/
def siteFail (vs : List Verdict) : Bool := vs.any (fun v => v.fail && !v.masked)

/-- A fail vector in a counter set: count, first and last (R268). -/
def Counts.hit (c : Counts) (v : Nat) : Counts :=
  { c with failVecs := satAdd 48 c.failVecs 1, first := some (min v (c.first.getD v)), last := some (max v (c.last.getD v)) }

/-- A fail vector of the site-fail condition over all parts (R270). -/
def Counts.xhit (c : Counts) (v : Nat) : Counts :=
  { c with xFail := satAdd 48 c.xFail 1, xFirst := some (min v (c.xFirst.getD v)), xLast := some (max v (c.xLast.getD v)) }

/-- The site-fail condition held at vector v on some part: the accumulator and, on the leading chip, the X counters see it
(R152, R270). -/
def State.fallIn (s : State) (e : Ent) (v : Nat) : State :=
  match s.burst e with
  | none => s
  | some b =>
    if winGet b.wins v then s
    else
      let s1 := s.upBurst e (fun b => { b with wins := winAdd b.wins v })
      match s.entSites e with
      | x :: _ => if x.multi && s.leads e then s1.upRes x.id (fun r => { r with counts := r.counts.xhit v }) else s1
      | [] => s1

/-- The local channels' counts of a site in CL_n_CMP_CHCNT. -/
def State.setChCounts (s : State) (x : Site) (l : List Nat) : State :=
  x.chans.zipIdx.foldl (fun s p => s.setRf F.CL_CMP_CHCNT_COUNT [p.1 / 16, p.1 % 16] (l.getD p.2 0)) s

/-- The slice counters of R309 and R310 take values. -/
def State.setSliceCounts (s : State) (g fails : Nat) (first last : Option Nat) : State :=
  let i := [g / 4, g % 4]
  ((((s.setRf F.CL_CMP_FAIL_FAIL_VECS i fails).setRf F.CL_CMP_FIRST_VEC i (first.getD 0)).setRf F.CL_CMP_FIRST_VALID i
    (b2n first.isSome)).setRf F.CL_CMP_LAST_VEC i (last.getD 0)).setRf F.CL_CMP_LAST_VALID i (b2n last.isSome)

/-- The slice counters of R309 and R310 of slice g: count, first and last. -/
def State.sliceCounts (s : State) (g : Nat) : Nat × Option Nat × Option Nat :=
  let i := [g / 4, g % 4]
  (s.rf F.CL_CMP_FAIL_FAIL_VECS i, if s.rb F.CL_CMP_FIRST_VALID i then some (s.rf F.CL_CMP_FIRST_VEC i) else none,
    if s.rb F.CL_CMP_LAST_VALID i then some (s.rf F.CL_CMP_LAST_VEC i) else none)

/-- The slice counters of R309 and R310 take a fail vector. -/
def State.sliceHit (s : State) (g v : Nat) : State :=
  let i := [g / 4, g % 4]
  let first := if s.rb F.CL_CMP_FIRST_VALID i then min v (s.rf F.CL_CMP_FIRST_VEC i) else v
  let last := if s.rb F.CL_CMP_LAST_VALID i then max v (s.rf F.CL_CMP_LAST_VEC i) else v
  ((((s.incRf F.CL_CMP_FAIL_FAIL_VECS i).setRf F.CL_CMP_FIRST_VEC i first).setRf F.CL_CMP_FIRST_VALID i 1).setRf
    F.CL_CMP_LAST_VEC i last).setRf F.CL_CMP_LAST_VALID i 1

/-- The counters of one site at vector v (R268, R270); a multi-slice site counts a vector once on this chip. -/
def State.countSite (s : State) (e : Ent) (n v : Nat) (d : Verdict) : State :=
  if !d.fail then s
  else
    let multi := (s.site d.site).any Site.multi
    let again := multi && (s.burst e).any (fun b => winGet b.own v)
    let s1 := if again then s else s.upRes d.site (fun r => { r with counts := r.counts.hit v })
    let s2 := if multi then s1.upBurst e (fun b => { b with own := winAdd b.own v }) else s1
    let chans := match s.site d.site with
      | some x => x.chans
      | none => []
    (bitList 16 d.chfail).foldl (fun s c =>
      (s.incRf F.CL_CMP_CHCNT_COUNT [n, c]).upRes d.site (fun r => { r with counts := { r.counts with
        ch := (padList r.counts.ch chans.length).modify (chans.idxOf (16 * n + c)) (fun k => satAdd 32 k 1) } })) s2
where
  /-- a list of n counts -/
  padList (l : List Nat) (n : Nat) : List Nat := (l ++ List.replicate (n - l.length) 0).take n

/-- MASK_FIRST: the member's first fail sets its mask bit, which applies from the next vector (R78). -/
def State.maskFirst (s : State) (g v : Nat) (d : Verdict) : State :=
  match s.site d.site with
  | none => s
  | some x =>
    if d.fail && x.maskFirst && x.group.isSome && !d.masked && (s.resOf d.site).counts.failVecs = 1 then
      (s.setSiteMask g (s.siteMask g ||| 2 ^ d.member)).maskFrom d.site (v + 1)
    else s

/-- The counters and the branch-fail accumulator take a vector's verdicts (R152, R268). -/
def State.countVector (s : State) (g : Nat) (e : Ent) (v : Nat) (vs : List Verdict) : State :=
  let s1 := vs.foldl (fun s d => s.countSite e (g / 4) v d) s
  let s2 := if siteFail vs then (s1.sliceHit g v).fallIn e v else s1
  vs.foldl (fun s d => s.maskFirst g v d) s2

end Sys2Proof.Machine
end

