-- ==== Sys2Proof/Machine/Capture.lean ====
section
/-! DEFINITION. How a slice makes capture records (08_compare_and_fail_capture.md, R283-R296, R303, R306): the record layouts, the
budget, summary mode and its ranges, and the bitmap updates of failing B beats (R298-R300, R332, R333). -/

namespace Sys2Proof.Machine

/-! ### Records -/

/-- Bytes 0 to 11 of a record (R283). -/
def recHead (typ flags site vec member n : Nat) : List Byte :=
  leBytes 1 typ ++ leBytes 1 flags ++ leBytes 2 site ++ leBytes 6 vec ++ leBytes 1 member ++ leBytes 1 n

/-- A FAIL record (R284). -/
def failRec (n v tset t : Nat) (d : Verdict) : List Byte :=
  recHead 1 d.flags d.site v d.member n ++ leBytes 2 d.chfail ++ leBytes 1 d.beats ++ leBytes 1 tset ++ leBytes 8 (t / 2000) ++
    leBytes 8 d.samples

/-- A RAW record (R287). -/
def rawRec (n v t : Nat) (d : Verdict) : List Byte :=
  recHead 3 0 d.site v d.member n ++ leBytes 2 d.cmask ++ zeros 2 ++ leBytes 8 (t / 2000) ++ leBytes 8 d.rawSamples

/-- A MODE record (R288). -/
def modeRec (n v t site member mode reason : Nat) : List Byte :=
  recHead 4 0 site v member n ++ leBytes 1 mode ++ leBytes 1 reason ++ zeros 2 ++ leBytes 8 (t / 2000) ++ zeros 8

/-- A REPLAY record (R289). -/
def replayRec (n v t site member rp : Nat) : List Byte :=
  recHead 5 0 site v member n ++ leBytes 2 rp ++ zeros 2 ++ leBytes 8 (t / 2000) ++ zeros 8

/-- A SUMMARY record (R286). -/
def summaryRec (n flags vbase member shift : Nat) (r : SumRange) : List Byte :=
  recHead 2 flags r.site vbase member n ++ leBytes 4 r.fails ++ leBytes 6 r.first ++ leBytes 6 r.last ++ leBytes 2 r.chfail ++
    leBytes 1 shift ++ zeros 1

/-! ### The slice's capture state -/

/-- Capture metering of slice g. -/
def State.cap (s : State) (g : Nat) : CapSlice := (s.cl (g / 4)).capS.getD (g % 4) {}

/-- The state with it changed. -/
def State.upCap (s : State) (g : Nat) (f : CapSlice → CapSlice) : State :=
  s.upCl (g / 4) (fun c => { c with capS := c.capS.modify (g % 4) f })

/-- The sites of an entity with a FAIL region, in member order. -/
def State.failSites (s : State) (e : Ent) : List Nat :=
  (s.entSites e).filterMap (fun x => if (s.regionOf x.id 1).isSome then some x.id else none)

/-- The member index a record carries. -/
def State.recMember (s : State) (site : Nat) : Nat :=
  ((s.site site).bind (fun x => x.group.bind (fun g => s.memberIdx g site))).getD 0xFF

/-- k of R291: slices of cluster n that run a burst writing records. -/
def State.capK (s : State) (n : Nat) : Nat :=
  ((List.range 4).filter (fun i =>
    let z := s.sl (4 * n + i)
    (z.seq.state = 2 || z.seq.state = 3) && z.ent.any (fun e => !(s.failSites e).isEmpty))).length

/-- The credit of slice g brought to time t, in 0.5 ps (R291). -/
def State.growCredit (s : State) (g t : Nat) : State :=
  let b := s.rf F.CL_CAP_CTL_BUDGET [g / 4]
  let k := max 1 (s.capK (g / 4))
  s.upCap g (fun c => { c with
    credit := min (8192 * 24000000) (c.credit + (192 * b / k * (t - c.creditT) : Nat)), creditT := max t c.creditT })

/-- k is about to change: every slice of cluster n brings its credit to time t at the share so far (R291). -/
def State.settleCredit (s : State) (n t : Nat) : State := (List.range 4).foldl (fun s i => s.growCredit (4 * n + i) t) s

/-- n records are paid; the floor is -8,192 bytes (R291). -/
def State.pay (s : State) (g n : Nat) : State :=
  s.upCap g (fun c => { c with credit := max (-(8192 * 24000000)) (c.credit - (n * 32 * 24000000 : Nat)) })

/-- n records can be paid. -/
def State.canPay (s : State) (g n : Nat) : Bool := ((n * 32 * 24000000 : Nat) : Int) ≤ (s.cap g).credit

/-- A record of vector v enters the capture buffer, or is lost at a full one; with the 896th every slice in detail mode is to enter summary
mode (R295). -/
def State.pushRec (s : State) (g : Nat) (e : Ent) (site v : Nat) (bs : List Byte) : State :=
  match s.regionOf site 1 with
  | none => s
  | some r =>
    let n := g / 4
    if (s.cl n).cap.buf.length ≥ 1024 then
      ((s.loseRecord site r.id).incRf F.CL_CAP_STAT_DROPPED [n]).reduce g e [site] v
    else
      let rec' : CapRec := { slice := g, vec := v, site := site, region := r.id, linear := r.linear, bytes := bs }
      let full : Bool := (s.cl n).cap.buf.length + 1 = 896
      s.upCl n (fun c => { c with
        cap := { c.cap with buf := c.cap.buf ++ [rec'], headLen := max 1 c.cap.headLen }
        capS := if full then c.capS.map (fun k => { k with crowded := k.crowded || !k.summary }) else c.capS })

/-- A member that its own first fail has masked has no records any more at vector v (R305). -/
def State.silent (s : State) (site v : Nat) : Bool :=
  (s.site site).any (fun x => x.maskFirst && s.masked x) && (s.resOf site).maskVec.any (fun u => u ≤ v)

/-- A MODE record for every site of the slice (R288), made at vector `now`, written and paid. -/
def State.writeMode (s : State) (g : Nat) (e : Ent) (now v t mode reason : Nat) : State :=
  ((s.failSites e).filter (fun i => !s.silent i v)).foldl (fun s i =>
    (s.pay g 1).pushRec g e i now (modeRec (g / 4) v (s.scaled t) i (s.recMember i) mode reason)) s

/-- Summary mode begins at vector v (R292, R295). -/
def State.enterSummary (s : State) (g : Nat) (e : Ent) (v t reason : Nat) : State :=
  (s.upCap g (fun c => { c with summary := true, crowded := false, byBuffer := reason = 2, rangeStart := v, ranges := [] })).writeMode g e v v t 1 reason

/-- Open covered ranges end at vector `last`; each with a fail is written and paid, and a new range starts after it
(R286, R293, R303). -/
def State.closeRanges (s : State) (g : Nat) (e : Ent) (last : Nat) : State :=
  let c := s.cap g
  let size := 2 ^ c.shift
  let flags := (if c.rangeStart % size = 0 then 0 else 1) + (if (last + 1) % size = 0 then 0 else 2)
  let s1 := (s.failSites e).foldl (fun s i =>
    match c.ranges.find? (fun r => r.site = i) with
    | some r => (s.pay g 1).pushRec g e i last (summaryRec (g / 4) flags c.rangeStart (s.recMember i) c.shift r)
    | none => s) s
  s1.upCap g (fun c => { c with rangeStart := last + 1, ranges := [] })

/-- A fail of a site in the open range. -/
def addRange (l : List SumRange) (site v chfail : Nat) : List SumRange :=
  if l.any (fun r => r.site = site) then
    l.map (fun r => if r.site = site then { r with fails := r.fails + 1, last := v, chfail := r.chfail ||| chfail } else r)
  else l ++ [{ site := site, fails := 1, first := v, last := v, chfail := chfail }]

/-- RAW records that are not written (R292, R293). -/
def State.dropRaws (s : State) (g : Nat) (e : Ent) (v : Nat) (raws : List Verdict) : State :=
  raws.foldl (fun s d => (s.upRes d.site (fun r => { r with rawDropped := satAdd 32 r.rawDropped 1 })).reduce g e [d.site] v) s

/-- What capture does with a vector: `vs` its verdicts, `t` its start, `tEnd` its end, 0.5 ps (R284-R295). -/
def State.captureVector (s : State) (g : Nat) (e : Ent) (v tset t tEnd : Nat) (vs : List Verdict) : State :=
  let sites := s.failSites e
  if sites.isEmpty then s
  else
    let n := g / 4
    let fails := vs.filter (fun d => d.fail && !d.masked && sites.contains d.site)
    let raws := vs.filter (fun d => d.cmask ≠ 0 && sites.contains d.site && !s.silent d.site v)
    let size := 2 ^ (s.cap g).shift
    let s1 := s.growCredit g t
    let s2 := s1.upCap g (fun c =>
      if v % size = 0 then { c with due := fails.length, intT := t } else { c with due := c.due + fails.length })
    let s3 :=
      if (s2.cap g).summary then s2
      else if (s2.cap g).crowded then s2.enterSummary g e v t 2
      else if !s2.canPay g fails.length then s2.enterSummary g e v t 1
      else
        let whole := s2.canPay g (fails.length + raws.length)
        let s4 := s2.pay g (fails.length + if whole then raws.length else 0)
        let s5 := vs.foldl (fun s d =>
          let s := if fails.contains d then s.pushRec g e d.site v (failRec n v tset (s.scaled t) d) else s
          if whole && raws.contains d then s.pushRec g e d.site v (rawRec n v (s.scaled t) d) else s) s4
        if whole then s5 else s5.dropRaws g e v raws
    if !(s3.cap g).summary then s3
    else
      let s6 := ((s3.upCap g (fun c => { c with ranges := fails.foldl (fun l d => addRange l d.site v d.chfail) c.ranges })).reduce
        g e sites v).dropRaws g e v raws
      if (v + 1) % size ≠ 0 then s6
      else
        let s7 := s6.growCredit g tEnd
        let c := s7.cap g
        let b := s7.rf F.CL_CAP_CTL_BUDGET [n]
        let back := c.credit = 8192 * 24000000 && c.due * 8000000 * max 1 (s7.capK n) ≤ b * (tEnd - c.intT) &&
          (!c.byBuffer || (s7.cl n).cap.buf.length < 256)
        let s8 := s7.closeRanges g e v
        if back then (s8.upCap g (fun c => { c with summary := false })).writeMode g e v (v + 1) tEnd 0 3 else s8

/-- A fail that a match timeout charges once its vector v has started (R269): a FAIL record in detail mode, else a fail of the open range. -/
def State.captureLate (s : State) (g : Nat) (e : Ent) (v tset t : Nat) (vs : List Verdict) : State :=
  let fails := vs.filter (fun d => !d.masked && (s.failSites e).contains d.site)
  let s1 := s.upCap g (fun c => { c with due := c.due + fails.length })
  if fails.isEmpty then s
  else if (s.cap g).summary then
    (s1.upCap g (fun c => { c with ranges := fails.foldl (fun l d => addRange l d.site v d.chfail) c.ranges })).reduce g e (s.failSites e) v
  else if !s1.canPay g fails.length then s1.enterSummary g e v t 1
  else fails.foldl (fun s d => s.pushRec g e d.site v (failRec (g / 4) v tset (s.scaled t) d)) (s1.pay g fails.length)

/-- The burst has ended on slice g before vector v: open ranges end at the last applied vector (R306). -/
def State.captureEnd (s : State) (g : Nat) (e : Ent) (v : Nat) : State :=
  let c := s.cap g
  let s1 := if c.summary && c.rangeStart < v then s.closeRanges g e (v - 1) else s
  s1.upCap g (fun c => { c with summary := false, ranges := [] })

/-! ### Bitmap updates (R298-R300, R332, R333) -/

/-- One failing B beat of a site: `idx` the output bit used, `word` the vector's output word, `k` the unit. -/
def State.bitmapBeat (s : State) (g : Nat) (e : Ent) (site k idx word v : Nat) : State :=
  if idx < 48 || 79 < idx then s.apgEvt k 3
  else match s.regionOf site 2 with
    | none => s
    | some r =>
      let xp := bitsOf word 0 24
      let yp := bitsOf word 24 24
      let io := idx - 48
      let bit := yp * 2 ^ (r.bmX + r.bmIo) + xp * 2 ^ r.bmIo + io
      let drop (s : State) : State :=
        ((s.upRegion r.id (fun r => { r with dropped := satAdd 32 r.dropped 1 })).upRes site (fun x =>
          { x with bmDropped := satAdd 32 x.bmDropped 1 })).reduce g e [site] v
      if 2 ^ r.bmX ≤ xp || 2 ^ r.bmY ≤ yp || 2 ^ r.bmIo ≤ io || r.size ≤ 64 + bit / 8 then drop (s.apgEvt k 2)
      else
        let (c, full) := (s.cl (g / 4)).cap.update r.id bit
        if full then drop s
        else
          let s1 := (s.upCl (g / 4) (fun x => { x with cap := c })).upRegion r.id (fun r => { r with updates := satAdd 64 r.updates 1 })
          if (s.cl (g / 4)).cap.holds r.id bit then s1
          else s1.upSeq g (fun q => { q with undo := q.undo.map (fun u => { u with bits := u.bits ++ [(r.id, bit)] }) })

/-! ### How a trigger reaches a region (R280, R355, R360, R365) -/

/-- The vector whose interval holds time t, of vectors that end at `stop`, 0.5 ps units (R280, R356, R367). -/
def segAt (stop : Nat) (segs : List (Nat × Nat × Nat)) (t : Nat) : Option Nat :=
  if stop ≤ t then none
  else (segs.find? (fun k => k.2.1 ≤ t)).map (fun k => k.1 + (t - k.2.1) / max 1 k.2.2)

/-- The vector of the burst on slice g whose interval holds time t, 0.5 ps; of an earlier burst there, where t lies in it. -/
def State.vecAt (s : State) (g t : Nat) : Option Nat :=
  let x := s.sl g
  ((x.seq.time, x.seq.segs) :: x.past).findSome? (fun p => segAt p.1 p.2 t)

/-- The slice that a region's vectors are counted on: the first of its site. -/
def State.regionSlice (s : State) (r : Region) : Option Nat := (s.entSlices (s.entOf r.site)).head?

/-- A firing reaches a region at time t, 0.5 ps: the pre-trigger phase ends, and the final stamp is still to come (R280, R365). -/
def State.tellRegion (s : State) (r : Region) (t : Nat) : State :=
  let next := (s.regionSlice r).elim 0 (fun g => (s.sl g).seq.next)
  s.upRegion r.id (fun r => { r with state := 2, linear := true, fireAt := none, toldAt := some t, awaits := true, postVec := next })

/-- The first byte of a record that says at or after which vector it lies. -/
def recVec (bs : List Byte) : Nat := fld bs 4 6

/-- TRIG of a buffered block whose intervals hold the stamp (R356). -/
def SBlk.mark (b : SBlk) (id t0 : Nat) : SBlk :=
  if b.region = id && b.t0 ≤ t0 && t0 < b.t1 then { b with bytes := setFld b.bytes 4 1 (fld b.bytes 4 1 ||| 16) } else b

/-- A region gets the final stamp and the record of its trigger (R280, R354, R355, R365). With `near`, a local firing of its own cluster,
the records still in that cluster's buffer move to the linear area from TRIG_VEC on. -/
def State.stampRegion (s : State) (r : Region) (near : Bool) (t0 : Nat) (rec : List Byte) : State :=
  let v := (s.regionSlice r).bind (fun g => s.vecAt g t0)
  let near := near && r.kind ≠ 3
  let tv := if r.kind = 3 then vecOr v else v.getD 0
  let s1 := s.upRegion r.id (fun r => { r with
    trigVec := tv, trigDtime := s.scaled t0 / 2000, postVec := if near then tv else r.postVec, awaits := false, pend := none, stamp := some t0, trigRec := rec })
  let s2 := if near then
      s1.upCl (s.regionCl r) (fun c => { c with cap := { c.cap with buf := c.cap.buf.map (fun x =>
        if x.region = r.id && tv ≤ recVec x.bytes then { x with linear := true } else x) } })
    else s1
  { s2 with sbufs := s2.sbufs.map (List.map (fun b : SBlk => b.mark r.id t0)) }.endHeader r.id

/-- Firings from other clusters that have reached the SAMPLE regions, or the others, of some sites by time t, 0.5 ps (R360). -/
def State.deliverDue (s : State) (sample : Bool) (sites : List Nat) (t : Nat) : State :=
  ((s.regions.map (·.2)).filter (fun r => sites.contains r.site && (r.kind == 3) == sample && r.fireAt.any (fun f => f ≤ t))).foldl (fun s r =>
    let s1 := s.tellRegion r (r.fireAt.getD t)
    match r.pend with
    | some p => s1.stampRegion r false p.1 p.2
    | none => s1) s

/-- Nothing more is recorded in those regions: a firing still on its way changes only their headers. -/
def State.deliverRest (s : State) (sample : Bool) (sites : List Nat) : State :=
  s.deliverDue sample sites ((s.regions.filterMap (fun p => p.2.fireAt)).foldl max 0)

end Sys2Proof.Machine
end

