-- ==== Sys2Proof/Machine/Bridle.lean ====
section
/-! DEFINITION. Vectors at the Bridles: what a vector asks of each channel (R115, R231, R327, R328), the run-time checks found at
it (R128, R148-R151, R157, R168), its drive, compare, capture and marks (R161, R223-R237, R264-R303), and how a burst ends on a
slice (R164-R166, R585). -/

namespace Sys2Proof.Machine

/-! ### Channels and pin states -/

/-- A carried pin: local channel, pin, site. -/
structure PinCh where
  c : Nat
  p : Nat
  site : Nat
  deriving DecidableEq, Repr

/-- The channels that a burst of an entity uses in cluster n (R70, R76, R89). -/
def State.chanPins (s : State) (e : Ent) (n : Nat) : List PinCh :=
  ((s.entSites e).filter (fun x => !x.blocked)).flatMap (fun x =>
    (x.chans.zipIdx.filter (fun k => k.1 / 16 = n)).map (fun k => { c := k.1 % 16, p := x.pinBase + k.2, site := x.id }))

/-- The pin state of pin p on each beat of a run's next vector; a pad vector carries K (R146). -/
def Cx.codes (c : Cx) (r : Run) (p : Nat) : List Nat :=
  if r.pad then List.replicate r.mux 8
  else (List.range r.mux).map (fun b => match lineWord c.rd c.h (p / 4) r.line b with
    | .ok w => nibble w.val p
    | .error _ => 4)

/-- Drive class: 0, 1, K, T, A, E (R231). -/
def isDrive (k : Nat) : Bool := k = 0 || k = 1 || k = 8 || k = 0xA || k = 0xB || k = 0xD

/-- A pin's states break R150 or R151 under a multiplex. -/
def muxBad (mux : Nat) (ks : List Nat) : Bool :=
  if mux = 1 then false
  else if mux = 2 then ks.any (fun k => k = 9)
  else ks.any (fun k => k = 5 || k = 6 || k = 9 || k = 0xB || k = 0xC) ||
    !(ks.all isDrive || ks.all (fun k => k = 7) || ks.all (fun k => k = 2 || k = 3 || k = 4 || k = 0xE))

/-- Positions of source bits or expect pairs that a pin's beats take from its scan stream: stream, bit of each such beat. -/
def Cx.scanAt (c : Cx) (q : Seq) (p kind : Nat) (ks : List Nat) : Option (Nat × List (Nat × Nat)) :=
  let code := if kind = 0 then 0xD else 0xE
  let w := kind + 1
  let beats := (List.range ks.length).filter (fun b => ks.getD b 0 = code)
  if beats.isEmpty then none
  else (scanIdx c.rd c.h p kind).map (fun i => (i, beats.zipIdx.map (fun b => (b.1, q.scan.getD i 0 + w * b.2))))

/-- Scan positions after a vector (R115). -/
def Cx.scanNext (c : Cx) (q : Seq) (r : Run) (pins : List Nat) : List Nat :=
  pins.foldl (fun l p => [0, 1].foldl (fun l kind =>
    match c.scanAt q p kind (c.codes r p) with
    | some (i, bs) => l.set i (q.scan.getD i 0 + (kind + 1) * bs.length)
    | none => l) l) q.scan

/-! ### Checks at a vector (R128, R168) -/

/-- The pins of a list of channels, once each. -/
def pinsOf (l : List PinCh) : List Nat := (l.map PinCh.p).dedup

/-- Scan checks of pin p: SCAN_END and SCAN_CODE, with the stream. -/
def Cx.scanCodes (c : Cx) (q : Seq) (ks : List Nat) (p : Nat) : List (Nat × Nat) :=
  [0, 1].flatMap (fun kind => match c.scanAt q p kind ks with
    | none => []
    | some (i, bs) =>
      let n := (scanEnt c.rd c.h i).nbits
      (if bs.any (fun b => n ≤ b.2 + kind) then [(0x31, i)] else []) ++
      (if kind = 1 && bs.any (fun b => scanBit c.rd c.h i b.2 + scanBit c.rd c.h i (b.2 + 1) = 2) then [(0x32, i)] else []))

/-- The parts of RESUME_STATE that need the drives and scan positions at the vector (R105). -/
def State.resumeBad (s : State) (c : Cx) (n : Nat) (q : Seq) (pins : List PinCh) (i : Nat) : Bool :=
  pins.any (fun x => ((s.cl n).chans.getD x.c {}).prev ≠ rpDrive c.rd c.h i x.p) ||
  (List.range c.h.nScan).any (fun k =>
    pins.any (fun x => x.p = (scanEnt c.rd c.h k).pin) && q.scan.getD k 0 ≠ rpScan c.rd c.h i k)

/-- The checks that the next vector of a run fails: code and stream. -/
def State.vecCodes (s : State) (c : Cx) (n : Nat) (q : Seq) (r : Run) : List (Nat × Nat) :=
  let v := q.next
  let pins := s.chanPins c.b.ent n
  let pick (l : List (Nat × Bool)) : List (Nat × Nat) := (l.filter (fun p => p.2)).map (fun p => (p.1, 0xFF))
  let tset := kGet (s.cl n).tsets r.tset
  let blk := r.line / 4096
  let carried (p : Nat) : Bool := pins.any (fun x => x.p = p)
  -- bytes left over in the block before, found at a vector that needs a line outside it (R128); a word past the last line needs one too
  let past : Bool := r.pad && c.h.nLines ≤ r.line && wOp (c.wordAt q r.word) ≠ 0x0C
  let left := match q.leftover with
    | some k => if r.pad && !past || !past && k = blk then [] else [(0x23, (c.js.find? (fun j => hasLeftover c.rd c.h k j)).getD 0xFF)]
    | none => []
  left ++ (if r.pad then []
   else
    c.js.flatMap (fun j => (List.range (min r.mux (blkEnt c.rd c.h blk).mux)).flatMap (fun b => match lineWord c.rd c.h j r.line b with
      | .error k => [(k, j)]
      | .ok w => (wordFails c.rd c.h j carried w).map (fun f => (f.code, j)))) ++
    (pinsOf pins).flatMap (fun p => c.scanCodes q (c.codes r p) p) ++
    pick [
      (0x33, (blkEnt c.rd c.h blk).mux ≠ r.mux),
      (0x4C, pins.any (fun x => muxBad r.mux (c.codes r x.p))),
      (0x4F, r.body && pins.any (fun x => (c.codes r x.p).any (fun k => k = 0xD || k = 0xE || k = 0xB || k = 0xC)))]) ++
  pick [
    (0x34, match r.rp with
      | some (i, _) => s.resumeBad c n q pins i
      | none => false),
    (0x49, tset.isNone), (0x4A, tset.any (fun t => !tsAllows t.bytes r.mux)),
    (0x53, c.h.staticLen && v = c.h.nvs), (0x54, 2 ^ 48 ≤ v)]

/-- The lowest code of a list, with its stream (R169). -/
def lowestCode (l : List (Nat × Nat)) : Option (Nat × Nat) := bestBy (fun p => [p.1, p.2]) l

/-- Why a slice's burst ends before its next vector: status, code, stream; none while it goes on (R128, R164, R168). The stop vector of a
request is not missed in the queue (R135, R165). -/
def State.endCause (s : State) (c : Cx) (n : Nat) (q : Seq) : Option EndAt :=
  let v := q.next
  let missing : List (Nat × Nat) := if q.stopDue then [] else [(0x52, 0xFF)]
  let codes := (match q.queue with
      | r :: _ => s.vecCodes c n q r ++ (if q.avail.head?.any (fun t => t ≤ q.time) then [] else missing)
      | [] => if q.ended || q.fault.any (fun f => f.1 = v) then
          (match q.leftover with
           | some k => [(0x23, (c.js.find? (fun j => hasLeftover c.rd c.h k j)).getD 0xFF)]
           | none => [])
        else missing) ++
    (match q.fault with
     | some (u, k) => if u = v then [(k, 0xFF)] else []
     | none => [])
  match lowestCode codes with
  | some (k, j) =>
    let st := q.causes v St.badPattern
    let rep := st = St.badPattern || st = St.memUe  -- R132
    some { vec := v, status := st, pcheck := if rep then k else 0, pstream := if rep then j else 0xFF }
  | none =>
    if q.stopDue || q.cuts.any (fun k => k.1 ≤ v) || (q.queue.isEmpty && q.ended) then some { vec := v, status := q.causes v 0 } else none

/-! ### How a burst ends on a slice (R164-R166, R585) -/

/-- Two causes on one slice: the earliest vector, the highest status (R164). -/
def EndAt.join (a b : EndAt) : EndAt :=
  let hi := if a.status < b.status then b else a
  { hi with vec := min a.vec b.vec }

/-- A stop request reaches slice g at time t, 0.5 ps, with a status (R165): a slice that fills ends where it stands. -/
def Seq.requestStop (q : Seq) (t status : Nat) : Seq :=
  match q.endAt with
  | some e => { q with endAt := some { e with status := max e.status status } }
  | none =>
    let st := match q.stop with
      | some (t', k) => (min t t', max k status)
      | none => (t, status)
    { q with stop := some st, state := if q.state = 2 then 3 else q.state }

/-- The other slices of a burst on this chip stop, and other chips are told (R84, R585). -/
def State.stopOthers (s : State) (e : Ent) (g t status : Nat) : State :=
  let s1 := (s.entSlices e).foldl (fun s k => if k = g then s else s.upSeq k (fun q => q.requestStop t status)) s
  match s.entX e, s.burst e with
  | some x, some b => s1.broadcast 0x66 2 s.dtime (x.id + status * 2 ^ 16 + b.tag * 2 ^ 32)
  | _, _ => s1

/-- Where a channel's edges leave the balls, against their time at the reference plane (R244): DRV, DEN, and rising DRV beside falling, 0.5 ps
units. -/
structure Launch where
  drv : Int := 0
  den : Int := 0
  rise : Int := 0
  deriving DecidableEq, Repr

/-- The launch offsets of channel c of cluster n, by its deskew values and the target in force (R244, R246). -/
def State.launch (s : State) (n c : Nat) : Launch :=
  let lat := ((s.cl n).chans.getD c {}).lat
  { drv := (s.rf F.CL_DSK_DSKD [n, c] : Int) - lat, den := (s.rf F.CL_DSK_DSKE [n, c] : Int) - lat
    rise := toSigned 8 (s.rf F.CL_DSK2_RISE_TRIM [n, c]) }

/-- DEN of channel c of cluster n goes off at time t, 0.5 ps units (R166): too soon after its last transition it is CLOSE (R235, R261). -/
def State.denOff (s : State) (n c t : Nat) : State :=
  let x := (s.cl n).chans.getD c {}
  if !x.den then s
  else
    let u : Int := t + (s.launch n c).den
    let s1 := s.upCl n (fun k => { k with chans := k.chans.modify c (fun x => { x with den := false, lastDen := some u }) })
    if x.lastDen.any (fun v => u < v + 500) then s1.stick F.CL_TIM_EVT_CLOSE F.CL_TIM_EVT_CLOSE_CH n c else s1

/-- Every driver of an entity's channels in cluster n goes off at time t (R166). -/
def State.driversOff (s : State) (e : Ent) (n t : Nat) : State :=
  ((s.chanPins e n).map PinCh.c).foldl (fun s c => s.denOff n c t) s

/-- The fail windows of a part that have closed go to the other chips (R583). -/
def State.sendFails (s : State) (g : Nat) (c : Cx) (v : Nat) : State :=
  match s.entX c.b.ent with
  | none => s.upSeq g (fun q => { q with win := 0, mwin := 0 })
  | some x =>
    let q := (s.sl g).seq
    let a := v / 16 * 16
    let go (s : State) (sub m : Nat) : State :=
      if m = 0 then s else s.broadcast 0x87 sub a (x.id + m * 2 ^ 16 + c.b.tag * 2 ^ 32)
    (go (go s 0 q.win) 1 q.mwin).upSeq g (fun q => { q with win := 0, mwin := 0 })

/-! ### One vector -/

/-- What one channel does and sees on a vector. -/
structure ChanVec where
  pin : PinCh
  chan : Chan
  /-- per beat: what is asked, the code read, both at 1 -/
  beats : List (Want × Nat × Bool) := []
  /-- output bit of each failing B beat -/
  bits : List Nat := []
  /-- failing beats, and offset of the first failing strobe -/
  bad : Nat := 0
  at_ : Option Nat := none
  both : Bool := false
  close : Bool := false
  /-- DRV transitions -/
  trans : Nat := 0
  unmapped : Bool := false
  noflag : Bool := false
  nib : Nat := 0
  deriving DecidableEq, Repr

/-- What a beat drives, with the previous-drive state after it (R231); `bit` is the value of E or A. -/
def driveOf (code : Nat) (bit : Bool) (prev : Nat) : Drive × Nat :=
  match code with
  | 0 => (.data false, 0)
  | 1 => (.data true, 1)
  | 0xB | 0xD => (.data bit, b2n bit)
  | 8 => if prev = 2 then (.still, 2) else (.data (prev = 1), prev)
  | 0xA => if prev = 2 then (.still, 2) else (.data (prev = 0), 1 - prev)
  | 7 => (.off, 2)
  | _ => (.off, prev)

/-- The drives of a vector's beats and the previous-drive state after them. -/
def drivesOf : List (Nat × Bool) → Nat → List Drive × Nat
  | [], prev => ([], prev)
  | (k, b) :: r, prev =>
    let (d, p) := driveOf k b prev
    let (ds, q) := drivesOf r p
    (d :: ds, q)

/-- Strobe times that come closer than 125 ps to the one before, and the last of them (R235). -/
def playStrobes (t0 : Nat) : Option Nat → List Nat → Option Nat × Bool
  | last, [] => (last, false)
  | last, o :: os =>
    let close := match last with
      | some u => decide (t0 + o < u + 250)
      | none => false
    let r := playStrobes t0 (some (t0 + o)) os
    (r.1, close || r.2)

/-- One channel on one vector: `ts` the timing set, `word` the APG output word where one is joined, `la` where its edges are launched. -/
def Cx.chanVec (c : Cx) (q : Seq) (r : Run) (ts : List Byte) (word : Option Nat) (ch : Chan) (la : Launch) (x : PinCh) (smp : List Sample) :
    ChanVec :=
  let ks := c.codes r x.p
  let src := c.scanAt q x.p 0 ks
  let exp := c.scanAt q x.p 1 ks
  let bitAt (o : Option (Nat × List (Nat × Nat))) (b k : Nat) : Nat := match o with
    | some (i, l) => match kGet l b with
      | some pos => scanBit c.rd c.h i (pos + k)
      | none => 0
    | none => 0
  let apg (b : Nat) : Option Nat := word.bind (fun _ => apgPin c.setup x.p b r.mux)
  let val (b : Nat) : Bool := match word, apg b with
    | some w, some i => w.testBit i
    | _, _ => false
  let drv := drivesOf (ks.zipIdx.map (fun k => (k.1, if k.1 = 0xD then bitAt src k.2 0 = 1 else val k.2))) ch.prev
  let mode := if r.mux = 1 then tsStrobe ts x.c else 0
  let beats := ks.zipIdx.map (fun k =>
    let y := (smp.find? (fun m => m.ch = x.c && m.beat = k.2)).getD { ch := x.c, beat := k.2, code := 0 }
    (wantOf k.1 ((apg k.2).map (fun _ => val k.2)) (bitAt exp k.2 0 + 2 * bitAt exp k.2 1), y.code, y.both))
  let fails := (List.range beats.length).filter (fun b => (beats[b]?).any (fun y => beatFails mode y.1 y.2.1 y.2.2))
  let asks := (List.range beats.length).filter (fun b => (beats[b]?).any (fun y => y.1 ≠ .skip))
  let st := strobes ts x.c r.mux
  let used := if r.mux = 1 then (if asks.isEmpty then [] else st) else asks.map (fun b => st.getD b 0)
  let dens := denEvents ts x.c r.mux drv.1
  let d := playEvents 200 (q.time + la.drv) la.rise ch.drv ch.lastDrv ((drvEvents ts x.c r.mux drv.1).filterMap (gateDrv ch.den dens))
  let n := playEvents 500 (q.time + la.den) 0 ch.den ch.lastDen dens
  let k := playStrobes q.time ch.lastStrobe used
  let ab (b : Nat) : Bool := ks.getD b 0 = 0xB || ks.getD b 0 = 0xC
  { pin := x, beats := beats, bits := (fails.filter (fun b => ks.getD b 0 = 0xC)).filterMap apg
    chan := { ch with drv := d.1, lastDrv := d.2.2.1, den := n.1, lastDen := n.2.2.1, prev := drv.2, lastStrobe := k.1 }
    bad := maskOf fails, at_ := fails.head?.map (fun b => st.getD (if r.mux = 1 then (if mode = 1 && (beats[b]?).any (fun y => !beatFails 0 y.1 y.2.1 y.2.2) then 1 else 0) else b) 0)
    both := beats.any (fun y => y.1 ≠ .skip && beatBoth mode y.2.1 y.2.2)
    close := d.2.2.2 || n.2.2.2 || k.2, trans := d.2.1, nib := nibbleOf r.mux mode beats
    unmapped := word.isSome && (List.range ks.length).any (fun b => ab b && (apg b).isNone)
    noflag := word.isNone && (List.range ks.length).any ab }

/-- The verdict of a site on a vector (R267, R284, R287). -/
def State.verdict (s : State) (g : Nat) (l : List ChanVec) (site : Nat) : Verdict :=
  let mine := l.filter (fun y => y.pin.site = site)
  let bad := mine.filter (fun y => y.bad ≠ 0)
  let raw := mine.filter (fun y => y.beats.any (fun b => b.1 == Want.raw))
  let nibs (k : List ChanVec) : Nat := k.foldl (fun a y => a ||| y.nib * 2 ^ (4 * y.pin.c)) 0
  let m := s.recMember site
  { site := site, member := m, masked := m ≠ 0xFF && (s.siteMask g).testBit m, fail := !bad.isEmpty
    chfail := maskOf (bad.map (fun y => y.pin.c)), beats := bad.foldl (fun a y => a ||| y.bad) 0, samples := nibs mine
    cmask := maskOf (raw.map (fun y => y.pin.c)), rawSamples := nibs raw }

/-- A resume point is marked at vector c = `q.next` (R105, R162, R302, R303). -/
def State.markCkpt (s : State) (g : Nat) (c : Cx) (i : Nat) (steer : Option Nat) : State :=
  let q := (s.sl g).seq
  let sites := s.entSites c.b.ent
  let aligned : Bool := q.next % 2 ^ (s.cap g).shift = 0
  let snap : Snap := {
    accStart := q.accStart, steer := steer, mask := s.siteMask g
    minFail := (winList c.b.wins).find? (fun v => q.accStart ≤ v && v < q.next)
    maskVecs := sites.filterMap (fun x => (s.resOf x.id).maskVec.map (fun v => (x.id, v)))
    counts := sites.map (fun x => (x.id, (s.resOf x.id).counts))
    sliceFail := (s.sliceCounts g).1, sliceFirst := (s.sliceCounts g).2.1, sliceLast := (s.sliceCounts g).2.2
    due := if aligned then 0 else (s.cap g).due, span := if aligned then 0 else q.time - (s.cap g).intT }
  let k : Ckpt := { rp := i, vec := q.next, snap := snap }
  let s1 := s.commitCkpt g c
  let cap := s1.cap g
  let s2 := if cap.summary && cap.rangeStart < q.next then s1.closeRanges g c.b.ent (q.next - 1) else s1
  let s3 := s2.upSeq g (fun q => { q with pendCk := some k })
  if q.next = 0 then s3.commitCkpt g c else s3

/-- A fail that a match timeout charges for a vector w that has started: each unmasked member or part whose channels failed in the last
iteration has one in its counters, the accumulator, the window and the records (R269). -/
def State.settleCharge (s : State) (g : Nat) (c : Cx) : State :=
  let q := (s.sl g).seq
  match q.charge with
  | none => s
  | some (w, ids) =>
    if q.next ≤ w then s
    else
      let e := c.b.ent
      let masked (x : Site) : Bool := (s.siteMask g).testBit (s.recMember x.id) && s.recMember x.id ≠ 0xFF && (s.resOf x.id).maskVec.all (fun u => u ≤ w)
      let late := ((s.entSites e).filter (fun x => ids.contains x.id && !masked x)).map (fun x =>
        Verdict.timedOut { site := x.id, member := s.recMember x.id } ((kGet q.samples x.id).getD 0))
      let s1 := s.countVector g e w late
      let s2 := if ids.isEmpty then s1.fallIn e w else s1
      let s3 := if late.isEmpty then s2
        else if w / 16 = q.next / 16 then s2.upSeq g (fun q => { q with win := q.win ||| 2 ^ (w % 16) })
        else ((s2.upSeq g (fun q => { q with win := 2 ^ (w % 16), mwin := 0 })).sendFails g c w).upSeq g (fun z => { z with win := q.win, mwin := q.mwin })
      (if late.isEmpty then s3 else s3.captureLate g e w q.lastSet q.last late).upSeq g (fun q => { q with charge := none })

/-- The burst ends on slice g: queued vectors are discarded, the channels take their end state, a checkpoint still pending
commits or is dropped, and other parts stop (R162, R165, R166, R306). A resume point that execution has reached at the first vector
not applied is marked first, and commits (R162), but not at a stop vector that is a steered vector: the branch has no effect (R176). -/
def State.endPart (s0 : State) (g : Nat) (c : Cx) (x : EndAt) : State :=
  let s := s0.settleCharge g c
  let q := (s.sl g).seq
  let e := c.b.ent
  let reached := match q.queue with
    | r :: _ => r.rp.filter (fun p => q.endAt.isNone && x.vec = q.next && !(q.stopDue && q.steer = some x.vec) && !s.resumeBad c (g / 4) q (s.chanPins e (g / 4)) p.1)
    | [] => none
  let s := match reached with
    | some (i, steer) => s.markCkpt g c i steer
    | none => s
  let keepDrive := q.ended && q.endst = 0 && x.status = 0
  let s1 := ((s.settleCredit (g / 4) q.time).captureEnd g e x.vec).deliverRest false ((s.entSites e).map Site.id)
  let s2 := (s1.sendFails g c (x.vec - 1)).upSeq g (fun q => { q with
    endAt := some (match q.endAt with
      | some y => y.join x
      | none => x)
    queue := [], avail := [], held := none, brbuf := none, frames := [], calls := [], state := 4, hold := true, leftover := none
    charge := none, pendCk := q.pendCk.filter (fun k => k.vec ≤ x.vec) })
  let s3 := ((s2.commitCkpt g c).upSl g (fun y => { y with past := (y.seq.time, y.seq.segs) :: y.past })).upBurst e (fun b => { b with ends := b.ends.filter (fun p => p.1 ≠ g) ++ [(g, x)] })
  let s4 := if keepDrive then s3 else s3.driversOff e (g / 4) q.time
  if 0x10 ≤ x.status then s4.stopOthers e g q.time x.status else s4

/-- The site-fail condition holds at vector v with a failing strobe at `stamp`: one event for every slice of the site on this chip, stamped
at the earliest failing strobe of the vector over its parts (R85, R361). -/
def State.raiseSiteFail (s : State) (e : Ent) (v stamp : Nat) : State :=
  let gs := s.entSlices e
  let tell (s : State) : State := gs.foldl (fun s g => s.raise (g / 4) (16 + g % 4) stamp) s
  let keep (l : List (Nat × Nat)) : List (Nat × Nat) :=
    l.filter (fun p => p.1 ≠ v && gs.any (fun g => (s.sl g).seq.next ≤ p.1))
  let note (s : State) : State := s.upBurst e (fun b => { b with strobes := keep b.strobes ++ [(v, stamp)] })
  match (s.burst e).bind (fun b => kGet b.strobes v) with
  | none => note (tell s)
  | some old =>
    if old ≤ stamp then s
    else
      let src (k : Nat × Nat × Nat) : Bool := k.2.2 = old && gs.any (fun g => k.1 / 8 = g / 4 && k.2.1 = 16 + g % 4)
      note (tell { s with trigEv := s.trigEv.filter (fun k => !src k) })

/-- Events of a vector's marks and fails go to the trigger units (R161, R361). -/
def State.raiseVector (s : State) (g : Nat) (e : Ent) (t : Nat) (q : Seq) (r : Run) (l : List ChanVec) (vs : List Verdict) : State :=
  let n := g / 4
  let sl := g % 4
  let s1 := (bitList 4 r.mark).foldl (fun s k => s.raise n (4 * sl + k) t) s
  let s2 := if q.matchAt = some q.next then s1.raise n (20 + sl) t else s1
  if r.body then s2
  else
    let live := (vs.filter (fun d => d.fail && !d.masked)).map Verdict.site
    let first := ((l.filter (fun y => live.contains y.pin.site)).filterMap (fun y => y.at_)).min?
    let s3 := match first with
      | some o => s2.raiseSiteFail e q.next (t + o)
      | none => s2
    l.foldl (fun s y => match y.at_ with
      | some o => s.raise n (24 + y.pin.c) (t + o)
      | none => s) s3

/-- The run after its next vector has started: the repetitions of an RPT raise its marks again (R161). -/
def Run.next (r : Run) (apg : ApgRegs) : List Run :=
  if r.count ≤ 1 then []
  else [{ r with count := r.count - 1, line := if r.step && !r.pad then r.line + 1 else r.line, mark := if r.step then 0 else r.mark, clrf := false, rp := none
                 fresh := false, dec := r.dec && r.step, apg := apg }]

/-- The block whose last line a run's next vector emits, if it leaves bytes over (R128). -/
def Cx.leftAfter (c : Cx) (r : Run) (old : Option Nat) : Option Nat :=
  if r.pad then old
  else
    let k := r.line / 4096
    if r.line % 4096 + 1 = (blkEnt c.rd c.h k).lines && c.js.any (fun j => hasLeftover c.rd c.h k j) then some k else old

/-- CH_TRANS of the lifetime counters (R678). -/
def State.countTrans (s : State) (l : List (Nat × Nat)) : State :=
  { s with life := { s.life with chTrans := l.foldl (fun a k => a.modify k.1 (fun x => satAdd 64 x k.2)) s.life.chTrans } }

/-- The history of vector starts with one more vector. -/
def addSeg (l : List (Nat × Nat × Nat)) (v t p : Nat) : List (Nat × Nat × Nat) := match l with
  | (v0, t0, p0) :: r => if p0 = p && t0 + (v - v0) * p = t then (v0, t0, p0) :: r else (v, t, p) :: (v0, t0, p0) :: r
  | [] => [(v, t, p)]

/-- What the next vector may change, as it stands (R164). -/
def State.undoOf (s : State) (g : Nat) (e : Ent) : Undo :=
  let (n, a, z) := s.sliceCounts g
  let sites := s.entSites e
  { results := sites.map (fun x => (x.id, (s.resOf x.id).counts, (s.resOf x.id).maskVec)), mask := s.siteMask g
    fails := n, first := a, last := z, cap := s.cap g, win := (s.sl g).seq.win, mwin := (s.sl g).seq.mwin
    siteCnt := sites.map (fun x => (x.id, (s.resOf x.id).lost, (s.resOf x.id).bmDropped, (s.resOf x.id).rawDropped))
    regCnt := (sites.flatMap (fun x => [s.regionOf x.id 1, s.regionOf x.id 2])).filterMap (fun r => r.map (fun r => (r.id, r.lostCount, r.dropped, r.updates)))
    lost := (s.burst e).elim 0 Burst.lost, dropped := s.rf F.CL_CAP_STAT_DROPPED [g / 4]
    reds := ((s.burst e).elim [] Burst.reds).filter (fun r => r.1 = g) }

/-- What stood before against what stands now: what was added. -/
def addedTo (old now : List (Nat × Nat × Nat × Nat)) : List (Nat × Nat × Nat × Nat) :=
  now.map (fun r => match old.find? (fun p => p.1 = r.1) with
    | some p => (r.1, r.2.1 - p.2.1, r.2.2.1 - p.2.2.1, r.2.2.2 - p.2.2.2)
    | none => (r.1, 0, 0, 0))

/-- Once the vector has started, `now` as things stand after it: the counts become what it added. -/
def Undo.close (u now : Undo) : Undo :=
  { u with siteCnt := addedTo u.siteCnt now.siteCnt, regCnt := addedTo u.regCnt now.regCnt, lost := now.lost - u.lost, dropped := now.dropped - u.dropped }

/-- Vector `q.next` starts on slice g (R223): everything it does at the pins, in the counters and in capture. -/
def State.applyVector (s00 : State) (g : Nat) (c : Cx) (r : Run) (rest : List Run) (smp : List Sample) : State :=
  let n := g / 4
  let e := c.b.ent
  let s := (s00.deliverDue false ((s00.entSites e).map Site.id) (s00.sl g).seq.time).settleCharge g c
  let q := (s.sl g).seq
  let v := q.next
  let t := q.time
  let ts := match kGet (s.cl n).tsets r.tset with
    | some x => x.bytes
    | none => []
  let tEnd := t + tsPeriod ts
  let apg := match r.arg with
    | some a => apgOp c.setup a r.apg
    | none => r.apg
  let joined := !r.pad && c.h.apg && c.b.apgUnit.isSome && (blkEnt c.rd c.h (r.line / 4096)).bflags.testBit 1
  let word := if joined then some (apgWord c.setup apg) else none
  let pins := s.chanPins e n
  let l := pins.map (fun x => c.chanVec q r ts word ((s.cl n).chans.getD x.c {}) (s.launch n x.c) x smp)
  let sk := match r.rp with
    | some (i, steer) => s.markCkpt g c i steer
    | none => s
  let s0 := sk.upSeq g (fun z => { z with undo := some (sk.undoOf g e) })
  -- the pins
  let s1 := (s0.upCl n (fun cl => { cl with chans := l.foldl (fun a y => a.set y.pin.c y.chan) cl.chans })).countTrans
    (l.map (fun y => (16 * n + y.pin.c, y.trans)))
  let s2 := l.foldl (fun s y =>
    let s := if y.close then s.stick F.CL_TIM_EVT_CLOSE F.CL_TIM_EVT_CLOSE_CH n y.pin.c else s
    if y.both then s.stick F.CL_CMP_EVT_BOTH F.CL_CMP_EVT_BOTH_CH n y.pin.c else s) s1
  let bound := (List.range 4).find? (fun k => (s.apgs.getD k {}).ent == some e)
  let flag (s : State) (k : Option Nat) (bit : Nat) (on : Bool) : State := match k with
    | some k => if on then s.apgEvt k bit else s
    | none => s
  let s3 := flag (flag s2 c.b.apgUnit 0 (l.any (fun y => y.unmapped))) bound 1 (l.any (fun y => y.noflag))
  let s4 := match c.b.apgUnit with
    | some k => if joined || r.arg.isSome then { s3 with apgs := s3.apgs.modify k (fun a => { a with regs := apg }) } else s3
    | none => s3
  -- verdicts, and a charged match timeout
  let sites := (pins.map PinCh.site).dedup
  let own := sites.map (s4.verdict g l)
  let charged (d : Verdict) : Bool := q.charge.any (fun p => p.1 = v && p.2.contains d.site) && !d.masked
  let s5 := if q.charge.any (fun p => p.1 = v && p.2.isEmpty) then s4.fallIn e v else s4
  let vs := if !r.body then own else own.map (fun d => if charged d then d.timedOut d.samples else { d with fail := false })
  let s6 := if r.body then
      let bad := own.filter (fun d => d.fail && !d.masked)
      ((s5.countVector g e v vs).upBurst e (fun b => { b with mfail := b.mfail ++ bad.map (fun d => (d.site, g, v)) })).upSeq g (fun q =>
        { q with mwin := if bad.isEmpty then q.mwin else q.mwin ||| 2 ^ (v % 16), win := if siteFail vs then q.win ||| 2 ^ (v % 16) else q.win })
    else (s5.countVector g e v vs).upSeq g (fun q => { q with win := if siteFail vs then q.win ||| 2 ^ (v % 16) else q.win })
  let s7 := s6.raiseVector g e t q r l own
  -- capture
  let s8 := if r.body then s7 else l.foldl (fun s y => y.bits.foldl (fun s i => match c.b.apgUnit with
    | some k => s.bitmapBeat g e y.pin.site k i (word.getD 0) v
    | none => s) s) s7
  let s10 := s8.captureVector g e v r.tset t tEnd vs
  -- the sequencer moves on
  let s11 := s10.upSeq g (fun z => c.fill 32 { z with
    queue := r.next apg ++ rest, avail := z.avail.drop 1, next := v + 1, started := v, time := tEnd, last := t, segs := addSeg z.segs v t (tEnd - t), scan := c.scanNext q r (pinsOf pins)
    accStart := if r.clrf then v else z.accStart, leftover := c.leftAfter r q.leftover
    charge := z.charge.filter (fun p => p.1 ≠ v), lastSet := r.tset, samples := own.map (fun d => (d.site, d.samples))
    undo := z.undo.map (fun u => u.close (s10.undoOf g e))
    matchAt := if q.matchAt = some v then none else z.matchAt })
  if v % 16 = 15 then s11.sendFails g c v else s11

/-- The slice ends if nothing follows the vector just started: END or an issuer fault stands at the next one. -/
def State.settleEnd (s : State) (g : Nat) : State :=
  match s.cx g with
  | none => s
  | some c =>
    let q := (s.sl g).seq
    if q.queue.isEmpty && q.endAt.isNone && (q.ended || q.fault.any (fun f => f.1 = q.next)) then
      match s.endCause c (g / 4) q with
      | some x => s.endPart g c x
      | none => s
    else s

/-! ### Stop requests (R165, R170) -/

/-- What is known of how a part ends, with a further cause. -/
def EndAt.also (old : Option EndAt) (x : EndAt) : EndAt := match old with
  | some y => y.join x
  | none => x

/-- A burst that has started nothing will start nothing: how it ends is kept, and a part that fills ends where it stands (R83). -/
def State.endStart (s : State) (e : Ent) (status reason : Nat) : State :=
  match s.burst e with
  | none => s
  | some b =>
    let vec := b.restart.elim 0 Ckpt.vec
    let x : EndAt := { vec := if b.admitted then vec else 0, status := status, reason := reason }
    let s1 := s.upBurst e (fun b => { b with fin := some (EndAt.also b.fin x) })
    if b.admitted then (s.entSlices e).foldl (fun s k => s.upSeq k (fun q => { q with
      endAt := some (EndAt.also q.endAt x), queue := [], avail := [], held := none, brbuf := none })) s1
    else s1

/-- The other chips of a cross-chip site learn that a part of its burst starts nothing (R83, R584). -/
def State.tellNogo (s : State) (e : Ent) (status : Nat) : State := match s.entX e, s.burst e with
  | some x, some b => s.broadcast 0x66 3 s.dtime (x.id + status * 2 ^ 16 + b.tag * 2 ^ 32)
  | _, _ => s

/-- A burst that still fills has applied nothing: it ends where it stands, on every slice, and no other part starts (R83). -/
def State.endFilling (s : State) (e : Ent) (status : Nat) : State := (s.endStart e status 0).tellNogo e status

/-- A further cause raises the status a part ends with (R164), or that of a burst that has started nothing (R83). -/
def State.raiseEnd (s : State) (g status : Nat) : State :=
  let s1 := s.upSeq g (fun q => { q with endAt := q.endAt.map (fun e => { e with status := max e.status status }) })
  match (s.sl g).ent with
  | some e => s1.upBurst e (fun b => { b with fin := b.fin.map (fun x => { x with status := max x.status status }) })
  | none => s1

/-- A stop request reaches slice g at DTIME t (R165). -/
def State.stopSlice (s : State) (g t status : Nat) : State :=
  match s.cx g with
  | none => s
  | some c =>
    let q := (s.sl g).seq
    if q.endAt.isSome then s.raiseEnd g status
    else if !c.b.running then s.endFilling c.b.ent status
    else s.upSeq g (fun q => q.requestStop (2000 * t) status)

/-- The burst on slice g ends before its next vector (R164). -/
def State.endNow (s : State) (g status : Nat) : State :=
  match s.cx g with
  | none => s
  | some c =>
    let q := (s.sl g).seq
    if q.endAt.isSome then s.raiseEnd g status
    else if !c.b.running then s.endFilling c.b.ent status
    else s.endPart g c { vec := q.next, status := q.causes q.next status }

/-- The least and the greatest of some ranges. -/
def redRange (l : List (Nat × Nat × Nat × Nat)) : Option Nat × Option Nat := ((l.map (fun r => r.2.2.1)).min?, (l.map (fun r => r.2.2.2)).max?)

/-- What the vector in progress on slice g added to the counts of lost records and dropped updates, and to the reduced ranges, is taken back
(R295, R296, R306). -/
def State.undoCounts (s : State) (g : Nat) (e : Ent) (u : Undo) : State :=
  let s1 := u.siteCnt.foldl (fun s r => s.upRes r.1 (fun x => { x with
    lost := x.lost - r.2.1, bmDropped := x.bmDropped - r.2.2.1, rawDropped := x.rawDropped - r.2.2.2 })) s
  let s2 := u.regCnt.foldl (fun s r => s.upRegion r.1 (fun x => { x with
    lostCount := x.lostCount - r.2.1, dropped := x.dropped - r.2.2.1, updates := x.updates - r.2.2.2 })) s1
  let s3 := s2.setRf F.CL_CAP_STAT_DROPPED [g / 4] (s2.rf F.CL_CAP_STAT_DROPPED [g / 4] - u.dropped)
  match s3.burst e with
  | none => s3
  | some b =>
    let reds := b.reds.filter (fun r => r.1 ≠ g) ++ u.reds
    let all := redRange reds
    (u.siteCnt.foldl (fun s r => let k := redRange (reds.filter (fun p => p.2.1 = r.1)); s.upRes r.1 (fun x => { x with
      redFirst := k.1, redLast := k.2 })) s3).upBurst e (fun b => { b with
        lost := b.lost - u.lost, reds := reds, redFirst := all.1, redLast := all.2
        qual := if reds.isEmpty && !b.reds.isEmpty then b.qual &&& (2 ^ 8 - 1 - 4) else b.qual })

/-- The vector in progress on slice g, v, raised events at its start `t` or later that no unit has had: they are taken back, with the fails
that it alone gave the accumulator (R152, R158, R161, R361). -/
def State.undoEvents (s : State) (g : Nat) (e : Ent) (v t : Nat) : State :=
  let cs := (s.chanPins e (g / 4)).map PinCh.c
  let mine (k : Nat × Nat × Nat) : Bool :=
    let i := k.2.1
    k.1 / 8 = g / 4 && t ≤ k.2.2 && (i < 16 && i / 4 = g % 4 || i = 16 + g % 4 || i = 20 + g % 4 || 24 ≤ i && i < 40 && cs.contains (i - 24))
  let alone := !s.multi e
  { s with trigEv := s.trigEv.filter (fun k => !mine k) }.upBurst e (fun b => { b with
    mfail := b.mfail.filter (fun m => !(m.2.1 = g && m.2.2 = v)), strobes := if alone then b.strobes.filter (fun k => k.1 ≠ v) else b.strobes
    wins := if alone then winDel b.wins v else b.wins, own := if alone then winDel b.own v else b.own })

/-- The vector in progress on slice g is not applied: counters, mask, windows and records stand as before it, and it is the next vector again
(R164, R306). -/
def State.undoVector (s : State) (g : Nat) (c : Cx) (u : Undo) : State :=
  let v := (s.sl g).seq.next - 1
  let e := c.b.ent
  let n := g / 4
  let s1 := u.results.foldl (fun s r => match s.site r.1 with
    | none => s
    | some x =>
      let now := (s.resOf x.id).counts
      let old : Counts := if x.multi then
          now.upto ((c.b.restart.bind (fun k => kGet k.snap.counts x.id)).getD {}) c.b.own c.b.wins (c.b.restart.elim 0 Ckpt.vec) v (s.leads e)
        else r.2.1
      let cs := { old with ch := chMix x (g / 4) r.2.1.ch now.ch }
      (s.upRes x.id (fun y => { y with counts := cs, maskVec := r.2.2 })).setChCounts x cs.ch) s
  let s2 := ((s1.setSliceCounts g u.fails u.first u.last).setSiteMask g (u.mask ||| (s.sl g).sticky)).upCap g (fun _ => u.cap)
  let s3 := s2.upCl n (fun k => { k with cap := u.bits.foldl (fun (a : Capture) p => a.unset p.1 p.2) (k.cap.keepRecs (fun r => !(r.slice = g && r.vec = v))) })
  ((s3.undoCounts g e u).undoEvents g e v (s.sl g).seq.last).upSeq g (fun q =>
    { q with next := v, time := q.last, queue := [], avail := [], win := u.win, mwin := u.mwin, undo := none })

/-- The burst on slice g ends with the vector in progress (R164): that vector, where one is in progress, is the first not applied. -/
def State.cutNow (s : State) (g status : Nat) : State :=
  match s.cx g, (s.sl g).seq.undo with
  | some c, some u =>
    let q := (s.sl g).seq
    if q.endAt.isNone && c.b.running && 2000 * s.dtime < q.time then
      (s.undoVector g c u).endPart g c { vec := q.next - 1, status := q.causes (q.next - 1) status }
    else s.endNow g status
  | _, _ => s.endNow g status

/-- Every slice of a site or group ends before its next vector. -/
def State.endEnt (s : State) (e : Ent) (status : Nat) : State := (s.entSlices e).foldl (fun s g => s.endNow g status) s

/-- Every slice of a site or group is sent a stop request. -/
def State.stopEnt (s : State) (e : Ent) (t status : Nat) : State :=
  (s.entSlices e).foldl (fun s g => s.stopSlice g t status) s

/-- XOFF_STEP within a vector boundary (R587): a chip that loses its alignment stops its bursts across chips with LINK_DOWN. -/
def State.boundaryXoff (s : State) : State :=
  let s1 := s.xoffStep
  if s.ringT.aligned && !s1.ringT.aligned then
    (s1.bursts.filter (fun b => b.admitted && (s1.entX b.ent).isSome)).foldl (fun s b => s.stopEnt b.ent s.dtime St.linkDown) s1
  else s1

/-- The status codes of R27 that say a result is not valid. -/
def isFailure (status : Nat) : Bool := [0x10, 0x11, 0x12, 0x13, 0x14, 0x15, 0x20, 0x21, 0x30, 0x31, 0x32, 0x3F].contains status

/-- STOP_REQUEST (R165). -/
def doStopRequest (n sl status t : Nat) (s : State) : State :=
  let g := gOf n sl
  if isFailure status then (s.at t).stopSlice g t status else s

/-- SEQ_CTL_ABORT (R170). -/
def doSeqCtlAbort (n : Nat) (v : W64) (s : State) : State :=
  if s.nCl ≤ n then s else (bitList 4 v.toNat).foldl (fun s i => s.stopSlice (gOf n i) s.dtime St.aborted) s

/-! ### Commands -/

/-- STOP_REQUEST. -/
def execStopRequest (n sl status t : Nat) (s : State) : Host.Outcome State Fault Refusal := .next (doStopRequest n sl status t s)
/-- SEQ_CTL_ABORT. -/
def execSeqCtlAbort (n : Nat) (v : W64) (s : State) : Host.Outcome State Fault Refusal :=
  .next (s.busWrite (F.CL_SEQ_CTL_ABORT.off [n]) (doSeqCtlAbort n v))

end Sys2Proof.Machine
end

