-- ==== Sys2Proof/Machine/Apg.lean ====
section
/-! DEFINITION. APG units (09_algorithmic_patterns.md, R313-R319, R335, R336): binding, its wait, and a unit's failure; turning a
power domain on (R657, R658). -/

namespace Sys2Proof.Machine

/-- The domains that domain d needs (R657). -/
def domNeeds (d : Nat) : List Nat :=
  if d < 60 then (match d % 5 with
    | 0 => []
    | 2 => [d - 2, d - 1]
    | k => [d - k])
  else []

/-- The island in which domain d lies (R30). -/
def domIsland (d : Nat) : Nat :=
  if d < 60 then d / 5 else if d < 76 then 12 else if d < 88 then d - 63 else if d < 89 then 25 else if d < 93 then 27
  else if d < 95 then 26 else 28

/-- Domain d is requested on and comes on (R658), and its prerequisites too; the DTIME replica of its island is loaded from the master
(R53). -/
def State.powerUp (s : State) (d : Nat) : State :=
  (domNeeds d ++ [d]).foldl (fun s k =>
    let s1 := s.setRf (RF.mk .pwrDomCtl 0x1100 [8] (k % 64) 1 0) [k / 64] 1
    { s1 with power := { s1.power with dom := s1.power.dom ||| 2 ^ k }
              clk := { s1.clk with replicas := s1.clk.replicas.set (domIsland k) 0 } }) s

/-- The registers of unit k's binding (R336). -/
def State.setBind (s : State) (k : Nat) (e : Option Ent) : State :=
  let v := match e with
    | some (.site id) => id + 2 ^ 17
    | some (.group g) => g + 2 ^ 16 + 2 ^ 17
    | none => 0
  s.setReg (F.APG_BIND_ID.off [k]) (BitVec.ofNat 64 v)

/-- Unit k is bound to nothing. -/
def State.unbind (s : State) (k : Nat) : State :=
  { s with apgs := s.apgs.modify k (fun a => { a with ent := none, setup := [] }) }.setBind k none

/-- Whatever unit a site or group holds is unbound, but for unit `keep`. -/
def State.unbindEnt (s : State) (e : Ent) (keep : Option Nat) : State :=
  (List.range 4).foldl (fun s k => if (s.apgs.getD k {}).ent = some e && keep ≠ some k then s.unbind k else s) s

/-- Unit k is bound to a site or group with a setup (R315). -/
def State.bind (s : State) (k : Nat) (e : Ent) (setup : List Byte) : State :=
  let s1 := s.unbindEnt e (some k)
  let same := (s1.apgs.getD k {}).ent = some e
  let s2 := { s1 with apgs := s1.apgs.modify k (fun a => { a with ent := some e, setup := setup }) }
  (if same then s2 else s2.setBind k (some e)).powerUp (89 + k)

/-- The site or group that a BIND_APG names. -/
def bindEnt (b : List Byte) : Ent := if fld b 16 2 ≠ 0xFFFF then .site (fld b 16 2) else .group (fld b 18 2)

/-- The status of a BIND_APG by the checks of R315 on its descriptor; 0 where all pass. -/
def State.bindRefusal (s : State) (b : List Byte) : Nat :=
  let k := fld b 20 1
  let e := bindEnt b
  let one := (fld b 16 2 = 0xFFFF) != decide (fld b 18 2 = 0xFFFF)
  if k < 4 && (s.nApg ≤ k || (s.apgs.getD k {}).retired) then St.absent
  else if one && s.declared e && s.blocked e then St.blocked
  else if !one || !s.declared e || (match e with
      | .site id => (s.site id).any (fun x => x.group.isSome)
      | .group _ => false) || !zeroes b 21 3 || !zeroes b 32 32 || fld b 24 8 % 64 ≠ 0 && k ≠ 0xFF || (4 ≤ k && k ≠ 0xFF) ||
      (k < 4 && (s.apgs.getD k {}).ent.any (fun x => x ≠ e)) then St.bad
  else 0

/-- A BIND_APG whose checks have passed takes effect. -/
def State.bindTurn (s : State) (d : Desc) (setup : List Byte) : State :=
  let k := fld d.bytes 20 1
  let e := bindEnt d.bytes
  (if k = 0xFF then s.unbindEnt e none else s.bind k e setup).finish d.sq d.idx St.ok

/-- BIND_APG (R315, R316). -/
def doBindApg (sq idx : Nat) (src : Option (List Byte)) (s : State) : State :=
  s.withDesc sq idx 0x0B (fun d =>
    let st := s.bindRefusal d.bytes
    let k := fld d.bytes 20 1
    let e := bindEnt d.bytes
    if st ≠ 0 then s.finish sq idx st
    else
      let go (setup : List Byte) : State :=
        if s.busy e then s.wait { sq := sq, idx := idx, kind := .bindApg setup, ent := some e } else s.bindTurn d setup
      if k = 0xFF then go []
      else match s.hostRead (src.filter (fun l => l.length = 1024)) with
        | none => s.readFailed sq idx
        | some setup => if setupOk setup then go setup else s.finish sq idx St.bad)

/-- DEFERRED_BIND_APG (R316): the burst has completed; the checks hold as they are then. -/
def doDeferredBindApg (sq idx : Nat) (s : State) : State :=
  match s.waitOf sq idx, s.desc sq idx with
  | some w, some d =>
    match w.kind with
    | .bindApg setup =>
      if w.ent.any s.busy then s
      else
        let s1 := s.unwait sq idx
        let st := s1.bindRefusal d.bytes
        if st ≠ 0 then s1.finish sq idx st else s1.bindTurn d setup
    | _ => s
  | _, _ => s

/-- The bursts that use unit k end with a status (R34, R335). -/
def State.endApgBursts (s : State) (k status : Nat) : State :=
  ((s.bursts.filter (fun b => b.admitted && b.apgUnit = some k)).map Burst.ent).foldl (fun s e =>
    if status = St.aborted then s.stopEnt e s.dtime status else s.endEnt e status) s

/-- APG_FAILURE (R335): the burst ends with HW_FAULT, the binding ends and the unit is retired. -/
def doApgFailure (k : Nat) (s : State) : State :=
  if s.nApg ≤ k || (s.apgs.getD k {}).retired then s
  else
    let s1 := (s.report 24 27 k 1).endApgBursts k St.hwFault
    let s2 := { s1.unbind k with apgs := (s1.unbind k).apgs.modify k (fun a => { a with retired := true }) }
    (s2.setRf F.CAPS_LIVE_APG_LIVE [] (s2.rf F.CAPS_LIVE_APG_LIVE - (s2.rf F.CAPS_LIVE_APG_LIVE &&& 2 ^ k))).degrade 6 27 k

/-! ### Commands -/

/-- BIND_APG. -/
def execBindApg (sq idx : Nat) (src : Option (List Byte)) (s : State) : Host.Outcome State Fault Refusal := .next (doBindApg sq idx src s)
/-- DEFERRED_BIND_APG. -/
def execDeferredBindApg (sq idx : Nat) (s : State) : Host.Outcome State Fault Refusal := .next (doDeferredBindApg sq idx s)
/-- APG_FAILURE. -/
def execApgFailure (k : Nat) (s : State) : Host.Outcome State Fault Refusal := .next (doApgFailure k s)

end Sys2Proof.Machine
end

