-- ==== Sys2Proof/Machine/Chains.lean ====
section
/-! DEFINITION. ADC input ports, filter chains and acquisitions (10_acquisition_and_filters.md, R340-R359). Stamps are in units of
250 ps unless a name says otherwise. -/

namespace Sys2Proof.Machine

/-! ### Results with qualifiers (R28) -/

/-- The status that a qualifier mask gives: its highest bit. -/
def qualStatus (q : Nat) : Nat := ((List.range 6).filter (fun n => q.testBit n)).getLastD 0

/-- The status of a completion with a qualifier mask (R28). -/
def withQual (st q : Nat) : Nat := if 0x10 ≤ st then st else max st (qualStatus q)

/-! ### Ports (R340-R342) -/

/-- ADC port n. -/
def State.port (s : State) (n : Nat) : Port := s.ports.getD n {}

/-- The state with a port changed. -/
def State.upPort (s : State) (n : Nat) (f : Port → Port) : State := { s with ports := s.ports.modify n f }

/-- Filter chain k. -/
def State.chain (s : State) (k : Nat) : FChain := s.chains.getD k {}

/-- The state with a chain changed. -/
def State.upChain (s : State) (k : Nat) (f : FChain → FChain) : State := { s with chains := s.chains.modify k f }

/-- Engine and place of chain k in the register map (R32). -/
def cIdx (k : Nat) : List Nat := [k / 12, k % 12]

/-- A field of FCHAIN_kk. -/
def State.cf (s : State) (f : RF) (k : Nat) : Nat := s.rf f (cIdx k)

/-- The window restarts empty (R344), and with it the intervals and the envelope (R347). A source that is quiet stays so (R350). -/
def State.restartWin (s : State) (k : Nat) : State :=
  s.upChain k (fun c => { c with win := [], fill := s.cf F.FCHAIN_CTL_LEN_M1 k + 1, env := 0, n := 0 })

/-- ALIGN (R342): the search begins on an enabled, locked port; an aligned port delivers nothing meanwhile. -/
def doAdcAlign (n : Nat) (v : W64) (s : State) : State :=
  if s.nCl ≤ n then s
  else
    let s1 := s.writeFields (F.CL_ADC_CFG_EN.off [n]) v
    if s1.rb F.CL_ADC_CFG_EN [n] && v.toNat.testBit 2 then
      s1.upPort n (fun p => { p with aligning := true, aligned := false })
    else s1

/-- The runs of consecutive sampling steps at which every frame equalled ALIGN_PAT, as first step and length: bit i of `m` is step i. The
32 steps span one bit period once, so a run does not wrap from step 31 to step 0 (DEDUCED, log entry 34). -/
def alignRuns (m : Nat) : List (Nat × Nat) :=
  let ok (i : Nat) : Bool := i < 32 && m.testBit i
  ((List.range 32).filter (fun i => ok i && (i = 0 || !ok (i - 1)))).map (fun i =>
    (i, ((List.range (32 - i)).takeWhile (fun j => ok (i + j))).length))

/-- The middle of the longest run of steps, where it has 8 steps or more (R342). Which of two runs of that length, and which of the two
middle steps of an even run, the spec leaves open: `free` chooses (log entry 34). -/
def phaseStep (m free : Nat) : Option Nat :=
  let rs := alignRuns m
  let best := (rs.map (·.2)).foldl max 0
  let longest := rs.filter (fun r => r.2 = best)
  match longest[free / 2 % max 1 longest.length]? with
  | some (i, len) => if len < 8 then none else some (i + (len - 1) / 2 + if len % 2 = 0 then free % 2 else 0)
  | none => none

/-- ADC_ALIGNMENT_COMPLETE (R342): bit i of `m0` and of `m1` says that at sampling step i all 1,024 frames of lane 0 and of lane 1
equalled ALIGN_PAT. -/
def doAdcAlignmentComplete (n m0 m1 t : Nat) (s0 : State) : State :=
  let s00 := s0.at t
  if !(s00.port n).aligning then s00
  else
    let s := s00.draw.draw
    match phaseStep m0 (Config.freeValue s00.freeCtr), phaseStep m1 (Config.freeValue (s00.freeCtr + 1)) with
    | some d0, some d1 =>
      let s1 := s.upPort n (fun p => { p with aligning := false, aligned := p.lock })
      let s2 := (s1.setRf F.CL_ADC_STAT_DLY0 [n] d0).setRf F.CL_ADC_STAT_DLY1 [n] d1
      (s2.restartWin (2 * n)).restartWin (2 * n + 1)
    | _, _ => (s.upPort n (fun p => { p with aligning := false, aligned := false })).setRf F.CL_ADC_STAT_ALIGN_FAIL [n] 1

/-! ### Acquisitions in progress (R353, R357-R359) -/

/-- The acquisition of a site. -/
def State.acq (s : State) (site : Nat) : Option Acq := s.acqs.find? (fun a => a.site = site)

/-- The state with an acquisition changed. -/
def State.upAcq (s : State) (site : Nat) (f : Acq → Acq) : State :=
  { s with acqs := s.acqs.map (fun a => if a.site = site then f a else a) }

/-- k of R357: chains of engine e with an acquisition running. -/
def State.acqK (s : State) (e : Nat) : Nat := ((List.range 12).filter (fun i => (s.chain (12 * e + i)).acq.isSome)).length

/-- One byte of credit. -/
def creditUnit : Nat := 110880000

/-- The smallest exponent at or above `de` whose need fits the share (R357): `p` the frame period in ps. -/
def deFit (budget k p mm : Nat) : Nat → Nat → Nat
  | 0, de => de
  | fuel + 1, de => if 20 ≤ de || 8000000 * (1 + mm) * k ≤ budget * p * 2 ^ de then de else deFit budget k p mm fuel (de + 1)

/-- DE of chain k by R357; without an acquisition, DEC_LOG2. -/
def State.deFor (s : State) (k : Nat) (mm : Bool) : Nat :=
  let d := s.cf F.FCHAIN_CTL_DEC_LOG2 k
  if (s.chain k).acq.isNone then d
  else deFit (s.rf F.FE_CAP_CTL_BUDGET [k / 12]) (s.acqK (k / 12)) (max 1 (s.port (k / 2)).period) (b2n mm) 21 d

/-- The credit of chain k brought to time t (R358). -/
def State.growChain (s : State) (k t : Nat) : State :=
  let b := s.rf F.FE_CAP_CTL_BUDGET [k / 12]
  let n := max 1 (s.acqK (k / 12))
  s.upChain k (fun c => { c with
    credit := min (4096 * creditUnit) (c.credit + (b * 27720 / n * (t - c.creditT) : Nat)), creditT := max t c.creditT })

/-- Where the intervals of a block end, 0.5 ps, with a frame period in ps (R356). -/
def Block.endAt (b : Block) (period : Nat) : Nat :=
  500 * b.t + 2 * (if b.mm then b.entries.length / 2 else b.entries.length) * 2 ^ b.de * period

/-- The bytes of a sample block (R356). -/
def blockBytes (k site seq dcest period : Nat) (gap trig : Bool) (b : Block) : List Byte :=
  leBytes 1 6 ++ leBytes 1 k ++ leBytes 2 site ++
    leBytes 1 (b2n b.mm + 2 * b2n b.frozen + 4 * b2n b.reduced + 8 * b2n gap + 16 * b2n trig) ++ leBytes 1 b.de ++
    leBytes 1 b.entries.length ++ leBytes 1 (if b.mm then 0xFF else b.det) ++ leBytes 8 (b.t / 4) ++ leBytes 6 b.vec ++ leBytes 2 dcest ++
    leBytes 4 period ++ leBytes 4 seq ++ padTo (b.entries.flatMap (leBytes 4)) 32

/-- A sample block with GAP (R356). -/
def SBlk.gapped (b : SBlk) : SBlk := { b with bytes := setFld b.bytes 4 1 (fld b.bytes 4 1 ||| 8) }

/-- The first block of chain k in a buffer carries GAP. -/
def gapFirst (k : Nat) : List SBlk → List SBlk
  | [] => []
  | b :: r => if b.chain = k then b.gapped :: r else b :: gapFirst k r

/-- A block of a chain is dropped or lost (R359): it counts in LOST, the acquisition carries REDUCED, and the chain's next block carries GAP:
for a block dropped at a full buffer the next to enter it, for one lost at its write the next in the buffer. -/
def State.loseBlock (s : State) (k site region : Nat) (written : Bool) : State :=
  let s1 := (s.upRegion region (fun r => { r with lostCount := satAdd 32 r.lostCount 1 })).upAcq site (fun a => { a with qual := a.qual ||| 4 })
  if written && (s1.sbufs.getD (k / 12) []).any (fun b => b.chain = k) then
    { s1 with sbufs := s1.sbufs.modify (k / 12) (gapFirst k) }
  else s1.upChain k (fun c => { c with gap := true })

/-- The open block of chain k closes at time t: it is paid for and enters the engine's buffer (R356, R358, R359). -/
def State.closeBlock (s00 : State) (k t : Nat) : State :=
  let s := s00.deliverDue true ((s00.chain k).acq.toList) (500 * t)
  let c0 := s.chain k
  match c0.blk, c0.acq.bind s.acq with
  | some b, some a =>
    if b.entries.isEmpty then s.upChain k (fun c => { c with blk := none })
    else
      let s1 := s.growChain k t
      let low := (s1.chain k).credit < (64 * creditUnit : Nat)
      let s2 := s1.upChain k (fun c => { c with
        credit := max (-(4096 * creditUnit : Nat)) (c.credit - (64 * creditUnit : Nat)), blk := none, seq := c.seq + 1
        deNext := if low then min 20 (c.deNext + 1) else c.deNext })
      if (s2.sbufs.getD (k / 12) []).length ≥ 256 then
        (s2.loseBlock k a.site a.region false).incRf F.FE_CAP_STAT_DROPPED [k / 12]
      else
        let est := ofSigned 16 ((c0.m.getD 0) / 2 ^ 24)
        let r := s.region a.region
        let p := (s.port (k / 2)).period
        let trig := r.any (fun r => r.stamp.any (fun x => 500 * b.t ≤ x && x < b.endAt p))
        let blk : SBlk := { region := a.region, site := a.site, chain := k, linear := r.any (fun r => r.linear && r.toldAt.all (fun a => a ≤ 500 * b.t)), t0 := 500 * b.t, t1 := b.endAt p
                            bytes := blockBytes k a.site c0.seq est p c0.gap trig b }
        let s3 := s2.upChain k (fun c => { c with gap := false })
        { s3 with sbufs := s3.sbufs.modify (k / 12) (fun l => l ++ [blk]) }
  | _, _ => s

/-- The share of engine e is about to change: every chain brings its credit to time t at the share so far (R358). -/
def State.settleChains (s : State) (e t : Nat) : State := (List.range 12).foldl (fun s i => s.growChain (12 * e + i) t) s

/-- k of an engine has changed: every chain with an acquisition takes a new DE from its next interval (R357). -/
def State.resplit (s : State) (e : Nat) : State :=
  (List.range 12).foldl (fun s i =>
    let k := 12 * e + i
    if (s.chain k).acq.isNone then s else s.upChain k (fun c => { c with deNext := s.deFor k c.mm })) s

/-- The engines of some chains. -/
def enginesOf (ks : List Nat) : List Nat := (List.range 2).filter (fun e => ks.any (fun k => k / 12 = e))

/-- Chains `ks` begin or end an acquisition at time t by `f`: k changes on their engines, and on these alone (R357, R358). -/
def State.reshare (s : State) (ks : List Nat) (t : Nat) (f : FChain → FChain) : State :=
  let es := enginesOf ks
  let s1 := es.foldl (fun s e => s.settleChains e t) s
  es.foldl (fun s e => s.resplit e) (ks.foldl (fun s k => s.upChain k f) s1)

/-- The record of a region's trigger, if it has fired since the region restarted (R354). -/
def Region.trigRecord (r : Region) : Option (List Byte) := if r.trigRec.isEmpty then none else some r.trigRec

/-- Bytes 32 to 127 of the result of an acquisition that has not begun (R411). -/
def noAcqBody : List Byte := zeros 24 ++ leBytes 8 (2 ^ 64 - 1) ++ leBytes 8 (2 ^ 64 - 1)

/-- The result of an acquisition (R354, R411, R495). -/
def State.acqResult (s : State) (a : Acq) (st stop : Nat) : Result :=
  let tr := (s.region a.region).bind Region.trigRecord
  let ones := 2 ^ 64 - 1
  { status := withQual st a.qual, qual := a.qual, aux := a.maxDe, val0 := a.blocks
    val1 := match tr with
      | some r => fld r 0 8
      | none => ones
    body := leBytes 4 a.blocks ++ leBytes 1 a.maxDe ++ leBytes 1 (b2n tr.isSome) ++ zeros 2 ++ leBytes 8 a.startAt ++ leBytes 8 stop ++
      leBytes 8 (a.redFirst.getD ones) ++ leBytes 8 (a.redLast.getD ones) ++ zeros 24 ++ tr.getD (zeros 32) }

/-- An acquisition that has stopped completes once its blocks are written: the final header, then the completion or the slot
(R282, R353). -/
def State.settleAcq (s : State) (site : Nat) : State :=
  match s.acq site with
  | none => s
  | some a =>
    match a.stopAt with
    | none => s
    | some (st, t) =>
      if s.sbufs.any (fun l => l.any (fun b => b.region = a.region)) then s
      else
        let s1 := (s.endHeader a.region).unprotEnd site true
        let a1 := if ((s1.region a.region).any (fun r => r.state = 4)) then { a with qual := a.qual ||| 2 } else a
        { s1 with acqs := s1.acqs.filter (fun x => x.site ≠ site) }.opEnd a.owner 2 (s1.acqResult a1 st t)

/-- What an interval yields (R347, R348): the values of its entries. -/
def intSqrt (v : Nat) : Nat → Nat → Nat
  | 0, r => r
  | b + 1, r => intSqrt v b (if (r + 2 ^ b) * (r + 2 ^ b) ≤ v then r + 2 ^ b else r)

/-- The entries of the interval in progress, as 32-bit words. -/
def FChain.entries (c : FChain) (det : Nat) : List Nat :=
  let fl := b2n c.sat * 2 ^ 24 + b2n c.fl * 2 ^ 25 + b2n c.hiX * 2 ^ 26 + b2n c.loX * 2 ^ 27
  let w (i : Int) : Nat := ofSigned 24 i + fl
  if c.mm then [w c.lo, w c.hi]
  else match det with
    | 0 => [w c.a]
    | 1 => [w c.hi]
    | 2 => [w (intSqrt (c.sq / max 1 c.n) 35 0 : Nat)]
    | _ => [w (c.env : Nat)]

/-- The interval of chain k that began at or after its acquisition's start puts its entries into a block (R353, R356); a block of another
detector closes first, so that DET is right for all its entries (DESIGN CHOICE, log entry 40). -/
def State.addEntries (s0 : State) (k t : Nat) : State :=
  let now := s0.cf F.FCHAIN_CTL_DET k
  let s := if (s0.chain k).blk.any (fun b => !b.mm && b.det ≠ now) then s0.closeBlock k t else s0
  let c := s.chain k
  match c.acq.bind s.acq with
  | none => s
  | some a =>
    if c.n = 0 || c.t0 < 4 * a.startAt then s
    else
      let det := s.cf F.FCHAIN_CTL_DET k
      let es := c.entries det
      let red := s.cf F.FCHAIN_CTL_DEC_LOG2 k < c.de
      let g := (s.entSlices (s.entOf a.site)).find? (fun g => g / 4 = k / 2)
      let fresh : Block := { t := c.t0, vec := vecOr (g.bind (fun g => s.vecAt g (500 * c.t0))), de := c.de, mm := c.mm, det := det
                             reduced := red }
      let s1 := s.upChain k (fun c =>
        let b := c.blk.getD fresh
        { c with blk := some { b with entries := b.entries ++ es, frozen := b.frozen || c.fz } })
      let s2 := s1.upAcq a.site (fun a => { a with
        maxDe := max a.maxDe c.de
        qual := if red then a.qual ||| 4 else a.qual
        redFirst := if red then some (min (c.t0 / 4) (a.redFirst.getD (c.t0 / 4))) else a.redFirst
        redLast := if red then some (max (c.t0 / 4) (a.redLast.getD (c.t0 / 4))) else a.redLast })
      if ((s2.chain k).blk.any (fun b => 8 ≤ b.entries.length)) then s2.closeBlock k t else s2

/-- A supply dip in progress began by DTIME t (R671, R673). -/
def State.dipAt (s : State) (t : Nat) : Bool := s.power.dips.any (fun d => d.2 ≤ t)

/-- An acquisition stops at DTIME t: open intervals and blocks close (R353). -/
def State.stopAcq (s : State) (site st t : Nat) : State :=
  match s.acq site with
  | none => s
  | some a =>
    if a.stopAt.isSome then s.upAcq site (fun a => { a with stopAt := a.stopAt.map (fun x => (max x.1 st, x.2)) })
    else if !a.running then
      let s1 := { s with acqs := s.acqs.filter (fun x => x.site ≠ site) }
      s1.opEnd a.owner 2 (s1.acqResult { a with startAt := t } st t)
    else
      let ks := bitList 24 a.chains
      let s1 := ks.foldl (fun s k => (s.addEntries k (4 * t)).closeBlock k (4 * t)) s
      let s3 := (s1.reshare ks (4 * t) (fun c => { c with acq := none, blk := none })).deliverRest true [site]
      let q := if s3.dipAt t then a.qual ||| 8 else a.qual
      (s3.upAcq site (fun a => { a with running := false, stopAt := some (st, t), qual := a.qual ||| q })).settleAcq site

/-- An acquisition begins at DTIME t (R353, R355, R357, R358). -/
def State.startAcq (s : State) (site t : Nat) : State :=
  match s.acq site with
  | none => s
  | some a =>
    let ks := bitList 24 a.chains
    let s1 := (s.upRegion a.region (fun r => r.restart)).writeHeader a.region
    let s2 := s1.upAcq site (fun a => { a with running := true, startAt := t })
    s2.reshare ks (4 * t) (fun c => { c with
      acq := some site, credit := (4096 * creditUnit : Nat), creditT := 4 * t, blk := none, seq := 0, gap := false })

/-! ### ACQUIRE (R351, R352) -/

/-- What an ACQUIRE asks for. -/
structure AcqReq where
  site : Nat
  withBurst : Bool
  region : Nat
  chains : Nat
  duration : Nat
  start : Nat
  deriving DecidableEq, Repr

/-- The status of an ACQUIRE by the checks of R352, in order; 0 where all pass. `form` says its reserved fields are 0. -/
def State.acqRefusal (s : State) (q : AcqReq) (form : Bool) : Nat :=
  let ks := bitList 24 q.chains
  if ks.any (fun k => s.nChain ≤ k || s.chainsBad.contains k) then St.absent
  else if (s.site q.site).any (fun x => s.blocked (.site x.id) || x.blocked) then St.blocked
  else if !s.idUsed q.region then St.noObject
  else match s.site q.site with
    | none => St.bad
    | some x =>
      if !form || q.chains = 0 || q.chains &&& x.chain ≠ q.chains ||
          !(s.region q.region).any (fun r => r.kind = 3 && r.site = q.site) || (s.acq q.site).isSome ||
          ks.any (fun k => s.cf F.FCHAIN_CTL_EN k = 0 || !(s.port (k / 2)).aligned) || (q.duration = 0 && !q.withBurst) then St.bad else 0

/-- Set up an acquisition for its owner; it begins at once if its start is not ahead (R353). -/
def State.setupAcq (s : State) (q : AcqReq) (o : Owner) : State :=
  let a : Acq := { site := q.site, region := q.region, chains := q.chains, withBurst := q.withBurst, duration := q.duration
                   start := q.start, owner := o, setAt := s.dtime }
  let s1 := { s with acqs := s.acqs ++ [a] }
  if q.withBurst || s.dtime < q.start then s1 else s1.startAcq q.site s.dtime

/-- ACQUIRE (R352). -/
def doAcquire (sq idx : Nat) (s : State) : State :=
  s.withDesc sq idx 0x28 (fun d =>
    let b := d.bytes
    let q : AcqReq := { site := fld b 16 2, withBurst := (fld b 18 1).testBit 0, region := fld b 20 4, chains := fld b 24 3
                        duration := fld b 32 8, start := fld b 40 8 }
    let st := s.acqRefusal q (fld b 18 1 < 2 && zeroes b 19 1 && zeroes b 27 5 && zeroes b 48 16)
    if st ≠ 0 then s.complete sq idx { status := st, body := noAcqBody } else (s.begin sq idx).setupAcq q (.desc sq idx))

/-- ACQUISITION_START (R353): START is reached. -/
def doAcquisitionStart (site t : Nat) (s : State) : State :=
  match s.acq site with
  | none => s
  | some a => if a.running || a.withBurst || a.stopAt.isSome || t < a.start then s else (s.at t).startAcq site t

/-- ACQUISITION_STOP (R353): DURATION has passed. -/
def doAcquisitionStop (site t : Nat) (s : State) : State :=
  match s.acq site with
  | none => s
  | some a => if !a.running || a.withBurst || t < a.startAt + a.duration then s else (s.at t).stopAcq site St.ok t

/-- SAMPLE_BLOCK_WRITE (R359, R281): the engine writes its oldest block, which covers a granule whole (R530); it waits for a channel under
repair (R548). -/
def doSampleBlockWrite (e : Nat) (ue : Bool) (s : State) : State :=
  match s.sbufs.getD e [] with
  | [] => s
  | b :: rest =>
    let s0 := { s with sbufs := s.sbufs.set e rest }
    match s.region b.region with
    | none => s0
    | some r =>
      if r.lost then (s0.loseBlock b.chain b.site b.region true).settleAcq b.site
      else if s.waits r.chan then s
      else
        let (slot, r1, _) := r.place b.linear (!ue)
        let s1 := s0.upRegion b.region (fun _ => r1)
        let s2 := match slot with
          | none => s1
          | some k =>
            let off := 64 + 64 * k
            if ue then (s1.loseBlock b.chain b.site b.region true).mergeError (devAddr r.chan (r.base + off)) (0x60 + e)
            else
              ((s1.memWrite r.chan (r.base + off) b.bytes).mirrorCap r (.block (b.t0 / 2000) (b.t1 / 2000)) off b.bytes).upAcq b.site
                (fun a => { a with blocks := satAdd 32 a.blocks 1 })
        let s3 := if r1.state ≠ r.state then s2.writeHeader b.region else s2
        if r.state ≠ r1.state && 3 ≤ r1.state && ((s3.acq b.site).any (fun a => a.running)) then s3.stopAcq b.site St.ok s3.dtime
        else s3.settleAcq b.site

/-! ### DUTPWR_EN (R348, R350, R609) -/

/-- Drive DUTPWR_EN of cluster n; a rising edge starts the power-up and recovery windows of its chains. -/
def State.setDutpwr (s : State) (n : Nat) (on : Bool) : State :=
  let old := (s.pe.getD n {}).dutpwr
  let s1 := { s with pe := s.pe.modify n (fun p => { p with dutpwr := on }) }
  if old = on then s1
  else
    let s2 := s1.mirror { kind := 9, key := [n, b2n on] }
    if !on then s2
    else [2 * n, 2 * n + 1].foldl (fun s k =>
      let up := s.dtime + 1000 * s.rf F.FE_MM_CTL_POWERUP_US [k / 12]
      let rec' := s.dtime + 1000 * s.rf F.FE_MM_CTL_RECOVER_US [k / 12]
      s.upChain k (fun c => { c with
        powUntil := some up, recUntil := if c.tripped then some rec' else c.recUntil, tripped := false })) s2

/-- The causes of minimum-maximum reduction on chain k: power-up, trip, self-test, forced (R348, R376). -/
def State.mmCause (s : State) (k : Nat) : Nat :=
  let c := s.chain k
  b2n (c.powUntil.any (fun t => s.dtime < t)) + 2 * b2n (c.tripped || c.recUntil.any (fun t => s.dtime < t)) +
    4 * s.cf F.FCHAIN_CTL_SELFTEST k + 8 * s.cf F.FCHAIN_CTL_FORCE_MM k

/-! ### A sample (R343-R350) -/

/-- a ÷ b to the nearest, ties away from zero (R344). -/
def roundDiv (a : Int) (b : Nat) : Int := if a < 0 then -((2 * -a + b) / (2 * b)) else (2 * a + b) / (2 * b)

/-- The test signal at a phase (R349). -/
def testSignal (p : Nat) : Int := if p ≤ 255 then -32768 + 256 * p else 32512 - 256 * ((p : Int) - 255)

/-- A chain takes samples (R342, R349). -/
def State.chainRuns (s : State) (k : Nat) : Bool :=
  k < s.nChain && !s.chainsBad.contains k && s.islUp 26 && s.islUp (k / 2) && s.cf F.FCHAIN_CTL_EN k = 1 && s.domOn (93 + k / 12) && s.domOn (5 * (k / 2) + 4) &&
    ((s.port (k / 2)).aligned && s.rb F.CL_ADC_CFG_EN [k / 2] || s.cf F.FCHAIN_CTL_SELFTEST k = 1)

/-- The DC estimate after a TRACK update: (x - m) × 2^-DCK, to one of the two neighbouring units of m (the spec states no rounding
of the update: `free` chooses, log entry 22). -/
def trackM (m x : Int) (dck : Nat) (free : Nat) : Int :=
  let d := x * 2 ^ 24 - m
  m + d / 2 ^ dck + (if d % 2 ^ dck = 0 then 0 else (free % 2 : Nat))

/-- A supply trip (R350). -/
def State.trip (s : State) (k : Nat) : State :=
  let s1 := ((s.setRf F.FCHAIN_STAT_TRIP (cIdx k) 1).incRf F.FCHAIN_STAT_TRIPS (cIdx k)).upChain k (fun c => { c with tripped := true })
  let s2 := s1.setDutpwr (k / 2) false
  { s2 with paddock := { s2.paddock with
      powers := s2.paddock.powers.map (fun p => if p.on && p.phase = 1 && p.mask.testBit k then { p with tripped := true } else p) } }

/-- A new interval begins with the sample at time t: changes of reduction and DE take effect, and close the block (R347, R348,
R356, R357). -/
def State.beginInterval (s : State) (k t : Nat) : State :=
  let c := s.chain k
  if c.n ≠ 0 then s
  else
    let mm := s.mmCause k ≠ 0
    let next := if mm ≠ c.mm || c.acq.isNone then s.deFor k mm else c.deNext
    let s1 := if mm ≠ c.mm || next ≠ c.de then s.closeBlock k t else s
    let next1 := if (s1.chain k).deNext = c.deNext then next else max next (s1.chain k).deNext
    s1.upChain k (fun c => { c with
      mm := mm, de := next1, deNext := next1, t0 := t, sq := 0, sat := false, fl := false, hiX := false, loX := false, fz := false })

/-- A chain in TRACK acts as FROZEN: FREEZE_BURST is set while a burst of its site runs (R343). -/
def State.dcHeld (s : State) (k : Nat) : Bool := (s.chain k).frozen && s.cf F.FCHAIN_CTL_FREEZE_BURST k = 1

/-- The thresholds on the latest A (R350), tested at every sample outside FILL. -/
def State.thresholds (s : State) (k t : Nat) : State :=
  let c := s.chain k
  let hi := toSigned 24 (s.cf F.FCHAIN_THR_HI k)
  let lo := toSigned 24 (s.cf F.FCHAIN_THR_LO k)
  let hy : Int := (s.cf F.FCHAIN_CTL_HYST k : Nat)
  let hq := c.hiQuiet && !(c.a < hi - hy)
  let lq := c.loQuiet && !(lo + hy < c.a)
  let up := !hq && hi < c.a
  let down := !lq && c.a < lo
  let s1 := s.upChain k (fun c => { c with hiQuiet := hq || up, loQuiet := lq || down, hiX := c.hiX || up, loX := c.loX || down })
  let s2 := if up then s1.raise (k / 2) (40 + 2 * (k % 2)) (500 * t) else s1
  let s3 := if down then s2.raise (k / 2) (41 + 2 * (k % 2)) (500 * t) else s2
  if up && s.cf F.FCHAIN_CTL_TRIP_EN k = 1 then s3.trip k else s3

/-- A rising edge of FCLK at time t: a port in service measures its frame period (R372), whatever its chains do. -/
def State.framed (s : State) (n t : Nat) : State :=
  if !(s.port n).lock then s
  else s.upPort n (fun p => match p.last with
    | some l => if l < t then { p with last := some t, period := 250 * (t - l) } else p
    | none => { p with last := some t })

/-- The port of chain k takes the frames on FCLK (R340, R342). -/
def State.portRuns (s : State) (k : Nat) : Bool :=
  k < s.nChain && s.islUp (k / 2) && s.domOn (5 * (k / 2) + 4) && s.rb F.CL_ADC_CFG_EN [k / 2]

/-- The code of a sample as the port reads it (R372). -/
def State.adcCode (s : State) (n code : Nat) : Int := toSigned 16 (if s.rb F.CL_ADC_CFG_FMT [n] then code ^^^ 0x8000 else code)

/-- What the port does with a frame whose edge lies at t: its period, and SAT of the stream where an aligned port meets a full-scale code
(R342, R345, R372). -/
def State.portFrame (s0 : State) (k code t : Nat) : State :=
  if !s0.portRuns k then s0
  else
    let n := k / 2
    let s := (s0.at (t / 4)).framed n t
    let x := s.adcCode n code
    if (s.port n).aligned && (x = 32767 || x = -32768) then
      s.setRf (if k % 2 = 0 then F.CL_ADC_STAT_SAT0 else F.CL_ADC_STAT_SAT1) [n] 1
    else s

/-- ADC_SAMPLE (R341, R343-R350): the frame clock edge of the sample lies at t; the port takes it, and the chain if it runs. -/
def doAdcSample (k code t : Nat) (s000 : State) : State :=
  let s00 := s000.portFrame k code t
  if !s00.chainRuns k then s00
  else
    let n := k / 2
    let s0 := s00.at (t / 4)
    let st := t - s0.rf F.CL_ADC_CFG_LAT [n]
    let selftest := s0.cf F.FCHAIN_CTL_SELFTEST k = 1
    let c0 := s0.chain k
    let x : Int := if selftest then testSignal c0.test else s0.adcCode n code
    let sat := x = 32767 || x = -32768
    let mode := s0.cf F.FCHAIN_CTL_DCMODE k
    let m0 := c0.m.getD (x * 2 ^ 24)
    let track := mode = 1 && !s0.dcHeld k
    let s1 := if track then s0.draw else s0
    let m1 := if track then trackM m0 x (s0.cf F.FCHAIN_CTL_DCK k) (Config.freeValue s0.freeCtr) else m0
    let y : Int := if mode = 0 then x else x - roundDiv m0 (2 ^ 24)
    let len := s0.cf F.FCHAIN_CTL_LEN_M1 k + 1
    let win := (y :: c0.win).take len
    let a := roundDiv (128 * win.sum) win.length
    let mag : Nat := a.natAbs
    let env := max mag (c0.env - c0.env / 2 ^ s0.cf F.FCHAIN_CTL_ENV_K k)
    let fill := c0.fill ≠ 0
    let s2 := if sat then s1.setRf F.FCHAIN_STAT_SAT (cIdx k) 1 else s1
    let s4 := s2.beginInterval k st
    let s5 := s4.upChain k (fun c => { c with
      m := some m1, win := win, a := a, env := env, fill := c.fill - 1, test := if selftest then (c.test + 1) % 510 else c.test
      lo := if c.n = 0 then a else min c.lo a, hi := if c.n = 0 then a else max c.hi a
      sq := c.sq + mag * mag, n := c.n + 1, sat := c.sat || sat, fl := c.fl || fill, fz := c.fz || mode ≠ 0 && !track })
    let s6 := if fill then s5 else s5.thresholds k st
    let s7 := { s6 with paddock := { s6.paddock with powers := s6.paddock.powers.map (fun p =>
      if p.on && p.chain = k && p.phase = 1 then { p with aMax := some (max (p.aMax.getD a) a) } else p) } }
    let c := s7.chain k
    if 2 ^ c.de ≤ c.n then (s7.addEntries k st).upChain k (fun c => { c with n := 0 }) else s7

/-- MM_WINDOW_END (R348): POWERUP_US or RECOVER_US has passed. -/
def doMmWindowEnd (k t : Nat) (s : State) : State :=
  (s.at t).upChain k (fun c => { c with
    powUntil := c.powUntil.filter (fun u => t < u), recUntil := c.recUntil.filter (fun u => t < u) })

/-! ### FCLK (R342) -/

/-- No rising edge of FCLK has come for four measured frame periods at DTIME t; a port that has measured none has no such bound. -/
def Port.silent (p : Port) (t : Nat) : Bool := match p.last with
  | some l => p.period = 0 || 250 * l + 4 * p.period ≤ 1000 * t
  | none => true

/-- FCLK_LOSS: LOSS is set, LOCK and ALIGNED clear, ADC_PORT is reported, and acquisitions on the port's chains end. -/
def doFclkLoss (n t : Nat) (s0 : State) : State :=
  if !(s0.port n).lock || !s0.islUp n || !(s0.port n).silent t then s0
  else
    let s := s0.at t
    let s1 := (s.upPort n (fun p => { p with lock := false, aligned := false, aligning := false, last := none })).setRf F.CL_ADC_STAT_LOSS [n] 1
    let s2 := (s1.onset 13 n 0 1).onset 13 n 1 1
    ((s2.acqs.filter (fun a => a.running && (a.chains.testBit (2 * n) || a.chains.testBit (2 * n + 1)))).map Acq.site).foldl
      (fun s i => s.stopAcq i St.hwFault t) s2

/-- FCLK_RETURN (R342): the port PLL locks again; the port stays unaligned. -/
def doFclkReturn (n t : Nat) (s : State) : State :=
  if (s.port n).lock || !s.islUp n || !s.rb F.CL_ADC_CFG_EN [n] then s
  else (((s.at t).upPort n (fun p => { p with lock := true })).condOff 13 n 0).condOff 13 n 1

/-! ### Chain registers (R344, R346, R375) -/

/-- The fields of FCHAIN_kk_CTL that a write sets, each by its own rule (R375). -/
def State.writeChainCtl (s : State) (k : Nat) (v : W64) : State :=
  let i := cIdx k
  let keep (f : RF) (ok : Nat → Bool) (s : State) : State :=
    let x := fget v f.lo f.w
    if ok x then s.setRf f i x else s
  let all (_ : Nat) : Bool := true
  let s1 := (keep F.FCHAIN_CTL_EN all <| keep F.FCHAIN_CTL_DCMODE (· ≠ 3) <| keep F.FCHAIN_CTL_FREEZE_BURST all <|
    keep F.FCHAIN_CTL_DCK (fun x => 4 ≤ x && x ≤ 24) <| keep F.FCHAIN_CTL_SELFTEST all <| keep F.FCHAIN_CTL_FORCE_MM all <|
    keep F.FCHAIN_CTL_TRIP_EN all <| keep F.FCHAIN_CTL_LEN_M1 all <| keep F.FCHAIN_CTL_DET all <|
    keep F.FCHAIN_CTL_DEC_LOG2 (· ≤ 20) <| keep F.FCHAIN_CTL_ENV_K (fun x => 1 ≤ x && x ≤ 20) <| keep F.FCHAIN_CTL_HYST all s)
  let p := fget v F.FCHAIN_CTL_PRESET.lo 3
  let s2 := match p with
    | 1 => (s1.setRf F.FCHAIN_CTL_LEN_M1 i 15).setRf F.FCHAIN_CTL_DEC_LOG2 i 2
    | 2 => (s1.setRf F.FCHAIN_CTL_LEN_M1 i 127).setRf F.FCHAIN_CTL_DEC_LOG2 i 5
    | 3 => (s1.setRf F.FCHAIN_CTL_LEN_M1 i 1023).setRf F.FCHAIN_CTL_DEC_LOG2 i 8
    | 4 => (s1.setRf F.FCHAIN_CTL_LEN_M1 i 4095).setRf F.FCHAIN_CTL_DEC_LOG2 i 10
    | _ => s1
  let rise := s.cf F.FCHAIN_CTL_EN k = 0 && s2.cf F.FCHAIN_CTL_EN k = 1
  let s3 := if rise then s2.upChain k (fun c => { c with m := none, test := 0 }) else s2
  let s4 := if s.cf F.FCHAIN_CTL_SELFTEST k = 0 && s3.cf F.FCHAIN_CTL_SELFTEST k = 1 then
    s3.upChain k (fun c => { c with test := 0 }) else s3
  -- any write of LEN_M1 restarts the window: a write of this register, and a preset
  s4.restartWin k

/-- PRESET (R346). -/
def doChainPreset (k : Nat) (v : W64) (s : State) : State := if k < s.nChain then s.writeChainCtl k v else s

/-- FCHAIN_ENABLE (R343, R344, R347). -/
def doFchainEnable (k : Nat) (v : W64) (s : State) : State := if k < s.nChain then s.writeChainCtl k v else s

/-! ### Commands -/

/-- ALIGN. -/
def execAdcAlign (n : Nat) (v : W64) (s : State) : Host.Outcome State Fault Refusal :=
  .next (s.busWrite (F.CL_ADC_CFG_EN.off [n]) (doAdcAlign n v))
/-- ADC_ALIGNMENT_COMPLETE. -/
def execAdcAlignmentComplete (n m0 m1 t : Nat) (s : State) : Host.Outcome State Fault Refusal := .next (doAdcAlignmentComplete n m0 m1 t s)
/-- ACQUIRE. -/
def execAcquire (sq idx : Nat) (s : State) : Host.Outcome State Fault Refusal := .next (doAcquire sq idx s)
/-- ACQUISITION_START. -/
def execAcquisitionStart (site t : Nat) (s : State) : Host.Outcome State Fault Refusal := .next (doAcquisitionStart site t s)
/-- ACQUISITION_STOP. -/
def execAcquisitionStop (site t : Nat) (s : State) : Host.Outcome State Fault Refusal := .next (doAcquisitionStop site t s)
/-- SAMPLE_BLOCK_WRITE. -/
def execSampleBlockWrite (e : Nat) (ue : Bool) (s : State) : Host.Outcome State Fault Refusal := .next (doSampleBlockWrite e ue s)
/-- ADC_SAMPLE. -/
def execAdcSample (k code t : Nat) (s : State) : Host.Outcome State Fault Refusal := .next (doAdcSample k code t s)
/-- MM_WINDOW_END. -/
def execMmWindowEnd (k t : Nat) (s : State) : Host.Outcome State Fault Refusal := .next (doMmWindowEnd k t s)
/-- FCLK_LOSS. -/
def execFclkLoss (n t : Nat) (s : State) : Host.Outcome State Fault Refusal := .next (doFclkLoss n t s)
/-- FCLK_RETURN. -/
def execFclkReturn (n t : Nat) (s : State) : Host.Outcome State Fault Refusal := .next (doFclkReturn n t s)
/-- PRESET. -/
def execChainPreset (k : Nat) (v : W64) (s : State) : Host.Outcome State Fault Refusal :=
  .next (s.busWrite (F.FCHAIN_CTL_EN.off (cIdx k)) (doChainPreset k v))
/-- FCHAIN_ENABLE. -/
def execFchainEnable (k : Nat) (v : W64) (s : State) : Host.Outcome State Fault Refusal :=
  .next (s.busWrite (F.FCHAIN_CTL_EN.off (cIdx k)) (doFchainEnable k v))

end Sys2Proof.Machine
end

