-- ==== Sys2Proof/Machine/Bench.lean ====
section
/-! DEFINITION. What prepares the pins: timing sets (R226-R230, R212), drift tracking (R240-R243), deskew (R246), the PE control
port (R425-R427) and calibration (R247-R253). -/

namespace Sys2Proof.Machine

/-! ### Timing sets -/

/-- TSET_MAX of the admitted bursts with a part in cluster n, each with the PF of its admission (R185, R212). -/
def State.tsetUsers (s : State) (n : Nat) : List (Nat × Nat) :=
  s.heldParts.flatMap (fun b => (b.2.filter (fun p => p.slice / 4 = n)).filterMap (fun p =>
    (kGet s.objs b.1).map (fun o => ((s.hdr o).tsetMax, p.pf))))

/-- A load of set k with a period waits: an admitted burst would find its PF shortened (R212). -/
def State.tsetHeld (s : State) (n k period : Nat) : Bool := (s.tsetUsers n).any (fun u => k ≤ u.1 && period < u.2)

/-- An unload of set k waits: an admitted burst may select it (R230). -/
def State.tsetUsed (s : State) (n k : Nat) : Bool := (s.tsetUsers n).any (fun u => k ≤ u.1)

/-- A timing set is stored (R229). -/
def State.putTset (s : State) (n k : Nat) (bs : List Byte) : State :=
  s.upCl n (fun c => { c with tsets := kSet c.tsets k { num := k, bytes := bs } })

/-- A timing set is removed. -/
def State.delTset (s : State) (n k : Nat) : State := s.upCl n (fun c => { c with tsets := kDel c.tsets k })

/-- A descriptor with a timing-set fault (R227, R495). -/
def tsetBad (code chan : Nat) : Result := { status := St.bad, reason := code, aux := chan }

/-- LOAD_TSET (R226-R229). -/
def doLoadTset (sq idx : Nat) (src : Option (List Byte)) (s : State) : State :=
  s.withDesc sq idx 0x10 (fun d =>
    let b := d.bytes
    let n := fld b 16 1
    let k := fld b 17 1
    if n < 12 && s.clAbsent n then s.finish sq idx St.absent
    else if 12 ≤ n || 64 ≤ k || fld b 24 8 % 64 ≠ 0 || !zeroes b 18 6 || !zeroes b 32 32 then s.complete sq idx (tsetBad 0x0A 0xFF)
    else match s.hostRead src with
      | none => s.readFailed sq idx
      | some bs0 =>
        let bs := padTo bs0 576
        match tsCheck bs with
        | some (code, chan) => s.complete sq idx (tsetBad code chan)
        | none =>
          if s.tsetHeld n k (tsPeriod bs) then s.wait { sq := sq, idx := idx, kind := .tsetLoad n k bs }
          else (s.putTset n k bs).finish sq idx St.ok)

/-- DEFERRED_TSET_LOAD (R212). -/
def doDeferredTsetLoad (sq idx : Nat) (s : State) : State :=
  match s.waitOf sq idx with
  | some { kind := .tsetLoad n k bs, .. } =>
    if s.tsetHeld n k (tsPeriod bs) then s else ((s.unwait sq idx).putTset n k bs).finish sq idx St.ok
  | _ => s

/-- An UNLOAD_TSET on its turn (R230). -/
def State.unloadTset (s : State) (sq idx n k : Nat) : State :=
  if (kGet (s.cl n).tsets k).isNone then s.finish sq idx St.bad else (s.delTset n k).finish sq idx St.ok

/-- UNLOAD_TSET (R226, R227, R230). -/
def doUnloadTset (sq idx : Nat) (s : State) : State :=
  s.withDesc sq idx 0x11 (fun d =>
    let b := d.bytes
    let n := fld b 16 1
    let k := fld b 17 1
    if n < 12 && s.clAbsent n then s.finish sq idx St.absent
    else if 12 ≤ n || 64 ≤ k || !zeroes b 18 46 then s.complete sq idx (tsetBad 0x0A 0xFF)
    else if (kGet (s.cl n).tsets k).isSome && s.tsetUsed n k then s.wait { sq := sq, idx := idx, kind := .tsetUnload n k }
    else s.unloadTset sq idx n k)

/-- DEFERRED_TSET_UNLOAD (R230). -/
def doDeferredTsetUnload (sq idx : Nat) (s : State) : State :=
  match s.waitOf sq idx with
  | some { kind := .tsetUnload n k, .. } => if s.tsetUsed n k then s else (s.unwait sq idx).unloadTset sq idx n k
  | _ => s

/-! ### Drift tracking -/

/-- The state with the drift tracker of cluster n changed. -/
def State.upDrift (s : State) (n : Nat) (f : Drift → Drift) : State := s.upCl n (fun c => { c with drift := f c.drift })

/-- The tracker begins to acquire (R241), if EN is 1 and the timing domain is on. -/
def State.acquireDrift (s : State) (n : Nat) : State :=
  if s.rb F.CL_DRIFT_CTL_EN [n] && s.domOn (5 * n + 1) then
    s.upDrift n (fun d => { d with acq := true, acqStart := s.dtime, locked := false })
  else s

/-- Trims move any edge by at most 0.5 ps, one unit: the fine part of an edge is below 500 units (R240). -/
def smallMove (dg dO : Int) : Bool := dO.natAbs ≤ 1 && (dO * 1000000 + dg * 500).natAbs ≤ 1000000

/-- One step of the trims towards measured values (R240): all the way where R240 allows it; otherwise the split between gain and
offset is free, within R240 and towards the measurement, and some trim moves. -/
def driftStep (dg dO : Int) (free : Nat) : Int × Int :=
  if smallMove dg dO then (dg, dO)
  else
    let o : Int := if dO = 0 || (free % 2 = 0 && dg ≠ 0) then 0 else if dO < 0 then -1 else 1
    let lo := if dg < 0 then max dg (-2000 - 2000 * o) else if o = 0 && 0 < dg then 1 else 0
    let hi := if 0 < dg then min dg (2000 - 2000 * o) else if o = 0 && dg < 0 then -1 else 0
    (lo + ((free / 2) % ((hi - lo).toNat + 1) : Nat), o)

/-- A measurement of the reference loop: the trims move, limited by R243 (R240, R241). -/
def State.driftUpdate (s : State) (n : Nat) (gain offset : Int) (whole : Bool) : State :=
  let d := (s.cl n).drift
  let g := clampInt (-30000) 30000 gain
  let o := clampInt (-128) 128 offset
  let (dg, dO) := if whole then (g - d.gain, o - d.offset)
    else driftStep (g - d.gain) (o - d.offset) (Config.freeValue s.freeCtr)
  let agree := smallMove (gain - (d.gain + dg)) (offset - (d.offset + dO))
  let s1 := s.draw.upDrift n (fun d => { d with gain := d.gain + dg, offset := d.offset + dO, locked := agree, last := s.dtime })
  if g = gain && o = offset then s1.condOff 10 n 0
  else (s1.setRf F.CL_DRIFT_STAT_RANGE [n] 1).onset 10 n 0 (if g = gain then 2 else 1)

/-- DRIFT_MEASUREMENT (R240): INTERVAL has passed. -/
def doDriftMeasurement (n : Nat) (gain offset : Int) (t : Nat) (s : State) : State :=
  let d := (s.cl n).drift
  if n ≥ s.nCl || !s.islUp n || !s.rb F.CL_DRIFT_CTL_EN [n] || !s.domOn (5 * n + 1) || d.acq ||
      t < d.last + 1000 * s.rf F.CL_DRIFT_CTL_INTERVAL [n] then s
  else (s.at t).driftUpdate n gain offset false

/-- DRIFT_ACQUIRE_UPDATE (R241): 1 µs has passed. -/
def doDriftAcquireUpdate (n : Nat) (gain offset : Int) (t : Nat) (s0 : State) : State :=
  let d := (s0.cl n).drift
  if !d.acq || !s0.islUp n || !s0.domOn (5 * n + 1) || t < d.acqStart || (d.acqStart < d.last && t < d.last + 1000) then s0
  else
    let s := (s0.at t).driftUpdate n gain offset true
    if (s.cl n).drift.locked || d.acqStart + 20000 ≤ t then s.upDrift n (fun d => { d with acq := false }) else s

/-- An acquisition that runs to its end within the command (R241): the measurement it ends at is free. -/
def State.acquireWhole (s : State) (n : Nat) : State :=
  if s.rb F.CL_DRIFT_CTL_EN [n] && s.domOn (5 * n + 1) then
    let k := s.freeCtr
    let free (j : Nat) : Int := (Config.freeValue (k + j) : Int) - Config.freeValue (k + j + 1)
    ({ s with freeCtr := k + 4 }).driftUpdate n (free 0) (free 2) true
  else s

/-- A write of CL_n_DRIFT_CTL (R241, R242, R257). -/
def State.writeDriftCtl (s : State) (n : Nat) (v : W64) : State :=
  let off := F.CL_DRIFT_CTL_EN.off [n]
  let was := s.rb F.CL_DRIFT_CTL_EN [n]
  let s1 := s.writeFields off v
  let on := s1.rb F.CL_DRIFT_CTL_EN [n]
  let reset := v.toNat.testBit 1
  let s2 := if reset then s1.upDrift n (fun d => { d with gain := d.calGain, offset := d.calOffset }) else s1
  if !on then s2.upDrift n (fun d => { d with acq := false, locked := false })
  else if !was || reset then s2.acquireDrift n
  else s2

/-- DRIFT_ENABLE (R241). -/
def doDriftEnable (n : Nat) (v : W64) (s : State) : State := if n < s.nCl then s.writeDriftCtl n v else s
/-- DRIFT_DISABLE (R242). -/
def doDriftDisable (n : Nat) (v : W64) (s : State) : State := if n < s.nCl then s.writeDriftCtl n v else s
/-- RESET_TRIM (R242). -/
def doResetTrim (n : Nat) (v : W64) (s : State) : State := if n < s.nCl then s.writeDriftCtl n v else s

/-! ### Deskew -/

/-- DESKEW_WRITE (R246, R262, R263): a vector takes the values that stand when it starts, so a write between two vectors of the owning
slice takes effect at the boundary between them. -/
def doDeskewWrite (n c : Nat) (second : Bool) (v : W64) (s : State) : State :=
  if n < s.nCl && c < 16 then s.writeFields ((if second then F.CL_DSK2_RISE_TRIM else F.CL_DSK_DSKD).off [n, c]) v else s

/-! ### The PE control port -/

/-- The port of cluster n. -/
def State.pePort (s : State) (n : Nat) : PePort := s.pe.getD n {}

/-- The state with a port changed. -/
def State.upPe (s : State) (n : Nat) (f : PePort → PePort) : State := { s with pe := s.pe.modify n f }

/-- A port runs: EN is 1 and its companion-port domain is on (R403, R448). -/
def State.peUp (s : State) (n : Nat) : Bool := n < s.nCl && s.rb F.CL_PE_CFG_EN [n] && s.domOn (5 * n + 4)

/-- Queue a list on a port; an issue that finds the queue full waits for room (R426). -/
def State.peQueue (s : State) (n : Nat) (i : PeItem) : State :=
  if (s.pePort n).queue.length < 16 then s.upPe n (fun p => { p with queue := p.queue ++ [i] })
  else { s with paddock := { s.paddock with peWaits := s.paddock.peWaits ++ [{ cluster := n, item := i }] } }

/-- A task whose issue waited for room, with no list left waiting, goes on (R426). -/
def State.peIssued (s : State) (u : PeUser) : State :=
  match u with
  | .setPe tid | .power tid =>
    if s.paddock.peWaits.any (fun w => w.item.user = u) then s
    else match s.task tid with
      | some t => if t.state = 4 && t.wkind = 2 && t.wmask = 0 then s.wake tid false else s
      | none => s
  | _ => s

/-- A place has come free in a port's queue. -/
def State.peRoom (s : State) (n : Nat) : State :=
  match s.paddock.peWaits.find? (fun w => w.cluster = n) with
  | none => s
  | some w =>
    if (s.pePort n).queue.length < 16 then
      ({ s with paddock := { s.paddock with peWaits := s.paddock.peWaits.erase w } }.upPe n (fun p =>
        { p with queue := p.queue ++ [w.item] })).peIssued w.item.user
    else s

/-- The frames of a list: each its 8 bytes (R401). -/
def State.peFrames (s : State) (id : Nat) : List (List Byte) :=
  match kGet s.objs id with
  | none => []
  | some o =>
    let b := s.objBytes o 0 o.size
    (List.range (fpCount b)).map (fun j => fpEntry b 8 j)

/-- Idle time after a frame on a port, ns (R425). -/
def frameGap (div : Nat) (f : List Byte) : Nat := max (2 * div) (10 * fld f 6 2)

/-- Time a frame takes on a port, ns (R425). -/
def frameNs (div : Nat) (f : List Byte) : Nat := 2 * div * (fld f 4 1 + 1) + frameGap div f

/-- A frame keeps PECS_N low through its gap and into the next frame (R401, R425). -/
def frameHold (f : List Byte) : Bool := (fld f 5 1).testBit 2

/-- Frames begun once `left` ns have passed since a list started. -/
def framesBegun (div : Nat) : List (List Byte) → Nat → Nat
  | [], _ => 0
  | f :: fs, left => 1 + (if left < frameNs div f then 0 else framesBegun div fs (left - frameNs div f))

/-- Lists that a user has on a port are cut short: those queued leave, the one in progress sends no frame after the one in progress
(R421). Whether one is in progress. -/
def State.peCut (s : State) (n : Nat) (u : PeUser) (st : Nat) : State × Bool :=
  let p := s.pePort n
  match p.queue with
  | [] => (s, false)
  | h :: r =>
    let r1 := r.filter (fun i => i.user ≠ u)
    if p.busy then
      let k := framesBegun (s.rf F.CL_PE_CFG_DIV [n]) (s.peFrames h.list) (s.dtime - p.start)
      let mine := h.user = u
      let h1 := if mine then { h with upto := some (min k (h.upto.getD k)), st := max st h.st } else h
      (s.upPe n (fun p => { p with queue := h1 :: r1 }), mine)
    else (s.upPe n (fun p => { p with queue := (h :: r).filter (fun i => i.user ≠ u) }), false)

/-- Lists that a user has on a port go on with nobody waiting; those not started leave, unless `keep`. -/
def State.peOrphan (s : State) (n : Nat) (u : PeUser) (keep : Bool) : State :=
  s.upPe n (fun p => { p with queue := p.queue.zipIdx.filterMap (fun i =>
    if i.1.user ≠ u then some i.1 else if keep || (p.busy && i.2 = 0) then some { i.1 with user := .orphan } else none) })

/-- PE_LIST_START (R426): the next queued list starts. -/
def doPeListStart (n : Nat) (s : State) : State :=
  let p := s.pePort n
  if p.busy || p.queue.isEmpty || !s.peUp n || s.ballastOn then s else s.upPe n (fun p => { p with busy := true, start := s.dtime })

/-- A list's frames leave the port; RELAY frames are counted, and PECS_N stays as the last of them leaves it (R401, R425, R427). -/
def State.peSend (s : State) (n : Nat) (fs : List (List Byte)) : State :=
  let relays := (fs.filter (fun f => (fld f 5 1).testBit 1)).length
  let div := s.rf F.CL_PE_CFG_DIV [n]
  let s1 := (fs.foldl (fun s f => s.emit (.peFrame n (fld f 0 4) (fld f 4 1) (frameGap div f) (frameHold f))) s).upPe n (fun p => { p with
    cs := (fs.getLast?.map frameHold).getD p.cs })
  let s2 := s1.incRf F.CL_PE_STAT_RELAY_FRAMES [n] relays
  { s2 with life := { s2.life with relay := s2.life.relay.modify n (fun x => satAdd 64 x relays) } }

/-- The words that READBACK frames return (R427), from the bits read on PEMISO, one entry per such frame. -/
def readWords (fs : List (List Byte)) (bits : List Nat) : List Nat :=
  (fs.filter (fun f => (fld f 5 1).testBit 0)).zipIdx.map (fun f => bits.getD f.2 0 % 2 ^ fld f.1 4 1)

/-! ### Calibration -/

/-- The calibration of a descriptor. -/
def State.calib (s : State) (sq idx : Nat) : Option Calib := s.calibs.find? (fun c => c.sq = sq && c.idx = idx)

/-- The state with a calibration changed. -/
def State.upCalib (s : State) (sq idx : Nat) (f : Calib → Calib) : State :=
  { s with calibs := s.calibs.map (fun c => if c.sq = sq && c.idx = idx then f c else c) }

/-- The kind that precedes a kind, as a bit of CAL_DONE; FINE needs none (R249). -/
def calNeeds (kind : Nat) : Option Nat := if kind ≤ 1 then none else some (kind - 2)

/-- The status of a CALIBRATE by its checks, in their order (R249); 0 where all pass. -/
def State.calRefusal (s : State) (b : List Byte) : Nat :=
  let n := fld b 16 1
  let mask := fld b 18 2
  let named := [fld b 24 4, fld b 28 4].filter (· ≠ 0xFFFFFFFF)
  let isList (id : Nat) : Bool := match s.obj id with
    | some o => o.kind == .peList
    | none => false
  let owned := (List.range 4).foldl (fun a i => a ||| (s.sl (4 * n + i)).grp) 0
  if n < 12 && (s.clAbsent n || (bitList 16 mask).any (fun c => ((s.cl n).chans.getD c {}).retired)) then St.absent
  else if named.any (fun id => (s.obj id).isNone) then St.noObject
  else if 12 ≤ n || fld b 17 1 = 0 || 4 < fld b 17 1 || mask = 0 || 1 < fld b 20 1 || fld b 21 1 < 4 || 10 < fld b 21 1 ||
      !zeroes b 22 2 || fld b 32 8 % 64 ≠ 0 || !zeroes b 40 24 || !named.all isList ||
      grpMask mask &&& owned ≠ 0 || !(s.cl n).drift.locked ||
      (bitList 16 mask).any (fun c => (calNeeds (fld b 17 1)).any (fun k => !(s.rf F.CL_DSK2_CAL_DONE [n, c]).testBit k)) then St.bad
  else 0

/-- CALIBRATE (R249): it waits for its turn on the cluster. -/
def doCalibrate (sq idx : Nat) (s : State) : State :=
  s.withDesc sq idx 0x12 (fun d =>
    let b := d.bytes
    let st := s.calRefusal b
    if st ≠ 0 then s.finish sq idx st
    else
      let c : Calib := { sq := sq, idx := idx, cluster := fld b 16 1, kind := fld b 17 1, chmask := fld b 18 2
                         apply := (fld b 20 1).testBit 0, setup := fld b 24 4, restore := fld b 28 4, dst := fld b 32 8 }
      { s.begin sq idx with calibs := s.calibs ++ [c] })

/-- CALIBRATION_START (R250): its turn, with its cluster in service. What R249 asks of the descriptor is checked at acceptance, not again here
(DESIGN CHOICE, log entry 39). -/
def doCalibrationStart (sq idx : Nat) (s : State) : State :=
  match s.calib sq idx with
  | none => s
  | some c =>
    let n := c.cluster
    let first := (s.calibs.find? (fun x => x.cluster = n)).any (fun x => x.sq = sq && x.idx = idx)
    if c.phase ≠ 0 || !first || !(s.domOn (5 * n) && s.domOn (5 * n + 1) && s.domOn (5 * n + 2)) ||
        (s.power.blk.contains (n, none)) || !s.clk.tref || s.ballastOn then s
    else if c.setup = 0xFFFFFFFF then s.upCalib sq idx (fun c => { c with phase := 2 })
    else (s.upCalib sq idx (fun c => { c with phase := 1 })).peQueue n { list := c.setup, user := .calib sq idx false }

/-- The path that a measurement gives for the first of its two values (R247): for DRV what the loop leaves beside the CMPH path. -/
def State.calPathOf (s : State) (c : Calib) (m : CalMeas) : Nat :=
  if c.kind = 3 then m.path - ((s.cl c.cluster).chans.getD m.ch {}).pathH else m.path

/-- Half of a round trip: the one-way delay that TDR takes off every deskew value (R247); of an odd count either neighbour, as a free value
decides. -/
def State.calHalf (s : State) (m : CalMeas) : Nat := (m.path + Config.freeValue (s.freeCtr + m.ch) % 2) / 2

/-- The deskew values of a channel: DSKD, DSKE, DSKH, DSKL. -/
def State.deskews (s : State) (n c : Nat) : List Nat :=
  [s.rf F.CL_DSK_DSKD [n, c], s.rf F.CL_DSK_DSKE [n, c], s.rf F.CL_DSK_DSKH [n, c], s.rf F.CL_DSK_DSKL [n, c]]

/-- A target and the paths it covers meet R245: the deskew lies between 100 ps and 16,383.5 ps. -/
def latOk (target path : Nat) : Bool := path + 200 ≤ target && target ≤ path + 32767

/-- R245 holds for a measured channel. -/
def State.calRangeOk (s : State) (c : Calib) (m : CalMeas) : Bool :=
  let n := c.cluster
  if c.kind = 2 then latOk (s.rf F.CL_TIM_LAT_CMP_LAT [n]) m.path && latOk (s.rf F.CL_TIM_LAT_CMP_LAT [n]) m.second
  else if c.kind = 3 then latOk (s.rf F.CL_TIM_LAT_DRV_LAT [n]) (s.calPathOf c m) && latOk (s.rf F.CL_TIM_LAT_DRV_LAT [n]) m.second
  else if c.kind = 4 then (s.deskews n m.ch).all (fun d => latOk d (s.calHalf m))
  else true

/-- RES of a measured channel (R251); where NOISY and RANGE both hold, the lower code (DESIGN CHOICE, log entry 31). -/
def State.calRes (s : State) (c : Calib) (m : CalMeas) : Nat :=
  if !m.found then 1 else if !s.calRangeOk c m then 2 else if 80 < m.spread then 3 else 0

/-- VALUE of a channel with result OK (R244, R251). -/
def State.calValue (s : State) (c : Calib) (m : CalMeas) : Nat :=
  let n := c.cluster
  if c.kind = 1 then m.second
  else if c.kind = 2 then s.rf F.CL_TIM_LAT_CMP_LAT [n] - m.path
  else if c.kind = 3 then s.rf F.CL_TIM_LAT_DRV_LAT [n] - s.calPathOf c m
  else s.rf F.CL_DSK_DSKD [n, m.ch] - s.calHalf m

/-- The entry of a local channel in the result buffer (R251). Where the result is not OK the rule states no VALUE, and after NO_EDGE no MEAS
and no SPREAD: they are free. -/
def State.calEntry (s : State) (c : Calib) (k : Nat) : List Byte :=
  let free (j : Nat) : Nat := Config.freeValue (s.freeCtr + 16 + 3 * k + j)
  let entry (m : CalMeas) : List Byte :=
    let r := s.calRes c m
    leBytes 1 k ++ leBytes 1 r ++ zeros 2 ++ leBytes 4 (if r = 1 then free 0 else s.calPathOf c m) ++
      leBytes 4 (if r = 0 then s.calValue c m else free 1) ++ leBytes 4 (if r = 1 then free 2 else m.spread)
  if !c.chmask.testBit k then leBytes 1 0 ++ leBytes 1 4 ++ zeros 14
  else entry ((c.meas.find? (fun m => m.ch = k)).getD { ch := k, found := false, path := 0 })

/-- A channel of a cluster with what calibration keeps of it changed. -/
def State.upCalChan (s : State) (n c : Nat) (f : Chan → Chan) : State := s.upCl n (fun cl => { cl with chans := cl.chans.modify c f })

/-- A result OK of a channel (R244, R250, R262, R263): CAL_DONE, TRACE_PS, the linearisation tables or the paths that later kinds build on,
and with APPLY the deskew registers and the target in force. -/
def State.calApply (s : State) (c : Calib) (m : CalMeas) : State :=
  let n := c.cluster
  let i := [n, m.ch]
  let s1 := s.orRf F.CL_DSK2_CAL_DONE i (2 ^ (c.kind - 1))
  let half := s.calHalf m
  let apply (s : State) (f : State → State) : State := if c.apply then (f s).upCalChan n m.ch (fun x => { x with
    lat := s.rf F.CL_TIM_LAT_DRV_LAT [n] }) else s
  if c.kind = 1 then s1.upCalChan n m.ch (fun x => { x with lin := some (Config.freeValue (s.freeCtr + 64 + m.ch)) })
  else if c.kind = 2 then
    apply (s1.upCalChan n m.ch (fun x => { x with pathH := m.path, pathL := m.second })) (fun s =>
      (s.setRf F.CL_DSK_DSKH i (s.rf F.CL_TIM_LAT_CMP_LAT [n] - m.path)).setRf F.CL_DSK_DSKL i (s.rf F.CL_TIM_LAT_CMP_LAT [n] - m.second))
  else if c.kind = 3 then apply s1 (fun s =>
    ((s.setRf F.CL_DSK_DSKD i (s.calValue c m)).setRf F.CL_DSK_DSKE i (s.rf F.CL_TIM_LAT_DRV_LAT [n] - m.second)).setRf F.CL_DSK2_RISE_TRIM i
      (ofSigned 8 m.rise))
  else apply (s1.setRf F.CL_DSK2_TRACE_PS i m.path) (fun s =>
    [F.CL_DSK_DSKD, F.CL_DSK_DSKE, F.CL_DSK_DSKH, F.CL_DSK_DSKL].foldl (fun s f => s.setRf f i (s.rf f i - half)) s)

/-- A calibration leaves its cluster. -/
def State.dropCalib (s : State) (sq idx : Nat) : State :=
  { s with calibs := s.calibs.filter (fun c => !(c.sq = sq && c.idx = idx)) }

/-- The end of a calibration that has run: results, registers, completion (R250). -/
def State.calFinish (s : State) (c : Calib) : State :=
  let s0 := s.dropCalib c.sq c.idx
  if c.st ≠ 0 then s0.finish c.sq c.idx c.st
  else
    let (s1, ok) := s0.hostWrite c.sq c.dst ((List.range 16).flatMap (s0.calEntry c))
    let good := c.meas.filter (fun m => m.ch < 16 && c.chmask.testBit m.ch && s0.calRes c m = 0)
    let s2 := good.foldl (fun s m => s.calApply c m) s1
    let s3 := ({ s2 with freeCtr := s2.freeCtr + 80 }).upDrift c.cluster (fun d => { d with
      calGain := d.gain, calOffset := d.offset, calTemp := [s.temp (2 * c.cluster), s.temp (2 * c.cluster + 1)]
      calRails := (List.range 14).map s.railNow })
    if ok then s3.complete c.sq c.idx { status := St.ok, val0 := maskOf (good.map CalMeas.ch) } else s3.writeFailed c.sq c.idx

/-- PE_RESTORE is sent, or there is none (R250). -/
def State.calRestore (s : State) (c : Calib) : State :=
  if c.restore = 0xFFFFFFFF then s.calFinish c
  else (s.upCalib c.sq c.idx (fun x => { x with phase := 3 })).peQueue c.cluster { list := c.restore, user := .calib c.sq c.idx true }

/-- CALIBRATION_COMPLETE (R250): measurement has ended. -/
def doCalibrationComplete (sq idx : Nat) (meas : List CalMeas) (s : State) : State :=
  match s.calib sq idx with
  | none => s
  | some c => if c.phase ≠ 2 then s else (s.upCalib sq idx (fun c => { c with meas := meas })).calRestore { c with meas := meas }

/-- A list of a calibration has been sent (R250, R544). -/
def State.calListDone (s : State) (sq idx st : Nat) (restore : Bool) : State :=
  match s.calib sq idx with
  | none => s
  | some c =>
    let c1 := { c with st := max c.st st }
    let s1 := s.upCalib sq idx (fun _ => c1)
    if restore then s1.calFinish c1
    else if st ≠ 0 then s1.calRestore c1
    else s1.upCalib sq idx (fun c => { c with phase := 2 })

/-- Lists of a user that wait for room on a port go on waiting for nobody, or with `drop` leave. -/
def State.peWaitsOrphan (s : State) (n : Nat) (u : PeUser) (drop : Bool) : State :=
  { s with paddock := { s.paddock with peWaits := s.paddock.peWaits.filterMap (fun w =>
      if w.cluster = n && w.item.user = u then if drop then none else some { w with item := { w.item with user := .orphan } } else some w) } }

/-- How a calibration that stops early leaves its port: `cut`, PE_SETUP sends no further frame (R252); `restore`, PE_RESTORE follows where
the port runs (R252, R253). -/
structure CalStop where
  cut : Bool
  restore : Bool
  deriving DecidableEq, Repr

/-- A calibration stops early (R252, R253): PE_SETUP waiting is withdrawn, and in progress runs to its end or is cut; PE_RESTORE runs or
follows; nothing is written. -/
def State.calStop (s : State) (c : Calib) (st : Nat) (h : CalStop) : State :=
  let n := c.cluster
  let set : PeUser := .calib c.sq c.idx false
  let res : PeUser := .calib c.sq c.idx true
  let s0 := if h.cut then (s.peCut n set st).1 else s
  let s1 := (s0.peOrphan n set false).peWaitsOrphan n set true
  let s2 := if h.restore then (s1.peOrphan n res true).peWaitsOrphan n res false
    else ((s1.peCut n res st).1.peOrphan n res false).peWaitsOrphan n res true
  let s3 := if h.restore && (c.phase = 1 || c.phase = 2) && c.restore ≠ 0xFFFFFFFF && s2.peUp n then
      s2.peQueue n { list := c.restore, user := .orphan } else s2
  (s3.dropCalib c.sq c.idx).finish c.sq c.idx st

/-- Every running calibration that `p` selects stops early. -/
def State.calStopAll (s : State) (p : Calib → Bool) (st : Nat) (h : CalStop) : State :=
  (s.calibs.filter (fun c => c.phase ≠ 0 && p c)).foldl (fun s c => s.calStop c st h) s

/-! ### Commands -/

/-- LOAD_TSET. -/
def execLoadTset (sq idx : Nat) (src : Option (List Byte)) (s : State) : Host.Outcome State Fault Refusal := .next (doLoadTset sq idx src s)
/-- DEFERRED_TSET_LOAD. -/
def execDeferredTsetLoad (sq idx : Nat) (s : State) : Host.Outcome State Fault Refusal := .next (doDeferredTsetLoad sq idx s)
/-- UNLOAD_TSET. -/
def execUnloadTset (sq idx : Nat) (s : State) : Host.Outcome State Fault Refusal := .next (doUnloadTset sq idx s)
/-- DEFERRED_TSET_UNLOAD. -/
def execDeferredTsetUnload (sq idx : Nat) (s : State) : Host.Outcome State Fault Refusal := .next (doDeferredTsetUnload sq idx s)
/-- CALIBRATE. -/
def execCalibrate (sq idx : Nat) (s : State) : Host.Outcome State Fault Refusal := .next (doCalibrate sq idx s)
/-- CALIBRATION_START. -/
def execCalibrationStart (sq idx : Nat) (s : State) : Host.Outcome State Fault Refusal := .next (doCalibrationStart sq idx s)
/-- CALIBRATION_COMPLETE. -/
def execCalibrationComplete (sq idx : Nat) (meas : List CalMeas) (s : State) : Host.Outcome State Fault Refusal :=
  .next (doCalibrationComplete sq idx meas s)
/-- DRIFT_ENABLE. -/
def execDriftEnable (n : Nat) (v : W64) (s : State) : Host.Outcome State Fault Refusal :=
  .next (s.busWrite (F.CL_DRIFT_CTL_EN.off [n]) (doDriftEnable n v))
/-- DRIFT_DISABLE. -/
def execDriftDisable (n : Nat) (v : W64) (s : State) : Host.Outcome State Fault Refusal :=
  .next (s.busWrite (F.CL_DRIFT_CTL_EN.off [n]) (doDriftDisable n v))
/-- RESET_TRIM. -/
def execResetTrim (n : Nat) (v : W64) (s : State) : Host.Outcome State Fault Refusal :=
  .next (s.busWrite (F.CL_DRIFT_CTL_EN.off [n]) (doResetTrim n v))
/-- DESKEW_WRITE. -/
def execDeskewWrite (n c : Nat) (second : Bool) (v : W64) (s : State) : Host.Outcome State Fault Refusal :=
  .next (s.busWrite ((if second then F.CL_DSK2_RISE_TRIM else F.CL_DSK_DSKD).off [n, c]) (doDeskewWrite n c second v))
/-- DRIFT_MEASUREMENT. -/
def execDriftMeasurement (n : Nat) (gain offset : Int) (t : Nat) (s : State) : Host.Outcome State Fault Refusal :=
  .next (doDriftMeasurement n gain offset t s)
/-- DRIFT_ACQUIRE_UPDATE. -/
def execDriftAcquireUpdate (n : Nat) (gain offset : Int) (t : Nat) (s : State) : Host.Outcome State Fault Refusal :=
  .next (doDriftAcquireUpdate n gain offset t s)
/-- PE_LIST_START. -/
def execPeListStart (n : Nat) (s : State) : Host.Outcome State Fault Refusal := .next (doPeListStart n s)

end Sys2Proof.Machine
end

