-- ==== Sys2Proof/Machine/Meters.lean ====
section
/-! DEFINITION. Interval meters (11_interval_meters.md, R377-R399). Times are in sixteenths of an LSB: 4,096 to the ns, 1,024 to a tick
of 250 ps. -/

namespace Sys2Proof.Machine

/-! ### Meters and their tables -/

/-- Meter i of cluster n has global number 4n + i. -/
def State.meter (s : State) (k : Nat) : Meter := s.meters.getD k {}

/-- The state with a meter changed. -/
def State.upMeter (s : State) (k : Nat) (f : Meter → Meter) : State := { s with meters := s.meters.modify k f }

/-- Register indices of meter k. -/
def mIdx (k : Nat) : List Nat := [k / 4, k % 4]

/-- The bytes that the CRC of a table covers (R392). -/
def ImCal.bytes (c : ImCal) : List Byte :=
  (c.posStart ++ c.posStop).flatMap (leBytes 2) ++ leBytes 2 c.offset ++ leBytes 1 c.temp

/-- The table of a meter whose fuses the model is not given: ideal phases and no skew (log entry 4). -/
def idealCal : ImCal :=
  let pos := (List.range 64).map (16 * ·)
  let c : ImCal := { posStart := pos, posStop := pos }
  { c with crc := crc16 c.bytes }

/-- The fused table of meter k. -/
def State.imcalOf (s : State) (k : Nat) : ImCal := (kGet s.fuse.imcal k).getD idealCal

/-- A list rises strictly. -/
def rises : List Nat → Bool
  | a :: b :: r => a < b && rises (b :: r)
  | _ => true

/-- The checks of R393. -/
def ImCal.ok (c : ImCal) : Bool :=
  crc16 c.bytes = c.crc && c.posStart.length = 64 && c.posStop.length = 64 && rises c.posStart && rises c.posStop

/-! ### The descriptor (R377, R380, R381) -/

def mcSite (c : List Byte) : Nat := fld c 0 2
def mcCluster (c : List Byte) : Nat := fld c 2 1
def mcMeter (c : List Byte) : Nat := fld c 3 1
def mcSigned (c : List Byte) : Bool := (fld c 4 1).testBit 0
def mcWithBurst (c : List Byte) : Bool := (fld c 4 1).testBit 1
def mcStart (c : List Byte) : Nat := fld c 5 1
def mcStop (c : List Byte) : Nat := fld c 6 1
def mcStopN (c : List Byte) : Nat := fld c 7 1 + 1
def mcTimeout (c : List Byte) : Nat := fld c 8 8
def mcArmAt (c : List Byte) : Nat := fld c 16 8

/-- A vector mark, which is not sampled (R378). -/
def selMark (x : Nat) : Bool := 0x40 ≤ x && x < 0x44

/-- The status of a measurement by the checks of R381; 0 where all pass. `c` holds bytes 16 to 39 of its descriptor and `form` says
that the bytes after them are 0. -/
def State.measRefusal (s : State) (c : List Byte) (form : Bool) : Nat :=
  let n := mcCluster c
  let k := 4 * n + mcMeter c
  let alien (x : Site) (sel : Nat) : Bool := sel < 0x40 && !(x.local n).testBit (sel % 16)
  if s.nCl ≤ n || s.nMeter ≤ mcMeter c || s.metersBad.contains k then St.absent
  else match s.site (mcSite c) with
    | none => St.bad
    | some x =>
      if s.blocked (.site x.id) || x.blocked then St.blocked
      else if !form || 4 ≤ fld c 4 1 || 2 ^ 36 ≤ mcTimeout c || x.local n = 0 || !selOk (mcStart c) || !selOk (mcStop c) ||
          alien x (mcStart c) || alien x (mcStop c) || (s.meter k).state ≠ 0 || !s.domOn (5 * n + 1) || !s.domOn (5 * n + 2) ||
          (mcSigned c && (mcStopN c ≠ 1 || mcStart c = mcStop c)) then St.bad
      else 0

/-! ### The result (R387-R390) -/

/-- The interval of two edges in sixteenths (R387); OFFSET counts when both are sampled. -/
def interval (offset : Int) (a b : MEdge) : Int :=
  (b.time : Int) - a.time + (if a.sampled && b.sampled then offset else 0)

/-- The stamp of an edge in LSB, to the nearest, on the chip's time scale, whose offset is in 0.5 ps units (R389, R587). -/
def stampLsb (xoff : Int) (t : Nat) : Nat := ((125 * (t : Int) + 256 * xoff + 1000) / 2000).toNat

/-- The result word (R388): `q` the interval of a measurement with a valid result. -/
def resultWord (q : Option Int) (timeout ovf nostart : Bool) : Nat :=
  (match q with
   | some q => ofSigned 47 (if q.natAbs < 16 then 0 else roundDiv q 16) + 2 ^ 56 + (if q.natAbs < 16 then 2 ^ 57 else 0) +
       (if q < 0 then 2 ^ 58 else 0)
   | none => 0) + b2n timeout * 2 ^ 59 + b2n ovf * 2 ^ 60 + b2n nostart * 2 ^ 61

/-- The record of R389 of a measurement that meter k has not made: no start, no stop. -/
def noMeasBody (k : Nat) : List Byte :=
  leBytes 8 (resultWord none false false true) ++ leBytes 8 (2 ^ 64 - 1) ++ zeros 2 ++ leBytes 1 k ++ zeros 5 ++ leBytes 8 (2 ^ 64 - 1)

/-- The measurement of meter k ends (R389, R390, R394): its registers, the record, the completion or the slot. `q` is its interval if
it has a result; `ovf` and `timeout` say how it ran out. -/
def State.endMeas (s : State) (k status : Nat) (q : Option Int) (timeout ovf : Bool) (now : Nat) : State :=
  let m := s.meter k
  let i := mIdx k
  let word := resultWord q timeout ovf m.first.isNone
  let stamp (e : Option MEdge) : Nat × Nat := match e with
    | some e => (stampLsb s.ringT.xoff e.time / 256, stampLsb s.ringT.xoff e.time % 256)
    | none => (2 ^ 64 - 1, 0)
  let (st, sf) := stamp m.first
  let (pt, pf) := stamp (if q.isSome || mcSigned m.cfg then m.stopE else none)
  let bytes := leBytes 8 word ++ leBytes 8 st ++ leBytes 1 sf ++ leBytes 1 pf ++ leBytes 1 k ++ leBytes 1 0 ++ leBytes 2 m.stops ++
    leBytes 2 0 ++ leBytes 8 pt
  let s1 := (((s.setRf F.CL_IMTR_RES_RESULT i word).setRf F.CL_IMTR_TSTART_START_T i st).setRf F.CL_IMTR_TSTOP_STOP_T i pt)
  let s2 := (s1.setRf F.CL_IMTR_STAT_START_FRAC i sf).setRf F.CL_IMTR_STAT_STOP_FRAC i pf
  let qual := if m.dip || (m.state ≥ 2 && s.dipAt now) then 8 else 0
  let s3 := if withQual status qual = St.ok then s2.incRf F.CL_IMTR_COUNT_DONE i
    else if status = St.timeout then s2.incRf F.CL_IMTR_COUNT_TIMEOUTS i else s2
  (s3.upMeter k (fun m => { m with state := 0, owner := .nobody, dip := false })).opEnd m.owner 1
    { status := withQual status qual, qual := qual, val0 := word, val1 := m.stops, body := bytes }

/-- Meter k takes an edge from the comparators of local channel c (R377). -/
def State.meterHears (s : State) (k c : Nat) : Bool :=
  let cfg := (s.meter k).cfg
  [mcStart cfg, mcStop cfg].any (fun x => x < 0x40 && x % 16 = c)

/-- A measurement that runs on meter k ends without a result (R390). -/
def State.stopMeas (s : State) (k status : Nat) : State :=
  if (s.meter k).state = 0 then s else s.endMeas k status none false false s.dtime

/-! ### Arming (R382) -/

/-- Meter k arms at DTIME t. -/
def State.armMeter (s : State) (k t : Nat) : State := s.upMeter k (fun m => { m with state := 2, arm := t })

/-- A measurement is handed to its meter. -/
def State.setupMeas (s : State) (c : List Byte) (o : Owner) : State :=
  let k := 4 * mcCluster c + mcMeter c
  let s1 := (s.upMeter k (fun _ => { state := 1, cfg := c, owner := o, arm := mcArmAt c, setAt := s.dtime })).setRf F.CL_IMTR_STAT_SITE_ID (mIdx k) (mcSite c)
  if mcWithBurst c || s.dtime < mcArmAt c then s1 else s1.armMeter k (max (mcArmAt c) s.dtime)

/-- MEASURE_INTERVAL (R381). -/
def doMeasureInterval (sq idx : Nat) (s : State) : State :=
  s.withDesc sq idx 0x29 (fun d =>
    let c := slice d.bytes 16 24
    let st := s.measRefusal c (zeroes d.bytes 40 24)
    if st ≠ 0 then s.complete sq idx { status := st, body := noMeasBody (4 * mcCluster c + mcMeter c) } else (s.begin sq idx).setupMeas c (.desc sq idx))

/-- METER_ARM (R382): DTIME reaches ARM_AT. -/
def doMeterArm (n i t : Nat) (s : State) : State :=
  let k := 4 * n + i
  let m := s.meter k
  if m.state = 1 && !mcWithBurst m.cfg && mcArmAt m.cfg ≤ t then (s.at t).armMeter k (mcArmAt m.cfg) else s

/-- The measurements armed WITH_BURST by a burst of a site or group (R382). -/
def State.withBurstMeters (s : State) (e : Ent) : List Nat :=
  (List.range 48).filter (fun k => (s.meter k).state = 1 && mcWithBurst (s.meter k).cfg && (s.entSites e).any (fun x =>
    x.id = mcSite (s.meter k).cfg))

/-! ### Edges (R379, R383-R387) -/

/-- The first instant at which an edge no longer counts, in sixteenths (R384, R385). -/
def Meter.bound (m : Meter) : Nat :=
  4096 * m.arm + (if mcTimeout m.cfg = 0 then 2 ^ 40 else mcTimeout m.cfg) * 1024

/-- A stop edge of an unsigned measurement whose start is known (R383). -/
def State.stopEdge (s : State) (k : Nat) (a e : MEdge) : State :=
  let m := s.meter k
  let off := toSigned 16 (s.imcalOf k).offset
  let q := interval off a e
  if m.state = 0 || q < 0 || (mcStart m.cfg = mcStop m.cfg && q < 2048) then s
  else
    let s1 := s.upMeter k (fun m => { m with stops := satAdd 16 m.stops 1, stopE := some e })
    if m.stops + 1 = mcStopN m.cfg then s1.endMeas k St.ok (some q) false false (e.time / 4096) else s1

/-- The start and the stop of a signed measurement (R386). -/
def State.signedPair (s : State) (k : Nat) : State :=
  let m := s.meter k
  match m.first, m.stopE with
  | some a, some e => s.endMeas k St.ok (some (interval (toSigned 16 (s.imcalOf k).offset) a e)) false false (max a.time e.time / 4096)
  | _, _ => s

/-- An edge that counts reaches meter k. -/
def State.takeEdge (s : State) (k : Nat) (stop : Bool) (e : MEdge) : State :=
  let m := s.meter k
  if mcSigned m.cfg then
    let s1 := if stop then
        if m.stopE.isNone then s.upMeter k (fun m => { m with stopE := some e, stops := 1 }) else s
      else if m.first.isNone then s.upMeter k (fun m => { m with first := some e, state := 3 }) else s
    s1.signedPair k
  else match m.first, stop with
    | none, false =>
      m.early.foldl (fun s p => s.stopEdge k e p) (s.upMeter k (fun m => { m with first := some e, state := 3, early := [] }))
    | none, true => s.upMeter k (fun m => { m with early := m.early ++ [e] })
    | some a, true => s.stopEdge k a e
    | some _, false => s

/-- An edge of one input of meter k (R379): one within 500 ps of another of the same input is merged with it, and neither timed nor counted;
one before T_arm or at the end of the time does not count (R382, R384). -/
def State.edgeAt (s : State) (k : Nat) (stop : Bool) (e : MEdge) : State :=
  let m0 := s.meter k
  if m0.state = 0 then s
  else
    let last := if stop then m0.lastStop else m0.lastStart
    let s1 := s.upMeter k (fun m => if stop then { m with lastStop := some e.time } else { m with lastStart := some e.time })
    if last.any (fun l => l ≤ e.time && e.time < l + 2048) then s1.setRf F.CL_IMTR_STAT_MERGED (mIdx k) 1
    else
      let s2 := if m0.state = 1 && !mcWithBurst m0.cfg && 4096 * mcArmAt m0.cfg ≤ e.time then s1.armMeter k (mcArmAt m0.cfg) else s1
      let m := s2.meter k
      if m.state = 1 || e.time < 4096 * m.arm || m.bound ≤ e.time then s2 else s2.takeEdge k stop e

/-- METER_EDGE (R377, R378, R387): tick and phase of a sampled edge, a comparator's after its deskew or TRIG_IN_j's at the ball, less the
line's delay. A vector mark is not sampled: its edge comes with the start of the vector. -/
def doMeterEdge (n i : Nat) (stop : Bool) (coarse phase : Nat) (s0 : State) : State :=
  let k := 4 * n + i
  let sel := (if stop then mcStop else mcStart) (s0.meter k).cfg
  if (s0.meter k).state = 0 || selMark sel then s0
  else
    let c := s0.imcalOf k
    let tick := coarse - if 0x50 ≤ sel then s0.rf (F.CL_TRIGIN_DSK_DSK.at (sel % 4)) [n] else 0
    let time := 1024 * tick + (if stop then c.posStop else c.posStart).getD phase (16 * phase)
    (s0.at (time / 4096)).edgeAt k stop { time := time, sampled := true, tick := tick, phase := phase }

/-- The marks `marks` of a vector that starts at time t, 0.5 ps, on slice g of a site or group are edges of the meters that select them: its
exact start, held to the nearest sixteenth for the interval, and stamped to the nearest LSB (R161, R377, R378, R387). -/
def State.markEdges (s : State) (g : Nat) (e : Ent) (t marks : Nat) : State :=
  let time := (512 * t + 125) / 250
  let edge : MEdge := { time := time, sampled := false, tick := time / 1024, phase := 0 }
  (List.range 4).foldl (fun s i =>
    let k := 4 * (g / 4) + i
    let on (sel : Nat) : Bool := selMark sel && marks.testBit (sel - 0x40)
    let c := (s.meter k).cfg
    if (s.meter k).state = 0 || !(s.entSites e).any (fun x => x.id = mcSite c) then s
    else
      let s1 := if on (mcStart c) then s.edgeAt k false edge else s
      if on (mcStop c) then s1.edgeAt k true edge else s1) s

/-- METER_TIMEOUT (R384). -/
def doMeterTimeout (n i t : Nat) (s : State) : State :=
  let k := 4 * n + i
  let m := s.meter k
  if 2 ≤ m.state && mcTimeout m.cfg ≠ 0 && m.bound ≤ 4096 * t then (s.at t).endMeas k St.timeout none true false t else s

/-- METER_OVERFLOW (R385). -/
def doMeterOverflow (n i t : Nat) (s : State) : State :=
  let k := 4 * n + i
  let m := s.meter k
  if 2 ≤ m.state && mcTimeout m.cfg = 0 && m.bound ≤ 4096 * t then (s.at t).endMeas k St.timeout none false true t else s

/-- ABORT (R394, R395): no effect on an idle meter. Edges timed at or before it have reached the meter before (DESIGN CHOICE, log entry 40). -/
def doImeterAbort (n i : Nat) (v : W64) (s : State) : State :=
  if n < s.nCl && i < s.nMeter && v.toNat.testBit 0 then s.stopMeas (4 * n + i) St.aborted else s

/-! ### Retirement (R390, R393, R688) -/

/-- Meter k is retired. -/
def State.retireMeter (s : State) (k : Nat) : State :=
  if s.metersBad.contains k then s
  else
    let s1 := { s with metersBad := s.metersBad ++ [k] }
    (s1.setRf F.CAPS_LIVE_LIVE_IMETERS [] (s1.rf F.CAPS_LIVE_LIVE_IMETERS - 1)).degrade 5 (k / 4) (k % 4)

/-- IMETER_FAILURE (R390). -/
def doImeterFailure (n i : Nat) (s : State) : State :=
  let k := 4 * n + i
  if s.nCl ≤ n || s.nMeter ≤ i || s.metersBad.contains k then s
  else ((s.report 14 n i 1).stopMeas k St.hwFault).retireMeter k

/-! ### Commands -/

/-- MEASURE_INTERVAL. -/
def execMeasureInterval (sq idx : Nat) (s : State) : Host.Outcome State Fault Refusal := .next (doMeasureInterval sq idx s)
/-- METER_ARM. -/
def execMeterArm (n i t : Nat) (s : State) : Host.Outcome State Fault Refusal := .next (doMeterArm n i t s)
/-- METER_EDGE. -/
def execMeterEdge (n i : Nat) (stop : Bool) (coarse phase : Nat) (s : State) : Host.Outcome State Fault Refusal :=
  .next (doMeterEdge n i stop coarse phase s)
/-- METER_TIMEOUT. -/
def execMeterTimeout (n i t : Nat) (s : State) : Host.Outcome State Fault Refusal := .next (doMeterTimeout n i t s)
/-- METER_OVERFLOW. -/
def execMeterOverflow (n i t : Nat) (s : State) : Host.Outcome State Fault Refusal := .next (doMeterOverflow n i t s)
/-- IMETER_ABORT. -/
def execImeterAbort (n u : Nat) (v : W64) (s : State) : Host.Outcome State Fault Refusal :=
  .next (s.busWrite (F.CL_IMTR_CTL_ABORT.off [n, u]) (doImeterAbort n u v))
/-- IMETER_FAILURE. -/
def execImeterFailure (n i : Nat) (s : State) : Host.Outcome State Fault Refusal := .next (doImeterFailure n i s)

end Sys2Proof.Machine
end

