-- ==== Sys2Proof/Machine/Triggers.lean ====
section
/-! DEFINITION. Trigger units (10_acquisition_and_filters.md, R360-R367; R280, R355). Stamps and times are in units of 0.5 ps. -/

namespace Sys2Proof.Machine

/-- Trigger unit with number k. -/
def State.trig (s : State) (k : Nat) : Trig := s.trigs.getD k {}

/-- The state with a trigger unit changed. -/
def State.upTrig (s : State) (k : Nat) (f : Trig → Trig) : State := { s with trigs := s.trigs.modify k f }

/-- Register indices of unit k. -/
def tIdx (k : Nat) : List Nat := [k / 8, k % 8]

/-- CWIN in 0.5 ps; 0 acts as 1 (R370). -/
def State.cwin (s : State) (k : Nat) : Nat := 1000 * max 1 (s.rf F.CL_TRG_CTL_CWIN (tIdx k))

/-- SRC of unit k. -/
def State.trigSrc (s : State) (k : Nat) : Nat := s.rf F.CL_TRG_SRC_SRC (tIdx k)

/-- W of unit k (R363, R364). -/
def State.trigWait (s : State) (k : Nat) : Nat :=
  let src := s.trigSrc k
  let any (lo n : Nat) : Bool := bitsOf src lo n ≠ 0
  max (2000 * s.rf F.CL_TRG_CTL_SETTLE (tIdx k)) (max (if any 0 40 then 80000 else 0)
    (max (if any 40 4 then 500 * s.rf F.CL_ADC_CFG_LAT [k / 8] + 400000 else 0) (if any 44 4 then 60000 else 0)))

/-- Every enabled source of unit k is of the local class. -/
def State.trigLocal (s : State) (k : Nat) : Bool := s.trigSrc k < 2 ^ 40

/-- The unit is armed as of time t (R366). -/
def State.armTrig (s : State) (k t : Nat) : State :=
  if s.rf F.CL_TRG_CTL_MODE (tIdx k) = 0 then s else s.upTrig k (fun u => { u with armed := true, armedAt := t })

/-- ARM (R366, R370): the fields of the write, then the arming. -/
def doTrigArm (n u : Nat) (v : W64) (s : State) : State :=
  if s.nCl ≤ n || 8 ≤ u then s
  else
    let s1 := (s.writeFields (F.CL_TRG_CTL_ARM.off [n, u]) v).keepAwake
    if v.toNat.testBit 2 then s1.armTrig (8 * n + u) (2000 * s1.dtime) else s1

/-- Regions that select unit k and wait for its trigger: their burst or acquisition runs (R280). -/
def State.trigWaiting (s : State) (k : Nat) : List Region :=
  (s.regions.map (·.2)).filter (fun r => r.trigSel = k && r.state ≠ 0 && !r.linear && r.fireAt.isNone &&
    (if r.kind = 3 then (s.acq r.site).any (fun a => a.running) else s.siteRuns r.site))

/-- A firing of unit k at a1 is delivered to the regions that wait for it (R365): at once in the unit's own cluster, 60 ns later in
another (R360). -/
def State.trigPhase (s : State) (k a1 : Nat) : State :=
  (s.trigWaiting k).foldl (fun s r =>
    if s.regionCl r = k / 8 then s.tellRegion r a1 else s.upRegion r.id (fun r => { r with fireAt := some (a1 + 120000) })) s

/-- The decision at time t gives the final stamp to the regions that unit k has told of this firing, also where their burst or acquisition
has ended since (R365); a region that the firing has still to reach has it with the delivery (R360). -/
def State.trigStamp (s : State) (k t t0 : Nat) (rec : List Byte) : State :=
  ((s.regions.map (·.2)).filter (fun r => r.trigSel = k && (r.awaits || r.fireAt.isSome))).foldl (fun s r =>
    if r.awaits then s.stampRegion r (s.trigLocal k && s.regionCl r = k / 8) t0 rec
    else if r.fireAt.any (fun f => f ≤ t) then (s.tellRegion r (r.fireAt.getD t)).stampRegion r false t0 rec
    else s.upRegion r.id (fun r => { r with pend := some (t0, rec) })) s

/-- The LATE flag of a record that a unit, and the regions it triggered, still hold (R364, R367). -/
def State.lateRecord (s : State) (k : Nat) : State := match (s.trig k).fired with
  | none => s
  | some old =>
    let new := setFld old 30 1 1
    let mark (r : Region) : Region := if r.trigSel = k && r.trigRec = old then { r with trigRec := new } else r
    { s.upTrig k (fun x => { x with fired := some new }) with regions := s.regions.map (fun p => (p.1, mark p.2)) }

/-- TRIGGER_EVENT_ARRIVAL (R363-R366): an event on its way reaches unit u of cluster n at time `arrive`. -/
def doTriggerEventArrival (n u src stamp arrive : Nat) (s00 : State) : State :=
  let k := 8 * n + u
  if !s00.trigEv.contains (k, src, stamp) then s00
  else
    let s := { s00.at (arrive / 2000) with trigEv := s00.trigEv.erase (k, src, stamp) }
    let x := s.trig k
    let mode := s.rf F.CL_TRG_CTL_MODE (tIdx k)
    if mode = 0 || s.power.lull ≠ 0 then s
    else
      -- an event of the last firing's window comes after its decision
      let late := x.t0.any (fun t0 => t0 ≤ stamp && stamp < t0 + s.cwin k)
      let s1 := if late then (s.setRf F.CL_TRG_STAT_LATE (tIdx k) 1).lateRecord k else s
      if x.openAt.isSome then
        if x.openArmed ≤ stamp then s1.upTrig k (fun x => { x with cands := x.cands ++ [(src, stamp)] }) else s1
      else if x.armed && x.armedAt ≤ stamp then
        (s1.upTrig k (fun x => { x with armed := false, openAt := some arrive, openArmed := x.armedAt, cands := [(src, stamp)] })).trigPhase k arrive
      else s1

/-- The trigger record (R367). -/
def trigRecord (k t0 primary seq mask vec : Nat) : List Byte :=
  leBytes 8 (t0 / 2000) ++ leBytes 2 (t0 % 2000) ++ leBytes 1 primary ++ leBytes 1 k ++ leBytes 4 seq ++ leBytes 8 mask ++
    leBytes 6 vec ++ zeros 2

/-- TRIG_OUT_j goes high for 100 ns; TRIG_OUT_3 gives way to a calibration (R247, R365). -/
def State.pulseOut (s : State) (j : Nat) : State :=
  if j = 3 && s.calibs.any (fun c => c.phase ≠ 0 && c.kind = 2) then s
  else { s.emit (.pulse j s.dtime) with trigOut := s.trigOut.set j (some (s.dtime + 100)) }

/-- A firing of unit k is published on the chip and cross-chip lines (R365, R580, R582); a line's event reaches the units of every
cluster of this chip, and an XT line's every other chip, on the time scale (R587). -/
def State.publish (s : State) (k t0 : Nat) : State :=
  let i := tIdx k
  let s1 := if s.rb F.CL_TRG_CTL_PUBLISH i then
      (List.range s.nCl).foldl (fun s n => s.raise n (56 + s.rf F.CL_TRG_CTL_CTLINE i) t0) s
    else s
  if s1.rb F.CL_TRG_CTL_XPUB i then
    let xt := s1.rf F.CL_TRG_CTL_XTLINE i
    let s2 := (List.range s1.nCl).foldl (fun s n => s.raise n (48 + xt) t0) s1
    let z := ((t0 : Int) + s2.ringT.xoff).toNat
    let b := z % 2000 + xt * 2 ^ 11
    let s3 := if 1 < s2.ringLen then s2.broadcast 0x78 0 (z / 2000) b else s2
    if s3.linkUp 3 then s3.send 3 (s3.expressOf 0x78 0 (z / 2000) b) else s3
  else s1

/-- TRIGGER_DECISION (R364, R365). -/
def doTriggerDecision (n u t : Nat) (s00 : State) : State :=
  let k := 8 * n + u
  let i := tIdx k
  match (s00.trig k).openAt with
  | none => s00
  | some a1 =>
    if t < a1 + s00.cwin k + s00.trigWait k then s00
    else
      let s := s00.at (t / 2000)
      let cs := (s.trig k).cands
      let t0 := ((cs.map (·.2)).min?).getD a1
      let mask := maskOf ((cs.filter (fun c => c.2 < t0 + s.cwin k)).map (·.1))
      let primary := (bitList 64 mask).headD 0
      let seq := (s.rf F.CL_TRG_STAT_SEQ i + 1) % 2 ^ 32
      let vec := vecOr (s.vecAt (4 * n + s.rf F.CL_TRG_CTL_REF_SLICE i) t0)
      let z := s.scaled t0
      let rec' := trigRecord k z primary seq mask vec
      let s1 := s.upTrig k (fun x => { x with openAt := none, cands := [], t0 := some t0, fired := some rec' })
      let s2 := ((((s1.setRf F.CL_TRG_STAT_PRIMARY i primary).setRf F.CL_TRG_STAT_FRAC i (z % 2000)).setRf F.CL_TRG_STAT_SEQ i
        seq).setRf F.CL_TRG_TIME_T0 i (z / 2000)).setRf F.CL_TRG_MASK_MASK i mask
      let s3 := (s2.setRf F.CL_TRG_VEC_VEC i vec).trigStamp k t t0 rec'
      let s4 := if s3.rb F.CL_TRG_CTL_EVENT i then
          s3.queueEvent { typ := 4, b2 := k, b3 := primary, aux := seq, p0 := z / 2000, p1 := mask, p2 := vec + (z % 2000) * 2 ^ 48 }
        else s3
      (bitList 4 (s4.rf F.CL_TRG_CTL_OUTMASK i)).foldl (fun s j => s.pulseOut j) (s4.publish k t0)

/-- TRIGGER_REARM (R366). -/
def doTriggerRearm (n u t : Nat) (s : State) : State :=
  let k := 8 * n + u
  match (s.trig k).t0 with
  | some t0 =>
    let at_ := t0 + max (s.cwin k) (200000 * s.rf F.CL_TRG_CTL_HOLDOFF (tIdx k))
    if s.rf F.CL_TRG_CTL_MODE (tIdx k) = 2 && !(s.trig k).armed && (s.trig k).openAt.isNone && at_ ≤ t then
      (s.at (t / 2000)).armTrig k at_
    else s
  | none => s

/-- TRIG_OUT_PULSE_END (R365). -/
def doTrigOutPulseEnd (j t : Nat) (s : State) : State :=
  match s.trigOut.getD j none with
  | some e => if e ≤ t then { s.at t with trigOut := s.trigOut.set j none } else s
  | none => s

/-- ARM. -/
def execTrigArm (n u : Nat) (v : W64) (s : State) : Host.Outcome State Fault Refusal :=
  .next (s.busWrite (F.CL_TRG_CTL_ARM.off [n, u]) (doTrigArm n u v))
/-- TRIGGER_EVENT_ARRIVAL. -/
def execTriggerEventArrival (n u src stamp arrive : Nat) (s : State) : Host.Outcome State Fault Refusal :=
  .next (doTriggerEventArrival n u src stamp arrive s)
/-- TRIGGER_DECISION. -/
def execTriggerDecision (n u t : Nat) (s : State) : Host.Outcome State Fault Refusal := .next (doTriggerDecision n u t s)
/-- TRIGGER_REARM. -/
def execTriggerRearm (n u t : Nat) (s : State) : Host.Outcome State Fault Refusal := .next (doTriggerRearm n u t s)
/-- TRIG_OUT_PULSE_END. -/
def execTrigOutPulseEnd (j t : Nat) (s : State) : Host.Outcome State Fault Refusal := .next (doTrigOutPulseEnd j t s)

end Sys2Proof.Machine
end

