-- ==== Sys2Proof/Machine/Starts.lean ====
section
/-! DEFINITION. The start of a burst: filling (R135, R163), the start across chips (R584), and what vector 0 or a restart's vector c does
to counters, regions, masks, chains, acquisitions, meters and trigger units (R268, R278, R302-R304, R334, R353, R366, R382). -/

namespace Sys2Proof.Machine

/-- The slice has filled its expansion queue (R135): 32 vectors, or every remaining one. -/
def Seq.filled (q : Seq) : Bool := q.state = 1 && q.endAt.isNone && (32 ≤ q.level || ((q.ended || q.fault.isSome) && q.level = (q.queue.map Run.count).sum))

/-- Every slice of a site or group has filled. -/
def State.filled (s : State) (e : Ent) : Bool :=
  !(s.entSlices e).isEmpty && (s.entSlices e).all (fun g => (s.sl g).seq.filled)

/-! ### Counters and masks -/

/-- POST_COUNT of a site's FAIL region, once the region has restarted. -/
def State.postCountOf (s : State) (x : Site) : Nat := (s.regionOf x.id 1).elim 0 Region.postCount

/-- The results of a site at vector 0 (R268, R272). -/
def State.resetResult (s : State) (x : Site) (b : Burst) : State :=
  let masked := s.masked x
  (s.upRes x.id (fun _ => { site := x.id, obj := b.obj, postCount := s.postCountOf x, maskVec := if masked then some 0 else none })).setChCounts
    x []

/-- A member's mask bit is set under R89, so that no restart clears it. -/
def State.stuck (s : State) (x : Site) : Bool := match x.group with
  | none => false
  | some g => match s.memberIdx g x.id, s.entSlices (.group g) with
    | some i, k :: _ => (s.sl k).sticky.testBit i
    | _, _ => false

/-- The results of a site at a restart (R302, R304). A member masked under R89 since the checkpoint is masked from its vector on (R79). -/
def State.restoreResult (s : State) (x : Site) (b : Burst) (k : Ckpt) : State :=
  let c := (kGet k.snap.counts x.id).getD {}
  let v := (kGet k.snap.maskVecs x.id).or (if s.stuck x then some k.vec else none)
  (s.upRes x.id (fun _ => { site := x.id, obj := b.obj, postCount := s.postCountOf x, counts := c, maskVec := v, restored := true })).setChCounts x
    c.ch

/-- What a restart restores on slice g: slice counters, mask, previous drives, and the REPLAY records (R105, R106, R289, R304). -/
def State.restoreSlice (s : State) (g : Nat) (c : Cx) (k : Ckpt) (t : Nat) : State :=
  let n := g / 4
  let e := c.b.ent
  let (f, lo, hi) := (kGet k.snap.parts n).getD (k.snap.sliceFail, k.snap.sliceFirst, k.snap.sliceLast)
  let s1 := (s.setSliceCounts g f lo hi).setSiteMask g (k.snap.mask ||| (s.sl g).sticky)
  let pins := s1.chanPins e n
  let s2 := s1.upCl n (fun cl => { cl with chans := pins.foldl (fun a x =>
    a.modify x.c (fun ch => { ch with prev := rpDrive c.rd c.h k.rp x.p })) cl.chans })
  ((s2.failSites e).filter (fun i => !s2.silent i k.vec)).foldl (fun s i => (s.pay g 1).pushRec g e i k.vec (replayRec n k.vec (s.scaled t) i (s.recMember i) k.rp)) s2

/-! ### Regions (R278, R334) -/

/-- The FAIL and BITMAP regions of a site restart at vector 0. -/
def State.startRegions (s : State) (x : Site) (b : Burst) : State :=
  let s1 := match s.regionOf x.id 1 with
    | some r => s.upRegion r.id (fun r => r.restart)
    | none => s
  match s1.regionOf x.id 2 with
  | none => s1
  | some r =>
    let unit := b.apgUnit.or (s1.apgUnit b.ent)
    let su := (unit.map (fun k => (s1.apgs.getD k {}).setup)).getD []
    s1.upRegion r.id (fun r => match unit with
      | some k => { r.restart with bmX := suBmX su, bmY := suBmY su, bmIo := suBmIo su, bmUnit := k, objId := b.obj }
      | none => { r.restart with objId := b.obj })

/-! ### The start -/

/-- Slice g starts its first vector at time t, 0.5 ps (R163, R173-R175, R291, R307). The checkpoint of the burst before leaves its register
here (R174; DESIGN CHOICE, log entry 32). -/
def State.startSlice (s : State) (g t : Nat) : State :=
  match s.cx g with
  | none => s
  | some c =>
    let n := g / 4
    let s1 := (s.settleCredit n t).upSeq g (fun q => { q with state := 2, time := t, grid := t, startStamp := s.scaled t / 2000, segs := [] })
    let shift := s1.rf F.CL_CAP_CTL_SUM_SHIFT [n]
    let s2 := s1.upCap g (fun _ => { shift := shift, credit := 8192 * 24000000, creditT := t, due := c.b.restart.elim 0 (fun k => k.snap.due)
                                     intT := t - c.b.restart.elim 0 (fun k => k.snap.span) })
    let s3 := (s2.setRf (F.CL_SEQ_HZN_HZN.at (g % 4)) [n] (s2.sl g).seq.hzn).setCkptReg g c.b.restart
    match c.b.restart with
    | none => s3.setSliceCounts g 0 none none
    | some k => s3.restoreSlice g c k t

/-- Trigger units that a burst's vector 0 arms: MODE 1 with ARM_BURST on one of its slices (R366). -/
def State.armBurst (s : State) (e : Ent) (t : Nat) : State :=
  (List.range 96).foldl (fun s k =>
    let i := tIdx k
    if s.rf F.CL_TRG_CTL_MODE i = 1 && s.rb F.CL_TRG_CTL_ARM_BURST i &&
        (s.entSlices e).contains (4 * (k / 8) + s.rf F.CL_TRG_CTL_REF_SLICE i) then s.armTrig k t else s) s

/-- A burst of the chains' site runs, or has ended: while it runs, those with FREEZE_BURST act as frozen (R343). -/
def State.freezeChains (s : State) (e : Ent) (on : Bool) : State :=
  ((s.entSites e).flatMap (fun x => bitList 24 x.chain)).foldl (fun s k => s.upChain k (fun c => { c with frozen := on })) s

/-- The burst of a site or group starts at time t, 0.5 ps. -/
def State.startBurst (s : State) (e : Ent) (t : Nat) : State :=
  match s.burst e with
  | none => s
  | some b =>
    let fresh := b.restart.isNone
    let seed := match b.restart.bind (fun k => k.snap.minFail) with
      | some v => winAdd [] v
      | none => []
    let s1 := s.upBurst e (fun b => { b with running := true, startStamp := s.scaled t / 2000, wins := seed, own := [], mfail := [], strobes := [] })
    let s2 := (s.entSites e).foldl (fun s x => match b.restart with
      | none => (s.startRegions x b).resetResult x b
      | some k => s.restoreResult x b k) s1
    let s3 := (s.entSlices e).foldl (fun s g => s.startSlice g t) s2
    let s4 := match b.apgUnit with
      | some k =>
        let r := ((s.entSlices e).head?.map (fun g => (s.sl g).seq.queue.head?.elim (s.sl g).seq.apg Run.apg)).getD {}
        { s3 with apgs := s3.apgs.modify k (fun a => { a with regs := r }) }.incRf F.APG_BIND_BURSTS [k]
      | none => s3
    let s5 := s4.freezeChains e true
    let again : Bool := match b.owner with
      | .task tid => (s.task tid).any (fun t => (t.ops.getD 0 {}).v0)
      | _ => false
    if !fresh then s5
    else if again then s5.armBurst e t
    else
      let s5 : State := match b.owner with
        | .task tid => s5.upTask tid (fun t => { t with ops := t.ops.modify 0 (fun o => { o with v0 := true }) })
        | _ => s5
      let s6 := (s5.entSites e).foldl (fun s x => if (s.acq x.id).any (fun a => a.withBurst && !a.running && a.stopAt.isNone) then
        s.startAcq x.id (t / 2000) else s) s5
      let s7 := (s6.withBurstMeters e).foldl (fun s k => s.armMeter k (t / 2000)) s6
      s7.armBurst e t

/-- Every part of a multi-slice burst is ready: the leading chip sets the start time, computes H from the timing sets of this moment, and
tells the other chips (R33, R82, R154, R584). -/
def State.setStart (s : State) (e : Ent) : State :=
  match s.burst e with
  | none => s
  | some b =>
    let t0 := s.dtime + s.rf F.RING_CFG_START_LEAD
    let h := match kGet s.objs b.obj with
      | some o => s.horizon e (hdrOf (s.rd o))
      | none => 128
    let s1 := (s.entSlices e).foldl (fun s g => s.upSeq g (fun q => { q with hzn := h })) (s.upBurst e (fun b => { b with startAt := some t0 }))
    match s.entX e with
    | some x => s1.broadcast 0x66 1 t0 (x.id + h * 2 ^ 16 + b.tag * 2 ^ 32)
    | none => s1

/-- The leading chip of a cross-chip burst counts a part as ready, and with every part ready starts it (R582, R584). -/
def State.noteReady (s : State) (e : Ent) (pos : Nat) : State :=
  match s.burst e, s.entX e with
  | some b, some x =>
    let ready := if b.ready.contains pos then b.ready else b.ready ++ [pos]
    let s1 := s.upBurst e (fun b => { b with ready := ready })
    if x.leader = s.pos && b.startAt.isNone && x.span ≤ ready.length then s1.setStart e else s1
  | _, _ => s

/-- BURST_START (R135, R163, R584): a part of a cross-chip burst that has filled reports READY first; the slices of a site in several clusters
of one chip start in the same way, at a start time set once all of them have filled (R33). Starts are whole ns of the time scale (R587). -/
def doBurstStart (isGroup : Bool) (id t : Nat) (s0 : State) : State :=
  let e : Ent := if isGroup then .group id else .site id
  match s0.burst e with
  | none => s0
  | some b =>
    if !b.admitted || b.running || b.fin.isSome || !s0.filled e || !(s0.entSlices e).all (fun g => s0.islUp (g / 4)) ||
        (b.apgUnit.isSome && !s0.islUp 27) then s0
    else
      let s := s0.at t
      match s.entX e with
      | none =>
        if !s.multi e then s.startBurst e ((2000 * s.dtime : Int) - s.ringT.xoff).toNat
        else match b.startAt with
          | none => s.setStart e
          | some t0 => if t0 ≤ t then s.startBurst e ((2000 * t0 : Int) - s.ringT.xoff).toNat else s
      | some x =>
        if !s.crossOk then s.stopEnt e s.dtime St.linkDown
        else match b.startAt with
        | none =>
          if b.ready.contains s.pos then s
          else if x.leader = s.pos then s.noteReady e s.pos
          else (s.upBurst e (fun b => { b with ready := b.ready ++ [s.pos] })).broadcast 0x66 0 s.dtime (x.id + b.tag * 2 ^ 32)
        | some t0 => if t0 ≤ t then s.startBurst e ((2000 * t0 : Int) - s.ringT.xoff).toNat else s

/-! ### VECTOR_START -/

/-- VECTOR_START (R223). Where the vector is not formed yet and the issuer could still form it in time, nothing starts (log entry 26); a
burst whose stop vector it is ends, also at a steered vector with neither path issued (R165, R176). -/
def doVectorStart (n sl : Nat) (smp : List Sample) (s00 : State) : State :=
  let g := gOf n sl
  let s0 := if (s00.sl g).seq.state = 2 then s00.boundaryXoff else s00
  match s0.cx g with
  | none => s0
  | some c =>
    let q := (s0.sl g).seq
    if !c.b.running || (q.state ≠ 2 && q.state ≠ 3) || q.endAt.isSome then s0
    else if q.queue.isEmpty && !q.ended && !q.fault.any (fun f => f.1 = q.next) && !q.late && !q.stopDue then s0
    else
      let s := s0.at (q.time / 2000)
      match s.endCause c n q with
      | some x => s.endPart g c x
      | none =>
        match q.queue with
        | [] => s
        | r :: rest => ((s.applyVector g c r rest smp).markEdges g c.b.ent q.time r.mark).settleEnd g

/-- VECTOR_START. -/
def execVectorStart (n sl : Nat) (smp : List Sample) (s : State) : Host.Outcome State Fault Refusal := .next (doVectorStart n sl smp s)
/-- BURST_START. -/
def execBurstStart (isGroup : Bool) (id t : Nat) (s : State) : Host.Outcome State Fault Refusal := .next (doBurstStart isGroup id t s)

end Sys2Proof.Machine
end

