-- ==== Sys2Proof/Machine/EndBurst.lean ====
section
/-! DEFINITION. How bursts are submitted, wait and complete: RUN_BURST as a descriptor (R490), the waits of admission (R193, R195, R196),
completion (R167, R173, R272, R296, R411), retries (R420-R423), and the unloading of patterns (R122). -/

namespace Sys2Proof.Machine

/-! ### Results (R411) -/

/-- How a burst ended: status before qualifiers, first vector not applied, check report with its vector, admission reason. -/
structure BEnd where
  status : Nat
  exec : Nat := 0
  pcWhere : Nat := 0
  pcheck : Nat := 0
  stream : Nat := 0xFF
  reason : Nat := 0
  deriving DecidableEq, Repr

/-- Bytes 32 to 127 of the result of a burst that applied nothing and counted nothing. -/
def noBurstBody (named : Nat) : List Byte :=
  zeros 48 ++ (List.range 4).flatMap (fun _ => leBytes 8 0xFFFFFFFFFFFF) ++ zeros 8 ++ leBytes 4 named

/-- FAIL_VECS, FIRST_FAIL and LAST_FAIL of a burst (R411). -/
def State.failsOf (s : State) (e : Ent) : Nat × Option Nat × Option Nat := match e with
  | .group _ => match s.entSlices e with
    | g :: _ => s.sliceCounts g
    | [] => (0, none, none)
  | .site id =>
    let c := (s.resOf id).counts
    if (s.site id).any Site.multi && s.leads e then (c.xFail, c.xFirst, c.xLast) else (c.failVecs, c.first, c.last)

/-- The last checkpoint that every part has committed, with the slice counters of the parts (R162, R302). -/
def State.lastCkpt (s : State) (e : Ent) : Option Ckpt :=
  let qs := (s.entSlices e).map (fun g => (g, (s.sl g).seq))
  match qs with
  | [] => none
  | [(_, q)] => q.ckpt
  | _ =>
    match qs.foldl (fun a p => match a, p.2.ckpt with
      | some v, some k => some (min v k.vec)
      | _, _ => none) (some (2 ^ 48)) with
    | none => none
    | some v =>
      let own (q : Seq) : Option Ckpt := (q.ckpt.filter (fun k => k.vec = v)).or (q.ckptOld.filter (fun k => k.vec = v))
      let parts := qs.filterMap (fun p => (own p.2).map (fun k => (p.1 / 4, k.snap.sliceFail, k.snap.sliceFirst, k.snap.sliceLast)))
      let cks := qs.filterMap (fun p => (own p.2).map (fun k => (p.1 / 4, k)))
      (qs.head?.bind (fun p => own p.2)).map (fun k =>
        -- each part's channels count as its own slice had them at c (R302)
        let counts := k.snap.counts.map (fun c => (c.1, match s.site c.1 with
          | some x => { c.2 with ch := cks.foldl (fun a p => chMix x p.1 ((kGet p.2.snap.counts c.1).getD {}).ch a) c.2.ch }
          | none => c.2))
        { k with snap := { k.snap with parts := parts, counts := counts } })

/-- DTIME at which the last applied vector of a site or group ends, ns. -/
def State.endTime (s : State) (e : Ent) : Nat := (s.entSlices e).foldl (fun a g => max a ((s.sl g).seq.time / 2000)) 0

/-- The body of a burst's result. -/
def State.burstBody (s : State) (b : Burst) (exec : Nat) (ck : Option Ckpt) : List Byte :=
  let e := b.ent
  let q := ((s.entSlices e).head?.map (fun g => (s.sl g).seq)).getD {}
  let (n, first, last) := s.failsOf e
  let rs := (s.entSites e).map (fun x => s.resOf x.id)
  leBytes 8 exec ++ leBytes 2 q.hzn ++ leBytes 2 (ck.elim 0 (fun k => k.rp + 2 ^ 15)) ++ zeros 4 ++ leBytes 8 b.startStamp ++
    leBytes 8 (s.endTime e) ++ leBytes 8 (ck.elim 0 Ckpt.vec) ++ leBytes 8 n ++ leBytes 8 (vecOr first) ++ leBytes 8 (vecOr last) ++
    leBytes 8 (vecOr b.redFirst) ++ leBytes 8 (vecOr b.redLast) ++ leBytes 4 (sat 32 (rs.map SiteRes.records).sum) ++
    leBytes 4 (sat 32 (rs.map SiteRes.lost).sum) ++ leBytes 4 b.named

/-- The result of a burst (R409, R411, R495). -/
def State.burstResult (s : State) (b : Burst) (x : BEnd) (ck : Option Ckpt) : Result :=
  let st := withQual x.status b.qual
  let rep := st = St.badPattern || (st = St.memUe && x.pcheck ≠ 0)
  { status := st, qual := b.qual, reason := if rep then x.pcheck else x.reason, aux := if rep then x.stream else 0, val0 := x.exec
    val1 := if b.running then (s.failsOf b.ent).1 else 0, rreason := x.reason, pcheck := if rep then x.pcheck else 0, obj := b.obj
    stream := if rep then x.stream else 0, pcWhere := if rep then x.pcWhere else 0
    body := if b.running then s.burstBody b x.exec ck else noBurstBody b.named }

/-! ### Completion (R167, R173, R192, R420) -/

/-- WITH_BURST work of a site or group when its RUN_BURST is over: running acquisitions stop; if no attempt started vector 0, work that
waits ends with ABORTED (R353, R382, R420). -/
def State.endWithBurst (s : State) (e : Ent) (started : Bool) : State :=
  let s1 := (s.entSites e).foldl (fun s x => match s.acq x.id with
    | some a => if a.withBurst && a.running then s.stopAcq x.id St.ok s.dtime
      else if a.withBurst && a.stopAt.isNone && !started then s.stopAcq x.id St.aborted s.dtime else s
    | none => s) s
  if started then s1 else (s1.withBurstMeters e).foldl (fun s k => s.stopMeas k St.aborted) s1

/-- The registers that hold how a burst ended on a slice, with its own stop vector and check (R131, R173), and the slice's state after it
(R166). -/
def State.endSlice (s : State) (g : Nat) (st : Nat) (x : BEnd) : State :=
  let i := [g / 4, g % 4]
  let y := (s.sl g).seq.endAt.getD { vec := x.exec, status := st }
  ((((s.setRf F.CL_SEQ_END_END_VEC i y.vec).setRf F.CL_SEQ_END_STATUS i st).setRf F.CL_SEQ_END_PCHECK i
    (if st = St.badPattern then y.pcheck else 0))).upSeq g (fun q => { q with
      state := if q.state = 4 || q.hold then 4 else 0, queue := [], avail := [], held := none, frames := [], calls := [] })

/-- The per-site results and final headers of a burst that ran (R272, R282, R334). -/
def State.endSites (s : State) (b : Burst) (st : Nat) (x : BEnd) : State :=
  (s.entSites b.ent).foldl (fun s y =>
    let s1 := s.upRes y.id (fun r => { r with
      status := st, qual := b.qual, exec := x.exec, obj := b.obj, redFirst := r.redFirst, redLast := r.redLast })
    let s2 := match s1.regionOf y.id 2 with
      | some r => (s1.upRegion r.id (fun r => { r with endT := s1.endTime b.ent })).endHeader r.id
      | none => s1
    let s3 := match s2.regionOf y.id 1 with
      | some r => s2.endHeader r.id
      | none => s2
    (s3.mirror { kind := 4, key := [y.id], data := s3.siteResult y }).unprotEnd y.id false) s

/-- Another chip's part was blocked while the burst was here: so is the site (R87). -/
def State.blockLate (s : State) (b : Burst) : State :=
  if b.block && !s.blocked b.ent then s.blockHere b.ent else s

/-- A burst is over: its registers, results and headers, its reservations, the slices and sites that waited for it, its completion,
WITH_BURST work, and an admission scan. A restart that commits no checkpoint of its own keeps the one it began at if it has started, and has
none if not (R179; DESIGN CHOICE, log entry 32). -/
def State.finishBurst (s0 : State) (b0 : Burst) (x : BEnd) : State :=
  let e := b0.ent
  let s1 := if b0.running && s0.dipAt (s0.endTime e) then s0.qualify e 3 else s0
  let b := (s1.burst e).getD b0
  let ck := if b.running then s1.lastCkpt e else none
  let st := withQual x.status b.qual
  let s2 := if b.running then s1.endSites b st x else s1
  let r := s2.burstResult b x ck
  let s3 := if b.admitted then ((s2.entSlices e).foldl (fun s g => s.endSlice g st x) s2).freezeChains e false else s2
  let s4 := match s3.entX e with
    | some y => s3.upSite y.id (fun y => { y with tag := (y.tag + 1) % 256 })
    | none => s3
  let resumable := (kGet s4.objs b.obj).any (fun o => (s4.hdr o).resumable)
  let started : Bool := match b.owner with
    | .task tid => (s4.task tid).any (fun t => (t.ops.getD 0 {}).v0)
    | _ => b.running
  let s5 := (((s4.release b).settleSlices e).blockLate b).opEnd b.owner 0 r ck resumable
  let again : Bool := match b.owner with
    | .task tid => (s5.task tid).any (fun t => (t.ops.getD 0 {}).retryAt.isSome)
    | _ => false
  (if again then s5 else s5.endWithBurst e started).scan.alignResume

/-- A burst that has started nothing leaves admission with a status (R193, R421). On a site that spans chips no part starts, and this part
completes once the others have reported (R83). -/
def State.dropBurst (s : State) (e : Ent) (status reason : Nat) : State :=
  match s.burst e with
  | none => s
  | some b =>
    if (s.entX e).isSome then (s.endStart e status reason).tellNogo e status else s.finishBurst b { status := status, reason := reason }

/-- A stop reaches the burst of a site or group, queued, filling or running (R164, R165, R421). -/
def State.stopBurst (s : State) (e : Ent) (status : Nat) : State :=
  match s.burst e with
  | none => s
  | some b => if b.admitted then s.stopEnt e s.dtime status else s.dropBurst e status 0

/-- How the parts of a burst ended, together (R84, R131, R164): the check report is that of the earliest vector, then of the lowest code
(R169); where no part here found the fault, PC_WHERE is the stop vector. -/
def joinEnds (l : List EndAt) : BEnd :=
  let st := (l.map EndAt.status).foldl max 0
  let vec := (l.map EndAt.vec).foldl min ((l.map EndAt.vec).headD 0)
  let rep := bestBy (fun x => [x.vec, x.pcheck]) (l.filter (fun x => x.pcheck ≠ 0))
  { status := st, exec := vec, pcWhere := rep.elim vec EndAt.vec, pcheck := rep.elim 0 EndAt.pcheck, stream := rep.elim 0xFF EndAt.pstream
    reason := ((l.find? (fun x => x.status = st)).map EndAt.reason).getD 0 }

/-- Every record and bitmap line of a site or group has been written (R167, R299). -/
def State.drained (s : State) (e : Ent) : Bool :=
  let gs := s.entSlices e
  let rs := (s.entSites e).filterMap (fun x => (s.regionOf x.id 2).map Region.id)
  s.clusters.all (fun c => c.cap.buf.all (fun r => !gs.contains r.slice) && c.cap.combiner.all (fun l => !rs.contains l.region) &&
    c.cap.bmQueue.all (fun u => !rs.contains u.1))

/-- No part of a cross-chip burst has started: qualifiers that applied to the parts on other chips join this part's mask (R28, R83). No message
carries them, so they are free (log entry 33). -/
def State.noStartQual (s : State) (e : Ent) : State :=
  (s.upBurst e (fun b => { b with qual := b.qual ||| (Config.freeValue s.freeCtr % 32 * 2) })).draw

/-- BURST_COMPLETE (R167): every part has ended and its records are written, no earlier than the end of the last vector applied; a part
of a burst across chips waits 1,600 ns (R583). -/
def doBurstComplete (isGroup : Bool) (id : Nat) (s : State) : State :=
  let e : Ent := if isGroup then .group id else .site id
  match s.burst e with
  | none => s
  | some b =>
    let ends := (s.entSlices e).filterMap (fun g => (s.sl g).seq.endAt)
    let x := joinEnds ends
    if !b.running && b.fin.isSome then
      let s1 := if (s.entX e).isSome then s.noStartQual e else s
      s1.finishBurst ((s1.burst e).getD b) (joinEnds b.fin.toList)
    else if !b.admitted || ends.isEmpty || ends.length ≠ (s.entSlices e).length then s
    else if b.running && !s.ballastOn && (!s.drained e || ((s.entX e).isSome && s.dtime < s.endTime e + 1600)) then s
    else (if b.running && !s.ballastOn then s.at (s.endTime e) else s).finishBurst b x

/-! ### RUN_BURST (R416, R490) -/

/-- The result of a submission refused or denied at once, with the body of R411. -/
def refusedResult (r : Result) (named : Nat) : Result := { r with body := noBurstBody named }

/-- A burst across chips just submitted completes with LINK_DOWN where a ring link or the alignment it needs is missing (R37, R83, R587). -/
def State.needRing (s : State) (e : Ent) : State :=
  if (s.entX e).isSome && !s.crossOk && (s.burst e).isSome then s.dropBurst e St.linkDown 0 else s

/-- A submission (R188-R193), with the result with which it is over at once. On a site that spans chips what the other chips hold is a free
value (R81, R331; log entry 33), and a part that is refused or denied completes only once the other parts have reported (R83). -/
def State.submitX (s : State) (q : Submit) : State × Option Result :=
  match s.entX q.ent with
  | none => s.submit q
  | some y =>
    let was := s.busy q.ent
    let (s1, r) := s.draw.submit { q with others := Config.freeValue s.freeCtr }
    match r with
    | none => (s1.needRing q.ent, none)
    | some r =>
      if was then (s1, some r)
      else
        let b : Burst := { ent := q.ent, owner := q.owner, obj := r.obj, named := q.obj, mode := q.mode, prio := q.prio, arrival := s1.arrivals
                           submitted := s1.dtime, restart := q.restart, tag := y.tag
                           fin := some { vec := 0, status := r.status, pcheck := r.pcheck, pstream := 0xFF, reason := r.rreason } }
        ({ s1 with bursts := s1.bursts ++ [b], arrivals := s1.arrivals + 1 }.tellNogo q.ent r.status, none)

/-- RUN_BURST (R490). -/
def doRunBurst (sq idx : Nat) (s : State) : State :=
  s.withDesc sq idx 0x18 (fun d =>
    let b := d.bytes
    let site := fld b 16 2
    let group := fld b 18 2
    let e : Ent := if site ≠ 0xFFFF then .site site else .group group
    let q : Submit := { form := (site = 0xFFFF) != (group = 0xFFFF) && zeroes b 25 3 && zeroes b 32 32
                        ent := e, owner := .desc sq idx, obj := fld b 20 4, mode := fld b 24 1, wait := fld b 28 4
                        prio := s.rf F.RINGK_CFG_PRIO [sq] }
    let (s1, r) := (s.begin sq idx).submitX q
    match r with
    | some r => s1.complete sq idx (refusedResult r q.obj)
    | none => s1)

/-- The submission of a task's RUN_BURST step, for an attempt (R416, R422). -/
def taskSubmit (tid : Nat) (t : Task) (st : List Byte) (restart : Option Ckpt) : Submit :=
  { form := true, ent := if t.groupId ≠ 0xFFFF then .group t.groupId else .site t.siteId, owner := .task tid, obj := fld st 8 4
    mode := fld st 12 1, wait := fld st 16 4, prio := t.prio, restart := restart }

/-! ### Waits (R193, R195, R196) -/

/-- The burst of a command that names a site or group. -/
def entOf (isGroup : Bool) (id : Nat) : Ent := if isGroup then .group id else .site id

/-- ADM_WAIT_EXPIRY (R193). -/
def doAdmWaitExpiry (isGroup : Bool) (id t : Nat) (s : State) : State :=
  match s.burst (entOf isGroup id) with
  | none => s
  | some b =>
    if b.admitted || b.fin.isSome || !b.deadline.any (fun d => d ≤ t) then s
    else ((s.at t).incRf F.ADM_STAT_DENIED []).dropBurst b.ent St.denied 8

/-- AGE_LIMIT_EXPIRY (R195): from now on the burst blocks those behind it in the scan, which the scan reads from its wait. -/
def doAgeLimitExpiry (isGroup : Bool) (id t : Nat) (s : State) : State :=
  match s.burst (entOf isGroup id) with
  | none => s
  | some b => if b.admitted || b.fin.isSome || !(s.at t).aged b then s else (s.at t).scan

/-- XHOLD_EXPIRY (R196): an admitted part gives its reservations back and waits again. -/
def doXholdExpiry (isGroup : Bool) (id t : Nat) (s : State) : State :=
  let e := entOf isGroup id
  match s.burst e with
  | none => s
  | some b =>
    if !b.admitted || b.running || (s.entX e).isNone || b.startAt.isSome || b.fin.isSome ||
        t < b.admittedAt + 10000 * max 1 (s.rf F.ADM_CTL_XHOLD) then s
    else
      let s0 := s.at t
      let s1 := s0.release b
      let s2 := (s1.entSlices e).foldl (fun s g => s.upSeq g (fun q => { hold := q.hold, state := if q.hold then 4 else 0, started := q.started })) s1
      { s2 with bursts := s2.bursts ++ [{ b with
          admitted := false, waited := true, parts := [], ready := b.ready.filter (fun p => p ≠ s.pos) }] }.scan

/-! ### Retries (R421-R423) -/

/-- A retry that is pending is cancelled: the slot is written with ABORTED and the body of the last attempt (R421). -/
def State.cancelRetry (s : State) (tid k : Nat) : State :=
  match s.task tid with
  | none => s
  | some t =>
    let o := t.ops.getD k {}
    if o.retryAt.isNone then s
    else
      let s1 := (s.writeSlot tid k (setFld (setFld (setFld o.last 0 1 St.aborted) 3 1 0) 24 8 s.dtime)).settleTask tid
      if k = 0 then s1.endWithBurst (taskSubmit tid t o.step none).ent o.v0 else s1

/-- The next attempt of a task's burst is issued (R422, R423). -/
def State.retryBurst (s : State) (tid : Nat) (t : Task) (o : OpSlot) : State :=
  let q := taskSubmit tid t o.step o.restart
  let (s1, r) := s.submitX q
  match r with
  | none => s1
  | some r =>
    let s2 := s1.taskOpEnd tid 0 (refusedResult r q.obj) none true
    if (s2.task tid).any (fun t => (t.ops.getD 0 {}).retryAt.isSome) then s2 else s2.endWithBurst q.ent o.v0

/-! ### Unloading patterns (R122) -/

/-- UNLOAD_PATTERN (R122). -/
def doUnloadPattern (sq idx : Nat) (s : State) : State :=
  s.withDesc sq idx 0x09 (fun d =>
    let id := fld d.bytes 16 4
    match s.objFor d with
    | none => if kHas s.regions id then s.finish sq idx St.bad else s.finish sq idx St.noObject
    | some o =>
      if !zeroes d.bytes 20 44 || o.kind != .pattern then s.finish sq idx St.bad
      else if o.lost then (s.freeObj id).finish sq idx St.ok
      else
        let s1 := s.upObj id (fun o => { o with unloading := true })
        let s2 := (s1.bursts.filter (fun b => b.obj = id && !b.admitted)).foldl (fun s b => s.dropBurst b.ent St.aborted 0) s1
        if s2.bursts.any (fun b => b.obj = id) then s2.wait { sq := sq, idx := idx, kind := .unload id }
        else (s2.freeObj id).finish sq idx St.ok)

/-- DEFERRED_UNLOAD (R122). -/
def doDeferredUnload (sq idx : Nat) (s : State) : State :=
  match s.waitOf sq idx with
  | some { kind := .unload id, .. } =>
    if s.bursts.any (fun b => b.obj = id) then s else ((s.unwait sq idx).freeObj id).finish sq idx St.ok
  | _ => s

/-! ### Commands -/

/-- BURST_COMPLETE. -/
def execBurstComplete (isGroup : Bool) (id : Nat) (s : State) : Host.Outcome State Fault Refusal := .next (doBurstComplete isGroup id s)
/-- RUN_BURST. -/
def execRunBurst (sq idx : Nat) (s : State) : Host.Outcome State Fault Refusal := .next (doRunBurst sq idx s)
/-- ADM_WAIT_EXPIRY. -/
def execAdmWaitExpiry (isGroup : Bool) (id t : Nat) (s : State) : Host.Outcome State Fault Refusal :=
  .next (doAdmWaitExpiry isGroup id t s)
/-- AGE_LIMIT_EXPIRY. -/
def execAgeLimitExpiry (isGroup : Bool) (id t : Nat) (s : State) : Host.Outcome State Fault Refusal :=
  .next (doAgeLimitExpiry isGroup id t s)
/-- XHOLD_EXPIRY. -/
def execXholdExpiry (isGroup : Bool) (id t : Nat) (s : State) : Host.Outcome State Fault Refusal := .next (doXholdExpiry isGroup id t s)
/-- UNLOAD_PATTERN. -/
def execUnloadPattern (sq idx : Nat) (s : State) : Host.Outcome State Fault Refusal := .next (doUnloadPattern sq idx s)
/-- DEFERRED_UNLOAD. -/
def execDeferredUnload (sq idx : Nat) (s : State) : Host.Outcome State Fault Refusal := .next (doDeferredUnload sq idx s)

end Sys2Proof.Machine
end

