-- ==== Sys2Proof/Machine/Pe.lean ====
section
/-! DEFINITION. SET_PE and POWER_DUT (R424-R429): their checks, their course over the PE ports and DUTPWR_EN, and how they are cut
short (R421, R544). The steps that issue them are in Flow. -/

namespace Sys2Proof.Machine

/-! ### The sites and clusters of a task (R407, R424, R428) -/

/-- The site, member or group a task belongs to. -/
def Task.ent (t : Task) : Ent := if t.groupId ≠ 0xFFFF then .group t.groupId else .site t.siteId

/-- The sites a task acts on: its own, or its group's members. -/
def State.taskSites (s : State) (t : Task) : List Site := s.entSites t.ent

/-- The clusters they occupy, rising. -/
def State.taskClusters (s : State) (t : Task) : List Nat :=
  (List.range 12).filter (fun n => (s.taskSites t).any (fun x => x.local n ≠ 0))

/-- The clusters in which the task's site or group owns DUTPWR_EN (R74): a member's task acts for its group. -/
def State.dutpwrOf (s : State) (t : Task) : List Nat :=
  let xs := match t.ent with
    | .site id => match s.site id with
      | some x => match x.group with
        | some g => s.members g
        | none => [x]
      | none => []
    | .group g => s.members g
  (List.range 12).filter (fun n => xs.any (fun x => x.dutpwr && x.local n ≠ 0))

/-- CHAIN_MASK of the sites a task acts on. -/
def State.taskChains (s : State) (t : Task) : Nat := (s.taskSites t).foldl (fun a x => a ||| x.chain) 0

/-- The check of a PE list by its ID: NO_OBJECT, KIND, and HW_FAULT for one marked LOST; status and FCHECK, 0 where it passes. -/
def State.peListCheck (s : State) (id : Nat) : Nat × Nat := match s.obj id with
  | none => (if kHas s.regions id then St.bad else St.noObject, if kHas s.regions id then 0x28 else 0)
  | some o => if o.kind != .peList then (St.bad, 0x28) else if o.lost then (St.hwFault, 0) else (0, 0)

/-- A SET_PE step names an absent cluster (R9, R31). -/
def State.setPeAbsent (s : State) (st : List Byte) : Bool := fld st 8 1 ≠ 0xFF && s.clAbsent (fld st 8 1)

/-- A POWER_DUT step names an absent or retired filter chain (R9). -/
def State.powerAbsent (s : State) (st : List Byte) : Bool :=
  fld st 9 1 ≠ 0xFF && (s.nChain ≤ fld st 9 1 || s.chainsBad.contains (fld st 9 1))

/-- The checks of SET_PE in their order (R424): status and FCHECK. -/
def State.setPeCheck (s : State) (t : Task) (st : List Byte) : Nat × Nat :=
  let own := s.taskClusters t
  let ns := if fld st 8 1 = 0xFF then own else [fld st 8 1]
  if !ns.all (fun n => own.contains n && s.peUp n) then (St.bad, 0x27) else s.peListCheck (fld st 12 4)

/-- The checks of POWER_DUT in their order (R428, R403): status and FCHECK. -/
def State.powerCheck (s : State) (t : Task) (st : List Byte) : Nat × Nat :=
  let own := s.dutpwrOf t
  let k := fld st 9 1
  if own.isEmpty then (St.bad, 0x25)
  else if k ≠ 0xFF && (!(s.taskChains t).testBit k || s.cf F.FCHAIN_CTL_EN k = 0) then (St.bad, 0x27)
  else if fld st 12 4 = 0xFFFFFFFF then (0, 0)
  else if !own.all s.peUp then (St.bad, 0x27)
  else s.peListCheck (fld st 12 4)

/-! ### SET_PE -/

/-- The operation of a task's SET_PE. -/
def State.peOp (s : State) (tid : Nat) : Option PeOp := s.paddock.peOps.find? (fun o => o.tid = tid)

/-- The state with a SET_PE changed. -/
def State.upPeOp (s : State) (tid : Nat) (f : PeOp → PeOp) : State :=
  { s with paddock := { s.paddock with peOps := s.paddock.peOps.map (fun o => if o.tid = tid then f o else o) } }

/-- SET_PE begins: its list is queued on each named port. -/
def State.startSetPe (s : State) (tid : Nat) (t : Task) (st : List Byte) : State :=
  let ns := if fld st 8 1 = 0xFF then s.taskClusters t else [fld st 8 1]
  let s1 := { s with paddock := { s.paddock with peOps := s.paddock.peOps ++ [{ tid := tid, list := fld st 12 4, left := ns, lowest := ns.headD 0 }] } }
  ns.foldl (fun s n => s.peQueue n { list := fld st 12 4, user := .setPe tid }) s1

/-- The body of a SET_PE result (R411). -/
def PeOp.body (o : PeOp) : List Byte :=
  leBytes 2 o.frames ++ leBytes 1 (sat 8 o.reads.length) ++ zeros 5 ++ (o.reads.take 16).flatMap (leBytes 4)

/-- A SET_PE with no port left ends. -/
def State.settlePe (s : State) (tid : Nat) : State :=
  match s.peOp tid with
  | none => s
  | some o =>
    if !o.left.isEmpty then s
    else
      { s with paddock := { s.paddock with peOps := s.paddock.peOps.filter (fun x => x.tid ≠ tid) } }.taskOpEnd tid 3
        { status := o.st, obj := o.list, body := o.body } none false

/-- A SET_PE is cut short with a status: lists not started leave their queues, one in progress stops after its frame (R421). -/
def State.cutSetPe (s : State) (tid st : Nat) : State :=
  match s.peOp tid with
  | none => s
  | some o =>
    let s0 := { s with paddock := { s.paddock with peWaits := s.paddock.peWaits.filter (fun w => w.item.user ≠ .setPe tid) } }
    let r := o.left.foldl (fun (a : State × List Nat) n =>
      let (s, on) := a.1.peCut n (.setPe tid) st
      (s, if on then a.2 ++ [n] else a.2)) (s0, [])
    let s1 := o.left.foldl (fun s n => s.peRoom n) (r.1.upPeOp tid (fun o => { o with left := r.2, st := max o.st st }))
    (s1.settlePe tid).peIssued (.setPe tid)

/-! ### POWER_DUT -/

/-- The sequence of a task's POWER_DUT. -/
def State.powerOf (s : State) (tid : Nat) : Option PowerSeq := s.paddock.powers.find? (fun p => p.tid = tid)

/-- The state with a sequence changed. -/
def State.upPower (s : State) (tid : Nat) (f : PowerSeq → PowerSeq) : State :=
  { s with paddock := { s.paddock with powers := s.paddock.powers.map (fun p => if p.tid = tid then f p else p) } }

/-- A sequence ends with a status (R411, R429). -/
def State.endPower (s : State) (tid st : Nat) : State :=
  match s.powerOf tid with
  | none => s
  | some p =>
    let body := leBytes 1 (b2n (s.pePort (p.clusters.headD 0)).dutpwr) ++ leBytes 1 (b2n p.tripped) ++ leBytes 1 p.chain ++ zeros 5 ++
      leBytes 4 (ofSigned 32 (p.aMax.getD 0)) ++ leBytes 4 (ofSigned 32 p.aEnd) ++ leBytes 8 p.enTime
    ({ s with paddock := { s.paddock with
        powers := s.paddock.powers.filter (fun x => x.tid ≠ tid)
        peWaits := s.paddock.peWaits.filter (fun w => w.item.user ≠ PeUser.power tid) } }.taskOpEnd tid 3
      { status := st, obj := p.list, body := body } none false).peIssued (.power tid)

/-- The list of a sequence is queued on the ports of its clusters. -/
def State.powerList (s : State) (tid : Nat) (p : PowerSeq) (phase : Nat) : State :=
  p.clusters.foldl (fun s n => s.peQueue n { list := p.list, user := .power tid })
    (s.upPower tid (fun p => { p with phase := phase, left := p.clusters }))

/-- DUTPWR_EN of the sequence's clusters changes, and the settle time begins (R429). -/
def State.powerSwitch (s : State) (tid : Nat) (p : PowerSeq) : State :=
  let change := p.clusters.any (fun n => (s.pePort n).dutpwr != p.on)
  (p.clusters.foldl (fun s n => s.setDutpwr n p.on) s).upPower tid (fun q => { q with
    phase := 1, enTime := if change then s.dtime else 0, settleEnd := s.dtime + 1000 * q.settle })

/-- POWER_DUT begins. -/
def State.startPower (s : State) (tid : Nat) (t : Task) (st : List Byte) : State :=
  let p : PowerSeq := { tid := tid, on := fld st 8 1 = 1, chain := fld st 9 1, mask := s.taskChains t, list := fld st 12 4
                        settle := fld st 16 4, clusters := s.dutpwrOf t, phase := 0, left := [] }
  let s1 := { s with paddock := { s.paddock with powers := s.paddock.powers ++ [p] } }
  if p.on && p.list ≠ 0xFFFFFFFF then s1.powerList tid p 0 else s1.powerSwitch tid p

/-- The settle time of a sequence has passed (R429). -/
def State.powerSettled (s : State) (tid : Nat) (p : PowerSeq) : State :=
  if p.st ≠ 0 then s.endPower tid p.st
  else if p.on then
    let a := if p.chain < 24 then (s.chain p.chain).a else 0
    (s.upPower tid (fun p => { p with aEnd := a, aMax := if p.chain < 24 then some (p.aMax.getD a) else none })).endPower tid St.ok
  else if p.list = 0xFFFFFFFF then s.endPower tid St.ok
  else s.powerList tid p 2

/-- POWER_DUT_SETTLE_END (R429). -/
def doPowerDutSettleEnd (tid t : Nat) (s : State) : State :=
  match s.powerOf tid with
  | none => s
  | some p => if p.phase = 1 && p.settleEnd ≤ t then (s.at t).powerSettled tid p else s

/-- A port has sent the list of a sequence. -/
def State.powerListDone (s : State) (tid n st : Nat) : State :=
  match s.powerOf tid with
  | none => s
  | some p0 =>
    let p := { p0 with left := p0.left.filter (· ≠ n), st := max p0.st st }
    let s1 := s.upPower tid (fun _ => p)
    if !p.left.isEmpty then s1
    else if p.st ≠ 0 then s1.endPower tid p.st
    else if p.phase = 0 then s1.powerSwitch tid p
    else s1.endPower tid St.ok

/-- A sequence is to stop after the action in progress (R421). -/
def State.cutPower (s : State) (tid st : Nat) : State := s.upPower tid (fun p => { p with st := max p.st st })

/-! ### The ports -/

/-- PE_LIST_DONE (R425-R427, R544): the frames have left, and the list's user goes on. -/
def doPeListDone (n : Nat) (bits : List Nat) (s : State) : State :=
  let p := s.pePort n
  match p.queue with
  | [] => s
  | i :: rest =>
    if !p.busy then s
    else
      let fs := match i.upto with
        | some k => (s.peFrames i.list).take k
        | none => s.peFrames i.list
      let s1 := ((s.peSend n fs).upPe n (fun p => { p with queue := rest, busy := false })).peRoom n
      match i.user with
      | .setPe tid =>
        (s1.upPeOp tid (fun o => { o with
          left := o.left.filter (· ≠ n), st := max o.st i.st
          frames := if o.lowest = n then fs.length else o.frames
          reads := if o.lowest = n then readWords fs bits else o.reads })).settlePe tid
      | .power tid => s1.powerListDone tid n i.st
      | .calib sq idx r => s1.calListDone sq idx i.st r
      | .orphan => s1

/-- Every list on a port is abandoned, and the work it belongs to ends with a status (R34, R643). -/
def State.pePortFail (s : State) (n st : Nat) : State :=
  let users := ((s.pePort n).queue.map PeItem.user ++
    (s.paddock.peWaits.filter (fun w => w.cluster = n)).map (fun w => w.item.user)).dedup
  let s1 := { s.upPe n (fun p => { p with queue := [], busy := false }) with paddock := { s.paddock with
    peWaits := s.paddock.peWaits.filter (fun w => w.cluster ≠ n) } }
  users.foldl (fun s u => match u with
    | .setPe tid => (s.upPeOp tid (fun o => { o with left := o.left.filter (· ≠ n) })).cutSetPe tid st
    | .power tid =>
      let s2 : State := match s.powerOf tid with
        | some p => p.clusters.foldl (fun s m => s.peOrphan m u false) s
        | none => s
      s2.endPower tid st
    | _ => s) s1

/-- The list at the head of a port meets an uncorrectable error in its frame k (R544). -/
def State.peUe (s : State) (n k : Nat) : State :=
  s.upPe n (fun p => { p with queue := match p.queue with
    | i :: r => { i with upto := some (min k (i.upto.getD k)), st := max i.st St.memUe } :: r
    | [] => [] })

/-! ### Commands -/

/-- POWER_DUT_SETTLE_END. -/
def execPowerDutSettleEnd (tid t : Nat) (s : State) : Host.Outcome State Fault Refusal := .next (doPowerDutSettleEnd tid t s)
/-- PE_LIST_DONE. -/
def execPeListDone (n : Nat) (bits : List Nat) (s : State) : Host.Outcome State Fault Refusal := .next (doPeListDone n bits s)

end Sys2Proof.Machine
end

