-- ==== Sys2Proof/Machine/Flow.lean ====
section
/-! DEFINITION. The steps of flow programs (12_flow_steps.md): what a running task executes on its core, one command per step, and
two for a step that waits (R443, R444, R457). A step command acts when its task runs, is not held at a boundary, and its next step
has the command's opcode; every step command finds a step past the program's end. -/

namespace Sys2Proof.Machine

/-! ### The end of a task (R421, R436) -/

/-- The outstanding operation in slot k of a task ends with ABORTED, and a pending retry is cancelled (R421). -/
def State.abortSlot (s : State) (tid k : Nat) : State :=
  match s.task tid with
  | none => s
  | some t =>
    let o := t.ops.getD k {}
    if !o.busy then s
    else if o.retryAt.isSome then s.cancelRetry tid k
    else match k with
      | 0 => match s.bursts.find? (fun b => b.owner = .task tid) with
        | some b => s.stopBurst b.ent St.aborted
        | none => s
      | 1 => ((List.range 48).filter (fun m => (s.meter m).state ≠ 0 && (s.meter m).owner = .task tid)).foldl
          (fun s m => s.stopMeas m St.aborted) s
      | 2 => (s.acqs.filter (fun a => a.owner = .task tid && a.stopAt.isNone)).foldl (fun s a => s.stopAcq a.site St.aborted s.dtime) s
      | _ => if (s.powerOf tid).isSome then s.cutPower tid St.aborted else s.cutSetPe tid St.aborted

/-- A task leaves the slot that ran or buffered it; `t` is the task before. -/
def State.leaveSlot (s : State) (tid : Nat) (t : Task) : State :=
  let f := s.fslot t.slot
  if t.state = 3 then s.coreFree t.slot
  else if t.state = 2 && f.buf = some tid then
    let s1 := (s.upFslot t.slot (fun f => { f with buf := none, fetched := false, hold := false })).refillSlot t.slot
    if f.hold then s1.boundary t.slot else s1
  else s

/-- A task ends with a status (R436): it is ENDING, its operations end, and what follows waits for them. -/
def State.endTask (s : State) (tid st qual : Nat) (exit : Nat := 0) : State :=
  match s.task tid with
  | none => s
  | some t =>
    if t.state = 5 then s
    else
      let s1 := s.upTask tid (fun t => { t with
        state := 5, slot := 0xFF, wmask := 0, wall := false, wkind := 0, wakeT := 0, fin := some (st, qual), exit := exit, begun := false })
      let s2 := (s1.leaveSlot tid t).unqueueLocks (fun w => w == .task tid)
      let s3 := if s.isWarden tid then s2.setRf F.PADDOCK_WARDEN_VALID [] 0 else s2
      ((List.range 4).foldl (fun s k => s.abortSlot tid k) (s3.mirrorTask tid)).settleTask tid

/-! ### The commit of a step (R413, R443) -/

/-- Steps whose completion below 0x10 writes RES (R412). -/
def writesRes (op : Nat) : Bool := (1 ≤ op && op ≤ 7) || op = 9 || (0x11 ≤ op && op ≤ 0x13) || op = 0x15 || op = 0x16

/-- A task after a step has completed: RES, LAST_ERR and the position (R408, R412, R413). -/
def Task.endStep (t : Task) (st : List Byte) (status : Nat) (bs : List Byte) (go : Option (Nat × Nat)) : Task :=
  let err : Bool := 0x10 ≤ status
  let pos := if err then (t.flow, if stOnErr st = 0xFFFF then t.step else stOnErr st) else go.getD (t.flow, t.step + 1)
  { t with
    flow := pos.1, step := pos.2, steps := satAdd 32 t.steps 1, quantum := t.quantum + 1, lastStep := (t.step, t.flow)
    res := if err || writesRes (stOp st) then bs else t.res
    lastErr := if err then lastErrOf status (stOp st) t.step t.flow else t.lastErr
    begun := false, timedOut := false, lockAb := false, ack := none, wakeFlags := 0 }

/-- A running task that leaves its core for its ready list at a step boundary; one that is to be aborted ends there instead (R468). -/
def State.leaveCore (s : State) (tid : Nat) (f : State → State) : State :=
  match (s.task tid).bind Task.abortAt with
  | some (a, q) => s.endTask tid a q
  | none => f s

/-- A running task goes back to its ready list with a new READY_SEQ (R437, R463). -/
def State.yieldTask (s0 : State) (tid i : Nat) : State := s0.leaveCore tid (fun s =>
  let n := s.paddock.seq
  let s1 := { s with paddock := { s.paddock with seq := (n + 1) % 2 ^ 64 } }
  ((s1.upTask tid (fun t => { t with state := 1, readySeq := n, slot := 0xFF })).coreFree i).replace tid)

/-- A task goes back from a slot to READY with its READY_SEQ (R455). -/
def State.unslot (s : State) (tid : Nat) : State := s.upTask tid (fun t => { t with state := 1, slot := 0xFF })

/-- Tasks that slot i may not hold while the warden role stands leave it (R470). -/
def State.evict (s : State) (i : Nat) : State :=
  let out (s : State) (o : Option Nat) : Option Nat := o.filter (fun t => !s.slotFor t i)
  let s1 := match out s (s.fslot i).buf with
    | some t => (((s.upFslot i (fun f => { f with buf := none, fetched := false, hold := false })).unslot t).refillSlot i).replace t
    | none => s
  match out s1 (s1.fslot i).run with
  | some t => s1.leaveCore t (fun s => ((s.unslot t).coreFree i).replace t)
  | none => s1

/-- The tasks stand where the warden role lets them (R470). -/
def State.settleWarden (s : State) : State :=
  if s.rb F.PADDOCK_WARDEN_VALID then ((List.range 16).foldl (fun s i => s.evict i) s).check7 else s

/-- A step completes with a status and the 128 bytes of its result, and the core is at a step boundary (R413, R462). -/
def State.stepEnd (s : State) (tid : Nat) (st : List Byte) (status : Nat) (bs : List Byte) (go : Option (Nat × Nat)) (yields : Bool) :
    State :=
  match s.task tid with
  | none => s
  | some t =>
    let s1 := (s.upTask tid (fun _ => t.endStep st status bs go)).mirrorTask tid
    let s2 := match (s.fslot t.slot).phys with
      | some p => s1.incRf F.FC_STEPS_STEPS [p]
      | none => s1
    if 0x10 ≤ status && stOnErr st = 0xFFFF then s2.endTask tid status (fld bs 1 1)
    else match t.abortAt with
      | some (a, q) => s2.endTask tid a q
      | none => if yields then s2.yieldTask tid t.slot else s2.boundary t.slot

/-- A step completes with a result made here. -/
def State.stepDone (s : State) (tid : Nat) (t : Task) (st : List Byte) (r : Result) (go : Option (Nat × Nat) := none)
    (yields : Bool := false) : State :=
  s.stepEnd tid st r.status (r.bytes (stOp st) t.step 1 s.dtime) go yields

/-- The result of a failed run check (R403). -/
def runBad (fcheck : Nat) : Result := { status := St.bad, rreason := fcheck }

/-- The body of the result of a step that has done nothing (R411). -/
def State.stepBody (s : State) (t : Task) (st : List Byte) : List Byte := match stOp st with
  | 1 => noBurstBody (fld st 8 4)
  | 2 => noMeasBody (4 * mcCluster (slice st 8 24) + mcMeter (slice st 8 24))
  | 3 => noAcqBody
  | 5 => leBytes 1 (b2n ((s.dutpwrOf t).head?.any (fun n => (s.pePort n).dutpwr))) ++ zeros 1 ++ leBytes 1 (fld st 9 1)
  | 0x12 => leBytes 1 (fld st 8 1)
  | _ => []

/-- A step begins a wait (R457): the task gives up its core. -/
def State.stepWait (s : State) (tid mask : Nat) (all : Bool) (kind wakeT : Nat) : State :=
  match s.task tid with
  | none => s
  | some t =>
    let s1 := ((s.upTask tid (fun t => { t with
      state := 4, slot := 0xFF, begun := true, lastStep := (t.step, t.flow), wmask := mask, wall := all, wkind := kind
      wakeT := wakeT })).mirrorTask tid).coreFree t.slot
    match t.abortAt with
    | some (a, q) => s1.endTask tid a q
    | none => s1

/-! ### The step a command runs -/

/-- Another task of its priority is READY (R463). -/
def State.peerReady (s : State) (tid : Nat) : Bool :=
  s.paddock.tasks.any (fun p => p.1 ≠ tid && p.2.state = 1 && s.effPrio p.1 = s.effPrio tid)

/-- The quantum of a running task is over (R463). -/
def State.quantumDue (s : State) (tid : Nat) (t : Task) : Bool :=
  let q := s.rf F.PADDOCK_CTL_QUANTUM
  q ≠ 0 && q ≤ t.quantum && s.peerReady tid

/-- A running task may execute its next step. -/
def State.mayStep (s : State) (tid : Nat) (t : Task) : Bool :=
  t.state = 3 && s.slotUp t.slot && !(s.fslot t.slot).hold && !s.quantumDue tid t

/-- NSTEPS or NFRAMES of a loaded flow program or list. -/
def State.fpN (s : State) (o : Obj) : Nat := fpCount (s.objBytes o 0 64)

/-- Step i of a flow program. -/
def State.fpStep (s : State) (o : Obj) (i : Nat) : List Byte := s.objBytes o (64 + 32 * i) 32

/-- Run the next step of a task if it has the opcode (R413): a step past the end ends the task, and so does a program lost with its
memory channel (R206). -/
def flowCmd (op tid : Nat) (f : Task → List Byte → State) (s : State) : State :=
  match s.task tid with
  | none => s
  | some t =>
    if !s.mayStep tid t then s
    else match kGet s.objs t.flow with
      | none => s.endTask tid St.bad 0
      | some o =>
        if o.lost then s.endTask tid St.hwFault 0
        else if s.fpN o ≤ t.step then
          -- BAD_DESCRIPTOR with FCHECK TARGET, in RES and LAST_ERR of the task that ends (log entry 35)
          (s.upTask tid (fun t => { t with
            res := (runBad 0x09).bytes 0 t.step 1 s.dtime, lastErr := lastErrOf St.bad 0 t.step t.flow })).endTask tid St.bad 0
        else
          let st := s.fpStep o t.step
          if stOp st = op then f t st else s

/-! ### Operation steps (R414, R415) -/

/-- A step that names a site names the task's own, or a member of its group (R407). -/
def State.ownSite (s : State) (t : Task) (id : Nat) : Bool :=
  if t.siteId ≠ 0xFFFF then id = t.siteId else (s.members t.groupId).any (fun x => x.id = id)

/-- The site, member or group of a task is blocked (R88). -/
def State.taskBlocked (s : State) (t : Task) : Bool := s.blocked t.ent

/-- The request of an ACQUIRE step (R419). -/
def stepAcq (now : Nat) (st : List Byte) : AcqReq :=
  { site := fld st 8 2, withBurst := (fld st 10 1).testBit 0, region := fld st 12 4, chains := fld st 16 3, duration := fld st 24 8
    start := if fld st 20 4 = 0 then 0 else now + 1000 * fld st 20 4 }

/-- Start the operation of a step, or give the result with which its issue is refused (R414, R416, R418, R419, R424, R428). For SET_PE and
POWER_DUT the spec gives SITE_BLOCKED no place against RESOURCE, NO_OBJECT, KIND and DUTPWR: it comes after ABSENT_UNIT (R28) and before
them (DESIGN CHOICE, log entry 32). -/
def State.opStart (s : State) (tid : Nat) (t : Task) (st : List Byte) : State × Option Result :=
  let no (status fcheck : Nat) : State × Option Result :=
    (s, some { status := status, rreason := fcheck, obj := if 4 ≤ stOp st then fld st 12 4 else 0xFFFFFFFF, body := s.stepBody t st })
  match stOp st with
  | 1 =>
    let q := taskSubmit tid t st none
    match s.submitX q with
    | (s1, some r) => (s1, some (refusedResult r q.obj))
    | (s1, none) => (s1, none)
  | 2 =>
    let c := slice st 8 24
    let e := s.measRefusal c true
    if !s.ownSite t (fld st 8 2) then no St.bad 0x20
    else if e = 0 then (s.setupMeas c (.task tid), none)
    else no e (if e = St.bad && (s.site (mcSite c)).any (fun x => x.local (mcCluster c) = 0) then 0x27 else 0)
  | 3 =>
    let q := stepAcq s.dtime st
    let e := s.acqRefusal q true
    if !s.ownSite t (fld st 8 2) then no St.bad 0x20
    else if e = 0 then (s.setupAcq q (.task tid), none)
    else no e (if e = St.bad && (s.site q.site).any (fun x => q.chains &&& x.chain ≠ q.chains) then 0x27
      else if e = St.bad && s.idUsed q.region && !(s.region q.region).any (fun r => r.kind = 3) then 0x28 else 0)
  | 4 =>
    let (e, f) := s.setPeCheck t st
    if s.setPeAbsent st then no St.absent 0 else if s.taskBlocked t then no St.blocked 0 else if e ≠ 0 then no e f else (s.startSetPe tid t st, none)
  | _ =>
    let (e, f) := s.powerCheck t st
    if s.powerAbsent st then no St.absent 0 else if s.taskBlocked t then no St.blocked 0 else if e ≠ 0 then no e f else (s.startPower tid t st, none)

/-- A list of the task waits for room in a PE queue (R426). -/
def State.peWaiting (s : State) (tid : Nat) : Bool :=
  s.paddock.peWaits.any (fun w => w.item.user = .setPe tid || w.item.user = .power tid)

/-- The completion of an operation step with WAIT: the done flag is consumed, and RES takes the slot (R414). -/
def State.opFinish (s : State) (tid k : Nat) (st : List Byte) : State :=
  let bs := ((s.task tid).map (fun t => (t.ops.getD k {}).res)).getD []
  (s.clearFlagsOf tid (2 ^ k)).stepEnd tid st (fld bs 0 1) bs none false

/-- An operation step: its issue, and its second commit where it waits (R414, R444). -/
def State.opStep (s : State) (tid : Nat) (t : Task) (st : List Byte) : State :=
  let k := opSlot (stOp st)
  let wait := stWait st
  if t.begun then (if wait then s.opFinish tid k st else s.stepDone tid t st { status := St.ok })
  else if (t.ops.getD k {}).busy then s.stepDone tid t st { runBad 0x26 with body := s.stepBody t st }
  else
    let s0 := if wait then s.clearFlagsOf tid (2 ^ k) else s
    let s1 := s0.upTask tid (fun t => { t with ops := t.ops.modify k (fun o => { o with
      busy := true, step := st, stepIdx := t.step, flow := t.flow, attempts := 1, retryAt := none, restart := none, last := []
      v0 := false }) })
    match s1.opStart tid t st with
    | (s2, some r) =>
      let bs := r.bytes (stOp st) t.step 1 s2.dtime
      let s3 := s2.writeSlot tid k bs
      -- a RUN_BURST refused at its first issue is the next burst of WITH_BURST work (R420)
      let s4 := if k = 0 then s3.endWithBurst t.ent false else s3
      (if wait then s4.clearFlagsOf tid (2 ^ k) else s4).stepEnd tid st r.status bs none false
    | (s2, none) =>
      if wait then
        if (s2.task tid).any (fun t => t.flags.testBit k) then s2.opFinish tid k st else s2.stepWait tid (2 ^ k) false 2 0
      else if s2.peWaiting tid then s2.stepWait tid 0 false 2 0
      else s2.stepDone tid t st { status := St.ok }

/-- An operation step with the opcode. -/
def opCmd (op tid : Nat) (s : State) : State := flowCmd op tid (fun t st => s.opStep tid t st) s

/-- RUN_BURST step (R416). -/
def doRunBurstStep (tid : Nat) (s : State) : State := opCmd 1 tid s
/-- MEASURE_INTERVAL step (R418). -/
def doMeasureIntervalStep (tid : Nat) (s : State) : State := opCmd 2 tid s
/-- ACQUIRE step (R419). -/
def doAcquireStep (tid : Nat) (s : State) : State := opCmd 3 tid s
/-- SET_PE (R424). -/
def doSetPe (tid : Nat) (s : State) : State := opCmd 4 tid s
/-- POWER_DUT (R428, R429). -/
def doPowerDut (tid : Nat) (s : State) : State := opCmd 5 tid s

/-- The next attempt of slot k is due: it is issued (R422). -/
def State.reissue (s : State) (tid k : Nat) : State :=
  match s.task tid with
  | none => s
  | some t0 =>
    let s1 := s.upTask tid (fun t => { t with ops := t.ops.modify k (fun o => { o with retryAt := none, attempts := o.attempts + 1 }) })
    let o := ((s1.task tid).getD t0).ops.getD k {}
    if k = 0 then s1.retryBurst tid t0 o
    else match s1.opStart tid t0 o.step with
      | (s2, some r) => s2.taskOpEnd tid k r none false
      | (s2, none) => s2

/-- RETRY_GAP_EXPIRY (R422). -/
def doRetryGapExpiry (tid t : Nat) (s : State) : State :=
  match s.task tid with
  | none => s
  | some x =>
    let due := (List.range 4).filter (fun k => (x.ops.getD k {}).retryAt.any (fun a => a ≤ t))
    if due.isEmpty then s else due.foldl (fun s k => s.reissue tid k) (s.at t)

/-- ABORT_OP step (R421). -/
def doAbortOpStep (tid : Nat) (s : State) : State :=
  flowCmd 6 tid (fun t st =>
    ((bitList 4 (fld st 8 1)).foldl (fun s k => s.abortSlot tid k) s).stepDone tid t st { status := St.ok }) s

/-! ### Waiting (R430, R431) -/

/-- The completion of a WAIT_EVENT with the flags at its wake. -/
def State.waitDone (s : State) (tid : Nat) (t : Task) (st : List Byte) (flags : Nat) (timeout : Bool) : State :=
  let m := flags &&& fld st 8 8
  let s1 := if !timeout && (fld st 17 1).testBit 0 then s.clearFlagsOf tid m else s
  s1.stepDone tid t st { status := if timeout then St.timeout else St.ok, body := leBytes 8 flags ++ leBytes 8 m }

/-- WAIT_EVENT (R430). -/
def doWaitEvent (tid : Nat) (s : State) : State :=
  flowCmd 7 tid (fun t st =>
    let mask := fld st 8 8
    let all : Bool := fld st 16 1 = 1
    let w : Task := { t with wmask := mask, wall := all }
    if t.begun then s.waitDone tid t st t.wakeFlags t.timedOut
    else if w.waitHolds then s.waitDone tid t st t.flags false
    else s.stepWait tid mask all 1 (if fld st 20 4 = 0 then 0 else s.dtime + 1000 * fld st 20 4)) s

/-- CLEAR_FLAGS (R431). -/
def doClearFlags (tid : Nat) (s : State) : State :=
  flowCmd 8 tid (fun t st => (s.clearFlagsOf tid (fld st 8 8)).stepDone tid t st { status := St.ok }) s

/-- DELAY (R431). -/
def doFlowDelay (tid : Nat) (s : State) : State :=
  flowCmd 9 tid (fun t st =>
    let s1 := s.clearFlagsOf tid 0x100
    let due := if fld st 8 1 = 0 then s.dtime + fld st 16 8 else fld st 16 8
    if t.begun || due ≤ s.dtime then s1.stepDone tid t st { status := St.ok } else s1.stepWait tid 0x100 false 4 due) s

/-! ### Branching and variables (R432-R437) -/

/-- The bytes of a source other than the variables; none for a member that is not the task's own (R403, R432). -/
def State.srcBytes (s : State) (t : Task) (src mem : Nat) : Option (List Byte) :=
  match src with
  | 0 => some t.res
  | 6 =>
    let x := if t.siteId ≠ 0xFFFF then (if mem = 0 then s.site t.siteId else none) else (s.members t.groupId)[mem]?
    x.map (fun x => (s.siteResult x).take 128)
  | 7 => some (leBytes 8 t.lastErr)
  | k => some (padTo ((t.ops.getD (k - 1) {}).res) 128)

/-- A field of a source, zero-extended or sign-extended to 64 bits (R432). -/
def State.srcField (s : State) (t : Task) (src off width mem : Nat) (signed : Bool) : Option Nat :=
  if src = 5 then some (t.vars.getD off 0)
  else (s.srcBytes t src mem).map (fun b =>
    let v := fld b off width
    if signed then ofSigned 64 (toSigned (8 * width) v) else v)

/-- The test of BRANCH_ON (R432). -/
def branchHolds (cmp : Nat) (signed : Bool) (a b : Nat) : Bool :=
  let lt : Bool := if signed then decide (toSigned 64 a < toSigned 64 b) else decide (a < b)
  match cmp with
  | 0 => a = b
  | 1 => a ≠ b
  | 2 => lt
  | 3 => lt || a = b
  | 4 => !lt && a ≠ b
  | 5 => !lt
  | 6 => a &&& b ≠ 0
  | _ => a &&& b = 0

/-- BRANCH_ON (R432). -/
def doBranchOn (tid : Nat) (s : State) : State :=
  flowCmd 0x0A tid (fun t st =>
    let cmp := fld st 11 1
    let signed := cmp.testBit 3
    match s.srcField t (fld st 8 1) (fld st 9 1) (fld st 10 1) (fld st 14 1) signed with
    | none => s.stepDone tid t st (runBad 0x20)
    | some a =>
      let b := if cmp.testBit 4 then t.vars.getD (fld st 16 8 % 16) 0 else fld st 16 8
      s.stepDone tid t st { status := St.ok } (if branchHolds (cmp % 8) signed a b then some (t.flow, fld st 12 2) else none)) s

/-- JUMP (R432). -/
def doFlowJump (tid : Nat) (s : State) : State :=
  flowCmd 0x0B tid (fun t st => s.stepDone tid t st { status := St.ok } (some (t.flow, fld st 8 2))) s

/-- The value an ALU step gives V[DST], modulo 2^64 (R433); `x` is V[DST], `y` V[SRCV]. -/
def aluValue (aop imm x y now sec : Nat) : Nat :=
  (match aop with
  | 0 => imm
  | 1 => x + imm
  | 2 => x + 2 ^ 64 - imm
  | 3 => x &&& imm
  | 4 => x ||| imm
  | 5 => x ^^^ imm
  | 6 => x <<< (imm % 64)
  | 7 => x >>> (imm % 64)
  | 8 => x + y
  | 9 => x + 2 ^ 64 - y
  | 10 => y
  | 12 => now
  | _ => sec) % 2 ^ 64

/-- ALU (R433). -/
def doFlowAlu (tid : Nat) (s : State) : State :=
  flowCmd 0x0C tid (fun t st =>
    let aop := fld st 8 1
    let dst := fld st 9 1
    let v := if aop = 11 then s.srcField t (fld st 11 1) (fld st 12 1) (fld st 13 1) (fld st 15 1) ((fld st 14 1).testBit 0)
      else some (aluValue aop (fld st 16 8) (t.vars.getD dst 0) (t.vars.getD (fld st 10 1) 0) s.dtime s.clk.calSec)
    match v with
    | none => s.stepDone tid t st (runBad 0x20)
    | some v => (s.upTask tid (fun t => { t with vars := t.vars.set dst v })).stepDone tid t st { status := St.ok }) s

/-- RETRY (R434). -/
def doFlowRetry (tid : Nat) (s : State) : State :=
  flowCmd 0x0D tid (fun t st =>
    let k := fld st 8 1
    let n := t.ctr.getD k 0
    let named : Bool := (retryBit (fld t.res 0 1)).any (fun b => (fld st 10 1).testBit b)
    if named && n < fld st 9 1 then
      (s.upTask tid (fun t => { t with ctr := t.ctr.set k (n + 1) })).stepDone tid t st { status := St.ok } (some (t.flow, fld st 12 2))
    else (s.upTask tid (fun t => { t with ctr := t.ctr.set k 0 })).stepDone tid t st { status := St.ok }) s

/-- CALL_FLOW (R435). -/
def doCallFlow (tid : Nat) (s : State) : State :=
  flowCmd 0x0E tid (fun t st =>
    let id := fld st 8 4
    match s.obj id with
    | none => if kHas s.regions id then s.stepDone tid t st (runBad 0x28) else s.stepDone tid t st { status := St.noObject }
    | some o =>
      let entry := if fld st 12 2 = 0xFFFF then fld (s.objBytes o 0 64) 8 2 else fld st 12 2
      if o.kind != .flow then s.stepDone tid t st (runBad 0x28)
      else if 8 ≤ t.stack.length then s.stepDone tid t st (runBad 0x22)
      else if s.fpN o ≤ entry then s.stepDone tid t st (runBad 0x09)
      else
        (s.upTask tid (fun t => { t with stack := t.stack ++ [(t.flow, t.step + 1)] })).stepDone tid t st { status := St.ok }
          (some (id, entry))) s

/-- RETURN (R435). -/
def doFlowReturn (tid : Nat) (s : State) : State :=
  flowCmd 0x0F tid (fun t st =>
    match t.stack.getLast? with
    | none => s.stepDone tid t st (runBad 0x23)
    | some p => (s.upTask tid (fun t => { t with stack := t.stack.dropLast })).stepDone tid t st { status := St.ok } (some p)) s

/-- END (R436). -/
def doFlowEnd (tid : Nat) (s : State) : State :=
  flowCmd 0x10 tid (fun t st =>
    let (a, q) := match fld st 8 1 with
      | 1 => (fld t.res 0 1, fld t.res 1 1)
      | 2 => (t.lastErr % 256, 0)
      | _ => (0, 0)
    let s1 := s.upTask tid (fun t => { t with lastStep := (t.step, t.flow), steps := satAdd 32 t.steps 1 })
    let s2 := match (s.fslot t.slot).phys with
      | some p => s1.incRf F.FC_STEPS_STEPS [p]
      | none => s1
    s2.endTask tid a q (fld st 12 4)) s

/-! ### Coordination (R438, R439, R466, R469) -/

/-- SIGNAL (R438). -/
def doFlowSignal (tid : Nat) (s : State) : State :=
  flowCmd 0x11 tid (fun t st =>
    let target := fld st 8 2
    let flags := fld st 16 8
    if t.begun then s.stepDone tid t st { status := t.ack.getD St.linkDown }
    else if (fld st 10 1).testBit 0 then
      if flags % 2 ^ 16 ≠ 0 then s.stepDone tid t st (runBad 0x21)
      else if !s.linkUp 0 || !s.linkUp 1 then s.stepDone tid t st { status := St.linkDown }
      else
        (s.send 0 { typ := 0x33, seq := 0, fields := [fld st 11 1, 2, s.pos, tid, target, flags] }).stepWait tid 0 false 0 0
    else if target = 0xFFFE then
      (s.queueEvent { typ := 2, aux := fld st 12 4, p0 := tid + t.step * 2 ^ 16, p2 := s.dtime }).stepDone tid t st { status := St.ok }
    else if flags % 2 ^ 16 ≠ 0 then s.stepDone tid t st (runBad 0x21)
    else if (s.task target).isNone then s.stepDone tid t st { status := St.noObject }
    else (s.setFlags target flags).stepDone tid t st { status := St.ok }) s

/-- A lock taken from the task by a core failure: the step ends with HW_FAULT and the bit clears (R469). -/
def State.lostLock (s : State) (tid : Nat) (t : Task) (st : List Byte) (k : Nat) : State :=
  (s.upTask tid (fun t => { t with lost := t.lost - (t.lost &&& 2 ^ k) })).stepDone tid t st { status := St.hwFault, body := s.stepBody t st }

/-- The completion of a LOCK step (R439). -/
def State.lockDone (s : State) (tid : Nat) (t : Task) (st : List Byte) (k : Nat) (timeout ab : Bool) : State :=
  (s.clearFlagsOf tid 0x10).stepDone tid t st
    { status := if timeout then St.timeout else if ab then 5 else St.ok, qual := if !timeout && ab then 32 else 0
      body := leBytes 1 k ++ leBytes 1 (b2n (!timeout && ab)) }

/-- LOCK step (R439, R466). -/
def doLockStep (tid : Nat) (s : State) : State :=
  flowCmd 0x12 tid (fun t st =>
    let k := fld st 8 1
    if t.begun then s.lockDone tid t st k t.timedOut t.lockAb
    else if t.lost.testBit k then (s.clearFlagsOf tid 0x10).lostLock tid t st k
    else if t.locks.testBit k then (s.clearFlagsOf tid 0x10).stepDone tid t st { runBad 0x24 with body := s.stepBody t st }
    else
      let s1 := (s.clearFlagsOf tid 0x10).lockRequest k { prio := s.effPrio tid, who := .task tid }
      match s1.task tid with
      | none => s1
      | some u =>
        if u.locks.testBit k then s1.lockDone tid t st k false u.lockAb
        else s1.stepWait tid 0x10 false 3 (if fld st 12 4 = 0 then 0 else s.dtime + 1000 * fld st 12 4)) s

/-- UNLOCK step (R439, R467). -/
def doUnlockStep (tid : Nat) (s : State) : State :=
  flowCmd 0x13 tid (fun t st =>
    let k := fld st 8 1
    if t.lost.testBit k then s.lostLock tid t st k
    else if !t.locks.testBit k then s.stepDone tid t st (runBad 0x24)
    else (s.lockRelease k false).stepDone tid t st { status := St.ok }) s

/-- DATA of a log record (R440). -/
def State.logData (s : State) (t : Task) (src off mem : Nat) : Option (List Byte) :=
  if src = 5 then some ((List.range 4).flatMap (fun i => leBytes 8 (t.vars.getD (off + i) 0)))
  else if src = 7 then some (leBytes 8 t.lastErr ++ zeros 24)
  else (s.srcBytes t src mem).map (fun b => padTo (slice b off 32) 32)

/-- The record of a LOG step (R440). -/
def State.logRecord (s : State) (tid : Nat) (t : Task) (st : List Byte) (data : List Byte) : List Byte :=
  let group := t.groupId ≠ 0xFFFF
  leBytes 4 t.logSeq ++ leBytes 2 tid ++ leBytes 2 (if group then t.groupId else t.siteId) ++ leBytes 2 t.step ++ leBytes 2 (fld st 12 2) ++
    leBytes 1 (fld st 8 1) ++ leBytes 1 (fld st 9 1) ++ leBytes 1 (b2n group) ++ zeros 1 ++ leBytes 8 s.dtime ++
    leBytes 8 (s.clk.calSec % 2 ^ 48) ++ data

/-- LOG (R440). -/
def doLogStep (tid : Nat) (s : State) : State :=
  flowCmd 0x14 tid (fun t st =>
    match s.logData t (fld st 8 1) (fld st 9 1) (fld st 11 1) with
    | none => s.stepDone tid t st (runBad 0x20)
    | some data =>
      if t.logLen = 0 then s.stepDone tid t st { status := St.ok }
      else if !s.host.pci.busMaster then s.stepDone tid t st { status := St.hwFault }
      else
        let at_ := t.logAddr + 64 * (t.logSeq % (t.logLen / 64))
        let s1 := (s.emit (.hostWrite at_ (s.logRecord tid t st data))).upTask tid (fun t => { t with logSeq := satAdd 32 t.logSeq 1 })
        let s2 := if (fld st 10 1).testBit 0 then
            s1.queueEvent { typ := 3, aux := t.logSeq, p0 := tid + t.step * 2 ^ 16 + fld st 12 2 * 2 ^ 32, p2 := s.dtime }
          else s1
        s2.stepDone tid t st { status := St.ok }) s

/-! ### Site control, priority (R437, R441, R442) -/

/-- A write of the mask of slice g (R79, R92): bits set under R89 stay; a member masked in a burst records the vector from which its
mask applies. -/
def State.writeMask (s : State) (g v : Nat) : State :=
  let old := s.siteMask g
  let new := v ||| (s.sl g).sticky
  let s1 := s.setSiteMask g new
  match (s.sl g).ent with
  | some (.group x) =>
    if (s.burst (.group x)).any (fun b => b.running) then
      (s.members x).zipIdx.foldl (fun s m =>
        if new.testBit m.2 && !old.testBit m.2 then
          s.maskFrom m.1.id (s.sl g).seq.next
        else s) s1
    else s1
  | _ => s1

/-- SET_MASK (R441). On a blocked group it completes with SITE_BLOCKED, as a step that R88 does not let act (DESIGN CHOICE, log entry 36). -/
def doSetMask (tid : Nat) (s : State) : State :=
  flowCmd 0x15 tid (fun t st =>
    let m := fld st 10 2
    if t.groupId = 0xFFFF then s.stepDone tid t st (runBad 0x20)
    else if s.taskBlocked t then s.stepDone tid t st { status := St.blocked }
    else
      ((s.entSlices t.ent).foldl (fun s g =>
        let old := s.siteMask g
        s.writeMask g (match fld st 8 1 with
          | 0 => old ||| m
          | 1 => old - (old &&& m)
          | _ => m)) s).stepDone tid t st { status := St.ok }) s

/-- ARM_TRIGGER (R442). It starts no work on its site, so it acts on a blocked one too (R88; DESIGN CHOICE, log entry 36). A unit under a BLOCK
reset discards it, as it does a write of ARM (R727). -/
def doArmTrigger (tid : Nat) (s : State) : State :=
  flowCmd 0x16 tid (fun t st =>
    let k := fld st 8 1
    if 96 ≤ k then s.stepDone tid t st (runBad 0x27)
    else if s.clGone (k / 8) then s.stepDone tid t st { status := St.absent }
    else if !(s.taskClusters t).contains (k / 8) then s.stepDone tid t st (runBad 0x27)
    else (if s.regPowered rowClTrgCtl [k / 8, k % 8] then s.armTrig k (2000 * s.dtime) else s).stepDone tid t st { status := St.ok }) s

/-- SET_PRIO (R437, R464); a task that raises itself to 7 leaves the warden's slot (R470). -/
def doSetPrio (tid : Nat) (s : State) : State :=
  flowCmd 0x17 tid (fun t st =>
    (((s.upTask tid (fun t => { t with prio := fld st 8 1 })).check7).stepDone tid t st { status := St.ok }).settleWarden) s

/-- YIELD (R437). -/
def doYield (tid : Nat) (s : State) : State :=
  flowCmd 0x18 tid (fun t st => s.stepDone tid t st { status := St.ok } none true) s

/-- NOP step (R437). -/
def doNopStep (tid : Nat) (s : State) : State :=
  flowCmd 0x19 tid (fun t st => s.stepDone tid t st { status := St.ok }) s

/-! ### Commands -/

/-- RUN_BURST_STEP. -/
def execRunBurstStep (tid : Nat) (s : State) : Host.Outcome State Fault Refusal := .next (doRunBurstStep tid s)
/-- MEASURE_INTERVAL_STEP. -/
def execMeasureIntervalStep (tid : Nat) (s : State) : Host.Outcome State Fault Refusal := .next (doMeasureIntervalStep tid s)
/-- ACQUIRE_STEP. -/
def execAcquireStep (tid : Nat) (s : State) : Host.Outcome State Fault Refusal := .next (doAcquireStep tid s)
/-- SET_PE. -/
def execSetPe (tid : Nat) (s : State) : Host.Outcome State Fault Refusal := .next (doSetPe tid s)
/-- POWER_DUT. -/
def execPowerDut (tid : Nat) (s : State) : Host.Outcome State Fault Refusal := .next (doPowerDut tid s)
/-- RETRY_GAP_EXPIRY. -/
def execRetryGapExpiry (tid t : Nat) (s : State) : Host.Outcome State Fault Refusal := .next (doRetryGapExpiry tid t s)
/-- ABORT_OP_STEP. -/
def execAbortOpStep (tid : Nat) (s : State) : Host.Outcome State Fault Refusal := .next (doAbortOpStep tid s)
/-- WAIT_EVENT. -/
def execWaitEvent (tid : Nat) (s : State) : Host.Outcome State Fault Refusal := .next (doWaitEvent tid s)
/-- CLEAR_FLAGS. -/
def execClearFlags (tid : Nat) (s : State) : Host.Outcome State Fault Refusal := .next (doClearFlags tid s)
/-- DELAY. -/
def execFlowDelay (tid : Nat) (s : State) : Host.Outcome State Fault Refusal := .next (doFlowDelay tid s)
/-- BRANCH_ON. -/
def execBranchOn (tid : Nat) (s : State) : Host.Outcome State Fault Refusal := .next (doBranchOn tid s)
/-- JUMP. -/
def execFlowJump (tid : Nat) (s : State) : Host.Outcome State Fault Refusal := .next (doFlowJump tid s)
/-- ALU. -/
def execFlowAlu (tid : Nat) (s : State) : Host.Outcome State Fault Refusal := .next (doFlowAlu tid s)
/-- RETRY. -/
def execFlowRetry (tid : Nat) (s : State) : Host.Outcome State Fault Refusal := .next (doFlowRetry tid s)
/-- CALL_FLOW. -/
def execCallFlow (tid : Nat) (s : State) : Host.Outcome State Fault Refusal := .next (doCallFlow tid s)
/-- RETURN. -/
def execFlowReturn (tid : Nat) (s : State) : Host.Outcome State Fault Refusal := .next (doFlowReturn tid s)
/-- FLOW_END. -/
def execFlowEnd (tid : Nat) (s : State) : Host.Outcome State Fault Refusal := .next (doFlowEnd tid s)
/-- SIGNAL. -/
def execFlowSignal (tid : Nat) (s : State) : Host.Outcome State Fault Refusal := .next (doFlowSignal tid s)
/-- LOCK_STEP. -/
def execLockStep (tid : Nat) (s : State) : Host.Outcome State Fault Refusal := .next (doLockStep tid s)
/-- UNLOCK_STEP. -/
def execUnlockStep (tid : Nat) (s : State) : Host.Outcome State Fault Refusal := .next (doUnlockStep tid s)
/-- LOG. -/
def execLogStep (tid : Nat) (s : State) : Host.Outcome State Fault Refusal := .next (doLogStep tid s)
/-- SET_MASK. -/
def execSetMask (tid : Nat) (s : State) : Host.Outcome State Fault Refusal := .next (doSetMask tid s)
/-- ARM_TRIGGER. -/
def execArmTrigger (tid : Nat) (s : State) : Host.Outcome State Fault Refusal := .next (doArmTrigger tid s)
/-- SET_PRIO. -/
def execSetPrio (tid : Nat) (s : State) : Host.Outcome State Fault Refusal := .next (doSetPrio tid s)
/-- YIELD. -/
def execYield (tid : Nat) (s : State) : Host.Outcome State Fault Refusal := .next (doYield tid s)
/-- NOP_STEP. -/
def execNopStep (tid : Nat) (s : State) : Host.Outcome State Fault Refusal := .next (doNopStep tid s)

end Sys2Proof.Machine
end

