-- ==== Sys2Proof/Machine/Wake.lean ====
section
/-! DEFINITION. Waking from Lull (R664-R668), an operation that several commands begin. -/

namespace Sys2Proof.Machine

/-- A task's timer expires (R431, R455, R457, R466). -/
def State.timerFires (s : State) (tid : Nat) : State :=
  match s.task tid with
  | none => s
  | some x =>
    if x.state ≠ 4 || x.wakeT = 0 then s
    else if x.wkind = 4 then s.setFlags tid 0x100
    else (s.unqueueLocks (fun w => w == .task tid)).wake tid true

/-- Timers that expired in Lull take effect, in the order of their times, ties in ascending TASK_ID (R667). -/
def State.lateTimers (s : State) : State :=
  let ts := (s.paddock.tasks.filter (fun p => p.2.state = 4 && p.2.wakeT ≠ 0 && p.2.wakeT ≤ s.dtime)).map (fun p => (p.2.wakeT, p.1))
  (ts.mergeSort (fun a b => a.1 < b.1 || (a.1 = b.1 && a.2 ≤ b.2))).foldl (fun s p => s.timerFires p.2) s

/-- Lull ends (R665), within 60 µs; how soon, the spec leaves open. The drift trackers acquire within that time (R241). -/
def State.leaveLull (s : State) : State :=
  if s.power.lull ≠ 2 then s
  else
    let s0 := s.draw.at (s.dtime + Config.freeValue s.freeCtr % 60001)
    let ms : List Mc := s0.mcs.map (fun c => { c with selfref := false })
    let s1 := { s0 with
      power := { s0.power with lull := 0 }
      mcs := ms
      clk := { s0.clk with replicas := List.replicate 30 0 }
      host := { s0.host with l1 := false } }
    let s2 := (List.range s1.nCl).foldl (fun s n => s.acquireWhole n) s1
    let s3 := s2.lateTimers.dispatch
    let s4 := (List.range s3.nChain).foldl (fun s k => if s.cf F.FCHAIN_CTL_EN k = 1 then s.restartWin k else s) s3
    s4.scan

/-- A source wakes the chip from Lull (R664, R665). -/
def State.wakeChip (s : State) (src : Nat) : State :=
  if s.power.lull ≠ 2 then s else (s.setRf F.LULL_STAT_WAKE_SRC [] src).leaveLull.health 6 src 0

end Sys2Proof.Machine
end

