-- ==== Sys2Proof/Machine/TaskCtl.lean ====
section
/-! DEFINITION. Tasks as the host and Paddock handle them (13_paddock_scheduler.md): creation and control by descriptors, locks of
rings, context fetches, quanta and timers, the failure of a flow core; the unloading of flow programs and PE lists (R404), ABORT_OP
(R491), and declarations and undeclarations with what an undeclaration ends (R73, R80, R90). -/

namespace Sys2Proof.Machine

/-! ### Paddock's own happenings (R461-R463, R457, R470) -/

/-- CONTEXT_FETCH_DONE (R461, R462): the context of the buffered task has arrived; its fetch waits for a channel under repair (R548). -/
def doContextFetchDone (i : Nat) (s : State) : State :=
  let f := s.fslot i
  if f.buf.isNone || f.fetched || !s.slotUp i || !s.places then s
  else
    let s1 := s.upFslot i (fun f => { f with fetched := true, hold := false })
    if f.run.isNone then s1.coreTake i else if f.hold then s1.boundary i else s1

/-- QUANTUM_EXPIRY (R463). -/
def doQuantumExpiry (tid : Nat) (s : State) : State :=
  match s.task tid with
  | none => s
  | some t => if t.state = 3 && s.slotUp t.slot && s.quantumDue tid t then s.yieldTask tid t.slot else s

/-- TASK_TIMER_EXPIRY (R431, R455, R457, R466); in Lull it wakes the chip or waits for the wake (R663, R664). -/
def doTaskTimerExpiry (tid t : Nat) (s : State) : State :=
  match s.task tid with
  | none => s
  | some x =>
    if x.state ≠ 4 || x.wakeT = 0 || t < x.wakeT then s
    else if s.power.lull ≠ 0 then if s.rb F.LULL_CTL_WAKE_TIMER then (s.at t).wakeChip 6 else s
    else (s.at t).timerFires tid

/-- PADDOCK_WARDEN_WRITE (R470, R477). -/
def doPaddockWardenWrite (v : W64) (s : State) : State :=
  let s1 := s.writeFields (F.PADDOCK_WARDEN_TASK_ID.off []) v
  let ok := (s1.task (s1.rf F.PADDOCK_WARDEN_TASK_ID)).any (fun t => t.state ≠ 5)
  (s1.setRf F.PADDOCK_WARDEN_VALID [] (b2n ok)).settleWarden

/-! ### Failure of a flow core (R205, R469, R471) -/

/-- The home slot of a task: the live slot with the fewest tasks (R205). -/
def State.homeSlot (s : State) : Nat :=
  ((bestBy (fun i => [(s.paddock.tasks.filter (fun p => p.2.home = i)).length, i])
    ((List.range s.nSlot).filter (fun i => !(s.fslot i).retired))).getD 0)

/-- The running task of a core that fails (R445, R469): its locks are lost, and its step in progress is handled by its class; `st` is
the status of a non-atomic step without IDEM, `inStep` says that a step is in progress. -/
def State.failRun (s : State) (tid st : Nat) (inStep : Bool) : State :=
  match s.task tid with
  | none => s
  | some t =>
    let s1 := (bitList 32 t.locks).foldl (fun s k => s.lockRelease k true) s
    let s2 := s1.upTask tid (fun u => { u with state := 1, slot := 0xFF, lost := u.lost ||| t.locks })
    match t.abortAt with
    | some (a, q) => s2.endTask tid a q
    | none =>
      let step := ((kGet s.objs t.flow).map (fun o => s.fpStep o t.step)).getD []
      let op := stOp step
      let loud : Bool := op = 0x14 || (op = 0x11 && (fld step 10 1).testBit 0)
      if inStep && loud && !stIdem step then
        let bs := ({ status := st : Result }).bytes op t.step 1 s.dtime
        let s3 := s2.upTask tid (fun u => u.endStep step st bs none)
        if stOnErr step = 0xFFFF then s3.endTask tid st 0 else s3
      else s2.upTask tid (fun u => { u with begun := u.begun && isOpStep op, timedOut := false, ack := none })

/-- Slot i loses its core, for a time or for good: its tasks return to READY (R469 steps 1 and 2). The tasks that ran and that were
buffered. -/
def State.vacate (s : State) (i st : Nat) : State × Option Nat × Option Nat :=
  let f := s.fslot i
  let s1 := s.upFslot i (fun f => { f with run := none, buf := none, fetched := false, hold := false })
  let s2 := match f.buf with
    | some t => s1.unslot t
    | none => s1
  let s3 := match f.run with
    | some t => s2.failRun t st (!f.hold)
    | none => s2
  (s3, f.run, f.buf)

/-- A slot with no spare left is retired (R469 step 4), and its tasks get new homes (R205, R208). -/
def State.retireSlot (s : State) (i : Nat) : State :=
  let s1 := s.upFslot i (fun f => { f with phys := none, retired := true, settling := false, buf := none, fetched := false })
  let s2 := s1.setRf F.CAPS_LIVE_LIVE_FCORES [] (s1.rf F.CAPS_LIVE_LIVE_FCORES - 1)
  let s3 := ((s2.paddock.tasks.filter (fun p => p.2.home = i)).map (·.1)).foldl (fun s t =>
    let h := s.homeSlot
    s.upTask t (fun t => { t with home := h })) s2
  (if s2.paddock.tasks.any (fun p => p.2.home = i) then s3.placementChanged else s3).degrade 2 12 i

/-- A physical core fails, its fault being reported already (R469). -/
def State.coreFails (s : State) (core : Nat) : State :=
  if s.nCore ≤ core || s.paddock.failed.contains core then s
  else
    let s0 := { s with paddock := { s.paddock with failed := s.paddock.failed ++ [core] } }
    let less (s : State) : State := s.setRf F.CAPS_LIVE_FSPARE_LEFT [] (s.rf F.CAPS_LIVE_FSPARE_LEFT - 1)
    match s.slotOf core with
    | none => less s0
    | some i =>
      -- out of service at once: no waiter woken by the locks of its task is placed there
      let (s1, run, buf) := (s0.upFslot i (fun f => { f with settling := true })).vacate i St.hwFault
      let spare := (List.range s.nCore).find? (fun c => s.nSlot ≤ c && !s1.paddock.failed.contains c &&
        (s1.slotOf c).isNone)
      let s2 := match spare with
        | some c =>
          let s2 := (less (s1.upFslot i (fun f => { f with phys := some c, settling := true }))).spared 2 12 i c
          { s2 with life := { s2.life with spareCores := s2.life.spareCores + 1 } }
        | none => s1.retireSlot i
      let s3 := s2.queueEvent { typ := 5, b2 := core, b3 := i, aux := b2n spare.isSome
                                p0 := run.getD 0xFFFF + buf.getD 0xFFFF * 2 ^ 16, p2 := s.dtime }
      ((run.toList ++ buf.toList).foldl (fun s t => s.replace t) s3.check7).settleWarden

/-- FLOW_CORE_FAILURE (R469): whether the lockstep check or parity found it, the spec leaves to the core. -/
def doFlowCoreFailure (core : Nat) (s : State) : State :=
  if s.nCore ≤ core || s.paddock.failed.contains core then s
  else (s.draw.report 16 12 core (1 + Config.freeValue s.freeCtr % 2)).coreFails core

/-- SPARE_CORE_READY (R469): the slot is in service again. -/
def doSpareCoreReady (i : Nat) (s : State) : State :=
  if (s.fslot i).settling then (s.upFslot i (fun f => { f with settling := false })).refillSlot i else s

/-! ### Tasks by descriptor (R405, R406, R451, R468) -/

/-- START_FLOW (R405, R406). -/
def doStartFlow (sq idx : Nat) (s : State) : State :=
  s.withDesc sq idx 0x34 (fun d =>
    let b := d.bytes
    let site := fld b 16 2
    let group := fld b 18 2
    let flow := fld b 20 4
    let e : Ent := if site ≠ 0xFFFF then .site site else .group group
    if s.blocked (.site site) || s.blocked (.group group) then s.finish sq idx St.blocked
    else match s.obj flow with
      | none => if kHas s.regions flow then s.finish sq idx St.bad else s.finish sq idx St.noObject
      | some o =>
        let entry := if fld b 24 2 = 0xFFFF then fld (s.objBytes o 0 64) 8 2 else fld b 24 2
        if (site = 0xFFFF) == (group = 0xFFFF) || !s.declared e || o.kind != .flow || s.fpN o ≤ entry || 7 < fld b 26 1 ||
            fld b 40 4 % 64 ≠ 0 || fld b 32 8 % 64 ≠ 0 || 4096 ≤ s.paddock.tasks.length || !zeroes b 27 5 || !zeroes b 44 4 then
          s.finish sq idx St.bad
        else
          let tid := ((List.range 4096).find? (fun i => !kHas s.paddock.tasks i)).getD 0
          let t : Task := { prio := fld b 26 1, siteId := site, groupId := group, flow := flow, step := entry, home := s.homeSlot
                            vars := [fld b 48 8, fld b 56 8] ++ List.replicate 14 0, logAddr := fld b 32 8, logLen := fld b 40 4
                            created := s.dtime, lastStep := (entry, flow) }
          let s1 := { s with paddock := { s.paddock with tasks := kSet s.paddock.tasks tid t } }.placementChanged
          ((s1.complete sq idx { status := St.ok, val0 := tid }).mirrorTask tid).ready tid)

/-- ABORT_TASK (R468): a running task ends at its next step boundary. -/
def doAbortTask (sq idx : Nat) (s : State) : State :=
  s.withDesc sq idx 0x38 (fun d =>
    let tid := fld d.bytes 16 2
    if !zeroes d.bytes 18 46 then s.finish sq idx St.bad
    else match s.task tid with
      | none => s.finish sq idx St.noObject
      | some t =>
        let s1 := (s.begin sq idx).upTask tid (fun t => { t with aborter := t.aborter ++ [(sq, idx)] })
        if t.state = 3 && !(s.fslot t.slot).hold && !s.quantumDue tid t then
          s1.upTask tid (fun t => { t with abortAt := some (t.abortAt.getD (St.aborted, 0)) })
        else s1.endTask tid St.aborted 0)

/-- SIGNAL_TASK (R468). -/
def doSignalTask (sq idx : Nat) (s : State) : State :=
  s.withDesc sq idx 0x39 (fun d =>
    let tid := fld d.bytes 16 2
    let fl := fld d.bytes 24 8
    if !zeroes d.bytes 18 6 || !zeroes d.bytes 32 32 || fl % 2 ^ 16 ≠ 0 then s.finish sq idx St.bad
    else if (s.task tid).isNone then s.finish sq idx St.noObject
    else (s.setFlags tid fl).finish sq idx St.ok)

/-- What READ_TASK returns: the task's bytes; on a standby, the mirrored copy (R468, R608). -/
def State.taskBytes (s : State) (tid : Nat) : Option (List Byte) :=
  if s.pair.role = 2 then (kGet s.pair.tasks tid).map MItem.data else (s.task tid).map (fun t => taskEntry tid t ++ taskContext t)

/-- READ_TASK (R468). -/
def doReadTask (sq idx : Nat) (s : State) : State :=
  s.withDesc sq idx 0x3A (fun d =>
    let dst := fld d.bytes 24 8
    if !zeroes d.bytes 18 6 || !zeroes d.bytes 32 32 || dst % 64 ≠ 0 then s.finish sq idx St.bad
    else match s.taskBytes (fld d.bytes 16 2) with
      | none => s.finish sq idx St.noObject
      | some bs =>
        let (s1, ok) := s.hostWrite sq dst bs
        if ok then s1.finish sq idx St.ok else s1.writeFailed sq idx)

/-! ### Locks by descriptor (R466, R467) -/

/-- LOCK (R466). -/
def doLockDesc (sq idx : Nat) (s : State) : State :=
  s.withDesc sq idx 0x3B (fun d =>
    let b := d.bytes
    let k := fld b 16 1
    let us := fld b 20 4
    if 31 < k || !zeroes b 17 3 || !zeroes b 24 40 then s.finish sq idx St.bad
    else (s.begin sq idx).lockRequest k { prio := s.rf F.RINGK_CFG_PRIO [sq], who := .desc sq idx
                                          deadline := if us = 0 then none else some (s.dtime + 1000 * us) })

/-- LOCK_TIMEOUT (R466). -/
def doLockTimeout (sq idx t : Nat) (s : State) : State :=
  let mine (r : LockReq) : Bool := r.who = .desc sq idx && r.deadline.any (fun d => d ≤ t)
  match (List.range 32).find? (fun k => (s.lock k).queue.any mine) with
  | none => s
  | some k => ((s.at t).upLock k (fun l => { l with queue := l.queue.filter (fun r => !mine r) })).complete sq idx
      { status := St.timeout, val0 := k, body := leBytes 1 k }

/-- UNLOCK (R467). -/
def doUnlockDesc (sq idx : Nat) (s : State) : State :=
  s.withDesc sq idx 0x3C (fun d =>
    let k := fld d.bytes 16 1
    if 31 < k || !zeroes d.bytes 17 47 || !ownerIs (s.lock k).owner (.desc sq idx) then s.finish sq idx St.bad
    else (s.lockRelease k false).finish sq idx St.ok)

/-! ### Unloading flow programs and PE lists (R404) -/

/-- The checks of an unload that are common: status, 0 where all pass. -/
def State.unloadRefusal (s : State) (d : Desc) (kind : ObjKind) : Nat := match s.objFor d with
  | none => if kHas s.regions (fld d.bytes 16 4) then St.bad else St.noObject
  | some o => if !zeroes d.bytes 20 44 || o.kind != kind then St.bad else 0

/-- UNLOAD_FLOW (R404). -/
def doUnloadFlow (sq idx : Nat) (s : State) : State :=
  s.withDesc sq idx 0x31 (fun d =>
    let id := fld d.bytes 16 4
    let st := s.unloadRefusal d .flow
    if st ≠ 0 then s.finish sq idx st
    else if s.paddock.tasks.any (fun p => p.2.flow = id || p.2.stack.any (fun f => f.1 = id)) then s.finish sq idx St.bad
    else (s.freeObj id).finish sq idx St.ok)

/-- A list is queued, waits for room, or is being sent on some port. -/
def State.listHeld (s : State) (id : Nat) : Bool :=
  s.pe.any (fun p => p.queue.any (fun i => i.list = id)) || s.paddock.peWaits.any (fun w => w.item.list = id)

/-- UNLOAD_PE_LIST (R404). -/
def doUnloadPeList (sq idx : Nat) (s : State) : State :=
  s.withDesc sq idx 0x33 (fun d =>
    let id := fld d.bytes 16 4
    let st := s.unloadRefusal d .peList
    if st ≠ 0 then s.finish sq idx st
    else if s.listHeld id then (s.upObj id (fun o => { o with unloading := true })).wait { sq := sq, idx := idx, kind := .peUnload id }
    else (s.freeObj id).finish sq idx St.ok)

/-- DEFERRED_PE_LIST_UNLOAD (R404). -/
def doDeferredPeListUnload (sq idx : Nat) (s : State) : State :=
  match s.waitOf sq idx with
  | some { kind := .peUnload id, .. } => if s.listHeld id then s else ((s.unwait sq idx).freeObj id).finish sq idx St.ok
  | _ => s

/-! ### ABORT_OP (R491) -/

/-- The tasks that belong to a site or group; those of a group include its members'. -/
def State.entTasks (s : State) (e : Ent) : List (Nat × Task) :=
  let ids := (s.entSites e).map Site.id
  s.paddock.tasks.filter (fun p => p.2.ent = e || (p.2.siteId ≠ 0xFFFF && ids.contains p.2.siteId))

/-- The operations of one kind that a site or group has end as ABORT_OP ends them (R421, R491). -/
def State.abortEnt (s : State) (e : Ent) (k : Nat) : State :=
  let xs := (s.entSites e).map Site.id
  match k with
  | 0 =>
    let s1 := s.stopBurst e St.aborted
    ((s1.paddock.tasks.filter (fun p => p.2.ent = e)).map (·.1)).foldl (fun s t => s.cancelRetry t 0) s1
  | 1 =>
    let s1 := ((List.range 48).filter (fun m => (s.meter m).state ≠ 0 && xs.contains (mcSite (s.meter m).cfg))).foldl
      (fun s m => s.stopMeas m St.aborted) s
    ((s1.paddock.tasks.filter (fun p => xs.contains (fld (p.2.ops.getD 1 {}).step 8 2))).map (·.1)).foldl
      (fun s t => s.cancelRetry t 1) s1
  | 2 =>
    let s1 := (s.acqs.filter (fun a => xs.contains a.site && a.stopAt.isNone)).foldl (fun s a => s.stopAcq a.site St.aborted s.dtime) s
    ((s1.paddock.tasks.filter (fun p => xs.contains (fld (p.2.ops.getD 2 {}).step 8 2))).map (·.1)).foldl
      (fun s t => s.cancelRetry t 2) s1
  | _ => ((s.entTasks e).map (·.1)).foldl (fun s t => s.abortSlot t 3) s

/-- ABORT_OP (R491). -/
def doAbortOp (sq idx : Nat) (s : State) : State :=
  s.withDesc sq idx 0x19 (fun d =>
    let b := d.bytes
    let site := fld b 16 2
    let group := fld b 18 2
    let e : Ent := if site ≠ 0xFFFF then .site site else .group group
    if (site = 0xFFFF) == (group = 0xFFFF) || !s.declared e || 16 ≤ fld b 20 1 || !zeroes b 21 43 then s.finish sq idx St.bad
    else ((bitList 4 (fld b 20 1)).foldl (fun s k => s.abortEnt e k) s).finish sq idx St.ok)

/-! ### Declarations (R73, R80, R90) -/

/-- DECLARE_SITE (R69-R73). -/
def doDeclareSite (sq idx : Nat) (s : State) : State :=
  s.withDesc sq idx 0x01 (fun d =>
    if !s.declFirst d then s
    else if s.declHeld d then s.wait { sq := sq, idx := idx, kind := .declare, ent := some (declBody d.bytes).ent } else s.declTurn d)

/-- The tasks that an undeclaration of a site ends: the site's, and its group's once it has no other member. -/
def State.endingTasks (s : State) (x : Site) : List Nat :=
  (s.paddock.tasks.filter (fun p => p.2.siteId = x.id || (match x.group with
    | some g => (s.members g).length ≤ 1 && p.2.groupId = g
    | none => false))).map (·.1)

/-- The measurements and acquisitions on a site whose retry is pending: task and slot (R90, R422). -/
def State.retriesOn (s : State) (x : Site) : List (Nat × Nat) :=
  s.paddock.tasks.flatMap (fun p => ([1, 2].filter (fun k =>
    let o := p.2.ops.getD k {}
    o.retryAt.isSome && (if k = 1 then mcSite (slice o.step 8 24) else fld o.step 8 2) = x.id)).map (fun k => (p.1, k)))

/-- The work of a site begins to end (R90): tasks with ABORTED, a running one at its next boundary; measurements and acquisitions. -/
def State.endSiteWork (s : State) (x : Site) : State :=
  let s1 := (s.endingTasks x).foldl (fun s t => match s.task t with
    | some u =>
      if u.state = 3 && !(s.fslot u.slot).hold then s.upTask t (fun u => { u with abortAt := some (u.abortAt.getD (St.aborted, 0)) })
      else s.endTask t St.aborted 0
    | none => s) s
  let s2 := ((List.range 48).filter (fun m => (s1.meter m).state ≠ 0 && mcSite (s1.meter m).cfg = x.id)).foldl
    (fun s m => s.stopMeas m St.aborted) s1
  let s3 := (s2.acqs.filter (fun a => a.site = x.id && a.stopAt.isNone)).foldl (fun s a => s.stopAcq a.site St.aborted s.dtime) s2
  (s3.retriesOn x).foldl (fun s p => s.cancelRetry p.1 p.2) s3

/-- Nothing of a site's work is left (R90). -/
def State.siteIdle (s : State) (x : Site) : Bool :=
  (s.endingTasks x).all (fun t => (s.task t).any (fun u => u.state = 5 && u.ops.all (fun o => !o.busy))) &&
    (List.range 48).all (fun m => (s.meter m).state = 0 || mcSite (s.meter m).cfg ≠ x.id) && s.acqs.all (fun a => a.site ≠ x.id) &&
    (s.retriesOn x).isEmpty

/-- A site and what it holds are freed: regions, APG binding, channels, chains, and with the last site of a slice the slice, whose
CL_n_SITE_MASK field reads 0 after a group (R80), and DUTPWR_EN (R90). -/
def State.freeSite (s : State) (x : Site) : State :=
  let e := x.ent
  let last : Bool := match x.group with
    | some g => (s.members g).length ≤ 1
    | none => true
  let s1 := ((s.regions.filter (fun r => r.2.site = x.id)).map (·.1)).foldl (fun s r => s.freeRegion r) s
  let s2 := x.clusters.foldl (fun s n => s.inertChans n (x.local n)) s1
  let s3 := if last then
      let s3 := (s2.entSlices e).foldl (fun s g => (if x.group.isSome then s.setSiteMask g 0 else s).freeSl g) (s2.unbindEnt e none)
      let other (n : Nat) : Bool := s.sites.any (fun p => p.1 ≠ x.id && p.2.dutpwr && p.2.local n ≠ 0)
      if x.dutpwr || x.group.isSome then (x.clusters.filter (fun n => !other n)).foldl (fun s n => s.setDutpwr n false) s3 else s3
    else s2
  let s4 := { s3 with sites := kDel s3.sites x.id, results := kDel s3.results x.id }
  let s5 := match x.group with
    | some g => if last then { s4 with groups := kDel s4.groups g } else s4.remask g
    | none => s4
  s5.placementChanged.mirror { kind := 6, key := entKey (.site x.id) ++ [2] }

/-- An undeclaration on its turn: it waits for a burst, ends the site's work, and frees the site once nothing is left (R90). -/
def State.undeclTurn (s : State) (d : Desc) : State :=
  let sq := d.sq
  let idx := d.idx
  let id := fld d.bytes 16 2
  let hold (s : State) (e : Ent) : State :=
    if (s.waitOf sq idx).isSome then s else s.wait { sq := sq, idx := idx, kind := .undeclare, ent := some e }
  match s.site id with
  | none => (s.unwait sq idx).finish sq idx St.bad
  | some x =>
    if !zeroes d.bytes 18 46 then (s.unwait sq idx).finish sq idx St.bad
    else
      let s0 := if x.group.isNone && (s.burst x.ent).any (fun b => !b.admitted) then s.dropBurst x.ent St.aborted 0 else s
      if s0.busy x.ent then hold s0 x.ent
      else
        let s1 := s0.endSiteWork x
        if s1.siteIdle x then ((s1.unwait sq idx).freeSite x).finish sq idx St.ok else hold s1 x.ent

/-- UNDECLARE_SITE (R90). -/
def doUndeclareSite (sq idx : Nat) (s : State) : State :=
  s.withDesc sq idx 0x02 (fun d =>
    let e : Ent := match s.site (fld d.bytes 16 2) with
      | some x => x.ent
      | none => .site (fld d.bytes 16 2)
    if !s.declFirst d then s
    else if s.declHeld d then s.wait { sq := sq, idx := idx, kind := .undeclare, ent := some e } else s.undeclTurn d)

/-- A waiting declaration or undeclaration has its turn, if none before it holds it back (R73): `group` takes every DECLARE_SITE and
what names a lockstep group, else the undeclarations of other sites. -/
def declWaited (group : Bool) (sq idx : Nat) (s : State) : State :=
  match s.waitOf sq idx, s.desc sq idx with
  | some w, some d =>
    let g : Bool := match w.ent with
      | some (.group _) => true
      | _ => false
    let mine : Bool := if group then w.kind == .declare || g else w.kind == .undeclare && !g
    if !w.isDecl || !mine || s.declHeld d then s
    else if w.kind = .declare then s.declTurn d else s.undeclTurn d
  | _, _ => s

/-- DEFERRED_DECLARATION (R80). -/
def doDeferredDeclaration (sq idx : Nat) (s : State) : State := declWaited true sq idx s

/-- DEFERRED_UNDECLARATION (R90). -/
def doDeferredUndeclaration (sq idx : Nat) (s : State) : State := declWaited false sq idx s

/-- SITE_MASK_WRITE (R79, R92): the four fields, with the bits held under R89. -/
def doSiteMaskWrite (n : Nat) (v : W64) (s : State) : State :=
  if s.nCl ≤ n then s else (List.range 4).foldl (fun s i => s.writeMask (4 * n + i) (fget v (16 * i) 16)) s

/-! ### Commands -/

/-- CONTEXT_FETCH_DONE. -/
def execContextFetchDone (slot : Nat) (s : State) : Host.Outcome State Fault Refusal := .next (doContextFetchDone slot s)
/-- QUANTUM_EXPIRY. -/
def execQuantumExpiry (tid : Nat) (s : State) : Host.Outcome State Fault Refusal := .next (doQuantumExpiry tid s)
/-- TASK_TIMER_EXPIRY. -/
def execTaskTimerExpiry (tid t : Nat) (s : State) : Host.Outcome State Fault Refusal := .next (doTaskTimerExpiry tid t s)
/-- PADDOCK_WARDEN_WRITE. -/
def execPaddockWardenWrite (v : W64) (s : State) : Host.Outcome State Fault Refusal :=
  .next (s.busWrite (F.PADDOCK_WARDEN_TASK_ID.off []) (doPaddockWardenWrite v))
/-- FLOW_CORE_FAILURE. -/
def execFlowCoreFailure (core : Nat) (s : State) : Host.Outcome State Fault Refusal := .next (doFlowCoreFailure core s)
/-- SPARE_CORE_READY. -/
def execSpareCoreReady (slot : Nat) (s : State) : Host.Outcome State Fault Refusal := .next (doSpareCoreReady slot s)
/-- START_FLOW. -/
def execStartFlow (sq idx : Nat) (s : State) : Host.Outcome State Fault Refusal := .next (doStartFlow sq idx s)
/-- ABORT_TASK. -/
def execAbortTask (sq idx : Nat) (s : State) : Host.Outcome State Fault Refusal := .next (doAbortTask sq idx s)
/-- SIGNAL_TASK. -/
def execSignalTask (sq idx : Nat) (s : State) : Host.Outcome State Fault Refusal := .next (doSignalTask sq idx s)
/-- READ_TASK. -/
def execReadTask (sq idx : Nat) (s : State) : Host.Outcome State Fault Refusal := .next (doReadTask sq idx s)
/-- LOCK. -/
def execLockDesc (sq idx : Nat) (s : State) : Host.Outcome State Fault Refusal := .next (doLockDesc sq idx s)
/-- LOCK_TIMEOUT. -/
def execLockTimeout (sq idx t : Nat) (s : State) : Host.Outcome State Fault Refusal := .next (doLockTimeout sq idx t s)
/-- UNLOCK. -/
def execUnlockDesc (sq idx : Nat) (s : State) : Host.Outcome State Fault Refusal := .next (doUnlockDesc sq idx s)
/-- UNLOAD_FLOW. -/
def execUnloadFlow (sq idx : Nat) (s : State) : Host.Outcome State Fault Refusal := .next (doUnloadFlow sq idx s)
/-- UNLOAD_PE_LIST. -/
def execUnloadPeList (sq idx : Nat) (s : State) : Host.Outcome State Fault Refusal := .next (doUnloadPeList sq idx s)
/-- DEFERRED_PE_LIST_UNLOAD. -/
def execDeferredPeListUnload (sq idx : Nat) (s : State) : Host.Outcome State Fault Refusal := .next (doDeferredPeListUnload sq idx s)
/-- ABORT_OP. -/
def execAbortOp (sq idx : Nat) (s : State) : Host.Outcome State Fault Refusal := .next (doAbortOp sq idx s)
/-- DECLARE_SITE. -/
def execDeclareSite (sq idx : Nat) (s : State) : Host.Outcome State Fault Refusal := .next (doDeclareSite sq idx s)
/-- UNDECLARE_SITE. -/
def execUndeclareSite (sq idx : Nat) (s : State) : Host.Outcome State Fault Refusal := .next (doUndeclareSite sq idx s)
/-- DEFERRED_DECLARATION. -/
def execDeferredDeclaration (sq idx : Nat) (s : State) : Host.Outcome State Fault Refusal := .next (doDeferredDeclaration sq idx s)
/-- DEFERRED_UNDECLARATION. -/
def execDeferredUndeclaration (sq idx : Nat) (s : State) : Host.Outcome State Fault Refusal := .next (doDeferredUndeclaration sq idx s)
/-- SITE_MASK_WRITE. -/
def execSiteMaskWrite (n : Nat) (v : W64) (s : State) : Host.Outcome State Fault Refusal :=
  .next (s.busWrite (F.CL_SITE_MASK_MASK.off [n]) (doSiteMaskWrite n v))

end Sys2Proof.Machine
end

