-- ==== Sys2Proof/Machine/Memory.lean ====
section
/-! DEFINITION. The controllers and arbiters of device memory (15_device_memory.md): arbitration (R534-R537), refresh (R539, R540),
maintenance (R527), the outcome of an erroneous read for its requester (R544), scrub (R546), repair (R547, R548), and the failure of a
channel (R550). -/

namespace Sys2Proof.Machine

/-! ### Arbitration -/

/-- The arbitration kind of a requester; none for the real-time class (R531). -/
def arbKind (id : Nat) : Option Nat :=
  if id < 0x10 then none else if id < 0x20 then some 0 else if id < 0x38 then some 1 else if id < 0x40 then some 2
  else if id < 0x50 then some 3 else if id < 0x60 then some 4 else if id < 0x68 then some 5 else if id < 0x70 then some 6
  else if id < 0x78 then some 7 else some 1

/-- The wait counter N of a requester (R534). -/
def Mc.wait (c : Mc) (id : Nat) : Nat := (kGet c.waits id).getD 0

/-- A requester is at its limit (R534). -/
def State.arbAtLimit (s : State) (m id : Nat) : Bool := match arbKind id with
  | none => false
  | some k =>
    let l := s.rf (F.MC_ARB_LIMIT_LIMIT.at k) [m]
    l ≠ 0 && l ≤ (s.mc m).wait id

/-- Effective priority (R534). -/
def State.arbPrio (s : State) (m id : Nat) : Nat := match arbKind id with
  | none => 15
  | some k => min (s.rf (F.MC_ARB_PRIO_BASE.at k) [m] + (s.mc m).wait id) (s.rf (F.MC_ARB_PRIO_CEIL.at k) [m])

end Sys2Proof.Machine

namespace Sys2Proof

/-- A request as the transfers that it makes (R538): at most 1,024 bytes each, none across a page. -/
def ArbReq.pieces : Nat → ArbReq → List ArbReq
  | 0, _ => []
  | k + 1, r =>
    let n := min 1024 (1792 - r.addr % 2 ^ 36 % 1792)
    if r.size ≤ n then [r] else { r with size := n } :: pieces k { r with addr := r.addr + n, size := r.size - n }

/-- A request of the real-time class (R531). -/
def ArbReq.rt (r : ArbReq) : Bool := (Machine.arbKind r.id).isNone

/-- Its bank. -/
def ArbReq.bank (r : ArbReq) : Nat := (Machine.bankRow r.addr).1

end Sys2Proof

namespace Sys2Proof.Machine

/-- An urgent read: a context read for a task of priority 7 (R533). -/
def State.urgent (s : State) (r : ArbReq) : Bool := r.id = 0x38 && !r.write && (s.task r.tid).any (fun t => t.prio = 7)

/-- Bytes that the fetcher of a cluster has outstanding on all channels (R532). -/
def State.rtOut (s : State) (n : Nat) : Nat :=
  (s.mcs.map (fun c => ((c.queue.filter (fun r => r.id = n)).map ArbReq.size).sum)).sum

/-- A request arrives, in its transfers (R532, R538). A fetcher has no more bytes outstanding than the shares of its cluster's admitted bursts
(R182) can take. -/
def State.arrive (s : State) (m : Nat) (r : ArbReq) : State :=
  if r.rt && s.fifoRsv r.id < s.rtOut r.id + r.size then s
  else s.upMc m (fun c => { c with
    queue := c.queue ++ r.pieces (r.size + 1), rtAt := if r.rt && !c.queue.any ArbReq.rt then r.since else c.rtAt })

/-- Bank b is in in-order mode: a read that waits matches, in bank and row, a write that came before it (R541). -/
def Mc.inOrder (c : Mc) (b : Nat) : Bool :=
  c.queue.zipIdx.any (fun p => !p.1.write && p.1.bank = b && (c.queue.take p.2).any (fun w => w.write && bankRow w.addr = bankRow p.1.addr))

/-- The requests that a decision can grant (R541): of a bank in in-order mode its oldest one; a write among the 64 oldest, and before it no
request to the same row. -/
def Mc.ready (c : Mc) : List ArbReq :=
  (c.queue.zipIdx.filter (fun p =>
    let before := c.queue.take p.2
    (!c.inOrder p.1.bank || before.all (fun q => q.bank ≠ p.1.bank)) &&
      (!p.1.write || (before.all (fun q => bankRow q.addr ≠ bankRow p.1.addr) && (before.filter (·.write)).length < 64)))).map (·.1)

/-- The grant of a decision (R535): the request, and whether it is a forced win. -/
def State.arbGrant (s : State) (m : Nat) : Option (ArbReq × Bool) :=
  let c := s.mc m
  let reqs := c.ready
  let rt := (c.queue.find? ArbReq.rt).filter reqs.contains
  let others := reqs.filter (fun r => !r.rt)
  let place (id : Nat) : Nat := if c.atLimit.contains id then c.atLimit.idxOf id else c.atLimit.length
  let forced := bestBy (fun r => [if s.urgent r then 0 else 1, place r.id, r.id])
    (others.filter (fun r => s.urgent r || s.arbAtLimit m r.id))
  match (if c.prevForced && c.queue.any ArbReq.rt then none else forced) with
  | some r => some (r, true)
  | none => match rt with
    | some r => some (r, false)
    | none => (bestBy (fun r => [15 - s.arbPrio m r.id, if r.openRow then 0 else 1, 255 - c.wait r.id, r.id]) others).map
        (fun r => (r, false))

/-- One per-bank refresh of the bank next in turn (R539). -/
def Mc.refresh (c : Mc) : Mc := { c with owed := max (-8) (c.owed - 1), nextBank := (c.nextBank + 1) % 16 }

/-- The bank that a decision refreshes, and whether it is forced (R540). -/
def Mc.refreshes (c : Mc) : Option (Nat × Bool) :=
  if 6 ≤ c.owed then some (c.nextBank, true)
  else if -4 < c.owed && c.queue.all (fun r => !r.rt && r.bank ≠ c.nextBank) then some (c.nextBank, false)
  else none

/-- The refresh that a decision issues (R540): forced, or in a gap. -/
def State.arbRefresh (s : State) (m : Nat) : State := match (s.mc m).refreshes with
  | some (_, true) => (s.upMc m Mc.refresh).incRf F.MC_REF_STAT_FORCED_REF [m]
  | some (_, false) => s.upMc m Mc.refresh
  | none => s

/-- Wait counters and the order at the limit after a decision (R534, R535). -/
def State.arbCount (s : State) (m win : Nat) : State :=
  let ids := (((s.mc m).queue.filter (fun r => !r.rt)).map ArbReq.id).dedup
  let s1 := s.upMc m (fun c => { c with waits := ids.foldl (fun w id =>
    if id = win then kDel w id else kSet w id (satAdd 8 ((kGet w id).getD 0) 1)) c.waits })
  s1.upMc m (fun c =>
    let keep := c.atLimit.filter (fun id => id ≠ win && s1.arbAtLimit m id)
    { c with atLimit := keep ++ (ids.filter (fun id => id ≠ win && !keep.contains id && s1.arbAtLimit m id)).mergeSort (· ≤ ·) })

/-- A channel serves requests: trained, live, not in self-refresh, and not under repair (R526, R548). -/
def State.mcServes (s : State) (m : Nat) : Bool :=
  s.mcLive m && s.rf F.MC_STAT_RATE [m] ≠ 0 && s.islUp (13 + m) && !(s.mc m).selfref && !s.waits m

/-- The longest a granted real-time request may still wait for its first data beat, ns (R523, R553): the decision and the crossing, a row to
open, a refresh that its bank is under. -/
def rtRest (r : ArbReq) (ref : Option (Nat × Bool)) : Nat :=
  8 + (if r.openRow then 0 else 36) + (if ref.any (fun x => x.1 = r.bank) then 140 else 0)

/-- A request is granted (R534, R535). The wait of a real-time one ends at its first data beat, which lies a free time after the decision
within `rtRest` (log entry 42). -/
def State.grantTo (s : State) (m : Nat) (r : ArbReq) (forced : Bool) (ref : Option (Nat × Bool)) : State :=
  let s1 := (s.arbCount m r.id).upMc m (fun c => { c with
    grant := some r.id, prevForced := forced, queue := c.queue.erase r, rtAt := if r.rt then s.dtime else c.rtAt })
  if forced then s1.incRf F.MC_ARB_STAT_FORCED [m]
  else if r.rt then
    let w := s.dtime - (s.mc m).rtAt + Config.freeValue s.freeCtr % (rtRest r ref + 1)
    s1.draw.setRf F.MC_ARB_STAT_RT_WAIT_MAX [m] (max (s1.rf F.MC_ARB_STAT_RT_WAIT_MAX [m]) (sat 16 w))
  else s1

/-- The requests that have arrived since the previous decision, in arrival order, join those that wait. -/
def State.arriveAll (s : State) (m : Nat) (reqs : List ArbReq) : State := reqs.foldl (fun s r => s.arrive m r) s

/-- ARBITER_DECISION (R535): `reqs` has the requests that have arrived since the previous one. A channel that does not serve grants none. -/
def doArbiterDecision (m : Nat) (reqs : List ArbReq) (t : Nat) (s0 : State) : State :=
  if !s0.mcLive m then s0
  else
    let s := (s0.at t).arriveAll m reqs
    if !s.mcServes m then s
    else match (s.arbRefresh m).arbGrant m with
      | none => s.arbRefresh m
      | some (r, forced) => (s.arbRefresh m).grantTo m r forced (s.mc m).refreshes

/-- A value of MC_m_ARB_PRIO with each CEIL above 14 made 14 (R537). -/
def clampCeil (v : Nat) : Nat := (List.range 8).foldl (fun v k => if bitsOf v (8 * k + 4) 4 = 15 then setBits v (8 * k + 4) 4 14 else v) v

/-- ARB_PRIO_WRITE (R537, R552). -/
def doArbPrioWrite (m : Nat) (limit : Bool) (v : W64) (s : State) : State :=
  if s.nMc ≤ m then s
  else if limit then s.writeFields (F.MC_ARB_LIMIT_LIMIT.off [m]) v
  else s.writeFields (F.MC_ARB_PRIO_BASE.off [m]) (BitVec.ofNat 64 (clampCeil v.toNat))

/-- CEIL_PCT_WRITE (R216): the next admission decision uses it. -/
def doCeilPctWrite (v : W64) (s : State) : State := s.writeFields (F.ADM_CTL_CEIL_PCT.off []) v

/-! ### Refresh and maintenance (R527, R539) -/

/-- REFRESH_OWED_TICK (R539). -/
def doRefreshOwedTick (m : Nat) (s : State) : State :=
  if s.mcLive m && !(s.mc m).selfref then s.upMc m (fun c => { c with owed := min 8 (c.owed + 1) }) else s

/-- A maintenance command is issued: the channel serves, and no real-time request waits (R527). -/
def State.maintains (s : State) (m : Nat) : Bool := s.mcServes m && !(s.mc m).queue.any ArbReq.rt

/-- MR4_POLL (R527): `rate` is the refresh multiplier that MR4 calls for. BLOCKED clears once polls have called for twice the base rate or
less for 10 ms. -/
def doMr4Poll (m rate t : Nat) (s0 : State) : State :=
  if !s0.maintains m then s0
  else
    let s := (s0.at t).upMc m (fun c => { c with mult := if rate ≤ 1 then 1 else if rate = 2 then 2 else 4 })
    if 2 < rate then
      ((s.upMc m (fun c => { c with hot := true, cool := none })).setRf F.MC_STAT_HOT [m] 1).onset 20 (13 + m) 0 rate
    else if (s.mc m).hot then
      let from' := (s.mc m).cool.getD s.dtime
      let s1 := (s.upMc m (fun c => { c with cool := some from' })).condOff 20 (13 + m) 0
      if from' + 10000000 ≤ s.dtime then (s1.upMc m (fun c => { c with hot := false, cool := none })).scan else s1
    else s

/-- WCK2DQ_OSCILLATOR (R527). -/
def doWck2dqOscillator (m : Nat) (s : State) : State := if s.maintains m then s.upMc m (fun c => { c with osc := c.osc + 1 }) else s

/-- BACKGROUND_ZQ_CALIBRATION (R527). -/
def doBackgroundZqCalibration (m : Nat) (s : State) : State := if s.maintains m then s.upMc m (fun c => { c with zq := c.zq + 1 }) else s

/-- SCRUB_READ (R546): the pass moves on by one granule; an error the read meets comes with READ_DATA_RETURN. -/
def doScrubRead (m : Nat) (s : State) : State :=
  if s.mcServes m && s.rb F.MC_ECC_CTL_SCRUB_EN [m] then
    s.upMc m (fun c => { c with scrub := (c.scrub + 1) % max 1 (s.chanSize m / 64) })
  else s

/-! ### The code of a page (R528, R529) -/

/-- A byte of a DRAM page as it is stored (R528): data, the check byte of one of its words, or 0 in its last 32 bytes. A granule with an
uncorrectable error keeps bad check bytes (R544). -/
def State.pageByte (s : State) (m p o : Nat) : Nat :=
  let d := 1792 * p + 8 * (o - 1792)
  if o < 1792 then leNat (s.memRead m (1792 * p + o) 1)
  else if 2016 ≤ o then 0
  else if s.bad.contains (devAddr m (d / 64 * 64)) then Config.badCheckByte (devAddr m (d / 64 * 64)) (d / 8 % 8) % 256
  else Config.checkByte (leNat (s.memRead m d 8)) (Config.addressFold (d / 64)) % 256

/-- Wrong bits of a 72-bit word. -/
def wrongBits (x : Nat) : Nat := (List.range 72).countP (fun i => x.testBit i)

/-- What the code makes of a word with these wrong bits (R529): 0 clean, 1 corrected, 2 uncorrectable. -/
def wordErr (x : Nat) : Nat := if wrongBits x ≤ 2 then wrongBits x else Config.manyBits x % 3

end Sys2Proof.Machine

namespace Sys2Proof

/-- The address was mis-decoded, and the folds of the two addresses differ (R529). -/
def ReadRet.astray (r : ReadRet) : Bool :=
  r.from'.any (fun a => Config.addressFold (a % 2 ^ 36 / 64) ≠ Config.addressFold (r.addr % 2 ^ 36 / 64))

/-- What a read gives (R529): 0 clean, 1 corrected, 2 uncorrectable. -/
def ReadRet.err (r : ReadRet) : Nat := if r.astray then 2 else (r.flips.map Machine.wordErr).foldl max 0

/-- The word that the log names: the first with the error. -/
def ReadRet.word (r : ReadRet) : Nat := if r.astray then 0 else (r.flips.findIdx (fun x => Machine.wordErr x = r.err)) % 8

/-- Its syndrome. -/
def ReadRet.syndrome (r : ReadRet) : Nat :=
  Config.syndrome (r.flips.getD r.word 0) (Config.addressFold (r.addr % 2 ^ 36 / 64)) (Config.addressFold (r.from'.getD r.addr % 2 ^ 36 / 64)) % 256

end Sys2Proof

namespace Sys2Proof.Machine

/-! ### Reads that return (R543, R544) -/

/-- Data that a slice has fetched is lost: the burst ends at the first vector that needs it (R164), where its path is taken if a branch before
that vector is undecided. What was read into a branch buffer that is no longer held concerns nobody (R136). -/
def Seq.fetchLost (q : Seq) (r : ReadRet) (off : Nat) : Seq := match q.held, q.brbuf with
  | some hd, some b =>
    if r.target then
      if b.holds off || b.holds (off + 63) then { q with brbuf := some { b with into := b.into ++ [r.vec] } } else q
    else if hd.steer ≤ r.vec then { q with brbuf := some { b with fall := b.fall ++ [r.vec] } }
    else { q with cuts := q.cuts ++ [(r.vec, St.memUe)] }
  | _, _ => if r.target then q else { q with cuts := q.cuts ++ [(r.vec, St.memUe)] }

/-- What an uncorrectable error does to the requester. -/
def State.readUe (s : State) (r : ReadRet) : State :=
  if r.req < 0x10 then
    match (s.sl r.sl).ent.bind s.burst with
    | some b => if b.admitted then s.upSeq r.sl (fun q => q.fetchLost r (s.translate (r.addr / 64 * 64)).2.2) else s
    | none => s
  else if 0x20 ≤ r.req && r.req < 0x32 then
    match (s.slotOf (r.req - 0x20)).bind (fun i => (s.fslot i).run) with
    | some t => s.endTask t St.memUe 0
    | none => s
  else if r.req = 0x38 then s.endTask r.tid St.memUe 0
  else if r.req = 0x68 then
    match s.translate r.addr with
    | (2, id, _) => match s.region id with
      | some g => s.unprotect g (if g.kind = 1 then .record r.vec else if g.kind = 3 then .block r.t r.t else .other)
      | none => s
    | _ => s
  else if 0x78 ≤ r.req && r.req < 0x84 then s.peUe (r.req - 0x78) r.frames
  else s

/-- A read of channel m returns: the channel serves requests, or maintenance reads the row under repair (R544, R548). -/
def State.returns (s : State) (m : Nat) (r : ReadRet) : Bool :=
  r.addr / 2 ^ 36 = m && (s.mcServes m || (s.mcLive m && r.req = 0x70 && (s.mc m).repair = some (bankRow r.addr)))

/-- READ_DATA_RETURN (R543, R544, R638): a clean read changes nothing; a granule known to be uncorrectable stays so. The outcome of a
merge or of a host transfer comes with the command of the writer or of the descriptor. -/
def doReadDataReturn (m : Nat) (r : ReadRet) (s0 : State) : State :=
  if !s0.returns m r then s0
  else
    let s := s0.at r.t
    -- the reads of MAINT are those of scrub, but for the copy of a row under repair (R545, R548)
    let scrub : Bool := r.req = 0x70 && (s.mc m).repair ≠ some (bankRow r.addr)
    let access := if scrub then 3 else if 0x50 ≤ r.req && r.req < 0x60 then 2
      else if (0x10 ≤ r.req && r.req < 0x20) || r.req = 0x40 || r.req = 0x60 || r.req = 0x61 then 1 else 0
    let d (ue inj : Bool) : Detect :=
      { addr := r.addr, req := r.req, access := access, word := r.word, syndrome := r.syndrome, ue := ue, scrub := scrub, inj := inj }
    if r.err = 2 || s.bad.contains (r.addr / 64 * 64) then (s.memError (d true false)).readUe r
    else match s.useInjection r.addr with
      | some (true, s1) => s1.memError (d false true)
      | some (false, s1) => (s1.memError (d true true)).readUe r
      | none => if r.err = 1 then s.memError (d false false) else s

/-! ### Repair (R547, R548) -/

/-- Channel m delivers nothing to the bursts that fetch from it: each ends with HW_FAULT at the vector that lacks data, no earlier than what
its expansion queue holds, and FETCH_UNDERRUN is reported (R213). How far the prefetch FIFO reaches is free. -/
def State.starve (s : State) (m : Nat) : State :=
  (s.fetchers m).foldl (fun s g =>
    (s.cutSlice g ((s.sl g).seq.avail.length + Config.freeValue s.freeCtr) St.hwFault).draw.report 12 (g / 4) (g % 4) 0) s

/-- Step 1 of a repair reads the row: each granule of it that is known to be uncorrectable is found so again, by MAINT (R544, R548). -/
def State.copyRow (s : State) (m : Nat) (br : Nat × Nat) : State :=
  (s.bad.filter (fun g => g / 2 ^ 36 = m && bankRow g = br)).foldl
    (fun s g => s.detected { addr := g, req := 0x70, access := 0, ue := true }) s

/-- The repair of the row next in the pending list starts; a burst that fetches from the channel is starved (R213, R548). -/
def State.startRepair (s : State) (m : Nat) : State :=
  match (s.mc m).pending with
  | [] => s
  | br :: rest =>
    if s.mcServes m then ((s.upMc m (fun c => { c with repair := some br, pending := rest })).starve m).copyRow m br else s

/-- A bank's PPR row is gone: candidates of that bank that still wait are fenced (R547, R549). -/
def State.fenceBank (s : State) (m b : Nat) : State :=
  let ws := (s.mc m).pending.filter (fun br => br.1 = b)
  ws.foldl (fun s br => s.candidate m br) (s.upMc m (fun c => { c with
    ppr := c.ppr.filter (· ≠ b), pending := c.pending.filter (fun br => br.1 ≠ b) }))

/-- PPR_RUN (R547, R555). -/
def doPprRun (m : Nat) (v : W64) (s : State) : State :=
  if s.nMc ≤ m then s
  else
    let s1 := s.writeFields (F.MC_PPR_CTL_MODE.off [m]) v
    if s1.mcLive m && v.toNat.testBit 2 && s1.rf F.MC_PPR_CTL_MODE [m] = 1 then s1.startRepair m else s1

/-- A burst is queued or admitted whose object has data on channel m (R547). -/
def State.chanNeeded (s : State) (m : Nat) : Bool :=
  s.bursts.any (fun b => match kGet s.objs b.obj with
    | some o => o.chans.contains m
    | none => false)

/-- PPR_AUTO_START (R547). -/
def doPprAutoStart (m t : Nat) (s : State) : State :=
  if s.rf F.MC_PPR_CTL_MODE [m] = 2 && !s.chanNeeded m && (s.mc m).idleSince + 100000000 ≤ t then (s.at t).startRepair m else s

/-- A channel returns from repair: an admission scan, and Paddock places tasks again, those first whose context had arrived. -/
def State.chanBack (s : State) : State := (List.range 16).foldl (fun s i => s.coreTake i) s.scan.dispatch

/-- PPR_COMPLETE (R548): the next pending row follows; with none left the channel returns, and Paddock places tasks again. -/
def doPprComplete (m t : Nat) (s : State) : State :=
  match (s.mc m).repair with
  | none => s
  | some br =>
    let s1 := ((s.at t).upMc m (fun c => { c with repair := none })).fenceBank m br.1
    let s2 := (s1.incRf F.MC_PPR_STAT_USED [m]).setRf F.MC_PPR_STAT_AVAIL [m] (s1.rf F.MC_PPR_STAT_AVAIL [m] - 1)
    let used := s2.rf F.MC_PPR_STAT_USED [m]
    let s3 := { s2 with life := { s2.life with ppr := s2.life.ppr.set m used } }.log 5
      (leBytes 1 m ++ leBytes 1 br.1 ++ leBytes 4 br.2 ++ leBytes 1 used)
    let s4 := s3.startRepair m
    if s4.waits m then s4 else s4.chanBack

/-- MEMORY_CHANNEL_FAILURE (R550): whether the controller or the arbiter failed, the spec leaves to the channel. -/
def doMemoryChannelFailure (m : Nat) (s : State) : State :=
  if s.mcLive m then ((s.draw.report 21 (13 + m) 0 (2 + Config.freeValue s.freeCtr % 2)).retireChannel m).dispatch else s

/-! ### Commands -/

/-- ARBITER_DECISION. -/
def execArbiterDecision (m : Nat) (reqs : List ArbReq) (t : Nat) (s : State) : Host.Outcome State Fault Refusal :=
  .next (doArbiterDecision m reqs t s)
/-- ARB_PRIO_WRITE. -/
def execArbPrioWrite (m : Nat) (limit : Bool) (v : W64) (s : State) : Host.Outcome State Fault Refusal :=
  .next (s.busWrite ((if limit then F.MC_ARB_LIMIT_LIMIT else F.MC_ARB_PRIO_BASE).off [m]) (doArbPrioWrite m limit v))
/-- CEIL_PCT_WRITE. -/
def execCeilPctWrite (v : W64) (s : State) : Host.Outcome State Fault Refusal :=
  .next (s.busWrite (F.ADM_CTL_CEIL_PCT.off []) (doCeilPctWrite v))
/-- REFRESH_OWED_TICK. -/
def execRefreshOwedTick (m : Nat) (s : State) : Host.Outcome State Fault Refusal := .next (doRefreshOwedTick m s)
/-- MR4_POLL. -/
def execMr4Poll (m rate t : Nat) (s : State) : Host.Outcome State Fault Refusal := .next (doMr4Poll m rate t s)
/-- WCK2DQ_OSCILLATOR. -/
def execWck2dqOscillator (m : Nat) (s : State) : Host.Outcome State Fault Refusal := .next (doWck2dqOscillator m s)
/-- BACKGROUND_ZQ_CALIBRATION. -/
def execBackgroundZqCalibration (m : Nat) (s : State) : Host.Outcome State Fault Refusal := .next (doBackgroundZqCalibration m s)
/-- SCRUB_READ. -/
def execScrubRead (m : Nat) (s : State) : Host.Outcome State Fault Refusal := .next (doScrubRead m s)
/-- READ_DATA_RETURN. -/
def execReadDataReturn (m : Nat) (r : ReadRet) (s : State) : Host.Outcome State Fault Refusal := .next (doReadDataReturn m r s)
/-- RUN. -/
def execPprRun (m : Nat) (v : W64) (s : State) : Host.Outcome State Fault Refusal :=
  .next (s.busWrite (F.MC_PPR_CTL_MODE.off [m]) (doPprRun m v))
/-- PPR_AUTO_START. -/
def execPprAutoStart (m t : Nat) (s : State) : Host.Outcome State Fault Refusal := .next (doPprAutoStart m t s)
/-- PPR_COMPLETE. -/
def execPprComplete (m t : Nat) (s : State) : Host.Outcome State Fault Refusal := .next (doPprComplete m t s)
/-- MEMORY_CHANNEL_FAILURE. -/
def execMemoryChannelFailure (m : Nat) (s : State) : Host.Outcome State Fault Refusal := .next (doMemoryChannelFailure m s)

end Sys2Proof.Machine
end

