-- ==== Sys2Proof/Machine/PairOps.lean ====
section
/-! DEFINITION. The states of a mirror pair and their changes (R606, R612), shared by the links and the pair's own commands. -/

namespace Sys2Proof.Machine

/-- Set a device flag in every task on the chip (R606, R620). -/
def State.flagAll (s : State) (m : Nat) : State := (s.paddock.tasks.map (·.1)).foldl (fun s t => s.setFlags t m) s

/-- The pair changes its state: flag MIRROR in every task, and a MIRROR event of a subtype (R606, R624). -/
def State.pairTo (s : State) (st sub : Nat) : State :=
  if s.pair.state = st then s
  else (({ s with pair := { s.pair with state := st } }.flagAll 0x80).mirrorEvent sub)

/-- Mirroring stops: a PROTECTED pair is EXPOSED (R606, R612), and its standby goes on applying what it has received; what it has of an
unfinished snapshot is no use to it. A pair that was SYNCING is EXPOSED too, with no whole copy to take over from
(R614, the first corner case of 17_mirror_pair.md; log entry 35). -/
def State.pairExpose (s : State) : State :=
  let s1 := { s with pair := { s.pair with
    snapSeq := none, sent := [], partnerJoin := none, was := s.pair.was && s.pair.state ≠ 2
    queue := if s.pair.state = 2 then [] else s.pair.queue } }
  if s.pair.state = 2 || s.pair.state = 3 then s1.pairTo 4 3 else s1

/-- The standby lets go of what it reserves for a burst of its partner (R609). -/
def State.releaseShadow (s : State) (b : ShadowBurst) : State :=
  { s with cache := s.cacheAfter b.ent b.obj, pair := { s.pair with bursts := s.pair.bursts.filter (fun x => !(x.ent == b.ent)) } }

/-- The standby's mirrored copy is cleared. -/
def State.clearShadow (s0 : State) : State :=
  let s := s0.pair.bursts.foldl (fun s b => s.releaseShadow b) s0
  { s with pair := { s.pair with
      tasks := [], locks := [], bursts := [], dutpwr := [], maps := [], lostObjs := [], results := [], expressed := [], missing := [] } }

/-- The active chip lowers PE_OWN and releases PAIR_ACTIVE_N (R602). -/
def State.releaseRole (s : State) : State :=
  { s with pair := { s.pair with peOwn := false, drive := false, claim := 0, role := if s.pair.role = 1 then 0 else s.pair.role } }

/-- A claim in progress that the host did not write, and any of a standby, ends: its line is released (R607). -/
def State.dropClaim (s : State) : State :=
  if s.pair.claim ≠ 0 && (s.pair.claimFor ≠ 0 || s.pair.role = 2) then
    { s with pair := { s.pair with claim := 0, claimFor := 0, drive := false } }
  else s

/-- What ends with a pair: the state is UNPAIRED, its claims stop, PAIR_JOIN and PAIR_SWITCH descriptors that wait complete with a
status. -/
def State.pairEnd (s : State) (sub st : Nat) : State :=
  let p := s.pair
  let s1 := s.dropClaim.pairTo 0 sub
  let s2 := { s1 with pair := { s1.pair with
    joins := [], switches := [], partnerJoin := none, queue := [], was := false, sent := [], snapSeq := none, unprot := [], digests := []
    unprotObjs := [], missing := [], following := false, role := if s1.pair.role = 2 then 0 else s1.pair.role } }.clearShadow
  (p.joins ++ p.switches).foldl (fun s d => s.finish d.1 d.2 st) s2

/-- The PAIR_JOIN and PAIR_SWITCH descriptors in progress end with a status, and a pair that is only JOINING is UNPAIRED (R34). -/
def State.pairDescs (s : State) (st : Nat) : State :=
  if s.pair.state = 1 then s.pairEnd 7 st
  else (s.pair.joins ++ s.pair.switches).foldl (fun s d => s.finish d.1 d.2 st)
    { s with pair := { s.pair with joins := [], switches := [] } }

/-- The bytes of a region that hold anything, 512 at a time, as items (R609). -/
def State.regionItems (s : State) (r : Region) : List MItem :=
  { kind := 7, key := [r.id, 0], data := r.header } :: (List.range (ceilDiv r.size 512)).filterMap (fun i =>
    let bs := s.memRead r.chan (r.base + 512 * i) (min 512 (r.size - 512 * i))
    if bs.all (· == 0) then none else some { kind := 7, key := [r.id, 512 * i], data := bs })

/-- Checkpoints of the running bursts, older first. -/
def State.ckptItems (s : State) (b : Burst) : List MItem :=
  (s.entSlices b.ent).flatMap (fun g =>
    let q := (s.sl g).seq
    (q.ckptOld.toList ++ q.ckpt.toList).map (ckptItem b.ent g))

/-- Send the digests of every loaded object (R611). -/
def State.announce (s : State) : State := s.objs.foldl (fun s o => s.tether { kind := 15, key := [o.1], data := o.2.digest }) s

/-- The active chip sends its digests and a full snapshot of the items of R609, between a beginning and an end (R605): the pair is
SYNCING. -/
def State.snapshotPair (s00 : State) : State :=
  let s0 := s00.announce.pairTo 2 1
  let s := { s0 with pair := { s0.pair with sent := [], snapSeq := none } }.tether { kind := 10, key := [0] }
  let s1 := (s.paddock.tasks.map (·.1)).foldl (fun s t => s.mirrorTask t) s
  let s2 := (List.range 32).foldl (fun s k => s.mirrorLock k) s1
  let s3 := (s2.sites.map (·.2)).foldl (fun s x => (s.tether { kind := 4, key := [x.id], data := s.siteResult x }).mirrorMap x.ent) s2
  let s4 := (s3.bursts.filter Burst.admitted).foldl (fun s b => (s.ckptItems b).foldl (fun s i => s.tether i) (s.mirrorBurst b false)) s3
  let s5 := ((s4.objs.filter (fun o => o.2.lost)).map (·.1)).foldl (fun s id => s.tether { kind := 6, key := [2, id] }) s4
  let s6 := (s5.regions.map (·.2)).foldl (fun s r => (s.regionItems r).foldl (fun s i => s.tether i) s) s5
  let s7 := (List.range s6.nCl).foldl (fun s n => s.tether { kind := 9, key := [n, b2n (s.pe.getD n {}).dutpwr] }) s6
  let s8 := s7.tether { kind := 10, key := [1] }
  { s8 with pair := { s8.pair with snapSeq := (s8.pair.sent.getLast?).map (·.1) } }

/-- This chip's own side of the pairing checks (R605): ring, position, length, CAPS_LIVE, the active role, busy, then the declared sites. -/
def State.joinInfo (s : State) : MItem :=
  { kind := 11
    key := [s.rf F.PAIR_STAT_RING, s.pos, s.ringLen, (s.reg (F.CAPS_LIVE_CL_LIVE.off [])).toNat, b2n (s.pair.role = 1),
      b2n (!s.paddock.tasks.isEmpty || !s.bursts.isEmpty)] ++
      s.sites.flatMap (fun p => [p.2.id, p.2.group.getD (2 ^ 16), p.2.chmask, p.2.chain, p.2.span, p.2.pinBase, p.2.npins, p.2.leader,
        b2n p.2.xchip, b2n p.2.dutpwr, b2n p.2.maskFirst]) }

/-- The first pairing check that fails between this chip and its partner, or 0 (R605). -/
def joinCheck (a b : List Nat) : Nat :=
  let act (l : List Nat) : Bool := l.getD 4 0 = 1
  -- with no active chip the first-ring chip claims the role, so the second-ring chip is to be standby
  let standby := if act a then b else if act b then a else if a.getD 0 0 = 1 then a else b
  if a.getD 0 0 = b.getD 0 0 then 1
  else if a.getD 1 0 ≠ b.getD 1 0 || a.getD 2 0 ≠ b.getD 2 0 then 2
  else if a.getD 3 0 ≠ b.getD 3 0 then 3
  else if a.drop 6 ≠ b.drop 6 then 4
  else if standby.getD 5 0 = 1 then 5
  else if act a && act b then 6 else 0

end Sys2Proof.Machine
end

