-- ==== Sys2Proof/Machine/Links.lean ====
section
/-! DEFINITION. The Paldel links (16_paldel_links.md): training, lane and link loss, width changes, the replay of packets and express
messages, electrical idle, and what ring traffic does: cross-chip starts, stops and fails, triggers, time and alignment. -/

namespace Sys2Proof.Machine

/-! ### Blocks (R561) -/

/-- An ACK or a NAK: traffic of one block, with bits [47:8] given and its CRC (R561, R562, R572). -/
def State.crcBlock (s : State) (n typ body : Nat) : State :=
  let s1 := s.linkUsed n
  s1.emit (.link n { typ := typ, seq := 0, fields := [crcBody typ body] } (s1.stripe n 1))

/-- The CRC of a received control block holds. -/
def blockOk (v : W64) : Bool := fget v 48 16 = crc16 (leBytes 6 (fget v 0 48))

/-- A traffic block is received: the idle timer starts again, the holds of the active lanes end, and the link leaves electrical idle
(R571, R572; which of the active lanes carried it is not followed, log entry 43). -/
def State.heard (s : State) (n : Nat) : State :=
  s.upLk n (fun l => { l with
    idleSince := s.dtime, state := if l.state = 3 then 2 else l.state
    lanes := l.lanes.zipIdx.map (fun x => if l.active.testBit x.2 then { x.1 with hold := false, heardAt := s.dtime } else x.1) })

/-- A task of a cross-chip site sees a change of a ring link (R590). -/
def State.linkFlag (s : State) (n : Nat) : State :=
  if n = 2 then s
  else ((s.paddock.tasks.filter (fun p => (s.site p.2.siteId).any Site.xchip)).map (·.1)).foldl (fun s t => s.setFlags t 0x40) s

/-! ### Links that come up and go down -/

/-- The setting of attempt a, 1 to 6 (R569). -/
def State.attemptSetting (s : State) (n a : Nat) : Nat := if s.rb F.PL_CTL_FORCE_ALT [n] != decide (3 < a) then 1 else 0

/-- A lane begins training attempt a and sends bursts, the first of which the record has (R568, R569). -/
def State.attempt (s : State) (n k a : Nat) : State :=
  ((s.setRf F.PL_LANE_ATTEMPTS [n, k] a).upLane n k (fun x => { x with
    training := true, locked := false, setting := s.attemptSetting n a, attemptAt := s.dtime, bursts := 0, idx := 0, errs := [] })).burstOn n k

/-- Every present lane that is not retired, and every one that is being revived, begins its attempts (R569, R578). -/
def State.train (s : State) (n : Nat) : State :=
  let ks := (List.range 4).filter (fun k => !(s.lanesRetired n).testBit k || (s.lane n k).revive.isSome)
  if ks.isEmpty || !s.clk.lref || s.clk.lrefHold || s.power.blk.contains (21 + n, none) then s.upLk n (fun l => { l with state := 4, downAt := s.dtime })
  else ks.foldl (fun s k => s.attempt n k 1) (s.upLk n (fun l => { l with state := 1 }))

/-- Cross-chip work that needs a ring link ends with LINK_DOWN (R37): bursts, remote SIGNALs, an alignment in progress. -/
def State.ringCut (s : State) : State :=
  let es := (s.bursts.filter (fun b => (s.entX b.ent).isSome)).map Burst.ent
  let s1 := es.foldl (fun s e => s.stopBurst e St.linkDown) s
  let ts := (s1.paddock.tasks.filter (fun p => p.2.state = 4 && p.2.wkind = 0 && p.2.wmask = 0 && p.2.begun && p.2.ack.isNone)).map (·.1)
  (ts.foldl (fun s t => (s.upTask t (fun t => { t with ack := some St.linkDown })).wake t false) s1).alignAbort

/-- A link goes to a state without traffic: everything in flight on it is dropped, and its users learn of it (R564, R575, R590). -/
def State.linkGone (s : State) (n st : Nat) : State :=
  let wasUp := s.linkUp n
  let s0 := if n = 2 then { s with pair := { s.pair with partial' := none } } else s
  let s1 := s0.upLk n (fun l => { l with
    state := st, active := 0, replay := [], express := [], waitq := [], unacked := none, naked := false, nakedE := false, width := none, rejoin := 0
    losses := [], downAt := s.dtime, sentT := [], recvT := none, timeAt := none
    lanes := l.lanes.map (fun x => { x with locked := false, training := false, lost := false, hold := false, errs := [] }) })
  if !wasUp then s1
  else
    let s2 := (s1.linkEvent n 2).linkFlag n
    if n = 2 then s2.pairExpose else if n < 2 then s2.ringCut else s2

/-- All active lanes are lost together: the link is lost and brought up again (R575). -/
def State.linkLost (s : State) (n : Nat) : State := ((s.linkGone n 4).report 22 (21 + n) 0 2).train n

/-- A lane is retired (R577); with its last lane the link is DOWN and no longer live. -/
def State.retireLane (s : State) (n k : Nat) : State :=
  let s1 := (s.orRf F.PL_STAT_RETIRED [n] (2 ^ k)).upLane n k (fun _ => {})
  let s2 := (((s1.linkEvent n 4 k).report 22 (21 + n) k 3).log 0x0B [BitVec.ofNat 8 n, BitVec.ofNat 8 k, 1])
  let s3 := if s2.lanesRetired n = 15 then
      (s2.setRf F.CAPS_LIVE_LINK_LIVE [] (s2.rf F.CAPS_LIVE_LINK_LIVE - (s2.rf F.CAPS_LIVE_LINK_LIVE &&& 2 ^ n))).linkGone n 4
    else s2
  s3.degrade 8 (21 + n) k

/-- LANE_REVIVE descriptors of link n whose lanes have all rejoined complete with OK (R578); the lanes `later` have yet to. -/
def State.settleRevive (s : State) (n later : Nat) : State :=
  let ls := (s.lk n).lanes
  let owners := (ls.filterMap Lane.revive).eraseDups
  let done := owners.filter (fun d => ls.zipIdx.all (fun x =>
    x.1.revive ≠ some d || (x.1.locked && !x.1.training && !later.testBit x.2)))
  let s1 := s.upLk n (fun l => { l with
    lanes := l.lanes.map (fun x => if x.revive.any done.contains then { x with revive := none } else x) })
  done.foldl (fun s d => s.finish d.1 d.2 St.ok) s1

/-- LANE_REVIVE descriptors of a link that is disabled: their lanes can make no attempt, and they end with HW_FAULT (R578; log entry 43). -/
def State.failRevives (s : State) (n : Nat) : State :=
  let ds := ((s.lk n).lanes.filterMap Lane.revive).dedup
  ds.foldl (fun s d => s.finish d.1 d.2 St.hwFault) (s.upLk n (fun l => { l with lanes := l.lanes.map (fun x => { x with revive := none }) }))

/-- WIDTH blocks on every remaining lane: lanes this end receives well, the lanes it proposes, the token, AGREE (R561, R576). -/
def State.sendWidth (s : State) (n mine token : Nat) (agree : Bool) (act : Nat) : State :=
  let s1 := s.linkUsed n
  s1.emit (.link n { typ := 0x5A, seq := 0, fields := [crcBody 0x5A (mine + act * 2 ^ 4 + token * 2 ^ 8 + b2n agree * 2 ^ 16)] }
    (bitList 4 (s1.goodLanes n)))

/-- The two ends begin to agree on new active lanes (R576). -/
def State.startWidth (s : State) (n : Nat) : State :=
  let tok := ((s.lk n).token + 1) % 256
  let mine := s.goodLanes n
  (s.upLk n (fun l => { l with token := tok, width := some { mine := mine, token := tok, sentAt := s.dtime } })).sendWidth n mine tok false
    (activeOf mine)

/-- The link carries traffic (R569): its lanes, its sequence numbers, its event; a PROTECTED pair's link 2 brings a fresh snapshot, and
position 0's ring links an alignment (R588, R606). -/
def State.linkComesUp (s : State) (n : Nat) : State :=
  let failed := (List.range 4).filter (fun k =>
    !(s.lane n k).locked && !(s.lane n k).training && !(s.lanesRetired n).testBit k && (s.lane n k).revive.isNone)
  let s1 := s.upLk n (fun l => { l with
    state := 2, active := activeOf (s.goodLanes n), txSeq := 0, txEseq := 0, rxSeq := 0, rxEseq := 0, unacked := none, naked := false
    nakedE := false, width := none, rejoin := 0, losses := [], idleSince := s.dtime, markerAt := s.dtime
    lanes := l.lanes.map (fun x => { x with heardAt := s.dtime }) })
  let s2 := failed.foldl (fun s k => s.retireLane n k) (s1.orRf F.CAPS_LIVE_LINK_LIVE [] (2 ^ n))
  let s3 := ((s2.linkEvent n 1).linkFlag n).settleRevive n 0
  if n = 2 then
    if s3.pair.state = 4 && s3.pair.role = 1 then s3.snapshotPair
    else if s3.pair.state = 1 then s3.tether s3.joinInfo else s3
  else if s3.pos = 0 && s3.rb F.RING_CFG_AUTO_ALIGN then s3.alignStart else s3

/-- The role check of R570: what the partner's TRAIN blocks name is what this link's role requires. -/
def State.roleOk (s : State) (n : Nat) : Bool :=
  let p := s.rf F.PL_STAT_PARTNER_POS [n]
  let l := s.rf F.PL_STAT_PARTNER_LINK [n]
  let len := s.ringLen
  match n with
  | 0 => l = 1 && p = (s.pos + 1) % len
  | 1 => l = 0 && p = (s.pos + len - 1) % len
  | 2 => l = 2 && p = s.pos
  | _ => l = 3

/-- A retired lane that has trained is retired no more (R578). -/
def State.reviveLane (s : State) (n k : Nat) : State :=
  if !(s.lanesRetired n).testBit k then s
  else
    ((s.setRf F.PL_STAT_RETIRED [n] (s.lanesRetired n - 2 ^ k)).log 0x0B [BitVec.ofNat 8 n, BitVec.ofNat 8 k, 2]).linkEvent n 5 k

/-- A lane has trained (R568): the first brings its link up, a later one rejoins (R569, R577). -/
def State.laneTrained (s : State) (n k : Nat) : State :=
  let s1 := (s.upLane n k (fun x => { x with
    training := false, locked := true, lost := false, errs := [], heardAt := s.dtime })).reviveLane n k
  if (s1.lk n).state = 1 then
    if s1.roleOk n then s1.linkComesUp n
    else
      (s1.upLk n (fun l => { l with
        state := 5, lanes := l.lanes.map (fun x => { x with training := false, locked := false }) })).linkEvent n 6
  else if s1.linkUp n then
    if (s1.lk n).width.isSome then s1.upLk n (fun l => { l with rejoin := l.rejoin ||| 2 ^ k }) else s1.startWidth n
  else s1

/-- A lane has used all six attempts (R569, R577, R578). -/
def State.laneFailed (s : State) (n k : Nat) : State :=
  let own := (s.lane n k).revive
  let s1 := s.upLane n k (fun x => { x with training := false, locked := false, lost := false })
  let s2 := match own with
    | some d => (s1.upLk n (fun l => { l with
        lanes := l.lanes.map (fun x => if x.revive = some d then { x with revive := none } else x) })).finish d.1 d.2 St.hwFault
    | none => if s1.linkUp n && !(s1.lanesRetired n).testBit k then s1.retireLane n k else s1
  if (s2.lk n).state = 1 && (s2.lk n).lanes.all (fun x => !x.training) then s2.upLk n (fun l => { l with state := 4, downAt := s.dtime })
  else s2

/-- A lane loss that was part of a link loss does not count (R575). -/
def State.uncountLoss (s : State) (n k : Nat) : State :=
  let c := s.rf F.PL_LANE_LOSSES [n, k]
  if c = 0 || c = 2 ^ F.PL_LANE_LOSSES.w - 1 then s else s.setRf F.PL_LANE_LOSSES [n, k] (c - 1)

/-- A lane is lost (R574): it leaves use and retrains; the link changes its width, or is lost with its last active lane (R575, R576). -/
def State.loseLane (s : State) (n k : Nat) : State :=
  if !s.linkUp n || !(s.goodLanes n).testBit k then s
  else
    let was := (s.lk n).active
    let recent := (s.lk n).losses.filter (fun p => s.dtime ≤ p.1 + 1000)
    let gone := maskOf (k :: recent.map (·.2))
    let s2 := s.upLane n k (fun x => { x with lost := true, locked := false, hold := false, errs := [] })
    if (was &&& gone) = was || s2.goodLanes n = 0 then (recent.foldl (fun s p => s.uncountLoss n p.2) s2).linkLost n
    else
      let s2 := ((s2.incRf F.PL_LANE_LOSSES [n, k]).report 22 (21 + n) k 1).upLk n (fun l => { l with losses := (s.dtime, k) :: recent })
      let s3 := if (s2.lk n).state = 3 then s2.upLk n (fun l => { l with state := 2 }) else s2
      ((s3.attempt n k 1).upLane n k (fun x => { x with lost := true })).startWidth n

/-- A block error of a lane (R561, R574): 16 within 1,024 block times lose it; one in a training attempt starts its count again. -/
def State.blockErr (s : State) (n k : Nat) : State :=
  let s1 := (s.incRf F.PL_LANE_BLK_ERR [n, k]).upLane n k (fun x => { x with
    bursts := 0, idx := 0, errs := (s.dtime :: x.errs).filter (fun t => s.dtime ≤ t + 2629) })
  if 16 ≤ (s1.lane n k).errs.length then s1.loseLane n k else s1

/-- A traffic or WIDTH block whose CRC fails is a block error of the lane that carried it (R561): which of the active lanes that was is free
(log entry 43). -/
def State.crcErr (s : State) (n : Nat) : State :=
  let act := bitList 4 (s.lk n).active
  s.draw.blockErr n (act.getD (Config.freeValue s.freeCtr % max 1 act.length) 0)

/-! ### Training commands -/

/-- The partner has reported 16 good bursts of its own (R568). R561 gives TRAIN blocks no field that could carry the report, so whether it is
there at the end of a burst is free (log entry 43). -/
def State.partnerReports (s : State) : Bool := Config.freeValue s.freeCtr % 2 = 1

/-- TRAIN (R568): bits as R561 lays them out. A lane with 16 bursts is trained once the partner reports the same. -/
def doTrainBlock (n k : Nat) (v : W64) (t : Nat) (s0 : State) : State :=
  if !s0.hasLink n || 4 ≤ k then s0
  else
    let s := s0.at t
    if fget v 0 8 ≠ 0x2D || fget v 24 24 ≠ 0x5AC3E1 || !blockOk v then s.blockErr n k
    else if s.power.lull ≠ 0 then
      if fget v 18 6 = 63 && (s.rf F.LULL_CTL_WAKE_LINK).testBit n then s.wakeChip 5 else s
    else if !(s.lane n k).training then (s.heard n).upLane n k (fun x => { x with hold := false, heardAt := s.dtime })
    else if fget v 15 2 ≠ k || fget v 17 1 ≠ (s.lane n k).setting then s
    else
      let s1 := (s.setRf F.PL_STAT_PARTNER_POS [n] (fget v 8 5)).setRf F.PL_STAT_PARTNER_LINK [n] (fget v 13 2)
      let i := fget v 18 6
      let x := s1.lane n k
      if i ≠ x.idx then s1.upLane n k (fun x => { x with idx := if i = 0 then 1 else 0, bursts := 0 })
      else if i < 63 then s1.upLane n k (fun x => { x with idx := i + 1 })
      else
        let s2 := s1.upLane n k (fun x => { x with idx := 0, bursts := x.bursts + 1 })
        if x.bursts + 1 < 16 then s2 else if s2.partnerReports then s2.draw.laneTrained n k else s2.draw

/-- TRAINING_ATTEMPT_TIMEOUT (R568, R569). -/
def doTrainingAttemptTimeout (n k t : Nat) (s0 : State) : State :=
  let x := s0.lane n k
  if !x.training || t < x.attemptAt + 300000 then s0
  else
    let s := s0.at t
    let a := s.rf F.PL_LANE_ATTEMPTS [n, k]
    if a < 6 then (s.attempt n k (a + 1)).upLane n k (fun y => { y with lost := x.lost }) else s.laneFailed n k

/-- A write of PL_n_CTL (R569, R591): EN that rises, or is written 1 in ROLE_ERROR, starts training; EN that falls disables the link. -/
def doLinkEnable (n : Nat) (v : W64) (s : State) : State :=
  if !s.hasLink n then s
  else
    let old := s.rb F.PL_CTL_EN [n]
    let s1 := s.writeFields (F.PL_CTL_EN.off [n]) v
    let new := s1.rb F.PL_CTL_EN [n]
    if new && (!old || (s1.lk n).state = 5) then s1.train n
    else if !new && old then (s1.linkGone n 0).failRevives n else s1

/-- LINK_RETRY (R569): every 10 ms a DOWN link tries again. -/
def doLinkRetry (n t : Nat) (s : State) : State :=
  if (s.lk n).state = 4 && s.rb F.PL_CTL_EN [n] && s.clk.lref && !s.clk.lrefHold && (s.lk n).downAt + 10000000 ≤ t then (s.at t).train n else s

/-- LANE_LOSS (R574): the CDR loses lock, or the lane's block errors have reached 16 in 1,024 block times. -/
def doLaneLoss (n k : Nat) (errs : Bool) (t : Nat) (s : State) : State :=
  if errs && ((s.lane n k).errs.filter (fun e => t ≤ e + 2629)).length < 16 then s else (s.at t).loseLane n k

/-- LINK_LOSS (R575). -/
def doLinkLoss (n t : Nat) (s : State) : State := if s.linkUp n then (s.at t).linkLost n else s

/-- LANE_RETRAIN (R577). -/
def doLaneRetrain (n k : Nat) (ok : Bool) (t : Nat) (s : State) : State :=
  let x := s.lane n k
  if !x.training || !(x.lost || x.revive.isSome) then s
  else if ok then (s.at t).laneTrained n k else (s.at t).laneFailed n k

/-- BLOCK_ERROR (R561). -/
def doBlockError (n k t : Nat) (s : State) : State := if !s.hasLink n || 4 ≤ k || (s.lk n).state = 0 then s else (s.at t).blockErr n k

/-- LREF_LOSS (R56, R575, R590): every link goes DOWN, with no attempts and no retirement; the loss of a link that was up is reported. -/
def doLrefLoss (t : Nat) (s0 : State) : State :=
  if !s0.clk.lref then s0
  else
    let s := s0.at t
    let s1 := ({ s with clk := { s.clk with lref := false, lrefHold := true } }.setRf F.CLK_STAT_LREF_LOST [] 1).onset 2 29 0 0
    (List.range 4).foldl (fun s n =>
      if (s.lk n).state = 0 then s else if s.linkUp n then (s.linkGone n 4).report 22 (21 + n) 0 2 else s.linkGone n 4) s1

/-- LREF is present again, and LREF_OK reads 1 (R65). -/
def State.lrefRises (s : State) : State :=
  if s.clk.lref then s else { s with clk := { s.clk with lref := true, lrefSince := s.dtime } }.condOff 2 29 0

/-- LREF_RETURN (R575): the first after a loss is the return of LREF itself; one 1 ms later or more brings the enabled links up again
(log entry 26). -/
def doLrefReturn (t : Nat) (s0 : State) : State :=
  if !s0.clk.lref then (s0.at t).lrefRises
  else if !s0.clk.lrefHold || t < s0.clk.lrefSince + 1000000 then s0
  else
    let s := s0.at t
    (List.range 4).foldl (fun s n => if s.hasLink n && s.rb F.PL_CTL_EN [n] && (s.lk n).state = 4 then s.train n else s)
      { s with clk := { s.clk with lrefHold := false } }

/-- LANE_REVIVE (R578). -/
def doLaneRevive (sq idx : Nat) (s : State) : State :=
  s.withDesc sq idx 0x60 (fun d =>
    let b := d.bytes
    let n := fld b 16 1
    let m := fld b 17 1
    let ks := (bitList 4 m).filter (fun k => (s.lanesRetired n).testBit k)
    if !s.hasLink n || 4 ≤ n then s.finish sq idx St.absent
    else if !s.rb F.PL_CTL_EN [n] || ks.isEmpty || 16 ≤ m || !zeroes b 18 46 then s.finish sq idx St.bad
    else
      let s0 := s.begin sq idx
      let s1 := (if (s0.lk n).state = 4 then s0.train n else s0).upLk n (fun l => { l with state := if l.state = 4 then 1 else l.state })
      ks.foldl (fun s k => (s.attempt n k 1).upLane n k (fun x => { x with revive := some (sq, idx) })) s1)

/-! ### Width changes (R576) -/

/-- WIDTH (R576). -/
def doWidthBlock (n : Nat) (v : W64) (t : Nat) (s0 : State) : State :=
  if !s0.linkUp n || fget v 0 8 ≠ 0x5A then s0
  else if !blockOk v then (s0.at t).crcErr n
  else
    let s := (s0.at t).heard n
    let agree := fget v 24 1 = 1
    let tok := fget v 16 8
    -- a proposal after the agreement is that of a further loss: the sequence restarts
    let s1 := if (s.lk n).width.any (fun w => agree || w.agreed.isNone) then s else s.upLk n (fun l => { l with
      width := some { mine := s.goodLanes n, token := tok, sentAt := s.dtime } })
    match (s1.lk n).width with
    | none => s1
    | some w =>
      let act := activeOf (fget v 8 4 &&& s1.goodLanes n)
      if act = 0 || (agree && tok ≠ w.token) then s1
      else
        let s2 := if agree then s1 else s1.sendWidth n (s1.goodLanes n) tok true act
        if w.agreed.isSome then s2
        else s2.upLk n (fun l => { l with width := l.width.map (fun w => { w with agreed := some (act, s.dtime) }) })

/-- WIDTH_RESEND (R576): after the third send without agreement the link is lost. -/
def doWidthResend (n t : Nat) (s0 : State) : State :=
  match (s0.lk n).width with
  | some w =>
    if w.agreed.isSome || t < w.sentAt + 4000 then s0
    else
      let s := s0.at t
      if w.sends < 3 then
        (s.upLk n (fun l => { l with width := some { w with sends := w.sends + 1, sentAt := t } })).sendWidth n w.mine w.token false
          (activeOf w.mine)
      else s.linkLost n
  | none => s0

/-- A NAK for what this end expects next (R561, R564). -/
def State.sendNak (s : State) (n : Nat) : State := s.crcBlock n 0x55 ((s.lk n).rxSeq + (s.lk n).rxEseq * 2 ^ 16)

/-- WIDTH_SWITCH (R576): 128 block times after the agreement. -/
def doWidthSwitch (n t : Nat) (s0 : State) : State :=
  match (s0.lk n).width with
  | some { agreed := some (m, t0), .. } =>
    if t < t0 + 328 then s0
    else
      let s := s0.at t
      let again := (s.lk n).rejoin ≠ 0
      let s1 := (s.incRf F.PL_STAT_RECOVERIES [n]).upLk n (fun l => { l with
        active := m, width := none, rejoin := 0, naked := false, nakedE := false })
      let s2 := (((s1.bursts4 n).sendNak n).linkEvent n 3).linkFlag n
      let s3 := s2.settleRevive n (s.lk n).rejoin
      if again then s3.startWidth n else s3
  | _ => s0

/-! ### Acknowledgement and replay (R564, R565) -/

/-- A packet or express message arrives: it is accepted in order, and a bad or out-of-order one draws one NAK (R564);
the packet asked for draws another when its replay is bad too. One with a CRC error is a block error of its lane (R561), and a packet of
more than 64 data blocks does not exist (R563). -/
def State.accept (s0 : State) (n : Nat) (p : PlPacket) : State × Bool :=
  let s := if p.crcOk then s0.heard n else (s0.heard n).crcErr n
  if !s0.linkUp n || isPkt p && 64 < pktBlocks p then (s0, false)
  else if !s.linkUp n then (s, false)
  else
    let l := s.lk n
    let naked := if isPkt p then l.naked else l.nakedE
    let m := if isPkt p then 2 ^ 16 else 2 ^ 8
    let want := if isPkt p then l.rxSeq else l.rxEseq
    if p.crcOk && p.seq = want then
      (s.upLk n (fun l => { l with
        rxSeq := if isPkt p then (l.rxSeq + 1) % 2 ^ 16 else l.rxSeq, rxEseq := if isPkt p then l.rxEseq else (l.rxEseq + 1) % 2 ^ 8
        unacked := l.unacked.or (some s.dtime)
        naked := !isPkt p && l.naked, nakedE := isPkt p && l.nakedE }), true)
    else if (naked && p.seq ≠ want) || (p.crcOk && (want + m - p.seq) % m ≤ m / 2) then (s, false)
    else ((s.sendNak n).upLk n (fun l => { l with naked := isPkt p || l.naked, nakedE := !isPkt p || l.nakedE }), false)

/-- ACK_SEND (R564): 256 block times with packets unacknowledged. -/
def doAckSend (n t : Nat) (s0 : State) : State :=
  match (s0.lk n).unacked with
  | some d =>
    if t < d + 655 || !s0.linkUp n then s0
    else
      let l := s0.lk n
      ((s0.at t).crcBlock n 0x4B ((l.rxSeq + 2 ^ 16 - 1) % 2 ^ 16 + (l.rxEseq + 2 ^ 8 - 1) % 2 ^ 8 * 2 ^ 16)).upLk n (fun l => { l with
        unacked := none })
  | none => s0

/-- What an acknowledgement of sequence number q leaves in a replay buffer. -/
def afterAck (l : List PlPacket) (q : Nat) : List PlPacket :=
  if l.any (fun p => p.seq = q) then (l.dropWhile (fun p => p.seq ≠ q)).drop 1 else l

/-- NAK (R564): what lies before the named numbers is acknowledged, and everything from them on is sent again. -/
def doNakBlock (n : Nat) (v : W64) (t : Nat) (s0 : State) : State :=
  if !s0.linkUp n || fget v 0 8 ≠ 0x55 then s0
  else if !blockOk v then (s0.at t).crcErr n
  else
    let s := (s0.at t).heard n
    let l := s.lk n
    let e := afterAck l.express ((fget v 24 8 + 2 ^ 8 - 1) % 2 ^ 8)
    let r := afterAck l.replay ((fget v 8 16 + 2 ^ 16 - 1) % 2 ^ 16)
    let s1 := ((s.incRf F.PL_LINKCNT_NAKS [n]).incRf F.PL_LINKCNT_REPLAYED [n] (e.length + r.length)).upLk n (fun l => { l with
      express := e, replay := r })
    ((e ++ r).foldl (fun s p => s.traffic n p) (s1.linkUsed n)).drain n

/-! ### Electrical idle, holds, markers (R562, R571-R573) -/

/-- A link may go to electrical idle (R573). -/
def State.mayIdle (s : State) (n : Nat) : Bool := n = 2 || !s.linksHeld

/-- The idle timer of a link runs (R573). -/
def State.idleTimer (s : State) (n : Nat) : Bool := s.rf F.PL_CTL_EI_US [n] ≠ 0 && s.mayIdle n

/-- A link goes to electrical idle with an EI block on its active lanes (R572). -/
def State.goIdle (s : State) (n : Nat) : State := (s.block n 0xAA 0).upLk n (fun l => { l with state := 3 })

/-- ELECTRICAL_IDLE_ENTRY (R572, R573). -/
def doElectricalIdleEntry (n t : Nat) (s : State) : State :=
  if (s.lk n).state = 2 && s.idleTimer n && (s.lk n).idleSince + 1000 * s.rf F.PL_CTL_EI_US [n] ≤ t then (s.at t).goIdle n else s

/-- EI (R572): a block that ends the holds (R571); the link goes to electrical idle with its partner, where it may (R573). -/
def doEiBlock (n : Nat) (v : W64) (t : Nat) (s : State) : State :=
  if (s.lk n).state = 2 && fget v 0 8 = 0xAA then
    if s.mayIdle n then ((s.at t).heard n).goIdle n else (s.at t).heard n
  else s

/-- ELECTRICAL_IDLE_EXIT (R572): one training burst, then traffic. -/
def doElectricalIdleExit (n t : Nat) (s : State) : State :=
  if (s.lk n).state = 3 && s.power.lull = 0 then (s.at t).linkUsed n else s

/-- TRACKING_HOLD (R571). -/
def doTrackingHold (n k t : Nat) (s : State) : State :=
  if (s.lk n).state = 2 && (s.goodLanes n).testBit k && (s.lane n k).heardAt + 2622 ≤ t then (s.at t).upLane n k (fun x => { x with hold := true })
  else s

/-- The lanes whose marker is missing or whose count differs from that of the majority: `marks` has the count of each lane of the link, none
for a missing one. Where no count has the majority the spec names none that disagrees (log entry 43). -/
def markErrs (act : List Nat) (marks : List (Option Nat)) : List Nat :=
  let m (k : Nat) : Option Nat := (marks.getD k none)
  match act.find? (fun k => act.length < 2 * (act.countP (fun j => m j = m k))) with
  | some k => act.filter (fun j => m j ≠ m k)
  | none => []

/-- ALIGN_MARKER (R562). -/
def doAlignMarker (n : Nat) (marks : List (Option Nat)) (t : Nat) (s : State) : State :=
  if !s.linkUp n then s else (markErrs (bitList 4 (s.lk n).active) marks).foldl (fun s i => s.blockErr n i) (s.at t)

/-- ALIGN_MARKER_SEND (R562): 16,384 block times, 41,943.04 ns, after the last one. -/
def doAlignMarkerSend (n t : Nat) (s : State) : State :=
  if (s.lk n).state ≠ 2 || t < (s.lk n).markerAt + 41943 then s
  else ((s.at t).block n 0xB4 (s.lk n).marker).upLk n (fun l => { l with marker := (l.marker + 1) % 2 ^ 16, markerAt := t })

/-! ### Express messages (R565, R579-R585) -/

/-- The value nearest r that has the low w bits of x (R565). -/
def nearest (w x r : Nat) : Nat :=
  let base := r / 2 ^ w * 2 ^ w + x % 2 ^ w
  if base + 2 ^ w / 2 < r then base + 2 ^ w else if r + 2 ^ w / 2 < base && 2 ^ w ≤ base then base - 2 ^ w else base

/-- An express message that arrives on link 1 goes on until the chip upstream of its origin (R579). -/
def State.forward (s : State) (n : Nat) (p : PlPacket) : State :=
  if n = 1 && p.fields.getD 0 0 ≠ (s.pos + 1) % s.ringLen then s.send 0 { p with seq := 0 } else s

/-- An express message of a type arrives on a link that carries it: accepted, mirrored where R609 says so, and forwarded round the
ring. -/
def expressIn (typ n : Nat) (p : PlPacket) (t : Nat) (f : State → Nat → Nat → State) (s0 : State) : State :=
  if p.typ ≠ typ then s0
  else
    let (s1, ok) := (s0.at t).accept n p
    if !ok || n ≠ 1 then s1
    else
      let s2 := (s1.mirror { kind := 8, key := typ :: p.fields.take 4 }).forward n p
      f s2 (p.fields.getD 2 0) (p.fields.getD 3 0)

/-- The burst that a SYNC or FAIL message names, if this chip holds it (R582). -/
def State.named (s : State) (b : Nat) : Option Burst :=
  (s.burst (.site (bitsOf b 0 16))).filter (fun x => (s.entX x.ent).isSome && x.tag = bitsOf b 32 8)

/-- SYNC_READY (R584). -/
def doSyncReady (n : Nat) (p : PlPacket) (t : Nat) (s : State) : State :=
  expressIn 0x66 n p t (fun s _ b =>
    if p.fields.getD 1 0 ≠ 0 then s
    else match s.named b with
      | some x => if s.leads x.ent then s.noteReady x.ent (p.fields.getD 0 0) else s
      | none => s) s

/-- The part of a burst here learns that another part starts nothing: a part that has started stops (R584); another starts nothing, with
reason PART where the burst was denied (R83, R191, R196); it does not count in DENIED (R218; DESIGN CHOICE, log entry 38). -/
def State.nogo (s : State) (x : Burst) (status : Nat) : State :=
  if x.running then s.stopEnt x.ent s.dtime status
  else s.endStart x.ent status (if status = St.denied then 9 else 0)

/-- SYNC_START (R584): H and the start time; less than 100 ns before it, NOGO. -/
def doSyncStart (n : Nat) (p : PlPacket) (t : Nat) (s : State) : State :=
  expressIn 0x66 n p t (fun s a b =>
    if p.fields.getD 1 0 ≠ 1 then s
    else match s.named b with
      | some x =>
        let t0 := nearest 40 a s.dtime
        if x.running || x.startAt.isSome || x.fin.isSome then s
        else if 2000 * (t0 : Int) < s.scaleT + 200000 then
          (s.endStart x.ent St.linkDown 0).tellNogo x.ent St.linkDown
        else (s.entSlices x.ent).foldl (fun s g => s.upSeq g (fun q => { q with hzn := bitsOf b 16 16 }))
          (s.upBurst x.ent (fun y => { y with startAt := some t0 }))
      | none => s) s

/-- SYNC_STOP (R585). -/
def doSyncStop (n : Nat) (p : PlPacket) (t : Nat) (s : State) : State :=
  expressIn 0x66 n p t (fun s _ b =>
    if p.fields.getD 1 0 ≠ 2 || !isFailure (bitsOf b 16 8) then s
    else match s.named b with
      | some x => s.nogo x (bitsOf b 16 8)
      | none => s) s

/-- Another chip's part of a site is blocked: the site is blocked here too, after its burst if it has one (R87; log entry 33). -/
def State.blockedElsewhere (s : State) (id : Nat) : State :=
  let e := Ent.site id
  if (s.entX e).isNone || s.blocked e then s
  else if s.busy e then s.upBurst e (fun y => { y with block := true })
  else s.blockHere e

/-- SYNC_NOGO (R83, R87, R584). -/
def doSyncNogo (n : Nat) (p : PlPacket) (t : Nat) (s : State) : State :=
  expressIn 0x66 n p t (fun s _ b =>
    let st := bitsOf b 16 8
    if p.fields.getD 1 0 ≠ 3 || !isFailure st then s
    else
      let s1 := match s.named b with
        | some x => s.nogo x st
        | none => s
      if st = St.blocked then s1.blockedElsewhere (bitsOf b 0 16) else s1) s

/-- A fail report for a vector before a checkpoint that has committed already belongs to its snapshot (R302, R583), which Tether mirrors again. -/
def State.refreshCkpts (s : State) (e : Ent) (v : Nat) : State :=
  match s.burst e with
  | none => s
  | some b =>
    let base := b.restart.elim 0 Ckpt.vec
    let late (k : Ckpt) : Bool := base ≤ v && v < k.vec
    let lead := s.leads e
    let site : Option Nat := (s.entSites e).head?.map Site.id
    let fix (k : Ckpt) : Ckpt := if !late k then k else { k with snap := { k.snap with
      minFail := if k.snap.accStart ≤ v then some (min v (k.snap.minFail.getD v)) else k.snap.minFail
      counts := k.snap.counts.map (fun p => if lead && site = some p.1 then (p.1, p.2.xhit v) else p) } }
    (s.entSlices e).foldl (fun s g =>
      let q := (s.sl g).seq
      let s1 := s.upSeq g (fun q => { q with ckpt := q.ckpt.map fix, ckptOld := q.ckptOld.map fix })
      ((q.ckptOld.toList ++ q.ckpt.toList).filter late).foldl (fun s k => s.mirror (ckptItem e g (fix k))) s1) s

/-- The site-fail condition held on another chip's part at vector v (R152, R361). Where no part here has failed on it, the trigger units
have the event with a stamp inside the vector: the message carries no strobe, so which instant is free (log entry 33). -/
def State.remoteFail (s : State) (e : Ent) (v : Nat) : State :=
  match s.burst e, s.entSlices e with
  | some b, g :: _ =>
    if winGet b.wins v then s
    else
      let q := (s.sl g).seq
      let t := q.startOf v
      (((s.fallIn e v).refreshCkpts e v).draw).raiseSiteFail e v (t + Config.freeValue s.freeCtr % max 1 (q.startOf (v + 1) - t))
  | _, _ => (s.fallIn e v).refreshCkpts e v

/-- FAIL (R583): a window of another part joins the union; after a decision that needed it, the burst ends with LINK_DOWN. -/
def doFailMsg (n : Nat) (p : PlPacket) (t : Nat) (s : State) : State :=
  expressIn 0x87 n p t (fun s a b =>
    match s.named b with
    | none => s
    | some x =>
      let gs := s.entSlices x.ent
      let cur := (gs.head?.map (fun g => (s.sl g).seq.next)).getD 0
      let w := nearest 40 a cur
      let vs := (bitList 16 (bitsOf b 16 16)).map (w + ·)
      let late := gs.any (fun g => (s.sl g).seq.decided.any (fun r => r.1 ≤ w + 15 && w ≤ r.2))
      let s1 := if p.fields.getD 1 0 = 0 then vs.foldl (fun s v => s.remoteFail x.ent v) s
        else s.upBurst x.ent (fun y => { y with mfail := y.mfail ++ vs.map (fun v => (0xFFFF, 0xFFFF, v)) })
      if late then ((s1.setRf F.RING_STAT_FAIL_LATE [] 1).linkEvent 1 8).stopEnt x.ent s.dtime St.linkDown else s1) s

/-- An event on an XT line reaches the trigger units of this chip (R363). -/
def State.xtEvent (s : State) (line stamp : Nat) : State := (List.range s.nCl).foldl (fun s n => s.raise n (48 + line) stamp) s

/-- TRIG (R580): on the ring it is delivered, forwarded, and given to the other ring; from link 3 it enters this ring. -/
def doTrigMsg (n : Nat) (p : PlPacket) (t : Nat) (s0 : State) : State :=
  if p.typ ≠ 0x78 then s0
  else
    let (s1, ok) := (s0.at t).accept n p
    let sub := p.fields.getD 1 0
    let b := p.fields.getD 3 0
    let z : Int := 2000 * (nearest 40 (p.fields.getD 2 0) s1.dtime : Nat) + bitsOf b 0 11
    let line := bitsOf b 11 3
    if !ok || !(n = 1 || n = 3) then s1
    else
      let s2 := s1.mirror { kind := 8, key := 0x78 :: p.fields.take 4 }
      if n = 1 then
        let s3 := s2.forward n p
        let s4 := if !sub.testBit 2 && s3.linkUp 3 then s3.send 3 { p with seq := 0 } else s3
        s4.xtEvent line (z - s4.ringT.xoff).toNat
      else if sub.testBit 2 then s2
      else
        let local' := (z + (s2.lk 3).theta).toNat
        let zz := ((local' : Int) + s2.ringT.xoff).toNat
        let s3 := if 1 < s2.ringLen then s2.broadcast 0x78 4 (zz / 2000) (zz % 2000 + line * 2 ^ 11) else s2
        s3.xtEvent line local'

/-! ### Time (R586) -/

/-- θ and the one-way delay from own send time t3: partner's send t1, own receipt t2, and the low 29 bits of the partner's receipt. -/
def timeOf (t1 t2 t3 : Int) (t4 : Nat) (asym : Int) : Int × Int :=
  let guess := t3 - (t2 - t1)
  let back := toSigned 29 (ofSigned 29 ((t4 : Int) - guess))
  -- t4 = guess + back, so (t4 − t3) = back − (t2 − t1)
  (((t2 - t1) - (back - (t2 - t1)) - asym) / 2, back / 2)

/-- TIME (R586); the fraction of this end's receipt, which the link measures, is the packet's fifth field. An exchange that falls into a
width change is discarded. -/
def doTimeMsg (n : Nat) (p : PlPacket) (t : Nat) (s0 : State) : State :=
  if p.typ ≠ 0x99 then s0
  else
    let (s1, ok) := (s0.at t).accept n p
    if !ok then s1
    else
      let b := p.fields.getD 3 0
      let t1 := 2000 * nearest 40 (p.fields.getD 2 0) s1.dtime + bitsOf b 0 11
      let t2 := 2000 * s1.dtime + p.fields.getD 4 0 % 2000
      let l := s1.lk n
      let asym := toSigned 32 (s1.rf F.PL_ASYM_ASYM [n])
      let both := l.sentT.map (fun (t3 : Nat) => timeOf t1 t2 t3 (bitsOf b 11 29) asym)
      let best := (both.filter (fun x => 0 ≤ x.2)).foldl (fun a x => match a with
        | some y => if x.2 < y.2 then some x else some y
        | none => some x) (none : Option (Int × Int))
      let s2 := s1.upLk n (fun l => { l with recvT := some (t1, t2) })
      match best with
      | some (th, dl) =>
        if l.recvT.isNone || l.width.isSome then s2
        else
          (s2.upLk n (fun l => { l with
            theta := th, delay := (dl / 2000).toNat % 2 ^ 16, timeAt := some s1.dtime })).alignResume
      | none => s2

/-- A TIME message is due on link n: the link has a partner, in electrical idle too, and 1,048,576 ns have passed since its last one (R586). -/
def State.timeDue (s : State) (n : Nat) : Bool :=
  s.linkUp n && (s.lk n).sentT.head?.all (fun x => x + 2000 * 2 ^ 20 ≤ 2000 * s.dtime)

/-- A TIME message goes out on link n (R586). -/
def State.timeOut (s : State) (n : Nat) : State :=
  let z := s.scaleT.toNat
  let r : Nat := (s.lk n).recvT.elim 0 (fun x => ((x.2 : Int) + s.ringT.xoff).toNat % 2 ^ 29)
  (s.send n (s.expressOf 0x99 0 (z / 2000) (z % 2000 + r * 2 ^ 11))).upLk n (fun l => { l with
    sentT := (2000 * s.dtime :: l.sentT).take 2 })

/-- TIME_SEND (R586): on each link on which a message is due. -/
def doTimeSend (t : Nat) (s0 : State) : State :=
  (List.range 4).foldl (fun s n => if s.timeDue n then s.timeOut n else s) (s0.at t)

/-! ### Packets (R438, R563, R579, R588) -/

/-- A packet of a class arrives on a ring link: accepted, and either for this chip or forwarded (R579). -/
def packetIn (cls n : Nat) (p : PlPacket) (t : Nat) (f : State → State) (s0 : State) : State :=
  if !isPkt p || p.fields.getD 1 0 ≠ cls then s0
  else
    let (s1, ok) := (s0.at t).accept n p
    if !ok || 2 ≤ n then s1
    else if p.fields.getD 0 0 = s1.pos then f s1
    else s1.send 0 { p with seq := 0 }

/-- MSG (R438): fields DEST, CLASS, sender's position, sender's task, target task, flags. -/
def doMsgPacket (n : Nat) (p : PlPacket) (t : Nat) (s0 : State) : State :=
  if p.fields.getD 2 0 = s0.pos && p.fields.getD 0 0 ≠ s0.pos && isPkt p && p.fields.getD 1 0 = 2 then ((s0.at t).accept n p).1
  else packetIn 2 n p t (fun s =>
    let target := p.fields.getD 4 0
    let s1 := s.setFlags target (p.fields.getD 5 0)
    let st := if (s.task target).isSome then St.ok else St.noObject
    s1.send 0 { typ := 0x33, seq := 0, fields := [p.fields.getD 2 0, 3, p.fields.getD 3 0, st] }) s0

/-- MSG_ACK (R438): fields DEST, CLASS, task, status; the task's SIGNAL step completes with OK or NO_OBJECT. A packet with another status is
no acknowledgement that R438 knows (R27) and is discarded (DESIGN CHOICE, log entry 40). -/
def doMsgAck (n : Nat) (p : PlPacket) (t : Nat) (s0 : State) : State :=
  packetIn 3 n p t (fun s =>
    let tid := p.fields.getD 2 0
    let st := p.fields.getD 3 0
    match s.task tid with
    | some x =>
      if x.state = 4 && x.wkind = 0 && x.wmask = 0 && x.begun && x.ack.isNone && (st = St.ok || st = St.noObject) then
        (s.upTask tid (fun t => { t with ack := some st })).wake tid false
      else s
    | none => s) s0

/-- RING_PACKET (R588): an alignment pass. -/
def doRingPacket (n : Nat) (p : PlPacket) (t : Nat) (s0 : State) : State :=
  if !(p.fields.getD 2 0 = 1 || p.fields.getD 2 0 = 2) then s0
  else packetIn 4 n p t (fun s =>
    s.alignPass (p.fields.getD 2 0) (toSigned 64 (p.fields.getD 3 0)) (toSigned 64 (p.fields.getD 4 0))) s0

/-- RING_ALIGN (R588). -/
def doRingAlign (sq idx : Nat) (s : State) : State :=
  s.withDesc sq idx 0x61 (fun d =>
    if s.pos ≠ 0 || s.ringLen ≤ 1 || !zeroes d.bytes 16 48 then s.finish sq idx St.bad
    else if !s.ringUp then s.finish sq idx St.linkDown
    else
      let s1 := s.begin sq idx
      { s1 with ringT := { s1.ringT with descs := s1.ringT.descs ++ [(sq, idx)] } }.alignStart)

/-! ### RING_CFG (R596, R597) -/

/-- A change of POS or N is refused now (R597). -/
def State.ringCfgHeld (s : State) : Bool :=
  s.sites.any (fun p => p.2.xchip) || s.bursts.any (fun b => (s.entX b.ent).isSome) ||
    (List.range 96).any (fun k => s.rb F.CL_TRG_CTL_XPUB (tIdx k)) || s.pair.state = 2 || s.pair.state = 3 || s.pair.state = 4

/-- RING_CFG_WRITE (R596, R597). A write of N above the 32 of R36 is taken as it is written where POS is below N (DESIGN CHOICE, log
entry 36). -/
def doRingCfgWrite (v : W64) (s : State) : State :=
  let pos := fget v 0 5
  let len := fget v 5 6
  if len ≤ pos then s
  else
    let same := pos = s.pos && len = s.ringLen
    if !same && s.ringCfgHeld then s.setRf F.RING_STAT_CFG_REJECT [] 1
    else
      let s1 := s.writeFields (F.RING_CFG_POS.off []) v
      if same then
        let s2 := (List.range 4).foldl (fun s n => if (s.lk n).state = 5 then s.train n else s) s1
        -- AUTO_ALIGN set while every ring link is up (R588)
        if s2.rb F.RING_CFG_AUTO_ALIGN && !s.rb F.RING_CFG_AUTO_ALIGN then s2.alignStart else s2
      else
        let s2 := { s1 with ringT := { s1.ringT with aligned := false } }
        let s3 : State := [0, 1, 3].foldl (fun s n =>
          if s.hasLink n && s.rb F.PL_CTL_EN [n] then (s.linkGone n 4).train n else s) s2
        if (s3.lk 2).state = 5 then s3.train 2 else s3

/-- TRAIN. -/
def execTrainBlock (n k : Nat) (v : W64) (t : Nat) (s : State) : Host.Outcome State Fault Refusal := .next (doTrainBlock n k v t s)
/-- TRAINING_ATTEMPT_TIMEOUT. -/
def execTrainingAttemptTimeout (n k t : Nat) (s : State) : Host.Outcome State Fault Refusal := .next (doTrainingAttemptTimeout n k t s)
/-- LINK_ENABLE. -/
def execLinkEnable (n : Nat) (v : W64) (s : State) : Host.Outcome State Fault Refusal :=
  .next (s.busWrite (F.PL_CTL_EN.off [n]) (doLinkEnable n v))
/-- LINK_RETRY. -/
def execLinkRetry (n t : Nat) (s : State) : Host.Outcome State Fault Refusal := .next (doLinkRetry n t s)
/-- LANE_LOSS. -/
def execLaneLoss (n k : Nat) (errs : Bool) (t : Nat) (s : State) : Host.Outcome State Fault Refusal := .next (doLaneLoss n k errs t s)
/-- LINK_LOSS. -/
def execLinkLoss (n t : Nat) (s : State) : Host.Outcome State Fault Refusal := .next (doLinkLoss n t s)
/-- LANE_RETRAIN. -/
def execLaneRetrain (n k : Nat) (ok : Bool) (t : Nat) (s : State) : Host.Outcome State Fault Refusal := .next (doLaneRetrain n k ok t s)
/-- BLOCK_ERROR. -/
def execBlockError (n k t : Nat) (s : State) : Host.Outcome State Fault Refusal := .next (doBlockError n k t s)
/-- LREF_LOSS. -/
def execLrefLoss (t : Nat) (s : State) : Host.Outcome State Fault Refusal := .next (doLrefLoss t s)
/-- LREF_RETURN. -/
def execLrefReturn (t : Nat) (s : State) : Host.Outcome State Fault Refusal := .next (doLrefReturn t s)
/-- LANE_REVIVE. -/
def execLaneRevive (sq idx : Nat) (s : State) : Host.Outcome State Fault Refusal := .next (doLaneRevive sq idx s)
/-- WIDTH. -/
def execWidthBlock (n : Nat) (v : W64) (t : Nat) (s : State) : Host.Outcome State Fault Refusal := .next (doWidthBlock n v t s)
/-- WIDTH_RESEND. -/
def execWidthResend (n t : Nat) (s : State) : Host.Outcome State Fault Refusal := .next (doWidthResend n t s)
/-- WIDTH_SWITCH. -/
def execWidthSwitch (n t : Nat) (s : State) : Host.Outcome State Fault Refusal := .next (doWidthSwitch n t s)
/-- ACK_SEND. -/
def execAckSend (n t : Nat) (s : State) : Host.Outcome State Fault Refusal := .next (doAckSend n t s)
/-- NAK. -/
def execNakBlock (n : Nat) (v : W64) (t : Nat) (s : State) : Host.Outcome State Fault Refusal := .next (doNakBlock n v t s)
/-- ELECTRICAL_IDLE_ENTRY. -/
def execElectricalIdleEntry (n t : Nat) (s : State) : Host.Outcome State Fault Refusal := .next (doElectricalIdleEntry n t s)
/-- EI. -/
def execEiBlock (n : Nat) (v : W64) (t : Nat) (s : State) : Host.Outcome State Fault Refusal := .next (doEiBlock n v t s)
/-- ELECTRICAL_IDLE_EXIT. -/
def execElectricalIdleExit (n t : Nat) (s : State) : Host.Outcome State Fault Refusal := .next (doElectricalIdleExit n t s)
/-- TRACKING_HOLD. -/
def execTrackingHold (n k t : Nat) (s : State) : Host.Outcome State Fault Refusal := .next (doTrackingHold n k t s)
/-- ALIGN_MARKER. -/
def execAlignMarker (n : Nat) (marks : List (Option Nat)) (t : Nat) (s : State) : Host.Outcome State Fault Refusal :=
  .next (doAlignMarker n marks t s)
/-- ALIGN_MARKER_SEND. -/
def execAlignMarkerSend (n t : Nat) (s : State) : Host.Outcome State Fault Refusal := .next (doAlignMarkerSend n t s)
/-- SYNC_READY. -/
def execSyncReady (n : Nat) (p : PlPacket) (t : Nat) (s : State) : Host.Outcome State Fault Refusal := .next (doSyncReady n p t s)
/-- SYNC_START. -/
def execSyncStart (n : Nat) (p : PlPacket) (t : Nat) (s : State) : Host.Outcome State Fault Refusal := .next (doSyncStart n p t s)
/-- SYNC_STOP. -/
def execSyncStop (n : Nat) (p : PlPacket) (t : Nat) (s : State) : Host.Outcome State Fault Refusal := .next (doSyncStop n p t s)
/-- SYNC_NOGO. -/
def execSyncNogo (n : Nat) (p : PlPacket) (t : Nat) (s : State) : Host.Outcome State Fault Refusal := .next (doSyncNogo n p t s)
/-- FAIL. -/
def execFailMsg (n : Nat) (p : PlPacket) (t : Nat) (s : State) : Host.Outcome State Fault Refusal := .next (doFailMsg n p t s)
/-- TRIG. -/
def execTrigMsg (n : Nat) (p : PlPacket) (t : Nat) (s : State) : Host.Outcome State Fault Refusal := .next (doTrigMsg n p t s)
/-- TIME. -/
def execTimeMsg (n : Nat) (p : PlPacket) (t : Nat) (s : State) : Host.Outcome State Fault Refusal := .next (doTimeMsg n p t s)
/-- TIME_SEND. -/
def execTimeSend (t : Nat) (s : State) : Host.Outcome State Fault Refusal := .next (doTimeSend t s)
/-- MSG. -/
def execMsgPacket (n : Nat) (p : PlPacket) (t : Nat) (s : State) : Host.Outcome State Fault Refusal := .next (doMsgPacket n p t s)
/-- MSG_ACK. -/
def execMsgAck (n : Nat) (p : PlPacket) (t : Nat) (s : State) : Host.Outcome State Fault Refusal := .next (doMsgAck n p t s)
/-- RING_PACKET. -/
def execRingPacket (n : Nat) (p : PlPacket) (t : Nat) (s : State) : Host.Outcome State Fault Refusal := .next (doRingPacket n p t s)
/-- RING_ALIGN. -/
def execRingAlign (sq idx : Nat) (s : State) : Host.Outcome State Fault Refusal := .next (doRingAlign sq idx s)
/-- RING_CFG_WRITE. -/
def execRingCfgWrite (v : W64) (s : State) : Host.Outcome State Fault Refusal :=
  .next (s.busWrite (F.RING_CFG_POS.off []) (doRingCfgWrite v))

end Sys2Proof.Machine
end

