-- ==== Sys2Proof/Machine/Pair.lean ====
section
/-! DEFINITION. The mirror pair (17_mirror_pair.md): claims of the active role, joining, leaving and switching, the Tether stream and its
application at the standby, and the takeover. -/

namespace Sys2Proof.Machine

/-- The chip is MIRRORED (R600). -/
def State.mirrored (s : State) : Bool := s.rb F.PAIR_STAT_MIRRORED

/-- Tether is present and live (R9). -/
def State.hasTether (s : State) : Bool := s.d192x && s.rb F.CAPS_LIVE_TETHER_LIVE

/-! ### The standby's copy (R609) -/

/-- A number that stands for none at 2^48. -/
def opt48 (n : Nat) : Option Nat := if n < 2 ^ 48 then some n else none

/-- The per-site counts of a checkpoint item: at most `fuel` sites. -/
def parseCounts : Nat → List Nat → List (Nat × Nat × Counts)
  | 0, _ => []
  | fuel + 1, l => match l with
    | site :: mv :: fv :: a :: b :: xf :: xa :: xb :: n :: r =>
      (site, mv, { failVecs := fv, first := opt48 a, last := opt48 b, ch := r.take n
                   xFail := xf, xFirst := opt48 xa, xLast := opt48 xb }) :: parseCounts fuel (r.drop n)
    | _ => []

/-- The entity of an item's first two numbers. -/
def entOfKey (k : List Nat) : Ent := if k.getD 0 0 = 1 then .group (k.getD 1 0) else .site (k.getD 1 0)

/-- The checkpoint of an item of kind 3. -/
def ckptOf (k : List Nat) : Ckpt :=
  let c := parseCounts 200 (k.drop 14)
  let x (i : Nat) : Nat := k.getD i 0
  { rp := x 3, vec := x 4
    snap := { accStart := x 5, minFail := opt48 (x 6), steer := opt48 (x 7), mask := x 8, sliceFail := x 9, sliceFirst := opt48 (x 10)
              sliceLast := opt48 (x 11), due := x 12, span := x 13, counts := c.map (fun p => (p.1, p.2.2))
              maskVecs := c.filterMap (fun p => (opt48 p.2.1).map (fun v => (p.1, v))) } }

/-- The shadow of a burst changes; one not yet known is entered. -/
def State.upShadow (s : State) (e : Ent) (f : ShadowBurst → ShadowBurst) : State :=
  let l := if s.pair.bursts.any (fun b => b.ent == e) then s.pair.bursts else s.pair.bursts ++ [{ ent := e, tid := 0xFFFF, obj := 0 }]
  { s with pair := { s.pair with bursts := l.map (fun b => if b.ent == e then f b else b) } }

/-- The shadow of a burst no longer holds anything here (R609). -/
def State.dropShadow (s : State) (e : Ent) : State := (s.pair.bursts.find? (fun b => b.ent == e)).elim s s.releaseShadow

/-- An admitted burst of the partner: the standby reserves the same and fills the same vector-cache content on its own chip, over the mirrored
mapping (R609). -/
def State.admitShadow (s0 : State) (b : ShadowBurst) : State :=
  let s := s0.dropShadow b.ent
  match kGet s.objs b.obj with
  | none => s.upShadow b.ent (fun _ => b)
  | some o =>
    let (ps, c) := s.mapShadow.planParts s.cache o b.ent
    { s with cache := c }.upShadow b.ent (fun _ => { b with parts := ps.map PartPlan.part })

/-- The bytes of a region header set the region's own counts (R277, R334). -/
def Region.fromHeader (r : Region) (b : List Byte) : Region :=
  if r.kind = 2 then
    { r with bmX := fld b 8 1, bmY := fld b 9 1, bmIo := fld b 10 1, bmUnit := fld b 11 1, updates := fld b 16 8, dropped := fld b 24 4
             lostCount := fld b 28 4, objId := fld b 32 4, endT := fld b 40 8 }
  else
    { r with state := fld b 7 1, next := fld b 16 4, ringHead := fld b 20 4, ringCount := fld b 24 4, postCount := fld b 28 4
             trigVec := fld b 32 8, postVec := fld b 40 8, trigDtime := fld b 48 8, overwritten := fld b 56 4, lostCount := fld b 60 4
             linear := 2 ≤ fld b 7 1
             preCount := if fld b 7 1 = 1 then fld b 24 4 + fld b 56 4 else r.preCount }

/-- A granule that n bytes at an address cover in part and that holds an uncorrectable error: the merge read meets it (R530, R544). -/
def State.badMerge (s : State) (a n : Nat) : Option Nat := s.bad.find? (fun g => g < a + n && a < g + 64 && !(a ≤ g && g + 64 ≤ a + n))

/-- Capture bytes go to the same offset of this chip's own region (R609); a write that meets an uncorrectable error marks the region LOST
here, with the event UNPROTECTED (R613). -/
def State.applyCapture (s : State) (id off : Nat) (bs : List Byte) : State :=
  match s.region id with
  | none => s
  | some r =>
    if r.lost then s
    else
      let a := devAddr r.chan (r.base + off)
      match s.badMerge a bs.length with
      | some g =>
        ((s.upRegion id (fun r => { r with lost := true })).mergeError g 0x68).mirrorEvent 9 0 (r.site + 2 ^ 16)
          (if r.kind = 1 && off ≠ 0 then fld bs 4 6 else 2 ^ 64 - 1)
      | none =>
        let s1 := s.memWrite r.chan (r.base + off) bs
        if off = 0 then s1.upRegion id (fun r => r.fromHeader bs) else s1

/-- Objects of this chip that its partner has not announced are not protected (R611). -/
def State.unmatched (s : State) : State :=
  ((s.objs.map (·.1)).filter (fun id => !kHas s.pair.digests id && !s.pair.unprotObjs.contains id)).foldl
    (fun s id => s.digestMismatch id) s

/-- The pair is PROTECTED: PAIR_JOIN descriptors complete (R605). -/
def State.pairProtected (s : State) : State :=
  let s1 := s.pairTo 3 2
  s.pair.joins.foldl (fun s d => s.finish d.1 d.2 St.ok) { s1 with pair := { s1.pair with was := true, joins := [], snapSeq := none } }

/-! ### Claims (R601, R602) -/

/-- The partner's claim of the active role has failed: the ROLE check of a join fails (R605). -/
def State.roleFails (s : State) : State := (s.setRf F.PAIR_STAT_JOIN_CHECK [] 6).pairEnd 7 St.bad

/-- A claim that fails: the line is released, CLAIM_LOST; a join fails its ROLE check on both chips (R601, R605). -/
def State.withdraw (s : State) : State :=
  let f := s.pair.claimFor
  let s0 := { s with pair := { s.pair with drive := false, claim := 0, claimFor := 0 } }
  let s1 := (s0.setRf F.PAIR_STAT_CLAIM_LOST [] 1).mirrorEvent 0x0A
  if f = 3 then (s1.tether { kind := 12, key := [6] }).roleFails
  else if f = 1 || f = 2 || f = 4 then s1.pairTo 4 3 else s1

/-- The chip drives PAIR_ACTIVE_N low and begins a claim: for a host write (0), a takeover (1), a switch (2), a join (3) or a follower's
switch (4) (R601). -/
def State.startClaim (s : State) (f : Nat) : State :=
  let s1 := { s with pair := { s.pair with drive := true, claimAt := s.dtime, claimFor := f, claim := if s.pair.partner then 1 else 2 } }
  if s.pair.partner && s.rf F.PAIR_STAT_RING = 1 then s1.withdraw else s1

/-- CLAIM (R601): a write of PAIR_CTL with CLAIM 1. -/
def doClaim (v : W64) (s : State) : State :=
  let s1 := s.writeFields (F.PAIR_CTL_CLAIM.off []) v
  if fget v 0 1 = 0 then s
  else if !s.mirrored || !s.hasTether || s.pair.role = 1 || s.pair.claim ≠ 0 || s.ballastOn then s1
  else s1.startClaim 0

/-- CLAIM_RELEASE (R602): a write of PAIR_CTL with CLAIM 0 is ignored on a paired chip. -/
def doClaimRelease (v : W64) (s : State) : State :=
  let old := s.rf F.PAIR_CTL_CLAIM
  let s1 := s.writeFields (F.PAIR_CTL_CLAIM.off []) v
  if fget v 0 1 = 1 then s
  else if s.pair.state ≠ 0 then s1.setRf F.PAIR_CTL_CLAIM [] old
  else if s.mirrored then s1.releaseRole else s1

/-- CLAIM_WAIT_EXPIRY (R601): a first-ring chip has waited 2 µs for the partner's line to rise. -/
def doClaimWaitExpiry (t : Nat) (s : State) : State :=
  if s.pair.claim = 1 && s.pair.claimAt + 2000 ≤ t then (s.at t).withdraw else s

/-! ### Joining (R605) -/

/-- Both chips have joined: the checks, then the role, then the snapshot (R605). -/
def State.joinTurn (s : State) : State :=
  match s.pair.partnerJoin with
  | none => s
  | some k =>
    if s.pair.state ≠ 1 then s
    else
      let own := s.joinInfo.key
      let c := joinCheck own k
      if c ≠ 0 then (s.setRf F.PAIR_STAT_JOIN_CHECK [] c).pairEnd 7 St.bad
      else
        if s.pair.role = 1 then s.snapshotPair
        else if k.getD 4 0 = 1 || s.rf F.PAIR_STAT_RING = 1 then { s with pair := { s.pair with role := 2 } }.announce
        else s.startClaim 3

/-- PAIR_JOIN (R605). -/
def doPairJoin (sq idx : Nat) (s : State) : State :=
  s.withDesc sq idx 0x68 (fun d =>
    if !s.hasTether || !s.mirrored then s.finish sq idx St.absent
    else if !zeroes d.bytes 16 48 then s.finish sq idx St.bad
    else if !s.linkUp 2 then s.finish sq idx St.linkDown
    else
      let s0 := s.setRf F.PAIR_STAT_JOIN_CHECK [] 0
      if s.pair.state = 3 then s0.finish sq idx St.ok
      else
        let s1 := s0.begin sq idx
        let s2 := { s1 with pair := { s1.pair with joins := s1.pair.joins ++ [(sq, idx)] } }
        if s.pair.state ≠ 0 && !(s.pair.state = 4 && s.pair.role = 2 && !s.pair.was) then s2
        else
          let s3 := s2.pairTo 1 1
          (s3.tether s3.joinInfo).joinTurn)

/-- PAIR_LEAVE (R607). -/
def doPairLeave (sq idx : Nat) (s : State) : State :=
  s.withDesc sq idx 0x69 (fun d =>
    if s.pair.state = 0 || !zeroes d.bytes 16 48 then s.finish sq idx St.bad
    else ((s.tether { kind := 12, key := [0] }).pairEnd 7 St.aborted).finish sq idx St.ok)

/-- TETHER_FAILURE (R687): Tether is retired, and the pair ends as PAIR_LEAVE ends it. -/
def doTetherFailure (s : State) : State :=
  if !s.hasTether then s
  else
    let s1 := (s.report 26 28 0 1).setRf F.CAPS_LIVE_TETHER_LIVE [] 0
    (if s.pair.state = 0 then s1 else (s1.tether { kind := 12, key := [0] }).pairEnd 7 St.aborted).degrade 9 28 0

/-! ### From mirrored copy to live state (R616-R619) -/

/-- A task out of its mirrored entry and context (R452, R453). -/
def taskOf (s : State) (i : MItem) : Nat × Task :=
  let b := i.data
  let k (j : Nat) : Nat := i.key.getD j 0
  let c := b.drop 64
  let slot (j : Nat) : OpSlot :=
    let flow := k (4 + 5 * j)
    { res := slice c (256 + 128 * j) 128, busy := k (2 + 5 * j) = 1, stepIdx := k (3 + 5 * j), flow := flow, attempts := k (5 + 5 * j)
      v0 := k (6 + 5 * j) = 1, step := ((kGet s.objs flow).map (fun o => s.fpStep o (k (3 + 5 * j)))).getD [] }
  (k 0,
    { state := fld b 2 1, prio := fld b 3 1, siteId := fld b 4 2, groupId := fld b 6 2, flow := fld b 8 4, step := fld b 12 2
      home := fld b 14 1, slot := 0xFF, flags := fld b 16 8, wmask := fld b 24 8, wall := (fld b 32 1).testBit 0
      wkind := fld b 32 1 / 2 % 8, locks := fld b 36 4, readySeq := fld b 40 8, wakeT := fld b 48 8, lost := fld b 56 4
      steps := fld b 60 4, vars := (List.range 16).map (fun j => fld c (8 * j) 8), res := slice c 128 128
      ops := (List.range 4).map slot, lastErr := fld c 768 8, ctr := (List.range 4).map (fun j => fld c (776 + j) 1)
      logSeq := fld c 780 4, logAddr := fld c 784 8, logLen := fld c 792 4
      stack := (List.range (fld b 33 1)).map (fun j => (fld c (800 + 8 * j) 4, fld c (804 + 8 * j) 2)), created := fld c 864 8
      begun := k 1 = 1 })

/-- A step that a takeover may not run again: not atomic, and without IDEM (R444, R445, R617). -/
def stepOnce (st : List Byte) : Bool := (stOp st = 0x14 || (stOp st = 0x11 && (fld st 10 1).testBit 0) || isOpStep (stOp st)) && !stIdem st

/-- A mirrored task goes on at its last mirrored step boundary (R617); operations that were not mirrored end with HW_FAULT (R619). -/
def State.resumeTask (s : State) (i : MItem) : State :=
  let (tid, t) := taskOf s i
  let st := ((kGet s.objs t.flow).map (fun o => s.fpStep o t.step)).getD []
  let s1 := { s with paddock := { s.paddock with tasks := kSet s.paddock.tasks tid t, seq := max s.paddock.seq (t.readySeq + 1) } }
  let remote : Bool := t.state = 4 && t.wkind = 0 && t.begun
  let s2 : State := if (t.state = 3 && stepOnce st && !t.begun) || remote then
      let bs := ({ status := St.hwFault : Result }).bytes (stOp st) t.step 1 s.dtime
      let s2 := s1.upTask tid (fun u => { u.endStep st St.hwFault bs none with state := 1, wmask := 0, wkind := 0, wakeT := 0 })
      if stOnErr st = 0xFFFF then s2.endTask tid St.hwFault 0 else s2.ready tid
    else if t.state = 4 then s1 else (s1.upTask tid (fun u => { u with state := 1 })).ready tid
  [1, 2, 3].foldl (fun s k =>
    if (t.ops.getD k {}).busy then s.taskOpEnd tid k { status := St.hwFault } none false else s) s2

/-- The checkpoint of a shadow burst that every slice has mirrored (R618). -/
def ShadowBurst.start (b : ShadowBurst) : Option Ckpt :=
  let gs := (b.ckpts.map (·.1)).eraseDups
  match (gs.filterMap (fun g => (b.ckpts.find? (fun p => p.1 = g)).map (fun p => p.2.vec))).min? with
  | none => none
  | some v =>
    let own := gs.filterMap (fun g => (b.ckpts.find? (fun p => p.1 = g && p.2.vec = v)).map (fun p => (g, p.2)))
    if own.length ≠ gs.length then none
    else (own.head?).map (fun p => { p.2 with snap := { p.2.snap with
      parts := own.map (fun q => (q.1 / 4, q.2.snap.sliceFail, q.2.snap.sliceFirst, q.2.snap.sliceLast)) } })

/-- A burst across chips cannot restart: only this pair switches, and it spans a position whose active chip is on the other ring (R621). On
which ring another position's active chip is, only that position's chips know: it is free (log entry 33). -/
def State.splitRings (s : State) (f : Nat) (e : Ent) : Bool :=
  (s.entX e).isSome && (f = 2 || (f = 1 && !s.rb F.PAIR_CTL_FOLLOW)) && Config.freeValue s.freeCtr % 2 = 1

/-- A burst of a mirrored task restarts (R618); the counts are of bursts restarted and not. -/
def State.restartShadow (s00 : State) (f : Nat) (b : ShadowBurst) : State × Nat × Nat :=
  let split := s00.splitRings f b.ent
  let s := if (s00.entX b.ent).isSome then s00.draw else s00
  match s.task b.tid with
  | none => (s, 0, 1)
  | some t =>
    let o := t.ops.getD 0 {}
    if b.tid = 0xFFFF || s.pair.unprotObjs.contains b.obj || (s.obj b.obj).isNone then
      (s.taskOpEnd b.tid 0 { status := St.noObject } none false, 0, 1)
    else if split then (s.taskOpEnd b.tid 0 { status := St.linkDown } none false, 0, 1)
    else
      let ck := b.start
      let q := { taskSubmit b.tid t o.step ck with mode := 1 }
      let s0 : State := match b.ent with
        | .site id => s.upSite id (fun x => { x with tag := b.tag })
        | .group _ => s
      match s0.submitX q with
      | (s1, some r) => (s1.taskOpEnd b.tid 0 r none false, 0, 1)
      | (s1, none) =>
        let c := ck.elim 0 Ckpt.vec
        let lost := s.pair.missing.filter (fun m => m.2 < c && (s.entSites b.ent).any (fun x => x.id = m.1))
        let s2 := s1.qualify b.ent 4
        let s3 := lost.foldl (fun s m =>
          let s1 := (s.reduce 48 b.ent [m.1] m.2).upRes m.1 (fun r => { r with lost := satAdd 32 r.lost 1 })
          match s1.regionOf m.1 1 with
          | some r => s1.upRegion r.id (fun r => { r with lostCount := satAdd 32 r.lostCount 1 })
          | none => s1) s2
        let none' : Bool := (s3.burst b.ent).any (fun y => y.fin.isSome)
        (s3, if none' then 0 else 1, if none' then 1 else 0)

/-- A mirrored per-site result (R272) as the device keeps it. -/
def resultOf (site : Nat) (b : List Byte) : SiteRes :=
  let v (o : Nat) : Option Nat := opt48 (if fld b o 8 = 0xFFFFFFFFFFFF then 2 ^ 48 else fld b o 8)
  { site := site, status := fld b 4 1, qual := fld b 5 1, obj := fld b 8 4, records := fld b 12 4, maskVec := v 40, redFirst := v 48
    redLast := v 56, lost := fld b 88 4, postCount := fld b 92 4, bmDropped := fld b 96 4, rawDropped := fld b 100 4, exec := fld b 104 8
    counts := { failVecs := fld b 16 8, first := v 24, last := v 32, xFail := fld b 64 8, xFirst := v 72, xLast := v 80
                ch := (List.range (fld b 6 2)).map (fun i => fld b (128 + 4 * i) 4) } }

/-- A lock out of its mirrored form: a lock of one of the partner's rings is released with ABANDONED set (R620). -/
def State.lockShadow (s : State) (k : Nat) (l : List Nat) : State :=
  let owner : Option Owner := if l.getD 0 0 = 1 then some (.task (l.getD 1 0))
    else if l.getD 0 0 = 2 then some (.desc (l.getD 1 0) 0) else none
  let n := (l.length - 3) / 3
  let q := (List.range n).filterMap (fun i =>
    if l.getD (3 + 3 * i) 0 = 1 then some ({ prio := l.getD (5 + 3 * i) 0, who := .task (l.getD (4 + 3 * i) 0) } : LockReq) else none)
  let s1 := s.upLock k (fun _ => { owner := owner, abandoned := l.getD 2 0 = 1, queue := q })
  if l.getD 0 0 = 2 then s1.lockRelease k true else s1

/-- Steps 7 to 10 of a takeover, for a takeover (1), a switch (2) or a follower's switch (4): the mirrored copy becomes live state,
DUTPWR_EN takes its levels, PE_OWN rises, tasks and bursts go on (R616-R620, R622). -/
def State.goLive (s : State) (f : Nat) : State :=
  let p := s.pair
  let s0 := { s with pair := { s.pair with role := 1, peOwn := true, claim := 0, claimFor := 0 } }
  let s1 := s0.mapShadow.lostShadow
  let s2 := { s1 with results := p.results.foldl (fun a r => kSet a r.1 (resultOf r.1 r.2)) s1.results }
  let s3 := p.dutpwr.foldl (fun s d => s.setDutpwr d.1 (d.2 = 1)) s2
  let s4 := p.tasks.foldl (fun s i => s.resumeTask i.2) s3
  let s5 := p.locks.foldl (fun s l => s.lockShadow l.1 l.2) s4
  let go := p.bursts.filter (fun b => (s5.task b.tid).any (fun t => (t.ops.getD 0 {}).busy))
  let s5a := (p.bursts.filter (fun b => !go.contains b)).foldl (fun s b => s.releaseShadow b) s5
  -- each burst is admitted against what was reserved for it
  let r := go.foldl (fun (a : State × Nat × Nat) b =>
    let x := (a.1.releaseShadow b).restartShadow f b
    (x.1, a.2.1 + x.2.1, a.2.2 + x.2.2)) (s5a, 0, (p.bursts.filter (fun b => b.tid = 0xFFFF)).length)
  let s6 := r.1
  -- a burst still queued on the old active chip is submitted again
  let held := (s6.paddock.tasks.filter (fun t => (t.2.ops.getD 0 {}).busy && !p.bursts.any (fun b => b.tid = t.1))).map (·.1)
  let s7 := held.foldl (fun s tid => match s.task tid with
    | some t => s.retryBurst tid t (t.ops.getD 0 {})
    | none => s) s6
  let s8 := (s7.incRf F.PAIR_STAT_TAKEOVERS []).clearShadow
  let sub := if f = 1 then 4 else if f = 2 then 5 else 6
  let s9 := { s8 with pair := { s8.pair with
    state := if f = 1 then 0 else 2, following := false, was := f ≠ 1, queue := [], unprotObjs := if f = 1 then [] else p.unprotObjs } }
  let aux := r.2.1 % 2 ^ 16 + r.2.2 % 2 ^ 16 * 2 ^ 16
  let s10 := ((s9.flagAll 0x80).mirrorEvent sub aux (if f = 1 then p.roseAt else 0) s9.dtime).dispatch
  if f = 1 then s10 else (s10.tether { kind := 13, key := [2] }).snapshotPair

/-- A chip that has claimed the active role raises PE_OWN (R601): what the claim was for goes on. -/
def State.claimDone (s : State) : State :=
  let f := s.pair.claimFor
  if f = 1 || f = 2 || f = 4 then s.goLive f
  else
    let s1 := { s with pair := { s.pair with role := 1, peOwn := true, claim := 0, claimFor := 0 } }
    if f = 3 then s1.snapshotPair else s1

/-- CLAIM_GUARD_EXPIRY (R601). -/
def doClaimGuardExpiry (t : Nat) (s : State) : State :=
  if s.pair.claim = 2 && !s.pair.partner && s.pair.claimAt + 5000 ≤ t && !s.ballastOn then (s.at t).claimDone else s

/-- PARTNER_ACTIVE_RISE (R601, R614): an active chip that fails while the pair is SYNCING leaves its standby EXPOSED. -/
def doPartnerActiveRise (t : Nat) (s0 : State) : State :=
  if !s0.pair.partner then s0
  else
    let s := s0.at t
    let s0 := { s with pair := { s.pair with partner := false, highSince := some t, roseAt := t } }
    let s1 := if s.pair.role = 2 && s.pair.state = 2 then s0.pairExpose else s0
    if s.pair.claim = 1 then { s1 with pair := { s1.pair with claim := 2, claimAt := t } } else s1

/-- PARTNER_ACTIVE_FALL (R601, R614): a guard in progress is interrupted. -/
def doPartnerActiveFall (t : Nat) (s0 : State) : State :=
  if s0.pair.partner then s0
  else
    let s := s0.at t
    let s1 := { s with pair := { s.pair with partner := true, highSince := none } }
    if s.pair.claim ≠ 2 then s1
    else if s.rf F.PAIR_STAT_RING = 1 then s1.withdraw
    else { s1 with pair := { s1.pair with claim := 1, claimAt := t } }

/-! ### Items at the standby (R609, R612) -/

/-- Bytes of an item in the receive queue. -/
def MItem.bytes (i : MItem) : Nat := 8 * (i.key.length + 1) + i.data.length

/-- The receive queue in use, bytes (R612, R627). -/
def State.queueBytes (s : State) : Nat := (s.pair.queue.map MItem.bytes).sum

/-- Apply one item. -/
def State.applyItem (s : State) (i : MItem) : State :=
  let k (j : Nat) : Nat := i.key.getD j 0
  let p := s.pair
  match i.kind with
  | 1 => { s with pair := { p with tasks := if i.key.length = 1 then kDel p.tasks (k 0) else kSet p.tasks (k 0) i } }
  | 2 => { s with pair := { p with locks := kSet p.locks (k 0) (i.key.drop 1) } }
  | 3 =>
    let g := k 2
    s.upShadow (entOfKey i.key) (fun b => { b with
      ckpts := (g, ckptOf i.key) :: ((b.ckpts.filter (fun q => q.1 = g && q.2.vec ≠ k 4)).take 1 ++ b.ckpts.filter (fun q => q.1 ≠ g)) })
  | 4 => { s with pair := { p with results := kSet p.results (k 0) i.data } }
  | 5 =>
    let e := entOfKey i.key
    if k 6 = 0 then s.dropShadow e
    else s.admitShadow { ent := e, tid := if k 2 = 0 then 0xFFFF else k 2 - 1, obj := k 3, mode := k 4, prio := k 5, tag := k 7 }
  | 6 =>
    if k 0 = 2 then { s with pair := { p with lostObjs := p.lostObjs ++ [k 1] } }
    else
      let e := entOfKey i.key
      { s with pair := { p with maps := p.maps.filter (fun m => !(m.1 == e)) ++ [(e, k 2, i.key.drop 3)] } }
  | 7 => s.applyCapture (k 0) (k 1) i.data
  | 8 => { s with pair := { p with expressed := p.expressed ++ [i.key] } }
  | 9 => { s with pair := { p with dutpwr := kSet p.dutpwr (k 0) (k 1) } }
  | 10 => if p.state ≠ 2 then s else if k 0 = 0 then s.clearShadow else s.pairProtected
  | 13 => if s.pair.role = 2 then s.startClaim (if s.pair.following then 4 else 2) else s
  | 16 => { s with pair := { p with
      missing := if k 1 = 1 then p.missing
        else if i.key.length = 2 then p.missing.filter (fun m => m.1 ≠ k 0)
        else if k 2 = 1 then p.missing ++ [(k 0, k 3)] else p.missing } }
  | _ => s

/-- Apply items to the end of a list, in order. -/
def applyAll (s : State) (l : List MItem) : State := l.foldl (fun s i => s.applyItem i) s

/-- MIRRORED_ITEM_APPLY (R609, R612): the next item of the receive queue; an EXPOSED pair whose queue is empty again says so. -/
def doMirroredItemApply (t : Nat) (s0 : State) : State :=
  match s0.pair.queue with
  | [] => s0
  | i :: r =>
    let s := s0.at t
    let s1 := { s with pair := { s.pair with queue := r } }.applyItem i
    if r.isEmpty && s1.pair.role = 2 && s1.pair.state = 4 && s1.linkUp 2 then s1.tether { kind := 14, key := [1] } else s1

/-- TAKEOVER (R614, R616 steps 4 to 6, R621): the queue is drained, and the claim begins. The change of STATE to TAKING_OVER posts a MIRROR
event of its own (R606; its subtype is DEDUCED, log entry 35). -/
def doTakeover (t : Nat) (s0 : State) : State :=
  let p := s0.pair
  if !(p.role = 2 && !p.partner && p.highSince.any (fun h => h + 20000 ≤ t) && (p.state = 3 || (p.state = 4 && p.was)) && !s0.ballastOn &&
      p.claim = 0) then s0
  else
    let s := s0.at t
    let s0 := ({ s with pair := { s.pair with state := 5, queue := [] } }.flagAll 0x80).mirrorEvent 4 0 p.roseAt
    let s1 := (applyAll s0 (p.queue.filter (fun i => i.kind ≠ 10 && i.kind ≠ 13))).startClaim 1
    if s1.rb F.PAIR_CTL_FOLLOW && 1 < s1.ringLen then s1.send 0 { typ := 0x33, seq := 0, fields := [s1.pos, 4, 3] } else s1

/-! ### Switching (R621, R622) -/

/-- A burst stops where it stands and leaves the chip: one of a descriptor completes with ABORTED (R622). -/
def State.switchBurst (s : State) (b : Burst) : State :=
  let v := ((s.entSlices b.ent).head?.map (fun g => (s.sl g).seq.next)).getD 0
  let s1 := s.finishBurst b { status := St.aborted, exec := v }
  (s1.entSites b.ent).foldl (fun s x => x.clusters.foldl (fun s n => s.inertChans n (x.local n)) s) s1

/-- The active chip hands over (R622): its last items are sent, it releases the role and becomes the standby; the work its own
descriptors started ends with ABORTED. -/
def State.handOver (s : State) : State :=
  let s1 := (s.tether { kind := 13, key := [1] }).releaseRole
  let slots := s1.paddock.slots.map (fun f => { f with run := none, buf := none, fetched := false, hold := false })
  let rings := s1.paddock.locks.flatMap (fun l => l.queue.filterMap (fun r => match r.who with
    | .desc a b => some (a, b)
    | _ => none))
  let s2 := { s1 with pair := { s1.pair with role := 2, sent := [] }
                      paddock := { s1.paddock with tasks := [], slots := slots, locks := List.replicate 32 {}, peOps := [], powers := []
                                                   peWaits := [] } }
  let s3 := rings.foldl (fun s d => s.finish d.1 d.2 St.aborted) s2
  let s4 := s3.bursts.foldl (fun s b => s.switchBurst b) s3
  let s5 := (s4.acqs.map Acq.site).foldl (fun s x => s.stopAcq x St.aborted s.dtime) s4
  (List.range 48).foldl (fun s k => s.stopMeas k St.aborted) s5

/-- PAIR_SWITCH (R622). -/
def doPairSwitch (sq idx : Nat) (s : State) : State :=
  s.withDesc sq idx 0x6A (fun d =>
    if s.pair.role ≠ 1 || s.pair.state ≠ 3 || !zeroes d.bytes 16 48 then s.finish sq idx St.bad
    else
      let s1 := s.begin sq idx
      { s1 with pair := { s1.pair with switches := s1.pair.switches ++ [(sq, idx)] } }.handOver)

/-- FOLLOW (R621): a PROTECTED standby asks its partner for a switch. -/
def doFollow (n : Nat) (p : PlPacket) (t : Nat) (s0 : State) : State :=
  if !isPkt p || p.fields.getD 1 0 ≠ 4 || p.fields.getD 2 0 ≠ 3 then s0
  else
    let (s1, ok) := (s0.at t).accept n p
    if !ok || 2 ≤ n || p.fields.getD 0 0 = s1.pos then s1
    else
      let s2 := s1.send 0 { p with seq := 0 }
      if s2.pair.role = 2 && s2.pair.state = 3 then
        { s2 with pair := { s2.pair with following := true } }.tether { kind := 13, key := [0] }
      else s2

/-! ### Tether packets and acknowledgements (R605, R609) -/

/-- The partner has loaded an object, or unloaded it: an object loaded here too is compared (R611). -/
def State.digestCheckOf (s : State) (id : Nat) (dig : List Byte) : State :=
  let l := if dig.isEmpty then kDel s.pair.digests id else kSet s.pair.digests id dig
  let s1 := { s with pair := { s.pair with digests := l } }
  match kGet s.objs id with
  | some o => s1.digestCheck id o.digest
  | none => s1

/-- An item arrives (R609, R612): what concerns the pair itself acts at once, mirrored items join the receive queue. -/
def State.receiveItem (s : State) (i : MItem) : State :=
  let k := i.key.getD 0 0
  let p := s.pair
  match i.kind with
  | 11 => { s with pair := { p with partnerJoin := some i.key } }.joinTurn
  | 12 =>
    if p.state = 0 then { s with pair := { p with partnerJoin := none } }
    else if k = 6 then s.roleFails else s.pairEnd 7 St.aborted
  | 14 => if p.role ≠ 1 then s else if k = 0 then s.pairExpose else if p.state = 4 then s.snapshotPair else s
  | 15 => s.digestCheckOf k i.data
  | _ =>
    if i.kind = 13 && k = 0 then (if p.role = 1 && p.state = 3 then s.handOver else s)
    else if i.kind = 13 && k = 2 then
      p.switches.foldl (fun s d => s.finish d.1 d.2 St.ok) { s with pair := { p with switches := [] } }
    else if p.role ≠ 2 then s
    else if i.kind = 10 && k = 0 || p.state = 2 || p.state = 3 then
      if s.queueBytes + i.bytes ≤ 4194304 then
        let s1 := { s with pair := { p with queue := p.queue ++ [i] } }
        if i.kind = 10 && k = 0 then (if p.state = 4 then s1.announce else s1).pairTo 2 1 else s1
      else (s.tether { kind := 14, key := [0] }).pairExpose
    else s

/-- An item grows by the contents of one more of its packets. -/
def MItem.append (i : MItem) (key : List Nat) (data : List Byte) : MItem := { i with key := i.key ++ key, data := i.data ++ data }

/-- TETHER_PACKET (R563, R609): one packet of an item; with its last one the item has arrived. -/
def doTetherPacket (p : PlPacket) (t : Nat) (s0 : State) : State :=
  if !isPkt p || p.fields.getD 1 0 ≠ 1 then s0
  else
    let (s1, ok) := (s0.at t).accept 2 p
    if ok && s1.hasTether then
      let i := ((s1.pair.partial'.getD { kind := p.fields.getD 3 0 }).append (p.fields.drop 4) p.data)
      if p.fields.getD 2 0 ≠ 0 then { s1 with pair := { s1.pair with partial' := some i } }
      else { s1 with pair := { s1.pair with partial' := none } }.receiveItem i
    else s1

/-- PKT (R563, R564): a packet of any class; one of another class, or on a link that its class does not use, is acknowledged and
discarded. -/
def doPktReceive (n : Nat) (p : PlPacket) (t : Nat) (s : State) : State :=
  let c := p.fields.getD 1 0
  if !isPkt p then s
  else if n = 2 && c = 1 then doTetherPacket p t s
  else if n < 2 && c = 2 then doMsgPacket n p t s
  else if n < 2 && c = 3 then doMsgAck n p t s
  else if n < 2 && c = 4 && p.fields.getD 2 0 = 3 then doFollow n p t s
  else if n < 2 && c = 4 && (p.fields.getD 2 0 = 1 || p.fields.getD 2 0 = 2) then doRingPacket n p t s
  else ((s.at t).accept n p).1

/-- ACK (R564): the buffers are freed; on link 2 items are mirrored, and the acknowledged snapshot protects the pair (R605, R609). -/
def doAckBlock (n : Nat) (v : W64) (t : Nat) (s0 : State) : State :=
  if !s0.linkUp n || fget v 0 8 ≠ 0x4B then s0
  else if !blockOk v then (s0.at t).crcErr n
  else
    let s := (s0.at t).heard n
    let q := fget v 8 16
    let s1 := (s.upLk n (fun l => { l with replay := afterAck l.replay q, express := afterAck l.express (fget v 24 8) })).drain n
    if n ≠ 2 then s1
    else
      let l := s1.pair.sent
      if !l.any (fun x => x.1 = q) then s1
      else
        let done := l.takeWhile (fun x => x.1 ≠ q) ++ l.filter (fun x => x.1 = q)
        let s2 := { s1 with pair := { s1.pair with
          sent := (l.dropWhile (fun x => x.1 ≠ q)).drop 1, mirrorT := (l.find? (fun x => x.1 = q)).elim s1.pair.mirrorT (·.2) } }
        let acked := s2.pair.snapSeq.any (fun z => done.any (fun x => x.1 = z))
        if s2.pair.state = 2 && s2.pair.role = 1 && acked then s2.pairProtected.unmatched else s2

/-- CLAIM. -/
def execClaim (v : W64) (s : State) : Host.Outcome State Fault Refusal :=
  .next (s.busWrite (F.PAIR_CTL_CLAIM.off []) (doClaim v))
/-- CLAIM_RELEASE. -/
def execClaimRelease (v : W64) (s : State) : Host.Outcome State Fault Refusal :=
  .next (s.busWrite (F.PAIR_CTL_CLAIM.off []) (doClaimRelease v))
/-- CLAIM_WAIT_EXPIRY. -/
def execClaimWaitExpiry (t : Nat) (s : State) : Host.Outcome State Fault Refusal := .next (doClaimWaitExpiry t s)
/-- PAIR_JOIN. -/
def execPairJoin (sq idx : Nat) (s : State) : Host.Outcome State Fault Refusal := .next (doPairJoin sq idx s)
/-- PAIR_LEAVE. -/
def execPairLeave (sq idx : Nat) (s : State) : Host.Outcome State Fault Refusal := .next (doPairLeave sq idx s)
/-- TETHER_FAILURE. -/
def execTetherFailure (s : State) : Host.Outcome State Fault Refusal := .next (doTetherFailure s)
/-- CLAIM_GUARD_EXPIRY. -/
def execClaimGuardExpiry (t : Nat) (s : State) : Host.Outcome State Fault Refusal := .next (doClaimGuardExpiry t s)
/-- PARTNER_ACTIVE_RISE. -/
def execPartnerActiveRise (t : Nat) (s : State) : Host.Outcome State Fault Refusal := .next (doPartnerActiveRise t s)
/-- PARTNER_ACTIVE_FALL. -/
def execPartnerActiveFall (t : Nat) (s : State) : Host.Outcome State Fault Refusal := .next (doPartnerActiveFall t s)
/-- MIRRORED_ITEM_APPLY. -/
def execMirroredItemApply (t : Nat) (s : State) : Host.Outcome State Fault Refusal := .next (doMirroredItemApply t s)
/-- TAKEOVER. -/
def execTakeover (t : Nat) (s : State) : Host.Outcome State Fault Refusal := .next (doTakeover t s)
/-- PAIR_SWITCH. -/
def execPairSwitch (sq idx : Nat) (s : State) : Host.Outcome State Fault Refusal := .next (doPairSwitch sq idx s)
/-- FOLLOW. -/
def execFollow (n : Nat) (p : PlPacket) (t : Nat) (s : State) : Host.Outcome State Fault Refusal := .next (doFollow n p t s)
/-- TETHER_PACKET. -/
def execTetherPacket (p : PlPacket) (t : Nat) (s : State) : Host.Outcome State Fault Refusal := .next (doTetherPacket p t s)
/-- PKT. -/
def execPktReceive (n : Nat) (p : PlPacket) (t : Nat) (s : State) : Host.Outcome State Fault Refusal := .next (doPktReceive n p t s)
/-- ACK. -/
def execAckBlock (n : Nat) (v : W64) (t : Nat) (s : State) : Host.Outcome State Fault Refusal := .next (doAckBlock n v t s)

end Sys2Proof.Machine
end

