-- ==== Sys2Proof/Machine/Rings.lean ====
section
/-! DEFINITION. The rings (14_host_rings.md): what ends with a ring, the reset of a ring and of the host island, the conditions of a
fetch. -/

namespace Sys2Proof.Machine

/-! ### Fetching (R503, R504) -/

/-- The submission ring served next (R504): one that has aged, longest first, else the highest priority, in turn among equals. -/
def State.served (s : State) : Option Nat :=
  let ks := (List.range 32).filter s.meets
  let age := 1000 * max 1 (s.rf F.HOST_CTL_AGE_US)
  let old := ks.filter (fun k => (s.ring k).metSince.any (fun t => t + age ≤ s.dtime))
  match bestBy (fun k => [(s.ring k).metSince.getD 0, k]) old with
  | some k => some k
  | none => bestBy (fun k => [7 - s.rf F.RINGK_CFG_PRIO [k], (k + 31 - s.host.lastServed) % 32]) ks

/-- Opcodes that are defined (R489). -/
def opDefined (op : Nat) : Bool :=
  op ≤ 2 || (8 ≤ op && op ≤ 0x0B) || (0x10 ≤ op && op ≤ 0x12) || (0x18 ≤ op && op ≤ 0x1A) || (0x20 ≤ op && op ≤ 0x24) ||
    op = 0x28 || op = 0x29 || (0x30 ≤ op && op ≤ 0x34) || (0x38 ≤ op && op ≤ 0x3C) || op = 0x60 || op = 0x61 ||
    (0x68 ≤ op && op ≤ 0x6A) || (0x70 ≤ op && op ≤ 0x72) || op = 0x78

/-- The header check that a descriptor fails, by its DCHECK; 0 for none (R487, R488). -/
def headerCheck (b : List Byte) : Nat :=
  if !opDefined (fld b 0 1) then 0xE1
  else if 4 ≤ fld b 1 1 || fld b 2 2 ≠ 0 then 0xE2
  else if fld b 8 8 % 64 ≠ 0 then 0xE3
  else 0

/-- Opcodes that are carried out while Ballast is engaged (R644). -/
def safeOp (op : Nat) : Bool := op = 0 || op = 0x1A || op = 0x23 || op = 0x24 || op = 0x3A

/-- Opcodes that a standby chip accepts (R608). -/
def standbyOp (op : Nat) : Bool :=
  op ≤ 2 || (8 ≤ op && op ≤ 0x0B) || op = 0x10 || op = 0x11 || op = 0x1A || op = 0x20 || op = 0x21 || op = 0x23 || op = 0x24 ||
    (0x30 ≤ op && op ≤ 0x33) || op = 0x3A || 0x60 ≤ op

/-- The number of a descriptor in flight at position i: i itself, or i plus a multiple of 65,536 while an earlier descriptor of that
position is still in flight. INDEX of a completion is its low 16 bits. -/
def State.freshIdx (s : State) (k i : Nat) : Nat :=
  (((List.range (s.host.inflight.length + 1)).map (fun j => i + 65536 * j)).find? (fun n =>
    !s.host.inflight.any (fun d => d.sq = k && d.idx = n))).getD i

/-- A descriptor is accepted (R488, R503, R608, R644): one that fails completes at once. -/
def State.acceptDesc (s : State) (k : Nat) (b : List Byte) : State :=
  let h := (s.ring k).head
  let i := s.freshIdx k h
  let d : Desc := { sq := k, idx := i, cq := s.cqOf k, bytes := b }
  let s1 := { s with host := { s.host with inflight := s.host.inflight ++ [d] } }.upRing k (fun r => { r with
    head := (h + 1) % s.ringSize k })
  let s2 := s1.incRf F.RING_COUNT_ENTRIES [k]
  let c := headerCheck b
  if c ≠ 0 then s2.complete k i { status := St.bad, reason := c }
  else if s2.ballastOn && !safeOp d.op then s2.finish k i St.safe
  else if s2.pair.role = 2 && !standbyOp d.op then s2.finish k i St.bad
  else s2.acceptId d

/-! ### What ends with a ring (R509) -/

/-- A number past every ring: the completion ring of a descriptor whose completion is discarded. -/
def noRing : Nat := 0x100000

/-- A descriptor that waits is withdrawn and takes no effect: an object whose unload it was can be named again. -/
def State.withdrawWait (s : State) (w : Waiting) : State := match w.kind with
  | .unload id => s.upObj id (fun o => { o with unloading := false })
  | .peUnload id => s.upObj id (fun o => { o with unloading := false })
  | _ => s

/-- A descriptor leaves every list in which it waits (R509). -/
def State.withdrawDesc (s : State) (sq idx : Nat) : State :=
  let p (d : Nat × Nat) : Bool := d ≠ (sq, idx)
  let s1 := (s.waiting.filter (fun w => w.sq = sq && w.idx = idx)).foldl (fun s w => s.withdrawWait w) s
  let s2 := (s1.unwait sq idx).unqueueLocks (fun w => w == .desc sq idx)
  { s2 with
    loads := s2.loads.filter (fun l => p (l.sq, l.idx))
    ringT := { s2.ringT with descs := s2.ringT.descs.filter p }
    pair := { s2.pair with joins := s2.pair.joins.filter p, switches := s2.pair.switches.filter p }
    life := { s2.life with flushes := s2.life.flushes.filter (fun f => p (f.1, f.2.1)) }
    links := s2.links.map (fun l => { l with
      lanes := l.lanes.map (fun x => { x with revive := x.revive.filter p }) })
    paddock := { s2.paddock with tasks := s2.paddock.tasks.map (fun t => (t.1, { t.2 with aborter := t.2.aborter.filter p })) } }

/-- A descriptor in flight is ended (R509): its operation ends as ABORT_OP ends it, its wait is removed, and it completes with
a status, ABORTED unless a fault ends it (R34): one whose burst or acquisition is still stopping, once it has stopped. -/
def State.endDesc (s : State) (d : Desc) (st : Nat := St.aborted) : State :=
  let o := Owner.desc d.sq d.idx
  let s1 := s.withdrawDesc d.sq d.idx
  let s2 := (s1.calibs.filter (fun c => c.sq = d.sq && c.idx = d.idx)).foldl (fun s c =>
    if c.phase = 0 then s.dropCalib c.sq c.idx else s.calStop c st { cut := false, restore := true }) s1
  let s3 := ((s2.bursts.filter (fun b => b.owner = o)).map Burst.ent).foldl (fun s e => s.stopBurst e st) s2
  let s4 := (s3.acqs.filter (fun a => a.owner = o && a.stopAt.isNone)).foldl (fun s a => s.stopAcq a.site st s.dtime) s3
  let s5 := ((List.range 48).filter (fun m => (s4.meter m).state ≠ 0 && (s4.meter m).owner = o)).foldl
    (fun s m => s.stopMeas m st) s4
  if s5.bursts.any (fun b => b.owner = o) || s5.acqs.any (fun a => a.owner = o) then s5
  else s5.finish d.sq d.idx st

/-- Events that no ring takes any more (R498, R508): those that are not kept are discarded. -/
def State.reroute (s : State) : State :=
  let gone := s.host.evq.filter (fun e => !evKept e.typ && (s.evRoute e.typ).isNone)
  if gone.isEmpty then s.refill
  else
    let s1 := (s.incRf F.HOST_EVT_DROPPED_COUNT [] gone.length).hostErr 5
    { s1 with host := { s1.host with
        evq := s1.host.evq.filter (fun e => evKept e.typ || (s1.evRoute e.typ).isSome)
        ovf := satAdd 32 s1.host.ovf gone.length } }.refill

/-- Ring k is disabled with its positions, its counts and its error clear (R509). -/
def State.clearRing (s : State) (k : Nat) : State :=
  ((((s.setRf F.RINGK_CFG_EN [k] 0).setRf F.RINGK_STAT_ERR [k] 0).setRf F.RINGK_STAT_CAUSE [k] 0).setRf F.RING_COUNT_ENTRIES [k] 0).upRing
    k (fun _ => {})

/-- A submission ring is reset (R509). -/
def State.resetSub (s : State) (k : Nat) : State :=
  let s1 := (s.host.inflight.filter (fun d => d.sq = k)).foldl (fun s d => s.endDesc d) s
  (s1.abandonLocks (.desc k 0)).clearRing k

/-- Ring k is reset (R509). A completion ring takes nothing more, and the rings that use it are reset with it: those enabled with it,
and a disabled one (R508) whose descriptors in flight are due to it. -/
def State.resetRing (s : State) (k : Nat) : State :=
  if k < 32 then s.resetSub k
  else if k < 48 then
    let ds : List Desc := s.host.inflight.map (fun d => if d.cq = k then { d with cq := noRing } else d)
    let s1 : State := { s with host := { s.host with inflight := ds } }
    (((List.range 32).filter (fun j => s.ringOn j && s.cqOf j = k || s.host.inflight.any (fun d => d.sq = j && d.cq = k))).foldl (fun s j => s.resetSub j) s1).clearRing k
  else (s.clearRing k).reroute

/-- A ring enters ERROR (R510): a submission ring's locks are released with ABANDONED. -/
def State.ringFails (s : State) (k cause : Nat) : State :=
  let s1 := s.ringError k cause
  if k < 32 then s1.abandonLocks (.desc k 0) else s1

/-- Class fields L and V of the registers of an island (R22). -/
def State.clearIsland (s : State) (i : Nat) : State :=
  s.clearRegs (fun x => x == .l || x == .v) (fun r is => r.isl.1 + r.isl.2 * is.headD 0 = i)

/-- The host island is reset (R482, R511): every ring, without completions; kept events stay; configuration space and the MSI-X table are
as at reset. The operations of the descriptors end with a status (R34). -/
def State.hostReset (s : State) (linkStays : Bool) (st : Nat) : State :=
  let h (s : State) (l : List Desc) : State := { s with host := { s.host with inflight := l } }
  let ds : List Desc := s.host.inflight.map (fun d => { d with cq := noRing, bytes := patch d.bytes 8 (zeros 8) })
  let s1 := ds.foldl (fun s d => s.endDesc d st) (h s ds)
  let off (o : Owner) : Owner := match o with
    | .desc _ _ => .nobody
    | o => o
  let bs : List Burst := s1.bursts.map (fun b => { b with owner := off b.owner })
  let as : List Acq := s1.acqs.map (fun a => { a with owner := off a.owner })
  let s2 := { h s1 [] with bursts := bs, acqs := as }
  let s3 := (List.range 32).foldl (fun s k => s.abandonLocks (.desc k 0)) s2
  let s4 := (List.range 64).foldl (fun s k => s.clearRing k) { s3 with host := { s3.host with pci := {} } }
  let s5 := s4.reroute.clearIsland 25
  { s5 with host := { s5.host with
      lastServed := 31, pci := {}, msix := List.replicate 64 {}, pba := 0, l1 := false
      linkUp := linkStays && s5.host.linkUp, speed := if linkStays then s5.host.speed else 0
      width := if linkStays then s5.host.width else 0 } }

end Sys2Proof.Machine
end

