-- ==== Sys2Proof/Machine/Life.lean ====
section
/-! DEFINITION. The lifetime counters and the lifetime log (R678-R686): records, snapshots, the writer, READ_LIFE and LIFE_FLUSH. -/

namespace Sys2Proof.Machine

/-! ### Records and sectors (R679, R680) -/

/-- 62 bytes with their CRC. -/
def withCrc (l : List Byte) : List Byte := padTo l 62 ++ leBytes 2 (crc16 (padTo l 62))

/-- The 64 bytes of a record with its SEQ (R680). -/
def LogRec.bytes (r : LogRec) (seq : Nat) : List Byte :=
  withCrc (leBytes 1 r.typ ++ [0] ++ leBytes 2 r.part ++ leBytes 4 seq ++ leBytes 8 r.dtime ++ leBytes 6 r.sec ++ leBytes 2 r.snap ++
    padTo r.data 38)

/-- The 64-byte header of a sector (R679). -/
def Sector.header (x : Sector) : List Byte :=
  withCrc (leBytes 4 0x46494C44 ++ leBytes 2 1 ++ zeros 2 ++ leBytes 4 x.seq ++ leBytes 4 x.erases)

/-- The 64 bytes at place j of the log region: an erased place reads all ones. -/
def Life.place (l : Life) (j : Nat) : List Byte := match kGet l.sectors (j / 64) with
  | none => List.replicate 64 0xFF
  | some x => if j % 64 = 0 then x.header else (x.recs[j % 64 - 1]?).getD (List.replicate 64 0xFF)

/-! ### Snapshots (R681) -/

/-- Memory channel m has been retired: the board populates it, and it is not live (R550). -/
def State.mcRetired (s : State) (m : Nat) : Bool :=
  m < s.nMc && s.bootDone && fld (s.board.memory.getD m []) 0 1 ≠ 0 && !s.mcLive m

/-- Retired units, 64 bytes: slices, channels, filter chains, meters, APG units, memory channels, lanes, Tether, slots. -/
def State.retiredBytes (s : State) : List Byte :=
  let bits (n : Nat) (p : Nat → Bool) : Nat := maskOf ((List.range n).filter p)
  padTo (leBytes 8 (bits 48 (fun g => (s.sl g).retired)) ++
    leBytes 24 (bits 192 (fun c => ((s.cl (c / 16)).chans.getD (c % 16) {}).retired)) ++
    leBytes 4 (bits 24 s.chainsBad.contains) ++ leBytes 8 (bits 48 s.metersBad.contains) ++
    leBytes 1 (bits 4 (fun k => (s.apgs.getD k {}).retired)) ++ leBytes 1 (bits 8 s.mcRetired) ++
    leBytes 2 (bits 16 (fun i => (s.lanesRetired (i / 4)).testBit (i % 4))) ++
    leBytes 1 (b2n (s.hasTether = false && s.d192x && s.bootDone)) ++ leBytes 2 (bits 16 (fun i => (s.fslot i).retired))) 64

/-- A fence list, 64 entries of bank and row. -/
def fenceBytes (l : List (Nat × Nat)) : List Byte :=
  (List.range 64).flatMap (fun i => leBytes 4 (match l[i]? with
    | some f => f.1 + f.2 * 2 ^ 4
    | none => 0xFFFFFFFF))

/-- The 4,218-byte snapshot image. -/
def State.lifeImage (s : State) : List Byte :=
  let l := s.life
  let ns (n w : Nat) (xs : List Nat) : List Byte := (List.range n).flatMap (fun i => leBytes w (sat (8 * w) (xs.getD i 0)))
  padTo (ns 3 8 [l.powerOn, l.lull, l.unaccounted] ++ ns 2 4 [l.boots, l.supplyResets] ++ ns 24 4 l.hist ++ ns 192 8 l.chTrans ++
    ns 12 8 l.relay ++ ns 12 1 l.spareSlices ++ ns 1 1 [l.spareCores] ++ zeros 3 ++ s.retiredBytes ++ ns 8 1 l.ppr ++
    (List.range 8).flatMap (fun m => fenceBytes (s.mc m).fences) ++ ns 32 4 l.faults ++ leBytes 128 (maskOf l.bad)) 4218

/-- The 111 records of a snapshot. -/
def State.snapRecords (s : State) (id : Nat) : List LogRec :=
  let img := s.lifeImage
  (List.range 111).map (fun i => { typ := 1, part := i, snap := id, dtime := s.dtime, sec := s.clk.calSec, data := slice img (38 * i) 38 })

/-- A snapshot is queued, behind or before the records that wait. -/
def State.queueSnapshot (s : State) (front : Bool) : State :=
  let id := s.life.snapId + 1
  let rs := s.snapRecords id
  { s with logQ := if front then rs ++ s.logQ else s.logQ ++ rs, life := { s.life with snapId := id, snapAt := s.dtime } }

/-! ### The writer (R682-R684) -/

/-- Good sectors. -/
def Life.good (l : Life) : List Nat := (List.range l.size).filter (fun x => !l.bad.contains x)

/-- The good sector after the current one, in ascending order and round (R683). -/
def Life.next (l : Life) : Option Nat := match l.cur with
  | none => l.good.head?
  | some c => ((l.good.filter (fun x => c < x)) ++ l.good.filter (fun x => x ≤ c)).head?

/-- The three good sectors that would be opened after sector c. -/
def Life.coming (l : Life) (c : Nat) : List Nat := ((l.good.filter (fun x => c < x)) ++ l.good.filter (fun x => x < c)).take 3

/-- LIFE_FLUSH descriptors that wait complete with HW_FAULT once the log has failed (R686). -/
def State.failFlushes (s : State) : State :=
  let fs := s.life.flushes
  fs.foldl (fun s f => s.finish f.1 f.2.1 St.hwFault) { s with life := { s.life with flushes := [] } }

/-- A sector is bad: operation 1 is an erase, 2 a program (R684). -/
def State.badSector (s : State) (x op : Nat) : State :=
  let s1 := { s with life := { s.life with bad := s.life.bad ++ [x] } }
  let n := s1.life.good.length
  let s2 := s1.log 0x0C (leBytes 2 x ++ leBytes 1 op ++ leBytes 2 n)
  if n < 4 then ({ s2 with life := { s2.life with state := 2 } }.health 8 0 0).failFlushes else s2

/-- A sector is opened: erased, and its header written; a snapshot follows while the latest complete one is still out of the way
(R683). -/
def State.openSector (s : State) (x : Nat) : State :=
  let n := (s.life.sectors.map (fun p => p.2.seq)).foldl max 0 + 1
  let e := ((kGet s.life.sectors x).map Sector.erases).getD 0 + 1
  let s1 := { s with life := { s.life with sectors := kSet s.life.sectors x { seq := n, erases := e }, cur := some x } }
  if (s1.life.coming x).any s1.life.snapIn.contains && !s1.logQ.any (fun r => r.typ = 1) then s1.queueSnapshot true else s1

/-- Flushes whose snapshot is whole in flash complete with OK (R686). -/
def State.settleFlushes (s : State) (id : Nat) : State :=
  let fs := s.life.flushes.filter (fun f => f.2.2 ≤ id)
  fs.foldl (fun s f => s.finish f.1 f.2.1 St.ok) { s with life := { s.life with flushes := s.life.flushes.filter (fun f => id < f.2.2) } }

/-- The record at the head of the queue is programmed in the current sector. -/
def State.programRecord (s : State) (x : Nat) (r : LogRec) (rest : List LogRec) : State :=
  let l := s.life
  let new := if r.typ ≠ 1 then l.snapNew else if r.part = 0 then [x] else (l.snapNew ++ [x]).dedup
  let whole : Bool := r.typ = 1 && r.part = 110
  let s1 := { s with
    logQ := rest
    life := { l with
      sectors := kUpd l.sectors x (fun y => { y with recs := y.recs ++ [r.bytes (l.seq + 1)] }), seq := l.seq + 1
      snapNew := new, snapIn := if whole then new else l.snapIn } }
  if whole then s1.settleFlushes r.snap else s1

/-- LOG_RECORD_WRITE (R682-R684): attempts of the erase and of the program that fail first; three mark the sector bad. -/
def doLogRecordWrite (eraseFails progFails : Nat) (s : State) : State :=
  if s.logQ.isEmpty || s.life.state ≠ 1 then s
  else
    let full : Bool := match s.life.cur with
      | none => true
      | some c => s.life.bad.contains c || 63 ≤ ((kGet s.life.sectors c).map (fun x => x.recs.length)).getD 63
    let target := if full then s.life.next else s.life.cur
    match target with
    | none => s
    | some x =>
      if full && 3 ≤ eraseFails then s.badSector x 1
      else
        let s1 := if full then s.openSector x else s
        if 3 ≤ progFails then s1.badSector x 2
        else match s1.logQ with
          | r :: rest => s1.programRecord x r rest
          | [] => s1

/-- The queue is written out (R681 at LULL_ENTER); `n` bounds the records. -/
def State.drainLog : Nat → State → State
  | 0, s => s
  | n + 1, s => if s.logQ.isEmpty then s else State.drainLog n (doLogRecordWrite 0 0 s)

/-! ### Counters (R678) -/

/-- Temperature sensors present (R669). -/
def State.sensors (s : State) : List Nat := List.range (2 * s.nCl) ++ [24, 25]

/-- The hottest sensor, lowest number first. -/
def State.hottest (s : State) : Nat :=
  s.sensors.foldl (fun b k => if s.temp b < s.temp k then k else b) 0

/-- The bin of HIST for a reading. -/
def histBin (t : Int) : Nat := (clampInt 0 23 ((t + 960) / 160)).toNat

/-- LIFETIME_SECOND (R678). -/
def doLifetimeSecond (t : Nat) (s0 : State) : State :=
  if !s0.rst.pwrgood then s0
  else
    let s := s0.at t
    let l := s.life
    { s with life := { l with
        powerOn := l.powerOn + 1, lull := if s.power.lull = 2 then l.lull + 1 else l.lull
        hist := l.hist.modify (histBin (s.temp s.hottest)) (fun n => satAdd 32 n 1), secAt := t } }

/-- SNAPSHOT (R681): the snapshot period has passed. -/
def doSnapshot (t : Nat) (s : State) : State :=
  if s.life.state = 1 && s.life.snapAt + 60000000000 * s.rf F.LIFE_CTL_SNAP_MIN ≤ t then (s.at t).queueSnapshot false else s

/-! ### Descriptors (R686) -/

/-- READ_LIFE. -/
def doReadLife (sq idx : Nat) (s : State) : State :=
  s.withDesc sq idx 0x71 (fun d =>
    let b := d.bytes
    let sel := fld b 16 1
    let off := fld b 24 8
    let len := fld b 32 4
    let dst := fld b 40 8
    let size := if sel = 0 then 4224 else 4096 * s.life.size
    if 1 < sel || off % 64 ≠ 0 || len % 64 ≠ 0 || dst % 64 ≠ 0 || size < off + len || !zeroes b 17 7 || !zeroes b 36 4 || !zeroes b 48 16 then
      s.finish sq idx St.bad
    else
      let bs := if sel = 0 then slice (padTo s.lifeImage 4224) off len
        else (List.range (len / 64)).flatMap (fun j => s.life.place (off / 64 + j))
      let (s1, ok) := s.hostWrite sq dst bs
      if ok then s1.finish sq idx St.ok else s1.writeFailed sq idx)

/-- LIFE_FLUSH. -/
def doLifeFlush (sq idx : Nat) (s : State) : State :=
  s.withDesc sq idx 0x72 (fun d =>
    if !zeroes d.bytes 16 48 then s.finish sq idx St.bad
    else if s.life.state = 2 then s.finish sq idx St.hwFault
    else
      let s1 := (s.begin sq idx).queueSnapshot false
      { s1 with life := { s1.life with flushes := s1.life.flushes ++ [(sq, idx, s1.life.snapId)] } })

/-! ### Commands -/

/-- LOG_RECORD_WRITE. -/
def execLogRecordWrite (eraseFails progFails : Nat) (s : State) : Host.Outcome State Fault Refusal :=
  .next (doLogRecordWrite eraseFails progFails s)
/-- LIFETIME_SECOND. -/
def execLifetimeSecond (t : Nat) (s : State) : Host.Outcome State Fault Refusal := .next (doLifetimeSecond t s)
/-- SNAPSHOT. -/
def execSnapshot (t : Nat) (s : State) : Host.Outcome State Fault Refusal := .next (doSnapshot t s)
/-- READ_LIFE. -/
def execReadLife (sq idx : Nat) (s : State) : Host.Outcome State Fault Refusal := .next (doReadLife sq idx s)
/-- LIFE_FLUSH. -/
def execLifeFlush (sq idx : Nat) (s : State) : Host.Outcome State Fault Refusal := .next (doLifeFlush sq idx s)

end Sys2Proof.Machine
end

