-- ==== Sys2Proof/Machine/Resets.lean ====
section
/-! DEFINITION. Resets and power domains (01, 19_power_health_lifetime.md, 20_boot_microcode_resets.md): what a BLOCK reset ends and
clears, domains turned on and off, CHIP, PIN and COLD resets (R22-R24, R34, R655-R660, R715-R720). -/

namespace Sys2Proof.Machine

/-! ### The units of a cluster -/

/-- The admitted bursts that a predicate selects end for a BLOCK reset (R34, R164): at the host's request with ABORTED at their stop
vectors; for a fault with HW_FAULT, on the slices that are `mine` before their next vector, on the others at their stop vectors. -/
def State.endBursts (s : State) (p : Burst → Bool) (mine : Nat → Bool) (st : Nat) : State :=
  ((s.bursts.filter (fun b => b.admitted && p b)).map Burst.ent).foldl (fun s e =>
    if st = St.aborted then s.stopEnt e s.dtime st else ((s.entSlices e).filter mine).foldl (fun s g => s.endNow g st) s) s

/-- Every admitted burst ends at the vector in progress (R56, R164, R643). -/
def State.cutBursts (s : State) (st : Nat) : State :=
  ((s.bursts.filter (fun b => b.admitted)).map Burst.ent).foldl (fun s e => (s.entSlices e).foldl (fun s g => s.cutNow g st) s) s

/-- A burst has a slice in cluster n. -/
def State.burstIn (s : State) (n : Nat) (b : Burst) : Bool := (s.entSlices b.ent).any (fun g => g / 4 = n)

/-- Every acquisition that uses a chain of a mask ends with a status. -/
def State.stopAcqs (s : State) (mask st : Nat) : State :=
  ((s.acqs.filter (fun a => a.chains &&& mask ≠ 0 && a.stopAt.isNone)).map Acq.site).foldl (fun s x => s.stopAcq x st s.dtime) s

/-- Sequencer and core of cluster n: its bursts end, its vector cache empties, its slices hold nothing, and VEC of
CL_n_SEQ_STAT_s reads 0 (R172, R203, R719). -/
def State.resetCore (s : State) (n st : Nat) : State :=
  let s1 := s.endBursts (s.burstIn n) (fun g => g / 4 = n) st
  let idle (x : Slice) : Bool := !(x.ent.any s1.busy)
  let sl : List Slice := s1.slices.zipIdx.map (fun p =>
    if p.2 / 4 ≠ n then p.1 else { p.1 with past := [], seq := if idle p.1 then {} else { p.1.seq with started := 0 } })
  { s1 with slices := sl, cache := s1.cache.filter (fun c => c.cluster ≠ n) }

/-- Timing of cluster n (R253, R256): meters and calibrations end, the drift trims are cleared, previous drive reads off. -/
def State.resetTiming (s : State) (n st : Nat) : State :=
  let s1 := ((List.range 4).map (fun i => 4 * n + i)).foldl (fun s k => s.stopMeas k st) s
  let s2 := s1.calStopAll (fun c => c.cluster = n) st { cut := false, restore := true }
  (s2.upDrift n (fun d => { d with gain := 0, offset := 0, acq := false, locked := false })).upCl n (fun c => { c with
    chans := c.chans.map (fun x => { x with prev := 2 }) })

/-- Channel outputs of cluster n go inert. -/
def State.resetChans (s : State) (n : Nat) : State := s.inertChans n 0xFFFF

/-- Capture and trigger units of cluster n: bursts on its slices end (R659). -/
def State.resetCapture (s : State) (n st : Nat) : State :=
  let s1 := (s.endBursts (s.burstIn n) (fun g => g / 4 = n) st).upCl n (fun c => { c with cap := {}, capS := List.replicate 4 {} })
  let tr : List Trig := s1.trigs.zipIdx.map (fun p => if p.2 / 8 = n then {} else p.1)
  { s1 with trigs := tr, trigEv := s1.trigEv.filter (fun e => e.1 / 8 ≠ n) }

/-- The frames of the list in progress on port n that have left it whole; the one in progress is cut (R643). -/
def State.peFlush (s : State) (n : Nat) : State :=
  let p := s.pePort n
  match p.queue with
  | i :: _ =>
    if p.busy then
      s.peSend n ((s.peFrames i.list).take (framesBegun (s.rf F.CL_PE_CFG_DIV [n]) (s.peFrames i.list) (s.dtime - p.start) - 1))
    else s
  | [] => s

/-- Companion ports of cluster n: lists and POWER_DUT sequences end, DUTPWR_EN goes low, the ADC port loses its alignment and the
acquisitions on its chains end. A list that belongs to nobody any more runs to its end while `on` (R253). -/
def State.resetPorts (s : State) (n st : Nat) (on : Bool) : State :=
  let p := s.pePort n
  let keep := if on then p.queue.filter (fun i => i.user = .orphan) else []
  let run : Bool := on && p.busy && p.queue.head?.any (fun i => i.user = .orphan)
  let s0 := if run then s else s.peFlush n
  let late := if on then s.paddock.peWaits.filter (fun w => w.cluster = n && w.item.user = .orphan) else []
  let sF := s0.pePortFail n st
  let s1 := { sF with paddock := { sF.paddock with peWaits := sF.paddock.peWaits ++ late } }.upPe n (fun q =>
    { q with queue := keep, busy := run, start := p.start, cs := run && q.cs })
  let s2 := ((late.foldl (fun s _ => s.peRoom n) s1).setDutpwr n false).stopAcqs (3 * 2 ^ (2 * n)) st
  ((s2.upPort n (fun _ => {})).condOff 13 n 0).condOff 13 n 1

/-- The filter chains of engine e: acquisitions end, windows and estimates restart. -/
def State.resetEngine (s : State) (e st : Nat) : State :=
  let s1 := s.stopAcqs ((2 ^ 12 - 1) * 2 ^ (12 * e)) st
  let cs : List FChain := s1.chains.zipIdx.map (fun p => if p.2 / 12 = e then { acq := p.1.acq } else p.1)
  let s2 := { s1 with chains := cs, sbufs := s1.sbufs.modify e (fun _ => []) }
  (s2.acqs.map Acq.site).foldl (fun s i => s.settleAcq i) s2

/-- An APG unit: the burst that uses it ends; binding and setup are kept (R316, R659). -/
def State.resetApg (s : State) (k st : Nat) : State :=
  let s1 := s.endApgBursts k st
  { s1 with apgs := s1.apgs.modify k (fun a => { a with regs := {} }) }

/-- Mirroring ends, and the pair as under PAIR_LEAVE (R607, R659). -/
def State.resetTether (s : State) (st : Nat) : State :=
  if s.pair.state = 0 then s else (s.tether { kind := 12, key := [0] }).pairEnd 7 st

/-! ### The other islands -/

/-- The flow-core complex (R472): every task ends; every held lock is free with ABANDONED set. -/
def State.resetFlow (s : State) (st : Nat) : State :=
  let waits := s.paddock.locks.flatMap (fun l => l.queue.filterMap (fun r => match r.who with
    | .desc a b => some (a, b)
    | _ => none))
  let lk : List Lock := s.paddock.locks.map (fun l => { l with queue := [] })
  let s1 := waits.foldl (fun s d => s.finish d.1 d.2 st) { s with paddock := { s.paddock with locks := lk } }
  let s2 := (s1.paddock.tasks.map (·.1)).foldl (fun s t => s.endTask t st 0) s1
  let lk2 : List Lock := s2.paddock.locks.map (fun l => if l.owner.isSome then { abandoned := true } else l)
  let sl : List FSlot := s2.paddock.slots.map (fun f => { f with run := none, buf := none, fetched := false, hold := false })
  { s2 with paddock := { s2.paddock with locks := lk2, slots := sl, seq := 0 } }

/-- Memory channel m: the DRAM goes to self-refresh with its contents and trained values; what is reading or writing it ends (R34, R717).
-/
def State.resetMemory (s : State) (m st : Nat) : State :=
  let uses (b : Burst) : Bool := (kGet s.objs b.obj).any (fun o => o.chans.contains m) ||
    (s.entSites b.ent).any (fun x => s.regions.any (fun r => r.2.site = x.id && r.2.chan = m))
  let s1 := s.endBursts uses (fun _ => true) st
  let s2 := ((s1.acqs.filter (fun a => a.stopAt.isNone && ((kGet s1.regions a.region).any (fun r => r.chan = m)))).map Acq.site).foldl
    (fun s x => s.stopAcq x st s.dtime) s1
  let ls := s2.loads.filter (fun l => l.obj.chans.contains m)
  let s3 := ls.foldl (fun s l => s.finish l.sq l.idx st) { s2 with loads := s2.loads.filter (fun l => !l.obj.chans.contains m) }
  s3.upMc m (fun c => { c with
    selfref := true, owed := 0, nextBank := 0, repair := none, waits := [], atLimit := [], prevForced := false, grant := none, scrub := 0
    queue := [] })

/-- Paldel link n: whatever it carries is dropped, and the descriptors in progress that need it end with a status (R34): LANE_REVIVE, and
on link 2 PAIR_JOIN and PAIR_SWITCH. -/
def State.resetLink (s : State) (n st : Nat) : State :=
  let ds := ((s.lk n).lanes.filterMap Lane.revive).dedup
  let s1 := ds.foldl (fun s d => s.finish d.1 d.2 st) (s.upLk n (fun l => { l with lanes := l.lanes.map (fun x => { x with revive := none }) }))
  let s2 := if n = 2 then (s1.linkGone n 4).pairDescs st else s1.linkGone n 4
  s2.upLk n (fun _ => { state := 4, downAt := s.dtime })

/-- A unit or island is reset, and its work ends with a status (R34). -/
def State.resetIsland (s : State) (i st : Nat) : State :=
  if i < 12 then
    let s1 := ((((s.resetTiming i st).resetCapture i st).resetCore i st).resetChans i).resetPorts i st true
    s1.clearIsland i
  else if i = 12 then (s.resetFlow st).clearIsland 12
  else if i < 21 then (s.resetMemory (i - 13) st).clearIsland i
  else if i < 25 then (s.resetLink (i - 21) st).clearIsland i
  else if i = 25 then s.hostReset true st
  else if i = 26 then ((s.resetEngine 0 st).resetEngine 1 st).clearIsland 26
  else if i = 27 then ((List.range 4).foldl (fun s k => s.resetApg k st) s).clearIsland 27
  else if i = 28 then (s.resetTether st).clearIsland 28
  else s

/-- One flow core is reset (R471): its tasks go back to READY, a step in progress is handled by its class. -/
def State.resetCoreOf (s : State) (core st : Nat) : State :=
  match s.slotOf core with
  | none => s
  | some i =>
    let (s1, run, buf) := s.vacate i st
    (run.toList ++ buf.toList).foldl (fun s t => s.replace t) s1

/-! ### BLOCK resets (R633, R717) -/

/-- A BLOCK reset is in progress on an island, or on the core named. -/
def State.inReset (s : State) (i : Nat) (core : Option Nat) : Bool :=
  s.power.blk.contains (i, none) || (core.isSome && s.power.blk.contains (i, core))

/-- A BLOCK reset begins: for the host its work ends with ABORTED, by a fault reaction, alone or in the same cycle, with HW_FAULT. One
during Lull ends Lull, with no WOKE event (R718). -/
def State.blockReset (s0 : State) (i : Nat) (core : Option Nat) (host fault : Bool) : State :=
  let s := s0.leaveLull
  let st := if fault then St.hwFault else St.aborted
  let p := s.power
  let s1 := { s with power := { p with blk := p.blk ++ [(i, core)], blkHost := p.blkHost || host } }.incRf F.RST_STAT_BLOCK_COUNT []
  match core with
  | some c => s1.resetCoreOf c st
  | none => s1.resetIsland i st

/-- Every unit of island i that a rule can retire has been retired, or the variant lacks the island, or the board its memory (R31, R523).
-/
def State.islandGone (s : State) (i : Nat) : Bool :=
  s.islandAbsent i || (
    if i < 12 then s.clAbsent i
    else if i < 13 then (List.range s.nSlot).all (fun k => (s.fslot k).retired)
    else if i < 21 then s.bootDone && !s.mcLive (i - 13)
    else if i < 25 then s.lanesRetired (i - 21) = 15
    else if i = 26 then (List.range s.nChain).all s.chainsBad.contains
    else if i = 27 then (List.range s.nApg).all (fun k => (s.apgs.getD k {}).retired)
    else i = 28 && s.bootDone && !s.hasTether)

/-- BLOCK_RESET (R717); `fault` says that a fault-driven reset of the same unit takes effect in the same cycle (R34). -/
def doBlockReset (v : W64) (fault : Bool) (s : State) : State :=
  let s1 := s.writeFields (F.RST_BLOCK_GO.off []) v
  if fget v 31 1 = 0 then s1
  else
    let i := fget v 0 5
    let core := if i = 12 && fget v 5 1 = 1 then some (fget v 6 5) else none
    if 29 ≤ i || s1.islandGone i || s1.inReset i core || core.any (fun c => s1.nCore ≤ c) then s1.setRf F.RST_STAT_REJECT [] 1
    else s1.blockReset i core true fault

/-- An island returns to service. -/
def State.islandReturns (s : State) (i : Nat) : State :=
  if i < 12 then s.acquireDrift i
  else if i < 13 then s.dispatch
  else if i < 21 then s.upMc (i - 13) (fun c => { c with selfref := false })
  else if i < 25 then if s.rb F.PL_CTL_EN [i - 21] then s.train (i - 21) else s.upLk (i - 21) (fun l => { l with state := 0 })
  else if i = 26 then
    (List.range s.nChain).foldl (fun s k => if s.cf F.FCHAIN_CTL_EN k = 1 then s.restartWin k else s) s
  else s

/-- BLOCK_RESET_RETURN (R717). -/
def doBlockResetReturn (t : Nat) (s0 : State) : State :=
  let s := s0.at t
  let bs := s.power.blk
  let s1 := { s with power := { s.power with blk := [], blkHost := false } }
  (bs.foldl (fun s b => s.islandReturns b.1) s1).scan

/-! ### Power domains (R655-R659) -/

/-- The host switches a domain (R655). -/
def hostDomain (d : Nat) : Bool := d < 60 || 89 ≤ d

/-- The domains of the cluster that need domain d (R657). -/
def domDependents (d : Nat) : List Nat :=
  if 60 ≤ d then []
  else if d % 5 = 0 then [d + 1, d + 2, d + 3, d + 4]
  else if d % 5 = 1 then [d + 1]
  else []

/-- STOPS of a cluster's meters is class C (R396). -/
def State.dropStops (s : State) (n : Nat) : State := (List.range 4).foldl (fun s i => s.upMeter (4 * n + i) (fun m => { m with stops := 0 })) s

/-- A domain is turned off: its work ends as at a host BLOCK reset, and its C, L and V state is lost (R658, R659, R718). The trims of the last
calibration go with the timing domain, and stay over a BLOCK reset (R242; DESIGN CHOICE, log entry 39). -/
def State.domOff (sL : State) (d : Nat) : State :=
  let s := sL.leaveLull
  let n := d / 5
  let st := St.aborted
  let s0 := s.incRf F.RST_STAT_BLOCK_COUNT []
  let s1 : State :=
    if d < 60 then match d % 5 with
      | 0 => (s0.calStopAll (fun c => c.cluster = n) st { cut := false, restore := true }).resetCore n st
      | 1 => ((s0.resetTiming n st).upCl n (fun c => { c with tsets := [], drift := {} })).dropStops n
      | 2 => (s0.calStopAll (fun c => c.cluster = n) st { cut := false, restore := true }).resetChans n
      | 3 => s0.resetCapture n st
      | _ => (s0.calStopAll (fun c => c.cluster = n) st { cut := false, restore := false }).resetPorts n st false
    else if d < 93 then s0.resetApg (d - 89) st
    else if d < 95 then s0.resetEngine (d - 93) st
    else s0.resetTether st
  let s2 := s1.clearRegs (fun x => x == .c || x == .l || x == .v) (fun r is =>
    r.dom.any (fun p => p.1 + p.2 * is.headD 0 = d) && r.reg != .apgBind)
  let s3 := s2.setRf (RF.mk .pwrDomCtl 0x1100 [8] (d % 64) 1 0) [d / 64] 0
  { s3 with power := { s3.power with dom := s3.power.dom - (s3.power.dom &&& 2 ^ d) } }

/-- A refusal in PWR_EVT (R690). -/
def State.domRefused (s : State) (f : RF) (d : Nat) : State := (s.setRf f [] 1).setRf F.PWR_EVT_LAST [] d

/-- The bits of PWR_DOM_CTL_j that a write sets (R656-R658). -/
def domainsOn (j : Nat) (v : W64) (s : State) : State :=
  let ds := ((bitList 64 v.toNat).map (fun b => 64 * j + b)).filter (fun d => d < 96 && !s.domAbsent d && !s.domOn d)
  ds.foldl (fun s d => if hostDomain d then s.powerUp d else s.domRefused F.PWR_EVT_FIXED d) s

/-- The bits of PWR_DOM_CTL_j that a write clears, dependents first (R656-R659). -/
def domainsOff (j : Nat) (v : W64) (s : State) : State :=
  let ds := ((List.range 64).map (fun b => 64 * j + b)).filter (fun d => d < 96 && !v.toNat.testBit (d % 64) && s.domOn d &&
    !s.domAbsent d)
  let held (d : Nat) : Bool := d < 60 && d % 5 < 3 && s.sites.any (fun p => p.2.clusters.contains (d / 5))
  let stays (d : Nat) : Bool := s.domOn d && (!ds.contains d || held d)
  let order (d : Nat) : Bool := (domDependents d).any (fun e => stays e || (domDependents e).any stays)
  ds.reverse.foldl (fun s d =>
    if !hostDomain d then s.domRefused F.PWR_EVT_FIXED d
    else if held d then s.domRefused F.PWR_EVT_BUSY d
    else if order d then s.domRefused F.PWR_EVT_ORDER d
    else s.domOff d) s

/-- A write of PWR_DOM_CTL_j: what it turns off, then what it turns on. A domain that the write needs for one it turns on is not
turned off by it (R657). -/
def writeDomCtl (j : Nat) (v : W64) (s : State) : State :=
  let fresh := ((bitList 64 v.toNat).map (fun b => 64 * j + b)).filter (fun d => d < 96 && hostDomain d && !s.domOn d)
  let need := maskOf ((fresh.flatMap domNeeds).map (fun d => d % 64))
  domainsOn j v (domainsOff j (BitVec.ofNat 64 (v.toNat ||| need)) s)

/-- DOMAIN_ON (R656-R658). -/
def doDomainOn (j : Nat) (v : W64) (s : State) : State := writeDomCtl j v s

/-- DOMAIN_OFF (R656-R659). -/
def doDomainOff (j : Nat) (v : W64) (s : State) : State := writeDomCtl j v s

/-! ### CHIP, PIN and COLD resets (R22-R24, R715, R716, R719) -/

/-- What every reset of the chip ends: the machine as State.reset has it, but for time, fuses, flash, the model's own record and what
`f` puts back. -/
def State.rebooted (s : State) (f : State → State) : State :=
  f { State.reset with
    dtime := s.dtime, dfrac := s.dfrac, clk := s.clk, fuse := s.fuse, life := s.life
    out := s.out, freeCtr := s.freeCtr, pending := s.pending }

/-- The lifetime counters and the flash, with the log not yet mounted. -/
def Life.unmounted (l : Life) : Life :=
  { l with state := 0, cur := none, flushes := [], snapNew := [], base := 0, size := 0 }

/-- A PIN or COLD reset is still in progress: RESET_N or PWRGOOD is low, or a supply reset has not been released (R715, R718). -/
def State.heldReset (s : State) : Bool := s.rst.due && (s.rst.resetLow || !s.rst.pwrgood || s.rst.brownout.isSome)

/-- What a CHIP reset leaves of a channel: what is class P (R89, R246). -/
def Chan.afterReset (x : Chan) : Chan := { retired := x.retired, lat := x.lat, pathH := x.pathH, pathL := x.pathL, lin := x.lin }

/-- A CHIP reset (R716): outputs inert, memory in self-refresh, classes C, L and V cleared; retired units, trained values, fault
records, board values and the PCIe link stay. A stronger reset in progress absorbs it (R718). -/
def State.chipReset (s : State) (cause : Nat) : State :=
  if s.heldReset then s
  else
  let s1 := s.incRf F.RST_STAT_CHIP_COUNT []
  let s2 := s1.clearRegs (fun x => x == .c || x == .l || x == .v) (fun _ _ => true)
  let cls : List Cluster := s.clusters.map (fun c => {
    physBad := c.physBad, chans := c.chans.map Chan.afterReset })
  let sls : List Slice := s.slices.map (fun x => { phys := x.phys, retired := x.retired })
  let fsl : List FSlot := s.paddock.slots.map (fun f => { phys := f.phys, retired := f.retired })
  let mc : List Mc := s.mcs.zipIdx.map (fun c => {
    selfref := true, fences := c.1.fences, ppr := c.1.ppr, pprAgrees := c.1.pprAgrees
    idleSince := if s.chanNeeded c.2 then s.dtime else c.1.idleSince })
  let ap : List Apg := s.apgs.map (fun a => { retired := a.retired })
  s2.rebooted (fun z => { z with
    regs := s2.regs, mem := s.mem, bad := s.bad, life := s.life.unmounted, clusters := cls, slices := sls, mcs := mc, apgs := ap
    paddock := { z.paddock with slots := fsl, failed := s.paddock.failed }
    chainsBad := s.chainsBad, metersBad := s.metersBad, board := s.board
    collector := { live := s.collector.live.filter (fun l => l.2.1 = 29) }
    power := { pause := s.power.pause, below := s.power.below, dips := s.power.dips, aboveSince := s.power.aboveSince }
    pair := { partner := s.pair.partner, highSince := s.pair.highSince }
    host := { linkUp := s.host.linkUp, speed := s.host.speed, width := s.host.width, pci := s.host.pci, msix := s.host.msix
              pba := s.host.pba }
    rst := { s.rst with due := true, cause := cause, kept := s.bootDone || s.rst.kept, patch := [] } })

/-- A PIN reset (R715, R719): class P is cleared too, the PCIe endpoint is reset, device memory is undefined. A COLD reset in progress
absorbs it (R718). -/
def State.pinReset (s : State) (cause : Nat) : State :=
  if s.heldReset && (s.rst.cause = 1 || s.rst.cause = 6) then s
  else
  let s1 := s.incRf F.RST_STAT_PIN_COUNT []
  let s2 := s1.clearRegs (fun x => x != .a) (fun _ _ => true)
  s2.rebooted (fun z => { z with
    regs := s2.regs, life := s.life.unmounted
    collector := { live := s.collector.live.filter (fun l => l.2.1 = 29) }
    power := { pause := s.power.pause, below := s.power.below, dips := s.power.dips, aboveSince := s.power.aboveSince }
    pair := { partner := s.pair.partner, highSince := s.pair.highSince }
    rst := { s.rst with due := true, cause := cause, kept := false, patch := [] } })

/-- A COLD reset (R22, R51, R57): everything but fuses and flash is cleared. -/
def State.coldReset (s : State) (cause : Nat) : State :=
  let l : Life := { sectors := s.life.sectors }
  { State.reset with
    fuse := s.fuse, life := l, out := s.out, freeCtr := s.freeCtr, pending := s.pending
    rst := { cause := cause, brownout := s.rst.brownout, tap := s.rst.tap } }

/-- CHIP_RESET by a write of RST_CTL (R707, R715, R724): other keys are ignored. -/
def doChipReset (v : W64) (s : State) : State :=
  if fget v 0 1 = 1 && fget v 8 8 = 0xC5 then s.chipReset 3 else s

/-- PIN_RESET (R715): cause 0 is RESET_N, 1 is PWRGOOD. -/
def doPinReset (cause : Nat) (s : State) : State :=
  let s1 := s.pinReset 2
  { s1 with rst := { s1.rst with resetLow := cause = 0 || s1.rst.resetLow, pwrgood := cause = 0 && s1.rst.pwrgood } }

/-- COLD_RESET (R715): VAON rises, or is lost and returns. -/
def doColdReset (_cause : Nat) (s : State) : State := s.coldReset 1

/-- RESET_LOOP_CLEAR (R720): 10 s have passed since DONE. -/
def doResetLoopClear (t : Nat) (s : State) : State :=
  if s.bootDone && s.rst.doneAt + 10000000000 ≤ t then (s.at t).setRf F.RST_STAT_C_LOOP [] 0 else s

/-- PWRGOOD_RISE (R746, R750): TRIG_OUT, SYNC_OUT, PE_OWN and ALERT_N are driven low from here. -/
def doPwrgoodRise (t : Nat) (s : State) : State :=
  if s.rst.pwrgood then s else { s.at t with rst := { (s.at t).rst with pwrgood := true } }

/-! ### Commands -/

/-- BLOCK_RESET. -/
def execBlockReset (a : ResetAccess) (s : State) : Host.Outcome State Fault Refusal :=
  .next (s.busWrite (F.RST_BLOCK_GO.off []) (doBlockReset a.v a.fault))
/-- BLOCK_RESET_RETURN. -/
def execBlockResetReturn (t : Nat) (s : State) : Host.Outcome State Fault Refusal := .next (doBlockResetReturn t s)
/-- DOMAIN_ON. -/
def execDomainOn (j : Nat) (v : W64) (s : State) : Host.Outcome State Fault Refusal :=
  .next (s.busWrite (F.PWR_DOM_CTL_ON.off [j]) (doDomainOn j v))
/-- DOMAIN_OFF. -/
def execDomainOff (j : Nat) (v : W64) (s : State) : Host.Outcome State Fault Refusal :=
  .next (s.busWrite (F.PWR_DOM_CTL_ON.off [j]) (doDomainOff j v))
/-- CHIP_RESET. -/
def execChipReset (v : W64) (s : State) : Host.Outcome State Fault Refusal :=
  .next (s.busWrite (F.RST_CTL_GO.off []) (doChipReset v))
/-- PIN_RESET. -/
def execPinReset (cause : Nat) (s : State) : Host.Outcome State Fault Refusal := .next (doPinReset cause s)
/-- COLD_RESET. -/
def execColdReset (cause : Nat) (s : State) : Host.Outcome State Fault Refusal := .next (doColdReset cause s)
/-- RESET_LOOP_CLEAR. -/
def execResetLoopClear (t : Nat) (s : State) : Host.Outcome State Fault Refusal := .next (doResetLoopClear t s)
/-- PWRGOOD_RISE. -/
def execPwrgoodRise (t : Nat) (s : State) : Host.Outcome State Fault Refusal := .next (doPwrgoodRise t s)

end Sys2Proof.Machine
end

