-- ==== Sys2Proof/Machine/Lull.lean ====
section
/-! DEFINITION. Lull (R661-R668): entry, and the wakes that have commands of their own. -/

namespace Sys2Proof.Machine

/-- Why LULL_ENTER is refused (R661); 0 where it is not. -/
def State.lullRefusal (s : State) : Nat :=
  if !s.bursts.isEmpty then 1
  else if !s.acqs.isEmpty || !s.calibs.isEmpty || s.pe.any (fun p => !p.queue.isEmpty) || !s.paddock.powers.isEmpty ||
      !s.paddock.peOps.isEmpty || !s.paddock.peWaits.isEmpty then 2
  else if s.pair.state ≠ 0 then 3
  else if s.mcs.any (fun c => c.repair.isSome) then 4
  else 0

/-- The islands whose working clocks stop in Lull (R662 step 6). -/
def lullStops (i : Nat) : Bool := i ≤ 12 || i = 26 || i = 27 || i = 28

/-- Class V state of the islands that stop is cleared; no pin leaves its state (R663). -/
def State.lullClear (s : State) : State :=
  let s1 := s.clearRegs (fun x => x == .v) (fun r is => lullStops (r.isl.1 + r.isl.2 * is.headD 0))
  let sl : List Slice := s1.slices.map (fun x => { x with seq := { hold := x.seq.hold, state := if x.seq.hold then 4 else 0 } })
  let tr : List Trig := s1.trigs.map (fun u => { u with armed := false, armedAt := 0, openAt := none, openArmed := 0, cands := [] })
  let cs : List FChain := s1.chains.map (fun c => { powUntil := c.powUntil, recUntil := c.recUntil, tripped := c.tripped })
  let ap : List Apg := s1.apgs.map (fun a => { a with regs := {} })
  let cl : List Cluster := s1.clusters.map (fun c => { c with drift := { c.drift with acq := false, locked := false } })
  { s1 with slices := sl, trigs := tr, trigEv := [], chains := cs, apgs := ap, clusters := cl }

/-- The sequence of R662; its length, no more than 33 µs, the spec leaves open. -/
def State.enterLull (s : State) : State :=
  let s1 := (List.range 48).foldl (fun s k => s.stopMeas k St.aborted) s
  let s2 := if s1.life.state = 1 then s1.queueSnapshot false else s1
  let s3 := State.drainLog (s2.logQ.length + 222) s2
  let ms : List Mc := s3.mcs.zipIdx.map (fun p => if s3.mcLive p.2 then { p.1 with selfref := true } else p.1)
  let s4 := (List.range 4).foldl (fun s n => if (s.lk n).state = 2 then s.goIdle n else s) { s3 with mcs := ms }
  let s5 := (s4.lullClear.incRf F.LULL_STAT_ENTRIES []).draw.at (s4.dtime + Config.freeValue s4.freeCtr % 33001)
  { s5 with power := { s5.power with lull := 2 } }

/-- LULL_ENTER (R661, R662). -/
def doLullEnter (sq idx : Nat) (s : State) : State :=
  s.withDesc sq idx 0x70 (fun d =>
    if s.ballastOn then s.finish sq idx St.safe
    else if !zeroes d.bytes 16 48 then s.finish sq idx St.bad
    else
      let r := s.lullRefusal
      if r ≠ 0 then (s.setRf F.LULL_STAT_REFUSE [] r).finish sq idx St.bad
      else
        let s1 := (s.enterLull.finish sq idx St.ok).health 5 0 0
        { s1 with host := { s1.host with l1 := s1.host.pci.l1En } })

/-- WAKE: a write of LULL_CTL with WAKE set (R664). -/
def doLullWake (v : W64) (s : State) : State :=
  let s1 := s.writeFields (F.LULL_CTL_WAKE.off []) v
  if fget v 0 1 = 1 then s1.wakeChip 1 else s1

/-- LULL_WAKE_AT_EXPIRY (R664). -/
def doLullWakeAtExpiry (t : Nat) (s : State) : State :=
  let w := s.rf F.LULL_WAKE_AT_DTIME
  if w ≠ 0 && w ≤ t then (s.at t).wakeChip 3 else s

/-! ### Commands -/

/-- LULL_ENTER. -/
def execLullEnter (sq idx : Nat) (s : State) : Host.Outcome State Fault Refusal := .next (doLullEnter sq idx s)
/-- WAKE. -/
def execLullWake (v : W64) (s : State) : Host.Outcome State Fault Refusal :=
  .next (s.busWrite (F.LULL_CTL_WAKE.off []) (doLullWake v))
/-- LULL_WAKE_AT_EXPIRY. -/
def execLullWakeAtExpiry (t : Nat) (s : State) : Host.Outcome State Fault Refusal := .next (doLullWakeAtExpiry t s)

end Sys2Proof.Machine
end

