-- ==== Sys2Proof/Machine/Faults.lean ====
section
/-! DEFINITION. The fault collector and Ballast (18_faults_and_ballast.md): what the collector latches, the reactions in their order,
injection, the safe state, the island registers. Units only report (R629); what a report does follows at FAULT_LATCH. -/

namespace Sys2Proof.Machine

/-! ### Ballast (R641-R645) -/

/-- The safe list of cluster n (R642). -/
def State.safeList (s : State) (n : Nat) : List (List Byte) := (kGet s.board.safe n).getD []

/-- Clusters that are present and have a non-empty safe list. -/
def State.safeClusters (s : State) : List Nat := (List.range s.nCl).filter (fun n => !(s.safeList n).isEmpty)

/-- DUTPWR_EN goes low in every cluster. -/
def State.powerAllOff (s : State) : State := (List.range 12).foldl (fun s n => s.setDutpwr n false) s

/-- A PAIR_SWITCH in progress completes with HW_FAULT (the second corner case of 17_mirror_pair.md). -/
def State.switchFails (s : State) : State :=
  s.pair.switches.foldl (fun s d => s.finish d.1 d.2 St.hwFault) { s with pair := { s.pair with switches := [] } }

/-- Steps 1 and 2 of R643: outputs inert, bursts end with SAFE_STATE, Tether stops, a takeover or a switch stops. -/
def State.ballastStop (s : State) : State :=
  let s1 := (List.range 12).foldl (fun s n => s.inertChans n 0xFFFF) s.switchFails
  let s2 := (((s1.bursts.filter (fun b => !b.admitted)).map Burst.ent)).foldl (fun s e => s.stopBurst e St.safe) s1
  let s3 := s2.cutBursts St.safe
  let s4 := if s3.pair.role = 2 && s3.pair.claim ≠ 0 then
      { s3 with pair := { s3.pair with claim := 0, drive := false, claimFor := 0 } } else s3
  if s4.pair.state = 5 then s4.pairTo 4 3 else s4.pairExpose

/-- Step 4 of R643: the lists on every port are abandoned, calibrations stop (R252). -/
def State.ballastPorts (s : State) : State :=
  let s1 := (List.range 12).foldl (fun s n => (s.peFlush n).pePortFail n St.safe) s
  s1.calStopAll (fun _ => true) St.safe { cut := true, restore := false }

/-- Steps 5 and 6 of R643: the safe lists are sent. -/
def State.sendSafe (s : State) : State :=
  let ns := s.safeClusters
  let s1 := ns.foldl (fun s n => (s.powerUp (5 * n + 4)).peSend n (s.safeList n)) s
  s1.setRf F.BALLAST_STAT_FRAMES_SENT [] (maskOf ns)

/-- Step 8 of R643: tasks, descriptors, measurements and acquisitions end with SAFE_STATE; buffered captures are lost (R306). -/
def State.ballastEnds (s : State) : State :=
  let s1 := (List.range 48).foldl (fun s k => s.stopMeas k St.safe) s
  let cl : List Cluster := s1.clusters.map (fun c => { c with cap := {} })
  let s2 := { s1 with clusters := cl }
  let as := s2.acqs.map Acq.site
  let s3 := as.foldl (fun s x => s.settleAcq x) { as.foldl (fun s x => s.stopAcq x St.safe s.dtime) s2 with sbufs := [[], []] }
  let s4 := (s3.paddock.tasks.map (·.1)).foldl (fun s t => s.endTask t St.safe 0) s3
  let s5 := (s4.bursts.map Burst.ent).foldl (fun s e => match e with
    | .site id => doBurstComplete false id s
    | .group id => doBurstComplete true id s) s4
  s5.host.inflight.foldl (fun s d => (s.withdrawDesc d.sq d.idx).finish d.sq d.idx St.safe) { s5 with calibs := [] }

/-- Ballast engages (R641, R643): the whole sequence, DONE after no more than 101 µs, at a time the spec leaves open. -/
def State.engage (s : State) (src : Nat) (inj : Bool) : State :=
  if s.ballastOn then s
  else
    let t := s.dtime
    let s1 := { s with collector := { s.collector with ballast := 1 } }
    let s2 := (((s1.setRf F.BALLAST_STAT_CAUSE [] src).setRf F.BALLAST_STAT_INJ [] (b2n inj)).incRf F.BALLAST_STAT_ENGAGES []).setRf
      F.BALLAST_STAT_FRAMES_SENT [] 0
    let s3 := s2.setReg (F.BALLAST_T_DTIME.off []) (BitVec.ofNat 64 t)
    let handed : Bool := s3.pair.role = 1 && s3.pair.state = 3
    let owns := s3.pair.peOwn && !handed
    let s4 := s3.ballastStop
    let s5 := if s4.rb F.BALLAST_CTL_PWR_FIRST then s4.powerAllOff else s4
    let s6 := (if handed then s5.releaseRole else s5).ballastPorts
    let s7 := if owns then s6.sendSafe else s6
    let s8 := (if s7.pair.role = 1 then s7.releaseRole else s7).powerAllOff
    let s9 := s8.ballastEnds.log 0x09 (leBytes 1 src ++ leBytes 1 (b2n inj) ++ leBytes 4 (s8.rf F.BALLAST_STAT_ENGAGES))
    let s10 := s9.draw.at (t + Config.freeValue s9.freeCtr % 101001)
    { s10 with collector := { s10.collector with ballast := 2 } }.queueEvent
      { typ := 7, b2 := src, b3 := 2, aux := s10.rf F.BALLAST_STAT_FRAMES_SENT, p0 := t, p2 := s10.dtime }

/-! ### Records (R630, R631) -/

/-- Word w of a first-error record. -/
def State.recWord (s : State) (src w : Nat) : Nat := (s.reg (F.FLT_REC_REC.off [src, w])).toNat

/-- The state with a word of a record. -/
def State.setRecWord (s : State) (src w v : Nat) : State := s.setReg (F.FLT_REC_REC.off [src, w]) (BitVec.ofNat 64 v)

/-- WHERE of a report. -/
def Report.where (r : Report) : Nat := r.addr % 2 ^ 40 + r.req % 256 * 2 ^ 40 + r.access % 16 * 2 ^ 48 + r.idkind % 16 * 2 ^ 52

/-- Bytes 16 to 23 of a record with given RFLAGS. -/
def Report.unitWord (r : Report) (flags : Nat) : Nat :=
  r.island + r.unit % 256 * 2 ^ 8 + r.detail % 256 * 2 ^ 16 + flags * 2 ^ 24 + r.id % 2 ^ 32 * 2 ^ 32

/-- RFLAGS of a source's record. -/
def State.recFlags (s : State) (src : Nat) : Nat := bitsOf (s.recWord src 2) 24 8

/-- A record captures an occurrence: VALID, REAL or INJ and CAPT_INJ. -/
def State.capture (s : State) (r : Report) (inj : Bool) : State :=
  let f := if inj then 1 + 4 + 8 else 1 + 2
  (((s.setRecWord r.src 0 r.t).setRecWord r.src 1 r.where).setRecWord r.src 2 (r.unitWord f)).setRecWord r.src 3 r.off

/-- A further occurrence: MORE, and REAL or INJ; the captured fields are held (R639). -/
def State.recMore (s : State) (src : Nat) (inj : Bool) : State :=
  let w := s.recWord src 2
  s.setRecWord src 2 (setBits w 24 8 (bitsOf w 24 8 ||| 16 ||| if inj then 4 else 2))

/-- An island's own register latches its first fault and counts every one (R646, R654). -/
def State.islandLatch (s : State) (r : Report) : State :=
  let k := [r.island]
  let s1 := s.incRf F.ISL_FLT_COUNT k
  if s1.rb F.ISL_FLT_EVT k then s1
  else
    ((((s1.setRf F.ISL_FLT_EVT k 1).setRf F.ISL_FLT_SRC k r.src).setRf F.ISL_FLT_UNIT k r.unit).setRf F.ISL_FLT_DETAIL k r.detail).setReg
      (F.ISL_FLT_T_DTIME.off k) (BitVec.ofNat 64 r.t)

/-! ### Reactions (R633-R636) -/

/-- The reaction field of a source: fixed for source 0, in the D128L the default without N (R633, R646). -/
def State.reactOf (s : State) (src : Nat) : Nat :=
  if src = 0 then 0x31
  else if !s.hasColl then (reactDefault.getD src 0) - ((reactDefault.getD src 0) &&& 2)
  else s.rf (F.FLT_REACT_REACT.at (src % 8)) [src / 8]

/-- The unit that a fault names is reset, or its island (R633); its work ends with HW_FAULT. -/
def State.resetNamed (s : State) (r : Report) : State :=
  let n := r.island
  let st := St.hwFault
  let s1 := s.incRf F.RST_STAT_BLOCK_COUNT []
  match r.src with
  | 8 => ((List.range 4).filter (fun i => (s1.sl (4 * n + i)).phys = some r.unit)).foldl (fun s i => s.endNow (4 * n + i) st) s1
  | 9 =>
    let s2 := s1.endBursts (fun b => (s1.entSites b.ent).any (fun x => (x.local n).testBit r.unit)) (fun g => g / 4 = n) st
    let s3 := (((List.range 4).map (fun i => 4 * n + i)).filter (fun k => s2.meterHears k r.unit)).foldl (fun s k => s.stopMeas k st) s2
    (s3.calStopAll (fun c => c.cluster = n && c.chmask.testBit r.unit) st { cut := false, restore := true }).inertChans n (2 ^ r.unit)
  | 12 => s1.endNow (4 * n + r.unit) st
  | 13 => s1.stopAcqs (2 ^ (2 * n + r.unit)) st
  | 14 => s1.stopMeas (4 * n + r.unit) st
  | 16 => if s.inReset 12 (some r.unit) then s else s.blockReset 12 (some r.unit) false true
  | 22 => s1.loseLane (n - 21) r.unit
  | 24 => s1.resetApg r.unit st
  | 25 => s1.resetEngine r.unit st
  | 30 => match (s.fslot r.unit).phys with
    | some c => if s.inReset 12 (some c) then s else s.blockReset 12 (some c) false true
    | none => s
  | _ => if 29 ≤ n || s.inReset n none then s else s.blockReset n none false true

/-- The non-maskable trap (R635). -/
def State.trap (s : State) (src : Nat) : State :=
  let s1 := s.setReg (F.FLT_TRAP_TRAP.off []) (s.reg (F.FLT_TRAP_TRAP.off []) ||| BitVec.ofNat 64 (2 ^ src))
  (if s1.rb F.PADDOCK_WARDEN_VALID then s1.setFlags (s1.rf F.PADDOCK_WARDEN_TASK_ID) 0x200 else s1).msi 0

/-- A FAULT event (R647). -/
def State.faultEvent (s : State) (r : Report) (applied : Nat) : State :=
  if s.hasColl then
    s.queueEvent { typ := 7, b2 := r.src, b3 := 1, aux := applied, p0 := s.recWord r.src 1, p1 := s.recWord r.src 2, p2 := r.t }
  else
    s.queueEvent { typ := 7, b2 := r.src, b3 := 1, aux := applied + 2 ^ 8, p1 := { r with id := 0xFFFFFFFF }.unitWord 0, p2 := r.t }

/-- One occurrence is latched and its reactions act (R630, R634, R637): S, F, B, I and N, then C. `first` says that I and N act, `react` is
the reaction field in force. -/
def State.react (s : State) (r : Report) (inj first : Bool) (react : Nat) : State :=
  let n (b : Nat) : Bool := react.testBit b
  let applied := (react &&& 0x3C) ||| (if first then react &&& 3 else 0)
  let s1 := if n 5 then s.engage r.src inj else s
  let s2 := if n 4 then { s1 with collector := { s1.collector with holds := s1.collector.holds ||| 2 ^ r.src } } else s1
  let s3 := if n 2 && r.island ≠ 29 then s2.resetNamed r else s2
  let s4 := if first && n 0 then s3.faultEvent r applied else s3
  let s5 := if first && n 1 then s4.trap r.src else s4
  let s6 := s5.log 2 (leBytes 1 r.src ++ leBytes 1 r.island ++ leBytes 1 r.unit ++ leBytes 1 r.detail ++ leBytes 1 applied ++
    leBytes 1 (b2n inj) ++ leBytes 8 (if s5.hasColl then s5.recWord r.src 1 else r.where))
  if n 3 then (s6.at (r.t + 10000)).chipReset 4 else s6

/-- A fault is latched (R630, R634, R639, R646); in Lull it wakes the chip (R664). `mask` is RMASK of an injection. -/
def State.latchFault (s00 : State) (r : Report) (inj : Bool) (mask : Nat) : State :=
  let s0 := s00.wakeChip 7
  let react := if inj then s0.reactOf r.src &&& mask else s0.reactOf r.src
  let s1 := if inj then s0 else
    { s0 with life := { s0.life with faults := s0.life.faults.modify r.src (fun n => satAdd 32 n 1) } }
  let fresh := !s1.rb F.ISL_FLT_EVT [r.island]
  let s2 := s1.islandLatch r
  if !s2.hasColl then
    let s3 := s2.react r inj fresh react
    if fresh && !react.testBit 0 then s3.faultEvent r (react &&& 0x3F) else s3
  else
    let set := (s2.reg (F.FLT_STAT_STAT.off [])).toNat.testBit r.src
    let wasReal := (s2.recFlags r.src).testBit 1
    let s3 := if inj then s2 else s2.incRf F.FLT_CNT_COUNT [r.src]
    let s4 := if set then s3.recMore r.src inj
      else (s3.setReg (F.FLT_STAT_STAT.off []) (s3.reg (F.FLT_STAT_STAT.off []) ||| BitVec.ofNat 64 (2 ^ r.src))).capture r inj
    s4.react r inj (!set || (!inj && !wasReal)) react

/-! ### Commands -/

/-- Sources that are conditions (R628). -/
def isCondition (src : Nat) : Bool := [0, 1, 2, 3, 5, 6, 7, 10, 13, 20].contains src

/-- The work whose data an SRAM or crossing fault corrupted ends with HW_FAULT (R645): in a cluster the logical slice, in the flow-core
complex the task, in a memory channel the logical slice that fetches from it, in the filter engines the acquisition of a chain, in the
APG island the bursts of a unit, as `work` names it. What a link, the host island or Tether carries is protected on its way. -/
def State.corrupted (s : State) (island work : Nat) : State :=
  if island < 12 then s.endNow (4 * island + work % 4) St.hwFault
  else if island = 12 then s.endTask work St.hwFault 0
  else if island < 21 then (if (s.fetchers (island - 13)).contains work then s.endNow work St.hwFault else s)
  else if island = 26 then s.stopAcqs (2 ^ work) St.hwFault
  else if island = 27 then s.endApgBursts work St.hwFault
  else s

/-- FAULT_LATCH (R629, R630): the first report that matches, or an occurrence that no modelled unit reports; a condition that is live already has
no new onset. For sources 27 and 29, which
meet no memory access, `addr` names the work whose data was corrupted. -/
def doFaultLatch (src island unit detail addr : Nat) (s : State) : State :=
  if 32 ≤ src || 30 ≤ island then s
  else
    let p (r : Report) : Bool := r.src = src && r.island = island && r.unit = unit && r.detail = detail
    match s.collector.reports.find? p with
    | some r =>
      { s with collector := { s.collector with reports := s.collector.reports.erase r } }.latchFault r r.inj (s.rf F.FLT_INJ_CTL_RMASK)
    | none =>
     if isCondition src && s.collector.live.contains (src, island, unit) then s
     else
      let s1 := if isCondition src then s.condOn src island unit else s
      let sram : Bool := src = 27 || src = 29
      let s2 := if sram then s1.corrupted island addr else s1
      let a := if sram then 0 else addr % 2 ^ 40
      let (k, id, off) := if a = 0 then (0, 0xFFFFFFFF, 0) else s2.translate a
      let s3 := if src = 12 && island < 12 then s2.endNow (4 * island + unit) St.hwFault else s2
      s3.latchFault { src := src, island := island, unit := unit, detail := detail, t := s.dtime, addr := a, idkind := k, id := id
                      off := off } false 0

/-- FAULT_STATUS_CLEAR (R630, R636): status bits clear, records are not valid, F holds end. -/
def doFaultStatusClear (v : W64) (s : State) : State :=
  if !s.hasColl then s
  else
    let s1 := s.writeFields (F.FLT_STAT_STAT.off []) v
    let s2 := (bitList 64 v.toNat).foldl (fun s k => s.setRecWord k 2 (setBits (s.recWord k 2) 24 1 0)) s1
    { s2 with collector := { s2.collector with holds := s2.collector.holds - (s2.collector.holds &&& v.toNat) } }

/-- A write of FLT_INJ_CTL (R637, R638, R651): CANCEL, then GO. -/
def State.writeInject (s : State) (v : W64) : State :=
  if !s.hasColl then s
  else
    let s1 := s.writeFields (F.FLT_INJ_CTL_GO.off []) v
    let s2 := if fget v 6 1 = 1 then { s1 with collector := { s1.collector with armed := none } } else s1
    let src := fget v 0 6
    let a := s2.rf F.FLT_INJ_ADDR_ADDR / 64 * 64
    let m := a / 2 ^ 36
    if fget v 7 1 = 0 then s2
    else if s2.collector.armed.isSome then s2.setRf F.FLT_INJ_STAT_REJECT [] 1
    else if fget v 32 1 = 0 then
      if 32 ≤ src || 30 ≤ fget v 8 5 then s2.setRf F.FLT_INJ_STAT_REJECT [] 1
      else (s2.incRf F.FLT_INJ_STAT_COUNT []).latchFault { src := src, island := fget v 8 5, unit := fget v 16 8, detail := 0, t := s2.dtime }
        true (fget v 24 6)
    else if (src ≠ 18 && src ≠ 19) || !s2.mcLive m || s2.chanSize m ≤ a % 2 ^ 36 then s2.setRf F.FLT_INJ_STAT_REJECT [] 1
    else { s2 with collector := { s2.collector with armed := some (a, src = 19) } }

/-- FAULT_INJECTION (R637). -/
def doFaultInjection (v : W64) (s : State) : State := s.writeInject v

/-- ADDRESS_INJECTION (R638). -/
def doAddressInjection (v : W64) (s : State) : State := s.writeInject v

/-- CANCEL (R638). -/
def doInjCancel (v : W64) (s : State) : State := s.writeInject v

/-- ENGAGE (R641, R652): a write of BALLAST_CTL. -/
def doBallastEngageWrite (v : W64) (s : State) : State :=
  let s1 := s.writeFields (F.BALLAST_CTL_ENGAGE.off []) v
  if fget v 0 1 = 0 then s1
  else (s1.engage 31 false).latchFault { src := 31, island := 29, unit := 0, detail := 0, t := s1.dtime } false 0

/-- COLLECTOR_SELF_CHECK (R640): no register of the model differs from its shadow; a check that passes ends the condition. A mismatch
reaches the collector as source 0 at FAULT_LATCH. -/
def doCollectorSelfCheck (t : Nat) (s : State) : State := (s.at t).condOff 0 29 0

/-- FAULT_LATCH. -/
def execFaultLatch (src island unit detail addr : Nat) (s : State) : Host.Outcome State Fault Refusal :=
  .next (doFaultLatch src island unit detail addr s)
/-- FAULT_STATUS_CLEAR. -/
def execFaultStatusClear (v : W64) (s : State) : Host.Outcome State Fault Refusal :=
  .next (s.busWrite (F.FLT_STAT_STAT.off []) (doFaultStatusClear v))
/-- FAULT_INJECTION. -/
def execFaultInjection (v : W64) (s : State) : Host.Outcome State Fault Refusal :=
  .next (s.busWrite (F.FLT_INJ_CTL_GO.off []) (doFaultInjection v))
/-- ADDRESS_INJECTION. -/
def execAddressInjection (v : W64) (s : State) : Host.Outcome State Fault Refusal :=
  .next (s.busWrite (F.FLT_INJ_CTL_GO.off []) (doAddressInjection v))
/-- CANCEL. -/
def execInjCancel (v : W64) (s : State) : Host.Outcome State Fault Refusal :=
  .next (s.busWrite (F.FLT_INJ_CTL_GO.off []) (doInjCancel v))
/-- ENGAGE. -/
def execBallastEngageWrite (v : W64) (s : State) : Host.Outcome State Fault Refusal :=
  .next (s.busWrite (F.BALLAST_CTL_ENGAGE.off []) (doBallastEngageWrite v))
/-- COLLECTOR_SELF_CHECK. -/
def execCollectorSelfCheck (t : Nat) (s : State) : Host.Outcome State Fault Refusal := .next (doCollectorSelfCheck t s)

end Sys2Proof.Machine
end

