-- ==== Sys2Proof/Machine/HostCmds.lean ====
section
/-! DEFINITION. The host interface's own commands (14_host_rings.md): NOP, fences, fetches, events, ring setup, doorbells, resets of the
host island, the PCIe link. -/

namespace Sys2Proof.Machine

/-! ### Descriptors (R492, R503-R505) -/

/-- NOP (R492). -/
def doNop (sq idx : Nat) (s : State) : State :=
  s.withDesc sq idx 0x00 (fun d => s.finish sq idx (if zeroes d.bytes 16 48 then St.ok else St.bad))

/-- The descriptors of a ring that were accepted before the one at a place. -/
def State.earlier (s : State) (sq idx : Nat) : List Desc :=
  (s.host.inflight.takeWhile (fun d => !(d.sq = sq && d.idx = idx))).filter (fun d => d.sq = sq)

/-- FENCE_RELEASE (R505). -/
def doFenceRelease (sq idx : Nat) (s : State) : State :=
  if (s.earlier sq idx).isEmpty then s.upDesc sq idx (fun d => { d with released := true }) else s

/-- How many entries one fetch from ring k takes (R503, R504): consecutive ones, at most eight. -/
def State.fetchRoom (s : State) (k : Nat) : Nat :=
  let r := s.ring k
  let n := s.ringSize k
  let q := s.cqOf k
  min (min 8 ((r.tail + n - r.head) % n)) (min (n - r.head)
    (min (s.rf F.HOST_CTL_INFLIGHT_MAX - s.host.inflight.length) (s.ringFree q - s.reserved q)))

/-- DESCRIPTOR_FETCH (R503, R504, R510): nothing unless ring k is the one served next. -/
def doDescriptorFetch (k : Nat) (entries : List (List Byte)) (ok : Bool) (s : State) : State :=
  if s.served ≠ some k || s.power.lull ≠ 0 then s
  else if !ok || !s.host.pci.busMaster then (s.ringFails k 2).noteMet
  else
    let s1 := s.upRing k (fun r => { r with metSince := none })
    let s2 := (entries.take (s.fetchRoom k)).foldl (fun s b => s.acceptDesc k (padTo b 64)) s1
    { s2 with host := { s2.host with lastServed := k } }.noteMet

/-! ### Events and messages (R499, R507) -/

/-- A task whose TASK_END is posted is gone, and ABORT_TASK descriptors that wait for it complete (R451, R468). -/
def State.taskGone (s : State) (tid : Nat) : State :=
  match s.task tid with
  | some x =>
    if x.state = 5 && x.posted then
      x.aborter.foldl (fun s d => s.finish d.1 d.2 St.ok) { s with paddock := { s.paddock with tasks := kDel s.paddock.tasks tid } }.placementChanged
    else s
  | none => s

/-- EVENT_POST (R499, R510): the first event in the queue that goes to ring k. -/
def doEventPost (k : Nat) (s : State) : State :=
  match s.host.evq.find? (fun e => s.evRoute e.typ = some k) with
  | none => s.refill
  | some e =>
    if s.ringErr k || s.ringFree k = 0 then s
    else if !s.host.pci.busMaster then s.ringFails k 3
    else
      let s1 := { s with host := { s.host with evq := s.host.evq.erase e } }.ringWrite k e.bytes 1 false
      (if e.typ = 1 then s1.taskGone (e.p0 % 2 ^ 16) else s1).refill

/-- IRQ_TIMER_EXPIRY (R507). -/
def doIrqTimerExpiry (k t : Nat) (s : State) : State :=
  if s.rb F.RINGK_CFG_IRQ_EN [k] && (s.ring k).due.any (fun d => d ≤ t) then (s.at t).ringMsg k else s

/-! ### Ring setup (R486, R508, R509) -/

/-- The bits of RING_k_CFG that apply to a ring's role (R514). -/
def roleBits (k : Nat) : Nat :=
  0x3F ||| if k < 32 then 0xF0700 else if k < 48 then 0x7F000000 else 0x1FFE7F000000

/-- The bits that a write while EN is 1 changes, beside EN (R486). -/
def liveBits : Nat := 0x1FFE7F000000

/-- Ring k is enabled, or refused (R486). -/
def State.ringOpen (s : State) (k : Nat) : State :=
  if k < 32 && !s.ringOn (s.cqOf k) then s.hostErr 4
  else
    let s1 := ((s.setRf F.RINGK_CFG_EN [k] 1).setRf F.RING_COUNT_ENTRIES [k] 0).upRing k (fun _ => { phase := 1 })
    if 48 ≤ k then s1.refill else s1

/-- Ring k is disabled (R508). -/
def State.ringShut (s : State) (k : Nat) : State :=
  if k < 32 then s.setRf F.RINGK_CFG_EN [k] 0
  else if k < 48 then (s.upRing k (fun r => { r with closing := true })).closeRing k
  else (s.setRf F.RINGK_CFG_EN [k] 0).reroute

/-- A write of RING_k_CFG (R486, R508, R514). -/
def State.writeRingCfg (s : State) (k : Nat) (v : W64) : State :=
  if !s.bootDone || 64 ≤ k then s
  else
    let off := F.RINGK_CFG_EN.off [k]
    let old := (s.reg off).toNat
    let on := s.ringOn k
    let m := (if on then roleBits k &&& liveBits else roleBits k) &&& 0xFFFFFFFFFFFFFFFE
    let s1 := s.writeFields off (BitVec.ofNat 64 ((old - (old &&& m)) ||| (v.toNat &&& m)))
    let s2 : State :=
      if fget v 0 1 = 1 then if on then (if 48 ≤ k then s1.reroute else s1) else s1.ringOpen k
      else if on then s1.ringShut k else s1
    s2.noteMet

/-- RING_ENABLE (R486). -/
def doRingEnable (k : Nat) (v : W64) (s : State) : State := s.writeRingCfg k v

/-- RING_DISABLE (R508). -/
def doRingDisable (k : Nat) (v : W64) (s : State) : State := s.writeRingCfg k v

/-- RING_RESET (R509). -/
def doRingReset (k : Nat) (v : W64) (s : State) : State :=
  if !s.bootDone || 64 ≤ k || fget v 0 1 = 0 then s else (s.resetRing k).noteMet

/-- A doorbell (R500, R510): a new TAIL for a submission ring, a new HEAD for another. A doorbell also wakes the chip (R664). -/
def State.doorbell (z : State) (k : Nat) (v : W64) : State :=
  let s0 := z.hostAccess
  if !s0.bootDone || 64 ≤ k then s0
  else
    let s := s0.wakeChip 2
    let w := fget v 0 32
    let r := s.ring k
    let n := s.ringSize k
    if !s.ringOn k || s.ringErr k then s.hostErr 1 (some k)
    else
      let cur := if k < 32 then r.tail else r.head
      let good : Bool := w < n && (if k < 32 then (r.tail + n - r.head) % n ≤ (w + n - r.head) % n
        else (r.tail + n - w) % n ≤ (r.tail + n - r.head) % n)
      if w = cur then s
      else if !good then (s.ringFails k 1).noteMet
      else (s.upRing k (fun r => if k < 32 then { r with tail := w } else { r with head := w })).noteMet

/-- SUBMISSION_DOORBELL (R500). -/
def doSubmissionDoorbell (k : Nat) (v : W64) (s : State) : State := if k < 32 then s.doorbell k v else s

/-- HEAD_DOORBELL (R500). -/
def doHeadDoorbell (k : Nat) (v : W64) (s : State) : State := if 32 ≤ k then s.doorbell k v else s

/-! ### The PCIe link (R481-R483, R511) -/

/-- HOST_ISLAND_RESET (R482, R511): kind 0 is an FLR, 1 a hot reset, 2 the loss of the link. -/
def doHostIslandReset (kind : Nat) (s : State) : State :=
  let s1 := (s.leaveLull.incRf F.RST_STAT_BLOCK_COUNT []).hostReset (kind = 0) St.aborted
  if kind = 2 then s1.report 23 25 0 2 else s1

/-- PCIE_LINK_UP (R481, R483, R506, R511): the link has trained; `cfg` is what the host then configures. Messages that were held pending are
sent once MSI-X is enabled and their vector is not masked. -/
def doPcieLinkUp (gen width : Nat) (cfg : PcieCfg) (s : State) : State :=
  if gen = 0 || 4 < gen || !(width = 1 || width = 2 || width = 4) || !s.rst.pwrgood && s.rst.due then s
  else { s with host := { s.host with linkUp := true, speed := gen, width := width, pci := cfg } }.msiFlush

/-! ### Commands -/

/-- NOP. -/
def execNop (sq idx : Nat) (s : State) : Host.Outcome State Fault Refusal := .next (doNop sq idx s)
/-- FENCE_RELEASE. -/
def execFenceRelease (sq idx : Nat) (s : State) : Host.Outcome State Fault Refusal := .next (doFenceRelease sq idx s)
/-- DESCRIPTOR_FETCH. -/
def execDescriptorFetch (k : Nat) (entries : List (List Byte)) (ok : Bool) (s : State) : Host.Outcome State Fault Refusal :=
  .next (doDescriptorFetch k entries ok s)
/-- EVENT_POST. -/
def execEventPost (k : Nat) (s : State) : Host.Outcome State Fault Refusal := .next (doEventPost k s)
/-- IRQ_TIMER_EXPIRY. -/
def execIrqTimerExpiry (k t : Nat) (s : State) : Host.Outcome State Fault Refusal := .next (doIrqTimerExpiry k t s)
/-- RING_ENABLE. -/
def execRingEnable (k : Nat) (v : W64) (s : State) : Host.Outcome State Fault Refusal :=
  .next (s.busWrite (F.RINGK_CFG_EN.off [k]) (doRingEnable k v))
/-- RING_DISABLE. -/
def execRingDisable (k : Nat) (v : W64) (s : State) : Host.Outcome State Fault Refusal :=
  .next (s.busWrite (F.RINGK_CFG_EN.off [k]) (doRingDisable k v))
/-- RING_RESET. -/
def execRingReset (k : Nat) (v : W64) (s : State) : Host.Outcome State Fault Refusal :=
  .next (s.busWrite (F.RING_CTL_RESET.off [k]) (doRingReset k v))
/-- SUBMISSION_DOORBELL. -/
def execSubmissionDoorbell (k : Nat) (v : W64) (s : State) : Host.Outcome State Fault Refusal := .next (doSubmissionDoorbell k v s)
/-- HEAD_DOORBELL. -/
def execHeadDoorbell (k : Nat) (v : W64) (s : State) : Host.Outcome State Fault Refusal := .next (doHeadDoorbell k v s)
/-- HOST_ISLAND_RESET. -/
def execHostIslandReset (kind : Nat) (s : State) : Host.Outcome State Fault Refusal := .next (doHostIslandReset kind s)
/-- PCIE_LINK_UP. -/
def execPcieLinkUp (gen width : Nat) (cfg : PcieCfg) (s : State) : Host.Outcome State Fault Refusal := .next (doPcieLinkUp gen width cfg s)

end Sys2Proof.Machine
end

