-- ==== Sys2Proof/Machine/Windsock.lean ====
section
/-! DEFINITION. Windsock (R669-R677): supply dips and pauses, supply resets, temperature and process sensors. -/

namespace Sys2Proof.Machine

/-! ### Dips (R671-R673) -/

/-- Every slice of a burst has ended. -/
def State.allEnded (s : State) (e : Ent) : Bool := (s.entSlices e).all (fun g => (s.sl g).seq.endAt.isSome)

/-- What was active at some time of a dip from DTIME a to b carries VDIP (R673). -/
def State.markDip (s : State) (a b : Nat) : State :=
  let hit (x : Burst) : Bool := x.running && x.startStamp ≤ b && (!s.allEnded x.ent || a ≤ s.endTime x.ent)
  let bs : List Burst := s.bursts.map (fun x => if hit x then { x with qual := x.qual ||| 8 } else x)
  let on (x : Acq) : Bool := x.startAt ≤ b && (x.running || x.stopAt.any (fun p => x.startAt ≤ p.2 && a ≤ p.2))
  let acs : List Acq := s.acqs.map (fun x => if on x then { x with qual := x.qual ||| 8 } else x)
  let ms : List Meter := s.meters.map (fun m => if 2 ≤ m.state && m.arm ≤ b then { m with dip := true } else m)
  { s with bursts := bs, acqs := acs, meters := ms }

/-- The reading of rail r at an event: no command supplies it. -/
def State.railReading (s : State) : Nat := Config.freeValue s.freeCtr % 2 ^ 16

/-- What every warning of rail r brings (R671, R672): SUPPLY_WARN, VWARN, the event, a wake. -/
def State.railWarns (s : State) (r aux : Nat) : State :=
  let s1 := ((s.onset 5 29 r 1).orRf F.WS_VSTAT_VWARN [] (2 ^ r)).health 1 r aux
  s1.wakeChip 8

/-- RAIL_BELOW_WARNING (R671, R672): `first` is the DTIME of the first reading below WARN_LO. -/
def doRailBelowWarning (r first t : Nat) (s0 : State) : State :=
  if 14 ≤ r || s0.power.below.testBit r || t < first + s0.rf F.WS_CTL_GLITCH_NS then s0
  else
    let s := s0.at t
    let p := s.power
    let s1 := { s with power := { p with below := p.below ||| 2 ^ r, dips := p.dips ++ [(r, first)], pause := true } }
    let s2 := (s1.markDip first t).incRf F.WS_VSTAT_DIPS []
    s2.draw.railWarns r s2.railReading

/-- RAIL_ABOVE_WARNING (R671, R672): `first` is the DTIME of the first reading at or above WARN_LO, which ends the dip. For a rail that was
above WARN_HI, the warning ends. -/
def doRailAboveWarning (r first lowest t : Nat) (s0 : State) : State :=
  if 14 ≤ r || t < first + s0.rf F.WS_CTL_GLITCH_NS then s0
  else
    let s := s0.at t
    let p := s.power
    match p.dips.find? (fun d => d.1 = r) with
    | none => s.condOff 5 29 r
    | some d =>
      let s1 := (s.markDip d.2 first).condOff 5 29 r
      let below := p.below - (p.below &&& 2 ^ r)
      let since := if below = 0 then s.dtime else p.aboveSince
      { s1 with power := { p with below := below, dips := p.dips.filter (fun x => x.1 ≠ r), aboveSince := since } }.health 2 r lowest d.2 first

/-- RAIL_ABOVE_HIGH (R671): the warning events, without a dip and without a pause. -/
def doRailAboveHigh (r level t : Nat) (s : State) : State :=
  if 14 ≤ r || level ≤ s.rf F.WS_RAIL_THR_WARN_HI [r] then s else (s.at t).railWarns r level

/-- SUPPLY_PAUSE_END (R672): admission goes on. -/
def doSupplyPauseEnd (t : Nat) (s : State) : State :=
  if s.power.pause && s.power.below = 0 && s.power.aboveSince + 1000 * s.rf F.WS_CTL_HOLD_US ≤ t then
    { s.at t with power := { s.power with pause := false } }.scan
  else s

/-- SUPPLY_RESET (R674): rail 13 resets as COLD, any other as PIN; the BROWNOUT record waits for boot. -/
def doSupplyReset (r lowest t : Nat) (s0 : State) : State :=
  if 14 ≤ r || s0.rf F.WS_RAIL_THR_RESET_LO [r] ≤ lowest then s0
  else
    let s := s0.at t
    let s1 := if r = 13 then s.coldReset 6 else s.pinReset 5
    let p := s1.power
    { s1 with
      rst := { s1.rst with brownout := some (r, lowest) }
      power := { p with below := p.below ||| 2 ^ r, dips := if p.dips.any (fun d => d.1 = r) then p.dips else p.dips ++ [(r, t)] } }

/-! ### Temperature and process sensors (R669, R675) -/

/-- Sensor k reads v: the source follows its threshold with 2 °C of hysteresis, and its event is posted at the onset. -/
def State.threshold (s : State) (src sub k : Nat) (thr v : Int) : State :=
  if thr < v then
    if s.collector.live.contains (src, 29, k) then s
    else (s.onset src 29 k 1).health sub k (ofSigned 32 v)
  else if v ≤ thr - 32 then s.condOff src 29 k
  else s

/-- One sensor's reading (R675). -/
def State.sense (s : State) (k : Nat) (v : Int) : State :=
  let warn := toSigned 16 (s.rf F.WS_TEMP_THR_WARN)
  let crit := toSigned 16 (s.rf F.WS_TEMP_THR_CRIT)
  let s1 := s.setRf (F.WS_TEMP_TEMP.at (k % 4)) [k / 4] (ofSigned 16 v)
  let s2 := s1.threshold 6 3 k warn v
  let s3 := if warn < v && !s1.collector.live.contains (6, 29, k) then s2.orRf F.WS_TSTAT_TWARN [] (2 ^ k) else s2
  s3.threshold 7 4 k crit v

/-- TEMP_SAMPLE (R669, R675): readings of sensors 0 to 25, 1/16 °C; those of absent clusters are not there. A TWARN wakes the chip. -/
def doTempSample (temps : List Int) (t : Nat) (s0 : State) : State :=
  let s := s0.at t
  let new : Bool := s.sensors.any (fun k => toSigned 16 (s.rf F.WS_TEMP_THR_WARN) < temps.getD k 0 && !s.collector.live.contains (6, 29, k))
  let s1 := s.sensors.foldl (fun s k => match temps[k]? with
    | some v => s.sense k v
    | none => s) s
  if new then s1.wakeChip 8 else s1

/-- Process readings enter their registers. -/
def State.setProcs (s : State) (freqs : List Nat) : State :=
  (List.range s.nCl).foldl (fun s n => match freqs[n]? with
    | some v => s.setRf (F.WS_PROC_FREQ.at (n % 4)) [n / 4] v
    | none => s) s

/-- PROCESS_SAMPLE (R669): readings of clusters 0 to 11, 100 kHz. -/
def doProcessSample (freqs : List Nat) (t : Nat) (s : State) : State := (s.at t).setProcs freqs

/-! ### Commands -/

/-- RAIL_BELOW_WARNING. -/
def execRailBelowWarning (r first t : Nat) (s : State) : Host.Outcome State Fault Refusal := .next (doRailBelowWarning r first t s)
/-- RAIL_ABOVE_WARNING. -/
def execRailAboveWarning (r first lowest t : Nat) (s : State) : Host.Outcome State Fault Refusal :=
  .next (doRailAboveWarning r first lowest t s)
/-- RAIL_ABOVE_HIGH. -/
def execRailAboveHigh (r level t : Nat) (s : State) : Host.Outcome State Fault Refusal := .next (doRailAboveHigh r level t s)
/-- SUPPLY_PAUSE_END. -/
def execSupplyPauseEnd (t : Nat) (s : State) : Host.Outcome State Fault Refusal := .next (doSupplyPauseEnd t s)
/-- SUPPLY_RESET. -/
def execSupplyReset (r lowest t : Nat) (s : State) : Host.Outcome State Fault Refusal := .next (doSupplyReset r lowest t s)
/-- TEMP_SAMPLE. -/
def execTempSample (temps : List Int) (t : Nat) (s : State) : Host.Outcome State Fault Refusal := .next (doTempSample temps t s)
/-- PROCESS_SAMPLE. -/
def execProcessSample (freqs : List Nat) (t : Nat) (s : State) : Host.Outcome State Fault Refusal := .next (doProcessSample freqs t s)

end Sys2Proof.Machine
end

