-- ==== Sys2Proof/Machine/Failures.lean ====
section
/-! DEFINITION. Failures of slices, channels, capture engines and filter chains (R86-R89, R687, R688): spares, retirement, the sites that
move or become blocked. -/

namespace Sys2Proof.Machine

/-- A fault is reported whose DETAIL, 1 or 2, the unit's own check decides. -/
def State.reportEither (s : State) (src island unit : Nat) : State :=
  s.draw.report src island unit (1 + Config.freeValue s.freeCtr % 2)

/-- The bursts that run on a logical slice, or wait for it, end with HW_FAULT: the slice at once, the other slices of its site at their stop
vectors (R84, R87, R164, R179). -/
def State.sliceBursts (s : State) (g : Nat) (queued : Bool) : State :=
  match (s.sl g).ent with
  | none => s
  | some e => match s.burst e with
    | some b => if b.admitted then s.endNow g St.hwFault else if queued then s.stopBurst e St.hwFault else s
    | none => s

/-- The unused spare of cluster n (R86). -/
def State.spareSlice (s : State) (n : Nat) : Option Nat :=
  (List.range 5).find? (fun p => !(s.cl n).physBad.contains p && !(List.range 4).any (fun i => (s.sl (4 * n + i)).phys = some p))

/-- SLICE_FAILURE (R86, R179). -/
def doSliceFailure (n p : Nat) (s : State) : State :=
  if s.nCl ≤ n || 5 ≤ p || (s.cl n).physBad.contains p then s
  else
    let s1 := (s.reportEither 8 n p).upCl n (fun c => { c with physBad := c.physBad ++ [p] })
    match ((List.range 4).map (fun i => 4 * n + i)).find? (fun g => (s1.sl g).phys = some p) with
    | none => s1
    | some g => match s1.spareSlice n with
      | some q =>
        let s2 := (((s1.sliceBursts g false).upSl g (fun z => { z with phys := some q })).placementChanged.spared 1 n p q)
        { s2 with life := { s2.life with spareSlices := s2.life.spareSlices.modify n (· + 1) } }
      | none => (s1.sliceBursts g true).retireSlice g

/-- CAPTURE_ENGINE_FAILURE (R687). -/
def doCaptureEngineFailure (n : Nat) (s : State) : State :=
  if s.nCl ≤ n then s
  else
    let gs := ((List.range 4).map (fun i => 4 * n + i)).filter (fun g => !(s.sl g).retired)
    gs.foldl (fun s g => (s.sliceBursts g true).retireSlice g) (s.reportEither 11 n 0)

/-- Sites that need a retired channel or chain become blocked, once their burst has ended; a queued burst is denied; of a group the member
alone (R88, R89). -/
def State.blockNeeding (s : State) (p : Site → Bool) : State :=
  ((s.sites.map (·.2)).filter (fun x => p x && !x.blocked)).foldl (fun s x => match x.group with
    | none =>
      let e := Ent.site x.id
      let s1 := if (s.burst e).any (fun b => !b.admitted) then s.stopBurst e St.blocked else s
      s1.settleSlices e
    | some g =>
      let s1 := (s.stickMember g x.id).upSite x.id (fun y => { y with blocked := true })
      x.clusters.foldl (fun s n => s.inertChans n (x.local n)) s1) s

/-- Channel c of cluster n is retired (R89, R687, R688). -/
def State.retireChan (s : State) (n c : Nat) : State :=
  let s1 := s.upCl n (fun k => { k with chans := k.chans.modify c (fun x => { x with retired := true }) })
  (s1.blockNeeding (fun x => (x.local n).testBit c)).degrade 3 n c

/-- CHANNEL_FAILURE (R89). -/
def doChannelFailure (n c : Nat) (s : State) : State :=
  if s.nCl ≤ n || 16 ≤ c || ((s.cl n).chans.getD c {}).retired then s else (s.reportEither 9 n c).retireChan n c

/-- Filter chain k is retired. -/
def State.retireChain (s : State) (k : Nat) : State :=
  let s1 := { s with chainsBad := s.chainsBad ++ [k] }
  let s2 := s1.setRf F.CAPS_LIVE_LIVE_FCHAINS [] (s1.rf F.CAPS_LIVE_LIVE_FCHAINS - 1)
  (s2.blockNeeding (fun x => x.chain.testBit k)).degrade 4 26 k

/-- FILTER_CHAIN_FAILURE (R89): the acquisition that runs on the chain ends with HW_FAULT. -/
def doFilterChainFailure (k : Nat) (s : State) : State :=
  if s.nChain ≤ k || s.chainsBad.contains k then s
  else ((s.report 25 26 (k / 12) 1).stopAcqs (2 ^ k) St.hwFault).retireChain k

/-! ### Commands -/

/-- SLICE_FAILURE. -/
def execSliceFailure (n p : Nat) (s : State) : Host.Outcome State Fault Refusal := .next (doSliceFailure n p s)
/-- CAPTURE_ENGINE_FAILURE. -/
def execCaptureEngineFailure (n : Nat) (s : State) : Host.Outcome State Fault Refusal := .next (doCaptureEngineFailure n s)
/-- CHANNEL_FAILURE. -/
def execChannelFailure (n c : Nat) (s : State) : Host.Outcome State Fault Refusal := .next (doChannelFailure n c s)
/-- FILTER_CHAIN_FAILURE. -/
def execFilterChainFailure (k : Nat) (s : State) : Host.Outcome State Fault Refusal := .next (doFilterChainFailure k s)

end Sys2Proof.Machine
end

