-- ==== Sys2Proof/Machine/Clocks.lean ====
section
/-! DEFINITION. Clocks, the calendar and the pins that have commands of their own (02_clock_islands_and_time.md; R362, R738, R739). -/

namespace Sys2Proof.Machine

/-! ### TREF (R51-R56) -/

/-- Crystal cycles within the second (R58, R59, R62): those counted, and those of the time since, of 1,953,125 sixty-fourths of a nanosecond
each where DTIME itself counts the crystal, else at the crystal's free rate against the time clock; 0 while the crystal is lost. -/
def State.calSubNow (s : State) : Nat :=
  let d := s.dtime - s.clk.subAt
  let n := if s.clk.pll then d * Config.crystalRate / 10 ^ 18 else (64 * d + s.dfrac) / 1953125
  if s.clk.xtal then min 32767 (s.clk.calSub + n) else 0

/-- The cycles counted so far are noted, before the clock that advances DTIME changes. -/
def State.foldSub (s : State) : State := { s with clk := { s.clk with calSub := s.calSubNow, subAt := s.dtime } }

/-- DTIME_STAT.COARSE (R52, R61): noted, or DTIME has advanced from the crystal since it was last cleared. -/
def State.coarse (s : State) : Bool := s.rb F.DTIME_STAT_COARSE || (!s.clk.pll && s.clk.coarseFrom < s.dtime)

/-- Neither TREF nor the crystal counts from here on (R59). -/
def State.goDark (s : State) : State :=
  if !s.clk.pll && !s.clk.xtal && s.clk.darkSince.isNone then { s with clk := { s.clk with darkSince := some s.dtime } } else s

/-- One of the two clocks counts again at time t: the interval is recorded as unaccounted; DTIME has not advanced in it (R59). -/
def State.endDark (s : State) (t : Nat) : State :=
  match s.clk.darkSince with
  | none => s.at t
  | some d =>
    let n := t - d
    let s1 := { s with clk := { s.clk with darkSince := none, subAt := s.dtime }, life := { s.life with unaccounted := s.life.unaccounted + n / 1000000000 } }
    s1.log 8 (leBytes 8 d ++ leBytes 8 n)

/-- Work that needs TREF ends with HW_FAULT, and every output goes inert (R56, R252). -/
def State.trefEnds (s : State) : State :=
  let s1 := (List.range s.nCl).foldl (fun s n => s.inertChans n 0xFFFF) s
  let s2 := s1.cutBursts St.hwFault
  let s3 := (List.range 48).foldl (fun s k => s.stopMeas k St.hwFault) s2
  (s3.stopAcqs 0xFFFFFF St.hwFault).calStopAll (fun _ => true) St.hwFault { cut := true, restore := true }

/-- What TREF_LOSS does at once (R56): TREF and the lock are gone, admission holds, the loss is noted and counted. -/
def State.trefLost (s : State) (t : Nat) : State :=
  let s0 := (s.at t).foldSub
  let s1 := { s0 with clk := { s0.clk with tref := false, pll := false, trefHold := true, coarseFrom := s0.dtime } }
  ((s1.setRf F.DTIME_STAT_COARSE [] 1).setRf F.CLK_STAT_TREF_LOST [] 1).incRf F.CLK_STAT_TREF_LOSS_COUNT []

/-- The condition of source 1 begins (R628). -/
def State.trefFault (s : State) : State :=
  if s.collector.live.contains (1, 29, 0) then s else (s.condOn 1 29 0).reportEither 1 29 0

/-- TREF_LOSS (R56, R602). -/
def doTrefLoss (t : Nat) (s : State) : State :=
  if !s.clk.tref then s
  else
    let s1 := s.trefLost t
    let s2 := if s1.pair.role = 1 then s1.releaseRole else s1
    s2.trefEnds.trefFault.goDark

/-- PLL_RELOCK (R52): DTIME counts on from the value reached. The fraction of a nanosecond stays where it is and counts on at the next
loss of lock (DESIGN CHOICE, log entry 30). -/
def doPllRelock (t : Nat) (s : State) : State :=
  if s.clk.pll then s
  else
    let s1 := (s.endDark t).foldSub
    let s2 := s1.setRf F.DTIME_STAT_COARSE [] (b2n s1.coarse)
    { s2 with clk := { s2.clk with tref := true, pll := true, trefSince := s2.dtime } }.condOff 1 29 0

/-- TREF_HOLD_END (R56). -/
def doTrefHoldEnd (t : Nat) (s : State) : State :=
  if s.clk.trefHold && s.clk.tref && s.clk.trefSince + 1000000 ≤ t then { s.at t with clk := { s.clk with trefHold := false } }.scan else s

/-- REPLICA_CHECK (R53): `replica` is what the island's replica counts when the master counts t. -/
def doReplicaCheck (island replica t : Nat) (s0 : State) : State :=
  if 30 ≤ island || s0.islandAbsent island then s0
  else
    let s := s0.at t
    let d : Int := replica - t
    let set (x : Int) (s : State) : State := { s with clk := { s.clk with replicas := s.clk.replicas.set island x } }
    if -1 ≤ d && d ≤ 1 then set d s
    else (((set 0 s).setRf F.DTIME_STAT_SLIP [] 1).setRf F.DTIME_STAT_SLIP_ISLAND [] island).report 4 island 0 0

/-- A tick of the clock that advances DTIME (R51, R52): 1 ns of the time clock, or a crystal cycle of 1,953,125 sixty-fourths of
a nanosecond; with neither clock nothing advances (R59). It is what a step does when no command waits (log entry 2). -/
def State.tick (s : State) : State :=
  if s.clk.pll then { s with dtime := s.dtime + 1 }
  else if s.clk.xtal then
    let n := s.dfrac + 1953125
    { s with dtime := s.dtime + n / 64, dfrac := n % 64 }
  else s

/-! ### The calendar (R57-R59) -/

/-- CALSEC takes a value, and CAL_EPOCH_DTIME captures DTIME. -/
def State.calLoad (s : State) (sec : Nat) : State :=
  { s with clk := { s.clk with calSec := sec % 2 ^ 48, calSub := 0, subAt := s.dtime, calAt := s.dtime } }.setReg (F.CAL_EPOCH_DTIME_DTIME.off [])
    (BitVec.ofNat 64 s.dtime)

/-- CAL_SET (R57). -/
def doCalSet (v : W64) (s : State) : State := (s.calLoad (fget v 0 48)).setRf F.CALSEC_VALID [] 1

/-- CALSEC_ADVANCE (R58, R59): at a crystal second, or after 10^9 ns of DTIME while the crystal is lost. One in the crystal cycle of a load,
30,517.578125 ns, is dropped. -/
def doCalsecAdvance (t : Nat) (s : State) : State :=
  let wait := if s.clk.xtal then 30518 else 1000000000
  if !s.counts || t < s.clk.calAt + wait then s else (s.at t).calLoad (s.clk.calSec + 1)

/-- XTAL_LOSS (R59). The first 10^9 ns of DTIME count from the loss (DESIGN CHOICE, log entry 30). -/
def doXtalLoss (t : Nat) (s0 : State) : State :=
  if !s0.clk.xtal then s0
  else
    let s := s0.at t
    let s1 := { s with clk := { s.clk with xtal := false, calSub := 0, subAt := s.dtime, calAt := s.dtime } }
    ((s1.setRf F.CLK_STAT_XTAL_LOST [] 1).onset 3 29 0 0).goDark

/-- XTAL_RETURN (R59). -/
def doXtalReturn (t : Nat) (s : State) : State :=
  if s.clk.xtal then s
  else
    let s1 := s.endDark t
    { s1 with clk := { s1.clk with xtal := true, calSub := 0, subAt := s1.dtime } }.condOff 3 29 0

/-! ### Pins (R362, R664, R738, R739) -/

/-- SYNC_OUT_PULSE (R738): pin 4 of the model's record, while DTIME on the chip's time scale is a multiple of 1,048,576 ns. -/
def doSyncOutPulse (t : Nat) (s : State) : State :=
  if s.bootDone && s.clk.pll && (2000 * (t : Int) + s.ringT.xoff) / 2000 % 1048576 = 0 then (s.at t).emit (.pulse 4 t) else s

/-- TRIG_IN_EDGE (R361, R362, R373, R664): an edge on TRIG_IN_j at time t, in 250 ps ticks. -/
def doTrigInEdge (j : Nat) (rising : Bool) (t : Nat) (s0 : State) : State :=
  if 4 ≤ j then s0
  else
    let s := s0.at (t / 4)
    let event (n : Nat) : Bool := (s.rf F.CL_TRIGIN_CFG_FALL [n]).testBit j = !rising
    if s.power.lull ≠ 0 then if (s.rf F.LULL_CTL_WAKE_TRIG).testBit j && event 0 then s.wakeChip 4 else s
    else if !s.clk.tref then s
    else
      let ns := (List.range s.nCl).filter (fun n => (s.rf F.CL_TRIGIN_CFG_EN [n]).testBit j && event n && s.islUp n)
      ns.foldl (fun s n => s.raise n (44 + j) (500 * (t - s.rf (F.CL_TRIGIN_DSK_DSK.at j) [n]))) s

/-- TAP_INSTRUCTION (R739): 1 EXTEST, 2 EXTEST_PULSE, 3 EXTEST_TRAIN, which drive pins while RESET_N is low; all others drive none. -/
def doTapInstruction (code : Nat) (s : State) : State :=
  { s with rst := { s.rst with tap := if s.rst.resetLow && 1 ≤ code && code ≤ 3 then code else 0 } }

/-! ### Commands -/

/-- TREF_LOSS. -/
def execTrefLoss (t : Nat) (s : State) : Host.Outcome State Fault Refusal := .next (doTrefLoss t s)
/-- PLL_RELOCK. -/
def execPllRelock (t : Nat) (s : State) : Host.Outcome State Fault Refusal := .next (doPllRelock t s)
/-- TREF_HOLD_END. -/
def execTrefHoldEnd (t : Nat) (s : State) : Host.Outcome State Fault Refusal := .next (doTrefHoldEnd t s)
/-- REPLICA_CHECK. -/
def execReplicaCheck (island replica t : Nat) (s : State) : Host.Outcome State Fault Refusal := .next (doReplicaCheck island replica t s)
/-- CAL_SET. -/
def execCalSet (v : W64) (s : State) : Host.Outcome State Fault Refusal :=
  .next (s.busWrite (F.CAL_SET_SEC.off []) (doCalSet v))
/-- CALSEC_ADVANCE. -/
def execCalsecAdvance (t : Nat) (s : State) : Host.Outcome State Fault Refusal := .next (doCalsecAdvance t s)
/-- XTAL_LOSS. -/
def execXtalLoss (t : Nat) (s : State) : Host.Outcome State Fault Refusal := .next (doXtalLoss t s)
/-- XTAL_RETURN. -/
def execXtalReturn (t : Nat) (s : State) : Host.Outcome State Fault Refusal := .next (doXtalReturn t s)
/-- SYNC_OUT_PULSE. -/
def execSyncOutPulse (t : Nat) (s : State) : Host.Outcome State Fault Refusal := .next (doSyncOutPulse t s)
/-- TRIG_IN_EDGE. -/
def execTrigInEdge (j : Nat) (rising : Bool) (t : Nat) (s : State) : Host.Outcome State Fault Refusal := .next (doTrigInEdge j rising t s)
/-- TAP_INSTRUCTION. -/
def execTapInstruction (code : Nat) (s : State) : Host.Outcome State Fault Refusal := .next (doTapInstruction code s)

end Sys2Proof.Machine
end

