-- ==== Sys2Proof/Machine/Image.lean ====
section
/-! DEFINITION. The Atsibel image, its sections, the board table and patches, as checked before anything of them is used (R698-R704,
R710, R711). -/

namespace Sys2Proof.Machine

/-! ### The image (R698-R701) -/

/-- Section entry i. -/
def imgEntry (b : List Byte) (i : Nat) : List Byte := slice b (160 + 48 * i) 48

/-- Bytes of a section as stored. -/
def imgSect (b e : List Byte) : List Byte := slice b (fld e 4 4) (fld e 8 4)

/-- Limits on the size of a section of a type (R700). -/
def sectLimit (ty n : Nat) : Bool := match ty with
  | 1 => n ≤ 0x40000
  | 2 => n ≤ 0x10000
  | 3 => true
  | 4 => n = 8
  | _ => false

/-- A section entry alone meets R699 and R700. -/
def entryOk (size : Nat) (e : List Byte) : Bool :=
  let off := fld e 4 4
  let n := fld e 8 4
  sectLimit (fld e 0 1) n && fld e 1 1 ≤ 1 && zeroes e 2 2 && zeroes e 12 4 && zeroes e 44 4 && off % 64 = 0 && 1024 ≤ off &&
    off + n ≤ size && (fld e 1 1 = 1 || zeroes e 16 28)

/-- Two sections overlap. -/
def entryClash (e f : List Byte) : Bool := fld e 4 4 < fld f 4 4 + fld f 8 4 && fld f 4 4 < fld e 4 4 + fld e 8 4

/-- The section types of a flash image: each required one once, PATCH at most once (R700). -/
def flashTypes (ts : List Nat) : Bool := ts.count 1 = 1 && ts.count 2 = 1 && ts.count 4 = 1 && ts.count 3 ≤ 1

/-- The section types of a run-time image (R714). -/
def patchTypes (ts : List Nat) : Bool := ts.count 3 = 1 && ts.count 4 = 1 && ts.length = 2

/-- The header breaks R698 to R700: DETAIL, the section concerned, or 0. -/
def headerBreaks (b : List Byte) (types : List Nat → Bool) : Option Nat :=
  let n := fld b 6 2
  let size := fld b 8 4
  let es := (List.range n).map (imgEntry b)
  if fld b 4 2 ≠ 1 || n = 0 || 16 < n || size % 64 ≠ 0 || size < 2048 || 0x800000 < size || 3 < fld b 17 1 || !zeroes b 18 6 ||
      !zeroes b 129 31 || fld b 32 1 ≠ 4 || !zeroes b (160 + 48 * n) (48 * (16 - n)) then some 0
  else match (List.range n).find? (fun i => !entryOk size (es.getD i []) ||
      (List.range i).any (fun j => entryClash (es.getD i []) (es.getD j []))) with
    | some i => some i
    | none => if types (es.map (fun e => fld e 0 1)) then none else some 0

/-- The KEY_HASH of a slot. -/
def State.keyHash (s : State) (k : Nat) : List Byte := padTo (s.fuse.keys.getD k []) 48

/-- Items 1 to 5 of R701: the code of R705 and DETAIL, 0 where the image passes. `minver` is the least SEC_VER. -/
def State.imageFails (s : State) (b : List Byte) (types : List Nat → Bool) (minver : Nat) : Nat × Nat :=
  let k := fld b 17 1
  let key := slice b 32 97
  let msg := slice b 0 928 ++ slice b 1024 (fld b 8 4 - 1024)
  if fld b 0 4 ≠ 0x42535441 then (5, 0)
  else match headerBreaks b types with
    | some d => (6, d)
    | none =>
      if !(fld b 16 1).testBit (s.fuse.variant - 1) then (7, 0)
      else if s.fuse.revoke.testBit k || sha384 key != s.keyHash k then (8, 0)
      else if fld b 12 4 < minver then (9, 0)
      else if !Config.verifies key msg (slice b 928 96) then (0x0A, 0)
      else (0, 0)

/-- Item 6 of R701: the sections in the clear, by type, or the index of one whose tag fails. -/
def imageOpen (b : List Byte) : Except Nat (List (Nat × List Byte)) :=
  (List.range (fld b 6 2)).foldl (fun r i => match r with
    | .error e => .error e
    | .ok l =>
      let e := imgEntry b i
      if fld e 1 1 = 0 then .ok (l ++ [(fld e 0 1, imgSect b e)])
      else match Config.decrypts (slice e 0 16) (slice e 16 12) (imgSect b e) (slice e 28 16) with
        | some p => .ok (l ++ [(fld e 0 1, p)])
        | none => .error i) (.ok [])

/-- The section of a type. -/
def sectOf (l : List (Nat × List Byte)) (ty : Nat) : Option (List Byte) := (l.find? (fun p => p.1 = ty)).map (·.2)

/-! ### Patches (R710, R711) -/

/-- Match entry k of a PATCH section, and patch word j. -/
def patchMatch (b : List Byte) (k : Nat) : Nat := fld b (16 + 4 * k) 4
def patchWord (b : List Byte) (j : Nat) : Nat := fld b (16 + 4 * fld b 6 1 + 16 * j) 16

/-- A PATCH section passes R710 and R711 on silicon with a ROM_ID. -/
def patchOk (b : List Byte) (romId : Nat) : Bool :=
  let nw := fld b 4 2
  let nm := fld b 6 1
  let ms := (List.range nm).map (patchMatch b)
  let ws := (List.range nw).map (patchWord b)
  fld b 0 4 ≠ 0 && 1 ≤ nw && nw ≤ 512 && 1 ≤ nm && nm ≤ 32 && fld b 7 1 = 0 && fld b 8 8 = romId &&
    b.length = roundUp (16 + 4 * nm + 16 * nw) 64 && zeroes b (16 + 4 * nm + 16 * nw) (b.length - (16 + 4 * nm + 16 * nw)) &&
    ms.all (fun m => bitsOf m 31 1 = 1 && bitsOf m 16 9 < nw) && (ms.map (fun m => bitsOf m 0 14)).dedup.length = nm &&
    ws.all (fun w => bitsOf w 120 8 = 0 && (bitsOf w 41 1 = 0 || bitsOf w 27 14 < nw))

/-- A patch is in force (R712): its words in patch RAM, its match registers, UC_PATCH. -/
def State.loadPatch (s : State) (b : List Byte) : State :=
  let nw := fld b 4 2
  let nm := fld b 6 1
  let s1 := ((s.setRf F.UC_PATCH_LEVEL [] (fld b 0 4)).setRf F.UC_PATCH_NWORDS [] nw).setRf F.UC_PATCH_NMATCH [] nm
  let s2 := (List.range 32).foldl (fun s k =>
    let m := if k < nm then patchMatch b k else 0
    ((s.setRf F.UC_MATCH_ROM_ADDR [k] (bitsOf m 0 14)).setRf F.UC_MATCH_PRAM_ADDR [k] (bitsOf m 16 9)).setRf F.UC_MATCH_EN [k] (bitsOf m 31 1)) s1
  { s2 with rst := { s2.rst with patch := (List.range nw).map (patchWord b) } }

/-! ### The board table (R703, R704) -/

/-- Tags that R703 lists. -/
def boardTags : List Nat := [1, 2, 3, 0x10, 0x20, 0x30, 0x31, 0x40, 0x41, 0x50, 0x60]

/-- The records of a board table; none where one runs past the section or has an unknown tag with bit 15 set. The first argument bounds
their number. -/
def boardRecs : Nat → List Byte → Option (List (Nat × List Byte))
  | 0, _ => none
  | n + 1, b =>
    let tag := fld b 0 2
    let len := fld b 2 2
    if tag = 0 then some []
    else if b.length < 4 + len || (0x8000 ≤ tag && !boardTags.contains tag) then none
    else (boardRecs n (b.drop (roundUp (4 + len) 8))).map (fun l => (tag, slice b 4 len) :: l)

/-- The data of the record with a tag. -/
def boardRec (l : List (Nat × List Byte)) (tag : Nat) : List Byte := (sectOf l tag).getD []

/-- The range of the register field that a value loads allows it (R704). -/
def fieldTakes (f : RF) (idx : List Nat) (x : Nat) : Bool :=
  match findReg (f.off idx) with
  | none => false
  | some (r, _) => (r.flds.flatMap Fld.spread).any (fun g => g.lo = f.lo && x < 2 ^ g.w && g.ok.all (fun p => p.1 ≤ x && x ≤ p.2))

/-- Safe-list frames of a record. -/
def safeFrames (b : List Byte) : List (List Byte) := (List.range (fld b 1 1)).map (fun i => slice b (2 + 8 * i) 8)

/-- A record meets R703 and R704: LEN, frames, ranges. What concerns absent units is not looked at. -/
def State.boardRecOk (s : State) (tag : Nat) (b : List Byte) : Bool := match tag with
  | 0x0001 => b.length = 32
  | 0x0002 => b.length = 2 && fld b 0 1 ≤ 1 && fld b 1 1 ≤ 1
  | 0x0003 => b.length = 1 && 28 ≤ fld b 0 1 && fld b 0 1 ≤ 50
  | 0x0010 => b.length = 64 && (List.range s.nMc).all (fun m => fld b (8 * m) 1 ≤ 1 &&
      (fld b (8 * m) 1 = 0 || (1 ≤ fld b (8 * m + 1) 1 && fld b (8 * m + 1) 1 ≤ 3)))
  | 0x0020 => b.length = 256
  | 0x0030 => fld b 1 1 ≤ 16 && b.length = 2 + 8 * fld b 1 1 && (s.nCl ≤ fld b 0 1 ||
      (safeFrames b).all (fun f => (frameFails f 0).isEmpty && fld f 6 2 ≤ 10))
  | 0x0031 => b.length = 12 && (List.range s.nCl).all (fun n => fieldTakes F.CL_PE_CFG_DIV [n] (fld b n 1))
  | 0x0040 => b.length = 24 && (List.range s.nCl).all (fun n => fieldTakes F.CL_ADC_CFG_LAT [n] (fld b (2 * n) 2))
  | 0x0041 => b.length = 96
  | 0x0050 => b.length = 384
  | 0x0060 => b.length = 84 && (List.range 14).all (fun r => fld b (6 * r + 2) 2 < fld b (6 * r) 2)
  | _ => true

/-- The board table passes (R704). -/
def State.boardOk (s : State) (l : List (Nat × List Byte)) : Bool :=
  let has (t : Nat) : Bool := l.any (fun r => r.1 = t)
  let safe := ((l.filter (fun r => r.1 = 0x30)).map (fun r => fld r.2 0 1)).filter (· < s.nCl)
  has 1 && has 2 && has 0x10 && has 0x50 && l.all (fun r => s.boardRecOk r.1 r.2) && safe.dedup.length = safe.length

/-- A Paldel entry is within its ranges (R566): CABLED, and six fields of eight settings. -/
def paldelOk (e : List Byte) : Bool :=
  fld e 0 1 ≤ 1 && (List.range 8).all (fun i =>
    let b := slice e (16 + 6 * i) 6
    let d := toSigned 8 (fld b 5 1)
    fld b 0 1 ≤ 15 && fld b 1 1 ≤ 15 && fld b 2 1 ≤ 31 && fld b 3 1 ≤ 31 && fld b 4 1 ≤ 15 && -32 ≤ d && d ≤ 31)

/-- The registers and the board data that the table gives, apart from the links (R703). Without a CLOCK record the crystal's load is 0 (R43;
DESIGN CHOICE, log entry 30). -/
def State.applyBoard (s : State) (l : List (Nat × List Byte)) : State :=
  let has (t : Nat) : Bool := l.any (fun r => r.1 = t)
  let b := boardRec l
  let s1 := (s.setRf F.PAIR_STAT_MIRRORED [] (fld (b 2) 0 1)).setRf F.PAIR_STAT_RING [] (fld (b 2) 1 1)
  let s2 := if has 0x31 then (List.range s1.nCl).foldl (fun s n => s.setRf F.CL_PE_CFG_DIV [n] (fld (b 0x31) n 1)) s1 else s1
  let s3 := if has 0x40 then (List.range s2.nCl).foldl (fun s n => s.setRf F.CL_ADC_CFG_LAT [n] (fld (b 0x40) (2 * n) 2)) s2 else s2
  let s4 := if has 0x41 then (List.range s3.nCl).foldl (fun s n => s.setReg (F.CL_TRIGIN_DSK_DSK.off [n])
      (BitVec.ofNat 64 (fld (b 0x41) (8 * n) 8))) s3 else s3
  let s5 := if has 0x60 then (List.range 14).foldl (fun s r => s.setReg (F.WS_RAIL_THR_WARN_LO.off [r])
      (BitVec.ofNat 64 (fld (b 0x60) (6 * r) 6))) s4 else s4
  { s5 with board := {
      identity := b 1, load := if has 3 then fld (b 3) 0 1 else 0
      memory := (List.range 8).map (fun m => slice (b 0x10) (8 * m) 8)
      safe := ((l.filter (fun r => r.1 = 0x30)).map (fun r => (fld r.2 0 1, safeFrames r.2))).foldl (fun a p => kSet a p.1 p.2) []
      calPath := (List.range 192).map (fun c => fld (b 0x50) (2 * c) 2) } }

end Sys2Proof.Machine
end

