-- ==== Sys2Proof/Machine/Boot.lean ====
section
/-! DEFINITION. Boot and patches (R697-R714, R720), with what boot does for other chapters: memory training (R524-R526), the mount of the
lifetime log (R685), meter tables (R393), links (R567), CAPS_LIVE (R6, R7). -/

namespace Sys2Proof.Machine

/-! ### BOOT_STATUS and failures (R702, R705, R706) -/

/-- BOOT_STATUS beside CAUSE and SLOT. -/
def State.bootMark (s : State) (phase code detail : Nat) : State :=
  ((s.setRf F.BOOT_STATUS_PHASE [] phase).setRf F.BOOT_STATUS_CODE [] code).setRf F.BOOT_STATUS_DETAIL [] detail

/-- A fatal code stops the boot: the chip stays in the minimal host-visible state (R706). -/
def State.bootFails (s : State) (phase code detail : Nat) : State :=
  let s1 := (s.bootMark phase code detail).setRf F.BOOT_STATUS_FAILED [] 1
  { s1 with power := { s1.power with dom := 2 ^ 88 } }

/-- The image that boots (R701, R702): its slot, its bytes and its sections, or the phase, code and DETAIL of the failure. -/
def State.chooseImage (s : State) (a b : List Byte) : Except (Nat × Nat × Nat) (Nat × List Byte × List (Nat × List Byte)) :=
  let pick (x : List Byte) : Except (Nat × Nat × Nat) (List (Nat × List Byte)) :=
    let (c, d) := s.imageFails x flashTypes s.fuse.minver
    if c ≠ 0 then .error (4, c, d)
    else match imageOpen x with
      | .ok l => .ok l
      | .error i => .error (5, 0x0B, i)
  match pick a with
  | .ok l => .ok (0, a, l)
  | .error _ => match pick b with
    | .ok l => .ok (1, b, l)
    | .error (p, c, d) => .error (p, c, d + 128)

/-! ### The lifetime log (R685) -/

/-- The records in the log whose CRC holds, with their sectors, in the order of SECTOR_SEQ. -/
def Life.records (l : Life) : List (Nat × List Byte) :=
  let ss := (l.sectors.filter (fun p => p.1 < l.size)).mergeSort (fun a b => a.2.seq ≤ b.2.seq)
  (ss.flatMap (fun p => p.2.recs.map (fun r => (p.1, r)))).filter (fun r => crc16 (r.2.take 62) = fld r.2 62 2)

/-- Part i of snapshot `id` among records. -/
def snapPart (rs : List (Nat × List Byte)) (id i : Nat) : Option (Nat × List Byte) :=
  rs.find? (fun r => fld r.2 0 1 = 1 && fld r.2 22 2 = id && fld r.2 2 2 = i)

/-- The latest snapshot whose 111 parts are all valid: its number, its image, and the SEQ of its last part. -/
def lastSnap (rs : List (Nat × List Byte)) : Option (Nat × List Byte × Nat) :=
  let ids := ((rs.filter (fun r => fld r.2 0 1 = 1 && fld r.2 2 2 = 110)).map (fun r => fld r.2 22 2)).reverse
  (ids.find? (fun id => (List.range 111).all (fun i => (snapPart rs id i).isSome))).map (fun id =>
    (id, ((List.range 111).flatMap (fun i => ((snapPart rs id i).map (fun r => slice r.2 24 38)).getD [])).take 4218,
      ((snapPart rs id 110).map (fun r => fld r.2 4 4)).getD 0))

/-- The counters out of a snapshot image (R681). -/
def Life.reload (l : Life) (b : List Byte) : Life :=
  let ns (off n w : Nat) : List Nat := (List.range n).map (fun i => fld b (off + w * i) w)
  { l with
    powerOn := fld b 0 8, lull := fld b 8 8, unaccounted := fld b 16 8, boots := fld b 24 4, supplyResets := fld b 28 4
    hist := ns 32 24 4, chTrans := ns 128 192 8, relay := ns 1664 12 8, spareSlices := ns 1760 12 1, spareCores := fld b 1772 1
    ppr := ns 1840 8 1, faults := ns 3896 32 4, bad := bitList 1024 (fld b 4024 128) }

/-- The fence list of channel m out of a snapshot image. -/
def snapFences (b : List Byte) (m : Nat) : List (Nat × Nat) :=
  ((List.range 64).map (fun i => fld b (1848 + 256 * m + 4 * i) 4)).filter (· ≠ 0xFFFFFFFF) |>.map (fun v => (bitsOf v 0 4, bitsOf v 4 18))

/-- Records of a type written after a SEQ: their data. -/
def recsAfter (rs : List (Nat × List Byte)) (seq typ : Nat) : List (List Byte) :=
  (rs.filter (fun r => fld r.2 0 1 = typ && seq < fld r.2 4 4)).map (fun r => slice r.2 24 38)

/-- Channel m is populated by the board (R523). -/
def State.populated (s : State) (m : Nat) : Bool := m < s.nMc && fld (s.board.memory.getD m []) 0 1 = 1

/-- The log is mounted (R685); after a COLD reset the counters come from it, and after a PIN or COLD reset the fence lists (R549, R678).
-/
def State.mountLog (s : State) (base size : Nat) (cold kept : Bool) : State :=
  let l0 : Life := { s.life with base := base, size := size }
  let rs := l0.records
  let snap := lastSnap rs
  let (id, img, seq) := snap.getD (0, [], 0)
  let l1 : Life := if cold && snap.isSome then l0.reload img else l0
  let used := recsAfter rs seq 5
  let l2 : Life := { l1 with
    ppr := used.foldl (fun p d => p.set (fld d 0 1) (fld d 6 1)) l1.ppr
    bad := ((recsAfter rs seq 0x0C).map (fun d => fld d 0 2)).foldl (fun b x => if b.contains x then b else b ++ [x]) l1.bad
    cur := (((l1.sectors.filter (fun p => p.1 < size)).mergeSort (fun a b => b.2.seq ≤ a.2.seq)).head?).map (·.1)
    seq := (rs.map (fun r => fld r.2 4 4)).foldl max 0
    snapId := (rs.map (fun r => if fld r.2 0 1 = 1 then fld r.2 22 2 else 0)).foldl max 0
    snapIn := if snap.isSome then ((rs.filter (fun r => fld r.2 0 1 = 1 && fld r.2 22 2 = id)).map (·.1)).dedup else []
    snapAt := s.dtime, secAt := s.dtime }
  let l3 : Life := { l2 with state := if l2.good.length < 4 then 2 else 1 }
  let fences (m : Nat) : List (Nat × Nat) :=
    snapFences img m ++ ((recsAfter rs seq 6).filter (fun d => fld d 0 1 = m)).map (fun d => (fld d 1 1, fld d 2 4))
  let ms : List Mc := if kept || snap.isNone && rs.isEmpty then s.mcs else
    s.mcs.zipIdx.map (fun p => { p.1 with fences := (fences p.2).dedup })
  -- the repairs of the log: their number, and whether a bank they name has a row left after all (R524, R555)
  let agrees (m : Nat) (c : Mc) : Bool :=
    rs.all (fun r => fld r.2 0 1 ≠ 5 || fld r.2 24 1 ≠ m || !c.ppr.contains (fld r.2 25 1)) && l2.ppr.getD m 0 + c.ppr.length ≤ 16
  let s1 := { s with life := l3, mcs := ms, rst := { s.rst with reload := false } }
  if kept then s1
  else ((List.range 8).filter s.populated).foldl (fun s m =>
    (s.setRf F.MC_PPR_STAT_USED [m] (l2.ppr.getD m 0)).upMc m (fun c => { c with pprAgrees := agrees m c })) s1

/-! ### Memory and cores (R469, R524-R526) -/

/-- Memory is trained; after a CHIP reset a live channel leaves self-refresh with its kept values (R524, R526). -/
def State.trainMemory (s : State) (inp : BootInput) (kept : Bool) : State :=
  if kept then (List.range 8).foldl (fun s m => if s.mcLive m then s.upMc m (fun c => { c with selfref := false }) else s) s
  else ((List.range 8).filter s.populated).foldl (fun s m =>
    let rate := min (inp.rates.getD m 0) (fld (s.board.memory.getD m []) 1 1)
    let s1 := (s.setRf F.MC_STAT_RATE [m] rate).setRf F.MC_STAT_TRAINED [m] (b2n (rate ≠ 0))
    ((s1.setRf F.MC_STAT_CAP [m] (inp.caps.getD m 0)).setRf F.MC_PPR_STAT_AVAIL [m] (inp.ppr.getD m []).dedup.length).upMc m (fun c => { c with
      ppr := (inp.ppr.getD m []).dedup, idleSince := s.dtime })) s

/-- Channels that did not reach their board rate. -/
def State.slowChannels (s : State) : List Nat :=
  (List.range 8).filter (fun m => s.populated m && s.rf F.MC_STAT_RATE [m] < fld (s.board.memory.getD m []) 1 1)

/-- CAPS_LIVE after a PIN or COLD reset, before this boot retires anything (R6, R7). -/
def State.fillCaps (s : State) : State :=
  let s1 := (s.capsSlices.setRf F.CAPS_LIVE_LIVE_FCORES [] s.nSlot).setRf F.CAPS_LIVE_FSPARE_LEFT [] (s.nCore - s.nSlot)
  let s2 := (s1.setRf F.CAPS_LIVE_APG_LIVE [] (2 ^ s.nApg - 1)).setRf F.CAPS_LIVE_LINK_LIVE [] (maskOf ((List.range 4).filter s.hasLink))
  let s3 := (s2.setRf F.CAPS_LIVE_MC_LIVE [] (maskOf ((List.range 8).filter s.populated))).setRf F.CAPS_LIVE_TETHER_LIVE [] (b2n s.d192x)
  (s3.setRf F.CAPS_LIVE_LIVE_IMETERS [] (s.nMeter * s.nCl)).setRf F.CAPS_LIVE_LIVE_FCHAINS [] s.nChain

/-- Meters whose fused tables fail R393. -/
def State.badTables (s : State) : List Nat :=
  (s.fuse.imcal.filter (fun p => p.1 < s.nMeter * s.nCl && !s.metersBad.contains p.1 && !p.2.ok)).map (·.1)

/-- Everything that this boot finds unusable is retired or spared: meters, channels that did not train, cores. -/
def State.retireFound (s : State) (meters cores : List Nat) (kept : Bool) : State :=
  let s1 := meters.foldl (fun s k => (s.setRf F.CL_IMTR_STAT_INVALID [k / 4, k % 4] 1).retireMeter k) s
  let dead := if kept then [] else (List.range 8).filter (fun m => s.populated m && s.rf F.MC_STAT_RATE [m] = 0)
  let s2 := dead.foldl (fun s m => (s.report 21 (13 + m) 0 1).retireChannel m) s1
  let s3 := cores.foldl (fun s c => (s.reportEither 16 12 c).coreFails c) s2
  { s3 with paddock := { s3.paddock with slots := s3.paddock.slots.map (fun f => { f with settling := false }) } }

/-! ### Units retired again (R685 item 4) -/

/-- A unit is retired, by its kind (R497), island and unit; one that is retired already stays so. -/
def State.retireUnit (s : State) (kind island unit : Nat) : State := match kind with
  | 1 => if 48 ≤ 4 * island + unit then s else s.retireSlice (4 * island + unit)
  | 2 => if s.nSlot ≤ unit || (s.fslot unit).retired then s else s.retireSlot unit
  | 3 => if s.nCl ≤ island || ((s.cl island).chans.getD unit {}).retired then s else s.retireChan island unit
  | 4 => if s.nChain ≤ unit || s.chainsBad.contains unit then s else s.retireChain unit
  | 5 => s.retireMeter (4 * island + unit)
  | 6 =>
    if s.nApg ≤ unit || (s.apgs.getD unit {}).retired then s
    else
      let s1 := { s with apgs := s.apgs.modify unit (fun a => { a with retired := true }) }
      (s1.setRf F.CAPS_LIVE_APG_LIVE [] (s1.rf F.CAPS_LIVE_APG_LIVE - (s1.rf F.CAPS_LIVE_APG_LIVE &&& 2 ^ unit))).degrade 6 27 unit
  | 7 => s.retireChannel (island - 13)
  | 8 => if (s.lanesRetired (island - 21)).testBit unit then s else s.retireLane (island - 21) unit
  | 9 => if s.hasTether then (s.setRf F.CAPS_LIVE_TETHER_LIVE [] 0).degrade 9 28 0 else s
  | _ => s

/-- The units that a snapshot names as retired, as kind, island, unit. -/
def snapRetired (b : List Byte) : List (Nat × Nat × Nat) :=
  let bits (off len : Nat) : List Nat := bitList (8 * len) (fld b (1776 + off) len)
  (bits 0 8).map (fun g => (1, g / 4, g % 4)) ++ (bits 8 24).map (fun c => (3, c / 16, c % 16)) ++ (bits 32 4).map (fun k => (4, 26, k)) ++
    (bits 36 8).map (fun k => (5, k / 4, k % 4)) ++ (bits 44 1).map (fun k => (6, 27, k)) ++ (bits 45 1).map (fun m => (7, 13 + m, 0)) ++
    (bits 46 2).map (fun i => (8, 21 + i / 4, i % 4)) ++ (if fld b (1776 + 48) 1 = 1 then [(9, 28, 0)] else []) ++
    (bits 49 2).map (fun i => (2, 12, i))

/-- Retired units are retired again where LIFE_CTL.RELOAD_RETIRED asks for it. -/
def State.reloadRetired (s : State) : State :=
  if !s.rb F.LIFE_CTL_RELOAD_RETIRED then s
  else
    let rs := s.life.records
    let (_, img, seq) := (lastSnap rs).getD (0, [], 0)
    let later := (recsAfter rs seq 3).map (fun d => (fld d 0 1, fld d 1 1, fld d 2 1))
    ((if img.isEmpty then [] else snapRetired img) ++ later).foldl (fun s u => s.retireUnit u.1 u.2.1 u.2.2) s

/-! ### Links, domains, the context area (R452, R533, R567, R655) -/

/-- The board's link entries are loaded and the cabled links enabled; the links left disabled for their values are returned. -/
def State.bootLinks (s : State) (l : List (Nat × List Byte)) : State × List Nat :=
  let b := boardRec l 0x20
  let ns := if b.isEmpty then [] else (List.range 4).filter s.hasLink
  let e (n : Nat) : List Byte := slice b (64 * n) 64
  let bad := ns.filter (fun n => !paldelOk (e n))
  let load (s : State) (n : Nat) : State :=
    let s1 := (List.range 4).foldl (fun s k =>
      (s.setReg (F.PL_EQP_TX_AMP.off [n, k]) (BitVec.ofNat 64 (fld (e n) (16 + 12 * k) 6))).setReg (F.PL_EQA_TX_AMP.off [n, k])
        (BitVec.ofNat 64 (fld (e n) (22 + 12 * k) 6))) s
    let s2 := s1.setReg (F.PL_ASYM_ASYM.off [n]) (BitVec.ofNat 64 (fld (e n) 4 4))
    if fld (e n) 0 1 = 1 then ((s2.setRf F.PL_CTL_EN [n] 1).powerUp (84 + n)).train n else s2
  ((ns.filter (fun n => !bad.contains n)).foldl load s, bad)

/-- The context area is allotted over the live channels. -/
def State.allotCtx (s : State) : State :=
  let cs := s.liveChans
  match s.findBase cs (ctxBytes cs.length) with
  | some b => if cs.isEmpty then s else { s with ctxArea := some (b, ctxBytes cs.length, cs) }
  | none => s

/-- The domains that boot firmware turns on (R655). -/
def State.bootDomains (s : State) : State :=
  let ds := ((List.range s.nSlot).filter (fun i => !(s.fslot i).retired)).map (60 + ·) ++ s.liveChans.map (76 + ·)
  ds.foldl (fun s d => s.powerUp d) s

/-! ### The whole boot (R702) -/

/-- Phase 10: BOOT_STATUS, the BOOT record with every warning, READY, and what waited for the boot (R600, R640, R674, R680). -/
def State.bootEnds (s : State) (slot : Nat) (warns : List (Nat × Nat)) : State :=
  let (code, detail) := warns.headD (0, 0)
  let s1 := ((s.bootMark 10 code (detail + 128 * slot)).setRf F.BOOT_STATUS_DONE [] 1).setRf F.BOOT_STATUS_WARN [] (b2n (!warns.isEmpty))
  let seen := maskOf (warns.map (fun w => w.1 - 0x40))
  let procs := (List.range 12).flatMap (fun n => leBytes 2 (s1.rf (F.WS_PROC_FREQ.at (n % 4)) [n / 4]))
  let s2 := match s1.rst.brownout with
    | some (r, v) =>
      let s2 := s1.log 7 (leBytes 1 r ++ leBytes 2 v ++ leBytes 1 s1.rst.cause)
      { s2 with life := { s2.life with supplyResets := satAdd 32 s2.life.supplyResets 1 } }.health 7 r v
    | none => s1
  let s3 := s2.log 0x0A (leBytes 4 (s2.reg (F.BOOT_STATUS_CODE.off [])).toNat ++ leBytes 4 (s2.rf F.UC_PATCH_LEVEL) ++ procs ++ leBytes 1 seen)
  let solo : Bool := !s3.mirrored
  let s4 := { s3 with
    rst := { s3.rst with brownout := none, doneAt := s3.dtime }
    life := { s3.life with boots := satAdd 32 s3.life.boots 1 }
    pair := { s3.pair with role := if solo then 3 else 0, peOwn := solo } }
  if s4.collector.live.contains (0, 29, 0) then s4.engage 0 false else s4

/-- Phases 6 to 10, with an image chosen. -/
def State.bootBoard (s : State) (inp : BootInput) (slot : Nat) (b : List Byte) (l : List (Nat × List Byte)) : State :=
  let bd := (sectOf l 2).getD []
  let dslot := 128 * slot
  let idx (ty : Nat) : Nat := dslot + l.findIdx (fun p => p.1 = ty)
  let s0 := ((s.setRf F.BOOT_INFO_SEC_VER [] (fld b 12 4)).setRf F.BOOT_INFO_KEY_SLOT [] (fld b 17 1)).setRf F.BOOT_BUILD_BUILD_TAG [] (fld b 24 8)
  let s1 := s0.setRf F.BOOT_STATUS_SLOT [] slot
  match boardRecs (bd.length + 1) bd with
  | none => s1.bootFails 6 0x0C (idx 2)
  | some rs =>
    if !s1.boardOk rs then s1.bootFails 6 0x0C (idx 2)
    else
      let s2 := s1.applyBoard rs
      if (sectOf l 3).any (fun p => !patchOk p s2.fuse.romId) then s2.bootFails 7 0x0D (idx 3)
      else
        let kept := s2.rst.kept
        let s3 := match sectOf l 3 with
          | some p => s2.loadPatch p
          | none => s2
        let s4 := s3.trainMemory inp kept
        let slow := if kept then [] else s4.slowChannels
        let ptr := (sectOf l 4).getD []
        let s5 := (s4.setProcs inp.procs).mountLog (fld ptr 0 4) (fld ptr 4 4) s4.rst.reload kept
        let fresh : Bool := s5.life.cur.isNone || s5.life.state = 2
        let tables := s5.badTables
        let cores := (inp.badCores.filter (fun c => c < s5.nCore && !s5.paddock.failed.contains c)).dedup
        let s6 := ((if kept then s5 else s5.fillCaps).retireFound tables cores kept).reloadRetired
        let (s7, links) := s6.bootDomains.allotCtx.bootLinks rs
        s7.bootEnds slot (cores.map (fun _ => (0x44, 12)) ++ slow.map (fun m => (0x41, 13 + m)) ++ (if fresh then [(0x43, 29)] else []) ++
          tables.map (fun k => (0x42, k / 4)) ++ links.map (fun n => (0x40, 21 + n)))

/-- The clocks that the boot finds on its inputs (R52, R56, R59, R65): one that was lost returns, one that is not there is lost.
Once an interval without either clock has ended, DTIME counts on from where it stood (R59). -/
def State.bootClocks (s : State) (inp : BootInput) : State :=
  let s1 := if inp.xtal then doXtalReturn inp.t s else doXtalLoss inp.t s
  let now (z : State) : Nat := if s.clk.darkSince.isSome && z.clk.darkSince.isNone then z.dtime else inp.t
  let s2 := if inp.tref then doPllRelock (now s1) s1 else doTrefLoss (now s1) s1
  let s3 := if inp.lref then s2.lrefRises else doLrefLoss (now s2) s2
  { s3 with clk := { s3.clk with pcieRef := inp.pcieRef } }

/-- BOOT (R697-R707, R720): a reset has been released, and after a supply reset every rail has been above warning for 1 ms (R674). -/
def doBoot (inp : BootInput) (s00 : State) : State :=
  let p := s00.power
  if !s00.rst.due || (s00.rst.brownout.isSome && (p.below ≠ 0 || inp.t < p.aboveSince + 1000000)) then s00
  else
    let s0 := s00.at inp.t
    let loops := if s0.rst.cause = 4 then min 7 (s0.rf F.RST_STAT_C_LOOP + 1) else s0.rf F.RST_STAT_C_LOOP
    let s1 := { s0 with rst := { s0.rst with due := false, pwrgood := true, resetLow := false, tap := 0 } }.bootClocks inp
    let s2 := (s1.setRf F.RST_STAT_C_LOOP [] loops).setRf F.BOOT_STATUS_CAUSE [] s1.rst.cause
    if !inp.fuseOk then s2.bootFails 1 0x01 0
    else if s2.rst.cause = 4 && 5 ≤ loops then s2.bootFails 1 0x0E 0
    else if !inp.tref then s2.bootFails 2 0x02 0
    else if !inp.flash then s2.bootFails 3 0x03 0
    else if !inp.sfdp then s2.bootFails 3 0x04 0
    else match s2.chooseImage inp.slotA inp.slotB with
      | .error (ph, c, d) => s2.bootFails ph c d
      | .ok (slot, b, l) => s2.bootBoard inp slot b l

/-! ### PATCH_APPLY (R714) -/

/-- PATCH_APPLY: `src` is what the host's buffer holds, none where its read fails. -/
def doPatchApply (sq idx : Nat) (src : Option (List Byte)) (s : State) : State :=
  s.withDesc sq idx 0x78 (fun d =>
    let b := d.bytes
    let bad (c : Nat) : State := s.complete sq idx { status := St.bad, reason := c }
    if s.ballastOn then s.finish sq idx St.safe
    else if fld b 16 8 % 64 ≠ 0 || !zeroes b 28 36 || !s.paddock.tasks.isEmpty then bad 0
    else match s.hostRead src with
      | none => s.readFailed sq idx
      | some full =>
        let img := full.take (fld b 24 4)
        let (c, _) := s.imageFails img patchTypes (max s.fuse.minver (s.rf F.BOOT_INFO_SEC_VER))
        if c ≠ 5 && img.length < fld img 8 4 then bad 6
        else if c ≠ 0 then bad c
        else match imageOpen img with
          | .error _ => bad 0x0B
          | .ok l => match sectOf l 3 with
            | none => bad 6
            | some p => if patchOk p s.fuse.romId then (s.loadPatch p).finish sq idx St.ok else bad 0x0D)

/-! ### Commands -/

/-- BOOT. -/
def execBoot (inp : BootInput) (s : State) : Host.Outcome State Fault Refusal := .next (doBoot inp s)
/-- PATCH_APPLY. -/
def execPatchApply (sq idx : Nat) (src : Option (List Byte)) (s : State) : Host.Outcome State Fault Refusal :=
  .next (doPatchApply sq idx src s)

end Sys2Proof.Machine
end

