-- ==== Sys2Proof/Machine/RegRead.lean ====
section
/-! DEFINITION. What a host read of a register returns: the stored fields, and the fields that report another part of the machine
(LIVE fields, and the identity fields that come from the fuses); a register that does not answer reads 0 (R50, R706, R727). -/

namespace Sys2Proof.Machine

/-- A field of the value read: lowest bit, width, value. -/
abbrev Cut := Nat × Nat × Nat

/-- One bit of the value read. -/
def bit1 (lo : Nat) (b : Bool) : Cut := (lo, 1, b2n b)

/-- CAPS_FIXED, from the fuses (R5). -/
def State.capsFixed (s : State) : List Cut :=
  [(0, 4, s.fuse.variant), (4, 4, s.fuse.rev), (8, 4, s.nCl), (12, 3, s.nApg), (16, 6, s.nCl * s.nMeter), (22, 5, s.nChain),
   bit1 27 s.d192x, bit1 28 s.hasColl, (32, 4, s.nMc), (36, 5, s.nCore), (41, 2, s.nCore - s.nSlot),
   (44, 4, maskOf ((List.range 4).filter s.hasLink))]

/-- Registers of the always-on island: power, Windsock, faults, clocks, calendar, boot, lifetime. CAPS_LIVE reads 0 until the boot
has completed (R7, R706). -/
def State.liveAon (s : State) (r : Reg) (is : List Nat) : List Cut :=
  let i := is.headD 0
  match r with
  | .capsFixed => s.capsFixed
  | .capsLive => if s.bootDone then [] else [(0, 64, 0)]
  | .rstStat => [bit1 0 s.power.blkHost]
  | .pwrDomCtl => [(0, 64, bitsOf s.power.dom (64 * i) 64 &&&
      maskOf ((List.range 64).filter (fun b => 64 * i + b < 96 && !s.domAbsent (64 * i + b))))]
  | .pwrDomStat => [(0, 64, bitsOf s.power.dom (64 * i) 64)]
  | .lullStat => [(0, 2, s.power.lull)]
  | .wsRail => (List.range 4).map (fun e => (16 * e, 16, s.railNow (4 * i + e)))
  | .wsVstat => [(16, 14, s.power.below), bit1 30 s.pauseSupply]
  | .wsTstat => [(32, 5, s.hottest), (48, 16, ofSigned 16 (s.temp s.hottest))]
  | .fltLive => [(0, 64, maskOf (s.collector.live.map (fun c => c.1)))]
  | .ballastStat => [bit1 0 s.ballastOn, bit1 1 (s.collector.ballast = 2)]
  | .fltInjStat => [bit1 0 s.collector.armed.isSome]
  | .islFlt => [bit1 1 (s.collector.live.any (fun c => c.2.1 == i))]
  | .bootInfo => [(34, 4, s.fuse.revoke)]
  | .bootMinver => [(0, 32, s.fuse.minver)]
  | .ucPatch => [(48, 16, s.fuse.romId)]
  | .ucRomid => [(0, 64, s.fuse.romId)]
  | .bootKeys => [(0, 64, fld (s.keyHash (i / 6)) (8 * (i % 6)) 8)]
  | .dtime => [(0, 64, s.dtime)]
  | .dtimeStat => [bit1 0 (!s.clk.pll), bit1 1 s.coarse]
  | .calsec => [(0, 48, s.clk.calSec), (48, 15, s.calSubNow)]
  | .clkStat => [bit1 0 (s.clk.tref && s.clk.pll), bit1 1 s.clk.lref, bit1 2 s.clk.pcieRef, bit1 3 s.clk.xtal]
  | .lifeStat => [(0, 2, s.life.state), (2, 11, s.life.good.length), (13, 7, s.logQueued), (32, 32, s.life.seq)]
  | .lifePoh => [(0, 48, s.life.powerOn)]
  | _ => []

/-- Registers of the host island (R515-R518). -/
def State.liveHost (s : State) (r : Reg) (is : List Nat) : List Cut :=
  let k := is.headD 0
  let n := if k < 32 then (s.host.inflight.filter (fun d => d.sq == k)).length else s.reserved k
  match r with
  | .ringPtr => [(0, 16, (s.ring k).head), (16, 16, (s.ring k).tail), bit1 32 ((s.ring k).phase = 1)]
  | .ringkStat => [bit1 0 (n = 0), (32, 17, n)]
  | .hostStat =>
    [bit1 0 s.bootDone, bit1 1 s.host.linkUp, (2, 3, s.host.speed), (5, 3, s.host.width), bit1 8 s.host.l1,
     (32, 17, s.host.inflight.length), (49, 11, s.host.evq.length)]
  | _ => []

/-- Tasks in play: READY or SLOTTED. -/
def State.readyTasks (s : State) : List (Nat × Task) := s.paddock.tasks.filter (fun p => p.2.state = 1 || p.2.state = 2)

/-- FC_nn_SLOT_STAT (R480); SLOT of a core that backs no slot keeps its reset value nn, in 4 bits (log entry 25). -/
def State.slotStat (s : State) (c : Nat) : List Cut :=
  let none := [(0, 4, c % 16), bit1 4 false, bit1 5 (s.nSlot ≤ c), bit1 6 (s.paddock.failed.contains c)]
  match s.slotOf c with
  | some i => [(0, 4, i), bit1 4 true, bit1 5 (s.nSlot ≤ c), bit1 6 (s.paddock.failed.contains c),
      (8, 12, (s.fslot i).run.getD 0), bit1 20 (s.fslot i).run.isSome, (32, 12, (s.fslot i).buf.getD 0), bit1 44 (s.fslot i).buf.isSome]
  | Option.none => none

/-- LOCK_k (R479). -/
def Lock.cuts (l : Lock) : List Cut :=
  let own : List Cut := match l.owner with
    | some (.task t) => [(0, 12, t), bit1 18 true]
    | some (.desc q _) => [(12, 6, q), bit1 18 true, bit1 19 true]
    | _ => []
  own ++ [bit1 20 l.abandoned, (32, 13, l.queue.length)]

/-- Registers of the flow-core complex (R475-R480). -/
def State.liveFlow (s : State) (r : Reg) (is : List Nat) : List Cut :=
  let i := is.headD 0
  match r with
  | .paddockStat => [(0, 13, s.paddock.tasks.length), (13, 13, s.readyTasks.length),
      (26, 5, (s.paddock.tasks.filter (fun p => p.2.state = 3)).length), (32, 13, s.ready7)]
  | .paddockLevel => (List.range 8).map (fun p => (8 * p, 8, sat 8 (s.readyTasks.filter (fun t => s.effPrio t.1 = p)).length))
  | .paddockWarden => [(20, 4, s.wardenSlot)]
  | .paddockSlotmap => (List.range 8).flatMap (fun j => if 8 * i + j < s.nSlot then
      [(8 * j, 5, (s.fslot (8 * i + j)).phys.getD 0x1F), bit1 (8 * j + 5) (s.fslot (8 * i + j)).retired] else [])
  | .lock => (s.lock i).cuts
  | .fcSlotStat => s.slotStat i
  | _ => []

/-- Registers of the memory channels and of admission (R218-R220, R551-R555). -/
def State.liveMem (s : State) (r : Reg) (is : List Nat) : List Cut :=
  let m := is.headD 0
  let c := s.mc m
  match r with
  | .mcStat => [bit1 5 c.selfref, (6, 2, if c.mult = 4 then 2 else c.mult - 1), bit1 9 c.repair.isSome]
  | .mcRefStat => [(0, 5, ofSigned 5 c.owed), (5, 4, c.nextBank)]
  | .mcPprStat => [(10, 5, c.pending.length), (16, 7, c.fences.length)]
  | .admStat => [(0, 13, (s.bursts.filter (fun b => !b.admitted && b.fin.isNone)).length), (13, 6, s.heldParts.length),
      bit1 19 s.pauseSupply, bit1 20 s.clk.trefHold]
  | .admCh => [(0, 16, s.admittedOn m), (16, 16, s.limit m), (32, 16, sat 16 (s.placed m)), bit1 48 (s.chanBlocked m)]
  | .clAdm => [(0, 15, s.fifoRsv m), (16, 16, s.demandOf m), (32, 22, cacheCap - cacheUsed s.cache m)]
  | _ => []

/-- Registers of the links, the ring and the mirror pair (R592-R598, R625-R627). -/
def State.liveLink (s : State) (r : Reg) (is : List Nat) : List Cut :=
  let n := is.headD 0
  let l := s.lk n
  let p := s.pair
  match r with
  | .ringStat => [bit1 0 s.ringT.aligned, (32, 13, ofSigned 13 s.ringT.xoff)]
  | .plStat => [(0, 3, l.state), (3, 3, s.linkWidth n), (6, 4, l.active), (10, 4, s.goodLanes n),
      bit1 18 (l.lanes.any (fun x => x.hold))]
  | .plLane => let x := s.lane n (is.getD 1 0)
    [bit1 0 (x.locked && !x.lost), bit1 1 (x.setting = 1)]
  | .plTime => [(0, 32, ofSigned 32 l.theta), (32, 16, l.delay), bit1 48 (l.timeAt.any (fun t => s.dtime ≤ t + 2000000))]
  | .pairStat => [(0, 2, p.role), (2, 3, p.state), bit1 7 p.peOwn, bit1 8 p.drive, bit1 9 p.partner]
  | .tetherStat => [(0, 13, s.queueBytes / 1024), (32, 32, s.capMbps)]
  | .tetherMirrorT => [(0, 64, p.mirrorT)]
  | _ => []

/-- Registers of the filter engines, chains and APG units (R336-R338, R374, R376). -/
def State.liveEngine (s : State) (r : Reg) (is : List Nat) : List Cut :=
  let e := is.headD 0
  let k := 12 * e + is.getD 1 0
  let c := s.chain k
  let a := s.apgs.getD e {}
  match r with
  | .feCapStat => [(0, 5, s.acqK e), (5, 9, (s.sbufs.getD e []).length)]
  | .fchainStat => [bit1 0 (c.fill ≠ 0), bit1 1 c.mm, (2, 4, s.mmCause k), (8, 5, c.de), bit1 13 c.acq.isSome]
  | .fchainOut => [(0, 24, ofSigned 24 c.a), (32, 24, bitsOf (ofSigned 64 (c.m.getD 0)) 16 24)]
  | .apgBind => [bit1 18 (s.bursts.any (fun b => b.running && b.apgUnit == some e))]
  | .apgXy => [(0, 24, a.regs.x), (32, 24, a.regs.y)]
  | .apgRef => [(0, 24, a.regs.xr), (32, 24, a.regs.yr)]
  | .apgDc => [(0, 32, a.regs.d), (32, 8, a.regs.ctrl)]
  | _ => []

/-- The field of CL_n_SLICE_MAP of a slice (R91). -/
def State.sliceField (s : State) (n i : Nat) : List Cut :=
  let x := s.sl (4 * n + i)
  let o := 16 * i
  let multi : Bool := x.ent.any (fun e => (s.entSites e).any Site.multi)
  let lock : Bool := match x.ent with
    | some (.group _) => true
    | _ => false
  [(o, 4, x.grp), (o + 4, 3, x.phys.getD 7), bit1 (o + 7) x.retired, bit1 (o + 8) x.ent.isSome, bit1 (o + 9) lock, bit1 (o + 10) multi,
   bit1 (o + 11) (x.ent.any (fun e => (s.burst e).any (fun b => b.running)))]

/-- CL_n_SEQ_STAT_s (R172). -/
def seqCuts (q : Seq) : List Cut :=
  [(0, 48, q.started), (48, 3, q.state), (51, 4, q.frames.length), (55, 5, q.calls.length), bit1 60 (q.frames.any (fun f => f.isMatch)),
   bit1 61 q.held.isSome]

/-- Registers of the clusters (R91, R172, R258, R259, R308, R371, R372, R396, R399, R449). -/
def State.liveCluster (s : State) (r : Reg) (is : List Nat) : List Cut :=
  let n := is.headD 0
  let u := is.getD 1 0
  let c := s.cl n
  let loaded (p : Tset → Bool) : Nat := maskOf ((c.tsets.filter (fun t => p t.2)).map (fun t => t.1))
  match r with
  | .clSliceMap => (List.range 4).flatMap (s.sliceField n)
  | .clSeqStat => seqCuts (s.sl (4 * n + u)).seq
  | .clDriftStat => [(0, 16, ofSigned 16 c.drift.gain), (16, 16, ofSigned 16 c.drift.offset), bit1 32 c.drift.acq, bit1 33 c.drift.locked]
  | .clTsetLoaded => [(0, 64, loaded (fun _ => true))]
  | .clTsetX2 => [(0, 64, loaded (fun t => tsAllows t.bytes 2))]
  | .clTsetX4 => [(0, 64, loaded (fun t => tsAllows t.bytes 4))]
  | .clCapStat => [(0, 4, maskOf ((List.range 4).filter (fun i => (c.capS.getD i {}).summary))), (8, 11, c.cap.buf.length)]
  | .clTrgStat => let t := s.trigs.getD (8 * n + u) {}
    [bit1 0 t.armed, bit1 1 t.openAt.isSome]
  | .clAdcStat => let p := s.port n
    [bit1 0 p.lock, bit1 1 p.aligned, (32, 32, p.period)]
  | .clImtrStat => let m := s.meters.getD (4 * n + u) {}
    [(0, 2, m.state), (48, 16, sat 16 m.stops)]
  | .clPeStat => let p := s.pe.getD n {}
    [bit1 0 p.busy, bit1 1 p.dutpwr, (16, 5, p.queue.length)]
  | .clImcal => let t := s.imcalOf (4 * n + u)
    let j := is.getD 2 0
    (List.range 4).map (fun e => (16 * e, 12, if j < 16 then t.posStart.getD (4 * j + e) 0 else t.posStop.getD (4 * (j - 16) + e) 0))
  | .clImcalInfo => let t := s.imcalOf (4 * n + u)
    [(0, 16, t.offset), (16, 8, t.temp), (32, 16, t.crc)]
  | _ => []

/-- The value of a register: its stored fields, with the fields that lie elsewhere (R19, R22). -/
def State.regValue (s : State) (r : Row) (is : List Nat) (off : Nat) : Nat :=
  (s.liveAon r.reg is ++ s.liveHost r.reg is ++ s.liveFlow r.reg is ++ s.liveMem r.reg is ++ s.liveLink r.reg is ++ s.liveEngine r.reg is ++
    s.liveCluster r.reg is).foldl (fun v c => setBits v c.1 c.2.1 c.2.2) (s.reg off).toNat

/-- The ring setup registers read 0 before READY (R486). -/
def ringSetup (r : Reg) : Bool :=
  r == .ringBase || r == .ringkCfg || r == .ringPtr || r == .ringkStat || r == .ringIrq || r == .ringCtl || r == .ringCount

/-- What a host read of the register at an offset returns; a reserved offset reads 0 (R725). -/
def State.readReg (s : State) (off : Nat) : W64 := match findReg off with
  | some (r, is) =>
    if s.answers r is off false && !(ringSetup r.reg && !s.bootDone) then BitVec.ofNat 64 (s.regValue r is off) else 0
  | none => 0

/-! ### Split reads and the SMBus target -/

/-- The register that an access at an offset reaches (R726): its own, or the 64-bit register whose high half lies there. -/
def accessed (off : Nat) : Option Nat :=
  if (findReg off).isSome then some off
  else if off % 8 = 4 && (findReg (off - 4)).any (fun r => r.1.wide) then some (off - 4) else none

/-- A host access to the register at an offset discards a held low half of any other register (R18). -/
def State.dropHeld (s : State) (off : Nat) : State :=
  if (accessed off).any (fun o => s.held.any (fun h => h.1 ≠ o)) then { s with held := none } else s

/-- What a naturally aligned 64-bit read returns: a 64-bit register, or the 32-bit registers at the offset and 4 bytes on (R12, R726). -/
def State.read64 (s : State) (off : Nat) : W64 :=
  if (findReg off).any (fun r => r.1.wide) then s.readReg off
  else BitVec.ofNat 64 ((s.readReg off).toNat % 2 ^ 32 + (s.readReg (off + 4)).toNat % 2 ^ 32 * 2 ^ 32)

/-- A naturally aligned 32-bit read (R12): the low half of a 64-bit register latches the high half; the next read of the high half
returns the latched value; with none latched it returns the high half as it stands. -/
def State.read32 (s : State) (off : Nat) : State × W64 :=
  let v := s.readReg off
  match findReg off with
  | some (r, _) =>
    (if r.wide then { s with latch := kSet s.latch off (BitVec.ofNat 64 (fget v 32 32)) } else s, BitVec.ofNat 64 (fget v 0 32))
  | none => match accessed off with
    | some o => match kGet s.latch o with
      | some h => ({ s with latch := kDel s.latch o }, h)
      | none => (s, BitVec.ofNat 64 (fget (s.readReg o) 32 32))
    | none => (s, 0)

/-- One of the four 32-bit words of an entry of the MSI-X table. -/
def MsixEntry.word (e : MsixEntry) (w : Nat) : Nat :=
  match w with
  | 0 => e.addr % 2 ^ 32
  | 1 => e.addr / 2 ^ 32
  | 2 => e.data
  | _ => if e.masked then 1 else 0

/-- A 32-bit word of BAR2 (R484): the MSI-X table and the pending-bit array; 0 elsewhere. -/
def State.bar2Word (s : State) (o : Nat) : Nat :=
  if 0x8000 ≤ o && o < 0x8400 then (s.host.msix.getD ((o - 0x8000) / 16) {}).word (o / 4 % 4)
  else if o = 0x9000 then s.host.pba % 2 ^ 32
  else if o = 0x9004 then s.host.pba / 2 ^ 32
  else 0

/-- A read of BAR2 (R484). -/
def State.bar2Read (s : State) (o size : Nat) : W64 :=
  if size = 4 && o % 4 = 0 then BitVec.ofNat 64 (s.bar2Word o)
  else if size = 8 && o % 8 = 0 then BitVec.ofNat 64 (s.bar2Word o + s.bar2Word (o + 4) * 2 ^ 32)
  else 0

/-- SPLIT_READ_LATCH (R12, R17, R18, R483, R484, R726): a host read of BAR0 or BAR2 of `size` bytes. Sizes other than 4 and 8 and misaligned
reads return 0. The readings are taken now, so the free values move on. What it returned is in the record of outputs. -/
def doSplitReadLatch (off size : Nat) (s1 : State) : State :=
  let s := s1.hostAccess
  let s0 := s.dropHeld off
  if 2 ^ 21 ≤ off then s.emit (.readData off (s.bar2Read (off - 2 ^ 21) size))
  else if size = 8 && off % 8 = 0 then ({ s0 with freeCtr := s0.freeCtr + 14 }).emit (.readData off (s0.read64 off))
  else if size = 4 && off % 4 = 0 then
    let (s1, v) := s0.read32 off
    ({ s1 with freeCtr := s1.freeCtr + 14 }).emit (.readData off v)
  else s.emit (.readData off 0)

/-- The block that an SMBus command returns (R676). -/
def State.smbusBlock (s : State) (cmd : Nat) : List Byte :=
  let val (f : RF) (is : List Nat := []) : Nat := match findReg (f.off is) with
    | some (r, js) => s.regValue r js (f.off is)
    | none => 0
  match cmd with
  | 0x01 => leBytes 8 (val F.CAPS_FIXED_VARIANT)
  | 0x02 => leBytes 8 (val F.CAPS_LIVE_CL_LIVE)
  | 0x03 => leBytes 4 (val F.BOOT_STATUS_CODE)
  | 0x04 => leBytes 4 (val F.CLK_STAT_TREF_OK)
  | 0x10 => (List.range 26).flatMap (fun k => leBytes 2 (ofSigned 16 (s.temp k)))
  | 0x11 => (List.range 14).flatMap (fun k => leBytes 2 (s.railNow k))
  | 0x12 => (List.range 12).flatMap (fun k => leBytes 2 (s.rf (F.WS_PROC_FREQ.at (k % 4)) [k / 4]))
  | 0x13 => leBytes 8 (val F.WS_VSTAT_VWARN) ++ leBytes 8 (val F.WS_TSTAT_TWARN)
  | 0x20 => if s.bootDone then padTo s.board.identity 32 else zeros 32
  | 0x21 => (if s.hasColl then leBytes 8 (val F.FLT_STAT_STAT) else zeros 8) ++ leBytes 8 (val F.BALLAST_STAT_ENGAGED)
  | _ => []

/-- SMBUS_BLOCK_READ (R676): the target answers while VAON and VAUX, rails 12 and 13, are within limits. -/
def doSmbusBlockRead (cmd : Nat) (s : State) : State :=
  if s.power.below.testBit 12 || s.power.below.testBit 13 then s
  else (({ s with freeCtr := s.freeCtr + 14 }).emit (.smbus (s.smbusBlock cmd)))

/-- SPLIT_READ_LATCH. -/
def execSplitReadLatch (a : ReadAccess) (s : State) : Host.Outcome State Fault Refusal := .next (doSplitReadLatch a.off a.size s)
/-- SMBUS_BLOCK_READ. -/
def execSmbusBlockRead (cmd : Nat) (s : State) : Host.Outcome State Fault Refusal := .next (doSmbusBlockRead cmd s)

end Sys2Proof.Machine
end

