-- ==== Sys2Proof/Machine/HostWrite.lean ====
section
/-! DEFINITION. A host write of any register (REGISTER_WRITE): widths and split writes (R17, R18, R726), gating (R727), and what each
register does with the value beyond the rules of its fields. -/

namespace Sys2Proof.Machine

/-- WS_TEMP_THR: WARN at or above CRIT, or CRIT above 170 °C, leaves the register unchanged (R675). -/
def State.writeTempThr (s : State) (v : W64) : State :=
  let warn := toSigned 16 (fget v 0 16)
  let crit := toSigned 16 (fget v 16 16)
  if crit ≤ warn || 2720 < crit then s else s.writeFields (F.WS_TEMP_THR_WARN.off []) v

/-- WS_RAIL_THR_r: a RESET_LO at or above WARN_LO leaves that field unchanged (R695). -/
def State.writeRailThr (s : State) (r : Nat) (v : W64) : State :=
  let s1 := s.writeFields (F.WS_RAIL_THR_WARN_LO.off [r]) v
  if fget v 16 16 ≥ s1.rf F.WS_RAIL_THR_WARN_LO [r] then s1.setRf F.WS_RAIL_THR_RESET_LO [r] (s.rf F.WS_RAIL_THR_RESET_LO [r]) else s1

/-- A register whose channel mask clears with its W1C bit 0 (R261, R311). -/
def State.writeMasked (s : State) (off : Nat) (ch : RF) (is : List Nat) (v : W64) : State :=
  let s1 := s.writeFields off v
  if fget v 0 1 = 1 then s1.setRf ch is 0 else s1

/-- MC_m_LOG_j_2: VALID frees the entry (R545, R554). -/
def State.writeMemLog (s : State) (off m j : Nat) (v : W64) : State :=
  let s1 := s.writeFields off v
  if fget v 56 1 = 1 then s1.upMc m (fun c => { c with logOrder := c.logOrder.filter (· ≠ j) }) else s1

/-- DTIME_STAT (R61): COARSE counts from its clearing on. -/
def State.writeDtimeStat (s : State) (v : W64) : State :=
  let s1 := s.writeFields (F.DTIME_STAT_SRC.off []) v
  if fget v 1 1 = 1 then { s1 with clk := { s1.clk with coarseFrom := s1.dtime } } else s1

/-- PAIR_CTL (R601, R602, R625). -/
def State.writePairCtl (s : State) (v : W64) : State := if fget v 0 1 = 1 then doClaim v s else doClaimRelease v s

/-- FCHAIN_kk_CTL: a write of the high half alone writes no LEN_M1, so the window does not restart (R18, R344). -/
def State.writeChain (s : State) (off k : Nat) (highOnly : Bool) (v : W64) : State :=
  if highOnly then s.writeFields off v else s.writeChainCtl k v

/-- A write of a whole register: the value each field takes, and what the register does. -/
def State.writeReg (s : State) (r : Reg) (is : List Nat) (off : Nat) (highOnly : Bool) (v : W64) : State :=
  let i := is.headD 0
  let u := is.getD 1 0
  match r with
  | .rstCtl => doChipReset v s
  | .rstBlock => doBlockReset v false s
  | .pwrDomCtl => writeDomCtl i v s
  | .lullCtl => doLullWake v s
  | .wsTempThr => s.writeTempThr v
  | .wsRailThr => s.writeRailThr i v
  | .fltStat => doFaultStatusClear v s
  | .fltReact => s.writeFields off (if i = 0 then BitVec.ofNat 64 (setBits v.toNat 0 8 (s.rf F.FLT_REACT_REACT [0])) else v)
  | .fltInjCtl => s.writeInject v
  | .ballastCtl => doBallastEngageWrite v s
  | .ringBase => if s.bootDone && !s.ringOn i then s.writeFields off v else s
  | .ringkCfg => s.writeRingCfg i v
  | .ringIrq => if s.bootDone then s.writeFields off v else s
  | .ringCtl => doRingReset i v s
  | .hostCtl => (s.writeFields off v).noteMet
  | .paddockWarden => doPaddockWardenWrite v s
  | .mcArbPrio => doArbPrioWrite i false v s
  | .mcArbLimit => doArbPrioWrite i true v s
  | .mcPprCtl => doPprRun i v s
  | .mcLog2 => s.writeMemLog off i u v
  | .admCtl => doCeilPctWrite v s
  | .ringCfg => doRingCfgWrite v s
  | .plCtl => doLinkEnable i v s
  | .pairCtl => s.writePairCtl v
  | .calSet => doCalSet v s
  | .dtimeStat => s.writeDtimeStat v
  | .fchainCtl => s.writeChain off (12 * i + u) highOnly v
  | .clSiteMask => doSiteMaskWrite i v s
  | .clSeqCtl => doSeqCtlAbort i v s
  | .clDriftCtl => s.writeDriftCtl i v
  | .clTimEvt => s.writeMasked off F.CL_TIM_EVT_CLOSE_CH is v
  | .clCmpEvt => s.writeMasked off F.CL_CMP_EVT_BOTH_CH is v
  | .clTrgCtl => doTrigArm i u v s
  | .clAdcCfg => doAdcAlign i v s
  | .clImtrCtl => doImeterAbort i u v s
  | .clDsk => doDeskewWrite i u false v s
  | .clDsk2 => doDeskewWrite i u true v s
  | .feCapCtl => (s.settleChains i (4 * s.dtime)).writeFields off v
  | .clCapCtl => (s.settleCredit i (2000 * s.dtime)).writeFields off v
  | _ => s.writeFields off v

/-- The value that a write of the high half alone amounts to: in the low half, RW bits as they stand and 0 elsewhere (R18). -/
def State.highValue (s : State) (r : Row) (is : List Nat) (off hi : Nat) : W64 :=
  let old := s.regValue r is off % 2 ^ 32
  let low := (r.flds.flatMap Fld.spread).foldl (fun v f =>
    if f.acc == .rw && f.lo < 32 then setBits v f.lo f.w (bitsOf old f.lo f.w) else v) 0
  BitVec.ofNat 64 (low % 2 ^ 32 + hi % 2 ^ 32 * 2 ^ 32)

/-- A 32-bit write (R17, R18, R726); one at an offset where no register lies is ignored, and keeps a held half (R725). -/
def State.write32 (s : State) (off : Nat) (v : Nat) : State :=
  match findReg off with
  | some (r, is) =>
    if !r.wide then s.busWrite off (fun s => s.writeReg r.reg is off false (BitVec.ofNat 64 (v % 2 ^ 32)))
    else s.busWrite off (fun s => { s with held := some (off, BitVec.ofNat 64 (v % 2 ^ 32)) })
  | none => match findReg (off - 4) with
    | some (r, is) =>
      if off % 8 = 4 && r.wide then match s.held with
        | some (o, lo) =>
          if o = off - 4 then
            s.busWrite (off - 4) (fun s => s.writeReg r.reg is (off - 4) false (BitVec.ofNat 64 (lo.toNat + v % 2 ^ 32 * 2 ^ 32)))
          else s.busWrite (off - 4) (fun s => s.writeReg r.reg is (off - 4) true (s.highValue r is (off - 4) v))
        | none => s.busWrite (off - 4) (fun s => s.writeReg r.reg is (off - 4) true (s.highValue r is (off - 4) v))
      else s
    | none => s

/-! ### BAR2 (R484) -/

/-- An entry of the MSI-X table with one of its four 32-bit words written: address, upper address, data, vector control. The low two bits
of the address and all of the vector control but the mask bit are held at 0 (log entry 41). -/
def MsixEntry.write (e : MsixEntry) (w x : Nat) : MsixEntry :=
  match w with
  | 0 => { e with addr := e.addr / 2 ^ 32 * 2 ^ 32 + x / 4 * 4 }
  | 1 => { e with addr := e.addr % 2 ^ 32 + x * 2 ^ 32 }
  | 2 => { e with data := x }
  | _ => { e with masked := x.testBit 0 }

/-- A 32-bit word of the MSI-X table is written. -/
def State.msixWord (s : State) (o x : Nat) : State :=
  { s with host := { s.host with msix := s.host.msix.modify (o / 16) (fun e => e.write (o / 4 % 4) x) } }

/-- A naturally aligned write in BAR2 (R484, R500): a 32-bit write at the start of a window is that ring's doorbell; one of the MSI-X table
writes it, and a message whose vector it unmasks goes out. Every other is ignored. -/
def State.bar2Write (s : State) (o size : Nat) (v : W64) : State :=
  if size = 4 && o < 0x4000 && o % 0x100 = 0 then s.doorbell (o / 0x100) v
  else if 0x8000 ≤ o && o < 0x8400 then
    if size = 4 && o % 4 = 0 then (s.msixWord (o - 0x8000) (fget v 0 32)).msiFlush
    else if size = 8 && o % 8 = 0 then ((s.msixWord (o - 0x8000) (fget v 0 32)).msixWord (o - 0x8000 + 4) (fget v 32 32)).msiFlush
    else s
  else s

/-- REGISTER_WRITE (R17-R21, R484, R725-R727): a naturally aligned write of 4 or 8 bytes in BAR0, or in BAR2; any other is ignored. -/
def doRegisterWrite (off size : Nat) (v : W64) (s0 : State) : State :=
  let s := s0.hostAccess
  if 2 ^ 21 ≤ off then s.bar2Write (off - 2 ^ 21) size v
  else if size = 8 && off % 8 = 0 then match findReg off with
    | some (r, is) =>
      s.busWrite off (fun s => s.writeReg r.reg is off false (if r.wide then v else BitVec.ofNat 64 (v.toNat % 2 ^ 32)))
    | none => s
  else if size = 4 && off % 4 = 0 then s.write32 off v.toNat
  else s

/-- REGISTER_WRITE. -/
def execRegisterWrite (off size : Nat) (v : W64) (s : State) : Host.Outcome State Fault Refusal := .next (doRegisterWrite off size v s)

end Sys2Proof.Machine
end

