-- ==== Sys2Proof/Machine/Dispatch.lean ====
section
/-! DEFINITION. The dispatch: one arm per command, each a direct call of its meaning. -/

namespace Sys2Proof.Machine

def exec (i : Instr) (s : State) : Host.Outcome State Fault Refusal :=
  match i with
  | .nop sq idx => Sys2Proof.Machine.execNop sq idx s
  | .declareSite sq idx => Sys2Proof.Machine.execDeclareSite sq idx s
  | .undeclareSite sq idx => Sys2Proof.Machine.execUndeclareSite sq idx s
  | .deferredDeclaration sq idx => Sys2Proof.Machine.execDeferredDeclaration sq idx s
  | .deferredUndeclaration sq idx => Sys2Proof.Machine.execDeferredUndeclaration sq idx s
  | .loadPattern sq idx src => Sys2Proof.Machine.execLoadPattern sq idx src s
  | .objectLoadComplete sq idx ue => Sys2Proof.Machine.execObjectLoadComplete sq idx ue s
  | .unloadPattern sq idx => Sys2Proof.Machine.execUnloadPattern sq idx s
  | .deferredUnload sq idx => Sys2Proof.Machine.execDeferredUnload sq idx s
  | .apgFallback sq idx => Sys2Proof.Machine.execApgFallback sq idx s
  | .bindApg sq idx src => Sys2Proof.Machine.execBindApg sq idx src s
  | .deferredBindApg sq idx => Sys2Proof.Machine.execDeferredBindApg sq idx s
  | .loadTset sq idx src => Sys2Proof.Machine.execLoadTset sq idx src s
  | .deferredTsetLoad sq idx => Sys2Proof.Machine.execDeferredTsetLoad sq idx s
  | .unloadTset sq idx => Sys2Proof.Machine.execUnloadTset sq idx s
  | .deferredTsetUnload sq idx => Sys2Proof.Machine.execDeferredTsetUnload sq idx s
  | .calibrate sq idx => Sys2Proof.Machine.execCalibrate sq idx s
  | .calibrationStart sq idx => Sys2Proof.Machine.execCalibrationStart sq idx s
  | .calibrationComplete sq idx meas => Sys2Proof.Machine.execCalibrationComplete sq idx meas s
  | .runBurst sq idx => Sys2Proof.Machine.execRunBurst sq idx s
  | .abortOp sq idx => Sys2Proof.Machine.execAbortOp sq idx s
  | .readPlacement sq idx => Sys2Proof.Machine.execReadPlacement sq idx s
  | .defineRegion sq idx => Sys2Proof.Machine.execDefineRegion sq idx s
  | .deferredRegionDefine sq idx => Sys2Proof.Machine.execDeferredRegionDefine sq idx s
  | .freeRegion sq idx => Sys2Proof.Machine.execFreeRegion sq idx s
  | .deferredRegionFree sq idx => Sys2Proof.Machine.execDeferredRegionFree sq idx s
  | .clearRegion sq idx => Sys2Proof.Machine.execClearRegion sq idx s
  | .deferredRegionClear sq idx => Sys2Proof.Machine.execDeferredRegionClear sq idx s
  | .readRegion sq idx => Sys2Proof.Machine.execReadRegion sq idx s
  | .readSiteResult sq idx => Sys2Proof.Machine.execReadSiteResult sq idx s
  | .acquire sq idx => Sys2Proof.Machine.execAcquire sq idx s
  | .measureInterval sq idx => Sys2Proof.Machine.execMeasureInterval sq idx s
  | .loadFlow sq idx src => Sys2Proof.Machine.execLoadFlow sq idx src s
  | .unloadFlow sq idx => Sys2Proof.Machine.execUnloadFlow sq idx s
  | .loadPeList sq idx src => Sys2Proof.Machine.execLoadPeList sq idx src s
  | .unloadPeList sq idx => Sys2Proof.Machine.execUnloadPeList sq idx s
  | .deferredPeListUnload sq idx => Sys2Proof.Machine.execDeferredPeListUnload sq idx s
  | .startFlow sq idx => Sys2Proof.Machine.execStartFlow sq idx s
  | .abortTask sq idx => Sys2Proof.Machine.execAbortTask sq idx s
  | .signalTask sq idx => Sys2Proof.Machine.execSignalTask sq idx s
  | .readTask sq idx => Sys2Proof.Machine.execReadTask sq idx s
  | .lockDesc sq idx => Sys2Proof.Machine.execLockDesc sq idx s
  | .lockTimeout sq idx t => Sys2Proof.Machine.execLockTimeout sq idx t s
  | .unlockDesc sq idx => Sys2Proof.Machine.execUnlockDesc sq idx s
  | .laneRevive sq idx => Sys2Proof.Machine.execLaneRevive sq idx s
  | .ringAlign sq idx => Sys2Proof.Machine.execRingAlign sq idx s
  | .pairJoin sq idx => Sys2Proof.Machine.execPairJoin sq idx s
  | .pairLeave sq idx => Sys2Proof.Machine.execPairLeave sq idx s
  | .pairSwitch sq idx => Sys2Proof.Machine.execPairSwitch sq idx s
  | .lullEnter sq idx => Sys2Proof.Machine.execLullEnter sq idx s
  | .readLife sq idx => Sys2Proof.Machine.execReadLife sq idx s
  | .lifeFlush sq idx => Sys2Proof.Machine.execLifeFlush sq idx s
  | .patchApply sq idx src => Sys2Proof.Machine.execPatchApply sq idx src s
  | .fenceRelease sq idx => Sys2Proof.Machine.execFenceRelease sq idx s
  | .descriptorFetch k entries ok => Sys2Proof.Machine.execDescriptorFetch k entries ok s
  | .eventPost k => Sys2Proof.Machine.execEventPost k s
  | .irqTimerExpiry k t => Sys2Proof.Machine.execIrqTimerExpiry k t s
  | .registerWrite off size v => Sys2Proof.Machine.execRegisterWrite off size v s
  | .splitReadLatch a => Sys2Proof.Machine.execSplitReadLatch a s
  | .calSet v => Sys2Proof.Machine.execCalSet v s
  | .seqCtlAbort n v => Sys2Proof.Machine.execSeqCtlAbort n v s
  | .siteMaskWrite n v => Sys2Proof.Machine.execSiteMaskWrite n v s
  | .driftEnable n v => Sys2Proof.Machine.execDriftEnable n v s
  | .driftDisable n v => Sys2Proof.Machine.execDriftDisable n v s
  | .resetTrim n v => Sys2Proof.Machine.execResetTrim n v s
  | .deskewWrite n c second v => Sys2Proof.Machine.execDeskewWrite n c second v s
  | .adcAlign n v => Sys2Proof.Machine.execAdcAlign n v s
  | .adcAlignmentComplete n m0 m1 t => Sys2Proof.Machine.execAdcAlignmentComplete n m0 m1 t s
  | .chainPreset k v => Sys2Proof.Machine.execChainPreset k v s
  | .fchainEnable k v => Sys2Proof.Machine.execFchainEnable k v s
  | .trigArm n u v => Sys2Proof.Machine.execTrigArm n u v s
  | .imeterAbort n u v => Sys2Proof.Machine.execImeterAbort n u v s
  | .paddockWardenWrite v => Sys2Proof.Machine.execPaddockWardenWrite v s
  | .ringEnable k v => Sys2Proof.Machine.execRingEnable k v s
  | .ringDisable k v => Sys2Proof.Machine.execRingDisable k v s
  | .ringReset k v => Sys2Proof.Machine.execRingReset k v s
  | .submissionDoorbell k v => Sys2Proof.Machine.execSubmissionDoorbell k v s
  | .headDoorbell k v => Sys2Proof.Machine.execHeadDoorbell k v s
  | .hostIslandReset kind => Sys2Proof.Machine.execHostIslandReset kind s
  | .arbPrioWrite m limit v => Sys2Proof.Machine.execArbPrioWrite m limit v s
  | .ceilPctWrite v => Sys2Proof.Machine.execCeilPctWrite v s
  | .pprRun m v => Sys2Proof.Machine.execPprRun m v s
  | .linkEnable n v => Sys2Proof.Machine.execLinkEnable n v s
  | .ringCfgWrite v => Sys2Proof.Machine.execRingCfgWrite v s
  | .claim v => Sys2Proof.Machine.execClaim v s
  | .claimWaitExpiry t => Sys2Proof.Machine.execClaimWaitExpiry t s
  | .claimGuardExpiry t => Sys2Proof.Machine.execClaimGuardExpiry t s
  | .claimRelease v => Sys2Proof.Machine.execClaimRelease v s
  | .faultStatusClear v => Sys2Proof.Machine.execFaultStatusClear v s
  | .faultInjection v => Sys2Proof.Machine.execFaultInjection v s
  | .addressInjection v => Sys2Proof.Machine.execAddressInjection v s
  | .injCancel v => Sys2Proof.Machine.execInjCancel v s
  | .ballastEngageWrite v => Sys2Proof.Machine.execBallastEngageWrite v s
  | .domainOn j v => Sys2Proof.Machine.execDomainOn j v s
  | .domainOff j v => Sys2Proof.Machine.execDomainOff j v s
  | .lullWake v => Sys2Proof.Machine.execLullWake v s
  | .lullWakeAtExpiry t => Sys2Proof.Machine.execLullWakeAtExpiry t s
  | .chipReset v => Sys2Proof.Machine.execChipReset v s
  | .blockReset a => Sys2Proof.Machine.execBlockReset a s
  | .blockResetReturn t => Sys2Proof.Machine.execBlockResetReturn t s
  | .coldReset cause => Sys2Proof.Machine.execColdReset cause s
  | .pinReset cause => Sys2Proof.Machine.execPinReset cause s
  | .boot inp => Sys2Proof.Machine.execBoot inp s
  | .resetLoopClear t => Sys2Proof.Machine.execResetLoopClear t s
  | .smbusBlockRead cmd => Sys2Proof.Machine.execSmbusBlockRead cmd s
  | .trefLoss t => Sys2Proof.Machine.execTrefLoss t s
  | .trefHoldEnd t => Sys2Proof.Machine.execTrefHoldEnd t s
  | .pllRelock t => Sys2Proof.Machine.execPllRelock t s
  | .lrefLoss t => Sys2Proof.Machine.execLrefLoss t s
  | .lrefReturn t => Sys2Proof.Machine.execLrefReturn t s
  | .xtalLoss t => Sys2Proof.Machine.execXtalLoss t s
  | .xtalReturn t => Sys2Proof.Machine.execXtalReturn t s
  | .calsecAdvance t => Sys2Proof.Machine.execCalsecAdvance t s
  | .replicaCheck island replica t => Sys2Proof.Machine.execReplicaCheck island replica t s
  | .syncOutPulse t => Sys2Proof.Machine.execSyncOutPulse t s
  | .admWaitExpiry isGroup id t => Sys2Proof.Machine.execAdmWaitExpiry isGroup id t s
  | .ageLimitExpiry isGroup id t => Sys2Proof.Machine.execAgeLimitExpiry isGroup id t s
  | .xholdExpiry isGroup id t => Sys2Proof.Machine.execXholdExpiry isGroup id t s
  | .burstStart isGroup id t => Sys2Proof.Machine.execBurstStart isGroup id t s
  | .vec n sl => Sys2Proof.Machine.execVec n sl s
  | .rpt n sl => Sys2Proof.Machine.execRpt n sl s
  | .reelLoop n sl => Sys2Proof.Machine.execReelLoop n sl s
  | .endl n sl => Sys2Proof.Machine.execEndl n sl s
  | .mloop n sl => Sys2Proof.Machine.execMloop n sl s
  | .mend n sl => Sys2Proof.Machine.execMend n sl s
  | .jmp n sl => Sys2Proof.Machine.execJmp n sl s
  | .call n sl => Sys2Proof.Machine.execCall n sl s
  | .ret n sl => Sys2Proof.Machine.execRet n sl s
  | .brf n sl => Sys2Proof.Machine.execBrf n sl s
  | .brp n sl => Sys2Proof.Machine.execBrp n sl s
  | .branchDecision n sl => Sys2Proof.Machine.execBranchDecision n sl s
  | .setMux n sl => Sys2Proof.Machine.execSetMux n sl s
  | .apgv n sl => Sys2Proof.Machine.execApgv n sl s
  | .reelEnd n sl => Sys2Proof.Machine.execReelEnd n sl s
  | .checkpointCommit n sl => Sys2Proof.Machine.execCheckpointCommit n sl s
  | .vectorStart n sl samples => Sys2Proof.Machine.execVectorStart n sl samples s
  | .stopRequest n sl status t => Sys2Proof.Machine.execStopRequest n sl status t s
  | .burstComplete isGroup id => Sys2Proof.Machine.execBurstComplete isGroup id s
  | .retryGapExpiry tid t => Sys2Proof.Machine.execRetryGapExpiry tid t s
  | .driftMeasurement n gain offset t => Sys2Proof.Machine.execDriftMeasurement n gain offset t s
  | .driftAcquireUpdate n gain offset t => Sys2Proof.Machine.execDriftAcquireUpdate n gain offset t s
  | .regionHeaderWrite id ue t => Sys2Proof.Machine.execRegionHeaderWrite id ue t s
  | .captureRecordWrite n ue => Sys2Proof.Machine.execCaptureRecordWrite n ue s
  | .bitmapWriteback n ix ue => Sys2Proof.Machine.execBitmapWriteback n ix ue s
  | .adcSample k code t => Sys2Proof.Machine.execAdcSample k code t s
  | .sampleBlockWrite e ue => Sys2Proof.Machine.execSampleBlockWrite e ue s
  | .mmWindowEnd k t => Sys2Proof.Machine.execMmWindowEnd k t s
  | .fclkLoss n t => Sys2Proof.Machine.execFclkLoss n t s
  | .fclkReturn n t => Sys2Proof.Machine.execFclkReturn n t s
  | .acquisitionStart site t => Sys2Proof.Machine.execAcquisitionStart site t s
  | .acquisitionStop site t => Sys2Proof.Machine.execAcquisitionStop site t s
  | .trigInEdge j rising t => Sys2Proof.Machine.execTrigInEdge j rising t s
  | .triggerEventArrival n u src stamp arrive => Sys2Proof.Machine.execTriggerEventArrival n u src stamp arrive s
  | .triggerDecision n u t => Sys2Proof.Machine.execTriggerDecision n u t s
  | .triggerRearm n u t => Sys2Proof.Machine.execTriggerRearm n u t s
  | .trigOutPulseEnd j t => Sys2Proof.Machine.execTrigOutPulseEnd j t s
  | .meterArm n ix t => Sys2Proof.Machine.execMeterArm n ix t s
  | .meterEdge n ix stop coarse phase => Sys2Proof.Machine.execMeterEdge n ix stop coarse phase s
  | .meterTimeout n ix t => Sys2Proof.Machine.execMeterTimeout n ix t s
  | .meterOverflow n ix t => Sys2Proof.Machine.execMeterOverflow n ix t s
  | .runBurstStep tid => Sys2Proof.Machine.execRunBurstStep tid s
  | .measureIntervalStep tid => Sys2Proof.Machine.execMeasureIntervalStep tid s
  | .acquireStep tid => Sys2Proof.Machine.execAcquireStep tid s
  | .setPe tid => Sys2Proof.Machine.execSetPe tid s
  | .powerDut tid => Sys2Proof.Machine.execPowerDut tid s
  | .powerDutSettleEnd tid t => Sys2Proof.Machine.execPowerDutSettleEnd tid t s
  | .peListStart n => Sys2Proof.Machine.execPeListStart n s
  | .peListDone n readback => Sys2Proof.Machine.execPeListDone n readback s
  | .abortOpStep tid => Sys2Proof.Machine.execAbortOpStep tid s
  | .waitEvent tid => Sys2Proof.Machine.execWaitEvent tid s
  | .clearFlags tid => Sys2Proof.Machine.execClearFlags tid s
  | .flowDelay tid => Sys2Proof.Machine.execFlowDelay tid s
  | .branchOn tid => Sys2Proof.Machine.execBranchOn tid s
  | .flowJump tid => Sys2Proof.Machine.execFlowJump tid s
  | .flowAlu tid => Sys2Proof.Machine.execFlowAlu tid s
  | .flowRetry tid => Sys2Proof.Machine.execFlowRetry tid s
  | .callFlow tid => Sys2Proof.Machine.execCallFlow tid s
  | .flowReturn tid => Sys2Proof.Machine.execFlowReturn tid s
  | .flowEnd tid => Sys2Proof.Machine.execFlowEnd tid s
  | .flowSignal tid => Sys2Proof.Machine.execFlowSignal tid s
  | .lockStep tid => Sys2Proof.Machine.execLockStep tid s
  | .unlockStep tid => Sys2Proof.Machine.execUnlockStep tid s
  | .logStep tid => Sys2Proof.Machine.execLogStep tid s
  | .setMask tid => Sys2Proof.Machine.execSetMask tid s
  | .armTrigger tid => Sys2Proof.Machine.execArmTrigger tid s
  | .setPrio tid => Sys2Proof.Machine.execSetPrio tid s
  | .yield tid => Sys2Proof.Machine.execYield tid s
  | .nopStep tid => Sys2Proof.Machine.execNopStep tid s
  | .contextFetchDone slot => Sys2Proof.Machine.execContextFetchDone slot s
  | .quantumExpiry tid => Sys2Proof.Machine.execQuantumExpiry tid s
  | .taskTimerExpiry tid t => Sys2Proof.Machine.execTaskTimerExpiry tid t s
  | .flowCoreFailure core => Sys2Proof.Machine.execFlowCoreFailure core s
  | .arbiterDecision m reqs t => Sys2Proof.Machine.execArbiterDecision m reqs t s
  | .readDataReturn m r => Sys2Proof.Machine.execReadDataReturn m r s
  | .refreshOwedTick m => Sys2Proof.Machine.execRefreshOwedTick m s
  | .mr4Poll m rate t => Sys2Proof.Machine.execMr4Poll m rate t s
  | .wck2dqOscillator m => Sys2Proof.Machine.execWck2dqOscillator m s
  | .scrubRead m => Sys2Proof.Machine.execScrubRead m s
  | .pprAutoStart m t => Sys2Proof.Machine.execPprAutoStart m t s
  | .pprComplete m t => Sys2Proof.Machine.execPprComplete m t s
  | .trainBlock n k v t => Sys2Proof.Machine.execTrainBlock n k v t s
  | .trainingAttemptTimeout n k t => Sys2Proof.Machine.execTrainingAttemptTimeout n k t s
  | .linkRetry n t => Sys2Proof.Machine.execLinkRetry n t s
  | .laneLoss n k errs t => Sys2Proof.Machine.execLaneLoss n k errs t s
  | .linkLoss n t => Sys2Proof.Machine.execLinkLoss n t s
  | .laneRetrain n k ok t => Sys2Proof.Machine.execLaneRetrain n k ok t s
  | .widthBlock n v t => Sys2Proof.Machine.execWidthBlock n v t s
  | .widthResend n t => Sys2Proof.Machine.execWidthResend n t s
  | .widthSwitch n t => Sys2Proof.Machine.execWidthSwitch n t s
  | .pktReceive n p t => Sys2Proof.Machine.execPktReceive n p t s
  | .tetherPacket p t => Sys2Proof.Machine.execTetherPacket p t s
  | .msgPacket n p t => Sys2Proof.Machine.execMsgPacket n p t s
  | .msgAck n p t => Sys2Proof.Machine.execMsgAck n p t s
  | .ringPacket n p t => Sys2Proof.Machine.execRingPacket n p t s
  | .follow n p t => Sys2Proof.Machine.execFollow n p t s
  | .ackBlock n v t => Sys2Proof.Machine.execAckBlock n v t s
  | .ackSend n t => Sys2Proof.Machine.execAckSend n t s
  | .nakBlock n v t => Sys2Proof.Machine.execNakBlock n v t s
  | .eiBlock n v t => Sys2Proof.Machine.execEiBlock n v t s
  | .electricalIdleEntry n t => Sys2Proof.Machine.execElectricalIdleEntry n t s
  | .electricalIdleExit n t => Sys2Proof.Machine.execElectricalIdleExit n t s
  | .trackingHold n k t => Sys2Proof.Machine.execTrackingHold n k t s
  | .alignMarker n marks t => Sys2Proof.Machine.execAlignMarker n marks t s
  | .alignMarkerSend n t => Sys2Proof.Machine.execAlignMarkerSend n t s
  | .syncReady n p t => Sys2Proof.Machine.execSyncReady n p t s
  | .syncStart n p t => Sys2Proof.Machine.execSyncStart n p t s
  | .syncStop n p t => Sys2Proof.Machine.execSyncStop n p t s
  | .syncNogo n p t => Sys2Proof.Machine.execSyncNogo n p t s
  | .failMsg n p t => Sys2Proof.Machine.execFailMsg n p t s
  | .trigMsg n p t => Sys2Proof.Machine.execTrigMsg n p t s
  | .timeMsg n p t => Sys2Proof.Machine.execTimeMsg n p t s
  | .timeSend t => Sys2Proof.Machine.execTimeSend t s
  | .partnerActiveRise t => Sys2Proof.Machine.execPartnerActiveRise t s
  | .takeover t => Sys2Proof.Machine.execTakeover t s
  | .faultLatch src island unit detail addr => Sys2Proof.Machine.execFaultLatch src island unit detail addr s
  | .collectorSelfCheck t => Sys2Proof.Machine.execCollectorSelfCheck t s
  | .sliceFailure n p => Sys2Proof.Machine.execSliceFailure n p s
  | .channelFailure n c => Sys2Proof.Machine.execChannelFailure n c s
  | .captureEngineFailure n => Sys2Proof.Machine.execCaptureEngineFailure n s
  | .filterChainFailure k => Sys2Proof.Machine.execFilterChainFailure k s
  | .imeterFailure n ix => Sys2Proof.Machine.execImeterFailure n ix s
  | .apgFailure k => Sys2Proof.Machine.execApgFailure k s
  | .memoryChannelFailure m => Sys2Proof.Machine.execMemoryChannelFailure m s
  | .tetherFailure => Sys2Proof.Machine.execTetherFailure s
  | .railBelowWarning r first t => Sys2Proof.Machine.execRailBelowWarning r first t s
  | .railAboveWarning r first lowest t => Sys2Proof.Machine.execRailAboveWarning r first lowest t s
  | .railAboveHigh r level t => Sys2Proof.Machine.execRailAboveHigh r level t s
  | .supplyPauseEnd t => Sys2Proof.Machine.execSupplyPauseEnd t s
  | .supplyReset r lowest t => Sys2Proof.Machine.execSupplyReset r lowest t s
  | .tempSample temps t => Sys2Proof.Machine.execTempSample temps t s
  | .processSample freqs t => Sys2Proof.Machine.execProcessSample freqs t s
  | .lifetimeSecond t => Sys2Proof.Machine.execLifetimeSecond t s
  | .snapshot t => Sys2Proof.Machine.execSnapshot t s
  | .logRecordWrite eraseFails progFails => Sys2Proof.Machine.execLogRecordWrite eraseFails progFails s
  | .pcieLinkUp gen width cfg => Sys2Proof.Machine.execPcieLinkUp gen width cfg s
  | .pwrgoodRise t => Sys2Proof.Machine.execPwrgoodRise t s
  | .partnerActiveFall t => Sys2Proof.Machine.execPartnerActiveFall t s
  | .blockError n k t => Sys2Proof.Machine.execBlockError n k t s
  | .mirroredItemApply t => Sys2Proof.Machine.execMirroredItemApply t s
  | .spareCoreReady slot => Sys2Proof.Machine.execSpareCoreReady slot s
  | .backgroundZqCalibration m => Sys2Proof.Machine.execBackgroundZqCalibration m s
  | .tapInstruction code => Sys2Proof.Machine.execTapInstruction code s

end Sys2Proof.Machine
end

