-- ==== Sys2Proof/Machine/Pins.lean ====
section
/-! DEFINITION. The pins whose level follows from other state (R599, R601, R636, R706, R707, R746, R750): FAULT_N, ALERT_N, PAIR_ACTIVE_N,
PE_OWN and the DUTPWR_EN outputs. -/

namespace Sys2Proof.Machine

/-- Some source whose reaction includes F has its status bit set and holds an F hold (R636). The D128L has no status bits, so there the
hold alone counts (log entry 24). -/
def State.faultHeld (s : State) : Bool :=
  (List.range 32).any (fun i => s.collector.holds.testBit i && (s.reactOf i).testBit 4 &&
    (!s.hasColl || (s.reg (F.FLT_STAT_STAT.off [])).toNat.testBit i))

/-- FAULT_N is driven low (R636); it is released until boot has completed (R706, R750). -/
def State.faultLow (s : State) : Bool := s.bootDone && (s.ballastOn || s.rb F.FLT_CTL_FLTN_FORCE || s.faultHeld)

/-- ALERT_N is driven low (R706, R707, R746): from PWRGOOD until a boot has completed. -/
def State.alertLow (s : State) : Bool := s.rst.pwrgood && !s.bootDone

/-- PAIR_ACTIVE_N is driven low (R601). -/
def State.activeLow (s : State) : Bool := s.pair.drive

/-- PE_OWN is driven high (R599). -/
def State.peOwnHigh (s : State) : Bool := s.pair.peOwn

/-- DUTPWR_EN of cluster n is driven high (R350, R429). -/
def State.dutpwrHigh (s : State) (n : Nat) : Bool := (s.pePort n).dutpwr

end Sys2Proof.Machine
end

