-- ==== Sys2Proof/Safety.lean ====
section
/-! DEFINITION. What a claim may call a safe run: every step answers a next state, and the device memory and the register file keep
their canonical forms. -/

namespace Sys2Proof.Safety

open Sys2Proof.Machine

/-- Keys rise strictly, so that equal tables are equal lists. -/
def rising {α : Type} : List (Nat × α) → Bool
  | [] => true
  | [_] => true
  | a :: b :: l => a.1 < b.1 && rising (b :: l)

/-- The canonical forms of a state: device memory lists rising addresses and no zero byte (R198), the register file rising offsets. -/
def canonical (s : State) : Bool := Memory.wf s.mem && rising s.regs

/-- A descriptor is in flight at a place of a ring with this opcode, and may begin (R503, R505). -/
abbrev ready (s : State) (sq idx op : Nat) (d : Desc) : Prop := s.desc sq idx = some d ∧ d.op = op ∧ s.mayBegin d = true

/-- The register at an offset exists, and answers a host write (R727). -/
def writable (s : State) (off : Nat) : Bool := match findReg off with
  | some (r, is) => s.answers r is off true
  | none => false

/-- The chip's units are as many as the spec gives it: rings (R485), logical slices and clusters (R1), links, memory channels, PE ports, ADC
ports, filter chains, trigger units, interval meters, APG units, TRIG_OUT pins, flow-core slots, locks. -/
abbrev shaped (s : State) : Prop :=
  s.host.rings.length = 64 ∧ s.slices.length = 48 ∧ s.clusters.length = 12 ∧ s.links.length = 4 ∧ s.mcs.length = 8 ∧
    s.pe.length = 12 ∧ s.ports.length = 12 ∧ s.chains.length = 24 ∧ s.trigs.length = 96 ∧ s.meters.length = 48 ∧
    s.apgs.length = 4 ∧ s.trigOut.length = 4 ∧ s.paddock.slots.length = 16 ∧ s.paddock.locks.length = 32

/-- Task x runs on its core, may execute, and its next step, of a loaded program, is `st` with an opcode (R413, R462). -/
abbrev stepping (s : State) (tid op : Nat) (x : Task) (st : List Byte) : Prop :=
  s.task tid = some x ∧ s.mayStep tid x = true ∧ stOp st = op ∧
    ∃ o, kGet s.objs x.flow = some o ∧ o.lost = false ∧ x.step < s.fpN o ∧ s.fpStep o x.step = st

/-- From s to u only the task tid has changed, and is y: no other task, no slot, descriptor, site, burst or byte of device memory. -/
def taskOnly (s u : State) (tid : Nat) (y : Task) : Prop :=
  u.task tid = some y ∧ (∀ i, i ≠ tid → u.task i = s.task i) ∧ u.paddock.slots = s.paddock.slots ∧ u.host = s.host ∧
    u.sites = s.sites ∧ u.bursts = s.bursts ∧ u.mem = s.mem

/-- The running task x has committed a step as y, and its core is at a step boundary; nothing else of `taskOnly` has changed up to that
boundary (R443, R462). -/
def commits (s t : State) (tid : Nat) (x y : Task) : Prop := ∃ u : State, t = u.boundary x.slot ∧ taskOnly s u tid y

/-- The step `st` of the running task x has ended with an error: its result and LAST_ERR say the status and FCHECK, and the task goes on at
ON_ERR, or ends with the status where ON_ERR is 0xFFFF (R408, R413). -/
def fails (s t : State) (tid : Nat) (x : Task) (st : List Byte) (status fcheck : Nat) : Prop :=
  ∃ (u : State) (y : Task), taskOnly s u tid y ∧ y.flow = x.flow ∧ y.step = (if stOnErr st = 0xFFFF then x.step else stOnErr st) ∧
    y.lastErr = lastErrOf status (stOp st) x.step x.flow ∧ fld y.res 0 1 = status ∧ fld y.res 3 1 = fcheck ∧ y.vars = x.vars ∧
    t = (if stOnErr st = 0xFFFF then u.endTask tid status (fld y.res 1 1) else u.boundary x.slot)

/-- The running task x has begun a wait as y, and its core is free (R443, R457). -/
def waits (s t : State) (tid : Nat) (x y : Task) : Prop :=
  ∃ u : State, t = u.coreFree x.slot ∧ taskOnly s u tid y ∧ y.state = 4 ∧ y.slot = 0xFF ∧ y.begun = true ∧ y.flow = x.flow ∧
    y.step = x.step ∧ y.res = x.res ∧ y.vars = x.vars

/-- Operation slot k of a task is taken by the step `st` of task x: busy, its first attempt, and the done flag of a step that waits is
clear (R414). -/
def taken (s : State) (tid k : Nat) (st : List Byte) : State :=
  (if stWait st then s.clearFlagsOf tid (2 ^ k) else s).upTask tid (fun t => { t with ops := t.ops.modify k (fun o => { o with
    busy := true, step := st, stepIdx := t.step, flow := t.flow, attempts := 1, retryAt := none, restart := none, last := [], v0 := false }) })

/-- The operation steps of a task, each with its opcode and slot (R412). -/
def opSteps (tid : Nat) : List (Instr × Nat × Nat) :=
  [(.runBurstStep tid, 1, 0), (.measureIntervalStep tid, 2, 1), (.acquireStep tid, 3, 2), (.setPe tid, 4, 3), (.powerDut tid, 5, 3)]

/-- From s the operation of the step `st` of task x is not refused, and u is the state once it has started: the burst submitted, the meter
set up, the acquisition set up, the list queued on the ports, the sequence begun (R416, R418, R419, R424, R428). -/
def starts (s u : State) (tid : Nat) (x : Task) (st : List Byte) : Prop :=
  (stOp st = 1 ∧ s.submitX (taskSubmit tid x st none) = (u, none)) ∨
  (stOp st = 2 ∧ s.ownSite x (fld st 8 2) = true ∧ s.measRefusal (slice st 8 24) true = 0 ∧ u = s.setupMeas (slice st 8 24) (.task tid)) ∨
  (stOp st = 3 ∧ s.ownSite x (fld st 8 2) = true ∧ s.acqRefusal (stepAcq s.dtime st) true = 0 ∧
    u = s.setupAcq (stepAcq s.dtime st) (.task tid)) ∨
  (stOp st = 4 ∧ s.setPeAbsent st = false ∧ s.taskBlocked x = false ∧ s.setPeCheck x st = (0, 0) ∧ u = s.startSetPe tid x st) ∨
  (stOp st = 5 ∧ s.powerAbsent st = false ∧ s.taskBlocked x = false ∧ s.powerCheck x st = (0, 0) ∧ u = s.startPower tid x st)

/-- Nothing but logical slice g has changed. -/
abbrev sliceOnly (s t : State) (g : Nat) : Prop := { t with slices := s.slices } = s ∧ ∀ k, k ≠ g → t.sl k = s.sl k

/-- The issuer of slice sl of cluster n, global number g, may execute a word: its burst's context is c, its sequencer q, its word w
(R133, R183). -/
abbrev issues (s : State) (n sl g : Nat) (c : Cx) (q : Seq) (w : Nat) : Prop :=
  n < 12 ∧ sl < 4 ∧ g = 4 * n + sl ∧ s.cx g = some c ∧ q = (s.sl g).seq ∧ w = c.word q ∧ q.mayIssue = true ∧ shaped s

/-- The issuer has taken the word w: it is in the instruction window, and the vectors formed so far have entered the expansion queue
as far as its 32 places allow; nothing but that slice has changed (R134, R183). -/
abbrev executed (s t : State) (g : Nat) (w : Nat) : Prop :=
  sliceOnly s t g ∧ ((s.sl g).seq.pc, w) ∈ (t.sl g).seq.window ∧ (t.sl g).seq.window.length ≤ max 1024 (s.sl g).seq.window.length ∧
    (t.sl g).seq.avail.length = max (s.sl g).seq.avail.length (min 32 (((t.sl g).seq.queue.map Run.count).sum))

/-- The commands of the Reel's words, with their opcodes; MEND, which also repeats a loop, is not among them (R139). -/
def reelWords (n sl : Nat) : List (Instr × Nat) :=
  [(.vec n sl, 1), (.rpt n sl, 2), (.reelLoop n sl, 3), (.endl n sl, 4), (.mloop n sl, 5), (.jmp n sl, 7), (.call n sl, 8), (.ret n sl, 9),
    (.brf n sl, 0x0A), (.brp n sl, 0x0B), (.setMux n sl, 0x0C), (.apgv n sl, 0x0D), (.reelEnd n sl, 0x0E)]

/-- The granule at an address reads without error: it keeps none, and no injection is armed at it (R544, R638). -/
abbrev clean (s : State) (a : Nat) : Prop := s.bad.contains (a / 64 * 64) = false ∧ ∀ x, s.collector.armed = some x → x.1 ≠ a / 64 * 64

/-- A packet or message that went out on a link. -/
def sentOn : Out → Option (Nat × PlPacket)
  | .link n p _ => some (n, p)
  | _ => none

/-- A state from which k steps run, each to a next state. -/
def runs : Nat → State → Prop
  | 0, _ => True
  | k + 1, s => ∃ t, step s = .next t ∧ runs k t

end Sys2Proof.Safety
end

