-- ==== Sys2Proof/Certificates/Slice0/Obligations.lean ====
section
/-! DEFINITION. The statements for the provers. Each names the rules of spec/ that it formalises; `Safety.ready` and `Safety.writable` say when a
descriptor may begin and when a register answers. -/

open Sys2Proof Sys2Proof.Machine

/-- For every command c, queue rest and state s, a step of s with c at the front of its queue is exec of c on s with the
queue's rest. (00 scope, 14 host rings) -/
def Obligations.StepRunsFront : Prop :=
  ∀ (c : Instr) (rest : List Instr) (s : State), step { s with pending := c :: rest } = exec c { s with pending := rest }

/-- The model's choice (log entry 2): on an empty queue a step answers a next state; while the time-base PLL is locked
DTIME is 1 ns later there, and device memory, the objects, the sites, the rings and the record of what went out are as
they were. (02 clock islands and time) -/
def Obligations.IdleTickCountsDtime : Prop :=
  ∀ (s : State), s.pending = [] → s.clk.pll = true →
    ∃ t, step s = .next t ∧ t.dtime = s.dtime + 1 ∧ t.mem = s.mem ∧ t.objs = s.objs ∧ t.sites = s.sites ∧ t.host = s.host ∧
      t.out = s.out ∧ t.pending = []

/-- Completing a descriptor in flight whose completion ring is enabled and not in ERROR, with bus mastering enabled, takes
it out of flight and writes at TAIL of that ring a 32-byte entry that carries the descriptor's TAG and OPCODE, the
status, qualifier mask, REASON, AUX, VAL0 and VAL1 of the result, SQ, PHASE, whether the result block was written, HEAD of its
submission ring and INDEX, and 0 in byte 15; device memory is as it was. (R494) -/
def Obligations.CompletionEntryWritten : Prop :=
  ∀ (s : State) (sq idx : Nat) (d : Desc) (r : Result), s.desc sq idx = some d → d.bytes.length = 64 → s.ringOn d.cq = true →
    s.ringErr d.cq = false → s.host.pci.busMaster = true →
    (s.complete sq idx r).desc sq idx = none ∧ (s.complete sq idx r).mem = s.mem ∧
    ∃ b, Out.hostWrite (s.rf F.RING_BASE_ADDR [d.cq] * 4096 + 32 * (s.ring d.cq).tail) b ∈ (s.complete sq idx r).out ∧ b.length = 32 ∧
      fld b 0 4 = fld d.bytes 4 4 ∧ fld b 4 1 = d.op ∧ fld b 5 1 = r.status % 256 ∧ fld b 6 1 = r.qual % 256 ∧
      fld b 7 1 = r.reason % 256 ∧ fld b 8 1 = sq % 256 ∧ fld b 9 1 = ((if fld d.bytes 8 8 ≠ 0 ∧ r.reason ≠ 0xE1 ∧ r.reason ≠ 0xE2 ∧
        r.reason ≠ 0xE3 then 2 else 0) ||| (s.ring d.cq).phase) % 256 ∧ fld b 10 2 = (s.ring sq).head % 2 ^ 16 ∧ fld b 12 2 = idx % 2 ^ 16 ∧ fld b 14 1 = r.aux % 256 ∧ fld b 15 1 = 0 ∧
      fld b 16 8 = r.val0 % 2 ^ 64 ∧ fld b 24 8 = r.val1 % 2 ^ 64

/-- A NOP that may begin completes with OK where its body is zero and with BAD_PARAM otherwise. FENCE_RELEASE of a
descriptor in flight with no earlier descriptor of its ring in flight marks it released and changes nothing else. A
DESCRIPTOR_FETCH of the ring served next, with the chip awake, bus mastering enabled, Ballast released and the chip no
standby, accepts an entry that passes the header checks: the descriptor stands last among those in flight under its
ring's completion ring, HEAD is one further, and device memory is as it was; it loses its object ID at once only where it is
a load whose ID a load in flight holds, or an unload. (R492, R503, R505) -/
def Obligations.DescriptorsBegin : Prop :=
  (∀ (s : State) (sq idx : Nat) (d : Desc), Safety.ready s sq idx 0x00 d →
    exec (.nop sq idx) s = .next (s.finish sq idx (if zeroes d.bytes 16 48 then St.ok else St.bad))) ∧
  (∀ (s : State) (sq idx : Nat) (d : Desc), s.desc sq idx = some d → s.earlier sq idx = [] →
    ∃ t, exec (.fenceRelease sq idx) s = .next t ∧ t = s.upDesc sq idx (fun d => { d with released := true }) ∧
      t.desc sq idx = some { d with released := true }) ∧
  (∀ (s : State) (k : Nat) (b : List Byte), s.served = some k → s.power.lull = 0 → s.host.pci.busMaster = true → b.length = 64 →
    headerCheck b = 0 → s.ballastOn = false → s.pair.role ≠ 2 → 1 ≤ s.fetchRoom k → k < 32 → Safety.shaped s →
    ∃ (t : State) (d e : Desc), exec (.descriptorFetch k [b] true) s = .next t ∧
      d = { sq := k, idx := s.freshIdx k (s.ring k).head, cq := s.cqOf k, bytes := b } ∧
      t.host.inflight = s.host.inflight ++ [e] ∧ { e with loses := false } = d ∧ (d.isLoad = false → d.isUnload = false → e = d) ∧
      (d.isLoad = true → e.loses =
        (s.loads.any (fun l => l.obj.id = fld b 16 4) || s.host.inflight.any (fun x => x.claims (fld b 16 4)))) ∧
      (t.ring k).head = ((s.ring k).head + 1) % s.ringSize k ∧ t.host.lastServed = k ∧ t.mem = s.mem ∧ t.out = s.out)

/-- EVENT_POST of a ring that takes an event of the queue, is not in ERROR and has room, with bus mastering enabled,
writes that event's 32-byte entry at TAIL with the ring's phase, and device memory is as it was. IRQ_TIMER_EXPIRY of a
ring with IRQ_EN, at or past the time its message is due, sets its count to 0 and its timer off and sends the ring's vector: with MSI-X
enabled and neither the function nor the vector masked the message of its table entry goes out, else its bit in the pending-bit array sets;
registers and device memory are as they were. (R499, R502, R506, R507) -/
def Obligations.EventsAndMessages : Prop :=
  (∀ (s : State) (k : Nat) (e : Event), s.host.evq.find? (fun e => s.evRoute e.typ = some k) = some e → s.ringErr k = false →
    s.ringFree k ≠ 0 → s.host.pci.busMaster = true →
    ∃ t, exec (.eventPost k) s = .next t ∧
      Out.hostWrite (s.rf F.RING_BASE_ADDR [k] * 4096 + 32 * (s.ring k).tail) (patch e.bytes 1 [BitVec.ofNat 8 (s.ring k).phase]) ∈ t.out ∧
      t.mem = s.mem) ∧
  (∀ (s : State) (k t0 due : Nat), s.rb F.RINGK_CFG_IRQ_EN [k] = true → (s.ring k).due = some due → due ≤ t0 → Safety.shaped s → k < 64 →
    ∃ (t : State) (vec : Nat), exec (.irqTimerExpiry k t0) s = .next t ∧ vec = s.rf F.RINGK_CFG_VEC [k] ∧
      (s.msiOpen vec = true → t.out = s.out ++ [.msix vec (s.host.msix.getD vec {}).addr (s.host.msix.getD vec {}).data] ∧
        t.host.pba = s.host.pba) ∧
      (s.msiOpen vec = false → t.out = s.out ∧ t.host.pba = s.host.pba ||| 2 ^ vec) ∧ (t.ring k).since = 0 ∧
      (t.ring k).due = none ∧ (t.ring k).tail = (s.ring k).tail ∧ t.regs = s.regs ∧ t.mem = s.mem)

/-- With the register answering, boot done and the ring's EN at 0, a write of RING_k_CFG with EN set stores the bits of the ring's role and
enables a completion or an event ring, and a submission ring whose completion ring, as written, is enabled: EN reads 1, HEAD and TAIL are 0
and the phase 1; the other submission rings are refused with EN 0 and HOST_ERR.CFG_ERR. A write of EN = 0 to an enabled submission or
event ring clears its EN; to a completion ring in which nothing is reserved too, and one with reservations is marked as closing. A write
that leaves EN as it is changes no ring's pointers. RING_k_CTL.RESET with RESET at 1 leaves a ring of any role disabled, with EN, ERR and
CAUSE 0 and HEAD, TAIL and phase 0; with RESET at 0 it does nothing.
Before boot is done these registers take no write. Device memory is as it was. (R486, R508, R509) -/
def Obligations.RingSetup : Prop :=
  (∀ (s : State) (k : Nat) (v : W64), Safety.writable s (F.RINGK_CFG_EN.off [k]) = true → s.bootDone = true → s.ringOn k = false →
    fget v 0 1 = 1 → k < 64 → Safety.shaped s →
    ∃ (t u : State), exec (.ringEnable k v) s = .next t ∧ t.mem = s.mem ∧
      u = ({ s with held := none } : State).hostAccess.writeFields (F.RINGK_CFG_EN.off [k]) (BitVec.ofNat 64
        (((s.reg (F.RINGK_CFG_EN.off [k])).toNat - ((s.reg (F.RINGK_CFG_EN.off [k])).toNat &&& (roleBits k &&& 0xFFFFFFFFFFFFFFFE))) |||
          (v.toNat &&& (roleBits k &&& 0xFFFFFFFFFFFFFFFE)))) ∧
      (32 ≤ k ∨ u.ringOn (u.cqOf k) = true →
        t.ringOn k = true ∧ (t.ring k).head = 0 ∧ (t.ring k).tail = 0 ∧ (t.ring k).phase = 1 ∧ t.host.inflight = s.host.inflight ∧
          (∀ j, j ≠ k → (t.ring j).head = (s.ring j).head ∧ (t.ring j).tail = (s.ring j).tail)) ∧
      (k < 32 → u.ringOn (u.cqOf k) = false → t.ringOn k = false ∧ (t.reg (F.HOST_ERR_RING.off [])).toNat.testBit 4 = true ∧
        t.host.inflight = s.host.inflight)) ∧
  (∀ (s : State) (k : Nat) (v : W64), Safety.writable s (F.RINGK_CFG_EN.off [k]) = true → s.bootDone = true → s.ringOn k = true →
    fget v 0 1 = 0 → k < 32 ∨ 48 ≤ k → k < 64 →
    ∃ t, exec (.ringDisable k v) s = .next t ∧ t.ringOn k = false ∧ t.mem = s.mem ∧ t.host.inflight = s.host.inflight) ∧
  (∀ (s : State) (k : Nat) (v : W64), Safety.writable s (F.RINGK_CFG_EN.off [k]) = true → s.bootDone = true → s.ringOn k = true →
    fget v 0 1 = 0 → 32 ≤ k → k < 48 → Safety.shaped s →
    ∃ t, exec (.ringDisable k v) s = .next t ∧ (s.reserved k = 0 → t.ringOn k = false) ∧
      (s.reserved k ≠ 0 → (t.ring k).closing = true) ∧ t.mem = s.mem ∧ t.host.inflight = s.host.inflight) ∧
  (∀ (s : State) (k : Nat) (v : W64), s.bootDone = false → s.power.lull = 0 → k < 64 →
    exec (.ringEnable k v) s = .next ({ s with held := none } : State).hostAccess ∧
    exec (.ringDisable k v) s = .next ({ s with held := none } : State).hostAccess ∧
    exec (.ringReset k v) s = .next ({ s with held := none } : State).hostAccess) ∧
  (∀ (s : State) (k : Nat) (v : W64), Safety.writable s (F.RING_CTL_RESET.off [k]) = true → s.bootDone = true → fget v 0 1 = 1 → k < 64 →
    ∃ t, exec (.ringReset k v) s = .next t ∧ t.ringOn k = false ∧ t.ringErr k = false ∧ t.rf F.RINGK_STAT_CAUSE [k] = 0 ∧
      (t.ring k).head = 0 ∧ (t.ring k).tail = 0 ∧ (t.ring k).phase = 0 ∧
      t = ((({ s with held := none } : State).hostAccess.resetRing k).noteMet)) ∧
  (∀ (s : State) (k : Nat) (v : W64), Safety.writable s (F.RING_CTL_RESET.off [k]) = true → fget v 0 1 = 0 → k < 64 →
    exec (.ringReset k v) s = .next ({ s with held := none } : State).hostAccess)

/-- With boot done, the chip awake and the ring enabled and not in ERROR, a valid doorbell with a new index sets TAIL of a
submission ring (the requests beyond HEAD grow), and HEAD of a completion or event ring (the unconsumed entries
shrink); registers, device memory and the descriptors in flight are as they were. One that repeats the value does nothing. One that is
not valid, by its index or its direction, puts the ring in ERROR with its pointers as they were, and a submission ring's locks are
abandoned. One to a ring that is not enabled, or in ERROR, only sets HOST_ERR.DB_IGNORED. (R500, R510) -/
def Obligations.Doorbells : Prop :=
  (∀ (s : State) (k : Nat) (v : W64), s.bootDone = true → s.power.lull = 0 → k < 32 → s.ringOn k = true → s.ringErr k = false →
    fget v 0 32 < s.ringSize k → fget v 0 32 ≠ (s.ring k).tail →
    ((s.ring k).tail + s.ringSize k - (s.ring k).head) % s.ringSize k ≤ (fget v 0 32 + s.ringSize k - (s.ring k).head) % s.ringSize k →
    Safety.shaped s →
    ∃ t, exec (.submissionDoorbell k v) s = .next t ∧ (t.ring k).tail = fget v 0 32 ∧ (t.ring k).head = (s.ring k).head ∧
      t.regs = s.regs ∧ t.mem = s.mem ∧ t.host.inflight = s.host.inflight) ∧
  (∀ (s : State) (k : Nat) (v : W64), s.bootDone = true → s.power.lull = 0 → 32 ≤ k → k < 64 → s.ringOn k = true → s.ringErr k = false →
    fget v 0 32 < s.ringSize k → fget v 0 32 ≠ (s.ring k).head →
    ((s.ring k).tail + s.ringSize k - fget v 0 32) % s.ringSize k ≤ ((s.ring k).tail + s.ringSize k - (s.ring k).head) % s.ringSize k →
    Safety.shaped s →
    ∃ t, exec (.headDoorbell k v) s = .next t ∧ (t.ring k).head = fget v 0 32 ∧ (t.ring k).tail = (s.ring k).tail ∧
      t.regs = s.regs ∧ t.mem = s.mem ∧ t.host.inflight = s.host.inflight) ∧
  (∀ (s : State) (k cur : Nat) (v : W64) (i : Instr), s.bootDone = true → s.power.lull = 0 → k < 64 →
    i = (if k < 32 then .submissionDoorbell k v else .headDoorbell k v) → cur = (if k < 32 then (s.ring k).tail else (s.ring k).head) →
    (s.ringOn k = true → s.ringErr k = false → fget v 0 32 = cur → exec i s = .next s.hostAccess) ∧
    (s.ringOn k = true → s.ringErr k = false → fget v 0 32 ≠ cur → s.ringSize k ≤ fget v 0 32 ∨
      (k < 32 ∧ (fget v 0 32 + s.ringSize k - (s.ring k).head) % s.ringSize k < ((s.ring k).tail + s.ringSize k - (s.ring k).head) % s.ringSize k) ∨
      (32 ≤ k ∧ ((s.ring k).tail + s.ringSize k - (s.ring k).head) % s.ringSize k < ((s.ring k).tail + s.ringSize k - fget v 0 32) % s.ringSize k) →
      ∃ t u : State, exec i s = .next t ∧ u.ringErr k = true ∧ u.rf F.RINGK_STAT_CAUSE [k] = 1 ∧ u.host.rings = s.host.rings ∧ u.mem = s.mem ∧
        t = (if k < 32 then u.abandonLocks (.desc k 0) else u).noteMet) ∧
    (s.ringOn k = false ∨ s.ringErr k = true → ∃ t, exec i s = .next t ∧ t.rb F.HOST_ERR_DB_IGNORED = true ∧
      t.host.rings = s.host.rings ∧ t.host.inflight = s.host.inflight ∧ t.mem = s.mem))

/-- HOST_ISLAND_RESET leaves bus mastering and MSI-X disabled, no MSI-X message pending, and after a hot reset or a link
loss the link down with speed and width 0; the loss of the link is reported to the collector as source 23, detail 2.
PCIE_LINK_UP of a legal generation and width on a chip whose PWRGOOD is no rise behind sets LINK_UP, SPEED and WIDTH,
and the configuration space as the host configures it, and sends the pending messages whose vector is then open; registers and device
memory are as they were. (R481, R482, R506, R511) -/
def Obligations.HostIslandAndLink : Prop :=
  (∀ (s : State) (kind : Nat), ∃ t, exec (.hostIslandReset kind) s = .next t ∧ t.host.pci.busMaster = false ∧ t.host.pci.msixEn = false ∧
    t.host.pba = 0 ∧ (kind ≠ 0 → t.host.linkUp = false ∧ t.host.speed = 0 ∧ t.host.width = 0) ∧
    (kind = 2 → ∃ l r, t.collector.reports = l ++ [r] ∧ r.src = 23 ∧ r.island = 25 ∧ r.detail = 2)) ∧
  (∀ (s : State) (gen width : Nat) (cfg : PcieCfg), 1 ≤ gen → gen ≤ 4 → (width = 1 ∨ width = 2 ∨ width = 4) → (s.rst.pwrgood = true ∨ s.rst.due = false) →
    ∃ t, exec (.pcieLinkUp gen width cfg) s = .next t ∧ t.host.linkUp = true ∧ t.host.speed = gen ∧ t.host.width = width ∧
      t.host.pci = cfg ∧ t.regs = s.regs ∧ t.mem = s.mem ∧
      (∀ v, v < 64 → t.host.pba.testBit v = (s.host.pba.testBit v && !t.msiOpen v)) ∧
      (∀ v, v < 64 → s.host.pba.testBit v = true → t.msiOpen v = true →
        Out.msix v (s.host.msix.getD v {}).addr (s.host.msix.getD v {}).data ∈ t.out))

/-- LOAD_TSET of a set of a cluster that is present, whose body and whose 576 bytes pass the checks, stores those bytes
under its number unless an admitted burst would find its prefetch shortened: then it waits, and DEFERRED_TSET_LOAD
stores them once no such burst is left. UNLOAD_TSET of a loaded set no admitted burst may select removes it; one that
may be selected waits, and DEFERRED_TSET_UNLOAD removes it later. Every other set, every other cluster and device
memory stay as they were, and the descriptor completes with OK. (R226, R229, R230, R212) -/
def Obligations.TimingSets : Prop :=
  (∀ (s : State) (sq idx n k : Nat) (d : Desc) (bs : List Byte), Safety.ready s sq idx 0x10 d → Safety.shaped s →
    fld d.bytes 16 1 = n → fld d.bytes 17 1 = k → n < 12 → k < 64 → s.clAbsent n = false → fld d.bytes 24 8 % 64 = 0 →
    zeroes d.bytes 18 6 = true → zeroes d.bytes 32 32 = true → s.host.pci.busMaster = true → bs.length = 576 → tsCheck bs = none →
    (s.tsetHeld n k (tsPeriod bs) = false →
      ∃ t, exec (.loadTset sq idx (some bs)) s = .next t ∧ t = (s.putTset n k bs).finish sq idx St.ok ∧
        kGet (t.cl n).tsets k = some { num := k, bytes := bs } ∧ (∀ j, j ≠ k → kGet (t.cl n).tsets j = kGet (s.cl n).tsets j) ∧
        (∀ m, m ≠ n → t.cl m = s.cl m) ∧ t.desc sq idx = none ∧ t.mem = s.mem) ∧
    (s.tsetHeld n k (tsPeriod bs) = true →
      exec (.loadTset sq idx (some bs)) s = .next (s.wait { sq := sq, idx := idx, kind := .tsetLoad n k bs }))) ∧
  (∀ (s : State) (sq idx n k : Nat) (bs : List Byte) (w : Waiting), s.waitOf sq idx = some w → w.kind = .tsetLoad n k bs → n < 12 →
    s.tsetHeld n k (tsPeriod bs) = false → Safety.shaped s →
    ∃ t, exec (.deferredTsetLoad sq idx) s = .next t ∧ kGet (t.cl n).tsets k = some { num := k, bytes := bs } ∧
      (∀ j, j ≠ k → kGet (t.cl n).tsets j = kGet (s.cl n).tsets j) ∧ (∀ m, m ≠ n → t.cl m = s.cl m) ∧
      t.waitOf sq idx = none ∧ t.desc sq idx = none ∧ t.mem = s.mem) ∧
  (∀ (s : State) (sq idx n k : Nat) (d : Desc) (x : Tset), Safety.ready s sq idx 0x11 d → Safety.shaped s →
    fld d.bytes 16 1 = n → fld d.bytes 17 1 = k → n < 12 → k < 64 → s.clAbsent n = false → zeroes d.bytes 18 46 = true →
    kGet (s.cl n).tsets k = some x →
    (s.tsetUsed n k = false →
      ∃ t, exec (.unloadTset sq idx) s = .next t ∧ t = (s.delTset n k).finish sq idx St.ok ∧ kGet (t.cl n).tsets k = none ∧
        (∀ j, j ≠ k → kGet (t.cl n).tsets j = kGet (s.cl n).tsets j) ∧ (∀ m, m ≠ n → t.cl m = s.cl m) ∧
        t.desc sq idx = none ∧ t.mem = s.mem) ∧
    (s.tsetUsed n k = true → exec (.unloadTset sq idx) s = .next (s.wait { sq := sq, idx := idx, kind := .tsetUnload n k }))) ∧
  (∀ (s : State) (sq idx n k : Nat) (w : Waiting) (x : Tset), s.waitOf sq idx = some w → w.kind = .tsetUnload n k → n < 12 →
    s.tsetUsed n k = false → kGet (s.cl n).tsets k = some x → Safety.shaped s →
    ∃ t, exec (.deferredTsetUnload sq idx) s = .next t ∧ kGet (t.cl n).tsets k = none ∧
      (∀ j, j ≠ k → kGet (t.cl n).tsets j = kGet (s.cl n).tsets j) ∧ (∀ m, m ≠ n → t.cl m = s.cl m) ∧
      t.waitOf sq idx = none ∧ t.desc sq idx = none ∧ t.mem = s.mem)

/-- A write that sets EN of CL_n_DRIFT_CTL begins acquisition, one that clears it ends it and keeps the trims, and
RESET_TRIM with EN at 1 puts back the trims of the last calibration and begins to acquire. A measurement outside
acquisition moves any edge by at most 0.5 ps, and reaches the measured trims where that is enough and they are in
range; the update at the end of an acquisition takes trims in range at once and ends it. Other clusters and device
memory stay as they were. (R240, R241, R242) -/
def Obligations.DriftTrims : Prop :=
  (∀ (s : State) (n : Nat) (v : W64), Safety.writable s (F.CL_DRIFT_CTL_EN.off [n]) = true → n < s.nCl → fget v 0 1 = 1 →
    v.toNat.testBit 1 = false → s.rb F.CL_DRIFT_CTL_EN [n] = false → s.domOn (5 * n + 1) = true → Safety.shaped s →
    ∃ t, exec (.driftEnable n v) s = .next t ∧ t.rb F.CL_DRIFT_CTL_EN [n] = true ∧
      (t.cl n).drift = { (s.cl n).drift with acq := true, acqStart := s.dtime, locked := false } ∧
      (∀ m, m ≠ n → t.cl m = s.cl m) ∧ t.mem = s.mem) ∧
  (∀ (s : State) (n : Nat) (v : W64), Safety.writable s (F.CL_DRIFT_CTL_EN.off [n]) = true → n < s.nCl → fget v 0 1 = 0 →
    v.toNat.testBit 1 = false → Safety.shaped s →
    ∃ t, exec (.driftDisable n v) s = .next t ∧ t.rb F.CL_DRIFT_CTL_EN [n] = false ∧
      (t.cl n).drift = { (s.cl n).drift with acq := false, locked := false } ∧ (∀ m, m ≠ n → t.cl m = s.cl m) ∧ t.mem = s.mem) ∧
  (∀ (s : State) (n : Nat) (v : W64), Safety.writable s (F.CL_DRIFT_CTL_EN.off [n]) = true → n < s.nCl → fget v 0 1 = 1 →
    v.toNat.testBit 1 = true → s.domOn (5 * n + 1) = true → Safety.shaped s →
    ∃ t, exec (.resetTrim n v) s = .next t ∧ (t.cl n).drift = { (s.cl n).drift with
        gain := (s.cl n).drift.calGain, offset := (s.cl n).drift.calOffset, acq := true, acqStart := s.dtime, locked := false } ∧
      (∀ m, m ≠ n → t.cl m = s.cl m) ∧ t.mem = s.mem) ∧
  (∀ (s : State) (n t0 : Nat) (gain offset : Int), n < s.nCl → s.islUp n = true → s.rb F.CL_DRIFT_CTL_EN [n] = true →
    s.domOn (5 * n + 1) = true → (s.cl n).drift.acq = false →
    (s.cl n).drift.last + 1000 * s.rf F.CL_DRIFT_CTL_INTERVAL [n] ≤ t0 → Safety.shaped s →
    ∃ t, exec (.driftMeasurement n gain offset t0) s = .next t ∧
      smallMove ((t.cl n).drift.gain - (s.cl n).drift.gain) ((t.cl n).drift.offset - (s.cl n).drift.offset) = true ∧
      (-30000 ≤ gain → gain ≤ 30000 → -128 ≤ offset → offset ≤ 128 →
        smallMove (gain - (s.cl n).drift.gain) (offset - (s.cl n).drift.offset) = true →
        (t.cl n).drift.gain = gain ∧ (t.cl n).drift.offset = offset ∧ (t.cl n).drift.locked = true) ∧
      (∀ m, m ≠ n → t.cl m = s.cl m) ∧ t.mem = s.mem) ∧
  (∀ (s : State) (n t0 : Nat) (gain offset : Int), (s.cl n).drift.acq = true → s.islUp n = true → s.domOn (5 * n + 1) = true →
    (s.cl n).drift.acqStart ≤ t0 → ((s.cl n).drift.acqStart < (s.cl n).drift.last → (s.cl n).drift.last + 1000 ≤ t0) →
    -30000 ≤ gain → gain ≤ 30000 → -128 ≤ offset → offset ≤ 128 → n < 12 → Safety.shaped s →
    ∃ t, exec (.driftAcquireUpdate n gain offset t0) s = .next t ∧
      (t.cl n).drift = { (s.cl n).drift with gain := gain, offset := offset, locked := true, last := (s.at t0).dtime, acq := false } ∧
      (∀ m, m ≠ n → t.cl m = s.cl m) ∧ t.mem = s.mem)

/-- CALIBRATE whose checks pass joins the calibrations and changes nothing else but that its descriptor has begun; one
that fails completes with its status. The first calibration of its cluster, with the cluster's domains on and no BLOCK
reset, TREF present and no Ballast, measures at once where it has no PE_SETUP, else queues that list on the cluster's
port. At the end of measurement without PE_RESTORE it leaves, CAL_DONE of every channel measured OK has its kind's
bit, the drift trims become those of the calibration, and the descriptor completes with the mask of those channels. A
write of a deskew register stores its four values. PE_LIST_START with a list queued on an enabled idle port makes the
port busy from now. (R249, R250, R262, R263, R246) -/
def Obligations.Calibration : Prop :=
  (∀ (s : State) (sq idx : Nat) (d : Desc), Safety.ready s sq idx 0x12 d →
    (s.calRefusal d.bytes ≠ 0 → exec (.calibrate sq idx) s = .next (s.finish sq idx (s.calRefusal d.bytes))) ∧
    (s.calRefusal d.bytes = 0 → ∃ t, exec (.calibrate sq idx) s = .next t ∧
      t.calibs = s.calibs ++ [{ sq := sq, idx := idx, cluster := fld d.bytes 16 1, kind := fld d.bytes 17 1, chmask := fld d.bytes 18 2,
                                apply := (fld d.bytes 20 1).testBit 0, setup := fld d.bytes 24 4, restore := fld d.bytes 28 4,
                                dst := fld d.bytes 32 8 }] ∧
      t.desc sq idx = some { d with started := true } ∧ t.regs = s.regs ∧ t.mem = s.mem ∧ t.out = s.out)) ∧
  (∀ (s : State) (sq idx : Nat) (c : Calib), s.calib sq idx = some c → c.phase = 0 →
    s.calibs.find? (fun x => x.cluster = c.cluster) = some c → s.domOn (5 * c.cluster) = true → s.domOn (5 * c.cluster + 1) = true →
    s.domOn (5 * c.cluster + 2) = true → s.power.blk.contains (c.cluster, none) = false → s.clk.tref = true → s.ballastOn = false →
    ∃ t, exec (.calibrationStart sq idx) s = .next t ∧ t.mem = s.mem ∧ t.regs = s.regs ∧
      (c.setup = 0xFFFFFFFF → t.calib sq idx = some { c with phase := 2 } ∧ t.pe = s.pe) ∧
      (c.setup ≠ 0xFFFFFFFF → c.cluster < 12 → Safety.shaped s → (s.pePort c.cluster).queue.length < 16 →
        t.calib sq idx = some { c with phase := 1 } ∧
        (t.pePort c.cluster).queue = (s.pePort c.cluster).queue ++ [{ list := c.setup, user := .calib sq idx false }])) ∧
  (∀ (s : State) (sq idx : Nat) (c : Calib) (meas : List CalMeas), s.calib sq idx = some c → c.phase = 2 → c.restore = 0xFFFFFFFF →
    c.st = 0 → 1 ≤ c.kind → c.kind ≤ 4 → c.cluster < 12 → s.host.pci.busMaster = true → Safety.shaped s →
    ∃ (u : State) (good : List Nat), good = (meas.filter (fun m => m.ch < 16 && c.chmask.testBit m.ch && s.calRes c m = 0)).map CalMeas.ch ∧
      exec (.calibrationComplete sq idx meas) s = .next (u.complete sq idx { status := St.ok, val0 := maskOf good }) ∧
      u.calib sq idx = none ∧
      (∀ m ∈ meas, s.calRes c m = 0 → m.ch < 16 → c.chmask.testBit m.ch = true →
        (u.rf F.CL_DSK2_CAL_DONE [c.cluster, m.ch]).testBit (c.kind - 1) = true) ∧
      (u.cl c.cluster).drift.calGain = (s.cl c.cluster).drift.gain ∧ (u.cl c.cluster).drift.calOffset = (s.cl c.cluster).drift.offset ∧
      u.mem = s.mem) ∧
  (∀ (s : State) (n c : Nat) (v : W64), Safety.writable s (F.CL_DSK_DSKD.off [n, c]) = true → n < s.nCl → c < 16 →
    ∃ t, exec (.deskewWrite n c false v) s = .next t ∧ t.rf F.CL_DSK_DSKD [n, c] = fget v 0 15 ∧
      t.rf F.CL_DSK_DSKE [n, c] = fget v 16 15 ∧ t.rf F.CL_DSK_DSKH [n, c] = fget v 32 15 ∧ t.rf F.CL_DSK_DSKL [n, c] = fget v 48 15 ∧
      (∀ o, o ≠ F.CL_DSK_DSKD.off [n, c] → t.reg o = s.reg o) ∧ t.clusters = s.clusters ∧ t.mem = s.mem) ∧
  (∀ (s : State) (n : Nat), (s.pePort n).busy = false → (s.pePort n).queue ≠ [] → s.peUp n = true → s.ballastOn = false → n < 12 →
    Safety.shaped s →
    ∃ t, exec (.peListStart n) s = .next t ∧ t.pePort n = { s.pePort n with busy := true, start := s.dtime } ∧
      (∀ m, m ≠ n → t.pePort m = s.pePort m) ∧ t.regs = s.regs ∧ t.mem = s.mem ∧ t.out = s.out)

/-- TREF_LOSS with TREF present clears it and the PLL lock, sets the admission hold, COARSE and TREF_LOST, adds 1 to
TREF_LOSS_COUNT, then ends the work that needs TREF and raises fault source 1. TREF_HOLD_END 1 ms after the return
lifts the hold and scans the queue. PLL_RELOCK makes TREF and the lock read 1, and the condition of source 1 no longer
holds. LREF_LOSS clears LREF, sets LREF_LOST, raises source 2, and every link that is not down goes down, one that was up
with a report of source 22; LREF_RETURN ends the condition, and 1 ms later the enabled links that are down train. REPLICA_CHECK keeps a deviation of at most 1 ns; a larger one sets SLIP
and SLIP_ISLAND, is reported by source 4 and reloads the replica. (R51, R52, R53, R56, R59, R575) -/
def Obligations.ReferenceClocks : Prop :=
  (∀ (s : State) (t0 : Nat), s.clk.tref = true → s.pair.role ≠ 1 →
    ∃ u : State, exec (.trefLoss t0) s = .next u.trefEnds.trefFault.goDark ∧
      u.clk.tref = false ∧ u.clk.pll = false ∧ u.clk.trefHold = true ∧ u.rb F.DTIME_STAT_COARSE = true ∧
      u.rb F.CLK_STAT_TREF_LOST = true ∧ u.rf F.CLK_STAT_TREF_LOSS_COUNT = satAdd 16 (s.rf F.CLK_STAT_TREF_LOSS_COUNT) 1 ∧
      u.dtime = (s.at t0).dtime ∧ u.bursts = s.bursts ∧ u.mem = s.mem) ∧
  (∀ (s : State) (t0 : Nat), s.clk.trefHold = true → s.clk.tref = true → s.clk.trefSince + 1000000 ≤ t0 →
    ∃ u : State, exec (.trefHoldEnd t0) s = .next u.scan ∧ u.clk.trefHold = false ∧ u.clk.tref = true ∧ u.bursts = s.bursts ∧
      u.regs = s.regs ∧ u.mem = s.mem) ∧
  (∀ (s : State) (t0 : Nat), s.clk.pll = false →
    ∃ t, exec (.pllRelock t0) s = .next t ∧ t.clk.tref = true ∧ t.clk.pll = true ∧ t.clk.darkSince = none ∧ t.clk.trefSince = t.dtime ∧
      (1, 29, 0) ∉ t.collector.live ∧ t.dtime = (if s.clk.darkSince.isSome then s.dtime else (s.at t0).dtime) ∧
      t.dfrac = s.dfrac ∧ t.mem = s.mem) ∧
  (∀ (s : State) (t0 : Nat), s.clk.lref = true →
    ∃ u : State, exec (.lrefLoss t0) s = .next ((List.range 4).foldl (fun s n =>
        if (s.lk n).state = 0 then s else if s.linkUp n then (s.linkGone n 4).report 22 (21 + n) 0 2 else s.linkGone n 4) u) ∧
      u.clk.lref = false ∧ u.rb F.CLK_STAT_LREF_LOST = true ∧ (2, 29, 0) ∈ u.collector.live ∧ u.links = s.links ∧ u.mem = s.mem) ∧
  (∀ (s : State) (t0 : Nat), s.clk.lref = false →
    ∃ t, exec (.lrefReturn t0) s = .next t ∧ t.clk = { s.clk with lref := true, lrefSince := (s.at t0).dtime } ∧
      (2, 29, 0) ∉ t.collector.live ∧ t.links = s.links ∧ t.regs = s.regs ∧ t.mem = s.mem) ∧
  (∀ (s : State) (t0 : Nat), s.clk.lref = true → s.clk.lrefHold = true → s.clk.lrefSince + 1000000 ≤ t0 →
    exec (.lrefReturn t0) s = .next ((List.range 4).foldl (fun s n =>
        if s.hasLink n && s.rb F.PL_CTL_EN [n] && (s.lk n).state = 4 then s.train n else s)
      { s.at t0 with clk := { s.clk with lrefHold := false } })) ∧
  (∀ (s : State) (k r t0 : Nat), k < 30 → s.islandAbsent k = false →
    ∃ t, exec (.replicaCheck k r t0) s = .next t ∧ t.mem = s.mem ∧
      ((t0 ≤ r + 1 ∧ r ≤ t0 + 1) →
        t.clk.replicas = s.clk.replicas.set k ((r : Int) - t0) ∧ t.regs = s.regs ∧ t.collector = s.collector) ∧
      (¬ (t0 ≤ r + 1 ∧ r ≤ t0 + 1) →
        t.clk.replicas = s.clk.replicas.set k 0 ∧ t.rb F.DTIME_STAT_SLIP = true ∧ t.rf F.DTIME_STAT_SLIP_ISLAND = k ∧
        t.collector.reports = s.collector.reports ++ [{ src := 4, island := k, unit := 0, detail := 0, t := t.dtime }]))

/-- CAL_SET loads SEC, captures DTIME in CAL_EPOCH_DTIME and sets VALID; CALSEC_ADVANCE, a crystal cycle or more after the
last load, and 10^9 ns or more after it while the crystal is lost, adds a second and captures DTIME.
XTAL_LOSS of a present crystal with the PLL locked clears it, sets XTAL_LOST and raises source 3; XTAL_RETURN ends the
condition. SYNC_OUT pulses when DTIME on the ring's time scale is a multiple of 1,048,576 ns. An edge on TRIG_IN_j
with the chip awake and TREF present puts an event, its stamp the edge's time less DSK, on its way to every trigger
unit that selects it in an enabled cluster. A TAP instruction drives the pins by its code while RESET_N is low. (R57,
R58, R59, R362, R373, R738, R739) -/
def Obligations.CalendarAndPins : Prop :=
  (∀ (s : State) (v : W64), Safety.writable s (F.CAL_SET_SEC.off []) = true →
    ∃ t, exec (.calSet v) s = .next t ∧ t.clk.calSec = fget v 0 48 ∧ t.clk.calSub = 0 ∧ t.rb F.CALSEC_VALID = true ∧
      t.reg (F.CAL_EPOCH_DTIME_DTIME.off []) = BitVec.ofNat 64 s.dtime ∧ t.dtime = s.dtime ∧ t.mem = s.mem) ∧
  (∀ (s : State) (t0 : Nat), s.counts = true → s.clk.calAt + (if s.clk.xtal then 30518 else 1000000000) ≤ t0 →
    ∃ t, exec (.calsecAdvance t0) s = .next t ∧ t.clk.calSec = (s.clk.calSec + 1) % 2 ^ 48 ∧ t.clk.calSub = 0 ∧
      t.reg (F.CAL_EPOCH_DTIME_DTIME.off []) = BitVec.ofNat 64 t.dtime ∧ t.dtime = (s.at t0).dtime ∧ t.mem = s.mem) ∧
  (∀ (s : State) (t0 : Nat), s.clk.xtal = true → s.clk.pll = true →
    ∃ t, exec (.xtalLoss t0) s = .next t ∧ t.clk.xtal = false ∧ t.clk.calAt = (s.at t0).dtime ∧ t.rb F.CLK_STAT_XTAL_LOST = true ∧
      (3, 29, 0) ∈ t.collector.live ∧ t.clk.darkSince = s.clk.darkSince ∧ t.mem = s.mem) ∧
  (∀ (s : State) (t0 : Nat), s.clk.xtal = false → s.clk.darkSince = none →
    ∃ t, exec (.xtalReturn t0) s = .next t ∧ t.clk.xtal = true ∧ t.dtime = (s.at t0).dtime ∧ (3, 29, 0) ∉ t.collector.live ∧
      t.regs = s.regs ∧ t.mem = s.mem) ∧
  (∀ (s : State) (t0 : Nat), s.bootDone = true → s.clk.pll = true → (2000 * (t0 : Int) + s.ringT.xoff) / 2000 % 1048576 = 0 →
    exec (.syncOutPulse t0) s = .next { s.at t0 with out := s.out ++ [.pulse 4 t0] }) ∧
  (∀ (s : State) (j : Nat) (rising : Bool) (t0 : Nat), j < 4 → s.power.lull = 0 → s.clk.tref = true →
    ∃ t, exec (.trigInEdge j rising t0) s = .next t ∧
      (∀ n u, n < s.nCl → u < 8 → s.islUp n = true → (s.rf F.CL_TRIGIN_CFG_EN [n]).testBit j = true →
        (s.rf F.CL_TRIGIN_CFG_FALL [n]).testBit j = (!rising) → (s.rf F.CL_TRG_SRC_SRC [n, u]).testBit (44 + j) = true →
        (8 * n + u, 44 + j, 500 * (t0 - s.rf (F.CL_TRIGIN_DSK_DSK.at j) [n])) ∈ t.trigEv) ∧
      (∀ e ∈ s.trigEv, e ∈ t.trigEv) ∧ t.trigs = s.trigs ∧ t.regs = s.regs ∧ t.mem = s.mem) ∧
  (∀ (s : State) (code : Nat),
    ∃ t, exec (.tapInstruction code) s = .next t ∧ t.rst = { s.rst with tap := if s.rst.resetLow && 1 ≤ code && code ≤ 3 then code else 0 } ∧
      { t with rst := s.rst } = s)

/-- With the chip awake: once a rail has read below WARN_LO for GLITCH_NS it is below, its dip is noted from the first
reading, admission pauses, every running burst with a part that has not ended carries VDIP, DIPS is one higher, VWARN
of the rail is set and source 5 holds. Once it has read above, its dip is over and source 5 no longer holds. A reading
above WARN_HI warns without dip or pause. The pause ends after HOLD_US with no rail below, and the queue is scanned. A
supply reset is a COLD reset of rail 13 and a PIN reset of another, with its rail and lowest reading kept for the
BROWNOUT record. (R671, R672, R673, R674) -/
def Obligations.SupplyDips : Prop :=
  (∀ (s : State) (r first t0 : Nat), r < 14 → s.power.below.testBit r = false → first + s.rf F.WS_CTL_GLITCH_NS ≤ t0 → s.power.lull ≠ 2 →
    ∃ t, exec (.railBelowWarning r first t0) s = .next t ∧ t.power.below = s.power.below ||| 2 ^ r ∧
      t.power.dips = s.power.dips ++ [(r, first)] ∧ t.power.pause = true ∧
      (∀ x ∈ s.bursts, x.running = true → x.startStamp ≤ t0 → s.allEnded x.ent = false → { x with qual := x.qual ||| 8 } ∈ t.bursts) ∧
      t.rf F.WS_VSTAT_DIPS = satAdd 32 (s.rf F.WS_VSTAT_DIPS) 1 ∧ (t.rf F.WS_VSTAT_VWARN).testBit r = true ∧
      (5, 29, r) ∈ t.collector.live ∧ t.objs = s.objs ∧ t.mem = s.mem) ∧
  (∀ (s : State) (r first lowest t0 : Nat) (d : Nat × Nat), r < 14 → first + s.rf F.WS_CTL_GLITCH_NS ≤ t0 →
    s.power.dips.find? (fun d => d.1 = r) = some d →
    ∃ t, exec (.railAboveWarning r first lowest t0) s = .next t ∧ t.power.below.testBit r = false ∧
      (∀ q, q ≠ r → t.power.below.testBit q = s.power.below.testBit q) ∧ t.power.dips = s.power.dips.filter (fun x => x.1 ≠ r) ∧
      (t.power.below = 0 → t.power.aboveSince = (s.at t0).dtime) ∧ t.power.pause = s.power.pause ∧ (5, 29, r) ∉ t.collector.live ∧ t.mem = s.mem) ∧
  (∀ (s : State) (r level t0 : Nat), r < 14 → s.rf F.WS_RAIL_THR_WARN_HI [r] < level → s.power.lull ≠ 2 →
    ∃ t, exec (.railAboveHigh r level t0) s = .next t ∧ t.power = s.power ∧ t.bursts = s.bursts ∧
      (t.rf F.WS_VSTAT_VWARN).testBit r = true ∧ (5, 29, r) ∈ t.collector.live ∧ t.mem = s.mem) ∧
  (∀ (s : State) (t0 : Nat), s.power.pause = true → s.power.below = 0 → s.power.aboveSince + 1000 * s.rf F.WS_CTL_HOLD_US ≤ t0 →
    ∃ u : State, exec (.supplyPauseEnd t0) s = .next u.scan ∧ u.power = { s.power with pause := false } ∧ u.dtime = (s.at t0).dtime ∧
      u.bursts = s.bursts ∧ u.regs = s.regs ∧ u.mem = s.mem) ∧
  (∀ (s : State) (r lowest t0 : Nat), r < 14 → lowest < s.rf F.WS_RAIL_THR_RESET_LO [r] →
    ∃ t u : State, exec (.supplyReset r lowest t0) s = .next t ∧ u = (if r = 13 then (s.at t0).coldReset 6 else (s.at t0).pinReset 5) ∧
      t.rst = { u.rst with brownout := some (r, lowest) } ∧ t.power.below.testBit r = true ∧ t.power.dom = u.power.dom ∧
      t.regs = u.regs ∧ t.mem = u.mem ∧ t.objs = u.objs ∧ t.host = u.host)

/-- PROCESS_SAMPLE stores the reading of every present cluster that it gives and changes no other register. TEMP_SAMPLE
with the chip out of Lull stores the reading of every present sensor that it gives; source 6 of a sensor holds when
the reading is above WARN, and no longer holds when it is at least 2 degrees at or below it. Bursts and device memory
stay as they were. (R669, R675) -/
def Obligations.Sensors : Prop :=
  (∀ (s : State) (freqs : List Nat) (t0 : Nat),
    ∃ t, exec (.processSample freqs t0) s = .next t ∧
      (∀ n v, n < s.nCl → freqs[n]? = some v → t.rf (F.WS_PROC_FREQ.at (n % 4)) [n / 4] = v % 2 ^ 16) ∧
      (∀ o, o ≠ F.WS_PROC_FREQ.off [0] → o ≠ F.WS_PROC_FREQ.off [1] → o ≠ F.WS_PROC_FREQ.off [2] → t.reg o = s.reg o) ∧
      t.dtime = (s.at t0).dtime ∧ t.mem = s.mem ∧ t.out = s.out) ∧
  (∀ (s : State) (temps : List Int) (t0 : Nat), s.power.lull ≠ 2 →
    ∃ t, exec (.tempSample temps t0) s = .next t ∧
      (∀ k v, k ∈ s.sensors → temps[k]? = some v → t.rf (F.WS_TEMP_TEMP.at (k % 4)) [k / 4] = ofSigned 16 v ∧
        (toSigned 16 (s.rf F.WS_TEMP_THR_WARN) < v → (6, 29, k) ∈ t.collector.live) ∧
        (v ≤ toSigned 16 (s.rf F.WS_TEMP_THR_WARN) - 32 → (6, 29, k) ∉ t.collector.live)) ∧
      t.bursts = s.bursts ∧ t.power = s.power ∧ t.mem = s.mem)

/-- While PWRGOOD is high a lifetime second adds 1 to POWER_ON_S, to the Lull seconds in Lull, and to the histogram bin of
the hottest sensor. A snapshot that is due queues its 111 records behind those that wait. A record written to a
current sector that is good and has room leaves the queue and stands after that sector's records with the next SEQ;
other sectors keep theirs. READ_LIFE with SEL 0 in range writes that part of the image to host memory and completes
with OK. LIFE_FLUSH of a log that has not failed queues a snapshot, and waits for it. (R678, R680, R681, R682, R683,
R684, R686) -/
def Obligations.LifetimeLog : Prop :=
  (∀ (s : State) (t0 : Nat), s.rst.pwrgood = true →
    ∃ t, exec (.lifetimeSecond t0) s = .next t ∧ t.life.powerOn = s.life.powerOn + 1 ∧
      t.life.lull = (if s.power.lull = 2 then s.life.lull + 1 else s.life.lull) ∧
      (∀ b, t.life.hist.getD b 0 = if b = histBin (s.temp s.hottest) ∧ b < s.life.hist.length then satAdd 32 (s.life.hist.getD b 0) 1
        else s.life.hist.getD b 0) ∧
      t.dtime = (s.at t0).dtime ∧ { t with life := s.life, dtime := s.dtime } = s) ∧
  (∀ (s : State) (t0 : Nat), s.life.state = 1 → s.life.snapAt + 60000000000 * s.rf F.LIFE_CTL_SNAP_MIN ≤ t0 →
    ∃ t, exec (.snapshot t0) s = .next t ∧ t.logQ = s.logQ ++ (s.at t0).snapRecords (s.life.snapId + 1) ∧
      t.logQ.length = s.logQ.length + 111 ∧ t.life.snapId = s.life.snapId + 1 ∧ t.life.snapAt = t.dtime ∧ t.mem = s.mem ∧ t.regs = s.regs) ∧
  (∀ (s : State) (r : LogRec) (rest : List LogRec) (c ef pf : Nat) (x : Sector), s.logQ = r :: rest → s.life.state = 1 →
    s.life.cur = some c → s.life.bad.contains c = false → kGet s.life.sectors c = some x → x.recs.length < 63 → pf < 3 →
    ¬ (r.typ = 1 ∧ r.part = 110) →
    ∃ t, exec (.logRecordWrite ef pf) s = .next t ∧ t.logQ = rest ∧ t.life.seq = s.life.seq + 1 ∧
      kGet t.life.sectors c = some { x with recs := x.recs ++ [r.bytes (s.life.seq + 1)] } ∧
      (∀ y, y ≠ c → kGet t.life.sectors y = kGet s.life.sectors y) ∧ t.host = s.host ∧ t.mem = s.mem ∧ t.regs = s.regs) ∧
  (∀ (s : State) (sq idx : Nat) (d : Desc), Safety.ready s sq idx 0x71 d → fld d.bytes 16 1 = 0 → fld d.bytes 24 8 % 64 = 0 →
    fld d.bytes 32 4 % 64 = 0 → fld d.bytes 40 8 % 64 = 0 → fld d.bytes 24 8 + fld d.bytes 32 4 ≤ 4224 → zeroes d.bytes 17 7 = true →
    zeroes d.bytes 36 4 = true → zeroes d.bytes 48 16 = true → s.host.pci.busMaster = true →
    ∃ t, exec (.readLife sq idx) s = .next t ∧ t.desc sq idx = none ∧ t.life = s.life ∧ t.logQ = s.logQ ∧ t.mem = s.mem ∧
      Out.hostWrite (fld d.bytes 40 8) (slice (padTo s.lifeImage 4224) (fld d.bytes 24 8) (fld d.bytes 32 4)) ∈ t.out) ∧
  (∀ (s : State) (sq idx : Nat) (d : Desc), Safety.ready s sq idx 0x72 d → zeroes d.bytes 16 48 = true → s.life.state ≠ 2 →
    ∃ t, exec (.lifeFlush sq idx) s = .next t ∧ t.desc sq idx = some { d with started := true } ∧
      t.logQ = s.logQ ++ (s.begin sq idx).snapRecords (s.life.snapId + 1) ∧
      t.life.flushes = s.life.flushes ++ [(sq, idx, s.life.snapId + 1)] ∧ t.regs = s.regs ∧ t.mem = s.mem)

/-- A slice failure is reported by source 8 with DETAIL 1 or 2, and the physical slice is bad. With a spare its logical
slice moves to it, the use is recorded and counted, and where that slice serves nobody nothing else changes; without a
spare its bursts end with HW_FAULT and the logical slice is retired. A capture engine's failure retires the cluster's
live slices. A channel's failure retires it, sites that need it become blocked and DEGRADED reads 1; a chain's failure
ends its acquisition with HW_FAULT and does the same for the chain. (R86, R87, R88, R89, R179, R687, R688) -/
def Obligations.SlicesAndChannelsFail : Prop :=
  (∀ (s : State) (n p : Nat), n < s.nCl → p < 5 → (s.cl n).physBad.contains p = false → Safety.shaped s →
    ∃ u : State, u = (s.reportEither 8 n p).upCl n (fun c => { c with physBad := c.physBad ++ [p] }) ∧
      (u.cl n).physBad = (s.cl n).physBad ++ [p] ∧
      (∃ r, u.collector.reports = s.collector.reports ++ [r] ∧ r.src = 8 ∧ r.island = n ∧ r.unit = p ∧ (r.detail = 1 ∨ r.detail = 2)) ∧
      { u with clusters := s.clusters, collector := s.collector, freeCtr := s.freeCtr } = s ∧
      ((∀ i < 4, (s.sl (4 * n + i)).phys ≠ some p) → exec (.sliceFailure n p) s = .next u) ∧
      (∀ g q, ((List.range 4).map (fun i => 4 * n + i)).find? (fun g => (s.sl g).phys = some p) = some g → u.spareSlice n = some q →
        ∃ t, exec (.sliceFailure n p) s = .next t ∧
          ((s.sl g).ent = none → t.sl g = { s.sl g with phys := some q } ∧ (∀ k, k ≠ g → t.sl k = s.sl k) ∧
            t.life.spareSlices = s.life.spareSlices.modify n (· + 1) ∧ t.bursts = s.bursts ∧ t.sites = s.sites ∧ t.mem = s.mem) ∧
          t.slices = ((u.sliceBursts g false).upSl g (fun z => { z with phys := some q })).slices ∧ t.bursts = (u.sliceBursts g false).bursts) ∧
      (∀ g, ((List.range 4).map (fun i => 4 * n + i)).find? (fun g => (s.sl g).phys = some p) = some g → u.spareSlice n = none →
        exec (.sliceFailure n p) s = .next ((u.sliceBursts g true).retireSlice g))) ∧
  (∀ (s : State) (n : Nat), n < s.nCl →
    exec (.captureEngineFailure n) s = .next ((((List.range 4).map (fun i => 4 * n + i)).filter (fun g => !(s.sl g).retired)).foldl
      (fun s g => (s.sliceBursts g true).retireSlice g) (s.reportEither 11 n 0))) ∧
  (∀ (s : State) (n c : Nat), n < s.nCl → c < 16 → ((s.cl n).chans.getD c {}).retired = false → Safety.shaped s →
    (s.cl n).chans.length = 16 →
    ∃ t, exec (.channelFailure n c) s = .next t ∧ t = (s.reportEither 9 n c).retireChan n c ∧ t.rb F.CAPS_LIVE_DEGRADED = true ∧
      ((∀ x ∈ s.sites, (x.2.local n).testBit c = false) → ((t.cl n).chans.getD c {}).retired = true ∧
        (∀ k, k ≠ c → (t.cl n).chans.getD k {} = (s.cl n).chans.getD k {}) ∧ (∀ m, m ≠ n → t.cl m = s.cl m) ∧ t.sites = s.sites ∧
        t.bursts = s.bursts ∧ t.mem = s.mem)) ∧
  (∀ (s : State) (k : Nat), k < s.nChain → s.chainsBad.contains k = false →
    ∃ t, exec (.filterChainFailure k) s = .next t ∧ t = ((s.report 25 26 (k / 12) 1).stopAcqs (2 ^ k) St.hwFault).retireChain k ∧
      t.rb F.CAPS_LIVE_DEGRADED = true ∧
      (s.acqs = [] → (∀ x ∈ s.sites, x.2.chain.testBit k = false) → t.chainsBad = s.chainsBad ++ [k] ∧
        t.rf F.CAPS_LIVE_LIVE_FCHAINS = s.rf F.CAPS_LIVE_LIVE_FCHAINS - 1 ∧ t.sites = s.sites ∧ t.bursts = s.bursts ∧ t.mem = s.mem))

/-- A failed meter is retired and its measurement ends with HW_FAULT; with none set up LIVE_IMETERS is one lower, DEGRADED
reads 1 and the report is of source 14. A failed APG unit with no burst on it is unbound and retired, and APG_LIVE
loses its bit. A failed memory channel is reported by source 21 and retired. With Tether live its failure clears
TETHER_LIVE and, for an unpaired chip, does nothing further but report and retire. The failure of a flow core on no
slot adds it to the failed cores and lowers FSPARE_LEFT; of one on a slot it ends what runs there. A spare core that
has settled puts its slot in service. (R335, R390, R469, R550, R687, R688) -/
def Obligations.UnitsFail : Prop :=
  (∀ (s : State) (n ix : Nat), n < s.nCl → ix < s.nMeter → s.metersBad.contains (4 * n + ix) = false →
    ∃ t, exec (.imeterFailure n ix) s = .next t ∧ t = ((s.report 14 n ix 1).stopMeas (4 * n + ix) St.hwFault).retireMeter (4 * n + ix) ∧
      ((s.meter (4 * n + ix)).state = 0 → t.metersBad = s.metersBad ++ [4 * n + ix] ∧
        t.rf F.CAPS_LIVE_LIVE_IMETERS = s.rf F.CAPS_LIVE_LIVE_IMETERS - 1 ∧ t.rb F.CAPS_LIVE_DEGRADED = true ∧
        t.collector.reports = s.collector.reports ++ [{ src := 14, island := n, unit := ix, detail := 1, t := s.dtime }] ∧
        t.meters = s.meters ∧ t.mem = s.mem)) ∧
  (∀ (s : State) (k : Nat), k < s.nApg → (s.apgs.getD k {}).retired = false → Safety.shaped s →
    (∀ b ∈ s.bursts, b.admitted = true → b.apgUnit ≠ some k) →
    ∃ t, exec (.apgFailure k) s = .next t ∧ (t.apgs.getD k {}).retired = true ∧ (t.apgs.getD k {}).ent = none ∧
      (∀ j, j ≠ k → t.apgs.getD j {} = s.apgs.getD j {}) ∧ (t.rf F.CAPS_LIVE_APG_LIVE).testBit k = false ∧
      t.rb F.CAPS_LIVE_DEGRADED = true ∧ t.bursts = s.bursts ∧ t.mem = s.mem) ∧
  (∀ (s : State) (m : Nat), s.mcLive m = true →
    ∃ (t : State) (d : Nat), exec (.memoryChannelFailure m) s = .next t ∧ (d = 2 ∨ d = 3) ∧
      t = (s.draw.report 21 (13 + m) 0 d).retireChannel m ∧ t.rb F.CAPS_LIVE_DEGRADED = true) ∧
  (∀ (s : State), s.hasTether = true →
    ∃ t, exec .tetherFailure s = .next t ∧ t.rb F.CAPS_LIVE_DEGRADED = true ∧
      (s.pair.state = 0 → t.rb F.CAPS_LIVE_TETHER_LIVE = false ∧ t.pair = s.pair ∧ t.mem = s.mem ∧
        t.collector.reports = s.collector.reports ++ [{ src := 26, island := 28, unit := 0, detail := 1, t := s.dtime }]) ∧
      (s.pair.state ≠ 0 → t = (((((s.report 26 28 0 1).setRf F.CAPS_LIVE_TETHER_LIVE [] 0).tether { kind := 12, key := [0] }).pairEnd 7 St.aborted).degrade 9 28 0))) ∧
  (∀ (s : State) (c : Nat), c < s.nCore → s.paddock.failed.contains c = false →
    ∃ (t : State) (d : Nat), exec (.flowCoreFailure c) s = .next t ∧ (d = 1 ∨ d = 2) ∧ t = (s.draw.report 16 12 c d).coreFails c ∧
      ((∀ i < 16, (s.fslot i).phys ≠ some c) → t.paddock = { s.paddock with failed := s.paddock.failed ++ [c] } ∧
        t.rf F.CAPS_LIVE_FSPARE_LEFT = s.rf F.CAPS_LIVE_FSPARE_LEFT - 1 ∧ t.mem = s.mem ∧ t.host = s.host)) ∧
  (∀ (s : State) (i : Nat), (s.fslot i).settling = true → Safety.shaped s → i < 16 →
    ∃ u : State, exec (.spareCoreReady i) s = .next (u.refillSlot i) ∧ u.fslot i = { s.fslot i with settling := false } ∧
      (∀ j, j ≠ i → u.fslot j = s.fslot j) ∧ u.paddock.tasks = s.paddock.tasks ∧ u.regs = s.regs ∧ u.mem = s.mem)

/-- A write of RST_CTL with GO and KEY 0xC5, no stronger reset being in progress, resets the chip: device memory, time, fuses, flash and the PCIe link stay;
sites, objects, regions, bursts, tasks and descriptors are gone; CHIP_COUNT counts it; and in every register but
RST_STAT each field of class C, L or V reads its reset value and each other field its old value. Another key changes
nothing. A PIN reset, unless a COLD one is still in progress, does the same to all classes but A and drops the link; a COLD reset leaves every register at its
reset value. RESET_LOOP_CLEAR clears RST_STAT.C_LOOP 10 s after DONE. PWRGOOD rising is noted. (R22, R715, R716, R719,
R720, R746) -/
def Obligations.ChipResets : Prop :=
  (∀ (s : State) (v : W64), Safety.writable s (F.RST_CTL_GO.off []) = true → fget v 0 1 = 1 → fget v 8 8 = 0xC5 → s.heldReset = false →
    ∃ t, exec (.chipReset v) s = .next t ∧ t.mem = s.mem ∧ t.dtime = s.dtime ∧ t.fuse = s.fuse ∧ t.life.sectors = s.life.sectors ∧
      t.host.linkUp = s.host.linkUp ∧ t.sites = [] ∧ t.objs = [] ∧ t.regions = [] ∧ t.bursts = [] ∧ t.acqs = [] ∧
      t.paddock.tasks = [] ∧ t.host.inflight = [] ∧ t.rst.due = true ∧ t.rst.cause = 3 ∧
      t.rf F.RST_STAT_CHIP_COUNT = satAdd 16 (s.rf F.RST_STAT_CHIP_COUNT) 1 ∧
      ∀ (off : Nat) (r : Row) (is : List Nat) (f : Fld), findReg off = some (r, is) → f ∈ r.flds.flatMap Fld.spread →
        off ≠ F.RST_STAT_CHIP_COUNT.off [] → fget (t.reg off) f.lo f.w =
          if f.cls = .c ∨ f.cls = .l ∨ f.cls = .v then fget (regReset off) f.lo f.w else fget (s.reg off) f.lo f.w) ∧
  (∀ (s : State) (v : W64), Safety.writable s (F.RST_CTL_GO.off []) = true → ¬ (fget v 0 1 = 1 ∧ fget v 8 8 = 0xC5) →
    exec (.chipReset v) s = .next ({ s with held := none } : State).hostAccess) ∧
  (∀ (s : State) (cause : Nat), (s.heldReset = true → s.rst.cause ≠ 1 ∧ s.rst.cause ≠ 6) → ∃ t, exec (.pinReset cause) s = .next t ∧ t.dtime = s.dtime ∧ t.fuse = s.fuse ∧
    t.life.sectors = s.life.sectors ∧ t.host.linkUp = false ∧ t.sites = [] ∧ t.objs = [] ∧ t.regions = [] ∧ t.bursts = [] ∧
    t.paddock.tasks = [] ∧ t.host.inflight = [] ∧ t.rst.due = true ∧ t.rst.cause = 2 ∧ (cause = 0 → t.rst.resetLow = true) ∧
    ∀ (off : Nat) (r : Row) (is : List Nat) (f : Fld), findReg off = some (r, is) → f ∈ r.flds.flatMap Fld.spread →
      off ≠ F.RST_STAT_CHIP_COUNT.off [] →
      fget (t.reg off) f.lo f.w = if f.cls = .a then fget (s.reg off) f.lo f.w else fget (regReset off) f.lo f.w) ∧
  (∀ (s : State) (cause : Nat), ∃ t, exec (.coldReset cause) s = .next t ∧ (∀ off, t.reg off = regReset off) ∧
    t.dtime = State.reset.dtime ∧ t.fuse = s.fuse ∧ t.life.sectors = s.life.sectors ∧ t.sites = [] ∧ t.objs = [] ∧ t.regions = [] ∧
    t.bursts = [] ∧ t.paddock.tasks = [] ∧ t.host = State.reset.host ∧ t.rst.due = true ∧ t.rst.cause = 1) ∧
  (∀ (s : State) (tt : Nat), s.bootDone = true → s.rst.doneAt + 10000000000 ≤ tt → ∃ t, exec (.resetLoopClear tt) s = .next t ∧
    t.rf F.RST_STAT_C_LOOP = 0 ∧ t.dtime = (s.at tt).dtime ∧ (∀ off, off ≠ F.RST_STAT_C_LOOP.off [] → t.reg off = s.reg off) ∧
    { t with regs := s.regs, dtime := s.dtime } = s) ∧
  (∀ (s : State) (tt : Nat), s.rst.pwrgood = false →
    exec (.pwrgoodRise tt) s = .next { s.at tt with rst := { s.rst with pwrgood := true } })

/-- A write of RST_BLOCK with GO for an island that is present and not in reset resets it; for a memory channel that no
burst, acquisition or load uses, the DRAM goes to self-refresh, its contents stay, and the island is in reset. Island
29, an absent island or one in reset sets RST_STAT.REJECT only. When the reset ends every island returns to service. A
write of PWR_DOM_CTL that only adds a host domain turns on that domain and those it needs; one that only drops a host
domain on which none depends, and whose cluster no site uses, turns it off; dropping one of firmware's sets
PWR_EVT.FIXED and LAST. (R34, R655, R656, R657, R658, R689, R690, R717, R719) -/
def Obligations.BlockResetsAndDomains : Prop :=
  (∀ (s : State) (v : W64) (fault : Bool) (m : Nat), Safety.writable s (F.RST_BLOCK_GO.off []) = true → fget v 31 1 = 1 →
    fget v 0 5 = 13 + m → m < 8 → s.islandGone (13 + m) = false → s.inReset (13 + m) none = false → s.power.lull ≠ 2 → s.bursts = [] →
    s.acqs = [] → s.loads = [] → Safety.shaped s → ∃ t, exec (.blockReset { v := v, fault := fault }) s = .next t ∧
      (t.mc m).selfref = true ∧ (t.mc m).fences = (s.mc m).fences ∧ (∀ j, j ≠ m → t.mc j = s.mc j) ∧ t.mem = s.mem ∧ t.objs = s.objs ∧
      t.power = { s.power with blk := s.power.blk ++ [(13 + m, none)], blkHost := true }) ∧
  (∀ (s : State) (v : W64) (fault : Bool), Safety.writable s (F.RST_BLOCK_GO.off []) = true → fget v 31 1 = 1 → fget v 0 5 ≠ 12 →
    (29 ≤ fget v 0 5 ∨ s.islandGone (fget v 0 5) = true ∨ s.inReset (fget v 0 5) none = true) →
    ∃ t, exec (.blockReset { v := v, fault := fault }) s = .next t ∧
      t.rf F.RST_STAT_REJECT = 1 ∧ t.power = s.power ∧ t.mem = s.mem ∧ t.bursts = s.bursts) ∧
  (∀ (s : State) (tt : Nat), ∃ t u, exec (.blockResetReturn tt) s = .next t ∧ t = u.scan ∧
    u = s.power.blk.foldl (fun s b => s.islandReturns b.1) { s with
      dtime := (s.at tt).dtime, power := { s.power with blk := [], blkHost := false } } ∧
    (∀ m, m < 8 → s.power.blk = [(13 + m, none)] → s.bursts = [] → Safety.shaped s →
      t.power.blk = [] ∧ (t.mc m).selfref = false ∧ t.mem = s.mem)) ∧
  (∀ (s : State) (j b : Nat) (v : W64), Safety.writable s (F.PWR_DOM_CTL_ON.off [j]) = true → b < 64 → 64 * j + b < 96 →
    hostDomain (64 * j + b) = true → s.domAbsent (64 * j + b) = false → s.domOn (64 * j + b) = false →
    (∀ x, x < 64 → 64 * j + x < 96 → v.toNat.testBit x = (s.domOn (64 * j + x) || decide (x = b))) →
    ∃ t, exec (.domainOn j v) s = .next t ∧ t = ({ s with held := none } : State).hostAccess.powerUp (64 * j + b) ∧ t.domOn (64 * j + b) = true ∧
      (∀ d, s.domOn d = true → t.domOn d = true) ∧ (∀ d ∈ domNeeds (64 * j + b), t.domOn d = true) ∧
      { t with regs := s.regs, held := s.held, host := s.host, power := s.power, clk := s.clk } = s ∧ t.host = s.hostAccess.host) ∧
  (∀ (s : State) (j b : Nat) (v : W64), Safety.writable s (F.PWR_DOM_CTL_ON.off [j]) = true → b < 64 → 64 * j + b < 96 →
    s.domAbsent (64 * j + b) = false → s.domOn (64 * j + b) = true → s.power.lull ≠ 2 →
    (∀ x, x < 64 → 64 * j + x < 96 → v.toNat.testBit x = (s.domOn (64 * j + x) && !decide (x = b))) →
    ∃ t, exec (.domainOff j v) s = .next t ∧
      (hostDomain (64 * j + b) = true → (∀ p ∈ s.sites, p.2.clusters.contains ((64 * j + b) / 5) = false) →
        (∀ e ∈ domDependents (64 * j + b), s.domOn e = false ∧ ∀ g ∈ domDependents e, s.domOn g = false) →
        t = domainsOn j v (({ s with held := none } : State).hostAccess.domOff (64 * j + b)) ∧
        (89 ≤ 64 * j + b → s.bursts = [] → s.acqs = [] → s.pair.state = 0 → t.domOn (64 * j + b) = false ∧
          (∀ d, d ≠ 64 * j + b → t.domOn d = s.domOn d) ∧ t.mem = s.mem)) ∧
      (hostDomain (64 * j + b) = false → t.rf F.PWR_EVT_FIXED = 1 ∧ t.rf F.PWR_EVT_LAST = 64 * j + b ∧ t.power = s.power))

/-- A boot that is due stops with code FUSE, RESET_LOOP, NO_TREF, NO_FLASH, SFDP or NO_IMAGE where the fuses fail, four C
resets have gone before, TREF does not lock, the flash does not answer or cannot read quad, or neither slot holds an
image; then only the PCIe domain is on. With an image that passes R701 it goes on with the board table and what
follows. It does not run when none is due, or before the rails have recovered for 1 ms. PATCH_APPLY on an image that
fails R701 answers BAD with that code, HEADER where it is shorter than its own size; a passing image with a fitting patch section is loaded and answers OK. (R697,
R701, R702, R705, R706, R714, R720) -/
def Obligations.BootAndPatch : Prop :=
  (∀ (s : State) (inp : BootInput), s.rst.due = true →
    (s.rst.brownout = none ∨ (s.power.below = 0 ∧ s.power.aboveSince + 1000000 ≤ inp.t)) →
    ∃ (t c u : State) (loops : Nat), exec (.boot inp) s = .next t ∧
      c = ({ s.at inp.t with rst := { s.rst with due := false, pwrgood := true, resetLow := false, tap := 0 } } : State).bootClocks inp ∧
      loops = (if s.rst.cause = 4 then min 7 (s.rf F.RST_STAT_C_LOOP + 1) else s.rf F.RST_STAT_C_LOOP) ∧
      u = (c.setRf F.RST_STAT_C_LOOP [] loops).setRf F.BOOT_STATUS_CAUSE [] s.rst.cause ∧
      (inp.fuseOk = false → t = u.bootFails 1 0x01 0 ∧ t.rst.due = false ∧ t.rf F.BOOT_STATUS_CODE = 0x01 ∧ t.rb F.BOOT_STATUS_FAILED = true ∧ t.power.dom = 2 ^ 88) ∧
      (inp.fuseOk = true → s.rst.cause = 4 → 5 ≤ loops → t = u.bootFails 1 0x0E 0 ∧ t.rf F.BOOT_STATUS_CODE = 0x0E) ∧
      (inp.fuseOk = true → ¬ (s.rst.cause = 4 ∧ 5 ≤ loops) →
        (inp.tref = false → t = u.bootFails 2 0x02 0 ∧ t.rf F.BOOT_STATUS_CODE = 0x02) ∧
        (inp.tref = true → inp.flash = false → t = u.bootFails 3 0x03 0 ∧ t.rf F.BOOT_STATUS_CODE = 0x03) ∧
        (inp.tref = true → inp.flash = true → inp.sfdp = false → t = u.bootFails 3 0x04 0 ∧ t.rf F.BOOT_STATUS_CODE = 0x04) ∧
        (inp.tref = true → inp.flash = true → inp.sfdp = true →
          (fld inp.slotA 0 4 ≠ 0x42535441 → fld inp.slotB 0 4 ≠ 0x42535441 → t.rf F.BOOT_STATUS_CODE = 0x05) ∧
          match u.chooseImage inp.slotA inp.slotB with
          | .error e => t = u.bootFails e.1 e.2.1 e.2.2
          | .ok x => t = u.bootBoard inp x.1 x.2.1 x.2.2))) ∧
  (∀ (s : State) (inp : BootInput), (s.rst.due = false ∨ (s.rst.brownout ≠ none ∧ (s.power.below ≠ 0 ∨ inp.t < s.power.aboveSince + 1000000))) →
    exec (.boot inp) s = .next s) ∧
  (∀ (s : State) (sq idx : Nat) (d : Desc) (img : List Byte), Safety.ready s sq idx 0x78 d → s.ballastOn = false → fld d.bytes 16 8 % 64 = 0 →
    zeroes d.bytes 28 36 = true → s.paddock.tasks = [] → s.host.pci.busMaster = true → ∃ (t : State) (b : List Byte) (c : Nat),
      exec (.patchApply sq idx (some img)) s = .next t ∧ b = img.take (fld d.bytes 24 4) ∧
      c = (s.imageFails b patchTypes (max s.fuse.minver (s.rf F.BOOT_INFO_SEC_VER))).1 ∧
      (fld b 0 4 ≠ 0x42535441 → c = 5) ∧
      (c ≠ 0 → (c = 5 ∨ fld b 8 4 ≤ b.length) → t = s.complete sq idx { status := St.bad, reason := c }) ∧
      (c ≠ 5 → b.length < fld b 8 4 → t = s.complete sq idx { status := St.bad, reason := 6 }) ∧
      (∀ l p, c = 0 → fld b 8 4 ≤ b.length → imageOpen b = .ok l → sectOf l 3 = some p →
        t = if patchOk p s.fuse.romId then (s.loadPatch p).finish sq idx St.ok else s.complete sq idx { status := St.bad, reason := 0x0D }) ∧
      t.desc sq idx = none)

/-- The first report that matches leaves the reports; its occurrence sets the status bit, captures the record and counts,
and with reaction I only nothing else of the machine changes but what is sent and logged. A self check ends the
condition of source 0. A write of ones to FLT_STAT clears those bits, the records' VALID bits and their F holds. A
write of FLT_INJ_CTL with GO makes one injected occurrence of its source, or is refused for a reserved source; in
address mode it arms one for a granule of a live channel; CANCEL disarms it. A chip without a collector ignores them.
(R629, R630, R636, R637, R638, R639, R640, R647, R651) -/
def Obligations.FaultsLatched : Prop :=
  (∀ (s : State) (src island unit detail addr : Nat) (r : Report), src < 32 → island < 30 → s.hasColl = true → s.power.lull ≠ 2 →
    s.collector.reports.find? (fun r => r.src = src && r.island = island && r.unit = unit && r.detail = detail) = some r → r.inj = false →
    s.reactOf src = 1 → (s.reg (F.FLT_STAT_STAT.off [])).toNat.testBit src = false →
    ∃ t, exec (.faultLatch src island unit detail addr) s = .next t ∧ t.collector = { s.collector with reports := s.collector.reports.erase r } ∧
      (t.reg (F.FLT_STAT_STAT.off [])).toNat.testBit src = true ∧
      (∀ k, k ≠ src → (t.reg (F.FLT_STAT_STAT.off [])).toNat.testBit k = (s.reg (F.FLT_STAT_STAT.off [])).toNat.testBit k) ∧
      t.rf F.FLT_CNT_COUNT [src] = satAdd 32 (s.rf F.FLT_CNT_COUNT [src]) 1 ∧
      t.recWord src 0 = r.t % 2 ^ 64 ∧ t.recWord src 1 = r.where % 2 ^ 64 ∧ t.recWord src 2 = r.unitWord 3 % 2 ^ 64 ∧
      t.life = { s.life with faults := s.life.faults.modify src (fun n => satAdd 32 n 1) } ∧ t.mem = s.mem ∧ t.bursts = s.bursts ∧
      t.paddock = s.paddock ∧ t.power = s.power) ∧
  (∀ (s : State) (tt : Nat), ∃ t, exec (.collectorSelfCheck tt) s = .next t ∧ (0, 29, 0) ∉ t.collector.live ∧
    (∀ x, x ≠ (0, 29, 0) → (x ∈ t.collector.live ↔ x ∈ s.collector.live)) ∧ t.dtime = (s.at tt).dtime ∧
    { t with collector := s.collector, dtime := s.dtime } = s) ∧
  (∀ (s : State) (v : W64), Safety.writable s (F.FLT_STAT_STAT.off []) = true → s.hasColl = true →
    ∃ t, exec (.faultStatusClear v) s = .next t ∧
      (∀ k, t.collector.holds.testBit k = (s.collector.holds.testBit k && !v.toNat.testBit k)) ∧
      (∀ k, (t.reg (F.FLT_STAT_STAT.off [])).toNat.testBit k = ((s.reg (F.FLT_STAT_STAT.off [])).toNat.testBit k && !v.toNat.testBit k)) ∧
      (∀ k, k < 64 → bitsOf (t.recWord k 2) 24 1 = if v.toNat.testBit k then 0 else bitsOf (s.recWord k 2) 24 1) ∧
      (∀ k w, w < 4 → w ≠ 2 → t.recWord k w = s.recWord k w) ∧
      { t with collector := s.collector, regs := s.regs, held := s.held, host := s.host } = s ∧ t.host = s.hostAccess.host) ∧
  (∀ (s : State) (v : W64), Safety.writable s (F.FLT_INJ_CTL_GO.off []) = true → s.hasColl = true → fget v 6 1 = 0 → fget v 7 1 = 1 →
    s.collector.armed = none → fget v 32 1 = 0 → ∃ (t u : State), exec (.faultInjection v) s = .next t ∧
      u = ({ s with held := none } : State).hostAccess.writeFields (F.FLT_INJ_CTL_GO.off []) v ∧
      (fget v 0 6 < 32 → fget v 8 5 < 30 → t = (u.incRf F.FLT_INJ_STAT_COUNT []).latchFault
        { src := fget v 0 6, island := fget v 8 5, unit := fget v 16 8, detail := 0, t := s.dtime } true (fget v 24 6)) ∧
      (32 ≤ fget v 0 6 ∨ 30 ≤ fget v 8 5 → t = u.setRf F.FLT_INJ_STAT_REJECT [] 1)) ∧
  (∀ (s : State) (v : W64), Safety.writable s (F.FLT_INJ_CTL_GO.off []) = true → s.hasColl = true → fget v 6 1 = 0 → fget v 7 1 = 1 →
    s.collector.armed = none → fget v 32 1 = 1 → ∃ (t u : State) (a : Nat), exec (.addressInjection v) s = .next t ∧
      u = ({ s with held := none } : State).hostAccess.writeFields (F.FLT_INJ_CTL_GO.off []) v ∧ a = s.rf F.FLT_INJ_ADDR_ADDR / 64 * 64 ∧
      ((fget v 0 6 = 18 ∨ fget v 0 6 = 19) → s.mcLive (a / 2 ^ 36) = true → a % 2 ^ 36 < s.chanSize (a / 2 ^ 36) →
        t = { u with collector := { s.collector with armed := some (a, decide (fget v 0 6 = 19)) } }) ∧
      (fget v 0 6 ≠ 18 → fget v 0 6 ≠ 19 → t = u.setRf F.FLT_INJ_STAT_REJECT [] 1)) ∧
  (∀ (s : State) (v : W64), Safety.writable s (F.FLT_INJ_CTL_GO.off []) = true → s.hasColl = true → fget v 6 1 = 1 → fget v 7 1 = 0 →
    ∃ t, exec (.injCancel v) s = .next t ∧ t.collector = { s.collector with armed := none } ∧
      { t with collector := s.collector, regs := s.regs, held := s.held, host := s.host } = s ∧ t.host = s.hostAccess.host)

/-- A write of BALLAST_CTL with ENGAGE engages Ballast, which then reads as engaged, and latches the fault of source 31;
without ENGAGE it only writes the register. LULL_ENTER on a chip with nothing at work enters Lull and completes with
OK; where bursts, acquisitions, lists, mirroring or a repair are at work it is refused with BAD and its reason in
LULL_STAT.REFUSE. A write of LULL_CTL with WAKE and the expiry of LULL_WAKE_AT wake the chip in Lull with their own
source, and do nothing to a chip that is awake. (R641, R652, R661, R662, R664, R665, R672) -/
def Obligations.BallastAndLull : Prop :=
  (∀ (s : State) (v : W64), Safety.writable s (F.BALLAST_CTL_ENGAGE.off []) = true → ∃ (t u : State), exec (.ballastEngageWrite v) s = .next t ∧
    u = ({ s with held := none } : State).hostAccess.writeFields (F.BALLAST_CTL_ENGAGE.off []) v ∧ (fget v 0 1 = 0 → t = u) ∧
    (fget v 0 1 = 1 → s.ballastOn = false → ∃ w : State, w = u.engage 31 false ∧ w.collector.ballast = 2 ∧
      t = w.latchFault { src := 31, island := 29, unit := 0, detail := 0, t := s.dtime } false 0)) ∧
  (∀ (s : State) (sq idx : Nat) (d : Desc), Safety.ready s sq idx 0x70 d → s.ballastOn = false → zeroes d.bytes 16 48 = true →
    (s.lullRefusal = 0 → ∃ t, exec (.lullEnter sq idx) s = .next t ∧ t.power = s.enterLull.power ∧ t.power.lull = 2 ∧ t.host.l1 = t.host.pci.l1En ∧
      t.desc sq idx = none ∧ t.mem = s.enterLull.mem ∧ t.clusters = s.enterLull.clusters) ∧
    (s.lullRefusal ≠ 0 → ∃ t, exec (.lullEnter sq idx) s = .next t ∧
      t = (s.setRf F.LULL_STAT_REFUSE [] s.lullRefusal).finish sq idx St.bad ∧ t.desc sq idx = none ∧ t.power = s.power ∧ t.mem = s.mem)) ∧
  (∀ (s : State) (v : W64), Safety.writable s (F.LULL_CTL_WAKE.off []) = true → ∃ (t u : State), exec (.lullWake v) s = .next t ∧
    u = ({ s with held := none } : State).hostAccess.writeFields (F.LULL_CTL_WAKE.off []) v ∧ (fget v 0 1 = 1 → t = u.wakeChip 1) ∧
    (fget v 0 1 = 0 ∨ s.power.lull ≠ 2 → t = u)) ∧
  (∀ (s : State) (tt : Nat), s.rf F.LULL_WAKE_AT_DTIME ≠ 0 → s.rf F.LULL_WAKE_AT_DTIME ≤ tt →
    exec (.lullWakeAtExpiry tt) s = .next (({ s with dtime := (s.at tt).dtime } : State).wakeChip 3)) ∧
  (∀ (s : State) (tt : Nat), s.rf F.LULL_WAKE_AT_DTIME = 0 ∨ tt < s.rf F.LULL_WAKE_AT_DTIME → exec (.lullWakeAtExpiry tt) s = .next s)

/-- A write of PAIR_CTL with CLAIM 1 on a mirrored, non-active chip with Tether drives PAIR_ACTIVE_N and begins
the guard, or the wait while the partner drives; a second-ring chip that meets its partner's claim gives up and sets
CLAIM_LOST. A wait of 2 us gives up. The guard of 5 us makes the chip active with PE_OWN high. CLAIM 0 on an unpaired
chip releases the role; on a paired one it is ignored. The partner's line rising starts a waiting chip's guard, and
exposes a pair that was SYNCING to this standby; its falling turns a guard back into a wait. (R601, R602, R614) -/
def Obligations.ActiveRole : Prop :=
  (∀ (s : State) (v : W64), Safety.writable s (F.PAIR_CTL_CLAIM.off []) = true → fget v 0 1 = 1 → s.mirrored = true → s.hasTether = true →
    s.pair.role ≠ 1 → s.pair.claim = 0 → s.ballastOn = false → ∃ t, exec (.claim v) s = .next t ∧ t.mem = s.mem ∧
      t.paddock = s.paddock ∧
      (s.pair.partner = false → t.pair = { s.pair with drive := true, claimAt := s.dtime, claimFor := 0, claim := 2 }) ∧
      (s.pair.partner = true → s.rf F.PAIR_STAT_RING ≠ 1 → t.pair = { s.pair with drive := true, claimAt := s.dtime, claimFor := 0, claim := 1 }) ∧
      (s.pair.partner = true → s.rf F.PAIR_STAT_RING = 1 → t.pair = { s.pair with drive := false, claimAt := s.dtime, claimFor := 0, claim := 0 } ∧
        t.rf F.PAIR_STAT_CLAIM_LOST = 1)) ∧
  (∀ (s : State) (v : W64), Safety.writable s (F.PAIR_CTL_CLAIM.off []) = true → fget v 0 1 = 0 → ∃ t, exec (.claimRelease v) s = .next t ∧
    (s.pair.state ≠ 0 → t.pair = s.pair ∧ t.rf F.PAIR_CTL_CLAIM = s.rf F.PAIR_CTL_CLAIM) ∧
    (s.pair.state = 0 → s.mirrored = true → t.pair = { s.pair with
      peOwn := false, drive := false, claim := 0, role := if s.pair.role = 1 then 0 else s.pair.role }) ∧
    { t with regs := s.regs, held := s.held, host := s.host, pair := s.pair } = s ∧ t.host = s.hostAccess.host) ∧
  (∀ (s : State) (tt : Nat), s.pair.claim = 1 → s.pair.claimAt + 2000 ≤ tt → s.pair.claimFor = 0 → ∃ t, exec (.claimWaitExpiry tt) s = .next t ∧
    t.pair = { s.pair with drive := false, claim := 0, claimFor := 0 } ∧ t.rf F.PAIR_STAT_CLAIM_LOST = 1 ∧ t.dtime = (s.at tt).dtime ∧
    t.mem = s.mem ∧ t.paddock = s.paddock) ∧
  (∀ (s : State) (tt : Nat), s.pair.claim = 2 → s.pair.partner = false → s.pair.claimAt + 5000 ≤ tt → s.ballastOn = false →
    ∃ t, exec (.claimGuardExpiry tt) s = .next t ∧
      (s.pair.claimFor = 0 → t = { s with dtime := (s.at tt).dtime, pair := { s.pair with role := 1, peOwn := true, claim := 0, claimFor := 0 } }) ∧
      (s.pair.claimFor = 3 → t = ({ s with
        dtime := (s.at tt).dtime, pair := { s.pair with role := 1, peOwn := true, claim := 0, claimFor := 0 } } : State).snapshotPair) ∧
      (s.pair.claimFor = 1 ∨ s.pair.claimFor = 2 ∨ s.pair.claimFor = 4 → t = ({ s with dtime := (s.at tt).dtime } : State).goLive s.pair.claimFor)) ∧
  (∀ (s : State) (tt : Nat), s.pair.partner = true → s.pair.role = 2 → s.pair.state = 2 → s.pair.claim = 0 →
    ∃ t, exec (.partnerActiveRise tt) s = .next t ∧ t.pair.state = 4 ∧ t.pair.was = false ∧ t.pair.partner = false ∧
      t.pair.highSince = some tt ∧ t.mem = s.mem) ∧
  (∀ (s : State) (tt : Nat), s.pair.partner = true → ¬ (s.pair.role = 2 ∧ s.pair.state = 2) → exec (.partnerActiveRise tt) s = .next { s with
    dtime := (s.at tt).dtime, pair := { s.pair with
      partner := false, highSince := some tt, roseAt := tt, claim := if s.pair.claim = 1 then 2 else s.pair.claim,
      claimAt := if s.pair.claim = 1 then tt else s.pair.claimAt } }) ∧
  (∀ (s : State) (tt : Nat), s.pair.partner = false → s.pair.claim ≠ 2 ∨ s.rf F.PAIR_STAT_RING ≠ 1 →
    exec (.partnerActiveFall tt) s = .next { s with
      dtime := (s.at tt).dtime, pair := { s.pair with
        partner := true, highSince := none, claim := if s.pair.claim = 2 then 1 else s.pair.claim,
        claimAt := if s.pair.claim = 2 then tt else s.pair.claimAt } }) ∧
  (∀ (s : State) (tt : Nat), s.pair.partner = false → s.pair.claim = 2 → s.rf F.PAIR_STAT_RING = 1 → s.pair.claimFor = 0 →
    ∃ t, exec (.partnerActiveFall tt) s = .next t ∧ t.rf F.PAIR_STAT_CLAIM_LOST = 1 ∧
      t.pair = { s.pair with partner := true, highSince := none, drive := false, claim := 0, claimFor := 0 })

/-- PAIR_JOIN is ABSENT on a chip that is not mirrored, OK at once in a PROTECTED pair, and else begins and waits.
PAIR_LEAVE of a paired chip without tasks leaves it UNPAIRED and completes. PAIR_SWITCH is BAD but on the active chip
of a PROTECTED pair, which hands over. A standby whose partner's line has been high 20 us takes over: state TAKEOVER,
its queue applied, its claim begun. The standby applies the first item of its queue. Tether packets that are accepted
add up to an item, which acts with its last packet; a FOLLOW of the ring makes a PROTECTED standby ask for a switch; a packet of an unknown class is
acknowledged only; an ACK frees what it names. (R564, R605, R607, R609, R612, R614, R616, R621, R622) -/
def Obligations.MirrorPair : Prop :=
  (∀ (s : State) (sq idx : Nat) (d : Desc), Safety.ready s sq idx 0x68 d → ∃ t, exec (.pairJoin sq idx) s = .next t ∧
    (s.hasTether = false ∨ s.mirrored = false → t = s.finish sq idx St.absent ∧ t.desc sq idx = none) ∧
    (s.hasTether = true → s.mirrored = true → zeroes d.bytes 16 48 = true →
      (s.linkUp 2 = false → t = s.finish sq idx St.linkDown) ∧
      (s.linkUp 2 = true → s.pair.state = 3 → t = (s.setRf F.PAIR_STAT_JOIN_CHECK [] 0).finish sq idx St.ok) ∧
      (s.linkUp 2 = true → s.pair.state ≠ 3 → s.pair.state ≠ 0 → ¬ (s.pair.state = 4 ∧ s.pair.role = 2 ∧ s.pair.was = false) → t.pair = { s.pair with joins := s.pair.joins ++ [(sq, idx)] } ∧
        t.desc sq idx = some { d with started := true } ∧ t.mem = s.mem) ∧
      (s.linkUp 2 = true → (s.pair.state = 0 ∨ (s.pair.state = 4 ∧ s.pair.role = 2 ∧ s.pair.was = false)) → ∃ u : State, u.pair = { s.pair with joins := s.pair.joins ++ [(sq, idx)] } ∧
        u.desc sq idx = some { d with started := true } ∧ t = ((u.pairTo 1 1).tether (u.pairTo 1 1).joinInfo).joinTurn))) ∧
  (∀ (s : State) (sq idx : Nat) (d : Desc), Safety.ready s sq idx 0x69 d → s.pair.state ≠ 0 → zeroes d.bytes 16 48 = true → s.paddock.tasks = [] →
    ∃ t, exec (.pairLeave sq idx) s = .next t ∧ t.pair.state = 0 ∧ t.pair.queue = [] ∧ t.pair.joins = [] ∧ t.pair.tasks = [] ∧
      t.pair.bursts = [] ∧ (s.pair.role = 2 → s.pair.claim ≠ 0 → t.pair.claim = 0 ∧ t.pair.drive = false) ∧
      (s.pair.role = 2 → t.pair.role = 0) ∧ (s.pair.role ≠ 2 → t.pair.role = s.pair.role ∧ t.pair.peOwn = s.pair.peOwn) ∧ t.desc sq idx = none ∧ t.mem = s.mem) ∧
  (∀ (s : State) (sq idx : Nat) (d : Desc), Safety.ready s sq idx 0x6A d → ∃ t, exec (.pairSwitch sq idx) s = .next t ∧
    (s.pair.role ≠ 1 ∨ s.pair.state ≠ 3 ∨ zeroes d.bytes 16 48 = false → t = s.finish sq idx St.bad) ∧
    (s.pair.role = 1 → s.pair.state = 3 → zeroes d.bytes 16 48 = true →
      t = ({ s.begin sq idx with pair := { s.pair with switches := s.pair.switches ++ [(sq, idx)] } } : State).handOver)) ∧
  (∀ (s : State) (tt h : Nat), s.pair.role = 2 → s.pair.partner = false → s.pair.highSince = some h → h + 20000 ≤ tt →
    (s.pair.state = 3 ∨ (s.pair.state = 4 ∧ s.pair.was = true)) → s.ballastOn = false → s.pair.claim = 0 → ∃ t u : State,
      exec (.takeover tt) s = .next t ∧
      u = (applyAll ((({ s with dtime := (s.at tt).dtime, pair := { s.pair with state := 5, queue := [] } } : State).flagAll 0x80).mirrorEvent
          4 0 s.pair.roseAt)
        (s.pair.queue.filter (fun i => i.kind ≠ 10 && i.kind ≠ 13))).startClaim 1 ∧
      t = (if u.rb F.PAIR_CTL_FOLLOW && 1 < u.ringLen then u.send 0 { typ := 0x33, seq := 0, fields := [u.pos, 4, 3] } else u) ∧
      (s.pair.queue = [] → s.paddock.tasks = [] → u.pair = { s.pair with
        state := 5, drive := true, claimAt := (s.at tt).dtime, claimFor := 1, claim := 2 })) ∧
  (∀ (s : State) (tt : Nat) (i : MItem) (r : List MItem), s.pair.queue = i :: r → ∃ t u : State, exec (.mirroredItemApply tt) s = .next t ∧
    u = ({ s with dtime := (s.at tt).dtime, pair := { s.pair with queue := r } } : State).applyItem i ∧
    t = (if r.isEmpty && u.pair.role = 2 && u.pair.state = 4 && u.linkUp 2 then u.tether { kind := 14, key := [1] } else u) ∧
    (i.kind = 2 → u.pair = { s.pair with queue := r, locks := kSet s.pair.locks (i.key.getD 0 0) (i.key.drop 1) }) ∧
    (i.kind = 4 → u.pair = { s.pair with queue := r, results := kSet s.pair.results (i.key.getD 0 0) i.data }) ∧
    (i.kind = 9 → u.pair = { s.pair with queue := r, dutpwr := kSet s.pair.dutpwr (i.key.getD 0 0) (i.key.getD 1 0) })) ∧
  (∀ (s : State) (p : PlPacket) (tt : Nat), isPkt p = true → p.fields.getD 1 0 = 1 → ∃ t, exec (.tetherPacket p tt) s = .next t ∧
    (((s.at tt).accept 2 p).2 = true → ((s.at tt).accept 2 p).1.hasTether = true → ∃ (u : State) (i : MItem),
      u = ((s.at tt).accept 2 p).1 ∧
      (u.pair.partial' = none → i = { kind := p.fields.getD 3 0, key := p.fields.drop 4, data := p.data }) ∧
      (∀ j, u.pair.partial' = some j → i = { j with key := j.key ++ p.fields.drop 4, data := j.data ++ p.data }) ∧
      (p.fields.getD 2 0 ≠ 0 → t = { u with pair := { u.pair with partial' := some i } }) ∧
      (p.fields.getD 2 0 = 0 → t = ({ u with pair := { u.pair with partial' := none } } : State).receiveItem i)) ∧
    (((s.at tt).accept 2 p).2 = false → t = ((s.at tt).accept 2 p).1) ∧ exec (.pktReceive 2 p tt) s = .next t) ∧
  (∀ (s : State) (n : Nat) (p : PlPacket) (tt : Nat), isPkt p = true → p.fields.getD 1 0 = 4 → p.fields.getD 2 0 = 3 → n < 2 →
    ∃ t u : State, exec (.follow n p tt) s = .next t ∧ exec (.pktReceive n p tt) s = .next t ∧ u = ((s.at tt).accept n p).1 ∧
      (((s.at tt).accept n p).2 = false ∨ p.fields.getD 0 0 = u.pos → t = u) ∧
      (((s.at tt).accept n p).2 = true → p.fields.getD 0 0 ≠ u.pos → ∃ w : State, w = u.send 0 { p with seq := 0 } ∧
        t = if w.pair.role = 2 && w.pair.state = 3 then
            ({ w with pair := { w.pair with following := true } } : State).tether { kind := 13, key := [0] } else w)) ∧
  (∀ (s : State) (n : Nat) (p : PlPacket) (tt : Nat), isPkt p = true → p.fields.getD 1 0 = 0 ∨ 5 ≤ p.fields.getD 1 0 →
    exec (.pktReceive n p tt) s = .next ((s.at tt).accept n p).1) ∧
  (∀ (s : State) (n : Nat) (v : W64) (tt : Nat), s.linkUp n = true → fget v 0 8 = 0x4B → blockOk v = true → n ≠ 2 →
    ∃ t, exec (.ackBlock n v tt) s = .next t ∧ t = (((s.at tt).heard n).upLk n (fun l => { l with
      replay := afterAck l.replay (fget v 8 16), express := afterAck l.express (fget v 24 8) })).drain n)

/-- PL_n_CTL.EN written 1 trains the link; written 0 disables it. A DOWN link tries again after 10 ms. A good TRAIN block
of the index expected moves the lane on; the last of 16 bursts trains the lane once the partner reports the same, which no field of a block
carries (the model's free value, log entry 43); a bad block is a block error. An
attempt ends after 300 us: the next begins, or after six the lane has failed. A block error is counted, and the 16th
within 1,024 block times loses the lane. Lane loss, link loss and a retraining's outcome act on their lane or link.
LANE_REVIVE of no retired lane is BAD, of an absent link ABSENT, else it begins attempts, on a DOWN link after a
training of all its lanes. RING_CFG is set when nothing
holds the ring's place, else CFG_REJECT; a write that keeps place and length and sets AUTO_ALIGN starts an alignment that may start. (R561, R568, R569, R574, R575, R577, R578, R588, R591, R592, R596, R597) -/
def Obligations.LinksTrain : Prop :=
  (∀ (s : State) (n : Nat) (v : W64), Safety.writable s (F.PL_CTL_EN.off [n]) = true → n < 4 → s.hasLink n = true → Safety.shaped s →
    ∃ t u : State, exec (.linkEnable n v) s = .next t ∧ u = ({ s with held := none } : State).hostAccess.writeFields (F.PL_CTL_EN.off [n]) v ∧
      (fget v 0 1 = 1 → s.rb F.PL_CTL_EN [n] = false → t = u.train n ∧
        (s.clk.lref = true → s.clk.lrefHold = false → s.power.blk.contains (21 + n, none) = false → s.lanesRetired n ≠ 15 →
          (t.lk n).state = 1)) ∧
      (fget v 0 1 = 0 → s.rb F.PL_CTL_EN [n] = true → t = (u.linkGone n 0).failRevives n ∧ (s.linkUp n = false → (t.lk n).state = 0))) ∧
  (∀ (s : State) (n tt : Nat), (s.lk n).state = 4 → s.rb F.PL_CTL_EN [n] = true → s.clk.lref = true → s.clk.lrefHold = false → (s.lk n).downAt + 10000000 ≤ tt →
    exec (.linkRetry n tt) s = .next (({ s with dtime := (s.at tt).dtime } : State).train n)) ∧
  (∀ (s : State) (n k : Nat) (v : W64) (tt : Nat), s.hasLink n = true → k < 4 → ∃ t, exec (.trainBlock n k v tt) s = .next t ∧
    ((fget v 0 8 ≠ 0x2D ∨ fget v 24 24 ≠ 0x5AC3E1 ∨ blockOk v = false) → t = (s.at tt).blockErr n k) ∧
    (fget v 0 8 = 0x2D → fget v 24 24 = 0x5AC3E1 → blockOk v = true → s.power.lull = 0 → (s.lane n k).training = true → fget v 15 2 = k →
      fget v 17 1 = (s.lane n k).setting → fget v 18 6 = (s.lane n k).idx → n < s.links.length → k < (s.lk n).lanes.length →
      (fget v 18 6 < 63 → t.lane n k = { s.lane n k with idx := fget v 18 6 + 1 } ∧ t.rf F.PL_STAT_PARTNER_POS [n] = fget v 8 5 ∧
        t.rf F.PL_STAT_PARTNER_LINK [n] = fget v 13 2) ∧
      (fget v 18 6 = 63 → (s.lane n k).bursts + 1 < 16 → t.lane n k = { s.lane n k with idx := 0, bursts := (s.lane n k).bursts + 1 }) ∧
      (fget v 18 6 = 63 → 16 ≤ (s.lane n k).bursts + 1 → ∃ u : State,
        t = (if u.partnerReports then u.draw.laneTrained n k else u.draw) ∧
        u.lane n k = { s.lane n k with idx := 0, bursts := (s.lane n k).bursts + 1 }))) ∧
  (∀ (s : State) (n k tt : Nat), (s.lane n k).training = true → (s.lane n k).attemptAt + 300000 ≤ tt → ∃ t,
    exec (.trainingAttemptTimeout n k tt) s = .next t ∧
    (s.rf F.PL_LANE_ATTEMPTS [n, k] < 6 → t = ((s.at tt).attempt n k (s.rf F.PL_LANE_ATTEMPTS [n, k] + 1)).upLane n k (fun y => { y with
      lost := (s.lane n k).lost }) ∧ (n < s.links.length → k < (s.lk n).lanes.length → (t.lane n k).training = true ∧
        (t.lane n k).attemptAt = (s.at tt).dtime ∧ (t.lane n k).lost = (s.lane n k).lost)) ∧
    (6 ≤ s.rf F.PL_LANE_ATTEMPTS [n, k] → t = (s.at tt).laneFailed n k)) ∧
  (∀ (s : State) (n k tt : Nat), exec (.laneLoss n k false tt) s = .next ((s.at tt).loseLane n k)) ∧
  (∀ (s : State) (n k tt : Nat), 16 ≤ ((s.lane n k).errs.filter (fun e => tt ≤ e + 2629)).length →
    exec (.laneLoss n k true tt) s = .next ((s.at tt).loseLane n k)) ∧
  (∀ (s : State) (n tt : Nat), s.linkUp n = true → exec (.linkLoss n tt) s = .next ((s.at tt).linkLost n)) ∧
  (∀ (s : State) (n k tt : Nat), (s.lane n k).training = true → (s.lane n k).lost = true ∨ (s.lane n k).revive ≠ none →
    exec (.laneRetrain n k true tt) s = .next ((s.at tt).laneTrained n k) ∧
    exec (.laneRetrain n k false tt) s = .next ((s.at tt).laneFailed n k)) ∧
  (∀ (s : State) (n k tt : Nat), s.hasLink n = true → k < 4 → (s.lk n).state ≠ 0 → ∃ t, exec (.blockError n k tt) s = .next t ∧
    t = (s.at tt).blockErr n k ∧
    (n < s.links.length → k < (s.lk n).lanes.length → (s.lane n k).errs = [] → (t.lane n k).errs = [(s.at tt).dtime] ∧ (t.lane n k).bursts = 0 ∧
      (t.lane n k).idx = 0 ∧ t.rf F.PL_LANE_BLK_ERR [n, k] = satAdd 24 (s.rf F.PL_LANE_BLK_ERR [n, k]) 1)) ∧
  (∀ (s : State) (sq idx : Nat) (d : Desc), Safety.ready s sq idx 0x60 d → ∃ (t : State) (n : Nat) (ks : List Nat),
    exec (.laneRevive sq idx) s = .next t ∧ n = fld d.bytes 16 1 ∧
    ks = (bitList 4 (fld d.bytes 17 1)).filter (fun k => (s.lanesRetired n).testBit k) ∧
    (s.hasLink n = false ∨ 4 ≤ n → t = s.finish sq idx St.absent) ∧
    (s.hasLink n = true → n < 4 → s.rb F.PL_CTL_EN [n] = false ∨ ks = [] ∨ 16 ≤ fld d.bytes 17 1 ∨ zeroes d.bytes 18 46 = false →
      t = s.finish sq idx St.bad) ∧
    (s.hasLink n = true → n < 4 → s.rb F.PL_CTL_EN [n] = true → ks ≠ [] → fld d.bytes 17 1 < 16 → zeroes d.bytes 18 46 = true →
      t = ks.foldl (fun s k => (s.attempt n k 1).upLane n k (fun x => { x with revive := some (sq, idx) }))
        ((if (s.lk n).state = 4 then (s.begin sq idx).train n else s.begin sq idx).upLk n (fun l => { l with
          state := if l.state = 4 then 1 else l.state })) ∧
      t.desc sq idx = some { d with started := true })) ∧
  (∀ (s : State) (v : W64), Safety.writable s (F.RING_CFG_POS.off []) = true → ∃ t, exec (.ringCfgWrite v) s = .next t ∧
    (fget v 5 6 ≤ fget v 0 5 → t = ({ s with held := none } : State).hostAccess) ∧
    (fget v 0 5 < fget v 5 6 → (fget v 0 5 ≠ s.pos ∨ fget v 5 6 ≠ s.ringLen) →
      (s.ringCfgHeld = true → t = ({ s with held := none } : State).hostAccess.setRf F.RING_STAT_CFG_REJECT [] 1) ∧
      (s.ringCfgHeld = false → (∀ n < 4, s.rb F.PL_CTL_EN [n] = false) → (s.lk 2).state ≠ 5 →
        t.pos = fget v 0 5 ∧ t.ringLen = fget v 5 6 ∧ t.ringT = { s.ringT with aligned := false } ∧ t.links = s.links)) ∧
    (fget v 0 5 < fget v 5 6 → fget v 0 5 = s.pos → fget v 5 6 = s.ringLen → (∀ n < 4, (s.lk n).state ≠ 5) → ∃ u : State,
      u = ({ s with held := none } : State).hostAccess.writeFields (F.RING_CFG_POS.off []) v ∧
      t = if u.rb F.RING_CFG_AUTO_ALIGN && !s.rb F.RING_CFG_AUTO_ALIGN then u.alignStart else u))

/-- A WIDTH block that agrees with the token of a width change in progress settles the lanes; one that proposes is
answered, and one that comes after the agreement restarts the sequence. A proposal unanswered for 4,000 ns is sent again, and after three
sends the link is lost; 328 ns after the agreement the link runs at the agreed lanes. A WIDTH, ACK or NAK whose CRC fails is a block error of
an active lane. (R561, R575, R576) -/
def Obligations.LinkWidths : Prop :=
  (∀ (s : State) (n : Nat) (v : W64) (tt : Nat) (w : WidthX), s.linkUp n = true → fget v 0 8 = 0x5A → blockOk v = true → n < s.links.length →
    (s.lk n).width = some w → activeOf (fget v 8 4 &&& s.goodLanes n) ≠ 0 → ∃ t, exec (.widthBlock n v tt) s = .next t ∧
      t.mem = s.mem ∧ t.regs = s.regs ∧
      (w.agreed = none → fget v 24 1 = 1 → fget v 16 8 = w.token → t.out = s.out ∧
        (t.lk n).width = some { w with agreed := some (activeOf (fget v 8 4 &&& s.goodLanes n), (s.at tt).dtime) }) ∧
      (w.agreed = none → fget v 24 1 = 0 → (∃ o, t.out = s.out ++ [o]) ∧
        (t.lk n).width = some { w with agreed := some (activeOf (fget v 8 4 &&& s.goodLanes n), (s.at tt).dtime) }) ∧
      (w.agreed ≠ none → fget v 24 1 = 0 → (∃ o, t.out = s.out ++ [o]) ∧
        (t.lk n).width = some { mine := s.goodLanes n, token := fget v 16 8, sentAt := (s.at tt).dtime
                                agreed := some (activeOf (fget v 8 4 &&& s.goodLanes n), (s.at tt).dtime) })) ∧
  (∀ (s : State) (n : Nat) (v : W64) (tt : Nat), s.linkUp n = true → blockOk v = false →
    (fget v 0 8 = 0x5A → exec (.widthBlock n v tt) s = .next ((s.at tt).crcErr n)) ∧
    (fget v 0 8 = 0x4B → exec (.ackBlock n v tt) s = .next ((s.at tt).crcErr n)) ∧
    (fget v 0 8 = 0x55 → exec (.nakBlock n v tt) s = .next ((s.at tt).crcErr n)) ∧
    ((s.lk n).active % 16 ≠ 0 → ∃ k, (s.lk n).active.testBit k = true ∧ (s.at tt).crcErr n = (s.at tt).draw.blockErr n k)) ∧
  (∀ (s : State) (n tt : Nat) (w : WidthX), (s.lk n).width = some w → w.agreed = none → w.sentAt + 4000 ≤ tt → n < s.links.length →
    ∃ t, exec (.widthResend n tt) s = .next t ∧ (w.sends < 3 → (t.lk n).width = some { w with sends := w.sends + 1, sentAt := tt } ∧
        (∃ l, l ≠ [] ∧ t.out = s.out ++ l) ∧ t.regs = s.regs) ∧
      (3 ≤ w.sends → t = (s.at tt).linkLost n)) ∧
  (∀ (s : State) (n tt m t0 : Nat) (w : WidthX), (s.lk n).width = some w → w.agreed = some (m, t0) → t0 + 328 ≤ tt → n < s.links.length →
    s.paddock.tasks = [] → (∀ x ∈ (s.lk n).lanes, x.revive = none) → (s.lk n).rejoin = 0 → ∃ t, exec (.widthSwitch n tt) s = .next t ∧
      (t.lk n).active = m ∧ (t.lk n).width = none ∧ (t.lk n).lanes = (s.lk n).lanes ∧
      t.rf F.PL_STAT_RECOVERIES [n] = satAdd 32 (s.rf F.PL_STAT_RECOVERIES [n]) 1)

/-- ACK_SEND acknowledges what was received. NAK frees what lies before it
and sends the rest again. EI, where the link may idle, and the idle timer put the link in electrical idle with an EI block; traffic leaves it
with a training burst on each active lane. A good lane of a link in use that has heard nothing for 2,622 ns holds its tracking. A lane whose
marker is missing or differs from the majority's has a block error; a marker is due 16,384 block times after the last, and counts on. (R562,
R564, R568, R571, R572, R573) -/
def Obligations.LinkBlocks : Prop :=
  (∀ (s : State) (n tt d : Nat), (s.lk n).unacked = some d → d + 655 ≤ tt → s.linkUp n = true → n < s.links.length →
    ∃ t, exec (.ackSend n tt) s = .next t ∧
      t.lk n = { s.lk n with unacked := none, state := 2, idleSince := (s.at tt).dtime } ∧ (∃ l, l ≠ [] ∧ t.out = s.out ++ l) ∧
      { t with links := s.links, out := s.out, dtime := s.dtime } = s) ∧
  (∀ (s : State) (n : Nat) (v : W64) (tt : Nat), s.linkUp n = true → fget v 0 8 = 0x55 → blockOk v = true → (s.lk n).waitq = [] →
    n < s.links.length → ∃ (t : State) (e r : List PlPacket) (l : List Out), exec (.nakBlock n v tt) s = .next t ∧
      e = afterAck (s.lk n).express ((fget v 24 8 + 2 ^ 8 - 1) % 2 ^ 8) ∧ r = afterAck (s.lk n).replay ((fget v 8 16 + 2 ^ 16 - 1) % 2 ^ 16) ∧
      (t.lk n).express = e ∧ (t.lk n).replay = r ∧ t.out = s.out ++ l ∧ l.map Safety.sentOn = (e ++ r).map (fun p => some (n, p)) ∧
      t.rf F.PL_LINKCNT_NAKS [n] = satAdd 32 (s.rf F.PL_LINKCNT_NAKS [n]) 1) ∧
  (∀ (s : State) (n tt : Nat), (s.lk n).state = 2 → n < s.links.length →
    (s.idleTimer n = true → (s.lk n).idleSince + 1000 * s.rf F.PL_CTL_EI_US [n] ≤ tt → ∃ t, exec (.electricalIdleEntry n tt) s = .next t ∧
      (t.lk n) = { s.lk n with state := 3 } ∧
      t.out = s.out ++ [.link n { typ := 0xAA, seq := 0, fields := [0] } (bitList 4 (s.lk n).active)]) ∧
    (∀ v : W64, fget v 0 8 = 0xAA → ∃ t, exec (.eiBlock n v tt) s = .next t ∧
      (s.mayIdle n = true → (t.lk n).state = 3 ∧
        t.out = s.out ++ [.link n { typ := 0xAA, seq := 0, fields := [0] } (bitList 4 (s.lk n).active)]) ∧
      (s.mayIdle n = false → (t.lk n).state = 2 ∧ t.out = s.out) ∧
      (∀ k, (s.lk n).active.testBit k = true → k < (s.lk n).lanes.length → (t.lane n k).hold = false)) ∧
    ((s.lk n).markerAt + 41943 ≤ tt →
      ∃ t, exec (.alignMarkerSend n tt) s = .next t ∧
        t.lk n = { s.lk n with marker := ((s.lk n).marker + 1) % 2 ^ 16, markerAt := tt } ∧
        t.out = s.out ++ [.link n { typ := 0xB4, seq := 0, fields := [(s.lk n).marker] } (bitList 4 (s.lk n).active)] ∧
        { t with links := s.links, out := s.out, dtime := s.dtime } = s) ∧
    (tt < (s.lk n).markerAt + 41943 → exec (.alignMarkerSend n tt) s = .next s)) ∧
  (∀ (s : State) (n tt : Nat), (s.lk n).state = 3 → s.power.lull = 0 → n < s.links.length → ∃ t, exec (.electricalIdleExit n tt) s = .next t ∧
    t.lk n = { s.lk n with state := 2, idleSince := (s.at tt).dtime } ∧
    t.out = s.out ++ (bitList 4 (s.lk n).active).map (fun k =>
      Out.link n { typ := 0x2D, seq := 0, fields := (List.range 64).map (s.trainBody n k) } [k])) ∧
  (∀ (s : State) (n k tt : Nat), (s.lk n).state = 2 → (s.goodLanes n).testBit k = true → (s.lane n k).heardAt + 2622 ≤ tt →
    n < s.links.length → k < (s.lk n).lanes.length → ∃ t, exec (.trackingHold n k tt) s = .next t ∧
      t.lane n k = { s.lane n k with hold := true } ∧ (∀ j, j ≠ k → t.lane n j = s.lane n j) ∧
      { t with links := s.links, dtime := s.dtime } = s) ∧
  (∀ (s : State) (n : Nat) (marks : List (Option Nat)) (tt : Nat), s.linkUp n = true → ∃ (t : State) (bad : List Nat),
    exec (.alignMarker n marks tt) s = .next t ∧
    t = bad.foldl (fun s i => s.blockErr n i) ({ s with dtime := (s.at tt).dtime } : State) ∧
    (∀ c : Option Nat, (bitList 4 (s.lk n).active).length < 2 * (bitList 4 (s.lk n).active).countP (fun j => marks.getD j none = c) →
      bad = (bitList 4 (s.lk n).active).filter (fun j => marks.getD j none ≠ c)))

/-- RING_ALIGN off position 0 or on a chip alone is BAD, with the ring down LINK_DOWN, else it starts an alignment. A
packet accepted on a ring link that is for this chip acts here: MSG sets the target task's flags and is answered,
MSG_ACK wakes the task that waits, an alignment pass goes on; for another chip it is sent on. An express message
accepted on link 1 is mirrored and forwarded; READY, START, STOP, NOGO and FAIL act on the burst they name, if this
chip holds it, and TRIG raises its XT line here. A START less than 100 ns ahead, a STOP and a NOGO end a part that has
not started, and a STOP or NOGO stops one that runs; a status that is no failure's is ignored; NOGO with SITE_BLOCKED also
tells the site that it is blocked elsewhere. A FAIL of a match timeout charges its vector. TIME notes when its link's partner
sent; each link that is up sends one 2^20 ns after its last. (R83, R87, R363, R438, R579, R580, R582, R583, R584, R585,
R586, R588) -/
def Obligations.RingTraffic : Prop :=
  (∀ (s : State) (sq idx : Nat) (d : Desc), Safety.ready s sq idx 0x61 d → ∃ t, exec (.ringAlign sq idx) s = .next t ∧
    (s.pos ≠ 0 ∨ s.ringLen ≤ 1 ∨ zeroes d.bytes 16 48 = false → t = s.finish sq idx St.bad) ∧
    (s.pos = 0 → 1 < s.ringLen → zeroes d.bytes 16 48 = true → (s.ringUp = false → t = s.finish sq idx St.linkDown) ∧
      (s.ringUp = true → t = ({ s.begin sq idx with ringT := { s.ringT with descs := s.ringT.descs ++ [(sq, idx)] } } : State).alignStart))) ∧
  (∀ (s : State) (n : Nat) (p : PlPacket) (tt : Nat), isPkt p = true → n < 2 → ((s.at tt).accept n p).2 = true → ∃ u : State,
    u = ((s.at tt).accept n p).1 ∧
    (p.fields.getD 1 0 = 2 → p.fields.getD 2 0 = s.pos → p.fields.getD 0 0 ≠ s.pos → exec (.msgPacket n p tt) s = .next u) ∧
    (p.fields.getD 1 0 = 2 → (p.fields.getD 2 0 ≠ s.pos ∨ p.fields.getD 0 0 = s.pos) → ∃ t, exec (.msgPacket n p tt) s = .next t ∧
      (p.fields.getD 0 0 ≠ u.pos → t = u.send 0 { p with seq := 0 }) ∧
      (p.fields.getD 0 0 = u.pos → t = (u.setFlags (p.fields.getD 4 0) (p.fields.getD 5 0)).send 0
        { typ := 0x33, seq := 0,
          fields := [p.fields.getD 2 0, 3, p.fields.getD 3 0, if (u.task (p.fields.getD 4 0)).isSome then St.ok else St.noObject] })) ∧
    (p.fields.getD 1 0 = 3 → ∃ t, exec (.msgAck n p tt) s = .next t ∧ (p.fields.getD 0 0 ≠ u.pos → t = u.send 0 { p with seq := 0 }) ∧
      (∀ x, p.fields.getD 0 0 = u.pos → u.task (p.fields.getD 2 0) = some x → x.state = 4 → x.wkind = 0 → x.wmask = 0 → x.begun = true →
        x.ack = none →
        (p.fields.getD 3 0 ≠ St.ok → p.fields.getD 3 0 ≠ St.noObject → t = u) ∧
        (p.fields.getD 3 0 = St.ok ∨ p.fields.getD 3 0 = St.noObject → t = (u.upTask (p.fields.getD 2 0) (fun t => { t with ack := some (p.fields.getD 3 0) })).wake (p.fields.getD 2 0) false))) ∧
    (p.fields.getD 1 0 = 4 → (p.fields.getD 2 0 = 1 ∨ p.fields.getD 2 0 = 2) → ∃ t, exec (.ringPacket n p tt) s = .next t ∧
      (p.fields.getD 0 0 ≠ u.pos → t = u.send 0 { p with seq := 0 }) ∧
      (p.fields.getD 0 0 = u.pos → t = u.alignPass (p.fields.getD 2 0) (toSigned 64 (p.fields.getD 3 0)) (toSigned 64 (p.fields.getD 4 0))))) ∧
  (∀ (s : State) (p : PlPacket) (tt : Nat), p.typ = 0x66 → ((s.at tt).accept 1 p).2 = true → ∃ (w : State) (b : Nat),
    w = ((((s.at tt).accept 1 p).1).mirror { kind := 8, key := 0x66 :: p.fields.take 4 }).forward 1 p ∧ b = p.fields.getD 3 0 ∧
    (p.fields.getD 1 0 = 0 → ∃ t, exec (.syncReady 1 p tt) s = .next t ∧ (w.named b = none → t = w) ∧
      (∀ x, w.named b = some x → w.leads x.ent = true → t = w.noteReady x.ent (p.fields.getD 0 0))) ∧
    (p.fields.getD 1 0 = 1 → ∃ t, exec (.syncStart 1 p tt) s = .next t ∧ (w.named b = none → t = w) ∧
      (∀ x, w.named b = some x → x.running = false → x.startAt = none → x.fin = none →
        (w.scaleT + 200000 ≤ 2000 * (nearest 40 (p.fields.getD 2 0) w.dtime : Int) →
          t = (w.entSlices x.ent).foldl (fun s g => s.upSeq g (fun q => { q with hzn := bitsOf b 16 16 }))
            (w.upBurst x.ent (fun y => { y with startAt := some (nearest 40 (p.fields.getD 2 0) w.dtime) }))) ∧
        (2000 * (nearest 40 (p.fields.getD 2 0) w.dtime : Int) < w.scaleT + 200000 →
          t = (w.endStart x.ent St.linkDown 0).tellNogo x.ent St.linkDown))) ∧
    (p.fields.getD 1 0 = 2 → ∃ t, exec (.syncStop 1 p tt) s = .next t ∧ (w.named b = none ∨ isFailure (bitsOf b 16 8) = false → t = w) ∧
      (∀ x, w.named b = some x → isFailure (bitsOf b 16 8) = true → t = if x.running then w.stopEnt x.ent w.dtime (bitsOf b 16 8)
        else w.endStart x.ent (bitsOf b 16 8) (if bitsOf b 16 8 = St.denied then 9 else 0))) ∧
    (p.fields.getD 1 0 = 3 → ∃ t u : State, exec (.syncNogo 1 p tt) s = .next t ∧ (isFailure (bitsOf b 16 8) = false → t = w) ∧
      (w.named b = none → u = w) ∧
      (∀ x, w.named b = some x → u = if x.running then w.stopEnt x.ent w.dtime (bitsOf b 16 8)
        else w.endStart x.ent (bitsOf b 16 8) (if bitsOf b 16 8 = St.denied then 9 else 0)) ∧
      (isFailure (bitsOf b 16 8) = true → t = if bitsOf b 16 8 = St.blocked then u.blockedElsewhere (bitsOf b 0 16) else u))) ∧
  (∀ (s : State) (p : PlPacket) (tt : Nat), p.typ = 0x87 → ((s.at tt).accept 1 p).2 = true → ∃ (t w : State) (b : Nat),
    exec (.failMsg 1 p tt) s = .next t ∧ w = ((((s.at tt).accept 1 p).1).mirror { kind := 8, key := 0x87 :: p.fields.take 4 }).forward 1 p ∧
    b = p.fields.getD 3 0 ∧ (w.named b = none → t = w) ∧
    (∀ x, w.named b = some x → (∀ g ∈ w.entSlices x.ent, (w.sl g).seq.decided = []) → ∃ (c : Nat) (vs : List Nat),
      c = nearest 40 (p.fields.getD 2 0) (((w.entSlices x.ent).head?.map (fun g => (w.sl g).seq.next)).getD 0) ∧
      vs = (bitList 16 (bitsOf b 16 16)).map (c + ·) ∧
      t = if p.fields.getD 1 0 = 0 then vs.foldl (fun s v => s.remoteFail x.ent v) w
        else w.upBurst x.ent (fun y => { y with mfail := y.mfail ++ vs.map (fun v => (0xFFFF, 0xFFFF, v)) }))) ∧
  (∀ (s : State) (p : PlPacket) (tt : Nat), p.typ = 0x78 → ((s.at tt).accept 1 p).2 = true → ∃ (t w v : State),
    exec (.trigMsg 1 p tt) s = .next t ∧ w = ((((s.at tt).accept 1 p).1).mirror { kind := 8, key := 0x78 :: p.fields.take 4 }).forward 1 p ∧
    v = (if !(p.fields.getD 1 0).testBit 2 && w.linkUp 3 then w.send 3 { p with seq := 0 } else w) ∧
    t = v.xtEvent (bitsOf (p.fields.getD 3 0) 11 3) ((2000 * (nearest 40 (p.fields.getD 2 0) (((s.at tt).accept 1 p).1).dtime : Nat) +
      bitsOf (p.fields.getD 3 0) 0 11 : Int) - v.ringT.xoff).toNat) ∧
  (∀ (s : State) (n : Nat) (p : PlPacket) (tt : Nat), p.typ = 0x99 → ((s.at tt).accept n p).2 = true → ∃ t u : State,
    exec (.timeMsg n p tt) s = .next t ∧ u = ((s.at tt).accept n p).1 ∧
    ((u.lk n).sentT = [] → t = u.upLk n (fun l => { l with
      recvT := some (2000 * nearest 40 (p.fields.getD 2 0) u.dtime + bitsOf (p.fields.getD 3 0) 0 11, 2000 * u.dtime + p.fields.getD 4 0 % 2000) }))) ∧
  (∀ (s : State) (tt : Nat), Safety.shaped s → ∃ t, exec (.timeSend tt) s = .next t ∧ t.regs = s.regs ∧ t.mem = s.mem ∧
    (∀ n < 4, (s.at tt).timeDue n = true → (t.lk n).sentT = (2000 * (s.at tt).dtime :: (s.lk n).sentT).take 2) ∧
    (∀ n < 4, (s.at tt).timeDue n = false → t.lk n = s.lk n))

/-- Every host write returns a link in L1 to L0. One of another width, or not naturally aligned, changes nothing else. A write of
4 or 8 bytes of a 32-bit register that answers does what the register does with the value, and so does a 64-bit write of a 64-bit register;
of a register of which the spec says no more than its fields, that is what each field's access type makes of its bits. A 32-bit write of
the low half of a 64-bit register is held, and the write of its high half that follows brings both; one of the high half with nothing held
leaves the low half. A write of an offset with no register changes nothing and keeps a held half, and one of a register that does not answer
sets no register but LULL_STAT. A write of a doorbell window in BAR2 is that ring's doorbell; the MSI-X table is written there, and a write
of the rest is ignored. (R17, R18, R19, R50, R483, R484, R500, R666, R725, R726) -/
def Obligations.RegisterAccess : Prop :=
  (∀ (s : State) (off size : Nat) (v : W64), (size ≠ 4 ∧ size ≠ 8) ∨ off % size ≠ 0 → exec (.registerWrite off size v) s = .next s.hostAccess) ∧
  (∀ (s : State) (off size : Nat) (v x : W64) (r : Row) (is : List Nat), off < 2 ^ 21 → off % size = 0 → findReg off = some (r, is) →
    (r.wide = true ∧ size = 8 ∧ x = v) ∨ (r.wide = false ∧ (size = 4 ∨ size = 8) ∧ x = BitVec.ofNat 64 (v.toNat % 2 ^ 32)) →
    Safety.writable s off = true → ∃ t, exec (.registerWrite off size v) s = .next t ∧
      t = ({ s with held := none } : State).hostAccess.writeReg r.reg is off false x ∧
      ((r.reg = .clTrgSrc ∨ r.reg = .plAsym ∨ r.reg = .lullWakeAt ∨ r.reg = .fltTrap ∨ r.reg = .fchainThr ∨ r.reg = .wsCtl ∨
        r.reg = .paddockCtl ∨ r.reg = .clTriginCfg ∨ r.reg = .clTriginDsk) →
        (∀ f ∈ r.flds.flatMap Fld.spread, fget (t.reg off) f.lo f.w = f.write (fget (s.reg off) f.lo f.w) (fget x f.lo f.w)) ∧
        (∀ o, o ≠ off → t.reg o = s.reg o) ∧ { t with regs := s.regs, held := s.held, host := s.host } = s ∧ t.host = s.hostAccess.host)) ∧
  (∀ (s : State) (off : Nat) (v : W64) (r : Row) (is : List Nat), off < 2 ^ 21 → off % 4 = 0 → findReg off = some (r, is) → r.wide = true →
    Safety.writable s off = true →
    exec (.registerWrite off 4 v) s = .next ({ s with held := some (off, BitVec.ofNat 64 (v.toNat % 2 ^ 32)) } : State).hostAccess) ∧
  (∀ (s : State) (off : Nat) (v : W64) (r : Row) (is : List Nat), off + 4 < 2 ^ 21 → off % 8 = 0 → findReg off = some (r, is) →
    findReg (off + 4) = none → r.wide = true → Safety.writable s off = true →
    (∀ lo, s.held = some (off, lo) → exec (.registerWrite (off + 4) 4 v) s =
      .next (({ s with held := none } : State).hostAccess.writeReg r.reg is off false (BitVec.ofNat 64 (lo.toNat + v.toNat % 2 ^ 32 * 2 ^ 32)))) ∧
    ((∀ lo, s.held ≠ some (off, lo)) → exec (.registerWrite (off + 4) 4 v) s =
      .next (({ s with held := none } : State).hostAccess.writeReg r.reg is off true (s.hostAccess.highValue r is off v.toNat)))) ∧
  (∀ (s : State) (off : Nat) (v : W64), off < 2 ^ 21 → findReg off = none →
    (off % 8 = 0 → exec (.registerWrite off 8 v) s = .next s.hostAccess) ∧
    (off % 4 = 0 → (off % 8 = 0 ∨ findReg (off - 4) = none) → exec (.registerWrite off 4 v) s = .next s.hostAccess)) ∧
  (∀ (s : State) (off size : Nat) (v : W64) (r : Row) (is : List Nat), off < 2 ^ 21 → size = 4 ∨ size = 8 → off % size = 0 →
    findReg off = some (r, is) → Safety.writable s off = false → exec (.registerWrite off size v) s = .next
      (if s.power.lull ≠ 0 && r.sleeps && !s.regAbsent r is then ({ s with held := none } : State).hostAccess.setRf F.LULL_STAT_ACC [] 1
       else ({ s with held := none } : State).hostAccess)) ∧
  (∀ (s : State) (o size : Nat) (v : W64),
    (∀ k, k < 64 → exec (.registerWrite (2 ^ 21 + 256 * k) 4 v) s = .next (s.hostAccess.doorbell k v)) ∧
    (∀ k w, k < 64 → w < 4 → exec (.registerWrite (2 ^ 21 + 0x8000 + 16 * k + 4 * w) 4 v) s =
      .next ({ s.hostAccess with host := { s.hostAccess.host with
        msix := s.host.msix.modify k (fun e => e.write w (fget v 0 32)) } } : State).msiFlush) ∧
    (0x4000 ≤ o → o < 0x8000 ∨ 0x8400 ≤ o → exec (.registerWrite (2 ^ 21 + o) size v) s = .next s.hostAccess))

/-- Every host read returns a link in L1 to L0, and changes no register and no memory. A 32-bit read of the low half of a 64-bit register
returns it and latches the high half, which the next read of the high half returns; one of a 32-bit register returns it. A 64-bit read
returns the whole register and latches nothing, and of two 32-bit registers both; a read of a reserved offset, of another width, or not
naturally aligned, returns 0. A read discards the held half of another register. The MSI-X table and the pending-bit array are read in BAR2.
The SMBus target answers a block read while rails 12 and 13 are within limits. (R12, R17, R18, R483, R484, R676, R725, R726) -/
def Obligations.RegisterReads : Prop :=
  (∀ (s : State) (off : Nat) (r : Row) (is : List Nat), off < 2 ^ 21 → findReg off = some (r, is) → off % 8 = 0 → r.wide = true →
    ∃ t, exec (.splitReadLatch { off := off, size := 4 }) s = .next t ∧ t.regs = s.regs ∧ t.mem = s.mem ∧ t.host = s.hostAccess.host ∧
      t.out = s.out ++ [.readData off (BitVec.ofNat 64 (fget ((s.hostAccess.dropHeld off).readReg off) 0 32))] ∧
      kGet t.latch off = some (BitVec.ofNat 64 (fget ((s.hostAccess.dropHeld off).readReg off) 32 32)) ∧
      (∀ o, o ≠ off → kGet t.latch o = kGet s.latch o)) ∧
  (∀ (s : State) (off : Nat) (r : Row) (is : List Nat), off < 2 ^ 21 → findReg off = some (r, is) → off % 4 = 0 → r.wide = false →
    ∃ t, exec (.splitReadLatch { off := off, size := 4 }) s = .next t ∧ t.regs = s.regs ∧ t.mem = s.mem ∧ t.host = s.hostAccess.host ∧
      t.latch = s.latch ∧ t.out = s.out ++ [.readData off (BitVec.ofNat 64 (fget ((s.hostAccess.dropHeld off).readReg off) 0 32))]) ∧
  (∀ (s : State) (off : Nat) (r : Row) (is : List Nat) (h : W64), off + 4 < 2 ^ 21 → findReg off = some (r, is) → off % 8 = 0 → r.wide = true →
    findReg (off + 4) = none → kGet s.latch off = some h → ∃ t, exec (.splitReadLatch { off := off + 4, size := 4 }) s = .next t ∧
      t.regs = s.regs ∧ t.mem = s.mem ∧ t.out = s.out ++ [.readData (off + 4) h] ∧ t.latch = kDel s.latch off) ∧
  (∀ (s : State) (off : Nat), off < 2 ^ 21 → off % 8 = 0 →
    ∃ t, exec (.splitReadLatch { off := off, size := 8 }) s = .next t ∧ t.regs = s.regs ∧ t.mem = s.mem ∧ t.latch = s.latch ∧
      t.host = s.hostAccess.host ∧ t.out = s.out ++ [.readData off ((s.hostAccess.dropHeld off).read64 off)] ∧
      (∀ r is, findReg off = some (r, is) → r.wide = true → (s.hostAccess.dropHeld off).read64 off = (s.hostAccess.dropHeld off).readReg off ∧
        (∀ o v, s.held = some (o, v) → o ≠ off → t.held = none))) ∧
  (∀ (s : State) (off : Nat), off < 2 ^ 21 → off % 4 = 0 → findReg off = none → findReg (off - 4) = none →
    ∃ t, exec (.splitReadLatch { off := off, size := 4 }) s = .next t ∧ t.out = s.out ++ [.readData off 0] ∧ t.regs = s.regs ∧ t.mem = s.mem) ∧
  (∀ (s : State) (k w : Nat), k < 64 → w < 4 →
    (∃ t, exec (.splitReadLatch { off := 2 ^ 21 + 0x8000 + 16 * k + 4 * w, size := 4 }) s = .next t ∧ t.regs = s.regs ∧ t.mem = s.mem ∧
      t.out = s.out ++ [.readData (2 ^ 21 + 0x8000 + 16 * k + 4 * w) (BitVec.ofNat 64 ((s.host.msix.getD k {}).word w))]) ∧
    (∃ t, exec (.splitReadLatch { off := 2 ^ 21 + 0x9000, size := 8 }) s = .next t ∧ t.regs = s.regs ∧ t.mem = s.mem ∧
      t.out = s.out ++ [.readData (2 ^ 21 + 0x9000) (BitVec.ofNat 64 s.host.pba)])) ∧
  (∀ (s : State) (off size : Nat), (size ≠ 4 ∧ size ≠ 8) ∨ off % size ≠ 0 →
    ∃ t, exec (.splitReadLatch { off := off, size := size }) s = .next t ∧ t.out = s.out ++ [.readData off 0] ∧ t.regs = s.regs ∧ t.mem = s.mem) ∧
  (∀ (s : State) (cmd : Nat), s.power.below.testBit 12 = false → s.power.below.testBit 13 = false →
    ∃ t, exec (.smbusBlockRead cmd) s = .next t ∧ t.out = s.out ++ [.smbus (s.smbusBlock cmd)] ∧ t.regs = s.regs ∧ t.mem = s.mem)

/-- A DECLARE_SITE whose turn it is and that no earlier one holds back is refused with ABSENT_UNIT where it names an absent or retired unit, and with
BAD_DESCRIPTOR where it fails a check, with nothing declared. One of a site of one cluster and no group takes the lowest live, unused slice,
which owns its channel groups, and completes with OK; with no such slice it is refused where no slice of the cluster is retired,
and else declared blocked, with SITE_BLOCKED. One of a group with a burst waits until its turn comes. UNDECLARE_SITE of no
declared site is refused; of a site alone with nothing at work it frees the site and completes; of one whose burst runs it
waits. A write of CL_n_SITE_MASK masks members. (R68, R72, R73, R79, R80, R88, R90, R92) -/
def Obligations.SitesDeclared : Prop :=
  (∀ (s : State) (sq idx : Nat) (d : Desc), Safety.ready s sq idx 0x01 d → s.declFirst d = true → s.declHeld d = false → ∃ (t : State) (x : Site),
    exec (.declareSite sq idx) s = .next t ∧ x = declBody d.bytes ∧
    (s.declAbsent x = true → t = (s.unwait sq idx).finish sq idx St.absent ∧ t.sites = s.sites ∧ t.slices = s.slices) ∧
    (s.declAbsent x = false → s.declOk d.bytes = false →
      t = (s.unwait sq idx).finish sq idx St.bad ∧ t.sites = s.sites ∧ t.slices = s.slices) ∧
    (s.declAbsent x = false → s.declOk d.bytes = true → x.group = none → ∀ n, x.clusters = [n] → Safety.shaped s →
      (∀ g, s.freeSlice n = some g → ∃ u : State, t = u.finish sq idx St.ok ∧ t.site x.id = some { x with slices := [g] } ∧
        (∀ i, i ≠ x.id → t.site i = s.site i) ∧ t.sl g = { s.sl g with ent := some (.site x.id), grp := (s.sl g).grp ||| grpMask (x.local n) } ∧
        (∀ k, k ≠ g → t.sl k = s.sl k) ∧ t.desc sq idx = none ∧ t.mem = s.mem) ∧
      (s.freeSlice n = none → (∀ i < 4, (s.sl (4 * n + i)).retired = false) →
        t = (s.unwait sq idx).finish sq idx St.bad ∧ t.sites = s.sites) ∧
      (s.freeSlice n = none → (∃ i < 4, (s.sl (4 * n + i)).retired = true) → ∃ u : State, t = u.finish sq idx St.blocked ∧
        t.site x.id = some { x with blocked := true } ∧ (∀ i, i ≠ x.id → t.site i = s.site i) ∧ t.slices = s.slices ∧ t.mem = s.mem)) ∧
    (s.declAbsent x = false → s.declOk d.bytes = true → x.group.isSome = true → s.busy x.ent = true → s.waitOf sq idx = none →
      t = s.wait { sq := sq, idx := idx, kind := .declare, ent := some x.ent })) ∧
  (∀ (s : State) (sq idx : Nat) (d : Desc), Safety.ready s sq idx 0x02 d → s.declFirst d = true → s.declHeld d = false → ∃ t, exec (.undeclareSite sq idx) s = .next t ∧
    (s.site (fld d.bytes 16 2) = none → t = (s.unwait sq idx).finish sq idx St.bad ∧ t.sites = s.sites) ∧
    (∀ x, s.site (fld d.bytes 16 2) = some x → zeroes d.bytes 18 46 = true →
      (s.busy x.ent = false → (s.endSiteWork x).siteIdle x = true →
        t = (((s.endSiteWork x).unwait sq idx).freeSite x).finish sq idx St.ok ∧ t.site x.id = none) ∧
      ((s.burst x.ent).any (fun b => b.admitted) = true → s.waitOf sq idx = none →
        t = s.wait { sq := sq, idx := idx, kind := .undeclare, ent := some x.ent }))) ∧
  (∀ (s : State) (sq idx : Nat) (d : Desc) (w : Waiting), s.waitOf sq idx = some w → s.desc sq idx = some d → s.declHeld d = false →
    (w.kind = .declare → exec (.deferredDeclaration sq idx) s = .next (s.declTurn d)) ∧
    (∀ g, w.kind = .undeclare → w.ent = some (.group g) → exec (.deferredDeclaration sq idx) s = .next (s.undeclTurn d)) ∧
    (∀ i, w.kind = .undeclare → w.ent = some (.site i) → exec (.deferredUndeclaration sq idx) s = .next (s.undeclTurn d) ∧
      (s.site (fld d.bytes 16 2) = none → s.undeclTurn d = (s.unwait d.sq d.idx).finish d.sq d.idx St.bad))) ∧
  (∀ (s : State) (n : Nat) (v : W64), Safety.writable s (F.CL_SITE_MASK_MASK.off [n]) = true → n < s.nCl →
    ∃ t, exec (.siteMaskWrite n v) s = .next t ∧
      t = (List.range 4).foldl (fun s i => s.writeMask (4 * n + i) (fget v (16 * i) 16)) ({ s with held := none } : State).hostAccess ∧
      t.mem = s.mem ∧ t.host = s.hostAccess.host ∧ t.sites = s.sites)

/-- START_FLOW of a declared, unblocked site or group and a loaded flow program creates the task with the lowest free TASK_ID, which the completion
carries, at the entry step with its two parameters, and makes it READY. ABORT_TASK of a task that does not run, or that stands at a step boundary, ends it with ABORTED;
of one in a step it notes the end for its next step boundary. SIGNAL_TASK sets the flags it names, none of an ENDING task, and wakes a
WAITING task whose condition then holds. READ_TASK writes the task's
entry and context to host memory. Each of the three is NO_OBJECT for an ID not in use. A write of PADDOCK_WARDEN names the
warden, VALID with a task that exists, which is then scheduled at priority 7. (R406, R451, R458, R459, R468, R470, R477) -/
def Obligations.TasksByHost : Prop :=
  (∀ (s : State) (sq idx tid site group entry : Nat) (d : Desc) (o : Obj), Safety.ready s sq idx 0x34 d → site = fld d.bytes 16 2 →
    group = fld d.bytes 18 2 → s.blocked (.site site) = false → s.blocked (.group group) = false → s.obj (fld d.bytes 20 4) = some o →
    o.kind = .flow → (site ≠ 0xFFFF ∧ group = 0xFFFF ∧ s.declared (.site site) = true ∨
      site = 0xFFFF ∧ group ≠ 0xFFFF ∧ s.declared (.group group) = true) →
    entry = (if fld d.bytes 24 2 = 0xFFFF then fld (s.objBytes o 0 64) 8 2 else fld d.bytes 24 2) → entry < s.fpN o →
    fld d.bytes 26 1 ≤ 7 → fld d.bytes 40 4 % 64 = 0 → fld d.bytes 32 8 % 64 = 0 → s.paddock.tasks.length < 4096 →
    zeroes d.bytes 27 5 = true → zeroes d.bytes 44 4 = true → (List.range 4096).find? (fun i => !kHas s.paddock.tasks i) = some tid →
    ∃ (t u : State) (x y : Task), exec (.startFlow sq idx) s = .next t ∧
      t = ((u.complete sq idx { status := St.ok, val0 := tid }).mirrorTask tid).ready tid ∧
      u = { s with paddock := { s.paddock with tasks := kSet s.paddock.tasks tid x }, gen := s.gen + 1 } ∧ kGet s.paddock.tasks tid = none ∧
      x.prio = fld d.bytes 26 1 ∧ x.siteId = site ∧ x.groupId = group ∧ x.flow = fld d.bytes 20 4 ∧ x.step = entry ∧
      x.vars.take 2 = [fld d.bytes 48 8, fld d.bytes 56 8] ∧ x.flags = 0 ∧ x.created = s.dtime ∧ x.home = s.homeSlot ∧
      t.task tid = some y ∧ (y.state = 1 ∨ y.state = 2) ∧ y.flow = x.flow ∧ y.step = x.step ∧ y.vars = x.vars ∧ y.prio = x.prio) ∧
  (∀ (s : State) (sq idx : Nat) (d : Desc), Safety.ready s sq idx 0x34 d → s.blocked (.site (fld d.bytes 16 2)) = false →
    s.blocked (.group (fld d.bytes 18 2)) = false → s.obj (fld d.bytes 20 4) = none → kHas s.regions (fld d.bytes 20 4) = false →
    exec (.startFlow sq idx) s = .next (s.finish sq idx St.noObject)) ∧
  (∀ (s : State) (sq idx tid : Nat) (d : Desc), Safety.ready s sq idx 0x38 d → zeroes d.bytes 18 46 = true → tid = fld d.bytes 16 2 →
    (s.task tid = none → exec (.abortTask sq idx) s = .next (s.finish sq idx St.noObject)) ∧
    (∀ x, s.task tid = some x → x.state ≠ 3 ∨ (s.fslot x.slot).hold = true ∨ s.quantumDue tid x = true → ∃ (t u : State),
      exec (.abortTask sq idx) s = .next t ∧
      t = u.endTask tid St.aborted 0 ∧ u.task tid = some { x with aborter := x.aborter ++ [(sq, idx)] } ∧
      (∀ i, i ≠ tid → u.task i = s.task i) ∧ u.desc sq idx = some { d with started := true } ∧ u.mem = s.mem ∧ u.regs = s.regs) ∧
    (∀ x, s.task tid = some x → x.state = 3 → (s.fslot x.slot).hold = false → s.quantumDue tid x = false → ∃ t,
      exec (.abortTask sq idx) s = .next t ∧
      t.task tid = some { x with aborter := x.aborter ++ [(sq, idx)], abortAt := some (x.abortAt.getD (St.aborted, 0)) } ∧
      (∀ i, i ≠ tid → t.task i = s.task i) ∧ t.desc sq idx = some { d with started := true } ∧ t.mem = s.mem ∧ t.regs = s.regs)) ∧
  (∀ (s : State) (sq idx tid : Nat) (d : Desc), Safety.ready s sq idx 0x39 d → zeroes d.bytes 18 6 = true → zeroes d.bytes 32 32 = true →
    fld d.bytes 24 8 % 2 ^ 16 = 0 → tid = fld d.bytes 16 2 →
    (s.task tid = none → exec (.signalTask sq idx) s = .next (s.finish sq idx St.noObject)) ∧
    (∀ x, s.task tid = some x → x.state ≠ 5 → x.state ≠ 4 ∨ { x with flags := x.flags ||| fld d.bytes 24 8 }.waitHolds = false →
      ∃ t, exec (.signalTask sq idx) s = .next t ∧
        t = ({ s with paddock := { s.paddock with tasks := kUpd s.paddock.tasks tid (fun _ => { x with flags := x.flags ||| fld d.bytes 24 8 }) } }).finish
          sq idx St.ok ∧
        t.task tid = some { x with flags := x.flags ||| fld d.bytes 24 8 } ∧ (∀ i, i ≠ tid → t.task i = s.task i) ∧ t.mem = s.mem) ∧
    (∀ x, s.task tid = some x → x.state = 5 → exec (.signalTask sq idx) s = .next (s.finish sq idx St.ok)) ∧
    (∀ x, s.task tid = some x → x.state = 4 → { x with flags := x.flags ||| fld d.bytes 24 8 }.waitHolds = true →
      ∃ (t : State) (y : Task), exec (.signalTask sq idx) s = .next t ∧ t.task tid = some y ∧ y.flags = x.flags ||| fld d.bytes 24 8 ∧
        y.wakeFlags = y.flags ∧ y.timedOut = false ∧ y.wmask = 0 ∧ y.wakeT = 0 ∧ (y.state = 1 ∨ y.state = 2) ∧
        y.readySeq = s.paddock.seq ∧ t.paddock.seq = (s.paddock.seq + 1) % 2 ^ 64 ∧ t.mem = s.mem)) ∧
  (∀ (s : State) (sq idx : Nat) (d : Desc), Safety.ready s sq idx 0x3A d → zeroes d.bytes 18 6 = true →
    zeroes d.bytes 32 32 = true → fld d.bytes 24 8 % 64 = 0 →
    (s.taskBytes (fld d.bytes 16 2) = none → exec (.readTask sq idx) s = .next (s.finish sq idx St.noObject)) ∧
    (∀ bs, s.taskBytes (fld d.bytes 16 2) = some bs → s.host.pci.busMaster = true →
      ∃ t, exec (.readTask sq idx) s = .next t ∧ Out.hostWrite (fld d.bytes 24 8) bs ∈ t.out ∧ t.paddock = s.paddock ∧ t.mem = s.mem ∧
        t.desc sq idx = none ∧ (∀ x, s.pair.role ≠ 2 → s.task (fld d.bytes 16 2) = some x → bs = taskEntry (fld d.bytes 16 2) x ++ taskContext x ∧
          bs.length = 1088))) ∧
  (∀ (s : State) (v : W64), Safety.writable s (F.PADDOCK_WARDEN_TASK_ID.off []) = true →
    ((s.task (fget v 0 12)).all (fun x => x.state = 5) = true → ∃ t, exec (.paddockWardenWrite v) s = .next t ∧
      t.rf F.PADDOCK_WARDEN_TASK_ID = fget v 0 12 ∧ t.rb F.PADDOCK_WARDEN_VALID = false ∧ t.paddock = s.paddock ∧ t.mem = s.mem) ∧
    (∀ x, s.task (fget v 0 12) = some x → x.state ≠ 5 → ∃ (t u : State), exec (.paddockWardenWrite v) s = .next t ∧ t = u.settleWarden ∧
      u.rf F.PADDOCK_WARDEN_TASK_ID = fget v 0 12 ∧ u.rb F.PADDOCK_WARDEN_VALID = true ∧ u.paddock = s.paddock ∧ u.mem = s.mem ∧
      t.isWarden (fget v 0 12) = true ∧ t.effPrio (fget v 0 12) = 7))

/-- A LOCK descriptor of a free lock is granted at once: the ring owns the lock, ABANDONED is clear, and it completes with OK, or
with ACQUIRED_ABANDONED where the lock had been abandoned. Of a held lock it queues, by the ring's priority, and begins to
wait. At its timeout a request leaves the queue and completes with TIMEOUT. UNLOCK by the owner of a lock that nobody waits for
frees it; by another it is refused. The steps LOCK and UNLOCK are in FlowWaits. (R466, R467) -/
def Obligations.LocksOfRings : Prop :=
  (∀ (s : State) (sq idx k : Nat) (d : Desc), Safety.ready s sq idx 0x3B d → fld d.bytes 16 1 = k → k ≤ 31 → zeroes d.bytes 17 3 = true →
    zeroes d.bytes 24 40 = true → Safety.shaped s → ∃ t, exec (.lockDesc sq idx) s = .next t ∧
      ((s.lock k).owner = none → t.lock k = { s.lock k with owner := some (.desc sq idx), abandoned := false } ∧
        (∀ j, j ≠ k → t.lock j = s.lock j) ∧ t.desc sq idx = none ∧ t.paddock.tasks = s.paddock.tasks ∧ t.mem = s.mem) ∧
      ((s.lock k).owner ≠ none → t.lock k = { s.lock k with queue := lockInsert (s.lock k).queue ⟨s.rf F.RINGK_CFG_PRIO [sq], .desc sq idx,
          if fld d.bytes 20 4 = 0 then none else some (s.dtime + 1000 * fld d.bytes 20 4)⟩ } ∧
        (∀ j, j ≠ k → t.lock j = s.lock j) ∧ t.desc sq idx = some { d with started := true } ∧ t.regs = s.regs ∧ t.mem = s.mem)) ∧
  (∀ (s : State) (sq idx k : Nat) (d : Desc), Safety.ready s sq idx 0x3C d → fld d.bytes 16 1 = k → ∃ t, exec (.unlockDesc sq idx) s = .next t ∧
    (31 < k ∨ zeroes d.bytes 17 47 = false ∨ ownerIs (s.lock k).owner (.desc sq idx) = false →
      t = s.finish sq idx St.bad ∧ t.paddock = s.paddock) ∧
    (k ≤ 31 → zeroes d.bytes 17 47 = true → ownerIs (s.lock k).owner (.desc sq idx) = true → Safety.shaped s →
      t = (s.lockRelease k false).finish sq idx St.ok ∧
      ((s.lock k).queue = [] → t.lock k = { s.lock k with owner := none, abandoned := false } ∧ (∀ j, j ≠ k → t.lock j = s.lock j) ∧
        t.paddock.tasks = s.paddock.tasks ∧ t.mem = s.mem))) ∧
  (∀ (s : State) (sq idx k tt due : Nat) (r : LockReq), k < 32 → r ∈ (s.lock k).queue → r.who = .desc sq idx → r.deadline = some due →
    due ≤ tt → (∀ j < k, ∀ q ∈ (s.lock j).queue, q.who ≠ .desc sq idx) → Safety.shaped s → ∃ (t u : State), exec (.lockTimeout sq idx tt) s = .next t ∧
      t = u.complete sq idx { status := St.timeout, val0 := k, body := leBytes 1 k } ∧ r ∉ (t.lock k).queue ∧
      (t.lock k).owner = (s.lock k).owner ∧ (∀ j, j ≠ k → t.lock j = s.lock j) ∧ t.desc sq idx = none ∧ t.dtime = (s.at tt).dtime)

/-- LOAD_PATTERN whose body is wrong is BAD_DESCRIPTOR; one whose bytes fail an early check is BAD_PATTERN with the
failure; one without room is DENIED; else the load is in progress, with its stripe set and BASE, and the descriptor has
begun. LOAD_FLOW and LOAD_PE_LIST do the same with their header checks and one channel. OBJECT_LOAD_COMPLETE of a load
that passes the late checks stores the bytes, makes the object loaded with its digest and completes with OK; of one that
fails, completes with the failure, and no object is loaded; a deep read-back that meets an uncorrectable error reports it and completes with
MEM_UE; a load with a channel under repair waits. (R117, R119, R121, R127, R199, R201, R402, R544, R548) -/
def Obligations.ObjectsLoaded : Prop :=
  (∀ (s : State) (sq idx : Nat) (d : Desc) (bs : List Byte), Safety.ready s sq idx 0x08 d → s.host.pci.busMaster = true →
    bs.length = fld d.bytes 32 8 → ∃ (t : State) (ok : Bool), exec (.loadPattern sq idx (some bs)) s = .next t ∧
      ok = s.loadBodyOk d (fld d.bytes 24 8) (fld d.bytes 32 8)
        (fld d.bytes 20 1 < 8 && zeroes d.bytes 21 3 && zeroes d.bytes 40 24) ∧
      (ok = false → t = s.finish sq idx St.bad ∧ t.loads = s.loads ∧ t.objs = s.objs) ∧
      (∀ f, ok = true → worstFail (earlyFails (rdList bs) (hdrOf (rdList bs)) bs.length) = some f →
        t = s.complete sq idx { status := St.badPattern, reason := f.code, aux := f.stream, val0 := f.off, pcheck := f.code,
                                stream := f.stream, pcWhere := f.off } ∧ t.loads = s.loads ∧ t.objs = s.objs) ∧
      (ok = true → worstFail (earlyFails (rdList bs) (hdrOf (rdList bs)) bs.length) = none →
        (s.placePattern bs.length (objQ (rdList bs) (hdrOf (rdList bs))) = none →
          t = s.complete sq idx (loadNoSpace true) ∧ t.loads = s.loads ∧ t.objs = s.objs) ∧
        (∀ set base, s.placePattern bs.length (objQ (rdList bs) (hdrOf (rdList bs))) = some (set, base) → ∃ l : Load,
          t.loads = s.loads ++ [l] ∧ l.sq = sq ∧ l.idx = idx ∧ l.src = bs ∧ l.deep = (fld d.bytes 20 1).testBit 0 ∧
          l.obj.id = fld d.bytes 16 4 ∧ l.obj.kind = .pattern ∧ l.obj.size = bs.length ∧ l.obj.base = base ∧ l.obj.chans = set ∧
          l.obj.keep = (fld d.bytes 20 1).testBit 1 ∧ l.obj.prefer = (fld d.bytes 20 1).testBit 2 ∧
          t.desc sq idx = some { d with started := true } ∧ t.objs = s.objs ∧ t.mem = s.mem ∧ t.regs = s.regs ∧ t.out = s.out))) ∧
  (∀ (s : State) (sq idx : Nat) (d : Desc) (bs : List Byte) (flow : Bool), Safety.ready s sq idx (if flow then 0x30 else 0x32) d →
    s.host.pci.busMaster = true → bs.length = fld d.bytes 32 4 → ∃ t : State,
      exec (if flow then .loadFlow sq idx (some bs) else .loadPeList sq idx (some bs)) s = .next t ∧
      (s.loadBodyOk d (fld d.bytes 24 8) (fld d.bytes 32 4) (zeroes d.bytes 20 4 && zeroes d.bytes 36 28) = false →
        t = s.finish sq idx St.bad ∧ t.loads = s.loads ∧ t.objs = s.objs) ∧
      (s.loadBodyOk d (fld d.bytes 24 8) (fld d.bytes 32 4) (zeroes d.bytes 20 4 && zeroes d.bytes 36 28) = true →
        (∀ f, worstFFail (fpHeaderFails bs flow bs.length) = some f →
          t = s.complete sq idx { status := St.bad, reason := f.code, rreason := f.code, val0 := f.idx } ∧ t.loads = s.loads ∧ t.objs = s.objs) ∧
        (worstFFail (fpHeaderFails bs flow bs.length) = none →
          (s.placeWhole bs.length = none → t = s.complete sq idx (loadNoSpace false) ∧ t.loads = s.loads ∧ t.objs = s.objs) ∧
          (∀ m base, s.placeWhole bs.length = some (m, base) →
            (∃ o : Obj, o = { id := fld d.bytes 16 4, kind := if flow then .flow else .peList, size := bs.length, base := base, chans := [m] } ∧
              t.loads = s.loads ++ [{ sq := sq, idx := idx, deep := false, src := bs, obj := o }]) ∧
            t.desc sq idx = some { d with started := true } ∧ t.objs = s.objs ∧ t.mem = s.mem ∧ t.regs = s.regs ∧ t.out = s.out)))) ∧
  (∀ (s : State) (sq idx : Nat) (ue : Option Nat) (l : Load), s.loads.find? (fun l => l.sq == sq && l.idx == idx) = some l →
    ((∃ m ∈ l.obj.chans, (s.mc m).repair ≠ none) → exec (.objectLoadComplete sq idx ue) s = .next s) ∧
    ((∀ m ∈ l.obj.chans, (s.mc m).repair = none) → l.readsBack = false ∨ ue = none → ∃ t : State, exec (.objectLoadComplete sq idx ue) s = .next t ∧
      t.loads = s.loads.filter (fun l => !(l.sq == sq && l.idx == idx)) ∧ t.desc sq idx = none ∧
      (∀ r, l.outcome ue = some r → t.objs = s.objs ∧ t.mem = s.mem ∧ t = (s.dropLoad sq idx).complete sq idx r) ∧
      (l.outcome ue = none → s.pair.state = 0 →
        kGet t.objs l.obj.id = some { l.obj with digest := l.dig } ∧ (∀ i, i ≠ l.obj.id → kGet t.objs i = kGet s.objs i) ∧
        t.mem = ((s.dropLoad sq idx).objStore { l.obj with digest := l.dig } l.src).mem ∧ t.gen = s.gen + 1 ∧ t.regions = s.regions ∧
        t.sites = s.sites ∧ t.bursts = s.bursts)) ∧
    (∀ x, (∀ m ∈ l.obj.chans, (s.mc m).repair = none) → l.readsBack = true → ue = some x → ∃ (t u : State) (r : Result) (p : Report),
      exec (.objectLoadComplete sq idx ue) s = .next t ∧ u = s.readBackError l.obj x ∧ p ∈ u.collector.reports ∧ p.src = 18 ∧ p.req = 0x41 ∧
      u.mem = s.mem ∧ l.outcome ue = some r ∧ r.status = St.memUe ∧ t = (u.dropLoad sq idx).complete sq idx r))

/-- UNLOAD_PATTERN of an ID not in use is NO_OBJECT, and of a region BAD_DESCRIPTOR. Of a loaded pattern that is LOST, or that no burst
names, it frees the object and completes with OK; of one that an admitted burst runs, with nothing of it queued, it makes the
object unavailable and waits; DEFERRED_UNLOAD frees it once no burst runs it. UNLOAD_FLOW of a program some task runs is
refused, else freed. UNLOAD_PE_LIST of a list held on a port waits, and DEFERRED_PE_LIST_UNLOAD frees it. Freeing an
object takes it, its retained copies and the fallback links that name it. APG_FALLBACK sets the link of an APG object,
or clears it. An unload finds no object that is going, or that an unload accepted before it names. (R122, R130, R203, R330, R404) -/
def Obligations.ObjectsUnloaded : Prop :=
  (∀ (s : State) (sq idx : Nat) (d : Desc), Safety.ready s sq idx 0x09 d → s.objFor d = none →
    ∃ t, exec (.unloadPattern sq idx) s = .next t ∧ t = s.finish sq idx (if kHas s.regions (fld d.bytes 16 4) then St.bad else St.noObject) ∧
      t.objs = s.objs ∧ t.mem = s.mem) ∧
  (∀ (s : State) (d e : Desc) (o : Obj), kGet s.objs (fld d.bytes 16 4) = some o →
    (o.unloading = true → s.objFor d = none) ∧
    (∀ l r, s.host.inflight = l ++ e :: r → (∀ x ∈ l ++ [e], ¬ (x.sq = d.sq ∧ x.idx = d.idx)) → fld e.bytes 16 4 = fld d.bytes 16 4 →
      (o.kind = .pattern ∧ e.op = 0x09 ∨ o.kind = .flow ∧ e.op = 0x31 ∨ o.kind = .peList ∧ e.op = 0x33) → s.objFor d = none) ∧
    (o.unloading = false → (∀ l r, s.host.inflight = l ++ e :: r → e.sq = d.sq → e.idx = d.idx → (∀ x ∈ l, x.unloads (fld d.bytes 16 4) o.kind = false) →
      (∀ x ∈ l, ¬ (x.sq = d.sq ∧ x.idx = d.idx)) → s.objFor d = some o))) ∧
  (∀ (s : State) (sq idx : Nat) (d : Desc) (o : Obj), Safety.ready s sq idx 0x09 d → s.objFor d = some o →
    (o.kind ≠ .pattern ∨ zeroes d.bytes 20 44 = false) →
    ∃ t, exec (.unloadPattern sq idx) s = .next t ∧ t = s.finish sq idx St.bad ∧ t.objs = s.objs ∧ t.mem = s.mem) ∧
  (∀ (s : State) (sq idx id : Nat) (d : Desc) (o : Obj), Safety.ready s sq idx 0x09 d → fld d.bytes 16 4 = id → zeroes d.bytes 20 44 = true →
    s.objFor d = some o → o.kind = .pattern → (o.lost = true ∨ ∀ b ∈ s.bursts, b.obj ≠ id) →
    ∃ t, exec (.unloadPattern sq idx) s = .next t ∧ kGet t.objs id = none ∧
      (∀ i x, i ≠ id → kGet s.objs i = some x → x.fallback ≠ some id → kGet t.objs i = some x) ∧
      t.cache = s.cache.filter (fun c => c.obj ≠ id || c.holder.isSome) ∧ t.desc sq idx = none ∧ t.mem = s.mem ∧ t.bursts = s.bursts) ∧
  (∀ (s : State) (sq idx id : Nat) (d : Desc) (o : Obj), Safety.ready s sq idx 0x09 d → fld d.bytes 16 4 = id → zeroes d.bytes 20 44 = true →
    s.objFor d = some o → o.kind = .pattern → o.lost = false → (∃ b ∈ s.bursts, b.obj = id) →
    (∀ b ∈ s.bursts, b.obj = id → b.admitted = true) → ∃ t, exec (.unloadPattern sq idx) s = .next t ∧
      t = (s.upObj id (fun o => { o with unloading := true })).wait { sq := sq, idx := idx, kind := .unload id } ∧
      t.obj id = none ∧ t.bursts = s.bursts ∧ t.mem = s.mem) ∧
  (∀ (s : State) (sq idx id : Nat), s.waitOf sq idx = some { sq := sq, idx := idx, kind := .unload id } → (∀ b ∈ s.bursts, b.obj ≠ id) →
    ∃ t, exec (.deferredUnload sq idx) s = .next t ∧ t = ((s.unwait sq idx).freeObj id).finish sq idx St.ok ∧ kGet t.objs id = none ∧
      t.waitOf sq idx = none ∧ t.desc sq idx = none ∧ t.mem = s.mem) ∧
  (∀ (s : State) (sq idx id : Nat) (d : Desc) (o : Obj), Safety.ready s sq idx 0x31 d → fld d.bytes 16 4 = id → zeroes d.bytes 20 44 = true →
    s.objFor d = some o → o.kind = .flow → ∃ t, exec (.unloadFlow sq idx) s = .next t ∧
      ((∃ p ∈ s.paddock.tasks, p.2.flow = id ∨ ∃ f ∈ p.2.stack, f.1 = id) → t = s.finish sq idx St.bad ∧ t.objs = s.objs) ∧
      ((∀ p ∈ s.paddock.tasks, p.2.flow ≠ id ∧ ∀ f ∈ p.2.stack, f.1 ≠ id) → t = (s.freeObj id).finish sq idx St.ok ∧
        kGet t.objs id = none ∧ t.paddock = s.paddock ∧ t.mem = s.mem)) ∧
  (∀ (s : State) (sq idx id : Nat) (d : Desc) (o : Obj), Safety.ready s sq idx 0x33 d → fld d.bytes 16 4 = id → zeroes d.bytes 20 44 = true →
    s.objFor d = some o → o.kind = .peList → ∃ t, exec (.unloadPeList sq idx) s = .next t ∧
      (s.listHeld id = true → t = (s.upObj id (fun o => { o with unloading := true })).wait { sq := sq, idx := idx, kind := .peUnload id } ∧
        t.obj id = none ∧ t.pe = s.pe) ∧
      (s.listHeld id = false → t = (s.freeObj id).finish sq idx St.ok ∧ kGet t.objs id = none ∧ t.pe = s.pe ∧ t.mem = s.mem)) ∧
  (∀ (s : State) (sq idx id : Nat), s.waitOf sq idx = some { sq := sq, idx := idx, kind := .peUnload id } → s.listHeld id = false →
    ∃ t, exec (.deferredPeListUnload sq idx) s = .next t ∧ t = ((s.unwait sq idx).freeObj id).finish sq idx St.ok ∧ kGet t.objs id = none ∧
      t.waitOf sq idx = none ∧ t.desc sq idx = none ∧ t.pe = s.pe ∧ t.mem = s.mem) ∧
  (∀ (s : State) (sq idx id fb : Nat) (d : Desc) (o : Obj), Safety.ready s sq idx 0x0A d → fld d.bytes 16 4 = id → fld d.bytes 20 4 = fb →
    s.obj id = some o → o.lost = false → o.kind = .pattern → o.apg = true → zeroes d.bytes 24 40 = true →
    ∃ t, exec (.apgFallback sq idx) s = .next t ∧
      (fb = 0xFFFFFFFF → t.obj id = some { o with fallback := none } ∧ (∀ i, i ≠ id → kGet t.objs i = kGet s.objs i) ∧
        t.desc sq idx = none ∧ t.mem = s.mem) ∧
      (fb ≠ 0xFFFFFFFF → s.obj fb = none → t = s.finish sq idx St.noObject ∧ t.objs = s.objs) ∧
      (∀ f, fb ≠ 0xFFFFFFFF → s.obj fb = some f → f.lost = false → f.kind = .pattern → f.apg = false →
        (s.hdr o).nPins = (s.hdr f).nPins → t.obj id = some { o with fallback := (some fb : Option Nat) } ∧
        (∀ i, i ≠ id → kGet t.objs i = kGet s.objs i) ∧ t.desc sq idx = none ∧ t.mem = s.mem))

/-- BIND_APG that a check refuses completes with that status; one whose setup block passes binds the unit to its site or
group with the block, turns its domain on and completes, unless the site or group has a burst: then it waits, and
DEFERRED_BIND_APG binds once the burst is over. Unit 255 unbinds what the site or group holds. (R315, R316, R336, R658) -/
def Obligations.ApgBinding : Prop :=
  (∀ (s : State) (sq idx k : Nat) (d : Desc) (bs : List Byte), Safety.ready s sq idx 0x0B d → fld d.bytes 20 1 = k → s.host.pci.busMaster = true →
    bs.length = 1024 → ∃ t, exec (.bindApg sq idx (some bs)) s = .next t ∧
      (s.bindRefusal d.bytes ≠ 0 → t = s.finish sq idx (s.bindRefusal d.bytes) ∧ t.apgs = s.apgs) ∧
      (s.bindRefusal d.bytes = 0 → k ≠ 0xFF → setupOk bs = false → t = s.finish sq idx St.bad ∧ t.apgs = s.apgs) ∧
      (s.bindRefusal d.bytes = 0 → k ≠ 0xFF → setupOk bs = true →
        (s.busy (bindEnt d.bytes) = true →
          t = s.wait { sq := sq, idx := idx, kind := .bindApg bs, ent := some (bindEnt d.bytes) } ∧ t.apgs = s.apgs) ∧
        (s.busy (bindEnt d.bytes) = false → Safety.shaped s → t = (s.bind k (bindEnt d.bytes) bs).finish sq idx St.ok ∧
          (t.apgs.getD k {}).ent = some (bindEnt d.bytes) ∧ (t.apgs.getD k {}).setup = bs ∧ t.domOn (89 + k) = true ∧
          (∀ j, j ≠ k → j < 4 → (t.apgs.getD j {}).ent ≠ some (bindEnt d.bytes)) ∧ t.desc sq idx = none ∧ t.mem = s.mem ∧
          t.bursts = s.bursts)) ∧
      (s.bindRefusal d.bytes = 0 → k = 0xFF → s.busy (bindEnt d.bytes) = false →
        t = (s.unbindEnt (bindEnt d.bytes) none).finish sq idx St.ok ∧ t.mem = s.mem ∧ t.bursts = s.bursts)) ∧
  (∀ (s : State) (sq idx : Nat) (d : Desc) (e : Ent) (bs : List Byte), s.desc sq idx = some d →
    s.waitOf sq idx = some { sq := sq, idx := idx, kind := .bindApg bs, ent := some e } → s.busy e = false →
    ∃ t, exec (.deferredBindApg sq idx) s = .next t ∧
      ((s.unwait sq idx).bindRefusal d.bytes ≠ 0 → t = (s.unwait sq idx).finish sq idx ((s.unwait sq idx).bindRefusal d.bytes) ∧
        t.apgs = s.apgs) ∧
      ((s.unwait sq idx).bindRefusal d.bytes = 0 → t = (s.unwait sq idx).bindTurn d bs ∧ t.mem = s.mem))

/-- DEFINE_REGION that a check refuses completes with that status; one whose site runs a burst waits; else the region is
placed on one channel and known under its ID, a BITMAP region is zeroed, its header is written, and the completion
carries its capacity; without room it is DENIED. FREE_REGION takes the region, CLEAR_REGION zeroes its bytes and writes
a header with every count 0; each waits for a running burst. A deferred one takes effect as if it had just come.
READ_REGION of a region without errors writes its bytes to host memory and changes no memory; it waits for a channel under repair. (R273, R274, R275, R277,
R282, R201) -/
def Obligations.CaptureRegions : Prop :=
  (∀ (s : State) (sq idx : Nat) (d : Desc), Safety.ready s sq idx 0x20 d → ∃ (t : State) (r : Region), exec (.defineRegion sq idx) s = .next t ∧
    r = regionBody d.bytes ∧
    (s.regionRefusal d.bytes ≠ 0 → t = s.finish sq idx (s.regionRefusal d.bytes) ∧ t.regions = s.regions) ∧
    (s.regionRefusal d.bytes = 0 → s.siteRuns r.site = true →
      t = s.wait { sq := sq, idx := idx, kind := .regionDefine, ent := some (s.entOf r.site) } ∧ t.regions = s.regions ∧ t.mem = s.mem) ∧
    (s.regionRefusal d.bytes = 0 → s.siteRuns r.site = false →
      (s.placeWhole r.size = none → t = s.complete sq idx { status := St.denied, reason := 0x0A, rreason := 0x0A } ∧ t.regions = s.regions) ∧
      (∀ m base, s.placeWhole r.size = some (m, base) → s.collector.armed = none →
        kGet t.regions r.id = some { r with chan := m, base := base } ∧
        (∀ i, i ≠ r.id → kGet t.regions i = kGet s.regions i) ∧ t.desc sq idx = none ∧ t.gen = s.gen + 1 ∧
        Safety.clean t (devAddr m base) ∧
        Memory.read t.mem (devAddr m base) 64 = Region.header { r with chan := m, base := base } ∧
        (∀ a, a < devAddr m base ∨ devAddr m base + r.size ≤ a → Memory.get t.mem a = Memory.get s.mem a) ∧
        (r.kind ≠ 2 → ∀ a, devAddr m base + 64 ≤ a → Memory.get t.mem a = Memory.get s.mem a) ∧
        (r.kind = 2 → ∀ a, devAddr m base + 64 ≤ a → a < devAddr m base + r.size → Memory.get t.mem a = 0)))) ∧
  (∀ (s : State) (sq idx : Nat) (d : Desc) (w : Waiting), s.desc sq idx = some d → s.waitOf sq idx = some w → w.kind = .regionDefine →
    (∀ e b, w.ent = some e → s.burst e = some b → b.running = false) →
    exec (.deferredRegionDefine sq idx) s = .next ((s.unwait sq idx).defineRegion d)) ∧
  (∀ (s : State) (sq idx id : Nat) (d : Desc) (r : Region) (free : Bool), Safety.ready s sq idx (if free then 0x21 else 0x22) d →
    fld d.bytes 16 4 = id → zeroes d.bytes 20 44 = true → s.region id = some r → r.lost = false →
    ∃ t, exec (if free then .freeRegion sq idx else .clearRegion sq idx) s = .next t ∧
      (s.siteRuns r.site = true → t = s.wait { sq := sq, idx := idx, kind := if free then .regionFree id else .regionClear id,
                                               ent := some (s.entOf r.site) } ∧ t.regions = s.regions ∧ t.mem = s.mem) ∧
      (s.siteRuns r.site = false → free = true → t = (s.freeRegion id).finish sq idx St.ok ∧ kGet t.regions id = none ∧
        (∀ i, i ≠ id → kGet t.regions i = kGet s.regions i) ∧ t.mem = s.mem) ∧
      (s.siteRuns r.site = false → free = false → t = (s.clearRegion id).finish sq idx St.ok) ∧
      (s.siteRuns r.site = false → free = false → Safety.clean (s.memClear r.chan r.base r.size) (devAddr r.chan r.base) →
        kGet t.regions id = some r.blank ∧
        (∀ i, i ≠ id → kGet t.regions i = kGet s.regions i) ∧
        (∀ a, devAddr r.chan r.base + 64 ≤ a → a < devAddr r.chan r.base + r.size → Memory.get t.mem a = 0) ∧
        (64 ≤ r.size → ∀ a, a < devAddr r.chan r.base ∨ devAddr r.chan r.base + r.size ≤ a → Memory.get t.mem a = Memory.get s.mem a))) ∧
  (∀ (s : State) (sq idx id : Nat) (d : Desc) (r : Region) (w : Waiting), s.desc sq idx = some d → fld d.bytes 16 4 = id →
    s.region id = some r → r.lost = false → s.waitOf sq idx = some w → (∀ e b, w.ent = some e → s.burst e = some b → b.running = false) →
    (w.kind = .regionFree id →
      exec (.deferredRegionFree sq idx) s = .next (((s.unwait sq idx).freeRegion id).finish sq idx St.ok)) ∧
    (w.kind = .regionClear id →
      exec (.deferredRegionClear sq idx) s = .next (((s.unwait sq idx).clearRegion id).finish sq idx St.ok))) ∧
  (∀ (s : State) (sq idx id off len dst : Nat) (d : Desc) (r : Region), Safety.ready s sq idx 0x23 d → fld d.bytes 16 4 = id →
    fld d.bytes 24 8 = off → fld d.bytes 32 4 = len → fld d.bytes 40 8 = dst → s.region id = some r → r.lost = false → off % 64 = 0 →
    len % 64 = 0 → dst % 64 = 0 → off + len ≤ r.size → zeroes d.bytes 20 4 = true → zeroes d.bytes 36 4 = true →
    zeroes d.bytes 48 16 = true →
    ((s.mc r.chan).repair ≠ none → exec (.readRegion sq idx) s = .next s) ∧
    (s.host.pci.busMaster = true → s.bad = [] → s.collector.armed = none → (s.mc r.chan).repair = none → ∃ t,
      exec (.readRegion sq idx) s = .next t ∧ Out.hostWrite dst (s.memRead r.chan (r.base + off) len) ∈ t.out ∧ t.mem = s.mem ∧
      t.regions = s.regions ∧ t.desc sq idx = none))

/-- READ_SITE_RESULT of a declared site writes its result, header and as many channel counts as fit, to host memory; the
completion carries the count of failing vectors and how many channel counts were written, and SITE_BLOCKED for a blocked
site; a site not declared is BAD_DESCRIPTOR. While a burst or an acquisition writes to a region, its header is written to its first 64
bytes, and an uncorrectable error of any header write marks it LOST. The capture writer takes the oldest record of the cluster and writes it
to the slot its region gives, and with it the next of the region where that fills the granule. A write-back of a combiner line sets that line's
bits in the region's bit array, all of them where its read met an uncorrectable error. Each waits for a channel under repair.
(R271, R272, R282, R295, R297, R299, R301, R530, R548) -/
def Obligations.CaptureWritten : Prop :=
  (∀ (s : State) (sq idx : Nat) (d : Desc), Safety.ready s sq idx 0x24 d → s.host.pci.busMaster = true → s.pair.role ≠ 2 →
    ∃ t, exec (.readSiteResult sq idx) s = .next t ∧
      (s.site (fld d.bytes 16 2) = none → t = s.finish sq idx St.bad) ∧
      (∀ x, s.site (fld d.bytes 16 2) = some x → fld d.bytes 24 8 % 64 = 0 → fld d.bytes 32 4 % 64 = 0 → 128 ≤ fld d.bytes 32 4 →
        zeroes d.bytes 18 6 = true → zeroes d.bytes 36 28 = true → ∃ (u : State) (n : Nat), n = min x.chans.length ((fld d.bytes 32 4 - 128) / 4) ∧
          u = s.emit (.hostWrite (fld d.bytes 24 8) ((s.siteResult x).take (128 + 4 * n))) ∧
          t = u.complete sq idx { status := if s.blocked (.site x.id) then St.blocked else St.ok, val0 := fld (s.siteResult x) 16 8, val1 := n } ∧
          t.results = s.results ∧ t.mem = s.mem)) ∧
  (∀ (s : State) (id t0 : Nat) (r : Region), s.region id = some r → r.lost = false →
    (if r.kind = 3 then s.acqs.any (fun a => a.region = id && a.running) else s.siteRuns r.site) = true → (s.mc r.chan).repair = none →
    Safety.clean s (devAddr r.chan r.base) → ∃ t, exec (.regionHeaderWrite id false t0) s = .next t ∧ t = (s.at t0).writeHeader id ∧ t.regions = s.regions ∧
      Memory.read t.mem (devAddr r.chan r.base) r.header.length = r.header ∧
      (∀ a, a < devAddr r.chan r.base ∨ devAddr r.chan r.base + r.header.length ≤ a → Memory.get t.mem a = Memory.get s.mem a)) ∧
  (∀ (s : State) (id t0 : Nat) (r : Region) (ue : Bool), s.region id = some r → r.lost = false →
    ((s.mc r.chan).repair ≠ none → exec (.regionHeaderWrite id ue t0) s = .next s) ∧
    ((s.mc r.chan).repair = none → ∃ t, exec (.regionHeaderWrite id true t0) s = .next t ∧
      t = (((((s.at t0).mergeError (devAddr r.chan r.base) (s.headerReq r)).upRegion id (fun r => { r with lost := true })).mirror
        { kind := 6, key := [2, id] }).placementChanged))) ∧
  (∀ (s : State) (n : Nat) (rc : CapRec) (rest : List CapRec) (ue : Bool) (u : List CapRec → State), (s.cl n).cap.buf = rc :: rest →
    (∀ e ∈ s.trigEv, ¬ (e.1 / 8 = n ∧ e.2.1 < 40)) →
    (∀ i < 8, (s.trigs.getD (8 * n + i) {}).openAt = none ∨ 2 ^ 40 ≤ s.rf F.CL_TRG_SRC_SRC [(8 * n + i) / 8, (8 * n + i) % 8]) →
    u = (fun l => s.upCl n (fun c => { c with cap := { c.cap with buf := l, headLen := l.length } })) →
    (∀ r, s.region rc.region = some r → (s.mc r.chan).repair ≠ none → exec (.captureRecordWrite n ue) s = .next s) ∧
    (∀ x r j r1 f1 r2 f2, s.joins (s.cl n).cap rc = some x → s.region rc.region = some r → (s.mc r.chan).repair = none →
      r.place rc.linear true = (some j, r1, f1) → r1.place x.linear true = (some (j + 1), r2, f2) → ∃ t v : State,
      exec (.captureRecordWrite n ue) s = .next t ∧ v = (u (rest.erase x)).setGranule (devAddr r.chan (r.base + (64 + 32 * j))) ∧
      t = (v.writeRecord n rc true ue).writeRecord n x true ue ∧
      (r1.state = r.state → r2.state = r.state → s.mirroring = false → rc.bytes.length = 32 → x.bytes.length = 32 →
        t.region rc.region = some r2 ∧ Memory.read t.mem (devAddr r.chan (r.base + (64 + 32 * j))) 64 = rc.bytes ++ x.bytes ∧
        (∀ a, a < devAddr r.chan (r.base + (64 + 32 * j)) ∨ devAddr r.chan (r.base + (64 + 32 * j)) + 64 ≤ a →
          Memory.get t.mem a = Memory.get s.mem a) ∧ t.clusters = v.clusters ∧ t.sites = s.sites)) ∧
    (s.joins (s.cl n).cap rc = none → (∀ r, s.region rc.region = some r → (s.mc r.chan).repair = none) →
      ∃ t : State, exec (.captureRecordWrite n ue) s = .next t ∧ t = (u rest).writeRecord n rc false ue ∧
      (∀ r k r1 full, s.region rc.region = some r → r.lost = false → ue = false → r.place rc.linear true = (some k, r1, full) →
        Safety.clean s (devAddr r.chan (r.base + (64 + 32 * k))) →
        r1.state = r.state → s.mirroring = false → t.region rc.region = some r1 ∧
        Memory.read t.mem (devAddr r.chan (r.base + (64 + 32 * k))) rc.bytes.length = rc.bytes ∧
        (∀ a, a < devAddr r.chan (r.base + (64 + 32 * k)) ∨ devAddr r.chan (r.base + (64 + 32 * k)) + rc.bytes.length ≤ a →
          Memory.get t.mem a = Memory.get s.mem a) ∧ t.clusters = (u rest).clusters ∧ t.sites = s.sites))) ∧
  (∀ (s : State) (n i : Nat) (ue : Bool) (l : BmLine) (r : Region), (s.cl n).cap.combiner[i]? = some l → s.region l.region = some r →
    r.lost = false → s.mirroring = false → (s.mc r.chan).repair = none → ∃ t, exec (.bitmapWriteback n i ue) s = .next t ∧
      (ue = false → Safety.clean s (devAddr r.chan (r.base + (64 + 64 * l.line))) → Memory.read t.mem (devAddr r.chan (r.base + (64 + 64 * l.line))) 64 =
          leBytes 64 (leNat (s.memRead r.chan (r.base + (64 + 64 * l.line)) 64) ||| l.mask) ∧ t.regions = s.regions) ∧
      (s.mergeFails (devAddr r.chan (r.base + (64 + 64 * l.line))) ue = true →
        Memory.read t.mem (devAddr r.chan (r.base + (64 + 64 * l.line))) 64 = List.replicate 64 0xFF) ∧
      (∀ a, a < devAddr r.chan (r.base + (64 + 64 * l.line)) ∨ devAddr r.chan (r.base + (64 + 64 * l.line)) + 64 ≤ a →
        Memory.get t.mem a = Memory.get s.mem a))

/-- A word of the Reel whose opcode is the command's, on a slice whose issuer may execute it, and that passes the checks of R168: a VEC, RPT,
SET_MUX or APGV forms its vectors and goes on at the next word; a LOOP that is not a rewound one opens a frame
with COUNT; ENDL repeats while its count is above 1 and else drops the frame; JMP, CALL and RET move to their words, lines and call
frames; BRF and BRP hold the issuer at the vector after their lines, while the words at the target are fetched; END ends it. The word enters the instruction window, vectors enter
the 32-deep queue, and nothing but that slice changes. A word that fails a check stops the issuer at its first vector with the lowest
code. (R133, R134, R140, R141, R142, R144, R145, R146, R147, R153, R166, R168) -/
def Obligations.ReelWords : Prop :=
  (∀ (s : State) (n sl g w op k : Nat) (c : Cx) (q : Seq) (i : Instr), Safety.issues s n sl g c q w → (i, op) ∈ Safety.reelWords n sl →
    (wOp w = op ∨ c.h.nInstr ≤ q.pc ∨ reelOp (wOp w) = false) → lowest (c.wordCodes q) = some k →
    ∃ t, exec i s = .next t ∧ (t.sl g).seq.fault = some (q.issue, k) ∧ (t.sl g).seq.issue = q.issue ∧ (t.sl g).seq.pc = q.pc ∧
      Safety.executed s t g w) ∧
  (∀ (s : State) (n sl g w : Nat) (c : Cx) (q : Seq), Safety.issues s n sl g c q w → q.pc < c.h.nInstr → c.wordCodes q = [] →
    (∀ i op, (i, op) ∈ [(Instr.vec n sl, 1), (.rpt n sl, 2), (.setMux n sl, 0x0C), (.apgv n sl, 0x0D)] → wOp w = op →
      ∃ (t : State) (rs : List Run), exec i s = .next t ∧
      (t.sl g).seq.queue = q.queue ++ rs ∧ (t.sl g).seq.pc = q.pc + 1 ∧ (t.sl g).seq.line = q.line + wLines w ∧
      (t.sl g).seq.issue = q.issue + (rs.map Run.count).sum ∧ (∀ r ∈ rs, r.line = q.line ∧ r.word = q.pc ∧ r.tset = wTset w) ∧
      rs.map (fun r => (r.count, r.step, r.pad, r.mux)) = (if op = 2 then [(wCount w, false, false, q.mux)]
        else if op = 0x0C then [(8, true, true, wArg w % 8), (wLines w, true, false, wArg w % 8)] else [(wLines w, true, false, q.mux)]) ∧
      (t.sl g).seq.mux = (if op = 0x0C then wArg w % 8 else q.mux) ∧ (t.sl g).seq.clr = (if wClrf w then q.issue else q.clr) ∧
      Safety.executed s t g w) ∧
    (wOp w = 3 → ∃ t, exec (.reelLoop n sl) s = .next t ∧ (t.sl g).seq.pc = q.pc + 1 ∧ (t.sl g).seq.issue = q.issue + wLines w ∧
      (q.rewound = true → (t.sl g).seq.frames = q.frames) ∧
      (q.rewound = false → (t.sl g).seq.frames = { isMatch := false, count := wCount w, word := q.pc, line := q.line, depth := q.calls.length } ::
        q.frames) ∧ Safety.executed s t g w) ∧
    (∀ f r, wOp w = 4 → q.frames = f :: r → ∃ t, exec (.endl n sl) s = .next t ∧
      (t.sl g).seq.issue = q.issue + wLines w ∧
      (1 < f.count → (t.sl g).seq.pc = f.word ∧ (t.sl g).seq.line = f.line ∧ (t.sl g).seq.frames = { f with count := f.count - 1 } :: r) ∧
      (f.count ≤ 1 → (t.sl g).seq.pc = q.pc + 1 ∧ (t.sl g).seq.line = q.line + wLines w ∧ (t.sl g).seq.frames = r) ∧
      Safety.executed s t g w) ∧
    (wOp w = 7 → ∃ t, exec (.jmp n sl) s = .next t ∧ (t.sl g).seq.pc = wTarget w ∧ (t.sl g).seq.line = 4096 * wBlock w ∧
      (t.sl g).seq.issue = q.issue + wLines w ∧ (t.sl g).seq.calls = q.calls ∧
      (t.sl g).seq.frames = q.frames.filter (fun f => f.isMatch || f.depth ≠ q.calls.length) ∧ Safety.executed s t g w) ∧
    (wOp w = 8 → ∃ t, exec (.call n sl) s = .next t ∧ (t.sl g).seq.pc = wTarget w ∧ (t.sl g).seq.line = 4096 * wBlock w ∧
      (t.sl g).seq.issue = q.issue + wLines w ∧ (t.sl g).seq.calls = (q.pc + 1, q.line + wLines w) :: q.calls ∧
      (t.sl g).seq.frames = q.frames ∧ Safety.executed s t g w) ∧
    (∀ x l r, wOp w = 9 → q.calls = (x, l) :: r → ∃ t, exec (.ret n sl) s = .next t ∧ (t.sl g).seq.pc = x ∧ (t.sl g).seq.line = l ∧
      (t.sl g).seq.issue = q.issue + wLines w ∧ (t.sl g).seq.calls = r ∧
      (t.sl g).seq.frames = q.frames.filter (fun f => f.isMatch || f.depth ≠ q.calls.length) ∧ Safety.executed s t g w) ∧
    (∀ i op, (i, op) ∈ [(Instr.brf n sl, 0x0A), (.brp n sl, 0x0B)] → wOp w = op → ∃ t, exec i s = .next t ∧
      (t.sl g).seq.held = some { isF := decide (op = 0x0A), steer := q.issue + wLines w, word := wTarget w, block := wBlock w } ∧
      (t.sl g).seq.steer = some (q.issue + wLines w) ∧ (t.sl g).seq.pc = q.pc + 1 ∧ (t.sl g).seq.mayIssue = false ∧
      (t.sl g).seq.brbuf.map BranchBuf.words = some (c.h.off 3 + 8 * wTarget w, c.h.off 3 + 8 * min c.h.nInstr (wTarget w + 512)) ∧
      Safety.executed s t g w) ∧
    (wOp w = 0x0E → ∃ t, exec (.reelEnd n sl) s = .next t ∧ (t.sl g).seq.ended = true ∧ (t.sl g).seq.endst = wArg w % 2 ∧
      (t.sl g).seq.issue = q.issue + wLines w ∧
      (t.sl g).seq.fault = (if c.h.staticLen = true ∧ q.issue + wLines w < c.h.nvs then some (q.issue + wLines w, 0x53) else none) ∧
      Safety.executed s t g w))

/-- MLOOP opens a match frame that starts at the vector it emits; MEND of the first iteration emits its lines and replays the body. A MEND
of iteration j replays while no earlier iteration is due; once every slice of the burst has started the vectors of iteration j - D, that one
decides: without a fail in it the loop is left; with one, the body is replayed while T iterations have not been evaluated, and after T the loop times out: with
TOACT the last vector of the body is charged as a fail and the loop is left, else the burst ends with MATCH_TIMEOUT before the next vector.
A branch held at vector s is decided once every slice has
started vector s less H: BRF goes to its target where a fail was counted since the accumulator's start, BRP where none
was; what an uncorrectable error took from the chosen path alone ends the burst there. A pending checkpoint commits once every slice has started its vector, and the register shows it. (R153, R157, R158, R159,
R160, R162, R174, R175) -/
def Obligations.ReelDecisions : Prop :=
  (∀ (s : State) (n sl g w : Nat) (c : Cx) (q : Seq), Safety.issues s n sl g c q w → q.pc < c.h.nInstr → c.wordCodes q = [] →
    (wOp w = 5 → ∃ (t : State) (f : Frame), exec (.mloop n sl) s = .next t ∧ (t.sl g).seq.frames = f :: q.frames ∧ f.isMatch = true ∧
      f.count = wCount w ∧ f.start = q.issue ∧ f.toact = (wArg w).testBit 32 ∧ f.iter = 0 ∧ f.full = false ∧ f.b = wLines w ∧
      (t.sl g).seq.pc = q.pc + 1 ∧ (t.sl g).seq.issue = q.issue + wLines w ∧ Safety.executed s t g w) ∧
    (∀ f r, wOp w = 6 → q.frames = f :: r → f.full = false → ∃ (t : State) (f' : Frame), exec (.mend n sl) s = .next t ∧
      (t.sl g).seq.frames = f' :: r ∧ f'.full = true ∧ f'.iter = f.iter + 1 ∧ f'.b = f.b + wLines w ∧ f'.count = f.count ∧
      (t.sl g).seq.issue = q.issue + wLines w + (f.b + wLines w) ∧ (t.sl g).seq.pc = q.pc ∧ Safety.executed s t g w)) ∧
  (∀ (s : State) (n sl g w d i lo hi : Nat) (c : Cx) (q : Seq) (f : Frame) (r : List Frame), Safety.issues s n sl g c q w →
    q.frames = f :: r → f.isMatch = true → f.full = true → d = matchD q.hzn f.b → i = f.iter - d → lo = f.start + i * f.b →
    hi = lo + f.b - 1 →
    ((f.iter < d ∨ d ≤ f.iter ∧ (∀ k ∈ s.entSlices c.b.ent, hi < (s.sl k).seq.next) ∧ (∃ p ∈ c.b.mfail, lo ≤ p.2.2 ∧ p.2.2 ≤ hi) ∧
        i + 1 < f.count) → ∃ t, exec (.mend n sl) s = .next t ∧
      (t.sl g).seq.queue = q.queue ++ f.body.modify 0 (fun b => { b with fresh := true }) ∧
      (t.sl g).seq.issue = q.issue + f.b ∧ (t.sl g).seq.pc = q.pc ∧
      (t.sl g).seq.frames = { f with full := true, iter := f.iter + 1 } :: r ∧ Safety.sliceOnly s t g) ∧
    (d ≤ f.iter → (∀ k ∈ s.entSlices c.b.ent, hi < (s.sl k).seq.next) → (∀ p ∈ c.b.mfail, ¬ (lo ≤ p.2.2 ∧ p.2.2 ≤ hi)) →
      ∃ t, exec (.mend n sl) s = .next t ∧ (t.sl g).seq.frames = r ∧ (t.sl g).seq.pc = q.pc + 1 ∧ (t.sl g).seq.queue = q.queue ∧
        (t.sl g).seq.issue = q.issue ∧ (t.sl g).seq.matchAt = some q.issue ∧ t.rf F.CL_SEQ_MATCH_ITER [n, sl] = i % 2 ^ 32 ∧
        t.rf F.CL_SEQ_MATCH_WORD [n, sl] = f.word % 2 ^ 24 ∧ t.rb F.CL_SEQ_MATCH_TIMEOUT [n, sl] = false ∧
        (∀ k, k ≠ g → t.sl k = s.sl k) ∧ t.mem = s.mem) ∧
    (d ≤ f.iter → (∀ k ∈ s.entSlices c.b.ent, hi < (s.sl k).seq.next) → (∃ p ∈ c.b.mfail, lo ≤ p.2.2 ∧ p.2.2 ≤ hi) → f.count ≤ i + 1 →
      ∃ t, exec (.mend n sl) s = .next t ∧ t.rf F.CL_SEQ_MATCH_ITER [n, sl] = (f.count - 1) % 2 ^ 32 ∧
        t.rf F.CL_SEQ_MATCH_WORD [n, sl] = f.word % 2 ^ 24 ∧ t.rb F.CL_SEQ_MATCH_TIMEOUT [n, sl] = true ∧
        (f.toact = true → (t.sl g).seq.frames = r ∧ (t.sl g).seq.pc = q.pc + 1 ∧ (t.sl g).seq.ended = q.ended ∧
          ((t.sl g).seq.charge.map (·.1)) = some (q.issue - 1)) ∧
        (f.toact = false → (t.sl g).seq.ended = true ∧ (t.sl g).seq.cuts = q.cuts ++ [(q.issue, 0x20)] ∧ (t.sl g).seq.frames = q.frames) ∧
        (∀ k, k ≠ g → t.sl k = s.sl k) ∧ t.mem = s.mem) ∧
    (d ≤ f.iter → (∃ k ∈ s.entSlices c.b.ent, (s.sl k).seq.next ≤ hi) → exec (.mend n sl) s = .next s)) ∧
  (∀ (s : State) (n sl g : Nat) (c : Cx) (q : Seq) (hd : Held), n < 12 → sl < 4 → g = 4 * n + sl → s.cx g = some c → q = (s.sl g).seq →
    q.held = some hd → q.endAt = none → (∀ k ∈ s.entSlices c.b.ent, hd.steer < (s.sl k).seq.next + q.hzn) → Safety.shaped s →
    ∃ (t : State) (fails : Bool), exec (.branchDecision n sl) s = .next t ∧
      fails = (decide (q.hzn ≤ hd.steer) && winHas c.b.wins q.clr (hd.steer - q.hzn)) ∧ (t.sl g).seq.held = none ∧
      (t.sl g).seq.brbuf = none ∧ (∀ b, q.brbuf = some b → (t.sl g).seq.cuts = q.cuts ++ (if fails = hd.isF then b.into else b.fall).map (fun v => (v, St.memUe))) ∧
      (fails = hd.isF → (t.sl g).seq.pc = hd.word ∧ (t.sl g).seq.line = 4096 * hd.block ∧
        (t.sl g).seq.frames = q.frames.filter (fun f => f.isMatch || f.depth ≠ q.calls.length)) ∧
      (fails ≠ hd.isF → (t.sl g).seq.pc = q.pc ∧ (t.sl g).seq.line = q.line ∧ (t.sl g).seq.frames = q.frames) ∧
      Safety.sliceOnly s t g) ∧
  (∀ (s : State) (n sl g : Nat) (c : Cx) (k : Ckpt), n < 12 → sl < 4 → g = 4 * n + sl → s.cx g = some c → (s.sl g).seq.pendCk = some k →
    (∀ i ∈ s.entSlices c.b.ent, k.vec ≤ (s.sl i).seq.next) → s.mirroring = false → Safety.shaped s →
    ∃ (t : State) (k' : Ckpt), exec (.checkpointCommit n sl) s = .next t ∧ (t.sl g).seq.ckpt = some k' ∧ k'.vec = k.vec ∧ k'.rp = k.rp ∧
      (t.sl g).seq.ckptOld = (s.sl g).seq.ckpt ∧ (t.sl g).seq.pendCk = none ∧ t.rf F.CL_SEQ_CKPT_VEC [n, sl] = k.vec % 2 ^ 48 ∧
      t.rb F.CL_SEQ_CKPT_VALID [n, sl] = true ∧ (∀ j, j ≠ g → t.sl j = s.sl j) ∧ t.bursts = s.bursts ∧ t.mem = s.mem)

/-- The steps that move a task that runs and is to end nowhere commit as follows: JUMP goes on at its TARGET; BRANCH_ON goes there
where its test of the field holds, else to the next step; ALU gives V[DST] its result; CALL_FLOW pushes the place of the
next step and goes on at the entry of the program; RETURN pops it; NOP goes on. None of these but ALU of a variable changes a
variable, and none writes RES. SET_PRIO takes the priority, and the slots hold what the warden's role lets them. YIELD goes back to READY. END ends the task with the status its
FROM names and its exit code. A task whose end an abort has noted ends at the step's boundary. A step past the program's end ends the task
with BAD_DESCRIPTOR; that RES and LAST_ERR then say TARGET is the model's choice (log entry 35).
(R412, R413, R432, R433, R435, R436, R437, R468, R470) -/
def Obligations.FlowControl : Prop :=
  (∀ (s : State) (tid op : Nat) (x : Task) (st : List Byte), Safety.stepping s tid op x st → x.abortAt = none →
    (op = 0x0B → ∃ t y, exec (.flowJump tid) s = .next t ∧ Safety.commits s t tid x y ∧ y.flow = x.flow ∧ y.step = fld st 8 2 ∧
      y.steps = satAdd 32 x.steps 1 ∧ y.res = x.res ∧ y.vars = x.vars ∧ y.flags = x.flags ∧ y.stack = x.stack) ∧
    (op = 0x19 → ∃ t y, exec (.nopStep tid) s = .next t ∧ Safety.commits s t tid x y ∧ y.flow = x.flow ∧ y.step = x.step + 1 ∧
      y.steps = satAdd 32 x.steps 1 ∧ y.res = x.res ∧ y.vars = x.vars ∧ y.flags = x.flags ∧ y.stack = x.stack) ∧
    (∀ a b, op = 0x0A → s.srcField x (fld st 8 1) (fld st 9 1) (fld st 10 1) (fld st 14 1) ((fld st 11 1).testBit 3) = some a →
      b = (if (fld st 11 1).testBit 4 then x.vars.getD (fld st 16 8 % 16) 0 else fld st 16 8) → ∃ t y, exec (.branchOn tid) s = .next t ∧
        Safety.commits s t tid x y ∧ y.flow = x.flow ∧
        y.step = (if branchHolds (fld st 11 1 % 8) ((fld st 11 1).testBit 3) a b then fld st 12 2 else x.step + 1) ∧ y.res = x.res ∧
        y.vars = x.vars ∧ y.flags = x.flags ∧ y.stack = x.stack) ∧
    (op = 0x0C → fld st 8 1 ≠ 11 → ∃ t y, exec (.flowAlu tid) s = .next t ∧ Safety.commits s t tid x y ∧ y.flow = x.flow ∧
      y.step = x.step + 1 ∧ y.res = x.res ∧ y.flags = x.flags ∧ y.stack = x.stack ∧ y.vars = x.vars.set (fld st 9 1)
        (aluValue (fld st 8 1) (fld st 16 8) (x.vars.getD (fld st 9 1) 0) (x.vars.getD (fld st 10 1) 0) s.dtime s.clk.calSec)) ∧
    (∀ v, op = 0x0C → fld st 8 1 = 11 → s.srcField x (fld st 11 1) (fld st 12 1) (fld st 13 1) (fld st 15 1) ((fld st 14 1).testBit 0) = some v →
      ∃ t y, exec (.flowAlu tid) s = .next t ∧ Safety.commits s t tid x y ∧ y.step = x.step + 1 ∧ y.vars = x.vars.set (fld st 9 1) v) ∧
    (∀ o e, op = 0x0E → s.obj (fld st 8 4) = some o → o.kind = .flow → x.stack.length < 8 →
      e = (if fld st 12 2 = 0xFFFF then fld (s.objBytes o 0 64) 8 2 else fld st 12 2) → e < s.fpN o → ∃ t y,
        exec (.callFlow tid) s = .next t ∧ Safety.commits s t tid x y ∧ y.flow = fld st 8 4 ∧ y.step = e ∧
        y.stack = x.stack ++ [(x.flow, x.step + 1)] ∧ y.res = x.res ∧ y.vars = x.vars) ∧
    (∀ p, op = 0x0F → x.stack.getLast? = some p → ∃ t y, exec (.flowReturn tid) s = .next t ∧ Safety.commits s t tid x y ∧ y.flow = p.1 ∧
      y.step = p.2 ∧ y.stack = x.stack.dropLast ∧ y.res = x.res ∧ y.vars = x.vars) ∧
    (op = 0x17 → ∃ (t u : State) (y : Task), exec (.setPrio tid) s = .next t ∧ t = (u.boundary x.slot).settleWarden ∧ Safety.taskOnly s u tid y ∧
      y.prio = fld st 8 1 ∧ y.step = x.step + 1 ∧ y.res = x.res ∧ y.vars = x.vars) ∧
    (op = 0x18 → ∃ (t u : State) (y : Task), exec (.yield tid) s = .next t ∧ t = u.yieldTask tid x.slot ∧ u.task tid = some y ∧
      y.step = x.step + 1 ∧ y.res = x.res ∧ y.vars = x.vars ∧ (∀ i, i ≠ tid → u.task i = s.task i) ∧ u.mem = s.mem ∧
      t.paddock.seq = (s.paddock.seq + 1) % 2 ^ 64) ∧
    (op = 0x10 → ∃ (t u : State) (e : Nat × Nat), exec (.flowEnd tid) s = .next t ∧ t = u.endTask tid e.1 e.2 (fld st 12 4) ∧
      e = (if fld st 8 1 = 1 then (fld x.res 0 1, fld x.res 1 1) else if fld st 8 1 = 2 then (x.lastErr % 256, 0) else (0, 0)) ∧
      u.task tid = some { x with lastStep := (x.step, x.flow), steps := satAdd 32 x.steps 1 } ∧ u.mem = s.mem ∧ u.host = s.host) ∧
    (op = 0x10 → (∀ o ∈ x.ops, o.busy = false) → (s.fslot x.slot).buf ≠ some tid → ∃ (t : State) (y : Task), exec (.flowEnd tid) s = .next t ∧
      t.task tid = some y ∧ y.state = 5 ∧ y.exit = fld st 12 4 ∧ y.lastStep = (x.step, x.flow) ∧
      y.fin = some (if fld st 8 1 = 1 then (fld x.res 0 1, fld x.res 1 1) else if fld st 8 1 = 2 then (x.lastErr % 256, 0) else (0, 0)))) ∧
  (∀ (s : State) (tid a q : Nat) (x : Task) (st : List Byte), Safety.stepping s tid 0x19 x st → x.abortAt = some (a, q) →
    ∃ (t u : State) (y : Task), exec (.nopStep tid) s = .next t ∧ t = u.endTask tid a q ∧ u.task tid = some y ∧ y.step = x.step + 1 ∧
      y.lastStep = (x.step, x.flow) ∧ (∀ i, i ≠ tid → u.task i = s.task i) ∧ u.mem = s.mem ∧ u.host = s.host) ∧
  (∀ (s : State) (tid : Nat) (x : Task) (o : Obj), s.task tid = some x → s.mayStep tid x = true → kGet s.objs x.flow = some o →
    o.lost = false → s.fpN o ≤ x.step → ∃ (t u : State) (y : Task), exec (.nopStep tid) s = .next t ∧ t = u.endTask tid St.bad 0 ∧
      u.task tid = some y ∧ y.step = x.step ∧ y.lastErr = lastErrOf St.bad 0 x.step x.flow ∧ fld y.res 0 1 = St.bad ∧
      (∀ i, i ≠ tid → u.task i = s.task i) ∧ u.mem = s.mem ∧ u.host = s.host)

/-- RETRY, for a task whose end no abort has noted: where RES.STATUS is one of the statuses that RMASK names and counter CTR is below COUNT,
the step adds 1 to the counter and goes on at TARGET; otherwise it sets the counter to 0 and goes on at the next step. Nothing else of the task's
program state changes. (R434) -/
def Obligations.RetrySteps : Prop :=
  ∀ (s : State) (tid : Nat) (x : Task) (st : List Byte) (named : Bool), Safety.stepping s tid 0x0D x st → x.abortAt = none →
    named = (retryBit (fld x.res 0 1)).any (fun b => (fld st 10 1).testBit b) →
    (named = true → x.ctr.getD (fld st 8 1) 0 < fld st 9 1 → ∃ t y, exec (.flowRetry tid) s = .next t ∧ Safety.commits s t tid x y ∧
      y.flow = x.flow ∧ y.step = fld st 12 2 ∧ y.ctr = x.ctr.set (fld st 8 1) (x.ctr.getD (fld st 8 1) 0 + 1) ∧ y.res = x.res ∧
      y.vars = x.vars ∧ y.flags = x.flags ∧ y.stack = x.stack ∧ y.lastErr = x.lastErr) ∧
    (named = false ∨ fld st 9 1 ≤ x.ctr.getD (fld st 8 1) 0 → ∃ t y, exec (.flowRetry tid) s = .next t ∧ Safety.commits s t tid x y ∧
      y.flow = x.flow ∧ y.step = x.step + 1 ∧ y.ctr = x.ctr.set (fld st 8 1) 0 ∧ y.res = x.res ∧ y.vars = x.vars ∧ y.flags = x.flags ∧
      y.stack = x.stack ∧ y.lastErr = x.lastErr)

/-- Each step completes as follows, for a task whose end no abort has noted. WAIT_EVENT of flags that stand completes at once with the flags
and the named ones among them, which it clears where it is told to;
of flags that do not stand it gives up the core, and waits for the mask with its timer; at its wake it completes, with
TIMEOUT where the timer ran out. CLEAR_FLAGS clears its flags. DELAY that is not due waits for its time; due or waited for, it
completes. SIGNAL sets the flags of another task here, posts a USER event to the host, or sends to another chip and waits for the answer,
with which it ends; with no task, wrong flags or a link of the ring down it fails. LOCK
of a free lock takes it; of one held, it queues and waits, and completes when it is granted; a lock held already or lost fails.
UNLOCK by the holder frees it, or grants it to the next; by another it fails with FCHECK. (R430, R431, R438, R439, R457, R466, R467, R469) -/
def Obligations.FlowWaits : Prop :=
  ∀ (s : State) (tid op : Nat) (x : Task) (st : List Byte), Safety.stepping s tid op x st → x.abortAt = none →
    (op = 7 → x.begun = false → ({ x with wmask := fld st 8 8, wall := decide (fld st 16 1 = 1) } : Task).waitHolds = true →
      ∃ t y, exec (.waitEvent tid) s = .next t ∧ Safety.commits s t tid x y ∧
        y.step = x.step + 1 ∧ fld y.res 0 1 = St.ok ∧ slice y.res 32 16 = leBytes 8 x.flags ++ leBytes 8 (x.flags &&& fld st 8 8) ∧
        y.flags = (if (fld st 17 1).testBit 0 then x.flags - (x.flags &&& (x.flags &&& fld st 8 8)) else x.flags)) ∧
    (op = 7 → x.begun = false → ({ x with wmask := fld st 8 8, wall := decide (fld st 16 1 = 1) } : Task).waitHolds = false →
      ∃ t y, exec (.waitEvent tid) s = .next t ∧ Safety.waits s t tid x y ∧ y.wmask = fld st 8 8 ∧ y.wall = decide (fld st 16 1 = 1) ∧
        y.wkind = 1 ∧ y.flags = x.flags ∧ y.wakeT = (if fld st 20 4 = 0 then 0 else s.dtime + 1000 * fld st 20 4)) ∧
    (op = 7 → x.begun = true → x.timedOut = false → ∃ t y, exec (.waitEvent tid) s = .next t ∧ Safety.commits s t tid x y ∧
      y.step = x.step + 1 ∧ fld y.res 0 1 = St.ok ∧
      slice y.res 32 16 = leBytes 8 x.wakeFlags ++ leBytes 8 (x.wakeFlags &&& fld st 8 8) ∧
      y.flags = (if (fld st 17 1).testBit 0 then x.flags - (x.flags &&& (x.wakeFlags &&& fld st 8 8)) else x.flags)) ∧
    (op = 7 → x.begun = true → x.timedOut = true → ∃ t, exec (.waitEvent tid) s = .next t ∧ Safety.fails s t tid x st St.timeout 0) ∧
    (op = 8 → ∃ t y, exec (.clearFlags tid) s = .next t ∧ Safety.commits s t tid x y ∧ y.flags = x.flags - (x.flags &&& fld st 8 8) ∧
      y.step = x.step + 1 ∧ y.res = x.res ∧ y.vars = x.vars) ∧
    (∀ due, op = 9 → due = (if fld st 8 1 = 0 then s.dtime + fld st 16 8 else fld st 16 8) → x.begun = true ∨ due ≤ s.dtime →
      ∃ t y, exec (.flowDelay tid) s = .next t ∧ Safety.commits s t tid x y ∧ y.step = x.step + 1 ∧
        y.flags = x.flags - (x.flags &&& 0x100) ∧ y.vars = x.vars) ∧
    (∀ due, op = 9 → due = (if fld st 8 1 = 0 then s.dtime + fld st 16 8 else fld st 16 8) → x.begun = false → s.dtime < due →
      ∃ t y, exec (.flowDelay tid) s = .next t ∧ Safety.waits s t tid x y ∧ y.wakeT = due ∧ y.wmask = 0x100 ∧ y.wkind = 4 ∧
        y.flags = x.flags - (x.flags &&& 0x100)) ∧
    (∀ z target, op = 0x11 → x.begun = false → (fld st 10 1).testBit 0 = false → target = fld st 8 2 → target ≠ 0xFFFE →
      fld st 16 8 % 2 ^ 16 = 0 → s.task target = some z → z.state ≠ 4 → ∃ (t u : State) (y : Task), exec (.flowSignal tid) s = .next t ∧
        t = u.boundary x.slot ∧ u.task tid = some y ∧ y.step = x.step + 1 ∧ y.vars = x.vars ∧ fld y.res 0 1 = St.ok ∧
        (target = tid → y.flags = x.flags ||| fld st 16 8) ∧
        (target ≠ tid → u.task target = some (if z.state = 5 then z else { z with flags := z.flags ||| fld st 16 8 })) ∧
        (∀ i, i ≠ tid → i ≠ target → u.task i = s.task i) ∧ u.mem = s.mem) ∧
    (op = 0x11 → x.begun = false → (fld st 10 1).testBit 0 = false → fld st 8 2 ≠ 0xFFFE → fld st 16 8 % 2 ^ 16 = 0 →
      s.task (fld st 8 2) = none → ∃ t, exec (.flowSignal tid) s = .next t ∧ Safety.fails s t tid x st St.noObject 0) ∧
    (op = 0x11 → x.begun = false → (fld st 10 1).testBit 0 = true ∨ fld st 8 2 ≠ 0xFFFE → fld st 16 8 % 2 ^ 16 ≠ 0 →
      ∃ t, exec (.flowSignal tid) s = .next t ∧ Safety.fails s t tid x st St.bad 0x21) ∧
    (op = 0x11 → x.begun = false → (fld st 10 1).testBit 0 = false → fld st 8 2 = 0xFFFE → ∃ t y, exec (.flowSignal tid) s = .next t ∧
      Safety.commits (s.queueEvent { typ := 2, aux := fld st 12 4, p0 := tid + x.step * 2 ^ 16, p2 := s.dtime }) t tid x y ∧
      y.step = x.step + 1 ∧ y.flags = x.flags) ∧
    (op = 0x11 → x.begun = false → (fld st 10 1).testBit 0 = true → fld st 16 8 % 2 ^ 16 = 0 → s.linkUp 0 = false ∨ s.linkUp 1 = false →
      ∃ t, exec (.flowSignal tid) s = .next t ∧ Safety.fails s t tid x st St.linkDown 0) ∧
    (op = 0x11 → x.begun = false → (fld st 10 1).testBit 0 = true → fld st 16 8 % 2 ^ 16 = 0 → s.linkUp 0 = true → s.linkUp 1 = true →
      ∃ t y, exec (.flowSignal tid) s = .next t ∧ y.wmask = 0 ∧ y.wakeT = 0 ∧
        Safety.waits (s.send 0 { typ := 0x33, seq := 0, fields := [fld st 11 1, 2, s.pos, tid, fld st 8 2, fld st 16 8] }) t tid x y) ∧
    (∀ a, op = 0x11 → x.begun = true → x.ack.getD St.linkDown = a → (a < 0x10 → ∃ t y, exec (.flowSignal tid) s = .next t ∧
        Safety.commits s t tid x y ∧ y.step = x.step + 1 ∧ fld y.res 0 1 = a) ∧
      (0x10 ≤ a → a < 256 → ∃ t, exec (.flowSignal tid) s = .next t ∧ Safety.fails s t tid x st a 0)) ∧
    (∀ k, op = 0x12 → x.begun = false → k = fld st 8 1 → k < 32 → Safety.shaped s →
      (x.lost.testBit k = true → ∃ t, exec (.lockStep tid) s = .next t ∧ Safety.fails s t tid x st St.hwFault 0) ∧
      (x.lost.testBit k = false → x.locks.testBit k = true → ∃ t, exec (.lockStep tid) s = .next t ∧ Safety.fails s t tid x st St.bad 0x24) ∧
      (x.lost.testBit k = false → x.locks.testBit k = false → (s.lock k).owner = none → ∃ (t u : State) (y : Task),
        exec (.lockStep tid) s = .next t ∧ t = u.boundary x.slot ∧ Safety.taskOnly s u tid y ∧
        y.locks = x.locks ||| 2 ^ k ∧ y.step = x.step + 1 ∧ fld y.res 0 1 = (if (s.lock k).abandoned then 5 else St.ok) ∧
        u.lock k = { s.lock k with owner := some (.task tid), abandoned := false } ∧ (∀ j, j ≠ k → u.lock j = s.lock j)) ∧
      (x.lost.testBit k = false → x.locks.testBit k = false → (s.lock k).owner ≠ none → ∃ (t u : State) (y : Task),
        exec (.lockStep tid) s = .next t ∧ t = u.coreFree x.slot ∧ Safety.taskOnly s u tid y ∧ y.state = 4 ∧ y.step = x.step ∧
        y.wmask = 0x10 ∧ y.wkind = 3 ∧ y.wakeT = (if fld st 12 4 = 0 then 0 else s.dtime + 1000 * fld st 12 4) ∧
        u.lock k = { s.lock k with queue := lockInsert (s.lock k).queue { prio := s.effPrio tid, who := .task tid } } ∧
        (∀ j, j ≠ k → u.lock j = s.lock j))) ∧
    (op = 0x12 → x.begun = true → (x.timedOut = true → ∃ t, exec (.lockStep tid) s = .next t ∧ Safety.fails s t tid x st St.timeout 0) ∧
      (x.timedOut = false → ∃ t y, exec (.lockStep tid) s = .next t ∧ Safety.commits s t tid x y ∧ y.step = x.step + 1 ∧
        fld y.res 0 1 = (if x.lockAb then 5 else St.ok) ∧ y.flags = x.flags - (x.flags &&& 0x10))) ∧
    (∀ k, op = 0x13 → k = fld st 8 1 → k < 32 → Safety.shaped s →
      (x.lost.testBit k = true → ∃ t, exec (.unlockStep tid) s = .next t ∧ Safety.fails s t tid x st St.hwFault 0) ∧
      (x.lost.testBit k = false → x.locks.testBit k = false → ∃ t, exec (.unlockStep tid) s = .next t ∧ Safety.fails s t tid x st St.bad 0x24) ∧
      (x.lost.testBit k = false → x.locks.testBit k = true → (s.lock k).owner = some (.task tid) → (s.lock k).queue = [] →
        ∃ (t u : State) (y : Task), exec (.unlockStep tid) s = .next t ∧ t = u.boundary x.slot ∧ Safety.taskOnly s u tid y ∧
          y.locks = x.locks - (x.locks &&& 2 ^ k) ∧ y.step = x.step + 1 ∧ u.lock k = { s.lock k with owner := none, abandoned := false } ∧
          (∀ j, j ≠ k → u.lock j = s.lock j)) ∧
      (∀ r rs, x.lost.testBit k = false → x.locks.testBit k = true → (s.lock k).queue = r :: rs → ∃ (t u : State), exec (.unlockStep tid) s = .next t ∧
        u = s.lockRelease k false ∧ t = u.stepDone tid x st { status := St.ok } ∧
        u.lock k = { s.lock k with owner := some r.who, abandoned := false, queue := rs } ∧ (∀ j, j ≠ k → u.lock j = s.lock j)))

/-- An operation step (RUN_BURST, MEASURE_INTERVAL, ACQUIRE, SET_PE, POWER_DUT) whose slot is busy fails with FCHECK 0x26. Where the
operation starts, a step without WAIT completes and goes on (it waits while a list of its finds no room in a queue), and one with WAIT waits for
the slot's done flag, and then completes with the slot's result; where it is refused, the
slot takes the refusal, and the step fails with it. ABORT_OP ends the operations of the slots it names and goes on. LOG writes its record to the log of
the task in host memory, and fails without bus mastering. SET_MASK masks members of a group, and is refused to a task of a site. ARM_TRIGGER
arms a unit of the task's clusters that no BLOCK reset holds, and is refused for one that is not theirs, or that is absent. (R414, R415, R421, R426, R440, R441, R442) -/
def Obligations.FlowOperations : Prop :=
  (∀ (s : State) (tid op k : Nat) (x : Task) (st : List Byte) (i : Instr), Safety.stepping s tid op x st → (i, op, k) ∈ Safety.opSteps tid →
    x.begun = false → x.abortAt = none → (x.ops.getD k {}).busy = true → ∃ t, exec i s = .next t ∧ Safety.fails s t tid x st St.bad 0x26) ∧
  (∀ (s u : State) (tid op k : Nat) (x x' : Task) (st : List Byte) (i : Instr), Safety.stepping s tid op x st →
    (i, op, k) ∈ Safety.opSteps tid → x.begun = false → (x.ops.getD k {}).busy = false → Safety.starts (Safety.taken s tid k st) u tid x st →
    u.task tid = some x' → x'.abortAt = none →
    (stWait st = false → u.peWaiting tid = false → ∃ t y, exec i s = .next t ∧ Safety.commits u t tid x' y ∧ y.flow = x'.flow ∧
      y.step = x'.step + 1 ∧ fld y.res 0 1 = St.ok ∧ y.ops = x'.ops) ∧
    (stWait st = false → u.peWaiting tid = true → ∃ t y, exec i s = .next t ∧ Safety.waits u t tid x' y ∧ y.wmask = 0 ∧ y.wkind = 2) ∧
    (stWait st = true → x'.flags.testBit k = false → ∃ t y, exec i s = .next t ∧ Safety.waits u t tid x' y ∧ y.wmask = 2 ^ k ∧
      y.wall = false ∧ y.wkind = 2 ∧ y.wakeT = 0)) ∧
  (∀ (s u : State) (tid op k : Nat) (x x' : Task) (st bs : List Byte) (r : Result) (i : Instr), Safety.stepping s tid op x st →
    (i, op, k) ∈ Safety.opSteps tid → x.begun = false → (x.ops.getD k {}).busy = false → (Safety.taken s tid k st).opStart tid x st = (u, some r) →
    bs = r.bytes op x.step 1 u.dtime → u.task tid = some x' → x'.state = 3 → x'.abortAt = none → k < x'.ops.length → 0x10 ≤ r.status → r.status < 256 →
    ∃ (t v : State) (y : Task), exec i s = .next t ∧ v.task tid = some y ∧ y.res = bs ∧ (y.ops.getD k {}).res = bs ∧ (y.ops.getD k {}).busy = false ∧
      y.flags.testBit k = !stWait st ∧ y.lastErr = lastErrOf r.status op x'.step x'.flow ∧ fld bs 0 1 = r.status ∧
      t = (if stOnErr st = 0xFFFF then v.endTask tid r.status (fld bs 1 1) else v.boundary x'.slot)) ∧
  (∀ (s : State) (tid op k : Nat) (x : Task) (st bs : List Byte) (i : Instr), Safety.stepping s tid op x st → (i, op, k) ∈ Safety.opSteps tid →
    x.begun = true → x.abortAt = none → bs = (x.ops.getD k {}).res →
    (stWait st = true → fld bs 0 1 < 0x10 → ∃ t y, exec i s = .next t ∧ Safety.commits s t tid x y ∧ y.step = x.step + 1 ∧
      y.flags = x.flags - (x.flags &&& 2 ^ k) ∧ y.res = bs) ∧
    (stWait st = true → 0x10 ≤ fld bs 0 1 → ∃ t, exec i s = .next t ∧ Safety.fails s t tid x st (fld bs 0 1) (fld bs 3 1)) ∧
    (stWait st = false → ∃ t y, exec i s = .next t ∧ Safety.commits s t tid x y ∧ y.step = x.step + 1 ∧ y.flags = x.flags ∧
      fld y.res 0 1 = St.ok)) ∧
  (∀ (s u : State) (tid : Nat) (x x' : Task) (st : List Byte), Safety.stepping s tid 6 x st →
    u = (bitList 4 (fld st 8 1)).foldl (fun s k => s.abortSlot tid k) s → u.task tid = some x' → x'.abortAt = none →
    ∃ t y, exec (.abortOpStep tid) s = .next t ∧ Safety.commits u t tid x' y ∧ y.step = x'.step + 1 ∧ fld y.res 0 1 = St.ok) ∧
  (∀ (s : State) (tid : Nat) (x : Task) (st data : List Byte), Safety.stepping s tid 0x14 x st → x.abortAt = none →
    s.logData x (fld st 8 1) (fld st 9 1) (fld st 11 1) = some data →
    (x.logLen = 0 → ∃ t y, exec (.logStep tid) s = .next t ∧ Safety.commits s t tid x y ∧ y.step = x.step + 1 ∧ y.logSeq = x.logSeq) ∧
    (x.logLen ≠ 0 → s.host.pci.busMaster = false → ∃ t, exec (.logStep tid) s = .next t ∧ Safety.fails s t tid x st St.hwFault 0) ∧
    (x.logLen ≠ 0 → s.host.pci.busMaster = true → (fld st 10 1).testBit 0 = false → ∃ t y, exec (.logStep tid) s = .next t ∧
      Safety.commits s t tid x y ∧ y.step = x.step + 1 ∧ y.logSeq = satAdd 32 x.logSeq 1 ∧
      Out.hostWrite (x.logAddr + 64 * (x.logSeq % (x.logLen / 64))) (s.logRecord tid x st data) ∈ t.out) ∧
    (x.logLen ≠ 0 → s.host.pci.busMaster = true → (fld st 10 1).testBit 0 = true → ∃ t y, exec (.logStep tid) s = .next t ∧
      Safety.commits ((s.emit (.hostWrite (x.logAddr + 64 * (x.logSeq % (x.logLen / 64))) (s.logRecord tid x st data))).queueEvent
        { typ := 3, aux := x.logSeq, p0 := tid + x.step * 2 ^ 16 + fld st 12 2 * 2 ^ 32, p2 := s.dtime }) t tid x y ∧
      y.step = x.step + 1 ∧ y.logSeq = satAdd 32 x.logSeq 1)) ∧
  (∀ (s : State) (tid : Nat) (x : Task) (st : List Byte), Safety.stepping s tid 0x15 x st → x.abortAt = none →
    (x.groupId = 0xFFFF → ∃ t, exec (.setMask tid) s = .next t ∧ Safety.fails s t tid x st St.bad 0x20) ∧
    (x.groupId ≠ 0xFFFF → s.taskBlocked x = true → ∃ t, exec (.setMask tid) s = .next t ∧ Safety.fails s t tid x st St.blocked 0) ∧
    (∀ u, x.groupId ≠ 0xFFFF → s.taskBlocked x = false → u = (s.entSlices x.ent).foldl (fun s g => s.writeMask g
        (if fld st 8 1 = 0 then s.siteMask g ||| fld st 10 2 else if fld st 8 1 = 1 then s.siteMask g - (s.siteMask g &&& fld st 10 2)
          else fld st 10 2)) s → ∃ t y, exec (.setMask tid) s = .next t ∧ Safety.commits u t tid x y ∧ y.step = x.step + 1 ∧
      (∀ g, s.entSlices x.ent = [g] → u.siteMask g = ((if fld st 8 1 = 0 then s.siteMask g ||| fld st 10 2
        else if fld st 8 1 = 1 then s.siteMask g - (s.siteMask g &&& fld st 10 2) else fld st 10 2) ||| (s.sl g).sticky) % 2 ^ 16))) ∧
  (∀ (s : State) (tid k : Nat) (x : Task) (st : List Byte), Safety.stepping s tid 0x16 x st → x.abortAt = none → k = fld st 8 1 →
    (96 ≤ k → ∃ t, exec (.armTrigger tid) s = .next t ∧ Safety.fails s t tid x st St.bad 0x27) ∧
    (k < 96 → s.clGone (k / 8) = true → ∃ t, exec (.armTrigger tid) s = .next t ∧ Safety.fails s t tid x st St.absent 0) ∧
    (k < 96 → s.clGone (k / 8) = false → (s.taskClusters x).contains (k / 8) = false → ∃ t, exec (.armTrigger tid) s = .next t ∧
      Safety.fails s t tid x st St.bad 0x27) ∧
    (k < 96 → s.clGone (k / 8) = false → (s.taskClusters x).contains (k / 8) = true → ∃ t y, exec (.armTrigger tid) s = .next t ∧
      Safety.commits (if s.regPowered rowClTrgCtl [k / 8, k % 8] then s.armTrig k (2000 * s.dtime) else s) t tid x y ∧ y.step = x.step + 1))

/-- CONTEXT_FETCH_DONE on a slot whose core idles gives the core its buffered task; with a task running and none held, only the
fetch is noted; with one held at a step boundary, the boundary goes on; during a memory repair the fetch waits. QUANTUM_EXPIRY of a task whose quantum is
over puts it back among the ready tasks with a new READY_SEQ, or ends it where an abort has been noted. TASK_TIMER_EXPIRY of a waiting
task at or past its time, with the chip awake, wakes it: the end of a DELAY with its flag, any other wait with a timeout. RETRY_GAP_EXPIRY issues the
attempts that are due.
PE_LIST_DONE takes the list off its port, and its user goes on. POWER_DUT_SETTLE_END at or past the end of the settle time goes on
with the sequence; an off sequence without a list ends with OK, and one cut short with its status. (R422, R425, R427, R429, R431, R455, R461, R463) -/
def Obligations.PaddockHappenings : Prop :=
  (∀ (s : State) (i : Nat), s.places = false → exec (.contextFetchDone i) s = .next s) ∧
  (∀ (s : State) (i tid : Nat), (s.fslot i).buf = some tid → (s.fslot i).fetched = false → s.slotUp i = true → s.places = true → i < 16 →
    Safety.shaped s →
    ((s.fslot i).run = none → ∃ t v : State, exec (.contextFetchDone i) s = .next t ∧ t = v.refillSlot i ∧ (v.fslot i).run = some tid ∧
      (v.fslot i).buf = none ∧ (∀ x, s.task tid = some x → v.task tid = some { x with state := 3, slot := i, quantum := 0 }) ∧
      (∀ j, j ≠ i → v.fslot j = s.fslot j) ∧ v.mem = s.mem ∧ v.regs = s.regs) ∧
    ((s.fslot i).run ≠ none → (s.fslot i).hold = false → ∃ t, exec (.contextFetchDone i) s = .next t ∧
      t.fslot i = { s.fslot i with fetched := true, hold := false } ∧ (∀ j, j ≠ i → t.fslot j = s.fslot j) ∧
      t.paddock.tasks = s.paddock.tasks ∧ t.mem = s.mem ∧ t.regs = s.regs) ∧
    ((s.fslot i).run ≠ none → (s.fslot i).hold = true → ∃ t u : State, exec (.contextFetchDone i) s = .next t ∧ t = u.boundary i ∧
      u.fslot i = { s.fslot i with fetched := true, hold := false } ∧ u.paddock.tasks = s.paddock.tasks)) ∧
  (∀ (s : State) (tid : Nat) (x : Task), s.task tid = some x → x.state = 3 → s.slotUp x.slot = true → s.quantumDue tid x = true →
    (∀ a q, x.abortAt = some (a, q) → exec (.quantumExpiry tid) s = .next (s.endTask tid a q)) ∧
    (x.abortAt = none → (s.fslot x.slot).buf ≠ some tid → ∃ (t : State) (y : Task), exec (.quantumExpiry tid) s = .next t ∧
      t = s.yieldTask tid x.slot ∧ t.task tid = some y ∧ (y.state = 1 ∨ y.state = 2) ∧ y.readySeq = s.paddock.seq ∧ y.step = x.step ∧
      y.vars = x.vars ∧ t.paddock.seq = (s.paddock.seq + 1) % 2 ^ 64 ∧ t.mem = s.mem)) ∧
  (∀ (s : State) (tid t0 : Nat) (x : Task), s.task tid = some x → x.state = 4 → x.wakeT ≠ 0 → x.wakeT ≤ t0 → s.power.lull = 0 →
    (x.wkind = 4 → x.wmask = 0x100) → ∃ (t : State) (y : Task), exec (.taskTimerExpiry tid t0) s = .next t ∧ t = (s.at t0).timerFires tid ∧
      t.task tid = some y ∧ (y.state = 1 ∨ y.state = 2) ∧ y.wakeT = 0 ∧ y.wmask = 0 ∧ y.timedOut = decide (x.wkind ≠ 4) ∧
      y.flags = (if x.wkind = 4 then x.flags ||| 0x100 else x.flags) ∧ y.wakeFlags = y.flags ∧ y.step = x.step ∧ y.vars = x.vars ∧
      t.mem = s.mem) ∧
  (∀ (s : State) (tid t0 k : Nat) (x : Task) (due : List Nat), s.task tid = some x →
    due = (List.range 4).filter (fun k => (x.ops.getD k {}).retryAt.any (fun a => a ≤ t0)) → due ≠ [] →
    (∃ t, exec (.retryGapExpiry tid t0) s = .next t ∧ t = due.foldl (fun s k => s.reissue tid k) (s.at t0)) ∧
    (∀ u v, due = [k] → k ≠ 0 → u = (s.at t0).upTask tid (fun t => { t with ops := t.ops.modify k (fun o => { o with
        retryAt := none, attempts := o.attempts + 1 }) }) → Safety.starts u v tid x (x.ops.getD k {}).step →
      exec (.retryGapExpiry tid t0) s = .next v)) ∧
  (∀ (s : State) (n : Nat) (bits : List Nat) (i : PeItem) (rest : List PeItem) (u : State) (fs : List (List Byte)),
    (s.pePort n).queue = i :: rest → (s.pePort n).busy = true → n < 12 → Safety.shaped s →
    fs = i.upto.elim (s.peFrames i.list) (fun k => (s.peFrames i.list).take k) →
    u = ((s.peSend n fs).upPe n (fun p => { p with queue := rest, busy := false })).peRoom n →
    (i.user = .orphan → ∃ t, exec (.peListDone n bits) s = .next t ∧ t = u ∧ (s.paddock.peWaits = [] → (t.pePort n).queue = rest ∧
      (t.pePort n).busy = false ∧ (∀ m, m ≠ n → t.pePort m = s.pePort m) ∧ t.paddock = s.paddock ∧ t.mem = s.mem)) ∧
    (∀ tid, i.user = .power tid → exec (.peListDone n bits) s = .next (u.powerListDone tid n i.st)) ∧
    (∀ a b r, i.user = .calib a b r → exec (.peListDone n bits) s = .next (u.calListDone a b i.st r)) ∧
    (∀ tid, i.user = .setPe tid → exec (.peListDone n bits) s = .next ((u.upPeOp tid (fun o => { o with
      left := o.left.filter (· ≠ n), st := max o.st i.st, frames := if o.lowest = n then fs.length else o.frames,
      reads := if o.lowest = n then readWords fs bits else o.reads })).settlePe tid))) ∧
  (∀ (s : State) (tid t0 : Nat) (p : PowerSeq), s.powerOf tid = some p → p.phase = 1 → p.settleEnd ≤ t0 →
    (p.st ≠ 0 → exec (.powerDutSettleEnd tid t0) s = .next ((s.at t0).endPower tid p.st)) ∧
    (p.st = 0 → p.on = false → p.list = 0xFFFFFFFF → exec (.powerDutSettleEnd tid t0) s = .next ((s.at t0).endPower tid St.ok)) ∧
    (p.st = 0 → p.on = false → p.list ≠ 0xFFFFFFFF → exec (.powerDutSettleEnd tid t0) s = .next ((s.at t0).powerList tid p 2)) ∧
    (∀ a, p.st = 0 → p.on = true → a = (if p.chain < 24 then (s.chain p.chain).a else 0) → exec (.powerDutSettleEnd tid t0) s =
      .next (((s.at t0).upPower tid (fun p => { p with aEnd := a, aMax := if p.chain < 24 then some (p.aMax.getD a) else none })).endPower
        tid St.ok)))

/-- RUN_BURST that a check refuses completes with that result and submits nothing; one that never fits is DENIED with reason 4, and
counted; with no other burst waiting, one that fits is admitted, and its slices begin to fill; one that does not fit waits where its MODE lets
it, and is else denied. An admitted, filled burst within one slice starts: it runs from now, its slice runs,
and its slice counters are 0; one of several slices gets a start time and starts then, after its part across chips has been reported ready.
READ_PLACEMENT writes a header and as many entries as fit to host memory. A write of ADM_CTL sets CEIL_PCT. ABORT_OP of no declared site or
group is BAD_DESCRIPTOR; else it ends the operations it names and completes. (R33, R83, R135, R163, R188, R190, R193, R207, R208, R219,
R490, R491) -/
def Obligations.BurstsSubmitted : Prop :=
  (∀ (s s1 : State) (sq idx : Nat) (d : Desc) (q : Submit) (e : Ent), Safety.ready s sq idx 0x18 d →
    e = (if fld d.bytes 16 2 ≠ 0xFFFF then .site (fld d.bytes 16 2) else .group (fld d.bytes 18 2)) → s.entX e = none →
    q = { form := (fld d.bytes 16 2 = 0xFFFF) != (fld d.bytes 18 2 = 0xFFFF) && zeroes d.bytes 25 3 && zeroes d.bytes 32 32, ent := e,
          owner := .desc sq idx, obj := fld d.bytes 20 4, mode := fld d.bytes 24 1, wait := fld d.bytes 28 4,
          prio := s.rf F.RINGK_CFG_PRIO [sq] } → s1 = s.begin sq idx →
    (∀ r, s1.submitCheck q = .error r → ∃ t, exec (.runBurst sq idx) s = .next t ∧ t = s1.complete sq idx { r with body := noBurstBody q.obj } ∧
      t.bursts = s.bursts ∧ t.desc sq idx = none ∧ t.mem = s.mem) ∧
    (∀ b o, s1.submitCheck q = .ok b → kGet s.objs b.obj = some o → s1.neverFits o b.ent = true → ∃ t, exec (.runBurst sq idx) s = .next t ∧
      t = (s1.incRf F.ADM_STAT_DENIED []).complete sq idx { denial b 4 with body := noBurstBody q.obj } ∧ t.bursts = s.bursts ∧
      t.desc sq idx = none) ∧
    (∀ b o s2, s1.submitCheck q = .ok b → kGet s.objs b.obj = some o → s1.neverFits o b.ent = false → s.queued = [] →
      s2 = { s1 with bursts := s.bursts ++ [b], arrivals := s.arrivals + 1 } →
      (o.unloading = false → s2.fitFails o (s2.planParts s2.cache o e).1 = [] → Safety.shaped s →
        ∃ (t : State) (b' : Burst), exec (.runBurst sq idx) s = .next t ∧ t.burst e = some b' ∧ b'.admitted = true ∧ b'.running = false ∧
          b'.obj = b.obj ∧ b'.owner = .desc sq idx ∧ b'.admittedAt = s.dtime ∧ t.desc sq idx = some { d with started := true } ∧
          (∀ g ∈ s.entSlices e, g < 48 → (t.sl g).seq.state = 1 ∧ (t.sl g).seq.pc = 0 ∧ (t.sl g).seq.next = 0 ∧ (t.sl g).seq.queue = []) ∧
          t.mem = s.mem) ∧
      (s2.fitFails o (s2.planParts s2.cache o e).1 ≠ [] → q.mode = 1 ∨ q.mode = 2 ∧ q.wait ≠ 0 →
        ∃ t, exec (.runBurst sq idx) s = .next t ∧ t.burst e = some { b with waited := true } ∧ t.desc sq idx = some { d with started := true } ∧
          t.slices = s.slices ∧ t.regs = s.regs ∧ t.mem = s.mem) ∧
      (s2.fitFails o (s2.planParts s2.cache o e).1 ≠ [] → q.mode = 0 ∨ q.mode = 2 ∧ q.wait = 0 →
        ∃ t u : State, exec (.runBurst sq idx) s = .next t ∧ u.bursts = s.bursts ∧ u.slices = s.slices ∧ u.regs = s.regs ∧
          t = (u.incRf F.ADM_STAT_DENIED []).complete sq idx
            { denial b ((s2.fitFails o (s2.planParts s2.cache o e).1).headD 0x0B) with body := noBurstBody q.obj } ∧ t.desc sq idx = none))) ∧
  (∀ (s : State) (isGroup : Bool) (id t0 : Nat) (e : Ent) (b : Burst), e = entOf isGroup id → s.burst e = some b → b.admitted = true →
    b.running = false → b.fin = none → s.filled e = true → (∀ g ∈ s.entSlices e, s.islUp (g / 4) = true) →
    (b.apgUnit = none ∨ s.islUp 27 = true) →
    (s.entX e = none → s.multi e = false → ∃ (t : State) (b' : Burst), exec (.burstStart isGroup id t0) s = .next t ∧
      t = (s.at t0).startBurst e ((2000 * (s.at t0).dtime : Int) - s.ringT.xoff).toNat ∧ t.burst e = some b' ∧ b'.running = true ∧
      (s.ringT.xoff ≤ (2000 * (s.at t0).dtime : Int) → b'.startStamp = (s.at t0).dtime) ∧ b'.obj = b.obj) ∧
    (s.entX e = none → s.multi e = true → b.startAt = none → ∃ (t : State) (b' : Burst), exec (.burstStart isGroup id t0) s = .next t ∧
      t.burst e = some b' ∧ b'.startAt = some ((s.at t0).dtime + s.rf F.RING_CFG_START_LEAD) ∧ b'.running = false ∧ t.mem = s.mem) ∧
    (∀ a, b.startAt = some a → a ≤ t0 → s.multi e = true → s.entX e = none ∨ s.crossOk = true → exec (.burstStart isGroup id t0) s =
      .next ((s.at t0).startBurst e ((2000 * a : Int) - s.ringT.xoff).toNat)) ∧
    (∀ x, s.entX e = some x → s.crossOk = true → b.startAt = none → x.leader ≠ s.pos → s.pos ∉ b.ready →
      ∃ t u : State, exec (.burstStart isGroup id t0) s = .next t ∧ u.burst e = some { b with ready := b.ready ++ [s.pos] } ∧
        t = u.broadcast 0x66 0 (s.at t0).dtime (x.id + b.tag * 2 ^ 32))) ∧
  (∀ (s : State) (g t0 : Nat) (c : Cx), s.cx g = some c → c.b.restart = none → g < 48 → Safety.shaped s → ∀ u, u = s.startSlice g t0 →
    (u.sl g).seq.state = 2 ∧ (u.sl g).seq.time = t0 ∧ (u.sl g).seq.startStamp = s.scaled t0 / 2000 ∧ u.rf F.CL_CMP_FAIL_FAIL_VECS [g / 4, g % 4] = 0 ∧
      (∀ k, k ≠ g → u.sl k = s.sl k) ∧ u.bursts = s.bursts ∧ u.mem = s.mem) ∧
  (∀ (s : State) (sq idx n : Nat) (d : Desc), Safety.ready s sq idx 0x1A d → fld d.bytes 16 1 < 64 → zeroes d.bytes 17 7 = true →
    fld d.bytes 24 8 % 64 = 0 → fld d.bytes 32 4 % 64 = 0 → 64 ≤ fld d.bytes 32 4 → zeroes d.bytes 36 4 = true → zeroes d.bytes 48 16 = true →
    s.host.pci.busMaster = true → n = min (s.placementEntries (fld d.bytes 16 1) (fld d.bytes 40 8)).length ((fld d.bytes 32 4 - 64) / 32) →
    ∃ t, exec (.readPlacement sq idx) s = .next t ∧ Out.hostWrite (fld d.bytes 24 8)
        (s.placementHeader (s.placementEntries (fld d.bytes 16 1) (fld d.bytes 40 8)).length n ++
          ((s.placementEntries (fld d.bytes 16 1) (fld d.bytes 40 8)).take n).flatten) ∈ t.out ∧
      t.desc sq idx = none ∧ t.objs = s.objs ∧ t.mem = s.mem) ∧
  (∀ (s : State) (v : W64), Safety.writable s (F.ADM_CTL_CEIL_PCT.off []) = true → ∃ t, exec (.ceilPctWrite v) s = .next t ∧
    t = ({ s with held := none } : State).hostAccess.writeFields (F.ADM_CTL_CEIL_PCT.off []) v ∧
    (∀ o, o ≠ F.ADM_CTL_CEIL_PCT.off [] → t.reg o = s.reg o) ∧ { t with regs := s.regs, held := s.held, host := s.host } = s ∧ t.host = s.hostAccess.host) ∧
  (∀ (s : State) (sq idx : Nat) (d : Desc) (e : Ent), Safety.ready s sq idx 0x19 d →
    e = (if fld d.bytes 16 2 ≠ 0xFFFF then .site (fld d.bytes 16 2) else .group (fld d.bytes 18 2)) →
    (s.declared e = false → exec (.abortOp sq idx) s = .next (s.finish sq idx St.bad)) ∧
    (s.declared e = true → ((fld d.bytes 16 2 = 0xFFFF) ↔ ¬ fld d.bytes 18 2 = 0xFFFF) → fld d.bytes 20 1 < 16 → zeroes d.bytes 21 43 = true →
      ∃ t u : State, exec (.abortOp sq idx) s = .next t ∧ u = (bitList 4 (fld d.bytes 20 1)).foldl (fun s k => s.abortEnt e k) s ∧
        t = u.finish sq idx St.ok ∧ t.desc sq idx = none))

/-- At the end of its wait a queued burst leaves admission with DENIED and reason 8, and is counted. A queued burst that has aged causes a
scan, and blocks those behind it. An admitted part across chips that has not started within XHOLD, 0 acting as 1, gives up what it reserved and
queues again. A stop request with a failure status, and SEQ_CTL_ABORT, reach a slice whose burst runs as a stop at that time with that status; of a
status that is none, nothing happens. A
slice that runs takes its next vector: where a cause ends the burst there it ends its part, else the vector starts. A burst
whose parts have all ended, with its records written, is finished with the status of its parts, and one that starts nothing with its own; across
chips no earlier than 1,600 ns after its last vector. (R27, R84, R164, R165, R167, R170, R193, R195, R196, R217, R223, R583) -/
def Obligations.BurstsProceed : Prop :=
  (∀ (s : State) (isGroup : Bool) (id t0 due : Nat) (b : Burst), s.burst (entOf isGroup id) = some b → b.admitted = false → b.fin = none →
    b.deadline = some due → due ≤ t0 → ∃ t u : State, exec (.admWaitExpiry isGroup id t0) s = .next t ∧
      u = (s.at t0).incRf F.ADM_STAT_DENIED [] ∧ t = u.dropBurst b.ent St.denied 8 ∧
      u.rf F.ADM_STAT_DENIED = satAdd F.ADM_STAT_DENIED.w (s.rf F.ADM_STAT_DENIED) 1 ∧ u.bursts = s.bursts) ∧
  (∀ (s : State) (isGroup : Bool) (id t0 : Nat) (b : Burst), s.burst (entOf isGroup id) = some b → b.admitted = false → b.fin = none →
    (s.at t0).aged b = true → exec (.ageLimitExpiry isGroup id t0) s = .next (s.at t0).scan) ∧
  (∀ (s : State) (b : Burst) (o : Obj) (r : List Burst), kGet s.objs b.obj = some o → o.unloading = false →
    s.fitFails o (s.planParts s.cache o b.ent).1 ≠ [] → s.aged b = true → scanLoop (b :: r) s = s) ∧
  (∀ (s : State) (isGroup : Bool) (id t0 : Nat) (e : Ent) (b : Burst), e = entOf isGroup id → s.burst e = some b →
    b.admitted = true → b.running = false → (s.entX e).isSome = true → b.startAt = none → b.fin = none →
    b.admittedAt + 10000 * max 1 (s.rf F.ADM_CTL_XHOLD) ≤ t0 → ∃ t u : State, exec (.xholdExpiry isGroup id t0) s = .next t ∧ t = u.scan ∧
      u.bursts = s.bursts.filter (fun x => !(x.ent == b.ent)) ++
        [{ b with admitted := false, waited := true, parts := [], ready := b.ready.filter (fun p => p ≠ s.pos) }] ∧ u.mem = s.mem ∧
      u.dtime = (s.at t0).dtime) ∧
  (∀ (s : State) (n sl status t0 g : Nat) (c : Cx), n < 12 → sl < 4 → g = 4 * n + sl → s.cx g = some c → c.b.running = true →
    (s.sl g).seq.endAt = none → Safety.shaped s →
    (isFailure status = true → ∃ t, exec (.stopRequest n sl status t0) s = .next t ∧
      ((s.sl g).seq.stop = none → (t.sl g).seq.stop = some (2000 * t0, status)) ∧
      (∀ t' k, (s.sl g).seq.stop = some (t', k) → (t.sl g).seq.stop = some (min t' (2000 * t0), max k status)) ∧
      ((s.sl g).seq.state = 2 → (t.sl g).seq.state = 3) ∧ (∀ k, k ≠ g → t.sl k = s.sl k) ∧ t.bursts = s.bursts ∧ t.mem = s.mem) ∧
    (isFailure status = false → exec (.stopRequest n sl status t0) s = .next s)) ∧
  (∀ (s : State) (n sl g : Nat) (c : Cx), Safety.writable s (F.CL_SEQ_CTL_ABORT.off [n]) = true → n < s.nCl → n < 12 → sl < 4 → g = 4 * n + sl →
    s.cx g = some c → c.b.running = true → (s.sl g).seq.endAt = none → (s.sl g).seq.stop = none → Safety.shaped s →
    ∃ t, exec (.seqCtlAbort n (BitVec.ofNat 64 (2 ^ sl))) s = .next t ∧ (t.sl g).seq.stop = some (2000 * s.dtime, St.aborted) ∧
      (∀ k, k ≠ g → t.sl k = s.sl k) ∧ t.bursts = s.bursts ∧ t.mem = s.mem ∧ t.regs = s.regs) ∧
  (∀ (s : State) (n : Nat) (v : W64), Safety.writable s (F.CL_SEQ_CTL_ABORT.off [n]) = true → n < s.nCl →
    exec (.seqCtlAbort n v) s = .next ((bitList 4 v.toNat).foldl (fun s i => s.stopSlice (4 * n + i) s.dtime St.aborted)
      ({ s with held := none } : State).hostAccess)) ∧
  (∀ (s s0 u : State) (n sl g : Nat) (smp : List Sample) (c : Cx) (q : Seq), n < 12 → sl < 4 → g = 4 * n + sl →
    s0 = (if (s.sl g).seq.state = 2 then s.boundaryXoff else s) → s0.cx g = some c → c.b.running = true → q = (s0.sl g).seq →
    q.state = 2 ∨ q.state = 3 → q.endAt = none → u = s0.at (q.time / 2000) →
    (∀ x, (q.queue ≠ [] ∨ q.ended = true ∨ q.late = true ∨ q.stopDue = true ∨ ∃ k, q.fault = some (q.next, k)) → u.endCause c n q = some x → exec (.vectorStart n sl smp) s = .next (u.endPart g c x)) ∧
    (∀ r rest, u.endCause c n q = none → q.queue = r :: rest → exec (.vectorStart n sl smp) s =
      .next (((u.applyVector g c r rest smp).markEdges g c.b.ent q.time r.mark).settleEnd g)) ∧
    (q.queue = [] → q.ended = false → q.fault = none → q.late = false → q.stopDue = false → exec (.vectorStart n sl smp) s = .next s0)) ∧
  (∀ (s : State) (isGroup : Bool) (id : Nat) (e : Ent) (b : Burst) (ends : List EndAt), e = entOf isGroup id →
    s.burst e = some b → b.admitted = true → (b.running = true ∨ b.fin = none) → ends = (s.entSlices e).filterMap (fun g => (s.sl g).seq.endAt) →
    ends ≠ [] → ends.length = (s.entSlices e).length → s.drained e = true → (s.entX e = none ∨ s.endTime e + 1600 ≤ s.dtime) → s.ballastOn = false →
    ∃ t u : State, exec (.burstComplete isGroup id) s = .next t ∧ t = u.finishBurst b (joinEnds ends) ∧
      u = (if b.running = true then s.at (s.endTime e) else s) ∧ (joinEnds ends).status = (ends.map EndAt.status).foldl max 0) ∧
  (∀ (s : State) (isGroup : Bool) (id : Nat) (b : Burst) (x : EndAt), s.burst (entOf isGroup id) = some b → b.running = false → b.fin = some x →
    s.entX (entOf isGroup id) = none → exec (.burstComplete isGroup id) s = .next (s.finishBurst b (joinEnds [x])))

/-- A request joins a channel's queue in transfers of at most 1,024 bytes, none across a page. At a decision of a serving channel's arbiter,
after the refresh the decision issues, the request granted is the one R535 names: it leaves the queue, its
wait counter is 0, and every other that asked waits one more; with none asking nothing else happens. A refresh that is owed
becomes due, at most 8. A write of MC_ARB_PRIO or MC_ARB_LIMIT takes its values, a CEIL above 14 read as 14. A poll
of MR4 that calls for more than twice the base rate makes the channel hot, with fault source 20; one that calls for less ends the fault's
condition, and once polls have called for less for 10 ms the channel returns. The oscillator and the background calibration count. None of these
three commands is issued while a real-time request waits. A scrub
read moves to the next granule. (R527, R534, R535, R537, R538, R539, R540, R546) -/
def Obligations.MemoryTraffic : Prop :=
  (∀ (s s0 u : State) (m t0 : Nat) (reqs : List ArbReq), s.mcLive m = true → m < 8 → Safety.shaped s → s0 = (s.at t0).arriveAll m reqs →
    (s.mcServes m = false → exec (.arbiterDecision m reqs t0) s = .next s0) ∧
    (∀ r, reqs = [r] → r.rt = false → (s0.mc m).queue = (s.mc m).queue ++ r.pieces (r.size + 1))) ∧
  (∀ r : ArbReq, ((r.pieces (r.size + 1)).map ArbReq.size).sum = r.size ∧ ∀ p ∈ r.pieces (r.size + 1), p.size ≤ 1024 ∧
    p.addr % 2 ^ 36 % 1792 + p.size ≤ 1792 ∧ p.id = r.id ∧ p.write = r.write) ∧
  (∀ (s s0 u : State) (m t0 : Nat) (reqs : List ArbReq), s.mcServes m = true → m < 8 → Safety.shaped s → s0 = (s.at t0).arriveAll m reqs →
    u = s0.arbRefresh m →
    (u.arbGrant m = none → exec (.arbiterDecision m reqs t0) s = .next u) ∧
    (∀ r forced, u.arbGrant m = some (r, forced) → ∃ t, exec (.arbiterDecision m reqs t0) s = .next t ∧ (t.mc m).grant = some r.id ∧
      (t.mc m).prevForced = forced ∧ (t.mc m).queue = (s0.mc m).queue.erase r ∧
      (∀ q ∈ (s0.mc m).queue, arbKind q.id ≠ none → (t.mc m).wait q.id =
        if q.id = r.id then 0 else satAdd 8 ((s.mc m).wait q.id) 1) ∧
      (∀ j, j ≠ m → t.mc j = s.mc j) ∧ t.mem = s.mem ∧ t.bursts = s.bursts) ∧
    (6 ≤ (s.mc m).owed → (u.mc m).owed = max (-8) ((s.mc m).owed - 1) ∧ (u.mc m).nextBank = ((s.mc m).nextBank + 1) % 16 ∧
      u.rf F.MC_REF_STAT_FORCED_REF [m] = satAdd F.MC_REF_STAT_FORCED_REF.w (s.rf F.MC_REF_STAT_FORCED_REF [m]) 1)) ∧
  (∀ (s : State) (m : Nat), s.mcLive m = true → (s.mc m).selfref = false → m < 8 → Safety.shaped s → ∃ t,
    exec (.refreshOwedTick m) s = .next t ∧ t.mc m = { s.mc m with owed := min 8 ((s.mc m).owed + 1) } ∧ (∀ j, j ≠ m → t.mc j = s.mc j) ∧
    { t with mcs := s.mcs } = s) ∧
  (∀ (s : State) (m : Nat) (v : W64), m < s.nMc →
    (Safety.writable s (F.MC_ARB_LIMIT_LIMIT.off [m]) = true → ∃ t, exec (.arbPrioWrite m true v) s = .next t ∧
      t = ({ s with held := none } : State).hostAccess.writeFields (F.MC_ARB_LIMIT_LIMIT.off [m]) v ∧
      (∀ o, o ≠ F.MC_ARB_LIMIT_LIMIT.off [m] → t.reg o = s.reg o) ∧ { t with regs := s.regs, held := s.held, host := s.host } = s ∧ t.host = s.hostAccess.host) ∧
    (Safety.writable s (F.MC_ARB_PRIO_BASE.off [m]) = true → ∃ t, exec (.arbPrioWrite m false v) s = .next t ∧
      t = ({ s with held := none } : State).hostAccess.writeFields (F.MC_ARB_PRIO_BASE.off [m]) (BitVec.ofNat 64 (clampCeil v.toNat)) ∧
      (∀ k < 8, bitsOf (clampCeil v.toNat) (8 * k + 4) 4 = min 14 (bitsOf v.toNat (8 * k + 4) 4) ∧
        bitsOf (clampCeil v.toNat) (8 * k) 4 = bitsOf v.toNat (8 * k) 4) ∧
      (∀ o, o ≠ F.MC_ARB_PRIO_BASE.off [m] → t.reg o = s.reg o) ∧ { t with regs := s.regs, held := s.held, host := s.host } = s ∧ t.host = s.hostAccess.host)) ∧
  (∀ (s : State) (m rate t0 : Nat), ((∃ r ∈ (s.mc m).queue, r.rt = true) ∨ s.mcServes m = false) → exec (.mr4Poll m rate t0) s = .next s ∧
    exec (.wck2dqOscillator m) s = .next s ∧ exec (.backgroundZqCalibration m) s = .next s) ∧
  (∀ (s : State) (m rate t0 : Nat), s.maintains m = true → m < 8 → Safety.shaped s →
    (2 < rate → ∃ t, exec (.mr4Poll m rate t0) s = .next t ∧ (t.mc m).hot = true ∧ (t.mc m).cool = none ∧ (t.mc m).mult = 4 ∧
      t.rb F.MC_STAT_HOT [m] = true ∧ (20, 13 + m, 0) ∈ t.collector.live ∧ (∀ j, j ≠ m → t.mc j = s.mc j) ∧ t.mem = s.mem ∧
      t.bursts = s.bursts) ∧
    (rate ≤ 2 → (s.mc m).hot = false → ∃ t, exec (.mr4Poll m rate t0) s = .next t ∧
      t.mc m = { s.mc m with mult := if rate ≤ 1 then 1 else 2 } ∧ t.regs = s.regs ∧ t.mem = s.mem) ∧
    (∀ a, rate ≤ 2 → (s.mc m).hot = true → a = (s.mc m).cool.getD (s.at t0).dtime →
      ((s.at t0).dtime < a + 10000000 → ∃ t, exec (.mr4Poll m rate t0) s = .next t ∧ (t.mc m).hot = true ∧ (t.mc m).cool = some a ∧
        (20, 13 + m, 0) ∉ t.collector.live ∧ t.regs = s.regs ∧ t.bursts = s.bursts ∧ t.mem = s.mem) ∧
      (a + 10000000 ≤ (s.at t0).dtime → ∃ t u : State, exec (.mr4Poll m rate t0) s = .next t ∧ t = u.scan ∧ (u.mc m).hot = false ∧
        (u.mc m).cool = none ∧ (20, 13 + m, 0) ∉ u.collector.live ∧ u.bursts = s.bursts ∧ u.mem = s.mem))) ∧
  (∀ (s : State) (m : Nat), s.mcServes m = true → m < 8 → Safety.shaped s →
    (s.maintains m = true → ∃ t, exec (.wck2dqOscillator m) s = .next t ∧ t.mc m = { s.mc m with osc := (s.mc m).osc + 1 } ∧ { t with mcs := s.mcs } = s) ∧
    (s.maintains m = true → ∃ t, exec (.backgroundZqCalibration m) s = .next t ∧ t.mc m = { s.mc m with zq := (s.mc m).zq + 1 } ∧ { t with mcs := s.mcs } = s) ∧
    (s.rb F.MC_ECC_CTL_SCRUB_EN [m] = true → ∃ t, exec (.scrubRead m) s = .next t ∧
      t.mc m = { s.mc m with scrub := ((s.mc m).scrub + 1) % max 1 (s.chanSize m / 64) } ∧ (∀ j, j ≠ m → t.mc j = s.mc j) ∧
      { t with mcs := s.mcs } = s))

/-- A read that returns clean data from a granule not known to be bad, and meets no injection, changes nothing but DTIME. One with a
corrected error is counted in CE and reported as MEM_CE; one with an uncorrectable error, or of a bad granule, is counted and
reported as MEM_UE, then acts on its requester: a fetched vector ends its burst there with MEM_UE, where its path is taken. An injection armed at its granule makes it
one or the other, and is used up. A write of MC_PPR_CTL
stores MODE, and RUN in manual mode starts the repair of the pending row next; automatic repair starts after 100 ms without
need of the channel. A repair that completes uses the bank's spare, is counted, and the next pending row follows, or the channel returns.
(R543, R544, R547, R548, R638) -/
def Obligations.MemoryErrorsAndRepair : Prop :=
  (∀ (s u : State) (m : Nat) (r : ReadRet), s.returns m r = true → u = s.at r.t →
    (r.err = 0 → s.bad.contains (r.addr / 64 * 64) = false → s.useInjection r.addr = none → exec (.readDataReturn m r) s = .next u) ∧
    (r.err = 1 → s.bad.contains (r.addr / 64 * 64) = false → s.useInjection r.addr = none → ∃ (t : State) (d : Detect),
      exec (.readDataReturn m r) s = .next t ∧ t = u.memError d ∧ d.addr = r.addr ∧ d.req = r.req ∧ d.ue = false ∧
      d.word = r.word ∧ d.syndrome = r.syndrome ∧ d.inj = false ∧ t.mem = s.mem) ∧
    (r.err = 2 ∨ s.bad.contains (r.addr / 64 * 64) = true → ∃ (t : State) (d : Detect), exec (.readDataReturn m r) s = .next t ∧
      d.addr = r.addr ∧ d.req = r.req ∧ d.ue = true ∧ d.inj = false ∧ t = (u.memError d).readUe r ∧
      (∀ b, r.req < 0x10 → ((u.memError d).sl r.sl).ent.bind (u.memError d).burst = some b → b.admitted = true → r.sl < 48 → Safety.shaped s →
        r.target = false →
        (((u.memError d).sl r.sl).seq.held = none → (t.sl r.sl).seq.cuts = ((u.memError d).sl r.sl).seq.cuts ++ [(r.vec, St.memUe)]) ∧
        (∀ hd bb, ((u.memError d).sl r.sl).seq.held = some hd → ((u.memError d).sl r.sl).seq.brbuf = some bb → hd.steer ≤ r.vec →
          (t.sl r.sl).seq.brbuf = some { bb with fall := bb.fall ++ [r.vec] } ∧ (t.sl r.sl).seq.cuts = ((u.memError d).sl r.sl).seq.cuts))) ∧
    (∀ c, r.err ≠ 2 → s.bad.contains (r.addr / 64 * 64) = false → s.collector.armed = some (r.addr / 64 * 64, c) →
      ∃ (t v : State) (d : Detect), exec (.readDataReturn m r) s = .next t ∧ v.collector.armed = none ∧ v.mem = s.mem ∧ v.bad = s.bad ∧
        d.addr = r.addr ∧ d.ue = !c ∧ d.inj = true ∧ t = (if c then v.memError d else (v.memError d).readUe r))) ∧
  (∀ (s : State) (d : Detect), d.ue = false → ∃ r : Report, (s.memError d).mem = s.mem ∧ (s.memError d).bad = s.bad ∧ r.src = 19 ∧
    r.island = 13 + d.addr / 2 ^ 36 ∧ r.addr = d.addr / 64 * 64 ∧ r.req = d.req ∧ r ∈ (s.memError d).collector.reports) ∧
  (∀ (s : State) (d : Detect), d.ue = true → ∃ r : Report, (s.memError d).mem = s.mem ∧
    (d.inj = false → (s.memError d).bad.contains (d.addr / 64 * 64) = true) ∧ r.src = 18 ∧ r.addr = d.addr / 64 * 64 ∧ r.req = d.req ∧
    r ∈ (s.memError d).collector.reports) ∧
  (∀ (s u : State) (m : Nat) (v : W64), Safety.writable s (F.MC_PPR_CTL_MODE.off [m]) = true → m < s.nMc →
    u = ({ s with held := none } : State).hostAccess.writeFields (F.MC_PPR_CTL_MODE.off [m]) v →
    { u with regs := s.regs, held := s.held, host := s.host } = s ∧ u.host = s.hostAccess.host ∧ (∀ o, o ≠ F.MC_PPR_CTL_MODE.off [m] → u.reg o = s.reg o) ∧
    (v.toNat.testBit 2 = false ∨ u.rf F.MC_PPR_CTL_MODE [m] ≠ 1 → exec (.pprRun m v) s = .next u) ∧
    (s.mcLive m = true → v.toNat.testBit 2 = true → u.rf F.MC_PPR_CTL_MODE [m] = 1 → exec (.pprRun m v) s = .next (u.startRepair m))) ∧
  (∀ (s : State) (m : Nat) (br : Nat × Nat) (rest : List (Nat × Nat)), (s.mc m).pending = br :: rest → s.mcServes m = true → m < 8 →
    Safety.shaped s → ((s.startRepair m).mc m).repair = some br ∧ ((s.startRepair m).mc m).pending = rest ∧ (s.startRepair m).places = false ∧
      (s.startRepair m).mcServes m = false ∧ (s.startRepair m).mem = s.mem) ∧
  (∀ (s : State) (m t0 : Nat), s.rf F.MC_PPR_CTL_MODE [m] = 2 → s.chanNeeded m = false → (s.mc m).idleSince + 100000000 ≤ t0 →
    exec (.pprAutoStart m t0) s = .next ((s.at t0).startRepair m)) ∧
  (∀ (s : State) (m t0 : Nat) (br : Nat × Nat), (s.mc m).repair = some br → m < 8 → Safety.shaped s →
    ((s.mc m).pending = [] → ∃ t u : State, exec (.pprComplete m t0) s = .next t ∧ t = u.chanBack ∧ (u.mc m).repair = none ∧
      (u.mc m).ppr = (s.mc m).ppr.filter (· ≠ br.1) ∧
      u.rf F.MC_PPR_STAT_USED [m] = satAdd F.MC_PPR_STAT_USED.w (s.rf F.MC_PPR_STAT_USED [m]) 1 ∧ u.dtime = (s.at t0).dtime ∧ u.mem = s.mem ∧
      u.bursts = s.bursts) ∧
    (∀ br2 rest, (s.mc m).pending = br2 :: rest → (∀ x ∈ (s.mc m).pending, x.1 ≠ br.1) → s.mcLive m = true → s.rf F.MC_STAT_RATE [m] ≠ 0 →
      s.islUp (13 + m) = true → (s.mc m).selfref = false → ∃ t, exec (.pprComplete m t0) s = .next t ∧ (t.mc m).repair = some br2 ∧
        (t.mc m).pending = rest ∧ (t.mc m).ppr = (s.mc m).ppr.filter (· ≠ br.1) ∧ t.mem = s.mem))

/-- A write of CL_n_ADC_CFG with EN and ALIGN begins the search on the port, which is unaligned meanwhile; without, it only writes the
register. A search that finds on both lanes a run of 8 or more steps at which every frame was right completes at the middle of a longest run: its
steps stand in CL_n_ADC_STAT and both chains' windows are empty; one that
does not sets ALIGN_FAIL. Which of two longest runs and of two middle steps is taken is free (log entry 34). FCLK silent for four
measured periods is lost: LOCK and ALIGNED clear, LOSS is set, source 13 raised for both chains, and the acquisitions on them end; one not silent
is not; its return locks the port, unaligned, and ends the conditions. A write of FCHAIN_kk_CTL takes
each legal field, a preset its LEN_M1 and DEC_LOG2, and restarts the window. (R341, R342, R344, R346, R374, R375) -/
def Obligations.AdcPortsAndChains : Prop :=
  (∀ (s u : State) (n : Nat) (v : W64), Safety.writable s (F.CL_ADC_CFG_EN.off [n]) = true → n < s.nCl → Safety.shaped s →
    u = ({ s with held := none } : State).hostAccess.writeFields (F.CL_ADC_CFG_EN.off [n]) v →
    (∀ o, o ≠ F.CL_ADC_CFG_EN.off [n] → u.reg o = s.reg o) ∧ { u with regs := s.regs, held := s.held, host := s.host } = s ∧ u.host = s.hostAccess.host ∧
    (u.rb F.CL_ADC_CFG_EN [n] = true → v.toNat.testBit 2 = true → ∃ t, exec (.adcAlign n v) s = .next t ∧
      t.port n = { s.port n with aligning := true, aligned := false } ∧ (∀ j, j ≠ n → t.port j = s.port j) ∧ { t with ports := s.ports } = u) ∧
    (u.rb F.CL_ADC_CFG_EN [n] = false ∨ v.toNat.testBit 2 = false → exec (.adcAlign n v) s = .next u)) ∧
  (∀ (s : State) (n m0 m1 t0 : Nat), (s.port n).aligning = true → n < 12 → Safety.shaped s →
    ((∃ r ∈ alignRuns m0, 8 ≤ r.2) → (∃ r ∈ alignRuns m1, 8 ≤ r.2) → ∃ (t : State) (d0 d1 : Nat),
      exec (.adcAlignmentComplete n m0 m1 t0) s = .next t ∧ phaseStep m0 (Config.freeValue s.freeCtr) = some d0 ∧
      phaseStep m1 (Config.freeValue (s.freeCtr + 1)) = some d1 ∧ t.rf F.CL_ADC_STAT_DLY0 [n] = d0 ∧ t.rf F.CL_ADC_STAT_DLY1 [n] = d1 ∧
      t.port n = { s.port n with aligning := false, aligned := (s.port n).lock } ∧ (∀ j, j ≠ n → t.port j = s.port j) ∧
      (∀ k, k / 2 = n → (t.chain k).win = [] ∧ (t.chain k).fill = s.cf F.FCHAIN_CTL_LEN_M1 k + 1) ∧
      (∀ k, k / 2 ≠ n → t.chain k = s.chain k) ∧ t.mem = s.mem) ∧
    ((∀ r ∈ alignRuns m0, r.2 < 8) ∨ (∀ r ∈ alignRuns m1, r.2 < 8) → ∃ t, exec (.adcAlignmentComplete n m0 m1 t0) s = .next t ∧
      t.rb F.CL_ADC_STAT_ALIGN_FAIL [n] = true ∧ t.port n = { s.port n with aligning := false, aligned := false } ∧
      (∀ j, j ≠ n → t.port j = s.port j) ∧ t.chains = s.chains ∧ t.mem = s.mem)) ∧
  (∀ (m free d : Nat), phaseStep m free = some d → ∃ i len, (i, len) ∈ alignRuns m ∧ 8 ≤ len ∧ (∀ r ∈ alignRuns m, r.2 ≤ len) ∧ i + len ≤ 32 ∧
    (∀ j < len, m.testBit (i + j) = true) ∧ i ≤ d ∧ 2 * (d - i) ≤ len ∧ len ≤ 2 * (d - i) + 2) ∧
  (∀ (s : State) (n t0 : Nat), (s.port n).lock = true → s.islUp n = true → n < 12 → Safety.shaped s →
    ((s.port n).silent t0 = true → ∃ t u : State, exec (.fclkLoss n t0) s = .next t ∧
      u.port n = { s.port n with lock := false, aligned := false, aligning := false, last := none } ∧ (∀ j, j ≠ n → u.port j = s.port j) ∧
      u.rb F.CL_ADC_STAT_LOSS [n] = true ∧ (13, n, 0) ∈ u.collector.live ∧ (13, n, 1) ∈ u.collector.live ∧ u.chains = s.chains ∧
      u.acqs = s.acqs ∧ u.mem = s.mem ∧ t = ((s.acqs.filter (fun a => a.running && (a.chains.testBit (2 * n) ||
        a.chains.testBit (2 * n + 1)))).map Acq.site).foldl (fun s i => s.stopAcq i St.hwFault t0) u) ∧
    (∀ l, (s.port n).last = some l → (s.port n).period ≠ 0 → 1000 * t0 < 250 * l + 4 * (s.port n).period →
      exec (.fclkLoss n t0) s = .next s)) ∧
  (∀ (s : State) (n t0 : Nat), (s.port n).lock = false → s.islUp n = true → s.rb F.CL_ADC_CFG_EN [n] = true → n < 12 → Safety.shaped s →
    ∃ t, exec (.fclkReturn n t0) s = .next t ∧ t.port n = { s.port n with lock := true } ∧ (∀ j, j ≠ n → t.port j = s.port j) ∧
      (13, n, 0) ∉ t.collector.live ∧ (13, n, 1) ∉ t.collector.live ∧ t.dtime = (s.at t0).dtime ∧ t.regs = s.regs ∧ t.chains = s.chains ∧
      t.mem = s.mem) ∧
  (∀ (s : State) (k : Nat) (v : W64) (i : Instr), i ∈ [Instr.chainPreset k v, .fchainEnable k v] →
    Safety.writable s (F.FCHAIN_CTL_EN.off (cIdx k)) = true → k < s.nChain → Safety.shaped s → ∃ t, exec i s = .next t ∧
      t.cf F.FCHAIN_CTL_EN k = fget v F.FCHAIN_CTL_EN.lo F.FCHAIN_CTL_EN.w ∧
      (fget v F.FCHAIN_CTL_PRESET.lo 3 = 0 ∨ 4 < fget v F.FCHAIN_CTL_PRESET.lo 3 →
        t.cf F.FCHAIN_CTL_LEN_M1 k = fget v F.FCHAIN_CTL_LEN_M1.lo F.FCHAIN_CTL_LEN_M1.w ∧
        (fget v F.FCHAIN_CTL_DEC_LOG2.lo F.FCHAIN_CTL_DEC_LOG2.w ≤ 20 →
          t.cf F.FCHAIN_CTL_DEC_LOG2 k = fget v F.FCHAIN_CTL_DEC_LOG2.lo F.FCHAIN_CTL_DEC_LOG2.w) ∧
        (20 < fget v F.FCHAIN_CTL_DEC_LOG2.lo F.FCHAIN_CTL_DEC_LOG2.w → t.cf F.FCHAIN_CTL_DEC_LOG2 k = s.cf F.FCHAIN_CTL_DEC_LOG2 k)) ∧
      (fget v F.FCHAIN_CTL_PRESET.lo 3 = 1 → t.cf F.FCHAIN_CTL_LEN_M1 k = 15 ∧ t.cf F.FCHAIN_CTL_DEC_LOG2 k = 2) ∧
      (fget v F.FCHAIN_CTL_PRESET.lo 3 = 2 → t.cf F.FCHAIN_CTL_LEN_M1 k = 127 ∧ t.cf F.FCHAIN_CTL_DEC_LOG2 k = 5) ∧
      (fget v F.FCHAIN_CTL_PRESET.lo 3 = 3 → t.cf F.FCHAIN_CTL_LEN_M1 k = 1023 ∧ t.cf F.FCHAIN_CTL_DEC_LOG2 k = 8) ∧
      (fget v F.FCHAIN_CTL_PRESET.lo 3 = 4 → t.cf F.FCHAIN_CTL_LEN_M1 k = 4095 ∧ t.cf F.FCHAIN_CTL_DEC_LOG2 k = 10) ∧
      (t.chain k).win = [] ∧ (t.chain k).fill = t.cf F.FCHAIN_CTL_LEN_M1 k + 1 ∧ (t.chain k).n = 0 ∧ (t.chain k).env = 0 ∧
      (s.cf F.FCHAIN_CTL_EN k = 0 → t.cf F.FCHAIN_CTL_EN k = 1 → (t.chain k).m = none) ∧ (∀ j, j ≠ k → t.chain j = s.chain j) ∧
      (∀ o, o ≠ F.FCHAIN_CTL_EN.off (cIdx k) → t.reg o = s.reg o) ∧ { t with regs := s.regs, held := s.held, host := s.host, chains := s.chains } = s ∧ t.host = s.hostAccess.host)

/-- A chain that takes no samples ignores one; its port measures the period of its frames, and shows a full-scale code. A chain that does shifts the sample, less the DC estimate where it is removed, into its window of
LEN_M1 + 1, puts A at 128 times the window's mean to the nearest, and counts FILL down; under TRACK the estimate moves by the
difference over 2^DCK, to one of the two neighbours (free, log entry 22), unless FREEZE_BURST holds it while a burst of the site runs; else it
stays. A code at full scale sets SAT. Outside
FILL a first A above the high threshold of a chain with TRIP_EN turns off its cluster's DUTPWR_EN and sets TRIP. The power-up and
recovery windows of a chain end at their time. (R341, R343, R344, R345, R348, R349, R350, R372) -/
def Obligations.SamplesFiltered : Prop :=
  (∀ (s : State) (k code t0 : Nat), s.chainRuns k = false → exec (.adcSample k code t0) s = .next (s.portFrame k code t0)) ∧
  (∀ (s u : State) (k code t0 : Nat), u = s.portFrame k code t0 → (s.portRuns k = false → u = s) ∧
    (s.portRuns k = true → Safety.shaped s → u.dtime = (s.at (t0 / 4)).dtime ∧ u.chains = s.chains ∧ u.mem = s.mem ∧
      (∀ j, j ≠ k / 2 → u.port j = s.port j) ∧
      (∀ l, (s.port (k / 2)).lock = true → (s.port (k / 2)).last = some l → l < t0 → (u.port (k / 2)).period = 250 * (t0 - l) ∧
        (u.port (k / 2)).last = some t0) ∧
      ((s.port (k / 2)).aligned = true → s.adcCode (k / 2) code = 32767 ∨ s.adcCode (k / 2) code = -32768 →
        u.rb (if k % 2 = 0 then F.CL_ADC_STAT_SAT0 else F.CL_ADC_STAT_SAT1) [k / 2] = true))) ∧
  (∀ (s : State) (k code t0 : Nat) (x m0 y a : Int) (win : List Int), s.chainRuns k = true → Safety.shaped s →
    x = (if s.cf F.FCHAIN_CTL_SELFTEST k = 1 then testSignal (s.chain k).test
      else toSigned 16 (if s.rb F.CL_ADC_CFG_FMT [k / 2] then code ^^^ 0x8000 else code)) →
    m0 = (s.chain k).m.getD (x * 2 ^ 24) → y = (if s.cf F.FCHAIN_CTL_DCMODE k = 0 then x else x - roundDiv m0 (2 ^ 24)) →
    win = (y :: (s.chain k).win).take (s.cf F.FCHAIN_CTL_LEN_M1 k + 1) → a = roundDiv (128 * win.sum) win.length →
    ∃ (t : State) (m1 : Int), exec (.adcSample k code t0) s = .next t ∧ t.dtime = (s.at (t0 / 4)).dtime ∧ (t.chain k).win = win ∧
      (t.chain k).a = a ∧ (t.chain k).fill = (s.chain k).fill - 1 ∧ (t.chain k).m = some m1 ∧
      (s.cf F.FCHAIN_CTL_DCMODE k ≠ 1 ∨ (s.chain k).frozen = true ∧ s.cf F.FCHAIN_CTL_FREEZE_BURST k = 1 → m1 = m0) ∧
      (s.cf F.FCHAIN_CTL_DCMODE k = 1 → (s.chain k).frozen = false ∨ s.cf F.FCHAIN_CTL_FREEZE_BURST k = 0 →
        m1 = m0 + (x * 2 ^ 24 - m0) / 2 ^ s.cf F.FCHAIN_CTL_DCK k ∨
        (m1 = m0 + (x * 2 ^ 24 - m0) / 2 ^ s.cf F.FCHAIN_CTL_DCK k + 1 ∧ (x * 2 ^ 24 - m0) % 2 ^ s.cf F.FCHAIN_CTL_DCK k ≠ 0)) ∧
      (x = 32767 ∨ x = -32768 → t.rb F.FCHAIN_STAT_SAT (cIdx k) = true) ∧
      ((s.chain k).fill = 0 → (s.chain k).hiQuiet = false → toSigned 24 (s.cf F.FCHAIN_THR_HI k) < a → s.cf F.FCHAIN_CTL_TRIP_EN k = 1 →
        (t.pe.getD (k / 2) {}).dutpwr = false ∧ t.rb F.FCHAIN_STAT_TRIP (cIdx k) = true) ∧
      (∀ j, j ≠ k → t.chain j = s.chain j) ∧ ((s.chain k).acq = none → t.mem = s.mem)) ∧
  (∀ (s : State) (k t0 : Nat), k < 24 → Safety.shaped s → ∃ t, exec (.mmWindowEnd k t0) s = .next t ∧
    t.chain k = { s.chain k with powUntil := (s.chain k).powUntil.filter (fun u => t0 < u)
                                 recUntil := (s.chain k).recUntil.filter (fun u => t0 < u) } ∧
    (∀ j, j ≠ k → t.chain j = s.chain j) ∧ { t with chains := s.chains, dtime := s.dtime } = s ∧ t.dtime = (s.at t0).dtime)

/-- ACQUIRE completes with the first status whose check fails, an absent or retired chain before all others. One that passes sets up the
acquisition for its site and chains; with a burst, or a start ahead, it waits for that. At its start the region restarts, and
every chain of it begins with no block, 4,096 bytes of credit and its number 0. At its duration's end it stops: its chains are
free. An engine writes its oldest block into the next slot of its region, which then holds those bytes, and the acquisition
counts it; a block whose write meets an uncorrectable error is lost, and the acquisition carries REDUCED; with no block, or a channel under repair, nothing happens.
(R281, R352, R353, R355, R356, R357, R358, R359, R411, R548) -/
def Obligations.AcquisitionsRun : Prop :=
  (∀ (s : State) (sq idx st : Nat) (d : Desc) (q : AcqReq), Safety.ready s sq idx 0x28 d →
    q = { site := fld d.bytes 16 2, withBurst := (fld d.bytes 18 1).testBit 0, region := fld d.bytes 20 4, chains := fld d.bytes 24 3,
          duration := fld d.bytes 32 8, start := fld d.bytes 40 8 } →
    st = s.acqRefusal q (decide (fld d.bytes 18 1 < 2) && zeroes d.bytes 19 1 && zeroes d.bytes 27 5 && zeroes d.bytes 48 16) →
    ((∃ k ∈ bitList 24 q.chains, s.nChain ≤ k ∨ s.chainsBad.contains k = true) → exec (.acquire sq idx) s =
      .next (s.complete sq idx { status := St.absent, body := noAcqBody })) ∧
    (st ≠ 0 → ∃ t, exec (.acquire sq idx) s = .next t ∧ t = s.complete sq idx { status := st, body := noAcqBody } ∧ t.acqs = s.acqs ∧ t.mem = s.mem) ∧
    (st = 0 → ∃ (t u : State) (a : Acq), exec (.acquire sq idx) s = .next t ∧ u.acqs = s.acqs ++ [a] ∧ a.site = q.site ∧ a.region = q.region ∧
      a.chains = q.chains ∧ a.withBurst = q.withBurst ∧ a.duration = q.duration ∧ a.start = q.start ∧ a.owner = .desc sq idx ∧
      a.running = false ∧ u.desc sq idx = some { d with started := true } ∧ u.regs = s.regs ∧ u.mem = s.mem ∧ u.chains = s.chains ∧
      t = (if q.withBurst = true ∨ s.dtime < q.start then u else u.startAcq q.site s.dtime))) ∧
  (∀ (s : State) (site t0 : Nat) (a : Acq), s.acq site = some a → a.running = false → a.withBurst = false → a.stopAt = none → a.start ≤ t0 →
    Safety.shaped s → ∃ t, exec (.acquisitionStart site t0) s = .next t ∧ t.acq site = some { a with running := true, startAt := t0 } ∧
      (∀ k ∈ bitList 24 a.chains, (t.chain k).acq = some site ∧ (t.chain k).seq = 0 ∧ (t.chain k).blk = none ∧ (t.chain k).gap = false ∧
        (t.chain k).credit = (4096 * creditUnit : Nat)) ∧
      t.dtime = (s.at t0).dtime ∧ (∀ r, s.region a.region = some r → Safety.clean s (devAddr r.chan r.base) →
        t.region a.region = some r.restart ∧ (s.mirroring = false → t.regs = s.regs))) ∧
  (∀ (s : State) (site t0 sq idx : Nat) (a : Acq), s.acq site = some a → a.running = true → a.withBurst = false → a.stopAt = none →
    a.startAt + a.duration ≤ t0 → a.owner = .desc sq idx → Safety.shaped s → ∃ t, exec (.acquisitionStop site t0) s = .next t ∧
      t = (s.at t0).stopAcq site St.ok t0 ∧ (∀ k ∈ bitList 24 a.chains, (t.chain k).acq = none ∧ (t.chain k).blk = none) ∧
      (∀ b, t.acq site = some b → b.running = false ∧ b.stopAt = some (St.ok, t0))) ∧
  (∀ (s : State) (e : Nat) (ue : Bool), s.sbufs.getD e [] = [] → exec (.sampleBlockWrite e ue) s = .next s) ∧
  (∀ (s : State) (e : Nat) (ue : Bool) (b : SBlk) (rest : List SBlk), s.sbufs.getD e [] = b :: rest → s.region b.region = none →
    exec (.sampleBlockWrite e ue) s = .next { s with sbufs := s.sbufs.set e rest }) ∧
  (∀ (s : State) (e : Nat) (ue : Bool) (b : SBlk) (rest : List SBlk) (r : Region), s.sbufs.getD e [] = b :: rest → s.region b.region = some r →
    r.lost = false → (s.mc r.chan).repair ≠ none → exec (.sampleBlockWrite e ue) s = .next s) ∧
  (∀ (s : State) (e : Nat) (b : SBlk) (rest : List SBlk) (r r1 : Region) (k : Nat) (x : Bool) (a : Acq), s.sbufs.getD e [] = b :: rest →
    s.region b.region = some r → r.lost = false → (s.mc r.chan).repair = none → r.place b.linear true = (some k, r1, x) → r1.state = r.state →
    s.acq b.site = some a → a.stopAt = none → ∃ t, exec (.sampleBlockWrite e false) s = .next t ∧ t.sbufs = s.sbufs.set e rest ∧
      t.mem = Memory.write s.mem (devAddr r.chan (r.base + (64 + 64 * k))) b.bytes ∧ t.region b.region = some r1 ∧
      (∀ i, i ≠ b.region → t.region i = s.region i) ∧ t.acq b.site = some { a with blocks := satAdd 32 a.blocks 1 } ∧ t.chains = s.chains ∧
      (s.mirroring = false → t.regs = s.regs)) ∧
  (∀ (s : State) (e : Nat) (b : SBlk) (rest : List SBlk) (r r1 : Region) (k : Nat) (x : Bool) (a : Acq), s.sbufs.getD e [] = b :: rest →
    s.region b.region = some r → r.lost = false → (s.mc r.chan).repair = none → r.place b.linear false = (some k, r1, x) → r1.state = r.state →
    s.acq b.site = some a → a.stopAt = none → ∃ (t : State) (p : Report), exec (.sampleBlockWrite e true) s = .next t ∧ t.acq b.site = some { a with qual := a.qual ||| 4 } ∧
      (t.region b.region).map Region.lostCount = some (satAdd 32 r1.lostCount 1) ∧ p ∈ t.collector.reports ∧ p.src = 18 ∧ p.req = 0x60 + e ∧
      t.mem = s.mem)

/-- A write of CL_n_TRG_u_CTL takes its fields, and with ARM and a MODE that is not off arms the unit from now. An event on its way
that arrives leaves the way: an armed unit that was armed by its stamp opens a firing with it as the first candidate, is armed no
more, and the region that waits for it ends its pre-trigger phase, 60 ns later in another cluster; an open one takes it as a further candidate if
the arming it opened under came by then; a unit
that is off takes nothing; a stamp within the window of the last firing sets LATE. After CWIN and the wait the unit
decides: T0 is the least stamp, on the time scale, MASK the sources within CWIN of it, PRIMARY the lowest of them, SEQ one higher. In
MODE 2 it arms again after the window or HOLDOFF. A pulse of TRIG_OUT ends after its time. (R360, R361, R364, R365, R366,
R367, R370, R371, R573, R587) -/
def Obligations.TriggersFire : Prop :=
  (∀ (s w0 w : State) (n u : Nat) (v : W64), Safety.writable s (F.CL_TRG_CTL_ARM.off [n, u]) = true → n < s.nCl → u < 8 → Safety.shaped s →
    w0 = ({ s with held := none } : State).hostAccess.writeFields (F.CL_TRG_CTL_ARM.off [n, u]) v → w = w0.keepAwake →
    { w0 with regs := s.regs, held := s.held, host := s.host } = s ∧ w0.host = s.hostAccess.host ∧
    (∀ o, o ≠ F.CL_TRG_CTL_ARM.off [n, u] → w0.reg o = s.reg o) ∧ (w0.linksHeld = false → w = w0) ∧
    (v.toNat.testBit 2 = true → w.rf F.CL_TRG_CTL_MODE [n, u] ≠ 0 → ∃ t, exec (.trigArm n u v) s = .next t ∧ { t with trigs := s.trigs } = w ∧
      (∀ j, j ≠ 8 * n + u → t.trig j = s.trig j) ∧
      t.trig (8 * n + u) = { s.trig (8 * n + u) with armed := true, armedAt := 2000 * s.dtime }) ∧
    (v.toNat.testBit 2 = false ∨ w.rf F.CL_TRG_CTL_MODE [n, u] = 0 → exec (.trigArm n u v) s = .next w)) ∧
  (∀ (s w : State) (n u k src stamp arr : Nat) (x : Trig), k = 8 * n + u → s.trigEv.contains (k, src, stamp) = true → n < 12 → u < 8 →
    Safety.shaped s → x = s.trig k → w = { s.at (arr / 2000) with trigEv := s.trigEv.erase (k, src, stamp) } →
    (s.rf F.CL_TRG_CTL_MODE [n, u] = 0 ∨ s.power.lull ≠ 0 → exec (.triggerEventArrival n u src stamp arr) s = .next w) ∧
    (s.rf F.CL_TRG_CTL_MODE [n, u] ≠ 0 → s.power.lull = 0 → (∀ t0, x.t0 = some t0 → stamp < t0 ∨ t0 + s.cwin k ≤ stamp) →
      (x.openAt = none → x.armed = true → x.armedAt ≤ stamp → ∃ t, exec (.triggerEventArrival n u src stamp arr) s = .next t ∧
        t.trig k = { x with armed := false, openAt := some arr, openArmed := x.armedAt, cands := [(src, stamp)] } ∧
        (∀ j, j ≠ k → t.trig j = s.trig j) ∧ t.regs = s.regs ∧ t.mem = s.mem ∧ t.sites = s.sites ∧
        (s.trigWaiting k = [] → { t with trigs := s.trigs } = w) ∧
        (∀ r, s.trigWaiting k = [r] → s.region r.id = some r →
          (s.regionCl r = n → ∃ r', t.region r.id = some r' ∧ r'.state = 2 ∧ r'.linear = true ∧ r'.awaits = true) ∧
          (s.regionCl r ≠ n → t.region r.id = some { r with fireAt := some (arr + 120000) }))) ∧
      (x.openAt ≠ none → x.openArmed ≤ stamp → ∃ t, exec (.triggerEventArrival n u src stamp arr) s = .next t ∧
        t.trig k = { x with cands := x.cands ++ [(src, stamp)] } ∧ (∀ j, j ≠ k → t.trig j = s.trig j) ∧ { t with trigs := s.trigs } = w) ∧
      (x.openAt ≠ none ∧ stamp < x.openArmed ∨ x.openAt = none ∧ (x.armed = false ∨ stamp < x.armedAt) →
        exec (.triggerEventArrival n u src stamp arr) s = .next w)) ∧
    (∀ t0, s.rf F.CL_TRG_CTL_MODE [n, u] ≠ 0 → s.power.lull = 0 → x.t0 = some t0 → t0 ≤ stamp → stamp < t0 + s.cwin k → x.openAt = none →
      x.armed = false → ∃ t, exec (.triggerEventArrival n u src stamp arr) s = .next t ∧ t.rb F.CL_TRG_STAT_LATE [n, u] = true ∧
        t.trig k = { x with fired := x.fired.map (fun r => setFld r 30 1 1) } ∧ (∀ j, j ≠ k → t.trig j = s.trig j) ∧
        { t with regs := s.regs, trigs := s.trigs, regions := s.regions } = w)) ∧
  (∀ (s : State) (n u src stamp arr : Nat), s.trigEv.contains (8 * n + u, src, stamp) = false →
    exec (.triggerEventArrival n u src stamp arr) s = .next s) ∧
  (∀ (s : State) (n u t1 a1 t0 mask : Nat) (c : Nat × Nat) (cs : List (Nat × Nat)), (s.trig (8 * n + u)).openAt = some a1 →
    a1 + s.cwin (8 * n + u) + s.trigWait (8 * n + u) ≤ t1 → n < 12 → u < 8 → Safety.shaped s → (s.trig (8 * n + u)).cands = cs → c ∈ cs →
    c.2 = t0 → (∀ x ∈ cs, t0 ≤ x.2 ∧ x.1 < 64) → mask = maskOf ((cs.filter (fun c => c.2 < t0 + s.cwin (8 * n + u))).map (·.1)) →
    ∃ t, exec (.triggerDecision n u t1) s = .next t ∧ t.dtime = (s.at (t1 / 2000)).dtime ∧
      t.rf F.CL_TRG_TIME_T0 [n, u] = s.scaled t0 / 2000 % 2 ^ 64 ∧ t.rf F.CL_TRG_STAT_FRAC [n, u] = s.scaled t0 % 2000 ∧ t.rf F.CL_TRG_MASK_MASK [n, u] = mask ∧
      mask.testBit (t.rf F.CL_TRG_STAT_PRIMARY [n, u]) = true ∧ (∀ j < t.rf F.CL_TRG_STAT_PRIMARY [n, u], mask.testBit j = false) ∧
      t.rf F.CL_TRG_STAT_SEQ [n, u] = (s.rf F.CL_TRG_STAT_SEQ [n, u] + 1) % 2 ^ 32 ∧ (t.trig (8 * n + u)).openAt = none ∧
      (t.trig (8 * n + u)).cands = [] ∧ (t.trig (8 * n + u)).t0 = some t0 ∧ (t.trig (8 * n + u)).armed = (s.trig (8 * n + u)).armed ∧
      (∀ j, j ≠ 8 * n + u → t.trig j = s.trig j) ∧ t.sites = s.sites) ∧
  (∀ (s : State) (n u t1 : Nat), (s.trig (8 * n + u)).openAt = none → exec (.triggerDecision n u t1) s = .next s) ∧
  (∀ (s : State) (n u t1 t0 at_ : Nat), (s.trig (8 * n + u)).t0 = some t0 → s.rf F.CL_TRG_CTL_MODE [n, u] = 2 →
    (s.trig (8 * n + u)).armed = false → (s.trig (8 * n + u)).openAt = none →
    at_ = t0 + max (s.cwin (8 * n + u)) (200000 * s.rf F.CL_TRG_CTL_HOLDOFF [n, u]) → at_ ≤ t1 → n < 12 → u < 8 → Safety.shaped s →
    ∃ t, exec (.triggerRearm n u t1) s = .next t ∧ t.trig (8 * n + u) = { s.trig (8 * n + u) with armed := true, armedAt := at_ } ∧
      (∀ j, j ≠ 8 * n + u → t.trig j = s.trig j) ∧ { t with trigs := s.trigs, dtime := s.dtime } = s ∧ t.dtime = (s.at (t1 / 2000)).dtime) ∧
  (∀ (s : State) (j t1 e : Nat), s.trigOut.getD j none = some e →
    (e ≤ t1 → exec (.trigOutPulseEnd j t1) s = .next { s with dtime := (s.at t1).dtime, trigOut := s.trigOut.set j none }) ∧
    (t1 < e → exec (.trigOutPulseEnd j t1) s = .next s))

/-- MEASURE_INTERVAL completes with the first status whose check fails, an absent or retired meter before all others; one that passes
sets the meter up, which arms at once where neither a burst nor a time is waited for. METER_ARM arms it at ARM_AT. An edge that counts is one of
a sampled source within the bounds of an armed meter, 0.5 ns or more after the last of its input; a closer one only sets MERGED, and one of a mark
is no command's. Of an unsigned measurement the first on the start input becomes the first edge; the stop edge that is
the last of STOP_N and no less than the interval's minimum ends it with OK: RESULT holds the interval to the nearest
LSB with VALID, and DONE counts it, but for a supply dip. A signed measurement ends with its second edge. TIMEOUT and overflow
end it with TIMEOUT and no result; ABORT ends it, and does nothing to an idle meter. (R377, R379, R381, R382, R383, R384,
R385, R386, R387, R388, R389, R394) -/
def Obligations.IntervalsMeasured : Prop :=
  (∀ (s : State) (sq idx st k : Nat) (d : Desc) (c : List Byte), Safety.ready s sq idx 0x29 d → c = slice d.bytes 16 24 → Safety.shaped s →
    k = 4 * mcCluster c + mcMeter c → st = s.measRefusal c (zeroes d.bytes 40 24) →
    (s.nCl ≤ mcCluster c ∨ s.nMeter ≤ mcMeter c ∨ s.metersBad.contains k = true → exec (.measureInterval sq idx) s =
      .next (s.complete sq idx { status := St.absent, body := noMeasBody k })) ∧
    (st ≠ 0 → ∃ t, exec (.measureInterval sq idx) s = .next t ∧ t = s.complete sq idx { status := st, body := noMeasBody k } ∧ t.meters = s.meters ∧ t.mem = s.mem) ∧
    (st = 0 → ∃ t, exec (.measureInterval sq idx) s = .next t ∧ (∀ j, j ≠ k → t.meter j = s.meter j) ∧ t.mem = s.mem ∧
      t.desc sq idx = some { d with started := true } ∧ t.rf F.CL_IMTR_STAT_SITE_ID (mIdx k) = mcSite c ∧
      t.meter k = (if mcWithBurst c = true ∨ s.dtime < mcArmAt c then
        { state := 1, cfg := c, owner := .desc sq idx, arm := mcArmAt c, setAt := s.dtime }
        else { state := 2, cfg := c, owner := .desc sq idx, arm := s.dtime, setAt := s.dtime }))) ∧
  (∀ (s : State) (n i t0 : Nat), (s.meter (4 * n + i)).state = 1 → mcWithBurst (s.meter (4 * n + i)).cfg = false →
    mcArmAt (s.meter (4 * n + i)).cfg ≤ t0 → 4 * n + i < 48 → Safety.shaped s → ∃ t, exec (.meterArm n i t0) s = .next t ∧
      t.meter (4 * n + i) = { s.meter (4 * n + i) with state := 2, arm := mcArmAt (s.meter (4 * n + i)).cfg } ∧
      (∀ j, j ≠ 4 * n + i → t.meter j = s.meter j) ∧ { t with meters := s.meters, dtime := s.dtime } = s ∧ t.dtime = (s.at t0).dtime) ∧
  (∀ (s : State) (n i : Nat) (stop : Bool) (tick ph : Nat), (s.meter (4 * n + i)).state = 0 ∨
    selMark (if stop then mcStop (s.meter (4 * n + i)).cfg else mcStart (s.meter (4 * n + i)).cfg) = true →
    exec (.meterEdge n i stop tick ph) s = .next s) ∧
  (∀ (s : State) (n i k coarse tick ph time sel : Nat) (stop : Bool) (m : Meter) (e : MEdge), k = 4 * n + i → m = s.meter k → k < 48 →
    Safety.shaped s → sel = (if stop then mcStop m.cfg else mcStart m.cfg) → selMark sel = false →
    tick = coarse - (if 0x50 ≤ sel then s.rf (F.CL_TRIGIN_DSK_DSK.at (sel % 4)) [n] else 0) →
    time = 1024 * tick + (if stop then (s.imcalOf k).posStop else (s.imcalOf k).posStart).getD ph (16 * ph) →
    e = { time := time, sampled := true, tick := tick, phase := ph } → 2 ≤ m.state →
    ((if stop then m.lastStop else m.lastStart).any (fun l => decide (l ≤ time) && decide (time < l + 2048)) = true →
      ∃ t, exec (.meterEdge n i stop coarse ph) s = .next t ∧ t.rb F.CL_IMTR_STAT_MERGED (mIdx k) = true ∧
        t.meter k = (if stop then { m with lastStop := some time } else { m with lastStart := some time }) ∧
        (∀ j, j ≠ k → t.meter j = s.meter j) ∧ t.dtime = (s.at (time / 4096)).dtime ∧ t.mem = s.mem ∧ t.host = s.host) ∧
    ((if stop then m.lastStop else m.lastStart).any (fun l => decide (l ≤ time) && decide (time < l + 2048)) = false →
      4096 * m.arm ≤ time → time < m.bound →
      (mcSigned m.cfg = false → stop = false → m.first = none → m.early = [] → ∃ t, exec (.meterEdge n i stop coarse ph) s = .next t ∧
        t.meter k = { m with lastStart := some time, first := some e, state := 3 } ∧ (∀ j, j ≠ k → t.meter j = s.meter j) ∧
        { t with meters := s.meters, dtime := s.dtime } = s ∧ t.dtime = (s.at (time / 4096)).dtime) ∧
      (mcSigned m.cfg = false → stop = true → m.first = none → ∃ t, exec (.meterEdge n i stop coarse ph) s = .next t ∧
        t.meter k = { m with lastStop := some time, early := m.early ++ [e] } ∧ (∀ j, j ≠ k → t.meter j = s.meter j) ∧
        { t with meters := s.meters, dtime := s.dtime } = s) ∧
      (∀ a q, mcSigned m.cfg = false → stop = true → m.first = some a → q = interval (toSigned 16 (s.imcalOf k).offset) a e → m.stops + 1 ≤ 65535 →
        (q < 0 ∨ mcStart m.cfg = mcStop m.cfg ∧ q < 2048 → ∃ t, exec (.meterEdge n i stop coarse ph) s = .next t ∧
          t.meter k = { m with lastStop := some time } ∧ { t with meters := s.meters, dtime := s.dtime } = s) ∧
        (0 ≤ q → mcStart m.cfg ≠ mcStop m.cfg ∨ 2048 ≤ q → m.stops + 1 ≠ mcStopN m.cfg → ∃ t, exec (.meterEdge n i stop coarse ph) s = .next t ∧
          t.meter k = { m with lastStop := some time, stops := m.stops + 1, stopE := some e } ∧
          { t with meters := s.meters, dtime := s.dtime } = s) ∧
        (∀ sq idx, 0 ≤ q → mcStart m.cfg ≠ mcStop m.cfg ∨ 2048 ≤ q → m.stops + 1 = mcStopN m.cfg → m.owner = .desc sq idx →
          ∃ t, exec (.meterEdge n i stop coarse ph) s = .next t ∧ (t.meter k).state = 0 ∧
          t.rf F.CL_IMTR_RES_RESULT (mIdx k) = resultWord (some q) false false false ∧
          t.rf F.CL_IMTR_COUNT_DONE (mIdx k) = (if m.dip || s.dipAt (time / 4096) then s.rf F.CL_IMTR_COUNT_DONE (mIdx k)
            else satAdd F.CL_IMTR_COUNT_DONE.w (s.rf F.CL_IMTR_COUNT_DONE (mIdx k)) 1) ∧
          t.rf F.CL_IMTR_COUNT_TIMEOUTS (mIdx k) = s.rf F.CL_IMTR_COUNT_TIMEOUTS (mIdx k) ∧ (∀ j, j ≠ k → t.meter j = s.meter j) ∧
          t.desc sq idx = none ∧ t.mem = s.mem)) ∧
      (∀ b sq idx, mcSigned m.cfg = true → m.owner = .desc sq idx → (if stop then m.stopE else m.first) = none →
        (if stop then m.first else m.stopE) = some b → ∃ t, exec (.meterEdge n i stop coarse ph) s = .next t ∧ (t.meter k).state = 0 ∧
          t.rf F.CL_IMTR_RES_RESULT (mIdx k) = resultWord (some (if stop then interval (toSigned 16 (s.imcalOf k).offset) b e
            else interval (toSigned 16 (s.imcalOf k).offset) e b)) false false false ∧ t.desc sq idx = none ∧ t.mem = s.mem))) ∧
  (∀ (s : State) (n i t0 k sq idx : Nat) (m : Meter) (c : Instr), k = 4 * n + i → m = s.meter k → k < 48 → Safety.shaped s → 2 ≤ m.state →
    m.bound ≤ 4096 * t0 → m.owner = .desc sq idx → (c = .meterTimeout n i t0 ∧ mcTimeout m.cfg ≠ 0 ∨ c = .meterOverflow n i t0 ∧ mcTimeout m.cfg = 0) →
    ∃ t, exec c s = .next t ∧ (t.meter k).state = 0 ∧
      t.dtime = (s.at t0).dtime ∧ t.rf F.CL_IMTR_RES_RESULT (mIdx k) =
        resultWord none (decide (mcTimeout m.cfg ≠ 0)) (decide (mcTimeout m.cfg = 0)) m.first.isNone ∧
      t.rf F.CL_IMTR_COUNT_TIMEOUTS (mIdx k) = satAdd F.CL_IMTR_COUNT_TIMEOUTS.w (s.rf F.CL_IMTR_COUNT_TIMEOUTS (mIdx k)) 1 ∧
      t.rf F.CL_IMTR_COUNT_DONE (mIdx k) = s.rf F.CL_IMTR_COUNT_DONE (mIdx k) ∧ (∀ j, j ≠ k → t.meter j = s.meter j) ∧
      t.desc sq idx = none ∧ t.mem = s.mem) ∧
  (∀ (s : State) (n i : Nat) (v : W64), Safety.writable s (F.CL_IMTR_CTL_ABORT.off [n, i]) = true → n < s.nCl → i < s.nMeter →
    Safety.shaped s →
    (v.toNat.testBit 0 = false ∨ (s.meter (4 * n + i)).state = 0 → exec (.imeterAbort n i v) s = .next ({ s with held := none } : State).hostAccess) ∧
    (∀ sq idx, v.toNat.testBit 0 = true → (s.meter (4 * n + i)).state ≠ 0 → (s.meter (4 * n + i)).owner = .desc sq idx →
      ∃ t, exec (.imeterAbort n i v) s = .next t ∧ (t.meter (4 * n + i)).state = 0 ∧ t.desc sq idx = none ∧
        t.rf F.CL_IMTR_COUNT_DONE [n, i] = s.rf F.CL_IMTR_COUNT_DONE [n, i] ∧
        (∀ j, j ≠ 4 * n + i → t.meter j = s.meter j) ∧ t.mem = s.mem))

/-- The machine right after reset has its forms: device memory and the register file are canonical and list nothing, the units are as many
as the spec gives the chip, no command waits, DTIME is 0, and no byte of device memory reads other than 0 (log entry 1).
(R1, R22, R51, R198) -/
def Obligations.ResetHasItsForms : Prop :=
  Safety.canonical State.reset = true ∧ Safety.shaped State.reset ∧ State.reset.pending = [] ∧ State.reset.dtime = 0 ∧
    State.reset.sites = [] ∧ State.reset.objs = [] ∧ State.reset.bursts = [] ∧ State.reset.host.inflight = [] ∧
    ∀ a, Memory.get State.reset.mem a = 0

/-- Whatever command runs, in whatever state, a step that answers a next state keeps the canonical forms: device memory lists rising
addresses and no byte that an unlisted address reads as, the register file rising offsets. So equal memories stay equal data. -/
def Obligations.StepsKeepCanonicalForms : Prop :=
  ∀ s t : State, Safety.canonical s = true → step s = .next t → Safety.canonical t = true

/-- Whatever command runs, a step from a state with as many units as the spec gives the chip leaves as many: no ring, slice, cluster, link,
memory channel, port, chain, trigger unit, meter, APG unit, slot or lock comes or goes; one that fails is retired, not
removed. (R1, R485, R688) -/
def Obligations.StepsKeepTheUnits : Prop :=
  ∀ s t : State, Safety.shaped s → step s = .next t → Safety.shaped t

/-- DTIME never decreases: in every step but a COLD reset, by its command or of rail 13, the next DTIME is no less, and that reset's is
0. And no step at all changes the fuses. (R51) -/
def Obligations.DtimeNeverDecreases : Prop :=
  ∀ s t : State, step s = .next t →
    t.fuse = s.fuse ∧
      ((∀ c, s.pending.head? = some (.coldReset c) → t.dtime = 0) ∧
        ((∀ c, s.pending.head? ≠ some (.coldReset c)) → (∀ r l t0, s.pending.head? = some (.supplyReset r l t0) → r ≠ 13) → s.dtime ≤ t.dtime))

/-- Every command of the table, in every state, answers a next state, and so does every step: none faults and none is refused. -/
def Obligations.EveryCommandCompletes : Prop :=
  (∀ (c : Instr) (s : State), ∃ t, exec c s = .next t) ∧ ∀ s : State, ∃ t, step s = .next t
end

