-- ==== Sys2Proof/Laws/Lists.lean ====
section
/-! SUPPORT. Laws of the keyed lists and of device memory: read after write, other keys, and that every operation keeps the
canonical form (R198). -/

namespace Sys2Proof.Machine

/-! ### Keyed lists -/

@[simp] theorem kGet_nil {α : Type} (k : Nat) : kGet ([] : List (Nat × α)) k = none := rfl

theorem kGet_cons {α : Type} (p : Nat × α) (l : List (Nat × α)) (k : Nat) :
    kGet (p :: l) k = if p.1 = k then some p.2 else kGet l k := by
  by_cases h : p.1 = k <;> simp [kGet, h]

@[simp] theorem kGet_kSet_same {α : Type} (l : List (Nat × α)) (k : Nat) (v : α) : kGet (kSet l k v) k = some v := by
  induction l with
  | nil => simp [kSet, kGet_cons]
  | cons p r ih =>
    unfold kSet
    split
    · simp [kGet_cons]
    · split
      · simp [kGet_cons]
      · rename_i h1 h2
        rw [kGet_cons, if_neg (fun h => h2 h.symm), ih]

theorem kGet_kSet_ne {α : Type} (l : List (Nat × α)) {k j : Nat} (v : α) (h : j ≠ k) : kGet (kSet l k v) j = kGet l j := by
  induction l with
  | nil => simp [kSet, kGet_cons, Ne.symm h]
  | cons p r ih =>
    unfold kSet
    split
    · rw [kGet_cons, if_neg (Ne.symm h)]
    · split
      · rename_i h1 h2
        rw [kGet_cons, kGet_cons, if_neg (Ne.symm h), if_neg (h2 ▸ Ne.symm h)]
      · rw [kGet_cons, kGet_cons, ih]

@[simp] theorem kGet_kDel_same {α : Type} (l : List (Nat × α)) (k : Nat) : kGet (kDel l k) k = none := by
  simp only [kGet, kDel, Option.map_eq_none_iff, List.find?_eq_none, List.mem_filter]
  rintro p ⟨-, h⟩
  simpa using h

theorem kGet_kDel_ne {α : Type} (l : List (Nat × α)) {k j : Nat} (h : j ≠ k) : kGet (kDel l k) j = kGet l j := by
  induction l with
  | nil => rfl
  | cons p r ih =>
    unfold kDel at ih ⊢
    rw [List.filter_cons]
    split
    · rw [kGet_cons, kGet_cons, ih]
    · rename_i hp
      have hk : p.1 = k := by simpa using hp
      rw [kGet_cons, if_neg (hk ▸ Ne.symm h), ih]

theorem kGet_kUpd {α : Type} (l : List (Nat × α)) (k j : Nat) (f : α → α) :
    kGet (kUpd l k f) j = (kGet l j).map (fun v => if j = k then f v else v) := by
  induction l with
  | nil => rfl
  | cons p r ih =>
    have e : kUpd (p :: r) k f = (if p.1 = k then (k, f p.2) else p) :: kUpd r k f := rfl
    rw [e]
    by_cases h : p.1 = k
    · rw [if_pos h, kGet_cons, kGet_cons, ih]
      by_cases hj : k = j
      · simp [h, hj]
      · simp [h, hj]
    · rw [if_neg h, kGet_cons, kGet_cons, ih]
      by_cases hj : p.1 = j
      · have : ¬ j = k := fun e => h (hj.trans e)
        simp [hj, this]
      · simp [hj]

@[simp] theorem kHas_kSet {α : Type} (l : List (Nat × α)) (k : Nat) (v : α) : kHas (kSet l k v) k = true := by
  induction l with
  | nil => simp [kSet, kHas]
  | cons p r ih =>
    unfold kSet
    split
    · simp [kHas]
    · split
      · simp [kHas]
      · simp only [kHas] at ih
        simp [kHas, ih]

/-! ### The canonical form of device memory -/

/-- Every address listed is at least n. -/
def Memory.from (n : Nat) (m : List Host.Cell) : Prop := ∀ c ∈ m, n ≤ c.1

theorem Memory.wf_cons {c : Host.Cell} {m : List Host.Cell} :
    Memory.wf (c :: m) = true ↔ c.2 ≠ 0 ∧ Memory.from (c.1 + 1) m ∧ Memory.wf m = true := by
  induction m generalizing c with
  | nil => simp [Memory.wf, Memory.from]
  | cons d r ih =>
    constructor
    · intro h
      simp only [Memory.wf, Bool.and_eq_true, bne_iff_ne, decide_eq_true_eq] at h
      refine ⟨h.1.1, ?_, h.2⟩
      intro x hx
      rcases List.mem_cons.mp hx with rfl | hx
      · exact h.1.2
      · have := (ih.mp h.2).2.1 x hx
        have := h.1.2
        omega
    · rintro ⟨h1, h2, h3⟩
      simp only [Memory.wf, Bool.and_eq_true, bne_iff_ne, decide_eq_true_eq]
      exact ⟨⟨h1, h2 d (by simp)⟩, h3⟩

theorem Memory.wf_filter (p : Host.Cell → Bool) {m : List Host.Cell} (h : Memory.wf m = true) : Memory.wf (m.filter p) = true := by
  induction m with
  | nil => rfl
  | cons c r ih =>
    obtain ⟨h1, h2, h3⟩ := Memory.wf_cons.mp h
    rw [List.filter_cons]
    split
    · exact Memory.wf_cons.mpr ⟨h1, fun x hx => h2 x (List.mem_filter.mp hx).1, ih h3⟩
    · exact ih h3

theorem Memory.mem_kSet {m : List Host.Cell} {a : Nat} {b : Byte} {x : Host.Cell} (h : x ∈ kSet m a b) : x = (a, b) ∨ x ∈ m := by
  induction m with
  | nil => left; simpa [kSet] using h
  | cons c r ih =>
    unfold kSet at h
    split at h
    · rcases List.mem_cons.mp h with h | h
      · exact .inl h
      · exact .inr h
    · split at h
      · rcases List.mem_cons.mp h with h | h
        · exact .inl h
        · exact .inr (List.mem_cons_of_mem _ h)
      · rcases List.mem_cons.mp h with h | h
        · exact .inr (h ▸ List.mem_cons_self)
        · rcases ih h with h | h
          · exact .inl h
          · exact .inr (List.mem_cons_of_mem _ h)

theorem Memory.wf_kSet {m : List Host.Cell} (h : Memory.wf m = true) (a : Nat) {b : Byte} (hb : b ≠ 0) :
    Memory.wf (kSet m a b) = true := by
  induction m with
  | nil => simpa [kSet, Memory.wf] using hb
  | cons c r ih =>
    obtain ⟨h1, h2, h3⟩ := Memory.wf_cons.mp h
    unfold kSet
    split
    · rename_i hlt
      refine Memory.wf_cons.mpr ⟨hb, ?_, h⟩
      intro x hx
      rcases List.mem_cons.mp hx with rfl | hx
      · exact hlt
      · have := h2 x hx
        show a + 1 ≤ x.1
        omega
    · split
      · rename_i _ heq
        exact Memory.wf_cons.mpr ⟨hb, fun x hx => heq ▸ h2 x hx, h3⟩
      · refine Memory.wf_cons.mpr ⟨h1, ?_, ih h3⟩
        intro x hx
        rcases Memory.mem_kSet hx with rfl | hx
        · show c.1 + 1 ≤ a
          omega
        · exact h2 x hx

/-- Writing one byte keeps the canonical form: a zero byte is not listed. -/
theorem Memory.wf_set {m : List Host.Cell} (h : Memory.wf m = true) (a : Nat) (b : Byte) : Memory.wf (Memory.set m a b) = true := by
  unfold Memory.set
  split
  · exact Memory.wf_filter _ h
  · rename_i hb
    exact Memory.wf_kSet h a hb

/-- Writing bytes keeps the canonical form. -/
theorem Memory.wf_write {m : List Host.Cell} (h : Memory.wf m = true) (a : Nat) (bs : List Byte) :
    Memory.wf (Memory.write m a bs) = true := by
  induction bs generalizing m a with
  | nil => exact h
  | cons b r ih => exact ih (Memory.wf_set h a b) (a + 1)

/-- Zeroing a range keeps the canonical form. -/
theorem Memory.wf_clear {m : List Host.Cell} (h : Memory.wf m = true) (a n : Nat) : Memory.wf (Memory.clear m a n) = true :=
  Memory.wf_filter _ h

/-! ### Reading what was written -/

@[simp] theorem Memory.get_set_same (m : List Host.Cell) (a : Nat) (b : Byte) : Memory.get (Memory.set m a b) a = b := by
  unfold Memory.get Memory.set
  split
  · rename_i h
    simp [h]
  · simp

theorem Memory.get_set_ne (m : List Host.Cell) {a x : Nat} (b : Byte) (h : x ≠ a) :
    Memory.get (Memory.set m a b) x = Memory.get m x := by
  unfold Memory.get Memory.set
  split
  · rw [kGet_kDel_ne _ h]
  · rw [kGet_kSet_ne _ _ h]

/-- Bytes outside the written range keep their values. -/
theorem Memory.get_write_outside (m : List Host.Cell) (a : Nat) (bs : List Byte) {x : Nat} (h : x < a ∨ a + bs.length ≤ x) :
    Memory.get (Memory.write m a bs) x = Memory.get m x := by
  induction bs generalizing m a with
  | nil => rfl
  | cons b r ih =>
    simp only [List.length_cons] at h
    unfold Memory.write
    rw [ih (Memory.set m a b) (a + 1) (by omega), Memory.get_set_ne _ _ (by omega)]

/-- The written bytes read back. -/
theorem Memory.get_write_inside (m : List Host.Cell) (a : Nat) (bs : List Byte) (i : Nat) (h : i < bs.length) :
    Memory.get (Memory.write m a bs) (a + i) = bs[i] := by
  induction bs generalizing m a i with
  | nil => simp at h
  | cons b r ih =>
    unfold Memory.write
    cases i with
    | zero => rw [Memory.get_write_outside _ _ _ (by omega)]; simp
    | succ n =>
      have := ih (Memory.set m a b) (a + 1) n (by simpa using h)
      rw [show a + (n + 1) = a + 1 + n by omega, this]
      rfl

/-- Reading a range that was written gives the bytes written. -/
theorem Memory.read_write (m : List Host.Cell) (a : Nat) (bs : List Byte) :
    Memory.read (Memory.write m a bs) a bs.length = bs := by
  have key : ∀ (n i : Nat), i + n = bs.length →
      Memory.read (Memory.write m a bs) (a + i) n = bs.drop i := by
    intro n
    induction n with
    | zero =>
      intro i hi
      rw [List.drop_eq_nil_of_le (by omega)]
      rfl
    | succ n ih =>
      intro i hi
      have hlt : i < bs.length := by omega
      rw [List.drop_eq_getElem_cons hlt]
      unfold Memory.read
      rw [Memory.get_write_inside _ _ _ _ hlt, show a + i + 1 = a + (i + 1) by omega, ih (i + 1) (by omega)]
  simpa using key bs.length 0 (by omega)

theorem Memory.get_clear (m : List Host.Cell) (a n x : Nat) :
    Memory.get (Memory.clear m a n) x = if a ≤ x ∧ x < a + n then 0 else Memory.get m x := by
  induction m with
  | nil => simp [Memory.get, Memory.clear]
  | cons c r ih =>
    unfold Memory.get Memory.clear at ih ⊢
    rw [List.filter_cons, kGet_cons]
    split
    · rename_i hk
      rw [kGet_cons]
      by_cases hx : c.1 = x
      · subst hx
        simp at hk
        rw [if_pos rfl, if_neg (by omega), if_pos rfl]
      · rw [if_neg hx, if_neg hx, ih]
    · rename_i hk
      by_cases hx : c.1 = x
      · subst hx
        simp at hk
        rw [ih, if_pos (by omega), if_pos (by omega)]
      · rw [ih, if_neg hx]

/-! ### The register file stays rising -/

theorem rising_cons {α : Type} {p : Nat × α} {l : List (Nat × α)} :
    Safety.rising (p :: l) = true ↔ (∀ x ∈ l, p.1 < x.1) ∧ Safety.rising l = true := by
  induction l generalizing p with
  | nil => simp [Safety.rising]
  | cons d r ih =>
    simp only [Safety.rising, Bool.and_eq_true, decide_eq_true_eq, List.mem_cons, forall_eq_or_imp]
    constructor
    · rintro ⟨h1, h2⟩
      exact ⟨⟨h1, fun x hx => Nat.lt_trans h1 ((ih.mp h2).1 x hx)⟩, h2⟩
    · rintro ⟨⟨h1, -⟩, h2⟩
      exact ⟨h1, h2⟩

theorem mem_kSet {α : Type} {l : List (Nat × α)} {k : Nat} {v : α} {x : Nat × α} (h : x ∈ kSet l k v) : x.1 = k ∨ x ∈ l := by
  induction l with
  | nil => left; simp [kSet] at h; simp [h]
  | cons c r ih =>
    unfold kSet at h
    split at h
    · rcases List.mem_cons.mp h with h | h
      · exact .inl (by simp [h])
      · exact .inr h
    · split at h
      · rcases List.mem_cons.mp h with h | h
        · exact .inl (by simp [h])
        · exact .inr (List.mem_cons_of_mem _ h)
      · rcases List.mem_cons.mp h with h | h
        · exact .inr (h ▸ List.mem_cons_self)
        · rcases ih h with h | h
          · exact .inl h
          · exact .inr (List.mem_cons_of_mem _ h)

/-- Setting a key keeps the keys rising. -/
theorem rising_kSet {α : Type} {l : List (Nat × α)} (h : Safety.rising l = true) (k : Nat) (v : α) :
    Safety.rising (kSet l k v) = true := by
  induction l with
  | nil => rfl
  | cons c r ih =>
    obtain ⟨h1, h2⟩ := rising_cons.mp h
    unfold kSet
    split
    · rename_i hlt
      refine rising_cons.mpr ⟨?_, h⟩
      intro x hx
      rcases List.mem_cons.mp hx with rfl | hx
      · exact hlt
      · exact Nat.lt_trans hlt (h1 x hx)
    · split
      · rename_i _ heq
        exact rising_cons.mpr ⟨fun x hx => heq ▸ h1 x hx, h2⟩
      · refine rising_cons.mpr ⟨?_, ih h2⟩
        intro x hx
        rcases mem_kSet hx with hx | hx
        · omega
        · exact h1 x hx

/-- Taking keys out keeps the keys rising. -/
theorem rising_filter {α : Type} (p : Nat × α → Bool) {l : List (Nat × α)} (h : Safety.rising l = true) :
    Safety.rising (l.filter p) = true := by
  induction l with
  | nil => rfl
  | cons c r ih =>
    obtain ⟨h1, h2⟩ := rising_cons.mp h
    rw [List.filter_cons]
    split
    · exact rising_cons.mpr ⟨fun x hx => h1 x (List.mem_filter.mp hx).1, ih h2⟩
    · exact ih h2

end Sys2Proof.Machine
end

