-- ==== Sys2Proof/Laws/State.lean ====
section
/-! SUPPORT. What each update of a state leaves as it was, and what it writes: one lemma per field per update, true by rfl. -/

namespace Sys2Proof.Machine

/-! ### setReg -/

@[simp] theorem setReg_dtime (s : State) (off : Nat) (v : W64) : (s.setReg off v).dtime = s.dtime := rfl
@[simp] theorem setReg_dfrac (s : State) (off : Nat) (v : W64) : (s.setReg off v).dfrac = s.dfrac := rfl
@[simp] theorem setReg_clk (s : State) (off : Nat) (v : W64) : (s.setReg off v).clk = s.clk := rfl
@[simp] theorem setReg_regs (s : State) (off : Nat) (v : W64) : (s.setReg off v).regs = kSet s.regs off v := rfl
@[simp] theorem setReg_held (s : State) (off : Nat) (v : W64) : (s.setReg off v).held = s.held := rfl
@[simp] theorem setReg_latch (s : State) (off : Nat) (v : W64) : (s.setReg off v).latch = s.latch := rfl
@[simp] theorem setReg_host (s : State) (off : Nat) (v : W64) : (s.setReg off v).host = s.host := rfl
@[simp] theorem setReg_mem (s : State) (off : Nat) (v : W64) : (s.setReg off v).mem = s.mem := rfl
@[simp] theorem setReg_bad (s : State) (off : Nat) (v : W64) : (s.setReg off v).bad = s.bad := rfl
@[simp] theorem setReg_objs (s : State) (off : Nat) (v : W64) : (s.setReg off v).objs = s.objs := rfl
@[simp] theorem setReg_loads (s : State) (off : Nat) (v : W64) : (s.setReg off v).loads = s.loads := rfl
@[simp] theorem setReg_sites (s : State) (off : Nat) (v : W64) : (s.setReg off v).sites = s.sites := rfl
@[simp] theorem setReg_groups (s : State) (off : Nat) (v : W64) : (s.setReg off v).groups = s.groups := rfl
@[simp] theorem setReg_slices (s : State) (off : Nat) (v : W64) : (s.setReg off v).slices = s.slices := rfl
@[simp] theorem setReg_bursts (s : State) (off : Nat) (v : W64) : (s.setReg off v).bursts = s.bursts := rfl
@[simp] theorem setReg_arrivals (s : State) (off : Nat) (v : W64) : (s.setReg off v).arrivals = s.arrivals := rfl
@[simp] theorem setReg_gen (s : State) (off : Nat) (v : W64) : (s.setReg off v).gen = s.gen := rfl
@[simp] theorem setReg_cache (s : State) (off : Nat) (v : W64) : (s.setReg off v).cache = s.cache := rfl
@[simp] theorem setReg_results (s : State) (off : Nat) (v : W64) : (s.setReg off v).results = s.results := rfl
@[simp] theorem setReg_regions (s : State) (off : Nat) (v : W64) : (s.setReg off v).regions = s.regions := rfl
@[simp] theorem setReg_clusters (s : State) (off : Nat) (v : W64) : (s.setReg off v).clusters = s.clusters := rfl
@[simp] theorem setReg_calibs (s : State) (off : Nat) (v : W64) : (s.setReg off v).calibs = s.calibs := rfl
@[simp] theorem setReg_waiting (s : State) (off : Nat) (v : W64) : (s.setReg off v).waiting = s.waiting := rfl
@[simp] theorem setReg_paddock (s : State) (off : Nat) (v : W64) : (s.setReg off v).paddock = s.paddock := rfl
@[simp] theorem setReg_pe (s : State) (off : Nat) (v : W64) : (s.setReg off v).pe = s.pe := rfl
@[simp] theorem setReg_fuse (s : State) (off : Nat) (v : W64) : (s.setReg off v).fuse = s.fuse := rfl
@[simp] theorem setReg_collector (s : State) (off : Nat) (v : W64) : (s.setReg off v).collector = s.collector := rfl
@[simp] theorem setReg_logQ (s : State) (off : Nat) (v : W64) : (s.setReg off v).logQ = s.logQ := rfl
@[simp] theorem setReg_life (s : State) (off : Nat) (v : W64) : (s.setReg off v).life = s.life := rfl
@[simp] theorem setReg_chainsBad (s : State) (off : Nat) (v : W64) : (s.setReg off v).chainsBad = s.chainsBad := rfl
@[simp] theorem setReg_metersBad (s : State) (off : Nat) (v : W64) : (s.setReg off v).metersBad = s.metersBad := rfl
@[simp] theorem setReg_power (s : State) (off : Nat) (v : W64) : (s.setReg off v).power = s.power := rfl
@[simp] theorem setReg_rst (s : State) (off : Nat) (v : W64) : (s.setReg off v).rst = s.rst := rfl
@[simp] theorem setReg_board (s : State) (off : Nat) (v : W64) : (s.setReg off v).board = s.board := rfl
@[simp] theorem setReg_mcs (s : State) (off : Nat) (v : W64) : (s.setReg off v).mcs = s.mcs := rfl
@[simp] theorem setReg_ctxArea (s : State) (off : Nat) (v : W64) : (s.setReg off v).ctxArea = s.ctxArea := rfl
@[simp] theorem setReg_links (s : State) (off : Nat) (v : W64) : (s.setReg off v).links = s.links := rfl
@[simp] theorem setReg_ringT (s : State) (off : Nat) (v : W64) : (s.setReg off v).ringT = s.ringT := rfl
@[simp] theorem setReg_pair (s : State) (off : Nat) (v : W64) : (s.setReg off v).pair = s.pair := rfl
@[simp] theorem setReg_apgs (s : State) (off : Nat) (v : W64) : (s.setReg off v).apgs = s.apgs := rfl
@[simp] theorem setReg_ports (s : State) (off : Nat) (v : W64) : (s.setReg off v).ports = s.ports := rfl
@[simp] theorem setReg_chains (s : State) (off : Nat) (v : W64) : (s.setReg off v).chains = s.chains := rfl
@[simp] theorem setReg_acqs (s : State) (off : Nat) (v : W64) : (s.setReg off v).acqs = s.acqs := rfl
@[simp] theorem setReg_sbufs (s : State) (off : Nat) (v : W64) : (s.setReg off v).sbufs = s.sbufs := rfl
@[simp] theorem setReg_trigs (s : State) (off : Nat) (v : W64) : (s.setReg off v).trigs = s.trigs := rfl
@[simp] theorem setReg_meters (s : State) (off : Nat) (v : W64) : (s.setReg off v).meters = s.meters := rfl
@[simp] theorem setReg_trigEv (s : State) (off : Nat) (v : W64) : (s.setReg off v).trigEv = s.trigEv := rfl
@[simp] theorem setReg_trigOut (s : State) (off : Nat) (v : W64) : (s.setReg off v).trigOut = s.trigOut := rfl
@[simp] theorem setReg_out (s : State) (off : Nat) (v : W64) : (s.setReg off v).out = s.out := rfl
@[simp] theorem setReg_freeCtr (s : State) (off : Nat) (v : W64) : (s.setReg off v).freeCtr = s.freeCtr := rfl
@[simp] theorem setReg_pending (s : State) (off : Nat) (v : W64) : (s.setReg off v).pending = s.pending := rfl

/-! ### setRf -/

@[simp] theorem setRf_dtime (s : State) (f : RF) (i : List Nat) (v : Nat) : (s.setRf f i v).dtime = s.dtime := rfl
@[simp] theorem setRf_dfrac (s : State) (f : RF) (i : List Nat) (v : Nat) : (s.setRf f i v).dfrac = s.dfrac := rfl
@[simp] theorem setRf_clk (s : State) (f : RF) (i : List Nat) (v : Nat) : (s.setRf f i v).clk = s.clk := rfl
@[simp] theorem setRf_held (s : State) (f : RF) (i : List Nat) (v : Nat) : (s.setRf f i v).held = s.held := rfl
@[simp] theorem setRf_latch (s : State) (f : RF) (i : List Nat) (v : Nat) : (s.setRf f i v).latch = s.latch := rfl
@[simp] theorem setRf_host (s : State) (f : RF) (i : List Nat) (v : Nat) : (s.setRf f i v).host = s.host := rfl
@[simp] theorem setRf_mem (s : State) (f : RF) (i : List Nat) (v : Nat) : (s.setRf f i v).mem = s.mem := rfl
@[simp] theorem setRf_bad (s : State) (f : RF) (i : List Nat) (v : Nat) : (s.setRf f i v).bad = s.bad := rfl
@[simp] theorem setRf_objs (s : State) (f : RF) (i : List Nat) (v : Nat) : (s.setRf f i v).objs = s.objs := rfl
@[simp] theorem setRf_loads (s : State) (f : RF) (i : List Nat) (v : Nat) : (s.setRf f i v).loads = s.loads := rfl
@[simp] theorem setRf_sites (s : State) (f : RF) (i : List Nat) (v : Nat) : (s.setRf f i v).sites = s.sites := rfl
@[simp] theorem setRf_groups (s : State) (f : RF) (i : List Nat) (v : Nat) : (s.setRf f i v).groups = s.groups := rfl
@[simp] theorem setRf_slices (s : State) (f : RF) (i : List Nat) (v : Nat) : (s.setRf f i v).slices = s.slices := rfl
@[simp] theorem setRf_bursts (s : State) (f : RF) (i : List Nat) (v : Nat) : (s.setRf f i v).bursts = s.bursts := rfl
@[simp] theorem setRf_arrivals (s : State) (f : RF) (i : List Nat) (v : Nat) : (s.setRf f i v).arrivals = s.arrivals := rfl
@[simp] theorem setRf_gen (s : State) (f : RF) (i : List Nat) (v : Nat) : (s.setRf f i v).gen = s.gen := rfl
@[simp] theorem setRf_cache (s : State) (f : RF) (i : List Nat) (v : Nat) : (s.setRf f i v).cache = s.cache := rfl
@[simp] theorem setRf_results (s : State) (f : RF) (i : List Nat) (v : Nat) : (s.setRf f i v).results = s.results := rfl
@[simp] theorem setRf_regions (s : State) (f : RF) (i : List Nat) (v : Nat) : (s.setRf f i v).regions = s.regions := rfl
@[simp] theorem setRf_clusters (s : State) (f : RF) (i : List Nat) (v : Nat) : (s.setRf f i v).clusters = s.clusters := rfl
@[simp] theorem setRf_calibs (s : State) (f : RF) (i : List Nat) (v : Nat) : (s.setRf f i v).calibs = s.calibs := rfl
@[simp] theorem setRf_waiting (s : State) (f : RF) (i : List Nat) (v : Nat) : (s.setRf f i v).waiting = s.waiting := rfl
@[simp] theorem setRf_paddock (s : State) (f : RF) (i : List Nat) (v : Nat) : (s.setRf f i v).paddock = s.paddock := rfl
@[simp] theorem setRf_pe (s : State) (f : RF) (i : List Nat) (v : Nat) : (s.setRf f i v).pe = s.pe := rfl
@[simp] theorem setRf_fuse (s : State) (f : RF) (i : List Nat) (v : Nat) : (s.setRf f i v).fuse = s.fuse := rfl
@[simp] theorem setRf_collector (s : State) (f : RF) (i : List Nat) (v : Nat) : (s.setRf f i v).collector = s.collector := rfl
@[simp] theorem setRf_logQ (s : State) (f : RF) (i : List Nat) (v : Nat) : (s.setRf f i v).logQ = s.logQ := rfl
@[simp] theorem setRf_life (s : State) (f : RF) (i : List Nat) (v : Nat) : (s.setRf f i v).life = s.life := rfl
@[simp] theorem setRf_chainsBad (s : State) (f : RF) (i : List Nat) (v : Nat) : (s.setRf f i v).chainsBad = s.chainsBad := rfl
@[simp] theorem setRf_metersBad (s : State) (f : RF) (i : List Nat) (v : Nat) : (s.setRf f i v).metersBad = s.metersBad := rfl
@[simp] theorem setRf_power (s : State) (f : RF) (i : List Nat) (v : Nat) : (s.setRf f i v).power = s.power := rfl
@[simp] theorem setRf_rst (s : State) (f : RF) (i : List Nat) (v : Nat) : (s.setRf f i v).rst = s.rst := rfl
@[simp] theorem setRf_board (s : State) (f : RF) (i : List Nat) (v : Nat) : (s.setRf f i v).board = s.board := rfl
@[simp] theorem setRf_mcs (s : State) (f : RF) (i : List Nat) (v : Nat) : (s.setRf f i v).mcs = s.mcs := rfl
@[simp] theorem setRf_ctxArea (s : State) (f : RF) (i : List Nat) (v : Nat) : (s.setRf f i v).ctxArea = s.ctxArea := rfl
@[simp] theorem setRf_links (s : State) (f : RF) (i : List Nat) (v : Nat) : (s.setRf f i v).links = s.links := rfl
@[simp] theorem setRf_ringT (s : State) (f : RF) (i : List Nat) (v : Nat) : (s.setRf f i v).ringT = s.ringT := rfl
@[simp] theorem setRf_pair (s : State) (f : RF) (i : List Nat) (v : Nat) : (s.setRf f i v).pair = s.pair := rfl
@[simp] theorem setRf_apgs (s : State) (f : RF) (i : List Nat) (v : Nat) : (s.setRf f i v).apgs = s.apgs := rfl
@[simp] theorem setRf_ports (s : State) (f : RF) (i : List Nat) (v : Nat) : (s.setRf f i v).ports = s.ports := rfl
@[simp] theorem setRf_chains (s : State) (f : RF) (i : List Nat) (v : Nat) : (s.setRf f i v).chains = s.chains := rfl
@[simp] theorem setRf_acqs (s : State) (f : RF) (i : List Nat) (v : Nat) : (s.setRf f i v).acqs = s.acqs := rfl
@[simp] theorem setRf_sbufs (s : State) (f : RF) (i : List Nat) (v : Nat) : (s.setRf f i v).sbufs = s.sbufs := rfl
@[simp] theorem setRf_trigs (s : State) (f : RF) (i : List Nat) (v : Nat) : (s.setRf f i v).trigs = s.trigs := rfl
@[simp] theorem setRf_meters (s : State) (f : RF) (i : List Nat) (v : Nat) : (s.setRf f i v).meters = s.meters := rfl
@[simp] theorem setRf_trigEv (s : State) (f : RF) (i : List Nat) (v : Nat) : (s.setRf f i v).trigEv = s.trigEv := rfl
@[simp] theorem setRf_trigOut (s : State) (f : RF) (i : List Nat) (v : Nat) : (s.setRf f i v).trigOut = s.trigOut := rfl
@[simp] theorem setRf_out (s : State) (f : RF) (i : List Nat) (v : Nat) : (s.setRf f i v).out = s.out := rfl
@[simp] theorem setRf_freeCtr (s : State) (f : RF) (i : List Nat) (v : Nat) : (s.setRf f i v).freeCtr = s.freeCtr := rfl
@[simp] theorem setRf_pending (s : State) (f : RF) (i : List Nat) (v : Nat) : (s.setRf f i v).pending = s.pending := rfl

/-! ### orRf -/

@[simp] theorem orRf_dtime (s : State) (f : RF) (i : List Nat) (m : Nat) : (s.orRf f i m).dtime = s.dtime := rfl
@[simp] theorem orRf_dfrac (s : State) (f : RF) (i : List Nat) (m : Nat) : (s.orRf f i m).dfrac = s.dfrac := rfl
@[simp] theorem orRf_clk (s : State) (f : RF) (i : List Nat) (m : Nat) : (s.orRf f i m).clk = s.clk := rfl
@[simp] theorem orRf_held (s : State) (f : RF) (i : List Nat) (m : Nat) : (s.orRf f i m).held = s.held := rfl
@[simp] theorem orRf_latch (s : State) (f : RF) (i : List Nat) (m : Nat) : (s.orRf f i m).latch = s.latch := rfl
@[simp] theorem orRf_host (s : State) (f : RF) (i : List Nat) (m : Nat) : (s.orRf f i m).host = s.host := rfl
@[simp] theorem orRf_mem (s : State) (f : RF) (i : List Nat) (m : Nat) : (s.orRf f i m).mem = s.mem := rfl
@[simp] theorem orRf_bad (s : State) (f : RF) (i : List Nat) (m : Nat) : (s.orRf f i m).bad = s.bad := rfl
@[simp] theorem orRf_objs (s : State) (f : RF) (i : List Nat) (m : Nat) : (s.orRf f i m).objs = s.objs := rfl
@[simp] theorem orRf_loads (s : State) (f : RF) (i : List Nat) (m : Nat) : (s.orRf f i m).loads = s.loads := rfl
@[simp] theorem orRf_sites (s : State) (f : RF) (i : List Nat) (m : Nat) : (s.orRf f i m).sites = s.sites := rfl
@[simp] theorem orRf_groups (s : State) (f : RF) (i : List Nat) (m : Nat) : (s.orRf f i m).groups = s.groups := rfl
@[simp] theorem orRf_slices (s : State) (f : RF) (i : List Nat) (m : Nat) : (s.orRf f i m).slices = s.slices := rfl
@[simp] theorem orRf_bursts (s : State) (f : RF) (i : List Nat) (m : Nat) : (s.orRf f i m).bursts = s.bursts := rfl
@[simp] theorem orRf_arrivals (s : State) (f : RF) (i : List Nat) (m : Nat) : (s.orRf f i m).arrivals = s.arrivals := rfl
@[simp] theorem orRf_gen (s : State) (f : RF) (i : List Nat) (m : Nat) : (s.orRf f i m).gen = s.gen := rfl
@[simp] theorem orRf_cache (s : State) (f : RF) (i : List Nat) (m : Nat) : (s.orRf f i m).cache = s.cache := rfl
@[simp] theorem orRf_results (s : State) (f : RF) (i : List Nat) (m : Nat) : (s.orRf f i m).results = s.results := rfl
@[simp] theorem orRf_regions (s : State) (f : RF) (i : List Nat) (m : Nat) : (s.orRf f i m).regions = s.regions := rfl
@[simp] theorem orRf_clusters (s : State) (f : RF) (i : List Nat) (m : Nat) : (s.orRf f i m).clusters = s.clusters := rfl
@[simp] theorem orRf_calibs (s : State) (f : RF) (i : List Nat) (m : Nat) : (s.orRf f i m).calibs = s.calibs := rfl
@[simp] theorem orRf_waiting (s : State) (f : RF) (i : List Nat) (m : Nat) : (s.orRf f i m).waiting = s.waiting := rfl
@[simp] theorem orRf_paddock (s : State) (f : RF) (i : List Nat) (m : Nat) : (s.orRf f i m).paddock = s.paddock := rfl
@[simp] theorem orRf_pe (s : State) (f : RF) (i : List Nat) (m : Nat) : (s.orRf f i m).pe = s.pe := rfl
@[simp] theorem orRf_fuse (s : State) (f : RF) (i : List Nat) (m : Nat) : (s.orRf f i m).fuse = s.fuse := rfl
@[simp] theorem orRf_collector (s : State) (f : RF) (i : List Nat) (m : Nat) : (s.orRf f i m).collector = s.collector := rfl
@[simp] theorem orRf_logQ (s : State) (f : RF) (i : List Nat) (m : Nat) : (s.orRf f i m).logQ = s.logQ := rfl
@[simp] theorem orRf_life (s : State) (f : RF) (i : List Nat) (m : Nat) : (s.orRf f i m).life = s.life := rfl
@[simp] theorem orRf_chainsBad (s : State) (f : RF) (i : List Nat) (m : Nat) : (s.orRf f i m).chainsBad = s.chainsBad := rfl
@[simp] theorem orRf_metersBad (s : State) (f : RF) (i : List Nat) (m : Nat) : (s.orRf f i m).metersBad = s.metersBad := rfl
@[simp] theorem orRf_power (s : State) (f : RF) (i : List Nat) (m : Nat) : (s.orRf f i m).power = s.power := rfl
@[simp] theorem orRf_rst (s : State) (f : RF) (i : List Nat) (m : Nat) : (s.orRf f i m).rst = s.rst := rfl
@[simp] theorem orRf_board (s : State) (f : RF) (i : List Nat) (m : Nat) : (s.orRf f i m).board = s.board := rfl
@[simp] theorem orRf_mcs (s : State) (f : RF) (i : List Nat) (m : Nat) : (s.orRf f i m).mcs = s.mcs := rfl
@[simp] theorem orRf_ctxArea (s : State) (f : RF) (i : List Nat) (m : Nat) : (s.orRf f i m).ctxArea = s.ctxArea := rfl
@[simp] theorem orRf_links (s : State) (f : RF) (i : List Nat) (m : Nat) : (s.orRf f i m).links = s.links := rfl
@[simp] theorem orRf_ringT (s : State) (f : RF) (i : List Nat) (m : Nat) : (s.orRf f i m).ringT = s.ringT := rfl
@[simp] theorem orRf_pair (s : State) (f : RF) (i : List Nat) (m : Nat) : (s.orRf f i m).pair = s.pair := rfl
@[simp] theorem orRf_apgs (s : State) (f : RF) (i : List Nat) (m : Nat) : (s.orRf f i m).apgs = s.apgs := rfl
@[simp] theorem orRf_ports (s : State) (f : RF) (i : List Nat) (m : Nat) : (s.orRf f i m).ports = s.ports := rfl
@[simp] theorem orRf_chains (s : State) (f : RF) (i : List Nat) (m : Nat) : (s.orRf f i m).chains = s.chains := rfl
@[simp] theorem orRf_acqs (s : State) (f : RF) (i : List Nat) (m : Nat) : (s.orRf f i m).acqs = s.acqs := rfl
@[simp] theorem orRf_sbufs (s : State) (f : RF) (i : List Nat) (m : Nat) : (s.orRf f i m).sbufs = s.sbufs := rfl
@[simp] theorem orRf_trigs (s : State) (f : RF) (i : List Nat) (m : Nat) : (s.orRf f i m).trigs = s.trigs := rfl
@[simp] theorem orRf_meters (s : State) (f : RF) (i : List Nat) (m : Nat) : (s.orRf f i m).meters = s.meters := rfl
@[simp] theorem orRf_trigEv (s : State) (f : RF) (i : List Nat) (m : Nat) : (s.orRf f i m).trigEv = s.trigEv := rfl
@[simp] theorem orRf_trigOut (s : State) (f : RF) (i : List Nat) (m : Nat) : (s.orRf f i m).trigOut = s.trigOut := rfl
@[simp] theorem orRf_out (s : State) (f : RF) (i : List Nat) (m : Nat) : (s.orRf f i m).out = s.out := rfl
@[simp] theorem orRf_freeCtr (s : State) (f : RF) (i : List Nat) (m : Nat) : (s.orRf f i m).freeCtr = s.freeCtr := rfl
@[simp] theorem orRf_pending (s : State) (f : RF) (i : List Nat) (m : Nat) : (s.orRf f i m).pending = s.pending := rfl

/-! ### incRf -/

@[simp] theorem incRf_dtime (s : State) (f : RF) (i : List Nat) (n : Nat) : (s.incRf f i n).dtime = s.dtime := rfl
@[simp] theorem incRf_dfrac (s : State) (f : RF) (i : List Nat) (n : Nat) : (s.incRf f i n).dfrac = s.dfrac := rfl
@[simp] theorem incRf_clk (s : State) (f : RF) (i : List Nat) (n : Nat) : (s.incRf f i n).clk = s.clk := rfl
@[simp] theorem incRf_held (s : State) (f : RF) (i : List Nat) (n : Nat) : (s.incRf f i n).held = s.held := rfl
@[simp] theorem incRf_latch (s : State) (f : RF) (i : List Nat) (n : Nat) : (s.incRf f i n).latch = s.latch := rfl
@[simp] theorem incRf_host (s : State) (f : RF) (i : List Nat) (n : Nat) : (s.incRf f i n).host = s.host := rfl
@[simp] theorem incRf_mem (s : State) (f : RF) (i : List Nat) (n : Nat) : (s.incRf f i n).mem = s.mem := rfl
@[simp] theorem incRf_bad (s : State) (f : RF) (i : List Nat) (n : Nat) : (s.incRf f i n).bad = s.bad := rfl
@[simp] theorem incRf_objs (s : State) (f : RF) (i : List Nat) (n : Nat) : (s.incRf f i n).objs = s.objs := rfl
@[simp] theorem incRf_loads (s : State) (f : RF) (i : List Nat) (n : Nat) : (s.incRf f i n).loads = s.loads := rfl
@[simp] theorem incRf_sites (s : State) (f : RF) (i : List Nat) (n : Nat) : (s.incRf f i n).sites = s.sites := rfl
@[simp] theorem incRf_groups (s : State) (f : RF) (i : List Nat) (n : Nat) : (s.incRf f i n).groups = s.groups := rfl
@[simp] theorem incRf_slices (s : State) (f : RF) (i : List Nat) (n : Nat) : (s.incRf f i n).slices = s.slices := rfl
@[simp] theorem incRf_bursts (s : State) (f : RF) (i : List Nat) (n : Nat) : (s.incRf f i n).bursts = s.bursts := rfl
@[simp] theorem incRf_arrivals (s : State) (f : RF) (i : List Nat) (n : Nat) : (s.incRf f i n).arrivals = s.arrivals := rfl
@[simp] theorem incRf_gen (s : State) (f : RF) (i : List Nat) (n : Nat) : (s.incRf f i n).gen = s.gen := rfl
@[simp] theorem incRf_cache (s : State) (f : RF) (i : List Nat) (n : Nat) : (s.incRf f i n).cache = s.cache := rfl
@[simp] theorem incRf_results (s : State) (f : RF) (i : List Nat) (n : Nat) : (s.incRf f i n).results = s.results := rfl
@[simp] theorem incRf_regions (s : State) (f : RF) (i : List Nat) (n : Nat) : (s.incRf f i n).regions = s.regions := rfl
@[simp] theorem incRf_clusters (s : State) (f : RF) (i : List Nat) (n : Nat) : (s.incRf f i n).clusters = s.clusters := rfl
@[simp] theorem incRf_calibs (s : State) (f : RF) (i : List Nat) (n : Nat) : (s.incRf f i n).calibs = s.calibs := rfl
@[simp] theorem incRf_waiting (s : State) (f : RF) (i : List Nat) (n : Nat) : (s.incRf f i n).waiting = s.waiting := rfl
@[simp] theorem incRf_paddock (s : State) (f : RF) (i : List Nat) (n : Nat) : (s.incRf f i n).paddock = s.paddock := rfl
@[simp] theorem incRf_pe (s : State) (f : RF) (i : List Nat) (n : Nat) : (s.incRf f i n).pe = s.pe := rfl
@[simp] theorem incRf_fuse (s : State) (f : RF) (i : List Nat) (n : Nat) : (s.incRf f i n).fuse = s.fuse := rfl
@[simp] theorem incRf_collector (s : State) (f : RF) (i : List Nat) (n : Nat) : (s.incRf f i n).collector = s.collector := rfl
@[simp] theorem incRf_logQ (s : State) (f : RF) (i : List Nat) (n : Nat) : (s.incRf f i n).logQ = s.logQ := rfl
@[simp] theorem incRf_life (s : State) (f : RF) (i : List Nat) (n : Nat) : (s.incRf f i n).life = s.life := rfl
@[simp] theorem incRf_chainsBad (s : State) (f : RF) (i : List Nat) (n : Nat) : (s.incRf f i n).chainsBad = s.chainsBad := rfl
@[simp] theorem incRf_metersBad (s : State) (f : RF) (i : List Nat) (n : Nat) : (s.incRf f i n).metersBad = s.metersBad := rfl
@[simp] theorem incRf_power (s : State) (f : RF) (i : List Nat) (n : Nat) : (s.incRf f i n).power = s.power := rfl
@[simp] theorem incRf_rst (s : State) (f : RF) (i : List Nat) (n : Nat) : (s.incRf f i n).rst = s.rst := rfl
@[simp] theorem incRf_board (s : State) (f : RF) (i : List Nat) (n : Nat) : (s.incRf f i n).board = s.board := rfl
@[simp] theorem incRf_mcs (s : State) (f : RF) (i : List Nat) (n : Nat) : (s.incRf f i n).mcs = s.mcs := rfl
@[simp] theorem incRf_ctxArea (s : State) (f : RF) (i : List Nat) (n : Nat) : (s.incRf f i n).ctxArea = s.ctxArea := rfl
@[simp] theorem incRf_links (s : State) (f : RF) (i : List Nat) (n : Nat) : (s.incRf f i n).links = s.links := rfl
@[simp] theorem incRf_ringT (s : State) (f : RF) (i : List Nat) (n : Nat) : (s.incRf f i n).ringT = s.ringT := rfl
@[simp] theorem incRf_pair (s : State) (f : RF) (i : List Nat) (n : Nat) : (s.incRf f i n).pair = s.pair := rfl
@[simp] theorem incRf_apgs (s : State) (f : RF) (i : List Nat) (n : Nat) : (s.incRf f i n).apgs = s.apgs := rfl
@[simp] theorem incRf_ports (s : State) (f : RF) (i : List Nat) (n : Nat) : (s.incRf f i n).ports = s.ports := rfl
@[simp] theorem incRf_chains (s : State) (f : RF) (i : List Nat) (n : Nat) : (s.incRf f i n).chains = s.chains := rfl
@[simp] theorem incRf_acqs (s : State) (f : RF) (i : List Nat) (n : Nat) : (s.incRf f i n).acqs = s.acqs := rfl
@[simp] theorem incRf_sbufs (s : State) (f : RF) (i : List Nat) (n : Nat) : (s.incRf f i n).sbufs = s.sbufs := rfl
@[simp] theorem incRf_trigs (s : State) (f : RF) (i : List Nat) (n : Nat) : (s.incRf f i n).trigs = s.trigs := rfl
@[simp] theorem incRf_meters (s : State) (f : RF) (i : List Nat) (n : Nat) : (s.incRf f i n).meters = s.meters := rfl
@[simp] theorem incRf_trigEv (s : State) (f : RF) (i : List Nat) (n : Nat) : (s.incRf f i n).trigEv = s.trigEv := rfl
@[simp] theorem incRf_trigOut (s : State) (f : RF) (i : List Nat) (n : Nat) : (s.incRf f i n).trigOut = s.trigOut := rfl
@[simp] theorem incRf_out (s : State) (f : RF) (i : List Nat) (n : Nat) : (s.incRf f i n).out = s.out := rfl
@[simp] theorem incRf_freeCtr (s : State) (f : RF) (i : List Nat) (n : Nat) : (s.incRf f i n).freeCtr = s.freeCtr := rfl
@[simp] theorem incRf_pending (s : State) (f : RF) (i : List Nat) (n : Nat) : (s.incRf f i n).pending = s.pending := rfl

/-! ### memWrite -/

@[simp] theorem memWrite_dtime (s : State) (ch off : Nat) (bs : List Byte) : (s.memWrite ch off bs).dtime = s.dtime := rfl
@[simp] theorem memWrite_dfrac (s : State) (ch off : Nat) (bs : List Byte) : (s.memWrite ch off bs).dfrac = s.dfrac := rfl
@[simp] theorem memWrite_clk (s : State) (ch off : Nat) (bs : List Byte) : (s.memWrite ch off bs).clk = s.clk := rfl
@[simp] theorem memWrite_regs (s : State) (ch off : Nat) (bs : List Byte) : (s.memWrite ch off bs).regs = s.regs := rfl
@[simp] theorem memWrite_held (s : State) (ch off : Nat) (bs : List Byte) : (s.memWrite ch off bs).held = s.held := rfl
@[simp] theorem memWrite_latch (s : State) (ch off : Nat) (bs : List Byte) : (s.memWrite ch off bs).latch = s.latch := rfl
@[simp] theorem memWrite_host (s : State) (ch off : Nat) (bs : List Byte) : (s.memWrite ch off bs).host = s.host := rfl
@[simp] theorem memWrite_mem (s : State) (ch off : Nat) (bs : List Byte) : (s.memWrite ch off bs).mem = Memory.write s.mem (devAddr ch off) bs := rfl
@[simp] theorem memWrite_objs (s : State) (ch off : Nat) (bs : List Byte) : (s.memWrite ch off bs).objs = s.objs := rfl
@[simp] theorem memWrite_loads (s : State) (ch off : Nat) (bs : List Byte) : (s.memWrite ch off bs).loads = s.loads := rfl
@[simp] theorem memWrite_sites (s : State) (ch off : Nat) (bs : List Byte) : (s.memWrite ch off bs).sites = s.sites := rfl
@[simp] theorem memWrite_groups (s : State) (ch off : Nat) (bs : List Byte) : (s.memWrite ch off bs).groups = s.groups := rfl
@[simp] theorem memWrite_slices (s : State) (ch off : Nat) (bs : List Byte) : (s.memWrite ch off bs).slices = s.slices := rfl
@[simp] theorem memWrite_bursts (s : State) (ch off : Nat) (bs : List Byte) : (s.memWrite ch off bs).bursts = s.bursts := rfl
@[simp] theorem memWrite_arrivals (s : State) (ch off : Nat) (bs : List Byte) : (s.memWrite ch off bs).arrivals = s.arrivals := rfl
@[simp] theorem memWrite_gen (s : State) (ch off : Nat) (bs : List Byte) : (s.memWrite ch off bs).gen = s.gen := rfl
@[simp] theorem memWrite_cache (s : State) (ch off : Nat) (bs : List Byte) : (s.memWrite ch off bs).cache = s.cache := rfl
@[simp] theorem memWrite_results (s : State) (ch off : Nat) (bs : List Byte) : (s.memWrite ch off bs).results = s.results := rfl
@[simp] theorem memWrite_regions (s : State) (ch off : Nat) (bs : List Byte) : (s.memWrite ch off bs).regions = s.regions := rfl
@[simp] theorem memWrite_clusters (s : State) (ch off : Nat) (bs : List Byte) : (s.memWrite ch off bs).clusters = s.clusters := rfl
@[simp] theorem memWrite_calibs (s : State) (ch off : Nat) (bs : List Byte) : (s.memWrite ch off bs).calibs = s.calibs := rfl
@[simp] theorem memWrite_waiting (s : State) (ch off : Nat) (bs : List Byte) : (s.memWrite ch off bs).waiting = s.waiting := rfl
@[simp] theorem memWrite_paddock (s : State) (ch off : Nat) (bs : List Byte) : (s.memWrite ch off bs).paddock = s.paddock := rfl
@[simp] theorem memWrite_pe (s : State) (ch off : Nat) (bs : List Byte) : (s.memWrite ch off bs).pe = s.pe := rfl
@[simp] theorem memWrite_fuse (s : State) (ch off : Nat) (bs : List Byte) : (s.memWrite ch off bs).fuse = s.fuse := rfl
@[simp] theorem memWrite_collector (s : State) (ch off : Nat) (bs : List Byte) : (s.memWrite ch off bs).collector = s.collector := rfl
@[simp] theorem memWrite_logQ (s : State) (ch off : Nat) (bs : List Byte) : (s.memWrite ch off bs).logQ = s.logQ := rfl
@[simp] theorem memWrite_life (s : State) (ch off : Nat) (bs : List Byte) : (s.memWrite ch off bs).life = s.life := rfl
@[simp] theorem memWrite_chainsBad (s : State) (ch off : Nat) (bs : List Byte) : (s.memWrite ch off bs).chainsBad = s.chainsBad := rfl
@[simp] theorem memWrite_metersBad (s : State) (ch off : Nat) (bs : List Byte) : (s.memWrite ch off bs).metersBad = s.metersBad := rfl
@[simp] theorem memWrite_power (s : State) (ch off : Nat) (bs : List Byte) : (s.memWrite ch off bs).power = s.power := rfl
@[simp] theorem memWrite_rst (s : State) (ch off : Nat) (bs : List Byte) : (s.memWrite ch off bs).rst = s.rst := rfl
@[simp] theorem memWrite_board (s : State) (ch off : Nat) (bs : List Byte) : (s.memWrite ch off bs).board = s.board := rfl
@[simp] theorem memWrite_mcs (s : State) (ch off : Nat) (bs : List Byte) : (s.memWrite ch off bs).mcs = s.mcs := rfl
@[simp] theorem memWrite_ctxArea (s : State) (ch off : Nat) (bs : List Byte) : (s.memWrite ch off bs).ctxArea = s.ctxArea := rfl
@[simp] theorem memWrite_links (s : State) (ch off : Nat) (bs : List Byte) : (s.memWrite ch off bs).links = s.links := rfl
@[simp] theorem memWrite_ringT (s : State) (ch off : Nat) (bs : List Byte) : (s.memWrite ch off bs).ringT = s.ringT := rfl
@[simp] theorem memWrite_pair (s : State) (ch off : Nat) (bs : List Byte) : (s.memWrite ch off bs).pair = s.pair := rfl
@[simp] theorem memWrite_apgs (s : State) (ch off : Nat) (bs : List Byte) : (s.memWrite ch off bs).apgs = s.apgs := rfl
@[simp] theorem memWrite_ports (s : State) (ch off : Nat) (bs : List Byte) : (s.memWrite ch off bs).ports = s.ports := rfl
@[simp] theorem memWrite_chains (s : State) (ch off : Nat) (bs : List Byte) : (s.memWrite ch off bs).chains = s.chains := rfl
@[simp] theorem memWrite_acqs (s : State) (ch off : Nat) (bs : List Byte) : (s.memWrite ch off bs).acqs = s.acqs := rfl
@[simp] theorem memWrite_sbufs (s : State) (ch off : Nat) (bs : List Byte) : (s.memWrite ch off bs).sbufs = s.sbufs := rfl
@[simp] theorem memWrite_trigs (s : State) (ch off : Nat) (bs : List Byte) : (s.memWrite ch off bs).trigs = s.trigs := rfl
@[simp] theorem memWrite_meters (s : State) (ch off : Nat) (bs : List Byte) : (s.memWrite ch off bs).meters = s.meters := rfl
@[simp] theorem memWrite_trigEv (s : State) (ch off : Nat) (bs : List Byte) : (s.memWrite ch off bs).trigEv = s.trigEv := rfl
@[simp] theorem memWrite_trigOut (s : State) (ch off : Nat) (bs : List Byte) : (s.memWrite ch off bs).trigOut = s.trigOut := rfl
@[simp] theorem memWrite_out (s : State) (ch off : Nat) (bs : List Byte) : (s.memWrite ch off bs).out = s.out := rfl
@[simp] theorem memWrite_freeCtr (s : State) (ch off : Nat) (bs : List Byte) : (s.memWrite ch off bs).freeCtr = s.freeCtr := rfl
@[simp] theorem memWrite_pending (s : State) (ch off : Nat) (bs : List Byte) : (s.memWrite ch off bs).pending = s.pending := rfl

/-! ### memClear -/

@[simp] theorem memClear_dtime (s : State) (ch off n : Nat) : (s.memClear ch off n).dtime = s.dtime := rfl
@[simp] theorem memClear_dfrac (s : State) (ch off n : Nat) : (s.memClear ch off n).dfrac = s.dfrac := rfl
@[simp] theorem memClear_clk (s : State) (ch off n : Nat) : (s.memClear ch off n).clk = s.clk := rfl
@[simp] theorem memClear_regs (s : State) (ch off n : Nat) : (s.memClear ch off n).regs = s.regs := rfl
@[simp] theorem memClear_held (s : State) (ch off n : Nat) : (s.memClear ch off n).held = s.held := rfl
@[simp] theorem memClear_latch (s : State) (ch off n : Nat) : (s.memClear ch off n).latch = s.latch := rfl
@[simp] theorem memClear_host (s : State) (ch off n : Nat) : (s.memClear ch off n).host = s.host := rfl
@[simp] theorem memClear_mem (s : State) (ch off n : Nat) : (s.memClear ch off n).mem = Memory.clear s.mem (devAddr ch off) n := rfl
@[simp] theorem memClear_objs (s : State) (ch off n : Nat) : (s.memClear ch off n).objs = s.objs := rfl
@[simp] theorem memClear_loads (s : State) (ch off n : Nat) : (s.memClear ch off n).loads = s.loads := rfl
@[simp] theorem memClear_sites (s : State) (ch off n : Nat) : (s.memClear ch off n).sites = s.sites := rfl
@[simp] theorem memClear_groups (s : State) (ch off n : Nat) : (s.memClear ch off n).groups = s.groups := rfl
@[simp] theorem memClear_slices (s : State) (ch off n : Nat) : (s.memClear ch off n).slices = s.slices := rfl
@[simp] theorem memClear_bursts (s : State) (ch off n : Nat) : (s.memClear ch off n).bursts = s.bursts := rfl
@[simp] theorem memClear_arrivals (s : State) (ch off n : Nat) : (s.memClear ch off n).arrivals = s.arrivals := rfl
@[simp] theorem memClear_gen (s : State) (ch off n : Nat) : (s.memClear ch off n).gen = s.gen := rfl
@[simp] theorem memClear_cache (s : State) (ch off n : Nat) : (s.memClear ch off n).cache = s.cache := rfl
@[simp] theorem memClear_results (s : State) (ch off n : Nat) : (s.memClear ch off n).results = s.results := rfl
@[simp] theorem memClear_regions (s : State) (ch off n : Nat) : (s.memClear ch off n).regions = s.regions := rfl
@[simp] theorem memClear_clusters (s : State) (ch off n : Nat) : (s.memClear ch off n).clusters = s.clusters := rfl
@[simp] theorem memClear_calibs (s : State) (ch off n : Nat) : (s.memClear ch off n).calibs = s.calibs := rfl
@[simp] theorem memClear_waiting (s : State) (ch off n : Nat) : (s.memClear ch off n).waiting = s.waiting := rfl
@[simp] theorem memClear_paddock (s : State) (ch off n : Nat) : (s.memClear ch off n).paddock = s.paddock := rfl
@[simp] theorem memClear_pe (s : State) (ch off n : Nat) : (s.memClear ch off n).pe = s.pe := rfl
@[simp] theorem memClear_fuse (s : State) (ch off n : Nat) : (s.memClear ch off n).fuse = s.fuse := rfl
@[simp] theorem memClear_collector (s : State) (ch off n : Nat) : (s.memClear ch off n).collector = s.collector := rfl
@[simp] theorem memClear_logQ (s : State) (ch off n : Nat) : (s.memClear ch off n).logQ = s.logQ := rfl
@[simp] theorem memClear_life (s : State) (ch off n : Nat) : (s.memClear ch off n).life = s.life := rfl
@[simp] theorem memClear_chainsBad (s : State) (ch off n : Nat) : (s.memClear ch off n).chainsBad = s.chainsBad := rfl
@[simp] theorem memClear_metersBad (s : State) (ch off n : Nat) : (s.memClear ch off n).metersBad = s.metersBad := rfl
@[simp] theorem memClear_power (s : State) (ch off n : Nat) : (s.memClear ch off n).power = s.power := rfl
@[simp] theorem memClear_rst (s : State) (ch off n : Nat) : (s.memClear ch off n).rst = s.rst := rfl
@[simp] theorem memClear_board (s : State) (ch off n : Nat) : (s.memClear ch off n).board = s.board := rfl
@[simp] theorem memClear_mcs (s : State) (ch off n : Nat) : (s.memClear ch off n).mcs = s.mcs := rfl
@[simp] theorem memClear_ctxArea (s : State) (ch off n : Nat) : (s.memClear ch off n).ctxArea = s.ctxArea := rfl
@[simp] theorem memClear_links (s : State) (ch off n : Nat) : (s.memClear ch off n).links = s.links := rfl
@[simp] theorem memClear_ringT (s : State) (ch off n : Nat) : (s.memClear ch off n).ringT = s.ringT := rfl
@[simp] theorem memClear_pair (s : State) (ch off n : Nat) : (s.memClear ch off n).pair = s.pair := rfl
@[simp] theorem memClear_apgs (s : State) (ch off n : Nat) : (s.memClear ch off n).apgs = s.apgs := rfl
@[simp] theorem memClear_ports (s : State) (ch off n : Nat) : (s.memClear ch off n).ports = s.ports := rfl
@[simp] theorem memClear_chains (s : State) (ch off n : Nat) : (s.memClear ch off n).chains = s.chains := rfl
@[simp] theorem memClear_acqs (s : State) (ch off n : Nat) : (s.memClear ch off n).acqs = s.acqs := rfl
@[simp] theorem memClear_sbufs (s : State) (ch off n : Nat) : (s.memClear ch off n).sbufs = s.sbufs := rfl
@[simp] theorem memClear_trigs (s : State) (ch off n : Nat) : (s.memClear ch off n).trigs = s.trigs := rfl
@[simp] theorem memClear_meters (s : State) (ch off n : Nat) : (s.memClear ch off n).meters = s.meters := rfl
@[simp] theorem memClear_trigEv (s : State) (ch off n : Nat) : (s.memClear ch off n).trigEv = s.trigEv := rfl
@[simp] theorem memClear_trigOut (s : State) (ch off n : Nat) : (s.memClear ch off n).trigOut = s.trigOut := rfl
@[simp] theorem memClear_out (s : State) (ch off n : Nat) : (s.memClear ch off n).out = s.out := rfl
@[simp] theorem memClear_freeCtr (s : State) (ch off n : Nat) : (s.memClear ch off n).freeCtr = s.freeCtr := rfl
@[simp] theorem memClear_pending (s : State) (ch off n : Nat) : (s.memClear ch off n).pending = s.pending := rfl

/-! ### upSl -/

@[simp] theorem upSl_dtime (s : State) (g : Nat) (f : Slice → Slice) : (s.upSl g f).dtime = s.dtime := rfl
@[simp] theorem upSl_dfrac (s : State) (g : Nat) (f : Slice → Slice) : (s.upSl g f).dfrac = s.dfrac := rfl
@[simp] theorem upSl_clk (s : State) (g : Nat) (f : Slice → Slice) : (s.upSl g f).clk = s.clk := rfl
@[simp] theorem upSl_regs (s : State) (g : Nat) (f : Slice → Slice) : (s.upSl g f).regs = s.regs := rfl
@[simp] theorem upSl_held (s : State) (g : Nat) (f : Slice → Slice) : (s.upSl g f).held = s.held := rfl
@[simp] theorem upSl_latch (s : State) (g : Nat) (f : Slice → Slice) : (s.upSl g f).latch = s.latch := rfl
@[simp] theorem upSl_host (s : State) (g : Nat) (f : Slice → Slice) : (s.upSl g f).host = s.host := rfl
@[simp] theorem upSl_mem (s : State) (g : Nat) (f : Slice → Slice) : (s.upSl g f).mem = s.mem := rfl
@[simp] theorem upSl_bad (s : State) (g : Nat) (f : Slice → Slice) : (s.upSl g f).bad = s.bad := rfl
@[simp] theorem upSl_objs (s : State) (g : Nat) (f : Slice → Slice) : (s.upSl g f).objs = s.objs := rfl
@[simp] theorem upSl_loads (s : State) (g : Nat) (f : Slice → Slice) : (s.upSl g f).loads = s.loads := rfl
@[simp] theorem upSl_sites (s : State) (g : Nat) (f : Slice → Slice) : (s.upSl g f).sites = s.sites := rfl
@[simp] theorem upSl_groups (s : State) (g : Nat) (f : Slice → Slice) : (s.upSl g f).groups = s.groups := rfl
@[simp] theorem upSl_slices (s : State) (g : Nat) (f : Slice → Slice) : (s.upSl g f).slices = s.slices.modify g f := rfl
@[simp] theorem upSl_bursts (s : State) (g : Nat) (f : Slice → Slice) : (s.upSl g f).bursts = s.bursts := rfl
@[simp] theorem upSl_arrivals (s : State) (g : Nat) (f : Slice → Slice) : (s.upSl g f).arrivals = s.arrivals := rfl
@[simp] theorem upSl_gen (s : State) (g : Nat) (f : Slice → Slice) : (s.upSl g f).gen = s.gen := rfl
@[simp] theorem upSl_cache (s : State) (g : Nat) (f : Slice → Slice) : (s.upSl g f).cache = s.cache := rfl
@[simp] theorem upSl_results (s : State) (g : Nat) (f : Slice → Slice) : (s.upSl g f).results = s.results := rfl
@[simp] theorem upSl_regions (s : State) (g : Nat) (f : Slice → Slice) : (s.upSl g f).regions = s.regions := rfl
@[simp] theorem upSl_clusters (s : State) (g : Nat) (f : Slice → Slice) : (s.upSl g f).clusters = s.clusters := rfl
@[simp] theorem upSl_calibs (s : State) (g : Nat) (f : Slice → Slice) : (s.upSl g f).calibs = s.calibs := rfl
@[simp] theorem upSl_waiting (s : State) (g : Nat) (f : Slice → Slice) : (s.upSl g f).waiting = s.waiting := rfl
@[simp] theorem upSl_paddock (s : State) (g : Nat) (f : Slice → Slice) : (s.upSl g f).paddock = s.paddock := rfl
@[simp] theorem upSl_pe (s : State) (g : Nat) (f : Slice → Slice) : (s.upSl g f).pe = s.pe := rfl
@[simp] theorem upSl_fuse (s : State) (g : Nat) (f : Slice → Slice) : (s.upSl g f).fuse = s.fuse := rfl
@[simp] theorem upSl_collector (s : State) (g : Nat) (f : Slice → Slice) : (s.upSl g f).collector = s.collector := rfl
@[simp] theorem upSl_logQ (s : State) (g : Nat) (f : Slice → Slice) : (s.upSl g f).logQ = s.logQ := rfl
@[simp] theorem upSl_life (s : State) (g : Nat) (f : Slice → Slice) : (s.upSl g f).life = s.life := rfl
@[simp] theorem upSl_chainsBad (s : State) (g : Nat) (f : Slice → Slice) : (s.upSl g f).chainsBad = s.chainsBad := rfl
@[simp] theorem upSl_metersBad (s : State) (g : Nat) (f : Slice → Slice) : (s.upSl g f).metersBad = s.metersBad := rfl
@[simp] theorem upSl_power (s : State) (g : Nat) (f : Slice → Slice) : (s.upSl g f).power = s.power := rfl
@[simp] theorem upSl_rst (s : State) (g : Nat) (f : Slice → Slice) : (s.upSl g f).rst = s.rst := rfl
@[simp] theorem upSl_board (s : State) (g : Nat) (f : Slice → Slice) : (s.upSl g f).board = s.board := rfl
@[simp] theorem upSl_mcs (s : State) (g : Nat) (f : Slice → Slice) : (s.upSl g f).mcs = s.mcs := rfl
@[simp] theorem upSl_ctxArea (s : State) (g : Nat) (f : Slice → Slice) : (s.upSl g f).ctxArea = s.ctxArea := rfl
@[simp] theorem upSl_links (s : State) (g : Nat) (f : Slice → Slice) : (s.upSl g f).links = s.links := rfl
@[simp] theorem upSl_ringT (s : State) (g : Nat) (f : Slice → Slice) : (s.upSl g f).ringT = s.ringT := rfl
@[simp] theorem upSl_pair (s : State) (g : Nat) (f : Slice → Slice) : (s.upSl g f).pair = s.pair := rfl
@[simp] theorem upSl_apgs (s : State) (g : Nat) (f : Slice → Slice) : (s.upSl g f).apgs = s.apgs := rfl
@[simp] theorem upSl_ports (s : State) (g : Nat) (f : Slice → Slice) : (s.upSl g f).ports = s.ports := rfl
@[simp] theorem upSl_chains (s : State) (g : Nat) (f : Slice → Slice) : (s.upSl g f).chains = s.chains := rfl
@[simp] theorem upSl_acqs (s : State) (g : Nat) (f : Slice → Slice) : (s.upSl g f).acqs = s.acqs := rfl
@[simp] theorem upSl_sbufs (s : State) (g : Nat) (f : Slice → Slice) : (s.upSl g f).sbufs = s.sbufs := rfl
@[simp] theorem upSl_trigs (s : State) (g : Nat) (f : Slice → Slice) : (s.upSl g f).trigs = s.trigs := rfl
@[simp] theorem upSl_meters (s : State) (g : Nat) (f : Slice → Slice) : (s.upSl g f).meters = s.meters := rfl
@[simp] theorem upSl_trigEv (s : State) (g : Nat) (f : Slice → Slice) : (s.upSl g f).trigEv = s.trigEv := rfl
@[simp] theorem upSl_trigOut (s : State) (g : Nat) (f : Slice → Slice) : (s.upSl g f).trigOut = s.trigOut := rfl
@[simp] theorem upSl_out (s : State) (g : Nat) (f : Slice → Slice) : (s.upSl g f).out = s.out := rfl
@[simp] theorem upSl_freeCtr (s : State) (g : Nat) (f : Slice → Slice) : (s.upSl g f).freeCtr = s.freeCtr := rfl
@[simp] theorem upSl_pending (s : State) (g : Nat) (f : Slice → Slice) : (s.upSl g f).pending = s.pending := rfl

/-! ### upSeq -/

@[simp] theorem upSeq_dtime (s : State) (g : Nat) (f : Seq → Seq) : (s.upSeq g f).dtime = s.dtime := rfl
@[simp] theorem upSeq_dfrac (s : State) (g : Nat) (f : Seq → Seq) : (s.upSeq g f).dfrac = s.dfrac := rfl
@[simp] theorem upSeq_clk (s : State) (g : Nat) (f : Seq → Seq) : (s.upSeq g f).clk = s.clk := rfl
@[simp] theorem upSeq_regs (s : State) (g : Nat) (f : Seq → Seq) : (s.upSeq g f).regs = s.regs := rfl
@[simp] theorem upSeq_held (s : State) (g : Nat) (f : Seq → Seq) : (s.upSeq g f).held = s.held := rfl
@[simp] theorem upSeq_latch (s : State) (g : Nat) (f : Seq → Seq) : (s.upSeq g f).latch = s.latch := rfl
@[simp] theorem upSeq_host (s : State) (g : Nat) (f : Seq → Seq) : (s.upSeq g f).host = s.host := rfl
@[simp] theorem upSeq_mem (s : State) (g : Nat) (f : Seq → Seq) : (s.upSeq g f).mem = s.mem := rfl
@[simp] theorem upSeq_bad (s : State) (g : Nat) (f : Seq → Seq) : (s.upSeq g f).bad = s.bad := rfl
@[simp] theorem upSeq_objs (s : State) (g : Nat) (f : Seq → Seq) : (s.upSeq g f).objs = s.objs := rfl
@[simp] theorem upSeq_loads (s : State) (g : Nat) (f : Seq → Seq) : (s.upSeq g f).loads = s.loads := rfl
@[simp] theorem upSeq_sites (s : State) (g : Nat) (f : Seq → Seq) : (s.upSeq g f).sites = s.sites := rfl
@[simp] theorem upSeq_groups (s : State) (g : Nat) (f : Seq → Seq) : (s.upSeq g f).groups = s.groups := rfl
@[simp] theorem upSeq_bursts (s : State) (g : Nat) (f : Seq → Seq) : (s.upSeq g f).bursts = s.bursts := rfl
@[simp] theorem upSeq_arrivals (s : State) (g : Nat) (f : Seq → Seq) : (s.upSeq g f).arrivals = s.arrivals := rfl
@[simp] theorem upSeq_gen (s : State) (g : Nat) (f : Seq → Seq) : (s.upSeq g f).gen = s.gen := rfl
@[simp] theorem upSeq_cache (s : State) (g : Nat) (f : Seq → Seq) : (s.upSeq g f).cache = s.cache := rfl
@[simp] theorem upSeq_results (s : State) (g : Nat) (f : Seq → Seq) : (s.upSeq g f).results = s.results := rfl
@[simp] theorem upSeq_regions (s : State) (g : Nat) (f : Seq → Seq) : (s.upSeq g f).regions = s.regions := rfl
@[simp] theorem upSeq_clusters (s : State) (g : Nat) (f : Seq → Seq) : (s.upSeq g f).clusters = s.clusters := rfl
@[simp] theorem upSeq_calibs (s : State) (g : Nat) (f : Seq → Seq) : (s.upSeq g f).calibs = s.calibs := rfl
@[simp] theorem upSeq_waiting (s : State) (g : Nat) (f : Seq → Seq) : (s.upSeq g f).waiting = s.waiting := rfl
@[simp] theorem upSeq_paddock (s : State) (g : Nat) (f : Seq → Seq) : (s.upSeq g f).paddock = s.paddock := rfl
@[simp] theorem upSeq_pe (s : State) (g : Nat) (f : Seq → Seq) : (s.upSeq g f).pe = s.pe := rfl
@[simp] theorem upSeq_fuse (s : State) (g : Nat) (f : Seq → Seq) : (s.upSeq g f).fuse = s.fuse := rfl
@[simp] theorem upSeq_collector (s : State) (g : Nat) (f : Seq → Seq) : (s.upSeq g f).collector = s.collector := rfl
@[simp] theorem upSeq_logQ (s : State) (g : Nat) (f : Seq → Seq) : (s.upSeq g f).logQ = s.logQ := rfl
@[simp] theorem upSeq_life (s : State) (g : Nat) (f : Seq → Seq) : (s.upSeq g f).life = s.life := rfl
@[simp] theorem upSeq_chainsBad (s : State) (g : Nat) (f : Seq → Seq) : (s.upSeq g f).chainsBad = s.chainsBad := rfl
@[simp] theorem upSeq_metersBad (s : State) (g : Nat) (f : Seq → Seq) : (s.upSeq g f).metersBad = s.metersBad := rfl
@[simp] theorem upSeq_power (s : State) (g : Nat) (f : Seq → Seq) : (s.upSeq g f).power = s.power := rfl
@[simp] theorem upSeq_rst (s : State) (g : Nat) (f : Seq → Seq) : (s.upSeq g f).rst = s.rst := rfl
@[simp] theorem upSeq_board (s : State) (g : Nat) (f : Seq → Seq) : (s.upSeq g f).board = s.board := rfl
@[simp] theorem upSeq_mcs (s : State) (g : Nat) (f : Seq → Seq) : (s.upSeq g f).mcs = s.mcs := rfl
@[simp] theorem upSeq_ctxArea (s : State) (g : Nat) (f : Seq → Seq) : (s.upSeq g f).ctxArea = s.ctxArea := rfl
@[simp] theorem upSeq_links (s : State) (g : Nat) (f : Seq → Seq) : (s.upSeq g f).links = s.links := rfl
@[simp] theorem upSeq_ringT (s : State) (g : Nat) (f : Seq → Seq) : (s.upSeq g f).ringT = s.ringT := rfl
@[simp] theorem upSeq_pair (s : State) (g : Nat) (f : Seq → Seq) : (s.upSeq g f).pair = s.pair := rfl
@[simp] theorem upSeq_apgs (s : State) (g : Nat) (f : Seq → Seq) : (s.upSeq g f).apgs = s.apgs := rfl
@[simp] theorem upSeq_ports (s : State) (g : Nat) (f : Seq → Seq) : (s.upSeq g f).ports = s.ports := rfl
@[simp] theorem upSeq_chains (s : State) (g : Nat) (f : Seq → Seq) : (s.upSeq g f).chains = s.chains := rfl
@[simp] theorem upSeq_acqs (s : State) (g : Nat) (f : Seq → Seq) : (s.upSeq g f).acqs = s.acqs := rfl
@[simp] theorem upSeq_sbufs (s : State) (g : Nat) (f : Seq → Seq) : (s.upSeq g f).sbufs = s.sbufs := rfl
@[simp] theorem upSeq_trigs (s : State) (g : Nat) (f : Seq → Seq) : (s.upSeq g f).trigs = s.trigs := rfl
@[simp] theorem upSeq_meters (s : State) (g : Nat) (f : Seq → Seq) : (s.upSeq g f).meters = s.meters := rfl
@[simp] theorem upSeq_trigEv (s : State) (g : Nat) (f : Seq → Seq) : (s.upSeq g f).trigEv = s.trigEv := rfl
@[simp] theorem upSeq_trigOut (s : State) (g : Nat) (f : Seq → Seq) : (s.upSeq g f).trigOut = s.trigOut := rfl
@[simp] theorem upSeq_out (s : State) (g : Nat) (f : Seq → Seq) : (s.upSeq g f).out = s.out := rfl
@[simp] theorem upSeq_freeCtr (s : State) (g : Nat) (f : Seq → Seq) : (s.upSeq g f).freeCtr = s.freeCtr := rfl
@[simp] theorem upSeq_pending (s : State) (g : Nat) (f : Seq → Seq) : (s.upSeq g f).pending = s.pending := rfl

/-! ### upCl -/

@[simp] theorem upCl_dtime (s : State) (n : Nat) (f : Cluster → Cluster) : (s.upCl n f).dtime = s.dtime := rfl
@[simp] theorem upCl_dfrac (s : State) (n : Nat) (f : Cluster → Cluster) : (s.upCl n f).dfrac = s.dfrac := rfl
@[simp] theorem upCl_clk (s : State) (n : Nat) (f : Cluster → Cluster) : (s.upCl n f).clk = s.clk := rfl
@[simp] theorem upCl_regs (s : State) (n : Nat) (f : Cluster → Cluster) : (s.upCl n f).regs = s.regs := rfl
@[simp] theorem upCl_held (s : State) (n : Nat) (f : Cluster → Cluster) : (s.upCl n f).held = s.held := rfl
@[simp] theorem upCl_latch (s : State) (n : Nat) (f : Cluster → Cluster) : (s.upCl n f).latch = s.latch := rfl
@[simp] theorem upCl_host (s : State) (n : Nat) (f : Cluster → Cluster) : (s.upCl n f).host = s.host := rfl
@[simp] theorem upCl_mem (s : State) (n : Nat) (f : Cluster → Cluster) : (s.upCl n f).mem = s.mem := rfl
@[simp] theorem upCl_bad (s : State) (n : Nat) (f : Cluster → Cluster) : (s.upCl n f).bad = s.bad := rfl
@[simp] theorem upCl_objs (s : State) (n : Nat) (f : Cluster → Cluster) : (s.upCl n f).objs = s.objs := rfl
@[simp] theorem upCl_loads (s : State) (n : Nat) (f : Cluster → Cluster) : (s.upCl n f).loads = s.loads := rfl
@[simp] theorem upCl_sites (s : State) (n : Nat) (f : Cluster → Cluster) : (s.upCl n f).sites = s.sites := rfl
@[simp] theorem upCl_groups (s : State) (n : Nat) (f : Cluster → Cluster) : (s.upCl n f).groups = s.groups := rfl
@[simp] theorem upCl_slices (s : State) (n : Nat) (f : Cluster → Cluster) : (s.upCl n f).slices = s.slices := rfl
@[simp] theorem upCl_bursts (s : State) (n : Nat) (f : Cluster → Cluster) : (s.upCl n f).bursts = s.bursts := rfl
@[simp] theorem upCl_arrivals (s : State) (n : Nat) (f : Cluster → Cluster) : (s.upCl n f).arrivals = s.arrivals := rfl
@[simp] theorem upCl_gen (s : State) (n : Nat) (f : Cluster → Cluster) : (s.upCl n f).gen = s.gen := rfl
@[simp] theorem upCl_cache (s : State) (n : Nat) (f : Cluster → Cluster) : (s.upCl n f).cache = s.cache := rfl
@[simp] theorem upCl_results (s : State) (n : Nat) (f : Cluster → Cluster) : (s.upCl n f).results = s.results := rfl
@[simp] theorem upCl_regions (s : State) (n : Nat) (f : Cluster → Cluster) : (s.upCl n f).regions = s.regions := rfl
@[simp] theorem upCl_clusters (s : State) (n : Nat) (f : Cluster → Cluster) : (s.upCl n f).clusters = s.clusters.modify n f := rfl
@[simp] theorem upCl_calibs (s : State) (n : Nat) (f : Cluster → Cluster) : (s.upCl n f).calibs = s.calibs := rfl
@[simp] theorem upCl_waiting (s : State) (n : Nat) (f : Cluster → Cluster) : (s.upCl n f).waiting = s.waiting := rfl
@[simp] theorem upCl_paddock (s : State) (n : Nat) (f : Cluster → Cluster) : (s.upCl n f).paddock = s.paddock := rfl
@[simp] theorem upCl_pe (s : State) (n : Nat) (f : Cluster → Cluster) : (s.upCl n f).pe = s.pe := rfl
@[simp] theorem upCl_fuse (s : State) (n : Nat) (f : Cluster → Cluster) : (s.upCl n f).fuse = s.fuse := rfl
@[simp] theorem upCl_collector (s : State) (n : Nat) (f : Cluster → Cluster) : (s.upCl n f).collector = s.collector := rfl
@[simp] theorem upCl_logQ (s : State) (n : Nat) (f : Cluster → Cluster) : (s.upCl n f).logQ = s.logQ := rfl
@[simp] theorem upCl_life (s : State) (n : Nat) (f : Cluster → Cluster) : (s.upCl n f).life = s.life := rfl
@[simp] theorem upCl_chainsBad (s : State) (n : Nat) (f : Cluster → Cluster) : (s.upCl n f).chainsBad = s.chainsBad := rfl
@[simp] theorem upCl_metersBad (s : State) (n : Nat) (f : Cluster → Cluster) : (s.upCl n f).metersBad = s.metersBad := rfl
@[simp] theorem upCl_power (s : State) (n : Nat) (f : Cluster → Cluster) : (s.upCl n f).power = s.power := rfl
@[simp] theorem upCl_rst (s : State) (n : Nat) (f : Cluster → Cluster) : (s.upCl n f).rst = s.rst := rfl
@[simp] theorem upCl_board (s : State) (n : Nat) (f : Cluster → Cluster) : (s.upCl n f).board = s.board := rfl
@[simp] theorem upCl_mcs (s : State) (n : Nat) (f : Cluster → Cluster) : (s.upCl n f).mcs = s.mcs := rfl
@[simp] theorem upCl_ctxArea (s : State) (n : Nat) (f : Cluster → Cluster) : (s.upCl n f).ctxArea = s.ctxArea := rfl
@[simp] theorem upCl_links (s : State) (n : Nat) (f : Cluster → Cluster) : (s.upCl n f).links = s.links := rfl
@[simp] theorem upCl_ringT (s : State) (n : Nat) (f : Cluster → Cluster) : (s.upCl n f).ringT = s.ringT := rfl
@[simp] theorem upCl_pair (s : State) (n : Nat) (f : Cluster → Cluster) : (s.upCl n f).pair = s.pair := rfl
@[simp] theorem upCl_apgs (s : State) (n : Nat) (f : Cluster → Cluster) : (s.upCl n f).apgs = s.apgs := rfl
@[simp] theorem upCl_ports (s : State) (n : Nat) (f : Cluster → Cluster) : (s.upCl n f).ports = s.ports := rfl
@[simp] theorem upCl_chains (s : State) (n : Nat) (f : Cluster → Cluster) : (s.upCl n f).chains = s.chains := rfl
@[simp] theorem upCl_acqs (s : State) (n : Nat) (f : Cluster → Cluster) : (s.upCl n f).acqs = s.acqs := rfl
@[simp] theorem upCl_sbufs (s : State) (n : Nat) (f : Cluster → Cluster) : (s.upCl n f).sbufs = s.sbufs := rfl
@[simp] theorem upCl_trigs (s : State) (n : Nat) (f : Cluster → Cluster) : (s.upCl n f).trigs = s.trigs := rfl
@[simp] theorem upCl_meters (s : State) (n : Nat) (f : Cluster → Cluster) : (s.upCl n f).meters = s.meters := rfl
@[simp] theorem upCl_trigEv (s : State) (n : Nat) (f : Cluster → Cluster) : (s.upCl n f).trigEv = s.trigEv := rfl
@[simp] theorem upCl_trigOut (s : State) (n : Nat) (f : Cluster → Cluster) : (s.upCl n f).trigOut = s.trigOut := rfl
@[simp] theorem upCl_out (s : State) (n : Nat) (f : Cluster → Cluster) : (s.upCl n f).out = s.out := rfl
@[simp] theorem upCl_freeCtr (s : State) (n : Nat) (f : Cluster → Cluster) : (s.upCl n f).freeCtr = s.freeCtr := rfl
@[simp] theorem upCl_pending (s : State) (n : Nat) (f : Cluster → Cluster) : (s.upCl n f).pending = s.pending := rfl

/-! ### at -/

@[simp] theorem at_dtime (s : State) (t : Nat) : (s.at t).dtime = if s.counts then max s.dtime t else s.dtime := rfl
@[simp] theorem at_dfrac (s : State) (t : Nat) : (s.at t).dfrac = s.dfrac := rfl
@[simp] theorem at_clk (s : State) (t : Nat) : (s.at t).clk = s.clk := rfl
@[simp] theorem at_regs (s : State) (t : Nat) : (s.at t).regs = s.regs := rfl
@[simp] theorem at_held (s : State) (t : Nat) : (s.at t).held = s.held := rfl
@[simp] theorem at_latch (s : State) (t : Nat) : (s.at t).latch = s.latch := rfl
@[simp] theorem at_host (s : State) (t : Nat) : (s.at t).host = s.host := rfl
@[simp] theorem at_mem (s : State) (t : Nat) : (s.at t).mem = s.mem := rfl
@[simp] theorem at_bad (s : State) (t : Nat) : (s.at t).bad = s.bad := rfl
@[simp] theorem at_objs (s : State) (t : Nat) : (s.at t).objs = s.objs := rfl
@[simp] theorem at_loads (s : State) (t : Nat) : (s.at t).loads = s.loads := rfl
@[simp] theorem at_sites (s : State) (t : Nat) : (s.at t).sites = s.sites := rfl
@[simp] theorem at_groups (s : State) (t : Nat) : (s.at t).groups = s.groups := rfl
@[simp] theorem at_slices (s : State) (t : Nat) : (s.at t).slices = s.slices := rfl
@[simp] theorem at_bursts (s : State) (t : Nat) : (s.at t).bursts = s.bursts := rfl
@[simp] theorem at_arrivals (s : State) (t : Nat) : (s.at t).arrivals = s.arrivals := rfl
@[simp] theorem at_gen (s : State) (t : Nat) : (s.at t).gen = s.gen := rfl
@[simp] theorem at_cache (s : State) (t : Nat) : (s.at t).cache = s.cache := rfl
@[simp] theorem at_results (s : State) (t : Nat) : (s.at t).results = s.results := rfl
@[simp] theorem at_regions (s : State) (t : Nat) : (s.at t).regions = s.regions := rfl
@[simp] theorem at_clusters (s : State) (t : Nat) : (s.at t).clusters = s.clusters := rfl
@[simp] theorem at_calibs (s : State) (t : Nat) : (s.at t).calibs = s.calibs := rfl
@[simp] theorem at_waiting (s : State) (t : Nat) : (s.at t).waiting = s.waiting := rfl
@[simp] theorem at_paddock (s : State) (t : Nat) : (s.at t).paddock = s.paddock := rfl
@[simp] theorem at_pe (s : State) (t : Nat) : (s.at t).pe = s.pe := rfl
@[simp] theorem at_fuse (s : State) (t : Nat) : (s.at t).fuse = s.fuse := rfl
@[simp] theorem at_collector (s : State) (t : Nat) : (s.at t).collector = s.collector := rfl
@[simp] theorem at_logQ (s : State) (t : Nat) : (s.at t).logQ = s.logQ := rfl
@[simp] theorem at_life (s : State) (t : Nat) : (s.at t).life = s.life := rfl
@[simp] theorem at_chainsBad (s : State) (t : Nat) : (s.at t).chainsBad = s.chainsBad := rfl
@[simp] theorem at_metersBad (s : State) (t : Nat) : (s.at t).metersBad = s.metersBad := rfl
@[simp] theorem at_power (s : State) (t : Nat) : (s.at t).power = s.power := rfl
@[simp] theorem at_rst (s : State) (t : Nat) : (s.at t).rst = s.rst := rfl
@[simp] theorem at_board (s : State) (t : Nat) : (s.at t).board = s.board := rfl
@[simp] theorem at_mcs (s : State) (t : Nat) : (s.at t).mcs = s.mcs := rfl
@[simp] theorem at_ctxArea (s : State) (t : Nat) : (s.at t).ctxArea = s.ctxArea := rfl
@[simp] theorem at_links (s : State) (t : Nat) : (s.at t).links = s.links := rfl
@[simp] theorem at_ringT (s : State) (t : Nat) : (s.at t).ringT = s.ringT := rfl
@[simp] theorem at_pair (s : State) (t : Nat) : (s.at t).pair = s.pair := rfl
@[simp] theorem at_apgs (s : State) (t : Nat) : (s.at t).apgs = s.apgs := rfl
@[simp] theorem at_ports (s : State) (t : Nat) : (s.at t).ports = s.ports := rfl
@[simp] theorem at_chains (s : State) (t : Nat) : (s.at t).chains = s.chains := rfl
@[simp] theorem at_acqs (s : State) (t : Nat) : (s.at t).acqs = s.acqs := rfl
@[simp] theorem at_sbufs (s : State) (t : Nat) : (s.at t).sbufs = s.sbufs := rfl
@[simp] theorem at_trigs (s : State) (t : Nat) : (s.at t).trigs = s.trigs := rfl
@[simp] theorem at_meters (s : State) (t : Nat) : (s.at t).meters = s.meters := rfl
@[simp] theorem at_trigEv (s : State) (t : Nat) : (s.at t).trigEv = s.trigEv := rfl
@[simp] theorem at_trigOut (s : State) (t : Nat) : (s.at t).trigOut = s.trigOut := rfl
@[simp] theorem at_out (s : State) (t : Nat) : (s.at t).out = s.out := rfl
@[simp] theorem at_freeCtr (s : State) (t : Nat) : (s.at t).freeCtr = s.freeCtr := rfl
@[simp] theorem at_pending (s : State) (t : Nat) : (s.at t).pending = s.pending := rfl

/-! ### draw -/

@[simp] theorem draw_dtime (s : State) : (s.draw).dtime = s.dtime := rfl
@[simp] theorem draw_dfrac (s : State) : (s.draw).dfrac = s.dfrac := rfl
@[simp] theorem draw_clk (s : State) : (s.draw).clk = s.clk := rfl
@[simp] theorem draw_regs (s : State) : (s.draw).regs = s.regs := rfl
@[simp] theorem draw_held (s : State) : (s.draw).held = s.held := rfl
@[simp] theorem draw_latch (s : State) : (s.draw).latch = s.latch := rfl
@[simp] theorem draw_host (s : State) : (s.draw).host = s.host := rfl
@[simp] theorem draw_mem (s : State) : (s.draw).mem = s.mem := rfl
@[simp] theorem draw_bad (s : State) : (s.draw).bad = s.bad := rfl
@[simp] theorem draw_objs (s : State) : (s.draw).objs = s.objs := rfl
@[simp] theorem draw_loads (s : State) : (s.draw).loads = s.loads := rfl
@[simp] theorem draw_sites (s : State) : (s.draw).sites = s.sites := rfl
@[simp] theorem draw_groups (s : State) : (s.draw).groups = s.groups := rfl
@[simp] theorem draw_slices (s : State) : (s.draw).slices = s.slices := rfl
@[simp] theorem draw_bursts (s : State) : (s.draw).bursts = s.bursts := rfl
@[simp] theorem draw_arrivals (s : State) : (s.draw).arrivals = s.arrivals := rfl
@[simp] theorem draw_gen (s : State) : (s.draw).gen = s.gen := rfl
@[simp] theorem draw_cache (s : State) : (s.draw).cache = s.cache := rfl
@[simp] theorem draw_results (s : State) : (s.draw).results = s.results := rfl
@[simp] theorem draw_regions (s : State) : (s.draw).regions = s.regions := rfl
@[simp] theorem draw_clusters (s : State) : (s.draw).clusters = s.clusters := rfl
@[simp] theorem draw_calibs (s : State) : (s.draw).calibs = s.calibs := rfl
@[simp] theorem draw_waiting (s : State) : (s.draw).waiting = s.waiting := rfl
@[simp] theorem draw_paddock (s : State) : (s.draw).paddock = s.paddock := rfl
@[simp] theorem draw_pe (s : State) : (s.draw).pe = s.pe := rfl
@[simp] theorem draw_fuse (s : State) : (s.draw).fuse = s.fuse := rfl
@[simp] theorem draw_collector (s : State) : (s.draw).collector = s.collector := rfl
@[simp] theorem draw_logQ (s : State) : (s.draw).logQ = s.logQ := rfl
@[simp] theorem draw_life (s : State) : (s.draw).life = s.life := rfl
@[simp] theorem draw_chainsBad (s : State) : (s.draw).chainsBad = s.chainsBad := rfl
@[simp] theorem draw_metersBad (s : State) : (s.draw).metersBad = s.metersBad := rfl
@[simp] theorem draw_power (s : State) : (s.draw).power = s.power := rfl
@[simp] theorem draw_rst (s : State) : (s.draw).rst = s.rst := rfl
@[simp] theorem draw_board (s : State) : (s.draw).board = s.board := rfl
@[simp] theorem draw_mcs (s : State) : (s.draw).mcs = s.mcs := rfl
@[simp] theorem draw_ctxArea (s : State) : (s.draw).ctxArea = s.ctxArea := rfl
@[simp] theorem draw_links (s : State) : (s.draw).links = s.links := rfl
@[simp] theorem draw_ringT (s : State) : (s.draw).ringT = s.ringT := rfl
@[simp] theorem draw_pair (s : State) : (s.draw).pair = s.pair := rfl
@[simp] theorem draw_apgs (s : State) : (s.draw).apgs = s.apgs := rfl
@[simp] theorem draw_ports (s : State) : (s.draw).ports = s.ports := rfl
@[simp] theorem draw_chains (s : State) : (s.draw).chains = s.chains := rfl
@[simp] theorem draw_acqs (s : State) : (s.draw).acqs = s.acqs := rfl
@[simp] theorem draw_sbufs (s : State) : (s.draw).sbufs = s.sbufs := rfl
@[simp] theorem draw_trigs (s : State) : (s.draw).trigs = s.trigs := rfl
@[simp] theorem draw_meters (s : State) : (s.draw).meters = s.meters := rfl
@[simp] theorem draw_trigEv (s : State) : (s.draw).trigEv = s.trigEv := rfl
@[simp] theorem draw_trigOut (s : State) : (s.draw).trigOut = s.trigOut := rfl
@[simp] theorem draw_out (s : State) : (s.draw).out = s.out := rfl
@[simp] theorem draw_freeCtr (s : State) : (s.draw).freeCtr = s.freeCtr + 1 := rfl
@[simp] theorem draw_pending (s : State) : (s.draw).pending = s.pending := rfl

/-! ### emit -/

@[simp] theorem emit_dtime (s : State) (o : Out) : (s.emit o).dtime = s.dtime := rfl
@[simp] theorem emit_dfrac (s : State) (o : Out) : (s.emit o).dfrac = s.dfrac := rfl
@[simp] theorem emit_clk (s : State) (o : Out) : (s.emit o).clk = s.clk := rfl
@[simp] theorem emit_regs (s : State) (o : Out) : (s.emit o).regs = s.regs := rfl
@[simp] theorem emit_held (s : State) (o : Out) : (s.emit o).held = s.held := rfl
@[simp] theorem emit_latch (s : State) (o : Out) : (s.emit o).latch = s.latch := rfl
@[simp] theorem emit_host (s : State) (o : Out) : (s.emit o).host = s.host := rfl
@[simp] theorem emit_mem (s : State) (o : Out) : (s.emit o).mem = s.mem := rfl
@[simp] theorem emit_bad (s : State) (o : Out) : (s.emit o).bad = s.bad := rfl
@[simp] theorem emit_objs (s : State) (o : Out) : (s.emit o).objs = s.objs := rfl
@[simp] theorem emit_loads (s : State) (o : Out) : (s.emit o).loads = s.loads := rfl
@[simp] theorem emit_sites (s : State) (o : Out) : (s.emit o).sites = s.sites := rfl
@[simp] theorem emit_groups (s : State) (o : Out) : (s.emit o).groups = s.groups := rfl
@[simp] theorem emit_slices (s : State) (o : Out) : (s.emit o).slices = s.slices := rfl
@[simp] theorem emit_bursts (s : State) (o : Out) : (s.emit o).bursts = s.bursts := rfl
@[simp] theorem emit_arrivals (s : State) (o : Out) : (s.emit o).arrivals = s.arrivals := rfl
@[simp] theorem emit_gen (s : State) (o : Out) : (s.emit o).gen = s.gen := rfl
@[simp] theorem emit_cache (s : State) (o : Out) : (s.emit o).cache = s.cache := rfl
@[simp] theorem emit_results (s : State) (o : Out) : (s.emit o).results = s.results := rfl
@[simp] theorem emit_regions (s : State) (o : Out) : (s.emit o).regions = s.regions := rfl
@[simp] theorem emit_clusters (s : State) (o : Out) : (s.emit o).clusters = s.clusters := rfl
@[simp] theorem emit_calibs (s : State) (o : Out) : (s.emit o).calibs = s.calibs := rfl
@[simp] theorem emit_waiting (s : State) (o : Out) : (s.emit o).waiting = s.waiting := rfl
@[simp] theorem emit_paddock (s : State) (o : Out) : (s.emit o).paddock = s.paddock := rfl
@[simp] theorem emit_pe (s : State) (o : Out) : (s.emit o).pe = s.pe := rfl
@[simp] theorem emit_fuse (s : State) (o : Out) : (s.emit o).fuse = s.fuse := rfl
@[simp] theorem emit_collector (s : State) (o : Out) : (s.emit o).collector = s.collector := rfl
@[simp] theorem emit_logQ (s : State) (o : Out) : (s.emit o).logQ = s.logQ := rfl
@[simp] theorem emit_life (s : State) (o : Out) : (s.emit o).life = s.life := rfl
@[simp] theorem emit_chainsBad (s : State) (o : Out) : (s.emit o).chainsBad = s.chainsBad := rfl
@[simp] theorem emit_metersBad (s : State) (o : Out) : (s.emit o).metersBad = s.metersBad := rfl
@[simp] theorem emit_power (s : State) (o : Out) : (s.emit o).power = s.power := rfl
@[simp] theorem emit_rst (s : State) (o : Out) : (s.emit o).rst = s.rst := rfl
@[simp] theorem emit_board (s : State) (o : Out) : (s.emit o).board = s.board := rfl
@[simp] theorem emit_mcs (s : State) (o : Out) : (s.emit o).mcs = s.mcs := rfl
@[simp] theorem emit_ctxArea (s : State) (o : Out) : (s.emit o).ctxArea = s.ctxArea := rfl
@[simp] theorem emit_links (s : State) (o : Out) : (s.emit o).links = s.links := rfl
@[simp] theorem emit_ringT (s : State) (o : Out) : (s.emit o).ringT = s.ringT := rfl
@[simp] theorem emit_pair (s : State) (o : Out) : (s.emit o).pair = s.pair := rfl
@[simp] theorem emit_apgs (s : State) (o : Out) : (s.emit o).apgs = s.apgs := rfl
@[simp] theorem emit_ports (s : State) (o : Out) : (s.emit o).ports = s.ports := rfl
@[simp] theorem emit_chains (s : State) (o : Out) : (s.emit o).chains = s.chains := rfl
@[simp] theorem emit_acqs (s : State) (o : Out) : (s.emit o).acqs = s.acqs := rfl
@[simp] theorem emit_sbufs (s : State) (o : Out) : (s.emit o).sbufs = s.sbufs := rfl
@[simp] theorem emit_trigs (s : State) (o : Out) : (s.emit o).trigs = s.trigs := rfl
@[simp] theorem emit_meters (s : State) (o : Out) : (s.emit o).meters = s.meters := rfl
@[simp] theorem emit_trigEv (s : State) (o : Out) : (s.emit o).trigEv = s.trigEv := rfl
@[simp] theorem emit_trigOut (s : State) (o : Out) : (s.emit o).trigOut = s.trigOut := rfl
@[simp] theorem emit_out (s : State) (o : Out) : (s.emit o).out = s.out ++ [o] := rfl
@[simp] theorem emit_freeCtr (s : State) (o : Out) : (s.emit o).freeCtr = s.freeCtr := rfl
@[simp] theorem emit_pending (s : State) (o : Out) : (s.emit o).pending = s.pending := rfl

/-! ### upRing -/

@[simp] theorem upRing_dtime (s : State) (k : Nat) (f : Ring → Ring) : (s.upRing k f).dtime = s.dtime := rfl
@[simp] theorem upRing_dfrac (s : State) (k : Nat) (f : Ring → Ring) : (s.upRing k f).dfrac = s.dfrac := rfl
@[simp] theorem upRing_clk (s : State) (k : Nat) (f : Ring → Ring) : (s.upRing k f).clk = s.clk := rfl
@[simp] theorem upRing_regs (s : State) (k : Nat) (f : Ring → Ring) : (s.upRing k f).regs = s.regs := rfl
@[simp] theorem upRing_held (s : State) (k : Nat) (f : Ring → Ring) : (s.upRing k f).held = s.held := rfl
@[simp] theorem upRing_latch (s : State) (k : Nat) (f : Ring → Ring) : (s.upRing k f).latch = s.latch := rfl
@[simp] theorem upRing_host (s : State) (k : Nat) (f : Ring → Ring) : (s.upRing k f).host = { s.host with rings := s.host.rings.modify k f } := rfl
@[simp] theorem upRing_mem (s : State) (k : Nat) (f : Ring → Ring) : (s.upRing k f).mem = s.mem := rfl
@[simp] theorem upRing_bad (s : State) (k : Nat) (f : Ring → Ring) : (s.upRing k f).bad = s.bad := rfl
@[simp] theorem upRing_objs (s : State) (k : Nat) (f : Ring → Ring) : (s.upRing k f).objs = s.objs := rfl
@[simp] theorem upRing_loads (s : State) (k : Nat) (f : Ring → Ring) : (s.upRing k f).loads = s.loads := rfl
@[simp] theorem upRing_sites (s : State) (k : Nat) (f : Ring → Ring) : (s.upRing k f).sites = s.sites := rfl
@[simp] theorem upRing_groups (s : State) (k : Nat) (f : Ring → Ring) : (s.upRing k f).groups = s.groups := rfl
@[simp] theorem upRing_slices (s : State) (k : Nat) (f : Ring → Ring) : (s.upRing k f).slices = s.slices := rfl
@[simp] theorem upRing_bursts (s : State) (k : Nat) (f : Ring → Ring) : (s.upRing k f).bursts = s.bursts := rfl
@[simp] theorem upRing_arrivals (s : State) (k : Nat) (f : Ring → Ring) : (s.upRing k f).arrivals = s.arrivals := rfl
@[simp] theorem upRing_gen (s : State) (k : Nat) (f : Ring → Ring) : (s.upRing k f).gen = s.gen := rfl
@[simp] theorem upRing_cache (s : State) (k : Nat) (f : Ring → Ring) : (s.upRing k f).cache = s.cache := rfl
@[simp] theorem upRing_results (s : State) (k : Nat) (f : Ring → Ring) : (s.upRing k f).results = s.results := rfl
@[simp] theorem upRing_regions (s : State) (k : Nat) (f : Ring → Ring) : (s.upRing k f).regions = s.regions := rfl
@[simp] theorem upRing_clusters (s : State) (k : Nat) (f : Ring → Ring) : (s.upRing k f).clusters = s.clusters := rfl
@[simp] theorem upRing_calibs (s : State) (k : Nat) (f : Ring → Ring) : (s.upRing k f).calibs = s.calibs := rfl
@[simp] theorem upRing_waiting (s : State) (k : Nat) (f : Ring → Ring) : (s.upRing k f).waiting = s.waiting := rfl
@[simp] theorem upRing_paddock (s : State) (k : Nat) (f : Ring → Ring) : (s.upRing k f).paddock = s.paddock := rfl
@[simp] theorem upRing_pe (s : State) (k : Nat) (f : Ring → Ring) : (s.upRing k f).pe = s.pe := rfl
@[simp] theorem upRing_fuse (s : State) (k : Nat) (f : Ring → Ring) : (s.upRing k f).fuse = s.fuse := rfl
@[simp] theorem upRing_collector (s : State) (k : Nat) (f : Ring → Ring) : (s.upRing k f).collector = s.collector := rfl
@[simp] theorem upRing_logQ (s : State) (k : Nat) (f : Ring → Ring) : (s.upRing k f).logQ = s.logQ := rfl
@[simp] theorem upRing_life (s : State) (k : Nat) (f : Ring → Ring) : (s.upRing k f).life = s.life := rfl
@[simp] theorem upRing_chainsBad (s : State) (k : Nat) (f : Ring → Ring) : (s.upRing k f).chainsBad = s.chainsBad := rfl
@[simp] theorem upRing_metersBad (s : State) (k : Nat) (f : Ring → Ring) : (s.upRing k f).metersBad = s.metersBad := rfl
@[simp] theorem upRing_power (s : State) (k : Nat) (f : Ring → Ring) : (s.upRing k f).power = s.power := rfl
@[simp] theorem upRing_rst (s : State) (k : Nat) (f : Ring → Ring) : (s.upRing k f).rst = s.rst := rfl
@[simp] theorem upRing_board (s : State) (k : Nat) (f : Ring → Ring) : (s.upRing k f).board = s.board := rfl
@[simp] theorem upRing_mcs (s : State) (k : Nat) (f : Ring → Ring) : (s.upRing k f).mcs = s.mcs := rfl
@[simp] theorem upRing_ctxArea (s : State) (k : Nat) (f : Ring → Ring) : (s.upRing k f).ctxArea = s.ctxArea := rfl
@[simp] theorem upRing_links (s : State) (k : Nat) (f : Ring → Ring) : (s.upRing k f).links = s.links := rfl
@[simp] theorem upRing_ringT (s : State) (k : Nat) (f : Ring → Ring) : (s.upRing k f).ringT = s.ringT := rfl
@[simp] theorem upRing_pair (s : State) (k : Nat) (f : Ring → Ring) : (s.upRing k f).pair = s.pair := rfl
@[simp] theorem upRing_apgs (s : State) (k : Nat) (f : Ring → Ring) : (s.upRing k f).apgs = s.apgs := rfl
@[simp] theorem upRing_ports (s : State) (k : Nat) (f : Ring → Ring) : (s.upRing k f).ports = s.ports := rfl
@[simp] theorem upRing_chains (s : State) (k : Nat) (f : Ring → Ring) : (s.upRing k f).chains = s.chains := rfl
@[simp] theorem upRing_acqs (s : State) (k : Nat) (f : Ring → Ring) : (s.upRing k f).acqs = s.acqs := rfl
@[simp] theorem upRing_sbufs (s : State) (k : Nat) (f : Ring → Ring) : (s.upRing k f).sbufs = s.sbufs := rfl
@[simp] theorem upRing_trigs (s : State) (k : Nat) (f : Ring → Ring) : (s.upRing k f).trigs = s.trigs := rfl
@[simp] theorem upRing_meters (s : State) (k : Nat) (f : Ring → Ring) : (s.upRing k f).meters = s.meters := rfl
@[simp] theorem upRing_trigEv (s : State) (k : Nat) (f : Ring → Ring) : (s.upRing k f).trigEv = s.trigEv := rfl
@[simp] theorem upRing_trigOut (s : State) (k : Nat) (f : Ring → Ring) : (s.upRing k f).trigOut = s.trigOut := rfl
@[simp] theorem upRing_out (s : State) (k : Nat) (f : Ring → Ring) : (s.upRing k f).out = s.out := rfl
@[simp] theorem upRing_freeCtr (s : State) (k : Nat) (f : Ring → Ring) : (s.upRing k f).freeCtr = s.freeCtr := rfl
@[simp] theorem upRing_pending (s : State) (k : Nat) (f : Ring → Ring) : (s.upRing k f).pending = s.pending := rfl

/-! ### upDesc -/

@[simp] theorem upDesc_dtime (s : State) (q i : Nat) (f : Desc → Desc) : (s.upDesc q i f).dtime = s.dtime := rfl
@[simp] theorem upDesc_dfrac (s : State) (q i : Nat) (f : Desc → Desc) : (s.upDesc q i f).dfrac = s.dfrac := rfl
@[simp] theorem upDesc_clk (s : State) (q i : Nat) (f : Desc → Desc) : (s.upDesc q i f).clk = s.clk := rfl
@[simp] theorem upDesc_regs (s : State) (q i : Nat) (f : Desc → Desc) : (s.upDesc q i f).regs = s.regs := rfl
@[simp] theorem upDesc_held (s : State) (q i : Nat) (f : Desc → Desc) : (s.upDesc q i f).held = s.held := rfl
@[simp] theorem upDesc_latch (s : State) (q i : Nat) (f : Desc → Desc) : (s.upDesc q i f).latch = s.latch := rfl
@[simp] theorem upDesc_mem (s : State) (q i : Nat) (f : Desc → Desc) : (s.upDesc q i f).mem = s.mem := rfl
@[simp] theorem upDesc_bad (s : State) (q i : Nat) (f : Desc → Desc) : (s.upDesc q i f).bad = s.bad := rfl
@[simp] theorem upDesc_objs (s : State) (q i : Nat) (f : Desc → Desc) : (s.upDesc q i f).objs = s.objs := rfl
@[simp] theorem upDesc_loads (s : State) (q i : Nat) (f : Desc → Desc) : (s.upDesc q i f).loads = s.loads := rfl
@[simp] theorem upDesc_sites (s : State) (q i : Nat) (f : Desc → Desc) : (s.upDesc q i f).sites = s.sites := rfl
@[simp] theorem upDesc_groups (s : State) (q i : Nat) (f : Desc → Desc) : (s.upDesc q i f).groups = s.groups := rfl
@[simp] theorem upDesc_slices (s : State) (q i : Nat) (f : Desc → Desc) : (s.upDesc q i f).slices = s.slices := rfl
@[simp] theorem upDesc_bursts (s : State) (q i : Nat) (f : Desc → Desc) : (s.upDesc q i f).bursts = s.bursts := rfl
@[simp] theorem upDesc_arrivals (s : State) (q i : Nat) (f : Desc → Desc) : (s.upDesc q i f).arrivals = s.arrivals := rfl
@[simp] theorem upDesc_gen (s : State) (q i : Nat) (f : Desc → Desc) : (s.upDesc q i f).gen = s.gen := rfl
@[simp] theorem upDesc_cache (s : State) (q i : Nat) (f : Desc → Desc) : (s.upDesc q i f).cache = s.cache := rfl
@[simp] theorem upDesc_results (s : State) (q i : Nat) (f : Desc → Desc) : (s.upDesc q i f).results = s.results := rfl
@[simp] theorem upDesc_regions (s : State) (q i : Nat) (f : Desc → Desc) : (s.upDesc q i f).regions = s.regions := rfl
@[simp] theorem upDesc_clusters (s : State) (q i : Nat) (f : Desc → Desc) : (s.upDesc q i f).clusters = s.clusters := rfl
@[simp] theorem upDesc_calibs (s : State) (q i : Nat) (f : Desc → Desc) : (s.upDesc q i f).calibs = s.calibs := rfl
@[simp] theorem upDesc_waiting (s : State) (q i : Nat) (f : Desc → Desc) : (s.upDesc q i f).waiting = s.waiting := rfl
@[simp] theorem upDesc_paddock (s : State) (q i : Nat) (f : Desc → Desc) : (s.upDesc q i f).paddock = s.paddock := rfl
@[simp] theorem upDesc_pe (s : State) (q i : Nat) (f : Desc → Desc) : (s.upDesc q i f).pe = s.pe := rfl
@[simp] theorem upDesc_fuse (s : State) (q i : Nat) (f : Desc → Desc) : (s.upDesc q i f).fuse = s.fuse := rfl
@[simp] theorem upDesc_collector (s : State) (q i : Nat) (f : Desc → Desc) : (s.upDesc q i f).collector = s.collector := rfl
@[simp] theorem upDesc_logQ (s : State) (q i : Nat) (f : Desc → Desc) : (s.upDesc q i f).logQ = s.logQ := rfl
@[simp] theorem upDesc_life (s : State) (q i : Nat) (f : Desc → Desc) : (s.upDesc q i f).life = s.life := rfl
@[simp] theorem upDesc_chainsBad (s : State) (q i : Nat) (f : Desc → Desc) : (s.upDesc q i f).chainsBad = s.chainsBad := rfl
@[simp] theorem upDesc_metersBad (s : State) (q i : Nat) (f : Desc → Desc) : (s.upDesc q i f).metersBad = s.metersBad := rfl
@[simp] theorem upDesc_power (s : State) (q i : Nat) (f : Desc → Desc) : (s.upDesc q i f).power = s.power := rfl
@[simp] theorem upDesc_rst (s : State) (q i : Nat) (f : Desc → Desc) : (s.upDesc q i f).rst = s.rst := rfl
@[simp] theorem upDesc_board (s : State) (q i : Nat) (f : Desc → Desc) : (s.upDesc q i f).board = s.board := rfl
@[simp] theorem upDesc_mcs (s : State) (q i : Nat) (f : Desc → Desc) : (s.upDesc q i f).mcs = s.mcs := rfl
@[simp] theorem upDesc_ctxArea (s : State) (q i : Nat) (f : Desc → Desc) : (s.upDesc q i f).ctxArea = s.ctxArea := rfl
@[simp] theorem upDesc_links (s : State) (q i : Nat) (f : Desc → Desc) : (s.upDesc q i f).links = s.links := rfl
@[simp] theorem upDesc_ringT (s : State) (q i : Nat) (f : Desc → Desc) : (s.upDesc q i f).ringT = s.ringT := rfl
@[simp] theorem upDesc_pair (s : State) (q i : Nat) (f : Desc → Desc) : (s.upDesc q i f).pair = s.pair := rfl
@[simp] theorem upDesc_apgs (s : State) (q i : Nat) (f : Desc → Desc) : (s.upDesc q i f).apgs = s.apgs := rfl
@[simp] theorem upDesc_ports (s : State) (q i : Nat) (f : Desc → Desc) : (s.upDesc q i f).ports = s.ports := rfl
@[simp] theorem upDesc_chains (s : State) (q i : Nat) (f : Desc → Desc) : (s.upDesc q i f).chains = s.chains := rfl
@[simp] theorem upDesc_acqs (s : State) (q i : Nat) (f : Desc → Desc) : (s.upDesc q i f).acqs = s.acqs := rfl
@[simp] theorem upDesc_sbufs (s : State) (q i : Nat) (f : Desc → Desc) : (s.upDesc q i f).sbufs = s.sbufs := rfl
@[simp] theorem upDesc_trigs (s : State) (q i : Nat) (f : Desc → Desc) : (s.upDesc q i f).trigs = s.trigs := rfl
@[simp] theorem upDesc_meters (s : State) (q i : Nat) (f : Desc → Desc) : (s.upDesc q i f).meters = s.meters := rfl
@[simp] theorem upDesc_trigEv (s : State) (q i : Nat) (f : Desc → Desc) : (s.upDesc q i f).trigEv = s.trigEv := rfl
@[simp] theorem upDesc_trigOut (s : State) (q i : Nat) (f : Desc → Desc) : (s.upDesc q i f).trigOut = s.trigOut := rfl
@[simp] theorem upDesc_out (s : State) (q i : Nat) (f : Desc → Desc) : (s.upDesc q i f).out = s.out := rfl
@[simp] theorem upDesc_freeCtr (s : State) (q i : Nat) (f : Desc → Desc) : (s.upDesc q i f).freeCtr = s.freeCtr := rfl
@[simp] theorem upDesc_pending (s : State) (q i : Nat) (f : Desc → Desc) : (s.upDesc q i f).pending = s.pending := rfl

/-! ### dropDesc -/

@[simp] theorem dropDesc_dtime (s : State) (q i : Nat) : (s.dropDesc q i).dtime = s.dtime := rfl
@[simp] theorem dropDesc_dfrac (s : State) (q i : Nat) : (s.dropDesc q i).dfrac = s.dfrac := rfl
@[simp] theorem dropDesc_clk (s : State) (q i : Nat) : (s.dropDesc q i).clk = s.clk := rfl
@[simp] theorem dropDesc_regs (s : State) (q i : Nat) : (s.dropDesc q i).regs = s.regs := rfl
@[simp] theorem dropDesc_held (s : State) (q i : Nat) : (s.dropDesc q i).held = s.held := rfl
@[simp] theorem dropDesc_latch (s : State) (q i : Nat) : (s.dropDesc q i).latch = s.latch := rfl
@[simp] theorem dropDesc_mem (s : State) (q i : Nat) : (s.dropDesc q i).mem = s.mem := rfl
@[simp] theorem dropDesc_bad (s : State) (q i : Nat) : (s.dropDesc q i).bad = s.bad := rfl
@[simp] theorem dropDesc_objs (s : State) (q i : Nat) : (s.dropDesc q i).objs = s.objs := rfl
@[simp] theorem dropDesc_loads (s : State) (q i : Nat) : (s.dropDesc q i).loads = s.loads := rfl
@[simp] theorem dropDesc_sites (s : State) (q i : Nat) : (s.dropDesc q i).sites = s.sites := rfl
@[simp] theorem dropDesc_groups (s : State) (q i : Nat) : (s.dropDesc q i).groups = s.groups := rfl
@[simp] theorem dropDesc_slices (s : State) (q i : Nat) : (s.dropDesc q i).slices = s.slices := rfl
@[simp] theorem dropDesc_bursts (s : State) (q i : Nat) : (s.dropDesc q i).bursts = s.bursts := rfl
@[simp] theorem dropDesc_arrivals (s : State) (q i : Nat) : (s.dropDesc q i).arrivals = s.arrivals := rfl
@[simp] theorem dropDesc_gen (s : State) (q i : Nat) : (s.dropDesc q i).gen = s.gen := rfl
@[simp] theorem dropDesc_cache (s : State) (q i : Nat) : (s.dropDesc q i).cache = s.cache := rfl
@[simp] theorem dropDesc_results (s : State) (q i : Nat) : (s.dropDesc q i).results = s.results := rfl
@[simp] theorem dropDesc_regions (s : State) (q i : Nat) : (s.dropDesc q i).regions = s.regions := rfl
@[simp] theorem dropDesc_clusters (s : State) (q i : Nat) : (s.dropDesc q i).clusters = s.clusters := rfl
@[simp] theorem dropDesc_calibs (s : State) (q i : Nat) : (s.dropDesc q i).calibs = s.calibs := rfl
@[simp] theorem dropDesc_waiting (s : State) (q i : Nat) : (s.dropDesc q i).waiting = s.waiting := rfl
@[simp] theorem dropDesc_paddock (s : State) (q i : Nat) : (s.dropDesc q i).paddock = s.paddock := rfl
@[simp] theorem dropDesc_pe (s : State) (q i : Nat) : (s.dropDesc q i).pe = s.pe := rfl
@[simp] theorem dropDesc_fuse (s : State) (q i : Nat) : (s.dropDesc q i).fuse = s.fuse := rfl
@[simp] theorem dropDesc_collector (s : State) (q i : Nat) : (s.dropDesc q i).collector = s.collector := rfl
@[simp] theorem dropDesc_logQ (s : State) (q i : Nat) : (s.dropDesc q i).logQ = s.logQ := rfl
@[simp] theorem dropDesc_life (s : State) (q i : Nat) : (s.dropDesc q i).life = s.life := rfl
@[simp] theorem dropDesc_chainsBad (s : State) (q i : Nat) : (s.dropDesc q i).chainsBad = s.chainsBad := rfl
@[simp] theorem dropDesc_metersBad (s : State) (q i : Nat) : (s.dropDesc q i).metersBad = s.metersBad := rfl
@[simp] theorem dropDesc_power (s : State) (q i : Nat) : (s.dropDesc q i).power = s.power := rfl
@[simp] theorem dropDesc_rst (s : State) (q i : Nat) : (s.dropDesc q i).rst = s.rst := rfl
@[simp] theorem dropDesc_board (s : State) (q i : Nat) : (s.dropDesc q i).board = s.board := rfl
@[simp] theorem dropDesc_mcs (s : State) (q i : Nat) : (s.dropDesc q i).mcs = s.mcs := rfl
@[simp] theorem dropDesc_ctxArea (s : State) (q i : Nat) : (s.dropDesc q i).ctxArea = s.ctxArea := rfl
@[simp] theorem dropDesc_links (s : State) (q i : Nat) : (s.dropDesc q i).links = s.links := rfl
@[simp] theorem dropDesc_ringT (s : State) (q i : Nat) : (s.dropDesc q i).ringT = s.ringT := rfl
@[simp] theorem dropDesc_pair (s : State) (q i : Nat) : (s.dropDesc q i).pair = s.pair := rfl
@[simp] theorem dropDesc_apgs (s : State) (q i : Nat) : (s.dropDesc q i).apgs = s.apgs := rfl
@[simp] theorem dropDesc_ports (s : State) (q i : Nat) : (s.dropDesc q i).ports = s.ports := rfl
@[simp] theorem dropDesc_chains (s : State) (q i : Nat) : (s.dropDesc q i).chains = s.chains := rfl
@[simp] theorem dropDesc_acqs (s : State) (q i : Nat) : (s.dropDesc q i).acqs = s.acqs := rfl
@[simp] theorem dropDesc_sbufs (s : State) (q i : Nat) : (s.dropDesc q i).sbufs = s.sbufs := rfl
@[simp] theorem dropDesc_trigs (s : State) (q i : Nat) : (s.dropDesc q i).trigs = s.trigs := rfl
@[simp] theorem dropDesc_meters (s : State) (q i : Nat) : (s.dropDesc q i).meters = s.meters := rfl
@[simp] theorem dropDesc_trigEv (s : State) (q i : Nat) : (s.dropDesc q i).trigEv = s.trigEv := rfl
@[simp] theorem dropDesc_trigOut (s : State) (q i : Nat) : (s.dropDesc q i).trigOut = s.trigOut := rfl
@[simp] theorem dropDesc_out (s : State) (q i : Nat) : (s.dropDesc q i).out = s.out := rfl
@[simp] theorem dropDesc_freeCtr (s : State) (q i : Nat) : (s.dropDesc q i).freeCtr = s.freeCtr := rfl
@[simp] theorem dropDesc_pending (s : State) (q i : Nat) : (s.dropDesc q i).pending = s.pending := rfl

/-! ### begin -/

@[simp] theorem begin_dtime (s : State) (q i : Nat) : (s.begin q i).dtime = s.dtime := rfl
@[simp] theorem begin_dfrac (s : State) (q i : Nat) : (s.begin q i).dfrac = s.dfrac := rfl
@[simp] theorem begin_clk (s : State) (q i : Nat) : (s.begin q i).clk = s.clk := rfl
@[simp] theorem begin_regs (s : State) (q i : Nat) : (s.begin q i).regs = s.regs := rfl
@[simp] theorem begin_held (s : State) (q i : Nat) : (s.begin q i).held = s.held := rfl
@[simp] theorem begin_latch (s : State) (q i : Nat) : (s.begin q i).latch = s.latch := rfl
@[simp] theorem begin_mem (s : State) (q i : Nat) : (s.begin q i).mem = s.mem := rfl
@[simp] theorem begin_bad (s : State) (q i : Nat) : (s.begin q i).bad = s.bad := rfl
@[simp] theorem begin_objs (s : State) (q i : Nat) : (s.begin q i).objs = s.objs := rfl
@[simp] theorem begin_loads (s : State) (q i : Nat) : (s.begin q i).loads = s.loads := rfl
@[simp] theorem begin_sites (s : State) (q i : Nat) : (s.begin q i).sites = s.sites := rfl
@[simp] theorem begin_groups (s : State) (q i : Nat) : (s.begin q i).groups = s.groups := rfl
@[simp] theorem begin_slices (s : State) (q i : Nat) : (s.begin q i).slices = s.slices := rfl
@[simp] theorem begin_bursts (s : State) (q i : Nat) : (s.begin q i).bursts = s.bursts := rfl
@[simp] theorem begin_arrivals (s : State) (q i : Nat) : (s.begin q i).arrivals = s.arrivals := rfl
@[simp] theorem begin_gen (s : State) (q i : Nat) : (s.begin q i).gen = s.gen := rfl
@[simp] theorem begin_cache (s : State) (q i : Nat) : (s.begin q i).cache = s.cache := rfl
@[simp] theorem begin_results (s : State) (q i : Nat) : (s.begin q i).results = s.results := rfl
@[simp] theorem begin_regions (s : State) (q i : Nat) : (s.begin q i).regions = s.regions := rfl
@[simp] theorem begin_clusters (s : State) (q i : Nat) : (s.begin q i).clusters = s.clusters := rfl
@[simp] theorem begin_calibs (s : State) (q i : Nat) : (s.begin q i).calibs = s.calibs := rfl
@[simp] theorem begin_waiting (s : State) (q i : Nat) : (s.begin q i).waiting = s.waiting := rfl
@[simp] theorem begin_paddock (s : State) (q i : Nat) : (s.begin q i).paddock = s.paddock := rfl
@[simp] theorem begin_pe (s : State) (q i : Nat) : (s.begin q i).pe = s.pe := rfl
@[simp] theorem begin_fuse (s : State) (q i : Nat) : (s.begin q i).fuse = s.fuse := rfl
@[simp] theorem begin_collector (s : State) (q i : Nat) : (s.begin q i).collector = s.collector := rfl
@[simp] theorem begin_logQ (s : State) (q i : Nat) : (s.begin q i).logQ = s.logQ := rfl
@[simp] theorem begin_life (s : State) (q i : Nat) : (s.begin q i).life = s.life := rfl
@[simp] theorem begin_chainsBad (s : State) (q i : Nat) : (s.begin q i).chainsBad = s.chainsBad := rfl
@[simp] theorem begin_metersBad (s : State) (q i : Nat) : (s.begin q i).metersBad = s.metersBad := rfl
@[simp] theorem begin_power (s : State) (q i : Nat) : (s.begin q i).power = s.power := rfl
@[simp] theorem begin_rst (s : State) (q i : Nat) : (s.begin q i).rst = s.rst := rfl
@[simp] theorem begin_board (s : State) (q i : Nat) : (s.begin q i).board = s.board := rfl
@[simp] theorem begin_mcs (s : State) (q i : Nat) : (s.begin q i).mcs = s.mcs := rfl
@[simp] theorem begin_ctxArea (s : State) (q i : Nat) : (s.begin q i).ctxArea = s.ctxArea := rfl
@[simp] theorem begin_links (s : State) (q i : Nat) : (s.begin q i).links = s.links := rfl
@[simp] theorem begin_ringT (s : State) (q i : Nat) : (s.begin q i).ringT = s.ringT := rfl
@[simp] theorem begin_pair (s : State) (q i : Nat) : (s.begin q i).pair = s.pair := rfl
@[simp] theorem begin_apgs (s : State) (q i : Nat) : (s.begin q i).apgs = s.apgs := rfl
@[simp] theorem begin_ports (s : State) (q i : Nat) : (s.begin q i).ports = s.ports := rfl
@[simp] theorem begin_chains (s : State) (q i : Nat) : (s.begin q i).chains = s.chains := rfl
@[simp] theorem begin_acqs (s : State) (q i : Nat) : (s.begin q i).acqs = s.acqs := rfl
@[simp] theorem begin_sbufs (s : State) (q i : Nat) : (s.begin q i).sbufs = s.sbufs := rfl
@[simp] theorem begin_trigs (s : State) (q i : Nat) : (s.begin q i).trigs = s.trigs := rfl
@[simp] theorem begin_meters (s : State) (q i : Nat) : (s.begin q i).meters = s.meters := rfl
@[simp] theorem begin_trigEv (s : State) (q i : Nat) : (s.begin q i).trigEv = s.trigEv := rfl
@[simp] theorem begin_trigOut (s : State) (q i : Nat) : (s.begin q i).trigOut = s.trigOut := rfl
@[simp] theorem begin_out (s : State) (q i : Nat) : (s.begin q i).out = s.out := rfl
@[simp] theorem begin_freeCtr (s : State) (q i : Nat) : (s.begin q i).freeCtr = s.freeCtr := rfl
@[simp] theorem begin_pending (s : State) (q i : Nat) : (s.begin q i).pending = s.pending := rfl

/-! ### report -/

@[simp] theorem report_dtime (s : State) (a b c d : Nat) : (s.report a b c d).dtime = s.dtime := rfl
@[simp] theorem report_dfrac (s : State) (a b c d : Nat) : (s.report a b c d).dfrac = s.dfrac := rfl
@[simp] theorem report_clk (s : State) (a b c d : Nat) : (s.report a b c d).clk = s.clk := rfl
@[simp] theorem report_regs (s : State) (a b c d : Nat) : (s.report a b c d).regs = s.regs := rfl
@[simp] theorem report_held (s : State) (a b c d : Nat) : (s.report a b c d).held = s.held := rfl
@[simp] theorem report_latch (s : State) (a b c d : Nat) : (s.report a b c d).latch = s.latch := rfl
@[simp] theorem report_host (s : State) (a b c d : Nat) : (s.report a b c d).host = s.host := rfl
@[simp] theorem report_mem (s : State) (a b c d : Nat) : (s.report a b c d).mem = s.mem := rfl
@[simp] theorem report_bad (s : State) (a b c d : Nat) : (s.report a b c d).bad = s.bad := rfl
@[simp] theorem report_objs (s : State) (a b c d : Nat) : (s.report a b c d).objs = s.objs := rfl
@[simp] theorem report_loads (s : State) (a b c d : Nat) : (s.report a b c d).loads = s.loads := rfl
@[simp] theorem report_sites (s : State) (a b c d : Nat) : (s.report a b c d).sites = s.sites := rfl
@[simp] theorem report_groups (s : State) (a b c d : Nat) : (s.report a b c d).groups = s.groups := rfl
@[simp] theorem report_slices (s : State) (a b c d : Nat) : (s.report a b c d).slices = s.slices := rfl
@[simp] theorem report_bursts (s : State) (a b c d : Nat) : (s.report a b c d).bursts = s.bursts := rfl
@[simp] theorem report_arrivals (s : State) (a b c d : Nat) : (s.report a b c d).arrivals = s.arrivals := rfl
@[simp] theorem report_gen (s : State) (a b c d : Nat) : (s.report a b c d).gen = s.gen := rfl
@[simp] theorem report_cache (s : State) (a b c d : Nat) : (s.report a b c d).cache = s.cache := rfl
@[simp] theorem report_results (s : State) (a b c d : Nat) : (s.report a b c d).results = s.results := rfl
@[simp] theorem report_regions (s : State) (a b c d : Nat) : (s.report a b c d).regions = s.regions := rfl
@[simp] theorem report_clusters (s : State) (a b c d : Nat) : (s.report a b c d).clusters = s.clusters := rfl
@[simp] theorem report_calibs (s : State) (a b c d : Nat) : (s.report a b c d).calibs = s.calibs := rfl
@[simp] theorem report_waiting (s : State) (a b c d : Nat) : (s.report a b c d).waiting = s.waiting := rfl
@[simp] theorem report_paddock (s : State) (a b c d : Nat) : (s.report a b c d).paddock = s.paddock := rfl
@[simp] theorem report_pe (s : State) (a b c d : Nat) : (s.report a b c d).pe = s.pe := rfl
@[simp] theorem report_fuse (s : State) (a b c d : Nat) : (s.report a b c d).fuse = s.fuse := rfl
@[simp] theorem report_logQ (s : State) (a b c d : Nat) : (s.report a b c d).logQ = s.logQ := rfl
@[simp] theorem report_life (s : State) (a b c d : Nat) : (s.report a b c d).life = s.life := rfl
@[simp] theorem report_chainsBad (s : State) (a b c d : Nat) : (s.report a b c d).chainsBad = s.chainsBad := rfl
@[simp] theorem report_metersBad (s : State) (a b c d : Nat) : (s.report a b c d).metersBad = s.metersBad := rfl
@[simp] theorem report_power (s : State) (a b c d : Nat) : (s.report a b c d).power = s.power := rfl
@[simp] theorem report_rst (s : State) (a b c d : Nat) : (s.report a b c d).rst = s.rst := rfl
@[simp] theorem report_board (s : State) (a b c d : Nat) : (s.report a b c d).board = s.board := rfl
@[simp] theorem report_mcs (s : State) (a b c d : Nat) : (s.report a b c d).mcs = s.mcs := rfl
@[simp] theorem report_ctxArea (s : State) (a b c d : Nat) : (s.report a b c d).ctxArea = s.ctxArea := rfl
@[simp] theorem report_links (s : State) (a b c d : Nat) : (s.report a b c d).links = s.links := rfl
@[simp] theorem report_ringT (s : State) (a b c d : Nat) : (s.report a b c d).ringT = s.ringT := rfl
@[simp] theorem report_pair (s : State) (a b c d : Nat) : (s.report a b c d).pair = s.pair := rfl
@[simp] theorem report_apgs (s : State) (a b c d : Nat) : (s.report a b c d).apgs = s.apgs := rfl
@[simp] theorem report_ports (s : State) (a b c d : Nat) : (s.report a b c d).ports = s.ports := rfl
@[simp] theorem report_chains (s : State) (a b c d : Nat) : (s.report a b c d).chains = s.chains := rfl
@[simp] theorem report_acqs (s : State) (a b c d : Nat) : (s.report a b c d).acqs = s.acqs := rfl
@[simp] theorem report_sbufs (s : State) (a b c d : Nat) : (s.report a b c d).sbufs = s.sbufs := rfl
@[simp] theorem report_trigs (s : State) (a b c d : Nat) : (s.report a b c d).trigs = s.trigs := rfl
@[simp] theorem report_meters (s : State) (a b c d : Nat) : (s.report a b c d).meters = s.meters := rfl
@[simp] theorem report_trigEv (s : State) (a b c d : Nat) : (s.report a b c d).trigEv = s.trigEv := rfl
@[simp] theorem report_trigOut (s : State) (a b c d : Nat) : (s.report a b c d).trigOut = s.trigOut := rfl
@[simp] theorem report_out (s : State) (a b c d : Nat) : (s.report a b c d).out = s.out := rfl
@[simp] theorem report_freeCtr (s : State) (a b c d : Nat) : (s.report a b c d).freeCtr = s.freeCtr := rfl
@[simp] theorem report_pending (s : State) (a b c d : Nat) : (s.report a b c d).pending = s.pending := rfl

/-! ### reportAt -/

@[simp] theorem reportAt_dtime (s : State) (r : Report) : (s.reportAt r).dtime = s.dtime := rfl
@[simp] theorem reportAt_dfrac (s : State) (r : Report) : (s.reportAt r).dfrac = s.dfrac := rfl
@[simp] theorem reportAt_clk (s : State) (r : Report) : (s.reportAt r).clk = s.clk := rfl
@[simp] theorem reportAt_regs (s : State) (r : Report) : (s.reportAt r).regs = s.regs := rfl
@[simp] theorem reportAt_held (s : State) (r : Report) : (s.reportAt r).held = s.held := rfl
@[simp] theorem reportAt_latch (s : State) (r : Report) : (s.reportAt r).latch = s.latch := rfl
@[simp] theorem reportAt_host (s : State) (r : Report) : (s.reportAt r).host = s.host := rfl
@[simp] theorem reportAt_mem (s : State) (r : Report) : (s.reportAt r).mem = s.mem := rfl
@[simp] theorem reportAt_bad (s : State) (r : Report) : (s.reportAt r).bad = s.bad := rfl
@[simp] theorem reportAt_objs (s : State) (r : Report) : (s.reportAt r).objs = s.objs := rfl
@[simp] theorem reportAt_loads (s : State) (r : Report) : (s.reportAt r).loads = s.loads := rfl
@[simp] theorem reportAt_sites (s : State) (r : Report) : (s.reportAt r).sites = s.sites := rfl
@[simp] theorem reportAt_groups (s : State) (r : Report) : (s.reportAt r).groups = s.groups := rfl
@[simp] theorem reportAt_slices (s : State) (r : Report) : (s.reportAt r).slices = s.slices := rfl
@[simp] theorem reportAt_bursts (s : State) (r : Report) : (s.reportAt r).bursts = s.bursts := rfl
@[simp] theorem reportAt_arrivals (s : State) (r : Report) : (s.reportAt r).arrivals = s.arrivals := rfl
@[simp] theorem reportAt_gen (s : State) (r : Report) : (s.reportAt r).gen = s.gen := rfl
@[simp] theorem reportAt_cache (s : State) (r : Report) : (s.reportAt r).cache = s.cache := rfl
@[simp] theorem reportAt_results (s : State) (r : Report) : (s.reportAt r).results = s.results := rfl
@[simp] theorem reportAt_regions (s : State) (r : Report) : (s.reportAt r).regions = s.regions := rfl
@[simp] theorem reportAt_clusters (s : State) (r : Report) : (s.reportAt r).clusters = s.clusters := rfl
@[simp] theorem reportAt_calibs (s : State) (r : Report) : (s.reportAt r).calibs = s.calibs := rfl
@[simp] theorem reportAt_waiting (s : State) (r : Report) : (s.reportAt r).waiting = s.waiting := rfl
@[simp] theorem reportAt_paddock (s : State) (r : Report) : (s.reportAt r).paddock = s.paddock := rfl
@[simp] theorem reportAt_pe (s : State) (r : Report) : (s.reportAt r).pe = s.pe := rfl
@[simp] theorem reportAt_fuse (s : State) (r : Report) : (s.reportAt r).fuse = s.fuse := rfl
@[simp] theorem reportAt_logQ (s : State) (r : Report) : (s.reportAt r).logQ = s.logQ := rfl
@[simp] theorem reportAt_life (s : State) (r : Report) : (s.reportAt r).life = s.life := rfl
@[simp] theorem reportAt_chainsBad (s : State) (r : Report) : (s.reportAt r).chainsBad = s.chainsBad := rfl
@[simp] theorem reportAt_metersBad (s : State) (r : Report) : (s.reportAt r).metersBad = s.metersBad := rfl
@[simp] theorem reportAt_power (s : State) (r : Report) : (s.reportAt r).power = s.power := rfl
@[simp] theorem reportAt_rst (s : State) (r : Report) : (s.reportAt r).rst = s.rst := rfl
@[simp] theorem reportAt_board (s : State) (r : Report) : (s.reportAt r).board = s.board := rfl
@[simp] theorem reportAt_mcs (s : State) (r : Report) : (s.reportAt r).mcs = s.mcs := rfl
@[simp] theorem reportAt_ctxArea (s : State) (r : Report) : (s.reportAt r).ctxArea = s.ctxArea := rfl
@[simp] theorem reportAt_links (s : State) (r : Report) : (s.reportAt r).links = s.links := rfl
@[simp] theorem reportAt_ringT (s : State) (r : Report) : (s.reportAt r).ringT = s.ringT := rfl
@[simp] theorem reportAt_pair (s : State) (r : Report) : (s.reportAt r).pair = s.pair := rfl
@[simp] theorem reportAt_apgs (s : State) (r : Report) : (s.reportAt r).apgs = s.apgs := rfl
@[simp] theorem reportAt_ports (s : State) (r : Report) : (s.reportAt r).ports = s.ports := rfl
@[simp] theorem reportAt_chains (s : State) (r : Report) : (s.reportAt r).chains = s.chains := rfl
@[simp] theorem reportAt_acqs (s : State) (r : Report) : (s.reportAt r).acqs = s.acqs := rfl
@[simp] theorem reportAt_sbufs (s : State) (r : Report) : (s.reportAt r).sbufs = s.sbufs := rfl
@[simp] theorem reportAt_trigs (s : State) (r : Report) : (s.reportAt r).trigs = s.trigs := rfl
@[simp] theorem reportAt_meters (s : State) (r : Report) : (s.reportAt r).meters = s.meters := rfl
@[simp] theorem reportAt_trigEv (s : State) (r : Report) : (s.reportAt r).trigEv = s.trigEv := rfl
@[simp] theorem reportAt_trigOut (s : State) (r : Report) : (s.reportAt r).trigOut = s.trigOut := rfl
@[simp] theorem reportAt_out (s : State) (r : Report) : (s.reportAt r).out = s.out := rfl
@[simp] theorem reportAt_freeCtr (s : State) (r : Report) : (s.reportAt r).freeCtr = s.freeCtr := rfl
@[simp] theorem reportAt_pending (s : State) (r : Report) : (s.reportAt r).pending = s.pending := rfl

/-! ### condOff -/

@[simp] theorem condOff_dtime (s : State) (a b c : Nat) : (s.condOff a b c).dtime = s.dtime := rfl
@[simp] theorem condOff_dfrac (s : State) (a b c : Nat) : (s.condOff a b c).dfrac = s.dfrac := rfl
@[simp] theorem condOff_clk (s : State) (a b c : Nat) : (s.condOff a b c).clk = s.clk := rfl
@[simp] theorem condOff_regs (s : State) (a b c : Nat) : (s.condOff a b c).regs = s.regs := rfl
@[simp] theorem condOff_held (s : State) (a b c : Nat) : (s.condOff a b c).held = s.held := rfl
@[simp] theorem condOff_latch (s : State) (a b c : Nat) : (s.condOff a b c).latch = s.latch := rfl
@[simp] theorem condOff_host (s : State) (a b c : Nat) : (s.condOff a b c).host = s.host := rfl
@[simp] theorem condOff_mem (s : State) (a b c : Nat) : (s.condOff a b c).mem = s.mem := rfl
@[simp] theorem condOff_bad (s : State) (a b c : Nat) : (s.condOff a b c).bad = s.bad := rfl
@[simp] theorem condOff_objs (s : State) (a b c : Nat) : (s.condOff a b c).objs = s.objs := rfl
@[simp] theorem condOff_loads (s : State) (a b c : Nat) : (s.condOff a b c).loads = s.loads := rfl
@[simp] theorem condOff_sites (s : State) (a b c : Nat) : (s.condOff a b c).sites = s.sites := rfl
@[simp] theorem condOff_groups (s : State) (a b c : Nat) : (s.condOff a b c).groups = s.groups := rfl
@[simp] theorem condOff_slices (s : State) (a b c : Nat) : (s.condOff a b c).slices = s.slices := rfl
@[simp] theorem condOff_bursts (s : State) (a b c : Nat) : (s.condOff a b c).bursts = s.bursts := rfl
@[simp] theorem condOff_arrivals (s : State) (a b c : Nat) : (s.condOff a b c).arrivals = s.arrivals := rfl
@[simp] theorem condOff_gen (s : State) (a b c : Nat) : (s.condOff a b c).gen = s.gen := rfl
@[simp] theorem condOff_cache (s : State) (a b c : Nat) : (s.condOff a b c).cache = s.cache := rfl
@[simp] theorem condOff_results (s : State) (a b c : Nat) : (s.condOff a b c).results = s.results := rfl
@[simp] theorem condOff_regions (s : State) (a b c : Nat) : (s.condOff a b c).regions = s.regions := rfl
@[simp] theorem condOff_clusters (s : State) (a b c : Nat) : (s.condOff a b c).clusters = s.clusters := rfl
@[simp] theorem condOff_calibs (s : State) (a b c : Nat) : (s.condOff a b c).calibs = s.calibs := rfl
@[simp] theorem condOff_waiting (s : State) (a b c : Nat) : (s.condOff a b c).waiting = s.waiting := rfl
@[simp] theorem condOff_paddock (s : State) (a b c : Nat) : (s.condOff a b c).paddock = s.paddock := rfl
@[simp] theorem condOff_pe (s : State) (a b c : Nat) : (s.condOff a b c).pe = s.pe := rfl
@[simp] theorem condOff_fuse (s : State) (a b c : Nat) : (s.condOff a b c).fuse = s.fuse := rfl
@[simp] theorem condOff_logQ (s : State) (a b c : Nat) : (s.condOff a b c).logQ = s.logQ := rfl
@[simp] theorem condOff_life (s : State) (a b c : Nat) : (s.condOff a b c).life = s.life := rfl
@[simp] theorem condOff_chainsBad (s : State) (a b c : Nat) : (s.condOff a b c).chainsBad = s.chainsBad := rfl
@[simp] theorem condOff_metersBad (s : State) (a b c : Nat) : (s.condOff a b c).metersBad = s.metersBad := rfl
@[simp] theorem condOff_power (s : State) (a b c : Nat) : (s.condOff a b c).power = s.power := rfl
@[simp] theorem condOff_rst (s : State) (a b c : Nat) : (s.condOff a b c).rst = s.rst := rfl
@[simp] theorem condOff_board (s : State) (a b c : Nat) : (s.condOff a b c).board = s.board := rfl
@[simp] theorem condOff_mcs (s : State) (a b c : Nat) : (s.condOff a b c).mcs = s.mcs := rfl
@[simp] theorem condOff_ctxArea (s : State) (a b c : Nat) : (s.condOff a b c).ctxArea = s.ctxArea := rfl
@[simp] theorem condOff_links (s : State) (a b c : Nat) : (s.condOff a b c).links = s.links := rfl
@[simp] theorem condOff_ringT (s : State) (a b c : Nat) : (s.condOff a b c).ringT = s.ringT := rfl
@[simp] theorem condOff_pair (s : State) (a b c : Nat) : (s.condOff a b c).pair = s.pair := rfl
@[simp] theorem condOff_apgs (s : State) (a b c : Nat) : (s.condOff a b c).apgs = s.apgs := rfl
@[simp] theorem condOff_ports (s : State) (a b c : Nat) : (s.condOff a b c).ports = s.ports := rfl
@[simp] theorem condOff_chains (s : State) (a b c : Nat) : (s.condOff a b c).chains = s.chains := rfl
@[simp] theorem condOff_acqs (s : State) (a b c : Nat) : (s.condOff a b c).acqs = s.acqs := rfl
@[simp] theorem condOff_sbufs (s : State) (a b c : Nat) : (s.condOff a b c).sbufs = s.sbufs := rfl
@[simp] theorem condOff_trigs (s : State) (a b c : Nat) : (s.condOff a b c).trigs = s.trigs := rfl
@[simp] theorem condOff_meters (s : State) (a b c : Nat) : (s.condOff a b c).meters = s.meters := rfl
@[simp] theorem condOff_trigEv (s : State) (a b c : Nat) : (s.condOff a b c).trigEv = s.trigEv := rfl
@[simp] theorem condOff_trigOut (s : State) (a b c : Nat) : (s.condOff a b c).trigOut = s.trigOut := rfl
@[simp] theorem condOff_out (s : State) (a b c : Nat) : (s.condOff a b c).out = s.out := rfl
@[simp] theorem condOff_freeCtr (s : State) (a b c : Nat) : (s.condOff a b c).freeCtr = s.freeCtr := rfl
@[simp] theorem condOff_pending (s : State) (a b c : Nat) : (s.condOff a b c).pending = s.pending := rfl

/-! ### upTask -/

@[simp] theorem upTask_dtime (s : State) (t : Nat) (f : Task → Task) : (s.upTask t f).dtime = s.dtime := rfl
@[simp] theorem upTask_dfrac (s : State) (t : Nat) (f : Task → Task) : (s.upTask t f).dfrac = s.dfrac := rfl
@[simp] theorem upTask_clk (s : State) (t : Nat) (f : Task → Task) : (s.upTask t f).clk = s.clk := rfl
@[simp] theorem upTask_regs (s : State) (t : Nat) (f : Task → Task) : (s.upTask t f).regs = s.regs := rfl
@[simp] theorem upTask_held (s : State) (t : Nat) (f : Task → Task) : (s.upTask t f).held = s.held := rfl
@[simp] theorem upTask_latch (s : State) (t : Nat) (f : Task → Task) : (s.upTask t f).latch = s.latch := rfl
@[simp] theorem upTask_host (s : State) (t : Nat) (f : Task → Task) : (s.upTask t f).host = s.host := rfl
@[simp] theorem upTask_mem (s : State) (t : Nat) (f : Task → Task) : (s.upTask t f).mem = s.mem := rfl
@[simp] theorem upTask_bad (s : State) (t : Nat) (f : Task → Task) : (s.upTask t f).bad = s.bad := rfl
@[simp] theorem upTask_objs (s : State) (t : Nat) (f : Task → Task) : (s.upTask t f).objs = s.objs := rfl
@[simp] theorem upTask_loads (s : State) (t : Nat) (f : Task → Task) : (s.upTask t f).loads = s.loads := rfl
@[simp] theorem upTask_sites (s : State) (t : Nat) (f : Task → Task) : (s.upTask t f).sites = s.sites := rfl
@[simp] theorem upTask_groups (s : State) (t : Nat) (f : Task → Task) : (s.upTask t f).groups = s.groups := rfl
@[simp] theorem upTask_slices (s : State) (t : Nat) (f : Task → Task) : (s.upTask t f).slices = s.slices := rfl
@[simp] theorem upTask_bursts (s : State) (t : Nat) (f : Task → Task) : (s.upTask t f).bursts = s.bursts := rfl
@[simp] theorem upTask_arrivals (s : State) (t : Nat) (f : Task → Task) : (s.upTask t f).arrivals = s.arrivals := rfl
@[simp] theorem upTask_gen (s : State) (t : Nat) (f : Task → Task) : (s.upTask t f).gen = s.gen := rfl
@[simp] theorem upTask_cache (s : State) (t : Nat) (f : Task → Task) : (s.upTask t f).cache = s.cache := rfl
@[simp] theorem upTask_results (s : State) (t : Nat) (f : Task → Task) : (s.upTask t f).results = s.results := rfl
@[simp] theorem upTask_regions (s : State) (t : Nat) (f : Task → Task) : (s.upTask t f).regions = s.regions := rfl
@[simp] theorem upTask_clusters (s : State) (t : Nat) (f : Task → Task) : (s.upTask t f).clusters = s.clusters := rfl
@[simp] theorem upTask_calibs (s : State) (t : Nat) (f : Task → Task) : (s.upTask t f).calibs = s.calibs := rfl
@[simp] theorem upTask_waiting (s : State) (t : Nat) (f : Task → Task) : (s.upTask t f).waiting = s.waiting := rfl
@[simp] theorem upTask_pe (s : State) (t : Nat) (f : Task → Task) : (s.upTask t f).pe = s.pe := rfl
@[simp] theorem upTask_fuse (s : State) (t : Nat) (f : Task → Task) : (s.upTask t f).fuse = s.fuse := rfl
@[simp] theorem upTask_collector (s : State) (t : Nat) (f : Task → Task) : (s.upTask t f).collector = s.collector := rfl
@[simp] theorem upTask_logQ (s : State) (t : Nat) (f : Task → Task) : (s.upTask t f).logQ = s.logQ := rfl
@[simp] theorem upTask_life (s : State) (t : Nat) (f : Task → Task) : (s.upTask t f).life = s.life := rfl
@[simp] theorem upTask_chainsBad (s : State) (t : Nat) (f : Task → Task) : (s.upTask t f).chainsBad = s.chainsBad := rfl
@[simp] theorem upTask_metersBad (s : State) (t : Nat) (f : Task → Task) : (s.upTask t f).metersBad = s.metersBad := rfl
@[simp] theorem upTask_power (s : State) (t : Nat) (f : Task → Task) : (s.upTask t f).power = s.power := rfl
@[simp] theorem upTask_rst (s : State) (t : Nat) (f : Task → Task) : (s.upTask t f).rst = s.rst := rfl
@[simp] theorem upTask_board (s : State) (t : Nat) (f : Task → Task) : (s.upTask t f).board = s.board := rfl
@[simp] theorem upTask_mcs (s : State) (t : Nat) (f : Task → Task) : (s.upTask t f).mcs = s.mcs := rfl
@[simp] theorem upTask_ctxArea (s : State) (t : Nat) (f : Task → Task) : (s.upTask t f).ctxArea = s.ctxArea := rfl
@[simp] theorem upTask_links (s : State) (t : Nat) (f : Task → Task) : (s.upTask t f).links = s.links := rfl
@[simp] theorem upTask_ringT (s : State) (t : Nat) (f : Task → Task) : (s.upTask t f).ringT = s.ringT := rfl
@[simp] theorem upTask_pair (s : State) (t : Nat) (f : Task → Task) : (s.upTask t f).pair = s.pair := rfl
@[simp] theorem upTask_apgs (s : State) (t : Nat) (f : Task → Task) : (s.upTask t f).apgs = s.apgs := rfl
@[simp] theorem upTask_ports (s : State) (t : Nat) (f : Task → Task) : (s.upTask t f).ports = s.ports := rfl
@[simp] theorem upTask_chains (s : State) (t : Nat) (f : Task → Task) : (s.upTask t f).chains = s.chains := rfl
@[simp] theorem upTask_acqs (s : State) (t : Nat) (f : Task → Task) : (s.upTask t f).acqs = s.acqs := rfl
@[simp] theorem upTask_sbufs (s : State) (t : Nat) (f : Task → Task) : (s.upTask t f).sbufs = s.sbufs := rfl
@[simp] theorem upTask_trigs (s : State) (t : Nat) (f : Task → Task) : (s.upTask t f).trigs = s.trigs := rfl
@[simp] theorem upTask_meters (s : State) (t : Nat) (f : Task → Task) : (s.upTask t f).meters = s.meters := rfl
@[simp] theorem upTask_trigEv (s : State) (t : Nat) (f : Task → Task) : (s.upTask t f).trigEv = s.trigEv := rfl
@[simp] theorem upTask_trigOut (s : State) (t : Nat) (f : Task → Task) : (s.upTask t f).trigOut = s.trigOut := rfl
@[simp] theorem upTask_out (s : State) (t : Nat) (f : Task → Task) : (s.upTask t f).out = s.out := rfl
@[simp] theorem upTask_freeCtr (s : State) (t : Nat) (f : Task → Task) : (s.upTask t f).freeCtr = s.freeCtr := rfl
@[simp] theorem upTask_pending (s : State) (t : Nat) (f : Task → Task) : (s.upTask t f).pending = s.pending := rfl

/-! ### upLk -/

@[simp] theorem upLk_dtime (s : State) (n : Nat) (f : Link → Link) : (s.upLk n f).dtime = s.dtime := rfl
@[simp] theorem upLk_dfrac (s : State) (n : Nat) (f : Link → Link) : (s.upLk n f).dfrac = s.dfrac := rfl
@[simp] theorem upLk_clk (s : State) (n : Nat) (f : Link → Link) : (s.upLk n f).clk = s.clk := rfl
@[simp] theorem upLk_regs (s : State) (n : Nat) (f : Link → Link) : (s.upLk n f).regs = s.regs := rfl
@[simp] theorem upLk_held (s : State) (n : Nat) (f : Link → Link) : (s.upLk n f).held = s.held := rfl
@[simp] theorem upLk_latch (s : State) (n : Nat) (f : Link → Link) : (s.upLk n f).latch = s.latch := rfl
@[simp] theorem upLk_host (s : State) (n : Nat) (f : Link → Link) : (s.upLk n f).host = s.host := rfl
@[simp] theorem upLk_mem (s : State) (n : Nat) (f : Link → Link) : (s.upLk n f).mem = s.mem := rfl
@[simp] theorem upLk_bad (s : State) (n : Nat) (f : Link → Link) : (s.upLk n f).bad = s.bad := rfl
@[simp] theorem upLk_objs (s : State) (n : Nat) (f : Link → Link) : (s.upLk n f).objs = s.objs := rfl
@[simp] theorem upLk_loads (s : State) (n : Nat) (f : Link → Link) : (s.upLk n f).loads = s.loads := rfl
@[simp] theorem upLk_sites (s : State) (n : Nat) (f : Link → Link) : (s.upLk n f).sites = s.sites := rfl
@[simp] theorem upLk_groups (s : State) (n : Nat) (f : Link → Link) : (s.upLk n f).groups = s.groups := rfl
@[simp] theorem upLk_slices (s : State) (n : Nat) (f : Link → Link) : (s.upLk n f).slices = s.slices := rfl
@[simp] theorem upLk_bursts (s : State) (n : Nat) (f : Link → Link) : (s.upLk n f).bursts = s.bursts := rfl
@[simp] theorem upLk_arrivals (s : State) (n : Nat) (f : Link → Link) : (s.upLk n f).arrivals = s.arrivals := rfl
@[simp] theorem upLk_gen (s : State) (n : Nat) (f : Link → Link) : (s.upLk n f).gen = s.gen := rfl
@[simp] theorem upLk_cache (s : State) (n : Nat) (f : Link → Link) : (s.upLk n f).cache = s.cache := rfl
@[simp] theorem upLk_results (s : State) (n : Nat) (f : Link → Link) : (s.upLk n f).results = s.results := rfl
@[simp] theorem upLk_regions (s : State) (n : Nat) (f : Link → Link) : (s.upLk n f).regions = s.regions := rfl
@[simp] theorem upLk_clusters (s : State) (n : Nat) (f : Link → Link) : (s.upLk n f).clusters = s.clusters := rfl
@[simp] theorem upLk_calibs (s : State) (n : Nat) (f : Link → Link) : (s.upLk n f).calibs = s.calibs := rfl
@[simp] theorem upLk_waiting (s : State) (n : Nat) (f : Link → Link) : (s.upLk n f).waiting = s.waiting := rfl
@[simp] theorem upLk_paddock (s : State) (n : Nat) (f : Link → Link) : (s.upLk n f).paddock = s.paddock := rfl
@[simp] theorem upLk_pe (s : State) (n : Nat) (f : Link → Link) : (s.upLk n f).pe = s.pe := rfl
@[simp] theorem upLk_fuse (s : State) (n : Nat) (f : Link → Link) : (s.upLk n f).fuse = s.fuse := rfl
@[simp] theorem upLk_collector (s : State) (n : Nat) (f : Link → Link) : (s.upLk n f).collector = s.collector := rfl
@[simp] theorem upLk_logQ (s : State) (n : Nat) (f : Link → Link) : (s.upLk n f).logQ = s.logQ := rfl
@[simp] theorem upLk_life (s : State) (n : Nat) (f : Link → Link) : (s.upLk n f).life = s.life := rfl
@[simp] theorem upLk_chainsBad (s : State) (n : Nat) (f : Link → Link) : (s.upLk n f).chainsBad = s.chainsBad := rfl
@[simp] theorem upLk_metersBad (s : State) (n : Nat) (f : Link → Link) : (s.upLk n f).metersBad = s.metersBad := rfl
@[simp] theorem upLk_power (s : State) (n : Nat) (f : Link → Link) : (s.upLk n f).power = s.power := rfl
@[simp] theorem upLk_rst (s : State) (n : Nat) (f : Link → Link) : (s.upLk n f).rst = s.rst := rfl
@[simp] theorem upLk_board (s : State) (n : Nat) (f : Link → Link) : (s.upLk n f).board = s.board := rfl
@[simp] theorem upLk_mcs (s : State) (n : Nat) (f : Link → Link) : (s.upLk n f).mcs = s.mcs := rfl
@[simp] theorem upLk_ctxArea (s : State) (n : Nat) (f : Link → Link) : (s.upLk n f).ctxArea = s.ctxArea := rfl
@[simp] theorem upLk_links (s : State) (n : Nat) (f : Link → Link) : (s.upLk n f).links = s.links.modify n f := rfl
@[simp] theorem upLk_ringT (s : State) (n : Nat) (f : Link → Link) : (s.upLk n f).ringT = s.ringT := rfl
@[simp] theorem upLk_pair (s : State) (n : Nat) (f : Link → Link) : (s.upLk n f).pair = s.pair := rfl
@[simp] theorem upLk_apgs (s : State) (n : Nat) (f : Link → Link) : (s.upLk n f).apgs = s.apgs := rfl
@[simp] theorem upLk_ports (s : State) (n : Nat) (f : Link → Link) : (s.upLk n f).ports = s.ports := rfl
@[simp] theorem upLk_chains (s : State) (n : Nat) (f : Link → Link) : (s.upLk n f).chains = s.chains := rfl
@[simp] theorem upLk_acqs (s : State) (n : Nat) (f : Link → Link) : (s.upLk n f).acqs = s.acqs := rfl
@[simp] theorem upLk_sbufs (s : State) (n : Nat) (f : Link → Link) : (s.upLk n f).sbufs = s.sbufs := rfl
@[simp] theorem upLk_trigs (s : State) (n : Nat) (f : Link → Link) : (s.upLk n f).trigs = s.trigs := rfl
@[simp] theorem upLk_meters (s : State) (n : Nat) (f : Link → Link) : (s.upLk n f).meters = s.meters := rfl
@[simp] theorem upLk_trigEv (s : State) (n : Nat) (f : Link → Link) : (s.upLk n f).trigEv = s.trigEv := rfl
@[simp] theorem upLk_trigOut (s : State) (n : Nat) (f : Link → Link) : (s.upLk n f).trigOut = s.trigOut := rfl
@[simp] theorem upLk_out (s : State) (n : Nat) (f : Link → Link) : (s.upLk n f).out = s.out := rfl
@[simp] theorem upLk_freeCtr (s : State) (n : Nat) (f : Link → Link) : (s.upLk n f).freeCtr = s.freeCtr := rfl
@[simp] theorem upLk_pending (s : State) (n : Nat) (f : Link → Link) : (s.upLk n f).pending = s.pending := rfl

/-! ### upMc -/

@[simp] theorem upMc_dtime (s : State) (m : Nat) (f : Mc → Mc) : (s.upMc m f).dtime = s.dtime := rfl
@[simp] theorem upMc_dfrac (s : State) (m : Nat) (f : Mc → Mc) : (s.upMc m f).dfrac = s.dfrac := rfl
@[simp] theorem upMc_clk (s : State) (m : Nat) (f : Mc → Mc) : (s.upMc m f).clk = s.clk := rfl
@[simp] theorem upMc_regs (s : State) (m : Nat) (f : Mc → Mc) : (s.upMc m f).regs = s.regs := rfl
@[simp] theorem upMc_held (s : State) (m : Nat) (f : Mc → Mc) : (s.upMc m f).held = s.held := rfl
@[simp] theorem upMc_latch (s : State) (m : Nat) (f : Mc → Mc) : (s.upMc m f).latch = s.latch := rfl
@[simp] theorem upMc_host (s : State) (m : Nat) (f : Mc → Mc) : (s.upMc m f).host = s.host := rfl
@[simp] theorem upMc_mem (s : State) (m : Nat) (f : Mc → Mc) : (s.upMc m f).mem = s.mem := rfl
@[simp] theorem upMc_bad (s : State) (m : Nat) (f : Mc → Mc) : (s.upMc m f).bad = s.bad := rfl
@[simp] theorem upMc_objs (s : State) (m : Nat) (f : Mc → Mc) : (s.upMc m f).objs = s.objs := rfl
@[simp] theorem upMc_loads (s : State) (m : Nat) (f : Mc → Mc) : (s.upMc m f).loads = s.loads := rfl
@[simp] theorem upMc_sites (s : State) (m : Nat) (f : Mc → Mc) : (s.upMc m f).sites = s.sites := rfl
@[simp] theorem upMc_groups (s : State) (m : Nat) (f : Mc → Mc) : (s.upMc m f).groups = s.groups := rfl
@[simp] theorem upMc_slices (s : State) (m : Nat) (f : Mc → Mc) : (s.upMc m f).slices = s.slices := rfl
@[simp] theorem upMc_bursts (s : State) (m : Nat) (f : Mc → Mc) : (s.upMc m f).bursts = s.bursts := rfl
@[simp] theorem upMc_arrivals (s : State) (m : Nat) (f : Mc → Mc) : (s.upMc m f).arrivals = s.arrivals := rfl
@[simp] theorem upMc_gen (s : State) (m : Nat) (f : Mc → Mc) : (s.upMc m f).gen = s.gen := rfl
@[simp] theorem upMc_cache (s : State) (m : Nat) (f : Mc → Mc) : (s.upMc m f).cache = s.cache := rfl
@[simp] theorem upMc_results (s : State) (m : Nat) (f : Mc → Mc) : (s.upMc m f).results = s.results := rfl
@[simp] theorem upMc_regions (s : State) (m : Nat) (f : Mc → Mc) : (s.upMc m f).regions = s.regions := rfl
@[simp] theorem upMc_clusters (s : State) (m : Nat) (f : Mc → Mc) : (s.upMc m f).clusters = s.clusters := rfl
@[simp] theorem upMc_calibs (s : State) (m : Nat) (f : Mc → Mc) : (s.upMc m f).calibs = s.calibs := rfl
@[simp] theorem upMc_waiting (s : State) (m : Nat) (f : Mc → Mc) : (s.upMc m f).waiting = s.waiting := rfl
@[simp] theorem upMc_paddock (s : State) (m : Nat) (f : Mc → Mc) : (s.upMc m f).paddock = s.paddock := rfl
@[simp] theorem upMc_pe (s : State) (m : Nat) (f : Mc → Mc) : (s.upMc m f).pe = s.pe := rfl
@[simp] theorem upMc_fuse (s : State) (m : Nat) (f : Mc → Mc) : (s.upMc m f).fuse = s.fuse := rfl
@[simp] theorem upMc_collector (s : State) (m : Nat) (f : Mc → Mc) : (s.upMc m f).collector = s.collector := rfl
@[simp] theorem upMc_logQ (s : State) (m : Nat) (f : Mc → Mc) : (s.upMc m f).logQ = s.logQ := rfl
@[simp] theorem upMc_life (s : State) (m : Nat) (f : Mc → Mc) : (s.upMc m f).life = s.life := rfl
@[simp] theorem upMc_chainsBad (s : State) (m : Nat) (f : Mc → Mc) : (s.upMc m f).chainsBad = s.chainsBad := rfl
@[simp] theorem upMc_metersBad (s : State) (m : Nat) (f : Mc → Mc) : (s.upMc m f).metersBad = s.metersBad := rfl
@[simp] theorem upMc_power (s : State) (m : Nat) (f : Mc → Mc) : (s.upMc m f).power = s.power := rfl
@[simp] theorem upMc_rst (s : State) (m : Nat) (f : Mc → Mc) : (s.upMc m f).rst = s.rst := rfl
@[simp] theorem upMc_board (s : State) (m : Nat) (f : Mc → Mc) : (s.upMc m f).board = s.board := rfl
@[simp] theorem upMc_mcs (s : State) (m : Nat) (f : Mc → Mc) : (s.upMc m f).mcs = s.mcs.modify m f := rfl
@[simp] theorem upMc_ctxArea (s : State) (m : Nat) (f : Mc → Mc) : (s.upMc m f).ctxArea = s.ctxArea := rfl
@[simp] theorem upMc_links (s : State) (m : Nat) (f : Mc → Mc) : (s.upMc m f).links = s.links := rfl
@[simp] theorem upMc_ringT (s : State) (m : Nat) (f : Mc → Mc) : (s.upMc m f).ringT = s.ringT := rfl
@[simp] theorem upMc_pair (s : State) (m : Nat) (f : Mc → Mc) : (s.upMc m f).pair = s.pair := rfl
@[simp] theorem upMc_apgs (s : State) (m : Nat) (f : Mc → Mc) : (s.upMc m f).apgs = s.apgs := rfl
@[simp] theorem upMc_ports (s : State) (m : Nat) (f : Mc → Mc) : (s.upMc m f).ports = s.ports := rfl
@[simp] theorem upMc_chains (s : State) (m : Nat) (f : Mc → Mc) : (s.upMc m f).chains = s.chains := rfl
@[simp] theorem upMc_acqs (s : State) (m : Nat) (f : Mc → Mc) : (s.upMc m f).acqs = s.acqs := rfl
@[simp] theorem upMc_sbufs (s : State) (m : Nat) (f : Mc → Mc) : (s.upMc m f).sbufs = s.sbufs := rfl
@[simp] theorem upMc_trigs (s : State) (m : Nat) (f : Mc → Mc) : (s.upMc m f).trigs = s.trigs := rfl
@[simp] theorem upMc_meters (s : State) (m : Nat) (f : Mc → Mc) : (s.upMc m f).meters = s.meters := rfl
@[simp] theorem upMc_trigEv (s : State) (m : Nat) (f : Mc → Mc) : (s.upMc m f).trigEv = s.trigEv := rfl
@[simp] theorem upMc_trigOut (s : State) (m : Nat) (f : Mc → Mc) : (s.upMc m f).trigOut = s.trigOut := rfl
@[simp] theorem upMc_out (s : State) (m : Nat) (f : Mc → Mc) : (s.upMc m f).out = s.out := rfl
@[simp] theorem upMc_freeCtr (s : State) (m : Nat) (f : Mc → Mc) : (s.upMc m f).freeCtr = s.freeCtr := rfl
@[simp] theorem upMc_pending (s : State) (m : Nat) (f : Mc → Mc) : (s.upMc m f).pending = s.pending := rfl

/-! ### upObj -/

@[simp] theorem upObj_dtime (s : State) (id : Nat) (f : Obj → Obj) : (s.upObj id f).dtime = s.dtime := rfl
@[simp] theorem upObj_dfrac (s : State) (id : Nat) (f : Obj → Obj) : (s.upObj id f).dfrac = s.dfrac := rfl
@[simp] theorem upObj_clk (s : State) (id : Nat) (f : Obj → Obj) : (s.upObj id f).clk = s.clk := rfl
@[simp] theorem upObj_regs (s : State) (id : Nat) (f : Obj → Obj) : (s.upObj id f).regs = s.regs := rfl
@[simp] theorem upObj_held (s : State) (id : Nat) (f : Obj → Obj) : (s.upObj id f).held = s.held := rfl
@[simp] theorem upObj_latch (s : State) (id : Nat) (f : Obj → Obj) : (s.upObj id f).latch = s.latch := rfl
@[simp] theorem upObj_host (s : State) (id : Nat) (f : Obj → Obj) : (s.upObj id f).host = s.host := rfl
@[simp] theorem upObj_mem (s : State) (id : Nat) (f : Obj → Obj) : (s.upObj id f).mem = s.mem := rfl
@[simp] theorem upObj_bad (s : State) (id : Nat) (f : Obj → Obj) : (s.upObj id f).bad = s.bad := rfl
@[simp] theorem upObj_objs (s : State) (id : Nat) (f : Obj → Obj) : (s.upObj id f).objs = kUpd s.objs id f := rfl
@[simp] theorem upObj_loads (s : State) (id : Nat) (f : Obj → Obj) : (s.upObj id f).loads = s.loads := rfl
@[simp] theorem upObj_sites (s : State) (id : Nat) (f : Obj → Obj) : (s.upObj id f).sites = s.sites := rfl
@[simp] theorem upObj_groups (s : State) (id : Nat) (f : Obj → Obj) : (s.upObj id f).groups = s.groups := rfl
@[simp] theorem upObj_slices (s : State) (id : Nat) (f : Obj → Obj) : (s.upObj id f).slices = s.slices := rfl
@[simp] theorem upObj_bursts (s : State) (id : Nat) (f : Obj → Obj) : (s.upObj id f).bursts = s.bursts := rfl
@[simp] theorem upObj_arrivals (s : State) (id : Nat) (f : Obj → Obj) : (s.upObj id f).arrivals = s.arrivals := rfl
@[simp] theorem upObj_gen (s : State) (id : Nat) (f : Obj → Obj) : (s.upObj id f).gen = s.gen := rfl
@[simp] theorem upObj_cache (s : State) (id : Nat) (f : Obj → Obj) : (s.upObj id f).cache = s.cache := rfl
@[simp] theorem upObj_results (s : State) (id : Nat) (f : Obj → Obj) : (s.upObj id f).results = s.results := rfl
@[simp] theorem upObj_regions (s : State) (id : Nat) (f : Obj → Obj) : (s.upObj id f).regions = s.regions := rfl
@[simp] theorem upObj_clusters (s : State) (id : Nat) (f : Obj → Obj) : (s.upObj id f).clusters = s.clusters := rfl
@[simp] theorem upObj_calibs (s : State) (id : Nat) (f : Obj → Obj) : (s.upObj id f).calibs = s.calibs := rfl
@[simp] theorem upObj_waiting (s : State) (id : Nat) (f : Obj → Obj) : (s.upObj id f).waiting = s.waiting := rfl
@[simp] theorem upObj_paddock (s : State) (id : Nat) (f : Obj → Obj) : (s.upObj id f).paddock = s.paddock := rfl
@[simp] theorem upObj_pe (s : State) (id : Nat) (f : Obj → Obj) : (s.upObj id f).pe = s.pe := rfl
@[simp] theorem upObj_fuse (s : State) (id : Nat) (f : Obj → Obj) : (s.upObj id f).fuse = s.fuse := rfl
@[simp] theorem upObj_collector (s : State) (id : Nat) (f : Obj → Obj) : (s.upObj id f).collector = s.collector := rfl
@[simp] theorem upObj_logQ (s : State) (id : Nat) (f : Obj → Obj) : (s.upObj id f).logQ = s.logQ := rfl
@[simp] theorem upObj_life (s : State) (id : Nat) (f : Obj → Obj) : (s.upObj id f).life = s.life := rfl
@[simp] theorem upObj_chainsBad (s : State) (id : Nat) (f : Obj → Obj) : (s.upObj id f).chainsBad = s.chainsBad := rfl
@[simp] theorem upObj_metersBad (s : State) (id : Nat) (f : Obj → Obj) : (s.upObj id f).metersBad = s.metersBad := rfl
@[simp] theorem upObj_power (s : State) (id : Nat) (f : Obj → Obj) : (s.upObj id f).power = s.power := rfl
@[simp] theorem upObj_rst (s : State) (id : Nat) (f : Obj → Obj) : (s.upObj id f).rst = s.rst := rfl
@[simp] theorem upObj_board (s : State) (id : Nat) (f : Obj → Obj) : (s.upObj id f).board = s.board := rfl
@[simp] theorem upObj_mcs (s : State) (id : Nat) (f : Obj → Obj) : (s.upObj id f).mcs = s.mcs := rfl
@[simp] theorem upObj_ctxArea (s : State) (id : Nat) (f : Obj → Obj) : (s.upObj id f).ctxArea = s.ctxArea := rfl
@[simp] theorem upObj_links (s : State) (id : Nat) (f : Obj → Obj) : (s.upObj id f).links = s.links := rfl
@[simp] theorem upObj_ringT (s : State) (id : Nat) (f : Obj → Obj) : (s.upObj id f).ringT = s.ringT := rfl
@[simp] theorem upObj_pair (s : State) (id : Nat) (f : Obj → Obj) : (s.upObj id f).pair = s.pair := rfl
@[simp] theorem upObj_apgs (s : State) (id : Nat) (f : Obj → Obj) : (s.upObj id f).apgs = s.apgs := rfl
@[simp] theorem upObj_ports (s : State) (id : Nat) (f : Obj → Obj) : (s.upObj id f).ports = s.ports := rfl
@[simp] theorem upObj_chains (s : State) (id : Nat) (f : Obj → Obj) : (s.upObj id f).chains = s.chains := rfl
@[simp] theorem upObj_acqs (s : State) (id : Nat) (f : Obj → Obj) : (s.upObj id f).acqs = s.acqs := rfl
@[simp] theorem upObj_sbufs (s : State) (id : Nat) (f : Obj → Obj) : (s.upObj id f).sbufs = s.sbufs := rfl
@[simp] theorem upObj_trigs (s : State) (id : Nat) (f : Obj → Obj) : (s.upObj id f).trigs = s.trigs := rfl
@[simp] theorem upObj_meters (s : State) (id : Nat) (f : Obj → Obj) : (s.upObj id f).meters = s.meters := rfl
@[simp] theorem upObj_trigEv (s : State) (id : Nat) (f : Obj → Obj) : (s.upObj id f).trigEv = s.trigEv := rfl
@[simp] theorem upObj_trigOut (s : State) (id : Nat) (f : Obj → Obj) : (s.upObj id f).trigOut = s.trigOut := rfl
@[simp] theorem upObj_out (s : State) (id : Nat) (f : Obj → Obj) : (s.upObj id f).out = s.out := rfl
@[simp] theorem upObj_freeCtr (s : State) (id : Nat) (f : Obj → Obj) : (s.upObj id f).freeCtr = s.freeCtr := rfl
@[simp] theorem upObj_pending (s : State) (id : Nat) (f : Obj → Obj) : (s.upObj id f).pending = s.pending := rfl

/-! ### upSite -/

@[simp] theorem upSite_dtime (s : State) (id : Nat) (f : Site → Site) : (s.upSite id f).dtime = s.dtime := rfl
@[simp] theorem upSite_dfrac (s : State) (id : Nat) (f : Site → Site) : (s.upSite id f).dfrac = s.dfrac := rfl
@[simp] theorem upSite_clk (s : State) (id : Nat) (f : Site → Site) : (s.upSite id f).clk = s.clk := rfl
@[simp] theorem upSite_regs (s : State) (id : Nat) (f : Site → Site) : (s.upSite id f).regs = s.regs := rfl
@[simp] theorem upSite_held (s : State) (id : Nat) (f : Site → Site) : (s.upSite id f).held = s.held := rfl
@[simp] theorem upSite_latch (s : State) (id : Nat) (f : Site → Site) : (s.upSite id f).latch = s.latch := rfl
@[simp] theorem upSite_host (s : State) (id : Nat) (f : Site → Site) : (s.upSite id f).host = s.host := rfl
@[simp] theorem upSite_mem (s : State) (id : Nat) (f : Site → Site) : (s.upSite id f).mem = s.mem := rfl
@[simp] theorem upSite_bad (s : State) (id : Nat) (f : Site → Site) : (s.upSite id f).bad = s.bad := rfl
@[simp] theorem upSite_objs (s : State) (id : Nat) (f : Site → Site) : (s.upSite id f).objs = s.objs := rfl
@[simp] theorem upSite_loads (s : State) (id : Nat) (f : Site → Site) : (s.upSite id f).loads = s.loads := rfl
@[simp] theorem upSite_sites (s : State) (id : Nat) (f : Site → Site) : (s.upSite id f).sites = kUpd s.sites id f := rfl
@[simp] theorem upSite_groups (s : State) (id : Nat) (f : Site → Site) : (s.upSite id f).groups = s.groups := rfl
@[simp] theorem upSite_slices (s : State) (id : Nat) (f : Site → Site) : (s.upSite id f).slices = s.slices := rfl
@[simp] theorem upSite_bursts (s : State) (id : Nat) (f : Site → Site) : (s.upSite id f).bursts = s.bursts := rfl
@[simp] theorem upSite_arrivals (s : State) (id : Nat) (f : Site → Site) : (s.upSite id f).arrivals = s.arrivals := rfl
@[simp] theorem upSite_gen (s : State) (id : Nat) (f : Site → Site) : (s.upSite id f).gen = s.gen := rfl
@[simp] theorem upSite_cache (s : State) (id : Nat) (f : Site → Site) : (s.upSite id f).cache = s.cache := rfl
@[simp] theorem upSite_results (s : State) (id : Nat) (f : Site → Site) : (s.upSite id f).results = s.results := rfl
@[simp] theorem upSite_regions (s : State) (id : Nat) (f : Site → Site) : (s.upSite id f).regions = s.regions := rfl
@[simp] theorem upSite_clusters (s : State) (id : Nat) (f : Site → Site) : (s.upSite id f).clusters = s.clusters := rfl
@[simp] theorem upSite_calibs (s : State) (id : Nat) (f : Site → Site) : (s.upSite id f).calibs = s.calibs := rfl
@[simp] theorem upSite_waiting (s : State) (id : Nat) (f : Site → Site) : (s.upSite id f).waiting = s.waiting := rfl
@[simp] theorem upSite_paddock (s : State) (id : Nat) (f : Site → Site) : (s.upSite id f).paddock = s.paddock := rfl
@[simp] theorem upSite_pe (s : State) (id : Nat) (f : Site → Site) : (s.upSite id f).pe = s.pe := rfl
@[simp] theorem upSite_fuse (s : State) (id : Nat) (f : Site → Site) : (s.upSite id f).fuse = s.fuse := rfl
@[simp] theorem upSite_collector (s : State) (id : Nat) (f : Site → Site) : (s.upSite id f).collector = s.collector := rfl
@[simp] theorem upSite_logQ (s : State) (id : Nat) (f : Site → Site) : (s.upSite id f).logQ = s.logQ := rfl
@[simp] theorem upSite_life (s : State) (id : Nat) (f : Site → Site) : (s.upSite id f).life = s.life := rfl
@[simp] theorem upSite_chainsBad (s : State) (id : Nat) (f : Site → Site) : (s.upSite id f).chainsBad = s.chainsBad := rfl
@[simp] theorem upSite_metersBad (s : State) (id : Nat) (f : Site → Site) : (s.upSite id f).metersBad = s.metersBad := rfl
@[simp] theorem upSite_power (s : State) (id : Nat) (f : Site → Site) : (s.upSite id f).power = s.power := rfl
@[simp] theorem upSite_rst (s : State) (id : Nat) (f : Site → Site) : (s.upSite id f).rst = s.rst := rfl
@[simp] theorem upSite_board (s : State) (id : Nat) (f : Site → Site) : (s.upSite id f).board = s.board := rfl
@[simp] theorem upSite_mcs (s : State) (id : Nat) (f : Site → Site) : (s.upSite id f).mcs = s.mcs := rfl
@[simp] theorem upSite_ctxArea (s : State) (id : Nat) (f : Site → Site) : (s.upSite id f).ctxArea = s.ctxArea := rfl
@[simp] theorem upSite_links (s : State) (id : Nat) (f : Site → Site) : (s.upSite id f).links = s.links := rfl
@[simp] theorem upSite_ringT (s : State) (id : Nat) (f : Site → Site) : (s.upSite id f).ringT = s.ringT := rfl
@[simp] theorem upSite_pair (s : State) (id : Nat) (f : Site → Site) : (s.upSite id f).pair = s.pair := rfl
@[simp] theorem upSite_apgs (s : State) (id : Nat) (f : Site → Site) : (s.upSite id f).apgs = s.apgs := rfl
@[simp] theorem upSite_ports (s : State) (id : Nat) (f : Site → Site) : (s.upSite id f).ports = s.ports := rfl
@[simp] theorem upSite_chains (s : State) (id : Nat) (f : Site → Site) : (s.upSite id f).chains = s.chains := rfl
@[simp] theorem upSite_acqs (s : State) (id : Nat) (f : Site → Site) : (s.upSite id f).acqs = s.acqs := rfl
@[simp] theorem upSite_sbufs (s : State) (id : Nat) (f : Site → Site) : (s.upSite id f).sbufs = s.sbufs := rfl
@[simp] theorem upSite_trigs (s : State) (id : Nat) (f : Site → Site) : (s.upSite id f).trigs = s.trigs := rfl
@[simp] theorem upSite_meters (s : State) (id : Nat) (f : Site → Site) : (s.upSite id f).meters = s.meters := rfl
@[simp] theorem upSite_trigEv (s : State) (id : Nat) (f : Site → Site) : (s.upSite id f).trigEv = s.trigEv := rfl
@[simp] theorem upSite_trigOut (s : State) (id : Nat) (f : Site → Site) : (s.upSite id f).trigOut = s.trigOut := rfl
@[simp] theorem upSite_out (s : State) (id : Nat) (f : Site → Site) : (s.upSite id f).out = s.out := rfl
@[simp] theorem upSite_freeCtr (s : State) (id : Nat) (f : Site → Site) : (s.upSite id f).freeCtr = s.freeCtr := rfl
@[simp] theorem upSite_pending (s : State) (id : Nat) (f : Site → Site) : (s.upSite id f).pending = s.pending := rfl

/-! ### upRegion -/

@[simp] theorem upRegion_dtime (s : State) (id : Nat) (f : Region → Region) : (s.upRegion id f).dtime = s.dtime := rfl
@[simp] theorem upRegion_dfrac (s : State) (id : Nat) (f : Region → Region) : (s.upRegion id f).dfrac = s.dfrac := rfl
@[simp] theorem upRegion_clk (s : State) (id : Nat) (f : Region → Region) : (s.upRegion id f).clk = s.clk := rfl
@[simp] theorem upRegion_regs (s : State) (id : Nat) (f : Region → Region) : (s.upRegion id f).regs = s.regs := rfl
@[simp] theorem upRegion_held (s : State) (id : Nat) (f : Region → Region) : (s.upRegion id f).held = s.held := rfl
@[simp] theorem upRegion_latch (s : State) (id : Nat) (f : Region → Region) : (s.upRegion id f).latch = s.latch := rfl
@[simp] theorem upRegion_host (s : State) (id : Nat) (f : Region → Region) : (s.upRegion id f).host = s.host := rfl
@[simp] theorem upRegion_mem (s : State) (id : Nat) (f : Region → Region) : (s.upRegion id f).mem = s.mem := rfl
@[simp] theorem upRegion_bad (s : State) (id : Nat) (f : Region → Region) : (s.upRegion id f).bad = s.bad := rfl
@[simp] theorem upRegion_objs (s : State) (id : Nat) (f : Region → Region) : (s.upRegion id f).objs = s.objs := rfl
@[simp] theorem upRegion_loads (s : State) (id : Nat) (f : Region → Region) : (s.upRegion id f).loads = s.loads := rfl
@[simp] theorem upRegion_sites (s : State) (id : Nat) (f : Region → Region) : (s.upRegion id f).sites = s.sites := rfl
@[simp] theorem upRegion_groups (s : State) (id : Nat) (f : Region → Region) : (s.upRegion id f).groups = s.groups := rfl
@[simp] theorem upRegion_slices (s : State) (id : Nat) (f : Region → Region) : (s.upRegion id f).slices = s.slices := rfl
@[simp] theorem upRegion_bursts (s : State) (id : Nat) (f : Region → Region) : (s.upRegion id f).bursts = s.bursts := rfl
@[simp] theorem upRegion_arrivals (s : State) (id : Nat) (f : Region → Region) : (s.upRegion id f).arrivals = s.arrivals := rfl
@[simp] theorem upRegion_gen (s : State) (id : Nat) (f : Region → Region) : (s.upRegion id f).gen = s.gen := rfl
@[simp] theorem upRegion_cache (s : State) (id : Nat) (f : Region → Region) : (s.upRegion id f).cache = s.cache := rfl
@[simp] theorem upRegion_results (s : State) (id : Nat) (f : Region → Region) : (s.upRegion id f).results = s.results := rfl
@[simp] theorem upRegion_regions (s : State) (id : Nat) (f : Region → Region) : (s.upRegion id f).regions = kUpd s.regions id f := rfl
@[simp] theorem upRegion_clusters (s : State) (id : Nat) (f : Region → Region) : (s.upRegion id f).clusters = s.clusters := rfl
@[simp] theorem upRegion_calibs (s : State) (id : Nat) (f : Region → Region) : (s.upRegion id f).calibs = s.calibs := rfl
@[simp] theorem upRegion_waiting (s : State) (id : Nat) (f : Region → Region) : (s.upRegion id f).waiting = s.waiting := rfl
@[simp] theorem upRegion_paddock (s : State) (id : Nat) (f : Region → Region) : (s.upRegion id f).paddock = s.paddock := rfl
@[simp] theorem upRegion_pe (s : State) (id : Nat) (f : Region → Region) : (s.upRegion id f).pe = s.pe := rfl
@[simp] theorem upRegion_fuse (s : State) (id : Nat) (f : Region → Region) : (s.upRegion id f).fuse = s.fuse := rfl
@[simp] theorem upRegion_collector (s : State) (id : Nat) (f : Region → Region) : (s.upRegion id f).collector = s.collector := rfl
@[simp] theorem upRegion_logQ (s : State) (id : Nat) (f : Region → Region) : (s.upRegion id f).logQ = s.logQ := rfl
@[simp] theorem upRegion_life (s : State) (id : Nat) (f : Region → Region) : (s.upRegion id f).life = s.life := rfl
@[simp] theorem upRegion_chainsBad (s : State) (id : Nat) (f : Region → Region) : (s.upRegion id f).chainsBad = s.chainsBad := rfl
@[simp] theorem upRegion_metersBad (s : State) (id : Nat) (f : Region → Region) : (s.upRegion id f).metersBad = s.metersBad := rfl
@[simp] theorem upRegion_power (s : State) (id : Nat) (f : Region → Region) : (s.upRegion id f).power = s.power := rfl
@[simp] theorem upRegion_rst (s : State) (id : Nat) (f : Region → Region) : (s.upRegion id f).rst = s.rst := rfl
@[simp] theorem upRegion_board (s : State) (id : Nat) (f : Region → Region) : (s.upRegion id f).board = s.board := rfl
@[simp] theorem upRegion_mcs (s : State) (id : Nat) (f : Region → Region) : (s.upRegion id f).mcs = s.mcs := rfl
@[simp] theorem upRegion_ctxArea (s : State) (id : Nat) (f : Region → Region) : (s.upRegion id f).ctxArea = s.ctxArea := rfl
@[simp] theorem upRegion_links (s : State) (id : Nat) (f : Region → Region) : (s.upRegion id f).links = s.links := rfl
@[simp] theorem upRegion_ringT (s : State) (id : Nat) (f : Region → Region) : (s.upRegion id f).ringT = s.ringT := rfl
@[simp] theorem upRegion_pair (s : State) (id : Nat) (f : Region → Region) : (s.upRegion id f).pair = s.pair := rfl
@[simp] theorem upRegion_apgs (s : State) (id : Nat) (f : Region → Region) : (s.upRegion id f).apgs = s.apgs := rfl
@[simp] theorem upRegion_ports (s : State) (id : Nat) (f : Region → Region) : (s.upRegion id f).ports = s.ports := rfl
@[simp] theorem upRegion_chains (s : State) (id : Nat) (f : Region → Region) : (s.upRegion id f).chains = s.chains := rfl
@[simp] theorem upRegion_acqs (s : State) (id : Nat) (f : Region → Region) : (s.upRegion id f).acqs = s.acqs := rfl
@[simp] theorem upRegion_sbufs (s : State) (id : Nat) (f : Region → Region) : (s.upRegion id f).sbufs = s.sbufs := rfl
@[simp] theorem upRegion_trigs (s : State) (id : Nat) (f : Region → Region) : (s.upRegion id f).trigs = s.trigs := rfl
@[simp] theorem upRegion_meters (s : State) (id : Nat) (f : Region → Region) : (s.upRegion id f).meters = s.meters := rfl
@[simp] theorem upRegion_trigEv (s : State) (id : Nat) (f : Region → Region) : (s.upRegion id f).trigEv = s.trigEv := rfl
@[simp] theorem upRegion_trigOut (s : State) (id : Nat) (f : Region → Region) : (s.upRegion id f).trigOut = s.trigOut := rfl
@[simp] theorem upRegion_out (s : State) (id : Nat) (f : Region → Region) : (s.upRegion id f).out = s.out := rfl
@[simp] theorem upRegion_freeCtr (s : State) (id : Nat) (f : Region → Region) : (s.upRegion id f).freeCtr = s.freeCtr := rfl
@[simp] theorem upRegion_pending (s : State) (id : Nat) (f : Region → Region) : (s.upRegion id f).pending = s.pending := rfl

/-! ### upTrig -/

@[simp] theorem upTrig_dtime (s : State) (k : Nat) (f : Trig → Trig) : (s.upTrig k f).dtime = s.dtime := rfl
@[simp] theorem upTrig_dfrac (s : State) (k : Nat) (f : Trig → Trig) : (s.upTrig k f).dfrac = s.dfrac := rfl
@[simp] theorem upTrig_clk (s : State) (k : Nat) (f : Trig → Trig) : (s.upTrig k f).clk = s.clk := rfl
@[simp] theorem upTrig_regs (s : State) (k : Nat) (f : Trig → Trig) : (s.upTrig k f).regs = s.regs := rfl
@[simp] theorem upTrig_held (s : State) (k : Nat) (f : Trig → Trig) : (s.upTrig k f).held = s.held := rfl
@[simp] theorem upTrig_latch (s : State) (k : Nat) (f : Trig → Trig) : (s.upTrig k f).latch = s.latch := rfl
@[simp] theorem upTrig_host (s : State) (k : Nat) (f : Trig → Trig) : (s.upTrig k f).host = s.host := rfl
@[simp] theorem upTrig_mem (s : State) (k : Nat) (f : Trig → Trig) : (s.upTrig k f).mem = s.mem := rfl
@[simp] theorem upTrig_bad (s : State) (k : Nat) (f : Trig → Trig) : (s.upTrig k f).bad = s.bad := rfl
@[simp] theorem upTrig_objs (s : State) (k : Nat) (f : Trig → Trig) : (s.upTrig k f).objs = s.objs := rfl
@[simp] theorem upTrig_loads (s : State) (k : Nat) (f : Trig → Trig) : (s.upTrig k f).loads = s.loads := rfl
@[simp] theorem upTrig_sites (s : State) (k : Nat) (f : Trig → Trig) : (s.upTrig k f).sites = s.sites := rfl
@[simp] theorem upTrig_groups (s : State) (k : Nat) (f : Trig → Trig) : (s.upTrig k f).groups = s.groups := rfl
@[simp] theorem upTrig_slices (s : State) (k : Nat) (f : Trig → Trig) : (s.upTrig k f).slices = s.slices := rfl
@[simp] theorem upTrig_bursts (s : State) (k : Nat) (f : Trig → Trig) : (s.upTrig k f).bursts = s.bursts := rfl
@[simp] theorem upTrig_arrivals (s : State) (k : Nat) (f : Trig → Trig) : (s.upTrig k f).arrivals = s.arrivals := rfl
@[simp] theorem upTrig_gen (s : State) (k : Nat) (f : Trig → Trig) : (s.upTrig k f).gen = s.gen := rfl
@[simp] theorem upTrig_cache (s : State) (k : Nat) (f : Trig → Trig) : (s.upTrig k f).cache = s.cache := rfl
@[simp] theorem upTrig_results (s : State) (k : Nat) (f : Trig → Trig) : (s.upTrig k f).results = s.results := rfl
@[simp] theorem upTrig_regions (s : State) (k : Nat) (f : Trig → Trig) : (s.upTrig k f).regions = s.regions := rfl
@[simp] theorem upTrig_clusters (s : State) (k : Nat) (f : Trig → Trig) : (s.upTrig k f).clusters = s.clusters := rfl
@[simp] theorem upTrig_calibs (s : State) (k : Nat) (f : Trig → Trig) : (s.upTrig k f).calibs = s.calibs := rfl
@[simp] theorem upTrig_waiting (s : State) (k : Nat) (f : Trig → Trig) : (s.upTrig k f).waiting = s.waiting := rfl
@[simp] theorem upTrig_paddock (s : State) (k : Nat) (f : Trig → Trig) : (s.upTrig k f).paddock = s.paddock := rfl
@[simp] theorem upTrig_pe (s : State) (k : Nat) (f : Trig → Trig) : (s.upTrig k f).pe = s.pe := rfl
@[simp] theorem upTrig_fuse (s : State) (k : Nat) (f : Trig → Trig) : (s.upTrig k f).fuse = s.fuse := rfl
@[simp] theorem upTrig_collector (s : State) (k : Nat) (f : Trig → Trig) : (s.upTrig k f).collector = s.collector := rfl
@[simp] theorem upTrig_logQ (s : State) (k : Nat) (f : Trig → Trig) : (s.upTrig k f).logQ = s.logQ := rfl
@[simp] theorem upTrig_life (s : State) (k : Nat) (f : Trig → Trig) : (s.upTrig k f).life = s.life := rfl
@[simp] theorem upTrig_chainsBad (s : State) (k : Nat) (f : Trig → Trig) : (s.upTrig k f).chainsBad = s.chainsBad := rfl
@[simp] theorem upTrig_metersBad (s : State) (k : Nat) (f : Trig → Trig) : (s.upTrig k f).metersBad = s.metersBad := rfl
@[simp] theorem upTrig_power (s : State) (k : Nat) (f : Trig → Trig) : (s.upTrig k f).power = s.power := rfl
@[simp] theorem upTrig_rst (s : State) (k : Nat) (f : Trig → Trig) : (s.upTrig k f).rst = s.rst := rfl
@[simp] theorem upTrig_board (s : State) (k : Nat) (f : Trig → Trig) : (s.upTrig k f).board = s.board := rfl
@[simp] theorem upTrig_mcs (s : State) (k : Nat) (f : Trig → Trig) : (s.upTrig k f).mcs = s.mcs := rfl
@[simp] theorem upTrig_ctxArea (s : State) (k : Nat) (f : Trig → Trig) : (s.upTrig k f).ctxArea = s.ctxArea := rfl
@[simp] theorem upTrig_links (s : State) (k : Nat) (f : Trig → Trig) : (s.upTrig k f).links = s.links := rfl
@[simp] theorem upTrig_ringT (s : State) (k : Nat) (f : Trig → Trig) : (s.upTrig k f).ringT = s.ringT := rfl
@[simp] theorem upTrig_pair (s : State) (k : Nat) (f : Trig → Trig) : (s.upTrig k f).pair = s.pair := rfl
@[simp] theorem upTrig_apgs (s : State) (k : Nat) (f : Trig → Trig) : (s.upTrig k f).apgs = s.apgs := rfl
@[simp] theorem upTrig_ports (s : State) (k : Nat) (f : Trig → Trig) : (s.upTrig k f).ports = s.ports := rfl
@[simp] theorem upTrig_chains (s : State) (k : Nat) (f : Trig → Trig) : (s.upTrig k f).chains = s.chains := rfl
@[simp] theorem upTrig_acqs (s : State) (k : Nat) (f : Trig → Trig) : (s.upTrig k f).acqs = s.acqs := rfl
@[simp] theorem upTrig_sbufs (s : State) (k : Nat) (f : Trig → Trig) : (s.upTrig k f).sbufs = s.sbufs := rfl
@[simp] theorem upTrig_trigs (s : State) (k : Nat) (f : Trig → Trig) : (s.upTrig k f).trigs = s.trigs.modify k f := rfl
@[simp] theorem upTrig_meters (s : State) (k : Nat) (f : Trig → Trig) : (s.upTrig k f).meters = s.meters := rfl
@[simp] theorem upTrig_trigEv (s : State) (k : Nat) (f : Trig → Trig) : (s.upTrig k f).trigEv = s.trigEv := rfl
@[simp] theorem upTrig_trigOut (s : State) (k : Nat) (f : Trig → Trig) : (s.upTrig k f).trigOut = s.trigOut := rfl
@[simp] theorem upTrig_out (s : State) (k : Nat) (f : Trig → Trig) : (s.upTrig k f).out = s.out := rfl
@[simp] theorem upTrig_freeCtr (s : State) (k : Nat) (f : Trig → Trig) : (s.upTrig k f).freeCtr = s.freeCtr := rfl
@[simp] theorem upTrig_pending (s : State) (k : Nat) (f : Trig → Trig) : (s.upTrig k f).pending = s.pending := rfl

/-! ### upMeter -/

@[simp] theorem upMeter_dtime (s : State) (k : Nat) (f : Meter → Meter) : (s.upMeter k f).dtime = s.dtime := rfl
@[simp] theorem upMeter_dfrac (s : State) (k : Nat) (f : Meter → Meter) : (s.upMeter k f).dfrac = s.dfrac := rfl
@[simp] theorem upMeter_clk (s : State) (k : Nat) (f : Meter → Meter) : (s.upMeter k f).clk = s.clk := rfl
@[simp] theorem upMeter_regs (s : State) (k : Nat) (f : Meter → Meter) : (s.upMeter k f).regs = s.regs := rfl
@[simp] theorem upMeter_held (s : State) (k : Nat) (f : Meter → Meter) : (s.upMeter k f).held = s.held := rfl
@[simp] theorem upMeter_latch (s : State) (k : Nat) (f : Meter → Meter) : (s.upMeter k f).latch = s.latch := rfl
@[simp] theorem upMeter_host (s : State) (k : Nat) (f : Meter → Meter) : (s.upMeter k f).host = s.host := rfl
@[simp] theorem upMeter_mem (s : State) (k : Nat) (f : Meter → Meter) : (s.upMeter k f).mem = s.mem := rfl
@[simp] theorem upMeter_bad (s : State) (k : Nat) (f : Meter → Meter) : (s.upMeter k f).bad = s.bad := rfl
@[simp] theorem upMeter_objs (s : State) (k : Nat) (f : Meter → Meter) : (s.upMeter k f).objs = s.objs := rfl
@[simp] theorem upMeter_loads (s : State) (k : Nat) (f : Meter → Meter) : (s.upMeter k f).loads = s.loads := rfl
@[simp] theorem upMeter_sites (s : State) (k : Nat) (f : Meter → Meter) : (s.upMeter k f).sites = s.sites := rfl
@[simp] theorem upMeter_groups (s : State) (k : Nat) (f : Meter → Meter) : (s.upMeter k f).groups = s.groups := rfl
@[simp] theorem upMeter_slices (s : State) (k : Nat) (f : Meter → Meter) : (s.upMeter k f).slices = s.slices := rfl
@[simp] theorem upMeter_bursts (s : State) (k : Nat) (f : Meter → Meter) : (s.upMeter k f).bursts = s.bursts := rfl
@[simp] theorem upMeter_arrivals (s : State) (k : Nat) (f : Meter → Meter) : (s.upMeter k f).arrivals = s.arrivals := rfl
@[simp] theorem upMeter_gen (s : State) (k : Nat) (f : Meter → Meter) : (s.upMeter k f).gen = s.gen := rfl
@[simp] theorem upMeter_cache (s : State) (k : Nat) (f : Meter → Meter) : (s.upMeter k f).cache = s.cache := rfl
@[simp] theorem upMeter_results (s : State) (k : Nat) (f : Meter → Meter) : (s.upMeter k f).results = s.results := rfl
@[simp] theorem upMeter_regions (s : State) (k : Nat) (f : Meter → Meter) : (s.upMeter k f).regions = s.regions := rfl
@[simp] theorem upMeter_clusters (s : State) (k : Nat) (f : Meter → Meter) : (s.upMeter k f).clusters = s.clusters := rfl
@[simp] theorem upMeter_calibs (s : State) (k : Nat) (f : Meter → Meter) : (s.upMeter k f).calibs = s.calibs := rfl
@[simp] theorem upMeter_waiting (s : State) (k : Nat) (f : Meter → Meter) : (s.upMeter k f).waiting = s.waiting := rfl
@[simp] theorem upMeter_paddock (s : State) (k : Nat) (f : Meter → Meter) : (s.upMeter k f).paddock = s.paddock := rfl
@[simp] theorem upMeter_pe (s : State) (k : Nat) (f : Meter → Meter) : (s.upMeter k f).pe = s.pe := rfl
@[simp] theorem upMeter_fuse (s : State) (k : Nat) (f : Meter → Meter) : (s.upMeter k f).fuse = s.fuse := rfl
@[simp] theorem upMeter_collector (s : State) (k : Nat) (f : Meter → Meter) : (s.upMeter k f).collector = s.collector := rfl
@[simp] theorem upMeter_logQ (s : State) (k : Nat) (f : Meter → Meter) : (s.upMeter k f).logQ = s.logQ := rfl
@[simp] theorem upMeter_life (s : State) (k : Nat) (f : Meter → Meter) : (s.upMeter k f).life = s.life := rfl
@[simp] theorem upMeter_chainsBad (s : State) (k : Nat) (f : Meter → Meter) : (s.upMeter k f).chainsBad = s.chainsBad := rfl
@[simp] theorem upMeter_metersBad (s : State) (k : Nat) (f : Meter → Meter) : (s.upMeter k f).metersBad = s.metersBad := rfl
@[simp] theorem upMeter_power (s : State) (k : Nat) (f : Meter → Meter) : (s.upMeter k f).power = s.power := rfl
@[simp] theorem upMeter_rst (s : State) (k : Nat) (f : Meter → Meter) : (s.upMeter k f).rst = s.rst := rfl
@[simp] theorem upMeter_board (s : State) (k : Nat) (f : Meter → Meter) : (s.upMeter k f).board = s.board := rfl
@[simp] theorem upMeter_mcs (s : State) (k : Nat) (f : Meter → Meter) : (s.upMeter k f).mcs = s.mcs := rfl
@[simp] theorem upMeter_ctxArea (s : State) (k : Nat) (f : Meter → Meter) : (s.upMeter k f).ctxArea = s.ctxArea := rfl
@[simp] theorem upMeter_links (s : State) (k : Nat) (f : Meter → Meter) : (s.upMeter k f).links = s.links := rfl
@[simp] theorem upMeter_ringT (s : State) (k : Nat) (f : Meter → Meter) : (s.upMeter k f).ringT = s.ringT := rfl
@[simp] theorem upMeter_pair (s : State) (k : Nat) (f : Meter → Meter) : (s.upMeter k f).pair = s.pair := rfl
@[simp] theorem upMeter_apgs (s : State) (k : Nat) (f : Meter → Meter) : (s.upMeter k f).apgs = s.apgs := rfl
@[simp] theorem upMeter_ports (s : State) (k : Nat) (f : Meter → Meter) : (s.upMeter k f).ports = s.ports := rfl
@[simp] theorem upMeter_chains (s : State) (k : Nat) (f : Meter → Meter) : (s.upMeter k f).chains = s.chains := rfl
@[simp] theorem upMeter_acqs (s : State) (k : Nat) (f : Meter → Meter) : (s.upMeter k f).acqs = s.acqs := rfl
@[simp] theorem upMeter_sbufs (s : State) (k : Nat) (f : Meter → Meter) : (s.upMeter k f).sbufs = s.sbufs := rfl
@[simp] theorem upMeter_trigs (s : State) (k : Nat) (f : Meter → Meter) : (s.upMeter k f).trigs = s.trigs := rfl
@[simp] theorem upMeter_meters (s : State) (k : Nat) (f : Meter → Meter) : (s.upMeter k f).meters = s.meters.modify k f := rfl
@[simp] theorem upMeter_trigEv (s : State) (k : Nat) (f : Meter → Meter) : (s.upMeter k f).trigEv = s.trigEv := rfl
@[simp] theorem upMeter_trigOut (s : State) (k : Nat) (f : Meter → Meter) : (s.upMeter k f).trigOut = s.trigOut := rfl
@[simp] theorem upMeter_out (s : State) (k : Nat) (f : Meter → Meter) : (s.upMeter k f).out = s.out := rfl
@[simp] theorem upMeter_freeCtr (s : State) (k : Nat) (f : Meter → Meter) : (s.upMeter k f).freeCtr = s.freeCtr := rfl
@[simp] theorem upMeter_pending (s : State) (k : Nat) (f : Meter → Meter) : (s.upMeter k f).pending = s.pending := rfl

/-! ### upPe -/

@[simp] theorem upPe_dtime (s : State) (n : Nat) (f : PePort → PePort) : (s.upPe n f).dtime = s.dtime := rfl
@[simp] theorem upPe_dfrac (s : State) (n : Nat) (f : PePort → PePort) : (s.upPe n f).dfrac = s.dfrac := rfl
@[simp] theorem upPe_clk (s : State) (n : Nat) (f : PePort → PePort) : (s.upPe n f).clk = s.clk := rfl
@[simp] theorem upPe_regs (s : State) (n : Nat) (f : PePort → PePort) : (s.upPe n f).regs = s.regs := rfl
@[simp] theorem upPe_held (s : State) (n : Nat) (f : PePort → PePort) : (s.upPe n f).held = s.held := rfl
@[simp] theorem upPe_latch (s : State) (n : Nat) (f : PePort → PePort) : (s.upPe n f).latch = s.latch := rfl
@[simp] theorem upPe_host (s : State) (n : Nat) (f : PePort → PePort) : (s.upPe n f).host = s.host := rfl
@[simp] theorem upPe_mem (s : State) (n : Nat) (f : PePort → PePort) : (s.upPe n f).mem = s.mem := rfl
@[simp] theorem upPe_bad (s : State) (n : Nat) (f : PePort → PePort) : (s.upPe n f).bad = s.bad := rfl
@[simp] theorem upPe_objs (s : State) (n : Nat) (f : PePort → PePort) : (s.upPe n f).objs = s.objs := rfl
@[simp] theorem upPe_loads (s : State) (n : Nat) (f : PePort → PePort) : (s.upPe n f).loads = s.loads := rfl
@[simp] theorem upPe_sites (s : State) (n : Nat) (f : PePort → PePort) : (s.upPe n f).sites = s.sites := rfl
@[simp] theorem upPe_groups (s : State) (n : Nat) (f : PePort → PePort) : (s.upPe n f).groups = s.groups := rfl
@[simp] theorem upPe_slices (s : State) (n : Nat) (f : PePort → PePort) : (s.upPe n f).slices = s.slices := rfl
@[simp] theorem upPe_bursts (s : State) (n : Nat) (f : PePort → PePort) : (s.upPe n f).bursts = s.bursts := rfl
@[simp] theorem upPe_arrivals (s : State) (n : Nat) (f : PePort → PePort) : (s.upPe n f).arrivals = s.arrivals := rfl
@[simp] theorem upPe_gen (s : State) (n : Nat) (f : PePort → PePort) : (s.upPe n f).gen = s.gen := rfl
@[simp] theorem upPe_cache (s : State) (n : Nat) (f : PePort → PePort) : (s.upPe n f).cache = s.cache := rfl
@[simp] theorem upPe_results (s : State) (n : Nat) (f : PePort → PePort) : (s.upPe n f).results = s.results := rfl
@[simp] theorem upPe_regions (s : State) (n : Nat) (f : PePort → PePort) : (s.upPe n f).regions = s.regions := rfl
@[simp] theorem upPe_clusters (s : State) (n : Nat) (f : PePort → PePort) : (s.upPe n f).clusters = s.clusters := rfl
@[simp] theorem upPe_calibs (s : State) (n : Nat) (f : PePort → PePort) : (s.upPe n f).calibs = s.calibs := rfl
@[simp] theorem upPe_waiting (s : State) (n : Nat) (f : PePort → PePort) : (s.upPe n f).waiting = s.waiting := rfl
@[simp] theorem upPe_paddock (s : State) (n : Nat) (f : PePort → PePort) : (s.upPe n f).paddock = s.paddock := rfl
@[simp] theorem upPe_pe (s : State) (n : Nat) (f : PePort → PePort) : (s.upPe n f).pe = s.pe.modify n f := rfl
@[simp] theorem upPe_fuse (s : State) (n : Nat) (f : PePort → PePort) : (s.upPe n f).fuse = s.fuse := rfl
@[simp] theorem upPe_collector (s : State) (n : Nat) (f : PePort → PePort) : (s.upPe n f).collector = s.collector := rfl
@[simp] theorem upPe_logQ (s : State) (n : Nat) (f : PePort → PePort) : (s.upPe n f).logQ = s.logQ := rfl
@[simp] theorem upPe_life (s : State) (n : Nat) (f : PePort → PePort) : (s.upPe n f).life = s.life := rfl
@[simp] theorem upPe_chainsBad (s : State) (n : Nat) (f : PePort → PePort) : (s.upPe n f).chainsBad = s.chainsBad := rfl
@[simp] theorem upPe_metersBad (s : State) (n : Nat) (f : PePort → PePort) : (s.upPe n f).metersBad = s.metersBad := rfl
@[simp] theorem upPe_power (s : State) (n : Nat) (f : PePort → PePort) : (s.upPe n f).power = s.power := rfl
@[simp] theorem upPe_rst (s : State) (n : Nat) (f : PePort → PePort) : (s.upPe n f).rst = s.rst := rfl
@[simp] theorem upPe_board (s : State) (n : Nat) (f : PePort → PePort) : (s.upPe n f).board = s.board := rfl
@[simp] theorem upPe_mcs (s : State) (n : Nat) (f : PePort → PePort) : (s.upPe n f).mcs = s.mcs := rfl
@[simp] theorem upPe_ctxArea (s : State) (n : Nat) (f : PePort → PePort) : (s.upPe n f).ctxArea = s.ctxArea := rfl
@[simp] theorem upPe_links (s : State) (n : Nat) (f : PePort → PePort) : (s.upPe n f).links = s.links := rfl
@[simp] theorem upPe_ringT (s : State) (n : Nat) (f : PePort → PePort) : (s.upPe n f).ringT = s.ringT := rfl
@[simp] theorem upPe_pair (s : State) (n : Nat) (f : PePort → PePort) : (s.upPe n f).pair = s.pair := rfl
@[simp] theorem upPe_apgs (s : State) (n : Nat) (f : PePort → PePort) : (s.upPe n f).apgs = s.apgs := rfl
@[simp] theorem upPe_ports (s : State) (n : Nat) (f : PePort → PePort) : (s.upPe n f).ports = s.ports := rfl
@[simp] theorem upPe_chains (s : State) (n : Nat) (f : PePort → PePort) : (s.upPe n f).chains = s.chains := rfl
@[simp] theorem upPe_acqs (s : State) (n : Nat) (f : PePort → PePort) : (s.upPe n f).acqs = s.acqs := rfl
@[simp] theorem upPe_sbufs (s : State) (n : Nat) (f : PePort → PePort) : (s.upPe n f).sbufs = s.sbufs := rfl
@[simp] theorem upPe_trigs (s : State) (n : Nat) (f : PePort → PePort) : (s.upPe n f).trigs = s.trigs := rfl
@[simp] theorem upPe_meters (s : State) (n : Nat) (f : PePort → PePort) : (s.upPe n f).meters = s.meters := rfl
@[simp] theorem upPe_trigEv (s : State) (n : Nat) (f : PePort → PePort) : (s.upPe n f).trigEv = s.trigEv := rfl
@[simp] theorem upPe_trigOut (s : State) (n : Nat) (f : PePort → PePort) : (s.upPe n f).trigOut = s.trigOut := rfl
@[simp] theorem upPe_out (s : State) (n : Nat) (f : PePort → PePort) : (s.upPe n f).out = s.out := rfl
@[simp] theorem upPe_freeCtr (s : State) (n : Nat) (f : PePort → PePort) : (s.upPe n f).freeCtr = s.freeCtr := rfl
@[simp] theorem upPe_pending (s : State) (n : Nat) (f : PePort → PePort) : (s.upPe n f).pending = s.pending := rfl

/-! ### upPort -/

@[simp] theorem upPort_dtime (s : State) (n : Nat) (f : Port → Port) : (s.upPort n f).dtime = s.dtime := rfl
@[simp] theorem upPort_dfrac (s : State) (n : Nat) (f : Port → Port) : (s.upPort n f).dfrac = s.dfrac := rfl
@[simp] theorem upPort_clk (s : State) (n : Nat) (f : Port → Port) : (s.upPort n f).clk = s.clk := rfl
@[simp] theorem upPort_regs (s : State) (n : Nat) (f : Port → Port) : (s.upPort n f).regs = s.regs := rfl
@[simp] theorem upPort_held (s : State) (n : Nat) (f : Port → Port) : (s.upPort n f).held = s.held := rfl
@[simp] theorem upPort_latch (s : State) (n : Nat) (f : Port → Port) : (s.upPort n f).latch = s.latch := rfl
@[simp] theorem upPort_host (s : State) (n : Nat) (f : Port → Port) : (s.upPort n f).host = s.host := rfl
@[simp] theorem upPort_mem (s : State) (n : Nat) (f : Port → Port) : (s.upPort n f).mem = s.mem := rfl
@[simp] theorem upPort_bad (s : State) (n : Nat) (f : Port → Port) : (s.upPort n f).bad = s.bad := rfl
@[simp] theorem upPort_objs (s : State) (n : Nat) (f : Port → Port) : (s.upPort n f).objs = s.objs := rfl
@[simp] theorem upPort_loads (s : State) (n : Nat) (f : Port → Port) : (s.upPort n f).loads = s.loads := rfl
@[simp] theorem upPort_sites (s : State) (n : Nat) (f : Port → Port) : (s.upPort n f).sites = s.sites := rfl
@[simp] theorem upPort_groups (s : State) (n : Nat) (f : Port → Port) : (s.upPort n f).groups = s.groups := rfl
@[simp] theorem upPort_slices (s : State) (n : Nat) (f : Port → Port) : (s.upPort n f).slices = s.slices := rfl
@[simp] theorem upPort_bursts (s : State) (n : Nat) (f : Port → Port) : (s.upPort n f).bursts = s.bursts := rfl
@[simp] theorem upPort_arrivals (s : State) (n : Nat) (f : Port → Port) : (s.upPort n f).arrivals = s.arrivals := rfl
@[simp] theorem upPort_gen (s : State) (n : Nat) (f : Port → Port) : (s.upPort n f).gen = s.gen := rfl
@[simp] theorem upPort_cache (s : State) (n : Nat) (f : Port → Port) : (s.upPort n f).cache = s.cache := rfl
@[simp] theorem upPort_results (s : State) (n : Nat) (f : Port → Port) : (s.upPort n f).results = s.results := rfl
@[simp] theorem upPort_regions (s : State) (n : Nat) (f : Port → Port) : (s.upPort n f).regions = s.regions := rfl
@[simp] theorem upPort_clusters (s : State) (n : Nat) (f : Port → Port) : (s.upPort n f).clusters = s.clusters := rfl
@[simp] theorem upPort_calibs (s : State) (n : Nat) (f : Port → Port) : (s.upPort n f).calibs = s.calibs := rfl
@[simp] theorem upPort_waiting (s : State) (n : Nat) (f : Port → Port) : (s.upPort n f).waiting = s.waiting := rfl
@[simp] theorem upPort_paddock (s : State) (n : Nat) (f : Port → Port) : (s.upPort n f).paddock = s.paddock := rfl
@[simp] theorem upPort_pe (s : State) (n : Nat) (f : Port → Port) : (s.upPort n f).pe = s.pe := rfl
@[simp] theorem upPort_fuse (s : State) (n : Nat) (f : Port → Port) : (s.upPort n f).fuse = s.fuse := rfl
@[simp] theorem upPort_collector (s : State) (n : Nat) (f : Port → Port) : (s.upPort n f).collector = s.collector := rfl
@[simp] theorem upPort_logQ (s : State) (n : Nat) (f : Port → Port) : (s.upPort n f).logQ = s.logQ := rfl
@[simp] theorem upPort_life (s : State) (n : Nat) (f : Port → Port) : (s.upPort n f).life = s.life := rfl
@[simp] theorem upPort_chainsBad (s : State) (n : Nat) (f : Port → Port) : (s.upPort n f).chainsBad = s.chainsBad := rfl
@[simp] theorem upPort_metersBad (s : State) (n : Nat) (f : Port → Port) : (s.upPort n f).metersBad = s.metersBad := rfl
@[simp] theorem upPort_power (s : State) (n : Nat) (f : Port → Port) : (s.upPort n f).power = s.power := rfl
@[simp] theorem upPort_rst (s : State) (n : Nat) (f : Port → Port) : (s.upPort n f).rst = s.rst := rfl
@[simp] theorem upPort_board (s : State) (n : Nat) (f : Port → Port) : (s.upPort n f).board = s.board := rfl
@[simp] theorem upPort_mcs (s : State) (n : Nat) (f : Port → Port) : (s.upPort n f).mcs = s.mcs := rfl
@[simp] theorem upPort_ctxArea (s : State) (n : Nat) (f : Port → Port) : (s.upPort n f).ctxArea = s.ctxArea := rfl
@[simp] theorem upPort_links (s : State) (n : Nat) (f : Port → Port) : (s.upPort n f).links = s.links := rfl
@[simp] theorem upPort_ringT (s : State) (n : Nat) (f : Port → Port) : (s.upPort n f).ringT = s.ringT := rfl
@[simp] theorem upPort_pair (s : State) (n : Nat) (f : Port → Port) : (s.upPort n f).pair = s.pair := rfl
@[simp] theorem upPort_apgs (s : State) (n : Nat) (f : Port → Port) : (s.upPort n f).apgs = s.apgs := rfl
@[simp] theorem upPort_ports (s : State) (n : Nat) (f : Port → Port) : (s.upPort n f).ports = s.ports.modify n f := rfl
@[simp] theorem upPort_chains (s : State) (n : Nat) (f : Port → Port) : (s.upPort n f).chains = s.chains := rfl
@[simp] theorem upPort_acqs (s : State) (n : Nat) (f : Port → Port) : (s.upPort n f).acqs = s.acqs := rfl
@[simp] theorem upPort_sbufs (s : State) (n : Nat) (f : Port → Port) : (s.upPort n f).sbufs = s.sbufs := rfl
@[simp] theorem upPort_trigs (s : State) (n : Nat) (f : Port → Port) : (s.upPort n f).trigs = s.trigs := rfl
@[simp] theorem upPort_meters (s : State) (n : Nat) (f : Port → Port) : (s.upPort n f).meters = s.meters := rfl
@[simp] theorem upPort_trigEv (s : State) (n : Nat) (f : Port → Port) : (s.upPort n f).trigEv = s.trigEv := rfl
@[simp] theorem upPort_trigOut (s : State) (n : Nat) (f : Port → Port) : (s.upPort n f).trigOut = s.trigOut := rfl
@[simp] theorem upPort_out (s : State) (n : Nat) (f : Port → Port) : (s.upPort n f).out = s.out := rfl
@[simp] theorem upPort_freeCtr (s : State) (n : Nat) (f : Port → Port) : (s.upPort n f).freeCtr = s.freeCtr := rfl
@[simp] theorem upPort_pending (s : State) (n : Nat) (f : Port → Port) : (s.upPort n f).pending = s.pending := rfl

/-! ### upChain -/

@[simp] theorem upChain_dtime (s : State) (k : Nat) (f : FChain → FChain) : (s.upChain k f).dtime = s.dtime := rfl
@[simp] theorem upChain_dfrac (s : State) (k : Nat) (f : FChain → FChain) : (s.upChain k f).dfrac = s.dfrac := rfl
@[simp] theorem upChain_clk (s : State) (k : Nat) (f : FChain → FChain) : (s.upChain k f).clk = s.clk := rfl
@[simp] theorem upChain_regs (s : State) (k : Nat) (f : FChain → FChain) : (s.upChain k f).regs = s.regs := rfl
@[simp] theorem upChain_held (s : State) (k : Nat) (f : FChain → FChain) : (s.upChain k f).held = s.held := rfl
@[simp] theorem upChain_latch (s : State) (k : Nat) (f : FChain → FChain) : (s.upChain k f).latch = s.latch := rfl
@[simp] theorem upChain_host (s : State) (k : Nat) (f : FChain → FChain) : (s.upChain k f).host = s.host := rfl
@[simp] theorem upChain_mem (s : State) (k : Nat) (f : FChain → FChain) : (s.upChain k f).mem = s.mem := rfl
@[simp] theorem upChain_bad (s : State) (k : Nat) (f : FChain → FChain) : (s.upChain k f).bad = s.bad := rfl
@[simp] theorem upChain_objs (s : State) (k : Nat) (f : FChain → FChain) : (s.upChain k f).objs = s.objs := rfl
@[simp] theorem upChain_loads (s : State) (k : Nat) (f : FChain → FChain) : (s.upChain k f).loads = s.loads := rfl
@[simp] theorem upChain_sites (s : State) (k : Nat) (f : FChain → FChain) : (s.upChain k f).sites = s.sites := rfl
@[simp] theorem upChain_groups (s : State) (k : Nat) (f : FChain → FChain) : (s.upChain k f).groups = s.groups := rfl
@[simp] theorem upChain_slices (s : State) (k : Nat) (f : FChain → FChain) : (s.upChain k f).slices = s.slices := rfl
@[simp] theorem upChain_bursts (s : State) (k : Nat) (f : FChain → FChain) : (s.upChain k f).bursts = s.bursts := rfl
@[simp] theorem upChain_arrivals (s : State) (k : Nat) (f : FChain → FChain) : (s.upChain k f).arrivals = s.arrivals := rfl
@[simp] theorem upChain_gen (s : State) (k : Nat) (f : FChain → FChain) : (s.upChain k f).gen = s.gen := rfl
@[simp] theorem upChain_cache (s : State) (k : Nat) (f : FChain → FChain) : (s.upChain k f).cache = s.cache := rfl
@[simp] theorem upChain_results (s : State) (k : Nat) (f : FChain → FChain) : (s.upChain k f).results = s.results := rfl
@[simp] theorem upChain_regions (s : State) (k : Nat) (f : FChain → FChain) : (s.upChain k f).regions = s.regions := rfl
@[simp] theorem upChain_clusters (s : State) (k : Nat) (f : FChain → FChain) : (s.upChain k f).clusters = s.clusters := rfl
@[simp] theorem upChain_calibs (s : State) (k : Nat) (f : FChain → FChain) : (s.upChain k f).calibs = s.calibs := rfl
@[simp] theorem upChain_waiting (s : State) (k : Nat) (f : FChain → FChain) : (s.upChain k f).waiting = s.waiting := rfl
@[simp] theorem upChain_paddock (s : State) (k : Nat) (f : FChain → FChain) : (s.upChain k f).paddock = s.paddock := rfl
@[simp] theorem upChain_pe (s : State) (k : Nat) (f : FChain → FChain) : (s.upChain k f).pe = s.pe := rfl
@[simp] theorem upChain_fuse (s : State) (k : Nat) (f : FChain → FChain) : (s.upChain k f).fuse = s.fuse := rfl
@[simp] theorem upChain_collector (s : State) (k : Nat) (f : FChain → FChain) : (s.upChain k f).collector = s.collector := rfl
@[simp] theorem upChain_logQ (s : State) (k : Nat) (f : FChain → FChain) : (s.upChain k f).logQ = s.logQ := rfl
@[simp] theorem upChain_life (s : State) (k : Nat) (f : FChain → FChain) : (s.upChain k f).life = s.life := rfl
@[simp] theorem upChain_chainsBad (s : State) (k : Nat) (f : FChain → FChain) : (s.upChain k f).chainsBad = s.chainsBad := rfl
@[simp] theorem upChain_metersBad (s : State) (k : Nat) (f : FChain → FChain) : (s.upChain k f).metersBad = s.metersBad := rfl
@[simp] theorem upChain_power (s : State) (k : Nat) (f : FChain → FChain) : (s.upChain k f).power = s.power := rfl
@[simp] theorem upChain_rst (s : State) (k : Nat) (f : FChain → FChain) : (s.upChain k f).rst = s.rst := rfl
@[simp] theorem upChain_board (s : State) (k : Nat) (f : FChain → FChain) : (s.upChain k f).board = s.board := rfl
@[simp] theorem upChain_mcs (s : State) (k : Nat) (f : FChain → FChain) : (s.upChain k f).mcs = s.mcs := rfl
@[simp] theorem upChain_ctxArea (s : State) (k : Nat) (f : FChain → FChain) : (s.upChain k f).ctxArea = s.ctxArea := rfl
@[simp] theorem upChain_links (s : State) (k : Nat) (f : FChain → FChain) : (s.upChain k f).links = s.links := rfl
@[simp] theorem upChain_ringT (s : State) (k : Nat) (f : FChain → FChain) : (s.upChain k f).ringT = s.ringT := rfl
@[simp] theorem upChain_pair (s : State) (k : Nat) (f : FChain → FChain) : (s.upChain k f).pair = s.pair := rfl
@[simp] theorem upChain_apgs (s : State) (k : Nat) (f : FChain → FChain) : (s.upChain k f).apgs = s.apgs := rfl
@[simp] theorem upChain_ports (s : State) (k : Nat) (f : FChain → FChain) : (s.upChain k f).ports = s.ports := rfl
@[simp] theorem upChain_chains (s : State) (k : Nat) (f : FChain → FChain) : (s.upChain k f).chains = s.chains.modify k f := rfl
@[simp] theorem upChain_acqs (s : State) (k : Nat) (f : FChain → FChain) : (s.upChain k f).acqs = s.acqs := rfl
@[simp] theorem upChain_sbufs (s : State) (k : Nat) (f : FChain → FChain) : (s.upChain k f).sbufs = s.sbufs := rfl
@[simp] theorem upChain_trigs (s : State) (k : Nat) (f : FChain → FChain) : (s.upChain k f).trigs = s.trigs := rfl
@[simp] theorem upChain_meters (s : State) (k : Nat) (f : FChain → FChain) : (s.upChain k f).meters = s.meters := rfl
@[simp] theorem upChain_trigEv (s : State) (k : Nat) (f : FChain → FChain) : (s.upChain k f).trigEv = s.trigEv := rfl
@[simp] theorem upChain_trigOut (s : State) (k : Nat) (f : FChain → FChain) : (s.upChain k f).trigOut = s.trigOut := rfl
@[simp] theorem upChain_out (s : State) (k : Nat) (f : FChain → FChain) : (s.upChain k f).out = s.out := rfl
@[simp] theorem upChain_freeCtr (s : State) (k : Nat) (f : FChain → FChain) : (s.upChain k f).freeCtr = s.freeCtr := rfl
@[simp] theorem upChain_pending (s : State) (k : Nat) (f : FChain → FChain) : (s.upChain k f).pending = s.pending := rfl

end Sys2Proof.Machine
end

