-- ==== Sys2Proof/Laws/Regs.lean ====
section
/-! SUPPORT. Laws of bit fields and of the register file: a field written reads back, and other fields and registers keep their
values. -/

namespace Sys2Proof.Machine

/-! ### Bit fields of numbers -/

theorem bitsOf_eq (v lo w : Nat) : bitsOf v lo w = v / 2 ^ lo % 2 ^ w := by
  rw [bitsOf, Nat.shiftRight_eq_div_pow]

theorem setBits_eq (v lo w x : Nat) :
    setBits v lo w x = v % 2 ^ lo + 2 ^ lo * (x % 2 ^ w + 2 ^ w * (v / 2 ^ lo / 2 ^ w)) := by
  have h1 : 2 ^ lo * (v / 2 ^ lo) + v % 2 ^ lo = v := Nat.div_add_mod v (2 ^ lo)
  have h2 : 2 ^ w * (v / 2 ^ lo / 2 ^ w) + v / 2 ^ lo % 2 ^ w = v / 2 ^ lo := Nat.div_add_mod (v / 2 ^ lo) (2 ^ w)
  rw [setBits, bitsOf_eq]
  generalize v / 2 ^ lo / 2 ^ w = b at *
  generalize v / 2 ^ lo % 2 ^ w = m at *
  generalize v / 2 ^ lo = a at *
  generalize v % 2 ^ lo = r at *
  generalize x % 2 ^ w = y
  subst h1 h2
  rw [Nat.mul_add, Nat.mul_add, Nat.mul_comm m, Nat.mul_comm y]
  omega

theorem testBit_setBits (v lo w x i : Nat) :
    (setBits v lo w x).testBit i = if lo ≤ i ∧ i < lo + w then x.testBit (i - lo) else v.testBit i := by
  rw [setBits_eq, Nat.add_comm, Nat.testBit_two_pow_mul_add _ (Nat.mod_lt _ (Nat.two_pow_pos lo))]
  by_cases h : i < lo
  · rw [if_pos h, if_neg (by omega), Nat.testBit_mod_two_pow]
    simp [h]
  · rw [if_neg h, Nat.add_comm (x % 2 ^ w), Nat.testBit_two_pow_mul_add _ (Nat.mod_lt _ (Nat.two_pow_pos w))]
    by_cases h2 : i - lo < w
    · rw [if_pos h2, if_pos (by omega), Nat.testBit_mod_two_pow]
      simp [h2]
    · rw [if_neg h2, if_neg (by omega), Nat.testBit_div_two_pow, Nat.testBit_div_two_pow]
      congr 1
      omega

theorem testBit_bitsOf (v lo w i : Nat) : (bitsOf v lo w).testBit i = (decide (i < w) && v.testBit (lo + i)) := by
  rw [bitsOf_eq, Nat.testBit_mod_two_pow, Nat.testBit_div_two_pow, Nat.add_comm]

theorem bitsOf_setBits_same (v lo w x : Nat) : bitsOf (setBits v lo w x) lo w = x % 2 ^ w := by
  apply Nat.eq_of_testBit_eq
  intro i
  rw [testBit_bitsOf, testBit_setBits, Nat.testBit_mod_two_pow]
  by_cases h : i < w
  · rw [if_pos (by omega)]
    simp [h]
  · simp [h]

theorem bitsOf_setBits_disjoint {v lo w x lo' w' : Nat} (h : lo + w ≤ lo' ∨ lo' + w' ≤ lo) :
    bitsOf (setBits v lo w x) lo' w' = bitsOf v lo' w' := by
  apply Nat.eq_of_testBit_eq
  intro i
  rw [testBit_bitsOf, testBit_bitsOf, testBit_setBits]
  by_cases hi : i < w'
  · rw [if_neg (by omega)]
  · simp [hi]

theorem setBits_lt {v lo w x n : Nat} (hv : v < 2 ^ n) (h : lo + w ≤ n) : setBits v lo w x < 2 ^ n := by
  apply Nat.lt_pow_two_of_testBit
  intro i hi
  rw [testBit_setBits, if_neg (by omega)]
  exact Nat.testBit_lt_two_pow (Nat.lt_of_lt_of_le hv (Nat.pow_le_pow_right (by omega) hi))

/-! ### Fields of register values -/

theorem fset_toNat {v : W64} {lo w x : Nat} (h : lo + w ≤ 64) : (fset v lo w x).toNat = setBits v.toNat lo w x := by
  rw [fset, BitVec.toNat_ofNat]
  exact Nat.mod_eq_of_lt (setBits_lt v.isLt h)

/-- A field that is set reads back. -/
theorem fget_fset_same {v : W64} {lo w x : Nat} (h : lo + w ≤ 64) : fget (fset v lo w x) lo w = x % 2 ^ w := by
  rw [fget, fset_toNat h, bitsOf_setBits_same]

/-- Setting a field leaves a field beside it. -/
theorem fget_fset_disjoint {v : W64} {lo w x lo' w' : Nat} (h : lo + w ≤ 64) (d : lo + w ≤ lo' ∨ lo' + w' ≤ lo) :
    fget (fset v lo w x) lo' w' = fget v lo' w' := by
  rw [fget, fset_toNat h, bitsOf_setBits_disjoint d, fget]

/-! ### The register file -/

@[simp] theorem reg_setReg_same (s : State) (off : Nat) (v : W64) : (s.setReg off v).reg off = v := by
  simp [State.reg]

theorem reg_setReg_ne (s : State) {off o : Nat} (v : W64) (h : o ≠ off) : (s.setReg off v).reg o = s.reg o := by
  simp [State.reg, kGet_kSet_ne _ _ h]

/-- The stored registers depend on the register file alone. -/
theorem reg_congr {s t : State} (h : t.regs = s.regs) (off : Nat) : t.reg off = s.reg off := by simp [State.reg, h]

theorem rf_congr {s t : State} (h : t.regs = s.regs) (f : RF) (i : List Nat) : t.rf f i = s.rf f i := by
  simp [State.rf, reg_congr h]

theorem rb_congr {s t : State} (h : t.regs = s.regs) (f : RF) (i : List Nat) : t.rb f i = s.rb f i := by
  simp [State.rb, rf_congr h]

theorem rf_setRf_same (s : State) (f : RF) (i : List Nat) (v : Nat) (h : f.lo + f.w ≤ 64) :
    (s.setRf f i v).rf f i = v % 2 ^ f.w := by
  rw [State.rf, State.setRf, reg_setReg_same, fget_fset_same h]

theorem fget_lt (v : W64) (lo w : Nat) : fget v lo w < 2 ^ w := by
  rw [fget, bitsOf_eq]; exact Nat.mod_lt _ (Nat.two_pow_pos _)

/-- A field's value fits its width. -/
theorem rf_lt (s : State) (f : RF) (i : List Nat) : s.rf f i < 2 ^ f.w := fget_lt _ _ _

theorem rf_setReg_ne (s : State) {off : Nat} (v : W64) (f : RF) (i : List Nat) (h : f.off i ≠ off) :
    (s.setReg off v).rf f i = s.rf f i := by
  rw [State.rf, reg_setReg_ne _ _ h, State.rf]

theorem rf_setRf_ne (s : State) (f g : RF) (i j : List Nat) (v : Nat) (h : g.off j ≠ f.off i) :
    (s.setRf f i v).rf g j = s.rf g j := rf_setReg_ne s _ g j h

theorem rf_setRf_disjoint (s : State) (f g : RF) (i j : List Nat) (v : Nat) (ho : g.off j = f.off i) (h : f.lo + f.w ≤ 64)
    (d : f.lo + f.w ≤ g.lo ∨ g.lo + g.w ≤ f.lo) : (s.setRf f i v).rf g j = s.rf g j := by
  rw [State.rf, State.setRf, ho, reg_setReg_same, fget_fset_disjoint h d, State.rf, ho]

theorem reg_setRf_ne (s : State) (f : RF) (i : List Nat) (v : Nat) {o : Nat} (h : o ≠ f.off i) :
    (s.setRf f i v).reg o = s.reg o := reg_setReg_ne s _ h

theorem rb_setRf_same (s : State) (f : RF) (i : List Nat) (b : Bool) (h : f.lo + 1 ≤ 64) (hw : f.w = 1) :
    (s.setRf f i (b2n b)).rb f i = b := by
  rw [State.rb, rf_setRf_same _ _ _ _ (by omega), hw]
  cases b <;> rfl

/-- A write of a register that answers is carried out, and ends a held low half and L1 (R18, R483, R727). -/
theorem busWrite_of_answers {s : State} {off : Nat} {f : State → State} {r : Row} {is : List Nat} (h : findReg off = some (r, is))
    (ha : s.answers r is off true = true) : s.busWrite off f = f { s with held := none }.hostAccess := by
  rw [State.busWrite]
  simp only [h]
  exact if_pos ha

end Sys2Proof.Machine
end

