-- ==== Sys2Proof/Laws/Ops.lean ====
section
/-! SUPPORT. Laws of the shared operations: descriptors in flight, folds over the state, time. -/

namespace Sys2Proof.Machine

/-! ### What a fold keeps -/

/-- A fold whose every step keeps a view of the state keeps that view. State it for a view that is a plain def: the kernel compares
the arguments of a def first, where it would unfold a structure's projection. -/
theorem foldl_keep {α β γ : Type} (P : α → γ) (f : α → β → α) (h : ∀ a x, P (f a x) = P a) (l : List β) (s : α) :
    P (l.foldl f s) = P s := by
  induction l generalizing s with
  | nil => rfl
  | cons x r ih => rw [List.foldl_cons, ih, h]

/-- Both branches keep a view of the state, so their choice does. -/
theorem ite_keep {α γ : Type} (P : α → γ) {c : Prop} [Decidable c] {a b : α} {r : γ} (h1 : P a = r) (h2 : P b = r) :
    P (if c then a else b) = r := by
  split <;> assumption

/-- A fold whose every step keeps an invariant keeps it. -/
theorem foldl_inv {α β : Type} (P : α → Prop) (f : α → β → α) (h : ∀ a x, P a → P (f a x)) (l : List β) (s : α) (hs : P s) :
    P (l.foldl f s) := by
  induction l generalizing s with
  | nil => exact hs
  | cons x r ih => exact ih _ (h _ _ hs)

/-! ### Descriptors -/

/-- A descriptor that is in flight with its opcode, and may begin, is carried out. -/
theorem withDesc_of_ready {s : State} {sq idx op : Nat} {d : Desc} {f : Desc → State} (h : Safety.ready s sq idx op d) :
    s.withDesc sq idx op f = f d := by
  obtain ⟨h1, h2, h3⟩ := h
  simp [State.withDesc, h1, h2, h3]

/-- What a descriptor command keeps, if what it carries out keeps it. -/
theorem withDesc_keep {γ : Type} (P : State → γ) {s : State} {sq idx op : Nat} {f : Desc → State} (h : ∀ d, P (f d) = P s) :
    P (s.withDesc sq idx op f) = P s := by
  unfold State.withDesc
  split
  · split
    · exact h _
    · rfl
  · rfl

theorem ready_place {s : State} {sq idx op : Nat} {d : Desc} (h : Safety.ready s sq idx op d) : d.sq = sq ∧ d.idx = idx := by
  have := List.find?_some h.1
  simpa using this

/-- A descriptor taken out of flight is in flight no more. -/
@[simp] theorem dropDesc_desc (s : State) (sq idx : Nat) : (s.dropDesc sq idx).desc sq idx = none := by
  simp only [State.desc, State.dropDesc, List.find?_eq_none, List.mem_filter]
  rintro x ⟨-, h⟩ hx
  simp [hx] at h

/-! ### Register writes -/

/-- A write of a register that answers is carried out, and ends a held low half and L1 (R18, R483, R727). -/
theorem busWrite_of_writable {s : State} {off : Nat} {f : State → State} (h : Safety.writable s off = true) :
    s.busWrite off f = f { s with held := none }.hostAccess := by
  unfold Safety.writable at h
  split at h
  · rename_i r is hf
    exact busWrite_of_answers hf h
  · cases h

/-- A write of a register that is not there changes nothing but a held low half and L1 (R483, R725). -/
theorem busWrite_nowhere {s : State} {off : Nat} {f : State → State} (h : findReg off = none) :
    s.busWrite off f = { s with held := none }.hostAccess := by
  simp [State.busWrite, h]

/-! ### Time -/

/-- DTIME never decreases, and reaches the time given while a clock counts (R51, R59). -/
theorem at_dtime_le (s : State) (t : Nat) : s.dtime ≤ (s.at t).dtime ∧ (s.counts = true → t ≤ (s.at t).dtime) := by
  rw [at_dtime]
  exact ⟨by split <;> omega, fun h => by rw [if_pos h]; omega⟩

/-! ### Rings that begin to meet R503 -/

theorem foldl_upRing (f : State → Nat → Ring → Ring) (l : List Nat) (s : State) :
    ∃ r, l.foldl (fun s k => s.upRing k (f s k)) s = { s with host := { s.host with rings := r } } := by
  induction l generalizing s with
  | nil => exact ⟨s.host.rings, rfl⟩
  | cons k l ih =>
    obtain ⟨r, h⟩ := ih (s.upRing k (f s k))
    exact ⟨r, h⟩

/-- Noting which rings meet R503 changes the rings alone. -/
theorem noteMet_eq (s : State) : ∃ r, s.noteMet = { s with host := { s.host with rings := r } } :=
  foldl_upRing (fun s k r => { r with metSince := if s.meets k then some (r.metSince.getD s.dtime) else none }) _ s

@[simp] theorem noteMet_out (s : State) : s.noteMet.out = s.out := by obtain ⟨r, h⟩ := noteMet_eq s; rw [h]
@[simp] theorem noteMet_regs (s : State) : s.noteMet.regs = s.regs := by obtain ⟨r, h⟩ := noteMet_eq s; rw [h]
@[simp] theorem noteMet_mem (s : State) : s.noteMet.mem = s.mem := by obtain ⟨r, h⟩ := noteMet_eq s; rw [h]
@[simp] theorem noteMet_desc (s : State) (a b : Nat) : s.noteMet.desc a b = s.desc a b := by
  obtain ⟨r, h⟩ := noteMet_eq s; rw [h]; rfl

/-! ### What goes out -/

/-- An MSI-X message is sent with its entry's address and data, or held pending while MSI-X is disabled or the vector is masked (R506,
R511). -/
theorem msi_of_open {s : State} {v : Nat} (h : s.msiOpen v = true) :
    s.msi v = s.emit (.msix v (s.host.msix.getD v {}).addr (s.host.msix.getD v {}).data) := by
  simp [State.msi, h]

@[simp] theorem msi_regs (s : State) (v : Nat) : (s.msi v).regs = s.regs := by unfold State.msi; split <;> rfl
@[simp] theorem msi_mem (s : State) (v : Nat) : (s.msi v).mem = s.mem := by unfold State.msi; split <;> rfl
@[simp] theorem msi_rings (s : State) (v : Nat) : (s.msi v).host.rings = s.host.rings := by unfold State.msi; split <;> rfl
@[simp] theorem msi_inflight (s : State) (v : Nat) : (s.msi v).host.inflight = s.host.inflight := by
  unfold State.msi; split <;> rfl

/-- What has gone out stays at the front of the record. -/
theorem msi_out (s : State) (v : Nat) : ∃ l, (s.msi v).out = s.out ++ l := by
  unfold State.msi
  split
  · exact ⟨_, rfl⟩
  · exact ⟨[], by simp⟩

end Sys2Proof.Machine
end

