-- ==== Sys2Proof/Laws/Bytes.lean ====
section
/-! SUPPORT. Laws of little-endian fields of byte blocks (R13), and of what has gone out. -/

namespace Sys2Proof.Machine

@[simp] theorem leBytes_length (n v : Nat) : (leBytes n v).length = n := by
  induction n generalizing v with
  | zero => rfl
  | succ n ih => simp [leBytes, ih]

@[simp] theorem slice_length (l : List Byte) (o n : Nat) : (slice l o n).length = min n (l.length - o) := by simp [slice]

theorem leNat_leBytes (n v : Nat) : leNat (leBytes n v) = v % 256 ^ n := by
  induction n generalizing v with
  | zero => simp [leBytes, leNat, Nat.mod_one]
  | succ n ih =>
    simp only [leBytes, leNat, ih, BitVec.toNat_ofNat]
    conv_rhs => rw [Nat.pow_succ', Nat.mod_mul]

/-- A field that was laid out reads back. -/
theorem fld_leBytes (n v : Nat) : fld (leBytes n v) 0 n = v % 256 ^ n := by
  simp [fld, slice, ← leNat_leBytes]
  congr 1
  exact List.take_of_length_le (by simp)

theorem fld_append_left (a b : List Byte) (o n : Nat) (h : o + n ≤ a.length) : fld (a ++ b) o n = fld a o n := by
  simp [fld, slice, List.drop_append, List.take_append]
  have : n - (a.length - o) = 0 := by omega
  simp [this]

theorem fld_append_right (a b : List Byte) (o n : Nat) (h : a.length ≤ o) : fld (a ++ b) o n = fld b (o - a.length) n := by
  simp [fld, slice, List.drop_append, List.drop_eq_nil_of_le h]

/-- A field past a first part of known length. -/
theorem fld_skip {a b : List Byte} {o n k : Nat} (ha : a.length = k) (hk : k ≤ o) : fld (a ++ b) o n = fld b (o - k) n := by
  rw [fld_append_right _ _ _ _ (by omega), ha]

theorem fld_here (n v : Nat) (b : List Byte) : fld (leBytes n v ++ b) 0 n = v % 256 ^ n := by
  rw [fld_append_left _ _ _ _ (by simp), fld_leBytes]

theorem patch_length (l bs : List Byte) (off : Nat) (hl : off + bs.length ≤ l.length) : (patch l off bs).length = l.length := by
  unfold patch
  simp
  omega

/-- Bytes that are replaced leave the fields beside them. -/
theorem fld_patch (l bs : List Byte) (off o n : Nat) (h : o + n ≤ off ∨ off + bs.length ≤ o) (hl : off + bs.length ≤ l.length) :
    fld (patch l off bs) o n = fld l o n := by
  have hp : patch l off bs = l.take off ++ (bs ++ l.drop (off + bs.length)) := by
    unfold patch
    rw [List.append_assoc]
    apply List.take_of_length_le
    simp
    omega
  rw [hp]
  have e : l = l.take off ++ (l.drop off) := (List.take_append_drop _ _).symm
  have hlo : (l.take off).length = off := by simp; omega
  rcases h with h | h
  · rw [fld_append_left _ _ _ _ (by omega)]
    conv_rhs => rw [e]
    rw [fld_append_left _ _ _ _ (by omega)]
  · rw [fld_append_right _ _ _ _ (by omega), hlo, fld_append_right _ _ _ _ (by omega)]
    simp only [fld, slice, List.drop_drop]
    congr 3
    omega

/-! ### What has gone out -/

/-- What has gone out of s has gone out of t. -/
def Grows (s t : State) : Prop := ∃ l, t.out = s.out ++ l

theorem Grows.refl (s : State) : Grows s s := ⟨[], by simp⟩

theorem Grows.trans {a b c : State} (h : Grows a b) (g : Grows b c) : Grows a c := by
  obtain ⟨l, hl⟩ := h
  obtain ⟨m, hm⟩ := g
  exact ⟨l ++ m, by simp [hl, hm]⟩

theorem Grows.mem {s t : State} (h : Grows s t) {o : Out} (ho : o ∈ s.out) : o ∈ t.out := by
  obtain ⟨l, hl⟩ := h
  simp [hl, ho]

theorem Grows.of_eq {s t : State} (h : t.out = s.out) : Grows s t := ⟨[], by simp [h]⟩

/-- A change of anything else keeps what has gone out. -/
theorem Grows.upd {s a b : State} (h : Grows s a) (e : b.out = a.out) : Grows s b := h.trans (.of_eq e)

theorem Grows.ite {s a b : State} {c : Prop} [Decidable c] (h : Grows s a) (g : Grows s b) : Grows s (if c then a else b) := by
  split <;> assumption

theorem grows_foldl {β : Type} (f : State → β → State) (h : ∀ a x, Grows a (f a x)) (l : List β) (s : State) :
    Grows s (l.foldl f s) := by
  induction l generalizing s with
  | nil => exact Grows.refl s
  | cons x r ih => exact (h s x).trans (ih _)

theorem grows_emit (s : State) (o : Out) : Grows s (s.emit o) := ⟨[o], rfl⟩

theorem grows_msi (s : State) (v : Nat) : Grows s (s.msi v) := msi_out s v

theorem grows_hostErr (s : State) (b : Nat) (r : Option Nat) : Grows s (s.hostErr b r) := by
  unfold State.hostErr
  dsimp only
  cases r <;> dsimp only <;> split
  · exact (Grows.of_eq rfl).trans (grows_msi _ _)
  · exact Grows.of_eq rfl
  · exact (Grows.of_eq rfl).trans (grows_msi _ _)
  · exact Grows.of_eq rfl

theorem grows_queueEvent (s : State) (e : Event) : Grows s (s.queueEvent e) := by
  unfold State.queueEvent
  split
  · split <;> exact Grows.of_eq rfl
  · split
    · exact Grows.of_eq rfl
    · exact (Grows.of_eq rfl : Grows s (s.incRf F.HOST_EVT_DROPPED_COUNT [])).trans
        ((grows_hostErr _ 5 none).trans (Grows.of_eq rfl))

theorem grows_refillLoop (l : List Event) (s : State) : Grows s (refillLoop s l) := by
  induction l generalizing s with
  | nil => exact Grows.refl s
  | cons e r ih =>
    unfold refillLoop
    split <;> exact (Grows.of_eq rfl).trans (ih _)

theorem grows_refill (s : State) : Grows s s.refill := by
  have h : Grows s (refillLoop { s with host := { s.host with evWait := [] } } s.host.evWait) :=
    (Grows.of_eq (t := { s with host := { s.host with evWait := [] } }) rfl).trans (grows_refillLoop _ _)
  unfold State.refill
  dsimp only
  generalize refillLoop _ _ = u at h ⊢
  split
  · exact (h.upd (b := { u with host := { u.host with ovf := 0 } }) rfl).trans (grows_queueEvent _ _)
  · exact h

theorem grows_ringMsg (s : State) (k : Nat) : Grows s (s.ringMsg k) := (Grows.of_eq rfl).trans (grows_msi _ _)

theorem grows_closeRing (s : State) (k : Nat) : Grows s (s.closeRing k) := by
  unfold State.closeRing
  split
  · exact Grows.of_eq rfl
  · exact Grows.refl s

theorem grows_ringWrite (s : State) (k : Nat) (bs : List Byte) (p : Nat) (irq : Bool) : Grows s (s.ringWrite k bs p irq) := by
  unfold State.ringWrite
  dsimp only
  refine Grows.ite ?_ ?_
  · refine Grows.trans ?_ (grows_ringMsg _ _)
    exact Grows.upd (grows_emit s _) rfl
  · exact Grows.upd (grows_emit s _) rfl

theorem grows_ringError (s : State) (k c : Nat) : Grows s (s.ringError k c) :=
  Grows.trans (Grows.trans (Grows.of_eq (t := (s.setRf F.RINGK_STAT_ERR [k] 1).setRf F.RINGK_STAT_CAUSE [k] c) rfl)
    (grows_hostErr _ 0 (some k))) (grows_queueEvent _ _)

theorem grows_complete (s : State) (sq idx : Nat) (r : Result) : Grows s (s.complete sq idx r) := by
  unfold State.complete
  split
  · exact Grows.refl s
  · rename_i d _
    dsimp only
    have key : ∀ (x : State × Bool), Grows s x.1 → Grows s ((if !(x.1.dropDesc sq idx).ringOn d.cq || (x.1.dropDesc sq idx).ringErr d.cq
        then x.1.dropDesc sq idx
        else if !(x.1.dropDesc sq idx).host.pci.busMaster then (x.1.dropDesc sq idx).ringError d.cq 3
        else (x.1.dropDesc sq idx).ringWrite d.cq (complBytes d r x.2 ((x.1.dropDesc sq idx).ring sq).head) 9
          ((fld d.bytes 1 1).testBit 1)).closeRing d.cq).noteMet := by
      intro x hx
      refine Grows.trans ?_ (.of_eq (noteMet_out _))
      refine (hx.trans (Grows.of_eq (t := x.1.dropDesc sq idx) rfl)).trans (Grows.trans ?_ (grows_closeRing _ _))
      split
      · exact Grows.refl _
      · split
        · exact grows_ringError _ _ _
        · exact grows_ringWrite _ _ _ _ _
    split
    · exact key (s, false) (Grows.refl s)
    · refine key (s.hostWrite sq _ _) ?_
      unfold State.hostWrite
      split
      · exact grows_emit _ _
      · exact grows_hostErr _ _ _

end Sys2Proof.Machine
end

