-- ==== Sys2Proof/Laws/Fields.lean ====
section
/-! SUPPORT. Laws of register writes: in every row of the register table the fields lie apart, so a write gives each field the value its
access rule gives it (R19). -/

namespace Sys2Proof.Machine

/-- Two fields lie apart. -/
def Fld.apart (f g : Fld) : Bool := f.lo + f.w ≤ g.lo || g.lo + g.w ≤ f.lo

/-- Fields that lie apart from each other, within 64 bits. -/
def fieldsOk : List Fld → Bool
  | [] => true
  | f :: l => f.lo + f.w ≤ 64 && l.all (fun g => f.apart g) && fieldsOk l

/-- A row's fields lie apart. -/
def Row.ok (r : Row) : Bool := fieldsOk (r.flds.flatMap Fld.spread)

theorem bitsOf_fold_write {l : List Fld} {g : Nat → Nat → Fld → Nat} {old v acc lo w : Nat}
    (h : ∀ f ∈ l, f.lo + f.w ≤ lo ∨ lo + w ≤ f.lo) :
    bitsOf (l.foldl (fun a f => setBits a f.lo f.w (g old v f)) acc) lo w = bitsOf acc lo w := by
  induction l generalizing acc with
  | nil => rfl
  | cons f r ih =>
    rw [List.foldl_cons, ih (fun x hx => h x (List.mem_cons_of_mem _ hx)),
      bitsOf_setBits_disjoint (by have := h f List.mem_cons_self; omega)]

theorem bitsOf_fold_field {l : List Fld} {g : Nat → Nat → Fld → Nat} {old v acc : Nat} {f : Fld} (hok : fieldsOk l = true)
    (hf : f ∈ l) : bitsOf (l.foldl (fun a f => setBits a f.lo f.w (g old v f)) acc) f.lo f.w = g old v f % 2 ^ f.w := by
  induction l generalizing acc with
  | nil => cases hf
  | cons x r ih =>
    simp only [fieldsOk, Bool.and_eq_true, List.all_eq_true] at hok
    rw [List.foldl_cons]
    rcases List.mem_cons.mp hf with rfl | hm
    · rw [bitsOf_fold_write, bitsOf_setBits_same]
      intro y hy
      have := hok.1.2 y hy
      simp only [Fld.apart, Bool.or_eq_true, decide_eq_true_eq] at this
      omega
    · exact ih hok.2 hm

theorem fold_lt {l : List Fld} {g : Nat → Nat → Fld → Nat} {old v acc : Nat} (hok : fieldsOk l = true) (ha : acc < 2 ^ 64) :
    l.foldl (fun a f => setBits a f.lo f.w (g old v f)) acc < 2 ^ 64 := by
  induction l generalizing acc with
  | nil => exact ha
  | cons x r ih =>
    simp only [fieldsOk, Bool.and_eq_true, decide_eq_true_eq] at hok
    exact ih hok.2 (setBits_lt ha hok.1.1)

/-- The fields of a register after a write: each as its access rule says (R19). -/
theorem row_write_field {r : Row} {f : Fld} (hok : r.ok = true) (hf : f ∈ r.flds.flatMap Fld.spread) (old v : Nat) :
    bitsOf (r.write old v) f.lo f.w = f.write (bitsOf old f.lo f.w) (bitsOf v f.lo f.w) % 2 ^ f.w :=
  bitsOf_fold_field (g := fun o x f => f.write (bitsOf o f.lo f.w) (bitsOf x f.lo f.w)) hok hf

theorem row_write_lt {r : Row} (hok : r.ok = true) (old : W64) (v : Nat) : r.write old.toNat v < 2 ^ 64 :=
  fold_lt (g := fun o x f => f.write (bitsOf o f.lo f.w) (bitsOf x f.lo f.w)) hok old.isLt

/-- Bits cleared by a write of ones (R19). -/
theorem testBit_sub_and (a b k : Nat) : (a - (a &&& b)).testBit k = (a.testBit k && !b.testBit k) := by
  induction k generalizing a b with
  | zero =>
    have h : (a &&& b) % 2 = a % 2 * (b % 2) := by
      rw [← Nat.and_one_is_mod, Nat.and_assoc, Nat.and_one_is_mod]
      rcases Nat.mod_two_eq_zero_or_one a with ha | ha <;> rcases Nat.mod_two_eq_zero_or_one b with hb | hb
      · rw [hb]; simp
      · rw [hb, Nat.and_one_is_mod]; omega
      · rw [hb]; simp
      · rw [hb, Nat.and_one_is_mod]; omega
    have le : a &&& b ≤ a := Nat.and_le_left
    rw [Nat.testBit_zero, Nat.testBit_zero, Nat.testBit_zero]
    rcases Nat.mod_two_eq_zero_or_one a with ha | ha <;> rcases Nat.mod_two_eq_zero_or_one b with hb | hb <;> rw [ha, hb] at h
    · have : (a - (a &&& b)) % 2 = 0 := by omega
      simp [this, ha]
    · have : (a - (a &&& b)) % 2 = 0 := by omega
      simp [this, ha]
    · have : (a - (a &&& b)) % 2 = 1 := by omega
      simp [this, ha, hb]
    · have : (a - (a &&& b)) % 2 = 0 := by omega
      simp [this, hb]
  | succ k ih =>
    rw [Nat.testBit_succ, Nat.testBit_succ, Nat.testBit_succ, ← ih]
    congr 1
    have h : (a &&& b) / 2 = a / 2 &&& b / 2 := Nat.and_div_two
    have le : a &&& b ≤ a := Nat.and_le_left
    have lo : (a &&& b) % 2 ≤ a % 2 := by
      rw [← Nat.and_one_is_mod, Nat.and_right_comm, Nat.and_one_is_mod]
      exact Nat.and_le_left
    rw [← h]
    omega

/-- A field read back after a write of its register. -/
theorem writeFields_field {s : State} {off : Nat} {r : Row} {is : List Nat} {f : Fld} {v : W64} (h : findReg off = some (r, is))
    (hok : r.ok = true) (hf : f ∈ r.flds.flatMap Fld.spread) :
    fget ((s.writeFields off v).reg off) f.lo f.w =
      f.write (fget (s.reg off) f.lo f.w) (fget v f.lo f.w) % 2 ^ f.w := by
  simp only [State.writeFields, h, reg_setReg_same, fget]
  rw [BitVec.toNat_ofNat, Nat.mod_eq_of_lt (row_write_lt hok _ _), row_write_field hok hf]

/-- A write leaves every other register. -/
theorem writeFields_reg_ne (s : State) {off o : Nat} (v : W64) (h : o ≠ off) : (s.writeFields off v).reg o = s.reg o := by
  unfold State.writeFields
  split
  · exact reg_setReg_ne s _ h
  · rfl

/-- In every row the fields lie apart. -/
theorem rows_ok : regRows.all Row.ok = true := by decide +kernel

/-- A register that is found is a row of the table, so its fields lie apart. -/
theorem findReg_ok {off : Nat} {r : Row} {is : List Nat} (h : findReg off = some (r, is)) : r.ok = true := by
  obtain ⟨a, ha, hb⟩ := List.exists_of_findSome?_eq_some h
  have : a = r := by
    cases hh : a.hit off with
    | none => simp [hh] at hb
    | some x => simpa [hh] using congrArg Prod.fst (by simpa [hh] using hb : (a, x) = (r, is))
  exact this ▸ List.all_eq_true.mp rows_ok a ha

/-- An RW field without a limit on its values takes the value written (R19). -/
theorem rf_writeFields_rw {s : State} {f : RF} {i : List Nat} {v : W64} {r : Row} {is : List Nat} {c : Cls} {z : Nat}
    (h : findReg (f.off i) = some (r, is)) (hf : ⟨f.lo, f.w, .rw, c, z, 1, 0, none⟩ ∈ r.flds.flatMap Fld.spread) :
    (s.writeFields (f.off i) v).rf f i = fget v f.lo f.w := by
  rw [State.rf, writeFields_field h (findReg_ok h) hf]
  simp only [Fld.write, fget, bitsOf]
  exact Nat.mod_mod _ _

/-- A field of a row whose classes were cleared: at its reset value where its class is named, else as before (R22). -/
theorem bitsOf_fold_clear {l : List Fld} {p : Cls → Bool} {z acc : Nat} {f : Fld} (hok : fieldsOk l = true) (hf : f ∈ l) :
    bitsOf (l.foldl (fun a f => if p f.cls then setBits a f.lo f.w (bitsOf z f.lo f.w) else a) acc) f.lo f.w =
      if p f.cls then bitsOf z f.lo f.w else bitsOf acc f.lo f.w := by
  have skip : ∀ (l : List Fld) (acc : Nat), (∀ g ∈ l, g.lo + g.w ≤ f.lo ∨ f.lo + f.w ≤ g.lo) →
      bitsOf (l.foldl (fun a f => if p f.cls then setBits a f.lo f.w (bitsOf z f.lo f.w) else a) acc) f.lo f.w = bitsOf acc f.lo f.w := by
    intro l
    induction l with
    | nil => intro _ _; rfl
    | cons g r ih =>
      intro acc h
      rw [List.foldl_cons, ih _ (fun x hx => h x (List.mem_cons_of_mem _ hx))]
      split
      · exact bitsOf_setBits_disjoint (by have := h g List.mem_cons_self; omega)
      · rfl
  induction l generalizing acc with
  | nil => cases hf
  | cons x r ih =>
    simp only [fieldsOk, Bool.and_eq_true, decide_eq_true_eq, List.all_eq_true] at hok
    have apart : ∀ y ∈ r, x.lo + x.w ≤ y.lo ∨ y.lo + y.w ≤ x.lo := by
      intro y hy
      have := hok.1.2 y hy
      simpa only [Fld.apart, Bool.or_eq_true, decide_eq_true_eq] using this
    rw [List.foldl_cons]
    rcases List.mem_cons.mp hf with rfl | hm
    · rw [skip r _ (fun y hy => by have := apart y hy; omega)]
      split
      · rw [bitsOf_setBits_same, bitsOf_eq, Nat.mod_mod]
      · rfl
    · rw [ih hok.2 hm]
      split
      · rfl
      · split
        · exact bitsOf_setBits_disjoint (apart f hm)
        · rfl

theorem clear_lt {l : List Fld} {p : Cls → Bool} {z acc : Nat} (hok : fieldsOk l = true) (ha : acc < 2 ^ 64) :
    l.foldl (fun a f => if p f.cls then setBits a f.lo f.w (bitsOf z f.lo f.w) else a) acc < 2 ^ 64 := by
  induction l generalizing acc with
  | nil => exact ha
  | cons x r ih =>
    simp only [fieldsOk, Bool.and_eq_true, decide_eq_true_eq] at hok
    rw [List.foldl_cons]
    refine ih hok.2 ?_
    split
    · exact setBits_lt ha hok.1.1
    · exact ha

theorem fieldsOk_bound {l : List Fld} {f : Fld} (hok : fieldsOk l = true) (hf : f ∈ l) : f.lo + f.w ≤ 64 := by
  induction l with
  | nil => cases hf
  | cons x r ih =>
    simp only [fieldsOk, Bool.and_eq_true, decide_eq_true_eq] at hok
    rcases List.mem_cons.mp hf with rfl | hm
    · exact hok.1.1
    · exact ih hok.2 hm

theorem bitsOf_mod_word (v lo w : Nat) (h : lo + w ≤ 64) : bitsOf (v % 2 ^ 64) lo w = bitsOf v lo w := by
  apply Nat.eq_of_testBit_eq
  intro i
  rw [testBit_bitsOf, testBit_bitsOf, Nat.testBit_mod_two_pow]
  by_cases hi : i < w
  · simp [hi, show lo + i < 64 by omega]
  · simp [hi]

/-- The stored value under a key of a list whose values were mapped with their keys. -/
theorem kGet_map {α : Type} (l : List (Nat × α)) (g : Nat → α → α) (k : Nat) :
    kGet (l.map (fun p => (p.1, g p.1 p.2))) k = (kGet l k).map (g k) := by
  induction l with
  | nil => rfl
  | cons p r ih =>
    rw [List.map_cons, kGet_cons, kGet_cons, ih]
    by_cases h : p.1 = k
    · simp [h]
    · simp [h]

/-- Clearing retention classes field by field, in any register: a named class reads its reset value (R22). -/
theorem clearRegs_field {s : State} {p : Cls → Bool} {q : Row → List Nat → Bool} {off : Nat} {r : Row} {is : List Nat} {f : Fld}
    (h : findReg off = some (r, is)) (hf : f ∈ r.flds.flatMap Fld.spread) :
    fget ((s.clearRegs p q).reg off) f.lo f.w =
      if q r is && p f.cls then fget (regReset off) f.lo f.w else fget (s.reg off) f.lo f.w := by
  have hok : fieldsOk (r.flds.flatMap Fld.spread) = true := findReg_ok h
  have hb := fieldsOk_bound hok hf
  have hz : fget (regReset off) f.lo f.w = bitsOf (resetWord r is) f.lo f.w := by
    simp only [regReset, h, fget, BitVec.toNat_ofNat]
    exact bitsOf_mod_word _ _ _ hb
  let g (o : Nat) (v : W64) : W64 := match findReg o with
    | some (r, is) => if q r is then BitVec.ofNat 64 (r.clear is p v.toNat) else v
    | none => v
  have e : (s.clearRegs p q).regs = s.regs.map (fun k => (k.1, g k.1 k.2)) := by
    refine List.map_congr_left ?_
    intro k _
    dsimp only [g]
    rcases findReg k.1 with _ | ⟨r', is'⟩
    · rfl
    · dsimp only
      split <;> rfl
  unfold State.reg
  rw [e, kGet_map]
  cases hk : kGet s.regs off with
  | none => simp
  | some v =>
    simp only [Option.map_some, Option.getD_some, g, h]
    by_cases hq : q r is = true
    · have lt : r.clear is p v.toNat < 2 ^ 64 := clear_lt hok v.isLt
      rw [if_pos hq, fget, BitVec.toNat_ofNat, Nat.mod_eq_of_lt lt, Row.clear, bitsOf_fold_clear hok hf, hz, hq]
      simp [fget]
    · rw [if_neg hq]; simp [hq]

end Sys2Proof.Machine
end

