-- ==== Sys2Proof/Laws/Rings.lean ====
section
/-! SUPPORT. Laws of ring entries and completions: what writing an entry, sending a message and completing a descriptor keep, and where
the entry goes (R493, R494, R502, R507). -/

namespace Sys2Proof.Machine

@[simp] theorem ringMsg_desc (s : State) (k a b : Nat) : (s.ringMsg k).desc a b = s.desc a b := by
  simp [State.ringMsg, State.desc]
@[simp] theorem ringMsg_mem (s : State) (k : Nat) : (s.ringMsg k).mem = s.mem := by simp [State.ringMsg]
@[simp] theorem ringMsg_regs (s : State) (k : Nat) : (s.ringMsg k).regs = s.regs := by simp [State.ringMsg]
@[simp] theorem emit_desc (s : State) (o : Out) (a b : Nat) : (s.emit o).desc a b = s.desc a b := rfl
@[simp] theorem upRing_desc (s : State) (k : Nat) (f : Ring → Ring) (a b : Nat) : (s.upRing k f).desc a b = s.desc a b := rfl
@[simp] theorem setReg_desc (s : State) (o : Nat) (v : W64) (a b : Nat) : (s.setReg o v).desc a b = s.desc a b := rfl
@[simp] theorem setRf_desc (s : State) (f : RF) (i : List Nat) (v a b : Nat) : (s.setRf f i v).desc a b = s.desc a b := rfl
@[simp] theorem incRf_desc (s : State) (f : RF) (i : List Nat) (v a b : Nat) : (s.incRf f i v).desc a b = s.desc a b := rfl

@[simp] theorem ringWrite_desc (s : State) (k : Nat) (bs : List Byte) (p : Nat) (q : Bool) (a b : Nat) :
    (s.ringWrite k bs p q).desc a b = s.desc a b := by
  unfold State.ringWrite
  dsimp only
  refine ite_keep (fun t : State => t.desc a b) ?_ ?_
  · simp only [ringMsg_desc, incRf_desc, upRing_desc, emit_desc]
  · simp only [incRf_desc, upRing_desc, emit_desc]

@[simp] theorem ringWrite_mem (s : State) (k : Nat) (bs : List Byte) (p : Nat) (q : Bool) : (s.ringWrite k bs p q).mem = s.mem := by
  unfold State.ringWrite
  dsimp only
  refine ite_keep State.mem ?_ ?_
  · simp only [ringMsg_mem, incRf_mem, upRing_mem, emit_mem]
  · simp only [incRf_mem, upRing_mem, emit_mem]

@[simp] theorem closeRing_desc (s : State) (k a b : Nat) : (s.closeRing k).desc a b = s.desc a b := by
  unfold State.closeRing
  split <;> simp

@[simp] theorem closeRing_mem (s : State) (k : Nat) : (s.closeRing k).mem = s.mem := by
  unfold State.closeRing
  split <;> simp

/-- An entry goes to TAIL of its ring with the ring's phase (R502). -/
theorem ringWrite_entry (s : State) (k : Nat) (bs : List Byte) (p : Nat) (q : Bool) :
    Out.hostWrite (s.rf F.RING_BASE_ADDR [k] * 4096 + 32 * (s.ring k).tail)
      (patch bs p [BitVec.ofNat 8 ((bs.getD p 0).toNat ||| (s.ring k).phase)]) ∈ (s.ringWrite k bs p q).out := by
  unfold State.ringWrite
  dsimp only
  generalize hb : patch bs p [BitVec.ofNat 8 ((bs.getD p 0).toNat ||| (s.ring k).phase)] = b
  generalize ha : s.rf F.RING_BASE_ADDR [k] * 4096 + 32 * (s.ring k).tail = a
  have h : ∀ u : State, Grows (s.emit (.hostWrite a b)) u → Out.hostWrite a b ∈ u.out := fun u hu => hu.mem (by simp)
  apply h
  refine Grows.ite ?_ ?_
  · refine Grows.trans ?_ (grows_ringMsg _ _)
    exact Grows.of_eq rfl
  · exact Grows.of_eq rfl

theorem complBytes_length {d : Desc} (r : Result) (w : Bool) (h : Nat) (hl : d.bytes.length = 64) : (complBytes d r w h).length = 32 := by
  simp [complBytes, hl]

/-- The fields of a completion entry lie where the layout of R494 puts them. -/
theorem complBytes_flds {d : Desc} (r : Result) (w : Bool) (h : Nat) (hl : d.bytes.length = 64) :
    fld (complBytes d r w h) 0 4 = fld d.bytes 4 4 ∧ fld (complBytes d r w h) 4 1 = d.op ∧ fld (complBytes d r w h) 5 1 = r.status % 256 ∧ fld (complBytes d r w h) 6 1 = r.qual % 256 ∧
    fld (complBytes d r w h) 7 1 = r.reason % 256 ∧ fld (complBytes d r w h) 8 1 = d.sq % 256 ∧ fld (complBytes d r w h) 12 2 = d.idx % 2 ^ 16 ∧ fld (complBytes d r w h) 14 1 = r.aux % 256 ∧ fld (complBytes d r w h) 15 1 = 0 ∧
    fld (complBytes d r w h) 16 8 = r.val0 % 2 ^ 64 ∧ fld (complBytes d r w h) 24 8 = r.val1 % 2 ^ 64 := by
  have hs : (slice d.bytes 4 4).length = 4 := by simp [hl]
  have hop : d.op < 256 := by
    unfold Desc.op fld slice
    have : ∃ x, (d.bytes.drop 0).take 1 = [x] := by
      rcases h : d.bytes with _ | ⟨x, l⟩
      · simp [h] at hl
      · exact ⟨x, by simp⟩
    obtain ⟨x, hx⟩ := this
    rw [hx]
    simp [leNat]
    exact x.isLt
  have h0 : fld (slice d.bytes 4 4) 0 4 = fld d.bytes 4 4 := by
    simp [fld, slice, List.take_take]
  unfold complBytes
  simp only [List.append_assoc]
  refine ⟨?_, ?_, ?_, ?_, ?_, ?_, ?_, ?_, ?_, ?_, ?_⟩
  · rw [fld_append_left _ _ _ _ (by simp [hl]), h0]
  all_goals rw [fld_skip hs (by decide)]
  all_goals repeat rw [fld_skip (leBytes_length _ _) (by decide)]
  all_goals try rw [fld_here]
  · rw [Nat.pow_one]; omega
  · rw [Nat.pow_one]
  · rw [Nat.pow_one]
  · rw [Nat.pow_one]
  · rw [Nat.pow_one]
  · norm_num
  · rw [Nat.pow_one]
  · rw [Nat.pow_one]
  · norm_num
  · rw [fld_leBytes]; norm_num

/-- A completion whose ring takes entries: the descriptor leaves flight, and the entry is written at TAIL (R493, R494). -/
theorem complete_writes {s : State} {sq idx : Nat} {d : Desc} (r : Result) (hd : s.desc sq idx = some d) (hon : s.ringOn d.cq = true)
    (herr : s.ringErr d.cq = false) (hbm : s.host.pci.busMaster = true) :
    ∃ (w : Bool) (u : State), s.complete sq idx r = (((u.dropDesc sq idx).ringWrite d.cq (complBytes d r w
      ((u.dropDesc sq idx).ring sq).head) 9 ((fld d.bytes 1 1).testBit 1)).closeRing d.cq).noteMet ∧ u.regs = s.regs ∧ u.host = s.host ∧
      u.mem = s.mem := by
  unfold State.complete
  rw [hd]
  dsimp only
  split
  · refine ⟨false, s, ?_, rfl, rfl, rfl⟩
    rw [if_neg, if_neg]
    · have h3 : (s.dropDesc sq idx).host.pci.busMaster = true := hbm
      simp [h3]
    · have h1 : (s.dropDesc sq idx).ringOn d.cq = true := hon
      have h2 : (s.dropDesc sq idx).ringErr d.cq = false := herr
      simp [h1, h2]
  · refine ⟨true, s.emit (.hostWrite (fld d.bytes 8 8) (r.bytes d.op 0xFFFF 1 s.dtime)), ?_, rfl, rfl, rfl⟩
    simp only [State.hostWrite, hbm, if_true]
    rw [if_neg, if_neg]
    · have h3 : ((s.emit (.hostWrite (fld d.bytes 8 8) (r.bytes d.op 0xFFFF 1 s.dtime))).dropDesc sq idx).host.pci.busMaster = true := hbm
      simp [h3]
    · have h1 : ((s.emit (.hostWrite (fld d.bytes 8 8) (r.bytes d.op 0xFFFF 1 s.dtime))).dropDesc sq idx).ringOn d.cq = true := hon
      have h2 : ((s.emit (.hostWrite (fld d.bytes 8 8) (r.bytes d.op 0xFFFF 1 s.dtime))).dropDesc sq idx).ringErr d.cq = false := herr
      simp [h1, h2]

end Sys2Proof.Machine
end

