-- ==== Sys2Proof/Laws/Sends.lean ====
section
/-! SUPPORT. Laws of sending: what the host interface does (completions, events, messages, HOST_ERR) touches the host interface, the
register file and the record of what went out, and nothing else of the state. -/

namespace Sys2Proof.Machine

/-- A state that differs from another in the host interface, the register file and what went out alone. -/
def Sends (s t : State) : Prop := ∃ h g o, t = { s with host := h, regs := g, out := o }

theorem Sends.refl (s : State) : Sends s s := ⟨_, _, _, rfl⟩

theorem Sends.trans {a b c : State} (h : Sends a b) (g : Sends b c) : Sends a c := by
  obtain ⟨_, _, _, rfl⟩ := h
  obtain ⟨_, _, _, rfl⟩ := g
  exact ⟨_, _, _, rfl⟩

theorem Sends.ite {s a b : State} {c : Prop} [Decidable c] (h : Sends s a) (g : Sends s b) : Sends s (if c then a else b) := by
  split <;> assumption

theorem sends_foldl {β : Type} {f : State → β → State} (h : ∀ a x, Sends a (f a x)) (l : List β) (s : State) :
    Sends s (l.foldl f s) := by
  induction l generalizing s with
  | nil => exact .refl _
  | cons x r ih => exact (h s x).trans (ih _)

/-! ### What sending leaves -/

theorem Sends.dtime {s t : State} (h : Sends s t) : t.dtime = s.dtime := by obtain ⟨_, _, _, rfl⟩ := h; rfl
theorem Sends.dfrac {s t : State} (h : Sends s t) : t.dfrac = s.dfrac := by obtain ⟨_, _, _, rfl⟩ := h; rfl
theorem Sends.clk {s t : State} (h : Sends s t) : t.clk = s.clk := by obtain ⟨_, _, _, rfl⟩ := h; rfl
theorem Sends.held {s t : State} (h : Sends s t) : t.held = s.held := by obtain ⟨_, _, _, rfl⟩ := h; rfl
theorem Sends.latch {s t : State} (h : Sends s t) : t.latch = s.latch := by obtain ⟨_, _, _, rfl⟩ := h; rfl
theorem Sends.mem {s t : State} (h : Sends s t) : t.mem = s.mem := by obtain ⟨_, _, _, rfl⟩ := h; rfl
theorem Sends.bad {s t : State} (h : Sends s t) : t.bad = s.bad := by obtain ⟨_, _, _, rfl⟩ := h; rfl
theorem Sends.objs {s t : State} (h : Sends s t) : t.objs = s.objs := by obtain ⟨_, _, _, rfl⟩ := h; rfl
theorem Sends.loads {s t : State} (h : Sends s t) : t.loads = s.loads := by obtain ⟨_, _, _, rfl⟩ := h; rfl
theorem Sends.sites {s t : State} (h : Sends s t) : t.sites = s.sites := by obtain ⟨_, _, _, rfl⟩ := h; rfl
theorem Sends.groups {s t : State} (h : Sends s t) : t.groups = s.groups := by obtain ⟨_, _, _, rfl⟩ := h; rfl
theorem Sends.slices {s t : State} (h : Sends s t) : t.slices = s.slices := by obtain ⟨_, _, _, rfl⟩ := h; rfl
theorem Sends.bursts {s t : State} (h : Sends s t) : t.bursts = s.bursts := by obtain ⟨_, _, _, rfl⟩ := h; rfl
theorem Sends.arrivals {s t : State} (h : Sends s t) : t.arrivals = s.arrivals := by obtain ⟨_, _, _, rfl⟩ := h; rfl
theorem Sends.gen {s t : State} (h : Sends s t) : t.gen = s.gen := by obtain ⟨_, _, _, rfl⟩ := h; rfl
theorem Sends.cache {s t : State} (h : Sends s t) : t.cache = s.cache := by obtain ⟨_, _, _, rfl⟩ := h; rfl
theorem Sends.results {s t : State} (h : Sends s t) : t.results = s.results := by obtain ⟨_, _, _, rfl⟩ := h; rfl
theorem Sends.regions {s t : State} (h : Sends s t) : t.regions = s.regions := by obtain ⟨_, _, _, rfl⟩ := h; rfl
theorem Sends.clusters {s t : State} (h : Sends s t) : t.clusters = s.clusters := by obtain ⟨_, _, _, rfl⟩ := h; rfl
theorem Sends.calibs {s t : State} (h : Sends s t) : t.calibs = s.calibs := by obtain ⟨_, _, _, rfl⟩ := h; rfl
theorem Sends.waiting {s t : State} (h : Sends s t) : t.waiting = s.waiting := by obtain ⟨_, _, _, rfl⟩ := h; rfl
theorem Sends.paddock {s t : State} (h : Sends s t) : t.paddock = s.paddock := by obtain ⟨_, _, _, rfl⟩ := h; rfl
theorem Sends.pe {s t : State} (h : Sends s t) : t.pe = s.pe := by obtain ⟨_, _, _, rfl⟩ := h; rfl
theorem Sends.fuse {s t : State} (h : Sends s t) : t.fuse = s.fuse := by obtain ⟨_, _, _, rfl⟩ := h; rfl
theorem Sends.collector {s t : State} (h : Sends s t) : t.collector = s.collector := by obtain ⟨_, _, _, rfl⟩ := h; rfl
theorem Sends.logQ {s t : State} (h : Sends s t) : t.logQ = s.logQ := by obtain ⟨_, _, _, rfl⟩ := h; rfl
theorem Sends.life {s t : State} (h : Sends s t) : t.life = s.life := by obtain ⟨_, _, _, rfl⟩ := h; rfl
theorem Sends.chainsBad {s t : State} (h : Sends s t) : t.chainsBad = s.chainsBad := by obtain ⟨_, _, _, rfl⟩ := h; rfl
theorem Sends.metersBad {s t : State} (h : Sends s t) : t.metersBad = s.metersBad := by obtain ⟨_, _, _, rfl⟩ := h; rfl
theorem Sends.power {s t : State} (h : Sends s t) : t.power = s.power := by obtain ⟨_, _, _, rfl⟩ := h; rfl
theorem Sends.rst {s t : State} (h : Sends s t) : t.rst = s.rst := by obtain ⟨_, _, _, rfl⟩ := h; rfl
theorem Sends.board {s t : State} (h : Sends s t) : t.board = s.board := by obtain ⟨_, _, _, rfl⟩ := h; rfl
theorem Sends.mcs {s t : State} (h : Sends s t) : t.mcs = s.mcs := by obtain ⟨_, _, _, rfl⟩ := h; rfl
theorem Sends.ctxArea {s t : State} (h : Sends s t) : t.ctxArea = s.ctxArea := by obtain ⟨_, _, _, rfl⟩ := h; rfl
theorem Sends.links {s t : State} (h : Sends s t) : t.links = s.links := by obtain ⟨_, _, _, rfl⟩ := h; rfl
theorem Sends.ringT {s t : State} (h : Sends s t) : t.ringT = s.ringT := by obtain ⟨_, _, _, rfl⟩ := h; rfl
theorem Sends.pair {s t : State} (h : Sends s t) : t.pair = s.pair := by obtain ⟨_, _, _, rfl⟩ := h; rfl
theorem Sends.apgs {s t : State} (h : Sends s t) : t.apgs = s.apgs := by obtain ⟨_, _, _, rfl⟩ := h; rfl
theorem Sends.ports {s t : State} (h : Sends s t) : t.ports = s.ports := by obtain ⟨_, _, _, rfl⟩ := h; rfl
theorem Sends.chains {s t : State} (h : Sends s t) : t.chains = s.chains := by obtain ⟨_, _, _, rfl⟩ := h; rfl
theorem Sends.acqs {s t : State} (h : Sends s t) : t.acqs = s.acqs := by obtain ⟨_, _, _, rfl⟩ := h; rfl
theorem Sends.sbufs {s t : State} (h : Sends s t) : t.sbufs = s.sbufs := by obtain ⟨_, _, _, rfl⟩ := h; rfl
theorem Sends.trigs {s t : State} (h : Sends s t) : t.trigs = s.trigs := by obtain ⟨_, _, _, rfl⟩ := h; rfl
theorem Sends.meters {s t : State} (h : Sends s t) : t.meters = s.meters := by obtain ⟨_, _, _, rfl⟩ := h; rfl
theorem Sends.trigEv {s t : State} (h : Sends s t) : t.trigEv = s.trigEv := by obtain ⟨_, _, _, rfl⟩ := h; rfl
theorem Sends.trigOut {s t : State} (h : Sends s t) : t.trigOut = s.trigOut := by obtain ⟨_, _, _, rfl⟩ := h; rfl
theorem Sends.freeCtr {s t : State} (h : Sends s t) : t.freeCtr = s.freeCtr := by obtain ⟨_, _, _, rfl⟩ := h; rfl
theorem Sends.pending {s t : State} (h : Sends s t) : t.pending = s.pending := by obtain ⟨_, _, _, rfl⟩ := h; rfl
theorem Sends.cl {s t : State} (h : Sends s t) (n : Nat) : t.cl n = s.cl n := by obtain ⟨_, _, _, rfl⟩ := h; rfl
theorem Sends.sl {s t : State} (h : Sends s t) (n : Nat) : t.sl n = s.sl n := by obtain ⟨_, _, _, rfl⟩ := h; rfl

/-! ### What sends -/

theorem sends_emit (s : State) (o : Out) : Sends s (s.emit o) := ⟨_, _, _, rfl⟩
theorem sends_setReg (s : State) (o : Nat) (v : W64) : Sends s (s.setReg o v) := ⟨_, _, _, rfl⟩
theorem sends_setRf (s : State) (f : RF) (i : List Nat) (v : Nat) : Sends s (s.setRf f i v) := ⟨_, _, _, rfl⟩
theorem sends_incRf (s : State) (f : RF) (i : List Nat) (v : Nat) : Sends s (s.incRf f i v) := ⟨_, _, _, rfl⟩
theorem sends_orRf (s : State) (f : RF) (i : List Nat) (v : Nat) : Sends s (s.orRf f i v) := ⟨_, _, _, rfl⟩
theorem sends_host (s : State) (h : HostIf) : Sends s { s with host := h } := ⟨_, _, _, rfl⟩
theorem sends_upRing (s : State) (k : Nat) (f : Ring → Ring) : Sends s (s.upRing k f) := ⟨_, _, _, rfl⟩
theorem sends_dropDesc (s : State) (a b : Nat) : Sends s (s.dropDesc a b) := ⟨_, _, _, rfl⟩
theorem sends_upDesc (s : State) (a b : Nat) (f : Desc → Desc) : Sends s (s.upDesc a b f) := ⟨_, _, _, rfl⟩
theorem sends_begin (s : State) (a b : Nat) : Sends s (s.begin a b) := ⟨_, _, _, rfl⟩

theorem sends_msi (s : State) (v : Nat) : Sends s (s.msi v) := by
  unfold State.msi; exact Sends.ite (sends_emit _ _) (sends_host _ _)

theorem sends_hostErr (s : State) (b : Nat) (r : Option Nat) : Sends s (s.hostErr b r) := by
  unfold State.hostErr
  cases r
  · exact Sends.ite ((sends_setReg _ _ _).trans (sends_msi _ _)) (sends_setReg _ _ _)
  · exact Sends.ite (((sends_setReg _ _ _).trans (sends_setRf _ _ _ _)).trans (sends_msi _ _))
      ((sends_setReg _ _ _).trans (sends_setRf _ _ _ _))

theorem sends_hostWrite (s : State) (k a : Nat) (b : List Byte) : Sends s (s.hostWrite k a b).1 := by
  unfold State.hostWrite
  split
  · exact sends_emit s _
  · show Sends s (s.hostErr 3 (some k))
    exact sends_hostErr s 3 (some k)

theorem sends_queueEvent (s : State) (e : Event) : Sends s (s.queueEvent e) := by
  unfold State.queueEvent
  refine Sends.ite (Sends.ite (sends_host _ _) (sends_host _ _)) (Sends.ite (sends_host _ _) ?_)
  exact ((sends_incRf _ _ _ _).trans (sends_hostErr _ _ _)).trans (sends_host _ _)

theorem sends_health (s : State) (a b c d e : Nat) : Sends s (s.health a b c d e) := sends_queueEvent _ _

theorem sends_refillLoop (l : List Event) (s : State) : Sends s (refillLoop s l) := by
  induction l generalizing s with
  | nil => exact .refl _
  | cons e r ih =>
    unfold refillLoop
    exact Sends.ite ((sends_host _ _).trans (ih _)) ((sends_host _ _).trans (ih _))

theorem sends_refill (s : State) : Sends s s.refill := by
  unfold State.refill
  dsimp only
  refine Sends.ite ?_ ((sends_host s _).trans (sends_refillLoop _ _))
  exact (((sends_host s _).trans (sends_refillLoop _ _)).trans (sends_host _ _)).trans (sends_queueEvent _ _)

theorem sends_ringError (s : State) (k c : Nat) : Sends s (s.ringError k c) := by
  unfold State.ringError
  exact (((sends_setRf _ _ _ _).trans (sends_setRf _ _ _ _)).trans (sends_hostErr _ _ _)).trans (sends_queueEvent _ _)

theorem sends_ringMsg (s : State) (k : Nat) : Sends s (s.ringMsg k) := (sends_upRing _ _ _).trans (sends_msi _ _)

theorem sends_ringWrite (s : State) (k : Nat) (b : List Byte) (p : Nat) (q : Bool) : Sends s (s.ringWrite k b p q) := by
  unfold State.ringWrite
  dsimp only
  exact Sends.ite ((((sends_emit s _).trans (sends_upRing _ _ _)).trans (sends_incRf _ _ _ _)).trans (sends_ringMsg _ _))
    (((sends_emit s _).trans (sends_upRing _ _ _)).trans (sends_incRf _ _ _ _))

theorem sends_closeRing (s : State) (k : Nat) : Sends s (s.closeRing k) := by
  unfold State.closeRing
  exact Sends.ite ((sends_setRf _ _ _ _).trans (sends_upRing _ _ _)) (.refl _)

theorem sends_noteMet (s : State) : Sends s s.noteMet := by
  obtain ⟨r, h⟩ := noteMet_eq s
  rw [h]; exact sends_host _ _

/-- A completion sends, and touches nothing else of the state. -/
theorem sends_complete (s : State) (a b : Nat) (r : Result) : Sends s (s.complete a b r) := by
  unfold State.complete
  split
  · exact .refl _
  · rename_i d _
    dsimp only
    have key : ∀ x : State × Bool, Sends s x.1 → Sends s ((if !(x.1.dropDesc a b).ringOn d.cq || (x.1.dropDesc a b).ringErr d.cq
        then x.1.dropDesc a b
        else if !(x.1.dropDesc a b).host.pci.busMaster then (x.1.dropDesc a b).ringError d.cq 3
        else (x.1.dropDesc a b).ringWrite d.cq (complBytes d r x.2 ((x.1.dropDesc a b).ring a).head) 9
          ((fld d.bytes 1 1).testBit 1)).closeRing d.cq).noteMet := by
      intro x hx
      refine (Sends.trans ?_ (sends_closeRing _ _)).trans (sends_noteMet _)
      have h1 := hx.trans (sends_dropDesc x.1 a b)
      exact Sends.ite h1 (Sends.ite (h1.trans (sends_ringError _ _ _)) (h1.trans (sends_ringWrite _ _ _ _ _)))
    split
    · exact key (s, false) (.refl _)
    · exact key (s.hostWrite a _ _) (sends_hostWrite _ _ _ _)

theorem sends_finish (s : State) (a b st : Nat) : Sends s (s.finish a b st) := sends_complete _ _ _ _

/-- Queueing an event leaves the descriptors in flight. -/
theorem queueEvent_inflight (s : State) (e : Event) : (s.queueEvent e).host.inflight = s.host.inflight := by
  unfold State.queueEvent
  refine ite_keep (fun t : State => t.host.inflight) ?_ ?_ <;> refine ite_keep (fun t : State => t.host.inflight) ?_ ?_
  · rfl
  · rfl
  · rfl
  · show ((s.incRf F.HOST_EVT_DROPPED_COUNT []).hostErr 5).host.inflight = _
    unfold State.hostErr
    dsimp only
    refine ite_keep (fun t : State => t.host.inflight) ?_ ?_ <;> simp

theorem queueEvent_desc (s : State) (e : Event) (a b : Nat) : (s.queueEvent e).desc a b = s.desc a b := by
  rw [State.desc, queueEvent_inflight, State.desc]

/-- A descriptor that has completed is in flight no more. -/
theorem complete_desc (s : State) (a b : Nat) (r : Result) : (s.complete a b r).desc a b = none := by
  unfold State.complete
  split
  · rename_i h; exact h
  · rename_i d _
    dsimp only
    have he : ∀ (u : State) (b' : Nat) (k : Nat), (u.hostErr b' (some k)).host.inflight = u.host.inflight := by
      intro u b' k
      unfold State.hostErr
      dsimp only
      refine ite_keep (fun t : State => t.host.inflight) ?_ ?_ <;> simp
    have rd : ∀ (u : State) (k c : Nat), (u.ringError k c).desc a b = u.desc a b := by
      intro u k c
      have : (u.ringError k c).host.inflight = u.host.inflight := by
        unfold State.ringError; rw [queueEvent_inflight, he]; rfl
      simp [State.desc, this]
    have key : ∀ x : State × Bool, ((if !(x.1.dropDesc a b).ringOn d.cq || (x.1.dropDesc a b).ringErr d.cq
        then x.1.dropDesc a b
        else if !(x.1.dropDesc a b).host.pci.busMaster then (x.1.dropDesc a b).ringError d.cq 3
        else (x.1.dropDesc a b).ringWrite d.cq (complBytes d r x.2 ((x.1.dropDesc a b).ring a).head) 9
          ((fld d.bytes 1 1).testBit 1)).closeRing d.cq).noteMet.desc a b = none := by
      intro x
      rw [noteMet_desc, closeRing_desc]
      refine ite_keep (fun t : State => t.desc a b) ?_ (ite_keep (fun t : State => t.desc a b) ?_ ?_)
      · exact dropDesc_desc _ _ _
      · rw [rd]; exact dropDesc_desc _ _ _
      · rw [ringWrite_desc]; exact dropDesc_desc _ _ _
    split
    · exact key (s, false)
    · exact key (s.hostWrite a _ _)

theorem finish_desc (s : State) (a b st : Nat) : (s.finish a b st).desc a b = none := complete_desc _ _ _ _

/-- A descriptor whose operation has begun is in flight still. -/
theorem begin_desc {s : State} {sq idx : Nat} {d : Desc} (h : s.desc sq idx = some d) :
    (s.begin sq idx).desc sq idx = some { d with started := true } := by
  have hp := List.find?_some h
  simp only [State.begin, State.desc, State.upDesc, List.find?_map]
  unfold State.desc at h
  have e : ((fun d => d.sq == sq && d.idx == idx) ∘ fun d : Desc =>
      if (decide (d.sq = sq) && decide (d.idx = idx)) = true then { d with started := true } else d)
      = fun d => d.sq == sq && d.idx == idx := by
    funext x
    simp only [Function.comp]
    split <;> simp_all
  rw [e, h]
  simp at hp
  simp [hp]

end Sys2Proof.Machine
end

