-- ==== Sys2Proof/Laws/Views.lean ====
section
/-! SUPPORT. Laws of the units held in lists: a unit that is changed reads as changed, every other reads as before. -/

namespace Sys2Proof.Machine

theorem getD_modify_same {α : Type} (l : List α) (n : Nat) (f : α → α) (d : α) (h : n < l.length) :
    (l.modify n f).getD n d = f (l.getD n d) := by
  simp [List.getD_eq_getElem?_getD, List.getElem?_eq_getElem h]

theorem getD_modify_ne {α : Type} (l : List α) {n m : Nat} (f : α → α) (d : α) (h : m ≠ n) : (l.modify n f).getD m d = l.getD m d := by
  simp [List.getD_eq_getElem?_getD, h.symm]

theorem upSl_sl_same (s : State) (n : Nat) (f : Slice → Slice) (h : n < s.slices.length) : (s.upSl n f).sl n = f (s.sl n) :=
  getD_modify_same _ _ _ _ h
theorem upSl_sl_ne (s : State) {n m : Nat} (f : Slice → Slice) (h : m ≠ n) : (s.upSl n f).sl m = s.sl m :=
  getD_modify_ne _ _ _ h

theorem upCl_cl_same (s : State) (n : Nat) (f : Cluster → Cluster) (h : n < s.clusters.length) : (s.upCl n f).cl n = f (s.cl n) :=
  getD_modify_same _ _ _ _ h
theorem upCl_cl_ne (s : State) {n m : Nat} (f : Cluster → Cluster) (h : m ≠ n) : (s.upCl n f).cl m = s.cl m :=
  getD_modify_ne _ _ _ h

theorem upRing_ring_same (s : State) (n : Nat) (f : Ring → Ring) (h : n < s.host.rings.length) : (s.upRing n f).ring n = f (s.ring n) :=
  getD_modify_same _ _ _ _ h
theorem upRing_ring_ne (s : State) {n m : Nat} (f : Ring → Ring) (h : m ≠ n) : (s.upRing n f).ring m = s.ring m :=
  getD_modify_ne _ _ _ h

theorem upMc_mc_same (s : State) (n : Nat) (f : Mc → Mc) (h : n < s.mcs.length) : (s.upMc n f).mc n = f (s.mc n) :=
  getD_modify_same _ _ _ _ h
theorem upMc_mc_ne (s : State) {n m : Nat} (f : Mc → Mc) (h : m ≠ n) : (s.upMc n f).mc m = s.mc m :=
  getD_modify_ne _ _ _ h

theorem upLk_lk_same (s : State) (n : Nat) (f : Link → Link) (h : n < s.links.length) : (s.upLk n f).lk n = f (s.lk n) :=
  getD_modify_same _ _ _ _ h
theorem upLk_lk_ne (s : State) {n m : Nat} (f : Link → Link) (h : m ≠ n) : (s.upLk n f).lk m = s.lk m :=
  getD_modify_ne _ _ _ h

theorem upPort_port_same (s : State) (n : Nat) (f : Port → Port) (h : n < s.ports.length) : (s.upPort n f).port n = f (s.port n) :=
  getD_modify_same _ _ _ _ h
theorem upPort_port_ne (s : State) {n m : Nat} (f : Port → Port) (h : m ≠ n) : (s.upPort n f).port m = s.port m :=
  getD_modify_ne _ _ _ h

theorem upChain_chain_same (s : State) (n : Nat) (f : FChain → FChain) (h : n < s.chains.length) : (s.upChain n f).chain n = f (s.chain n) :=
  getD_modify_same _ _ _ _ h
theorem upChain_chain_ne (s : State) {n m : Nat} (f : FChain → FChain) (h : m ≠ n) : (s.upChain n f).chain m = s.chain m :=
  getD_modify_ne _ _ _ h

theorem upMeter_meter_same (s : State) (n : Nat) (f : Meter → Meter) (h : n < s.meters.length) : (s.upMeter n f).meter n = f (s.meter n) :=
  getD_modify_same _ _ _ _ h
theorem upMeter_meter_ne (s : State) {n m : Nat} (f : Meter → Meter) (h : m ≠ n) : (s.upMeter n f).meter m = s.meter m :=
  getD_modify_ne _ _ _ h

theorem upTrig_trig_same (s : State) (n : Nat) (f : Trig → Trig) (h : n < s.trigs.length) : (s.upTrig n f).trig n = f (s.trig n) :=
  getD_modify_same _ _ _ _ h
theorem upTrig_trig_ne (s : State) {n m : Nat} (f : Trig → Trig) (h : m ≠ n) : (s.upTrig n f).trig m = s.trig m :=
  getD_modify_ne _ _ _ h

theorem upPe_pePort_same (s : State) (n : Nat) (f : PePort → PePort) (h : n < s.pe.length) : (s.upPe n f).pePort n = f (s.pePort n) :=
  getD_modify_same _ _ _ _ h
theorem upPe_pePort_ne (s : State) {n m : Nat} (f : PePort → PePort) (h : m ≠ n) : (s.upPe n f).pePort m = s.pePort m :=
  getD_modify_ne _ _ _ h

theorem upFslot_fslot_same (s : State) (n : Nat) (f : FSlot → FSlot) (h : n < s.paddock.slots.length) : (s.upFslot n f).fslot n = f (s.fslot n) :=
  getD_modify_same _ _ _ _ h
theorem upFslot_fslot_ne (s : State) {n m : Nat} (f : FSlot → FSlot) (h : m ≠ n) : (s.upFslot n f).fslot m = s.fslot m :=
  getD_modify_ne _ _ _ h

theorem upLock_lock_same (s : State) (n : Nat) (f : Lock → Lock) (h : n < s.paddock.locks.length) : (s.upLock n f).lock n = f (s.lock n) :=
  getD_modify_same _ _ _ _ h
theorem upLock_lock_ne (s : State) {n m : Nat} (f : Lock → Lock) (h : m ≠ n) : (s.upLock n f).lock m = s.lock m :=
  getD_modify_ne _ _ _ h

/-! ### Masks -/

/-- A number less the bit r it shares with 2^r has bit r clear and every other bit as before. -/
theorem testBit_clear (a r q : Nat) : (a - (a &&& 2 ^ r)).testBit q = (a.testBit q && !decide (q = r)) := by
  rw [Nat.and_two_pow]
  cases hb : a.testBit r with
  | false =>
    simp only [Bool.toNat_false, Nat.zero_mul, Nat.sub_zero]
    by_cases h : q = r
    · subst h; simp [hb]
    · simp [h]
  | true =>
    simp only [Bool.toNat_true, Nat.one_mul]
    have h1 : 2 ^ r * (a / 2 ^ r) + a % 2 ^ r = a := Nat.div_add_mod a (2 ^ r)
    have hq : a / 2 ^ r % 2 = 1 := by
      rw [Nat.testBit_eq_decide_div_mod_eq] at hb; simpa using hb
    have hlt := Nat.mod_lt a (Nat.two_pow_pos r)
    generalize a % 2 ^ r = m at *
    generalize a / 2 ^ r = p at *
    subst h1
    have e : 2 ^ r * p + m - 2 ^ r = 2 ^ r * (p - 1) + m := by
      obtain ⟨k, rfl⟩ : ∃ k, p = k + 1 := ⟨p - 1, by omega⟩
      rw [Nat.mul_add]; simp; omega
    rw [e, Nat.testBit_two_pow_mul_add _ hlt, Nat.testBit_two_pow_mul_add _ hlt]
    by_cases h : q < r
    · simp [h, Nat.ne_of_lt h]
    · rw [if_neg h, if_neg h]
      by_cases hqr : q = r
      · subst hqr; simp; omega
      · obtain ⟨j, hj⟩ : ∃ j, q - r = j + 1 := ⟨q - r - 1, by omega⟩
        rw [hj, Nat.testBit_succ, Nat.testBit_succ]
        have : (p - 1) / 2 = p / 2 := by omega
        simp [this, hqr]

/-! ### Register fields that an operation does not touch -/

/-- Fields of other registers keep their values over a bus write's end of a held half. -/
@[simp] theorem held_rf (s : State) (h : Option (Nat × W64)) (f : RF) (i : List Nat) : ({ s with held := h } : State).rf f i = s.rf f i := rfl
@[simp] theorem held_rb (s : State) (h : Option (Nat × W64)) (f : RF) (i : List Nat) : ({ s with held := h } : State).rb f i = s.rb f i := rfl

/-! ### Reports of faults -/

/-- A condition that begins touches the collector alone. -/
theorem onset_eq (s : State) (a b c d : Nat) : ∃ k, s.onset a b c d = { s with collector := k } := by
  unfold State.onset
  split
  · exact ⟨_, rfl⟩
  · rename_i h
    rw [State.condOn, if_neg h, State.report]
    exact ⟨_, rfl⟩

@[simp] theorem onset_mem (s : State) (a b c d : Nat) : (s.onset a b c d).mem = s.mem := by
  obtain ⟨k, h⟩ := onset_eq s a b c d; rw [h]
@[simp] theorem onset_cl (s : State) (a b c d m : Nat) : (s.onset a b c d).cl m = s.cl m := by
  obtain ⟨k, h⟩ := onset_eq s a b c d; rw [h]; rfl
@[simp] theorem onset_regs (s : State) (a b c d : Nat) : (s.onset a b c d).regs = s.regs := by
  obtain ⟨k, h⟩ := onset_eq s a b c d; rw [h]

@[simp] theorem report_rf (s : State) (a b c d : Nat) (f : RF) (i : List Nat) : (s.report a b c d).rf f i = s.rf f i := rfl
@[simp] theorem report_rb (s : State) (a b c d : Nat) (f : RF) (i : List Nat) : (s.report a b c d).rb f i = s.rb f i := rfl

/-! ### Events and records -/

theorem hostErr_reg_ne (s : State) (b : Nat) {o : Nat} (h : o ≠ F.HOST_ERR_RING.off []) : (s.hostErr b).reg o = s.reg o := by
  unfold State.hostErr
  dsimp only
  refine ite_keep (fun t : State => t.reg o) ?_ ?_
  · rw [reg_congr (msi_regs _ _), reg_setReg_ne _ _ h]
  · rw [reg_setReg_ne _ _ h]

/-- An event may set HOST_ERR and HOST_EVT_DROPPED; every other register keeps its value. -/
theorem queueEvent_reg_ne (s : State) (e : Event) {o : Nat} (h : o ≠ F.HOST_ERR_RING.off []) (g : o ≠ F.HOST_EVT_DROPPED_COUNT.off []) :
    (s.queueEvent e).reg o = s.reg o := by
  unfold State.queueEvent
  refine ite_keep (fun t : State => t.reg o) ?_ (ite_keep (fun t : State => t.reg o) rfl ?_)
  · exact ite_keep (fun t : State => t.reg o) rfl rfl
  · show ((s.incRf F.HOST_EVT_DROPPED_COUNT []).hostErr 5).reg o = s.reg o
    rw [hostErr_reg_ne _ _ h, State.incRf, reg_setRf_ne _ _ _ _ g]

theorem health_rf_ne (s : State) (a b c d e : Nat) (f : RF) (i : List Nat) (h : f.off i ≠ F.HOST_ERR_RING.off [])
    (g : f.off i ≠ F.HOST_EVT_DROPPED_COUNT.off []) : (s.health a b c d e).rf f i = s.rf f i := by
  rw [State.rf, State.health, queueEvent_reg_ne _ _ h g, State.rf]

/-- A lifetime record joins its queue, or is counted as dropped with a HEALTH event (R682). -/
theorem log_eq (s : State) (a : Nat) (b : List Byte) : ∃ h g o l, s.log a b = { s with host := h, regs := g, out := o, logQ := l } := by
  unfold State.log
  split
  · exact ⟨_, _, _, _, rfl⟩
  · have h1 := (sends_incRf s F.LIFE_STAT_DROPPED [] 1).trans (sends_health _ 9 0 ((s.incRf F.LIFE_STAT_DROPPED []).rf F.LIFE_STAT_DROPPED) 0 0)
    obtain ⟨h, g, o, e⟩ := h1
    exact ⟨h, g, o, _, e⟩

/-- A lifetime record may set HOST_ERR, HOST_EVT_DROPPED and LIFE_STAT; every other register keeps its value. -/
theorem log_reg_ne (s : State) (a : Nat) (b : List Byte) {o : Nat} (h : o ≠ F.HOST_ERR_RING.off [])
    (g : o ≠ F.HOST_EVT_DROPPED_COUNT.off []) (k : o ≠ F.LIFE_STAT_DROPPED.off []) : (s.log a b).reg o = s.reg o := by
  unfold State.log
  refine ite_keep (fun t : State => t.reg o) rfl ?_
  show (State.queueEvent _ _).reg o = _
  rw [queueEvent_reg_ne _ _ h g, State.incRf, reg_setRf_ne _ _ _ _ k]

/-- A retirement (R688): DEGRADED, an event and a record; nothing else. -/
theorem degrade_eq (s : State) (a b c : Nat) : ∃ h g o l, s.degrade a b c = { s with host := h, regs := g, out := o, logQ := l } := by
  unfold State.degrade
  dsimp only
  obtain ⟨h1, g1, o1, e1⟩ := sends_queueEvent (s.setRf F.CAPS_LIVE_DEGRADED [] 1)
    { typ := 6, b2 := b, b3 := c, aux := a, p0 := ((s.setRf F.CAPS_LIVE_DEGRADED [] 1).reg (F.CAPS_LIVE_CL_LIVE.off [])).toNat, p2 := s.dtime }
  obtain ⟨h2, g2, o2, l, e2⟩ := log_eq ((s.setRf F.CAPS_LIVE_DEGRADED [] 1).queueEvent
    { typ := 6, b2 := b, b3 := c, aux := a, p0 := ((s.setRf F.CAPS_LIVE_DEGRADED [] 1).reg (F.CAPS_LIVE_CL_LIVE.off [])).toNat, p2 := s.dtime }) 3
    (leBytes 1 a ++ leBytes 1 b ++ leBytes 1 c ++ leBytes 8 ((s.setRf F.CAPS_LIVE_DEGRADED [] 1).reg (F.CAPS_LIVE_CL_LIVE.off [])).toNat)
  exact ⟨h2, g2, o2, l, by rw [e2, e1]; rfl⟩

/-- CAPS_LIVE after a retirement: DEGRADED is set, its other fields stand. -/
theorem degrade_caps (s : State) (a b c : Nat) : (s.degrade a b c).reg (F.CAPS_LIVE_DEGRADED.off []) =
    (s.setRf F.CAPS_LIVE_DEGRADED [] 1).reg (F.CAPS_LIVE_DEGRADED.off []) := by
  unfold State.degrade
  dsimp only
  rw [log_reg_ne _ _ _ (by decide) (by decide) (by decide), queueEvent_reg_ne _ _ (by decide) (by decide)]

theorem degrade_rf_ne (s : State) (a b c : Nat) (f : RF) (i : List Nat) (h : f.off i ≠ F.HOST_ERR_RING.off [])
    (g : f.off i ≠ F.HOST_EVT_DROPPED_COUNT.off []) (k : f.off i ≠ F.LIFE_STAT_DROPPED.off []) (d : f.off i ≠ F.CAPS_LIVE_DEGRADED.off []) :
    (s.degrade a b c).rf f i = s.rf f i := by
  unfold State.degrade
  dsimp only
  rw [State.rf, log_reg_ne _ _ _ h g k, queueEvent_reg_ne _ _ h g, reg_setRf_ne _ _ _ _ d, State.rf]

theorem degrade_degraded (s : State) (a b c : Nat) : (s.degrade a b c).rb F.CAPS_LIVE_DEGRADED = true := by
  have := degrade_caps s a b c
  rw [State.rb, State.rf, this]
  show (State.rf (s.setRf F.CAPS_LIVE_DEGRADED [] 1) F.CAPS_LIVE_DEGRADED [] == 1) = true
  rw [rf_setRf_same _ _ _ _ (by decide)]
  rfl

/-- Another field of CAPS_LIVE stands over a retirement's last steps. -/
theorem degrade_rf_caps (s : State) (a b c : Nat) (f : RF) (h : f.off [] = F.CAPS_LIVE_DEGRADED.off [])
    (d : F.CAPS_LIVE_DEGRADED.lo + F.CAPS_LIVE_DEGRADED.w ≤ f.lo ∨ f.lo + f.w ≤ F.CAPS_LIVE_DEGRADED.lo) :
    (s.degrade a b c).rf f [] = s.rf f [] := by
  rw [State.rf, h, degrade_caps, ← h]
  exact rf_setRf_disjoint _ _ _ _ _ _ h (by decide) d

/-! ### Conditions -/

/-- A condition that begins is live. -/
theorem onset_live (s : State) (a b c d : Nat) : (a, b, c) ∈ (s.onset a b c d).collector.live := by
  unfold State.onset
  by_cases h : s.collector.live.contains (a, b, c) = true
  · rw [if_pos h]; simpa using h
  · rw [if_neg h]; simp only [State.report, State.condOn, if_neg h]; simp

/-- Another condition is live as before. -/
theorem onset_live_ne (s : State) (a b c d : Nat) {x : Nat × Nat × Nat} (h : x ≠ (a, b, c)) :
    x ∈ (s.onset a b c d).collector.live ↔ x ∈ s.collector.live := by
  unfold State.onset
  by_cases hc : s.collector.live.contains (a, b, c) = true
  · rw [if_pos hc]
  · rw [if_neg hc]; simp only [State.report, State.condOn, if_neg hc]; simp [h]

theorem condOff_live (s : State) (a b c : Nat) : (a, b, c) ∉ (s.condOff a b c).collector.live := by simp [State.condOff]

theorem condOff_live_ne (s : State) (a b c : Nat) {x : Nat × Nat × Nat} (h : x ≠ (a, b, c)) :
    x ∈ (s.condOff a b c).collector.live ↔ x ∈ s.collector.live := by simp [State.condOff, h]

/-- A wake does nothing while the chip is awake (R664). -/
theorem wakeChip_awake (s : State) (k : Nat) (h : s.power.lull ≠ 2) : s.wakeChip k = s := by
  unfold State.wakeChip; rw [if_pos h]

/-! ### A written register -/

/-- A register write touches the register file alone. -/
theorem writeFields_sends (s : State) (o : Nat) (v : W64) : Sends s (s.writeFields o v) := by
  unfold State.writeFields; split
  · exact sends_setReg _ _ _
  · exact .refl _

theorem writeFields_eq (s : State) (o : Nat) (v : W64) : ∃ g, s.writeFields o v = { s with regs := g } := by
  unfold State.writeFields; split <;> exact ⟨_, rfl⟩

theorem writeFields_host (s : State) (o : Nat) (v : W64) : (s.writeFields o v).host = s.host := by
  obtain ⟨g, h⟩ := writeFields_eq s o v; rw [h]

theorem writeFields_rf_ne (s : State) {o : Nat} (v : W64) (f : RF) (i : List Nat) (h : f.off i ≠ o) :
    (s.writeFields o v).rf f i = s.rf f i := by
  rw [State.rf, writeFields_reg_ne s v h, State.rf]

end Sys2Proof.Machine
end

