-- ==== Sys2Proof/Laws/Idle.lean ====
section
/-! SUPPORT. What an operation over a set of things at work does where there are none of them: nothing. -/

namespace Sys2Proof.Machine

theorem endBursts_none {s : State} {p : Burst → Bool} (mine : Nat → Bool) (st : Nat)
    (h : ∀ b ∈ s.bursts, b.admitted = true → p b = false) : s.endBursts p mine st = s := by
  unfold State.endBursts
  have : s.bursts.filter (fun b => b.admitted && p b) = [] := by
    rw [List.filter_eq_nil_iff]
    intro b hb
    by_cases ha : b.admitted = true
    · simp [h b hb ha]
    · simp [ha]
  rw [this]; rfl

theorem stopAcqs_none {s : State} {mask : Nat} (st : Nat) (h : ∀ a ∈ s.acqs, a.stopAt = none → a.chains &&& mask = 0) :
    s.stopAcqs mask st = s := by
  unfold State.stopAcqs
  have : s.acqs.filter (fun a => a.chains &&& mask ≠ 0 && a.stopAt.isNone) = [] := by
    rw [List.filter_eq_nil_iff]
    intro a ha
    by_cases hs : a.stopAt = none
    · simp [h a ha hs]
    · simp [Option.isNone_iff_eq_none, hs]
  rw [this]; rfl

/-- With no burst queued an admission scan changes nothing (R195). -/
theorem scan_idle {s : State} (h : s.bursts = []) : s.scan = s := by
  have : s.queued = [] := by unfold State.queued; rw [h]; simp
  unfold State.scan; rw [this]; rfl

/-- A sublist of the numbers below n that only one of them belongs to. -/
theorem filter_range_one {n b : Nat} {p : Nat → Bool} (hb : b < n) (h : ∀ x < n, p x = decide (x = b)) : (List.range n).filter p = [b] := by
  induction n with
  | zero => omega
  | succ n ih =>
    rw [List.range_succ, List.filter_append]
    by_cases e : b = n
    · subst e
      have : (List.range b).filter p = [] := by
        rw [List.filter_eq_nil_iff]
        intro x hx
        have hx' := List.mem_range.mp hx
        rw [h x (by omega)]; simp; omega
      rw [this]; simp [h b (by omega)]
    · rw [ih (by omega) (fun x hx => h x (by omega))]
      have : p n = false := by rw [h n (by omega)]; simp; omega
      simp [this]

theorem filter_range_none {n : Nat} {p : Nat → Bool} (h : ∀ x < n, p x = false) : (List.range n).filter p = [] := by
  rw [List.filter_eq_nil_iff]
  intro x hx
  simp [h x (List.mem_range.mp hx)]

end Sys2Proof.Machine
end

