-- ==== Sys2Proof/Laws/Links.lean ====
section
/-! SUPPORT. Laws of links and lanes: what a change of a lane, a training attempt and a send leave as they were. -/

namespace Sys2Proof.Machine

theorem upLane_lk_same (s : State) (n k : Nat) (f : Lane → Lane) (h : n < s.links.length) :
    (s.upLane n k f).lk n = { s.lk n with lanes := (s.lk n).lanes.modify k f } := upLk_lk_same s n _ h

theorem upLane_lane_same (s : State) (n k : Nat) (f : Lane → Lane) (h : n < s.links.length) (hk : k < (s.lk n).lanes.length) :
    (s.upLane n k f).lane n k = f (s.lane n k) := by
  rw [State.lane, upLane_lk_same s n k f h]
  exact getD_modify_same _ _ _ _ hk

theorem upLane_lane_ne (s : State) (n : Nat) {k j : Nat} (f : Lane → Lane) (h : n < s.links.length) (hj : j ≠ k) :
    (s.upLane n k f).lane n j = s.lane n j := by
  rw [State.lane, upLane_lk_same s n k f h]
  exact getD_modify_ne _ _ _ hj

theorem upLane_links_length (s : State) (n k : Nat) (f : Lane → Lane) : (s.upLane n k f).links.length = s.links.length := by
  simp [State.upLane, State.upLk]

/-- A burst on a lane is seen from outside, and changes nothing else. -/
theorem burstOn_eq (s : State) (n k : Nat) : ∃ o, s.burstOn n k = { s with out := o } := ⟨_, rfl⟩

theorem bursts_eq (l : List Nat) (s : State) (n : Nat) : ∃ o, l.foldl (fun s k => s.burstOn n k) s = { s with out := o } := by
  induction l generalizing s with
  | nil => exact ⟨_, rfl⟩
  | cons x r ih => obtain ⟨o, e⟩ := ih (s.burstOn n x); exact ⟨o, e⟩

/-- A training attempt changes its lane and its attempt count, and sends. -/
theorem attempt_eq (s : State) (n k a : Nat) : ∃ g l o, s.attempt n k a = { s with regs := g, links := l, out := o } := ⟨_, _, _, rfl⟩

theorem attempt_links_length (s : State) (n k a : Nat) : (s.attempt n k a).links.length = s.links.length :=
  upLane_links_length (s.setRf F.PL_LANE_ATTEMPTS [n, k] a) n k _

/-- A training attempt leaves the link's state. -/
theorem attempt_state (s : State) (n k a : Nat) (h : n < s.links.length) : ((s.attempt n k a).lk n).state = (s.lk n).state := by
  show ((State.upLane (s.setRf F.PL_LANE_ATTEMPTS [n, k] a) n k _).lk n).state = _
  rw [upLane_lk_same _ _ _ _ (by exact h)]; rfl

theorem attempts_eq (l : List Nat) (s : State) (n : Nat) :
    ∃ g k o, l.foldl (fun s k => s.attempt n k 1) s = { s with regs := g, links := k, out := o } := by
  induction l generalizing s with
  | nil => exact ⟨_, _, _, rfl⟩
  | cons x r ih => obtain ⟨g, k, o, e⟩ := ih (s.attempt n x 1); exact ⟨g, k, o, e⟩

theorem attempts_state (l : List Nat) (s : State) (n : Nat) (h : n < s.links.length) :
    ((l.foldl (fun s k => s.attempt n k 1) s).lk n).state = (s.lk n).state := by
  induction l generalizing s with
  | nil => rfl
  | cons x r ih => rw [List.foldl_cons, ih _ (by rw [attempt_links_length]; exact h), attempt_state _ _ _ _ h]

/-- Training begins on a link whose reference clock is good and that has a lane left (R569). -/
theorem train_state (s : State) (n : Nat) (h : n < s.links.length) (hl : s.clk.lref = true) (hh : s.clk.lrefHold = false) (hb : s.power.blk.contains (21 + n, none) = false)
    (hr : ∃ k < 4, (s.lanesRetired n).testBit k = false) : ((s.train n).lk n).state = 1 := by
  have hk : ((List.range 4).filter (fun k => !(s.lanesRetired n).testBit k || (s.lane n k).revive.isSome)).isEmpty = false := by
    obtain ⟨k, h4, hk⟩ := hr
    rw [List.isEmpty_eq_false_iff_exists_mem]
    exact ⟨k, by simp [h4, hk]⟩
  unfold State.train
  dsimp only
  rw [if_neg (by rw [hk, hl, hh, hb]; simp)]
  rw [attempts_state _ _ _ (by simpa [State.upLk] using h), upLk_lk_same _ _ _ h]

/-- Training touches the registers and the links, and sends. -/
theorem train_eq (s : State) (n : Nat) : ∃ g l o, s.train n = { s with regs := g, links := l, out := o } := by
  unfold State.train
  dsimp only
  split
  · exact ⟨_, _, _, rfl⟩
  · obtain ⟨g, l, o, e⟩ := attempts_eq ((List.range 4).filter (fun k => !(s.lanesRetired n).testBit k || (s.lane n k).revive.isSome))
      (s.upLk n (fun l => { l with state := 1 })) n
    exact ⟨g, l, o, e⟩

/-- A link that is used has its idle timer restarted, and a training burst sent where it leaves electrical idle. -/
theorem linkUsed_eq (s : State) (n : Nat) : ∃ l o, s.linkUsed n = { s with links := l, out := o } := by
  unfold State.linkUsed State.bursts4
  dsimp only
  split
  · obtain ⟨o, e⟩ := bursts_eq (bitList 4 ((s.upLk n (fun l => { l with state := 2 })).lk n).active) (s.upLk n (fun l => { l with state := 2 })) n
    rw [e]; exact ⟨_, _, rfl⟩
  · exact ⟨_, _, rfl⟩

/-- Sending touches the links and what went out alone. -/
theorem send_eq (s : State) (n : Nat) (p : PlPacket) : ∃ l o, s.send n p = { s with links := l, out := o } := by
  unfold State.send
  dsimp only
  split
  · exact ⟨_, _, rfl⟩
  · split
    · unfold State.transmit
      dsimp only
      obtain ⟨l, o, e⟩ := linkUsed_eq s n
      split
      · rw [e]; exact ⟨_, _, rfl⟩
      · rw [e]; exact ⟨_, _, rfl⟩
    · exact ⟨_, _, rfl⟩

theorem upLk_links_length (s : State) (n : Nat) (f : Link → Link) : (s.upLk n f).links.length = s.links.length := by simp [State.upLk]

theorem linkUsed_facts (s : State) (n : Nat) (h : n < s.links.length) : (s.linkUsed n).links.length = s.links.length ∧
    (∀ j, j ≠ n → (s.linkUsed n).lk j = s.lk j) ∧ ((s.linkUsed n).lk n).sentT = (s.lk n).sentT := by
  unfold State.linkUsed State.bursts4
  dsimp only
  split
  · obtain ⟨o, e⟩ := bursts_eq (bitList 4 ((s.upLk n (fun l => { l with state := 2 })).lk n).active) (s.upLk n (fun l => { l with state := 2 })) n
    rw [e]
    generalize hu : ({ s.upLk n (fun l => { l with state := 2 }) with out := o } : State) = u
    have h1 : u.links.length = s.links.length := by rw [← hu]; exact upLk_links_length s n _
    have h2 : u.lk n = { s.lk n with state := 2 } := by rw [← hu]; exact upLk_lk_same s n _ h
    have h3 : ∀ j, j ≠ n → u.lk j = s.lk j := by
      intro j hj; rw [← hu]; exact upLk_lk_ne s (fun l => { l with state := 2 }) hj
    refine ⟨?_, ?_, ?_⟩
    · rw [upLk_links_length, h1]
    · intro j hj
      rw [upLk_lk_ne _ _ hj, h3 j hj]
    · rw [upLk_lk_same _ _ _ (by rw [h1]; exact h), h2]
  · exact ⟨upLk_links_length s n _, fun j hj => upLk_lk_ne s _ hj, (congrArg Link.sentT (upLk_lk_same s n _ h)).trans rfl⟩

/-- A send changes its own link alone, and not what it knows of time. -/
theorem send_facts (s : State) (n : Nat) (p : PlPacket) (h : n < s.links.length) : (s.send n p).links.length = s.links.length ∧
    (∀ j, j ≠ n → (s.send n p).lk j = s.lk j) ∧ ((s.send n p).lk n).sentT = (s.lk n).sentT := by
  obtain ⟨a, b, c⟩ := linkUsed_facts s n h
  unfold State.send
  dsimp only
  split
  · exact ⟨rfl, fun _ _ => rfl, rfl⟩
  · split
    · unfold State.transmit
      dsimp only
      have up : ∀ (q : PlPacket) (f : Link → Link), (∀ l, (f l).sentT = l.sentT) →
          (((s.linkUsed n).traffic n q).upLk n f).links.length = s.links.length ∧
          (∀ j, j ≠ n → (((s.linkUsed n).traffic n q).upLk n f).lk j = s.lk j) ∧
          ((((s.linkUsed n).traffic n q).upLk n f).lk n).sentT = (s.lk n).sentT := by
        intro q f hf
        refine ⟨?_, ?_, ?_⟩
        · rw [upLk_links_length]; exact a
        · intro j hj
          rw [upLk_lk_ne _ _ hj]
          exact b j hj
        · rw [upLk_lk_same _ _ _ (by show n < (s.linkUsed n).links.length; rw [a]; exact h), hf]
          exact c
      split
      · exact up _ _ (fun _ => rfl)
      · exact up _ _ (fun _ => rfl)
    · exact ⟨upLk_links_length s n _, fun j hj => upLk_lk_ne s _ hj, (congrArg Link.sentT (upLk_lk_same s n _ h)).trans rfl⟩

theorem sends_eq (l : List PlPacket) (s : State) (n : Nat) : ∃ k o, l.foldl (fun s p => s.send n p) s = { s with links := k, out := o } := by
  induction l generalizing s with
  | nil => exact ⟨_, _, rfl⟩
  | cons p r ih =>
    obtain ⟨k, o, e⟩ := send_eq s n p
    obtain ⟨k', o', e'⟩ := ih (s.send n p)
    exact ⟨k', o', by rw [List.foldl_cons, e', e]⟩

/-- An item sent to the partner touches the links, what went out and the pair's record of it. -/
theorem tether_eq (s : State) (i : MItem) : ∃ l o p, s.tether i = { s with links := l, out := o, pair := p } ∧ p.state = s.pair.state := by
  unfold State.tether
  dsimp only
  obtain ⟨l, o, e⟩ := sends_eq (i.packets s.pos) s 2
  rw [e]; exact ⟨_, _, _, rfl, rfl⟩

/-- On a chip that mirrors nothing an item goes nowhere (R609). -/
theorem mirror_off (s : State) (i : MItem) (h : s.mirroring = false) : s.mirror i = s := by
  unfold State.mirror; rw [h]; rfl

/-- A link that was not up goes to another state without traffic. -/
theorem linkGone_down (s : State) (n st : Nat) (h : s.linkUp n = false) (hn : n < s.links.length) :
    ((s.linkGone n st).lk n).state = st ∧ ∃ l p, s.linkGone n st = { s with links := l, pair := p } := by
  unfold State.linkGone
  dsimp only
  generalize hu : (if n = 2 then { s with pair := { s.pair with partial' := none } } else s) = u
  have e : ∃ p, u = { s with pair := p } := by
    rw [← hu]; split
    · exact ⟨_, rfl⟩
    · exact ⟨_, rfl⟩
  obtain ⟨p, rfl⟩ := e
  rw [if_pos (by simp [h])]
  exact ⟨congrArg Link.state (upLk_lk_same ({ s with pair := p } : State) n _ hn), _, _, rfl⟩

end Sys2Proof.Machine
end

