-- ==== Sys2Proof/Tests/Slice0.lean ====
section
/-! SUPPORT. The model's own tests: an ill-formed term for each check of well-formedness, and for every statement with hypotheses a
state that meets them. -/

section OneByOne

set_option Elab.async false

namespace Sys2Proof.Tests

open Sys2Proof.Machine

/-- A state after boot: BOOT_STATUS.DONE, every domain on, the clocks present, the link up with bus mastering and MSI-X enabled, and
submission ring 0 and completion ring 32 enabled. -/
def awake : State :=
  let s : State := { State.reset with
    clk := { tref := true, pll := true, lref := true, pcieRef := true, xtal := true }
    rst := { pwrgood := true, due := false }
    power := { State.reset.power with dom := 2 ^ 96 - 1 }
    host := { linkUp := true, pci := { busMaster := true, msixEn := true }, msix := List.replicate 64 { masked := false } } }
  ((s.setRf F.BOOT_STATUS_DONE [] 1).setRf F.RINGK_CFG_EN [0] 1).setRf F.RINGK_CFG_EN [32] 1

/-- A descriptor of an opcode with a body (bytes 16 to 63), at index 0 of ring 0. -/
def desc (op : Nat) (body : List Byte) : Desc :=
  { sq := 0, idx := 0, cq := 32, bytes := padTo ([BitVec.ofNat 8 op] ++ zeros 15 ++ body) 64 }

/-- The state after boot with one descriptor in flight. -/
def holding (d : Desc) : State := { awake with host := { awake.host with inflight := [d] } }

end Sys2Proof.Tests

open Sys2Proof Sys2Proof.Machine Sys2Proof.Tests

/-! ### IdleTickCountsDtime -/

theorem wit_IdleTickCountsDtime_1 :
    let s : State := awake
    s.pending = [] ∧ s.clk.pll = true := by decide +kernel

/-! ### CompletionEntryWritten -/

theorem wit_CompletionEntryWritten_1 :
    let s : State := holding (desc 0x00 [])
    let d : Desc := desc 0x00 []
    s.desc 0 0 = some d ∧ d.bytes.length = 64 ∧ s.ringOn d.cq = true ∧ s.ringErr d.cq = false ∧ s.host.pci.busMaster = true := by decide +kernel

/-! ### DescriptorsBegin -/

theorem wit_DescriptorsBegin_1 :
    let s : State := holding (desc 0x00 [])
    let d : Desc := desc 0x00 []
    Safety.ready s 0 0 0x00 d := by decide +kernel
theorem wit_DescriptorsBegin_2 :
    let s : State := holding (desc 0x01 [])
    let d : Desc := desc 0x01 []
    s.desc 0 0 = some d ∧ s.earlier 0 0 = [] := by decide +kernel
theorem wit_DescriptorsBegin_3 :
    let s : State := (awake.upRing 31 (fun r => { r with tail := 1, metSince := some 0 })).setRf F.RINGK_CFG_EN [31] 1
    let b : List Byte := (desc 0x08 (leBytes 4 9)).bytes
    s.served = some 31 ∧ s.power.lull = 0 ∧ s.host.pci.busMaster = true ∧ b.length = 64 ∧ headerCheck b = 0 ∧ s.ballastOn = false ∧
      s.pair.role ≠ 2 ∧ 1 ≤ s.fetchRoom 31 ∧ 31 < 32 ∧ Safety.shaped s := by decide +kernel
theorem wit_DescriptorsBegin_3_b :
    let s : State := awake.upRing 0 (fun r => { r with tail := 1, metSince := some 0 })
    let b : List Byte := (desc 0x00 []).bytes
    s.served = some 0 ∧ s.power.lull = 0 ∧ s.host.pci.busMaster = true ∧ b.length = 64 ∧ headerCheck b = 0 ∧ s.ballastOn = false ∧
      s.pair.role ≠ 2 ∧ 1 ≤ s.fetchRoom 0 ∧ 0 < 32 ∧ Safety.shaped s := by decide +kernel

/-! ### EventsAndMessages -/

theorem wit_EventsAndMessages_1 :
    let e : Event := { typ := 7 }
    let s := (awake.setRf F.RINGK_CFG_EN [48] 1).setRf F.RINGK_CFG_EVT_MASK [48] 0xFFFF
    let u : State := { s with host := { s.host with evq := [e] } }
    let s : State := u
    s.host.evq.find? (fun e => s.evRoute e.typ = some 48) = some e ∧ s.ringErr 48 = false ∧ s.ringFree 48 ≠ 0 ∧
      s.host.pci.busMaster = true := by decide +kernel
theorem wit_EventsAndMessages_2 :
    let s : State := (awake.setRf F.RINGK_CFG_IRQ_EN [32] 1).upRing 32 (fun r => { r with due := some 5 })
    s.rb F.RINGK_CFG_IRQ_EN [32] = true ∧ (s.ring 32).due = some 5 ∧ 5 ≤ 5 ∧ Safety.shaped s ∧ 32 < 64 := by decide +kernel

/-! ### RingSetup -/

theorem wit_RingSetup_1 :
    (let s : State := awake
    let v : W64 := 1
    Safety.writable s (F.RINGK_CFG_EN.off [33]) = true ∧ s.bootDone = true ∧ s.ringOn 33 = false ∧ fget v 0 1 = 1 ∧ 33 < 64 ∧
      Safety.shaped s) ∧
    (let s : State := awake
    let v : W64 := 1
    Safety.writable s (F.RINGK_CFG_EN.off [1]) = true ∧ s.bootDone = true ∧ s.ringOn 1 = false ∧ fget v 0 1 = 1 ∧ 1 < 64 ∧
      Safety.shaped s) := by decide +kernel
theorem wit_RingSetup_1_b :
    let s : State := awake.setRf F.RINGK_CFG_CQ [1] 5
    let v : W64 := 0x501
    Safety.writable s (F.RINGK_CFG_EN.off [1]) = true ∧ s.bootDone = true ∧ s.ringOn 1 = false ∧ fget v 0 1 = 1 ∧ 1 < 64 ∧
      Safety.shaped s := by decide +kernel
theorem wit_RingSetup_2 :
    let s : State := awake
    let v : W64 := 0
    Safety.writable s (F.RINGK_CFG_EN.off [0]) = true ∧ s.bootDone = true ∧ s.ringOn 0 = true ∧ fget v 0 1 = 0 ∧ (0 < 32 ∨ 48 ≤ 0) ∧
      0 < 64 := by decide +kernel
theorem wit_RingSetup_3 :
    (let s : State := awake
    let v : W64 := 0
    Safety.writable s (F.RINGK_CFG_EN.off [32]) = true ∧ s.bootDone = true ∧ s.ringOn 32 = true ∧ fget v 0 1 = 0 ∧ 32 ≤ 32 ∧ 32 < 48 ∧
      Safety.shaped s ∧ s.reserved 32 = 0) ∧
    (let s : State := holding (desc 0 [])
    let v : W64 := 0
    Safety.writable s (F.RINGK_CFG_EN.off [32]) = true ∧ s.bootDone = true ∧ s.ringOn 32 = true ∧ fget v 0 1 = 0 ∧ 32 ≤ 32 ∧ 32 < 48 ∧
      Safety.shaped s ∧ s.reserved 32 ≠ 0) := by decide +kernel
theorem wit_RingSetup_4 :
    (let s : State := State.reset
    s.bootDone = false ∧ s.power.lull = 0 ∧ 0 < 64) ∧
    (let s : State := awake.setRf F.BOOT_STATUS_DONE [] 0
    s.bootDone = false ∧ s.power.lull = 0 ∧ 63 < 64) := by decide +kernel
theorem wit_RingSetup_5 :
    (let s : State := awake
    let v : W64 := 1
    Safety.writable s (F.RING_CTL_RESET.off [0]) = true ∧ s.bootDone = true ∧ fget v 0 1 = 1 ∧ 0 < 64) ∧
    (let s : State := awake
    let v : W64 := 1
    Safety.writable s (F.RING_CTL_RESET.off [47]) = true ∧ s.bootDone = true ∧ fget v 0 1 = 1 ∧ 47 < 64) ∧
    (let s : State := awake
    let v : W64 := 1
    Safety.writable s (F.RING_CTL_RESET.off [63]) = true ∧ s.bootDone = true ∧ fget v 0 1 = 1 ∧ 63 < 64) := by decide +kernel
theorem wit_RingSetup_6 :
    (let s : State := awake
    let v : W64 := 0
    Safety.writable s (F.RING_CTL_RESET.off [0]) = true ∧ fget v 0 1 = 0 ∧ 0 < 64) ∧
    (let s : State := awake
    let v : W64 := 2
    Safety.writable s (F.RING_CTL_RESET.off [63]) = true ∧ fget v 0 1 = 0 ∧ 63 < 64) := by decide +kernel

/-! ### Doorbells -/

theorem wit_Doorbells_1 :
    let s : State := awake
    let v : W64 := 3
    s.bootDone = true ∧ s.power.lull = 0 ∧ 0 < 32 ∧ s.ringOn 0 = true ∧ s.ringErr 0 = false ∧ fget v 0 32 < s.ringSize 0 ∧
      fget v 0 32 ≠ (s.ring 0).tail ∧
      ((s.ring 0).tail + s.ringSize 0 - (s.ring 0).head) % s.ringSize 0 ≤ (fget v 0 32 + s.ringSize 0 - (s.ring 0).head) % s.ringSize 0 ∧
      Safety.shaped s := by decide +kernel
theorem wit_Doorbells_2 :
    let s : State := awake.upRing 32 (fun r => { r with tail := 5 })
    let v : W64 := 3
    s.bootDone = true ∧ s.power.lull = 0 ∧ 32 ≤ 32 ∧ 32 < 64 ∧ s.ringOn 32 = true ∧ s.ringErr 32 = false ∧
      fget v 0 32 < s.ringSize 32 ∧ fget v 0 32 ≠ (s.ring 32).head ∧
      ((s.ring 32).tail + s.ringSize 32 - fget v 0 32) % s.ringSize 32 ≤ ((s.ring 32).tail + s.ringSize 32 - (s.ring 32).head) % s.ringSize 32 ∧
      Safety.shaped s := by decide +kernel
theorem wit_Doorbells_3 :
    (let s : State := awake
    let v : W64 := 0
    let i : Instr := .submissionDoorbell 0 0
    s.bootDone = true ∧ s.power.lull = 0 ∧ 0 < 64 ∧ i = (if 0 < 32 then .submissionDoorbell 0 v else .headDoorbell 0 v) ∧
      0 = (if 0 < 32 then (s.ring 0).tail else (s.ring 0).head) ∧ s.ringOn 0 = true ∧ s.ringErr 0 = false ∧ fget v 0 32 = 0) ∧
    (let s : State := awake
    let v : W64 := 0
    let i : Instr := .headDoorbell 32 0
    s.bootDone = true ∧ s.power.lull = 0 ∧ 32 < 64 ∧ i = (if 32 < 32 then .submissionDoorbell 32 v else .headDoorbell 32 v) ∧
      0 = (if 32 < 32 then (s.ring 32).tail else (s.ring 32).head) ∧ s.ringOn 32 = true ∧ s.ringErr 32 = false ∧ fget v 0 32 = 0) ∧
    (let s : State := awake
    let v : W64 := 0xFFFFFFFF
    let i : Instr := .submissionDoorbell 0 0xFFFFFFFF
    s.bootDone = true ∧ s.power.lull = 0 ∧ 0 < 64 ∧ i = (if 0 < 32 then .submissionDoorbell 0 v else .headDoorbell 0 v) ∧
      0 = (if 0 < 32 then (s.ring 0).tail else (s.ring 0).head) ∧ s.ringOn 0 = true ∧ s.ringErr 0 = false ∧ fget v 0 32 ≠ 0 ∧
      (s.ringSize 0 ≤ fget v 0 32 ∨ (0 < 32 ∧
      (fget v 0 32 + s.ringSize 0 - (s.ring 0).head) % s.ringSize 0 < ((s.ring 0).tail + s.ringSize 0 - (s.ring 0).head) % s.ringSize 0) ∨ (32 ≤ 0 ∧
      ((s.ring 0).tail + s.ringSize 0 - (s.ring 0).head) % s.ringSize 0 < ((s.ring 0).tail + s.ringSize 0 - fget v 0 32) % s.ringSize 0))) := by decide +kernel
theorem wit_Doorbells_3_b :
    (let s : State := awake.upRing 0 (fun r => { r with tail := 5 })
    let v : W64 := 3
    let i : Instr := .submissionDoorbell 0 3
    s.bootDone = true ∧ s.power.lull = 0 ∧ 0 < 64 ∧ i = (if 0 < 32 then .submissionDoorbell 0 v else .headDoorbell 0 v) ∧
      5 = (if 0 < 32 then (s.ring 0).tail else (s.ring 0).head) ∧ s.ringOn 0 = true ∧ s.ringErr 0 = false ∧ fget v 0 32 ≠ 5 ∧
      (s.ringSize 0 ≤ fget v 0 32 ∨ (0 < 32 ∧
      (fget v 0 32 + s.ringSize 0 - (s.ring 0).head) % s.ringSize 0 < ((s.ring 0).tail + s.ringSize 0 - (s.ring 0).head) % s.ringSize 0) ∨ (32 ≤ 0 ∧
      ((s.ring 0).tail + s.ringSize 0 - (s.ring 0).head) % s.ringSize 0 < ((s.ring 0).tail + s.ringSize 0 - fget v 0 32) % s.ringSize 0))) ∧
    (let s : State := awake.upRing 32 (fun r => { r with tail := 5 })
    let v : W64 := 6
    let i : Instr := .headDoorbell 32 6
    s.bootDone = true ∧ s.power.lull = 0 ∧ 32 < 64 ∧ i = (if 32 < 32 then .submissionDoorbell 32 v else .headDoorbell 32 v) ∧
      0 = (if 32 < 32 then (s.ring 32).tail else (s.ring 32).head) ∧ s.ringOn 32 = true ∧ s.ringErr 32 = false ∧ fget v 0 32 ≠ 0 ∧
      (s.ringSize 32 ≤ fget v 0 32 ∨ (32 < 32 ∧
      (fget v 0 32 + s.ringSize 32 - (s.ring 32).head) % s.ringSize 32 < ((s.ring 32).tail + s.ringSize 32 - (s.ring 32).head) % s.ringSize 32) ∨ (32 ≤ 32 ∧
      ((s.ring 32).tail + s.ringSize 32 - (s.ring 32).head) % s.ringSize 32 < ((s.ring 32).tail + s.ringSize 32 - fget v 0 32) % s.ringSize 32))) ∧
    (let s : State := awake
    let v : W64 := 3
    let i : Instr := .submissionDoorbell 1 3
    s.bootDone = true ∧ s.power.lull = 0 ∧ 1 < 64 ∧ i = (if 1 < 32 then .submissionDoorbell 1 v else .headDoorbell 1 v) ∧
      0 = (if 1 < 32 then (s.ring 1).tail else (s.ring 1).head) ∧ (s.ringOn 1 = false ∨ s.ringErr 1 = true)) := by decide +kernel
theorem wit_Doorbells_3_c :
    let s : State := awake.setRf F.RINGK_STAT_ERR [0] 1
    let v : W64 := 3
    let i : Instr := .submissionDoorbell 0 3
    s.bootDone = true ∧ s.power.lull = 0 ∧ 0 < 64 ∧ i = (if 0 < 32 then .submissionDoorbell 0 v else .headDoorbell 0 v) ∧
      0 = (if 0 < 32 then (s.ring 0).tail else (s.ring 0).head) ∧ (s.ringOn 0 = false ∨ s.ringErr 0 = true) := by decide +kernel

/-! ### HostIslandAndLink -/

theorem wit_HostIslandAndLink_2 :
    (let s : State := awake
    1 ≤ 1 ∧ 1 ≤ 4 ∧ (1 = 1 ∨ 1 = 2 ∨ 1 = 4) ∧ (s.rst.pwrgood = true ∨ s.rst.due = false)) ∧
    (let s : State := ({ awake with host := { awake.host with pba := 6 } } : State)
    1 ≤ 4 ∧ 4 ≤ 4 ∧ (4 = 1 ∨ 4 = 2 ∨ 4 = 4) ∧ (s.rst.pwrgood = true ∨ s.rst.due = false)) := by decide +kernel

/-! ### TimingSets -/

/-- Bytes of a timing set of period 1,000 that passes the checks of R227. -/
def tsetBytes : List Byte := padTo (leBytes 4 0x54535444 ++ leBytes 2 1 ++ zeros 2 ++ leBytes 4 1000) 576
/-- A state after boot with clusters 0 to 11 live and a descriptor in flight. -/
def fitted (d : Desc) : State := (holding d).setRf F.CAPS_LIVE_CL_LIVE [] 0xFFF
/-- A state in which an admitted burst uses set 2.5 or would be shortened by it. -/
def tsetInUse (s : State) : State :=
  { s.putTset 2 5 tsetBytes with
    bursts := [{ ent := .site 1, owner := .nobody, obj := 9, named := 9, mode := 0, prio := 0, arrival := 0, submitted := 0
                 admitted := true, parts := [{ slice := 8, pf := 2000 }] }]
    objs := [(9, { id := 9, kind := .pattern, size := 4096, base := 0, chans := [0] })]
    mem := Memory.write [] 0 (padTo (zeros 54 ++ [63]) 256) }
theorem wit_TimingSets_1 :
    let d := desc 0x10 [2, 5]
    let s : State := fitted d
    let bs : List Byte := tsetBytes
    Safety.ready s 0 0 0x10 d ∧ Safety.shaped s ∧ fld d.bytes 16 1 = 2 ∧ fld d.bytes 17 1 = 5 ∧ 2 < 12 ∧ 5 < 64 ∧
      s.clAbsent 2 = false ∧ fld d.bytes 24 8 % 64 = 0 ∧ zeroes d.bytes 18 6 = true ∧ zeroes d.bytes 32 32 = true ∧
      s.host.pci.busMaster = true ∧ bs.length = 576 ∧ tsCheck bs = none ∧ s.tsetHeld 2 5 (tsPeriod bs) = false := by decide +kernel
theorem wit_TimingSets_1_b :
    let d := desc 0x10 [2, 5]
    let s : State := tsetInUse (fitted d)
    let bs : List Byte := tsetBytes
    Safety.ready s 0 0 0x10 d ∧ Safety.shaped s ∧ fld d.bytes 16 1 = 2 ∧ fld d.bytes 17 1 = 5 ∧ 2 < 12 ∧ 5 < 64 ∧
      s.clAbsent 2 = false ∧ fld d.bytes 24 8 % 64 = 0 ∧ zeroes d.bytes 18 6 = true ∧ zeroes d.bytes 32 32 = true ∧
      s.host.pci.busMaster = true ∧ bs.length = 576 ∧ tsCheck bs = none ∧ s.tsetHeld 2 5 (tsPeriod bs) = true := by decide +kernel
theorem wit_TimingSets_2 :
    let w : Waiting := { sq := 0, idx := 0, kind := .tsetLoad 2 5 tsetBytes }
    let s : State := (fitted (desc 0x10 [2, 5])).wait w
    let bs : List Byte := tsetBytes
    s.waitOf 0 0 = some w ∧ w.kind = .tsetLoad 2 5 bs ∧ 2 < 12 ∧ s.tsetHeld 2 5 (tsPeriod bs) = false ∧ Safety.shaped s := by decide +kernel
theorem wit_TimingSets_3 :
    let d := desc 0x11 [2, 5]
    let s : State := (fitted d).putTset 2 5 tsetBytes
    let x : Tset := { num := 5, bytes := tsetBytes }
    Safety.ready s 0 0 0x11 d ∧ Safety.shaped s ∧ fld d.bytes 16 1 = 2 ∧ fld d.bytes 17 1 = 5 ∧ 2 < 12 ∧ 5 < 64 ∧
      s.clAbsent 2 = false ∧ zeroes d.bytes 18 46 = true ∧ kGet (s.cl 2).tsets 5 = some x ∧ s.tsetUsed 2 5 = false := by decide +kernel
theorem wit_TimingSets_3_b :
    let d := desc 0x11 [2, 5]
    let s : State := tsetInUse (fitted d)
    let x : Tset := { num := 5, bytes := tsetBytes }
    Safety.ready s 0 0 0x11 d ∧ Safety.shaped s ∧ fld d.bytes 16 1 = 2 ∧ fld d.bytes 17 1 = 5 ∧ 2 < 12 ∧ 5 < 64 ∧
      s.clAbsent 2 = false ∧ zeroes d.bytes 18 46 = true ∧ kGet (s.cl 2).tsets 5 = some x ∧ s.tsetUsed 2 5 = true := by decide +kernel
theorem wit_TimingSets_4 :
    let w : Waiting := { sq := 0, idx := 0, kind := .tsetUnload 2 5 }
    let s : State := ((fitted (desc 0x11 [2, 5])).putTset 2 5 tsetBytes).wait w
    let x : Tset := { num := 5, bytes := tsetBytes }
    s.waitOf 0 0 = some w ∧ w.kind = .tsetUnload 2 5 ∧ 2 < 12 ∧ s.tsetUsed 2 5 = false ∧ kGet (s.cl 2).tsets 5 = some x ∧
      Safety.shaped s := by decide +kernel

/-! ### DriftTrims -/

theorem wit_DriftTrims_1 :
    let s : State := awake
    let v : W64 := 1
    Safety.writable s (F.CL_DRIFT_CTL_EN.off [11]) = true ∧ 11 < s.nCl ∧ fget v 0 1 = 1 ∧ v.toNat.testBit 1 = false ∧
      s.rb F.CL_DRIFT_CTL_EN [11] = false ∧ s.domOn (5 * 11 + 1) = true ∧ Safety.shaped s := by decide +kernel
theorem wit_DriftTrims_2 :
    let s : State := awake.setRf F.CL_DRIFT_CTL_EN [11] 1
    let v : W64 := 0
    Safety.writable s (F.CL_DRIFT_CTL_EN.off [11]) = true ∧ 11 < s.nCl ∧ fget v 0 1 = 0 ∧ v.toNat.testBit 1 = false ∧ Safety.shaped s := by decide +kernel
theorem wit_DriftTrims_3 :
    let s : State := awake
    let v : W64 := 3
    Safety.writable s (F.CL_DRIFT_CTL_EN.off [11]) = true ∧ 11 < s.nCl ∧ fget v 0 1 = 1 ∧ v.toNat.testBit 1 = true ∧
      s.domOn (5 * 11 + 1) = true ∧ Safety.shaped s := by decide +kernel
theorem wit_DriftTrims_4 :
    let s : State := (awake.setRf F.CL_DRIFT_CTL_EN [11] 1).upDrift 11 (fun d => { d with last := 5 })
    11 < s.nCl ∧ s.islUp 11 = true ∧ s.rb F.CL_DRIFT_CTL_EN [11] = true ∧ s.domOn (5 * 11 + 1) = true ∧ (s.cl 11).drift.acq = false ∧
      (s.cl 11).drift.last + 1000 * s.rf F.CL_DRIFT_CTL_INTERVAL [11] ≤ 1000005 ∧ Safety.shaped s := by decide +kernel
theorem wit_DriftTrims_5 :
    let s : State := awake.upDrift 11 (fun d => { d with acq := true })
    let gain : Int := 30000
    let offset : Int := -128
    (s.cl 11).drift.acq = true ∧ s.islUp 11 = true ∧ s.domOn (5 * 11 + 1) = true ∧ (s.cl 11).drift.acqStart ≤ 5 ∧
      ((s.cl 11).drift.acqStart < (s.cl 11).drift.last → (s.cl 11).drift.last + 1000 ≤ 5) ∧ -30000 ≤ gain ∧ gain ≤ 30000 ∧
      -128 ≤ offset ∧ offset ≤ 128 ∧ 11 < 12 ∧ Safety.shaped s := by decide +kernel
theorem wit_DriftTrims_5_b :
    let s : State := awake.upDrift 11 (fun d => { d with acq := true })
    let gain : Int := -30000
    let offset : Int := 128
    (s.cl 11).drift.acq = true ∧ s.islUp 11 = true ∧ s.domOn (5 * 11 + 1) = true ∧ (s.cl 11).drift.acqStart ≤ 5 ∧
      ((s.cl 11).drift.acqStart < (s.cl 11).drift.last → (s.cl 11).drift.last + 1000 ≤ 5) ∧ -30000 ≤ gain ∧ gain ≤ 30000 ∧
      -128 ≤ offset ∧ offset ≤ 128 ∧ 11 < 12 ∧ Safety.shaped s := by decide +kernel

/-! ### Calibration -/

/-- A CALIBRATE of kind 1 of cluster 2. -/
def calDesc : Desc := desc 0x12 ([2, 1, 1, 0, 0, 4, 0, 0] ++ padTo [] 0 ++ [255, 255, 255, 255, 255, 255, 255, 255])
/-- Its entry among the calibrations. -/
def calEnt : Calib := { sq := 0, idx := 0, cluster := 2, kind := 1, chmask := 1, apply := false, setup := 0xFFFFFFFF,
                        restore := 0xFFFFFFFF, dst := 0 }
theorem wit_Calibration_1 :
    (let s : State := fitted calDesc
    let d : Desc := calDesc
    Safety.ready s 0 0 0x12 d ∧ s.calRefusal d.bytes ≠ 0) ∧
    (let s : State := (fitted calDesc).upDrift 2 (fun d => { d with locked := true })
    let d : Desc := calDesc
    Safety.ready s 0 0 0x12 d ∧ s.calRefusal d.bytes = 0) := by decide +kernel
theorem wit_Calibration_2 :
    let s : State := { fitted calDesc with calibs := [calEnt] }
    let c : Calib := calEnt
    s.calib 0 0 = some c ∧ c.phase = 0 ∧ s.calibs.find? (fun x => x.cluster = c.cluster) = some c ∧ s.domOn (5 * c.cluster) = true ∧
      s.domOn (5 * c.cluster + 1) = true ∧ s.domOn (5 * c.cluster + 2) = true ∧ s.power.blk.contains (c.cluster, none) = false ∧
      s.clk.tref = true ∧ s.ballastOn = false ∧ c.setup = 0xFFFFFFFF := by decide +kernel
theorem wit_Calibration_2_b :
    let s : State := { fitted calDesc with calibs := [{ calEnt with setup := 4 }] }
    let c : Calib := { calEnt with setup := 4 }
    s.calib 0 0 = some c ∧ c.phase = 0 ∧ s.calibs.find? (fun x => x.cluster = c.cluster) = some c ∧ s.domOn (5 * c.cluster) = true ∧
      s.domOn (5 * c.cluster + 1) = true ∧ s.domOn (5 * c.cluster + 2) = true ∧ s.power.blk.contains (c.cluster, none) = false ∧
      s.clk.tref = true ∧ s.ballastOn = false ∧ c.setup ≠ 0xFFFFFFFF ∧ c.cluster < 12 ∧ Safety.shaped s ∧
      (s.pePort c.cluster).queue.length < 16 := by decide +kernel
theorem wit_Calibration_3 :
    let s : State := { fitted calDesc with calibs := [{ calEnt with phase := 2 }] }
    let c : Calib := { calEnt with phase := 2 }
    s.calib 0 0 = some c ∧ c.phase = 2 ∧ c.restore = 0xFFFFFFFF ∧ c.st = 0 ∧ 1 ≤ c.kind ∧ c.kind ≤ 4 ∧ c.cluster < 12 ∧
      s.host.pci.busMaster = true ∧ Safety.shaped s := by decide +kernel
theorem wit_Calibration_4 :
    let s : State := awake
    Safety.writable s (F.CL_DSK_DSKD.off [11, 15]) = true ∧ 11 < s.nCl ∧ 15 < 16 := by decide +kernel
theorem wit_Calibration_5 :
    let s : State := (awake.setRf F.CL_PE_CFG_EN [4] 1).upPe 4 (fun p => { p with queue := [{ list := 1, user := .orphan }] })
    (s.pePort 4).busy = false ∧ (s.pePort 4).queue ≠ [] ∧ s.peUp 4 = true ∧ s.ballastOn = false ∧ 4 < 12 ∧ Safety.shaped s := by decide +kernel

/-! ### ReferenceClocks -/

theorem wit_ReferenceClocks_1 :
    let s : State := awake
    s.clk.tref = true ∧ s.pair.role ≠ 1 := by decide +kernel
theorem wit_ReferenceClocks_2 :
    let s : State := { awake with clk := { awake.clk with trefHold := true } }
    s.clk.trefHold = true ∧ s.clk.tref = true ∧ s.clk.trefSince + 1000000 ≤ 1000000 := by decide +kernel
theorem wit_ReferenceClocks_3 :
    (let s : State := State.reset
    s.clk.pll = false) ∧
    (let s : State := { State.reset with clk := { State.reset.clk with darkSince := some 0, xtal := false } }
    s.clk.pll = false) := by decide +kernel
theorem wit_ReferenceClocks_4 :
    (let s : State := awake
    s.clk.lref = true) ∧
    (let s : State := awake.upLk 3 (fun l => { l with state := 2 })
    s.clk.lref = true) := by decide +kernel
theorem wit_ReferenceClocks_5 :
    let s : State := { awake with clk := { awake.clk with lref := false } }
    s.clk.lref = false := by decide +kernel
theorem wit_ReferenceClocks_6 :
    let s : State := { ((awake.setRf F.PL_CTL_EN [3] 1).upLk 3 (fun l => { l with state := 4 })) with clk := { awake.clk with lrefHold := true } }
    s.clk.lref = true ∧ s.clk.lrefHold = true ∧ s.clk.lrefSince + 1000000 ≤ 1000000 := by decide +kernel
theorem wit_ReferenceClocks_7 :
    (let s : State := awake
    29 < 30 ∧ s.islandAbsent 29 = false ∧ (8 ≤ 7 + 1 ∧ 7 ≤ 8 + 1)) ∧
    (let s : State := awake
    0 < 30 ∧ s.islandAbsent 0 = false ∧ ¬ (9 ≤ 7 + 1 ∧ 7 ≤ 9 + 1)) := by decide +kernel

/-! ### CalendarAndPins -/

theorem wit_CalendarAndPins_1 :
    let s : State := awake
    Safety.writable s (F.CAL_SET_SEC.off []) = true := by decide +kernel
theorem wit_CalendarAndPins_2 :
    (let s : State := awake.setRf F.CALSEC_VALID [] 1
    s.counts = true ∧ s.clk.calAt + (if s.clk.xtal then 30518 else 1000000000) ≤ 30518) ∧
    (let s : State := { awake.setRf F.CALSEC_VALID [] 1 with clk := { awake.clk with xtal := false } }
    s.counts = true ∧ s.clk.calAt + (if s.clk.xtal then 30518 else 1000000000) ≤ 1000000000) := by decide +kernel
theorem wit_CalendarAndPins_3 :
    let s : State := awake
    s.clk.xtal = true ∧ s.clk.pll = true := by decide +kernel
theorem wit_CalendarAndPins_4 :
    let s : State := { awake with clk := { awake.clk with xtal := false } }
    s.clk.xtal = false ∧ s.clk.darkSince = none := by decide +kernel
theorem wit_CalendarAndPins_5 :
    let s : State := awake
    s.bootDone = true ∧ s.clk.pll = true ∧ (2000 * (1048576 : Int) + s.ringT.xoff) / 2000 % 1048576 = 0 := by decide +kernel
theorem wit_CalendarAndPins_6 :
    let s : State := (awake.setRf F.CL_TRIGIN_CFG_EN [11] 8).setRf F.CL_TRG_SRC_SRC [11, 7] (2 ^ 47)
    3 < 4 ∧ s.power.lull = 0 ∧ s.clk.tref = true := by decide +kernel

/-! ### SupplyDips -/

theorem wit_SupplyDips_1 :
    let s : State := awake
    13 < 14 ∧ s.power.below.testBit 13 = false ∧ 100 + s.rf F.WS_CTL_GLITCH_NS ≤ 10000 ∧ s.power.lull ≠ 2 := by decide +kernel
theorem wit_SupplyDips_2 :
    let s : State := { awake with power := { awake.power with below := 8, dips := [(3, 100)], pause := true } }
    let d : Nat × Nat := (3, 100)
    3 < 14 ∧ 200 + s.rf F.WS_CTL_GLITCH_NS ≤ 10000 ∧ s.power.dips.find? (fun d => d.1 = 3) = some d := by decide +kernel
theorem wit_SupplyDips_3 :
    let s : State := awake
    13 < 14 ∧ s.rf F.WS_RAIL_THR_WARN_HI [13] < 65535 ∧ s.power.lull ≠ 2 := by decide +kernel
theorem wit_SupplyDips_4 :
    let s : State := { awake with power := { awake.power with pause := true } }
    s.power.pause = true ∧ s.power.below = 0 ∧ s.power.aboveSince + 1000 * s.rf F.WS_CTL_HOLD_US ≤ 1000000000 := by decide +kernel
theorem wit_SupplyDips_5 :
    (let s : State := awake.setRf F.WS_RAIL_THR_RESET_LO [13] 700
    13 < 14 ∧ 0 < s.rf F.WS_RAIL_THR_RESET_LO [13]) ∧
    (let s : State := awake.setRf F.WS_RAIL_THR_RESET_LO [12] 700
    12 < 14 ∧ 699 < s.rf F.WS_RAIL_THR_RESET_LO [12]) := by decide +kernel

/-! ### Sensors -/

theorem wit_Sensors_edge : 25 ∈ awake.sensors ∧ 11 < awake.nCl ∧ toSigned 16 (awake.rf F.WS_TEMP_THR_WARN) < 3000 ∧
    0 ≤ toSigned 16 (awake.rf F.WS_TEMP_THR_WARN) - 32 := by decide
theorem wit_Sensors_2 :
    (let s : State := awake
    s.power.lull ≠ 2) ∧
    (let s : State := awake
    s.power.lull ≠ 2) := by decide +kernel

/-! ### LifetimeLog -/

theorem wit_LifetimeLog_1 :
    (let s : State := awake
    s.rst.pwrgood = true) ∧
    (let s : State := { awake with power := { awake.power with lull := 2 } }
    s.rst.pwrgood = true) := by decide +kernel
theorem wit_LifetimeLog_2 :
    let s : State := { awake with life := { awake.life with state := 1 } }
    let t0 : Nat := 10 ^ 16
    s.life.state = 1 ∧ s.life.snapAt + 60000000000 * s.rf F.LIFE_CTL_SNAP_MIN ≤ t0 := by decide +kernel
theorem wit_LifetimeLog_3 :
    let r : LogRec := { typ := 2, dtime := 5, sec := 0, data := [] }
    let s : State := { awake with logQ := [r], life := { awake.life with state := 1, cur := some 3, sectors := [(3, { seq := 1, erases := 1 })] } }
    let rest : List LogRec := []
    let x : Sector := { seq := 1, erases := 1 }
    s.logQ = r :: rest ∧ s.life.state = 1 ∧ s.life.cur = some 3 ∧ s.life.bad.contains 3 = false ∧ kGet s.life.sectors 3 = some x ∧
      x.recs.length < 63 ∧ 2 < 3 ∧ ¬ (r.typ = 1 ∧ r.part = 110) := by decide +kernel
theorem wit_LifetimeLog_4 :
    (let d := desc 0x71 (zeros 16 ++ [64] ++ zeros 7 ++ [64])
    let s : State := holding d
    Safety.ready s 0 0 0x71 d ∧ fld d.bytes 16 1 = 0 ∧ fld d.bytes 24 8 % 64 = 0 ∧ fld d.bytes 32 4 % 64 = 0 ∧
      fld d.bytes 40 8 % 64 = 0 ∧ fld d.bytes 24 8 + fld d.bytes 32 4 ≤ 4224 ∧ zeroes d.bytes 17 7 = true ∧
      zeroes d.bytes 36 4 = true ∧ zeroes d.bytes 48 16 = true ∧ s.host.pci.busMaster = true) ∧
    (let d := desc 0x71 (zeros 8 ++ leBytes 8 4160 ++ [64] ++ zeros 7 ++ [64])
    let s : State := holding d
    Safety.ready s 0 0 0x71 d ∧ fld d.bytes 16 1 = 0 ∧ fld d.bytes 24 8 % 64 = 0 ∧ fld d.bytes 32 4 % 64 = 0 ∧
      fld d.bytes 40 8 % 64 = 0 ∧ fld d.bytes 24 8 + fld d.bytes 32 4 ≤ 4224 ∧ zeroes d.bytes 17 7 = true ∧
      zeroes d.bytes 36 4 = true ∧ zeroes d.bytes 48 16 = true ∧ s.host.pci.busMaster = true) := by decide +kernel
theorem wit_LifetimeLog_5 :
    let d := desc 0x72 []
    let s : State := holding d
    Safety.ready s 0 0 0x72 d ∧ zeroes d.bytes 16 48 = true ∧ s.life.state ≠ 2 := by decide +kernel

/-! ### SlicesAndChannelsFail -/

/-- A state after boot whose logical slices stand on the first four physical slices of their clusters. -/
def sliced : State := { awake with slices := (List.range 48).map (fun g => { phys := some (g % 4) }) }
theorem wit_SlicesAndChannelsFail_1 :
    (let s : State := sliced
    11 < s.nCl ∧ 4 < 5 ∧ (s.cl 11).physBad.contains 4 = false ∧ Safety.shaped s ∧ (∀ i < 4, (s.sl (4 * 11 + i)).phys ≠ some 4)) ∧
    (let u := (sliced.reportEither 8 11 2).upCl 11 (fun c => { c with physBad := c.physBad ++ [2] })
    let s : State := sliced
    let g := 46
    let q := 4
    11 < s.nCl ∧ 2 < 5 ∧ (s.cl 11).physBad.contains 2 = false ∧ Safety.shaped s ∧
      ((List.range 4).map (fun i => 4 * 11 + i)).find? (fun g => (s.sl g).phys = some 2) = some g ∧ u.spareSlice 11 = some q) := by decide +kernel
theorem wit_SlicesAndChannelsFail_1_b :
    let u := ((sliced.upCl 11 (fun c => { c with physBad := [4] })).reportEither 8 11 2).upCl 11 (fun c => { c with physBad := c.physBad ++ [2] })
    let s : State := sliced.upCl 11 (fun c => { c with physBad := [4] })
    let g := 46
    11 < s.nCl ∧ 2 < 5 ∧ (s.cl 11).physBad.contains 2 = false ∧ Safety.shaped s ∧
      ((List.range 4).map (fun i => 4 * 11 + i)).find? (fun g => (s.sl g).phys = some 2) = some g ∧ u.spareSlice 11 = none := by decide +kernel
theorem wit_SlicesAndChannelsFail_2 :
    let s : State := sliced
    11 < s.nCl := by decide +kernel
theorem wit_SlicesAndChannelsFail_3 :
    let s : State := sliced
    11 < s.nCl ∧ 15 < 16 ∧ ((s.cl 11).chans.getD 15 {}).retired = false ∧ Safety.shaped s ∧ (s.cl 11).chans.length = 16 ∧
      (∀ x ∈ s.sites, (x.2.local 11).testBit 15 = false) := by decide +kernel
theorem wit_SlicesAndChannelsFail_4 :
    let s : State := awake
    23 < s.nChain ∧ s.chainsBad.contains 23 = false := by decide +kernel

/-! ### UnitsFail -/

theorem wit_UnitsFail_1 :
    let s : State := awake
    11 < s.nCl ∧ 3 < s.nMeter ∧ s.metersBad.contains (4 * 11 + 3) = false := by decide +kernel
theorem wit_UnitsFail_2 :
    let s : State := awake
    3 < s.nApg ∧ (s.apgs.getD 3 {}).retired = false ∧ Safety.shaped s ∧ (∀ b ∈ s.bursts, b.admitted = true → b.apgUnit ≠ some 3) := by decide +kernel
theorem wit_UnitsFail_3 :
    let s : State := awake.setRf F.CAPS_LIVE_MC_LIVE [] 0x80
    s.mcLive 7 = true := by decide +kernel
theorem wit_UnitsFail_4 :
    (let s : State := awake.setRf F.CAPS_LIVE_TETHER_LIVE [] 1
    s.hasTether = true ∧ s.pair.state = 0) ∧
    (let s : State := { awake.setRf F.CAPS_LIVE_TETHER_LIVE [] 1 with pair := { awake.pair with state := 3 } }
    s.hasTether = true ∧ s.pair.state ≠ 0) := by decide +kernel
theorem wit_UnitsFail_5 :
    (let s : State := awake
    17 < s.nCore ∧ s.paddock.failed.contains 17 = false ∧ (∀ i < 16, (s.fslot i).phys ≠ some 17)) ∧
    (let s : State := awake.upFslot 15 (fun f => { f with phys := some 15 })
    15 < s.nCore ∧ s.paddock.failed.contains 15 = false) := by decide +kernel
theorem wit_UnitsFail_6 :
    let s : State := awake.upFslot 15 (fun f => { f with settling := true })
    (s.fslot 15).settling = true ∧ Safety.shaped s ∧ 15 < 16 := by decide +kernel

/-! ### ChipResets -/

theorem wit_ChipResets_1 :
    let s : State := awake
    let v : W64 := 0xC501
    Safety.writable s (F.RST_CTL_GO.off []) = true ∧ fget v 0 1 = 1 ∧ fget v 8 8 = 0xC5 ∧ s.heldReset = false := by decide +kernel
theorem wit_ChipResets_2 :
    (let s : State := awake
    let v : W64 := 0xC401
    Safety.writable s (F.RST_CTL_GO.off []) = true ∧ ¬ (fget v 0 1 = 1 ∧ fget v 8 8 = 0xC5)) ∧
    (let s : State := awake
    let v : W64 := 0xC500
    Safety.writable s (F.RST_CTL_GO.off []) = true ∧ ¬ (fget v 0 1 = 1 ∧ fget v 8 8 = 0xC5)) := by decide +kernel
theorem wit_ChipResets_3 :
    (let s : State := awake
    (s.heldReset = true → s.rst.cause ≠ 1 ∧ s.rst.cause ≠ 6)) ∧
    (let s : State := awake
    (s.heldReset = true → s.rst.cause ≠ 1 ∧ s.rst.cause ≠ 6)) := by decide +kernel
theorem wit_ChipResets_5 :
    let s : State := awake
    s.bootDone = true ∧ s.rst.doneAt + 10000000000 ≤ 10000000000 := by decide +kernel
theorem wit_ChipResets_6 :
    let s : State := { awake with rst := { awake.rst with pwrgood := false } }
    s.rst.pwrgood = false := by decide +kernel

/-! ### BlockResetsAndDomains -/

/-- A state after boot with every cluster, memory channel and Tether live. -/
def whole : State :=
  ((awake.setRf F.CAPS_LIVE_CL_LIVE [] 0xFFF).setRf F.CAPS_LIVE_MC_LIVE [] 0xFF).setRf F.CAPS_LIVE_TETHER_LIVE [] 1
theorem wit_BlockResetsAndDomains_1 :
    let s : State := whole
    let v : W64 := 0x80000014
    Safety.writable s (F.RST_BLOCK_GO.off []) = true ∧ fget v 31 1 = 1 ∧ fget v 0 5 = 13 + 7 ∧ 7 < 8 ∧ s.islandGone (13 + 7) = false ∧
      s.inReset (13 + 7) none = false ∧ s.power.lull ≠ 2 ∧ s.bursts = [] ∧ s.acqs = [] ∧ s.loads = [] ∧ Safety.shaped s := by decide +kernel
theorem wit_BlockResetsAndDomains_2 :
    (let s : State := awake
    let v : W64 := 0x8000001D
    Safety.writable s (F.RST_BLOCK_GO.off []) = true ∧ fget v 31 1 = 1 ∧ fget v 0 5 ≠ 12 ∧
      (29 ≤ fget v 0 5 ∨ s.islandGone (fget v 0 5) = true ∨ s.inReset (fget v 0 5) none = true)) ∧
    (let s : State := { awake with power := { awake.power with blk := [(16, none)] } }
    let v : W64 := 0x80000010
    Safety.writable s (F.RST_BLOCK_GO.off []) = true ∧ fget v 31 1 = 1 ∧ fget v 0 5 ≠ 12 ∧
      (29 ≤ fget v 0 5 ∨ s.islandGone (fget v 0 5) = true ∨ s.inReset (fget v 0 5) none = true)) ∧
    (let s : State := awake
    let v : W64 := 0x80000010
    Safety.writable s (F.RST_BLOCK_GO.off []) = true ∧ fget v 31 1 = 1 ∧ fget v 0 5 ≠ 12 ∧
      (29 ≤ fget v 0 5 ∨ s.islandGone (fget v 0 5) = true ∨ s.inReset (fget v 0 5) none = true)) := by decide +kernel
theorem wit_BlockResetsAndDomains_4 :
    let s : State := { awake with power := { awake.power with dom := 2 ^ 96 - 1 - 2 ^ 4 } }
    let v : W64 := 0xFFFFFFFFFFFFFFFF
    Safety.writable s (F.PWR_DOM_CTL_ON.off [0]) = true ∧ 4 < 64 ∧ 64 * 0 + 4 < 96 ∧ hostDomain (64 * 0 + 4) = true ∧
      s.domAbsent (64 * 0 + 4) = false ∧ s.domOn (64 * 0 + 4) = false ∧
      (∀ x, x < 64 → 64 * 0 + x < 96 → v.toNat.testBit x = (s.domOn (64 * 0 + x) || decide (x = 4))) := by decide +kernel
theorem wit_BlockResetsAndDomains_5 :
    (let s : State := whole
    let v : W64 := 0xFFFFFFFFFFFFFFEF
    Safety.writable s (F.PWR_DOM_CTL_ON.off [0]) = true ∧ 4 < 64 ∧ 64 * 0 + 4 < 96 ∧ s.domAbsent (64 * 0 + 4) = false ∧
      s.domOn (64 * 0 + 4) = true ∧ s.power.lull ≠ 2 ∧
      (∀ x, x < 64 → 64 * 0 + x < 96 → v.toNat.testBit x = (s.domOn (64 * 0 + x) && !decide (x = 4))) ∧
      hostDomain (64 * 0 + 4) = true ∧ (∀ p ∈ s.sites, p.2.clusters.contains ((64 * 0 + 4) / 5) = false) ∧
      (∀ e ∈ domDependents (64 * 0 + 4), s.domOn e = false ∧ ∀ g ∈ domDependents e, s.domOn g = false)) ∧
    (let s : State := whole
    let v : W64 := 0xFFFFFFFF7FFFFFFF
    Safety.writable s (F.PWR_DOM_CTL_ON.off [1]) = true ∧ 31 < 64 ∧ 64 * 1 + 31 < 96 ∧ s.domAbsent (64 * 1 + 31) = false ∧
      s.domOn (64 * 1 + 31) = true ∧ s.power.lull ≠ 2 ∧
      (∀ x, x < 64 → 64 * 1 + x < 96 → v.toNat.testBit x = (s.domOn (64 * 1 + x) && !decide (x = 31))) ∧
      hostDomain (64 * 1 + 31) = true ∧ (∀ p ∈ s.sites, p.2.clusters.contains ((64 * 1 + 31) / 5) = false) ∧
      (∀ e ∈ domDependents (64 * 1 + 31), s.domOn e = false ∧ ∀ g ∈ domDependents e, s.domOn g = false)) := by decide +kernel
theorem wit_BlockResetsAndDomains_5_b :
    let s : State := whole
    let v : W64 := 0xFFFFFFFFFFFFEFFF
    Safety.writable s (F.PWR_DOM_CTL_ON.off [1]) = true ∧ 12 < 64 ∧ 64 * 1 + 12 < 96 ∧ s.domAbsent (64 * 1 + 12) = false ∧
      s.domOn (64 * 1 + 12) = true ∧ s.power.lull ≠ 2 ∧
      (∀ x, x < 64 → 64 * 1 + x < 96 → v.toNat.testBit x = (s.domOn (64 * 1 + x) && !decide (x = 12))) ∧
      hostDomain (64 * 1 + 12) = false := by decide +kernel

/-! ### BootAndPatch -/

/-- The state after reset whose cause is a chip reset, with a count of such resets. -/
def againReset (n : Nat) : State := ({ State.reset with rst := { State.reset.rst with cause := 4 } } : State).setRf F.RST_STAT_C_LOOP [] n
theorem wit_BootAndPatch_1 :
    (let s : State := State.reset
    let inp : BootInput := { fuseOk := false }
    s.rst.due = true ∧ (s.rst.brownout = none ∨ (s.power.below = 0 ∧ s.power.aboveSince + 1000000 ≤ inp.t)) ∧ inp.fuseOk = false) ∧
    (let loops : Nat := 5
    let s : State := againReset 4
    let inp : BootInput := {}
    s.rst.due = true ∧ (s.rst.brownout = none ∨ (s.power.below = 0 ∧ s.power.aboveSince + 1000000 ≤ inp.t)) ∧ inp.fuseOk = true ∧
      s.rst.cause = 4 ∧ 5 ≤ loops) ∧
    (let loops : Nat := 0
    let s : State := State.reset
    let inp : BootInput := { tref := false }
    s.rst.due = true ∧ (s.rst.brownout = none ∨ (s.power.below = 0 ∧ s.power.aboveSince + 1000000 ≤ inp.t)) ∧ inp.fuseOk = true ∧
      ¬ (s.rst.cause = 4 ∧ 5 ≤ loops) ∧ inp.tref = false) ∧
    (let loops : Nat := 0
    let s : State := State.reset
    let inp : BootInput := { flash := false }
    s.rst.due = true ∧ (s.rst.brownout = none ∨ (s.power.below = 0 ∧ s.power.aboveSince + 1000000 ≤ inp.t)) ∧ inp.fuseOk = true ∧
      ¬ (s.rst.cause = 4 ∧ 5 ≤ loops) ∧ inp.tref = true ∧ inp.flash = false) ∧
    (let loops : Nat := 0
    let s : State := State.reset
    let inp : BootInput := { sfdp := false }
    s.rst.due = true ∧ (s.rst.brownout = none ∨ (s.power.below = 0 ∧ s.power.aboveSince + 1000000 ≤ inp.t)) ∧ inp.fuseOk = true ∧
      ¬ (s.rst.cause = 4 ∧ 5 ≤ loops) ∧ inp.tref = true ∧ inp.flash = true ∧ inp.sfdp = false) := by decide +kernel
theorem wit_BootAndPatch_1_b :
    let loops : Nat := 0
    let s : State := State.reset
    let inp : BootInput := {}
    s.rst.due = true ∧ (s.rst.brownout = none ∨ (s.power.below = 0 ∧ s.power.aboveSince + 1000000 ≤ inp.t)) ∧ inp.fuseOk = true ∧
      ¬ (s.rst.cause = 4 ∧ 5 ≤ loops) ∧ inp.tref = true ∧ inp.flash = true ∧ inp.sfdp = true ∧ fld inp.slotA 0 4 ≠ 0x42535441 ∧
      fld inp.slotB 0 4 ≠ 0x42535441 := by decide +kernel
theorem wit_BootAndPatch_2 :
    (let s : State := awake
    let inp : BootInput := {}
    (s.rst.due = false ∨ (s.rst.brownout ≠ none ∧ (s.power.below ≠ 0 ∨ inp.t < s.power.aboveSince + 1000000)))) ∧
    (let s : State := { State.reset with rst := { State.reset.rst with brownout := some (3, 5) }, power := { State.reset.power with aboveSince := 7 } }
    let inp : BootInput := { t := 1000006 }
    (s.rst.due = false ∨ (s.rst.brownout ≠ none ∧ (s.power.below ≠ 0 ∨ inp.t < s.power.aboveSince + 1000000)))) := by decide +kernel
theorem wit_BootAndPatch_3 :
    let s : State := holding (desc 0x78 (zeros 48))
    let d : Desc := desc 0x78 (zeros 48)
    Safety.ready s 0 0 0x78 d ∧ s.ballastOn = false ∧ fld d.bytes 16 8 % 64 = 0 ∧ zeroes d.bytes 28 36 = true ∧ s.paddock.tasks = [] ∧
      s.host.pci.busMaster = true := by decide +kernel

/-! ### FaultsLatched -/

theorem wit_FaultsLatched_1 :
    let r : Report := { src := 15, island := 11, unit := 0, detail := 1, t := 7 }
    let s : State := { awake with collector := { awake.collector with reports := [r] } }
    15 < 32 ∧ 11 < 30 ∧ s.hasColl = true ∧ s.power.lull ≠ 2 ∧
      s.collector.reports.find? (fun r => r.src = 15 && r.island = 11 && r.unit = 0 && r.detail = 1) = some r ∧ r.inj = false ∧
      s.reactOf 15 = 1 ∧ (s.reg (F.FLT_STAT_STAT.off [])).toNat.testBit 15 = false := by decide +kernel
theorem wit_FaultsLatched_3 :
    let s : State := awake
    Safety.writable s (F.FLT_STAT_STAT.off []) = true ∧ s.hasColl = true := by decide +kernel
theorem wit_FaultsLatched_4 :
    (let s : State := awake
    let v : W64 := 0x3F001D9F
    Safety.writable s (F.FLT_INJ_CTL_GO.off []) = true ∧ s.hasColl = true ∧ fget v 6 1 = 0 ∧ fget v 7 1 = 1 ∧
      s.collector.armed = none ∧ fget v 32 1 = 0 ∧ fget v 0 6 < 32 ∧ fget v 8 5 < 30) ∧
    (let s : State := awake
    let v : W64 := 0xA0
    Safety.writable s (F.FLT_INJ_CTL_GO.off []) = true ∧ s.hasColl = true ∧ fget v 6 1 = 0 ∧ fget v 7 1 = 1 ∧
      s.collector.armed = none ∧ fget v 32 1 = 0 ∧ (32 ≤ fget v 0 6 ∨ 30 ≤ fget v 8 5)) := by decide +kernel
theorem wit_FaultsLatched_5 :
    (let a : Nat := 2 ^ 36 * 7
    let s : State := (awake.setRf F.CAPS_LIVE_MC_LIVE [] 0xFF).setRf F.FLT_INJ_ADDR_ADDR [] (2 ^ 36 * 7)
    let v : W64 := 0x100000093
    Safety.writable s (F.FLT_INJ_CTL_GO.off []) = true ∧ s.hasColl = true ∧ fget v 6 1 = 0 ∧ fget v 7 1 = 1 ∧
      s.collector.armed = none ∧ fget v 32 1 = 1 ∧ (fget v 0 6 = 18 ∨ fget v 0 6 = 19) ∧ s.mcLive (a / 2 ^ 36) = true ∧
      a % 2 ^ 36 < s.chanSize (a / 2 ^ 36)) ∧
    (let s : State := awake
    let v : W64 := 0x100000094
    Safety.writable s (F.FLT_INJ_CTL_GO.off []) = true ∧ s.hasColl = true ∧ fget v 6 1 = 0 ∧ fget v 7 1 = 1 ∧
      s.collector.armed = none ∧ fget v 32 1 = 1 ∧ fget v 0 6 ≠ 18 ∧ fget v 0 6 ≠ 19) := by decide +kernel
theorem wit_FaultsLatched_6 :
    let s : State := { awake with collector := { awake.collector with armed := some (64, true) } }
    let v : W64 := 0x40
    Safety.writable s (F.FLT_INJ_CTL_GO.off []) = true ∧ s.hasColl = true ∧ fget v 6 1 = 1 ∧ fget v 7 1 = 0 := by decide +kernel

/-! ### BallastAndLull -/

theorem wit_BallastAndLull_1 :
    (let s : State := awake
    let v : W64 := 0
    Safety.writable s (F.BALLAST_CTL_ENGAGE.off []) = true ∧ fget v 0 1 = 0) ∧
    (let s : State := awake
    let v : W64 := 1
    Safety.writable s (F.BALLAST_CTL_ENGAGE.off []) = true ∧ fget v 0 1 = 1 ∧ s.ballastOn = false) := by decide +kernel
theorem wit_BallastAndLull_2 :
    (let d := desc 0x70 (zeros 48)
    let s : State := holding d
    Safety.ready s 0 0 0x70 d ∧ s.ballastOn = false ∧ zeroes d.bytes 16 48 = true ∧ s.lullRefusal = 0) ∧
    (let d := desc 0x70 (zeros 48)
    let s : State := { holding d with mcs := [{ repair := some (0, 0) }] }
    Safety.ready s 0 0 0x70 d ∧ s.ballastOn = false ∧ zeroes d.bytes 16 48 = true ∧ s.lullRefusal ≠ 0) := by decide +kernel
theorem wit_BallastAndLull_3 :
    (let s : State := { awake with power := { awake.power with lull := 2 } }
    let v : W64 := 1
    Safety.writable s (F.LULL_CTL_WAKE.off []) = true ∧ fget v 0 1 = 1) ∧
    (let s : State := awake
    let v : W64 := 2
    Safety.writable s (F.LULL_CTL_WAKE.off []) = true ∧ (fget v 0 1 = 0 ∨ s.power.lull ≠ 2)) := by decide +kernel
theorem wit_BallastAndLull_4 :
    (let s : State := awake.setRf F.LULL_WAKE_AT_DTIME [] 5
    s.rf F.LULL_WAKE_AT_DTIME ≠ 0 ∧ s.rf F.LULL_WAKE_AT_DTIME ≤ 5) ∧
    (let s : State := { awake.setRf F.LULL_WAKE_AT_DTIME [] 5 with power := { awake.power with lull := 2 } }
    s.rf F.LULL_WAKE_AT_DTIME ≠ 0 ∧ s.rf F.LULL_WAKE_AT_DTIME ≤ 5) := by decide +kernel
theorem wit_BallastAndLull_5 :
    (let s : State := awake
    (s.rf F.LULL_WAKE_AT_DTIME = 0 ∨ 5 < s.rf F.LULL_WAKE_AT_DTIME)) ∧
    (let s : State := awake.setRf F.LULL_WAKE_AT_DTIME [] 5
    (s.rf F.LULL_WAKE_AT_DTIME = 0 ∨ 4 < s.rf F.LULL_WAKE_AT_DTIME)) := by decide +kernel

/-! ### ActiveRole -/

/-- A mirrored chip with Tether, on a ring (0 or 1) of its pair. -/
def paired (ring : Nat) : State :=
  ((awake.setRf F.PAIR_STAT_MIRRORED [] 1).setRf F.CAPS_LIVE_TETHER_LIVE [] 1).setRf F.PAIR_STAT_RING [] ring
/-- That chip with its pair's state, role, claim and what it reads of its partner's line. -/
def claiming (ring state role claim : Nat) (partner : Bool) : State :=
  { paired ring with pair := { awake.pair with state := state, role := role, claim := claim, claimAt := 5, partner := partner } }
theorem wit_ActiveRole_1 :
    (let s : State := claiming 0 0 0 0 false
    let v : W64 := 1
    Safety.writable s (F.PAIR_CTL_CLAIM.off []) = true ∧ fget v 0 1 = 1 ∧ s.mirrored = true ∧ s.hasTether = true ∧ s.pair.role ≠ 1 ∧
      s.pair.claim = 0 ∧ s.ballastOn = false ∧ s.pair.partner = false) ∧
    (let s : State := claiming 0 3 2 0 true
    let v : W64 := 1
    Safety.writable s (F.PAIR_CTL_CLAIM.off []) = true ∧ fget v 0 1 = 1 ∧ s.mirrored = true ∧ s.hasTether = true ∧ s.pair.role ≠ 1 ∧
      s.pair.claim = 0 ∧ s.ballastOn = false ∧ s.pair.partner = true ∧ s.rf F.PAIR_STAT_RING ≠ 1) ∧
    (let s : State := claiming 1 3 2 0 true
    let v : W64 := 1
    Safety.writable s (F.PAIR_CTL_CLAIM.off []) = true ∧ fget v 0 1 = 1 ∧ s.mirrored = true ∧ s.hasTether = true ∧ s.pair.role ≠ 1 ∧
      s.pair.claim = 0 ∧ s.ballastOn = false ∧ s.pair.partner = true ∧ s.rf F.PAIR_STAT_RING = 1) := by decide +kernel
theorem wit_ActiveRole_2 :
    (let s : State := claiming 0 3 1 0 true
    let v : W64 := 0
    Safety.writable s (F.PAIR_CTL_CLAIM.off []) = true ∧ fget v 0 1 = 0 ∧ s.pair.state ≠ 0) ∧
    (let s : State := claiming 0 0 1 0 true
    let v : W64 := 0
    Safety.writable s (F.PAIR_CTL_CLAIM.off []) = true ∧ fget v 0 1 = 0 ∧ s.pair.state = 0 ∧ s.mirrored = true) := by decide +kernel
theorem wit_ActiveRole_3 :
    let s : State := claiming 0 3 0 1 true
    s.pair.claim = 1 ∧ s.pair.claimAt + 2000 ≤ 2005 ∧ s.pair.claimFor = 0 := by decide +kernel
theorem wit_ActiveRole_4 :
    (let s : State := claiming 0 3 0 2 false
    s.pair.claim = 2 ∧ s.pair.partner = false ∧ s.pair.claimAt + 5000 ≤ 5005 ∧ s.ballastOn = false ∧ s.pair.claimFor = 0) ∧
    (let s : State := { claiming 0 3 0 2 false with pair := { (claiming 0 3 0 2 false).pair with claimFor := 3 } }
    s.pair.claim = 2 ∧ s.pair.partner = false ∧ s.pair.claimAt + 5000 ≤ 5005 ∧ s.ballastOn = false ∧ s.pair.claimFor = 3) ∧
    (let s : State := { claiming 0 3 0 2 false with pair := { (claiming 0 3 0 2 false).pair with claimFor := 2 } }
    s.pair.claim = 2 ∧ s.pair.partner = false ∧ s.pair.claimAt + 5000 ≤ 5005 ∧ s.ballastOn = false ∧
      (s.pair.claimFor = 1 ∨ s.pair.claimFor = 2 ∨ s.pair.claimFor = 4)) := by decide +kernel
theorem wit_ActiveRole_5 :
    let s : State := claiming 0 2 2 0 true
    s.pair.partner = true ∧ s.pair.role = 2 ∧ s.pair.state = 2 ∧ s.pair.claim = 0 := by decide +kernel
theorem wit_ActiveRole_6 :
    (let s : State := claiming 0 3 2 0 true
    s.pair.partner = true ∧ ¬ (s.pair.role = 2 ∧ s.pair.state = 2)) ∧
    (let s : State := claiming 0 2 0 1 true
    s.pair.partner = true ∧ ¬ (s.pair.role = 2 ∧ s.pair.state = 2)) := by decide +kernel
theorem wit_ActiveRole_7 :
    (let s : State := claiming 1 3 2 1 false
    s.pair.partner = false ∧ (s.pair.claim ≠ 2 ∨ s.rf F.PAIR_STAT_RING ≠ 1)) ∧
    (let s : State := claiming 0 3 2 2 false
    s.pair.partner = false ∧ (s.pair.claim ≠ 2 ∨ s.rf F.PAIR_STAT_RING ≠ 1)) := by decide +kernel
theorem wit_ActiveRole_8 :
    let s : State := claiming 1 3 2 2 false
    s.pair.partner = false ∧ s.pair.claim = 2 ∧ s.rf F.PAIR_STAT_RING = 1 ∧ s.pair.claimFor = 0 := by decide +kernel

/-! ### MirrorPair -/

/-- A mirrored chip with its pair's state and role, its link to the partner up or not, and a descriptor in flight. -/
def joining (d : Desc) (state role : Nat) (up : Bool) : State :=
  let s : State := { ((holding d).setRf F.PAIR_STAT_MIRRORED [] 1).setRf F.CAPS_LIVE_TETHER_LIVE [] 1 with
    pair := { State.reset.pair with state := state, role := role } }
  if up then s.upLk 2 (fun l => { l with state := 2 }) else s
theorem wit_MirrorPair_1 :
    (let d := desc 0x68 (zeros 48)
    let s : State := holding d
    Safety.ready s 0 0 0x68 d ∧ (s.hasTether = false ∨ s.mirrored = false)) ∧
    (let d := desc 0x68 (zeros 48)
    let s : State := joining d 0 0 false
    Safety.ready s 0 0 0x68 d ∧ s.hasTether = true ∧ s.mirrored = true ∧ zeroes d.bytes 16 48 = true ∧ s.linkUp 2 = false) ∧
    (let d := desc 0x68 (zeros 48)
    let s : State := joining d 3 1 true
    Safety.ready s 0 0 0x68 d ∧ s.hasTether = true ∧ s.mirrored = true ∧ zeroes d.bytes 16 48 = true ∧ s.linkUp 2 = true ∧
      s.pair.state = 3) ∧
    (let d := desc 0x68 (zeros 48)
    let s : State := joining d 2 1 true
    Safety.ready s 0 0 0x68 d ∧ s.hasTether = true ∧ s.mirrored = true ∧ zeroes d.bytes 16 48 = true ∧ s.linkUp 2 = true ∧
      s.pair.state ≠ 3 ∧ s.pair.state ≠ 0 ∧ ¬ (s.pair.state = 4 ∧ s.pair.role = 2 ∧ s.pair.was = false)) := by decide +kernel
theorem wit_MirrorPair_1_b :
    (let d := desc 0x68 (zeros 48)
    let s : State := joining d 0 0 true
    Safety.ready s 0 0 0x68 d ∧ s.hasTether = true ∧ s.mirrored = true ∧ zeroes d.bytes 16 48 = true ∧ s.linkUp 2 = true ∧
      (s.pair.state = 0 ∨ (s.pair.state = 4 ∧ s.pair.role = 2 ∧ s.pair.was = false))) ∧
    (let d := desc 0x68 (zeros 48)
    let s : State := joining d 4 2 true
    Safety.ready s 0 0 0x68 d ∧ s.hasTether = true ∧ s.mirrored = true ∧ zeroes d.bytes 16 48 = true ∧ s.linkUp 2 = true ∧
      (s.pair.state = 0 ∨ (s.pair.state = 4 ∧ s.pair.role = 2 ∧ s.pair.was = false)) ∧ s.pair.was = false) := by decide +kernel
theorem wit_MirrorPair_2 :
    (let d := desc 0x69 (zeros 48)
    let s : State := joining d 3 1 true
    Safety.ready s 0 0 0x69 d ∧ s.pair.state ≠ 0 ∧ zeroes d.bytes 16 48 = true ∧ s.paddock.tasks = []) ∧
    (let d := desc 0x69 (zeros 48)
    let s : State := joining d 2 2 true
    Safety.ready s 0 0 0x69 d ∧ s.pair.state ≠ 0 ∧ zeroes d.bytes 16 48 = true ∧ s.paddock.tasks = []) ∧
    (let d := desc 0x69 (zeros 48)
    let s : State := joining d 4 2 true
    Safety.ready s 0 0 0x69 d ∧ s.pair.state ≠ 0 ∧ zeroes d.bytes 16 48 = true ∧ s.paddock.tasks = []) ∧
    (let d := desc 0x69 (zeros 48)
    let s : State := joining d 1 0 true
    Safety.ready s 0 0 0x69 d ∧ s.pair.state ≠ 0 ∧ zeroes d.bytes 16 48 = true ∧ s.paddock.tasks = []) ∧
    (let d := desc 0x69 (zeros 48)
    let s : State := { joining d 2 2 true with pair := { (joining d 2 2 true).pair with claim := 1, drive := true } }
    Safety.ready s 0 0 0x69 d ∧ s.pair.state ≠ 0 ∧ zeroes d.bytes 16 48 = true ∧ s.paddock.tasks = [] ∧ s.pair.role = 2 ∧
      s.pair.claim ≠ 0) := by decide +kernel
/-- A standby of a pair in a state, exposed after it was protected, whose partner's line has been high since 4 ns, with a queue. -/
def standby (state : Nat) (q : List MItem) : State :=
  { paired 0 with pair := { State.reset.pair with state := state, role := 2, was := true, partner := false, highSince := some 4, queue := q } }
theorem wit_MirrorPair_3 :
    (let d := desc 0x6A (zeros 48)
    let s : State := joining d 3 2 true
    Safety.ready s 0 0 0x6A d ∧ (s.pair.role ≠ 1 ∨ s.pair.state ≠ 3 ∨ zeroes d.bytes 16 48 = false)) ∧
    (let d := desc 0x6A (zeros 48)
    let s : State := joining d 3 1 true
    Safety.ready s 0 0 0x6A d ∧ s.pair.role = 1 ∧ s.pair.state = 3 ∧ zeroes d.bytes 16 48 = true) := by decide +kernel
theorem wit_MirrorPair_4 :
    (let s : State := standby 3 []
    s.pair.role = 2 ∧ s.pair.partner = false ∧ s.pair.highSince = some 4 ∧ 4 + 20000 ≤ 20004 ∧ (s.pair.state = 3 ∨ (s.pair.state = 4 ∧
      s.pair.was = true)) ∧ s.ballastOn = false ∧ s.pair.claim = 0 ∧ s.pair.queue = [] ∧ s.paddock.tasks = []) ∧
    (let s : State := standby 4 [{ kind := 9, key := [3, 1] }]
    s.pair.role = 2 ∧ s.pair.partner = false ∧ s.pair.highSince = some 4 ∧ 4 + 20000 ≤ 20004 ∧ (s.pair.state = 3 ∨ (s.pair.state = 4 ∧
      s.pair.was = true)) ∧ s.ballastOn = false ∧ s.pair.claim = 0) := by decide +kernel
/-- A Packet of the ring or of Tether with these fields. -/
def pkt (l : List Nat) : PlPacket := { typ := 0x33, seq := 0, fields := l }
/-- A mirrored chip whose link n is up. -/
def upOn (n : Nat) : State := (awake.setRf F.CAPS_LIVE_TETHER_LIVE [] 1).upLk n (fun l => { l with state := 2 })
theorem wit_MirrorPair_5 :
    (let i : MItem := { kind := 2, key := [3, 1, 2] }
    let s : State := standby 3 [i]
    let r : List MItem := []
    s.pair.queue = i :: r ∧ i.kind = 2) ∧
    (let i : MItem := { kind := 4, key := [7], data := [1, 2] }
    let s : State := standby 3 [i]
    let r : List MItem := []
    s.pair.queue = i :: r ∧ i.kind = 4) ∧
    (let i : MItem := { kind := 9, key := [3, 1] }
    let s : State := standby 3 [i]
    let r : List MItem := []
    s.pair.queue = i :: r ∧ i.kind = 9) := by decide +kernel
theorem wit_MirrorPair_6 :
    (let u := (((upOn 2)).at 5).accept 2 (pkt [0, 1, 9, 3, 1]) |>.1
    let s : State := upOn 2
    let p : PlPacket := pkt [0, 1, 9, 3, 1]
    isPkt p = true ∧ p.fields.getD 1 0 = 1 ∧ ((s.at 5).accept 2 p).2 = true ∧ ((s.at 5).accept 2 p).1.hasTether = true ∧
      p.fields.getD 2 0 ≠ 0 ∧ u.pair.partial' = none) ∧
    (let u := (((upOn 2)).at 5).accept 2 (pkt [0, 1, 0, 3, 1]) |>.1
    let s : State := upOn 2
    let p : PlPacket := pkt [0, 1, 0, 3, 1]
    isPkt p = true ∧ p.fields.getD 1 0 = 1 ∧ ((s.at 5).accept 2 p).2 = true ∧ ((s.at 5).accept 2 p).1.hasTether = true ∧
      p.fields.getD 2 0 = 0 ∧ u.pair.partial' = none) ∧
    (let u := (({ upOn 2 with pair := { awake.pair with partial' := some { kind := 8, key := [2] } } }).at 5).accept 2 (pkt [0, 1, 9, 3, 3, 1]) |>.1
    let s : State := { upOn 2 with pair := { awake.pair with partial' := some { kind := 8, key := [2] } } }
    let p : PlPacket := pkt [0, 1, 9, 3, 3, 1]
    isPkt p = true ∧ p.fields.getD 1 0 = 1 ∧ ((s.at 5).accept 2 p).2 = true ∧ ((s.at 5).accept 2 p).1.hasTether = true ∧
      p.fields.getD 2 0 ≠ 0 ∧ u.pair.partial' = some { kind := 8, key := [2] }) ∧
    (let u := (({ upOn 2 with pair := { awake.pair with partial' := some { kind := 8, key := [2] } } }).at 5).accept 2 (pkt [0, 1, 0, 3, 3, 1]) |>.1
    let s : State := { upOn 2 with pair := { awake.pair with partial' := some { kind := 8, key := [2] } } }
    let p : PlPacket := pkt [0, 1, 0, 3, 3, 1]
    isPkt p = true ∧ p.fields.getD 1 0 = 1 ∧ ((s.at 5).accept 2 p).2 = true ∧ ((s.at 5).accept 2 p).1.hasTether = true ∧
      p.fields.getD 2 0 = 0 ∧ u.pair.partial' = some { kind := 8, key := [2] }) := by decide +kernel
theorem wit_MirrorPair_6_b :
    let s : State := awake
    let p : PlPacket := pkt [0, 1, 9, 3, 1]
    isPkt p = true ∧ p.fields.getD 1 0 = 1 ∧ ((s.at 5).accept 2 p).2 = false := by decide +kernel
theorem wit_MirrorPair_7 :
    (let u := ((upOn 1).at 5).accept 1 (pkt [0, 4, 3]) |>.1
    let s : State := upOn 1
    let p : PlPacket := pkt [0, 4, 3]
    isPkt p = true ∧ p.fields.getD 1 0 = 4 ∧ p.fields.getD 2 0 = 3 ∧ 1 < 2 ∧
      (((s.at 5).accept 1 p).2 = false ∨ p.fields.getD 0 0 = u.pos)) ∧
    (let u := ((upOn 1).at 5).accept 1 (pkt [7, 4, 3]) |>.1
    let s : State := upOn 1
    let p : PlPacket := pkt [7, 4, 3]
    isPkt p = true ∧ p.fields.getD 1 0 = 4 ∧ p.fields.getD 2 0 = 3 ∧ 1 < 2 ∧ ((s.at 5).accept 1 p).2 = true ∧ p.fields.getD 0 0 ≠ u.pos) := by decide +kernel
/-- A block of the link: its six bytes b and their CRC. -/
def block (b : Nat) : W64 := BitVec.ofNat 64 (b + crc16 (leBytes 6 b) * 2 ^ 48)
theorem wit_MirrorPair_8 :
    (let p : PlPacket := pkt [7, 0]
    isPkt p = true ∧ (p.fields.getD 1 0 = 0 ∨ 5 ≤ p.fields.getD 1 0)) ∧
    (let p : PlPacket := pkt [7, 5]
    isPkt p = true ∧ (p.fields.getD 1 0 = 0 ∨ 5 ≤ p.fields.getD 1 0)) := by decide +kernel
theorem wit_MirrorPair_9 :
    let s : State := upOn 1
    let v : W64 := block (0x4B + 3 * 2 ^ 8)
    s.linkUp 1 = true ∧ fget v 0 8 = 0x4B ∧ blockOk v = true ∧ 1 ≠ 2 := by decide +kernel

/-! ### LinksTrain -/

theorem wit_LinksTrain_1 :
    (let s : State := awake
    let v : W64 := 1
    Safety.writable s (F.PL_CTL_EN.off [3]) = true ∧ 3 < 4 ∧ s.hasLink 3 = true ∧ Safety.shaped s ∧ fget v 0 1 = 1 ∧
      s.rb F.PL_CTL_EN [3] = false) ∧
    (let s : State := awake.setRf F.PL_CTL_EN [3] 1
    let v : W64 := 0
    Safety.writable s (F.PL_CTL_EN.off [3]) = true ∧ 3 < 4 ∧ s.hasLink 3 = true ∧ Safety.shaped s ∧ fget v 0 1 = 0 ∧
      s.rb F.PL_CTL_EN [3] = true) := by decide +kernel
/-- A TRAIN block of lane k with burst index i. -/
def trainV (k i : Nat) : W64 := block (0x2D + 3 * 2 ^ 8 + 2 * 2 ^ 13 + k * 2 ^ 15 + i * 2 ^ 18 + 0x5AC3E1 * 2 ^ 24)
/-- A state whose lane 0.1 trains, expects index i, after some bursts. -/
def inTraining (i bursts : Nat) : State := awake.upLane 0 1 (fun x => { x with training := true, idx := i, bursts := bursts })
theorem wit_LinksTrain_2 :
    let s : State := (awake.setRf F.PL_CTL_EN [3] 1).upLk 3 (fun l => { l with state := 4, downAt := 1 })
    (s.lk 3).state = 4 ∧ s.rb F.PL_CTL_EN [3] = true ∧ s.clk.lref = true ∧ s.clk.lrefHold = false ∧
      (s.lk 3).downAt + 10000000 ≤ 10000001 := by decide +kernel
theorem wit_LinksTrain_3 :
    (let s : State := inTraining 63 15
    let v : W64 := trainV 1 63 ^^^ 1
    s.hasLink 0 = true ∧ 1 < 4 ∧ (fget v 0 8 ≠ 0x2D ∨ fget v 24 24 ≠ 0x5AC3E1 ∨ blockOk v = false)) ∧
    (let s : State := inTraining 62 0
    let v : W64 := trainV 1 62
    s.hasLink 0 = true ∧ 1 < 4 ∧ fget v 0 8 = 0x2D ∧ fget v 24 24 = 0x5AC3E1 ∧ blockOk v = true ∧ s.power.lull = 0 ∧
      (s.lane 0 1).training = true ∧ fget v 15 2 = 1 ∧ fget v 17 1 = (s.lane 0 1).setting ∧ fget v 18 6 = (s.lane 0 1).idx ∧
      0 < s.links.length ∧ 1 < (s.lk 0).lanes.length ∧ fget v 18 6 < 63) := by decide +kernel
theorem wit_LinksTrain_3_b :
    let s : State := inTraining 63 14
    let v : W64 := trainV 1 63
    s.hasLink 0 = true ∧ 1 < 4 ∧ fget v 0 8 = 0x2D ∧ fget v 24 24 = 0x5AC3E1 ∧ blockOk v = true ∧ s.power.lull = 0 ∧
      (s.lane 0 1).training = true ∧ fget v 15 2 = 1 ∧ fget v 17 1 = (s.lane 0 1).setting ∧ fget v 18 6 = (s.lane 0 1).idx ∧
      0 < s.links.length ∧ 1 < (s.lk 0).lanes.length ∧ fget v 18 6 = 63 ∧ (s.lane 0 1).bursts + 1 < 16 := by decide +kernel
theorem wit_LinksTrain_3_c :
    let s : State := inTraining 63 15
    let v : W64 := trainV 1 63
    s.hasLink 0 = true ∧ 1 < 4 ∧ fget v 0 8 = 0x2D ∧ fget v 24 24 = 0x5AC3E1 ∧ blockOk v = true ∧ s.power.lull = 0 ∧
      (s.lane 0 1).training = true ∧ fget v 15 2 = 1 ∧ fget v 17 1 = (s.lane 0 1).setting ∧ fget v 18 6 = (s.lane 0 1).idx ∧
      0 < s.links.length ∧ 1 < (s.lk 0).lanes.length ∧ fget v 18 6 = 63 ∧ 16 ≤ (s.lane 0 1).bursts + 1 := by decide +kernel
theorem wit_LinksTrain_4 :
    (let s : State := (inTraining 62 0).upLane 0 1 (fun x => { x with attemptAt := 9, lost := true })
    (s.lane 0 1).training = true ∧ (s.lane 0 1).attemptAt + 300000 ≤ 300009 ∧ s.rf F.PL_LANE_ATTEMPTS [0, 1] < 6 ∧ 0 < s.links.length ∧
      1 < (s.lk 0).lanes.length) ∧
    (let s : State := ((inTraining 62 0).setRf F.PL_LANE_ATTEMPTS [0, 1] 6).upLane 0 1 (fun x => { x with attemptAt := 9 })
    (s.lane 0 1).training = true ∧ (s.lane 0 1).attemptAt + 300000 ≤ 300009 ∧ 6 ≤ s.rf F.PL_LANE_ATTEMPTS [0, 1]) := by decide +kernel
theorem wit_LinksTrain_6 :
    let s : State := awake.upLk 3 (fun l => { l with state := 2, lanes := l.lanes.modify 0 (fun x => { x with errs := List.replicate 16 5 }) })
    16 ≤ ((s.lane 3 0).errs.filter (fun e => 2634 ≤ e + 2629)).length := by decide +kernel
theorem wit_LinksTrain_7 :
    let s : State := awake.upLk 3 (fun l => { l with state := 2 })
    s.linkUp 3 = true := by decide +kernel
theorem wit_LinksTrain_8 :
    (let s : State := (inTraining 62 0).upLane 0 1 (fun x => { x with lost := true })
    (s.lane 0 1).training = true ∧ ((s.lane 0 1).lost = true ∨ (s.lane 0 1).revive ≠ none)) ∧
    (let s : State := (inTraining 62 0).upLane 0 1 (fun x => { x with revive := some (0, 0) })
    (s.lane 0 1).training = true ∧ ((s.lane 0 1).lost = true ∨ (s.lane 0 1).revive ≠ none)) := by decide +kernel
/-- A LANE_REVIVE of lane 2 of link 1, which is retired. -/
def reviveDesc : Desc := desc 0x60 ([1, 4] ++ zeros 46)
def reviving : State := ((holding reviveDesc).setRf F.PL_STAT_RETIRED [1] 4).setRf F.PL_CTL_EN [1] 1
theorem wit_LinksTrain_9 :
    let s : State := awake.upLk 3 (fun l => { l with state := 2 })
    s.hasLink 3 = true ∧ 3 < 4 ∧ (s.lk 3).state ≠ 0 ∧ 3 < s.links.length ∧ 3 < (s.lk 3).lanes.length ∧ (s.lane 3 3).errs = [] := by decide +kernel
theorem wit_LinksTrain_10 :
    (let n : Nat := 4
    let s : State := holding (desc 0x60 [4])
    let d : Desc := desc 0x60 [4]
    Safety.ready s 0 0 0x60 d ∧ (s.hasLink n = false ∨ 4 ≤ n)) ∧
    (let n : Nat := 1
    let ks : List Nat := [2]
    let s : State := holding reviveDesc
    let d : Desc := reviveDesc
    Safety.ready s 0 0 0x60 d ∧ s.hasLink n = true ∧ n < 4 ∧
      (s.rb F.PL_CTL_EN [n] = false ∨ ks = [] ∨ 16 ≤ fld d.bytes 17 1 ∨ zeroes d.bytes 18 46 = false)) ∧
    (let n : Nat := 1
    let ks : List Nat := [2]
    let s : State := reviving
    let d : Desc := reviveDesc
    Safety.ready s 0 0 0x60 d ∧ s.hasLink n = true ∧ n < 4 ∧ s.rb F.PL_CTL_EN [n] = true ∧ ks ≠ [] ∧ fld d.bytes 17 1 < 16 ∧
      zeroes d.bytes 18 46 = true) ∧
    (let n : Nat := 1
    let ks : List Nat := [2]
    let s : State := reviving.upLk 1 (fun l => { l with state := 4 })
    let d : Desc := reviveDesc
    Safety.ready s 0 0 0x60 d ∧ s.hasLink n = true ∧ n < 4 ∧ s.rb F.PL_CTL_EN [n] = true ∧ ks ≠ [] ∧ fld d.bytes 17 1 < 16 ∧
      zeroes d.bytes 18 46 = true) := by decide +kernel
/-- A chip on a ring of three with both ring links up, and a descriptor in flight. -/
def ringed (d : Desc) : State := (((holding d).setRf F.RING_CFG_N [] 3).upLk 0 (fun l => { l with state := 2 })).upLk 1 (fun l => { l with state := 2 })
def alignDesc : Desc := desc 0x61 (zeros 48)
def ring3 : State := ringed alignDesc
theorem wit_LinksTrain_11 :
    (let s : State := awake
    let v : W64 := 0x45
    Safety.writable s (F.RING_CFG_POS.off []) = true ∧ fget v 5 6 ≤ fget v 0 5) ∧
    (let s : State := { awake with pair := { awake.pair with state := 3 } }
    let v : W64 := 0x41
    Safety.writable s (F.RING_CFG_POS.off []) = true ∧ fget v 0 5 < fget v 5 6 ∧ (fget v 0 5 ≠ s.pos ∨ fget v 5 6 ≠ s.ringLen) ∧
      s.ringCfgHeld = true) ∧
    (let s : State := awake
    let v : W64 := 0x41
    Safety.writable s (F.RING_CFG_POS.off []) = true ∧ fget v 0 5 < fget v 5 6 ∧ (fget v 0 5 ≠ s.pos ∨ fget v 5 6 ≠ s.ringLen) ∧
      s.ringCfgHeld = false ∧ (∀ n < 4, s.rb F.PL_CTL_EN [n] = false) ∧ (s.lk 2).state ≠ 5) ∧
    (let s : State := ring3
    let v : W64 := 0x860
    Safety.writable s (F.RING_CFG_POS.off []) = true ∧ fget v 0 5 < fget v 5 6 ∧ fget v 0 5 = s.pos ∧ fget v 5 6 = s.ringLen ∧
      (∀ n < 4, (s.lk n).state ≠ 5)) ∧
    (let s : State := ring3
    let v : W64 := 0x060
    Safety.writable s (F.RING_CFG_POS.off []) = true ∧ fget v 0 5 < fget v 5 6 ∧ fget v 0 5 = s.pos ∧ fget v 5 6 = s.ringLen ∧
      (∀ n < 4, (s.lk n).state ≠ 5)) := by decide +kernel

/-! ### LinkWidths -/

/-- A state whose link 3 is up with a width change of its own in progress. -/
def widening (w : WidthX) : State :=
  awake.upLk 3 (fun l => { l with state := 2, width := some w, active := 15, lanes := l.lanes.map (fun x => { x with locked := true }) })
def widthX : WidthX := { mine := 15, token := 7, sentAt := 5 }
theorem wit_LinkWidths_1 :
    (let s : State := widening widthX
    let v : W64 := block (0x5A + 15 * 2 ^ 8 + 7 * 2 ^ 16 + 1 * 2 ^ 24)
    let w : WidthX := widthX
    s.linkUp 3 = true ∧ fget v 0 8 = 0x5A ∧ blockOk v = true ∧ 3 < s.links.length ∧ (s.lk 3).width = some w ∧
      activeOf (fget v 8 4 &&& s.goodLanes 3) ≠ 0 ∧ w.agreed = none ∧ fget v 24 1 = 1 ∧ fget v 16 8 = w.token) ∧
    (let s : State := widening widthX
    let v : W64 := block (0x5A + 15 * 2 ^ 8)
    let w : WidthX := widthX
    s.linkUp 3 = true ∧ fget v 0 8 = 0x5A ∧ blockOk v = true ∧ 3 < s.links.length ∧ (s.lk 3).width = some w ∧
      activeOf (fget v 8 4 &&& s.goodLanes 3) ≠ 0 ∧ w.agreed = none ∧ fget v 24 1 = 0) ∧
    (let s : State := widening { widthX with agreed := some (3, 9) }
    let v : W64 := block (0x5A + 12 * 2 ^ 8 + 9 * 2 ^ 16)
    let w : WidthX := { widthX with agreed := some (3, 9) }
    s.linkUp 3 = true ∧ fget v 0 8 = 0x5A ∧ blockOk v = true ∧ 3 < s.links.length ∧ (s.lk 3).width = some w ∧
      activeOf (fget v 8 4 &&& s.goodLanes 3) ≠ 0 ∧ w.agreed ≠ none ∧ fget v 24 1 = 0) := by decide +kernel
theorem wit_LinkWidths_2 :
    (let s : State := upOn 3
    let v : W64 := block (0x5A + 2 ^ 8) ^^^ 2 ^ 60
    s.linkUp 3 = true ∧ blockOk v = false ∧ fget v 0 8 = 0x5A) ∧
    (let s : State := upOn 3
    let v : W64 := block (0x4B + 2 ^ 8) ^^^ 2 ^ 60
    s.linkUp 3 = true ∧ blockOk v = false ∧ fget v 0 8 = 0x4B) ∧
    (let s : State := upOn 3
    let v : W64 := block (0x55 + 2 ^ 8) ^^^ 2 ^ 60
    s.linkUp 3 = true ∧ blockOk v = false ∧ fget v 0 8 = 0x55) ∧
    (let s : State := widening widthX
    let v : W64 := block 0x5A ^^^ 2 ^ 60
    s.linkUp 3 = true ∧ blockOk v = false ∧ (s.lk 3).active % 16 ≠ 0) := by decide +kernel
theorem wit_LinkWidths_3 :
    (let s : State := widening widthX
    let w : WidthX := widthX
    (s.lk 3).width = some w ∧ w.agreed = none ∧ w.sentAt + 4000 ≤ 4005 ∧ 3 < s.links.length ∧ w.sends < 3) ∧
    (let s : State := widening { widthX with sends := 3 }
    let w : WidthX := { widthX with sends := 3 }
    (s.lk 3).width = some w ∧ w.agreed = none ∧ w.sentAt + 4000 ≤ 4005 ∧ 3 < s.links.length ∧ 3 ≤ w.sends) := by decide +kernel
theorem wit_LinkWidths_4 :
    let s : State := widening { widthX with agreed := some (3, 9) }
    let w : WidthX := { widthX with agreed := some (3, 9) }
    (s.lk 3).width = some w ∧ w.agreed = some (3, 9) ∧ 9 + 328 ≤ 337 ∧ 3 < s.links.length ∧ s.paddock.tasks = [] ∧
      (∀ x ∈ (s.lk 3).lanes, x.revive = none) ∧ (s.lk 3).rejoin = 0 := by decide +kernel

/-! ### LinkBlocks -/

theorem wit_LinkBlocks_1 :
    (let s : State := awake.upLk 3 (fun l => { l with state := 2, unacked := some 4 })
    (s.lk 3).unacked = some 4 ∧ 4 + 655 ≤ 659 ∧ s.linkUp 3 = true ∧ 3 < s.links.length) ∧
    (let s : State := awake.upLk 3 (fun l => { l with state := 3, unacked := some 4, active := 3 })
    (s.lk 3).unacked = some 4 ∧ 4 + 655 ≤ 659 ∧ s.linkUp 3 = true ∧ 3 < s.links.length) := by decide +kernel
theorem wit_LinkBlocks_2 :
    (let s : State := awake.upLk 3 (fun l => { l with state := 2 })
    let v : W64 := block (0x55 + 2 * 2 ^ 8 + 1 * 2 ^ 24)
    s.linkUp 3 = true ∧ fget v 0 8 = 0x55 ∧ blockOk v = true ∧ (s.lk 3).waitq = [] ∧ 3 < s.links.length) ∧
    (let s : State := awake.upLk 3 (fun l => { l with state := 2, replay := [{ typ := 0x33, seq := 1, fields := [] }, { typ := 0x33, seq := 2, fields := [] }], express := [{ typ := 0x66, seq := 1, fields := [] }] })
    let v : W64 := block (0x55 + 2 * 2 ^ 8 + 1 * 2 ^ 24)
    s.linkUp 3 = true ∧ fget v 0 8 = 0x55 ∧ blockOk v = true ∧ (s.lk 3).waitq = [] ∧ 3 < s.links.length) := by decide +kernel
theorem wit_LinkBlocks_3 :
    (let s : State := upOn 3
    (s.lk 3).state = 2 ∧ 3 < s.links.length ∧ s.idleTimer 3 = true ∧ (s.lk 3).idleSince + 1000 * s.rf F.PL_CTL_EI_US [3] ≤ 50000) ∧
    (let s : State := upOn 3
    let v : W64 := 0xAA
    (s.lk 3).state = 2 ∧ 3 < s.links.length ∧ fget v 0 8 = 0xAA ∧ s.mayIdle 3 = true) ∧
    (let s : State := { upOn 3 with sites := [(7, { id := 7, xchip := true, slices := [0], leader := 0 })] }
    let v : W64 := 0xAA
    (s.lk 3).state = 2 ∧ 3 < s.links.length ∧ fget v 0 8 = 0xAA ∧ s.mayIdle 3 = false) ∧
    (let s : State := widening widthX
    let v : W64 := 0xAA
    let k := 3
    (s.lk 3).state = 2 ∧ 3 < s.links.length ∧ fget v 0 8 = 0xAA ∧ (s.lk 3).active.testBit k = true ∧ k < (s.lk 3).lanes.length) ∧
    (let s : State := upOn 3
    (s.lk 3).state = 2 ∧ 3 < s.links.length ∧ (s.lk 3).markerAt + 41943 ≤ 41943) ∧
    (let s : State := upOn 3
    (s.lk 3).state = 2 ∧ 3 < s.links.length ∧ 41942 < (s.lk 3).markerAt + 41943) := by decide +kernel
theorem wit_LinkBlocks_4 :
    let s : State := awake.upLk 3 (fun l => { l with state := 3, active := 3 })
    (s.lk 3).state = 3 ∧ s.power.lull = 0 ∧ 3 < s.links.length := by decide +kernel
theorem wit_LinkBlocks_5 :
    let s : State := widening widthX
    (s.lk 3).state = 2 ∧ (s.goodLanes 3).testBit 3 = true ∧ (s.lane 3 3).heardAt + 2622 ≤ 2622 ∧ 3 < s.links.length ∧
      3 < (s.lk 3).lanes.length := by decide +kernel
theorem wit_LinkBlocks_6 :
    let s : State := widening widthX
    let marks : List (Option Nat) := [some 9, some 9, none, some 9]
    let c : Option Nat := some 9
    s.linkUp 3 = true ∧ (bitList 4 (s.lk 3).active).length < 2 * (bitList 4 (s.lk 3).active).countP (fun j => marks.getD j none = c) := by decide +kernel

/-! ### RingTraffic -/

theorem wit_RingTraffic_1 :
    (let s : State := holding alignDesc
    let d : Desc := alignDesc
    Safety.ready s 0 0 0x61 d ∧ (s.pos ≠ 0 ∨ s.ringLen ≤ 1 ∨ zeroes d.bytes 16 48 = false)) ∧
    (let s : State := (holding alignDesc).setRf F.RING_CFG_N [] 3
    let d : Desc := alignDesc
    Safety.ready s 0 0 0x61 d ∧ s.pos = 0 ∧ 1 < s.ringLen ∧ zeroes d.bytes 16 48 = true ∧ s.ringUp = false) ∧
    (let s : State := ring3
    let d : Desc := alignDesc
    Safety.ready s 0 0 0x61 d ∧ s.pos = 0 ∧ 1 < s.ringLen ∧ zeroes d.bytes 16 48 = true ∧ s.ringUp = true) := by decide +kernel
/-- A task of no core that waits for the acknowledgement of its SIGNAL. -/
def ackTask : Task := { state := 4, begun := true, flow := 1, step := 0 }
def awaiting : State := { ring3 with paddock := { ring3.paddock with tasks := [(9, ackTask)] } }
/-- An express message on link 1, and the state that has mirrored and forwarded it. -/
def express (y : Nat) (l : List Nat) : PlPacket := { typ := y, seq := 0, fields := l }
def passed (s : State) (p : PlPacket) : State :=
  ((((s.at 5).accept 1 p).1).mirror { kind := 8, key := p.typ :: p.fields.take 4 }).forward 1 p
/-- A burst of site 7, tag 2, of a site on several chips that this chip leads, not started; and its name in an express message. -/
def xBurst : Burst := { ent := .site 7, owner := .nobody, obj := 1, named := 1, mode := 0, prio := 1, arrival := 0, submitted := 0, tag := 2 }
def leading (b : Burst) : State := { ring3 with sites := [(7, { id := 7, xchip := true, slices := [0], leader := 0 })], bursts := [b] }
def nameX (status : Nat) : Nat := 7 + status * 2 ^ 16 + 2 * 2 ^ 32
theorem wit_RingTraffic_2 :
    (let p := pkt [2, 2, 0]
    let s : State := ring3
    isPkt p = true ∧ 1 < 2 ∧ ((s.at 5).accept 1 p).2 = true ∧ p.fields.getD 1 0 = 2 ∧ p.fields.getD 2 0 = s.pos ∧
      p.fields.getD 0 0 ≠ s.pos) ∧
    (let p := pkt [2, 2, 1]
    let u : State := ((ring3.at 5).accept 1 p).1
    let s : State := ring3
    isPkt p = true ∧ 1 < 2 ∧ ((s.at 5).accept 1 p).2 = true ∧ p.fields.getD 1 0 = 2 ∧
      (p.fields.getD 2 0 ≠ s.pos ∨ p.fields.getD 0 0 = s.pos) ∧ p.fields.getD 0 0 ≠ u.pos) ∧
    (let p := pkt [0, 2, 1, 5, 9, 2]
    let u : State := ((ring3.at 5).accept 1 p).1
    let s : State := ring3
    isPkt p = true ∧ 1 < 2 ∧ ((s.at 5).accept 1 p).2 = true ∧ p.fields.getD 1 0 = 2 ∧
      (p.fields.getD 2 0 ≠ s.pos ∨ p.fields.getD 0 0 = s.pos) ∧ p.fields.getD 0 0 = u.pos) ∧
    (let p := pkt [0, 2, 0, 5, 9, 2]
    let u : State := ((ring3.at 5).accept 1 p).1
    let s : State := ring3
    isPkt p = true ∧ 1 < 2 ∧ ((s.at 5).accept 1 p).2 = true ∧ p.fields.getD 1 0 = 2 ∧
      (p.fields.getD 2 0 ≠ s.pos ∨ p.fields.getD 0 0 = s.pos) ∧ p.fields.getD 0 0 = u.pos) := by decide +kernel
theorem wit_RingTraffic_2_b :
    (let p := pkt [2, 3, 1]
    let u : State := ((ring3.at 5).accept 1 p).1
    let s : State := ring3
    isPkt p = true ∧ 1 < 2 ∧ ((s.at 5).accept 1 p).2 = true ∧ p.fields.getD 1 0 = 3 ∧ p.fields.getD 0 0 ≠ u.pos) ∧
    (let p := pkt [0, 3, 9, 0]
    let u : State := ((awaiting.at 5).accept 1 p).1
    let s : State := awaiting
    let x := ackTask
    isPkt p = true ∧ 1 < 2 ∧ ((s.at 5).accept 1 p).2 = true ∧ p.fields.getD 1 0 = 3 ∧ p.fields.getD 0 0 = u.pos ∧
      u.task (p.fields.getD 2 0) = some x ∧ x.state = 4 ∧ x.wkind = 0 ∧ x.wmask = 0 ∧ x.begun = true ∧ x.ack = none ∧
      (p.fields.getD 3 0 = St.ok ∨ p.fields.getD 3 0 = St.noObject)) := by decide +kernel
theorem wit_RingTraffic_2_c :
    (let p := pkt [0, 3, 9, 0x12]
    let u : State := ((awaiting.at 5).accept 1 p).1
    let s : State := awaiting
    let x := ackTask
    isPkt p = true ∧ 1 < 2 ∧ ((s.at 5).accept 1 p).2 = true ∧ p.fields.getD 1 0 = 3 ∧ p.fields.getD 0 0 = u.pos ∧
      u.task (p.fields.getD 2 0) = some x ∧ x.state = 4 ∧ x.wkind = 0 ∧ x.wmask = 0 ∧ x.begun = true ∧ x.ack = none ∧
      (p.fields.getD 3 0 = St.ok ∨ p.fields.getD 3 0 = St.noObject)) ∧
    (let p := pkt [0, 3, 9, 0x40]
    let u : State := ((awaiting.at 5).accept 1 p).1
    let s : State := awaiting
    let x := ackTask
    isPkt p = true ∧ 1 < 2 ∧ ((s.at 5).accept 1 p).2 = true ∧ p.fields.getD 1 0 = 3 ∧ p.fields.getD 0 0 = u.pos ∧
      u.task (p.fields.getD 2 0) = some x ∧ x.state = 4 ∧ x.wkind = 0 ∧ x.wmask = 0 ∧ x.begun = true ∧ x.ack = none ∧
      p.fields.getD 3 0 ≠ St.ok ∧ p.fields.getD 3 0 ≠ St.noObject) := by decide +kernel
theorem wit_RingTraffic_2_d :
    (let p := pkt [2, 4, 1, 0, 0]
    let u : State := ((ring3.at 5).accept 1 p).1
    let s : State := ring3
    isPkt p = true ∧ 1 < 2 ∧ ((s.at 5).accept 1 p).2 = true ∧ p.fields.getD 1 0 = 4 ∧ (p.fields.getD 2 0 = 1 ∨ p.fields.getD 2 0 = 2) ∧
      p.fields.getD 0 0 ≠ u.pos) ∧
    (let p := pkt [0, 4, 2, 0, 0]
    let u : State := ((ring3.at 5).accept 1 p).1
    let s : State := ring3
    isPkt p = true ∧ 1 < 2 ∧ ((s.at 5).accept 1 p).2 = true ∧ p.fields.getD 1 0 = 4 ∧ (p.fields.getD 2 0 = 1 ∨ p.fields.getD 2 0 = 2) ∧
      p.fields.getD 0 0 = u.pos) := by decide +kernel
theorem wit_RingTraffic_3 :
    (let p := express 0x66 [2, 0, 0, 7]
    let w : State := passed ring3 p
    let b : Nat := p.fields.getD 3 0
    let s : State := ring3
    p.typ = 0x66 ∧ ((s.at 5).accept 1 p).2 = true ∧ p.fields.getD 1 0 = 0 ∧ w.named b = none) ∧
    (let p := express 0x66 [2, 0, 0, nameX 9]
    let w : State := passed (leading xBurst) p
    let b : Nat := p.fields.getD 3 0
    let x := xBurst
    let s : State := leading xBurst
    p.typ = 0x66 ∧ ((s.at 5).accept 1 p).2 = true ∧ p.fields.getD 1 0 = 0 ∧ w.named b = some x ∧ w.leads x.ent = true) ∧
    (let p := express 0x66 [2, 1, 0, 7]
    let w : State := passed ring3 p
    let b : Nat := p.fields.getD 3 0
    let s : State := ring3
    p.typ = 0x66 ∧ ((s.at 5).accept 1 p).2 = true ∧ p.fields.getD 1 0 = 1 ∧ w.named b = none) ∧
    (let p := express 0x66 [2, 1, 1000, nameX 9]
    let w : State := passed (leading xBurst) p
    let b : Nat := p.fields.getD 3 0
    let x := xBurst
    let s : State := leading xBurst
    p.typ = 0x66 ∧ ((s.at 5).accept 1 p).2 = true ∧ p.fields.getD 1 0 = 1 ∧ w.named b = some x ∧ x.running = false ∧ x.startAt = none ∧
      x.fin = none ∧ w.scaleT + 200000 ≤ 2000 * (nearest 40 (p.fields.getD 2 0) w.dtime : Int)) := by decide +kernel
theorem wit_RingTraffic_3_b :
    (let p := express 0x66 [2, 1, 0, nameX 9]
    let w : State := passed (leading xBurst) p
    let b : Nat := p.fields.getD 3 0
    let x := xBurst
    let s : State := leading xBurst
    p.typ = 0x66 ∧ ((s.at 5).accept 1 p).2 = true ∧ p.fields.getD 1 0 = 1 ∧ w.named b = some x ∧ x.running = false ∧ x.startAt = none ∧
      x.fin = none ∧ 2000 * (nearest 40 (p.fields.getD 2 0) w.dtime : Int) < w.scaleT + 200000) ∧
    (let p := express 0x66 [2, 2, 0, nameX 0]
    let w : State := passed (leading xBurst) p
    let b : Nat := p.fields.getD 3 0
    let s : State := leading xBurst
    p.typ = 0x66 ∧ ((s.at 5).accept 1 p).2 = true ∧ p.fields.getD 1 0 = 2 ∧ (w.named b = none ∨ isFailure (bitsOf b 16 8) = false)) ∧
    (let p := express 0x66 [2, 2, 0, nameX 0x21]
    let w : State := passed (leading xBurst) p
    let b : Nat := p.fields.getD 3 0
    let x := xBurst
    let s : State := leading xBurst
    p.typ = 0x66 ∧ ((s.at 5).accept 1 p).2 = true ∧ p.fields.getD 1 0 = 2 ∧ w.named b = some x ∧ isFailure (bitsOf b 16 8) = true) ∧
    (let p := express 0x66 [2, 2, 0, nameX 0x13]
    let w : State := passed (leading { xBurst with running := true }) p
    let b : Nat := p.fields.getD 3 0
    let x : Burst := { xBurst with running := true }
    let s : State := leading { xBurst with running := true }
    p.typ = 0x66 ∧ ((s.at 5).accept 1 p).2 = true ∧ p.fields.getD 1 0 = 2 ∧ w.named b = some x ∧ isFailure (bitsOf b 16 8) = true) ∧
    (let p := express 0x66 [2, 3, 0, nameX 0]
    let b : Nat := p.fields.getD 3 0
    let s : State := leading xBurst
    p.typ = 0x66 ∧ ((s.at 5).accept 1 p).2 = true ∧ p.fields.getD 1 0 = 3 ∧ isFailure (bitsOf b 16 8) = false) := by decide +kernel
theorem wit_RingTraffic_3_c :
    (let p := express 0x66 [2, 3, 0, 7 + 9 * 2 ^ 16]
    let w : State := passed ring3 p
    let b : Nat := p.fields.getD 3 0
    let s : State := ring3
    p.typ = 0x66 ∧ ((s.at 5).accept 1 p).2 = true ∧ p.fields.getD 1 0 = 3 ∧ w.named b = none) ∧
    (let p := express 0x66 [2, 3, 0, nameX 0x15]
    let w : State := passed (leading xBurst) p
    let b : Nat := p.fields.getD 3 0
    let x := xBurst
    let s : State := leading xBurst
    p.typ = 0x66 ∧ ((s.at 5).accept 1 p).2 = true ∧ p.fields.getD 1 0 = 3 ∧ w.named b = some x ∧ isFailure (bitsOf b 16 8) = true) := by decide +kernel
theorem wit_RingTraffic_4 :
    (let p := express 0x87 [2, 0, 3, nameX 9]
    let w : State := passed ring3 p
    let b : Nat := p.fields.getD 3 0
    let s : State := ring3
    p.typ = 0x87 ∧ ((s.at 5).accept 1 p).2 = true ∧ w.named b = none) ∧
    (let p := express 0x87 [2, 0, 3, nameX 9]
    let w : State := passed (leading xBurst) p
    let b : Nat := p.fields.getD 3 0
    let x := xBurst
    let s : State := leading xBurst
    p.typ = 0x87 ∧ ((s.at 5).accept 1 p).2 = true ∧ w.named b = some x ∧ (∀ g ∈ w.entSlices x.ent, (w.sl g).seq.decided = [])) ∧
    (let p := express 0x87 [2, 1, 3, nameX 9]
    let w : State := passed (leading xBurst) p
    let b : Nat := p.fields.getD 3 0
    let x := xBurst
    let s : State := leading xBurst
    p.typ = 0x87 ∧ ((s.at 5).accept 1 p).2 = true ∧ w.named b = some x ∧ (∀ g ∈ w.entSlices x.ent, (w.sl g).seq.decided = [])) := by decide +kernel
theorem wit_RingTraffic_5 :
    (let s : State := ring3
    let p : PlPacket := express 0x78 [2, 0, 3, 1]
    p.typ = 0x78 ∧ ((s.at 5).accept 1 p).2 = true) ∧
    (let s : State := ring3
    let p : PlPacket := express 0x78 [2, 5, 3, 1]
    p.typ = 0x78 ∧ ((s.at 5).accept 1 p).2 = true) := by decide +kernel
theorem wit_RingTraffic_6 :
    let p := express 0x99 [2, 0, 3, 1, 0]
    let u : State := ((ring3.at 5).accept 1 p).1
    let s : State := ring3
    p.typ = 0x99 ∧ ((s.at 5).accept 1 p).2 = true ∧ (u.lk 1).sentT = [] := by decide +kernel
theorem wit_RingTraffic_7 :
    let s : State := ring3
    Safety.shaped s := by decide +kernel

/-! ### RegisterAccess -/

/-- The row of the trigger units' source registers, and the offset of the last one. -/
def srcOff : Nat := F.CL_TRG_SRC_SRC.off [11, 7]
def srcRow : Row := ((findReg srcOff).map (·.1)).getD rowClTrgSrc
/-- The row and the offset of a register of 32 bits. -/
def narrowOff : Nat := F.RST_CTL_GO.off []
def narrowRow : Row := ((findReg narrowOff).map (·.1)).getD rowRstCtl
theorem wit_RegisterAccess_1 :
    (((3 ≠ 4 ∧ 3 ≠ 8) ∨ 12 % 3 ≠ 0)) ∧
    (((8 ≠ 4 ∧ 8 ≠ 8) ∨ 12 % 8 ≠ 0)) ∧
    (((4 ≠ 4 ∧ 4 ≠ 8) ∨ 2 % 4 ≠ 0)) := by decide +kernel
theorem wit_RegisterAccess_2 :
    (let s : State := awake
    let off : Nat := srcOff
    let v : W64 := 2^63 + 77
    let x : W64 := 2^63 + 77
    let r : Row := srcRow
    let is : List Nat := [11, 7]
    off < 2 ^ 21 ∧ off % 8 = 0 ∧ findReg off = some (r, is) ∧ ((r.wide = true ∧ 8 = 8 ∧ x = v) ∨ (r.wide = false ∧ (8 = 4 ∨ 8 = 8) ∧
      x = BitVec.ofNat 64 (v.toNat % 2 ^ 32))) ∧ Safety.writable s off = true) ∧
    (let s : State := awake
    let off : Nat := narrowOff
    let v : W64 := 2
    let x : W64 := 2
    let r : Row := narrowRow
    let is : List Nat := []
    off < 2 ^ 21 ∧ off % 4 = 0 ∧ findReg off = some (r, is) ∧ ((r.wide = true ∧ 4 = 8 ∧ x = v) ∨ (r.wide = false ∧ (4 = 4 ∨ 4 = 8) ∧
      x = BitVec.ofNat 64 (v.toNat % 2 ^ 32))) ∧ Safety.writable s off = true) ∧
    (let s : State := awake
    let off : Nat := narrowOff
    let v : W64 := 2 ^ 40 + 2
    let x : W64 := 2
    let r : Row := narrowRow
    let is : List Nat := []
    off < 2 ^ 21 ∧ off % 8 = 0 ∧ findReg off = some (r, is) ∧ ((r.wide = true ∧ 8 = 8 ∧ x = v) ∨ (r.wide = false ∧ (8 = 4 ∨ 8 = 8) ∧
      x = BitVec.ofNat 64 (v.toNat % 2 ^ 32))) ∧ Safety.writable s off = true) := by decide +kernel
theorem wit_RegisterAccess_3 :
    (let s : State := awake
    let off : Nat := srcOff
    let r : Row := srcRow
    let is : List Nat := [11, 7]
    off < 2 ^ 21 ∧ off % 4 = 0 ∧ findReg off = some (r, is) ∧ r.wide = true ∧ Safety.writable s off = true) ∧
    (let s : State := { awake with host := { awake.host with l1 := true } }
    let off : Nat := srcOff
    let r : Row := srcRow
    let is : List Nat := [11, 7]
    off < 2 ^ 21 ∧ off % 4 = 0 ∧ findReg off = some (r, is) ∧ r.wide = true ∧ Safety.writable s off = true) := by decide +kernel
theorem wit_RegisterAccess_4 :
    (let s : State := { awake with held := some (srcOff, 5) }
    let off : Nat := srcOff
    let r : Row := srcRow
    let is : List Nat := [11, 7]
    let lo := 5
    off + 4 < 2 ^ 21 ∧ off % 8 = 0 ∧ findReg off = some (r, is) ∧ findReg (off + 4) = none ∧ r.wide = true ∧
      Safety.writable s off = true ∧ s.held = some (off, lo)) ∧
    (let s : State := { awake with held := some (16, 5) }
    let off : Nat := srcOff
    let r : Row := srcRow
    let is : List Nat := [11, 7]
    off + 4 < 2 ^ 21 ∧ off % 8 = 0 ∧ findReg off = some (r, is) ∧ findReg (off + 4) = none ∧ r.wide = true ∧
      Safety.writable s off = true) ∧
    (let s : State := awake
    let off : Nat := srcOff
    let r : Row := srcRow
    let is : List Nat := [11, 7]
    off + 4 < 2 ^ 21 ∧ off % 8 = 0 ∧ findReg off = some (r, is) ∧ findReg (off + 4) = none ∧ r.wide = true ∧
      Safety.writable s off = true) := by decide +kernel
theorem wit_RegisterAccess_5 :
    (0x1FFFF8 < 2 ^ 21 ∧ findReg 0x1FFFF8 = none ∧ 0x1FFFF8 % 8 = 0) ∧
    (0x1FFFF8 < 2 ^ 21 ∧ findReg 0x1FFFF8 = none ∧ 0x1FFFF8 % 4 = 0 ∧ (0x1FFFF8 % 8 = 0 ∨ findReg (0x1FFFF8 - 4) = none)) := by decide +kernel
theorem wit_RegisterAccess_6 :
    (let s : State := State.reset
    let off : Nat := srcOff
    let r : Row := srcRow
    let is : List Nat := [11, 7]
    off < 2 ^ 21 ∧ (8 = 4 ∨ 8 = 8) ∧ off % 8 = 0 ∧ findReg off = some (r, is) ∧ Safety.writable s off = false) ∧
    (let s : State := { awake with power := { awake.power with lull := 2 } }
    let off : Nat := srcOff
    let r : Row := srcRow
    let is : List Nat := [11, 7]
    off < 2 ^ 21 ∧ (4 = 4 ∨ 4 = 8) ∧ off % 4 = 0 ∧ findReg off = some (r, is) ∧ Safety.writable s off = false) := by decide +kernel
theorem wit_RegisterAccess_7 :
    (let k := 63
    k < 64) ∧
    (let k := 63
    let w := 3
    k < 64 ∧ w < 4) ∧
    (0x4000 ≤ 0x4000 ∧ (0x4000 < 0x8000 ∨ 0x8400 ≤ 0x4000)) := by decide +kernel

/-! ### RegisterReads -/

theorem wit_RegisterReads_1 :
    let off : Nat := srcOff
    let r : Row := srcRow
    let is : List Nat := [11, 7]
    off < 2 ^ 21 ∧ findReg off = some (r, is) ∧ off % 8 = 0 ∧ r.wide = true := by decide +kernel
theorem wit_RegisterReads_2 :
    let off : Nat := narrowOff
    let r : Row := narrowRow
    let is : List Nat := []
    off < 2 ^ 21 ∧ findReg off = some (r, is) ∧ off % 4 = 0 ∧ r.wide = false := by decide +kernel
theorem wit_RegisterReads_3 :
    let s : State := { awake with latch := [(srcOff, 9)] }
    let off : Nat := srcOff
    let r : Row := srcRow
    let is : List Nat := [11, 7]
    let h : W64 := 9
    off + 4 < 2 ^ 21 ∧ findReg off = some (r, is) ∧ off % 8 = 0 ∧ r.wide = true ∧ findReg (off + 4) = none ∧ kGet s.latch off = some h := by decide +kernel
theorem wit_RegisterReads_4 :
    (let off : Nat := srcOff
    off < 2 ^ 21 ∧ off % 8 = 0) ∧
    (let off : Nat := srcOff
    off < 2 ^ 21 ∧ off % 8 = 0) ∧
    (let off : Nat := narrowOff
    off < 2 ^ 21 ∧ off % 8 = 0) ∧
    (0x1FFFF8 < 2 ^ 21 ∧ 0x1FFFF8 % 8 = 0) := by decide +kernel
theorem wit_RegisterReads_5 :
    0x1FFFFC < 2 ^ 21 ∧ 0x1FFFFC % 4 = 0 ∧ findReg 0x1FFFFC = none ∧ findReg (0x1FFFFC - 4) = none := by decide +kernel
theorem wit_RegisterReads_6 :
    (63 < 64 ∧ 3 < 4) ∧
    (0 < 64 ∧ 0 < 4) := by decide +kernel
theorem wit_RegisterReads_7 :
    (let off : Nat := srcOff
    ((2 ≠ 4 ∧ 2 ≠ 8) ∨ off % 2 ≠ 0)) ∧
    (((8 ≠ 4 ∧ 8 ≠ 8) ∨ 12 % 8 ≠ 0)) := by decide +kernel
theorem wit_RegisterReads_8 :
    let s : State := awake
    s.power.below.testBit 12 = false ∧ s.power.below.testBit 13 = false := by decide +kernel

/-! ### SitesDeclared -/

/-- The body of a DECLARE_SITE of site 7, channel 0 of cluster 11 alone, in a group or none; the descriptor. -/
def declBytes (group : Nat) : List Byte :=
  leBytes 2 7 ++ leBytes 2 group ++ leBytes 1 0 ++ leBytes 1 1 ++ leBytes 2 0 ++ leBytes 24 (2 ^ 176) ++ leBytes 2 1
def declDesc (group : Nat) : Desc := desc 0x01 (declBytes group)
/-- A state after boot as one chip alone, with live slices and a descriptor in flight. -/
def siteState (d : Desc) : State :=
  { ((holding d).setRf F.RING_CFG_N [] 1).setRf F.CAPS_LIVE_CL_LIVE [] 0xFFF with slices := sliced.slices }
/-- That state with every slice in use, and with slice 44 retired or not. -/
def fullState (d : Desc) (retired : Bool) : State :=
  { siteState d with slices := ((siteState d).slices.map (fun x => { x with ent := some (.site 1) })).modify 44 (fun x => { x with retired := retired }) }
/-- A burst of an entity that is admitted. -/
def admittedOf (e : Ent) : Burst :=
  { ent := e, owner := .nobody, obj := 9, named := 9, mode := 0, prio := 0, arrival := 0, submitted := 0, admitted := true }
/-- An UNDECLARE_SITE of site 7, and that site alone. -/
def undeclDesc : Desc := desc 0x02 (leBytes 2 7)
def lone : Site := { id := 7, npins := 1 }
def loneState : State := { siteState undeclDesc with sites := [(7, lone)] }
theorem wit_SitesDeclared_1 :
    (let d := declDesc 0xFFFF
    let x := declBody d.bytes
    let s : State := (siteState d).upCl 11 (fun c => { c with chans := c.chans.modify 0 (fun x => { x with retired := true }) })
    Safety.ready s 0 0 0x01 d ∧ s.declFirst d = true ∧ s.declHeld d = false ∧ s.declAbsent x = true) ∧
    (let d := desc 0x01 (leBytes 2 7)
    let x := declBody d.bytes
    let s : State := siteState d
    Safety.ready s 0 0 0x01 d ∧ s.declFirst d = true ∧ s.declHeld d = false ∧ s.declAbsent x = false ∧ s.declOk d.bytes = false) ∧
    (let d := declDesc 0xFFFF
    let x := declBody d.bytes
    let s : State := siteState d
    let n := 11
    let g := 44
    Safety.ready s 0 0 0x01 d ∧ s.declFirst d = true ∧ s.declHeld d = false ∧ s.declAbsent x = false ∧ s.declOk d.bytes = true ∧
      x.group = none ∧ x.clusters = [n] ∧ Safety.shaped s ∧ s.freeSlice n = some g) := by decide +kernel
theorem wit_SitesDeclared_1_b :
    let d := declDesc 0xFFFF
    let x := declBody d.bytes
    let s : State := fullState d false
    let n := 11
    Safety.ready s 0 0 0x01 d ∧ s.declFirst d = true ∧ s.declHeld d = false ∧ s.declAbsent x = false ∧ s.declOk d.bytes = true ∧
      x.group = none ∧ x.clusters = [n] ∧ Safety.shaped s ∧ s.freeSlice n = none ∧ (∀ i < 4, (s.sl (4 * n + i)).retired = false) := by decide +kernel
theorem wit_SitesDeclared_1_c :
    (let d := declDesc 0xFFFF
    let x := declBody d.bytes
    let s : State := fullState d true
    let n := 11
    Safety.ready s 0 0 0x01 d ∧ s.declFirst d = true ∧ s.declHeld d = false ∧ s.declAbsent x = false ∧ s.declOk d.bytes = true ∧
      x.group = none ∧ x.clusters = [n] ∧ Safety.shaped s ∧ s.freeSlice n = none ∧
      (List.range 4).any (fun i => (s.sl (4 * n + i)).retired) = true) ∧
    (let d := declDesc 3
    let x := declBody d.bytes
    let s : State := { siteState d with bursts := [admittedOf (.group 3)] }
    Safety.ready s 0 0 0x01 d ∧ s.declFirst d = true ∧ s.declHeld d = false ∧ s.declAbsent x = false ∧ s.declOk d.bytes = true ∧
      x.group.isSome = true ∧ s.busy x.ent = true ∧ s.waitOf 0 0 = none) := by decide +kernel
theorem wit_SitesDeclared_2 :
    (let s : State := siteState undeclDesc
    let d : Desc := undeclDesc
    Safety.ready s 0 0 0x02 d ∧ s.declFirst d = true ∧ s.declHeld d = false ∧ s.site (fld d.bytes 16 2) = none) ∧
    (let s : State := loneState
    let d : Desc := undeclDesc
    let x := lone
    Safety.ready s 0 0 0x02 d ∧ s.declFirst d = true ∧ s.declHeld d = false ∧ s.site (fld d.bytes 16 2) = some x ∧
      zeroes d.bytes 18 46 = true ∧ s.busy x.ent = false ∧ (s.endSiteWork x).siteIdle x = true) ∧
    (let s : State := { loneState with bursts := [admittedOf (.site 7)] }
    let d : Desc := undeclDesc
    let x := lone
    Safety.ready s 0 0 0x02 d ∧ s.declFirst d = true ∧ s.declHeld d = false ∧ s.site (fld d.bytes 16 2) = some x ∧
      zeroes d.bytes 18 46 = true ∧ (s.burst x.ent).any (fun b => b.admitted) = true ∧ s.waitOf 0 0 = none) := by decide +kernel
theorem wit_SitesDeclared_3 :
    (let w : Waiting := { sq := 0, idx := 0, kind := .declare, ent := some (.site 7) }
    let s : State := (siteState undeclDesc).wait w
    let d : Desc := { undeclDesc with started := true }
    s.waitOf 0 0 = some w ∧ s.desc 0 0 = some d ∧ s.declHeld d = false ∧ w.kind = .declare) ∧
    (let w : Waiting := { sq := 0, idx := 0, kind := .undeclare, ent := some (.group 3) }
    let s : State := (siteState undeclDesc).wait w
    let d : Desc := { undeclDesc with started := true }
    let g := 3
    s.waitOf 0 0 = some w ∧ s.desc 0 0 = some d ∧ s.declHeld d = false ∧ w.kind = .undeclare ∧ w.ent = some (.group g)) ∧
    (let w : Waiting := { sq := 0, idx := 0, kind := .undeclare, ent := some (.site 7) }
    let s : State := (siteState undeclDesc).wait w
    let d : Desc := { undeclDesc with started := true }
    let i := 7
    s.waitOf 0 0 = some w ∧ s.desc 0 0 = some d ∧ s.declHeld d = false ∧ w.kind = .undeclare ∧ w.ent = some (.site i)) := by decide +kernel
theorem wit_SitesDeclared_4 :
    let s : State := awake
    Safety.writable s (F.CL_SITE_MASK_MASK.off [11]) = true ∧ 11 < s.nCl := by decide +kernel

/-! ### TasksByHost -/

/-- A state after boot with site 7 declared, a flow program of two steps as object 5 on channel 0, and a descriptor in flight. -/
def flowState (d : Desc) : State :=
  { holding d with
    sites := [(7, { id := 7, npins := 1 })]
    objs := [(5, { id := 5, kind := .flow, size := 256, base := 0, chans := [0] })]
    mem := Memory.write [] 0 (padTo (zeros 6 ++ leBytes 2 2) 64) }
/-- A START_FLOW of that program for site 7 at an entry step; the program. -/
def startDesc (entry : Nat) : Desc := desc 0x34 (leBytes 2 7 ++ leBytes 2 0xFFFF ++ leBytes 4 5 ++ leBytes 2 entry ++ leBytes 1 7)
def flowObj : Obj := { id := 5, kind := .flow, size := 256, base := 0, chans := [0] }
/-- That state with one task, of ID 9, and a descriptor that names it. -/
def tasked (d : Desc) (x : Task) : State := { holding d with paddock := { State.reset.paddock with tasks := [(9, x)] } }
theorem wit_TasksByHost_1 :
    let s : State := flowState (startDesc 1)
    let d : Desc := startDesc 1
    let o : Obj := flowObj
    Safety.ready s 0 0 0x34 d ∧ 7 = fld d.bytes 16 2 ∧ 0xFFFF = fld d.bytes 18 2 ∧ s.blocked (.site 7) = false ∧
      s.blocked (.group 0xFFFF) = false ∧ s.obj (fld d.bytes 20 4) = some o ∧ o.kind = .flow ∧ (7 ≠ 0xFFFF ∧ 0xFFFF = 0xFFFF ∧
      s.declared (.site 7) = true ∨ 7 = 0xFFFF ∧ 0xFFFF ≠ 0xFFFF ∧ s.declared (.group 0xFFFF) = true) ∧
      1 = (if fld d.bytes 24 2 = 0xFFFF then fld (s.objBytes o 0 64) 8 2 else fld d.bytes 24 2) ∧ 1 < s.fpN o ∧ fld d.bytes 26 1 ≤ 7 ∧
      fld d.bytes 40 4 % 64 = 0 ∧ fld d.bytes 32 8 % 64 = 0 ∧ s.paddock.tasks.length < 4096 ∧ zeroes d.bytes 27 5 = true ∧
      zeroes d.bytes 44 4 = true ∧ (List.range 4096).find? (fun i => !kHas s.paddock.tasks i) = some 0 := by decide +kernel
theorem wit_TasksByHost_1_b :
    let s : State := flowState (startDesc 0xFFFF)
    let d : Desc := startDesc 0xFFFF
    let o : Obj := flowObj
    Safety.ready s 0 0 0x34 d ∧ 7 = fld d.bytes 16 2 ∧ 0xFFFF = fld d.bytes 18 2 ∧ s.blocked (.site 7) = false ∧
      s.blocked (.group 0xFFFF) = false ∧ s.obj (fld d.bytes 20 4) = some o ∧ o.kind = .flow ∧ (7 ≠ 0xFFFF ∧ 0xFFFF = 0xFFFF ∧
      s.declared (.site 7) = true ∨ 7 = 0xFFFF ∧ 0xFFFF ≠ 0xFFFF ∧ s.declared (.group 0xFFFF) = true) ∧
      0 = (if fld d.bytes 24 2 = 0xFFFF then fld (s.objBytes o 0 64) 8 2 else fld d.bytes 24 2) ∧ 0 < s.fpN o ∧ fld d.bytes 26 1 ≤ 7 ∧
      fld d.bytes 40 4 % 64 = 0 ∧ fld d.bytes 32 8 % 64 = 0 ∧ s.paddock.tasks.length < 4096 ∧ zeroes d.bytes 27 5 = true ∧
      zeroes d.bytes 44 4 = true ∧ (List.range 4096).find? (fun i => !kHas s.paddock.tasks i) = some 0 := by decide +kernel
theorem wit_TasksByHost_2 :
    let s : State := holding (startDesc 1)
    let d : Desc := startDesc 1
    Safety.ready s 0 0 0x34 d ∧ s.blocked (.site (fld d.bytes 16 2)) = false ∧ s.blocked (.group (fld d.bytes 18 2)) = false ∧
      s.obj (fld d.bytes 20 4) = none ∧ kHas s.regions (fld d.bytes 20 4) = false := by decide +kernel
theorem wit_TasksByHost_3 :
    (let d := desc 0x38 (leBytes 2 9)
    let s : State := holding d
    Safety.ready s 0 0 0x38 d ∧ zeroes d.bytes 18 46 = true ∧ 9 = fld d.bytes 16 2 ∧ s.task 9 = none) ∧
    (let d := desc 0x38 (leBytes 2 9)
    let x : Task := { flow := 5, step := 0, state := 4, slot := 0xFF }
    let s : State := tasked d x
    Safety.ready s 0 0 0x38 d ∧ zeroes d.bytes 18 46 = true ∧ 9 = fld d.bytes 16 2 ∧ s.task 9 = some x ∧
      (x.state ≠ 3 ∨ (s.fslot x.slot).hold = true ∨ s.quantumDue 9 x = true)) ∧
    (let d := desc 0x38 (leBytes 2 9)
    let x : Task := { flow := 5, step := 0, state := 3, slot := 15 }
    let s : State := tasked d x
    Safety.ready s 0 0 0x38 d ∧ zeroes d.bytes 18 46 = true ∧ 9 = fld d.bytes 16 2 ∧ s.task 9 = some x ∧ x.state = 3 ∧
      (s.fslot x.slot).hold = false ∧ s.quantumDue 9 x = false) ∧
    (let d := desc 0x38 (leBytes 2 9)
    let x : Task := { flow := 5, step := 0, state := 3, slot := 15, quantum := 9 }
    let s : State := { (tasked d x).setRf F.PADDOCK_CTL_QUANTUM [] 9 with paddock := { (tasked d x).paddock with tasks := [(8, { x with state := 1, slot := 0xFF }), (9, x)] } }
    Safety.ready s 0 0 0x38 d ∧ zeroes d.bytes 18 46 = true ∧ 9 = fld d.bytes 16 2 ∧ s.task 9 = some x ∧
      (x.state ≠ 3 ∨ (s.fslot x.slot).hold = true ∨ s.quantumDue 9 x = true)) := by decide +kernel
theorem wit_TasksByHost_4 :
    (let d := desc 0x39 (leBytes 2 9 ++ zeros 6 ++ leBytes 8 (2 ^ 63 + 2 ^ 16))
    let s : State := holding d
    Safety.ready s 0 0 0x39 d ∧ zeroes d.bytes 18 6 = true ∧ zeroes d.bytes 32 32 = true ∧ fld d.bytes 24 8 % 2 ^ 16 = 0 ∧
      9 = fld d.bytes 16 2 ∧ s.task 9 = none) ∧
    (let d := desc 0x39 (leBytes 2 9 ++ zeros 6 ++ leBytes 8 (2 ^ 63 + 2 ^ 16))
    let x : Task := { flow := 5, step := 0, state := 1 }
    let s : State := tasked d x
    Safety.ready s 0 0 0x39 d ∧ zeroes d.bytes 18 6 = true ∧ zeroes d.bytes 32 32 = true ∧ fld d.bytes 24 8 % 2 ^ 16 = 0 ∧
      9 = fld d.bytes 16 2 ∧ s.task 9 = some x ∧ x.state ≠ 5 ∧
      (x.state ≠ 4 ∨ { x with flags := x.flags ||| fld d.bytes 24 8 }.waitHolds = false)) ∧
    (let d := desc 0x39 (leBytes 2 9 ++ zeros 6 ++ leBytes 8 (2 ^ 63 + 2 ^ 16))
    let x : Task := { flow := 5, step := 0, state := 5 }
    let s : State := tasked d x
    Safety.ready s 0 0 0x39 d ∧ zeroes d.bytes 18 6 = true ∧ zeroes d.bytes 32 32 = true ∧ fld d.bytes 24 8 % 2 ^ 16 = 0 ∧
      9 = fld d.bytes 16 2 ∧ s.task 9 = some x ∧ x.state = 5) := by decide +kernel
theorem wit_TasksByHost_4_b :
    let d := desc 0x39 (leBytes 2 9 ++ zeros 6 ++ leBytes 8 (2 ^ 63 + 2 ^ 16))
    let x : Task := { flow := 5, step := 0, state := 4, wmask := 2 ^ 63, slot := 0xFF }
    let s : State := tasked d x
    Safety.ready s 0 0 0x39 d ∧ zeroes d.bytes 18 6 = true ∧ zeroes d.bytes 32 32 = true ∧ fld d.bytes 24 8 % 2 ^ 16 = 0 ∧
      9 = fld d.bytes 16 2 ∧ s.task 9 = some x ∧ x.state = 4 ∧ { x with flags := x.flags ||| fld d.bytes 24 8 }.waitHolds = true := by decide +kernel
theorem wit_TasksByHost_5 :
    (let d := desc 0x3A (leBytes 2 9 ++ zeros 6 ++ leBytes 8 64)
    let s : State := holding d
    Safety.ready s 0 0 0x3A d ∧ zeroes d.bytes 18 6 = true ∧ zeroes d.bytes 32 32 = true ∧ fld d.bytes 24 8 % 64 = 0 ∧
      s.taskBytes (fld d.bytes 16 2) = none) ∧
    (let d := desc 0x3A (leBytes 2 9 ++ zeros 6 ++ leBytes 8 64)
    let bs : List Byte := taskEntry 9 { flow := 5, step := 0, state := 1 } ++ taskContext { flow := 5, step := 0, state := 1 }
    let s : State := tasked d { flow := 5, step := 0, state := 1 }
    Safety.ready s 0 0 0x3A d ∧ zeroes d.bytes 18 6 = true ∧ zeroes d.bytes 32 32 = true ∧ fld d.bytes 24 8 % 64 = 0 ∧
      s.taskBytes (fld d.bytes 16 2) = some bs ∧ s.host.pci.busMaster = true) := by decide +kernel
theorem wit_TasksByHost_6 :
    (let s : State := awake
    let v : W64 := 9
    Safety.writable s (F.PADDOCK_WARDEN_TASK_ID.off []) = true ∧ (s.task (fget v 0 12)).all (fun x => x.state = 5) = true) ∧
    (let x : Task := { flow := 5, step := 0, state := 5 }
    let s : State := tasked (desc 0 []) x
    let v : W64 := 9
    Safety.writable s (F.PADDOCK_WARDEN_TASK_ID.off []) = true ∧ (s.task (fget v 0 12)).all (fun x => x.state = 5) = true) ∧
    (let x : Task := { flow := 5, step := 0, state := 1 }
    let s : State := tasked (desc 0 []) x
    let v : W64 := 9
    Safety.writable s (F.PADDOCK_WARDEN_TASK_ID.off []) = true ∧ s.task (fget v 0 12) = some x ∧ x.state ≠ 5) := by decide +kernel

/-! ### LocksOfRings -/

/-- A state with lock 31 as given and a descriptor in flight. -/
def locked (d : Desc) (l : Lock) : State :=
  { holding d with paddock := { State.reset.paddock with locks := State.reset.paddock.locks.set 31 l } }
theorem wit_LocksOfRings_1 :
    (let d := desc 0x3B (leBytes 1 31)
    let s : State := locked d { abandoned := true }
    Safety.ready s 0 0 0x3B d ∧ fld d.bytes 16 1 = 31 ∧ 31 ≤ 31 ∧ zeroes d.bytes 17 3 = true ∧ zeroes d.bytes 24 40 = true ∧
      Safety.shaped s ∧ (s.lock 31).owner = none) ∧
    (let d := desc 0x3B (leBytes 1 31)
    let s : State := locked d { owner := some (.task 4) }
    Safety.ready s 0 0 0x3B d ∧ fld d.bytes 16 1 = 31 ∧ 31 ≤ 31 ∧ zeroes d.bytes 17 3 = true ∧ zeroes d.bytes 24 40 = true ∧
      Safety.shaped s ∧ (s.lock 31).owner ≠ none) := by decide +kernel
theorem wit_LocksOfRings_2 :
    (let d := desc 0x3C (leBytes 1 31)
    let s : State := locked d {}
    Safety.ready s 0 0 0x3C d ∧ fld d.bytes 16 1 = 31 ∧
      (31 < 31 ∨ zeroes d.bytes 17 47 = false ∨ ownerIs (s.lock 31).owner (.desc 0 0) = false)) ∧
    (let d := desc 0x3C [32]
    let s : State := holding d
    Safety.ready s 0 0 0x3C d ∧ fld d.bytes 16 1 = 32 ∧
      (31 < 32 ∨ zeroes d.bytes 17 47 = false ∨ ownerIs (s.lock 32).owner (.desc 0 0) = false)) ∧
    (let d := desc 0x3C (leBytes 1 31)
    let s : State := locked d { owner := some (.desc 0 5) }
    Safety.ready s 0 0 0x3C d ∧ fld d.bytes 16 1 = 31 ∧ 31 ≤ 31 ∧ zeroes d.bytes 17 47 = true ∧
      ownerIs (s.lock 31).owner (.desc 0 0) = true ∧ Safety.shaped s ∧ (s.lock 31).queue = []) := by decide +kernel
theorem wit_LocksOfRings_3 :
    let r : LockReq := { prio := 3, who := .desc 0 0, deadline := some 9 }
    let s : State := locked (desc 0x3B []) { owner := some (.task 4), queue := [r] }
    31 < 32 ∧ r ∈ (s.lock 31).queue ∧ r.who = .desc 0 0 ∧ r.deadline = some 9 ∧ 9 ≤ 9 ∧
      (∀ j < 31, ∀ q ∈ (s.lock j).queue, q.who ≠ .desc 0 0) ∧ Safety.shaped s := by decide +kernel

/-! ### ObjectsLoaded -/

/-- A pattern of 640 bytes, one line of one pin and one word, that passes the early checks of R124. -/
def patBytes : List Byte :=
  let sec (l : List (Nat × Nat)) : List Byte := l.flatMap (fun p => leBytes 8 p.1 ++ leBytes 8 p.2)
  let h := leBytes 4 0x54415044 ++ leBytes 2 1 ++ zeros 2 ++ leBytes 4 256 ++ leBytes 4 0 ++ leBytes 8 640 ++ leBytes 2 1 ++ leBytes 2 1 ++
    leBytes 2 0 ++ leBytes 2 0 ++ leBytes 4 1 ++ leBytes 4 1 ++ leBytes 8 0 ++ leBytes 4 1 ++ leBytes 2 0 ++ leBytes 1 0 ++ leBytes 1 1 ++ zeros 8 ++
    sec [(256, 40), (0, 0), (0, 0), (320, 8), (384, 8), (448, 66), (0, 0), (576, 64)]
  padTo (padTo h 256 ++ leBytes 4 1 ++ leBytes 1 1 ++ zeros 187 ++ leBytes 8 64 ++ leBytes 8 2) 640
/-- A state after boot with one live memory channel and a descriptor in flight. -/
def roomy (d : Desc) : State := (holding d).setRf F.CAPS_LIVE_MC_LIVE [] 1
/-- A LOAD_PATTERN of an ID. -/
def loadDesc (id : Nat) : Desc := desc 0x08 (leBytes 4 id ++ zeros 4 ++ leBytes 8 64 ++ leBytes 8 640)
/-- A PE list of one frame of 8 bits, with its digest left to be given; a flow program of one step. -/
def listBytes (dig : List Byte) : List Byte :=
  padTo (padTo (leBytes 4 0x4C455044 ++ leBytes 2 1 ++ leBytes 2 1 ++ zeros 8 ++ dig) 64 ++ leBytes 4 5 ++ leBytes 1 8) 128
def progBytes : List Byte := padTo (leBytes 4 0x574C4644 ++ leBytes 2 1 ++ leBytes 2 1) 128
/-- A LOAD_FLOW or LOAD_PE_LIST of an ID. -/
def load2Desc (flow : Bool) (id : Nat) : Desc :=
  desc (if flow then 0x30 else 0x32) (leBytes 4 id ++ zeros 4 ++ leBytes 8 64 ++ leBytes 4 128)
theorem wit_ObjectsLoaded_1 :
    (let d := loadDesc 0xFFFFFFFF
    let s : State := roomy d
    let bs : List Byte := patBytes
    Safety.ready s 0 0 0x08 d ∧ s.host.pci.busMaster = true ∧ bs.length = fld d.bytes 32 8 ∧
      s.loadBodyOk d (fld d.bytes 24 8) (fld d.bytes 32 8) (fld d.bytes 20 1 < 8 && zeroes d.bytes 21 3 && zeroes d.bytes 40 24) = false) ∧
    (let d := loadDesc 9
    let s : State := roomy d
    let bs : List Byte := zeros 640
    Safety.ready s 0 0 0x08 d ∧ s.host.pci.busMaster = true ∧ bs.length = fld d.bytes 32 8 ∧
      s.loadBodyOk d (fld d.bytes 24 8) (fld d.bytes 32 8) (fld d.bytes 20 1 < 8 && zeroes d.bytes 21 3 && zeroes d.bytes 40 24) = true ∧
      (worstFail (earlyFails (rdList bs) (hdrOf (rdList bs)) bs.length)).isSome = true) ∧
    (let d := loadDesc 9
    let s : State := holding d
    let bs : List Byte := patBytes
    Safety.ready s 0 0 0x08 d ∧ s.host.pci.busMaster = true ∧ bs.length = fld d.bytes 32 8 ∧
      s.loadBodyOk d (fld d.bytes 24 8) (fld d.bytes 32 8) (fld d.bytes 20 1 < 8 && zeroes d.bytes 21 3 && zeroes d.bytes 40 24) = true ∧
      worstFail (earlyFails (rdList bs) (hdrOf (rdList bs)) bs.length) = none ∧
      s.placePattern bs.length (objQ (rdList bs) (hdrOf (rdList bs))) = none) ∧
    (let d := loadDesc 9
    let s : State := roomy d
    let bs : List Byte := patBytes
    Safety.ready s 0 0 0x08 d ∧ s.host.pci.busMaster = true ∧ bs.length = fld d.bytes 32 8 ∧
      s.loadBodyOk d (fld d.bytes 24 8) (fld d.bytes 32 8) (fld d.bytes 20 1 < 8 && zeroes d.bytes 21 3 && zeroes d.bytes 40 24) = true ∧
      worstFail (earlyFails (rdList bs) (hdrOf (rdList bs)) bs.length) = none ∧
      (s.placePattern bs.length (objQ (rdList bs) (hdrOf (rdList bs)))).isSome = true) := by decide +kernel
/-- A load of a PE list in progress, and the state in which it is. -/
def listLoad (b : List Byte) : Load :=
  { sq := 0, idx := 0, deep := false, src := b, obj := { id := 9, kind := .peList, size := 128, base := 0, chans := [0] } }
def loadingList (b : List Byte) : State := { holding (desc 0x32 []) with loads := [listLoad b] }
/-- The list with its digest. -/
def goodList : List Byte := listBytes (listLoad (listBytes [])).dig
theorem wit_ObjectsLoaded_2 :
    (let d := load2Desc true 0xFFFFFFFF
    let s : State := roomy d
    let bs : List Byte := progBytes
    let flow : Bool := true
    Safety.ready s 0 0 (if flow then 0x30 else 0x32) d ∧ s.host.pci.busMaster = true ∧ bs.length = fld d.bytes 32 4 ∧
      s.loadBodyOk d (fld d.bytes 24 8) (fld d.bytes 32 4) (zeroes d.bytes 20 4 && zeroes d.bytes 36 28) = false) ∧
    (let d := load2Desc true 9
    let s : State := roomy d
    let bs : List Byte := listBytes []
    let flow : Bool := true
    Safety.ready s 0 0 (if flow then 0x30 else 0x32) d ∧ s.host.pci.busMaster = true ∧ bs.length = fld d.bytes 32 4 ∧
      s.loadBodyOk d (fld d.bytes 24 8) (fld d.bytes 32 4) (zeroes d.bytes 20 4 && zeroes d.bytes 36 28) = true ∧
      (worstFFail (fpHeaderFails bs flow bs.length)).isSome = true) ∧
    (let d := load2Desc true 9
    let s : State := holding d
    let bs : List Byte := progBytes
    let flow : Bool := true
    Safety.ready s 0 0 (if flow then 0x30 else 0x32) d ∧ s.host.pci.busMaster = true ∧ bs.length = fld d.bytes 32 4 ∧
      s.loadBodyOk d (fld d.bytes 24 8) (fld d.bytes 32 4) (zeroes d.bytes 20 4 && zeroes d.bytes 36 28) = true ∧
      worstFFail (fpHeaderFails bs flow bs.length) = none ∧ s.placeWhole bs.length = none) ∧
    (let d := load2Desc true 9
    let s : State := roomy d
    let bs : List Byte := progBytes
    let flow : Bool := true
    let m := 0
    let base := 0
    Safety.ready s 0 0 (if flow then 0x30 else 0x32) d ∧ s.host.pci.busMaster = true ∧ bs.length = fld d.bytes 32 4 ∧
      s.loadBodyOk d (fld d.bytes 24 8) (fld d.bytes 32 4) (zeroes d.bytes 20 4 && zeroes d.bytes 36 28) = true ∧
      worstFFail (fpHeaderFails bs flow bs.length) = none ∧ s.placeWhole bs.length = some (m, base)) ∧
    (let d := load2Desc false 0xFFFFFFFF
    let s : State := roomy d
    let bs : List Byte := listBytes []
    let flow : Bool := false
    Safety.ready s 0 0 (if flow then 0x30 else 0x32) d ∧ s.host.pci.busMaster = true ∧ bs.length = fld d.bytes 32 4 ∧
      s.loadBodyOk d (fld d.bytes 24 8) (fld d.bytes 32 4) (zeroes d.bytes 20 4 && zeroes d.bytes 36 28) = false) := by decide +kernel
theorem wit_ObjectsLoaded_2_b :
    (let d := load2Desc false 9
    let s : State := roomy d
    let bs : List Byte := progBytes
    let flow : Bool := false
    Safety.ready s 0 0 (if flow then 0x30 else 0x32) d ∧ s.host.pci.busMaster = true ∧ bs.length = fld d.bytes 32 4 ∧
      s.loadBodyOk d (fld d.bytes 24 8) (fld d.bytes 32 4) (zeroes d.bytes 20 4 && zeroes d.bytes 36 28) = true ∧
      (worstFFail (fpHeaderFails bs flow bs.length)).isSome = true) ∧
    (let d := load2Desc false 9
    let s : State := holding d
    let bs : List Byte := listBytes []
    let flow : Bool := false
    Safety.ready s 0 0 (if flow then 0x30 else 0x32) d ∧ s.host.pci.busMaster = true ∧ bs.length = fld d.bytes 32 4 ∧
      s.loadBodyOk d (fld d.bytes 24 8) (fld d.bytes 32 4) (zeroes d.bytes 20 4 && zeroes d.bytes 36 28) = true ∧
      worstFFail (fpHeaderFails bs flow bs.length) = none ∧ s.placeWhole bs.length = none) ∧
    (let d := load2Desc false 9
    let s : State := roomy d
    let bs : List Byte := listBytes []
    let flow : Bool := false
    let m := 0
    let base := 0
    Safety.ready s 0 0 (if flow then 0x30 else 0x32) d ∧ s.host.pci.busMaster = true ∧ bs.length = fld d.bytes 32 4 ∧
      s.loadBodyOk d (fld d.bytes 24 8) (fld d.bytes 32 4) (zeroes d.bytes 20 4 && zeroes d.bytes 36 28) = true ∧
      worstFFail (fpHeaderFails bs flow bs.length) = none ∧ s.placeWhole bs.length = some (m, base)) := by decide +kernel
/-- A deep load of that pattern with its digest, and the state in which it is. -/
def patLoad (b : List Byte) : Load :=
  { sq := 0, idx := 0, deep := true, src := b, obj := { id := 9, kind := .pattern, size := 640, base := 0, chans := [0] } }
def deepBytes : List Byte := patch (patch patBytes 276 [2]) 514 (List.replicate 62 0xFF)
def deepLoad : Load := patLoad (patch deepBytes 576 (patLoad deepBytes).dig)
def loadingDeep : State := { holding (desc 0x08 []) with loads := [deepLoad] }
theorem wit_ObjectsLoaded_3 :
    (let s : State := loadingList (listBytes [])
    let ue : Option Nat := none
    let l : Load := listLoad (listBytes [])
    s.loads.find? (fun l => l.sq == 0 && l.idx == 0) = some l ∧ (∀ m ∈ l.obj.chans, (s.mc m).repair = none) ∧
      (l.readsBack = false ∨ ue = none) ∧ (l.outcome none).isSome = true) ∧
    (let s : State := loadingList goodList
    let ue : Option Nat := none
    let l : Load := listLoad goodList
    s.loads.find? (fun l => l.sq == 0 && l.idx == 0) = some l ∧ (∀ m ∈ l.obj.chans, (s.mc m).repair = none) ∧
      (l.readsBack = false ∨ ue = none) ∧ l.outcome ue = none ∧ s.pair.state = 0) ∧
    (let s : State := { loadingList goodList with mcs := [{ repair := some (0, 0) }] }
    let l : Load := listLoad goodList
    s.loads.find? (fun l => l.sq == 0 && l.idx == 0) = some l ∧ (∃ m ∈ l.obj.chans, (s.mc m).repair ≠ none)) ∧
    (let s : State := loadingDeep
    let ue : Option Nat := some 448
    let l : Load := deepLoad
    let x := 448
    s.loads.find? (fun l => l.sq == 0 && l.idx == 0) = some l ∧ (∀ m ∈ l.obj.chans, (s.mc m).repair = none) ∧ l.readsBack = true ∧
      ue = some x) := by decide +kernel

/-! ### ObjectsUnloaded -/

/-- An object of a kind, and a state with it loaded as 9 and a descriptor in flight. -/
def objOf (k : ObjKind) : Obj := { id := 9, kind := k, size := 640, base := 0, chans := [0] }
def withObj (d : Desc) (k : ObjKind) : State := { holding d with objs := [(9, objOf k)] }
/-- A descriptor of an opcode that names object 9. -/
def unlDesc (op : Nat) : Desc := desc op (leBytes 4 9)
theorem wit_ObjectsUnloaded_1 :
    (let d := unlDesc 0x09
    let s : State := holding d
    Safety.ready s 0 0 0x09 d ∧ s.objFor d = none) ∧
    (let d := unlDesc 0x09
    let s : State := { withObj d .pattern with host := { (holding d).host with inflight := [{ d with idx := 1 }, d] } }
    Safety.ready s 0 0 0x09 d ∧ s.objFor d = none) := by decide +kernel
theorem wit_ObjectsUnloaded_2 :
    (let d := unlDesc 0x09
    let s : State := { withObj d .pattern with objs := [(9, { objOf .pattern with unloading := true })] }
    let o : Obj := { objOf .pattern with unloading := true }
    kGet s.objs (fld d.bytes 16 4) = some o ∧ o.unloading = true) ∧
    (let d := unlDesc 0x09
    let s : State := { withObj d .pattern with host := { (holding d).host with inflight := [{ d with idx := 1 }, d] } }
    let e : Desc := { d with idx := 1 }
    let o : Obj := objOf .pattern
    let l := []
    let r := [d]
    kGet s.objs (fld d.bytes 16 4) = some o ∧ s.host.inflight = l ++ e :: r ∧ ¬ ((1 : Nat) = d.idx) ∧
      fld e.bytes 16 4 = fld d.bytes 16 4 ∧ (o.kind = .pattern ∧ e.op = 0x09 ∨ o.kind = .flow ∧ e.op = 0x31 ∨ o.kind = .peList ∧
      e.op = 0x33)) ∧
    (let d := unlDesc 0x09
    let s : State := withObj d .pattern
    let e : Desc := d
    let o : Obj := objOf .pattern
    let l := []
    let r := []
    kGet s.objs (fld d.bytes 16 4) = some o ∧ o.unloading = false ∧ s.host.inflight = l ++ e :: r ∧ e.sq = d.sq ∧ e.idx = d.idx ∧
      s.host.inflight = [d] ∧ s.host.inflight = [d]) := by decide +kernel
theorem wit_ObjectsUnloaded_3 :
    (let d := unlDesc 0x09
    let s : State := withObj d .flow
    let o : Obj := objOf .flow
    Safety.ready s 0 0 0x09 d ∧ s.objFor d = some o ∧ (o.kind ≠ .pattern ∨ zeroes d.bytes 20 44 = false)) ∧
    (let d := desc 0x09 (leBytes 4 9 ++ [1])
    let s : State := withObj d .pattern
    let o : Obj := objOf .pattern
    Safety.ready s 0 0 0x09 d ∧ s.objFor d = some o ∧ (o.kind ≠ .pattern ∨ zeroes d.bytes 20 44 = false)) := by decide +kernel
theorem wit_ObjectsUnloaded_4 :
    let d := unlDesc 0x09
    let s : State := withObj d .pattern
    let o : Obj := objOf .pattern
    Safety.ready s 0 0 0x09 d ∧ fld d.bytes 16 4 = 9 ∧ zeroes d.bytes 20 44 = true ∧ s.objFor d = some o ∧ o.kind = .pattern ∧
      s.bursts = [] := by decide +kernel
theorem wit_ObjectsUnloaded_5 :
    let d := unlDesc 0x09
    let s : State := { withObj d .pattern with bursts := [admittedOf (.site 1)] }
    let o : Obj := objOf .pattern
    Safety.ready s 0 0 0x09 d ∧ fld d.bytes 16 4 = 9 ∧ zeroes d.bytes 20 44 = true ∧ s.objFor d = some o ∧ o.kind = .pattern ∧
      o.lost = false ∧ (∃ b ∈ s.bursts, b.obj = 9) ∧ (∀ b ∈ s.bursts, b.obj = 9 → b.admitted = true) := by decide +kernel
theorem wit_ObjectsUnloaded_6 :
    let w : Waiting := { sq := 0, idx := 0, kind := .unload 9 }
    let s : State := (withObj (unlDesc 0x09) .pattern).wait w
    s.waitOf 0 0 = some { sq := 0, idx := 0, kind := .unload 9 } ∧ (∀ b ∈ s.bursts, b.obj ≠ 9) := by decide +kernel
theorem wit_ObjectsUnloaded_7 :
    (let d := unlDesc 0x31
    let s : State := { withObj d .flow with paddock := { State.reset.paddock with tasks := [(0, { flow := 9, step := 0 })] } }
    let o : Obj := objOf .flow
    Safety.ready s 0 0 0x31 d ∧ fld d.bytes 16 4 = 9 ∧ zeroes d.bytes 20 44 = true ∧ s.objFor d = some o ∧ o.kind = .flow ∧
      (∃ p ∈ s.paddock.tasks, p.2.flow = 9)) ∧
    (let d := unlDesc 0x31
    let s : State := withObj d .flow
    let o : Obj := objOf .flow
    Safety.ready s 0 0 0x31 d ∧ fld d.bytes 16 4 = 9 ∧ zeroes d.bytes 20 44 = true ∧ s.objFor d = some o ∧ o.kind = .flow ∧
      s.paddock.tasks = []) := by decide +kernel
theorem wit_ObjectsUnloaded_8 :
    (let d := unlDesc 0x33
    let s : State := (withObj d .peList).upPe 11 (fun p => { p with queue := [{ list := 9, user := .orphan }] })
    let o : Obj := objOf .peList
    Safety.ready s 0 0 0x33 d ∧ fld d.bytes 16 4 = 9 ∧ zeroes d.bytes 20 44 = true ∧ s.objFor d = some o ∧ o.kind = .peList ∧
      s.listHeld 9 = true) ∧
    (let d := unlDesc 0x33
    let s : State := withObj d .peList
    let o : Obj := objOf .peList
    Safety.ready s 0 0 0x33 d ∧ fld d.bytes 16 4 = 9 ∧ zeroes d.bytes 20 44 = true ∧ s.objFor d = some o ∧ o.kind = .peList ∧
      s.listHeld 9 = false) := by decide +kernel
/-- An APG_FALLBACK of object 9 to another, and a state with both, 9 for APG hardware. -/
def fallDesc (fb : Nat) : Desc := desc 0x0A (leBytes 4 9 ++ leBytes 4 fb)
def apgObj : Obj := { objOf .pattern with apg := true }
def plainObj : Obj := { objOf .pattern with id := 8, base := 4096 }
def fallState (fb : Nat) : State := { holding (fallDesc fb) with objs := [(8, plainObj), (9, apgObj)] }
theorem wit_ObjectsUnloaded_9 :
    let w : Waiting := { sq := 0, idx := 0, kind := .peUnload 9 }
    let s : State := (withObj (unlDesc 0x33) .peList).wait w
    s.waitOf 0 0 = some { sq := 0, idx := 0, kind := .peUnload 9 } ∧ s.listHeld 9 = false := by decide +kernel
theorem wit_ObjectsUnloaded_10 :
    (let s : State := fallState 0xFFFFFFFF
    let d : Desc := fallDesc 0xFFFFFFFF
    let o : Obj := apgObj
    Safety.ready s 0 0 0x0A d ∧ fld d.bytes 16 4 = 9 ∧ fld d.bytes 20 4 = 0xFFFFFFFF ∧ s.obj 9 = some o ∧ o.lost = false ∧
      o.kind = .pattern ∧ o.apg = true ∧ zeroes d.bytes 24 40 = true ∧ 0xFFFFFFFF = 0xFFFFFFFF) ∧
    (let s : State := fallState 7
    let d : Desc := fallDesc 7
    let o : Obj := apgObj
    Safety.ready s 0 0 0x0A d ∧ fld d.bytes 16 4 = 9 ∧ fld d.bytes 20 4 = 7 ∧ s.obj 9 = some o ∧ o.lost = false ∧ o.kind = .pattern ∧
      o.apg = true ∧ zeroes d.bytes 24 40 = true ∧ 7 ≠ 0xFFFFFFFF ∧ s.obj 7 = none) := by decide +kernel
theorem wit_ObjectsUnloaded_10_b :
    let s : State := fallState 8
    let d : Desc := fallDesc 8
    let o : Obj := apgObj
    let f := plainObj
    Safety.ready s 0 0 0x0A d ∧ fld d.bytes 16 4 = 9 ∧ fld d.bytes 20 4 = 8 ∧ s.obj 9 = some o ∧ o.lost = false ∧ o.kind = .pattern ∧
      o.apg = true ∧ zeroes d.bytes 24 40 = true ∧ 8 ≠ 0xFFFFFFFF ∧ s.obj 8 = some f ∧ f.lost = false ∧ f.kind = .pattern ∧
      f.apg = false ∧ (s.hdr o).nPins = (s.hdr f).nPins := by decide +kernel

/-! ### ApgBinding -/

/-- A BIND_APG of unit k to site 7, and a state with that site. -/
def bindDesc (k : Nat) : Desc := desc 0x0B (leBytes 2 7 ++ leBytes 2 0xFFFF ++ leBytes 1 k)
def bindState (k : Nat) : State := { holding (bindDesc k) with sites := [(7, { id := 7, npins := 1 })] }
/-- A setup block that passes the checks of R318. -/
def setupBytes : List Byte := padTo (leBytes 4 0x47504144 ++ leBytes 2 1 ++ zeros 42 ++ leBytes 4 1) 1024
theorem wit_ApgBinding_1 :
    (let s : State := bindState 4
    let d : Desc := bindDesc 4
    let bs : List Byte := zeros 1024
    Safety.ready s 0 0 0x0B d ∧ fld d.bytes 20 1 = 4 ∧ s.host.pci.busMaster = true ∧ bs.length = 1024 ∧ s.bindRefusal d.bytes ≠ 0) ∧
    (let s : State := bindState 3
    let d : Desc := bindDesc 3
    let bs : List Byte := zeros 1024
    Safety.ready s 0 0 0x0B d ∧ fld d.bytes 20 1 = 3 ∧ s.host.pci.busMaster = true ∧ bs.length = 1024 ∧ s.bindRefusal d.bytes = 0 ∧
      3 ≠ 0xFF ∧ setupOk bs = false) ∧
    (let s : State := { bindState 3 with bursts := [admittedOf (.site 7)] }
    let d : Desc := bindDesc 3
    let bs : List Byte := setupBytes
    Safety.ready s 0 0 0x0B d ∧ fld d.bytes 20 1 = 3 ∧ s.host.pci.busMaster = true ∧ bs.length = 1024 ∧ s.bindRefusal d.bytes = 0 ∧
      3 ≠ 0xFF ∧ setupOk bs = true ∧ s.busy (bindEnt d.bytes) = true) := by decide +kernel
theorem wit_ApgBinding_1_b :
    (let s : State := bindState 3
    let d : Desc := bindDesc 3
    let bs : List Byte := setupBytes
    Safety.ready s 0 0 0x0B d ∧ fld d.bytes 20 1 = 3 ∧ s.host.pci.busMaster = true ∧ bs.length = 1024 ∧ s.bindRefusal d.bytes = 0 ∧
      3 ≠ 0xFF ∧ setupOk bs = true ∧ s.busy (bindEnt d.bytes) = false ∧ Safety.shaped s) ∧
    (let s : State := bindState 0xFF
    let d : Desc := bindDesc 0xFF
    let bs : List Byte := zeros 1024
    Safety.ready s 0 0 0x0B d ∧ fld d.bytes 20 1 = 0xFF ∧ s.host.pci.busMaster = true ∧ bs.length = 1024 ∧ s.bindRefusal d.bytes = 0 ∧
      0xFF = 0xFF ∧ s.busy (bindEnt d.bytes) = false) := by decide +kernel
theorem wit_ApgBinding_2 :
    (let w : Waiting := { sq := 0, idx := 0, kind := .bindApg setupBytes, ent := some (.site 7) }
    let d := { bindDesc 3 with started := true }
    let s : State := (bindState 3).wait w
    let e : Ent := .site 7
    let bs : List Byte := setupBytes
    s.desc 0 0 = some d ∧ s.waitOf 0 0 = some { sq := 0, idx := 0, kind := .bindApg bs, ent := some e } ∧ s.busy e = false ∧
      (s.unwait 0 0).bindRefusal d.bytes = 0) ∧
    (let w : Waiting := { sq := 0, idx := 0, kind := .bindApg setupBytes, ent := some (.site 7) }
    let d := { bindDesc 3 with started := true }
    let s : State := { (bindState 3).wait w with sites := [] }
    let e : Ent := .site 7
    let bs : List Byte := setupBytes
    s.desc 0 0 = some d ∧ s.waitOf 0 0 = some { sq := 0, idx := 0, kind := .bindApg bs, ent := some e } ∧ s.busy e = false ∧
      (s.unwait 0 0).bindRefusal d.bytes ≠ 0) := by decide +kernel

/-! ### CaptureRegions -/

/-- Region 5 of site 7 on channel 0, of kind FAIL or another. -/
def regionOne (kind : Nat) : Region := { id := 5, site := 7, kind := kind, size := 4096, chan := 0, base := 4096, state := 2, linear := true }
/-- A state after boot with site 7, that region, one live memory channel and a descriptor in flight. -/
def withRegion (d : Desc) (kind : Nat) : State :=
  { (holding d).setRf F.CAPS_LIVE_MC_LIVE [] 1 with sites := [(7, { id := 7, npins := 1 })], regions := [(5, regionOne kind)] }
/-- That state with a burst of site 7 that runs. -/
def withBurst (s : State) : State := { s with bursts := [{ admittedOf (.site 7) with running := true }] }
/-- A DEFINE_REGION of region 6 of site 7 of a kind, and a trigger unit or 255; a state with that site alone. -/
def defDesc (kind trig : Nat) : Desc :=
  desc 0x20 (leBytes 4 6 ++ leBytes 2 7 ++ leBytes 1 kind ++ leBytes 1 0 ++ leBytes 8 4096 ++ zeros 8 ++ leBytes 1 trig)
def defState (kind trig : Nat) : State := { withRegion (defDesc kind trig) 1 with regions := [] }
theorem wit_CaptureRegions_1 :
    (let s : State := defState 1 96
    let d : Desc := defDesc 1 96
    Safety.ready s 0 0 0x20 d ∧ s.regionRefusal d.bytes ≠ 0) ∧
    (let r := regionBody (defDesc 1 255).bytes
    let s : State := withBurst (defState 1 255)
    let d : Desc := defDesc 1 255
    Safety.ready s 0 0 0x20 d ∧ s.regionRefusal d.bytes = 0 ∧ s.siteRuns r.site = true) ∧
    (let r := regionBody (defDesc 1 255).bytes
    let s : State := (defState 1 255).setRf F.CAPS_LIVE_MC_LIVE [] 0
    let d : Desc := defDesc 1 255
    Safety.ready s 0 0 0x20 d ∧ s.regionRefusal d.bytes = 0 ∧ s.siteRuns r.site = false ∧ s.placeWhole r.size = none) ∧
    (let r := regionBody (defDesc 1 255).bytes
    let s : State := defState 1 255
    let d : Desc := defDesc 1 255
    let m := 0
    let base := 0
    Safety.ready s 0 0 0x20 d ∧ s.regionRefusal d.bytes = 0 ∧ s.siteRuns r.site = false ∧ s.placeWhole r.size = some (m, base) ∧
      s.collector.armed = none) ∧
    (let r := regionBody (defDesc 2 255).bytes
    let s : State := defState 2 255
    let d : Desc := defDesc 2 255
    let m := 0
    let base := 0
    Safety.ready s 0 0 0x20 d ∧ s.regionRefusal d.bytes = 0 ∧ s.siteRuns r.site = false ∧ s.placeWhole r.size = some (m, base) ∧
      s.collector.armed = none) := by decide +kernel
/-- A FREE_REGION or CLEAR_REGION of region 5. -/
def regDesc (free : Bool) : Desc := desc (if free then 0x21 else 0x22) (leBytes 4 5)
theorem wit_CaptureRegions_2 :
    let w : Waiting := { sq := 0, idx := 0, kind := .regionDefine, ent := some (.site 7) }
    let d := { defDesc 1 255 with started := true }
    let s : State := (defState 1 255).wait w
    s.desc 0 0 = some d ∧ s.waitOf 0 0 = some w ∧ w.kind = .regionDefine ∧ s.burst (.site 7) = none := by decide +kernel
theorem wit_CaptureRegions_3 :
    (let s : State := withBurst (withRegion (regDesc true) 1)
    let d : Desc := regDesc true
    let r : Region := regionOne 1
    let free : Bool := true
    Safety.ready s 0 0 (if free then 0x21 else 0x22) d ∧ fld d.bytes 16 4 = 5 ∧ zeroes d.bytes 20 44 = true ∧ s.region 5 = some r ∧
      r.lost = false ∧ s.siteRuns r.site = true) ∧
    (let s : State := withRegion (regDesc true) 1
    let d : Desc := regDesc true
    let r : Region := regionOne 1
    let free : Bool := true
    Safety.ready s 0 0 (if free then 0x21 else 0x22) d ∧ fld d.bytes 16 4 = 5 ∧ zeroes d.bytes 20 44 = true ∧ s.region 5 = some r ∧
      r.lost = false ∧ s.siteRuns r.site = false ∧ free = true) ∧
    (let s : State := withBurst (withRegion (regDesc false) 1)
    let d : Desc := regDesc false
    let r : Region := regionOne 1
    let free : Bool := false
    Safety.ready s 0 0 (if free then 0x21 else 0x22) d ∧ fld d.bytes 16 4 = 5 ∧ zeroes d.bytes 20 44 = true ∧ s.region 5 = some r ∧
      r.lost = false ∧ s.siteRuns r.site = true) ∧
    (let s : State := withRegion (regDesc false) 1
    let d : Desc := regDesc false
    let r : Region := regionOne 1
    let free : Bool := false
    Safety.ready s 0 0 (if free then 0x21 else 0x22) d ∧ fld d.bytes 16 4 = 5 ∧ zeroes d.bytes 20 44 = true ∧ s.region 5 = some r ∧
      r.lost = false ∧ s.siteRuns r.site = false ∧ free = false) := by decide +kernel
theorem wit_CaptureRegions_3_b :
    let s : State := withRegion (regDesc false) 1
    let d : Desc := regDesc false
    let r : Region := regionOne 1
    let free : Bool := false
    Safety.ready s 0 0 (if free then 0x21 else 0x22) d ∧ fld d.bytes 16 4 = 5 ∧ zeroes d.bytes 20 44 = true ∧ s.region 5 = some r ∧
      r.lost = false ∧ s.siteRuns r.site = false ∧ free = false ∧ (s.memClear r.chan r.base r.size).bad = [] ∧ s.collector.armed = none := by decide +kernel
theorem wit_CaptureRegions_4 :
    (let w : Waiting := { sq := 0, idx := 0, kind := .regionFree 5, ent := some (.site 7) }
    let d := { regDesc true with started := true }
    let s : State := (withRegion (regDesc true) 1).wait w
    let r : Region := regionOne 1
    s.desc 0 0 = some d ∧ fld d.bytes 16 4 = 5 ∧ s.region 5 = some r ∧ r.lost = false ∧ s.waitOf 0 0 = some w ∧
      s.burst (.site 7) = none ∧ w.kind = .regionFree 5) ∧
    (let w : Waiting := { sq := 0, idx := 0, kind := .regionClear 5, ent := some (.site 7) }
    let d := { regDesc false with started := true }
    let s : State := (withRegion (regDesc false) 1).wait w
    let r : Region := regionOne 1
    s.desc 0 0 = some d ∧ fld d.bytes 16 4 = 5 ∧ s.region 5 = some r ∧ r.lost = false ∧ s.waitOf 0 0 = some w ∧
      s.burst (.site 7) = none ∧ w.kind = .regionClear 5) := by decide +kernel
theorem wit_CaptureRegions_5 :
    let d := desc 0x23 (leBytes 4 5 ++ zeros 4 ++ leBytes 8 4032 ++ leBytes 4 64 ++ zeros 4 ++ leBytes 8 128)
    let s : State := withRegion d 3
    let r : Region := regionOne 3
    Safety.ready s 0 0 0x23 d ∧ fld d.bytes 16 4 = 5 ∧ fld d.bytes 24 8 = 4032 ∧ fld d.bytes 32 4 = 64 ∧ fld d.bytes 40 8 = 128 ∧
      s.region 5 = some r ∧ r.lost = false ∧ 4032 % 64 = 0 ∧ 64 % 64 = 0 ∧ 128 % 64 = 0 ∧ 4032 + 64 ≤ r.size ∧
      zeroes d.bytes 20 4 = true ∧ zeroes d.bytes 36 4 = true ∧ zeroes d.bytes 48 16 = true ∧ s.host.pci.busMaster = true ∧
      s.bad = [] ∧ s.collector.armed = none ∧ (s.mc r.chan).repair = none := by decide +kernel
theorem wit_CaptureRegions_5_b :
    let d := desc 0x23 (leBytes 4 5 ++ zeros 4 ++ leBytes 8 4032 ++ leBytes 4 64 ++ zeros 4 ++ leBytes 8 128)
    let s : State := { withRegion d 3 with mcs := [{ repair := some (0, 0) }] }
    let r : Region := regionOne 3
    Safety.ready s 0 0 0x23 d ∧ fld d.bytes 16 4 = 5 ∧ fld d.bytes 24 8 = 4032 ∧ fld d.bytes 32 4 = 64 ∧ fld d.bytes 40 8 = 128 ∧
      s.region 5 = some r ∧ r.lost = false ∧ 4032 % 64 = 0 ∧ 64 % 64 = 0 ∧ 128 % 64 = 0 ∧ 4032 + 64 ≤ r.size ∧
      zeroes d.bytes 20 4 = true ∧ zeroes d.bytes 36 4 = true ∧ zeroes d.bytes 48 16 = true ∧ (s.mc r.chan).repair ≠ none := by decide +kernel

/-! ### CaptureWritten -/

theorem wit_CaptureWritten_1 :
    (let d := desc 0x24 (leBytes 2 7 ++ zeros 6 ++ leBytes 8 64 ++ leBytes 4 128)
    let s : State := holding d
    Safety.ready s 0 0 0x24 d ∧ s.host.pci.busMaster = true ∧ s.pair.role ≠ 2 ∧ s.site (fld d.bytes 16 2) = none) ∧
    (let d := desc 0x24 (leBytes 2 7 ++ zeros 6 ++ leBytes 8 64 ++ leBytes 4 128)
    let s : State := withRegion d 1
    let x := { id := 7, npins := 1 }
    Safety.ready s 0 0 0x24 d ∧ s.host.pci.busMaster = true ∧ s.pair.role ≠ 2 ∧ s.site (fld d.bytes 16 2) = some x ∧
      fld d.bytes 24 8 % 64 = 0 ∧ fld d.bytes 32 4 % 64 = 0 ∧ 128 ≤ fld d.bytes 32 4 ∧ zeroes d.bytes 18 6 = true ∧
      zeroes d.bytes 36 28 = true) := by decide +kernel
theorem wit_CaptureWritten_2 :
    let s : State := withBurst (withRegion (desc 0 []) 1)
    let r : Region := regionOne 1
    s.region 5 = some r ∧ r.lost = false ∧
      (if r.kind = 3 then s.acqs.any (fun a => a.region = 5 && a.running) else s.siteRuns r.site) = true ∧
      (s.mc r.chan).repair = none ∧ s.bad = [] ∧ s.collector.armed = none := by decide +kernel
/-- A record of slice 47 for region 5, and a state in which it is the oldest of cluster 11. -/
def capRec : CapRec := { slice := 47, site := 7, region := 5, linear := true, bytes := zeros 32 }
def bufOf (s : State) (l : List CapRec) : State := s.upCl 11 (fun c => { c with cap := { c.cap with buf := l, headLen := l.length } })
def capturing : State := (bufOf (withRegion (desc 0 []) 1) [capRec]).upCl 11 (fun c => { c with cap := { c.cap with combiner := [{ region := 5, line := 2, mask := 1 }] } })
/-- That state with the region's next record behind it. -/
def capturing2 : State := bufOf capturing [capRec, { capRec with vec := 1 }]
def rg (n : Nat) : Region := { regionOne 1 with next := n, postCount := n }
theorem wit_CaptureWritten_3 :
    (let s : State := { withRegion (desc 0 []) 1 with mcs := [{ repair := some (0, 0) }] }
    let r : Region := regionOne 1
    s.region 5 = some r ∧ r.lost = false ∧ (s.mc r.chan).repair ≠ none) ∧
    (let s : State := withRegion (desc 0 []) 1
    let r : Region := regionOne 1
    s.region 5 = some r ∧ r.lost = false ∧ (s.mc r.chan).repair = none) := by decide +kernel
theorem wit_CaptureWritten_4 :
    (let s : State := { capturing with mcs := [{ repair := some (0, 0) }] }
    let rc : CapRec := capRec
    let rest : List CapRec := []
    let r := regionOne 1
    (s.cl 11).cap.buf = rc :: rest ∧ s.trigEv = [] ∧
      (∀ i < 8, (s.trigs.getD (8 * 11 + i) {}).openAt = none ∨ 2 ^ 40 ≤ s.rf F.CL_TRG_SRC_SRC [(8 * 11 + i) / 8, (8 * 11 + i) % 8]) ∧
      s.bad = [] ∧ s.region rc.region = some r ∧ (s.mc r.chan).repair ≠ none) ∧
    (let s : State := capturing2
    let rc : CapRec := capRec
    let rest : List CapRec := [{ capRec with vec := 1 }]
    let x := { capRec with vec := 1 }
    let r := regionOne 1
    let j := 0
    let r1 := rg 1
    let f1 := false
    let r2 := rg 2
    let f2 := false
    (s.cl 11).cap.buf = rc :: rest ∧ s.trigEv = [] ∧
      (∀ i < 8, (s.trigs.getD (8 * 11 + i) {}).openAt = none ∨ 2 ^ 40 ≤ s.rf F.CL_TRG_SRC_SRC [(8 * 11 + i) / 8, (8 * 11 + i) % 8]) ∧
      s.bad = [] ∧ s.joins (s.cl 11).cap rc = some x ∧ s.region rc.region = some r ∧ (s.mc r.chan).repair = none ∧
      r.place rc.linear true = (some j, r1, f1) ∧ r1.place x.linear true = (some (j + 1), r2, f2)) := by decide +kernel
theorem wit_CaptureWritten_4_b :
    (let s : State := capturing2
    let rc : CapRec := capRec
    let rest : List CapRec := [{ capRec with vec := 1 }]
    let x := { capRec with vec := 1 }
    let r := regionOne 1
    let j := 0
    let r1 := rg 1
    let f1 := false
    let r2 := rg 2
    let f2 := false
    (s.cl 11).cap.buf = rc :: rest ∧ s.trigEv = [] ∧
      (∀ i < 8, (s.trigs.getD (8 * 11 + i) {}).openAt = none ∨ 2 ^ 40 ≤ s.rf F.CL_TRG_SRC_SRC [(8 * 11 + i) / 8, (8 * 11 + i) % 8]) ∧
      s.bad = [] ∧ s.joins (s.cl 11).cap rc = some x ∧ s.region rc.region = some r ∧ (s.mc r.chan).repair = none ∧
      r.place rc.linear true = (some j, r1, f1) ∧ r1.place x.linear true = (some (j + 1), r2, f2) ∧ r1.state = r.state ∧
      r2.state = r.state ∧ s.mirroring = false ∧ rc.bytes.length = 32 ∧ x.bytes.length = 32) ∧
    (let s : State := capturing
    let rc : CapRec := capRec
    let rest : List CapRec := []
    (s.cl 11).cap.buf = rc :: rest ∧ s.trigEv = [] ∧
      (∀ i < 8, (s.trigs.getD (8 * 11 + i) {}).openAt = none ∨ 2 ^ 40 ≤ s.rf F.CL_TRG_SRC_SRC [(8 * 11 + i) / 8, (8 * 11 + i) % 8]) ∧
      s.bad = [] ∧ s.joins (s.cl 11).cap rc = none ∧ (s.mc 0).repair = none) := by decide +kernel
theorem wit_CaptureWritten_4_c :
    let s : State := capturing
    let rc : CapRec := capRec
    let rest : List CapRec := []
    let ue : Bool := false
    let r := regionOne 1
    let k := 0
    let r1 := rg 1
    let full := false
    (s.cl 11).cap.buf = rc :: rest ∧ s.trigEv = [] ∧
      (∀ i < 8, (s.trigs.getD (8 * 11 + i) {}).openAt = none ∨ 2 ^ 40 ≤ s.rf F.CL_TRG_SRC_SRC [(8 * 11 + i) / 8, (8 * 11 + i) % 8]) ∧
      s.bad = [] ∧ s.joins (s.cl 11).cap rc = none ∧ (s.mc 0).repair = none ∧ s.region rc.region = some r ∧ r.lost = false ∧
      ue = false ∧ r.place rc.linear true = (some k, r1, full) ∧ s.bad = [] ∧ s.collector.armed = none ∧ r1.state = r.state ∧
      s.mirroring = false := by decide +kernel
theorem wit_CaptureWritten_5 :
    (let s : State := capturing
    let ue : Bool := false
    let l : BmLine := { region := 5, line := 2, mask := 1 }
    let r : Region := regionOne 1
    (s.cl 11).cap.combiner[0]? = some l ∧ s.region l.region = some r ∧ r.lost = false ∧ s.mirroring = false ∧
      (s.mc r.chan).repair = none ∧ ue = false ∧ s.bad = [] ∧ s.collector.armed = none) ∧
    (let s : State := capturing
    let ue : Bool := true
    let l : BmLine := { region := 5, line := 2, mask := 1 }
    let r : Region := regionOne 1
    (s.cl 11).cap.combiner[0]? = some l ∧ s.region l.region = some r ∧ r.lost = false ∧ s.mirroring = false ∧
      (s.mc r.chan).repair = none ∧ s.mergeFails (devAddr r.chan (r.base + (64 + 64 * l.line))) ue = true) ∧
    (let s : State := { capturing with bad := [devAddr 0 (4096 + 192)] }
    let ue : Bool := false
    let l : BmLine := { region := 5, line := 2, mask := 1 }
    let r : Region := regionOne 1
    (s.cl 11).cap.combiner[0]? = some l ∧ s.region l.region = some r ∧ r.lost = false ∧ s.mirroring = false ∧
      (s.mc r.chan).repair = none ∧ s.mergeFails (devAddr r.chan (r.base + (64 + 64 * l.line))) ue = true) := by decide +kernel

/-! ### ReelWords -/

/-- A state after boot whose slice 47 runs a burst of site 7 with sequencer state q, on object 9 with FLAGS, four lines of one
block and two words, the first w. -/
def reelState (flags w : Nat) (q : Seq) : State :=
  let s := withBurst (withRegion (desc 0 []) 1)
  { s with
    slices := s.slices.set 47 { phys := some 3, ent := some (.site 7), seq := q }
    sites := [(7, { id := 7, npins := 1, slices := [47] })]
    objs := [(9, { id := 9, kind := .pattern, size := 640, base := 0, chans := [0] })]
    mem := Memory.write [] 0 (padTo (zeros 12 ++ leBytes 4 flags ++ zeros 16 ++ leBytes 4 4 ++ leBytes 4 1 ++ zeros 8 ++ leBytes 4 2) 112 ++
      leBytes 8 256 ++ zeros 136 ++ leBytes 8 w) }
/-- The word of an opcode with an argument. -/
def word (op arg : Nat) : Nat := op * 2 ^ 59 + arg
/-- A sequencer that runs with these frames and calls; a loop frame with a count; a match frame. -/
def seqOf (frames : List Frame) (calls : List (Nat × Nat)) : Seq := { state := 2, frames := frames, calls := calls }
def loopFrame (n : Nat) : Frame := { isMatch := false, count := n, word := 0, line := 0, depth := 0 }
def matchFrame (full : Bool) (iter : Nat) : Frame :=
  { isMatch := true, count := 2, word := 0, line := 0, depth := 0, start := 5, full := full, iter := iter
    body := [{ count := 1, line := 0 }] }
/-- The issuer of that state may execute the word, of which `ok` holds. -/
def reelRuns (flags w : Nat) (q : Seq) (ok : Cx → Bool) : Bool :=
  let s := reelState flags w q
  decide ((s.sl 47).seq = q) && q.mayIssue && decide (Safety.shaped s) && (s.cx 47).any (fun c => c.word q == w && ok c)
theorem issues_of (flags w : Nat) (q : Seq) (ok : Cx → Bool) (h : reelRuns flags w q ok = true) :
    ∃ c, Safety.issues (reelState flags w q) 11 3 47 c q w ∧ ok c = true := by
  simp only [reelRuns, Bool.and_eq_true, decide_eq_true_eq, Option.any_eq_true, beq_iff_eq] at h
  obtain ⟨⟨⟨h1, h2⟩, h3⟩, c, h4, h5, h6⟩ := h
  exact ⟨c, ⟨by decide, by decide, by decide, h4, h1.symm, h5.symm, h2, h3⟩, h6⟩
/-- The word of that state passes the checks of R168; or it fails one. -/
def clean (q : Seq) (c : Cx) : Bool := decide (q.pc < c.h.nInstr) && c.wordCodes q == []
def faulty (q : Seq) (c : Cx) : Bool := (lowest (c.wordCodes q)).isSome
theorem wit_ReelWords_1 : (∀ op ∈ [1, 2, 3, 4, 5, 7, 8, 9, 0x0A, 0x0B, 0x0C, 0x0D, 0x0E], reelRuns 0 (word op (2 ^ 53)) (seqOf [] []) (faulty (seqOf [] [])) = true) ∧
    reelRuns 0 (2 ^ 63 - 1) (seqOf [] []) (faulty (seqOf [] [])) = true := by decide +kernel
theorem wit_ReelWords_2 : ∀ x ∈ [(0, word 1 3, seqOf [] []), (0, word 2 (2 ^ 32 - 1), seqOf [] []), (0, word 0x0C 1, seqOf [] []),
      (2, word 0x0D 0, seqOf [] []), (0, word 0x0E 1, seqOf [] []), (0, word 3 5, seqOf [] []), (0, word 3 5, seqOf [loopFrame 2] []),
      (0, word 4 0, seqOf [loopFrame 2] []), (0, word 4 0, seqOf [loopFrame 1] []), (0, word 7 1, seqOf [] []),
      (0, word 8 1, seqOf [] []), (0, word 9 0, seqOf [] [(1, 0)]), (0, word 0x0A 1, seqOf [] []), (0, word 0x0B 1, seqOf [] [])],
    reelRuns x.1 x.2.1 x.2.2 (clean x.2.2) = true := by decide +kernel
theorem wit_ReelWords_rewound : (seqOf [] []).rewound = false ∧ (seqOf [loopFrame 2] []).rewound = true := by decide

/-! ### ReelDecisions -/

/-- The state in which a MEND of a match frame of that iteration is next, whose slice starts vector `next`, with these charged fails. -/
def mendSeq (iter next : Nat) : Seq := { seqOf [matchFrame true iter] [] with hzn := 64, next := next }
def mendState (iter next : Nat) (mfail : List (Nat × Nat × Nat)) : State :=
  let s := reelState 16 (word 6 0) (mendSeq iter next)
  { s with bursts := s.bursts.map (fun b => { b with mfail := mfail }) }
theorem wit_ReelDecisions_1 : reelRuns 16 (word 5 1) (seqOf [] []) (clean (seqOf [] [])) = true ∧
    reelRuns 16 (word 6 0) (seqOf [matchFrame false 0] []) (clean (seqOf [matchFrame false 0] [])) = true := by decide +kernel
theorem wit_ReelDecisions_2 : matchD 64 1 = 63 ∧ (∀ x ∈ [(0, 3, []), (63, 100, [(7, 0, 5)]), (63, 100, []), (64, 100, [(7, 0, 6)]), (63, 5, [])],
    ((mendState x.1 x.2.1 x.2.2).cx 47).any (fun c => c.word (mendSeq x.1 x.2.1) == word 6 0 && c.b.mfail == x.2.2) = true ∧
      (mendSeq x.1 x.2.1).mayIssue = true ∧ Safety.shaped (mendState x.1 x.2.1 x.2.2) ∧
      ((mendState x.1 x.2.1 x.2.2).sl 47).seq = mendSeq x.1 x.2.1 ∧ (mendState x.1 x.2.1 x.2.2).entSlices (.site 7) = [47]) := by decide +kernel
theorem wit_ReelDecisions_3 : ∀ isF : Bool,
    let hd : Held := { isF := isF, steer := 66, word := 1, block := 0 }
    let q : Seq := { seqOf [] [] with held := some hd, next := 3, hzn := 64 }
    let s := reelState 0 0 q
    (s.cx 47).isSome = true ∧ (s.sl 47).seq = q ∧ q.endAt = none ∧ (∀ k ∈ s.entSlices (.site 7), hd.steer < (s.sl k).seq.next + q.hzn) ∧
      Safety.shaped s := by decide +kernel
theorem wit_ReelDecisions_4 : let k : Ckpt := { rp := 2, vec := 5 }
    let q : Seq := { seqOf [] [] with pendCk := some k, next := 5 }
    let s := reelState 0 0 q
    (s.cx 47).isSome = true ∧ (s.sl 47).seq.pendCk = some k ∧ (∀ i ∈ s.entSlices (.site 7), k.vec ≤ (s.sl i).seq.next) ∧
      s.mirroring = false ∧ Safety.shaped s := by decide +kernel

/-! ### FlowControl -/

/-- The test of `Safety.stepping` as a Bool. -/
def steps (s : State) (tid op : Nat) (x : Task) (st : List Byte) : Bool :=
  decide (s.task tid = some x) && s.mayStep tid x && decide (stOp st = op) &&
    (kGet s.objs x.flow).any (fun o => !o.lost && decide (x.step < s.fpN o) && decide (s.fpStep o x.step = st))
theorem stepping_of (s : State) (tid op : Nat) (x : Task) (st : List Byte) (h : steps s tid op x st = true) : Safety.stepping s tid op x st := by
  simp only [steps, Bool.and_eq_true, decide_eq_true_eq, Option.any_eq_true] at h
  obtain ⟨⟨⟨h1, h2⟩, h3⟩, o, h4, ⟨h5, h6⟩, h7⟩ := h
  exact ⟨h1, h2, h3, o, h4, by simpa using h5, h6, h7⟩
/-- A task of site 7 that runs on core 15. -/
def runTask : Task := { state := 3, slot := 15, siteId := 7, flow := 5, step := 0 }
/-- A state after boot with site 7, object 5 a flow program of two steps, the first st, and task 9. -/
def stepState (x : Task) (st : List Byte) : State :=
  { flowState (desc 0 []) with
    paddock := { State.reset.paddock with tasks := [(9, x)] }
    mem := Memory.write [] 0 (padTo (zeros 6 ++ leBytes 2 2) 64 ++ padTo st 32) }
/-- The step of an opcode whose error goes on at step 1, with the bytes from 8 on. -/
def stepOf (op : Nat) (b : List Byte) : List Byte := padTo (leBytes 4 op ++ leBytes 2 1 ++ zeros 2 ++ b) 32
/-- That state can run the step, of an opcode, for that task. -/
def flowRuns (op : Nat) (x : Task) (b : List Byte) : Bool :=
  let s := stepState x (stepOf op b)
  steps s 9 op x (stepOf op b) && decide (Safety.shaped s) && !s.mirroring && decide (x.abortAt = none)
/-- RES of a step that ended with a status. -/
def resOf (status : Nat) : List Byte := padTo [BitVec.ofNat 8 status] 64
/-- The state a step of opcode `fld st 4 1` that ends with OK leaves before the core goes on. -/
def stepped (x : Task) (st : List Byte) : State :=
  let s := stepState x st
  (((s.upTask 9 (fun _ => x.endStep st 0 (({ status := St.ok } : Result).bytes (stOp st) x.step 1 s.dtime) none)).mirrorTask 9).incRf
    F.FC_STEPS_STEPS [((s.fslot 15).phys).getD 0])
theorem wit_FlowControl_1 : (∀ p ∈ [(0x0B, leBytes 2 1), (0x19, []), (0x17, [5]), (0x18, []), (0x10, [0, 0, 0, 0, 7]), (0x0C, [4]),
      (0x0A, [5, 3]), (0x0C, [11, 15, 0, 5, 2]), (0x0E, leBytes 4 5 ++ leBytes 2 1), (0x0E, leBytes 4 5 ++ leBytes 2 0xFFFF)],
      flowRuns p.1 runTask p.2 = true) ∧ flowRuns 0x0F { runTask with stack := [(5, 1)] } [] = true := by decide +kernel
theorem wit_FlowControl_1_b :
    let s (op : Nat) (b : List Byte) := stepState runTask (stepOf op b)
    (s 0x0A [5, 3]).srcField runTask 5 3 0 0 false = some 0 ∧ (s 0x0C [11, 15, 0, 5, 2]).srcField runTask 5 2 0 0 false = some 0 ∧
      (s 0x0E []).obj 5 = some flowObj ∧ flowObj.kind = .flow ∧ 1 < (s 0x0E []).fpN flowObj ∧ runTask.stack.length < 8 ∧
      (∀ o ∈ runTask.ops, o.busy = false) ∧ ((s 0x10 []).fslot 15).buf ≠ some 9 := by decide +kernel
theorem wit_FlowControl_2 : let x := { runTask with abortAt := some (0x21, 3) }
    steps (stepState x (stepOf 0x19 [])) 9 0x19 x (stepOf 0x19 []) = true := by decide +kernel
theorem wit_FlowControl_3 : let x := { runTask with step := 2 }
    let s := stepState x []
    s.task 9 = some x ∧ s.mayStep 9 x = true ∧ kGet s.objs x.flow = some flowObj ∧ flowObj.lost = false ∧ s.fpN flowObj ≤ x.step := by decide +kernel
theorem wit_FlowControl_stepping : Safety.stepping (stepState runTask (stepOf 0x19 [])) 9 0x19 runTask (stepOf 0x19 []) :=
  stepping_of _ _ _ _ _ (by decide +kernel)

/-! ### RetrySteps -/

theorem wit_RetrySteps_1 : let x : Task := { runTask with res := resOf 0x30 }
    let y : Task := { x with ctr := [0, 0, 0, 9] }
    let b : List Byte := [3, 9, 255, 0, 1]
    let named (x : Task) (b : List Byte) : Bool := (retryBit (fld x.res 0 1)).any (fun k => (fld (stepOf 0x0D b) 10 1).testBit k)
    flowRuns 0x0D x b = true ∧ flowRuns 0x0D y b = true ∧ flowRuns 0x0D runTask [3, 9] = true ∧ named x b = true ∧ named runTask [3, 9] = false ∧
      x.ctr.getD 3 0 < fld (stepOf 0x0D b) 9 1 ∧ fld (stepOf 0x0D b) 9 1 ≤ y.ctr.getD 3 0 := by decide +kernel

/-! ### FlowWaits -/

/-- A SIGNAL's operands: the destination, whether it is on another chip, the flags. -/
def sigOf (dest remote flags : Nat) : List Byte := leBytes 2 dest ++ leBytes 1 remote ++ zeros 5 ++ leBytes 8 flags
theorem wit_FlowWaits_1 : let f := leBytes 8 0x100
    (∀ x ∈ [{ runTask with flags := 0x100 }, runTask, { runTask with begun := true }, { runTask with begun := true, timedOut := true }],
      flowRuns 7 x f = true) ∧
    ({ runTask with flags := 0x100, wmask := 0x100 } : Task).waitHolds = true ∧ ({ runTask with wmask := 0x100 } : Task).waitHolds = false ∧
      flowRuns 8 runTask f = true ∧ flowRuns 9 runTask (zeros 8 ++ leBytes 8 5) = true ∧ flowRuns 9 runTask (zeros 16) = true ∧
      flowRuns 9 { runTask with begun := true } (zeros 8 ++ leBytes 8 5) = true := by decide +kernel
theorem wit_FlowWaits_signal : let s := stepState runTask (stepOf 0x11 (sigOf 8 1 0x10000))
    (∀ p ∈ [(9, 0, 0x10000), (8, 0, 0x10000), (8, 1, 1), (8, 0, 1), (0xFFFE, 0, 0), (8, 1, 0x10000)],
      flowRuns 0x11 runTask (sigOf p.1 p.2.1 p.2.2) = true) ∧ s.task 8 = none ∧ (s.task 9).isSome = true ∧ s.linkUp 0 = false ∧
    (let u := (s.upLk 0 (fun l => { l with state := 2 })).upLk 1 (fun l => { l with state := 2 });
      u.linkUp 0 = true ∧ u.linkUp 1 = true ∧ steps u 9 0x11 runTask (stepOf 0x11 (sigOf 8 1 0x10000)) = true) ∧
    flowRuns 0x11 { runTask with begun := true, ack := some 0 } (sigOf 8 1 0x10000) = true ∧
    flowRuns 0x11 { runTask with begun := true } (sigOf 8 1 0x10000) = true ∧ (none : Option Nat).getD St.linkDown < 256 := by decide +kernel
theorem wit_FlowWaits_lock : let s := stepState runTask (stepOf 0x12 [31])
    (∀ x ∈ [runTask, { runTask with locks := 2 ^ 31 }, { runTask with lost := 2 ^ 31 }, { runTask with begun := true },
      { runTask with begun := true, timedOut := true }], flowRuns 0x12 x [31] = true) ∧ (s.lock 31).owner = none ∧
    (let u := s.upLock 31 (fun l => { l with owner := some (.task 3) });
      (u.lock 31).owner ≠ none ∧ steps u 9 0x12 runTask (stepOf 0x12 [31]) = true ∧ Safety.shaped u) := by decide +kernel
theorem wit_FlowWaits_unlock : let x := { runTask with locks := 1 }
    let s := stepState x (stepOf 0x13 [0])
    (∀ y ∈ [runTask, x, { runTask with lost := 1 }], flowRuns 0x13 y [0] = true) ∧
    (∀ q ∈ [[], [{ prio := 1, who := .desc 0 0 }]], let u := s.upLock 0 (fun l => { l with owner := some (.task 9), queue := q });
      (u.lock 0).owner = some (.task 9) ∧ (u.lock 0).queue = q ∧ steps u 9 0x13 x (stepOf 0x13 [0]) = true ∧ Safety.shaped u) := by decide +kernel

/-! ### FlowOperations -/

/-- That state with site 7 of cluster 11, which owns chain 23 and drives DUTPWR_EN, its chain, PE port and ADC port ready, and with a list
4, a SAMPLE region 6 and a pattern 9 of one pin. -/
def opState (x : Task) (st : List Byte) : State :=
  let s := (((stepState x st).setRf F.FCHAIN_CTL_EN (cIdx 23) 1).setRf F.CL_PE_CFG_EN [11] 1).upPort 11 (fun p => { p with lock := true, aligned := true })
  let o := objOf .pattern
  { s.setRf F.CAPS_LIVE_MC_LIVE [] 1 with
    sites := [(7, { id := 7, npins := 1, chmask := 2 ^ 176, chain := 2 ^ 23, dutpwr := true, slices := [47] })]
    slices := s.slices.set 47 { phys := some 3, ent := some (.site 7) }
    regions := [(6, { regionOne 3 with id := 6 })]
    objs := [(4, { objOf .peList with id := 4, base := 4096 }), (5, flowObj), (9, { o with base := 8192 })]
    mem := Memory.write s.mem 8192 (padTo (zeros 24 ++ leBytes 2 1 ++ leBytes 2 1 ++ zeros 4 ++ leBytes 4 4 ++ leBytes 4 1 ++ zeros 8 ++ leBytes 4 2) 112 ++ leBytes 8 256) }
/-- An operation step of an opcode, with WAIT or not, whose error goes on at step 1. -/
def opOf (op wait : Nat) (b : List Byte) : List Byte := padTo (leBytes 1 op ++ leBytes 3 wait ++ leBytes 2 1 ++ zeros 2 ++ b) 32
/-- The bytes of each operation step of site 7. -/
def opBody : Nat → List Byte
  | 1 => leBytes 4 9 ++ [1]
  | 2 => leBytes 2 7 ++ leBytes 1 11 ++ leBytes 1 3 ++ leBytes 1 0 ++ leBytes 3 0
  | 3 => leBytes 2 7 ++ zeros 2 ++ leBytes 4 6 ++ leBytes 3 (2 ^ 23) ++ zeros 5 ++ leBytes 8 10
  | 4 => [0xFF, 0, 0, 0] ++ leBytes 4 4
  | _ => [1, 0xFF, 0, 0] ++ leBytes 4 4
/-- The state once the operation of that step has started, and its task there. -/
def opTaken (op wait : Nat) : State := Safety.taken (opState runTask (opOf op wait (opBody op))) 9 (opSlot op) (opOf op wait (opBody op))
def opStarted (op wait : Nat) : State := ((opTaken op wait).opStart 9 runTask (opOf op wait (opBody op))).1
def opTask (op wait : Nat) : Task := ((opStarted op wait).task 9).getD runTask
theorem wit_FlowOperations_1 : ∀ op ∈ [1, 2, 3, 4, 5],
    let x : Task := { runTask with ops := List.replicate 4 { busy := true } }
    let st := opOf op 0 (opBody op)
    steps (opState x st) 9 op x st = true ∧ (x.ops.getD (opSlot op) {}).busy = true ∧ x.begun = false ∧ x.abortAt = none := by decide +kernel
theorem wit_FlowOperations_2 : ∀ op ∈ [1, 2, 3, 4, 5], ∀ wait ∈ [0, 1], let st := opOf op wait (opBody op)
    steps (opState runTask st) 9 op runTask st = true ∧ (runTask.ops.getD (opSlot op) {}).busy = false ∧
      ((opTaken op wait).opStart 9 runTask st).2 = none ∧ (opStarted op wait).task 9 = some (opTask op wait) ∧ (opTask op wait).abortAt = none ∧
      stWait st = (wait == 1) ∧ (opStarted op wait).peWaiting 9 = false ∧ (opTask op wait).flags.testBit (opSlot op) = false := by decide +kernel
/-- In that state each operation starts as `Safety.starts` says. -/
theorem wit_FlowOperations_starts : ∀ op ∈ [1, 2, 3, 4, 5], let st := opOf op 0 (opBody op)
    let s := opTaken op 0
    let u := opStarted op 0
    (stOp st = 1 ∧ (s.submitX (taskSubmit 9 runTask st none)).1 = u ∧ (s.submitX (taskSubmit 9 runTask st none)).2 = none) ∨
      (stOp st = 2 ∧ s.ownSite runTask (fld st 8 2) = true ∧ s.measRefusal (slice st 8 24) true = 0) ∨
      (stOp st = 3 ∧ s.ownSite runTask (fld st 8 2) = true ∧ s.acqRefusal (stepAcq s.dtime st) true = 0) ∨
      (stOp st = 4 ∧ s.setPeAbsent st = false ∧ s.taskBlocked runTask = false ∧ s.setPeCheck runTask st = (0, 0)) ∨
      (stOp st = 5 ∧ s.powerAbsent st = false ∧ s.taskBlocked runTask = false ∧ s.powerCheck runTask st = (0, 0)) := by decide +kernel
theorem wit_FlowOperations_full : ∀ op ∈ [4, 5], let st := opOf op 0 (opBody op)
    let s := (opState runTask st).upPe 11 (fun p => { p with queue := List.replicate 16 { list := 4, user := .orphan } })
    steps s 9 op runTask st = true ∧ ((Safety.taken s 9 3 st).opStart 9 runTask st).2 = none ∧
      ((Safety.taken s 9 3 st).opStart 9 runTask st).1.peWaiting 9 = true := by decide +kernel
theorem wit_FlowOperations_3 : ∀ op ∈ [1, 2, 3, 4, 5], ∀ wait ∈ [0, 1], let st := opOf op wait (opBody op)
    let p := (Safety.taken (stepState runTask st) 9 (opSlot op) st).opStart 9 runTask st
    steps (stepState runTask st) 9 op runTask st = true ∧ p.2.any (fun r => decide (0x10 ≤ r.status ∧ r.status < 256)) = true ∧
      (p.1.task 9).any (fun x => decide (x.state = 3 ∧ x.abortAt = none ∧ opSlot op < x.ops.length)) = true := by decide +kernel
theorem wit_FlowOperations_4 : ∀ op ∈ [1, 2, 3, 4, 5], ∀ p ∈ [(0, 0), (1, 0), (1, 0x30)], let st := opOf op p.1 (opBody op)
    let x : Task := { runTask with begun := true, flags := 15, ops := List.replicate 4 { res := resOf p.2 } }
    steps (opState x st) 9 op x st = true ∧ (x.ops.getD (opSlot op) {}).res = resOf p.2 ∧ stWait st = (p.1 == 1) ∧
      fld (resOf p.2) 0 1 = p.2 := by decide +kernel
theorem wit_FlowOperations_5 : let st := opOf 6 0 [15]
    let x : Task := { runTask with ops := List.replicate 4 { busy := true, retryAt := some 5 } }
    let u := (bitList 4 (fld st 8 1)).foldl (fun s k => s.abortSlot 9 k) (opState x st)
    steps (opState x st) 9 6 x st = true ∧ (u.task 9).any (fun x => decide (x.abortAt = none)) = true := by decide +kernel
theorem wit_FlowOperations_6 : ∀ flag ∈ [0, 1], ∀ len ∈ [0, 128], let st := opOf 0x14 0 [5, 3, flag]
    let x : Task := { runTask with logLen := len }
    let s := stepState x st
    steps s 9 0x14 x st = true ∧ (s.logData x (fld st 8 1) (fld st 9 1) (fld st 11 1)).isSome = true ∧ s.host.pci.busMaster = true ∧
      (fld st 10 1).testBit 0 = (flag == 1) ∧
      steps { s with host := { s.host with pci := { s.host.pci with busMaster := false } } } 9 0x14 x st = true := by decide +kernel
theorem wit_FlowOperations_7 : let st (m : Byte) := opOf 0x15 0 [m, 0, 5]
    let x : Task := { runTask with siteId := 0xFFFF, groupId := 3 }
    let s (b : Bool) (m : Byte) : State := { stepState x (st m) with
      sites := [(7, { id := 7, npins := 1, group := some 3, blocked := b })], groups := [(3, { id := 3, cluster := 11, blocked := b, slices := [47] })] }
    flowRuns 0x15 runTask [2] = true ∧ runTask.groupId = 0xFFFF ∧ (∀ m ∈ [0, 1, 2], steps (s false m) 9 0x15 x (st m) = true) ∧
      (s false 2).taskBlocked x = false ∧ (s false 2).entSlices x.ent = [47] ∧ steps (s true 2) 9 0x15 x (st 2) = true ∧
      (s true 2).taskBlocked x = true := by decide +kernel
theorem wit_FlowOperations_8 : let s (k : Byte) := opState runTask (opOf 0x16 0 [k])
    let u : State := { s 95 with slices := State.reset.slices.map (fun x => { x with retired := true }) }
    (∀ k ∈ [95, 88, 96, 255, 0], steps (s k) 9 0x16 runTask (opOf 0x16 0 [k]) = true) ∧ (s 0).clGone 0 = false ∧ (s 95).clGone 11 = false ∧
      ((s 95).taskClusters runTask).contains 11 = true ∧ ((s 0).taskClusters runTask).contains 0 = false ∧ u.clGone 11 = true ∧
      steps u 9 0x16 runTask (opOf 0x16 0 [95]) = true := by decide +kernel

/-! ### PaddockHappenings -/

/-- Task 9 in the buffer of slot 15, whose core idles; with a task 8 on the core, which is held or not. -/
def buffered : State := (stepState { runTask with state := 2 } []).upFslot 15 (fun f => { f with buf := some 9, run := none, fetched := false })
def buffered8 (hold : Bool) : State := buffered.upFslot 15 (fun f => { f with run := some 8, hold := hold })
/-- A ready task beside the running one, whose quantum is over. -/
def quantumState (x : Task) : State :=
  let s := (stepState x []).setRf F.PADDOCK_CTL_QUANTUM [] 4
  { s with paddock := { s.paddock with tasks := s.paddock.tasks ++ [(10, { runTask with state := 1 })] } }
/-- PE port 11 playing a list for a user. -/
def peState (u : PeUser) : State := (opState runTask []).upPe 11 (fun p => { p with queue := [{ list := 4, user := u }], busy := true })
/-- A power sequence of task 9 that settles until 5. -/
def powerSeqOf (st : Nat) (on : Bool) (list chain : Nat) : PowerSeq :=
  { tid := 9, phase := 1, settleEnd := 5, st := st, on := on, list := list, chain := chain, settle := 0, clusters := [], left := [] }
def powered (p : PowerSeq) : State := { opState runTask [] with paddock := { (opState runTask []).paddock with powers := [p] } }
theorem wit_PaddockHappenings_1 :
    let s : State := { awake with mcs := [{ repair := some (0, 0) }] }
    s.places = false := by decide +kernel
theorem wit_PaddockHappenings_2 :
    (let s : State := buffered
    (s.fslot 15).buf = some 9 ∧ (s.fslot 15).fetched = false ∧ s.slotUp 15 = true ∧ s.places = true ∧ 15 < 16 ∧ Safety.shaped s ∧
      (s.fslot 15).run = none) ∧
    (let s : State := buffered8 false
    (s.fslot 15).buf = some 9 ∧ (s.fslot 15).fetched = false ∧ s.slotUp 15 = true ∧ s.places = true ∧ 15 < 16 ∧ Safety.shaped s ∧
      (s.fslot 15).run ≠ none ∧ (s.fslot 15).hold = false) := by decide +kernel
theorem wit_PaddockHappenings_2_b :
    let s : State := buffered8 true
    (s.fslot 15).buf = some 9 ∧ (s.fslot 15).fetched = false ∧ s.slotUp 15 = true ∧ s.places = true ∧ 15 < 16 ∧ Safety.shaped s ∧
      (s.fslot 15).run ≠ none ∧ (s.fslot 15).hold = true := by decide +kernel
theorem wit_PaddockHappenings_3 :
    (let s : State := quantumState { runTask with quantum := 4 }
    let x : Task := { runTask with quantum := 4 }
    s.task 9 = some x ∧ x.state = 3 ∧ s.slotUp x.slot = true ∧ s.quantumDue 9 x = true ∧ x.abortAt = none ∧
      (s.fslot x.slot).buf ≠ some 9) ∧
    (let s : State := quantumState ({ runTask with quantum := 4, abortAt := some (0x14, 3) } : Task)
    let x : Task := ({ runTask with quantum := 4, abortAt := some (0x14, 3) } : Task)
    let a := 0x14
    let q := 3
    s.task 9 = some x ∧ x.state = 3 ∧ s.slotUp x.slot = true ∧ s.quantumDue 9 x = true ∧ x.abortAt = some (a, q)) := by decide +kernel
theorem wit_PaddockHappenings_4 :
    (let s : State := stepState { runTask with state := 4, slot := 0xFF, wakeT := 5, wkind := 1, wmask := 1 } []
    let x : Task := { runTask with state := 4, slot := 0xFF, wakeT := 5, wkind := 1, wmask := 1 }
    s.task 9 = some x ∧ x.state = 4 ∧ x.wakeT ≠ 0 ∧ x.wakeT ≤ 5 ∧ s.power.lull = 0 ∧ (x.wkind = 4 → x.wmask = 0x100)) ∧
    (let s : State := stepState { runTask with state := 4, slot := 0xFF, wakeT := 5, wkind := 2, wmask := 1 } []
    let x : Task := { runTask with state := 4, slot := 0xFF, wakeT := 5, wkind := 2, wmask := 1 }
    s.task 9 = some x ∧ x.state = 4 ∧ x.wakeT ≠ 0 ∧ x.wakeT ≤ 5 ∧ s.power.lull = 0 ∧ (x.wkind = 4 → x.wmask = 0x100)) ∧
    (let s : State := stepState { runTask with state := 4, slot := 0xFF, wakeT := 5, wkind := 3, wmask := 1 } []
    let x : Task := { runTask with state := 4, slot := 0xFF, wakeT := 5, wkind := 3, wmask := 1 }
    s.task 9 = some x ∧ x.state = 4 ∧ x.wakeT ≠ 0 ∧ x.wakeT ≤ 5 ∧ s.power.lull = 0 ∧ (x.wkind = 4 → x.wmask = 0x100)) ∧
    (let s : State := stepState { runTask with state := 4, slot := 0xFF, wakeT := 5, wkind := 4, wmask := 0x100 } []
    let x : Task := { runTask with state := 4, slot := 0xFF, wakeT := 5, wkind := 4, wmask := 0x100 }
    s.task 9 = some x ∧ x.state = 4 ∧ x.wakeT ≠ 0 ∧ x.wakeT ≤ 5 ∧ s.power.lull = 0 ∧ (x.wkind = 4 → x.wmask = 0x100)) := by decide +kernel
theorem wit_PaddockHappenings_5 : let x (k : Nat) : Task := { runTask with ops := List.replicate 4 ({} : OpSlot) |>.set k { busy := true, retryAt := some 5, step := opOf (k + 1) 0 (opBody (k + 1)) } }
    (∀ k ∈ [1, 3], (opState (x k) []).task 9 = some (x k) ∧ (List.range 4).filter (fun j => ((x k).ops.getD j {}).retryAt.any (fun a => a ≤ 5)) = [k]) ∧
    (let s := (opState (x 3) []).at 5
     s.setPeAbsent (opOf 4 0 (opBody 4)) = false ∧ s.taskBlocked (x 3) = false ∧ s.setPeCheck (x 3) (opOf 4 0 (opBody 4)) = (0, 0)) := by decide +kernel
theorem wit_PaddockHappenings_6 : ∀ u ∈ [PeUser.orphan, .power 9, .calib 11 0 false, .setPe 9],
    ((peState u).pePort 11).queue = { list := 4, user := u } :: [] ∧ ((peState u).pePort 11).busy = true ∧ Safety.shaped (peState u) ∧
      (((peState u).peSend 11 ((peState u).peFrames 4)).upPe 11 (fun p => { p with queue := [], busy := false })).paddock.peWaits = [] := by decide +kernel
theorem wit_PaddockHappenings_7 :
    (let s : State := powered (powerSeqOf 0 false 0xFFFFFFFF 0)
    let p : PowerSeq := powerSeqOf 0 false 0xFFFFFFFF 0
    s.powerOf 9 = some p ∧ p.phase = 1 ∧ p.settleEnd ≤ 5) ∧
    (let s : State := powered (powerSeqOf 3 false 0xFFFFFFFF 0)
    let p : PowerSeq := powerSeqOf 3 false 0xFFFFFFFF 0
    s.powerOf 9 = some p ∧ p.phase = 1 ∧ p.settleEnd ≤ 5) ∧
    (let s : State := powered (powerSeqOf 0 false 4 0)
    let p : PowerSeq := powerSeqOf 0 false 4 0
    s.powerOf 9 = some p ∧ p.phase = 1 ∧ p.settleEnd ≤ 5) ∧
    (let s : State := powered (powerSeqOf 3 true 4 0)
    let p : PowerSeq := powerSeqOf 3 true 4 0
    s.powerOf 9 = some p ∧ p.phase = 1 ∧ p.settleEnd ≤ 5) ∧
    (let s : State := powered (powerSeqOf 0 true 4 23)
    let p : PowerSeq := powerSeqOf 0 true 4 23
    s.powerOf 9 = some p ∧ p.phase = 1 ∧ p.settleEnd ≤ 5) ∧
    (let s : State := powered (powerSeqOf 0 true 4 255)
    let p : PowerSeq := powerSeqOf 0 true 4 255
    s.powerOf 9 = some p ∧ p.phase = 1 ∧ p.settleEnd ≤ 5) := by decide +kernel

/-! ### BurstsSubmitted -/

/-- Site 7 of slice 47 with the pattern 9 of those flags and no burst, and a descriptor in flight. -/
def runState (d : Desc) (flags : Nat) : State :=
  { reelState flags 0 {} with
    bursts := [], sites := [(7, { id := 7, slices := [47] })], host := (holding d).host }
/-- A RUN_BURST of site 7 in a MODE with a wait; the submission it makes; the burst. -/
def runDesc (mode wait : Nat) : Desc := desc 0x18 (leBytes 2 7 ++ leBytes 2 0xFFFF ++ leBytes 4 9 ++ leBytes 4 mode ++ leBytes 4 wait)
def runSubmit (s : State) (d : Desc) : Submit :=
  { form := (fld d.bytes 16 2 = 0xFFFF) != (fld d.bytes 18 2 = 0xFFFF) && zeroes d.bytes 25 3 && zeroes d.bytes 32 32, ent := .site 7
    owner := .desc 0 0, obj := fld d.bytes 20 4, mode := fld d.bytes 24 1, wait := fld d.bytes 28 4, prio := s.rf F.RINGK_CFG_PRIO [0] }
def noBurst : Burst := { ent := .site 7, owner := .nobody, obj := 9, named := 9, mode := 0, prio := 0, arrival := 0, submitted := 0 }
def okBurst (r : Except Result Burst) : Burst := match r with
  | .ok b => b
  | .error _ => noBurst
def errOf (r : Except Result Burst) : Result := match r with
  | .ok _ => { status := 0 }
  | .error r => r
/-- That state with admission of no burst, since TREF came back less than 1 ms ago. -/
def heldOff (d : Desc) (flags : Nat) : State := { runState d flags with clk := { awake.clk with trefHold := true } }
/-- A burst of site 7 that has filled, in one slice, or in two of two clusters, or across chips. -/
def filledState (b : Burst) (x : Site) (two : Bool) : State :=
  let s := reelState 0 0 { state := 1, ended := true }
  { s with
    bursts := [b], sites := [(7, x)]
    slices := if two then s.slices.set 43 { phys := some 2, ent := some (.site 7), seq := { state := 1, ended := true } } else s.slices }
/-- A context that stands where a state has none. -/
def cxD : Cx := { b := xBurst, o := objOf .pattern, rd := fun _ => 0, h := hdrOf (fun _ => 0), js := [], setup := [] }
def filledBurst : Burst := { noBurst with admitted := true }
def oneSlice : Site := { id := 7, npins := 1, slices := [47] }
def twoSlices : Site := { id := 7, npins := 2, slices := [43, 47] }
def acrossChips : Site := { id := 7, npins := 2, slices := [47], xchip := true, span := 2 }
theorem wit_BurstsSubmitted_1 : let d := runDesc 0 0
    let s := runState d 0x1000000
    let none' : State := { s with sites := [] }
    Safety.ready s 0 0 0x18 d ∧ fld d.bytes 16 2 = 7 ∧ s.entX (.site 7) = none ∧ (errOf ((none'.begin 0 0).submitCheck (runSubmit none' d))).status = St.bad ∧
      (okBurst ((s.begin 0 0).submitCheck (runSubmit s d))).owner = .desc 0 0 ∧
      (kGet s.objs 9).any (fun o => (s.begin 0 0).neverFits o (.site 7)) = true := by decide +kernel
/-- Whether the burst that such a descriptor submits fits at once. -/
def fitsAt (s : State) (d : Desc) : Bool :=
  let b := okBurst ((s.begin 0 0).submitCheck (runSubmit s d))
  let s2 : State := { s.begin 0 0 with bursts := s.bursts ++ [b], arrivals := s.arrivals + 1 }
  b.owner == .desc 0 0 && (kGet s.objs 9).any (fun o => !(s.begin 0 0).neverFits o (.site 7) && !o.unloading &&
    decide (s2.fitFails o (s2.planParts s2.cache o (.site 7)).1 = []))
theorem wit_BurstsSubmitted_1_a : fitsAt (runState (runDesc 0 0) 0) (runDesc 0 0) = true ∧ (runState (runDesc 0 0) 0).queued = [] ∧
    Safety.shaped (runState (runDesc 0 0) 0) ∧ (∀ p ∈ [(0, 0), (1, 0), (2, 0), (2, 5)], let d := runDesc p.1 p.2
      Safety.ready (heldOff d 0) 0 0 0x18 d ∧ fitsAt (heldOff d 0) d = false ∧
        (okBurst (((heldOff d 0).begin 0 0).submitCheck (runSubmit (heldOff d 0) d))).owner = .desc 0 0) := by decide +kernel
theorem wit_BurstsSubmitted_2 :
    let s : State := filledState filledBurst oneSlice false
    let isGroup : Bool := false
    let e : Ent := .site 7
    let b : Burst := filledBurst
    e = entOf isGroup 7 ∧ s.burst e = some b ∧ b.admitted = true ∧ b.running = false ∧ b.fin = none ∧ s.filled e = true ∧
      (∀ g ∈ s.entSlices e, s.islUp (g / 4) = true) ∧ (b.apgUnit = none ∨ s.islUp 27 = true) ∧ s.entX e = none ∧ s.multi e = false := by decide +kernel
theorem wit_BurstsSubmitted_3 : let s := reelState 0 0 { state := 1, ended := true }
    (s.cx 47).any (fun c => c.b.restart == none) = true ∧ Safety.shaped s := by decide +kernel
theorem wit_BurstsSubmitted_4 :
    let d := (desc 0x1A (leBytes 1 3 ++ zeros 15 ++ leBytes 4 128))
    let s : State := runState d 0
    Safety.ready s 0 0 0x1A d ∧ fld d.bytes 16 1 < 64 ∧ zeroes d.bytes 17 7 = true ∧ fld d.bytes 24 8 % 64 = 0 ∧
      fld d.bytes 32 4 % 64 = 0 ∧ 64 ≤ fld d.bytes 32 4 ∧ zeroes d.bytes 36 4 = true ∧ zeroes d.bytes 48 16 = true ∧
      s.host.pci.busMaster = true ∧
      2 = min (s.placementEntries (fld d.bytes 16 1) (fld d.bytes 40 8)).length ((fld d.bytes 32 4 - 64) / 32) := by decide +kernel
theorem wit_BurstsSubmitted_5 :
    let s : State := awake
    Safety.writable s (F.ADM_CTL_CEIL_PCT.off []) = true := by decide +kernel
theorem wit_BurstsSubmitted_6 :
    (let d := desc 0x19 (leBytes 2 7 ++ leBytes 2 0xFFFF ++ leBytes 1 15)
    let s : State := { runState d 0 with sites := [] }
    let e : Ent := .site 7
    Safety.ready s 0 0 0x19 d ∧ e = (if fld d.bytes 16 2 ≠ 0xFFFF then .site (fld d.bytes 16 2) else .group (fld d.bytes 18 2)) ∧
      s.declared e = false) ∧
    (let d := desc 0x19 (leBytes 2 7 ++ leBytes 2 0xFFFF ++ leBytes 1 15)
    let s : State := runState d 0
    let e : Ent := .site 7
    Safety.ready s 0 0 0x19 d ∧ e = (if fld d.bytes 16 2 ≠ 0xFFFF then .site (fld d.bytes 16 2) else .group (fld d.bytes 18 2)) ∧
      s.declared e = true ∧ ((fld d.bytes 16 2 = 0xFFFF) ↔ ¬ fld d.bytes 18 2 = 0xFFFF) ∧ fld d.bytes 20 1 < 16 ∧
      zeroes d.bytes 21 43 = true) := by decide +kernel

/-! ### BurstsProceed -/

/-- A burst of site 7 that waits for admission, with a deadline; a state that holds it alone. -/
def queuedBurst : Burst := { noBurst with mode := 2, deadline := some 5 }
def queuedState : State := { heldOff (desc 0 []) 0 with bursts := [queuedBurst] }
/-- The same with AGE_LIMIT 1 at DTIME 10,001. -/
def agedState : State := (queuedState.setRf F.ADM_CTL_AGE_LIMIT [] 1).at 10001
/-- An admitted part across chips that has not started. -/
def partBurst : Burst := { noBurst with admitted := true, admittedAt := 3, ready := [0] }
def partState (xhold : Nat) : State :=
  ({ runState (desc 0 []) 0 with sites := [(7, acrossChips)], bursts := [partBurst] } : State).setRf F.ADM_CTL_XHOLD [] xhold
/-- A queue of one padding vector; timing set 0 on cluster 11. -/
def oneVec : Seq := { seqOf [] [] with queue := [{ count := 1, pad := true }], avail := [0], time := 100001 }
def timed (s : State) : State := s.upCl 11 (fun c => { c with tsets := [(0, { num := 0, bytes := tsetBytes })] })
/-- Slice 47 with an end, of a site of one chip, or of one across chips. -/
def endedState (x : EndAt) (st : Site) (time : Nat) : State :=
  { reelState 0 0 { seqOf [] [] with endAt := some x, time := time } with sites := [(7, st)], dtime := 1700 }
theorem wit_BurstsProceed_1 :
    let s : State := queuedState
    let isGroup : Bool := false
    let b : Burst := queuedBurst
    s.burst (entOf isGroup 7) = some b ∧ b.admitted = false ∧ b.fin = none ∧ b.deadline = some 5 ∧ 5 ≤ 9 := by decide +kernel
theorem wit_BurstsProceed_2 :
    let s : State := queuedState.setRf F.ADM_CTL_AGE_LIMIT [] 1
    let isGroup : Bool := false
    let b : Burst := queuedBurst
    s.burst (entOf isGroup 7) = some b ∧ b.admitted = false ∧ b.fin = none ∧ (s.at 10001).aged b = true := by decide +kernel
theorem wit_BurstsProceed_3 :
    let s : State := agedState
    let b : Burst := queuedBurst
    let o : Obj := objOf .pattern
    kGet s.objs b.obj = some o ∧ o.unloading = false ∧ s.fitFails o (s.planParts s.cache o b.ent).1 ≠ [] ∧ s.aged b = true := by decide +kernel
theorem wit_BurstsProceed_4 :
    let s : State := partState 0
    let isGroup : Bool := false
    let e : Ent := .site 7
    let b : Burst := partBurst
    e = entOf isGroup 7 ∧ s.burst e = some b ∧ b.admitted = true ∧ b.running = false ∧ (s.entX e).isSome = true ∧ b.startAt = none ∧
      b.fin = none ∧ b.admittedAt + 10000 * max 1 (s.rf F.ADM_CTL_XHOLD) ≤ 10003 := by decide +kernel
theorem wit_BurstsProceed_5 : let s (q : Seq) := reelState 0 0 q
    let q := { seqOf [] [] with stop := some (9, 0x11) }
    ((s (seqOf [] [])).cx 47).any (fun c => c.b.running) = true ∧ ((s (seqOf [] [])).sl 47).seq.endAt = none ∧
      ((s (seqOf [] [])).sl 47).seq.stop = none ∧ Safety.shaped (s (seqOf [] [])) ∧ ((s q).sl 47).seq.stop = some (9, 0x11) ∧
      ((s q).cx 47).any (fun c => c.b.running) = true ∧ isFailure 0x11 = true ∧ isFailure 0x05 = false ∧
      Safety.writable (s (seqOf [] [])) (F.CL_SEQ_CTL_ABORT.off [11]) = true ∧ 11 < (s (seqOf [] [])).nCl := by decide +kernel
theorem wit_BurstsProceed_7 :
    let s : State := awake
    Safety.writable s (F.CL_SEQ_CTL_ABORT.off [11]) = true ∧ 11 < s.nCl := by decide +kernel
theorem wit_BurstsProceed_8 : let q : Seq := { seqOf [] [] with stop := some (0, 0x11), time := 100001, ended := true }
    let s := reelState 0 0 q
    let s' := timed (reelState 0 0 oneVec)
    let idle := reelState 0 0 { seqOf [] [] with time := 100001 }
    (s.boundaryXoff.cx 47).any (fun c => c.b.running && (s.boundaryXoff.endCause c 11 q).isSome) = true ∧ (s.sl 47).seq = q ∧ q.state = 2 ∧
      (s'.cx 47).any (fun c => c.b.running && (s'.endCause c 11 oneVec).isNone) = true ∧ (s'.sl 47).seq = oneVec ∧ oneVec.queue ≠ [] ∧
      (idle.cx 47).any (fun c => c.b.running) = true ∧ (idle.sl 47).seq.queue = [] := by decide +kernel
theorem wit_BurstsProceed_9 :
    (let s : State := endedState { vec := 4, status := 0x11 } oneSlice 2000000
    let isGroup : Bool := false
    let e : Ent := .site 7
    let b : Burst := { admittedOf (.site 7) with running := true }
    let ends : List EndAt := [{ vec := 4, status := 0x11 }]
    e = entOf isGroup 7 ∧ s.burst e = some b ∧ b.admitted = true ∧ (b.running = true ∨ b.fin = none) ∧
      ends = (s.entSlices e).filterMap (fun g => (s.sl g).seq.endAt) ∧ ends ≠ [] ∧ ends.length = (s.entSlices e).length ∧
      s.drained e = true ∧ (s.entX e = none ∨ s.endTime e + 1600 ≤ s.dtime) ∧ s.ballastOn = false) ∧
    (let s : State := endedState { vec := 4, status := 0x11 } acrossChips 200000
    let isGroup : Bool := false
    let e : Ent := .site 7
    let b : Burst := { admittedOf (.site 7) with running := true }
    let ends : List EndAt := [{ vec := 4, status := 0x11 }]
    e = entOf isGroup 7 ∧ s.burst e = some b ∧ b.admitted = true ∧ (b.running = true ∨ b.fin = none) ∧
      ends = (s.entSlices e).filterMap (fun g => (s.sl g).seq.endAt) ∧ ends ≠ [] ∧ ends.length = (s.entSlices e).length ∧
      s.drained e = true ∧ (s.entX e = none ∨ s.endTime e + 1600 ≤ s.dtime) ∧ s.ballastOn = false) := by decide +kernel
theorem wit_BurstsProceed_10 :
    let s : State := { queuedState with bursts := [{ queuedBurst with fin := some { vec := 4, status := 0x11 } }] }
    let isGroup : Bool := false
    let b : Burst := { queuedBurst with fin := some { vec := 4, status := 0x11 } }
    let x : EndAt := { vec := 4, status := 0x11 }
    s.burst (entOf isGroup 7) = some b ∧ b.running = false ∧ b.fin = some x ∧ s.entX (entOf isGroup 7) = none := by decide +kernel

/-! ### MemoryTraffic -/

/-- A state after boot whose memory channel 7 is live, trained and serves. -/
def serving : State := (awake.setRf F.CAPS_LIVE_MC_LIVE [] 0x80).setRf F.MC_STAT_RATE [7] 3
/-- The same with channel 7 changed. -/
def servingWith (f : Mc → Mc) : State := serving.upMc 7 f
/-- Channel 7 hot since a poll, and called for less since a time. -/
def hotState (a : Option Nat) : State :=
  let s := servingWith (fun c => { c with hot := true, cool := a })
  { s with collector := { s.collector with live := [(20, 20, 0)] } }
/-- A request at channel 7: of a requester, at an offset, of a size. -/
def ask (id off size : Nat) : ArbReq := { id := id, addr := 7 * 2 ^ 36 + off, size := size }
/-- Task 9 has priority 7, so that its context read is urgent. -/
def taskPrio7 (s : State) : State := { s with paddock := { s.paddock with tasks := [(9, { flow := 5, step := 0, prio := 7 })] } }
theorem wit_MemoryTraffic_1 : let s := servingWith (fun c => { c with selfref := true })
    serving.mcLive 7 = true ∧ Safety.shaped serving ∧ (ask 0x40 1760 4096).rt = false ∧ s.mcLive 7 = true ∧ s.mcServes 7 = false := by decide +kernel
theorem wit_MemoryTraffic_3 : let s := servingWith (fun c => { c with owed := 8 })
    let u := (((taskPrio7 s).at 5).arriveAll 7 [{ ask 0x38 0 64 with tid := 9 }, ask 0x2E 64 32]).arbRefresh 7
    serving.mcServes 7 = true ∧ s.mcServes 7 = true ∧ Safety.shaped s ∧ 6 ≤ (s.mc 7).owed ∧ (((serving.at 5).arriveAll 7 []).arbRefresh 7).arbGrant 7 = none ∧
      u.arbGrant 7 = some ({ ask 0x38 0 64 with tid := 9 }, true) ∧ (u.mc 7).queue.length = 2 := by decide +kernel
theorem wit_MemoryTraffic_4 :
    let s : State := servingWith (fun c => { c with owed := 8 })
    s.mcLive 7 = true ∧ (s.mc 7).selfref = false ∧ 7 < 8 ∧ Safety.shaped s := by decide +kernel
theorem wit_MemoryTraffic_5 :
    (let s : State := serving
    7 < s.nMc ∧ Safety.writable s (F.MC_ARB_LIMIT_LIMIT.off [7]) = true) ∧
    (let s : State := serving
    7 < s.nMc ∧ Safety.writable s (F.MC_ARB_PRIO_BASE.off [7]) = true) := by decide +kernel
theorem wit_MemoryTraffic_6 :
    (let s : State := servingWith (fun c => { c with queue := [ask 3 0 32] })
    ((∃ r ∈ (s.mc 7).queue, r.rt = true) ∨ s.mcServes 7 = false)) ∧
    (let s : State := servingWith (fun c => { c with repair := some (3, 9) })
    ((∃ r ∈ (s.mc 7).queue, r.rt = true) ∨ s.mcServes 7 = false)) := by decide +kernel
theorem wit_MemoryTraffic_7 :
    (let s : State := serving
    s.maintains 7 = true ∧ 7 < 8 ∧ Safety.shaped s ∧ 2 < 3) ∧
    (let s : State := serving
    s.maintains 7 = true ∧ 7 < 8 ∧ Safety.shaped s ∧ 2 ≤ 2 ∧ (s.mc 7).hot = false) := by decide +kernel
theorem wit_MemoryTraffic_7_b :
    (let s : State := hotState none
    let a := 7
    s.maintains 7 = true ∧ 7 < 8 ∧ Safety.shaped s ∧ 0 ≤ 2 ∧ (s.mc 7).hot = true ∧ a = (s.mc 7).cool.getD (s.at 7).dtime ∧
      (s.at 7).dtime < a + 10000000) ∧
    (let s : State := hotState (some 8)
    let a := 8
    s.maintains 7 = true ∧ 7 < 8 ∧ Safety.shaped s ∧ 0 ≤ 2 ∧ (s.mc 7).hot = true ∧ a = (s.mc 7).cool.getD (s.at 9).dtime ∧
      (s.at 9).dtime < a + 10000000) := by decide +kernel
theorem wit_MemoryTraffic_7_c :
    let s : State := hotState (some 8)
    let a := 8
    s.maintains 7 = true ∧ 7 < 8 ∧ Safety.shaped s ∧ 0 ≤ 2 ∧ (s.mc 7).hot = true ∧ a = (s.mc 7).cool.getD (s.at 10000008).dtime ∧
      a + 10000000 ≤ (s.at 10000008).dtime := by decide +kernel
theorem wit_MemoryTraffic_8 :
    (let s : State := serving
    s.mcServes 7 = true ∧ 7 < 8 ∧ Safety.shaped s ∧ s.maintains 7 = true) ∧
    (let s : State := serving
    s.mcServes 7 = true ∧ 7 < 8 ∧ Safety.shaped s ∧ s.maintains 7 = true) ∧
    (let s : State := serving.setRf F.MC_ECC_CTL_SCRUB_EN [7] 1
    s.mcServes 7 = true ∧ 7 < 8 ∧ Safety.shaped s ∧ s.rb F.MC_ECC_CTL_SCRUB_EN [7] = true) := by decide +kernel

/-! ### MemoryErrorsAndRepair -/

/-- A read of channel 7 at granule 1 by a requester for the vector 3 of slice 47, with the wrong bits of its words. -/
def readOf (req : Nat) (flips : List Nat) : ReadRet := { addr := 7 * 2 ^ 36 + 64, req := req, flips := flips, sl := 47, vec := 3, t := 5 }
/-- That channel serving under a burst of slice 47; its granule 1 bad; an injection armed at it. -/
def fetching : State := (reelState 0 0 (seqOf [] [])).setRf F.MC_STAT_RATE [7] 3 |>.setRf F.CAPS_LIVE_MC_LIVE [] 0x81
def badGranule : State := { fetching with bad := [7 * 2 ^ 36 + 64] }
def injected (corrected : Bool) : State := { fetching with collector := { fetching.collector with armed := some (7 * 2 ^ 36 + 64, corrected) } }
/-- The same with a branch held at vector 3, whose target lies in the branch buffer. -/
def branching : State := (reelState 0 0 { seqOf [] [] with
  held := some { isF := true, steer := 3, word := 1, block := 0 }, brbuf := some { words := (256, 264), streams := [] } }).setRf F.MC_STAT_RATE [7] 3 |>.setRf F.CAPS_LIVE_MC_LIVE [] 0x81
theorem wit_MemoryErrorsAndRepair_1 :
    (let s : State := fetching
    let u : State := fetching.at 5
    let r : ReadRet := readOf 3 []
    s.returns 7 r = true ∧ u = s.at r.t) ∧
    (let s : State := fetching
    let u : State := fetching.at 5
    let r : ReadRet := readOf 3 [0, 4]
    s.returns 7 r = true ∧ u = s.at r.t) ∧
    (let s : State := fetching
    let u : State := fetching.at 5
    let r : ReadRet := readOf 0x14 [1]
    s.returns 7 r = true ∧ u = s.at r.t) ∧
    (let s : State := fetching
    let u : State := fetching.at 5
    let r : ReadRet := readOf 3 [3]
    s.returns 7 r = true ∧ u = s.at r.t) ∧
    (let s : State := badGranule
    let u : State := badGranule.at 5
    let r : ReadRet := readOf 3 []
    s.returns 7 r = true ∧ u = s.at r.t) ∧
    (let s : State := branching
    let u : State := branching.at 5
    let r : ReadRet := readOf 3 [3]
    s.returns 7 r = true ∧ u = s.at r.t) ∧
    (let s : State := fetching
    let u : State := fetching.at 5
    let r : ReadRet := readOf 0x21 [0, 0, 5]
    s.returns 7 r = true ∧ u = s.at r.t) ∧
    (let s : State := injected true
    let u : State := (injected true).at 5
    let r : ReadRet := readOf 3 []
    s.returns 7 r = true ∧ u = s.at r.t) ∧
    (let s : State := injected false
    let u : State := (injected false).at 5
    let r : ReadRet := readOf 3 [1]
    s.returns 7 r = true ∧ u = s.at r.t) ∧
    (let s : State := badGranule
    let u : State := badGranule.at 5
    let r : ReadRet := readOf 3 []
    s.returns 7 r = true ∧ u = s.at r.t ∧ (r.err = 2 ∨ s.bad.contains (r.addr / 64 * 64) = true)) ∧
    (let s : State := injected true
    let u : State := (injected true).at 5
    let r : ReadRet := readOf 3 []
    let c := true
    s.returns 7 r = true ∧ u = s.at r.t ∧ r.err ≠ 2 ∧ s.bad.contains (r.addr / 64 * 64) = false ∧
      s.collector.armed = some (r.addr / 64 * 64, c)) := by decide +kernel
theorem wit_MemoryErrorsAndRepair_1_b :
    (let s : State := fetching
    let u : State := fetching.at 5
    let r : ReadRet := readOf 3 []
    s.returns 7 r = true ∧ u = s.at r.t ∧ r.err = 0 ∧ s.bad.contains (r.addr / 64 * 64) = false ∧ s.useInjection r.addr = none) ∧
    (let s : State := fetching
    let u : State := fetching.at 5
    let r : ReadRet := readOf 3 [1]
    s.returns 7 r = true ∧ u = s.at r.t ∧ r.err = 1 ∧ s.bad.contains (r.addr / 64 * 64) = false ∧ s.useInjection r.addr = none) := by decide +kernel
theorem wit_MemoryErrorsAndRepair_2 :
    let d : Detect := { addr := 7 * 2 ^ 36 + 64, req := 3, access := 0, ue := false }
    d.ue = false := by decide +kernel
theorem wit_MemoryErrorsAndRepair_3 :
    let d : Detect := { addr := 7 * 2 ^ 36 + 64, req := 3, access := 0, ue := true }
    d.ue = true := by decide +kernel
theorem wit_MemoryErrorsAndRepair_4 :
    (let v : W64 := BitVec.ofNat 64 5
    let s := servingWith (fun c => { c with pending := [(3, 9)] })
    let u := ({ s with held := none } : State).hostAccess.writeFields (F.MC_PPR_CTL_MODE.off [7]) v
    Safety.writable s (F.MC_PPR_CTL_MODE.off [7]) = true ∧ 7 < s.nMc ∧
      u = ({ s with held := none } : State).hostAccess.writeFields (F.MC_PPR_CTL_MODE.off [7]) v ∧ s.mcLive 7 = true ∧
      v.toNat.testBit 2 = true ∧ u.rf F.MC_PPR_CTL_MODE [7] = 1) ∧
    (let v : W64 := BitVec.ofNat 64 1
    let s := serving
    let u := ({ s with held := none } : State).hostAccess.writeFields (F.MC_PPR_CTL_MODE.off [7]) v
    Safety.writable s (F.MC_PPR_CTL_MODE.off [7]) = true ∧ 7 < s.nMc ∧
      u = ({ s with held := none } : State).hostAccess.writeFields (F.MC_PPR_CTL_MODE.off [7]) v ∧
      (v.toNat.testBit 2 = false ∨ u.rf F.MC_PPR_CTL_MODE [7] ≠ 1)) := by decide +kernel
theorem wit_MemoryErrorsAndRepair_5 :
    let s : State := servingWith (fun c => { c with pending := [(3, 9)] })
    let br : Nat × Nat := (3, 9)
    let rest : List (Nat × Nat) := []
    (s.mc 7).pending = br :: rest ∧ s.mcServes 7 = true ∧ 7 < 8 ∧ Safety.shaped s := by decide +kernel
theorem wit_MemoryErrorsAndRepair_6 :
    let s : State := (servingWith (fun c => { c with pending := [(3, 9)] })).setRf F.MC_PPR_CTL_MODE [7] 2
    s.rf F.MC_PPR_CTL_MODE [7] = 2 ∧ s.chanNeeded 7 = false ∧ (s.mc 7).idleSince + 100000000 ≤ 100000000 := by decide +kernel
theorem wit_MemoryErrorsAndRepair_7 :
    (let s : State := servingWith (fun c => { c with repair := some (3, 9), ppr := [3, 4] })
    let br : Nat × Nat := (3, 9)
    (s.mc 7).repair = some br ∧ 7 < 8 ∧ Safety.shaped s ∧ (s.mc 7).pending = []) ∧
    (let s : State := servingWith (fun c => { c with repair := some (3, 9), ppr := [3, 4], pending := [(4, 1)] })
    let br : Nat × Nat := (3, 9)
    let br2 := (4, 1)
    let rest := []
    (s.mc 7).repair = some br ∧ 7 < 8 ∧ Safety.shaped s ∧ (s.mc 7).pending = br2 :: rest ∧ (∀ x ∈ (s.mc 7).pending, x.1 ≠ br.1) ∧
      s.mcLive 7 = true ∧ s.rf F.MC_STAT_RATE [7] ≠ 0 ∧ s.islUp (13 + 7) = true ∧ (s.mc 7).selfref = false) := by decide +kernel

/-! ### AdcPortsAndChains -/

/-- Port 11 as given. -/
def portState (p : Port) : State := awake.upPort 11 (fun _ => p)
/-- The same, with EN. -/
def portOn (p : Port) : State := (portState p).setRf F.CL_ADC_CFG_EN [11] 1
theorem wit_AdcPortsAndChains_1 :
    (let v : W64 := BitVec.ofNat 64 5
    let s := awake
    let u := ({ s with held := none } : State).hostAccess.writeFields (F.CL_ADC_CFG_EN.off [11]) v
    Safety.writable s (F.CL_ADC_CFG_EN.off [11]) = true ∧ 11 < s.nCl ∧ Safety.shaped s ∧
      u = ({ s with held := none } : State).hostAccess.writeFields (F.CL_ADC_CFG_EN.off [11]) v ∧ u.rb F.CL_ADC_CFG_EN [11] = true ∧
      v.toNat.testBit 2 = true) ∧
    (let v : W64 := BitVec.ofNat 64 0
    let s := awake
    let u := ({ s with held := none } : State).hostAccess.writeFields (F.CL_ADC_CFG_EN.off [11]) v
    Safety.writable s (F.CL_ADC_CFG_EN.off [11]) = true ∧ 11 < s.nCl ∧ Safety.shaped s ∧
      u = ({ s with held := none } : State).hostAccess.writeFields (F.CL_ADC_CFG_EN.off [11]) v ∧
      (u.rb F.CL_ADC_CFG_EN [11] = false ∨ v.toNat.testBit 2 = false)) := by decide +kernel
theorem wit_AdcPortsAndChains_2 : let s := portOn { aligning := true, lock := true }
    (s.port 11).aligning = true ∧ Safety.shaped s ∧ (∃ r ∈ alignRuns 0xFF00, 8 ≤ r.2) ∧ (∃ r ∈ alignRuns 0xFFFFFFFF, 8 ≤ r.2) ∧
      (∀ r ∈ alignRuns 0x7F00, r.2 < 8) ∧ phaseStep 0xFF00 0 = some 11 ∧ phaseStep 0xFF00 1 = some 12 ∧ phaseStep 0x7F00 0 = none ∧
      phaseStep 0xFFFFFFFF 1 = some 16 ∧ phaseStep 0xFF0000FF 2 = some 27 := by decide +kernel
theorem wit_AdcPortsAndChains_4 :
    (let s : State := portState { lock := true, period := 1000, last := some 4 }
    (s.port 11).lock = true ∧ s.islUp 11 = true ∧ 11 < 12 ∧ Safety.shaped s ∧ (s.port 11).silent 5 = true) ∧
    (let s : State := portState { lock := true, period := 1000, last := some 4 }
    let l := 4
    (s.port 11).lock = true ∧ s.islUp 11 = true ∧ 11 < 12 ∧ Safety.shaped s ∧ (s.port 11).last = some l ∧ (s.port 11).period ≠ 0 ∧
      1000 * 4 < 250 * l + 4 * (s.port 11).period) := by decide +kernel
theorem wit_AdcPortsAndChains_5 :
    let s : State := portOn {}
    (s.port 11).lock = false ∧ s.islUp 11 = true ∧ s.rb F.CL_ADC_CFG_EN [11] = true ∧ 11 < 12 ∧ Safety.shaped s := by decide +kernel
theorem wit_AdcPortsAndChains_6 :
    (let s : State := awake
    let v : W64 := BitVec.ofNat 64 (0 * 2 ^ F.FCHAIN_CTL_PRESET.lo + 9 * 2 ^ F.FCHAIN_CTL_LEN_M1.lo + 20 * 2 ^ F.FCHAIN_CTL_DEC_LOG2.lo + 1)
    let i : Instr := .chainPreset 23 (BitVec.ofNat 64 (0 * 2 ^ F.FCHAIN_CTL_PRESET.lo + 9 * 2 ^ F.FCHAIN_CTL_LEN_M1.lo + 20 * 2 ^ F.FCHAIN_CTL_DEC_LOG2.lo + 1))
    i ∈ [Instr.chainPreset 23 v, .fchainEnable 23 v] ∧ Safety.writable s (F.FCHAIN_CTL_EN.off (cIdx 23)) = true ∧ 23 < s.nChain ∧
      Safety.shaped s) ∧
    (let s : State := awake
    let v : W64 := BitVec.ofNat 64 (1 * 2 ^ F.FCHAIN_CTL_PRESET.lo + 9 * 2 ^ F.FCHAIN_CTL_LEN_M1.lo + 20 * 2 ^ F.FCHAIN_CTL_DEC_LOG2.lo + 1)
    let i : Instr := .fchainEnable 23 (BitVec.ofNat 64 (1 * 2 ^ F.FCHAIN_CTL_PRESET.lo + 9 * 2 ^ F.FCHAIN_CTL_LEN_M1.lo + 20 * 2 ^ F.FCHAIN_CTL_DEC_LOG2.lo + 1))
    i ∈ [Instr.chainPreset 23 v, .fchainEnable 23 v] ∧ Safety.writable s (F.FCHAIN_CTL_EN.off (cIdx 23)) = true ∧ 23 < s.nChain ∧
      Safety.shaped s) := by decide +kernel

/-! ### SamplesFiltered -/

/-- Chain 23 enabled on an aligned port, with a DC mode. -/
def chainOn (dc : Nat) : State :=
  (((awake.setRf F.FCHAIN_CTL_EN (cIdx 23) 1).setRf F.CL_ADC_CFG_EN [11] 1).setRf F.FCHAIN_CTL_DCMODE (cIdx 23) dc).upPort 11
    (fun p => { p with lock := true, aligned := true })
/-- The same with a high threshold, TRIP_EN and DCK 4, and DUTPWR_EN on. -/
def tripState (dc : Nat) : State :=
  let s := ((chainOn dc).setRf F.FCHAIN_THR_HI (cIdx 23) 5).setRf F.FCHAIN_CTL_DCK (cIdx 23) 4
  { s.setRf F.FCHAIN_CTL_TRIP_EN (cIdx 23) 1 with pe := s.pe.modify 11 (fun p => { p with dutpwr := true }) }
def fedWith (s : State) (code : Nat) : Int := toSigned 16 (if s.rb F.CL_ADC_CFG_FMT [11] then code ^^^ 0x8000 else code)
theorem wit_SamplesFiltered_1 :
    let s : State := awake
    s.chainRuns 23 = false := by decide +kernel
theorem wit_SamplesFiltered_2' : let s := portOn { lock := true, last := some 1000, aligned := true }
    s.portRuns 23 = true ∧ Safety.shaped s ∧ (s.port 11).lock = true ∧ (s.port 11).last = some 1000 ∧ (s.port 11).aligned = true ∧
      s.adcCode 11 0x7FFF = 32767 ∧ s.adcCode 11 0x8000 = -32768 ∧ s.chainRuns 23 = false := by decide +kernel
theorem wit_SamplesFiltered_2 :
    let s : State := awake
    let u : State := awake.portFrame 23 5 9
    u = s.portFrame 23 5 9 ∧ s.portRuns 23 = false := by decide +kernel
theorem wit_SamplesFiltered_3 : let s := tripState 1
    (chainOn 0).chainRuns 23 = true ∧ s.chainRuns 23 = true ∧ Safety.shaped s ∧ s.cf F.FCHAIN_CTL_DCMODE 23 = 1 ∧ (s.chain 23).frozen = false ∧
      (s.chain 23).fill = 0 ∧ (s.chain 23).hiQuiet = false ∧ s.cf F.FCHAIN_CTL_TRIP_EN 23 = 1 ∧
      toSigned 24 ((tripState 0).cf F.FCHAIN_THR_HI 23) < roundDiv (128 * ([32767] : List Int).sum) 1 ∧ fedWith (tripState 0) 0x7FFF = 32767 ∧
      fedWith (tripState 0) 0x8000 = -32768 ∧ (s.chain 23).acq = none ∧
      ((chainOn 0).setRf F.FCHAIN_CTL_SELFTEST (cIdx 23) 1).cf F.FCHAIN_CTL_SELFTEST 23 = 1 := by decide +kernel
theorem wit_SamplesFiltered_4 :
    let s : State := awake.upChain 23 (fun c => { c with powUntil := some 5, recUntil := some 9 })
    23 < 24 ∧ Safety.shaped s := by decide +kernel

/-! ### AcquisitionsRun -/

/-- A state after boot with site 7, which owns chain 23, a SAMPLE region 5 of it, the chain enabled on an aligned port, and a
descriptor in flight. -/
def acqState (d : Desc) : State :=
  let s := ((withRegion d 3).setRf F.FCHAIN_CTL_EN (cIdx 23) 1).upPort 11 (fun p => { p with lock := true, aligned := true })
  { s with sites := [(7, { id := 7, npins := 1, chmask := 2 ^ 176, chain := 2 ^ 23 })] }
/-- An ACQUIRE of those, with a burst or not, and a start; an acquisition of site 7 on that chain; a state that has it; with a block
to write. -/
def acqDesc (chains withB start : Nat) : Desc :=
  desc 0x28 (leBytes 2 7 ++ leBytes 1 withB ++ zeros 1 ++ leBytes 4 5 ++ leBytes 8 chains ++ leBytes 8 10 ++ leBytes 8 start)
def acqReq (chains withB start : Nat) : AcqReq :=
  { site := 7, withBurst := withB.testBit 0, region := 5, chains := chains, duration := 10, start := start }
def oneAcq : Acq := { site := 7, region := 5, chains := 2 ^ 23, withBurst := false, duration := 10, start := 0, owner := .desc 0 0 }
def withAcq (a : Acq) : State := { acqState (desc 0x28 []) with acqs := [a] }
def aBlock : SBlk := { region := 5, site := 7, chain := 23, linear := true, bytes := zeros 64 }
def blockState : State := { withAcq oneAcq with sbufs := State.reset.sbufs.set 1 [aBlock] }
def regionAfter (ok : Bool) : Region := ((regionOne 3).place true ok).2.1
theorem wit_AcquisitionsRun_1' : let s : State := { acqState (acqDesc (2 ^ 23) 0 0) with chainsBad := [23] }
    Safety.ready s 0 0 0x28 (acqDesc (2 ^ 23) 0 0) ∧ 23 ∈ bitList 24 (acqReq (2 ^ 23) 0 0).chains ∧ s.chainsBad.contains 23 = true := by
  decide +kernel
theorem wit_AcquisitionsRun_1 :
    (let st := (acqState (acqDesc (2 ^ 23) 0 0)).acqRefusal (acqReq (2 ^ 23) 0 0) (decide (fld (acqDesc (2 ^ 23) 0 0).bytes 18 1 < 2) && zeroes (acqDesc (2 ^ 23) 0 0).bytes 19 1 && zeroes (acqDesc (2 ^ 23) 0 0).bytes 27 5 && zeroes (acqDesc (2 ^ 23) 0 0).bytes 48 16)
    let s : State := acqState (acqDesc (2 ^ 23) 0 0)
    let d : Desc := acqDesc (2 ^ 23) 0 0
    let q : AcqReq := acqReq (2 ^ 23) 0 0
    Safety.ready s 0 0 0x28 d ∧
      q = { site := fld d.bytes 16 2, withBurst := (fld d.bytes 18 1).testBit 0, region := fld d.bytes 20 4, chains := fld d.bytes 24 3, duration := fld d.bytes 32 8, start := fld d.bytes 40 8 } ∧
      st = s.acqRefusal q (decide (fld d.bytes 18 1 < 2) && zeroes d.bytes 19 1 && zeroes d.bytes 27 5 && zeroes d.bytes 48 16) ∧ st = 0) ∧
    (let st := (acqState (acqDesc (0) 0 0)).acqRefusal (acqReq (0) 0 0) (decide (fld (acqDesc (0) 0 0).bytes 18 1 < 2) && zeroes (acqDesc (0) 0 0).bytes 19 1 && zeroes (acqDesc (0) 0 0).bytes 27 5 && zeroes (acqDesc (0) 0 0).bytes 48 16)
    let s : State := acqState (acqDesc (0) 0 0)
    let d : Desc := acqDesc (0) 0 0
    let q : AcqReq := acqReq (0) 0 0
    Safety.ready s 0 0 0x28 d ∧
      q = { site := fld d.bytes 16 2, withBurst := (fld d.bytes 18 1).testBit 0, region := fld d.bytes 20 4, chains := fld d.bytes 24 3, duration := fld d.bytes 32 8, start := fld d.bytes 40 8 } ∧
      st = s.acqRefusal q (decide (fld d.bytes 18 1 < 2) && zeroes d.bytes 19 1 && zeroes d.bytes 27 5 && zeroes d.bytes 48 16) ∧ st ≠ 0) := by decide +kernel
theorem wit_AcquisitionsRun_2' : (withAcq oneAcq).region 5 = some (regionOne 3) ∧ (withAcq oneAcq).bad = [] ∧
    (withAcq oneAcq).collector.armed = none ∧ (withAcq oneAcq).mirroring = false := by decide +kernel
theorem wit_AcquisitionsRun_2 :
    let s : State := withAcq oneAcq
    let a : Acq := oneAcq
    s.acq 7 = some a ∧ a.running = false ∧ a.withBurst = false ∧ a.stopAt = none ∧ a.start ≤ 9 ∧ Safety.shaped s := by decide +kernel
theorem wit_AcquisitionsRun_3 :
    let s : State := withAcq { oneAcq with running := true }
    let a : Acq := { oneAcq with running := true }
    s.acq 7 = some a ∧ a.running = true ∧ a.withBurst = false ∧ a.stopAt = none ∧ a.startAt + a.duration ≤ 10 ∧ a.owner = .desc 0 0 ∧
      Safety.shaped s := by decide +kernel
theorem wit_AcquisitionsRun_4 :
    let s : State := awake
    s.sbufs.getD 1 [] = [] := by decide +kernel
theorem wit_AcquisitionsRun_5 :
    let s : State := { blockState with regions := [] }
    let b : SBlk := aBlock
    let rest : List SBlk := []
    s.sbufs.getD 1 [] = b :: rest ∧ s.region b.region = none := by decide +kernel
theorem wit_AcquisitionsRun_6 :
    let s : State := { blockState with mcs := [{ repair := some (0, 0) }] }
    let b : SBlk := aBlock
    let rest : List SBlk := []
    let r : Region := regionOne 3
    s.sbufs.getD 1 [] = b :: rest ∧ s.region b.region = some r ∧ r.lost = false ∧ (s.mc r.chan).repair ≠ none := by decide +kernel
theorem wit_AcquisitionsRun_7 :
    let s : State := blockState
    let b : SBlk := aBlock
    let rest : List SBlk := []
    let r : Region := regionOne 3
    let r1 : Region := regionAfter true
    let x : Bool := false
    let a : Acq := oneAcq
    s.sbufs.getD 1 [] = b :: rest ∧ s.region b.region = some r ∧ r.lost = false ∧ (s.mc r.chan).repair = none ∧
      r.place b.linear true = (some 0, r1, x) ∧ r1.state = r.state ∧ s.acq b.site = some a ∧ a.stopAt = none := by decide +kernel
theorem wit_AcquisitionsRun_8 :
    let s : State := blockState
    let b : SBlk := aBlock
    let rest : List SBlk := []
    let r : Region := regionOne 3
    let r1 : Region := regionAfter false
    let x : Bool := false
    let a : Acq := oneAcq
    s.sbufs.getD 1 [] = b :: rest ∧ s.region b.region = some r ∧ r.lost = false ∧ (s.mc r.chan).repair = none ∧
      r.place b.linear false = (some 0, r1, x) ∧ r1.state = r.state ∧ s.acq b.site = some a ∧ a.stopAt = none := by decide +kernel

/-! ### TriggersFire -/

/-- A state after boot whose trigger unit 7 of cluster 11 is u, in a MODE, with an event of source 3 on its way. -/
def trigState (mode : Nat) (u : Trig) : State :=
  let s := awake.setRf F.CL_TRG_CTL_MODE [11, 7] mode
  { s with trigs := s.trigs.set 95 u, trigEv := [(95, 3, 4000)] }
/-- The same with a region 5 of site 7, of cluster 11 or of another, that waits for it. -/
def waitingRegion : Region := { regionOne 1 with trigSel := 95, state := 1, linear := false }
def regionWaits (mode chmask : Nat) (u : Trig) : State :=
  { withBurst (trigState mode u) with sites := [(7, { id := 7, npins := 1, chmask := chmask })], regions := [(5, waitingRegion)] }
/-- What is left once the event has been taken off its way. -/
def offWay (s : State) : State := { s.at 2 with trigEv := s.trigEv.erase (95, 3, 4000) }
theorem wit_TriggersFire_1 :
    (let v : W64 := BitVec.ofNat 64 5
    let s := awake
    let w0 := ({ s with held := none } : State).hostAccess.writeFields (F.CL_TRG_CTL_ARM.off [11, 7]) v
    let w := w0.keepAwake
    Safety.writable s (F.CL_TRG_CTL_ARM.off [11, 7]) = true ∧ 11 < s.nCl ∧ 7 < 8 ∧ Safety.shaped s ∧
      w0 = ({ s with held := none } : State).hostAccess.writeFields (F.CL_TRG_CTL_ARM.off [11, 7]) v ∧ w = w0.keepAwake ∧
      v.toNat.testBit 2 = true ∧ w.rf F.CL_TRG_CTL_MODE [11, 7] ≠ 0) ∧
    (let v : W64 := BitVec.ofNat 64 1
    let s := awake
    let w0 := ({ s with held := none } : State).hostAccess.writeFields (F.CL_TRG_CTL_ARM.off [11, 7]) v
    let w := w0.keepAwake
    Safety.writable s (F.CL_TRG_CTL_ARM.off [11, 7]) = true ∧ 11 < s.nCl ∧ 7 < 8 ∧ Safety.shaped s ∧
      w0 = ({ s with held := none } : State).hostAccess.writeFields (F.CL_TRG_CTL_ARM.off [11, 7]) v ∧ w = w0.keepAwake ∧
      (v.toNat.testBit 2 = false ∨ w.rf F.CL_TRG_CTL_MODE [11, 7] = 0)) := by decide +kernel
theorem wit_TriggersFire_2 : let a : Trig := { armed := true, armedAt := 4000 }
    let s := trigState 1 a
    s.trigEv.contains (95, 3, 4000) = true ∧ Safety.shaped s ∧ (trigState 0 {}).rf F.CL_TRG_CTL_MODE [11, 7] = 0 ∧
      s.rf F.CL_TRG_CTL_MODE [11, 7] ≠ 0 ∧ s.power.lull = 0 ∧ s.trig 95 = a ∧ s.trigWaiting 95 = [] ∧
      (trigState 1 { openAt := some 9, openArmed := 4000 }).trig 95 = { openAt := some 9, openArmed := 4000 } ∧
      (trigState 1 { t0 := some 4000 }).cwin 95 = 4000 ∧ awake.trigEv.contains (95, 3, 4000) = false ∧
      (∀ m ∈ [2 ^ 176, 1], (regionWaits 1 m a).trigWaiting 95 = [waitingRegion] ∧ (regionWaits 1 m a).region 5 = some waitingRegion) ∧
      (regionWaits 1 (2 ^ 176) a).regionCl waitingRegion = 11 ∧ (regionWaits 1 1 a).regionCl waitingRegion = 0 := by decide +kernel
theorem wit_TriggersFire_3 :
    let s : State := awake
    s.trigEv.contains (8 * 11 + 7, 3, 4000) = false := by decide +kernel
theorem wit_TriggersFire_4 : let cs := [(3, 4000), (63, 7999), (5, 8000)]
    let s := trigState 1 { openAt := some 4100, cands := cs }
    (s.trig 95).openAt = some 4100 ∧ 4100 + s.cwin 95 + s.trigWait 95 ≤ 9100000 ∧ Safety.shaped s ∧ (s.trig 95).cands = cs ∧ (3, 4000) ∈ cs ∧
      (∀ x ∈ cs, 4000 ≤ x.2 ∧ x.1 < 64) ∧ maskOf ((cs.filter (fun c => c.2 < 4000 + s.cwin 95)).map (·.1)) = 2 ^ 3 + 2 ^ 63 := by decide +kernel
theorem wit_TriggersFire_5 :
    let s : State := awake
    (s.trig (8 * 11 + 7)).openAt = none := by decide +kernel
theorem wit_TriggersFire_6 :
    (let s : State := trigState 2 { t0 := some 4000 }
    (s.trig (8 * 11 + 7)).t0 = some 4000 ∧ s.rf F.CL_TRG_CTL_MODE [11, 7] = 2 ∧ (s.trig (8 * 11 + 7)).armed = false ∧
      (s.trig (8 * 11 + 7)).openAt = none ∧ 8000 = 4000 + max (s.cwin (8 * 11 + 7)) (200000 * s.rf F.CL_TRG_CTL_HOLDOFF [11, 7]) ∧
      8000 ≤ 8000 ∧ 11 < 12 ∧ 7 < 8 ∧ Safety.shaped s) ∧
    (let s : State := (trigState 2 { t0 := some 4000 }).setRf F.CL_TRG_CTL_HOLDOFF [11, 7] 3
    (s.trig (8 * 11 + 7)).t0 = some 4000 ∧ s.rf F.CL_TRG_CTL_MODE [11, 7] = 2 ∧ (s.trig (8 * 11 + 7)).armed = false ∧
      (s.trig (8 * 11 + 7)).openAt = none ∧ 604000 = 4000 + max (s.cwin (8 * 11 + 7)) (200000 * s.rf F.CL_TRG_CTL_HOLDOFF [11, 7]) ∧
      604000 ≤ 604000 ∧ 11 < 12 ∧ 7 < 8 ∧ Safety.shaped s) := by decide +kernel
theorem wit_TriggersFire_7 :
    (let s : State := { awake with trigOut := awake.trigOut.set 3 (some 5) }
    s.trigOut.getD 3 none = some 5) ∧
    (let s : State := { awake with trigOut := awake.trigOut.set 3 (some 5) }
    s.trigOut.getD 3 none = some 5 ∧ 4 < 5) := by decide +kernel

/-! ### IntervalsMeasured -/

/-- The configuration of a measurement of site 7 on meter 3 of cluster 11, channel 0 to channel 0, with flags, TIMEOUT and ARM_AT. -/
def cfgOf (flags timeout armAt : Nat) : List Byte :=
  leBytes 2 7 ++ leBytes 1 11 ++ leBytes 1 3 ++ leBytes 1 flags ++ leBytes 3 0 ++ leBytes 8 timeout ++ leBytes 8 armAt
/-- The same from channel 0 to channel 1 with STOP_N, signed or not. -/
def cfgTwo (flags stopN : Nat) : List Byte := leBytes 2 7 ++ leBytes 1 11 ++ leBytes 1 3 ++ leBytes 1 flags ++ [0, 1] ++ leBytes 1 stopN ++ zeros 16
def measDesc (flags armAt : Nat) : Desc := desc 0x29 (cfgOf flags 0 armAt)
/-- A state after boot with site 7 on channels 0 and 1 of cluster 11, meter 3 of that cluster, and a descriptor in flight. -/
def meterState (d : Desc) (m : Meter) : State :=
  { holding d with
    sites := [(7, { id := 7, npins := 1, chmask := 3 * 2 ^ 176 })], meters := awake.meters.set 47 m }
def meterAt (m : Meter) : State := meterState (desc 0x29 []) m
/-- A sampled edge at a tick in phase 0, and with the fused table of meter 47. -/
def edgeAt (tick : Nat) : MEdge := { time := 1024 * tick, sampled := true, tick := tick, phase := 0 }
def armedMeter (c : List Byte) : Meter := { state := 2, cfg := c, owner := .desc 0 0 }
theorem wit_IntervalsMeasured_1 :
    (let s : State := meterState (measDesc 0 0) {}
    let d : Desc := measDesc 0 0
    let c : List Byte := cfgOf 0 0 0
    Safety.ready s 0 0 0x29 d ∧ c = slice d.bytes 16 24 ∧ Safety.shaped s ∧ 47 = 4 * mcCluster c + mcMeter c ∧
      0 = s.measRefusal c (zeroes d.bytes 40 24) ∧ 0 = 0) ∧
    (let s : State := meterState (measDesc 2 0) {}
    let d : Desc := measDesc 2 0
    let c : List Byte := cfgOf 2 0 0
    Safety.ready s 0 0 0x29 d ∧ c = slice d.bytes 16 24 ∧ Safety.shaped s ∧ 47 = 4 * mcCluster c + mcMeter c ∧
      0 = s.measRefusal c (zeroes d.bytes 40 24) ∧ 0 = 0) := by decide +kernel
theorem wit_IntervalsMeasured_1_b :
    (let s : State := meterState (measDesc 0 9) {}
    let d : Desc := measDesc 0 9
    let c : List Byte := cfgOf 0 0 9
    Safety.ready s 0 0 0x29 d ∧ c = slice d.bytes 16 24 ∧ Safety.shaped s ∧ 47 = 4 * mcCluster c + mcMeter c ∧
      0 = s.measRefusal c (zeroes d.bytes 40 24) ∧ 0 = 0) ∧
    (let st := (holding (measDesc 0 0)).measRefusal (cfgOf 0 0 0) true
    let s : State := holding (measDesc 0 0)
    let d : Desc := measDesc 0 0
    let c : List Byte := cfgOf 0 0 0
    Safety.ready s 0 0 0x29 d ∧ c = slice d.bytes 16 24 ∧ Safety.shaped s ∧ 47 = 4 * mcCluster c + mcMeter c ∧
      st = s.measRefusal c (zeroes d.bytes 40 24) ∧ st ≠ 0) := by decide +kernel
theorem wit_IntervalsMeasured_1_c :
    let s : State := { meterState (measDesc 0 0) {} with metersBad := [47] }
    let st := s.measRefusal (cfgOf 0 0 0) true
    let d : Desc := measDesc 0 0
    let c : List Byte := cfgOf 0 0 0
    Safety.ready s 0 0 0x29 d ∧ c = slice d.bytes 16 24 ∧ Safety.shaped s ∧ 47 = 4 * mcCluster c + mcMeter c ∧
      st = s.measRefusal c (zeroes d.bytes 40 24) ∧ (s.nCl ≤ mcCluster c ∨ s.nMeter ≤ mcMeter c ∨ s.metersBad.contains 47 = true) := by decide +kernel
theorem wit_IntervalsMeasured_2 :
    let s : State := meterAt { state := 1, cfg := cfgOf 0 0 9 }
    (s.meter (4 * 11 + 3)).state = 1 ∧ mcWithBurst (s.meter (4 * 11 + 3)).cfg = false ∧ mcArmAt (s.meter (4 * 11 + 3)).cfg ≤ 9 ∧
      4 * 11 + 3 < 48 ∧ Safety.shaped s := by decide +kernel
theorem wit_IntervalsMeasured_3 :
    (let s : State := awake
    let stop : Bool := true
    ((s.meter (4 * 11 + 3)).state = 0 ∨ selMark (if stop then mcStop (s.meter (4 * 11 + 3)).cfg else mcStart (s.meter (4 * 11 + 3)).cfg) = true)) ∧
    (let s : State := meterAt { state := 2, cfg := (cfgOf 0 0 0).set 5 0x41 }
    let stop : Bool := false
    ((s.meter (4 * 11 + 3)).state = 0 ∨ selMark (if stop then mcStop (s.meter (4 * 11 + 3)).cfg else mcStart (s.meter (4 * 11 + 3)).cfg) = true)) := by decide +kernel
theorem wit_IntervalsMeasured_4 :
    let s : State := meterAt (armedMeter (cfgOf 0 0 0))
    let time : Nat := 1024 * 4
    let stop : Bool := false
    let m : Meter := armedMeter (cfgOf 0 0 0)
    let e : MEdge := edgeAt 4
    47 = 4 * 11 + 3 ∧ m = s.meter 47 ∧ 47 < 48 ∧ Safety.shaped s ∧ 0 = (if stop then mcStop m.cfg else mcStart m.cfg) ∧
      selMark 0 = false ∧ 4 = 4 - (if 0x50 ≤ 0 then s.rf (F.CL_TRIGIN_DSK_DSK.at (0 % 4)) [11] else 0) ∧
      time = 1024 * 4 + (if stop then (s.imcalOf 47).posStop else (s.imcalOf 47).posStart).getD 0 (16 * 0) ∧
      e = { time := time, sampled := true, tick := 4, phase := 0 } ∧ 2 ≤ m.state ∧
      (if stop then m.lastStop else m.lastStart).any (fun l => decide (l ≤ time) && decide (time < l + 2048)) = false ∧
      4096 * m.arm ≤ time ∧ time < m.bound ∧ mcSigned m.cfg = false ∧ stop = false ∧ m.first = none ∧ m.early = [] := by decide +kernel
theorem wit_IntervalsMeasured_4_b :
    let s : State := meterAt (armedMeter (cfgOf 0 0 0))
    let time : Nat := 1024 * 4
    let stop : Bool := true
    let m : Meter := armedMeter (cfgOf 0 0 0)
    let e : MEdge := edgeAt 4
    47 = 4 * 11 + 3 ∧ m = s.meter 47 ∧ 47 < 48 ∧ Safety.shaped s ∧ 0 = (if stop then mcStop m.cfg else mcStart m.cfg) ∧
      selMark 0 = false ∧ 4 = 4 - (if 0x50 ≤ 0 then s.rf (F.CL_TRIGIN_DSK_DSK.at (0 % 4)) [11] else 0) ∧
      time = 1024 * 4 + (if stop then (s.imcalOf 47).posStop else (s.imcalOf 47).posStart).getD 0 (16 * 0) ∧
      e = { time := time, sampled := true, tick := 4, phase := 0 } ∧ 2 ≤ m.state ∧
      (if stop then m.lastStop else m.lastStart).any (fun l => decide (l ≤ time) && decide (time < l + 2048)) = false ∧
      4096 * m.arm ≤ time ∧ time < m.bound ∧ mcSigned m.cfg = false ∧ stop = true ∧ m.first = none := by decide +kernel
theorem wit_IntervalsMeasured_4_c :
    let s : State := meterAt { armedMeter (cfgTwo 0 0) with state := 3, first := some (edgeAt 4), lastStart := some 4096 }
    let time : Nat := 1024 * 9
    let stop : Bool := true
    let m : Meter := { armedMeter (cfgTwo 0 0) with state := 3, first := some (edgeAt 4), lastStart := some 4096 }
    let e : MEdge := edgeAt 9
    let a := edgeAt 4
    let q := interval (toSigned 16 ((meterAt {}).imcalOf 47).offset) (edgeAt 4) (edgeAt 9)
    let sq := 0
    let idx := 0
    47 = 4 * 11 + 3 ∧ m = s.meter 47 ∧ 47 < 48 ∧ Safety.shaped s ∧ 1 = (if stop then mcStop m.cfg else mcStart m.cfg) ∧
      selMark 1 = false ∧ 9 = 9 - (if 0x50 ≤ 1 then s.rf (F.CL_TRIGIN_DSK_DSK.at (1 % 4)) [11] else 0) ∧
      time = 1024 * 9 + (if stop then (s.imcalOf 47).posStop else (s.imcalOf 47).posStart).getD 0 (16 * 0) ∧
      e = { time := time, sampled := true, tick := 9, phase := 0 } ∧ 2 ≤ m.state ∧
      (if stop then m.lastStop else m.lastStart).any (fun l => decide (l ≤ time) && decide (time < l + 2048)) = false ∧
      4096 * m.arm ≤ time ∧ time < m.bound ∧ mcSigned m.cfg = false ∧ stop = true ∧ m.first = some a ∧
      q = interval (toSigned 16 (s.imcalOf 47).offset) a e ∧ m.stops + 1 ≤ 65535 ∧ 0 ≤ q ∧ (mcStart m.cfg ≠ mcStop m.cfg ∨ 2048 ≤ q) ∧
      m.stops + 1 = mcStopN m.cfg ∧ m.owner = .desc sq idx := by decide +kernel
theorem wit_IntervalsMeasured_4_d :
    let s : State := meterAt { armedMeter (cfgTwo 0 3) with state := 3, first := some (edgeAt 4), lastStart := some 4096 }
    let time : Nat := 1024 * 9
    let stop : Bool := true
    let m : Meter := { armedMeter (cfgTwo 0 3) with state := 3, first := some (edgeAt 4), lastStart := some 4096 }
    let e : MEdge := edgeAt 9
    let a := edgeAt 4
    let q := interval (toSigned 16 ((meterAt {}).imcalOf 47).offset) (edgeAt 4) (edgeAt 9)
    47 = 4 * 11 + 3 ∧ m = s.meter 47 ∧ 47 < 48 ∧ Safety.shaped s ∧ 1 = (if stop then mcStop m.cfg else mcStart m.cfg) ∧
      selMark 1 = false ∧ 9 = 9 - (if 0x50 ≤ 1 then s.rf (F.CL_TRIGIN_DSK_DSK.at (1 % 4)) [11] else 0) ∧
      time = 1024 * 9 + (if stop then (s.imcalOf 47).posStop else (s.imcalOf 47).posStart).getD 0 (16 * 0) ∧
      e = { time := time, sampled := true, tick := 9, phase := 0 } ∧ 2 ≤ m.state ∧
      (if stop then m.lastStop else m.lastStart).any (fun l => decide (l ≤ time) && decide (time < l + 2048)) = false ∧
      4096 * m.arm ≤ time ∧ time < m.bound ∧ mcSigned m.cfg = false ∧ stop = true ∧ m.first = some a ∧
      q = interval (toSigned 16 (s.imcalOf 47).offset) a e ∧ m.stops + 1 ≤ 65535 ∧ 0 ≤ q ∧ (mcStart m.cfg ≠ mcStop m.cfg ∨ 2048 ≤ q) ∧
      m.stops + 1 ≠ mcStopN m.cfg := by decide +kernel
theorem wit_IntervalsMeasured_4_e :
    let s : State := meterAt { armedMeter (cfgTwo 0 0) with state := 3, first := some (edgeAt 9), lastStart := some 9216 }
    let time : Nat := 1024 * 4
    let stop : Bool := true
    let m : Meter := { armedMeter (cfgTwo 0 0) with state := 3, first := some (edgeAt 9), lastStart := some 9216 }
    let e : MEdge := edgeAt 4
    let a := edgeAt 9
    let q := interval (toSigned 16 ((meterAt {}).imcalOf 47).offset) (edgeAt 9) (edgeAt 4)
    47 = 4 * 11 + 3 ∧ m = s.meter 47 ∧ 47 < 48 ∧ Safety.shaped s ∧ 1 = (if stop then mcStop m.cfg else mcStart m.cfg) ∧
      selMark 1 = false ∧ 4 = 4 - (if 0x50 ≤ 1 then s.rf (F.CL_TRIGIN_DSK_DSK.at (1 % 4)) [11] else 0) ∧
      time = 1024 * 4 + (if stop then (s.imcalOf 47).posStop else (s.imcalOf 47).posStart).getD 0 (16 * 0) ∧
      e = { time := time, sampled := true, tick := 4, phase := 0 } ∧ 2 ≤ m.state ∧
      (if stop then m.lastStop else m.lastStart).any (fun l => decide (l ≤ time) && decide (time < l + 2048)) = false ∧
      4096 * m.arm ≤ time ∧ time < m.bound ∧ mcSigned m.cfg = false ∧ stop = true ∧ m.first = some a ∧
      q = interval (toSigned 16 (s.imcalOf 47).offset) a e ∧ m.stops + 1 ≤ 65535 ∧ q < 0 ∨ mcStart m.cfg = mcStop m.cfg ∧ q < 2048 := by decide +kernel
theorem wit_IntervalsMeasured_4_f :
    let s : State := meterAt { armedMeter (cfgOf 0 0 0) with state := 3, first := some (edgeAt 4), lastStart := some 4096 }
    let time : Nat := 1024 * 5
    let stop : Bool := true
    let m : Meter := { armedMeter (cfgOf 0 0 0) with state := 3, first := some (edgeAt 4), lastStart := some 4096 }
    let e : MEdge := edgeAt 5
    let a := edgeAt 4
    let q := interval (toSigned 16 ((meterAt {}).imcalOf 47).offset) (edgeAt 4) (edgeAt 5)
    47 = 4 * 11 + 3 ∧ m = s.meter 47 ∧ 47 < 48 ∧ Safety.shaped s ∧ 0 = (if stop then mcStop m.cfg else mcStart m.cfg) ∧
      selMark 0 = false ∧ 5 = 5 - (if 0x50 ≤ 0 then s.rf (F.CL_TRIGIN_DSK_DSK.at (0 % 4)) [11] else 0) ∧
      time = 1024 * 5 + (if stop then (s.imcalOf 47).posStop else (s.imcalOf 47).posStart).getD 0 (16 * 0) ∧
      e = { time := time, sampled := true, tick := 5, phase := 0 } ∧ 2 ≤ m.state ∧
      (if stop then m.lastStop else m.lastStart).any (fun l => decide (l ≤ time) && decide (time < l + 2048)) = false ∧
      4096 * m.arm ≤ time ∧ time < m.bound ∧ mcSigned m.cfg = false ∧ stop = true ∧ m.first = some a ∧
      q = interval (toSigned 16 (s.imcalOf 47).offset) a e ∧ m.stops + 1 ≤ 65535 ∧ q < 0 ∨ mcStart m.cfg = mcStop m.cfg ∧ q < 2048 := by decide +kernel
theorem wit_IntervalsMeasured_4_g :
    let s : State := meterAt { armedMeter (cfgTwo 1 0) with first := some (edgeAt 9), lastStart := some 9216 }
    let time : Nat := 1024 * 4
    let stop : Bool := true
    let m : Meter := { armedMeter (cfgTwo 1 0) with first := some (edgeAt 9), lastStart := some 9216 }
    let e : MEdge := edgeAt 4
    let b := edgeAt 9
    let sq := 0
    let idx := 0
    47 = 4 * 11 + 3 ∧ m = s.meter 47 ∧ 47 < 48 ∧ Safety.shaped s ∧ 1 = (if stop then mcStop m.cfg else mcStart m.cfg) ∧
      selMark 1 = false ∧ 4 = 4 - (if 0x50 ≤ 1 then s.rf (F.CL_TRIGIN_DSK_DSK.at (1 % 4)) [11] else 0) ∧
      time = 1024 * 4 + (if stop then (s.imcalOf 47).posStop else (s.imcalOf 47).posStart).getD 0 (16 * 0) ∧
      e = { time := time, sampled := true, tick := 4, phase := 0 } ∧ 2 ≤ m.state ∧
      (if stop then m.lastStop else m.lastStart).any (fun l => decide (l ≤ time) && decide (time < l + 2048)) = false ∧
      4096 * m.arm ≤ time ∧ time < m.bound ∧ mcSigned m.cfg = true ∧ m.owner = .desc sq idx ∧
      (if stop then m.stopE else m.first) = none ∧ (if stop then m.first else m.stopE) = some b := by decide +kernel
theorem wit_IntervalsMeasured_4_h :
    let s : State := meterAt { armedMeter (cfgTwo 1 0) with stopE := some (edgeAt 4), lastStop := some 4096 }
    let time : Nat := 1024 * 9
    let stop : Bool := false
    let m : Meter := { armedMeter (cfgTwo 1 0) with stopE := some (edgeAt 4), lastStop := some 4096 }
    let e : MEdge := edgeAt 9
    let b := edgeAt 4
    let sq := 0
    let idx := 0
    47 = 4 * 11 + 3 ∧ m = s.meter 47 ∧ 47 < 48 ∧ Safety.shaped s ∧ 0 = (if stop then mcStop m.cfg else mcStart m.cfg) ∧
      selMark 0 = false ∧ 9 = 9 - (if 0x50 ≤ 0 then s.rf (F.CL_TRIGIN_DSK_DSK.at (0 % 4)) [11] else 0) ∧
      time = 1024 * 9 + (if stop then (s.imcalOf 47).posStop else (s.imcalOf 47).posStart).getD 0 (16 * 0) ∧
      e = { time := time, sampled := true, tick := 9, phase := 0 } ∧ 2 ≤ m.state ∧
      (if stop then m.lastStop else m.lastStart).any (fun l => decide (l ≤ time) && decide (time < l + 2048)) = false ∧
      4096 * m.arm ≤ time ∧ time < m.bound ∧ mcSigned m.cfg = true ∧ m.owner = .desc sq idx ∧
      (if stop then m.stopE else m.first) = none ∧ (if stop then m.first else m.stopE) = some b := by decide +kernel
theorem wit_IntervalsMeasured_4_i :
    let s : State := meterAt { armedMeter (cfgTwo 0 0) with lastStop := some 4096 }
    let time : Nat := 1024 * 5
    let stop : Bool := true
    let m : Meter := { armedMeter (cfgTwo 0 0) with lastStop := some 4096 }
    let e : MEdge := edgeAt 5
    47 = 4 * 11 + 3 ∧ m = s.meter 47 ∧ 47 < 48 ∧ Safety.shaped s ∧ 1 = (if stop then mcStop m.cfg else mcStart m.cfg) ∧
      selMark 1 = false ∧ 5 = 5 - (if 0x50 ≤ 1 then s.rf (F.CL_TRIGIN_DSK_DSK.at (1 % 4)) [11] else 0) ∧
      time = 1024 * 5 + (if stop then (s.imcalOf 47).posStop else (s.imcalOf 47).posStart).getD 0 (16 * 0) ∧
      e = { time := time, sampled := true, tick := 5, phase := 0 } ∧ 2 ≤ m.state ∧
      (if stop then m.lastStop else m.lastStart).any (fun l => decide (l ≤ time) && decide (time < l + 2048)) = true := by decide +kernel
theorem wit_IntervalsMeasured_4_j :
    let s : State := meterAt { armedMeter (cfgTwo 0 0) with lastStart := some 4096 }
    let time : Nat := 1024 * 5
    let stop : Bool := false
    let m : Meter := { armedMeter (cfgTwo 0 0) with lastStart := some 4096 }
    let e : MEdge := edgeAt 5
    47 = 4 * 11 + 3 ∧ m = s.meter 47 ∧ 47 < 48 ∧ Safety.shaped s ∧ 0 = (if stop then mcStop m.cfg else mcStart m.cfg) ∧
      selMark 0 = false ∧ 5 = 5 - (if 0x50 ≤ 0 then s.rf (F.CL_TRIGIN_DSK_DSK.at (0 % 4)) [11] else 0) ∧
      time = 1024 * 5 + (if stop then (s.imcalOf 47).posStop else (s.imcalOf 47).posStart).getD 0 (16 * 0) ∧
      e = { time := time, sampled := true, tick := 5, phase := 0 } ∧ 2 ≤ m.state ∧
      (if stop then m.lastStop else m.lastStart).any (fun l => decide (l ≤ time) && decide (time < l + 2048)) = true := by decide +kernel
theorem wit_IntervalsMeasured_5 :
    (let s : State := meterAt (armedMeter (cfgOf 0 4 0))
    let m : Meter := armedMeter (cfgOf 0 4 0)
    let c : Instr := .meterTimeout 11 3 1
    47 = 4 * 11 + 3 ∧ m = s.meter 47 ∧ 47 < 48 ∧ Safety.shaped s ∧ 2 ≤ m.state ∧ m.bound ≤ 4096 * 1 ∧ m.owner = .desc 0 0 ∧
      (c = .meterTimeout 11 3 1 ∧ mcTimeout m.cfg ≠ 0 ∨ c = .meterOverflow 11 3 1 ∧ mcTimeout m.cfg = 0)) ∧
    (let s : State := meterAt (armedMeter (cfgOf 0 0 0))
    let t0 : Nat := 2 ^ 38
    let m : Meter := armedMeter (cfgOf 0 0 0)
    let c : Instr := .meterOverflow 11 3 (2 ^ 38)
    47 = 4 * 11 + 3 ∧ m = s.meter 47 ∧ 47 < 48 ∧ Safety.shaped s ∧ 2 ≤ m.state ∧ m.bound ≤ 4096 * t0 ∧ m.owner = .desc 0 0 ∧
      (c = .meterTimeout 11 3 t0 ∧ mcTimeout m.cfg ≠ 0 ∨ c = .meterOverflow 11 3 t0 ∧ mcTimeout m.cfg = 0)) := by decide +kernel
/-! ### The whole machine -/

theorem wit_StepsKeepCanonicalForms : Safety.canonical awake = true ∧ step awake = .next awake.tick := ⟨by decide +kernel, rfl⟩
theorem wit_StepsKeepTheUnits : Safety.shaped awake ∧ step awake = .next awake.tick := ⟨by decide, rfl⟩
theorem wit_DtimeNeverDecreases : step State.reset = .next State.reset.tick ∧ State.reset.pending.head? = none := ⟨rfl, rfl⟩
theorem wit_IntervalsMeasured_6 :
    (let s : State := awake
    let v : W64 := 1
    Safety.writable s (F.CL_IMTR_CTL_ABORT.off [11, 3]) = true ∧ 11 < s.nCl ∧ 3 < s.nMeter ∧ Safety.shaped s ∧
      (v.toNat.testBit 0 = false ∨ (s.meter (4 * 11 + 3)).state = 0)) ∧
    (let s : State := meterAt (armedMeter (cfgOf 0 0 0))
    let v : W64 := 1
    let sq := 0
    let idx := 0
    Safety.writable s (F.CL_IMTR_CTL_ABORT.off [11, 3]) = true ∧ 11 < s.nCl ∧ 3 < s.nMeter ∧ Safety.shaped s ∧
      v.toNat.testBit 0 = true ∧ (s.meter (4 * 11 + 3)).state ≠ 0 ∧ (s.meter (4 * 11 + 3)).owner = .desc sq idx) := by decide +kernel
/-! ### Ill-formed commands, one for each check of well-formedness -/

theorem test_wf_ring : Instr.wf (.nop 32 0) = false ∧ Instr.wf (.submissionDoorbell 32 0) = false ∧ Instr.wf (.descriptorFetch 32 [] false) = false ∧
    Instr.wf (.ringEnable 64 0) = false ∧ Instr.wf (.headDoorbell 31 0) = false ∧ Instr.wf (.headDoorbell 64 0) = false ∧
    Instr.wf (.eventPost 47) = false ∧ Instr.wf (.irqTimerExpiry 64 0) = false := by decide
theorem test_wf_index : Instr.wf (.runBurst 0 (2 ^ 16)) = false ∧ Instr.wf (.burstStart false (2 ^ 16) 0) = false ∧
    Instr.wf (.acquisitionStart (2 ^ 16) 0) = false ∧ Instr.wf (.regionHeaderWrite (2 ^ 32) false 0) = false := by decide
theorem test_wf_register : Instr.wf (.registerWrite (2 ^ 21 + 2 ^ 16) 8 0) = false ∧ Instr.wf (.registerWrite 0 2 0) = false ∧
    Instr.wf (.splitReadLatch { off := 2 ^ 21 + 2 ^ 16 }) = false ∧ Instr.wf (.smbusBlockRead 256) = false := by decide
theorem test_wf_cluster : Instr.wf (.siteMaskWrite 12 0) = false ∧ Instr.wf (.deskewWrite 11 16 false 0) = false ∧
    Instr.wf (.adcAlignmentComplete 11 (2 ^ 32) 0 0) = false ∧ Instr.wf (.trigArm 11 8 0) = false ∧ Instr.wf (.imeterAbort 11 4 0) = false ∧
    Instr.wf (.sliceFailure 11 5) = false ∧ Instr.wf (.channelFailure 11 16) = false ∧ Instr.wf (.bitmapWriteback 11 64 false) = false ∧
    Instr.wf (.meterEdge 11 3 false 0 64) = false ∧ Instr.wf (.triggerEventArrival 11 7 64 0 0) = false := by decide
theorem test_wf_slice : Instr.wf (.vec 12 0) = false ∧ Instr.wf (.vec 0 4) = false ∧ Instr.wf (.vectorStart 0 4 []) = false ∧
    Instr.wf (.stopRequest 0 0 256 0) = false := by decide
theorem test_wf_chain : Instr.wf (.fchainEnable 24 0) = false ∧ Instr.wf (.adcSample 0 (2 ^ 16) 0) = false ∧
    Instr.wf (.sampleBlockWrite 2 false) = false ∧ Instr.wf (.mmWindowEnd 24 0) = false := by decide
theorem test_wf_memory : Instr.wf (.pprRun 8 0) = false ∧ Instr.wf (.mr4Poll 7 32 0) = false ∧ Instr.wf (.memoryChannelFailure 8) = false ∧
    Instr.wf (.arbiterDecision 0 [{ id := 0x0C }] 0) = false ∧ Instr.wf (.arbiterDecision 0 [{ id := 3, size := 33 }] 0) = false ∧
    Instr.wf (.arbiterDecision 1 [{ id := 3 }] 0) = false ∧ Instr.wf (.readDataReturn 0 { addr := 1, req := 3 }) = false ∧
    Instr.wf (.readDataReturn 0 { addr := 0, req := 3, flips := [2 ^ 72] }) = false := by decide
theorem test_wf_link : Instr.wf (.linkEnable 4 0) = false ∧ Instr.wf (.trainBlock 3 4 0 0) = false ∧ Instr.wf (.alignMarker 3 [some (2 ^ 16)] 0) = false ∧
    Instr.wf (.alignMarker 3 [none, none, none, none, none] 0) = false := by decide
theorem test_wf_task : Instr.wf (.flowJump 4096) = false ∧ Instr.wf (.contextFetchDone 16) = false ∧ Instr.wf (.flowCoreFailure 18) = false ∧
    Instr.wf (.spareCoreReady 16) = false := by decide
theorem test_wf_board : Instr.wf (.hostIslandReset 3) = false ∧ Instr.wf (.domainOn 2 0) = false ∧ Instr.wf (.coldReset 0) = false ∧
    Instr.wf (.pinReset 7) = false ∧ Instr.wf (.replicaCheck 30 0 0) = false ∧ Instr.wf (.trigInEdge 4 true 0) = false ∧
    Instr.wf (.trigOutPulseEnd 4 0) = false ∧ Instr.wf (.apgFailure 4) = false ∧ Instr.wf (.railBelowWarning 14 0 0) = false ∧
    Instr.wf (.faultLatch 32 0 0 0 0) = false ∧ Instr.wf (.faultLatch 0 30 0 0 0) = false ∧ Instr.wf (.pcieLinkUp 0 2 {}) = false ∧
    Instr.wf (.pcieLinkUp 4 3 {}) = false ∧ Instr.wf (.pcieLinkUp 4 4 { bar0 := 4096 }) = false ∧ Instr.wf (.pcieLinkUp 4 4 { payload := 3 }) = false := by decide
theorem test_wf_holds : Instr.wf (.nop 31 0xFFFF) = true ∧ Instr.wf (.registerWrite 8 4 0) = true ∧ Instr.wf (.vec 11 3) = true ∧
    Instr.wf (.pcieLinkUp 4 4 {}) = true ∧ Instr.wf (.coldReset 6) = true := by decide

end OneByOne
end

