-- ==== Sys2Proof/Proofs/Units.lean ====
section
namespace Sys2Proof.Machine

/-! ### The units of a state (R1, R485)

Every step keeps the number of every kind of unit (O55). `State.units` lists how many there are of each kind; below is one lemma
for each function of the model that a command reaches: the units of its result are those of the state it is given. A function that
is given another (`withDesc`, `busWrite`, …) keeps them where that one does; the resets and the takeover of the other chip's role
keep them only where there are as many as the spec gives the chip (`fullUnits`). -/

/-- How many units of each kind the parts of a state that list units hold. -/
def unitsOf (host : HostIf) (slices : List Slice) (clusters : List Cluster) (links : List Link) (mcs : List Mc) (pe : List PePort)
    (ports : List Port) (chains : List FChain) (trigs : List Trig) (meters : List Meter) (apgs : List Apg)
    (trigOut : List (Option Nat)) (paddock : Paddock) : List Nat :=
  [host.rings.length, slices.length, clusters.length, links.length, mcs.length, pe.length, ports.length, chains.length,
    trigs.length, meters.length, apgs.length, trigOut.length, paddock.slots.length, paddock.locks.length]

/-- How many units of each kind a state lists. -/
def State.units (s : State) : List Nat :=
  unitsOf s.host s.slices s.clusters s.links s.mcs s.pe s.ports s.chains s.trigs s.meters s.apgs s.trigOut s.paddock

@[simp] theorem units_ite (c : Prop) [Decidable c] (a b : State) : (if c then a else b).units = if c then a.units else b.units :=
  apply_ite _ _ _ _

/-- The same of a state given by its fields; those that list units keep their names. -/
@[simp] theorem units_mk (a b c d e f host mem i j k l m slices o p q r t u clusters v w paddock pe x y z a1 a2 a3 a4 a5 a6 mcs a7 links
    a8 a9 apgs ports chains b1 b2 trigs meters b3 trigOut b4 b5 b6) :
    (State.mk a b c d e f host mem i j k l m slices o p q r t u clusters v w paddock pe x y z a1 a2 a3 a4 a5 a6 mcs a7 links
      a8 a9 apgs ports chains b1 b2 trigs meters b3 trigOut b4 b5 b6).units =
    unitsOf host slices clusters links mcs pe ports chains trigs meters apgs trigOut paddock := rfl

/-! A part that is replaced by one as long leaves the units as they are. -/

section
variable (s : State)

@[simp] theorem unitsOf_self : unitsOf s.host s.slices s.clusters s.links s.mcs s.pe s.ports s.chains s.trigs s.meters s.apgs s.trigOut
    s.paddock = s.units := rfl

@[simp] theorem unitsOf_host {x : HostIf} (h : x.rings.length = s.host.rings.length) :
    unitsOf x s.slices s.clusters s.links s.mcs s.pe s.ports s.chains s.trigs s.meters s.apgs s.trigOut s.paddock = s.units := by
  simp [State.units, unitsOf, h]

@[simp] theorem unitsOf_slices {x : List Slice} (h : x.length = s.slices.length) :
    unitsOf s.host x s.clusters s.links s.mcs s.pe s.ports s.chains s.trigs s.meters s.apgs s.trigOut s.paddock = s.units := by
  simp [State.units, unitsOf, h]

@[simp] theorem unitsOf_clusters {x : List Cluster} (h : x.length = s.clusters.length) :
    unitsOf s.host s.slices x s.links s.mcs s.pe s.ports s.chains s.trigs s.meters s.apgs s.trigOut s.paddock = s.units := by
  simp [State.units, unitsOf, h]

@[simp] theorem unitsOf_links {x : List Link} (h : x.length = s.links.length) :
    unitsOf s.host s.slices s.clusters x s.mcs s.pe s.ports s.chains s.trigs s.meters s.apgs s.trigOut s.paddock = s.units := by
  simp [State.units, unitsOf, h]

@[simp] theorem unitsOf_mcs {x : List Mc} (h : x.length = s.mcs.length) :
    unitsOf s.host s.slices s.clusters s.links x s.pe s.ports s.chains s.trigs s.meters s.apgs s.trigOut s.paddock = s.units := by
  simp [State.units, unitsOf, h]

@[simp] theorem unitsOf_pe {x : List PePort} (h : x.length = s.pe.length) :
    unitsOf s.host s.slices s.clusters s.links s.mcs x s.ports s.chains s.trigs s.meters s.apgs s.trigOut s.paddock = s.units := by
  simp [State.units, unitsOf, h]

@[simp] theorem unitsOf_ports {x : List Port} (h : x.length = s.ports.length) :
    unitsOf s.host s.slices s.clusters s.links s.mcs s.pe x s.chains s.trigs s.meters s.apgs s.trigOut s.paddock = s.units := by
  simp [State.units, unitsOf, h]

@[simp] theorem unitsOf_chains {x : List FChain} (h : x.length = s.chains.length) :
    unitsOf s.host s.slices s.clusters s.links s.mcs s.pe s.ports x s.trigs s.meters s.apgs s.trigOut s.paddock = s.units := by
  simp [State.units, unitsOf, h]

@[simp] theorem unitsOf_trigs {x : List Trig} (h : x.length = s.trigs.length) :
    unitsOf s.host s.slices s.clusters s.links s.mcs s.pe s.ports s.chains x s.meters s.apgs s.trigOut s.paddock = s.units := by
  simp [State.units, unitsOf, h]

@[simp] theorem unitsOf_meters {x : List Meter} (h : x.length = s.meters.length) :
    unitsOf s.host s.slices s.clusters s.links s.mcs s.pe s.ports s.chains s.trigs x s.apgs s.trigOut s.paddock = s.units := by
  simp [State.units, unitsOf, h]

@[simp] theorem unitsOf_apgs {x : List Apg} (h : x.length = s.apgs.length) :
    unitsOf s.host s.slices s.clusters s.links s.mcs s.pe s.ports s.chains s.trigs s.meters x s.trigOut s.paddock = s.units := by
  simp [State.units, unitsOf, h]

@[simp] theorem unitsOf_trigOut {x : List (Option Nat)} (h : x.length = s.trigOut.length) :
    unitsOf s.host s.slices s.clusters s.links s.mcs s.pe s.ports s.chains s.trigs s.meters s.apgs x s.paddock = s.units := by
  simp [State.units, unitsOf, h]

@[simp] theorem unitsOf_paddock {x : Paddock} (hs : x.slots.length = s.paddock.slots.length) (hl : x.locks.length = s.paddock.locks.length) :
    unitsOf s.host s.slices s.clusters s.links s.mcs s.pe s.ports s.chains s.trigs s.meters s.apgs s.trigOut x = s.units := by
  simp [State.units, unitsOf, hs, hl]

theorem units_with_host {s : State} {h : HostIf} (e : h.rings.length = s.host.rings.length) :
    ({ s with host := h } : State).units = s.units :=
  unitsOf_host s e

end

@[simp] theorem units_foldl {β : Type} {f : State → β → State} (h : ∀ a x, (f a x).units = a.units) (l : List β) (s : State) :
    (l.foldl f s).units = s.units := foldl_keep State.units f h l s

@[simp] theorem upDesc_rings (s : State) (sq idx : Nat) (f : Desc → Desc) : (s.upDesc sq idx f).host.rings = s.host.rings := by
  simp [State.upDesc]
@[simp] theorem begin_rings (s : State) (sq idx : Nat) : (s.begin sq idx).host.rings = s.host.rings := by
  simp [State.begin]
@[simp] theorem dropDesc_rings (s : State) (sq idx : Nat) : (s.dropDesc sq idx).host.rings = s.host.rings := by
  simp [State.dropDesc]

/-- The units of a chip with as many of each kind as the spec gives it. -/
def fullUnits : List Nat := [64, 48, 12, 4, 8, 12, 12, 24, 96, 48, 4, 4, 16, 32]

theorem shaped_iff (s : State) : Safety.shaped s ↔ s.units = fullUnits := by
  simp [Safety.shaped, State.units, unitsOf, fullUnits]

@[simp] theorem units_setReg (s : State) (o : Nat) (v : W64) : (s.setReg o v).units = s.units := by
  unfold State.setReg; simp
@[simp] theorem units_setRf (s : State) (f : RF) (i : List Nat) (v : Nat) : (s.setRf f i v).units = s.units := by
  unfold State.setRf; simp
@[simp] theorem units_emit (s : State) (o : Out) : (s.emit o).units = s.units := by
  unfold State.emit; simp
@[simp] theorem units_msi (s : State) (o : Nat) : (s.msi o).units = s.units := by
  unfold State.msi; simp
@[simp] theorem units_upRing (s : State) (k : Nat) (f : Ring → Ring) : (s.upRing k f).units = s.units := by
  unfold State.upRing; simp
@[simp] theorem units_hostErr (s : State) (b : Nat) (r : Option Nat) : (s.hostErr b r).units = s.units := by
  unfold State.hostErr; dsimp only; split <;> split <;> simp

/-! ### Ops -/

@[simp] theorem units_memWrite (s : State) (ch off : Nat) (bs : List Byte) : (s.memWrite ch off bs).units = s.units := by
  unfold State.memWrite
  simp
@[simp] theorem units_memClear (s : State) (ch off n : Nat) : (s.memClear ch off n).units = s.units := by
  unfold State.memClear
  simp
@[simp] theorem units_orRf (s : State) (f : RF) (idx : List Nat) (m : Nat) : (s.orRf f idx m).units = s.units := by
  unfold State.orRf
  simp
@[simp] theorem units_incRf (s : State) (f : RF) (idx : List Nat) (n : Nat) : (s.incRf f idx n).units = s.units := by
  unfold State.incRf
  simp
@[simp] theorem units_placementChanged (s : State) : s.placementChanged.units = s.units := by
  unfold State.placementChanged
  simp
@[simp] theorem units_upSl (s : State) (g : Nat) (f : Slice → Slice) : (s.upSl g f).units = s.units := by
  unfold State.upSl
  simp
@[simp] theorem units_upSeq (s : State) (g : Nat) (f : Seq → Seq) : (s.upSeq g f).units = s.units := by
  unfold State.upSeq
  simp
@[simp] theorem units_upCl (s : State) (n : Nat) (f : Cluster → Cluster) : (s.upCl n f).units = s.units := by
  unfold State.upCl
  simp
@[simp] theorem units_at (s : State) (t : Nat) : (s.at t).units = s.units := by
  unfold State.at
  simp
@[simp] theorem units_draw (s : State) : s.draw.units = s.units := by
  unfold State.draw
  simp
@[simp] theorem units_msiFlush (s : State) : s.msiFlush.units = s.units := by
  unfold State.msiFlush
  simp
@[simp] theorem units_hostAccess (s : State) : s.hostAccess.units = s.units := by
  unfold State.hostAccess
  simp
@[simp] theorem units_hostWrite (s : State) (sq addr : Nat) (bs : List Byte) : (s.hostWrite sq addr bs).1.units = s.units := by
  unfold State.hostWrite; split <;> simp

theorem units_of_hostWrite {s : State} {sq addr : Nat} {bs : List Byte} {p : State × Bool} (h : s.hostWrite sq addr bs = p) :
    p.1.units = s.units := h ▸ units_hostWrite s sq addr bs
@[simp] theorem units_queueEvent (s : State) (e : Event) : (s.queueEvent e).units = s.units := by
  unfold State.queueEvent
  simp
@[simp] theorem units_refillLoop (l : List Event) (s : State) : (refillLoop s l).units = s.units := by
  induction l generalizing s with
  | nil => rfl
  | cons e r ih => unfold refillLoop; split <;> simp [ih]
@[simp] theorem units_refill (s : State) : s.refill.units = s.units := by
  unfold State.refill
  simp
@[simp] theorem units_ringError (s : State) (k cause : Nat) : (s.ringError k cause).units = s.units := by
  unfold State.ringError
  simp
@[simp] theorem units_ringMsg (s : State) (k : Nat) : (s.ringMsg k).units = s.units := by
  unfold State.ringMsg
  simp
@[simp] theorem units_ringWrite (s : State) (k : Nat) (bs : List Byte) (phaseAt : Nat) (irq : Bool) :
    (s.ringWrite k bs phaseAt irq).units = s.units := by
  unfold State.ringWrite
  simp
@[simp] theorem units_upDesc (s : State) (sq idx : Nat) (f : Desc → Desc) : (s.upDesc sq idx f).units = s.units := by
  unfold State.upDesc
  simp
@[simp] theorem units_dropDesc (s : State) (sq idx : Nat) : (s.dropDesc sq idx).units = s.units := by
  unfold State.dropDesc
  simp
@[simp] theorem units_closeRing (s : State) (k : Nat) : (s.closeRing k).units = s.units := by
  unfold State.closeRing
  simp
@[simp] theorem units_noteMet (s : State) : s.noteMet.units = s.units := by
  unfold State.noteMet
  simp
@[simp] theorem units_complete (s : State) (sq idx : Nat) (r : Result) : (s.complete sq idx r).units = s.units := by
  unfold State.complete
  dsimp only
  (repeat' split) <;> simp
@[simp] theorem units_finish (s : State) (sq idx status : Nat) : (s.finish sq idx status).units = s.units := by
  unfold State.finish
  simp
@[simp] theorem units_withDesc {s : State} {sq idx op : Nat} {f : Desc → State} (h : ∀ d, (f d).units = s.units) :
    (s.withDesc sq idx op f).units = s.units :=
  withDesc_keep State.units h
@[simp] theorem units_begin (s : State) (sq idx : Nat) : (s.begin sq idx).units = s.units := by
  unfold State.begin
  simp
@[simp] theorem units_readFailed (s : State) (sq idx : Nat) : (s.readFailed sq idx).units = s.units := by
  unfold State.readFailed
  simp
@[simp] theorem units_writeFailed (s : State) (sq idx : Nat) : (s.writeFailed sq idx).units = s.units := by
  unfold State.writeFailed
  simp
@[simp] theorem units_report (s : State) (src island unit detail : Nat) : (s.report src island unit detail).units = s.units := by
  unfold State.report
  simp
@[simp] theorem units_reportAt (s : State) (r : Report) : (s.reportAt r).units = s.units := by
  unfold State.reportAt
  simp
@[simp] theorem units_condOn (s : State) (src island unit : Nat) : (s.condOn src island unit).units = s.units := by
  unfold State.condOn
  simp
@[simp] theorem units_condOff (s : State) (src island unit : Nat) : (s.condOff src island unit).units = s.units := by
  unfold State.condOff
  simp
@[simp] theorem units_onset (s : State) (src island unit detail : Nat) : (s.onset src island unit detail).units = s.units := by
  unfold State.onset
  simp
@[simp] theorem units_health (s : State) (sub b3 aux p0 p1 : Nat) : (s.health sub b3 aux p0 p1).units = s.units := by
  unfold State.health
  simp
@[simp] theorem units_log (s : State) (typ : Nat) (data : List Byte) : (s.log typ data).units = s.units := by
  unfold State.log
  simp
@[simp] theorem units_degrade (s : State) (kind island unit : Nat) : (s.degrade kind island unit).units = s.units := by
  unfold State.degrade
  simp
@[simp] theorem units_spared (s : State) (kind island unit spare : Nat) : (s.spared kind island unit spare).units = s.units := by
  unfold State.spared
  simp

/-! ### RegOps -/

@[simp] theorem units_writeFields (s : State) (off : Nat) (v : W64) : (s.writeFields off v).units = s.units := by
  unfold State.writeFields
  split <;> simp
@[simp] theorem units_clearRegs (s : State) (p : Cls → Bool) (q : Row → List Nat → Bool) : (s.clearRegs p q).units = s.units := by
  unfold State.clearRegs
  simp

@[simp] theorem units_busWrite {s : State} {off : Nat} {f : State → State} (h : ∀ u : State, (f u).units = u.units) :
    (s.busWrite off f).units = s.units := by
  unfold State.busWrite
  split
  · simp
  · split
    · simp [h]
    · split <;> simp

/-- A register write that keeps the full count of units keeps it on the bus. -/
@[simp] theorem units_busWrite_full {s : State} {off : Nat} {f : State → State}
    (h : ∀ u : State, u.units = fullUnits → (f u).units = fullUnits) (hs : s.units = fullUnits) : (s.busWrite off f).units = fullUnits := by
  unfold State.busWrite
  split
  · simp [hs]
  · split
    · exact h _ (by simp [hs])
    · split <;> simp [hs]

/-! ### LinkOps -/

@[simp] theorem units_upLk (s : State) (n : Nat) (f : Link → Link) : (s.upLk n f).units = s.units := by
  unfold State.upLk
  simp
@[simp] theorem units_upLane (s : State) (n k : Nat) (f : Lane → Lane) : (s.upLane n k f).units = s.units := by
  unfold State.upLane
  simp
@[simp] theorem units_linkEvent (s : State) (n sub lane : Nat) : (s.linkEvent n sub lane).units = s.units := by
  unfold State.linkEvent
  simp
@[simp] theorem units_block (s : State) (n typ payload : Nat) : (s.block n typ payload).units = s.units := by
  unfold State.block
  simp
@[simp] theorem units_burstOn (s : State) (n k : Nat) : (s.burstOn n k).units = s.units := by
  unfold State.burstOn
  simp
@[simp] theorem units_bursts4 (s : State) (n : Nat) : (s.bursts4 n).units = s.units := by
  unfold State.bursts4
  simp
@[simp] theorem units_linkUsed (s : State) (n : Nat) : (s.linkUsed n).units = s.units := by
  unfold State.linkUsed
  simp
@[simp] theorem units_keepAwake (s : State) : s.keepAwake.units = s.units := by
  unfold State.keepAwake
  simp
@[simp] theorem units_traffic (s : State) (n : Nat) (p : PlPacket) : (s.traffic n p).units = s.units := by
  unfold State.traffic
  simp
@[simp] theorem units_transmit (s : State) (n : Nat) (p : PlPacket) : (s.transmit n p).units = s.units := by
  unfold State.transmit
  simp
@[simp] theorem units_send (s : State) (n : Nat) (p : PlPacket) : (s.send n p).units = s.units := by
  unfold State.send
  simp
@[simp] theorem units_drainWait (l : List PlPacket) (s : State) (n : Nat) : (drainWait l s n).units = s.units := by
  induction l generalizing s with
  | nil => rfl
  | cons p r ih => unfold drainWait; split <;> simp [ih]
@[simp] theorem units_drain (s : State) (n : Nat) : (s.drain n).units = s.units := by
  unfold State.drain
  simp
@[simp] theorem units_broadcast (s : State) (typ sub a b : Nat) : (s.broadcast typ sub a b).units = s.units := by
  unfold State.broadcast
  simp
@[simp] theorem units_tether (s : State) (i : MItem) : (s.tether i).units = s.units := by
  unfold State.tether
  simp
@[simp] theorem units_mirror (s : State) (i : MItem) : (s.mirror i).units = s.units := by
  unfold State.mirror
  simp
@[simp] theorem units_unprotect (s : State) (r : Region) (i : CapItem) : (s.unprotect r i).units = s.units := by
  unfold State.unprotect
  simp
@[simp] theorem units_mirrorCap (s : State) (r : Region) (i : CapItem) (off : Nat) (bs : List Byte) :
    (s.mirrorCap r i off bs).units = s.units := by
  unfold State.mirrorCap
  simp
@[simp] theorem units_mirrorEvent (s : State) (sub aux p0 p1 : Nat) : (s.mirrorEvent sub aux p0 p1).units = s.units := by
  unfold State.mirrorEvent
  simp
@[simp] theorem units_digestMismatch (s : State) (id : Nat) : (s.digestMismatch id).units = s.units := by
  unfold State.digestMismatch
  simp
@[simp] theorem units_digestCheck (s : State) (id : Nat) (dig : List Byte) : (s.digestCheck id dig).units = s.units := by
  unfold State.digestCheck
  dsimp only
  split <;> simp
@[simp] theorem units_pairLoaded (s : State) (id : Nat) (dig : List Byte) : (s.pairLoaded id dig).units = s.units := by
  unfold State.pairLoaded
  simp
@[simp] theorem units_pairUnloaded (s : State) (id : Nat) : (s.pairUnloaded id).units = s.units := by
  unfold State.pairUnloaded
  simp
@[simp] theorem units_unprotEnd (s : State) (site : Nat) (acq : Bool) : (s.unprotEnd site acq).units = s.units := by
  unfold State.unprotEnd
  dsimp only
  split <;> simp

/-! ### TaskOps -/

@[simp] theorem units_upTask (s : State) (tid : Nat) (f : Task → Task) : (s.upTask tid f).units = s.units := by
  unfold State.upTask
  simp
@[simp] theorem units_upFslot (s : State) (i : Nat) (f : FSlot → FSlot) : (s.upFslot i f).units = s.units := by
  unfold State.upFslot
  simp
@[simp] theorem units_upLock (s : State) (k : Nat) (f : Lock → Lock) : (s.upLock k f).units = s.units := by
  unfold State.upLock
  simp
@[simp] theorem units_mirrorTask (s : State) (tid : Nat) : (s.mirrorTask tid).units = s.units := by
  unfold State.mirrorTask
  split <;> simp
@[simp] theorem units_check7 (s : State) : s.check7.units = s.units := by
  unfold State.check7
  simp
@[simp] theorem units_buffer (s : State) (tid i : Nat) : (s.buffer tid i).units = s.units := by
  unfold State.buffer
  simp
@[simp] theorem units_placeTask (fuel : Nat) (s : State) (tid : Nat) : (placeTask fuel s tid).units = s.units := by
  induction fuel generalizing s tid with
  | zero => rfl
  | succ fuel ih => unfold placeTask; dsimp only; (repeat' split) <;> simp [ih]
@[simp] theorem units_ready (s : State) (tid : Nat) : (s.ready tid).units = s.units := by
  unfold State.ready
  simp
@[simp] theorem units_refillSlot (s : State) (i : Nat) : (s.refillSlot i).units = s.units := by
  unfold State.refillSlot
  (repeat' split) <;> simp
@[simp] theorem units_dispatch (s : State) : s.dispatch.units = s.units := by
  unfold State.dispatch
  simp
@[simp] theorem units_coreTake (s : State) (i : Nat) : (s.coreTake i).units = s.units := by
  unfold State.coreTake
  dsimp only
  split <;> simp
@[simp] theorem units_coreFree (s : State) (i : Nat) : (s.coreFree i).units = s.units := by
  unfold State.coreFree
  simp
@[simp] theorem units_replace (s : State) (tid : Nat) : (s.replace tid).units = s.units := by
  unfold State.replace
  simp
@[simp] theorem units_boundary (s : State) (i : Nat) : (s.boundary i).units = s.units := by
  unfold State.boundary
  dsimp only
  (repeat' split) <;> simp
@[simp] theorem units_wake (s : State) (tid : Nat) (timedOut : Bool) : (s.wake tid timedOut).units = s.units := by
  unfold State.wake
  simp
@[simp] theorem units_setFlags (s : State) (tid m : Nat) : (s.setFlags tid m).units = s.units := by
  unfold State.setFlags
  dsimp only
  split <;> simp
@[simp] theorem units_clearFlagsOf (s : State) (tid m : Nat) : (s.clearFlagsOf tid m).units = s.units := by
  unfold State.clearFlagsOf
  simp
@[simp] theorem units_mirrorLock (s : State) (k : Nat) : (s.mirrorLock k).units = s.units := by
  unfold State.mirrorLock
  simp
@[simp] theorem units_lockGrant (s : State) (k : Nat) (o : Owner) : (s.lockGrant k o).units = s.units := by
  unfold State.lockGrant
  dsimp only
  split <;> simp
@[simp] theorem units_lockRelease (s : State) (k : Nat) (abandon : Bool) : (s.lockRelease k abandon).units = s.units := by
  unfold State.lockRelease
  dsimp only
  (repeat' split) <;> simp
@[simp] theorem units_lockRequest (s : State) (k : Nat) (r : LockReq) : (s.lockRequest k r).units = s.units := by
  unfold State.lockRequest
  simp
@[simp] theorem units_abandonLocks (s : State) (o : Owner) : (s.abandonLocks o).units = s.units := by
  unfold State.abandonLocks
  simp
@[simp] theorem units_unqueueLocks (s : State) (p : Owner → Bool) : (s.unqueueLocks p).units = s.units := by
  unfold State.unqueueLocks
  simp
@[simp] theorem units_writeSlot (s : State) (tid k : Nat) (bs : List Byte) : (s.writeSlot tid k bs).units = s.units := by
  unfold State.writeSlot
  simp
@[simp] theorem units_settleTask (s : State) (tid : Nat) : (s.settleTask tid).units = s.units := by
  unfold State.settleTask
  dsimp only
  split <;> simp
@[simp] theorem units_taskOpEnd (s : State) (tid k : Nat) (r : Result) (ck : Option Ckpt) (resumable : Bool) :
    (s.taskOpEnd tid k r ck resumable).units = s.units := by
  unfold State.taskOpEnd
  dsimp only
  split <;> simp
@[simp] theorem units_opEnd (s : State) (o : Owner) (k : Nat) (r : Result) (ck : Option Ckpt) (resumable : Bool) :
    (s.opEnd o k r ck resumable).units = s.units := by
  unfold State.opEnd
  split <;> simp

/-! ### Sites -/

@[simp] theorem units_upSite (s : State) (id : Nat) (f : Site → Site) : (s.upSite id f).units = s.units := by
  unfold State.upSite
  simp
@[simp] theorem units_upBurst (s : State) (e : Ent) (f : Burst → Burst) : (s.upBurst e f).units = s.units := by
  unfold State.upBurst
  simp
@[simp] theorem units_setSiteMask (s : State) (g v : Nat) : (s.setSiteMask g v).units = s.units := by
  unfold State.setSiteMask
  simp
@[simp] theorem units_remask (s : State) (g : Nat) : (s.remask g).units = s.units := by
  unfold State.remask
  simp
@[simp] theorem units_giveSlice (s : State) (g : Nat) (e : Ent) (grp : Nat) : (s.giveSlice g e grp).units = s.units := by
  unfold State.giveSlice
  simp
@[simp] theorem units_mirrorMap (s : State) (e : Ent) : (s.mirrorMap e).units = s.units := by
  unfold State.mirrorMap
  simp
@[simp] theorem units_setEntSlices (s : State) (e : Ent) (l : List Nat) : (s.setEntSlices e l).units = s.units := by
  unfold State.setEntSlices
  split <;> simp
@[simp] theorem units_declare (s : State) (x : Site) : (s.declare x).1.units = s.units := by
  unfold State.declare
  dsimp only
  (repeat' split) <;> simp
@[simp] theorem units_wait (s : State) (w : Waiting) : (s.wait w).units = s.units :=
  units_begin s w.sq w.idx
@[simp] theorem units_unwait (s : State) (sq idx : Nat) : (s.unwait sq idx).units = s.units := by
  unfold State.unwait
  simp
@[simp] theorem units_declTurn (s : State) (d : Desc) : (s.declTurn d).units = s.units := by
  unfold State.declTurn
  simp
@[simp] theorem units_inertChans (s : State) (n mask : Nat) : (s.inertChans n mask).units = s.units := by
  unfold State.inertChans
  simp
@[simp] theorem units_freeSl (s : State) (g : Nat) : (s.freeSl g).units = s.units := by
  unfold State.freeSl
  simp
@[simp] theorem units_blockHere (s : State) (e : Ent) : (s.blockHere e).units = s.units := by
  unfold State.blockHere
  dsimp only
  split <;> simp
@[simp] theorem units_blockEnt (s : State) (e : Ent) : (s.blockEnt e).units = s.units := by
  unfold State.blockEnt
  dsimp only
  (repeat' split) <;> simp
@[simp] theorem units_moveSlice (s : State) (g : Nat) : (s.moveSlice g).units = s.units := by
  unfold State.moveSlice
  dsimp only
  (repeat' split) <;> simp
@[simp] theorem units_settleSlices (s : State) (e : Ent) : (s.settleSlices e).units = s.units := by
  unfold State.settleSlices
  dsimp only
  (repeat' split) <;> simp
@[simp] theorem units_capsSlices (s : State) : s.capsSlices.units = s.units := by
  unfold State.capsSlices
  simp
@[simp] theorem units_retireSlice (s : State) (g : Nat) : (s.retireSlice g).units = s.units := by
  unfold State.retireSlice
  simp
@[simp] theorem units_maskFrom (s : State) (id v : Nat) : (s.maskFrom id v).units = s.units := by
  unfold State.maskFrom
  simp
@[simp] theorem units_stickMember (s : State) (g id : Nat) : (s.stickMember g id).units = s.units := by
  unfold State.stickMember
  dsimp only
  (repeat' split) <;> simp

/-! ### Placement -/

@[simp] theorem units_upMc (s : State) (m : Nat) (f : Mc → Mc) : (s.upMc m f).units = s.units := by
  unfold State.upMc
  simp
@[simp] theorem units_upObj (s : State) (id : Nat) (f : Obj → Obj) : (s.upObj id f).units = s.units := by
  unfold State.upObj
  simp
@[simp] theorem units_objStore (s : State) (o : Obj) (bs : List Byte) : (s.objStore o bs).units = s.units := by
  unfold State.objStore
  simp
@[simp] theorem units_mapShadow (s : State) : s.mapShadow.units = s.units := by
  unfold State.mapShadow
  dsimp only
  refine (units_foldl (fun a x => ?_) _ _).trans (by simp)
  split <;> simp
@[simp] theorem units_lostShadow (s : State) : s.lostShadow.units = s.units := by
  unfold State.lostShadow
  simp
@[simp] theorem units_doReadPlacement (sq idx : Nat) (s : State) : (doReadPlacement sq idx s).units = s.units := by
  unfold doReadPlacement
  simp

/-! ### Objects -/

@[simp] theorem units_acceptId (s : State) (d : Desc) : (s.acceptId d).units = s.units := by
  unfold State.acceptId
  simp
@[simp] theorem units_dropLoad (s : State) (sq idx : Nat) : (s.dropLoad sq idx).units = s.units := by
  unfold State.dropLoad
  simp

/-- Placement is made a variable before the branches are taken apart, so that the kernel does not run its search. -/
@[simp] theorem units_doLoadPattern (sq idx : Nat) (src : Option (List Byte)) (s : State) :
    (doLoadPattern sq idx src s).units = s.units := by
  refine units_withDesc fun d => ?_
  generalize State.placePattern = place
  revert place
  refine id fun place => ?_
  dsimp only
  (repeat' split) <;> simp

@[simp] theorem units_loadOther (op : Nat) (kind : ObjKind) (sq idx : Nat) (src : Option (List Byte)) (s : State) :
    (loadOther op kind sq idx src s).units = s.units := by
  refine units_withDesc fun d => ?_
  dsimp only
  (repeat' split) <;> simp
@[simp] theorem units_doLoadFlow (sq idx : Nat) (src : Option (List Byte)) (s : State) : (doLoadFlow sq idx src s).units = s.units := by
  unfold doLoadFlow
  simp
@[simp] theorem units_doLoadPeList (sq idx : Nat) (src : Option (List Byte)) (s : State) : (doLoadPeList sq idx src s).units = s.units := by
  unfold doLoadPeList
  simp
@[simp] theorem units_doApgFallback (sq idx : Nat) (s : State) : (doApgFallback sq idx s).units = s.units := by
  unfold doApgFallback
  refine units_withDesc fun d => ?_
  dsimp only
  (repeat' split) <;> simp
@[simp] theorem units_dropLinks (s : State) (id : Nat) : (s.dropLinks id).units = s.units := by
  unfold State.dropLinks
  simp
@[simp] theorem units_freeCopies (s : State) (id : Nat) : (s.freeCopies id).units = s.units := by
  unfold State.freeCopies
  simp
@[simp] theorem units_freeObj (s : State) (id : Nat) : (s.freeObj id).units = s.units := by
  unfold State.freeObj
  simp

/-! ### Admission -/

@[simp] theorem units_pullIn (s : State) (m : Nat) : (s.pullIn m).units = s.units := by
  unfold State.pullIn
  simp
@[simp] theorem units_mirrorBurst (s : State) (b : Burst) (gone : Bool) : (s.mirrorBurst b gone).units = s.units := by
  unfold State.mirrorBurst
  simp
@[simp] theorem units_admitBurst (s : State) (b : Burst) : (s.admitBurst b).units = s.units := by
  unfold State.admitBurst
  dsimp only
  (repeat' split) <;> simp
@[simp] theorem units_scanLoop (l : List Burst) (s : State) : (scanLoop l s).units = s.units := by
  induction l generalizing s with
  | nil => rfl
  | cons b r ih => unfold scanLoop; (repeat' split) <;> simp [ih]
@[simp] theorem units_scan (s : State) : s.scan.units = s.units := by
  unfold State.scan
  simp
@[simp] theorem units_submit (s : State) (q : Submit) : (s.submit q).1.units = s.units := by
  unfold State.submit
  dsimp only
  (repeat' split) <;> simp
@[simp] theorem units_release (s : State) (b : Burst) : (s.release b).units = s.units := by
  unfold State.release
  simp

/-! ### Align -/

@[simp] theorem units_shiftStarts (s : State) (d : Int) : (s.shiftStarts d).units = s.units := by
  unfold State.shiftStarts
  simp
@[simp] theorem units_shiftPast (s : State) (k : Nat) : (s.shiftPast k).units = s.units := by
  simp [State.shiftPast, State.units, unitsOf]
@[simp] theorem units_stepDtime (s : State) (k : Nat) : (s.stepDtime k).units = s.units := by
  unfold State.stepDtime
  simp
@[simp] theorem units_xoffStep (s : State) : s.xoffStep.units = s.units := by
  unfold State.xoffStep
  dsimp only
  split <;> simp
@[simp] theorem units_passOn (s : State) (kind : Nat) (cum lead : Int) : (s.passOn kind cum lead).units = s.units := by
  unfold State.passOn
  simp
@[simp] theorem units_alignTo (s : State) (l : Int) : (s.alignTo l).units = s.units := by
  unfold State.alignTo
  dsimp only
  split <;> simp
@[simp] theorem units_alignPass (s : State) (kind : Nat) (cum lead : Int) : (s.alignPass kind cum lead).units = s.units := by
  unfold State.alignPass
  simp
@[simp] theorem units_alignStart (s : State) : s.alignStart.units = s.units := by
  unfold State.alignStart
  simp
@[simp] theorem units_alignResume (s : State) : s.alignResume.units = s.units := by
  unfold State.alignResume
  dsimp only
  split <;> simp
@[simp] theorem units_alignAbort (s : State) : s.alignAbort.units = s.units := by
  unfold State.alignAbort
  simp

/-! ### Reel -/

@[simp] theorem units_reelWord (n sl op : Nat) (act : Cx → Seq → Seq) (s : State) : (reelWord n sl op act s).units = s.units := by
  unfold reelWord
  dsimp only
  (repeat' split) <;> simp
@[simp] theorem units_doVec (n sl : Nat) (s : State) : (doVec n sl s).units = s.units := by
  unfold doVec
  simp
@[simp] theorem units_doRpt (n sl : Nat) (s : State) : (doRpt n sl s).units = s.units := by
  unfold doRpt
  simp
@[simp] theorem units_doReelLoop (n sl : Nat) (s : State) : (doReelLoop n sl s).units = s.units := by
  unfold doReelLoop
  simp
@[simp] theorem units_doEndl (n sl : Nat) (s : State) : (doEndl n sl s).units = s.units := by
  unfold doEndl
  simp
@[simp] theorem units_doMloop (n sl : Nat) (s : State) : (doMloop n sl s).units = s.units := by
  unfold doMloop
  simp
@[simp] theorem units_setMatch (s : State) (g iter word : Nat) (timeout : Bool) : (s.setMatch g iter word timeout).units = s.units := by
  unfold State.setMatch
  simp
@[simp] theorem units_evalMatch (s : State) (g : Nat) (c : Cx) (q : Seq) (f : Frame) : (s.evalMatch g c q f).units = s.units := by
  unfold State.evalMatch
  simp
@[simp] theorem units_doMend (n sl : Nat) (s : State) : (doMend n sl s).units = s.units := by
  unfold doMend
  dsimp only
  (repeat' split) <;> simp
@[simp] theorem units_doJmp (n sl : Nat) (s : State) : (doJmp n sl s).units = s.units := by
  unfold doJmp
  simp
@[simp] theorem units_doCall (n sl : Nat) (s : State) : (doCall n sl s).units = s.units := by
  unfold doCall
  simp
@[simp] theorem units_doRet (n sl : Nat) (s : State) : (doRet n sl s).units = s.units := by
  unfold doRet
  simp
@[simp] theorem units_doBrf (n sl : Nat) (s : State) : (doBrf n sl s).units = s.units := by
  unfold doBrf
  simp
@[simp] theorem units_doBrp (n sl : Nat) (s : State) : (doBrp n sl s).units = s.units := by
  unfold doBrp
  simp
@[simp] theorem units_doBranchDecision (n sl : Nat) (s : State) : (doBranchDecision n sl s).units = s.units := by
  unfold doBranchDecision
  dsimp only
  split <;> simp
@[simp] theorem units_doSetMux (n sl : Nat) (s : State) : (doSetMux n sl s).units = s.units := by
  unfold doSetMux
  simp
@[simp] theorem units_doApgv (n sl : Nat) (s : State) : (doApgv n sl s).units = s.units := by
  unfold doApgv
  simp
@[simp] theorem units_doReelEnd (n sl : Nat) (s : State) : (doReelEnd n sl s).units = s.units := by
  unfold doReelEnd
  simp
@[simp] theorem units_setCkptReg (s : State) (g : Nat) (k : Option Ckpt) : (s.setCkptReg g k).units = s.units := by
  unfold State.setCkptReg
  split <;> simp
@[simp] theorem units_commitCkpt (s : State) (g : Nat) (c : Cx) : (s.commitCkpt g c).units = s.units := by
  unfold State.commitCkpt
  dsimp only
  split <;> simp
@[simp] theorem units_doCheckpointCommit (n sl : Nat) (s : State) : (doCheckpointCommit n sl s).units = s.units := by
  unfold doCheckpointCommit
  dsimp only
  split <;> simp

/-! ### MemLog -/

@[simp] theorem units_setLogWord (s : State) (m j w v : Nat) : (s.setLogWord m j w v).units = s.units := by
  unfold State.setLogWord
  simp
@[simp] theorem units_loseObjects (s : State) (m : Nat) : (s.loseObjects m).units = s.units := by
  unfold State.loseObjects
  simp
@[simp] theorem units_cutSlice (s : State) (g k status : Nat) : (s.cutSlice g k status).units = s.units := by
  unfold State.cutSlice
  simp
@[simp] theorem units_retireChannel (s : State) (m : Nat) : (s.retireChannel m).units = s.units := by
  unfold State.retireChannel
  simp
@[simp] theorem units_candidate (s : State) (m : Nat) (br : Nat × Nat) : (s.candidate m br).units = s.units := by
  unfold State.candidate
  simp
@[simp] theorem units_countRow (s : State) (m : Nat) (br : Nat × Nat) : (s.countRow m br).units = s.units := by
  unfold State.countRow
  simp
@[simp] theorem units_logDetect (s : State) (d : Detect) : (s.logDetect d).units = s.units := by
  unfold State.logDetect
  dsimp only
  (repeat' split) <;> simp
@[simp] theorem units_memError (s : State) (d : Detect) : (s.memError d).units = s.units := by
  unfold State.memError
  simp
@[simp] theorem units_detected (s : State) (d : Detect) : (s.detected d).units = s.units := by
  unfold State.detected
  simp

theorem units_of_useInjection {s t : State} {a : Nat} {c : Bool} (h : s.useInjection a = some (c, t)) : t.units = s.units := by
  unfold State.useInjection at h
  split at h
  · split at h
    · cases h; simp
    · cases h
  · cases h
@[simp] theorem units_readErrors (s : State) (a n req : Nat) : (s.readErrors a n req).1.units = s.units := by
  unfold State.readErrors
  dsimp only
  split
  · split
    · split
      next h => simp [units_of_useInjection h]
      · simp
    · simp
  · simp

theorem units_of_readErrors {s : State} {a n req : Nat} {p : State × List Nat} (h : s.readErrors a n req = p) :
    p.1.units = s.units := h ▸ units_readErrors s a n req

@[simp] theorem units_mergeError (s : State) (addr req : Nat) : (s.mergeError addr req).units = s.units := by
  unfold State.mergeError
  simp

@[simp] theorem units_mergeRead (s : State) (addr req access : Nat) (ue : Bool) :
    (s.mergeRead addr req access ue).units = s.units := by
  unfold State.mergeRead
  split
  · simp
  · split
    next h => simp [units_of_useInjection h]
    · rfl

@[simp] theorem units_readBackError (s : State) (o : Obj) (x : Nat) : (s.readBackError o x).units = s.units := by
  unfold State.readBackError
  simp
@[simp] theorem units_doObjectLoadComplete (sq idx : Nat) (ue : Option Nat) (s : State) :
    (doObjectLoadComplete sq idx ue s).units = s.units := by
  unfold doObjectLoadComplete
  dsimp only
  (repeat' split) <;> simp

/-! ### Regions -/

@[simp] theorem units_upRegion (s : State) (id : Nat) (f : Region → Region) : (s.upRegion id f).units = s.units := by
  unfold State.upRegion
  simp
@[simp] theorem units_setGranule (s : State) (a : Nat) : (s.setGranule a).units = s.units := by
  unfold State.setGranule
  simp
@[simp] theorem units_writeHeader (s : State) (id : Nat) (ue : Bool) : (s.writeHeader id ue).units = s.units := by
  unfold State.writeHeader
  dsimp only
  split <;> simp
@[simp] theorem units_endHeader (s : State) (id : Nat) : (s.endHeader id).units = s.units := by
  unfold State.endHeader
  simp
@[simp] theorem units_upRes (s : State) (site : Nat) (f : SiteRes → SiteRes) : (s.upRes site f).units = s.units := by
  unfold State.upRes
  simp
@[simp] theorem units_qualify (s : State) (e : Ent) (bit : Nat) : (s.qualify e bit).units = s.units := by
  unfold State.qualify
  simp
@[simp] theorem units_reduce (s : State) (g : Nat) (e : Ent) (sites : List Nat) (v : Nat) : (s.reduce g e sites v).units = s.units := by
  unfold State.reduce
  simp
@[simp] theorem units_loseRecord (s : State) (site region : Nat) : (s.loseRecord site region).units = s.units := by
  unfold State.loseRecord
  simp
@[simp] theorem units_writeRecord (s : State) (n : Nat) (rec : CapRec) (joined ue : Bool) :
    (s.writeRecord n rec joined ue).units = s.units := by
  unfold State.writeRecord
  dsimp only
  (repeat' split) <;> simp
@[simp] theorem units_doCaptureRecordWrite (n : Nat) (ue : Bool) (s : State) : (doCaptureRecordWrite n ue s).units = s.units := by
  unfold doCaptureRecordWrite
  dsimp only
  (repeat' split) <;> simp
@[simp] theorem units_doRegionHeaderWrite (id : Nat) (ue : Bool) (t : Nat) (s : State) : (doRegionHeaderWrite id ue t s).units = s.units := by
  unfold doRegionHeaderWrite
  dsimp only
  split <;> simp
@[simp] theorem units_doBitmapWriteback (n i : Nat) (ue : Bool) (s : State) : (doBitmapWriteback n i ue s).units = s.units := by
  unfold doBitmapWriteback
  dsimp only
  (repeat' split) <;> simp
@[simp] theorem units_defineRegion (s : State) (d : Desc) : (s.defineRegion d).units = s.units := by
  unfold State.defineRegion
  dsimp only
  (repeat' split) <;> simp
@[simp] theorem units_doDefineRegion (sq idx : Nat) (s : State) : (doDefineRegion sq idx s).units = s.units := by
  unfold doDefineRegion
  simp
@[simp] theorem units_waited {s : State} {sq idx : Nat} {p : WaitKind → Bool} {f : State → Desc → State}
    (h : ∀ u d, (f u d).units = u.units) :
    (s.waited sq idx p f).units = s.units := by
  unfold State.waited; (repeat' split) <;> simp [h]
@[simp] theorem units_doDeferredRegionDefine (sq idx : Nat) (s : State) : (doDeferredRegionDefine sq idx s).units = s.units := by
  unfold doDeferredRegionDefine
  simp
@[simp] theorem units_freeRegion (s : State) (id : Nat) : (s.freeRegion id).units = s.units := by
  unfold State.freeRegion
  simp
@[simp] theorem units_clearRegion (s : State) (id : Nat) : (s.clearRegion id).units = s.units := by
  unfold State.clearRegion
  split <;> simp
@[simp] theorem units_regionDesc {op : Nat} {kind : Nat → WaitKind} {act : State → Nat → State} {sq idx : Nat} {s : State}
    (h : ∀ u id, (act u id).units = u.units) : (regionDesc op kind act sq idx s).units = s.units := by
  refine units_withDesc fun d => ?_
  dsimp only
  (repeat' split) <;> simp [h]
@[simp] theorem units_doFreeRegion (sq idx : Nat) (s : State) : (doFreeRegion sq idx s).units = s.units := by
  unfold doFreeRegion
  simp
@[simp] theorem units_doClearRegion (sq idx : Nat) (s : State) : (doClearRegion sq idx s).units = s.units := by
  unfold doClearRegion
  simp
@[simp] theorem units_regionWaited {op : Nat} {act : State → Nat → State} {sq idx : Nat} {s : State}
    (h : ∀ u id, (act u id).units = u.units) : (regionWaited op act sq idx s).units = s.units := by
  refine units_waited fun u d => ?_
  dsimp only
  split <;> simp [h]
@[simp] theorem units_doDeferredRegionFree (sq idx : Nat) (s : State) : (doDeferredRegionFree sq idx s).units = s.units := by
  unfold doDeferredRegionFree
  simp
@[simp] theorem units_doDeferredRegionClear (sq idx : Nat) (s : State) : (doDeferredRegionClear sq idx s).units = s.units := by
  unfold doDeferredRegionClear
  simp
@[simp] theorem units_doReadRegion (sq idx : Nat) (s : State) : (doReadRegion sq idx s).units = s.units := by
  unfold doReadRegion
  refine units_withDesc fun d => ?_
  dsimp only
  (repeat' split) <;> simp
@[simp] theorem units_doReadSiteResult (sq idx : Nat) (s : State) : (doReadSiteResult sq idx s).units = s.units := by
  unfold doReadSiteResult
  refine units_withDesc fun d => ?_
  dsimp only
  (repeat' split) <;> simp

/-! ### Flags -/

@[simp] theorem units_stick (s : State) (flag chan : RF) (n c : Nat) : (s.stick flag chan n c).units = s.units := by
  unfold State.stick
  simp
@[simp] theorem units_apgEvt (s : State) (k bit : Nat) : (s.apgEvt k bit).units = s.units := by
  unfold State.apgEvt
  simp
@[simp] theorem units_raise (s : State) (n bit stamp : Nat) : (s.raise n bit stamp).units = s.units := by
  unfold State.raise
  simp
@[simp] theorem units_fallIn (s : State) (e : Ent) (v : Nat) : (s.fallIn e v).units = s.units := by
  unfold State.fallIn
  dsimp only
  (repeat' split) <;> simp
@[simp] theorem units_setChCounts (s : State) (x : Site) (l : List Nat) : (s.setChCounts x l).units = s.units := by
  unfold State.setChCounts
  simp
@[simp] theorem units_setSliceCounts (s : State) (g fails : Nat) (first last : Option Nat) :
    (s.setSliceCounts g fails first last).units = s.units := by
  unfold State.setSliceCounts
  simp
@[simp] theorem units_sliceHit (s : State) (g v : Nat) : (s.sliceHit g v).units = s.units := by
  unfold State.sliceHit
  simp
@[simp] theorem units_countSite (s : State) (e : Ent) (n v : Nat) (d : Verdict) : (s.countSite e n v d).units = s.units := by
  unfold State.countSite
  simp
@[simp] theorem units_maskFirst (s : State) (g v : Nat) (d : Verdict) : (s.maskFirst g v d).units = s.units := by
  unfold State.maskFirst
  split <;> simp
@[simp] theorem units_countVector (s : State) (g : Nat) (e : Ent) (v : Nat) (vs : List Verdict) :
    (s.countVector g e v vs).units = s.units := by
  unfold State.countVector
  simp

/-! ### Capture -/

@[simp] theorem units_upCap (s : State) (g : Nat) (f : CapSlice → CapSlice) : (s.upCap g f).units = s.units := by
  unfold State.upCap
  simp
@[simp] theorem units_growCredit (s : State) (g t : Nat) : (s.growCredit g t).units = s.units := by
  unfold State.growCredit
  simp
@[simp] theorem units_settleCredit (s : State) (n t : Nat) : (s.settleCredit n t).units = s.units := by
  unfold State.settleCredit
  simp
@[simp] theorem units_pay (s : State) (g n : Nat) : (s.pay g n).units = s.units := by
  unfold State.pay
  simp
@[simp] theorem units_pushRec (s : State) (g : Nat) (e : Ent) (site v : Nat) (bs : List Byte) :
    (s.pushRec g e site v bs).units = s.units := by
  unfold State.pushRec
  dsimp only
  split <;> simp
@[simp] theorem units_writeMode (s : State) (g : Nat) (e : Ent) (now v t mode reason : Nat) :
    (s.writeMode g e now v t mode reason).units = s.units := by
  unfold State.writeMode
  simp
@[simp] theorem units_enterSummary (s : State) (g : Nat) (e : Ent) (v t reason : Nat) : (s.enterSummary g e v t reason).units = s.units := by
  unfold State.enterSummary
  simp
@[simp] theorem units_closeRanges (s : State) (g : Nat) (e : Ent) (last : Nat) : (s.closeRanges g e last).units = s.units := by
  refine (units_upCap _ _ _).trans (units_foldl (fun a x => ?_) _ _)
  split <;> simp
@[simp] theorem units_dropRaws (s : State) (g : Nat) (e : Ent) (v : Nat) (raws : List Verdict) : (s.dropRaws g e v raws).units = s.units := by
  unfold State.dropRaws
  simp
@[simp] theorem units_captureVector (s : State) (g : Nat) (e : Ent) (v tset t tEnd : Nat) (vs : List Verdict) :
    (s.captureVector g e v tset t tEnd vs).units = s.units := by
  unfold State.captureVector
  simp
@[simp] theorem units_captureLate (s : State) (g : Nat) (e : Ent) (v tset t : Nat) (vs : List Verdict) :
    (s.captureLate g e v tset t vs).units = s.units := by
  unfold State.captureLate
  simp
@[simp] theorem units_captureEnd (s : State) (g : Nat) (e : Ent) (v : Nat) : (s.captureEnd g e v).units = s.units := by
  unfold State.captureEnd
  simp
@[simp] theorem units_bitmapBeat (s : State) (g : Nat) (e : Ent) (site k idx word v : Nat) :
    (s.bitmapBeat g e site k idx word v).units = s.units := by
  unfold State.bitmapBeat
  dsimp only
  (repeat' split) <;> simp
@[simp] theorem units_tellRegion (s : State) (r : Region) (t : Nat) : (s.tellRegion r t).units = s.units := by
  unfold State.tellRegion
  simp
@[simp] theorem units_stampRegion (s : State) (r : Region) (near : Bool) (t0 : Nat) (rec : List Byte) :
    (s.stampRegion r near t0 rec).units = s.units := by
  unfold State.stampRegion
  simp
@[simp] theorem units_deliverDue (s : State) (sample : Bool) (sites : List Nat) (t : Nat) :
    (s.deliverDue sample sites t).units = s.units := by
  refine units_foldl (fun a x => ?_) _ _
  dsimp only
  split <;> simp
@[simp] theorem units_deliverRest (s : State) (sample : Bool) (sites : List Nat) : (s.deliverRest sample sites).units = s.units := by
  unfold State.deliverRest
  simp

/-! ### Bridle -/

@[simp] theorem units_stopOthers (s : State) (e : Ent) (g t status : Nat) : (s.stopOthers e g t status).units = s.units := by
  unfold State.stopOthers
  dsimp only
  split <;> simp
@[simp] theorem units_denOff (s : State) (n c t : Nat) : (s.denOff n c t).units = s.units := by
  unfold State.denOff
  simp
@[simp] theorem units_driversOff (s : State) (e : Ent) (n t : Nat) : (s.driversOff e n t).units = s.units := by
  unfold State.driversOff
  simp
@[simp] theorem units_sendFails (s : State) (g : Nat) (c : Cx) (v : Nat) : (s.sendFails g c v).units = s.units := by
  unfold State.sendFails
  dsimp only
  split <;> simp
@[simp] theorem units_markCkpt (s : State) (g : Nat) (c : Cx) (i : Nat) (steer : Option Nat) : (s.markCkpt g c i steer).units = s.units := by
  unfold State.markCkpt
  simp
@[simp] theorem units_settleCharge (s : State) (g : Nat) (c : Cx) : (s.settleCharge g c).units = s.units := by
  unfold State.settleCharge
  dsimp only
  split <;> simp
@[simp] theorem units_endPart (s0 : State) (g : Nat) (c : Cx) (x : EndAt) : (s0.endPart g c x).units = s0.units := by
  unfold State.endPart
  dsimp only
  (repeat' split) <;> simp
@[simp] theorem units_raiseSiteFail (s : State) (e : Ent) (v stamp : Nat) : (s.raiseSiteFail e v stamp).units = s.units := by
  unfold State.raiseSiteFail
  dsimp only
  split <;> simp

@[simp] theorem units_raiseVector (s : State) (g : Nat) (e : Ent) (t : Nat) (q : Seq) (r : Run) (l : List ChanVec) (vs : List Verdict) :
    (s.raiseVector g e t q r l vs).units = s.units := by
  unfold State.raiseVector
  extract_lets n sl s1 s2 live first s3
  have h2 : s2.units = s.units := by unfold s2 s1; split <;> simp
  have h3 : s3.units = s.units := by unfold s3; clear_value first; split <;> simp [h2]
  split
  · exact h2
  · refine (units_foldl (fun a y => ?_) _ _).trans h3
    split <;> simp

@[simp] theorem units_countTrans (s : State) (l : List (Nat × Nat)) : (s.countTrans l).units = s.units := by
  unfold State.countTrans
  simp

@[simp] theorem units_applyVector (s00 : State) (g : Nat) (c : Cx) (r : Run) (rest : List Run) (smp : List Sample) :
    (s00.applyVector g c r rest smp).units = s00.units := by
  unfold State.applyVector
  extract_lets n e s q v t ts tEnd apg joined word pins l sk s0 s1 s2 bound flag s3 s4 sites own charged s5 vs bad s6 s7 s8 s10 s11
  have hflag (u : State) (k : Option Nat) (b : Nat) (on : Bool) : (flag u k b on).units = u.units := by
    unfold flag; split
    · split <;> simp
    · rfl
  have hk : sk.units = s00.units := by unfold sk s; split <;> simp
  have h2 : s2.units = s00.units := by simp [s2, s1, s0, hk]
  have h4 : s4.units = s00.units := by
    unfold s4 s3; split
    · split <;> simp [hflag, h2]
    · simp [hflag, h2]
  have h8 : s8.units = s00.units := by
    have h5 : s5.units = s00.units := by simp [s5, h4]
    have h7 : s7.units = s00.units := by simp [s7, s6, h5]
    unfold s8; split
    · exact h7
    · refine (units_foldl (fun a y => units_foldl (fun b i => ?_) _ _) _ _).trans h7
      split <;> simp
  simp [s11, s10, h8]

@[simp] theorem units_settleEnd (s : State) (g : Nat) : (s.settleEnd g).units = s.units := by
  unfold State.settleEnd
  dsimp only
  (repeat' split) <;> simp
@[simp] theorem units_endStart (s : State) (e : Ent) (status reason : Nat) : (s.endStart e status reason).units = s.units := by
  unfold State.endStart
  dsimp only
  split <;> simp
@[simp] theorem units_tellNogo (s : State) (e : Ent) (status : Nat) : (s.tellNogo e status).units = s.units := by
  unfold State.tellNogo
  split <;> simp
@[simp] theorem units_endFilling (s : State) (e : Ent) (status : Nat) : (s.endFilling e status).units = s.units := by
  unfold State.endFilling
  simp
@[simp] theorem units_raiseEnd (s : State) (g status : Nat) : (s.raiseEnd g status).units = s.units := by
  unfold State.raiseEnd
  dsimp only
  split <;> simp
@[simp] theorem units_stopSlice (s : State) (g t status : Nat) : (s.stopSlice g t status).units = s.units := by
  unfold State.stopSlice
  dsimp only
  split <;> simp
@[simp] theorem units_endNow (s : State) (g status : Nat) : (s.endNow g status).units = s.units := by
  unfold State.endNow
  dsimp only
  split <;> simp
@[simp] theorem units_undoCounts (s : State) (g : Nat) (e : Ent) (u : Undo) : (s.undoCounts g e u).units = s.units := by
  unfold State.undoCounts
  dsimp only
  split <;> simp
@[simp] theorem units_undoEvents (s : State) (g : Nat) (e : Ent) (v t : Nat) : (s.undoEvents g e v t).units = s.units := by
  unfold State.undoEvents
  simp

@[simp] theorem units_undoVector (s : State) (g : Nat) (c : Cx) (u : Undo) : (s.undoVector g c u).units = s.units := by
  unfold State.undoVector
  extract_lets v e n s1 s2 s3
  have h1 : s1.units = s.units := by
    refine units_foldl (fun a r => ?_) _ _
    split <;> simp
  simp [s3, s2, h1]

@[simp] theorem units_cutNow (s : State) (g status : Nat) : (s.cutNow g status).units = s.units := by
  unfold State.cutNow
  dsimp only
  split <;> simp
@[simp] theorem units_endEnt (s : State) (e : Ent) (status : Nat) : (s.endEnt e status).units = s.units := by
  unfold State.endEnt
  simp
@[simp] theorem units_stopEnt (s : State) (e : Ent) (t status : Nat) : (s.stopEnt e t status).units = s.units := by
  unfold State.stopEnt
  simp
@[simp] theorem units_boundaryXoff (s : State) : s.boundaryXoff.units = s.units := by
  unfold State.boundaryXoff
  simp
@[simp] theorem units_doStopRequest (n sl status t : Nat) (s : State) : (doStopRequest n sl status t s).units = s.units := by
  unfold doStopRequest
  simp
@[simp] theorem units_doSeqCtlAbort (n : Nat) (v : W64) (s : State) : (doSeqCtlAbort n v s).units = s.units := by
  unfold doSeqCtlAbort
  simp

/-! ### Apg -/

@[simp] theorem units_powerUp (s : State) (d : Nat) : (s.powerUp d).units = s.units := by
  unfold State.powerUp
  simp
@[simp] theorem units_setBind (s : State) (k : Nat) (e : Option Ent) : (s.setBind k e).units = s.units := by
  unfold State.setBind
  simp
@[simp] theorem units_unbind (s : State) (k : Nat) : (s.unbind k).units = s.units := by
  unfold State.unbind
  simp
@[simp] theorem units_unbindEnt (s : State) (e : Ent) (keep : Option Nat) : (s.unbindEnt e keep).units = s.units := by
  unfold State.unbindEnt
  simp
@[simp] theorem units_bind (s : State) (k : Nat) (e : Ent) (setup : List Byte) : (s.bind k e setup).units = s.units := by
  unfold State.bind
  simp
@[simp] theorem units_bindTurn (s : State) (d : Desc) (setup : List Byte) : (s.bindTurn d setup).units = s.units := by
  unfold State.bindTurn
  simp
@[simp] theorem units_doBindApg (sq idx : Nat) (src : Option (List Byte)) (s : State) : (doBindApg sq idx src s).units = s.units := by
  unfold doBindApg
  dsimp only
  split <;> simp
@[simp] theorem units_doDeferredBindApg (sq idx : Nat) (s : State) : (doDeferredBindApg sq idx s).units = s.units := by
  unfold doDeferredBindApg
  dsimp only
  (repeat' split) <;> simp
@[simp] theorem units_endApgBursts (s : State) (k status : Nat) : (s.endApgBursts k status).units = s.units := by
  unfold State.endApgBursts
  simp
@[simp] theorem units_doApgFailure (k : Nat) (s : State) : (doApgFailure k s).units = s.units := by
  unfold doApgFailure
  simp

/-! ### Chains -/

@[simp] theorem units_upPort (s : State) (n : Nat) (f : Port → Port) : (s.upPort n f).units = s.units := by
  unfold State.upPort
  simp
@[simp] theorem units_upChain (s : State) (k : Nat) (f : FChain → FChain) : (s.upChain k f).units = s.units := by
  unfold State.upChain
  simp
@[simp] theorem units_restartWin (s : State) (k : Nat) : (s.restartWin k).units = s.units := by
  unfold State.restartWin
  simp
@[simp] theorem units_doAdcAlign (n : Nat) (v : W64) (s : State) : (doAdcAlign n v s).units = s.units := by
  unfold doAdcAlign
  simp
@[simp] theorem units_doAdcAlignmentComplete (n m0 m1 t : Nat) (s0 : State) : (doAdcAlignmentComplete n m0 m1 t s0).units = s0.units := by
  unfold doAdcAlignmentComplete
  dsimp only
  (repeat' split) <;> simp
@[simp] theorem units_upAcq (s : State) (site : Nat) (f : Acq → Acq) : (s.upAcq site f).units = s.units := by
  unfold State.upAcq
  simp
@[simp] theorem units_growChain (s : State) (k t : Nat) : (s.growChain k t).units = s.units := by
  unfold State.growChain
  simp
@[simp] theorem units_loseBlock (s : State) (k site region : Nat) (written : Bool) : (s.loseBlock k site region written).units = s.units := by
  unfold State.loseBlock
  simp
@[simp] theorem units_closeBlock (s00 : State) (k t : Nat) : (s00.closeBlock k t).units = s00.units := by
  unfold State.closeBlock
  dsimp only
  split <;> simp
@[simp] theorem units_settleChains (s : State) (e t : Nat) : (s.settleChains e t).units = s.units := by
  unfold State.settleChains
  simp
@[simp] theorem units_resplit (s : State) (e : Nat) : (s.resplit e).units = s.units := by
  unfold State.resplit
  simp
@[simp] theorem units_reshare (s : State) (ks : List Nat) (t : Nat) (f : FChain → FChain) : (s.reshare ks t f).units = s.units := by
  unfold State.reshare
  simp
@[simp] theorem units_settleAcq (s : State) (site : Nat) : (s.settleAcq site).units = s.units := by
  unfold State.settleAcq
  dsimp only
  (repeat' split) <;> simp
@[simp] theorem units_addEntries (s0 : State) (k t : Nat) : (s0.addEntries k t).units = s0.units := by
  unfold State.addEntries
  dsimp only
  split <;> simp
@[simp] theorem units_stopAcq (s : State) (site st t : Nat) : (s.stopAcq site st t).units = s.units := by
  unfold State.stopAcq
  dsimp only
  split <;> simp
@[simp] theorem units_startAcq (s : State) (site t : Nat) : (s.startAcq site t).units = s.units := by
  unfold State.startAcq
  dsimp only
  split <;> simp
@[simp] theorem units_setupAcq (s : State) (q : AcqReq) (o : Owner) : (s.setupAcq q o).units = s.units := by
  unfold State.setupAcq
  simp
@[simp] theorem units_doAcquire (sq idx : Nat) (s : State) : (doAcquire sq idx s).units = s.units := by
  unfold doAcquire
  simp
@[simp] theorem units_doAcquisitionStart (site t : Nat) (s : State) : (doAcquisitionStart site t s).units = s.units := by
  unfold doAcquisitionStart
  split <;> simp
@[simp] theorem units_doAcquisitionStop (site t : Nat) (s : State) : (doAcquisitionStop site t s).units = s.units := by
  unfold doAcquisitionStop
  split <;> simp
@[simp] theorem units_doSampleBlockWrite (e : Nat) (ue : Bool) (s : State) : (doSampleBlockWrite e ue s).units = s.units := by
  unfold doSampleBlockWrite
  dsimp only
  (repeat' split) <;> simp
@[simp] theorem units_setDutpwr (s : State) (n : Nat) (on : Bool) : (s.setDutpwr n on).units = s.units := by
  unfold State.setDutpwr
  simp
@[simp] theorem units_trip (s : State) (k : Nat) : (s.trip k).units = s.units := by
  unfold State.trip
  simp
@[simp] theorem units_beginInterval (s : State) (k t : Nat) : (s.beginInterval k t).units = s.units := by
  unfold State.beginInterval
  simp
@[simp] theorem units_thresholds (s : State) (k t : Nat) : (s.thresholds k t).units = s.units := by
  unfold State.thresholds
  simp
@[simp] theorem units_framed (s : State) (n t : Nat) : (s.framed n t).units = s.units := by
  unfold State.framed
  simp
@[simp] theorem units_portFrame (s0 : State) (k code t : Nat) : (s0.portFrame k code t).units = s0.units := by
  unfold State.portFrame
  simp
@[simp] theorem units_doAdcSample (k code t : Nat) (s000 : State) : (doAdcSample k code t s000).units = s000.units := by
  unfold doAdcSample
  simp
@[simp] theorem units_doMmWindowEnd (k t : Nat) (s : State) : (doMmWindowEnd k t s).units = s.units := by
  unfold doMmWindowEnd
  simp
@[simp] theorem units_doFclkLoss (n t : Nat) (s0 : State) : (doFclkLoss n t s0).units = s0.units := by
  unfold doFclkLoss
  simp
@[simp] theorem units_doFclkReturn (n t : Nat) (s : State) : (doFclkReturn n t s).units = s.units := by
  unfold doFclkReturn
  simp
@[simp] theorem units_writeChainCtl (s : State) (k : Nat) (v : W64) : (s.writeChainCtl k v).units = s.units := by
  unfold State.writeChainCtl
  dsimp only
  split <;> simp
@[simp] theorem units_doChainPreset (k : Nat) (v : W64) (s : State) : (doChainPreset k v s).units = s.units := by
  unfold doChainPreset
  simp
@[simp] theorem units_doFchainEnable (k : Nat) (v : W64) (s : State) : (doFchainEnable k v s).units = s.units := by
  unfold doFchainEnable
  simp

/-! ### Bench -/

@[simp] theorem units_putTset (s : State) (n k : Nat) (bs : List Byte) : (s.putTset n k bs).units = s.units := by
  unfold State.putTset
  simp
@[simp] theorem units_delTset (s : State) (n k : Nat) : (s.delTset n k).units = s.units := by
  unfold State.delTset
  simp
@[simp] theorem units_doLoadTset (sq idx : Nat) (src : Option (List Byte)) (s : State) : (doLoadTset sq idx src s).units = s.units := by
  unfold doLoadTset
  dsimp only
  (repeat' split) <;> simp
@[simp] theorem units_doDeferredTsetLoad (sq idx : Nat) (s : State) : (doDeferredTsetLoad sq idx s).units = s.units := by
  unfold doDeferredTsetLoad
  split <;> simp
@[simp] theorem units_unloadTset (s : State) (sq idx n k : Nat) : (s.unloadTset sq idx n k).units = s.units := by
  unfold State.unloadTset
  simp
@[simp] theorem units_doUnloadTset (sq idx : Nat) (s : State) : (doUnloadTset sq idx s).units = s.units := by
  unfold doUnloadTset
  simp
@[simp] theorem units_doDeferredTsetUnload (sq idx : Nat) (s : State) : (doDeferredTsetUnload sq idx s).units = s.units := by
  unfold doDeferredTsetUnload
  split <;> simp
@[simp] theorem units_upDrift (s : State) (n : Nat) (f : Drift → Drift) : (s.upDrift n f).units = s.units := by
  unfold State.upDrift
  simp
@[simp] theorem units_acquireDrift (s : State) (n : Nat) : (s.acquireDrift n).units = s.units := by
  unfold State.acquireDrift
  simp
@[simp] theorem units_driftUpdate (s : State) (n : Nat) (gain offset : Int) (whole : Bool) :
    (s.driftUpdate n gain offset whole).units = s.units := by
  unfold State.driftUpdate
  simp
@[simp] theorem units_doDriftMeasurement (n : Nat) (gain offset : Int) (t : Nat) (s : State) :
    (doDriftMeasurement n gain offset t s).units = s.units := by
  unfold doDriftMeasurement
  simp
@[simp] theorem units_doDriftAcquireUpdate (n : Nat) (gain offset : Int) (t : Nat) (s0 : State) :
    (doDriftAcquireUpdate n gain offset t s0).units = s0.units := by
  unfold doDriftAcquireUpdate
  simp
@[simp] theorem units_acquireWhole (s : State) (n : Nat) : (s.acquireWhole n).units = s.units := by
  unfold State.acquireWhole
  simp
@[simp] theorem units_writeDriftCtl (s : State) (n : Nat) (v : W64) : (s.writeDriftCtl n v).units = s.units := by
  unfold State.writeDriftCtl
  simp
@[simp] theorem units_doDriftEnable (n : Nat) (v : W64) (s : State) : (doDriftEnable n v s).units = s.units := by
  unfold doDriftEnable
  simp
@[simp] theorem units_doDriftDisable (n : Nat) (v : W64) (s : State) : (doDriftDisable n v s).units = s.units := by
  unfold doDriftDisable
  simp
@[simp] theorem units_doResetTrim (n : Nat) (v : W64) (s : State) : (doResetTrim n v s).units = s.units := by
  unfold doResetTrim
  simp
@[simp] theorem units_doDeskewWrite (n c : Nat) (second : Bool) (v : W64) (s : State) : (doDeskewWrite n c second v s).units = s.units := by
  unfold doDeskewWrite
  simp
@[simp] theorem units_upPe (s : State) (n : Nat) (f : PePort → PePort) : (s.upPe n f).units = s.units := by
  unfold State.upPe
  simp
@[simp] theorem units_peQueue (s : State) (n : Nat) (i : PeItem) : (s.peQueue n i).units = s.units := by
  unfold State.peQueue
  simp
@[simp] theorem units_peIssued (s : State) (u : PeUser) : (s.peIssued u).units = s.units := by
  unfold State.peIssued
  (repeat' split) <;> simp
@[simp] theorem units_peRoom (s : State) (n : Nat) : (s.peRoom n).units = s.units := by
  unfold State.peRoom
  dsimp only
  split <;> simp
@[simp] theorem units_peCut (s : State) (n : Nat) (u : PeUser) (st : Nat) : (s.peCut n u st).1.units = s.units := by
  unfold State.peCut
  dsimp only
  (repeat' split) <;> simp
@[simp] theorem units_peOrphan (s : State) (n : Nat) (u : PeUser) (keep : Bool) : (s.peOrphan n u keep).units = s.units := by
  unfold State.peOrphan
  simp
@[simp] theorem units_doPeListStart (n : Nat) (s : State) : (doPeListStart n s).units = s.units := by
  unfold doPeListStart
  simp
@[simp] theorem units_peSend (s : State) (n : Nat) (fs : List (List Byte)) : (s.peSend n fs).units = s.units := by
  unfold State.peSend
  simp
@[simp] theorem units_upCalib (s : State) (sq idx : Nat) (f : Calib → Calib) : (s.upCalib sq idx f).units = s.units := by
  unfold State.upCalib
  simp
@[simp] theorem units_doCalibrate (sq idx : Nat) (s : State) : (doCalibrate sq idx s).units = s.units := by
  unfold doCalibrate
  simp
@[simp] theorem units_doCalibrationStart (sq idx : Nat) (s : State) : (doCalibrationStart sq idx s).units = s.units := by
  unfold doCalibrationStart
  dsimp only
  split <;> simp
@[simp] theorem units_upCalChan (s : State) (n c : Nat) (f : Chan → Chan) : (s.upCalChan n c f).units = s.units := by
  unfold State.upCalChan
  simp
@[simp] theorem units_calApply (s : State) (c : Calib) (m : CalMeas) : (s.calApply c m).units = s.units := by
  unfold State.calApply
  simp
@[simp] theorem units_dropCalib (s : State) (sq idx : Nat) : (s.dropCalib sq idx).units = s.units := by
  unfold State.dropCalib
  simp
@[simp] theorem units_calFinish (s : State) (c : Calib) : (s.calFinish c).units = s.units := by
  unfold State.calFinish
  simp
@[simp] theorem units_calRestore (s : State) (c : Calib) : (s.calRestore c).units = s.units := by
  unfold State.calRestore
  simp
@[simp] theorem units_doCalibrationComplete (sq idx : Nat) (meas : List CalMeas) (s : State) :
    (doCalibrationComplete sq idx meas s).units = s.units := by
  unfold doCalibrationComplete
  split <;> simp
@[simp] theorem units_calListDone (s : State) (sq idx st : Nat) (restore : Bool) : (s.calListDone sq idx st restore).units = s.units := by
  unfold State.calListDone
  dsimp only
  split <;> simp
@[simp] theorem units_peWaitsOrphan (s : State) (n : Nat) (u : PeUser) (drop : Bool) : (s.peWaitsOrphan n u drop).units = s.units := by
  unfold State.peWaitsOrphan
  simp
@[simp] theorem units_calStop (s : State) (c : Calib) (st : Nat) (h : CalStop) : (s.calStop c st h).units = s.units := by
  unfold State.calStop
  simp
@[simp] theorem units_calStopAll (s : State) (p : Calib → Bool) (st : Nat) (h : CalStop) : (s.calStopAll p st h).units = s.units := by
  unfold State.calStopAll
  simp

/-! ### Meters -/

@[simp] theorem units_upMeter (s : State) (k : Nat) (f : Meter → Meter) : (s.upMeter k f).units = s.units := by
  unfold State.upMeter
  simp
@[simp] theorem units_endMeas (s : State) (k status : Nat) (q : Option Int) (timeout ovf : Bool) (now : Nat) :
    (s.endMeas k status q timeout ovf now).units = s.units := by
  unfold State.endMeas
  simp
@[simp] theorem units_stopMeas (s : State) (k status : Nat) : (s.stopMeas k status).units = s.units := by
  unfold State.stopMeas
  simp
@[simp] theorem units_armMeter (s : State) (k t : Nat) : (s.armMeter k t).units = s.units := by
  unfold State.armMeter
  simp
@[simp] theorem units_setupMeas (s : State) (c : List Byte) (o : Owner) : (s.setupMeas c o).units = s.units := by
  unfold State.setupMeas
  simp
@[simp] theorem units_doMeasureInterval (sq idx : Nat) (s : State) : (doMeasureInterval sq idx s).units = s.units := by
  unfold doMeasureInterval
  simp
@[simp] theorem units_doMeterArm (n i t : Nat) (s : State) : (doMeterArm n i t s).units = s.units := by
  unfold doMeterArm
  simp
@[simp] theorem units_stopEdge (s : State) (k : Nat) (a e : MEdge) : (s.stopEdge k a e).units = s.units := by
  unfold State.stopEdge
  simp
@[simp] theorem units_signedPair (s : State) (k : Nat) : (s.signedPair k).units = s.units := by
  unfold State.signedPair
  dsimp only
  split <;> simp
@[simp] theorem units_takeEdge (s : State) (k : Nat) (stop : Bool) (e : MEdge) : (s.takeEdge k stop e).units = s.units := by
  unfold State.takeEdge
  dsimp only
  (repeat' split) <;> simp
@[simp] theorem units_edgeAt (s : State) (k : Nat) (stop : Bool) (e : MEdge) : (s.edgeAt k stop e).units = s.units := by
  unfold State.edgeAt
  simp
@[simp] theorem units_doMeterEdge (n i : Nat) (stop : Bool) (coarse phase : Nat) (s0 : State) :
    (doMeterEdge n i stop coarse phase s0).units = s0.units := by
  unfold doMeterEdge
  simp
@[simp] theorem units_markEdges (s : State) (g : Nat) (e : Ent) (t marks : Nat) : (s.markEdges g e t marks).units = s.units := by
  unfold State.markEdges
  simp
@[simp] theorem units_doMeterTimeout (n i t : Nat) (s : State) : (doMeterTimeout n i t s).units = s.units := by
  unfold doMeterTimeout
  simp
@[simp] theorem units_doMeterOverflow (n i t : Nat) (s : State) : (doMeterOverflow n i t s).units = s.units := by
  unfold doMeterOverflow
  simp
@[simp] theorem units_doImeterAbort (n i : Nat) (v : W64) (s : State) : (doImeterAbort n i v s).units = s.units := by
  unfold doImeterAbort
  simp
@[simp] theorem units_retireMeter (s : State) (k : Nat) : (s.retireMeter k).units = s.units := by
  unfold State.retireMeter
  simp
@[simp] theorem units_doImeterFailure (n i : Nat) (s : State) : (doImeterFailure n i s).units = s.units := by
  unfold doImeterFailure
  simp

/-! ### Triggers -/

@[simp] theorem units_upTrig (s : State) (k : Nat) (f : Trig → Trig) : (s.upTrig k f).units = s.units := by
  unfold State.upTrig
  simp
@[simp] theorem units_armTrig (s : State) (k t : Nat) : (s.armTrig k t).units = s.units := by
  unfold State.armTrig
  simp
@[simp] theorem units_doTrigArm (n u : Nat) (v : W64) (s : State) : (doTrigArm n u v s).units = s.units := by
  unfold doTrigArm
  simp
@[simp] theorem units_trigPhase (s : State) (k a1 : Nat) : (s.trigPhase k a1).units = s.units := by
  unfold State.trigPhase
  simp
@[simp] theorem units_trigStamp (s : State) (k t t0 : Nat) (rec : List Byte) : (s.trigStamp k t t0 rec).units = s.units := by
  unfold State.trigStamp
  simp
@[simp] theorem units_lateRecord (s : State) (k : Nat) : (s.lateRecord k).units = s.units := by
  unfold State.lateRecord
  dsimp only
  split <;> simp
@[simp] theorem units_doTriggerEventArrival (n u src stamp arrive : Nat) (s00 : State) :
    (doTriggerEventArrival n u src stamp arrive s00).units = s00.units := by
  unfold doTriggerEventArrival
  dsimp only
  (repeat' split) <;> simp
@[simp] theorem units_pulseOut (s : State) (j : Nat) : (s.pulseOut j).units = s.units := by
  unfold State.pulseOut
  simp
@[simp] theorem units_publish (s : State) (k t0 : Nat) : (s.publish k t0).units = s.units := by
  unfold State.publish
  simp
@[simp] theorem units_doTriggerDecision (n u t : Nat) (s00 : State) : (doTriggerDecision n u t s00).units = s00.units := by
  unfold doTriggerDecision
  dsimp only
  split <;> simp
@[simp] theorem units_doTriggerRearm (n u t : Nat) (s : State) : (doTriggerRearm n u t s).units = s.units := by
  unfold doTriggerRearm
  dsimp only
  split <;> simp
@[simp] theorem units_doTrigOutPulseEnd (j t : Nat) (s : State) : (doTrigOutPulseEnd j t s).units = s.units := by
  unfold doTrigOutPulseEnd
  dsimp only
  split <;> simp

/-! ### Starts -/

@[simp] theorem units_resetResult (s : State) (x : Site) (b : Burst) : (s.resetResult x b).units = s.units := by
  unfold State.resetResult
  simp
@[simp] theorem units_restoreResult (s : State) (x : Site) (b : Burst) (k : Ckpt) : (s.restoreResult x b k).units = s.units := by
  unfold State.restoreResult
  simp
@[simp] theorem units_restoreSlice (s : State) (g : Nat) (c : Cx) (k : Ckpt) (t : Nat) : (s.restoreSlice g c k t).units = s.units := by
  unfold State.restoreSlice
  simp
@[simp] theorem units_startRegions (s : State) (x : Site) (b : Burst) : (s.startRegions x b).units = s.units := by
  unfold State.startRegions
  dsimp only
  (repeat' split) <;> simp
@[simp] theorem units_startSlice (s : State) (g t : Nat) : (s.startSlice g t).units = s.units := by
  unfold State.startSlice
  dsimp only
  (repeat' split) <;> simp
@[simp] theorem units_armBurst (s : State) (e : Ent) (t : Nat) : (s.armBurst e t).units = s.units := by
  unfold State.armBurst
  simp
@[simp] theorem units_freezeChains (s : State) (e : Ent) (on : Bool) : (s.freezeChains e on).units = s.units := by
  unfold State.freezeChains
  simp
@[simp] theorem units_startBurst (s : State) (e : Ent) (t : Nat) : (s.startBurst e t).units = s.units := by
  unfold State.startBurst
  dsimp only
  (repeat' split) <;> simp
@[simp] theorem units_setStart (s : State) (e : Ent) : (s.setStart e).units = s.units := by
  unfold State.setStart
  dsimp only
  (repeat' split) <;> simp
@[simp] theorem units_noteReady (s : State) (e : Ent) (pos : Nat) : (s.noteReady e pos).units = s.units := by
  unfold State.noteReady
  dsimp only
  split <;> simp
@[simp] theorem units_doBurstStart (isGroup : Bool) (id t : Nat) (s0 : State) : (doBurstStart isGroup id t s0).units = s0.units := by
  unfold doBurstStart
  dsimp only
  (repeat' split) <;> simp
@[simp] theorem units_doVectorStart (n sl : Nat) (smp : List Sample) (s00 : State) : (doVectorStart n sl smp s00).units = s00.units := by
  unfold doVectorStart
  dsimp only
  (repeat' split) <;> simp

/-! ### EndBurst -/

@[simp] theorem units_endWithBurst (s : State) (e : Ent) (started : Bool) : (s.endWithBurst e started).units = s.units := by
  unfold State.endWithBurst
  extract_lets s1
  have h1 : s1.units = s.units := by
    refine units_foldl (fun a x => ?_) _ _
    split <;> simp
  simp [h1]

@[simp] theorem units_endSlice (s : State) (g st : Nat) (x : BEnd) : (s.endSlice g st x).units = s.units := by
  unfold State.endSlice
  simp

@[simp] theorem units_endSites (s : State) (b : Burst) (st : Nat) (x : BEnd) : (s.endSites b st x).units = s.units := by
  refine units_foldl (fun a y => ?_) _ _
  extract_lets s1 s2 s3
  have h2 : s2.units = a.units := by unfold s2 s1; split <;> simp
  have h3 : s3.units = a.units := by unfold s3; split <;> simp [h2]
  simp [h3]

@[simp] theorem units_blockLate (s : State) (b : Burst) : (s.blockLate b).units = s.units := by
  unfold State.blockLate
  simp
@[simp] theorem units_finishBurst (s0 : State) (b0 : Burst) (x : BEnd) : (s0.finishBurst b0 x).units = s0.units := by
  unfold State.finishBurst
  dsimp only
  (repeat' split) <;> simp
@[simp] theorem units_dropBurst (s : State) (e : Ent) (status reason : Nat) : (s.dropBurst e status reason).units = s.units := by
  unfold State.dropBurst
  split <;> simp
@[simp] theorem units_stopBurst (s : State) (e : Ent) (status : Nat) : (s.stopBurst e status).units = s.units := by
  unfold State.stopBurst
  split <;> simp
@[simp] theorem units_noStartQual (s : State) (e : Ent) : (s.noStartQual e).units = s.units := by
  unfold State.noStartQual
  simp
@[simp] theorem units_doBurstComplete (isGroup : Bool) (id : Nat) (s : State) : (doBurstComplete isGroup id s).units = s.units := by
  unfold doBurstComplete
  dsimp only
  split <;> simp
@[simp] theorem units_needRing (s : State) (e : Ent) : (s.needRing e).units = s.units := by
  unfold State.needRing
  simp
@[simp] theorem units_submitX (s : State) (q : Submit) : (s.submitX q).1.units = s.units := by
  unfold State.submitX; dsimp only; (repeat' split) <;> simp

theorem units_of_submitX {s : State} {q : Submit} {p : State × Option Result} (h : s.submitX q = p) : p.1.units = s.units :=
  h ▸ units_submitX s q
@[simp] theorem units_doRunBurst (sq idx : Nat) (s : State) : (doRunBurst sq idx s).units = s.units := by
  unfold doRunBurst
  refine units_withDesc fun d => ?_
  dsimp only
  (repeat' split) <;> simp
@[simp] theorem units_doAdmWaitExpiry (isGroup : Bool) (id t : Nat) (s : State) : (doAdmWaitExpiry isGroup id t s).units = s.units := by
  unfold doAdmWaitExpiry
  split <;> simp
@[simp] theorem units_doAgeLimitExpiry (isGroup : Bool) (id t : Nat) (s : State) : (doAgeLimitExpiry isGroup id t s).units = s.units := by
  unfold doAgeLimitExpiry
  split <;> simp
@[simp] theorem units_doXholdExpiry (isGroup : Bool) (id t : Nat) (s : State) : (doXholdExpiry isGroup id t s).units = s.units := by
  unfold doXholdExpiry
  dsimp only
  split <;> simp
@[simp] theorem units_cancelRetry (s : State) (tid k : Nat) : (s.cancelRetry tid k).units = s.units := by
  unfold State.cancelRetry
  dsimp only
  split <;> simp
@[simp] theorem units_retryBurst (s : State) (tid : Nat) (t : Task) (o : OpSlot) : (s.retryBurst tid t o).units = s.units := by
  unfold State.retryBurst
  dsimp only
  split <;> simp
@[simp] theorem units_doUnloadPattern (sq idx : Nat) (s : State) : (doUnloadPattern sq idx s).units = s.units := by
  unfold doUnloadPattern
  refine units_withDesc fun d => ?_
  dsimp only
  (repeat' split) <;> simp
@[simp] theorem units_doDeferredUnload (sq idx : Nat) (s : State) : (doDeferredUnload sq idx s).units = s.units := by
  unfold doDeferredUnload
  split <;> simp

/-! ### Pe -/

@[simp] theorem units_upPeOp (s : State) (tid : Nat) (f : PeOp → PeOp) : (s.upPeOp tid f).units = s.units := by
  unfold State.upPeOp
  simp
@[simp] theorem units_startSetPe (s : State) (tid : Nat) (t : Task) (st : List Byte) : (s.startSetPe tid t st).units = s.units := by
  unfold State.startSetPe
  simp
@[simp] theorem units_settlePe (s : State) (tid : Nat) : (s.settlePe tid).units = s.units := by
  unfold State.settlePe
  dsimp only
  split <;> simp

@[simp] theorem units_cutSetPe (s : State) (tid st : Nat) : (s.cutSetPe tid st).units = s.units := by
  unfold State.cutSetPe
  split
  · rfl
  · extract_lets p s0 r s1
    have hr : r.1.units = s.units := by
      refine (foldl_keep (fun a : State × List Nat => a.1.units) _ (fun a n => ?_) _ _).trans (by simp [s0, p])
      exact units_peCut ..
    simp [s1, hr]

@[simp] theorem units_upPower (s : State) (tid : Nat) (f : PowerSeq → PowerSeq) : (s.upPower tid f).units = s.units := by
  unfold State.upPower
  simp
@[simp] theorem units_endPower (s : State) (tid st : Nat) : (s.endPower tid st).units = s.units := by
  unfold State.endPower
  dsimp only
  split <;> simp
@[simp] theorem units_powerList (s : State) (tid : Nat) (p : PowerSeq) (phase : Nat) : (s.powerList tid p phase).units = s.units := by
  unfold State.powerList
  simp
@[simp] theorem units_powerSwitch (s : State) (tid : Nat) (p : PowerSeq) : (s.powerSwitch tid p).units = s.units := by
  unfold State.powerSwitch
  simp
@[simp] theorem units_startPower (s : State) (tid : Nat) (t : Task) (st : List Byte) : (s.startPower tid t st).units = s.units := by
  unfold State.startPower
  simp
@[simp] theorem units_powerSettled (s : State) (tid : Nat) (p : PowerSeq) : (s.powerSettled tid p).units = s.units := by
  unfold State.powerSettled
  simp
@[simp] theorem units_doPowerDutSettleEnd (tid t : Nat) (s : State) : (doPowerDutSettleEnd tid t s).units = s.units := by
  unfold doPowerDutSettleEnd
  split <;> simp
@[simp] theorem units_powerListDone (s : State) (tid n st : Nat) : (s.powerListDone tid n st).units = s.units := by
  unfold State.powerListDone
  dsimp only
  split <;> simp
@[simp] theorem units_cutPower (s : State) (tid st : Nat) : (s.cutPower tid st).units = s.units := by
  unfold State.cutPower
  simp
@[simp] theorem units_doPeListDone (n : Nat) (bits : List Nat) (s : State) : (doPeListDone n bits s).units = s.units := by
  unfold doPeListDone
  dsimp only
  (repeat' split) <;> simp

@[simp] theorem units_pePortFail (s : State) (n st : Nat) : (s.pePortFail n st).units = s.units := by
  unfold State.pePortFail
  extract_lets users s1
  refine (units_foldl (fun a u => ?_) _ _).trans (units_upPe s n _)
  split
  · simp
  · extract_lets s2
    have h2 : s2.units = a.units := by unfold s2; split <;> simp
    simp [h2]
  · rfl

@[simp] theorem units_peUe (s : State) (n k : Nat) : (s.peUe n k).units = s.units := by
  unfold State.peUe
  simp

/-! ### Flow -/

@[simp] theorem units_abortSlot (s : State) (tid k : Nat) : (s.abortSlot tid k).units = s.units := by
  unfold State.abortSlot
  dsimp only
  (repeat' split) <;> simp
@[simp] theorem units_leaveSlot (s : State) (tid : Nat) (t : Task) : (s.leaveSlot tid t).units = s.units := by
  unfold State.leaveSlot
  simp
@[simp] theorem units_endTask (s : State) (tid st qual exit : Nat) : (s.endTask tid st qual exit).units = s.units := by
  unfold State.endTask
  dsimp only
  split <;> simp
@[simp] theorem units_leaveCore {s : State} {tid : Nat} {f : State → State} (h : (f s).units = s.units) :
    (s.leaveCore tid f).units = s.units := by
  unfold State.leaveCore; split <;> simp [h]
@[simp] theorem units_yieldTask (s0 : State) (tid i : Nat) : (s0.yieldTask tid i).units = s0.units := by
  unfold State.yieldTask
  simp
@[simp] theorem units_unslot (s : State) (tid : Nat) : (s.unslot tid).units = s.units := by
  unfold State.unslot
  simp
@[simp] theorem units_evict (s : State) (i : Nat) : (s.evict i).units = s.units := by
  unfold State.evict
  dsimp only
  (repeat' split) <;> simp
@[simp] theorem units_settleWarden (s : State) : s.settleWarden.units = s.units := by
  unfold State.settleWarden
  simp
@[simp] theorem units_stepEnd (s : State) (tid : Nat) (st : List Byte) (status : Nat) (bs : List Byte) (go : Option (Nat × Nat)) (yields : Bool) :
    (s.stepEnd tid st status bs go yields).units = s.units := by
  unfold State.stepEnd
  dsimp only
  (repeat' split) <;> simp
@[simp] theorem units_stepDone (s : State) (tid : Nat) (t : Task) (st : List Byte) (r : Result) (go : Option (Nat × Nat)) (yields : Bool) :
    (s.stepDone tid t st r go yields).units = s.units := by
  unfold State.stepDone
  simp
@[simp] theorem units_stepWait (s : State) (tid mask : Nat) (all : Bool) (kind wakeT : Nat) :
    (s.stepWait tid mask all kind wakeT).units = s.units := by
  unfold State.stepWait
  dsimp only
  (repeat' split) <;> simp
@[simp] theorem units_flowCmd {op tid : Nat} {f : Task → List Byte → State} {s : State} (h : ∀ t st, (f t st).units = s.units) :
    (flowCmd op tid f s).units = s.units := by
  unfold flowCmd; (repeat' split) <;> simp [h]

@[simp] theorem units_opStart (s : State) (tid : Nat) (t : Task) (st : List Byte) : (s.opStart tid t st).1.units = s.units := by
  unfold State.opStart
  dsimp only
  split
  · split
    next h => simpa using units_of_submitX h
    next h => simpa using units_of_submitX h
  all_goals (repeat' split) <;> simp

theorem units_of_opStart {s : State} {tid : Nat} {t : Task} {st : List Byte} {p : State × Option Result}
    (h : s.opStart tid t st = p) : p.1.units = s.units := h ▸ units_opStart s tid t st

@[simp] theorem units_opFinish (s : State) (tid k : Nat) (st : List Byte) : (s.opFinish tid k st).units = s.units := by
  unfold State.opFinish
  simp

@[simp] theorem units_opStep (s : State) (tid : Nat) (t : Task) (st : List Byte) : (s.opStep tid t st).units = s.units := by
  unfold State.opStep
  extract_lets k wait s0 s1
  have h1 : s1.units = s.units := by simp [s1]
  split
  · split <;> simp
  · split
    · simp
    · split
      next s2 r h =>
        have h2 : s2.units = s.units := (units_of_opStart h).trans h1
        simp [h2]
      next s2 h =>
        have h2 : s2.units = s.units := (units_of_opStart h).trans h1
        simp [h2]

@[simp] theorem units_opCmd (op tid : Nat) (s : State) : (opCmd op tid s).units = s.units := by
  unfold opCmd
  simp
@[simp] theorem units_doRunBurstStep (tid : Nat) (s : State) : (doRunBurstStep tid s).units = s.units := by
  unfold doRunBurstStep
  simp
@[simp] theorem units_doMeasureIntervalStep (tid : Nat) (s : State) : (doMeasureIntervalStep tid s).units = s.units := by
  unfold doMeasureIntervalStep
  simp
@[simp] theorem units_doAcquireStep (tid : Nat) (s : State) : (doAcquireStep tid s).units = s.units := by
  unfold doAcquireStep
  simp
@[simp] theorem units_doSetPe (tid : Nat) (s : State) : (doSetPe tid s).units = s.units := by
  unfold doSetPe
  simp
@[simp] theorem units_doPowerDut (tid : Nat) (s : State) : (doPowerDut tid s).units = s.units := by
  unfold doPowerDut
  simp

@[simp] theorem units_reissue (s : State) (tid k : Nat) : (s.reissue tid k).units = s.units := by
  unfold State.reissue
  split
  · rfl
  · extract_lets s1 o
    have h1 : s1.units = s.units := by simp [s1]
    split
    · simp [h1]
    · split
      next h => simp [units_of_opStart h, h1]
      next h => exact (units_of_opStart h).trans h1

@[simp] theorem units_doRetryGapExpiry (tid t : Nat) (s : State) : (doRetryGapExpiry tid t s).units = s.units := by
  unfold doRetryGapExpiry
  dsimp only
  split <;> simp
@[simp] theorem units_doAbortOpStep (tid : Nat) (s : State) : (doAbortOpStep tid s).units = s.units := by
  unfold doAbortOpStep
  simp
@[simp] theorem units_waitDone (s : State) (tid : Nat) (t : Task) (st : List Byte) (flags : Nat) (timeout : Bool) :
    (s.waitDone tid t st flags timeout).units = s.units := by
  unfold State.waitDone
  simp
@[simp] theorem units_doWaitEvent (tid : Nat) (s : State) : (doWaitEvent tid s).units = s.units := by
  unfold doWaitEvent
  simp
@[simp] theorem units_doClearFlags (tid : Nat) (s : State) : (doClearFlags tid s).units = s.units := by
  unfold doClearFlags
  simp
@[simp] theorem units_doFlowDelay (tid : Nat) (s : State) : (doFlowDelay tid s).units = s.units := by
  unfold doFlowDelay
  simp
@[simp] theorem units_doBranchOn (tid : Nat) (s : State) : (doBranchOn tid s).units = s.units := by
  unfold doBranchOn
  refine units_flowCmd fun t st => ?_
  dsimp only
  (repeat' split) <;> simp
@[simp] theorem units_doFlowJump (tid : Nat) (s : State) : (doFlowJump tid s).units = s.units := by
  unfold doFlowJump
  simp
@[simp] theorem units_doFlowAlu (tid : Nat) (s : State) : (doFlowAlu tid s).units = s.units := by
  unfold doFlowAlu
  refine units_flowCmd fun t st => ?_
  dsimp only
  (repeat' split) <;> simp
@[simp] theorem units_doFlowRetry (tid : Nat) (s : State) : (doFlowRetry tid s).units = s.units := by
  unfold doFlowRetry
  simp
@[simp] theorem units_doCallFlow (tid : Nat) (s : State) : (doCallFlow tid s).units = s.units := by
  unfold doCallFlow
  refine units_flowCmd fun t st => ?_
  dsimp only
  (repeat' split) <;> simp
@[simp] theorem units_doFlowReturn (tid : Nat) (s : State) : (doFlowReturn tid s).units = s.units := by
  unfold doFlowReturn
  refine units_flowCmd fun t st => ?_
  (repeat' split) <;> simp
@[simp] theorem units_doFlowEnd (tid : Nat) (s : State) : (doFlowEnd tid s).units = s.units := by
  unfold doFlowEnd
  refine units_flowCmd fun t st => ?_
  dsimp only
  (repeat' split) <;> simp
@[simp] theorem units_doFlowSignal (tid : Nat) (s : State) : (doFlowSignal tid s).units = s.units := by
  unfold doFlowSignal
  simp
@[simp] theorem units_lostLock (s : State) (tid : Nat) (t : Task) (st : List Byte) (k : Nat) : (s.lostLock tid t st k).units = s.units := by
  unfold State.lostLock
  simp
@[simp] theorem units_lockDone (s : State) (tid : Nat) (t : Task) (st : List Byte) (k : Nat) (timeout ab : Bool) :
    (s.lockDone tid t st k timeout ab).units = s.units := by
  unfold State.lockDone
  simp
@[simp] theorem units_doLockStep (tid : Nat) (s : State) : (doLockStep tid s).units = s.units := by
  unfold doLockStep
  refine units_flowCmd fun t st => ?_
  dsimp only
  (repeat' split) <;> simp
@[simp] theorem units_doUnlockStep (tid : Nat) (s : State) : (doUnlockStep tid s).units = s.units := by
  unfold doUnlockStep
  simp
@[simp] theorem units_doLogStep (tid : Nat) (s : State) : (doLogStep tid s).units = s.units := by
  unfold doLogStep
  refine units_flowCmd fun t st => ?_
  dsimp only
  (repeat' split) <;> simp
@[simp] theorem units_writeMask (s : State) (g v : Nat) : (s.writeMask g v).units = s.units := by
  unfold State.writeMask
  dsimp only
  split <;> simp
@[simp] theorem units_doSetMask (tid : Nat) (s : State) : (doSetMask tid s).units = s.units := by
  unfold doSetMask
  simp
@[simp] theorem units_doArmTrigger (tid : Nat) (s : State) : (doArmTrigger tid s).units = s.units := by
  unfold doArmTrigger
  simp
@[simp] theorem units_doSetPrio (tid : Nat) (s : State) : (doSetPrio tid s).units = s.units := by
  unfold doSetPrio
  simp
@[simp] theorem units_doYield (tid : Nat) (s : State) : (doYield tid s).units = s.units := by
  unfold doYield
  simp
@[simp] theorem units_doNopStep (tid : Nat) (s : State) : (doNopStep tid s).units = s.units := by
  unfold doNopStep
  simp

/-! ### Wake -/

@[simp] theorem units_timerFires (s : State) (tid : Nat) : (s.timerFires tid).units = s.units := by
  unfold State.timerFires
  split <;> simp
@[simp] theorem units_lateTimers (s : State) : s.lateTimers.units = s.units := by
  unfold State.lateTimers
  simp

@[simp] theorem units_leaveLull (s : State) : s.leaveLull.units = s.units := by
  unfold State.leaveLull
  split
  · rfl
  · extract_lets s0 ms c h p s1 s2 s3 s4
    have h1 : s1.units = s.units := by simp [s1, ms, s0, h, State.units, unitsOf]
    have h4 : s4.units = s.units := by simp [s4, s3, s2, h1]
    simp [h4]

@[simp] theorem units_wakeChip (s : State) (src : Nat) : (s.wakeChip src).units = s.units := by
  unfold State.wakeChip
  simp

/-! ### TaskCtl -/

@[simp] theorem units_doContextFetchDone (i : Nat) (s : State) : (doContextFetchDone i s).units = s.units := by
  unfold doContextFetchDone
  simp
@[simp] theorem units_doQuantumExpiry (tid : Nat) (s : State) : (doQuantumExpiry tid s).units = s.units := by
  unfold doQuantumExpiry
  split <;> simp
@[simp] theorem units_doTaskTimerExpiry (tid t : Nat) (s : State) : (doTaskTimerExpiry tid t s).units = s.units := by
  unfold doTaskTimerExpiry
  split <;> simp
@[simp] theorem units_doPaddockWardenWrite (v : W64) (s : State) : (doPaddockWardenWrite v s).units = s.units := by
  unfold doPaddockWardenWrite
  simp
@[simp] theorem units_failRun (s : State) (tid st : Nat) (inStep : Bool) : (s.failRun tid st inStep).units = s.units := by
  unfold State.failRun
  dsimp only
  (repeat' split) <;> simp
@[simp] theorem units_vacate (s : State) (i st : Nat) : (s.vacate i st).1.units = s.units := by
  unfold State.vacate
  dsimp only
  (repeat' split) <;> simp
@[simp] theorem units_retireSlot (s : State) (i : Nat) : (s.retireSlot i).units = s.units := by
  unfold State.retireSlot
  dsimp only
  split <;> simp

@[simp] theorem units_coreFails (s : State) (core : Nat) : (s.coreFails core).units = s.units := by
  unfold State.coreFails
  split
  · rfl
  · extract_lets p s0 less
    have h0 : s0.units = s.units := by simp [s0, p]
    have hless (u : State) : (less u).units = u.units := by simp [less]
    split
    · simp [hless, h0]
    · split
      next i _ _ s1 run buf h =>
        have h1 : s1.units = s.units := by
          have hv := units_vacate (s0.upFslot i (fun f => { f with settling := true })) i St.hwFault
          rw [h] at hv
          simpa [h0] using hv
        extract_lets spare s2 s3
        have h2 : s2.units = s.units := by
          unfold s2; clear_value spare; split <;> simp [hless, h1]
        exact (units_settleWarden _).trans ((units_foldl (fun a t => units_replace a t) _ _).trans (by simp [s3, h2]))

@[simp] theorem units_doFlowCoreFailure (core : Nat) (s : State) : (doFlowCoreFailure core s).units = s.units := by
  unfold doFlowCoreFailure
  simp
@[simp] theorem units_doSpareCoreReady (i : Nat) (s : State) : (doSpareCoreReady i s).units = s.units := by
  unfold doSpareCoreReady
  simp
@[simp] theorem units_doStartFlow (sq idx : Nat) (s : State) : (doStartFlow sq idx s).units = s.units := by
  unfold doStartFlow
  refine units_withDesc fun d => ?_
  dsimp only
  (repeat' split) <;> simp
@[simp] theorem units_doAbortTask (sq idx : Nat) (s : State) : (doAbortTask sq idx s).units = s.units := by
  unfold doAbortTask
  refine units_withDesc fun d => ?_
  dsimp only
  (repeat' split) <;> simp
@[simp] theorem units_doSignalTask (sq idx : Nat) (s : State) : (doSignalTask sq idx s).units = s.units := by
  unfold doSignalTask
  simp
@[simp] theorem units_doReadTask (sq idx : Nat) (s : State) : (doReadTask sq idx s).units = s.units := by
  unfold doReadTask
  refine units_withDesc fun d => ?_
  dsimp only
  (repeat' split) <;> simp
@[simp] theorem units_doLockDesc (sq idx : Nat) (s : State) : (doLockDesc sq idx s).units = s.units := by
  unfold doLockDesc
  simp
@[simp] theorem units_doLockTimeout (sq idx t : Nat) (s : State) : (doLockTimeout sq idx t s).units = s.units := by
  unfold doLockTimeout
  dsimp only
  split <;> simp
@[simp] theorem units_doUnlockDesc (sq idx : Nat) (s : State) : (doUnlockDesc sq idx s).units = s.units := by
  unfold doUnlockDesc
  simp
@[simp] theorem units_doUnloadFlow (sq idx : Nat) (s : State) : (doUnloadFlow sq idx s).units = s.units := by
  unfold doUnloadFlow
  simp
@[simp] theorem units_doUnloadPeList (sq idx : Nat) (s : State) : (doUnloadPeList sq idx s).units = s.units := by
  unfold doUnloadPeList
  simp
@[simp] theorem units_doDeferredPeListUnload (sq idx : Nat) (s : State) : (doDeferredPeListUnload sq idx s).units = s.units := by
  unfold doDeferredPeListUnload
  split <;> simp
@[simp] theorem units_abortEnt (s : State) (e : Ent) (k : Nat) : (s.abortEnt e k).units = s.units := by
  unfold State.abortEnt
  dsimp only
  split <;> simp
@[simp] theorem units_doAbortOp (sq idx : Nat) (s : State) : (doAbortOp sq idx s).units = s.units := by
  unfold doAbortOp
  simp
@[simp] theorem units_doDeclareSite (sq idx : Nat) (s : State) : (doDeclareSite sq idx s).units = s.units := by
  unfold doDeclareSite
  simp

@[simp] theorem units_endSiteWork (s : State) (x : Site) : (s.endSiteWork x).units = s.units := by
  unfold State.endSiteWork
  extract_lets s1 s2 s3
  have h1 : s1.units = s.units := by
    refine units_foldl (fun a t => ?_) _ _
    split
    · split <;> simp
    · rfl
  simp [s3, s2, h1]

@[simp] theorem units_freeSite (s : State) (x : Site) : (s.freeSite x).units = s.units := by
  unfold State.freeSite
  dsimp only
  split <;> simp
@[simp] theorem units_undeclTurn (s : State) (d : Desc) : (s.undeclTurn d).units = s.units := by
  unfold State.undeclTurn
  dsimp only
  split <;> simp
@[simp] theorem units_doUndeclareSite (sq idx : Nat) (s : State) : (doUndeclareSite sq idx s).units = s.units := by
  unfold doUndeclareSite
  simp
@[simp] theorem units_declWaited (group : Bool) (sq idx : Nat) (s : State) : (declWaited group sq idx s).units = s.units := by
  unfold declWaited
  dsimp only
  split <;> simp
@[simp] theorem units_doDeferredDeclaration (sq idx : Nat) (s : State) : (doDeferredDeclaration sq idx s).units = s.units := by
  unfold doDeferredDeclaration
  simp
@[simp] theorem units_doDeferredUndeclaration (sq idx : Nat) (s : State) : (doDeferredUndeclaration sq idx s).units = s.units := by
  unfold doDeferredUndeclaration
  simp
@[simp] theorem units_doSiteMaskWrite (n : Nat) (v : W64) (s : State) : (doSiteMaskWrite n v s).units = s.units := by
  unfold doSiteMaskWrite
  simp

/-! ### Memory -/

@[simp] theorem units_arrive (s : State) (m : Nat) (r : ArbReq) : (s.arrive m r).units = s.units := by
  unfold State.arrive
  simp
@[simp] theorem units_arbRefresh (s : State) (m : Nat) : (s.arbRefresh m).units = s.units := by
  unfold State.arbRefresh
  split <;> simp
@[simp] theorem units_arbCount (s : State) (m win : Nat) : (s.arbCount m win).units = s.units := by
  unfold State.arbCount
  simp
@[simp] theorem units_grantTo (s : State) (m : Nat) (r : ArbReq) (forced : Bool) (ref : Option (Nat × Bool)) :
    (s.grantTo m r forced ref).units = s.units := by
  unfold State.grantTo
  simp
@[simp] theorem units_arriveAll (s : State) (m : Nat) (reqs : List ArbReq) : (s.arriveAll m reqs).units = s.units := by
  unfold State.arriveAll
  simp
@[simp] theorem units_doArbiterDecision (m : Nat) (reqs : List ArbReq) (t : Nat) (s0 : State) :
    (doArbiterDecision m reqs t s0).units = s0.units := by
  unfold doArbiterDecision
  dsimp only
  (repeat' split) <;> simp
@[simp] theorem units_doArbPrioWrite (m : Nat) (limit : Bool) (v : W64) (s : State) : (doArbPrioWrite m limit v s).units = s.units := by
  unfold doArbPrioWrite
  simp
@[simp] theorem units_doCeilPctWrite (v : W64) (s : State) : (doCeilPctWrite v s).units = s.units := by
  unfold doCeilPctWrite
  simp
@[simp] theorem units_doRefreshOwedTick (m : Nat) (s : State) : (doRefreshOwedTick m s).units = s.units := by
  unfold doRefreshOwedTick
  simp
@[simp] theorem units_doMr4Poll (m rate t : Nat) (s0 : State) : (doMr4Poll m rate t s0).units = s0.units := by
  unfold doMr4Poll
  dsimp only
  (repeat' split) <;> simp
@[simp] theorem units_doWck2dqOscillator (m : Nat) (s : State) : (doWck2dqOscillator m s).units = s.units := by
  unfold doWck2dqOscillator
  simp
@[simp] theorem units_doBackgroundZqCalibration (m : Nat) (s : State) : (doBackgroundZqCalibration m s).units = s.units := by
  unfold doBackgroundZqCalibration
  simp
@[simp] theorem units_doScrubRead (m : Nat) (s : State) : (doScrubRead m s).units = s.units := by
  unfold doScrubRead
  simp
@[simp] theorem units_readUe (s : State) (r : ReadRet) : (s.readUe r).units = s.units := by
  unfold State.readUe
  (repeat' split) <;> simp

@[simp] theorem units_doReadDataReturn (m : Nat) (r : ReadRet) (s0 : State) : (doReadDataReturn m r s0).units = s0.units := by
  unfold doReadDataReturn
  split
  · rfl
  · extract_lets s scrub access d
    have hs : s.units = s0.units := by simp [s]
    split
    · simp [hs]
    · split
      next h => simp [units_of_useInjection h, hs]
      next h => simp [units_of_useInjection h, hs]
      · split <;> simp [hs]

@[simp] theorem units_starve (s : State) (m : Nat) : (s.starve m).units = s.units := by
  unfold State.starve
  simp
@[simp] theorem units_copyRow (s : State) (m : Nat) (br : Nat × Nat) : (s.copyRow m br).units = s.units := by
  unfold State.copyRow
  simp
@[simp] theorem units_startRepair (s : State) (m : Nat) : (s.startRepair m).units = s.units := by
  unfold State.startRepair
  split <;> simp
@[simp] theorem units_fenceBank (s : State) (m b : Nat) : (s.fenceBank m b).units = s.units := by
  unfold State.fenceBank
  simp
@[simp] theorem units_doPprRun (m : Nat) (v : W64) (s : State) : (doPprRun m v s).units = s.units := by
  unfold doPprRun
  simp
@[simp] theorem units_doPprAutoStart (m t : Nat) (s : State) : (doPprAutoStart m t s).units = s.units := by
  unfold doPprAutoStart
  simp
@[simp] theorem units_chanBack (s : State) : s.chanBack.units = s.units := by
  unfold State.chanBack
  simp
@[simp] theorem units_doPprComplete (m t : Nat) (s : State) : (doPprComplete m t s).units = s.units := by
  unfold doPprComplete
  dsimp only
  split <;> simp
@[simp] theorem units_doMemoryChannelFailure (m : Nat) (s : State) : (doMemoryChannelFailure m s).units = s.units := by
  unfold doMemoryChannelFailure
  simp

/-! ### PairOps -/

@[simp] theorem units_flagAll (s : State) (m : Nat) : (s.flagAll m).units = s.units := by
  unfold State.flagAll
  simp
@[simp] theorem units_pairTo (s : State) (st sub : Nat) : (s.pairTo st sub).units = s.units := by
  unfold State.pairTo
  simp
@[simp] theorem units_pairExpose (s : State) : s.pairExpose.units = s.units := by
  unfold State.pairExpose
  simp
@[simp] theorem units_releaseShadow (s : State) (b : ShadowBurst) : (s.releaseShadow b).units = s.units := by
  unfold State.releaseShadow
  simp
@[simp] theorem units_clearShadow (s0 : State) : s0.clearShadow.units = s0.units := by
  unfold State.clearShadow
  simp
@[simp] theorem units_releaseRole (s : State) : s.releaseRole.units = s.units := by
  unfold State.releaseRole
  simp
@[simp] theorem units_dropClaim (s : State) : s.dropClaim.units = s.units := by
  unfold State.dropClaim
  simp
@[simp] theorem units_pairEnd (s : State) (sub st : Nat) : (s.pairEnd sub st).units = s.units := by
  unfold State.pairEnd
  simp
@[simp] theorem units_pairDescs (s : State) (st : Nat) : (s.pairDescs st).units = s.units := by
  unfold State.pairDescs
  simp
@[simp] theorem units_announce (s : State) : s.announce.units = s.units := by
  unfold State.announce
  simp
@[simp] theorem units_snapshotPair (s00 : State) : s00.snapshotPair.units = s00.units := by
  unfold State.snapshotPair
  simp

/-! ### Links -/

@[simp] theorem units_crcBlock (s : State) (n typ body : Nat) : (s.crcBlock n typ body).units = s.units := by
  unfold State.crcBlock
  simp
@[simp] theorem units_heard (s : State) (n : Nat) : (s.heard n).units = s.units := by
  unfold State.heard
  simp
@[simp] theorem units_linkFlag (s : State) (n : Nat) : (s.linkFlag n).units = s.units := by
  unfold State.linkFlag
  simp
@[simp] theorem units_attempt (s : State) (n k a : Nat) : (s.attempt n k a).units = s.units := by
  unfold State.attempt
  simp
@[simp] theorem units_train (s : State) (n : Nat) : (s.train n).units = s.units := by
  unfold State.train
  simp
@[simp] theorem units_ringCut (s : State) : s.ringCut.units = s.units := by
  unfold State.ringCut
  simp
@[simp] theorem units_linkGone (s : State) (n st : Nat) : (s.linkGone n st).units = s.units := by
  unfold State.linkGone
  simp
@[simp] theorem units_linkLost (s : State) (n : Nat) : (s.linkLost n).units = s.units := by
  unfold State.linkLost
  simp
@[simp] theorem units_retireLane (s : State) (n k : Nat) : (s.retireLane n k).units = s.units := by
  unfold State.retireLane
  simp
@[simp] theorem units_settleRevive (s : State) (n later : Nat) : (s.settleRevive n later).units = s.units := by
  unfold State.settleRevive
  simp
@[simp] theorem units_failRevives (s : State) (n : Nat) : (s.failRevives n).units = s.units := by
  unfold State.failRevives
  simp
@[simp] theorem units_sendWidth (s : State) (n mine token : Nat) (agree : Bool) (act : Nat) :
    (s.sendWidth n mine token agree act).units = s.units := by
  unfold State.sendWidth
  simp
@[simp] theorem units_startWidth (s : State) (n : Nat) : (s.startWidth n).units = s.units := by
  unfold State.startWidth
  simp
@[simp] theorem units_linkComesUp (s : State) (n : Nat) : (s.linkComesUp n).units = s.units := by
  unfold State.linkComesUp
  simp
@[simp] theorem units_reviveLane (s : State) (n k : Nat) : (s.reviveLane n k).units = s.units := by
  unfold State.reviveLane
  simp
@[simp] theorem units_laneTrained (s : State) (n k : Nat) : (s.laneTrained n k).units = s.units := by
  unfold State.laneTrained
  simp
@[simp] theorem units_laneFailed (s : State) (n k : Nat) : (s.laneFailed n k).units = s.units := by
  unfold State.laneFailed
  dsimp only
  split <;> simp
@[simp] theorem units_uncountLoss (s : State) (n k : Nat) : (s.uncountLoss n k).units = s.units := by
  unfold State.uncountLoss
  simp
@[simp] theorem units_loseLane (s : State) (n k : Nat) : (s.loseLane n k).units = s.units := by
  unfold State.loseLane
  simp
@[simp] theorem units_blockErr (s : State) (n k : Nat) : (s.blockErr n k).units = s.units := by
  unfold State.blockErr
  simp
@[simp] theorem units_crcErr (s : State) (n : Nat) : (s.crcErr n).units = s.units := by
  unfold State.crcErr
  simp
@[simp] theorem units_doTrainBlock (n k : Nat) (v : W64) (t : Nat) (s0 : State) : (doTrainBlock n k v t s0).units = s0.units := by
  unfold doTrainBlock
  simp
@[simp] theorem units_doTrainingAttemptTimeout (n k t : Nat) (s0 : State) : (doTrainingAttemptTimeout n k t s0).units = s0.units := by
  unfold doTrainingAttemptTimeout
  simp
@[simp] theorem units_doLinkEnable (n : Nat) (v : W64) (s : State) : (doLinkEnable n v s).units = s.units := by
  unfold doLinkEnable
  simp
@[simp] theorem units_doLinkRetry (n t : Nat) (s : State) : (doLinkRetry n t s).units = s.units := by
  unfold doLinkRetry
  simp
@[simp] theorem units_doLaneLoss (n k : Nat) (errs : Bool) (t : Nat) (s : State) : (doLaneLoss n k errs t s).units = s.units := by
  unfold doLaneLoss
  simp
@[simp] theorem units_doLinkLoss (n t : Nat) (s : State) : (doLinkLoss n t s).units = s.units := by
  unfold doLinkLoss
  simp
@[simp] theorem units_doLaneRetrain (n k : Nat) (ok : Bool) (t : Nat) (s : State) : (doLaneRetrain n k ok t s).units = s.units := by
  unfold doLaneRetrain
  simp
@[simp] theorem units_doBlockError (n k t : Nat) (s : State) : (doBlockError n k t s).units = s.units := by
  unfold doBlockError
  simp
@[simp] theorem units_doLrefLoss (t : Nat) (s0 : State) : (doLrefLoss t s0).units = s0.units := by
  unfold doLrefLoss
  simp
@[simp] theorem units_lrefRises (s : State) : s.lrefRises.units = s.units := by
  unfold State.lrefRises
  simp
@[simp] theorem units_doLrefReturn (t : Nat) (s0 : State) : (doLrefReturn t s0).units = s0.units := by
  unfold doLrefReturn
  simp
@[simp] theorem units_doLaneRevive (sq idx : Nat) (s : State) : (doLaneRevive sq idx s).units = s.units := by
  unfold doLaneRevive
  simp
@[simp] theorem units_doWidthBlock (n : Nat) (v : W64) (t : Nat) (s0 : State) : (doWidthBlock n v t s0).units = s0.units := by
  unfold doWidthBlock
  dsimp only
  (repeat' split) <;> simp
@[simp] theorem units_doWidthResend (n t : Nat) (s0 : State) : (doWidthResend n t s0).units = s0.units := by
  unfold doWidthResend
  dsimp only
  split <;> simp
@[simp] theorem units_sendNak (s : State) (n : Nat) : (s.sendNak n).units = s.units := by
  unfold State.sendNak
  simp
@[simp] theorem units_doWidthSwitch (n t : Nat) (s0 : State) : (doWidthSwitch n t s0).units = s0.units := by
  unfold doWidthSwitch
  dsimp only
  split <;> simp
@[simp] theorem units_accept (s0 : State) (n : Nat) (p : PlPacket) : (s0.accept n p).1.units = s0.units := by
  unfold State.accept
  dsimp only
  (repeat' split) <;> simp
@[simp] theorem units_doAckSend (n t : Nat) (s0 : State) : (doAckSend n t s0).units = s0.units := by
  unfold doAckSend
  dsimp only
  split <;> simp
@[simp] theorem units_doNakBlock (n : Nat) (v : W64) (t : Nat) (s0 : State) : (doNakBlock n v t s0).units = s0.units := by
  unfold doNakBlock
  simp
@[simp] theorem units_goIdle (s : State) (n : Nat) : (s.goIdle n).units = s.units := by
  unfold State.goIdle
  simp
@[simp] theorem units_doElectricalIdleEntry (n t : Nat) (s : State) : (doElectricalIdleEntry n t s).units = s.units := by
  unfold doElectricalIdleEntry
  simp
@[simp] theorem units_doEiBlock (n : Nat) (v : W64) (t : Nat) (s : State) : (doEiBlock n v t s).units = s.units := by
  unfold doEiBlock
  simp
@[simp] theorem units_doElectricalIdleExit (n t : Nat) (s : State) : (doElectricalIdleExit n t s).units = s.units := by
  unfold doElectricalIdleExit
  simp
@[simp] theorem units_doTrackingHold (n k t : Nat) (s : State) : (doTrackingHold n k t s).units = s.units := by
  unfold doTrackingHold
  simp
@[simp] theorem units_doAlignMarker (n : Nat) (marks : List (Option Nat)) (t : Nat) (s : State) :
    (doAlignMarker n marks t s).units = s.units := by
  unfold doAlignMarker
  simp
@[simp] theorem units_doAlignMarkerSend (n t : Nat) (s : State) : (doAlignMarkerSend n t s).units = s.units := by
  unfold doAlignMarkerSend
  simp
@[simp] theorem units_forward (s : State) (n : Nat) (p : PlPacket) : (s.forward n p).units = s.units := by
  unfold State.forward
  simp
@[simp] theorem units_expressIn {typ n : Nat} {p : PlPacket} {t : Nat} {f : State → Nat → Nat → State} {s : State}
    (h : ∀ u a b, (f u a b).units = u.units) : (expressIn typ n p t f s).units = s.units := by
  unfold expressIn; dsimp only; (repeat' split) <;> simp [h]
@[simp] theorem units_doSyncReady (n : Nat) (p : PlPacket) (t : Nat) (s : State) : (doSyncReady n p t s).units = s.units := by
  refine units_expressIn fun u a b => ?_
  (repeat' split) <;> simp
@[simp] theorem units_nogo (s : State) (x : Burst) (status : Nat) : (s.nogo x status).units = s.units := by
  unfold State.nogo
  simp
@[simp] theorem units_doSyncStart (n : Nat) (p : PlPacket) (t : Nat) (s : State) : (doSyncStart n p t s).units = s.units := by
  unfold doSyncStart
  refine units_expressIn fun u a b => ?_
  dsimp only
  (repeat' split) <;> simp
@[simp] theorem units_doSyncStop (n : Nat) (p : PlPacket) (t : Nat) (s : State) : (doSyncStop n p t s).units = s.units := by
  refine units_expressIn fun u a b => ?_
  (repeat' split) <;> simp
@[simp] theorem units_blockedElsewhere (s : State) (id : Nat) : (s.blockedElsewhere id).units = s.units := by
  unfold State.blockedElsewhere
  simp
@[simp] theorem units_doSyncNogo (n : Nat) (p : PlPacket) (t : Nat) (s : State) : (doSyncNogo n p t s).units = s.units := by
  unfold doSyncNogo
  refine units_expressIn fun u a b => ?_
  dsimp only
  (repeat' split) <;> simp
@[simp] theorem units_refreshCkpts (s : State) (e : Ent) (v : Nat) : (s.refreshCkpts e v).units = s.units := by
  unfold State.refreshCkpts
  dsimp only
  split <;> simp
@[simp] theorem units_remoteFail (s : State) (e : Ent) (v : Nat) : (s.remoteFail e v).units = s.units := by
  unfold State.remoteFail
  dsimp only
  split <;> simp
@[simp] theorem units_doFailMsg (n : Nat) (p : PlPacket) (t : Nat) (s : State) : (doFailMsg n p t s).units = s.units := by
  unfold doFailMsg
  refine units_expressIn fun u a b => ?_
  dsimp only
  (repeat' split) <;> simp
@[simp] theorem units_xtEvent (s : State) (line stamp : Nat) : (s.xtEvent line stamp).units = s.units := by
  unfold State.xtEvent
  simp
@[simp] theorem units_doTrigMsg (n : Nat) (p : PlPacket) (t : Nat) (s0 : State) : (doTrigMsg n p t s0).units = s0.units := by
  unfold doTrigMsg
  simp
@[simp] theorem units_doTimeMsg (n : Nat) (p : PlPacket) (t : Nat) (s0 : State) : (doTimeMsg n p t s0).units = s0.units := by
  unfold doTimeMsg
  dsimp only
  (repeat' split) <;> simp
@[simp] theorem units_timeOut (s : State) (n : Nat) : (s.timeOut n).units = s.units := by
  unfold State.timeOut
  simp
@[simp] theorem units_doTimeSend (t : Nat) (s0 : State) : (doTimeSend t s0).units = s0.units := by
  unfold doTimeSend
  simp
@[simp] theorem units_packetIn {cls n : Nat} {p : PlPacket} {t : Nat} {f : State → State} {s : State}
    (h : ∀ u, (f u).units = u.units) : (packetIn cls n p t f s).units = s.units := by
  unfold packetIn; dsimp only; (repeat' split) <;> simp [h]
@[simp] theorem units_doMsgPacket (n : Nat) (p : PlPacket) (t : Nat) (s0 : State) : (doMsgPacket n p t s0).units = s0.units := by
  unfold doMsgPacket
  simp
@[simp] theorem units_doMsgAck (n : Nat) (p : PlPacket) (t : Nat) (s0 : State) : (doMsgAck n p t s0).units = s0.units := by
  unfold doMsgAck
  refine units_packetIn fun u => ?_
  dsimp only
  (repeat' split) <;> simp
@[simp] theorem units_doRingPacket (n : Nat) (p : PlPacket) (t : Nat) (s0 : State) : (doRingPacket n p t s0).units = s0.units := by
  unfold doRingPacket
  simp
@[simp] theorem units_doRingAlign (sq idx : Nat) (s : State) : (doRingAlign sq idx s).units = s.units := by
  unfold doRingAlign
  simp
@[simp] theorem units_doRingCfgWrite (v : W64) (s : State) : (doRingCfgWrite v s).units = s.units := by
  unfold doRingCfgWrite
  simp

/-! ### Pair -/

@[simp] theorem units_upShadow (s : State) (e : Ent) (f : ShadowBurst → ShadowBurst) : (s.upShadow e f).units = s.units := by
  unfold State.upShadow
  simp
@[simp] theorem units_dropShadow (s : State) (e : Ent) : (s.dropShadow e).units = s.units := by
  unfold State.dropShadow
  cases s.pair.bursts.find? (fun b => b.ent == e) <;> simp
@[simp] theorem units_admitShadow (s0 : State) (b : ShadowBurst) : (s0.admitShadow b).units = s0.units := by
  unfold State.admitShadow
  dsimp only
  split <;> simp
@[simp] theorem units_applyCapture (s : State) (id off : Nat) (bs : List Byte) : (s.applyCapture id off bs).units = s.units := by
  unfold State.applyCapture
  dsimp only
  (repeat' split) <;> simp
@[simp] theorem units_unmatched (s : State) : s.unmatched.units = s.units := by
  unfold State.unmatched
  simp
@[simp] theorem units_pairProtected (s : State) : s.pairProtected.units = s.units := by
  unfold State.pairProtected
  simp
@[simp] theorem units_roleFails (s : State) : s.roleFails.units = s.units := by
  unfold State.roleFails
  simp
@[simp] theorem units_withdraw (s : State) : s.withdraw.units = s.units := by
  unfold State.withdraw
  simp
@[simp] theorem units_startClaim (s : State) (f : Nat) : (s.startClaim f).units = s.units := by
  unfold State.startClaim
  simp
@[simp] theorem units_doClaim (v : W64) (s : State) : (doClaim v s).units = s.units := by
  unfold doClaim
  simp
@[simp] theorem units_doClaimRelease (v : W64) (s : State) : (doClaimRelease v s).units = s.units := by
  unfold doClaimRelease
  simp
@[simp] theorem units_doClaimWaitExpiry (t : Nat) (s : State) : (doClaimWaitExpiry t s).units = s.units := by
  unfold doClaimWaitExpiry
  simp
@[simp] theorem units_joinTurn (s : State) : s.joinTurn.units = s.units := by
  unfold State.joinTurn
  dsimp only
  split <;> simp
@[simp] theorem units_doPairJoin (sq idx : Nat) (s : State) : (doPairJoin sq idx s).units = s.units := by
  unfold doPairJoin
  simp
@[simp] theorem units_doPairLeave (sq idx : Nat) (s : State) : (doPairLeave sq idx s).units = s.units := by
  unfold doPairLeave
  simp
@[simp] theorem units_doTetherFailure (s : State) : (doTetherFailure s).units = s.units := by
  unfold doTetherFailure
  simp
@[simp] theorem units_resumeTask (s : State) (i : MItem) : (s.resumeTask i).units = s.units := by
  unfold State.resumeTask
  simp

@[simp] theorem units_restartShadow (s : State) (f : Nat) (b : ShadowBurst) : (s.restartShadow f b).1.units = s.units := by
  unfold State.restartShadow
  extract_lets split u ck s0 c lost
  have hu : u.units = s.units := by simp [u]
  have h0 : s0.units = s.units := by unfold s0; split <;> simp [hu]
  split
  · exact hu
  · extract_lets o p q
    split
    · simp [hu]
    · split
      · simp [hu]
      · split
        next h => simp [units_of_submitX h, h0]
        next s1 h =>
          extract_lets s2 s3 none'
          have h1 : s1.units = s.units := (units_of_submitX h).trans h0
          refine (units_foldl (fun a m => ?_) _ _).trans (by simp [s2, h1])
          extract_lets s4
          split <;> simp [s4]

@[simp] theorem units_lockShadow (s : State) (k : Nat) (l : List Nat) : (s.lockShadow k l).units = s.units := by
  unfold State.lockShadow
  simp

@[simp] theorem units_goLive (s : State) (f : Nat) : (s.goLive f).units = s.units := by
  unfold State.goLive
  extract_lets p s0 s1 s2 s3 s4 s5 go s5a r s6 held s7 s8 sub pr s9 aux s10
  have h3 : s3.units = s.units := by simp [s3, s2, s1, s0, p]
  have h5 : s5a.units = s.units := by simp [s5a, s5, s4, h3]
  have h6 : s6.units = s.units :=
    (foldl_keep (fun a : State × Nat × Nat => a.1.units) _ (fun a b => by simp) _ _).trans h5
  have h7 : s7.units = s.units := by
    refine (units_foldl (fun a tid => ?_) _ _).trans h6
    split <;> simp
  simp [s10, s9, pr, s8, h7]

@[simp] theorem units_claimDone (s : State) : s.claimDone.units = s.units := by
  unfold State.claimDone
  simp
@[simp] theorem units_doClaimGuardExpiry (t : Nat) (s : State) : (doClaimGuardExpiry t s).units = s.units := by
  unfold doClaimGuardExpiry
  simp
@[simp] theorem units_doPartnerActiveRise (t : Nat) (s0 : State) : (doPartnerActiveRise t s0).units = s0.units := by
  unfold doPartnerActiveRise
  simp
@[simp] theorem units_doPartnerActiveFall (t : Nat) (s0 : State) : (doPartnerActiveFall t s0).units = s0.units := by
  unfold doPartnerActiveFall
  dsimp only
  (repeat' split) <;> simp
@[simp] theorem units_applyItem (s : State) (i : MItem) : (s.applyItem i).units = s.units := by
  unfold State.applyItem
  dsimp only
  split <;> simp
@[simp] theorem units_applyAll (s : State) (l : List MItem) : (applyAll s l).units = s.units := by
  unfold applyAll
  simp
@[simp] theorem units_doMirroredItemApply (t : Nat) (s0 : State) : (doMirroredItemApply t s0).units = s0.units := by
  unfold doMirroredItemApply
  dsimp only
  split <;> simp
@[simp] theorem units_doTakeover (t : Nat) (s0 : State) : (doTakeover t s0).units = s0.units := by
  unfold doTakeover
  simp
@[simp] theorem units_switchBurst (s : State) (b : Burst) : (s.switchBurst b).units = s.units := by
  unfold State.switchBurst
  simp

/-- The locks of a chip that hands over are new ones, as many as the spec gives it (R622). -/
@[simp] theorem units_handOver {s : State} (h : s.units = fullUnits) : s.handOver.units = fullUnits := by
  unfold State.handOver
  extract_lets s1 slots rings p q s2 s3 s4 s5
  have h1 : s1.units = fullUnits := by simp [s1, h]
  have hl : s1.paddock.locks.length = 32 := by
    obtain ⟨_, _, _, _, _, _, _, _, _, _, _, _, _, hl⟩ := (shaped_iff s1).2 h1
    exact hl
  have h2 : s2.units = fullUnits := by simp [s2, p, q, slots, hl, h1]
  simp [s5, s4, s3, h2]

@[simp] theorem units_doPairSwitch {sq idx : Nat} {s : State} (h : s.units = fullUnits) : (doPairSwitch sq idx s).units = fullUnits := by
  refine (units_withDesc fun d => ?_).trans h
  rw [h]
  dsimp only
  split <;> simp [h]
@[simp] theorem units_doFollow (n : Nat) (p : PlPacket) (t : Nat) (s0 : State) : (doFollow n p t s0).units = s0.units := by
  unfold doFollow
  simp
@[simp] theorem units_digestCheckOf (s : State) (id : Nat) (dig : List Byte) : (s.digestCheckOf id dig).units = s.units := by
  unfold State.digestCheckOf
  dsimp only
  split <;> simp
@[simp] theorem units_receiveItem {s : State} (h : s.units = fullUnits) (i : MItem) : (s.receiveItem i).units = fullUnits := by
  unfold State.receiveItem
  dsimp only
  (repeat' split) <;> simp [h]
@[simp] theorem units_doTetherPacket (p : PlPacket) (t : Nat) {s : State} (h : s.units = fullUnits) :
    (doTetherPacket p t s).units = fullUnits := by
  unfold doTetherPacket
  dsimp only
  (repeat' split) <;> simp [h]
@[simp] theorem units_doPktReceive (n : Nat) (p : PlPacket) (t : Nat) {s : State} (h : s.units = fullUnits) :
    (doPktReceive n p t s).units = fullUnits := by
  unfold doPktReceive
  dsimp only
  (repeat' split) <;> simp [h]
@[simp] theorem units_doAckBlock (n : Nat) (v : W64) (t : Nat) (s0 : State) : (doAckBlock n v t s0).units = s0.units := by
  unfold doAckBlock
  simp

/-! ### Rings -/

@[simp] theorem units_acceptDesc (s : State) (k : Nat) (b : List Byte) : (s.acceptDesc k b).units = s.units := by
  unfold State.acceptDesc
  simp
@[simp] theorem units_withdrawWait (s : State) (w : Waiting) : (s.withdrawWait w).units = s.units := by
  unfold State.withdrawWait
  split <;> simp

@[simp] theorem units_withdrawDesc (s : State) (sq idx : Nat) : (s.withdrawDesc sq idx).units = s.units := by
  unfold State.withdrawDesc
  extract_lets p s1 s2 pd li rt pr
  have h2 : s2.units = s.units := by simp [s2, s1]
  refine Eq.trans ?_ h2
  simp [pd, State.units, unitsOf]

@[simp] theorem units_endDesc (s : State) (d : Desc) (st : Nat) : (s.endDesc d st).units = s.units := by
  unfold State.endDesc
  simp
@[simp] theorem units_reroute (s : State) : s.reroute.units = s.units := by
  unfold State.reroute
  simp
@[simp] theorem units_clearRing (s : State) (k : Nat) : (s.clearRing k).units = s.units := by
  unfold State.clearRing
  simp
@[simp] theorem units_resetSub (s : State) (k : Nat) : (s.resetSub k).units = s.units := by
  unfold State.resetSub
  simp
@[simp] theorem units_resetRing (s : State) (k : Nat) : (s.resetRing k).units = s.units := by
  unfold State.resetRing
  simp
@[simp] theorem units_ringFails (s : State) (k cause : Nat) : (s.ringFails k cause).units = s.units := by
  unfold State.ringFails
  simp
@[simp] theorem units_clearIsland (s : State) (i : Nat) : (s.clearIsland i).units = s.units := by
  unfold State.clearIsland
  simp

theorem units_clearRings {s : State} {h : HostIf} (e : h = s.host) (l : List Nat) :
    (l.foldl (fun (u : State) k => u.clearRing k) { s with host := { h with pci := {} } }).units = s.units :=
  (units_foldl units_clearRing _ _).trans (units_with_host (congrArg (·.rings.length) e))
theorem units_abandonAll (s : State) (l : List Nat) :
    (l.foldl (fun (u : State) k => u.abandonLocks (.desc k 0)) s).units = s.units :=
  units_foldl (fun u _ => units_abandonLocks u _) _ _
theorem units_hostBare {s : State} {h : HostIf} (e : h = s.host) (up : Bool) (speed width : Nat) :
    ({ s with host := { h with
      lastServed := 31, pci := {}, msix := List.replicate 64 {}, pba := 0, l1 := false
      linkUp := up, speed := speed, width := width } } : State).units = s.units :=
  units_with_host (congrArg (·.rings.length) e)

/-- Each stage goes by a lemma that takes its state as a variable: the kernel would otherwise run the folds over the rings. -/
@[simp] theorem units_hostReset (s : State) (linkStays : Bool) (st : Nat) : (s.hostReset linkStays st).units = s.units := by
  unfold State.hostReset
  extract_lets h ds s1 off bs as u s2 s3 r s4 s5 r5
  have h1 : s1.units = s.units := by simp [s1, h]
  have h2 : s2.units = s.units := by simp [s2, u, h, h1]
  have h3 : s3.units = s.units := (units_abandonAll s2 _).trans h2
  have h4 : s4.units = s3.units := units_clearRings (s := s3) (h := r) rfl _
  have h5 : s5.units = s.units := (units_clearIsland _ _).trans ((units_reroute _).trans (h4.trans h3))
  exact (units_hostBare (s := s5) (h := r5) rfl _ _ _).trans h5

/-! ### Life -/

@[simp] theorem units_queueSnapshot (s : State) (front : Bool) : (s.queueSnapshot front).units = s.units := by
  unfold State.queueSnapshot
  simp
@[simp] theorem units_failFlushes (s : State) : s.failFlushes.units = s.units := by
  unfold State.failFlushes
  simp
@[simp] theorem units_badSector (s : State) (x op : Nat) : (s.badSector x op).units = s.units := by
  unfold State.badSector
  simp
@[simp] theorem units_openSector (s : State) (x : Nat) : (s.openSector x).units = s.units := by
  unfold State.openSector
  simp
@[simp] theorem units_settleFlushes (s : State) (id : Nat) : (s.settleFlushes id).units = s.units := by
  unfold State.settleFlushes
  simp
@[simp] theorem units_programRecord (s : State) (x : Nat) (r : LogRec) (rest : List LogRec) : (s.programRecord x r rest).units = s.units := by
  unfold State.programRecord
  simp
@[simp] theorem units_doLogRecordWrite (eraseFails progFails : Nat) (s : State) :
    (doLogRecordWrite eraseFails progFails s).units = s.units := by
  unfold doLogRecordWrite
  dsimp only
  (repeat' split) <;> simp
@[simp] theorem units_drainLog (n : Nat) (s : State) : (State.drainLog n s).units = s.units := by
  induction n generalizing s with
  | zero => rfl
  | succ n ih => unfold State.drainLog; split <;> simp [ih]
@[simp] theorem units_doLifetimeSecond (t : Nat) (s0 : State) : (doLifetimeSecond t s0).units = s0.units := by
  unfold doLifetimeSecond
  simp
@[simp] theorem units_doSnapshot (t : Nat) (s : State) : (doSnapshot t s).units = s.units := by
  unfold doSnapshot
  simp
@[simp] theorem units_doReadLife (sq idx : Nat) (s : State) : (doReadLife sq idx s).units = s.units := by
  unfold doReadLife
  simp
@[simp] theorem units_doLifeFlush (sq idx : Nat) (s : State) : (doLifeFlush sq idx s).units = s.units := by
  unfold doLifeFlush
  simp

/-! ### Resets -/

@[simp] theorem units_endBursts (s : State) (p : Burst → Bool) (mine : Nat → Bool) (st : Nat) : (s.endBursts p mine st).units = s.units := by
  unfold State.endBursts
  simp
@[simp] theorem units_cutBursts (s : State) (st : Nat) : (s.cutBursts st).units = s.units := by
  unfold State.cutBursts
  simp
@[simp] theorem units_stopAcqs (s : State) (mask st : Nat) : (s.stopAcqs mask st).units = s.units := by
  unfold State.stopAcqs
  simp
@[simp] theorem units_resetCore (s : State) (n st : Nat) : (s.resetCore n st).units = s.units := by
  unfold State.resetCore
  simp
@[simp] theorem units_resetTiming (s : State) (n st : Nat) : (s.resetTiming n st).units = s.units := by
  unfold State.resetTiming
  simp
@[simp] theorem units_resetChans (s : State) (n : Nat) : (s.resetChans n).units = s.units := by
  unfold State.resetChans
  simp

@[simp] theorem units_resetCapture (s : State) (n st : Nat) : (s.resetCapture n st).units = s.units := by
  unfold State.resetCapture
  extract_lets s1 tr
  have h1 : s1.units = s.units := by simp [s1]
  refine Eq.trans ?_ h1
  simp [tr, State.units, unitsOf]

@[simp] theorem units_peFlush (s : State) (n : Nat) : (s.peFlush n).units = s.units := by
  unfold State.peFlush
  dsimp only
  split <;> simp
@[simp] theorem units_resetPorts (s : State) (n st : Nat) (on : Bool) : (s.resetPorts n st on).units = s.units := by
  unfold State.resetPorts
  simp
@[simp] theorem units_resetEngine (s : State) (e st : Nat) : (s.resetEngine e st).units = s.units := by
  unfold State.resetEngine
  simp
@[simp] theorem units_resetApg (s : State) (k st : Nat) : (s.resetApg k st).units = s.units := by
  unfold State.resetApg
  simp
@[simp] theorem units_resetTether (s : State) (st : Nat) : (s.resetTether st).units = s.units := by
  unfold State.resetTether
  simp
@[simp] theorem units_resetFlow (s : State) (st : Nat) : (s.resetFlow st).units = s.units := by
  unfold State.resetFlow
  simp
@[simp] theorem units_resetMemory (s : State) (m st : Nat) : (s.resetMemory m st).units = s.units := by
  unfold State.resetMemory
  simp
@[simp] theorem units_resetLink (s : State) (n st : Nat) : (s.resetLink n st).units = s.units := by
  unfold State.resetLink
  simp
@[simp] theorem units_resetIsland (s : State) (i st : Nat) : (s.resetIsland i st).units = s.units := by
  unfold State.resetIsland
  simp

@[simp] theorem units_resetCoreOf (s : State) (core st : Nat) : (s.resetCoreOf core st).units = s.units := by
  unfold State.resetCoreOf
  split
  · rfl
  · dsimp only
    exact (units_foldl (fun a t => units_replace a t) _ _).trans (units_vacate _ _ _)

@[simp] theorem units_blockReset (s0 : State) (i : Nat) (core : Option Nat) (host fault : Bool) :
    (s0.blockReset i core host fault).units = s0.units := by
  unfold State.blockReset
  dsimp only
  split <;> simp
@[simp] theorem units_doBlockReset (v : W64) (fault : Bool) (s : State) : (doBlockReset v fault s).units = s.units := by
  unfold doBlockReset
  simp
@[simp] theorem units_islandReturns (s : State) (i : Nat) : (s.islandReturns i).units = s.units := by
  unfold State.islandReturns
  simp
@[simp] theorem units_doBlockResetReturn (t : Nat) (s0 : State) : (doBlockResetReturn t s0).units = s0.units := by
  unfold doBlockResetReturn
  simp
@[simp] theorem units_dropStops (s : State) (n : Nat) : (s.dropStops n).units = s.units := by
  unfold State.dropStops
  simp
@[simp] theorem units_domOff (sL : State) (d : Nat) : (sL.domOff d).units = sL.units := by
  unfold State.domOff
  dsimp only
  (repeat' split) <;> simp
@[simp] theorem units_domRefused (s : State) (f : RF) (d : Nat) : (s.domRefused f d).units = s.units := by
  unfold State.domRefused
  simp
@[simp] theorem units_domainsOn (j : Nat) (v : W64) (s : State) : (domainsOn j v s).units = s.units := by
  unfold domainsOn
  simp
@[simp] theorem units_domainsOff (j : Nat) (v : W64) (s : State) : (domainsOff j v s).units = s.units := by
  unfold domainsOff
  extract_lets ds held stays order
  refine units_foldl (fun a d => ?_) _ _
  (repeat' split) <;> simp
@[simp] theorem units_writeDomCtl (j : Nat) (v : W64) (s : State) : (writeDomCtl j v s).units = s.units := by
  unfold writeDomCtl
  simp
@[simp] theorem units_doDomainOn (j : Nat) (v : W64) (s : State) : (doDomainOn j v s).units = s.units := by
  unfold doDomainOn
  simp
@[simp] theorem units_doDomainOff (j : Nat) (v : W64) (s : State) : (doDomainOff j v s).units = s.units := by
  unfold doDomainOff
  simp

@[simp] theorem units_chipReset {s : State} (h : s.units = fullUnits) (cause : Nat) : (s.chipReset cause).units = fullUnits := by
  unfold State.chipReset
  split
  · exact h
  · rw [← h]
    obtain ⟨h1, h2, h3, h4, h5, h6, h7, h8, h9, h10, h11, h12, h13, h14⟩ := (shaped_iff s).2 h
    simp [State.rebooted, State.reset, State.units, unitsOf, *]

@[simp] theorem units_pinReset {s : State} (h : s.units = fullUnits) (cause : Nat) : (s.pinReset cause).units = fullUnits := by
  unfold State.pinReset
  split
  · exact h
  · simp [State.rebooted, State.reset, State.units, unitsOf, fullUnits]
@[simp] theorem units_coldReset (s : State) (cause : Nat) : (s.coldReset cause).units = fullUnits := by
  simp [State.coldReset, State.reset, State.units, unitsOf, fullUnits]
@[simp] theorem units_doChipReset (v : W64) {s : State} (h : s.units = fullUnits) : (doChipReset v s).units = fullUnits := by
  unfold doChipReset
  split <;> simp [h]
@[simp] theorem units_doPinReset (cause : Nat) {s : State} (h : s.units = fullUnits) : (doPinReset cause s).units = fullUnits := by
  simp [doPinReset, h]
@[simp] theorem units_doColdReset (cause : Nat) (s : State) : (doColdReset cause s).units = fullUnits := units_coldReset s 1
@[simp] theorem units_doResetLoopClear (t : Nat) (s : State) : (doResetLoopClear t s).units = s.units := by
  unfold doResetLoopClear
  simp
@[simp] theorem units_doPwrgoodRise (t : Nat) (s : State) : (doPwrgoodRise t s).units = s.units := by
  unfold doPwrgoodRise
  simp

/-! ### Lull -/

@[simp] theorem units_lullClear (s : State) : s.lullClear.units = s.units := by
  unfold State.lullClear
  extract_lets s1 sl tr cs ap cl
  have hk : s1.units = s.units := units_clearRegs s _ _
  refine Eq.trans ?_ hk
  simp only [State.units, unitsOf, sl, tr, cs, ap, cl, List.length_map]

@[simp] theorem units_enterLull (s : State) : s.enterLull.units = s.units := by
  unfold State.enterLull
  simp
@[simp] theorem units_doLullEnter (sq idx : Nat) (s : State) : (doLullEnter sq idx s).units = s.units := by
  unfold doLullEnter
  simp
@[simp] theorem units_doLullWake (v : W64) (s : State) : (doLullWake v s).units = s.units := by
  unfold doLullWake
  simp
@[simp] theorem units_doLullWakeAtExpiry (t : Nat) (s : State) : (doLullWakeAtExpiry t s).units = s.units := by
  unfold doLullWakeAtExpiry
  simp

/-! ### Faults -/

@[simp] theorem units_powerAllOff (s : State) : s.powerAllOff.units = s.units := by
  unfold State.powerAllOff
  simp
@[simp] theorem units_switchFails (s : State) : s.switchFails.units = s.units := by
  unfold State.switchFails
  simp
@[simp] theorem units_ballastStop (s : State) : s.ballastStop.units = s.units := by
  unfold State.ballastStop
  simp
@[simp] theorem units_ballastPorts (s : State) : s.ballastPorts.units = s.units := by
  unfold State.ballastPorts
  simp
@[simp] theorem units_sendSafe (s : State) : s.sendSafe.units = s.units := by
  unfold State.sendSafe
  simp

@[simp] theorem units_ballastEnds (s : State) : s.ballastEnds.units = s.units := by
  unfold State.ballastEnds
  generalize List.range 48 = l
  extract_lets s1 cl s2 as u s3 s4 s5
  have h1 : s1.units = s.units := units_foldl (fun a k => units_stopMeas a k _) _ _
  have h2 : s2.units = s1.units := unitsOf_clusters s1 (x := cl) (by simp [cl])
  have hu : u.units = s2.units := units_foldl (fun a x => units_stopAcq a x _ _) _ _
  have h3 : s3.units = u.units := units_foldl (fun a x => units_settleAcq a x) _ _
  have h4 : s4.units = s3.units := units_foldl (fun a t => units_endTask a t _ _ _) _ _
  have h5 : s5.units = s4.units := units_foldl (fun a e => by cases e <;> simp) _ _
  refine (units_foldl (fun a d => by simp) _ _).trans ?_
  exact h5.trans (h4.trans (h3.trans (hu.trans (h2.trans h1))))

@[simp] theorem units_engage (s : State) (src : Nat) (inj : Bool) : (s.engage src inj).units = s.units := by
  unfold State.engage
  simp
@[simp] theorem units_setRecWord (s : State) (src w v : Nat) : (s.setRecWord src w v).units = s.units := by
  unfold State.setRecWord
  simp
@[simp] theorem units_capture (s : State) (r : Report) (inj : Bool) : (s.capture r inj).units = s.units := by
  unfold State.capture
  simp
@[simp] theorem units_recMore (s : State) (src : Nat) (inj : Bool) : (s.recMore src inj).units = s.units := by
  unfold State.recMore
  simp
@[simp] theorem units_islandLatch (s : State) (r : Report) : (s.islandLatch r).units = s.units := by
  unfold State.islandLatch
  simp
@[simp] theorem units_resetNamed (s : State) (r : Report) : (s.resetNamed r).units = s.units := by
  unfold State.resetNamed
  dsimp only
  (repeat' split) <;> simp
@[simp] theorem units_trap (s : State) (src : Nat) : (s.trap src).units = s.units := by
  unfold State.trap
  simp
@[simp] theorem units_faultEvent (s : State) (r : Report) (applied : Nat) : (s.faultEvent r applied).units = s.units := by
  unfold State.faultEvent
  simp

@[simp] theorem units_react {s : State} (h : s.units = fullUnits) (r : Report) (inj first : Bool) (react : Nat) :
    (s.react r inj first react).units = fullUnits := by
  unfold State.react
  extract_lets n applied s1 c s2 s3 s4 s5 s6
  have h1 : s1.units = fullUnits := by simp [s1, h]
  have h2 : s2.units = fullUnits := by simp [s2, h1]
  have h3 : s3.units = fullUnits := by simp [s3, h2]
  have h4 : s4.units = fullUnits := by simp [s4, h3]
  have h5 : s5.units = fullUnits := by simp [s5, h4]
  have h6 : s6.units = fullUnits := by simp [s6, h5]
  clear_value s6
  split <;> simp [h6]

@[simp] theorem units_latchFault {s : State} (h : s.units = fullUnits) (r : Report) (inj : Bool) (mask : Nat) :
    (s.latchFault r inj mask).units = fullUnits := by
  unfold State.latchFault
  extract_lets s0 react l s1 fresh s2 s3 set real s3' s4
  have h0 : s0.units = fullUnits := by simp [s0, h]
  have h1 : s1.units = fullUnits := by simp [s1, h0]
  have h2 : s2.units = fullUnits := by simp [s2, h1]
  have h3 : s3.units = fullUnits := by simp [s3, h2]
  have h3' : s3'.units = fullUnits := by simp [s3', h2]
  have h4 : s4.units = fullUnits := by simp [s4, h3']
  clear_value s3 s4
  (repeat' split) <;> simp [h3, h4]

@[simp] theorem units_corrupted (s : State) (island work : Nat) : (s.corrupted island work).units = s.units := by
  unfold State.corrupted
  simp
@[simp] theorem units_doFaultLatch (src island unit detail addr : Nat) {s : State} (h : s.units = fullUnits) :
    (doFaultLatch src island unit detail addr s).units = fullUnits := by
  unfold doFaultLatch
  dsimp only
  (repeat' split) <;> simp [h]
@[simp] theorem units_doFaultStatusClear (v : W64) (s : State) : (doFaultStatusClear v s).units = s.units := by
  unfold doFaultStatusClear
  simp

@[simp] theorem units_writeInject {s : State} (h : s.units = fullUnits) (v : W64) : (s.writeInject v).units = fullUnits := by
  unfold State.writeInject
  extract_lets s1 c s2 src a m
  have h1 : s1.units = fullUnits := by simp [s1, h]
  have h2 : s2.units = fullUnits := by simp [s2, h1]
  clear_value s2
  (repeat' split) <;> simp [h, h2]

@[simp] theorem units_doFaultInjection (v : W64) {s : State} (h : s.units = fullUnits) : (doFaultInjection v s).units = fullUnits :=
  units_writeInject h v
@[simp] theorem units_doAddressInjection (v : W64) {s : State} (h : s.units = fullUnits) : (doAddressInjection v s).units = fullUnits :=
  units_writeInject h v
@[simp] theorem units_doInjCancel (v : W64) {s : State} (h : s.units = fullUnits) : (doInjCancel v s).units = fullUnits :=
  units_writeInject h v
@[simp] theorem units_doBallastEngageWrite (v : W64) {s : State} (h : s.units = fullUnits) :
    (doBallastEngageWrite v s).units = fullUnits := by
  unfold doBallastEngageWrite
  split <;> simp [h]
@[simp] theorem units_doCollectorSelfCheck (t : Nat) (s : State) : (doCollectorSelfCheck t s).units = s.units := by
  unfold doCollectorSelfCheck
  simp

/-! ### HostCmds -/

@[simp] theorem units_doNop (sq idx : Nat) (s : State) : (doNop sq idx s).units = s.units := by
  unfold doNop
  simp
@[simp] theorem units_doFenceRelease (sq idx : Nat) (s : State) : (doFenceRelease sq idx s).units = s.units := by
  unfold doFenceRelease
  simp
@[simp] theorem units_doDescriptorFetch (k : Nat) (entries : List (List Byte)) (ok : Bool) (s : State) :
    (doDescriptorFetch k entries ok s).units = s.units := by
  unfold doDescriptorFetch
  simp
@[simp] theorem units_taskGone (s : State) (tid : Nat) : (s.taskGone tid).units = s.units := by
  unfold State.taskGone
  dsimp only
  split <;> simp
@[simp] theorem units_doEventPost (k : Nat) (s : State) : (doEventPost k s).units = s.units := by
  unfold doEventPost
  dsimp only
  split <;> simp
@[simp] theorem units_doIrqTimerExpiry (k t : Nat) (s : State) : (doIrqTimerExpiry k t s).units = s.units := by
  unfold doIrqTimerExpiry
  simp
@[simp] theorem units_ringOpen (s : State) (k : Nat) : (s.ringOpen k).units = s.units := by
  unfold State.ringOpen
  simp
@[simp] theorem units_ringShut (s : State) (k : Nat) : (s.ringShut k).units = s.units := by
  unfold State.ringShut
  simp
@[simp] theorem units_writeRingCfg (s : State) (k : Nat) (v : W64) : (s.writeRingCfg k v).units = s.units := by
  unfold State.writeRingCfg
  simp
@[simp] theorem units_doRingEnable (k : Nat) (v : W64) (s : State) : (doRingEnable k v s).units = s.units := by
  unfold doRingEnable
  simp
@[simp] theorem units_doRingDisable (k : Nat) (v : W64) (s : State) : (doRingDisable k v s).units = s.units := by
  unfold doRingDisable
  simp
@[simp] theorem units_doRingReset (k : Nat) (v : W64) (s : State) : (doRingReset k v s).units = s.units := by
  unfold doRingReset
  simp
@[simp] theorem units_doorbell (z : State) (k : Nat) (v : W64) : (z.doorbell k v).units = z.units := by
  unfold State.doorbell
  simp
@[simp] theorem units_doSubmissionDoorbell (k : Nat) (v : W64) (s : State) : (doSubmissionDoorbell k v s).units = s.units := by
  unfold doSubmissionDoorbell
  simp
@[simp] theorem units_doHeadDoorbell (k : Nat) (v : W64) (s : State) : (doHeadDoorbell k v s).units = s.units := by
  unfold doHeadDoorbell
  simp
@[simp] theorem units_doHostIslandReset (kind : Nat) (s : State) : (doHostIslandReset kind s).units = s.units := by
  unfold doHostIslandReset
  simp
@[simp] theorem units_doPcieLinkUp (gen width : Nat) (cfg : PcieCfg) (s : State) : (doPcieLinkUp gen width cfg s).units = s.units := by
  unfold doPcieLinkUp
  simp

/-! ### Windsock -/

@[simp] theorem units_markDip (s : State) (a b : Nat) : (s.markDip a b).units = s.units := by
  unfold State.markDip
  simp
@[simp] theorem units_railWarns (s : State) (r aux : Nat) : (s.railWarns r aux).units = s.units := by
  unfold State.railWarns
  simp
@[simp] theorem units_doRailBelowWarning (r first t : Nat) (s0 : State) : (doRailBelowWarning r first t s0).units = s0.units := by
  unfold doRailBelowWarning
  simp
@[simp] theorem units_doRailAboveWarning (r first lowest t : Nat) (s0 : State) :
    (doRailAboveWarning r first lowest t s0).units = s0.units := by
  unfold doRailAboveWarning
  dsimp only
  (repeat' split) <;> simp
@[simp] theorem units_doRailAboveHigh (r level t : Nat) (s : State) : (doRailAboveHigh r level t s).units = s.units := by
  unfold doRailAboveHigh
  simp
@[simp] theorem units_doSupplyPauseEnd (t : Nat) (s : State) : (doSupplyPauseEnd t s).units = s.units := by
  unfold doSupplyPauseEnd
  simp

@[simp] theorem units_doSupplyReset (r lowest t : Nat) {s : State} (h : s.units = fullUnits) :
    (doSupplyReset r lowest t s).units = fullUnits := by
  unfold doSupplyReset
  extract_lets u s1 p
  have h1 : s1.units = fullUnits := by simp [s1, u, h]
  clear_value s1
  split <;> simp [h, h1]

@[simp] theorem units_threshold (s : State) (src sub k : Nat) (thr v : Int) : (s.threshold src sub k thr v).units = s.units := by
  unfold State.threshold
  simp
@[simp] theorem units_sense (s : State) (k : Nat) (v : Int) : (s.sense k v).units = s.units := by
  unfold State.sense
  simp

@[simp] theorem units_doTempSample (temps : List Int) (t : Nat) (s : State) : (doTempSample temps t s).units = s.units := by
  unfold doTempSample
  extract_lets u new s1
  have h1 : s1.units = u.units := by
    refine units_foldl (fun a k => ?_) _ _
    split <;> simp
  split <;> simp [h1, u]

@[simp] theorem units_setProcs (s : State) (freqs : List Nat) : (s.setProcs freqs).units = s.units := by
  refine units_foldl (fun a n => ?_) _ _
  split <;> simp
@[simp] theorem units_doProcessSample (freqs : List Nat) (t : Nat) (s : State) : (doProcessSample freqs t s).units = s.units := by
  unfold doProcessSample
  simp

/-! ### Failures -/

@[simp] theorem units_reportEither (s : State) (src island unit : Nat) : (s.reportEither src island unit).units = s.units := by
  unfold State.reportEither
  simp
@[simp] theorem units_sliceBursts (s : State) (g : Nat) (queued : Bool) : (s.sliceBursts g queued).units = s.units := by
  unfold State.sliceBursts
  (repeat' split) <;> simp
@[simp] theorem units_doSliceFailure (n p : Nat) (s : State) : (doSliceFailure n p s).units = s.units := by
  unfold doSliceFailure
  dsimp only
  (repeat' split) <;> simp
@[simp] theorem units_doCaptureEngineFailure (n : Nat) (s : State) : (doCaptureEngineFailure n s).units = s.units := by
  unfold doCaptureEngineFailure
  simp
@[simp] theorem units_blockNeeding (s : State) (p : Site → Bool) : (s.blockNeeding p).units = s.units := by
  refine units_foldl (fun a x => ?_) _ _
  dsimp only
  split <;> simp
@[simp] theorem units_retireChan (s : State) (n c : Nat) : (s.retireChan n c).units = s.units := by
  unfold State.retireChan
  simp
@[simp] theorem units_doChannelFailure (n c : Nat) (s : State) : (doChannelFailure n c s).units = s.units := by
  unfold doChannelFailure
  simp
@[simp] theorem units_retireChain (s : State) (k : Nat) : (s.retireChain k).units = s.units := by
  unfold State.retireChain
  simp
@[simp] theorem units_doFilterChainFailure (k : Nat) (s : State) : (doFilterChainFailure k s).units = s.units := by
  unfold doFilterChainFailure
  simp

/-! ### Clocks -/

@[simp] theorem units_foldSub (s : State) : s.foldSub.units = s.units := by
  unfold State.foldSub
  simp
@[simp] theorem units_goDark (s : State) : s.goDark.units = s.units := by
  unfold State.goDark
  simp
@[simp] theorem units_endDark (s : State) (t : Nat) : (s.endDark t).units = s.units := by
  unfold State.endDark
  dsimp only
  split <;> simp
@[simp] theorem units_trefEnds (s : State) : s.trefEnds.units = s.units := by
  unfold State.trefEnds
  simp
@[simp] theorem units_trefLost (s : State) (t : Nat) : (s.trefLost t).units = s.units := by
  unfold State.trefLost
  simp
@[simp] theorem units_trefFault (s : State) : s.trefFault.units = s.units := by
  unfold State.trefFault
  simp
@[simp] theorem units_doTrefLoss (t : Nat) (s : State) : (doTrefLoss t s).units = s.units := by
  unfold doTrefLoss
  simp
@[simp] theorem units_doPllRelock (t : Nat) (s : State) : (doPllRelock t s).units = s.units := by
  unfold doPllRelock
  simp
@[simp] theorem units_doTrefHoldEnd (t : Nat) (s : State) : (doTrefHoldEnd t s).units = s.units := by
  unfold doTrefHoldEnd
  simp
@[simp] theorem units_doReplicaCheck (island replica t : Nat) (s0 : State) : (doReplicaCheck island replica t s0).units = s0.units := by
  unfold doReplicaCheck
  simp
@[simp] theorem units_tick (s : State) : s.tick.units = s.units := by
  unfold State.tick
  simp
@[simp] theorem units_calLoad (s : State) (sec : Nat) : (s.calLoad sec).units = s.units := by
  unfold State.calLoad
  simp
@[simp] theorem units_doCalSet (v : W64) (s : State) : (doCalSet v s).units = s.units := by
  unfold doCalSet
  simp
@[simp] theorem units_doCalsecAdvance (t : Nat) (s : State) : (doCalsecAdvance t s).units = s.units := by
  unfold doCalsecAdvance
  simp
@[simp] theorem units_doXtalLoss (t : Nat) (s0 : State) : (doXtalLoss t s0).units = s0.units := by
  unfold doXtalLoss
  simp
@[simp] theorem units_doXtalReturn (t : Nat) (s : State) : (doXtalReturn t s).units = s.units := by
  unfold doXtalReturn
  simp
@[simp] theorem units_doSyncOutPulse (t : Nat) (s : State) : (doSyncOutPulse t s).units = s.units := by
  unfold doSyncOutPulse
  simp
@[simp] theorem units_doTrigInEdge (j : Nat) (rising : Bool) (t : Nat) (s0 : State) : (doTrigInEdge j rising t s0).units = s0.units := by
  unfold doTrigInEdge
  simp
@[simp] theorem units_doTapInstruction (code : Nat) (s : State) : (doTapInstruction code s).units = s.units := by
  unfold doTapInstruction
  simp

/-! ### Image -/

theorem units_with_rst (s : State) (r : Rst) : ({ s with rst := r } : State).units = s.units := rfl

@[simp] theorem units_loadPatch (s : State) (b : List Byte) : (s.loadPatch b).units = s.units := by
  unfold State.loadPatch
  generalize List.range 32 = l
  extract_lets nw nm s1 s2 r
  have h1 : s1.units = s.units := by simp [s1]
  have h2 : s2.units = s1.units := units_foldl (fun a k => by simp) _ _
  exact (units_with_rst s2 _).trans (h2.trans h1)

@[simp] theorem units_applyBoard (s : State) (l : List (Nat × List Byte)) : (s.applyBoard l).units = s.units := by
  unfold State.applyBoard
  extract_lets has b s1 s2 s3 s4 s5
  have h1 : s1.units = s.units := by simp [s1]
  have h2 : s2.units = s1.units := ite_keep State.units (units_foldl (fun a n => by simp) _ _) rfl
  have h3 : s3.units = s2.units := ite_keep State.units (units_foldl (fun a n => by simp) _ _) rfl
  have h4 : s4.units = s3.units := ite_keep State.units (units_foldl (fun a n => by simp) _ _) rfl
  have h5 : s5.units = s4.units := ite_keep State.units (units_foldl (fun a n => by simp) _ _) rfl
  exact h5.trans (h4.trans (h3.trans (h2.trans h1)))

/-! ### Boot -/

@[simp] theorem units_bootMark (s : State) (phase code detail : Nat) : (s.bootMark phase code detail).units = s.units := by
  unfold State.bootMark
  simp
theorem units_with_power (s : State) (p : Power) : ({ s with power := p } : State).units = s.units := rfl

@[simp] theorem units_bootFails (s : State) (phase code detail : Nat) : (s.bootFails phase code detail).units = s.units := by
  unfold State.bootFails
  exact (units_with_power _ _).trans (by simp)

theorem units_with_mcs {s : State} {ms : List Mc} {l : Life} {r : Rst} (h : ms.length = s.mcs.length) :
    ({ s with life := l, mcs := ms, rst := r } : State).units = s.units :=
  unitsOf_mcs s h

@[simp] theorem units_mountLog (s : State) (base size : Nat) (cold kept : Bool) : (s.mountLog base size cold kept).units = s.units := by
  unfold State.mountLog
  extract_lets u l0 rs snap r
  clear_value snap rs
  split
  extract_lets l1 used l2 l3 fences ms agrees s1
  have hm : ms.length = s.mcs.length := by simp only [ms]; split <;> simp
  have h1 : s1.units = s.units := units_with_mcs hm
  clear_value s1 agrees
  split
  · exact h1
  · exact (units_foldl (fun a m => by simp) _ _).trans h1

@[simp] theorem units_trainMemory (s : State) (inp : BootInput) (kept : Bool) : (s.trainMemory inp kept).units = s.units := by
  unfold State.trainMemory
  split
  · refine units_foldl (fun a m => ?_) _ _
    split <;> simp
  · refine units_foldl (fun a m => ?_) _ _
    simp

@[simp] theorem units_fillCaps (s : State) : s.fillCaps.units = s.units := by
  unfold State.fillCaps
  simp
@[simp] theorem units_retireFound (s : State) (meters cores : List Nat) (kept : Bool) :
    (s.retireFound meters cores kept).units = s.units := by
  unfold State.retireFound
  simp
@[simp] theorem units_retireUnit (s : State) (kind island unit : Nat) : (s.retireUnit kind island unit).units = s.units := by
  unfold State.retireUnit
  dsimp only
  split <;> simp
@[simp] theorem units_reloadRetired (s : State) : s.reloadRetired.units = s.units := by
  unfold State.reloadRetired
  simp
@[simp] theorem units_bootLinks (s : State) (l : List (Nat × List Byte)) : (s.bootLinks l).1.units = s.units := by
  unfold State.bootLinks
  simp
@[simp] theorem units_allotCtx (s : State) : s.allotCtx.units = s.units := by
  unfold State.allotCtx
  dsimp only
  split <;> simp
@[simp] theorem units_bootDomains (s : State) : s.bootDomains.units = s.units := by
  unfold State.bootDomains
  simp

theorem units_with_boot {s : State} {r : Rst} {l : Life} {p : Pair} : ({ s with rst := r, life := l, pair := p } : State).units = s.units := rfl

@[simp] theorem units_bootEnds (s : State) (slot : Nat) (warns : List (Nat × Nat)) : (s.bootEnds slot warns).units = s.units := by
  unfold State.bootEnds
  split
  extract_lets s1 seen procs s2 s3 solo l r p s4
  have h1 : s1.units = s.units := by simp [s1]
  have h2 : s2.units = s1.units := by
    simp only [s2]
    split <;> simp
  have h3 : s3.units = s2.units := by simp [s3]
  have h4 : s4.units = s3.units := units_with_boot
  clear_value s4
  split <;> simp [h4, h3, h2, h1]

@[simp] theorem units_bootBoard (s : State) (inp : BootInput) (slot : Nat) (b : List Byte) (l : List (Nat × List Byte)) :
    (s.bootBoard inp slot b l).units = s.units := by
  unfold State.bootBoard
  dsimp only
  (repeat' split) <;> simp
@[simp] theorem units_bootClocks (s : State) (inp : BootInput) : (s.bootClocks inp).units = s.units := by
  unfold State.bootClocks
  simp
@[simp] theorem units_doBoot (inp : BootInput) (s00 : State) : (doBoot inp s00).units = s00.units := by
  unfold doBoot
  dsimp only
  (repeat' split) <;> simp
@[simp] theorem units_doPatchApply (sq idx : Nat) (src : Option (List Byte)) (s : State) : (doPatchApply sq idx src s).units = s.units := by
  unfold doPatchApply
  refine units_withDesc fun d => ?_
  dsimp only
  (repeat' split) <;> simp

/-! ### RegRead -/

@[simp] theorem units_dropHeld (s : State) (off : Nat) : (s.dropHeld off).units = s.units := by
  unfold State.dropHeld
  simp
@[simp] theorem units_read32 (s : State) (off : Nat) : (s.read32 off).1.units = s.units := by
  unfold State.read32
  dsimp only
  (repeat' split) <;> simp
@[simp] theorem units_doSplitReadLatch (off size : Nat) (s1 : State) : (doSplitReadLatch off size s1).units = s1.units := by
  unfold doSplitReadLatch
  simp
@[simp] theorem units_doSmbusBlockRead (cmd : Nat) (s : State) : (doSmbusBlockRead cmd s).units = s.units := by
  unfold doSmbusBlockRead
  simp

/-! ### HostWrite -/

@[simp] theorem units_writeTempThr (s : State) (v : W64) : (s.writeTempThr v).units = s.units := by
  unfold State.writeTempThr
  simp
@[simp] theorem units_writeRailThr (s : State) (r : Nat) (v : W64) : (s.writeRailThr r v).units = s.units := by
  unfold State.writeRailThr
  simp
@[simp] theorem units_writeMasked (s : State) (off : Nat) (ch : RF) (is : List Nat) (v : W64) :
    (s.writeMasked off ch is v).units = s.units := by
  unfold State.writeMasked
  simp
@[simp] theorem units_writeMemLog (s : State) (off m j : Nat) (v : W64) : (s.writeMemLog off m j v).units = s.units := by
  unfold State.writeMemLog
  simp
@[simp] theorem units_writeDtimeStat (s : State) (v : W64) : (s.writeDtimeStat v).units = s.units := by
  unfold State.writeDtimeStat
  simp
@[simp] theorem units_writePairCtl (s : State) (v : W64) : (s.writePairCtl v).units = s.units := by
  unfold State.writePairCtl
  simp
@[simp] theorem units_writeChain (s : State) (off k : Nat) (highOnly : Bool) (v : W64) : (s.writeChain off k highOnly v).units = s.units := by
  unfold State.writeChain
  simp
@[simp] theorem units_writeReg {s : State} (h : s.units = fullUnits) (r : Reg) (is : List Nat) (off : Nat) (highOnly : Bool) (v : W64) :
    (s.writeReg r is off highOnly v).units = fullUnits := by
  unfold State.writeReg
  dsimp only
  split <;> simp [h]

@[simp] theorem units_write32 {s : State} (h : s.units = fullUnits) (off v : Nat) : (s.write32 off v).units = fullUnits := by
  have hw (o : Nat) (r : Row) (is : List Nat) (hi : Bool) (f : State → W64) :
      (s.busWrite o (fun u => u.writeReg r.reg is o hi (f u))).units = fullUnits :=
    units_busWrite_full (fun u hu => units_writeReg hu _ _ _ _ _) h
  unfold State.write32
  split
  · split
    · exact hw ..
    · exact units_busWrite_full (fun u hu => hu) h
  · split
    · split
      · split
        · split
          · exact hw ..
          · exact hw ..
        · exact hw ..
      · exact h
    · exact h

@[simp] theorem units_msixWord (s : State) (o x : Nat) : (s.msixWord o x).units = s.units := by
  unfold State.msixWord
  simp
@[simp] theorem units_bar2Write (s : State) (o size : Nat) (v : W64) : (s.bar2Write o size v).units = s.units := by
  unfold State.bar2Write
  simp

@[simp] theorem units_doRegisterWrite (off size : Nat) (v : W64) {s : State} (h : s.units = fullUnits) :
    (doRegisterWrite off size v s).units = fullUnits := by
  unfold doRegisterWrite
  have ha : s.hostAccess.units = fullUnits := by simp [h]
  split
  · simp [h]
  · split
    · split
      · exact units_busWrite_full (fun u hu => units_writeReg hu _ _ _ _ _) ha
      · exact ha
    · split
      · exact units_write32 ha _ _
      · exact ha

/-! ### Every command and every step -/

theorem units_of_next {t u : State} (h : u.units = fullUnits) (e : (Host.Outcome.next u : Host.Outcome State Fault Refusal) = .next t) :
    t.units = fullUnits := by
  cases e
  exact h

/-- The commands named are register writes that may reset the chip, so the count is kept only where it is full. -/
theorem units_exec {c : Instr} {s t : State} (h : s.units = fullUnits) (e : exec c s = .next t) : t.units = fullUnits := by
  cases c with
  | faultInjection v => exact units_of_next (units_busWrite_full (fun _ hu => units_doFaultInjection v hu) h) e
  | addressInjection v => exact units_of_next (units_busWrite_full (fun _ hu => units_doAddressInjection v hu) h) e
  | injCancel v => exact units_of_next (units_busWrite_full (fun _ hu => units_doInjCancel v hu) h) e
  | ballastEngageWrite v => exact units_of_next (units_busWrite_full (fun _ hu => units_doBallastEngageWrite v hu) h) e
  | chipReset v => exact units_of_next (units_busWrite_full (fun _ hu => units_doChipReset v hu) h) e
  | _ => exact units_of_next (by simp [h]) e

theorem units_step {s t : State} (h : s.units = fullUnits) (e : step s = .next t) : t.units = fullUnits := by
  unfold step at e
  split at e
  case h_1 c rest hc =>
    have hq : ({ s with pending := rest } : State).units = fullUnits := h
    exact units_exec hq e
  case h_2 => exact units_of_next (by simp [h]) e

/-- Settles O55: no function of the model changes how many units a state lists, except the resets and the takeover of the other chip's
role, which list as many as the spec gives the chip. -/
theorem stepsKeepTheUnits : Obligations.StepsKeepTheUnits := by
  intro s t hs e
  exact (shaped_iff t).2 (units_step ((shaped_iff s).1 hs) e)

/-! ### The machine right after reset -/

theorem units_reset : State.reset.units = fullUnits := by decide

/-- Settles O53: the register file and device memory are empty lists, and every list of units is as long as the spec says. -/
theorem resetHasItsForms : Obligations.ResetHasItsForms :=
  have hmem : ∀ a, Memory.get State.reset.mem a = 0 := fun _ => rfl
  ⟨rfl, (shaped_iff _).2 units_reset, rfl, rfl, rfl, rfl, rfl, rfl, hmem⟩

end Sys2Proof.Machine
end

