-- ==== Sys2Proof/Proofs/Access.lean ====
section
namespace Sys2Proof.Machine

/-! SUPPORT. What a host read and a host write come to, by their width and place (R12, R17, R18, R484, R725, R726), and the statements
about them. -/

/-! ### Where an access lies -/

theorem accessed_self {off : Nat} {r : Row} {is : List Nat} (h : findReg off = some (r, is)) : accessed off = some off := by
  simp [accessed, h]

/-- The high half of a 64-bit register is part of it. -/
theorem accessed_high {off : Nat} {r : Row} {is : List Nat} (h : findReg off = some (r, is)) (h8 : off % 8 = 0) (hw : r.wide = true)
    (hn : findReg (off + 4) = none) : accessed (off + 4) = some off := by
  have h4 : (off + 4) % 8 = 4 := by omega
  simp [accessed, h, hn, hw, h4]

theorem accessed_none {off : Nat} (h : findReg off = none) (hp : findReg (off - 4) = none) : accessed off = none := by
  simp [accessed, h, hp]

/-! ### What an access ends -/

@[simp] theorem hostAccess_regs (s : State) : s.hostAccess.regs = s.regs := rfl
@[simp] theorem hostAccess_mem (s : State) : s.hostAccess.mem = s.mem := rfl
@[simp] theorem hostAccess_out (s : State) : s.hostAccess.out = s.out := rfl
@[simp] theorem hostAccess_latch (s : State) : s.hostAccess.latch = s.latch := rfl
@[simp] theorem hostAccess_msix (s : State) : s.hostAccess.host.msix = s.host.msix := rfl
@[simp] theorem hostAccess_pba (s : State) : s.hostAccess.host.pba = s.host.pba := rfl

/-- An access ends at most a held half. -/
theorem dropHeld_eq (s : State) (off : Nat) : ∃ h, s.dropHeld off = { s with held := h } := by
  unfold State.dropHeld
  split <;> exact ⟨_, rfl⟩

@[simp] theorem dropHeld_regs (s : State) (off : Nat) : (s.dropHeld off).regs = s.regs := by obtain ⟨h, e⟩ := dropHeld_eq s off; rw [e]
@[simp] theorem dropHeld_mem (s : State) (off : Nat) : (s.dropHeld off).mem = s.mem := by obtain ⟨h, e⟩ := dropHeld_eq s off; rw [e]
@[simp] theorem dropHeld_host (s : State) (off : Nat) : (s.dropHeld off).host = s.host := by obtain ⟨h, e⟩ := dropHeld_eq s off; rw [e]
@[simp] theorem dropHeld_latch (s : State) (off : Nat) : (s.dropHeld off).latch = s.latch := by
  obtain ⟨h, e⟩ := dropHeld_eq s off; rw [e]
@[simp] theorem dropHeld_out (s : State) (off : Nat) : (s.dropHeld off).out = s.out := by obtain ⟨h, e⟩ := dropHeld_eq s off; rw [e]

/-- An access to a register ends the held half of any other (R18). -/
theorem dropHeld_other {s : State} {off o : Nat} {v : W64} {r : Row} {is : List Nat} (h : findReg off = some (r, is))
    (hh : s.held = some (o, v)) (ho : o ≠ off) : (s.dropHeld off).held = none := by
  simp [State.dropHeld, accessed_self h, hh, ho]

/-! ### A 32-bit read (R12) -/

theorem read32_wide {s : State} {off : Nat} {r : Row} {is : List Nat} (h : findReg off = some (r, is)) (hw : r.wide = true) :
    s.read32 off = ({ s with latch := kSet s.latch off (BitVec.ofNat 64 (fget (s.readReg off) 32 32)) },
      BitVec.ofNat 64 (fget (s.readReg off) 0 32)) := by
  simp [State.read32, h, hw]

theorem read32_narrow {s : State} {off : Nat} {r : Row} {is : List Nat} (h : findReg off = some (r, is)) (hw : r.wide = false) :
    s.read32 off = (s, BitVec.ofNat 64 (fget (s.readReg off) 0 32)) := by
  simp [State.read32, h, hw]

theorem read32_latched {s : State} {off o : Nat} {x : W64} (hn : findReg off = none) (ha : accessed off = some o)
    (hl : kGet s.latch o = some x) : s.read32 off = ({ s with latch := kDel s.latch o }, x) := by
  simp [State.read32, hn, ha, hl]

theorem read32_reserved {s : State} {off : Nat} (hn : findReg off = none) (ha : accessed off = none) : s.read32 off = (s, 0) := by
  simp [State.read32, hn, ha]

/-! ### The read command -/

theorem splitRead_word (s : State) {off : Nat} (h : off < 2 ^ 21) (h4 : off % 4 = 0) :
    doSplitReadLatch off 4 s = ({ ((s.hostAccess.dropHeld off).read32 off).1 with
      freeCtr := ((s.hostAccess.dropHeld off).read32 off).1.freeCtr + 14 } : State).emit
        (.readData off ((s.hostAccess.dropHeld off).read32 off).2) := by
  have hb : ¬ 2097152 ≤ off := by omega
  simp [doSplitReadLatch, hb, h4]

theorem splitRead_double (s : State) {off : Nat} (h : off < 2 ^ 21) (h8 : off % 8 = 0) :
    doSplitReadLatch off 8 s = ({ s.hostAccess.dropHeld off with freeCtr := (s.hostAccess.dropHeld off).freeCtr + 14 } : State).emit
      (.readData off ((s.hostAccess.dropHeld off).read64 off)) := by
  have hb : ¬ 2097152 ≤ off := by omega
  simp [doSplitReadLatch, hb, h8]

theorem splitRead_bar2 (s : State) {off o : Nat} (size : Nat) (h : off = 2 ^ 21 + o) :
    doSplitReadLatch off size s = s.hostAccess.emit (.readData off (s.hostAccess.bar2Read o size)) := by
  subst h
  simp [doSplitReadLatch]

/-- A read that is no naturally aligned one of 4 or 8 bytes reads 0 in BAR2 (R17). -/
theorem bar2Read_misaligned (s : State) {o size : Nat} (h : (size ≠ 4 ∧ size ≠ 8) ∨ o % size ≠ 0) : s.bar2Read o size = 0 := by
  have h4 : ¬ (size = 4 ∧ o % 4 = 0) := by rintro ⟨rfl, h4⟩; omega
  have h8 : ¬ (size = 8 ∧ o % 8 = 0) := by rintro ⟨rfl, h8⟩; omega
  simp [State.bar2Read, h4, h8]

theorem splitRead_misaligned (s : State) {off size : Nat} (h : (size ≠ 4 ∧ size ≠ 8) ∨ off % size ≠ 0) :
    doSplitReadLatch off size s = s.hostAccess.emit (.readData off 0) := by
  have h4 : ¬ (size = 4 ∧ off % 4 = 0) := by rintro ⟨rfl, h4⟩; omega
  have h8 : ¬ (size = 8 ∧ off % 8 = 0) := by rintro ⟨rfl, h8⟩; omega
  by_cases hb : 2097152 ≤ off
  · have ho : (size ≠ 4 ∧ size ≠ 8) ∨ (off - 2097152) % size ≠ 0 := by
      by_cases hs : size = 4 ∨ size = 8
      · rcases hs with rfl | rfl <;> omega
      · omega
    simp [doSplitReadLatch, hb, bar2Read_misaligned _ ho]
  · simp [doSplitReadLatch, hb, h4, h8]

/-! ### BAR2 (R484) -/

theorem bar2Word_msix (s : State) {k w : Nat} (hk : k < 64) (hw : w < 4) :
    s.bar2Word (0x8000 + 16 * k + 4 * w) = (s.host.msix.getD k {}).word w := by
  have he : (0x8000 + 16 * k + 4 * w - 0x8000) / 16 = k := by omega
  have hq : (0x8000 + 16 * k + 4 * w) / 4 % 4 = w := by omega
  have hl : 0x8000 ≤ 0x8000 + 16 * k + 4 * w ∧ 0x8000 + 16 * k + 4 * w < 0x8400 := by omega
  simp only [State.bar2Word, hl, decide_true, Bool.and_true, if_true, he, hq]

theorem bar2Read_pba (s : State) : s.bar2Read 0x9000 8 = BitVec.ofNat 64 s.host.pba := by
  simp [State.bar2Read, State.bar2Word, Nat.mod_add_div']

/-- Settles O59: by the width of the read and what lies at its offset. -/
theorem registerReads : Obligations.RegisterReads := by
  refine ⟨?_, ?_, ?_, ?_, ?_, ?_, ?_, ?_⟩
  · intro s off r is hb h h8 hw
    have h4 : off % 4 = 0 := by omega
    refine ⟨_, congrArg Host.Outcome.next (splitRead_word s hb h4), ?_⟩
    simp only [read32_wide h hw]
    refine ⟨by simp, by simp, by simp, by simp, by simp, fun o ho => ?_⟩
    simp [kGet_kSet_ne _ _ ho]
  · intro s off r is hb h h4 hw
    refine ⟨_, congrArg Host.Outcome.next (splitRead_word s hb h4), ?_⟩
    simp only [read32_narrow h hw]
    simp
  · intro s off r is x hb h h8 hw hn hl
    have h4 : (off + 4) % 4 = 0 := by omega
    refine ⟨_, congrArg Host.Outcome.next (splitRead_word s hb h4), ?_⟩
    have hx : kGet (s.hostAccess.dropHeld (off + 4)).latch off = some x := by simpa using hl
    simp only [read32_latched hn (accessed_high h h8 hw hn) hx]
    simp
  · intro s off hb h8
    refine ⟨_, congrArg Host.Outcome.next (splitRead_double s hb h8), by simp, by simp, by simp, by simp, by simp, fun r is h hw => ⟨?_, ?_⟩⟩
    · simp [State.read64, h, hw]
    · exact fun o v hh ho => dropHeld_other (s := s.hostAccess) h hh ho
  · intro s off hb h4 hn hp
    refine ⟨_, congrArg Host.Outcome.next (splitRead_word s hb h4), ?_⟩
    simp only [read32_reserved hn (accessed_none hn hp)]
    simp
  · intro s k w hk hw
    have ho : 2 ^ 21 + 0x8000 + 16 * k + 4 * w = 2 ^ 21 + (0x8000 + 16 * k + 4 * w) := by omega
    constructor
    · refine ⟨_, congrArg Host.Outcome.next (splitRead_bar2 s 4 ho), ?_⟩
      have h4 : (0x8000 + 16 * k + 4 * w) % 4 = 0 := by omega
      simp [State.bar2Read, h4, bar2Word_msix _ hk hw]
    · refine ⟨_, congrArg Host.Outcome.next (splitRead_bar2 (off := 2 ^ 21 + 0x9000) s 8 rfl), ?_⟩
      simp [bar2Read_pba]
  · intro s off size h
    exact ⟨_, congrArg Host.Outcome.next (splitRead_misaligned s h), by simp⟩
  · intro s cmd h12 h13
    refine ⟨_, rfl, ?_⟩
    simp [doSmbusBlockRead, h12, h13]

/-! ### The write command -/

/-- A write that is no naturally aligned one of 4 or 8 bytes is ignored in BAR2 (R17). -/
theorem bar2Write_misaligned (s : State) {o size : Nat} (v : W64) (h : (size ≠ 4 ∧ size ≠ 8) ∨ o % size ≠ 0) :
    s.bar2Write o size v = s := by
  have hd : ¬ (size = 4 ∧ o % 256 = 0) := by rintro ⟨rfl, hd⟩; omega
  have h4 : ¬ (size = 4 ∧ o % 4 = 0) := by rintro ⟨rfl, h4⟩; omega
  have h8 : ¬ (size = 8 ∧ o % 8 = 0) := by rintro ⟨rfl, h8⟩; omega
  simp only [State.bar2Write, Bool.and_eq_true, decide_eq_true_eq, h4, h8, if_false, ite_self]
  exact if_neg fun e => hd ⟨e.1.1, e.2⟩

theorem registerWrite_bar2 (s : State) {off o : Nat} (size : Nat) (v : W64) (h : off = 2 ^ 21 + o) :
    doRegisterWrite off size v s = s.hostAccess.bar2Write o size v := by
  subst h
  simp [doRegisterWrite]

theorem registerWrite_misaligned (s : State) {off size : Nat} (v : W64) (h : (size ≠ 4 ∧ size ≠ 8) ∨ off % size ≠ 0) :
    doRegisterWrite off size v s = s.hostAccess := by
  have h4 : ¬ (size = 4 ∧ off % 4 = 0) := by rintro ⟨rfl, h4⟩; omega
  have h8 : ¬ (size = 8 ∧ off % 8 = 0) := by rintro ⟨rfl, h8⟩; omega
  by_cases hb : 2097152 ≤ off
  · have ho : (size ≠ 4 ∧ size ≠ 8) ∨ (off - 2097152) % size ≠ 0 := by
      by_cases hs : size = 4 ∨ size = 8
      · rcases hs with rfl | rfl <;> omega
      · omega
    simp [doRegisterWrite, hb, bar2Write_misaligned _ v ho]
  · simp [doRegisterWrite, hb, h4, h8]

theorem registerWrite_word (s : State) {off : Nat} (v : W64) (hb : off < 2 ^ 21) (h4 : off % 4 = 0) :
    doRegisterWrite off 4 v s = s.hostAccess.write32 off v.toNat := by
  have hb : ¬ 2097152 ≤ off := by omega
  simp [doRegisterWrite, hb, h4]

theorem registerWrite_double (s : State) {off : Nat} {r : Row} {is : List Nat} (v : W64) (hb : off < 2 ^ 21) (h8 : off % 8 = 0)
    (h : findReg off = some (r, is)) :
    doRegisterWrite off 8 v s = s.hostAccess.busWrite off (fun u =>
      u.writeReg r.reg is off false (if r.wide then v else BitVec.ofNat 64 (v.toNat % 2 ^ 32))) := by
  have hb : ¬ 2097152 ≤ off := by omega
  simp [doRegisterWrite, hb, h8, h]

theorem registerWrite_double_reserved (s : State) {off : Nat} (v : W64) (hb : off < 2 ^ 21) (h8 : off % 8 = 0)
    (h : findReg off = none) : doRegisterWrite off 8 v s = s.hostAccess := by
  have hb : ¬ 2097152 ≤ off := by omega
  simp [doRegisterWrite, hb, h8, h]

/-! ### A 32-bit write (R18) -/

theorem write32_narrow {s : State} {off : Nat} {r : Row} {is : List Nat} (v : Nat) (h : findReg off = some (r, is))
    (hw : r.wide = false) :
    s.write32 off v = s.busWrite off (fun u => u.writeReg r.reg is off false (BitVec.ofNat 64 (v % 2 ^ 32))) := by
  simp [State.write32, h, hw]

theorem write32_low {s : State} {off : Nat} {r : Row} {is : List Nat} (v : Nat) (h : findReg off = some (r, is)) (hw : r.wide = true) :
    s.write32 off v = s.busWrite off (fun u => { u with held := some (off, BitVec.ofNat 64 (v % 2 ^ 32)) }) := by
  simp [State.write32, h, hw]

theorem write32_high_held {s : State} {off : Nat} {r : Row} {is : List Nat} {lo : W64} (v : Nat) (h : findReg off = some (r, is))
    (h8 : off % 8 = 0) (hw : r.wide = true) (hn : findReg (off + 4) = none) (hh : s.held = some (off, lo)) :
    s.write32 (off + 4) v = s.busWrite off (fun u =>
      u.writeReg r.reg is off false (BitVec.ofNat 64 (lo.toNat + v % 2 ^ 32 * 2 ^ 32))) := by
  have h4 : (off + 4) % 8 = 4 := by omega
  simp [State.write32, h, hw, hn, hh, h4]

theorem write32_high_alone {s : State} {off : Nat} {r : Row} {is : List Nat} (v : Nat) (h : findReg off = some (r, is))
    (h8 : off % 8 = 0) (hw : r.wide = true) (hn : findReg (off + 4) = none) (hh : ∀ lo, s.held ≠ some (off, lo)) :
    s.write32 (off + 4) v = s.busWrite off (fun u => u.writeReg r.reg is off true (u.highValue r is off v)) := by
  have h4 : (off + 4) % 8 = 4 := by omega
  simp only [State.write32, hn, Nat.add_sub_cancel, h, h4, hw, decide_true, Bool.and_true, if_true]
  split
  case h_1 o lo ho =>
    have hne : o ≠ off := fun e => hh lo (e ▸ ho)
    rw [if_neg hne]
  case h_2 => rfl

/-- A held half is no part of what a register reads. -/
theorem highValue_held (s : State) (h : Option (Nat × W64)) (r : Row) (is : List Nat) (off v : Nat) :
    ({ s with held := h } : State).highValue r is off v = s.highValue r is off v := rfl

theorem write32_reserved {s : State} {off : Nat} (v : Nat) (hn : findReg off = none) (hp : off % 8 = 0 ∨ findReg (off - 4) = none) :
    s.write32 off v = s := by
  simp only [State.write32, hn]
  split
  case h_1 r is hr =>
    have h8 : off % 8 = 0 := hp.resolve_right (by simp [hr])
    simp [h8]
  case h_2 => rfl

/-! ### Registers that answer, and those that do not -/

theorem writable_hostAccess (s : State) (off : Nat) : Safety.writable s.hostAccess off = Safety.writable s off := rfl

theorem hostAccess_held_none (s : State) :
    ({ s.hostAccess with held := none } : State).hostAccess = ({ s with held := none } : State).hostAccess := rfl

/-- A write through the host's access to a register that answers. -/
theorem busWrite_hostAccess {s : State} {off : Nat} {f : State → State} (h : Safety.writable s off = true) :
    s.hostAccess.busWrite off f = f ({ s with held := none } : State).hostAccess :=
  busWrite_of_writable (s := s.hostAccess) h

/-- One to a register that does not answer: what would be written is of no account (R666, R727). -/
theorem busWrite_unanswered {s : State} {off : Nat} {f : State → State} {r : Row} {is : List Nat} (h : findReg off = some (r, is))
    (ha : Safety.writable s off = false) : s.hostAccess.busWrite off f =
      if s.power.lull ≠ 0 && r.sleeps && !s.regAbsent r is then ({ s with held := none } : State).hostAccess.setRf F.LULL_STAT_ACC [] 1
      else ({ s with held := none } : State).hostAccess := by
  have hr : s.hostAccess.answers r is off true = false := by
    rw [← writable_hostAccess] at ha
    unfold Safety.writable at ha
    simpa only [h] using ha
  unfold State.busWrite
  simp only [h, hr]
  rfl

/-- A 32-bit or 64-bit write of a register comes to a bus write of it. -/
theorem registerWrite_busWrite {s : State} {off size : Nat} {v : W64} {r : Row} {is : List Nat} (hb : off < 2 ^ 21)
    (hs : size = 4 ∨ size = 8) (ha : off % size = 0) (h : findReg off = some (r, is)) :
    ∃ f, doRegisterWrite off size v s = s.hostAccess.busWrite off f := by
  rcases hs with rfl | rfl
  · rw [registerWrite_word s v hb ha]
    cases hw : r.wide
    · exact ⟨_, write32_narrow _ h hw⟩
    · exact ⟨_, write32_low _ h hw⟩
  · exact ⟨_, registerWrite_double s v hb ha h⟩

/-! ### A register of which the spec says no more than its fields -/

/-- A field takes a value that fits it (R19). -/
theorem fld_write_lt {f : Fld} {a x : Nat} (ha : a < 2 ^ f.w) (hx : x < 2 ^ f.w) : f.write a x < 2 ^ f.w := by
  unfold Fld.write
  split
  · split
    · split
      · exact hx
      · exact ha
    · exact hx
  · omega
  · exact Nat.or_lt_two_pow ha hx
  · exact ha

/-- What a write of whole fields gives: each field what its access type makes of its bits, and nothing beside the register. -/
theorem writeFields_whole {s : State} {off : Nat} {r : Row} {is : List Nat} (x : W64) (h : findReg off = some (r, is)) :
    (∀ f ∈ r.flds.flatMap Fld.spread, fget ((s.writeFields off x).reg off) f.lo f.w = f.write (fget (s.reg off) f.lo f.w) (fget x f.lo f.w)) ∧
    (∀ o, o ≠ off → (s.writeFields off x).reg o = s.reg o) ∧ ∃ g, s.writeFields off x = { s with regs := g } := by
  refine ⟨fun f hf => ?_, fun o ho => writeFields_reg_ne s x ho, writeFields_eq s off x⟩
  rw [writeFields_field h (findReg_ok h) hf]
  exact Nat.mod_eq_of_lt (fld_write_lt (fget_lt _ _ _) (fget_lt _ _ _))

/-- The registers named here have no meaning beyond their fields. -/
theorem writeReg_plain (s : State) {r : Reg} (is : List Nat) (off : Nat) (hi : Bool) (v : W64)
    (h : r = .clTrgSrc ∨ r = .plAsym ∨ r = .lullWakeAt ∨ r = .fltTrap ∨ r = .fchainThr ∨ r = .wsCtl ∨ r = .paddockCtl ∨
      r = .clTriginCfg ∨ r = .clTriginDsk) : s.writeReg r is off hi v = s.writeFields off v := by
  rcases h with rfl | rfl | rfl | rfl | rfl | rfl | rfl | rfl | rfl <;> rfl

/-! ### BAR2 (R484, R500) -/

theorem bar2Write_doorbell (s : State) (v : W64) {k : Nat} (hk : k < 64) : s.bar2Write (256 * k) 4 v = s.doorbell k v := by
  have hl : 256 * k < 0x4000 := by omega
  simp [State.bar2Write, hl]

theorem bar2Write_msix (s : State) (v : W64) {k w : Nat} (hk : k < 64) (hw : w < 4) :
    s.bar2Write (0x8000 + 16 * k + 4 * w) 4 v = ({ s with host := { s.host with
      msix := s.host.msix.modify k (fun e => e.write w (fget v 0 32)) } } : State).msiFlush := by
  have hn : ¬ 0x8000 + 16 * k + 4 * w < 0x4000 := by omega
  have hl : 0x8000 ≤ 0x8000 + 16 * k + 4 * w ∧ 0x8000 + 16 * k + 4 * w < 0x8400 := by omega
  have h4 : (0x8000 + 16 * k + 4 * w) % 4 = 0 := by omega
  have hk' : (0x8000 + 16 * k + 4 * w - 0x8000) / 16 = k := by omega
  have hw' : (0x8000 + 16 * k + 4 * w - 0x8000) / 4 % 4 = w := by omega
  simp only [State.bar2Write, State.msixWord, hn, hl, h4, hk', hw', decide_true, decide_false, Bool.and_true, Bool.and_false,
    Bool.false_and, if_true, Bool.false_eq_true, if_false]

theorem bar2Write_elsewhere (s : State) {o : Nat} (size : Nat) (v : W64) (hl : 0x4000 ≤ o) (h : o < 0x8000 ∨ 0x8400 ≤ o) :
    s.bar2Write o size v = s := by
  have hd : ¬ o < 0x4000 := by omega
  have hm : ¬ (0x8000 ≤ o ∧ o < 0x8400) := by omega
  simp [State.bar2Write, hd, hm]

/-- Settles O29: by the width of the write, what lies at its offset, and whether that answers. -/
theorem registerAccess : Obligations.RegisterAccess := by
  refine ⟨?_, ?_, ?_, ?_, ?_, ?_, ?_⟩
  · intro s off size v h
    exact congrArg Host.Outcome.next (registerWrite_misaligned s v h)
  · intro s off size v x r is hb ha h hx hw
    have e : doRegisterWrite off size v s = ({ s with held := none } : State).hostAccess.writeReg r.reg is off false x := by
      rcases hx with ⟨hr, rfl, rfl⟩ | ⟨hr, rfl | rfl, rfl⟩
      · rw [registerWrite_double s _ hb ha h, busWrite_hostAccess hw, if_pos hr]
      · rw [registerWrite_word s v hb ha, write32_narrow _ h hr, busWrite_hostAccess hw]
      · rw [registerWrite_double s v hb ha h, busWrite_hostAccess hw, if_neg (by simp [hr])]
    refine ⟨_, congrArg Host.Outcome.next e, rfl, fun hp => ?_⟩
    rw [writeReg_plain _ is off false x hp]
    obtain ⟨hf, ho, g, hg⟩ := writeFields_whole (s := ({ s with held := none } : State).hostAccess) x h
    refine ⟨hf, ho, ?_, ?_⟩
    · rw [hg]; rfl
    · rw [hg]; rfl
  · intro s off v r is hb h4 h hr hw
    refine congrArg Host.Outcome.next ?_
    rw [registerWrite_word s v hb h4, write32_low _ h hr, busWrite_hostAccess hw]
    rfl
  · intro s off v r is hb h8 h hn hr hw
    have h4 : (off + 4) % 4 = 0 := by omega
    refine ⟨fun lo hl => congrArg Host.Outcome.next ?_, fun hl => congrArg Host.Outcome.next ?_⟩
    · rw [registerWrite_word s v hb h4, write32_high_held (s := s.hostAccess) _ h h8 hr hn hl, busWrite_hostAccess hw]
    · rw [registerWrite_word s v hb h4, write32_high_alone (s := s.hostAccess) _ h h8 hr hn hl, busWrite_hostAccess hw]
      exact congrArg _ (highValue_held s.hostAccess none r is off _)
  · intro s off v hb h
    refine ⟨fun h8 => congrArg Host.Outcome.next ?_, fun h4 hp => congrArg Host.Outcome.next ?_⟩
    · exact registerWrite_double_reserved s v hb h8 h
    · rw [registerWrite_word s v hb h4, write32_reserved _ h hp]
  · intro s off size v r is hb hs ha h hw
    obtain ⟨f, e⟩ := registerWrite_busWrite (s := s) (v := v) hb hs ha h
    exact congrArg Host.Outcome.next (e.trans (busWrite_unanswered h hw))
  · intro s o size v
    refine ⟨fun k hk => congrArg Host.Outcome.next ?_, fun k w hk hw => congrArg Host.Outcome.next ?_,
      fun hl h => congrArg Host.Outcome.next ?_⟩
    · rw [registerWrite_bar2 s 4 v rfl, bar2Write_doorbell _ v hk]
    · have ho : 2 ^ 21 + 0x8000 + 16 * k + 4 * w = 2 ^ 21 + (0x8000 + 16 * k + 4 * w) := by omega
      rw [registerWrite_bar2 s 4 v ho, bar2Write_msix _ v hk hw]
      rfl
    · rw [registerWrite_bar2 s size v rfl, bar2Write_elsewhere _ size v hl h]

end Sys2Proof.Machine
end

