-- ==== Sys2Proof/Proofs/Resets.lean ====
section
namespace Sys2Proof.Machine

/-! SUPPORT. What the resets of the chip leave of the register file (R22, R715, R716, R719), and the statement about them. -/

/-! ### The register file over a reset -/

/-- The register file with the counter of a reset advanced and the classes `p` cleared: in any other register each field is at its
reset value where its class is cleared, else as before (R22). -/
theorem counted_clear_field {s : State} {c : RF} {p : Cls → Bool} {off : Nat} {r : Row} {is : List Nat} {f : Fld}
    (h : findReg off = some (r, is)) (hf : f ∈ r.flds.flatMap Fld.spread) (ho : off ≠ c.off []) :
    fget (((s.incRf c []).clearRegs p (fun _ _ => true)).reg off) f.lo f.w =
      if p f.cls then fget (regReset off) f.lo f.w else fget (s.reg off) f.lo f.w := by
  rw [clearRegs_field h hf, State.incRf, reg_setRf_ne _ _ _ _ ho]
  rfl

theorem satAdd_lt (w v n : Nat) : satAdd w v n < 2 ^ w := by
  have : 0 < 2 ^ w := Nat.two_pow_pos w
  unfold satAdd
  split <;> omega

/-- A counter of a reset that keeps its class counts it (R16). -/
theorem counted_clear_count {s : State} {c : RF} {p : Cls → Bool} {r : Row} {is : List Nat} {f : Fld}
    (h : findReg (c.off []) = some (r, is)) (hf : f ∈ r.flds.flatMap Fld.spread) (hlo : f.lo = c.lo) (hw : f.w = c.w)
    (hp : p f.cls = false) (hb : c.lo + c.w ≤ 64) :
    ((s.incRf c []).clearRegs p (fun _ _ => true)).rf c = satAdd c.w (s.rf c) 1 := by
  have e := clearRegs_field (s := s.incRf c []) (p := p) (q := fun _ _ => true) h hf
  rw [hlo, hw, hp] at e
  have hc : (s.incRf c []).rf c [] = satAdd c.w (s.rf c) 1 := by
    rw [State.incRf, rf_setRf_same _ _ _ _ hb]
    exact Nat.mod_eq_of_lt (satAdd_lt _ _ _)
  exact e.trans hc

/-! ### A CHIP reset (R716) -/

/-- The registers after a CHIP reset. -/
def State.chipRegs (s : State) : State :=
  (s.incRf F.RST_STAT_CHIP_COUNT []).clearRegs (fun x => x == .c || x == .l || x == .v) (fun _ _ => true)

/-- What a CHIP reset leaves, no stronger one being in progress. -/
theorem chipReset_keeps {s : State} (h : s.heldReset = false) (cause : Nat) :
    (s.chipReset cause).regs = s.chipRegs.regs ∧ (s.chipReset cause).mem = s.mem ∧ (s.chipReset cause).dtime = s.dtime ∧
    (s.chipReset cause).fuse = s.fuse ∧ (s.chipReset cause).life.sectors = s.life.sectors ∧
    (s.chipReset cause).host.linkUp = s.host.linkUp := by
  have hc : ¬ s.heldReset = true := by simp [h]
  unfold State.chipReset
  rw [if_neg hc]
  exact ⟨rfl, rfl, rfl, rfl, rfl, rfl⟩

/-- What it ends. -/
theorem chipReset_ends {s : State} (h : s.heldReset = false) (cause : Nat) :
    (s.chipReset cause).sites = [] ∧ (s.chipReset cause).objs = [] ∧ (s.chipReset cause).regions = [] ∧
    (s.chipReset cause).bursts = [] ∧ (s.chipReset cause).acqs = [] ∧ (s.chipReset cause).paddock.tasks = [] ∧
    (s.chipReset cause).host.inflight = [] ∧ (s.chipReset cause).rst.due = true ∧ (s.chipReset cause).rst.cause = cause := by
  have hc : ¬ s.heldReset = true := by simp [h]
  unfold State.chipReset
  rw [if_neg hc]
  exact ⟨rfl, rfl, rfl, rfl, rfl, rfl, rfl, rfl, rfl⟩

theorem findReg_rstStat : findReg (F.RST_STAT_CHIP_COUNT.off []) = some (rowRstStat, []) := rfl

/-- CHIP_COUNT is of class P, which a CHIP reset keeps. -/
theorem chipRegs_count (s : State) : s.chipRegs.rf F.RST_STAT_CHIP_COUNT = satAdd 16 (s.rf F.RST_STAT_CHIP_COUNT) 1 := by
  have hf : { lo := 16, w := 16, acc := .ro, cls := .p } ∈ rowRstStat.flds.flatMap Fld.spread := by decide
  exact counted_clear_count findReg_rstStat hf rfl rfl rfl (by decide)

theorem chipRegs_field {s : State} {off : Nat} {r : Row} {is : List Nat} {f : Fld} (h : findReg off = some (r, is))
    (hf : f ∈ r.flds.flatMap Fld.spread) (ho : off ≠ F.RST_STAT_CHIP_COUNT.off []) :
    fget (s.chipRegs.reg off) f.lo f.w =
      if f.cls = .c ∨ f.cls = .l ∨ f.cls = .v then fget (regReset off) f.lo f.w else fget (s.reg off) f.lo f.w := by
  rw [State.chipRegs, counted_clear_field h hf ho]
  simp only [Bool.or_eq_true, beq_iff_eq, or_assoc]

/-! ### A PIN reset (R715, R719) -/

/-- The registers after a PIN reset. -/
def State.pinRegs (s : State) : State :=
  (s.incRf F.RST_STAT_PIN_COUNT []).clearRegs (fun x => x != .a) (fun _ _ => true)

/-- No COLD reset is in progress that absorbs it. -/
theorem not_coldHeld {s : State} (h : s.heldReset = true → s.rst.cause ≠ 1 ∧ s.rst.cause ≠ 6) :
    ¬ (s.heldReset && (s.rst.cause = 1 || s.rst.cause = 6)) = true := by
  simp only [Bool.and_eq_true, Bool.or_eq_true, decide_eq_true_eq]
  rintro ⟨hr, hk⟩
  exact hk.elim (h hr).1 (h hr).2

theorem doPinReset_keeps {s : State} (h : s.heldReset = true → s.rst.cause ≠ 1 ∧ s.rst.cause ≠ 6) (cause : Nat) :
    (doPinReset cause s).regs = s.pinRegs.regs ∧ (doPinReset cause s).dtime = s.dtime ∧ (doPinReset cause s).fuse = s.fuse ∧
    (doPinReset cause s).life.sectors = s.life.sectors ∧ (doPinReset cause s).host.linkUp = false ∧
    (doPinReset cause s).rst.due = true ∧ (doPinReset cause s).rst.cause = 2 := by
  unfold doPinReset State.pinReset
  rw [if_neg (not_coldHeld h)]
  exact ⟨rfl, rfl, rfl, rfl, rfl, rfl, rfl⟩

theorem doPinReset_ends {s : State} (h : s.heldReset = true → s.rst.cause ≠ 1 ∧ s.rst.cause ≠ 6) (cause : Nat) :
    (doPinReset cause s).sites = [] ∧ (doPinReset cause s).objs = [] ∧ (doPinReset cause s).regions = [] ∧
    (doPinReset cause s).bursts = [] ∧ (doPinReset cause s).paddock.tasks = [] ∧ (doPinReset cause s).host.inflight = [] := by
  unfold doPinReset State.pinReset
  rw [if_neg (not_coldHeld h)]
  exact ⟨rfl, rfl, rfl, rfl, rfl, rfl⟩

theorem doPinReset_resetN {s : State} : (doPinReset 0 s).rst.resetLow = true := rfl

/-- PIN_COUNT lies in the same register as CHIP_COUNT. -/
theorem pinRegs_field {s : State} {off : Nat} {r : Row} {is : List Nat} {f : Fld} (h : findReg off = some (r, is))
    (hf : f ∈ r.flds.flatMap Fld.spread) (ho : off ≠ F.RST_STAT_CHIP_COUNT.off []) :
    fget (s.pinRegs.reg off) f.lo f.w = if f.cls = .a then fget (s.reg off) f.lo f.w else fget (regReset off) f.lo f.w := by
  have ho' : off ≠ F.RST_STAT_PIN_COUNT.off [] := ho
  rw [State.pinRegs, counted_clear_field h hf ho']
  by_cases ha : f.cls = .a <;> simp [ha]

/-! ### The other reset commands -/

/-- RESET_LOOP_CLEAR writes one field (R720). -/
theorem doResetLoopClear_eq {s : State} {t : Nat} (hb : s.bootDone = true) (ht : s.rst.doneAt + 10000000000 ≤ t) :
    doResetLoopClear t s = (s.at t).setRf F.RST_STAT_C_LOOP [] 0 := by
  simp [doResetLoopClear, hb, ht]

/-- Settles O19: a CHIP and a PIN reset by the register file that they leave field by field, and a COLD one by the file it empties. -/
theorem chipResets : Obligations.ChipResets := by
  refine ⟨?_, ?_, ?_, ?_, ?_, ?_⟩
  · intro s v hw hgo hkey hfree
    have e : exec (.chipReset v) s = .next ((({ s with held := none } : State).hostAccess).chipReset 3) := by
      refine congrArg Host.Outcome.next ((busWrite_of_writable hw).trans ?_)
      simp [doChipReset, hgo, hkey]
    have hfree' : ({ s with held := none } : State).hostAccess.heldReset = false := hfree
    obtain ⟨hregs, hmem, hdt, hfuse, hsec, hlink⟩ := chipReset_keeps hfree' 3
    obtain ⟨hsites, hobjs, hregions, hbursts, hacqs, htasks, hfl, hdue, hcause⟩ := chipReset_ends hfree' 3
    refine ⟨_, e, hmem, hdt, hfuse, hsec, hlink, hsites, hobjs, hregions, hbursts, hacqs, htasks, hfl, hdue, hcause, ?_, ?_⟩
    · rw [rf_congr hregs, chipRegs_count]
      rfl
    · intro off r is f h hf ho
      rw [reg_congr hregs, chipRegs_field h hf ho]
      rfl
  · intro s v hw hno
    have hkey : ¬ (fget v 0 1 = 1 && fget v 8 8 = 0xC5) = true := by simpa using hno
    exact congrArg Host.Outcome.next ((busWrite_of_writable hw).trans (if_neg hkey))
  · intro s cause h
    obtain ⟨hregs, hdt, hfuse, hsec, hlink, hdue, hcause⟩ := doPinReset_keeps h cause
    obtain ⟨hsites, hobjs, hregions, hbursts, htasks, hfl⟩ := doPinReset_ends h cause
    refine ⟨_, rfl, hdt, hfuse, hsec, hlink, hsites, hobjs, hregions, hbursts, htasks, hfl, hdue, hcause, ?_, ?_⟩
    · rintro rfl
      exact doPinReset_resetN
    · intro off r is f hr hf ho
      rw [reg_congr hregs, pinRegs_field hr hf ho]
  · intro s cause
    exact ⟨_, rfl, fun off => rfl, rfl, rfl, rfl, rfl, rfl, rfl, rfl, rfl, rfl, rfl, rfl⟩
  · intro s t hb ht
    refine ⟨_, congrArg Host.Outcome.next (doResetLoopClear_eq hb ht), ?_, rfl, fun off ho => ?_, rfl⟩
    · exact rf_setRf_same _ _ _ _ (by decide)
    · rw [reg_setRf_ne _ _ _ _ ho]
      rfl
  · intro s t hp
    refine congrArg Host.Outcome.next ?_
    simp [doPwrgoodRise, hp]

end Sys2Proof.Machine
end

