-- ==== Sys2Proof/Proofs/Bursts.lean ====
section
namespace Sys2Proof.Machine

/-! SUPPORT. How a burst waits, is stopped and ends (R164, R165, R167, R193, R195, R196), and the statement about it. -/

/-! ### The burst on a slice -/

theorem gOf_eq {n sl : Nat} (hn : n < 12) (hsl : sl < 4) : gOf n sl = 4 * n + sl := by
  simp [gOf, hn, hsl]

/-- The burst on a slice is the same at any DTIME. -/
theorem at_cx (s : State) (t g : Nat) : (s.at t).cx g = s.cx g := rfl

/-- It is the same over what a host access ends. -/
theorem hostAccess_cx (s : State) (g : Nat) : ({ s with held := none } : State).hostAccess.cx g = s.cx g := rfl

theorem upSeq_sl_same {s : State} {g : Nat} (f : Seq → Seq) (h : g < s.slices.length) :
    (s.upSeq g f).sl g = { s.sl g with seq := f (s.sl g).seq } :=
  upSl_sl_same _ _ _ h

/-! ### A stop request (R165) -/

/-- A stop request that reaches a slice whose part runs is one on its sequencer alone. -/
theorem stopSlice_running {s : State} {g : Nat} {c : Cx} (t status : Nat) (hc : s.cx g = some c) (hr : c.b.running = true)
    (he : (s.sl g).seq.endAt = none) : s.stopSlice g t status = s.upSeq g (fun q => q.requestStop (2000 * t) status) := by
  simp [State.stopSlice, hc, hr, he]

/-- The sequencer that a stop request reaches first takes its time and status; one reached before takes the earlier time and the higher
status. -/
theorem requestStop_stop {q : Seq} (t status : Nat) (he : q.endAt = none) :
    (q.stop = none → (q.requestStop t status).stop = some (t, status)) ∧
    (∀ t' k, q.stop = some (t', k) → (q.requestStop t status).stop = some (min t' t, max k status)) := by
  unfold Seq.requestStop
  simp only [he]
  refine ⟨fun h => ?_, fun t' k h => ?_⟩
  · simp [h]
  · simp [h, Nat.min_comm]

theorem upSeq_stop_first {s : State} {g : Nat} (t status : Nat) (h : g < s.slices.length) (he : (s.sl g).seq.endAt = none)
    (hs : (s.sl g).seq.stop = none) : ((s.upSeq g (fun q => q.requestStop t status)).sl g).seq.stop = some (t, status) := by
  rw [upSeq_sl_same _ h]
  exact (requestStop_stop t status he).1 hs

theorem requestStop_state {q : Seq} (t status : Nat) (he : q.endAt = none) (hs : q.state = 2) :
    (q.requestStop t status).state = 3 := by
  simp [Seq.requestStop, he, hs]

/-! ### An ABORT of SEQ_CTL (R170) -/

theorem bitList_one_slice : ∀ i < 4, bitList 4 (BitVec.ofNat 64 (2 ^ i)).toNat = [i] := by decide

theorem nCl_le (s : State) : s.nCl ≤ 12 := by
  unfold State.nCl
  split <;> omega

/-- The slices named are stopped in order, at the time of the write. -/
theorem seqCtlAbort_slices {s : State} {n : Nat} (v : W64) (hw : Safety.writable s (F.CL_SEQ_CTL_ABORT.off [n]) = true) (hn : n < s.nCl) :
    exec (.seqCtlAbort n v) s = .next ((bitList 4 v.toNat).foldl (fun s i => s.stopSlice (4 * n + i) s.dtime St.aborted)
      ({ s with held := none } : State).hostAccess) := by
  refine congrArg Host.Outcome.next ((busWrite_of_writable hw).trans ?_)
  have hcl : ¬ ({ s with held := none } : State).hostAccess.nCl ≤ n := Nat.not_le.mpr hn
  have hn12 : n < 12 := Nat.lt_of_lt_of_le hn (nCl_le s)
  unfold doSeqCtlAbort
  rw [if_neg hcl]
  refine List.foldl_ext _ _ _ fun u i hi => ?_
  have hi4 : i < 4 := List.mem_range.mp (List.mem_of_mem_filter hi)
  rw [gOf_eq hn12 hi4]

/-! ### A wait in admission -/

/-- The scan ends at an aged burst that does not fit (R195). -/
theorem scanLoop_aged {s : State} {b : Burst} {o : Obj} (r : List Burst) (ho : kGet s.objs b.obj = some o) (hu : o.unloading = false)
    (hf : s.fitFails o (s.planParts s.cache o b.ent).1 ≠ []) (ha : s.aged b = true) : scanLoop (b :: r) s = s := by
  simp [scanLoop, ho, hu, hf, ha]

theorem foldl_upMc (f : State → Nat → Mc → Mc) (l : List Nat) (s : State) :
    ∃ m, l.foldl (fun s k => s.upMc k (f s k)) s = { s with mcs := m } := by
  induction l generalizing s with
  | nil => exact ⟨s.mcs, rfl⟩
  | cons k l ih => exact ih (s.upMc k (f s k))

theorem foldl_upSeq (f : Seq → Seq) (l : List Nat) (s : State) : ∃ x, l.foldl (fun s g => s.upSeq g f) s = { s with slices := x } := by
  induction l generalizing s with
  | nil => exact ⟨s.slices, rfl⟩
  | cons k l ih => exact ih (s.upSeq k f)

/-- Mirroring a burst touches the links and what is sent on them alone. -/
theorem mirrorBurst_eq (s : State) (b : Burst) (gone : Bool) :
    ∃ l o p, s.mirrorBurst b gone = { s with links := l, out := o, pair := p } := by
  unfold State.mirrorBurst State.mirror
  split
  · obtain ⟨l, o, p, h, -⟩ := tether_eq s _
    exact ⟨l, o, p, h⟩
  · exact ⟨_, _, _, rfl⟩

/-- A burst released leaves the list of bursts, and gives back cache space and channels (R192, R204). -/
theorem release_eq (s : State) (b : Burst) : ∃ c m l o p, s.release b = { s with
    bursts := s.bursts.filter (fun x => !(x.ent == b.ent)), cache := c, mcs := m, links := l, out := o, pair := p } := by
  unfold State.release
  extract_lets s0 s1
  obtain ⟨m, hm⟩ := foldl_upMc (fun s _ c => { c with idleSince := s.dtime }) (((kGet s0.objs b.obj).map Obj.chans).getD []) s0
  have h1 : s1 = { s0 with mcs := m } := hm
  rw [h1]
  split
  · obtain ⟨l, o, p, h⟩ := mirrorBurst_eq { s0 with mcs := m } b true
    exact ⟨_, _, _, _, _, h⟩
  · exact ⟨_, _, _, _, _, rfl⟩

/-- XHOLD: the part gives up what it reserved and queues again (R196). -/
theorem doXholdExpiry_eq {s : State} {isGroup : Bool} {id t : Nat} {b : Burst} (hb : s.burst (entOf isGroup id) = some b)
    (ha : b.admitted = true) (hr : b.running = false) (hx : (s.entX (entOf isGroup id)).isSome = true) (hs : b.startAt = none)
    (hf : b.fin = none) (ht : b.admittedAt + 10000 * max 1 (s.rf F.ADM_CTL_XHOLD) ≤ t) :
    ∃ u : State, doXholdExpiry isGroup id t s = u.scan ∧ u.bursts = s.bursts.filter (fun x => !(x.ent == b.ent)) ++
        [{ b with admitted := false, waited := true, parts := [], ready := b.ready.filter (fun p => p ≠ s.pos) }] ∧
      u.mem = s.mem ∧ u.dtime = (s.at t).dtime := by
  have hlt : ¬ t < b.admittedAt + 10000 * max 1 (s.rf F.ADM_CTL_XHOLD) := Nat.not_lt.mpr ht
  have hx' : (s.entX (entOf isGroup id)).isNone = false := by simpa using hx
  unfold doXholdExpiry
  simp only [hb, ha, hr, hx', hs, hf, hlt, Bool.not_true, Option.isSome_none, Bool.or_false, decide_false, Bool.false_eq_true, if_false]
  obtain ⟨c, m, l, o, p, hrel⟩ := release_eq (s.at t) b
  obtain ⟨x, hsl⟩ := foldl_upSeq (fun q => { hold := q.hold, state := if q.hold then 4 else 0, started := q.started })
    (((s.at t).release b).entSlices (entOf isGroup id)) ((s.at t).release b)
  rw [hsl, hrel]
  exact ⟨_, rfl, rfl, rfl, rfl⟩

/-! ### A vector starts, or the part ends (R164, R223) -/

/-- The slice has a vector that is formed, or something that ends its part before one is. -/
def Seq.formed (q : Seq) : Bool :=
  !(q.queue.isEmpty && !q.ended && !q.fault.any (fun f => f.1 = q.next) && !q.late && !q.stopDue)

section
variable {s s0 u : State} {n sl g : Nat} {smp : List Sample} {c : Cx} {q : Seq} (hn : n < 12) (hsl : sl < 4) (hg : g = 4 * n + sl)
  (h0 : s0 = if (s.sl g).seq.state = 2 then s.boundaryXoff else s) (hc : s0.cx g = some c) (hr : c.b.running = true)
  (hq : q = (s0.sl g).seq) (hst : q.state = 2 ∨ q.state = 3) (he : q.endAt = none) (hu : u = s0.at (q.time / 2000))
include hn hsl hg h0 hc hr hq hst he hu

/-- On a slice whose part runs a vector start does one of three things. -/
theorem doVectorStart_running : doVectorStart n sl smp s =
    if q.formed = false then s0
    else match u.endCause c n q with
      | some x => u.endPart g c x
      | none => match q.queue with
        | [] => u
        | r :: rest => ((u.applyVector g c r rest smp).markEdges g c.b.ent q.time r.mark).settleEnd g := by
  have hrun : (!c.b.running || (q.state ≠ 2 && q.state ≠ 3) || q.endAt.isSome) = false := by
    rcases hst with h | h <;> simp [hr, h, he]
  unfold doVectorStart
  rw [gOf_eq hn hsl, ← hg]
  dsimp only
  rw [← h0, hc]
  dsimp only
  rw [← hq, ← hu, if_neg (Bool.eq_false_iff.mp hrun)]
  unfold Seq.formed
  simp only [Bool.not_eq_false'] <;> rfl

theorem doVectorStart_ends {x : EndAt} (hf : q.formed = true) (hx : u.endCause c n q = some x) :
    doVectorStart n sl smp s = u.endPart g c x := by
  rw [doVectorStart_running hn hsl hg h0 hc hr hq hst he hu, if_neg (by simp [hf]), hx]

theorem doVectorStart_starts {r : Run} {rest : List Run} (hx : u.endCause c n q = none) (hv : q.queue = r :: rest) :
    doVectorStart n sl smp s = ((u.applyVector g c r rest smp).markEdges g c.b.ent q.time r.mark).settleEnd g := by
  have hf : q.formed = true := by simp [Seq.formed, hv]
  rw [doVectorStart_running hn hsl hg h0 hc hr hq hst he hu, if_neg (by simp [hf]), hx, hv]

theorem doVectorStart_waits (hf : q.formed = false) : doVectorStart n sl smp s = s0 := by
  rw [doVectorStart_running hn hsl hg h0 hc hr hq hst he hu, if_pos hf]

end

theorem formed_of {q : Seq} (h : q.queue ≠ [] ∨ q.ended = true ∨ q.late = true ∨ q.stopDue = true ∨ ∃ k, q.fault = some (q.next, k)) :
    q.formed = true := by
  rcases h with h | h | h | h | ⟨k, h⟩ <;> simp [Seq.formed, h]

/-! ### A burst is over (R167) -/

section
variable {s : State} {isGroup : Bool} {id : Nat} {b : Burst} (hb : s.burst (entOf isGroup id) = some b)
include hb

/-- A burst whose parts have all ended, with its records written. -/
theorem doBurstComplete_ended {ends : List EndAt} (ha : b.admitted = true) (hf : b.running = true ∨ b.fin = none)
    (hends : ends = (s.entSlices (entOf isGroup id)).filterMap (fun g => (s.sl g).seq.endAt)) (hne : ends ≠ [])
    (hlen : ends.length = (s.entSlices (entOf isGroup id)).length) (hd : s.drained (entOf isGroup id) = true)
    (hx : s.entX (entOf isGroup id) = none ∨ s.endTime (entOf isGroup id) + 1600 ≤ s.dtime) (hbal : s.ballastOn = false) :
    doBurstComplete isGroup id s =
      (if b.running = true then s.at (s.endTime (entOf isGroup id)) else s).finishBurst b (joinEnds ends) := by
  have hfin : (!b.running && b.fin.isSome) = false := by rcases hf with h | h <;> simp [h]
  have hwait : ((s.entX (entOf isGroup id)).isSome && decide (s.dtime < s.endTime (entOf isGroup id) + 1600)) = false := by
    rcases hx with h | h
    · simp [h]
    · simp [Nat.not_lt.mpr h]
  have hemp : ends.isEmpty = false := by simpa using hne
  unfold entOf at *
  unfold doBurstComplete
  simp only [hb, ← hends, hfin, ha, hemp, hlen, hd, hwait, hbal, ne_eq, not_true_eq_false, decide_false, Bool.not_true, Bool.not_false,
    Bool.or_false, Bool.and_true, Bool.and_false, Bool.false_eq_true, if_false]

/-- One that starts nothing. -/
theorem doBurstComplete_unstarted {x : EndAt} (hr : b.running = false) (hf : b.fin = some x) (hx : s.entX (entOf isGroup id) = none) :
    doBurstComplete isGroup id s = s.finishBurst b (joinEnds [x]) := by
  unfold entOf at *
  unfold doBurstComplete
  simp [hb, hr, hf, hx]

end

/-- Settles O45: each command by the branch that its conditions take. -/
theorem burstsProceed : Obligations.BurstsProceed := by
  refine ⟨?_, ?_, ?_, ?_, ?_, ?_, ?_, ?_, ?_, ?_⟩
  · intro s isGroup id t due b hb ha hf hd hle
    refine ⟨_, (s.at t).incRf F.ADM_STAT_DENIED [], rfl, rfl, ?_, ?_, rfl⟩
    · simp [doAdmWaitExpiry, hb, ha, hf, hd, hle]
    · rw [State.incRf, rf_setRf_same _ _ _ _ (by decide)]
      exact Nat.mod_eq_of_lt (satAdd_lt _ _ _)
  · intro s isGroup id t b hb ha hf hag
    refine congrArg Host.Outcome.next ?_
    simp [doAgeLimitExpiry, hb, ha, hf, hag]
  · intro s b o r ho hu hf ha
    exact scanLoop_aged r ho hu hf ha
  · intro s isGroup id t e b he hb ha hr hx hs hf ht
    subst he
    obtain ⟨u, e, hbursts, hmem, hdt⟩ := doXholdExpiry_eq hb ha hr hx hs hf ht
    exact ⟨_, u, rfl, e, hbursts, hmem, hdt⟩
  · intro s n sl status t g c hn hsl hg hc hr he hsh
    have hlen : g < s.slices.length := by
      rw [hsh.2.1]
      omega
    refine ⟨fun hk => ?_, fun hk => ?_⟩
    · have e : doStopRequest n sl status t s = (s.at t).upSeq g (fun q => q.requestStop (2000 * t) status) := by
        unfold doStopRequest
        rw [if_pos hk, gOf_eq hn hsl, ← hg]
        exact stopSlice_running (s := s.at t) t status ((at_cx s t g).trans hc) hr he
      have hsame : ((s.at t).upSeq g (fun q => q.requestStop (2000 * t) status)).sl g =
          { s.sl g with seq := (s.sl g).seq.requestStop (2000 * t) status } := upSeq_sl_same _ hlen
      obtain ⟨hfirst, hjoin⟩ := requestStop_stop (2000 * t) status he
      refine ⟨_, congrArg Host.Outcome.next e, ?_, ?_, ?_, fun k hk => upSl_sl_ne _ _ hk, rfl, rfl⟩
      · rw [hsame]
        exact hfirst
      · rw [hsame]
        exact hjoin
      · rw [hsame]
        exact requestStop_state _ _ he
    · exact congrArg Host.Outcome.next (if_neg (by simp [hk]))
  · intro s n sl g c hw hn hn12 hsl hg hc hr he hs hsh
    have hlen : g < s.slices.length := by
      rw [hsh.2.1]
      omega
    have e := seqCtlAbort_slices (BitVec.ofNat 64 (2 ^ sl)) hw hn
    rw [bitList_one_slice sl hsl, List.foldl_cons, List.foldl_nil, ← hg,
      stopSlice_running (s := ({ s with held := none } : State).hostAccess) _ _ ((hostAccess_cx s g).trans hc) hr he] at e
    refine ⟨_, e, ?_, fun k hk => upSl_sl_ne _ _ hk, rfl, rfl, rfl⟩
    exact upSeq_stop_first (s := ({ s with held := none } : State).hostAccess) _ _ hlen he hs
  · intro s n v hw hn
    exact seqCtlAbort_slices v hw hn
  · intro s s0 u n sl g smp c q hn hsl hg h0 hc hr hq hst he hu
    refine ⟨fun x hf hx => congrArg Host.Outcome.next ?_, fun r rest hx hv => congrArg Host.Outcome.next ?_,
      fun hv hend hfault hlate hdue => congrArg Host.Outcome.next ?_⟩
    · exact doVectorStart_ends hn hsl hg h0 hc hr hq hst he hu (formed_of hf) hx
    · exact doVectorStart_starts hn hsl hg h0 hc hr hq hst he hu hx hv
    · have hf : q.formed = false := by simp [Seq.formed, hv, hend, hfault, hlate, hdue]
      exact doVectorStart_waits hn hsl hg h0 hc hr hq hst he hu hf
  · intro s isGroup id e b ends he hb ha hf hends hne hlen hd hx hbal
    subst he
    exact ⟨_, _, congrArg Host.Outcome.next (doBurstComplete_ended hb ha hf hends hne hlen hd hx hbal), rfl, rfl, rfl⟩
  · intro s isGroup id b x hb hr hf hx
    exact congrArg Host.Outcome.next (doBurstComplete_unstarted hb hr hf hx)

end Sys2Proof.Machine
end

namespace Sys2Proof.Machine

/-! SUPPORT. What leaves the bursts as they were, and how a burst is submitted, admitted and started (R163, R188-R193, R584). -/

/-! ### The bursts of a state

No send, memory error, region, acquisition or trigger unit adds a burst, ends one or changes one. -/

@[simp] theorem bursts_ite (c : Prop) [Decidable c] (a b : State) : (if c then a else b).bursts = if c then a.bursts else b.bursts :=
  apply_ite _ _ _ _

@[simp] theorem bursts_foldl {β : Type} {f : State → β → State} (h : ∀ a x, (f a x).bursts = a.bursts) (l : List β) (s : State) :
    (l.foldl f s).bursts = s.bursts := foldl_keep State.bursts f h l s

@[simp] theorem queueEvent_bursts (s : State) (e : Event) : (s.queueEvent e).bursts = s.bursts := (sends_queueEvent s e).bursts
@[simp] theorem health_bursts (s : State) (a b c d e : Nat) : (s.health a b c d e).bursts = s.bursts := (sends_health s a b c d e).bursts
@[simp] theorem log_bursts (s : State) (typ : Nat) (data : List Byte) : (s.log typ data).bursts = s.bursts := by
  unfold State.log
  simp
@[simp] theorem degrade_bursts (s : State) (kind island unit : Nat) : (s.degrade kind island unit).bursts = s.bursts := by
  unfold State.degrade
  simp
@[simp] theorem send_bursts (s : State) (n : Nat) (p : PlPacket) : (s.send n p).bursts = s.bursts := by
  obtain ⟨l, o, h⟩ := send_eq s n p
  rw [h]
@[simp] theorem tether_bursts (s : State) (i : MItem) : (s.tether i).bursts = s.bursts := by
  obtain ⟨l, o, p, h, -⟩ := tether_eq s i
  rw [h]
@[simp] theorem mirror_bursts (s : State) (i : MItem) : (s.mirror i).bursts = s.bursts := by
  unfold State.mirror
  simp
@[simp] theorem unprotect_bursts (s : State) (r : Region) (i : CapItem) : (s.unprotect r i).bursts = s.bursts := by
  unfold State.unprotect
  simp
@[simp] theorem mirrorCap_bursts (s : State) (r : Region) (i : CapItem) (off : Nat) (bs : List Byte) :
    (s.mirrorCap r i off bs).bursts = s.bursts := by
  unfold State.mirrorCap
  simp

@[simp] theorem loseObjects_bursts (s : State) (m : Nat) : (s.loseObjects m).bursts = s.bursts := by
  unfold State.loseObjects
  simp [State.dropLinks, State.freeCopies]
@[simp] theorem retireChannel_bursts (s : State) (m : Nat) : (s.retireChannel m).bursts = s.bursts := by
  unfold State.retireChannel
  have cut : ∀ (l : List Nat) (u : State), (l.foldl (fun s g => s.cutSlice g 0 St.hwFault) u).bursts = u.bursts :=
    bursts_foldl fun _ _ => rfl
  simp [cut, State.placementChanged]
@[simp] theorem candidate_bursts (s : State) (m : Nat) (br : Nat × Nat) : (s.candidate m br).bursts = s.bursts := by
  unfold State.candidate
  simp
@[simp] theorem countRow_bursts (s : State) (m : Nat) (br : Nat × Nat) : (s.countRow m br).bursts = s.bursts := by
  unfold State.countRow
  simp
@[simp] theorem logDetect_bursts (s : State) (d : Detect) : (s.logDetect d).bursts = s.bursts := by
  unfold State.logDetect
  dsimp only
  (repeat' split) <;> rfl
@[simp] theorem detected_bursts (s : State) (d : Detect) : (s.detected d).bursts = s.bursts := by
  unfold State.detected State.memError
  simp
theorem bursts_of_useInjection {s t : State} {a : Nat} {c : Bool} (h : s.useInjection a = some (c, t)) : t.bursts = s.bursts := by
  unfold State.useInjection at h
  split at h
  · split at h
    · cases h; rfl
    · cases h
  · cases h
@[simp] theorem mergeRead_bursts (s : State) (addr req access : Nat) (ue : Bool) : (s.mergeRead addr req access ue).bursts = s.bursts := by
  unfold State.mergeRead
  split
  · simp
  · split
    next h => simp [bursts_of_useInjection h]
    · rfl
@[simp] theorem writeHeader_bursts (s : State) (id : Nat) (ue : Bool) : (s.writeHeader id ue).bursts = s.bursts := by
  unfold State.writeHeader
  split
  · rfl
  · simp [State.placementChanged]

@[simp] theorem settleChains_bursts (s : State) (e t : Nat) : (s.settleChains e t).bursts = s.bursts := by
  unfold State.settleChains State.growChain
  exact bursts_foldl (by intros; rfl) _ _
@[simp] theorem resplit_bursts (s : State) (e : Nat) : (s.resplit e).bursts = s.bursts := by
  refine bursts_foldl (fun a i => ?_) _ _
  dsimp only
  split <;> rfl
@[simp] theorem reshare_bursts (s : State) (ks : List Nat) (t : Nat) (f : FChain → FChain) : (s.reshare ks t f).bursts = s.bursts := by
  unfold State.reshare
  have changes (u : State) : (ks.foldl (fun s k => s.upChain k f) u).bursts = u.bursts := bursts_foldl (by intros; rfl) _ _
  simp [changes]
@[simp] theorem startAcq_bursts (s : State) (site t : Nat) : (s.startAcq site t).bursts = s.bursts := by
  unfold State.startAcq
  split
  · rfl
  · simp [State.upAcq]
@[simp] theorem armBurst_bursts (s : State) (e : Ent) (t : Nat) : (s.armBurst e t).bursts = s.bursts := by
  refine bursts_foldl (fun a k => ?_) _ _
  unfold State.armTrig
  simp
@[simp] theorem freezeChains_bursts (s : State) (e : Ent) (on : Bool) : (s.freezeChains e on).bursts = s.bursts := by
  unfold State.freezeChains
  exact bursts_foldl (by intros; rfl) _ _

@[simp] theorem setChCounts_bursts (s : State) (x : Site) (l : List Nat) : (s.setChCounts x l).bursts = s.bursts := by
  unfold State.setChCounts
  exact bursts_foldl (by intros; rfl) _ _
@[simp] theorem resetResult_bursts (s : State) (x : Site) (b : Burst) : (s.resetResult x b).bursts = s.bursts := by
  unfold State.resetResult
  simp [State.upRes]
@[simp] theorem restoreResult_bursts (s : State) (x : Site) (b : Burst) (k : Ckpt) : (s.restoreResult x b k).bursts = s.bursts := by
  unfold State.restoreResult
  simp [State.upRes]
@[simp] theorem startRegions_bursts (s : State) (x : Site) (b : Burst) : (s.startRegions x b).bursts = s.bursts := by
  unfold State.startRegions
  dsimp only
  (repeat' split) <;> rfl

/-! ### The burst of a site or group -/

/-- A change of a site's or group's burst changes what is read of it. -/
theorem upBurst_burst {s : State} {e : Ent} {b : Burst} {f : Burst → Burst} (hb : s.burst e = some b) (hf : (f b).ent = b.ent) :
    (s.upBurst e f).burst e = some (f b) := by
  unfold State.burst State.upBurst at *
  dsimp only
  generalize s.bursts = l at *
  induction l with
  | nil => simp at hb
  | cons x l ih =>
    by_cases hx : x.ent = e
    · have hxb : x = b := by simpa [hx] using hb
      subst hxb
      simp [hx, hf]
    · have hl : l.find? (fun y => y.ent == e) = some b := by simpa [hx] using hb
      simpa [hx] using ih hl

/-- What is fixed once a burst starts: whose it is, what it runs, that it runs, and since when. -/
def Burst.launch (b : Burst) : Ent × Nat × Bool × Nat := (b.ent, b.obj, b.running, b.startStamp)

/-- That of every burst of a state. -/
def State.launches (s : State) : List (Ent × Nat × Bool × Nat) := s.bursts.map Burst.launch

theorem launches_congr {s t : State} (h : t.bursts = s.bursts) : t.launches = s.launches := congrArg (List.map Burst.launch) h

theorem launches_foldl {β : Type} {f : State → β → State} (h : ∀ a x, (f a x).launches = a.launches) (l : List β) (s : State) :
    (l.foldl f s).launches = s.launches := foldl_keep State.launches f h l s

theorem launches_upBurst_congr (s : State) (e : Ent) {f g : Burst → Burst} (h : ∀ b, (f b).launch = (g b).launch) :
    (s.upBurst e f).launches = (s.upBurst e g).launches := by
  simp only [State.launches, State.upBurst, List.map_map]
  refine List.map_congr_left fun b _ => ?_
  simp only [Function.comp_apply]
  split
  · exact h b
  · rfl

theorem launches_upBurst (s : State) (e : Ent) {f : Burst → Burst} (h : ∀ b, (f b).launch = b.launch) :
    (s.upBurst e f).launches = s.launches :=
  (launches_upBurst_congr s e (g := id) h).trans (launches_congr (by simp [State.upBurst]))

theorem burst_of_launches {s t : State} {e : Ent} {b : Burst} (h : t.launches = s.launches) (hb : s.burst e = some b) :
    ∃ b', t.burst e = some b' ∧ b'.launch = b.launch := by
  have find (u : State) : (u.burst e).map Burst.launch = u.launches.find? (fun x => x.1 == e) := by
    rw [State.launches, List.find?_map]
    rfl
  have ht : (t.burst e).map Burst.launch = some b.launch := by rw [find t, h, ← find s, hb]; rfl
  simpa using ht

/-! ### The start of a burst on its slices -/

theorem launches_loseRecord (s : State) (site region : Nat) : (s.loseRecord site region).launches = s.launches :=
  launches_upBurst _ _ fun _ => rfl

theorem launches_reduce (s : State) (g : Nat) (e : Ent) (sites : List Nat) (v : Nat) : (s.reduce g e sites v).launches = s.launches :=
  (launches_foldl (by intros; rfl) _ _).trans (launches_upBurst _ _ fun _ => rfl)

theorem launches_pushRec (s : State) (g : Nat) (e : Ent) (site v : Nat) (bs : List Byte) : (s.pushRec g e site v bs).launches = s.launches := by
  unfold State.pushRec
  split
  · rfl
  · dsimp only
    split
    · exact (launches_reduce _ _ _ _ _).trans (launches_loseRecord _ _ _)
    · rfl

theorem launches_restoreSlice (s : State) (g : Nat) (c : Cx) (k : Ckpt) (t : Nat) : (s.restoreSlice g c k t).launches = s.launches := by
  unfold State.restoreSlice
  dsimp only
  refine (launches_foldl (fun a i => ?_) _ _).trans (launches_congr ?_)
  · exact launches_pushRec _ _ _ _ _ _
  · simp [State.setSiteMask, State.setSliceCounts]

/-- The sequencer of a slice that starts its first vector at a time (R163). -/
def Seq.atStart (q : Seq) (t stamp : Nat) : Seq := { q with state := 2, time := t, grid := t, startStamp := stamp, segs := [] }

theorem sends_setCkptReg (s : State) (g : Nat) (k : Option Ckpt) : Sends s (s.setCkptReg g k) := by
  cases k <;> exact ((sends_setRf _ _ _ _).trans (sends_setRf _ _ _ _)).trans (sends_setRf _ _ _ _)

theorem sends_setSliceCounts (s : State) (g n : Nat) (first last : Option Nat) : Sends s (s.setSliceCounts g n first last) :=
  ((((sends_setRf _ _ _ _).trans (sends_setRf _ _ _ _)).trans (sends_setRf _ _ _ _)).trans (sends_setRf _ _ _ _)).trans (sends_setRf _ _ _ _)

/-- A slice counter that is set reads back: its register is not the first or last fail's (R309, R310). -/
theorem setSliceCounts_fails (s : State) (g n : Nat) (first last : Option Nat) (hn : n < 2 ^ 48) :
    (s.setSliceCounts g n first last).rf F.CL_CMP_FAIL_FAIL_VECS [g / 4, g % 4] = n := by
  have off (f : RF) (h : f.base ≠ 0x10520 ∧ f.st = [65536, 8]) : F.CL_CMP_FAIL_FAIL_VECS.off [g / 4, g % 4] ≠ f.off [g / 4, g % 4] := by
    simp only [RF.off, h.2, F.CL_CMP_FAIL_FAIL_VECS]
    omega
  unfold State.setSliceCounts
  dsimp only
  rw [rf_setRf_ne _ _ _ _ _ _ (off _ (by decide)), rf_setRf_ne _ _ _ _ _ _ (off _ (by decide)), rf_setRf_ne _ _ _ _ _ _ (off _ (by decide)),
    rf_setRf_ne _ _ _ _ _ _ (off _ (by decide)), rf_setRf_same _ _ _ _ (by decide)]
  exact Nat.mod_eq_of_lt hn

theorem foldl_clusters {β : Type} {f : State → β → State} (h : ∀ a x, ∃ c, f a x = { a with clusters := c }) (l : List β) (s : State) :
    ∃ c, l.foldl f s = { s with clusters := c } := by
  induction l generalizing s with
  | nil => exact ⟨s.clusters, rfl⟩
  | cons x r ih =>
    obtain ⟨c, hc⟩ := h s x
    obtain ⟨c', hr⟩ := ih (f s x)
    exact ⟨c', by rw [List.foldl_cons, hr, hc]⟩

/-- Bringing the capture credit of a cluster's slices to a time touches the clusters alone (R291). -/
theorem settleCredit_eq (s : State) (n t : Nat) : ∃ c, s.settleCredit n t = { s with clusters := c } :=
  foldl_clusters (fun _ _ => ⟨_, rfl⟩) _ _

/-- From a burst's vector 0, the start of slice g is one of its sequencer, its cluster and registers alone, and its slice counters are 0. -/
theorem startSlice_fresh {s : State} {g t : Nat} {c : Cx} (hc : s.cx g = some c) (hr : c.b.restart = none) :
    (∃ cl, Sends { s.upSeq g (fun q => q.atStart t (s.scaled t / 2000)) with clusters := cl } (s.startSlice g t)) ∧
    (s.startSlice g t).rf F.CL_CMP_FAIL_FAIL_VECS [g / 4, g % 4] = 0 := by
  obtain ⟨cl, hcl⟩ := settleCredit_eq s (g / 4) t
  unfold State.startSlice
  simp only [hc, hr, hcl]
  exact ⟨⟨_, ((sends_setRf _ _ _ _).trans (sends_setCkptReg _ _ _)).trans (sends_setSliceCounts _ _ _ _ _)⟩,
    setSliceCounts_fails _ _ _ _ _ (by decide)⟩

@[simp] theorem upCap_bursts (s : State) (g : Nat) (f : CapSlice → CapSlice) : (s.upCap g f).bursts = s.bursts := rfl
@[simp] theorem settleCredit_bursts (s : State) (n t : Nat) : (s.settleCredit n t).bursts = s.bursts := by
  obtain ⟨c, h⟩ := settleCredit_eq s n t
  rw [h]
@[simp] theorem setSliceCounts_bursts (s : State) (g n : Nat) (a b : Option Nat) : (s.setSliceCounts g n a b).bursts = s.bursts :=
  (sends_setSliceCounts _ _ _ _ _).bursts
@[simp] theorem setCkptReg_bursts (s : State) (g : Nat) (k : Option Ckpt) : (s.setCkptReg g k).bursts = s.bursts :=
  (sends_setCkptReg _ _ _).bursts

theorem launches_startSlice (s : State) (g t : Nat) : (s.startSlice g t).launches = s.launches := by
  unfold State.startSlice
  split
  · rfl
  · extract_lets n s1 shift s2 s3
    have h1 : s1.launches = s.launches := launches_congr ((upSeq_bursts _ _ _).trans (settleCredit_bursts _ _ _))
    have h2 : s2.launches = s1.launches := launches_congr (upCap_bursts _ _ _)
    have h3 : s3.launches = s2.launches := launches_congr ((setCkptReg_bursts _ _ _).trans (setRf_bursts _ _ _ _))
    have h : s3.launches = s.launches := h3.trans (h2.trans h1)
    split
    · exact (launches_congr (setSliceCounts_bursts _ _ _ _ _)).trans h
    · exact (launches_restoreSlice _ _ _ _ _).trans h

/-! ### The start of a burst -/

/-- A burst that starts at time t runs from then, and no other burst's launch changes. -/
theorem startBurst_launches {s : State} {e : Ent} {b : Burst} (t : Nat) (hb : s.burst e = some b) : (s.startBurst e t).launches =
    (s.upBurst e (fun x => { x with running := true, startStamp := s.scaled t / 2000 })).launches := by
  unfold State.startBurst
  split
  next h => cases hb.symm.trans h
  next b' h =>
  cases hb.symm.trans h
  extract_lets fresh seed s1 s2 s3 r s4 s5 again s5' s6 s7
  have h1 : s1.launches = (s.upBurst e (fun x => { x with running := true, startStamp := s.scaled t / 2000 })).launches :=
    launches_upBurst_congr s e fun _ => rfl
  have h2 : s2.launches = s1.launches := by
    refine launches_foldl (fun a x => launches_congr ?_) _ _
    split <;> simp
  have h3 : s3.launches = s2.launches := launches_foldl (fun a g => launches_startSlice a g t) _ _
  have h4 : s4.launches = s3.launches := by
    refine launches_congr ?_
    unfold s4
    split <;> simp
  have h5 : s5.launches = s4.launches := launches_congr (freezeChains_bursts _ _ _)
  rw [← h1, ← h2, ← h3, ← h4, ← h5]
  refine launches_congr ?_
  have h5' : s5'.bursts = s5.bursts := by
    unfold s5'
    split <;> rfl
  have h6 : s6.bursts = s5'.bursts := bursts_foldl (fun a x => by split <;> simp) _ _
  have h7 : s7.bursts = s6.bursts := bursts_foldl (by intros; rfl) _ _
  split
  · rfl
  · split
    · exact armBurst_bursts _ _ _
    · rw [armBurst_bursts, h7, h6, h5']

/-- A burst that starts at time t runs, since t on the time scale. -/
theorem startBurst_runs {s : State} {e : Ent} {b : Burst} (t : Nat) (hb : s.burst e = some b) :
    ∃ b', (s.startBurst e t).burst e = some b' ∧ b'.running = true ∧ b'.startStamp = s.scaled t / 2000 ∧ b'.obj = b.obj := by
  obtain ⟨b', hb', hl⟩ := burst_of_launches (startBurst_launches t hb)
    (upBurst_burst (f := fun x => { x with running := true, startStamp := s.scaled t / 2000 }) hb rfl)
  simp only [Burst.launch, Prod.mk.injEq] at hl
  obtain ⟨-, hobj, hrun, hstamp⟩ := hl
  exact ⟨b', hb', hrun, hstamp, hobj⟩

/-- The DTIME of a start on the time scale is that DTIME on the chip's own (R587). -/
theorem scaled_start {s : State} {n : Nat} (h : s.ringT.xoff ≤ (2000 * n : Int)) :
    s.scaled ((2000 * n : Int) - s.ringT.xoff).toNat / 2000 = n := by
  unfold State.scaled
  omega

section
variable {s : State} {isGroup : Bool} {id : Nat} {b : Burst} (t : Nat) (hb : s.burst (entOf isGroup id) = some b)
  (ha : b.admitted = true) (hr : b.running = false) (hf : b.fin = none) (hfill : s.filled (entOf isGroup id) = true)
  (hisl : ∀ g ∈ s.entSlices (entOf isGroup id), s.islUp (g / 4) = true) (hapg : b.apgUnit = none ∨ s.islUp 27 = true)

include ha hr hf hfill hisl hapg in
/-- Nothing holds back the start of an admitted, filled burst whose islands are up. -/
theorem burst_may_start : (!b.admitted || b.running || b.fin.isSome || !s.filled (entOf isGroup id) ||
    !(s.entSlices (entOf isGroup id)).all (fun g => s.islUp (g / 4)) || (b.apgUnit.isSome && !s.islUp 27)) = false := by
  have hall : (s.entSlices (entOf isGroup id)).all (fun g => s.islUp (g / 4)) = true := List.all_eq_true.mpr hisl
  have hunit : (b.apgUnit.isSome && !s.islUp 27) = false := by rcases hapg with h | h <;> simp [h]
  simp [ha, hr, hf, hfill, hall, hunit]

include hb ha hr hf hfill hisl hapg

/-- Within one slice it starts at once (R163). -/
theorem doBurstStart_single (hx : s.entX (entOf isGroup id) = none) (hm : s.multi (entOf isGroup id) = false) :
    doBurstStart isGroup id t s = (s.at t).startBurst (entOf isGroup id) ((2000 * (s.at t).dtime : Int) - s.ringT.xoff).toNat := by
  have hgo := burst_may_start ha hr hf hfill hisl hapg
  have hx' : (s.at t).entX (entOf isGroup id) = none := hx
  have hm' : (s.at t).multi (entOf isGroup id) = false := hm
  unfold entOf at *
  unfold doBurstStart
  simp only [hb, hgo, hx', hm', Bool.false_eq_true, if_false, Bool.not_false, if_true]
  rfl

/-- In several slices of one chip it gets a start time first (R33). -/
theorem doBurstStart_sets (hx : s.entX (entOf isGroup id) = none) (hm : s.multi (entOf isGroup id) = true) (hs : b.startAt = none) :
    doBurstStart isGroup id t s = (s.at t).setStart (entOf isGroup id) := by
  have hgo := burst_may_start ha hr hf hfill hisl hapg
  have hx' : (s.at t).entX (entOf isGroup id) = none := hx
  have hm' : (s.at t).multi (entOf isGroup id) = true := hm
  unfold entOf at *
  unfold doBurstStart
  simp only [hb, hgo, hx', hm', hs, Bool.false_eq_true, if_false, Bool.not_true]

/-- At its start time it starts (R33, R584). -/
theorem doBurstStart_due {a : Nat} (hs : b.startAt = some a) (ht : a ≤ t) (hm : s.multi (entOf isGroup id) = true)
    (hx : s.entX (entOf isGroup id) = none ∨ s.crossOk = true) :
    doBurstStart isGroup id t s = (s.at t).startBurst (entOf isGroup id) ((2000 * a : Int) - s.ringT.xoff).toNat := by
  have hgo := burst_may_start ha hr hf hfill hisl hapg
  have hm' : (s.at t).multi (entOf isGroup id) = true := hm
  have hx' : (s.at t).entX (entOf isGroup id) = none ∨ (s.at t).crossOk = true := hx
  unfold entOf at *
  unfold doBurstStart
  simp only [hb, hgo, hm', hs, ht, Bool.false_eq_true, if_false, Bool.not_true, if_true]
  split
  · rfl
  · next x hy =>
    have hok : (s.at t).crossOk = true := hx'.resolve_left (by simp [hy])
    simp only [hok, Bool.not_true, Bool.false_eq_true, if_false]
    rfl

/-- A part across chips on another chip than the leading one is reported ready (R584). -/
theorem doBurstStart_reports {x : Site} (hx : s.entX (entOf isGroup id) = some x) (hok : s.crossOk = true) (hs : b.startAt = none)
    (hl : x.leader ≠ s.pos) (hn : s.pos ∉ b.ready) :
    doBurstStart isGroup id t s = ((s.at t).upBurst (entOf isGroup id) (fun b => { b with ready := b.ready ++ [s.pos] })).broadcast 0x66 0
      (s.at t).dtime (x.id + b.tag * 2 ^ 32) := by
  have hgo := burst_may_start ha hr hf hfill hisl hapg
  have hx' : (s.at t).entX (entOf isGroup id) = some x := hx
  have hok' : (s.at t).crossOk = true := hok
  have hn' : (s.at t).pos ∉ b.ready := hn
  have hc : b.ready.contains (s.at t).pos = false := by simpa using hn'
  have hl' : ¬ x.leader = (s.at t).pos := hl
  unfold entOf at *
  unfold doBurstStart
  simp only [hb, hgo, hx', hok', hs, hc, hl', Bool.false_eq_true, if_false, Bool.not_true]
  rfl

end

/-- Setting the start time of a burst on one chip leaves device memory, and the burst but for that time. -/
theorem setStart_facts {s : State} {e : Ent} {b : Burst} (hb : s.burst e = some b) (hx : s.entX e = none) :
    (s.setStart e).burst e = some { b with startAt := some (s.dtime + s.rf F.RING_CFG_START_LEAD) } ∧ (s.setStart e).mem = s.mem := by
  unfold State.setStart
  split
  next h => cases hb.symm.trans h
  next b' h =>
  cases hb.symm.trans h
  extract_lets t0 hzn s1
  obtain ⟨y, hy⟩ := foldl_upSeq (fun q => { q with hzn := hzn }) (s.entSlices e) (s.upBurst e (fun b => { b with startAt := some t0 }))
  have h1 : s1 = { s.upBurst e (fun b => { b with startAt := some t0 }) with slices := y } := hy
  rw [hx, h1]
  exact ⟨upBurst_burst (f := fun b => { b with startAt := some t0 }) hb rfl, rfl⟩

/-! ### A submission (R188-R193) -/

/-- A check that did not refuse did not apply. -/
theorem of_ite_error {α ε : Type} {c : Prop} [Decidable c] {r : ε} {x : Except ε α} {a : α} (h : (if c then .error r else x) = .ok a) :
    ¬ c ∧ x = .ok a := by
  split at h
  · cases h
  · exact ⟨‹_›, h⟩

/-- A burst that passes the checks is that of a site or group without one, not yet admitted, with no end of its own. -/
theorem submitCheck_ok {s : State} {q : Submit} {b : Burst} (h : s.submitCheck q = .ok b) :
    s.busy q.ent = false ∧ b.ent = q.ent ∧ b.owner = q.owner ∧ b.restart = q.restart ∧ b.admitted = false ∧ b.running = false ∧
      b.fin = none := by
  unfold State.submitCheck at h
  obtain ⟨-, h⟩ := of_ite_error h
  obtain ⟨-, h⟩ := of_ite_error h
  split at h
  · cases (of_ite_error h).2
  obtain ⟨-, h⟩ := of_ite_error h
  split at h
  · cases h
  obtain ⟨-, h⟩ := of_ite_error h
  obtain ⟨-, h⟩ := of_ite_error h
  obtain ⟨-, h⟩ := of_ite_error h
  obtain ⟨-, h⟩ := of_ite_error h
  obtain ⟨hbusy, h⟩ := of_ite_error h
  cases h
  exact ⟨Bool.eq_false_iff.mpr hbusy, rfl, rfl, rfl, rfl, rfl, rfl⟩

/-- The state in which a submitted burst waits for its first scan. -/
def State.join (s : State) (b : Burst) : State := { s with bursts := s.bursts ++ [b], arrivals := s.arrivals + 1 }

section
variable {s : State} {b : Burst} {o : Obj}

theorem join_burst (hbusy : s.busy b.ent = false) : (s.join b).burst b.ent = some b := by
  have hnone : s.bursts.find? (fun x => x.ent == b.ent) = none := by
    rw [List.find?_eq_none]
    simpa [State.busy] using hbusy
  simp [State.join, State.burst, List.find?_append, hnone]

theorem join_leave (hbusy : s.busy b.ent = false) : (s.join b).bursts.filter (fun x => !(x.ent == b.ent)) = s.bursts := by
  have hkeep : s.bursts.filter (fun x => !(x.ent == b.ent)) = s.bursts := by
    rw [List.filter_eq_self]
    simpa [State.busy] using hbusy
  simp [State.join, List.filter_append, hkeep]

/-- With no other burst waiting it alone is in the admission queue. -/
theorem join_queued (hq : s.queued = []) (ha : b.admitted = false) (hf : b.fin = none) : (s.join b).queued = [b] := by
  have hnil : s.bursts.filter (fun b => !b.admitted && b.fin.isNone) = [] := by
    rw [← List.length_eq_zero_iff, ← List.length_mergeSort (le := scanBefore)]
    exact List.length_eq_zero_iff.mpr hq
  simp [State.queued, State.join, List.filter_append, hnil, ha, hf]

/-- The scan of that queue admits the burst if it fits … -/
theorem scan_admits (hq : s.queued = [b]) (ho : kGet s.objs b.obj = some o) (hu : o.unloading = false)
    (hfit : s.fitFails o (s.planParts s.cache o b.ent).1 = []) : s.scan = s.admitBurst b := by
  simp [State.scan, hq, scanLoop, ho, hu, hfit]

/-- … and does nothing otherwise. -/
theorem scan_leaves (hq : s.queued = [b]) (ho : kGet s.objs b.obj = some o)
    (hfit : s.fitFails o (s.planParts s.cache o b.ent).1 ≠ []) : s.scan = s := by
  simp [State.scan, hq, scanLoop, ho, hfit]

end

/-! ### Admission (R192) -/

/-- A sequencer that has begun to fill a burst from its vector 0. -/
def Seq.filling (q : Seq) : Prop := q.state = 1 ∧ q.pc = 0 ∧ q.next = 0 ∧ q.queue = []

/-- What a change gives every sequencer, the slices of a list have once it is made to each. -/
theorem foldl_upSeq_sl {f : Seq → Seq} {P : Seq → Prop} (hf : ∀ q, P (f q)) (l : List Nat) (s : State) {g : Nat} (hlen : g < s.slices.length)
    (h : g ∈ l ∨ P (s.sl g).seq) : P ((l.foldl (fun s g => s.upSeq g f) s).sl g).seq := by
  induction l generalizing s with
  | nil => simpa using h
  | cons k r ih =>
    refine ih (s.upSeq k f) (by simpa [State.upSeq] using hlen) ?_
    by_cases hk : g = k
    · subst hk
      right
      rw [upSeq_sl_same f hlen]
      exact hf _
    · rw [State.upSeq, upSl_sl_ne _ _ hk]
      simpa [hk] using h

theorem foldl_pullIn (l : List Nat) (s : State) : ∃ m, l.foldl (fun s k => s.pullIn k) s = { s with mcs := m } :=
  foldl_upMc (fun _ _ c => { c with nextBank := (c.nextBank + (c.owed + 8).toNat) % 16, owed := min c.owed (-8) }) l s

/-- A burst of the host that is admitted is so from now, and its slices begin to fill it; its admission is mirrored, and leaves the host
interface and device memory. -/
theorem admitBurst_facts {s : State} {b : Burst} {o : Obj} {sq idx : Nat} (ho : kGet s.objs b.obj = some o) (hd : b.owner = .desc sq idx)
    (hr : b.restart = none) :
    (∃ ps, (s.admitBurst b).bursts = (s.upBurst b.ent (fun _ => { b with admitted := true, admittedAt := s.dtime, parts := ps })).bursts) ∧
    (s.admitBurst b).host = s.host ∧ (s.admitBurst b).mem = s.mem ∧
    ∀ g ∈ s.entSlices b.ent, g < s.slices.length → ((s.admitBurst b).sl g).seq.filling := by
  generalize hu : s.admitBurst b = u
  unfold State.admitBurst at hu
  split at hu
  next h => cases ho.symm.trans h
  next o' h =>
  cases ho.symm.trans h
  split at hu
  next ps c _ =>
  extract_lets b1 s1 s2 s3 rd q s4 s5 at hu
  rw [hd] at hu
  obtain ⟨m, h3⟩ : ∃ m, s3 = { s2 with mcs := m } := foldl_pullIn o.chans s2
  obtain ⟨x, h4⟩ : ∃ x, s4 = { s3 with slices := x } := foldl_upSeq _ _ s3
  obtain ⟨l, out, p, h5⟩ : ∃ l out p, s5 = { s4 with links := l, out := out, pair := p } := mirrorBurst_eq s4 b1 false
  have h : u = { s4 with links := l, out := out, pair := p } := hu.symm.trans h5
  have fills : ∀ g ∈ s.entSlices b.ent, g < s3.slices.length → (s4.sl g).seq.filling := fun g hg hlen => by
    refine foldl_upSeq_sl (fun old => ?_) _ s3 hlen (.inl hg)
    have hq : q = startSeq rd (hdrOf rd) none _ _ := congrArg (fun r => startSeq rd (hdrOf rd) r _ _) hr
    rw [hq]
    exact ⟨rfl, rfl, rfl, rfl⟩
  rw [h]
  refine ⟨⟨ps.map (fun p => p.part), ?_⟩, ?_, ?_, fun g hg hlen => fills g hg ?_⟩
  · rw [h4, h3]
  · rw [h4, h3]; rfl
  · rw [h4, h3]; rfl
  · rw [h3]; exact hlen

/-! ### How a submission goes -/

section
variable {s : State} {q : Submit} {b : Burst} {o : Obj}

theorem admitBurst_burst {sq idx : Nat} (hb : s.burst b.ent = some b) (ho : kGet s.objs b.obj = some o) (hd : b.owner = .desc sq idx)
    (hr : b.restart = none) :
    ∃ ps, (s.admitBurst b).burst b.ent = some { b with admitted := true, admittedAt := s.dtime, parts := ps } := by
  obtain ⟨⟨ps, hbursts⟩, -⟩ := admitBurst_facts ho hd hr
  refine ⟨ps, ?_⟩
  rw [State.burst, hbursts]
  exact upBurst_burst (f := fun _ => { b with admitted := true, admittedAt := s.dtime, parts := ps }) hb rfl

theorem submit_refused {r : Result} (h : s.submitCheck q = .error r) : s.submit q = (s, some r) := by
  simp [State.submit, h]

variable (h : s.submitCheck q = .ok b) (ho : kGet s.objs b.obj = some o)
include h ho

theorem submit_never (hn : s.neverFits o b.ent = true) : s.submit q = (s.incRf F.ADM_STAT_DENIED [], some (denial b 4)) := by
  simp [State.submit, h, ho, hn]

variable (hn : s.neverFits o b.ent = false) (hq : s.queued = [])
include hn hq

theorem submit_admits {sq idx : Nat} (hd : q.owner = .desc sq idx) (hr : q.restart = none) (hu : o.unloading = false)
    (hfit : (s.join b).fitFails o ((s.join b).planParts (s.join b).cache o b.ent).1 = []) :
    s.submit q = ((s.join b).admitBurst b, none) := by
  obtain ⟨hbusy, hent, howner, hrestart, ha, -, hf⟩ := submitCheck_ok h
  have hscan : (s.join b).scan = (s.join b).admitBurst b := scan_admits (join_queued hq ha hf) ho hu hfit
  obtain ⟨ps, hb⟩ := admitBurst_burst (s := s.join b) (join_burst (hent ▸ hbusy)) ho (howner.trans hd) (hrestart.trans hr)
  rw [← hscan] at hb ⊢
  unfold State.join at hb
  simp [State.submit, State.join, h, ho, hn, hb]

variable (hfit : (s.join b).fitFails o ((s.join b).planParts (s.join b).cache o b.ent).1 ≠ [])
include hfit

theorem submit_unfit : s.submit q =
    if q.mode = 0 ∨ q.mode = 2 ∧ q.wait = 0 then
      (({ s.join b with bursts := s.bursts } : State).incRf F.ADM_STAT_DENIED [],
        some (denial b (((s.join b).fitFails o ((s.join b).planParts (s.join b).cache o b.ent).1).headD 0x0B)))
    else ((s.join b).upBurst b.ent (fun x => { x with waited := true }), none) := by
  obtain ⟨hbusy, hent, howner, hrestart, ha, -, hf⟩ := submitCheck_ok h
  have hbusy' : s.busy b.ent = false := hent ▸ hbusy
  have hqueue : (s.join b).queued = [b] := join_queued hq ha hf
  have hscan : (s.join b).scan = s.join b := scan_leaves hqueue ho hfit
  have hleave := join_leave hbusy'
  have hb := join_burst hbusy'
  unfold State.join at hscan hb hqueue hleave ⊢
  simp [State.submit, h, ho, hn, hscan, hb, ha, hqueue, hleave]

end

/-! ### RUN_BURST (R490) -/

section
variable {s u : State} {sq idx : Nat} {d : Desc} {q : Submit} {e : Ent} (hd : Safety.ready s sq idx 0x18 d)
  (he : e = (if fld d.bytes 16 2 ≠ 0xFFFF then .site (fld d.bytes 16 2) else .group (fld d.bytes 18 2))) (hx : s.entX e = none)
  (hq : q = { form := (fld d.bytes 16 2 = 0xFFFF) != (fld d.bytes 18 2 = 0xFFFF) && zeroes d.bytes 25 3 && zeroes d.bytes 32 32, ent := e,
              owner := .desc sq idx, obj := fld d.bytes 20 4, mode := fld d.bytes 24 1, wait := fld d.bytes 28 4,
              prio := s.rf F.RINGK_CFG_PRIO [sq] })
include hd he hx hq

theorem doRunBurst_submits : doRunBurst sq idx s =
    (((s.begin sq idx).submit q).2.elim ((s.begin sq idx).submit q).1
      fun r => ((s.begin sq idx).submit q).1.complete sq idx { r with body := noBurstBody q.obj }) := by
  have hX : (s.begin sq idx).submitX q = (s.begin sq idx).submit q := by
    have hx' : (s.begin sq idx).entX q.ent = none := by rw [hq]; exact hx
    unfold State.submitX
    rw [hx']
  have hobj : fld d.bytes 20 4 = q.obj := by rw [hq]
  subst he
  unfold doRunBurst
  rw [withDesc_of_ready hd]
  dsimp only
  rw [← hq, hX, hobj]
  generalize (s.begin sq idx).submit q = p
  obtain ⟨u, _ | r⟩ := p <;> rfl

/-- A submission that is over at once completes with its result … -/
theorem doRunBurst_over {r : Result} (h : (s.begin sq idx).submit q = (u, some r)) :
    doRunBurst sq idx s = u.complete sq idx { r with body := noBurstBody q.obj } := by
  rw [doRunBurst_submits hd he hx hq, h]
  rfl

/-- … and another goes on. -/
theorem doRunBurst_goes (h : (s.begin sq idx).submit q = (u, none)) : doRunBurst sq idx s = u := by
  rw [doRunBurst_submits hd he hx hq, h]
  rfl

end

/-- The descriptors in flight are the host interface's. -/
theorem desc_congr {s t : State} (h : t.host = s.host) (sq idx : Nat) : t.desc sq idx = s.desc sq idx := by
  rw [State.desc, h, State.desc]

/-! ### READ_PLACEMENT, ABORT_OP (R207, R491) -/

theorem doReadPlacement_writes {s : State} {sq idx : Nat} {d : Desc} {es : List (List Byte)} {n : Nat} (hd : Safety.ready s sq idx 0x1A d)
    (hsel : fld d.bytes 16 1 < 64) (hz : zeroes d.bytes 17 7 = true) (ha : fld d.bytes 24 8 % 64 = 0) (hl : fld d.bytes 32 4 % 64 = 0)
    (hmin : 64 ≤ fld d.bytes 32 4) (hz2 : zeroes d.bytes 36 4 = true) (hz3 : zeroes d.bytes 48 16 = true)
    (hbus : s.host.pci.busMaster = true) (hes : es = s.placementEntries (fld d.bytes 16 1) (fld d.bytes 40 8))
    (hn : n = min es.length ((fld d.bytes 32 4 - 64) / 32)) : doReadPlacement sq idx s =
      (s.emit (.hostWrite (fld d.bytes 24 8) (s.placementHeader es.length n ++ (es.take n).flatten))).complete sq idx
        { status := 0, val0 := es.length + n * 2 ^ 32, val1 := s.gen } := by
  have hok : (fld d.bytes 16 1 ≥ 64 || !zeroes d.bytes 17 7 || fld d.bytes 24 8 % 64 ≠ 0 || fld d.bytes 32 4 % 64 ≠ 0 ||
      fld d.bytes 32 4 < 64 || !zeroes d.bytes 36 4 || !zeroes d.bytes 48 16) = false := by
    simp [hsel, hz, ha, hl, hmin, hz2, hz3]
  unfold doReadPlacement
  rw [withDesc_of_ready hd]
  simp only [hok, Bool.false_eq_true, if_false, ← hes, ← hn]
  simp only [State.hostWrite, hbus, if_true]

section
variable {s : State} {sq idx : Nat} {d : Desc} {e : Ent} (hd : Safety.ready s sq idx 0x19 d)
  (he : e = (if fld d.bytes 16 2 ≠ 0xFFFF then .site (fld d.bytes 16 2) else .group (fld d.bytes 18 2)))
include hd he

theorem doAbortOp_undeclared (h : s.declared e = false) : doAbortOp sq idx s = s.finish sq idx St.bad := by
  subst he
  unfold doAbortOp
  rw [withDesc_of_ready hd]
  simp only [h, Bool.not_false, Bool.or_true, Bool.true_or, if_true]

theorem doAbortOp_declared (h : s.declared e = true) (hform : (fld d.bytes 16 2 = 0xFFFF) ↔ ¬ fld d.bytes 18 2 = 0xFFFF)
    (hk : fld d.bytes 20 1 < 16) (hz : zeroes d.bytes 21 43 = true) : doAbortOp sq idx s =
      ((bitList 4 (fld d.bytes 20 1)).foldl (fun s k => s.abortEnt e k) s).finish sq idx St.ok := by
  have hone : ((fld d.bytes 16 2 = 0xFFFF) == (fld d.bytes 18 2 = 0xFFFF)) = false := by
    by_cases h2 : fld d.bytes 18 2 = 0xFFFF
    · simp [hform.not.mpr (not_not.mpr h2), h2]
    · simp [hform.mpr h2, h2]
  subst he
  unfold doAbortOp
  rw [withDesc_of_ready hd]
  have hk' : ¬ 16 ≤ fld d.bytes 20 1 := Nat.not_le.mpr hk
  simp only [hone, h, hk', hz, decide_false, Bool.not_true, Bool.or_false, Bool.false_eq_true, if_false]

end

/-- Settles O44: each command by the branch that its conditions take; a burst that starts keeps what its start has fixed. -/
theorem burstsSubmitted : Obligations.BurstsSubmitted := by
  refine ⟨?_, ?_, ?_, ?_, ?_, ?_⟩
  · intro s s1 sq idx d q e hd he hx hq h1
    subst h1
    have hbegun := begin_desc hd.1
    have hent : q.ent = e := by rw [hq]
    have howner : q.owner = .desc sq idx := by rw [hq]
    have hrestart : q.restart = none := by rw [hq]
    refine ⟨fun r hr => ?_, fun b o hb ho hn => ?_, fun b o s2 hb ho hn hqueue h2 => ?_⟩
    · exact ⟨_, congrArg Host.Outcome.next (doRunBurst_over hd he hx hq (submit_refused hr)), rfl, (sends_complete _ _ _ _).bursts,
        complete_desc _ _ _ _, (sends_complete _ _ _ _).mem⟩
    · exact ⟨_, congrArg Host.Outcome.next (doRunBurst_over hd he hx hq (submit_never hb ho hn)), rfl, (sends_complete _ _ _ _).bursts,
        complete_desc _ _ _ _⟩
    · obtain ⟨hbusy, hbe, hbo, hbr, ha, hrun, -⟩ := submitCheck_ok hb
      have hbe' : b.ent = e := hbe.trans hent
      have hjoin : s2 = (s.begin sq idx).join b := h2
      subst hjoin
      have hwait := join_burst (s := s.begin sq idx) (hbe ▸ hbusy)
      subst hbe'
      refine ⟨fun hu hfit hsh => ?_, fun hfit hmode => ?_, fun hfit hmode => ?_⟩
      · have hgo := submit_admits hb ho hn hqueue howner hrestart hu hfit
        obtain ⟨ps, hbt⟩ := admitBurst_burst hwait ho (hbo.trans howner) (hbr.trans hrestart)
        obtain ⟨-, hhost, hmem, hfill⟩ := admitBurst_facts (s := (s.begin sq idx).join b) ho (hbo.trans howner) (hbr.trans hrestart)
        refine ⟨_, _, congrArg Host.Outcome.next (doRunBurst_goes hd he hx hq hgo), hbt, rfl, hrun, rfl, hbo.trans howner, rfl,
          (desc_congr hhost _ _).trans hbegun, fun g hg hlt => hfill g hg ?_, hmem⟩
        exact hsh.2.1.symm ▸ hlt
      · have hgo := (submit_unfit hb ho hn hqueue hfit).trans (if_neg (by omega))
        exact ⟨_, congrArg Host.Outcome.next (doRunBurst_goes hd he hx hq hgo),
          upBurst_burst (f := fun x => { x with waited := true }) hwait rfl, hbegun, rfl, rfl, rfl⟩
      · have hgo := (submit_unfit hb ho hn hqueue hfit).trans (if_pos hmode)
        exact ⟨_, { (s.begin sq idx).join b with bursts := s.bursts }, congrArg Host.Outcome.next (doRunBurst_over hd he hx hq hgo),
          rfl, rfl, rfl, rfl, complete_desc _ _ _ _⟩
  · intro s isGroup id t e b he hb ha hr hf hfill hisl hapg
    subst he
    refine ⟨fun hx hm => ?_, fun hx hm hs => ?_, fun a hs hle hm hx => ?_, fun x hx hok hs hl hn => ?_⟩
    · obtain ⟨b', hb', hrun, hstamp, hobj⟩ := startBurst_runs (s := s.at t) ((2000 * (s.at t).dtime : Int) - s.ringT.xoff).toNat hb
      exact ⟨_, b', congrArg Host.Outcome.next (doBurstStart_single t hb ha hr hf hfill hisl hapg hx hm), rfl, hb', hrun,
        fun hle => hstamp.trans (scaled_start (s := s.at t) hle), hobj⟩
    · obtain ⟨hb', hmem⟩ := setStart_facts (s := s.at t) hb hx
      exact ⟨_, _, congrArg Host.Outcome.next (doBurstStart_sets t hb ha hr hf hfill hisl hapg hx hm hs), hb', rfl, hr, hmem⟩
    · exact congrArg Host.Outcome.next (doBurstStart_due t hb ha hr hf hfill hisl hapg hs hle hm hx)
    · exact ⟨_, _, congrArg Host.Outcome.next (doBurstStart_reports t hb ha hr hf hfill hisl hapg hx hok hs hl hn),
        upBurst_burst (s := s.at t) (f := fun b => { b with ready := b.ready ++ [s.pos] }) hb rfl, rfl⟩
  · intro s g t c hc hr hg hsh u hu
    subst hu
    obtain ⟨⟨cl, hs⟩, hfails⟩ := startSlice_fresh (t := t) hc hr
    have hsl (k : Nat) : (s.startSlice g t).sl k = (s.upSeq g (fun q => q.atStart t (s.scaled t / 2000))).sl k := hs.sl k
    have hnew := (hsl g).trans (upSeq_sl_same _ (hsh.2.1.symm ▸ hg))
    exact ⟨by rw [hnew]; rfl, by rw [hnew]; rfl, by rw [hnew]; rfl, hfails, fun k hk => (hsl k).trans (upSl_sl_ne _ _ hk), hs.bursts, hs.mem⟩
  · intro s sq idx n d hd hsel hz ha hl hmin hz2 hz3 hbus hn
    refine ⟨_, congrArg Host.Outcome.next (doReadPlacement_writes hd hsel hz ha hl hmin hz2 hz3 hbus rfl hn), ?_, complete_desc _ _ _ _,
      (sends_complete _ _ _ _).objs, (sends_complete _ _ _ _).mem⟩
    exact (grows_complete _ _ _ _).mem (List.mem_append_right _ (List.mem_singleton.mpr rfl))
  · intro s v hw
    refine ⟨_, congrArg Host.Outcome.next (busWrite_of_writable hw), rfl, fun o ho => ?_, rfl, rfl⟩
    exact reg_setReg_ne _ _ ho
  · intro s sq idx d e hd he
    exact ⟨fun h => congrArg Host.Outcome.next (doAbortOp_undeclared hd he h), fun h hform hk hz =>
      ⟨_, _, congrArg Host.Outcome.next (doAbortOp_declared hd he h hform hk hz), rfl, rfl, finish_desc _ _ _ _⟩⟩

end Sys2Proof.Machine

-- ==== Sys2Proof/Proofs/Time.lean ====
section
namespace Sys2Proof.Machine

/-! ### DTIME and the fuses (R51)

No step changes the fuses, and no step but a COLD reset turns DTIME back (O56). `State.stamp` is DTIME with the fuses. Below is one lemma
for each function of the model that a command reaches. Most leave the stamp as it is (`stamp_…`). A function that carries a time of its
own (`State.at`), steps DTIME at a ring alignment (R62) or wakes the chip gives a stamp that is no earlier than any x that the one before
it was no earlier than (`noEarlier_…`); in this form the lemmas chain along the states of a function. -/

/-- DTIME and the fuses of a state, from its fields. -/
def stampOf (dtime : Nat) (fuse : Fuse) : Nat × Fuse := (dtime, fuse)

/-- What no step but a COLD reset turns back. -/
def State.stamp (s : State) : Nat × Fuse := stampOf s.dtime s.fuse

/-- A stamp y of the same fuses, at x's time or later. -/
def NoEarlier (x y : Nat × Fuse) : Prop := y.2 = x.2 ∧ x.1 ≤ y.1

/-! The next two are not proved by `rfl`: a step of `simp` that is one leaves no proof, and a hypothesis under a binder, as of
`stamp_foldl`, needs one. -/

@[simp] theorem stampOf_self (s : State) : stampOf s.dtime s.fuse = s.stamp := by rw [State.stamp]

/-- The stamp of a state given by its fields. -/
@[simp] theorem stamp_mk (a b c d e f host mem i j k l m slices o p q r t u clusters v w paddock pe fuse y z a1 a2 a3 a4 a5 a6 mcs a7
    links a8 a9 apgs ports chains b1 b2 trigs meters b3 trigOut b4 b5 b6) :
    (State.mk a b c d e f host mem i j k l m slices o p q r t u clusters v w paddock pe fuse y z a1 a2 a3 a4 a5 a6 mcs a7 links
      a8 a9 apgs ports chains b1 b2 trigs meters b3 trigOut b4 b5 b6).stamp = stampOf a fuse := by rw [State.stamp]

@[simp] theorem stamp_ite (c : Prop) [Decidable c] (a b : State) : (if c then a else b).stamp = if c then a.stamp else b.stamp :=
  apply_ite _ _ _ _

@[simp] theorem stamp_foldl {β : Type} {f : State → β → State} (h : ∀ a x, (f a x).stamp = a.stamp) (l : List β) (s : State) :
    (l.foldl f s).stamp = s.stamp := foldl_keep State.stamp f h l s

@[simp] theorem NoEarlier.refl (x : Nat × Fuse) : NoEarlier x x := ⟨rfl, Nat.le_refl _⟩

theorem NoEarlier.trans {x y z : Nat × Fuse} (h : NoEarlier x y) (g : NoEarlier y z) : NoEarlier x z :=
  ⟨g.1.trans h.1, Nat.le_trans h.2 g.2⟩

@[simp] theorem noEarlier_ite {x y z : Nat × Fuse} {c : Prop} [Decidable c] :
    NoEarlier x (if c then y else z) ↔ (c → NoEarlier x y) ∧ (¬ c → NoEarlier x z) := by split <;> simp [*]

section
variable {s : State} {x : Nat × Fuse}

@[simp] theorem noEarlier_add (h : NoEarlier x s.stamp) (k : Nat) : NoEarlier x (stampOf (s.dtime + k) s.fuse) :=
  h.trans ⟨rfl, Nat.le_add_right _ _⟩

@[simp] theorem noEarlier_at (h : NoEarlier x s.stamp) (t : Nat) : NoEarlier x (s.at t).stamp :=
  h.trans ⟨rfl, (at_dtime_le s t).1⟩

/-- The same of a state that takes its fields from `s.at t`. -/
@[simp] theorem noEarlier_atFields (h : NoEarlier x s.stamp) (t : Nat) :
    NoEarlier x (stampOf (if s.counts then max s.dtime t else s.dtime) s.fuse) := by
  rw [← at_dtime]
  exact noEarlier_at h t

@[simp] theorem noEarlier_foldl {β : Type} {f : State → β → State} (h : NoEarlier x s.stamp)
    (hf : ∀ a y, NoEarlier a.stamp (f a y).stamp) (l : List β) : NoEarlier x (l.foldl f s).stamp := by
  induction l generalizing s with
  | nil => exact h
  | cons y r ih => exact ih (h.trans (hf s y))

@[simp] theorem stamp_setReg (o v) : (s.setReg o v).stamp = s.stamp := by simp [State.setReg]
@[simp] theorem stamp_setRf (f i v) : (s.setRf f i v).stamp = s.stamp := by simp [State.setRf]
@[simp] theorem stamp_emit (o) : (s.emit o).stamp = s.stamp := by simp [State.emit]
@[simp] theorem stamp_msi (o) : (s.msi o).stamp = s.stamp := by simp [State.msi]
@[simp] theorem stamp_upRing (k f) : (s.upRing k f).stamp = s.stamp := by simp [State.upRing]
@[simp] theorem stamp_hostErr (b r) : (s.hostErr b r).stamp = s.stamp := by
  unfold State.hostErr
  split <;> simp

/-! ### Ops -/

@[simp] theorem stamp_memWrite (ch off bs) : (s.memWrite ch off bs).stamp = s.stamp := by simp [State.memWrite]
@[simp] theorem stamp_memClear (ch off n) : (s.memClear ch off n).stamp = s.stamp := by simp [State.memClear]
@[simp] theorem stamp_orRf (f idx m) : (s.orRf f idx m).stamp = s.stamp := by simp [State.orRf]
@[simp] theorem stamp_incRf (f idx n) : (s.incRf f idx n).stamp = s.stamp := by simp [State.incRf]
@[simp] theorem stamp_placementChanged : s.placementChanged.stamp = s.stamp := by simp [State.placementChanged]
@[simp] theorem stamp_upSl (g f) : (s.upSl g f).stamp = s.stamp := by simp [State.upSl]
@[simp] theorem stamp_upSeq (g f) : (s.upSeq g f).stamp = s.stamp := by simp [State.upSeq]
@[simp] theorem stamp_upCl (n f) : (s.upCl n f).stamp = s.stamp := by simp [State.upCl]
@[simp] theorem stamp_draw : s.draw.stamp = s.stamp := by simp [State.draw]
@[simp] theorem stamp_msiFlush : s.msiFlush.stamp = s.stamp := by simp [State.msiFlush]
@[simp] theorem stamp_hostAccess : s.hostAccess.stamp = s.stamp := by simp [State.hostAccess]
@[simp] theorem stamp_hostWrite (sq addr bs) : (s.hostWrite sq addr bs).1.stamp = s.stamp := by
  unfold State.hostWrite
  split <;> simp
@[simp] theorem stamp_queueEvent (e) : (s.queueEvent e).stamp = s.stamp := by simp [State.queueEvent]
@[simp] theorem stamp_refillLoop (l) : (refillLoop s l).stamp = s.stamp := by
  induction l generalizing s with
  | nil => rfl
  | cons e r ih => unfold refillLoop; split <;> simp [ih]
@[simp] theorem stamp_refill : s.refill.stamp = s.stamp := by simp [State.refill]
@[simp] theorem stamp_ringError (k cause) : (s.ringError k cause).stamp = s.stamp := by simp [State.ringError]
@[simp] theorem stamp_ringMsg (k) : (s.ringMsg k).stamp = s.stamp := by simp [State.ringMsg]
@[simp] theorem stamp_ringWrite (k bs phaseAt irq) : (s.ringWrite k bs phaseAt irq).stamp = s.stamp := by simp [State.ringWrite]
@[simp] theorem stamp_upDesc (sq idx f) : (s.upDesc sq idx f).stamp = s.stamp := by simp [State.upDesc]
@[simp] theorem stamp_dropDesc (sq idx) : (s.dropDesc sq idx).stamp = s.stamp := by simp [State.dropDesc]
@[simp] theorem stamp_closeRing (k) : (s.closeRing k).stamp = s.stamp := by simp [State.closeRing]
@[simp] theorem stamp_noteMet : s.noteMet.stamp = s.stamp := by simp [State.noteMet]
@[simp] theorem stamp_complete (sq idx r) : (s.complete sq idx r).stamp = s.stamp := by
  unfold State.complete
  dsimp only
  (repeat' split) <;> simp
@[simp] theorem stamp_finish (sq idx status) : (s.finish sq idx status).stamp = s.stamp := by simp [State.finish]
@[simp] theorem stamp_withDesc {sq idx op : Nat} {f : Desc → State} (hf : ∀ d, (f d).stamp = s.stamp) :
    (s.withDesc sq idx op f).stamp = s.stamp := withDesc_keep State.stamp hf
@[simp] theorem noEarlier_withDesc {sq idx op : Nat} {f : Desc → State} (h : NoEarlier x s.stamp)
    (hf : ∀ d, NoEarlier x (f d).stamp) : NoEarlier x (s.withDesc sq idx op f).stamp := by
  unfold State.withDesc
  (repeat' split) <;> simp [hf, h]
@[simp] theorem stamp_begin (sq idx) : (s.begin sq idx).stamp = s.stamp := by simp [State.begin]
@[simp] theorem stamp_readFailed (sq idx) : (s.readFailed sq idx).stamp = s.stamp := by simp [State.readFailed]
@[simp] theorem stamp_writeFailed (sq idx) : (s.writeFailed sq idx).stamp = s.stamp := by simp [State.writeFailed]
@[simp] theorem stamp_report (src island unit detail) : (s.report src island unit detail).stamp = s.stamp := by simp [State.report]
@[simp] theorem stamp_reportAt (r) : (s.reportAt r).stamp = s.stamp := by simp [State.reportAt]
@[simp] theorem stamp_condOn (src island unit) : (s.condOn src island unit).stamp = s.stamp := by simp [State.condOn]
@[simp] theorem stamp_condOff (src island unit) : (s.condOff src island unit).stamp = s.stamp := by simp [State.condOff]
@[simp] theorem stamp_onset (src island unit detail) : (s.onset src island unit detail).stamp = s.stamp := by simp [State.onset]
@[simp] theorem stamp_health (sub b3 aux p0 p1) : (s.health sub b3 aux p0 p1).stamp = s.stamp := by simp [State.health]
@[simp] theorem stamp_log (typ data) : (s.log typ data).stamp = s.stamp := by simp [State.log]
@[simp] theorem stamp_degrade (kind island unit) : (s.degrade kind island unit).stamp = s.stamp := by simp [State.degrade]
@[simp] theorem stamp_spared (kind island unit spare) : (s.spared kind island unit spare).stamp = s.stamp := by simp [State.spared]

/-! ### RegOps -/

@[simp] theorem stamp_writeFields (off v) : (s.writeFields off v).stamp = s.stamp := by
  unfold State.writeFields
  split <;> simp
@[simp] theorem stamp_clearRegs (p q) : (s.clearRegs p q).stamp = s.stamp := by simp [State.clearRegs]
@[simp] theorem stamp_busWrite {off : Nat} {f : State → State} (hf : ∀ u : State, (f u).stamp = u.stamp) :
    (s.busWrite off f).stamp = s.stamp := by
  unfold State.busWrite
  split
  · simp
  · split
    · simp [hf]
    · split <;> simp
@[simp] theorem noEarlier_busWrite {off : Nat} {f : State → State} (h : NoEarlier x s.stamp)
    (hf : ∀ u : State, NoEarlier u.stamp (f u).stamp) : NoEarlier x (s.busWrite off f).stamp := by
  unfold State.busWrite
  split
  · simp [h]
  · split
    · exact NoEarlier.trans (by simp [h]) (hf _)
    · split <;> simp [h]

/-! ### LinkOps -/

@[simp] theorem stamp_upLk (n f) : (s.upLk n f).stamp = s.stamp := by simp [State.upLk]
@[simp] theorem stamp_upLane (n k f) : (s.upLane n k f).stamp = s.stamp := by simp [State.upLane]
@[simp] theorem stamp_linkEvent (n sub lane) : (s.linkEvent n sub lane).stamp = s.stamp := by simp [State.linkEvent]
@[simp] theorem stamp_block (n typ payload) : (s.block n typ payload).stamp = s.stamp := by simp [State.block]
@[simp] theorem stamp_burstOn (n k) : (s.burstOn n k).stamp = s.stamp := by simp [State.burstOn]
@[simp] theorem stamp_bursts4 (n) : (s.bursts4 n).stamp = s.stamp := by simp [State.bursts4]
@[simp] theorem stamp_linkUsed (n) : (s.linkUsed n).stamp = s.stamp := by simp [State.linkUsed]
@[simp] theorem stamp_keepAwake : s.keepAwake.stamp = s.stamp := by simp [State.keepAwake]
@[simp] theorem stamp_traffic (n p) : (s.traffic n p).stamp = s.stamp := by simp [State.traffic]
@[simp] theorem stamp_transmit (n p) : (s.transmit n p).stamp = s.stamp := by simp [State.transmit]
@[simp] theorem stamp_send (n p) : (s.send n p).stamp = s.stamp := by simp [State.send]
@[simp] theorem stamp_drainWait (l) (n) : (drainWait l s n).stamp = s.stamp := by
  induction l generalizing s with
  | nil => rfl
  | cons p r ih => unfold drainWait; split <;> simp [ih]
@[simp] theorem stamp_drain (n) : (s.drain n).stamp = s.stamp := by simp [State.drain]
@[simp] theorem stamp_broadcast (typ sub a b) : (s.broadcast typ sub a b).stamp = s.stamp := by simp [State.broadcast]
@[simp] theorem stamp_tether (i) : (s.tether i).stamp = s.stamp := by simp [State.tether]
@[simp] theorem stamp_mirror (i) : (s.mirror i).stamp = s.stamp := by simp [State.mirror]
@[simp] theorem stamp_unprotect (r i) : (s.unprotect r i).stamp = s.stamp := by simp [State.unprotect]
@[simp] theorem stamp_mirrorCap (r i off bs) : (s.mirrorCap r i off bs).stamp = s.stamp := by simp [State.mirrorCap]
@[simp] theorem stamp_mirrorEvent (sub aux p0 p1) : (s.mirrorEvent sub aux p0 p1).stamp = s.stamp := by simp [State.mirrorEvent]
@[simp] theorem stamp_digestMismatch (id) : (s.digestMismatch id).stamp = s.stamp := by simp [State.digestMismatch]
@[simp] theorem stamp_digestCheck (id dig) : (s.digestCheck id dig).stamp = s.stamp := by
  unfold State.digestCheck
  split <;> simp
@[simp] theorem stamp_pairLoaded (id dig) : (s.pairLoaded id dig).stamp = s.stamp := by simp [State.pairLoaded]
@[simp] theorem stamp_pairUnloaded (id) : (s.pairUnloaded id).stamp = s.stamp := by simp [State.pairUnloaded]
@[simp] theorem stamp_unprotEnd (site acq) : (s.unprotEnd site acq).stamp = s.stamp := by
  unfold State.unprotEnd
  split <;> simp

/-! ### TaskOps -/

@[simp] theorem stamp_upTask (tid f) : (s.upTask tid f).stamp = s.stamp := by simp [State.upTask]
@[simp] theorem stamp_upFslot (i f) : (s.upFslot i f).stamp = s.stamp := by simp [State.upFslot]
@[simp] theorem stamp_upLock (k f) : (s.upLock k f).stamp = s.stamp := by simp [State.upLock]
@[simp] theorem stamp_mirrorTask (tid) : (s.mirrorTask tid).stamp = s.stamp := by
  unfold State.mirrorTask
  split <;> simp
@[simp] theorem stamp_check7 : s.check7.stamp = s.stamp := by simp [State.check7]
@[simp] theorem stamp_buffer (tid i) : (s.buffer tid i).stamp = s.stamp := by simp [State.buffer]
@[simp] theorem stamp_placeTask (fuel tid) : (placeTask fuel s tid).stamp = s.stamp := by
  induction fuel generalizing s tid with
  | zero => rfl
  | succ fuel ih => unfold placeTask; dsimp only; (repeat' split) <;> simp [ih]
@[simp] theorem stamp_ready (tid) : (s.ready tid).stamp = s.stamp := by simp [State.ready]
@[simp] theorem stamp_refillSlot (i) : (s.refillSlot i).stamp = s.stamp := by
  unfold State.refillSlot
  (repeat' split) <;> simp
@[simp] theorem stamp_dispatch : s.dispatch.stamp = s.stamp := by simp [State.dispatch]
@[simp] theorem stamp_coreTake (i) : (s.coreTake i).stamp = s.stamp := by
  unfold State.coreTake
  dsimp only
  split <;> simp
@[simp] theorem stamp_coreFree (i) : (s.coreFree i).stamp = s.stamp := by simp [State.coreFree]
@[simp] theorem stamp_replace (tid) : (s.replace tid).stamp = s.stamp := by simp [State.replace]
@[simp] theorem stamp_boundary (i) : (s.boundary i).stamp = s.stamp := by
  unfold State.boundary
  dsimp only
  (repeat' split) <;> simp
@[simp] theorem stamp_wake (tid timedOut) : (s.wake tid timedOut).stamp = s.stamp := by simp [State.wake]
@[simp] theorem stamp_setFlags (tid m) : (s.setFlags tid m).stamp = s.stamp := by
  unfold State.setFlags
  split <;> simp
@[simp] theorem stamp_clearFlagsOf (tid m) : (s.clearFlagsOf tid m).stamp = s.stamp := by simp [State.clearFlagsOf]
@[simp] theorem stamp_mirrorLock (k) : (s.mirrorLock k).stamp = s.stamp := by simp [State.mirrorLock]
@[simp] theorem stamp_lockGrant (k o) : (s.lockGrant k o).stamp = s.stamp := by
  unfold State.lockGrant
  split <;> simp
@[simp] theorem stamp_lockRelease (k abandon) : (s.lockRelease k abandon).stamp = s.stamp := by
  unfold State.lockRelease
  dsimp only
  (repeat' split) <;> simp
@[simp] theorem stamp_lockRequest (k r) : (s.lockRequest k r).stamp = s.stamp := by simp [State.lockRequest]
@[simp] theorem stamp_abandonLocks (o) : (s.abandonLocks o).stamp = s.stamp := by simp [State.abandonLocks]
@[simp] theorem stamp_unqueueLocks (p) : (s.unqueueLocks p).stamp = s.stamp := by simp [State.unqueueLocks]
@[simp] theorem stamp_writeSlot (tid k bs) : (s.writeSlot tid k bs).stamp = s.stamp := by simp [State.writeSlot]
@[simp] theorem stamp_settleTask (tid) : (s.settleTask tid).stamp = s.stamp := by
  unfold State.settleTask
  split <;> simp
@[simp] theorem stamp_taskOpEnd (tid k r ck resumable) : (s.taskOpEnd tid k r ck resumable).stamp = s.stamp := by
  unfold State.taskOpEnd
  split <;> simp
@[simp] theorem stamp_opEnd (o k r ck resumable) : (s.opEnd o k r ck resumable).stamp = s.stamp := by
  unfold State.opEnd
  split <;> simp

/-! ### Sites -/

@[simp] theorem stamp_upSite (id f) : (s.upSite id f).stamp = s.stamp := by simp [State.upSite]
@[simp] theorem stamp_upBurst (e f) : (s.upBurst e f).stamp = s.stamp := by simp [State.upBurst]
@[simp] theorem stamp_setSiteMask (g v) : (s.setSiteMask g v).stamp = s.stamp := by simp [State.setSiteMask]
@[simp] theorem stamp_remask (g) : (s.remask g).stamp = s.stamp := by simp [State.remask]
@[simp] theorem stamp_giveSlice (g e grp) : (s.giveSlice g e grp).stamp = s.stamp := by simp [State.giveSlice]
@[simp] theorem stamp_mirrorMap (e) : (s.mirrorMap e).stamp = s.stamp := by simp [State.mirrorMap]
@[simp] theorem stamp_setEntSlices (e l) : (s.setEntSlices e l).stamp = s.stamp := by
  unfold State.setEntSlices
  split <;> simp
@[simp] theorem stamp_declare (x) : (s.declare x).1.stamp = s.stamp := by
  unfold State.declare
  dsimp only
  (repeat' split) <;> simp
@[simp] theorem stamp_wait (w) : (s.wait w).stamp = s.stamp := by simp [State.wait]
@[simp] theorem stamp_unwait (sq idx) : (s.unwait sq idx).stamp = s.stamp := by simp [State.unwait]
@[simp] theorem stamp_declTurn (d) : (s.declTurn d).stamp = s.stamp := by simp [State.declTurn]
@[simp] theorem stamp_inertChans (n mask) : (s.inertChans n mask).stamp = s.stamp := by simp [State.inertChans]
@[simp] theorem stamp_freeSl (g) : (s.freeSl g).stamp = s.stamp := by simp [State.freeSl]
@[simp] theorem stamp_blockHere (e) : (s.blockHere e).stamp = s.stamp := by
  unfold State.blockHere
  split <;> simp
@[simp] theorem stamp_blockEnt (e) : (s.blockEnt e).stamp = s.stamp := by
  unfold State.blockEnt
  (repeat' split) <;> simp
@[simp] theorem stamp_moveSlice (g) : (s.moveSlice g).stamp = s.stamp := by
  unfold State.moveSlice
  (repeat' split) <;> simp
@[simp] theorem stamp_settleSlices (e) : (s.settleSlices e).stamp = s.stamp := by
  unfold State.settleSlices
  dsimp only
  (repeat' split) <;> simp
@[simp] theorem stamp_capsSlices : s.capsSlices.stamp = s.stamp := by simp [State.capsSlices]
@[simp] theorem stamp_retireSlice (g) : (s.retireSlice g).stamp = s.stamp := by simp [State.retireSlice]
@[simp] theorem stamp_maskFrom (id v) : (s.maskFrom id v).stamp = s.stamp := by simp [State.maskFrom]
@[simp] theorem stamp_stickMember (g id) : (s.stickMember g id).stamp = s.stamp := by
  unfold State.stickMember
  (repeat' split) <;> simp

/-! ### Placement -/

@[simp] theorem stamp_upMc (m f) : (s.upMc m f).stamp = s.stamp := by simp [State.upMc]
@[simp] theorem stamp_upObj (id f) : (s.upObj id f).stamp = s.stamp := by simp [State.upObj]
@[simp] theorem stamp_objStore (o bs) : (s.objStore o bs).stamp = s.stamp := by simp [State.objStore]
@[simp] theorem stamp_mapShadow : s.mapShadow.stamp = s.stamp := by
  unfold State.mapShadow
  dsimp only
  refine (stamp_foldl (fun a x => ?_) _ _).trans (by simp)
  split <;> simp
@[simp] theorem stamp_lostShadow : s.lostShadow.stamp = s.stamp := by simp [State.lostShadow]
@[simp] theorem stamp_doReadPlacement (sq idx) : (doReadPlacement sq idx s).stamp = s.stamp := by simp [doReadPlacement]

/-! ### Objects -/

@[simp] theorem stamp_acceptId (d) : (s.acceptId d).stamp = s.stamp := by simp [State.acceptId]
@[simp] theorem stamp_dropLoad (sq idx) : (s.dropLoad sq idx).stamp = s.stamp := by simp [State.dropLoad]
@[simp] theorem stamp_doLoadPattern (sq idx src) : (doLoadPattern sq idx src s).stamp = s.stamp := by
  refine stamp_withDesc fun d => ?_
  -- a variable of the proof's term: the kernel would unfold the function
  generalize State.placePattern = place
  revert place
  refine id fun place => ?_
  dsimp only
  (repeat' split) <;> simp
@[simp] theorem stamp_loadOther (op kind sq idx src) : (loadOther op kind sq idx src s).stamp = s.stamp := by
  refine stamp_withDesc fun d => ?_
  dsimp only
  (repeat' split) <;> simp
@[simp] theorem stamp_doLoadFlow (sq idx src) : (doLoadFlow sq idx src s).stamp = s.stamp := by simp [doLoadFlow]
@[simp] theorem stamp_doLoadPeList (sq idx src) : (doLoadPeList sq idx src s).stamp = s.stamp := by simp [doLoadPeList]
@[simp] theorem stamp_doApgFallback (sq idx) : (doApgFallback sq idx s).stamp = s.stamp := by
  refine stamp_withDesc fun d => ?_
  dsimp only
  (repeat' split) <;> simp
@[simp] theorem stamp_dropLinks (id) : (s.dropLinks id).stamp = s.stamp := by simp [State.dropLinks]
@[simp] theorem stamp_freeCopies (id) : (s.freeCopies id).stamp = s.stamp := by simp [State.freeCopies]
@[simp] theorem stamp_freeObj (id) : (s.freeObj id).stamp = s.stamp := by simp [State.freeObj]

/-! ### Admission -/

@[simp] theorem stamp_pullIn (m) : (s.pullIn m).stamp = s.stamp := by simp [State.pullIn]
@[simp] theorem stamp_mirrorBurst (b gone) : (s.mirrorBurst b gone).stamp = s.stamp := by simp [State.mirrorBurst]
@[simp] theorem stamp_admitBurst (b) : (s.admitBurst b).stamp = s.stamp := by
  unfold State.admitBurst
  (repeat' split) <;> simp
@[simp] theorem stamp_scanLoop (l) : (scanLoop l s).stamp = s.stamp := by
  induction l generalizing s with
  | nil => rfl
  | cons b r ih => unfold scanLoop; (repeat' split) <;> simp [ih]
@[simp] theorem stamp_scan : s.scan.stamp = s.stamp := by simp [State.scan]
@[simp] theorem stamp_submit (q) : (s.submit q).1.stamp = s.stamp := by
  unfold State.submit
  dsimp only
  (repeat' split) <;> simp
@[simp] theorem stamp_release (b) : (s.release b).stamp = s.stamp := by simp [State.release]

/-! ### Align -/

@[simp] theorem stamp_shiftStarts (d) : (s.shiftStarts d).stamp = s.stamp := by simp [State.shiftStarts]
@[simp] theorem stamp_shiftPast (k) : (s.shiftPast k).stamp = s.stamp := by simp [State.shiftPast]
@[simp] theorem noEarlier_stepDtime (h : NoEarlier x s.stamp) (k) : NoEarlier x (s.stepDtime k).stamp := by simp [State.stepDtime, h]
@[simp] theorem noEarlier_xoffStep (h : NoEarlier x s.stamp) : NoEarlier x s.xoffStep.stamp := by
  unfold State.xoffStep
  split <;> simp [h]
@[simp] theorem stamp_passOn (kind cum lead) : (s.passOn kind cum lead).stamp = s.stamp := by simp [State.passOn]
@[simp] theorem noEarlier_alignTo (h : NoEarlier x s.stamp) (l) : NoEarlier x (s.alignTo l).stamp := by
  unfold State.alignTo
  dsimp only
  split <;> simp [h]
@[simp] theorem noEarlier_alignPass (h : NoEarlier x s.stamp) (kind cum lead) : NoEarlier x (s.alignPass kind cum lead).stamp := by
  simp [State.alignPass, h]
@[simp] theorem stamp_alignStart : s.alignStart.stamp = s.stamp := by simp [State.alignStart]
@[simp] theorem noEarlier_alignResume (h : NoEarlier x s.stamp) : NoEarlier x s.alignResume.stamp := by
  unfold State.alignResume
  split <;> simp [h]
@[simp] theorem stamp_alignAbort : s.alignAbort.stamp = s.stamp := by simp [State.alignAbort]

/-! ### Reel -/

@[simp] theorem stamp_reelWord (n sl op act) : (reelWord n sl op act s).stamp = s.stamp := by
  unfold reelWord
  dsimp only
  (repeat' split) <;> simp
@[simp] theorem stamp_doVec (n sl) : (doVec n sl s).stamp = s.stamp := by simp [doVec]
@[simp] theorem stamp_doRpt (n sl) : (doRpt n sl s).stamp = s.stamp := by simp [doRpt]
@[simp] theorem stamp_doReelLoop (n sl) : (doReelLoop n sl s).stamp = s.stamp := by simp [doReelLoop]
@[simp] theorem stamp_doEndl (n sl) : (doEndl n sl s).stamp = s.stamp := by simp [doEndl]
@[simp] theorem stamp_doMloop (n sl) : (doMloop n sl s).stamp = s.stamp := by simp [doMloop]
@[simp] theorem stamp_setMatch (g iter word timeout) : (s.setMatch g iter word timeout).stamp = s.stamp := by simp [State.setMatch]
@[simp] theorem stamp_evalMatch (g c q f) : (s.evalMatch g c q f).stamp = s.stamp := by simp [State.evalMatch]
@[simp] theorem stamp_doMend (n sl) : (doMend n sl s).stamp = s.stamp := by
  unfold doMend
  dsimp only
  (repeat' split) <;> simp
@[simp] theorem stamp_doJmp (n sl) : (doJmp n sl s).stamp = s.stamp := by simp [doJmp]
@[simp] theorem stamp_doCall (n sl) : (doCall n sl s).stamp = s.stamp := by simp [doCall]
@[simp] theorem stamp_doRet (n sl) : (doRet n sl s).stamp = s.stamp := by simp [doRet]
@[simp] theorem stamp_doBrf (n sl) : (doBrf n sl s).stamp = s.stamp := by simp [doBrf]
@[simp] theorem stamp_doBrp (n sl) : (doBrp n sl s).stamp = s.stamp := by simp [doBrp]
@[simp] theorem stamp_doBranchDecision (n sl) : (doBranchDecision n sl s).stamp = s.stamp := by
  unfold doBranchDecision
  dsimp only
  split <;> simp
@[simp] theorem stamp_doSetMux (n sl) : (doSetMux n sl s).stamp = s.stamp := by simp [doSetMux]
@[simp] theorem stamp_doApgv (n sl) : (doApgv n sl s).stamp = s.stamp := by simp [doApgv]
@[simp] theorem stamp_doReelEnd (n sl) : (doReelEnd n sl s).stamp = s.stamp := by simp [doReelEnd]
@[simp] theorem stamp_setCkptReg (g k) : (s.setCkptReg g k).stamp = s.stamp := by
  unfold State.setCkptReg
  split <;> simp
@[simp] theorem stamp_commitCkpt (g c) : (s.commitCkpt g c).stamp = s.stamp := by
  unfold State.commitCkpt
  split <;> simp
@[simp] theorem stamp_doCheckpointCommit (n sl) : (doCheckpointCommit n sl s).stamp = s.stamp := by
  unfold doCheckpointCommit
  dsimp only
  split <;> simp

/-! ### MemLog -/

@[simp] theorem stamp_setLogWord (m j w v) : (s.setLogWord m j w v).stamp = s.stamp := by simp [State.setLogWord]
@[simp] theorem stamp_loseObjects (m) : (s.loseObjects m).stamp = s.stamp := by simp [State.loseObjects]
@[simp] theorem stamp_cutSlice (g k status) : (s.cutSlice g k status).stamp = s.stamp := by simp [State.cutSlice]
@[simp] theorem stamp_retireChannel (m) : (s.retireChannel m).stamp = s.stamp := by simp [State.retireChannel]
@[simp] theorem stamp_candidate (m br) : (s.candidate m br).stamp = s.stamp := by simp [State.candidate]
@[simp] theorem stamp_countRow (m br) : (s.countRow m br).stamp = s.stamp := by simp [State.countRow]
@[simp] theorem stamp_logDetect (d) : (s.logDetect d).stamp = s.stamp := by
  unfold State.logDetect
  dsimp only
  (repeat' split) <;> simp
@[simp] theorem stamp_memError (d) : (s.memError d).stamp = s.stamp := by simp [State.memError]
@[simp] theorem stamp_detected (d) : (s.detected d).stamp = s.stamp := by simp [State.detected]
theorem stamp_of_useInjection {t : State} {a : Nat} {c : Bool} (h : s.useInjection a = some (c, t)) : t.stamp = s.stamp := by
  unfold State.useInjection at h
  split at h
  · split at h
    · cases h; simp
    · cases h
  · cases h
@[simp] theorem stamp_readErrors (a n req) : (s.readErrors a n req).1.stamp = s.stamp := by
  unfold State.readErrors
  dsimp only
  split
  · split
    · split
      next h => simp [stamp_of_useInjection h]
      · simp
    · simp
  · simp
@[simp] theorem stamp_mergeError (addr req) : (s.mergeError addr req).stamp = s.stamp := by simp [State.mergeError]
@[simp] theorem stamp_mergeRead (addr req access ue) : (s.mergeRead addr req access ue).stamp = s.stamp := by
  unfold State.mergeRead
  split
  · simp
  · split
    next h => simp [stamp_of_useInjection h]
    · rfl
@[simp] theorem stamp_readBackError (o x) : (s.readBackError o x).stamp = s.stamp := by simp [State.readBackError]
@[simp] theorem stamp_doObjectLoadComplete (sq idx ue) : (doObjectLoadComplete sq idx ue s).stamp = s.stamp := by
  unfold doObjectLoadComplete
  (repeat' split) <;> simp

/-! ### Regions -/

@[simp] theorem stamp_upRegion (id f) : (s.upRegion id f).stamp = s.stamp := by simp [State.upRegion]
@[simp] theorem stamp_setGranule (a) : (s.setGranule a).stamp = s.stamp := by simp [State.setGranule]
@[simp] theorem stamp_writeHeader (id ue) : (s.writeHeader id ue).stamp = s.stamp := by
  unfold State.writeHeader
  split <;> simp
@[simp] theorem stamp_endHeader (id) : (s.endHeader id).stamp = s.stamp := by simp [State.endHeader]
@[simp] theorem stamp_upRes (site f) : (s.upRes site f).stamp = s.stamp := by simp [State.upRes]
@[simp] theorem stamp_qualify (e bit) : (s.qualify e bit).stamp = s.stamp := by simp [State.qualify]
@[simp] theorem stamp_reduce (g e sites v) : (s.reduce g e sites v).stamp = s.stamp := by simp [State.reduce]
@[simp] theorem stamp_loseRecord (site region) : (s.loseRecord site region).stamp = s.stamp := by simp [State.loseRecord]
@[simp] theorem stamp_writeRecord (n rec joined ue) : (s.writeRecord n rec joined ue).stamp = s.stamp := by
  unfold State.writeRecord
  dsimp only
  (repeat' split) <;> simp
@[simp] theorem stamp_doCaptureRecordWrite (n ue) : (doCaptureRecordWrite n ue s).stamp = s.stamp := by
  unfold doCaptureRecordWrite
  dsimp only
  (repeat' split) <;> simp
@[simp] theorem noEarlier_doRegionHeaderWrite (h : NoEarlier x s.stamp) (id ue t) : NoEarlier x (doRegionHeaderWrite id ue t s).stamp := by
  unfold doRegionHeaderWrite
  split <;> simp [h]
@[simp] theorem stamp_doBitmapWriteback (n i ue) : (doBitmapWriteback n i ue s).stamp = s.stamp := by
  unfold doBitmapWriteback
  (repeat' split) <;> simp
@[simp] theorem stamp_defineRegion (d) : (s.defineRegion d).stamp = s.stamp := by
  unfold State.defineRegion
  dsimp only
  (repeat' split) <;> simp
@[simp] theorem stamp_doDefineRegion (sq idx) : (doDefineRegion sq idx s).stamp = s.stamp := by simp [doDefineRegion]
@[simp] theorem stamp_waited {sq idx : Nat} {p : WaitKind → Bool} {f : State → Desc → State} (h : ∀ u d, (f u d).stamp = u.stamp) :
    (s.waited sq idx p f).stamp = s.stamp := by
  unfold State.waited; (repeat' split) <;> simp [h]
@[simp] theorem stamp_doDeferredRegionDefine (sq idx) : (doDeferredRegionDefine sq idx s).stamp = s.stamp := by
  simp [doDeferredRegionDefine]
@[simp] theorem stamp_freeRegion (id) : (s.freeRegion id).stamp = s.stamp := by simp [State.freeRegion]
@[simp] theorem stamp_clearRegion (id) : (s.clearRegion id).stamp = s.stamp := by
  unfold State.clearRegion
  split <;> simp
@[simp] theorem stamp_regionDesc {op : Nat} {kind : Nat → WaitKind} {act : State → Nat → State} {sq idx : Nat} (h :
    ∀ u id, (act u id).stamp = u.stamp) : (regionDesc op kind act sq idx s).stamp = s.stamp := by
  refine stamp_withDesc fun d => ?_
  dsimp only
  (repeat' split) <;> simp [h]
@[simp] theorem stamp_doFreeRegion (sq idx) : (doFreeRegion sq idx s).stamp = s.stamp := by simp [doFreeRegion]
@[simp] theorem stamp_doClearRegion (sq idx) : (doClearRegion sq idx s).stamp = s.stamp := by simp [doClearRegion]
@[simp] theorem stamp_regionWaited {op : Nat} {act : State → Nat → State} {sq idx : Nat} (h : ∀ u id, (act u id).stamp = u.stamp) :
    (regionWaited op act sq idx s).stamp = s.stamp := by
  refine stamp_waited fun u d => ?_
  dsimp only
  split <;> simp [h]
@[simp] theorem stamp_doDeferredRegionFree (sq idx) : (doDeferredRegionFree sq idx s).stamp = s.stamp := by simp [doDeferredRegionFree]
@[simp] theorem stamp_doDeferredRegionClear (sq idx) : (doDeferredRegionClear sq idx s).stamp = s.stamp := by simp [doDeferredRegionClear]
@[simp] theorem stamp_doReadRegion (sq idx) : (doReadRegion sq idx s).stamp = s.stamp := by
  refine stamp_withDesc fun d => ?_
  dsimp only
  (repeat' split) <;> simp
@[simp] theorem stamp_doReadSiteResult (sq idx) : (doReadSiteResult sq idx s).stamp = s.stamp := by
  refine stamp_withDesc fun d => ?_
  dsimp only
  (repeat' split) <;> simp

/-! ### Flags -/

@[simp] theorem stamp_stick (flag chan n c) : (s.stick flag chan n c).stamp = s.stamp := by simp [State.stick]
@[simp] theorem stamp_apgEvt (k bit) : (s.apgEvt k bit).stamp = s.stamp := by simp [State.apgEvt]
@[simp] theorem stamp_raise (n bit stamp) : (s.raise n bit stamp).stamp = s.stamp := by simp [State.raise]
@[simp] theorem stamp_fallIn (e v) : (s.fallIn e v).stamp = s.stamp := by
  unfold State.fallIn
  (repeat' split) <;> simp
@[simp] theorem stamp_setChCounts (x l) : (s.setChCounts x l).stamp = s.stamp := by simp [State.setChCounts]
@[simp] theorem stamp_setSliceCounts (g fails first last) : (s.setSliceCounts g fails first last).stamp = s.stamp := by
  simp [State.setSliceCounts]
@[simp] theorem stamp_sliceHit (g v) : (s.sliceHit g v).stamp = s.stamp := by simp [State.sliceHit]
@[simp] theorem stamp_countSite (e n v d) : (s.countSite e n v d).stamp = s.stamp := by simp [State.countSite]
@[simp] theorem stamp_maskFirst (g v d) : (s.maskFirst g v d).stamp = s.stamp := by
  unfold State.maskFirst
  split <;> simp
@[simp] theorem stamp_countVector (g e v vs) : (s.countVector g e v vs).stamp = s.stamp := by simp [State.countVector]

/-! ### Capture -/

@[simp] theorem stamp_upCap (g f) : (s.upCap g f).stamp = s.stamp := by simp [State.upCap]
@[simp] theorem stamp_growCredit (g t) : (s.growCredit g t).stamp = s.stamp := by simp [State.growCredit]
@[simp] theorem stamp_settleCredit (n t) : (s.settleCredit n t).stamp = s.stamp := by simp [State.settleCredit]
@[simp] theorem stamp_pay (g n) : (s.pay g n).stamp = s.stamp := by simp [State.pay]
@[simp] theorem stamp_pushRec (g e site v bs) : (s.pushRec g e site v bs).stamp = s.stamp := by
  unfold State.pushRec
  split <;> simp
@[simp] theorem stamp_writeMode (g e now v t mode reason) : (s.writeMode g e now v t mode reason).stamp = s.stamp := by
  simp [State.writeMode]
@[simp] theorem stamp_enterSummary (g e v t reason) : (s.enterSummary g e v t reason).stamp = s.stamp := by simp [State.enterSummary]
@[simp] theorem stamp_closeRanges (g e last) : (s.closeRanges g e last).stamp = s.stamp := by
  refine (stamp_upCap _ _).trans (stamp_foldl (fun a y => ?_) _ _)
  split <;> simp
@[simp] theorem stamp_dropRaws (g e v raws) : (s.dropRaws g e v raws).stamp = s.stamp := by simp [State.dropRaws]
@[simp] theorem stamp_captureVector (g e v tset t tEnd vs) : (s.captureVector g e v tset t tEnd vs).stamp = s.stamp := by
  simp [State.captureVector]
@[simp] theorem stamp_captureLate (g e v tset t vs) : (s.captureLate g e v tset t vs).stamp = s.stamp := by simp [State.captureLate]
@[simp] theorem stamp_captureEnd (g e v) : (s.captureEnd g e v).stamp = s.stamp := by simp [State.captureEnd]
@[simp] theorem stamp_bitmapBeat (g e site k idx word v) : (s.bitmapBeat g e site k idx word v).stamp = s.stamp := by
  unfold State.bitmapBeat
  (repeat' split) <;> simp
@[simp] theorem stamp_tellRegion (r t) : (s.tellRegion r t).stamp = s.stamp := by simp [State.tellRegion]
@[simp] theorem stamp_stampRegion (r near t0 rec) : (s.stampRegion r near t0 rec).stamp = s.stamp := by simp [State.stampRegion]
@[simp] theorem stamp_deliverDue (sample sites t) : (s.deliverDue sample sites t).stamp = s.stamp := by
  refine stamp_foldl (fun a x => ?_) _ _
  dsimp only
  split <;> simp
@[simp] theorem stamp_deliverRest (sample sites) : (s.deliverRest sample sites).stamp = s.stamp := by simp [State.deliverRest]

/-! ### Bridle -/

@[simp] theorem stamp_stopOthers (e g t status) : (s.stopOthers e g t status).stamp = s.stamp := by
  unfold State.stopOthers
  split <;> simp
@[simp] theorem stamp_denOff (n c t) : (s.denOff n c t).stamp = s.stamp := by simp [State.denOff]
@[simp] theorem stamp_driversOff (e n t) : (s.driversOff e n t).stamp = s.stamp := by simp [State.driversOff]
@[simp] theorem stamp_sendFails (g c v) : (s.sendFails g c v).stamp = s.stamp := by
  unfold State.sendFails
  split <;> simp
@[simp] theorem stamp_markCkpt (g c i steer) : (s.markCkpt g c i steer).stamp = s.stamp := by simp [State.markCkpt]
@[simp] theorem stamp_settleCharge (g c) : (s.settleCharge g c).stamp = s.stamp := by
  unfold State.settleCharge
  dsimp only
  split <;> simp
@[simp] theorem stamp_endPart (g c x) : (s.endPart g c x).stamp = s.stamp := by
  unfold State.endPart
  dsimp only
  (repeat' split) <;> simp
@[simp] theorem stamp_raiseSiteFail (e v stamp) : (s.raiseSiteFail e v stamp).stamp = s.stamp := by
  unfold State.raiseSiteFail
  split <;> simp
@[simp] theorem stamp_raiseVector (g e t q r l vs) : (s.raiseVector g e t q r l vs).stamp = s.stamp := by
  unfold State.raiseVector
  extract_lets n sl s1 s2 live first s3
  have h2 : s2.stamp = s.stamp := by unfold s2 s1; split <;> simp
  have h3 : s3.stamp = s.stamp := by unfold s3; clear_value first; split <;> simp [h2]
  split
  · exact h2
  · refine (stamp_foldl (fun a y => ?_) _ _).trans h3
    split <;> simp
@[simp] theorem stamp_countTrans (l) : (s.countTrans l).stamp = s.stamp := by simp [State.countTrans]
@[simp] theorem stamp_applyVector (s00 : State) (g c r rest smp) : (s00.applyVector g c r rest smp).stamp = s00.stamp := by
  unfold State.applyVector
  extract_lets n e s q v t ts tEnd apg joined word pins l sk s0 s1 s2 bound flag s3 s4 sites own charged s5 vs bad s6 s7 s8 s10 s11
  have hflag (u : State) (k : Option Nat) (b : Nat) (on : Bool) : (flag u k b on).stamp = u.stamp := by
    unfold flag; split
    · split <;> simp
    · rfl
  have hk : sk.stamp = s00.stamp := by unfold sk s; split <;> simp
  have h2 : s2.stamp = s00.stamp := by simp [s2, s1, s0, hk]
  have h4 : s4.stamp = s00.stamp := by
    unfold s4 s3; split
    · split <;> simp [hflag, h2]
    · simp [hflag, h2]
  have h7 : s7.stamp = s00.stamp := by simp [s7, s6, s5, h4]
  have h8 : s8.stamp = s00.stamp := by
    unfold s8; split
    · exact h7
    · refine (stamp_foldl (fun a y => stamp_foldl (fun b i => ?_) _ _) _ _).trans h7
      split <;> simp
  simp [s11, s10, h8]
@[simp] theorem stamp_settleEnd (g) : (s.settleEnd g).stamp = s.stamp := by
  unfold State.settleEnd
  dsimp only
  (repeat' split) <;> simp
@[simp] theorem stamp_endStart (e status reason) : (s.endStart e status reason).stamp = s.stamp := by
  unfold State.endStart
  split <;> simp
@[simp] theorem stamp_tellNogo (e status) : (s.tellNogo e status).stamp = s.stamp := by
  unfold State.tellNogo
  split <;> simp
@[simp] theorem stamp_endFilling (e status) : (s.endFilling e status).stamp = s.stamp := by simp [State.endFilling]
@[simp] theorem stamp_raiseEnd (g status) : (s.raiseEnd g status).stamp = s.stamp := by
  unfold State.raiseEnd
  split <;> simp
@[simp] theorem stamp_stopSlice (g t status) : (s.stopSlice g t status).stamp = s.stamp := by
  unfold State.stopSlice
  split <;> simp
@[simp] theorem stamp_endNow (g status) : (s.endNow g status).stamp = s.stamp := by
  unfold State.endNow
  split <;> simp
@[simp] theorem stamp_undoCounts (g e u) : (s.undoCounts g e u).stamp = s.stamp := by
  unfold State.undoCounts
  dsimp only
  split <;> simp
@[simp] theorem stamp_undoEvents (g e v t) : (s.undoEvents g e v t).stamp = s.stamp := by simp [State.undoEvents]
@[simp] theorem stamp_undoVector (g c u) : (s.undoVector g c u).stamp = s.stamp := by
  unfold State.undoVector
  extract_lets v e n s1 s2 s3
  have h1 : s1.stamp = s.stamp := by
    refine stamp_foldl (fun a r => ?_) _ _
    split <;> simp
  simp [s3, s2, h1]
@[simp] theorem stamp_cutNow (g status) : (s.cutNow g status).stamp = s.stamp := by
  unfold State.cutNow
  split <;> simp
@[simp] theorem stamp_endEnt (e status) : (s.endEnt e status).stamp = s.stamp := by simp [State.endEnt]
@[simp] theorem stamp_stopEnt (e t status) : (s.stopEnt e t status).stamp = s.stamp := by simp [State.stopEnt]
@[simp] theorem noEarlier_boundaryXoff (h : NoEarlier x s.stamp) : NoEarlier x s.boundaryXoff.stamp := by simp [State.boundaryXoff, h]
@[simp] theorem noEarlier_doStopRequest (h : NoEarlier x s.stamp) (n sl status t) : NoEarlier x (doStopRequest n sl status t s).stamp := by
  simp [doStopRequest, h]
@[simp] theorem stamp_doSeqCtlAbort (n v) : (doSeqCtlAbort n v s).stamp = s.stamp := by simp [doSeqCtlAbort]

/-! ### Apg -/

@[simp] theorem stamp_powerUp (d) : (s.powerUp d).stamp = s.stamp := by simp [State.powerUp]
@[simp] theorem stamp_setBind (k e) : (s.setBind k e).stamp = s.stamp := by simp [State.setBind]
@[simp] theorem stamp_unbind (k) : (s.unbind k).stamp = s.stamp := by simp [State.unbind]
@[simp] theorem stamp_unbindEnt (e keep) : (s.unbindEnt e keep).stamp = s.stamp := by simp [State.unbindEnt]
@[simp] theorem stamp_bind (k e setup) : (s.bind k e setup).stamp = s.stamp := by simp [State.bind]
@[simp] theorem stamp_bindTurn (d setup) : (s.bindTurn d setup).stamp = s.stamp := by simp [State.bindTurn]
@[simp] theorem stamp_doBindApg (sq idx src) : (doBindApg sq idx src s).stamp = s.stamp := by
  unfold doBindApg
  split <;> simp
@[simp] theorem stamp_doDeferredBindApg (sq idx) : (doDeferredBindApg sq idx s).stamp = s.stamp := by
  unfold doDeferredBindApg
  (repeat' split) <;> simp
@[simp] theorem stamp_endApgBursts (k status) : (s.endApgBursts k status).stamp = s.stamp := by simp [State.endApgBursts]
@[simp] theorem stamp_doApgFailure (k) : (doApgFailure k s).stamp = s.stamp := by simp [doApgFailure]

/-! ### Chains -/

@[simp] theorem stamp_upPort (n f) : (s.upPort n f).stamp = s.stamp := by simp [State.upPort]
@[simp] theorem stamp_upChain (k f) : (s.upChain k f).stamp = s.stamp := by simp [State.upChain]
@[simp] theorem stamp_restartWin (k) : (s.restartWin k).stamp = s.stamp := by simp [State.restartWin]
@[simp] theorem stamp_doAdcAlign (n v) : (doAdcAlign n v s).stamp = s.stamp := by simp [doAdcAlign]
@[simp] theorem noEarlier_doAdcAlignmentComplete (h : NoEarlier x s.stamp) (n m0 m1 t) :
    NoEarlier x (doAdcAlignmentComplete n m0 m1 t s).stamp := by
  unfold doAdcAlignmentComplete
  dsimp only
  (repeat' split) <;> simp [h]
@[simp] theorem stamp_upAcq (site f) : (s.upAcq site f).stamp = s.stamp := by simp [State.upAcq]
@[simp] theorem stamp_growChain (k t) : (s.growChain k t).stamp = s.stamp := by simp [State.growChain]
@[simp] theorem stamp_loseBlock (k site region written) : (s.loseBlock k site region written).stamp = s.stamp := by simp [State.loseBlock]
@[simp] theorem stamp_closeBlock (k t) : (s.closeBlock k t).stamp = s.stamp := by
  unfold State.closeBlock
  dsimp only
  split <;> simp
@[simp] theorem stamp_settleChains (e t) : (s.settleChains e t).stamp = s.stamp := by simp [State.settleChains]
@[simp] theorem stamp_resplit (e) : (s.resplit e).stamp = s.stamp := by simp [State.resplit]
@[simp] theorem stamp_reshare (ks t f) : (s.reshare ks t f).stamp = s.stamp := by simp [State.reshare]
@[simp] theorem stamp_settleAcq (site) : (s.settleAcq site).stamp = s.stamp := by
  unfold State.settleAcq
  (repeat' split) <;> simp
@[simp] theorem stamp_addEntries (k t) : (s.addEntries k t).stamp = s.stamp := by
  unfold State.addEntries
  dsimp only
  split <;> simp
@[simp] theorem stamp_stopAcq (site st t) : (s.stopAcq site st t).stamp = s.stamp := by
  unfold State.stopAcq
  split <;> simp
@[simp] theorem stamp_startAcq (site t) : (s.startAcq site t).stamp = s.stamp := by
  unfold State.startAcq
  split <;> simp
@[simp] theorem stamp_setupAcq (q o) : (s.setupAcq q o).stamp = s.stamp := by simp [State.setupAcq]
@[simp] theorem stamp_doAcquire (sq idx) : (doAcquire sq idx s).stamp = s.stamp := by simp [doAcquire]
@[simp] theorem noEarlier_doAcquisitionStart (h : NoEarlier x s.stamp) (site t) : NoEarlier x (doAcquisitionStart site t s).stamp := by
  unfold doAcquisitionStart
  split <;> simp [h]
@[simp] theorem noEarlier_doAcquisitionStop (h : NoEarlier x s.stamp) (site t) : NoEarlier x (doAcquisitionStop site t s).stamp := by
  unfold doAcquisitionStop
  split <;> simp [h]
@[simp] theorem stamp_doSampleBlockWrite (e ue) : (doSampleBlockWrite e ue s).stamp = s.stamp := by
  unfold doSampleBlockWrite
  (repeat' split) <;> simp
@[simp] theorem stamp_setDutpwr (n on) : (s.setDutpwr n on).stamp = s.stamp := by simp [State.setDutpwr]
@[simp] theorem stamp_trip (k) : (s.trip k).stamp = s.stamp := by simp [State.trip]
@[simp] theorem stamp_beginInterval (k t) : (s.beginInterval k t).stamp = s.stamp := by simp [State.beginInterval]
@[simp] theorem stamp_thresholds (k t) : (s.thresholds k t).stamp = s.stamp := by simp [State.thresholds]
@[simp] theorem stamp_framed (n t) : (s.framed n t).stamp = s.stamp := by simp [State.framed]
@[simp] theorem noEarlier_portFrame (h : NoEarlier x s.stamp) (k code t) : NoEarlier x (s.portFrame k code t).stamp := by
  simp [State.portFrame, h]
@[simp] theorem noEarlier_doAdcSample (h : NoEarlier x s.stamp) (k code t) : NoEarlier x (doAdcSample k code t s).stamp := by
  simp [doAdcSample, h]
@[simp] theorem noEarlier_doMmWindowEnd (h : NoEarlier x s.stamp) (k t) : NoEarlier x (doMmWindowEnd k t s).stamp := by
  simp [doMmWindowEnd, h]
@[simp] theorem noEarlier_doFclkLoss (h : NoEarlier x s.stamp) (n t) : NoEarlier x (doFclkLoss n t s).stamp := by simp [doFclkLoss, h]
@[simp] theorem noEarlier_doFclkReturn (h : NoEarlier x s.stamp) (n t) : NoEarlier x (doFclkReturn n t s).stamp := by simp [doFclkReturn, h]
@[simp] theorem stamp_writeChainCtl (k v) : (s.writeChainCtl k v).stamp = s.stamp := by
  unfold State.writeChainCtl
  dsimp only
  split <;> simp
@[simp] theorem stamp_doChainPreset (k v) : (doChainPreset k v s).stamp = s.stamp := by simp [doChainPreset]
@[simp] theorem stamp_doFchainEnable (k v) : (doFchainEnable k v s).stamp = s.stamp := by simp [doFchainEnable]

/-! ### Bench -/

@[simp] theorem stamp_putTset (n k bs) : (s.putTset n k bs).stamp = s.stamp := by simp [State.putTset]
@[simp] theorem stamp_delTset (n k) : (s.delTset n k).stamp = s.stamp := by simp [State.delTset]
@[simp] theorem stamp_doLoadTset (sq idx src) : (doLoadTset sq idx src s).stamp = s.stamp := by
  unfold doLoadTset
  dsimp only
  (repeat' split) <;> simp
@[simp] theorem stamp_doDeferredTsetLoad (sq idx) : (doDeferredTsetLoad sq idx s).stamp = s.stamp := by
  unfold doDeferredTsetLoad
  split <;> simp
@[simp] theorem stamp_unloadTset (sq idx n k) : (s.unloadTset sq idx n k).stamp = s.stamp := by simp [State.unloadTset]
@[simp] theorem stamp_doUnloadTset (sq idx) : (doUnloadTset sq idx s).stamp = s.stamp := by simp [doUnloadTset]
@[simp] theorem stamp_doDeferredTsetUnload (sq idx) : (doDeferredTsetUnload sq idx s).stamp = s.stamp := by
  unfold doDeferredTsetUnload
  split <;> simp
@[simp] theorem stamp_upDrift (n f) : (s.upDrift n f).stamp = s.stamp := by simp [State.upDrift]
@[simp] theorem stamp_acquireDrift (n) : (s.acquireDrift n).stamp = s.stamp := by simp [State.acquireDrift]
@[simp] theorem stamp_driftUpdate (n gain offset whole) : (s.driftUpdate n gain offset whole).stamp = s.stamp := by simp [State.driftUpdate]
@[simp] theorem noEarlier_doDriftMeasurement (h : NoEarlier x s.stamp) (n gain offset t) :
    NoEarlier x (doDriftMeasurement n gain offset t s).stamp := by
  simp [doDriftMeasurement, h]
@[simp] theorem noEarlier_doDriftAcquireUpdate (h : NoEarlier x s.stamp) (n gain offset t) :
    NoEarlier x (doDriftAcquireUpdate n gain offset t s).stamp := by
  simp [doDriftAcquireUpdate, h]
@[simp] theorem stamp_acquireWhole (n) : (s.acquireWhole n).stamp = s.stamp := by simp [State.acquireWhole]
@[simp] theorem stamp_writeDriftCtl (n v) : (s.writeDriftCtl n v).stamp = s.stamp := by simp [State.writeDriftCtl]
@[simp] theorem stamp_doDriftEnable (n v) : (doDriftEnable n v s).stamp = s.stamp := by simp [doDriftEnable]
@[simp] theorem stamp_doDriftDisable (n v) : (doDriftDisable n v s).stamp = s.stamp := by simp [doDriftDisable]
@[simp] theorem stamp_doResetTrim (n v) : (doResetTrim n v s).stamp = s.stamp := by simp [doResetTrim]
@[simp] theorem stamp_doDeskewWrite (n c second v) : (doDeskewWrite n c second v s).stamp = s.stamp := by simp [doDeskewWrite]
@[simp] theorem stamp_upPe (n f) : (s.upPe n f).stamp = s.stamp := by simp [State.upPe]
@[simp] theorem stamp_peQueue (n i) : (s.peQueue n i).stamp = s.stamp := by simp [State.peQueue]
@[simp] theorem stamp_peIssued (u) : (s.peIssued u).stamp = s.stamp := by
  unfold State.peIssued
  (repeat' split) <;> simp
@[simp] theorem stamp_peRoom (n) : (s.peRoom n).stamp = s.stamp := by
  unfold State.peRoom
  split <;> simp
@[simp] theorem stamp_peCut (n u st) : (s.peCut n u st).1.stamp = s.stamp := by
  unfold State.peCut
  dsimp only
  (repeat' split) <;> simp
@[simp] theorem stamp_peOrphan (n u keep) : (s.peOrphan n u keep).stamp = s.stamp := by simp [State.peOrphan]
@[simp] theorem stamp_doPeListStart (n) : (doPeListStart n s).stamp = s.stamp := by simp [doPeListStart]
@[simp] theorem stamp_peSend (n fs) : (s.peSend n fs).stamp = s.stamp := by simp [State.peSend]
@[simp] theorem stamp_upCalib (sq idx f) : (s.upCalib sq idx f).stamp = s.stamp := by simp [State.upCalib]
@[simp] theorem stamp_doCalibrate (sq idx) : (doCalibrate sq idx s).stamp = s.stamp := by simp [doCalibrate]
@[simp] theorem stamp_doCalibrationStart (sq idx) : (doCalibrationStart sq idx s).stamp = s.stamp := by
  unfold doCalibrationStart
  split <;> simp
@[simp] theorem stamp_upCalChan (n c f) : (s.upCalChan n c f).stamp = s.stamp := by simp [State.upCalChan]
@[simp] theorem stamp_calApply (c m) : (s.calApply c m).stamp = s.stamp := by simp [State.calApply]
@[simp] theorem stamp_dropCalib (sq idx) : (s.dropCalib sq idx).stamp = s.stamp := by simp [State.dropCalib]
@[simp] theorem stamp_calFinish (c) : (s.calFinish c).stamp = s.stamp := by simp [State.calFinish]
@[simp] theorem stamp_calRestore (c) : (s.calRestore c).stamp = s.stamp := by simp [State.calRestore]
@[simp] theorem stamp_doCalibrationComplete (sq idx meas) : (doCalibrationComplete sq idx meas s).stamp = s.stamp := by
  unfold doCalibrationComplete
  split <;> simp
@[simp] theorem stamp_calListDone (sq idx st restore) : (s.calListDone sq idx st restore).stamp = s.stamp := by
  unfold State.calListDone
  split <;> simp
@[simp] theorem stamp_peWaitsOrphan (n u drop) : (s.peWaitsOrphan n u drop).stamp = s.stamp := by simp [State.peWaitsOrphan]
@[simp] theorem stamp_calStop (c) (st) (h : CalStop) : (s.calStop c st h).stamp = s.stamp := by simp [State.calStop]
@[simp] theorem stamp_calStopAll (p) (st) (h : CalStop) : (s.calStopAll p st h).stamp = s.stamp := by simp [State.calStopAll]

/-! ### Meters -/

@[simp] theorem stamp_upMeter (k f) : (s.upMeter k f).stamp = s.stamp := by simp [State.upMeter]
@[simp] theorem stamp_endMeas (k status q timeout ovf now) : (s.endMeas k status q timeout ovf now).stamp = s.stamp := by
  simp [State.endMeas]
@[simp] theorem stamp_stopMeas (k status) : (s.stopMeas k status).stamp = s.stamp := by simp [State.stopMeas]
@[simp] theorem stamp_armMeter (k t) : (s.armMeter k t).stamp = s.stamp := by simp [State.armMeter]
@[simp] theorem stamp_setupMeas (c o) : (s.setupMeas c o).stamp = s.stamp := by simp [State.setupMeas]
@[simp] theorem stamp_doMeasureInterval (sq idx) : (doMeasureInterval sq idx s).stamp = s.stamp := by simp [doMeasureInterval]
@[simp] theorem noEarlier_doMeterArm (h : NoEarlier x s.stamp) (n i t) : NoEarlier x (doMeterArm n i t s).stamp := by simp [doMeterArm, h]
@[simp] theorem stamp_stopEdge (k a e) : (s.stopEdge k a e).stamp = s.stamp := by simp [State.stopEdge]
@[simp] theorem stamp_signedPair (k) : (s.signedPair k).stamp = s.stamp := by
  unfold State.signedPair
  dsimp only
  split <;> simp
@[simp] theorem stamp_takeEdge (k stop e) : (s.takeEdge k stop e).stamp = s.stamp := by
  unfold State.takeEdge
  dsimp only
  (repeat' split) <;> simp
@[simp] theorem stamp_edgeAt (k stop e) : (s.edgeAt k stop e).stamp = s.stamp := by simp [State.edgeAt]
@[simp] theorem noEarlier_doMeterEdge (h : NoEarlier x s.stamp) (n i stop coarse phase) :
    NoEarlier x (doMeterEdge n i stop coarse phase s).stamp := by
  simp [doMeterEdge, h]
@[simp] theorem stamp_markEdges (g e t marks) : (s.markEdges g e t marks).stamp = s.stamp := by simp [State.markEdges]
@[simp] theorem noEarlier_doMeterTimeout (h : NoEarlier x s.stamp) (n i t) : NoEarlier x (doMeterTimeout n i t s).stamp := by
  simp [doMeterTimeout, h]
@[simp] theorem noEarlier_doMeterOverflow (h : NoEarlier x s.stamp) (n i t) : NoEarlier x (doMeterOverflow n i t s).stamp := by
  simp [doMeterOverflow, h]
@[simp] theorem stamp_doImeterAbort (n i v) : (doImeterAbort n i v s).stamp = s.stamp := by simp [doImeterAbort]
@[simp] theorem stamp_retireMeter (k) : (s.retireMeter k).stamp = s.stamp := by simp [State.retireMeter]
@[simp] theorem stamp_doImeterFailure (n i) : (doImeterFailure n i s).stamp = s.stamp := by simp [doImeterFailure]

/-! ### Triggers -/

@[simp] theorem stamp_upTrig (k f) : (s.upTrig k f).stamp = s.stamp := by simp [State.upTrig]
@[simp] theorem stamp_armTrig (k t) : (s.armTrig k t).stamp = s.stamp := by simp [State.armTrig]
@[simp] theorem stamp_doTrigArm (n u v) : (doTrigArm n u v s).stamp = s.stamp := by simp [doTrigArm]
@[simp] theorem stamp_trigPhase (k a1) : (s.trigPhase k a1).stamp = s.stamp := by simp [State.trigPhase]
@[simp] theorem stamp_trigStamp (k t t0 rec) : (s.trigStamp k t t0 rec).stamp = s.stamp := by simp [State.trigStamp]
@[simp] theorem stamp_lateRecord (k) : (s.lateRecord k).stamp = s.stamp := by
  unfold State.lateRecord
  split <;> simp
@[simp] theorem noEarlier_doTriggerEventArrival (h : NoEarlier x s.stamp) (n u src stamp arrive) :
    NoEarlier x (doTriggerEventArrival n u src stamp arrive s).stamp := by
  unfold doTriggerEventArrival
  dsimp only
  (repeat' split) <;> simp [h]
@[simp] theorem stamp_pulseOut (j) : (s.pulseOut j).stamp = s.stamp := by simp [State.pulseOut]
@[simp] theorem stamp_publish (k t0) : (s.publish k t0).stamp = s.stamp := by simp [State.publish]
@[simp] theorem noEarlier_doTriggerDecision (h : NoEarlier x s.stamp) (n u t) : NoEarlier x (doTriggerDecision n u t s).stamp := by
  unfold doTriggerDecision
  dsimp only
  split <;> simp [h]
@[simp] theorem noEarlier_doTriggerRearm (h : NoEarlier x s.stamp) (n u t) : NoEarlier x (doTriggerRearm n u t s).stamp := by
  unfold doTriggerRearm
  dsimp only
  split <;> simp [h]
@[simp] theorem noEarlier_doTrigOutPulseEnd (h : NoEarlier x s.stamp) (j t) : NoEarlier x (doTrigOutPulseEnd j t s).stamp := by
  unfold doTrigOutPulseEnd
  split <;> simp [h]

/-! ### Starts -/

@[simp] theorem stamp_resetResult (x b) : (s.resetResult x b).stamp = s.stamp := by simp [State.resetResult]
@[simp] theorem stamp_restoreResult (x b k) : (s.restoreResult x b k).stamp = s.stamp := by simp [State.restoreResult]
@[simp] theorem stamp_restoreSlice (g c k t) : (s.restoreSlice g c k t).stamp = s.stamp := by simp [State.restoreSlice]
@[simp] theorem stamp_startRegions (x b) : (s.startRegions x b).stamp = s.stamp := by
  unfold State.startRegions
  dsimp only
  (repeat' split) <;> simp
@[simp] theorem stamp_startSlice (g t) : (s.startSlice g t).stamp = s.stamp := by
  unfold State.startSlice
  (repeat' split) <;> simp
@[simp] theorem stamp_armBurst (e t) : (s.armBurst e t).stamp = s.stamp := by simp [State.armBurst]
@[simp] theorem stamp_freezeChains (e on) : (s.freezeChains e on).stamp = s.stamp := by simp [State.freezeChains]
@[simp] theorem stamp_startBurst (e t) : (s.startBurst e t).stamp = s.stamp := by
  unfold State.startBurst
  (repeat' split) <;> simp
@[simp] theorem stamp_setStart (e) : (s.setStart e).stamp = s.stamp := by
  unfold State.setStart
  (repeat' split) <;> simp
@[simp] theorem stamp_noteReady (e pos) : (s.noteReady e pos).stamp = s.stamp := by
  unfold State.noteReady
  split <;> simp
@[simp] theorem noEarlier_doBurstStart (h : NoEarlier x s.stamp) (isGroup id t) : NoEarlier x (doBurstStart isGroup id t s).stamp := by
  unfold doBurstStart
  dsimp only
  (repeat' split) <;> simp [h]
@[simp] theorem noEarlier_doVectorStart (h : NoEarlier x s.stamp) (n sl smp) : NoEarlier x (doVectorStart n sl smp s).stamp := by
  unfold doVectorStart
  dsimp only
  (repeat' split) <;> simp [h]

/-! ### EndBurst -/

@[simp] theorem stamp_endWithBurst (e started) : (s.endWithBurst e started).stamp = s.stamp := by
  unfold State.endWithBurst
  extract_lets s1
  have h1 : s1.stamp = s.stamp := by
    refine stamp_foldl (fun a x => ?_) _ _
    split <;> simp
  simp [h1]
@[simp] theorem stamp_endSlice (g st x) : (s.endSlice g st x).stamp = s.stamp := by simp [State.endSlice]
@[simp] theorem stamp_endSites (b st x) : (s.endSites b st x).stamp = s.stamp := by
  refine stamp_foldl (fun a y => ?_) _ _
  extract_lets s1 s2 s3
  have h2 : s2.stamp = a.stamp := by unfold s2 s1; split <;> simp
  have h3 : s3.stamp = a.stamp := by unfold s3; split <;> simp [h2]
  simp [h3]
@[simp] theorem stamp_blockLate (b) : (s.blockLate b).stamp = s.stamp := by simp [State.blockLate]
@[simp] theorem noEarlier_finishBurst (h : NoEarlier x s.stamp) (b0 y) : NoEarlier x (s.finishBurst b0 y).stamp := by
  unfold State.finishBurst
  dsimp only
  (repeat' split) <;> simp [h]
@[simp] theorem noEarlier_dropBurst (h : NoEarlier x s.stamp) (e status reason) : NoEarlier x (s.dropBurst e status reason).stamp := by
  unfold State.dropBurst
  split <;> simp [h]
@[simp] theorem noEarlier_stopBurst (h : NoEarlier x s.stamp) (e status) : NoEarlier x (s.stopBurst e status).stamp := by
  unfold State.stopBurst
  split <;> simp [h]
@[simp] theorem stamp_noStartQual (e) : (s.noStartQual e).stamp = s.stamp := by simp [State.noStartQual]
@[simp] theorem noEarlier_doBurstComplete (h : NoEarlier x s.stamp) (isGroup id) : NoEarlier x (doBurstComplete isGroup id s).stamp := by
  unfold doBurstComplete
  dsimp only
  split <;> simp [h]
@[simp] theorem noEarlier_needRing (h : NoEarlier x s.stamp) (e) : NoEarlier x (s.needRing e).stamp := by simp [State.needRing, h]
@[simp] theorem noEarlier_submitX (h : NoEarlier x s.stamp) (q) : NoEarlier x (s.submitX q).1.stamp := by
  unfold State.submitX
  dsimp only
  (repeat' split) <;> simp [h]
theorem noEarlier_of_submitX {q : Submit} {p : State × Option Result} (h : NoEarlier x s.stamp) (e : s.submitX q = p) :
    NoEarlier x p.1.stamp := e ▸ noEarlier_submitX h q
@[simp] theorem noEarlier_doRunBurst (h : NoEarlier x s.stamp) (sq idx) : NoEarlier x (doRunBurst sq idx s).stamp := by
  refine noEarlier_withDesc h fun d => ?_
  dsimp only
  split <;> simp [h]
@[simp] theorem noEarlier_doAdmWaitExpiry (h : NoEarlier x s.stamp) (isGroup id t) :
    NoEarlier x (doAdmWaitExpiry isGroup id t s).stamp := by
  unfold doAdmWaitExpiry
  split <;> simp [h]
@[simp] theorem noEarlier_doAgeLimitExpiry (h : NoEarlier x s.stamp) (isGroup id t) :
    NoEarlier x (doAgeLimitExpiry isGroup id t s).stamp := by
  unfold doAgeLimitExpiry
  split <;> simp [h]
@[simp] theorem noEarlier_doXholdExpiry (h : NoEarlier x s.stamp) (isGroup id t) : NoEarlier x (doXholdExpiry isGroup id t s).stamp := by
  unfold doXholdExpiry
  dsimp only
  split <;> simp [h]
@[simp] theorem stamp_cancelRetry (tid k) : (s.cancelRetry tid k).stamp = s.stamp := by
  unfold State.cancelRetry
  split <;> simp
@[simp] theorem noEarlier_retryBurst (h : NoEarlier x s.stamp) (tid t o) : NoEarlier x (s.retryBurst tid t o).stamp := by
  unfold State.retryBurst
  dsimp only
  split <;> simp [h]
@[simp] theorem noEarlier_doUnloadPattern (h : NoEarlier x s.stamp) (sq idx) : NoEarlier x (doUnloadPattern sq idx s).stamp := by
  refine noEarlier_withDesc h fun d => ?_
  dsimp only
  (repeat' split) <;> simp [h]
@[simp] theorem stamp_doDeferredUnload (sq idx) : (doDeferredUnload sq idx s).stamp = s.stamp := by
  unfold doDeferredUnload
  split <;> simp

/-! ### Pe -/

@[simp] theorem stamp_upPeOp (tid f) : (s.upPeOp tid f).stamp = s.stamp := by simp [State.upPeOp]
@[simp] theorem stamp_startSetPe (tid t st) : (s.startSetPe tid t st).stamp = s.stamp := by simp [State.startSetPe]
@[simp] theorem stamp_settlePe (tid) : (s.settlePe tid).stamp = s.stamp := by
  unfold State.settlePe
  split <;> simp
@[simp] theorem stamp_cutSetPe (tid st) : (s.cutSetPe tid st).stamp = s.stamp := by
  unfold State.cutSetPe
  split
  · rfl
  · extract_lets p s0 r s1
    have hr : r.1.stamp = s.stamp := by
      refine (foldl_keep (fun a : State × List Nat => a.1.stamp) _ (fun a n => ?_) _ _).trans (by simp [s0, p])
      exact stamp_peCut ..
    simp [s1, hr]
@[simp] theorem stamp_upPower (tid f) : (s.upPower tid f).stamp = s.stamp := by simp [State.upPower]
@[simp] theorem stamp_endPower (tid st) : (s.endPower tid st).stamp = s.stamp := by
  unfold State.endPower
  split <;> simp
@[simp] theorem stamp_powerList (tid p phase) : (s.powerList tid p phase).stamp = s.stamp := by simp [State.powerList]
@[simp] theorem stamp_powerSwitch (tid p) : (s.powerSwitch tid p).stamp = s.stamp := by simp [State.powerSwitch]
@[simp] theorem stamp_startPower (tid t st) : (s.startPower tid t st).stamp = s.stamp := by simp [State.startPower]
@[simp] theorem stamp_powerSettled (tid p) : (s.powerSettled tid p).stamp = s.stamp := by simp [State.powerSettled]
@[simp] theorem noEarlier_doPowerDutSettleEnd (h : NoEarlier x s.stamp) (tid t) : NoEarlier x (doPowerDutSettleEnd tid t s).stamp := by
  unfold doPowerDutSettleEnd
  split <;> simp [h]
@[simp] theorem stamp_powerListDone (tid n st) : (s.powerListDone tid n st).stamp = s.stamp := by
  unfold State.powerListDone
  split <;> simp
@[simp] theorem stamp_cutPower (tid st) : (s.cutPower tid st).stamp = s.stamp := by simp [State.cutPower]
@[simp] theorem stamp_doPeListDone (n bits) : (doPeListDone n bits s).stamp = s.stamp := by
  unfold doPeListDone
  dsimp only
  (repeat' split) <;> simp
@[simp] theorem stamp_pePortFail (n st) : (s.pePortFail n st).stamp = s.stamp := by
  unfold State.pePortFail
  extract_lets users u p s1
  have h1 : s1.stamp = s.stamp := by simp [s1, u]
  refine (stamp_foldl (fun a u => ?_) _ _).trans h1
  split
  · simp
  · extract_lets s2
    have h2 : s2.stamp = a.stamp := by unfold s2; split <;> simp
    simp [h2]
  · rfl
@[simp] theorem stamp_peUe (n k) : (s.peUe n k).stamp = s.stamp := by simp [State.peUe]

/-! ### Flow -/

@[simp] theorem noEarlier_abortSlot (h : NoEarlier x s.stamp) (tid k) : NoEarlier x (s.abortSlot tid k).stamp := by
  unfold State.abortSlot
  (repeat' split) <;> simp [h]
@[simp] theorem stamp_leaveSlot (tid t) : (s.leaveSlot tid t).stamp = s.stamp := by simp [State.leaveSlot]
@[simp] theorem noEarlier_endTask (h : NoEarlier x s.stamp) (tid st qual exit) : NoEarlier x (s.endTask tid st qual exit).stamp := by
  unfold State.endTask
  split <;> simp [h]
@[simp] theorem noEarlier_leaveCore (h : NoEarlier x s.stamp) {f : State → State} (hf : NoEarlier x (f s).stamp) (tid) :
    NoEarlier x (s.leaveCore tid f).stamp := by
  unfold State.leaveCore
  split <;> simp [h, hf]
@[simp] theorem noEarlier_yieldTask (h : NoEarlier x s.stamp) (tid i) : NoEarlier x (s.yieldTask tid i).stamp := by
  simp [State.yieldTask, h]
@[simp] theorem stamp_unslot (tid) : (s.unslot tid).stamp = s.stamp := by simp [State.unslot]
@[simp] theorem noEarlier_evict (h : NoEarlier x s.stamp) (i) : NoEarlier x (s.evict i).stamp := by
  unfold State.evict
  dsimp only
  (repeat' split) <;> simp [h]
@[simp] theorem noEarlier_settleWarden (h : NoEarlier x s.stamp) : NoEarlier x s.settleWarden.stamp := by simp [State.settleWarden, h]
@[simp] theorem noEarlier_stepEnd (h : NoEarlier x s.stamp) (tid st status bs go yields) :
    NoEarlier x (s.stepEnd tid st status bs go yields).stamp := by
  unfold State.stepEnd
  (repeat' split) <;> simp [h]
@[simp] theorem noEarlier_stepDone (h : NoEarlier x s.stamp) (tid t st r go yields) :
    NoEarlier x (s.stepDone tid t st r go yields).stamp := by
  simp [State.stepDone, h]
@[simp] theorem noEarlier_stepWait (h : NoEarlier x s.stamp) (tid mask all kind wakeT) :
    NoEarlier x (s.stepWait tid mask all kind wakeT).stamp := by
  unfold State.stepWait
  (repeat' split) <;> simp [h]
@[simp] theorem noEarlier_flowCmd {op tid : Nat} {f : Task → List Byte → State} (h : NoEarlier x s.stamp)
    (hf : ∀ t st, NoEarlier x (f t st).stamp) : NoEarlier x (flowCmd op tid f s).stamp := by
  unfold flowCmd
  (repeat' split) <;> simp [hf, h]
@[simp] theorem noEarlier_opStart (h : NoEarlier x s.stamp) (tid t st) : NoEarlier x (s.opStart tid t st).1.stamp := by
  unfold State.opStart
  dsimp only
  split
  · have h1 := noEarlier_submitX h (taskSubmit tid t st none)
    split
    next e => rwa [e] at h1
    next e => rwa [e] at h1
  all_goals (repeat' split) <;> simp [h]
theorem noEarlier_of_opStart {tid : Nat} {t : Task} {st : List Byte} {p : State × Option Result} (h : NoEarlier x s.stamp)
    (e : s.opStart tid t st = p) : NoEarlier x p.1.stamp := e ▸ noEarlier_opStart h tid t st
@[simp] theorem noEarlier_opFinish (h : NoEarlier x s.stamp) (tid k st) : NoEarlier x (s.opFinish tid k st).stamp := by
  simp [State.opFinish, h]
@[simp] theorem noEarlier_opStep (h : NoEarlier x s.stamp) (tid t st) : NoEarlier x (s.opStep tid t st).stamp := by
  unfold State.opStep
  extract_lets k wait s0 u s1
  have h1 : NoEarlier x s1.stamp := by simp [s1, u, h]
  split
  · split <;> simp [h]
  · split
    · simp [h]
    · split
      next s2 r e =>
        have h2 : NoEarlier x s2.stamp := noEarlier_of_opStart h1 e
        simp [h2]
      next s2 e =>
        have h2 : NoEarlier x s2.stamp := noEarlier_of_opStart h1 e
        simp [h2]
@[simp] theorem noEarlier_opCmd (h : NoEarlier x s.stamp) (op tid) : NoEarlier x (opCmd op tid s).stamp := by simp [opCmd, h]
@[simp] theorem noEarlier_doRunBurstStep (h : NoEarlier x s.stamp) (tid) : NoEarlier x (doRunBurstStep tid s).stamp := by
  simp [doRunBurstStep, h]
@[simp] theorem noEarlier_doMeasureIntervalStep (h : NoEarlier x s.stamp) (tid) : NoEarlier x (doMeasureIntervalStep tid s).stamp := by
  simp [doMeasureIntervalStep, h]
@[simp] theorem noEarlier_doAcquireStep (h : NoEarlier x s.stamp) (tid) : NoEarlier x (doAcquireStep tid s).stamp := by
  simp [doAcquireStep, h]
@[simp] theorem noEarlier_doSetPe (h : NoEarlier x s.stamp) (tid) : NoEarlier x (doSetPe tid s).stamp := by simp [doSetPe, h]
@[simp] theorem noEarlier_doPowerDut (h : NoEarlier x s.stamp) (tid) : NoEarlier x (doPowerDut tid s).stamp := by simp [doPowerDut, h]
@[simp] theorem noEarlier_reissue (h : NoEarlier x s.stamp) (tid k) : NoEarlier x (s.reissue tid k).stamp := by
  unfold State.reissue
  split
  · exact h
  · extract_lets s1 o
    have h1 : NoEarlier x s1.stamp := by simp [s1, h]
    split
    · simp [h1]
    · split
      next e => simp [noEarlier_of_opStart h1 e]
      next e => exact noEarlier_of_opStart h1 e
@[simp] theorem noEarlier_doRetryGapExpiry (h : NoEarlier x s.stamp) (tid t) : NoEarlier x (doRetryGapExpiry tid t s).stamp := by
  unfold doRetryGapExpiry
  split <;> simp [h]
@[simp] theorem noEarlier_doAbortOpStep (h : NoEarlier x s.stamp) (tid) : NoEarlier x (doAbortOpStep tid s).stamp :=
  noEarlier_flowCmd h fun _ _ => noEarlier_stepDone (noEarlier_foldl h (fun _ _ => noEarlier_abortSlot (.refl _) _ _) _) _ _ _ _ _ _
@[simp] theorem noEarlier_waitDone (h : NoEarlier x s.stamp) (tid t st flags timeout) :
    NoEarlier x (s.waitDone tid t st flags timeout).stamp := by
  simp [State.waitDone, h]
@[simp] theorem noEarlier_doWaitEvent (h : NoEarlier x s.stamp) (tid) : NoEarlier x (doWaitEvent tid s).stamp := by simp [doWaitEvent, h]
@[simp] theorem noEarlier_doClearFlags (h : NoEarlier x s.stamp) (tid) : NoEarlier x (doClearFlags tid s).stamp := by simp [doClearFlags, h]
@[simp] theorem noEarlier_doFlowDelay (h : NoEarlier x s.stamp) (tid) : NoEarlier x (doFlowDelay tid s).stamp := by simp [doFlowDelay, h]
@[simp] theorem noEarlier_doBranchOn (h : NoEarlier x s.stamp) (tid) : NoEarlier x (doBranchOn tid s).stamp := by
  refine noEarlier_flowCmd h fun t st => ?_
  dsimp only
  (repeat' split) <;> simp [h]
@[simp] theorem noEarlier_doFlowJump (h : NoEarlier x s.stamp) (tid) : NoEarlier x (doFlowJump tid s).stamp := by simp [doFlowJump, h]
@[simp] theorem noEarlier_doFlowAlu (h : NoEarlier x s.stamp) (tid) : NoEarlier x (doFlowAlu tid s).stamp := by
  refine noEarlier_flowCmd h fun t st => ?_
  dsimp only
  (repeat' split) <;> simp [h]
@[simp] theorem noEarlier_doFlowRetry (h : NoEarlier x s.stamp) (tid) : NoEarlier x (doFlowRetry tid s).stamp := by simp [doFlowRetry, h]
@[simp] theorem noEarlier_doCallFlow (h : NoEarlier x s.stamp) (tid) : NoEarlier x (doCallFlow tid s).stamp := by
  refine noEarlier_flowCmd h fun t st => ?_
  dsimp only
  (repeat' split) <;> simp [h]
@[simp] theorem noEarlier_doFlowReturn (h : NoEarlier x s.stamp) (tid) : NoEarlier x (doFlowReturn tid s).stamp := by
  refine noEarlier_flowCmd h fun t st => ?_
  (repeat' split) <;> simp [h]
@[simp] theorem noEarlier_doFlowEnd (h : NoEarlier x s.stamp) (tid) : NoEarlier x (doFlowEnd tid s).stamp := by
  refine noEarlier_flowCmd h fun t st => ?_
  dsimp only
  (repeat' split) <;> simp [h]
@[simp] theorem noEarlier_doFlowSignal (h : NoEarlier x s.stamp) (tid) : NoEarlier x (doFlowSignal tid s).stamp := by simp [doFlowSignal, h]
@[simp] theorem noEarlier_lostLock (h : NoEarlier x s.stamp) (tid t st k) : NoEarlier x (s.lostLock tid t st k).stamp := by
  simp [State.lostLock, h]
@[simp] theorem noEarlier_lockDone (h : NoEarlier x s.stamp) (tid t st k timeout ab) :
    NoEarlier x (s.lockDone tid t st k timeout ab).stamp := by
  simp [State.lockDone, h]
@[simp] theorem noEarlier_doLockStep (h : NoEarlier x s.stamp) (tid) : NoEarlier x (doLockStep tid s).stamp := by
  refine noEarlier_flowCmd h fun t st => ?_
  dsimp only
  (repeat' split) <;> simp [h]
@[simp] theorem noEarlier_doUnlockStep (h : NoEarlier x s.stamp) (tid) : NoEarlier x (doUnlockStep tid s).stamp := by simp [doUnlockStep, h]
@[simp] theorem noEarlier_doLogStep (h : NoEarlier x s.stamp) (tid) : NoEarlier x (doLogStep tid s).stamp := by
  refine noEarlier_flowCmd h fun t st => ?_
  dsimp only
  (repeat' split) <;> simp [h]
@[simp] theorem stamp_writeMask (g v) : (s.writeMask g v).stamp = s.stamp := by
  unfold State.writeMask
  split <;> simp
@[simp] theorem noEarlier_doSetMask (h : NoEarlier x s.stamp) (tid) : NoEarlier x (doSetMask tid s).stamp := by
  refine noEarlier_flowCmd h fun t st => ?_
  dsimp only
  (repeat' split) <;> simp [h]
@[simp] theorem noEarlier_doArmTrigger (h : NoEarlier x s.stamp) (tid) : NoEarlier x (doArmTrigger tid s).stamp := by simp [doArmTrigger, h]
@[simp] theorem noEarlier_doSetPrio (h : NoEarlier x s.stamp) (tid) : NoEarlier x (doSetPrio tid s).stamp := by
  refine noEarlier_flowCmd h fun t st => ?_
  simp [h]
@[simp] theorem noEarlier_doYield (h : NoEarlier x s.stamp) (tid) : NoEarlier x (doYield tid s).stamp := by simp [doYield, h]
@[simp] theorem noEarlier_doNopStep (h : NoEarlier x s.stamp) (tid) : NoEarlier x (doNopStep tid s).stamp := by simp [doNopStep, h]

/-! ### Wake -/

@[simp] theorem stamp_timerFires (tid) : (s.timerFires tid).stamp = s.stamp := by
  unfold State.timerFires
  split <;> simp
@[simp] theorem stamp_lateTimers : s.lateTimers.stamp = s.stamp := by simp [State.lateTimers]
@[simp] theorem noEarlier_leaveLull (h : NoEarlier x s.stamp) : NoEarlier x s.leaveLull.stamp := by
  unfold State.leaveLull
  split
  · exact h
  · extract_lets s0 ms pw c hi s1 s2 s3 s4
    have h1 : NoEarlier x s1.stamp := noEarlier_at (s := s.draw) (by simpa using h) _
    simp [s4, s3, s2, h1]
@[simp] theorem noEarlier_wakeChip (h : NoEarlier x s.stamp) (src) : NoEarlier x (s.wakeChip src).stamp := by simp [State.wakeChip, h]

/-! ### TaskCtl -/

@[simp] theorem stamp_doContextFetchDone (i) : (doContextFetchDone i s).stamp = s.stamp := by simp [doContextFetchDone]
@[simp] theorem noEarlier_doQuantumExpiry (h : NoEarlier x s.stamp) (tid) : NoEarlier x (doQuantumExpiry tid s).stamp := by
  unfold doQuantumExpiry
  split <;> simp [h]
@[simp] theorem noEarlier_doTaskTimerExpiry (h : NoEarlier x s.stamp) (tid t) : NoEarlier x (doTaskTimerExpiry tid t s).stamp := by
  unfold doTaskTimerExpiry
  split <;> simp [h]
@[simp] theorem noEarlier_doPaddockWardenWrite (h : NoEarlier x s.stamp) (v) : NoEarlier x (doPaddockWardenWrite v s).stamp := by
  simp [doPaddockWardenWrite, h]
@[simp] theorem noEarlier_failRun (h : NoEarlier x s.stamp) (tid st inStep) : NoEarlier x (s.failRun tid st inStep).stamp := by
  unfold State.failRun
  (repeat' split) <;> simp [h]
@[simp] theorem noEarlier_vacate (h : NoEarlier x s.stamp) (i st) : NoEarlier x (s.vacate i st).1.stamp := by
  unfold State.vacate
  dsimp only
  (repeat' split) <;> simp [h]
@[simp] theorem stamp_retireSlot (i) : (s.retireSlot i).stamp = s.stamp := by
  unfold State.retireSlot
  dsimp only
  split <;> simp
@[simp] theorem noEarlier_coreFails (h : NoEarlier x s.stamp) (core) : NoEarlier x (s.coreFails core).stamp := by
  unfold State.coreFails
  split
  · exact h
  · extract_lets p s0 less
    have h0 : NoEarlier x s0.stamp := h
    have hless (u : State) : (less u).stamp = u.stamp := by simp [less]
    split
    · simp [hless, h0]
    · split
      next i _ _ s1 run buf e =>
        have h1 : NoEarlier x s1.stamp := by
          have hv := noEarlier_vacate (s := s0.upFslot i (fun f => { f with settling := true })) (by simpa using h0) i St.hwFault
          rwa [e] at hv
        extract_lets spare s2 s3
        have h2 : NoEarlier x s2.stamp := by
          unfold s2
          clear_value spare
          split <;> simp [hless, h1]
        exact noEarlier_settleWarden (noEarlier_foldl (by simp [s3, h2]) (fun a t => by simp) _)
@[simp] theorem noEarlier_doFlowCoreFailure (h : NoEarlier x s.stamp) (core) : NoEarlier x (doFlowCoreFailure core s).stamp := by
  simp [doFlowCoreFailure, h]
@[simp] theorem stamp_doSpareCoreReady (i) : (doSpareCoreReady i s).stamp = s.stamp := by simp [doSpareCoreReady]
@[simp] theorem stamp_doStartFlow (sq idx) : (doStartFlow sq idx s).stamp = s.stamp := by
  refine stamp_withDesc fun d => ?_
  dsimp only
  (repeat' split) <;> simp
@[simp] theorem noEarlier_doAbortTask (h : NoEarlier x s.stamp) (sq idx) : NoEarlier x (doAbortTask sq idx s).stamp := by
  refine noEarlier_withDesc h fun d => ?_
  dsimp only
  (repeat' split) <;> simp [h]
@[simp] theorem stamp_doSignalTask (sq idx) : (doSignalTask sq idx s).stamp = s.stamp := by simp [doSignalTask]
@[simp] theorem stamp_doReadTask (sq idx) : (doReadTask sq idx s).stamp = s.stamp := by
  refine stamp_withDesc fun d => ?_
  dsimp only
  (repeat' split) <;> simp
@[simp] theorem stamp_doLockDesc (sq idx) : (doLockDesc sq idx s).stamp = s.stamp := by simp [doLockDesc]
@[simp] theorem noEarlier_doLockTimeout (h : NoEarlier x s.stamp) (sq idx t) : NoEarlier x (doLockTimeout sq idx t s).stamp := by
  unfold doLockTimeout
  dsimp only
  split <;> simp [h]
@[simp] theorem stamp_doUnlockDesc (sq idx) : (doUnlockDesc sq idx s).stamp = s.stamp := by simp [doUnlockDesc]
@[simp] theorem stamp_doUnloadFlow (sq idx) : (doUnloadFlow sq idx s).stamp = s.stamp := by simp [doUnloadFlow]
@[simp] theorem stamp_doUnloadPeList (sq idx) : (doUnloadPeList sq idx s).stamp = s.stamp := by simp [doUnloadPeList]
@[simp] theorem stamp_doDeferredPeListUnload (sq idx) : (doDeferredPeListUnload sq idx s).stamp = s.stamp := by
  unfold doDeferredPeListUnload
  split <;> simp
@[simp] theorem noEarlier_abortEnt (h : NoEarlier x s.stamp) (e k) : NoEarlier x (s.abortEnt e k).stamp := by
  unfold State.abortEnt
  split <;> simp [h]
@[simp] theorem noEarlier_doAbortOp (h : NoEarlier x s.stamp) (sq idx) : NoEarlier x (doAbortOp sq idx s).stamp := by
  refine noEarlier_withDesc h fun d => ?_
  dsimp only
  (repeat' split) <;> simp [h]
@[simp] theorem stamp_doDeclareSite (sq idx) : (doDeclareSite sq idx s).stamp = s.stamp := by simp [doDeclareSite]
@[simp] theorem noEarlier_endSiteWork (h : NoEarlier x s.stamp) (y) : NoEarlier x (s.endSiteWork y).stamp := by
  unfold State.endSiteWork
  extract_lets s1 s2 s3
  have h1 : NoEarlier x s1.stamp := by
    refine noEarlier_foldl h (fun a t => ?_) _
    split
    · split <;> simp
    · simp
  simp [s3, s2, h1]
@[simp] theorem stamp_freeSite (x) : (s.freeSite x).stamp = s.stamp := by
  unfold State.freeSite
  split <;> simp
@[simp] theorem noEarlier_undeclTurn (h : NoEarlier x s.stamp) (d) : NoEarlier x (s.undeclTurn d).stamp := by
  unfold State.undeclTurn
  dsimp only
  split <;> simp [h]
@[simp] theorem noEarlier_doUndeclareSite (h : NoEarlier x s.stamp) (sq idx) : NoEarlier x (doUndeclareSite sq idx s).stamp := by
  simp [doUndeclareSite, h]
@[simp] theorem noEarlier_declWaited (h : NoEarlier x s.stamp) (group sq idx) : NoEarlier x (declWaited group sq idx s).stamp := by
  unfold declWaited
  split <;> simp [h]
@[simp] theorem noEarlier_doDeferredDeclaration (h : NoEarlier x s.stamp) (sq idx) :
    NoEarlier x (doDeferredDeclaration sq idx s).stamp := by
  simp [doDeferredDeclaration, h]
@[simp] theorem noEarlier_doDeferredUndeclaration (h : NoEarlier x s.stamp) (sq idx) :
    NoEarlier x (doDeferredUndeclaration sq idx s).stamp := by
  simp [doDeferredUndeclaration, h]
@[simp] theorem stamp_doSiteMaskWrite (n v) : (doSiteMaskWrite n v s).stamp = s.stamp := by simp [doSiteMaskWrite]

/-! ### Memory -/

@[simp] theorem stamp_arrive (m r) : (s.arrive m r).stamp = s.stamp := by simp [State.arrive]
@[simp] theorem stamp_arbRefresh (m) : (s.arbRefresh m).stamp = s.stamp := by
  unfold State.arbRefresh
  split <;> simp
@[simp] theorem stamp_arbCount (m win) : (s.arbCount m win).stamp = s.stamp := by simp [State.arbCount]
@[simp] theorem stamp_grantTo (m r forced ref) : (s.grantTo m r forced ref).stamp = s.stamp := by simp [State.grantTo]
@[simp] theorem stamp_arriveAll (m reqs) : (s.arriveAll m reqs).stamp = s.stamp := by simp [State.arriveAll]
@[simp] theorem noEarlier_doArbiterDecision (h : NoEarlier x s.stamp) (m reqs t) : NoEarlier x (doArbiterDecision m reqs t s).stamp := by
  unfold doArbiterDecision
  dsimp only
  (repeat' split) <;> simp [h]
@[simp] theorem stamp_doArbPrioWrite (m limit v) : (doArbPrioWrite m limit v s).stamp = s.stamp := by simp [doArbPrioWrite]
@[simp] theorem stamp_doCeilPctWrite (v) : (doCeilPctWrite v s).stamp = s.stamp := by simp [doCeilPctWrite]
@[simp] theorem stamp_doRefreshOwedTick (m) : (doRefreshOwedTick m s).stamp = s.stamp := by simp [doRefreshOwedTick]
@[simp] theorem noEarlier_doMr4Poll (h : NoEarlier x s.stamp) (m rate t) : NoEarlier x (doMr4Poll m rate t s).stamp := by
  unfold doMr4Poll
  dsimp only
  (repeat' split) <;> simp [h]
@[simp] theorem stamp_doWck2dqOscillator (m) : (doWck2dqOscillator m s).stamp = s.stamp := by simp [doWck2dqOscillator]
@[simp] theorem stamp_doBackgroundZqCalibration (m) : (doBackgroundZqCalibration m s).stamp = s.stamp := by simp [doBackgroundZqCalibration]
@[simp] theorem stamp_doScrubRead (m) : (doScrubRead m s).stamp = s.stamp := by simp [doScrubRead]
@[simp] theorem noEarlier_readUe (h : NoEarlier x s.stamp) (r) : NoEarlier x (s.readUe r).stamp := by
  unfold State.readUe
  (repeat' split) <;> simp [h]
@[simp] theorem noEarlier_doReadDataReturn (h : NoEarlier x s.stamp) (m r) : NoEarlier x (doReadDataReturn m r s).stamp := by
  unfold doReadDataReturn
  split
  · exact h
  · extract_lets s1 scrub access d
    have h1 : NoEarlier x s1.stamp := by simp [s1, h]
    split
    · simp [h1]
    · split
      next e => simp [stamp_of_useInjection e, h1]
      next e => simp [stamp_of_useInjection e, h1]
      · split <;> simp [h1]
@[simp] theorem stamp_starve (m) : (s.starve m).stamp = s.stamp := by simp [State.starve]
@[simp] theorem stamp_copyRow (m br) : (s.copyRow m br).stamp = s.stamp := by simp [State.copyRow]
@[simp] theorem stamp_startRepair (m) : (s.startRepair m).stamp = s.stamp := by
  unfold State.startRepair
  split <;> simp
@[simp] theorem stamp_fenceBank (m b) : (s.fenceBank m b).stamp = s.stamp := by simp [State.fenceBank]
@[simp] theorem stamp_doPprRun (m v) : (doPprRun m v s).stamp = s.stamp := by simp [doPprRun]
@[simp] theorem noEarlier_doPprAutoStart (h : NoEarlier x s.stamp) (m t) : NoEarlier x (doPprAutoStart m t s).stamp := by
  simp [doPprAutoStart, h]
@[simp] theorem stamp_chanBack : s.chanBack.stamp = s.stamp := by simp [State.chanBack]
@[simp] theorem noEarlier_doPprComplete (h : NoEarlier x s.stamp) (m t) : NoEarlier x (doPprComplete m t s).stamp := by
  unfold doPprComplete
  split <;> simp [h]
@[simp] theorem stamp_doMemoryChannelFailure (m) : (doMemoryChannelFailure m s).stamp = s.stamp := by simp [doMemoryChannelFailure]

/-! ### PairOps -/

@[simp] theorem stamp_flagAll (m) : (s.flagAll m).stamp = s.stamp := by simp [State.flagAll]
@[simp] theorem stamp_pairTo (st sub) : (s.pairTo st sub).stamp = s.stamp := by simp [State.pairTo]
@[simp] theorem stamp_pairExpose : s.pairExpose.stamp = s.stamp := by simp [State.pairExpose]
@[simp] theorem stamp_releaseShadow (b) : (s.releaseShadow b).stamp = s.stamp := by simp [State.releaseShadow]
@[simp] theorem stamp_clearShadow : s.clearShadow.stamp = s.stamp := by simp [State.clearShadow]
@[simp] theorem stamp_releaseRole : s.releaseRole.stamp = s.stamp := by simp [State.releaseRole]
@[simp] theorem stamp_dropClaim : s.dropClaim.stamp = s.stamp := by simp [State.dropClaim]
@[simp] theorem stamp_pairEnd (sub st) : (s.pairEnd sub st).stamp = s.stamp := by simp [State.pairEnd]
@[simp] theorem stamp_pairDescs (st) : (s.pairDescs st).stamp = s.stamp := by simp [State.pairDescs]
@[simp] theorem stamp_announce : s.announce.stamp = s.stamp := by simp [State.announce]
@[simp] theorem stamp_snapshotPair : s.snapshotPair.stamp = s.stamp := by simp [State.snapshotPair]

/-! ### Links -/

@[simp] theorem stamp_crcBlock (n typ body) : (s.crcBlock n typ body).stamp = s.stamp := by simp [State.crcBlock]
@[simp] theorem stamp_heard (n) : (s.heard n).stamp = s.stamp := by simp [State.heard]
@[simp] theorem stamp_linkFlag (n) : (s.linkFlag n).stamp = s.stamp := by simp [State.linkFlag]
@[simp] theorem stamp_attempt (n k a) : (s.attempt n k a).stamp = s.stamp := by simp [State.attempt]
@[simp] theorem stamp_train (n) : (s.train n).stamp = s.stamp := by simp [State.train]
@[simp] theorem noEarlier_ringCut (h : NoEarlier x s.stamp) : NoEarlier x s.ringCut.stamp := by simp [State.ringCut, h]
@[simp] theorem noEarlier_linkGone (h : NoEarlier x s.stamp) (n st) : NoEarlier x (s.linkGone n st).stamp := by simp [State.linkGone, h]
@[simp] theorem noEarlier_linkLost (h : NoEarlier x s.stamp) (n) : NoEarlier x (s.linkLost n).stamp := by simp [State.linkLost, h]
@[simp] theorem noEarlier_retireLane (h : NoEarlier x s.stamp) (n k) : NoEarlier x (s.retireLane n k).stamp := by simp [State.retireLane, h]
@[simp] theorem stamp_settleRevive (n later) : (s.settleRevive n later).stamp = s.stamp := by simp [State.settleRevive]
@[simp] theorem stamp_failRevives (n) : (s.failRevives n).stamp = s.stamp := by simp [State.failRevives]
@[simp] theorem stamp_sendWidth (n mine token agree act) : (s.sendWidth n mine token agree act).stamp = s.stamp := by simp [State.sendWidth]
@[simp] theorem stamp_startWidth (n) : (s.startWidth n).stamp = s.stamp := by simp [State.startWidth]
@[simp] theorem noEarlier_linkComesUp (h : NoEarlier x s.stamp) (n) : NoEarlier x (s.linkComesUp n).stamp := by simp [State.linkComesUp, h]
@[simp] theorem stamp_reviveLane (n k) : (s.reviveLane n k).stamp = s.stamp := by simp [State.reviveLane]
@[simp] theorem noEarlier_laneTrained (h : NoEarlier x s.stamp) (n k) : NoEarlier x (s.laneTrained n k).stamp := by
  simp [State.laneTrained, h]
@[simp] theorem noEarlier_laneFailed (h : NoEarlier x s.stamp) (n k) : NoEarlier x (s.laneFailed n k).stamp := by
  unfold State.laneFailed
  dsimp only
  split <;> simp [h]
@[simp] theorem stamp_uncountLoss (n k) : (s.uncountLoss n k).stamp = s.stamp := by simp [State.uncountLoss]
@[simp] theorem noEarlier_loseLane (h : NoEarlier x s.stamp) (n k) : NoEarlier x (s.loseLane n k).stamp := by simp [State.loseLane, h]
@[simp] theorem noEarlier_blockErr (h : NoEarlier x s.stamp) (n k) : NoEarlier x (s.blockErr n k).stamp := by simp [State.blockErr, h]
@[simp] theorem noEarlier_crcErr (h : NoEarlier x s.stamp) (n) : NoEarlier x (s.crcErr n).stamp := by simp [State.crcErr, h]
@[simp] theorem noEarlier_doTrainBlock (h : NoEarlier x s.stamp) (n k v t) : NoEarlier x (doTrainBlock n k v t s).stamp := by
  simp [doTrainBlock, h]
@[simp] theorem noEarlier_doTrainingAttemptTimeout (h : NoEarlier x s.stamp) (n k t) :
    NoEarlier x (doTrainingAttemptTimeout n k t s).stamp := by
  simp [doTrainingAttemptTimeout, h]
@[simp] theorem noEarlier_doLinkEnable (h : NoEarlier x s.stamp) (n v) : NoEarlier x (doLinkEnable n v s).stamp := by simp [doLinkEnable, h]
@[simp] theorem noEarlier_doLinkRetry (h : NoEarlier x s.stamp) (n t) : NoEarlier x (doLinkRetry n t s).stamp := by simp [doLinkRetry, h]
@[simp] theorem noEarlier_doLaneLoss (h : NoEarlier x s.stamp) (n k errs t) : NoEarlier x (doLaneLoss n k errs t s).stamp := by
  simp [doLaneLoss, h]
@[simp] theorem noEarlier_doLinkLoss (h : NoEarlier x s.stamp) (n t) : NoEarlier x (doLinkLoss n t s).stamp := by simp [doLinkLoss, h]
@[simp] theorem noEarlier_doLaneRetrain (h : NoEarlier x s.stamp) (n k ok t) : NoEarlier x (doLaneRetrain n k ok t s).stamp := by
  simp [doLaneRetrain, h]
@[simp] theorem noEarlier_doBlockError (h : NoEarlier x s.stamp) (n k t) : NoEarlier x (doBlockError n k t s).stamp := by
  simp [doBlockError, h]
@[simp] theorem noEarlier_doLrefLoss (h : NoEarlier x s.stamp) (t) : NoEarlier x (doLrefLoss t s).stamp := by simp [doLrefLoss, h]
@[simp] theorem stamp_lrefRises : s.lrefRises.stamp = s.stamp := by simp [State.lrefRises]
@[simp] theorem noEarlier_doLrefReturn (h : NoEarlier x s.stamp) (t) : NoEarlier x (doLrefReturn t s).stamp := by simp [doLrefReturn, h]
@[simp] theorem stamp_doLaneRevive (sq idx) : (doLaneRevive sq idx s).stamp = s.stamp := by simp [doLaneRevive]
@[simp] theorem noEarlier_doWidthBlock (h : NoEarlier x s.stamp) (n v t) : NoEarlier x (doWidthBlock n v t s).stamp := by
  unfold doWidthBlock
  dsimp only
  (repeat' split) <;> simp [h]
@[simp] theorem noEarlier_doWidthResend (h : NoEarlier x s.stamp) (n t) : NoEarlier x (doWidthResend n t s).stamp := by
  unfold doWidthResend
  split <;> simp [h]
@[simp] theorem stamp_sendNak (n) : (s.sendNak n).stamp = s.stamp := by simp [State.sendNak]
@[simp] theorem noEarlier_doWidthSwitch (h : NoEarlier x s.stamp) (n t) : NoEarlier x (doWidthSwitch n t s).stamp := by
  unfold doWidthSwitch
  split <;> simp [h]
@[simp] theorem noEarlier_accept (h : NoEarlier x s.stamp) (n p) : NoEarlier x (s.accept n p).1.stamp := by
  unfold State.accept
  dsimp only
  (repeat' split) <;> simp [h]
@[simp] theorem noEarlier_doAckSend (h : NoEarlier x s.stamp) (n t) : NoEarlier x (doAckSend n t s).stamp := by
  unfold doAckSend
  split <;> simp [h]
@[simp] theorem noEarlier_doNakBlock (h : NoEarlier x s.stamp) (n v t) : NoEarlier x (doNakBlock n v t s).stamp := by simp [doNakBlock, h]
@[simp] theorem stamp_goIdle (n) : (s.goIdle n).stamp = s.stamp := by simp [State.goIdle]
@[simp] theorem noEarlier_doElectricalIdleEntry (h : NoEarlier x s.stamp) (n t) : NoEarlier x (doElectricalIdleEntry n t s).stamp := by
  simp [doElectricalIdleEntry, h]
@[simp] theorem noEarlier_doEiBlock (h : NoEarlier x s.stamp) (n v t) : NoEarlier x (doEiBlock n v t s).stamp := by simp [doEiBlock, h]
@[simp] theorem noEarlier_doElectricalIdleExit (h : NoEarlier x s.stamp) (n t) : NoEarlier x (doElectricalIdleExit n t s).stamp := by
  simp [doElectricalIdleExit, h]
@[simp] theorem noEarlier_doTrackingHold (h : NoEarlier x s.stamp) (n k t) : NoEarlier x (doTrackingHold n k t s).stamp := by
  simp [doTrackingHold, h]
@[simp] theorem noEarlier_doAlignMarker (h : NoEarlier x s.stamp) (n marks t) : NoEarlier x (doAlignMarker n marks t s).stamp := by
  simp [doAlignMarker, h]
@[simp] theorem noEarlier_doAlignMarkerSend (h : NoEarlier x s.stamp) (n t) : NoEarlier x (doAlignMarkerSend n t s).stamp := by
  simp [doAlignMarkerSend, h]
@[simp] theorem stamp_forward (n p) : (s.forward n p).stamp = s.stamp := by simp [State.forward]
@[simp] theorem noEarlier_expressIn {typ n : Nat} {p : PlPacket} {t : Nat} {f : State → Nat → Nat → State}
    (h : NoEarlier x s.stamp) (hf : ∀ u a b, NoEarlier u.stamp (f u a b).stamp) : NoEarlier x (expressIn typ n p t f s).stamp := by
  unfold expressIn
  dsimp only
  (repeat' split)
  · exact h
  · simp [h]
  · exact NoEarlier.trans (by simp [h]) (hf _ _ _)
@[simp] theorem noEarlier_doSyncReady (h : NoEarlier x s.stamp) (n p t) : NoEarlier x (doSyncReady n p t s).stamp := by
  refine noEarlier_expressIn h fun u a b => ?_
  (repeat' split) <;> simp
@[simp] theorem stamp_nogo (x status) : (s.nogo x status).stamp = s.stamp := by simp [State.nogo]
@[simp] theorem noEarlier_doSyncStart (h : NoEarlier x s.stamp) (n p t) : NoEarlier x (doSyncStart n p t s).stamp := by
  refine noEarlier_expressIn h fun u a b => ?_
  dsimp only
  (repeat' split) <;> simp
@[simp] theorem noEarlier_doSyncStop (h : NoEarlier x s.stamp) (n p t) : NoEarlier x (doSyncStop n p t s).stamp := by
  refine noEarlier_expressIn h fun u a b => ?_
  (repeat' split) <;> simp
@[simp] theorem stamp_blockedElsewhere (id) : (s.blockedElsewhere id).stamp = s.stamp := by simp [State.blockedElsewhere]
@[simp] theorem noEarlier_doSyncNogo (h : NoEarlier x s.stamp) (n p t) : NoEarlier x (doSyncNogo n p t s).stamp := by
  refine noEarlier_expressIn h fun u a b => ?_
  dsimp only
  (repeat' split) <;> simp
@[simp] theorem stamp_refreshCkpts (e v) : (s.refreshCkpts e v).stamp = s.stamp := by
  unfold State.refreshCkpts
  split <;> simp
@[simp] theorem stamp_remoteFail (e v) : (s.remoteFail e v).stamp = s.stamp := by
  unfold State.remoteFail
  split <;> simp
@[simp] theorem noEarlier_doFailMsg (h : NoEarlier x s.stamp) (n p t) : NoEarlier x (doFailMsg n p t s).stamp := by
  refine noEarlier_expressIn h fun u a b => ?_
  dsimp only
  (repeat' split) <;> simp
@[simp] theorem stamp_xtEvent (line stamp) : (s.xtEvent line stamp).stamp = s.stamp := by simp [State.xtEvent]
@[simp] theorem noEarlier_doTrigMsg (h : NoEarlier x s.stamp) (n p t) : NoEarlier x (doTrigMsg n p t s).stamp := by simp [doTrigMsg, h]
@[simp] theorem noEarlier_doTimeMsg (h : NoEarlier x s.stamp) (n p t) : NoEarlier x (doTimeMsg n p t s).stamp := by
  unfold doTimeMsg
  have h1 := noEarlier_accept (noEarlier_at h t) n p
  dsimp only
  (repeat' split) <;> simp [h, h1]
@[simp] theorem stamp_timeOut (n) : (s.timeOut n).stamp = s.stamp := by simp [State.timeOut]
@[simp] theorem noEarlier_doTimeSend (h : NoEarlier x s.stamp) (t) : NoEarlier x (doTimeSend t s).stamp := by simp [doTimeSend, h]
@[simp] theorem noEarlier_packetIn {cls n : Nat} {p : PlPacket} {t : Nat} {f : State → State} (h : NoEarlier x s.stamp)
    (hf : ∀ u, NoEarlier u.stamp (f u).stamp) : NoEarlier x (packetIn cls n p t f s).stamp := by
  unfold packetIn
  dsimp only
  (repeat' split)
  · exact h
  · simp [h]
  · exact NoEarlier.trans (by simp [h]) (hf _)
  · simp [h]
@[simp] theorem noEarlier_doMsgPacket (h : NoEarlier x s.stamp) (n p t) : NoEarlier x (doMsgPacket n p t s).stamp := by
  simp [doMsgPacket, h]
@[simp] theorem noEarlier_doMsgAck (h : NoEarlier x s.stamp) (n p t) : NoEarlier x (doMsgAck n p t s).stamp := by
  refine noEarlier_packetIn h fun u => ?_
  dsimp only
  (repeat' split) <;> simp
@[simp] theorem noEarlier_doRingPacket (h : NoEarlier x s.stamp) (n p t) : NoEarlier x (doRingPacket n p t s).stamp := by
  simp [doRingPacket, h]
@[simp] theorem stamp_doRingAlign (sq idx) : (doRingAlign sq idx s).stamp = s.stamp := by simp [doRingAlign]
@[simp] theorem noEarlier_doRingCfgWrite (h : NoEarlier x s.stamp) (v) : NoEarlier x (doRingCfgWrite v s).stamp := by
  unfold doRingCfgWrite
  extract_lets pos len same s1 s2 rt u s3
  have h1 : NoEarlier x s1.stamp := by simp [s1, h]
  have h2 : NoEarlier x s2.stamp := noEarlier_foldl h1 (fun a n => by simp) _
  have h3 : NoEarlier x s3.stamp := noEarlier_foldl (s := u) h1 (fun a n => by simp) _
  clear_value s1 s2 s3
  (repeat' split) <;> simp [h, h2, h3]

/-! ### Pair -/

@[simp] theorem stamp_upShadow (e f) : (s.upShadow e f).stamp = s.stamp := by simp [State.upShadow]
@[simp] theorem stamp_dropShadow (e) : (s.dropShadow e).stamp = s.stamp := by
  unfold State.dropShadow
  cases s.pair.bursts.find? (fun b => b.ent == e) <;> simp
@[simp] theorem stamp_admitShadow (b) : (s.admitShadow b).stamp = s.stamp := by
  unfold State.admitShadow
  dsimp only
  split <;> simp
@[simp] theorem stamp_applyCapture (id off bs) : (s.applyCapture id off bs).stamp = s.stamp := by
  unfold State.applyCapture
  dsimp only
  (repeat' split) <;> simp
@[simp] theorem stamp_unmatched : s.unmatched.stamp = s.stamp := by simp [State.unmatched]
@[simp] theorem stamp_pairProtected : s.pairProtected.stamp = s.stamp := by simp [State.pairProtected]
@[simp] theorem stamp_roleFails : s.roleFails.stamp = s.stamp := by simp [State.roleFails]
@[simp] theorem stamp_withdraw : s.withdraw.stamp = s.stamp := by simp [State.withdraw]
@[simp] theorem stamp_startClaim (f) : (s.startClaim f).stamp = s.stamp := by simp [State.startClaim]
@[simp] theorem stamp_doClaim (v) : (doClaim v s).stamp = s.stamp := by simp [doClaim]
@[simp] theorem stamp_doClaimRelease (v) : (doClaimRelease v s).stamp = s.stamp := by simp [doClaimRelease]
@[simp] theorem noEarlier_doClaimWaitExpiry (h : NoEarlier x s.stamp) (t) : NoEarlier x (doClaimWaitExpiry t s).stamp := by
  simp [doClaimWaitExpiry, h]
@[simp] theorem stamp_joinTurn : s.joinTurn.stamp = s.stamp := by
  unfold State.joinTurn
  split <;> simp
@[simp] theorem stamp_doPairJoin (sq idx) : (doPairJoin sq idx s).stamp = s.stamp := by simp [doPairJoin]
@[simp] theorem stamp_doPairLeave (sq idx) : (doPairLeave sq idx s).stamp = s.stamp := by simp [doPairLeave]
@[simp] theorem stamp_doTetherFailure : (doTetherFailure s).stamp = s.stamp := by simp [doTetherFailure]
@[simp] theorem noEarlier_resumeTask (h : NoEarlier x s.stamp) (i) : NoEarlier x (s.resumeTask i).stamp := by simp [State.resumeTask, h]
@[simp] theorem noEarlier_restartShadow (h : NoEarlier x s.stamp) (f b) : NoEarlier x (s.restartShadow f b).1.stamp := by
  unfold State.restartShadow
  extract_lets split u ck s0 c lost
  have hu : NoEarlier x u.stamp := by simp [u, h]
  have h0 : NoEarlier x s0.stamp := by unfold s0; split <;> simp [hu]
  split
  · exact hu
  · extract_lets o p q
    split
    · simp [hu]
    · split
      · simp [hu]
      · split
        next e => simp [noEarlier_of_submitX h0 e]
        next s1 e =>
          extract_lets s2 s3 none'
          have h2 : NoEarlier x s2.stamp := by simp [s2, noEarlier_of_submitX h0 e]
          refine noEarlier_foldl h2 (fun a m => ?_) _
          extract_lets s4
          split <;> simp [s4]
@[simp] theorem stamp_lockShadow (k l) : (s.lockShadow k l).stamp = s.stamp := by simp [State.lockShadow]
@[simp] theorem noEarlier_goLive (h : NoEarlier x s.stamp) (f) : NoEarlier x (s.goLive f).stamp := by
  unfold State.goLive
  extract_lets p s0 s1 s2 s3 s4 s5 go s5a r s6 held s7 s8 sub pr s9 aux s10
  have h3 : NoEarlier x s3.stamp := by simp [s3, s2, s1, s0, h]
  have h5 : NoEarlier x s5a.stamp := by simp [s5a, s5, s4, h3]
  have h6 : NoEarlier x s6.stamp :=
    foldl_inv (fun a : State × Nat × Nat => NoEarlier x a.1.stamp) _ (fun a b ha => by simp [ha]) _ _ h5
  have h7 : NoEarlier x s7.stamp := by
    refine noEarlier_foldl h6 (fun a tid => ?_) _
    split <;> simp
  simp [s10, s9, pr, s8, h7]
@[simp] theorem noEarlier_claimDone (h : NoEarlier x s.stamp) : NoEarlier x s.claimDone.stamp := by simp [State.claimDone, h]
@[simp] theorem noEarlier_doClaimGuardExpiry (h : NoEarlier x s.stamp) (t) : NoEarlier x (doClaimGuardExpiry t s).stamp := by
  simp [doClaimGuardExpiry, h]
@[simp] theorem noEarlier_doPartnerActiveRise (h : NoEarlier x s.stamp) (t) : NoEarlier x (doPartnerActiveRise t s).stamp := by
  simp [doPartnerActiveRise, h]
@[simp] theorem noEarlier_doPartnerActiveFall (h : NoEarlier x s.stamp) (t) : NoEarlier x (doPartnerActiveFall t s).stamp := by
  unfold doPartnerActiveFall
  dsimp only
  (repeat' split) <;> simp [h]
@[simp] theorem stamp_applyItem (i) : (s.applyItem i).stamp = s.stamp := by
  unfold State.applyItem
  split <;> simp
@[simp] theorem stamp_applyAll (l) : (applyAll s l).stamp = s.stamp := by simp [applyAll]
@[simp] theorem noEarlier_doMirroredItemApply (h : NoEarlier x s.stamp) (t) : NoEarlier x (doMirroredItemApply t s).stamp := by
  unfold doMirroredItemApply
  split <;> simp [h]
@[simp] theorem noEarlier_doTakeover (h : NoEarlier x s.stamp) (t) : NoEarlier x (doTakeover t s).stamp := by simp [doTakeover, h]
@[simp] theorem noEarlier_switchBurst (h : NoEarlier x s.stamp) (b) : NoEarlier x (s.switchBurst b).stamp := by simp [State.switchBurst, h]
@[simp] theorem noEarlier_handOver (h : NoEarlier x s.stamp) : NoEarlier x s.handOver.stamp := by simp [State.handOver, h]
@[simp] theorem noEarlier_doPairSwitch (h : NoEarlier x s.stamp) {sq idx : Nat} : NoEarlier x (doPairSwitch sq idx s).stamp := by
  simp [doPairSwitch, h]
@[simp] theorem noEarlier_doFollow (h : NoEarlier x s.stamp) (n p t) : NoEarlier x (doFollow n p t s).stamp := by simp [doFollow, h]
@[simp] theorem stamp_digestCheckOf (id dig) : (s.digestCheckOf id dig).stamp = s.stamp := by
  unfold State.digestCheckOf
  dsimp only
  split <;> simp
@[simp] theorem noEarlier_receiveItem (h : NoEarlier x s.stamp) (i) : NoEarlier x (s.receiveItem i).stamp := by
  unfold State.receiveItem
  split <;> simp [h]
@[simp] theorem noEarlier_doTetherPacket (h : NoEarlier x s.stamp) (p t) : NoEarlier x (doTetherPacket p t s).stamp := by
  unfold doTetherPacket
  split
  · exact h
  · have h1 := noEarlier_accept (noEarlier_at h t) 2 p
    dsimp only
    (repeat' split) <;> simp [h1]
@[simp] theorem noEarlier_doPktReceive (h : NoEarlier x s.stamp) (n p t) : NoEarlier x (doPktReceive n p t s).stamp := by
  simp [doPktReceive, h]
@[simp] theorem noEarlier_doAckBlock (h : NoEarlier x s.stamp) (n v t) : NoEarlier x (doAckBlock n v t s).stamp := by simp [doAckBlock, h]

/-! ### Rings -/

@[simp] theorem stamp_acceptDesc (k b) : (s.acceptDesc k b).stamp = s.stamp := by simp [State.acceptDesc]
@[simp] theorem stamp_withdrawWait (w) : (s.withdrawWait w).stamp = s.stamp := by
  unfold State.withdrawWait
  split <;> simp
@[simp] theorem stamp_withdrawDesc (sq idx) : (s.withdrawDesc sq idx).stamp = s.stamp := by simp [State.withdrawDesc]
@[simp] theorem noEarlier_endDesc (h : NoEarlier x s.stamp) (d st) : NoEarlier x (s.endDesc d st).stamp := by simp [State.endDesc, h]
@[simp] theorem stamp_reroute : s.reroute.stamp = s.stamp := by simp [State.reroute]
@[simp] theorem stamp_clearRing (k) : (s.clearRing k).stamp = s.stamp := by simp [State.clearRing]
@[simp] theorem noEarlier_resetSub (h : NoEarlier x s.stamp) (k) : NoEarlier x (s.resetSub k).stamp := by simp [State.resetSub, h]
@[simp] theorem noEarlier_resetRing (h : NoEarlier x s.stamp) (k) : NoEarlier x (s.resetRing k).stamp := by simp [State.resetRing, h]
@[simp] theorem stamp_ringFails (k cause) : (s.ringFails k cause).stamp = s.stamp := by simp [State.ringFails]
@[simp] theorem stamp_clearIsland (i) : (s.clearIsland i).stamp = s.stamp := by simp [State.clearIsland]
@[simp] theorem noEarlier_hostReset (h : NoEarlier x s.stamp) (linkStays st) : NoEarlier x (s.hostReset linkStays st).stamp := by
  simp [State.hostReset, h]

/-! ### Life -/

@[simp] theorem stamp_queueSnapshot (front) : (s.queueSnapshot front).stamp = s.stamp := by simp [State.queueSnapshot]
@[simp] theorem stamp_failFlushes : s.failFlushes.stamp = s.stamp := by simp [State.failFlushes]
@[simp] theorem stamp_badSector (x op) : (s.badSector x op).stamp = s.stamp := by simp [State.badSector]
@[simp] theorem stamp_openSector (x) : (s.openSector x).stamp = s.stamp := by simp [State.openSector]
@[simp] theorem stamp_settleFlushes (id) : (s.settleFlushes id).stamp = s.stamp := by simp [State.settleFlushes]
@[simp] theorem stamp_programRecord (x r rest) : (s.programRecord x r rest).stamp = s.stamp := by simp [State.programRecord]
@[simp] theorem stamp_doLogRecordWrite (eraseFails progFails) : (doLogRecordWrite eraseFails progFails s).stamp = s.stamp := by
  unfold doLogRecordWrite
  dsimp only
  (repeat' split) <;> simp
@[simp] theorem stamp_drainLog (n) : (State.drainLog n s).stamp = s.stamp := by
  induction n generalizing s with
  | zero => rfl
  | succ n ih => unfold State.drainLog; split <;> simp [ih]
@[simp] theorem noEarlier_doLifetimeSecond (h : NoEarlier x s.stamp) (t) : NoEarlier x (doLifetimeSecond t s).stamp := by
  simp [doLifetimeSecond, h]
@[simp] theorem noEarlier_doSnapshot (h : NoEarlier x s.stamp) (t) : NoEarlier x (doSnapshot t s).stamp := by simp [doSnapshot, h]
@[simp] theorem stamp_doReadLife (sq idx) : (doReadLife sq idx s).stamp = s.stamp := by simp [doReadLife]
@[simp] theorem stamp_doLifeFlush (sq idx) : (doLifeFlush sq idx s).stamp = s.stamp := by simp [doLifeFlush]

/-! ### Resets -/

@[simp] theorem stamp_endBursts (p mine st) : (s.endBursts p mine st).stamp = s.stamp := by simp [State.endBursts]
@[simp] theorem stamp_cutBursts (st) : (s.cutBursts st).stamp = s.stamp := by simp [State.cutBursts]
@[simp] theorem stamp_stopAcqs (mask st) : (s.stopAcqs mask st).stamp = s.stamp := by simp [State.stopAcqs]
@[simp] theorem stamp_resetCore (n st) : (s.resetCore n st).stamp = s.stamp := by simp [State.resetCore]
@[simp] theorem stamp_resetTiming (n st) : (s.resetTiming n st).stamp = s.stamp := by simp [State.resetTiming]
@[simp] theorem stamp_resetChans (n) : (s.resetChans n).stamp = s.stamp := by simp [State.resetChans]
@[simp] theorem stamp_resetCapture (n st) : (s.resetCapture n st).stamp = s.stamp := by simp [State.resetCapture]
@[simp] theorem stamp_peFlush (n) : (s.peFlush n).stamp = s.stamp := by
  unfold State.peFlush
  dsimp only
  split <;> simp
@[simp] theorem stamp_resetPorts (n st on) : (s.resetPorts n st on).stamp = s.stamp := by simp [State.resetPorts]
@[simp] theorem stamp_resetEngine (e st) : (s.resetEngine e st).stamp = s.stamp := by simp [State.resetEngine]
@[simp] theorem stamp_resetApg (k st) : (s.resetApg k st).stamp = s.stamp := by simp [State.resetApg]
@[simp] theorem stamp_resetTether (st) : (s.resetTether st).stamp = s.stamp := by simp [State.resetTether]
@[simp] theorem noEarlier_resetFlow (h : NoEarlier x s.stamp) (st) : NoEarlier x (s.resetFlow st).stamp := by simp [State.resetFlow, h]
@[simp] theorem stamp_resetMemory (m st) : (s.resetMemory m st).stamp = s.stamp := by simp [State.resetMemory]
@[simp] theorem noEarlier_resetLink (h : NoEarlier x s.stamp) (n st) : NoEarlier x (s.resetLink n st).stamp := by simp [State.resetLink, h]
@[simp] theorem noEarlier_resetIsland (h : NoEarlier x s.stamp) (i st) : NoEarlier x (s.resetIsland i st).stamp := by
  simp [State.resetIsland, h]
@[simp] theorem noEarlier_resetCoreOf (h : NoEarlier x s.stamp) (core st) : NoEarlier x (s.resetCoreOf core st).stamp := by
  unfold State.resetCoreOf
  split
  · exact h
  · exact noEarlier_foldl (noEarlier_vacate h _ _) (fun a t => by simp) _
@[simp] theorem noEarlier_blockReset (h : NoEarlier x s.stamp) (i core host fault) :
    NoEarlier x (s.blockReset i core host fault).stamp := by
  unfold State.blockReset
  dsimp only
  split <;> simp [h]
@[simp] theorem noEarlier_doBlockReset (h : NoEarlier x s.stamp) (v fault) : NoEarlier x (doBlockReset v fault s).stamp := by
  simp [doBlockReset, h]
@[simp] theorem stamp_islandReturns (i) : (s.islandReturns i).stamp = s.stamp := by simp [State.islandReturns]
@[simp] theorem noEarlier_doBlockResetReturn (h : NoEarlier x s.stamp) (t) : NoEarlier x (doBlockResetReturn t s).stamp := by
  simp [doBlockResetReturn, h]
@[simp] theorem stamp_dropStops (n) : (s.dropStops n).stamp = s.stamp := by simp [State.dropStops]
@[simp] theorem noEarlier_domOff (h : NoEarlier x s.stamp) (d) : NoEarlier x (s.domOff d).stamp := by
  unfold State.domOff
  (repeat' split) <;> simp [h]
@[simp] theorem stamp_domRefused (f d) : (s.domRefused f d).stamp = s.stamp := by simp [State.domRefused]
@[simp] theorem stamp_domainsOn (j v) : (domainsOn j v s).stamp = s.stamp := by simp [domainsOn]
@[simp] theorem noEarlier_domainsOff (h : NoEarlier x s.stamp) (j v) : NoEarlier x (domainsOff j v s).stamp := by
  refine noEarlier_foldl h (fun a d => ?_) _
  dsimp only
  (repeat' split) <;> simp
@[simp] theorem noEarlier_writeDomCtl (h : NoEarlier x s.stamp) (j v) : NoEarlier x (writeDomCtl j v s).stamp := by simp [writeDomCtl, h]
@[simp] theorem noEarlier_doDomainOn (h : NoEarlier x s.stamp) (j v) : NoEarlier x (doDomainOn j v s).stamp := by simp [doDomainOn, h]
@[simp] theorem noEarlier_doDomainOff (h : NoEarlier x s.stamp) (j v) : NoEarlier x (doDomainOff j v s).stamp := by simp [doDomainOff, h]
@[simp] theorem stamp_chipReset (cause) : (s.chipReset cause).stamp = s.stamp := by
  unfold State.chipReset
  split <;> rfl
@[simp] theorem stamp_pinReset (cause) : (s.pinReset cause).stamp = s.stamp := by
  unfold State.pinReset
  split <;> rfl
@[simp] theorem stamp_doChipReset (v) : (doChipReset v s).stamp = s.stamp := by simp [doChipReset]
@[simp] theorem stamp_doPinReset (cause) : (doPinReset cause s).stamp = s.stamp := by simp [doPinReset]
@[simp] theorem noEarlier_doResetLoopClear (h : NoEarlier x s.stamp) (t) : NoEarlier x (doResetLoopClear t s).stamp := by
  simp [doResetLoopClear, h]
@[simp] theorem noEarlier_doPwrgoodRise (h : NoEarlier x s.stamp) (t) : NoEarlier x (doPwrgoodRise t s).stamp := by simp [doPwrgoodRise, h]

/-! ### Lull -/

@[simp] theorem stamp_lullClear : s.lullClear.stamp = s.stamp := by simp [State.lullClear]
@[simp] theorem noEarlier_enterLull (h : NoEarlier x s.stamp) : NoEarlier x s.enterLull.stamp := by
  unfold State.enterLull
  extract_lets s1 s2 s3 ms s4 s5
  have h1 : NoEarlier x s1.stamp := noEarlier_foldl (s := s) h (fun a k => by simp) _
  have h3 : NoEarlier x s3.stamp := by simp [s3, s2, h1]
  clear_value s3
  have h4 : NoEarlier x s4.stamp := noEarlier_foldl (by simpa using h3) (fun a n => by simp) _
  have h5 : NoEarlier x s5.stamp := noEarlier_at (by simpa using h4) _
  clear_value s5
  simp [h5]
@[simp] theorem noEarlier_doLullEnter (h : NoEarlier x s.stamp) (sq idx) : NoEarlier x (doLullEnter sq idx s).stamp := by
  simp [doLullEnter, h]
@[simp] theorem noEarlier_doLullWake (h : NoEarlier x s.stamp) (v) : NoEarlier x (doLullWake v s).stamp := by simp [doLullWake, h]
@[simp] theorem noEarlier_doLullWakeAtExpiry (h : NoEarlier x s.stamp) (t) : NoEarlier x (doLullWakeAtExpiry t s).stamp := by
  simp [doLullWakeAtExpiry, h]

/-! ### Faults -/

@[simp] theorem stamp_powerAllOff : s.powerAllOff.stamp = s.stamp := by simp [State.powerAllOff]
@[simp] theorem stamp_switchFails : s.switchFails.stamp = s.stamp := by simp [State.switchFails]
@[simp] theorem noEarlier_ballastStop (h : NoEarlier x s.stamp) : NoEarlier x s.ballastStop.stamp := by simp [State.ballastStop, h]
@[simp] theorem stamp_ballastPorts : s.ballastPorts.stamp = s.stamp := by simp [State.ballastPorts]
@[simp] theorem stamp_sendSafe : s.sendSafe.stamp = s.stamp := by simp [State.sendSafe]
@[simp] theorem noEarlier_ballastEnds (h : NoEarlier x s.stamp) : NoEarlier x s.ballastEnds.stamp := by
  unfold State.ballastEnds
  generalize List.range 48 = l
  extract_lets s1 cl s2 as u s3 s4 s5
  have h3 : NoEarlier x s3.stamp := by simp [s3, u, s2, s1, h]
  have h4 : NoEarlier x s4.stamp := noEarlier_foldl h3 (fun a t => by simp) _
  have h5 : NoEarlier x s5.stamp := noEarlier_foldl h4 (fun a e => by cases e <;> simp) _
  exact noEarlier_foldl (s := { s5 with calibs := [] }) h5 (fun a d => by simp) _
@[simp] theorem noEarlier_engage (h : NoEarlier x s.stamp) (src inj) : NoEarlier x (s.engage src inj).stamp := by
  unfold State.engage
  split
  · exact h
  · extract_lets t c s1 s2 s3 handed owns s4 s5 s6 s7 s8 s9 s10
    have h4 : NoEarlier x s4.stamp := by simp [s4, s3, s2, s1, h]
    have h6 : NoEarlier x s6.stamp := by simp [s6, s5, h4]
    have h8 : NoEarlier x s8.stamp := by simp [s8, s7, h6]
    have h9 : NoEarlier x s9.stamp := by simp [s9, h8]
    have h10 : NoEarlier x s10.stamp := by simp [s10, h9]
    simp [h10]
@[simp] theorem stamp_setRecWord (src w v) : (s.setRecWord src w v).stamp = s.stamp := by simp [State.setRecWord]
@[simp] theorem stamp_capture (r inj) : (s.capture r inj).stamp = s.stamp := by simp [State.capture]
@[simp] theorem stamp_recMore (src inj) : (s.recMore src inj).stamp = s.stamp := by simp [State.recMore]
@[simp] theorem stamp_islandLatch (r) : (s.islandLatch r).stamp = s.stamp := by simp [State.islandLatch]
@[simp] theorem noEarlier_resetNamed (h : NoEarlier x s.stamp) (r) : NoEarlier x (s.resetNamed r).stamp := by
  unfold State.resetNamed
  (repeat' split) <;> simp [h]
@[simp] theorem stamp_trap (src) : (s.trap src).stamp = s.stamp := by simp [State.trap]
@[simp] theorem stamp_faultEvent (r applied) : (s.faultEvent r applied).stamp = s.stamp := by simp [State.faultEvent]
@[simp] theorem noEarlier_react (h : NoEarlier x s.stamp) (r inj first react) : NoEarlier x (s.react r inj first react).stamp := by
  unfold State.react
  extract_lets n applied s1 c s2 s3 s4 s5 s6
  have h2 : NoEarlier x s2.stamp := by simp [s2, s1, h]
  have h3 : NoEarlier x s3.stamp := by simp [s3, h2]
  have h4 : NoEarlier x s4.stamp := by simp [s4, h3]
  have h5 : NoEarlier x s5.stamp := by simp [s5, h4]
  have h6 : NoEarlier x s6.stamp := by simp [s6, h5]
  clear_value s6
  split <;> simp [h6]
@[simp] theorem noEarlier_latchFault (h : NoEarlier x s.stamp) (r inj mask) : NoEarlier x (s.latchFault r inj mask).stamp := by
  unfold State.latchFault
  extract_lets s0 react l s1 fresh s2 s3 set real s3' s4
  have h1 : NoEarlier x s1.stamp := by simp [s1, s0, h]
  have h2 : NoEarlier x s2.stamp := by simp [s2, h1]
  have h3 : NoEarlier x s3.stamp := by simp [s3, h2]
  have h4 : NoEarlier x s4.stamp := by simp [s4, s3', h2]
  clear_value s3 s4
  (repeat' split) <;> simp [h3, h4]
@[simp] theorem noEarlier_corrupted (h : NoEarlier x s.stamp) (island work) : NoEarlier x (s.corrupted island work).stamp := by
  simp [State.corrupted, h]
@[simp] theorem noEarlier_doFaultLatch (h : NoEarlier x s.stamp) (src island unit detail addr) :
    NoEarlier x (doFaultLatch src island unit detail addr s).stamp := by
  unfold doFaultLatch
  dsimp only
  (repeat' split) <;> simp [h]
@[simp] theorem stamp_doFaultStatusClear (v) : (doFaultStatusClear v s).stamp = s.stamp := by simp [doFaultStatusClear]
@[simp] theorem noEarlier_writeInject (h : NoEarlier x s.stamp) (v) : NoEarlier x (s.writeInject v).stamp := by simp [State.writeInject, h]
@[simp] theorem noEarlier_doFaultInjection (h : NoEarlier x s.stamp) (v) : NoEarlier x (doFaultInjection v s).stamp := by
  simp [doFaultInjection, h]
@[simp] theorem noEarlier_doAddressInjection (h : NoEarlier x s.stamp) (v) : NoEarlier x (doAddressInjection v s).stamp := by
  simp [doAddressInjection, h]
@[simp] theorem noEarlier_doInjCancel (h : NoEarlier x s.stamp) (v) : NoEarlier x (doInjCancel v s).stamp := by simp [doInjCancel, h]
@[simp] theorem noEarlier_doBallastEngageWrite (h : NoEarlier x s.stamp) (v) : NoEarlier x (doBallastEngageWrite v s).stamp := by
  simp [doBallastEngageWrite, h]
@[simp] theorem noEarlier_doCollectorSelfCheck (h : NoEarlier x s.stamp) (t) : NoEarlier x (doCollectorSelfCheck t s).stamp := by
  simp [doCollectorSelfCheck, h]

/-! ### HostCmds -/

@[simp] theorem stamp_doNop (sq idx) : (doNop sq idx s).stamp = s.stamp := by simp [doNop]
@[simp] theorem stamp_doFenceRelease (sq idx) : (doFenceRelease sq idx s).stamp = s.stamp := by simp [doFenceRelease]
@[simp] theorem stamp_doDescriptorFetch (k entries ok) : (doDescriptorFetch k entries ok s).stamp = s.stamp := by simp [doDescriptorFetch]
@[simp] theorem stamp_taskGone (tid) : (s.taskGone tid).stamp = s.stamp := by
  unfold State.taskGone
  split <;> simp
@[simp] theorem stamp_doEventPost (k) : (doEventPost k s).stamp = s.stamp := by
  unfold doEventPost
  split <;> simp
@[simp] theorem noEarlier_doIrqTimerExpiry (h : NoEarlier x s.stamp) (k t) : NoEarlier x (doIrqTimerExpiry k t s).stamp := by
  simp [doIrqTimerExpiry, h]
@[simp] theorem stamp_ringOpen (k) : (s.ringOpen k).stamp = s.stamp := by simp [State.ringOpen]
@[simp] theorem stamp_ringShut (k) : (s.ringShut k).stamp = s.stamp := by simp [State.ringShut]
@[simp] theorem stamp_writeRingCfg (k v) : (s.writeRingCfg k v).stamp = s.stamp := by simp [State.writeRingCfg]
@[simp] theorem stamp_doRingEnable (k v) : (doRingEnable k v s).stamp = s.stamp := by simp [doRingEnable]
@[simp] theorem stamp_doRingDisable (k v) : (doRingDisable k v s).stamp = s.stamp := by simp [doRingDisable]
@[simp] theorem noEarlier_doRingReset (h : NoEarlier x s.stamp) (k v) : NoEarlier x (doRingReset k v s).stamp := by simp [doRingReset, h]
@[simp] theorem noEarlier_doorbell (h : NoEarlier x s.stamp) (k v) : NoEarlier x (s.doorbell k v).stamp := by simp [State.doorbell, h]
@[simp] theorem noEarlier_doSubmissionDoorbell (h : NoEarlier x s.stamp) (k v) : NoEarlier x (doSubmissionDoorbell k v s).stamp := by
  simp [doSubmissionDoorbell, h]
@[simp] theorem noEarlier_doHeadDoorbell (h : NoEarlier x s.stamp) (k v) : NoEarlier x (doHeadDoorbell k v s).stamp := by
  simp [doHeadDoorbell, h]
@[simp] theorem noEarlier_doHostIslandReset (h : NoEarlier x s.stamp) (kind) : NoEarlier x (doHostIslandReset kind s).stamp := by
  simp [doHostIslandReset, h]
@[simp] theorem stamp_doPcieLinkUp (gen width cfg) : (doPcieLinkUp gen width cfg s).stamp = s.stamp := by simp [doPcieLinkUp]

/-! ### Windsock -/

@[simp] theorem stamp_markDip (a b) : (s.markDip a b).stamp = s.stamp := by simp [State.markDip]
@[simp] theorem noEarlier_railWarns (h : NoEarlier x s.stamp) (r aux) : NoEarlier x (s.railWarns r aux).stamp := by
  simp [State.railWarns, h]
@[simp] theorem noEarlier_doRailBelowWarning (h : NoEarlier x s.stamp) (r first t) :
    NoEarlier x (doRailBelowWarning r first t s).stamp := by
  simp [doRailBelowWarning, h]
@[simp] theorem noEarlier_doRailAboveWarning (h : NoEarlier x s.stamp) (r first lowest t) :
    NoEarlier x (doRailAboveWarning r first lowest t s).stamp := by
  unfold doRailAboveWarning
  dsimp only
  (repeat' split) <;> simp [h]
@[simp] theorem noEarlier_doRailAboveHigh (h : NoEarlier x s.stamp) (r level t) : NoEarlier x (doRailAboveHigh r level t s).stamp := by
  simp [doRailAboveHigh, h]
@[simp] theorem noEarlier_doSupplyPauseEnd (h : NoEarlier x s.stamp) (t) : NoEarlier x (doSupplyPauseEnd t s).stamp := by
  simp [doSupplyPauseEnd, h]
theorem noEarlier_doSupplyReset (h : NoEarlier x s.stamp) {r : Nat} (hr : r ≠ 13) (lowest t) :
    NoEarlier x (doSupplyReset r lowest t s).stamp := by
  unfold doSupplyReset
  split
  · exact h
  · simp [h]
@[simp] theorem stamp_threshold (src sub k thr v) : (s.threshold src sub k thr v).stamp = s.stamp := by simp [State.threshold]
@[simp] theorem stamp_sense (k v) : (s.sense k v).stamp = s.stamp := by simp [State.sense]
@[simp] theorem noEarlier_doTempSample (h : NoEarlier x s.stamp) (temps t) : NoEarlier x (doTempSample temps t s).stamp := by
  unfold doTempSample
  extract_lets s0 new s1
  have h1 : NoEarlier x s1.stamp := by
    refine noEarlier_foldl (noEarlier_at h t) (fun a k => ?_) _
    split <;> simp
  split <;> simp [h1]
@[simp] theorem stamp_setProcs (freqs) : (s.setProcs freqs).stamp = s.stamp := by
  refine stamp_foldl (fun a n => ?_) _ _
  split <;> simp
@[simp] theorem noEarlier_doProcessSample (h : NoEarlier x s.stamp) (freqs t) : NoEarlier x (doProcessSample freqs t s).stamp := by
  simp [doProcessSample, h]

/-! ### Failures -/

@[simp] theorem stamp_reportEither (src island unit) : (s.reportEither src island unit).stamp = s.stamp := by simp [State.reportEither]
@[simp] theorem noEarlier_sliceBursts (h : NoEarlier x s.stamp) (g queued) : NoEarlier x (s.sliceBursts g queued).stamp := by
  unfold State.sliceBursts
  (repeat' split) <;> simp [h]
@[simp] theorem noEarlier_doSliceFailure (h : NoEarlier x s.stamp) (n p) : NoEarlier x (doSliceFailure n p s).stamp := by
  unfold doSliceFailure
  dsimp only
  (repeat' split) <;> simp [h]
@[simp] theorem noEarlier_doCaptureEngineFailure (h : NoEarlier x s.stamp) (n) : NoEarlier x (doCaptureEngineFailure n s).stamp := by
  simp [doCaptureEngineFailure, h]
@[simp] theorem noEarlier_blockNeeding (h : NoEarlier x s.stamp) (p) : NoEarlier x (s.blockNeeding p).stamp := by
  refine noEarlier_foldl h (fun a y => ?_) _
  split <;> simp
@[simp] theorem noEarlier_retireChan (h : NoEarlier x s.stamp) (n c) : NoEarlier x (s.retireChan n c).stamp := by simp [State.retireChan, h]
@[simp] theorem noEarlier_doChannelFailure (h : NoEarlier x s.stamp) (n c) : NoEarlier x (doChannelFailure n c s).stamp := by
  simp [doChannelFailure, h]
@[simp] theorem noEarlier_retireChain (h : NoEarlier x s.stamp) (k) : NoEarlier x (s.retireChain k).stamp := by simp [State.retireChain, h]
@[simp] theorem noEarlier_doFilterChainFailure (h : NoEarlier x s.stamp) (k) : NoEarlier x (doFilterChainFailure k s).stamp := by
  simp [doFilterChainFailure, h]

/-! ### Clocks -/

@[simp] theorem stamp_foldSub : s.foldSub.stamp = s.stamp := by simp [State.foldSub]
@[simp] theorem stamp_goDark : s.goDark.stamp = s.stamp := by simp [State.goDark]
@[simp] theorem noEarlier_endDark (h : NoEarlier x s.stamp) (t) : NoEarlier x (s.endDark t).stamp := by
  unfold State.endDark
  split <;> simp [h]
@[simp] theorem stamp_trefEnds : s.trefEnds.stamp = s.stamp := by simp [State.trefEnds]
@[simp] theorem noEarlier_trefLost (h : NoEarlier x s.stamp) (t) : NoEarlier x (s.trefLost t).stamp := by simp [State.trefLost, h]
@[simp] theorem stamp_trefFault : s.trefFault.stamp = s.stamp := by simp [State.trefFault]
@[simp] theorem noEarlier_doTrefLoss (h : NoEarlier x s.stamp) (t) : NoEarlier x (doTrefLoss t s).stamp := by simp [doTrefLoss, h]
@[simp] theorem noEarlier_doPllRelock (h : NoEarlier x s.stamp) (t) : NoEarlier x (doPllRelock t s).stamp := by simp [doPllRelock, h]
@[simp] theorem noEarlier_doTrefHoldEnd (h : NoEarlier x s.stamp) (t) : NoEarlier x (doTrefHoldEnd t s).stamp := by simp [doTrefHoldEnd, h]
@[simp] theorem noEarlier_doReplicaCheck (h : NoEarlier x s.stamp) (island replica t) :
    NoEarlier x (doReplicaCheck island replica t s).stamp := by
  simp [doReplicaCheck, h]
@[simp] theorem noEarlier_tick (h : NoEarlier x s.stamp) : NoEarlier x s.tick.stamp := by simp [State.tick, h]
@[simp] theorem stamp_calLoad (sec) : (s.calLoad sec).stamp = s.stamp := by simp [State.calLoad]
@[simp] theorem stamp_doCalSet (v) : (doCalSet v s).stamp = s.stamp := by simp [doCalSet]
@[simp] theorem noEarlier_doCalsecAdvance (h : NoEarlier x s.stamp) (t) : NoEarlier x (doCalsecAdvance t s).stamp := by
  simp [doCalsecAdvance, h]
@[simp] theorem noEarlier_doXtalLoss (h : NoEarlier x s.stamp) (t) : NoEarlier x (doXtalLoss t s).stamp := by simp [doXtalLoss, h]
@[simp] theorem noEarlier_doXtalReturn (h : NoEarlier x s.stamp) (t) : NoEarlier x (doXtalReturn t s).stamp := by simp [doXtalReturn, h]
@[simp] theorem noEarlier_doSyncOutPulse (h : NoEarlier x s.stamp) (t) : NoEarlier x (doSyncOutPulse t s).stamp := by
  simp [doSyncOutPulse, h]
@[simp] theorem noEarlier_doTrigInEdge (h : NoEarlier x s.stamp) (j rising t) : NoEarlier x (doTrigInEdge j rising t s).stamp := by
  simp [doTrigInEdge, h]
@[simp] theorem stamp_doTapInstruction (code) : (doTapInstruction code s).stamp = s.stamp := by simp [doTapInstruction]

/-! ### Image -/

@[simp] theorem stamp_loadPatch (b) : (s.loadPatch b).stamp = s.stamp := by simp [State.loadPatch]
@[simp] theorem stamp_applyBoard (l) : (s.applyBoard l).stamp = s.stamp := by simp [State.applyBoard]

/-! ### Boot -/

@[simp] theorem stamp_bootMark (phase code detail) : (s.bootMark phase code detail).stamp = s.stamp := by simp [State.bootMark]
theorem stamp_with_power (p : Power) : ({ s with power := p } : State).stamp = s.stamp := rfl
@[simp] theorem stamp_bootFails (phase code detail) : (s.bootFails phase code detail).stamp = s.stamp := by
  unfold State.bootFails
  exact (stamp_with_power _).trans (by simp)
theorem stamp_with_mcs {ms : List Mc} {l : Life} {r : Rst} : ({ s with life := l, mcs := ms, rst := r } : State).stamp = s.stamp := rfl
@[simp] theorem stamp_mountLog (base size cold kept) : (s.mountLog base size cold kept).stamp = s.stamp := by
  unfold State.mountLog
  extract_lets u l0 rs snap r
  clear_value snap rs
  split
  extract_lets l1 used l2 l3 fences ms agrees s1
  have h1 : s1.stamp = s.stamp := stamp_with_mcs
  clear_value s1 agrees
  split
  · exact h1
  · exact (stamp_foldl (fun a m => by simp) _ _).trans h1
@[simp] theorem stamp_trainMemory (inp kept) : (s.trainMemory inp kept).stamp = s.stamp := by simp [State.trainMemory]
@[simp] theorem stamp_fillCaps : s.fillCaps.stamp = s.stamp := by simp [State.fillCaps]
@[simp] theorem noEarlier_retireFound (h : NoEarlier x s.stamp) (meters cores kept) :
    NoEarlier x (s.retireFound meters cores kept).stamp := by
  simp [State.retireFound, h]
@[simp] theorem noEarlier_retireUnit (h : NoEarlier x s.stamp) (kind island unit) : NoEarlier x (s.retireUnit kind island unit).stamp := by
  unfold State.retireUnit
  split <;> simp [h]
@[simp] theorem noEarlier_reloadRetired (h : NoEarlier x s.stamp) : NoEarlier x s.reloadRetired.stamp := by
  unfold State.reloadRetired
  split
  · exact h
  · exact noEarlier_foldl h (fun a u => by simp) _
@[simp] theorem stamp_bootLinks (l) : (s.bootLinks l).1.stamp = s.stamp := by simp [State.bootLinks]
@[simp] theorem stamp_allotCtx : s.allotCtx.stamp = s.stamp := by
  unfold State.allotCtx
  dsimp only
  split <;> simp
@[simp] theorem stamp_bootDomains : s.bootDomains.stamp = s.stamp := by simp [State.bootDomains]
theorem stamp_with_boot {r : Rst} {l : Life} {p : Pair} : ({ s with rst := r, life := l, pair := p } : State).stamp = s.stamp := rfl
@[simp] theorem noEarlier_bootEnds (h : NoEarlier x s.stamp) (slot warns) : NoEarlier x (s.bootEnds slot warns).stamp := by
  unfold State.bootEnds
  split
  extract_lets s1 seen procs s2 s3 solo l r p s4
  have h1 : s1.stamp = s.stamp := by simp [s1]
  have h2 : s2.stamp = s1.stamp := by
    simp only [s2]
    split <;> simp
  have h3 : s3.stamp = s2.stamp := by simp [s3]
  have h4 : s4.stamp = s3.stamp := stamp_with_boot
  clear_value s4
  split <;> simp [h4, h3, h2, h1, h]
@[simp] theorem noEarlier_bootBoard (h : NoEarlier x s.stamp) (inp slot b l) : NoEarlier x (s.bootBoard inp slot b l).stamp := by
  unfold State.bootBoard
  extract_lets bd dslot idx s0 s1 ptr
  have h1 : NoEarlier x s1.stamp := by simp [s1, s0, h]
  split
  · simp [h1]
  · split
    · simp [h1]
    · extract_lets s2 kept s3 s4 slow s5 fresh tables cores s6
      have h2 : NoEarlier x s2.stamp := by simp [s2, h1]
      have h3 : NoEarlier x s3.stamp := by unfold s3; split <;> simp [h2]
      have h5 : NoEarlier x s5.stamp := by simp [s5, s4, h3]
      have h6 : NoEarlier x s6.stamp := noEarlier_reloadRetired (noEarlier_retireFound (by split <;> simp [h5]) _ _ _)
      clear_value s6
      split
      · simp [h2]
      · simp [h6]
@[simp] theorem noEarlier_bootClocks (h : NoEarlier x s.stamp) (inp) : NoEarlier x (s.bootClocks inp).stamp := by simp [State.bootClocks, h]
@[simp] theorem noEarlier_doBoot (h : NoEarlier x s.stamp) (inp) : NoEarlier x (doBoot inp s).stamp := by
  unfold doBoot
  extract_lets p s0 loops r s1 s2
  have h0 : NoEarlier x s0.stamp := noEarlier_at h _
  have h1 : NoEarlier x s1.stamp := noEarlier_bootClocks (by simpa using h0) _
  have h2 : NoEarlier x s2.stamp := by simp [s2, h1]
  clear_value s2
  split
  · exact h
  · (repeat' split) <;> simp [h2]
@[simp] theorem stamp_doPatchApply (sq idx src) : (doPatchApply sq idx src s).stamp = s.stamp := by
  refine stamp_withDesc fun d => ?_
  dsimp only
  (repeat' split) <;> simp

/-! ### RegRead -/

@[simp] theorem stamp_dropHeld (off) : (s.dropHeld off).stamp = s.stamp := by simp [State.dropHeld]
@[simp] theorem stamp_read32 (off) : (s.read32 off).1.stamp = s.stamp := by
  unfold State.read32
  (repeat' split) <;> simp
@[simp] theorem stamp_doSplitReadLatch (off size) : (doSplitReadLatch off size s).stamp = s.stamp := by simp [doSplitReadLatch]
@[simp] theorem stamp_doSmbusBlockRead (cmd) : (doSmbusBlockRead cmd s).stamp = s.stamp := by simp [doSmbusBlockRead]

/-! ### HostWrite -/

@[simp] theorem stamp_writeTempThr (v) : (s.writeTempThr v).stamp = s.stamp := by simp [State.writeTempThr]
@[simp] theorem stamp_writeRailThr (r v) : (s.writeRailThr r v).stamp = s.stamp := by simp [State.writeRailThr]
@[simp] theorem stamp_writeMasked (off ch is v) : (s.writeMasked off ch is v).stamp = s.stamp := by simp [State.writeMasked]
@[simp] theorem stamp_writeMemLog (off m j v) : (s.writeMemLog off m j v).stamp = s.stamp := by simp [State.writeMemLog]
@[simp] theorem stamp_writeDtimeStat (v) : (s.writeDtimeStat v).stamp = s.stamp := by simp [State.writeDtimeStat]
@[simp] theorem stamp_writePairCtl (v) : (s.writePairCtl v).stamp = s.stamp := by simp [State.writePairCtl]
@[simp] theorem stamp_writeChain (off k highOnly v) : (s.writeChain off k highOnly v).stamp = s.stamp := by simp [State.writeChain]
@[simp] theorem noEarlier_writeReg (h : NoEarlier x s.stamp) (r is off highOnly v) :
    NoEarlier x (s.writeReg r is off highOnly v).stamp := by
  unfold State.writeReg
  split <;> simp [h]
@[simp] theorem noEarlier_write32 (h : NoEarlier x s.stamp) (off v) : NoEarlier x (s.write32 off v).stamp := by
  unfold State.write32
  (repeat' split) <;> simp [h]
@[simp] theorem stamp_msixWord (o x) : (s.msixWord o x).stamp = s.stamp := by simp [State.msixWord]
@[simp] theorem noEarlier_bar2Write (h : NoEarlier x s.stamp) (o size v) : NoEarlier x (s.bar2Write o size v).stamp := by
  simp [State.bar2Write, h]
@[simp] theorem noEarlier_doRegisterWrite (h : NoEarlier x s.stamp) (off size v) : NoEarlier x (doRegisterWrite off size v s).stamp := by
  unfold doRegisterWrite
  (repeat' split) <;> simp [h]

/-! ### Every command and every step -/

theorem noEarlier_of_next {t u : State} (h : NoEarlier x u.stamp) (e : (Host.Outcome.next u : Host.Outcome State Fault Refusal) = .next t) :
    NoEarlier x t.stamp := by
  cases e
  exact h

/-- The commands that may turn DTIME back: the COLD reset, and a reset by rail 13. -/
def ZeroesTime : Instr → Prop
  | .coldReset _ => True
  | .supplyReset r _ _ => r = 13
  | _ => False

theorem noEarlier_exec {c : Instr} {t : State} (hc : ¬ ZeroesTime c) (h : NoEarlier x s.stamp) (e : exec c s = .next t) :
    NoEarlier x t.stamp := by
  cases c with
  | coldReset cause => exact (hc trivial).elim
  | supplyReset r lowest t0 => exact noEarlier_of_next (noEarlier_doSupplyReset h hc lowest t0) e
  | _ => exact noEarlier_of_next (by simp [h]) e

theorem exec_coldReset_stamp {cause : Nat} {t : State} (e : exec (.coldReset cause) s = .next t) : t.stamp = (0, s.fuse) := by
  cases e
  rfl

theorem doSupplyReset_fuse (r lowest t0) : (doSupplyReset r lowest t0 s).fuse = s.fuse := by
  by_cases hr : r = 13
  · subst hr
    unfold doSupplyReset
    split <;> rfl
  · exact (noEarlier_doSupplyReset (.refl s.stamp) hr lowest t0).1

theorem exec_fuse {c : Instr} {t : State} (e : exec c s = .next t) : t.fuse = s.fuse := by
  by_cases hc : ZeroesTime c
  · cases c with
    | coldReset cause => exact congrArg Prod.snd (exec_coldReset_stamp e)
    | supplyReset r lowest t0 =>
      cases e
      exact doSupplyReset_fuse r lowest t0
    | _ => exact hc.elim
  · exact (noEarlier_exec hc (.refl s.stamp) e).1
end

/-- Settles O56: every command but the two COLD resets leaves DTIME where it is or moves it on, and these start it at 0; all of them keep
the fuses. -/
theorem dtimeNeverDecreases : Obligations.DtimeNeverDecreases := by
  intro s t e
  unfold step at e
  split at e
  case h_1 c rest hq =>
    rw [hq]
    refine ⟨exec_fuse (s := { s with pending := rest }) e, fun cause hc => ?_, fun hcold hrail => ?_⟩
    · cases hc
      exact congrArg Prod.fst (exec_coldReset_stamp e)
    · have hc : ¬ ZeroesTime c := by
        cases c with
        | coldReset cause => exact (hcold cause rfl).elim
        | supplyReset r lowest t0 => exact hrail r lowest t0 rfl
        | _ => exact id
      exact (noEarlier_exec (s := { s with pending := rest }) hc (.refl s.stamp) e).2
  case h_2 hq =>
    have ht : NoEarlier s.stamp t.stamp := noEarlier_of_next (by simp) e
    rw [hq]
    exact ⟨ht.1, fun _ h => (by cases h), fun _ _ => ht.2⟩

end Sys2Proof.Machine
end

