-- ==== Sys2Proof/Proofs/Clocks.lean ====
section
namespace Sys2Proof.Machine

/-! SUPPORT. What becomes of TREF, LREF, the crystal, the calendar and the pins (R51-R59, R362, R373, R575, R738, R739), and the two
statements about them. -/

/-! ### Fields that a record or a condition leaves -/

@[simp] theorem log_dtime (s : State) (typ : Nat) (data : List Byte) : (s.log typ data).dtime = s.dtime := by
  obtain ⟨_, _, _, _, e⟩ := log_eq s typ data; rw [e]
@[simp] theorem log_dfrac (s : State) (typ : Nat) (data : List Byte) : (s.log typ data).dfrac = s.dfrac := by
  obtain ⟨_, _, _, _, e⟩ := log_eq s typ data; rw [e]
@[simp] theorem log_clk (s : State) (typ : Nat) (data : List Byte) : (s.log typ data).clk = s.clk := by
  obtain ⟨_, _, _, _, e⟩ := log_eq s typ data; rw [e]
@[simp] theorem log_mem (s : State) (typ : Nat) (data : List Byte) : (s.log typ data).mem = s.mem := by
  obtain ⟨_, _, _, _, e⟩ := log_eq s typ data; rw [e]

@[simp] theorem onset_clk (s : State) (a b c d : Nat) : (s.onset a b c d).clk = s.clk := by
  obtain ⟨_, e⟩ := onset_eq s a b c d; rw [e]
@[simp] theorem onset_links (s : State) (a b c d : Nat) : (s.onset a b c d).links = s.links := by
  obtain ⟨_, e⟩ := onset_eq s a b c d; rw [e]

/-- A counter of the register file counts and stops at its greatest value. -/
theorem rf_incRf_same (s : State) (f : RF) (i : List Nat) (n : Nat) (h : f.lo + f.w ≤ 64) :
    (s.incRf f i n).rf f i = satAdd f.w (s.rf f i) n := by
  rw [State.incRf, rf_setRf_same _ _ _ _ h, Nat.mod_eq_of_lt (satAdd_lt _ _ _)]

/-! ### Both clocks lost, and one of them back (R59) -/

/-- With the PLL locked the chip is not dark. -/
theorem goDark_locked {s : State} (h : s.clk.pll = true) : s.goDark = s := by simp [State.goDark, h]

theorem endDark_lit {s : State} (h : s.clk.darkSince = none) (t : Nat) : s.endDark t = s.at t := by
  unfold State.endDark; rw [h]

@[simp] theorem endDark_darkSince (s : State) (t : Nat) : (s.endDark t).clk.darkSince = none := by
  unfold State.endDark
  split
  · assumption
  · simp
@[simp] theorem endDark_dfrac (s : State) (t : Nat) : (s.endDark t).dfrac = s.dfrac := by
  unfold State.endDark; split <;> simp
@[simp] theorem endDark_mem (s : State) (t : Nat) : (s.endDark t).mem = s.mem := by
  unfold State.endDark; split <;> simp

/-- The time of an interval without a clock is not counted. -/
theorem endDark_dtime (s : State) (t : Nat) :
    (s.endDark t).dtime = if s.clk.darkSince.isSome then s.dtime else (s.at t).dtime := by
  unfold State.endDark; split <;> simp [*]

/-! ### TREF (R51-R56) -/

section
variable {s : State}

theorem doTrefLoss_present (h : s.clk.tref = true) (hr : s.pair.role ≠ 1) (t : Nat) :
    doTrefLoss t s = (s.trefLost t).trefEnds.trefFault.goDark := by
  have hrole : (s.trefLost t).pair.role ≠ 1 := hr
  simp [doTrefLoss, h, hrole]

theorem trefLost_coarse (t : Nat) : (s.trefLost t).rb F.DTIME_STAT_COARSE = true := by
  rw [State.rb, State.trefLost, State.incRf, rf_setRf_ne _ _ _ _ _ _ (by decide), rf_setRf_ne _ _ _ _ _ _ (by decide),
    rf_setRf_same _ _ _ _ (by decide)]
  rfl

theorem trefLost_lost (t : Nat) : (s.trefLost t).rb F.CLK_STAT_TREF_LOST = true := by
  rw [State.rb, State.trefLost, State.incRf,
    rf_setRf_disjoint _ F.CLK_STAT_TREF_LOSS_COUNT F.CLK_STAT_TREF_LOST [] [] _ rfl (by decide) (by decide),
    rf_setRf_same _ _ _ _ (by decide)]
  rfl

theorem trefLost_count (t : Nat) :
    (s.trefLost t).rf F.CLK_STAT_TREF_LOSS_COUNT = satAdd 16 (s.rf F.CLK_STAT_TREF_LOSS_COUNT) 1 := by
  rw [State.trefLost, rf_incRf_same _ _ _ _ (by decide),
    rf_setRf_disjoint _ F.CLK_STAT_TREF_LOST F.CLK_STAT_TREF_LOSS_COUNT [] [] _ rfl (by decide) (by decide),
    rf_setRf_ne _ _ _ _ _ _ (by decide)]
  rfl

theorem doTrefHoldEnd_due {t : Nat} (hh : s.clk.trefHold = true) (hp : s.clk.tref = true) (ht : s.clk.trefSince + 1000000 ≤ t) :
    doTrefHoldEnd t s = ({ s.at t with clk := { s.clk with trefHold := false } } : State).scan := by simp [doTrefHoldEnd, hh, hp, ht]

/-- R53 for a replica within 1 ns of the master. -/
theorem doReplicaCheck_near {k r t : Nat} (hk : k < 30) (ha : s.islandAbsent k = false) (h : t ≤ r + 1 ∧ r ≤ t + 1) :
    doReplicaCheck k r t s = { s.at t with clk := { s.clk with replicas := s.clk.replicas.set k ((r : Int) - t) } } := by
  have hd : -1 ≤ (r : Int) - t ∧ (r : Int) - t ≤ 1 := by omega
  simp [doReplicaCheck, Nat.not_le.2 hk, ha, hd]

/-- The state of a replica that slipped, before the report. -/
def State.slipped (s : State) (k t : Nat) : State :=
  (({ s.at t with clk := { s.clk with replicas := s.clk.replicas.set k 0 } } : State).setRf F.DTIME_STAT_SLIP [] 1).setRf
    F.DTIME_STAT_SLIP_ISLAND [] k

theorem doReplicaCheck_slip {k r t : Nat} (hk : k < 30) (ha : s.islandAbsent k = false) (h : ¬ (t ≤ r + 1 ∧ r ≤ t + 1)) :
    doReplicaCheck k r t s = (s.slipped k t).report 4 k 0 0 := by
  have hd : ¬ (-1 ≤ (r : Int) - t ∧ (r : Int) - t ≤ 1) := by omega
  simp only [Bool.and_eq_true, decide_eq_true_eq, doReplicaCheck, Nat.not_le.2 hk, ha, hd, decide_false, Bool.or_self,
    Bool.false_eq_true, if_false]
  rfl

theorem slipped_slip (k t : Nat) : (s.slipped k t).rb F.DTIME_STAT_SLIP = true := by
  rw [State.rb, State.slipped, rf_setRf_disjoint _ F.DTIME_STAT_SLIP_ISLAND F.DTIME_STAT_SLIP [] [] _ rfl (by decide) (by decide),
    rf_setRf_same _ _ _ _ (by decide)]
  rfl

theorem slipped_island {k : Nat} (hk : k < 30) (t : Nat) : (s.slipped k t).rf F.DTIME_STAT_SLIP_ISLAND = k := by
  rw [State.slipped, rf_setRf_same _ _ _ _ (by decide)]
  exact Nat.mod_eq_of_lt (Nat.lt_trans hk (by decide))

/-! ### LREF (R56, R575) -/

/-- The state right after LREF is lost, before the links go down. -/
def State.lrefLost (s : State) (t : Nat) : State :=
  (({ s.at t with clk := { s.clk with lref := false, lrefHold := true } } : State).setRf F.CLK_STAT_LREF_LOST [] 1).onset 2 29 0 0

theorem lrefLost_lost (t : Nat) : (s.lrefLost t).rb F.CLK_STAT_LREF_LOST = true := by
  rw [State.lrefLost, rb_congr (onset_regs _ _ _ _ _), State.rb, rf_setRf_same _ _ _ _ (by decide)]
  rfl

theorem doLrefLoss_present (h : s.clk.lref = true) (t : Nat) : doLrefLoss t s = (List.range 4).foldl (fun s n =>
    if (s.lk n).state = 0 then s else if s.linkUp n then (s.linkGone n 4).report 22 (21 + n) 0 2 else s.linkGone n 4) (s.lrefLost t) := by
  simp only [doLrefLoss, h, Bool.not_true, Bool.false_eq_true, if_false]
  rfl

theorem doLrefReturn_lost (h : s.clk.lref = false) (t : Nat) :
    doLrefReturn t s = ({ s.at t with clk := { s.clk with lref := true, lrefSince := (s.at t).dtime } } : State).condOff 2 29 0 := by
  simp [doLrefReturn, State.lrefRises, h]

theorem doLrefReturn_held {t : Nat} (h : s.clk.lref = true) (hh : s.clk.lrefHold = true) (ht : s.clk.lrefSince + 1000000 ≤ t) :
    doLrefReturn t s = (List.range 4).foldl (fun s n =>
      if s.hasLink n && s.rb F.PL_CTL_EN [n] && (s.lk n).state = 4 then s.train n else s)
      { s.at t with clk := { s.clk with lrefHold := false } } := by
  rw [doLrefReturn, if_neg (by simp [h]), if_neg (by simpa [hh] using ht)]
  rfl
end

/-- Settles O12, by what each of the commands does to the state. -/
theorem referenceClocks : Obligations.ReferenceClocks := by
  refine ⟨fun s t0 hp hr => ?_, fun s t0 hh hp ht => ?_, fun s t0 hp => ?_, fun s t0 h => ?_, fun s t0 h => ?_, fun s t0 h hh ht => ?_,
    fun s k r t0 hk ha => ?_⟩
  · exact ⟨s.trefLost t0, congrArg Host.Outcome.next (doTrefLoss_present hp hr t0), rfl, rfl, rfl, trefLost_coarse t0, trefLost_lost t0,
      trefLost_count t0, rfl, rfl, rfl⟩
  · exact ⟨_, congrArg Host.Outcome.next (doTrefHoldEnd_due hh hp ht), rfl, hp, rfl, rfl, rfl⟩
  · have e : doPllRelock t0 s = _ := if_neg (by simp [hp])
    exact ⟨_, congrArg Host.Outcome.next e, rfl, rfl, endDark_darkSince s t0, rfl, condOff_live _ _ _ _, endDark_dtime s t0,
      endDark_dfrac s t0, endDark_mem s t0⟩
  · exact ⟨s.lrefLost t0, congrArg Host.Outcome.next (doLrefLoss_present h t0), by simp [State.lrefLost], lrefLost_lost t0,
      onset_live _ _ _ _ _, by simp [State.lrefLost], by simp [State.lrefLost]⟩
  · exact ⟨_, congrArg Host.Outcome.next (doLrefReturn_lost h t0), rfl, condOff_live _ _ _ _, rfl, rfl, rfl⟩
  · exact congrArg Host.Outcome.next (doLrefReturn_held h hh ht)
  · by_cases hd : t0 ≤ r + 1 ∧ r ≤ t0 + 1
    · exact ⟨_, congrArg Host.Outcome.next (doReplicaCheck_near hk ha hd), rfl, fun _ => ⟨rfl, rfl, rfl⟩, fun h => absurd hd h⟩
    · exact ⟨_, congrArg Host.Outcome.next (doReplicaCheck_slip hk ha hd), rfl, fun h => absurd h hd,
        fun _ => ⟨rfl, slipped_slip k t0, slipped_island hk t0, rfl⟩⟩

/-! ### The calendar and the crystal (R57-R59) -/

section
variable {s : State}

theorem doCalSet_valid (v : W64) : (doCalSet v s).rb F.CALSEC_VALID = true := by
  rw [State.rb, doCalSet, rf_setRf_same _ _ _ _ (by decide)]
  rfl

theorem calLoad_epoch (n : Nat) : (s.calLoad n).reg (F.CAL_EPOCH_DTIME_DTIME.off []) = BitVec.ofNat 64 s.dtime := reg_setReg_same _ _ _

theorem doCalSet_epoch (v : W64) : (doCalSet v s).reg (F.CAL_EPOCH_DTIME_DTIME.off []) = BitVec.ofNat 64 s.dtime := by
  rw [doCalSet, reg_setRf_ne _ _ _ _ (by decide), calLoad_epoch]

theorem doCalsecAdvance_due {t : Nat} (hc : s.counts = true) (ht : s.clk.calAt + (if s.clk.xtal then 30518 else 1000000000) ≤ t) :
    doCalsecAdvance t s = (s.at t).calLoad (s.clk.calSec + 1) := by
  rw [doCalsecAdvance, hc, if_neg (by simpa using ht)]

/-- The state right after the crystal is lost. -/
def State.xtalLost (s : State) (t : Nat) : State :=
  (({ s.at t with clk := { s.clk with xtal := false, calSub := 0, subAt := (s.at t).dtime, calAt := (s.at t).dtime } } : State).setRf
    F.CLK_STAT_XTAL_LOST [] 1).onset 3 29 0 0

theorem xtalLost_clk (t : Nat) :
    (s.xtalLost t).clk = { s.clk with xtal := false, calSub := 0, subAt := (s.at t).dtime, calAt := (s.at t).dtime } := onset_clk _ _ _ _ _

theorem xtalLost_lost (t : Nat) : (s.xtalLost t).rb F.CLK_STAT_XTAL_LOST = true := by
  rw [State.xtalLost, rb_congr (onset_regs _ _ _ _ _), State.rb, rf_setRf_same _ _ _ _ (by decide)]
  rfl

theorem doXtalLoss_locked (hx : s.clk.xtal = true) (hp : s.clk.pll = true) (t : Nat) : doXtalLoss t s = s.xtalLost t := by
  have e : doXtalLoss t s = (s.xtalLost t).goDark := if_neg (by simp [hx])
  rw [e, goDark_locked (by rw [xtalLost_clk]; exact hp)]

theorem doXtalReturn_lit (hx : s.clk.xtal = false) (hd : s.clk.darkSince = none) (t : Nat) : doXtalReturn t s =
    ({ s.at t with clk := { s.clk with xtal := true, calSub := 0, subAt := (s.at t).dtime } } : State).condOff 3 29 0 := by
  simp [doXtalReturn, hx, endDark_lit hd]

/-! ### TRIG_IN (R362, R373) -/

/-- The events that an edge on TRIG_IN_j at time t, in 250 ps ticks, puts on its way to cluster n. -/
def State.edgeEvents (s : State) (j t n : Nat) : List (Nat × Nat × Nat) :=
  ((List.range 8).filter (fun u => (s.rf F.CL_TRG_SRC_SRC [n, u]).testBit (44 + j))).map
    (fun u => (8 * n + u, 44 + j, 500 * (t - s.rf (F.CL_TRIGIN_DSK_DSK.at j) [n])))

theorem mem_edgeEvents {j n u : Nat} (hu : u < 8) (h : (s.rf F.CL_TRG_SRC_SRC [n, u]).testBit (44 + j) = true) (t : Nat) :
    (8 * n + u, 44 + j, 500 * (t - s.rf (F.CL_TRIGIN_DSK_DSK.at j) [n])) ∈ s.edgeEvents j t n :=
  List.mem_map.2 ⟨u, List.mem_filter.2 ⟨List.mem_range.2 hu, h⟩, rfl⟩

theorem foldl_raise_edge (j t : Nat) (l : List Nat) (s : State) :
    l.foldl (fun s n => s.raise n (44 + j) (500 * (t - s.rf (F.CL_TRIGIN_DSK_DSK.at j) [n]))) s =
      { s with trigEv := s.trigEv ++ l.flatMap (s.edgeEvents j t) } := by
  induction l generalizing s with
  | nil => simp
  | cons n r ih =>
    rw [List.foldl_cons, ih, List.flatMap_cons, ← List.append_assoc]
    rfl

/-- The clusters that take an edge on TRIG_IN_j. -/
def State.edgeClusters (s : State) (j : Nat) (rising : Bool) : List Nat :=
  (List.range s.nCl).filter (fun n =>
    (s.rf F.CL_TRIGIN_CFG_EN [n]).testBit j && ((s.rf F.CL_TRIGIN_CFG_FALL [n]).testBit j = !rising) && s.islUp n)

theorem doTrigInEdge_awake {j : Nat} (hj : j < 4) (hl : s.power.lull = 0) (hp : s.clk.tref = true) (rising : Bool) (t : Nat) :
    doTrigInEdge j rising t s =
      { s.at (t / 4) with trigEv := s.trigEv ++ (s.edgeClusters j rising).flatMap (s.edgeEvents j t) } := by
  rw [doTrigInEdge, if_neg (Nat.not_le.2 hj)]
  dsimp only
  rw [if_neg (by simp [hl]), if_neg (by simp [hp]), foldl_raise_edge]
  rfl
end

/-- Settles O13, by what each of the commands does to the state. -/
theorem calendarAndPins : Obligations.CalendarAndPins := by
  refine ⟨fun s v hw => ?_, fun s t0 hc ht => ?_, fun s t0 hx hp => ?_, fun s t0 hx hd => ?_, fun s t0 hb hp ht => ?_,
    fun s j rising t0 hj hl hp => ?_, fun s code => ⟨_, rfl, rfl, rfl⟩⟩
  · exact ⟨_, congrArg Host.Outcome.next (busWrite_of_writable hw), Nat.mod_eq_of_lt (fget_lt v 0 48), rfl, doCalSet_valid v,
      doCalSet_epoch v, rfl, rfl⟩
  · exact ⟨_, congrArg Host.Outcome.next (doCalsecAdvance_due hc ht), rfl, rfl, calLoad_epoch _, rfl, rfl⟩
  · exact ⟨_, congrArg Host.Outcome.next (doXtalLoss_locked hx hp t0), congrArg Clk.xtal (xtalLost_clk t0),
      congrArg Clk.calAt (xtalLost_clk t0), xtalLost_lost t0, onset_live _ _ _ _ _,
      (congrArg Clk.darkSince (xtalLost_clk t0) :), onset_mem _ _ _ _ _⟩
  · exact ⟨_, congrArg Host.Outcome.next (doXtalReturn_lit hx hd t0), rfl, rfl, condOff_live _ _ _ _, rfl, rfl⟩
  · exact congrArg Host.Outcome.next (if_pos (by simp [hb, hp, ht]))
  · refine ⟨_, congrArg Host.Outcome.next (doTrigInEdge_awake hj hl hp rising t0), fun n u hn hu hup hen hfall hsrc => ?_,
      fun e he => List.mem_append_left _ he, rfl, rfl, rfl⟩
    have hcl : n ∈ s.edgeClusters j rising := by simp [State.edgeClusters, hn, hup, hen, hfall]
    exact List.mem_append_right _ (List.mem_flatMap.2 ⟨n, hcl, mem_edgeEvents hu hsrc t0⟩)

end Sys2Proof.Machine
end

