-- ==== Sys2Proof/Proofs/Sites.lean ====
section
namespace Sys2Proof.Machine

/-! SUPPORT. What becomes of sites and slices: failures of what serves them (R86-R89, R179, R687, R688), declarations, undeclarations and
masks (R68, R72, R73, R79, R80, R88, R90, R92), and the two statements about them. -/

/-! ### Records and events

A retirement, and the use of a spare, are told in events, lifetime records and the register file. -/

/-- A state that differs from another in the host interface, the register file, what went out and the queue of lifetime records alone. -/
def Records (s t : State) : Prop := ∃ h g o l, t = { s with host := h, regs := g, out := o, logQ := l }

theorem records_degrade (s : State) (kind island unit : Nat) : Records s (s.degrade kind island unit) := degrade_eq _ _ _ _
theorem records_spared (s : State) (kind island unit spare : Nat) : Records s (s.spared kind island unit spare) := log_eq _ _ _

theorem Records.mem {s t : State} (h : Records s t) : t.mem = s.mem := by obtain ⟨_, _, _, _, rfl⟩ := h; rfl
theorem Records.sites {s t : State} (h : Records s t) : t.sites = s.sites := by obtain ⟨_, _, _, _, rfl⟩ := h; rfl
theorem Records.bursts {s t : State} (h : Records s t) : t.bursts = s.bursts := by obtain ⟨_, _, _, _, rfl⟩ := h; rfl
theorem Records.slices {s t : State} (h : Records s t) : t.slices = s.slices := by obtain ⟨_, _, _, _, rfl⟩ := h; rfl
theorem Records.cl {s t : State} (h : Records s t) (n : Nat) : t.cl n = s.cl n := by obtain ⟨_, _, _, _, rfl⟩ := h; rfl
theorem Records.life {s t : State} (h : Records s t) : t.life = s.life := by obtain ⟨_, _, _, _, rfl⟩ := h; rfl
theorem Records.chainsBad {s t : State} (h : Records s t) : t.chainsBad = s.chainsBad := by obtain ⟨_, _, _, _, rfl⟩ := h; rfl

/-! ### A slice fails (R86, R179) -/

/-- The state in which the failure of a physical slice is reported, and nothing else is done about it. -/
def State.sliceFails (s : State) (n p : Nat) : State :=
  (s.reportEither 8 n p).upCl n (fun c => { c with physBad := c.physBad ++ [p] })

/-- The logical slice of cluster n that a physical slice backs. -/
def State.backedBy (s : State) (n p : Nat) : Option Nat :=
  ((List.range 4).map (fun i => 4 * n + i)).find? (fun g => (s.sl g).phys = some p)

/-- Logical slice g of cluster n moves from physical slice p to the spare q. -/
def State.takeSpare (s : State) (n p g q : Nat) : State :=
  let t := ((s.sliceBursts g false).upSl g (fun z => { z with phys := some q })).placementChanged.spared 1 n p q
  { t with life := { t.life with spareSlices := t.life.spareSlices.modify n (· + 1) } }

theorem sliceBursts_unused {s : State} {g : Nat} (h : (s.sl g).ent = none) (queued : Bool) : s.sliceBursts g queued = s := by
  rw [State.sliceBursts, h]

section
variable {s : State} {n p : Nat} (hn : n < s.nCl) (hp : p < 5) (hb : (s.cl n).physBad.contains p = false)

theorem sliceFails_physBad (h : n < s.clusters.length) : ((s.sliceFails n p).cl n).physBad = (s.cl n).physBad ++ [p] :=
  congrArg Cluster.physBad (upCl_cl_same (s.reportEither 8 n p) n _ h)

/-- DETAIL is 1 or 2, as the slice's own check decides. -/
theorem sliceFails_report : ∃ r, (s.sliceFails n p).collector.reports = s.collector.reports ++ [r] ∧ r.src = 8 ∧ r.island = n ∧ r.unit = p ∧
    (r.detail = 1 ∨ r.detail = 2) :=
  ⟨{ src := 8, island := n, unit := p, detail := 1 + Config.freeValue s.freeCtr % 2, t := s.dtime }, rfl, rfl, rfl, rfl, by
    dsimp only; omega⟩

theorem sliceFails_frame : { s.sliceFails n p with clusters := s.clusters, collector := s.collector, freeCtr := s.freeCtr } = s := by
  unfold State.sliceFails State.reportEither
  rfl

include hn hp hb

theorem slice_may_fail : ¬ (s.nCl ≤ n || 5 ≤ p || (s.cl n).physBad.contains p) = true := by
  rw [hb]
  simp [hn, hp]

/-- Where the physical slice backs one, that one takes the cluster's spare, or is retired without one. -/
theorem doSliceFailure_eq : doSliceFailure n p s = (s.backedBy n p).elim (s.sliceFails n p) fun g =>
    ((s.sliceFails n p).spareSlice n).elim (((s.sliceFails n p).sliceBursts g true).retireSlice g) ((s.sliceFails n p).takeSpare n p g) := by
  unfold doSliceFailure
  rw [if_neg (slice_may_fail hn hp hb)]
  dsimp only
  split
  next h =>
    rw [show s.backedBy n p = none from h]
    rfl
  next g h =>
    rw [show s.backedBy n p = some g from h, Option.elim_some]
    split
    next q hq =>
      rw [show (s.sliceFails n p).spareSlice n = some q from hq]
      rfl
    next hq =>
      rw [show (s.sliceFails n p).spareSlice n = none from hq]
      rfl

end

section
variable {s : State} {n p g q : Nat}

theorem takeSpare_slices :
    (s.takeSpare n p g q).slices = ((s.sliceBursts g false).upSl g (fun z => { z with phys := some q })).slices :=
  (records_spared _ 1 n p q).slices

theorem takeSpare_bursts : (s.takeSpare n p g q).bursts = (s.sliceBursts g false).bursts := (records_spared _ 1 n p q).bursts

variable (h : (s.sl g).ent = none)
include h

theorem takeSpare_unused_sl (k : Nat) : (s.takeSpare n p g q).sl k = (s.upSl g (fun z => { z with phys := some q })).sl k := by
  rw [State.sl, takeSpare_slices, sliceBursts_unused h]
  rfl

theorem takeSpare_unused_spareSlices : (s.takeSpare n p g q).life.spareSlices = s.life.spareSlices.modify n (· + 1) := by
  rw [← congrArg State.life (sliceBursts_unused h false)]
  exact congrArg (fun l => l.spareSlices.modify n (· + 1)) (records_spared _ 1 n p q).life

theorem takeSpare_unused_bursts : (s.takeSpare n p g q).bursts = s.bursts :=
  takeSpare_bursts.trans (congrArg State.bursts (sliceBursts_unused h false))

theorem takeSpare_unused_sites : (s.takeSpare n p g q).sites = s.sites :=
  (records_spared _ 1 n p q).sites.trans (congrArg State.sites (sliceBursts_unused h false) :)

theorem takeSpare_unused_mem : (s.takeSpare n p g q).mem = s.mem :=
  (records_spared _ 1 n p q).mem.trans (congrArg State.mem (sliceBursts_unused h false) :)

end

/-- A slice looked for in cluster n is one of its four (R14). -/
theorem find_slice_bounds {n g : Nat} {p : Nat → Bool} (h : ((List.range 4).map (fun i => 4 * n + i)).find? p = some g) :
    4 * n ≤ g ∧ g < 4 * n + 4 := by
  obtain ⟨i, hi, rfl⟩ := List.mem_map.mp (List.mem_of_find?_eq_some h)
  have := List.mem_range.mp hi
  omega

theorem backedBy_none {s : State} {n p : Nat} (h : ∀ i < 4, (s.sl (4 * n + i)).phys ≠ some p) : s.backedBy n p = none := by
  refine List.find?_eq_none.mpr fun g hg => ?_
  obtain ⟨i, hi, rfl⟩ := List.mem_map.mp hg
  simpa using h i (List.mem_range.mp hi)

/-! ### A channel or a filter chain fails (R88, R89) -/

/-- Where no site needs what is retired, no site is blocked. -/
theorem blockNeeding_none {s : State} {p : Site → Bool} (h : ∀ x ∈ s.sites, p x.2 = false) : s.blockNeeding p = s := by
  have hnil : (s.sites.map (·.2)).filter (fun x => p x && !x.blocked) = [] := by
    refine List.filter_eq_nil_iff.mpr fun y hy => ?_
    obtain ⟨x, hx, rfl⟩ := List.mem_map.mp hy
    simp [h x hx]
  unfold State.blockNeeding
  rw [hnil]
  rfl

theorem retireChan_degraded (s : State) (n c : Nat) : (s.retireChan n c).rb F.CAPS_LIVE_DEGRADED = true := degrade_degraded _ _ _ _

/-- Channel c of a cluster is marked as retired. -/
def Cluster.retire (k : Cluster) (c : Nat) : Cluster := { k with chans := k.chans.modify c (fun x => { x with retired := true }) }

/-- A channel that no site needs is retired, and nothing else of the units changes. -/
theorem retireChan_unneeded {s : State} {n c : Nat} (h : ∀ x ∈ s.sites, (x.2.local n).testBit c = false) :
    Records (s.upCl n (fun k => k.retire c)) (s.retireChan n c) := by
  have hnone := blockNeeding_none (s := s.upCl n (fun k => k.retire c)) (p := fun x => (x.local n).testBit c) h
  rw [← hnone]
  exact records_degrade _ 3 n c

/-- Chain k is retired, and CAPS_LIVE counts one chain less. -/
def State.loseChain (s : State) (k : Nat) : State :=
  ({ s with chainsBad := s.chainsBad ++ [k] } : State).setRf F.CAPS_LIVE_LIVE_FCHAINS [] (s.rf F.CAPS_LIVE_LIVE_FCHAINS - 1)

theorem retireChain_degraded (s : State) (k : Nat) : (s.retireChain k).rb F.CAPS_LIVE_DEGRADED = true := degrade_degraded _ _ _ _

/-- A chain that no site needs is retired, and no site or burst changes. -/
theorem retireChain_unneeded {s : State} {k : Nat} (h : ∀ x ∈ s.sites, x.2.chain.testBit k = false) :
    s.retireChain k = (s.loseChain k).degrade 4 26 k := by
  have hnone := blockNeeding_none (s := s.loseChain k) (p := fun x => x.chain.testBit k) h
  exact congrArg (State.degrade · 4 26 k) hnone

theorem loseChain_live (s : State) (k : Nat) :
    ((s.loseChain k).degrade 4 26 k).rf F.CAPS_LIVE_LIVE_FCHAINS = s.rf F.CAPS_LIVE_LIVE_FCHAINS - 1 := by
  rw [degrade_rf_caps _ _ _ _ F.CAPS_LIVE_LIVE_FCHAINS rfl (by decide), State.loseChain, rf_setRf_same _ _ _ _ (by decide)]
  exact Nat.mod_eq_of_lt (Nat.lt_of_le_of_lt (Nat.sub_le _ _) (rf_lt _ _ _))

/-- Settles O17, by what each of the failures does to the state. -/
theorem slicesAndChannelsFail : Obligations.SlicesAndChannelsFail := by
  refine ⟨fun s n p hn hp hb hsh => ?_, fun s n hn => ?_, fun s n c hn hc hr hsh hlen => ?_, fun s k hk hb => ?_⟩
  · obtain ⟨-, hslices, hclusters, -⟩ := hsh
    have hn12 : n < 12 := Nat.lt_of_lt_of_le hn (nCl_le s)
    have hact := doSliceFailure_eq hn hp hb
    refine ⟨s.sliceFails n p, rfl, sliceFails_physBad (by omega), sliceFails_report, sliceFails_frame, fun h => ?_, fun g q hg hq => ?_,
      fun g hg hq => ?_⟩
    · rw [backedBy_none h] at hact
      exact congrArg Host.Outcome.next hact
    · rw [show s.backedBy n p = some g from hg, Option.elim_some, hq] at hact
      have hg48 : g < s.slices.length := by have := find_slice_bounds hg; omega
      refine ⟨_, congrArg Host.Outcome.next hact, fun hent => ?_, takeSpare_slices, takeSpare_bursts⟩
      have hent' : ((s.sliceFails n p).sl g).ent = none := hent
      exact ⟨(takeSpare_unused_sl hent' g).trans (upSl_sl_same _ _ _ hg48), fun k hk => (takeSpare_unused_sl hent' k).trans (upSl_sl_ne _ _ hk),
        takeSpare_unused_spareSlices hent', takeSpare_unused_bursts hent', takeSpare_unused_sites hent', takeSpare_unused_mem hent'⟩
    · rw [show s.backedBy n p = some g from hg, Option.elim_some, hq] at hact
      exact congrArg Host.Outcome.next hact
  · exact congrArg Host.Outcome.next (if_neg (Nat.not_le.mpr hn))
  · have hmay : ¬ (s.nCl ≤ n || 16 ≤ c || ((s.cl n).chans.getD c {}).retired) = true := by rw [hr]; simp [hn, hc]
    refine ⟨_, congrArg Host.Outcome.next (if_neg hmay), rfl, retireChan_degraded _ _ _, fun hneed => ?_⟩
    have hrec := retireChan_unneeded (s := s.reportEither 9 n c) hneed
    have hn12 : n < s.clusters.length := by have := nCl_le s; omega
    have hcl := (hrec.cl n).trans (upCl_cl_same _ _ _ hn12)
    refine ⟨?_, fun k hk => ?_, fun m hm => (hrec.cl m).trans (upCl_cl_ne _ _ hm), hrec.sites, hrec.bursts, hrec.mem⟩
    · rw [hcl]
      exact congrArg Chan.retired (getD_modify_same _ _ _ _ (hlen.symm ▸ hc))
    · rw [hcl]
      exact getD_modify_ne _ _ _ hk
  · have hmay : ¬ (s.nChain ≤ k || s.chainsBad.contains k) = true := by rw [hb]; simp [hk]
    refine ⟨_, congrArg Host.Outcome.next (if_neg hmay), rfl, retireChain_degraded _ _, fun hacq hneed => ?_⟩
    have hnone : ∀ a ∈ (s.report 25 26 (k / 12) 1).acqs, a.stopAt = none → a.chains &&& 2 ^ k = 0 := by simp [hacq]
    rw [stopAcqs_none _ hnone, retireChain_unneeded (s := s.report 25 26 (k / 12) 1) hneed]
    have hrec := records_degrade ((s.report 25 26 (k / 12) 1).loseChain k) 4 26 k
    exact ⟨hrec.chainsBad, loseChain_live _ _, hrec.sites, hrec.bursts, hrec.mem⟩

/-! ### Declarations (R68, R72, R73, R80) -/

/-- Mirroring an item touches the links, what is sent on them and the pair alone. -/
theorem mirror_eq (s : State) (i : MItem) : ∃ l o p, s.mirror i = { s with links := l, out := o, pair := p } := by
  unfold State.mirror
  split
  · obtain ⟨l, o, p, h, -⟩ := tether_eq s i
    exact ⟨l, o, p, h⟩
  · exact ⟨_, _, _, rfl⟩

theorem foldl_linked {β : Type} {f : State → β → State} (h : ∀ a x, ∃ l o, f a x = { a with links := l, out := o }) (l : List β)
    (s : State) : ∃ k o, l.foldl f s = { s with links := k, out := o } := by
  induction l generalizing s with
  | nil => exact ⟨_, _, rfl⟩
  | cons x r ih =>
    obtain ⟨k, o, hx⟩ := h s x
    obtain ⟨k', o', hr⟩ := ih (f s x)
    exact ⟨k', o', by rw [List.foldl_cons, hr, hx]⟩

/-- Links are kept awake by using them, which touches the links and what is sent on them alone. -/
theorem keepAwake_eq (s : State) : ∃ l o, s.keepAwake = { s with links := l, out := o } := by
  unfold State.keepAwake
  split
  · refine foldl_linked (fun a n => ?_) _ _
    split
    · exact linkUsed_eq a n
    · exact ⟨_, _, rfl⟩
  · exact ⟨_, _, rfl⟩

/-- A declaration is told to the partner (R609), and links that it needs leave electrical idle (R573). -/
def State.declTold (s : State) (e : Ent) : State := (s.mirrorMap e).placementChanged.keepAwake

theorem declTold_eq (s : State) (e : Ent) : ∃ l o p, s.declTold e = { s with gen := s.gen + 1, links := l, out := o, pair := p } := by
  obtain ⟨l, o, p, h⟩ := mirror_eq s { kind := 6, key := entKey e ++ [b2n (s.blocked e)] ++ s.entSlices e }
  obtain ⟨l', o', h'⟩ := keepAwake_eq (s.mirrorMap e).placementChanged
  refine ⟨l', o', p, h'.trans ?_⟩
  rw [show s.mirrorMap e = _ from h]
  rfl

section
variable (s : State) (e : Ent) (sq idx st : Nat)

/-- Telling a declaration and completing it leaves sites, slices and device memory. -/
theorem declTold_finish_sites : ((s.declTold e).finish sq idx st).sites = s.sites := by
  obtain ⟨_, _, _, h⟩ := declTold_eq s e
  rw [(sends_finish _ _ _ _).sites, h]

theorem declTold_finish_slices : ((s.declTold e).finish sq idx st).slices = s.slices := by
  obtain ⟨_, _, _, h⟩ := declTold_eq s e
  rw [(sends_finish _ _ _ _).slices, h]

theorem declTold_finish_mem : ((s.declTold e).finish sq idx st).mem = s.mem := by
  obtain ⟨_, _, _, h⟩ := declTold_eq s e
  rw [(sends_finish _ _ _ _).mem, h]

theorem declTold_finish_site (i : Nat) : ((s.declTold e).finish sq idx st).site i = s.site i :=
  congrArg (kGet · i) (declTold_finish_sites s e sq idx st)

theorem declTold_finish_sl (g : Nat) : ((s.declTold e).finish sq idx st).sl g = s.sl g := by
  rw [State.sl, declTold_finish_slices, State.sl]
end

theorem declared_site {s : State} {i : Nat} {x : Site} (h : s.site i = some x) : s.declared (.site i) = true := by
  simp [State.declared, h]

/-- R71 lets a site be declared once. -/
theorem declOk_undeclared {s : State} {b : List Byte} (h : s.declOk b = true) : s.declared (.site (declBody b).id) = false := by
  cases hs : (s.site (declBody b).id).isNone with
  | false => simp [State.declOk, hs] at h
  | true => simpa [State.declared] using hs

theorem doDeclareSite_turn {s : State} {sq idx : Nat} {d : Desc} (hd : Safety.ready s sq idx 0x01 d) (hf : s.declFirst d = true)
    (hh : s.declHeld d = false) : doDeclareSite sq idx s = s.declTurn d := by
  rw [doDeclareSite, withDesc_of_ready hd]
  simp [hf, hh]

section
variable {s : State} {d : Desc}

/-- A refused declaration declares nothing. -/
theorem declTurn_refused (h : s.declRefusal d ≠ 0) : s.declTurn d = (s.unwait d.sq d.idx).finish d.sq d.idx (s.declRefusal d) := if_pos h

theorem declRefusal_absent (h : s.declAbsent (declBody d.bytes) = true) : s.declRefusal d = St.absent := if_pos h

theorem declRefusal_bad (ha : s.declAbsent (declBody d.bytes) = false) (h : s.declOk d.bytes = false) : s.declRefusal d = St.bad := by
  simp [State.declRefusal, ha, h, St.bad]

variable (ha : s.declAbsent (declBody d.bytes) = false) (hok : s.declOk d.bytes = true)
include ha hok

theorem declRefusal_none : s.declRefusal d = 0 := by simp [State.declRefusal, ha, hok]

/-- One of a group with a burst waits. -/
theorem declTurn_waits (hg : (declBody d.bytes).group.isSome = true) (hb : s.busy (declBody d.bytes).ent = true)
    (hw : s.waitOf d.sq d.idx = none) :
    s.declTurn d = s.wait { sq := d.sq, idx := d.idx, kind := .declare, ent := some (declBody d.bytes).ent } := by
  simp [State.declTurn, declRefusal_none ha hok, hg, hb, hw]

theorem declTurn_declares (hg : (declBody d.bytes).group = none) {s1 : State} {st : Nat}
    (h : (s.unwait d.sq d.idx).declare (declBody d.bytes) = (s1, st)) : s.declTurn d =
      (if s1.declared (.site (declBody d.bytes).id) then s1.declTold (declBody d.bytes).ent else s1).finish d.sq d.idx st := by
  simp [State.declTurn, declRefusal_none ha hok, hg, h, State.declTold]
end

/-! A site of one cluster and no group -/

/-- Site x declared on slice g of cluster n. -/
def State.siteOn (s : State) (x : Site) (n g : Nat) : State :=
  (({ s with sites := kSet s.sites x.id { x with slices := [g] } } : State).giveSlice g (.site x.id) (grpMask (x.local n))).setSiteMask g 0

/-- Site x declared as blocked. -/
def State.siteBlocked (s : State) (x : Site) : State := { s with sites := kSet s.sites x.id { x with blocked := true } }

section
variable (s : State) (x : Site)

theorem siteOn_site (n g : Nat) : (s.siteOn x n g).site x.id = some { x with slices := [g] } := kGet_kSet_same _ _ _
theorem siteOn_site_ne (n g : Nat) {i : Nat} (h : i ≠ x.id) : (s.siteOn x n g).site i = s.site i := kGet_kSet_ne _ _ h
theorem siteOn_sl (n : Nat) {g : Nat} (h : g < s.slices.length) :
    (s.siteOn x n g).sl g = { s.sl g with ent := some (.site x.id), grp := (s.sl g).grp ||| grpMask (x.local n) } := upSl_sl_same _ _ _ h
theorem siteOn_sl_ne (n : Nat) {g k : Nat} (h : k ≠ g) : (s.siteOn x n g).sl k = s.sl k := upSl_sl_ne _ _ h

theorem siteBlocked_site : (s.siteBlocked x).site x.id = some { x with blocked := true } := kGet_kSet_same _ _ _
theorem siteBlocked_site_ne {i : Nat} (h : i ≠ x.id) : (s.siteBlocked x).site i = s.site i := kGet_kSet_ne _ _ h

end

theorem clusters_lt {x : Site} {n : Nat} (h : n ∈ x.clusters) : n < 12 := List.mem_range.mp (List.mem_filter.mp h).1

section
variable {s : State} {x : Site} {n : Nat} (hg : x.group = none) (hc : x.clusters = [n])
include hg hc

theorem declare_free {g : Nat} (h : s.freeSlice n = some g) : s.declare x = (s.siteOn x n g, St.ok) := by
  simp [State.declare, State.mapCluster, State.siteOn, hg, hc, h, St.ok]

theorem declare_never (h : s.freeSlice n = none) (hr : ∀ i < 4, (s.sl (4 * n + i)).retired = false) : s.declare x = (s, St.bad) := by
  have hr' : (List.range 4).any (fun i => (s.sl (4 * n + i)).retired) = false := by simpa [List.any_eq_false] using hr
  simp [State.declare, State.mapCluster, hg, hc, h, hr', St.bad]

theorem declare_blocked (h : s.freeSlice n = none) (hr : ∃ i < 4, (s.sl (4 * n + i)).retired = true) :
    s.declare x = (s.siteBlocked x, St.blocked) := by
  have hr' : (List.range 4).any (fun i => (s.sl (4 * n + i)).retired) = true := by simpa [List.any_eq_true] using hr
  simp [State.declare, State.mapCluster, State.siteBlocked, hg, hc, h, hr', St.blocked]
end

/-! Its declaration on its turn -/

section
variable {s : State} {d : Desc} {n : Nat} (ha : s.declAbsent (declBody d.bytes) = false) (hok : s.declOk d.bytes = true)
  (hg : (declBody d.bytes).group = none) (hc : (declBody d.bytes).clusters = [n])
include ha hok hg hc

theorem declTurn_free {g : Nat} (h : s.freeSlice n = some g) : s.declTurn d =
    (((s.unwait d.sq d.idx).siteOn (declBody d.bytes) n g).declTold (declBody d.bytes).ent).finish d.sq d.idx St.ok := by
  rw [declTurn_declares ha hok hg (declare_free hg hc (s := s.unwait d.sq d.idx) h), if_pos (declared_site (siteOn_site _ _ _ _))]

theorem declTurn_never (h : s.freeSlice n = none) (hr : ∀ i < 4, (s.sl (4 * n + i)).retired = false) :
    s.declTurn d = (s.unwait d.sq d.idx).finish d.sq d.idx St.bad := by
  have hun : ¬ (s.unwait d.sq d.idx).declared (.site (declBody d.bytes).id) = true := Bool.eq_false_iff.mp (declOk_undeclared hok)
  rw [declTurn_declares ha hok hg (declare_never hg hc (s := s.unwait d.sq d.idx) h hr), if_neg hun]

theorem declTurn_blocked (h : s.freeSlice n = none) (hr : ∃ i < 4, (s.sl (4 * n + i)).retired = true) : s.declTurn d =
    (((s.unwait d.sq d.idx).siteBlocked (declBody d.bytes)).declTold (declBody d.bytes).ent).finish d.sq d.idx St.blocked := by
  rw [declTurn_declares ha hok hg (declare_blocked hg hc (s := s.unwait d.sq d.idx) h hr), if_pos (declared_site (siteBlocked_site _ _))]
end

/-! ### Undeclarations (R90) -/

theorem doUndeclareSite_turn {s : State} {sq idx : Nat} {d : Desc} (hd : Safety.ready s sq idx 0x02 d) (hf : s.declFirst d = true)
    (hh : s.declHeld d = false) : doUndeclareSite sq idx s = s.undeclTurn d := by
  rw [doUndeclareSite, withDesc_of_ready hd]
  simp [hf, hh]

section
variable {s : State} {d : Desc}

theorem undeclTurn_none (h : s.site (fld d.bytes 16 2) = none) : s.undeclTurn d = (s.unwait d.sq d.idx).finish d.sq d.idx St.bad := by
  simp [State.undeclTurn, h]

/-- A site or group that is not busy has no burst. -/
theorem burst_of_not_busy {e : Ent} (h : s.busy e = false) : s.burst e = none := by
  simpa [State.busy, State.burst] using h

theorem busy_of_burst {e : Ent} {b : Burst} (h : s.burst e = some b) : s.busy e = true := by
  by_contra hb
  simp [burst_of_not_busy (Bool.eq_false_iff.mpr hb)] at h

variable {x : Site} (h : s.site (fld d.bytes 16 2) = some x) (hz : zeroes d.bytes 18 46 = true)
include h hz

theorem undeclTurn_idle (hb : s.busy x.ent = false) (hi : (s.endSiteWork x).siteIdle x = true) :
    s.undeclTurn d = (((s.endSiteWork x).unwait d.sq d.idx).freeSite x).finish d.sq d.idx St.ok := by
  simp [State.undeclTurn, h, hz, hb, hi, burst_of_not_busy hb]

theorem undeclTurn_running (ha : (s.burst x.ent).any (fun b => b.admitted) = true) (hw : s.waitOf d.sq d.idx = none) :
    s.undeclTurn d = s.wait { sq := d.sq, idx := d.idx, kind := .undeclare, ent := some x.ent } := by
  obtain ⟨b, hb⟩ : ∃ b, s.burst x.ent = some b := Option.ne_none_iff_exists'.mp fun hn => by simp [hn] at ha
  have hadm : b.admitted = true := by simpa [hb] using ha
  simp [State.undeclTurn, h, hz, hb, hadm, hw, busy_of_burst hb]
end

/-! Freeing a site -/

@[simp] theorem mirror_sites (s : State) (i : MItem) : (s.mirror i).sites = s.sites := by
  obtain ⟨_, _, _, h⟩ := mirror_eq s i; rw [h]

@[simp] theorem remask_sites (s : State) (g : Nat) : (s.remask g).sites = s.sites :=
  foldl_keep State.sites _ (by intros; rfl) _ _

theorem freeSite_site (s : State) (x : Site) : (s.freeSite x).site x.id = none := by
  unfold State.freeSite
  extract_lets e last s1 s2 freed other s3 s4 s5
  have h5 : s5.sites = s4.sites := by
    unfold s5
    split
    · split
      · rfl
      · exact remask_sites _ _
    · rfl
  rw [State.site, mirror_sites]
  exact (congrArg (kGet · x.id) h5).trans (kGet_kDel_same _ _)

/-! ### A waiting declaration or undeclaration has its turn (R73, R80, R90) -/

section
variable {s : State} {sq idx : Nat} {d : Desc} {w : Waiting} (hw : s.waitOf sq idx = some w) (hd : s.desc sq idx = some d)
  (hh : s.declHeld d = false)
include hw hd hh

theorem doDeferredDeclaration_declares (hk : w.kind = .declare) : doDeferredDeclaration sq idx s = s.declTurn d := by
  simp [doDeferredDeclaration, declWaited, hw, hd, hh, hk, Waiting.isDecl]

theorem doDeferredDeclaration_undeclares {g : Nat} (hk : w.kind = .undeclare) (he : w.ent = some (.group g)) :
    doDeferredDeclaration sq idx s = s.undeclTurn d := by
  simp [doDeferredDeclaration, declWaited, hw, hd, hh, hk, he, Waiting.isDecl]

theorem doDeferredUndeclaration_undeclares {i : Nat} (hk : w.kind = .undeclare) (he : w.ent = some (.site i)) :
    doDeferredUndeclaration sq idx s = s.undeclTurn d := by
  simp [doDeferredUndeclaration, declWaited, hw, hd, hh, hk, he, Waiting.isDecl]
end

/-! ### Masks (R79, R92) -/

theorem foldl_masked {β : Type} {f : State → β → State} (h : ∀ a x, ∃ r k, f a x = { a with regs := r, results := k }) (l : List β)
    (s : State) : ∃ r k, l.foldl f s = { s with regs := r, results := k } := by
  induction l generalizing s with
  | nil => exact ⟨_, _, rfl⟩
  | cons x l ih =>
    obtain ⟨r, k, hx⟩ := h s x
    obtain ⟨r', k', hl⟩ := ih (f s x)
    exact ⟨r', k', by rw [List.foldl_cons, hl, hx]⟩

/-- A write of a slice's mask touches the register file and the members' results alone. -/
theorem writeMask_eq (s : State) (g v : Nat) : ∃ r k, s.writeMask g v = { s with regs := r, results := k } := by
  unfold State.writeMask
  extract_lets old new s1
  have hset : ∃ r k, s1 = { s with regs := r, results := k } := ⟨_, _, rfl⟩
  split
  · split
    · refine foldl_masked (fun a m => ?_) _ s1
      split <;> exact ⟨_, _, rfl⟩
    · exact hset
  · exact hset

/-- Settles O30, by what each of the commands does on its turn. -/
theorem sitesDeclared : Obligations.SitesDeclared := by
  refine ⟨fun s sq idx d hd hf hh => ?_, fun s sq idx d hd hf hh => ?_, fun s sq idx d w hw hd hh => ⟨fun hk => ?_, fun g hk he => ?_,
    fun i hk he => ⟨?_, undeclTurn_none⟩⟩, fun s n v hw hn => ?_⟩
  · obtain ⟨rfl, rfl⟩ := ready_place hd
    refine ⟨s.declTurn d, declBody d.bytes, congrArg Host.Outcome.next (doDeclareSite_turn hd hf hh), rfl, fun ha => ?_, fun ha hok => ?_,
      fun ha hok hg n hc hsh => ⟨fun g hfree => ?_, fun hfree hr => ?_, fun hfree hr => ?_⟩, fun ha hok hg hb hw => declTurn_waits ha hok hg hb hw⟩
    · have hr := declRefusal_absent ha
      rw [declTurn_refused (by rw [hr]; decide), hr]
      exact ⟨rfl, (sends_finish _ _ _ _).sites, (sends_finish _ _ _ _).slices⟩
    · have hr := declRefusal_bad ha hok
      rw [declTurn_refused (by rw [hr]; decide), hr]
      exact ⟨rfl, (sends_finish _ _ _ _).sites, (sends_finish _ _ _ _).slices⟩
    · obtain ⟨-, hslices, -⟩ := hsh
      have hn : n < 12 := clusters_lt (hc ▸ List.mem_singleton_self n)
      have hg48 : g < s.slices.length := by have := find_slice_bounds hfree; omega
      rw [declTurn_free ha hok hg hc hfree]
      exact ⟨_, rfl, (declTold_finish_site _ _ _ _ _ _).trans (siteOn_site _ _ _ _),
        fun i hi => (declTold_finish_site _ _ _ _ _ _).trans (siteOn_site_ne _ _ _ _ hi),
        (declTold_finish_sl _ _ _ _ _ _).trans (siteOn_sl _ _ _ hg48),
        fun k hk => (declTold_finish_sl _ _ _ _ _ _).trans (siteOn_sl_ne _ _ _ hk), finish_desc _ _ _ _, declTold_finish_mem _ _ _ _ _⟩
    · rw [declTurn_never ha hok hg hc hfree hr]
      exact ⟨rfl, (sends_finish _ _ _ _).sites⟩
    · rw [declTurn_blocked ha hok hg hc hfree hr]
      exact ⟨_, rfl, (declTold_finish_site _ _ _ _ _ _).trans (siteBlocked_site _ _),
        fun i hi => (declTold_finish_site _ _ _ _ _ _).trans (siteBlocked_site_ne _ _ hi), declTold_finish_slices _ _ _ _ _,
        declTold_finish_mem _ _ _ _ _⟩
  · obtain ⟨rfl, rfl⟩ := ready_place hd
    refine ⟨s.undeclTurn d, congrArg Host.Outcome.next (doUndeclareSite_turn hd hf hh), fun hx => ?_, fun x hx hz => ⟨fun hb hi => ?_,
      fun ha hw => undeclTurn_running hx hz ha hw⟩⟩
    · rw [undeclTurn_none hx]
      exact ⟨rfl, (sends_finish _ _ _ _).sites⟩
    · rw [undeclTurn_idle hx hz hb hi]
      exact ⟨rfl, (congrArg (kGet · x.id) (sends_finish _ _ _ _).sites).trans (freeSite_site _ _)⟩
  · exact congrArg Host.Outcome.next (doDeferredDeclaration_declares hw hd hh hk)
  · exact congrArg Host.Outcome.next (doDeferredDeclaration_undeclares hw hd hh hk he)
  · exact congrArg Host.Outcome.next (doDeferredUndeclaration_undeclares hw hd hh hk he)
  · refine ⟨_, congrArg Host.Outcome.next ((busWrite_of_writable hw).trans (if_neg (Nat.not_le.mpr hn))), rfl, ?_⟩
    obtain ⟨r, k, h⟩ := foldl_masked (fun a i => writeMask_eq a (4 * n + i) (fget v (16 * i) 16)) (List.range 4)
      ({ s with held := none } : State).hostAccess
    rw [h]
    exact ⟨rfl, rfl, rfl⟩

end Sys2Proof.Machine
end

