-- ==== Sys2Proof/Proofs/RingTraffic.lean ====
section
namespace Sys2Proof.Machine

/-! SUPPORT. What comes over the links of a ring, and when time goes out on them (R363, R438, R579-R588), and the statement about it. -/

/-! ### Alignment (R588) -/

section
variable {s : State} {sq idx : Nat} {d : Desc} (hd : Safety.ready s sq idx 0x61 d)
include hd

theorem doRingAlign_bad (h : s.pos ≠ 0 ∨ s.ringLen ≤ 1 ∨ zeroes d.bytes 16 48 = false) :
    doRingAlign sq idx s = s.finish sq idx St.bad := by
  rw [doRingAlign, withDesc_of_ready hd]
  exact if_pos (by simpa [or_assoc] using h)

/-- At position 0 of a ring: it starts, unless the ring is down. -/
theorem doRingAlign_formed (hp : s.pos = 0) (hn : 1 < s.ringLen) (hz : zeroes d.bytes 16 48 = true) : doRingAlign sq idx s =
    if s.ringUp then ({ s.begin sq idx with ringT := { s.ringT with descs := s.ringT.descs ++ [(sq, idx)] } } : State).alignStart
    else s.finish sq idx St.linkDown := by
  have hform : ¬ (s.pos ≠ 0 || s.ringLen ≤ 1 || !zeroes d.bytes 16 48) = true := by simp [hp, hn, hz]
  rw [doRingAlign, withDesc_of_ready hd]
  dsimp only
  rw [if_neg hform]
  cases s.ringUp <;> rfl
end

/-! ### Packets (R438, R579, R588) -/

/-- A chip's own message that comes back has gone round the ring. -/
theorem doMsgPacket_returned {s : State} {n : Nat} {p : PlPacket} {t : Nat} (hp : isPkt p = true) (hc : p.fields.getD 1 0 = 2)
    (hown : p.fields.getD 2 0 = s.pos) (hd : p.fields.getD 0 0 ≠ s.pos) : doMsgPacket n p t s = ((s.at t).accept n p).1 :=
  if_pos (by rw [hp, hc]; simp only [hown, hd, ne_eq, not_false_eq_true, decide_true, Bool.and_true])

section
variable {s u : State} {n : Nat} {p : PlPacket} {t : Nat} (hp : isPkt p = true) (hn : n < 2) (hok : ((s.at t).accept n p).2 = true)
  (hu : u = ((s.at t).accept n p).1)
include hp hn hok hu

/-- A packet accepted on a ring link acts where it is for this chip, and else goes on. -/
theorem packetIn_accepted {cls : Nat} (hc : p.fields.getD 1 0 = cls) (f : State → State) :
    packetIn cls n p t f s = if p.fields.getD 0 0 = u.pos then f u else u.send 0 { p with seq := 0 } := by
  have hclass : ¬ (!isPkt p || p.fields.getD 1 0 ≠ cls) = true := by rw [hp, hc]; simp
  have hring : ¬ (!((s.at t).accept n p).2 || 2 ≤ n) = true := by simp [hok, hn]
  unfold packetIn
  rw [if_neg hclass, hu]
  exact if_neg hring

theorem doMsgPacket_accepted (hc : p.fields.getD 1 0 = 2) (h : p.fields.getD 2 0 ≠ s.pos ∨ p.fields.getD 0 0 = s.pos) :
    doMsgPacket n p t s =
      if p.fields.getD 0 0 = u.pos then (u.setFlags (p.fields.getD 4 0) (p.fields.getD 5 0)).send 0
        { typ := 0x33, seq := 0,
          fields := [p.fields.getD 2 0, 3, p.fields.getD 3 0, if (u.task (p.fields.getD 4 0)).isSome then St.ok else St.noObject] }
      else u.send 0 { p with seq := 0 } := by
  have hback : ¬ (p.fields.getD 2 0 = s.pos && p.fields.getD 0 0 ≠ s.pos && isPkt p && p.fields.getD 1 0 = 2) = true := by
    simp only [Bool.and_eq_true, decide_eq_true_eq]
    tauto
  unfold doMsgPacket
  rw [if_neg hback, packetIn_accepted hp hn hok hu hc]

theorem doRingPacket_accepted (hc : p.fields.getD 1 0 = 4) (hk : p.fields.getD 2 0 = 1 ∨ p.fields.getD 2 0 = 2) : doRingPacket n p t s =
    if p.fields.getD 0 0 = u.pos then u.alignPass (p.fields.getD 2 0) (toSigned 64 (p.fields.getD 3 0)) (toSigned 64 (p.fields.getD 4 0))
    else u.send 0 { p with seq := 0 } := by
  have hkind : ¬ (!(p.fields.getD 2 0 = 1 || p.fields.getD 2 0 = 2)) = true := by rcases hk with h | h <;> rw [h] <;> decide
  unfold doRingPacket
  rw [if_neg hkind, packetIn_accepted hp hn hok hu hc]

theorem doMsgAck_elsewhere (hc : p.fields.getD 1 0 = 3) (hd : p.fields.getD 0 0 ≠ u.pos) :
    doMsgAck n p t s = u.send 0 { p with seq := 0 } := by
  unfold doMsgAck
  rw [packetIn_accepted hp hn hok hu hc, if_neg hd]

/-- An acknowledgement for a task that waits for one wakes it, where it has a status that R438 knows. -/
theorem doMsgAck_awaited {x : Task} (hc : p.fields.getD 1 0 = 3) (hd : p.fields.getD 0 0 = u.pos) (hx : u.task (p.fields.getD 2 0) = some x)
    (hs : x.state = 4) (hk : x.wkind = 0) (hm : x.wmask = 0) (hb : x.begun = true) (ha : x.ack = none) : doMsgAck n p t s =
      if p.fields.getD 3 0 = St.ok ∨ p.fields.getD 3 0 = St.noObject then
        (u.upTask (p.fields.getD 2 0) (fun t => { t with ack := some (p.fields.getD 3 0) })).wake (p.fields.getD 2 0) false
      else u := by
  unfold doMsgAck
  rw [packetIn_accepted hp hn hok hu hc, if_pos hd]
  dsimp only
  rw [hx]
  simp only [hs, hk, hm, hb, ha, Option.isNone_none, decide_true, Bool.true_and, Bool.or_eq_true, decide_eq_true_eq]

end

/-! ### Express messages (R363, R579-R585) -/

/-- A chip that has accepted an express message on link 1, mirrored it and sent it on. -/
def State.passesOn (s : State) (typ : Nat) (p : PlPacket) (t : Nat) : State :=
  ((((s.at t).accept 1 p).1).mirror { kind := 8, key := typ :: p.fields.take 4 }).forward 1 p

theorem expressIn_accepted {s : State} {typ : Nat} {p : PlPacket} {t : Nat} (hy : p.typ = typ) (hok : ((s.at t).accept 1 p).2 = true)
    (f : State → Nat → Nat → State) :
    expressIn typ 1 p t f s = f (s.passesOn typ p t) (p.fields.getD 2 0) (p.fields.getD 3 0) := by
  have hin : ¬ (!((s.at t).accept 1 p).2 || (1 : Nat) ≠ 1) = true := by simp [hok]
  unfold expressIn
  rw [if_neg (not_not.mpr hy)]
  exact if_neg hin

section
variable {s w : State} {p : PlPacket} {t b : Nat} (hy : p.typ = 0x66) (hok : ((s.at t).accept 1 p).2 = true)
  (hw : w = s.passesOn 0x66 p t) (hb : b = p.fields.getD 3 0)
include hy hok hw hb

theorem doSyncReady_accepted (hc : p.fields.getD 1 0 = 0) : doSyncReady 1 p t s =
    (w.named b).elim w fun x => if w.leads x.ent then w.noteReady x.ent (p.fields.getD 0 0) else w := by
  unfold doSyncReady
  rw [expressIn_accepted hy hok, ← hw, ← hb, if_neg (not_not.mpr hc)]
  cases w.named b <;> rfl

theorem doSyncStart_accepted (hc : p.fields.getD 1 0 = 1) : doSyncStart 1 p t s = (w.named b).elim w fun x =>
    if x.running || x.startAt.isSome || x.fin.isSome then w
    else if 2000 * (nearest 40 (p.fields.getD 2 0) w.dtime : Int) < w.scaleT + 200000 then
      (w.endStart x.ent St.linkDown 0).tellNogo x.ent St.linkDown
    else (w.entSlices x.ent).foldl (fun s g => s.upSeq g (fun q => { q with hzn := bitsOf b 16 16 }))
      (w.upBurst x.ent (fun y => { y with startAt := some (nearest 40 (p.fields.getD 2 0) w.dtime) })) := by
  unfold doSyncStart
  rw [expressIn_accepted hy hok, ← hw, ← hb, if_neg (not_not.mpr hc)]
  cases w.named b <;> rfl

theorem doSyncStop_accepted (hc : p.fields.getD 1 0 = 2) : doSyncStop 1 p t s =
    if isFailure (bitsOf b 16 8) then (w.named b).elim w fun x => w.nogo x (bitsOf b 16 8) else w := by
  unfold doSyncStop
  rw [expressIn_accepted hy hok, ← hw, ← hb, hc]
  cases isFailure (bitsOf b 16 8) <;> cases w.named b <;> rfl

theorem doSyncNogo_accepted (hc : p.fields.getD 1 0 = 3) {u : State} (hu : u = (w.named b).elim w fun x => w.nogo x (bitsOf b 16 8)) :
    doSyncNogo 1 p t s =
      if isFailure (bitsOf b 16 8) then if bitsOf b 16 8 = St.blocked then u.blockedElsewhere (bitsOf b 0 16) else u else w := by
  unfold doSyncNogo
  rw [expressIn_accepted hy hok, ← hw, ← hb, hc, hu]
  dsimp only
  cases isFailure (bitsOf b 16 8) <;> cases w.named b <;> rfl

end

section
variable {s w : State} {p : PlPacket} {t b : Nat} (hy : p.typ = 0x87) (hok : ((s.at t).accept 1 p).2 = true)
  (hw : w = s.passesOn 0x87 p t) (hb : b = p.fields.getD 3 0)
include hy hok hw hb

theorem doFailMsg_unnamed (hx : w.named b = none) : doFailMsg 1 p t s = w := by
  unfold doFailMsg
  rw [expressIn_accepted hy hok, ← hw, ← hb, hx]

/-- A FAIL whose vectors no decision has needed yet. -/
theorem doFailMsg_inTime {x : Burst} {c : Nat} {vs : List Nat} (hx : w.named b = some x)
    (hd : ∀ g ∈ w.entSlices x.ent, (w.sl g).seq.decided = [])
    (hcur : c = nearest 40 (p.fields.getD 2 0) (((w.entSlices x.ent).head?.map (fun g => (w.sl g).seq.next)).getD 0))
    (hvs : vs = (bitList 16 (bitsOf b 16 16)).map (c + ·)) : doFailMsg 1 p t s =
      if p.fields.getD 1 0 = 0 then vs.foldl (fun s v => s.remoteFail x.ent v) w
      else w.upBurst x.ent (fun y => { y with mfail := y.mfail ++ vs.map (fun v => (0xFFFF, 0xFFFF, v)) }) := by
  have hlate : ¬ (w.entSlices x.ent).any (fun g => (w.sl g).seq.decided.any (fun r => r.1 ≤ c + 15 && c ≤ r.2)) = true := by
    simp +contextual [hd]
  subst hcur hvs
  unfold doFailMsg
  rw [expressIn_accepted hy hok, ← hw, ← hb, hx]
  exact if_neg hlate
end

/-- An XT event of the ring goes to the other ring too, unless it came from there (R580). -/
theorem doTrigMsg_accepted {s w v : State} {p : PlPacket} {t : Nat} (hy : p.typ = 0x78) (hok : ((s.at t).accept 1 p).2 = true)
    (hw : w = s.passesOn 0x78 p t) (hv : v = if !(p.fields.getD 1 0).testBit 2 && w.linkUp 3 then w.send 3 { p with seq := 0 } else w) :
    doTrigMsg 1 p t s = v.xtEvent (bitsOf (p.fields.getD 3 0) 11 3)
      ((2000 * (nearest 40 (p.fields.getD 2 0) (((s.at t).accept 1 p).1).dtime : Nat) + bitsOf (p.fields.getD 3 0) 0 11 : Int) -
        v.ringT.xoff).toNat := by
  have hin : ¬ (!((s.at t).accept 1 p).2 || !((1 : Nat) = 1 || (1 : Nat) = 3)) = true := by simp [hok]
  subst hv hw
  unfold doTrigMsg
  rw [if_neg (not_not.mpr hy)]
  exact if_neg hin

/-! ### Time (R586) -/

/-- The partner's send time, and when its message came, as the link measures both. -/
theorem doTimeMsg_first {s u : State} {n : Nat} {p : PlPacket} {t : Nat} (hy : p.typ = 0x99) (hok : ((s.at t).accept n p).2 = true)
    (hu : u = ((s.at t).accept n p).1) (hs : (u.lk n).sentT = []) :
    doTimeMsg n p t s = u.upLk n (fun l => { l with
      recvT := some (2000 * nearest 40 (p.fields.getD 2 0) u.dtime + bitsOf (p.fields.getD 3 0) 0 11,
        2000 * u.dtime + p.fields.getD 4 0 % 2000) }) := by
  subst hu
  unfold doTimeMsg
  rw [if_neg (not_not.mpr hy)]
  simp only [hok, hs, Bool.not_true, Bool.false_eq_true, if_false, List.map_nil, List.filter_nil, List.foldl_nil]

/-- Time goes out on a link where it is due. -/
def State.timeStep (s : State) (n : Nat) : State := if s.timeDue n then s.timeOut n else s

theorem timeOut_sends (s : State) (n : Nat) : ∃ p, s.timeOut n =
    (s.send n p).upLk n (fun l => { l with sentT := (2000 * s.dtime :: l.sentT).take 2 }) := ⟨_, rfl⟩

/-- A message of time touches the links and what goes out alone. -/
theorem timeStep_eq (s : State) (n : Nat) : ∃ l o, s.timeStep n = { s with links := l, out := o } := by
  unfold State.timeStep
  split
  · obtain ⟨p, h⟩ := timeOut_sends s n
    obtain ⟨l, o, hs⟩ := send_eq s n p
    rw [h, hs]
    exact ⟨_, _, rfl⟩
  · exact ⟨_, _, rfl⟩

theorem timeStep_dtime (s : State) (n : Nat) : (s.timeStep n).dtime = s.dtime := by
  obtain ⟨_, _, h⟩ := timeStep_eq s n; rw [h]

theorem timeStep_lk_ne {s : State} {n k : Nat} (hn : n < s.links.length) (h : k ≠ n) : (s.timeStep n).lk k = s.lk k := by
  unfold State.timeStep State.timeOut
  split
  · exact (upLk_lk_ne _ _ h).trans ((send_facts s n _ hn).2.1 k h)
  · rfl

theorem timeStep_length {s : State} {n : Nat} (hn : n < s.links.length) : (s.timeStep n).links.length = s.links.length := by
  unfold State.timeStep State.timeOut
  split
  · exact (upLk_links_length _ _ _).trans (send_facts s n _ hn).1
  · rfl

theorem timeStep_due {s : State} {n : Nat} (hn : n < s.links.length) (h : s.timeDue n = true) :
    ((s.timeStep n).lk n).sentT = (2000 * s.dtime :: (s.lk n).sentT).take 2 := by
  obtain ⟨p, hp⟩ := timeOut_sends s n
  obtain ⟨hlen, -, hsent⟩ := send_facts s n p hn
  rw [State.timeStep, if_pos h, hp, upLk_lk_same _ _ _ (by omega), hsent]

/-- Whether time is due on a link is a matter of that link and of DTIME. -/
theorem timeDue_congr {s t : State} {n : Nat} (hl : t.lk n = s.lk n) (hd : t.dtime = s.dtime) : t.timeDue n = s.timeDue n := by
  rw [State.timeDue, State.timeDue, State.linkUp, State.linkUp, hl, hd]

/-- Time goes out once on each link of a list on which it is due, and no other link changes. -/
theorem timeSteps_lk (l : List Nat) (s : State) (hl : ∀ n ∈ l, n < s.links.length) (hnd : l.Nodup) (n : Nat) :
    (n ∈ l → s.timeDue n = true → ((l.foldl State.timeStep s).lk n).sentT = (2000 * s.dtime :: (s.lk n).sentT).take 2) ∧
    (n ∉ l ∨ s.timeDue n = false → (l.foldl State.timeStep s).lk n = s.lk n) := by
  induction l generalizing s with
  | nil => exact ⟨fun h => absurd h (List.not_mem_nil), fun _ => rfl⟩
  | cons k r ih =>
    obtain ⟨hk, hr⟩ := List.nodup_cons.mp hnd
    have hlen : k < s.links.length := hl k List.mem_cons_self
    obtain ⟨hin, hout⟩ := ih (s.timeStep k) (fun n hn => by rw [timeStep_length hlen]; exact hl n (List.mem_cons_of_mem _ hn)) hr
    rw [List.foldl_cons]
    by_cases hnk : n = k
    · subst hnk
      rw [hout (.inl hk)]
      refine ⟨fun _ hd => timeStep_due hlen hd, fun h => ?_⟩
      have hd : s.timeDue n = false := h.resolve_left (fun h => h List.mem_cons_self)
      rw [State.timeStep, if_neg (Bool.eq_false_iff.mp hd)]
    · have hlk := timeStep_lk_ne hlen hnk
      have hd := timeDue_congr hlk (timeStep_dtime s k)
      rw [hlk, hd, timeStep_dtime] at hin
      rw [hlk, hd] at hout
      exact ⟨fun h => hin ((List.mem_cons.mp h).resolve_left hnk), fun h => hout (h.imp_left fun hm h => hm (List.mem_cons_of_mem _ h))⟩

/-- Settles O28, by what each packet and message does once it is accepted. -/
theorem ringTraffic : Obligations.RingTraffic := by
  refine ⟨fun s sq idx d hd => ?_, fun s n p tt hp hn hok => ?_, fun s p tt hy hok => ?_, fun s p tt hy hok => ?_, fun s p tt hy hok => ?_,
    fun s n p tt hy hok => ?_, fun s tt hsh => ?_⟩
  · refine ⟨_, rfl, doRingAlign_bad hd, fun hp hn hz => ⟨fun hu => ?_, fun hu => ?_⟩⟩
    · exact (doRingAlign_formed hd hp hn hz).trans (if_neg (Bool.eq_false_iff.mp hu))
    · exact (doRingAlign_formed hd hp hn hz).trans (if_pos hu)
  · refine ⟨_, rfl, fun hc hown hd => congrArg Host.Outcome.next (doMsgPacket_returned hp hc hown hd), fun hc h => ?_, fun hc => ?_,
      fun hc hk => ?_⟩
    · exact ⟨_, congrArg Host.Outcome.next (doMsgPacket_accepted hp hn hok rfl hc h), fun hd => if_neg hd, fun hd => if_pos hd⟩
    · refine ⟨_, rfl, doMsgAck_elsewhere hp hn hok rfl hc, fun x hd hx hs hk hm hb ha => ?_⟩
      have hack := doMsgAck_awaited hp hn hok rfl hc hd hx hs hk hm hb ha
      exact ⟨fun h h' => hack.trans (if_neg (not_or.mpr ⟨h, h'⟩)), fun h => hack.trans (if_pos h)⟩
    · exact ⟨_, congrArg Host.Outcome.next (doRingPacket_accepted hp hn hok rfl hc hk), fun hd => if_neg hd, fun hd => if_pos hd⟩
  · refine ⟨s.passesOn 0x66 p tt, _, rfl, rfl, fun hc => ?_, fun hc => ?_, fun hc => ?_, fun hc => ?_⟩
    · refine ⟨_, congrArg Host.Outcome.next (doSyncReady_accepted hy hok rfl rfl hc), fun hx => by rw [hx]; rfl, fun x hx hl => ?_⟩
      rw [hx]
      exact if_pos hl
    · refine ⟨_, congrArg Host.Outcome.next (doSyncStart_accepted hy hok rfl rfl hc), fun hx => by rw [hx]; rfl, fun x hx hr hs hf => ?_⟩
      have hidle : ¬ (x.running || x.startAt.isSome || x.fin.isSome) = true := by simp [hr, hs, hf]
      rw [hx, Option.elim_some, if_neg hidle]
      exact ⟨fun h => if_neg (not_lt.mpr h), fun h => if_pos h⟩
    · refine ⟨_, congrArg Host.Outcome.next (doSyncStop_accepted hy hok rfl rfl hc), fun h => ?_, fun x hx hf => ?_⟩
      · rcases h with h | h
        · rw [h]; exact ite_self _
        · exact if_neg (Bool.eq_false_iff.mp h)
      · rw [hx, if_pos hf]; rfl
    · exact ⟨_, _, congrArg Host.Outcome.next (doSyncNogo_accepted hy hok rfl rfl hc rfl), fun hf => if_neg (Bool.eq_false_iff.mp hf),
        fun hx => by rw [hx]; rfl, fun x hx => by rw [hx]; rfl, fun hf => if_pos hf⟩
  · exact ⟨_, s.passesOn 0x87 p tt, _, rfl, rfl, rfl, doFailMsg_unnamed hy hok rfl rfl,
      fun x hx hd => ⟨_, _, rfl, rfl, doFailMsg_inTime hy hok rfl rfl hx hd rfl rfl⟩⟩
  · exact ⟨_, s.passesOn 0x78 p tt, _, congrArg Host.Outcome.next (doTrigMsg_accepted hy hok rfl rfl), rfl, rfl, rfl⟩
  · exact ⟨_, _, rfl, rfl, doTimeMsg_first hy hok rfl⟩
  · obtain ⟨-, -, -, hlinks, -⟩ := hsh
    have hlt : ∀ n ∈ List.range 4, n < (s.at tt).links.length := fun n hn => hlinks.symm ▸ List.mem_range.mp hn
    have hlk := timeSteps_lk (List.range 4) (s.at tt) hlt List.nodup_range
    obtain ⟨l, o, h⟩ := foldl_linked timeStep_eq (List.range 4) (s.at tt)
    exact ⟨(List.range 4).foldl State.timeStep (s.at tt), rfl, by rw [h]; rfl, by rw [h]; rfl,
      fun n hn hd => (hlk n).1 (List.mem_range.mpr hn) hd, fun n hn hd => (hlk n).2 (.inr hd)⟩

end Sys2Proof.Machine
end

