-- ==== Sys2Proof/Proofs/Unloads.lean ====
section
namespace Sys2Proof.Machine

/-! SUPPORT. What becomes of objects that are unloaded, and of fallback links (R122, R130, R203, R330, R404), and the statement about
them. -/

/-! ### What a completion leaves in flight -/

theorem hostErr_inflight (s : State) (b : Nat) (r : Option Nat) : (s.hostErr b r).host.inflight = s.host.inflight := by
  unfold State.hostErr
  dsimp only
  refine ite_keep (fun t : State => t.host.inflight) ?_ ?_
  · rw [msi_inflight]
    cases r <;> rfl
  · cases r <;> rfl

theorem hostWrite_inflight (s : State) (k a : Nat) (b : List Byte) : (s.hostWrite k a b).1.host.inflight = s.host.inflight := by
  unfold State.hostWrite
  split
  · rfl
  · exact hostErr_inflight s 3 (some k)

theorem ringError_inflight (s : State) (k c : Nat) : (s.ringError k c).host.inflight = s.host.inflight := by
  unfold State.ringError
  rw [queueEvent_inflight, hostErr_inflight]
  rfl

theorem ringWrite_inflight (s : State) (k : Nat) (bs : List Byte) (p : Nat) (q : Bool) :
    (s.ringWrite k bs p q).host.inflight = s.host.inflight := by
  unfold State.ringWrite
  dsimp only
  exact ite_keep (fun t : State => t.host.inflight) (msi_inflight _ _) rfl

theorem closeRing_inflight (s : State) (k : Nat) : (s.closeRing k).host.inflight = s.host.inflight := by
  unfold State.closeRing
  exact ite_keep (fun t : State => t.host.inflight) rfl rfl

theorem noteMet_inflight (s : State) : s.noteMet.host.inflight = s.host.inflight := by
  obtain ⟨r, h⟩ := noteMet_eq s
  rw [h]

/-- Writing a completion entry, where its ring takes one, leaves what is in flight. -/
theorem completionEntry_inflight (s : State) (k : Nat) (bs : List Byte) (p : Nat) (q : Bool) :
    ((if !s.ringOn k || s.ringErr k then s else if !s.host.pci.busMaster then s.ringError k 3 else s.ringWrite k bs p q).closeRing
      k).noteMet.host.inflight = s.host.inflight := by
  rw [noteMet_inflight, closeRing_inflight]
  exact ite_keep (fun t : State => t.host.inflight) rfl
    (ite_keep (fun t : State => t.host.inflight) (ringError_inflight _ _ _) (ringWrite_inflight _ _ _ _ _))

/-- A completion takes its descriptor out of flight, and no other. -/
theorem complete_inflight (s : State) (sq idx : Nat) (r : Result) :
    (s.complete sq idx r).host.inflight = s.host.inflight.filter (fun d => !(d.sq == sq && d.idx == idx)) := by
  unfold State.complete
  split
  next h => exact (List.filter_eq_self.mpr fun d hd => by rw [Bool.eq_false_iff.mpr (List.find?_eq_none.mp h d hd)]; rfl).symm
  next d _ =>
    dsimp only
    split
    · exact completionEntry_inflight _ _ _ _ _
    · exact (completionEntry_inflight _ _ _ _ _).trans (congrArg (List.filter _) (hostWrite_inflight _ _ _ _))

/-- An object that is loaded stays loaded over a completion. -/
theorem finish_obj {s : State} {id : Nat} {o : Obj} (h : s.obj id = some o) (sq idx st : Nat) : (s.finish sq idx st).obj id = some o := by
  have hany : ∀ l : List Desc, l.any (fun d => d.unloads id o.kind) = false →
      (l.filter (fun d => !(d.sq == sq && d.idx == idx))).any (fun d => d.unloads id o.kind) = false := fun l hl =>
    List.any_eq_false.mpr fun d hd => List.any_eq_false.mp hl d (List.mem_of_mem_filter hd)
  obtain ⟨ho, hfree⟩ := Option.filter_eq_some_iff.mp h
  obtain ⟨hu, hin⟩ := Bool.and_eq_true_iff.mp hfree
  refine Option.filter_eq_some_iff.mpr ⟨(congrArg (kGet · id) (sends_finish _ _ _ _).objs).trans ho, ?_⟩
  rw [State.finish, complete_inflight, hu, hany _ (by simpa using hin)]
  rfl

/-! ### An object that is changed -/

/-- A loaded object that is changed is loaded as changed, … -/
theorem upObj_obj {s : State} {id : Nat} {o : Obj} {f : Obj → Obj} (h : s.obj id = some o) (hu : (f o).unloading = o.unloading)
    (hk : (f o).kind = o.kind) : (s.upObj id f).obj id = some (f o) := by
  obtain ⟨ho, hfree⟩ := Option.filter_eq_some_iff.mp h
  refine Option.filter_eq_some_iff.mpr ⟨?_, by rw [hu, hk]; exact hfree⟩
  rw [upObj_objs, kGet_kUpd, ho]
  simp

/-- … and no other object is. -/
theorem upObj_kGet_ne (s : State) {id i : Nat} (f : Obj → Obj) (hi : i ≠ id) : kGet (s.upObj id f).objs i = kGet s.objs i := by
  rw [upObj_objs, kGet_kUpd]
  simp [hi]

/-- A change of a loaded object with which a descriptor completes. -/
theorem upObj_finish_facts {s : State} {id : Nat} {o : Obj} {f : Obj → Obj} (h : s.obj id = some o)
    (hu : (f o).unloading = o.unloading) (hk : (f o).kind = o.kind) (sq idx st : Nat) :
    ((s.upObj id f).finish sq idx st).obj id = some (f o) ∧
      (∀ i, i ≠ id → kGet ((s.upObj id f).finish sq idx st).objs i = kGet s.objs i) ∧
      ((s.upObj id f).finish sq idx st).desc sq idx = none ∧ ((s.upObj id f).finish sq idx st).mem = s.mem := by
  refine ⟨finish_obj (upObj_obj h hu hk) _ _ _, fun i hi => ?_, finish_desc _ _ _ _, (sends_finish _ _ _ _).mem⟩
  rw [(sends_finish _ _ _ _).objs]
  exact upObj_kGet_ne s f hi

/-! ### Freeing an object (R122, R203, R330, R404) -/

/-- An object without the fallback link that names another. -/
def Obj.unlink (o : Obj) (id : Nat) : Obj := { o with fallback := if o.fallback = some id then none else o.fallback }

/-- Telling the partner of an unload touches the links, what went out and the pair. -/
theorem pairUnloaded_eq (s : State) (id : Nat) : ∃ l o p, s.pairUnloaded id = { s with links := l, out := o, pair := p } := by
  unfold State.pairUnloaded
  dsimp only
  split
  · obtain ⟨l, o, p, h, -⟩ := tether_eq { s with pair := { s.pair with unprotObjs := s.pair.unprotObjs.filter (· ≠ id) } }
      { kind := 15, key := [id] }
    exact ⟨l, o, p, h⟩
  · exact ⟨_, _, _, rfl⟩

/-- Freeing an object takes it, the links that name it and its retained copies. -/
theorem freeObj_eq (s : State) (id : Nat) : ∃ l o p, s.freeObj id = { s with
    objs := (kDel s.objs id).map (fun x => (x.1, x.2.unlink id)), cache := s.cache.filter (fun c => c.obj ≠ id || c.holder.isSome),
    gen := s.gen + 1, links := l, out := o, pair := p } := by
  obtain ⟨l, o, p, h⟩ := pairUnloaded_eq ((({ s with objs := kDel s.objs id }.freeCopies id).dropLinks id).placementChanged) id
  exact ⟨l, o, p, h⟩

theorem freeObj_kGet (s : State) (id i : Nat) : kGet (s.freeObj id).objs i = (kGet (kDel s.objs id) i).map (fun x => x.unlink id) := by
  obtain ⟨_, _, _, h⟩ := freeObj_eq s id
  rw [h]
  exact kGet_map (kDel s.objs id) (fun _ x => x.unlink id) i

theorem freeObj_gone (s : State) (id : Nat) : kGet (s.freeObj id).objs id = none := by
  rw [freeObj_kGet, kGet_kDel_same]
  rfl

/-- Another object that links to none of this ID stays as it is. -/
theorem freeObj_keeps {s : State} {id i : Nat} {x : Obj} (hi : i ≠ id) (hx : kGet s.objs i = some x) (hf : x.fallback ≠ some id) :
    kGet (s.freeObj id).objs i = some x := by
  rw [freeObj_kGet, kGet_kDel_ne _ hi, hx]
  simp [Obj.unlink, hf]

@[simp] theorem freeObj_cache (s : State) (id : Nat) :
    (s.freeObj id).cache = s.cache.filter (fun c => c.obj ≠ id || c.holder.isSome) := by
  obtain ⟨_, _, _, h⟩ := freeObj_eq s id; rw [h]
@[simp] theorem freeObj_mem (s : State) (id : Nat) : (s.freeObj id).mem = s.mem := by
  obtain ⟨_, _, _, h⟩ := freeObj_eq s id; rw [h]
@[simp] theorem freeObj_bursts (s : State) (id : Nat) : (s.freeObj id).bursts = s.bursts := by
  obtain ⟨_, _, _, h⟩ := freeObj_eq s id; rw [h]
@[simp] theorem freeObj_waiting (s : State) (id : Nat) : (s.freeObj id).waiting = s.waiting := by
  obtain ⟨_, _, _, h⟩ := freeObj_eq s id; rw [h]
@[simp] theorem freeObj_paddock (s : State) (id : Nat) : (s.freeObj id).paddock = s.paddock := by
  obtain ⟨_, _, _, h⟩ := freeObj_eq s id; rw [h]
@[simp] theorem freeObj_pe (s : State) (id : Nat) : (s.freeObj id).pe = s.pe := by
  obtain ⟨_, _, _, h⟩ := freeObj_eq s id; rw [h]

/-- Of a freed object nothing is loaded once its unload has completed. -/
theorem freeObj_finish_gone (s : State) (id sq idx st : Nat) : kGet ((s.freeObj id).finish sq idx st).objs id = none :=
  (congrArg (kGet · id) (sends_finish _ _ _ _).objs).trans (freeObj_gone s id)

theorem freeObj_finish_mem (s : State) (id sq idx st : Nat) : ((s.freeObj id).finish sq idx st).mem = s.mem :=
  (sends_finish _ _ _ _).mem.trans (freeObj_mem s id)

theorem freeObj_finish_pe (s : State) (id sq idx st : Nat) : ((s.freeObj id).finish sq idx st).pe = s.pe :=
  (sends_finish _ _ _ _).pe.trans (freeObj_pe s id)

/-- A deferred unload that has freed its object waits no more. -/
theorem unwait_freed_waitOf (s : State) (id sq idx st : Nat) : (((s.unwait sq idx).freeObj id).finish sq idx st).waitOf sq idx = none := by
  rw [State.waitOf, (sends_finish _ _ _ _).waiting, freeObj_waiting]
  refine List.find?_eq_none.mpr fun w hw => ?_
  have hne := (List.mem_filter.mp hw).2
  exact Bool.eq_false_iff.mp ((Bool.not_eq_true' _).mp hne)

/-! ### The object an unload finds (R122, R130, R404) -/

/-- Two descriptors at different places, as the model tests it. -/
theorem place_ne_bool {e d : Desc} (h : ¬ (e.sq = d.sq ∧ e.idx = d.idx)) : (!(e.sq = d.sq && e.idx = d.idx)) = true := by
  rw [← Bool.decide_and, decide_eq_false h]
  rfl

theorem unloads_of_op {e : Desc} {id : Nat} {k : ObjKind} (hid : fld e.bytes 16 4 = id)
    (h : k = .pattern ∧ e.op = 0x09 ∨ k = .flow ∧ e.op = 0x31 ∨ k = .peList ∧ e.op = 0x33) : e.unloads id k = true := by
  rcases h with ⟨rfl, ho⟩ | ⟨rfl, ho⟩ | ⟨rfl, ho⟩ <;> simp [Desc.unloads, Desc.frees, ho, hid]

/-- An unload that waits has made its object unavailable. -/
theorem wait_obj_going (s : State) (id : Nat) (w : Waiting) :
    ((s.upObj id (fun o => { o with unloading := true })).wait w).obj id = none := by
  have hobjs : ((s.upObj id (fun o => { o with unloading := true })).wait w).objs =
      kUpd s.objs id (fun o => { o with unloading := true }) := rfl
  rw [State.obj, hobjs, kGet_kUpd]
  cases kGet s.objs id <;> simp [Option.filter]

section
variable {s : State} {d : Desc} {o : Obj} (ho : kGet s.objs (fld d.bytes 16 4) = some o)
include ho

theorem objFor_going (h : o.unloading = true) : s.objFor d = none := by
  simp [State.objFor, ho, h, Option.filter]

/-- An unload of it that stands earlier in flight hides the object … -/
theorem objFor_named {l r : List Desc} {e : Desc} (hin : s.host.inflight = l ++ e :: r)
    (hl : ∀ x ∈ l ++ [e], ¬ (x.sq = d.sq ∧ x.idx = d.idx)) (he : e.unloads (fld d.bytes 16 4) o.kind = true) : s.objFor d = none := by
  have htake : e ∈ s.host.inflight.takeWhile (fun x => !(x.sq = d.sq && x.idx = d.idx)) := by
    rw [hin, List.append_cons, List.takeWhile_append_of_pos fun x hx => place_ne_bool (hl x hx)]
    simp
  have hany : (s.host.inflight.takeWhile (fun x => !(x.sq = d.sq && x.idx = d.idx))).any (fun x => x.unloads (fld d.bytes 16 4) o.kind)
      = true := List.any_eq_true.mpr ⟨e, htake, he⟩
  rw [State.objFor, ho]
  simp only [Option.filter, hany, Bool.not_true, Bool.and_false, Bool.false_eq_true, if_false]

/-- … and one that stands later does not. -/
theorem objFor_first {l r : List Desc} {e : Desc} (hu : o.unloading = false) (hin : s.host.inflight = l ++ e :: r) (hsq : e.sq = d.sq)
    (hidx : e.idx = d.idx) (hl : ∀ x ∈ l, x.unloads (fld d.bytes 16 4) o.kind = false) (hne : ∀ x ∈ l, ¬ (x.sq = d.sq ∧ x.idx = d.idx)) :
    s.objFor d = some o := by
  have htake : s.host.inflight.takeWhile (fun x => !(x.sq = d.sq && x.idx = d.idx)) = l := by
    rw [hin, List.takeWhile_append_of_pos fun x hx => place_ne_bool (hne x hx)]
    simp [hsq, hidx]
  have hany : l.any (fun x => x.unloads (fld d.bytes 16 4) o.kind) = false := List.any_eq_false.mpr fun x hx => by simp [hl x hx]
  rw [State.objFor, ho]
  simp only [Option.filter, htake, hany, hu, Bool.not_false, Bool.and_self, if_true]
end

/-! ### Unloads of patterns (R122) -/

section
variable {s : State} {sq idx id : Nat} {d : Desc} {o : Obj}

theorem doUnloadPattern_unknown (hd : Safety.ready s sq idx 0x09 d) (h : s.objFor d = none) : doUnloadPattern sq idx s =
    s.finish sq idx (if kHas s.regions (fld d.bytes 16 4) then St.bad else St.noObject) := by
  rw [doUnloadPattern, withDesc_of_ready hd]
  simp only [h]
  split <;> rfl

theorem doUnloadPattern_unfit (hd : Safety.ready s sq idx 0x09 d) (h : s.objFor d = some o)
    (hbad : o.kind ≠ .pattern ∨ zeroes d.bytes 20 44 = false) : doUnloadPattern sq idx s = s.finish sq idx St.bad := by
  rw [doUnloadPattern, withDesc_of_ready hd]
  simp only [h]
  refine if_pos ?_
  rcases hbad with hk | hz
  · simp [hk]
  · simp [hz]

section
variable (hd : Safety.ready s sq idx 0x09 d) (hid : fld d.bytes 16 4 = id) (hz : zeroes d.bytes 20 44 = true)
  (h : s.objFor d = some o) (hk : o.kind = .pattern)
include hd hid hz h hk

theorem doUnloadPattern_lost (hl : o.lost = true) : doUnloadPattern sq idx s = (s.freeObj id).finish sq idx St.ok := by
  subst hid
  rw [doUnloadPattern, withDesc_of_ready hd]
  simp [h, hz, hk, hl]

/-- With no burst of it queued, the pattern waits for those that run it. -/
theorem doUnloadPattern_admitted (hl : o.lost = false) (hb : ∀ b ∈ s.bursts, b.obj = id → b.admitted = true) :
    doUnloadPattern sq idx s = if s.bursts.any (fun b => b.obj = id)
      then (s.upObj id (fun o => { o with unloading := true })).wait { sq := sq, idx := idx, kind := .unload id }
      else ((s.upObj id (fun o => { o with unloading := true })).freeObj id).finish sq idx St.ok := by
  have hnone : s.bursts.filter (fun b => b.obj = id && !b.admitted) = [] :=
    List.filter_eq_nil_iff.mpr fun b hm => by simpa using hb b hm
  subst hid
  rw [doUnloadPattern, withDesc_of_ready hd]
  simp only [h, hz, hk, hl, upObj_bursts, hnone, List.foldl_nil, bne_self_eq_false, Bool.not_true, Bool.or_false, Bool.false_eq_true,
    if_false]

/-- A pattern that is LOST, or that no burst names, is freed at once: from this state or from one in which only it has changed. -/
theorem doUnloadPattern_frees (hfree : o.lost = true ∨ ∀ b ∈ s.bursts, b.obj ≠ id) :
    ∃ u : State, doUnloadPattern sq idx s = (u.freeObj id).finish sq idx St.ok ∧
      (∀ i, i ≠ id → kGet u.objs i = kGet s.objs i) ∧ u.cache = s.cache ∧ u.mem = s.mem ∧ u.bursts = s.bursts := by
  by_cases hl : o.lost = true
  · exact ⟨s, doUnloadPattern_lost hd hid hz h hk hl, fun _ _ => rfl, rfl, rfl, rfl⟩
  · have hb := hfree.resolve_left hl
    have hrun := doUnloadPattern_admitted hd hid hz h hk (Bool.eq_false_iff.mpr hl) fun b hm he => absurd he (hb b hm)
    exact ⟨_, hrun.trans (if_neg (by simpa using hb)), fun i hi => upObj_kGet_ne s _ hi, rfl, rfl, rfl⟩

end

theorem doDeferredUnload_frees (hw : s.waitOf sq idx = some { sq := sq, idx := idx, kind := .unload id })
    (hb : ∀ b ∈ s.bursts, b.obj ≠ id) : doDeferredUnload sq idx s = ((s.unwait sq idx).freeObj id).finish sq idx St.ok := by
  have hany : s.bursts.any (fun b => b.obj = id) = false := List.any_eq_false.mpr fun b hm => by simpa using hb b hm
  simp [doDeferredUnload, hw, hany]

/-! ### Unloads of flow programs and PE lists (R404) -/

theorem unloadRefusal_passes (h : s.objFor d = some o) (hz : zeroes d.bytes 20 44 = true) : s.unloadRefusal d o.kind = 0 := by
  simp [State.unloadRefusal, h, hz]

/-- Some task runs the flow program, or returns to it. -/
theorem flowUsed_iff (l : List (Nat × Task)) (id : Nat) : l.any (fun p => p.2.flow = id || p.2.stack.any (fun f => f.1 = id)) = true ↔
    ∃ p ∈ l, p.2.flow = id ∨ ∃ f ∈ p.2.stack, f.1 = id := by
  simp only [List.any_eq_true, Bool.or_eq_true, decide_eq_true_eq]

theorem doUnloadFlow_checked (hd : Safety.ready s sq idx 0x31 d) (hid : fld d.bytes 16 4 = id) (hz : zeroes d.bytes 20 44 = true)
    (h : s.objFor d = some o) (hk : o.kind = .flow) : doUnloadFlow sq idx s =
      if s.paddock.tasks.any (fun p => p.2.flow = id || p.2.stack.any (fun f => f.1 = id)) then s.finish sq idx St.bad
      else (s.freeObj id).finish sq idx St.ok := by
  subst hid
  rw [doUnloadFlow, withDesc_of_ready hd]
  exact if_neg (not_not.mpr (hk ▸ unloadRefusal_passes h hz))

theorem doUnloadPeList_checked (hd : Safety.ready s sq idx 0x33 d) (hid : fld d.bytes 16 4 = id) (hz : zeroes d.bytes 20 44 = true)
    (h : s.objFor d = some o) (hk : o.kind = .peList) : doUnloadPeList sq idx s =
      if s.listHeld id then (s.upObj id (fun o => { o with unloading := true })).wait { sq := sq, idx := idx, kind := .peUnload id }
      else (s.freeObj id).finish sq idx St.ok := by
  subst hid
  rw [doUnloadPeList, withDesc_of_ready hd]
  exact if_neg (not_not.mpr (hk ▸ unloadRefusal_passes h hz))

theorem doDeferredPeListUnload_frees (hw : s.waitOf sq idx = some { sq := sq, idx := idx, kind := .peUnload id })
    (hh : s.listHeld id = false) : doDeferredPeListUnload sq idx s = ((s.unwait sq idx).freeObj id).finish sq idx St.ok := by
  simp [doDeferredPeListUnload, hw, hh]

end

/-! ### Fallback links (R330) -/

section
variable {s : State} {sq idx id fb : Nat} {d : Desc} {o : Obj} (hd : Safety.ready s sq idx 0x0A d) (hid : fld d.bytes 16 4 = id)
  (hfb : fld d.bytes 20 4 = fb) (h : s.obj id = some o)
include hd hid hfb h

theorem doApgFallback_unknown (hne : fb ≠ 0xFFFFFFFF) (hf : s.obj fb = none) : doApgFallback sq idx s = s.finish sq idx St.noObject := by
  subst hid hfb
  rw [doApgFallback, withDesc_of_ready hd]
  simp only [h, hne, hf, if_false]

variable (hl : o.lost = false) (hk : o.kind = .pattern) (ha : o.apg = true) (hz : zeroes d.bytes 24 40 = true)
include hl hk ha hz

theorem doApgFallback_clears (hnone : fb = 0xFFFFFFFF) : doApgFallback sq idx s =
    (s.upObj id (fun o => { o with fallback := none })).finish sq idx St.ok := by
  subst hid hfb
  rw [doApgFallback, withDesc_of_ready hd]
  simp [h, hnone, hl, hk, ha, hz]

theorem doApgFallback_sets {f : Obj} (hne : fb ≠ 0xFFFFFFFF) (hf : s.obj fb = some f) (hfl : f.lost = false) (hfk : f.kind = .pattern)
    (hfa : f.apg = false) (hn : (s.hdr o).nPins = (s.hdr f).nPins) : doApgFallback sq idx s =
    (s.upObj id (fun o => { o with fallback := some fb })).finish sq idx St.ok := by
  subst hid hfb
  rw [doApgFallback, withDesc_of_ready hd]
  simp [h, hf, hne, hl, hk, ha, hz, hfl, hfk, hfa, hn]
end

/-- Settles O34: each unload by the object it finds and what still uses it; a fallback link by the two objects it names. -/
theorem objectsUnloaded : Obligations.ObjectsUnloaded := by
  refine ⟨fun s sq idx d hd h => ?_, fun s d e o ho => ⟨objFor_going ho, fun l r hin hl hid hk => ?_, fun hu l r hin hsq hidx hl hne => ?_⟩,
    fun s sq idx d o hd h hbad => ?_, fun s sq idx id d o hd hid hz h hk hfree => ?_, fun s sq idx id d o hd hid hz h hk hl hrun hadm => ?_,
    fun s sq idx id hw hb => ?_, fun s sq idx id d o hd hid hz h hk => ?_, fun s sq idx id d o hd hid hz h hk => ?_,
    fun s sq idx id hw hh => ?_, fun s sq idx id fb d o hd hid hfb h hl hk ha hz => ?_⟩
  · exact ⟨_, congrArg Host.Outcome.next (doUnloadPattern_unknown hd h), rfl, (sends_finish _ _ _ _).objs, (sends_finish _ _ _ _).mem⟩
  · exact objFor_named ho hin hl (unloads_of_op hid hk)
  · exact objFor_first ho hu hin hsq hidx hl hne
  · exact ⟨_, congrArg Host.Outcome.next (doUnloadPattern_unfit hd h hbad), rfl, (sends_finish _ _ _ _).objs, (sends_finish _ _ _ _).mem⟩
  · obtain ⟨u, hrun, hobjs, hcache, hmem, hbursts⟩ := doUnloadPattern_frees hd hid hz h hk hfree
    have hsend := sends_finish (u.freeObj id) sq idx St.ok
    refine ⟨_, congrArg Host.Outcome.next hrun, freeObj_finish_gone _ _ _ _ _, fun i x hi hx hf => ?_, ?_, finish_desc _ _ _ _,
      (freeObj_finish_mem _ _ _ _ _).trans hmem, ?_⟩
    · rw [hsend.objs]
      exact freeObj_keeps hi ((hobjs i hi).trans hx) hf
    · rw [hsend.cache, freeObj_cache, hcache]
    · rw [hsend.bursts, freeObj_bursts, hbursts]
  · have hany : s.bursts.any (fun b => b.obj = id) = true := by simpa using hrun
    exact ⟨_, congrArg Host.Outcome.next ((doUnloadPattern_admitted hd hid hz h hk hl hadm).trans (if_pos hany)), rfl,
      wait_obj_going _ _ _, rfl, rfl⟩
  · exact ⟨_, congrArg Host.Outcome.next (doDeferredUnload_frees hw hb), rfl, freeObj_finish_gone _ _ _ _ _,
      unwait_freed_waitOf _ _ _ _ _, finish_desc _ _ _ _, freeObj_finish_mem _ _ _ _ _⟩
  · refine ⟨_, congrArg Host.Outcome.next (doUnloadFlow_checked hd hid hz h hk), fun hused => ?_, fun hfree => ?_⟩
    · rw [if_pos ((flowUsed_iff _ _).mpr hused)]
      exact ⟨rfl, (sends_finish _ _ _ _).objs⟩
    · have hunused : ¬ ∃ p ∈ s.paddock.tasks, p.2.flow = id ∨ ∃ f ∈ p.2.stack, f.1 = id := fun ⟨p, hp, hu⟩ =>
        hu.elim (hfree p hp).1 fun ⟨f, hf, he⟩ => (hfree p hp).2 f hf he
      rw [if_neg (mt (flowUsed_iff _ _).mp hunused)]
      exact ⟨rfl, freeObj_finish_gone _ _ _ _ _, (sends_finish _ _ _ _).paddock.trans (freeObj_paddock s id), freeObj_finish_mem _ _ _ _ _⟩
  · refine ⟨_, congrArg Host.Outcome.next (doUnloadPeList_checked hd hid hz h hk), fun hheld => ?_, fun hfree => ?_⟩
    · rw [if_pos hheld]
      exact ⟨rfl, wait_obj_going _ _ _, rfl⟩
    · rw [if_neg (Bool.eq_false_iff.mp hfree)]
      exact ⟨rfl, freeObj_finish_gone _ _ _ _ _, freeObj_finish_pe _ _ _ _ _, freeObj_finish_mem _ _ _ _ _⟩
  · exact ⟨_, congrArg Host.Outcome.next (doDeferredPeListUnload_frees hw hh), rfl, freeObj_finish_gone _ _ _ _ _,
      unwait_freed_waitOf _ _ _ _ _, finish_desc _ _ _ _, freeObj_finish_pe _ _ _ _ _, freeObj_finish_mem _ _ _ _ _⟩
  · refine ⟨doApgFallback sq idx s, rfl, fun hnone => ?_, fun hne hf => ?_, fun f hne hf hfl hfk hfa hn => ?_⟩
    · rw [doApgFallback_clears hd hid hfb h hl hk ha hz hnone]
      exact upObj_finish_facts (f := fun o => { o with fallback := none }) h rfl rfl _ _ _
    · rw [doApgFallback_unknown hd hid hfb h hne hf]
      exact ⟨rfl, (sends_finish _ _ _ _).objs⟩
    · rw [doApgFallback_sets hd hid hfb h hl hk ha hz hne hf hfl hfk hfa hn]
      exact upObj_finish_facts (f := fun o => { o with fallback := some fb }) h rfl rfl _ _ _

end Sys2Proof.Machine
end

