-- ==== Sys2Proof/Proofs/Loads.lean ====
section
namespace Sys2Proof.Machine

/-! SUPPORT. What becomes of loads of patterns, flow programs and PE lists (R117, R119, R121, R127, R199, R201, R402, R544, R548), and the
statement about them. -/

/-- Host memory gives the bytes asked for while bus mastering is enabled. -/
theorem hostRead_answered {s : State} {bs : List Byte} {n : Nat} (hbus : s.host.pci.busMaster = true) (hlen : bs.length = n) :
    s.hostRead ((some bs).filter (fun l => l.length = n)) = some bs := by
  simp [State.hostRead, hbus, hlen, Option.filter]

/-! ### LOAD_PATTERN (R119) -/

/-- The body of a LOAD_PATTERN passes its checks. -/
def State.patternBodyOk (s : State) (d : Desc) : Bool :=
  s.loadBodyOk d (fld d.bytes 24 8) (fld d.bytes 32 8) (fld d.bytes 20 1 < 8 && zeroes d.bytes 21 3 && zeroes d.bytes 40 24)

/-- The load that a LOAD_PATTERN begins with these bytes at a place. -/
def patternLoad (sq idx : Nat) (d : Desc) (bs : List Byte) (set : List Nat) (base : Nat) : Load :=
  { sq := sq, idx := idx, deep := (fld d.bytes 20 1).testBit 0, src := bs
    obj := { id := fld d.bytes 16 4, kind := .pattern, size := bs.length, base := base, chans := set
             q := objQ (rdList bs) (hdrOf (rdList bs)), keep := (fld d.bytes 20 1).testBit 1, prefer := (fld d.bytes 20 1).testBit 2
             branch := hasBranch (rdList bs) (hdrOf (rdList bs)), apg := (hdrOf (rdList bs)).apg } }

section
variable {s : State} {sq idx : Nat} {d : Desc} {bs : List Byte} (hd : Safety.ready s sq idx 0x08 d)
include hd

theorem doLoadPattern_bad (hok : s.patternBodyOk d = false) : doLoadPattern sq idx (some bs) s = s.finish sq idx St.bad := by
  rw [doLoadPattern, withDesc_of_ready hd]
  exact if_pos ((Bool.not_eq_true' _).mpr hok)

variable (hbus : s.host.pci.busMaster = true) (hlen : bs.length = fld d.bytes 32 8) (hok : s.patternBodyOk d = true)
include hbus hlen hok

/-- A load whose body is right goes by the early checks of its bytes, then by the room for them. -/
theorem doLoadPattern_read : doLoadPattern sq idx (some bs) s =
    (worstFail (earlyFails (rdList bs) (hdrOf (rdList bs)) bs.length)).elim
      ((s.placePattern bs.length (objQ (rdList bs) (hdrOf (rdList bs)))).elim (s.complete sq idx (loadNoSpace true)) fun p =>
        { s.begin sq idx with loads := s.loads ++ [patternLoad sq idx d bs p.1 p.2] })
      fun f => s.complete sq idx (loadFailed f) := by
  rw [doLoadPattern, withDesc_of_ready hd]
  refine (if_neg (Bool.eq_false_iff.mp ((Bool.not_eq_false' _).mpr hok))).trans ?_
  -- The checks and the place become unknown functions, which the kernel does not compute when it compares the two sides.
  obtain ⟨worst, hworst⟩ : ∃ f, f = worstFail := ⟨_, rfl⟩
  obtain ⟨place, hplace⟩ : ∃ f, f = State.placePattern := ⟨_, rfl⟩
  rw [hostRead_answered hbus hlen, ← hlen, ← hworst, ← hplace]
  dsimp only
  cases worst (earlyFails (rdList bs) (hdrOf (rdList bs)) bs.length) with
  | some f => rfl
  | none => cases place s bs.length (objQ (rdList bs) (hdrOf (rdList bs))) <;> rfl
end

/-! ### LOAD_FLOW and LOAD_PE_LIST (R402) -/

/-- The body of a LOAD_FLOW or LOAD_PE_LIST passes its checks. -/
def State.otherBodyOk (s : State) (d : Desc) : Bool :=
  s.loadBodyOk d (fld d.bytes 24 8) (fld d.bytes 32 4) (zeroes d.bytes 20 4 && zeroes d.bytes 36 28)

section
variable {s : State} {sq idx op : Nat} {kind : ObjKind} {d : Desc} {bs : List Byte} (hd : Safety.ready s sq idx op d)
include hd

theorem loadOther_bad (hok : s.otherBodyOk d = false) : loadOther op kind sq idx (some bs) s = s.finish sq idx St.bad := by
  rw [loadOther, withDesc_of_ready hd]
  exact if_pos ((Bool.not_eq_true' _).mpr hok)

variable (hbus : s.host.pci.busMaster = true) (hlen : bs.length = fld d.bytes 32 4) (hok : s.otherBodyOk d = true)
include hbus hlen hok

/-- A load whose body is right goes by the checks of its header, then by the room on one channel. -/
theorem loadOther_read : loadOther op kind sq idx (some bs) s = (worstFFail (fpHeaderFails bs (kind == .flow) bs.length)).elim
    ((s.placeWhole bs.length).elim (s.complete sq idx (loadNoSpace false)) fun p => { s.begin sq idx with loads := s.loads ++ [{
      sq := sq, idx := idx, deep := false, src := bs
      obj := { id := fld d.bytes 16 4, kind := kind, size := bs.length, base := p.2, chans := [p.1] } }] })
    fun f => s.complete sq idx (flowFailed f) := by
  rw [loadOther, withDesc_of_ready hd]
  refine (if_neg (Bool.eq_false_iff.mp ((Bool.not_eq_false' _).mpr hok))).trans ?_
  rw [hostRead_answered hbus hlen, ← hlen]
  dsimp only
  cases worstFFail (fpHeaderFails bs (kind == .flow) bs.length) with
  | some f => rfl
  | none => cases s.placeWhole bs.length <;> rfl
end

/-- The kind of object that a LOAD_FLOW or LOAD_PE_LIST loads. -/
def otherKind (flow : Bool) : ObjKind := if flow then .flow else .peList

theorem exec_loadOther (flow : Bool) (sq idx : Nat) (src : Option (List Byte)) (s : State) :
    exec (if flow then .loadFlow sq idx src else .loadPeList sq idx src) s =
      .next (loadOther (if flow then 0x30 else 0x32) (otherKind flow) sq idx src s) := by
  cases flow <;> rfl

/-! ### A load has arrived (R119, R121, R611) -/

/-- The state with the object of a load stored and loaded, … -/
def State.storeLoad (s : State) (l : Load) : State :=
  { s.objStore { l.obj with digest := l.dig } l.src with objs := kSet s.objs l.obj.id { l.obj with digest := l.dig } }.placementChanged

/-- … and the partner told of it. -/
def State.finishLoad (s : State) (l : Load) : State := (s.storeLoad l).pairLoaded l.obj.id l.dig

/-- What a load that has passed every check completes with. -/
def Load.okResult (l : Load) : Result :=
  { status := St.ok, val1 := if l.obj.kind == .pattern then leNat (l.dig.take 8) else 0 }

theorem objStore_eq (s : State) (o : Obj) (bs : List Byte) : ∃ m b, s.objStore o bs = { s with mem := m, bad := b } :=
  foldl_inv (fun t => ∃ m b, t = { s with mem := m, bad := b }) _
    (fun _ _ ⟨_, _, h⟩ => by rw [h]; exact ⟨_, _, rfl⟩) _ s ⟨_, _, rfl⟩

/-- Comparing digests with the partner leaves the loads in progress (R611). -/
theorem digestCheck_loads (s : State) (id : Nat) (dig : List Byte) : (s.digestCheck id dig).loads = s.loads := by
  have mismatch : (s.digestMismatch id).loads = s.loads := by
    unfold State.digestMismatch
    split
    · rfl
    · exact (sends_queueEvent _ _).loads
  unfold State.digestCheck
  split
  · split
    · rfl
    · exact mismatch
  · split
    · exact mismatch
    · rfl

theorem pairLoaded_loads (s : State) (id : Nat) (dig : List Byte) : (s.pairLoaded id dig).loads = s.loads := by
  unfold State.pairLoaded
  split
  · obtain ⟨_, _, _, h, -⟩ := tether_eq s { kind := 15, key := [id], data := dig }
    rw [digestCheck_loads, h]
  · rfl

theorem storeLoad_eq (s : State) (l : Load) : ∃ b, s.storeLoad l = { s with
    mem := (s.objStore { l.obj with digest := l.dig } l.src).mem, bad := b
    objs := kSet s.objs l.obj.id { l.obj with digest := l.dig }, gen := s.gen + 1 } := by
  obtain ⟨m, b, h⟩ := objStore_eq s { l.obj with digest := l.dig } l.src
  rw [State.storeLoad, h]
  exact ⟨b, rfl⟩

theorem finishLoad_loads (s : State) (l : Load) : (s.finishLoad l).loads = s.loads := by
  obtain ⟨_, h⟩ := storeLoad_eq s l
  rw [State.finishLoad, pairLoaded_loads, h]

/-- A chip of no pair tells nobody of a load (R611). -/
theorem finishLoad_single {s : State} (h : s.pair.state = 0) (l : Load) : s.finishLoad l = s.storeLoad l := by
  obtain ⟨_, hs⟩ := storeLoad_eq s l
  have hpair : (s.storeLoad l).pair.state = 0 := by rw [hs]; exact h
  simp [State.finishLoad, State.pairLoaded, hpair]

theorem chans_in_service {s : State} {l : Load} (h : ∀ m ∈ l.obj.chans, (s.mc m).repair = none) : l.obj.chans.any s.waits = false :=
  List.any_eq_false.mpr fun m hm => by simp [State.waits, h m hm]

section
variable {s : State} {sq idx : Nat} {l : Load} (hl : s.loads.find? (fun l => l.sq == sq && l.idx == idx) = some l)
include hl

theorem doObjectLoadComplete_waits (ue : Option Nat) (h : ∃ m ∈ l.obj.chans, (s.mc m).repair ≠ none) :
    doObjectLoadComplete sq idx ue s = s := by
  obtain ⟨m, hm, hr⟩ := h
  have hany : l.obj.chans.any s.waits = true := List.any_eq_true.mpr ⟨m, hm, Option.isSome_iff_ne_none.mpr hr⟩
  unfold doObjectLoadComplete
  rw [hl]
  exact if_pos hany

variable (hch : ∀ m ∈ l.obj.chans, (s.mc m).repair = none)
include hch

/-- A load whose read-back meets no error goes by its own checks. -/
theorem doObjectLoadComplete_arrives {ue : Option Nat} (hr : l.readsBack = false ∨ ue = none) : doObjectLoadComplete sq idx ue s =
    (l.outcome ue).elim (((s.dropLoad sq idx).finishLoad l).complete sq idx l.okResult) fun r => (s.dropLoad sq idx).complete sq idx r := by
  unfold doObjectLoadComplete
  rw [hl]
  dsimp only
  rw [if_neg (Bool.eq_false_iff.mp (chans_in_service hch))]
  cases ue with
  | none => cases l.outcome none <;> rfl
  | some x =>
    have hno : ¬ l.readsBack = true := Bool.eq_false_iff.mp (hr.resolve_right (Option.some_ne_none x))
    dsimp only
    rw [if_neg hno]
    cases l.outcome (some x) <;> rfl

/-- One whose read-back meets an uncorrectable error goes by that error (R544). -/
theorem doObjectLoadComplete_readBack {x : Nat} {r : Result} (hb : l.readsBack = true) (ho : l.outcome (some x) = some r) :
    doObjectLoadComplete sq idx (some x) s = ((s.readBackError l.obj x).dropLoad sq idx).complete sq idx r := by
  unfold doObjectLoadComplete
  rw [hl]
  dsimp only
  rw [if_neg (Bool.eq_false_iff.mp (chans_in_service hch)), if_pos hb, ho]
end

theorem outcome_readBack {l : Load} (h : l.readsBack = true) (x : Nat) : ∃ r, l.outcome (some x) = some r ∧ r.status = St.memUe := by
  have hparts : (l.obj.kind = .pattern ∧ l.deep = true) ∧ worstFail (lateFails (rdList l.src) (hdrOf (rdList l.src)) l.dig) = none := by
    simpa [Load.readsBack] using h
  obtain ⟨⟨hk, hdeep⟩, hlate⟩ := hparts
  unfold Load.outcome
  simp only [hk, hlate, hdeep, if_true]
  refine ⟨_, rfl, ?_⟩
  split <;> rfl

/-! ### What a memory error leaves of device memory (R543-R550) -/

@[simp] theorem mem_foldl {β : Type} {f : State → β → State} (h : ∀ a x, (f a x).mem = a.mem) (l : List β) (s : State) :
    (l.foldl f s).mem = s.mem := foldl_keep State.mem f h l s
@[simp] theorem mirror_mem (s : State) (i : MItem) : (s.mirror i).mem = s.mem := by
  obtain ⟨_, _, _, h⟩ := mirror_eq s i; rw [h]
@[simp] theorem degrade_mem (s : State) (a b c : Nat) : (s.degrade a b c).mem = s.mem := by
  obtain ⟨_, _, _, _, h⟩ := degrade_eq s a b c; rw [h]
@[simp] theorem loseObjects_mem (s : State) (m : Nat) : (s.loseObjects m).mem = s.mem := by
  unfold State.loseObjects
  simp [State.dropLinks, State.freeCopies]
@[simp] theorem retireChannel_mem (s : State) (m : Nat) : (s.retireChannel m).mem = s.mem := by
  unfold State.retireChannel
  have cut : ∀ (l : List Nat) (u : State), (l.foldl (fun s g => s.cutSlice g 0 St.hwFault) u).mem = u.mem := mem_foldl fun _ _ => rfl
  split
  · rfl
  · simp [cut, State.placementChanged]
@[simp] theorem candidate_mem (s : State) (m : Nat) (br : Nat × Nat) : (s.candidate m br).mem = s.mem := by
  unfold State.candidate
  exact ite_keep State.mem rfl (ite_keep State.mem rfl (ite_keep State.mem (log_mem _ _ _) (retireChannel_mem _ _)))
@[simp] theorem logDetect_mem (s : State) (d : Detect) : (s.logDetect d).mem = s.mem := by
  unfold State.logDetect
  dsimp only
  (repeat' split) <;> rfl

section
variable (s : State) (d : Detect) (h : d.ue = true)
include h

/-- An uncorrectable error touches no byte of device memory … -/
theorem detected_ue_mem : (s.detected d).mem = s.mem := by
  unfold State.detected State.memError
  simp only [h, if_true, reportAt_mem, candidate_mem, incRf_mem, logDetect_mem]
  split <;> rfl

/-- … and is reported as MEM_UE with its requester (R544). -/
theorem detected_ue_reports : ∃ p ∈ (s.detected d).collector.reports, p.src = 18 ∧ p.req = d.req := by
  unfold State.detected State.memError
  simp only [h, if_true]
  exact ⟨_, List.mem_append_right _ (List.mem_singleton.mpr rfl), rfl, rfl⟩
end

/-- Settles O33: a load by the check that it fails or the place that it finds, its end by its outcome. -/
theorem objectsLoaded : Obligations.ObjectsLoaded := by
  refine ⟨fun s sq idx d bs hd hbus hlen => ?_, fun s sq idx d bs flow hd hbus hlen => ?_, fun s sq idx ue l hl =>
    ⟨fun hw => congrArg Host.Outcome.next (doObjectLoadComplete_waits hl ue hw), fun hch hr => ?_, fun x hch hb hx => ?_⟩⟩
  · refine ⟨doLoadPattern sq idx (some bs) s, s.patternBodyOk d, rfl, rfl, fun hok => ?_, fun f hok hf => ?_, fun hok hf =>
      ⟨fun hp => ?_, fun set base hp => ?_⟩⟩
    · rw [doLoadPattern_bad hd hok]
      exact ⟨rfl, (sends_finish _ _ _ _).loads, (sends_finish _ _ _ _).objs⟩
    · rw [doLoadPattern_read hd hbus hlen hok, hf]
      exact ⟨rfl, (sends_complete _ _ _ _).loads, (sends_complete _ _ _ _).objs⟩
    · rw [doLoadPattern_read hd hbus hlen hok, hf, hp]
      exact ⟨rfl, (sends_complete _ _ _ _).loads, (sends_complete _ _ _ _).objs⟩
    · rw [doLoadPattern_read hd hbus hlen hok, hf, hp]
      exact ⟨patternLoad sq idx d bs set base, rfl, rfl, rfl, rfl, rfl, rfl, rfl, rfl, rfl, rfl, rfl, rfl, begin_desc hd.1,
        rfl, rfl, rfl, rfl⟩
  · have hkind : (otherKind flow == .flow) = flow := by cases flow <;> rfl
    refine ⟨_, exec_loadOther flow sq idx (some bs) s, fun hok => ?_, fun hok => ⟨fun f hf => ?_, fun hf => ⟨fun hp => ?_,
      fun m base hp => ?_⟩⟩⟩
    · rw [loadOther_bad hd hok]
      exact ⟨rfl, (sends_finish _ _ _ _).loads, (sends_finish _ _ _ _).objs⟩
    · rw [loadOther_read hd hbus hlen hok, hkind, hf]
      exact ⟨rfl, (sends_complete _ _ _ _).loads, (sends_complete _ _ _ _).objs⟩
    · rw [loadOther_read hd hbus hlen hok, hkind, hf, hp]
      exact ⟨rfl, (sends_complete _ _ _ _).loads, (sends_complete _ _ _ _).objs⟩
    · rw [loadOther_read hd hbus hlen hok, hkind, hf, hp]
      exact ⟨⟨_, rfl, rfl⟩, begin_desc hd.1, rfl, rfl, rfl, rfl⟩
  · refine ⟨_, congrArg Host.Outcome.next (doObjectLoadComplete_arrives hl hch hr), ?_, ?_, fun r ho => ?_, fun ho hs => ?_⟩
    · cases l.outcome ue
      · exact (sends_complete _ _ _ _).loads.trans (finishLoad_loads _ _)
      · exact (sends_complete _ _ _ _).loads
    · cases l.outcome ue <;> exact complete_desc _ _ _ _
    · rw [ho]
      exact ⟨(sends_complete _ _ _ _).objs, (sends_complete _ _ _ _).mem, rfl⟩
    · obtain ⟨_, hstore⟩ := storeLoad_eq (s.dropLoad sq idx) l
      have hsend := sends_complete ((s.dropLoad sq idx).storeLoad l) sq idx l.okResult
      rw [ho, Option.elim_none, finishLoad_single (s := s.dropLoad sq idx) hs, hsend.objs, hsend.mem, hsend.gen, hsend.regions, hsend.sites,
        hsend.bursts, hstore]
      exact ⟨kGet_kSet_same _ _ _, fun i hi => kGet_kSet_ne _ _ hi, rfl, rfl, rfl, rfl, rfl⟩
  · subst hx
    obtain ⟨r, ho, hst⟩ := outcome_readBack hb x
    obtain ⟨p, hp, hsrc, hreq⟩ := detected_ue_reports s
      { addr := devAddr (l.obj.place x).1 (l.obj.place x).2, req := 0x41, access := 0, ue := true } rfl
    exact ⟨_, s.readBackError l.obj x, r, p, congrArg Host.Outcome.next (doObjectLoadComplete_readBack hl hch hb ho), rfl, hp, hsrc, hreq,
      detected_ue_mem s _ rfl, ho, hst, rfl⟩

end Sys2Proof.Machine
end

