-- ==== Sys2Proof/Proofs/Reel.lean ====
section
namespace Sys2Proof.Machine

/-! SUPPORT. What a word of the Reel does once its issuer executes it (R133-R147, R153, R166, R168), and the statement about it. -/

/-! ### The expansion queue (R134) -/

theorem nthRun_eq_none {l : List Run} {k : Nat} : nthRun l k = none ↔ (l.map Run.count).sum ≤ k := by
  induction l generalizing k with
  | nil => simp [nthRun]
  | cons r l ih =>
    simp only [nthRun, List.map_cons, List.sum_cons]
    split
    · simp only [reduceCtorEq, false_iff]; omega
    · rw [ih]; omega

/-- A sequencer whose issuer is in that cycle, and whose expansion queue has those places. -/
def Seq.placed (q : Seq) (i : Issuer) (a : List Nat) : Seq := { q with iss := i, avail := a }

/-- Filling the expansion queue changes the issuer's cycle and the queue's places alone. -/
theorem Cx.fill_eq (c : Cx) (n : Nat) (q : Seq) : ∃ i a, c.fill n q = q.placed i a := by
  induction n generalizing q with
  | zero => exact ⟨_, _, rfl⟩
  | succ n ih =>
    rw [Cx.fill]
    split
    · exact ⟨_, _, rfl⟩
    · split
      · exact ⟨_, _, rfl⟩
      · split <;> exact ih _

/-- As many formed vectors enter it as its 32 places and the steps allow. -/
theorem Cx.fill_length (c : Cx) (n : Nat) (q : Seq) :
    (c.fill n q).avail.length = max q.avail.length (min (min 32 (q.avail.length + n)) (q.queue.map Run.count).sum) := by
  induction n generalizing q with
  | zero => simp only [Cx.fill]; omega
  | succ n ih =>
    rw [Cx.fill]
    split
    · omega
    · next hroom =>
      split
      · next hnone =>
        have := nthRun_eq_none.mp hnone
        omega
      · next r k hsome =>
        have hsum : q.avail.length < (q.queue.map Run.count).sum := by
          by_contra hle
          simp [nthRun_eq_none.mpr (Nat.not_lt.mp hle)] at hsome
        split <;> simp only [ih, List.length_append, List.length_singleton] <;> omega

/-! ### Taking a word (R134, R183) -/

/-- The word that has entered the instruction window is still the word at the program index. -/
@[simp] theorem Cx.word_take (c : Cx) (q : Seq) : c.word (c.take q) = c.word q := by
  simp [Cx.word, Cx.wordAt, Cx.take]

theorem Cx.mem_window_take (c : Cx) (q : Seq) : (q.pc, c.word q) ∈ (c.take q).window := by simp [Cx.take]

theorem Cx.window_take_length (c : Cx) (q : Seq) : (c.take q).window.length ≤ 1024 := List.length_take_le _ _

section
variable (c : Cx) (q : Seq)

@[simp] theorem Cx.take_pc : (c.take q).pc = q.pc := rfl
@[simp] theorem Cx.take_line : (c.take q).line = q.line := rfl
@[simp] theorem Cx.take_issue : (c.take q).issue = q.issue := rfl
@[simp] theorem Cx.take_queue : (c.take q).queue = q.queue := rfl
@[simp] theorem Cx.take_frames : (c.take q).frames = q.frames := rfl
@[simp] theorem Cx.take_calls : (c.take q).calls = q.calls := rfl
@[simp] theorem Cx.take_mux : (c.take q).mux = q.mux := rfl
@[simp] theorem Cx.take_fault : (c.take q).fault = q.fault := rfl
@[simp] theorem Cx.take_clr : (c.take q).clr = q.clr := rfl
@[simp] theorem Cx.take_avail : (c.take q).avail = q.avail := rfl
@[simp] theorem Cx.take_inBody : (c.take q).inBody = q.inBody := rfl
@[simp] theorem Cx.take_rewound : (c.take q).rewound = q.rewound := rfl
end

/-! ### Emission (R141, R146, R147) -/

/-- The multiplex after the word at the program index: SET_MUX sets it (R146). -/
def Cx.muxAfter (c : Cx) (q : Seq) : Nat := if wOp (c.word q) = 0x0C then wArg (c.word q) % 8 else q.mux

/-- The runs of vectors that the word at the program index forms. -/
def Cx.formed (c : Cx) (q : Seq) : List Run :=
  (c.runs { q with mux := c.muxAfter q } (c.word q) ((c.reached q).map (fun i => (i, q.steer)))).map (fun r => { r with body := q.inBody })

/-- A match frame that keeps runs for its replays, where they need no decoding and pass no resume point again (R105, R157). -/
def Frame.keep (f : Frame) (rs : List Run) : Frame := { f with body := f.body ++ rs.map (fun r => { r with dec := false, rp := none }) }

theorem Frame.keep_b (f : Frame) (rs : List Run) : (f.keep rs).b = f.b + (rs.map Run.count).sum := by
  simp [Frame.keep, Frame.b, Function.comp_def]

/-- What emission leaves, field by field. -/
theorem Cx.emit_eq (c : Cx) (q : Seq) : c.emit q = { q with
    queue := q.queue ++ c.formed q, issue := q.issue + ((c.formed q).map Run.count).sum
    frames := if q.inBody then q.frames.modify 0 (fun f => f.keep (c.formed q)) else q.frames
    mux := c.muxAfter q, line := q.line + wLines (c.word q), alignNext := false, clr := if wClrf (c.word q) then q.issue else q.clr
    marked := (c.emit q).marked, apg := (c.emit q).apg } := by
  unfold Cx.emit Cx.formed Cx.muxAfter
  by_cases h : wOp (c.word q) = 0x0C
  · simp only [h, if_true]; rfl
  · simp only [h, if_false]; rfl

section
variable (c : Cx) (q : Seq)

@[simp] theorem Cx.emit_pc : (c.emit q).pc = q.pc := by rw [Cx.emit_eq]
@[simp] theorem Cx.emit_line : (c.emit q).line = q.line + wLines (c.word q) := rfl
@[simp] theorem Cx.emit_calls : (c.emit q).calls = q.calls := by rw [Cx.emit_eq]
@[simp] theorem Cx.emit_window : (c.emit q).window = q.window := by rw [Cx.emit_eq]
@[simp] theorem Cx.emit_avail : (c.emit q).avail = q.avail := by rw [Cx.emit_eq]
@[simp] theorem Cx.emit_fault : (c.emit q).fault = q.fault := by rw [Cx.emit_eq]
@[simp] theorem Cx.emit_clr : (c.emit q).clr = if wClrf (c.word q) then q.issue else q.clr := rfl
@[simp] theorem Cx.emit_mux : (c.emit q).mux = c.muxAfter q := by rw [Cx.emit_eq]
@[simp] theorem Cx.emit_queue : (c.emit q).queue = q.queue ++ c.formed q := by rw [Cx.emit_eq]

/-- The vectors of the runs are consecutive. -/
theorem Cx.emit_issue : (c.emit q).issue = q.issue + ((c.formed q).map Run.count).sum := by rw [Cx.emit_eq]

/-- Outside a match body emission keeps no run for a replay (R157). -/
theorem Cx.emit_frames (h : q.inBody = false) : (c.emit q).frames = q.frames := by rw [Cx.emit_eq]; simp [h]

/-- In one, the innermost frame keeps them. -/
theorem Cx.emit_frames_body {f : Frame} {r : List Frame} (hf : q.frames = f :: r) (h : q.inBody = true) :
    (c.emit q).frames = f.keep (c.formed q) :: r := by
  rw [Cx.emit_eq]; simp [h, hf]

/-- Every run of a word starts at the line cursor, with the word's index and timing set. -/
theorem Cx.formed_place : ∀ r ∈ c.formed q, r.line = q.line ∧ r.word = q.pc ∧ r.tset = wTset (c.word q) := by
  unfold Cx.formed Cx.runs
  dsimp only
  split
  · simp
  · split <;> simp

/-- RPT repeats one line, SET_MUX forms 8 pad vectors before its lines, and every other word takes its lines in turn (R141, R146). -/
theorem Cx.formed_shape : (c.formed q).map (fun r => (r.count, r.step, r.pad, r.mux)) =
    (if wOp (c.word q) = 2 then [(wCount (c.word q), false, false, q.mux)]
      else if wOp (c.word q) = 0x0C then [(8, true, true, wArg (c.word q) % 8), (wLines (c.word q), true, false, wArg (c.word q) % 8)]
      else [(wLines (c.word q), true, false, q.mux)]) := by
  unfold Cx.formed Cx.runs Cx.muxAfter
  dsimp only
  split
  · next h => simp [h]
  · split <;> simp [*]

/-- A word with neither a repeat nor pad vectors forms one vector for each of its lines. -/
theorem Cx.formed_count (h2 : wOp (c.word q) ≠ 2) (hc : wOp (c.word q) ≠ 0x0C) : ((c.formed q).map Run.count).sum = wLines (c.word q) := by
  have h := congrArg (fun l => (l.map (fun x : Nat × Bool × Bool × Nat => x.1)).sum) (c.formed_shape q)
  simpa [h2, hc, Function.comp_def] using h

theorem Cx.emit_issue_lines (h2 : wOp (c.word q) ≠ 2) (hc : wOp (c.word q) ≠ 0x0C) :
    (c.emit q).issue = q.issue + wLines (c.word q) := by
  rw [Cx.emit_issue, Cx.formed_count c q h2 hc]
end

/-! ### The checks (R139, R168) -/

section
variable {c : Cx} {q : Seq} (hpc : q.pc < c.h.nInstr) (hok : c.wordCodes q = [])
include hpc hok

/-- In a match body only VEC, RPT and MEND pass (check 0x4F). -/
theorem Cx.op_of_inBody (hb : q.inBody = true) : wOp (c.word q) = 1 ∨ wOp (c.word q) = 2 ∨ wOp (c.word q) = 6 := by
  have h : 0x4F ∉ c.wordCodes q := by simp [hok]
  by_contra hne
  simp only [not_or] at hne
  exact h (by simp [Cx.wordCodes, Nat.not_le.mpr hpc, hb, hne])

theorem Cx.not_inBody {op : Nat} (hw : wOp (c.word q) = op) (h1 : op ≠ 1) (h2 : op ≠ 2) (h6 : op ≠ 6) : q.inBody = false := by
  by_contra hb
  have := c.op_of_inBody hpc hok (by simpa using hb)
  omega

/-- So every other word leaves the frames to its own effect. -/
theorem Cx.emit_take_frames {op : Nat} (hw : wOp (c.word q) = op) (h : op ≠ 1 ∧ op ≠ 2 ∧ op ≠ 6) :
    (c.emit (c.take q)).frames = q.frames :=
  c.emit_frames (c.take q) (c.not_inBody hpc hok hw h.1 h.2.1 h.2.2 : q.inBody = false)

/-- ENDL closes a loop frame, MEND a match frame (check 0x44). -/
theorem Cx.frame_of_end {f : Frame} {r : List Frame} (hf : q.frames = f :: r) :
    (wOp (c.word q) = 4 → f.isMatch = false) ∧ (wOp (c.word q) = 6 → f.isMatch = true) := by
  have h : 0x44 ∉ c.wordCodes q := by simp [hok]
  refine ⟨fun hw => ?_, fun hw => ?_⟩
  · by_contra hm
    exact h (by simp [Cx.wordCodes, Nat.not_le.mpr hpc, hw, hf, hm, reelOp])
  · by_contra hm
    exact h (by simp [Cx.wordCodes, Nat.not_le.mpr hpc, hw, hf, hm, reelOp])
end

/-! ### A frame that opens (R142, R157) -/

/-- The sequencer with a frame opened. -/
def Seq.openFrame (q : Seq) (f : Frame) : Seq := { q with frames := f :: q.frames }

section
variable (c : Cx) (q : Seq) (f : Frame)
@[simp] theorem Cx.word_openFrame : c.word (q.openFrame f) = c.word q := rfl
@[simp] theorem Seq.openFrame_pc : (q.openFrame f).pc = q.pc := rfl
@[simp] theorem Seq.openFrame_issue : (q.openFrame f).issue = q.issue := rfl
@[simp] theorem Seq.openFrame_window : (q.openFrame f).window = q.window := rfl
@[simp] theorem Seq.openFrame_avail : (q.openFrame f).avail = q.avail := rfl
@[simp] theorem Seq.openFrame_frames : (q.openFrame f).frames = f :: q.frames := rfl
@[simp] theorem Seq.openFrame_inBody : (q.openFrame f).inBody = (f.isMatch && !f.full) := rfl
end

/-! ### A word that the issuer may execute -/

theorem sliceOnly_upSeq (s : State) (g : Nat) (f : Seq → Seq) : Safety.sliceOnly s (s.upSeq g f) g :=
  ⟨rfl, fun _ hk => upSl_sl_ne _ _ hk⟩

section
variable {s : State} {n sl g w op : Nat} {c : Cx} {q : Seq} (hi : Safety.issues s n sl g c q w)
include hi

theorem issues_slices : g < s.slices.length := by
  obtain ⟨hn, hsl, hg, -, -, -, -, hsh⟩ := hi
  rw [hsh.2.1]
  omega

/-- The sequencer after a word, or after a repetition: what the word made of it, with the queue filled up. -/
theorem issues_seq (p : Seq) : ∃ i a, ((s.upSeq g (fun _ => c.fill 32 p)).sl g).seq = p.placed i a := by
  obtain ⟨i, a, hf⟩ := c.fill_eq 32 p
  exact ⟨i, a, by rw [upSeq_sl_same _ (issues_slices hi), hf]⟩

/-- Once the word is in the window and the queue filled up, it has been executed. -/
theorem issues_executed {p : Seq} (hw : p.window = (c.take q).window) (ha : p.avail = q.avail) :
    Safety.executed s (s.upSeq g (fun _ => c.fill 32 p)) g w := by
  have hlen := c.fill_length 32 p
  obtain ⟨i, a, hf⟩ := c.fill_eq 32 p
  obtain ⟨-, -, -, -, hq, hword, -, -⟩ := id hi
  refine ⟨sliceOnly_upSeq _ _ _, ?_⟩
  rw [upSeq_sl_same _ (issues_slices hi), ← hq]
  simp only [hf, Seq.placed, hw, hword] at hlen ⊢
  exact ⟨c.mem_window_take q, le_max_of_le_left (c.window_take_length q), by rw [hlen, ha]; omega⟩

/-- A command of a Reel word finds its word, or one that no command names (log entry 21). -/
theorem reelWord_eq (hop : wOp w = op ∨ c.h.nInstr ≤ q.pc ∨ reelOp (wOp w) = false) (act : Cx → Seq → Seq) :
    reelWord n sl op act s = (lowest (c.wordCodes q)).elim (s.upSeq g (fun _ => c.fill 32 (act c (c.take q))))
      (fun k => s.upSeq g (fun _ => c.fill 32 (c.stopOn (c.take q) k))) := by
  obtain ⟨hn, hsl, hg, hc, hq, hword, hmay, -⟩ := hi
  have hfinds : (decide (q.pc < c.h.nInstr) && reelOp (wOp w) && decide (wOp w ≠ op)) = false := by
    rcases hop with h | h | h
    · simp [h]
    · simp [Nat.not_lt.mpr h]
    · simp [h]
  unfold reelWord
  simp only [gOf_eq hn hsl, ← hg, hc, ← hq, ← hword, hmay, hfinds, Bool.not_true, Bool.or_false, Bool.false_eq_true, if_false]
  cases lowest (c.wordCodes q) <;> rfl

/-- A word that passes the checks has the effect of its opcode, which keeps the window and the places of the queue, on the sequencer that
has taken it. -/
theorem exec_passes {i : Instr} {act : Cx → Seq → Seq} (hop : wOp w = op) (hok : c.wordCodes q = [])
    (hexec : exec i s = .next (reelWord n sl op act s)) (hw : (act c (c.take q)).window = (c.take q).window)
    (ha : (act c (c.take q)).avail = q.avail) :
    ∃ t i' a, exec i s = .next t ∧ (t.sl g).seq = (act c (c.take q)).placed i' a ∧ Safety.executed s t g w := by
  obtain ⟨i', a, hs⟩ := issues_seq hi (act c (c.take q))
  exact ⟨_, i', a, hexec.trans (congrArg _ (by rw [reelWord_eq hi (.inl hop), hok]; rfl)), hs, issues_executed hi hw ha⟩
end

/-- Stopping on a check sets the fault, at the next vector, and changes no other field but the queue (R169). -/
theorem Cx.stopOn_eq (c : Cx) (q : Seq) (k : Nat) : ∃ l, c.stopOn q k = { q with fault := some (q.issue, k), queue := l } := by
  unfold Cx.stopOn
  dsimp only
  split <;> exact ⟨_, rfl⟩

theorem exec_reelWords {n sl op : Nat} {i : Instr} (h : (i, op) ∈ Safety.reelWords n sl) :
    ∃ act, ∀ s, exec i s = .next (reelWord n sl op act s) := by
  simp only [Safety.reelWords, List.mem_cons, Prod.mk.injEq, List.not_mem_nil, or_false] at h
  rcases h with ⟨rfl, rfl⟩ | ⟨rfl, rfl⟩ | ⟨rfl, rfl⟩ | ⟨rfl, rfl⟩ | ⟨rfl, rfl⟩ | ⟨rfl, rfl⟩ | ⟨rfl, rfl⟩ | ⟨rfl, rfl⟩ | ⟨rfl, rfl⟩ |
    ⟨rfl, rfl⟩ | ⟨rfl, rfl⟩ | ⟨rfl, rfl⟩ | ⟨rfl, rfl⟩ <;> exact ⟨_, fun _ => rfl⟩

/-- VEC, RPT, SET_MUX and APGV form their vectors and go on at the next word. -/
theorem exec_vectorWords {n sl op : Nat} {i : Instr}
    (h : (i, op) ∈ [(Instr.vec n sl, 1), (.rpt n sl, 2), (.setMux n sl, 0x0C), (.apgv n sl, 0x0D)]) (s : State) :
    exec i s = .next (reelWord n sl op (fun c q => (c.emit q).nextWord) s) := by
  simp only [List.mem_cons, Prod.mk.injEq, List.not_mem_nil, or_false] at h
  rcases h with ⟨rfl, rfl⟩ | ⟨rfl, rfl⟩ | ⟨rfl, rfl⟩ | ⟨rfl, rfl⟩ <;> rfl

/-- BRF and BRP are one word but for their sense. -/
theorem exec_branchWords {n sl op : Nat} {i : Instr} (h : (i, op) ∈ [(Instr.brf n sl, 0x0A), (.brp n sl, 0x0B)]) (s : State) :
    exec i s = .next (reelWord n sl op (fun c q => c.branch q (decide (op = 0x0A))) s) := by
  simp only [List.mem_cons, Prod.mk.injEq, List.not_mem_nil, or_false] at h
  rcases h with ⟨rfl, rfl⟩ | ⟨rfl, rfl⟩ <;> rfl

/-- A LOOP that is not a rewound one opens a frame with COUNT (R142). -/
theorem exec_reelLoop (n sl : Nat) (s : State) : exec (.reelLoop n sl) s = .next (reelWord n sl 3 (fun c q =>
    (c.emit (if q.rewound then q else q.openFrame
      { isMatch := false, count := wCount (c.word q), word := q.pc, line := q.line, depth := q.calls.length })).nextWord) s) := rfl

/-! ### The statement -/

/-- The first part of the statement: a word that fails a check stops the issuer at its first vector with the lowest code (R168, R169). -/
theorem reelWords_stop {s : State} {n sl g w op k : Nat} {c : Cx} {q : Seq} {i : Instr} (hi : Safety.issues s n sl g c q w)
    (hmem : (i, op) ∈ Safety.reelWords n sl) (hop : wOp w = op ∨ c.h.nInstr ≤ q.pc ∨ reelOp (wOp w) = false)
    (hk : lowest (c.wordCodes q) = some k) : ∃ t, exec i s = .next t ∧ (t.sl g).seq.fault = some (q.issue, k) ∧
      (t.sl g).seq.issue = q.issue ∧ (t.sl g).seq.pc = q.pc ∧ Safety.executed s t g w := by
  obtain ⟨act, hexec⟩ := exec_reelWords hmem
  obtain ⟨l, hstop⟩ := c.stopOn_eq (c.take q) k
  obtain ⟨j, a, hs⟩ := issues_seq hi (c.stopOn (c.take q) k)
  refine ⟨_, (hexec s).trans (congrArg _ (by rw [reelWord_eq hi hop, hk]; rfl)), ?_, ?_, ?_, issues_executed hi ?_ ?_⟩
  · rw [hs, hstop]; rfl
  · rw [hs, hstop]; rfl
  · rw [hs, hstop]; rfl
  · rw [hstop]
  · rw [hstop]; rfl

/-- Settles O38: a word that fails a check stops the issuer; one that passes takes the branch of its opcode on the sequencer. -/
theorem reelWords : Obligations.ReelWords := by
  refine ⟨fun s n sl g w op k c q i hi hmem hop hk => reelWords_stop hi hmem hop hk, fun s n sl g w c q hi hpc hok => ?_⟩
  obtain ⟨-, -, -, -, -, rfl, hmay, -⟩ := id hi
  refine ⟨fun i op hmem hw => ?_, fun hw => ?_, fun f r hw hf => ?_, fun hw => ?_, fun hw => ?_, fun x l r hw hcalls => ?_,
    fun i op hmem hw => ?_, fun hw => ?_⟩
  · obtain ⟨t, j, a, ht, hs, hx⟩ := exec_passes hi hw hok (exec_vectorWords hmem s) (by simp [Seq.nextWord]) (by simp [Seq.nextWord])
    have hplace := c.formed_place (c.take q)
    have hshape := c.formed_shape (c.take q)
    rw [c.word_take] at hplace hshape
    subst hw
    refine ⟨t, c.formed (c.take q), ht, ?_, ?_, ?_, ?_, hplace, hshape, ?_, ?_, hx⟩ <;>
      simp [hs, Seq.placed, Seq.nextWord, Cx.emit_issue, Cx.muxAfter]
  · have hframes := c.emit_take_frames hpc hok hw (by decide)
    obtain ⟨t, j, a, ht, hs, hx⟩ := exec_passes hi hw hok (exec_reelLoop n sl s) (by simp only [Seq.nextWord, Cx.emit_window]; split <;> rfl)
      (by simp only [Seq.nextWord, Cx.emit_avail]; split <;> rfl)
    cases hr : q.rewound <;> simp only [Cx.take_rewound, hr, if_true, Bool.false_eq_true, if_false] at hs
    · refine ⟨t, ht, ?_, ?_, nofun, fun _ => ?_, hx⟩ <;> simp [hs, Seq.placed, Seq.nextWord, Cx.emit_frames, Cx.emit_issue_lines, hw]
    · refine ⟨t, ht, ?_, ?_, fun _ => ?_, nofun, hx⟩ <;> simp [hs, Seq.placed, Seq.nextWord, hframes, Cx.emit_issue_lines, hw]
  · have hframes := (c.emit_take_frames hpc hok hw (by decide)).trans hf
    obtain ⟨t, j, a, ht, hs, hx⟩ := exec_passes (i := .endl n sl) hi hw hok rfl
      (by simp only [hframes]; split <;> simp [Seq.xfer, Seq.nextWord]) (by simp only [hframes]; split <;> simp [Seq.xfer, Seq.nextWord])
    simp only [hframes] at hs
    refine ⟨t, ht, ?_, fun h => ?_, fun h => ?_, hx⟩
    · rw [hs]
      split <;> simp [Seq.placed, Seq.xfer, Seq.nextWord, Cx.emit_issue_lines, hw]
    · rw [hs, if_pos h]
      exact ⟨rfl, rfl, rfl⟩
    · rw [hs, if_neg (Nat.not_lt.mpr h)]
      exact ⟨by simp [Seq.placed, Seq.nextWord], by simp [Seq.placed, Seq.nextWord], rfl⟩
  · have hframes := c.emit_take_frames hpc hok hw (by decide)
    obtain ⟨t, j, a, ht, hs, hx⟩ := exec_passes (i := .jmp n sl) hi hw hok rfl (by simp [Seq.goto, Seq.dropLoops, Seq.xfer])
      (by simp [Seq.goto, Seq.dropLoops, Seq.xfer])
    refine ⟨t, ht, ?_, ?_, ?_, ?_, ?_, hx⟩ <;>
      simp [hs, Seq.placed, Seq.goto, Seq.dropLoops, Seq.xfer, hframes, Cx.emit_issue_lines, hw]
  · have hframes := c.emit_take_frames hpc hok hw (by decide)
    obtain ⟨t, j, a, ht, hs, hx⟩ := exec_passes (i := .call n sl) hi hw hok rfl (by simp [Seq.goto, Seq.xfer]) (by simp [Seq.goto, Seq.xfer])
    refine ⟨t, ht, ?_, ?_, ?_, ?_, ?_, hx⟩ <;> simp [hs, Seq.placed, Seq.goto, Seq.xfer, hframes, Cx.emit_issue_lines, hw]
  · have hframes := c.emit_take_frames hpc hok hw (by decide)
    have hc : (c.emit (c.take q)).dropLoops.calls = (x, l) :: r := by simp [Seq.dropLoops, hcalls]
    obtain ⟨t, j, a, ht, hs, hx⟩ := exec_passes (i := .ret n sl) hi hw hok rfl (by simp only [hc]; simp [Seq.dropLoops, Seq.xfer])
      (by simp only [hc]; simp [Seq.dropLoops, Seq.xfer])
    simp only [hc] at hs
    refine ⟨t, ht, ?_, ?_, ?_, ?_, ?_, hx⟩ <;> simp [hs, Seq.placed, Seq.dropLoops, Seq.xfer, hframes, Cx.emit_issue_lines, hw]
  · obtain ⟨t, j, a, ht, hs, hx⟩ := exec_passes hi hw hok (exec_branchWords hmem s) (by simp [Cx.branch, Seq.nextWord])
      (by simp [Cx.branch, Seq.nextWord])
    have hop : wOp (c.word q) ≠ 2 ∧ wOp (c.word q) ≠ 0x0C := by
      simp only [List.mem_cons, Prod.mk.injEq, List.not_mem_nil, or_false] at hmem
      omega
    refine ⟨t, ht, ?_, ?_, ?_, ?_, ?_, hx⟩ <;>
      simp [hs, Seq.placed, Cx.branch, Cx.branchBuf, Seq.nextWord, Seq.mayIssue, Cx.emit_issue_lines, hop]
  · have hfault : q.fault = none := by
      simp only [Seq.mayIssue, Bool.and_eq_true, Option.isNone_iff_eq_none] at hmay
      tauto
    have hissue := c.emit_issue_lines (c.take q) (by simp [hw]) (by simp [hw])
    rw [c.word_take, c.take_issue] at hissue
    obtain ⟨t, j, a, ht, hs, hx⟩ := exec_passes (i := .reelEnd n sl) hi hw hok rfl (by dsimp only; split <;> simp)
      (by dsimp only; split <;> simp)
    simp only [hissue, c.word_take, Bool.and_eq_true, decide_eq_true_eq] at hs
    refine ⟨t, ht, ?_, ?_, ?_, ?_, hx⟩ <;> rw [hs] <;> split <;> simp [Seq.placed, hfault]

end Sys2Proof.Machine
end

