-- ==== Sys2Proof/Proofs/ReelDecisions.lean ====
section
namespace Sys2Proof.Machine

/-! SUPPORT. How match loops, branches and checkpoints are decided (R153, R157-R160, R162, R174, R175), and the statement about them. -/

/-! ### The words of a match loop (R157) -/

/-- The match frame that the MLOOP at the program index opens. -/
def Cx.matchFrame (c : Cx) (q : Seq) : Frame :=
  { isMatch := true, count := wCount (c.word q), word := q.pc, line := q.line, depth := q.calls.length
    toact := (wArg (c.word q)).testBit 32, start := q.issue }

theorem exec_mloop (n sl : Nat) (s : State) :
    exec (.mloop n sl) s = .next (reelWord n sl 5 (fun c q => (c.emit (q.openFrame (c.matchFrame q))).nextWord) s) := rfl

theorem Seq.replay_eq {q : Seq} {f : Frame} {r : List Frame} (hf : q.frames = f :: r) : q.replay = { q with
    queue := q.queue ++ f.body.modify 0 (fun b => { b with fresh := true }), issue := q.issue + f.b
    frames := { f with full := true, iter := f.iter + 1 } :: r } := by
  simp [Seq.replay, hf]

/-- An update of a slice's sequencer takes effect. -/
theorem upSeq_seq {s : State} {g : Nat} {q : Seq} (hq : q = (s.sl g).seq) (hg : g < s.slices.length) (f : Seq → Seq) :
    ((s.upSeq g f).sl g).seq = f q := by
  rw [upSeq_sl_same _ hg, hq]

/-! ### CL_n_SEQ_MATCH_s and CL_n_SEQ_CKPT_s (R174, R175) -/

section
variable (s : State) (g iter word : Nat) (timeout : Bool)

theorem setMatch_iter : (s.setMatch g iter word timeout).rf F.CL_SEQ_MATCH_ITER [g / 4, g % 4] = iter % 2 ^ 32 := by
  unfold State.setMatch
  rw [rf_setRf_disjoint _ F.CL_SEQ_MATCH_TIMEOUT F.CL_SEQ_MATCH_ITER _ _ _ rfl (by decide) (by decide),
    rf_setRf_disjoint _ F.CL_SEQ_MATCH_WORD F.CL_SEQ_MATCH_ITER _ _ _ rfl (by decide) (by decide),
    rf_setRf_same _ _ _ _ (by decide)]
  rfl

theorem setMatch_word : (s.setMatch g iter word timeout).rf F.CL_SEQ_MATCH_WORD [g / 4, g % 4] = word % 2 ^ 24 := by
  unfold State.setMatch
  rw [rf_setRf_disjoint _ F.CL_SEQ_MATCH_TIMEOUT F.CL_SEQ_MATCH_WORD _ _ _ rfl (by decide) (by decide), rf_setRf_same _ _ _ _ (by decide)]
  rfl

theorem setMatch_timeout : (s.setMatch g iter word timeout).rb F.CL_SEQ_MATCH_TIMEOUT [g / 4, g % 4] = timeout :=
  rb_setRf_same _ _ _ _ (by decide) rfl

/-- The end of a match loop on slice sl of cluster n: its register shows it, and besides that only the sequencer has changed. -/
theorem setMatch_upSeq {n sl : Nat} (hg : g = 4 * n + sl) (hsl : sl < 4) (act : Seq → Seq) :
    let t := (s.setMatch g iter word timeout).upSeq g act
    t.rf F.CL_SEQ_MATCH_ITER [n, sl] = iter % 2 ^ 32 ∧ t.rf F.CL_SEQ_MATCH_WORD [n, sl] = word % 2 ^ 24 ∧
      t.rb F.CL_SEQ_MATCH_TIMEOUT [n, sl] = timeout ∧ (∀ k, k ≠ g → t.sl k = s.sl k) ∧ t.mem = s.mem := by
  have hregs : ((s.setMatch g iter word timeout).upSeq g act).regs = (s.setMatch g iter word timeout).regs := rfl
  have hn : n = g / 4 := by omega
  have hs : sl = g % 4 := by omega
  rw [hn, hs]
  exact ⟨(rf_congr hregs _ _).trans (setMatch_iter s g iter word timeout), (rf_congr hregs _ _).trans (setMatch_word s g iter word timeout),
    (rb_congr hregs _ _).trans (setMatch_timeout s g iter word timeout), fun k hk => upSl_sl_ne _ _ hk, rfl⟩

/-- The sequencer takes that update. -/
theorem setMatch_upSeq_seq (hg : g < s.slices.length) (act : Seq → Seq) :
    (((s.setMatch g iter word timeout).upSeq g act).sl g).seq = act (s.sl g).seq :=
  upSeq_seq (s := s.setMatch g iter word timeout) rfl hg act

theorem setCkptReg_vec (k : Ckpt) : (s.setCkptReg g (some k)).rf F.CL_SEQ_CKPT_VEC [g / 4, g % 4] = k.vec % 2 ^ 48 := by
  unfold State.setCkptReg
  dsimp only
  rw [rf_setRf_disjoint _ F.CL_SEQ_CKPT_VALID F.CL_SEQ_CKPT_VEC _ _ _ rfl (by decide) (by decide),
    rf_setRf_disjoint _ F.CL_SEQ_CKPT_RP_ID F.CL_SEQ_CKPT_VEC _ _ _ rfl (by decide) (by decide),
    rf_setRf_same _ _ _ _ (by decide)]
  rfl

theorem setCkptReg_valid (k : Ckpt) : (s.setCkptReg g (some k)).rb F.CL_SEQ_CKPT_VALID [g / 4, g % 4] = true :=
  rb_setRf_same _ _ _ true (by decide) rfl
end

/-! ### The evaluation of an iteration (R158-R160) -/

/-- The sequencer with further vector ranges that decisions have used (R583). -/
def Seq.noteDecided (q : Seq) (l : List (Nat × Nat)) : Seq := { q with decided := q.decided ++ l }

/-- The match-body fails charged to a vector from lo to hi. -/
def Cx.failsIn (c : Cx) (lo hi : Nat) : List (Nat × Nat × Nat) := c.b.mfail.filter (fun p => lo ≤ p.2.2 && p.2.2 ≤ hi)

theorem Cx.failsIn_isEmpty {c : Cx} {lo hi : Nat} :
    (c.failsIn lo hi).isEmpty = true ↔ ∀ p ∈ c.b.mfail, ¬ (lo ≤ p.2.2 ∧ p.2.2 ≤ hi) := by
  simp [Cx.failsIn]

/-- The sequencer after a match loop whose iteration of vectors lo to hi has matched (R159). -/
def Cx.matched (c : Cx) (q : Seq) (lo hi : Nat) : Seq := { c.leaveLoop (q.noteDecided [(lo, hi)]) with matchAt := some q.issue }

/-- The sequencer after a match loop of slice g that has timed out at that iteration: with TOACT the body's last vector is charged and the
loop left, else the burst ends before the next vector (R160). -/
def Cx.timedOut (c : Cx) (q : Seq) (g : Nat) (toact : Bool) (lo hi : Nat) : Seq :=
  if toact then { c.leaveLoop (q.noteDecided [(lo, hi)]) with
    charge := some (q.issue - 1, (((c.failsIn lo hi).filter (fun p => p.2.1 = g)).map (·.1)).dedup) }
  else { q.noteDecided [(lo, hi)] with ended := true, cuts := q.cuts ++ [(q.issue, 0x20)] }

section
variable {s : State} {g d i lo hi : Nat} {c : Cx} {q : Seq} {f : Frame}

theorem evalMatch_early (h : f.iter < matchD q.hzn f.b) : s.evalMatch g c q f = s.upSeq g (fun q => c.fill 32 q.replay) := by
  unfold State.evalMatch
  exact if_pos h

variable (hd : d = matchD q.hzn f.b) (hi' : i = f.iter - d) (hlo : lo = f.start + i * f.b) (hhi : hi = lo + f.b - 1) (hle : d ≤ f.iter)
include hd hi' hlo hhi hle

/-- An iteration whose vectors have not all started on every slice is not decided yet. -/
theorem evalMatch_waits (h : ∃ k ∈ s.entSlices c.b.ent, (s.sl k).seq.next ≤ hi) : s.evalMatch g c q f = s := by
  subst hd hi' hlo hhi
  unfold State.evalMatch
  rw [if_neg (Nat.not_lt.mpr hle)]
  exact if_pos (by simpa using h)

/-- One whose vectors have started is decided by its fails. -/
theorem evalMatch_decides (h : ∀ k ∈ s.entSlices c.b.ent, hi < (s.sl k).seq.next) : s.evalMatch g c q f =
    if (c.failsIn lo hi).isEmpty then (s.setMatch g i f.word false).upSeq g (fun _ => c.matched q lo hi)
    else if i + 1 < f.count then s.upSeq g (fun _ => c.fill 32 (q.noteDecided [(lo, hi)]).replay)
    else (s.setMatch g (f.count - 1) f.word true).upSeq g (fun _ => c.timedOut q g f.toact lo hi) := by
  subst hd hi' hlo hhi
  unfold State.evalMatch
  rw [if_neg (Nat.not_lt.mpr hle)]
  refine (if_neg (by simpa using h)).trans ?_
  cases f.toact <;> rfl
end

/-- The body is replayed while no iteration is due, and where the one that is due failed and another may follow (R159, R160). -/
theorem evalMatch_replays {s : State} {g d i lo hi : Nat} {c : Cx} {q : Seq} {f : Frame} (hd : d = matchD q.hzn f.b) (hi' : i = f.iter - d)
    (hlo : lo = f.start + i * f.b) (hhi : hi = lo + f.b - 1)
    (h : f.iter < d ∨ d ≤ f.iter ∧ (∀ k ∈ s.entSlices c.b.ent, hi < (s.sl k).seq.next) ∧
      (∃ p ∈ c.b.mfail, lo ≤ p.2.2 ∧ p.2.2 ≤ hi) ∧ i + 1 < f.count) :
    ∃ act l, s.evalMatch g c q f = s.upSeq g act ∧ act q = c.fill 32 (q.noteDecided l).replay := by
  rcases h with h | ⟨hle, hst, hbad, hct⟩
  · exact ⟨_, [], evalMatch_early (hd ▸ h), by simp [Seq.noteDecided]⟩
  · refine ⟨fun _ => c.fill 32 (q.noteDecided [(lo, hi)]).replay, _, ?_, rfl⟩
    rw [evalMatch_decides hd hi' hlo hhi hle hst, if_neg (mt Cx.failsIn_isEmpty.mp (by simpa using hbad)), if_pos hct]

section
variable {s : State} {n sl g w : Nat} {c : Cx} {q : Seq} {f : Frame} {r : List Frame} (hi : Safety.issues s n sl g c q w)
  (hf : q.frames = f :: r)
include hi hf

/-- The first MEND of a match loop is a word like the others … -/
theorem exec_mend_first (hfull : f.full = false) :
    exec (.mend n sl) s = .next (reelWord n sl 6 (fun c q => (c.emit q).replay) s) := by
  obtain ⟨hn, hsl, hg, hc, hq, -, -, -⟩ := hi
  refine congrArg Host.Outcome.next ?_
  unfold doMend
  simp only [gOf_eq hn hsl, ← hg, hc, ← hq, hf, hfull, Bool.and_false, Bool.false_eq_true, if_false]

/-- … and every later one evaluates an iteration (R159). -/
theorem exec_mend_again (hm : f.isMatch = true) (hfull : f.full = true) : exec (.mend n sl) s = .next (s.evalMatch g c q f) := by
  obtain ⟨hn, hsl, hg, hc, hq, -, hmay, -⟩ := hi
  refine congrArg Host.Outcome.next ?_
  unfold doMend
  simp only [gOf_eq hn hsl, ← hg, hc, ← hq, hf, hm, hfull, hmay, Bool.and_true, if_true]
end

/-! ### Branches (R153) -/

/-- The sequencer once its branch is decided: fails lie in the range from the accumulator's start to the horizon, or not. -/
def Seq.branched (q : Seq) (hd : Held) (fails : Bool) : Seq :=
  let q1 := { q.choosePath (fails = hd.isF) with
    decided := if q.hzn ≤ hd.steer then q.decided ++ [(q.clr, hd.steer - q.hzn)] else q.decided }
  if fails = hd.isF then q1.dropLoops.goto hd.word hd.block else q1

theorem exec_branchDecision {s : State} {n sl g : Nat} {c : Cx} {q : Seq} {hd : Held} (hn : n < 12) (hsl : sl < 4) (hg : g = 4 * n + sl)
    (hc : s.cx g = some c) (hq : q = (s.sl g).seq) (hh : q.held = some hd) (he : q.endAt = none)
    (hst : ∀ k ∈ s.entSlices c.b.ent, hd.steer < (s.sl k).seq.next + q.hzn) :
    exec (.branchDecision n sl) s = .next (s.upSeq g (fun _ =>
      q.branched hd (decide (q.hzn ≤ hd.steer) && winHas c.b.wins q.clr (hd.steer - q.hzn)))) := by
  have hall : (s.entSlices c.b.ent).all (fun k => decide (hd.steer < (s.sl k).seq.next + q.hzn)) = true := by simpa using hst
  refine congrArg Host.Outcome.next ?_
  unfold doBranchDecision
  simp only [gOf_eq hn hsl, ← hg, hc, ← hq, hh, he, hall, Option.isSome_none, Bool.not_true, Bool.or_false, Bool.false_eq_true, if_false]
  rfl

/-! ### Checkpoints (R162) -/

/-- A pending checkpoint that commits keeps its vector and resume point, and the register shows it; nothing is mirrored. -/
theorem commitCkpt_eq {s : State} {g : Nat} {c : Cx} {k : Ckpt} (hk : (s.sl g).seq.pendCk = some k) (hm : s.mirroring = false) :
    ∃ k' : Ckpt, k'.vec = k.vec ∧ k'.rp = k.rp ∧
      s.commitCkpt g c = (s.upSeq g (fun q => { q with pendCk := none, ckpt := some k', ckptOld := q.ckpt })).setCkptReg g (some k') := by
  unfold State.commitCkpt
  simp only [hk]
  refine ⟨_, ?_, ?_, mirror_off _ _ (Eq.trans ?_ hm)⟩
  · dsimp only; split <;> rfl
  · dsimp only; split <;> rfl
  · simp only [State.mirroring, (sends_setCkptReg _ _ _).pair, upSeq_pair]

theorem exec_checkpointCommit {s : State} {n sl g : Nat} {c : Cx} {k : Ckpt} (hn : n < 12) (hsl : sl < 4) (hg : g = 4 * n + sl)
    (hc : s.cx g = some c) (hk : (s.sl g).seq.pendCk = some k) (hst : ∀ i ∈ s.entSlices c.b.ent, k.vec ≤ (s.sl i).seq.next) :
    exec (.checkpointCommit n sl) s = .next (s.commitCkpt g c) := by
  have hall : (s.entSlices c.b.ent).all (fun i => decide (k.vec ≤ (s.sl i).seq.next)) = true := by simpa using hst
  refine congrArg Host.Outcome.next ?_
  unfold doCheckpointCommit
  simp only [gOf_eq hn hsl, ← hg, hc, hk, hall, if_true]

/-! ### The statement -/

section
variable {s : State} {n sl g w : Nat} {c : Cx} {q : Seq} (hi : Safety.issues s n sl g c q w) (hpc : q.pc < c.h.nInstr)
  (hok : c.wordCodes q = [])
include hi hok

/-- MLOOP opens a match frame that starts at the vector it emits (R157). -/
theorem mloop_opens (hw : wOp w = 5) : ∃ (t : State) (f : Frame), exec (.mloop n sl) s = .next t ∧ (t.sl g).seq.frames = f :: q.frames ∧
    f.isMatch = true ∧ f.count = wCount w ∧ f.start = q.issue ∧ f.toact = (wArg w).testBit 32 ∧ f.iter = 0 ∧ f.full = false ∧
    f.b = wLines w ∧ (t.sl g).seq.pc = q.pc + 1 ∧ (t.sl g).seq.issue = q.issue + wLines w ∧ Safety.executed s t g w := by
  obtain ⟨-, -, -, -, -, rfl, -, -⟩ := id hi
  obtain ⟨t, j, a, ht, hs, hx⟩ := exec_passes hi hw hok (exec_mloop n sl s) (by simp [Seq.nextWord]) (by simp [Seq.nextWord])
  have hframe : c.matchFrame (c.take q) = c.matchFrame q := by simp [Cx.matchFrame]
  rw [hframe] at hs
  refine ⟨t, (c.matchFrame q).keep (c.formed ((c.take q).openFrame (c.matchFrame q))), ht, ?_, rfl, rfl, rfl, rfl, rfl, rfl, ?_, ?_, ?_, hx⟩
  · rw [hs]
    exact c.emit_frames_body _ rfl rfl
  · rw [Frame.keep_b, c.formed_count _ (by simp [hw]) (by simp [hw])]
    simp [Cx.matchFrame, Frame.b]
  · simp [hs, Seq.placed, Seq.nextWord]
  · simp [hs, Seq.placed, Seq.nextWord, c.emit_issue_lines, hw]

include hpc

/-- MEND of the first iteration emits its lines and replays the body (R157). -/
theorem mend_first_replays {f : Frame} {r : List Frame} (hw : wOp w = 6) (hf : q.frames = f :: r) (hfull : f.full = false) :
    ∃ (t : State) (f' : Frame), exec (.mend n sl) s = .next t ∧ (t.sl g).seq.frames = f' :: r ∧ f'.full = true ∧ f'.iter = f.iter + 1 ∧
      f'.b = f.b + wLines w ∧ f'.count = f.count ∧ (t.sl g).seq.issue = q.issue + wLines w + (f.b + wLines w) ∧
      (t.sl g).seq.pc = q.pc ∧ Safety.executed s t g w := by
  obtain ⟨-, -, -, -, -, rfl, -, -⟩ := id hi
  have hm : f.isMatch = true := (c.frame_of_end hpc hok hf).2 hw
  have hrep := Seq.replay_eq (c.emit_frames_body (c.take q) hf (by simp [Seq.inBody, hf, hm, hfull]))
  have hb : (f.keep (c.formed (c.take q))).b = f.b + wLines (c.word q) := by
    rw [Frame.keep_b, c.formed_count _ (by simp [hw]) (by simp [hw]), c.word_take]
  obtain ⟨t, j, a, ht, hs, hx⟩ := exec_passes hi hw hok (exec_mend_first hi hf hfull) (by simp [hrep]) (by simp [hrep])
  rw [hrep] at hs
  refine ⟨t, { f.keep (c.formed (c.take q)) with full := true, iter := f.iter + 1 }, ht, ?_, rfl, rfl, hb, rfl, ?_, ?_, hx⟩
  · rw [hs]
    rfl
  · simp [hs, Seq.placed, hb, c.emit_issue_lines, hw]
  · simp [hs, Seq.placed]
end

/-- Settles O39: a MEND by whether the iteration that is due has started and failed, a branch by the fails up to its horizon, a checkpoint by
what its commit keeps. -/
theorem reelDecisions : Obligations.ReelDecisions := by
  refine ⟨fun s n sl g w c q hi hpc hok => ⟨mloop_opens hi hok, fun f r => mend_first_replays hi hpc hok⟩,
    fun s n sl g w d i lo hi c q f r his hf hm hfull hd hi' hlo hhi => ⟨fun h => ?_, fun hle hst hno => ?_, fun hle hst hbad hct => ?_,
      fun hle hst => (exec_mend_again his hf hm hfull).trans (congrArg _ (evalMatch_waits hd hi' hlo hhi hle hst))⟩,
    fun s n sl g c q hd hn hsl hg hc hq hh he hst hsh => ?_, fun s n sl g c k hn hsl hg hc hk hst hm hsh => ?_⟩
  · obtain ⟨act, l, heval, hact⟩ := evalMatch_replays (g := g) hd hi' hlo hhi h
    obtain ⟨j, a, hfill⟩ := c.fill_eq 32 (q.noteDecided l).replay
    obtain ⟨-, -, -, -, hq, -, -, -⟩ := id his
    refine ⟨_, (exec_mend_again his hf hm hfull).trans (congrArg _ heval), ?_⟩
    rw [upSeq_seq hq (issues_slices his), hact, hfill, Seq.replay_eq (q := q.noteDecided l) hf]
    exact ⟨rfl, rfl, rfl, rfl, sliceOnly_upSeq _ _ _⟩
  · obtain ⟨-, hsl, hg, -, -, -, -, -⟩ := id his
    have heval := evalMatch_decides hd hi' hlo hhi hle hst (g := g)
    rw [if_pos (Cx.failsIn_isEmpty.mpr hno)] at heval
    refine ⟨_, (exec_mend_again his hf hm hfull).trans (congrArg _ heval), ?_⟩
    rw [setMatch_upSeq_seq _ _ _ _ _ (issues_slices his)]
    exact ⟨congrArg (List.drop 1) hf, rfl, rfl, rfl, rfl, setMatch_upSeq _ _ _ _ _ hg hsl _⟩
  · obtain ⟨-, hsl, hg, -, -, -, -, -⟩ := id his
    have heval := evalMatch_decides hd hi' hlo hhi hle hst (g := g)
    rw [if_neg (mt Cx.failsIn_isEmpty.mp (by simpa using hbad)), if_neg (Nat.not_lt.mpr hct)] at heval
    obtain ⟨hiter, hword, hout, hframe⟩ := setMatch_upSeq s g (f.count - 1) f.word true hg hsl (fun _ => c.timedOut q g f.toact lo hi)
    refine ⟨_, (exec_mend_again his hf hm hfull).trans (congrArg _ heval), hiter, hword, hout, fun hact => ?_, fun hact => ?_, hframe⟩
    · rw [setMatch_upSeq_seq _ _ _ _ _ (issues_slices his), hact]
      exact ⟨congrArg (List.drop 1) hf, rfl, rfl, rfl⟩
    · rw [setMatch_upSeq_seq _ _ _ _ _ (issues_slices his), hact]
      exact ⟨rfl, rfl, rfl⟩
  · have hg' : g < s.slices.length := by rw [hsh.2.1]; omega
    refine ⟨_, _, exec_branchDecision hn hsl hg hc hq hh he hst, rfl, ?_⟩
    rw [upSeq_seq hq hg']
    generalize (decide (q.hzn ≤ hd.steer) && winHas c.b.wins q.clr (hd.steer - q.hzn)) = fails
    unfold Seq.branched
    by_cases hf : fails = hd.isF
    · rw [if_pos hf]
      refine ⟨rfl, rfl, fun b hb => ?_, fun _ => ⟨rfl, rfl, rfl⟩, fun hne => absurd hf hne, sliceOnly_upSeq _ _ _⟩
      simp [Seq.goto, Seq.xfer, Seq.dropLoops, Seq.choosePath, hb, hf]
    · rw [if_neg hf]
      refine ⟨rfl, rfl, fun b hb => ?_, fun heq => absurd heq hf, fun _ => ⟨rfl, rfl, rfl⟩, sliceOnly_upSeq _ _ _⟩
      simp [Seq.choosePath, hb, hf]
  · have hg' : g < s.slices.length := by rw [hsh.2.1]; omega
    have hidx : g / 4 = n ∧ g % 4 = sl := by omega
    obtain ⟨k', hv, hr, hcommit⟩ := commitCkpt_eq (c := c) hk hm
    have hsends := sends_setCkptReg (s.upSeq g (fun q => { q with pendCk := none, ckpt := some k', ckptOld := q.ckpt })) g (some k')
    refine ⟨_, k', (exec_checkpointCommit hn hsl hg hc hk hst).trans (congrArg _ hcommit), ?_⟩
    rw [hsends.sl, hsends.bursts, hsends.mem, upSeq_seq rfl hg', ← hv, ← hidx.1, ← hidx.2]
    exact ⟨rfl, rfl, hr, rfl, rfl, setCkptReg_vec _ _ _, setCkptReg_valid _ _ _,
      fun j hj => (hsends.sl j).trans (upSl_sl_ne _ _ hj), rfl, rfl⟩

end Sys2Proof.Machine
end

