-- ==== Sys2Proof/Proofs/Forms.lean ====
section
namespace Sys2Proof.Machine

/-! ### The canonical forms of device memory and the register file (R19, R198)

Every step keeps them (O54). `State.forms` says that a state has them. Below is one lemma for each function of the model that a command
reaches. Most leave device memory as it is and write registers one by one, which keeps the keys rising and mends no list that was not
(`forms_…`, an equation). A function that writes device memory, or drops it in a reset, may mend a list that was not canonical: of these
the lemma says that the forms of its result follow from any x that those of its state follow from (`le_forms_…`: on Booleans ≤ is
implication); in this shape the lemmas chain along the states of a function. -/

/-- Device memory and the register file are canonical. -/
def formsOf (mem : List Host.Cell) (regs : List (Nat × W64)) : Bool := Memory.wf mem && Safety.rising regs

/-- The same of a state. -/
def State.forms (s : State) : Bool := formsOf s.mem s.regs

theorem canonical_eq_forms (s : State) : Safety.canonical s = s.forms := rfl

/-! The next two are not proved by `rfl`: a step of `simp` that is one leaves no proof, and a hypothesis under a binder, as of
`forms_foldl`, needs one. -/

@[simp] theorem formsOf_self (s : State) : formsOf s.mem s.regs = s.forms := by rw [State.forms]

/-- The forms of a state given by its fields. -/
@[simp] theorem forms_mk (a b c regs d e host mem i j k l m slices o p q r t u clusters v w paddock pe fuse y z a1 a2 a3 a4 a5 a6 mcs a7
    links a8 a9 apgs ports chains b1 b2 trigs meters b3 trigOut b4 b5 b6) :
    (State.mk a b c regs d e host mem i j k l m slices o p q r t u clusters v w paddock pe fuse y z a1 a2 a3 a4 a5 a6 mcs a7 links
      a8 a9 apgs ports chains b1 b2 trigs meters b3 trigOut b4 b5 b6).forms = formsOf mem regs := by rw [State.forms]

@[simp] theorem forms_ite (c : Prop) [Decidable c] (a b : State) : (if c then a else b).forms = if c then a.forms else b.forms :=
  apply_ite _ _ _ _

@[simp] theorem forms_foldl {β : Type} {f : State → β → State} (h : ∀ a x, (f a x).forms = a.forms) (l : List β) (s : State) :
    (l.foldl f s).forms = s.forms := foldl_keep State.forms f h l s

@[simp] theorem le_ite_iff {x y z : Bool} {c : Prop} [Decidable c] :
    (x ≤ if c then y else z) ↔ (c → x ≤ y) ∧ (¬ c → x ≤ z) := by
  split <;> simp [*]

/-! #### Registers -/

theorem rising_iff_pairwise {α : Type} {l : List (Nat × α)} : Safety.rising l = true ↔ (l.map Prod.fst).Pairwise (· < ·) := by
  induction l with
  | nil => simp [Safety.rising]
  | cons p r ih => rw [rising_cons, ih, List.map_cons, List.pairwise_cons, List.forall_mem_map]

/-- Only a list of rising keys has rising keys once a key is set: that puts in a key or leaves the keys as they are. -/
@[simp] theorem rising_kSet_eq {α : Type} (l : List (Nat × α)) (k : Nat) (v : α) : Safety.rising (kSet l k v) = Safety.rising l := by
  refine Bool.eq_iff_iff.mpr ⟨fun h => ?_, fun h => rising_kSet h k v⟩
  have hsub : (l.map Prod.fst).Sublist ((kSet l k v).map Prod.fst) := by
    clear h
    induction l with
    | nil => simp
    | cons p r ih =>
      unfold kSet
      split
      · simp
      · split
        · next hk => simp [hk]
        · simpa using ih
  exact rising_iff_pairwise.mpr ((rising_iff_pairwise.mp h).sublist hsub)

/-- Whether keys rise depends on the keys alone. -/
theorem rising_map {α : Type} {f : Nat × α → Nat × α} (hf : ∀ p, (f p).1 = p.1) (l : List (Nat × α)) :
    Safety.rising (l.map f) = Safety.rising l := by
  have hkeys : (l.map f).map Prod.fst = l.map Prod.fst := by simp [hf]
  rw [Bool.eq_iff_iff, rising_iff_pairwise, rising_iff_pairwise, hkeys]

@[simp] theorem formsOf_kSet (mem regs k v) : formsOf mem (kSet regs k v) = formsOf mem regs := by simp [formsOf]

section
variable {s : State} {x : Bool}

/-- A change of device memory that keeps its form keeps the forms. -/
theorem le_formsOf_mem {mem : List Host.Cell} (h : x ≤ s.forms) (hm : Memory.wf s.mem = true → Memory.wf mem = true) :
    x ≤ formsOf mem s.regs := by
  refine h.trans (Bool.le_iff_imp.mpr fun hs => ?_)
  obtain ⟨hwf, hrise⟩ := Bool.and_eq_true_iff.mp hs
  exact Bool.and_eq_true_iff.mpr ⟨hm hwf, hrise⟩

@[simp] theorem le_forms_foldl {β : Type} {f : State → β → State} (h : x ≤ s.forms)
    (hf : ∀ a y, a.forms ≤ (f a y).forms) (l : List β) : x ≤ (l.foldl f s).forms := by
  induction l generalizing s with
  | nil => exact h
  | cons y r ih => exact ih (h.trans (hf s y))

@[simp] theorem forms_at (t) : (s.at t).forms = s.forms := by simp [State.at]

@[simp] theorem formsOf_setRf (mem f i v) : formsOf mem (s.setRf f i v).regs = formsOf mem s.regs := by simp [State.setRf]
@[simp] theorem formsOf_incRf (mem f i n) : formsOf mem (s.incRf f i n).regs = formsOf mem s.regs := by simp [State.incRf]

@[simp] theorem forms_setReg (o v) : (s.setReg o v).forms = s.forms := by simp [State.setReg]
@[simp] theorem forms_setRf (f i v) : (s.setRf f i v).forms = s.forms := by simp [State.setRf]
@[simp] theorem forms_emit (o) : (s.emit o).forms = s.forms := by simp [State.emit]
@[simp] theorem forms_msi (o) : (s.msi o).forms = s.forms := by simp [State.msi]
@[simp] theorem forms_upRing (k f) : (s.upRing k f).forms = s.forms := by simp [State.upRing]
@[simp] theorem forms_hostErr (b r) : (s.hostErr b r).forms = s.forms := by
  unfold State.hostErr
  split <;> simp

/-! ### Ops -/

@[simp] theorem le_forms_memWrite (h : x ≤ s.forms) (ch off bs) : x ≤ (s.memWrite ch off bs).forms := by
  simpa [State.memWrite] using le_formsOf_mem h fun hm => Memory.wf_write hm _ _
@[simp] theorem le_forms_memClear (h : x ≤ s.forms) (ch off n) : x ≤ (s.memClear ch off n).forms := by
  simpa [State.memClear] using le_formsOf_mem h fun hm => Memory.wf_clear hm _ _
@[simp] theorem forms_orRf (f idx m) : (s.orRf f idx m).forms = s.forms := by simp [State.orRf]
@[simp] theorem forms_incRf (f idx n) : (s.incRf f idx n).forms = s.forms := by simp [State.incRf]
@[simp] theorem forms_placementChanged : s.placementChanged.forms = s.forms := by simp [State.placementChanged]
@[simp] theorem forms_upSl (g f) : (s.upSl g f).forms = s.forms := by simp [State.upSl]
@[simp] theorem forms_upSeq (g f) : (s.upSeq g f).forms = s.forms := by simp [State.upSeq]
@[simp] theorem forms_upCl (n f) : (s.upCl n f).forms = s.forms := by simp [State.upCl]
@[simp] theorem forms_draw : s.draw.forms = s.forms := by simp [State.draw]
@[simp] theorem forms_msiFlush : s.msiFlush.forms = s.forms := by simp [State.msiFlush]
@[simp] theorem forms_hostAccess : s.hostAccess.forms = s.forms := by simp [State.hostAccess]
@[simp] theorem forms_hostWrite (sq addr bs) : (s.hostWrite sq addr bs).1.forms = s.forms := by
  unfold State.hostWrite
  split <;> simp
@[simp] theorem forms_queueEvent (e) : (s.queueEvent e).forms = s.forms := by simp [State.queueEvent]
@[simp] theorem forms_refillLoop (l) : (refillLoop s l).forms = s.forms := by
  induction l generalizing s with
  | nil => rfl
  | cons e r ih => unfold refillLoop; split <;> simp [ih]
@[simp] theorem forms_refill : s.refill.forms = s.forms := by simp [State.refill]
@[simp] theorem forms_ringError (k cause) : (s.ringError k cause).forms = s.forms := by simp [State.ringError]
@[simp] theorem forms_ringMsg (k) : (s.ringMsg k).forms = s.forms := by simp [State.ringMsg]
@[simp] theorem forms_ringWrite (k bs phaseAt irq) : (s.ringWrite k bs phaseAt irq).forms = s.forms := by simp [State.ringWrite]
@[simp] theorem forms_upDesc (sq idx f) : (s.upDesc sq idx f).forms = s.forms := by simp [State.upDesc]
@[simp] theorem forms_dropDesc (sq idx) : (s.dropDesc sq idx).forms = s.forms := by simp [State.dropDesc]
@[simp] theorem forms_closeRing (k) : (s.closeRing k).forms = s.forms := by simp [State.closeRing]
@[simp] theorem forms_noteMet : s.noteMet.forms = s.forms := by simp [State.noteMet]
@[simp] theorem forms_complete (sq idx r) : (s.complete sq idx r).forms = s.forms := by
  unfold State.complete
  dsimp only
  (repeat' split) <;> simp
@[simp] theorem forms_finish (sq idx status) : (s.finish sq idx status).forms = s.forms := by simp [State.finish]
@[simp] theorem forms_withDesc {sq idx op : Nat} {f : Desc → State} (hf : ∀ d, (f d).forms = s.forms) :
    (s.withDesc sq idx op f).forms = s.forms := withDesc_keep State.forms hf
@[simp] theorem le_forms_withDesc {sq idx op : Nat} {f : Desc → State} (h : x ≤ s.forms)
    (hf : ∀ d, x ≤ (f d).forms) : x ≤ (s.withDesc sq idx op f).forms := by
  unfold State.withDesc
  (repeat' split) <;> simp [hf, h]
@[simp] theorem forms_begin (sq idx) : (s.begin sq idx).forms = s.forms := by simp [State.begin]
@[simp] theorem forms_readFailed (sq idx) : (s.readFailed sq idx).forms = s.forms := by simp [State.readFailed]
@[simp] theorem forms_writeFailed (sq idx) : (s.writeFailed sq idx).forms = s.forms := by simp [State.writeFailed]
@[simp] theorem forms_report (src island unit detail) : (s.report src island unit detail).forms = s.forms := by simp [State.report]
@[simp] theorem forms_reportAt (r) : (s.reportAt r).forms = s.forms := by simp [State.reportAt]
@[simp] theorem forms_condOn (src island unit) : (s.condOn src island unit).forms = s.forms := by simp [State.condOn]
@[simp] theorem forms_condOff (src island unit) : (s.condOff src island unit).forms = s.forms := by simp [State.condOff]
@[simp] theorem forms_onset (src island unit detail) : (s.onset src island unit detail).forms = s.forms := by simp [State.onset]
@[simp] theorem forms_health (sub b3 aux p0 p1) : (s.health sub b3 aux p0 p1).forms = s.forms := by simp [State.health]
@[simp] theorem forms_log (typ data) : (s.log typ data).forms = s.forms := by simp [State.log]
@[simp] theorem forms_degrade (kind island unit) : (s.degrade kind island unit).forms = s.forms := by simp [State.degrade]
@[simp] theorem forms_spared (kind island unit spare) : (s.spared kind island unit spare).forms = s.forms := by simp [State.spared]

/-! ### RegOps -/

@[simp] theorem forms_writeFields (off v) : (s.writeFields off v).forms = s.forms := by
  unfold State.writeFields
  split <;> simp
@[simp] theorem forms_clearRegs (p q) : (s.clearRegs p q).forms = s.forms := by
  unfold State.clearRegs
  rw [forms_mk, formsOf, rising_map, ← formsOf, formsOf_self]
  intro k
  (repeat' split) <;> rfl
@[simp] theorem forms_busWrite {off : Nat} {f : State → State} (hf : ∀ u : State, (f u).forms = u.forms) :
    (s.busWrite off f).forms = s.forms := by
  unfold State.busWrite
  split
  · simp
  · split
    · simp [hf]
    · split <;> simp
@[simp] theorem le_forms_busWrite {off : Nat} {f : State → State} (h : x ≤ s.forms)
    (hf : ∀ u : State, u.forms ≤ (f u).forms) : x ≤ (s.busWrite off f).forms := by
  unfold State.busWrite
  split
  · simp [h]
  · split
    · exact le_trans (by simp [h]) (hf _)
    · split <;> simp [h]

/-! ### LinkOps -/

@[simp] theorem forms_upLk (n f) : (s.upLk n f).forms = s.forms := by simp [State.upLk]
@[simp] theorem forms_upLane (n k f) : (s.upLane n k f).forms = s.forms := by simp [State.upLane]
@[simp] theorem forms_linkEvent (n sub lane) : (s.linkEvent n sub lane).forms = s.forms := by simp [State.linkEvent]
@[simp] theorem forms_block (n typ payload) : (s.block n typ payload).forms = s.forms := by simp [State.block]
@[simp] theorem forms_burstOn (n k) : (s.burstOn n k).forms = s.forms := by simp [State.burstOn]
@[simp] theorem forms_bursts4 (n) : (s.bursts4 n).forms = s.forms := by simp [State.bursts4]
@[simp] theorem forms_linkUsed (n) : (s.linkUsed n).forms = s.forms := by simp [State.linkUsed]
@[simp] theorem forms_keepAwake : s.keepAwake.forms = s.forms := by simp [State.keepAwake]
@[simp] theorem forms_traffic (n p) : (s.traffic n p).forms = s.forms := by simp [State.traffic]
@[simp] theorem forms_transmit (n p) : (s.transmit n p).forms = s.forms := by simp [State.transmit]
@[simp] theorem forms_send (n p) : (s.send n p).forms = s.forms := by simp [State.send]
@[simp] theorem forms_drainWait (l) (n) : (drainWait l s n).forms = s.forms := by
  induction l generalizing s with
  | nil => rfl
  | cons p r ih => unfold drainWait; split <;> simp [ih]
@[simp] theorem forms_drain (n) : (s.drain n).forms = s.forms := by simp [State.drain]
@[simp] theorem forms_broadcast (typ sub a b) : (s.broadcast typ sub a b).forms = s.forms := by simp [State.broadcast]
@[simp] theorem forms_tether (i) : (s.tether i).forms = s.forms := by simp [State.tether]
@[simp] theorem forms_mirror (i) : (s.mirror i).forms = s.forms := by simp [State.mirror]
@[simp] theorem forms_unprotect (r i) : (s.unprotect r i).forms = s.forms := by simp [State.unprotect]
@[simp] theorem forms_mirrorCap (r i off bs) : (s.mirrorCap r i off bs).forms = s.forms := by simp [State.mirrorCap]
@[simp] theorem forms_mirrorEvent (sub aux p0 p1) : (s.mirrorEvent sub aux p0 p1).forms = s.forms := by simp [State.mirrorEvent]
@[simp] theorem forms_digestMismatch (id) : (s.digestMismatch id).forms = s.forms := by simp [State.digestMismatch]
@[simp] theorem forms_digestCheck (id dig) : (s.digestCheck id dig).forms = s.forms := by
  unfold State.digestCheck
  split <;> simp
@[simp] theorem forms_pairLoaded (id dig) : (s.pairLoaded id dig).forms = s.forms := by simp [State.pairLoaded]
@[simp] theorem forms_pairUnloaded (id) : (s.pairUnloaded id).forms = s.forms := by simp [State.pairUnloaded]
@[simp] theorem forms_unprotEnd (site acq) : (s.unprotEnd site acq).forms = s.forms := by
  unfold State.unprotEnd
  split <;> simp

/-! ### TaskOps -/

@[simp] theorem forms_upTask (tid f) : (s.upTask tid f).forms = s.forms := by simp [State.upTask]
@[simp] theorem forms_upFslot (i f) : (s.upFslot i f).forms = s.forms := by simp [State.upFslot]
@[simp] theorem forms_upLock (k f) : (s.upLock k f).forms = s.forms := by simp [State.upLock]
@[simp] theorem forms_mirrorTask (tid) : (s.mirrorTask tid).forms = s.forms := by
  unfold State.mirrorTask
  split <;> simp
@[simp] theorem forms_check7 : s.check7.forms = s.forms := by simp [State.check7]
@[simp] theorem forms_buffer (tid i) : (s.buffer tid i).forms = s.forms := by simp [State.buffer]
@[simp] theorem forms_placeTask (fuel tid) : (placeTask fuel s tid).forms = s.forms := by
  induction fuel generalizing s tid with
  | zero => rfl
  | succ fuel ih => unfold placeTask; dsimp only; (repeat' split) <;> simp [ih]
@[simp] theorem forms_ready (tid) : (s.ready tid).forms = s.forms := by simp [State.ready]
@[simp] theorem forms_refillSlot (i) : (s.refillSlot i).forms = s.forms := by
  unfold State.refillSlot
  (repeat' split) <;> simp
@[simp] theorem forms_dispatch : s.dispatch.forms = s.forms := by simp [State.dispatch]
@[simp] theorem forms_coreTake (i) : (s.coreTake i).forms = s.forms := by
  unfold State.coreTake
  dsimp only
  split <;> simp
@[simp] theorem forms_coreFree (i) : (s.coreFree i).forms = s.forms := by simp [State.coreFree]
@[simp] theorem forms_replace (tid) : (s.replace tid).forms = s.forms := by simp [State.replace]
@[simp] theorem forms_boundary (i) : (s.boundary i).forms = s.forms := by
  unfold State.boundary
  dsimp only
  (repeat' split) <;> simp
@[simp] theorem forms_wake (tid timedOut) : (s.wake tid timedOut).forms = s.forms := by simp [State.wake]
@[simp] theorem forms_setFlags (tid m) : (s.setFlags tid m).forms = s.forms := by
  unfold State.setFlags
  split <;> simp
@[simp] theorem forms_clearFlagsOf (tid m) : (s.clearFlagsOf tid m).forms = s.forms := by simp [State.clearFlagsOf]
@[simp] theorem forms_mirrorLock (k) : (s.mirrorLock k).forms = s.forms := by simp [State.mirrorLock]
@[simp] theorem forms_lockGrant (k o) : (s.lockGrant k o).forms = s.forms := by
  unfold State.lockGrant
  split <;> simp
@[simp] theorem forms_lockRelease (k abandon) : (s.lockRelease k abandon).forms = s.forms := by
  unfold State.lockRelease
  dsimp only
  (repeat' split) <;> simp
@[simp] theorem forms_lockRequest (k r) : (s.lockRequest k r).forms = s.forms := by simp [State.lockRequest]
@[simp] theorem forms_abandonLocks (o) : (s.abandonLocks o).forms = s.forms := by simp [State.abandonLocks]
@[simp] theorem forms_unqueueLocks (p) : (s.unqueueLocks p).forms = s.forms := by simp [State.unqueueLocks]
@[simp] theorem forms_writeSlot (tid k bs) : (s.writeSlot tid k bs).forms = s.forms := by simp [State.writeSlot]
@[simp] theorem forms_settleTask (tid) : (s.settleTask tid).forms = s.forms := by
  unfold State.settleTask
  split <;> simp
@[simp] theorem forms_taskOpEnd (tid k r ck resumable) : (s.taskOpEnd tid k r ck resumable).forms = s.forms := by
  unfold State.taskOpEnd
  split <;> simp
@[simp] theorem forms_opEnd (o k r ck resumable) : (s.opEnd o k r ck resumable).forms = s.forms := by
  unfold State.opEnd
  split <;> simp

/-! ### Sites -/

@[simp] theorem forms_upSite (id f) : (s.upSite id f).forms = s.forms := by simp [State.upSite]
@[simp] theorem forms_upBurst (e f) : (s.upBurst e f).forms = s.forms := by simp [State.upBurst]
@[simp] theorem forms_setSiteMask (g v) : (s.setSiteMask g v).forms = s.forms := by simp [State.setSiteMask]
@[simp] theorem forms_remask (g) : (s.remask g).forms = s.forms := by simp [State.remask]
@[simp] theorem forms_giveSlice (g e grp) : (s.giveSlice g e grp).forms = s.forms := by simp [State.giveSlice]
@[simp] theorem forms_mirrorMap (e) : (s.mirrorMap e).forms = s.forms := by simp [State.mirrorMap]
@[simp] theorem forms_setEntSlices (e l) : (s.setEntSlices e l).forms = s.forms := by
  unfold State.setEntSlices
  split <;> simp
@[simp] theorem forms_declare (x) : (s.declare x).1.forms = s.forms := by
  unfold State.declare
  dsimp only
  (repeat' split) <;> simp
@[simp] theorem forms_wait (w) : (s.wait w).forms = s.forms := by simp [State.wait]
@[simp] theorem forms_unwait (sq idx) : (s.unwait sq idx).forms = s.forms := by simp [State.unwait]
@[simp] theorem forms_declTurn (d) : (s.declTurn d).forms = s.forms := by simp [State.declTurn]
@[simp] theorem forms_inertChans (n mask) : (s.inertChans n mask).forms = s.forms := by simp [State.inertChans]
@[simp] theorem forms_freeSl (g) : (s.freeSl g).forms = s.forms := by simp [State.freeSl]
@[simp] theorem forms_blockHere (e) : (s.blockHere e).forms = s.forms := by
  unfold State.blockHere
  split <;> simp
@[simp] theorem forms_blockEnt (e) : (s.blockEnt e).forms = s.forms := by
  unfold State.blockEnt
  (repeat' split) <;> simp
@[simp] theorem forms_moveSlice (g) : (s.moveSlice g).forms = s.forms := by
  unfold State.moveSlice
  (repeat' split) <;> simp
@[simp] theorem forms_settleSlices (e) : (s.settleSlices e).forms = s.forms := by
  unfold State.settleSlices
  dsimp only
  (repeat' split) <;> simp
@[simp] theorem forms_capsSlices : s.capsSlices.forms = s.forms := by simp [State.capsSlices]
@[simp] theorem forms_retireSlice (g) : (s.retireSlice g).forms = s.forms := by simp [State.retireSlice]
@[simp] theorem forms_maskFrom (id v) : (s.maskFrom id v).forms = s.forms := by simp [State.maskFrom]
@[simp] theorem forms_stickMember (g id) : (s.stickMember g id).forms = s.forms := by
  unfold State.stickMember
  (repeat' split) <;> simp

/-! ### Placement -/

@[simp] theorem forms_upMc (m f) : (s.upMc m f).forms = s.forms := by simp [State.upMc]
@[simp] theorem forms_upObj (id f) : (s.upObj id f).forms = s.forms := by simp [State.upObj]
@[simp] theorem le_forms_objStore (h : x ≤ s.forms) (o bs) : x ≤ (s.objStore o bs).forms := by simp [State.objStore, h]
@[simp] theorem forms_mapShadow : s.mapShadow.forms = s.forms := by
  unfold State.mapShadow
  dsimp only
  refine (forms_foldl (fun a x => ?_) _ _).trans (by simp)
  split <;> simp
@[simp] theorem forms_lostShadow : s.lostShadow.forms = s.forms := by simp [State.lostShadow]
@[simp] theorem forms_doReadPlacement (sq idx) : (doReadPlacement sq idx s).forms = s.forms := by simp [doReadPlacement]

/-! ### Objects -/

@[simp] theorem forms_acceptId (d) : (s.acceptId d).forms = s.forms := by simp [State.acceptId]
@[simp] theorem forms_dropLoad (sq idx) : (s.dropLoad sq idx).forms = s.forms := by simp [State.dropLoad]
@[simp] theorem forms_doLoadPattern (sq idx src) : (doLoadPattern sq idx src s).forms = s.forms := by
  refine forms_withDesc fun d => ?_
  -- a variable of the proof's term: the kernel would unfold the function
  generalize State.placePattern = place
  revert place
  refine id fun place => ?_
  dsimp only
  (repeat' split) <;> simp
@[simp] theorem forms_loadOther (op kind sq idx src) : (loadOther op kind sq idx src s).forms = s.forms := by
  refine forms_withDesc fun d => ?_
  dsimp only
  (repeat' split) <;> simp
@[simp] theorem forms_doLoadFlow (sq idx src) : (doLoadFlow sq idx src s).forms = s.forms := by simp [doLoadFlow]
@[simp] theorem forms_doLoadPeList (sq idx src) : (doLoadPeList sq idx src s).forms = s.forms := by simp [doLoadPeList]
@[simp] theorem forms_doApgFallback (sq idx) : (doApgFallback sq idx s).forms = s.forms := by
  refine forms_withDesc fun d => ?_
  dsimp only
  (repeat' split) <;> simp
@[simp] theorem forms_dropLinks (id) : (s.dropLinks id).forms = s.forms := by simp [State.dropLinks]
@[simp] theorem forms_freeCopies (id) : (s.freeCopies id).forms = s.forms := by simp [State.freeCopies]
@[simp] theorem forms_freeObj (id) : (s.freeObj id).forms = s.forms := by simp [State.freeObj]

/-! ### Admission -/

@[simp] theorem forms_pullIn (m) : (s.pullIn m).forms = s.forms := by simp [State.pullIn]
@[simp] theorem forms_mirrorBurst (b gone) : (s.mirrorBurst b gone).forms = s.forms := by simp [State.mirrorBurst]
@[simp] theorem forms_admitBurst (b) : (s.admitBurst b).forms = s.forms := by
  unfold State.admitBurst
  (repeat' split) <;> simp
@[simp] theorem forms_scanLoop (l) : (scanLoop l s).forms = s.forms := by
  induction l generalizing s with
  | nil => rfl
  | cons b r ih => unfold scanLoop; (repeat' split) <;> simp [ih]
@[simp] theorem forms_scan : s.scan.forms = s.forms := by simp [State.scan]
@[simp] theorem forms_submit (q) : (s.submit q).1.forms = s.forms := by
  unfold State.submit
  dsimp only
  (repeat' split) <;> simp
@[simp] theorem forms_release (b) : (s.release b).forms = s.forms := by simp [State.release]

/-! ### Align -/

@[simp] theorem forms_shiftStarts (d) : (s.shiftStarts d).forms = s.forms := by simp [State.shiftStarts]
@[simp] theorem forms_shiftPast (k) : (s.shiftPast k).forms = s.forms := by simp [State.shiftPast]
@[simp] theorem forms_stepDtime (k) : (s.stepDtime k).forms = s.forms := by simp [State.stepDtime]
@[simp] theorem forms_xoffStep : s.xoffStep.forms = s.forms := by
  unfold State.xoffStep
  split <;> simp
@[simp] theorem forms_passOn (kind cum lead) : (s.passOn kind cum lead).forms = s.forms := by simp [State.passOn]
@[simp] theorem forms_alignTo (l) : (s.alignTo l).forms = s.forms := by
  unfold State.alignTo
  dsimp only
  split <;> simp
@[simp] theorem forms_alignPass (kind cum lead) : (s.alignPass kind cum lead).forms = s.forms := by simp [State.alignPass]
@[simp] theorem forms_alignStart : s.alignStart.forms = s.forms := by simp [State.alignStart]
@[simp] theorem forms_alignResume : s.alignResume.forms = s.forms := by
  unfold State.alignResume
  split <;> simp
@[simp] theorem forms_alignAbort : s.alignAbort.forms = s.forms := by simp [State.alignAbort]

/-! ### Reel -/

@[simp] theorem forms_reelWord (n sl op act) : (reelWord n sl op act s).forms = s.forms := by
  unfold reelWord
  dsimp only
  (repeat' split) <;> simp
@[simp] theorem forms_doVec (n sl) : (doVec n sl s).forms = s.forms := by simp [doVec]
@[simp] theorem forms_doRpt (n sl) : (doRpt n sl s).forms = s.forms := by simp [doRpt]
@[simp] theorem forms_doReelLoop (n sl) : (doReelLoop n sl s).forms = s.forms := by simp [doReelLoop]
@[simp] theorem forms_doEndl (n sl) : (doEndl n sl s).forms = s.forms := by simp [doEndl]
@[simp] theorem forms_doMloop (n sl) : (doMloop n sl s).forms = s.forms := by simp [doMloop]
@[simp] theorem forms_setMatch (g iter word timeout) : (s.setMatch g iter word timeout).forms = s.forms := by simp [State.setMatch]
@[simp] theorem forms_evalMatch (g c q f) : (s.evalMatch g c q f).forms = s.forms := by simp [State.evalMatch]
@[simp] theorem forms_doMend (n sl) : (doMend n sl s).forms = s.forms := by
  unfold doMend
  dsimp only
  (repeat' split) <;> simp
@[simp] theorem forms_doJmp (n sl) : (doJmp n sl s).forms = s.forms := by simp [doJmp]
@[simp] theorem forms_doCall (n sl) : (doCall n sl s).forms = s.forms := by simp [doCall]
@[simp] theorem forms_doRet (n sl) : (doRet n sl s).forms = s.forms := by simp [doRet]
@[simp] theorem forms_doBrf (n sl) : (doBrf n sl s).forms = s.forms := by simp [doBrf]
@[simp] theorem forms_doBrp (n sl) : (doBrp n sl s).forms = s.forms := by simp [doBrp]
@[simp] theorem forms_doBranchDecision (n sl) : (doBranchDecision n sl s).forms = s.forms := by
  unfold doBranchDecision
  dsimp only
  split <;> simp
@[simp] theorem forms_doSetMux (n sl) : (doSetMux n sl s).forms = s.forms := by simp [doSetMux]
@[simp] theorem forms_doApgv (n sl) : (doApgv n sl s).forms = s.forms := by simp [doApgv]
@[simp] theorem forms_doReelEnd (n sl) : (doReelEnd n sl s).forms = s.forms := by simp [doReelEnd]
@[simp] theorem forms_setCkptReg (g k) : (s.setCkptReg g k).forms = s.forms := by
  unfold State.setCkptReg
  split <;> simp
@[simp] theorem forms_commitCkpt (g c) : (s.commitCkpt g c).forms = s.forms := by
  unfold State.commitCkpt
  split <;> simp
@[simp] theorem forms_doCheckpointCommit (n sl) : (doCheckpointCommit n sl s).forms = s.forms := by
  unfold doCheckpointCommit
  dsimp only
  split <;> simp

/-! ### MemLog -/

@[simp] theorem forms_setLogWord (m j w v) : (s.setLogWord m j w v).forms = s.forms := by simp [State.setLogWord]
@[simp] theorem forms_loseObjects (m) : (s.loseObjects m).forms = s.forms := by simp [State.loseObjects]
@[simp] theorem forms_cutSlice (g k status) : (s.cutSlice g k status).forms = s.forms := by simp [State.cutSlice]
@[simp] theorem forms_retireChannel (m) : (s.retireChannel m).forms = s.forms := by
  unfold State.retireChannel
  split
  · rfl
  · extract_lets s1 s2 s3 s4
    have h4 : s4.forms = s.forms := by simp [s4, s3, s2, s1]
    clear_value s4
    simp [h4]
@[simp] theorem forms_candidate (m br) : (s.candidate m br).forms = s.forms := by simp [State.candidate]
@[simp] theorem forms_countRow (m br) : (s.countRow m br).forms = s.forms := by simp [State.countRow]
@[simp] theorem forms_logDetect (d) : (s.logDetect d).forms = s.forms := by
  unfold State.logDetect
  dsimp only
  (repeat' split) <;> simp
@[simp] theorem forms_memError (d) : (s.memError d).forms = s.forms := by simp [State.memError]
@[simp] theorem forms_detected (d) : (s.detected d).forms = s.forms := by simp [State.detected]
theorem forms_of_useInjection {t : State} {a : Nat} {c : Bool} (h : s.useInjection a = some (c, t)) : t.forms = s.forms := by
  unfold State.useInjection at h
  split at h
  · split at h
    · cases h; simp
    · cases h
  · cases h
@[simp] theorem forms_readErrors (a n req) : (s.readErrors a n req).1.forms = s.forms := by
  unfold State.readErrors
  dsimp only
  split
  · split
    · split
      next h => simp [forms_of_useInjection h]
      · simp
    · simp
  · simp
@[simp] theorem forms_mergeError (addr req) : (s.mergeError addr req).forms = s.forms := by simp [State.mergeError]
@[simp] theorem forms_mergeRead (addr req access ue) : (s.mergeRead addr req access ue).forms = s.forms := by
  unfold State.mergeRead
  split
  · simp
  · split
    next h => simp [forms_of_useInjection h]
    · rfl
@[simp] theorem forms_readBackError (o x) : (s.readBackError o x).forms = s.forms := by simp [State.readBackError]
@[simp] theorem le_forms_doObjectLoadComplete (h : x ≤ s.forms) (sq idx ue) : x ≤ (doObjectLoadComplete sq idx ue s).forms := by
  unfold doObjectLoadComplete
  (repeat' split) <;> simp [h]

/-! ### Regions -/

@[simp] theorem forms_upRegion (id f) : (s.upRegion id f).forms = s.forms := by simp [State.upRegion]
@[simp] theorem forms_setGranule (a) : (s.setGranule a).forms = s.forms := by simp [State.setGranule]
@[simp] theorem le_forms_writeHeader (h : x ≤ s.forms) (id ue) : x ≤ (s.writeHeader id ue).forms := by
  unfold State.writeHeader
  split <;> simp [h]
@[simp] theorem le_forms_endHeader (h : x ≤ s.forms) (id) : x ≤ (s.endHeader id).forms := by simp [State.endHeader, h]
@[simp] theorem forms_upRes (site f) : (s.upRes site f).forms = s.forms := by simp [State.upRes]
@[simp] theorem forms_qualify (e bit) : (s.qualify e bit).forms = s.forms := by simp [State.qualify]
@[simp] theorem forms_reduce (g e sites v) : (s.reduce g e sites v).forms = s.forms := by simp [State.reduce]
@[simp] theorem forms_loseRecord (site region) : (s.loseRecord site region).forms = s.forms := by simp [State.loseRecord]
@[simp] theorem le_forms_writeRecord (h : x ≤ s.forms) (n rec joined ue) : x ≤ (s.writeRecord n rec joined ue).forms := by
  unfold State.writeRecord
  dsimp only
  (repeat' split) <;> simp [h]
@[simp] theorem le_forms_doCaptureRecordWrite (h : x ≤ s.forms) (n ue) : x ≤ (doCaptureRecordWrite n ue s).forms := by
  unfold doCaptureRecordWrite
  dsimp only
  (repeat' split) <;> simp [h]
@[simp] theorem le_forms_doRegionHeaderWrite (h : x ≤ s.forms) (id ue t) : x ≤ (doRegionHeaderWrite id ue t s).forms := by
  unfold doRegionHeaderWrite
  split <;> simp [h]
@[simp] theorem le_forms_doBitmapWriteback (h : x ≤ s.forms) (n i ue) : x ≤ (doBitmapWriteback n i ue s).forms := by
  unfold doBitmapWriteback
  (repeat' split) <;> simp [h]
@[simp] theorem le_forms_defineRegion (h : x ≤ s.forms) (d) : x ≤ (s.defineRegion d).forms := by
  unfold State.defineRegion
  dsimp only
  (repeat' split) <;> simp [h]
@[simp] theorem le_forms_doDefineRegion (h : x ≤ s.forms) (sq idx) : x ≤ (doDefineRegion sq idx s).forms := by simp [doDefineRegion, h]
@[simp] theorem forms_waited {sq idx : Nat} {p : WaitKind → Bool} {f : State → Desc → State} (h : ∀ u d, (f u d).forms = u.forms) :
    (s.waited sq idx p f).forms = s.forms := by
  unfold State.waited; (repeat' split) <;> simp [h]
@[simp] theorem le_forms_waited {sq idx : Nat} {p : WaitKind → Bool} {f : State → Desc → State} (h : x ≤ s.forms)
    (hf : ∀ u d, u.forms ≤ (f u d).forms) : x ≤ (s.waited sq idx p f).forms := by
  unfold State.waited
  (repeat' split)
  · exact le_trans (by simp [h]) (hf _ _)
  all_goals exact h
@[simp] theorem le_forms_doDeferredRegionDefine (h : x ≤ s.forms) (sq idx) : x ≤ (doDeferredRegionDefine sq idx s).forms := by
  simp [doDeferredRegionDefine, h]
@[simp] theorem forms_freeRegion (id) : (s.freeRegion id).forms = s.forms := by simp [State.freeRegion]
@[simp] theorem le_forms_clearRegion (h : x ≤ s.forms) (id) : x ≤ (s.clearRegion id).forms := by
  unfold State.clearRegion
  split <;> simp [h]
@[simp] theorem forms_regionDesc {op : Nat} {kind : Nat → WaitKind} {act : State → Nat → State} {sq idx : Nat} (h :
    ∀ u id, (act u id).forms = u.forms) : (regionDesc op kind act sq idx s).forms = s.forms := by
  refine forms_withDesc fun d => ?_
  dsimp only
  (repeat' split) <;> simp [h]
@[simp] theorem le_forms_regionDesc {op : Nat} {kind : Nat → WaitKind} {act : State → Nat → State} {sq idx : Nat} (h : x ≤ s.forms)
    (hf : ∀ u id, u.forms ≤ (act u id).forms) : x ≤ (regionDesc op kind act sq idx s).forms := by
  refine le_forms_withDesc h fun d => ?_
  dsimp only
  (repeat' split) <;> simp [h, h.trans (hf _ _)]
@[simp] theorem forms_doFreeRegion (sq idx) : (doFreeRegion sq idx s).forms = s.forms := by simp [doFreeRegion]
@[simp] theorem le_forms_doClearRegion (h : x ≤ s.forms) (sq idx) : x ≤ (doClearRegion sq idx s).forms := by simp [doClearRegion, h]
@[simp] theorem forms_regionWaited {op : Nat} {act : State → Nat → State} {sq idx : Nat} (h : ∀ u id, (act u id).forms = u.forms) :
    (regionWaited op act sq idx s).forms = s.forms := by
  refine forms_waited fun u d => ?_
  dsimp only
  split <;> simp [h]
@[simp] theorem le_forms_regionWaited {op : Nat} {act : State → Nat → State} {sq idx : Nat} (h : x ≤ s.forms)
    (hf : ∀ u id, u.forms ≤ (act u id).forms) : x ≤ (regionWaited op act sq idx s).forms := by
  refine le_forms_waited h fun u d => ?_
  dsimp only
  split <;> simp [hf]
@[simp] theorem forms_doDeferredRegionFree (sq idx) : (doDeferredRegionFree sq idx s).forms = s.forms := by simp [doDeferredRegionFree]
@[simp] theorem le_forms_doDeferredRegionClear (h : x ≤ s.forms) (sq idx) : x ≤ (doDeferredRegionClear sq idx s).forms := by
  simp [doDeferredRegionClear, h]
@[simp] theorem forms_doReadRegion (sq idx) : (doReadRegion sq idx s).forms = s.forms := by
  refine forms_withDesc fun d => ?_
  dsimp only
  (repeat' split) <;> simp
@[simp] theorem forms_doReadSiteResult (sq idx) : (doReadSiteResult sq idx s).forms = s.forms := by
  refine forms_withDesc fun d => ?_
  dsimp only
  (repeat' split) <;> simp

/-! ### Flags -/

@[simp] theorem forms_stick (flag chan n c) : (s.stick flag chan n c).forms = s.forms := by simp [State.stick]
@[simp] theorem forms_apgEvt (k bit) : (s.apgEvt k bit).forms = s.forms := by simp [State.apgEvt]
@[simp] theorem forms_raise (n bit stamp) : (s.raise n bit stamp).forms = s.forms := by simp [State.raise]
@[simp] theorem forms_fallIn (e v) : (s.fallIn e v).forms = s.forms := by
  unfold State.fallIn
  (repeat' split) <;> simp
@[simp] theorem forms_setChCounts (x l) : (s.setChCounts x l).forms = s.forms := by simp [State.setChCounts]
@[simp] theorem forms_setSliceCounts (g fails first last) : (s.setSliceCounts g fails first last).forms = s.forms := by
  simp [State.setSliceCounts]
@[simp] theorem forms_sliceHit (g v) : (s.sliceHit g v).forms = s.forms := by simp [State.sliceHit]
@[simp] theorem forms_countSite (e n v d) : (s.countSite e n v d).forms = s.forms := by simp [State.countSite]
@[simp] theorem forms_maskFirst (g v d) : (s.maskFirst g v d).forms = s.forms := by
  unfold State.maskFirst
  split <;> simp
@[simp] theorem forms_countVector (g e v vs) : (s.countVector g e v vs).forms = s.forms := by simp [State.countVector]

/-! ### Capture -/

@[simp] theorem forms_upCap (g f) : (s.upCap g f).forms = s.forms := by simp [State.upCap]
@[simp] theorem forms_growCredit (g t) : (s.growCredit g t).forms = s.forms := by simp [State.growCredit]
@[simp] theorem forms_settleCredit (n t) : (s.settleCredit n t).forms = s.forms := by simp [State.settleCredit]
@[simp] theorem forms_pay (g n) : (s.pay g n).forms = s.forms := by simp [State.pay]
@[simp] theorem forms_pushRec (g e site v bs) : (s.pushRec g e site v bs).forms = s.forms := by
  unfold State.pushRec
  split <;> simp
@[simp] theorem forms_writeMode (g e now v t mode reason) : (s.writeMode g e now v t mode reason).forms = s.forms := by
  simp [State.writeMode]
@[simp] theorem forms_enterSummary (g e v t reason) : (s.enterSummary g e v t reason).forms = s.forms := by simp [State.enterSummary]
@[simp] theorem forms_closeRanges (g e last) : (s.closeRanges g e last).forms = s.forms := by
  refine (forms_upCap _ _).trans (forms_foldl (fun a y => ?_) _ _)
  split <;> simp
@[simp] theorem forms_dropRaws (g e v raws) : (s.dropRaws g e v raws).forms = s.forms := by simp [State.dropRaws]
@[simp] theorem forms_captureVector (g e v tset t tEnd vs) : (s.captureVector g e v tset t tEnd vs).forms = s.forms := by
  simp [State.captureVector]
@[simp] theorem forms_captureLate (g e v tset t vs) : (s.captureLate g e v tset t vs).forms = s.forms := by simp [State.captureLate]
@[simp] theorem forms_captureEnd (g e v) : (s.captureEnd g e v).forms = s.forms := by simp [State.captureEnd]
@[simp] theorem forms_bitmapBeat (g e site k idx word v) : (s.bitmapBeat g e site k idx word v).forms = s.forms := by
  unfold State.bitmapBeat
  (repeat' split) <;> simp
@[simp] theorem forms_tellRegion (r t) : (s.tellRegion r t).forms = s.forms := by simp [State.tellRegion]
@[simp] theorem le_forms_stampRegion (h : x ≤ s.forms) (r near t0 rec) : x ≤ (s.stampRegion r near t0 rec).forms := by
  simp [State.stampRegion, h]
@[simp] theorem le_forms_deliverDue (h : x ≤ s.forms) (sample sites t) : x ≤ (s.deliverDue sample sites t).forms := by
  refine le_forms_foldl h (fun a r => ?_) _
  dsimp only
  split <;> simp
@[simp] theorem le_forms_deliverRest (h : x ≤ s.forms) (sample sites) : x ≤ (s.deliverRest sample sites).forms := by
  simp [State.deliverRest, h]

/-! ### Bridle -/

@[simp] theorem forms_stopOthers (e g t status) : (s.stopOthers e g t status).forms = s.forms := by
  unfold State.stopOthers
  split <;> simp
@[simp] theorem forms_denOff (n c t) : (s.denOff n c t).forms = s.forms := by simp [State.denOff]
@[simp] theorem forms_driversOff (e n t) : (s.driversOff e n t).forms = s.forms := by simp [State.driversOff]
@[simp] theorem forms_sendFails (g c v) : (s.sendFails g c v).forms = s.forms := by
  unfold State.sendFails
  split <;> simp
@[simp] theorem forms_markCkpt (g c i steer) : (s.markCkpt g c i steer).forms = s.forms := by simp [State.markCkpt]
@[simp] theorem forms_settleCharge (g c) : (s.settleCharge g c).forms = s.forms := by
  unfold State.settleCharge
  dsimp only
  split <;> simp
@[simp] theorem le_forms_endPart (h : x ≤ s.forms) (g c y) : x ≤ (s.endPart g c y).forms := by
  unfold State.endPart
  dsimp only
  (repeat' split) <;> simp [h]
@[simp] theorem forms_raiseSiteFail (e v stamp) : (s.raiseSiteFail e v stamp).forms = s.forms := by
  unfold State.raiseSiteFail
  split <;> simp
@[simp] theorem forms_raiseVector (g e t q r l vs) : (s.raiseVector g e t q r l vs).forms = s.forms := by
  unfold State.raiseVector
  extract_lets n sl s1 s2 live first s3
  have h2 : s2.forms = s.forms := by unfold s2 s1; split <;> simp
  have h3 : s3.forms = s.forms := by unfold s3; clear_value first; split <;> simp [h2]
  split
  · exact h2
  · refine (forms_foldl (fun a y => ?_) _ _).trans h3
    split <;> simp
@[simp] theorem forms_countTrans (l) : (s.countTrans l).forms = s.forms := by simp [State.countTrans]
@[simp] theorem le_forms_applyVector {s00 : State} (h : x ≤ s00.forms) (g c r rest smp) :
    x ≤ (s00.applyVector g c r rest smp).forms := by
  unfold State.applyVector
  extract_lets n e s q v t ts tEnd apg joined word pins l sk s0 s1 s2 bound flag s3 s4 sites own charged s5 vs bad s6 s7 s8 s10 s11
  have hflag (u : State) (k : Option Nat) (b : Nat) (on : Bool) : (flag u k b on).forms = u.forms := by
    unfold flag; split
    · split <;> simp
    · rfl
  have hs : x ≤ s.forms := by simp [s, h]
  have hk : sk.forms = s.forms := by unfold sk; split <;> simp
  have h2 : s2.forms = s.forms := by simp [s2, s1, s0, hk]
  have h4 : s4.forms = s.forms := by
    unfold s4 s3; split
    · split <;> simp [hflag, h2]
    · simp [hflag, h2]
  have h7 : s7.forms = s.forms := by simp [s7, s6, s5, h4]
  have h8 : s8.forms = s.forms := by
    unfold s8; split
    · exact h7
    · refine (forms_foldl (fun a y => forms_foldl (fun b i => ?_) _ _) _ _).trans h7
      split <;> simp
  simp [s11, s10, h8, hs]
@[simp] theorem le_forms_settleEnd (h : x ≤ s.forms) (g) : x ≤ (s.settleEnd g).forms := by
  unfold State.settleEnd
  dsimp only
  (repeat' split) <;> simp [h]
@[simp] theorem forms_endStart (e status reason) : (s.endStart e status reason).forms = s.forms := by
  unfold State.endStart
  split <;> simp
@[simp] theorem forms_tellNogo (e status) : (s.tellNogo e status).forms = s.forms := by
  unfold State.tellNogo
  split <;> simp
@[simp] theorem forms_endFilling (e status) : (s.endFilling e status).forms = s.forms := by simp [State.endFilling]
@[simp] theorem forms_raiseEnd (g status) : (s.raiseEnd g status).forms = s.forms := by
  unfold State.raiseEnd
  split <;> simp
@[simp] theorem forms_stopSlice (g t status) : (s.stopSlice g t status).forms = s.forms := by
  unfold State.stopSlice
  split <;> simp
@[simp] theorem le_forms_endNow (h : x ≤ s.forms) (g status) : x ≤ (s.endNow g status).forms := by
  unfold State.endNow
  split <;> simp [h]
@[simp] theorem forms_undoCounts (g e u) : (s.undoCounts g e u).forms = s.forms := by
  unfold State.undoCounts
  dsimp only
  split <;> simp
@[simp] theorem forms_undoEvents (g e v t) : (s.undoEvents g e v t).forms = s.forms := by simp [State.undoEvents]
@[simp] theorem forms_undoVector (g c u) : (s.undoVector g c u).forms = s.forms := by
  unfold State.undoVector
  extract_lets v e n s1 s2 s3
  have h1 : s1.forms = s.forms := by
    refine forms_foldl (fun a r => ?_) _ _
    split <;> simp
  simp [s3, s2, h1]
@[simp] theorem le_forms_cutNow (h : x ≤ s.forms) (g status) : x ≤ (s.cutNow g status).forms := by
  unfold State.cutNow
  split <;> simp [h]
@[simp] theorem le_forms_endEnt (h : x ≤ s.forms) (e status) : x ≤ (s.endEnt e status).forms := by simp [State.endEnt, h]
@[simp] theorem forms_stopEnt (e t status) : (s.stopEnt e t status).forms = s.forms := by simp [State.stopEnt]
@[simp] theorem forms_boundaryXoff : s.boundaryXoff.forms = s.forms := by simp [State.boundaryXoff]
@[simp] theorem forms_doStopRequest (n sl status t) : (doStopRequest n sl status t s).forms = s.forms := by simp [doStopRequest]
@[simp] theorem forms_doSeqCtlAbort (n v) : (doSeqCtlAbort n v s).forms = s.forms := by simp [doSeqCtlAbort]

/-! ### Apg -/

@[simp] theorem forms_powerUp (d) : (s.powerUp d).forms = s.forms := by
  unfold State.powerUp
  exact forms_foldl (fun a k => by simp) _ _
@[simp] theorem forms_setBind (k e) : (s.setBind k e).forms = s.forms := by simp [State.setBind]
@[simp] theorem forms_unbind (k) : (s.unbind k).forms = s.forms := by simp [State.unbind]
@[simp] theorem forms_unbindEnt (e keep) : (s.unbindEnt e keep).forms = s.forms := by simp [State.unbindEnt]
@[simp] theorem forms_bind (k e setup) : (s.bind k e setup).forms = s.forms := by simp [State.bind]
@[simp] theorem forms_bindTurn (d setup) : (s.bindTurn d setup).forms = s.forms := by simp [State.bindTurn]
@[simp] theorem forms_doBindApg (sq idx src) : (doBindApg sq idx src s).forms = s.forms := by
  unfold doBindApg
  split <;> simp
@[simp] theorem forms_doDeferredBindApg (sq idx) : (doDeferredBindApg sq idx s).forms = s.forms := by
  unfold doDeferredBindApg
  (repeat' split) <;> simp
@[simp] theorem le_forms_endApgBursts (h : x ≤ s.forms) (k status) : x ≤ (s.endApgBursts k status).forms := by simp [State.endApgBursts, h]
@[simp] theorem le_forms_doApgFailure (h : x ≤ s.forms) (k) : x ≤ (doApgFailure k s).forms := by simp [doApgFailure, h]

/-! ### Chains -/

@[simp] theorem forms_upPort (n f) : (s.upPort n f).forms = s.forms := by simp [State.upPort]
@[simp] theorem forms_upChain (k f) : (s.upChain k f).forms = s.forms := by simp [State.upChain]
@[simp] theorem forms_restartWin (k) : (s.restartWin k).forms = s.forms := by simp [State.restartWin]
@[simp] theorem forms_doAdcAlign (n v) : (doAdcAlign n v s).forms = s.forms := by simp [doAdcAlign]
@[simp] theorem forms_doAdcAlignmentComplete (n m0 m1 t) : (doAdcAlignmentComplete n m0 m1 t s).forms = s.forms := by
  unfold doAdcAlignmentComplete
  dsimp only
  (repeat' split) <;> simp
@[simp] theorem forms_upAcq (site f) : (s.upAcq site f).forms = s.forms := by simp [State.upAcq]
@[simp] theorem forms_growChain (k t) : (s.growChain k t).forms = s.forms := by simp [State.growChain]
@[simp] theorem forms_loseBlock (k site region written) : (s.loseBlock k site region written).forms = s.forms := by simp [State.loseBlock]
@[simp] theorem le_forms_closeBlock (h : x ≤ s.forms) (k t) : x ≤ (s.closeBlock k t).forms := by
  unfold State.closeBlock
  dsimp only
  split <;> simp [h]
@[simp] theorem forms_settleChains (e t) : (s.settleChains e t).forms = s.forms := by simp [State.settleChains]
@[simp] theorem forms_resplit (e) : (s.resplit e).forms = s.forms := by simp [State.resplit]
@[simp] theorem forms_reshare (ks t f) : (s.reshare ks t f).forms = s.forms := by simp [State.reshare]
@[simp] theorem le_forms_settleAcq (h : x ≤ s.forms) (site) : x ≤ (s.settleAcq site).forms := by
  unfold State.settleAcq
  (repeat' split) <;> simp [h]
@[simp] theorem le_forms_addEntries (h : x ≤ s.forms) (k t) : x ≤ (s.addEntries k t).forms := by
  unfold State.addEntries
  dsimp only
  split <;> simp [h]
@[simp] theorem le_forms_stopAcq (h : x ≤ s.forms) (site st t) : x ≤ (s.stopAcq site st t).forms := by
  unfold State.stopAcq
  split
  · exact h
  · split
    · simp [h]
    · split
      · simp [h]
      · extract_lets ks s1 s3 q
        have h1 : x ≤ s1.forms := le_forms_foldl h (fun a k => by simp) _
        have h3 : x ≤ s3.forms := by simp [s3, h1]
        simp [h3]
@[simp] theorem le_forms_startAcq (h : x ≤ s.forms) (site t) : x ≤ (s.startAcq site t).forms := by
  unfold State.startAcq
  split <;> simp [h]
@[simp] theorem le_forms_setupAcq (h : x ≤ s.forms) (q o) : x ≤ (s.setupAcq q o).forms := by simp [State.setupAcq, h]
@[simp] theorem le_forms_doAcquire (h : x ≤ s.forms) (sq idx) : x ≤ (doAcquire sq idx s).forms := by simp [doAcquire, h]
@[simp] theorem le_forms_doAcquisitionStart (h : x ≤ s.forms) (site t) : x ≤ (doAcquisitionStart site t s).forms := by
  unfold doAcquisitionStart
  split <;> simp [h]
@[simp] theorem le_forms_doAcquisitionStop (h : x ≤ s.forms) (site t) : x ≤ (doAcquisitionStop site t s).forms := by
  unfold doAcquisitionStop
  split <;> simp [h]
@[simp] theorem le_forms_doSampleBlockWrite (h : x ≤ s.forms) (e ue) : x ≤ (doSampleBlockWrite e ue s).forms := by
  unfold doSampleBlockWrite
  split
  · exact h
  · extract_lets s0
    split
    · simp [s0, h]
    · split
      · simp [s0, h]
      · split
        · exact h
        · split
          extract_lets s1 s2 s3
          have h2 : x ≤ s2.forms := by
            unfold s2
            (repeat' split) <;> simp [s1, s0, h]
          have h3 : x ≤ s3.forms := by simp [s3, h2]
          simp [h3]
@[simp] theorem forms_setDutpwr (n on) : (s.setDutpwr n on).forms = s.forms := by simp [State.setDutpwr]
@[simp] theorem forms_trip (k) : (s.trip k).forms = s.forms := by simp [State.trip]
@[simp] theorem le_forms_beginInterval (h : x ≤ s.forms) (k t) : x ≤ (s.beginInterval k t).forms := by simp [State.beginInterval, h]
@[simp] theorem forms_thresholds (k t) : (s.thresholds k t).forms = s.forms := by simp [State.thresholds]
@[simp] theorem forms_framed (n t) : (s.framed n t).forms = s.forms := by simp [State.framed]
@[simp] theorem forms_portFrame (k code t) : (s.portFrame k code t).forms = s.forms := by simp [State.portFrame]
@[simp] theorem le_forms_doAdcSample (h : x ≤ s.forms) (k code t) : x ≤ (doAdcSample k code t s).forms := by simp [doAdcSample, h]
@[simp] theorem forms_doMmWindowEnd (k t) : (doMmWindowEnd k t s).forms = s.forms := by simp [doMmWindowEnd]
@[simp] theorem le_forms_doFclkLoss (h : x ≤ s.forms) (n t) : x ≤ (doFclkLoss n t s).forms := by simp [doFclkLoss, h]
@[simp] theorem forms_doFclkReturn (n t) : (doFclkReturn n t s).forms = s.forms := by simp [doFclkReturn]
@[simp] theorem forms_writeChainCtl (k v) : (s.writeChainCtl k v).forms = s.forms := by
  unfold State.writeChainCtl
  dsimp only
  split <;> simp
@[simp] theorem forms_doChainPreset (k v) : (doChainPreset k v s).forms = s.forms := by simp [doChainPreset]
@[simp] theorem forms_doFchainEnable (k v) : (doFchainEnable k v s).forms = s.forms := by simp [doFchainEnable]

/-! ### Bench -/

@[simp] theorem forms_putTset (n k bs) : (s.putTset n k bs).forms = s.forms := by simp [State.putTset]
@[simp] theorem forms_delTset (n k) : (s.delTset n k).forms = s.forms := by simp [State.delTset]
@[simp] theorem forms_doLoadTset (sq idx src) : (doLoadTset sq idx src s).forms = s.forms := by
  unfold doLoadTset
  dsimp only
  (repeat' split) <;> simp
@[simp] theorem forms_doDeferredTsetLoad (sq idx) : (doDeferredTsetLoad sq idx s).forms = s.forms := by
  unfold doDeferredTsetLoad
  split <;> simp
@[simp] theorem forms_unloadTset (sq idx n k) : (s.unloadTset sq idx n k).forms = s.forms := by simp [State.unloadTset]
@[simp] theorem forms_doUnloadTset (sq idx) : (doUnloadTset sq idx s).forms = s.forms := by simp [doUnloadTset]
@[simp] theorem forms_doDeferredTsetUnload (sq idx) : (doDeferredTsetUnload sq idx s).forms = s.forms := by
  unfold doDeferredTsetUnload
  split <;> simp
@[simp] theorem forms_upDrift (n f) : (s.upDrift n f).forms = s.forms := by simp [State.upDrift]
@[simp] theorem forms_acquireDrift (n) : (s.acquireDrift n).forms = s.forms := by simp [State.acquireDrift]
@[simp] theorem forms_driftUpdate (n gain offset whole) : (s.driftUpdate n gain offset whole).forms = s.forms := by simp [State.driftUpdate]
@[simp] theorem forms_doDriftMeasurement (n gain offset t) : (doDriftMeasurement n gain offset t s).forms = s.forms := by
  simp [doDriftMeasurement]
@[simp] theorem forms_doDriftAcquireUpdate (n gain offset t) : (doDriftAcquireUpdate n gain offset t s).forms = s.forms := by
  simp [doDriftAcquireUpdate]
@[simp] theorem forms_acquireWhole (n) : (s.acquireWhole n).forms = s.forms := by simp [State.acquireWhole]
@[simp] theorem forms_writeDriftCtl (n v) : (s.writeDriftCtl n v).forms = s.forms := by simp [State.writeDriftCtl]
@[simp] theorem forms_doDriftEnable (n v) : (doDriftEnable n v s).forms = s.forms := by simp [doDriftEnable]
@[simp] theorem forms_doDriftDisable (n v) : (doDriftDisable n v s).forms = s.forms := by simp [doDriftDisable]
@[simp] theorem forms_doResetTrim (n v) : (doResetTrim n v s).forms = s.forms := by simp [doResetTrim]
@[simp] theorem forms_doDeskewWrite (n c second v) : (doDeskewWrite n c second v s).forms = s.forms := by simp [doDeskewWrite]
@[simp] theorem forms_upPe (n f) : (s.upPe n f).forms = s.forms := by simp [State.upPe]
@[simp] theorem forms_peQueue (n i) : (s.peQueue n i).forms = s.forms := by simp [State.peQueue]
@[simp] theorem forms_peIssued (u) : (s.peIssued u).forms = s.forms := by
  unfold State.peIssued
  (repeat' split) <;> simp
@[simp] theorem forms_peRoom (n) : (s.peRoom n).forms = s.forms := by
  unfold State.peRoom
  split <;> simp
@[simp] theorem forms_peCut (n u st) : (s.peCut n u st).1.forms = s.forms := by
  unfold State.peCut
  dsimp only
  (repeat' split) <;> simp
@[simp] theorem forms_peOrphan (n u keep) : (s.peOrphan n u keep).forms = s.forms := by simp [State.peOrphan]
@[simp] theorem forms_doPeListStart (n) : (doPeListStart n s).forms = s.forms := by simp [doPeListStart]
@[simp] theorem forms_peSend (n fs) : (s.peSend n fs).forms = s.forms := by simp [State.peSend]
@[simp] theorem forms_upCalib (sq idx f) : (s.upCalib sq idx f).forms = s.forms := by simp [State.upCalib]
@[simp] theorem forms_doCalibrate (sq idx) : (doCalibrate sq idx s).forms = s.forms := by simp [doCalibrate]
@[simp] theorem forms_doCalibrationStart (sq idx) : (doCalibrationStart sq idx s).forms = s.forms := by
  unfold doCalibrationStart
  split <;> simp
@[simp] theorem forms_upCalChan (n c f) : (s.upCalChan n c f).forms = s.forms := by simp [State.upCalChan]
@[simp] theorem forms_calApply (c m) : (s.calApply c m).forms = s.forms := by simp [State.calApply]
@[simp] theorem forms_dropCalib (sq idx) : (s.dropCalib sq idx).forms = s.forms := by simp [State.dropCalib]
@[simp] theorem forms_calFinish (c) : (s.calFinish c).forms = s.forms := by simp [State.calFinish]
@[simp] theorem forms_calRestore (c) : (s.calRestore c).forms = s.forms := by simp [State.calRestore]
@[simp] theorem forms_doCalibrationComplete (sq idx meas) : (doCalibrationComplete sq idx meas s).forms = s.forms := by
  unfold doCalibrationComplete
  split <;> simp
@[simp] theorem forms_calListDone (sq idx st restore) : (s.calListDone sq idx st restore).forms = s.forms := by
  unfold State.calListDone
  split <;> simp
@[simp] theorem forms_peWaitsOrphan (n u drop) : (s.peWaitsOrphan n u drop).forms = s.forms := by simp [State.peWaitsOrphan]
@[simp] theorem forms_calStop (c) (st) (h : CalStop) : (s.calStop c st h).forms = s.forms := by simp [State.calStop]
@[simp] theorem forms_calStopAll (p) (st) (h : CalStop) : (s.calStopAll p st h).forms = s.forms := by simp [State.calStopAll]

/-! ### Meters -/

@[simp] theorem forms_upMeter (k f) : (s.upMeter k f).forms = s.forms := by simp [State.upMeter]
@[simp] theorem forms_endMeas (k status q timeout ovf now) : (s.endMeas k status q timeout ovf now).forms = s.forms := by
  simp [State.endMeas]
@[simp] theorem forms_stopMeas (k status) : (s.stopMeas k status).forms = s.forms := by simp [State.stopMeas]
@[simp] theorem forms_armMeter (k t) : (s.armMeter k t).forms = s.forms := by simp [State.armMeter]
@[simp] theorem forms_setupMeas (c o) : (s.setupMeas c o).forms = s.forms := by simp [State.setupMeas]
@[simp] theorem forms_doMeasureInterval (sq idx) : (doMeasureInterval sq idx s).forms = s.forms := by simp [doMeasureInterval]
@[simp] theorem forms_doMeterArm (n i t) : (doMeterArm n i t s).forms = s.forms := by simp [doMeterArm]
@[simp] theorem forms_stopEdge (k a e) : (s.stopEdge k a e).forms = s.forms := by simp [State.stopEdge]
@[simp] theorem forms_signedPair (k) : (s.signedPair k).forms = s.forms := by
  unfold State.signedPair
  dsimp only
  split <;> simp
@[simp] theorem forms_takeEdge (k stop e) : (s.takeEdge k stop e).forms = s.forms := by
  unfold State.takeEdge
  dsimp only
  (repeat' split) <;> simp
@[simp] theorem forms_edgeAt (k stop e) : (s.edgeAt k stop e).forms = s.forms := by simp [State.edgeAt]
@[simp] theorem forms_doMeterEdge (n i stop coarse phase) : (doMeterEdge n i stop coarse phase s).forms = s.forms := by simp [doMeterEdge]
@[simp] theorem forms_markEdges (g e t marks) : (s.markEdges g e t marks).forms = s.forms := by simp [State.markEdges]
@[simp] theorem forms_doMeterTimeout (n i t) : (doMeterTimeout n i t s).forms = s.forms := by simp [doMeterTimeout]
@[simp] theorem forms_doMeterOverflow (n i t) : (doMeterOverflow n i t s).forms = s.forms := by simp [doMeterOverflow]
@[simp] theorem forms_doImeterAbort (n i v) : (doImeterAbort n i v s).forms = s.forms := by simp [doImeterAbort]
@[simp] theorem forms_retireMeter (k) : (s.retireMeter k).forms = s.forms := by simp [State.retireMeter]
@[simp] theorem forms_doImeterFailure (n i) : (doImeterFailure n i s).forms = s.forms := by simp [doImeterFailure]

/-! ### Triggers -/

@[simp] theorem forms_upTrig (k f) : (s.upTrig k f).forms = s.forms := by simp [State.upTrig]
@[simp] theorem forms_armTrig (k t) : (s.armTrig k t).forms = s.forms := by simp [State.armTrig]
@[simp] theorem forms_doTrigArm (n u v) : (doTrigArm n u v s).forms = s.forms := by simp [doTrigArm]
@[simp] theorem forms_trigPhase (k a1) : (s.trigPhase k a1).forms = s.forms := by simp [State.trigPhase]
@[simp] theorem le_forms_trigStamp (h : x ≤ s.forms) (k t t0 rec) : x ≤ (s.trigStamp k t t0 rec).forms := by simp [State.trigStamp, h]
@[simp] theorem forms_lateRecord (k) : (s.lateRecord k).forms = s.forms := by
  unfold State.lateRecord
  split <;> simp
@[simp] theorem forms_doTriggerEventArrival (n u src stamp arrive) : (doTriggerEventArrival n u src stamp arrive s).forms = s.forms := by
  unfold doTriggerEventArrival
  dsimp only
  (repeat' split) <;> simp
@[simp] theorem forms_pulseOut (j) : (s.pulseOut j).forms = s.forms := by simp [State.pulseOut]
@[simp] theorem forms_publish (k t0) : (s.publish k t0).forms = s.forms := by simp [State.publish]
@[simp] theorem le_forms_doTriggerDecision (h : x ≤ s.forms) (n u t) : x ≤ (doTriggerDecision n u t s).forms := by
  unfold doTriggerDecision
  dsimp only
  split <;> simp [h]
@[simp] theorem forms_doTriggerRearm (n u t) : (doTriggerRearm n u t s).forms = s.forms := by
  unfold doTriggerRearm
  dsimp only
  split <;> simp
@[simp] theorem forms_doTrigOutPulseEnd (j t) : (doTrigOutPulseEnd j t s).forms = s.forms := by
  unfold doTrigOutPulseEnd
  split <;> simp

/-! ### Starts -/

@[simp] theorem forms_resetResult (x b) : (s.resetResult x b).forms = s.forms := by simp [State.resetResult]
@[simp] theorem forms_restoreResult (x b k) : (s.restoreResult x b k).forms = s.forms := by simp [State.restoreResult]
@[simp] theorem forms_restoreSlice (g c k t) : (s.restoreSlice g c k t).forms = s.forms := by simp [State.restoreSlice]
@[simp] theorem forms_startRegions (x b) : (s.startRegions x b).forms = s.forms := by
  unfold State.startRegions
  dsimp only
  (repeat' split) <;> simp
@[simp] theorem forms_startSlice (g t) : (s.startSlice g t).forms = s.forms := by
  unfold State.startSlice
  (repeat' split) <;> simp
@[simp] theorem forms_armBurst (e t) : (s.armBurst e t).forms = s.forms := by simp [State.armBurst]
@[simp] theorem forms_freezeChains (e on) : (s.freezeChains e on).forms = s.forms := by simp [State.freezeChains]
@[simp] theorem le_forms_startBurst (h : x ≤ s.forms) (e t) : x ≤ (s.startBurst e t).forms := by
  unfold State.startBurst
  (repeat' split) <;> simp [h]
@[simp] theorem forms_setStart (e) : (s.setStart e).forms = s.forms := by
  unfold State.setStart
  (repeat' split) <;> simp
@[simp] theorem forms_noteReady (e pos) : (s.noteReady e pos).forms = s.forms := by
  unfold State.noteReady
  split <;> simp
@[simp] theorem le_forms_doBurstStart (h : x ≤ s.forms) (isGroup id t) : x ≤ (doBurstStart isGroup id t s).forms := by
  unfold doBurstStart
  dsimp only
  (repeat' split) <;> simp [h]
@[simp] theorem le_forms_doVectorStart (h : x ≤ s.forms) (n sl smp) : x ≤ (doVectorStart n sl smp s).forms := by
  unfold doVectorStart
  dsimp only
  (repeat' split) <;> simp [h]

/-! ### EndBurst -/

@[simp] theorem le_forms_endWithBurst (h : x ≤ s.forms) (e started) : x ≤ (s.endWithBurst e started).forms := by
  unfold State.endWithBurst
  extract_lets s1
  have h1 : x ≤ s1.forms := by
    refine le_forms_foldl h (fun a y => ?_) _
    split <;> simp
  simp [h1]
@[simp] theorem forms_endSlice (g st x) : (s.endSlice g st x).forms = s.forms := by simp [State.endSlice]
@[simp] theorem le_forms_endSites (h : x ≤ s.forms) (b st y) : x ≤ (s.endSites b st y).forms := by
  refine le_forms_foldl h (fun a z => ?_) _
  extract_lets s1 s2 s3
  have h2 : a.forms ≤ s2.forms := by unfold s2 s1; split <;> simp
  have h3 : a.forms ≤ s3.forms := by unfold s3; split <;> simp [h2]
  simp [h3]
@[simp] theorem forms_blockLate (b) : (s.blockLate b).forms = s.forms := by simp [State.blockLate]
@[simp] theorem le_forms_finishBurst (h : x ≤ s.forms) (b0 y) : x ≤ (s.finishBurst b0 y).forms := by
  unfold State.finishBurst
  dsimp only
  (repeat' split) <;> simp [h]
@[simp] theorem le_forms_dropBurst (h : x ≤ s.forms) (e status reason) : x ≤ (s.dropBurst e status reason).forms := by
  unfold State.dropBurst
  split <;> simp [h]
@[simp] theorem le_forms_stopBurst (h : x ≤ s.forms) (e status) : x ≤ (s.stopBurst e status).forms := by
  unfold State.stopBurst
  split <;> simp [h]
@[simp] theorem forms_noStartQual (e) : (s.noStartQual e).forms = s.forms := by simp [State.noStartQual]
@[simp] theorem le_forms_doBurstComplete (h : x ≤ s.forms) (isGroup id) : x ≤ (doBurstComplete isGroup id s).forms := by
  unfold doBurstComplete
  dsimp only
  split <;> simp [h]
@[simp] theorem le_forms_needRing (h : x ≤ s.forms) (e) : x ≤ (s.needRing e).forms := by simp [State.needRing, h]
@[simp] theorem le_forms_submitX (h : x ≤ s.forms) (q) : x ≤ (s.submitX q).1.forms := by
  unfold State.submitX
  dsimp only
  (repeat' split) <;> simp [h]
theorem le_forms_of_submitX {q : Submit} {p : State × Option Result} (h : x ≤ s.forms) (e : s.submitX q = p) :
    x ≤ p.1.forms := e ▸ le_forms_submitX h q
@[simp] theorem le_forms_doRunBurst (h : x ≤ s.forms) (sq idx) : x ≤ (doRunBurst sq idx s).forms := by
  refine le_forms_withDesc h fun d => ?_
  dsimp only
  split <;> simp [h]
@[simp] theorem le_forms_doAdmWaitExpiry (h : x ≤ s.forms) (isGroup id t) :
    x ≤ (doAdmWaitExpiry isGroup id t s).forms := by
  unfold doAdmWaitExpiry
  split <;> simp [h]
@[simp] theorem forms_doAgeLimitExpiry (isGroup id t) : (doAgeLimitExpiry isGroup id t s).forms = s.forms := by
  unfold doAgeLimitExpiry
  split <;> simp
@[simp] theorem forms_doXholdExpiry (isGroup id t) : (doXholdExpiry isGroup id t s).forms = s.forms := by
  unfold doXholdExpiry
  dsimp only
  split <;> simp
@[simp] theorem le_forms_cancelRetry (h : x ≤ s.forms) (tid k) : x ≤ (s.cancelRetry tid k).forms := by
  unfold State.cancelRetry
  split <;> simp [h]
@[simp] theorem le_forms_retryBurst (h : x ≤ s.forms) (tid t o) : x ≤ (s.retryBurst tid t o).forms := by
  unfold State.retryBurst
  dsimp only
  split <;> simp [h]
@[simp] theorem le_forms_doUnloadPattern (h : x ≤ s.forms) (sq idx) : x ≤ (doUnloadPattern sq idx s).forms := by
  refine le_forms_withDesc h fun d => ?_
  dsimp only
  (repeat' split) <;> simp [h]
@[simp] theorem forms_doDeferredUnload (sq idx) : (doDeferredUnload sq idx s).forms = s.forms := by
  unfold doDeferredUnload
  split <;> simp

/-! ### Pe -/

@[simp] theorem forms_upPeOp (tid f) : (s.upPeOp tid f).forms = s.forms := by simp [State.upPeOp]
@[simp] theorem forms_startSetPe (tid t st) : (s.startSetPe tid t st).forms = s.forms := by simp [State.startSetPe]
@[simp] theorem forms_settlePe (tid) : (s.settlePe tid).forms = s.forms := by
  unfold State.settlePe
  split <;> simp
@[simp] theorem forms_cutSetPe (tid st) : (s.cutSetPe tid st).forms = s.forms := by
  unfold State.cutSetPe
  split
  · rfl
  · extract_lets p s0 r s1
    have hr : r.1.forms = s.forms := by
      refine (foldl_keep (fun a : State × List Nat => a.1.forms) _ (fun a n => ?_) _ _).trans (by simp [s0, p])
      exact forms_peCut ..
    simp [s1, hr]
@[simp] theorem forms_upPower (tid f) : (s.upPower tid f).forms = s.forms := by simp [State.upPower]
@[simp] theorem forms_endPower (tid st) : (s.endPower tid st).forms = s.forms := by
  unfold State.endPower
  split <;> simp
@[simp] theorem forms_powerList (tid p phase) : (s.powerList tid p phase).forms = s.forms := by simp [State.powerList]
@[simp] theorem forms_powerSwitch (tid p) : (s.powerSwitch tid p).forms = s.forms := by simp [State.powerSwitch]
@[simp] theorem forms_startPower (tid t st) : (s.startPower tid t st).forms = s.forms := by simp [State.startPower]
@[simp] theorem forms_powerSettled (tid p) : (s.powerSettled tid p).forms = s.forms := by simp [State.powerSettled]
@[simp] theorem forms_doPowerDutSettleEnd (tid t) : (doPowerDutSettleEnd tid t s).forms = s.forms := by
  unfold doPowerDutSettleEnd
  split <;> simp
@[simp] theorem forms_powerListDone (tid n st) : (s.powerListDone tid n st).forms = s.forms := by
  unfold State.powerListDone
  split <;> simp
@[simp] theorem forms_cutPower (tid st) : (s.cutPower tid st).forms = s.forms := by simp [State.cutPower]
@[simp] theorem forms_doPeListDone (n bits) : (doPeListDone n bits s).forms = s.forms := by
  unfold doPeListDone
  dsimp only
  (repeat' split) <;> simp
@[simp] theorem forms_pePortFail (n st) : (s.pePortFail n st).forms = s.forms := by
  unfold State.pePortFail
  extract_lets users u p s1
  have h1 : s1.forms = s.forms := by simp [s1, u]
  refine (forms_foldl (fun a u => ?_) _ _).trans h1
  split
  · simp
  · extract_lets s2
    have h2 : s2.forms = a.forms := by unfold s2; split <;> simp
    simp [h2]
  · rfl
@[simp] theorem forms_peUe (n k) : (s.peUe n k).forms = s.forms := by simp [State.peUe]

/-! ### Flow -/

@[simp] theorem le_forms_abortSlot (h : x ≤ s.forms) (tid k) : x ≤ (s.abortSlot tid k).forms := by
  unfold State.abortSlot
  (repeat' split) <;> simp [h]
@[simp] theorem forms_leaveSlot (tid t) : (s.leaveSlot tid t).forms = s.forms := by simp [State.leaveSlot]
@[simp] theorem le_forms_endTask (h : x ≤ s.forms) (tid st qual exit) : x ≤ (s.endTask tid st qual exit).forms := by
  unfold State.endTask
  split <;> simp [h]
@[simp] theorem le_forms_leaveCore (h : x ≤ s.forms) {f : State → State} (hf : x ≤ (f s).forms) (tid) :
    x ≤ (s.leaveCore tid f).forms := by
  unfold State.leaveCore
  split <;> simp [h, hf]
@[simp] theorem le_forms_yieldTask (h : x ≤ s.forms) (tid i) : x ≤ (s.yieldTask tid i).forms := by simp [State.yieldTask, h]
@[simp] theorem forms_unslot (tid) : (s.unslot tid).forms = s.forms := by simp [State.unslot]
@[simp] theorem le_forms_evict (h : x ≤ s.forms) (i) : x ≤ (s.evict i).forms := by
  unfold State.evict
  dsimp only
  (repeat' split) <;> simp [h]
@[simp] theorem le_forms_settleWarden (h : x ≤ s.forms) : x ≤ s.settleWarden.forms := by simp [State.settleWarden, h]
@[simp] theorem le_forms_stepEnd (h : x ≤ s.forms) (tid st status bs go yields) :
    x ≤ (s.stepEnd tid st status bs go yields).forms := by
  unfold State.stepEnd
  (repeat' split) <;> simp [h]
@[simp] theorem le_forms_stepDone (h : x ≤ s.forms) (tid t st r go yields) :
    x ≤ (s.stepDone tid t st r go yields).forms := by
  simp [State.stepDone, h]
@[simp] theorem le_forms_stepWait (h : x ≤ s.forms) (tid mask all kind wakeT) :
    x ≤ (s.stepWait tid mask all kind wakeT).forms := by
  unfold State.stepWait
  (repeat' split) <;> simp [h]
@[simp] theorem le_forms_flowCmd {op tid : Nat} {f : Task → List Byte → State} (h : x ≤ s.forms)
    (hf : ∀ t st, x ≤ (f t st).forms) : x ≤ (flowCmd op tid f s).forms := by
  unfold flowCmd
  (repeat' split) <;> simp [hf, h]
@[simp] theorem le_forms_opStart (h : x ≤ s.forms) (tid t st) : x ≤ (s.opStart tid t st).1.forms := by
  unfold State.opStart
  dsimp only
  split
  · have h1 := le_forms_submitX h (taskSubmit tid t st none)
    split
    next e => rwa [e] at h1
    next e => rwa [e] at h1
  all_goals (repeat' split) <;> simp [h]
theorem le_forms_of_opStart {tid : Nat} {t : Task} {st : List Byte} {p : State × Option Result} (h : x ≤ s.forms)
    (e : s.opStart tid t st = p) : x ≤ p.1.forms := e ▸ le_forms_opStart h tid t st
@[simp] theorem le_forms_opFinish (h : x ≤ s.forms) (tid k st) : x ≤ (s.opFinish tid k st).forms := by simp [State.opFinish, h]
@[simp] theorem le_forms_opStep (h : x ≤ s.forms) (tid t st) : x ≤ (s.opStep tid t st).forms := by
  unfold State.opStep
  extract_lets k wait s0 u s1
  have h1 : x ≤ s1.forms := by simp [s1, u, h]
  split
  · split <;> simp [h]
  · split
    · simp [h]
    · split
      next s2 r e =>
        have h2 : x ≤ s2.forms := le_forms_of_opStart h1 e
        simp [h2]
      next s2 e =>
        have h2 : x ≤ s2.forms := le_forms_of_opStart h1 e
        simp [h2]
@[simp] theorem le_forms_opCmd (h : x ≤ s.forms) (op tid) : x ≤ (opCmd op tid s).forms := by simp [opCmd, h]
@[simp] theorem le_forms_doRunBurstStep (h : x ≤ s.forms) (tid) : x ≤ (doRunBurstStep tid s).forms := by simp [doRunBurstStep, h]
@[simp] theorem le_forms_doMeasureIntervalStep (h : x ≤ s.forms) (tid) : x ≤ (doMeasureIntervalStep tid s).forms := by
  simp [doMeasureIntervalStep, h]
@[simp] theorem le_forms_doAcquireStep (h : x ≤ s.forms) (tid) : x ≤ (doAcquireStep tid s).forms := by simp [doAcquireStep, h]
@[simp] theorem le_forms_doSetPe (h : x ≤ s.forms) (tid) : x ≤ (doSetPe tid s).forms := by simp [doSetPe, h]
@[simp] theorem le_forms_doPowerDut (h : x ≤ s.forms) (tid) : x ≤ (doPowerDut tid s).forms := by simp [doPowerDut, h]
@[simp] theorem le_forms_reissue (h : x ≤ s.forms) (tid k) : x ≤ (s.reissue tid k).forms := by
  unfold State.reissue
  split
  · exact h
  · extract_lets s1 o
    have h1 : x ≤ s1.forms := by simp [s1, h]
    split
    · simp [h1]
    · split
      next e => simp [le_forms_of_opStart h1 e]
      next e => exact le_forms_of_opStart h1 e
@[simp] theorem le_forms_doRetryGapExpiry (h : x ≤ s.forms) (tid t) : x ≤ (doRetryGapExpiry tid t s).forms := by
  unfold doRetryGapExpiry
  split <;> simp [h]
@[simp] theorem le_forms_doAbortOpStep (h : x ≤ s.forms) (tid) : x ≤ (doAbortOpStep tid s).forms :=
  le_forms_flowCmd h fun _ _ => le_forms_stepDone (le_forms_foldl h (fun _ _ => le_forms_abortSlot le_rfl _ _) _) _ _ _ _ _ _
@[simp] theorem le_forms_waitDone (h : x ≤ s.forms) (tid t st flags timeout) :
    x ≤ (s.waitDone tid t st flags timeout).forms := by
  simp [State.waitDone, h]
@[simp] theorem le_forms_doWaitEvent (h : x ≤ s.forms) (tid) : x ≤ (doWaitEvent tid s).forms := by simp [doWaitEvent, h]
@[simp] theorem le_forms_doClearFlags (h : x ≤ s.forms) (tid) : x ≤ (doClearFlags tid s).forms := by simp [doClearFlags, h]
@[simp] theorem le_forms_doFlowDelay (h : x ≤ s.forms) (tid) : x ≤ (doFlowDelay tid s).forms := by simp [doFlowDelay, h]
@[simp] theorem le_forms_doBranchOn (h : x ≤ s.forms) (tid) : x ≤ (doBranchOn tid s).forms := by
  refine le_forms_flowCmd h fun t st => ?_
  dsimp only
  (repeat' split) <;> simp [h]
@[simp] theorem le_forms_doFlowJump (h : x ≤ s.forms) (tid) : x ≤ (doFlowJump tid s).forms := by simp [doFlowJump, h]
@[simp] theorem le_forms_doFlowAlu (h : x ≤ s.forms) (tid) : x ≤ (doFlowAlu tid s).forms := by
  refine le_forms_flowCmd h fun t st => ?_
  dsimp only
  (repeat' split) <;> simp [h]
@[simp] theorem le_forms_doFlowRetry (h : x ≤ s.forms) (tid) : x ≤ (doFlowRetry tid s).forms := by simp [doFlowRetry, h]
@[simp] theorem le_forms_doCallFlow (h : x ≤ s.forms) (tid) : x ≤ (doCallFlow tid s).forms := by
  refine le_forms_flowCmd h fun t st => ?_
  dsimp only
  (repeat' split) <;> simp [h]
@[simp] theorem le_forms_doFlowReturn (h : x ≤ s.forms) (tid) : x ≤ (doFlowReturn tid s).forms := by
  refine le_forms_flowCmd h fun t st => ?_
  (repeat' split) <;> simp [h]
@[simp] theorem le_forms_doFlowEnd (h : x ≤ s.forms) (tid) : x ≤ (doFlowEnd tid s).forms := by
  refine le_forms_flowCmd h fun t st => ?_
  dsimp only
  (repeat' split) <;> simp [h]
@[simp] theorem le_forms_doFlowSignal (h : x ≤ s.forms) (tid) : x ≤ (doFlowSignal tid s).forms := by simp [doFlowSignal, h]
@[simp] theorem le_forms_lostLock (h : x ≤ s.forms) (tid t st k) : x ≤ (s.lostLock tid t st k).forms := by simp [State.lostLock, h]
@[simp] theorem le_forms_lockDone (h : x ≤ s.forms) (tid t st k timeout ab) :
    x ≤ (s.lockDone tid t st k timeout ab).forms := by
  simp [State.lockDone, h]
@[simp] theorem le_forms_doLockStep (h : x ≤ s.forms) (tid) : x ≤ (doLockStep tid s).forms := by
  refine le_forms_flowCmd h fun t st => ?_
  dsimp only
  (repeat' split) <;> simp [h]
@[simp] theorem le_forms_doUnlockStep (h : x ≤ s.forms) (tid) : x ≤ (doUnlockStep tid s).forms := by simp [doUnlockStep, h]
@[simp] theorem le_forms_doLogStep (h : x ≤ s.forms) (tid) : x ≤ (doLogStep tid s).forms := by
  refine le_forms_flowCmd h fun t st => ?_
  dsimp only
  (repeat' split) <;> simp [h]
@[simp] theorem forms_writeMask (g v) : (s.writeMask g v).forms = s.forms := by
  unfold State.writeMask
  split <;> simp
@[simp] theorem le_forms_doSetMask (h : x ≤ s.forms) (tid) : x ≤ (doSetMask tid s).forms := by
  refine le_forms_flowCmd h fun t st => ?_
  dsimp only
  (repeat' split) <;> simp [h]
@[simp] theorem le_forms_doArmTrigger (h : x ≤ s.forms) (tid) : x ≤ (doArmTrigger tid s).forms := by simp [doArmTrigger, h]
@[simp] theorem le_forms_doSetPrio (h : x ≤ s.forms) (tid) : x ≤ (doSetPrio tid s).forms := by
  refine le_forms_flowCmd h fun t st => ?_
  simp [h]
@[simp] theorem le_forms_doYield (h : x ≤ s.forms) (tid) : x ≤ (doYield tid s).forms := by simp [doYield, h]
@[simp] theorem le_forms_doNopStep (h : x ≤ s.forms) (tid) : x ≤ (doNopStep tid s).forms := by simp [doNopStep, h]

/-! ### Wake -/

@[simp] theorem forms_timerFires (tid) : (s.timerFires tid).forms = s.forms := by
  unfold State.timerFires
  split <;> simp
@[simp] theorem forms_lateTimers : s.lateTimers.forms = s.forms := by simp [State.lateTimers]
@[simp] theorem forms_leaveLull : s.leaveLull.forms = s.forms := by
  unfold State.leaveLull
  split
  · rfl
  · extract_lets s0 ms pw c hi s1 s2 s3 s4
    simp [s4, s3, s2, s1, s0]
@[simp] theorem forms_wakeChip (src) : (s.wakeChip src).forms = s.forms := by simp [State.wakeChip]

/-! ### TaskCtl -/

@[simp] theorem forms_doContextFetchDone (i) : (doContextFetchDone i s).forms = s.forms := by simp [doContextFetchDone]
@[simp] theorem le_forms_doQuantumExpiry (h : x ≤ s.forms) (tid) : x ≤ (doQuantumExpiry tid s).forms := by
  unfold doQuantumExpiry
  split <;> simp [h]
@[simp] theorem forms_doTaskTimerExpiry (tid t) : (doTaskTimerExpiry tid t s).forms = s.forms := by
  unfold doTaskTimerExpiry
  split <;> simp
@[simp] theorem le_forms_doPaddockWardenWrite (h : x ≤ s.forms) (v) : x ≤ (doPaddockWardenWrite v s).forms := by
  simp [doPaddockWardenWrite, h]
@[simp] theorem le_forms_failRun (h : x ≤ s.forms) (tid st inStep) : x ≤ (s.failRun tid st inStep).forms := by
  unfold State.failRun
  (repeat' split) <;> simp [h]
@[simp] theorem le_forms_vacate (h : x ≤ s.forms) (i st) : x ≤ (s.vacate i st).1.forms := by
  unfold State.vacate
  dsimp only
  (repeat' split) <;> simp [h]
@[simp] theorem forms_retireSlot (i) : (s.retireSlot i).forms = s.forms := by
  unfold State.retireSlot
  dsimp only
  split <;> simp
@[simp] theorem le_forms_coreFails (h : x ≤ s.forms) (core) : x ≤ (s.coreFails core).forms := by
  unfold State.coreFails
  split
  · exact h
  · extract_lets p s0 less
    have h0 : x ≤ s0.forms := h
    have hless (u : State) : (less u).forms = u.forms := by simp [less]
    split
    · simp [hless, h0]
    · split
      next i _ _ s1 run buf e =>
        have h1 : x ≤ s1.forms := by
          have hv := le_forms_vacate (s := s0.upFslot i (fun f => { f with settling := true })) (by simpa using h0) i St.hwFault
          rwa [e] at hv
        extract_lets spare s2 s3
        have h2 : x ≤ s2.forms := by
          unfold s2
          clear_value spare
          split <;> simp [hless, h1]
        exact le_forms_settleWarden (le_forms_foldl (by simp [s3, h2]) (fun a t => by simp) _)
@[simp] theorem le_forms_doFlowCoreFailure (h : x ≤ s.forms) (core) : x ≤ (doFlowCoreFailure core s).forms := by
  simp [doFlowCoreFailure, h]
@[simp] theorem forms_doSpareCoreReady (i) : (doSpareCoreReady i s).forms = s.forms := by simp [doSpareCoreReady]
@[simp] theorem forms_doStartFlow (sq idx) : (doStartFlow sq idx s).forms = s.forms := by
  refine forms_withDesc fun d => ?_
  dsimp only
  (repeat' split) <;> simp
@[simp] theorem le_forms_doAbortTask (h : x ≤ s.forms) (sq idx) : x ≤ (doAbortTask sq idx s).forms := by
  refine le_forms_withDesc h fun d => ?_
  dsimp only
  (repeat' split) <;> simp [h]
@[simp] theorem forms_doSignalTask (sq idx) : (doSignalTask sq idx s).forms = s.forms := by simp [doSignalTask]
@[simp] theorem forms_doReadTask (sq idx) : (doReadTask sq idx s).forms = s.forms := by
  refine forms_withDesc fun d => ?_
  dsimp only
  (repeat' split) <;> simp
@[simp] theorem forms_doLockDesc (sq idx) : (doLockDesc sq idx s).forms = s.forms := by simp [doLockDesc]
@[simp] theorem forms_doLockTimeout (sq idx t) : (doLockTimeout sq idx t s).forms = s.forms := by
  unfold doLockTimeout
  dsimp only
  split <;> simp
@[simp] theorem forms_doUnlockDesc (sq idx) : (doUnlockDesc sq idx s).forms = s.forms := by simp [doUnlockDesc]
@[simp] theorem forms_doUnloadFlow (sq idx) : (doUnloadFlow sq idx s).forms = s.forms := by simp [doUnloadFlow]
@[simp] theorem forms_doUnloadPeList (sq idx) : (doUnloadPeList sq idx s).forms = s.forms := by simp [doUnloadPeList]
@[simp] theorem forms_doDeferredPeListUnload (sq idx) : (doDeferredPeListUnload sq idx s).forms = s.forms := by
  unfold doDeferredPeListUnload
  split <;> simp
@[simp] theorem le_forms_abortEnt (h : x ≤ s.forms) (e k) : x ≤ (s.abortEnt e k).forms := by
  unfold State.abortEnt
  split
  case h_3 =>
    extract_lets xs s1
    have h1 : x ≤ s1.forms := by simp [s1, h]
    simp [h1]
  all_goals simp [h]
@[simp] theorem le_forms_doAbortOp (h : x ≤ s.forms) (sq idx) : x ≤ (doAbortOp sq idx s).forms := by
  refine le_forms_withDesc h fun d => ?_
  dsimp only
  (repeat' split) <;> simp [h]
@[simp] theorem forms_doDeclareSite (sq idx) : (doDeclareSite sq idx s).forms = s.forms := by simp [doDeclareSite]
@[simp] theorem le_forms_endSiteWork (h : x ≤ s.forms) (y) : x ≤ (s.endSiteWork y).forms := by
  unfold State.endSiteWork
  extract_lets s1 s2 s3
  have h1 : x ≤ s1.forms := by
    refine le_forms_foldl h (fun a t => ?_) _
    split
    · split <;> simp
    · simp
  have h3 : x ≤ s3.forms := by simp [s3, s2, h1]
  simp [h3]
@[simp] theorem forms_freeSite (x) : (s.freeSite x).forms = s.forms := by
  unfold State.freeSite
  split <;> simp
@[simp] theorem le_forms_undeclTurn (h : x ≤ s.forms) (d) : x ≤ (s.undeclTurn d).forms := by
  unfold State.undeclTurn
  dsimp only
  split <;> simp [h]
@[simp] theorem le_forms_doUndeclareSite (h : x ≤ s.forms) (sq idx) : x ≤ (doUndeclareSite sq idx s).forms := by simp [doUndeclareSite, h]
@[simp] theorem le_forms_declWaited (h : x ≤ s.forms) (group sq idx) : x ≤ (declWaited group sq idx s).forms := by
  unfold declWaited
  split <;> simp [h]
@[simp] theorem le_forms_doDeferredDeclaration (h : x ≤ s.forms) (sq idx) :
    x ≤ (doDeferredDeclaration sq idx s).forms := by
  simp [doDeferredDeclaration, h]
@[simp] theorem le_forms_doDeferredUndeclaration (h : x ≤ s.forms) (sq idx) :
    x ≤ (doDeferredUndeclaration sq idx s).forms := by
  simp [doDeferredUndeclaration, h]
@[simp] theorem forms_doSiteMaskWrite (n v) : (doSiteMaskWrite n v s).forms = s.forms := by simp [doSiteMaskWrite]

/-! ### Memory -/

@[simp] theorem forms_arrive (m r) : (s.arrive m r).forms = s.forms := by simp [State.arrive]
@[simp] theorem forms_arbRefresh (m) : (s.arbRefresh m).forms = s.forms := by
  unfold State.arbRefresh
  split <;> simp
@[simp] theorem forms_arbCount (m win) : (s.arbCount m win).forms = s.forms := by simp [State.arbCount]
@[simp] theorem forms_grantTo (m r forced ref) : (s.grantTo m r forced ref).forms = s.forms := by simp [State.grantTo]
@[simp] theorem forms_arriveAll (m reqs) : (s.arriveAll m reqs).forms = s.forms := by simp [State.arriveAll]
@[simp] theorem forms_doArbiterDecision (m reqs t) : (doArbiterDecision m reqs t s).forms = s.forms := by
  unfold doArbiterDecision
  dsimp only
  (repeat' split) <;> simp
@[simp] theorem forms_doArbPrioWrite (m limit v) : (doArbPrioWrite m limit v s).forms = s.forms := by simp [doArbPrioWrite]
@[simp] theorem forms_doCeilPctWrite (v) : (doCeilPctWrite v s).forms = s.forms := by simp [doCeilPctWrite]
@[simp] theorem forms_doRefreshOwedTick (m) : (doRefreshOwedTick m s).forms = s.forms := by simp [doRefreshOwedTick]
@[simp] theorem forms_doMr4Poll (m rate t) : (doMr4Poll m rate t s).forms = s.forms := by
  unfold doMr4Poll
  dsimp only
  (repeat' split) <;> simp
@[simp] theorem forms_doWck2dqOscillator (m) : (doWck2dqOscillator m s).forms = s.forms := by simp [doWck2dqOscillator]
@[simp] theorem forms_doBackgroundZqCalibration (m) : (doBackgroundZqCalibration m s).forms = s.forms := by simp [doBackgroundZqCalibration]
@[simp] theorem forms_doScrubRead (m) : (doScrubRead m s).forms = s.forms := by simp [doScrubRead]
@[simp] theorem le_forms_readUe (h : x ≤ s.forms) (r) : x ≤ (s.readUe r).forms := by
  unfold State.readUe
  (repeat' split) <;> simp [h]
@[simp] theorem le_forms_doReadDataReturn (h : x ≤ s.forms) (m r) : x ≤ (doReadDataReturn m r s).forms := by
  unfold doReadDataReturn
  split
  · exact h
  · extract_lets s1 scrub access d
    have h1 : x ≤ s1.forms := by simp [s1, h]
    split
    · simp [h1]
    · split
      next e => simp [forms_of_useInjection e, h1]
      next e => simp [forms_of_useInjection e, h1]
      · split <;> simp [h1]
@[simp] theorem forms_starve (m) : (s.starve m).forms = s.forms := by simp [State.starve]
@[simp] theorem forms_copyRow (m br) : (s.copyRow m br).forms = s.forms := by simp [State.copyRow]
@[simp] theorem forms_startRepair (m) : (s.startRepair m).forms = s.forms := by
  unfold State.startRepair
  split <;> simp
@[simp] theorem forms_fenceBank (m b) : (s.fenceBank m b).forms = s.forms := by simp [State.fenceBank]
@[simp] theorem forms_doPprRun (m v) : (doPprRun m v s).forms = s.forms := by simp [doPprRun]
@[simp] theorem forms_doPprAutoStart (m t) : (doPprAutoStart m t s).forms = s.forms := by simp [doPprAutoStart]
@[simp] theorem forms_chanBack : s.chanBack.forms = s.forms := by simp [State.chanBack]
@[simp] theorem forms_doPprComplete (m t) : (doPprComplete m t s).forms = s.forms := by
  unfold doPprComplete
  split <;> simp
@[simp] theorem forms_doMemoryChannelFailure (m) : (doMemoryChannelFailure m s).forms = s.forms := by simp [doMemoryChannelFailure]

/-! ### PairOps -/

@[simp] theorem forms_flagAll (m) : (s.flagAll m).forms = s.forms := by simp [State.flagAll]
@[simp] theorem forms_pairTo (st sub) : (s.pairTo st sub).forms = s.forms := by simp [State.pairTo]
@[simp] theorem forms_pairExpose : s.pairExpose.forms = s.forms := by simp [State.pairExpose]
@[simp] theorem forms_releaseShadow (b) : (s.releaseShadow b).forms = s.forms := by simp [State.releaseShadow]
@[simp] theorem forms_clearShadow : s.clearShadow.forms = s.forms := by simp [State.clearShadow]
@[simp] theorem forms_releaseRole : s.releaseRole.forms = s.forms := by simp [State.releaseRole]
@[simp] theorem forms_dropClaim : s.dropClaim.forms = s.forms := by simp [State.dropClaim]
@[simp] theorem forms_pairEnd (sub st) : (s.pairEnd sub st).forms = s.forms := by simp [State.pairEnd]
@[simp] theorem forms_pairDescs (st) : (s.pairDescs st).forms = s.forms := by simp [State.pairDescs]
@[simp] theorem forms_announce : s.announce.forms = s.forms := by simp [State.announce]
@[simp] theorem forms_snapshotPair : s.snapshotPair.forms = s.forms := by simp [State.snapshotPair]

/-! ### Links -/

@[simp] theorem forms_crcBlock (n typ body) : (s.crcBlock n typ body).forms = s.forms := by simp [State.crcBlock]
@[simp] theorem forms_heard (n) : (s.heard n).forms = s.forms := by simp [State.heard]
@[simp] theorem forms_linkFlag (n) : (s.linkFlag n).forms = s.forms := by simp [State.linkFlag]
@[simp] theorem forms_attempt (n k a) : (s.attempt n k a).forms = s.forms := by simp [State.attempt]
@[simp] theorem forms_train (n) : (s.train n).forms = s.forms := by simp [State.train]
@[simp] theorem le_forms_ringCut (h : x ≤ s.forms) : x ≤ s.ringCut.forms := by simp [State.ringCut, h]
@[simp] theorem le_forms_linkGone (h : x ≤ s.forms) (n st) : x ≤ (s.linkGone n st).forms := by simp [State.linkGone, h]
@[simp] theorem le_forms_linkLost (h : x ≤ s.forms) (n) : x ≤ (s.linkLost n).forms := by simp [State.linkLost, h]
@[simp] theorem le_forms_retireLane (h : x ≤ s.forms) (n k) : x ≤ (s.retireLane n k).forms := by simp [State.retireLane, h]
@[simp] theorem forms_settleRevive (n later) : (s.settleRevive n later).forms = s.forms := by simp [State.settleRevive]
@[simp] theorem forms_failRevives (n) : (s.failRevives n).forms = s.forms := by simp [State.failRevives]
@[simp] theorem forms_sendWidth (n mine token agree act) : (s.sendWidth n mine token agree act).forms = s.forms := by simp [State.sendWidth]
@[simp] theorem forms_startWidth (n) : (s.startWidth n).forms = s.forms := by simp [State.startWidth]
@[simp] theorem le_forms_linkComesUp (h : x ≤ s.forms) (n) : x ≤ (s.linkComesUp n).forms := by simp [State.linkComesUp, h]
@[simp] theorem forms_reviveLane (n k) : (s.reviveLane n k).forms = s.forms := by simp [State.reviveLane]
@[simp] theorem le_forms_laneTrained (h : x ≤ s.forms) (n k) : x ≤ (s.laneTrained n k).forms := by simp [State.laneTrained, h]
@[simp] theorem le_forms_laneFailed (h : x ≤ s.forms) (n k) : x ≤ (s.laneFailed n k).forms := by
  unfold State.laneFailed
  dsimp only
  split <;> simp [h]
@[simp] theorem forms_uncountLoss (n k) : (s.uncountLoss n k).forms = s.forms := by simp [State.uncountLoss]
@[simp] theorem le_forms_loseLane (h : x ≤ s.forms) (n k) : x ≤ (s.loseLane n k).forms := by simp [State.loseLane, h]
@[simp] theorem le_forms_blockErr (h : x ≤ s.forms) (n k) : x ≤ (s.blockErr n k).forms := by simp [State.blockErr, h]
@[simp] theorem le_forms_crcErr (h : x ≤ s.forms) (n) : x ≤ (s.crcErr n).forms := by simp [State.crcErr, h]
@[simp] theorem le_forms_doTrainBlock (h : x ≤ s.forms) (n k v t) : x ≤ (doTrainBlock n k v t s).forms := by simp [doTrainBlock, h]
@[simp] theorem le_forms_doTrainingAttemptTimeout (h : x ≤ s.forms) (n k t) :
    x ≤ (doTrainingAttemptTimeout n k t s).forms := by
  simp [doTrainingAttemptTimeout, h]
@[simp] theorem le_forms_doLinkEnable (h : x ≤ s.forms) (n v) : x ≤ (doLinkEnable n v s).forms := by simp [doLinkEnable, h]
@[simp] theorem forms_doLinkRetry (n t) : (doLinkRetry n t s).forms = s.forms := by simp [doLinkRetry]
@[simp] theorem le_forms_doLaneLoss (h : x ≤ s.forms) (n k errs t) : x ≤ (doLaneLoss n k errs t s).forms := by simp [doLaneLoss, h]
@[simp] theorem le_forms_doLinkLoss (h : x ≤ s.forms) (n t) : x ≤ (doLinkLoss n t s).forms := by simp [doLinkLoss, h]
@[simp] theorem le_forms_doLaneRetrain (h : x ≤ s.forms) (n k ok t) : x ≤ (doLaneRetrain n k ok t s).forms := by simp [doLaneRetrain, h]
@[simp] theorem le_forms_doBlockError (h : x ≤ s.forms) (n k t) : x ≤ (doBlockError n k t s).forms := by simp [doBlockError, h]
@[simp] theorem le_forms_doLrefLoss (h : x ≤ s.forms) (t) : x ≤ (doLrefLoss t s).forms := by simp [doLrefLoss, h]
@[simp] theorem forms_lrefRises : s.lrefRises.forms = s.forms := by simp [State.lrefRises]
@[simp] theorem forms_doLrefReturn (t) : (doLrefReturn t s).forms = s.forms := by simp [doLrefReturn]
@[simp] theorem forms_doLaneRevive (sq idx) : (doLaneRevive sq idx s).forms = s.forms := by simp [doLaneRevive]
@[simp] theorem le_forms_doWidthBlock (h : x ≤ s.forms) (n v t) : x ≤ (doWidthBlock n v t s).forms := by
  unfold doWidthBlock
  dsimp only
  (repeat' split) <;> simp [h]
@[simp] theorem le_forms_doWidthResend (h : x ≤ s.forms) (n t) : x ≤ (doWidthResend n t s).forms := by
  unfold doWidthResend
  split <;> simp [h]
@[simp] theorem forms_sendNak (n) : (s.sendNak n).forms = s.forms := by simp [State.sendNak]
@[simp] theorem forms_doWidthSwitch (n t) : (doWidthSwitch n t s).forms = s.forms := by
  unfold doWidthSwitch
  split <;> simp
@[simp] theorem le_forms_accept (h : x ≤ s.forms) (n p) : x ≤ (s.accept n p).1.forms := by
  unfold State.accept
  dsimp only
  (repeat' split) <;> simp [h]
@[simp] theorem forms_doAckSend (n t) : (doAckSend n t s).forms = s.forms := by
  unfold doAckSend
  split <;> simp
@[simp] theorem le_forms_doNakBlock (h : x ≤ s.forms) (n v t) : x ≤ (doNakBlock n v t s).forms := by simp [doNakBlock, h]
@[simp] theorem forms_goIdle (n) : (s.goIdle n).forms = s.forms := by simp [State.goIdle]
@[simp] theorem forms_doElectricalIdleEntry (n t) : (doElectricalIdleEntry n t s).forms = s.forms := by simp [doElectricalIdleEntry]
@[simp] theorem forms_doEiBlock (n v t) : (doEiBlock n v t s).forms = s.forms := by simp [doEiBlock]
@[simp] theorem forms_doElectricalIdleExit (n t) : (doElectricalIdleExit n t s).forms = s.forms := by simp [doElectricalIdleExit]
@[simp] theorem forms_doTrackingHold (n k t) : (doTrackingHold n k t s).forms = s.forms := by simp [doTrackingHold]
@[simp] theorem le_forms_doAlignMarker (h : x ≤ s.forms) (n marks t) : x ≤ (doAlignMarker n marks t s).forms := by simp [doAlignMarker, h]
@[simp] theorem forms_doAlignMarkerSend (n t) : (doAlignMarkerSend n t s).forms = s.forms := by simp [doAlignMarkerSend]
@[simp] theorem forms_forward (n p) : (s.forward n p).forms = s.forms := by simp [State.forward]
@[simp] theorem le_forms_expressIn {typ n : Nat} {p : PlPacket} {t : Nat} {f : State → Nat → Nat → State}
    (h : x ≤ s.forms) (hf : ∀ u a b, u.forms ≤ (f u a b).forms) : x ≤ (expressIn typ n p t f s).forms := by
  unfold expressIn
  dsimp only
  (repeat' split)
  · exact h
  · simp [h]
  · exact le_trans (by simp [h]) (hf _ _ _)
@[simp] theorem le_forms_doSyncReady (h : x ≤ s.forms) (n p t) : x ≤ (doSyncReady n p t s).forms := by
  refine le_forms_expressIn h fun u a b => ?_
  (repeat' split) <;> simp
@[simp] theorem forms_nogo (x status) : (s.nogo x status).forms = s.forms := by simp [State.nogo]
@[simp] theorem le_forms_doSyncStart (h : x ≤ s.forms) (n p t) : x ≤ (doSyncStart n p t s).forms := by
  refine le_forms_expressIn h fun u a b => ?_
  dsimp only
  (repeat' split) <;> simp
@[simp] theorem le_forms_doSyncStop (h : x ≤ s.forms) (n p t) : x ≤ (doSyncStop n p t s).forms := by
  refine le_forms_expressIn h fun u a b => ?_
  (repeat' split) <;> simp
@[simp] theorem forms_blockedElsewhere (id) : (s.blockedElsewhere id).forms = s.forms := by simp [State.blockedElsewhere]
@[simp] theorem le_forms_doSyncNogo (h : x ≤ s.forms) (n p t) : x ≤ (doSyncNogo n p t s).forms := by
  refine le_forms_expressIn h fun u a b => ?_
  dsimp only
  (repeat' split) <;> simp
@[simp] theorem forms_refreshCkpts (e v) : (s.refreshCkpts e v).forms = s.forms := by
  unfold State.refreshCkpts
  split <;> simp
@[simp] theorem forms_remoteFail (e v) : (s.remoteFail e v).forms = s.forms := by
  unfold State.remoteFail
  split <;> simp
@[simp] theorem le_forms_doFailMsg (h : x ≤ s.forms) (n p t) : x ≤ (doFailMsg n p t s).forms := by
  refine le_forms_expressIn h fun u a b => ?_
  dsimp only
  (repeat' split) <;> simp
@[simp] theorem forms_xtEvent (line stamp) : (s.xtEvent line stamp).forms = s.forms := by simp [State.xtEvent]
@[simp] theorem le_forms_doTrigMsg (h : x ≤ s.forms) (n p t) : x ≤ (doTrigMsg n p t s).forms := by simp [doTrigMsg, h]
@[simp] theorem le_forms_doTimeMsg (h : x ≤ s.forms) (n p t) : x ≤ (doTimeMsg n p t s).forms := by
  unfold doTimeMsg
  have h1 := le_forms_accept (by simp [h] : x ≤ (s.at t).forms) n p
  dsimp only
  (repeat' split) <;> simp [h, h1]
@[simp] theorem forms_timeOut (n) : (s.timeOut n).forms = s.forms := by simp [State.timeOut]
@[simp] theorem forms_doTimeSend (t) : (doTimeSend t s).forms = s.forms := by simp [doTimeSend]
@[simp] theorem le_forms_packetIn {cls n : Nat} {p : PlPacket} {t : Nat} {f : State → State} (h : x ≤ s.forms)
    (hf : ∀ u, u.forms ≤ (f u).forms) : x ≤ (packetIn cls n p t f s).forms := by
  unfold packetIn
  dsimp only
  (repeat' split)
  · exact h
  · simp [h]
  · exact le_trans (by simp [h]) (hf _)
  · simp [h]
@[simp] theorem le_forms_doMsgPacket (h : x ≤ s.forms) (n p t) : x ≤ (doMsgPacket n p t s).forms := by simp [doMsgPacket, h]
@[simp] theorem le_forms_doMsgAck (h : x ≤ s.forms) (n p t) : x ≤ (doMsgAck n p t s).forms := by
  refine le_forms_packetIn h fun u => ?_
  dsimp only
  (repeat' split) <;> simp
@[simp] theorem le_forms_doRingPacket (h : x ≤ s.forms) (n p t) : x ≤ (doRingPacket n p t s).forms := by simp [doRingPacket, h]
@[simp] theorem forms_doRingAlign (sq idx) : (doRingAlign sq idx s).forms = s.forms := by simp [doRingAlign]
@[simp] theorem le_forms_doRingCfgWrite (h : x ≤ s.forms) (v) : x ≤ (doRingCfgWrite v s).forms := by
  unfold doRingCfgWrite
  extract_lets pos len same s1 s2 rt u s3
  have h1 : x ≤ s1.forms := by simp [s1, h]
  have h2 : x ≤ s2.forms := le_forms_foldl h1 (fun a n => by simp) _
  have h3 : x ≤ s3.forms := le_forms_foldl (s := u) h1 (fun a n => by simp) _
  clear_value s1 s2 s3
  (repeat' split) <;> simp [h, h2, h3]

/-! ### Pair -/

@[simp] theorem forms_upShadow (e f) : (s.upShadow e f).forms = s.forms := by simp [State.upShadow]
@[simp] theorem forms_dropShadow (e) : (s.dropShadow e).forms = s.forms := by
  unfold State.dropShadow
  cases s.pair.bursts.find? (fun b => b.ent == e) <;> simp
@[simp] theorem forms_admitShadow (b) : (s.admitShadow b).forms = s.forms := by
  unfold State.admitShadow
  dsimp only
  split <;> simp
@[simp] theorem le_forms_applyCapture (h : x ≤ s.forms) (id off bs) : x ≤ (s.applyCapture id off bs).forms := by
  unfold State.applyCapture
  dsimp only
  (repeat' split) <;> simp [h]
@[simp] theorem forms_unmatched : s.unmatched.forms = s.forms := by simp [State.unmatched]
@[simp] theorem forms_pairProtected : s.pairProtected.forms = s.forms := by simp [State.pairProtected]
@[simp] theorem forms_roleFails : s.roleFails.forms = s.forms := by simp [State.roleFails]
@[simp] theorem forms_withdraw : s.withdraw.forms = s.forms := by simp [State.withdraw]
@[simp] theorem forms_startClaim (f) : (s.startClaim f).forms = s.forms := by simp [State.startClaim]
@[simp] theorem forms_doClaim (v) : (doClaim v s).forms = s.forms := by simp [doClaim]
@[simp] theorem forms_doClaimRelease (v) : (doClaimRelease v s).forms = s.forms := by simp [doClaimRelease]
@[simp] theorem forms_doClaimWaitExpiry (t) : (doClaimWaitExpiry t s).forms = s.forms := by simp [doClaimWaitExpiry]
@[simp] theorem forms_joinTurn : s.joinTurn.forms = s.forms := by
  unfold State.joinTurn
  split <;> simp
@[simp] theorem forms_doPairJoin (sq idx) : (doPairJoin sq idx s).forms = s.forms := by simp [doPairJoin]
@[simp] theorem forms_doPairLeave (sq idx) : (doPairLeave sq idx s).forms = s.forms := by simp [doPairLeave]
@[simp] theorem forms_doTetherFailure : (doTetherFailure s).forms = s.forms := by simp [doTetherFailure]
@[simp] theorem le_forms_resumeTask (h : x ≤ s.forms) (i) : x ≤ (s.resumeTask i).forms := by simp [State.resumeTask, h]
@[simp] theorem le_forms_restartShadow (h : x ≤ s.forms) (f b) : x ≤ (s.restartShadow f b).1.forms := by
  unfold State.restartShadow
  extract_lets split u ck s0 c lost
  have hu : x ≤ u.forms := by simp [u, h]
  have h0 : x ≤ s0.forms := by unfold s0; split <;> simp [hu]
  split
  · exact hu
  · extract_lets o p q
    split
    · simp [hu]
    · split
      · simp [hu]
      · split
        next e => simp [le_forms_of_submitX h0 e]
        next s1 e =>
          extract_lets s2 s3 none'
          have h2 : x ≤ s2.forms := by simp [s2, le_forms_of_submitX h0 e]
          refine le_forms_foldl h2 (fun a m => ?_) _
          extract_lets s4
          split <;> simp [s4]
@[simp] theorem forms_lockShadow (k l) : (s.lockShadow k l).forms = s.forms := by simp [State.lockShadow]
@[simp] theorem le_forms_goLive (h : x ≤ s.forms) (f) : x ≤ (s.goLive f).forms := by
  unfold State.goLive
  extract_lets p s0 s1 s2 s3 s4 s5 go s5a r s6 held s7 s8 sub pr s9 aux s10
  have h3 : x ≤ s3.forms := by simp [s3, s2, s1, s0, h]
  have h5 : x ≤ s5a.forms := by simp [s5a, s5, s4, h3]
  have h6 : x ≤ s6.forms :=
    foldl_inv (fun a : State × Nat × Nat => x ≤ a.1.forms) _ (fun a b ha => by simp [ha]) _ _ h5
  have h7 : x ≤ s7.forms := by
    refine le_forms_foldl h6 (fun a tid => ?_) _
    split <;> simp
  simp [s10, s9, pr, s8, h7]
@[simp] theorem le_forms_claimDone (h : x ≤ s.forms) : x ≤ s.claimDone.forms := by simp [State.claimDone, h]
@[simp] theorem le_forms_doClaimGuardExpiry (h : x ≤ s.forms) (t) : x ≤ (doClaimGuardExpiry t s).forms := by simp [doClaimGuardExpiry, h]
@[simp] theorem forms_doPartnerActiveRise (t) : (doPartnerActiveRise t s).forms = s.forms := by simp [doPartnerActiveRise]
@[simp] theorem forms_doPartnerActiveFall (t) : (doPartnerActiveFall t s).forms = s.forms := by
  unfold doPartnerActiveFall
  dsimp only
  (repeat' split) <;> simp
@[simp] theorem le_forms_applyItem (h : x ≤ s.forms) (i) : x ≤ (s.applyItem i).forms := by
  unfold State.applyItem
  split <;> simp [h]
@[simp] theorem le_forms_applyAll (h : x ≤ s.forms) (l) : x ≤ (applyAll s l).forms := by simp [applyAll, h]
@[simp] theorem le_forms_doMirroredItemApply (h : x ≤ s.forms) (t) : x ≤ (doMirroredItemApply t s).forms := by
  unfold doMirroredItemApply
  split <;> simp [h]
@[simp] theorem le_forms_doTakeover (h : x ≤ s.forms) (t) : x ≤ (doTakeover t s).forms := by simp [doTakeover, h]
@[simp] theorem le_forms_switchBurst (h : x ≤ s.forms) (b) : x ≤ (s.switchBurst b).forms := by simp [State.switchBurst, h]
@[simp] theorem le_forms_handOver (h : x ≤ s.forms) : x ≤ s.handOver.forms := by
  unfold State.handOver
  extract_lets s1 slots rings _ _ s2 s3 s4 s5
  have h4 : x ≤ s4.forms := by simp [s4, s3, s2, s1, h]
  have h5 : x ≤ s5.forms := by simp [s5, h4]
  simp [h5]
@[simp] theorem le_forms_doPairSwitch (h : x ≤ s.forms) {sq idx : Nat} : x ≤ (doPairSwitch sq idx s).forms := by simp [doPairSwitch, h]
@[simp] theorem le_forms_doFollow (h : x ≤ s.forms) (n p t) : x ≤ (doFollow n p t s).forms := by simp [doFollow, h]
@[simp] theorem forms_digestCheckOf (id dig) : (s.digestCheckOf id dig).forms = s.forms := by
  unfold State.digestCheckOf
  dsimp only
  split <;> simp
@[simp] theorem le_forms_receiveItem (h : x ≤ s.forms) (i) : x ≤ (s.receiveItem i).forms := by
  unfold State.receiveItem
  split <;> simp [h]
@[simp] theorem le_forms_doTetherPacket (h : x ≤ s.forms) (p t) : x ≤ (doTetherPacket p t s).forms := by
  unfold doTetherPacket
  split
  · exact h
  · have h1 := le_forms_accept (by simp [h] : x ≤ (s.at t).forms) 2 p
    dsimp only
    (repeat' split) <;> simp [h1]
@[simp] theorem le_forms_doPktReceive (h : x ≤ s.forms) (n p t) : x ≤ (doPktReceive n p t s).forms := by simp [doPktReceive, h]
@[simp] theorem le_forms_doAckBlock (h : x ≤ s.forms) (n v t) : x ≤ (doAckBlock n v t s).forms := by simp [doAckBlock, h]

/-! ### Rings -/

@[simp] theorem forms_acceptDesc (k b) : (s.acceptDesc k b).forms = s.forms := by simp [State.acceptDesc]
@[simp] theorem forms_withdrawWait (w) : (s.withdrawWait w).forms = s.forms := by
  unfold State.withdrawWait
  split <;> simp
@[simp] theorem forms_withdrawDesc (sq idx) : (s.withdrawDesc sq idx).forms = s.forms := by simp [State.withdrawDesc]
@[simp] theorem le_forms_endDesc (h : x ≤ s.forms) (d st) : x ≤ (s.endDesc d st).forms := by
  unfold State.endDesc
  extract_lets o s1 s2 s3 s4 s5
  have h3 : x ≤ s3.forms := by simp [s3, s2, s1, h]
  have h4 : x ≤ s4.forms := by simp [s4, h3]
  have h5 : x ≤ s5.forms := by simp [s5, h4]
  simp [h5]
@[simp] theorem forms_reroute : s.reroute.forms = s.forms := by simp [State.reroute]
@[simp] theorem forms_clearRing (k) : (s.clearRing k).forms = s.forms := by simp [State.clearRing]
@[simp] theorem le_forms_resetSub (h : x ≤ s.forms) (k) : x ≤ (s.resetSub k).forms := by simp [State.resetSub, h]
@[simp] theorem le_forms_resetRing (h : x ≤ s.forms) (k) : x ≤ (s.resetRing k).forms := by simp [State.resetRing, h]
@[simp] theorem forms_ringFails (k cause) : (s.ringFails k cause).forms = s.forms := by simp [State.ringFails]
@[simp] theorem forms_clearIsland (i) : (s.clearIsland i).forms = s.forms := by simp [State.clearIsland]
@[simp] theorem le_forms_hostReset (h : x ≤ s.forms) (linkStays st) : x ≤ (s.hostReset linkStays st).forms := by simp [State.hostReset, h]

/-! ### Life -/

@[simp] theorem forms_queueSnapshot (front) : (s.queueSnapshot front).forms = s.forms := by simp [State.queueSnapshot]
@[simp] theorem forms_failFlushes : s.failFlushes.forms = s.forms := by simp [State.failFlushes]
@[simp] theorem forms_badSector (y op) : (s.badSector y op).forms = s.forms := by
  unfold State.badSector
  extract_lets _ s1 n s2
  have h2 : s2.forms = s.forms := by simp [s2, s1]
  clear_value s2
  simp [h2]
@[simp] theorem forms_openSector (x) : (s.openSector x).forms = s.forms := by simp [State.openSector]
@[simp] theorem forms_settleFlushes (id) : (s.settleFlushes id).forms = s.forms := by simp [State.settleFlushes]
@[simp] theorem forms_programRecord (x r rest) : (s.programRecord x r rest).forms = s.forms := by simp [State.programRecord]
@[simp] theorem forms_doLogRecordWrite (eraseFails progFails) : (doLogRecordWrite eraseFails progFails s).forms = s.forms := by
  unfold doLogRecordWrite
  dsimp only
  (repeat' split) <;> simp
@[simp] theorem forms_drainLog (n) : (State.drainLog n s).forms = s.forms := by
  induction n generalizing s with
  | zero => rfl
  | succ n ih => unfold State.drainLog; split <;> simp [ih]
@[simp] theorem forms_doLifetimeSecond (t) : (doLifetimeSecond t s).forms = s.forms := by simp [doLifetimeSecond]
@[simp] theorem forms_doSnapshot (t) : (doSnapshot t s).forms = s.forms := by simp [doSnapshot]
@[simp] theorem forms_doReadLife (sq idx) : (doReadLife sq idx s).forms = s.forms := by simp [doReadLife]
@[simp] theorem forms_doLifeFlush (sq idx) : (doLifeFlush sq idx s).forms = s.forms := by simp [doLifeFlush]

/-! ### Resets -/

@[simp] theorem le_forms_endBursts (h : x ≤ s.forms) (p mine st) : x ≤ (s.endBursts p mine st).forms := by
  refine le_forms_foldl h (fun a e => ?_) _
  split
  · simp
  · exact le_forms_foldl le_rfl (fun b g => by simp) _
@[simp] theorem le_forms_cutBursts (h : x ≤ s.forms) (st) : x ≤ (s.cutBursts st).forms :=
  le_forms_foldl h (fun _ _ => le_forms_foldl le_rfl (fun _ _ => le_forms_cutNow le_rfl _ _) _) _
@[simp] theorem le_forms_stopAcqs (h : x ≤ s.forms) (mask st) : x ≤ (s.stopAcqs mask st).forms := by simp [State.stopAcqs, h]
@[simp] theorem le_forms_resetCore (h : x ≤ s.forms) (n st) : x ≤ (s.resetCore n st).forms := by simp [State.resetCore, h]
@[simp] theorem forms_resetTiming (n st) : (s.resetTiming n st).forms = s.forms := by simp [State.resetTiming]
@[simp] theorem forms_resetChans (n) : (s.resetChans n).forms = s.forms := by simp [State.resetChans]
@[simp] theorem le_forms_resetCapture (h : x ≤ s.forms) (n st) : x ≤ (s.resetCapture n st).forms := by simp [State.resetCapture, h]
@[simp] theorem forms_peFlush (n) : (s.peFlush n).forms = s.forms := by
  unfold State.peFlush
  dsimp only
  split <;> simp
@[simp] theorem le_forms_resetPorts (h : x ≤ s.forms) (n st on) : x ≤ (s.resetPorts n st on).forms := by simp [State.resetPorts, h]
@[simp] theorem le_forms_resetEngine (h : x ≤ s.forms) (e st) : x ≤ (s.resetEngine e st).forms := by simp [State.resetEngine, h]
@[simp] theorem le_forms_resetApg (h : x ≤ s.forms) (k st) : x ≤ (s.resetApg k st).forms := by simp [State.resetApg, h]
@[simp] theorem forms_resetTether (st) : (s.resetTether st).forms = s.forms := by simp [State.resetTether]
@[simp] theorem le_forms_resetFlow (h : x ≤ s.forms) (st) : x ≤ (s.resetFlow st).forms := by simp [State.resetFlow, h]
@[simp] theorem le_forms_resetMemory (h : x ≤ s.forms) (m st) : x ≤ (s.resetMemory m st).forms := by simp [State.resetMemory, h]
@[simp] theorem le_forms_resetLink (h : x ≤ s.forms) (n st) : x ≤ (s.resetLink n st).forms := by simp [State.resetLink, h]
@[simp] theorem le_forms_resetIsland (h : x ≤ s.forms) (i st) : x ≤ (s.resetIsland i st).forms := by
  have h1 : x ≤ ((s.resetTiming i st).resetCapture i st).forms := by simp [h]
  simp [State.resetIsland, h, h1]
@[simp] theorem le_forms_resetCoreOf (h : x ≤ s.forms) (core st) : x ≤ (s.resetCoreOf core st).forms := by
  unfold State.resetCoreOf
  split
  · exact h
  · exact le_forms_foldl (le_forms_vacate h _ _) (fun a t => by simp) _
@[simp] theorem le_forms_blockReset (h : x ≤ s.forms) (i core host fault) :
    x ≤ (s.blockReset i core host fault).forms := by
  unfold State.blockReset
  dsimp only
  split <;> simp [h]
@[simp] theorem le_forms_doBlockReset (h : x ≤ s.forms) (v fault) : x ≤ (doBlockReset v fault s).forms := by simp [doBlockReset, h]
@[simp] theorem forms_islandReturns (i) : (s.islandReturns i).forms = s.forms := by simp [State.islandReturns]
@[simp] theorem forms_doBlockResetReturn (t) : (doBlockResetReturn t s).forms = s.forms := by simp [doBlockResetReturn]
@[simp] theorem forms_dropStops (n) : (s.dropStops n).forms = s.forms := by simp [State.dropStops]
@[simp] theorem le_forms_domOff (h : x ≤ s.forms) (d) : x ≤ (s.domOff d).forms := by
  unfold State.domOff
  (repeat' split) <;> simp [h]
@[simp] theorem forms_domRefused (f d) : (s.domRefused f d).forms = s.forms := by simp [State.domRefused]
@[simp] theorem forms_domainsOn (j v) : (domainsOn j v s).forms = s.forms := by simp [domainsOn]
@[simp] theorem le_forms_domainsOff (h : x ≤ s.forms) (j v) : x ≤ (domainsOff j v s).forms := by
  refine le_forms_foldl h (fun a d => ?_) _
  dsimp only
  (repeat' split) <;> simp
@[simp] theorem le_forms_writeDomCtl (h : x ≤ s.forms) (j v) : x ≤ (writeDomCtl j v s).forms := by simp [writeDomCtl, h]
@[simp] theorem le_forms_doDomainOn (h : x ≤ s.forms) (j v) : x ≤ (doDomainOn j v s).forms := by simp [doDomainOn, h]
@[simp] theorem le_forms_doDomainOff (h : x ≤ s.forms) (j v) : x ≤ (doDomainOff j v s).forms := by simp [doDomainOff, h]
@[simp] theorem forms_chipReset (cause) : (s.chipReset cause).forms = s.forms := by
  unfold State.chipReset
  split
  · rfl
  · extract_lets s1 s2 cls sls fsl mc ap
    have h2 : s2.forms = s.forms := by simp [s2, s1]
    exact h2
/-- Memory that lists nothing is canonical. -/
theorem le_formsOf_nil {regs : List (Nat × W64)} (h : x ≤ s.forms) (hr : formsOf s.mem regs = s.forms) : x ≤ formsOf [] regs := by
  refine h.trans (hr ▸ Bool.le_iff_imp.mpr fun hs => ?_)
  exact (Bool.and_eq_true_iff.mp hs).2

@[simp] theorem le_forms_pinReset (h : x ≤ s.forms) (cause) : x ≤ (s.pinReset cause).forms := by
  unfold State.pinReset
  split
  · exact h
  · extract_lets s1 s2
    have h2 : s2.forms = s.forms := by simp [s2, s1]
    exact le_formsOf_nil h h2
@[simp] theorem le_forms_coldReset (cause) : x ≤ (s.coldReset cause).forms := Bool.le_true x
@[simp] theorem forms_doChipReset (v) : (doChipReset v s).forms = s.forms := by simp [doChipReset]
@[simp] theorem le_forms_doPinReset (h : x ≤ s.forms) (cause) : x ≤ (doPinReset cause s).forms := by simp [doPinReset, h]
@[simp] theorem le_forms_doColdReset (cause) : x ≤ (doColdReset cause s).forms := Bool.le_true x
@[simp] theorem forms_doResetLoopClear (t) : (doResetLoopClear t s).forms = s.forms := by simp [doResetLoopClear]
@[simp] theorem forms_doPwrgoodRise (t) : (doPwrgoodRise t s).forms = s.forms := by simp [doPwrgoodRise]

/-! ### Lull -/

@[simp] theorem forms_lullClear : s.lullClear.forms = s.forms := by simp [State.lullClear]
@[simp] theorem forms_enterLull : s.enterLull.forms = s.forms := by
  unfold State.enterLull
  extract_lets s1 s2 s3 ms s4 s5
  have h1 : s1.forms = s.forms := by simp [s1]
  have h3 : s3.forms = s1.forms := by simp [s3, s2]
  have h5 : s5.forms = s3.forms := by simp [s5, s4]
  clear_value s3 s5
  simp [h5, h3, h1]
@[simp] theorem forms_doLullEnter (sq idx) : (doLullEnter sq idx s).forms = s.forms := by simp [doLullEnter]
@[simp] theorem forms_doLullWake (v) : (doLullWake v s).forms = s.forms := by simp [doLullWake]
@[simp] theorem forms_doLullWakeAtExpiry (t) : (doLullWakeAtExpiry t s).forms = s.forms := by simp [doLullWakeAtExpiry]

/-! ### Faults -/

@[simp] theorem forms_powerAllOff : s.powerAllOff.forms = s.forms := by simp [State.powerAllOff]
@[simp] theorem forms_switchFails : s.switchFails.forms = s.forms := by simp [State.switchFails]
@[simp] theorem le_forms_ballastStop (h : x ≤ s.forms) : x ≤ s.ballastStop.forms := by
  unfold State.ballastStop
  extract_lets s1 s2 s3 _ s4
  have h2 : x ≤ s2.forms := by simp [s2, s1, h]
  have h4 : x ≤ s4.forms := by simp [s4, s3, h2]
  simp [h4]
@[simp] theorem forms_ballastPorts : s.ballastPorts.forms = s.forms := by simp [State.ballastPorts]
@[simp] theorem forms_sendSafe : s.sendSafe.forms = s.forms := by simp [State.sendSafe]
@[simp] theorem le_forms_ballastEnds (h : x ≤ s.forms) : x ≤ s.ballastEnds.forms := by
  unfold State.ballastEnds
  generalize List.range 48 = l
  extract_lets s1 cl s2 as u s3 s4 s5
  have h1 : x ≤ s1.forms := by simp [s1, h]
  have hu : x ≤ u.forms := by simp [u, s2, h1]
  have h3 : x ≤ s3.forms := by simp [s3, hu]
  have h4 : x ≤ s4.forms := le_forms_foldl h3 (fun a t => by simp) _
  have h5 : x ≤ s5.forms := le_forms_foldl h4 (fun a e => by cases e <;> simp) _
  exact le_forms_foldl (s := { s5 with calibs := [] }) h5 (fun a d => by simp) _
@[simp] theorem le_forms_engage (h : x ≤ s.forms) (src inj) : x ≤ (s.engage src inj).forms := by
  unfold State.engage
  split
  · exact h
  · extract_lets t c s1 s2 s3 handed owns s4 s5 s6 s7 s8 s9 s10
    have h4 : x ≤ s4.forms := by simp [s4, s3, s2, s1, h]
    have h6 : x ≤ s6.forms := by simp [s6, s5, h4]
    have h8 : x ≤ s8.forms := by simp [s8, s7, h6]
    have h9 : x ≤ s9.forms := by simp [s9, h8]
    have h10 : x ≤ s10.forms := by simp [s10, h9]
    simp [h10]
@[simp] theorem forms_setRecWord (src w v) : (s.setRecWord src w v).forms = s.forms := by simp [State.setRecWord]
@[simp] theorem forms_capture (r inj) : (s.capture r inj).forms = s.forms := by simp [State.capture]
@[simp] theorem forms_recMore (src inj) : (s.recMore src inj).forms = s.forms := by simp [State.recMore]
@[simp] theorem forms_islandLatch (r) : (s.islandLatch r).forms = s.forms := by simp [State.islandLatch]
@[simp] theorem le_forms_resetNamed (h : x ≤ s.forms) (r) : x ≤ (s.resetNamed r).forms := by
  unfold State.resetNamed
  (repeat' split) <;> simp [h]
@[simp] theorem forms_trap (src) : (s.trap src).forms = s.forms := by simp [State.trap]
@[simp] theorem forms_faultEvent (r applied) : (s.faultEvent r applied).forms = s.forms := by simp [State.faultEvent]
@[simp] theorem le_forms_react (h : x ≤ s.forms) (r inj first react) : x ≤ (s.react r inj first react).forms := by
  unfold State.react
  extract_lets n applied s1 c s2 s3 s4 s5 s6
  have h2 : x ≤ s2.forms := by simp [s2, s1, h]
  have h3 : x ≤ s3.forms := by simp [s3, h2]
  have h4 : x ≤ s4.forms := by simp [s4, h3]
  have h5 : x ≤ s5.forms := by simp [s5, h4]
  have h6 : x ≤ s6.forms := by simp [s6, h5]
  clear_value s6
  split <;> simp [h6]
@[simp] theorem le_forms_latchFault (h : x ≤ s.forms) (r inj mask) : x ≤ (s.latchFault r inj mask).forms := by
  unfold State.latchFault
  extract_lets s0 react l s1 fresh s2 s3 set real s3' s4
  have h1 : x ≤ s1.forms := by simp [s1, s0, h]
  have h2 : x ≤ s2.forms := by simp [s2, h1]
  have h3 : x ≤ s3.forms := by simp [s3, h2]
  have h4 : x ≤ s4.forms := by simp [s4, s3', h2]
  clear_value s3 s4
  (repeat' split) <;> simp [h3, h4]
@[simp] theorem le_forms_corrupted (h : x ≤ s.forms) (island work) : x ≤ (s.corrupted island work).forms := by simp [State.corrupted, h]
@[simp] theorem le_forms_doFaultLatch (h : x ≤ s.forms) (src island unit detail addr) :
    x ≤ (doFaultLatch src island unit detail addr s).forms := by
  unfold doFaultLatch
  split
  · exact h
  · extract_lets p _ s1 sram s2 a s3
    have h2 : x ≤ s2.forms := by simp [s2, s1, h]
    have h3 : x ≤ s3.forms := by simp [s3, h2]
    split
    · simp [h]
    · split
      · exact h
      · split
        simp [h3]
@[simp] theorem forms_doFaultStatusClear (v) : (doFaultStatusClear v s).forms = s.forms := by simp [doFaultStatusClear]
@[simp] theorem le_forms_writeInject (h : x ≤ s.forms) (v) : x ≤ (s.writeInject v).forms := by simp [State.writeInject, h]
@[simp] theorem le_forms_doFaultInjection (h : x ≤ s.forms) (v) : x ≤ (doFaultInjection v s).forms := by simp [doFaultInjection, h]
@[simp] theorem le_forms_doAddressInjection (h : x ≤ s.forms) (v) : x ≤ (doAddressInjection v s).forms := by simp [doAddressInjection, h]
@[simp] theorem le_forms_doInjCancel (h : x ≤ s.forms) (v) : x ≤ (doInjCancel v s).forms := by simp [doInjCancel, h]
@[simp] theorem le_forms_doBallastEngageWrite (h : x ≤ s.forms) (v) : x ≤ (doBallastEngageWrite v s).forms := by
  simp [doBallastEngageWrite, h]
@[simp] theorem forms_doCollectorSelfCheck (t) : (doCollectorSelfCheck t s).forms = s.forms := by simp [doCollectorSelfCheck]

/-! ### HostCmds -/

@[simp] theorem forms_doNop (sq idx) : (doNop sq idx s).forms = s.forms := by simp [doNop]
@[simp] theorem forms_doFenceRelease (sq idx) : (doFenceRelease sq idx s).forms = s.forms := by simp [doFenceRelease]
@[simp] theorem forms_doDescriptorFetch (k entries ok) : (doDescriptorFetch k entries ok s).forms = s.forms := by simp [doDescriptorFetch]
@[simp] theorem forms_taskGone (tid) : (s.taskGone tid).forms = s.forms := by
  unfold State.taskGone
  split <;> simp
@[simp] theorem forms_doEventPost (k) : (doEventPost k s).forms = s.forms := by
  unfold doEventPost
  split <;> simp
@[simp] theorem forms_doIrqTimerExpiry (k t) : (doIrqTimerExpiry k t s).forms = s.forms := by simp [doIrqTimerExpiry]
@[simp] theorem forms_ringOpen (k) : (s.ringOpen k).forms = s.forms := by simp [State.ringOpen]
@[simp] theorem forms_ringShut (k) : (s.ringShut k).forms = s.forms := by simp [State.ringShut]
@[simp] theorem forms_writeRingCfg (k v) : (s.writeRingCfg k v).forms = s.forms := by simp [State.writeRingCfg]
@[simp] theorem forms_doRingEnable (k v) : (doRingEnable k v s).forms = s.forms := by simp [doRingEnable]
@[simp] theorem forms_doRingDisable (k v) : (doRingDisable k v s).forms = s.forms := by simp [doRingDisable]
@[simp] theorem le_forms_doRingReset (h : x ≤ s.forms) (k v) : x ≤ (doRingReset k v s).forms := by simp [doRingReset, h]
@[simp] theorem forms_doorbell (k v) : (s.doorbell k v).forms = s.forms := by simp [State.doorbell]
@[simp] theorem forms_doSubmissionDoorbell (k v) : (doSubmissionDoorbell k v s).forms = s.forms := by simp [doSubmissionDoorbell]
@[simp] theorem forms_doHeadDoorbell (k v) : (doHeadDoorbell k v s).forms = s.forms := by simp [doHeadDoorbell]
@[simp] theorem le_forms_doHostIslandReset (h : x ≤ s.forms) (kind) : x ≤ (doHostIslandReset kind s).forms := by
  simp [doHostIslandReset, h]
@[simp] theorem forms_doPcieLinkUp (gen width cfg) : (doPcieLinkUp gen width cfg s).forms = s.forms := by simp [doPcieLinkUp]

/-! ### Windsock -/

@[simp] theorem forms_markDip (a b) : (s.markDip a b).forms = s.forms := by simp [State.markDip]
@[simp] theorem forms_railWarns (r aux) : (s.railWarns r aux).forms = s.forms := by simp [State.railWarns]
@[simp] theorem forms_doRailBelowWarning (r first t) : (doRailBelowWarning r first t s).forms = s.forms := by simp [doRailBelowWarning]
@[simp] theorem forms_doRailAboveWarning (r first lowest t) : (doRailAboveWarning r first lowest t s).forms = s.forms := by
  unfold doRailAboveWarning
  dsimp only
  (repeat' split) <;> simp
@[simp] theorem forms_doRailAboveHigh (r level t) : (doRailAboveHigh r level t s).forms = s.forms := by simp [doRailAboveHigh]
@[simp] theorem forms_doSupplyPauseEnd (t) : (doSupplyPauseEnd t s).forms = s.forms := by simp [doSupplyPauseEnd]
@[simp] theorem le_forms_doSupplyReset (h : x ≤ s.forms) (r lowest t) : x ≤ (doSupplyReset r lowest t s).forms := by
  unfold doSupplyReset
  split
  · exact h
  · simp [h]
@[simp] theorem forms_threshold (src sub k thr v) : (s.threshold src sub k thr v).forms = s.forms := by simp [State.threshold]
@[simp] theorem forms_sense (k v) : (s.sense k v).forms = s.forms := by simp [State.sense]
@[simp] theorem forms_doTempSample (temps t) : (doTempSample temps t s).forms = s.forms := by
  unfold doTempSample
  extract_lets s0 new s1
  have h1 : s1.forms = s.forms := by
    refine (forms_foldl (fun a k => ?_) _ _).trans (forms_at t)
    split <;> simp
  split <;> simp [h1]
@[simp] theorem forms_setProcs (freqs) : (s.setProcs freqs).forms = s.forms := by
  refine forms_foldl (fun a n => ?_) _ _
  split <;> simp
@[simp] theorem forms_doProcessSample (freqs t) : (doProcessSample freqs t s).forms = s.forms := by simp [doProcessSample]

/-! ### Failures -/

@[simp] theorem forms_reportEither (src island unit) : (s.reportEither src island unit).forms = s.forms := by simp [State.reportEither]
@[simp] theorem le_forms_sliceBursts (h : x ≤ s.forms) (g queued) : x ≤ (s.sliceBursts g queued).forms := by
  unfold State.sliceBursts
  (repeat' split) <;> simp [h]
@[simp] theorem le_forms_doSliceFailure (h : x ≤ s.forms) (n p) : x ≤ (doSliceFailure n p s).forms := by
  unfold doSliceFailure
  dsimp only
  (repeat' split) <;> simp [h]
@[simp] theorem le_forms_doCaptureEngineFailure (h : x ≤ s.forms) (n) : x ≤ (doCaptureEngineFailure n s).forms := by
  simp [doCaptureEngineFailure, h]
@[simp] theorem le_forms_blockNeeding (h : x ≤ s.forms) (p) : x ≤ (s.blockNeeding p).forms := by
  refine le_forms_foldl h (fun a y => ?_) _
  split <;> simp
@[simp] theorem le_forms_retireChan (h : x ≤ s.forms) (n c) : x ≤ (s.retireChan n c).forms := by simp [State.retireChan, h]
@[simp] theorem le_forms_doChannelFailure (h : x ≤ s.forms) (n c) : x ≤ (doChannelFailure n c s).forms := by simp [doChannelFailure, h]
@[simp] theorem le_forms_retireChain (h : x ≤ s.forms) (k) : x ≤ (s.retireChain k).forms := by simp [State.retireChain, h]
@[simp] theorem le_forms_doFilterChainFailure (h : x ≤ s.forms) (k) : x ≤ (doFilterChainFailure k s).forms := by
  simp [doFilterChainFailure, h]

/-! ### Clocks -/

@[simp] theorem forms_foldSub : s.foldSub.forms = s.forms := by simp [State.foldSub]
@[simp] theorem forms_goDark : s.goDark.forms = s.forms := by simp [State.goDark]
@[simp] theorem forms_endDark (t) : (s.endDark t).forms = s.forms := by
  unfold State.endDark
  split <;> simp
@[simp] theorem le_forms_trefEnds (h : x ≤ s.forms) : x ≤ s.trefEnds.forms := by
  unfold State.trefEnds
  extract_lets s1 s2 s3
  have h2 : x ≤ s2.forms := by simp [s2, s1, h]
  have h3 : x ≤ s3.forms := by simp [s3, h2]
  simp [h3]
@[simp] theorem forms_trefLost (t) : (s.trefLost t).forms = s.forms := by simp [State.trefLost]
@[simp] theorem forms_trefFault : s.trefFault.forms = s.forms := by simp [State.trefFault]
@[simp] theorem le_forms_doTrefLoss (h : x ≤ s.forms) (t) : x ≤ (doTrefLoss t s).forms := by simp [doTrefLoss, h]
@[simp] theorem forms_doPllRelock (t) : (doPllRelock t s).forms = s.forms := by simp [doPllRelock]
@[simp] theorem forms_doTrefHoldEnd (t) : (doTrefHoldEnd t s).forms = s.forms := by simp [doTrefHoldEnd]
@[simp] theorem forms_doReplicaCheck (island replica t) : (doReplicaCheck island replica t s).forms = s.forms := by simp [doReplicaCheck]
@[simp] theorem forms_tick : s.tick.forms = s.forms := by simp [State.tick]
@[simp] theorem forms_calLoad (sec) : (s.calLoad sec).forms = s.forms := by simp [State.calLoad]
@[simp] theorem forms_doCalSet (v) : (doCalSet v s).forms = s.forms := by simp [doCalSet]
@[simp] theorem forms_doCalsecAdvance (t) : (doCalsecAdvance t s).forms = s.forms := by simp [doCalsecAdvance]
@[simp] theorem forms_doXtalLoss (t) : (doXtalLoss t s).forms = s.forms := by simp [doXtalLoss]
@[simp] theorem forms_doXtalReturn (t) : (doXtalReturn t s).forms = s.forms := by
  unfold doXtalReturn
  split
  · rfl
  · extract_lets s1
    have h1 : s1.forms = s.forms := forms_endDark t
    clear_value s1
    simp [h1]
@[simp] theorem forms_doSyncOutPulse (t) : (doSyncOutPulse t s).forms = s.forms := by simp [doSyncOutPulse]
@[simp] theorem forms_doTrigInEdge (j rising t) : (doTrigInEdge j rising t s).forms = s.forms := by simp [doTrigInEdge]
@[simp] theorem forms_doTapInstruction (code) : (doTapInstruction code s).forms = s.forms := by simp [doTapInstruction]

/-! ### Image -/

@[simp] theorem forms_loadPatch (b) : (s.loadPatch b).forms = s.forms := by simp [State.loadPatch]
@[simp] theorem forms_applyBoard (l) : (s.applyBoard l).forms = s.forms := by simp [State.applyBoard]

/-! ### Boot -/

@[simp] theorem forms_bootMark (phase code detail) : (s.bootMark phase code detail).forms = s.forms := by simp [State.bootMark]
theorem forms_with_power (p : Power) : ({ s with power := p } : State).forms = s.forms := rfl
@[simp] theorem forms_bootFails (phase code detail) : (s.bootFails phase code detail).forms = s.forms := by
  unfold State.bootFails
  exact (forms_with_power _).trans (by simp)
theorem forms_with_mcs {ms : List Mc} {l : Life} {r : Rst} : ({ s with life := l, mcs := ms, rst := r } : State).forms = s.forms := rfl
@[simp] theorem forms_mountLog (base size cold kept) : (s.mountLog base size cold kept).forms = s.forms := by
  unfold State.mountLog
  extract_lets u l0 rs snap r
  clear_value snap rs
  split
  extract_lets l1 used l2 l3 fences ms agrees s1
  have h1 : s1.forms = s.forms := forms_with_mcs
  clear_value s1 agrees
  split
  · exact h1
  · exact (forms_foldl (fun a m => by simp) _ _).trans h1
@[simp] theorem forms_trainMemory (inp kept) : (s.trainMemory inp kept).forms = s.forms := by simp [State.trainMemory]
@[simp] theorem forms_fillCaps : s.fillCaps.forms = s.forms := by simp [State.fillCaps]
@[simp] theorem le_forms_retireFound (h : x ≤ s.forms) (meters cores kept) :
    x ≤ (s.retireFound meters cores kept).forms := by
  simp [State.retireFound, h]
@[simp] theorem le_forms_retireUnit (h : x ≤ s.forms) (kind island unit) : x ≤ (s.retireUnit kind island unit).forms := by
  unfold State.retireUnit
  split <;> simp [h]
@[simp] theorem le_forms_reloadRetired (h : x ≤ s.forms) : x ≤ s.reloadRetired.forms := by
  unfold State.reloadRetired
  split
  · exact h
  · exact le_forms_foldl h (fun a u => by simp) _
@[simp] theorem forms_bootLinks (l) : (s.bootLinks l).1.forms = s.forms := by simp [State.bootLinks]
@[simp] theorem forms_allotCtx : s.allotCtx.forms = s.forms := by
  unfold State.allotCtx
  dsimp only
  split <;> simp
@[simp] theorem forms_bootDomains : s.bootDomains.forms = s.forms := by simp [State.bootDomains]
theorem forms_with_boot {r : Rst} {l : Life} {p : Pair} : ({ s with rst := r, life := l, pair := p } : State).forms = s.forms := rfl
@[simp] theorem le_forms_bootEnds (h : x ≤ s.forms) (slot warns) : x ≤ (s.bootEnds slot warns).forms := by
  unfold State.bootEnds
  split
  extract_lets s1 seen procs s2 s3 solo l r p s4
  have h1 : s1.forms = s.forms := by simp [s1]
  have h2 : s2.forms = s1.forms := by
    unfold s2
    split
    · extract_lets u
      have hu : u.forms = s1.forms := forms_log _ _
      clear_value u
      simp [hu]
    · rfl
  have h3 : s3.forms = s2.forms := by simp [s3]
  have h4 : s4.forms = s.forms := (forms_with_boot.trans h3).trans (h2.trans h1)
  clear_value s4
  split <;> simp [h4, h]
@[simp] theorem le_forms_bootBoard (h : x ≤ s.forms) (inp slot b l) : x ≤ (s.bootBoard inp slot b l).forms := by
  unfold State.bootBoard
  extract_lets bd dslot idx s0 s1 ptr
  have h1 : x ≤ s1.forms := by simp [s1, s0, h]
  split
  · simp [h1]
  · split
    · simp [h1]
    · extract_lets s2 kept s3 s4 slow s5 fresh tables cores s6
      have h2 : x ≤ s2.forms := by simp [s2, h1]
      have h3 : x ≤ s3.forms := by unfold s3; split <;> simp [h2]
      have h5 : x ≤ s5.forms := by simp [s5, s4, h3]
      have h6 : x ≤ s6.forms := le_forms_reloadRetired (le_forms_retireFound (by split <;> simp [h5]) _ _ _)
      clear_value s6
      split
      · simp [h2]
      · simp [h6]
@[simp] theorem le_forms_bootClocks (h : x ≤ s.forms) (inp) : x ≤ (s.bootClocks inp).forms := by simp [State.bootClocks, h]
@[simp] theorem le_forms_doBoot (h : x ≤ s.forms) (inp) : x ≤ (doBoot inp s).forms := by
  unfold doBoot
  extract_lets p s0 loops r s1 s2
  have h1 : x ≤ s1.forms := le_forms_bootClocks (by simp [s0, h]) _
  have h2 : x ≤ s2.forms := by simp [s2, h1]
  clear_value s2
  split
  · exact h
  · (repeat' split) <;> simp [h2]
@[simp] theorem forms_doPatchApply (sq idx src) : (doPatchApply sq idx src s).forms = s.forms := by
  refine forms_withDesc fun d => ?_
  dsimp only
  (repeat' split) <;> simp

/-! ### RegRead -/

@[simp] theorem forms_dropHeld (off) : (s.dropHeld off).forms = s.forms := by simp [State.dropHeld]
@[simp] theorem forms_read32 (off) : (s.read32 off).1.forms = s.forms := by
  unfold State.read32
  (repeat' split) <;> simp
@[simp] theorem forms_doSplitReadLatch (off size) : (doSplitReadLatch off size s).forms = s.forms := by simp [doSplitReadLatch]
@[simp] theorem forms_doSmbusBlockRead (cmd) : (doSmbusBlockRead cmd s).forms = s.forms := by simp [doSmbusBlockRead]

/-! ### HostWrite -/

@[simp] theorem forms_writeTempThr (v) : (s.writeTempThr v).forms = s.forms := by simp [State.writeTempThr]
@[simp] theorem forms_writeRailThr (r v) : (s.writeRailThr r v).forms = s.forms := by simp [State.writeRailThr]
@[simp] theorem forms_writeMasked (off ch is v) : (s.writeMasked off ch is v).forms = s.forms := by simp [State.writeMasked]
@[simp] theorem forms_writeMemLog (off m j v) : (s.writeMemLog off m j v).forms = s.forms := by simp [State.writeMemLog]
@[simp] theorem forms_writeDtimeStat (v) : (s.writeDtimeStat v).forms = s.forms := by simp [State.writeDtimeStat]
@[simp] theorem forms_writePairCtl (v) : (s.writePairCtl v).forms = s.forms := by simp [State.writePairCtl]
@[simp] theorem forms_writeChain (off k highOnly v) : (s.writeChain off k highOnly v).forms = s.forms := by simp [State.writeChain]
@[simp] theorem le_forms_writeReg (h : x ≤ s.forms) (r is off highOnly v) :
    x ≤ (s.writeReg r is off highOnly v).forms := by
  unfold State.writeReg
  split <;> simp [h]
@[simp] theorem le_forms_write32 (h : x ≤ s.forms) (off v) : x ≤ (s.write32 off v).forms := by
  unfold State.write32
  (repeat' split) <;> simp [h]
@[simp] theorem forms_msixWord (o x) : (s.msixWord o x).forms = s.forms := by simp [State.msixWord]
@[simp] theorem forms_bar2Write (o size v) : (s.bar2Write o size v).forms = s.forms := by simp [State.bar2Write]
@[simp] theorem le_forms_doRegisterWrite (h : x ≤ s.forms) (off size v) : x ≤ (doRegisterWrite off size v s).forms := by
  unfold doRegisterWrite
  (repeat' split) <;> simp [h]

/-! ### Every command and every step -/

theorem le_forms_of_next {t u : State} (h : x ≤ u.forms) (e : (Host.Outcome.next u : Host.Outcome State Fault Refusal) = .next t) :
    x ≤ t.forms := by
  cases e
  exact h

theorem le_forms_exec {c : Instr} {t : State} (h : x ≤ s.forms) (e : exec c s = .next t) : x ≤ t.forms := by
  cases c with
  | _ => exact le_forms_of_next (by simp [h]) e
end

/-- Settles O54: every command, and the tick of an empty queue, keeps device memory and the register file canonical. -/
theorem stepsKeepCanonicalForms : Obligations.StepsKeepCanonicalForms := by
  intro s t hs e
  have hst : s.forms ≤ t.forms := by
    unfold step at e
    split at e
    · exact le_forms_exec (s := { s with pending := _ }) (by simp) e
    · exact le_forms_of_next (by simp) e
  rw [canonical_eq_forms] at hs ⊢
  exact Bool.le_iff_imp.mp hst hs

end Sys2Proof.Machine
end

