-- ==== Sys2Proof/Proofs/TimingSets.lean ====
section
namespace Sys2Proof.Machine

/-! SUPPORT. How timing sets are loaded and unloaded (R212, R226, R229, R230), and the statement about them. -/

section
variable {s : State} {sq idx n k : Nat} {bs : List Byte}

/-- From s to t set k of cluster n has become x; every other set of that cluster, and every other cluster, is as it was. -/
def TsetChanged (s t : State) (n k : Nat) (x : Option Tset) : Prop :=
  kGet (t.cl n).tsets k = x ∧ (∀ j, j ≠ k → kGet (t.cl n).tsets j = kGet (s.cl n).tsets j) ∧ ∀ m, m ≠ n → t.cl m = s.cl m

theorem tsetChanged_of_upCl {t : State} {g : List (Nat × Tset) → List (Nat × Tset)} {x : Option Tset} (hn : n < s.clusters.length)
    (ht : ∀ m, t.cl m = (s.upCl n (fun c => { c with tsets := g c.tsets })).cl m) (hk : kGet (g (s.cl n).tsets) k = x)
    (hj : ∀ j, j ≠ k → kGet (g (s.cl n).tsets) j = kGet (s.cl n).tsets j) : TsetChanged s t n k x := by
  rw [TsetChanged, ht n, upCl_cl_same s n _ hn]
  exact ⟨hk, hj, fun m hm => (ht m).trans (upCl_cl_ne s _ hm)⟩

/-- A timing set that is stored as its descriptor completes (R229). -/
theorem putTset_finish_changes (hn : n < s.clusters.length) (st : Nat) :
    TsetChanged s ((s.putTset n k bs).finish sq idx st) n k (some { num := k, bytes := bs }) :=
  tsetChanged_of_upCl (g := fun l => kSet l k { num := k, bytes := bs }) hn (sends_finish (s.putTset n k bs) sq idx st).cl
    (kGet_kSet_same _ _ _) (fun _ hj => kGet_kSet_ne _ _ hj)

/-- A timing set that is removed as its descriptor completes (R230). -/
theorem delTset_finish_changes (hn : n < s.clusters.length) (st : Nat) :
    TsetChanged s ((s.delTset n k).finish sq idx st) n k none :=
  tsetChanged_of_upCl (g := fun l => kDel l k) hn (sends_finish (s.delTset n k) sq idx st).cl (kGet_kDel_same _ _)
    (fun _ hj => kGet_kDel_ne _ hj)

/-- A descriptor that waits no longer does not wait after what changes no waiting list. -/
theorem waitOf_none_of_unwait {t : State} (h : t.waiting = (s.unwait sq idx).waiting) : t.waitOf sq idx = none := by
  rw [State.waitOf, h, State.unwait, List.find?_eq_none]
  intro w hw
  simpa [imp_iff_not_or] using (List.mem_filter.mp hw).2

/-- LOAD_TSET whose body and bytes pass the checks stores them, or waits (R212, R229). -/
theorem doLoadTset_checked {d : Desc} (hr : Safety.ready s sq idx 0x10 d) (hn : fld d.bytes 16 1 = n) (hk : fld d.bytes 17 1 = k)
    (hn12 : n < 12) (hk64 : k < 64) (ha : s.clAbsent n = false) (hsrc : fld d.bytes 24 8 % 64 = 0) (hz : zeroes d.bytes 18 6 = true)
    (hz2 : zeroes d.bytes 32 32 = true) (hbm : s.host.pci.busMaster = true) (hl : bs.length = 576) (hc : tsCheck bs = none) :
    doLoadTset sq idx (some bs) s = if s.tsetHeld n k (tsPeriod bs) then s.wait { sq := sq, idx := idx, kind := .tsetLoad n k bs }
      else (s.putTset n k bs).finish sq idx St.ok := by
  have hpad : padTo bs 576 = bs := by simp [padTo, zeros, hl]
  have hread : s.hostRead (some bs) = some bs := if_pos hbm
  rw [doLoadTset, withDesc_of_ready hr]
  simp [hn, hk, ha, hsrc, hz, hz2, hread, hpad, hc, Nat.not_le.2 hn12, Nat.not_le.2 hk64]

/-- UNLOAD_TSET of a loaded set removes it, or waits (R230). -/
theorem doUnloadTset_loaded {d : Desc} {x : Tset} (hr : Safety.ready s sq idx 0x11 d) (hn : fld d.bytes 16 1 = n)
    (hk : fld d.bytes 17 1 = k) (hn12 : n < 12) (hk64 : k < 64) (ha : s.clAbsent n = false) (hz : zeroes d.bytes 18 46 = true)
    (hx : kGet (s.cl n).tsets k = some x) :
    doUnloadTset sq idx s = if s.tsetUsed n k then s.wait { sq := sq, idx := idx, kind := .tsetUnload n k }
      else (s.delTset n k).finish sq idx St.ok := by
  rw [doUnloadTset, withDesc_of_ready hr]
  simp [State.unloadTset, hn, hk, ha, hz, hx, Nat.not_le.2 hn12, Nat.not_le.2 hk64]

/-- DEFERRED_TSET_LOAD once no admitted burst would be shortened (R212). -/
theorem doDeferredTsetLoad_free {w : Waiting} (hw : s.waitOf sq idx = some w) (hk : w.kind = .tsetLoad n k bs)
    (hh : s.tsetHeld n k (tsPeriod bs) = false) :
    doDeferredTsetLoad sq idx s = ((s.unwait sq idx).putTset n k bs).finish sq idx St.ok := by
  obtain ⟨_, _, _, _⟩ := w
  subst hk
  simp [doDeferredTsetLoad, hw, hh]

/-- DEFERRED_TSET_UNLOAD once no admitted burst may select the set (R230). -/
theorem doDeferredTsetUnload_free {w : Waiting} {x : Tset} (hw : s.waitOf sq idx = some w) (hk : w.kind = .tsetUnload n k)
    (hu : s.tsetUsed n k = false) (hx : kGet (s.cl n).tsets k = some x) :
    doDeferredTsetUnload sq idx s = ((s.unwait sq idx).delTset n k).finish sq idx St.ok := by
  have hx' : kGet ((s.unwait sq idx).cl n).tsets k = some x := hx
  obtain ⟨_, _, _, _⟩ := w
  subst hk
  simp [doDeferredTsetUnload, hw, hu, State.unloadTset, hx']
end

/-- Settles O9: each command by whether an admitted burst still holds the set. -/
theorem timingSets : Obligations.TimingSets := by
  refine ⟨fun s sq idx n k d bs hr hs hn hk hn12 hk64 ha hsrc hz hz2 hbm hl hc => ?_, fun s sq idx n k bs w hw hkind hn12 hh hs => ?_,
    fun s sq idx n k d x hr hs hn hk hn12 hk64 ha hz hx => ?_, fun s sq idx n k w x hw hkind hn12 hu hx hs => ?_⟩
  all_goals
    obtain ⟨-, -, hcl, -⟩ := hs
    have hlen : n < s.clusters.length := hcl ▸ hn12
  · have e := doLoadTset_checked hr hn hk hn12 hk64 ha hsrc hz hz2 hbm hl hc
    refine ⟨fun hh => ?_, fun hh => congrArg Host.Outcome.next (e.trans (if_pos hh))⟩
    obtain ⟨hget, hne, hcls⟩ := putTset_finish_changes (sq := sq) (idx := idx) (k := k) (bs := bs) hlen St.ok
    exact ⟨_, congrArg Host.Outcome.next (e.trans (if_neg (Bool.eq_false_iff.mp hh))), rfl, hget, hne, hcls, finish_desc _ _ _ _,
      (sends_finish _ _ _ _).mem⟩
  · obtain ⟨hget, hne, hcls⟩ := putTset_finish_changes (s := s.unwait sq idx) (sq := sq) (idx := idx) (k := k) (bs := bs) hlen St.ok
    exact ⟨_, congrArg Host.Outcome.next (doDeferredTsetLoad_free hw hkind hh), hget, hne, hcls,
      waitOf_none_of_unwait (sends_finish _ _ _ _).waiting, finish_desc _ _ _ _, (sends_finish _ _ _ _).mem⟩
  · have e := doUnloadTset_loaded hr hn hk hn12 hk64 ha hz hx
    refine ⟨fun hu => ?_, fun hu => congrArg Host.Outcome.next (e.trans (if_pos hu))⟩
    obtain ⟨hget, hne, hcls⟩ := delTset_finish_changes (sq := sq) (idx := idx) (k := k) hlen St.ok
    exact ⟨_, congrArg Host.Outcome.next (e.trans (if_neg (Bool.eq_false_iff.mp hu))), rfl, hget, hne, hcls, finish_desc _ _ _ _,
      (sends_finish _ _ _ _).mem⟩
  · obtain ⟨hget, hne, hcls⟩ := delTset_finish_changes (s := s.unwait sq idx) (sq := sq) (idx := idx) (k := k) hlen St.ok
    exact ⟨_, congrArg Host.Outcome.next (doDeferredTsetUnload_free hw hkind hu hx), hget, hne, hcls,
      waitOf_none_of_unwait (sends_finish _ _ _ _).waiting, finish_desc _ _ _ _, (sends_finish _ _ _ _).mem⟩

end Sys2Proof.Machine
end

