-- ==== Sys2Proof/Proofs/ClusterPages.lean ====
section
namespace Sys2Proof.Machine

/-! SUPPORT. Where the registers of a cluster's page are found: cluster n has the 65,536 bytes of BAR0 from 0x10000 + 65536 n on (R725), and
a row of the register table that ends before an offset of that page, or lies outside the pages, does not hold it. -/

/-! ### Index spaces -/

/-- How far a row's last register lies from its first. -/
def dimSpan : List (Nat × Nat) → Nat
  | [] => 0
  | (st, n) :: ds => st * (n - 1) + dimSpan ds

theorem findIdx_past_span {ds : List (Nat × Nat)} {r : Nat} (h : dimSpan ds < r) : findIdx ds r = none := by
  induction ds generalizing r with
  | nil => exact if_neg (Nat.pos_iff_ne_zero.mp h)
  | cons d ds ih =>
    obtain ⟨st, n⟩ := d
    have hmul : st * min (r / st) (n - 1) ≤ st * (n - 1) := Nat.mul_le_mul_left _ (Nat.min_le_right _ _)
    have hrest : dimSpan ds < r - st * min (r / st) (n - 1) := by
      simp only [dimSpan] at h
      omega
    simp only [findIdx, ih hrest]

/-- The outermost index of an offset, and the rest of it. -/
theorem findIdx_stride {st n i x : Nat} {ds : List (Nat × Nat)} (hi : i < n) (hx : x < st) :
    findIdx ((st, n) :: ds) (st * i + x) = (findIdx ds x).map (i :: ·) := by
  have hst : 0 < st := Nat.lt_of_le_of_lt (Nat.zero_le x) hx
  have hidx : min ((st * i + x) / st) (n - 1) = i := by
    rw [Nat.mul_add_div hst, Nat.div_eq_of_lt hx]
    omega
  simp only [findIdx, hidx, Nat.add_sub_cancel_left]
  cases findIdx ds x <;> rfl

/-! ### Pages -/

/-- A row outside the clusters' pages, or one that ends before offset y of a page. -/
def Row.below (y : Nat) (r : Row) : Bool :=
  r.base + dimSpan r.dims < 0x10000 || 0xD0000 ≤ r.base ||
    (r.dims.head? == some (65536, 12) && 0x10000 ≤ r.base && r.base + dimSpan r.dims.tail < 0x10000 + y)

theorem Row.below_hit {r : Row} {n x y : Nat} (h : r.below y = true) (hn : n < 12) (hy : y ≤ x) (hx : x < 65536) :
    r.hit (0x10000 + (65536 * n + x)) = none := by
  simp only [Row.below, Bool.or_eq_true, Bool.and_eq_true, decide_eq_true_eq, beq_iff_eq] at h
  unfold Row.hit
  split
  · rfl
  obtain (hend | hstart) | ⟨⟨hhead, hstart⟩, hend⟩ := h
  · exact findIdx_past_span (by omega)
  · omega
  · obtain ⟨ds, hds⟩ := List.head?_eq_some_iff.mp hhead
    rw [hds] at hend ⊢
    have hoff : 0x10000 + (65536 * n + x) - r.base = 65536 * n + (0x10000 + x - r.base) := by
      simp only [List.tail_cons] at hend
      omega
    rw [hoff, findIdx_stride hn (by omega), findIdx_past_span (by simp only [List.tail_cons] at hend; omega)]
    rfl

/-- The register at an offset of a page is that of the first row that does not end lower, where that row holds it. -/
theorem findReg_page {r : Row} {is : List Nat} {n x y : Nat} (hfirst : (regRows.dropWhile (Row.below y)).head? = some r) (hn : n < 12)
    (hy : y ≤ x) (hx : x < 65536) (hr : r.hit (0x10000 + (65536 * n + x)) = some is) :
    findReg (0x10000 + (65536 * n + x)) = some (r, is) := by
  obtain ⟨l, hl⟩ := List.head?_eq_some_iff.mp hfirst
  have hnone : (regRows.takeWhile (Row.below y)).findSome? (fun r => (r.hit (0x10000 + (65536 * n + x))).map (fun is => (r, is))) = none :=
    List.findSome?_eq_none_iff.mpr fun a ha => by rw [Row.below_hit (List.mem_takeWhile_imp ha) hn hy hx]; rfl
  rw [findReg, ← List.takeWhile_append_dropWhile (p := Row.below y) (l := regRows), List.findSome?_append, hnone, hl,
    List.findSome?_cons, hr]
  rfl

theorem findReg_clDriftCtl {n : Nat} (hn : n < 12) : findReg (F.CL_DRIFT_CTL_EN.off [n]) = some (rowClDriftCtl, [n]) := by
  have hoff : F.CL_DRIFT_CTL_EN.off [n] = 0x10000 + (65536 * n + 0x400) := by
    simp only [RF.off, strideOff, F.CL_DRIFT_CTL_EN]
    omega
  have hhit : rowClDriftCtl.hit (0x10000 + (65536 * n + 0x400)) = some [n] := by
    have hsub : 0x10000 + (65536 * n + 0x400) - 0x10400 = 65536 * n + 0 := by omega
    rw [Row.hit, if_neg (by simp only [rowClDriftCtl]; omega)]
    simp only [rowClDriftCtl, hsub]
    rw [findIdx_stride hn (by decide)]
    rfl
  rw [hoff]
  exact findReg_page (y := 0x400) rfl hn (Nat.le_refl _) (by decide) hhit

theorem findReg_clDsk {n c : Nat} (hn : n < 12) (hc : c < 16) : findReg (F.CL_DSK_DSKD.off [n, c]) = some (rowClDsk, [n, c]) := by
  have hoff : F.CL_DSK_DSKD.off [n, c] = 0x10000 + (65536 * n + (0x1000 + 16 * c)) := by
    simp only [RF.off, strideOff, F.CL_DSK_DSKD]
    omega
  have hhit : rowClDsk.hit (0x10000 + (65536 * n + (0x1000 + 16 * c))) = some [n, c] := by
    have hsub : 0x10000 + (65536 * n + (0x1000 + 16 * c)) - 0x11000 = 65536 * n + (16 * c + 0) := by omega
    rw [Row.hit, if_neg (by simp only [rowClDsk]; omega)]
    simp only [rowClDsk, hsub]
    rw [findIdx_stride hn (by omega), findIdx_stride hc (by decide)]
    rfl
  rw [hoff]
  exact findReg_page (y := 0x1000) rfl hn (Nat.le_add_right _ _) (by omega) hhit

end Sys2Proof.Machine
end

