-- ==== Sys2Proof/Proofs/Drift.lean ====
section
namespace Sys2Proof.Machine

/-! SUPPORT. How drift tracking is enabled and moves the trims (R240-R242), and the statement about it. -/

/-! ### The size of a step (R240) -/

/-- A number drawn in an interval lies in it. -/
theorem drawn_mem_interval {lo hi : Int} (h : lo ≤ hi) (k : Nat) :
    lo ≤ lo + (k % ((hi - lo).toNat + 1) : Nat) ∧ lo + (k % ((hi - lo).toNat + 1) : Nat) ≤ hi := by
  have hlt : k % ((hi - lo).toNat + 1) < (hi - lo).toNat + 1 := Nat.mod_lt _ (Nat.succ_pos _)
  generalize k % ((hi - lo).toNat + 1) = r at hlt
  omega

theorem smallMove_iff (dg dO : Int) :
    smallMove dg dO = true ↔ (-1 ≤ dO ∧ dO ≤ 1) ∧ -2000 - 2000 * dO ≤ dg ∧ dg ≤ 2000 - 2000 * dO := by
  simp only [smallMove, Bool.and_eq_true, decide_eq_true_eq]
  omega

/-- The change of the offset in a step of R240 that stops short of the measurement. -/
def splitOffset (dg dO : Int) (k : Nat) : Int := if dO = 0 || (k % 2 = 0 && dg ≠ 0) then 0 else if dO < 0 then -1 else 1

/-- The least change of the gain in such a step, beside the offset's change o. -/
def splitLo (dg o : Int) : Int := if dg < 0 then max dg (-2000 - 2000 * o) else if o = 0 && 0 < dg then 1 else 0

/-- The greatest change of the gain in such a step. -/
def splitHi (dg o : Int) : Int := if 0 < dg then min dg (2000 - 2000 * o) else if o = 0 && dg < 0 then -1 else 0

theorem driftStep_split {dg dO : Int} (h : ¬ smallMove dg dO = true) (k : Nat) :
    driftStep dg dO k = (splitLo dg (splitOffset dg dO k) + ((k / 2) % ((splitHi dg (splitOffset dg dO k) -
      splitLo dg (splitOffset dg dO k)).toNat + 1) : Nat), splitOffset dg dO k) := if_neg h

/-- The offset moves by at most one unit, and where it stands there is a gain to move. -/
theorem splitOffset_cases {dg dO : Int} (h : ¬ smallMove dg dO = true) (k : Nat) :
    splitOffset dg dO k = 0 ∧ dg ≠ 0 ∨ splitOffset dg dO k = -1 ∨ splitOffset dg dO k = 1 := by
  rw [smallMove_iff] at h
  unfold splitOffset
  split
  next hz => exact .inl ⟨rfl, fun hg => by simp [hg] at hz; omega⟩
  next =>
    split
    · exact .inr (.inl rfl)
    · exact .inr (.inr rfl)

/-- The gains left to choose from are some, and each moves an edge by at most 0.5 ps. -/
theorem splitLo_le_splitHi {dg o : Int} (h : o = 0 ∧ dg ≠ 0 ∨ o = -1 ∨ o = 1) :
    splitLo dg o ≤ splitHi dg o ∧ -2000 - 2000 * o ≤ splitLo dg o ∧ splitHi dg o ≤ 2000 - 2000 * o := by
  obtain ⟨rfl, hg⟩ | rfl | rfl := h <;> obtain hn | rfl | hp := lt_trichotomy dg 0 <;> simp [splitLo, splitHi] <;> omega

/-- A step of the trims moves any edge by at most 0.5 ps. -/
theorem smallMove_driftStep (dg dO : Int) (k : Nat) : smallMove (driftStep dg dO k).1 (driftStep dg dO k).2 = true := by
  by_cases h : smallMove dg dO = true
  · have e : driftStep dg dO k = (dg, dO) := if_pos h
    rw [e]
    exact h
  · have ho := splitOffset_cases h k
    rw [driftStep_split h]
    generalize splitOffset dg dO k = o at ho
    obtain ⟨hle, hlo, hhi⟩ := splitLo_le_splitHi ho
    obtain ⟨hl, hh⟩ := drawn_mem_interval hle (k / 2)
    exact (smallMove_iff _ _).mpr ⟨by omega, by omega, by omega⟩

/-! ### A tracker that is changed -/

section
variable {s : State} {n : Nat}

theorem upDrift_drift_same (hn : n < s.clusters.length) (f : Drift → Drift) : ((s.upDrift n f).cl n).drift = f (s.cl n).drift :=
  congrArg Cluster.drift (upCl_cl_same s n _ hn)
theorem upDrift_cl_ne {m : Nat} (h : m ≠ n) (f : Drift → Drift) : (s.upDrift n f).cl m = s.cl m := upCl_cl_ne s _ h

@[simp] theorem upDrift_mem (f : Drift → Drift) : (s.upDrift n f).mem = s.mem := rfl

/-- Two changes of a tracker are one. -/
theorem upDrift_upDrift (f g : Drift → Drift) : (s.upDrift n f).upDrift n g = s.upDrift n (fun d => g (f d)) :=
  congrArg (fun l => { s with clusters := l }) (List.modify_modify_eq _ _ _ _)

/-- A change of a tracker by a write of a register. -/
theorem writeFields_upDrift_facts (hn : n < s.clusters.length) (off : Nat) (v : W64) (f : Drift → Drift) :
    (((s.writeFields off v).upDrift n f).cl n).drift = f (s.cl n).drift ∧
      (∀ m, m ≠ n → ((s.writeFields off v).upDrift n f).cl m = s.cl m) ∧ ((s.writeFields off v).upDrift n f).mem = s.mem := by
  have hw := writeFields_sends s off v
  refine ⟨?_, fun m hm => (upDrift_cl_ne hm f).trans (hw.cl m), hw.mem⟩
  rw [upDrift_drift_same (by rw [hw.clusters]; exact hn), hw.cl]

/-! ### CL_n_DRIFT_CTL (R241, R242, R257) -/

theorem writeFields_driftEn (hn : n < 12) (v : W64) :
    (s.writeFields (F.CL_DRIFT_CTL_EN.off [n]) v).rb F.CL_DRIFT_CTL_EN [n] = (fget v 0 1 == 1) :=
  congrArg (· == 1) (rf_writeFields_rw (c := .c) (z := 0) (findReg_clDriftCtl hn) (by decide))

theorem acquireDrift_on (he : s.rb F.CL_DRIFT_CTL_EN [n] = true) (hd : s.domOn (5 * n + 1) = true) :
    s.acquireDrift n = s.upDrift n (fun d => { d with acq := true, acqStart := s.dtime, locked := false }) :=
  if_pos (by simp [he, hd])

/-- EN cleared (R242). -/
theorem writeDriftCtl_clears {v : W64} (hn : n < 12) (hv : fget v 0 1 = 0) (hr : v.toNat.testBit 1 = false) :
    s.writeDriftCtl n v =
      (s.writeFields (F.CL_DRIFT_CTL_EN.off [n]) v).upDrift n (fun d => { d with acq := false, locked := false }) := by
  simp [State.writeDriftCtl, writeFields_driftEn hn, hv, hr]

/-- EN set (R241). -/
theorem writeDriftCtl_sets {v : W64} (hn : n < 12) (hv : fget v 0 1 = 1) (hr : v.toNat.testBit 1 = false)
    (hoff : s.rb F.CL_DRIFT_CTL_EN [n] = false) (hd : s.domOn (5 * n + 1) = true) :
    s.writeDriftCtl n v = (s.writeFields (F.CL_DRIFT_CTL_EN.off [n]) v).upDrift n
      (fun d => { d with acq := true, acqStart := s.dtime, locked := false }) := by
  have hw := writeFields_sends s (F.CL_DRIFT_CTL_EN.off [n]) v
  have hon : (s.writeFields (F.CL_DRIFT_CTL_EN.off [n]) v).rb F.CL_DRIFT_CTL_EN [n] = true := by simp [writeFields_driftEn hn, hv]
  have hdom : (s.writeFields (F.CL_DRIFT_CTL_EN.off [n]) v).domOn (5 * n + 1) = true := by rw [State.domOn, hw.power]; exact hd
  simp [State.writeDriftCtl, hon, hr, hoff, acquireDrift_on hon hdom, hw.dtime]

/-- RESET_TRIM written with EN at 1 (R242). -/
theorem writeDriftCtl_resets {v : W64} (hn : n < 12) (hv : fget v 0 1 = 1) (hr : v.toNat.testBit 1 = true)
    (hd : s.domOn (5 * n + 1) = true) :
    s.writeDriftCtl n v = (s.writeFields (F.CL_DRIFT_CTL_EN.off [n]) v).upDrift n
      (fun d => { d with gain := d.calGain, offset := d.calOffset, acq := true, acqStart := s.dtime, locked := false }) := by
  have hw := writeFields_sends s (F.CL_DRIFT_CTL_EN.off [n]) v
  have hon (f) : ((s.writeFields (F.CL_DRIFT_CTL_EN.off [n]) v).upDrift n f).rb F.CL_DRIFT_CTL_EN [n] = true :=
    (writeFields_driftEn hn v).trans (by rw [hv]; rfl)
  have hdom (f) : ((s.writeFields (F.CL_DRIFT_CTL_EN.off [n]) v).upDrift n f).domOn (5 * n + 1) = true :=
    (congrArg (fun p : Power => p.dom.testBit (5 * n + 1)) hw.power).trans hd
  have hon0 : (s.writeFields (F.CL_DRIFT_CTL_EN.off [n]) v).rb F.CL_DRIFT_CTL_EN [n] = true := hon id
  have htime (f) : ((s.writeFields (F.CL_DRIFT_CTL_EN.off [n]) v).upDrift n f).dtime = s.dtime := hw.dtime
  simp [State.writeDriftCtl, hon0, hr, acquireDrift_on (hon _) (hdom _), htime, upDrift_upDrift]

/-- A write of CL_n_DRIFT_CTL that answers: EN is as written, the tracker of the cluster as `f` makes it, every other as before. -/
theorem driftCtlWrite_facts {v : W64} {f : Drift → Drift} (hw : Safety.writable s (F.CL_DRIFT_CTL_EN.off [n]) = true) (hn : n < s.nCl)
    (hl : s.clusters.length = 12) (e : ({ s with held := none } : State).hostAccess.writeDriftCtl n v =
      (({ s with held := none } : State).hostAccess.writeFields (F.CL_DRIFT_CTL_EN.off [n]) v).upDrift n f) :
    ∃ t, s.busWrite (F.CL_DRIFT_CTL_EN.off [n]) (doDriftEnable n v) = t ∧ t.rb F.CL_DRIFT_CTL_EN [n] = (fget v 0 1 == 1) ∧
      (t.cl n).drift = f (s.cl n).drift ∧ (∀ m, m ≠ n → t.cl m = s.cl m) ∧ t.mem = s.mem := by
  have hn12 : n < 12 := Nat.lt_of_lt_of_le hn (nCl_le s)
  have hdo : doDriftEnable n v ({ s with held := none } : State).hostAccess = _ := (if_pos hn).trans e
  exact ⟨_, (busWrite_of_writable hw).trans hdo, writeFields_driftEn hn12 v,
    writeFields_upDrift_facts (s := ({ s with held := none } : State).hostAccess) (hl ▸ hn12) _ _ _⟩

/-! ### Measurements (R240, R241, R243) -/

/-- The change of the trims, gain and offset, at a measurement. -/
def State.driftMove (s : State) (n : Nat) (gain offset : Int) (whole : Bool) : Int × Int :=
  let dg := clampInt (-30000) 30000 gain - (s.cl n).drift.gain
  let dO := clampInt (-128) 128 offset - (s.cl n).drift.offset
  if whole then (dg, dO) else driftStep dg dO (Config.freeValue s.freeCtr)

/-- The state with the trims of cluster n moved, before the condition of source 10. -/
def State.driftMoved (s : State) (n : Nat) (gain offset : Int) (mv : Int × Int) : State :=
  let d := (s.cl n).drift
  s.draw.upDrift n (fun d' => { d' with
    gain := d'.gain + mv.1, offset := d'.offset + mv.2, locked := smallMove (gain - (d.gain + mv.1)) (offset - (d.offset + mv.2))
    last := s.dtime })

theorem driftUpdate_eq (gain offset : Int) (whole : Bool) : s.driftUpdate n gain offset whole =
    if clampInt (-30000) 30000 gain = gain && clampInt (-128) 128 offset = offset then
      (s.driftMoved n gain offset (s.driftMove n gain offset whole)).condOff 10 n 0
    else ((s.driftMoved n gain offset (s.driftMove n gain offset whole)).setRf F.CL_DRIFT_STAT_RANGE [n] 1).onset 10 n 0
      (if clampInt (-30000) 30000 gain = gain then 2 else 1) := rfl

theorem driftUpdate_clusters (gain offset : Int) (whole : Bool) :
    (s.driftUpdate n gain offset whole).clusters = (s.driftMoved n gain offset (s.driftMove n gain offset whole)).clusters := by
  rw [driftUpdate_eq]
  refine ite_keep State.clusters rfl ?_
  obtain ⟨_, e⟩ := onset_eq ((s.driftMoved n gain offset (s.driftMove n gain offset whole)).setRf F.CL_DRIFT_STAT_RANGE [n] 1) 10 n 0
    (if clampInt (-30000) 30000 gain = gain then 2 else 1)
  rw [e]
  rfl

theorem driftUpdate_cl (gain offset : Int) (whole : Bool) (m : Nat) :
    (s.driftUpdate n gain offset whole).cl m = (s.driftMoved n gain offset (s.driftMove n gain offset whole)).cl m :=
  congrArg (·.getD m {}) (driftUpdate_clusters _ _ _)

theorem driftUpdate_clusters_length (gain offset : Int) (whole : Bool) :
    (s.driftUpdate n gain offset whole).clusters.length = s.clusters.length := by
  rw [driftUpdate_clusters]
  exact List.length_modify _ _ _

theorem driftUpdate_mem (gain offset : Int) (whole : Bool) : (s.driftUpdate n gain offset whole).mem = s.mem := by
  rw [driftUpdate_eq]
  exact ite_keep State.mem rfl (onset_mem _ _ _ _ _)

theorem driftUpdate_cl_ne {m : Nat} (h : m ≠ n) (gain offset : Int) (whole : Bool) :
    (s.driftUpdate n gain offset whole).cl m = s.cl m :=
  (driftUpdate_cl _ _ _ m).trans (upDrift_cl_ne h _)

theorem driftUpdate_drift (hn : n < s.clusters.length) (gain offset : Int) (whole : Bool) :
    ((s.driftUpdate n gain offset whole).cl n).drift = { (s.cl n).drift with
      gain := (s.cl n).drift.gain + (s.driftMove n gain offset whole).1
      offset := (s.cl n).drift.offset + (s.driftMove n gain offset whole).2
      locked := smallMove (gain - ((s.cl n).drift.gain + (s.driftMove n gain offset whole).1))
        (offset - ((s.cl n).drift.offset + (s.driftMove n gain offset whole).2))
      last := s.dtime } := by
  rw [driftUpdate_cl]
  exact upDrift_drift_same (s := s.draw) hn _

theorem clampInt_of_mem {lo hi i : Int} (hl : lo ≤ i) (hh : i ≤ hi) : clampInt lo hi i = i := by
  simp [clampInt, Int.not_lt.2 hl, Int.not_lt.2 hh]

/-- Trims in range that a whole move or a small one reaches. -/
theorem driftMove_reaches {gain offset : Int} {whole : Bool} (hg : -30000 ≤ gain) (hg' : gain ≤ 30000) (ho : -128 ≤ offset)
    (ho' : offset ≤ 128) (h : whole = true ∨ smallMove (gain - (s.cl n).drift.gain) (offset - (s.cl n).drift.offset) = true) :
    s.driftMove n gain offset whole = (gain - (s.cl n).drift.gain, offset - (s.cl n).drift.offset) := by
  unfold State.driftMove
  rw [clampInt_of_mem hg hg', clampInt_of_mem ho ho']
  obtain rfl | hs := h
  · rfl
  · simp [driftStep, hs]

/-- Measured trims that are reached stand, and agree with the measurement. -/
theorem driftUpdate_drift_reached (hn : n < s.clusters.length) {gain offset : Int} {whole : Bool}
    (h : s.driftMove n gain offset whole = (gain - (s.cl n).drift.gain, offset - (s.cl n).drift.offset)) :
    ((s.driftUpdate n gain offset whole).cl n).drift =
      { (s.cl n).drift with gain := gain, offset := offset, locked := true, last := s.dtime } := by
  have hz : smallMove 0 0 = true := by decide
  rw [driftUpdate_drift hn, h]
  simp [hz]

/-- A step of R240 is small. -/
theorem driftUpdate_small (hn : n < s.clusters.length) (gain offset : Int) :
    smallMove (((s.driftUpdate n gain offset false).cl n).drift.gain - (s.cl n).drift.gain)
      (((s.driftUpdate n gain offset false).cl n).drift.offset - (s.cl n).drift.offset) = true := by
  rw [driftUpdate_drift hn]
  simp only [add_sub_cancel_left]
  exact smallMove_driftStep _ _ _

theorem doDriftMeasurement_due {gain offset : Int} {t : Nat} (hn : n < s.nCl) (hu : s.islUp n = true)
    (he : s.rb F.CL_DRIFT_CTL_EN [n] = true) (hd : s.domOn (5 * n + 1) = true) (ha : (s.cl n).drift.acq = false)
    (ht : (s.cl n).drift.last + 1000 * s.rf F.CL_DRIFT_CTL_INTERVAL [n] ≤ t) :
    doDriftMeasurement n gain offset t s = (s.at t).driftUpdate n gain offset false :=
  if_neg (by simp [hu, he, hd, ha, Nat.not_le.2 hn, Nat.not_lt.2 ht])

/-- An update whose measurement locks the tracker ends the acquisition (R241). -/
theorem doDriftAcquireUpdate_locks {gain offset : Int} {t : Nat} (ha : (s.cl n).drift.acq = true) (hu : s.islUp n = true)
    (hd : s.domOn (5 * n + 1) = true) (hs : (s.cl n).drift.acqStart ≤ t)
    (ht : (s.cl n).drift.acqStart < (s.cl n).drift.last → (s.cl n).drift.last + 1000 ≤ t)
    (hl : (((s.at t).driftUpdate n gain offset true).cl n).drift.locked = true) :
    doDriftAcquireUpdate n gain offset t s = ((s.at t).driftUpdate n gain offset true).upDrift n (fun d => { d with acq := false }) := by
  rw [doDriftAcquireUpdate, if_neg (by simpa [ha, hu, hd, Nat.not_lt.2 hs] using ht)]
  exact if_pos (by simp [hl])

/-- The end of an acquisition leaves the tracker at the measured trims it reached. -/
theorem driftUpdate_upDrift_drift (hn : n < s.clusters.length) {gain offset : Int} {whole : Bool}
    (h : s.driftMove n gain offset whole = (gain - (s.cl n).drift.gain, offset - (s.cl n).drift.offset)) :
    (((s.driftUpdate n gain offset whole).upDrift n (fun d => { d with acq := false })).cl n).drift =
      { (s.cl n).drift with gain := gain, offset := offset, locked := true, last := s.dtime, acq := false } := by
  rw [upDrift_drift_same (by rwa [driftUpdate_clusters_length]), driftUpdate_drift_reached hn h]
end

/-- Settles O10: a write of CL_n_DRIFT_CTL by what it does to EN and RESET_TRIM, a measurement by how far it moves the trims. -/
theorem driftTrims : Obligations.DriftTrims := by
  refine ⟨fun s n v hw hn hv hr hoff hd ⟨_, _, hcl, _⟩ => ?_, fun s n v hw hn hv hr ⟨_, _, hcl, _⟩ => ?_,
    fun s n v hw hn hv hr hd ⟨_, _, hcl, _⟩ => ?_, fun s n t0 gain offset hn hu he hd ha ht ⟨_, _, hcl, _⟩ => ?_,
    fun s n t0 gain offset ha hu hd hst ht hg hg' ho ho' hn ⟨_, _, hcl, _⟩ => ?_⟩
  · obtain ⟨t, e, hen, hdrift, hne, hmem⟩ := driftCtlWrite_facts hw hn hcl
      (writeDriftCtl_sets (Nat.lt_of_lt_of_le hn (nCl_le s)) hv hr hoff hd)
    exact ⟨t, congrArg Host.Outcome.next e, hen.trans (by rw [hv]; rfl), hdrift, hne, hmem⟩
  · obtain ⟨t, e, hen, hdrift, hne, hmem⟩ := driftCtlWrite_facts hw hn hcl
      (writeDriftCtl_clears (Nat.lt_of_lt_of_le hn (nCl_le s)) hv hr)
    exact ⟨t, congrArg Host.Outcome.next e, hen.trans (by rw [hv]; rfl), hdrift, hne, hmem⟩
  · obtain ⟨t, e, -, hdrift, hne, hmem⟩ := driftCtlWrite_facts hw hn hcl
      (writeDriftCtl_resets (Nat.lt_of_lt_of_le hn (nCl_le s)) hv hr hd)
    exact ⟨t, congrArg Host.Outcome.next e, hdrift, hne, hmem⟩
  · have hlen : n < (s.at t0).clusters.length := hcl ▸ Nat.lt_of_lt_of_le hn (nCl_le s)
    refine ⟨_, congrArg Host.Outcome.next (doDriftMeasurement_due hn hu he hd ha ht), driftUpdate_small hlen _ _,
      fun hg hg' ho ho' hsm => ?_, fun m hm => driftUpdate_cl_ne hm _ _ _, driftUpdate_mem _ _ _⟩
    rw [driftUpdate_drift_reached hlen (driftMove_reaches hg hg' ho ho' (.inr hsm))]
    exact ⟨rfl, rfl, rfl⟩
  · have hlen : n < (s.at t0).clusters.length := hcl ▸ hn
    have hmove : (s.at t0).driftMove n gain offset true = _ := driftMove_reaches hg hg' ho ho' (.inl rfl)
    have hlocked := congrArg Drift.locked (driftUpdate_drift_reached hlen hmove)
    exact ⟨_, congrArg Host.Outcome.next (doDriftAcquireUpdate_locks ha hu hd hst ht hlocked), driftUpdate_upDrift_drift hlen hmove,
      fun m hm => (upDrift_cl_ne hm _).trans (driftUpdate_cl_ne hm _ _ _), (upDrift_mem _).trans (driftUpdate_mem _ _ _)⟩

end Sys2Proof.Machine
end

