-- ==== Sys2Proof/Proofs/Calibration.lean ====
section
namespace Sys2Proof.Machine

/-! SUPPORT. How a calibration takes its turn, begins and ends, with the deskew registers and the PE control port (R246, R249, R250, R262,
R263, R426), and the statement about them. -/

/-! ### The calibrations listed -/

section
variable {s : State} {sq idx : Nat} {c : Calib}

theorem calib_place (h : s.calib sq idx = some c) : c.sq = sq ∧ c.idx = idx := by
  simpa using List.find?_some h

/-- A calibration that is changed and keeps its place is found as changed. -/
theorem upCalib_calib (h : s.calib sq idx = some c) {f : Calib → Calib} (hf : ∀ x, (f x).sq = x.sq ∧ (f x).idx = x.idx) :
    (s.upCalib sq idx f).calib sq idx = some (f c) := by
  have hp : ((fun x : Calib => x.sq = sq && x.idx = idx) ∘ fun x : Calib => if x.sq = sq && x.idx = idx then f x else x) =
      fun x : Calib => x.sq = sq && x.idx = idx := by
    funext x
    simp only [Function.comp]
    split
    · rw [(hf x).1, (hf x).2]
    · rfl
  obtain ⟨hsq, hidx⟩ := calib_place h
  rw [State.calib] at h ⊢
  rw [State.upCalib, List.find?_map, hp, h]
  simp [hsq, hidx]

theorem dropCalib_calib (s : State) (sq idx : Nat) : (s.dropCalib sq idx).calib sq idx = none := by
  rw [State.calib, State.dropCalib, List.find?_eq_none]
  intro c hc
  simpa [imp_iff_not_or] using (List.mem_filter.mp hc).2

/-! ### Lists on a port (R426) -/

/-- A list queued on a port with room is the last of its queue. -/
theorem peQueue_queue {n : Nat} {i : PeItem} (hn : n < s.pe.length) (h : (s.pePort n).queue.length < 16) :
    ((s.peQueue n i).pePort n).queue = (s.pePort n).queue ++ [i] := by
  have e : s.peQueue n i = s.upPe n (fun p => { p with queue := p.queue ++ [i] }) := if_pos h
  rw [e, upPe_pePort_same s n _ hn]

@[simp] theorem peQueue_mem (s : State) (n : Nat) (i : PeItem) : (s.peQueue n i).mem = s.mem := ite_keep State.mem rfl rfl
@[simp] theorem peQueue_regs (s : State) (n : Nat) (i : PeItem) : (s.peQueue n i).regs = s.regs := ite_keep State.regs rfl rfl
@[simp] theorem peQueue_calib (s : State) (n : Nat) (i : PeItem) (sq idx : Nat) : (s.peQueue n i).calib sq idx = s.calib sq idx :=
  ite_keep (fun t : State => t.calib sq idx) rfl rfl

theorem doPeListStart_idle {n : Nat} (hb : (s.pePort n).busy = false) (hq : (s.pePort n).queue ≠ []) (hu : s.peUp n = true)
    (hl : s.ballastOn = false) : doPeListStart n s = s.upPe n (fun p => { p with busy := true, start := s.dtime }) :=
  if_neg (by simp [hb, hq, hu, hl])

/-! ### CALIBRATE (R249) -/

theorem doCalibrate_refused {d : Desc} (hr : Safety.ready s sq idx 0x12 d) (h : s.calRefusal d.bytes ≠ 0) :
    doCalibrate sq idx s = s.finish sq idx (s.calRefusal d.bytes) := by
  rw [doCalibrate, withDesc_of_ready hr]
  exact if_pos h

theorem doCalibrate_joins {d : Desc} (hr : Safety.ready s sq idx 0x12 d) (h : s.calRefusal d.bytes = 0) :
    doCalibrate sq idx s = { s.begin sq idx with calibs := s.calibs ++ [{
      sq := sq, idx := idx, cluster := fld d.bytes 16 1, kind := fld d.bytes 17 1, chmask := fld d.bytes 18 2
      apply := (fld d.bytes 20 1).testBit 0, setup := fld d.bytes 24 4, restore := fld d.bytes 28 4, dst := fld d.bytes 32 8 }] } := by
  rw [doCalibrate, withDesc_of_ready hr]
  exact if_neg (not_not.2 h)

/-! ### CALIBRATION_START (R250) -/

/-- A calibration has its turn, and its cluster is in service (R250). -/
def State.calTurn (s : State) (c : Calib) : Prop :=
  c.phase = 0 ∧ s.calibs.find? (fun x => x.cluster = c.cluster) = some c ∧ s.domOn (5 * c.cluster) = true ∧
    s.domOn (5 * c.cluster + 1) = true ∧ s.domOn (5 * c.cluster + 2) = true ∧ s.power.blk.contains (c.cluster, none) = false ∧
    s.clk.tref = true ∧ s.ballastOn = false

theorem doCalibrationStart_turn (h : s.calib sq idx = some c) (ht : s.calTurn c) :
    doCalibrationStart sq idx s = if c.setup = 0xFFFFFFFF then s.upCalib sq idx (fun c => { c with phase := 2 })
      else (s.upCalib sq idx (fun c => { c with phase := 1 })).peQueue c.cluster { list := c.setup, user := .calib sq idx false } := by
  obtain ⟨hp, hfirst, h0, h1, h2, hblk, href, hb⟩ := ht
  obtain ⟨hsq, hidx⟩ := calib_place h
  rw [doCalibrationStart, h]
  have hblk' : (c.cluster, none) ∉ s.power.blk := by simpa using hblk
  exact if_neg (by simp [hp, hfirst, h0, h1, h2, hblk', href, hb, hsq, hidx])
end

/-! ### The registers that results enter (R244, R262, R263) -/

theorem rf_setRf_apart (s : State) {f g : RF} {i j : List Nat} (v : Nat) (hf : f.lo + f.w ≤ 64)
    (h : g.off j ≠ f.off i ∨ f.lo + f.w ≤ g.lo ∨ g.lo + g.w ≤ f.lo) : (s.setRf f i v).rf g j = s.rf g j := by
  by_cases ho : g.off j = f.off i
  · exact rf_setRf_disjoint s f g i j v ho hf (h.resolve_left (not_not.2 ho))
  · exact rf_setRf_ne s f g i j v ho

/-- From s to t registers and what clusters keep of their channels may have changed; every tracker is as it was, and no bit of a CAL_DONE
of cluster n is cleared. -/
structure CalWrites (n : Nat) (s t : State) : Prop where
  eq : ∃ g l, t = { s with regs := g, clusters := l }
  drift : t.clusters.map Cluster.drift = s.clusters.map Cluster.drift
  done : ∀ ch b, (s.rf F.CL_DSK2_CAL_DONE [n, ch]).testBit b = true → (t.rf F.CL_DSK2_CAL_DONE [n, ch]).testBit b = true

namespace CalWrites
variable {n : Nat} {s t u : State}

theorem refl (n : Nat) (s : State) : CalWrites n s s := ⟨⟨_, _, rfl⟩, rfl, fun _ _ h => h⟩

theorem trans (h : CalWrites n s t) (g : CalWrites n t u) : CalWrites n s u := by
  obtain ⟨⟨_, _, rfl⟩, hd, hb⟩ := h
  obtain ⟨⟨_, _, rfl⟩, gd, gb⟩ := g
  exact ⟨⟨_, _, rfl⟩, gd.trans hd, fun ch b h => gb ch b (hb ch b h)⟩

theorem mem (h : CalWrites n s t) : t.mem = s.mem := by obtain ⟨⟨_, _, rfl⟩, -, -⟩ := h; rfl
theorem calibs (h : CalWrites n s t) : t.calibs = s.calibs := by obtain ⟨⟨_, _, rfl⟩, -, -⟩ := h; rfl
theorem clusters_length (h : CalWrites n s t) : t.clusters.length = s.clusters.length := by
  simpa using congrArg List.length h.drift
theorem cl_drift (h : CalWrites n s t) (m : Nat) : (t.cl m).drift = (s.cl m).drift := by
  have := congrArg (fun l => l.getD m (Cluster.drift {})) h.drift
  rwa [List.getD_map, List.getD_map] at this
end CalWrites

section
variable (n : Nat) (s : State)

/-- A field beside CAL_DONE. -/
theorem calWrites_setRf {f : RF} {i : List Nat} (v : Nat) (hf : f.lo + f.w ≤ 64)
    (h : ∀ ch, F.CL_DSK2_CAL_DONE.off [n, ch] ≠ f.off i ∨ f.lo + f.w ≤ F.CL_DSK2_CAL_DONE.lo ∨
      F.CL_DSK2_CAL_DONE.lo + F.CL_DSK2_CAL_DONE.w ≤ f.lo) : CalWrites n s (s.setRf f i v) :=
  ⟨⟨_, _, rfl⟩, rfl, fun ch _ hb => by rwa [rf_setRf_apart s v hf (h ch)]⟩

theorem deskew_off_ne (i ch : Nat) : F.CL_DSK2_CAL_DONE.off [n, ch] ≠ F.CL_DSK_DSKD.off [n, i] := by
  simp only [RF.off, strideOff, F.CL_DSK2_CAL_DONE, F.CL_DSK_DSKD]
  omega

theorem calWrites_deskew {f : RF} (i v : Nat) (h : f ∈ [F.CL_DSK_DSKD, F.CL_DSK_DSKE, F.CL_DSK_DSKH, F.CL_DSK_DSKL]) :
    CalWrites n s (s.setRf f [n, i] v) := by
  fin_cases h <;> exact calWrites_setRf n s v (by decide) (fun ch => .inl (deskew_off_ne n i ch))

/-- Bits added to a CAL_DONE. -/
theorem orRf_done (i v b : Nat) : ((s.orRf F.CL_DSK2_CAL_DONE [n, i] v).rf F.CL_DSK2_CAL_DONE [n, i]).testBit b = true ↔
    b < 4 ∧ ((s.rf F.CL_DSK2_CAL_DONE [n, i]).testBit b = true ∨ v.testBit b = true) := by
  rw [State.orRf, rf_setRf_same _ _ _ _ (by decide), Nat.testBit_mod_two_pow, Nat.testBit_or]
  simp only [Bool.and_eq_true, Bool.or_eq_true, decide_eq_true_eq]
  exact Iff.rfl

theorem calWrites_orDone (i v : Nat) : CalWrites n s (s.orRf F.CL_DSK2_CAL_DONE [n, i] v) := by
  refine ⟨⟨_, _, rfl⟩, rfl, fun ch b hb => ?_⟩
  by_cases ho : F.CL_DSK2_CAL_DONE.off [n, ch] = F.CL_DSK2_CAL_DONE.off [n, i]
  · have hch : ch = i := by
      simp only [RF.off, strideOff, F.CL_DSK2_CAL_DONE] at ho
      omega
    have hb4 : b < 4 := by
      by_contra hge
      rw [Nat.testBit_lt_two_pow (Nat.lt_of_lt_of_le (rf_lt s _ _) (Nat.pow_le_pow_right (by decide) (Nat.not_lt.1 hge)))] at hb
      cases hb
    rw [hch] at hb ⊢
    rw [orRf_done]
    exact ⟨hb4, .inl hb⟩
  · rwa [State.orRf, rf_setRf_ne _ _ _ _ _ _ ho]

theorem calWrites_upCalChan (i : Nat) (f : Chan → Chan) : CalWrites n s (s.upCalChan n i f) := by
  refine ⟨⟨_, _, rfl⟩, List.ext_getElem? fun k => ?_, fun _ _ h => h⟩
  by_cases hk : n = k <;> simp [State.upCalChan, hk, Function.comp_def]

/-- The deskew registers and the target in force, where APPLY asks for them. -/
theorem calWrites_apply (b : Bool) (i : Nat) {t : State} (g : Chan → Chan) (h : CalWrites n s t) :
    CalWrites n s (if b then t.upCalChan n i g else s) := by
  split
  · exact h.trans (calWrites_upCalChan n _ i _)
  · exact .refl n s
end

section
variable {s : State} {c : Calib} {m : CalMeas}

/-- What a result OK writes beside its bit of CAL_DONE (R244, R250). -/
theorem calApply_calWrites (s : State) (c : Calib) (m : CalMeas) :
    CalWrites c.cluster (s.orRf F.CL_DSK2_CAL_DONE [c.cluster, m.ch] (2 ^ (c.kind - 1))) (s.calApply c m) := by
  unfold State.calApply
  dsimp only
  by_cases h1 : c.kind = 1
  · rw [if_pos h1]
    exact calWrites_upCalChan _ _ _ _
  rw [if_neg h1]
  by_cases h2 : c.kind = 2
  · rw [if_pos h2]
    exact (calWrites_upCalChan _ _ _ _).trans (calWrites_apply _ _ _ _ _
      ((calWrites_deskew _ _ _ _ (by decide)).trans (calWrites_deskew _ _ _ _ (by decide))))
  rw [if_neg h2]
  by_cases h3 : c.kind = 3
  · rw [if_pos h3]
    exact calWrites_apply _ _ _ _ _ (((calWrites_deskew _ _ _ _ (by decide)).trans (calWrites_deskew _ _ _ _ (by decide))).trans
      (calWrites_setRf _ _ _ (by decide) (fun _ => .inr (by decide))))
  rw [if_neg h3]
  refine (calWrites_setRf _ _ _ (by decide) (fun _ => .inr (by decide))).trans (calWrites_apply _ _ _ _ _ ?_)
  exact ((calWrites_deskew _ _ _ _ (by decide)).trans (calWrites_deskew _ _ _ _ (by decide))).trans
    ((calWrites_deskew _ _ _ _ (by decide)).trans (calWrites_deskew _ _ _ _ (by decide)))

theorem calApply_keeps (s : State) (c : Calib) (m : CalMeas) : CalWrites c.cluster s (s.calApply c m) :=
  (calWrites_orDone _ _ _ _).trans (calApply_calWrites s c m)

/-- A result OK sets the bit of its kind. -/
theorem calApply_done (hk : 1 ≤ c.kind) (hk4 : c.kind ≤ 4) :
    ((s.calApply c m).rf F.CL_DSK2_CAL_DONE [c.cluster, m.ch]).testBit (c.kind - 1) = true :=
  (calApply_calWrites s c m).done m.ch _ ((orRf_done _ _ _ _ _).mpr ⟨by omega, .inr (Nat.testBit_two_pow_self)⟩)

/-- The results OK of a calibration enter the registers. -/
theorem foldl_calApply_keeps (c : Calib) (l : List CalMeas) (s : State) :
    CalWrites c.cluster s (l.foldl (fun s m => s.calApply c m) s) :=
  foldl_inv (CalWrites c.cluster s) _ (fun a x h => h.trans (calApply_keeps a c x)) l s (.refl _ _)

theorem foldl_calApply_done (hk : 1 ≤ c.kind) (hk4 : c.kind ≤ 4) {l : List CalMeas} (hm : m ∈ l) (s : State) :
    ((l.foldl (fun s m => s.calApply c m) s).rf F.CL_DSK2_CAL_DONE [c.cluster, m.ch]).testBit (c.kind - 1) = true := by
  induction l generalizing s with
  | nil => cases hm
  | cons x r ih =>
    obtain rfl | hr := List.mem_cons.mp hm
    · exact (foldl_calApply_keeps c r _).done _ _ (calApply_done hk hk4)
    · exact ih hr _

/-! ### CALIBRATION_COMPLETE (R250) -/

/-- The measurements of a calibration whose result is OK. -/
def State.calGood (s : State) (c : Calib) : List CalMeas :=
  c.meas.filter (fun m => m.ch < 16 && c.chmask.testBit m.ch && s.calRes c m = 0)

theorem mem_calGood (hm : m ∈ c.meas) (hch : m.ch < 16) (hmask : c.chmask.testBit m.ch = true) (hres : s.calRes c m = 0) :
    m ∈ s.calGood c := List.mem_filter.mpr ⟨hm, by simp [hch, hmask, hres]⟩

/-- The registers and the channels of the cluster, once a calibration that has run has left it. -/
def State.calResults (s : State) (c : Calib) : State :=
  ((s.dropCalib c.sq c.idx).calGood c).foldl (fun s m => s.calApply c m)
    ((s.dropCalib c.sq c.idx).emit (.hostWrite c.dst ((List.range 16).flatMap ((s.dropCalib c.sq c.idx).calEntry c))))

/-- What a tracker keeps of a calibration: the trims, the temperatures and the rails (R242). -/
def State.calTrims (s : State) (n : Nat) (d : Drift) : Drift :=
  { d with calGain := d.gain, calOffset := d.offset, calTemp := [s.temp (2 * n), s.temp (2 * n + 1)]
           calRails := (List.range 14).map s.railNow }

/-- The state in which the descriptor of a calibration that has run completes. -/
def State.calDone (s : State) (c : Calib) : State :=
  ({ s.calResults c with freeCtr := (s.calResults c).freeCtr + 80 } : State).upDrift c.cluster (s.calTrims c.cluster)

theorem calFinish_ok (hs : c.st = 0) (hb : s.host.pci.busMaster = true) : s.calFinish c =
    (s.calDone c).complete c.sq c.idx { status := St.ok, val0 := maskOf ((s.calGood c).map CalMeas.ch) } := by
  have hw (a : Nat) (bs : List Byte) :
      (s.dropCalib c.sq c.idx).hostWrite c.sq a bs = ((s.dropCalib c.sq c.idx).emit (.hostWrite a bs), true) := if_pos hb
  rw [State.calFinish, if_neg (not_not.2 hs)]
  dsimp only
  rw [hw]
  exact if_pos rfl

/-- CALIBRATION_COMPLETE of a calibration that measures and has no PE_RESTORE. -/
theorem doCalibrationComplete_measuring {sq idx : Nat} {meas : List CalMeas} (h : s.calib sq idx = some c) (hp : c.phase = 2)
    (hr : c.restore = 0xFFFFFFFF) : doCalibrationComplete sq idx meas s =
      (s.upCalib sq idx (fun c => { c with meas := meas })).calFinish { c with meas := meas } := by
  rw [doCalibrationComplete, h]
  exact (if_neg (not_not.2 hp)).trans (if_pos hr)

theorem calResults_writes (s : State) (c : Calib) : CalWrites c.cluster
    ((s.dropCalib c.sq c.idx).emit (.hostWrite c.dst ((List.range 16).flatMap ((s.dropCalib c.sq c.idx).calEntry c)))) (s.calResults c) :=
  foldl_calApply_keeps _ _ _

theorem calDone_calib (s : State) (c : Calib) : (s.calDone c).calib c.sq c.idx = none :=
  (congrArg (List.find? _) (calResults_writes s c).calibs).trans (dropCalib_calib s c.sq c.idx)

theorem calDone_mem (s : State) (c : Calib) : (s.calDone c).mem = s.mem := (calResults_writes s c).mem

/-- Every channel measured OK has its kind's bit. -/
theorem calDone_done (hk : 1 ≤ c.kind) (hk4 : c.kind ≤ 4) (hm : m ∈ s.calGood c) :
    ((s.calDone c).rf F.CL_DSK2_CAL_DONE [c.cluster, m.ch]).testBit (c.kind - 1) = true :=
  foldl_calApply_done hk hk4 hm _

/-- The tracker keeps the trims of the calibration. -/
theorem calDone_drift (hn : c.cluster < s.clusters.length) :
    ((s.calDone c).cl c.cluster).drift = s.calTrims c.cluster (s.cl c.cluster).drift := by
  have hw := calResults_writes s c
  have hlen : c.cluster < (s.calResults c).clusters.length := by rw [hw.clusters_length]; exact hn
  exact (upDrift_drift_same hlen _).trans (congrArg (s.calTrims c.cluster) (hw.cl_drift c.cluster))
end

/-! ### Deskew (R246, R262) -/

/-- A deskew register takes the four values written. -/
theorem writeFields_deskew (s : State) {n c : Nat} (hn : n < 12) (hc : c < 16) (v : W64) :
    (s.writeFields (F.CL_DSK_DSKD.off [n, c]) v).rf F.CL_DSK_DSKD [n, c] = fget v 0 15 ∧
      (s.writeFields (F.CL_DSK_DSKD.off [n, c]) v).rf F.CL_DSK_DSKE [n, c] = fget v 16 15 ∧
      (s.writeFields (F.CL_DSK_DSKD.off [n, c]) v).rf F.CL_DSK_DSKH [n, c] = fget v 32 15 ∧
      (s.writeFields (F.CL_DSK_DSKD.off [n, c]) v).rf F.CL_DSK_DSKL [n, c] = fget v 48 15 := by
  have h := findReg_clDsk hn hc
  exact ⟨rf_writeFields_rw (f := F.CL_DSK_DSKD) (c := .p) (z := 0) h (by decide),
    rf_writeFields_rw (f := F.CL_DSK_DSKE) (c := .p) (z := 0) h (by decide),
    rf_writeFields_rw (f := F.CL_DSK_DSKH) (c := .p) (z := 0) h (by decide),
    rf_writeFields_rw (f := F.CL_DSK_DSKL) (c := .p) (z := 0) h (by decide)⟩

/-- DESKEW_WRITE of a channel's first register. -/
theorem deskewWrite_eq {s : State} {n c : Nat} (v : W64) (hw : Safety.writable s (F.CL_DSK_DSKD.off [n, c]) = true) (hn : n < s.nCl)
    (hc : c < 16) : exec (.deskewWrite n c false v) s =
      .next (({ s with held := none } : State).hostAccess.writeFields (F.CL_DSK_DSKD.off [n, c]) v) := by
  have hnc : (n < ({ s with held := none } : State).hostAccess.nCl && c < 16) = true := by simpa using ⟨hn, hc⟩
  exact congrArg Host.Outcome.next ((busWrite_of_writable hw).trans (if_pos hnc))

/-- Settles O11: CALIBRATE by its checks, the start by PE_SETUP, the end by what its results write, and the two writes of the bench. -/
theorem calibration : Obligations.Calibration := by
  refine ⟨fun s sq idx d hr => ⟨fun h => ?_, fun h => ?_⟩, fun s sq idx c h hp hfirst h0 h1 h2 hblk href hb => ?_,
    fun s sq idx c meas h hp hrest hst hk hk4 hn hbm ⟨_, _, hcl, _⟩ => ?_, fun s n c v hw hn hc => ?_,
    fun s n hb hq hu hbal hn ⟨_, _, _, _, _, hpe, _⟩ => ?_⟩
  · exact congrArg Host.Outcome.next (doCalibrate_refused hr h)
  · exact ⟨_, congrArg Host.Outcome.next (doCalibrate_joins hr h), rfl, begin_desc hr.1, rfl, rfl, rfl⟩
  · have e := doCalibrationStart_turn h ⟨hp, hfirst, h0, h1, h2, hblk, href, hb⟩
    by_cases hset : c.setup = 0xFFFFFFFF
    · exact ⟨_, congrArg Host.Outcome.next (e.trans (if_pos hset)), rfl, rfl, fun _ => ⟨upCalib_calib h (fun _ => ⟨rfl, rfl⟩), rfl⟩,
        fun hne => absurd hset hne⟩
    · exact ⟨_, congrArg Host.Outcome.next (e.trans (if_neg hset)), peQueue_mem _ _ _, peQueue_regs _ _ _, fun he => absurd he hset,
        fun _ hn ⟨_, _, _, _, _, hpe, _⟩ hroom => ⟨(peQueue_calib _ _ _ _ _).trans (upCalib_calib h (fun _ => ⟨rfl, rfl⟩)),
          peQueue_queue (s := s.upCalib sq idx _) (hpe ▸ hn) hroom⟩⟩
  · obtain ⟨rfl, rfl⟩ := calib_place h
    have e := (doCalibrationComplete_measuring (meas := meas) h hp hrest).trans (calFinish_ok hst hbm)
    have hdrift := calDone_drift (s := s.upCalib c.sq c.idx (fun c => { c with meas := meas })) (c := { c with meas := meas }) (hcl ▸ hn)
    exact ⟨_, _, rfl, congrArg Host.Outcome.next e, calDone_calib _ { c with meas := meas }, fun m hm hres hch hmask =>
      calDone_done (c := { c with meas := meas }) hk hk4 (mem_calGood hm hch hmask hres), congrArg Drift.calGain hdrift,
      congrArg Drift.calOffset hdrift, calDone_mem _ _⟩
  · obtain ⟨hd, he, hh, hl⟩ := writeFields_deskew ({ s with held := none } : State).hostAccess (Nat.lt_of_lt_of_le hn (nCl_le s)) hc v
    have hsend := writeFields_sends ({ s with held := none } : State).hostAccess (F.CL_DSK_DSKD.off [n, c]) v
    exact ⟨_, deskewWrite_eq v hw hn hc, hd, he, hh, hl, fun o ho => writeFields_reg_ne _ v ho, hsend.clusters, hsend.mem⟩
  · exact ⟨_, congrArg Host.Outcome.next (doPeListStart_idle hb hq hu hbal), upPe_pePort_same s n _ (hpe ▸ hn),
      fun m hm => upPe_pePort_ne s _ hm, rfl, rfl, rfl⟩

end Sys2Proof.Machine
end

