-- ==== Sys2Proof/Proofs/MemoryErrors.lean ====
section
namespace Sys2Proof.Machine

/-! SUPPORT. What an access of device memory that meets an error leaves as it was, and what one that meets none does (R530, R543, R544,
R638). -/

/-! ### What a memory error leaves -/

/-- The acquisitions and filter chains of a state. -/
def State.filters (s : State) : List Acq × List FChain := (s.acqs, s.chains)

/-- A state that differs from another in nothing that belongs to an acquisition: device memory, acquisitions, filter chains, and how many
records each region has lost are the same. -/
structure Unspoiled (s t : State) : Prop where
  mem : t.mem = s.mem
  filters : t.filters = s.filters
  lostCount : ∀ id, (t.region id).map Region.lostCount = (s.region id).map Region.lostCount

theorem Unspoiled.refl (s : State) : Unspoiled s s := ⟨rfl, rfl, fun _ => rfl⟩

theorem Unspoiled.trans {a b c : State} (h : Unspoiled a b) (g : Unspoiled b c) : Unspoiled a c :=
  ⟨g.mem.trans h.mem, g.filters.trans h.filters, fun id => (g.lostCount id).trans (h.lostCount id)⟩

theorem Unspoiled.ite {s a b : State} {c : Prop} [Decidable c] (h : Unspoiled s a) (g : Unspoiled s b) : Unspoiled s (if c then a else b) := by
  split <;> assumption

theorem unspoiled_foldl {β : Type} {f : State → β → State} (h : ∀ a x, Unspoiled a (f a x)) (l : List β) (s : State) :
    Unspoiled s (l.foldl f s) := foldl_inv (Unspoiled s) f (fun a x ha => ha.trans (h a x)) l s (.refl s)

theorem unspoiled_log (s : State) (typ : Nat) (data : List Byte) : Unspoiled s (s.log typ data) := by
  obtain ⟨_, _, _, _, h⟩ := log_eq s typ data
  rw [h]
  exact ⟨rfl, rfl, fun _ => rfl⟩

theorem unspoiled_degrade (s : State) (kind island unit : Nat) : Unspoiled s (s.degrade kind island unit) := by
  obtain ⟨_, _, _, _, h⟩ := degrade_eq s kind island unit
  rw [h]
  exact ⟨rfl, rfl, fun _ => rfl⟩

theorem unspoiled_mirror (s : State) (i : MItem) : Unspoiled s (s.mirror i) := by
  obtain ⟨_, _, _, h⟩ := mirror_eq s i
  rw [h]
  exact ⟨rfl, rfl, fun _ => rfl⟩

theorem unspoiled_loseObjects (s : State) (m : Nat) : Unspoiled s (s.loseObjects m) := by
  unfold State.loseObjects
  extract_lets lost s1 s2
  have h1 : Unspoiled s s1 := ⟨rfl, rfl, fun _ => rfl⟩
  have h2 : Unspoiled s1 s2 := unspoiled_foldl (fun a o => unspoiled_mirror _ _) _ _
  refine (h1.trans h2).trans (unspoiled_foldl (fun a id => ?_) _ _)
  have hobj : Unspoiled a (((a.upObj id (fun o => { o with lost := true, fallback := none })).dropLinks id).freeCopies id) :=
    ⟨rfl, rfl, fun _ => rfl⟩
  exact hobj.trans (unspoiled_mirror _ _)

/-- A channel that is retired takes its regions with it, and no count of them. -/
theorem unspoiled_retireChannel (s : State) (m : Nat) : Unspoiled s (s.retireChannel m) := by
  unfold State.retireChannel
  have hcut (u : State) (g : Nat) : Unspoiled u (u.cutSlice g 0 St.hwFault) := ⟨rfl, rfl, fun _ => rfl⟩
  refine .ite (.refl s) ?_
  extract_lets s1 s2 s3 s4
  have h1 : Unspoiled s s1 := ⟨rfl, rfl, fun _ => rfl⟩
  have h2 : Unspoiled s1 s2 := (unspoiled_loseObjects s1 m).trans (unspoiled_foldl hcut _ _)
  have h3 : Unspoiled s2 s3 := by
    refine ⟨rfl, rfl, fun id => ?_⟩
    have hmap : s3.region id = (s2.region id).map (fun r => if r.chan = m then { r with lost := true } else r) :=
      kGet_map s2.regions (fun _ r => if r.chan = m then { r with lost := true } else r) id
    rw [hmap, Option.map_map]
    refine congrArg (Option.map · (s2.region id)) (funext fun r => ?_)
    exact apply_ite Region.lostCount _ _ _ |>.trans (ite_self _)
  have h4 : Unspoiled s3 s4 := unspoiled_foldl (fun _ _ => unspoiled_mirror _ _) _ _
  have h5 : Unspoiled s4 ({ s4 with mcs := s4.mcs.modify m (fun c => { c with repair := none, pending := [], queue := [] }) } :
      State).placementChanged := ⟨rfl, rfl, fun _ => rfl⟩
  exact ((((h1.trans h2).trans h3).trans h4).trans h5).trans (unspoiled_degrade _ _ _ _)

theorem unspoiled_candidate (s : State) (m : Nat) (br : Nat × Nat) : Unspoiled s (s.candidate m br) := by
  have hup (f : Mc → Mc) : Unspoiled s (s.upMc m f) := ⟨rfl, rfl, fun _ => rfl⟩
  have hrep : Unspoiled s (s.report 21 (13 + m) 0 4) := ⟨rfl, rfl, fun _ => rfl⟩
  exact .ite (.refl s) (.ite (hup _) (.ite ((hup _).trans (unspoiled_log _ _ _)) (hrep.trans (unspoiled_retireChannel _ _))))

theorem unspoiled_countRow (s : State) (m : Nat) (br : Nat × Nat) : Unspoiled s (s.countRow m br) := by
  have hup (f : Mc → Mc) : Unspoiled s (s.upMc m f) := ⟨rfl, rfl, fun _ => rfl⟩
  exact .ite ((hup _).trans (unspoiled_candidate _ _ _)) (hup _)

theorem unspoiled_logDetect (s : State) (d : Detect) : Unspoiled s (s.logDetect d) := by
  unfold State.logDetect
  dsimp only
  (repeat' split) <;> exact ⟨rfl, rfl, fun _ => rfl⟩

/-- A memory error that is detected is counted, logged and reported (R543, R544). -/
theorem unspoiled_memError (s : State) (d : Detect) : Unspoiled s (s.memError d) := by
  have hrep (u : State) (r : Report) : Unspoiled u (u.reportAt r) := ⟨rfl, rfl, fun _ => rfl⟩
  have hinc (u : State) (f : RF) (i : List Nat) : Unspoiled u (u.incRf f i) := ⟨rfl, rfl, fun _ => rfl⟩
  have hbad (l : List Nat) : Unspoiled s { s with bad := l } := ⟨rfl, rfl, fun _ => rfl⟩
  refine .ite ?_ ?_
  · have hkeep : Unspoiled s (if d.inj || s.bad.contains (d.addr / 64 * 64) then s else { s with bad := d.addr / 64 * 64 :: s.bad }) :=
      .ite (.refl s) (hbad _)
    exact (((hkeep.trans (unspoiled_logDetect _ _)).trans (hinc _ _ _)).trans (unspoiled_candidate _ _ _)).trans (hrep _ _)
  · have hlog (u : State) (c : Bool) : Unspoiled u (if c then u.logDetect d else u) := .ite (unspoiled_logDetect _ _) (.refl u)
    exact (((hinc s _ _).trans (hlog _ _)).trans (unspoiled_countRow _ _ _)).trans (hrep _ _)

theorem unspoiled_detected (s : State) (d : Detect) : Unspoiled s (s.detected d) :=
  Unspoiled.trans (b := s.draw.draw) ⟨rfl, rfl, fun _ => rfl⟩ (unspoiled_memError _ _)

theorem unspoiled_useInjection {s t : State} {a : Nat} {c : Bool} (h : s.useInjection a = some (c, t)) : Unspoiled s t := by
  unfold State.useInjection at h
  split at h
  · split at h
    · cases h
      exact ⟨rfl, rfl, fun _ => rfl⟩
    · cases h
  · cases h

theorem unspoiled_mergeRead (s : State) (addr req access : Nat) (ue : Bool) : Unspoiled s (s.mergeRead addr req access ue) := by
  refine .ite (unspoiled_detected _ _) ?_
  split
  next h => exact (unspoiled_useInjection h).trans (unspoiled_detected _ _)
  · exact .refl s

/-! ### A granule without an error -/

section
variable {s : State} {a : Nat} (h : Safety.clean s a)
include h

theorem mergeFails_clean : s.mergeFails a false = false := by
  obtain ⟨hbad, harm⟩ := h
  unfold State.mergeFails
  rw [hbad]
  cases hc : s.collector.armed with
  | none => rfl
  | some x => simp [harm x hc]

theorem useInjection_clean : s.useInjection a = none := by
  unfold State.useInjection
  cases hc : s.collector.armed with
  | none => rfl
  | some x => exact if_neg (h.2 x hc)

/-- A merge whose read meets no error is told to nobody. -/
theorem mergeRead_clean (req access : Nat) : s.mergeRead a req access false = s := by
  unfold State.mergeRead
  rw [h.1, useInjection_clean h]
  rfl
end

/-- Where no granule keeps an error and no injection is armed, a read meets none. -/
theorem readErrors_none {s : State} (hb : s.bad = []) (ha : s.collector.armed = none) (a n req : Nat) : s.readErrors a n req = (s, []) := by
  simp [State.readErrors, hb, ha]

/-- A granule keeps no error that it did not keep before a write. -/
theorem not_mem_badAfter {l : List Nat} {g : Nat} (h : l.contains g = false) (a n : Nat) : (badAfter l a n).contains g = false := by
  simp only [badAfter, List.contains_eq_mem, decide_eq_false_iff_not] at h ⊢
  exact fun hm => h (List.mem_of_mem_filter hm)

theorem clean_memWrite {s : State} {a : Nat} (h : Safety.clean s a) (ch off : Nat) (bs : List Byte) :
    Safety.clean (s.memWrite ch off bs) a := ⟨not_mem_badAfter h.1 _ _, h.2⟩

theorem Sends.clean {s t : State} (h : Sends s t) {a : Nat} (hc : Safety.clean s a) : Safety.clean t a := by
  obtain ⟨_, _, _, rfl⟩ := h
  exact hc

/-- A granule written whole is clean, where no injection is armed. -/
theorem clean_setGranule {s : State} (h : s.collector.armed = none) (a : Nat) : Safety.clean (s.setGranule a) a := by
  refine ⟨?_, fun x hx => absurd (h.symm.trans hx) nofun⟩
  simp [State.setGranule]

end Sys2Proof.Machine
end

