-- ==== Sys2Proof/Proofs/Regions.lean ====
section
namespace Sys2Proof.Machine

/-! SUPPORT. How capture regions are placed, written, freed, cleared and read (R201, R273-R275, R277, R282), and the statement about
them. -/

/-! ### Bytes of device memory (R198) -/

/-- Bytes written one after the other are written at once. -/
theorem Memory.write_append (m : List Host.Cell) (a : Nat) (bs cs : List Byte) :
    Memory.write m a (bs ++ cs) = Memory.write (Memory.write m a bs) (a + bs.length) cs := by
  induction bs generalizing m a with
  | nil => rfl
  | cons b r ih =>
    rw [List.length_cons, Nat.add_comm r.length, ← Nat.add_assoc]
    exact ih (Memory.set m a b) (a + 1)

theorem Memory.read_write_of_length {bs : List Byte} {n : Nat} (h : bs.length = n) (m : List Host.Cell) (a : Nat) :
    Memory.read (Memory.write m a bs) a n = bs := h ▸ Memory.read_write m a bs

/-- What a region, cleared and headed, reads back: its header, then zeros, and beside it what was there. -/
theorem Memory.get_write_clear (m : List Host.Cell) {a n x : Nat} {bs : List Byte} (hx : a + bs.length ≤ x) (hn : x < a + n) :
    Memory.get (Memory.write (Memory.clear m a n) a bs) x = 0 := by
  rw [Memory.get_write_outside _ _ _ (.inr hx), Memory.get_clear, if_pos ⟨by omega, hn⟩]

theorem Memory.get_write_clear_outside (m : List Host.Cell) {a n x : Nat} {bs : List Byte} (hb : bs.length ≤ n)
    (hx : x < a ∨ a + n ≤ x) : Memory.get (Memory.write (Memory.clear m a n) a bs) x = Memory.get m x := by
  rw [Memory.get_write_outside _ _ _ (by omega), Memory.get_clear, if_neg (by omega)]

/-! ### Mirrored bytes (R610) -/

/-- Mirroring the bytes of a region touches the register file, the links, what went out and the pair alone. -/
theorem mirrorCap_eq (s : State) (r : Region) (i : CapItem) (off : Nat) (bs : List Byte) :
    ∃ g l o p, s.mirrorCap r i off bs = { s with regs := g, links := l, out := o, pair := p } := by
  unfold State.mirrorCap
  split
  · exact ⟨_, _, _, _, rfl⟩
  · dsimp only
    split
    · obtain ⟨l, o, p, h, -⟩ := tether_eq _ _
      exact ⟨_, _, _, _, h⟩
    · unfold State.unprotect
      obtain ⟨l, o, p, h⟩ := mirror_eq _ _
      exact ⟨_, _, _, _, h⟩

@[simp] theorem mirrorCap_mem (s : State) (r : Region) (i : CapItem) (off : Nat) (bs : List Byte) : (s.mirrorCap r i off bs).mem = s.mem := by
  obtain ⟨_, _, _, _, h⟩ := mirrorCap_eq s r i off bs
  rw [h]

@[simp] theorem mirrorCap_regions (s : State) (r : Region) (i : CapItem) (off : Nat) (bs : List Byte) :
    (s.mirrorCap r i off bs).regions = s.regions := by
  obtain ⟨_, _, _, _, h⟩ := mirrorCap_eq s r i off bs
  rw [h]

theorem mirrorCap_off {s : State} (h : s.mirroring = false) (r : Region) (i : CapItem) (off : Nat) (bs : List Byte) :
    s.mirrorCap r i off bs = s := by
  unfold State.mirrorCap
  rw [h]
  rfl

/-! ### A region that is changed -/

theorem upRegion_region_same {s : State} {id : Nat} {r : Region} (h : s.region id = some r) (f : Region → Region) :
    (s.upRegion id f).region id = some (f r) := by
  rw [State.region, upRegion_regions, kGet_kUpd, show kGet s.regions id = some r from h, Option.map_some, if_pos rfl]

theorem upRegion_region_ne (s : State) {id i : Nat} (h : i ≠ id) (f : Region → Region) : (s.upRegion id f).region i = s.region i := by
  rw [State.region, upRegion_regions, kGet_kUpd]
  simp [h, State.region]

/-! ### Headers (R277, R282, R334) -/

@[simp] theorem header_length (r : Region) : r.header.length = 64 := by
  unfold Region.header
  split <;> simp [padTo, zeros]

section
variable {s : State} {id : Nat} {r : Region} (hr : s.region id = some r) (hl : r.lost = false)
include hr hl

/-- The header of a region whose first granule reads without error is written, and mirrored. -/
theorem writeHeader_mirrors (h : Safety.clean s (devAddr r.chan r.base)) :
    s.writeHeader id = (s.memWrite r.chan r.base r.header).mirrorCap r .other 0 r.header := by
  unfold State.writeHeader
  rw [hr]
  simp only [hl, mergeFails_clean h, mergeRead_clean h, Bool.false_eq_true, if_false]

/-- A header write touches, beside device memory, what mirroring touches. -/
theorem writeHeader_eq (h : Safety.clean s (devAddr r.chan r.base)) : ∃ g l o p,
    s.writeHeader id = { s.memWrite r.chan r.base r.header with regs := g, links := l, out := o, pair := p } := by
  rw [writeHeader_mirrors hr hl h]
  exact mirrorCap_eq _ _ _ _ _

/-- A header write that meets an uncorrectable error marks the region LOST (R297, R544). -/
theorem writeHeader_ue : s.writeHeader id true = (((s.mergeError (devAddr r.chan r.base) (s.headerReq r)).upRegion id
    (fun r => { r with lost := true })).mirror { kind := 6, key := [2, id] }).placementChanged := by
  unfold State.writeHeader
  rw [hr]
  simp [hl, State.mergeFails, State.mergeRead, State.mergeError]
end

/-! ### DEFINE_REGION (R201, R274) -/

/-- The state with a region placed, before its header is written: known under its ID, a BITMAP region zeroed. -/
def State.layRegion (s : State) (r : Region) : State :=
  (if r.kind = 2 then ({ s with regions := kSet s.regions r.id r } : State).memClear r.chan r.base r.size
    else { s with regions := kSet s.regions r.id r }).setGranule (devAddr r.chan r.base)

/-- The state with a region placed and its header written. -/
def State.placeRegion (s : State) (r : Region) : State := ((s.layRegion r).writeHeader r.id).placementChanged

section
variable (s : State) (r : Region)

theorem layRegion_regions : (s.layRegion r).regions = kSet s.regions r.id r := by
  unfold State.layRegion
  split <;> rfl

theorem layRegion_mem : (s.layRegion r).mem =
    if r.kind = 2 then Memory.clear s.mem (devAddr r.chan r.base) r.size else s.mem := by
  unfold State.layRegion
  split <;> rfl

theorem layRegion_gen : (s.layRegion r).gen = s.gen := by
  unfold State.layRegion
  split <;> rfl

variable {s r} (hl : r.lost = false) (ha : s.collector.armed = none)
include ha

theorem layRegion_clean : Safety.clean (s.layRegion r) (devAddr r.chan r.base) := by
  refine clean_setGranule ?_ _
  split <;> exact ha

include hl

theorem placeRegion_eq : ∃ g l o p, s.placeRegion r =
    { (s.layRegion r).memWrite r.chan r.base r.header with regs := g, links := l, out := o, pair := p, gen := s.gen + 1 } := by
  have hr : (s.layRegion r).region r.id = some r := by
    rw [State.region, layRegion_regions, kGet_kSet_same]
  obtain ⟨g, l, o, p, h⟩ := writeHeader_eq hr hl (layRegion_clean ha)
  refine ⟨g, l, o, p, ?_⟩
  rw [State.placeRegion, h, ← layRegion_gen s r]
  rfl

theorem placeRegion_regions : (s.placeRegion r).regions = kSet s.regions r.id r := by
  obtain ⟨_, _, _, _, h⟩ := placeRegion_eq hl ha
  rw [h]
  exact layRegion_regions s r

theorem placeRegion_gen : (s.placeRegion r).gen = s.gen + 1 := by
  obtain ⟨_, _, _, _, h⟩ := placeRegion_eq hl ha
  rw [h]

theorem placeRegion_clean : Safety.clean (s.placeRegion r) (devAddr r.chan r.base) := by
  obtain ⟨_, _, _, _, h⟩ := placeRegion_eq hl ha
  rw [h]
  exact clean_memWrite (layRegion_clean ha) _ _ _

theorem placeRegion_mem : (s.placeRegion r).mem = Memory.write (if r.kind = 2 then Memory.clear s.mem (devAddr r.chan r.base) r.size
    else s.mem) (devAddr r.chan r.base) r.header := by
  obtain ⟨_, _, _, _, h⟩ := placeRegion_eq hl ha
  rw [h, ← layRegion_mem]
  rfl

theorem placeRegion_get_outside (hs : 64 ≤ r.size) {a : Nat} (h : a < devAddr r.chan r.base ∨ devAddr r.chan r.base + r.size ≤ a) :
    Memory.get (s.placeRegion r).mem a = Memory.get s.mem a := by
  rw [placeRegion_mem hl ha]
  split
  · exact Memory.get_write_clear_outside _ (by simpa using hs) h
  · exact Memory.get_write_outside _ _ _ (by rw [header_length]; omega)
end

/-- A region that passes its checks is of 4,096 bytes or more (R274). -/
theorem regionRefusal_size {s : State} {b : List Byte} (h : s.regionRefusal b = 0) : 4096 ≤ (regionBody b).size := by
  by_contra hs
  have hbad : s.regionRefusal b = St.bad := if_pos (by simp [Nat.lt_of_not_le hs])
  exact absurd (hbad.symm.trans h) (by decide)

section
variable {s : State} {sq idx : Nat} {d : Desc}

theorem doDefineRegion_eq (hd : Safety.ready s sq idx 0x20 d) : doDefineRegion sq idx s =
    if s.regionRefusal d.bytes ≠ 0 then s.finish sq idx (s.regionRefusal d.bytes)
    else if s.siteRuns (regionBody d.bytes).site then
      s.wait { sq := sq, idx := idx, kind := .regionDefine, ent := some (s.entOf (regionBody d.bytes).site) }
    else s.defineRegion d := withDesc_of_ready hd

theorem defineRegion_full (h : s.regionRefusal d.bytes = 0) (hp : s.placeWhole (regionBody d.bytes).size = none) :
    s.defineRegion d = s.complete d.sq d.idx { status := St.denied, reason := 0x0A, rreason := 0x0A } := by
  simp [State.defineRegion, h, hp]

theorem defineRegion_placed {m base : Nat} {r : Region} (h : s.regionRefusal d.bytes = 0)
    (hp : s.placeWhole (regionBody d.bytes).size = some (m, base)) (hr : r = { regionBody d.bytes with chan := m, base := base }) :
    s.defineRegion d = (s.placeRegion r).complete d.sq d.idx { status := 0, val0 := if r.kind = 2 then 0 else r.cap } := by
  subst hr
  simp only [State.defineRegion, h, hp, ne_eq, not_true_eq_false, if_false]
  rfl
end

/-! ### FREE_REGION and CLEAR_REGION (R275) -/

section
variable {s : State} {id : Nat} {r : Region} (hr : s.region id = some r)
include hr

theorem regionNamed_known (hl : r.lost = false) {form : Bool} (hf : form = true) : s.regionNamed id form = 0 := by
  simp [State.regionNamed, hr, hl, hf]

/-- FREE_REGION and CLEAR_REGION of a region that is not LOST wait for a burst of its site, or act. -/
theorem regionDesc_known {sq idx op : Nat} {d : Desc} {kind : Nat → WaitKind} {act : State → Nat → State} (hd : Safety.ready s sq idx op d)
    (hid : fld d.bytes 16 4 = id) (hz : zeroes d.bytes 20 44 = true) (hl : r.lost = false) : regionDesc op kind act sq idx s =
      if s.siteRuns r.site then s.wait { sq := sq, idx := idx, kind := kind id, ent := some (s.entOf r.site) }
      else (act s id).finish sq idx St.ok := by
  subst hid
  rw [regionDesc, withDesc_of_ready hd]
  simp only [regionNamed_known hr hl hz, hr, ne_eq, not_true_eq_false, if_false]

/-- A region that is cleared is blank, and its bytes are zeros but for its header. -/
theorem clearRegion_eq (hl : r.lost = false) (h : Safety.clean (s.memClear r.chan r.base r.size) (devAddr r.chan r.base)) :
    ∃ g l o p, s.clearRegion id =
      { ((s.memClear r.chan r.base r.size).upRegion id Region.blank).memWrite r.blank.chan r.blank.base r.blank.header with
        regs := g, links := l, out := o, pair := p } := by
  have hrun : s.clearRegion id = ((s.memClear r.chan r.base r.size).upRegion id Region.blank).writeHeader id := by
    rw [State.clearRegion, hr]
  rw [hrun]
  exact writeHeader_eq (upRegion_region_same (s := s.memClear r.chan r.base r.size) hr Region.blank) hl h

section
variable (hl : r.lost = false) (h : Safety.clean (s.memClear r.chan r.base r.size) (devAddr r.chan r.base))
include hl h

theorem clearRegion_same : (s.clearRegion id).region id = some r.blank := by
  obtain ⟨_, _, _, _, he⟩ := clearRegion_eq hr hl h
  rw [he]
  exact upRegion_region_same (s := s.memClear r.chan r.base r.size) hr Region.blank

theorem clearRegion_ne {i : Nat} (hi : i ≠ id) : (s.clearRegion id).region i = s.region i := by
  obtain ⟨_, _, _, _, he⟩ := clearRegion_eq hr hl h
  rw [he]
  exact upRegion_region_ne (s.memClear r.chan r.base r.size) hi Region.blank

theorem clearRegion_mem : (s.clearRegion id).mem =
    Memory.write (Memory.clear s.mem (devAddr r.chan r.base) r.size) (devAddr r.chan r.base) r.blank.header := by
  obtain ⟨_, _, _, _, he⟩ := clearRegion_eq hr hl h
  rw [he]
  rfl
end
end

/-! ### What has waited for a burst (R274, R275) -/

section
variable {s : State} {sq idx : Nat} {d : Desc} {w : Waiting} (hd : s.desc sq idx = some d) (hw : s.waitOf sq idx = some w)
  (hb : ∀ e b, w.ent = some e → s.burst e = some b → b.running = false)
include hd hw hb

/-- A descriptor that waits for no burst any more takes effect. -/
theorem waited_over {p : WaitKind → Bool} {f : State → Desc → State} (hp : p w.kind = true) :
    s.waited sq idx p f = f (s.unwait sq idx) d := by
  have hrun : (w.ent.bind s.burst).any (fun b => b.running) = false := by
    cases he : w.ent with
    | none => rfl
    | some e =>
      cases hs : s.burst e with
      | none => simp [hs]
      | some b => simp [hs, hb e b he hs]
  simp [State.waited, hw, hd, hp, hrun]

theorem regionWaited_over {op id : Nat} {r : Region} {act : State → Nat → State} (hid : fld d.bytes 16 4 = id) (hr : s.region id = some r)
    (hl : r.lost = false) (hk : op = 0x21 ∧ w.kind = .regionFree id ∨ op = 0x22 ∧ w.kind = .regionClear id) :
    regionWaited op act sq idx s = (act (s.unwait sq idx) id).finish sq idx St.ok := by
  subst hid
  have hn : (s.unwait sq idx).regionNamed (fld d.bytes 16 4) true = 0 := regionNamed_known hr hl rfl
  rw [regionWaited, waited_over hd hw hb (by rcases hk with ⟨rfl, hk⟩ | ⟨rfl, hk⟩ <;> rw [hk] <;> rfl)]
  simp only [hn, ne_eq, not_true_eq_false, if_false]
end

/-! ### READ_REGION (R275, R282) -/

/-- The body of a READ_REGION has its form, and what it asks for lies in the region. -/
def readFits (b : List Byte) (r : Region) : Bool :=
  fld b 24 8 % 64 = 0 && fld b 32 4 % 64 = 0 && fld b 40 8 % 64 = 0 && fld b 24 8 + fld b 32 4 ≤ r.size && zeroes b 20 4 && zeroes b 36 4 &&
    zeroes b 48 16

section
variable {s : State} {sq idx : Nat} {d : Desc} {r : Region} (hd : Safety.ready s sq idx 0x23 d)
  (hr : s.region (fld d.bytes 16 4) = some r) (hl : r.lost = false) (hf : readFits d.bytes r = true)
include hd hr hl hf

theorem doReadRegion_waits (hw : (s.mc r.chan).repair ≠ none) : doReadRegion sq idx s = s := by
  have hn := regionNamed_known hr hl hf
  unfold readFits at hn
  have hwait : s.waits r.chan = true := Option.isSome_iff_ne_none.mpr hw
  rw [doReadRegion, withDesc_of_ready hd]
  simp only [hr, hn, hwait, ne_eq, not_true_eq_false, if_false, if_true]

theorem doReadRegion_reads (hbm : s.host.pci.busMaster = true) (hb : s.bad = []) (ha : s.collector.armed = none)
    (hw : (s.mc r.chan).repair = none) : doReadRegion sq idx s =
      (s.emit (.hostWrite (fld d.bytes 40 8) (s.memRead r.chan (r.base + fld d.bytes 24 8) (fld d.bytes 32 4)))).finish sq idx St.ok := by
  have hn := regionNamed_known hr hl hf
  unfold readFits at hn
  have hwait : s.waits r.chan = false := by rw [State.waits, hw]; rfl
  rw [doReadRegion, withDesc_of_ready hd]
  simp [hr, hn, hwait, readErrors_none hb ha, State.hostWrite, hbm]
end

/-- Settles O36: a definition by its checks and its place, a free and a clear by the burst of their site, a read by its bytes. -/
theorem captureRegions : Obligations.CaptureRegions := by
  refine ⟨fun s sq idx d hd => ?_, fun s sq idx d w hdesc hw hk hb => ?_, fun s sq idx id d r free hd hid hz hr hl => ?_,
    fun s sq idx id d r w hdesc hid hr hl hw hb => ⟨fun hk => ?_, fun hk => ?_⟩,
    fun s sq idx id off len dst d r hd hid hoff hlen hdst hr hl ho64 hl64 hd64 hfit hz20 hz36 hz48 => ?_⟩
  · obtain ⟨hsq, hidx⟩ := ready_place hd
    refine ⟨doDefineRegion sq idx s, regionBody d.bytes, rfl, rfl, fun h => ?_, fun h hrun => ?_, fun h hrun =>
      ⟨fun hp => ?_, fun m base hp ha => ?_⟩⟩
    · rw [doDefineRegion_eq hd, if_pos h]
      exact ⟨rfl, (sends_finish _ _ _ _).regions⟩
    · rw [doDefineRegion_eq hd, if_neg (not_not.mpr h), if_pos hrun]
      exact ⟨rfl, rfl, rfl⟩
    · rw [doDefineRegion_eq hd, if_neg (not_not.mpr h), if_neg (Bool.eq_false_iff.mp hrun), defineRegion_full h hp, hsq, hidx]
      exact ⟨rfl, (sends_complete _ _ _ _).regions⟩
    · rw [doDefineRegion_eq hd, if_neg (not_not.mpr h), if_neg (Bool.eq_false_iff.mp hrun), defineRegion_placed h hp rfl, hsq, hidx]
      generalize hreg : ({ regionBody d.bytes with chan := m, base := base } : Region) = r
      obtain ⟨hid, hsize, hkind, hlost, hchan, hbase⟩ : (regionBody d.bytes).id = r.id ∧ (regionBody d.bytes).size = r.size ∧
          (regionBody d.bytes).kind = r.kind ∧ r.lost = false ∧ m = r.chan ∧ base = r.base := by
        subst hreg
        exact ⟨rfl, rfl, rfl, rfl, rfl, rfl⟩
      have hs : 4096 ≤ r.size := hsize ▸ regionRefusal_size h
      have hsend := sends_complete (s.placeRegion r) sq idx { status := 0, val0 := if r.kind = 2 then 0 else r.cap }
      have hmem := hsend.mem.trans (placeRegion_mem hlost ha)
      rw [hid, hsize, hkind, hchan, hbase, hsend.regions, placeRegion_regions hlost ha]
      refine ⟨kGet_kSet_same _ _ _, fun i hi => kGet_kSet_ne _ _ hi, complete_desc _ _ _ _, hsend.gen.trans (placeRegion_gen hlost ha),
        hsend.clean (placeRegion_clean hlost ha), ?_, fun a hout => ?_, fun hk a hin => ?_, fun hk a hin hin' => ?_⟩
      · rw [hmem, Memory.read_write_of_length (header_length r)]
      · rw [hsend.mem, placeRegion_get_outside hlost ha (by omega) hout]
      · rw [hmem, if_neg hk, Memory.get_write_outside _ _ _ (.inr (by simpa using hin))]
      · rw [hmem, if_pos hk, Memory.get_write_clear _ (by simpa using hin) hin']
  · exact congrArg Host.Outcome.next (waited_over hdesc hw hb (by rw [hk]; rfl))
  · have hrun (op : Nat) (kind : Nat → WaitKind) (act : State → Nat → State) (hop : op = if free then 0x21 else 0x22) :=
      regionDesc_known (kind := kind) (act := act) hr (hop ▸ hd) hid hz hl
    cases free
    · refine ⟨_, congrArg Host.Outcome.next (hrun 0x22 .regionClear State.clearRegion rfl), fun h => ?_, nofun, fun h _ => ?_, fun h _ hc => ?_⟩
      · rw [if_pos h]
        exact ⟨rfl, rfl, rfl⟩
      · rw [if_neg (Bool.eq_false_iff.mp h)]
      · rw [if_neg (Bool.eq_false_iff.mp h), (sends_finish _ _ _ _).regions, (sends_finish _ _ _ _).mem, clearRegion_mem hr hl hc]
        refine ⟨clearRegion_same hr hl hc, fun i hi => clearRegion_ne hr hl hc hi, fun a hin hin' => ?_, fun hs a hout => ?_⟩
        · exact Memory.get_write_clear _ (by simpa using hin) hin'
        · exact Memory.get_write_clear_outside _ (by simpa using hs) hout
    · refine ⟨_, congrArg Host.Outcome.next (hrun 0x21 .regionFree State.freeRegion rfl), fun h => ?_, fun h _ => ?_, nofun, nofun⟩
      · rw [if_pos h]
        exact ⟨rfl, rfl, rfl⟩
      · rw [if_neg (Bool.eq_false_iff.mp h), (sends_finish _ _ _ _).regions, (sends_finish _ _ _ _).mem]
        exact ⟨rfl, kGet_kDel_same _ _, fun i hi => kGet_kDel_ne _ hi, rfl⟩
  · exact congrArg Host.Outcome.next (regionWaited_over hdesc hw hb hid hr hl (.inl ⟨rfl, hk⟩))
  · exact congrArg Host.Outcome.next (regionWaited_over hdesc hw hb hid hr hl (.inr ⟨rfl, hk⟩))
  · subst hid hoff hlen hdst
    have hf : readFits d.bytes r = true := by simp [readFits, ho64, hl64, hd64, hfit, hz20, hz36, hz48]
    refine ⟨fun hw => congrArg Host.Outcome.next (doReadRegion_waits hd hr hl hf hw), fun hbm hbad ha hw =>
      ⟨_, congrArg Host.Outcome.next (doReadRegion_reads hd hr hl hf hbm hbad ha hw), ?_, ?_, ?_, finish_desc _ _ _ _⟩⟩
    · exact (grows_complete _ _ _ _).mem (by simp)
    · exact (sends_finish _ _ _ _).mem
    · exact (sends_finish _ _ _ _).regions

end Sys2Proof.Machine
end

