-- ==== Sys2Proof/Proofs/CaptureWrites.lean ====
section
namespace Sys2Proof.Machine

/-! SUPPORT. How results are read, and how headers, records and bitmap lines reach their regions (R271, R272, R282, R295, R297, R299, R301,
R530, R548), and the statement about them. -/

/-! ### READ_SITE_RESULT (R271, R272) -/

/-- The body of a READ_SITE_RESULT has its form. -/
def resultFits (b : List Byte) : Bool :=
  fld b 24 8 % 64 = 0 && fld b 32 4 % 64 = 0 && 128 ≤ fld b 32 4 && zeroes b 18 6 && zeroes b 36 28

section
variable {s : State} {sq idx : Nat} {d : Desc} (hd : Safety.ready s sq idx 0x24 d)
include hd

theorem doReadSiteResult_undeclared (hx : s.site (fld d.bytes 16 2) = none) : doReadSiteResult sq idx s = s.finish sq idx St.bad := by
  rw [doReadSiteResult, withDesc_of_ready hd]
  simp only [hx]

theorem doReadSiteResult_writes {x : Site} {n : Nat} (hx : s.site (fld d.bytes 16 2) = some x) (hf : resultFits d.bytes = true)
    (hbm : s.host.pci.busMaster = true) (hrole : s.pair.role ≠ 2) (hn : n = min x.chans.length ((fld d.bytes 32 4 - 128) / 4)) :
    doReadSiteResult sq idx s = (s.emit (.hostWrite (fld d.bytes 24 8) ((s.siteResult x).take (128 + 4 * n)))).complete sq idx
      { status := if s.blocked (.site x.id) then St.blocked else St.ok, val0 := fld (s.siteResult x) 16 8, val1 := n } := by
  subst hn
  simp only [resultFits, Bool.and_eq_true, decide_eq_true_eq] at hf
  obtain ⟨⟨⟨⟨ha, hl⟩, hmin⟩, hz⟩, hz'⟩ := hf
  rw [doReadSiteResult, withDesc_of_ready hd]
  simp [hx, ha, hl, hz, hz', Nat.not_lt.mpr hmin, hrole, State.hostWrite, hbm]
end

/-! ### REGION_HEADER_WRITE (R282, R297) -/

section
variable {s : State} {id : Nat} {r : Region} (hr : s.region id = some r)
include hr

theorem doRegionHeaderWrite_waits (ue : Bool) (t : Nat) (hw : (s.mc r.chan).repair ≠ none) : doRegionHeaderWrite id ue t s = s := by
  have hwait : s.waits r.chan = true := Option.isSome_iff_ne_none.mpr hw
  simp [doRegionHeaderWrite, hr, hwait]

/-- A header is written while the region is written to, and where its write is to fail. -/
theorem doRegionHeaderWrite_writes (hl : r.lost = false) {ue : Bool} (t : Nat) (hw : (s.mc r.chan).repair = none)
    (ha : (if r.kind = 3 then s.acqs.any (fun a => a.region = id && a.running) else s.siteRuns r.site) = true ∨ ue = true) :
    doRegionHeaderWrite id ue t s = (s.at t).writeHeader id ue := by
  have hwait : s.waits r.chan = false := by rw [State.waits, hw]; rfl
  unfold doRegionHeaderWrite
  rw [hr]
  simp only [hl, hwait, Bool.or_self, Bool.false_eq_true, if_false]
  exact if_pos (Bool.or_eq_true_iff.mpr ha)
end

/-! ### A record takes its slot (R279-R281, R295) -/

/-- Taking a slot moves no region, and loses none. -/
theorem place_keeps {r r1 : Region} {linear ok full : Bool} {slot : Option Nat} (h : r.place linear ok = (slot, r1, full)) :
    r1.lost = r.lost ∧ r1.chan = r.chan ∧ r1.base = r.base := by
  have hk : (r.place linear ok).2.1.lost = r.lost ∧ (r.place linear ok).2.1.chan = r.chan ∧ (r.place linear ok).2.1.base = r.base := by
    unfold Region.place
    (repeat' split) <;> exact ⟨rfl, rfl, rfl⟩
  rw [h] at hk
  exact hk

/-- A record in slot k of its region r, which is r1 after it: its bytes are written, and its site's result and burst count it. -/
def State.storeRecord (s : State) (rc : CapRec) (r r1 : Region) (k : Nat) : State :=
  (((s.upRegion rc.region (fun _ => r1)).memWrite r.chan (r.base + (64 + 32 * k)) rc.bytes).upRes rc.site (fun x =>
    { x with records := satAdd 32 x.records 1, postCount := r1.postCount })).upBurst (s.entOf rc.site) (fun b =>
    { b with records := satAdd 32 b.records 1 })

theorem storeRecord_region {s : State} {rc : CapRec} {r : Region} (hr : s.region rc.region = some r) (r1 : Region) (k : Nat) :
    (s.storeRecord rc r r1 k).region rc.region = some r1 :=
  upRegion_region_same hr (fun _ => r1)

theorem storeRecord_mem (s : State) (rc : CapRec) (r r1 : Region) (k : Nat) :
    (s.storeRecord rc r r1 k).mem = Memory.write s.mem (devAddr r.chan (r.base + (64 + 32 * k))) rc.bytes := rfl

theorem storeRecord_clusters (s : State) (rc : CapRec) (r r1 : Region) (k : Nat) : (s.storeRecord rc r r1 k).clusters = s.clusters := rfl
theorem storeRecord_sites (s : State) (rc : CapRec) (r r1 : Region) (k : Nat) : (s.storeRecord rc r r1 k).sites = s.sites := rfl

/-- A record that finds a slot is stored there, where it is written with its neighbour or merged without an error. -/
theorem writeRecord_stores {s : State} {n k : Nat} {rc : CapRec} {joined ue full : Bool} {r r1 : Region}
    (hr : s.region rc.region = some r) (hl : r.lost = false) (hp : r.place rc.linear true = (some k, r1, full)) (hst : r1.state = r.state)
    (hm : s.mirroring = false) (hok : joined = true ∨ ue = false ∧ Safety.clean s (devAddr r.chan (r.base + (64 + 32 * k)))) :
    s.writeRecord n rc joined ue = s.storeRecord rc r r1 k := by
  have hoff : devAddr r.chan (r.base + 64 + 32 * k) = devAddr r.chan (r.base + (64 + 32 * k)) := by rw [Nat.add_assoc]
  have hfails : (!joined && s.mergeFails (devAddr r.chan (r.base + (64 + 32 * k))) ue) = false := by
    rcases hok with rfl | ⟨rfl, hc⟩
    · rfl
    · rw [mergeFails_clean hc, Bool.and_false]
  have hread : (if joined = true then s.upRegion rc.region (fun _ => r1) else (s.upRegion rc.region (fun _ => r1)).mergeRead
      (devAddr r.chan (r.base + (64 + 32 * k))) (0x10 + n) 1 ue) = s.upRegion rc.region (fun _ => r1) := by
    rcases hok with rfl | ⟨rfl, hc⟩
    · rfl
    · rw [mergeRead_clean (s := s.upRegion rc.region (fun _ => r1)) hc, ite_self]
  have hmir : ((s.upRegion rc.region (fun _ => r1)).memWrite r.chan (r.base + (64 + 32 * k)) rc.bytes).mirroring = false := hm
  unfold State.writeRecord
  rw [hr]
  simp only [hl, hp, hoff, hfails, hread, hst, mirrorCap_off hmir, Option.getD_some, Bool.not_false, Bool.false_eq_true, if_false,
    ne_eq, not_true_eq_false]
  rfl

/-! ### The capture writer (R295, R363, R530) -/

/-- An event for a trigger unit of cluster n is on its way there, or a firing is open that local events may join (R363). -/
def State.eventsDue (s : State) (n : Nat) : Bool :=
  s.trigEv.any (fun e => e.1 / 8 = n && e.2.1 < 40) ||
    ((List.range 8).map (8 * n + ·)).any (fun k => (s.trigs.getD k {}).openAt.isSome && s.rf F.CL_TRG_SRC_SRC [k / 8, k % 8] < 2 ^ 40)

theorem eventsDue_none {s : State} {n : Nat} (he : ∀ e ∈ s.trigEv, ¬ (e.1 / 8 = n ∧ e.2.1 < 40))
    (hu : ∀ i < 8, (s.trigs.getD (8 * n + i) {}).openAt = none ∨ 2 ^ 40 ≤ s.rf F.CL_TRG_SRC_SRC [(8 * n + i) / 8, (8 * n + i) % 8]) :
    s.eventsDue n = false := by
  refine Bool.or_eq_false_iff.mpr ⟨List.any_eq_false.mpr fun e hm => ?_, List.any_eq_false.mpr fun k hk => ?_⟩
  · simpa using he e hm
  · obtain ⟨i, hi, rfl⟩ := List.mem_map.mp hk
    rw [Bool.and_eq_true, decide_eq_true_eq]
    rcases hu i (List.mem_range.mp hi) with ho | hs
    · rw [ho]
      simp
    · exact fun h => Nat.not_lt.mpr hs h.2

/-- The state with the records `l` left in the capture buffer of cluster n. -/
def State.leaveRecords (s : State) (n : Nat) (l : List CapRec) : State :=
  s.upCl n (fun k => { k with cap := { k.cap with buf := l, headLen := l.length } })

section
variable {s : State} {n : Nat} {rc x : CapRec} {rest : List CapRec} (ue : Bool) (hb : (s.cl n).cap.buf = rc :: rest)
  (he : s.eventsDue n = false)
include hb

theorem doCaptureRecordWrite_waits {r : Region} (hr : s.region rc.region = some r) (hw : (s.mc r.chan).repair ≠ none) :
    doCaptureRecordWrite n ue s = s := by
  have hwait : s.waits r.chan = true := Option.isSome_iff_ne_none.mpr hw
  simp [doCaptureRecordWrite, hb, hr, hwait]

include he

/-- The oldest record is written with the one that it joins, which cover their granule, or alone. -/
theorem doCaptureRecordWrite_joined {r : Region} {j : Nat} (hj : s.joins (s.cl n).cap rc = some x) (hr : s.region rc.region = some r)
    (hw : (s.mc r.chan).repair = none) (hp : (r.place rc.linear true).1 = some j) :
    doCaptureRecordWrite n ue s = (((s.leaveRecords n (rest.erase x)).setGranule (devAddr r.chan (r.base + (64 + 32 * j)))).writeRecord n rc
      true ue).writeRecord n x true ue := by
  have hwait : s.waits r.chan = false := by rw [State.waits, hw]; rfl
  unfold State.eventsDue at he
  simp only [doCaptureRecordWrite, hb, he, hr, hj, hwait, hp, Option.any_some, Bool.or_self, Bool.false_eq_true, if_false, Option.getD_some,
    Nat.add_assoc]
  rfl

theorem doCaptureRecordWrite_alone (hj : s.joins (s.cl n).cap rc = none) (hw : ∀ r, s.region rc.region = some r → (s.mc r.chan).repair = none) :
    doCaptureRecordWrite n ue s = (s.leaveRecords n rest).writeRecord n rc false ue := by
  have hwait : (s.region rc.region).any (fun r => s.waits r.chan) = false := by
    cases hr : s.region rc.region with
    | none => rfl
    | some r => simp [State.waits, hw r hr]
  unfold State.eventsDue at he
  simp only [doCaptureRecordWrite, hb, he, hj, hwait, Bool.or_self, Bool.false_eq_true, if_false]
  rfl
end

/-- A record joins one of its own region, which is not LOST. -/
theorem joins_some {s : State} {c : Capture} {rc x : CapRec} {r : Region} (h : s.joins c rc = some x) (hr : s.region rc.region = some r) :
    x.region = rc.region ∧ r.lost = false := by
  unfold State.joins at h
  rw [hr] at h
  cases hf : ((c.buf.take c.headLen).drop 1).find? (fun x => x.region = rc.region) with
  | none =>
    rw [hf] at h
    cases h
  | some y =>
    have hy : y.region = rc.region := by simpa using List.find?_some hf
    rw [hf] at h
    cases hl : r.lost with
    | true => simp [hl] at h
    | false =>
      refine ⟨?_, rfl⟩
      simp only [hl, Bool.false_eq_true, if_false] at h
      split at h
      · split at h
        · exact Option.some.inj h ▸ hy
        · cases h
      · cases h

/-- Two records that fill a granule are stored one behind the other. -/
theorem writeRecord_pair {v : State} {n j : Nat} {rc x : CapRec} {ue f1 f2 : Bool} {r r1 r2 : Region} (hr : v.region rc.region = some r)
    (hl : r.lost = false) (hx : x.region = rc.region) (hp1 : r.place rc.linear true = (some j, r1, f1))
    (hp2 : r1.place x.linear true = (some (j + 1), r2, f2)) (h1 : r1.state = r.state) (h2 : r2.state = r.state) (hm : v.mirroring = false) :
    (v.writeRecord n rc true ue).writeRecord n x true ue = (v.storeRecord rc r r1 j).storeRecord x r1 r2 (j + 1) := by
  have hl1 : r1.lost = false := (place_keeps hp1).1.trans hl
  have hr1 : (v.storeRecord rc r r1 j).region x.region = some r1 := hx ▸ storeRecord_region hr r1 j
  rw [writeRecord_stores hr hl hp1 h1 hm (.inl rfl), writeRecord_stores hr1 hl1 hp2 (h2.trans h1.symm) hm (.inl rfl)]

theorem storeRecord_pair_region {v : State} {rc x : CapRec} {r : Region} (hr : v.region rc.region = some r) (hx : x.region = rc.region)
    (r1 r2 : Region) (j k : Nat) : ((v.storeRecord rc r r1 j).storeRecord x r1 r2 k).region rc.region = some r2 := by
  have hr1 : (v.storeRecord rc r r1 j).region x.region = some r1 := hx ▸ storeRecord_region hr r1 j
  rw [← hx]
  exact storeRecord_region hr1 r2 k

theorem storeRecord_pair_mem {v : State} {j : Nat} {rc x : CapRec} {f1 : Bool} {r r1 r2 : Region}
    (hp1 : r.place rc.linear true = (some j, r1, f1)) (hlen : rc.bytes.length = 32) :
    ((v.storeRecord rc r r1 j).storeRecord x r1 r2 (j + 1)).mem =
      Memory.write v.mem (devAddr r.chan (r.base + (64 + 32 * j))) (rc.bytes ++ x.bytes) := by
  obtain ⟨-, hch, hba⟩ := place_keeps hp1
  have hnext : devAddr r.chan (r.base + (64 + 32 * (j + 1))) = devAddr r.chan (r.base + (64 + 32 * j)) + 32 := by
    unfold devAddr
    omega
  rw [Memory.write_append, storeRecord_mem, storeRecord_mem, hch, hba, hlen, hnext]

/-! ### The combiner's lines (R299, R301) -/

/-- What a write-back of a combiner line writes: its bits set in the 64 bytes read, or in all of them where the read failed. -/
def State.lineBytes (s : State) (r : Region) (l : BmLine) (ue : Bool) : List Byte :=
  if s.mergeFails (devAddr r.chan (r.base + (64 + 64 * l.line))) ue then List.replicate 64 0xFF
  else leBytes 64 (leNat (s.memRead r.chan (r.base + (64 + 64 * l.line)) 64) ||| l.mask)

theorem lineBytes_length (s : State) (r : Region) (l : BmLine) (ue : Bool) : (s.lineBytes r l ue).length = 64 := by
  unfold State.lineBytes
  split <;> simp

/-- The state with line i taken out of the combiner of cluster n, which takes updates that waited. -/
def State.takeLine (s : State) (n i : Nat) : State :=
  s.upCl n (fun c => { c with cap := drainQueue c.cap.bmQueue { c.cap with combiner := c.cap.combiner.eraseIdx i, bmQueue := [] } })

/-- That state once the line has been read: a failed read is counted as lost, and told. -/
def State.readLine (s : State) (n i : Nat) (r : Region) (l : BmLine) (ue : Bool) : State :=
  (if s.mergeFails (devAddr r.chan (r.base + (64 + 64 * l.line))) ue then
    ((s.takeLine n i).upRegion r.id (fun r => { r with lostCount := satAdd 32 r.lostCount 1 })).upRes r.site (fun x =>
      { x with lost := satAdd 32 x.lost 1 })
  else s.takeLine n i).mergeRead (devAddr r.chan (r.base + (64 + 64 * l.line))) (0x50 + n) 2 ue

section
variable {s : State} {n i : Nat} {l : BmLine} {r : Region} (ue : Bool)

theorem readLine_mem : (s.readLine n i r l ue).mem = s.mem := by
  unfold State.readLine
  rw [(unspoiled_mergeRead _ _ _ _ _).mem]
  split <;> rfl

theorem readLine_clean (h : Safety.clean s (devAddr r.chan (r.base + (64 + 64 * l.line)))) : s.readLine n i r l false = s.takeLine n i := by
  unfold State.readLine
  rw [mergeFails_clean h]
  exact mergeRead_clean (s := s.takeLine n i) h _ _

theorem doBitmapWriteback_writes (hl : (s.cl n).cap.combiner[i]? = some l) (hr : s.region l.region = some r) (hlost : r.lost = false)
    (hw : (s.mc r.chan).repair = none) : doBitmapWriteback n i ue s =
      ((s.readLine n i r l ue).memWrite r.chan (r.base + (64 + 64 * l.line)) (s.lineBytes r l ue)).mirrorCap r .other (64 + 64 * l.line)
        (s.lineBytes r l ue) := by
  have hwait : s.waits r.chan = false := by rw [State.waits, hw]; rfl
  simp only [doBitmapWriteback, hl, hr, hlost, hwait, Bool.false_eq_true, if_false]
  rfl

/-- A write-back writes the line's 64 bytes and no other byte. -/
theorem writeLine_mem : (((s.readLine n i r l ue).memWrite r.chan (r.base + (64 + 64 * l.line)) (s.lineBytes r l ue)).mirrorCap r .other
    (64 + 64 * l.line) (s.lineBytes r l ue)).mem = Memory.write s.mem (devAddr r.chan (r.base + (64 + 64 * l.line))) (s.lineBytes r l ue) := by
  rw [mirrorCap_mem, memWrite_mem, readLine_mem]
end

/-- Settles O37: a result by its site, a header by what writes to its region, a record by what it joins, a line by what its read meets. -/
theorem captureWritten : Obligations.CaptureWritten := by
  refine ⟨fun s sq idx d hd hbm hrole => ⟨doReadSiteResult sq idx s, rfl, doReadSiteResult_undeclared hd, fun x hx ha hl hmin hz hz' => ?_⟩,
    fun s id t0 r hr hl hact hw hc => ?_, fun s id t0 r ue hr hl => ⟨fun hw => ?_, fun hw => ?_⟩,
    fun s n rc rest ue u hb hev hun hu => ⟨fun r hr hw => ?_, fun x r j r1 f1 r2 f2 hj hr hw hp1 hp2 => ?_, fun hj hw => ?_⟩,
    fun s n i ue l r hl hr hlost hm hw => ?_⟩
  · have hf : resultFits d.bytes = true := by simp [resultFits, ha, hl, hmin, hz, hz']
    rw [doReadSiteResult_writes hd hx hf hbm hrole rfl]
    exact ⟨_, _, rfl, rfl, rfl, (sends_complete _ _ _ _).results, (sends_complete _ _ _ _).mem⟩
  · obtain ⟨g, k, o, p, he⟩ := writeHeader_eq (s := s.at t0) hr hl hc
    refine ⟨_, congrArg Host.Outcome.next (doRegionHeaderWrite_writes hr hl t0 hw (.inl hact)), rfl, ?_, ?_, fun a ha => ?_⟩
    · rw [he]
      rfl
    · rw [he]
      exact Memory.read_write _ _ _
    · rw [he]
      exact Memory.get_write_outside _ _ _ ha
  · exact congrArg Host.Outcome.next (doRegionHeaderWrite_waits hr ue t0 hw)
  · exact ⟨_, congrArg Host.Outcome.next (doRegionHeaderWrite_writes hr hl t0 hw (.inr rfl)), writeHeader_ue (s := s.at t0) hr hl⟩
  · exact congrArg Host.Outcome.next (doCaptureRecordWrite_waits ue hb hr hw)
  · subst hu
    obtain ⟨hx, hl⟩ := joins_some hj hr
    refine ⟨_, _, congrArg Host.Outcome.next (doCaptureRecordWrite_joined ue hb (eventsDue_none hev hun) hj hr hw (congrArg Prod.fst hp1)),
      rfl, rfl, fun h1 h2 hm hlen hlen' => ?_⟩
    generalize hv : (s.leaveRecords n (rest.erase x)).setGranule (devAddr r.chan (r.base + (64 + 32 * j))) = v
    have hrv : v.region rc.region = some r := hv ▸ hr
    have hmv : v.mirroring = false := hv ▸ hm
    have hmem : ((v.storeRecord rc r r1 j).storeRecord x r1 r2 (j + 1)).mem =
        Memory.write s.mem (devAddr r.chan (r.base + (64 + 32 * j))) (rc.bytes ++ x.bytes) := by
      rw [storeRecord_pair_mem hp1 hlen, ← hv]
      rfl
    have hlen64 : (rc.bytes ++ x.bytes).length = 64 := by rw [List.length_append, hlen, hlen']
    rw [writeRecord_pair hrv hl hx hp1 hp2 h1 h2 hmv, hmem]
    refine ⟨storeRecord_pair_region hrv hx r1 r2 j _, Memory.read_write_of_length hlen64 _ _,
      fun a ha => Memory.get_write_outside _ _ _ (hlen64 ▸ ha), ?_, ?_⟩
    · rw [storeRecord_clusters, storeRecord_clusters, ← hv]
      rfl
    · rw [storeRecord_sites, storeRecord_sites, ← hv]
      rfl
  · subst hu
    refine ⟨_, congrArg Host.Outcome.next (doCaptureRecordWrite_alone ue hb (eventsDue_none hev hun) hj hw), rfl,
      fun r k r1 full hr hl hue hp hc h1 hm => ?_⟩
    rw [writeRecord_stores (s := s.leaveRecords n rest) hr hl hp h1 hm (.inr ⟨hue, hc⟩), storeRecord_mem, storeRecord_clusters,
      storeRecord_sites]
    exact ⟨storeRecord_region hr r1 k, Memory.read_write _ _ _, fun a ha => Memory.get_write_outside _ _ _ ha, rfl, rfl⟩
  · have hlen := lineBytes_length s r l ue
    refine ⟨_, congrArg Host.Outcome.next (doBitmapWriteback_writes ue hl hr hlost hw), fun hue hc => ?_, fun hf => ?_, fun a ha => ?_⟩
    · subst hue
      rw [writeLine_mem, Memory.read_write_of_length hlen, mirrorCap_regions, memWrite_regions, readLine_clean hc]
      exact ⟨if_neg (Bool.eq_false_iff.mp (mergeFails_clean hc)), rfl⟩
    · rw [writeLine_mem, Memory.read_write_of_length hlen]
      exact if_pos hf
    · rw [writeLine_mem]
      exact Memory.get_write_outside _ _ _ (hlen.symm ▸ ha)

end Sys2Proof.Machine
end

