-- ==== Sys2Proof/Proofs/Acquisitions.lean ====
section
namespace Sys2Proof.Machine

/-! SUPPORT. How acquisitions are set up, begin, stop and write their blocks (R281, R352, R353, R355-R359, R411, R548), and the statement
about them. -/

/-! ### What leaves acquisitions and filter chains as they are -/

theorem Sends.filters {s t : State} (h : Sends s t) : t.filters = s.filters := by
  obtain ⟨_, _, _, rfl⟩ := h
  rfl

section
variable (s : State)

theorem mirror_filters (i : MItem) : (s.mirror i).filters = s.filters := (unspoiled_mirror s i).filters

theorem mirrorCap_filters (r : Region) (i : CapItem) (off : Nat) (bs : List Byte) : (s.mirrorCap r i off bs).filters = s.filters := by
  obtain ⟨_, _, _, _, h⟩ := mirrorCap_eq s r i off bs
  rw [h]
  rfl

theorem writeHeader_filters (id : Nat) (ue : Bool) : (s.writeHeader id ue).filters = s.filters := by
  have hread (a req : Nat) : (s.mergeRead a req 1 ue).filters = s.filters := (unspoiled_mergeRead _ _ _ _ _).filters
  unfold State.writeHeader
  split
  · rfl
  next r _ =>
    refine ite_keep State.filters rfl (ite_keep State.filters ?_ ?_)
    · exact (mirror_filters _ _).trans (hread _ _)
    · exact (mirrorCap_filters _ _ _ _ _).trans (hread _ _)

theorem endHeader_filters (id : Nat) : (s.endHeader id).filters = s.filters :=
  ite_keep State.filters rfl (writeHeader_filters _ _ _)

theorem stampRegion_filters (r : Region) (near : Bool) (t0 : Nat) (rec : List Byte) :
    (s.stampRegion r near t0 rec).filters = s.filters := by
  unfold State.stampRegion
  extract_lets v near tv s1 s2
  exact (endHeader_filters _ _).trans (ite_keep State.filters (a := s1.upCl _ _) rfl rfl)

theorem deliverDue_filters (sample : Bool) (sites : List Nat) (t : Nat) : (s.deliverDue sample sites t).filters = s.filters := by
  refine foldl_keep State.filters _ (fun a r => ?_) _ _
  dsimp only
  split
  · exact stampRegion_filters _ _ _ _ _
  · rfl

theorem deliverRest_filters (sample : Bool) (sites : List Nat) : (s.deliverRest sample sites).filters = s.filters :=
  deliverDue_filters _ _ _ _

theorem unprotEnd_filters (site : Nat) (acq : Bool) : (s.unprotEnd site acq).filters = s.filters := by
  unfold State.unprotEnd
  split
  · rfl
  · exact (sends_queueEvent _ _).filters.trans (mirror_filters _ _)
end

section
variable {s t : State} (h : t.filters = s.filters)
include h

theorem acqs_of_filters : t.acqs = s.acqs := congrArg Prod.fst h
theorem acq_of_filters (site : Nat) : t.acq site = s.acq site := by rw [State.acq, acqs_of_filters h, State.acq]
theorem chains_of_filters : t.chains = s.chains := congrArg Prod.snd h
theorem chain_of_filters (k : Nat) : t.chain k = s.chain k := by rw [State.chain, chains_of_filters h, State.chain]
end

/-! ### The acquisition of a site -/

theorem upAcq_region (s : State) (site id : Nat) (f : Acq → Acq) : (s.upAcq site f).region id = s.region id := rfl
theorem upAcq_regs (s : State) (site : Nat) (f : Acq → Acq) : (s.upAcq site f).regs = s.regs := rfl
theorem upAcq_chains (s : State) (site : Nat) (f : Acq → Acq) : (s.upAcq site f).chains = s.chains := rfl

/-- An acquisition that is changed and keeps its site is found as changed. -/
theorem upAcq_acq {s : State} {site : Nat} {a : Acq} (h : s.acq site = some a) {f : Acq → Acq} (hf : ∀ x, (f x).site = x.site) :
    (s.upAcq site f).acq site = some (f a) := by
  have hsite : a.site = site := by simpa using List.find?_some h
  unfold State.acq at h
  have hp : ((fun a : Acq => decide (a.site = site)) ∘ fun a => if a.site = site then f a else a) = fun a => decide (a.site = site) := by
    funext x
    by_cases hx : x.site = site <;> simp [hx, hf]
  simp only [State.acq, State.upAcq, List.find?_map, hp, h, Option.map_some, hsite, if_true]

/-- Who issued each acquisition. -/
def State.issuers (s : State) : List (Nat × Owner) := s.acqs.map (fun a => (a.site, a.owner))

theorem issuers_of_filters {s t : State} (h : t.filters = s.filters) : t.issuers = s.issuers := by
  rw [State.issuers, acqs_of_filters h, State.issuers]

theorem issuers_upAcq (s : State) (site : Nat) {f : Acq → Acq} (hf : ∀ x, (f x).site = x.site ∧ (f x).owner = x.owner) :
    (s.upAcq site f).issuers = s.issuers := by
  simp only [State.issuers, State.upAcq, List.map_map]
  refine List.map_congr_left fun a _ => ?_
  by_cases ha : a.site = site <;> simp [ha, hf]

/-- Where the issuers are the same, a site has an acquisition of the same issuer. -/
theorem acq_of_issuers {s t : State} (h : t.issuers = s.issuers) {site : Nat} {a : Acq} (ha : s.acq site = some a) :
    ∃ b, t.acq site = some b ∧ b.owner = a.owner := by
  have hfind (u : State) : u.issuers.find? (fun x => x.1 = site) = (u.acq site).map (fun a => (a.site, a.owner)) := List.find?_map ..
  have hmap := hfind t
  rw [h, hfind s, ha] at hmap
  cases hb : t.acq site with
  | none => simp [hb] at hmap
  | some b =>
    rw [hb] at hmap
    exact ⟨b, rfl, (congrArg Prod.snd (Option.some.inj hmap)).symm⟩

/-! ### The share of an engine (R357, R358) -/

/-- A state that differs from another in its filter chains alone, and has as many. -/
def Rechained (s t : State) : Prop := ∃ l : List FChain, l.length = s.chains.length ∧ t = { s with chains := l }

theorem Rechained.refl (s : State) : Rechained s s := ⟨_, rfl, rfl⟩

theorem Rechained.trans {a b c : State} (h : Rechained a b) (g : Rechained b c) : Rechained a c := by
  obtain ⟨l, hl, rfl⟩ := h
  obtain ⟨m, hm, rfl⟩ := g
  exact ⟨m, hm.trans hl, rfl⟩

theorem rechained_foldl {β : Type} {f : State → β → State} (h : ∀ a x, Rechained a (f a x)) (l : List β) (s : State) :
    Rechained s (l.foldl f s) := foldl_inv (Rechained s) f (fun a x ha => ha.trans (h a x)) l s (.refl s)

theorem rechained_upChain (s : State) (k : Nat) (f : FChain → FChain) : Rechained s (s.upChain k f) := ⟨_, List.length_modify .., rfl⟩

theorem rechained_settleChains (s : State) (e t : Nat) : Rechained s (s.settleChains e t) :=
  rechained_foldl (fun _ _ => rechained_upChain _ _ _) _ _

theorem rechained_resplit (s : State) (e : Nat) : Rechained s (s.resplit e) := by
  refine rechained_foldl (fun a i => ?_) _ _
  dsimp only
  split
  · exact .refl a
  · exact rechained_upChain _ _ _

theorem rechained_reshare (s : State) (ks : List Nat) (t : Nat) (f : FChain → FChain) : Rechained s (s.reshare ks t f) :=
  ((rechained_foldl (fun _ _ => rechained_settleChains _ _ _) _ _).trans (rechained_foldl (fun _ _ => rechained_upChain _ _ _) _ _)).trans
    (rechained_foldl (fun _ _ => rechained_resplit _ _) _ _)

theorem Rechained.region {s t : State} (h : Rechained s t) (id : Nat) : t.region id = s.region id := by
  obtain ⟨_, _, rfl⟩ := h
  rfl

theorem Rechained.regs {s t : State} (h : Rechained s t) : t.regs = s.regs := by
  obtain ⟨_, _, rfl⟩ := h
  rfl

theorem Rechained.acq {s t : State} (h : Rechained s t) (site : Nat) : t.acq site = s.acq site := by
  obtain ⟨_, _, rfl⟩ := h
  rfl

theorem Rechained.issuers {s t : State} (h : Rechained s t) : t.issuers = s.issuers := by
  obtain ⟨_, _, rfl⟩ := h
  rfl

theorem Rechained.length {s t : State} (h : Rechained s t) : t.chains.length = s.chains.length := by
  obtain ⟨_, hl, rfl⟩ := h
  exact hl

/-- A chain is changed with its number, or stays as it is. -/
theorem upChain_chain_or (s : State) (j k : Nat) (f : FChain → FChain) :
    (s.upChain j f).chain k = s.chain k ∨ (s.upChain j f).chain k = f (s.chain k) := by
  by_cases hkj : k = j
  · subst hkj
    by_cases hk : k < s.chains.length
    · exact .inr (upChain_chain_same s k f hk)
    · have hl : (s.upChain k f).chains = s.chains := List.modify_eq_self (Nat.le_of_not_lt hk)
      exact .inl (by rw [State.chain, hl, State.chain])
  · exact .inl (upChain_chain_ne s f hkj)

/-- Of the chains of a list each is changed, at least once. -/
theorem foldl_upChain_chain (f : FChain → FChain) {ks : List Nat} {k : Nat} (hk : k ∈ ks) {s : State} (hl : k < s.chains.length) :
    ∃ c, (ks.foldl (fun s k => s.upChain k f) s).chain k = f c := by
  induction ks using List.reverseRecOn with
  | nil => cases hk
  | append_singleton r j ih =>
    have hlen := (rechained_foldl (fun (a : State) j => rechained_upChain a j f) r s).length
    rw [List.foldl_append, List.foldl_cons, List.foldl_nil]
    by_cases hj : k = j
    · subst hj
      exact ⟨_, upChain_chain_same _ _ _ (hlen ▸ hl)⟩
    · obtain ⟨c, hc⟩ := ih ((List.mem_append.mp hk).resolve_right (by simpa using hj))
      exact ⟨c, (upChain_chain_ne _ f hj).trans hc⟩

/-- A new split of an engine's share changes nothing of a chain but the DE that it takes next. -/
theorem resplit_chain (s : State) (e k : Nat) : ∃ n, (s.resplit e).chain k = { s.chain k with deNext := n } := by
  refine foldl_inv (fun u : State => ∃ n, u.chain k = { s.chain k with deNext := n }) _ (fun a i h => ?_) _ _ ⟨_, rfl⟩
  dsimp only
  split
  · exact h
  · obtain ⟨n, hn⟩ := h
    rcases upChain_chain_or a (12 * e + i) k (fun c => { c with deNext := a.deFor (12 * e + i) c.mm }) with hs | hs
    · exact ⟨n, hs.trans hn⟩
    · exact ⟨_, hs.trans (by rw [hn])⟩

theorem reshare_chain {s : State} {ks : List Nat} {k : Nat} (hk : k ∈ ks) (hl : k < s.chains.length) (t : Nat) (f : FChain → FChain) :
    ∃ c n, (s.reshare ks t f).chain k = { f c with deNext := n } := by
  have hlen := (rechained_foldl (fun (a : State) e => rechained_settleChains a e t) (enginesOf ks) s).length
  obtain ⟨c, hc⟩ := foldl_upChain_chain f hk (hlen.symm ▸ hl)
  refine ⟨c, foldl_inv (fun u : State => ∃ n, u.chain k = { f c with deNext := n }) _ (fun a e h => ?_) _ _ ⟨_, hc⟩⟩
  obtain ⟨n, hn⟩ := h
  obtain ⟨m, hm⟩ := resplit_chain a e k
  exact ⟨m, hm.trans (by rw [hn])⟩

/-! ### ACQUIRE (R352, R353) -/

/-- What the body of an ACQUIRE asks for. -/
def acqReq (b : List Byte) : AcqReq :=
  { site := fld b 16 2, withBurst := (fld b 18 1).testBit 0, region := fld b 20 4, chains := fld b 24 3, duration := fld b 32 8
    start := fld b 40 8 }

/-- The status of an ACQUIRE by its checks. -/
def State.acquireStatus (s : State) (b : List Byte) : Nat :=
  s.acqRefusal (acqReq b) (decide (fld b 18 1 < 2) && zeroes b 19 1 && zeroes b 27 5 && zeroes b 48 16)

/-- The acquisition that a request sets up for its owner at DTIME t. -/
def AcqReq.acq (q : AcqReq) (o : Owner) (t : Nat) : Acq :=
  { site := q.site, region := q.region, chains := q.chains, withBurst := q.withBurst, duration := q.duration, start := q.start, owner := o
    setAt := t }

/-- An absent or retired chain refuses before anything else. -/
theorem acqRefusal_absent {s : State} {q : AcqReq} (h : ∃ k ∈ bitList 24 q.chains, s.nChain ≤ k ∨ s.chainsBad.contains k = true)
    (form : Bool) : s.acqRefusal q form = St.absent := by
  refine if_pos (List.any_eq_true.mpr ?_)
  simpa only [Bool.or_eq_true, decide_eq_true_eq] using h

section
variable {s : State} {sq idx : Nat} {d : Desc} (hd : Safety.ready s sq idx 0x28 d)
include hd

theorem doAcquire_refused (h : s.acquireStatus d.bytes ≠ 0) :
    doAcquire sq idx s = s.complete sq idx { status := s.acquireStatus d.bytes, body := noAcqBody } := by
  rw [doAcquire, withDesc_of_ready hd]
  exact if_pos h

theorem doAcquire_passes (h : s.acquireStatus d.bytes = 0) :
    doAcquire sq idx s = (s.begin sq idx).setupAcq (acqReq d.bytes) (.desc sq idx) := by
  rw [doAcquire, withDesc_of_ready hd]
  exact if_neg (not_not.mpr h)
end

/-- An acquisition is set up, and begins at once unless it goes with a burst or its start is ahead. -/
theorem setupAcq_eq (s : State) (q : AcqReq) (o : Owner) : s.setupAcq q o =
    if q.withBurst = true ∨ s.dtime < q.start then { s with acqs := s.acqs ++ [q.acq o s.dtime] }
    else ({ s with acqs := s.acqs ++ [q.acq o s.dtime] } : State).startAcq q.site s.dtime := by
  unfold State.setupAcq
  simp only [Bool.or_eq_true, decide_eq_true_eq]
  rfl

/-! ### The start (R353, R355, R357, R358) -/

theorem restart_keeps (r : Region) : r.restart.lost = r.lost ∧ r.restart.chan = r.chan ∧ r.restart.base = r.base := by
  unfold Region.restart Region.blank
  dsimp only
  (repeat' split) <;> exact ⟨rfl, rfl, rfl⟩

/-- A header is written with no change to its region, and without a pair to no register; that of a LOST one is not written. -/
theorem writeHeader_keeps {s : State} {id : Nat} {r : Region} (hr : s.region id = some r) (h : Safety.clean s (devAddr r.chan r.base)) :
    (s.writeHeader id).regions = s.regions ∧ (s.mirroring = false → (s.writeHeader id).regs = s.regs) := by
  cases hl : r.lost with
  | true =>
    have hw : s.writeHeader id = s := by
      unfold State.writeHeader
      rw [hr]
      exact if_pos hl
    rw [hw]
    exact ⟨rfl, fun _ => rfl⟩
  | false =>
    refine ⟨?_, fun hm => ?_⟩
    · obtain ⟨_, _, _, _, he⟩ := writeHeader_eq hr hl h
      rw [he]
      rfl
    · rw [writeHeader_mirrors hr hl h, mirrorCap_off (s := s.memWrite r.chan r.base r.header) hm]
      rfl

/-- What a chain is as an acquisition of a site begins with it. -/
def FChain.begun (c : FChain) (site t : Nat) : FChain :=
  { c with acq := some site, credit := (4096 * creditUnit : Nat), creditT := 4 * t, blk := none, seq := 0, gap := false }

/-- The state in which the region of an acquisition has restarted and its header is written. -/
def State.restarted (s : State) (id : Nat) : State := (s.upRegion id (fun r => r.restart)).writeHeader id

theorem restarted_filters (s : State) (id : Nat) : (s.restarted id).filters = s.filters := writeHeader_filters _ _ _

theorem restarted_region {s : State} {id : Nat} {r : Region} (hr : s.region id = some r) (h : Safety.clean s (devAddr r.chan r.base)) :
    (s.restarted id).region id = some r.restart ∧ (s.mirroring = false → (s.restarted id).regs = s.regs) := by
  obtain ⟨-, hch, hba⟩ := restart_keeps r
  have hr' := upRegion_region_same hr (fun r => r.restart)
  obtain ⟨hregions, hregs⟩ := writeHeader_keeps hr' (by rw [hch, hba]; exact h)
  exact ⟨(congrArg (kGet · id) hregions).trans hr', hregs⟩

section
variable {s : State} {site : Nat} {a : Acq} (ha : s.acq site = some a) (t : Nat)
include ha

theorem startAcq_eq : s.startAcq site t = ((s.restarted a.region).upAcq site (fun a => { a with running := true, startAt := t })).reshare
    (bitList 24 a.chains) (4 * t) (fun c => c.begun site t) := by
  unfold State.startAcq
  rw [ha]
  rfl

theorem startAcq_acq : (s.startAcq site t).acq site = some { a with running := true, startAt := t } := by
  rw [startAcq_eq ha, (rechained_reshare _ _ _ _).acq]
  exact upAcq_acq ((acq_of_filters (restarted_filters s a.region) site).trans ha) (fun _ => rfl)

theorem startAcq_chain {k : Nat} (hk : k ∈ bitList 24 a.chains) (hl : k < s.chains.length) :
    ∃ (c : FChain) (n : Nat), (s.startAcq site t).chain k = { c.begun site t with deNext := n } := by
  rw [startAcq_eq ha]
  refine reshare_chain hk ?_ _ _
  exact (congrArg List.length (chains_of_filters (restarted_filters s a.region))).symm ▸ hl

theorem startAcq_region {r : Region} (hr : s.region a.region = some r) (h : Safety.clean s (devAddr r.chan r.base)) :
    (s.startAcq site t).region a.region = some r.restart ∧ (s.mirroring = false → (s.startAcq site t).regs = s.regs) := by
  rw [startAcq_eq ha, (rechained_reshare _ _ _ _).region, (rechained_reshare _ _ _ _).regs, upAcq_region, upAcq_regs]
  exact restarted_region hr h

theorem doAcquisitionStart_due (hrun : a.running = false) (hb : a.withBurst = false) (hst : a.stopAt = none) (hs : a.start ≤ t) :
    doAcquisitionStart site t s = (s.at t).startAcq site t := by
  simp [doAcquisitionStart, ha, hrun, hb, hst, Nat.not_lt.mpr hs]
end

theorem mem_bitList_lt {n v k : Nat} (h : k ∈ bitList n v) : k < n := List.mem_range.mp (List.mem_of_mem_filter h)

/-! ### The stop (R353) -/

theorem upChain_issuers (s : State) (k : Nat) (f : FChain → FChain) : (s.upChain k f).issuers = s.issuers := rfl

theorem sbufs_issuers (s : State) (l : List (List SBlk)) : ({ s with sbufs := l } : State).issuers = s.issuers := rfl

theorem loseBlock_issuers (s : State) (k site region : Nat) (written : Bool) : (s.loseBlock k site region written).issuers = s.issuers := by
  have hup (f : Region → Region) : ((s.upRegion region f).upAcq site (fun a => { a with qual := a.qual ||| 4 })).issuers = s.issuers :=
    issuers_upAcq _ _ (fun _ => ⟨rfl, rfl⟩)
  exact ite_keep State.issuers (hup _) (hup _)

theorem closeBlock_issuers (s : State) (k t : Nat) : (s.closeBlock k t).issuers = s.issuers := by
  unfold State.closeBlock
  extract_lets u c0 s1 low s2 est p s3
  have hu : u.issuers = s.issuers := issuers_of_filters (deliverDue_filters _ _ _ _)
  have h2 : s2.issuers = s.issuers := (upChain_issuers _ _ _).trans ((upChain_issuers _ _ _).trans hu)
  split
  · refine ite_keep State.issuers ((upChain_issuers _ _ _).trans hu) (ite_keep State.issuers ?_ ?_)
    · exact (loseBlock_issuers s2 _ _ _ _).trans h2
    · exact (sbufs_issuers s3 _).trans ((upChain_issuers s2 _ _).trans h2)
  · exact hu

theorem addEntries_issuers (s : State) (k t : Nat) : (s.addEntries k t).issuers = s.issuers := by
  unfold State.addEntries
  extract_lets now u c det es red
  have hu : u.issuers = s.issuers := ite_keep State.issuers (closeBlock_issuers _ _ _) rfl
  split
  · exact hu
  · refine ite_keep State.issuers hu ?_
    extract_lets g fresh s1 s2
    have h2 : s2.issuers = u.issuers := issuers_upAcq s1 _ (fun _ => ⟨rfl, rfl⟩)
    exact ite_keep State.issuers ((closeBlock_issuers _ _ _).trans (h2.trans hu)) (h2.trans hu)

/-- The state in which the open intervals and blocks of an acquisition have closed and its chains are free. -/
def State.freeChains (s : State) (site t : Nat) (ks : List Nat) : State :=
  ((ks.foldl (fun s k => (s.addEntries k (4 * t)).closeBlock k (4 * t)) s).reshare ks (4 * t)
    (fun c => { c with acq := none, blk := none })).deliverRest true [site]

theorem freeChains_issuers (s : State) (site t : Nat) (ks : List Nat) : (s.freeChains site t ks).issuers = s.issuers := by
  rw [State.freeChains, issuers_of_filters (deliverRest_filters _ _ _), (rechained_reshare _ _ _ _).issuers]
  exact foldl_keep State.issuers _ (fun a k => (closeBlock_issuers _ _ _).trans (addEntries_issuers a k _)) ks s

/-- States of as many units of each kind have as many filter chains. -/
theorem chains_length_of_units {s t : State} (h : t.units = s.units) : t.chains.length = s.chains.length := by
  simp only [State.units, unitsOf, List.cons.injEq] at h
  exact h.2.2.2.2.2.2.2.1

theorem freeChains_chain {s : State} (site t : Nat) {ks : List Nat} {k : Nat} (hk : k ∈ ks) (hl : k < s.chains.length) :
    ((s.freeChains site t ks).chain k).acq = none ∧ ((s.freeChains site t ks).chain k).blk = none := by
  have hu : (ks.foldl (fun s k => (s.addEntries k (4 * t)).closeBlock k (4 * t)) s).units = s.units := units_foldl (fun _ _ => by simp) _ _
  obtain ⟨c, n, h⟩ := reshare_chain hk ((chains_length_of_units hu).symm ▸ hl) (4 * t) (fun c => { c with acq := none, blk := none })
  rw [State.freeChains, chain_of_filters (deliverRest_filters _ _ _), h]
  exact ⟨rfl, rfl⟩

theorem settleAcq_going {s : State} {site : Nat} {a : Acq} (ha : s.acq site = some a) (hst : a.stopAt = none) : s.settleAcq site = s := by
  simp [State.settleAcq, ha, hst]

/-- The end of an acquisition that a descriptor issued: it completes once its blocks are written, and is listed no more. -/
theorem settleAcq_desc {s : State} {site sq idx : Nat} {b : Acq} (hb : s.acq site = some b) (ho : b.owner = .desc sq idx) :
    (s.settleAcq site).chains = s.chains ∧ ∀ c, (s.settleAcq site).acq site = some c → c = b := by
  have hkeep : s.chains = s.chains ∧ ∀ c, s.acq site = some c → c = b := ⟨rfl, fun c hc => Option.some.inj (hc.symm.trans hb)⟩
  unfold State.settleAcq
  rw [hb]
  dsimp only
  split
  · exact hkeep
  next st t _ =>
    split
    · exact hkeep
    · rw [ho, State.opEnd]
      have hend : ((s.endHeader b.region).unprotEnd site true).filters = s.filters :=
        (unprotEnd_filters _ _ _).trans (endHeader_filters _ _)
      have hsend := sends_complete ({ (s.endHeader b.region).unprotEnd site true with
        acqs := ((s.endHeader b.region).unprotEnd site true).acqs.filter (fun x => x.site ≠ site) } : State) sq idx
      have hchains := chains_of_filters hend
      refine ⟨(hsend _).chains.trans hchains, fun c hc => ?_⟩
      rw [State.acq, (hsend _).acqs] at hc
      obtain ⟨-, hne⟩ := List.mem_filter.mp (List.mem_of_find?_eq_some hc)
      exact absurd (by simpa using List.find?_some hc) (of_decide_eq_true hne)

section
variable {s : State} {site : Nat} {a : Acq} (ha : s.acq site = some a) (hrun : a.running = true) (hst : a.stopAt = none)
include ha hrun hst

theorem stopAcq_running (st t : Nat) : ∃ q, s.stopAcq site st t = ((s.freeChains site t (bitList 24 a.chains)).upAcq site (fun a =>
    { a with running := false, stopAt := some (st, t), qual := a.qual ||| q })).settleAcq site := by
  unfold State.stopAcq
  rw [ha]
  simp only [hst, hrun, Option.isSome_none, Bool.not_true, Bool.false_eq_true, if_false]
  exact ⟨_, rfl⟩

/-- An acquisition that a descriptor issued stops: its chains are free, and as long as it is listed it says so. -/
theorem stopAcq_desc {sq idx : Nat} (st t : Nat) (ho : a.owner = .desc sq idx) (hlen : s.chains.length = 24) :
    (∀ k ∈ bitList 24 a.chains, ((s.stopAcq site st t).chain k).acq = none ∧ ((s.stopAcq site st t).chain k).blk = none) ∧
      ∀ b, (s.stopAcq site st t).acq site = some b → b.running = false ∧ b.stopAt = some (st, t) := by
  obtain ⟨q, he⟩ := stopAcq_running ha hrun hst st t
  obtain ⟨b, hb, hbo⟩ := acq_of_issuers (freeChains_issuers s site t (bitList 24 a.chains)) ha
  obtain ⟨hchains, hacq⟩ := settleAcq_desc (upAcq_acq (f := fun a =>
    { a with running := false, stopAt := some (st, t), qual := a.qual ||| q }) hb (fun _ => rfl)) (hbo.trans ho)
  rw [he]
  refine ⟨fun k hk => ?_, fun c hc => ?_⟩
  · rw [State.chain, hchains]
    exact freeChains_chain site t hk (hlen.symm ▸ mem_bitList_lt hk)
  · rw [hacq c hc]
    exact ⟨rfl, rfl⟩
end

theorem doAcquisitionStop_due {s : State} {site : Nat} {a : Acq} (ha : s.acq site = some a) (hrun : a.running = true)
    (hb : a.withBurst = false) {t : Nat} (hd : a.startAt + a.duration ≤ t) : doAcquisitionStop site t s = (s.at t).stopAcq site St.ok t := by
  simp [doAcquisitionStop, ha, hrun, hb, Nat.not_lt.mpr hd]

/-! ### SAMPLE_BLOCK_WRITE (R281, R359, R530, R548) -/

section
variable {s : State} {k site region : Nat} {a : Acq} {r : Region}

theorem loseBlock_acq (ha : s.acq site = some a) (written : Bool) :
    (s.loseBlock k site region written).acq site = some { a with qual := a.qual ||| 4 } := by
  have hup (f : Region → Region) : ((s.upRegion region f).upAcq site (fun a => { a with qual := a.qual ||| 4 })).acq site =
      some { a with qual := a.qual ||| 4 } := upAcq_acq (s := s.upRegion region f) ha (fun _ => rfl)
  exact ite_keep (fun t : State => t.acq site) (hup _) (hup _)

theorem loseBlock_region (hr : s.region region = some r) (written : Bool) :
    (s.loseBlock k site region written).region region = some { r with lostCount := satAdd 32 r.lostCount 1 } := by
  have hup := upRegion_region_same hr (fun r => { r with lostCount := satAdd 32 r.lostCount 1 })
  exact ite_keep (fun t : State => t.region region) hup hup

theorem loseBlock_mem (written : Bool) : (s.loseBlock k site region written).mem = s.mem := ite_keep State.mem rfl rfl
end

/-- The state with the oldest block of engine e taken out of its buffer, and its region as the block's slot leaves it. -/
def State.takeBlock (s : State) (e : Nat) (b : SBlk) (rest : List SBlk) (r1 : Region) : State :=
  ({ s with sbufs := s.sbufs.set e rest } : State).upRegion b.region (fun _ => r1)

/-- That state with the block in slot k of the region, and mirrored: its acquisition counts it. -/
def State.storeBlock (s : State) (e : Nat) (b : SBlk) (rest : List SBlk) (r r1 : Region) (k : Nat) : State :=
  (((s.takeBlock e b rest r1).memWrite r.chan (r.base + (64 + 64 * k)) b.bytes).mirrorCap r (.block (b.t0 / 2000) (b.t1 / 2000))
    (64 + 64 * k) b.bytes).upAcq b.site (fun a => { a with blocks := satAdd 32 a.blocks 1 })

/-- That state with the block lost, and the error that its write met told. -/
def State.failBlock (s : State) (e : Nat) (b : SBlk) (rest : List SBlk) (r r1 : Region) (k : Nat) : State :=
  ((s.takeBlock e b rest r1).loseBlock b.chain b.site b.region true).mergeError (devAddr r.chan (r.base + (64 + 64 * k))) (0x60 + e)

section
variable {s : State} {e : Nat} {b : SBlk} {rest : List SBlk} {r r1 : Region} {k : Nat} {a : Acq}

theorem takeBlock_region (hr : s.region b.region = some r) : (s.takeBlock e b rest r1).region b.region = some r1 :=
  upRegion_region_same (s := { s with sbufs := s.sbufs.set e rest }) hr (fun _ => r1)

theorem takeBlock_region_ne {i : Nat} (hi : i ≠ b.region) : (s.takeBlock e b rest r1).region i = s.region i :=
  upRegion_region_ne { s with sbufs := s.sbufs.set e rest } hi (fun _ => r1)

theorem takeBlock_filters (ch off : Nat) (bs : List Byte) : ((s.takeBlock e b rest r1).memWrite ch off bs).filters = s.filters := rfl

theorem storeBlock_mem : (s.storeBlock e b rest r r1 k).mem =
    Memory.write s.mem (devAddr r.chan (r.base + (64 + 64 * k))) b.bytes := mirrorCap_mem _ _ _ _ _

theorem storeBlock_regions : (s.storeBlock e b rest r r1 k).regions = (s.takeBlock e b rest r1).regions := mirrorCap_regions _ _ _ _ _

theorem storeBlock_sbufs : (s.storeBlock e b rest r r1 k).sbufs = s.sbufs.set e rest := by
  obtain ⟨_, _, _, _, h⟩ := mirrorCap_eq ((s.takeBlock e b rest r1).memWrite r.chan (r.base + (64 + 64 * k)) b.bytes) r
    (.block (b.t0 / 2000) (b.t1 / 2000)) (64 + 64 * k) b.bytes
  rw [State.storeBlock, h]
  rfl

theorem storeBlock_chains : (s.storeBlock e b rest r r1 k).chains = s.chains := by
  rw [State.storeBlock, upAcq_chains]
  exact chains_of_filters ((mirrorCap_filters _ _ _ _ _).trans (takeBlock_filters _ _ _))

theorem storeBlock_regs (hm : s.mirroring = false) : (s.storeBlock e b rest r r1 k).regs = s.regs := by
  rw [State.storeBlock, mirrorCap_off (s := (s.takeBlock e b rest r1).memWrite r.chan (r.base + (64 + 64 * k)) b.bytes) hm]
  rfl

theorem storeBlock_acq (ha : s.acq b.site = some a) :
    (s.storeBlock e b rest r r1 k).acq b.site = some { a with blocks := satAdd 32 a.blocks 1 } :=
  upAcq_acq ((acq_of_filters ((mirrorCap_filters _ _ _ _ _).trans (takeBlock_filters _ _ _)) b.site).trans ha) (fun _ => rfl)

theorem failBlock_unspoiled : Unspoiled ((s.takeBlock e b rest r1).loseBlock b.chain b.site b.region true)
    (s.failBlock e b rest r r1 k) := by
  unfold State.failBlock State.mergeError
  exact unspoiled_detected _ _

theorem failBlock_mem : (s.failBlock e b rest r r1 k).mem = s.mem := failBlock_unspoiled.mem.trans (loseBlock_mem true)

theorem failBlock_acq (ha : s.acq b.site = some a) :
    (s.failBlock e b rest r r1 k).acq b.site = some { a with qual := a.qual ||| 4 } :=
  (acq_of_filters failBlock_unspoiled.filters b.site).trans (loseBlock_acq (s := s.takeBlock e b rest r1) ha true)

theorem failBlock_lostCount (hr : s.region b.region = some r) :
    ((s.failBlock e b rest r r1 k).region b.region).map Region.lostCount = some (satAdd 32 r1.lostCount 1) := by
  rw [failBlock_unspoiled.lostCount, loseBlock_region (takeBlock_region hr)]
  rfl

theorem failBlock_reports : ∃ p ∈ (s.failBlock e b rest r r1 k).collector.reports, p.src = 18 ∧ p.req = 0x60 + e :=
  detected_ue_reports _ _ rfl
end

section
variable {s : State} {e : Nat} {b : SBlk} {rest : List SBlk} (hb : s.sbufs.getD e [] = b :: rest)
include hb

theorem doSampleBlockWrite_unknown (ue : Bool) (hr : s.region b.region = none) :
    doSampleBlockWrite e ue s = { s with sbufs := s.sbufs.set e rest } := by
  simp only [doSampleBlockWrite, hb, hr]

variable {r : Region} (hr : s.region b.region = some r) (hl : r.lost = false)
include hr hl

theorem doSampleBlockWrite_waits (ue : Bool) (hw : (s.mc r.chan).repair ≠ none) : doSampleBlockWrite e ue s = s := by
  have hwait : s.waits r.chan = true := Option.isSome_iff_ne_none.mpr hw
  simp only [doSampleBlockWrite, hb, hr, hl, hwait, Bool.false_eq_true, if_false, if_true]

variable (hw : (s.mc r.chan).repair = none) {r1 : Region} {k : Nat} {x : Bool} (hst : r1.state = r.state) {a : Acq}
  (ha : s.acq b.site = some a) (hgo : a.stopAt = none)
include hw hst ha hgo

/-- A block whose write meets no error lies in its slot. -/
theorem doSampleBlockWrite_stores (hp : r.place b.linear true = (some k, r1, x)) :
    doSampleBlockWrite e false s = s.storeBlock e b rest r r1 k := by
  have hwait : s.waits r.chan = false := by rw [State.waits, hw]; rfl
  have hrun : doSampleBlockWrite e false s = (s.storeBlock e b rest r r1 k).settleAcq b.site := by
    simp only [doSampleBlockWrite, hb, hr, hl, hwait, hp, hst, Bool.not_false, Bool.false_eq_true, if_false, ne_eq, not_true_eq_false,
      decide_false, Bool.false_and]
    rfl
  exact hrun.trans (settleAcq_going (storeBlock_acq ha) hgo)

/-- A block whose write meets an uncorrectable error is lost. -/
theorem doSampleBlockWrite_loses (hp : r.place b.linear false = (some k, r1, x)) :
    doSampleBlockWrite e true s = s.failBlock e b rest r r1 k := by
  have hwait : s.waits r.chan = false := by rw [State.waits, hw]; rfl
  have hrun : doSampleBlockWrite e true s = (s.failBlock e b rest r r1 k).settleAcq b.site := by
    simp only [doSampleBlockWrite, hb, hr, hl, hwait, hp, hst, Bool.not_true, Bool.false_eq_true, if_false, if_true, ne_eq,
      not_true_eq_false, decide_false, Bool.false_and]
    rfl
  exact hrun.trans (settleAcq_going (failBlock_acq ha) hgo)
end

/-- Settles O50: a request by its checks, a start and a stop by what they do to the chains, a block by its slot and what its write meets. -/
theorem acquisitionsRun : Obligations.AcquisitionsRun := by
  refine ⟨fun s sq idx st d q hd hq hst => ⟨fun h => ?_, fun h => ?_, fun h => ?_⟩,
    fun s site t0 a ha hrun hb hstop hs ⟨_, _, _, _, _, _, _, hlen, _⟩ => ?_,
    fun s site t0 sq idx a ha hrun hb hstop hdue ho ⟨_, _, _, _, _, _, _, hlen, _⟩ => ?_, fun s e ue hb => ?_,
    fun s e ue b rest hb hr => ?_, fun s e ue b rest r hb hr hl hw => ?_, fun s e b rest r r1 k x a hb hr hl hw hp h1 ha hstop => ?_,
    fun s e b rest r r1 k x a hb hr hl hw hp h1 ha hstop => ?_⟩
  · subst hq
    have habsent : s.acquireStatus d.bytes = St.absent := acqRefusal_absent h _
    refine congrArg Host.Outcome.next ((doAcquire_refused hd (by rw [habsent]; decide)).trans ?_)
    rw [habsent]
  · subst hq hst
    exact ⟨_, congrArg Host.Outcome.next (doAcquire_refused hd h), rfl, (sends_complete _ _ _ _).acqs, (sends_complete _ _ _ _).mem⟩
  · subst hq hst
    have hrun := (doAcquire_passes hd h).trans (setupAcq_eq _ _ _)
    exact ⟨_, { s.begin sq idx with acqs := s.acqs ++ [(acqReq d.bytes).acq (.desc sq idx) s.dtime] }, _,
      congrArg Host.Outcome.next hrun, rfl, rfl, rfl, rfl, rfl, rfl, rfl, rfl, rfl, begin_desc hd.1, rfl, rfl, rfl, rfl⟩
  · have ha' : (s.at t0).acq site = some a := ha
    refine ⟨_, congrArg Host.Outcome.next (doAcquisitionStart_due ha t0 hrun hb hstop hs), startAcq_acq ha' t0, fun k hk => ?_, ?_,
      fun r hr hc => startAcq_region ha' t0 hr hc⟩
    · obtain ⟨c, n, h⟩ := startAcq_chain ha' t0 hk (hlen.symm ▸ mem_bitList_lt hk)
      rw [h]
      exact ⟨rfl, rfl, rfl, rfl, rfl⟩
    · exact congrArg Prod.fst (stamp_startAcq site t0)
  · obtain ⟨hfree, hsays⟩ := stopAcq_desc (s := s.at t0) ha hrun hstop St.ok t0 ho hlen
    exact ⟨_, congrArg Host.Outcome.next (doAcquisitionStop_due ha hrun hb hdue), rfl, hfree, hsays⟩
  · exact congrArg Host.Outcome.next (by rw [doSampleBlockWrite, hb])
  · exact congrArg Host.Outcome.next (doSampleBlockWrite_unknown hb ue hr)
  · exact congrArg Host.Outcome.next (doSampleBlockWrite_waits hb hr hl ue hw)
  · refine ⟨_, congrArg Host.Outcome.next (doSampleBlockWrite_stores hb hr hl hw h1 ha hstop hp), storeBlock_sbufs, storeBlock_mem, ?_,
      fun i hi => ?_, storeBlock_acq ha, storeBlock_chains, storeBlock_regs⟩
    · rw [State.region, storeBlock_regions]
      exact takeBlock_region hr
    · rw [State.region, storeBlock_regions]
      exact takeBlock_region_ne hi
  · obtain ⟨p, hp', hsrc, hreq⟩ := failBlock_reports (s := s) (e := e) (b := b) (rest := rest) (r := r) (r1 := r1) (k := k)
    exact ⟨_, p, congrArg Host.Outcome.next (doSampleBlockWrite_loses hb hr hl hw h1 ha hstop hp), failBlock_acq ha,
      failBlock_lostCount hr, hp', hsrc, hreq, failBlock_mem⟩

end Sys2Proof.Machine
end

