-- ==== Sys2Proof/Proofs/ApgBinding.lean ====
section
namespace Sys2Proof.Machine

/-! SUPPORT. How APG units are bound and unbound (R315, R316, R336, R658), and the statement about them. -/

/-! ### What a binding touches -/

/-- A state that differs from another in the APG units, the register file, the clocks and the power domains alone. -/
def OfApgs (s t : State) : Prop := ∃ a g c p, t = { s with apgs := a, regs := g, clk := c, power := p }

theorem OfApgs.refl (s : State) : OfApgs s s := ⟨_, _, _, _, rfl⟩

theorem OfApgs.trans {a b c : State} (h : OfApgs a b) (g : OfApgs b c) : OfApgs a c := by
  obtain ⟨_, _, _, _, rfl⟩ := h
  obtain ⟨_, _, _, _, rfl⟩ := g
  exact ⟨_, _, _, _, rfl⟩

theorem OfApgs.mem {s t : State} (h : OfApgs s t) : t.mem = s.mem := by obtain ⟨_, _, _, _, rfl⟩ := h; rfl
theorem OfApgs.bursts {s t : State} (h : OfApgs s t) : t.bursts = s.bursts := by obtain ⟨_, _, _, _, rfl⟩ := h; rfl

theorem ofApgs_setBind (s : State) (k : Nat) (e : Option Ent) : OfApgs s (s.setBind k e) := ⟨_, _, _, _, rfl⟩
theorem ofApgs_unbind (s : State) (k : Nat) : OfApgs s (s.unbind k) := ⟨_, _, _, _, rfl⟩

theorem ofApgs_unbindEnt (s : State) (e : Ent) (keep : Option Nat) : OfApgs s (s.unbindEnt e keep) := by
  refine foldl_inv (OfApgs s) _ (fun t k h => ?_) _ s (.refl s)
  split
  · exact h.trans (ofApgs_unbind t k)
  · exact h

/-! ### A unit's power domain (R657, R658) -/

section
variable (s : State) {d : Nat} (h : 60 ≤ d)
include h

/-- A domain from 60 on needs no other one: turned on, it alone comes on. -/
theorem powerUp_single :
    ∃ g c, s.powerUp d = { s with regs := g, clk := c, power := { s.power with dom := s.power.dom ||| 2 ^ d } } := by
  have hneeds : domNeeds d = [] := if_neg (Nat.not_lt.mpr h)
  rw [State.powerUp, hneeds]
  exact ⟨_, _, rfl⟩

theorem ofApgs_powerUp : OfApgs s (s.powerUp d) := by
  obtain ⟨_, _, hp⟩ := powerUp_single s h
  exact ⟨_, _, _, _, hp⟩

theorem powerUp_apgs : (s.powerUp d).apgs = s.apgs := by
  obtain ⟨_, _, hp⟩ := powerUp_single s h
  rw [hp]

theorem powerUp_domOn : (s.powerUp d).domOn d = true := by
  obtain ⟨_, _, hp⟩ := powerUp_single s h
  simp [State.domOn, hp]
end

/-! ### Bindings that end -/

/-- What any one step of a fold brings about, and every step keeps, holds after the fold. -/
theorem foldl_established {α β : Type} {P : α → Prop} {f : α → β → α} (keeps : ∀ a y, P a → P (f a y)) {x : β}
    (brings : ∀ a, P (f a x)) {l : List β} (hx : x ∈ l) (s : α) : P (l.foldl f s) := by
  induction l generalizing s with
  | nil => cases hx
  | cons y r ih =>
    rcases List.mem_cons.mp hx with rfl | hr
    · exact foldl_inv P f keeps r _ (brings s)
    · exact ih hr _

section
variable (s : State) (e : Ent) (keep : Option Nat)

theorem unbind_length (k : Nat) : (s.unbind k).apgs.length = s.apgs.length := List.length_modify ..

theorem unbind_ent_same (k : Nat) : ((s.unbind k).apgs.getD k {}).ent = none := by
  by_cases h : k < s.apgs.length
  · exact congrArg Apg.ent (getD_modify_same s.apgs k _ {} h)
  · rw [List.getD_eq_default _ _ (unbind_length s k ▸ Nat.not_lt.mp h)]

theorem unbind_apg_ne {k j : Nat} (h : j ≠ k) : (s.unbind k).apgs.getD j {} = s.apgs.getD j {} := getD_modify_ne s.apgs _ _ h

theorem unbindEnt_length : (s.unbindEnt e keep).apgs.length = s.apgs.length :=
  foldl_keep (fun t : State => t.apgs.length) _
    (fun t k => ite_keep (fun t : State => t.apgs.length) (unbind_length t k) rfl) _ _

/-- No unit but the one to keep stays bound to the site or group. -/
theorem unbindEnt_unbound {j : Nat} (hj : j < 4) (hk : keep ≠ some j) : ((s.unbindEnt e keep).apgs.getD j {}).ent ≠ some e := by
  have hended (t : State) : ((t.unbind j).apgs.getD j {}).ent ≠ some e := by
    rw [unbind_ent_same]
    exact nofun
  refine foldl_established (P := fun t : State => (t.apgs.getD j {}).ent ≠ some e) (x := j) (fun t k h => ?_) (fun t => ?_)
    (List.mem_range.mpr hj) s
  · split
    · by_cases hjk : j = k
      · exact hjk ▸ hended t
      · rwa [unbind_apg_ne t hjk]
    · exact h
  · split
    · exact hended t
    next h =>
      intro he
      rw [he] at h
      simp [hk] at h
end

/-! ### A binding that takes effect -/

section
variable (s : State) (k : Nat) (e : Ent) (setup : List Byte)

theorem ofApgs_bind : OfApgs s (s.bind k e setup) := by
  unfold State.bind
  extract_lets s1 same s2
  have hunits : OfApgs s s2 := (ofApgs_unbindEnt s e (some k)).trans ⟨_, _, _, _, rfl⟩
  refine .trans ?_ (ofApgs_powerUp _ (by omega))
  split
  · exact hunits
  · exact hunits.trans (ofApgs_setBind _ _ _)

theorem bind_apgs : (s.bind k e setup).apgs =
    (s.unbindEnt e (some k)).apgs.modify k (fun a => { a with ent := some e, setup := setup }) :=
  (powerUp_apgs _ (by omega)).trans (ite_keep State.apgs rfl rfl)

theorem bind_domOn : (s.bind k e setup).domOn (89 + k) = true := powerUp_domOn _ (by omega)

theorem bind_apg_same (h : k < s.apgs.length) :
    (s.bind k e setup).apgs.getD k {} = { (s.unbindEnt e (some k)).apgs.getD k {} with ent := some e, setup := setup } := by
  rw [bind_apgs, getD_modify_same _ _ _ _ (by rwa [unbindEnt_length])]

theorem bind_unbinds_others {j : Nat} (hj : j < 4) (hne : j ≠ k) : ((s.bind k e setup).apgs.getD j {}).ent ≠ some e := by
  rw [bind_apgs, getD_modify_ne _ _ _ hne]
  exact unbindEnt_unbound s e _ hj fun h => hne (Option.some.inj h).symm
end

/-! ### BIND_APG and its deferred turn (R315, R316) -/

/-- The checks let a unit's number through only below 4, or 255 (R315). -/
theorem bindRefusal_unit {s : State} {b : List Byte} (h : s.bindRefusal b = 0) (hk : fld b 20 1 ≠ 0xFF) : fld b 20 1 < 4 := by
  by_contra hge
  have hbad : s.bindRefusal b = St.blocked ∨ s.bindRefusal b = St.bad := by
    unfold State.bindRefusal
    extract_lets k e one
    have hk4 : 4 ≤ k := Nat.not_lt.mp hge
    have hkff : k ≠ 0xFF := hk
    rw [if_neg (by simp [Nat.not_lt.mpr hk4])]
    split
    · exact .inl rfl
    · exact .inr (if_pos (by simp [hk4, hkff]))
  rw [h] at hbad
  exact absurd hbad (by decide)

theorem bindTurn_mem (s : State) (d : Desc) (setup : List Byte) : (s.bindTurn d setup).mem = s.mem := by
  unfold State.bindTurn
  exact (sends_finish _ _ _ _).mem.trans (ite_keep State.mem (ofApgs_unbindEnt _ _ _).mem (ofApgs_bind _ _ _ _).mem)

section
variable {s : State} {sq idx : Nat} {d : Desc} {src : Option (List Byte)} (hd : Safety.ready s sq idx 0x0B d)
include hd

theorem doBindApg_refused (h : s.bindRefusal d.bytes ≠ 0) : doBindApg sq idx src s = s.finish sq idx (s.bindRefusal d.bytes) := by
  rw [doBindApg, withDesc_of_ready hd]
  exact if_pos h

variable (h : s.bindRefusal d.bytes = 0)
include h

theorem doBindApg_unbinds (hk : fld d.bytes 20 1 = 0xFF) (hb : s.busy (bindEnt d.bytes) = false) :
    doBindApg sq idx src s = (s.unbindEnt (bindEnt d.bytes) none).finish sq idx St.ok := by
  obtain ⟨rfl, rfl⟩ := ready_place hd
  rw [doBindApg, withDesc_of_ready hd]
  simp [h, hk, hb, State.bindTurn]

variable {bs : List Byte} (hk : fld d.bytes 20 1 ≠ 0xFF) (hm : s.host.pci.busMaster = true) (hl : bs.length = 1024)
include hk hm hl

/-- A setup block that the host read brings goes through the checks of R318, and then waits for a burst of the site or group. -/
theorem doBindApg_checked : doBindApg sq idx (some bs) s =
    if setupOk bs then
      if s.busy (bindEnt d.bytes) then s.wait { sq := sq, idx := idx, kind := .bindApg bs, ent := some (bindEnt d.bytes) }
      else (s.bind (fld d.bytes 20 1) (bindEnt d.bytes) bs).finish sq idx St.ok
    else s.finish sq idx St.bad := by
  obtain ⟨rfl, rfl⟩ := ready_place hd
  have hread : s.hostRead ((some bs).filter (fun l => l.length = 1024)) = some bs := by simp [State.hostRead, hm, Option.filter, hl]
  rw [doBindApg, withDesc_of_ready hd]
  simp [h, hk, hread, State.bindTurn]
end

section
variable {s : State} {sq idx : Nat} {d : Desc} {e : Ent} {bs : List Byte} (hd : s.desc sq idx = some d)
  (hw : s.waitOf sq idx = some { sq := sq, idx := idx, kind := .bindApg bs, ent := some e }) (hb : s.busy e = false)
include hd hw hb

/-- Once the burst is over, the checks hold as they are then (R316). -/
theorem doDeferredBindApg_turn : doDeferredBindApg sq idx s =
    if (s.unwait sq idx).bindRefusal d.bytes ≠ 0 then (s.unwait sq idx).finish sq idx ((s.unwait sq idx).bindRefusal d.bytes)
    else (s.unwait sq idx).bindTurn d bs := by
  simp [doDeferredBindApg, hd, hw, hb]
end

/-- Settles O35: BIND_APG by its checks, its unit, its setup block and the burst, a deferred one by its checks. -/
theorem apgBinding : Obligations.ApgBinding := by
  refine ⟨fun s sq idx k d bs hd hk hm hl => ?_, fun s sq idx d e bs hd hw hb => ?_⟩
  · subst hk
    refine ⟨_, rfl, fun h => ?_, fun h hk hbad => ?_, fun h hk hok => ⟨fun hb => ?_, fun hb hsh => ?_⟩, fun h hk hb => ?_⟩
    · rw [doBindApg_refused hd h]
      exact ⟨rfl, (sends_finish _ _ _ _).apgs⟩
    · rw [doBindApg_checked hd h hk hm hl, if_neg (Bool.eq_false_iff.mp hbad)]
      exact ⟨rfl, (sends_finish _ _ _ _).apgs⟩
    · rw [doBindApg_checked hd h hk hm hl, if_pos hok, if_pos hb]
      exact ⟨rfl, rfl⟩
    · obtain ⟨-, -, -, -, -, -, -, -, -, -, hlen, -⟩ := hsh
      have hk4 : fld d.bytes 20 1 < s.apgs.length := hlen.symm ▸ bindRefusal_unit h hk
      rw [doBindApg_checked hd h hk hm hl, if_pos hok, if_neg (Bool.eq_false_iff.mp hb)]
      have hsent := sends_finish (s.bind (fld d.bytes 20 1) (bindEnt d.bytes) bs) sq idx St.ok
      rw [hsent.apgs, State.domOn, hsent.power, hsent.mem, hsent.bursts, bind_apg_same s _ _ _ hk4]
      have hframe := ofApgs_bind s (fld d.bytes 20 1) (bindEnt d.bytes) bs
      exact ⟨rfl, rfl, rfl, bind_domOn _ _ _ _, fun j hne hj => bind_unbinds_others _ _ _ _ hj hne, finish_desc _ _ _ _,
        hframe.mem, hframe.bursts⟩
    · rw [doBindApg_unbinds hd h hk hb]
      have hframe := ofApgs_unbindEnt s (bindEnt d.bytes) none
      have hsent := sends_finish (s.unbindEnt (bindEnt d.bytes) none) sq idx St.ok
      exact ⟨rfl, hsent.mem.trans hframe.mem, hsent.bursts.trans hframe.bursts⟩
  · refine ⟨_, congrArg Host.Outcome.next (doDeferredBindApg_turn hd hw hb), fun h => ?_, fun h => ?_⟩
    · rw [if_pos h]
      exact ⟨rfl, (sends_finish _ _ _ _).apgs⟩
    · rw [if_neg (not_not.mpr h)]
      exact ⟨rfl, bindTurn_mem _ _ _⟩

end Sys2Proof.Machine
end

