-- ==== Sys2Proof/Proofs/UnitFailures.lean ====
section
namespace Sys2Proof.Machine

/-! SUPPORT. A failed memory channel under repair (R461, R548, R550): Paddock places the tasks that the repair had held back, which a mere
retirement of the channel does not; and the statement that says otherwise. -/

/-! ### A channel's retirement places no task -/

@[simp] theorem foldl_paddock {β : Type} {f : State → β → State} (h : ∀ a x, (f a x).paddock = a.paddock) (l : List β) (s : State) :
    (l.foldl f s).paddock = s.paddock := foldl_keep State.paddock f h l s

@[simp] theorem mirror_paddock (s : State) (i : MItem) : (s.mirror i).paddock = s.paddock := by
  obtain ⟨_, _, _, h⟩ := mirror_eq s i
  rw [h]

@[simp] theorem degrade_paddock (s : State) (kind island unit : Nat) : (s.degrade kind island unit).paddock = s.paddock := by
  obtain ⟨_, _, _, _, h⟩ := degrade_eq s kind island unit
  rw [h]

@[simp] theorem loseObjects_paddock (s : State) (m : Nat) : (s.loseObjects m).paddock = s.paddock := by
  unfold State.loseObjects
  simp [State.dropLinks, State.freeCopies]

theorem retireChannel_paddock (s : State) (m : Nat) : (s.retireChannel m).paddock = s.paddock := by
  have hcut (l : List Nat) (u : State) : (l.foldl (fun s g => s.cutSlice g 0 St.hwFault) u).paddock = u.paddock :=
    foldl_paddock (f := fun s g => s.cutSlice g 0 St.hwFault) (fun _ _ => rfl) l u
  unfold State.retireChannel
  split
  · rfl
  · simp [hcut, State.placementChanged]

/-! ### A channel that fails under repair -/

/-- Every memory channel is live and channel 7 under repair, core 0 is powered and idle, and task 0 is READY. -/
def repairingState : State :=
  ({ State.reset with
    power := { dom := 2 ^ 60 }
    mcs := State.reset.mcs.modify 7 (fun c => { c with repair := some (0, 0) })
    paddock := { State.reset.paddock with tasks := [(0, { flow := 0, step := 0 })] } } : State).setRf F.CAPS_LIVE_MC_LIVE [] 0xFF

theorem repairingState_live : repairingState.mcLive 7 = true := by decide +kernel

/-- Retirement ends the repair, and Paddock then gives the READY task to core 0, whichever of its two DETAILs the failure has. -/
theorem repairingState_dispatches : ∀ d ∈ [2, 3],
    ((((repairingState.draw.report 21 20 0 d).retireChannel 7).dispatch).fslot 0).buf = some 0 := by decide +kernel

theorem repairingState_failure : ((doMemoryChannelFailure 7 repairingState).fslot 0).buf = some 0 := by
  have hdetail : 2 + Config.freeValue repairingState.freeCtr % 2 ∈ [2, 3] := by
    rcases Nat.mod_two_eq_zero_or_one (Config.freeValue repairingState.freeCtr) with h | h <;> simp [h]
  rw [doMemoryChannelFailure, if_pos repairingState_live]
  exact repairingState_dispatches _ hdetail

/-- Refutes O18, by its clause on memory channels: the state after a failure is that of the retirement with Paddock's tasks placed again,
and where the channel was under repair a READY task gets a core that the retirement alone leaves without one. -/
theorem not_unitsFail : ¬ Obligations.UnitsFail := by
  rintro ⟨-, -, hchannel, -⟩
  obtain ⟨t, d, hexec, -, ht, -⟩ := hchannel repairingState 7 repairingState_live
  have hrun : doMemoryChannelFailure 7 repairingState = t := Host.Outcome.next.inj hexec
  have hplaced : (t.fslot 0).buf = some 0 := hrun ▸ repairingState_failure
  have hsame : t.paddock = repairingState.paddock := (congrArg State.paddock ht).trans (retireChannel_paddock _ 7)
  have hempty : (t.fslot 0).buf = none := by
    rw [State.fslot, hsame]
    decide +kernel
  rw [hempty] at hplaced
  cases hplaced

end Sys2Proof.Machine
end

