-- ==== Sys2Proof/Proofs/AdcPorts.lean ====
section
namespace Sys2Proof.Machine

/-! SUPPORT. How an ADC port aligns, loses FCLK and finds it again, and what a write of FCHAIN_kk_CTL takes (R341, R342, R344, R346, R374,
R375), and the statement about them. -/

/-! ### Runs of right steps (R342) -/

/-- A run lies within the 32 steps, and every step of it is right. -/
theorem alignRuns_run {m i len : Nat} (h : (i, len) ∈ alignRuns m) : i + len ≤ 32 ∧ ∀ j < len, m.testBit (i + j) = true := by
  simp only [alignRuns, List.mem_map, List.mem_filter, List.mem_range, Prod.mk.injEq] at h
  obtain ⟨x, ⟨hx, -⟩, rfl, rfl⟩ := h
  have hpre := List.takeWhile_prefix (fun j => decide (x + j < 32) && m.testBit (x + j)) (l := List.range (32 - x))
  refine ⟨?_, fun j hj => ?_⟩
  · have hle := hpre.length_le
    rw [List.length_range] at hle
    omega
  · have hget := hpre.getElem hj
    rw [List.getElem_range] at hget
    have hright := List.mem_takeWhile_imp (List.getElem_mem hj)
    rw [hget, Bool.and_eq_true] at hright
    exact hright.2

/-- The length of a longest run of a mask. -/
def longestRun (m : Nat) : Nat := ((alignRuns m).map (·.2)).foldl max 0

theorem longestRun_eq (m : Nat) : longestRun m = ((alignRuns m).map (·.2)).max?.getD 0 := by
  rw [longestRun, List.foldl_max, Nat.zero_max]

theorem le_longestRun {m : Nat} {r : Nat × Nat} (h : r ∈ alignRuns m) : r.2 ≤ longestRun m := by
  rw [longestRun_eq]
  exact List.le_max?_getD_of_mem (List.mem_map_of_mem h)

theorem exists_longestRun {m : Nat} (h : longestRun m ≠ 0) : ∃ r ∈ alignRuns m, r.2 = longestRun m := by
  rw [longestRun_eq] at h ⊢
  cases hmax : ((alignRuns m).map (·.2)).max? with
  | none => exact absurd (by rw [hmax]; rfl) h
  | some x => exact List.mem_map.mp (List.max?_mem hmax)

/-- The longest runs of a mask. -/
def longestRuns (m : Nat) : List (Nat × Nat) := (alignRuns m).filter (fun r => r.2 = longestRun m)

/-- The step that is taken in a run: a middle one. -/
def middleStep (r : Nat × Nat) (free : Nat) : Nat := r.1 + (r.2 - 1) / 2 + if r.2 % 2 = 0 then free % 2 else 0

theorem phaseStep_eq (m free : Nat) : phaseStep m free = (longestRuns m)[free / 2 % max 1 (longestRuns m).length]?.bind
    (fun r => if r.2 < 8 then none else some (middleStep r free)) := by
  simp only [phaseStep]
  change (match (longestRuns m)[free / 2 % max 1 (longestRuns m).length]? with
    | some (i, len) => if len < 8 then none else some (i + (len - 1) / 2 + if len % 2 = 0 then free % 2 else 0)
    | none => none) = _
  cases (longestRuns m)[free / 2 % max 1 (longestRuns m).length]? <;> rfl


/-- The step taken is a middle one of a longest run, which has 8 steps or more. -/
theorem phaseStep_some {m free d : Nat} (h : phaseStep m free = some d) :
    ∃ r ∈ alignRuns m, r.2 = longestRun m ∧ 8 ≤ r.2 ∧ d = middleStep r free := by
  rw [phaseStep_eq] at h
  obtain ⟨r, hr, hd⟩ := Option.bind_eq_some_iff.mp h
  obtain ⟨hmem, hlen⟩ := List.mem_filter.mp (List.mem_of_getElem? hr)
  split at hd
  · cases hd
  next hlong => exact ⟨r, hmem, of_decide_eq_true hlen, Nat.le_of_not_lt hlong, (Option.some.inj hd).symm⟩

theorem phaseStep_of_run {m : Nat} (h : ∃ r ∈ alignRuns m, 8 ≤ r.2) (free : Nat) : ∃ d, phaseStep m free = some d := by
  obtain ⟨r, hr, hlong⟩ := h
  have hbest : 8 ≤ longestRun m := hlong.trans (le_longestRun hr)
  have hpos : 0 < (longestRuns m).length := by
    obtain ⟨x, hx, hxlen⟩ := exists_longestRun (m := m) (by omega)
    exact List.length_pos_of_mem (List.mem_filter.mpr ⟨hx, decide_eq_true hxlen⟩)
  have hidx : free / 2 % max 1 (longestRuns m).length < (longestRuns m).length := by
    rw [Nat.max_eq_right hpos]
    exact Nat.mod_lt _ hpos
  have hlen := of_decide_eq_true (List.mem_filter.mp (List.getElem_mem hidx)).2
  exact ⟨_, by rw [phaseStep_eq, List.getElem?_eq_getElem hidx]; exact if_neg (by omega)⟩

theorem phaseStep_of_short {m : Nat} (h : ∀ r ∈ alignRuns m, r.2 < 8) (free : Nat) : phaseStep m free = none := by
  cases hd : phaseStep m free with
  | none => rfl
  | some d =>
    obtain ⟨r, hr, -, hlong, -⟩ := phaseStep_some hd
    exact absurd (h r hr) (Nat.not_lt.mpr hlong)

/-- A middle step of a run. -/
theorem middleStep_bounds (r : Nat × Nat) (free : Nat) (h : 0 < r.2) :
    r.1 ≤ middleStep r free ∧ 2 * (middleStep r free - r.1) ≤ r.2 ∧ r.2 ≤ 2 * (middleStep r free - r.1) + 2 := by
  unfold middleStep
  split <;> omega

theorem phaseStep_lt {m free d : Nat} (h : phaseStep m free = some d) : d < 32 := by
  obtain ⟨r, hr, -, hlong, rfl⟩ := phaseStep_some h
  obtain ⟨hle, hhalf, -⟩ := middleStep_bounds r free (by omega)
  have hin := (alignRuns_run hr).1
  omega

/-! ### Offsets of the registers -/

/-- No register of a filter chain is CL_n_ADC_STAT. -/
theorem fchain_off_ne_clAdcStat (n k : Nat) : F.FCHAIN_CTL_EN.off (cIdx k) ≠ F.CL_ADC_STAT_DLY0.off [n] := by
  simp only [RF.off, strideOff, F.FCHAIN_CTL_EN, F.CL_ADC_STAT_DLY0, cIdx]
  omega

/-! ### A window that restarts (R344) -/

theorem nChain_le (s : State) : s.nChain ≤ 24 := by
  unfold State.nChain
  split <;> decide

section
variable (s : State) {k : Nat}

theorem restartWin_chain_same (hk : k < s.chains.length) :
    (s.restartWin k).chain k = { s.chain k with win := [], fill := s.cf F.FCHAIN_CTL_LEN_M1 k + 1, env := 0, n := 0 } :=
  upChain_chain_same _ _ _ hk

theorem restartWin_chain_ne {j : Nat} (h : j ≠ k) : (s.restartWin k).chain j = s.chain j := upChain_chain_ne _ _ h

theorem restartWin_rf (f : RF) (i : List Nat) : (s.restartWin k).rf f i = s.rf f i := rfl

theorem restartWin_port (j : Nat) : (s.restartWin k).port j = s.port j := rfl

theorem restartWin_chains_length : (s.restartWin k).chains.length = s.chains.length := List.length_modify ..

/-- The windows of both chains of a port restart. -/
theorem restartWins_chain_same {n : Nat} (hk : k / 2 = n) (hl : k < s.chains.length) :
    (((s.restartWin (2 * n)).restartWin (2 * n + 1)).chain k).win = [] ∧
      (((s.restartWin (2 * n)).restartWin (2 * n + 1)).chain k).fill = s.cf F.FCHAIN_CTL_LEN_M1 k + 1 := by
  obtain rfl | rfl : k = 2 * n ∨ k = 2 * n + 1 := by omega
  · rw [restartWin_chain_ne _ (by omega), restartWin_chain_same (k := 2 * n) _ hl]
    exact ⟨rfl, rfl⟩
  · rw [restartWin_chain_same (k := 2 * n + 1) _ (by rw [restartWin_chains_length]; exact hl)]
    exact ⟨rfl, rfl⟩

theorem restartWins_chain_ne {n : Nat} (hk : k / 2 ≠ n) : ((s.restartWin (2 * n)).restartWin (2 * n + 1)).chain k = s.chain k := by
  rw [restartWin_chain_ne _ (by omega), restartWin_chain_ne _ (by omega)]
end

/-! ### CL_n_ADC_CFG (R342, R372) -/

/-- A register written, whole, by the rules of its fields: nothing else has changed but a held low half and L1 (R18, R483). -/
theorem busFields_facts {s u : State} {off : Nat} {v : W64} (h : u = ({ s with held := none } : State).hostAccess.writeFields off v) :
    (∀ o, o ≠ off → u.reg o = s.reg o) ∧ { u with regs := s.regs, held := s.held, host := s.host } = s ∧
      u.host = s.hostAccess.host := by
  subst h
  refine ⟨fun o ho => writeFields_reg_ne _ _ ho, ?_⟩
  obtain ⟨g, e⟩ := writeFields_eq ({ s with held := none } : State).hostAccess off v
  rw [e]
  exact ⟨rfl, rfl⟩

theorem doAdcAlign_eq {s : State} {n : Nat} (hn : n < s.nCl) (v : W64) : doAdcAlign n v s =
    if (s.writeFields (F.CL_ADC_CFG_EN.off [n]) v).rb F.CL_ADC_CFG_EN [n] && v.toNat.testBit 2 then
      (s.writeFields (F.CL_ADC_CFG_EN.off [n]) v).upPort n (fun p => { p with aligning := true, aligned := false })
    else s.writeFields (F.CL_ADC_CFG_EN.off [n]) v := if_neg (Nat.not_le.mpr hn)

/-! ### The end of a search (R342) -/

/-- The port with the steps of its two lanes, in service while FCLK is there. -/
def State.alignPort (s : State) (n d0 d1 : Nat) : State :=
  ((s.upPort n (fun p => { p with aligning := false, aligned := p.lock })).setRf F.CL_ADC_STAT_DLY0 [n] d0).setRf F.CL_ADC_STAT_DLY1 [n] d1

section
variable (s : State) (n d0 d1 : Nat)

theorem alignPort_port_same (hn : n < s.ports.length) :
    (s.alignPort n d0 d1).port n = { s.port n with aligning := false, aligned := (s.port n).lock } := upPort_port_same s n _ hn

theorem alignPort_port_ne {j : Nat} (hj : j ≠ n) : (s.alignPort n d0 d1).port j = s.port j := upPort_port_ne s _ hj

theorem alignPort_cf (k : Nat) : (s.alignPort n d0 d1).cf F.FCHAIN_CTL_LEN_M1 k = s.cf F.FCHAIN_CTL_LEN_M1 k :=
  (rf_setRf_ne _ F.CL_ADC_STAT_DLY1 F.FCHAIN_CTL_LEN_M1 _ _ _ (fchain_off_ne_clAdcStat n k)).trans
    (rf_setRf_ne _ F.CL_ADC_STAT_DLY0 F.FCHAIN_CTL_LEN_M1 _ _ _ (fchain_off_ne_clAdcStat n k))

theorem alignPort_dly0 : (s.alignPort n d0 d1).rf F.CL_ADC_STAT_DLY0 [n] = d0 % 32 :=
  (rf_setRf_disjoint _ F.CL_ADC_STAT_DLY1 F.CL_ADC_STAT_DLY0 _ _ _ rfl (by decide) (by decide)).trans (rf_setRf_same _ _ _ _ (by decide))

theorem alignPort_dly1 : (s.alignPort n d0 d1).rf F.CL_ADC_STAT_DLY1 [n] = d1 % 32 := rf_setRf_same _ _ _ _ (by decide)
end

section
variable {s : State} {n m0 m1 t : Nat} (ha : (s.port n).aligning = true)
include ha

/-- A search that finds both steps puts the port in service, and both chains' windows restart. -/
theorem doAdcAlignmentComplete_found {d0 d1 : Nat} (h0 : phaseStep m0 (Config.freeValue s.freeCtr) = some d0)
    (h1 : phaseStep m1 (Config.freeValue (s.freeCtr + 1)) = some d1) :
    doAdcAlignmentComplete n m0 m1 t s =
      (((s.at t).draw.draw.alignPort n d0 d1).restartWin (2 * n)).restartWin (2 * n + 1) := by
  have ha' : ((s.at t).port n).aligning = true := ha
  have h0' : phaseStep m0 (Config.freeValue (s.at t).freeCtr) = some d0 := h0
  have h1' : phaseStep m1 (Config.freeValue ((s.at t).freeCtr + 1)) = some d1 := h1
  simp only [doAdcAlignmentComplete, ha', h0', h1', Bool.not_true, Bool.false_eq_true, if_false]
  rfl

theorem doAdcAlignmentComplete_fails (h : phaseStep m0 (Config.freeValue s.freeCtr) = none ∨
      phaseStep m1 (Config.freeValue (s.freeCtr + 1)) = none) :
    doAdcAlignmentComplete n m0 m1 t s = ((s.at t).draw.draw.upPort n (fun p => { p with aligning := false, aligned := false })).setRf
      F.CL_ADC_STAT_ALIGN_FAIL [n] 1 := by
  have ha' : ((s.at t).port n).aligning = true := ha
  have h' : phaseStep m0 (Config.freeValue (s.at t).freeCtr) = none ∨ phaseStep m1 (Config.freeValue ((s.at t).freeCtr + 1)) = none := h
  unfold doAdcAlignmentComplete
  simp only [ha', Bool.not_true, Bool.false_eq_true, if_false]
  split
  next d0 d1 h0 h1 =>
    rw [h0, h1] at h'
    rcases h' with h' | h' <;> cases h'
  · rfl
end

/-! ### FCLK (R342) -/

/-- A port that has lost FCLK, before that is reported. -/
def State.dropFclk (s : State) (n : Nat) : State :=
  (s.upPort n (fun p => { p with lock := false, aligned := false, aligning := false, last := none })).setRf F.CL_ADC_STAT_LOSS [n] 1

/-- The same, reported for both chains. -/
def State.loseFclk (s : State) (n : Nat) : State := ((s.dropFclk n).onset 13 n 0 1).onset 13 n 1 1

theorem loseFclk_eq (s : State) (n : Nat) : ∃ c, s.loseFclk n = { s.dropFclk n with collector := c } := by
  obtain ⟨c, h⟩ := onset_eq (s.dropFclk n) 13 n 0 1
  obtain ⟨e, h'⟩ := onset_eq ((s.dropFclk n).onset 13 n 0 1) 13 n 1 1
  exact ⟨e, by rw [State.loseFclk, h', h]⟩

theorem loseFclk_live (s : State) (n : Nat) :
    (13, n, 0) ∈ (s.loseFclk n).collector.live ∧ (13, n, 1) ∈ (s.loseFclk n).collector.live :=
  ⟨(onset_live_ne _ _ _ _ _ (by simp)).mpr (onset_live _ _ _ _ _), onset_live _ _ _ _ _⟩

theorem doFclkLoss_silent {s : State} {n t : Nat} (hl : (s.port n).lock = true) (hu : s.islUp n = true) (hs : (s.port n).silent t = true) :
    doFclkLoss n t s = ((((s.at t).loseFclk n).acqs.filter (fun a => a.running && (a.chains.testBit (2 * n) ||
      a.chains.testBit (2 * n + 1)))).map Acq.site).foldl (fun s i => s.stopAcq i St.hwFault t) ((s.at t).loseFclk n) :=
  if_neg (by simp [hl, hu, hs])

/-- FCLK that has been there within four periods is not lost. -/
theorem not_silent_of_recent {p : Port} {l t : Nat} (hl : p.last = some l) (hp : p.period ≠ 0) (ht : 1000 * t < 250 * l + 4 * p.period) :
    p.silent t = false := by
  simp [Port.silent, hl, hp, ht]

theorem doFclkReturn_locks {s : State} {n t : Nat} (hl : (s.port n).lock = false) (hu : s.islUp n = true)
    (he : s.rb F.CL_ADC_CFG_EN [n] = true) :
    doFclkReturn n t s = (((s.at t).upPort n (fun p => { p with lock := true })).condOff 13 n 0).condOff 13 n 1 :=
  if_neg (by simp [hl, hu, he])

/-! ### FCHAIN_kk_CTL (R344, R346, R375) -/

/-- The fields of FCHAIN_kk_CTL that a write sets, each with the values that it takes. -/
def chainRules : List (RF × (Nat → Bool)) :=
  [(F.FCHAIN_CTL_EN, fun _ => true), (F.FCHAIN_CTL_DCMODE, (· ≠ 3)), (F.FCHAIN_CTL_FREEZE_BURST, fun _ => true),
    (F.FCHAIN_CTL_DCK, fun x => 4 ≤ x && x ≤ 24), (F.FCHAIN_CTL_SELFTEST, fun _ => true), (F.FCHAIN_CTL_FORCE_MM, fun _ => true),
    (F.FCHAIN_CTL_TRIP_EN, fun _ => true), (F.FCHAIN_CTL_LEN_M1, fun _ => true), (F.FCHAIN_CTL_DET, fun _ => true),
    (F.FCHAIN_CTL_DEC_LOG2, (· ≤ 20)), (F.FCHAIN_CTL_ENV_K, fun x => 1 ≤ x && x ≤ 20), (F.FCHAIN_CTL_HYST, fun _ => true)]

/-- Two fields of one register lie apart in it. -/
def RF.beside (f g : RF) : Prop :=
  f.base = g.base ∧ f.st = g.st ∧ f.lo + f.w ≤ 64 ∧ g.lo + g.w ≤ 64 ∧ (f.lo + f.w ≤ g.lo ∨ g.lo + g.w ≤ f.lo)

theorem RF.beside.symm {f g : RF} (h : f.beside g) : g.beside f := by
  obtain ⟨hbase, hst, hf, hg, hapart⟩ := h
  exact ⟨hbase.symm, hst.symm, hg, hf, hapart.symm⟩

theorem rf_setRf_beside {s : State} {f g : RF} (h : f.beside g) (i : List Nat) (x : Nat) : (s.setRf f i x).rf g i = s.rf g i := by
  obtain ⟨hbase, hst, hf, -, hapart⟩ := h
  exact rf_setRf_disjoint s f g i i x (by rw [RF.off, RF.off, hbase, hst]) hf hapart

/-- The fields of FCHAIN_kk_CTL lie apart in it. -/
theorem chainRules_beside : (chainRules.map Prod.fst).Pairwise RF.beside := by
  unfold chainRules RF.beside
  decide

/-- The state once a write has set a field, if its value is legal. -/
def State.takeField (s : State) (k : Nat) (v : W64) (p : RF × (Nat → Bool)) : State :=
  if p.2 (fget v p.1.lo p.1.w) then s.setRf p.1 (cIdx k) (fget v p.1.lo p.1.w) else s

/-- The state once it has set those of a list, the last one first. -/
def State.takeFields (s : State) (k : Nat) (v : W64) (l : List (RF × (Nat → Bool))) : State := l.foldr (fun p s => s.takeField k v p) s

theorem takeFields_cf_beside {s : State} {k : Nat} {v : W64} {g : RF} {l : List (RF × (Nat → Bool))} (h : ∀ p ∈ l, p.1.beside g) :
    (s.takeFields k v l).cf g k = s.cf g k := by
  induction l with
  | nil => rfl
  | cons p l ih =>
    obtain ⟨hp, hl⟩ := List.forall_mem_cons.mp h
    exact ite_keep (State.cf · g k) ((rf_setRf_beside hp _ _).trans (ih hl)) (ih hl)

/-- Of fields that lie apart each takes its value, if that is legal. -/
theorem takeFields_cf {s : State} {k : Nat} {v : W64} {l : List (RF × (Nat → Bool))} (hl : (l.map Prod.fst).Pairwise RF.beside)
    {f : RF} {ok : Nat → Bool} (hf : (f, ok) ∈ l) (hw : f.lo + f.w ≤ 64) :
    (s.takeFields k v l).cf f k = if ok (fget v f.lo f.w) then fget v f.lo f.w else s.cf f k := by
  induction l with
  | nil => cases hf
  | cons p l ih =>
    obtain ⟨hp, hrest⟩ := List.pairwise_cons.mp hl
    rcases List.mem_cons.mp hf with rfl | hf
    · have hold := takeFields_cf_beside (s := s) (k := k) (v := v) (g := f) (l := l) fun q hq => (hp q.1 (List.mem_map_of_mem hq)).symm
      refine (apply_ite (State.cf · f k) _ _ _).trans ?_
      exact ite_congr rfl (fun _ => (rf_setRf_same _ f _ _ hw).trans (Nat.mod_eq_of_lt (fget_lt _ _ _))) (fun _ => hold)
    · exact ite_keep (State.cf · f k) ((rf_setRf_beside (hp f (List.mem_map_of_mem hf)) _ _).trans (ih hrest hf)) (ih hrest hf)

/-- A state that differs from another in one register alone. -/
def SetsReg (s t : State) (off : Nat) : Prop := (∃ g, t = { s with regs := g }) ∧ ∀ o, o ≠ off → t.reg o = s.reg o

theorem SetsReg.refl (s : State) (off : Nat) : SetsReg s s off := ⟨⟨_, rfl⟩, fun _ _ => rfl⟩

theorem SetsReg.trans {a b c : State} {off : Nat} (h : SetsReg a b off) (g : SetsReg b c off) : SetsReg a c off := by
  obtain ⟨⟨_, rfl⟩, hab⟩ := h
  obtain ⟨⟨_, rfl⟩, hbc⟩ := g
  exact ⟨⟨_, rfl⟩, fun o ho => (hbc o ho).trans (hab o ho)⟩

theorem setsReg_setRf (s : State) {f : RF} {i : List Nat} {off : Nat} (h : f.off i = off) (x : Nat) : SetsReg s (s.setRf f i x) off :=
  ⟨⟨_, rfl⟩, fun _ ho => reg_setRf_ne s f i x (h.symm ▸ ho)⟩

theorem setsReg_takeFields (s : State) (k : Nat) (v : W64) {off : Nat} {l : List (RF × (Nat → Bool))}
    (h : ∀ f ∈ l.map Prod.fst, f.off (cIdx k) = off) : SetsReg s (s.takeFields k v l) off := by
  induction l with
  | nil => exact .refl s off
  | cons p l ih =>
    obtain ⟨hp, hl⟩ := List.forall_mem_cons.mp h
    have hrest := ih hl
    unfold State.takeFields State.takeField at *
    rw [List.foldr_cons]
    split
    · exact hrest.trans (setsReg_setRf _ hp _)
    · exact hrest

theorem chainRules_off (k : Nat) : ∀ f ∈ chainRules.map Prod.fst, f.off (cIdx k) = F.FCHAIN_CTL_EN.off (cIdx k) := by
  have hplace : ∀ f ∈ chainRules.map Prod.fst, f.base = F.FCHAIN_CTL_EN.base ∧ f.st = F.FCHAIN_CTL_EN.st := by
    unfold chainRules
    decide
  intro f hf
  obtain ⟨hbase, hst⟩ := hplace f hf
  rw [RF.off, RF.off, hbase, hst]

/-- LEN_M1 and DEC_LOG2 of a preset (R346). -/
def presetOf : Nat → Option (Nat × Nat)
  | 1 => some (15, 2)
  | 2 => some (127, 5)
  | 3 => some (1023, 8)
  | 4 => some (4095, 10)
  | _ => none

theorem presetOf_reserved {p : Nat} (h : p = 0 ∨ 4 < p) : presetOf p = none := by
  match p with
  | 0 | _ + 5 => rfl
  | 1 | 2 | 3 | 4 => omega

/-- The state with a preset in force, where there is one. -/
def State.takePreset (s : State) (k : Nat) (p : Option (Nat × Nat)) : State := match p with
  | some (len, dec) => (s.setRf F.FCHAIN_CTL_LEN_M1 (cIdx k) len).setRf F.FCHAIN_CTL_DEC_LOG2 (cIdx k) dec
  | none => s

/-- The state in which a chain that has just been enabled, from s, has no DC estimate and a new test signal, and one whose self-test has
just begun a new test signal. -/
def State.chainRises (u s : State) (k : Nat) : State :=
  let u1 := if s.cf F.FCHAIN_CTL_EN k = 0 && u.cf F.FCHAIN_CTL_EN k = 1 then u.upChain k (fun c => { c with m := none, test := 0 }) else u
  if s.cf F.FCHAIN_CTL_SELFTEST k = 0 && u1.cf F.FCHAIN_CTL_SELFTEST k = 1 then u1.upChain k (fun c => { c with test := 0 }) else u1

/-- The state once a write has set the register's fields. -/
def State.chainCtlSet (s : State) (k : Nat) (v : W64) : State :=
  (s.takeFields k v chainRules).takePreset k (presetOf (fget v F.FCHAIN_CTL_PRESET.lo 3))

theorem writeChainCtl_eq (s : State) (k : Nat) (v : W64) : s.writeChainCtl k v = ((s.chainCtlSet k v).chainRises s k).restartWin k := by
  unfold State.writeChainCtl State.chainCtlSet
  generalize fget v F.FCHAIN_CTL_PRESET.lo 3 = p
  match p with
  | 0 | 1 | 2 | 3 | 4 | _ + 5 => rfl

theorem setsReg_takePreset (s : State) (k : Nat) (p : Option (Nat × Nat)) :
    SetsReg s (s.takePreset k p) (F.FCHAIN_CTL_EN.off (cIdx k)) := by
  unfold State.takePreset
  split
  · exact (setsReg_setRf s (f := F.FCHAIN_CTL_LEN_M1) rfl _).trans (setsReg_setRf _ (f := F.FCHAIN_CTL_DEC_LOG2) rfl _)
  · exact .refl _ _

theorem setsReg_chainCtlSet (s : State) (k : Nat) (v : W64) : SetsReg s (s.chainCtlSet k v) (F.FCHAIN_CTL_EN.off (cIdx k)) :=
  (setsReg_takeFields s k v (chainRules_off k)).trans (setsReg_takePreset _ _ _)

theorem takePreset_cf_en (s : State) (k : Nat) (p : Option (Nat × Nat)) :
    (s.takePreset k p).cf F.FCHAIN_CTL_EN k = s.cf F.FCHAIN_CTL_EN k := by
  unfold State.takePreset
  split
  · exact (rf_setRf_beside (f := F.FCHAIN_CTL_DEC_LOG2) (by unfold RF.beside; decide) _ _).trans
      (rf_setRf_beside (f := F.FCHAIN_CTL_LEN_M1) (by unfold RF.beside; decide) _ _)
  · rfl

theorem chainCtlSet_en (s : State) (k : Nat) (v : W64) :
    (s.chainCtlSet k v).cf F.FCHAIN_CTL_EN k = fget v F.FCHAIN_CTL_EN.lo F.FCHAIN_CTL_EN.w :=
  (takePreset_cf_en _ _ _).trans (takeFields_cf (ok := fun _ => true) chainRules_beside List.mem_cons_self (by decide))

/-- Without a preset LEN_M1 is as written, and DEC_LOG2 where that is legal. -/
theorem chainCtlSet_plain {s : State} {k : Nat} {v : W64} (h : presetOf (fget v F.FCHAIN_CTL_PRESET.lo 3) = none) :
    (s.chainCtlSet k v).cf F.FCHAIN_CTL_LEN_M1 k = fget v F.FCHAIN_CTL_LEN_M1.lo F.FCHAIN_CTL_LEN_M1.w ∧
    (s.chainCtlSet k v).cf F.FCHAIN_CTL_DEC_LOG2 k = if decide (fget v F.FCHAIN_CTL_DEC_LOG2.lo F.FCHAIN_CTL_DEC_LOG2.w ≤ 20) = true then
      fget v F.FCHAIN_CTL_DEC_LOG2.lo F.FCHAIN_CTL_DEC_LOG2.w else s.cf F.FCHAIN_CTL_DEC_LOG2 k := by
  rw [State.chainCtlSet, h]
  exact ⟨takeFields_cf (ok := fun _ => true) chainRules_beside (List.mem_of_getElem? (i := 7) rfl) (by decide),
    takeFields_cf (ok := (· ≤ 20)) chainRules_beside (List.mem_of_getElem? (i := 9) rfl) (by decide)⟩

theorem chainCtlSet_preset {s : State} {k : Nat} {v : W64} {len dec : Nat}
    (h : presetOf (fget v F.FCHAIN_CTL_PRESET.lo 3) = some (len, dec)) :
    (s.chainCtlSet k v).cf F.FCHAIN_CTL_LEN_M1 k = len % 2 ^ 12 ∧ (s.chainCtlSet k v).cf F.FCHAIN_CTL_DEC_LOG2 k = dec % 2 ^ 5 := by
  rw [State.chainCtlSet, h]
  exact ⟨(rf_setRf_beside (f := F.FCHAIN_CTL_DEC_LOG2) (by unfold RF.beside; decide) _ _).trans (rf_setRf_same _ _ _ _ (by decide)),
    rf_setRf_same _ _ _ _ (by decide)⟩

/-- A chain that rises is the only one that changes. -/
theorem rechained_chainRises (u s : State) (k : Nat) : Rechained u (u.chainRises s k) := by
  unfold State.chainRises
  extract_lets u1
  have h1 : Rechained u u1 := by
    unfold u1
    split
    · exact rechained_upChain _ _ _
    · exact .refl u
  split
  · exact h1.trans (rechained_upChain _ _ _)
  · exact h1

theorem chainRises_chain_ne (u s : State) {k j : Nat} (h : j ≠ k) : (u.chainRises s k).chain j = u.chain j := by
  unfold State.chainRises
  have hup (a : State) (f : FChain → FChain) : (a.upChain k f).chain j = a.chain j := upChain_chain_ne a f h
  extract_lets u1
  have h1 : u1.chain j = u.chain j := ite_keep (State.chain · j) (hup _ _) rfl
  exact ite_keep (State.chain · j) ((hup _ _).trans h1) h1

/-- A chain that is enabled has no DC estimate (R343). -/
theorem chainRises_m {u s : State} {k : Nat} (hk : k < u.chains.length) (h0 : s.cf F.FCHAIN_CTL_EN k = 0)
    (h1 : u.cf F.FCHAIN_CTL_EN k = 1) :
    ((u.chainRises s k).chain k).m = none := by
  have hm : ((u.upChain k (fun c => { c with m := none, test := 0 })).chain k).m = none :=
    congrArg FChain.m (upChain_chain_same u k _ hk)
  unfold State.chainRises
  simp only [h0, h1, decide_true, Bool.and_self, if_true]
  split
  · rw [upChain_chain_same _ _ _ (by rw [upChain_chains, List.length_modify]; exact hk)]
    exact hm
  · exact hm

/-- A write of FCHAIN_kk_CTL touches that register and the chain alone. -/
theorem writeChainCtl_facts (s : State) (k : Nat) (v : W64) :
    (∃ g l, s.writeChainCtl k v = { s with regs := g, chains := l }) ∧ (s.writeChainCtl k v).regs = (s.chainCtlSet k v).regs ∧
      ∀ j, j ≠ k → (s.writeChainCtl k v).chain j = s.chain j := by
  obtain ⟨⟨g, hg⟩, -⟩ := setsReg_chainCtlSet s k v
  obtain ⟨l, -, hl⟩ := (rechained_chainRises (s.chainCtlSet k v) s k).trans (rechained_upChain _ k
    (fun c => { c with win := [], fill := ((s.chainCtlSet k v).chainRises s k).cf F.FCHAIN_CTL_LEN_M1 k + 1, env := 0, n := 0 }))
  have he : s.writeChainCtl k v = { s.chainCtlSet k v with chains := l } := (writeChainCtl_eq s k v).trans hl
  refine ⟨⟨g, l, by rw [he, hg]⟩, by rw [he], fun j hj => ?_⟩
  rw [writeChainCtl_eq, restartWin_chain_ne _ hj, chainRises_chain_ne _ _ hj, hg]
  rfl

/-- The chain after such a write: its window is empty, and once it is enabled it has no DC estimate (R343, R344, R347). -/
theorem writeChainCtl_chain {s : State} {k : Nat} (hk : k < s.chains.length) (v : W64) :
    ((s.writeChainCtl k v).chain k).win = [] ∧
    ((s.writeChainCtl k v).chain k).fill = (s.chainCtlSet k v).cf F.FCHAIN_CTL_LEN_M1 k + 1 ∧ ((s.writeChainCtl k v).chain k).n = 0 ∧
    ((s.writeChainCtl k v).chain k).env = 0 ∧ (s.cf F.FCHAIN_CTL_EN k = 0 → (s.chainCtlSet k v).cf F.FCHAIN_CTL_EN k = 1 →
      ((s.writeChainCtl k v).chain k).m = none) := by
  have hrises := rechained_chainRises (s.chainCtlSet k v) s k
  obtain ⟨⟨_, hset⟩, -⟩ := setsReg_chainCtlSet s k v
  have hlen : (s.chainCtlSet k v).chains.length = s.chains.length := by rw [hset]
  rw [writeChainCtl_eq, restartWin_chain_same _ (by rw [hrises.length, hlen]; exact hk)]
  exact ⟨rfl, congrArg (· + 1) (rf_congr hrises.regs _ _), rfl, rfl, fun h0 h1 => chainRises_m (hlen.symm ▸ hk) h0 h1⟩

/-- What the registers hold once such a write has taken its fields, or the preset in their place (R346, R375). -/
theorem writeChainCtl_fields (s : State) (k : Nat) (v : W64) :
    (s.writeChainCtl k v).cf F.FCHAIN_CTL_EN k = fget v F.FCHAIN_CTL_EN.lo F.FCHAIN_CTL_EN.w ∧
    (fget v F.FCHAIN_CTL_PRESET.lo 3 = 0 ∨ 4 < fget v F.FCHAIN_CTL_PRESET.lo 3 →
      (s.writeChainCtl k v).cf F.FCHAIN_CTL_LEN_M1 k = fget v F.FCHAIN_CTL_LEN_M1.lo F.FCHAIN_CTL_LEN_M1.w ∧
      (fget v F.FCHAIN_CTL_DEC_LOG2.lo F.FCHAIN_CTL_DEC_LOG2.w ≤ 20 →
        (s.writeChainCtl k v).cf F.FCHAIN_CTL_DEC_LOG2 k = fget v F.FCHAIN_CTL_DEC_LOG2.lo F.FCHAIN_CTL_DEC_LOG2.w) ∧
      (20 < fget v F.FCHAIN_CTL_DEC_LOG2.lo F.FCHAIN_CTL_DEC_LOG2.w →
        (s.writeChainCtl k v).cf F.FCHAIN_CTL_DEC_LOG2 k = s.cf F.FCHAIN_CTL_DEC_LOG2 k)) ∧
    ∀ p len dec, presetOf p = some (len, dec) → len < 2 ^ 12 → dec < 2 ^ 5 → fget v F.FCHAIN_CTL_PRESET.lo 3 = p →
      (s.writeChainCtl k v).cf F.FCHAIN_CTL_LEN_M1 k = len ∧ (s.writeChainCtl k v).cf F.FCHAIN_CTL_DEC_LOG2 k = dec := by
  obtain ⟨-, hregs, -⟩ := writeChainCtl_facts s k v
  have hset (f : RF) : (s.writeChainCtl k v).cf f k = (s.chainCtlSet k v).cf f k := rf_congr hregs _ _
  rw [hset, hset, hset]
  refine ⟨chainCtlSet_en s k v, fun hp => ?_, fun p len dec h hlen hdec hp => ?_⟩
  · obtain ⟨hlen, hdec⟩ := chainCtlSet_plain (s := s) (k := k) (presetOf_reserved hp)
    exact ⟨hlen, fun h => hdec.trans (if_pos (decide_eq_true h)), fun h => hdec.trans (if_neg (by simpa using h))⟩
  · obtain ⟨h1, h2⟩ := chainCtlSet_preset (s := s) (k := k) (hp ▸ h)
    exact ⟨h1.trans (Nat.mod_eq_of_lt hlen), h2.trans (Nat.mod_eq_of_lt hdec)⟩

/-- Settles O48: a write by the fields it takes, a search by the runs that its steps make, a port by how long FCLK has been silent. -/
theorem adcPortsAndChains : Obligations.AdcPortsAndChains := by
  refine ⟨fun s u n v hw hn ⟨_, _, _, _, _, _, hports, _⟩ hu => ?_,
    fun s n m0 m1 t0 ha hn ⟨_, _, _, _, _, _, hports, hchains, _⟩ => ⟨fun h0 h1 => ?_, fun h => ?_⟩, fun m free d h => ?_,
    fun s n t0 hl hup hn ⟨_, _, _, _, _, _, hports, _⟩ => ⟨fun hs => ?_, fun l hlast hp ht => ?_⟩,
    fun s n t0 hl hup he hn ⟨_, _, _, _, _, _, hports, _⟩ => ?_, fun s k v i hi hw hk ⟨_, _, _, _, _, _, _, hchains, _⟩ => ?_⟩
  · obtain ⟨hne, hframe, hhost⟩ := busFields_facts hu
    have hrun : exec (.adcAlign n v) s = .next (if u.rb F.CL_ADC_CFG_EN [n] && v.toNat.testBit 2 then
        u.upPort n (fun p => { p with aligning := true, aligned := false }) else u) := by
      rw [hu]
      exact congrArg Host.Outcome.next
        ((busWrite_of_writable hw).trans (doAdcAlign_eq (s := ({ s with held := none } : State).hostAccess) hn v))
    have huports : u.ports = s.ports := by rw [hu]; exact (writeFields_sends _ _ _).ports
    refine ⟨hne, hframe, hhost, fun he hv => ?_, fun h => ?_⟩
    · have hport (j : Nat) : u.port j = s.port j := by rw [State.port, huports, State.port]
      refine ⟨_, hrun.trans (by rw [he, hv]; rfl), ?_, fun j hj => (upPort_port_ne u _ hj).trans (hport j), ?_⟩
      · rw [upPort_port_same _ _ _ (by rw [huports, hports]; exact Nat.lt_of_lt_of_le hn (nCl_le s)), hport]
      · rw [← huports]
        rfl
    · exact hrun.trans (by rcases h with h | h <;> simp [h])
  · obtain ⟨d0, h0⟩ := phaseStep_of_run h0 (Config.freeValue s.freeCtr)
    obtain ⟨d1, h1⟩ := phaseStep_of_run h1 (Config.freeValue (s.freeCtr + 1))
    refine ⟨_, d0, d1, congrArg Host.Outcome.next (doAdcAlignmentComplete_found ha h0 h1), h0, h1, ?_, ?_, ?_, fun j hj => ?_,
      fun k hk => ?_, fun k hk => restartWins_chain_ne _ hk, rfl⟩
    · rw [restartWin_rf, restartWin_rf, alignPort_dly0]
      exact Nat.mod_eq_of_lt (phaseStep_lt h0)
    · rw [restartWin_rf, restartWin_rf, alignPort_dly1]
      exact Nat.mod_eq_of_lt (phaseStep_lt h1)
    · rw [restartWin_port, restartWin_port]
      have hn' : n < (s.at t0).draw.draw.ports.length := hports ▸ hn
      exact alignPort_port_same _ n d0 d1 hn'
    · rw [restartWin_port, restartWin_port]
      exact alignPort_port_ne (s.at t0).draw.draw n d0 d1 hj
    · obtain ⟨hwin, hfill⟩ := restartWins_chain_same ((s.at t0).draw.draw.alignPort n d0 d1) hk (show k < s.chains.length by omega)
      exact ⟨hwin, hfill.trans (congrArg (· + 1) (alignPort_cf _ n d0 d1 k))⟩
  · have hnone : phaseStep m0 (Config.freeValue s.freeCtr) = none ∨ phaseStep m1 (Config.freeValue (s.freeCtr + 1)) = none :=
      h.imp (phaseStep_of_short · _) (phaseStep_of_short · _)
    exact ⟨_, congrArg Host.Outcome.next (doAdcAlignmentComplete_fails ha hnone), rb_setRf_same _ _ _ true (by decide) rfl,
      upPort_port_same (s.at t0).draw.draw n _ (hports ▸ hn), fun j hj => upPort_port_ne (s.at t0).draw.draw _ hj, rfl, rfl⟩
  · obtain ⟨⟨i, len⟩, hr, hbest, hlong, rfl⟩ := phaseStep_some h
    obtain ⟨hin, hright⟩ := alignRuns_run hr
    obtain ⟨hle, hhalf, hhalf'⟩ := middleStep_bounds (i, len) free (show 0 < len by dsimp only at hlong; omega)
    exact ⟨i, len, hr, hlong, fun r hr => (le_longestRun hr).trans_eq hbest.symm, hin, hright, hle, hhalf, hhalf'⟩
  · obtain ⟨c, hlose⟩ := loseFclk_eq (s.at t0) n
    obtain ⟨hlive0, hlive1⟩ := loseFclk_live (s.at t0) n
    have hacqs : ((s.at t0).loseFclk n).acqs = s.acqs := by rw [hlose]; rfl
    refine ⟨_, (s.at t0).loseFclk n, congrArg Host.Outcome.next (doFclkLoss_silent hl hup hs), ?_, fun j hj => ?_, ?_, hlive0, hlive1,
      by rw [hlose]; rfl, hacqs, by rw [hlose]; rfl, by rw [hacqs]⟩
    · rw [hlose]
      exact upPort_port_same (s.at t0) n _ (hports ▸ hn)
    · rw [hlose]
      exact upPort_port_ne (s.at t0) _ hj
    · rw [hlose]
      exact rb_setRf_same ((s.at t0).upPort n _) _ _ true (by decide) rfl
  · exact congrArg Host.Outcome.next (if_pos (by simp [hl, hup, not_silent_of_recent hlast hp ht]))
  · exact ⟨_, congrArg Host.Outcome.next (doFclkReturn_locks hl hup he), upPort_port_same (s.at t0) n _ (hports ▸ hn),
      fun j hj => upPort_port_ne (s.at t0) _ hj, fun h => condOff_live _ 13 n 0 ((condOff_live_ne _ 13 n 1 (by simp)).mp h),
      condOff_live _ 13 n 1, rfl, rfl, rfl, rfl⟩
  · obtain ⟨x, hx⟩ : ∃ x, x = ({ s with held := none } : State).hostAccess := ⟨_, rfl⟩
    have hset : exec i s = .next (x.writeChainCtl k v) := by
      have hrun : s.busWrite (F.FCHAIN_CTL_EN.off (cIdx k)) (doChainPreset k v) = x.writeChainCtl k v := by
        rw [hx]
        exact (busWrite_of_writable hw).trans (if_pos hk)
      simp only [List.mem_cons, List.not_mem_nil, or_false] at hi
      rcases hi with rfl | rfl <;> exact congrArg Host.Outcome.next hrun
    have hcf (f : RF) : x.cf f k = s.cf f k := by rw [hx]; rfl
    have hk' : k < x.chains.length := by rw [hx]; exact hchains.symm ▸ Nat.lt_of_lt_of_le hk (nChain_le s)
    obtain ⟨⟨g, l, he⟩, hregs, hothers⟩ := writeChainCtl_facts x k v
    obtain ⟨hwin, hfill, hn, henv, hm⟩ := writeChainCtl_chain hk' v
    obtain ⟨hen, hplain, hpreset⟩ := writeChainCtl_fields x k v
    have hset' (f : RF) : (x.writeChainCtl k v).cf f k = (x.chainCtlSet k v).cf f k := rf_congr hregs _ _
    refine ⟨_, hset, hen, fun hp => ?_, hpreset 1 15 2 rfl (by decide) (by decide), hpreset 2 127 5 rfl (by decide) (by decide),
      hpreset 3 1023 8 rfl (by decide) (by decide), hpreset 4 4095 10 rfl (by decide) (by decide), hwin, hfill.trans (by rw [hset']), hn,
      henv, fun h0 h1 => hm ((hcf _).trans h0) ((hset' _).symm.trans h1), fun j hj => (hothers j hj).trans (by rw [hx]; rfl),
      fun o ho => ?_, ?_, ?_⟩
    · rw [hcf] at hplain
      exact hplain hp
    · rw [reg_congr hregs, (setsReg_chainCtlSet x k v).2 o ho, hx]
      rfl
    · rw [he, hx]
      rfl
    · rw [he, hx]
      rfl

end Sys2Proof.Machine
end

