-- ==== Sys2Proof/Proofs/StrayLogs.lean ====
section
namespace Sys2Proof.Machine

/-! SUPPORT. Two statements that fail in a state whose error log lies over registers of another unit (R545, R554). A state may list any
channel for a region, and any entries for a channel's log. A channel's log has 16 entries of 32 bytes in the channel's 1,024 bytes of BAR0;
so the log of a channel that no chip has, or an entry past the sixteenth, has the offsets of other registers. -/

/-! ### A sample that trips no supply -/

/-- A SAMPLE region on memory channel 992, to which a firing with its final stamp has come; the first granule of it is known to be bad. The
log of that channel would begin at 0x101100, which is FCHAIN_CTL of chain 1. -/
def strayRegion : Region := { id := 5, site := 7, kind := 3, size := 64, chan := 992, base := 0, fireAt := some 0, pend := some (0, []) }

/-- Chain 1 takes samples for an acquisition of that region's site, with a high threshold of 5 and TRIP_EN, and DUTPWR_EN is on. -/
def strayState : State :=
  let s : State := { State.reset with
    power := { State.reset.power with dom := 2 ^ 93 + 2 ^ 4 }
    regions := [(5, strayRegion)]
    bad := [992 * 2 ^ 36]
    pe := State.reset.pe.modify 0 (fun p => { p with dutpwr := true })
    chains := State.reset.chains.modify 1 (fun c => { c with acq := some 7 })
    ports := State.reset.ports.modify 0 (fun p => { p with aligned := true, lock := true }) }
  ((((s.setRf F.CL_ADC_CFG_EN [0] 1).setRf F.FCHAIN_THR_HI [0, 1] 5).setRf F.FCHAIN_CTL_EN [0, 1] 1).setRf F.FCHAIN_CTL_TRIP_EN [0, 1]
    1).setRf F.FCHAIN_CTL_FORCE_MM [0, 1] 1

theorem strayState_runs : strayState.chainRuns 1 = true ∧ Safety.shaped strayState ∧ (strayState.chain 1).fill = 0 ∧
    (strayState.chain 1).hiQuiet = false ∧ toSigned 24 (strayState.cf F.FCHAIN_THR_HI 1) < 12800 ∧
    strayState.cf F.FCHAIN_CTL_TRIP_EN 1 = 1 := by decide +kernel

/-- What the filter makes of a code of 100 there. -/
theorem strayState_sample : (100 : Int) = (if strayState.cf F.FCHAIN_CTL_SELFTEST 1 = 1 then testSignal (strayState.chain 1).test
      else toSigned 16 (if strayState.rb F.CL_ADC_CFG_FMT [1 / 2] then 100 ^^^ 0x8000 else 100)) ∧
    (100 * 2 ^ 24 : Int) = (strayState.chain 1).m.getD (100 * 2 ^ 24) ∧
    (100 : Int) = (if strayState.cf F.FCHAIN_CTL_DCMODE 1 = 0 then 100 else 100 - roundDiv (100 * 2 ^ 24) (2 ^ 24)) ∧
    [(100 : Int)] = ((100 : Int) :: (strayState.chain 1).win).take (strayState.cf F.FCHAIN_CTL_LEN_M1 1 + 1) ∧
    (12800 : Int) = roundDiv (128 * [(100 : Int)].sum) [(100 : Int)].length := by decide +kernel

/-- The header's bad granule is logged before the thresholds are tested, which clears TRIP_EN. -/
theorem strayState_stays_on : ((doAdcSample 1 100 0 strayState).pe.getD (1 / 2) {}).dutpwr = true := by decide +kernel

/-- Refutes O49, by its clause on trips: a region that the state lists on memory channel 992 has the log of its errors over FCHAIN_CTL of
chain 1, and the sample that gives it a firing meets one, so that TRIP_EN reads 0 at the threshold and DUTPWR_EN stays on. -/
theorem not_samplesFiltered : ¬ Obligations.SamplesFiltered := by
  rintro ⟨-, -, hsample, -⟩
  obtain ⟨hruns, hshaped, hfill, hquiet, hhigh, htrip⟩ := strayState_runs
  obtain ⟨hx, hm, hy, hwin, ha⟩ := strayState_sample
  obtain ⟨t, m1, hexec, -, -, -, -, -, -, -, -, htrips, -⟩ :=
    hsample strayState 1 100 0 100 (100 * 2 ^ 24) 100 12800 [100] hruns hshaped hx hm hy hwin ha
  have hrun : doAdcSample 1 100 0 strayState = t := Host.Outcome.next.inj hexec
  obtain ⟨hoff, -⟩ := htrips hfill hquiet hhigh htrip
  rw [← hrun, strayState_stays_on] at hoff
  cases hoff

/-! ### A decision whose time is lost -/

/-- A FAIL region on channel 0 that waits for the final stamp of trigger unit 0; its first granule is known to be bad. -/
def stampedRegion : Region := { id := 5, site := 7, kind := 1, size := 64, chan := 0, base := 0, trigSel := 0, awaits := true }

/-- A state in which every entry of channel 0's log is in use, for another granule. -/
def State.fillLog (s : State) : State := (List.range 16).foldl (fun s j => (s.setLogWord 0 j 1 64).setLogWord 0 j 2 (2 ^ 56)) s

/-- Unit 0 of cluster 0 has opened with a candidate at 1 ns. Channel 0's log is full, and 944 stands among its entries: an entry
of that number would begin at 0x10700, the unit's registers, where HOLDOFF reads as the mark of a corrected error. -/
def spillState : State :=
  let s : State := { State.reset with
    regions := [(5, stampedRegion)]
    bad := [0]
    mcs := State.reset.mcs.modify 0 (fun c => { c with logOrder := [944] })
    trigs := State.reset.trigs.modify 0 (fun x => { x with openAt := some 0, cands := [(0, 2000)] }) }
  (s.setRf F.CL_TRG_CTL_HOLDOFF [0, 0] 16).fillLog

theorem spillState_open : (spillState.trig 0).openAt = some 0 ∧ 0 + spillState.cwin 0 + spillState.trigWait 0 ≤ 1000000 ∧
    Safety.shaped spillState ∧ (spillState.trig 0).cands = [(0, 2000)] ∧ spillState.scaled 2000 / 2000 % 2 ^ 64 = 1 := by decide +kernel

/-- The header's bad granule is logged over the time that the decision has just stored: its offset in the region. -/
theorem spillState_loses_time : (doTriggerDecision 0 0 1000000 spillState).rf F.CL_TRG_TIME_T0 [0, 0] = 0 := by decide +kernel

/-- Refutes O51, by its clause on decisions: a log that names an entry 944 has it over the registers of trigger unit 0, and the header of
the region that the decision stamps meets an error, so that CL_0_TRG_0_TIME holds an offset and not T0. -/
theorem not_triggersFire : ¬ Obligations.TriggersFire := by
  rintro ⟨-, -, -, hdecide, -⟩
  obtain ⟨hopen, hdue, hshaped, hcands, hscaled⟩ := spillState_open
  obtain ⟨t, hexec, -, htime, -⟩ := hdecide spillState 0 0 1000000 0 2000 _ (0, 2000) [(0, 2000)] hopen hdue (by decide) (by decide)
    hshaped hcands List.mem_cons_self rfl (by decide) rfl
  have hrun : doTriggerDecision 0 0 1000000 spillState = t := Host.Outcome.next.inj hexec
  rw [← hrun, spillState_loses_time, hscaled] at htime
  cases htime

end Sys2Proof.Machine
end

