-- ==== Sys2Proof/Proofs/Steps.lean ====
section
namespace Sys2Proof.Machine

/-! ### Commands and steps answer a next state -/

/-- Settles O1: `step` matches on the front of the queue. -/
theorem stepRunsFront : Obligations.StepRunsFront := fun _ _ _ => rfl

theorem step_idle {s : State} (h : s.pending = []) : step s = .next s.tick := by
  unfold step
  rw [h]

theorem tick_locked {s : State} (h : s.clk.pll = true) : s.tick = { s with dtime := s.dtime + 1 } := if_pos h

/-- Settles O2, by the tick of a locked PLL. -/
theorem idleTickCountsDtime : Obligations.IdleTickCountsDtime := by
  intro s hidle hpll
  refine ⟨s.tick, step_idle hidle, ?_⟩
  rw [tick_locked hpll]
  exact ⟨rfl, rfl, rfl, rfl, rfl, rfl, hidle⟩

/-- Every command of the table is given a meaning that ends in a next state. -/
theorem exec_answers (c : Instr) (s : State) : ∃ t, exec c s = .next t := by
  cases c <;> exact ⟨_, rfl⟩

theorem step_answers (s : State) : ∃ t, step s = .next t := by
  cases h : s.pending with
  | nil => exact ⟨_, step_idle h⟩
  | cons c rest =>
    obtain ⟨t, ht⟩ := exec_answers c { s with pending := rest }
    refine ⟨t, ?_⟩
    unfold step
    rw [h]
    exact ht

/-- Settles O57, by the cases of the table. -/
theorem everyCommandCompletes : Obligations.EveryCommandCompletes := ⟨exec_answers, step_answers⟩

end Sys2Proof.Machine
end

