-- ==== Sys2Proof/Proofs/Completions.lean ====
section
namespace Sys2Proof.Machine

/-! ### Single bytes of a block -/

theorem fld_byte (l : List Byte) (o : Nat) : fld l o 1 = (l.getD o 0).toNat := by
  unfold fld slice
  cases h : l.drop o with
  | nil =>
    have hl : l.length ≤ o := List.drop_eq_nil_iff.1 h
    rw [List.getD_eq_default _ _ hl]
    rfl
  | cons b r =>
    have hb : l.getD o 0 = b := by
      rw [List.getD_eq_getElem?_getD, ← List.head?_drop, h]
      rfl
    rw [hb]
    simp [leNat]

/-- A field that has been patched reads as the bytes put there. -/
theorem fld_patch_same (l bs : List Byte) (off : Nat) (hl : off + bs.length ≤ l.length) : fld (patch l off bs) off bs.length = leNat bs := by
  have htake : (l.take off).length = off := by simp; omega
  have hall : (l.take off ++ bs ++ l.drop (off + bs.length)).length ≤ l.length := by simp; omega
  unfold fld slice patch
  rw [List.take_of_length_le hall, List.append_assoc, List.drop_append, htake, List.drop_eq_nil_of_le (by omega)]
  simp

/-! ### The entry of a completion (R493, R494, R502) -/

/-- A result block is written for a descriptor: it names one, and the header is not what failed (R493). -/
def Desc.blockDue (d : Desc) (r : Result) : Bool :=
  decide (fld d.bytes 8 8 ≠ 0 ∧ r.reason ≠ 0xE1 ∧ r.reason ≠ 0xE2 ∧ r.reason ≠ 0xE3)

/-- A completion whose ring takes entries puts its entry at TAIL with the ring's phase. -/
theorem complete_entry {s : State} {sq idx : Nat} {d : Desc} (r : Result) (hd : s.desc sq idx = some d) (hon : s.ringOn d.cq = true)
    (herr : s.ringErr d.cq = false) (hbm : s.host.pci.busMaster = true) :
    Out.hostWrite (s.rf F.RING_BASE_ADDR [d.cq] * 4096 + 32 * (s.ring d.cq).tail)
      (patch (complBytes d r (d.blockDue r) (s.ring sq).head) 9
        [BitVec.ofNat 8 (((complBytes d r (d.blockDue r) (s.ring sq).head).getD 9 0).toNat ||| (s.ring d.cq).phase)]) ∈
      (s.complete sq idx r).out := by
  have hentry (u : State) (hu : u.regs = s.regs) (hh : u.host = s.host) :
      Out.hostWrite (s.rf F.RING_BASE_ADDR [d.cq] * 4096 + 32 * (s.ring d.cq).tail)
        (patch (complBytes d r (d.blockDue r) (s.ring sq).head) 9
          [BitVec.ofNat 8 (((complBytes d r (d.blockDue r) (s.ring sq).head).getD 9 0).toNat ||| (s.ring d.cq).phase)]) ∈
      ((((if !(u.dropDesc sq idx).ringOn d.cq || (u.dropDesc sq idx).ringErr d.cq then u.dropDesc sq idx
        else if !(u.dropDesc sq idx).host.pci.busMaster then (u.dropDesc sq idx).ringError d.cq 3
        else (u.dropDesc sq idx).ringWrite d.cq (complBytes d r (d.blockDue r) ((u.dropDesc sq idx).ring sq).head) 9
          ((fld d.bytes 1 1).testBit 1)) : State).closeRing d.cq).noteMet).out := by
    have h1 : (u.dropDesc sq idx).ringOn d.cq = true := (rb_congr hu _ _).trans hon
    have h2 : (u.dropDesc sq idx).ringErr d.cq = false := (rb_congr hu _ _).trans herr
    have h3 : (u.dropDesc sq idx).host.pci.busMaster = true := by rw [← hbm, ← hh]; rfl
    have hring (k : Nat) : (u.dropDesc sq idx).ring k = s.ring k := by
      show u.host.rings.getD k {} = _
      rw [hh]
      rfl
    have hbase : (u.dropDesc sq idx).rf F.RING_BASE_ADDR [d.cq] = s.rf F.RING_BASE_ADDR [d.cq] := rf_congr hu _ _
    rw [h1, h2, h3, hring]
    simp only [Bool.not_true, Bool.or_self, Bool.false_eq_true, if_false, noteMet_out]
    refine (grows_closeRing _ _).mem ?_
    have h := ringWrite_entry (u.dropDesc sq idx) d.cq (complBytes d r (d.blockDue r) (s.ring sq).head) 9 ((fld d.bytes 1 1).testBit 1)
    rwa [hbase, hring] at h
  unfold State.complete
  rw [hd]
  dsimp only
  by_cases hdue : d.blockDue r = true
  · rw [hdue] at hentry ⊢
    obtain ⟨h0, h1, h2, h3⟩ := of_decide_eq_true hdue
    simp only [h0, h1, h2, h3, decide_false, Bool.or_self, Bool.false_eq_true, if_false, State.hostWrite, hbm, if_true]
    exact hentry _ rfl rfl
  · have hnot : ¬ (fld d.bytes 8 8 ≠ 0 ∧ r.reason ≠ 0xE1 ∧ r.reason ≠ 0xE2 ∧ r.reason ≠ 0xE3) := fun h => hdue (decide_eq_true h)
    have hcond : (decide (fld d.bytes 8 8 = 0) || decide (r.reason = 0xE1) || decide (r.reason = 0xE2) || decide (r.reason = 0xE3)) = true := by
      simp only [Bool.or_eq_true, decide_eq_true_eq]
      tauto
    rw [Bool.not_eq_true] at hdue
    rw [hdue] at hentry ⊢
    rw [if_pos hcond]
    exact hentry s rfl rfl

/-- The flags and the head of a completion entry, which `complBytes_flds` leaves out. -/
theorem complBytes_flags_head {d : Desc} (r : Result) (w : Bool) (h : Nat) (hl : d.bytes.length = 64) :
    fld (complBytes d r w h) 9 1 = (if w then 2 else 0) ∧ fld (complBytes d r w h) 10 2 = h % 2 ^ 16 := by
  have hs : (slice d.bytes 4 4).length = 4 := by simp [hl]
  unfold complBytes
  simp only [List.append_assoc]
  constructor
  all_goals rw [fld_skip hs (by decide)]
  all_goals repeat rw [fld_skip (leBytes_length _ _) (by decide)]
  all_goals rw [fld_here]
  · cases w <;> rfl
  · norm_num

/-- Settles O3: the entry is `complete_entry`'s, and its fields lie beside the byte that takes the phase. -/
theorem completionEntryWritten : Obligations.CompletionEntryWritten := by
  intro s sq idx d r hd hlen hon herr hbm
  refine ⟨complete_desc s sq idx r, (sends_complete s sq idx r).mem, _, complete_entry r hd hon herr hbm, ?_⟩
  generalize hw : d.blockDue r = w
  obtain ⟨htag, hop, hst, hq, hre, hsq, hidx, haux, h15, hv0, hv1⟩ := complBytes_flds r w (s.ring sq).head hlen
  obtain ⟨hflag, hhead⟩ := complBytes_flags_head r w (s.ring sq).head hlen
  have h32 := complBytes_length r w (s.ring sq).head hlen
  have hplace : d.sq = sq ∧ d.idx = idx := by
    have := List.find?_some hd
    simpa using this
  have hbyte := fld_byte (complBytes d r w (s.ring sq).head) 9
  rw [hflag] at hbyte
  rw [← hbyte]
  have hfit (x : Byte) : 9 + [x].length ≤ (complBytes d r w (s.ring sq).head).length := by simp [h32]
  have hkeep (x : Byte) (o n : Nat) (ho : o + n ≤ 9 ∨ 10 ≤ o) :
      fld (patch (complBytes d r w (s.ring sq).head) 9 [x]) o n = fld (complBytes d r w (s.ring sq).head) o n :=
    fld_patch _ _ _ _ _ ho (hfit x)
  have h9 : fld (patch (complBytes d r w (s.ring sq).head) 9 [BitVec.ofNat 8 ((if w then 2 else 0) ||| (s.ring d.cq).phase)]) 9 1 =
      ((if fld d.bytes 8 8 ≠ 0 ∧ r.reason ≠ 0xE1 ∧ r.reason ≠ 0xE2 ∧ r.reason ≠ 0xE3 then 2 else 0) ||| (s.ring d.cq).phase) % 256 := by
    have h := fld_patch_same (complBytes d r w (s.ring sq).head) [BitVec.ofNat 8 ((if w then 2 else 0) ||| (s.ring d.cq).phase)] 9 (hfit _)
    refine h.trans ?_
    simp only [leNat, Nat.mul_zero, Nat.add_zero, BitVec.toNat_ofNat, ← hw, Desc.blockDue, decide_eq_true_eq]
  rw [hplace.1] at hsq
  rw [hplace.2] at hidx
  exact ⟨(patch_length _ _ _ (hfit _)).trans h32, (hkeep _ _ _ (by decide)).trans htag, (hkeep _ _ _ (by decide)).trans hop,
    (hkeep _ _ _ (by decide)).trans hst, (hkeep _ _ _ (by decide)).trans hq, (hkeep _ _ _ (by decide)).trans hre,
    (hkeep _ _ _ (by decide)).trans hsq, h9, (hkeep _ _ _ (by decide)).trans hhead, (hkeep _ _ _ (by decide)).trans hidx,
    (hkeep _ _ _ (by decide)).trans haux, (hkeep _ _ _ (by decide)).trans h15, (hkeep _ _ _ (by decide)).trans hv0,
    (hkeep _ _ _ (by decide)).trans hv1⟩

end Sys2Proof.Machine
end

