-- ==== Sys2Proof/Proofs/RingNotes.lean ====
section
namespace Sys2Proof.Machine

/-! ### What the host interface notes: errors, events and messages (R497, R499, R506, R520) -/

/-- From s to t messages and events alone have gone their way: what is sent, the event queue, HOST_ERR and HOST_EVT_DROPPED may differ;
rings, descriptors in flight, and every other register are as they were. -/
structure Notes (s t : State) : Prop where
  sends : Sends s t
  rings : t.host.rings = s.host.rings
  inflight : t.host.inflight = s.host.inflight
  reg : ∀ o, o ≠ F.HOST_ERR_RING.off [] → o ≠ F.HOST_EVT_DROPPED_COUNT.off [] → t.reg o = s.reg o

theorem Notes.refl (s : State) : Notes s s := ⟨Sends.refl s, rfl, rfl, fun _ _ _ => rfl⟩

theorem Notes.trans {a b c : State} (h : Notes a b) (g : Notes b c) : Notes a c :=
  ⟨h.sends.trans g.sends, g.rings.trans h.rings, g.inflight.trans h.inflight, fun o ho hd => (g.reg o ho hd).trans (h.reg o ho hd)⟩

theorem Notes.ite {s a b : State} {c : Prop} [Decidable c] (h : Notes s a) (g : Notes s b) : Notes s (if c then a else b) := by
  split <;> assumption

/-- A register field away from HOST_ERR and HOST_EVT_DROPPED reads as before. -/
theorem Notes.rf {s t : State} (h : Notes s t) {f : RF} {i : List Nat} (ho : f.off i ≠ F.HOST_ERR_RING.off [])
    (hd : f.off i ≠ F.HOST_EVT_DROPPED_COUNT.off []) : t.rf f i = s.rf f i := by
  unfold State.rf
  rw [h.reg _ ho hd]

theorem Notes.rb {s t : State} (h : Notes s t) {f : RF} {i : List Nat} (ho : f.off i ≠ F.HOST_ERR_RING.off [])
    (hd : f.off i ≠ F.HOST_EVT_DROPPED_COUNT.off []) : t.rb f i = s.rb f i := by
  unfold State.rb
  rw [h.rf ho hd]

theorem Notes.ring {s t : State} (h : Notes s t) (k : Nat) : t.ring k = s.ring k := by
  unfold State.ring
  rw [h.rings]

/-- A change of the host interface beside its rings and descriptors. -/
theorem notes_host (s : State) (h : HostIf) (hr : h.rings = s.host.rings) (hi : h.inflight = s.host.inflight) :
    Notes s { s with host := h } := ⟨sends_host s h, hr, hi, fun _ _ _ => rfl⟩

theorem notes_emit (s : State) (o : Out) : Notes s (s.emit o) := ⟨sends_emit s o, rfl, rfl, fun _ _ _ => rfl⟩

theorem notes_msi (s : State) (v : Nat) : Notes s (s.msi v) := by
  unfold State.msi
  exact Notes.ite (notes_emit _ _) (notes_host _ _ rfl rfl)

theorem notes_setReg_hostErr (s : State) (v : W64) : Notes s (s.setReg (F.HOST_ERR_RING.off []) v) :=
  ⟨sends_setReg _ _ _, rfl, rfl, fun _ ho _ => reg_setReg_ne s v ho⟩

theorem notes_hostErr (s : State) (b : Nat) (r : Option Nat) : Notes s (s.hostErr b r) := by
  have hring : Notes s (match r with
      | some k => (s.setReg (F.HOST_ERR_RING.off []) (fset (s.reg (F.HOST_ERR_RING.off [])) b 1 1)).setRf F.HOST_ERR_LAST_RING [] k
      | none => s.setReg (F.HOST_ERR_RING.off []) (fset (s.reg (F.HOST_ERR_RING.off [])) b 1 1)) := by
    cases r with
    | none => exact notes_setReg_hostErr s _
    | some k => exact (notes_setReg_hostErr s _).trans (notes_setReg_hostErr _ _)
  unfold State.hostErr
  exact Notes.ite (hring.trans (notes_msi _ _)) hring

theorem notes_incRf_dropped (s : State) (n : Nat) : Notes s (s.incRf F.HOST_EVT_DROPPED_COUNT [] n) :=
  ⟨sends_incRf _ _ _ _, rfl, rfl, fun _ _ hd => reg_setReg_ne s _ hd⟩

theorem notes_queueEvent (s : State) (e : Event) : Notes s (s.queueEvent e) := by
  unfold State.queueEvent
  exact Notes.ite (Notes.ite (notes_host _ _ rfl rfl) (notes_host _ _ rfl rfl)) (Notes.ite (notes_host _ _ rfl rfl)
    (((notes_incRf_dropped s 1).trans (notes_hostErr _ 5 none)).trans (notes_host _ _ rfl rfl)))

theorem notes_refillLoop (l : List Event) (s : State) : Notes s (refillLoop s l) := by
  induction l generalizing s with
  | nil => exact Notes.refl s
  | cons e r ih =>
    unfold refillLoop
    refine Notes.ite ((notes_host s _ ?_ ?_).trans (ih _)) ((notes_host s _ ?_ ?_).trans (ih _)) <;> rfl

theorem notes_refill (s : State) : Notes s s.refill := by
  have h := (notes_host s { s.host with evWait := [] } rfl rfl).trans (notes_refillLoop s.host.evWait _)
  unfold State.refill
  refine Notes.ite ((h.trans (notes_host _ _ ?_ ?_)).trans (notes_queueEvent _ _)) h <;> rfl

theorem notes_reroute (s : State) : Notes s s.reroute := by
  unfold State.reroute
  refine Notes.ite (notes_refill s) ((((notes_incRf_dropped s _).trans (notes_hostErr _ 5 none)).trans (notes_host _ _ ?_ ?_)).trans
    (notes_refill _)) <;> rfl

/-! ### Ring registers

Those of a ring lie apart from each other and from HOST_ERR and HOST_EVT_DROPPED (R512). -/

/-- A register of a ring lies below the host interface's own registers. -/
theorem ring_off_low {f : RF} {k : Nat} (hst : f.st = [64]) (hb : f.base ≤ 0x4030) (hk : k < 64) :
    f.off [k] ≠ F.HOST_ERR_RING.off [] ∧ f.off [k] ≠ F.HOST_EVT_DROPPED_COUNT.off [] := by
  have hoff : f.off [k] = f.base + 64 * k := by simp [RF.off, strideOff, hst]
  have herr : F.HOST_ERR_RING.off [] = 0x5010 := rfl
  have hdrop : F.HOST_EVT_DROPPED_COUNT.off [] = 0x5018 := rfl
  omega

theorem Notes.ringOn {s t : State} (h : Notes s t) {k : Nat} (hk : k < 64) : t.ringOn k = s.ringOn k :=
  have ⟨ho, hd⟩ := ring_off_low (f := F.RINGK_CFG_EN) rfl (by decide) hk
  h.rb ho hd

theorem Notes.ringErr {s t : State} (h : Notes s t) {k : Nat} (hk : k < 64) : t.ringErr k = s.ringErr k :=
  have ⟨ho, hd⟩ := ring_off_low (f := F.RINGK_STAT_ERR) rfl (by decide) hk
  h.rb ho hd

theorem Notes.ringCause {s t : State} (h : Notes s t) {k : Nat} (hk : k < 64) :
    t.rf F.RINGK_STAT_CAUSE [k] = s.rf F.RINGK_STAT_CAUSE [k] :=
  have ⟨ho, hd⟩ := ring_off_low (f := F.RINGK_STAT_CAUSE) rfl (by decide) hk
  h.rf ho hd

/-! ### Noting which rings meet R503 -/

/-- Noting which rings meet R503 changes nothing of a ring but that. -/
theorem noteMet_ring (s : State) (k : Nat) : ∃ m, s.noteMet.ring k = { s.ring k with metSince := m } := by
  unfold State.noteMet
  refine foldl_inv (fun u => ∃ m, u.ring k = { s.ring k with metSince := m }) _ (fun u j hu => ?_) _ s ⟨_, rfl⟩
  obtain ⟨m, hm⟩ := hu
  by_cases hj : k = j ∧ k < u.host.rings.length
  · rw [← hj.1, upRing_ring_same _ _ _ hj.2, hm]
    exact ⟨_, rfl⟩
  · refine ⟨m, ?_⟩
    rw [← hm]
    by_cases hkj : k = j
    · have hlen : u.host.rings.length ≤ k := by
        by_contra hlt
        exact hj ⟨hkj, by omega⟩
      rw [← hkj]
      show (u.host.rings.modify k _).getD k {} = u.host.rings.getD k {}
      rw [List.getD_eq_default _ _ (by simpa using hlen), List.getD_eq_default _ _ hlen]
    · exact upRing_ring_ne u _ hkj

theorem noteMet_ring_place (s : State) (k : Nat) : (s.noteMet.ring k).head = (s.ring k).head ∧ (s.noteMet.ring k).tail = (s.ring k).tail ∧
    (s.noteMet.ring k).phase = (s.ring k).phase ∧ (s.noteMet.ring k).closing = (s.ring k).closing := by
  obtain ⟨m, hm⟩ := noteMet_ring s k
  rw [hm]
  exact ⟨rfl, rfl, rfl, rfl⟩

@[simp] theorem noteMet_ringOn (s : State) (k : Nat) : s.noteMet.ringOn k = s.ringOn k := rb_congr (noteMet_regs s) _ _
@[simp] theorem noteMet_ringErr (s : State) (k : Nat) : s.noteMet.ringErr k = s.ringErr k := rb_congr (noteMet_regs s) _ _

end Sys2Proof.Machine
end

