-- ==== Sys2Proof/Proofs/Fetches.lean ====
section
namespace Sys2Proof.Machine

/-! ### A descriptor in flight that is changed -/

theorem upDesc_desc {s : State} {sq idx : Nat} {d : Desc} {f : Desc → Desc} (h : s.desc sq idx = some d)
    (hf : ∀ d, (f d).sq = d.sq ∧ (f d).idx = d.idx) : (s.upDesc sq idx f).desc sq idx = some (f d) := by
  have hkeep : (fun d : Desc => (d.sq == sq && d.idx == idx)) ∘ (fun d => if d.sq = sq && d.idx = idx then f d else d) =
      fun d => d.sq == sq && d.idx == idx := by
    funext d
    simp only [Function.comp]
    split
    · rw [(hf d).1, (hf d).2]
    · rfl
  unfold State.desc at h
  have hplace := List.find?_some h
  unfold State.desc State.upDesc
  rw [List.find?_map, hkeep, h]
  simp only [Bool.and_eq_true, beq_iff_eq] at hplace
  simp [hplace]

/-! ### The number of a new descriptor -/

/-- Of more numbers than there are descriptors in flight one is free. -/
theorem freshIdx_fresh (s : State) (k i : Nat) : ∀ d ∈ s.host.inflight, ¬ (d.sq = k ∧ d.idx = s.freshIdx k i) := by
  unfold State.freshIdx
  generalize hcand : (List.range (s.host.inflight.length + 1)).map (fun j => i + 65536 * j) = cand
  have hfree : ∃ n ∈ cand, ¬ s.host.inflight.any (fun d => d.sq = k && d.idx = n) = true := by
    by_contra hall
    push Not at hall
    have hnodup : cand.Nodup := by
      rw [← hcand]
      refine List.Nodup.map (fun a b hab => ?_) List.nodup_range
      have hab : i + 65536 * a = i + 65536 * b := hab
      omega
    have hsub : cand ⊆ s.host.inflight.map Desc.idx := by
      intro n hn
      obtain ⟨d, hd, hk⟩ := List.any_eq_true.1 (hall n hn)
      simp only [Bool.and_eq_true, decide_eq_true_eq] at hk
      exact List.mem_map.2 ⟨d, hd, hk.2⟩
    have hlen := (hnodup.subperm hsub).length_le
    rw [← hcand] at hlen
    simp at hlen
  obtain ⟨n, hn, hfree⟩ := hfree
  cases hfind : cand.find? (fun n => !s.host.inflight.any (fun d => d.sq = k && d.idx = n)) with
  | none =>
    have := List.find?_eq_none.1 hfind n hn
    simp only [Bool.not_eq_true', Bool.not_eq_false] at this
    exact absurd this hfree
  | some m =>
    intro d hd hplace
    have hm := List.find?_some hfind
    simp only [Bool.not_eq_true', List.any_eq_false, Bool.and_eq_true, decide_eq_true_eq] at hm
    exact hm d hd hplace

/-! ### Acceptance (R488, R503, R129) -/

/-- The new descriptor stands last; it loses its object ID at once only where a load in flight holds it. -/
theorem acceptId_inflight {s u : State} {d : Desc} (hfresh : ∀ e ∈ s.host.inflight, ¬ (e.sq = d.sq ∧ e.idx = d.idx))
    (hu : u.host.inflight = s.host.inflight ++ [d]) (hl : u.loads = s.loads) :
    (u.acceptId d).host.inflight = s.host.inflight ++ [{ d with loses := d.loses || d.isLoad &&
      (s.loads.any (fun l => l.obj.id = fld d.bytes 16 4) || s.host.inflight.any (fun x => x.claims (fld d.bytes 16 4))) }] := by
  have hany : u.host.inflight.any (fun e => !(e.sq = d.sq && e.idx = d.idx) && e.claims (fld d.bytes 16 4)) =
      s.host.inflight.any (fun x => x.claims (fld d.bytes 16 4)) := by
    rw [hu, List.any_append]
    have hself : [d].any (fun e => !(decide (e.sq = d.sq) && decide (e.idx = d.idx)) && e.claims (fld d.bytes 16 4)) = false := by simp
    rw [hself, Bool.or_false]
    rw [Bool.eq_iff_iff, List.any_eq_true, List.any_eq_true]
    refine exists_congr fun e => and_congr_right fun he => ?_
    have : (decide (e.sq = d.sq) && decide (e.idx = d.idx)) = false := by
      have := hfresh e he
      simpa using this
    rw [this]
    rfl
  unfold State.acceptId
  dsimp only
  rw [hany, hl]
  split
  next hlose =>
    have hmap : s.host.inflight.map (fun e => if e.sq = d.sq && e.idx = d.idx then { e with loses := true } else e) = s.host.inflight := by
      refine (List.map_congr_left (fun e he => ?_)).trans (List.map_id _)
      have := hfresh e he
      exact if_neg (by simpa using this)
    show u.host.inflight.map _ = _
    rw [hu, List.map_append, hmap]
    simp [hlose]
  next hkeep =>
    rw [Bool.not_eq_true] at hkeep
    rw [hu, hkeep, Bool.or_false]

theorem acceptId_keeps (s : State) (d : Desc) : ∃ l, s.acceptId d = { s with host := { s.host with inflight := l } } := by
  unfold State.acceptId
  dsimp only
  split
  · exact ⟨_, rfl⟩
  · exact ⟨s.host.inflight, rfl⟩

/-- The descriptor that the next fetch from ring k accepts. -/
def State.newDesc (s : State) (k : Nat) (b : List Byte) : Desc :=
  { sq := k, idx := s.freshIdx k (s.ring k).head, cq := s.cqOf k, bytes := b }

/-- A descriptor that nothing refuses goes on to have its ID judged. -/
theorem acceptDesc_passes {s : State} {k : Nat} {b : List Byte} (hc : headerCheck b = 0) (hb : s.ballastOn = false) (hr : s.pair.role ≠ 2) :
    s.acceptDesc k b = ((({ s with host := { s.host with inflight := s.host.inflight ++ [s.newDesc k b] } } : State).upRing k (fun r =>
      { r with head := ((s.ring k).head + 1) % s.ringSize k })).incRf F.RING_COUNT_ENTRIES [k]).acceptId (s.newDesc k b) := by
  have hballast : ¬ (s.ballastOn && !safeOp (s.newDesc k b).op) = true := by simp [hb]
  have hrole : ¬ (decide (s.pair.role = 2) && !standbyOp (s.newDesc k b).op) = true := by simp [hr]
  exact (if_neg (not_not.2 hc)).trans ((if_neg hballast).trans (if_neg hrole))

/-- A fetch of one entry that nothing refuses. -/
theorem fetch_accepts {s : State} {k : Nat} {b : List Byte} (hserved : s.served = some k) (hlull : s.power.lull = 0)
    (hbm : s.host.pci.busMaster = true) (hlen : b.length = 64) (hc : headerCheck b = 0) (hb : s.ballastOn = false) (hr : s.pair.role ≠ 2)
    (hroom : 1 ≤ s.fetchRoom k) (hk : k < s.host.rings.length) :
    ∃ t, exec (.descriptorFetch k [b] true) s = .next t ∧
      t.host.inflight = s.host.inflight ++ [{ s.newDesc k b with loses := (s.newDesc k b).isLoad &&
        (s.loads.any (fun l => l.obj.id = fld b 16 4) || s.host.inflight.any (fun x => x.claims (fld b 16 4))) }] ∧
      (t.ring k).head = ((s.ring k).head + 1) % s.ringSize k ∧ t.host.lastServed = k ∧ t.mem = s.mem ∧ t.out = s.out := by
  set s1 := s.upRing k (fun r => { r with metSince := none }) with hs1
  have hring : (s1.ring k).head = (s.ring k).head := by rw [hs1, upRing_ring_same _ _ _ hk]
  have hsize : s1.ringSize k = s.ringSize k := rfl
  have hnew : s1.newDesc k b = s.newDesc k b := by
    unfold State.newDesc
    rw [hring]
    rfl
  have hpad : padTo b 64 = b := by simp [padTo, zeros, hlen]
  have htake : [b].take (s.fetchRoom k) = [b] := List.take_of_length_le (by simpa using hroom)
  have hrun : doDescriptorFetch k [b] true s =
      ({ s1.acceptDesc k b with host := { (s1.acceptDesc k b).host with lastServed := k } } : State).noteMet := by
    unfold doDescriptorFetch
    simp only [hserved, hlull, hbm, htake, List.foldl_cons, List.foldl_nil, hpad, ne_eq, not_true_eq_false, decide_false, Bool.or_self,
      Bool.not_true, Bool.false_eq_true, if_false]
    rfl
  have hpass := acceptDesc_passes (s := s1) (k := k) hc hb hr
  rw [hnew, hring, hsize] at hpass
  set u := (({ s1 with host := { s1.host with inflight := s1.host.inflight ++ [s.newDesc k b] } } : State).upRing k (fun r =>
      { r with head := ((s.ring k).head + 1) % s.ringSize k })).incRf F.RING_COUNT_ENTRIES [k] with hu
  obtain ⟨l, hl⟩ := acceptId_keeps u (s.newDesc k b)
  have hin : (u.acceptId (s.newDesc k b)).host.inflight = s.host.inflight ++ [{ s.newDesc k b with loses := false || (s.newDesc k b).isLoad &&
        (s.loads.any (fun l => l.obj.id = fld b 16 4) || s.host.inflight.any (fun x => x.claims (fld b 16 4))) }] :=
    acceptId_inflight (s := s) (freshIdx_fresh s k _) rfl rfl
  refine ⟨_, rfl, ?_, ?_, ?_, ?_, ?_⟩
  · rw [hrun, noteMet_inflight, hpass, ← Bool.false_or (_ && _)]
    exact hin
  · rw [hrun, (noteMet_ring_place _ k).1, hpass, hl]
    show (((s1.host.rings.modify k _).getD k {}) : Ring).head = _
    rw [getD_modify_same _ _ _ _ (by simpa [hs1] using hk)]
  · rw [hrun]
    obtain ⟨r, h⟩ := noteMet_eq ({ s1.acceptDesc k b with host := { (s1.acceptDesc k b).host with lastServed := k } } : State)
    rw [h]
  · rw [hrun, noteMet_mem, hpass, hl]
    rfl
  · rw [hrun, noteMet_out, hpass, hl]
    rfl

/-- Settles O4: a NOP and a fence by their definitions, a fetch by `fetch_accepts`. -/
theorem descriptorsBegin : Obligations.DescriptorsBegin := by
  refine ⟨fun s sq idx d hd => ?_, fun s sq idx d hd he => ?_, fun s k b hserved hlull hbm hlen hc hb hr hroom hk hshaped => ?_⟩
  · show Host.Outcome.next (doNop sq idx s) = _
    rw [doNop, withDesc_of_ready hd]
  · refine ⟨_, rfl, ?_, ?_⟩
    · simp [doFenceRelease, he]
    · simp only [doFenceRelease, he, List.isEmpty_nil, if_true]
      exact upDesc_desc hd (fun _ => ⟨rfl, rfl⟩)
  · have hk' : k < s.host.rings.length := by rw [hshaped.1]; omega
    obtain ⟨t, hrun, hin, hhead, hlast, hmem, hout⟩ := fetch_accepts hserved hlull hbm hlen hc hb hr hroom hk'
    refine ⟨t, s.newDesc k b, _, hrun, rfl, hin, rfl, fun hload _ => ?_, fun hload => ?_, hhead, hlast, hmem, hout⟩
    · rw [hload]
      rfl
    · rw [hload]
      rfl

end Sys2Proof.Machine
end

