-- ==== Sys2Proof/Proofs/Messages.lean ====
section
namespace Sys2Proof.Machine

/-! ### An event goes to its ring (R499, R502) -/

theorem taskGone_keeps (s : State) (tid : Nat) : Grows s (s.taskGone tid) ∧ (s.taskGone tid).mem = s.mem := by
  unfold State.taskGone
  split
  next x _ =>
    split
    · refine foldl_inv (fun u => Grows s u ∧ u.mem = s.mem) _ (fun u d hu => ?_) _ _ ⟨Grows.of_eq rfl, rfl⟩
      exact ⟨hu.1.trans (grows_complete _ _ _ _), ((sends_finish _ _ _ _).mem).trans hu.2⟩
    · exact ⟨Grows.refl s, rfl⟩
  next => exact ⟨Grows.refl s, rfl⟩

/-- What EVENT_POST carries out for a ring that takes the event. -/
theorem eventPost_run {s : State} {k : Nat} {e : Event} (he : s.host.evq.find? (fun e => s.evRoute e.typ = some k) = some e)
    (herr : s.ringErr k = false) (hfree : s.ringFree k ≠ 0) (hbm : s.host.pci.busMaster = true) :
    ∃ u : State, u = ({ s with host := { s.host with evq := s.host.evq.erase e } } : State).ringWrite k e.bytes 1 false ∧
      doEventPost k s = (if e.typ = 1 then u.taskGone (e.p0 % 2 ^ 16) else u).refill := by
  refine ⟨_, rfl, ?_⟩
  unfold doEventPost
  rw [he]
  simp [herr, hfree, hbm]

theorem eventPost_writes {s : State} {k : Nat} {e : Event} (he : s.host.evq.find? (fun e => s.evRoute e.typ = some k) = some e)
    (herr : s.ringErr k = false) (hfree : s.ringFree k ≠ 0) (hbm : s.host.pci.busMaster = true) :
    Out.hostWrite (s.rf F.RING_BASE_ADDR [k] * 4096 + 32 * (s.ring k).tail) (patch e.bytes 1 [BitVec.ofNat 8 (s.ring k).phase]) ∈
      (doEventPost k s).out ∧ (doEventPost k s).mem = s.mem := by
  obtain ⟨u, hu, hrun⟩ := eventPost_run he herr hfree hbm
  have hb : (e.bytes.getD 1 0).toNat ||| (s.ring k).phase = (s.ring k).phase := by
    have : (e.bytes.getD 1 0).toNat = 0 := rfl
    rw [this, Nat.zero_or]
  have hentry : Out.hostWrite (s.rf F.RING_BASE_ADDR [k] * 4096 + 32 * (s.ring k).tail)
      (patch e.bytes 1 [BitVec.ofNat 8 (s.ring k).phase]) ∈ u.out := by
    have h := ringWrite_entry ({ s with host := { s.host with evq := s.host.evq.erase e } } : State) k e.bytes 1 false
    rw [← hb, hu]
    exact h
  have hmem : u.mem = s.mem := by rw [hu, ringWrite_mem]
  have hgone : Grows u (if e.typ = 1 then u.taskGone (e.p0 % 2 ^ 16) else u) ∧
      (if e.typ = 1 then u.taskGone (e.p0 % 2 ^ 16) else u).mem = u.mem := by
    split
    · exact taskGone_keeps u _
    · exact ⟨Grows.refl u, rfl⟩
  rw [hrun]
  exact ⟨(hgone.1.trans (grows_refill _)).mem hentry, ((sends_refill _).mem.trans hgone.2).trans hmem⟩

/-! ### A due message is sent (R506, R507) -/

theorem ringMsg_sends (s : State) (k : Nat) : (s.msiOpen (s.rf F.RINGK_CFG_VEC [k]) = true →
      (s.ringMsg k).out = s.out ++ [.msix (s.rf F.RINGK_CFG_VEC [k]) (s.host.msix.getD (s.rf F.RINGK_CFG_VEC [k]) {}).addr
        (s.host.msix.getD (s.rf F.RINGK_CFG_VEC [k]) {}).data] ∧ (s.ringMsg k).host.pba = s.host.pba) ∧
    (s.msiOpen (s.rf F.RINGK_CFG_VEC [k]) = false →
      (s.ringMsg k).out = s.out ∧ (s.ringMsg k).host.pba = s.host.pba ||| 2 ^ s.rf F.RINGK_CFG_VEC [k]) := by
  constructor
  · intro h
    have hopen : (s.upRing k (fun r => { r with since := 0, oldest := none, due := none })).msiOpen (s.rf F.RINGK_CFG_VEC [k]) = true := h
    rw [State.ringMsg, msi_of_open hopen]
    exact ⟨rfl, rfl⟩
  · intro h
    have hshut : (s.upRing k (fun r => { r with since := 0, oldest := none, due := none })).msiOpen (s.rf F.RINGK_CFG_VEC [k]) = false := h
    rw [State.ringMsg, State.msi, hshut]
    exact ⟨rfl, rfl⟩

theorem ringMsg_ring (s : State) {k : Nat} (hk : k < s.host.rings.length) :
    (s.ringMsg k).ring k = { s.ring k with since := 0, oldest := none, due := none } :=
  ((notes_msi _ _).ring k).trans (upRing_ring_same _ _ _ hk)

/-- Settles O5, by what is written at TAIL and what a message does. -/
theorem eventsAndMessages : Obligations.EventsAndMessages := by
  refine ⟨fun s k e he herr hfree hbm => ?_, fun s k t0 due hirq hdue hle hshaped hk => ?_⟩
  · obtain ⟨hout, hmem⟩ := eventPost_writes he herr hfree hbm
    exact ⟨_, rfl, hout, hmem⟩
  · have hrun : doIrqTimerExpiry k t0 s = (s.at t0).ringMsg k := by simp [doIrqTimerExpiry, hirq, hdue, hle]
    have hring := ringMsg_ring (s.at t0) (k := k) (by rw [at_host, hshaped.1]; exact hk)
    obtain ⟨hopen, hshut⟩ := ringMsg_sends (s.at t0) k
    refine ⟨_, s.rf F.RINGK_CFG_VEC [k], congrArg Host.Outcome.next hrun, rfl, hopen, hshut, ?_, ?_, ?_, ?_, ?_⟩
    · rw [hring]
    · rw [hring]
    · rw [hring]
      rfl
    · rw [ringMsg_regs, at_regs]
    · rw [ringMsg_mem, at_mem]

/-! ### Pending messages are sent when their vectors open (R506, R511) -/

/-- Bits that are set, taken off a number. -/
theorem testBit_sub_sum {l : List Nat} (hn : l.Nodup) {p : Nat} (hset : ∀ v ∈ l, p.testBit v = true) (i : Nat) :
    (p - (l.map (2 ^ ·)).sum).testBit i = (p.testBit i && !decide (i ∈ l)) := by
  induction l generalizing p with
  | nil => simp
  | cons v r ih =>
    obtain ⟨hv, hr⟩ := List.nodup_cons.1 hn
    have hand : p &&& 2 ^ v = 2 ^ v := by
      refine Nat.eq_of_testBit_eq fun j => ?_
      rw [Nat.testBit_and, Nat.testBit_two_pow]
      by_cases hj : v = j
      · subst hj
        simp [hset v List.mem_cons_self]
      · simp [hj]
    have hbit (j : Nat) : (p - 2 ^ v).testBit j = (p.testBit j && !decide (j = v)) := by
      conv_lhs => rw [← hand]
      exact testBit_clear p v j
    have hrest : ∀ w ∈ r, (p - 2 ^ v).testBit w = true := fun w hw => by
      have hwv : w ≠ v := fun h => hv (h ▸ hw)
      rw [hbit, hset w (List.mem_cons_of_mem _ hw)]
      simp [hwv]
    rw [List.map_cons, List.sum_cons, ← Nat.sub_sub, ih hr hrest, hbit]
    by_cases h1 : i = v <;> simp [h1]

/-- Messages whose vectors are open go out in turn, and nothing else changes. -/
theorem msis_open {l : List Nat} {s : State} (h : ∀ v ∈ l, s.msiOpen v = true) : l.foldl (fun s v => s.msi v) s =
    { s with out := s.out ++ l.map (fun v => .msix v (s.host.msix.getD v {}).addr (s.host.msix.getD v {}).data) } := by
  induction l generalizing s with
  | nil => simp
  | cons v r ih =>
    rw [List.foldl_cons, msi_of_open (h v List.mem_cons_self),
      ih (s := s.emit (.msix v (s.host.msix.getD v {}).addr (s.host.msix.getD v {}).data)) fun w hw => h w (List.mem_cons_of_mem _ hw)]
    simp only [emit_out, List.append_assoc, List.map_cons, List.singleton_append]
    rfl

/-- The vectors whose pending message may go out. -/
def State.pendingOpen (s : State) : List Nat := (bitList 64 s.host.pba).filter s.msiOpen

theorem mem_pendingOpen {s : State} {v : Nat} : v ∈ s.pendingOpen ↔ v < 64 ∧ s.host.pba.testBit v = true ∧ s.msiOpen v = true := by
  simp only [State.pendingOpen, bitList, List.mem_filter, List.mem_range, and_assoc]

theorem msiFlush_eq (s : State) : s.msiFlush = { s with
    host := { s.host with pba := s.host.pba - (s.pendingOpen.map (2 ^ ·)).sum }
    out := s.out ++ s.pendingOpen.map (fun v => .msix v (s.host.msix.getD v {}).addr (s.host.msix.getD v {}).data) } :=
  msis_open (s := { s with host := { s.host with pba := s.host.pba - (s.pendingOpen.map (2 ^ ·)).sum } })
    fun _ hv => (mem_pendingOpen.1 hv).2.2

theorem msiFlush_pba (s : State) (v : Nat) (hv : v < 64) : s.msiFlush.host.pba.testBit v = (s.host.pba.testBit v && !s.msiOpen v) := by
  have hnodup : s.pendingOpen.Nodup := (List.nodup_range.filter _).filter _
  rw [msiFlush_eq]
  refine (testBit_sub_sum hnodup (fun w hw => (mem_pendingOpen.1 hw).2.1) v).trans ?_
  cases hp : s.host.pba.testBit v <;> simp [mem_pendingOpen, hv, hp]

/-! ### The host island and the link (R481, R482, R511) -/

theorem hostReset_host (s : State) (stays : Bool) (st : Nat) : (s.hostReset stays st).host.pci = {} ∧ (s.hostReset stays st).host.pba = 0 ∧
    (stays = false → (s.hostReset stays st).host.linkUp = false ∧ (s.hostReset stays st).host.speed = 0 ∧
      (s.hostReset stays st).host.width = 0) :=
  ⟨rfl, rfl, fun h => by subst h; exact ⟨rfl, rfl, rfl⟩⟩

/-- Settles O8, by what a reset of the host island leaves of its interface and what sending the pending messages does. -/
theorem hostIslandAndLink : Obligations.HostIslandAndLink := by
  refine ⟨fun s kind => ⟨_, rfl, ?_⟩, fun s gen width cfg h1 h4 hw hpow => ?_⟩
  · obtain ⟨hpci, hpba, hdown⟩ := hostReset_host (s.leaveLull.incRf F.RST_STAT_BLOCK_COUNT []) (kind = 0) St.aborted
    have hhost : (doHostIslandReset kind s).host =
        ((s.leaveLull.incRf F.RST_STAT_BLOCK_COUNT []).hostReset (kind = 0) St.aborted).host := by
      unfold doHostIslandReset
      dsimp only
      split <;> rfl
    rw [hhost, hpci, hpba]
    refine ⟨rfl, rfl, rfl, fun hk => hdown (decide_eq_false hk), fun hk => ?_⟩
    subst hk
    exact ⟨_, _, rfl, rfl, rfl, rfl⟩
  · set u : State := { s with host := { s.host with linkUp := true, speed := gen, width := width, pci := cfg } } with hu
    have hgen : ¬ (decide (gen = 0) || decide (4 < gen) || !(decide (width = 1) || decide (width = 2) || decide (width = 4)) ||
        !s.rst.pwrgood && s.rst.due) = true := by
      have hg : gen ≠ 0 := by omega
      have hp : (!s.rst.pwrgood && s.rst.due) = false := by rcases hpow with h | h <;> simp [h]
      have hw' : (decide (width = 1) || decide (width = 2) || decide (width = 4)) = true := by simpa [or_assoc] using hw
      rw [hp, hw']
      simp [hg, h4]
    have hrun : exec (.pcieLinkUp gen width cfg) s = .next u.msiFlush := congrArg Host.Outcome.next (if_neg hgen)
    have hopen (v : Nat) : u.msiFlush.msiOpen v = u.msiOpen v := by rw [msiFlush_eq]; rfl
    refine ⟨_, hrun, ?_, ?_, ?_, ?_, ?_, ?_, fun v hv => ?_, fun v hv hp hm => ?_⟩
    · rw [msiFlush_eq]
    · rw [msiFlush_eq]
    · rw [msiFlush_eq]
    · rw [msiFlush_eq]
    · rw [msiFlush_eq]
    · rw [msiFlush_eq]
    · rw [msiFlush_pba u v hv, hopen]
    · rw [hopen] at hm
      rw [msiFlush_eq]
      exact List.mem_append_right _ (List.mem_map.2 ⟨v, mem_pendingOpen.2 ⟨hv, hp, hm⟩, rfl⟩)

end Sys2Proof.Machine
end

