-- ==== Sys2Proof/Proofs/RingSetup.lean ====
section
namespace Sys2Proof.Machine

/-! ### The registers of a ring (R512) -/

/-- Fields of two ring registers of one ring lie in different registers where their bases differ. -/
theorem ring_off_ne {f g : RF} {k : Nat} (hf : f.st = [64]) (hg : g.st = [64]) (hb : f.base ≠ g.base) : f.off [k] ≠ g.off [k] := by
  simp only [RF.off, hf, hg, strideOff]
  omega

theorem setRf_ringOn (s : State) (k : Nat) (b : Bool) : (s.setRf F.RINGK_CFG_EN [k] (b2n b)).ringOn k = b :=
  rb_setRf_same s F.RINGK_CFG_EN [k] b (by decide) rfl

theorem setRf_ringOn_ne (s : State) {f : RF} {k v : Nat} (hf : f.st = [64]) (hb : f.base ≠ 0x4008) :
    (s.setRf f [k] v).ringOn k = s.ringOn k := by
  have h : F.RINGK_CFG_EN.off [k] ≠ f.off [k] := ring_off_ne rfl hf (Ne.symm hb)
  unfold State.ringOn State.rb
  rw [rf_setRf_ne s f F.RINGK_CFG_EN [k] [k] v h]

/-! ### What a cleared ring reads as (R509) -/

theorem clearRing_ringOn (s : State) (k : Nat) : (s.clearRing k).ringOn k = false := by
  show ((((s.setRf F.RINGK_CFG_EN [k] 0).setRf F.RINGK_STAT_ERR [k] 0).setRf F.RINGK_STAT_CAUSE [k] 0).setRf
    F.RING_COUNT_ENTRIES [k] 0).ringOn k = false
  rw [setRf_ringOn_ne _ rfl (by decide), setRf_ringOn_ne _ rfl (by decide), setRf_ringOn_ne _ rfl (by decide)]
  exact setRf_ringOn s k false

theorem clearRing_stat (s : State) (k : Nat) : (s.clearRing k).ringErr k = false ∧ (s.clearRing k).rf F.RINGK_STAT_CAUSE [k] = 0 := by
  set u := (s.setRf F.RINGK_CFG_EN [k] 0).setRf F.RINGK_STAT_ERR [k] 0 with hu
  have hcount (f : RF) (hf : f.st = [64]) (hb : f.base ≠ 0x4030) : ((u.setRf F.RINGK_STAT_CAUSE [k] 0).setRf F.RING_COUNT_ENTRIES [k] 0).rf f
      [k] = (u.setRf F.RINGK_STAT_CAUSE [k] 0).rf f [k] := rf_setRf_ne _ _ _ _ _ _ (ring_off_ne hf rfl hb)
  have herr : (u.setRf F.RINGK_STAT_CAUSE [k] 0).rf F.RINGK_STAT_ERR [k] = u.rf F.RINGK_STAT_ERR [k] :=
    rf_setRf_disjoint _ _ _ _ _ _ rfl (by decide) (by decide)
  constructor
  · show (((u.setRf F.RINGK_STAT_CAUSE [k] 0).setRf F.RING_COUNT_ENTRIES [k] 0).rf F.RINGK_STAT_ERR [k] == 1) = false
    rw [hcount _ rfl (by decide), herr, hu, rf_setRf_same _ _ _ _ (by decide)]
    rfl
  · show ((u.setRf F.RINGK_STAT_CAUSE [k] 0).setRf F.RING_COUNT_ENTRIES [k] 0).rf F.RINGK_STAT_CAUSE [k] = 0
    rw [hcount _ rfl (by decide), rf_setRf_same _ _ _ _ (by decide)]
    rfl

theorem clearRing_ring (s : State) (k : Nat) : (s.clearRing k).ring k = {} := by
  show (s.host.rings.modify k (fun _ => {})).getD k {} = {}
  by_cases h : k < s.host.rings.length
  · exact getD_modify_same _ _ _ _ h
  · exact List.getD_eq_default _ _ (by simpa using h)

/-- A ring of any role ends its reset by being cleared; events that no ring takes any more then go their way. -/
theorem resetRing_clears (s : State) (k : Nat) : ∃ u : State, Notes (u.clearRing k) (s.resetRing k) := by
  unfold State.resetRing
  split
  · exact ⟨_, Notes.refl _⟩
  · split
    · exact ⟨_, Notes.refl _⟩
    · exact ⟨s, notes_reroute _⟩

/-! ### HOST_ERR (R520) -/

/-- A bit of HOST_ERR below the ring it names last is set. -/
theorem hostErr_sets (s : State) {b : Nat} (hb : b < 32) (r : Option Nat) :
    fget ((s.hostErr b r).reg (F.HOST_ERR_RING.off [])) b 1 = 1 := by
  set v := fset (s.reg (F.HOST_ERR_RING.off [])) b 1 1 with hv
  have hset : fget v b 1 = 1 := fget_fset_same (by omega)
  have hring : fget ((match r with
      | some k => (s.setReg (F.HOST_ERR_RING.off []) v).setRf F.HOST_ERR_LAST_RING [] k
      | none => s.setReg (F.HOST_ERR_RING.off []) v : State).reg (F.HOST_ERR_RING.off [])) b 1 = 1 := by
    cases r with
    | none => rw [reg_setReg_same, hset]
    | some k =>
      show fget (((s.setReg (F.HOST_ERR_RING.off []) v).setReg (F.HOST_ERR_LAST_RING.off []) _).reg (F.HOST_ERR_LAST_RING.off [])) b 1 = 1
      rw [reg_setReg_same]
      refine (fget_fset_disjoint (by decide) (Or.inr ?_)).trans ?_
      · show b + 1 ≤ 32
        omega
      · show fget ((s.setReg (F.HOST_ERR_RING.off []) v).reg (F.HOST_ERR_RING.off [])) b 1 = 1
        rw [reg_setReg_same, hset]
  unfold State.hostErr
  dsimp only
  split
  · rw [reg_congr (msi_regs _ _)]
    exact hring
  · exact hring

/-! ### A write of RING_k_CFG (R486, R508) -/

/-- What a write of RING_k_CFG hands to the fields: its bits of the ring's role but EN, all or, while EN is 1, those that may then change. -/
def State.ringCfgWord (s : State) (k : Nat) (v : W64) : W64 :=
  let m := (if s.ringOn k then roleBits k &&& liveBits else roleBits k) &&& 0xFFFFFFFFFFFFFFFE
  BitVec.ofNat 64 (((s.reg (F.RINGK_CFG_EN.off [k])).toNat - ((s.reg (F.RINGK_CFG_EN.off [k])).toNat &&& m)) ||| (v.toNat &&& m))

/-- The state with the fields of RING_k_CFG written. -/
def State.ringCfgSet (s : State) (k : Nat) (v : W64) : State := s.writeFields (F.RINGK_CFG_EN.off [k]) (s.ringCfgWord k v)

theorem ringCfgWord_en (s : State) (k : Nat) (v : W64) : fget (s.ringCfgWord k v) 0 1 = fget (s.reg (F.RINGK_CFG_EN.off [k])) 0 1 := by
  generalize hm : (if s.ringOn k then roleBits k &&& liveBits else roleBits k) &&& 0xFFFFFFFFFFFFFFFE = m
  have hm0 : m.testBit 0 = false := by
    rw [← hm, Nat.testBit_and]
    simp
  have hbit (a b : Nat) (h : a.testBit 0 = b.testBit 0) : bitsOf a 0 1 = bitsOf b 0 1 := by
    have ha := Nat.testBit_zero a
    have hb := Nat.testBit_zero b
    rw [bitsOf_eq, bitsOf_eq]
    simp only [ha, hb, decide_eq_decide] at h
    simp only [Nat.pow_zero, Nat.div_one, Nat.pow_one]
    omega
  unfold fget State.ringCfgWord
  dsimp only
  rw [hm]
  apply hbit
  rw [BitVec.toNat_ofNat, Nat.testBit_mod_two_pow, Nat.testBit_or, testBit_sub_and, Nat.testBit_and, hm0]
  simp

theorem findReg_ringkCfg : ∀ k < 64, findReg (F.RINGK_CFG_EN.off [k]) = some (rowRingkCfg, [k]) := by decide

theorem findReg_ringCtl : ∀ k < 64, findReg (F.RING_CTL_RESET.off [k]) = some (rowRingCtl, [k]) := by decide

/-- EN is not written by the fields of a RING_k_CFG write. -/
theorem ringCfgSet_ringOn (s : State) {k : Nat} (v : W64) (hk : k < 64) : (s.ringCfgSet k v).ringOn k = s.ringOn k := by
  have hf : ⟨0, 1, .rw, .l, 0, 1, 0, none⟩ ∈ rowRingkCfg.flds.flatMap Fld.spread := by decide
  have h := rf_writeFields_rw (s := s) (f := F.RINGK_CFG_EN) (v := s.ringCfgWord k v) (findReg_ringkCfg k hk) hf
  have he := ringCfgWord_en s k v
  unfold State.ringOn State.rb State.ringCfgSet
  rw [h]
  exact congrArg (· == 1) he

/-- A change of registers and of what the host interface holds beside its rings and descriptors, EN of ring k aside. -/
theorem ringCfgSet_eq (s : State) (k : Nat) (v : W64) : ∃ g, s.ringCfgSet k v = { s with regs := g } := writeFields_eq s _ _

/-- What a write of RING_k_CFG does once boot is done. -/
theorem writeRingCfg_eq {s : State} {k : Nat} (v : W64) (hboot : s.bootDone = true) (hk : k < 64) : s.writeRingCfg k v =
    (if fget v 0 1 = 1 then if s.ringOn k then (if 48 ≤ k then (s.ringCfgSet k v).reroute else s.ringCfgSet k v) else (s.ringCfgSet k v).ringOpen k
      else if s.ringOn k then (s.ringCfgSet k v).ringShut k else s.ringCfgSet k v).noteMet :=
  if_neg (by simp [hboot, hk])

/-! ### Enabling (R486) -/

/-- A ring that may be enabled is, with its pointers at 0 and phase 1; no other ring's pointers move. -/
theorem ringOpen_opens {s : State} {k : Nat} (hk : k < s.host.rings.length) (hk64 : k < 64) (h : 32 ≤ k ∨ s.ringOn (s.cqOf k) = true) :
    (s.ringOpen k).ringOn k = true ∧ (s.ringOpen k).ring k = { phase := 1 } ∧ (∀ j, j ≠ k → (s.ringOpen k).ring j = s.ring j) ∧
      (s.ringOpen k).host.inflight = s.host.inflight ∧ (s.ringOpen k).mem = s.mem := by
  set u := ((s.setRf F.RINGK_CFG_EN [k] 1).setRf F.RING_COUNT_ENTRIES [k] 0).upRing k (fun _ => { phase := 1 }) with hu
  have hnot : ¬ (decide (k < 32) && !s.ringOn (s.cqOf k)) = true := by
    rcases h with h | h
    · simp [Nat.not_lt.2 h]
    · simp [h]
  have hopen : Notes u (s.ringOpen k) := by
    have hsplit : s.ringOpen k = if 48 ≤ k then u.refill else u := if_neg hnot
    rw [hsplit]
    exact Notes.ite (notes_refill u) (Notes.refl u)
  have hon : u.ringOn k = true := by
    show ((s.setRf F.RINGK_CFG_EN [k] 1).setRf F.RING_COUNT_ENTRIES [k] 0).ringOn k = true
    rw [setRf_ringOn_ne _ rfl (by decide)]
    exact setRf_ringOn s k true
  refine ⟨(hopen.ringOn hk64).trans hon, (hopen.ring k).trans (upRing_ring_same _ _ _ hk), fun j hj => ?_, hopen.inflight, hopen.sends.mem⟩
  exact (hopen.ring j).trans (upRing_ring_ne _ _ hj)

/-- A submission ring whose completion ring is not enabled is refused. -/
theorem ringOpen_refused {s : State} {k : Nat} (hk : k < 32) (h : s.ringOn (s.cqOf k) = false) : s.ringOpen k = s.hostErr 4 :=
  if_pos (by simp [hk, h])

/-! ### Disabling (R508) -/

theorem ringShut_off {s : State} {k : Nat} (hk : k < 32 ∨ 48 ≤ k) (hk64 : k < 64) :
    (s.ringShut k).ringOn k = false ∧ (s.ringShut k).mem = s.mem ∧ (s.ringShut k).host.inflight = s.host.inflight := by
  have hshut : Notes (s.setRf F.RINGK_CFG_EN [k] 0) (s.ringShut k) := by
    unfold State.ringShut
    split
    · exact Notes.refl _
    · rw [if_neg (by omega)]
      exact notes_reroute _
  exact ⟨(hshut.ringOn hk64).trans (setRf_ringOn s k false), hshut.sends.mem, hshut.inflight⟩

/-- A completion ring is disabled once nothing is reserved in it, and marked until then. -/
theorem ringShut_closes {s : State} {k : Nat} (h32 : 32 ≤ k) (h48 : k < 48) (hk : k < s.host.rings.length) :
    (s.reserved k = 0 → (s.ringShut k).ringOn k = false) ∧ (s.reserved k ≠ 0 → ((s.ringShut k).ring k).closing = true) ∧
      (s.ringShut k).mem = s.mem ∧ (s.ringShut k).host.inflight = s.host.inflight := by
  have hrun : s.ringShut k = (s.upRing k (fun r => { r with closing := true })).closeRing k := by
    unfold State.ringShut
    rw [if_neg (by omega), if_pos h48]
  have hclosing : ((s.upRing k (fun r => { r with closing := true })).ring k).closing = true := by rw [upRing_ring_same _ _ _ hk]
  rw [hrun]
  refine ⟨fun h0 => ?_, fun h0 => ?_, closeRing_mem _ _, closeRing_inflight _ _⟩
  · have hpos : (((s.upRing k (fun r => { r with closing := true })).ring k).closing &&
        decide ((s.upRing k (fun r => { r with closing := true })).reserved k = 0)) = true := by
      rw [hclosing]
      exact decide_eq_true h0
    unfold State.closeRing
    rw [if_pos hpos]
    exact setRf_ringOn _ k false
  · have hneg : ¬ (((s.upRing k (fun r => { r with closing := true })).ring k).closing &&
        decide ((s.upRing k (fun r => { r with closing := true })).reserved k = 0)) = true := by
      rw [hclosing]
      exact fun h => h0 (of_decide_eq_true h)
    unfold State.closeRing
    rw [if_neg hneg, hclosing]

/-! ### The commands -/

/-- A write of a register that takes none until boot is done (R706, R707). -/
theorem busWrite_before_boot {s : State} {off : Nat} {f : State → State} {r : Row} {is : List Nat} (h : findReg off = some (r, is))
    (hr : bootAnswers r.reg off true = false) (hboot : s.bootDone = false) (hlull : s.power.lull = 0) :
    s.busWrite off f = ({ s with held := none } : State).hostAccess := by
  have hans : s.answers r is off true = false := by simp [State.answers, hboot, hr]
  unfold State.busWrite
  simp [h, hans, hlull]

/-- The state in which a register write takes effect. -/
abbrev State.written (s : State) : State := ({ s with held := none } : State).hostAccess

theorem ringEnable_run {s : State} {k : Nat} {v : W64} (hw : Safety.writable s (F.RINGK_CFG_EN.off [k]) = true) :
    exec (.ringEnable k v) s = .next (s.written.writeRingCfg k v) := congrArg Host.Outcome.next (busWrite_of_writable hw)

theorem ringDisable_run {s : State} {k : Nat} {v : W64} (hw : Safety.writable s (F.RINGK_CFG_EN.off [k]) = true) :
    exec (.ringDisable k v) s = .next (s.written.writeRingCfg k v) := congrArg Host.Outcome.next (busWrite_of_writable hw)

/-- EN written 1 where it is 0. -/
theorem ringEnable_facts {s : State} {k : Nat} {v : W64} (hboot : s.bootDone = true) (hoff : s.ringOn k = false) (hv : fget v 0 1 = 1)
    (hk : k < 64) (hlen : k < s.host.rings.length) : ∃ t : State, s.writeRingCfg k v = t ∧ t.mem = s.mem ∧
      (32 ≤ k ∨ (s.ringCfgSet k v).ringOn ((s.ringCfgSet k v).cqOf k) = true →
        t.ringOn k = true ∧ (t.ring k).head = 0 ∧ (t.ring k).tail = 0 ∧ (t.ring k).phase = 1 ∧ t.host.inflight = s.host.inflight ∧
          ∀ j, j ≠ k → (t.ring j).head = (s.ring j).head ∧ (t.ring j).tail = (s.ring j).tail) ∧
      (k < 32 → (s.ringCfgSet k v).ringOn ((s.ringCfgSet k v).cqOf k) = false → t.ringOn k = false ∧
        (t.reg (F.HOST_ERR_RING.off [])).toNat.testBit 4 = true ∧ t.host.inflight = s.host.inflight) := by
  set u := s.ringCfgSet k v with hu
  obtain ⟨g, hg⟩ := ringCfgSet_eq s k v
  have hrun : s.writeRingCfg k v = (u.ringOpen k).noteMet := by simp [writeRingCfg_eq v hboot hk, hv, hoff, hu]
  have huon : u.ringOn k = false := (ringCfgSet_ringOn s v hk).trans hoff
  have hring (j : Nat) : u.ring j = s.ring j := by rw [hu, hg]; rfl
  have hin : u.host.inflight = s.host.inflight := by rw [hu, hg]
  have hmem : u.mem = s.mem := by rw [hu, hg]
  have hulen : k < u.host.rings.length := by rw [hu, hg]; exact hlen
  refine ⟨_, hrun, ?_, fun h => ?_, fun h32 h => ?_⟩
  · rw [noteMet_mem]
    by_cases h : 32 ≤ k ∨ u.ringOn (u.cqOf k) = true
    · exact (ringOpen_opens hulen hk h).2.2.2.2.trans hmem
    · have h' : k < 32 ∧ u.ringOn (u.cqOf k) = false := by simpa [not_or] using h
      rw [ringOpen_refused h'.1 h'.2]
      exact (notes_hostErr u 4 none).sends.mem.trans hmem
  · obtain ⟨hon, hnew, hothers, hinf, -⟩ := ringOpen_opens hulen hk h
    obtain ⟨hhead, htail, hphase, -⟩ := noteMet_ring_place (u.ringOpen k) k
    rw [hnew] at hhead htail hphase
    refine ⟨by rw [noteMet_ringOn, hon], hhead, htail, hphase, by rw [noteMet_inflight, hinf, hin], fun j hj => ?_⟩
    obtain ⟨hhead, htail, -⟩ := noteMet_ring_place (u.ringOpen k) j
    rw [hothers j hj, hring] at hhead htail
    exact ⟨hhead, htail⟩
  · have hnotes := notes_hostErr u 4 none
    have hset := hostErr_sets u (b := 4) (by decide) none
    rw [ringOpen_refused h32 h]
    refine ⟨by rw [noteMet_ringOn, hnotes.ringOn hk, huon], ?_, by rw [noteMet_inflight, hnotes.inflight, hin]⟩
    rw [reg_congr (noteMet_regs _)]
    rw [fget, bitsOf_eq] at hset
    rw [Nat.testBit_eq_decide_div_mod_eq]
    exact decide_eq_true hset

end Sys2Proof.Machine

namespace Sys2Proof
open Sys2Proof.Machine

/-- Settles O6: RING_k_CFG by what enabling and disabling do, RING_k_CTL by what a cleared ring reads as. -/
theorem ringSetup : Obligations.RingSetup := by
  refine ⟨fun s k v hw hboot hoff hv hk hshaped => ?_, fun s k v hw hboot hon hv hrole hk => ?_, fun s k v hw hboot hon hv h32 h48 hshaped => ?_,
    fun s k v hboot hlull hk => ?_, fun s k v hw hboot hv hk => ?_, fun s k v hw hv hk => ?_⟩
  · have hoff' : s.written.ringOn k = false := hoff
    obtain ⟨t, hrun, hmem, hopen, hshut⟩ := ringEnable_facts (s := s.written) hboot hoff' hv hk (hshaped.1 ▸ hk)
    refine ⟨t, s.written.ringCfgSet k v, (ringEnable_run hw).trans (congrArg _ hrun), hmem, ?_, hopen, hshut⟩
    unfold State.ringCfgSet State.ringCfgWord
    rw [hoff']
    rfl
  · have hrun : s.written.writeRingCfg k v = ((s.written.ringCfgSet k v).ringShut k).noteMet := by
      have hon' : s.written.ringOn k = true := hon
      simp [writeRingCfg_eq v (show s.written.bootDone = true from hboot) hk, hv, hon']
    obtain ⟨g, hg⟩ := ringCfgSet_eq s.written k v
    obtain ⟨hshut, hmem, hin⟩ := ringShut_off (s := s.written.ringCfgSet k v) hrole hk
    refine ⟨_, (ringDisable_run hw).trans (congrArg _ hrun), by rw [noteMet_ringOn, hshut], ?_, ?_⟩
    · rw [noteMet_mem, hmem, hg]
      rfl
    · rw [noteMet_inflight, hin, hg]
      rfl
  · have hk : k < 64 := by omega
    have hrun : s.written.writeRingCfg k v = ((s.written.ringCfgSet k v).ringShut k).noteMet := by
      have hon' : s.written.ringOn k = true := hon
      simp [writeRingCfg_eq v (show s.written.bootDone = true from hboot) hk, hv, hon']
    obtain ⟨g, hg⟩ := ringCfgSet_eq s.written k v
    have hres : (s.written.ringCfgSet k v).reserved k = s.reserved k := by rw [hg]; rfl
    obtain ⟨hshut, hclosing, hmem, hin⟩ := ringShut_closes (s := s.written.ringCfgSet k v) h32 h48 (by rw [hg]; exact hshaped.1 ▸ hk)
    rw [hres] at hshut hclosing
    refine ⟨_, (ringDisable_run hw).trans (congrArg _ hrun), fun h0 => by rw [noteMet_ringOn, hshut h0],
      fun h0 => (noteMet_ring_place _ k).2.2.2.trans (hclosing h0), ?_, ?_⟩
    · rw [noteMet_mem, hmem, hg]
      rfl
    · rw [noteMet_inflight, hin, hg]
      rfl
  · exact ⟨congrArg Host.Outcome.next (busWrite_before_boot (findReg_ringkCfg k hk) rfl hboot hlull),
      congrArg Host.Outcome.next (busWrite_before_boot (findReg_ringkCfg k hk) rfl hboot hlull),
      congrArg Host.Outcome.next (busWrite_before_boot (findReg_ringCtl k hk) rfl hboot hlull)⟩
  · have hrun : exec (.ringReset k v) s = .next (s.written.resetRing k).noteMet := by
      have hboot' : s.written.bootDone = true := hboot
      refine congrArg Host.Outcome.next ((busWrite_of_writable hw).trans (if_neg ?_))
      simp [hboot', hk, hv]
    obtain ⟨u, hu⟩ := resetRing_clears s.written k
    obtain ⟨herr, hcause⟩ := clearRing_stat u k
    obtain ⟨hhead, htail, hphase, -⟩ := noteMet_ring_place (s.written.resetRing k) k
    rw [hu.ring k, clearRing_ring] at hhead htail hphase
    refine ⟨_, hrun, ?_, ?_, ?_, hhead, htail, hphase, rfl⟩
    · rw [noteMet_ringOn, hu.ringOn hk, clearRing_ringOn]
    · rw [noteMet_ringErr, hu.ringErr hk, herr]
    · rw [rf_congr (noteMet_regs _), hu.ringCause hk, hcause]
  · refine congrArg Host.Outcome.next ((busWrite_of_writable hw).trans (if_pos ?_))
    simp [hv]

end Sys2Proof
end

