-- ==== Sys2Proof/Proofs/Doorbells.lean ====
section
namespace Sys2Proof.Machine

/-! ### A doorbell of a chip that is awake (R500, R510) -/

/-- A doorbell's place is valid: within the ring, and forward of what has been rung so far. -/
def State.bellGood (s : State) (k w : Nat) : Bool :=
  w < s.ringSize k && (if k < 32 then ((s.ring k).tail + s.ringSize k - (s.ring k).head) % s.ringSize k ≤ (w + s.ringSize k - (s.ring k).head) % s.ringSize k
    else ((s.ring k).tail + s.ringSize k - w) % s.ringSize k ≤ ((s.ring k).tail + s.ringSize k - (s.ring k).head) % s.ringSize k)

/-- The pointer of ring k that its doorbell moves. -/
def State.bellPtr (s : State) (k : Nat) : Nat := if k < 32 then (s.ring k).tail else (s.ring k).head

/-- What a doorbell does once boot is done, on a chip that is awake. -/
theorem doorbell_eq {s : State} {k : Nat} (v : W64) (hboot : s.bootDone = true) (hlull : s.power.lull = 0) (hk : k < 64) : s.doorbell k v =
    if !s.hostAccess.ringOn k || s.hostAccess.ringErr k then s.hostAccess.hostErr 1 (some k)
    else if fget v 0 32 = s.bellPtr k then s.hostAccess
    else if !s.bellGood k (fget v 0 32) then (s.hostAccess.ringFails k 1).noteMet
    else (s.hostAccess.upRing k (fun r => if k < 32 then { r with tail := fget v 0 32 } else { r with head := fget v 0 32 })).noteMet := by
  have hready : ¬ (!s.hostAccess.bootDone || decide (64 ≤ k)) = true := by
    have hb : s.hostAccess.bootDone = true := hboot
    simp [hb, hk]
  have hawake : s.hostAccess.wakeChip 2 = s.hostAccess := wakeChip_awake _ _ (by show s.power.lull ≠ 2; omega)
  unfold State.doorbell
  dsimp only
  rw [hawake]
  exact if_neg hready

theorem doorbell_ignored {s : State} {k : Nat} (v : W64) (hboot : s.bootDone = true) (hlull : s.power.lull = 0) (hk : k < 64)
    (h : s.ringOn k = false ∨ s.ringErr k = true) : s.doorbell k v = s.hostAccess.hostErr 1 (some k) := by
  have hon : s.hostAccess.ringOn k = s.ringOn k := rfl
  have herr : s.hostAccess.ringErr k = s.ringErr k := rfl
  rw [doorbell_eq v hboot hlull hk, if_pos]
  rw [hon, herr]
  rcases h with h | h <;> simp [h]

theorem doorbell_taken {s : State} {k : Nat} (v : W64) (hboot : s.bootDone = true) (hlull : s.power.lull = 0) (hk : k < 64)
    (hon : s.ringOn k = true) (herr : s.ringErr k = false) : s.doorbell k v =
      if fget v 0 32 = s.bellPtr k then s.hostAccess
      else if !s.bellGood k (fget v 0 32) then (s.hostAccess.ringFails k 1).noteMet
      else (s.hostAccess.upRing k (fun r => if k < 32 then { r with tail := fget v 0 32 } else { r with head := fget v 0 32 })).noteMet := by
  have hon' : s.hostAccess.ringOn k = true := hon
  have herr' : s.hostAccess.ringErr k = false := herr
  rw [doorbell_eq v hboot hlull hk, if_neg]
  simp [hon', herr']

/-- A valid doorbell with a new place moves its pointer, and nothing else of the machine but what `noteMet` notes. -/
theorem doorbell_moves {s : State} {k : Nat} {v : W64} (hboot : s.bootDone = true) (hlull : s.power.lull = 0) (hk : k < 64)
    (hon : s.ringOn k = true) (herr : s.ringErr k = false) (hnew : fget v 0 32 ≠ s.bellPtr k) (hgood : s.bellGood k (fget v 0 32) = true)
    (hlen : k < s.host.rings.length) :
    ((s.doorbell k v).ring k).tail = (if k < 32 then fget v 0 32 else (s.ring k).tail) ∧
      ((s.doorbell k v).ring k).head = (if k < 32 then (s.ring k).head else fget v 0 32) ∧
      (s.doorbell k v).regs = s.regs ∧ (s.doorbell k v).mem = s.mem ∧ (s.doorbell k v).host.inflight = s.host.inflight := by
  rw [doorbell_taken v hboot hlull hk hon herr, if_neg hnew, if_neg (by simp [hgood])]
  obtain ⟨hhead, htail, -⟩ := noteMet_ring_place
    (s.hostAccess.upRing k (fun r => if k < 32 then { r with tail := fget v 0 32 } else { r with head := fget v 0 32 })) k
  rw [upRing_ring_same s.hostAccess k _ hlen] at hhead htail
  refine ⟨htail.trans ?_, hhead.trans ?_, noteMet_regs _, noteMet_mem _, noteMet_inflight _⟩
  · split <;> rfl
  · split <;> rfl

/-- A ring that enters ERROR says so, with the cause (R510). -/
theorem ringError_facts (s : State) {k c : Nat} (hk : k < 64) (hc : c < 16) : (s.ringError k c).ringErr k = true ∧
    (s.ringError k c).rf F.RINGK_STAT_CAUSE [k] = c ∧ (s.ringError k c).host.rings = s.host.rings ∧ (s.ringError k c).mem = s.mem := by
  set u := (s.setRf F.RINGK_STAT_ERR [k] 1).setRf F.RINGK_STAT_CAUSE [k] c with hu
  have hnotes : Notes u (s.ringError k c) := (notes_hostErr u 0 (some k)).trans (notes_queueEvent _ _)
  have herr : u.rf F.RINGK_STAT_ERR [k] = 1 := by
    rw [hu, rf_setRf_disjoint _ F.RINGK_STAT_CAUSE F.RINGK_STAT_ERR [k] [k] c rfl (by decide) (by decide), rf_setRf_same _ _ _ _ (by decide)]
    rfl
  refine ⟨(hnotes.ringErr hk).trans (by show (u.rf F.RINGK_STAT_ERR [k] == 1) = true; rw [herr]; rfl), ?_, hnotes.rings, hnotes.sends.mem⟩
  rw [hnotes.ringCause hk, hu, rf_setRf_same _ _ _ _ (by decide)]
  exact Nat.mod_eq_of_lt hc

theorem hostErr_ignored (s : State) (k : Nat) : (s.hostErr 1 (some k)).rb F.HOST_ERR_DB_IGNORED = true := by
  have h := hostErr_sets s (b := 1) (by decide) (some k)
  show (fget ((s.hostErr 1 (some k)).reg (F.HOST_ERR_DB_IGNORED.off [])) 1 1 == 1) = true
  exact beq_iff_eq.2 h

/-- Settles O7, by the cases of a doorbell. -/
theorem doorbells : Obligations.Doorbells := by
  refine ⟨fun s k v hboot hlull hk hon herr hlt hnew hgrow hshaped => ?_, fun s k v hboot hlull h32 hk hon herr hlt hnew hshrink hshaped => ?_,
    fun s k cur v i hboot hlull hk hi hcur => ?_⟩
  · have hrun : exec (.submissionDoorbell k v) s = .next (s.doorbell k v) := congrArg Host.Outcome.next (if_pos hk)
    have hgood : s.bellGood k (fget v 0 32) = true := by simp [State.bellGood, hlt, hk, hgrow]
    obtain ⟨htail, hhead, hregs, hmem, hin⟩ := doorbell_moves (v := v) hboot hlull (by omega) hon herr (by rwa [State.bellPtr, if_pos hk])
      hgood (by rw [hshaped.1]; omega)
    rw [if_pos hk] at htail hhead
    exact ⟨_, hrun, htail, hhead, hregs, hmem, hin⟩
  · have hnot : ¬ k < 32 := by omega
    have hrun : exec (.headDoorbell k v) s = .next (s.doorbell k v) := congrArg Host.Outcome.next (if_pos h32)
    have hgood : s.bellGood k (fget v 0 32) = true := by simp [State.bellGood, hlt, hnot, hshrink]
    obtain ⟨htail, hhead, hregs, hmem, hin⟩ := doorbell_moves (v := v) hboot hlull hk hon herr (by rwa [State.bellPtr, if_neg hnot])
      hgood (by rw [hshaped.1]; omega)
    rw [if_neg hnot] at htail hhead
    exact ⟨_, hrun, hhead, htail, hregs, hmem, hin⟩
  · have hrun : exec i s = .next (s.doorbell k v) := by
      rw [hi]
      split
      next h => exact congrArg Host.Outcome.next (if_pos h)
      next h => exact congrArg Host.Outcome.next (if_pos (by omega))
    have hptr : s.bellPtr k = cur := hcur.symm
    refine ⟨fun hon herr hsame => ?_, fun hon herr hnew hbad => ?_, fun hoff => ?_⟩
    · rw [hrun, doorbell_taken v hboot hlull hk hon herr, if_pos (hsame.trans hptr.symm)]
    · have hnot : s.bellGood k (fget v 0 32) = false := by
        unfold State.bellGood
        rcases hbad with h | ⟨h, hlt⟩ | ⟨h, hlt⟩
        · simp [Nat.not_lt.2 h]
        · simp [h, hlt]
        · simp [Nat.not_lt.2 h, hlt]
      obtain ⟨herr', hcause, hrings, hmem⟩ := ringError_facts s.hostAccess (c := 1) hk (by decide)
      refine ⟨_, s.hostAccess.ringError k 1, ?_, herr', hcause, hrings, hmem, rfl⟩
      rw [hrun, doorbell_taken v hboot hlull hk hon herr, if_neg (fun h => hnew (h.trans hptr)), if_pos (by simp [hnot])]
      rfl
    · have hnotes := notes_hostErr s.hostAccess 1 (some k)
      refine ⟨_, hrun.trans (congrArg _ (doorbell_ignored v hboot hlull hk hoff)), hostErr_ignored _ k, hnotes.rings, hnotes.inflight,
        hnotes.sends.mem⟩

end Sys2Proof.Machine
end

