-- ==== Sys2Proof/Proofs/Windsock.lean ====
section
namespace Sys2Proof.Machine

/-! ### Readings packed four to a register (R669) -/

/-- A register field of 16 bits, four to a register, in a row of registers 8 bytes apart. -/
structure Packed (f : RF) : Prop where
  st : f.st = [8]
  lo : f.lo = 0
  w : f.w = 16
  step : f.step = 16

theorem packed_temp : Packed F.WS_TEMP_TEMP := ⟨rfl, rfl, rfl, rfl⟩
theorem packed_freq : Packed F.WS_PROC_FREQ := ⟨rfl, rfl, rfl, rfl⟩

theorem Packed.off {f : RF} (h : Packed f) (j i : Nat) : (f.at j).off [i] = f.base + 8 * i := by
  simp [RF.off, RF.at, strideOff, h.st]

theorem Packed.fits {f : RF} (h : Packed f) (k : Nat) : (f.at (k % 4)).lo + (f.at (k % 4)).w ≤ 64 := by
  simp only [RF.at, h.lo, h.w, h.step]
  omega

theorem Packed.read_same {f : RF} (h : Packed f) (s : State) (k v : Nat) :
    (s.setRf (f.at (k % 4)) [k / 4] v).rf (f.at (k % 4)) [k / 4] = v % 2 ^ 16 := by
  rw [rf_setRf_same _ _ _ _ (h.fits k)]
  simp only [RF.at, h.w]

/-- A reading leaves the other readings as they were. -/
theorem Packed.read_ne {f : RF} (h : Packed f) (s : State) {j k : Nat} (v : Nat) (hj : j ≠ k) :
    (s.setRf (f.at (k % 4)) [k / 4] v).rf (f.at (j % 4)) [j / 4] = s.rf (f.at (j % 4)) [j / 4] := by
  by_cases hreg : j / 4 = k / 4
  · rw [hreg]
    refine rf_setRf_disjoint _ _ _ _ _ _ (by rw [h.off, h.off]) (h.fits k) ?_
    simp only [RF.at, h.lo, h.w, h.step]
    omega
  · refine rf_setRf_ne _ _ _ _ _ _ ?_
    rw [h.off, h.off]
    omega

/-! ### PROCESS_SAMPLE (R669) -/

/-- The process readings of the clusters listed enter their registers. -/
def State.setProcsOf (s : State) (l : List Nat) (freqs : List Nat) : State :=
  l.foldl (fun s n => match freqs[n]? with
    | some v => s.setRf (F.WS_PROC_FREQ.at (n % 4)) [n / 4] v
    | none => s) s

theorem setProcsOf_facts {l : List Nat} (hl : l.Nodup) (h12 : ∀ n ∈ l, n < 12) (freqs : List Nat) (s : State) :
    (∀ n v, n ∈ l → freqs[n]? = some v → (s.setProcsOf l freqs).rf (F.WS_PROC_FREQ.at (n % 4)) [n / 4] = v % 2 ^ 16) ∧
    (∀ n, n ∉ l → (s.setProcsOf l freqs).rf (F.WS_PROC_FREQ.at (n % 4)) [n / 4] = s.rf (F.WS_PROC_FREQ.at (n % 4)) [n / 4]) ∧
    (∀ o, o ≠ F.WS_PROC_FREQ.off [0] → o ≠ F.WS_PROC_FREQ.off [1] → o ≠ F.WS_PROC_FREQ.off [2] → (s.setProcsOf l freqs).reg o = s.reg o) ∧
    (s.setProcsOf l freqs).dtime = s.dtime ∧ (s.setProcsOf l freqs).mem = s.mem ∧ (s.setProcsOf l freqs).out = s.out := by
  induction l generalizing s with
  | nil => exact ⟨fun _ _ h => absurd h List.not_mem_nil, fun _ _ => rfl, fun _ _ _ _ => rfl, rfl, rfl, rfl⟩
  | cons k r ih =>
    obtain ⟨hk, hr⟩ := List.nodup_cons.1 hl
    have hrest := ih hr (fun n hn => h12 n (List.mem_cons_of_mem _ hn))
    cases hf : freqs[k]? with
    | none =>
      have hstep : s.setProcsOf (k :: r) freqs = s.setProcsOf r freqs := by
        unfold State.setProcsOf
        rw [List.foldl_cons, hf]
      obtain ⟨hin, hout, hkeep⟩ := hrest s
      rw [hstep]
      refine ⟨fun n v hn hv => ?_, fun n hn => hout n (fun h => hn (List.mem_cons_of_mem _ h)), hkeep⟩
      rcases List.mem_cons.1 hn with rfl | hn
      · rw [hf] at hv
        cases hv
      · exact hin n v hn hv
    | some x =>
      have hstep : s.setProcsOf (k :: r) freqs = (s.setRf (F.WS_PROC_FREQ.at (k % 4)) [k / 4] x).setProcsOf r freqs := by
        unfold State.setProcsOf
        rw [List.foldl_cons, hf]
      obtain ⟨hin, hout, hkeep, hsame⟩ := hrest (s.setRf (F.WS_PROC_FREQ.at (k % 4)) [k / 4] x)
      rw [hstep]
      refine ⟨fun n v hn hv => ?_, fun n hn => ?_, fun o h0 h1 h2 => ?_, hsame⟩
      · rcases List.mem_cons.1 hn with rfl | hn
        · rw [hf] at hv
          cases hv
          rw [hout n hk, packed_freq.read_same]
        · exact hin n v hn hv
      · rw [hout n (fun h => hn (List.mem_cons_of_mem _ h)), packed_freq.read_ne _ _ (List.ne_of_not_mem_cons hn)]
      · rw [hkeep o h0 h1 h2]
        refine reg_setRf_ne _ _ _ _ ?_
        have hk12 := h12 k List.mem_cons_self
        have hoff (i : Nat) : F.WS_PROC_FREQ.off [i] = 0x2060 + 8 * i := by simp [RF.off, strideOff, F.WS_PROC_FREQ]
        rw [packed_freq.off]
        rw [hoff] at h0 h1 h2
        have hbase : F.WS_PROC_FREQ.base = 0x2060 := rfl
        omega

/-! ### TEMP_SAMPLE (R669, R675) -/

/-- What a reading of sensor k leaves of the machine: the registers of other readings, the thresholds, the conditions of other sensors, what
is not the host's, the collector's or the register file's. -/
structure Sensed (s t : State) (k : Nat) : Prop where
  temp : ∀ j < 26, j ≠ k → t.rf (F.WS_TEMP_TEMP.at (j % 4)) [j / 4] = s.rf (F.WS_TEMP_TEMP.at (j % 4)) [j / 4]
  thr : t.reg (F.WS_TEMP_THR_WARN.off []) = s.reg (F.WS_TEMP_THR_WARN.off [])
  live : ∀ j, j ≠ k → ((6, 29, j) ∈ t.collector.live ↔ (6, 29, j) ∈ s.collector.live)
  bursts : t.bursts = s.bursts
  power : t.power = s.power
  mem : t.mem = s.mem
  fuse : t.fuse = s.fuse

/-- A threshold changes no register but those of the event queue. -/
theorem threshold_facts (s : State) (src sub k : Nat) (thr v : Int) :
    (∀ o, o ≠ F.HOST_ERR_RING.off [] → o ≠ F.HOST_EVT_DROPPED_COUNT.off [] → (s.threshold src sub k thr v).reg o = s.reg o) ∧
    (∀ x, x ≠ (src, 29, k) → (x ∈ (s.threshold src sub k thr v).collector.live ↔ x ∈ s.collector.live)) ∧
    (s.threshold src sub k thr v).bursts = s.bursts ∧ (s.threshold src sub k thr v).power = s.power ∧
    (s.threshold src sub k thr v).mem = s.mem ∧ (s.threshold src sub k thr v).fuse = s.fuse := by
  unfold State.threshold
  split
  · split
    · exact ⟨fun _ _ _ => rfl, fun _ _ => Iff.rfl, rfl, rfl, rfl, rfl⟩
    · have hn := notes_queueEvent (s.onset src 29 k 1) { typ := 8, b2 := sub, b3 := k, aux := ofSigned 32 v, p2 := (s.onset src 29 k 1).dtime }
      obtain ⟨c, hc⟩ := onset_eq s src 29 k 1
      refine ⟨fun o ho hd => (hn.reg o ho hd).trans (reg_congr (onset_regs s _ _ _ _) o), fun x hx => ?_, ?_, ?_, ?_, ?_⟩
      · rw [show ((s.onset src 29 k 1).health sub k (ofSigned 32 v)).collector = (s.onset src 29 k 1).collector from hn.sends.collector]
        exact onset_live_ne s src 29 k 1 hx
      · exact hn.sends.bursts.trans (by rw [hc])
      · exact hn.sends.power.trans (by rw [hc])
      · exact hn.sends.mem.trans (by rw [hc])
      · exact hn.sends.fuse.trans (by rw [hc])
  · split
    · exact ⟨fun _ _ _ => rfl, fun x hx => condOff_live_ne s src 29 k hx, rfl, rfl, rfl, rfl⟩
    · exact ⟨fun _ _ _ => rfl, fun _ _ => Iff.rfl, rfl, rfl, rfl, rfl⟩

/-- Above its threshold a sensor's condition holds, and 2 degrees below it holds no more. -/
theorem threshold_live (s : State) (src sub k : Nat) (thr v : Int) :
    (thr < v → (src, 29, k) ∈ (s.threshold src sub k thr v).collector.live) ∧
    (v ≤ thr - 32 → (src, 29, k) ∉ (s.threshold src sub k thr v).collector.live) := by
  unfold State.threshold
  constructor
  · intro h
    rw [if_pos h]
    split
    next hl => exact List.contains_iff_mem.1 hl
    next =>
      have hn := notes_queueEvent (s.onset src 29 k 1) { typ := 8, b2 := sub, b3 := k, aux := ofSigned 32 v, p2 := (s.onset src 29 k 1).dtime }
      rw [show ((s.onset src 29 k 1).health sub k (ofSigned 32 v)).collector = (s.onset src 29 k 1).collector from hn.sends.collector]
      exact onset_live s src 29 k 1
  · intro h
    rw [if_neg (by omega), if_pos h]
    exact condOff_live s src 29 k

theorem ofSigned_lt (w : Nat) (i : Int) : ofSigned w i < 2 ^ w := by
  have hpos : (0 : Int) < (2 ^ w : Nat) := by positivity
  have h0 := Int.emod_nonneg i hpos.ne'
  have h1 := Int.emod_lt_of_pos i hpos
  unfold ofSigned
  omega

/-- What one reading does: it is stored, and the sensor's source 6 follows it. -/
theorem sense_facts (s : State) {k : Nat} (v : Int) (hk : k < 26) : Sensed s (s.sense k v) k ∧
    (s.sense k v).rf (F.WS_TEMP_TEMP.at (k % 4)) [k / 4] = ofSigned 16 v ∧
    (toSigned 16 (s.rf F.WS_TEMP_THR_WARN) < v → (6, 29, k) ∈ (s.sense k v).collector.live) ∧
    (v ≤ toSigned 16 (s.rf F.WS_TEMP_THR_WARN) - 32 → (6, 29, k) ∉ (s.sense k v).collector.live) := by
  set warn := toSigned 16 (s.rf F.WS_TEMP_THR_WARN) with hwarn
  set crit := toSigned 16 (s.rf F.WS_TEMP_THR_CRIT)
  set s1 := s.setRf (F.WS_TEMP_TEMP.at (k % 4)) [k / 4] (ofSigned 16 v) with hs1
  set s2 := s1.threshold 6 3 k warn v with hs2
  set s3 : State := if warn < v && !s1.collector.live.contains (6, 29, k) then s2.orRf F.WS_TSTAT_TWARN [] (2 ^ k) else s2 with hs3
  have hrun : s.sense k v = s3.threshold 7 4 k crit v := rfl
  obtain ⟨hreg2, hlive2, hb2, hp2, hm2, hf2⟩ := threshold_facts s1 6 3 k warn v
  obtain ⟨hon, hoff⟩ := threshold_live s1 6 3 k warn v
  obtain ⟨hreg4, hlive4, hb4, hp4, hm4, hf4⟩ := threshold_facts s3 7 4 k crit v
  have hreg3 (o : Nat) (ho : o ≠ F.WS_TSTAT_TWARN.off []) : s3.reg o = s2.reg o := by
    rw [hs3]
    split
    · exact reg_setRf_ne _ _ _ _ ho
    · rfl
  have hkeep3 : s3.collector = s2.collector ∧ s3.bursts = s2.bursts ∧ s3.power = s2.power ∧ s3.mem = s2.mem ∧ s3.fuse = s2.fuse := by
    rw [hs3]
    split <;> exact ⟨rfl, rfl, rfl, rfl, rfl⟩
  obtain ⟨hc3, hb3, hp3, hm3, hf3⟩ := hkeep3
  have hherr : F.HOST_ERR_RING.off [] = 0x5010 := rfl
  have hdrop : F.HOST_EVT_DROPPED_COUNT.off [] = 0x5018 := rfl
  have htwarn : F.WS_TSTAT_TWARN.off [] = 0x2098 := rfl
  have hreg (o : Nat) (ho : o < 0x2098) : (s.sense k v).reg o = s1.reg o := by
    rw [hrun, hreg4 o (by omega) (by omega), hreg3 o (by omega), hreg2 o (by omega) (by omega)]
  have hrf (j : Nat) (hj : j < 26) : (s.sense k v).rf (F.WS_TEMP_TEMP.at (j % 4)) [j / 4] = s1.rf (F.WS_TEMP_TEMP.at (j % 4)) [j / 4] := by
    unfold State.rf
    rw [hreg]
    rw [packed_temp.off]
    have : F.WS_TEMP_TEMP.base = 0x2000 := rfl
    omega
  have hlive (x : Nat × Nat × Nat) (hx : x.1 = 6) : x ∈ (s.sense k v).collector.live ↔ x ∈ s2.collector.live := by
    rw [hrun, hlive4 x (fun h => by rw [h] at hx; cases hx), hc3]
  have hlive1 (x : Nat × Nat × Nat) (hx : x ≠ (6, 29, k)) : x ∈ s2.collector.live ↔ x ∈ s.collector.live := hlive2 x hx
  have hwarn1 : s1.reg (F.WS_TEMP_THR_WARN.off []) = s.reg (F.WS_TEMP_THR_WARN.off []) := by
    refine reg_setRf_ne _ _ _ _ ?_
    have hoff : F.WS_TEMP_THR_WARN.off [] = 0x2088 := rfl
    have hbase : F.WS_TEMP_TEMP.base = 0x2000 := rfl
    rw [packed_temp.off]
    omega
  refine ⟨⟨fun j hj hjk => ?_, ?_, fun j hjk => ?_, ?_, ?_, ?_, ?_⟩, ?_, fun h => ?_, fun h => ?_⟩
  · rw [hrf j hj, hs1, packed_temp.read_ne _ _ hjk]
  · exact (hreg _ (by decide)).trans hwarn1
  · exact (hlive _ rfl).trans (hlive1 _ (fun h => hjk (by simpa using h)))
  · rw [hrun, hb4, hb3, hb2]
    rfl
  · rw [hrun, hp4, hp3, hp2]
    rfl
  · rw [hrun, hm4, hm3, hm2]
    rfl
  · rw [hrun, hf4, hf3, hf2]
    rfl
  · rw [hrf k hk, hs1, packed_temp.read_same, Nat.mod_eq_of_lt (ofSigned_lt 16 v)]
  · exact (hlive _ rfl).2 (hon h)
  · exact fun hl => hoff h ((hlive _ rfl).1 hl)

/-- The readings of the sensors listed enter their registers and their conditions. -/
def State.senseAll (s : State) (l : List Nat) (temps : List Int) : State :=
  l.foldl (fun s k => match temps[k]? with
    | some v => s.sense k v
    | none => s) s

theorem senseAll_facts {l : List Nat} (hl : l.Nodup) (h26 : ∀ k ∈ l, k < 26) (temps : List Int) (s : State) :
    (∀ k ∉ l, k < 26 → (s.senseAll l temps).rf (F.WS_TEMP_TEMP.at (k % 4)) [k / 4] = s.rf (F.WS_TEMP_TEMP.at (k % 4)) [k / 4] ∧
      ((6, 29, k) ∈ (s.senseAll l temps).collector.live ↔ (6, 29, k) ∈ s.collector.live)) ∧
    (∀ k v, k ∈ l → temps[k]? = some v → (s.senseAll l temps).rf (F.WS_TEMP_TEMP.at (k % 4)) [k / 4] = ofSigned 16 v ∧
      (toSigned 16 (s.rf F.WS_TEMP_THR_WARN) < v → (6, 29, k) ∈ (s.senseAll l temps).collector.live) ∧
      (v ≤ toSigned 16 (s.rf F.WS_TEMP_THR_WARN) - 32 → (6, 29, k) ∉ (s.senseAll l temps).collector.live)) ∧
    (s.senseAll l temps).bursts = s.bursts ∧ (s.senseAll l temps).power = s.power ∧ (s.senseAll l temps).mem = s.mem := by
  induction l generalizing s with
  | nil => exact ⟨fun _ _ _ => ⟨rfl, Iff.rfl⟩, fun _ _ h => absurd h List.not_mem_nil, rfl, rfl, rfl⟩
  | cons k r ih =>
    obtain ⟨hk, hr⟩ := List.nodup_cons.1 hl
    have hk26 := h26 k List.mem_cons_self
    have hrest := ih hr (fun n hn => h26 n (List.mem_cons_of_mem _ hn))
    cases hf : temps[k]? with
    | none =>
      have hstep : s.senseAll (k :: r) temps = s.senseAll r temps := by
        unfold State.senseAll
        rw [List.foldl_cons, hf]
      obtain ⟨hout, hin, hkeep⟩ := hrest s
      rw [hstep]
      refine ⟨fun n hn => hout n (fun h => hn (List.mem_cons_of_mem _ h)), fun n v hn hv => ?_, hkeep⟩
      rcases List.mem_cons.1 hn with rfl | hn
      · rw [hf] at hv
        cases hv
      · exact hin n v hn hv
    | some x =>
      have hstep : s.senseAll (k :: r) temps = (s.sense k x).senseAll r temps := by
        unfold State.senseAll
        rw [List.foldl_cons, hf]
      obtain ⟨hsense, hread, hon, hoff⟩ := sense_facts s x hk26
      have hthr : (s.sense k x).rf F.WS_TEMP_THR_WARN = s.rf F.WS_TEMP_THR_WARN := by
        unfold State.rf
        rw [hsense.thr]
      obtain ⟨hout, hin, hb, hp, hm⟩ := hrest (s.sense k x)
      rw [hstep]
      refine ⟨fun n hn hn26 => ?_, fun n v hn hv => ?_, hb.trans hsense.bursts, hp.trans hsense.power, hm.trans hsense.mem⟩
      · have hnk := List.ne_of_not_mem_cons hn
        obtain ⟨hrf, hlive⟩ := hout n (List.not_mem_of_not_mem_cons hn) hn26
        exact ⟨hrf.trans (hsense.temp n hn26 hnk), hlive.trans (hsense.live n hnk)⟩
      · rcases List.mem_cons.1 hn with rfl | hn
        · rw [hf] at hv
          cases hv
          obtain ⟨hrf, hlive⟩ := hout n hk hk26
          exact ⟨hrf.trans hread, fun h => hlive.2 (hon h), fun h hl => hoff h (hlive.1 hl)⟩
        · obtain ⟨hrf, hlo, hhi⟩ := hin n v hn hv
          rw [hthr] at hlo hhi
          exact ⟨hrf, hlo, hhi⟩

theorem sensors_nodup (s : State) : s.sensors.Nodup ∧ ∀ k ∈ s.sensors, k < 26 := by
  unfold State.sensors State.nCl
  split <;> decide

theorem tempSample_eq {s : State} (temps : List Int) (t : Nat) (h : s.power.lull ≠ 2) :
    doTempSample temps t s = (s.at t).senseAll s.sensors temps := by
  have hkeep := (senseAll_facts (sensors_nodup s).1 (sensors_nodup s).2 temps (s.at t)).2.2.2.1
  unfold doTempSample
  dsimp only
  split
  · refine wakeChip_awake _ _ ?_
    show ((s.at t).senseAll s.sensors temps).power.lull ≠ 2
    rw [hkeep]
    exact h
  · rfl

/-- Settles O15, by what a fold of readings leaves. -/
theorem sensors : Obligations.Sensors := by
  refine ⟨fun s freqs t0 => ⟨_, rfl, ?_⟩, fun s temps t0 hlull => ?_⟩
  · obtain ⟨hin, -, hkeep, hd, hm, ho⟩ := setProcsOf_facts (List.nodup_range (n := s.nCl))
      (fun n hn => lt_of_lt_of_le (List.mem_range.1 hn) (nCl_le s)) freqs (s.at t0)
    exact ⟨fun n v hn hv => hin n v (List.mem_range.2 hn) hv, hkeep, hd, hm, ho⟩
  · obtain ⟨-, hin, hb, hp, hm⟩ := senseAll_facts (sensors_nodup s).1 (sensors_nodup s).2 temps (s.at t0)
    exact ⟨_, congrArg Host.Outcome.next (tempSample_eq temps t0 hlull), hin, hb, hp, hm⟩

/-! ### Supply dips (R671-R673) -/

/-- What a warning of a rail brings on a chip that is not in Lull. -/
theorem railWarns_facts (s : State) {r : Nat} (aux : Nat) (hr : r < 14) (h : s.power.lull ≠ 2) :
    (5, 29, r) ∈ (s.railWarns r aux).collector.live ∧ ((s.railWarns r aux).rf F.WS_VSTAT_VWARN).testBit r = true ∧
      (s.railWarns r aux).rf F.WS_VSTAT_DIPS = s.rf F.WS_VSTAT_DIPS ∧ (s.railWarns r aux).power = s.power ∧
      (s.railWarns r aux).bursts = s.bursts ∧ (s.railWarns r aux).objs = s.objs ∧ (s.railWarns r aux).mem = s.mem := by
  set u := s.onset 5 29 r 1 with hu
  set w := u.orRf F.WS_VSTAT_VWARN [] (2 ^ r) with hw
  obtain ⟨c, hc⟩ := onset_eq s 5 29 r 1
  have hn : Notes w (w.health 1 r aux) := notes_queueEvent _ _
  have hpower : w.power = s.power := by rw [hw, orRf_power, hu, hc]
  have hrun : s.railWarns r aux = w.health 1 r aux := wakeChip_awake _ _ (by rw [hn.sends.power, hpower]; exact h)
  have hvwarn : w.rf F.WS_VSTAT_VWARN = (u.rf F.WS_VSTAT_VWARN ||| 2 ^ r) % 2 ^ 14 := rf_setRf_same _ _ _ _ (by decide)
  have hdips : w.rf F.WS_VSTAT_DIPS = s.rf F.WS_VSTAT_DIPS :=
    (rf_setRf_disjoint u F.WS_VSTAT_VWARN F.WS_VSTAT_DIPS [] [] _ rfl (by decide) (by decide)).trans (rf_congr (onset_regs s 5 29 r 1) _ _)
  rw [hrun]
  refine ⟨?_, ?_, ?_, hn.sends.power.trans hpower, ?_, ?_, ?_⟩
  · rw [hn.sends.collector, hw, orRf_collector]
    exact onset_live s 5 29 r 1
  · rw [hn.rf (by decide) (by decide), hvwarn, Nat.testBit_mod_two_pow, Nat.testBit_or, Nat.testBit_two_pow_self]
    simp [hr]
  · rw [hn.rf (by decide) (by decide), hdips]
  · rw [hn.sends.bursts, hw, orRf_bursts, hu, hc]
  · rw [hn.sends.objs, hw, orRf_objs, hu, hc]
  · rw [hn.sends.mem, hw, orRf_mem, hu, hc]

/-- A burst that runs as a dip goes on carries VDIP. -/
theorem markDip_bursts {s : State} {a b : Nat} {x : Burst} (hx : x ∈ s.bursts) (hrun : x.running = true) (hb : x.startStamp ≤ b)
    (hend : s.allEnded x.ent = false) : { x with qual := x.qual ||| 8 } ∈ (s.markDip a b).bursts := by
  refine List.mem_map.2 ⟨x, hx, if_pos ?_⟩
  simp [hrun, hb, hend]

/-- Settles O14, by what a warning brings and what a dip marks. -/
theorem supplyDips : Obligations.SupplyDips := by
  refine ⟨fun s r first t0 hr hbelow ht hlull => ?_, fun s r first lowest t0 d hr ht hd => ?_, fun s r level t0 hr hhi hlull => ?_,
    fun s t0 hp hb ht => ?_, fun s r lowest t0 hr hlo => ?_⟩
  · set u : State := { s.at t0 with power := { s.power with
      below := s.power.below ||| 2 ^ r, dips := s.power.dips ++ [(r, first)], pause := true } } with hu
    set v : State := ((u.markDip first t0).incRf F.WS_VSTAT_DIPS []).draw with hv
    have hrun : doRailBelowWarning r first t0 s = v.railWarns r (((u.markDip first t0).incRf F.WS_VSTAT_DIPS []).railReading) := by
      refine if_neg ?_
      simp [hbelow, Nat.not_le.2 hr, Nat.not_lt.2 ht]
    obtain ⟨hlive, hvwarn, hdips, hpower, hbursts, hobjs, hmem⟩ :=
      railWarns_facts v (((u.markDip first t0).incRf F.WS_VSTAT_DIPS []).railReading) hr hlull
    refine ⟨_, congrArg Host.Outcome.next hrun, by rw [hpower]; rfl, by rw [hpower]; rfl, by rw [hpower]; rfl, fun x hx hxr hxs hxe => ?_, ?_,
      hvwarn, hlive, hobjs, hmem⟩
    · rw [hbursts]
      exact markDip_bursts (s := u) hx hxr hxs hxe
    · have hinc : v.rf F.WS_VSTAT_DIPS = satAdd 32 (s.rf F.WS_VSTAT_DIPS) 1 % 2 ^ 32 := rf_setRf_same _ F.WS_VSTAT_DIPS [] _ (by decide)
      rw [hdips, hinc, Nat.mod_eq_of_lt (satAdd_lt _ _ _)]
  · set u := s.at t0 with hu
    have hd' : u.power.dips.find? (fun d => d.1 = r) = some d := hd
    have hrun : doRailAboveWarning r first lowest t0 s = ({ (u.markDip d.2 first).condOff 5 29 r with power := { s.power with
        below := s.power.below - (s.power.below &&& 2 ^ r), dips := s.power.dips.filter (fun x => x.1 ≠ r)
        aboveSince := if s.power.below - (s.power.below &&& 2 ^ r) = 0 then u.dtime else s.power.aboveSince } } : State).health 2 r lowest
          d.2 first := by
      unfold doRailAboveWarning
      rw [if_neg (by simp [Nat.not_le.2 hr, Nat.not_lt.2 ht])]
      dsimp only
      rw [hd']
      rfl
    have hn (w : State) : Sends w (w.health 2 r lowest d.2 first) := sends_health _ _ _ _ _ _
    refine ⟨_, congrArg Host.Outcome.next hrun, ?_, fun q hq => ?_, ?_, fun h0 => ?_, ?_, ?_, ?_⟩
    · rw [(hn _).power, testBit_clear]
      simp
    · rw [(hn _).power, testBit_clear]
      simp [hq]
    · rw [(hn _).power]
    · rw [(hn _).power] at h0 ⊢
      exact if_pos h0
    · rw [(hn _).power]
    · rw [(hn _).collector]
      exact condOff_live _ 5 29 r
    · rw [(hn _).mem]
      rfl
  · have hrun : doRailAboveHigh r level t0 s = (s.at t0).railWarns r level :=
      if_neg (by simp [Nat.not_le.2 hr, Nat.not_le.2 hhi])
    obtain ⟨hlive, hvwarn, -, hpower, hbursts, -, hmem⟩ := railWarns_facts (s.at t0) level hr hlull
    exact ⟨_, congrArg Host.Outcome.next hrun, hpower, hbursts, hvwarn, hlive, hmem⟩
  · exact ⟨{ s.at t0 with power := { s.power with pause := false } }, congrArg Host.Outcome.next (if_pos (by simp [hp, hb, ht])),
      rfl, rfl, rfl, rfl, rfl⟩
  · refine ⟨_, _, congrArg Host.Outcome.next (if_neg (by simp [Nat.not_le.2 hr, Nat.not_le.2 hlo])), rfl, rfl, ?_, rfl, rfl, rfl, rfl, rfl⟩
    show (_ ||| 2 ^ r).testBit r = true
    rw [Nat.testBit_or, Nat.testBit_two_pow_self, Bool.or_true]

end Sys2Proof.Machine
end

