-- ==== Sys2Proof/Proofs/LifetimeLog.lean ====
section
namespace Sys2Proof.Machine

/-! ### The lifetime log (R678-R686) -/

/-- A record that does not end a snapshot, written to a current sector with room. -/
theorem logRecordWrite_run {s : State} {r : LogRec} {rest : List LogRec} {c pf : Nat} {x : Sector} (ef : Nat) (hq : s.logQ = r :: rest)
    (hst : s.life.state = 1) (hcur : s.life.cur = some c) (hbad : s.life.bad.contains c = false)
    (hx : kGet s.life.sectors c = some x) (hroom : x.recs.length < 63) (hpf : pf < 3) :
    doLogRecordWrite ef pf s = s.programRecord c r rest := by
  have hroom' : ¬ 63 ≤ x.recs.length := by omega
  have hpf' : ¬ 3 ≤ pf := by omega
  have hgood : c ∉ s.life.bad := by simpa using hbad
  unfold doLogRecordWrite
  simp [hgood, hq, hst, hcur, hx, hroom', hpf']

/-- A program of a record that does not end a snapshot settles no flush. -/
theorem programRecord_part {s : State} {r : LogRec} (c : Nat) (rest : List LogRec) (h : ¬ (r.typ = 1 ∧ r.part = 110)) :
    ∃ l : Life, s.programRecord c r rest = { s with logQ := rest, life := l } ∧ l.seq = s.life.seq + 1 ∧
      l.sectors = kUpd s.life.sectors c (fun y => { y with recs := y.recs ++ [r.bytes (s.life.seq + 1)] }) := by
  have hw : (decide (r.typ = 1) && decide (r.part = 110)) = false := by simpa using h
  unfold State.programRecord
  dsimp only
  rw [hw]
  exact ⟨_, rfl, rfl, rfl⟩

/-- READ_LIFE of the image. -/
theorem readLife_image {s : State} {sq idx : Nat} {d : Desc} (hd : Safety.ready s sq idx 0x71 d) (hsel : fld d.bytes 16 1 = 0)
    (ho : fld d.bytes 24 8 % 64 = 0) (hl : fld d.bytes 32 4 % 64 = 0) (hdst : fld d.bytes 40 8 % 64 = 0)
    (hfit : fld d.bytes 24 8 + fld d.bytes 32 4 ≤ 4224) (hz1 : zeroes d.bytes 17 7 = true) (hz2 : zeroes d.bytes 36 4 = true)
    (hz3 : zeroes d.bytes 48 16 = true) (hbm : s.host.pci.busMaster = true) :
    doReadLife sq idx s = (s.emit (.hostWrite (fld d.bytes 40 8)
      (slice (padTo s.lifeImage 4224) (fld d.bytes 24 8) (fld d.bytes 32 4)))).finish sq idx St.ok := by
  have hfit' : ¬ 4224 < fld d.bytes 24 8 + fld d.bytes 32 4 := by omega
  unfold doReadLife
  rw [withDesc_of_ready hd]
  simp [hsel, ho, hl, hdst, hfit', hz1, hz2, hz3, State.hostWrite, hbm]

theorem snapRecords_length (s : State) (id : Nat) : (s.snapRecords id).length = 111 := by
  simp [State.snapRecords]

/-- Settles O16, by what each command does to the log. -/
theorem lifetimeLog : Obligations.LifetimeLog := by
  refine ⟨fun s t0 hp => ⟨_, congrArg Host.Outcome.next (if_neg (by simp [hp])), rfl, rfl, fun b => ?_, rfl, rfl⟩,
    fun s t0 hst hdue => ?_, fun s r rest c ef pf x hq hst hcur hbad hx hroom hpf hpart => ?_,
    fun s sq idx d hd hsel ho hl hdst hfit hz1 hz2 hz3 hbm => ?_, fun s sq idx d hd hz hst => ?_⟩
  · show (s.life.hist.modify (histBin (s.temp s.hottest)) (fun n => satAdd 32 n 1)).getD b 0 = _
    by_cases hb : b = histBin (s.temp s.hottest)
    · subst hb
      by_cases hlen : histBin (s.temp s.hottest) < s.life.hist.length
      · rw [if_pos ⟨rfl, hlen⟩]
        exact getD_modify_same _ _ _ _ hlen
      · rw [if_neg (fun h => hlen h.2), List.getD_eq_default _ _ (by simpa using hlen), List.getD_eq_default _ _ (by simpa using hlen)]
    · rw [if_neg (fun h => hb h.1)]
      exact getD_modify_ne _ _ _ hb
  · have hrun : doSnapshot t0 s = (s.at t0).queueSnapshot false := if_pos (by simp [hst, hdue])
    refine ⟨_, congrArg Host.Outcome.next hrun, rfl, ?_, rfl, rfl, rfl, rfl⟩
    show (s.logQ ++ (s.at t0).snapRecords (s.life.snapId + 1)).length = _
    rw [List.length_append, snapRecords_length]
  · obtain ⟨l, hl, hseq, hsec⟩ := programRecord_part (s := s) c rest hpart
    refine ⟨_, congrArg Host.Outcome.next ((logRecordWrite_run ef hq hst hcur hbad hx hroom hpf).trans hl), rfl, hseq, ?_,
      fun y hy => ?_, rfl, rfl, rfl⟩
    · show kGet l.sectors c = _
      rw [hsec, kGet_kUpd, hx]
      simp
    · show kGet l.sectors y = _
      rw [hsec, kGet_kUpd]
      simp [hy]
  · have hsends (o : Out) : Sends s ((s.emit o).finish sq idx St.ok) := (sends_emit s o).trans (sends_finish _ _ _ _)
    refine ⟨_, congrArg Host.Outcome.next (readLife_image hd hsel ho hl hdst hfit hz1 hz2 hz3 hbm), finish_desc _ _ _ _, (hsends _).life,
      (hsends _).logQ, (hsends _).mem, (grows_complete _ _ _ _).mem ?_⟩
    exact List.mem_append_right _ (List.mem_singleton_self _)
  · have hrun : doLifeFlush sq idx s =
        { (s.begin sq idx).queueSnapshot false with
          life := { ((s.begin sq idx).queueSnapshot false).life with
            flushes := ((s.begin sq idx).queueSnapshot false).life.flushes ++ [(sq, idx, s.life.snapId + 1)] } } := by
      unfold doLifeFlush
      rw [withDesc_of_ready hd]
      simp only [hz, hst, Bool.not_true, Bool.false_eq_true, if_false]
      rfl
    exact ⟨_, congrArg Host.Outcome.next hrun, begin_desc hd.1, rfl, rfl, rfl, rfl⟩

end Sys2Proof.Machine
end

