-- ==== Sys2Proof/Proofs/FlowCommits.lean ====
section
namespace Sys2Proof.Machine

/-! SUPPORT. A step of a flow program: the command that runs it, its commit, and its result (R409, R412, R413, R443). -/

/-! ### The bytes of a step result (R409) -/

/-- A field of a result's header, of k bytes after n others. -/
theorem fld_padTo (l : List Byte) {o n k : Nat} (h : o + n ≤ l.length) (hk : o + n ≤ k) : fld (padTo l k) o n = fld l o n := by
  unfold padTo fld slice
  congr 1
  rw [List.drop_take, List.take_take, List.drop_append_of_le_length (by omega), List.take_append_of_le_length (by rw [List.length_drop]; omega)]
  congr 1
  omega

theorem bytes_status (r : Result) (op i a t : Nat) : fld (r.bytes op i a t) 0 1 = r.status % 256 := by
  unfold Result.bytes
  rw [fld_padTo _ (by simp) (by decide)]
  simp only [List.append_assoc]
  exact fld_here 1 r.status _

theorem bytes_fcheck (r : Result) (op i a t : Nat) : fld (r.bytes op i a t) 3 1 = r.rreason % 256 := by
  unfold Result.bytes
  rw [fld_padTo _ (by simp; omega) (by decide)]
  simp only [List.append_assoc]
  rw [fld_skip (leBytes_length 1 _) (by decide), fld_skip (leBytes_length 1 _) (by decide), fld_skip (leBytes_length 1 _) (by decide)]
  exact fld_here 1 r.rreason _

theorem bytes_length (r : Result) (op i a t : Nat) : (r.bytes op i a t).length = 128 := by
  unfold Result.bytes padTo
  simp [zeros]
  omega

/-- The first bytes of a result's body. -/
theorem bytes_body (r : Result) (op i a t : Nat) {n : Nat} (h : r.body.length = n) (hn : n ≤ 96) : slice (r.bytes op i a t) 32 n = r.body := by
  have hhead : (leBytes 1 r.status ++ leBytes 1 r.qual ++ leBytes 1 op ++ leBytes 1 r.rreason ++ leBytes 2 i ++ leBytes 1 a ++
    leBytes 1 r.pcheck ++ leBytes 4 r.obj ++ leBytes 1 r.stream ++ zeros 3 ++ leBytes 8 r.pcWhere ++ leBytes 8 t).length = 32 := by
    simp [zeros]
  unfold Result.bytes padTo slice
  rw [List.drop_take, List.take_take, List.append_assoc, List.drop_append, List.drop_eq_nil_of_le (by omega), hhead]
  have hmin : min n (128 - 32) = r.body.length := by omega
  rw [hmin, List.nil_append, Nat.sub_self, List.drop_zero, List.take_append_of_le_length (Nat.le_refl _), List.take_length]

/-! ### A task alone changes -/

/-- From s to t nothing has changed but what is sent and mirrored on the links, and counters in the register file. -/
def Quiet (s t : State) : Prop := ∃ l o p g, t = { s with links := l, out := o, pair := p, regs := g }

theorem Quiet.refl (s : State) : Quiet s s := ⟨_, _, _, _, rfl⟩

theorem Quiet.trans {s t u : State} (h : Quiet s t) (g : Quiet t u) : Quiet s u := by
  obtain ⟨_, _, _, _, rfl⟩ := h
  obtain ⟨_, _, _, _, rfl⟩ := g
  exact ⟨_, _, _, _, rfl⟩

theorem Quiet.paddock {s t : State} (h : Quiet s t) : t.paddock = s.paddock := by obtain ⟨_, _, _, _, rfl⟩ := h; rfl
theorem Quiet.host {s t : State} (h : Quiet s t) : t.host = s.host := by obtain ⟨_, _, _, _, rfl⟩ := h; rfl
theorem Quiet.mem {s t : State} (h : Quiet s t) : t.mem = s.mem := by obtain ⟨_, _, _, _, rfl⟩ := h; rfl

theorem quiet_mirror (s : State) (i : MItem) : Quiet s (s.mirror i) := by
  obtain ⟨l, o, p, h⟩ := mirror_eq s i
  exact ⟨l, o, p, _, h⟩

theorem quiet_mirrorTask (s : State) (tid : Nat) : Quiet s (s.mirrorTask tid) := by
  unfold State.mirrorTask
  split
  · split <;> exact quiet_mirror _ _
  · exact quiet_mirror _ _

theorem quiet_mirrorLock (s : State) (k : Nat) : Quiet s (s.mirrorLock k) := quiet_mirror _ _

theorem task_upTask_same {s : State} {tid : Nat} {x : Task} (f : Task → Task) (h : s.task tid = some x) :
    (s.upTask tid f).task tid = some (f x) := by
  show kGet (kUpd s.paddock.tasks tid f) tid = _
  rw [kGet_kUpd]
  show (s.task tid).map _ = _
  rw [h]
  simp

theorem task_upTask_ne {s : State} {tid i : Nat} (f : Task → Task) (h : i ≠ tid) : (s.upTask tid f).task i = s.task i := by
  show kGet (kUpd s.paddock.tasks tid f) i = _
  rw [kGet_kUpd]
  simp only [if_neg h, Option.map_id']
  rfl

section
variable {s u : State} {tid : Nat} {x : Task}

theorem taskOnly_refl (h : s.task tid = some x) : Safety.taskOnly s s tid x := ⟨h, fun _ _ => rfl, rfl, rfl, rfl, rfl, rfl⟩

theorem taskOnly_upTask (f : Task → Task) (h : Safety.taskOnly s u tid x) : Safety.taskOnly s (u.upTask tid f) tid (f x) := by
  obtain ⟨hx, hne, hslots, hhost, hsites, hbursts, hmem⟩ := h
  exact ⟨task_upTask_same f hx, fun i hi => (task_upTask_ne f hi).trans (hne i hi), hslots, hhost, hsites, hbursts, hmem⟩

theorem taskOnly_quiet {v : State} (h : Safety.taskOnly s u tid x) (q : Quiet u v) : Safety.taskOnly s v tid x := by
  obtain ⟨_, _, _, _, rfl⟩ := q
  exact h

end

/-! ### The command of a step -/

/-- The command of the step that a running task stands at runs it. -/
theorem flowCmd_stepping {s : State} {tid op : Nat} {x : Task} {st : List Byte} (f : Task → List Byte → State)
    (h : Safety.stepping s tid op x st) : flowCmd op tid f s = f x st := by
  obtain ⟨hx, hmay, hop, o, ho, hlost, hstep, hst⟩ := h
  unfold flowCmd
  simp only [hx, hmay, ho, hlost, Bool.not_true, Bool.false_eq_true, if_false, Nat.not_le.2 hstep, hst, hop, if_true]

theorem stepping_running {s : State} {tid op : Nat} {x : Task} {st : List Byte} (h : Safety.stepping s tid op x st) : x.state = 3 := by
  have hmay := h.2.1
  unfold State.mayStep at hmay
  simp only [Bool.and_eq_true, decide_eq_true_eq] at hmay
  exact hmay.1.1.1

/-! ### The commit of a step -/

/-- A state once task t has committed a step, before its core goes on. -/
def State.stepped (s : State) (tid : Nat) (t : Task) (st : List Byte) (status : Nat) (bs : List Byte) (go : Option (Nat × Nat)) : State :=
  match (s.fslot t.slot).phys with
  | some p => ((s.upTask tid (fun _ => t.endStep st status bs go)).mirrorTask tid).incRf F.FC_STEPS_STEPS [p]
  | none => (s.upTask tid (fun _ => t.endStep st status bs go)).mirrorTask tid

section
variable {s : State} {tid : Nat} {x : Task} {st bs : List Byte} {status : Nat} {go : Option (Nat × Nat)}

theorem quiet_stepped (s : State) (tid : Nat) (x : Task) (st : List Byte) (status : Nat) (bs : List Byte) (go : Option (Nat × Nat)) :
    Quiet (s.upTask tid (fun _ => x.endStep st status bs go)) (s.stepped tid x st status bs go) := by
  unfold State.stepped
  split
  · exact (quiet_mirrorTask _ _).trans ⟨_, _, _, _, rfl⟩
  · exact quiet_mirrorTask _ _

theorem taskOnly_stepped {u : State} (h : Safety.taskOnly u s tid x) (st : List Byte) (status : Nat) (bs : List Byte)
    (go : Option (Nat × Nat)) : Safety.taskOnly u (s.stepped tid x st status bs go) tid (x.endStep st status bs go) :=
  taskOnly_quiet (taskOnly_upTask _ h) (quiet_stepped _ _ _ _ _ _ _)

/-- A step that ends well, or goes on at its ON_ERR, leaves its core at a step boundary. -/
theorem stepEnd_boundary (hx : s.task tid = some x) (hab : x.abortAt = none) (h : status < 0x10 ∨ stOnErr st ≠ 0xFFFF) :
    s.stepEnd tid st status bs go false = (s.stepped tid x st status bs go).boundary x.slot := by
  have hno : (decide (0x10 ≤ status) && decide (stOnErr st = 0xFFFF)) = false := by
    rcases h with h | h
    · simp; omega
    · simp [h]
  unfold State.stepEnd
  simp only [hx, hno, hab, Bool.false_eq_true, if_false]
  rfl

/-- A step that fails without an ON_ERR ends its task. -/
theorem stepEnd_endTask (hx : s.task tid = some x) (h : 0x10 ≤ status) (hon : stOnErr st = 0xFFFF) (yields : Bool) :
    s.stepEnd tid st status bs go yields = (s.stepped tid x st status bs go).endTask tid status (fld bs 1 1) := by
  unfold State.stepEnd
  simp only [hx, h, hon, decide_true, Bool.and_self, if_true]
  rfl

/-- A step that ends well of a task whose end an abort has noted. -/
theorem stepEnd_aborted {a q : Nat} (hx : s.task tid = some x) (hab : x.abortAt = some (a, q)) (h : status < 0x10) (yields : Bool) :
    s.stepEnd tid st status bs go yields = (s.stepped tid x st status bs go).endTask tid a q := by
  have hno : (decide (0x10 ≤ status) && decide (stOnErr st = 0xFFFF)) = false := by simp; omega
  unfold State.stepEnd
  simp only [hx, hno, hab, Bool.false_eq_true, if_false]
  rfl

theorem endStep_vars (x : Task) (st bs : List Byte) (status : Nat) (go : Option (Nat × Nat)) :
    (x.endStep st status bs go).vars = x.vars := rfl

theorem endStep_go (x : Task) (st bs : List Byte) {status : Nat} (go : Option (Nat × Nat)) (h : status < 0x10) :
    ((x.endStep st status bs go).flow, (x.endStep st status bs go).step) = go.getD (x.flow, x.step + 1) := by
  have hno : decide (0x10 ≤ status) = false := by simpa using h
  unfold Task.endStep
  simp only [hno]
  rfl

theorem endStep_flow (x : Task) (st bs : List Byte) {status : Nat} (go : Option (Nat × Nat)) (h : status < 0x10) :
    (x.endStep st status bs go).flow = (go.getD (x.flow, x.step + 1)).1 := congrArg Prod.fst (endStep_go x st bs go h)

theorem endStep_step (x : Task) (st bs : List Byte) {status : Nat} (go : Option (Nat × Nat)) (h : status < 0x10) :
    (x.endStep st status bs go).step = (go.getD (x.flow, x.step + 1)).2 := congrArg Prod.snd (endStep_go x st bs go h)

theorem endStep_res_kept (x : Task) {st : List Byte} (bs : List Byte) {status : Nat} (go : Option (Nat × Nat)) (h : status < 0x10)
    (hw : writesRes (stOp st) = false) : (x.endStep st status bs go).res = x.res := by
  have hno : decide (0x10 ≤ status) = false := by simpa using h
  unfold Task.endStep
  simp only [hno, hw]
  rfl

theorem endStep_res (x : Task) {st : List Byte} (bs : List Byte) {status : Nat} (go : Option (Nat × Nat))
    (hw : writesRes (stOp st) = true) : (x.endStep st status bs go).res = bs := by
  unfold Task.endStep
  simp only [hw, Bool.or_true]
  rfl

theorem endStep_lastErr_kept (x : Task) (st bs : List Byte) {status : Nat} (go : Option (Nat × Nat)) (h : status < 0x10) :
    (x.endStep st status bs go).lastErr = x.lastErr := by
  have hno : decide (0x10 ≤ status) = false := by simpa using h
  unfold Task.endStep
  simp only [hno]
  rfl

/-- What a task reads after a step that failed. -/
theorem endStep_failed (x : Task) (st bs : List Byte) {status : Nat} (go : Option (Nat × Nat)) (h : 0x10 ≤ status) :
    (x.endStep st status bs go).flow = x.flow ∧
      (x.endStep st status bs go).step = (if stOnErr st = 0xFFFF then x.step else stOnErr st) ∧
      (x.endStep st status bs go).lastErr = lastErrOf status (stOp st) x.step x.flow ∧ (x.endStep st status bs go).res = bs := by
  have hyes : decide (0x10 ≤ status) = true := by simpa using h
  unfold Task.endStep
  simp only [hyes, Bool.true_or, if_true, and_self]

/-! ### A step's end, from the state in which it began -/

variable {u : State} {y : Task} {r : Result}

/-- A step that has changed its task alone commits. -/
theorem commits_stepDone (h : Safety.taskOnly u s tid y) (hslot : y.slot = x.slot) (hab : y.abortAt = none) (hst : r.status < 0x10) (t : Task)
    (st : List Byte) (go : Option (Nat × Nat)) :
    Safety.commits u (s.stepDone tid t st r go) tid x (y.endStep st r.status (r.bytes (stOp st) t.step 1 s.dtime) go) := by
  refine ⟨_, ?_, taskOnly_stepped h _ _ _ _⟩
  rw [← hslot]
  exact stepEnd_boundary h.1 hab (.inl hst)

/-- A step that has changed its task alone, and neither its place nor its variables, fails. -/
theorem fails_stepEnd (h : Safety.taskOnly u s tid y) (hslot : y.slot = x.slot) (hab : y.abortAt = none) (hflow : y.flow = x.flow)
    (hstep : y.step = x.step) (hvars : y.vars = x.vars) (hst : 0x10 ≤ status) {fcheck : Nat} (hs : fld bs 0 1 = status)
    (hf : fld bs 3 1 = fcheck) (st : List Byte) :
    Safety.fails u (s.stepEnd tid st status bs go false) tid x st status fcheck := by
  obtain ⟨h1, h2, h3, h4⟩ := endStep_failed y st bs go hst
  refine ⟨_, _, taskOnly_stepped h st status bs go, h1.trans hflow, by rw [h2, hstep], by rw [h3, hstep, hflow], by rw [h4]; exact hs,
    by rw [h4]; exact hf, hvars, ?_⟩
  split
  next hon => rw [h4]; exact stepEnd_endTask h.1 hst hon false
  next hon => rw [← hslot]; exact stepEnd_boundary h.1 hab (.inr hon)

theorem fails_stepDone (h : Safety.taskOnly u s tid y) (hslot : y.slot = x.slot) (hab : y.abortAt = none) (hflow : y.flow = x.flow)
    (hstep : y.step = x.step) (hvars : y.vars = x.vars) (hst : 0x10 ≤ r.status) (hlt : r.status < 256) {fcheck : Nat}
    (hf : r.rreason % 256 = fcheck) (t : Task) (st : List Byte) :
    Safety.fails u (s.stepDone tid t st r) tid x st r.status fcheck :=
  fails_stepEnd h hslot hab hflow hstep hvars hst ((bytes_status _ _ _ _ _).trans (Nat.mod_eq_of_lt hlt))
    ((bytes_fcheck _ _ _ _ _).trans hf) st

end

/-! ### RETRY (R434) -/

/-- Settles O58, by the commit of a step that has set its counter. -/
theorem retrySteps : Obligations.RetrySteps := by
  rintro s tid x st named hs hab rfl
  have hop : writesRes (stOp st) = false := by rw [hs.2.2.1]; decide
  have hok : (0 : Nat) < 0x10 := by decide
  have hcommit (n : Nat) (go : Option (Nat × Nat)) := commits_stepDone (x := x) (r := { status := St.ok })
    (taskOnly_upTask (fun t : Task => { t with ctr := t.ctr.set (fld st 8 1) n }) (taskOnly_refl hs.1)) rfl hab hok x st go
  have hrun := (Eq.refl (doFlowRetry tid s)).trans (flowCmd_stepping _ hs)
  refine ⟨fun hn hlt => ⟨_, _, congrArg Host.Outcome.next (hrun.trans (if_pos (Bool.and_eq_true_iff.2 ⟨hn, decide_eq_true hlt⟩))), hcommit _ _, rfl, rfl, rfl,
      endStep_res_kept _ _ _ hok hop, rfl, rfl, rfl, endStep_lastErr_kept _ _ _ _ hok⟩,
    fun hn => ⟨_, _, congrArg Host.Outcome.next (hrun.trans (if_neg fun hc => ?_)), hcommit _ _, rfl, rfl, rfl,
      endStep_res_kept _ _ _ hok hop, rfl, rfl, rfl, endStep_lastErr_kept _ _ _ _ hok⟩⟩
  obtain ⟨hc1, hc2⟩ := Bool.and_eq_true_iff.1 hc
  rcases hn with hn | hn
  · exact absurd (hn.symm.trans hc1) (by decide)
  · exact Nat.not_lt.2 hn (of_decide_eq_true hc2)

end Sys2Proof.Machine
end

