-- ==== Sys2Proof/Proofs/FlowEnd.lean ====
section
namespace Sys2Proof.Machine

/-! SUPPORT. A task that ends while a buffer that is not its core's names it too (R436, R461, R467): the lock that its end releases wakes a
task that takes that buffer, and the task that it displaces there is put back to READY, ending as it is. -/

/-- A program of one step. -/
def endProgram : Obj := { id := 7, kind := .flow, size := 128, base := 0, chans := [0] }

/-- The task that ends: it runs in slot 0 and holds lock 0. -/
def strayTask : Task := { flow := 7, step := 0, state := 3, slot := 0 }

/-- Its step: END. -/
def endStepBytes : List Byte := [0x10] ++ zeros 31

/-- Task 0 runs its END in slot 0, whose buffer has task 2; slot 5 idles with task 0 in its buffer; task 1, of priority 7 and home slot 5,
waits for lock 0 of task 0. -/
def strayBuffer : State :=
  ({ State.reset with
    power := { dom := 2 ^ 60 + 2 ^ 65 }
    objs := [(7, endProgram)]
    paddock := { State.reset.paddock with
      tasks := [(0, strayTask), (1, { flow := 7, step := 0, state := 4, prio := 7, home := 5, wmask := 0x10 }),
        (2, { flow := 7, step := 0, state := 2, slot := 0 })]
      slots := (State.reset.paddock.slots.modify 0 (fun f => { f with run := some 0, buf := some 2 })).modify 5
        (fun f => { f with buf := some 0 })
      locks := State.reset.paddock.locks.modify 0 (fun l => { l with
        owner := some (.task 0), queue := [{ prio := 7, who := .task 1 }] }) } } : State).memWrite 0 0
    (zeros 6 ++ [1] ++ zeros 57 ++ endStepBytes ++ zeros 32)

theorem strayBuffer_stepping : Safety.stepping strayBuffer 0 0x10 strayTask endStepBytes :=
  ⟨rfl, by decide +kernel, rfl, endProgram, rfl, rfl, by decide +kernel, by decide +kernel⟩

theorem strayBuffer_ready : ((doFlowEnd 0 strayBuffer).task 0).map Task.state = some 1 := by decide +kernel

/-- Refutes O40, by its last clause on END: what the buffer of the task's own core holds is not enough. A task whose end releases a lock is
READY after it where the buffer of another slot has it, which the woken waiter takes. -/
theorem not_flowControl : ¬ Obligations.FlowControl := by
  rintro ⟨hsteps, -, -⟩
  obtain ⟨-, -, -, -, -, -, -, -, -, -, hend⟩ := hsteps strayBuffer 0 0x10 strayTask endStepBytes strayBuffer_stepping rfl
  obtain ⟨t, y, hexec, hy, hstate, -⟩ := hend rfl (by decide) (by decide +kernel)
  have hrun : doFlowEnd 0 strayBuffer = t := Host.Outcome.next.inj hexec
  have hready := strayBuffer_ready
  rw [hrun, hy, Option.map_some, hstate] at hready
  cases hready

end Sys2Proof.Machine
end

