-- ==== Sys2Proof/Proofs/Placement.lean ====
section
namespace Sys2Proof.Machine

/-! SUPPORT. What placing a task in a slot leaves as it was (R461), and a task that wakes (R455, R457, R459). -/

/-! ### Placing -/

/-- A task of which only the state and the slot have changed; one that is READY or SLOTTED is so still. -/
def Moved (x y : Task) : Prop := ∃ a b, y = { x with state := a, slot := b } ∧ (x.state = 1 ∨ x.state = 2 → a = 1 ∨ a = 2)

theorem Moved.refl (x : Task) : Moved x x := ⟨_, _, rfl, id⟩

theorem Moved.trans {x y z : Task} (h : Moved x y) (g : Moved y z) : Moved x z := by
  obtain ⟨_, _, rfl, ha⟩ := h
  obtain ⟨c, d, rfl, hc⟩ := g
  exact ⟨c, d, rfl, fun hx => hc (ha hx)⟩

theorem moved_to {n : Nat} (x : Task) (i : Nat) (h : n = 1 ∨ n = 2) : Moved x { x with state := n, slot := i } := ⟨_, _, rfl, fun _ => h⟩

/-- From s to t tasks have only moved, and slots have changed, none of them what it runs. -/
def Placed (s t : State) : Prop :=
  (∃ ts sl, t = { s with paddock := { s.paddock with tasks := ts, slots := sl } }) ∧
    (∀ i x, s.task i = some x → ∃ y, t.task i = some y ∧ Moved x y) ∧ ∀ i, (t.fslot i).run = (s.fslot i).run

theorem Placed.refl (s : State) : Placed s s := ⟨⟨_, _, rfl⟩, fun _ x h => ⟨x, h, .refl x⟩, fun _ => rfl⟩

theorem Placed.trans {s t u : State} (h : Placed s t) (g : Placed t u) : Placed s u := by
  obtain ⟨⟨_, _, rfl⟩, hm, hr⟩ := h
  obtain ⟨⟨ts, sl, rfl⟩, gm, gr⟩ := g
  refine ⟨⟨ts, sl, rfl⟩, fun i x hx => ?_, fun i => (gr i).trans (hr i)⟩
  obtain ⟨y, hy, hxy⟩ := hm i x hx
  obtain ⟨z, hz, hyz⟩ := gm i y hy
  exact ⟨z, hz, hxy.trans hyz⟩

theorem Placed.task {s t : State} (h : Placed s t) {i : Nat} {x : Task} (hx : s.task i = some x) : ∃ y, t.task i = some y ∧ Moved x y :=
  h.2.1 i x hx

theorem Placed.run {s t : State} (h : Placed s t) (i : Nat) : (t.fslot i).run = (s.fslot i).run := h.2.2 i

theorem Placed.frame {s t : State} (h : Placed s t) :
    t.mem = s.mem ∧ t.regs = s.regs ∧ t.host = s.host ∧ t.out = s.out ∧ t.paddock.locks = s.paddock.locks ∧ t.paddock.seq = s.paddock.seq := by
  obtain ⟨⟨_, _, rfl⟩, -⟩ := h
  exact ⟨rfl, rfl, rfl, rfl, rfl, rfl⟩

/-- A slot past the last has no core, whatever becomes of the others. -/
theorem upFslot_fslot (s : State) (i j : Nat) (f : FSlot → FSlot) :
    (s.upFslot i f).fslot j = if j = i ∧ i < s.paddock.slots.length then f (s.fslot j) else s.fslot j := by
  by_cases hj : j = i
  · subst hj
    by_cases hlen : j < s.paddock.slots.length
    · rw [if_pos ⟨rfl, hlen⟩]
      exact upFslot_fslot_same s j f hlen
    · rw [if_neg (fun h => hlen h.2)]
      show (s.paddock.slots.modify j f).getD j _ = s.paddock.slots.getD j _
      rw [List.getD_eq_default _ _ (by simpa using hlen), List.getD_eq_default _ _ (by simpa using hlen)]
  · rw [if_neg (fun h => hj h.1)]
    exact upFslot_fslot_ne s f hj

theorem placed_upFslot (s : State) (i : Nat) (f : FSlot → FSlot) (hf : ∀ x, (f x).run = x.run) : Placed s (s.upFslot i f) := by
  refine ⟨⟨_, _, rfl⟩, fun _ x h => ⟨x, h, .refl x⟩, fun j => ?_⟩
  rw [upFslot_fslot]
  split
  · exact hf _
  · rfl

/-- A task that is moved. -/
theorem placed_upTask (s : State) (tid n i : Nat) (h : n = 1 ∨ n = 2) :
    Placed s (s.upTask tid (fun t => { t with state := n, slot := i })) := by
  refine ⟨⟨_, _, rfl⟩, fun j x hx => ?_, fun _ => rfl⟩
  by_cases hj : j = tid
  · subst hj
    exact ⟨_, task_upTask_same _ hx, moved_to x i h⟩
  · exact ⟨x, (task_upTask_ne _ hj).trans hx, .refl x⟩

theorem placed_buffer (s : State) (tid i : Nat) : Placed s (s.buffer tid i) :=
  (placed_upFslot s i (fun f => { f with buf := some tid, fetched := false }) (fun _ => rfl)).trans (placed_upTask _ tid 2 i (.inr rfl))

theorem placed_placeTask (n : Nat) : ∀ (s : State) (tid : Nat), Placed s (placeTask n s tid) := by
  induction n with
  | zero => exact fun s _ => .refl s
  | succ n ih =>
    intro s tid
    unfold placeTask
    dsimp only
    split
    · exact placed_buffer _ _ _
    · split
      · exact .refl s
      · split
        · exact placed_buffer _ _ _
        · exact ((placed_upTask _ _ 1 0xFF (.inl rfl)).trans (placed_buffer _ _ _)).trans (ih _ _)

theorem placed_refillSlot (s : State) (i : Nat) : Placed s (s.refillSlot i) := by
  unfold State.refillSlot
  split
  · split
    · exact placed_buffer _ _ _
    · exact .refl s
  · exact .refl s

theorem placed_replace (s : State) (tid : Nat) : Placed s (s.replace tid) := by
  unfold State.replace
  split
  · exact placed_placeTask _ _ _
  · exact .refl s

/-! ### READY and the wake -/

/-- What making a task READY leaves: the tasks, the placement and the count of READY_SEQ apart, and OVER7. -/
theorem ready_facts {s : State} {tid : Nat} {x : Task} (h : s.task tid = some x) :
    (∃ y, (s.ready tid).task tid = some y ∧ (y.state = 1 ∨ y.state = 2) ∧
      ∃ a b, y = { x with readySeq := s.paddock.seq, state := a, slot := b }) ∧
    (s.ready tid).paddock.seq = (s.paddock.seq + 1) % 2 ^ 64 ∧ (s.ready tid).paddock.locks = s.paddock.locks ∧
    (s.ready tid).mem = s.mem ∧ (s.ready tid).host = s.host := by
  unfold State.ready
  set u : State := ({ s with paddock := { s.paddock with seq := (s.paddock.seq + 1) % 2 ^ 64 } } : State).upTask tid
    (fun t => { t with state := 1, readySeq := s.paddock.seq, slot := 0xFF }) with hu
  have hcheck : u.check7.paddock = u.paddock ∧ u.check7.mem = u.mem ∧ u.check7.host = u.host := by
    unfold State.check7
    split <;> exact ⟨rfl, rfl, rfl⟩
  have hx : u.check7.task tid = some { x with state := 1, readySeq := s.paddock.seq, slot := 0xFF } := by
    show kGet u.check7.paddock.tasks tid = _
    rw [hcheck.1]
    exact task_upTask_same _ h
  have hp := placed_placeTask 9 u.check7 tid
  obtain ⟨hmem, -, hhost, -, hlocks, hseq⟩ := hp.frame
  obtain ⟨y, hy, a, b, rfl, hst⟩ := hp.task hx
  refine ⟨⟨_, hy, hst (.inl rfl), a, b, rfl⟩, ?_, ?_, ?_, ?_⟩
  · rw [hseq, hcheck.1]; rfl
  · rw [hlocks, hcheck.1]; rfl
  · rw [hmem, hcheck.2.1]; rfl
  · rw [hhost, hcheck.2.2]; rfl

theorem ready_locks (s : State) (tid : Nat) : (s.ready tid).paddock.locks = s.paddock.locks := by
  unfold State.ready
  rw [(placed_placeTask _ _ _).frame.2.2.2.2.1]
  unfold State.check7
  split <;> rfl

/-- A woken task: READY or in a buffer, its wait over and the flags noted. -/
theorem wake_facts {s : State} {tid : Nat} {x : Task} (h : s.task tid = some x) (timedOut : Bool) :
    (∃ y, (s.wake tid timedOut).task tid = some y ∧ (y.state = 1 ∨ y.state = 2) ∧ y.readySeq = s.paddock.seq ∧ y.wakeFlags = y.flags ∧
      y.flags = x.flags ∧ y.timedOut = timedOut ∧ y.wmask = 0 ∧ y.wakeT = 0 ∧ y.step = x.step ∧ y.vars = x.vars) ∧
    (s.wake tid timedOut).paddock.seq = (s.paddock.seq + 1) % 2 ^ 64 ∧ (s.wake tid timedOut).mem = s.mem ∧
    (s.wake tid timedOut).host = s.host := by
  obtain ⟨⟨y, hy, hst, a, b, rfl⟩, hseq, -, hmem, hhost⟩ := ready_facts (task_upTask_same (fun t : Task => { t with
    wakeFlags := t.flags, wmask := 0, wall := false, wkind := 0, wakeT := 0, timedOut := timedOut }) h)
  exact ⟨⟨_, hy, hst, rfl, rfl, rfl, rfl, rfl, rfl, rfl, rfl⟩, hseq, hmem, hhost⟩

/-! ### Flags -/

/-- Flags set for a task that no wait of it ends. -/
theorem setFlags_awake {s : State} {tid : Nat} {x : Task} (m : Nat) (h : s.task tid = some x) (h5 : x.state ≠ 5)
    (h4 : x.state ≠ 4 ∨ ({ x with flags := x.flags ||| m } : Task).waitHolds = false) :
    s.setFlags tid m = s.upTask tid (fun _ => { x with flags := x.flags ||| m }) := by
  have hno : (decide (x.state = 4) && ({ x with flags := x.flags ||| m } : Task).waitHolds) = false := by
    rcases h4 with h4 | h4
    · simp [h4]
    · rw [h4, Bool.and_false]
  unfold State.setFlags
  simp only [h, if_neg h5]
  exact if_neg (by rw [hno]; exact Bool.false_ne_true)

theorem setFlags_ending {s : State} {tid : Nat} {x : Task} (m : Nat) (h : s.task tid = some x) (h5 : x.state = 5) :
    s.setFlags tid m = s := by
  unfold State.setFlags
  simp only [h, h5, if_true]

theorem setFlags_wakes {s : State} {tid : Nat} {x : Task} (m : Nat) (h : s.task tid = some x) (h4 : x.state = 4)
    (hw : ({ x with flags := x.flags ||| m } : Task).waitHolds = true) :
    s.setFlags tid m = (s.upTask tid (fun _ => { x with flags := x.flags ||| m })).wake tid false := by
  have h5 : x.state ≠ 5 := by omega
  unfold State.setFlags
  simp only [h, if_neg h5]
  exact if_pos (Bool.and_eq_true_iff.2 ⟨decide_eq_true h4, hw⟩)

theorem setFlags_locks (s : State) (tid m : Nat) : (s.setFlags tid m).paddock.locks = s.paddock.locks := by
  unfold State.setFlags
  split
  · rfl
  · split
    · rfl
    · dsimp only
      split
      · exact ready_locks _ _
      · rfl

/-! ### Locks (R466, R467) -/

theorem lock_congr {s t : State} (h : t.paddock.locks = s.paddock.locks) (k : Nat) : t.lock k = s.lock k := by
  unfold State.lock
  rw [h]

theorem Quiet.lock {s t : State} (h : Quiet s t) (k : Nat) : t.lock k = s.lock k := lock_congr (by rw [h.paddock]) k

theorem stepped_lock (s : State) (tid : Nat) (x : Task) (st : List Byte) (status : Nat) (bs : List Byte) (go : Option (Nat × Nat)) (k : Nat) :
    (s.stepped tid x st status bs go).lock k = s.lock k := (quiet_stepped s tid x st status bs go).lock k

/-- A lock that is granted has the owner and is no longer abandoned; the other locks are as they were. -/
theorem lockGrant_locks (s : State) (k : Nat) (o : Owner) :
    (s.lockGrant k o).paddock.locks = (s.upLock k (fun l => { l with owner := some o, abandoned := false })).paddock.locks := by
  have hq := quiet_mirrorLock (s.upLock k (fun l => { l with owner := some o, abandoned := false })) k
  have hlocks := congrArg Paddock.locks hq.paddock
  unfold State.lockGrant
  cases o with
  | task tid => exact (setFlags_locks _ _ _).trans hlocks
  | desc sq idx => exact (congrArg Paddock.locks (sends_complete _ _ _ _).paddock).trans hlocks
  | nobody => exact hlocks

/-- A lock that a task releases while nobody waits for it. -/
theorem lockRelease_task {s : State} {k tid : Nat} (hq : (s.lock k).queue = []) (ho : (s.lock k).owner = some (.task tid)) (ab : Bool) :
    s.lockRelease k ab = ((s.upTask tid (fun t => { t with locks := t.locks - (t.locks &&& 2 ^ k) })).upLock k
      (fun l => { l with owner := none, abandoned := ab, queue := l.queue.drop 1 })).mirrorLock k := by
  unfold State.lockRelease
  simp only [hq, ho]

/-- A lock that a ring releases while nobody waits for it. -/
theorem lockRelease_ring {s : State} {k sq idx : Nat} (hq : (s.lock k).queue = []) (ho : (s.lock k).owner = some (.desc sq idx)) (ab : Bool) :
    s.lockRelease k ab = (s.upLock k (fun l => { l with owner := none, abandoned := ab, queue := l.queue.drop 1 })).mirrorLock k := by
  unfold State.lockRelease
  simp only [hq, ho]

/-- A lock that nobody waits for is free once it is released. -/
theorem released_unqueued {l : Lock} (h : l.queue = []) (ab : Bool) :
    ({ l with owner := none, abandoned := ab, queue := l.queue.drop 1 } : Lock) = { l with owner := none, abandoned := ab } := by
  cases l
  cases h
  rfl

/-- A lock that others wait for goes to the first of them. -/
theorem lockRelease_queued {s : State} {k : Nat} {r : LockReq} {rs : List LockReq} (hk : k < s.paddock.locks.length)
    (h : (s.lock k).queue = r :: rs) (ab : Bool) :
    (s.lockRelease k ab).lock k = { s.lock k with owner := some r.who, abandoned := false, queue := rs } ∧
      ∀ j, j ≠ k → (s.lockRelease k ab).lock j = s.lock j := by
  obtain ⟨u, hrun, hu⟩ : ∃ u : State, s.lockRelease k ab = (u.upLock k (fun l =>
      { l with owner := none, abandoned := ab, queue := l.queue.drop 1 })).lockGrant k r.who ∧ u.paddock.locks = s.paddock.locks := by
    unfold State.lockRelease
    simp only [h]
    exact ⟨_, rfl, by split <;> rfl⟩
  set v := u.upLock k (fun l => { l with owner := none, abandoned := ab, queue := l.queue.drop 1 }) with hv
  rw [hrun]
  constructor
  · rw [lock_congr (lockGrant_locks v k r.who), upLock_lock_same _ _ _ (by rw [hv]; simpa [State.upLock, hu] using hk), hv,
      upLock_lock_same _ _ _ (by rw [hu]; exact hk), lock_congr hu, h]
    rfl
  · intro j hj
    rw [lock_congr (lockGrant_locks v k r.who), upLock_lock_ne _ _ hj, hv, upLock_lock_ne _ _ hj, lock_congr hu]

end Sys2Proof.Machine
end

