-- ==== Sys2Proof/Proofs/FlowWaits.lean ====
section
namespace Sys2Proof.Machine

/-! ### The steps that wait (R430, R431, R457) -/

/-- A task that waits for flags of a mask, with a timer. -/
def Task.waiting (t : Task) (mask : Nat) (all : Bool) (kind wakeT : Nat) : Task :=
  { t with state := 4, slot := 0xFF, begun := true, lastStep := (t.step, t.flow), wmask := mask, wall := all, wkind := kind, wakeT := wakeT }

/-- A state in which a task has begun to wait, before its core goes on. -/
def State.waitBegun (s : State) (tid mask : Nat) (all : Bool) (kind wakeT : Nat) : State :=
  (s.upTask tid (fun t => t.waiting mask all kind wakeT)).mirrorTask tid

section
variable {s u : State} {tid : Nat} {x y : Task} {st : List Byte}

theorem stepWait_waits (hx : s.task tid = some x) (hab : x.abortAt = none) (mask : Nat) (all : Bool) (kind wakeT : Nat) :
    s.stepWait tid mask all kind wakeT = (s.waitBegun tid mask all kind wakeT).coreFree x.slot := by
  unfold State.stepWait
  simp only [hx, hab]
  rfl

theorem taskOnly_waitBegun (h : Safety.taskOnly u s tid y) (mask : Nat) (all : Bool) (kind wakeT : Nat) :
    Safety.taskOnly u (s.waitBegun tid mask all kind wakeT) tid (y.waiting mask all kind wakeT) :=
  taskOnly_quiet (taskOnly_upTask _ h) (quiet_mirrorTask _ _)

/-- A step that has changed its task's flags alone begins to wait. -/
theorem waits_stepWait (h : Safety.taskOnly u s tid y) (hslot : y.slot = x.slot) (hab : y.abortAt = none) (hflow : y.flow = x.flow)
    (hstep : y.step = x.step) (hres : y.res = x.res) (hvars : y.vars = x.vars) (mask : Nat) (all : Bool) (kind wakeT : Nat) :
    Safety.waits u (s.stepWait tid mask all kind wakeT) tid x (y.waiting mask all kind wakeT) :=
  ⟨_, by rw [← hslot]; exact stepWait_waits h.1 hab mask all kind wakeT, taskOnly_waitBegun h mask all kind wakeT, rfl, rfl, rfl, hflow,
    hstep, hres, hvars⟩

theorem ok_lt : St.ok < 0x10 := by decide

/-- A WAIT_EVENT that ends with flags of its mask. -/
theorem commits_waitDone (hx : s.task tid = some x) (hab : x.abortAt = none) (hop : stOp st = 7) (flags : Nat) :
    ∃ y, Safety.commits s (s.waitDone tid x st flags false) tid x y ∧ y.step = x.step + 1 ∧ fld y.res 0 1 = St.ok ∧
      slice y.res 32 16 = leBytes 8 flags ++ leBytes 8 (flags &&& fld st 8 8) ∧
      y.flags = (if (fld st 17 1).testBit 0 then x.flags - (x.flags &&& (flags &&& fld st 8 8)) else x.flags) := by
  have hw : writesRes (stOp st) = true := by rw [hop]; decide
  set r : Result := { status := St.ok, body := leBytes 8 flags ++ leBytes 8 (flags &&& fld st 8 8) } with hr
  have hlen : r.body.length = 16 := by simp [hr]
  have hres (a b c d : Nat) : fld (r.bytes a b c d) 0 1 = St.ok ∧ slice (r.bytes a b c d) 32 16 = r.body :=
    ⟨bytes_status _ _ _ _ _, bytes_body _ _ _ _ _ hlen (by decide)⟩
  cases hclear : (fld st 17 1).testBit 0 with
  | true =>
    have hrun : s.waitDone tid x st flags false = (s.clearFlagsOf tid (flags &&& fld st 8 8)).stepDone tid x st r := by
      unfold State.waitDone
      simp [hclear, hr]
    rw [hrun]
    refine ⟨_, commits_stepDone (taskOnly_upTask _ (taskOnly_refl hx)) rfl hab ok_lt x st none, endStep_step _ _ _ _ ok_lt, ?_, ?_, rfl⟩
    · rw [endStep_res _ _ _ hw]; exact (hres _ _ _ _).1
    · rw [endStep_res _ _ _ hw]; exact (hres _ _ _ _).2
  | false =>
    have hrun : s.waitDone tid x st flags false = s.stepDone tid x st r := by
      unfold State.waitDone
      simp [hclear, hr]
    rw [hrun]
    refine ⟨_, commits_stepDone (taskOnly_refl hx) rfl hab ok_lt x st none, endStep_step _ _ _ _ ok_lt, ?_, ?_, rfl⟩
    · rw [endStep_res _ _ _ hw]; exact (hres _ _ _ _).1
    · rw [endStep_res _ _ _ hw]; exact (hres _ _ _ _).2

theorem timeout_fails : 0x10 ≤ St.timeout := by decide
theorem timeout_byte : St.timeout < 256 := by decide
theorem hwFault_fails : 0x10 ≤ St.hwFault := by decide
theorem hwFault_byte : St.hwFault < 256 := by decide
theorem bad_fails : 0x10 ≤ St.bad := by decide
theorem bad_byte : St.bad < 256 := by decide

theorem fails_waitDone (hx : s.task tid = some x) (hab : x.abortAt = none) (flags : Nat) :
    Safety.fails s (s.waitDone tid x st flags true) tid x st St.timeout 0 :=
  fails_stepDone (r := { status := St.timeout, body := leBytes 8 flags ++ leBytes 8 (flags &&& fld st 8 8) }) (taskOnly_refl hx) rfl hab rfl rfl
    rfl timeout_fails timeout_byte rfl x st

/-! ### SIGNAL (R438) -/

/-- A SIGNAL to a task that does not wait. -/
theorem signal_sets {target : Nat} {z : Task} (m : Nat) (hx : s.task tid = some x) (h3 : x.state = 3) (hz : s.task target = some z)
    (h4 : z.state ≠ 4) : ∃ y, (s.setFlags target m).task tid = some y ∧ y.slot = x.slot ∧ y.abortAt = x.abortAt ∧ y.step = x.step ∧
      y.vars = x.vars ∧ (target = tid → y.flags = x.flags ||| m) ∧
      (target ≠ tid → (s.setFlags target m).task target = some (if z.state = 5 then z else { z with flags := z.flags ||| m })) ∧
      (∀ i, i ≠ tid → i ≠ target → (s.setFlags target m).task i = s.task i) ∧ (s.setFlags target m).mem = s.mem := by
  by_cases ht : target = tid
  · subst ht
    obtain rfl : x = z := Option.some.inj (hx.symm.trans hz)
    rw [setFlags_awake m hx (by omega) (.inl h4)]
    exact ⟨_, task_upTask_same _ hx, rfl, rfl, rfl, rfl, fun _ => rfl, fun h => absurd rfl h, fun i hi _ => task_upTask_ne _ hi, rfl⟩
  · by_cases h5 : z.state = 5
    · rw [setFlags_ending m hz h5, if_pos h5]
      exact ⟨x, hx, rfl, rfl, rfl, rfl, fun h => absurd h ht, fun _ => hz, fun _ _ _ => rfl, rfl⟩
    · rw [setFlags_awake m hz h5 (.inl h4), if_neg h5]
      exact ⟨x, (task_upTask_ne _ (Ne.symm ht)).trans hx, rfl, rfl, rfl, rfl, fun h => absurd h ht, fun _ => task_upTask_same _ hz,
        fun i _ hi => task_upTask_ne _ hi, rfl⟩

/-! ### LOCK and UNLOCK (R439, R466, R467, R469) -/

/-- Whether a task holds, or has lost, a lock is not in its flags. -/
theorem taskOnly_upLock (h : Safety.taskOnly u s tid x) (k : Nat) (f : Lock → Lock) : Safety.taskOnly u (s.upLock k f) tid x := h

theorem fails_lostLock (h : Safety.taskOnly u s tid y) (hslot : y.slot = x.slot) (hab : y.abortAt = none) (hflow : y.flow = x.flow)
    (hstep : y.step = x.step) (hvars : y.vars = x.vars) (t : Task) (k : Nat) :
    Safety.fails u (s.lostLock tid t st k) tid x st St.hwFault 0 :=
  fails_stepDone (taskOnly_upTask _ h) hslot hab hflow hstep hvars hwFault_fails hwFault_byte rfl t st

theorem taskOnly_trans {v : State} (h : Safety.taskOnly u s tid x) (g : Safety.taskOnly s v tid y) : Safety.taskOnly u v tid y := by
  obtain ⟨-, hne, hslots, hhost, hsites, hbursts, hmem⟩ := h
  obtain ⟨hy, gne, gslots, ghost, gsites, gbursts, gmem⟩ := g
  exact ⟨hy, fun i hi => (gne i hi).trans (hne i hi), gslots.trans hslots, ghost.trans hhost, gsites.trans hsites, gbursts.trans hbursts,
    gmem.trans hmem⟩

theorem waitBegun_lock (s : State) (tid mask : Nat) (all : Bool) (kind wakeT k : Nat) :
    (s.waitBegun tid mask all kind wakeT).lock k = s.lock k := (quiet_mirrorTask _ _).lock k

/-- What a LOCK step that has its lock ends with. -/
theorem lockDone_ends (h : Safety.taskOnly u s tid y) (hab : y.abortAt = none) (hop : stOp st = 0x12) (t : Task) (k : Nat) (ab : Bool) :
    ∃ (v : State) (z : Task), s.lockDone tid t st k false ab = v.boundary y.slot ∧ Safety.taskOnly u v tid z ∧ z.step = y.step + 1 ∧
      z.locks = y.locks ∧ z.flags = y.flags - (y.flags &&& 0x10) ∧ fld z.res 0 1 = (if ab then 5 else St.ok) ∧
      ∀ j, v.lock j = s.lock j := by
  have hw : writesRes (stOp st) = true := by rw [hop]; decide
  have hlt : (if ab then 5 else St.ok) < 0x10 := by cases ab <;> decide
  have hc := taskOnly_upTask (fun t : Task => { t with flags := t.flags - (t.flags &&& 0x10) }) h
  refine ⟨_, _, stepEnd_boundary (x := { y with flags := y.flags - (y.flags &&& 0x10) }) hc.1 hab (.inl hlt), taskOnly_stepped hc _ _ _ _,
    endStep_step _ _ _ _ hlt, rfl, rfl, ?_, fun j => stepped_lock _ _ _ _ _ _ _ _⟩
  rw [endStep_res _ _ _ hw, bytes_status]
  exact Nat.mod_eq_of_lt (Nat.lt_trans hlt (by decide))

/-- A LOCK step that neither has its lock nor has lost it asks for it. -/
theorem lockStep_asks {v : State} {z : Task} (hs : Safety.stepping s tid 0x12 x st) (hb : x.begun = false) (hlost : x.lost.testBit (fld st 8 1) = false)
    (hheld : x.locks.testBit (fld st 8 1) = false) (hv : v = (s.clearFlagsOf tid 0x10).lockRequest (fld st 8 1)
      { prio := s.effPrio tid, who := .task tid }) (hz : v.task tid = some z) :
    doLockStep tid s = if z.locks.testBit (fld st 8 1) then v.lockDone tid x st (fld st 8 1) false z.lockAb
      else v.stepWait tid 0x10 false 3 (if fld st 12 4 = 0 then 0 else s.dtime + 1000 * fld st 12 4) := by
  have hno {b : Bool} (h : b = false) : ¬ b = true := by rw [h]; decide
  refine (flowCmd_stepping _ hs).trans ((if_neg (hno hb)).trans ((if_neg (hno hlost)).trans ((if_neg (hno hheld)).trans ?_)))
  dsimp only
  rw [← hv, hz]

/-- A LOCK step of a free lock. -/
theorem lockRequest_free {k : Nat} (prio : Nat) (hx : s.task tid = some x) (h3 : x.state = 3) (hk : k < s.paddock.locks.length)
    (ho : (s.lock k).owner = none) :
    Safety.taskOnly s (s.lockRequest k { prio := prio, who := .task tid }) tid
        { x with locks := x.locks ||| 2 ^ k, lockAb := (s.lock k).abandoned, flags := x.flags ||| 0x10 } ∧
      (s.lockRequest k { prio := prio, who := .task tid }).lock k = { s.lock k with owner := some (.task tid), abandoned := false } ∧
      ∀ j, j ≠ k → (s.lockRequest k { prio := prio, who := .task tid }).lock j = s.lock j := by
  have hrun : s.lockRequest k { prio := prio, who := .task tid } = s.lockGrant k (.task tid) := if_pos ho
  rw [hrun]
  refine ⟨?_, (lock_congr (lockGrant_locks s k _) k).trans (upLock_lock_same _ _ _ hk),
    fun j hj => (lock_congr (lockGrant_locks s k _) j).trans (upLock_lock_ne _ _ hj)⟩
  have h1 := taskOnly_upTask (fun t : Task => { t with locks := t.locks ||| 2 ^ k, lockAb := (s.lock k).abandoned })
    (taskOnly_quiet (taskOnly_upLock (taskOnly_refl hx) k (fun l => { l with owner := some (.task tid), abandoned := false }))
      (quiet_mirrorLock _ k))
  have h2 := taskOnly_upTask (fun _ : Task =>
    { x with locks := x.locks ||| 2 ^ k, lockAb := (s.lock k).abandoned, flags := x.flags ||| 0x10 }) h1
  have h5 : x.state ≠ 5 := by omega
  have h4 : x.state ≠ 4 := by omega
  rw [← setFlags_awake 0x10 h1.1 h5 (.inl h4)] at h2
  exact h2

end

/-- Settles O41, by the wait, the commit or the failure of each step. -/
theorem flowWaits : Obligations.FlowWaits := by
  intro s tid op x st hs hab
  obtain ⟨hx, h3⟩ : s.task tid = some x ∧ x.state = 3 := ⟨hs.1, stepping_running hs⟩
  have hop := hs.2.2.1
  have hself := taskOnly_refl hx
  have hclear (m : Nat) := taskOnly_upTask (fun t : Task => { t with flags := t.flags - (t.flags &&& m) }) hself
  have hno {b : Bool} (h : b = false) : ¬ b = true := by rw [h]; decide
  refine ⟨?_, ?_, ?_, ?_, ?_, ?_, ?_, ?_, ?_, ?_, ?_, ?_, ?_, ?_, ?_, ?_, ?_⟩
  · rintro rfl hb hw
    obtain ⟨y, hy⟩ := commits_waitDone hx hab hop x.flags
    exact ⟨_, y, congrArg Host.Outcome.next ((flowCmd_stepping _ hs).trans ((if_neg (hno hb)).trans (if_pos hw))), hy⟩
  · rintro rfl hb hw
    exact ⟨_, _, congrArg Host.Outcome.next ((flowCmd_stepping _ hs).trans ((if_neg (hno hb)).trans (if_neg (hno hw)))),
      waits_stepWait hself rfl hab rfl rfl rfl rfl _ _ _ _, rfl, rfl, rfl, rfl, rfl⟩
  · rintro rfl hb ht
    obtain ⟨y, hy⟩ := commits_waitDone hx hab hop x.wakeFlags
    refine ⟨_, y, congrArg Host.Outcome.next ((flowCmd_stepping _ hs).trans ((if_pos hb).trans ?_)), hy⟩
    rw [ht]
  · rintro rfl hb ht
    refine ⟨_, congrArg Host.Outcome.next ((flowCmd_stepping _ hs).trans ((if_pos hb).trans ?_)), fails_waitDone hx hab x.wakeFlags⟩
    rw [ht]
  · rintro rfl
    have hw : writesRes (stOp st) = false := by rw [hop]; decide
    exact ⟨_, _, congrArg Host.Outcome.next (flowCmd_stepping _ hs), commits_stepDone (hclear _) rfl hab ok_lt x st none, rfl,
      endStep_step _ _ _ _ ok_lt, endStep_res_kept _ _ _ ok_lt hw, rfl⟩
  · rintro due rfl rfl hdue
    refine ⟨_, _, congrArg Host.Outcome.next ((flowCmd_stepping _ hs).trans (if_pos ?_)), commits_stepDone (hclear _) rfl hab ok_lt x st none,
      endStep_step _ _ _ _ ok_lt, rfl, rfl⟩
    exact Bool.or_eq_true_iff.2 (hdue.imp id decide_eq_true)
  · rintro due rfl rfl hb hdue
    refine ⟨_, _, congrArg Host.Outcome.next ((flowCmd_stepping _ hs).trans (if_neg ?_)),
      waits_stepWait (hclear _) rfl hab rfl rfl rfl rfl _ _ _ _, rfl, rfl, rfl, rfl⟩
    rw [Bool.or_eq_true, hb]
    simpa using hdue
  · rintro z target rfl hb hr rfl hu hf hz h4
    have hsome : ¬ (s.task (fld st 8 2)).isNone = true := by rw [hz]; exact Bool.false_ne_true
    obtain ⟨y, hy, hslot, hya, hstep, hvars, hself', hother, hrest, hmem⟩ := signal_sets (fld st 16 8) hx h3 hz h4
    have hw : writesRes (stOp st) = true := by rw [hop]; decide
    have ht := taskOnly_stepped (taskOnly_refl hy) st St.ok
      (({ status := St.ok } : Result).bytes (stOp st) x.step 1 (s.setFlags (fld st 8 2) (fld st 16 8)).dtime) none
    have hne := ht.2.1
    refine ⟨_, _, _, congrArg Host.Outcome.next ((flowCmd_stepping _ hs).trans ((if_neg (hno hb)).trans ((if_neg (hno hr)).trans
      ((if_neg hu).trans ((if_neg (not_not.2 hf)).trans (if_neg hsome)))))), ?_, ht.1, ?_, hvars, ?_, hself', fun h => ?_, fun i hi hi' => ?_, ?_⟩
    · rw [← hslot]
      exact stepEnd_boundary hy (hya.trans hab) (.inl ok_lt)
    · rw [← hstep]
      exact endStep_step _ _ _ _ ok_lt
    · rw [endStep_res _ _ _ hw]
      exact bytes_status _ _ _ _ _
    · exact (hne _ h).trans (hother h)
    · exact (hne i hi).trans (hrest i hi hi')
    · exact (quiet_stepped _ _ _ _ _ _ _).mem.trans hmem
  · rintro rfl hb hr hu hf hz
    have hnone : (s.task (fld st 8 2)).isNone = true := by rw [hz]; rfl
    exact ⟨_, congrArg Host.Outcome.next ((flowCmd_stepping _ hs).trans ((if_neg (hno hb)).trans ((if_neg (hno hr)).trans
      ((if_neg hu).trans ((if_neg (not_not.2 hf)).trans (if_pos hnone)))))),
      fails_stepDone hself rfl hab rfl rfl rfl (by decide) (by decide) rfl x st⟩
  · rintro rfl hb hr hf
    refine ⟨_, congrArg Host.Outcome.next ((flowCmd_stepping _ hs).trans ((if_neg (hno hb)).trans ?_)),
      fails_stepDone (r := runBad 0x21) hself rfl hab rfl rfl rfl (by decide) (by decide) rfl x st⟩
    cases hbit : (fld st 10 1).testBit 0 with
    | true => exact (if_pos rfl).trans (if_pos hf)
    | false =>
      have hu : fld st 8 2 ≠ 0xFFFE := hr.resolve_left (hno hbit)
      exact (if_neg Bool.false_ne_true).trans ((if_neg hu).trans (if_pos hf))
  · rintro rfl hb hr hu
    have hkeep : (s.queueEvent { typ := 2, aux := fld st 12 4, p0 := tid + x.step * 2 ^ 16, p2 := s.dtime }).task tid = some x := by
      unfold State.task
      rw [(sends_queueEvent _ _).paddock]
      exact hx
    exact ⟨_, _, congrArg Host.Outcome.next ((flowCmd_stepping _ hs).trans ((if_neg (hno hb)).trans ((if_neg (hno hr)).trans (if_pos hu)))),
      commits_stepDone (taskOnly_refl hkeep) rfl hab ok_lt x st none, endStep_step _ _ _ _ ok_lt, rfl⟩
  · rintro rfl hb hr hf hl
    have hdown : (!s.linkUp 0 || !s.linkUp 1) = true := by rcases hl with h | h <;> simp [h]
    exact ⟨_, congrArg Host.Outcome.next ((flowCmd_stepping _ hs).trans ((if_neg (hno hb)).trans ((if_pos hr).trans
      ((if_neg (not_not.2 hf)).trans (if_pos hdown))))), fails_stepDone hself rfl hab rfl rfl rfl (by decide) (by decide) rfl x st⟩
  · rintro rfl hb hr hf h0 h1
    have hup : ¬ (!s.linkUp 0 || !s.linkUp 1) = true := by simp [h0, h1]
    obtain ⟨l, o, hsend⟩ := send_eq s 0 { typ := 0x33, seq := 0, fields := [fld st 11 1, 2, s.pos, tid, fld st 8 2, fld st 16 8] }
    have hkeep : (s.send 0 { typ := 0x33, seq := 0, fields := [fld st 11 1, 2, s.pos, tid, fld st 8 2, fld st 16 8] }).task tid = some x := by
      rw [hsend]
      exact hx
    exact ⟨_, _, congrArg Host.Outcome.next ((flowCmd_stepping _ hs).trans ((if_neg (hno hb)).trans ((if_pos hr).trans
      ((if_neg (not_not.2 hf)).trans (if_neg hup))))), rfl, rfl,
      waits_stepWait (taskOnly_refl hkeep) rfl hab rfl rfl rfl rfl _ _ _ _⟩
  · rintro a rfl hb rfl
    have hw : writesRes (stOp st) = true := by rw [hop]; decide
    have hrun := congrArg (@Host.Outcome.next State Fault Refusal)
      ((Eq.refl (doFlowSignal tid s)).trans ((flowCmd_stepping _ hs).trans (if_pos hb)))
    refine ⟨fun hlt => ⟨_, _, hrun, commits_stepDone hself rfl hab hlt x st none, endStep_step _ _ _ _ hlt, ?_⟩,
      fun hge hlt => ⟨_, hrun, fails_stepDone hself rfl hab rfl rfl rfl hge hlt rfl x st⟩⟩
    rw [endStep_res _ _ _ hw, bytes_status]
    exact Nat.mod_eq_of_lt (Nat.lt_trans hlt (by decide))
  · rintro k rfl hb rfl hk hshape
    have hrun := (Eq.refl (doLockStep tid s)).trans ((flowCmd_stepping _ hs).trans (if_neg (hno hb)))
    have hlen : fld st 8 1 < s.paddock.locks.length := by rw [hshape.2.2.2.2.2.2.2.2.2.2.2.2.2]; exact hk
    refine ⟨fun hlost => ?_, fun hlost hheld => ?_, fun hlost hheld ho => ?_, fun hlost hheld ho => ?_⟩
    · exact ⟨_, congrArg Host.Outcome.next (hrun.trans (if_pos hlost)), fails_lostLock (hclear 0x10) rfl hab rfl rfl rfl x _⟩
    · exact ⟨_, congrArg Host.Outcome.next (hrun.trans ((if_neg (hno hlost)).trans (if_pos hheld))),
        fails_stepDone (r := { runBad 0x24 with body := s.stepBody x st }) (hclear 0x10) rfl hab rfl rfl rfl bad_fails bad_byte rfl x st⟩
    · obtain ⟨hgrant, hlock, hlocks⟩ := lockRequest_free (s.effPrio tid) (hclear 0x10).1 h3 hlen ho
      have honly := taskOnly_trans (hclear 0x10) hgrant
      have hhas : (x.locks ||| 2 ^ fld st 8 1).testBit (fld st 8 1) = true := by
        rw [Nat.testBit_or, Nat.testBit_two_pow_self, Bool.or_true]
      obtain ⟨v, z, hv, hz, hstep, hzl, -, hres, hvl⟩ := lockDone_ends honly hab hop x (fld st 8 1) (s.lock (fld st 8 1)).abandoned
      exact ⟨_, v, z, congrArg Host.Outcome.next ((lockStep_asks hs hb hlost hheld rfl hgrant.1).trans ((if_pos hhas).trans hv)), rfl, hz, hzl,
        hstep, hres, (hvl _).trans hlock, fun j hj => (hvl j).trans (hlocks j hj)⟩
    · have hqueue : (s.clearFlagsOf tid 0x10).lockRequest (fld st 8 1) { prio := s.effPrio tid, who := .task tid } =
          (s.clearFlagsOf tid 0x10).upLock (fld st 8 1) (fun l => { l with queue := lockInsert l.queue { prio := s.effPrio tid, who := .task tid } }) :=
        if_neg ho
      have honly := taskOnly_upLock (hclear 0x10) (fld st 8 1)
        (fun l => { l with queue := lockInsert l.queue { prio := s.effPrio tid, who := .task tid } })
      refine ⟨_, _, _, congrArg Host.Outcome.next ((lockStep_asks hs hb hlost hheld hqueue.symm honly.1).trans
        ((if_neg (hno hheld)).trans (stepWait_waits honly.1 hab _ _ _ _))), rfl, taskOnly_waitBegun honly _ _ _ _, rfl, rfl, rfl, rfl, rfl,
        (waitBegun_lock _ _ _ _ _ _ _).trans (upLock_lock_same _ _ _ hlen), fun j hj => (waitBegun_lock _ _ _ _ _ _ _).trans (upLock_lock_ne _ _ hj)⟩
  · rintro rfl hb
    have hrun := (Eq.refl (doLockStep tid s)).trans ((flowCmd_stepping _ hs).trans (if_pos hb))
    refine ⟨fun ht => ⟨_, congrArg Host.Outcome.next hrun, ?_⟩, fun ht => ?_⟩
    · rw [ht]
      exact fails_stepDone (r := { status := St.timeout, body := leBytes 1 (fld st 8 1) ++ leBytes 1 0 }) (hclear 0x10) rfl hab rfl rfl rfl
        timeout_fails timeout_byte rfl x st
    · obtain ⟨v, z, hv, hz, hstep, -, hflags, hres, -⟩ := lockDone_ends hself hab hop x (fld st 8 1) x.lockAb
      refine ⟨_, z, congrArg Host.Outcome.next (hrun.trans ?_), ⟨v, hv, hz⟩, hstep, hres, hflags⟩
      rw [ht]
  · rintro k rfl rfl hk hshape
    have hrun := (Eq.refl (doUnlockStep tid s)).trans (flowCmd_stepping _ hs)
    have hlen : fld st 8 1 < s.paddock.locks.length := by rw [hshape.2.2.2.2.2.2.2.2.2.2.2.2.2]; exact hk
    refine ⟨fun hlost => ?_, fun hlost hheld => ?_, fun hlost hheld ho hq => ?_, fun r rs hlost hheld hq => ?_⟩
    · exact ⟨_, congrArg Host.Outcome.next (hrun.trans (if_pos hlost)), fails_lostLock hself rfl hab rfl rfl rfl x _⟩
    · exact ⟨_, congrArg Host.Outcome.next (hrun.trans ((if_neg (hno hlost)).trans (if_pos (by rw [hheld]; rfl)))),
        fails_stepDone (r := runBad 0x24) hself rfl hab rfl rfl rfl bad_fails bad_byte rfl x st⟩
    · have hheld' : ¬ (!x.locks.testBit (fld st 8 1)) = true := by rw [hheld]; decide
      have honly := taskOnly_quiet (taskOnly_upLock (taskOnly_upTask (fun t : Task => { t with
        locks := t.locks - (t.locks &&& 2 ^ fld st 8 1) }) hself) (fld st 8 1)
          (fun l => { l with owner := none, abandoned := false, queue := l.queue.drop 1 })) (quiet_mirrorLock _ (fld st 8 1))
      rw [← lockRelease_task hq ho false] at honly
      have hlk : ∀ j, (s.lockRelease (fld st 8 1) false).lock j = ((s.upTask tid (fun t => { t with
          locks := t.locks - (t.locks &&& 2 ^ fld st 8 1) })).upLock (fld st 8 1)
            (fun l => { l with owner := none, abandoned := false, queue := l.queue.drop 1 })).lock j := by
        intro j
        rw [lockRelease_task hq ho false]
        exact (quiet_mirrorLock _ _).lock j
      refine ⟨_, _, _, congrArg Host.Outcome.next (hrun.trans ((if_neg (hno hlost)).trans (if_neg hheld'))),
        stepEnd_boundary (x := { x with locks := x.locks - (x.locks &&& 2 ^ fld st 8 1) }) honly.1 hab (.inl ok_lt),
        taskOnly_stepped honly _ _ _ _, rfl, endStep_step _ _ _ _ ok_lt, ?_, fun j hj => ?_⟩
      · exact ((stepped_lock _ _ _ _ _ _ _ _).trans (hlk _)).trans ((upLock_lock_same _ _ _ hlen).trans
          (released_unqueued hq false))
      · rw [stepped_lock, hlk, upLock_lock_ne _ _ hj]
        rfl
    · have hheld' : ¬ (!x.locks.testBit (fld st 8 1)) = true := by rw [hheld]; decide
      obtain ⟨hlk, hlks⟩ := lockRelease_queued hlen hq false
      exact ⟨_, _, congrArg Host.Outcome.next (hrun.trans ((if_neg (hno hlost)).trans (if_neg hheld'))), rfl, rfl, hlk, hlks⟩

end Sys2Proof.Machine
end

