-- ==== Sys2Proof/Proofs/RingLocks.lean ====
section
namespace Sys2Proof.Machine

/-! ### Locks by descriptor (R466, R467) -/

section
variable {s : State} {sq idx k : Nat} {d : Desc}

/-- A LOCK descriptor in order asks for its lock once it has begun. -/
theorem lockDesc_asks (hd : Safety.ready s sq idx 0x3B d) (hk : fld d.bytes 16 1 = k) (h31 : k ≤ 31) (hz1 : zeroes d.bytes 17 3 = true)
    (hz2 : zeroes d.bytes 24 40 = true) : doLockDesc sq idx s = (s.begin sq idx).lockRequest k 
      ⟨s.rf F.RINGK_CFG_PRIO [sq], .desc sq idx, if fld d.bytes 20 4 = 0 then none else some (s.dtime + 1000 * fld d.bytes 20 4)⟩ := by
  have h31' : ¬ 31 < k := by omega
  unfold doLockDesc
  rw [withDesc_of_ready hd]
  simp [hk, h31', hz1, hz2]

/-- A grant to a ring: the lock is the ring's, and the descriptor completes. -/
theorem lockGrant_ring (s : State) {k : Nat} (sq idx : Nat) (hk : k < s.paddock.locks.length) :
    (s.lockGrant k (.desc sq idx)).lock k = { s.lock k with owner := some (.desc sq idx), abandoned := false } ∧
      (∀ j, j ≠ k → (s.lockGrant k (.desc sq idx)).lock j = s.lock j) ∧ (s.lockGrant k (.desc sq idx)).desc sq idx = none ∧
      (s.lockGrant k (.desc sq idx)).paddock.tasks = s.paddock.tasks ∧ (s.lockGrant k (.desc sq idx)).mem = s.mem := by
  have hq := quiet_mirrorLock (s.upLock k (fun l => { l with owner := some (.desc sq idx), abandoned := false })) k
  refine ⟨(lock_congr (lockGrant_locks s k _) k).trans (upLock_lock_same _ _ _ hk),
    fun j hj => (lock_congr (lockGrant_locks s k _) j).trans (upLock_lock_ne _ _ hj), complete_desc _ _ _ _, ?_, ?_⟩
  · exact (congrArg Paddock.tasks ((sends_complete _ _ _ _).paddock.trans hq.paddock)).trans rfl
  · exact (sends_complete _ _ _ _).mem.trans hq.mem

/-- UNLOCK that is not in order, or not of the lock's owner. -/
theorem unlockDesc_refused (hd : Safety.ready s sq idx 0x3C d) (hk : fld d.bytes 16 1 = k)
    (h : 31 < k ∨ zeroes d.bytes 17 47 = false ∨ ownerIs (s.lock k).owner (.desc sq idx) = false) :
    doUnlockDesc sq idx s = s.finish sq idx St.bad := by
  unfold doUnlockDesc
  rw [withDesc_of_ready hd]
  refine if_pos ?_
  rw [hk]
  rcases h with h | h | h <;> simp [h]

theorem unlockDesc_releases (hd : Safety.ready s sq idx 0x3C d) (hk : fld d.bytes 16 1 = k) (h31 : k ≤ 31)
    (hz : zeroes d.bytes 17 47 = true) (ho : ownerIs (s.lock k).owner (.desc sq idx) = true) :
    doUnlockDesc sq idx s = (s.lockRelease k false).finish sq idx St.ok := by
  unfold doUnlockDesc
  rw [withDesc_of_ready hd]
  have h31' : ¬ 31 < k := by omega
  refine (if_neg ?_).trans (by rw [hk])
  rw [hk]
  simp [h31', hz, ho]

/-- The owner of a lock that is a ring's. -/
theorem ownerIs_ring {o : Option Owner} {sq idx : Nat} (h : ownerIs o (.desc sq idx) = true) : ∃ i, o = some (.desc sq i) := by
  unfold ownerIs at h
  split at h
  · contradiction
  · rename_i a i b j heq
    cases heq
    have : a = sq := by simpa using h
    exact ⟨i, by rw [this]⟩
  · cases h

/-- A request of a ring that is at or past its deadline. -/
def LockReq.due (r : LockReq) (sq idx t : Nat) : Bool := r.who = .desc sq idx && r.deadline.any (fun d => d ≤ t)

/-- LOCK_TIMEOUT of the only lock that the ring waits for. -/
theorem lockTimeout_run {r : LockReq} {tt : Nat} (hk : k < 32) (hr : r ∈ (s.lock k).queue) (hdue : r.due sq idx tt = true)
    (hfirst : ∀ j < k, ∀ q ∈ (s.lock j).queue, q.who ≠ .desc sq idx) :
    doLockTimeout sq idx tt s = ((s.at tt).upLock k (fun l => { l with queue := l.queue.filter (fun r => !r.due sq idx tt) })).complete sq idx
      { status := St.timeout, val0 := k, body := leBytes 1 k } := by
  have hfind : (List.range 32).find? (fun k => (s.lock k).queue.any (fun r => r.due sq idx tt)) = some k := by
    rw [List.find?_range_eq_some]
    refine ⟨List.any_eq_true.2 ⟨r, hr, hdue⟩, List.mem_range.2 hk, fun j hj => ?_⟩
    rw [Bool.not_eq_true', List.any_eq_false]
    intro q hq
    simp [LockReq.due, hfirst j hj q hq]
  show (match (List.range 32).find? (fun k => (s.lock k).queue.any (fun r => r.due sq idx tt)) with
    | none => s
    | some k => ((s.at tt).upLock k (fun l => { l with queue := l.queue.filter (fun r => !r.due sq idx tt) })).complete sq idx
      { status := St.timeout, val0 := k, body := leBytes 1 k }) = _
  rw [hfind]

end

/-- Settles O32, by the request, the release and the timeout of a lock. -/
theorem locksOfRings : Obligations.LocksOfRings := by
  refine ⟨fun s sq idx k d hd hk h31 hz1 hz2 hshape => ?_, fun s sq idx k d hd hk => ?_,
    fun s sq idx k tt due r hk hr hwho hdl hdue hfirst hshape => ?_⟩
  · have hlen : k < s.paddock.locks.length := by rw [hshape.2.2.2.2.2.2.2.2.2.2.2.2.2]; omega
    refine ⟨_, congrArg Host.Outcome.next (lockDesc_asks hd hk h31 hz1 hz2), fun ho => ?_, fun ho => ?_⟩
    · rw [State.lockRequest, show (s.begin sq idx).lock k = s.lock k from rfl, if_pos ho]
      exact lockGrant_ring (s.begin sq idx) sq idx hlen
    · rw [State.lockRequest, show (s.begin sq idx).lock k = s.lock k from rfl, if_neg ho]
      exact ⟨upLock_lock_same _ _ _ hlen, fun j hj => upLock_lock_ne _ _ hj, begin_desc hd.1, rfl, rfl⟩
  · refine ⟨_, rfl, fun h => ?_, fun h31 hz ho hshape => ?_⟩
    · have hrun := unlockDesc_refused hd hk h
      exact ⟨hrun, (congrArg State.paddock hrun).trans (sends_finish _ _ _ _).paddock⟩
    · have hlen : k < s.paddock.locks.length := by rw [hshape.2.2.2.2.2.2.2.2.2.2.2.2.2]; omega
      have hrun := unlockDesc_releases hd hk h31 hz ho
      refine ⟨hrun, fun hq => ?_⟩
      obtain ⟨i, hi⟩ := ownerIs_ring ho
      have hquiet := quiet_mirrorLock (s.upLock k (fun l => { l with owner := none, abandoned := false, queue := l.queue.drop 1 })) k
      have hsend := sends_finish (s.lockRelease k false) sq idx St.ok
      rw [lockRelease_ring hq hi false] at hsend hrun
      have hpad := hsend.paddock.trans hquiet.paddock
      rw [show doUnlockDesc sq idx s = _ from hrun]
      exact ⟨((lock_congr (congrArg Paddock.locks hpad) k).trans (upLock_lock_same _ _ _ hlen)).trans (released_unqueued hq false),
        fun j hj => (lock_congr (congrArg Paddock.locks hpad) j).trans (upLock_lock_ne _ _ hj), (congrArg Paddock.tasks hpad).trans rfl,
        hsend.mem.trans hquiet.mem⟩
  · have hlen : k < s.paddock.locks.length := by rw [hshape.2.2.2.2.2.2.2.2.2.2.2.2.2]; exact hk
    have hr' : r.due sq idx tt = true := by simp [LockReq.due, hwho, hdl, hdue]
    set u := (s.at tt).upLock k (fun l => { l with queue := l.queue.filter (fun r => !r.due sq idx tt) }) with hu
    have hsend := sends_complete u sq idx { status := St.timeout, val0 := k, body := leBytes 1 k }
    have hlk (j : Nat) : (u.complete sq idx { status := St.timeout, val0 := k, body := leBytes 1 k }).lock j = u.lock j :=
      lock_congr (congrArg Paddock.locks hsend.paddock) j
    have hsame : u.lock k = { s.lock k with queue := (s.lock k).queue.filter (fun r => !r.due sq idx tt) } := upLock_lock_same _ _ _ hlen
    refine ⟨_, u, congrArg Host.Outcome.next (lockTimeout_run hk hr hr' hfirst), rfl, ?_, ?_, fun j hj => ?_, complete_desc _ _ _ _, hsend.dtime⟩
    · rw [hlk, hsame]
      simp [hr']
    · rw [hlk, hsame]
    · rw [hlk]
      exact upLock_lock_ne _ _ hj

end Sys2Proof.Machine
end

