-- ==== Sys2Proof/Proofs/WardenNamed.lean ====
section
namespace Sys2Proof.Machine

/-! SUPPORT. A task that is named the warden while it runs outside the warden's slot, and that an abort has noted, ends as it leaves that
slot (R468, R470): the warden role stands for nobody then. -/

/-- A task that runs in slot 1, with an abort noted for its next step boundary. -/
def abortedTask : Task := { flow := 7, step := 0, state := 3, slot := 1, abortAt := some (St.aborted, 0) }

/-- Boot is done, and `abortedTask` is task 0 in slot 1; slot 0 has the warden role. -/
def abortedWarden : State :=
  ({ State.reset with
    power := { dom := 2 ^ 60 + 2 ^ 61 }
    paddock := { State.reset.paddock with
      tasks := [(0, abortedTask)]
      slots := State.reset.paddock.slots.modify 1 (fun f => { f with run := some 0 }) } } : State).setRf F.BOOT_STATUS_DONE [] 1

theorem abortedWarden_writable : Safety.writable abortedWarden (F.PADDOCK_WARDEN_TASK_ID.off []) = true := by decide +kernel

theorem abortedWarden_ends :
    (abortedWarden.busWrite (F.PADDOCK_WARDEN_TASK_ID.off []) (doPaddockWardenWrite 0)).isWarden 0 = false := by decide +kernel

/-- Refutes O31, by its clause on PADDOCK_WARDEN: the slot that a task has to leave as it is named ends it where an abort has been noted,
and a warden that ends is none. -/
theorem not_tasksByHost : ¬ Obligations.TasksByHost := by
  rintro ⟨-, -, -, -, -, hwarden⟩
  obtain ⟨t, u, hexec, -, -, -, -, -, his, -⟩ := (hwarden abortedWarden 0 abortedWarden_writable).2 abortedTask rfl (by decide)
  have hrun : abortedWarden.busWrite (F.PADDOCK_WARDEN_TASK_ID.off []) (doPaddockWardenWrite 0) = t := Host.Outcome.next.inj hexec
  have hends := abortedWarden_ends
  rw [hrun] at hends
  exact absurd (his.symm.trans hends) (by decide)

end Sys2Proof.Machine
end

