-- ==== Sys2Proof/Proofs/RefusedBurst.lean ====
section
namespace Sys2Proof.Machine

/-! SUPPORT. A RUN_BURST step whose refusal ends WITH_BURST work (R414, R420): a waiter that this wakes may take the buffer of another slot in
which the task of the step stands too, and the step's core does not go on then. -/

/-! ### What a core runs after a step boundary -/

section
variable {s : State} {i tid : Nat} {x : Task}

/-- A task that an idle core has taken starts its quantum. -/
theorem coreTake_starts (hx : s.task tid = some x) (hidle : (s.fslot i).run = none) (hrun : ((s.coreTake i).fslot i).run = some tid) :
    ∃ y, (s.coreTake i).task tid = some y ∧ y.quantum = 0 := by
  cases hbuf : (s.fslot i).buf with
  | none =>
    have hsame : s.coreTake i = s := by unfold State.coreTake; simp only [hidle, hbuf]
    rw [hsame, hidle] at hrun
    cases hrun
  | some t =>
    by_cases htake : ((s.fslot i).fetched && s.slotUp i && s.places) = true
    · have htaken : s.coreTake i = ((s.upFslot i (fun f => { f with run := some t, buf := none, fetched := false, hold := false })).upTask t
          (fun t => { t with state := 3, slot := i, quantum := 0 })).refillSlot i := by
        unfold State.coreTake
        simp only [hidle, hbuf, htake, if_true]
      have hp := placed_refillSlot ((s.upFslot i (fun f => { f with run := some t, buf := none, fetched := false, hold := false })).upTask t
          (fun t => { t with state := 3, slot := i, quantum := 0 })) i
      rw [htaken] at hrun ⊢
      rw [hp.run] at hrun
      have hslot := upFslot_fslot s i i (fun f => { f with run := some t, buf := none, fetched := false, hold := false })
      have hrun' : ((s.upFslot i (fun f => { f with run := some t, buf := none, fetched := false, hold := false })).fslot i).run = some tid := hrun
      rw [hslot] at hrun'
      split at hrun'
      · cases hrun'
        have hx' := task_upTask_same (s := s.upFslot i (fun f => { f with run := some tid, buf := none, fetched := false, hold := false }))
          (fun t : Task => { t with state := 3, slot := i, quantum := 0 }) hx
        obtain ⟨y, hy, a, b, rfl, -⟩ := hp.task hx'
        exact ⟨_, hy, rfl⟩
      · rw [hidle] at hrun'
        cases hrun'
    · have hsame : s.coreTake i = s := by unfold State.coreTake; simp only [hidle, hbuf, if_neg htake]
      rw [hsame, hidle] at hrun
      cases hrun

theorem coreFree_starts (hx : s.task tid = some x) (hrun : ((s.coreFree i).fslot i).run = some tid) :
    ∃ y, (s.coreFree i).task tid = some y ∧ y.quantum = 0 := by
  set u := s.upFslot i (fun f => { f with run := none, hold := false }) with hu
  have hidle : (u.fslot i).run = none := by
    rw [hu, upFslot_fslot]
    by_cases hlen : i < s.paddock.slots.length
    · rw [if_pos ⟨rfl, hlen⟩]
    · rw [if_neg (fun h => hlen h.2)]
      show (s.paddock.slots.getD i { phys := none }).run = none
      rw [List.getD_eq_default _ _ (by omega)]
  have hp := placed_refillSlot (u.coreTake i) i
  have hrun' : (((u.coreTake i).refillSlot i).fslot i).run = some tid := hrun
  rw [hp.run] at hrun'
  obtain ⟨y, hy, hq⟩ := coreTake_starts (s := u) hx hidle hrun'
  obtain ⟨z, hz, a, b, rfl, -⟩ := hp.task hy
  exact ⟨_, hz, hq⟩

/-- A task that goes on past a step boundary, and not from the start of a quantum, goes on because no task of higher priority is in the
buffer. -/
theorem boundary_goes_on (hx : s.task tid = some x) (hrun : ((s.boundary i).fslot i).run = some tid)
    (hhold : ((s.boundary i).fslot i).hold = false) (hq : ∀ y, (s.boundary i).task tid = some y → y.quantum ≠ 0) :
    (s.boundary i).prioOf ((s.boundary i).fslot i).buf ≤ (s.boundary i).prioOf ((s.boundary i).fslot i).run := by
  by_cases hprio : s.prioOf (s.fslot i).buf > s.prioOf (s.fslot i).run
  · exfalso
    by_cases hfetched : (s.fslot i).fetched = true
    · cases hr : (s.fslot i).run with
      | none =>
        rw [hr] at hprio
        have hb : s.boundary i = s.coreTake i := by
          unfold State.boundary
          simp only [hr, if_pos hprio, if_pos hfetched]
        rw [hb] at hrun hq
        obtain ⟨y, hy, h0⟩ := coreTake_starts hx hr hrun
        exact hq y hy h0
      | some t =>
        rw [hr] at hprio
        have hb : s.boundary i = ((s.upTask t (fun t => { t with state := 1, slot := 0xFF })).coreFree i).replace t := by
          unfold State.boundary
          simp only [hr, if_pos hprio, if_pos hfetched]
        rw [hb] at hrun hq
        obtain ⟨y, hy, -⟩ := (placed_upTask s t 1 0xFF (.inl rfl)).task hx
        have hp := placed_replace ((s.upTask t (fun t => { t with state := 1, slot := 0xFF })).coreFree i) t
        rw [hp.run] at hrun
        obtain ⟨z, hz, h0⟩ := coreFree_starts hy hrun
        obtain ⟨w, hw, a, b, rfl, -⟩ := hp.task hz
        exact hq _ hw h0
    · have hb : s.boundary i = s.upFslot i (fun f => { f with hold := true }) := by
        unfold State.boundary
        simp only [if_pos hprio, if_neg hfetched]
      rw [hb, upFslot_fslot] at hrun hhold
      split at hhold
      · cases hhold
      · rename_i hout
        rw [if_neg hout] at hrun
        have hlen : ¬ i < s.paddock.slots.length := fun h => hout ⟨rfl, h⟩
        have hnone : s.fslot i = { phys := none } := List.getD_eq_default _ _ (by omega)
        rw [hnone] at hrun
        cases hrun
  · have hb : s.boundary i = s := if_neg hprio
    rw [hb]
    exact Nat.not_lt.1 hprio

end

/-! ### A refusal that displaces the step's task -/

/-- The task whose RUN_BURST is refused: it runs in slot 0. -/
def refusedTask : Task := { flow := 7, step := 0, state := 3, slot := 0, siteId := 0 }

/-- Its step: RUN_BURST of an object that is not loaded, with ON_ERR at step 0. -/
def refusedStep : List Byte := [1] ++ zeros 7 ++ [9] ++ zeros 23

/-- Task 0 runs its RUN_BURST in slot 0, whose buffer has task 2, of higher priority; slot 5 idles with task 0 in its buffer; task 1, of
priority 7 and home slot 5, waits for its acquisition with the next burst of site 0. -/
def refusedBurst : State :=
  ({ State.reset with
    power := { dom := 2 ^ 60 + 2 ^ 65 }
    objs := [(7, endProgram)]
    sites := [(0, { id := 0 })]
    acqs := [{ site := 0, region := 0, chains := 0, withBurst := true, duration := 0, start := 0, owner := .task 1 }]
    paddock := { State.reset.paddock with
      tasks := [(0, refusedTask), (1, { flow := 7, step := 0, state := 4, prio := 7, home := 5, wmask := 4 }),
        (2, { flow := 7, step := 0, state := 2, slot := 0, prio := 3 })]
      slots := (State.reset.paddock.slots.modify 0 (fun f => { f with run := some 0, buf := some 2 })).modify 5
        (fun f => { f with buf := some 0 }) } } : State).memWrite 0 0
    (zeros 6 ++ [1] ++ zeros 57 ++ refusedStep ++ zeros 32)

theorem refusedBurst_stepping : Safety.stepping refusedBurst 0 1 refusedTask refusedStep :=
  ⟨rfl, by decide +kernel, rfl, endProgram, rfl, rfl, by decide +kernel, by decide +kernel⟩

/-- The start of the operation, and its refusal. -/
def refusedIssue : State × Option Result := (Safety.taken refusedBurst 0 0 refusedStep).opStart 0 refusedTask refusedStep

/-- NO_OBJECT, to a task that still runs in slot 0. -/
theorem refusedIssue_refused : refusedIssue.2.map Result.status = some St.noObject ∧
    (refusedIssue.1.task 0).map (fun x => (x.state, x.abortAt, x.slot, x.ops.length)) = some (3, none, 0, 4) := by decide +kernel

/-- After the step slot 0 runs task 0 past its boundary, with a task of higher priority in its buffer. -/
theorem refusedBurst_stands :
    ((doRunBurstStep 0 refusedBurst).fslot 0).run = some 0 ∧ ((doRunBurstStep 0 refusedBurst).fslot 0).hold = false ∧
      ((doRunBurstStep 0 refusedBurst).task 0).map Task.quantum = some 1 ∧
      (doRunBurstStep 0 refusedBurst).prioOf (some 0) < (doRunBurstStep 0 refusedBurst).prioOf ((doRunBurstStep 0 refusedBurst).fslot 0).buf := by
  decide +kernel

/-- Refutes O42, by its clause on a refused issue: the refusal of a RUN_BURST ends WITH_BURST work, and where a waiter that it wakes
displaces the step's task from a buffer, the core of the step is left past its boundary. -/
theorem not_flowOperations : ¬ Obligations.FlowOperations := by
  rintro ⟨-, -, hrefused, -⟩
  obtain ⟨hst, htask⟩ := refusedIssue_refused
  obtain ⟨r, hr, hstatus⟩ := Option.map_eq_some_iff.1 hst
  obtain ⟨x, hx, hx'⟩ := Option.map_eq_some_iff.1 htask
  simp only [Prod.mk.injEq] at hx'
  obtain ⟨h3, hab, hslot, hops⟩ := hx'
  obtain ⟨t, v, y, hexec, hv, -, -, -, -, -, -, ht⟩ := hrefused refusedBurst refusedIssue.1 0 1 0 refusedTask x refusedStep _ r (.runBurstStep 0)
    refusedBurst_stepping (by decide) rfl (by decide) (Prod.ext rfl hr) rfl hx h3 hab (by omega) (by rw [hstatus]; decide)
    (by rw [hstatus]; decide)
  have hrun : doRunBurstStep 0 refusedBurst = t := Host.Outcome.next.inj hexec
  rw [if_neg (by decide), hslot] at ht
  obtain ⟨hruns, hhold, hquantum, hprio⟩ := refusedBurst_stands
  rw [hrun, ht] at hruns hhold hquantum hprio
  refine Nat.not_le.2 hprio ?_
  rw [← hruns]
  refine boundary_goes_on hv hruns hhold fun z hz h0 => ?_
  rw [hz, Option.map_some, h0] at hquantum
  cases hquantum

end Sys2Proof.Machine
end

