-- ==== Sys2Proof/Proofs/PaddockHappenings.lean ====
section
namespace Sys2Proof.Machine

/-! ### Context fetches, quanta and timers (R455, R457, R461-R463) -/

section
variable {s : State} {i tid : Nat} {x : Task}

theorem slotUp_upFslot (s : State) (i : Nat) (f : FSlot → FSlot)
    (hf : ∀ x, (f x).phys = x.phys ∧ (f x).retired = x.retired ∧ (f x).settling = x.settling) : (s.upFslot i f).slotUp i = s.slotUp i := by
  have hsame : ((s.upFslot i f).fslot i).phys = (s.fslot i).phys ∧ ((s.upFslot i f).fslot i).retired = (s.fslot i).retired ∧
      ((s.upFslot i f).fslot i).settling = (s.fslot i).settling := by
    rw [upFslot_fslot]
    split
    · exact hf _
    · exact ⟨rfl, rfl, rfl⟩
  unfold State.slotUp
  dsimp only
  rw [hsame.1, hsame.2.1, hsame.2.2]
  rfl

/-- A core that takes its buffered task. -/
theorem coreTake_takes {s : State} {i t : Nat} (hrun : (s.fslot i).run = none) (hbuf : (s.fslot i).buf = some t) (hf : (s.fslot i).fetched = true)
    (hup : s.slotUp i = true) (hp : s.places = true) : s.coreTake i =
      ((s.upFslot i (fun f => { f with run := some t, buf := none, fetched := false, hold := false })).upTask t
        (fun t => { t with state := 3, slot := i, quantum := 0 })).refillSlot i := by
  unfold State.coreTake
  simp only [hrun, hbuf, hf, hup, hp, Bool.and_self, if_true]

/-- A fetch that ends where the slot is in service and nothing is under repair. -/
theorem contextFetchDone_notes {t : Nat} (hbuf : (s.fslot i).buf = some t) (hf : (s.fslot i).fetched = false) (hup : s.slotUp i = true)
    (hp : s.places = true) : doContextFetchDone i s =
      if (s.fslot i).run.isNone then (s.upFslot i (fun f => { f with fetched := true, hold := false })).coreTake i
      else if (s.fslot i).hold then (s.upFslot i (fun f => { f with fetched := true, hold := false })).boundary i
      else s.upFslot i (fun f => { f with fetched := true, hold := false }) := by
  unfold doContextFetchDone
  refine if_neg ?_
  simp [hbuf, hf, hup, hp]

/-- A task that leaves its core for its ready list with a new READY_SEQ. -/
theorem yieldTask_ready (hx : s.task tid = some x) (hab : x.abortAt = none) (hbuf : (s.fslot i).buf ≠ some tid) :
    (∃ y, (s.yieldTask tid i).task tid = some y ∧ (y.state = 1 ∨ y.state = 2) ∧ y.readySeq = s.paddock.seq ∧ y.step = x.step ∧
      y.vars = x.vars) ∧ (s.yieldTask tid i).paddock.seq = (s.paddock.seq + 1) % 2 ^ 64 ∧ (s.yieldTask tid i).mem = s.mem := by
  set u : State := ({ s with paddock := { s.paddock with seq := (s.paddock.seq + 1) % 2 ^ 64 } } : State).upTask tid
    (fun t => { t with state := 1, readySeq := s.paddock.seq, slot := 0xFF }) with hu
  have hrun : s.yieldTask tid i = (u.coreFree i).replace tid := by
    unfold State.yieldTask State.leaveCore
    simp only [hx, Option.bind_some, hab]
    rfl
  have hux : u.task tid = some { x with state := 1, readySeq := s.paddock.seq, slot := 0xFF } := task_upTask_same _ hx
  set v := u.upFslot i (fun f => { f with run := none, hold := false }) with hv
  have hvbuf : (v.fslot i).buf ≠ some tid := by
    rw [hv, upFslot_fslot]
    split <;> exact hbuf
  have htake : (∃ y, (v.coreTake i).task tid = some y ∧ Moved { x with state := 1, readySeq := s.paddock.seq, slot := 0xFF } y) ∧
      (v.coreTake i).paddock.seq = u.paddock.seq ∧ (v.coreTake i).mem = u.mem := by
    unfold State.coreTake
    dsimp only
    split
    next t _ hb =>
      split
      · have hp := placed_refillSlot ((v.upFslot i (fun f => { f with run := some t, buf := none, fetched := false, hold := false })).upTask t
          (fun t => { t with state := 3, slot := i, quantum := 0 })) i
        obtain ⟨hmem, -, -, -, -, hseq⟩ := hp.frame
        have hne : tid ≠ t := fun h => hvbuf (h ▸ hb)
        exact ⟨hp.task ((task_upTask_ne _ hne).trans hux), hseq, hmem⟩
      · exact ⟨⟨_, hux, .refl _⟩, rfl, rfl⟩
    next => exact ⟨⟨_, hux, .refl _⟩, rfl, rfl⟩
  obtain ⟨⟨y, hy, hmoved⟩, hseq, hmem⟩ := htake
  have hp := (placed_refillSlot (v.coreTake i) i).trans (placed_replace (u.coreFree i) tid)
  obtain ⟨z, hz, hyz⟩ := hp.task hy
  obtain ⟨a, b, rfl, hst⟩ := hmoved.trans hyz
  obtain ⟨pmem, -, -, -, -, pseq⟩ := hp.frame
  rw [hrun]
  exact ⟨⟨_, hz, hst (.inl rfl), rfl, rfl, rfl⟩, pseq.trans hseq, pmem.trans hmem⟩

/-- A timer that ends a wait: of a DELAY with its flag, of any other step with a timeout. -/
theorem timerFires_wakes (hx : s.task tid = some x) (h4 : x.state = 4) (hw : x.wakeT ≠ 0) (hdelay : x.wkind = 4 → x.wmask = 0x100) :
    (∃ y, (s.timerFires tid).task tid = some y ∧ (y.state = 1 ∨ y.state = 2) ∧ y.wakeT = 0 ∧ y.wmask = 0 ∧
      y.timedOut = decide (x.wkind ≠ 4) ∧ y.flags = (if x.wkind = 4 then x.flags ||| 0x100 else x.flags) ∧ y.wakeFlags = y.flags ∧
      y.step = x.step ∧ y.vars = x.vars) ∧ (s.timerFires tid).mem = s.mem := by
  have hwaits : ¬ (decide (x.state ≠ 4) || decide (x.wakeT = 0)) = true := by simp [h4, hw]
  by_cases hk : x.wkind = 4
  · have hrun : s.timerFires tid = s.setFlags tid 0x100 := by
      unfold State.timerFires
      simp only [hx]
      exact (if_neg hwaits).trans (if_pos hk)
    have hholds : ({ x with flags := x.flags ||| 0x100 } : Task).waitHolds = true := by
      unfold Task.waitHolds
      have hand : (x.flags ||| 0x100) &&& 0x100 = 0x100 := by
        rw [Nat.and_comm, Nat.and_or_distrib_left, Nat.and_self]
        exact Nat.eq_of_testBit_eq fun j => by simp; tauto
      simp [hdelay hk, hand]
    obtain ⟨⟨y, hy, hst, -, hwf, hfl, hto, hwm, hwt, hstep, hvars⟩, -, hmem, -⟩ :=
      wake_facts (task_upTask_same (fun _ : Task => { x with flags := x.flags ||| 0x100 }) hx) false
    rw [hrun, setFlags_wakes 0x100 hx h4 hholds]
    exact ⟨⟨y, hy, hst, hwt, hwm, by rw [hto]; simp [hk], by rw [hfl, if_pos hk], hwf, hstep, hvars⟩, hmem⟩
  · have hrun : s.timerFires tid = (s.unqueueLocks (fun w => w == .task tid)).wake tid true := by
      unfold State.timerFires
      simp only [hx]
      exact (if_neg hwaits).trans (if_neg hk)
    obtain ⟨⟨y, hy, hst, -, hwf, hfl, hto, hwm, hwt, hstep, hvars⟩, -, hmem, -⟩ :=
      wake_facts (s := s.unqueueLocks (fun w => w == .task tid)) hx true
    rw [hrun]
    exact ⟨⟨y, hy, hst, hwt, hwm, by rw [hto]; simp [hk], by rw [hfl, if_neg hk], hwf, hstep, hvars⟩, hmem⟩

end

/-! ### Retries (R422) -/

/-- An operation that is not refused has started. -/
theorem opStart_starts {s u : State} {tid : Nat} {x : Task} {st : List Byte} (h : Safety.starts s u tid x st) :
    s.opStart tid x st = (u, none) := by
  unfold State.opStart
  rcases h with ⟨hop, h⟩ | ⟨hop, hown, h0, rfl⟩ | ⟨hop, hown, h0, rfl⟩ | ⟨hop, habs, hbl, h0, rfl⟩ | ⟨hop, habs, hbl, h0, rfl⟩
  · simp only [hop, h]
  · simp only [hop, hown, h0, Bool.not_true, Bool.false_eq_true, if_false, if_true]
  · simp only [hop, hown, h0, Bool.not_true, Bool.false_eq_true, if_false, if_true]
  · simp [hop, habs, hbl, h0]
  · simp [hop, habs, hbl, h0]

/-- An attempt that starts is all that its reissue does. -/
theorem reissue_starts {s v : State} {tid k : Nat} {x : Task} (hx : s.task tid = some x) (hk : k ≠ 0)
    (h : Safety.starts (s.upTask tid (fun t => { t with ops := t.ops.modify k (fun o => { o with
      retryAt := none, attempts := o.attempts + 1 }) })) v tid x (x.ops.getD k {}).step) : s.reissue tid k = v := by
  have hstep : ((x.ops.modify k (fun o => { o with retryAt := none, attempts := o.attempts + 1 })).getD k {}).step =
      (x.ops.getD k {}).step := by
    by_cases hlen : k < x.ops.length
    · rw [getD_modify_same _ _ _ _ hlen]
    · rw [List.getD_eq_default _ _ (by simpa using hlen), List.getD_eq_default _ _ (by simpa using hlen)]
  unfold State.reissue
  simp only [hx, task_upTask_same _ hx, Option.getD_some, if_neg hk, hstep, opStart_starts h]

/-! ### Ports (R425-R427) -/

/-- The frames that leave change nothing but what is sent, their port's chip select, and the counts of relays. -/
theorem peSend_eq (s : State) (n : Nat) (fs : List (List Byte)) : ∃ (o : List Out) (c : PePort → Bool) (g : List (Nat × W64)) (l : Life),
    s.peSend n fs = { (s.upPe n (fun p => { p with cs := c p })) with out := o, regs := g, life := l } := by
  have hsend : ∀ (l : List (List Byte)) (div : Nat) (u : State), ∃ o,
      l.foldl (fun s f => s.emit (.peFrame n (fld f 0 4) (fld f 4 1) (frameGap div f) (frameHold f))) u = { u with out := o } := by
    intro l div
    induction l with
    | nil => exact fun u => ⟨_, rfl⟩
    | cons f r ih => exact fun u => ih _
  obtain ⟨o, ho⟩ := hsend fs (s.rf F.CL_PE_CFG_DIV [n]) s
  unfold State.peSend
  dsimp only
  rw [ho]
  exact ⟨_, fun p => (fs.getLast?.map frameHold).getD p.cs, _, _, rfl⟩

/-- A port that has sent its list. -/
theorem peListDone_sent {s : State} {n : Nat} {i : PeItem} {rest : List PeItem} {fs : List (List Byte)} (bits : List Nat)
    (hq : (s.pePort n).queue = i :: rest) (hb : (s.pePort n).busy = true)
    (hfs : fs = i.upto.elim (s.peFrames i.list) (fun k => (s.peFrames i.list).take k)) {u : State}
    (hu : u = ((s.peSend n fs).upPe n (fun p => { p with queue := rest, busy := false })).peRoom n) :
    (i.user = .orphan → doPeListDone n bits s = u) ∧
      (∀ tid, i.user = .power tid → doPeListDone n bits s = u.powerListDone tid n i.st) ∧
      (∀ a b r, i.user = .calib a b r → doPeListDone n bits s = u.calListDone a b i.st r) ∧
      (∀ tid, i.user = .setPe tid → doPeListDone n bits s = (u.upPeOp tid (fun o => { o with
        left := o.left.filter (· ≠ n), st := max o.st i.st, frames := if o.lowest = n then fs.length else o.frames,
        reads := if o.lowest = n then readWords fs bits else o.reads })).settlePe tid) := by
  subst hu hfs
  refine ⟨fun h => ?_, fun tid h => ?_, fun a b r h => ?_, fun tid h => ?_⟩ <;>
  · unfold doPeListDone
    cases hupto : i.upto <;> simp only [hq, hb, Bool.not_true, Bool.false_eq_true, if_false, h, hupto, Option.elim]

/-- A port that no list waits for. -/
theorem peRoom_none {s : State} (n : Nat) (h : s.paddock.peWaits = []) : s.peRoom n = s := by
  unfold State.peRoom
  rw [h]
  rfl

/-- Settles O43, by what a happening does to its slot, task, port or sequence. -/
theorem paddockHappenings : Obligations.PaddockHappenings := by
  refine ⟨fun s i hp => congrArg Host.Outcome.next (if_pos (by simp [hp])), fun s i tid hbuf hf hup hp hi hshape => ?_,
    fun s tid x hx h3 hup hq => ?_, fun s tid t0 x hx h4 hw hdue hlull hdelay => ?_, fun s tid t0 k x due hx hdue hne => ?_,
    fun s n bits i rest u fs hq hb hn hshape hfs hu => ?_, fun s tid t0 p hp hphase hend => ?_⟩
  · set u := s.upFslot i (fun f => { f with fetched := true, hold := false }) with hu
    have hlen : i < s.paddock.slots.length := by rw [hshape.2.2.2.2.2.2.2.2.2.2.2.2.1]; exact hi
    have hui : u.fslot i = { s.fslot i with fetched := true, hold := false } := upFslot_fslot_same _ _ _ hlen
    have hrun := contextFetchDone_notes hbuf hf hup hp
    refine ⟨fun hr => ?_, fun hr hh => ?_, fun hr hh => ?_⟩
    · have hidle : (u.fslot i).run = none := by rw [hui]; exact hr
      have htake := coreTake_takes hidle (by rw [hui]; exact hbuf) (by rw [hui]) ((slotUp_upFslot s i (fun f => { f with fetched := true, hold := false })
        (fun _ => ⟨rfl, rfl, rfl⟩)).trans hup) hp
      have hlen' : i < u.paddock.slots.length := by
        show i < (s.paddock.slots.modify i _).length
        rw [List.length_modify]
        exact hlen
      have hvi := upFslot_fslot_same u i (fun f => { f with run := some tid, buf := none, fetched := false, hold := false }) hlen'
      refine ⟨_, _, congrArg Host.Outcome.next ((hrun.trans (if_pos (by rw [hr]; rfl))).trans htake), rfl, congrArg FSlot.run hvi,
        congrArg FSlot.buf hvi, fun x hx => task_upTask_same _ hx, fun j hj => ?_, rfl, rfl⟩
      exact (upFslot_fslot_ne u _ hj).trans (upFslot_fslot_ne s _ hj)
    · refine ⟨_, congrArg Host.Outcome.next ((hrun.trans (if_neg ?_)).trans (if_neg (by rw [hh]; decide))), hui,
        fun j hj => upFslot_fslot_ne s _ hj, rfl, rfl, rfl⟩
      simpa using hr
    · refine ⟨_, u, congrArg Host.Outcome.next ((hrun.trans (if_neg ?_)).trans (if_pos hh)), rfl, hui, rfl⟩
      simpa using hr
  · have hrun : doQuantumExpiry tid s = s.yieldTask tid x.slot := by
      unfold doQuantumExpiry
      simp only [hx, h3, hup, hq, decide_true, Bool.and_self, if_true]
    refine ⟨fun a q hab => congrArg Host.Outcome.next (hrun.trans ?_), fun hab hbuf => ?_⟩
    · unfold State.yieldTask State.leaveCore
      simp only [hx, Option.bind_some, hab]
    · obtain ⟨⟨y, hy, hst, hseq, hstep, hvars⟩, hpseq, hmem⟩ := yieldTask_ready hx hab hbuf
      exact ⟨_, y, congrArg Host.Outcome.next hrun, rfl, hy, hst, hseq, hstep, hvars, hpseq, hmem⟩
  · have hrun : doTaskTimerExpiry tid t0 s = (s.at t0).timerFires tid := by
      have hlate : ¬ t0 < x.wakeT := by omega
      unfold doTaskTimerExpiry
      simp [hx, h4, hw, hlate, hlull]
    obtain ⟨⟨y, hy⟩, hmem⟩ := timerFires_wakes (s := s.at t0) hx h4 hw hdelay
    obtain ⟨hy, hst, hwt, hwm, hto, hfl, hwf, hstep, hvars⟩ := hy
    exact ⟨_, y, congrArg Host.Outcome.next hrun, rfl, hy, hst, hwt, hwm, hto, hfl, hwf, hstep, hvars, hmem⟩
  · have hrun : doRetryGapExpiry tid t0 s = due.foldl (fun s k => s.reissue tid k) (s.at t0) := by
      unfold doRetryGapExpiry
      simp only [hx]
      rw [← hdue]
      exact if_neg (by simpa using hne)
    refine ⟨⟨_, congrArg Host.Outcome.next hrun, rfl⟩, fun u v hone hk hu hstarts => congrArg Host.Outcome.next ?_⟩
    subst hu
    rw [hrun, hone]
    exact reissue_starts (s := s.at t0) hx hk hstarts
  · obtain ⟨horphan, hpower, hcalib, hset⟩ := peListDone_sent bits hq hb hfs hu
    refine ⟨fun h => ⟨_, congrArg Host.Outcome.next (horphan h), rfl, fun hw => ?_⟩, fun tid h => congrArg Host.Outcome.next (hpower tid h),
      fun a b r h => congrArg Host.Outcome.next (hcalib a b r h), fun tid h => congrArg Host.Outcome.next (hset tid h)⟩
    obtain ⟨o, c, g, l, hsend⟩ := peSend_eq s n fs
    have hlen : n < s.pe.length := by rw [hshape.2.2.2.2.2.1]; exact hn
    have hlen' : n < (s.upPe n (fun p => { p with cs := c p })).pe.length := by
      show n < (s.pe.modify n _).length
      rw [List.length_modify]
      exact hlen
    have hroom : u = (s.peSend n fs).upPe n (fun p => { p with queue := rest, busy := false }) := by
      rw [hu, hsend]
      exact peRoom_none n hw
    rw [hroom, hsend]
    have hport := upPe_pePort_same (s.upPe n (fun p => { p with cs := c p })) n (fun p => { p with queue := rest, busy := false }) hlen'
    exact ⟨congrArg PePort.queue hport, congrArg PePort.busy hport,
      fun m hm => (upPe_pePort_ne (s.upPe n (fun p => { p with cs := c p })) _ hm).trans (upPe_pePort_ne s _ hm), rfl, rfl⟩
  · have hrun : doPowerDutSettleEnd tid t0 s = (s.at t0).powerSettled tid p := by
      unfold doPowerDutSettleEnd
      simp only [hp, hphase, hend, decide_true, Bool.and_self, if_true]
    refine ⟨fun h => congrArg Host.Outcome.next (hrun.trans (if_pos h)),
      fun h hoff hl => congrArg Host.Outcome.next (hrun.trans ((if_neg (not_not.2 h)).trans ((if_neg (by rw [hoff]; decide)).trans (if_pos hl)))),
      fun h hoff hl => congrArg Host.Outcome.next (hrun.trans ((if_neg (not_not.2 h)).trans ((if_neg (by rw [hoff]; decide)).trans (if_neg hl)))),
      fun a h hon ha => congrArg Host.Outcome.next (hrun.trans ((if_neg (not_not.2 h)).trans ((if_pos hon).trans ?_)))⟩
    rw [ha]
    rfl

end Sys2Proof.Machine
end

