-- ==== Sys2Proof/Proofs/Intervals.lean ====
section
namespace Sys2Proof.Machine

/-! SUPPORT. Interval meters (R377-R394): what a completion leaves in the register file, how a meter takes an edge, and how a measurement ends. -/

/-! ### Registers that no completion touches -/

/-- A register that is none of a ring's CFG, STAT and COUNT, by its place in their stride, nor HOST_ERR or HOST_EVT_DROPPED. -/
def OffRings (o : Nat) : Prop :=
  o % 64 ≠ 8 ∧ o % 64 ≠ 24 ∧ o % 64 ≠ 48 ∧ o ≠ F.HOST_ERR_RING.off [] ∧ o ≠ F.HOST_EVT_DROPPED_COUNT.off []

section
variable {o : Nat} (h : OffRings o)
include h

theorem ringCfg_off_ne (k : Nat) : o ≠ F.RINGK_CFG_EN.off [k] := by
  have : F.RINGK_CFG_EN.off [k] = 0x4008 + (64 * k + 0) := rfl
  have := h.1
  omega

theorem ringStat_off_ne (k : Nat) : o ≠ F.RINGK_STAT_ERR.off [k] := by
  have : F.RINGK_STAT_ERR.off [k] = 0x4018 + (64 * k + 0) := rfl
  have := h.2.1
  omega

theorem ringCount_off_ne (k : Nat) : o ≠ F.RING_COUNT_ENTRIES.off [k] := by
  have : F.RING_COUNT_ENTRIES.off [k] = 0x4030 + (64 * k + 0) := rfl
  have := h.2.2.1
  omega

theorem Notes.reg_off {s t : State} (n : Notes s t) : t.reg o = s.reg o := n.reg o h.2.2.2.1 h.2.2.2.2

theorem ringError_reg (s : State) (k c : Nat) : (s.ringError k c).reg o = s.reg o := by
  have hne : o ≠ F.RINGK_STAT_CAUSE.off [k] := ringStat_off_ne h k
  have h1 : (s.setRf F.RINGK_STAT_ERR [k] 1).reg o = s.reg o := reg_setRf_ne s _ _ _ (ringStat_off_ne h k)
  have h2 : ((s.setRf F.RINGK_STAT_ERR [k] 1).setRf F.RINGK_STAT_CAUSE [k] c).reg o = (s.setRf F.RINGK_STAT_ERR [k] 1).reg o :=
    reg_setRf_ne _ _ _ _ hne
  unfold State.ringError
  exact ((notes_queueEvent _ _).reg_off h).trans (((notes_hostErr _ _ _).reg_off h).trans (h2.trans h1))

theorem ringWrite_reg (s : State) (k : Nat) (bs : List Byte) (p : Nat) (irq : Bool) : (s.ringWrite k bs p irq).reg o = s.reg o := by
  have hcount (u : State) : (u.incRf F.RING_COUNT_ENTRIES [k]).reg o = u.reg o := reg_setRf_ne u _ _ _ (ringCount_off_ne h k)
  have hmsg (u : State) (c : Bool) : (if c then (u.incRf F.RING_COUNT_ENTRIES [k]).ringMsg k else u.incRf F.RING_COUNT_ENTRIES [k]).reg o =
      u.reg o := by
    cases c with
    | true => exact ((notes_msi _ _).reg_off h).trans (hcount u)
    | false => exact hcount u
  exact hmsg _ _

theorem closeRing_reg (s : State) (k : Nat) : (s.closeRing k).reg o = s.reg o := by
  unfold State.closeRing
  split
  · exact reg_setRf_ne _ _ _ _ (ringCfg_off_ne h k)
  · rfl

theorem complete_reg (s : State) (sq idx : Nat) (r : Result) : (s.complete sq idx r).reg o = s.reg o := by
  have hblock (u : State) (a : Nat) (b : List Byte) : (u.hostWrite sq a b).1.reg o = u.reg o := by
    unfold State.hostWrite
    split
    · rfl
    · exact (notes_hostErr u 3 (some sq)).reg_off h
  have hentry (u : State) (c : Nat) (bs : List Byte) (q : Bool) (hu : u.reg o = s.reg o) :
      (((if !(u.dropDesc sq idx).ringOn c || (u.dropDesc sq idx).ringErr c then u.dropDesc sq idx
        else if !(u.dropDesc sq idx).host.pci.busMaster then (u.dropDesc sq idx).ringError c 3
        else (u.dropDesc sq idx).ringWrite c bs 9 q : State).closeRing c).noteMet).reg o = s.reg o := by
    refine (reg_congr (noteMet_regs _) o).trans ((closeRing_reg h _ _).trans ?_)
    split
    · exact hu
    · split
      · exact (ringError_reg h _ _ _).trans hu
      · exact (ringWrite_reg h _ _ _ _ _).trans hu
  unfold State.complete
  split
  · rfl
  · dsimp only
    split
    · exact hentry _ _ _ _ rfl
    · exact hentry _ _ _ _ (hblock _ _ _)

theorem complete_rf {f : RF} {i : List Nat} (hf : f.off i = o) (s : State) (sq idx : Nat) (r : Result) :
    (s.complete sq idx r).rf f i = s.rf f i := by
  unfold State.rf
  rw [hf, complete_reg h]

end

/-! ### The registers of a meter (R377, R388) -/

theorem imtrRes_off (k : Nat) : F.CL_IMTR_RES_RESULT.off (mIdx k) = 0x10a10 + (65536 * (k / 4) + (64 * (k % 4) + 0)) := rfl
theorem imtrCount_off (k : Nat) : F.CL_IMTR_COUNT_DONE.off (mIdx k) = 0x10a28 + (65536 * (k / 4) + (64 * (k % 4) + 0)) := rfl

theorem imtrRes_offRings (k : Nat) : OffRings (F.CL_IMTR_RES_RESULT.off (mIdx k)) := by
  have he : F.HOST_ERR_RING.off [] < 0x10a10 := by decide
  have hd : F.HOST_EVT_DROPPED_COUNT.off [] < 0x10a10 := by decide
  rw [imtrRes_off]
  refine ⟨?_, ?_, ?_, ?_, ?_⟩ <;> omega

theorem imtrCount_offRings (k : Nat) : OffRings (F.CL_IMTR_COUNT_DONE.off (mIdx k)) := by
  have he : F.HOST_ERR_RING.off [] < 0x10a10 := by decide
  have hd : F.HOST_EVT_DROPPED_COUNT.off [] < 0x10a10 := by decide
  rw [imtrCount_off]
  refine ⟨?_, ?_, ?_, ?_, ?_⟩ <;> omega

/-- The registers in which a measurement leaves its result. -/
def State.measured (s : State) (k word st pt sf pf : Nat) : State :=
  ((((s.setRf F.CL_IMTR_RES_RESULT (mIdx k) word).setRf F.CL_IMTR_TSTART_START_T (mIdx k) st).setRf F.CL_IMTR_TSTOP_STOP_T (mIdx k)
    pt).setRf F.CL_IMTR_STAT_START_FRAC (mIdx k) sf).setRf F.CL_IMTR_STAT_STOP_FRAC (mIdx k) pf

/-- The counters of a meter once a measurement has ended with a status and a qualifier mask (R394). -/
def State.measCounted (s : State) (k status qual : Nat) : State :=
  if withQual status qual = St.ok then s.incRf F.CL_IMTR_COUNT_DONE (mIdx k)
  else if status = St.timeout then s.incRf F.CL_IMTR_COUNT_TIMEOUTS (mIdx k) else s

/-- The qualifier mask of a measurement that ends at DTIME t: a supply dip. -/
def State.measQual (s : State) (k t : Nat) : Nat :=
  if (s.meter k).dip || (decide ((s.meter k).state ≥ 2) && s.dipAt t) then 8 else 0

theorem measured_res (s : State) (k word st pt sf pf : Nat) (h : word < 2 ^ 64) :
    (s.measured k word st pt sf pf).rf F.CL_IMTR_RES_RESULT (mIdx k) = word := by
  have hne (f : RF) (h : f.off (mIdx k) ≠ F.CL_IMTR_RES_RESULT.off (mIdx k)) (u : State) (v : Nat) :
      (u.setRf f (mIdx k) v).rf F.CL_IMTR_RES_RESULT (mIdx k) = u.rf F.CL_IMTR_RES_RESULT (mIdx k) := rf_setRf_ne _ _ _ _ _ _ h.symm
  have hoff (b : Nat) (hb : b ≠ 0x10a10) : b + (65536 * (k / 4) + (64 * (k % 4) + 0)) ≠ F.CL_IMTR_RES_RESULT.off (mIdx k) := by
    rw [imtrRes_off]
    omega
  unfold State.measured
  rw [hne _ (hoff _ (by decide)), hne _ (hoff _ (by decide)), hne _ (hoff _ (by decide)), hne _ (hoff _ (by decide)),
    rf_setRf_same _ _ _ _ (by decide)]
  exact Nat.mod_eq_of_lt h

theorem measured_count (s : State) (k word st pt sf pf : Nat) {f : RF} (hf : f.off (mIdx k) = F.CL_IMTR_COUNT_DONE.off (mIdx k)) :
    (s.measured k word st pt sf pf).rf f (mIdx k) = s.rf f (mIdx k) := by
  have hoff (g : RF) (b : Nat) (hg : g.off (mIdx k) = b + (65536 * (k / 4) + (64 * (k % 4) + 0))) (hb : b ≠ 0x10a28) (u : State) (v : Nat) :
      (u.setRf g (mIdx k) v).rf f (mIdx k) = u.rf f (mIdx k) := by
    refine rf_setRf_ne _ _ _ _ _ _ ?_
    rw [hf, hg, imtrCount_off]
    omega
  unfold State.measured
  rw [hoff _ 0x10a08 rfl (by decide), hoff _ 0x10a08 rfl (by decide), hoff _ 0x10a20 rfl (by decide), hoff _ 0x10a18 rfl (by decide),
    hoff _ 0x10a10 rfl (by decide)]

theorem measCounted_res (s : State) (k status qual : Nat) :
    (s.measCounted k status qual).rf F.CL_IMTR_RES_RESULT (mIdx k) = s.rf F.CL_IMTR_RES_RESULT (mIdx k) := by
  have hne : F.CL_IMTR_RES_RESULT.off (mIdx k) ≠ F.CL_IMTR_COUNT_DONE.off (mIdx k) := by
    rw [imtrRes_off, imtrCount_off]
    omega
  unfold State.measCounted
  split
  · exact rf_setRf_ne _ _ _ _ _ _ hne
  · split
    · exact rf_setRf_ne _ _ _ _ _ _ hne
    · rfl

theorem measCounted_counts (s : State) (k status qual : Nat) :
    (s.measCounted k status qual).rf F.CL_IMTR_COUNT_DONE (mIdx k) =
        (if withQual status qual = St.ok then satAdd F.CL_IMTR_COUNT_DONE.w (s.rf F.CL_IMTR_COUNT_DONE (mIdx k)) 1
          else s.rf F.CL_IMTR_COUNT_DONE (mIdx k)) ∧
      (s.measCounted k status qual).rf F.CL_IMTR_COUNT_TIMEOUTS (mIdx k) =
        (if withQual status qual ≠ St.ok ∧ status = St.timeout then
          satAdd F.CL_IMTR_COUNT_TIMEOUTS.w (s.rf F.CL_IMTR_COUNT_TIMEOUTS (mIdx k)) 1 else s.rf F.CL_IMTR_COUNT_TIMEOUTS (mIdx k)) := by
  unfold State.measCounted
  by_cases h : withQual status qual = St.ok
  · rw [if_pos h, if_pos h, if_neg (fun g => g.1 h)]
    exact ⟨rf_incRf_same _ _ _ _ (by decide), rf_setRf_disjoint _ F.CL_IMTR_COUNT_DONE F.CL_IMTR_COUNT_TIMEOUTS _ _ _ rfl (by decide) (by decide)⟩
  · by_cases ht : status = St.timeout
    · rw [if_neg h, if_pos ht, if_neg h, if_pos ⟨h, ht⟩]
      exact ⟨rf_setRf_disjoint _ F.CL_IMTR_COUNT_TIMEOUTS F.CL_IMTR_COUNT_DONE _ _ _ rfl (by decide) (by decide), rf_incRf_same _ _ _ _ (by decide)⟩
    · rw [if_neg h, if_neg ht, if_neg h, if_neg (fun g => ht g.2)]
      exact ⟨rfl, rfl⟩

theorem measCounted_keeps (s : State) (k status qual : Nat) :
    (s.measCounted k status qual).meters = s.meters ∧ (s.measCounted k status qual).mem = s.mem ∧
      (s.measCounted k status qual).dtime = s.dtime := by
  unfold State.measCounted
  split
  · exact ⟨rfl, rfl, rfl⟩
  · split <;> exact ⟨rfl, rfl, rfl⟩

theorem resultWord_lt (q : Option Int) (a b c : Bool) : resultWord q a b c < 2 ^ 64 := by
  have hs (i : Int) : ofSigned 47 i < 2 ^ 47 := by
    have h0 := Int.emod_nonneg i (b := ((2 ^ 47 : Nat) : Int)) (by decide)
    have h1 := Int.emod_lt_of_pos i (b := ((2 ^ 47 : Nat) : Int)) (by decide)
    unfold ofSigned
    omega
  have hb (x : Bool) : b2n x ≤ 1 := by cases x <;> decide
  have ha := hb a
  have hbb := hb b
  have hc := hb c
  unfold resultWord
  cases q with
  | none => simp only; omega
  | some i =>
    have := hs (if i.natAbs < 16 then 0 else roundDiv i 16)
    simp only
    generalize ofSigned 47 (if i.natAbs < 16 then 0 else roundDiv i 16) = g at this ⊢
    split <;> split <;> omega

/-! ### The end of a measurement (R388, R390, R394) -/

section
variable {s : State} {k sq idx : Nat}

theorem endMeas_completes (ho : (s.meter k).owner = .desc sq idx) (status : Nat) (q : Option Int) (timeout ovf : Bool) (now : Nat) :
    ∃ st pt sf pf r, s.endMeas k status q timeout ovf now =
      ((((s.measured k (resultWord q timeout ovf (s.meter k).first.isNone) st pt sf pf).measCounted k status (s.measQual k now)).upMeter k
        (fun m => { m with state := 0, owner := .nobody, dip := false })).complete sq idx r) := by
  unfold State.endMeas
  dsimp only
  rw [ho]
  exact ⟨_, _, _, _, _, rfl⟩

/-- What is left of a measurement that a descriptor began. -/
theorem endMeas_ends (hk : k < s.meters.length) (ho : (s.meter k).owner = .desc sq idx) (status : Nat) (q : Option Int)
    (timeout ovf : Bool) (now : Nat) {t : State} (ht : t = s.endMeas k status q timeout ovf now) :
    (t.meter k).state = 0 ∧ (∀ j, j ≠ k → t.meter j = s.meter j) ∧ t.desc sq idx = none ∧ t.mem = s.mem ∧ t.dtime = s.dtime ∧
      t.rf F.CL_IMTR_RES_RESULT (mIdx k) = resultWord q timeout ovf (s.meter k).first.isNone ∧
      t.rf F.CL_IMTR_COUNT_DONE (mIdx k) = (if withQual status (s.measQual k now) = St.ok then
        satAdd F.CL_IMTR_COUNT_DONE.w (s.rf F.CL_IMTR_COUNT_DONE (mIdx k)) 1 else s.rf F.CL_IMTR_COUNT_DONE (mIdx k)) ∧
      t.rf F.CL_IMTR_COUNT_TIMEOUTS (mIdx k) = (if withQual status (s.measQual k now) ≠ St.ok ∧ status = St.timeout then
        satAdd F.CL_IMTR_COUNT_TIMEOUTS.w (s.rf F.CL_IMTR_COUNT_TIMEOUTS (mIdx k)) 1 else s.rf F.CL_IMTR_COUNT_TIMEOUTS (mIdx k)) := by
  obtain ⟨st, pt, sf, pf, r, hrun⟩ := endMeas_completes ho status q timeout ovf now
  set u := s.measured k (resultWord q timeout ovf (s.meter k).first.isNone) st pt sf pf with hu
  set v := u.measCounted k status (s.measQual k now) with hv
  have hsend := sends_complete (v.upMeter k (fun m => { m with state := 0, owner := .nobody, dip := false })) sq idx r
  obtain ⟨hmeters, hmem, hdtime⟩ := measCounted_keeps u k status (s.measQual k now)
  obtain ⟨hdone, htimeouts⟩ := measCounted_counts u k status (s.measQual k now)
  have hmeter (j : Nat) : v.meter j = s.meter j := by
    unfold State.meter
    rw [hmeters]
    rfl
  have hk' : k < v.meters.length := by rw [hmeters]; exact hk
  have hmt (j : Nat) : t.meter j = (v.upMeter k (fun m => { m with state := 0, owner := .nobody, dip := false })).meter j := by
    rw [ht, hrun]
    unfold State.meter
    rw [hsend.meters]
  have hcount {f : RF} (hf : f.off (mIdx k) = F.CL_IMTR_COUNT_DONE.off (mIdx k)) : t.rf f (mIdx k) = v.rf f (mIdx k) := by
    rw [ht, hrun]
    exact complete_rf (imtrCount_offRings k) hf _ _ _ _
  have hsame {f : RF} (hf : f.off (mIdx k) = F.CL_IMTR_COUNT_DONE.off (mIdx k)) : u.rf f (mIdx k) = s.rf f (mIdx k) :=
    measured_count _ _ _ _ _ _ _ hf
  refine ⟨?_, fun j hj => ?_, by rw [ht, hrun]; exact complete_desc _ _ _ _, by rw [ht, hrun, hsend.mem]; exact hmem,
    by rw [ht, hrun, hsend.dtime]; exact hdtime, ?_, ?_, ?_⟩
  · rw [hmt, upMeter_meter_same _ _ _ hk']
  · rw [hmt, upMeter_meter_ne _ _ hj, hmeter]
  · rw [ht, hrun]
    refine (complete_rf (imtrRes_offRings k) rfl _ _ _ _).trans ((measCounted_res _ _ _ _).trans ?_)
    exact measured_res _ _ _ _ _ _ _ (resultWord_lt _ _ _ _)
  · rw [hcount rfl, hdone, hsame rfl]
  · rw [hcount (f := F.CL_IMTR_COUNT_TIMEOUTS) rfl, htimeouts, hsame (f := F.CL_IMTR_COUNT_TIMEOUTS) rfl]

end

/-! ### Edges (R379, R383-R387) -/

/-- A meter that has noted an edge of one input. -/
def Meter.heard (m : Meter) (stop : Bool) (t : Nat) : Meter := if stop then { m with lastStop := some t } else { m with lastStart := some t }

/-- The last edge of an input of a meter. -/
def Meter.last (m : Meter) (stop : Bool) : Option Nat := if stop then m.lastStop else m.lastStart

theorem heard_eq (m : Meter) (stop : Bool) (t : Nat) : ∃ a b, m.heard stop t = { m with lastStart := a, lastStop := b } := by
  cases stop
  · exact ⟨_, _, rfl⟩
  · exact ⟨_, _, rfl⟩

section
variable {s : State} {k : Nat} {m : Meter} {e : MEdge} {stop : Bool}

/-- An edge that comes too soon after the last of its input. -/
theorem edgeAt_merged (hm : (s.meter k).state ≠ 0) (h : ((s.meter k).last stop).any (fun l => l ≤ e.time && e.time < l + 2048) = true) :
    s.edgeAt k stop e = (s.upMeter k (fun m => m.heard stop e.time)).setRf F.CL_IMTR_STAT_MERGED (mIdx k) 1 := by
  unfold State.edgeAt
  exact (if_neg hm).trans (if_pos h)

/-- An edge that counts, of an armed meter. -/
theorem edgeAt_counts (hk : k < s.meters.length) (hm : m = s.meter k) (h2 : 2 ≤ m.state)
    (h : (m.last stop).any (fun l => l ≤ e.time && e.time < l + 2048) = false) (harm : 4096 * m.arm ≤ e.time) (hb : e.time < m.bound) :
    s.edgeAt k stop e = (s.upMeter k (fun m => m.heard stop e.time)).takeEdge k stop e := by
  subst hm
  have hs : (s.upMeter k (fun m => m.heard stop e.time)).meter k = (s.meter k).heard stop e.time := upMeter_meter_same _ _ _ hk
  obtain ⟨a, b, hab⟩ := heard_eq (s.meter k) stop e.time
  have h0 : ¬ (s.meter k).state = 0 := by omega
  have h1 : ¬ (s.meter k).state = 1 := by omega
  have harm' : ¬ e.time < 4096 * (s.meter k).arm := by omega
  have hb' : ¬ (s.meter k).bound ≤ e.time := by omega
  have hnot : ¬ (decide ((s.meter k).state = 1) && !mcWithBurst (s.meter k).cfg && decide (4096 * mcArmAt (s.meter k).cfg ≤ e.time)) = true := by
    simp [h1]
  have hin : ¬ (decide (((s.upMeter k (fun m => m.heard stop e.time)).meter k).state = 1) ||
      decide (e.time < 4096 * ((s.upMeter k (fun m => m.heard stop e.time)).meter k).arm) ||
      decide (((s.upMeter k (fun m => m.heard stop e.time)).meter k).bound ≤ e.time)) = true := by
    rw [hs, hab]
    have hbb : ({ s.meter k with lastStart := a, lastStop := b } : Meter).bound = (s.meter k).bound := rfl
    rw [hbb]
    simp [h1, harm', hb']
  unfold State.edgeAt
  refine (if_neg h0).trans ((if_neg fun hc => Bool.false_ne_true (h.symm.trans hc)).trans ?_)
  dsimp only
  rw [if_neg hnot]
  exact if_neg hin

end

end Sys2Proof.Machine
end

