-- ==== Sys2Proof/Proofs/IntervalEnds.lean ====
section
namespace Sys2Proof.Machine

/-! ### Fields of a byte string -/

theorem leNat_lt (l : List Byte) : leNat l < 256 ^ l.length := by
  induction l with
  | nil => decide
  | cons b r ih =>
    have hb : b.toNat < 256 := b.isLt
    show b.toNat + 256 * leNat r < 256 ^ (r.length + 1)
    rw [Nat.pow_succ]
    omega

/-- A field of n bytes is below 256^n. -/
theorem fld_lt (l : List Byte) (o n : Nat) : fld l o n < 256 ^ n :=
  Nat.lt_of_lt_of_le (leNat_lt _) (Nat.pow_le_pow_right (by decide) (by rw [slice_length]; omega))

/-! ### A measurement set up (R377, R381, R382) -/

/-- A measurement that no check refuses names a meter of the chip. -/
theorem measRefusal_meter {s : State} {c : List Byte} {form : Bool} (h : s.measRefusal c form = 0) :
    4 * mcCluster c + mcMeter c < 48 ∧ mcMeter c < 4 := by
  have habs : ¬ (decide (s.nCl ≤ mcCluster c) || decide (s.nMeter ≤ mcMeter c) || s.metersBad.contains (4 * mcCluster c + mcMeter c)) = true := by
    intro hc
    unfold State.measRefusal at h
    dsimp only at h
    rw [if_pos hc] at h
    exact absurd h (by decide)
  simp only [Bool.or_eq_true, decide_eq_true_eq, not_or] at habs
  obtain ⟨⟨hn, hi⟩, -⟩ := habs
  have h12 := nCl_le s
  have h4 : s.nMeter ≤ 4 := by
    unfold State.nMeter
    split <;> decide
  omega

theorem measRefusal_absent {s : State} {c : List Byte} (form : Bool)
    (h : s.nCl ≤ mcCluster c ∨ s.nMeter ≤ mcMeter c ∨ s.metersBad.contains (4 * mcCluster c + mcMeter c) = true) :
    s.measRefusal c form = St.absent := by
  unfold State.measRefusal
  refine if_pos ?_
  rcases h with h | h | h
  · simp [h]
  · simp [h]
  · rw [h, Bool.or_true]

theorem measureInterval_refused {s : State} {sq idx : Nat} {d : Desc} (hd : Safety.ready s sq idx 0x29 d)
    (h : s.measRefusal (slice d.bytes 16 24) (zeroes d.bytes 40 24) ≠ 0) : doMeasureInterval sq idx s =
      s.complete sq idx { status := s.measRefusal (slice d.bytes 16 24) (zeroes d.bytes 40 24),
                          body := noMeasBody (4 * mcCluster (slice d.bytes 16 24) + mcMeter (slice d.bytes 16 24)) } := by
  unfold doMeasureInterval
  rw [withDesc_of_ready hd]
  exact if_pos h

theorem measureInterval_begins {s : State} {sq idx : Nat} {d : Desc} (hd : Safety.ready s sq idx 0x29 d)
    (h : s.measRefusal (slice d.bytes 16 24) (zeroes d.bytes 40 24) = 0) :
    doMeasureInterval sq idx s = (s.begin sq idx).setupMeas (slice d.bytes 16 24) (.desc sq idx) := by
  unfold doMeasureInterval
  rw [withDesc_of_ready hd]
  exact if_neg (not_not.2 h)

/-- A meter that has been handed a measurement: its host, its other meters and its memory are as they were. -/
theorem setupMeas_sets {s : State} {c : List Byte} {k : Nat} (o : Owner) (hk : k = 4 * mcCluster c + mcMeter c) (hlen : k < s.meters.length)
    (hsite : mcSite c < 2 ^ 16) :
    (s.setupMeas c o).meter k = (if mcWithBurst c = true ∨ s.dtime < mcArmAt c then
        { state := 1, cfg := c, owner := o, arm := mcArmAt c, setAt := s.dtime }
        else { state := 2, cfg := c, owner := o, arm := s.dtime, setAt := s.dtime }) ∧
      (∀ j, j ≠ k → (s.setupMeas c o).meter j = s.meter j) ∧ (s.setupMeas c o).mem = s.mem ∧ (s.setupMeas c o).host = s.host ∧
      (s.setupMeas c o).rf F.CL_IMTR_STAT_SITE_ID (mIdx k) = mcSite c := by
  subst hk
  set k := 4 * mcCluster c + mcMeter c with hk
  set u := (s.upMeter k (fun _ => { state := 1, cfg := c, owner := o, arm := mcArmAt c, setAt := s.dtime })).setRf F.CL_IMTR_STAT_SITE_ID (mIdx k)
    (mcSite c) with hu
  have huk : u.meter k = { state := 1, cfg := c, owner := o, arm := mcArmAt c, setAt := s.dtime } := upMeter_meter_same s k _ hlen
  have huj (j : Nat) (hj : j ≠ k) : u.meter j = s.meter j := upMeter_meter_ne s _ hj
  have hrf : u.rf F.CL_IMTR_STAT_SITE_ID (mIdx k) = mcSite c := (rf_setRf_same _ _ _ _ (by decide)).trans (Nat.mod_eq_of_lt hsite)
  by_cases hw : mcWithBurst c = true ∨ s.dtime < mcArmAt c
  · have hrun : s.setupMeas c o = u := if_pos (by simpa using hw)
    rw [hrun, if_pos hw]
    exact ⟨huk, huj, rfl, rfl, hrf⟩
  · have hrun : s.setupMeas c o = u.armMeter k (max (mcArmAt c) s.dtime) := if_neg (by simpa using hw)
    have hmax : max (mcArmAt c) s.dtime = s.dtime := by
      rw [not_or] at hw
      exact Nat.max_eq_right (Nat.not_lt.1 hw.2)
    rw [hrun, if_neg hw, hmax]
    refine ⟨?_, fun j hj => (upMeter_meter_ne u _ hj).trans (huj j hj), rfl, rfl, hrf⟩
    refine (upMeter_meter_same u k _ ?_).trans (by rw [huk])
    show k < (s.meters.modify k _).length
    rw [List.length_modify]
    exact hlen

/-! ### Edges that count (R383, R386, R387) -/

section
variable {s : State} {k : Nat} {m : Meter} {a e : MEdge} {q : Int}

/-- A stop edge whose interval does not count. -/
theorem stopEdge_passed (hm : s.meter k = m) (hq : q = interval (toSigned 16 (s.imcalOf k).offset) a e)
    (h : q < 0 ∨ mcStart m.cfg = mcStop m.cfg ∧ q < 2048) : s.stopEdge k a e = s := by
  subst hm hq
  unfold State.stopEdge
  refine if_pos ?_
  rcases h with h | ⟨h, h'⟩
  · simp [h]
  · simp [h, h']

/-- A stop edge whose interval counts. -/
theorem stopEdge_counts (hm : s.meter k = m) (h0 : m.state ≠ 0) (hq : q = interval (toSigned 16 (s.imcalOf k).offset) a e) (hq0 : 0 ≤ q)
    (hmin : mcStart m.cfg ≠ mcStop m.cfg ∨ 2048 ≤ q) : s.stopEdge k a e =
      if m.stops + 1 = mcStopN m.cfg then
        (s.upMeter k (fun m => { m with stops := satAdd 16 m.stops 1, stopE := some e })).endMeas k St.ok (some q) false false (e.time / 4096)
      else s.upMeter k (fun m => { m with stops := satAdd 16 m.stops 1, stopE := some e }) := by
  subst hm hq
  unfold State.stopEdge
  refine if_neg ?_
  have h1 : ¬ interval (toSigned 16 (s.imcalOf k).offset) a e < 0 := not_lt.2 hq0
  rcases hmin with h | h
  · simp [h0, h1, h]
  · simp [h0, h1, not_lt.2 h]

theorem satAdd_stops {n : Nat} (h : n + 1 ≤ 65535) : satAdd 16 n 1 = n + 1 := if_pos (by omega)

/-- Whether a measurement that ends well counts in DONE. -/
theorem measQual_ok (h2 : 2 ≤ (s.meter k).state) (t : Nat) :
    withQual St.ok (s.measQual k t) = St.ok ↔ ¬ ((s.meter k).dip || s.dipAt t) = true := by
  have hd : decide ((s.meter k).state ≥ 2) = true := decide_eq_true h2
  unfold State.measQual
  rw [hd, Bool.true_and]
  cases (s.meter k).dip || s.dipAt t <;> decide

theorem measQual_timeout (t : Nat) : withQual St.timeout (s.measQual k t) = St.timeout := if_pos (by decide)
theorem measQual_aborted (t : Nat) : withQual St.aborted (s.measQual k t) = St.aborted := if_pos (by decide)

/-- METER_EDGE of a sampled source of a meter at work. -/
theorem meterEdge_heard {n i coarse ph tick time sel : Nat} {stop : Bool} (hk : k = 4 * n + i) (hm : m = s.meter k)
    (hsel : sel = (if stop then mcStop m.cfg else mcStart m.cfg)) (hmark : selMark sel = false)
    (htick : tick = coarse - (if 0x50 ≤ sel then s.rf (F.CL_TRIGIN_DSK_DSK.at (sel % 4)) [n] else 0))
    (htime : time = 1024 * tick + (if stop then (s.imcalOf k).posStop else (s.imcalOf k).posStart).getD ph (16 * ph))
    (he : e = { time := time, sampled := true, tick := tick, phase := ph }) (h0 : m.state ≠ 0) :
    doMeterEdge n i stop coarse ph s = (s.at (time / 4096)).edgeAt k stop e := by
  subst hk hm he htime htick hsel
  cases stop
  · exact if_neg (by simpa [h0] using hmark)
  · exact if_neg (by simpa [h0] using hmark)

end

section
variable {s : State} {k : Nat} {a e b : MEdge}

/-- The first edge on the start input of an unsigned measurement that no stop edge has come before. -/
theorem takeEdge_first (hs : mcSigned (s.meter k).cfg = false) (hf : (s.meter k).first = none) (he : (s.meter k).early = []) :
    s.takeEdge k false e = s.upMeter k (fun m => { m with first := some e, state := 3, early := [] }) := by
  unfold State.takeEdge
  dsimp only
  rw [hs, hf, he]
  rfl

/-- A stop edge before the first edge on the start input. -/
theorem takeEdge_early (hs : mcSigned (s.meter k).cfg = false) (hf : (s.meter k).first = none) :
    s.takeEdge k true e = s.upMeter k (fun m => { m with early := m.early ++ [e] }) := by
  unfold State.takeEdge
  dsimp only
  rw [hs, hf]
  rfl

/-- A stop edge of an unsigned measurement after its first edge. -/
theorem takeEdge_stop (hs : mcSigned (s.meter k).cfg = false) (hf : (s.meter k).first = some a) :
    s.takeEdge k true e = s.stopEdge k a e := by
  unfold State.takeEdge
  dsimp only
  rw [hs, hf]
  rfl

/-- The second edge of a signed measurement, whose first came on the start input. -/
theorem takeEdge_signed_stop (hk : k < s.meters.length) (hs : mcSigned (s.meter k).cfg = true) (hf : (s.meter k).stopE = none)
    (hb : (s.meter k).first = some b) :
    s.takeEdge k true e = (s.upMeter k (fun m => { m with stopE := some e, stops := 1 })).endMeas k St.ok
      (some (interval (toSigned 16 (s.imcalOf k).offset) b e)) false false (max b.time e.time / 4096) := by
  unfold State.takeEdge State.signedPair
  dsimp only
  rw [hs, hf]
  simp only [Option.isNone_none, if_true, upMeter_meter_same _ _ _ hk, hb]
  rfl

/-- The second edge of a signed measurement, whose first came on the stop input. -/
theorem takeEdge_signed_start (hk : k < s.meters.length) (hs : mcSigned (s.meter k).cfg = true) (hf : (s.meter k).first = none)
    (hb : (s.meter k).stopE = some b) :
    s.takeEdge k false e = (s.upMeter k (fun m => { m with first := some e, state := 3 })).endMeas k St.ok
      (some (interval (toSigned 16 (s.imcalOf k).offset) e b)) false false (max e.time b.time / 4096) := by
  unfold State.takeEdge State.signedPair
  dsimp only
  rw [hs, hf]
  simp only [Option.isNone_none, Bool.false_eq_true, if_false, if_true, upMeter_meter_same _ _ _ hk, hb]
  rfl

end

theorem mIdx_cluster (n : Nat) {i : Nat} (h : i < 4) : mIdx (4 * n + i) = [n, i] := by
  unfold mIdx
  rw [Nat.mul_add_div (by decide), Nat.div_eq_of_lt h, Nat.mul_add_mod, Nat.mod_eq_of_lt h, Nat.add_zero]

theorem stopMeas_idle {s : State} {k : Nat} (status : Nat) (h : (s.meter k).state = 0) : s.stopMeas k status = s := if_pos h

/-- Settles O52, by what a meter takes and how its measurement ends. -/
theorem intervalsMeasured : Obligations.IntervalsMeasured := by
  refine ⟨fun s sq idx st k d c hd hc hshape hk hst => ?_, fun s n i t0 h1 hw hdue hk hshape => ?_,
    fun s n i stop tick ph h => congrArg Host.Outcome.next (if_pos ?_),
    fun s n i k coarse tick ph time sel stop m e hk hm hk48 hshape hsel hmark htick htime he h2 => ?_,
    fun s n i t0 k sq idx m c hk hm hk48 hshape h2 hdue ho hc => ?_, fun s n i v hwr hn hi hshape => ?_⟩
  · subst hc hk hst
    refine ⟨fun h => ?_, fun h => ?_, fun h => ?_⟩
    · have habs := measRefusal_absent (zeroes d.bytes 40 24) h
      have hrun := measureInterval_refused hd (by rw [habs]; decide)
      rw [habs] at hrun
      exact congrArg Host.Outcome.next hrun
    · exact ⟨_, congrArg Host.Outcome.next (measureInterval_refused hd h), rfl, (sends_complete _ _ _ _).meters, (sends_complete _ _ _ _).mem⟩
    · have hlen : 4 * mcCluster (slice d.bytes 16 24) + mcMeter (slice d.bytes 16 24) < (s.begin sq idx).meters.length := by
        show _ < s.meters.length
        rw [hshape.2.2.2.2.2.2.2.2.2.1]
        exact (measRefusal_meter h).1
      obtain ⟨hmk, hmj, hmem, hhost, hrf⟩ := setupMeas_sets (s := s.begin sq idx) (.desc sq idx) rfl hlen (fld_lt _ _ _)
      refine ⟨_, congrArg Host.Outcome.next (measureInterval_begins hd h), hmj, hmem, ?_, hrf, hmk⟩
      unfold State.desc
      rw [hhost]
      exact begin_desc hd.1
  · have hlen : 4 * n + i < (s.at t0).meters.length := by
      show _ < s.meters.length
      rw [hshape.2.2.2.2.2.2.2.2.2.1]
      exact hk
    exact ⟨_, congrArg Host.Outcome.next (if_pos (by simp [h1, hw, hdue])), upMeter_meter_same _ _ _ hlen, fun j hj => upMeter_meter_ne _ _ hj,
      rfl, rfl⟩
  · cases stop <;> simpa using h
  · have hlen : k < (s.at (time / 4096)).meters.length := by
      show _ < s.meters.length
      rw [hshape.2.2.2.2.2.2.2.2.2.1]
      exact hk48
    have h0 : m.state ≠ 0 := by omega
    have het : e.time = time := by rw [he]
    have hrun := meterEdge_heard hk hm hsel hmark htick htime he h0
    set u := s.at (time / 4096) with hu
    have hum : u.meter k = m := hm.symm
    set v := u.upMeter k (fun m => m.heard stop time) with hv
    have hvm : v.meter k = m.heard stop time := (upMeter_meter_same _ _ _ hlen).trans (by rw [hum])
    have hvj (j : Nat) (hj : j ≠ k) : v.meter j = s.meter j := upMeter_meter_ne _ _ hj
    have hvlen : k < v.meters.length := by
      show k < (s.meters.modify k _).length
      rw [List.length_modify]
      exact hlen
    refine ⟨fun hlast => ?_, fun hlast harm hbound => ?_⟩
    · have hmerge := edgeAt_merged (s := u) (e := e) (stop := stop) (by rw [hum]; exact h0) (by rw [hum, het]; exact hlast)
      rw [het] at hmerge
      refine ⟨_, congrArg Host.Outcome.next (hrun.trans hmerge), rb_setRf_same v F.CL_IMTR_STAT_MERGED (mIdx k) true (by decide) rfl, hvm, hvj,
        rfl, rfl, rfl⟩
    · have htake := edgeAt_counts (s := u) (stop := stop) (e := e) hlen hum.symm h2 (by rw [het]; exact hlast) (by rw [het]; exact harm)
        (by rw [het]; exact hbound)
      rw [het] at htake
      have hrun' (b : Bool) (h : stop = b) : doMeterEdge n i stop coarse ph s = v.takeEdge k b e := by rw [hrun.trans htake, h, hv, h]
      have hstart (h : stop = false) : v.meter k = { m with lastStart := some time } := by rw [hvm, h]; rfl
      have hstop (h : stop = true) : v.meter k = { m with lastStop := some time } := by rw [hvm, h]; rfl
      refine ⟨fun hs h hf he' => ?_, fun hs h hf => ?_, fun a q hs h hf hq hsat => ?_, fun b sq idx hs ho hf hb => ?_⟩
      · refine ⟨_, congrArg Host.Outcome.next ((hrun' false h).trans (takeEdge_first (by rw [hstart h]; exact hs)
          (by rw [hstart h]; exact hf) (by rw [hstart h]; exact he'))), ?_, fun j hj => (upMeter_meter_ne _ _ hj).trans (hvj j hj), rfl, rfl⟩
        rw [upMeter_meter_same _ _ _ hvlen, hstart h, ← he']
      · refine ⟨_, congrArg Host.Outcome.next ((hrun' true h).trans (takeEdge_early (by rw [hstop h]; exact hs)
          (by rw [hstop h]; exact hf))), ?_, fun j hj => (upMeter_meter_ne _ _ hj).trans (hvj j hj), rfl⟩
        rw [upMeter_meter_same _ _ _ hvlen, hstop h]
      · have hrun2 := (hrun' true h).trans (takeEdge_stop (by rw [hstop h]; exact hs) (by rw [hstop h]; exact hf))
        have hcount (hq0 : 0 ≤ q) (hmin : mcStart m.cfg ≠ mcStop m.cfg ∨ 2048 ≤ q) := stopEdge_counts (hstop h) h0 hq hq0 hmin
        refine ⟨fun hno => ?_, fun hq0 hmin hn => ?_, fun sq idx hq0 hmin hn ho => ?_⟩
        · exact ⟨_, congrArg Host.Outcome.next (hrun2.trans (stopEdge_passed (hstop h) hq hno)), hstop h, rfl⟩
        · refine ⟨_, congrArg Host.Outcome.next (hrun2.trans ((hcount hq0 hmin).trans (if_neg hn))), ?_, rfl⟩
          rw [upMeter_meter_same _ _ _ hvlen, hstop h]
          simp only [satAdd_stops hsat]
        · have hrun3 := hrun2.trans ((hcount hq0 hmin).trans (if_pos hn))
          set w := v.upMeter k (fun m => { m with stops := satAdd 16 m.stops 1, stopE := some e }) with hw
          have hwm : w.meter k = { m with lastStop := some time, stops := satAdd 16 m.stops 1, stopE := some e } := by
            rw [hw, upMeter_meter_same _ _ _ hvlen, hstop h]
          obtain ⟨hst, hoth, hdesc, hmem, -, hres, hdone, htim⟩ := endMeas_ends (s := w) (by
            show k < (v.meters.modify k _).length
            rw [List.length_modify]
            exact hvlen) (by rw [hwm]; exact ho) St.ok (some q) false false (e.time / 4096) rfl
          rw [hwm, show ({ m with lastStop := some time, stops := satAdd 16 m.stops 1, stopE := some e } : Meter).first = m.first from rfl, hf] at hres
          have hqual := measQual_ok (s := w) (k := k) (by rw [hwm]; exact h2) (e.time / 4096)
          rw [hwm, het, show ({ m with lastStop := some time, stops := satAdd 16 m.stops 1, stopE := some e } : Meter).dip = m.dip from rfl] at hqual
          rw [het] at hdone htim
          refine ⟨_, congrArg Host.Outcome.next hrun3, hst, hres, ?_, ?_, fun j hj => (hoth j hj).trans ((upMeter_meter_ne _ _ hj).trans (hvj j hj)),
            hdesc, hmem⟩
          · rw [het]
            refine hdone.trans ?_
            by_cases hd : (m.dip || s.dipAt (time / 4096)) = true
            · rw [if_pos hd, if_neg (fun hc => hqual.1 hc hd)]
              rfl
            · rw [if_neg hd, if_pos (hqual.2 hd)]
              rfl
          · rw [het]
            exact htim.trans (if_neg (fun hc => absurd hc.2 (by decide)))
      · cases hst : stop with
        | true =>
          rw [hst] at hf hb
          have hrun2 := (hrun' true hst).trans (takeEdge_signed_stop hvlen (by rw [hstop hst]; exact hs) (by rw [hstop hst]; exact hf)
            (by rw [hstop hst]; exact hb))
          set w := v.upMeter k (fun m => { m with stopE := some e, stops := 1 }) with hw
          have hwm : w.meter k = { m with lastStop := some time, stopE := some e, stops := 1 } := by
            rw [hw, upMeter_meter_same _ _ _ hvlen, hstop hst]
          obtain ⟨hend, -, hdesc, hmem, -, hres, -, -⟩ := endMeas_ends (s := w) (by
            show k < (v.meters.modify k _).length
            rw [List.length_modify]
            exact hvlen) (by rw [hwm]; exact ho) St.ok (some (interval (toSigned 16 (s.imcalOf k).offset) b e)) false false
              (max b.time e.time / 4096) rfl
          have hfirst : (w.meter k).first.isNone = false := by
            rw [hwm]
            show m.first.isNone = false
            rw [show m.first = some b from hb]
            rfl
          rw [hfirst] at hres
          rw [hst] at hrun2
          exact ⟨_, congrArg Host.Outcome.next hrun2, hend, hres, hdesc, hmem⟩
        | false =>
          rw [hst] at hf hb
          have hrun2 := (hrun' false hst).trans (takeEdge_signed_start hvlen (by rw [hstart hst]; exact hs) (by rw [hstart hst]; exact hf)
            (by rw [hstart hst]; exact hb))
          set w := v.upMeter k (fun m => { m with first := some e, state := 3 }) with hw
          have hwm : w.meter k = { m with lastStart := some time, first := some e, state := 3 } := by
            rw [hw, upMeter_meter_same _ _ _ hvlen, hstart hst]
          obtain ⟨hend, -, hdesc, hmem, -, hres, -, -⟩ := endMeas_ends (s := w) (by
            show k < (v.meters.modify k _).length
            rw [List.length_modify]
            exact hvlen) (by rw [hwm]; exact ho) St.ok (some (interval (toSigned 16 (s.imcalOf k).offset) e b)) false false
              (max e.time b.time / 4096) rfl
          have hfirst : (w.meter k).first.isNone = false := by
            rw [hwm]
            rfl
          rw [hfirst] at hres
          rw [hst] at hrun2
          exact ⟨_, congrArg Host.Outcome.next hrun2, hend, hres, hdesc, hmem⟩
  · have hlen : k < (s.at t0).meters.length := by
      show _ < s.meters.length
      rw [hshape.2.2.2.2.2.2.2.2.2.1]
      exact hk48
    have hrun : exec c s = .next ((s.at t0).endMeas k St.timeout none (decide (mcTimeout m.cfg ≠ 0)) (decide (mcTimeout m.cfg = 0)) t0) := by
      subst hk hm
      rcases hc with ⟨rfl, hz⟩ | ⟨rfl, hz⟩
      · refine congrArg Host.Outcome.next ((if_pos (by simp [h2, hz, hdue])).trans ?_)
        simp [hz]
      · refine congrArg Host.Outcome.next ((if_pos (by simp [h2, hz, hdue])).trans ?_)
        simp [hz]
    have hmk : (s.at t0).meter k = m := hm.symm
    obtain ⟨hend, hoth, hdesc, hmem, htime, hres, hdone, htim⟩ := endMeas_ends (s := s.at t0) hlen (by rw [hmk]; exact ho) St.timeout none
      (decide (mcTimeout m.cfg ≠ 0)) (decide (mcTimeout m.cfg = 0)) t0 rfl
    rw [measQual_timeout] at hdone htim
    rw [if_neg (by decide)] at hdone
    rw [if_pos ⟨by decide, rfl⟩] at htim
    rw [hmk] at hres
    exact ⟨_, hrun, hend, htime, hres, htim, hdone, hoth, hdesc, hmem⟩
  · have hi4 : i < 4 := by
      have h4 : s.nMeter ≤ 4 := by
        unfold State.nMeter
        split <;> decide
      omega
    have h12 := nCl_le s
    have hrun : exec (.imeterAbort n i v) s = .next (if v.toNat.testBit 0 then s.written.stopMeas (4 * n + i) St.aborted else s.written) := by
      refine congrArg Host.Outcome.next ((busWrite_of_writable hwr).trans ?_)
      unfold doImeterAbort
      rw [show s.written.nCl = s.nCl from rfl, show s.written.nMeter = s.nMeter from rfl]
      simp [hn, hi]
    refine ⟨fun h => hrun.trans (congrArg Host.Outcome.next ?_), fun sq idx hv h0 ho => ?_⟩
    · cases hv : v.toNat.testBit 0 with
      | false => rfl
      | true =>
        have hidle : (s.meter (4 * n + i)).state = 0 := h.resolve_left (by rw [hv]; decide)
        exact stopMeas_idle (s := s.written) St.aborted hidle
    · have hlen : 4 * n + i < s.written.meters.length := by
        show _ < s.meters.length
        rw [hshape.2.2.2.2.2.2.2.2.2.1]
        omega
      have hstop : s.written.stopMeas (4 * n + i) St.aborted = s.written.endMeas (4 * n + i) St.aborted none false false s.written.dtime := if_neg h0
      obtain ⟨hend, hoth, hdesc, hmem, -, -, hdone, -⟩ := endMeas_ends (s := s.written) hlen ho St.aborted none false false s.written.dtime rfl
      rw [measQual_aborted, if_neg (by decide), mIdx_cluster n hi4] at hdone
      exact ⟨_, hrun.trans (congrArg Host.Outcome.next ((if_pos hv).trans hstop)), hend, hdesc, hdone, hoth, hmem⟩

end Sys2Proof.Machine
end

