-- ==== Sys2Proof/Proofs/LinkWidths.lean ====
section
namespace Sys2Proof.Machine

/-! ### What the use of a link changes (R562, R572) -/

/-- From s to t nothing has changed but the links, as many as before, and what went out, which has grown. -/
def Sent (s t : State) : Prop := ∃ k l, k.length = s.links.length ∧ t = { s with links := k, out := s.out ++ l }

theorem Sent.refl (s : State) : Sent s s := ⟨s.links, [], rfl, by rw [List.append_nil]⟩

theorem Sent.trans {s t u : State} (h : Sent s t) (g : Sent t u) : Sent s u := by
  obtain ⟨k, l, hk, rfl⟩ := h
  obtain ⟨k', l', hk', rfl⟩ := g
  exact ⟨k', l ++ l', hk'.trans hk, by simp [List.append_assoc]⟩

theorem Sent.length {s t : State} (h : Sent s t) : t.links.length = s.links.length := by
  obtain ⟨k, l, hk, rfl⟩ := h
  exact hk

theorem Sent.regs {s t : State} (h : Sent s t) : t.regs = s.regs := by
  obtain ⟨k, l, hk, rfl⟩ := h
  rfl

theorem Sent.frame {s t : State} (h : Sent s t) : { t with links := s.links, out := s.out } = s := by
  obtain ⟨k, l, hk, rfl⟩ := h
  rfl

theorem sent_upLk (s : State) (n : Nat) (f : Link → Link) : Sent s (s.upLk n f) :=
  ⟨_, [], upLk_links_length s n f, by rw [List.append_nil]; rfl⟩

theorem sent_emit (s : State) (o : Out) : Sent s (s.emit o) := ⟨s.links, [o], rfl, rfl⟩

/-- The training burst that goes out on lane k of link n. -/
def State.burstOut (s : State) (n k : Nat) : Out := .link n { typ := 0x2D, seq := 0, fields := (List.range 64).map (s.trainBody n k) } [k]

theorem burstsOn_eq (l : List Nat) (s : State) (n : Nat) :
    l.foldl (fun s k => s.burstOn n k) s = { s with out := s.out ++ l.map (s.burstOut n) } := by
  induction l generalizing s with
  | nil => simp
  | cons k r ih => rw [List.foldl_cons, ih, State.burstOn, List.map_cons, List.append_cons]; rfl

/-- Bursts go out on the active lanes, and nothing else changes. -/
theorem bursts4_eq (s : State) (n : Nat) :
    s.bursts4 n = { s with out := s.out ++ (bitList 4 (s.lk n).active).map (s.burstOut n) } := burstsOn_eq _ _ _

theorem sent_bursts4 (s : State) (n : Nat) : Sent s (s.bursts4 n) := ⟨s.links, _, rfl, bursts4_eq s n⟩

theorem upLk_upLk (s : State) (n : Nat) (f g : Link → Link) : (s.upLk n f).upLk n g = s.upLk n (g ∘ f) := by
  simp only [State.upLk, List.modify_modify_eq]

/-- A link out of electrical idle that is used restarts its idle timer. -/
theorem linkUsed_awake {s : State} {n : Nat} (h : (s.lk n).state ≠ 3) :
    s.linkUsed n = s.upLk n (fun l => { l with idleSince := s.dtime }) := by
  unfold State.linkUsed
  dsimp only
  rw [if_neg h]

/-- A link in electrical idle that is used leaves it with a burst on each active lane. -/
theorem linkUsed_wakes {s : State} {n : Nat} (h : (s.lk n).state = 3) (hn : n < s.links.length) : s.linkUsed n =
    { s.upLk n (fun l => { l with state := 2, idleSince := s.dtime }) with
      out := s.out ++ (bitList 4 (s.lk n).active).map (s.burstOut n) } := by
  unfold State.linkUsed
  dsimp only
  rw [if_pos h, bursts4_eq, upLk_lk_same s n _ hn]
  have hb : (s.upLk n (fun l => { l with state := 2 })).burstOut n = s.burstOut n := by
    funext k
    have hs : ((s.upLk n (fun l => { l with state := 2 })).lane n k) = s.lane n k := by rw [State.lane, upLk_lk_same s n _ hn]; rfl
    have ht : (s.upLk n (fun l => { l with state := 2 })).trainBody n k = s.trainBody n k := by
      funext i
      unfold State.trainBody
      rw [hs]
      rfl
    rw [State.burstOut, ht, State.burstOut]
  rw [hb]
  show ({ (s.upLk n _).upLk n _ with out := _ } : State) = _
  rw [upLk_upLk]
  rfl

theorem linkUsed_lk {s : State} {n : Nat} (hn : n < s.links.length) : (s.linkUsed n).lk n =
    { s.lk n with state := if (s.lk n).state = 3 then 2 else (s.lk n).state, idleSince := s.dtime } := by
  by_cases h : (s.lk n).state = 3
  · rw [linkUsed_wakes h hn, if_pos h]
    exact upLk_lk_same s n _ hn
  · rw [linkUsed_awake h, if_neg h]
    exact upLk_lk_same s n _ hn

theorem sent_linkUsed (s : State) (n : Nat) : Sent s (s.linkUsed n) := by
  unfold State.linkUsed
  dsimp only
  refine .trans ?_ (sent_upLk _ _ _)
  split
  · exact (sent_upLk s n _).trans (sent_bursts4 _ _)
  · exact .refl s

/-- A link that is up is up and awake once it is used. -/
theorem linkUsed_state {s : State} {n : Nat} (h : s.linkUp n = true) : (if (s.lk n).state = 3 then 2 else (s.lk n).state) = 2 := by
  simp only [State.linkUp, Bool.or_eq_true, decide_eq_true_eq] at h
  rcases h with h | h
  · rw [h]; rfl
  · rw [h]; rfl

/-! ### A block is heard (R571, R572) -/

theorem getD_zipIdx_map {α : Type} (l : List α) (f : α × Nat → α) (d : α) {k : Nat} (hk : k < l.length) :
    (l.zipIdx.map f).getD k d = f (l.getD k d, k) := by
  simp [List.getD_eq_getElem?_getD, hk]

theorem heard_lk {s : State} {n : Nat} (hn : n < s.links.length) : (s.heard n).lk n = { s.lk n with
    idleSince := s.dtime, state := if (s.lk n).state = 3 then 2 else (s.lk n).state
    lanes := (s.lk n).lanes.zipIdx.map (fun x => if (s.lk n).active.testBit x.2 then { x.1 with hold := false, heardAt := s.dtime } else x.1) } :=
  upLk_lk_same s n _ hn

/-- A lane that was heard is trained, lost and revived as before. -/
theorem heard_lane {s : State} {n : Nat} (hn : n < s.links.length) (k : Nat) :
    ((s.heard n).lane n k).locked = (s.lane n k).locked ∧ ((s.heard n).lane n k).lost = (s.lane n k).lost := by
  rw [State.lane, heard_lk hn, State.lane]
  by_cases hk : k < (s.lk n).lanes.length
  · rw [getD_zipIdx_map _ _ _ hk]
    dsimp only
    split
    · exact ⟨rfl, rfl⟩
    · exact ⟨rfl, rfl⟩
  · rw [List.getD_eq_default _ _ (by simpa using hk), List.getD_eq_default _ _ (Nat.not_lt.mp hk)]
    exact ⟨rfl, rfl⟩

theorem goodLanes_congr {s t : State} {n : Nat} (h : ∀ k, (t.lane n k).locked = (s.lane n k).locked ∧ (t.lane n k).lost = (s.lane n k).lost)
    (hr : t.regs = s.regs) : t.goodLanes n = s.goodLanes n := by
  have hret : t.lanesRetired n = s.lanesRetired n := rf_congr hr _ _
  unfold State.goodLanes
  rw [hret]
  exact congrArg maskOf (List.filter_congr (fun k _ => by rw [(h k).1, (h k).2]))

theorem heard_goodLanes {s : State} {n : Nat} (hn : n < s.links.length) : (s.heard n).goodLanes n = s.goodLanes n :=
  goodLanes_congr (heard_lane hn) rfl

/-! ### WIDTH (R561, R576) -/

/-- WIDTH blocks go out once, on a link that is used. -/
theorem sendWidth_awake {s : State} {n : Nat} (h : (s.lk n).state ≠ 3) (a b : Nat) (c : Bool) (d : Nat) :
    ∃ o, s.sendWidth n a b c d = { s.upLk n (fun l => { l with idleSince := s.dtime }) with out := s.out ++ [o] } := by
  unfold State.sendWidth
  rw [linkUsed_awake h]
  exact ⟨_, rfl⟩

theorem sent_sendWidth (s : State) (n a b : Nat) (c : Bool) (d : Nat) : Sent s (s.sendWidth n a b c d) :=
  (sent_linkUsed s n).trans (sent_emit _ _)

/-- A WIDTH block is sent by sending something. -/
theorem sendWidth_out (s : State) (n a b : Nat) (c : Bool) (d : Nat) : ∃ l, l ≠ [] ∧ (s.sendWidth n a b c d).out = s.out ++ l := by
  obtain ⟨k, l, -, h⟩ := sent_linkUsed s n
  unfold State.sendWidth
  dsimp only
  rw [h]
  exact ⟨l ++ [_], by simp, (List.append_assoc _ _ _).trans rfl⟩

theorem sendWidth_lk {s : State} {n : Nat} (hn : n < s.links.length) (a b : Nat) (c : Bool) (d : Nat) :
    ((s.sendWidth n a b c d).lk n).width = (s.lk n).width := (congrArg Link.width (linkUsed_lk hn)).trans rfl

/-- A block whose CRC fails is a block error of one of the active lanes. -/
theorem crcErr_active {s : State} {n : Nat} (h : (s.lk n).active % 16 ≠ 0) :
    ∃ k, (s.lk n).active.testBit k = true ∧ s.crcErr n = s.draw.blockErr n k := by
  have hne : 0 < (bitList 4 (s.lk n).active).length := by
    by_contra hz
    have hnil := List.length_eq_zero_iff.mp (Nat.eq_zero_of_not_pos hz)
    refine h (Nat.eq_of_testBit_eq fun i => ?_)
    rw [show 16 = 2 ^ 4 from rfl, Nat.testBit_mod_two_pow, Nat.zero_testBit]
    by_cases hi : i < 4
    · have := List.filter_eq_nil_iff.mp hnil i (List.mem_range.mpr hi)
      simpa [hi] using this
    · simp [hi]
  set act := bitList 4 (s.lk n).active with hact
  have hlt : Config.freeValue s.freeCtr % max 1 act.length < act.length := by
    rw [max_eq_right hne]
    exact Nat.mod_lt _ hne
  refine ⟨act.getD (Config.freeValue s.freeCtr % max 1 act.length) 0, ?_, rfl⟩
  have hm : act[Config.freeValue s.freeCtr % max 1 act.length] ∈ bitList 4 (s.lk n).active := List.getElem_mem hlt
  rw [List.getD_eq_getElem _ _ hlt]
  exact (List.mem_filter.mp hm).2

/-- The state at time t once a WIDTH block is heard, with a change of lanes in progress: the one there is, or the one that a proposal after
an agreement begins. -/
def State.widthHeard (s : State) (n : Nat) (v : W64) (t : Nat) : State :=
  let u := (s.at t).heard n
  if (u.lk n).width.any (fun w => fget v 24 1 = 1 || w.agreed.isNone) then u
  else u.upLk n (fun l => { l with width := some { mine := u.goodLanes n, token := fget v 16 8, sentAt := u.dtime } })

section
variable {s : State} {n : Nat} {v : W64} {tt : Nat} {w : WidthX}

theorem sent_widthHeard : Sent (s.at tt) (s.widthHeard n v tt) := by
  unfold State.widthHeard
  dsimp only
  split
  · exact sent_upLk _ _ _
  · exact (sent_upLk (s.at tt) n _).trans (sent_upLk _ _ _)

theorem widthHeard_out : (s.widthHeard n v tt).out = s.out ∧ (s.widthHeard n v tt).dtime = (s.at tt).dtime := by
  unfold State.widthHeard
  dsimp only
  split
  · exact ⟨rfl, rfl⟩
  · exact ⟨rfl, rfl⟩

/-- The link is up and awake, its good lanes are as they were. -/
theorem widthHeard_link (hn : n < s.links.length) (hup : s.linkUp n = true) :
    ((s.widthHeard n v tt).lk n).state = 2 ∧ (s.widthHeard n v tt).goodLanes n = s.goodLanes n := by
  have hl : ((s.at tt).heard n).links.length = s.links.length := upLk_links_length (s.at tt) n _
  have hst : (((s.at tt).heard n).lk n).state = 2 := (congrArg Link.state (heard_lk (s := s.at tt) hn)).trans (linkUsed_state hup)
  have hgood : ((s.at tt).heard n).goodLanes n = s.goodLanes n := heard_goodLanes (s := s.at tt) hn
  unfold State.widthHeard
  dsimp only
  split
  · exact ⟨hst, hgood⟩
  · refine ⟨(congrArg Link.state (upLk_lk_same _ n _ (hl ▸ hn))).trans hst, Eq.trans (goodLanes_congr (s := (s.at tt).heard n) (fun k => ?_) rfl) hgood⟩
    rw [State.lane, upLk_lk_same _ n _ (hl ▸ hn)]
    exact ⟨rfl, rfl⟩

/-- The change in progress, before the block is acted on. -/
theorem widthHeard_width (hn : n < s.links.length) (hw : (s.lk n).width = some w) : ((s.widthHeard n v tt).lk n).width =
    some (if w.agreed = none ∨ fget v 24 1 = 1 then w else { mine := s.goodLanes n, token := fget v 16 8, sentAt := (s.at tt).dtime }) := by
  have hl : ((s.at tt).heard n).links.length = s.links.length := upLk_links_length (s.at tt) n _
  have hwd : (((s.at tt).heard n).lk n).width = some w := (congrArg Link.width (heard_lk (s := s.at tt) hn)).trans hw
  unfold State.widthHeard
  dsimp only
  rw [hwd]
  by_cases h : w.agreed = none ∨ fget v 24 1 = 1
  · rw [if_pos (by simpa [or_comm] using h), if_pos h, hwd]
  · rw [if_neg (by simpa [or_comm] using h), if_neg h, upLk_lk_same _ n _ (hl ▸ hn)]
    exact congrArg some (congrArg (fun m => ({ mine := m, token := fget v 16 8, sentAt := (s.at tt).dtime } : WidthX))
      (heard_goodLanes (s := s.at tt) hn))

/-- A good WIDTH block acts on the change of lanes that is in progress once it is heard. -/
theorem doWidthBlock_heard (hup : s.linkUp n = true) (ht : fget v 0 8 = 0x5A) (hok : blockOk v = true) : doWidthBlock n v tt s =
    match ((s.widthHeard n v tt).lk n).width with
    | none => s.widthHeard n v tt
    | some w =>
      let act := activeOf (fget v 8 4 &&& (s.widthHeard n v tt).goodLanes n)
      if act = 0 || (fget v 24 1 = 1 && fget v 16 8 ≠ w.token) then s.widthHeard n v tt
      else
        let u := if fget v 24 1 = 1 then s.widthHeard n v tt
          else (s.widthHeard n v tt).sendWidth n ((s.widthHeard n v tt).goodLanes n) (fget v 16 8) true act
        if w.agreed.isSome then u
        else u.upLk n (fun l => { l with width := l.width.map (fun w => { w with agreed := some (act, (s.at tt).dtime) }) }) := by
  unfold doWidthBlock
  rw [if_neg (by simp [hup, ht]), if_neg (by simp [hok])]
  simp only [decide_eq_true_eq]
  rfl

theorem sent_doWidthBlock (hup : s.linkUp n = true) (ht : fget v 0 8 = 0x5A) (hok : blockOk v = true) :
    Sent (s.at tt) (doWidthBlock n v tt s) := by
  rw [doWidthBlock_heard hup ht hok]
  refine (sent_widthHeard (n := n) (v := v)).trans ?_
  split
  · exact .refl _
  · dsimp only
    split
    · exact .refl _
    · have hu : Sent (s.widthHeard n v tt) (if fget v 24 1 = 1 then s.widthHeard n v tt
          else (s.widthHeard n v tt).sendWidth n ((s.widthHeard n v tt).goodLanes n) (fget v 16 8) true
            (activeOf (fget v 8 4 &&& (s.widthHeard n v tt).goodLanes n))) := by
        split
        · exact .refl _
        · exact sent_sendWidth _ _ _ _ _ _
      split
      · exact hu
      · exact hu.trans (sent_upLk _ _ _)

/-- What a WIDTH block does that leaves lanes to use, and that agrees, if at all, with the token of the change. -/
theorem doWidthBlock_eq (hup : s.linkUp n = true) (hn : n < s.links.length) (ht : fget v 0 8 = 0x5A) (hok : blockOk v = true)
    (hw : ((s.widthHeard n v tt).lk n).width = some w) (hact : activeOf (fget v 8 4 &&& s.goodLanes n) ≠ 0)
    (htok : fget v 24 1 = 1 → fget v 16 8 = w.token) : doWidthBlock n v tt s =
      let u := if fget v 24 1 = 1 then s.widthHeard n v tt
        else (s.widthHeard n v tt).sendWidth n (s.goodLanes n) (fget v 16 8) true (activeOf (fget v 8 4 &&& s.goodLanes n))
      if w.agreed.isSome then u else u.upLk n (fun l => { l with width := l.width.map (fun w => { w with
        agreed := some (activeOf (fget v 8 4 &&& s.goodLanes n), (s.at tt).dtime) }) }) := by
  rw [doWidthBlock_heard hup ht hok, hw]
  dsimp only
  rw [(widthHeard_link hn hup).2, if_neg (by simpa [hact] using htok)]

/-- A block that agrees settles the lanes, and nothing is sent. -/
theorem widthBlock_settles (hup : s.linkUp n = true) (hn : n < s.links.length) (ht : fget v 0 8 = 0x5A) (hok : blockOk v = true)
    (hw : (s.lk n).width = some w) (hact : activeOf (fget v 8 4 &&& s.goodLanes n) ≠ 0) (ha : w.agreed = none) (hg : fget v 24 1 = 1)
    (htok : fget v 16 8 = w.token) : (doWidthBlock n v tt s).out = s.out ∧ ((doWidthBlock n v tt s).lk n).width =
      some { w with agreed := some (activeOf (fget v 8 4 &&& s.goodLanes n), (s.at tt).dtime) } := by
  have hwd : ((s.widthHeard n v tt).lk n).width = some w := (widthHeard_width hn hw).trans (by rw [if_pos (Or.inl ha)])
  rw [doWidthBlock_eq hup hn ht hok hwd hact (fun _ => htok)]
  dsimp only
  rw [if_pos hg, if_neg (by simp [ha])]
  refine ⟨widthHeard_out.1, ?_⟩
  rw [upLk_lk_same _ _ _ ((sent_widthHeard.length).symm ▸ hn)]
  exact congrArg (Option.map _) hwd

/-- A block that proposes is answered, and the lanes of the change it meets or begins, not agreed before, are settled. -/
theorem widthBlock_answers {x : WidthX} (hup : s.linkUp n = true) (hn : n < s.links.length) (ht : fget v 0 8 = 0x5A) (hok : blockOk v = true)
    (hw : ((s.widthHeard n v tt).lk n).width = some x) (hact : activeOf (fget v 8 4 &&& s.goodLanes n) ≠ 0) (ha : x.agreed = none)
    (hg : fget v 24 1 = 0) : (∃ o, (doWidthBlock n v tt s).out = s.out ++ [o]) ∧ ((doWidthBlock n v tt s).lk n).width =
      some { x with agreed := some (activeOf (fget v 8 4 &&& s.goodLanes n), (s.at tt).dtime) } := by
  have hg1 : ¬ fget v 24 1 = 1 := by omega
  have hlen : n < (s.widthHeard n v tt).links.length := sent_widthHeard.length.symm ▸ hn
  have hst : ((s.widthHeard n v tt).lk n).state ≠ 3 := by rw [(widthHeard_link hn hup).1]; decide
  rw [doWidthBlock_eq hup hn ht hok hw hact (fun h => absurd h hg1)]
  dsimp only
  rw [if_neg hg1, if_neg (by simp [ha])]
  constructor
  · obtain ⟨o, ho⟩ := sendWidth_awake hst (s.goodLanes n) (fget v 16 8) true (activeOf (fget v 8 4 &&& s.goodLanes n))
    rw [ho]
    exact ⟨o, congrArg (· ++ [o]) widthHeard_out.1⟩
  · rw [upLk_lk_same _ _ _ ((sent_sendWidth _ _ _ _ _ _).length.symm ▸ hlen)]
    exact congrArg (Option.map _) ((sendWidth_lk hlen _ _ _ _).trans hw)

end

/-! ### WIDTH_SWITCH (R576) -/

theorem bursts4_lk (s : State) (n m : Nat) : (s.bursts4 n).lk m = s.lk m := by
  rw [bursts4_eq]
  rfl

theorem bursts4_dtime (s : State) (n : Nat) : (s.bursts4 n).dtime = s.dtime := by rw [bursts4_eq]

theorem sent_crcBlock (s : State) (n a b : Nat) : Sent s (s.crcBlock n a b) := (sent_linkUsed s n).trans (sent_emit _ _)

theorem sendNak_lk {s : State} {n : Nat} (hn : n < s.links.length) : (s.sendNak n).lk n =
    { s.lk n with state := if (s.lk n).state = 3 then 2 else (s.lk n).state, idleSince := s.dtime } := linkUsed_lk hn

theorem linkEvent_eq (s : State) (n sub lane : Nat) : ∃ h g o, s.linkEvent n sub lane = { s with host := h, regs := g, out := o } :=
  sends_queueEvent s _

/-- PL_n_STAT is neither register that an event may set. -/
theorem linkEvent_recoveries (s : State) (n sub lane : Nat) :
    (s.linkEvent n sub lane).rf F.PL_STAT_RECOVERIES [n] = s.rf F.PL_STAT_RECOVERIES [n] := by
  unfold State.rf State.linkEvent
  dsimp only
  rw [queueEvent_reg_ne]
  · simp only [RF.off, F.PL_STAT_RECOVERIES, F.HOST_ERR_RING, strideOff]
    omega
  · simp only [RF.off, F.PL_STAT_RECOVERIES, F.HOST_EVT_DROPPED_COUNT, strideOff]
    omega

/-- No task, no flag is set. -/
theorem linkFlag_idle {s : State} (h : s.paddock.tasks = []) (n : Nat) : s.linkFlag n = s := by
  unfold State.linkFlag
  split
  · rfl
  · rw [h]
    rfl

/-- No lane is revived, no LANE_REVIVE completes. -/
theorem settleRevive_none {s : State} {n : Nat} (h : ∀ x ∈ (s.lk n).lanes, x.revive = none) (hn : n < s.links.length) (later : Nat) :
    (s.settleRevive n later).lk n = s.lk n ∧ (s.settleRevive n later).regs = s.regs := by
  have hown : (s.lk n).lanes.filterMap Lane.revive = [] := List.filterMap_eq_nil_iff.mpr h
  unfold State.settleRevive
  dsimp only
  rw [hown]
  refine ⟨(upLk_lk_same s n _ hn).trans ?_, rfl⟩
  have hkeep : (s.lk n).lanes.map (fun x : Lane => if x.revive.any ([] : List (Nat × Nat)).contains then { x with revive := none } else x) =
      (s.lk n).lanes := by
    refine (List.map_congr_left fun x hx => ?_).trans (List.map_id _)
    rw [h x hx]
    rfl
  exact congrArg (fun ls => { s.lk n with lanes := ls }) hkeep

/-- The link runs at the lanes agreed, and the change is counted, where no task watches it, no lane is revived or rejoins (R576). -/
theorem widthSwitch_switches {s : State} {n tt m t0 : Nat} {w : WidthX} (hw : (s.lk n).width = some w) (ha : w.agreed = some (m, t0))
    (ht : t0 + 328 ≤ tt) (hn : n < s.links.length) (htask : s.paddock.tasks = []) (hrev : ∀ x ∈ (s.lk n).lanes, x.revive = none)
    (hre : (s.lk n).rejoin = 0) : ((doWidthSwitch n tt s).lk n).active = m ∧ ((doWidthSwitch n tt s).lk n).width = none ∧
      ((doWidthSwitch n tt s).lk n).lanes = (s.lk n).lanes ∧
      (doWidthSwitch n tt s).rf F.PL_STAT_RECOVERIES [n] = satAdd 32 (s.rf F.PL_STAT_RECOVERIES [n]) 1 := by
  obtain ⟨mine, token, sends, sentAt, agreed⟩ := w
  cases ha
  set u := ((s.at tt).incRf F.PL_STAT_RECOVERIES [n]).upLk n (fun l => { l with
    active := m, width := none, rejoin := 0, naked := false, nakedE := false }) with hu
  set x := ((u.bursts4 n).sendNak n).linkEvent n 3 with hx
  have hbody : doWidthSwitch n tt s = (x.linkFlag n).settleRevive n (s.lk n).rejoin := by
    unfold doWidthSwitch
    rw [hw]
    dsimp only
    rw [if_neg (Nat.not_lt.mpr ht)]
    exact if_neg (by rw [show ((s.at tt).lk n).rejoin = 0 from hre]; decide)
  have hulk : u.lk n = { s.lk n with active := m, width := none, rejoin := 0, naked := false, nakedE := false } :=
    upLk_lk_same ((s.at tt).incRf F.PL_STAT_RECOVERIES [n]) n _ hn
  have hulen : n < u.links.length := by rw [hu, upLk_links_length]; exact hn
  have hb : u.bursts4 n = { u with out := u.out ++ (bitList 4 (u.lk n).active).map (u.burstOut n) } := bursts4_eq u n
  have hsent : Sent u ((u.bursts4 n).sendNak n) := by
    refine (sent_bursts4 u n).trans ?_
    exact sent_crcBlock _ _ _ _
  obtain ⟨h, g, o, hxe⟩ := linkEvent_eq ((u.bursts4 n).sendNak n) n 3 0
  rw [← hx] at hxe
  have hlk : x.lk n = { u.lk n with state := if (u.lk n).state = 3 then 2 else (u.lk n).state, idleSince := u.dtime } := by
    rw [hxe]
    refine (sendNak_lk (s := u.bursts4 n) ((sent_bursts4 u n).length.symm ▸ hulen)).trans ?_
    rw [bursts4_lk, bursts4_dtime]
  have hxtask : x.paddock.tasks = [] := by
    rw [hxe]
    exact (congrArg (fun a : State => a.paddock.tasks) hsent.frame).trans htask
  have hxlen : n < x.links.length := by
    rw [hxe]
    exact hsent.length.symm ▸ hulen
  have hxrev : ∀ y ∈ (x.lk n).lanes, y.revive = none := by
    rw [hlk, hulk]
    exact hrev
  obtain ⟨hset, hregs⟩ := settleRevive_none hxrev hxlen (s.lk n).rejoin
  rw [hbody, linkFlag_idle hxtask, hset, hlk, hulk]
  refine ⟨rfl, rfl, rfl, ?_⟩
  rw [rf_congr hregs, hx, linkEvent_recoveries, rf_congr hsent.regs]
  exact rf_incRf_same (s.at tt) _ _ _ (by decide)

/-! ### WIDTH_RESEND (R576) -/

/-- A proposal unanswered is sent again, and its sends are counted (R576). -/
theorem widthResend_sends {s : State} {n tt : Nat} {w : WidthX} (hw : (s.lk n).width = some w) (ha : w.agreed = none)
    (ht : w.sentAt + 4000 ≤ tt) (hn : n < s.links.length) (hs : w.sends < 3) :
    ((doWidthResend n tt s).lk n).width = some { w with sends := w.sends + 1, sentAt := tt } ∧
      (∃ l, l ≠ [] ∧ (doWidthResend n tt s).out = s.out ++ l) ∧ (doWidthResend n tt s).regs = s.regs := by
  set u := (s.at tt).upLk n (fun l => { l with width := some { w with sends := w.sends + 1, sentAt := tt } }) with hu
  have hbody : doWidthResend n tt s = u.sendWidth n w.mine w.token false (activeOf w.mine) := by
    unfold doWidthResend
    rw [hw]
    dsimp only
    rw [if_neg (by simpa [ha] using ht), if_pos hs]
  have hulen : n < u.links.length := by rw [hu, upLk_links_length]; exact hn
  rw [hbody]
  refine ⟨?_, sendWidth_out u n _ _ _ _, (sent_sendWidth u n _ _ _ _).regs⟩
  rw [sendWidth_lk hulen, hu, upLk_lk_same (s.at tt) n _ hn]

theorem widthResend_loses {s : State} {n tt : Nat} {w : WidthX} (hw : (s.lk n).width = some w) (ha : w.agreed = none)
    (ht : w.sentAt + 4000 ≤ tt) (hs : 3 ≤ w.sends) : doWidthResend n tt s = (s.at tt).linkLost n := by
  unfold doWidthResend
  rw [hw]
  dsimp only
  rw [if_neg (by simpa [ha] using ht), if_neg (Nat.not_lt.mpr hs)]

/-- Settles O60, by what a WIDTH block, a resend and a switch do to the change of lanes in progress. -/
theorem linkWidths : Obligations.LinkWidths := by
  refine ⟨fun s n v tt w hup ht hok hn hw hact => ?_, fun s n v tt hup hok => ?_, fun s n tt w hw ha ht hn => ?_,
    fun s n tt m t0 w hw ha ht hn htask hrev hre => ⟨_, rfl, widthSwitch_switches hw ha ht hn htask hrev hre⟩⟩
  · have hframe := (sent_doWidthBlock (tt := tt) hup ht hok).frame
    refine ⟨_, rfl, (congrArg State.mem hframe).trans rfl, (congrArg State.regs hframe).trans rfl, fun ha hg htok => ?_, fun ha hg => ?_,
      fun ha hg => ?_⟩
    · exact widthBlock_settles hup hn ht hok hw hact ha hg htok
    · exact widthBlock_answers hup hn ht hok ((widthHeard_width hn hw).trans (by rw [if_pos (Or.inl ha)])) hact ha hg
    · have hnew : ¬ (w.agreed = none ∨ fget v 24 1 = 1) := by
        rw [hg]
        exact fun h => h.elim ha (by decide)
      exact widthBlock_answers hup hn ht hok ((widthHeard_width hn hw).trans (by rw [if_neg hnew])) hact rfl hg
  · refine ⟨fun ht => congrArg Host.Outcome.next ?_, fun ht => congrArg Host.Outcome.next ?_, fun ht => congrArg Host.Outcome.next ?_,
      crcErr_active (s := s.at tt)⟩
    · exact (if_neg (by simp [hup, ht])).trans (if_pos (by simp [hok]))
    · exact (if_neg (by simp [hup, ht])).trans (if_pos (by simp [hok]))
    · exact (if_neg (by simp [hup, ht])).trans (if_pos (by simp [hok]))
  · exact ⟨_, rfl, widthResend_sends hw ha ht hn, widthResend_loses hw ha ht⟩

end Sys2Proof.Machine
end

