-- ==== Sys2Proof/Proofs/LinkBlocks.lean ====
section
namespace Sys2Proof.Machine

/-! ### Traffic (R562, R564) -/

theorem Sent.frame_at {s t : State} {tt : Nat} (h : Sent (s.at tt) t) : { t with links := s.links, out := s.out, dtime := s.dtime } = s :=
  congrArg (fun a : State => { a with dtime := s.dtime }) h.frame

/-- Packets that go out again are seen outside in order, and change nothing else. -/
theorem traffics_eq (l : List PlPacket) (s : State) (n : Nat) : ∃ k, l.foldl (fun s p => s.traffic n p) s = { s with out := s.out ++ k } ∧
    k.map Safety.sentOn = l.map (fun p => some (n, p)) := by
  induction l generalizing s with
  | nil => exact ⟨[], by simp, rfl⟩
  | cons p r ih =>
    obtain ⟨k, hk, hm⟩ := ih (s.traffic n p)
    refine ⟨.link n p (s.stripe n (if isPkt p then 1 + pktBlocks p else 2)) :: k, ?_, congrArg (some (n, p) :: ·) hm⟩
    rw [List.foldl_cons, hk, List.append_cons]
    rfl

/-- With nothing waiting for room nothing is sent for want of it. -/
theorem drain_empty {s : State} {n : Nat} (h : (s.lk n).waitq = []) : s.drain n = s.upLk n (fun l => { l with waitq := [] }) := by
  unfold State.drain
  dsimp only
  rw [h]
  rfl

theorem crcBlock_lk {s : State} {n : Nat} (hn : n < s.links.length) (a b : Nat) : (s.crcBlock n a b).lk n =
    { s.lk n with state := if (s.lk n).state = 3 then 2 else (s.lk n).state, idleSince := s.dtime } := linkUsed_lk hn

theorem crcBlock_out (s : State) (n a b : Nat) : ∃ l, l ≠ [] ∧ (s.crcBlock n a b).out = s.out ++ l := by
  obtain ⟨k, l, -, h⟩ := sent_linkUsed s n
  unfold State.crcBlock
  dsimp only
  rw [h]
  exact ⟨l ++ [_], by simp, (List.append_assoc _ _ _).trans rfl⟩

section
variable {s : State} {n tt : Nat}

/-- An acknowledgement goes out on a link that is up, and nothing is unacknowledged any more (R564). -/
theorem ackSend_sends {d : Nat} (hd : (s.lk n).unacked = some d) (ht : d + 655 ≤ tt) (hup : s.linkUp n = true) (hn : n < s.links.length) :
    (doAckSend n tt s).lk n = { s.lk n with unacked := none, state := 2, idleSince := (s.at tt).dtime } ∧
      (∃ l, l ≠ [] ∧ (doAckSend n tt s).out = s.out ++ l) ∧
      { doAckSend n tt s with links := s.links, out := s.out, dtime := s.dtime } = s := by
  obtain ⟨b, hbody⟩ : ∃ b, doAckSend n tt s = ((s.at tt).crcBlock n 0x4B b).upLk n (fun l => { l with unacked := none }) := by
    refine ⟨((s.lk n).rxSeq + 2 ^ 16 - 1) % 2 ^ 16 + ((s.lk n).rxEseq + 2 ^ 8 - 1) % 2 ^ 8 * 2 ^ 16, ?_⟩
    unfold doAckSend
    rw [hd]
    exact if_neg (by simp [hup, Nat.not_lt.mpr ht])
  have hsent := sent_crcBlock (s.at tt) n 0x4B b
  rw [hbody]
  refine ⟨?_, ?_, ?_⟩
  · rw [upLk_lk_same _ _ _ (hsent.length.symm ▸ hn), crcBlock_lk (s := s.at tt) hn]
    rw [show ((s.at tt).lk n) = s.lk n from rfl, linkUsed_state hup]
  · exact crcBlock_out (s.at tt) n 0x4B b
  · exact (hsent.trans (sent_upLk _ n _)).frame_at

/-- The counter of NAKs is the other half of the register that counts what is sent again. -/
theorem naks_counted (s : State) (n k : Nat) : ((s.incRf F.PL_LINKCNT_NAKS [n]).incRf F.PL_LINKCNT_REPLAYED [n] k).rf F.PL_LINKCNT_NAKS [n] =
    satAdd 32 (s.rf F.PL_LINKCNT_NAKS [n]) 1 := by
  rw [State.incRf, rf_setRf_disjoint _ F.PL_LINKCNT_REPLAYED F.PL_LINKCNT_NAKS [n] [n] _ rfl (by decide) (by decide),
    rf_incRf_same _ _ _ _ (by decide)]
  rfl

/-- What is sent again on a link that is awake and has nothing waiting. -/
theorem resends (l : List PlPacket) (hst : (s.lk n).state ≠ 3) (hq : (s.lk n).waitq = []) (hn : n < s.links.length) :
    ((l.foldl (fun s p => s.traffic n p) (s.linkUsed n)).drain n).lk n = { s.lk n with idleSince := s.dtime, waitq := [] } ∧
      (∃ k, ((l.foldl (fun s p => s.traffic n p) (s.linkUsed n)).drain n).out = s.out ++ k ∧
        k.map Safety.sentOn = l.map (fun p => some (n, p))) ∧
      ((l.foldl (fun s p => s.traffic n p) (s.linkUsed n)).drain n).regs = s.regs := by
  obtain ⟨k, hk, hm⟩ := traffics_eq l (s.upLk n (fun l => { l with idleSince := s.dtime })) n
  have hlk := upLk_lk_same s n (fun l => { l with idleSince := s.dtime }) hn
  have hlen : n < (s.upLk n (fun l => { l with idleSince := s.dtime })).links.length := by
    rw [upLk_links_length]
    exact hn
  have hout : (s.upLk n (fun l => { l with idleSince := s.dtime })).out = s.out := rfl
  have hregs : (s.upLk n (fun l => { l with idleSince := s.dtime })).regs = s.regs := rfl
  rw [linkUsed_awake hst, hk]
  generalize s.upLk n (fun l => { l with idleSince := s.dtime }) = u at *
  have hq' : (({ u with out := u.out ++ k } : State).lk n).waitq = [] := (congrArg Link.waitq hlk).trans hq
  rw [drain_empty hq', ← hregs, ← hout]
  refine ⟨(upLk_lk_same ({ u with out := u.out ++ k } : State) n _ hlen).trans ?_, ⟨k, rfl, hm⟩, rfl⟩
  exact congrArg (fun l : Link => { l with waitq := [] }) hlk

/-- A NAK frees what lies before the numbers it names, and the rest goes out again, express messages first (R564, R565). -/
theorem nakBlock_replays {v : W64} (hup : s.linkUp n = true) (ht : fget v 0 8 = 0x55) (hok : blockOk v = true) (hw : (s.lk n).waitq = [])
    (hn : n < s.links.length) {e r : List PlPacket} (he : e = afterAck (s.lk n).express ((fget v 24 8 + 2 ^ 8 - 1) % 2 ^ 8))
    (hr : r = afterAck (s.lk n).replay ((fget v 8 16 + 2 ^ 16 - 1) % 2 ^ 16)) :
    ((doNakBlock n v tt s).lk n).express = e ∧ ((doNakBlock n v tt s).lk n).replay = r ∧
      (∃ l, (doNakBlock n v tt s).out = s.out ++ l ∧ l.map Safety.sentOn = (e ++ r).map (fun p => some (n, p))) ∧
      (doNakBlock n v tt s).rf F.PL_LINKCNT_NAKS [n] = satAdd 32 (s.rf F.PL_LINKCNT_NAKS [n]) 1 := by
  have hlk := heard_lk (s := s.at tt) hn
  have hlen : n < ((s.at tt).heard n).links.length := (upLk_links_length (s.at tt) n _).symm ▸ hn
  have hregs : ((s.at tt).heard n).regs = s.regs := rfl
  have hout : ((s.at tt).heard n).out = s.out := rfl
  have hbody : doNakBlock n v tt s = ((e ++ r).foldl (fun s p => s.traffic n p)
      (((((s.at tt).heard n).incRf F.PL_LINKCNT_NAKS [n]).incRf F.PL_LINKCNT_REPLAYED [n] (e.length + r.length)).upLk n
        (fun l => { l with express := e, replay := r }) |>.linkUsed n)).drain n := by
    unfold doNakBlock
    rw [if_neg (by simp [hup, ht]), if_neg (by simp [hok])]
    dsimp only
    rw [hlk]
    dsimp only
    rw [show ((s.at tt).lk n) = s.lk n from rfl, ← he, ← hr]
  have hst : (((s.at tt).heard n).lk n).state ≠ 3 := by
    rw [hlk]
    show (if (s.lk n).state = 3 then 2 else (s.lk n).state) ≠ 3
    rw [linkUsed_state hup]
    decide
  have hq : (((s.at tt).heard n).lk n).waitq = [] := by
    rw [hlk]
    exact hw
  rw [hbody]
  generalize (s.at tt).heard n = h at *
  have hulk := upLk_lk_same ((h.incRf F.PL_LINKCNT_NAKS [n]).incRf F.PL_LINKCNT_REPLAYED [n] (e.length + r.length)) n
    (fun l => { l with express := e, replay := r }) hlen
  have hnak := naks_counted h n (e.length + r.length)
  have hcregs : (((h.incRf F.PL_LINKCNT_NAKS [n]).incRf F.PL_LINKCNT_REPLAYED [n] (e.length + r.length)).upLk n
    (fun l => { l with express := e, replay := r })).regs =
      ((h.incRf F.PL_LINKCNT_NAKS [n]).incRf F.PL_LINKCNT_REPLAYED [n] (e.length + r.length)).regs := rfl
  have hcout : (((h.incRf F.PL_LINKCNT_NAKS [n]).incRf F.PL_LINKCNT_REPLAYED [n] (e.length + r.length)).upLk n
    (fun l => { l with express := e, replay := r })).out = h.out := rfl
  have hulen : n < (((h.incRf F.PL_LINKCNT_NAKS [n]).incRf F.PL_LINKCNT_REPLAYED [n] (e.length + r.length)).upLk n
      (fun l => { l with express := e, replay := r })).links.length := by
    rw [upLk_links_length]
    exact hlen
  rw [← rf_congr hcregs, rf_congr hregs] at hnak
  rw [← hout, ← hcout, ← hnak]
  generalize ((h.incRf F.PL_LINKCNT_NAKS [n]).incRf F.PL_LINKCNT_REPLAYED [n] (e.length + r.length)).upLk n
    (fun l => { l with express := e, replay := r }) = u at *
  obtain ⟨hlk', hout', hregs'⟩ := resends (e ++ r) (by rw [hulk]; exact hst) (by rw [hulk]; exact hq) hulen
  rw [hlk', hulk]
  exact ⟨rfl, rfl, hout', rf_congr hregs' _ _⟩

/-! ### Electrical idle (R572, R573) -/

/-- A link goes to electrical idle with one EI block on its active lanes. -/
theorem goIdle_idle (hn : n < s.links.length) : (s.goIdle n).lk n = { s.lk n with state := 3 } ∧
    (s.goIdle n).out = s.out ++ [.link n { typ := 0xAA, seq := 0, fields := [0] } (bitList 4 (s.lk n).active)] :=
  ⟨upLk_lk_same _ n _ hn, rfl⟩

/-- The hold of an active lane ends when a block is heard (R571). -/
theorem heard_hold {k : Nat} (hn : n < s.links.length) (ha : (s.lk n).active.testBit k = true) (hk : k < (s.lk n).lanes.length) :
    ((s.heard n).lane n k).hold = false := by
  rw [State.lane, heard_lk hn]
  dsimp only
  rw [getD_zipIdx_map _ _ _ hk]
  dsimp only
  rw [if_pos ha]

theorem eiBlock_idles {v : W64} (hs : (s.lk n).state = 2) (hn : n < s.links.length) (ht : fget v 0 8 = 0xAA) :
    (s.mayIdle n = true → ((doEiBlock n v tt s).lk n).state = 3 ∧
      (doEiBlock n v tt s).out = s.out ++ [.link n { typ := 0xAA, seq := 0, fields := [0] } (bitList 4 (s.lk n).active)]) ∧
    (s.mayIdle n = false → ((doEiBlock n v tt s).lk n).state = 2 ∧ (doEiBlock n v tt s).out = s.out) ∧
    (∀ k, (s.lk n).active.testBit k = true → k < (s.lk n).lanes.length → ((doEiBlock n v tt s).lane n k).hold = false) := by
  have hlk := heard_lk (s := s.at tt) hn
  have hlen : n < ((s.at tt).heard n).links.length := (upLk_links_length (s.at tt) n _).symm ▸ hn
  obtain ⟨hidle, hout⟩ := goIdle_idle hlen
  have hbody : doEiBlock n v tt s = if s.mayIdle n then ((s.at tt).heard n).goIdle n else (s.at tt).heard n := if_pos (by simp [hs, ht])
  have hhold (k : Nat) := heard_hold (s := s.at tt) (k := k) hn
  rw [hbody]
  refine ⟨fun hm => ?_, fun hm => ?_, fun k ha hk => ?_⟩
  · rw [if_pos hm, hidle, hout, hlk]
    exact ⟨rfl, rfl⟩
  · rw [if_neg (by simp [hm]), hlk]
    refine ⟨?_, rfl⟩
    show (if (s.lk n).state = 3 then 2 else (s.lk n).state) = 2
    rw [hs]
    rfl
  · split
    · rw [State.lane, hidle]
      exact hhold k ha hk
    · exact hhold k ha hk

/-! ### Markers (R562) -/

theorem alignMarkerSend_sends (hs : (s.lk n).state = 2) (hn : n < s.links.length) (ht : (s.lk n).markerAt + 41943 ≤ tt) :
    (doAlignMarkerSend n tt s).lk n = { s.lk n with marker := ((s.lk n).marker + 1) % 2 ^ 16, markerAt := tt } ∧
      (doAlignMarkerSend n tt s).out =
        s.out ++ [.link n { typ := 0xB4, seq := 0, fields := [(s.lk n).marker] } (bitList 4 (s.lk n).active)] ∧
      { doAlignMarkerSend n tt s with links := s.links, out := s.out, dtime := s.dtime } = s := by
  have hbody : doAlignMarkerSend n tt s = ((s.at tt).block n 0xB4 (s.lk n).marker).upLk n (fun l => { l with
      marker := (l.marker + 1) % 2 ^ 16, markerAt := tt }) := if_neg (by simp [hs, Nat.not_lt.mpr ht])
  rw [hbody]
  exact ⟨upLk_lk_same ((s.at tt).block n 0xB4 (s.lk n).marker) n _ hn, rfl, rfl⟩

/-- Two values of which each is the more frequent half of a list are one. -/
theorem majority_unique {α β : Type} [DecidableEq β] (l : List α) (m : α → β) {a b : β} (ha : l.length < 2 * l.countP (fun x => m x = a))
    (hb : l.length < 2 * l.countP (fun x => m x = b)) : a = b := by
  by_contra h
  have hle : l.countP (fun x => m x = a) ≤ l.countP (fun x => ! decide (m x = b)) := by
    refine List.countP_mono_left fun x _ hx => ?_
    simp only [decide_eq_true_eq] at hx
    simp [hx, h]
  have hsum := List.length_eq_countP_add_countP (fun x => decide (m x = b)) (l := l)
  simp only [decide_not, Bool.decide_eq_true] at hsum hle
  omega

/-- The lanes with a wrong marker are those that differ from the value of the majority, where one has it. -/
theorem markErrs_majority (act : List Nat) (marks : List (Option Nat)) {c : Option Nat}
    (h : act.length < 2 * act.countP (fun j => marks.getD j none = c)) : markErrs act marks = act.filter (fun j => marks.getD j none ≠ c) := by
  obtain ⟨j, hj, hc⟩ : ∃ j ∈ act, marks.getD j none = c := by
    have hpos : 0 < act.countP (fun j => marks.getD j none = c) := by omega
    simpa using List.countP_pos_iff.mp hpos
  unfold markErrs
  dsimp only
  split
  · rename_i k hk
    have hmaj := List.find?_some hk
    simp only [decide_eq_true_eq] at hmaj
    have hc' := majority_unique act (fun j => marks.getD j none) hmaj h
    subst hc'
    rfl
  · rename_i hk
    refine absurd ?_ (List.find?_eq_none.mp hk j hj)
    subst hc
    exact decide_eq_true h

theorem trackingHold_holds {k : Nat} (hs : (s.lk n).state = 2) (hg : (s.goodLanes n).testBit k = true) (ht : (s.lane n k).heardAt + 2622 ≤ tt) :
    doTrackingHold n k tt s = (s.at tt).upLane n k (fun x => { x with hold := true }) := if_pos (by simp [hs, hg, ht])

/-- A link that leaves electrical idle sends a burst on each active lane, and its idle timer starts again. -/
theorem idleExit_wakes (hs : (s.lk n).state = 3) (hl : s.power.lull = 0) (hn : n < s.links.length) :
    (doElectricalIdleExit n tt s).lk n = { s.lk n with state := 2, idleSince := (s.at tt).dtime } ∧
      (doElectricalIdleExit n tt s).out = s.out ++ (bitList 4 (s.lk n).active).map (s.burstOut n) := by
  have hbody : doElectricalIdleExit n tt s = (s.at tt).linkUsed n := if_pos (by simp [hs, hl])
  rw [hbody, linkUsed_wakes (s := s.at tt) hs hn]
  exact ⟨upLk_lk_same (s.at tt) n _ hn, rfl⟩

end

/-- Settles O27, by what each of the commands does to its link and sends on it. -/
theorem linkBlocks : Obligations.LinkBlocks := by
  refine ⟨fun s n tt d hd ht hup hn => ⟨_, rfl, ackSend_sends hd ht hup hn⟩, fun s n v tt hup ht hok hw hn => ?_,
    fun s n tt hs hn => ⟨fun ht hi => ?_, fun v ht => ⟨_, rfl, eiBlock_idles hs hn ht⟩, fun ht => ⟨_, rfl, alignMarkerSend_sends hs hn ht⟩,
      fun ht => congrArg Host.Outcome.next (if_pos (by simp [ht]))⟩,
    fun s n tt hs hl hn => ⟨_, rfl, idleExit_wakes hs hl hn⟩, fun s n k tt hs hg ht hn hk => ?_, fun s n marks tt hup => ?_⟩
  · obtain ⟨he, hr, ⟨l, hout, hm⟩, hc⟩ := nakBlock_replays (tt := tt) hup ht hok hw hn rfl rfl
    exact ⟨_, _, _, l, rfl, rfl, rfl, he, hr, hout, hm, hc⟩
  · have hbody : doElectricalIdleEntry n tt s = (s.at tt).goIdle n := if_pos (by simp [hs, ht, hi])
    exact ⟨_, congrArg Host.Outcome.next hbody, goIdle_idle (s := s.at tt) hn⟩
  · refine ⟨_, congrArg Host.Outcome.next (trackingHold_holds hs hg ht), upLane_lane_same (s.at tt) n k _ hn hk, fun j hj => ?_, rfl⟩
    exact upLane_lane_ne (s.at tt) n _ hn hj
  · exact ⟨_, _, congrArg Host.Outcome.next (if_neg (by simp [hup])), rfl, fun c hc => markErrs_majority _ _ hc⟩

end Sys2Proof.Machine
end

