-- ==== Sys2Proof/Proofs/LinksTrain.lean ====
section
namespace Sys2Proof.Machine

/-! ### PL_n_CTL and LINK_RETRY (R569, R591) -/

theorem findReg_plCtl : ∀ n < 4, findReg (F.PL_CTL_EN.off [n]) = some (rowPlCtl, [n]) := by decide

/-- A write of PL_n_CTL writes EN. -/
theorem plCtl_en (s : State) {n : Nat} (v : W64) (hn : n < 4) :
    (s.writeFields (F.PL_CTL_EN.off [n]) v).rb F.PL_CTL_EN [n] = (fget v 0 1 == 1) := by
  have hf : ⟨0, 1, .rw, .c, 0, 1, 0, none⟩ ∈ rowPlCtl.flds.flatMap Fld.spread := by decide
  unfold State.rb
  rw [rf_writeFields_rw (f := F.PL_CTL_EN) (findReg_plCtl n hn) hf]
  rfl

/-- A link that is not up, once disabled, reads as disabled after its revivals have failed too. -/
theorem failRevives_state (s : State) (n : Nat) : ((s.failRevives n).lk n).state = (s.lk n).state := by
  have hkeep (l : List (Nat × Nat)) (u : State) : (l.foldl (fun s d => s.finish d.1 d.2 St.hwFault) u).links = u.links := by
    induction l generalizing u with
    | nil => rfl
    | cons d r ih =>
      obtain ⟨h, g, o, e⟩ := sends_finish u d.1 d.2 St.hwFault
      rw [List.foldl_cons, ih, e]
  unfold State.failRevives
  dsimp only
  rw [State.lk, hkeep]
  by_cases hn : n < s.links.length
  · show ((s.upLk n _).lk n).state = _
    rw [upLk_lk_same s n _ hn]
  · show ((s.links.modify n _).getD n {}).state = (s.links.getD n {}).state
    rw [List.getD_eq_default _ _ (by simpa using hn), List.getD_eq_default _ _ (Nat.not_lt.mp hn)]

section
variable {s : State} {n : Nat} {v : W64}

theorem linkEnable_trains (hn : n < 4) (hl : s.hasLink n = true) (hv : fget v 0 1 = 1) (ho : s.rb F.PL_CTL_EN [n] = false) :
    doLinkEnable n v s = (s.writeFields (F.PL_CTL_EN.off [n]) v).train n := by
  unfold doLinkEnable
  rw [if_neg (by simp [hl])]
  dsimp only
  rw [plCtl_en s v hn, hv, ho]
  rfl

theorem linkEnable_disables (hn : n < 4) (hl : s.hasLink n = true) (hv : fget v 0 1 = 0) (ho : s.rb F.PL_CTL_EN [n] = true) :
    doLinkEnable n v s = ((s.writeFields (F.PL_CTL_EN.off [n]) v).linkGone n 0).failRevives n := by
  unfold doLinkEnable
  rw [if_neg (by simp [hl])]
  dsimp only
  rw [plCtl_en s v hn, hv, ho]
  rfl

/-- RETIRED has four bits: one that is not all ones leaves a lane. -/
theorem lane_left (h : s.lanesRetired n ≠ 15) : ∃ k < 4, (s.lanesRetired n).testBit k = false := by
  by_contra hall
  push Not at hall
  have hlt : s.lanesRetired n < 2 ^ 4 := fget_lt _ _ _
  refine h (Nat.eq_of_testBit_eq fun i => ?_)
  by_cases hi : i < 4
  · rw [show s.lanesRetired n |>.testBit i from by simpa using hall i hi]
    interval_cases i <;> rfl
  · rw [Nat.testBit_lt_two_pow (Nat.lt_of_lt_of_le hlt (Nat.pow_le_pow_right (by decide) (Nat.not_lt.mp hi))),
      Nat.testBit_lt_two_pow (Nat.lt_of_lt_of_le (by decide : 15 < 2 ^ 4) (Nat.pow_le_pow_right (by decide) (Nat.not_lt.mp hi)))]

/-! ### TRAIN (R568) -/

/-- The state once the place that a TRAIN block names is taken over. -/
def State.partnerAt (s : State) (n : Nat) (v : W64) : State :=
  (s.setRf F.PL_STAT_PARTNER_POS [n] (fget v 8 5)).setRf F.PL_STAT_PARTNER_LINK [n] (fget v 13 2)

theorem partnerAt_place (s : State) (n : Nat) (v : W64) : (s.partnerAt n v).rf F.PL_STAT_PARTNER_POS [n] = fget v 8 5 ∧
    (s.partnerAt n v).rf F.PL_STAT_PARTNER_LINK [n] = fget v 13 2 := by
  unfold State.partnerAt
  rw [rf_setRf_disjoint _ F.PL_STAT_PARTNER_LINK F.PL_STAT_PARTNER_POS [n] [n] _ rfl (by decide) (by decide),
    rf_setRf_same _ _ _ _ (by decide), rf_setRf_same _ _ _ _ (by decide)]
  exact ⟨Nat.mod_eq_of_lt (fget_lt _ _ _), Nat.mod_eq_of_lt (fget_lt _ _ _)⟩

/-- A good TRAIN block of the index that the lane expects. -/
theorem trainBlock_expected {k tt : Nat} (hl : s.hasLink n = true) (hk : k < 4) (h0 : fget v 0 8 = 0x2D) (h1 : fget v 24 24 = 0x5AC3E1)
    (hok : blockOk v = true) (hlull : s.power.lull = 0) (ht : (s.lane n k).training = true) (hlane : fget v 15 2 = k)
    (hset : fget v 17 1 = (s.lane n k).setting) (hidx : fget v 18 6 = (s.lane n k).idx) : doTrainBlock n k v tt s =
      if fget v 18 6 < 63 then ((s.at tt).partnerAt n v).upLane n k (fun x => { x with idx := fget v 18 6 + 1 })
      else
        let u := ((s.at tt).partnerAt n v).upLane n k (fun x => { x with idx := 0, bursts := x.bursts + 1 })
        if (s.lane n k).bursts + 1 < 16 then u else if u.partnerReports then u.draw.laneTrained n k else u.draw := by
  have hat : (s.at tt).lane n k = s.lane n k := rfl
  have hat' : ((s.at tt).partnerAt n v).lane n k = s.lane n k := rfl
  unfold doTrainBlock
  rw [if_neg (by simp [hl, Nat.not_le.mpr hk])]
  dsimp only
  rw [if_neg (by simp [h0, h1, hok]), if_neg (show ¬ (s.at tt).power.lull ≠ 0 from not_not.mpr hlull), if_neg (by simp [hat, ht]), if_neg (by simp [hat, hlane, hset])]
  show (if fget v 18 6 ≠ (((s.at tt).partnerAt n v).lane n k).idx then _ else _) = _
  rw [hat', if_neg (by simp [hidx])]
  rfl

/-! ### Attempts and block errors (R561, R568) -/

theorem attempt_lane {k a : Nat} (hn : n < s.links.length) (hk : k < (s.lk n).lanes.length) : (s.attempt n k a).lane n k =
    { s.lane n k with training := true, locked := false, setting := s.attemptSetting n a, attemptAt := s.dtime, bursts := 0, idx := 0, errs := [] } :=
  (upLane_lane_same (s.setRf F.PL_LANE_ATTEMPTS [n, k] a) n k _ hn hk).trans rfl

theorem attempt_lanes_length {k a : Nat} (hn : n < s.links.length) : ((s.attempt n k a).lk n).lanes.length = (s.lk n).lanes.length := by
  show (((s.setRf F.PL_LANE_ATTEMPTS [n, k] a).upLane n k _).lk n).lanes.length = _
  rw [upLane_lk_same (s.setRf F.PL_LANE_ATTEMPTS [n, k] a) n k _ hn]
  exact List.length_modify _ _ _

theorem attemptTimeout_next {k tt : Nat} (ht : (s.lane n k).training = true) (hd : (s.lane n k).attemptAt + 300000 ≤ tt) :
    doTrainingAttemptTimeout n k tt s = if s.rf F.PL_LANE_ATTEMPTS [n, k] < 6 then
      ((s.at tt).attempt n k (s.rf F.PL_LANE_ATTEMPTS [n, k] + 1)).upLane n k (fun y => { y with lost := (s.lane n k).lost })
    else (s.at tt).laneFailed n k := by
  unfold doTrainingAttemptTimeout
  exact if_neg (by simp [ht, Nat.not_lt.mpr hd])

/-- The first block error of a lane is kept with its time, starts the count of bursts again, and is counted. -/
theorem blockErr_first {k : Nat} (hn : n < s.links.length) (hk : k < (s.lk n).lanes.length) (he : (s.lane n k).errs = []) :
    (s.blockErr n k).lane n k = { s.lane n k with bursts := 0, idx := 0, errs := [s.dtime] } ∧
      (s.blockErr n k).rf F.PL_LANE_BLK_ERR [n, k] = satAdd 24 (s.rf F.PL_LANE_BLK_ERR [n, k]) 1 := by
  have hlane := upLane_lane_same (s.incRf F.PL_LANE_BLK_ERR [n, k]) n k (fun x => { x with
    bursts := 0, idx := 0, errs := (s.dtime :: x.errs).filter (fun t => s.dtime ≤ t + 2629) }) hn hk
  have herrs : (s.dtime :: (s.lane n k).errs).filter (fun t => s.dtime ≤ t + 2629) = [s.dtime] := by
    rw [he]
    simp
  have hl : (s.incRf F.PL_LANE_BLK_ERR [n, k]).lane n k = s.lane n k := rfl
  rw [hl, herrs] at hlane
  have hbody : s.blockErr n k = (s.incRf F.PL_LANE_BLK_ERR [n, k]).upLane n k (fun x => { x with
      bursts := 0, idx := 0, errs := (s.dtime :: x.errs).filter (fun t => s.dtime ≤ t + 2629) }) := by
    unfold State.blockErr
    refine if_neg ?_
    rw [hlane]
    exact Nat.not_le.mpr (by decide : 1 < 16)
  rw [hbody]
  exact ⟨hlane, (rf_congr rfl _ _).trans (rf_incRf_same s _ _ _ (by decide))⟩

/-! ### LANE_REVIVE (R578) -/

/-- A lane that is revived begins its attempts, which leaves the descriptors in flight. -/
theorem revives_desc (l : List Nat) (u : State) (sq idx : Nat) :
    (l.foldl (fun s k => (s.attempt n k 1).upLane n k (fun x => { x with revive := some (sq, idx) })) u).host = u.host := by
  induction l generalizing u with
  | nil => rfl
  | cons k r ih => rw [List.foldl_cons, ih]; rfl

theorem laneRevive_begins {sq idx : Nat} {d : Desc} {ks : List Nat} (hd : Safety.ready s sq idx 0x60 d) (hn : n = fld d.bytes 16 1)
    (hks : ks = (bitList 4 (fld d.bytes 17 1)).filter (fun k => (s.lanesRetired n).testBit k)) (hl : s.hasLink n = true) (h4 : n < 4)
    (hen : s.rb F.PL_CTL_EN [n] = true) (hne : ks ≠ []) (hm : fld d.bytes 17 1 < 16) (hz : zeroes d.bytes 18 46 = true) :
    doLaneRevive sq idx s = ks.foldl (fun s k => (s.attempt n k 1).upLane n k (fun x => { x with revive := some (sq, idx) }))
      ((if (s.lk n).state = 4 then (s.begin sq idx).train n else s.begin sq idx).upLk n (fun l => { l with
        state := if l.state = 4 then 1 else l.state })) := by
  unfold doLaneRevive
  rw [withDesc_of_ready hd]
  dsimp only
  rw [← hn, ← hks, if_neg (by simp [hl, h4]), if_neg (by simp [hen, hne, hm, hz])]
  rfl

theorem laneRevive_desc {sq idx : Nat} {d : Desc} (ks : List Nat) (hd : Safety.ready s sq idx 0x60 d) :
    (ks.foldl (fun s k => (s.attempt n k 1).upLane n k (fun x => { x with revive := some (sq, idx) }))
      ((if (s.lk n).state = 4 then (s.begin sq idx).train n else s.begin sq idx).upLk n (fun l => { l with
        state := if l.state = 4 then 1 else l.state }))).desc sq idx = some { d with started := true } := by
  have hhost : (if (s.lk n).state = 4 then (s.begin sq idx).train n else s.begin sq idx).host = (s.begin sq idx).host := by
    split
    · obtain ⟨g, l, o, e⟩ := train_eq (s.begin sq idx) n
      rw [e]
    · rfl
  unfold State.desc
  rw [revives_desc]
  show (if (s.lk n).state = 4 then (s.begin sq idx).train n else s.begin sq idx).host.inflight.find? _ = _
  rw [hhost]
  exact begin_desc hd.1

/-! ### RING_CFG (R596, R597) -/

/-- Steps that each leave a state as it is leave it as it is in a row. -/
theorem foldl_fixed_mem {α β : Type} {f : α → β → α} {a : α} (l : List β) (h : ∀ x ∈ l, f a x = a) : l.foldl f a = a := by
  induction l with
  | nil => rfl
  | cons x r ih => rw [List.foldl_cons, h x List.mem_cons_self, ih (fun y hy => h y (List.mem_cons_of_mem _ hy))]

theorem findReg_ringCfg : findReg (F.RING_CFG_POS.off []) = some (rowRingCfg, []) := by decide

theorem ringCfg_place (s : State) (v : W64) : (s.writeFields (F.RING_CFG_POS.off []) v).pos = fget v 0 5 ∧
    (s.writeFields (F.RING_CFG_POS.off []) v).ringLen = fget v 5 6 := by
  have hp : ⟨0, 5, .rw, .p, 0, 1, 0, none⟩ ∈ rowRingCfg.flds.flatMap Fld.spread := by decide
  have hl : ⟨5, 6, .rw, .p, 1, 1, 0, none⟩ ∈ rowRingCfg.flds.flatMap Fld.spread := by decide
  exact ⟨rf_writeFields_rw (f := F.RING_CFG_POS) (i := []) findReg_ringCfg hp, rf_writeFields_rw (f := F.RING_CFG_N) (i := []) findReg_ringCfg hl⟩

/-- A new place is taken when nothing holds the old one; with no link enabled none is trained (R596). -/
theorem ringCfg_moves (hlt : fget v 0 5 < fget v 5 6) (hnew : fget v 0 5 ≠ s.pos ∨ fget v 5 6 ≠ s.ringLen) (hheld : s.ringCfgHeld = false)
    (hen : ∀ n < 4, s.rb F.PL_CTL_EN [n] = false) (h2 : (s.lk 2).state ≠ 5) : doRingCfgWrite v s =
      { s.writeFields (F.RING_CFG_POS.off []) v with
        ringT := { (s.writeFields (F.RING_CFG_POS.off []) v).ringT with aligned := false } } := by
  have hsame : (decide (fget v 0 5 = s.pos) && decide (fget v 5 6 = s.ringLen)) = false := by
    rcases hnew with h | h
    · simp [h]
    · simp [h]
  obtain ⟨u, hu⟩ : ∃ u : State, u = { s.writeFields (F.RING_CFG_POS.off []) v with
    ringT := { (s.writeFields (F.RING_CFG_POS.off []) v).ringT with aligned := false } } := ⟨_, rfl⟩
  have hoff (n : Nat) (hn : n < 4) : u.rb F.PL_CTL_EN [n] = false := by
    have hne : F.PL_CTL_EN.off [n] ≠ F.RING_CFG_POS.off [] := by
      simp only [RF.off, F.PL_CTL_EN, F.RING_CFG_POS, strideOff]
      omega
    rw [← hen n hn, hu]
    exact congrArg (· == 1) (writeFields_rf_ne s v F.PL_CTL_EN [n] hne)
  have hskip : ([0, 1, 3].foldl (fun s n => if s.hasLink n && s.rb F.PL_CTL_EN [n] then (s.linkGone n 4).train n else s) u) = u := by
    refine foldl_fixed_mem _ fun n hn => if_neg ?_
    rw [hoff n (by fin_cases hn <;> decide), Bool.and_false]
    decide
  have hu2 : (u.lk 2).state ≠ 5 := by
    obtain ⟨g, hg⟩ := writeFields_eq s (F.RING_CFG_POS.off []) v
    rw [hu, hg]
    exact h2
  unfold doRingCfgWrite
  dsimp only
  rw [if_neg (Nat.not_le.mpr hlt), if_neg (by simp [hheld]), if_neg (by rw [hsame]; decide), ← hu, hskip, if_neg hu2]

theorem ringCfg_refused (hlt : fget v 0 5 < fget v 5 6) (hnew : fget v 0 5 ≠ s.pos ∨ fget v 5 6 ≠ s.ringLen) (hheld : s.ringCfgHeld = true) :
    doRingCfgWrite v s = s.setRf F.RING_STAT_CFG_REJECT [] 1 := by
  have hsame : (decide (fget v 0 5 = s.pos) && decide (fget v 5 6 = s.ringLen)) = false := by
    rcases hnew with h | h
    · simp [h]
    · simp [h]
  unfold doRingCfgWrite
  dsimp only
  rw [if_neg (Nat.not_le.mpr hlt), if_pos (by rw [hsame, hheld]; rfl)]

theorem ringCfg_keeps (hlt : fget v 0 5 < fget v 5 6) (hp : fget v 0 5 = s.pos) (hl : fget v 5 6 = s.ringLen)
    (h5 : ∀ n < 4, (s.lk n).state ≠ 5) : doRingCfgWrite v s =
      if (s.writeFields (F.RING_CFG_POS.off []) v).rb F.RING_CFG_AUTO_ALIGN && !s.rb F.RING_CFG_AUTO_ALIGN then
        (s.writeFields (F.RING_CFG_POS.off []) v).alignStart else s.writeFields (F.RING_CFG_POS.off []) v := by
  have hskip : (List.range 4).foldl (fun u n => if (u.lk n).state = 5 then u.train n else u) (s.writeFields (F.RING_CFG_POS.off []) v) =
      s.writeFields (F.RING_CFG_POS.off []) v := by
    obtain ⟨g, hg⟩ := writeFields_eq s (F.RING_CFG_POS.off []) v
    refine foldl_fixed_mem _ fun n hn => if_neg ?_
    rw [hg]
    exact h5 n (List.mem_range.mp hn)
  unfold doRingCfgWrite
  dsimp only
  rw [if_neg (Nat.not_le.mpr hlt), if_neg (by simp [hp, hl]), if_pos (by simp [hp, hl]), hskip]

end

/-- Settles O26, by what each of the commands does to its link, its lane or the ring's place. -/
theorem linksTrain : Obligations.LinksTrain := by
  refine ⟨fun s n v hw hn hl hs => ?_, fun s n tt h4 hen hr hh ht => congrArg Host.Outcome.next (if_pos (by simp [h4, hen, hr, hh, ht])),
    fun s n k v tt hl hk => ⟨_, rfl, fun hbad => ?_, fun h0 h1 hok hlull ht hlane hset hidx hn hkl => ?_⟩,
    fun s n k tt ht hd => ⟨_, rfl, fun ha => ?_, fun ha => (attemptTimeout_next ht hd).trans (if_neg (Nat.not_lt.mpr ha))⟩,
    fun s n k tt => rfl, fun s n k tt he => congrArg Host.Outcome.next (if_neg (by simpa using he)),
    fun s n tt hup => congrArg Host.Outcome.next (if_pos hup), fun s n k tt ht hx => ?_,
    fun s n k tt hl hk hst => ⟨_, rfl, if_neg (by simp [hl, hst, hk]), fun hn hkl he => ?_⟩, fun s sq idx d hd => ?_, fun s v hw => ?_⟩
  · have hrun : exec (.linkEnable n v) s = .next (doLinkEnable n v s.written) := congrArg Host.Outcome.next (busWrite_of_writable hw)
    obtain ⟨g, hg⟩ := writeFields_eq s.written (F.PL_CTL_EN.off [n]) v
    have hlen : n < (s.written.writeFields (F.PL_CTL_EN.off [n]) v).links.length := by
      rw [hg]
      exact hs.2.2.2.1.symm ▸ hn
    refine ⟨_, _, hrun, rfl, fun hv ho => ?_, fun hv ho => ?_⟩
    · refine ⟨linkEnable_trains hn hl hv ho, fun h1 h2 h3 h15 => ?_⟩
      rw [linkEnable_trains (s := s.written) hn hl hv ho]
      have hret : (s.written.writeFields (F.PL_CTL_EN.off [n]) v).lanesRetired n = s.lanesRetired n := by
        refine writeFields_rf_ne s.written v F.PL_STAT_RETIRED [n] ?_
        simp only [RF.off, F.PL_CTL_EN, F.PL_STAT_RETIRED, strideOff]
        omega
      refine train_state _ n hlen ?_ ?_ ?_ (hret ▸ lane_left h15)
      · rw [hg]
        exact h1
      · rw [hg]
        exact h2
      · rw [hg]
        exact h3
    · refine ⟨linkEnable_disables hn hl hv ho, fun hup => ?_⟩
      rw [linkEnable_disables (s := s.written) hn hl hv ho]
      have hup' : (s.written.writeFields (F.PL_CTL_EN.off [n]) v).linkUp n = false := by
        rw [hg]
        exact hup
      exact (failRevives_state _ n).trans (linkGone_down _ n 0 hup' hlen).1
  · show doTrainBlock n k v tt s = _
    unfold doTrainBlock
    rw [if_neg (by simp [hl, Nat.not_le.mpr hk])]
    refine if_pos ?_
    rcases hbad with h | h | h
    · simp [h]
    · simp [h]
    · simp [h]
  · have hrun := trainBlock_expected (tt := tt) hl hk h0 h1 hok hlull ht hlane hset hidx
    have hlane' (f : Lane → Lane) : (((s.at tt).partnerAt n v).upLane n k f).lane n k = f (s.lane n k) :=
      upLane_lane_same ((s.at tt).partnerAt n v) n k f hn hkl
    refine ⟨fun hlt => ?_, fun he hb => ?_, fun he hb => ⟨_, ?_, hlane' (fun x => { x with idx := 0, bursts := x.bursts + 1 })⟩⟩
    · rw [hrun, if_pos hlt]
      have hregs : (((s.at tt).partnerAt n v).upLane n k (fun x => { x with idx := fget v 18 6 + 1 })).regs = ((s.at tt).partnerAt n v).regs := rfl
      rw [rf_congr hregs, rf_congr hregs]
      exact ⟨hlane' _, partnerAt_place (s.at tt) n v⟩
    · rw [hrun, if_neg (by omega)]
      dsimp only
      rw [if_pos hb]
      exact hlane' _
    · rw [hrun, if_neg (by omega)]
      exact if_neg (by omega)
  · refine ⟨(attemptTimeout_next ht hd).trans (if_pos ha), fun hn hkl => ?_⟩
    have hlen : n < ((s.at tt).attempt n k (s.rf F.PL_LANE_ATTEMPTS [n, k] + 1)).links.length := by
      rw [attempt_links_length]
      exact hn
    have hlanes : k < (((s.at tt).attempt n k (s.rf F.PL_LANE_ATTEMPTS [n, k] + 1)).lk n).lanes.length := by
      rw [attempt_lanes_length (s := s.at tt) hn]
      exact hkl
    rw [attemptTimeout_next ht hd, if_pos ha, upLane_lane_same _ n k _ hlen hlanes, attempt_lane (s := s.at tt) hn hkl]
    exact ⟨rfl, rfl, rfl⟩
  · have hgo : ¬ (!(s.lane n k).training || !((s.lane n k).lost || (s.lane n k).revive.isSome)) = true := by
      rcases hx with h | h
      · simp [ht, h]
      · simp [ht, Option.isSome_iff_ne_none.mpr h]
    exact ⟨congrArg Host.Outcome.next ((if_neg hgo).trans (if_pos rfl)),
      congrArg Host.Outcome.next ((if_neg hgo).trans (if_neg (by decide)))⟩
  · have hrun : doBlockError n k tt s = (s.at tt).blockErr n k := if_neg (by simp [hl, hst, hk])
    obtain ⟨hlane, hcount⟩ := blockErr_first (s := s.at tt) hn hkl he
    rw [hrun, hlane]
    exact ⟨rfl, rfl, rfl, hcount⟩
  · refine ⟨_, _, _, rfl, rfl, rfl, fun h => ?_, fun hl h4 h => ?_, fun hl h4 hen hne hm hz => ?_⟩
    · unfold doLaneRevive
      rw [withDesc_of_ready hd]
      exact if_pos (by simpa using h)
    · unfold doLaneRevive
      rw [withDesc_of_ready hd]
      dsimp only
      rw [if_neg (by simp [hl, h4])]
      refine if_pos ?_
      rcases h with h | h | h | h
      · simp [h]
      · rw [h]
        simp
      · simp [h]
      · simp [h]
    · rw [laneRevive_begins hd rfl rfl hl h4 hen hne hm hz]
      exact ⟨rfl, laneRevive_desc _ hd⟩
  · have hrun : exec (.ringCfgWrite v) s = .next (doRingCfgWrite v s.written) := congrArg Host.Outcome.next (busWrite_of_writable hw)
    refine ⟨_, hrun, fun hle => if_pos hle, fun hlt hnew => ⟨fun hheld => ?_, fun hheld hen h2 => ?_⟩, fun hlt hp hl h5 => ⟨_, rfl, ?_⟩⟩
    · exact ringCfg_refused (s := s.written) hlt hnew hheld
    · obtain ⟨g, hg⟩ := writeFields_eq s.written (F.RING_CFG_POS.off []) v
      obtain ⟨hpos, hlen⟩ := ringCfg_place s.written v
      rw [ringCfg_moves (s := s.written) hlt hnew hheld hen h2]
      refine ⟨hpos, hlen, ?_, ?_⟩
      · rw [hg]
        rfl
      · rw [hg]
        rfl
    · exact ringCfg_keeps (s := s.written) hlt hp hl h5

end Sys2Proof.Machine
end

