-- ==== Sys2Proof/Proofs/ActiveRole.lean ====
section
namespace Sys2Proof.Machine

/-! ### What a change of the pair's state tells (R606) -/

/-- From s to t only tasks, registers and what the host is told may have changed. -/
def Told (s t : State) : Prop := ∃ p h g o, t = { s with paddock := p, host := h, regs := g, out := o }

theorem Told.refl (s : State) : Told s s := ⟨_, _, _, _, rfl⟩

theorem Told.trans {s t u : State} (h : Told s t) (g : Told t u) : Told s u := by
  obtain ⟨_, _, _, _, rfl⟩ := h
  obtain ⟨_, _, _, _, rfl⟩ := g
  exact ⟨_, _, _, _, rfl⟩

theorem Told.pair {s t : State} (h : Told s t) : t.pair = s.pair := by
  obtain ⟨_, _, _, _, rfl⟩ := h
  rfl

theorem Told.mem {s t : State} (h : Told s t) : t.mem = s.mem := by
  obtain ⟨_, _, _, _, rfl⟩ := h
  rfl

theorem Sends.told {s t : State} (h : Sends s t) : Told s t := by
  obtain ⟨_, _, _, rfl⟩ := h
  exact ⟨_, _, _, _, rfl⟩

theorem Placed.told {s t : State} (h : Placed s t) : Told s t := by
  obtain ⟨⟨_, _, rfl⟩, -⟩ := h
  exact ⟨_, _, _, _, rfl⟩

theorem told_ready (s : State) (tid : Nat) : Told s (s.ready tid) := by
  unfold State.ready
  refine Told.trans (t := State.check7 _) ?_ (placed_placeTask _ _ _).told
  unfold State.check7
  split
  · exact ⟨_, _, _, _, rfl⟩
  · exact ⟨_, _, _, _, rfl⟩

theorem told_upTask (s : State) (tid : Nat) (f : Task → Task) : Told s (s.upTask tid f) := ⟨_, _, _, _, rfl⟩

theorem told_setFlags (s : State) (tid m : Nat) : Told s (s.setFlags tid m) := by
  unfold State.setFlags
  split
  · exact .refl s
  · dsimp only
    split
    · exact .refl s
    · split
      · exact (told_upTask s tid _).trans ((told_upTask _ tid _).trans (told_ready _ tid))
      · exact told_upTask s tid _

theorem told_flagAll (s : State) (m : Nat) : Told s (s.flagAll m) :=
  foldl_inv (Told s) _ (fun _ x h => h.trans (told_setFlags _ x m)) _ s (.refl s)

theorem told_mirrorEvent (s : State) (sub aux p0 p1 : Nat) : Told s (s.mirrorEvent sub aux p0 p1) := (sends_queueEvent s _).told

/-- With no task on the chip no flag is set. -/
theorem flagAll_idle {s : State} (h : s.paddock.tasks = []) (m : Nat) : s.flagAll m = s := by
  unfold State.flagAll
  rw [h]
  rfl

/-- A change of the pair's state changes nothing else of the pair. -/
theorem told_pairTo (s : State) (st sub : Nat) : Told { s with pair := { s.pair with state := st } } (s.pairTo st sub) := by
  unfold State.pairTo
  split
  · rename_i h
    subst h
    exact .refl s
  · exact (told_flagAll _ _).trans (told_mirrorEvent _ _ _ _ _)

/-- A pair that was SYNCING is EXPOSED, and has no whole copy to take over from (R614). -/
theorem pairExpose_syncing {s : State} (h : s.pair.state = 2) : Told { s with pair := { s.pair with
    snapSeq := none, sent := [], partnerJoin := none, was := false, queue := [], state := 4 } } s.pairExpose := by
  unfold State.pairExpose
  dsimp only
  rw [if_pos h, h, if_pos (by decide)]
  simp only [ne_eq, not_true_eq_false, decide_false, Bool.and_false]
  exact told_pairTo _ 4 3

/-! ### Claims (R601, R602) -/

/-- PAIR_STAT is none of the registers that an event may set. -/
theorem mirrorEvent_claimLost (s : State) (sub aux p0 p1 : Nat) :
    (s.mirrorEvent sub aux p0 p1).rf F.PAIR_STAT_CLAIM_LOST = s.rf F.PAIR_STAT_CLAIM_LOST := by
  unfold State.rf State.mirrorEvent
  rw [queueEvent_reg_ne _ _ (by decide) (by decide)]

/-- A claim of the host's that fails. -/
theorem withdraw_host {s : State} (h : s.pair.claimFor = 0) :
    Sends { s with pair := { s.pair with drive := false, claim := 0, claimFor := 0 } } s.withdraw ∧
      s.withdraw.rf F.PAIR_STAT_CLAIM_LOST = 1 := by
  have hbody : s.withdraw = ((({ s with pair := { s.pair with drive := false, claim := 0, claimFor := 0 } } : State).setRf
      F.PAIR_STAT_CLAIM_LOST [] 1).mirrorEvent 0x0A) := by
    unfold State.withdraw
    dsimp only
    rw [h, if_neg (by decide), if_neg (by decide)]
  rw [hbody]
  refine ⟨Sends.trans ⟨_, _, _, rfl⟩ (sends_queueEvent _ _), ?_⟩
  rw [mirrorEvent_claimLost, rf_setRf_same _ _ _ _ (by decide)]
  rfl

/-- The state with its claim of the active role for f begun. -/
def State.claiming (s : State) (f : Nat) : State :=
  { s with pair := { s.pair with drive := true, claimAt := s.dtime, claimFor := f, claim := if s.pair.partner then 1 else 2 } }

theorem startClaim_begins {s : State} {f : Nat} (h : s.pair.partner = false ∨ s.rf F.PAIR_STAT_RING ≠ 1) : s.startClaim f = s.claiming f := by
  unfold State.startClaim
  refine if_neg ?_
  rcases h with h | h
  · simp [h]
  · simp [h]

theorem startClaim_meets {s : State} {f : Nat} (hp : s.pair.partner = true) (hr : s.rf F.PAIR_STAT_RING = 1) :
    s.startClaim f = (s.claiming f).withdraw := by
  unfold State.startClaim
  exact if_pos (by simp [hp, hr])

section
variable {s : State} {v : W64} {tt : Nat}

/-- A claim by the host begins with PAIR_CTL written. -/
theorem doClaim_starts (hv : fget v 0 1 = 1) (hm : s.mirrored = true) (ht : s.hasTether = true) (hr : s.pair.role ≠ 1) (hc : s.pair.claim = 0)
    (hb : s.ballastOn = false) : doClaim v s = (s.writeFields (F.PAIR_CTL_CLAIM.off []) v).startClaim 0 := by
  unfold doClaim
  dsimp only
  rw [if_neg (by simp [hv]), if_neg (by simp [hm, ht, hr, hc, hb])]

theorem doClaim_acts (hv : fget v 0 1 = 1) (hm : s.mirrored = true) (ht : s.hasTether = true) (hr : s.pair.role ≠ 1) (hc : s.pair.claim = 0)
    (hb : s.ballastOn = false) : (doClaim v s).mem = s.mem ∧ (doClaim v s).paddock = s.paddock ∧
      (s.pair.partner = false → (doClaim v s).pair = { s.pair with drive := true, claimAt := s.dtime, claimFor := 0, claim := 2 }) ∧
      (s.pair.partner = true → s.rf F.PAIR_STAT_RING ≠ 1 →
        (doClaim v s).pair = { s.pair with drive := true, claimAt := s.dtime, claimFor := 0, claim := 1 }) ∧
      (s.pair.partner = true → s.rf F.PAIR_STAT_RING = 1 →
        (doClaim v s).pair = { s.pair with drive := false, claimAt := s.dtime, claimFor := 0, claim := 0 } ∧
        (doClaim v s).rf F.PAIR_STAT_CLAIM_LOST = 1) := by
  have hring : (s.writeFields (F.PAIR_CTL_CLAIM.off []) v).rf F.PAIR_STAT_RING = s.rf F.PAIR_STAT_RING :=
    writeFields_rf_ne s v F.PAIR_STAT_RING [] (by decide)
  rw [doClaim_starts hv hm ht hr hc hb]
  obtain ⟨g, hg⟩ := writeFields_eq s (F.PAIR_CTL_CLAIM.off []) v
  rw [hg] at hring ⊢
  by_cases hmeet : s.pair.partner = true ∧ s.rf F.PAIR_STAT_RING = 1
  · obtain ⟨hp, hr1⟩ := hmeet
    obtain ⟨hs, hlost⟩ := withdraw_host (s := ({ s with regs := g } : State).claiming 0) rfl
    rw [startClaim_meets (s := { s with regs := g }) hp (hring.trans hr1)]
    exact ⟨hs.mem, hs.paddock, fun h => absurd hp (by simp [h]), fun _ h => absurd hr1 h, fun _ _ => ⟨hs.pair, hlost⟩⟩
  · have hgo : s.pair.partner = false ∨ ({ s with regs := g } : State).rf F.PAIR_STAT_RING ≠ 1 := by
      rw [hring]
      by_cases hp : s.pair.partner = true
      · exact .inr (fun h => hmeet ⟨hp, h⟩)
      · exact .inl (by simpa using hp)
    rw [startClaim_begins (s := { s with regs := g }) hgo]
    refine ⟨rfl, rfl, fun h => ?_, fun h _ => ?_, fun h h' => absurd ⟨h, h'⟩ hmeet⟩
    · simp [State.claiming, h]
    · simp [State.claiming, h]

theorem doClaimRelease_acts (hv : fget v 0 1 = 0) : (s.pair.state ≠ 0 → (doClaimRelease v s).pair = s.pair ∧
      (doClaimRelease v s).rf F.PAIR_CTL_CLAIM = s.rf F.PAIR_CTL_CLAIM) ∧
    (s.pair.state = 0 → s.mirrored = true → (doClaimRelease v s).pair = { s.pair with
      peOwn := false, drive := false, claim := 0, role := if s.pair.role = 1 then 0 else s.pair.role }) ∧
    ∃ g p, doClaimRelease v s = { s with regs := g, pair := p } := by
  have hbody : doClaimRelease v s = if s.pair.state ≠ 0 then
      (s.writeFields (F.PAIR_CTL_CLAIM.off []) v).setRf F.PAIR_CTL_CLAIM [] (s.rf F.PAIR_CTL_CLAIM)
      else if s.mirrored then (s.writeFields (F.PAIR_CTL_CLAIM.off []) v).releaseRole else s.writeFields (F.PAIR_CTL_CLAIM.off []) v := by
    unfold doClaimRelease
    dsimp only
    rw [if_neg (by simp [hv])]
  obtain ⟨g, hg⟩ := writeFields_eq s (F.PAIR_CTL_CLAIM.off []) v
  rw [hbody, hg]
  refine ⟨fun h => ?_, fun h hm => ?_, ?_⟩
  · rw [if_pos h, rf_setRf_same _ _ _ _ (by decide)]
    exact ⟨rfl, Nat.mod_eq_of_lt (fget_lt _ _ _)⟩
  · rw [if_neg (not_not.mpr h), if_pos hm]
    rfl
  · split
    · exact ⟨_, _, rfl⟩
    · split
      · exact ⟨_, _, rfl⟩
      · exact ⟨_, _, rfl⟩

/-! ### The partner's line (R601, R614) -/

theorem partnerRise_exposes (hp : s.pair.partner = true) (hr : s.pair.role = 2) (hst : s.pair.state = 2) (hc : s.pair.claim = 0) :
    Told { s.at tt with pair := { s.pair with
      partner := false, highSince := some tt, roseAt := tt, snapSeq := none, sent := ([] : List (Nat × Nat)), partnerJoin := none
      was := false, queue := ([] : List MItem), state := 4 } } (doPartnerActiveRise tt s) := by
  have hbody : doPartnerActiveRise tt s =
      ({ s.at tt with pair := { s.pair with partner := false, highSince := some tt, roseAt := tt } } : State).pairExpose := by
    unfold doPartnerActiveRise
    rw [if_neg (by simp [hp])]
    dsimp only
    rw [if_neg (by rw [show (s.at tt).pair = s.pair from rfl, hc]; decide)]
    exact if_pos (by rw [show (s.at tt).pair = s.pair from rfl, hr, hst]; decide)
  rw [hbody]
  exact pairExpose_syncing (s := { s.at tt with pair := { s.pair with partner := false, highSince := some tt, roseAt := tt } }) hst

theorem partnerRise_else (hp : s.pair.partner = true) (h : ¬ (s.pair.role = 2 ∧ s.pair.state = 2)) : doPartnerActiveRise tt s =
    { s.at tt with pair := { s.pair with
      partner := false, highSince := some tt, roseAt := tt, claim := if s.pair.claim = 1 then 2 else s.pair.claim,
      claimAt := if s.pair.claim = 1 then tt else s.pair.claimAt } } := by
  unfold doPartnerActiveRise
  rw [if_neg (by simp [hp])]
  dsimp only
  have h' : ¬ (decide ((s.at tt).pair.role = 2) && decide ((s.at tt).pair.state = 2)) = true := by
    simp only [Bool.and_eq_true, decide_eq_true_eq]
    exact h
  rw [if_neg h']
  by_cases hc : s.pair.claim = 1
  · rw [if_pos hc, if_pos hc]
    exact if_pos hc
  · rw [if_neg hc, if_neg hc]
    exact if_neg hc

theorem partnerFall_waits (hp : s.pair.partner = false) (h : s.pair.claim ≠ 2 ∨ s.rf F.PAIR_STAT_RING ≠ 1) : doPartnerActiveFall tt s =
    { s.at tt with pair := { s.pair with
      partner := true, highSince := none, claim := if s.pair.claim = 2 then 1 else s.pair.claim,
      claimAt := if s.pair.claim = 2 then tt else s.pair.claimAt } } := by
  unfold doPartnerActiveFall
  rw [if_neg (by simp [hp])]
  dsimp only
  by_cases hc : s.pair.claim = 2
  · rw [if_neg (show ¬ (s.at tt).pair.claim ≠ 2 from not_not.mpr hc), if_pos hc, if_pos hc]
    exact if_neg (h.resolve_left (not_not.mpr hc))
  · rw [if_neg hc, if_neg hc]
    exact if_pos hc

theorem partnerFall_withdraws (hp : s.pair.partner = false) (hc : s.pair.claim = 2) (hr : s.rf F.PAIR_STAT_RING = 1) :
    doPartnerActiveFall tt s = ({ s.at tt with pair := { s.pair with partner := true, highSince := none } } : State).withdraw := by
  unfold doPartnerActiveFall
  rw [if_neg (by simp [hp])]
  dsimp only
  rw [if_neg (show ¬ (s.at tt).pair.claim ≠ 2 from not_not.mpr hc)]
  exact if_pos hr

end

/-- Settles O24, by what each of the commands does to the pair. -/
theorem activeRole : Obligations.ActiveRole := by
  refine ⟨fun s v hw hv hm ht hr hc hb => ?_, fun s v hw hv => ?_, fun s tt hc hd hf => ?_, fun s tt hc hp hd hb => ?_,
    fun s tt hp hr hst hc => ?_, fun s tt hp h => congrArg Host.Outcome.next (partnerRise_else hp h),
    fun s tt hp h => congrArg Host.Outcome.next (partnerFall_waits hp h), fun s tt hp hc hr hf => ?_⟩
  · have hrun : exec (.claim v) s = .next (doClaim v s.written) := congrArg Host.Outcome.next (busWrite_of_writable hw)
    exact ⟨_, hrun, doClaim_acts (s := s.written) hv hm ht hr hc hb⟩
  · have hrun : exec (.claimRelease v) s = .next (doClaimRelease v s.written) := congrArg Host.Outcome.next (busWrite_of_writable hw)
    obtain ⟨hpaired, hfree, g, p, hframe⟩ := doClaimRelease_acts (s := s.written) hv
    exact ⟨_, hrun, hpaired, hfree, by rw [hframe]; rfl, by rw [hframe]; rfl⟩
  · have hbody : doClaimWaitExpiry tt s = (s.at tt).withdraw := if_pos (by simp [hc, hd])
    obtain ⟨hs, hlost⟩ := withdraw_host (s := s.at tt) hf
    exact ⟨_, congrArg Host.Outcome.next hbody, hs.pair, hlost, hs.dtime, hs.mem, hs.paddock⟩
  · have hbody : doClaimGuardExpiry tt s = (s.at tt).claimDone := if_pos (by simp [hc, hp, hd, hb])
    refine ⟨_, congrArg Host.Outcome.next hbody, fun h => ?_, fun h => ?_, fun h => ?_⟩
    · unfold State.claimDone
      rw [show (s.at tt).pair.claimFor = 0 from h]
      dsimp only
      rw [if_neg (by decide), if_neg (by decide)]
      rfl
    · unfold State.claimDone
      rw [show (s.at tt).pair.claimFor = 3 from h]
      dsimp only
      rw [if_neg (by decide), if_pos rfl]
      rfl
    · unfold State.claimDone
      refine if_pos ?_
      show (decide (s.pair.claimFor = 1) || decide (s.pair.claimFor = 2) || decide (s.pair.claimFor = 4)) = true
      simpa [or_assoc] using h
  · have h := partnerRise_exposes (tt := tt) hp hr hst hc
    refine ⟨_, rfl, ?_, ?_, ?_, ?_, h.mem⟩ <;> rw [h.pair]
  · obtain ⟨hs, hlost⟩ := withdraw_host (s := { s.at tt with pair := { s.pair with partner := true, highSince := none } }) hf
    exact ⟨_, congrArg Host.Outcome.next (partnerFall_withdraws hp hc hr), hlost, hs.pair⟩

end Sys2Proof.Machine
end

