-- ==== Sys2Proof/Proofs/MirrorPair.lean ====
section
namespace Sys2Proof.Machine

/-! ### Items sent to the partner (R609) -/

/-- An item that is sent is remembered as sent, which changes nothing else of the pair. -/
theorem tether_sends (s : State) (i : MItem) : ∃ l o x, s.tether i = { s with links := l, out := o, pair := { s.pair with sent := x } } := by
  unfold State.tether
  dsimp only
  obtain ⟨l, o, e⟩ := sends_eq (i.packets s.pos) s 2
  rw [e]
  exact ⟨_, _, _, rfl⟩

/-! ### The end of a pair (R607) -/

/-- From s to t the standby's reservations may have been let go of, in its vector caches and in its copy of the partner's bursts. -/
theorem clearShadow_clears (s : State) : ∃ c, s.clearShadow = { s with cache := c, pair := { s.pair with
    tasks := [], locks := [], bursts := [], dutpwr := [], maps := [], lostObjs := [], results := [], expressed := [], missing := [] } } := by
  have hfold (l : List ShadowBurst) (u : State) : ∃ c b, l.foldl (fun s b => s.releaseShadow b) u =
      { u with cache := c, pair := { u.pair with bursts := b } } := by
    induction l generalizing u with
    | nil => exact ⟨_, _, rfl⟩
    | cons x r ih =>
      obtain ⟨c, b, e⟩ := ih (u.releaseShadow x)
      exact ⟨c, b, by rw [List.foldl_cons, e]; rfl⟩
  unfold State.clearShadow
  obtain ⟨c, b, e⟩ := hfold s.pair.bursts s
  dsimp only
  rw [e]
  exact ⟨c, rfl⟩

theorem finishes_sends (l : List (Nat × Nat)) (s : State) (st : Nat) : Sends s (l.foldl (fun s d => s.finish d.1 d.2 st) s) :=
  foldl_inv (Sends s) _ (fun _ d h => h.trans (sends_finish _ d.1 d.2 st)) l s (.refl s)

/-- A standby's claim ends with its pair, and another one that the host did not write. -/
theorem dropClaim_drops (s : State) : ∃ c f d, s.dropClaim = { s with pair := { s.pair with claim := c, claimFor := f, drive := d } } ∧
    (s.pair.role = 2 → s.pair.claim ≠ 0 → c = 0 ∧ d = false) := by
  unfold State.dropClaim
  split
  · exact ⟨_, _, _, rfl, fun _ _ => ⟨rfl, rfl⟩⟩
  · rename_i h
    exact ⟨_, _, _, rfl, fun hr hc => absurd (by simp [hr, hc]) h⟩

/-- The state of a chip that has left its pair, but for the standby's copy and the descriptors that wait. -/
def State.unpaired (s : State) (sub : Nat) : State :=
  let u := s.dropClaim.pairTo 0 sub
  { u with pair := { u.pair with
    joins := [], switches := [], partnerJoin := none, queue := [], was := false, sent := [], snapSeq := none, unprot := [], digests := []
    unprotObjs := [], missing := [], following := false, role := if u.pair.role = 2 then 0 else u.pair.role } }

theorem pairEnd_unpaired (s : State) (sub st : Nat) : s.pairEnd sub st =
    (s.pair.joins ++ s.pair.switches).foldl (fun s d => s.finish d.1 d.2 st) (s.unpaired sub).clearShadow := rfl

theorem unpaired_leaves (s : State) (sub : Nat) : (s.unpaired sub).mem = s.mem ∧ (s.unpaired sub).pair.state = 0 ∧
    (s.unpaired sub).pair.queue = [] ∧ (s.unpaired sub).pair.joins = [] ∧
    (s.pair.role = 2 → s.pair.claim ≠ 0 → (s.unpaired sub).pair.claim = 0 ∧ (s.unpaired sub).pair.drive = false) ∧
    (s.unpaired sub).pair.role = (if s.pair.role = 2 then 0 else s.pair.role) ∧ (s.unpaired sub).pair.peOwn = s.pair.peOwn := by
  obtain ⟨c, f, d, hd, hclaim⟩ := dropClaim_drops s
  have htold := told_pairTo s.dropClaim 0 sub
  unfold State.unpaired
  dsimp only
  rw [htold.mem, htold.pair, hd]
  exact ⟨rfl, rfl, rfl, rfl, hclaim, rfl, rfl⟩

/-- What the pair of a chip is once it has ended. -/
theorem pairEnd_ends (s : State) (sub st : Nat) : ∃ c, Sends { s.unpaired sub with cache := c, pair := { (s.unpaired sub).pair with
    tasks := [], locks := [], bursts := [], dutpwr := [], maps := [], lostObjs := [], results := [], expressed := [], missing := [] } }
    (s.pairEnd sub st) := by
  obtain ⟨c, hc⟩ := clearShadow_clears (s.unpaired sub)
  rw [pairEnd_unpaired, hc]
  exact ⟨c, finishes_sends _ _ _⟩

section
variable {s : State} {sq idx tt : Nat} {d : Desc}

/-! ### PAIR_LEAVE, PAIR_JOIN, PAIR_SWITCH (R605, R607, R622) -/

theorem pairLeave_ends (hd : Safety.ready s sq idx 0x69 d) (h0 : s.pair.state ≠ 0) (hz : zeroes d.bytes 16 48 = true) :
    doPairLeave sq idx s = ((s.tether { kind := 12, key := [0] }).pairEnd 7 St.aborted).finish sq idx St.ok := by
  unfold doPairLeave
  rw [withDesc_of_ready hd]
  exact if_neg (by simp [h0, hz])

theorem pairLeave_leaves (hd : Safety.ready s sq idx 0x69 d) (h0 : s.pair.state ≠ 0) (hz : zeroes d.bytes 16 48 = true) {t : State}
    (ht : t = doPairLeave sq idx s) : t.pair.state = 0 ∧ t.pair.queue = [] ∧ t.pair.joins = [] ∧ t.pair.tasks = [] ∧
      t.pair.bursts = [] ∧ (s.pair.role = 2 → s.pair.claim ≠ 0 → t.pair.claim = 0 ∧ t.pair.drive = false) ∧
      (s.pair.role = 2 → t.pair.role = 0) ∧ (s.pair.role ≠ 2 → t.pair.role = s.pair.role ∧ t.pair.peOwn = s.pair.peOwn) ∧
      t.desc sq idx = none ∧ t.mem = s.mem := by
  obtain ⟨l, o, x, hu⟩ := tether_sends s { kind := 12, key := [0] }
  set u := s.tether { kind := 12, key := [0] } with hud
  obtain ⟨c, hend⟩ := pairEnd_ends u 7 St.aborted
  obtain ⟨hmem, hst, hq, hj, hclaim, hrole, hown⟩ := unpaired_leaves u 7
  have hfin := hend.trans (sends_finish _ sq idx St.ok)
  rw [pairLeave_ends hd h0 hz] at ht
  rw [← ht] at hfin
  have hpair : u.pair.role = s.pair.role ∧ u.pair.claim = s.pair.claim ∧ u.pair.peOwn = s.pair.peOwn ∧ u.mem = s.mem := by
    rw [hu]
    exact ⟨rfl, rfl, rfl, rfl⟩
  obtain ⟨hr, hc, ho, hm⟩ := hpair
  rw [hfin.pair, hfin.mem]
  refine ⟨hst, hq, hj, rfl, rfl, fun h2 hcl => hclaim (hr.trans h2) (hc ▸ hcl), fun h2 => ?_, fun h2 => ⟨?_, hown.trans ho⟩, ?_, hmem.trans hm⟩
  · exact hrole.trans (if_pos (hr.trans h2))
  · exact (hrole.trans (if_neg (hr ▸ h2))).trans hr
  · rw [ht]
    exact finish_desc _ _ _ _

/-- PAIR_JOIN that no check stops. -/
theorem pairJoin_eq (hd : Safety.ready s sq idx 0x68 d) (ht : s.hasTether = true) (hm : s.mirrored = true) (hz : zeroes d.bytes 16 48 = true)
    (hup : s.linkUp 2 = true) : doPairJoin sq idx s =
      if s.pair.state = 3 then (s.setRf F.PAIR_STAT_JOIN_CHECK [] 0).finish sq idx St.ok
      else
        let u : State := { (s.setRf F.PAIR_STAT_JOIN_CHECK [] 0).begin sq idx with pair := { s.pair with joins := s.pair.joins ++ [(sq, idx)] } }
        if s.pair.state ≠ 0 && !(s.pair.state = 4 && s.pair.role = 2 && !s.pair.was) then u
        else ((u.pairTo 1 1).tether (u.pairTo 1 1).joinInfo).joinTurn := by
  unfold doPairJoin
  rw [withDesc_of_ready hd, if_neg (by simp [ht, hm]), if_neg (by simp [hz]), if_neg (by simp [hup])]
  rfl

/-- The descriptor of a PAIR_JOIN that waits has begun. -/
theorem pairJoin_desc (hd : Safety.ready s sq idx 0x68 d) :
    ({ (s.setRf F.PAIR_STAT_JOIN_CHECK [] 0).begin sq idx with pair := { s.pair with joins := s.pair.joins ++ [(sq, idx)] } } : State).desc
      sq idx = some { d with started := true } := begin_desc (s := s.setRf F.PAIR_STAT_JOIN_CHECK [] 0) hd.1

/-! ### TAKEOVER (R614, R616) -/

/-- The takeover begins: TAKING_OVER is said, the queue is applied, the claim is made. -/
def State.takingOver (s : State) (tt : Nat) : State :=
  (applyAll ((({ s.at tt with pair := { s.pair with state := 5, queue := [] } } : State).flagAll 0x80).mirrorEvent 4 0 s.pair.roseAt)
    (s.pair.queue.filter (fun i => i.kind ≠ 10 && i.kind ≠ 13))).startClaim 1

theorem takeover_begins {h : Nat} (hr : s.pair.role = 2) (hp : s.pair.partner = false) (hh : s.pair.highSince = some h) (ht : h + 20000 ≤ tt)
    (hst : s.pair.state = 3 ∨ (s.pair.state = 4 ∧ s.pair.was = true)) (hb : s.ballastOn = false) (hc : s.pair.claim = 0) :
    doTakeover tt s = if (s.takingOver tt).rb F.PAIR_CTL_FOLLOW && 1 < (s.takingOver tt).ringLen then
      (s.takingOver tt).send 0 { typ := 0x33, seq := 0, fields := [(s.takingOver tt).pos, 4, 3] } else s.takingOver tt := by
  unfold doTakeover
  dsimp only
  rw [if_neg (by simpa [hr, hp, hh, ht, hb, hc] using or_iff_not_imp_left.mp hst)]
  rfl

theorem takingOver_pair (hp : s.pair.partner = false) (hq : s.pair.queue = []) (ht : s.paddock.tasks = []) :
    (s.takingOver tt).pair = { s.pair with state := 5, drive := true, claimAt := (s.at tt).dtime, claimFor := 1, claim := 2 } := by
  have hempty : ({ s.at tt with pair := { s.pair with state := 5, queue := [] } } : State) = { s.at tt with pair := { s.pair with state := 5 } } := by
    rw [← hq]
  have hbody : s.takingOver tt = (({ s.at tt with pair := { s.pair with state := 5 } } : State).mirrorEvent 4 0 s.pair.roseAt).startClaim 1 := by
    unfold State.takingOver
    rw [hempty, flagAll_idle (s := { s.at tt with pair := { s.pair with state := 5 } }) ht, hq]
    rfl
  have hs : Sends { s.at tt with pair := { s.pair with state := 5 } }
    (({ s.at tt with pair := { s.pair with state := 5 } } : State).mirrorEvent 4 0 s.pair.roseAt) := sends_queueEvent _ _
  rw [hbody, startClaim_begins (.inl ((congrArg Pair.partner hs.pair).trans hp))]
  unfold State.claiming
  dsimp only
  rw [hs.pair, hs.dtime]
  dsimp only
  rw [hp]
  rfl

/-! ### Packets of the Tether and of the ring (R609, R621) -/

theorem tetherPacket_adds {p : PlPacket} (hk : isPkt p = true) (hc : p.fields.getD 1 0 = 1) : doTetherPacket p tt s =
    let u := ((s.at tt).accept 2 p).1
    if ((s.at tt).accept 2 p).2 && u.hasTether then
      let i := (u.pair.partial'.getD { kind := p.fields.getD 3 0 }).append (p.fields.drop 4) p.data
      if p.fields.getD 2 0 ≠ 0 then { u with pair := { u.pair with partial' := some i } }
      else ({ u with pair := { u.pair with partial' := none } } : State).receiveItem i
    else u := by
  unfold doTetherPacket
  rw [if_neg (by simp [hk, ← List.getD_eq_getElem?_getD, hc])]

theorem follow_asks {p : PlPacket} {n : Nat} (hk : isPkt p = true) (hc : p.fields.getD 1 0 = 4) (h3 : p.fields.getD 2 0 = 3) (hn : n < 2) :
    doFollow n p tt s =
    let u := ((s.at tt).accept n p).1
    if !((s.at tt).accept n p).2 || p.fields.getD 0 0 = u.pos then u
    else
      let w := u.send 0 { p with seq := 0 }
      if w.pair.role = 2 && w.pair.state = 3 then ({ w with pair := { w.pair with following := true } } : State).tether { kind := 13, key := [0] }
      else w := by
  unfold doFollow
  rw [if_neg (by simp [hk, ← List.getD_eq_getElem?_getD, hc, h3])]
  simp only [Nat.not_le.mpr hn, decide_false, Bool.or_false]

end

/-- Settles O25, by what each of the commands does to the pair and sends to the partner. -/
theorem mirrorPair : Obligations.MirrorPair := by
  refine ⟨fun s sq idx d hd => ⟨_, rfl, fun h => ?_, fun ht hm hz => ⟨fun hup => ?_, fun hup h3 => ?_, fun hup h3 h0 h4 => ?_, fun hup h0 => ?_⟩⟩,
    fun s sq idx d hd h0 hz _ => ⟨_, rfl, pairLeave_leaves hd h0 hz rfl⟩, fun s sq idx d hd => ⟨_, rfl, fun h => ?_, fun h1 h3 hz => ?_⟩,
    fun s tt h hr hp hh ht hst hb hc => ⟨_, s.takingOver tt, congrArg Host.Outcome.next (takeover_begins hr hp hh ht hst hb hc), rfl, rfl,
      fun hq htask => takingOver_pair hp hq htask⟩,
    fun s tt i r hq => ?_, fun s p tt hk hc => ?_, fun s n p tt hk hc h3 hn => ?_, fun s n p tt hk hc => ?_, fun s n v tt hup ht hok h2 => ?_⟩
  · have hrun : doPairJoin sq idx s = s.finish sq idx St.absent := by
      unfold doPairJoin
      rw [withDesc_of_ready hd]
      refine if_pos ?_
      rcases h with h | h
      · simp [h]
      · simp [h]
    exact ⟨hrun, hrun ▸ finish_desc _ _ _ _⟩
  · show doPairJoin sq idx s = _
    unfold doPairJoin
    rw [withDesc_of_ready hd, if_neg (by simp [ht, hm]), if_neg (by simp [hz]), if_pos (by simp [hup])]
  · exact (pairJoin_eq hd ht hm hz hup).trans (if_pos h3)
  · have hwait : (decide (s.pair.state ≠ 0) && !(decide (s.pair.state = 4) && decide (s.pair.role = 2) && !s.pair.was)) = true := by
      rw [Bool.and_eq_true]
      exact ⟨decide_eq_true h0, by simpa [or_assoc, imp_iff_not_or] using h4⟩
    rw [(pairJoin_eq hd ht hm hz hup).trans (if_neg h3)]
    dsimp only
    rw [if_pos hwait]
    exact ⟨rfl, pairJoin_desc hd, rfl⟩
  · have h3 : s.pair.state ≠ 3 := by omega
    have hgo : ¬ (decide (s.pair.state ≠ 0) && !(decide (s.pair.state = 4) && decide (s.pair.role = 2) && !s.pair.was)) = true := by
      rcases h0 with h0 | ⟨h4, hr, hw⟩
      · simp [h0]
      · simp [h4, hr, hw]
    refine ⟨_, ?_, pairJoin_desc hd, (pairJoin_eq hd ht hm hz hup).trans ((if_neg h3).trans (if_neg hgo))⟩
    rfl
  · show doPairSwitch sq idx s = _
    unfold doPairSwitch
    rw [withDesc_of_ready hd]
    refine if_pos ?_
    rcases h with h | h | h
    · simp [h]
    · simp [h]
    · simp [h]
  · show doPairSwitch sq idx s = _
    unfold doPairSwitch
    rw [withDesc_of_ready hd, if_neg (by simp [h1, h3, hz])]
    rfl
  · have hrun : doMirroredItemApply tt s =
        let u := ({ s.at tt with pair := { s.pair with queue := r } } : State).applyItem i
        if r.isEmpty && u.pair.role = 2 && u.pair.state = 4 && u.linkUp 2 then u.tether { kind := 14, key := [1] } else u := by
      unfold doMirroredItemApply
      rw [hq]
      rfl
    refine ⟨_, _, congrArg Host.Outcome.next hrun, rfl, rfl, fun h => ?_, fun h => ?_, fun h => ?_⟩
    · unfold State.applyItem
      rw [h]
      rfl
    · unfold State.applyItem
      rw [h]
      rfl
    · unfold State.applyItem
      rw [h]
      rfl
  · have hpkt : doPktReceive 2 p tt s = doTetherPacket p tt s := by
      unfold doPktReceive
      dsimp only
      rw [if_neg (by simp [hk]), hc]
      rfl
    refine ⟨_, rfl, fun hok hte => ⟨_, (((s.at tt).accept 2 p).1.pair.partial'.getD { kind := p.fields.getD 3 0 }).append (p.fields.drop 4) p.data,
      rfl, fun hn => ?_, fun j hj => ?_, fun hf => ?_, fun hf => ?_⟩, fun hok => ?_, congrArg Host.Outcome.next hpkt⟩
    · rw [hn]
      rfl
    · rw [hj]
      rfl
    · rw [tetherPacket_adds hk hc]
      dsimp only
      rw [if_pos (by rw [hok, hte]; rfl), if_pos hf]
    · rw [tetherPacket_adds hk hc]
      dsimp only
      rw [if_pos (by rw [hok, hte]; rfl), if_neg (not_not.mpr hf)]
    · rw [tetherPacket_adds hk hc]
      exact if_neg (by rw [hok]; simp)
  · have hpkt : doPktReceive n p tt s = doFollow n p tt s := by
      unfold doPktReceive
      dsimp only
      rw [if_neg (by simp [hk]), hc, h3]
      simp [hn]
    have hrun := follow_asks (s := s) (tt := tt) hk hc h3 hn
    refine ⟨_, _, rfl, congrArg Host.Outcome.next hpkt, rfl, fun h => ?_, fun hok hp => ⟨_, rfl, ?_⟩⟩
    · rw [hrun]
      exact if_pos (by simpa using h)
    · rw [hrun]
      exact if_neg (by rw [hok]; simpa using hp)
  · refine congrArg Host.Outcome.next ?_
    unfold doPktReceive
    dsimp only
    generalize p.fields.getD 1 0 = c at hc
    have h1 : c ≠ 1 := by omega
    have h2 : c ≠ 2 := by omega
    have h3 : c ≠ 3 := by omega
    have h4 : c ≠ 4 := by omega
    simp [hk, h1, h2, h3, h4]
  · refine ⟨_, rfl, ?_⟩
    unfold doAckBlock
    rw [if_neg (by simp [hup, ht]), if_neg (by simp [hok])]
    exact if_pos h2

end Sys2Proof.Machine
end

