-- ==== Sys2Proof/Proofs/FaultsLatched.lean ====
section
namespace Sys2Proof.Machine

/-! ### Records and an island's own register (R630, R646, R653, R654) -/

theorem recOff (src w : Nat) : F.FLT_REC_REC.off [src, w] = 0x3800 + (32 * src + (8 * w + 0)) := rfl

theorem setRecWord_same (s : State) (src w v : Nat) : (s.setRecWord src w v).recWord src w = v % 2 ^ 64 := by
  unfold State.recWord State.setRecWord
  rw [reg_setReg_same, BitVec.toNat_ofNat]

theorem setRecWord_ne (s : State) {src w k x : Nat} (v : Nat) (hw : w < 4) (hx : x < 4) (h : k ≠ src ∨ x ≠ w) :
    (s.setRecWord src w v).recWord k x = s.recWord k x := by
  have hne : F.FLT_REC_REC.off [k, x] ≠ F.FLT_REC_REC.off [src, w] := by
    rw [recOff, recOff]
    omega
  unfold State.recWord State.setRecWord
  rw [reg_setReg_ne _ _ hne]

/-- A record is beside every register below the first. -/
theorem setRecWord_reg (s : State) (src w v : Nat) {o : Nat} (h : o < 0x3800) : (s.setRecWord src w v).reg o = s.reg o := by
  refine reg_setReg_ne _ _ ?_
  rw [recOff]
  omega

/-- The record of a first occurrence holds it, and nothing but records changes. -/
theorem capture_record (s : State) (r : Report) (inj : Bool) : (s.capture r inj).recWord r.src 0 = r.t % 2 ^ 64 ∧
    (s.capture r inj).recWord r.src 1 = r.where % 2 ^ 64 ∧
    (s.capture r inj).recWord r.src 2 = r.unitWord (if inj then 1 + 4 + 8 else 1 + 2) % 2 ^ 64 ∧
    (∀ o < 0x3800, (s.capture r inj).reg o = s.reg o) ∧ ∃ g, s.capture r inj = { s with regs := g } := by
  unfold State.capture
  dsimp only
  refine ⟨?_, ?_, ?_, fun o ho => ?_, _, rfl⟩
  · rw [setRecWord_ne _ _ (by decide) (by decide) (.inr (by decide)), setRecWord_ne _ _ (by decide) (by decide) (.inr (by decide)),
      setRecWord_ne _ _ (by decide) (by decide) (.inr (by decide)), setRecWord_same]
  · rw [setRecWord_ne _ _ (by decide) (by decide) (.inr (by decide)), setRecWord_ne _ _ (by decide) (by decide) (.inr (by decide)),
      setRecWord_same]
  · rw [setRecWord_ne _ _ (by decide) (by decide) (.inr (by decide)), setRecWord_same]
  · rw [setRecWord_reg _ _ _ _ ho, setRecWord_reg _ _ _ _ ho, setRecWord_reg _ _ _ _ ho, setRecWord_reg _ _ _ _ ho]

/-- An island's own register is beside every register below the first. -/
theorem islandLatch_keeps (s : State) (r : Report) :
    (∃ g, s.islandLatch r = { s with regs := g }) ∧ ∀ o < 0x3600, (s.islandLatch r).reg o = s.reg o := by
  have hne (o : Nat) (ho : o < 0x3600) (f : RF) (hf : f.st = [16]) (hb : 0x3600 ≤ f.base) : o ≠ f.off [r.island] := by
    simp only [RF.off, hf, strideOff]
    omega
  unfold State.islandLatch
  dsimp only
  split
  · exact ⟨⟨_, rfl⟩, fun o ho => reg_setRf_ne _ _ _ _ (hne o ho F.ISL_FLT_COUNT rfl (by decide))⟩
  · refine ⟨⟨_, rfl⟩, fun o ho => ?_⟩
    rw [reg_setReg_ne _ _ (hne o ho F.ISL_FLT_T_DTIME rfl (by decide)), reg_setRf_ne _ _ _ _ (hne o ho F.ISL_FLT_DETAIL rfl (by decide)),
      reg_setRf_ne _ _ _ _ (hne o ho F.ISL_FLT_UNIT rfl (by decide)), reg_setRf_ne _ _ _ _ (hne o ho F.ISL_FLT_SRC rfl (by decide)),
      reg_setRf_ne _ _ _ _ (hne o ho F.ISL_FLT_EVT rfl (by decide)), State.incRf,
      reg_setRf_ne _ _ _ _ (hne o ho F.ISL_FLT_COUNT rfl (by decide))]

/-! ### A first real occurrence whose reaction is I alone (R630, R634) -/

/-- The state in which a first occurrence stands: counted, its status bit set, its record captured. -/
def State.latched (s : State) (r : Report) : State :=
  let u := (s.islandLatch r).incRf F.FLT_CNT_COUNT [r.src]
  (u.setReg (F.FLT_STAT_STAT.off []) (u.reg (F.FLT_STAT_STAT.off []) ||| BitVec.ofNat 64 (2 ^ r.src))).capture r false

/-- Reaction I alone sends the event and writes the log. -/
theorem react_informs (s : State) (r : Report) : ∃ b, s.react r false true 1 = (s.faultEvent r 1).log 2 b := ⟨_, rfl⟩

theorem cntOff_ne (k : Nat) : F.FLT_STAT_STAT.off [] ≠ F.FLT_CNT_COUNT.off [k] := by
  simp only [RF.off, F.FLT_STAT_STAT, F.FLT_CNT_COUNT, strideOff]
  omega

theorem latched_stat (s : State) (r : Report) : (s.latched r).reg (F.FLT_STAT_STAT.off []) =
    s.reg (F.FLT_STAT_STAT.off []) ||| BitVec.ofNat 64 (2 ^ r.src) := by
  have hisl : (s.islandLatch r).reg (F.FLT_STAT_STAT.off []) = s.reg (F.FLT_STAT_STAT.off []) := (islandLatch_keeps s r).2 _ (by decide)
  unfold State.latched
  dsimp only
  rw [(capture_record _ r false).2.2.2.1 _ (by decide), reg_setReg_same, State.incRf, reg_setRf_ne _ _ _ _ (cntOff_ne _), hisl]

theorem latched_count (s : State) (r : Report) (h : r.src < 32) :
    (s.latched r).rf F.FLT_CNT_COUNT [r.src] = satAdd 32 (s.rf F.FLT_CNT_COUNT [r.src]) 1 := by
  have hlow : F.FLT_CNT_COUNT.off [r.src] < 0x3600 := by
    simp only [RF.off, F.FLT_CNT_COUNT, strideOff]
    omega
  have hisl : (s.islandLatch r).rf F.FLT_CNT_COUNT [r.src] = s.rf F.FLT_CNT_COUNT [r.src] :=
    congrArg (fun v => fget v 0 32) ((islandLatch_keeps s r).2 _ hlow)
  have hinc := rf_incRf_same (s.islandLatch r) F.FLT_CNT_COUNT [r.src] 1 (by decide)
  rw [hisl] at hinc
  unfold State.latched State.rf
  dsimp only
  rw [(capture_record _ r false).2.2.2.1 _ (Nat.lt_of_lt_of_le hlow (by decide)), reg_setReg_ne _ _ (cntOff_ne _).symm]
  exact hinc

theorem latched_eq (s : State) (r : Report) : ∃ g, s.latched r = { s with regs := g } := by
  obtain ⟨⟨g, hg⟩, -⟩ := islandLatch_keeps s r
  unfold State.latched
  dsimp only
  obtain ⟨-, -, -, -, g', hg'⟩ := capture_record ((((s.islandLatch r).incRf F.FLT_CNT_COUNT [r.src]).setReg (F.FLT_STAT_STAT.off [])
    (((s.islandLatch r).incRf F.FLT_CNT_COUNT [r.src]).reg (F.FLT_STAT_STAT.off []) ||| BitVec.ofNat 64 (2 ^ r.src)))) r false
  rw [hg', hg]
  exact ⟨g', rfl⟩

/-- The first real occurrence of a source whose reaction is I alone. -/
theorem latchFault_first {s : State} {r : Report} (hl : s.power.lull ≠ 2) (hc : s.hasColl = true) (hr : s.reactOf r.src = 1)
    (hs : (s.reg (F.FLT_STAT_STAT.off [])).toNat.testBit r.src = false) (mask : Nat) : ∃ b, s.latchFault r false mask =
      ((({ s with life := { s.life with faults := s.life.faults.modify r.src (fun n => satAdd 32 n 1) } } : State).latched r).faultEvent r 1).log 2 b := by
  set u : State := { s with life := { s.life with faults := s.life.faults.modify r.src (fun n => satAdd 32 n 1) } } with hu
  obtain ⟨⟨g, hg⟩, hkeep⟩ := islandLatch_keeps u r
  have hcoll : (u.islandLatch r).hasColl = true := by
    rw [hg]
    exact hc
  have hset : ((u.islandLatch r).reg (F.FLT_STAT_STAT.off [])).toNat.testBit r.src = false := by
    rw [hkeep _ (by decide)]
    exact hs
  obtain ⟨b, hb⟩ := react_informs (u.latched r) r
  refine ⟨b, Eq.trans ?_ hb⟩
  unfold State.latchFault
  rw [wakeChip_awake s 7 hl]
  simp only [Bool.false_eq_true, if_false, ← hu]
  rw [hr, if_neg (by rw [hcoll]; decide), if_neg (by rw [hset]; decide), hset]
  rfl

/-- What a first occurrence whose reaction is I alone leaves. -/
theorem first_latched {s : State} {r : Report} (hl : s.power.lull ≠ 2) (hc : s.hasColl = true) (hr : s.reactOf r.src = 1) (h32 : r.src < 32)
    (hs : (s.reg (F.FLT_STAT_STAT.off [])).toNat.testBit r.src = false) (mask : Nat) {t : State} (ht : t = s.latchFault r false mask) :
    t.reg (F.FLT_STAT_STAT.off []) = s.reg (F.FLT_STAT_STAT.off []) ||| BitVec.ofNat 64 (2 ^ r.src) ∧
      t.rf F.FLT_CNT_COUNT [r.src] = satAdd 32 (s.rf F.FLT_CNT_COUNT [r.src]) 1 ∧
      t.recWord r.src 0 = r.t % 2 ^ 64 ∧ t.recWord r.src 1 = r.where % 2 ^ 64 ∧ t.recWord r.src 2 = r.unitWord 3 % 2 ^ 64 ∧
      ∃ h g o l, t = { s with life := { s.life with faults := s.life.faults.modify r.src (fun n => satAdd 32 n 1) },
                              host := h, regs := g, out := o, logQ := l } := by
  obtain ⟨b, hb⟩ := latchFault_first hl hc hr hs mask
  rw [hb] at ht
  set u : State := { s with life := { s.life with faults := s.life.faults.modify r.src (fun n => satAdd 32 n 1) } } with hu
  have hreg (o : Nat) (ho : o < 0x5000) : t.reg o = (u.latched r).reg o := by
    have h1 : o ≠ F.HOST_ERR_RING.off [] := by
      show o ≠ 0x5010
      omega
    have h2 : o ≠ F.HOST_EVT_DROPPED_COUNT.off [] := by
      show o ≠ 0x5018
      omega
    have h3 : o ≠ F.LIFE_STAT_DROPPED.off [] := by
      show o ≠ 0xe208
      omega
    rw [ht, log_reg_ne _ _ _ h1 h2 h3]
    unfold State.faultEvent
    split
    · exact queueEvent_reg_ne _ _ h1 h2
    · exact queueEvent_reg_ne _ _ h1 h2
  have hrec (w : Nat) (hw : w < 4) : t.recWord r.src w = (u.latched r).recWord r.src w := by
    unfold State.recWord
    rw [hreg _ (by rw [recOff]; omega)]
  refine ⟨?_, ?_, ?_, ?_, ?_, ?_⟩
  · rw [hreg _ (by decide), latched_stat]
    rfl
  · have hlow : F.FLT_CNT_COUNT.off [r.src] < 0x5000 := by
      simp only [RF.off, F.FLT_CNT_COUNT, strideOff]
      omega
    refine Eq.trans ?_ (latched_count u r h32)
    unfold State.rf
    rw [hreg _ hlow]
  · rw [hrec 0 (by decide)]
    exact (capture_record _ r false).1
  · rw [hrec 1 (by decide)]
    exact (capture_record _ r false).2.1
  · rw [hrec 2 (by decide)]
    exact (capture_record _ r false).2.2.1
  · obtain ⟨g, hg⟩ := latched_eq u r
    have he : Sends (u.latched r) ((u.latched r).faultEvent r 1) := by
      unfold State.faultEvent
      split
      · exact sends_queueEvent _ _
      · exact sends_queueEvent _ _
    obtain ⟨h', g', o', e'⟩ := he
    obtain ⟨h'', g'', o'', l'', e''⟩ := log_eq ((u.latched r).faultEvent r 1) 2 b
    rw [ht, e'', e', hg]
    exact ⟨h'', g'', o'', l'', rfl⟩

/-! ### Clearing FLT_STAT (R630, R636) -/

theorem findReg_fltStat : findReg (F.FLT_STAT_STAT.off []) = some (rowFltStat, []) := by decide

/-- A register value as one field. -/
theorem fget_all (v : W64) : fget v 0 64 = v.toNat := by
  rw [fget, bitsOf_eq, Nat.pow_zero, Nat.div_one, Nat.mod_eq_of_lt v.isLt]

/-- A write of ones to FLT_STAT clears those bits. -/
theorem writeStat_bit (s : State) (v : W64) (k : Nat) : ((s.writeFields (F.FLT_STAT_STAT.off []) v).reg (F.FLT_STAT_STAT.off [])).toNat.testBit k =
    ((s.reg (F.FLT_STAT_STAT.off [])).toNat.testBit k && !v.toNat.testBit k) := by
  have hf : ⟨0, 64, .w1c, .p, 0, 1, 0, none⟩ ∈ rowFltStat.flds.flatMap Fld.spread := by decide
  have h := writeFields_field (s := s) (v := v) findReg_fltStat (findReg_ok findReg_fltStat) hf
  dsimp only at h
  rw [fget_all, fget_all, fget_all] at h
  rw [h]
  show ((((s.reg (F.FLT_STAT_STAT.off [])).toNat - ((s.reg (F.FLT_STAT_STAT.off [])).toNat &&& v.toNat)) % 2 ^ 64)).testBit k = _
  rw [Nat.mod_eq_of_lt (Nat.lt_of_le_of_lt (Nat.sub_le _ _) (BitVec.isLt _)), testBit_sub_and]

/-- Records whose VALID bit is cleared. -/
def State.invalid (s : State) (l : List Nat) : State := l.foldl (fun s k => s.setRecWord k 2 (setBits (s.recWord k 2) 24 1 0)) s

theorem invalid_keeps (l : List Nat) (s : State) : (∃ g, s.invalid l = { s with regs := g }) ∧
    (∀ o < 0x3800, (s.invalid l).reg o = s.reg o) ∧ (∀ k w, w < 4 → w ≠ 2 → (s.invalid l).recWord k w = s.recWord k w) ∧
    ∀ k, bitsOf ((s.invalid l).recWord k 2) 24 1 = if k ∈ l then 0 else bitsOf (s.recWord k 2) 24 1 := by
  induction l generalizing s with
  | nil => exact ⟨⟨_, rfl⟩, fun _ _ => rfl, fun _ _ _ _ => rfl, fun _ => rfl⟩
  | cons x r ih =>
    obtain ⟨⟨g, hg⟩, hlow, hother, hvalid⟩ := ih (s.setRecWord x 2 (setBits (s.recWord x 2) 24 1 0))
    refine ⟨⟨g, hg⟩, fun o ho => (hlow o ho).trans (setRecWord_reg _ _ _ _ ho),
      fun k w hw h2 => (hother k w hw h2).trans (setRecWord_ne _ _ (by decide) hw (.inr h2)), fun k => (hvalid k).trans ?_⟩
    by_cases hk : k = x
    · subst hk
      have hlt : setBits (s.recWord k 2) 24 1 0 < 2 ^ 64 := setBits_lt (BitVec.isLt _) (by decide)
      rw [setRecWord_same, Nat.mod_eq_of_lt hlt, bitsOf_setBits_same, if_pos (List.mem_cons_self)]
      exact ite_self _
    · rw [setRecWord_ne _ _ (by decide) (by decide) (.inl hk)]
      simp [hk]

theorem faultStatusClear_eq {s : State} (v : W64) (hc : s.hasColl = true) : doFaultStatusClear v s =
    { ((s.writeFields (F.FLT_STAT_STAT.off []) v).invalid (bitList 64 v.toNat)) with collector := { s.collector with
      holds := s.collector.holds - (s.collector.holds &&& v.toNat) } } := by
  obtain ⟨⟨g, hg⟩, -⟩ := invalid_keeps (bitList 64 v.toNat) (s.writeFields (F.FLT_STAT_STAT.off []) v)
  obtain ⟨g', hg'⟩ := writeFields_eq s (F.FLT_STAT_STAT.off []) v
  have hcoll : ((s.writeFields (F.FLT_STAT_STAT.off []) v).invalid (bitList 64 v.toNat)).collector = s.collector := by
    rw [hg, hg']
  unfold doFaultStatusClear
  rw [if_neg (by rw [hc]; decide)]
  exact congrArg (fun c : Collector => ({ (s.writeFields (F.FLT_STAT_STAT.off []) v).invalid (bitList 64 v.toNat) with
    collector := { c with holds := c.holds - (c.holds &&& v.toNat) } } : State)) hcoll

theorem faultStatusClear_clears {s : State} (v : W64) (hc : s.hasColl = true) {t : State} (ht : t = doFaultStatusClear v s) :
    (∀ k, t.collector.holds.testBit k = (s.collector.holds.testBit k && !v.toNat.testBit k)) ∧
    (∀ k, (t.reg (F.FLT_STAT_STAT.off [])).toNat.testBit k = ((s.reg (F.FLT_STAT_STAT.off [])).toNat.testBit k && !v.toNat.testBit k)) ∧
    (∀ k, k < 64 → bitsOf (t.recWord k 2) 24 1 = if v.toNat.testBit k then 0 else bitsOf (s.recWord k 2) 24 1) ∧
    (∀ k w, w < 4 → w ≠ 2 → t.recWord k w = s.recWord k w) ∧ ∃ g c, t = { s with regs := g, collector := c } := by
  obtain ⟨⟨g, hg⟩, hlow, hother, hvalid⟩ := invalid_keeps (bitList 64 v.toNat) (s.writeFields (F.FLT_STAT_STAT.off []) v)
  obtain ⟨g', hg'⟩ := writeFields_eq s (F.FLT_STAT_STAT.off []) v
  have hword (k w : Nat) : (s.writeFields (F.FLT_STAT_STAT.off []) v).recWord k w = s.recWord k w := by
    unfold State.recWord
    rw [writeFields_reg_ne _ _ (by rw [recOff]; show _ ≠ 0x3008; omega)]
  rw [faultStatusClear_eq v hc] at ht
  rw [ht]
  refine ⟨fun k => testBit_sub_and _ _ _, fun k => ?_, fun k hk => ?_, fun k w hw h2 => ?_, g,
    { s.collector with holds := s.collector.holds - (s.collector.holds &&& v.toNat) }, ?_⟩
  · rw [← writeStat_bit, ← hlow _ (by decide)]
    rfl
  · refine (hvalid k).trans ?_
    rw [hword]
    simp [bitList, hk]
  · exact (hother k w hw h2).trans (hword k w)
  · rw [hg, hg']

theorem oneBit_self {n : Nat} (h : n < 32) : (BitVec.ofNat 64 (2 ^ n)).toNat.testBit n = true := by
  rw [BitVec.toNat_ofNat, Nat.testBit_mod_two_pow, Nat.testBit_two_pow_self, decide_eq_true (by omega)]
  rfl

theorem oneBit_other {n k : Nat} (h : n < 32) (hk : k ≠ n) : (BitVec.ofNat 64 (2 ^ n)).toNat.testBit k = false := by
  rw [BitVec.toNat_ofNat, Nat.mod_eq_of_lt (Nat.pow_lt_pow_right (by decide) (by omega)), Nat.testBit_two_pow_of_ne hk.symm]

/-! ### FLT_INJ_CTL (R637, R638, R651) -/

section
variable {s : State} {v : W64}

/-- A write of GO without CANCEL, while no injection is armed. -/
theorem inject_goes (hc : s.hasColl = true) (h6 : fget v 6 1 = 0) (h7 : fget v 7 1 = 1) (ha : s.collector.armed = none) {u : State}
    (hu : u = s.writeFields (F.FLT_INJ_CTL_GO.off []) v) : s.writeInject v =
      if fget v 32 1 = 0 then
        if 32 ≤ fget v 0 6 || 30 ≤ fget v 8 5 then u.setRf F.FLT_INJ_STAT_REJECT [] 1
        else (u.incRf F.FLT_INJ_STAT_COUNT []).latchFault { src := fget v 0 6, island := fget v 8 5, unit := fget v 16 8, detail := 0, t := s.dtime }
          true (fget v 24 6)
      else if (fget v 0 6 ≠ 18 && fget v 0 6 ≠ 19) || !u.mcLive (u.rf F.FLT_INJ_ADDR_ADDR / 64 * 64 / 2 ^ 36) ||
          u.chanSize (u.rf F.FLT_INJ_ADDR_ADDR / 64 * 64 / 2 ^ 36) ≤ u.rf F.FLT_INJ_ADDR_ADDR / 64 * 64 % 2 ^ 36 then
        u.setRf F.FLT_INJ_STAT_REJECT [] 1
      else { u with collector := { s.collector with armed := some (u.rf F.FLT_INJ_ADDR_ADDR / 64 * 64, fget v 0 6 = 19) } } := by
  obtain ⟨g, hg⟩ := writeFields_eq s (F.FLT_INJ_CTL_GO.off []) v
  have hcoll : u.collector = s.collector ∧ u.dtime = s.dtime := by
    rw [hu, hg]
    exact ⟨rfl, rfl⟩
  have hcond : ¬ (u.collector.armed.isSome = true) := by
    rw [hcoll.1, ha]
    decide
  unfold State.writeInject
  rw [if_neg (by rw [hc]; decide)]
  dsimp only
  have h6' : ¬ fget v 6 1 = 1 := by
    rw [h6]
    decide
  simp only [← hu, if_neg h6']
  rw [if_neg (by rw [h7]; decide), if_neg hcond, hcoll.1, hcoll.2]

theorem inject_cancels (hc : s.hasColl = true) (h6 : fget v 6 1 = 1) (h7 : fget v 7 1 = 0) : s.writeInject v =
    { s.writeFields (F.FLT_INJ_CTL_GO.off []) v with collector := { s.collector with armed := none } } := by
  obtain ⟨g, hg⟩ := writeFields_eq s (F.FLT_INJ_CTL_GO.off []) v
  unfold State.writeInject
  rw [if_neg (by rw [hc]; decide)]
  dsimp only
  rw [if_pos h6, if_pos h7, hg]

/-- The registers an injection is checked against are beside FLT_INJ_CTL. -/
theorem inject_keeps {u : State} (hu : u = s.writeFields (F.FLT_INJ_CTL_GO.off []) v) (m : Nat) : u.rf F.FLT_INJ_ADDR_ADDR = s.rf F.FLT_INJ_ADDR_ADDR ∧
    u.mcLive m = s.mcLive m ∧ u.chanSize m = s.chanSize m := by
  have hmc : F.MC_STAT_CAP.off [m] ≠ F.FLT_INJ_CTL_GO.off [] := by
    simp only [RF.off, F.MC_STAT_CAP, F.FLT_INJ_CTL_GO, strideOff]
    omega
  obtain ⟨g, hg⟩ := writeFields_eq s (F.FLT_INJ_CTL_GO.off []) v
  refine ⟨?_, ?_, ?_⟩
  · rw [hu]
    exact writeFields_rf_ne s v _ _ (by decide)
  · unfold State.mcLive
    rw [hu, writeFields_rf_ne s v F.CAPS_LIVE_MC_LIVE [] (by decide), hg]
    rfl
  · unfold State.chanSize
    rw [hu, writeFields_rf_ne s v F.MC_STAT_CAP [m] hmc]

end

/-- Settles O22, by what a first occurrence, a self check and the writes of the collector's registers leave. -/
theorem faultsLatched : Obligations.FaultsLatched := by
  refine ⟨fun s src island unit detail addr r hsrc hisl hc hl hr hi hreact hbit => ?_, fun s tt => ?_, fun s v hw hc => ?_,
    fun s v hw hc h6 h7 ha h32 => ?_, fun s v hw hc h6 h7 ha h32 => ?_, fun s v hw hc h6 h7 => ?_⟩
  · have hfound := List.find?_some hr
    simp only [Bool.and_eq_true, decide_eq_true_eq] at hfound
    obtain ⟨⟨⟨hs, -⟩, -⟩, -⟩ := hfound
    subst hs
    set u : State := { s with collector := { s.collector with reports := s.collector.reports.erase r } } with hu
    have hrun : doFaultLatch r.src island unit detail addr s = u.latchFault r false (s.rf F.FLT_INJ_CTL_RMASK) := by
      unfold doFaultLatch
      rw [if_neg (by simp [Nat.not_le.mpr hsrc, Nat.not_le.mpr hisl])]
      dsimp only
      rw [hr]
      dsimp only
      rw [hi]
    obtain ⟨hstat, hcount, h0, h1, h2, h', g, o, l, hframe⟩ := first_latched (s := u) (r := r) hl hc hreact hsrc hbit _ rfl
    refine ⟨_, congrArg Host.Outcome.next hrun, ?_, ?_, fun k hk => ?_, hcount, h0, h1, h2, ?_⟩
    · rw [hframe]
    · rw [hstat, BitVec.toNat_or, Nat.testBit_or, oneBit_self hsrc, Bool.or_true]
    · rw [hstat, BitVec.toNat_or, Nat.testBit_or, oneBit_other hsrc hk, Bool.or_false]
      rfl
    · rw [hframe]
      exact ⟨rfl, rfl, rfl, rfl, rfl⟩
  · exact ⟨_, rfl, condOff_live _ _ _ _, fun x hx => condOff_live_ne (s.at tt) 0 29 0 hx, rfl, rfl⟩
  · have hrun : exec (.faultStatusClear v) s = .next (doFaultStatusClear v s.written) := congrArg Host.Outcome.next (busWrite_of_writable hw)
    obtain ⟨hholds, hstat, hvalid, hother, g, c, hframe⟩ := faultStatusClear_clears (s := s.written) v hc rfl
    exact ⟨_, hrun, hholds, hstat, hvalid, hother, by rw [hframe]; rfl, by rw [hframe]; rfl⟩
  · have hrun : exec (.faultInjection v) s = .next (s.written.writeInject v) := congrArg Host.Outcome.next (busWrite_of_writable hw)
    have hgo := inject_goes (s := s.written) hc h6 h7 ha rfl
    refine ⟨_, _, hrun, rfl, fun h1 h2 => ?_, fun h => ?_⟩
    · rw [hgo, if_pos h32, if_neg (by simp [Nat.not_le.mpr h1, Nat.not_le.mpr h2])]
      rfl
    · rw [hgo, if_pos h32, if_pos (by simpa using h)]
  · have hrun : exec (.addressInjection v) s = .next (s.written.writeInject v) := congrArg Host.Outcome.next (busWrite_of_writable hw)
    have hgo := inject_goes (s := s.written) hc h6 h7 ha rfl
    have h32' : ¬ fget v 32 1 = 0 := by
      rw [h32]
      decide
    refine ⟨_, _, _, hrun, rfl, rfl, fun hsrc hlive hsize => ?_, fun h18 h19 => ?_⟩
    · obtain ⟨haddr, hmc, hcap⟩ := inject_keeps (s := s.written) (v := v) rfl (s.rf F.FLT_INJ_ADDR_ADDR / 64 * 64 / 2 ^ 36)
      have haddr' : (s.written.writeFields (F.FLT_INJ_CTL_GO.off []) v).rf F.FLT_INJ_ADDR_ADDR = s.rf F.FLT_INJ_ADDR_ADDR := haddr
      have hok : ¬ ((decide (fget v 0 6 ≠ 18) && decide (fget v 0 6 ≠ 19)) ||
          !(s.written.writeFields (F.FLT_INJ_CTL_GO.off []) v).mcLive (s.rf F.FLT_INJ_ADDR_ADDR / 64 * 64 / 2 ^ 36) ||
          decide ((s.written.writeFields (F.FLT_INJ_CTL_GO.off []) v).chanSize (s.rf F.FLT_INJ_ADDR_ADDR / 64 * 64 / 2 ^ 36) ≤
            s.rf F.FLT_INJ_ADDR_ADDR / 64 * 64 % 2 ^ 36)) = true := by
        have hlive' : s.written.mcLive (s.rf F.FLT_INJ_ADDR_ADDR / 64 * 64 / 2 ^ 36) = true := hlive
        have hsize' : ¬ s.written.chanSize (s.rf F.FLT_INJ_ADDR_ADDR / 64 * 64 / 2 ^ 36) ≤ s.rf F.FLT_INJ_ADDR_ADDR / 64 * 64 % 2 ^ 36 :=
          Nat.not_le.mpr hsize
        rw [hmc, hcap, hlive', decide_eq_false hsize']
        rcases hsrc with h | h
        · rw [h]
          decide
        · rw [h]
          decide
      rw [hgo, if_neg h32', haddr', if_neg hok]
      rfl
    · rw [hgo, if_neg h32', if_pos (by simp [h18, h19])]
  · have hrun : exec (.injCancel v) s = .next (s.written.writeInject v) := congrArg Host.Outcome.next (busWrite_of_writable hw)
    obtain ⟨g, hg⟩ := writeFields_eq s.written (F.FLT_INJ_CTL_GO.off []) v
    refine ⟨_, hrun, ?_⟩
    rw [inject_cancels (s := s.written) hc h6 h7, hg]
    exact ⟨rfl, rfl, rfl⟩

end Sys2Proof.Machine
end

