-- ==== Sys2Proof/Proofs/BallastAndLull.lean ====
section
namespace Sys2Proof.Machine

section
variable {s : State} {sq idx : Nat} {d : Desc}

/-- Ballast, once engaged, reads as engaged (R643, R652). -/
theorem engage_engaged (h : s.ballastOn = false) (src : Nat) (inj : Bool) : (s.engage src inj).collector.ballast = 2 := by
  unfold State.engage
  rw [if_neg (by rw [h]; decide)]
  dsimp only
  rw [(sends_queueEvent _ _).collector]

theorem enterLull_lull (s : State) : s.enterLull.power.lull = 2 := by
  unfold State.enterLull
  dsimp only

/-- An event leaves the descriptors in flight. -/
theorem health_desc (a b c e f sq idx : Nat) : (s.health a b c e f).desc sq idx = s.desc sq idx := by
  unfold State.desc State.health
  rw [queueEvent_inflight]

/-- LULL_ENTER that is not refused completes with OK in Lull, says so, and L1 follows its enable. -/
theorem lullEnter_enters (hd : Safety.ready s sq idx 0x70 d) (hb : s.ballastOn = false) (hz : zeroes d.bytes 16 48 = true)
    (hr : s.lullRefusal = 0) : ∃ u, Sends s.enterLull u ∧ u.desc sq idx = none ∧
      doLullEnter sq idx s = { u with host := { u.host with l1 := u.host.pci.l1En } } := by
  refine ⟨(s.enterLull.finish sq idx St.ok).health 5 0 0, (sends_finish _ _ _ _).trans (sends_health _ _ _ _ _ _), ?_, ?_⟩
  · rw [health_desc, finish_desc]
  · unfold doLullEnter
    rw [withDesc_of_ready hd, if_neg (by rw [hb]; decide), if_neg (by rw [hz]; decide)]
    dsimp only
    rw [if_neg (not_not.mpr hr)]

theorem lullEnter_refused (hd : Safety.ready s sq idx 0x70 d) (hb : s.ballastOn = false) (hz : zeroes d.bytes 16 48 = true)
    (hr : s.lullRefusal ≠ 0) : doLullEnter sq idx s = (s.setRf F.LULL_STAT_REFUSE [] s.lullRefusal).finish sq idx St.bad := by
  unfold doLullEnter
  rw [withDesc_of_ready hd, if_neg (by rw [hb]; decide), if_neg (by rw [hz]; decide)]
  exact if_pos hr

end

/-- Settles O23, by what the writes and LULL_ENTER do, each case by its condition. -/
theorem ballastAndLull : Obligations.BallastAndLull := by
  refine ⟨fun s v hw => ?_, fun s sq idx d hd hb hz => ⟨fun hr => ?_, fun hr => ?_⟩, fun s v hw => ?_,
    fun s tt h0 ht => congrArg Host.Outcome.next (if_pos (by simp [h0, ht])), fun s tt h => congrArg Host.Outcome.next (if_neg ?_)⟩
  · have hrun : exec (.ballastEngageWrite v) s = .next (doBallastEngageWrite v s.written) := congrArg Host.Outcome.next (busWrite_of_writable hw)
    obtain ⟨g, hg⟩ := writeFields_eq s.written (F.BALLAST_CTL_ENGAGE.off []) v
    refine ⟨_, s.written.writeFields (F.BALLAST_CTL_ENGAGE.off []) v, hrun, rfl, fun h0 => ?_,
      fun h1 hb => ⟨(s.written.writeFields (F.BALLAST_CTL_ENGAGE.off []) v).engage 31 false, rfl, engage_engaged ?_ 31 false, ?_⟩⟩
    · unfold doBallastEngageWrite
      dsimp only
      rw [if_pos h0]
    · rw [hg]
      exact hb
    · unfold doBallastEngageWrite
      dsimp only
      rw [if_neg (by rw [h1]; decide), hg]
      rfl
  · obtain ⟨u, hs, hdesc, hrun⟩ := lullEnter_enters hd hb hz hr
    refine ⟨_, congrArg Host.Outcome.next hrun, ?_⟩
    dsimp only
    rw [hs.power, hs.mem, hs.clusters]
    exact ⟨rfl, enterLull_lull s, rfl, hdesc, rfl, rfl⟩
  · have hs : Sends s ((s.setRf F.LULL_STAT_REFUSE [] s.lullRefusal).finish sq idx St.bad) :=
      Sends.trans ⟨_, _, _, rfl⟩ (sends_finish _ _ _ _)
    have hrun := lullEnter_refused hd hb hz hr
    exact ⟨_, congrArg Host.Outcome.next hrun, rfl, finish_desc _ _ _ _, hs.power, hs.mem⟩
  · have hrun : exec (.lullWake v) s = .next (doLullWake v s.written) := congrArg Host.Outcome.next (busWrite_of_writable hw)
    obtain ⟨g, hg⟩ := writeFields_eq s.written (F.LULL_CTL_WAKE.off []) v
    refine ⟨_, _, hrun, rfl, fun h1 => if_pos h1, fun h => ?_⟩
    by_cases h1 : fget v 0 1 = 1
    · have hawake : (s.written.writeFields (F.LULL_CTL_WAKE.off []) v).power.lull ≠ 2 := by
        rw [hg]
        exact h.resolve_left (by rw [h1]; decide)
      exact (if_pos h1).trans (wakeChip_awake _ _ hawake)
    · exact if_neg h1
  · rcases h with h | h
    · simp [h]
    · simp [Nat.not_le.mpr h]

end Sys2Proof.Machine
end

