-- ==== Sys2Proof/Proofs/MemoryTraffic.lean ====
section
namespace Sys2Proof

/-! ### The transfers of a request (R538) -/

/-- What holds of the transfers of a request: they make up its size, none is too long or across a page, and each carries its requester. -/
def ArbReq.Cut (r : ArbReq) (ps : List ArbReq) : Prop :=
  (ps.map ArbReq.size).sum = r.size ∧ ∀ p ∈ ps, p.size ≤ 1024 ∧ p.addr % 2 ^ 36 % 1792 + p.size ≤ 1792 ∧ p.id = r.id ∧ p.write = r.write

/-- A request that fits its page is one transfer. -/
theorem ArbReq.cut_whole {r : ArbReq} (h : r.size ≤ min 1024 (1792 - r.addr % 2 ^ 36 % 1792)) : r.Cut [r] := by
  have hp : r.addr % 2 ^ 36 % 1792 < 1792 := Nat.mod_lt _ (by decide)
  refine ⟨by simp, fun p hm => ?_⟩
  rw [List.mem_singleton.mp hm]
  exact ⟨by omega, by omega, rfl, rfl⟩

/-- A longer one begins with a transfer of n bytes, and its rest is cut in the same way. -/
theorem ArbReq.cut_cons {r : ArbReq} {n : Nat} {ps : List ArbReq} (hn : n = min 1024 (1792 - r.addr % 2 ^ 36 % 1792)) (hs : n ≤ r.size)
    (h : ArbReq.Cut { r with addr := r.addr + n, size := r.size - n } ps) : r.Cut ({ r with size := n } :: ps) := by
  have hp : r.addr % 2 ^ 36 % 1792 < 1792 := Nat.mod_lt _ (by decide)
  obtain ⟨hsum, hps⟩ := h
  refine ⟨?_, fun p hm => ?_⟩
  · rw [List.map_cons, List.sum_cons, hsum]
    dsimp only
    omega
  · rcases List.mem_cons.mp hm with rfl | hm
    · exact ⟨by dsimp only; omega, by dsimp only; omega, rfl, rfl⟩
    · exact hps p hm

theorem ArbReq.pieces_cut (k : Nat) : ∀ r : ArbReq, r.size < k → r.Cut (r.pieces k) := by
  induction k with
  | zero => exact fun r h => absurd h (Nat.not_lt_zero _)
  | succ k ih =>
    intro r h
    have hp : r.addr % 2 ^ 36 % 1792 < 1792 := Nat.mod_lt _ (by decide)
    simp only [ArbReq.pieces]
    split
    · next hf => exact ArbReq.cut_whole hf
    · next hf => exact ArbReq.cut_cons rfl (by omega) (ih _ (by dsimp only; omega))

end Sys2Proof

namespace Sys2Proof.Machine

/-! ### The requests that wait -/

/-- A change of a channel's queue and of the time of its oldest real-time request alone. -/
def QueueOnly (f : Mc → Mc) : Prop := ∀ c, ∃ q t, f c = { c with queue := q, rtAt := t }

theorem upMc_id (s : State) (m : Nat) : s.upMc m (fun c => c) = s := by
  unfold State.upMc
  rw [show (fun c : Mc => c) = id from rfl, List.modify_id]

theorem upMc_upMc (s : State) (m : Nat) (f g : Mc → Mc) : (s.upMc m f).upMc m g = s.upMc m (g ∘ f) := by
  unfold State.upMc
  dsimp only
  rw [List.modify_modify_eq]

/-- Requests that arrive change the queue of their channel alone. -/
theorem arriveAll_eq (m : Nat) (reqs : List ArbReq) : ∀ s : State, ∃ f, QueueOnly f ∧ s.arriveAll m reqs = s.upMc m f := by
  induction reqs with
  | nil => exact fun s => ⟨_, fun c => ⟨_, _, rfl⟩, (upMc_id s m).symm⟩
  | cons r rs ih =>
    intro s
    obtain ⟨f, hf, h⟩ := ih (s.arrive m r)
    unfold State.arriveAll at h ⊢
    rw [List.foldl_cons, h]
    unfold State.arrive
    split
    · exact ⟨f, hf, rfl⟩
    · refine ⟨_, fun c => ?_, upMc_upMc _ _ _ _⟩
      obtain ⟨q, t, h⟩ := hf { c with queue := c.queue ++ r.pieces (r.size + 1),
                                      rtAt := if r.rt && !c.queue.any ArbReq.rt then r.since else c.rtAt }
      exact ⟨q, t, h⟩

/-- They leave what decides whether the channel serves. -/
theorem mcServes_upMc_queue {f : Mc → Mc} (hf : QueueOnly f) (s : State) {m : Nat} (hm : m < s.mcs.length) :
    (s.upMc m f).mcServes m = s.mcServes m := by
  obtain ⟨q, t, h⟩ := hf (s.mc m)
  have hr : ((s.upMc m f).mc m).repair = (s.mc m).repair := by rw [upMc_mc_same s m f hm, h]
  have hs : ((s.upMc m f).mc m).selfref = (s.mc m).selfref := by rw [upMc_mc_same s m f hm, h]
  unfold State.mcServes State.waits
  rw [hr, hs]
  rfl

/-- A chip has room for eight channels. -/
theorem mcs_of_shaped {s : State} (h : Safety.shaped s) : s.mcs.length = 8 := by
  obtain ⟨-, -, -, -, hm, -⟩ := h
  exact hm

/-- The state at a decision: its requests have arrived. -/
theorem arrived {s s0 : State} {m t0 : Nat} {reqs : List ArbReq} (hs : Safety.shaped s) (hm : m < 8) (h0 : s0 = (s.at t0).arriveAll m reqs) :
    ∃ q t, s0.mc m = { s.mc m with queue := q, rtAt := t } ∧ (∀ j, j ≠ m → s0.mc j = s.mc j) ∧ s0.regs = s.regs ∧ s0.mem = s.mem ∧
      s0.bursts = s.bursts ∧ s0.mcServes m = s.mcServes m ∧ m < s0.mcs.length := by
  obtain ⟨f, hf, h⟩ := arriveAll_eq m reqs (s.at t0)
  obtain ⟨q, t, hq⟩ := hf (s.mc m)
  have hl : m < (s.at t0).mcs.length := by
    rw [show (s.at t0).mcs = s.mcs from rfl, mcs_of_shaped hs]
    exact hm
  rw [h0, h]
  exact ⟨q, t, (upMc_mc_same _ m f hl).trans hq, fun j hj => upMc_mc_ne _ f hj, rfl, rfl, rfl, mcServes_upMc_queue hf _ hl,
    by rw [upMc_mcs, List.length_modify]; exact hl⟩

/-- One request that is not of the real-time class joins in its transfers. -/
theorem arriveAll_one {s : State} {m : Nat} {r : ArbReq} (hm : m < s.mcs.length) (hr : r.rt = false) :
    ((s.arriveAll m [r]).mc m).queue = (s.mc m).queue ++ r.pieces (r.size + 1) := by
  unfold State.arriveAll
  rw [List.foldl_cons, List.foldl_nil]
  unfold State.arrive
  rw [if_neg (by rw [hr, Bool.false_and]; decide), upMc_mc_same _ _ _ hm]

/-! ### A decision -/

/-- One requester's wait counter after a grant to win: it is 0 for win itself. -/
def countWait (win : Nat) (w : List (Nat × Nat)) (id : Nat) : List (Nat × Nat) :=
  if id = win then kDel w id else kSet w id (satAdd 8 ((kGet w id).getD 0) 1)

theorem countWait_same (win : Nat) (w : List (Nat × Nat)) (id : Nat) :
    (kGet (countWait win w id) id).getD 0 = if id = win then 0 else satAdd 8 ((kGet w id).getD 0) 1 := by
  unfold countWait
  split
  · rw [kGet_kDel_same]
    rfl
  · rw [kGet_kSet_same]
    rfl

theorem countWait_ne (win : Nat) (w : List (Nat × Nat)) {id j : Nat} (h : j ≠ id) : kGet (countWait win w id) j = kGet w j := by
  unfold countWait
  split
  · exact kGet_kDel_ne _ h
  · exact kGet_kSet_ne _ _ h

/-- Each of the requesters that wait is counted once. -/
theorem foldl_countWait (win : Nat) {id : Nat} : ∀ (ids : List Nat) (w : List (Nat × Nat)), ids.Nodup → id ∈ ids →
    (kGet (ids.foldl (countWait win) w) id).getD 0 = if id = win then 0 else satAdd 8 ((kGet w id).getD 0) 1 := by
  have hskip : ∀ (ids : List Nat) (w : List (Nat × Nat)), id ∉ ids → kGet (ids.foldl (countWait win) w) id = kGet w id := by
    intro ids
    induction ids with
    | nil => exact fun w _ => rfl
    | cons a as ih =>
      intro w h
      rw [List.mem_cons, not_or] at h
      rw [List.foldl_cons, ih _ h.2, countWait_ne _ _ h.1]
  intro ids
  induction ids with
  | nil => exact fun w _ h => absurd h List.not_mem_nil
  | cons a as ih =>
    intro w hn h
    rw [List.nodup_cons] at hn
    rw [List.foldl_cons]
    rcases List.mem_cons.mp h with rfl | h
    · rw [hskip _ _ hn.1, countWait_same]
    · rw [ih _ hn.2 h, countWait_ne _ _ (show id ≠ a from fun e => hn.1 (e ▸ h))]

/-- What a decision counts: the wait counters and the order at the limit alone. -/
theorem arbCount_eq (s : State) (m win : Nat) : ∃ f : Mc → Mc, s.arbCount m win = s.upMc m f ∧ ∀ c, ∃ a, f c =
    { c with waits := ((((s.mc m).queue.filter (fun r => !r.rt)).map ArbReq.id).dedup).foldl (countWait win) c.waits, atLimit := a } := by
  refine ⟨_, upMc_upMc _ _ _ _, fun c => ⟨_, rfl⟩⟩

/-- The channel after a grant to r at a time t. -/
def Mc.granted (r : ArbReq) (forced : Bool) (t : Nat) (c : Mc) : Mc :=
  { c with grant := some r.id, prevForced := forced, queue := c.queue.erase r, rtAt := if r.rt then t else c.rtAt }

/-- A request that is granted leaves the queue, and the others wait one more. -/
theorem grantTo_facts {s : State} {m : Nat} (hm : m < s.mcs.length) (r : ArbReq) (forced : Bool) (ref : Option (Nat × Bool)) :
    (((s.grantTo m r forced ref).mc m).grant = some r.id ∧ ((s.grantTo m r forced ref).mc m).prevForced = forced ∧
      ((s.grantTo m r forced ref).mc m).queue = (s.mc m).queue.erase r ∧
      (∀ q ∈ (s.mc m).queue, arbKind q.id ≠ none → ((s.grantTo m r forced ref).mc m).wait q.id =
        if q.id = r.id then 0 else satAdd 8 ((s.mc m).wait q.id) 1)) ∧
      (∀ j, j ≠ m → (s.grantTo m r forced ref).mc j = s.mc j) ∧ (s.grantTo m r forced ref).mem = s.mem ∧
      (s.grantTo m r forced ref).bursts = s.bursts := by
  obtain ⟨f, hf, hc⟩ := arbCount_eq s m r.id
  obtain ⟨a, ha⟩ := hc (s.mc m)
  have hto : ∃ g : Mc → Mc, (g (f (s.mc m))).grant = some r.id ∧ (g (f (s.mc m))).prevForced = forced ∧
      (g (f (s.mc m))).queue = (f (s.mc m)).queue.erase r ∧ (g (f (s.mc m))).waits = (f (s.mc m)).waits ∧
      (s.grantTo m r forced ref).mcs = (s.upMc m (g ∘ f)).mcs ∧ (s.grantTo m r forced ref).mem = s.mem ∧
      (s.grantTo m r forced ref).bursts = s.bursts := by
    refine ⟨Mc.granted r forced s.dtime, rfl, rfl, rfl, rfl, ?_⟩
    unfold State.grantTo
    rw [hf, upMc_upMc]
    change State.mcs (ite _ _ _) = (s.upMc m (Mc.granted r forced s.dtime ∘ f)).mcs ∧ State.mem (ite _ _ _) = s.mem ∧
      State.bursts (ite _ _ _) = s.bursts
    by_cases h1 : forced = true
    · rw [if_pos h1]
      exact ⟨rfl, rfl, rfl⟩
    · rw [if_neg h1]
      by_cases h2 : r.rt = true
      · rw [if_pos h2]
        exact ⟨rfl, rfl, rfl⟩
      · rw [if_neg h2]
        exact ⟨rfl, rfl, rfl⟩
  obtain ⟨g, hg, hp, hq, hw, hmcs, hmem, hb⟩ := hto
  have hmc : ∀ j, (s.grantTo m r forced ref).mc j = (s.upMc m (g ∘ f)).mc j := by
    intro j
    unfold State.mc
    rw [hmcs]
  rw [hmc m, upMc_mc_same _ _ _ hm]
  refine ⟨⟨hg, hp, hq.trans (by rw [ha]), fun q hqm hk => ?_⟩, fun j hj => (hmc j).trans (upMc_mc_ne _ _ hj), hmem, hb⟩
  have hid : q.id ∈ (((s.mc m).queue.filter (fun r => !r.rt)).map ArbReq.id).dedup := by
    rw [List.mem_dedup, List.mem_map]
    refine ⟨q, List.mem_filter.mpr ⟨hqm, ?_⟩, rfl⟩
    unfold ArbReq.rt
    rw [Option.isNone_eq_false_iff.mpr (Option.isSome_iff_ne_none.mpr hk)]
    rfl
  unfold Mc.wait
  rw [Function.comp_apply, hw, ha]
  exact foldl_countWait r.id _ _ (List.nodup_dedup _) hid

/-- The refresh that a decision issues changes what is owed and the bank next in turn, and counts where it is forced. -/
theorem arbRefresh_facts {s : State} {m : Nat} (hm : m < s.mcs.length) : (∃ o b, (s.arbRefresh m).mc m = { s.mc m with owed := o, nextBank := b }) ∧
    (∀ j, j ≠ m → (s.arbRefresh m).mc j = s.mc j) ∧ (s.arbRefresh m).mem = s.mem ∧ (s.arbRefresh m).bursts = s.bursts ∧
    (s.arbRefresh m).mcs.length = s.mcs.length := by
  unfold State.arbRefresh
  split
  · exact ⟨⟨_, _, upMc_mc_same s m Mc.refresh hm⟩, fun j hj => upMc_mc_ne s Mc.refresh hj, rfl, rfl, List.length_modify _ _ _⟩
  · exact ⟨⟨_, _, upMc_mc_same s m Mc.refresh hm⟩, fun j hj => upMc_mc_ne s Mc.refresh hj, rfl, rfl, List.length_modify _ _ _⟩
  · exact ⟨⟨_, _, rfl⟩, fun j hj => rfl, rfl, rfl, rfl⟩

/-- One is forced from six owed on (R540). -/
theorem arbRefresh_forced {s : State} {m : Nat} (h : 6 ≤ (s.mc m).owed) :
    s.arbRefresh m = (s.upMc m Mc.refresh).incRf F.MC_REF_STAT_FORCED_REF [m] := by
  unfold State.arbRefresh Mc.refreshes
  rw [if_pos h]

theorem arbiterDecision_grants {s : State} {m : Nat} {reqs : List ArbReq} {t0 : Nat} {r : ArbReq} {forced : Bool} (hl : s.mcLive m = true)
    (hs : ((s.at t0).arriveAll m reqs).mcServes m = true) (hg : (((s.at t0).arriveAll m reqs).arbRefresh m).arbGrant m = some (r, forced)) :
    doArbiterDecision m reqs t0 s = (((s.at t0).arriveAll m reqs).arbRefresh m).grantTo m r forced
      (((s.at t0).arriveAll m reqs).mc m).refreshes := by
  unfold doArbiterDecision
  rw [if_neg (by rw [hl]; decide)]
  dsimp only
  rw [if_neg (by rw [hs]; decide), hg]

theorem arbiterDecision_grants_none {s : State} {m : Nat} {reqs : List ArbReq} {t0 : Nat} (hl : s.mcLive m = true)
    (hs : ((s.at t0).arriveAll m reqs).mcServes m = true) (hg : (((s.at t0).arriveAll m reqs).arbRefresh m).arbGrant m = none) :
    doArbiterDecision m reqs t0 s = ((s.at t0).arriveAll m reqs).arbRefresh m := by
  unfold doArbiterDecision
  rw [if_neg (by rw [hl]; decide)]
  dsimp only
  rw [if_neg (by rw [hs]; decide), hg]

theorem arbiterDecision_no_service {s : State} {m : Nat} {reqs : List ArbReq} {t0 : Nat} (hl : s.mcLive m = true)
    (hs : ((s.at t0).arriveAll m reqs).mcServes m = false) : doArbiterDecision m reqs t0 s = (s.at t0).arriveAll m reqs := by
  unfold doArbiterDecision
  rw [if_neg (by rw [hl]; decide)]
  dsimp only
  rw [if_pos (by rw [hs]; decide)]

theorem mcLive_of_serves {s : State} {m : Nat} (h : s.mcServes m = true) : s.mcLive m = true := by
  unfold State.mcServes at h
  simp only [Bool.and_eq_true] at h
  exact h.1.1.1.1

/-! ### CEIL (R537) -/

/-- The CEIL of one kind made at most 14. -/
def clampOne (v k : Nat) : Nat := if bitsOf v (8 * k + 4) 4 = 15 then setBits v (8 * k + 4) 4 14 else v

theorem clampOne_base (v k j : Nat) : bitsOf (clampOne v k) (8 * j) 4 = bitsOf v (8 * j) 4 := by
  unfold clampOne
  split
  · exact bitsOf_setBits_disjoint (by omega)
  · rfl

theorem clampOne_ceil (v k : Nat) : bitsOf (clampOne v k) (8 * k + 4) 4 = min 14 (bitsOf v (8 * k + 4) 4) := by
  have hl : bitsOf v (8 * k + 4) 4 < 2 ^ 4 := Nat.mod_lt _ (by decide)
  unfold clampOne
  split
  · next h => rw [bitsOf_setBits_same, h]; decide
  · omega

theorem clampOne_ceil_ne (v : Nat) {k j : Nat} (h : j ≠ k) : bitsOf (clampOne v k) (8 * j + 4) 4 = bitsOf v (8 * j + 4) 4 := by
  unfold clampOne
  split
  · exact bitsOf_setBits_disjoint (by omega)
  · rfl

theorem foldl_clampOne (n v : Nat) : (∀ k, bitsOf ((List.range n).foldl clampOne v) (8 * k) 4 = bitsOf v (8 * k) 4) ∧
    ∀ k, bitsOf ((List.range n).foldl clampOne v) (8 * k + 4) 4 = if k < n then min 14 (bitsOf v (8 * k + 4) 4) else bitsOf v (8 * k + 4) 4 := by
  induction n with
  | zero => exact ⟨fun k => rfl, fun k => by rw [if_neg (Nat.not_lt_zero k)]; rfl⟩
  | succ n ih =>
    obtain ⟨hb, hc⟩ := ih
    rw [List.range_succ, List.foldl_append, List.foldl_cons, List.foldl_nil]
    refine ⟨fun k => (clampOne_base _ _ _).trans (hb k), fun k => ?_⟩
    by_cases hk : k = n
    · subst hk
      rw [clampOne_ceil, hc, if_neg (Nat.lt_irrefl k), if_pos (Nat.lt_succ_self k)]
    · rw [clampOne_ceil_ne _ hk, hc]
      by_cases hn : k < n
      · rw [if_pos hn, if_pos (by omega)]
      · rw [if_neg hn, if_neg (by omega)]

theorem clampCeil_eq (v : Nat) : clampCeil v = (List.range 8).foldl clampOne v := rfl

/-! ### Maintenance (R527) -/

/-- The channel after a poll that calls for rate. -/
def Mc.polled (rate : Nat) (c : Mc) : Mc := { c with mult := if rate ≤ 1 then 1 else if rate = 2 then 2 else 4 }

theorem condOff_mc (s : State) (a b c m : Nat) : (s.condOff a b c).mc m = s.mc m := rfl

section
variable {s : State} {m rate t0 : Nat}

theorem maintains_false (h : (∃ r ∈ (s.mc m).queue, r.rt = true) ∨ s.mcServes m = false) : s.maintains m = false := by
  unfold State.maintains
  rcases h with ⟨r, hr, hrt⟩ | h
  · rw [List.any_eq_true.mpr ⟨r, hr, hrt⟩, Bool.not_true, Bool.and_false]
  · rw [h, Bool.false_and]

variable (hm : s.maintains m = true)
include hm

/-- A poll that calls for more than twice the base rate. -/
theorem mr4Poll_hot (hr : 2 < rate) : doMr4Poll m rate t0 s = (((s.at t0).upMc m
    (fun c => { c with mult := 4, hot := true, cool := none })).setRf F.MC_STAT_HOT [m] 1).onset 20 (13 + m) 0 rate := by
  unfold doMr4Poll
  rw [if_neg (by rw [hm]; decide)]
  dsimp only
  rw [if_pos hr, if_neg (by omega), if_neg (by omega), upMc_upMc]
  rfl

/-- A poll that calls for less, of a channel that is not hot. -/
theorem mr4Poll_cold (hr : rate ≤ 2) (hh : (s.mc m).hot = false) (hl : m < s.mcs.length) : doMr4Poll m rate t0 s =
    (s.at t0).upMc m (Mc.polled rate) := by
  have hmc : ((s.at t0).upMc m (Mc.polled rate)).mc m = (s.mc m).polled rate := upMc_mc_same _ _ _ hl
  unfold doMr4Poll
  rw [if_neg (by rw [hm]; decide)]
  refine (if_neg (by omega)).trans (if_neg ?_)
  change ¬ (((s.at t0).upMc m (Mc.polled rate)).mc m).hot = true
  rw [hmc]
  exact fun h => Bool.false_ne_true (hh.symm.trans h)

/-- Of a hot one: the time since which it has cooled stands, and its condition ends. -/
theorem mr4Poll_cools (hr : rate ≤ 2) (hh : (s.mc m).hot = true) (hl : m < s.mcs.length) : ∃ u : State,
    (u.mc m).hot = true ∧ (u.mc m).cool = some ((s.mc m).cool.getD (s.at t0).dtime) ∧ m < u.mcs.length ∧
    (20, 13 + m, 0) ∉ u.collector.live ∧ u.regs = s.regs ∧ u.bursts = s.bursts ∧ u.mem = s.mem ∧
    doMr4Poll m rate t0 s = if (s.mc m).cool.getD (s.at t0).dtime + 10000000 ≤ (s.at t0).dtime then
      (u.upMc m (fun c => { c with hot := false, cool := none })).scan else u := by
  have hl' : m < ((s.at t0).upMc m (Mc.polled rate)).mcs.length := by
    rw [upMc_mcs, List.length_modify]
    exact hl
  have hmc : ((s.at t0).upMc m (Mc.polled rate)).mc m = (s.mc m).polled rate := upMc_mc_same _ _ _ hl
  refine ⟨(((s.at t0).upMc m (Mc.polled rate)).upMc m
    (fun c => { c with cool := some ((s.mc m).cool.getD (s.at t0).dtime) })).condOff 20 (13 + m) 0, ?_, ?_, ?_, condOff_live _ _ _ _, rfl, rfl,
    rfl, ?_⟩
  · rw [condOff_mc, upMc_mc_same _ _ _ hl', hmc]
    exact hh
  · rw [condOff_mc, upMc_mc_same _ _ _ hl']
  · rw [condOff_mcs, upMc_mcs, List.length_modify]
    exact hl'
  · have hcool : ((((s.at t0).upMc m (Mc.polled rate)).mc m).cool.getD (s.at t0).dtime) = (s.mc m).cool.getD (s.at t0).dtime := by
      rw [hmc]
      rfl
    rw [← hcool]
    unfold doMr4Poll
    rw [if_neg (by rw [hm]; decide)]
    refine (if_neg (by omega)).trans (if_pos ?_)
    change (((s.at t0).upMc m (Mc.polled rate)).mc m).hot = true
    rw [hmc]
    exact hh

end

/-- A register write changes that register, and the host's side of the access alone. -/
theorem written_frame (s : State) (off : Nat) (v : W64) : (∀ o, o ≠ off → (s.written.writeFields off v).reg o = s.reg o) ∧
    { s.written.writeFields off v with regs := s.regs, held := s.held, host := s.host } = s ∧
    (s.written.writeFields off v).host = s.hostAccess.host := by
  obtain ⟨g, hg⟩ := writeFields_eq s.written off v
  refine ⟨fun o ho => (writeFields_reg_ne s.written v ho).trans rfl, ?_, ?_⟩
  · rw [hg]
    rfl
  · rw [hg]
    rfl

/-- Settles O46: requests in their transfers, a decision by whether it grants, the refresh, the priorities, maintenance by its guard. -/
theorem memoryTraffic : Obligations.MemoryTraffic := by
  refine ⟨fun s s0 u m t0 reqs hl hm hs h0 => ?_, fun r => ArbReq.pieces_cut _ r (Nat.lt_succ_self _),
    fun s s0 u m t0 reqs hsv hm hs h0 hu => ?_, fun s m hl hsr hm hs => ?_, fun s m v hm => ⟨fun hw => ?_, fun hw => ?_⟩,
    fun s m rate t0 h => ?_, fun s m rate t0 hm hm8 hs => ?_, fun s m hsv hm hs => ?_⟩
  · obtain ⟨q, t, -, -, -, -, -, hserves, -⟩ := arrived (reqs := reqs) (t0 := t0) hs hm rfl
    refine ⟨fun hsv => ?_, fun r hr hrt => ?_⟩
    · rw [h0]
      exact congrArg Host.Outcome.next (arbiterDecision_no_service hl (hserves.trans hsv))
    · rw [h0, hr]
      exact arriveAll_one (by rw [show (s.at t0).mcs = s.mcs from rfl, mcs_of_shaped hs]; exact hm) hrt
  · obtain ⟨q, t, hmc, hne, hregs, hmem, hb, hserves, hlen⟩ := arrived (t0 := t0) hs hm h0
    obtain ⟨⟨o, b, hrm⟩, hrne, hrmem, hrb, hrl⟩ := arbRefresh_facts hlen
    refine ⟨fun hg => ?_, fun r forced hg => ?_, fun howed => ?_⟩
    · subst h0 hu
      exact congrArg Host.Outcome.next (arbiterDecision_grants_none (mcLive_of_serves hsv) (hserves.trans hsv) hg)
    · have hrun : exec (.arbiterDecision m reqs t0) s = .next (u.grantTo m r forced (s0.mc m).refreshes) := by
        subst h0 hu
        exact congrArg Host.Outcome.next (arbiterDecision_grants (mcLive_of_serves hsv) (hserves.trans hsv) hg)
      rw [← hu] at hrm hrne hrmem hrb hrl
      obtain ⟨⟨hgr, hpf, hq, hwait⟩, hj, hgm, hgb⟩ := grantTo_facts (s := u) (m := m) (by rw [hrl]; exact hlen) r forced (s0.mc m).refreshes
      have hqueue : (u.mc m).queue = (s0.mc m).queue := by rw [hrm]
      have hwaits : ∀ id, (u.mc m).wait id = (s.mc m).wait id := by
        intro id
        rw [hrm, hmc]
        rfl
      rw [hqueue] at hq hwait
      exact ⟨_, hrun, hgr, hpf, hq, fun x hx hk => (hwait x hx hk).trans (by rw [hwaits]),
        fun j h => (hj j h).trans ((hrne j h).trans (hne j h)), hgm.trans (hrmem.trans hmem), hgb.trans (hrb.trans hb)⟩
    · have h6 : 6 ≤ (s0.mc m).owed := by rw [hmc]; exact howed
      have hmcu : u.mc m = (s0.mc m).refresh := by
        rw [hu, arbRefresh_forced h6]
        exact upMc_mc_same s0 m Mc.refresh hlen
      rw [hmcu, hmc]
      refine ⟨rfl, rfl, ?_⟩
      rw [hu, arbRefresh_forced h6, rf_incRf_same _ _ _ _ (by decide)]
      rw [rf_congr (t := s0.upMc m Mc.refresh) (s := s) hregs]
  · have hlen : m < s.mcs.length := by rw [mcs_of_shaped hs]; exact hm
    refine ⟨s.upMc m (fun c => { c with owed := min 8 (c.owed + 1) }), congrArg Host.Outcome.next (if_pos ?_), upMc_mc_same _ _ _ hlen,
      fun j hj => upMc_mc_ne _ _ hj, rfl⟩
    rw [hl, hsr]
    rfl
  · obtain ⟨hreg, hfr, hh⟩ := written_frame s (F.MC_ARB_LIMIT_LIMIT.off [m]) v
    refine ⟨s.written.writeFields (F.MC_ARB_LIMIT_LIMIT.off [m]) v, ?_, rfl, hreg, hfr, hh⟩
    refine (congrArg Host.Outcome.next (busWrite_of_writable hw)).trans (congrArg Host.Outcome.next ?_)
    exact (if_neg (not_le.mpr hm)).trans (if_pos rfl)
  · obtain ⟨hreg, hfr, hh⟩ := written_frame s (F.MC_ARB_PRIO_BASE.off [m]) (BitVec.ofNat 64 (clampCeil v.toNat))
    obtain ⟨hbase, hceil⟩ := foldl_clampOne 8 v.toNat
    refine ⟨s.written.writeFields (F.MC_ARB_PRIO_BASE.off [m]) (BitVec.ofNat 64 (clampCeil v.toNat)), ?_, rfl,
      fun k hk => ⟨(hceil k).trans (if_pos hk), hbase k⟩, hreg, hfr, hh⟩
    refine (congrArg Host.Outcome.next (busWrite_of_writable hw)).trans (congrArg Host.Outcome.next ?_)
    exact (if_neg (not_le.mpr hm)).trans (if_neg Bool.false_ne_true)
  · have hf := maintains_false h
    exact ⟨congrArg Host.Outcome.next (if_pos (by rw [hf]; rfl)), congrArg Host.Outcome.next (if_neg (by rw [hf]; decide)),
      congrArg Host.Outcome.next (if_neg (by rw [hf]; decide))⟩
  · have hlen : m < s.mcs.length := by rw [mcs_of_shaped hs]; exact hm8
    refine ⟨fun hr => ?_, fun hr hh => ?_, fun a hr hh ha => ⟨fun ht => ?_, fun ht => ?_⟩⟩
    · obtain ⟨k, hk⟩ := onset_eq (((s.at t0).upMc m (fun c => { c with mult := 4, hot := true, cool := none })).setRf F.MC_STAT_HOT [m] 1)
        20 (13 + m) 0 rate
      have hlive := onset_live (((s.at t0).upMc m (fun c => { c with mult := 4, hot := true, cool := none })).setRf F.MC_STAT_HOT [m] 1)
        20 (13 + m) 0 rate
      have hmc := upMc_mc_same (s.at t0) m (fun c => { c with mult := 4, hot := true, cool := none }) hlen
      have hrun : exec (.mr4Poll m rate t0) s = _ := congrArg Host.Outcome.next (mr4Poll_hot hm hr)
      refine ⟨_, hrun, ?_, ?_, ?_, ?_, hlive, ?_, ?_, ?_⟩ <;> rw [hk]
      · exact (congrArg Mc.hot hmc).trans rfl
      · exact (congrArg Mc.cool hmc).trans rfl
      · exact (congrArg Mc.mult hmc).trans rfl
      · exact rb_setRf_same ((s.at t0).upMc m (fun c => { c with mult := 4, hot := true, cool := none })) F.MC_STAT_HOT [m] true (by decide) rfl
      · exact fun j hj => upMc_mc_ne (s.at t0) _ hj
      · rfl
      · rfl
    · refine ⟨_, congrArg Host.Outcome.next (mr4Poll_cold hm hr hh hlen), (upMc_mc_same _ _ _ hlen).trans ?_, rfl, rfl⟩
      have hmult : (if rate ≤ 1 then 1 else if rate = 2 then 2 else 4) = if rate ≤ 1 then 1 else 2 := by
        split
        · rfl
        · exact if_pos (by omega)
      exact congrArg (fun x => { s.mc m with mult := x }) hmult
    · obtain ⟨u, hhot, hcool, -, hlive, hregs, hb, hmem, hrun⟩ := mr4Poll_cools (t0 := t0) hm hr hh hlen
      rw [← ha, if_neg (by omega)] at hrun
      exact ⟨u, congrArg Host.Outcome.next hrun, hhot, hcool.trans (by rw [ha]), hlive, hregs, hb, hmem⟩
    · obtain ⟨u, -, -, hul, hlive, -, hb, hmem, hrun⟩ := mr4Poll_cools (t0 := t0) hm hr hh hlen
      rw [← ha, if_pos ht] at hrun
      refine ⟨_, u.upMc m (fun c => { c with hot := false, cool := none }), congrArg Host.Outcome.next hrun, rfl, ?_, ?_, hlive, hb, hmem⟩
      · rw [upMc_mc_same _ _ _ hul]
      · rw [upMc_mc_same _ _ _ hul]
  · have hlen : m < s.mcs.length := by rw [mcs_of_shaped hs]; exact hm
    refine ⟨fun h => ⟨_, congrArg Host.Outcome.next (if_pos h), upMc_mc_same _ _ _ hlen, rfl⟩,
      fun h => ⟨_, congrArg Host.Outcome.next (if_pos h), upMc_mc_same _ _ _ hlen, rfl⟩,
      fun h => ⟨_, congrArg Host.Outcome.next (if_pos (by rw [hsv, h]; rfl)), upMc_mc_same _ _ _ hlen, fun j hj => upMc_mc_ne _ _ hj, rfl⟩⟩

end Sys2Proof.Machine
end

