-- ==== Sys2Proof/Proofs/MemoryErrorsAndRepair.lean ====
section
namespace Sys2Proof.Machine

/-! ### The granules known to be bad stay what they are -/

theorem bad_foldl {β : Type} {f : State → β → State} (h : ∀ a x, (f a x).bad = a.bad) (l : List β) (s : State) :
    (l.foldl f s).bad = s.bad := foldl_keep State.bad f h l s

theorem mirror_bad (s : State) (i : MItem) : (s.mirror i).bad = s.bad := by
  obtain ⟨_, _, _, h⟩ := mirror_eq s i
  rw [h]

theorem loseObjects_bad (s : State) (m : Nat) : (s.loseObjects m).bad = s.bad := by
  unfold State.loseObjects
  extract_lets lost s1 s2
  have h2 : s2.bad = s1.bad := bad_foldl (fun a o => mirror_bad _ _) _ _
  refine (bad_foldl (fun a id => ?_) _ _).trans h2
  exact mirror_bad _ _

theorem retireChannel_bad (s : State) (m : Nat) : (s.retireChannel m).bad = s.bad := by
  have hcut : ∀ (l : List Nat) (u : State), (l.foldl (fun s g => s.cutSlice g 0 St.hwFault) u).bad = u.bad := bad_foldl fun _ _ => rfl
  unfold State.retireChannel
  refine ite_keep State.bad rfl ?_
  extract_lets s1 s2 s3 s4
  obtain ⟨_, _, _, _, hd⟩ := degrade_eq ({ s4 with mcs := s4.mcs.modify m (fun c => { c with repair := none, pending := [], queue := [] }) } :
    State).placementChanged 7 (13 + m) 0
  rw [hd]
  exact (bad_foldl (fun a id => mirror_bad a _) _ s3).trans ((hcut _ _).trans (loseObjects_bad s1 m))

theorem candidate_bad (s : State) (m : Nat) (br : Nat × Nat) : (s.candidate m br).bad = s.bad := by
  unfold State.candidate
  refine ite_keep State.bad rfl (ite_keep State.bad rfl (ite_keep State.bad ?_ (retireChannel_bad _ _)))
  obtain ⟨_, _, _, _, h⟩ := log_eq (s.upMc m (fun c => { c with fences := c.fences ++ [br] })) 6 (leBytes 1 m ++ leBytes 1 br.1 ++ leBytes 4 br.2)
  rw [h]
  rfl

theorem countRow_bad (s : State) (m : Nat) (br : Nat × Nat) : (s.countRow m br).bad = s.bad := by
  unfold State.countRow
  exact ite_keep State.bad (candidate_bad _ _ _) rfl

/-- The entries of the log and their order are all that logging a detection changes. -/
theorem logDetect_eq (s : State) (d : Detect) : ∃ g f, (∀ c : Mc, ∃ l, f c = { c with logOrder := l }) ∧
    s.logDetect d = { s with regs := g, mcs := s.mcs.modify (d.addr / 2 ^ 36) f } := by
  have hnone (g : List (Nat × W64)) : ({ s with regs := g } : State) = { s with regs := g, mcs := s.mcs.modify (d.addr / 2 ^ 36) id } := by
    rw [List.modify_id]
  unfold State.logDetect
  dsimp only
  split
  · exact ⟨_, id, fun c => ⟨_, rfl⟩, hnone _⟩
  · split
    · exact ⟨_, id, fun c => ⟨_, rfl⟩, hnone _⟩
    · exact ⟨_, _, fun c => ⟨_, rfl⟩, rfl⟩

theorem logDetect_bad (s : State) (d : Detect) : (s.logDetect d).bad = s.bad := by
  obtain ⟨g, f, -, h⟩ := logDetect_eq s d
  rw [h]

/-! ### An error is counted and reported (R543, R544) -/

/-- The report of a memory error (R543, R544). -/
def State.errorReport (s : State) (d : Detect) : Report :=
  { src := if d.ue then 18 else 19, island := 13 + d.addr / 2 ^ 36, unit := (bankRow d.addr).1, detail := d.word, t := s.dtime
    addr := d.addr / 64 * 64, req := d.req
    access := match d.access with
      | 0 => 1
      | 1 => 3
      | 2 => 4
      | _ => 5
    idkind := (s.translate (d.addr / 64 * 64)).1, id := (s.translate (d.addr / 64 * 64)).2.1, off := (s.translate (d.addr / 64 * 64)).2.2,
    inj := d.inj }

/-- The state with the granule of an error known to be bad. -/
def State.noteBad (s : State) (d : Detect) : State :=
  if d.inj || s.bad.contains (d.addr / 64 * 64) then s else { s with bad := d.addr / 64 * 64 :: s.bad }

theorem memError_ue {s : State} {d : Detect} (h : d.ue = true) : s.memError d =
    ((((s.noteBad d).logDetect d).incRf F.MC_ECC_STAT_UE [d.addr / 2 ^ 36]).candidate (d.addr / 2 ^ 36) (bankRow d.addr)).reportAt
      (s.errorReport d) := by
  unfold State.memError
  exact if_pos h

theorem memError_ce {s : State} {d : Detect} (h : d.ue = false) : s.memError d =
    ((if s.rb F.MC_ECC_CTL_LOG_CE [d.addr / 2 ^ 36] then (s.incRf F.MC_ECC_STAT_CE [d.addr / 2 ^ 36]).logDetect d
      else s.incRf F.MC_ECC_STAT_CE [d.addr / 2 ^ 36]).countRow (d.addr / 2 ^ 36) (bankRow d.addr)).reportAt (s.errorReport d) := by
  unfold State.memError
  exact if_neg (by rw [h]; decide)

theorem memError_mem (s : State) (d : Detect) : (s.memError d).mem = s.mem := (unspoiled_memError s d).mem

theorem reportAt_reports (s : State) (r : Report) : r ∈ (s.reportAt r).collector.reports :=
  List.mem_append_right _ (List.mem_singleton.mpr rfl)

/-- A corrected error leaves the granules known to be bad. -/
theorem memError_ce_bad {s : State} {d : Detect} (h : d.ue = false) : (s.memError d).bad = s.bad := by
  rw [memError_ce h]
  refine (countRow_bad _ _ _).trans (ite_keep State.bad ?_ rfl)
  exact logDetect_bad _ _

/-- The granule of an uncorrectable error that is no injected one is known to be bad. -/
theorem memError_ue_bad {s : State} {d : Detect} (h : d.ue = true) (hi : d.inj = false) :
    (s.memError d).bad.contains (d.addr / 64 * 64) = true := by
  have hb : (s.memError d).bad = (s.noteBad d).bad := by
    rw [memError_ue h]
    exact (candidate_bad _ _ _).trans (logDetect_bad _ _)
  rw [hb]
  unfold State.noteBad
  rw [hi, Bool.false_or]
  split
  · next hc => exact hc
  · exact List.contains_iff_mem.mpr List.mem_cons_self

/-! ### A read that returns (R543, R544, R638) -/

/-- The access of a read (R545). -/
def readAccess (scrub : Bool) (req : Nat) : Nat :=
  if scrub then 3 else if 0x50 ≤ req && req < 0x60 then 2
  else if (0x10 ≤ req && req < 0x20) || req = 0x40 || req = 0x60 || req = 0x61 then 1 else 0

/-- What a read of a channel finds. -/
def State.readDetect (s : State) (m : Nat) (r : ReadRet) (ue inj : Bool) : Detect :=
  let scrub : Bool := r.req = 0x70 && (s.mc m).repair ≠ some (bankRow r.addr)
  { addr := r.addr, req := r.req, access := readAccess scrub r.req, word := r.word, syndrome := r.syndrome, ue := ue, scrub := scrub, inj := inj }

section
variable {s : State} {m : Nat} {r : ReadRet}

theorem readDataReturn_eq (h : s.returns m r = true) : doReadDataReturn m r s =
    if r.err = 2 || (s.at r.t).bad.contains (r.addr / 64 * 64) then ((s.at r.t).memError ((s.at r.t).readDetect m r true false)).readUe r
    else match (s.at r.t).useInjection r.addr with
      | some (true, s1) => s1.memError ((s.at r.t).readDetect m r false true)
      | some (false, s1) => (s1.memError ((s.at r.t).readDetect m r true true)).readUe r
      | none => if r.err = 1 then (s.at r.t).memError ((s.at r.t).readDetect m r false false) else s.at r.t := by
  unfold doReadDataReturn
  rw [if_neg (by rw [h]; decide)]
  rfl

/-- The clock changes nothing about an armed injection. -/
theorem useInjection_at_none {a : Nat} (t : Nat) (h : s.useInjection a = none) : (s.at t).useInjection a = none := by
  unfold State.useInjection at h ⊢
  rw [show (s.at t).collector = s.collector from rfl]
  split
  · next g c harm =>
    rw [harm] at h
    dsimp only at h
    split at h
    · cases h
    · next hg => exact if_neg hg
  · rfl

theorem useInjection_armed {a : Nat} {c : Bool} (h : s.collector.armed = some (a / 64 * 64, c)) :
    s.useInjection a = some (c, { s.incRf F.FLT_INJ_STAT_COUNT [] with collector := { s.collector with armed := none } }) := by
  unfold State.useInjection
  rw [h]
  exact if_pos rfl

end

/-! ### What a lost fetch does to its burst (R164, R136) -/

theorem memError_slices_length (s : State) (d : Detect) : (s.memError d).slices.length = s.slices.length :=
  congrArg (fun l => l.getD 1 0) (units_memError s d)

/-- An uncorrectable error in what a slice fetches for an admitted burst. -/
theorem readUe_fetch {v : State} {r : ReadRet} {b : Burst} (hr : r.req < 0x10) (hb : (v.sl r.sl).ent.bind v.burst = some b)
    (ha : b.admitted = true) (hl : r.sl < v.slices.length) : ((v.readUe r).sl r.sl).seq =
    (v.sl r.sl).seq.fetchLost r (v.translate (r.addr / 64 * 64)).2.2 := by
  unfold State.readUe
  rw [if_pos hr, hb]
  dsimp only
  rw [if_pos ha, upSeq_sl_same _ hl]

theorem fetchLost_taken {q : Seq} {r : ReadRet} (off : Nat) (hq : q.held = none) (ht : r.target = false) :
    q.fetchLost r off = { q with cuts := q.cuts ++ [(r.vec, St.memUe)] } := by
  unfold Seq.fetchLost
  rw [hq]
  exact if_neg (by rw [ht]; decide)

theorem fetchLost_undecided {q : Seq} {r : ReadRet} {hd : Held} {bb : BranchBuf} (off : Nat) (hq : q.held = some hd) (hb : q.brbuf = some bb)
    (ht : r.target = false) (hs : hd.steer ≤ r.vec) : q.fetchLost r off = { q with brbuf := some { bb with fall := bb.fall ++ [r.vec] } } := by
  unfold Seq.fetchLost
  rw [hq, hb]
  dsimp only
  rw [if_neg (by rw [ht]; decide), if_pos hs]

/-! ### The start of a repair (R548) -/

/-- Channel m of one state is that of another but for the order of its log; nothing of device memory changed. -/
structure LoggedOnly (m : Nat) (s t : State) : Prop where
  mem : t.mem = s.mem
  len : t.mcs.length = s.mcs.length
  mc : ∃ l, t.mc m = { s.mc m with logOrder := l }

theorem LoggedOnly.refl (m : Nat) (s : State) : LoggedOnly m s s := ⟨rfl, rfl, _, rfl⟩

theorem LoggedOnly.trans {m : Nat} {a b c : State} (h : LoggedOnly m a b) (g : LoggedOnly m b c) : LoggedOnly m a c := by
  obtain ⟨l, hl⟩ := h.mc
  obtain ⟨k, hk⟩ := g.mc
  exact ⟨g.mem.trans h.mem, g.len.trans h.len, k, by rw [hk, hl]⟩

theorem loggedOnly_of_mcs {m : Nat} {s t : State} (hmem : t.mem = s.mem) (h : t.mcs = s.mcs) : LoggedOnly m s t :=
  ⟨hmem, by rw [h], _, by unfold State.mc; rw [h]⟩

theorem loggedOnly_logDetect {m : Nat} {s : State} (hm : m < s.mcs.length) {d : Detect} (hd : d.addr / 2 ^ 36 = m) : LoggedOnly m s (s.logDetect d) := by
  obtain ⟨g, f, hf, h⟩ := logDetect_eq s d
  obtain ⟨l, hl⟩ := hf (s.mc m)
  rw [h, hd]
  exact ⟨rfl, List.length_modify _ _ _, l, (getD_modify_same _ _ _ _ hm).trans hl⟩

/-- An uncorrectable error in the row under repair makes no candidate. -/
theorem loggedOnly_detected {m : Nat} {s : State} (hm : m < s.mcs.length) {br : Nat × Nat} (hrep : (s.mc m).repair = some br) {d : Detect}
    (hue : d.ue = true) (hd : d.addr / 2 ^ 36 = m) (hbr : bankRow d.addr = br) : LoggedOnly m s (s.detected d) := by
  have h0 : LoggedOnly m s s.draw.draw := loggedOnly_of_mcs rfl rfl
  unfold State.detected
  generalize hx : ({ d with word := Config.freeValue s.freeCtr % 8, syndrome := Config.freeValue (s.freeCtr + 1) % 256 } : Detect) = x
  have hxa : x.addr = d.addr := by rw [← hx]
  have hxu : x.ue = true := by rw [← hx]; exact hue
  rw [memError_ue hxu, hxa, hd, hbr]
  have h1 : LoggedOnly m s.draw.draw (s.draw.draw.noteBad x) := by
    unfold State.noteBad
    split
    · exact .refl m _
    · exact loggedOnly_of_mcs rfl rfl
  have h2 : LoggedOnly m (s.draw.draw.noteBad x) ((s.draw.draw.noteBad x).logDetect x) :=
    loggedOnly_logDetect (by rw [(h0.trans h1).len]; exact hm) (by rw [hxa]; exact hd)
  have h3 : LoggedOnly m s (((s.draw.draw.noteBad x).logDetect x).incRf F.MC_ECC_STAT_UE [m]) :=
    ((h0.trans h1).trans h2).trans (loggedOnly_of_mcs rfl rfl)
  generalize ((s.draw.draw.noteBad x).logDetect x).incRf F.MC_ECC_STAT_UE [m] = u at h3 ⊢
  obtain ⟨l, hl⟩ := h3.mc
  have hcand : u.candidate m br = u := by
    unfold State.candidate
    refine if_pos ?_
    rw [hl]
    simp [hrep]
  rw [hcand]
  exact h3.trans (loggedOnly_of_mcs rfl rfl)

/-- Reading the row that is under repair logs its errors. -/
theorem loggedOnly_copyRow {m : Nat} {s : State} (hm : m < s.mcs.length) {br : Nat × Nat} (hrep : (s.mc m).repair = some br) :
    LoggedOnly m s (s.copyRow m br) := by
  unfold State.copyRow
  have hall : ∀ g ∈ s.bad.filter (fun g => g / 2 ^ 36 = m && bankRow g = br), g / 2 ^ 36 = m ∧ bankRow g = br := by
    intro g hg
    have h := (List.mem_filter.mp hg).2
    simpa only [Bool.and_eq_true, decide_eq_true_eq] using h
  generalize s.bad.filter (fun g => g / 2 ^ 36 = m && bankRow g = br) = gs at hall ⊢
  have hind : ∀ (gs : List Nat) (u : State), (∀ g ∈ gs, g / 2 ^ 36 = m ∧ bankRow g = br) → LoggedOnly m s u →
      LoggedOnly m s (gs.foldl (fun s g => s.detected { addr := g, req := 0x70, access := 0, ue := true }) u) := by
    intro gs
    induction gs with
    | nil => exact fun u _ hu => hu
    | cons g gs ih =>
      intro u hg hu
      obtain ⟨hgm, hgb⟩ := hg g List.mem_cons_self
      obtain ⟨l, hl⟩ := hu.mc
      refine ih _ (fun x hx => hg x (List.mem_cons_of_mem _ hx)) (hu.trans (loggedOnly_detected ?_ (br := br) ?_ rfl hgm hgb))
      · rw [hu.len]
        exact hm
      · rw [hl]
        exact hrep
  exact hind gs s hall (.refl m s)

/-- What starves leaves the channels and device memory. -/
theorem starve_keeps (s : State) (m : Nat) : (s.starve m).mcs = s.mcs ∧ (s.starve m).mem = s.mem := by
  unfold State.starve
  refine ⟨foldl_keep State.mcs _ (fun _ _ => ?_) _ s, foldl_keep State.mem _ (fun _ _ => ?_) _ s⟩
  · rfl
  · rfl

/-- The repair of the row next in the list starts, and the channel serves no more. -/
theorem startRepair_starts {s : State} {m : Nat} {br : Nat × Nat} {rest : List (Nat × Nat)} (hm : m < s.mcs.length)
    (hp : (s.mc m).pending = br :: rest) (hs : s.mcServes m = true) :
    (∃ l, (s.startRepair m).mc m = { s.mc m with repair := some br, pending := rest, logOrder := l }) ∧
      (s.startRepair m).mcs.length = s.mcs.length ∧ (s.startRepair m).mem = s.mem := by
  have heq : s.startRepair m = ((s.upMc m (fun c => { c with repair := some br, pending := rest })).starve m).copyRow m br := by
    unfold State.startRepair
    rw [hp]
    exact if_pos hs
  rw [heq]
  have hup : (s.upMc m (fun c => { c with repair := some br, pending := rest })).mc m = { s.mc m with repair := some br, pending := rest } :=
    upMc_mc_same _ _ _ hm
  have hul : (s.upMc m (fun c => { c with repair := some br, pending := rest })).mcs.length = s.mcs.length := List.length_modify _ _ _
  have hum : (s.upMc m (fun c => { c with repair := some br, pending := rest })).mem = s.mem := rfl
  generalize s.upMc m (fun c => { c with repair := some br, pending := rest }) = u at hup hul hum ⊢
  obtain ⟨hmcs, hmem⟩ := starve_keeps u m
  have hmc : (u.starve m).mc m = u.mc m := by
    unfold State.mc
    rw [hmcs]
  have hc := loggedOnly_copyRow (s := u.starve m) (m := m) (br := br) (by rw [hmcs, hul]; exact hm) (by rw [hmc, hup])
  obtain ⟨l, hl⟩ := hc.mc
  exact ⟨⟨l, by rw [hl, hmc, hup]⟩, hc.len.trans ((congrArg List.length hmcs).trans hul), hc.mem.trans (hmem.trans hum)⟩

theorem startRepair_none {s : State} {m : Nat} (h : (s.mc m).pending = []) : s.startRepair m = s := by
  unfold State.startRepair
  rw [h]

theorem not_places {s : State} {m : Nat} {br : Nat × Nat} (hm : m < s.mcs.length) (h : (s.mc m).repair = some br) : s.places = false := by
  unfold State.places
  rw [List.all_eq_false]
  refine ⟨s.mcs[m], List.getElem_mem hm, ?_⟩
  have hmc : s.mc m = s.mcs[m] := by
    unfold State.mc
    rw [List.getD_eq_getElem _ _ hm]
  rw [← hmc, h]
  exact Bool.false_ne_true

theorem not_serves {s : State} {m : Nat} {br : Nat × Nat} (h : (s.mc m).repair = some br) : s.mcServes m = false := by
  unfold State.mcServes State.waits
  rw [h, Option.isSome_some, Bool.not_true, Bool.and_false]

/-! ### The end of a repair (R548) -/

/-- The bank of a row repaired has no row left; the channel is out of repair. -/
def Mc.repaired (b : Nat) (c : Mc) : Mc :=
  { c with repair := none, ppr := c.ppr.filter (· ≠ b), pending := c.pending.filter (fun br => br.1 ≠ b) }

/-- With no other row of the bank waiting, no row is fenced. -/
theorem fenceBank_alone {s : State} {m b : Nat} (hm : m < s.mcs.length) (h : ∀ x ∈ (s.mc m).pending, x.1 ≠ b) :
    (s.upMc m (fun c => { c with repair := none })).fenceBank m b = s.upMc m (Mc.repaired b) := by
  have hws : ((s.upMc m (fun c => { c with repair := none })).mc m).pending.filter (fun br => br.1 = b) = [] := by
    rw [upMc_mc_same _ _ _ hm, List.filter_eq_nil_iff]
    exact fun x hx hb => h x hx (of_decide_eq_true hb)
  unfold State.fenceBank
  dsimp only
  rw [hws, List.foldl_nil, upMc_upMc]
  rfl

/-- The state in which a repair of the bank b has been counted and logged. -/
def State.repairDone (s : State) (m : Nat) (br : Nat × Nat) : State :=
  let s2 := (s.incRf F.MC_PPR_STAT_USED [m]).setRf F.MC_PPR_STAT_AVAIL [m] (s.rf F.MC_PPR_STAT_AVAIL [m] - 1)
  let used := s2.rf F.MC_PPR_STAT_USED [m]
  { s2 with life := { s2.life with ppr := s2.life.ppr.set m used } }.log 5 (leBytes 1 m ++ leBytes 1 br.1 ++ leBytes 4 br.2 ++ leBytes 1 used)

/-- Nothing else than registers, records and what is sent changes. -/
theorem repairDone_eq (s : State) (m : Nat) (br : Nat × Nat) : ∃ h g o l x, s.repairDone m br =
    { s with host := h, regs := g, out := o, logQ := l, life := x } := by
  unfold State.repairDone
  extract_lets s2 used
  obtain ⟨h, g, o, l, hl⟩ := log_eq { s2 with life := { s2.life with ppr := s2.life.ppr.set m used } } 5
    (leBytes 1 m ++ leBytes 1 br.1 ++ leBytes 4 br.2 ++ leBytes 1 used)
  rw [hl]
  exact ⟨h, g, o, l, _, rfl⟩

/-- Of the registers, the records' own and that of the repairs. -/
theorem repairDone_reg_ne (s : State) (m : Nat) (br : Nat × Nat) {o : Nat} (h1 : o ≠ F.HOST_ERR_RING.off []) (h2 : o ≠ F.HOST_EVT_DROPPED_COUNT.off [])
    (h3 : o ≠ F.LIFE_STAT_DROPPED.off []) (h4 : o ≠ F.MC_PPR_STAT_USED.off [m]) : (s.repairDone m br).reg o = s.reg o := by
  unfold State.repairDone
  extract_lets s2 used
  refine (log_reg_ne _ _ _ h1 h2 h3).trans ?_
  exact (reg_setRf_ne (s.incRf F.MC_PPR_STAT_USED [m]) F.MC_PPR_STAT_AVAIL [m] _ h4).trans (reg_setRf_ne s F.MC_PPR_STAT_USED [m] _ h4)

theorem repairDone_used (s : State) (m : Nat) (br : Nat × Nat) :
    (s.repairDone m br).rf F.MC_PPR_STAT_USED [m] = satAdd F.MC_PPR_STAT_USED.w (s.rf F.MC_PPR_STAT_USED [m]) 1 := by
  have h2 : ((s.incRf F.MC_PPR_STAT_USED [m]).setRf F.MC_PPR_STAT_AVAIL [m] (s.rf F.MC_PPR_STAT_AVAIL [m] - 1)).rf F.MC_PPR_STAT_USED [m] =
      satAdd F.MC_PPR_STAT_USED.w (s.rf F.MC_PPR_STAT_USED [m]) 1 :=
    (rf_setRf_disjoint _ F.MC_PPR_STAT_AVAIL F.MC_PPR_STAT_USED [m] [m] _ rfl (by decide) (by decide)).trans
      (rf_incRf_same _ _ _ _ (by decide))
  refine Eq.trans ?_ h2
  unfold State.repairDone
  extract_lets s2 used
  unfold State.rf
  rw [log_reg_ne _ _ _ (by simp only [RF.off, F.MC_PPR_STAT_USED, F.HOST_ERR_RING, strideOff]; omega)
    (by simp only [RF.off, F.MC_PPR_STAT_USED, F.HOST_EVT_DROPPED_COUNT, strideOff]; omega)
    (by simp only [RF.off, F.MC_PPR_STAT_USED, F.LIFE_STAT_DROPPED, strideOff]; omega)]
  rfl

theorem pprComplete_eq {s : State} {m t0 : Nat} {br : Nat × Nat} (hm : m < s.mcs.length) (hr : (s.mc m).repair = some br)
    (h : ∀ x ∈ (s.mc m).pending, x.1 ≠ br.1) : doPprComplete m t0 s =
    if (((s.at t0).upMc m (Mc.repaired br.1)).repairDone m br |>.startRepair m).waits m then
      (((s.at t0).upMc m (Mc.repaired br.1)).repairDone m br).startRepair m
    else ((((s.at t0).upMc m (Mc.repaired br.1)).repairDone m br).startRepair m).chanBack := by
  have hf := fenceBank_alone (s := s.at t0) (b := br.1) hm h
  unfold doPprComplete
  rw [hr]
  dsimp only
  rw [hf]
  rfl

/-- The channel when the repair has been counted. -/
theorem repaired_done {s : State} {m : Nat} (hm : m < s.mcs.length) (br : Nat × Nat) :
    ((s.upMc m (Mc.repaired br.1)).repairDone m br).mc m = (s.mc m).repaired br.1 ∧
      ((s.upMc m (Mc.repaired br.1)).repairDone m br).mcs.length = s.mcs.length := by
  obtain ⟨h, g, o, l, x, hd⟩ := repairDone_eq (s.upMc m (Mc.repaired br.1)) m br
  rw [hd]
  exact ⟨upMc_mc_same s m _ hm, List.length_modify _ _ _⟩

/-- A channel that is live, trained and powered serves again once its repair is counted. -/
theorem repairDone_serves {s : State} {m : Nat} {br : Nat × Nat} (hl : s.mcLive m = true) (hr : s.rf F.MC_STAT_RATE [m] ≠ 0)
    (hi : s.islUp (13 + m) = true) (hs : (s.mc m).selfref = false) (hw : (s.mc m).repair = none) : (s.repairDone m br).mcServes m = true := by
  obtain ⟨h, g, o, l, x, hd⟩ := repairDone_eq s m br
  have hcaps : (s.repairDone m br).rf F.CAPS_LIVE_MC_LIVE = s.rf F.CAPS_LIVE_MC_LIVE := by
    unfold State.rf
    rw [repairDone_reg_ne _ _ _ (by decide) (by decide) (by decide)
      (by simp only [RF.off, F.CAPS_LIVE_MC_LIVE, F.MC_PPR_STAT_USED, strideOff]; omega)]
  have hrate : (s.repairDone m br).rf F.MC_STAT_RATE [m] = s.rf F.MC_STAT_RATE [m] := by
    unfold State.rf
    rw [repairDone_reg_ne _ _ _ (by simp only [RF.off, F.MC_STAT_RATE, F.HOST_ERR_RING, strideOff]; omega)
      (by simp only [RF.off, F.MC_STAT_RATE, F.HOST_EVT_DROPPED_COUNT, strideOff]; omega)
      (by simp only [RF.off, F.MC_STAT_RATE, F.LIFE_STAT_DROPPED, strideOff]; omega)
      (by simp only [RF.off, F.MC_STAT_RATE, F.MC_PPR_STAT_USED, strideOff]; omega)]
  have hlive : (s.repairDone m br).mcLive m = true := by
    unfold State.mcLive at hl ⊢
    rw [hcaps, hd]
    exact hl
  have hmc : (s.repairDone m br).mc m = s.mc m := by
    rw [hd]
    rfl
  have hup : (s.repairDone m br).islUp (13 + m) = true := by
    rw [hd]
    exact hi
  unfold State.mcServes State.waits
  rw [hlive, hrate, hmc, hup, hs, hw, decide_eq_true hr]
  rfl

/-- Settles O47: a read by what it meets, an error by its kind, a repair from its start to its end. -/
theorem memoryErrorsAndRepair : Obligations.MemoryErrorsAndRepair := by
  refine ⟨fun s u m r hret hu => ⟨fun he hb hi => ?_, fun he hb hi => ?_, fun he => ?_, fun c he hb harm => ?_⟩, fun s d hd => ?_, fun s d hd => ?_,
    fun s u m v hw hm hu => ?_, fun s m br rest hp hs hm hsh => ?_, fun s m t0 hmode hneed hidle => ?_,
    fun s m t0 br hr hm hsh => ⟨fun hp => ?_, fun br2 rest hp hne hl hrate hisl hself => ?_⟩⟩
  · subst hu
    refine congrArg Host.Outcome.next ((readDataReturn_eq hret).trans ?_)
    rw [if_neg (by rw [he, show (s.at r.t).bad = s.bad from rfl, hb]; decide), useInjection_at_none _ hi]
    exact if_neg (by rw [he]; decide)
  · subst hu
    refine ⟨_, (s.at r.t).readDetect m r false false, congrArg Host.Outcome.next ((readDataReturn_eq hret).trans ?_), rfl, rfl, rfl, rfl, rfl, rfl, rfl,
      memError_mem _ _⟩
    rw [if_neg (by rw [he, show (s.at r.t).bad = s.bad from rfl, hb]; decide), useInjection_at_none _ hi]
    exact if_pos he
  · subst hu
    have hc : (decide (r.err = 2) || (s.at r.t).bad.contains (r.addr / 64 * 64)) = true := by
      rw [Bool.or_eq_true, decide_eq_true_eq]
      exact he
    refine ⟨_, (s.at r.t).readDetect m r true false, congrArg Host.Outcome.next ((readDataReturn_eq hret).trans (if_pos hc)), rfl, rfl, rfl, rfl, rfl,
      fun b hreq hb ha hsl hsh ht => ?_⟩
    · have hlen : r.sl < ((s.at r.t).memError ((s.at r.t).readDetect m r true false)).slices.length := by
        obtain ⟨-, hslices, -⟩ := hsh
        rw [memError_slices_length, show (s.at r.t).slices = s.slices from rfl, hslices]
        exact hsl
      have hseq := readUe_fetch hreq hb ha hlen
      refine ⟨fun hh => ?_, fun hd bb hh hbb hst => ?_⟩
      · rw [hseq, fetchLost_taken _ hh ht]
      · rw [hseq, fetchLost_undecided _ hh hbb ht hst]
        exact ⟨rfl, rfl⟩
  · have hinj := useInjection_armed (s := s.at r.t) (a := r.addr) harm
    have hrun : exec (.readDataReturn m r) s = _ := congrArg Host.Outcome.next (readDataReturn_eq hret)
    rw [if_neg (by rw [show (s.at r.t).bad = s.bad from rfl, hb, decide_eq_false he]; decide), hinj] at hrun
    refine ⟨_, ({ (s.at r.t).incRf F.FLT_INJ_STAT_COUNT [] with collector := { s.collector with armed := none } } : State),
      (s.at r.t).readDetect m r (!c) true, hrun, rfl, rfl, rfl, rfl, rfl, rfl, ?_⟩
    cases c with
    | false => exact (if_neg Bool.false_ne_true).symm
    | true => exact (if_pos rfl).symm
  · refine ⟨s.errorReport d, memError_mem s d, memError_ce_bad hd, ?_, rfl, rfl, rfl, ?_⟩
    · exact if_neg (by rw [hd]; decide)
    · rw [memError_ce hd]
      exact reportAt_reports _ _
  · refine ⟨s.errorReport d, memError_mem s d, memError_ue_bad hd, ?_, rfl, rfl, ?_⟩
    · exact if_pos hd
    · rw [memError_ue hd]
      exact reportAt_reports _ _
  · obtain ⟨hreg, hfr, hh⟩ := written_frame s (F.MC_PPR_CTL_MODE.off [m]) v
    have hrun : exec (.pprRun m v) s = .next (doPprRun m v s.written) := congrArg Host.Outcome.next (busWrite_of_writable hw)
    change u = s.written.writeFields (F.MC_PPR_CTL_MODE.off [m]) v at hu
    have hdo : doPprRun m v s.written =
        if u.mcLive m && v.toNat.testBit 2 && u.rf F.MC_PPR_CTL_MODE [m] = 1 then u.startRepair m else u := by
      rw [hu]
      exact if_neg (not_le.mpr hm)
    rw [← hu] at hreg hfr hh
    refine ⟨hfr, hh, hreg, fun h => ?_, fun hl hrunbit hmode => ?_⟩
    · rw [hrun, hdo, if_neg]
      rcases h with h | h
      · rw [h, Bool.and_false, Bool.false_and]
        exact Bool.false_ne_true
      · rw [decide_eq_false h, Bool.and_false]
        exact Bool.false_ne_true
    · have hlive : u.mcLive m = true := by
        have hcaps : u.rf F.CAPS_LIVE_MC_LIVE = s.rf F.CAPS_LIVE_MC_LIVE := by
          unfold State.rf
          rw [hreg _ (by simp only [RF.off, F.CAPS_LIVE_MC_LIVE, F.MC_PPR_CTL_MODE, strideOff]; omega)]
        unfold State.mcLive at hl ⊢
        have hn : u.nMc = s.nMc := by
          obtain ⟨g, hg⟩ := writeFields_eq s.written (F.MC_PPR_CTL_MODE.off [m]) v
          rw [hu, hg]
          rfl
        rw [hcaps, hn]
        exact hl
      rw [hrun, hdo, if_pos]
      rw [hlive, hrunbit, decide_eq_true hmode]
      rfl
  · have hlen : m < s.mcs.length := by rw [mcs_of_shaped hsh]; exact hm
    obtain ⟨⟨l, hl⟩, hsl, hmem⟩ := startRepair_starts hlen hp hs
    have hrep : ((s.startRepair m).mc m).repair = some br := by rw [hl]
    exact ⟨hrep, by rw [hl], not_places (by rw [hsl]; exact hlen) hrep, not_serves hrep, hmem⟩
  · refine congrArg Host.Outcome.next (if_pos ?_)
    rw [hmode, hneed, decide_eq_true hidle]
    rfl
  · have hlen : m < s.mcs.length := by rw [mcs_of_shaped hsh]; exact hm
    have hne : ∀ x ∈ (s.mc m).pending, x.1 ≠ br.1 := by
      rw [hp]
      exact fun x hx => absurd hx List.not_mem_nil
    have hrun : exec (.pprComplete m t0) s = _ := congrArg Host.Outcome.next (pprComplete_eq (t0 := t0) hlen hr hne)
    obtain ⟨hmc, -⟩ := repaired_done (s := s.at t0) hlen br
    have hnone : (((s.at t0).upMc m (Mc.repaired br.1)).repairDone m br).startRepair m = ((s.at t0).upMc m (Mc.repaired br.1)).repairDone m br := by
      refine startRepair_none ?_
      rw [hmc]
      show (s.mc m).pending.filter _ = []
      rw [hp, List.filter_nil]
    have hused := repairDone_used ((s.at t0).upMc m (Mc.repaired br.1)) m br
    obtain ⟨h, g, o, l, x, hd⟩ := repairDone_eq ((s.at t0).upMc m (Mc.repaired br.1)) m br
    have hwait : (((s.at t0).upMc m (Mc.repaired br.1)).repairDone m br).waits m = false := by
      unfold State.waits
      rw [hmc]
      rfl
    rw [hnone, if_neg (by rw [hwait]; decide)] at hrun
    refine ⟨_, ((s.at t0).upMc m (Mc.repaired br.1)).repairDone m br, hrun, rfl, ?_, ?_, hused, ?_, ?_, ?_⟩
    · rw [hmc]
      rfl
    · rw [hmc]
      rfl
    · rw [hd]
      rfl
    · rw [hd]
      rfl
    · rw [hd]
      rfl
  · have hlen : m < s.mcs.length := by rw [mcs_of_shaped hsh]; exact hm
    have hrun : exec (.pprComplete m t0) s = _ := congrArg Host.Outcome.next (pprComplete_eq (t0 := t0) hlen hr hne)
    obtain ⟨hmc, hul⟩ := repaired_done (s := s.at t0) hlen br
    have hup : ((s.at t0).upMc m (Mc.repaired br.1)).mc m = (s.mc m).repaired br.1 := upMc_mc_same _ _ _ hlen
    have hpend : ((s.mc m).repaired br.1).pending = br2 :: rest := by
      show (s.mc m).pending.filter _ = _
      rw [List.filter_eq_self.mpr fun x hx => decide_eq_true (hne x hx), hp]
    have hserves : (((s.at t0).upMc m (Mc.repaired br.1)).repairDone m br).mcServes m = true :=
      repairDone_serves hl hrate hisl (by rw [hup]; exact hself) (by rw [hup]; rfl)
    obtain ⟨⟨l, hsm⟩, -, hmem⟩ := startRepair_starts (by rw [hul]; exact hlen) (by rw [hmc]; exact hpend) hserves
    have hwait : ((((s.at t0).upMc m (Mc.repaired br.1)).repairDone m br).startRepair m).waits m = true := by
      unfold State.waits
      rw [hsm]
      rfl
    rw [if_pos hwait] at hrun
    refine ⟨_, hrun, by rw [hsm], by rw [hsm], by rw [hsm, hmc]; rfl, hmem.trans ?_⟩
    obtain ⟨_, _, _, _, _, hd⟩ := repairDone_eq ((s.at t0).upMc m (Mc.repaired br.1)) m br
    rw [hd]
    rfl

end Sys2Proof.Machine
end

