-- ==== Sys2Proof/Proofs/ResetState.lean ====
section
namespace Sys2Proof.Machine

/-! ### What a clock that is lost or returns leaves of the reset's own state (R52, R56, R59, R65)

Boot finds the clocks as they are, and the loss of one ends the work that needs it. None of what ends writes `State.rst`, which holds the
cause of the reset and whether a boot is due. Below is one lemma for each function that such an end reaches. -/

@[simp] theorem rst_ite (c : Prop) [Decidable c] (a b : State) : (if c then a else b).rst = if c then a.rst else b.rst := apply_ite _ _ _ _

@[simp] theorem rst_foldl {β : Type} {f : State → β → State} (h : ∀ a x, (f a x).rst = a.rst) (l : List β) (s : State) :
    (l.foldl f s).rst = s.rst := foldl_keep State.rst f h l s

section
variable {s : State}

@[simp] theorem rst_complete (sq idx r) : (s.complete sq idx r).rst = s.rst := (sends_complete s sq idx r).rst
@[simp] theorem rst_finish (sq idx status) : (s.finish sq idx status).rst = s.rst := (sends_finish s sq idx status).rst
@[simp] theorem rst_onset (src island unit detail) : (s.onset src island unit detail).rst = s.rst := by
  obtain ⟨k, h⟩ := onset_eq s src island unit detail
  rw [h]
@[simp] theorem rst_log (typ data) : (s.log typ data).rst = s.rst := by
  obtain ⟨_, _, _, _, h⟩ := log_eq s typ data
  rw [h]
@[simp] theorem rst_send (n p) : (s.send n p).rst = s.rst := by
  obtain ⟨_, _, h⟩ := send_eq s n p
  rw [h]
@[simp] theorem rst_tether (i) : (s.tether i).rst = s.rst := by
  obtain ⟨_, _, _, h, -⟩ := tether_eq s i
  rw [h]
@[simp] theorem rst_mirror (i) : (s.mirror i).rst = s.rst := by
  obtain ⟨_, _, _, h⟩ := mirror_eq s i
  rw [h]
theorem Told.rst {t : State} (h : Told s t) : t.rst = s.rst := by
  obtain ⟨_, _, _, _, rfl⟩ := h
  rfl
@[simp] theorem rst_ready (tid) : (s.ready tid).rst = s.rst := (told_ready s tid).rst
@[simp] theorem rst_setFlags (tid m) : (s.setFlags tid m).rst = s.rst := (told_setFlags s tid m).rst
@[simp] theorem rst_pairTo (st sub) : (s.pairTo st sub).rst = s.rst := (told_pairTo s st sub).rst
@[simp] theorem rst_placementChanged : s.placementChanged.rst = s.rst := by simp [State.placementChanged]
@[simp] theorem rst_broadcast (typ sub a b) : (s.broadcast typ sub a b).rst = s.rst := by simp [State.broadcast]
@[simp] theorem rst_mirrorEvent (sub aux p0 p1) : (s.mirrorEvent sub aux p0 p1).rst = s.rst := (told_mirrorEvent s sub aux p0 p1).rst
@[simp] theorem rst_linkEvent (n sub lane) : (s.linkEvent n sub lane).rst = s.rst := by
  obtain ⟨_, _, _, h⟩ := linkEvent_eq s n sub lane
  rw [h]
@[simp] theorem rst_unprotect (r i) : (s.unprotect r i).rst = s.rst := by simp [State.unprotect]
@[simp] theorem rst_mirrorCap (r i off bs) : (s.mirrorCap r i off bs).rst = s.rst := by simp [State.mirrorCap]
@[simp] theorem rst_unprotEnd (site acq) : (s.unprotEnd site acq).rst = s.rst := by
  unfold State.unprotEnd
  split <;> simp

/-! #### Sites, slices and the admission of bursts (R68-R92, R180-R230) -/

@[simp] theorem rst_wake (tid timedOut) : (s.wake tid timedOut).rst = s.rst := by simp [State.wake]
@[simp] theorem rst_upBurst (e f) : (s.upBurst e f).rst = s.rst := by simp [State.upBurst]
@[simp] theorem rst_setSiteMask (g v) : (s.setSiteMask g v).rst = s.rst := by simp [State.setSiteMask]
@[simp] theorem rst_giveSlice (g e grp) : (s.giveSlice g e grp).rst = s.rst := by simp [State.giveSlice]
@[simp] theorem rst_mirrorMap (e) : (s.mirrorMap e).rst = s.rst := by simp [State.mirrorMap]
@[simp] theorem rst_setEntSlices (e l) : (s.setEntSlices e l).rst = s.rst := by
  unfold State.setEntSlices
  split <;> simp
@[simp] theorem rst_inertChans (n mask) : (s.inertChans n mask).rst = s.rst := by simp [State.inertChans]
@[simp] theorem rst_freeSl (g) : (s.freeSl g).rst = s.rst := by simp [State.freeSl]
@[simp] theorem rst_blockHere (e) : (s.blockHere e).rst = s.rst := by
  unfold State.blockHere
  split <;> simp
@[simp] theorem rst_blockEnt (e) : (s.blockEnt e).rst = s.rst := by
  unfold State.blockEnt
  (repeat' split) <;> simp
@[simp] theorem rst_moveSlice (g) : (s.moveSlice g).rst = s.rst := by
  unfold State.moveSlice
  (repeat' split) <;> simp
@[simp] theorem rst_settleSlices (e) : (s.settleSlices e).rst = s.rst := by
  unfold State.settleSlices
  dsimp only
  (repeat' split) <;> simp
@[simp] theorem rst_maskFrom (id v) : (s.maskFrom id v).rst = s.rst := by simp [State.maskFrom]
@[simp] theorem rst_mirrorBurst (b gone) : (s.mirrorBurst b gone).rst = s.rst := by simp [State.mirrorBurst]
@[simp] theorem rst_admitBurst (b) : (s.admitBurst b).rst = s.rst := by
  unfold State.admitBurst
  split
  · rfl
  · split
    next =>
      extract_lets _ b1 s1 s2 rd q s3 s4
      have h3 : s3.rst = s2.rst := rst_foldl (fun _ _ => by rfl) _ _
      have h4 : s4.rst = s.rst := (rst_mirrorBurst _ _).trans (h3.trans (rst_foldl (fun _ _ => by rfl) _ _))
      split
      · exact ite_keep State.rst ((rst_setFlags _ _).trans h4) h4
      · exact h4
@[simp] theorem rst_scanLoop (l) : (scanLoop l s).rst = s.rst := by
  induction l generalizing s with
  | nil => rfl
  | cons b r ih => unfold scanLoop; (repeat' split) <;> simp [ih]
@[simp] theorem rst_scan : s.scan.rst = s.rst := by simp [State.scan]
@[simp] theorem rst_release (b) : (s.release b).rst = s.rst := by
  unfold State.release
  extract_lets s0 s1
  have h1 : s1.rst = s.rst := rst_foldl (fun _ _ => by rfl) _ _
  exact ite_keep State.rst ((rst_mirrorBurst _ _).trans h1) h1

/-! #### Ring alignment (R55, R62) -/

@[simp] theorem rst_stepDtime (k) : (s.stepDtime k).rst = s.rst := ite_keep State.rst rfl (rst_foldl (fun _ _ => by rfl) _ _)
@[simp] theorem rst_passOn (kind cum lead) : (s.passOn kind cum lead).rst = s.rst := by simp [State.passOn]
@[simp] theorem rst_alignTo (l) : (s.alignTo l).rst = s.rst := by
  unfold State.alignTo
  extract_lets k up s1 s2 s3
  have h2 : s2.rst = s.rst := (rst_foldl (fun _ _ => by rfl) _ _).trans (rst_stepDtime _)
  have h3 : s3.rst = s2.rst := by
    unfold s3
    split <;> rfl
  exact h3.trans h2
@[simp] theorem rst_alignPass (kind cum lead) : (s.alignPass kind cum lead).rst = s.rst := by
  simp [State.alignPass]
@[simp] theorem rst_alignStart : s.alignStart.rst = s.rst := by simp [State.alignStart]
@[simp] theorem rst_alignResume : s.alignResume.rst = s.rst := by
  unfold State.alignResume
  split <;> simp
@[simp] theorem rst_alignAbort : s.alignAbort.rst = s.rst := by simp [State.alignAbort]

/-! #### Checkpoints, and errors of device memory (R162, R543-R550) -/

@[simp] theorem rst_setCkptReg (g k) : (s.setCkptReg g k).rst = s.rst := by
  unfold State.setCkptReg
  split <;> simp
@[simp] theorem rst_commitCkpt (g c) : (s.commitCkpt g c).rst = s.rst := by
  unfold State.commitCkpt
  split <;> simp
@[simp] theorem rst_degrade (kind island unit) : (s.degrade kind island unit).rst = s.rst := by
  obtain ⟨_, _, _, _, h⟩ := degrade_eq s kind island unit
  rw [h]
@[simp] theorem rst_loseObjects (m) : (s.loseObjects m).rst = s.rst := by
  unfold State.loseObjects
  extract_lets lost s1 s2
  have h2 : s2.rst = s.rst := rst_foldl (fun _ _ => rst_mirror _) _ _
  refine (rst_foldl (fun _ _ => ?_) _ _).trans h2
  exact rst_mirror _
@[simp] theorem rst_retireChannel (m) : (s.retireChannel m).rst = s.rst := by
  unfold State.retireChannel
  refine ite_keep State.rst rfl ?_
  extract_lets s1 s2 s3 s4
  have h2 : s2.rst = s.rst := (rst_foldl (fun _ _ => by rfl) _ _).trans (rst_loseObjects _)
  have h4 : s4.rst = s.rst := (rst_foldl (fun _ _ => rst_mirror _) _ _).trans h2
  exact (rst_degrade _ _ _).trans h4
@[simp] theorem rst_candidate (m br) : (s.candidate m br).rst = s.rst := by simp [State.candidate]
@[simp] theorem rst_countRow (m br) : (s.countRow m br).rst = s.rst := by simp [State.countRow]
@[simp] theorem rst_logDetect (d) : (s.logDetect d).rst = s.rst := by
  obtain ⟨_, _, -, h⟩ := logDetect_eq s d
  rw [h]
@[simp] theorem rst_memError (d) : (s.memError d).rst = s.rst := by simp [State.memError]
@[simp] theorem rst_detected (d) : (s.detected d).rst = s.rst := by simp [State.detected]
theorem rst_of_useInjection {t : State} {a : Nat} {c : Bool} (h : s.useInjection a = some (c, t)) : t.rst = s.rst := by
  unfold State.useInjection at h
  split at h
  · split at h
    · cases h
      rfl
    · cases h
  · cases h
@[simp] theorem rst_mergeRead (addr req access ue) : (s.mergeRead addr req access ue).rst = s.rst := by
  refine ite_keep State.rst (rst_detected _) ?_
  split
  next h => exact (rst_detected _).trans (rst_of_useInjection h)
  · rfl
@[simp] theorem rst_writeHeader (id ue) : (s.writeHeader id ue).rst = s.rst := by
  unfold State.writeHeader
  split <;> simp
@[simp] theorem rst_endHeader (id) : (s.endHeader id).rst = s.rst := by simp [State.endHeader]
@[simp] theorem rst_upRes (site f) : (s.upRes site f).rst = s.rst := by simp [State.upRes]

/-! #### Results, captures and the end of a part (R163-R175, R273-R301) -/

@[simp] theorem rst_qualify (e bit) : (s.qualify e bit).rst = s.rst := by simp [State.qualify]
@[simp] theorem rst_reduce (g e sites v) : (s.reduce g e sites v).rst = s.rst := by simp [State.reduce]
@[simp] theorem rst_loseRecord (site region) : (s.loseRecord site region).rst = s.rst := by simp [State.loseRecord]
@[simp] theorem rst_stick (flag chan n c) : (s.stick flag chan n c).rst = s.rst := by simp [State.stick]
@[simp] theorem rst_fallIn (e v) : (s.fallIn e v).rst = s.rst := by
  unfold State.fallIn
  (repeat' split) <;> simp
@[simp] theorem rst_setChCounts (x l) : (s.setChCounts x l).rst = s.rst := by
  unfold State.setChCounts
  exact rst_foldl (fun _ _ => by rfl) _ _
@[simp] theorem rst_setSliceCounts (g fails first last) : (s.setSliceCounts g fails first last).rst = s.rst := by
  simp [State.setSliceCounts]
@[simp] theorem rst_sliceHit (g v) : (s.sliceHit g v).rst = s.rst := by simp [State.sliceHit]
@[simp] theorem rst_countSite (e n v d) : (s.countSite e n v d).rst = s.rst := by simp [State.countSite]
@[simp] theorem rst_maskFirst (g v d) : (s.maskFirst g v d).rst = s.rst := by
  unfold State.maskFirst
  split <;> simp
@[simp] theorem rst_countVector (g e v vs) : (s.countVector g e v vs).rst = s.rst := by simp [State.countVector]
@[simp] theorem rst_upCap (g f) : (s.upCap g f).rst = s.rst := by simp [State.upCap]
@[simp] theorem rst_growCredit (g t) : (s.growCredit g t).rst = s.rst := by simp [State.growCredit]
@[simp] theorem rst_settleCredit (n t) : (s.settleCredit n t).rst = s.rst := by simp [State.settleCredit]
@[simp] theorem rst_pay (g n) : (s.pay g n).rst = s.rst := by simp [State.pay]
@[simp] theorem rst_pushRec (g e site v bs) : (s.pushRec g e site v bs).rst = s.rst := by
  unfold State.pushRec
  split <;> simp
@[simp] theorem rst_writeMode (g e now v t mode reason) : (s.writeMode g e now v t mode reason).rst = s.rst := by
  simp [State.writeMode]
@[simp] theorem rst_enterSummary (g e v t reason) : (s.enterSummary g e v t reason).rst = s.rst := by simp [State.enterSummary]
@[simp] theorem rst_closeRanges (g e last) : (s.closeRanges g e last).rst = s.rst := by
  refine (rst_upCap _ _).trans (rst_foldl (fun a y => ?_) _ _)
  split <;> simp
@[simp] theorem rst_captureLate (g e v tset t vs) : (s.captureLate g e v tset t vs).rst = s.rst := by simp [State.captureLate]
@[simp] theorem rst_captureEnd (g e v) : (s.captureEnd g e v).rst = s.rst := by simp [State.captureEnd]
@[simp] theorem rst_tellRegion (r t) : (s.tellRegion r t).rst = s.rst := by simp [State.tellRegion]
@[simp] theorem rst_stampRegion (r near t0 rec) : (s.stampRegion r near t0 rec).rst = s.rst := by simp [State.stampRegion]
@[simp] theorem rst_deliverDue (sample sites t) : (s.deliverDue sample sites t).rst = s.rst := by
  refine rst_foldl (fun a x => ?_) _ _
  dsimp only
  split <;> simp
@[simp] theorem rst_deliverRest (sample sites) : (s.deliverRest sample sites).rst = s.rst := by simp [State.deliverRest]
@[simp] theorem rst_stopOthers (e g t status) : (s.stopOthers e g t status).rst = s.rst := by
  unfold State.stopOthers
  split <;> simp
@[simp] theorem rst_denOff (n c t) : (s.denOff n c t).rst = s.rst := by simp [State.denOff]
@[simp] theorem rst_driversOff (e n t) : (s.driversOff e n t).rst = s.rst := by simp [State.driversOff]
@[simp] theorem rst_sendFails (g c v) : (s.sendFails g c v).rst = s.rst := by
  unfold State.sendFails
  split <;> simp
@[simp] theorem rst_markCkpt (g c i steer) : (s.markCkpt g c i steer).rst = s.rst := by simp [State.markCkpt]
@[simp] theorem rst_settleCharge (g c) : (s.settleCharge g c).rst = s.rst := by
  unfold State.settleCharge
  dsimp only
  split <;> simp
@[simp] theorem rst_endPart (g c x) : (s.endPart g c x).rst = s.rst := by
  unfold State.endPart
  dsimp only
  (repeat' split) <;> simp
@[simp] theorem rst_endStart (e status reason) : (s.endStart e status reason).rst = s.rst := by
  unfold State.endStart
  split
  · rfl
  · exact ite_keep State.rst (rst_foldl (fun _ _ => by rfl) _ _) rfl
@[simp] theorem rst_tellNogo (e status) : (s.tellNogo e status).rst = s.rst := by
  unfold State.tellNogo
  split <;> simp
@[simp] theorem rst_endFilling (e status) : (s.endFilling e status).rst = s.rst := by simp [State.endFilling]
@[simp] theorem rst_raiseEnd (g status) : (s.raiseEnd g status).rst = s.rst := by
  unfold State.raiseEnd
  split <;> simp
@[simp] theorem rst_stopSlice (g t status) : (s.stopSlice g t status).rst = s.rst := by
  unfold State.stopSlice
  split <;> simp
@[simp] theorem rst_endNow (g status) : (s.endNow g status).rst = s.rst := by
  unfold State.endNow
  split <;> simp
@[simp] theorem rst_undoCounts (g e u) : (s.undoCounts g e u).rst = s.rst := by
  unfold State.undoCounts
  extract_lets s1 s2 s3
  have h1 : s1.rst = s.rst := rst_foldl (fun _ _ => by rfl) _ _
  have h3 : s3.rst = s.rst := (rst_foldl (fun _ _ => by rfl) _ _ : s2.rst = s1.rst).trans h1
  split
  · exact h3
  · exact (rst_foldl (fun _ _ => by rfl) _ _).trans h3
@[simp] theorem rst_undoEvents (g e v t) : (s.undoEvents g e v t).rst = s.rst := by simp [State.undoEvents]
@[simp] theorem rst_undoVector (g c u) : (s.undoVector g c u).rst = s.rst := by
  unfold State.undoVector
  extract_lets v e n s1 s2 s3
  have h1 : s1.rst = s.rst := by
    refine rst_foldl (fun a r => ?_) _ _
    split
    · rfl
    · exact rst_setChCounts _ _
  have h2 : s2.rst = s1.rst := by
    unfold s2
    rw [rst_upCap, rst_setSiteMask, rst_setSliceCounts]
  have h3 : s3.rst = s2.rst := upCl_rst _ _ _
  rw [upSeq_rst, rst_undoEvents, rst_undoCounts, h3, h2, h1]
@[simp] theorem rst_cutNow (g status) : (s.cutNow g status).rst = s.rst := by
  unfold State.cutNow
  split <;> simp
@[simp] theorem rst_stopEnt (e t status) : (s.stopEnt e t status).rst = s.rst := by simp [State.stopEnt]

/-! #### Acquisitions and the operations of a task (R352-R371, R420-R428) -/

@[simp] theorem rst_upAcq (site f) : (s.upAcq site f).rst = s.rst := by simp [State.upAcq]
@[simp] theorem rst_growChain (k t) : (s.growChain k t).rst = s.rst := by simp [State.growChain]
@[simp] theorem rst_loseBlock (k site region written) : (s.loseBlock k site region written).rst = s.rst := by simp [State.loseBlock]
@[simp] theorem rst_closeBlock (k t) : (s.closeBlock k t).rst = s.rst := by
  unfold State.closeBlock
  dsimp only
  split <;> simp
@[simp] theorem rst_settleChains (e t) : (s.settleChains e t).rst = s.rst := by simp [State.settleChains]
@[simp] theorem rst_resplit (e) : (s.resplit e).rst = s.rst := by simp [State.resplit]
@[simp] theorem rst_reshare (ks t f) : (s.reshare ks t f).rst = s.rst := by
  unfold State.reshare
  refine (rst_foldl (fun _ _ => rst_resplit _) _ _).trans ((rst_foldl (fun _ _ => by rfl) _ _).trans ?_)
  exact rst_foldl (fun _ _ => rst_settleChains _ _) _ _
@[simp] theorem rst_mirrorLock (k) : (s.mirrorLock k).rst = s.rst := by simp [State.mirrorLock]
@[simp] theorem rst_lockGrant (k o) : (s.lockGrant k o).rst = s.rst := by
  unfold State.lockGrant
  split <;> simp [State.upLock]
@[simp] theorem rst_lockRelease (k abandon) : (s.lockRelease k abandon).rst = s.rst := by
  unfold State.lockRelease
  extract_lets l s0 s1
  have h0 : s0.rst = s.rst := by
    unfold s0
    split <;> rfl
  split
  · exact (rst_mirrorLock _).trans h0
  · exact (rst_lockGrant _ _).trans h0
@[simp] theorem rst_abandonLocks (o) : (s.abandonLocks o).rst = s.rst := by simp [State.abandonLocks]
@[simp] theorem rst_settleTask (tid) : (s.settleTask tid).rst = s.rst := by
  unfold State.settleTask
  split
  · rfl
  · refine ite_keep State.rst ?_ rfl
    split
    rw [(sends_queueEvent _ _).rst, upTask_rst, rst_abandonLocks]
@[simp] theorem rst_writeSlot (tid k bs) : (s.writeSlot tid k bs).rst = s.rst := by simp [State.writeSlot]
@[simp] theorem rst_taskOpEnd (tid k r ck resumable) : (s.taskOpEnd tid k r ck resumable).rst = s.rst := by
  unfold State.taskOpEnd
  split
  · rfl
  · extract_lets o op bs s1 rmax mode last follows named wants again s2
    have h2 : s2.rst = s.rst := ite_keep State.rst (ite_keep State.rst rfl rfl) (ite_keep State.rst rfl rfl)
    exact ite_keep State.rst h2 (((rst_settleTask _).trans (rst_writeSlot _ _ _)).trans h2)
@[simp] theorem rst_opEnd (o k r ck resumable) : (s.opEnd o k r ck resumable).rst = s.rst := by
  unfold State.opEnd
  split <;> simp
@[simp] theorem rst_settleAcq (site) : (s.settleAcq site).rst = s.rst := by
  unfold State.settleAcq
  (repeat' split) <;> simp
@[simp] theorem rst_addEntries (k t) : (s.addEntries k t).rst = s.rst := by
  unfold State.addEntries
  dsimp only
  split <;> simp
@[simp] theorem rst_stopAcq (site st t) : (s.stopAcq site st t).rst = s.rst := by
  unfold State.stopAcq
  split <;> simp
@[simp] theorem rst_peQueue (n i) : (s.peQueue n i).rst = s.rst := by simp [State.peQueue]
@[simp] theorem rst_peCut (n u st) : (s.peCut n u st).1.rst = s.rst := by
  unfold State.peCut
  dsimp only
  (repeat' split) <;> simp
@[simp] theorem rst_peOrphan (n u keep) : (s.peOrphan n u keep).rst = s.rst := by simp [State.peOrphan]
@[simp] theorem rst_dropCalib (sq idx) : (s.dropCalib sq idx).rst = s.rst := by simp [State.dropCalib]
@[simp] theorem rst_peWaitsOrphan (n u drop) : (s.peWaitsOrphan n u drop).rst = s.rst := by simp [State.peWaitsOrphan]
@[simp] theorem rst_calStop (c) (st) (h : CalStop) : (s.calStop c st h).rst = s.rst := by simp [State.calStop]
@[simp] theorem rst_calStopAll (p) (st) (h : CalStop) : (s.calStopAll p st h).rst = s.rst := by simp [State.calStopAll]
@[simp] theorem rst_endMeas (k status q timeout ovf now) : (s.endMeas k status q timeout ovf now).rst = s.rst := by
  simp [State.endMeas]
@[simp] theorem rst_stopMeas (k status) : (s.stopMeas k status).rst = s.rst := by simp [State.stopMeas]
@[simp] theorem rst_freezeChains (e on) : (s.freezeChains e on).rst = s.rst := by
  unfold State.freezeChains
  exact rst_foldl (fun _ _ => by rfl) _ _
@[simp] theorem rst_endWithBurst (e started) : (s.endWithBurst e started).rst = s.rst := by
  unfold State.endWithBurst
  extract_lets s1
  have h1 : s1.rst = s.rst := by
    refine rst_foldl (fun a x => ?_) _ _
    split <;> simp
  simp [h1]
@[simp] theorem rst_endSlice (g st x) : (s.endSlice g st x).rst = s.rst := by simp [State.endSlice]
@[simp] theorem rst_endSites (b st x) : (s.endSites b st x).rst = s.rst := by
  refine rst_foldl (fun a y => ?_) _ _
  extract_lets s1 s2 s3
  have h2 : s2.rst = a.rst := by unfold s2 s1; split <;> simp
  have h3 : s3.rst = a.rst := by unfold s3; split <;> simp [h2]
  simp [h3]
@[simp] theorem rst_blockLate (b) : (s.blockLate b).rst = s.rst := by simp [State.blockLate]
@[simp] theorem rst_finishBurst (b0 y) : (s.finishBurst b0 y).rst = s.rst := by
  unfold State.finishBurst
  dsimp only
  (repeat' split) <;> simp
@[simp] theorem rst_dropBurst (e status reason) : (s.dropBurst e status reason).rst = s.rst := by
  unfold State.dropBurst
  split <;> simp
@[simp] theorem rst_stopBurst (e status) : (s.stopBurst e status).rst = s.rst := by
  unfold State.stopBurst
  split <;> simp

/-! #### Links, the pair and the clocks themselves (R51-R65, R575, R602) -/

@[simp] theorem rst_pairExpose : s.pairExpose.rst = s.rst := by simp [State.pairExpose]
@[simp] theorem rst_releaseRole : s.releaseRole.rst = s.rst := by simp [State.releaseRole]
@[simp] theorem rst_linkFlag (n) : (s.linkFlag n).rst = s.rst := by simp [State.linkFlag]
@[simp] theorem rst_ringCut : s.ringCut.rst = s.rst := by simp [State.ringCut]
@[simp] theorem rst_linkGone (n st) : (s.linkGone n st).rst = s.rst := by simp [State.linkGone]
@[simp] theorem rst_doLrefLoss (t) : (doLrefLoss t s).rst = s.rst := by simp [doLrefLoss]
@[simp] theorem rst_lrefRises : s.lrefRises.rst = s.rst := by simp [State.lrefRises]
@[simp] theorem rst_cutBursts (st) : (s.cutBursts st).rst = s.rst := by simp [State.cutBursts]
@[simp] theorem rst_stopAcqs (mask st) : (s.stopAcqs mask st).rst = s.rst := by simp [State.stopAcqs]
@[simp] theorem rst_reportEither (src island unit) : (s.reportEither src island unit).rst = s.rst := by simp [State.reportEither]
@[simp] theorem rst_foldSub : s.foldSub.rst = s.rst := by simp [State.foldSub]
@[simp] theorem rst_goDark : s.goDark.rst = s.rst := by simp [State.goDark]
@[simp] theorem rst_endDark (t) : (s.endDark t).rst = s.rst := by
  unfold State.endDark
  split <;> simp
@[simp] theorem rst_trefEnds : s.trefEnds.rst = s.rst := by simp [State.trefEnds]
@[simp] theorem rst_trefLost (t) : (s.trefLost t).rst = s.rst := by simp [State.trefLost]
@[simp] theorem rst_trefFault : s.trefFault.rst = s.rst := by
  have hon : (s.condOn 1 29 0).rst = s.rst := ite_keep State.rst rfl rfl
  exact ite_keep State.rst rfl ((rst_reportEither _ _ _).trans hon)
@[simp] theorem rst_doTrefLoss (t) : (doTrefLoss t s).rst = s.rst := by simp [doTrefLoss]
@[simp] theorem rst_doPllRelock (t) : (doPllRelock t s).rst = s.rst := by simp [doPllRelock]
@[simp] theorem rst_doXtalLoss (t) : (doXtalLoss t s).rst = s.rst := by simp [doXtalLoss]
@[simp] theorem rst_doXtalReturn (t) : (doXtalReturn t s).rst = s.rst := by simp [doXtalReturn]

/-- The clocks that the boot finds leave what the reset has set. -/
theorem bootClocks_rst (s : State) (inp : BootInput) : (s.bootClocks inp).rst = s.rst := by
  unfold State.bootClocks
  extract_lets s1 now s2 s3
  have h1 : s1.rst = s.rst := ite_keep State.rst (rst_doXtalReturn _) (rst_doXtalLoss _)
  have h2 : s2.rst = s1.rst := ite_keep State.rst (rst_doPllRelock _) (rst_doTrefLoss _)
  have h3 : s3.rst = s2.rst := ite_keep State.rst rst_lrefRises (rst_doLrefLoss _)
  exact h3.trans (h2.trans h1)

end

end Sys2Proof.Machine
end

