-- ==== Sys2Proof/Proofs/BootAndPatch.lean ====
section
namespace Sys2Proof.Machine

/-! ### Boot (R697, R702, R705, R706, R720) -/

/-- RST_STAT.C_LOOP as a boot leaves it. -/
def State.bootLoops (s : State) : Nat := if s.rst.cause = 4 then min 7 (s.rf F.RST_STAT_C_LOOP + 1) else s.rf F.RST_STAT_C_LOOP

/-- The state in which a boot has found its clocks. -/
def State.bootClocked (s : State) (inp : BootInput) : State :=
  ({ s.at inp.t with rst := { s.rst with due := false, pwrgood := true, resetLow := false, tap := 0 } } : State).bootClocks inp

/-- The state in which it looks at its inputs. -/
def State.bootBegun (s : State) (inp : BootInput) : State :=
  ((s.bootClocked inp).setRf F.RST_STAT_C_LOOP [] s.bootLoops).setRf F.BOOT_STATUS_CAUSE [] s.rst.cause

/-- What a boot does once the fuses and the loop count are good. -/
def State.bootOn (u : State) (inp : BootInput) : State :=
  if !inp.tref then u.bootFails 2 0x02 0
  else if !inp.flash then u.bootFails 3 0x03 0
  else if !inp.sfdp then u.bootFails 3 0x04 0
  else match u.chooseImage inp.slotA inp.slotB with
    | .error (ph, c, d) => u.bootFails ph c d
    | .ok (slot, b, l) => u.bootBoard inp slot b l

theorem bootClocked_rst (s : State) (inp : BootInput) :
    (s.bootClocked inp).rst = { s.rst with due := false, pwrgood := true, resetLow := false, tap := 0 } := bootClocks_rst _ inp

theorem bootBegun_rst (s : State) (inp : BootInput) :
    (s.bootBegun inp).rst = { s.rst with due := false, pwrgood := true, resetLow := false, tap := 0 } := bootClocked_rst s inp

/-- A boot is held off: none is due, or the rails have not recovered for 1 ms (R674). -/
def State.bootHeld (s : State) (t : Nat) : Bool :=
  !s.rst.due || (s.rst.brownout.isSome && (s.power.below ≠ 0 || t < s.power.aboveSince + 1000000))

theorem doBoot_held {s : State} {inp : BootInput} (h : s.bootHeld inp.t = true) : doBoot inp s = s := if_pos h

theorem doBoot_runs {s : State} {inp : BootInput} (h : s.bootHeld inp.t = false) : doBoot inp s =
    if !inp.fuseOk then (s.bootBegun inp).bootFails 1 0x01 0
    else if s.rst.cause = 4 && 5 ≤ s.bootLoops then (s.bootBegun inp).bootFails 1 0x0E 0
    else (s.bootBegun inp).bootOn inp := by
  have hcause : (s.bootClocked inp).rst.cause = s.rst.cause := by rw [bootClocked_rst]
  have hcause2 : (s.bootBegun inp).rst.cause = s.rst.cause := by rw [bootBegun_rst]
  have hbegun : ((s.bootClocked inp).setRf F.RST_STAT_C_LOOP [] s.bootLoops).setRf F.BOOT_STATUS_CAUSE [] (s.bootClocked inp).rst.cause =
      s.bootBegun inp := by rw [hcause, State.bootBegun]
  have hrun : doBoot inp s = (fun u : State => if !inp.fuseOk then u.bootFails 1 0x01 0
      else if u.rst.cause = 4 && 5 ≤ s.bootLoops then u.bootFails 1 0x0E 0
      else u.bootOn inp) (((s.bootClocked inp).setRf F.RST_STAT_C_LOOP [] s.bootLoops).setRf F.BOOT_STATUS_CAUSE [] (s.bootClocked inp).rst.cause) :=
    if_neg (fun hx => Bool.false_ne_true (h.symm.trans hx))
  rw [hrun, hbegun]
  dsimp only
  rw [hcause2]

/-! ### A boot that fails (R706) -/

theorem bootMark_code (u : State) (ph : Nat) {c : Nat} (d : Nat) (hc : c < 256) : (u.bootMark ph c d).rf F.BOOT_STATUS_CODE = c := by
  unfold State.bootMark
  generalize u.setRf F.BOOT_STATUS_PHASE [] ph = v
  rw [rf_setRf_disjoint _ F.BOOT_STATUS_DETAIL F.BOOT_STATUS_CODE [] [] _ rfl (by decide) (by decide), rf_setRf_same _ _ _ _ (by decide)]
  exact Nat.mod_eq_of_lt hc

/-- It reports the code, and only the PCIe domain is on. -/
theorem bootFails_facts (u : State) (ph : Nat) {c : Nat} (d : Nat) (hc : c < 256) : (u.bootFails ph c d).rf F.BOOT_STATUS_CODE = c ∧
    (u.bootFails ph c d).rb F.BOOT_STATUS_FAILED = true ∧ (u.bootFails ph c d).rst = u.rst ∧ (u.bootFails ph c d).power.dom = 2 ^ 88 := by
  have hcode := bootMark_code u ph d hc
  have hrst : (u.bootMark ph c d).rst = u.rst := rfl
  unfold State.bootFails
  generalize u.bootMark ph c d = v at hcode hrst ⊢
  have hregs : ({ v.setRf F.BOOT_STATUS_FAILED [] 1 with power := { (v.setRf F.BOOT_STATUS_FAILED [] 1).power with dom := 2 ^ 88 } } : State).regs =
      (v.setRf F.BOOT_STATUS_FAILED [] 1).regs := rfl
  refine ⟨(rf_congr hregs _ _).trans ?_, (rb_congr hregs _ _).trans ?_, hrst, rfl⟩
  · exact (rf_setRf_disjoint v F.BOOT_STATUS_FAILED F.BOOT_STATUS_CODE [] [] _ rfl (by decide) (by decide)).trans hcode
  · exact rb_setRf_same v F.BOOT_STATUS_FAILED [] true (by decide) rfl

theorem imageFails_magic {s : State} {b : List Byte} (types : List Nat → Bool) (minver : Nat) (h : fld b 0 4 ≠ 0x42535441) :
    s.imageFails b types minver = (5, 0) := by
  unfold State.imageFails
  exact if_pos h

/-- With no image in either slot there is none to boot. -/
theorem chooseImage_none {s : State} {a b : List Byte} (ha : fld a 0 4 ≠ 0x42535441) (hb : fld b 0 4 ≠ 0x42535441) :
    s.chooseImage a b = .error (4, 5, 128) := by
  unfold State.chooseImage
  dsimp only
  rw [imageFails_magic _ _ ha, imageFails_magic _ _ hb]
  rfl

/-! ### PATCH_APPLY (R714) -/

section
variable {s : State} {sq idx : Nat} {d : Desc}

/-- What PATCH_APPLY does with an image of which R701 gives c. -/
def State.patchWith (s : State) (sq idx c : Nat) (b : List Byte) : State :=
  if c ≠ 5 && b.length < fld b 8 4 then s.complete sq idx { status := St.bad, reason := 6 }
  else if c ≠ 0 then s.complete sq idx { status := St.bad, reason := c }
  else match imageOpen b with
    | .error _ => s.complete sq idx { status := St.bad, reason := 0x0B }
    | .ok l => match sectOf l 3 with
      | none => s.complete sq idx { status := St.bad, reason := 6 }
      | some p => if patchOk p s.fuse.romId then (s.loadPatch p).finish sq idx St.ok else s.complete sq idx { status := St.bad, reason := 0x0D }

theorem doPatchApply_eq {img : List Byte} (hd : Safety.ready s sq idx 0x78 d) (hb : s.ballastOn = false) (ha : fld d.bytes 16 8 % 64 = 0)
    (hz : zeroes d.bytes 28 36 = true) (ht : s.paddock.tasks = []) (hm : s.host.pci.busMaster = true) : doPatchApply sq idx (some img) s =
    s.patchWith sq idx (s.imageFails (img.take (fld d.bytes 24 4)) patchTypes (max s.fuse.minver (s.rf F.BOOT_INFO_SEC_VER))).1
      (img.take (fld d.bytes 24 4)) := by
  have hbody : (decide (fld d.bytes 16 8 % 64 ≠ 0) || !zeroes d.bytes 28 36 || !s.paddock.tasks.isEmpty) = false := by
    rw [hz, ht, ha]
    rfl
  have hread : s.hostRead (some img) = some img := if_pos hm
  unfold doPatchApply
  rw [withDesc_of_ready hd, if_neg (by rw [hb]; decide), if_neg (by rw [hbody]; decide), hread]
  rfl

theorem patchWith_desc (c : Nat) (b : List Byte) : (s.patchWith sq idx c b).desc sq idx = none := by
  unfold State.patchWith
  refine ite_keep (State.desc · sq idx) (complete_desc _ _ _ _) (ite_keep (State.desc · sq idx) (complete_desc _ _ _ _) ?_)
  split
  · exact complete_desc _ _ _ _
  · split
    · exact complete_desc _ _ _ _
    · exact ite_keep (State.desc · sq idx) (finish_desc _ _ _ _) (complete_desc _ _ _ _)

/-- An image that fails R701, and is no shorter than its size where it has one. -/
theorem patchWith_fails {c : Nat} {b : List Byte} (hc : c ≠ 0) (hl : c = 5 ∨ fld b 8 4 ≤ b.length) :
    s.patchWith sq idx c b = s.complete sq idx { status := St.bad, reason := c } := by
  have hn : ¬ (decide (c ≠ 5) && decide (b.length < fld b 8 4)) = true := by
    rw [Bool.and_eq_true, decide_eq_true_eq, decide_eq_true_eq]
    omega
  exact (if_neg hn).trans (if_pos hc)

theorem patchWith_short {c : Nat} {b : List Byte} (hc : c ≠ 5) (hl : b.length < fld b 8 4) :
    s.patchWith sq idx c b = s.complete sq idx { status := St.bad, reason := 6 } := by
  refine if_pos ?_
  rw [Bool.and_eq_true, decide_eq_true_eq, decide_eq_true_eq]
  exact ⟨hc, hl⟩

theorem patchWith_passes {b p : List Byte} {l : List (Nat × List Byte)} (hl : fld b 8 4 ≤ b.length) (ho : imageOpen b = .ok l)
    (hp : sectOf l 3 = some p) : s.patchWith sq idx 0 b =
    if patchOk p s.fuse.romId then (s.loadPatch p).finish sq idx St.ok else s.complete sq idx { status := St.bad, reason := 0x0D } := by
  have hn : ¬ (decide (0 ≠ 5) && decide (b.length < fld b 8 4)) = true := by
    rw [Bool.and_eq_true, decide_eq_true_eq, decide_eq_true_eq]
    omega
  unfold State.patchWith
  rw [if_neg hn, if_neg (not_not.mpr rfl), ho]
  dsimp only
  rw [hp]

end

/-- Settles O21: a boot by the first of its inputs that fails, PATCH_APPLY by what R701 gives for the image. -/
theorem bootAndPatch : Obligations.BootAndPatch := by
  refine ⟨fun s inp hdue hrails => ?_, fun s inp h => ?_, fun s sq idx d img hd hb ha hz ht hm => ?_⟩
  · have hheld : s.bootHeld inp.t = false := by
      unfold State.bootHeld
      rcases hrails with h | ⟨h0, ht⟩
      · rw [hdue, h]
        rfl
      · rw [hdue, decide_eq_false (not_not.mpr h0), decide_eq_false (not_lt.mpr ht), Bool.or_self, Bool.and_false]
        rfl
    refine ⟨doBoot inp s, s.bootClocked inp, s.bootBegun inp, s.bootLoops, rfl, rfl, rfl, rfl, ?_⟩
    have hrst := bootBegun_rst s inp
    have hrun := doBoot_runs hheld
    generalize s.bootBegun inp = u at hrst hrun ⊢
    refine ⟨fun hf => ?_, fun hf hc hl => ?_, fun hf hc => ?_⟩
    · rw [hf] at hrun
      obtain ⟨hcode, hfailed, hr, hdom⟩ := bootFails_facts u 1 (c := 1) 0 (by decide)
      rw [hrun]
      exact ⟨rfl, (congrArg Rst.due (hr.trans hrst)).trans rfl, hcode, hfailed, hdom⟩
    · rw [hf, if_neg (by decide), if_pos (by rw [hc, decide_eq_true hl]; rfl)] at hrun
      rw [hrun]
      exact ⟨rfl, (bootFails_facts u 1 0 (by decide)).1⟩
    · have hloop : ¬ (decide (s.rst.cause = 4) && decide (5 ≤ s.bootLoops)) = true := by
        rw [Bool.and_eq_true, decide_eq_true_eq, decide_eq_true_eq]
        exact hc
      rw [hf, if_neg (by decide), if_neg hloop] at hrun
      rw [hrun]
      unfold State.bootOn
      refine ⟨fun h => ?_, fun h1 h => ?_, fun h1 h2 h => ?_, fun h1 h2 h => ⟨fun hA hB => ?_, ?_⟩⟩
      · rw [h]
        exact ⟨rfl, (bootFails_facts u 2 0 (by decide)).1⟩
      · rw [h1, h]
        exact ⟨rfl, (bootFails_facts u 3 0 (by decide)).1⟩
      · rw [h1, h2, h]
        exact ⟨rfl, (bootFails_facts u 3 0 (by decide)).1⟩
      · rw [h1, h2, h, chooseImage_none hA hB]
        exact (bootFails_facts u 4 128 (by decide)).1
      · rw [h1, h2, h]
        generalize u.chooseImage inp.slotA inp.slotB = x
        cases x with
        | error e => rfl
        | ok y => rfl
  · refine congrArg Host.Outcome.next (doBoot_held ?_)
    unfold State.bootHeld
    rcases h with h | ⟨hb, h⟩
    · rw [h]
      rfl
    · rw [Option.isSome_iff_ne_none.mpr hb, Bool.true_and]
      rcases h with h | h
      · rw [decide_eq_true h, Bool.true_or, Bool.or_true]
      · rw [decide_eq_true h, Bool.or_true, Bool.or_true]
  · refine ⟨_, _, _, congrArg Host.Outcome.next (doPatchApply_eq hd hb ha hz ht hm), rfl, rfl, fun h => ?_, fun hc hl => patchWith_fails hc hl,
      fun hc hl => patchWith_short hc hl, fun l p hc hl ho hp => ?_, patchWith_desc _ _⟩
    · rw [imageFails_magic _ _ h]
    · rw [hc]
      exact patchWith_passes hl ho hp

end Sys2Proof.Machine
end
